-- ==== Sys2Proof/Word.lean ====
section
/-! DEFINITION. The words of the machine (64-bit registers, 512-byte vectors, 512-bit predicates), the three engines,
and the sparse table that holds numbered registers, queues, tiles and cores. -/

namespace Sys2Proof

/-- One byte. -/
abbrev Byte := BitVec 8

/-- A scalar register, a special register or a virtual address (R99, R112). -/
abbrev Word := BitVec 64

/-- A vector of 512 bytes; byte j is bits 8j+7..8j (R65). -/
abbrev Vec := BitVec 4096

/-- A predicate of 512 bits; bit j governs byte j (R109). -/
abbrev Pred := BitVec 512

/-- The three engines of a core (R2). -/
inductive Eng where
  | a | x | m
  deriving DecidableEq, Repr

/-- The engine's number in `status.eng` and in records (R114): A 0, X 1, M 2. -/
def Eng.code : Eng → Nat
  | .a => 0
  | .x => 1
  | .m => 2

/-- A sparse table of numbered things: pairs of a number and a value. A number that is not listed holds the default
that the reader of the table names. -/
abbrev Tbl (α : Type) := List (Nat × α)

/-- The value of entry `k`, if listed. -/
def tfind {α : Type} : Tbl α → Nat → Option α
  | [], _ => none
  | (j, v) :: t, k => if j = k then some v else tfind t k

/-- The value of entry `k`, or the default `d`. -/
def tget {α : Type} (t : Tbl α) (k : Nat) (d : α) : α := (tfind t k).getD d

/-- Writes entry `k`, keeping the listed numbers in rising order. -/
def tset {α : Type} : Tbl α → Nat → α → Tbl α
  | [], k, v => [(k, v)]
  | (j, w) :: t, k, v =>
    if j = k then (k, v) :: t
    else if k < j then (k, v) :: (j, w) :: t
    else (j, w) :: tset t k v

/-- Removes entry `k`. -/
def tdel {α : Type} (t : Tbl α) (k : Nat) : Tbl α := t.filter (fun p => p.1 != k)

/-- Replaces element `n` of a list. -/
def lset {α : Type} (l : List α) (n : Nat) (v : α) : List α := l.set n v

/-- Removes element `n` of a list. -/
def ldel {α : Type} : List α → Nat → List α
  | [], _ => []
  | _ :: t, 0 => t
  | h :: t, n + 1 => h :: ldel t n

end Sys2Proof
end

