-- ==== Sys2Proof/Syntax.lean ====
section
/-! DEFINITION. The abstract syntax: the codes that fill the fields of an instruction word, the operand forms, and
`Instr`, one constructor for each row of the opcode table: the instruction forms of the three engines and the events
of the package, its host and its fabric. Register numbers and identifiers are plain numbers whose ranges
`WellFormed` states; immediates are the signed numbers the word encodes. -/

namespace Sys2Proof

/-- The 4-bit type field (R53). -/
inductive Ty where
  | f32 | bf16 | f16 | e4m3 | e5m2 | k4 | s8 | z8 | s16 | z16 | s32 | z32 | s64 | z64 | b8 | anc
  deriving DecidableEq, Repr

/-- The 3-bit rounding field (R54). -/
inductive Rnd where
  | rne | rtz | rup | rdn | rna | rdi
  deriving DecidableEq, Repr

/-- The 3-bit profile field (R55); `np0` is resolved from `npdef` (R87). -/
inductive Np where
  | np0 | np1 | np2 | np3 | np4
  deriving DecidableEq, Repr

/-- The condition of BC (R42). -/
inductive Cond where
  | eq | ne | lt | ge | ltz | gez
  deriving DecidableEq, Repr

/-- The mode field of the M long form (R51): place, accumulate, scaled accumulate. -/
inductive MMode where
  | p | a | s
  deriving DecidableEq, Repr

/-- An A register code of R50 in a field that accepts a handle. -/
inductive ABase where
  | reg (n : Nat)
  | handle (n : Nat)
  deriving DecidableEq, Repr

/-- The offset of the MA format (R43): a signed multiple of the unit, or an index register and log2 of its scale. -/
inductive MOff where
  | imm (off9 : Int)
  | index (r : Nat) (scale : Nat)
  deriving DecidableEq, Repr

/-- A source of an X long form (R46), with its peek bit where it is a queue. -/
inductive XSrc where
  | v (n : Nat)
  | s (n : Nat)
  | q (n : Nat) (peek : Bool)
  | m (n : Nat)
  | lane
  | ones
  deriving DecidableEq, Repr

/-- A vector destination of an X long form (R47). -/
inductive XDst where
  | v (n : Nat)
  | w (n : Nat)
  | e (n : Nat)
  deriving DecidableEq, Repr

/-- A destination that may also be a predicate (VTOPK `.msk`, R203). -/
inductive XAnyDst where
  | vec (d : XDst)
  | p (n : Nat)
  deriving DecidableEq, Repr

/-- The control fields every X long form carries (R45): profile, take, give, guard, zeroing and trap-on-empty. -/
structure XCtl where
  np : Np
  take : Nat
  give : Nat
  guard : Nat
  zeroing : Bool
  trapOnEmpty : Bool
  deriving DecidableEq, Repr

/-- The control fields every A long form carries (R49). -/
structure ACtl where
  np : Np
  take : Nat
  give : Nat
  deriving DecidableEq, Repr

/-- The control fields every M long form carries (R51); a predecessor is absent when its valid bit is clear. -/
structure MCtl where
  np : Np
  take : Nat
  give : Nat
  cid : Nat
  pred1 : Option Nat
  pred2 : Option Nat
  deriving DecidableEq, Repr

/-- A mailbox write on its way between cores or packages (R134, R136, R452). `rel` is 0 for a write that is no release,
else 1 more than the release epoch of the A stream's MBW (R137, R465); `inc` is the incarnation of the target package (R453, R460). -/
structure MboxMsg where
  srcPkg : Nat
  srcCore : Nat
  srcEng : Eng
  dstPkg : Nat
  dstCore : Nat
  mbox : Nat
  value : Word
  ctx : Nat
  launch : Nat
  rel : Nat
  interval : Nat
  inc : Nat
  deriving DecidableEq, Repr

/-- The operand bytes of a request that crosses the fabric (R443). `tid` names it at its source hub; `size` counts the
bytes; `op` is the atomic op of R252, or 15 for CAS; `epoch` is 0, or 1 more than the release epoch. -/
structure FabReq where
  srcPkg : Nat
  tid : Nat
  dstPkg : Nat
  pa : Nat
  inc : Nat
  core : Nat
  eng : Eng
  size : Nat
  op : Nat
  kind : Nat
  cmp : Bool
  rep : Bool
  race : Bool
  det : Bool
  epoch : Nat
  data : List Byte
  deriving DecidableEq, Repr

/-- A host message's header as the receiver checks it (R430): its sequence number. A message whose MAC fails is the
event `hostMessageDrop`. -/
structure HostHdr where
  seq : Nat
  port : Nat
  deriving DecidableEq, Repr

/-- An address of a bulk-class command (R431): virtual in a context, or local physical. -/
inductive HostAddr where
  | virt (ctxid : Nat) (va : Word)
  | phys (pa : Nat)
  deriving DecidableEq, Repr

/-- A piece of a job's architectural state that a debugger reads or writes (R426, R431). -/
inductive DebugItem where
  | pc (e : Eng)
  | scalar (e : Eng) (n : Nat)
  | special (e : Eng) (n : Nat)
  | vector (n : Nat)
  | predicate (n : Nat)
  | mailbox (n : Nat)
  | tileByte (n : Nat)
  | owner (tile : Nat)
  | half (n : Nat)
  | accRow (acc row : Nat)
  | token (fifo : Nat)
  | handle (n : Nat)
  /-- Entry `i` of a q queue, and of a w queue with its mask. -/
  | qEntry (q i : Nat)
  | wEntry (w i : Nat)
  /-- Entry `i` of a loop stack, innermost first. -/
  | loopEntry (e : Eng) (i : Nat)
  | copyLevel (n : Nat)
  /-- An element of a weight buffer. -/
  | weight (wb j n : Nat)
  /-- The full/empty bit of a scalar register, of a v register and of an e half. -/
  | scalarFull (e : Eng) (n : Nat)
  | vectorFull (n : Nat)
  | halfFull (n : Nat)
  /-- The format of an accumulator, and in format anc a row's anchor and a cell of it. -/
  | accFormat (acc : Nat)
  | accAnchor (acc row : Nat)
  | accCell (acc row n : Nat)
  /-- The generation of a decoder table bank with the values of an entry, and an entry. -/
  | bank (b : Nat)
  | bankEntry (b i : Nat)
  deriving DecidableEq, Repr

/-- One instruction form or event: one constructor for each row of the opcode table. Register fields hold register
numbers of the executing engine's scalar file (R40) unless the field's type says otherwise. -/
inductive Instr where
  -- the shared control subset (R121..R150)
  | nop
  | add (d a b : Nat)
  | sub (d a b : Nat)
  | addi (d a : Nat) (imm : Int)
  | mul (d a b : Nat)
  | mulh (d a b : Nat) (z : Bool)
  | madd (d a b : Nat)
  | div (d a b : Nat) (rem z : Bool)
  | and (d a b : Nat)
  | or (d a b : Nat)
  | xor (d a b : Nat)
  | andi (d a : Nat) (imm : Int)
  | ori (d a : Nat) (imm : Int)
  | xori (d a : Nat) (imm : Int)
  | shl (d a b : Nat)
  | shlImm (d a n : Nat)
  | shr (d a b : Nat)
  | shrImm (d a n : Nat)
  | sra (d a b : Nat)
  | sraImm (d a n : Nat)
  | min (d a b : Nat) (z : Bool)
  | max (d a b : Nat) (z : Bool)
  | slt (d a b : Nat) (z : Bool)
  | movi (d : Nat) (imm : Int)
  | movk (d pos imm16 : Nat)
  | clz (d a : Nat)
  | popc (d a : Nat)
  | ext (d a : Nat) (z : Bool) (lsb wm1 : Nat)
  | bc (c : Cond) (a b : Nat) (off : Int)
  | br (off : Int)
  | call (off : Int)
  | jr (a : Nat)
  | jrLk (d a : Nat)
  | loop (d a : Nat) (imm : Int)
  | give (f : Nat)
  | take (f : Nat)
  | mbw (m a b : Nat)
  | mbr (d m : Nat)
  | rdv
  | rdvMask (engines : Nat)
  | bar (engines scope : Nat)
  | barTm (a engines scope : Nat)
  | rdsr (d num : Nat)
  | rdsrQflags (d : Nat)
  | wrsr (a num : Nat)
  | wrsrStatus (a : Nat)
  | wrsrQflags (a : Nat)
  | wrsrNpdef (a : Nat)
  | wrsrDph (a : Nat)
  | wrsrSpass (a : Nat)
  | wrsrSkern (a : Nat)
  | wrsrSdrain (a : Nat)
  | trap (imm : Nat)
  | eret
  | idle (imm : Int)
  | rdcyc (d : Nat)
  -- short forms of the access engine (R244, R281)
  | ld (d : Nat) (base : ABase) (size : Nat) (z : Bool) (off : MOff)
  | st (d : Nat) (base : ABase) (size : Nat) (off : MOff)
  | ldq (q : Nat) (base : ABase) (off : MOff)
  | stq (w : Nat) (base : ABase) (off : MOff)
  | ldt (d : Nat) (base : ABase) (off : MOff)
  | stt (d : Nat) (base : ABase) (off : MOff)
  | amo (d a b op : Nat) (dword : Bool) (ord : Nat)
  | cas (d a b : Nat) (dword : Bool) (ord : Nat)
  | fence (kind scope : Nat)
  | spadj (imm : Int)
  | passM (a n : Nat)
  | passA (a n : Nat)
  | tlbp (d a : Nat) (attrs : Bool)
  | pghint (queue dist : Nat)
  | tlbinv (a reach : Nat)
  | openH (h a b : Nat) (wait : Bool)
  | closeH (h : Nat)
  | bind (d a b : Nat)
  | rebind (d a b : Nat)
  | lpatch (a b f : Nat)
  | larm (d a : Nat)
  | decld (d a e : Nat)
  | ctxsv (a b : Nat)
  | ctxld (a b : Nat)
  -- long forms of the access engine (R245)
  | ldqs (q : Nat) (d : ABase) (a b : Nat) (ty : Ty) (c : ACtl)
  | gathq (q : Nat) (d : ABase) (a b : Nat) (ty : Ty) (c : ACtl)
  | scatq (w : Nat) (d : ABase) (a b : Nat) (ty : Ty) (c : ACtl)
  | rgath (d : ABase) (a b desc : Nat) (ty : Ty) (rnd : Rnd) (sk tx sc : Bool) (c : ACtl)
  | rstrm (d : ABase) (a b desc : Nat) (ty : Ty) (sk : Bool) (c : ACtl)
  | cplvl (level a b st : Nat) (c : ACtl)
  | cpgo (d a : ABase) (b : Nat) (dty sty : Ty) (rnd : Rnd) (mx kind : Nat) (c : ACtl)
  | cpgoPm (d a : Nat) (c : ACtl)
  | cpgath (d a : ABase) (b bags op : Nat) (dty sty : Ty) (rnd : Rnd) (kind : Nat) (c : ACtl)
  | cpscat (d a : ABase) (b : Nat) (addTo : Bool) (dty sty : Ty) (rnd : Rnd) (kind : Nat) (c : ACtl)
  | decq (q : Nat) (d : ABase) (a b entries : Nat) (ty : Ty) (zr : Bool) (c : ACtl)
  -- short forms of the execute engine (R157)
  | sfadd (d a b : Nat) (rnd : Rnd)
  | sfsub (d a b : Nat) (rnd : Rnd)
  | sfmul (d a b : Nat) (rnd : Rnd)
  | sfma (d a b : Nat) (rnd : Rnd)
  | sfdiv (d a b : Nat) (rnd : Rnd)
  | sfsqrt (d a : Nat) (rnd : Rnd)
  | sfmin (d a b : Nat)
  | sfmax (d a b : Nat)
  | sfcmp (d a b cond : Nat)
  | sfcvt (d a : Nat) (rnd : Rnd) (dst src : Nat)
  | vext (d a b : Nat) (s : Bool) (size : Nat)
  | vins (d a b size : Nat)
  | qcnt (d a : Nat) (w : Bool)
  | qdrop (a b : Nat)
  | qdropNw (d a b : Nat)
  | loopp (e a : Nat) (imm : Int)
  | plog (d a b op : Nat)
  | pcnt (d a width : Nat)
  | pfirst (d a width : Nat)
  | pset (d width n : Nat)
  | psetReg (d a width ignored : Nat)
  | ppack (d a : Nat)
  | punpk (d a : Nat)
  | pext (d a b : Nat)
  | pins (d a b : Nat)
  -- long forms of the execute engine (R168, R181)
  | vadd (d : XDst) (a b : XSrc) (ty : Ty) (sat : Bool) (c : XCtl)
  | vsub (d : XDst) (a b : XSrc) (ty : Ty) (sat : Bool) (c : XCtl)
  | vmul (d : XDst) (a b : XSrc) (ty : Ty) (sat : Bool) (c : XCtl)
  | vmulh (d : XDst) (a b : XSrc) (ty : Ty) (c : XCtl)
  | vmad (d : XDst) (a b z : XSrc) (ty : Ty) (sat : Bool) (c : XCtl)
  | vlog (d : XDst) (a b : XSrc) (ty : Ty) (op : Nat) (c : XCtl)
  | vsh (d : XDst) (a b : XSrc) (ty : Ty) (op : Nat) (c : XCtl)
  | vmin (d : XDst) (a b : XSrc) (ty : Ty) (c : XCtl)
  | vmax (d : XDst) (a b : XSrc) (ty : Ty) (c : XCtl)
  | vabs (d : XDst) (a : XSrc) (ty : Ty) (sat : Bool) (c : XCtl)
  | vfadd (d : XDst) (a b : XSrc) (ty : Ty) (rnd : Rnd) (c : XCtl)
  | vfsub (d : XDst) (a b : XSrc) (ty : Ty) (rnd : Rnd) (c : XCtl)
  | vfmul (d : XDst) (a b : XSrc) (ty : Ty) (rnd : Rnd) (c : XCtl)
  | vfma (d : XDst) (a b z : XSrc) (ty : Ty) (rnd : Rnd) (op : Nat) (c : XCtl)
  | vfdiv (d : XDst) (a b : XSrc) (ty : Ty) (rnd : Rnd) (c : XCtl)
  | vfsqrt (d : XDst) (a : XSrc) (ty : Ty) (rnd : Rnd) (c : XCtl)
  | vcmp (p : Nat) (a b : XSrc) (ty : Ty) (cond : Nat) (c : XCtl)
  | vsel (d : XDst) (a b : XSrc) (ty : Ty) (c : XCtl)
  | vmov (d : XDst) (a : XSrc) (ty : Ty) (c : XCtl)
  | viota (d : XDst) (a : XSrc) (ty : Ty) (c : XCtl)
  | vperm (d : XDst) (a b z : XSrc) (ty : Ty) (op : Nat) (c : XCtl)
  | vslide (d : XDst) (a b z : XSrc) (ty : Ty) (up : Bool) (c : XCtl)
  | vred (d : XDst) (a : XSrc) (ty : Ty) (op : Nat) (rnd : Rnd) (c : XCtl)
  | vscan (d : XDst) (a b z : XSrc) (ty : Ty) (op : Nat) (rnd : Rnd) (c : XCtl)
  | vclmul (d : XDst) (a b : XSrc) (op : Nat) (c : XCtl)
  | vcvt (d : XDst) (a b : XSrc) (dty sty : Ty) (rnd : Rnd) (sat : Bool) (c : XCtl)
  | vqpack (d : XDst) (a b : XSrc) (ty : Ty) (kind : Nat) (rnd : Rnd) (c : XCtl)
  | vqunpk (d : XDst) (a b : XSrc) (ty : Ty) (rnd : Rnd) (c : XCtl)
  | vspars (d : XDst) (a : XSrc) (ty : Ty) (op : Nat) (c : XCtl)
  | vtopk (d : XAnyDst) (a b : XSrc) (ty : Ty) (op : Nat) (c : XCtl)
  | vhist (d : XDst) (a b z : XSrc) (ty : Ty) (sat : Bool) (c : XCtl)
  | cscan (d : XDst) (a b z : XSrc) (ty : Ty) (op scope : Nat) (rnd : Rnd) (c : XCtl)
  -- forms of the matrix engine (R299, R306, R307)
  | mqry (d id : Nat)
  | mskip (id a : Nat)
  | mskipCx (id : Nat)
  | mwld (wb ka kb kc : Nat) (ty : Ty) (c : MCtl)
  | mwlds (wb ka kb kc e : Nat) (ty : Ty) (c : MCtl)
  | mrun (acc wb ka kb : Nat) (mode : MMode) (ty : Ty) (cm : Option Nat) (c : MCtl)
  | manch (acc ka kb kc : Nat) (blocks : Option Nat) (c : MCtl)
  | mzero (acc : Nat) (ty : Ty) (c : MCtl)
  | mdrn (acc ka kb kc : Nat) (ty : Ty) (rnd : Rnd) (sat clr : Bool) (kind : Nat) (c : MCtl)
  -- events of a core: `core` is x + 32 y
  /-- Pending long-latency value `n` of a stream lands (R102). -/
  | valueLanding (core : Nat) (e : Eng) (n : Nat)
  /-- Pending queue load `n` of the A stream lands in its reserved entries (R215). -/
  | queueEntryLanding (core n : Nat)
  /-- The transfer of slot `slot` performs its elements up to the first that faults, and suspends (R243). -/
  | transferElementFault (core slot : Nat)
  /-- The transfer of slot `slot` performs its remaining elements and gives (R210). -/
  | transferCompletion (core slot : Nat)
  /-- Row `seq` of the feed in slot `slot` enters M's row port (R261). -/
  | rowPortEntry (core slot seq : Nat)
  | commandIssue (core : Nat)
  | rowPassageBegin (core : Nat)
  | rowResultWrite (core : Nat)
  /-- The issued command at place `n` of the window, other than an MRUN, completes (R298). -/
  | commandRetire (core n : Nat)
  /-- Outstanding CSCAN `n` of the core lands (R192). -/
  | cscanLanding (core n : Nat)
  | barrierRelease (core : Nat)
  | timedBarrierRelease (core : Nat)
  | idleExpiry (core : Nat) (e : Eng)
  | passFlip (core : Nat)
  /-- The oldest write of core `src`'s outbound port, or of the hub's inbound list when `src` is 512, arrives (R136). -/
  | remoteMailboxWriteArrival (src : Nat)
  | heldMailboxWriteEntry (core mbox : Nat)
  -- events of a cluster, a die and the hub
  | pageWalk (cluster ctxid : Nat) (va : Word)
  | nextPageTranslation (core queue : Nat)
  | directoryAct (core : Nat)
  | launchRecordAct (core : Nat)
  | waveStart (record : Nat)
  | preemption (record : Nat)
  | launchRestore (record : Nat)
  | regimeChangeDone (cluster : Nat)
  /-- Every participant of the unit of core `core` has ended its quantum and the unit commits (R370). -/
  | quantumCommit (core : Nat)
  | holdStreamLimit (core : Nat) (e : Eng)
  | holdLimitExpiry (die hold : Nat)
  | droopStretch (cluster eighths : Nat)
  | droopFreeze (cluster : Nat)
  | droopRecovery (cluster : Nat)
  -- the host session (R428..R434) and the host's commands (R431)
  | sessionOpenRequest (nonce hostKey sig ownerKey : List Byte)
  | sessionFeatureAccept (ephemeral : List Byte) (accepted : BitVec 256) (sig : List Byte)
  | memw (h : HostHdr) (addr : HostAddr) (data : List Byte)
  | memr (h : HostHdr) (addr : HostAddr) (len : Nat)
  | ctxnew (h : HostHdr) (desc : List Word)
  | ctxend (h : HostHdr) (ctxid : Nat)
  | recw (h : HostHdr) (index : Nat) (dwords : List Word)
  | recarm (h : HostHdr) (index : Nat)
  | status (h : HostHdr)
  | debugAttach (h : HostHdr) (ctxid : Nat)
  | debugDetach (h : HostHdr) (ctxid : Nat)
  | debugStop (h : HostHdr) (ctxid core : Nat)
  | debugResume (h : HostHdr) (ctxid core : Nat)
  | debugReadState (h : HostHdr) (ctxid core : Nat) (item : DebugItem)
  | debugWriteState (h : HostHdr) (ctxid core : Nat) (item : DebugItem) (value : Vec)
  | setHoldLimit (h : HostHdr) (seconds : Nat)
  | setGaugeBudget (h : HostHdr) (watts : Nat)
  | reset (h : HostHdr)
  | sessionClose (h : HostHdr)
  | sessionIdleTimeout
  | powerUp
  | resetPin
  | junctionAbove105
  | junctionAbove112
  | thermalShutdown
  -- the Rharov fabric (R442..R466)
  /-- Port `port` comes up; `ids` are the package ids that it reaches (R447, R460). -/
  | linkUp (port : Nat) (ids : List Nat)
  | flitReplay (port : Nat)
  | linkDown (port : Nat)
  | laneLockTimeout (port lane : Nat)
  | readRequest (r : FabReq)
  | writeRequest (r : FabReq)
  | atomicRequest (r : FabReq)
  | readResponse (tid : Nat) (data : List Byte)
  | acknowledgement (tid : Nat)
  | nack (tid cause : Nat)
  /-- A mailbox write crosses the fabric: `some m` arrives here from another package; `none` sends the oldest write
  of core `core`'s outbound port that names another package (R452). -/
  | mailboxWrite (m : Option MboxMsg) (core : Nat)
  | releaseClear (srcPkg core epoch : Nat)
  | releaseCancel (srcPkg core epoch : Nat)
  /-- At the leader: a package's arrival at barrier instance `instanceNo` - 1, or, with `instanceNo` 0, the end of its part of wave
  `arrived` (R456, R459). -/
  | fabricBarrierArrival (srcPkg record : Nat) (engines instanceNo arrived : Nat)
  | fabricBarrierRelease (record : Nat) (instanceNo : Nat)
  /-- A grant of `cores` of die `die` (package id · 4 + die) for the lidx values from `first` on arrives (R418, R458). -/
  | dispatchGrant (record die first : Nat) (cores : List Nat)
  | dispatchAcknowledgement (record die : Nat)
  | dispatchStart (record die : Nat)
  | heartbeat (die : Nat)
  | heartbeatTimer (die : Nat)
  | dieFailureTimeout (die : Nat)
  | hello (pkg : Nat) (up : Bool) (inc : Nat)
  | requestTimeout (tid : Nat)
  | peerSilenceTimeout (pkg : Nat)
  | class0WindowEnd (failed : List Nat)
  -- fetch and the remaining events
  | unassignedMajor (w1 : Nat)
  | instructionFetchFault (cause : Nat) (va : Word)
  /-- Pending store `n` of the A stream is performed (R341). -/
  | storePerformed (core n : Nat)
  | tlbinvCompletion (core : Nat)
  | decldLoadDone (core : Nat)
  | hostMessageDrop
  | unknownCommandType (h : HostHdr) (ty : Nat)
  | unsupportedDeliveryMode (port : Nat)
  | reservedOpMessage (port : Nat)
  | junctionCooling (below112 below105 : Bool)
  deriving DecidableEq, Repr

end Sys2Proof
end

