-- ==== Sys2Proof/Config.lean ====
section
/-! DEFINITION. What the spec leaves open, as constants without a body: nothing can evaluate them or prove a value of
them. They are applied to the counter of steps that `State` holds (and to a number that tells apart several free values
of one step), or to the operands they depend on. Each is named in the assumption log. -/

namespace Sys2Proof

/-- Which agent of the package acts in a step: a stream issues an instruction, an event of the opcode table happens, a
transfer of a core performs up to `n` of its elements, or nothing that the model sees happens while time passes. -/
inductive Turn where
  | idle
  | stream (core : Nat) (e : Eng)
  | event (i : Instr)
  | transfer (core slot n : Nat)
  deriving DecidableEq, Repr, Inhabited

namespace Config

/-- The agent that acts when the agenda of the state names none: the spec fixes no order (log 3). -/
opaque freeTurn : Nat → Turn

/-- Nominal cycles of 1.3 GHz that pass in a step (log 3; R336, R473). -/
opaque elapsed : Nat → Nat

/-- A choice that the spec leaves to the hardware: old or new instruction word (R38), cached or fresh translation (R260, R334), a rebuilt
read (R219), a refill of an instruction-cache line, whether the packages of a launch are ready (R457). -/
opaque freeBool : Nat → Nat → Bool

/-- A number that the spec gives no value: the cycles that a request waits for its bank (R227), a word fetched from another package, the
stretching of hot clusters (R441), temperatures and power (R431), the remaining cycles of a result in flight (R426). -/
opaque freeNat : Nat → Nat → Nat

/-- Whether physical addresses lie in the boot-flash window, which R438 names and does not place. -/
opaque bootFlash : Nat → Nat → Bool

/-- The records the Snifer trace buffer holds before it is full (R228 names the buffer and gives no size). -/
opaque sniferCapacity : Nat

/-- SM2 signature verification of a message under a public key (R428). -/
opaque sm2Verify : List Byte → List Byte → List Byte → Bool

/-- The secret that SM2 key exchange over the two ephemeral keys yields (R428). -/
opaque sm2Exchange : List Byte → List Byte → List Byte

/-- The SM2 signature under a private key (R429). -/
opaque sm2Sign : List Byte → List Byte → List Byte

/-- What the fuses hold: the SM3 digests of the owner key and of the Kwasum key (R428, R437), the secret of the device and the minimum
version (R429). -/
opaque ownerHash : List Byte
opaque kwasumHash : List Byte
opaque fusedSecret : List Byte
opaque minimumVersion : Word

/-- The SM2 key that the boot ROM derives from the fused secret and the digest of measurement 0 (R429). -/
opaque identityKey : List Byte → List Byte → List Byte

/-- The device's ephemeral SM2 key of a session opening (R428). -/
opaque deviceEphemeral : Nat → List Byte

/-- The bytes of the boot ROM, and those of the fuse configuration and the repair map (R429). -/
opaque bootRom : List Byte
opaque fuseConfig : List Byte

/-- The hub firmware image of slot 0 (A) or 1 (B) in the boot flash, by the bytes written to the flash, with its signature, the key that
signed it and its version; and the four die firmware images that it brings, each with its signature (R437). -/
opaque slotImage : List (Nat × Byte) → Nat → List Byte
opaque slotSignature : List (Nat × Byte) → Nat → List Byte
opaque slotKey : List (Nat × Byte) → Nat → List Byte
opaque slotVersion : List (Nat × Byte) → Nat → Word
opaque dieFirmware : List (Nat × Byte) → Nat → Nat → List Byte
opaque dieSignature : List (Nat × Byte) → Nat → Nat → List Byte

/-- The MAC and the IPv6 address that firmware gives an Ethernet port, by the package's identity (R427). -/
opaque etherMac : Nat → Nat → List Byte
opaque etherIp : Nat → Nat → List Byte

/-- How an image version lays out the named fields of a job header and of a die header, and what it reads in a die header: the context
and the number of jobs (R422, R423). -/
opaque jobHeader : List Nat → List Byte
opaque dieHeader : Nat → Nat → List Nat → List Byte
opaque headerCtx : List Byte → Nat
opaque headerJobs : List Byte → Nat

/-- How the device lays out what STATUS reports, and the dump of a debug stop: the spec lists the items (R426, R431). -/
opaque statusBytes : List (List Nat) → List Byte
opaque dumpBytes : List (List Nat) → List Byte

/-- The image version a part writes into a lifeline image's header (R422). -/
opaque imageVersion : Byte

end Config

end Sys2Proof
end

