-- ==== Sys2Proof/WellFormed.lean ====
section
/-! DEFINITION. `Instr.wf`: which instruction terms an engine's words can stand for. Every range is the one the
encoding gives: register files (R40, R50), source and destination codes (R46, R47), types (R53) and the values each
form accepts (R123, R157, R168, R181, R244, R245, R299). Events are no words and are well formed on every engine. -/

namespace Sys2Proof

/-- A register number of the engine's scalar file (R40): 32 on A and X, 16 on M. -/
def regOk : Eng → Nat → Bool
  | .m, n => n < 16
  | _, n => n < 32

/-- A base of a memory access (R50): a0..a31 or h0..h15. -/
def ABase.ok : ABase → Bool
  | .reg n => n < 32
  | .handle n => n < 16

/-- An offset of the MA format (R43). -/
def MOff.ok : MOff → Bool
  | .imm o => -256 ≤ o && o ≤ 255
  | .index r s => r < 32 && s < 4

/-- imm13, imm19, off10 and off25 (R41). -/
def imm13Ok (i : Int) : Bool := -4096 ≤ i && i ≤ 4095
def imm19Ok (i : Int) : Bool := -262144 ≤ i && i ≤ 262143
def off10Ok (i : Int) : Bool := -512 ≤ i && i ≤ 511
def off25Ok (i : Int) : Bool := -16777216 ≤ i && i ≤ 16777215

/-- The eight integer types of R74. -/
def Ty.isInt : Ty → Bool
  | .s8 | .z8 | .s16 | .z16 | .s32 | .z32 | .s64 | .z64 => true
  | _ => false

/-- f32, bf16 and f16: the types X computes on in floating point (R168). -/
def Ty.isFloat3 : Ty → Bool
  | .f32 | .bf16 | .f16 => true
  | _ => false

/-- Every type of R152: all but k4 and anc. -/
def Ty.isElem : Ty → Bool
  | .k4 | .anc => false
  | _ => true

/-- The types of the row feeds and of the weights (R262, R300). -/
def Ty.isRow : Ty → Bool
  | .bf16 | .f16 | .e4m3 | .e5m2 | .s8 | .z8 | .k4 => true
  | _ => false

/-- The types the element index source accepts (R46). -/
def Ty.laneOk : Ty → Bool
  | .f32 | .bf16 | .f16 => true
  | t => t.isInt

/-- A source of an X long form, read in type `t` (R46). -/
def XSrc.ok (t : Ty) : XSrc → Bool
  | .v n => n < 32
  | .s n => n < 32
  | .q n _ => n < 16
  | .m n => n < 8
  | .lane => t.laneOk
  | .ones => true

/-- A scalar or mailbox source: codes 32..63 and 80..87. -/
def XSrc.scalarOk : XSrc → Bool
  | .s n => n < 32
  | .m n => n < 8
  | _ => false

/-- The mailbox a source names. -/
def XSrc.mbox? : XSrc → Option Nat
  | .m n => some n
  | _ => none

/-- Two sources name one mailbox (R154). -/
def sameMbox (a b : XSrc) : Bool := a.mbox?.isSome && a.mbox? == b.mbox?

/-- A v or w destination. -/
def XDst.vw : XDst → Bool
  | .v n => n < 32
  | .w n => n < 8
  | .e _ => false

/-- A v, w or e destination. -/
def XDst.vwe : XDst → Bool
  | .e n => n < 8
  | d => d.vw

def XCtl.ok (c : XCtl) : Bool := c.take < 4 && c.give < 4 && c.guard < 64
def ACtl.ok (c : ACtl) : Bool := c.take < 4 && c.give < 4
def predOk : Option Nat → Bool
  | none => true
  | some n => n < 16
def MCtl.ok (c : MCtl) : Bool := c.take < 4 && c.give < 4 && c.cid < 16 && predOk c.pred1 && predOk c.pred2

/-- The types VSPARS accepts (R181). -/
def Ty.isSpars : Ty → Bool
  | .s8 | .z8 | .s16 | .z16 | .s32 | .z32 | .f32 | .bf16 | .f16 | .e4m3 | .e5m2 => true
  | _ => false

/-- The types VTOPK accepts (R181). -/
def Ty.isTopk : Ty → Bool
  | .f32 | .bf16 | .f16 | .s16 | .z16 | .s32 | .z32 | .s64 | .z64 => true
  | _ => false

/-- The types VHIST accepts (R181). -/
def Ty.isHist : Ty → Bool
  | .z8 | .s8 | .z16 | .s16 | .z32 | .s32 => true
  | _ => false

/-- The types VABS accepts (R168). -/
def Ty.isAbs : Ty → Bool
  | .s8 | .s16 | .s32 | .s64 | .f32 | .bf16 | .f16 => true
  | _ => false

/-- The destination types of MDRN that the word can name (R305). -/
def Ty.isDrain : Ty → Bool
  | .f32 | .bf16 | .f16 | .e4m3 | .e5m2 | .k4 | .s8 | .s16 | .s32 => true
  | _ => false

/-- The one- and two-type conditions of VCMP (R173). -/
def vcmpOk (t : Ty) (cond : Nat) : Bool :=
  if cond < 2 then true else if cond < 6 then t != .b8 else t.isFloat3

/-- The element type an MX side names (R269). -/
def Ty.isMx : Ty → Bool
  | .e4m3 | .e5m2 | .k4 | .s8 => true
  | _ => false

/-- The sides of a CPGO (R267, R269): no anc, b8 only with b8, an MX side of an MX type. -/
def copyTypesOk (dty sty : Ty) (mx : Nat) : Bool :=
  dty != .anc && sty != .anc && ((dty == .b8) == (sty == .b8)) &&
  (mx != 1 || sty.isMx) && (mx != 2 || dty.isMx)

/-- The K4 kind of a copy form: reserved unless the destination is plain k4 (R245). -/
def copyKindOk (dty : Ty) (mx kind : Nat) : Bool :=
  kind < 4 && ((dty == .k4 && mx != 2) || kind == 0)

/-- A well-formed instruction of engine `e`. -/
def Instr.wf (e : Eng) : Instr → Bool
  | .nop | .rdv | .eret => true
  | .add d a b | .sub d a b | .mul d a b | .madd d a b | .and d a b | .or d a b | .xor d a b
  | .shl d a b | .shr d a b | .sra d a b => regOk e d && regOk e a && regOk e b
  | .mulh d a b _ | .min d a b _ | .max d a b _ | .slt d a b _ => regOk e d && regOk e a && regOk e b
  | .div d a b _ _ => regOk e d && regOk e a && regOk e b
  | .addi d a i | .andi d a i | .ori d a i | .xori d a i | .loop d a i => regOk e d && regOk e a && imm13Ok i
  | .shlImm d a n | .shrImm d a n | .sraImm d a n => regOk e d && regOk e a && n < 64
  | .movi d i => regOk e d && imm19Ok i
  | .movk d p k => regOk e d && p < 4 && k < 65536
  | .clz d a | .popc d a => regOk e d && regOk e a
  | .ext d a _ l w => regOk e d && regOk e a && l < 64 && w < 64
  | .bc c a b o => regOk e a && (match c with | .ltz | .gez => b == 0 | _ => regOk e b) && off10Ok o
  | .br o | .call o => off25Ok o
  | .jr a => regOk e a
  | .jrLk d a => regOk e d && regOk e a
  | .give f | .take f => f < 4
  | .mbw m a b => m < 8 && regOk e a && regOk e b
  | .mbr d m => regOk e d && m < 8
  | .rdvMask g => 0 < g && g < 8
  | .bar g s => g < 8 && s < 8
  | .barTm a g s => regOk e a && g < 8 && s < 8
  | .rdsr d n => regOk e d && n < 8192 && n != 0x10
  | .rdsrQflags d | .rdcyc d => regOk e d
  | .wrsr a n => regOk e a && n < 8192 && !([0x000, 0x010, 0x011, 0x012, 0x020, 0x021, 0x022].contains n)
  | .wrsrStatus a | .wrsrQflags a | .wrsrNpdef a | .wrsrDph a | .wrsrSpass a | .wrsrSkern a | .wrsrSdrain a =>
    regOk e a
  | .trap i => i < 8192
  | .idle i => imm13Ok i
  -- A
  | .ld d b s z o => e == .a && d < 32 && b.ok && s < 4 && (s != 3 || !z) && o.ok
  | .st d b s o => e == .a && d < 32 && b.ok && s < 4 && o.ok
  | .ldq q b o => e == .a && q < 16 && b.ok && o.ok
  | .stq w b o => e == .a && w < 8 && b.ok && o.ok
  | .ldt d b o | .stt d b o => e == .a && d < 32 && b.ok && o.ok
  | .amo d a b op _ ord => e == .a && d < 32 && a < 32 && b < 32 && op < 9 && ord < 4
  | .cas d a b _ ord => e == .a && d < 32 && a < 32 && b < 32 && ord < 4
  | .fence k s => e == .a && k < 3 && s < 6
  | .spadj i => e == .a && imm13Ok i
  | .passM a n | .passA a n => e == .a && a < 32 && n < 256
  | .tlbp d a _ => e == .a && d < 32 && a < 32
  | .pghint q g => e == .a && q < 24 && g < 256
  | .tlbinv a r => e == .a && a < 32 && r < 4 && (r % 2 == 0 || a == 0)
  | .openH h a b _ => e == .a && h < 16 && a < 32 && b < 32
  | .closeH h => e == .a && h < 16
  | .bind d a b | .rebind d a b => e == .a && d < 32 && a < 32 && b < 32
  | .lpatch a b f => e == .a && a < 32 && b < 32 && f < 96
  | .larm d a => e == .a && d < 32 && a < 32
  | .decld d a k => e == .a && d < 32 && a < 32 && 1 ≤ k && k ≤ 4
  | .ctxsv a b | .ctxld a b => e == .a && a < 32 && b < 32
  | .ldqs q d a b t c | .gathq q d a b t c => e == .a && q < 16 && d.ok && a < 32 && b < 32 && t.isElem && c.ok
  | .scatq w d a b t c => e == .a && w < 8 && d.ok && a < 32 && b < 32 && t.isElem && c.ok
  | .rgath d a b k t r _ _ sc c =>
    e == .a && d.ok && a < 32 && b < 32 && k < 32 && t.isRow && (sc || r == .rne) && c.ok
  | .rstrm d a b k t _ c => e == .a && d.ok && a < 32 && b < 32 && k < 32 && t.isRow && c.ok
  | .cplvl l a b k c => e == .a && l < 6 && a < 32 && b < 32 && k < 32 && c.ok
  | .cpgo d a b dt sy _ mx k c =>
    e == .a && d.ok && a.ok && b < 32 && mx < 3 && copyTypesOk dt sy mx && copyKindOk dt mx k && c.ok
  | .cpgoPm d a c => e == .a && d < 32 && a < 32 && c.ok
  | .cpgath d a b k op dt sy _ kind c =>
    e == .a && d.ok && a.ok && b < 32 && k < 32 && op < 3 && (op != 0 || k == 0) && copyTypesOk dt sy 0 &&
      copyKindOk dt 0 kind && c.ok
  | .cpscat d a b _ dt sy _ kind c =>
    e == .a && d.ok && a.ok && b < 32 && copyTypesOk dt sy 0 && copyKindOk dt 0 kind && c.ok
  | .decq q d a b k t zr c =>
    e == .a && q < 16 && d.ok && a < 32 && b < 32 && k < 32 && (if zr then t.isElem else t == .bf16) && c.ok
  -- X short
  | .sfadd d a b _ | .sfsub d a b _ | .sfmul d a b _ | .sfma d a b _ | .sfdiv d a b _ =>
    e == .x && d < 32 && a < 32 && b < 32
  | .sfsqrt d a _ => e == .x && d < 32 && a < 32
  | .sfmin d a b | .sfmax d a b => e == .x && d < 32 && a < 32 && b < 32
  | .sfcmp d a b c => e == .x && d < 32 && a < 32 && b < 32 && c < 8
  | .sfcvt d a r t s =>
    e == .x && d < 32 && a < 32 && t < 4 && s < 4 && t != s &&
      (r == .rne || !((t == 1 && s == 2) || (t == 2 && s == 1)))
  | .vext d a b s z => e == .x && d < 32 && a < 32 && b < 32 && z < 4 && !(s && z == 3)
  | .vins d a b z => e == .x && d < 32 && a < 32 && b < 32 && z < 4
  | .qcnt d a w => e == .x && d < 32 && a < (if w then 8 else 16)
  | .qdrop a b => e == .x && a < 16 && b < 32
  | .qdropNw d a b => e == .x && d < 32 && a < 16 && b < 32
  | .loopp k a i => e == .x && k < 8 && a < 32 && imm13Ok i
  | .plog d a b op => e == .x && d < 64 && a < 64 && b < 64 && op < 8
  | .pcnt d a w | .pfirst d a w => e == .x && d < 32 && a < 64 && w < 4
  | .pset d w n => e == .x && d < 64 && w < 4 && n < 1024
  | .psetReg d a w n => e == .x && d < 64 && a < 32 && w < 4 && n < 1024
  | .ppack d a => e == .x && d < 32 && a ≤ 56
  | .punpk d a => e == .x && d ≤ 56 && a < 32
  | .pext d a b => e == .x && d < 32 && a < 64 && b < 32
  | .pins d a b => e == .x && d < 64 && a < 32 && b < 32
  -- X long
  | .vadd d a b t _ c | .vsub d a b t _ c | .vmul d a b t _ c | .vmulh d a b t c =>
    e == .x && d.vw && a.ok t && b.ok t && !sameMbox a b && t.isInt && c.ok
  | .vmad d a b z t _ c =>
    e == .x && d.vw && a.ok t && b.ok t && z.ok t && !sameMbox a b && !sameMbox a z && !sameMbox b z && t.isInt && c.ok
  | .vlog d a b t op c =>
    e == .x && d.vw && a.ok t && b.ok t && !sameMbox a b && (t.isInt || t == .b8) && op < 8 && c.ok
  | .vsh d a b t op c => e == .x && d.vw && a.ok t && b.ok t && !sameMbox a b && t.isInt && op < 4 && c.ok
  | .vmin d a b t c | .vmax d a b t c =>
    e == .x && d.vw && a.ok t && b.ok t && !sameMbox a b && (t.isInt || t.isFloat3) && c.ok
  | .vabs d a t s c => e == .x && d.vw && a.ok t && t.isAbs && !(s && t.isFloat3) && c.ok
  | .vfadd d a b t _ c | .vfsub d a b t _ c | .vfmul d a b t _ c | .vfdiv d a b t _ c =>
    e == .x && d.vw && a.ok t && b.ok t && !sameMbox a b && t.isFloat3 && c.ok
  | .vfma d a b z t _ op c =>
    e == .x && d.vw && a.ok t && b.ok t && z.ok t && !sameMbox a b && !sameMbox a z && !sameMbox b z && t.isFloat3 &&
      op < 3 && c.ok
  | .vfsqrt d a t _ c => e == .x && d.vw && a.ok t && t.isFloat3 && c.ok
  | .vcmp p a b t k c =>
    e == .x && p < 64 && a.ok t && b.ok t && !sameMbox a b && (t.isInt || t.isFloat3 || t == .b8) && k < 8 &&
      vcmpOk t k && c.ok
  | .vsel d a b t c => e == .x && d.vw && a.ok t && b.ok t && !sameMbox a b && t.isElem && !c.zeroing && c.ok
  | .vmov d a t c => e == .x && d.vwe && a.ok t && t.isElem && c.ok
  | .viota d a t c => e == .x && d.vw && a.ok t && t.isInt && !c.zeroing && c.ok
  | .vperm d a b z t op c =>
    e == .x && d.vw && a.ok t && b.ok t && (if op = 1 then z.ok t else z == .v 0) && !sameMbox a b && !sameMbox a z &&
      !sameMbox b z && t.isElem && op < 3 && c.ok
  | .vslide d a b z t _ c =>
    e == .x && d.vw && a.ok t && b.scalarOk && z.ok t && !sameMbox a b && !sameMbox a z && !sameMbox b z && t.isElem &&
      c.ok
  | .vred d a t op r c =>
    e == .x && d.vw && a.ok t && (t.isInt || t.isFloat3) && op < 5 &&
      (op == 0 || r == .rne) && (op != 0 || t != .bf16 && t != .f16) &&
      !(op ≥ 3 && (t == .s8 || t == .z8)) && c.ok
  | .vscan d a b z t op r c =>
    e == .x && d.vw && a.ok t && (if op < 3 then b == .v 0 else b.ok t) && (if op = 4 then z == .v 0 else z.scalarOk) &&
      !sameMbox a b && !sameMbox a z && !sameMbox b z && (t.isInt || t.isFloat3) && op < 5 &&
      (op == 0 || op == 3 || op == 4 || r == .rne) && (op != 0 || t != .bf16 && t != .f16) &&
      (op < 3 || t == .f32) && c.ok
  | .vclmul d a b op c =>
    e == .x && d.vw && a.ok .z64 && (if op = 2 then b.scalarOk else b.ok .z64) && !sameMbox a b && op < 3 && c.ok
  | .vcvt d a b t s _ sat c =>
    e == .x && d.vw && a.ok s && b.scalarOk && !sameMbox a b && t.isElem && t != .b8 && s.isElem && s != .b8 &&
      (!sat || t == .e5m2) && c.ok
  | .vqpack d a b t k _ c => e == .x && d.vw && a.ok t && b.scalarOk && !sameMbox a b && t.isFloat3 && k < 4 && c.ok
  | .vqunpk d a b t _ c => e == .x && d.vw && a.ok t && b.scalarOk && !sameMbox a b && t.isFloat3 && c.ok
  | .vspars d a t op c =>
    e == .x && (if op = 1 then d.vwe else d.vw) && a.ok t && t.isSpars && op < 3 && c.ok
  | .vtopk d a b t op c =>
    e == .x && (match d with | .vec v => v.vw && op != 2 | .p n => n < 64 && op == 2) && a.ok t && b.scalarOk &&
      !sameMbox a b && t.isTopk && op < 3 && c.ok
  | .vhist d a b z t _ c =>
    e == .x && d.vw && a.ok t && b.scalarOk && z.ok .z32 && !sameMbox a b && !sameMbox a z && !sameMbox b z && t.isHist &&
      c.ok
  | .cscan d a b z t op sc r c =>
    e == .x && d.vw && a.ok t && (if op = 3 then b.ok t else b == .v 0) && z.scalarOk && !sameMbox a b &&
      !sameMbox a z && !sameMbox b z && (t == .f32 || t.isInt) && op < 4 && sc < 3 && r == .rne &&
      (op != 3 || t == .f32) && c.ok
  -- M
  | .mqry d i => e == .m && d < 16 && i < 16
  | .mskip i a => e == .m && i < 16 && a < 16
  | .mskipCx i => e == .m && i < 16
  | .mwld w ka kb kc t c => e == .m && w < 2 && ka < 16 && kb < 16 && kc < 16 && t.isRow && c.ok
  | .mwlds w ka kb kc er t c =>
    e == .m && w < 2 && ka < 16 && kb < 16 && kc < 16 && er < 4 && t.isRow && t != .k4 && c.ok
  | .mrun acc w ka kb _ t cm c =>
    e == .m && acc < 4 && w < 2 && ka < 16 && kb < 16 && t.isRow && (match cm with | none => true | some h => h < 8) &&
      c.ok
  | .manch acc ka kb kc k c =>
    e == .m && acc < 4 && ka < 16 && kb < 16 && kc < 16 && (match k with | none => true | some d => d < 16) && c.ok
  | .mzero acc t c => e == .m && acc < 4 && (t == .f32 || t == .s32 || t == .anc) && c.ok
  | .mdrn acc ka kb kc t _ sat _ kind c =>
    e == .m && acc < 4 && ka < 16 && kb < 16 && kc < 16 && t.isDrain && (!sat || t == .e5m2) && kind < 4 &&
      (t == .k4 || kind == 0) && c.ok
  | .valueLanding _ _ _ | .queueEntryLanding _ _ | .transferElementFault _ _ | .transferCompletion _ _
  | .rowPortEntry _ _ _ | .commandIssue _ | .rowPassageBegin _ | .rowResultWrite _ | .commandRetire _ _
  | .cscanLanding _ _ | .barrierRelease _ | .timedBarrierRelease _ | .idleExpiry _ _ | .passFlip _
  | .remoteMailboxWriteArrival _ | .heldMailboxWriteEntry _ _ | .pageWalk _ _ _ | .nextPageTranslation _ _
  | .directoryAct _ | .launchRecordAct _ | .waveStart _ | .preemption _ | .launchRestore _ | .regimeChangeDone _
  | .quantumCommit _ | .holdStreamLimit _ _ | .holdLimitExpiry _ _ | .droopStretch _ _ | .droopFreeze _
  | .droopRecovery _ | .sessionOpenRequest _ _ _ _ | .sessionFeatureAccept _ _ _ | .memw _ _ _ | .memr _ _ _
  | .ctxnew _ _ | .ctxend _ _ | .recw _ _ _ | .recarm _ _ | .status _ | .debugAttach _ _ | .debugDetach _ _
  | .debugStop _ _ _ | .debugResume _ _ _ | .debugReadState _ _ _ _ | .debugWriteState _ _ _ _ _ | .setHoldLimit _ _
  | .setGaugeBudget _ _ | .reset _ | .sessionClose _ | .sessionIdleTimeout | .powerUp | .resetPin
  | .junctionAbove105 | .junctionAbove112 | .thermalShutdown | .linkUp _ _ | .flitReplay _ | .linkDown _
  | .laneLockTimeout _ _ | .readRequest _ | .writeRequest _ | .atomicRequest _ | .readResponse _ _
  | .acknowledgement _ | .nack _ _ | .mailboxWrite _ _ | .releaseClear _ _ _ | .releaseCancel _ _ _
  | .fabricBarrierArrival _ _ _ _ _ | .fabricBarrierRelease _ _ | .dispatchGrant _ _ _ _
  | .dispatchAcknowledgement _ _ | .dispatchStart _ _ | .heartbeat _ | .heartbeatTimer _ | .dieFailureTimeout _
  | .hello _ _ _ | .requestTimeout _ | .peerSilenceTimeout _ | .class0WindowEnd _ | .unassignedMajor _
  | .instructionFetchFault _ _ | .storePerformed _ _ | .tlbinvCompletion _ | .decldLoadDone _ | .hostMessageDrop
  | .unknownCommandType _ _ | .unsupportedDeliveryMode _ | .reservedOpMessage _ | .junctionCooling _ _ => true

end Sys2Proof
end

