-- ==== Sys2Proof/Decode.lean ====
section
/-! DEFINITION. The decoder, total on any words: each form lists the checks of R61 over its fields in scan order (from
bit 31 of the first word down to bit 0 of the second), the first failing check of the earliest class is the fault
(R63), and a form without a failing check gives its instruction. After it stands the encoder, written from the same
tables (R39, R43, R45, R49, R51). Words are plain numbers below 2^32. -/

namespace Sys2Proof

/-- The field of `n` bits whose lowest bit is `lo`. -/
def fld (w lo n : Nat) : Nat := w / 2 ^ lo % 2 ^ n

/-- One bit of a word. -/
def bit (w i : Nat) : Bool := w / 2 ^ i % 2 == 1

/-- The two's-complement reading of an `n`-bit field. -/
def signedField (v n : Nat) : Int := if v < 2 ^ (n - 1) then (v : Int) else (v : Int) - (2 ^ n : Nat)

/-- The field of `n` bits that holds a signed number. -/
def fieldOfInt (i : Int) (n : Nat) : Nat := (i % (2 ^ n : Nat)).toNat

/-! ## Codes of the fields -/

def Ty.code : Ty → Nat
  | .f32 => 0 | .bf16 => 1 | .f16 => 2 | .e4m3 => 3 | .e5m2 => 4 | .k4 => 5 | .s8 => 6 | .z8 => 7
  | .s16 => 8 | .z16 => 9 | .s32 => 10 | .z32 => 11 | .s64 => 12 | .z64 => 13 | .b8 => 14 | .anc => 15

/-- The type of a 4-bit code (R53). -/
def Ty.ofCode : Nat → Ty
  | 0 => .f32 | 1 => .bf16 | 2 => .f16 | 3 => .e4m3 | 4 => .e5m2 | 5 => .k4 | 6 => .s8 | 7 => .z8
  | 8 => .s16 | 9 => .z16 | 10 => .s32 | 11 => .z32 | 12 => .s64 | 13 => .z64 | 14 => .b8 | _ => .anc

def Rnd.code : Rnd → Nat
  | .rne => 0 | .rtz => 1 | .rup => 2 | .rdn => 3 | .rna => 4 | .rdi => 5

/-- The rounding of a code 0..5 (R54). -/
def Rnd.ofCode : Nat → Rnd
  | 0 => .rne | 1 => .rtz | 2 => .rup | 3 => .rdn | 4 => .rna | _ => .rdi

def Np.code : Np → Nat
  | .np0 => 0 | .np1 => 1 | .np2 => 2 | .np3 => 3 | .np4 => 4

/-- The profile of a code 0..4 (R55). -/
def Np.ofCode : Nat → Np
  | 0 => .np0 | 1 => .np1 | 2 => .np2 | 3 => .np3 | _ => .np4

def Cond.code : Cond → Nat
  | .eq => 0 | .ne => 1 | .lt => 2 | .ge => 3 | .ltz => 4 | .gez => 5

/-- The condition of a code 0..5 (R42). -/
def Cond.ofCode : Nat → Cond
  | 0 => .eq | 1 => .ne | 2 => .lt | 3 => .ge | 4 => .ltz | _ => .gez

def MMode.code : MMode → Nat
  | .p => 0 | .a => 1 | .s => 2

/-- The mode of a code 0..2 (R51). -/
def MMode.ofCode : Nat → MMode
  | 0 => .p | 1 => .a | _ => .s

def ABase.code : ABase → Nat
  | .reg n => n
  | .handle n => 32 + n

/-- The base of a code 0..47 (R50). -/
def ABase.ofCode (n : Nat) : ABase := if n < 32 then .reg n else .handle (n - 32)

def XSrc.code : XSrc → Nat
  | .v n => n
  | .s n => 32 + n
  | .q n _ => 64 + n
  | .m n => 80 + n
  | .lane => 120
  | .ones => 121

/-- The source of a legal code and its peek bit (R46). -/
def XSrc.ofCode (n : Nat) (peek : Bool) : XSrc :=
  if n < 32 then .v n else if n < 64 then .s (n - 32) else if n < 80 then .q (n - 64) peek
  else if n < 88 then .m (n - 80) else if n = 120 then .lane else .ones

/-- The peek bit a source sets in its position (R48). -/
def XSrc.peek : XSrc → Bool
  | .q _ p => p
  | _ => false

def XDst.code : XDst → Nat
  | .v n => n
  | .w n => 64 + n
  | .e n => 88 + n

/-- The destination of a legal code (R47). -/
def XDst.ofCode (n : Nat) : XDst := if n < 32 then .v n else if n < 72 then .w (n - 64) else .e (n - 88)

/-! ## Checks and their report -/

/-- The steps of R61 in which a check stands; `feature` carries the feature bit of R435. -/
inductive Cls where
  | illegal
  | feature (n : Nat)
  | privilege
  | operand
  deriving DecidableEq, Repr

/-- One check: the class of the fault, the word and lowest bit of its field, and whether it fails. -/
structure Chk where
  cls : Cls
  word2 : Bool
  lsb : Nat
  bad : Bool
  deriving DecidableEq, Repr

/-- What a form reads from its words: the checks in scan order, and the instruction where none fails. -/
structure Dec where
  checks : List Chk
  instr : Instr
  deriving DecidableEq, Repr

/-- What decoding depends on beside the words: the engine, `npdef` and the clock regime at issue, the mode, and the
features accepted at session open (R61, R435). -/
structure DCtx where
  eng : Eng
  npdef : Np
  gauge : Bool
  user : Bool
  accepted : BitVec 256
  deriving DecidableEq, Repr

/-- The cause and `tval` of a decode fault (R63). -/
structure DecodeFault where
  cause : Nat
  tval : Word
  deriving DecidableEq, Repr

/-- `tval` of R63 and R474 for a field of a word. -/
def tvalField (word2 : Bool) (lsb : Nat) (word : Nat) : Word :=
  BitVec.ofNat 64 ((if word2 then 2 ^ 40 else 0) + lsb * 2 ^ 32 + word)

/-- `tval` of R63 for a feature that was not accepted (R436). -/
def tvalFeature (n : Nat) (word2 : Bool) (lsb : Nat) (word : Nat) : Word :=
  BitVec.ofNat 64 (n * 2 ^ 56 + 2 ^ 41 + (if word2 then 2 ^ 40 else 0) + lsb * 2 ^ 32 + word)

def Cls.isIllegal : Cls → Bool
  | .illegal => true
  | _ => false
def Cls.isFeature : Cls → Bool
  | .feature _ => true
  | _ => false
def Cls.isPrivilege : Cls → Bool
  | .privilege => true
  | _ => false
def Cls.isOperand : Cls → Bool
  | .operand => true
  | _ => false

/-- The first failing check of a class. -/
def firstBad (p : Cls → Bool) : List Chk → Option Chk
  | [] => none
  | c :: t => if c.bad && p c.cls then some c else firstBad p t

/-- The report of a failing check (R63). -/
def Chk.report (c : Chk) (w1 w2 : Nat) : DecodeFault :=
  match c.cls with
  | .illegal => ⟨0x01, tvalField c.word2 c.lsb (if c.word2 then w2 else w1)⟩
  | .feature n => ⟨0x01, tvalFeature n c.word2 c.lsb (if c.word2 then w2 else w1)⟩
  | .privilege => ⟨0x03, BitVec.ofNat 64 w1⟩
  | .operand => ⟨0x02, tvalField c.word2 c.lsb (if c.word2 then w2 else w1)⟩

/-- The first failing check in the order of R61's steps. -/
def firstFault (l : List Chk) : Option Chk :=
  (firstBad Cls.isIllegal l).or ((firstBad Cls.isFeature l).or
    ((firstBad Cls.isPrivilege l).or (firstBad Cls.isOperand l)))

/-- The outcome of decoding one form. -/
def Dec.run (d : Dec) (w1 w2 : Nat) : Except DecodeFault Instr :=
  match firstFault d.checks with
  | some c => .error (c.report w1 w2)
  | none => .ok d.instr

def ill (lsb : Nat) (bad : Bool) : Chk := ⟨.illegal, false, lsb, bad⟩
def ill2 (lsb : Nat) (bad : Bool) : Chk := ⟨.illegal, true, lsb, bad⟩
def opd (lsb : Nat) (bad : Bool) : Chk := ⟨.operand, false, lsb, bad⟩
def opd2 (lsb : Nat) (bad : Bool) : Chk := ⟨.operand, true, lsb, bad⟩

/-- A feature check: fails when the feature is used and not accepted (R436). -/
def DCtx.feat (c : DCtx) (n : Nat) (word2 : Bool) (lsb : Nat) (used : Bool) : Chk :=
  ⟨.feature n, word2, lsb, used && !c.accepted.getLsbD n⟩

/-- The check of a supervisor-only form (R62). -/
def DCtx.sup (c : DCtx) : Chk := ⟨.privilege, false, 25, c.user⟩

/-- The profile that np0 resolves to at issue (R87). -/
def DCtx.resolve (c : DCtx) (np : Np) : Np := if np = .np0 then c.npdef else np

/-! ## Fields of the short formats (R39) -/

def fD (w : Nat) : Nat := fld w 19 6
def fA (w : Nat) : Nat := fld w 13 6
def fB (w : Nat) : Nat := fld w 7 6
def fF (w : Nat) : Nat := fld w 0 7
def fI (w : Nat) : Nat := fld w 0 13
def fImm (w : Nat) : Int := signedField (fI w) 13

/-- A scalar register field at `lsb` of engine `e` (R40). -/
def regChk (e : Eng) (lsb n : Nat) : Chk := opd lsb (!regOk e n)

/-- S3 with three registers and the reserved or listed funct checks `f`. -/
def s3dab (e : Eng) (w : Nat) (f : List Chk) : List Chk :=
  [regChk e 19 (fD w), regChk e 13 (fA w), regChk e 7 (fB w)] ++ f

/-- S3 with d and a, b reserved. -/
def s3da (e : Eng) (w : Nat) (f : List Chk) : List Chk :=
  [regChk e 19 (fD w), regChk e 13 (fA w), ill 7 (fB w != 0)] ++ f

/-- funct reserved. -/
def f0 (w : Nat) : List Chk := [ill 0 (fF w != 0)]

/-- funct 0 or 1. -/
def f01 (w : Nat) : List Chk := [ill 0 (1 < fF w)]

/-- SI with d and a. -/
def siDa (e : Eng) (w : Nat) : List Chk := [regChk e 19 (fD w), regChk e 13 (fA w)]

/-- The shift forms: the count in b, or the constant of funct[5:0] with b reserved (R123). -/
def decShift (e : Eng) (w : Nat) (byReg : Nat → Nat → Nat → Instr) (byImm : Nat → Nat → Nat → Instr) : Dec :=
  if bit w 6 then ⟨[regChk e 19 (fD w), regChk e 13 (fA w), ill 7 (fB w != 0)], byImm (fD w) (fA w) (fld w 0 6)⟩
  else ⟨s3dab e w [ill 0 (fld w 0 6 != 0)], byReg (fD w) (fA w) (fB w)⟩

/-- The shared control subset (R56, R123). JR with a funct that is not listed has its `d` reserved, as JR has, so that a `d` that is not 0 is
what R61's scan reports (DEDUCED, log 23). -/
def decShared (c : DCtx) (w : Nat) : Option Dec :=
  let e := c.eng
  let d := fD w
  let a := fA w
  let b := fB w
  match fld w 25 7 with
  | 0x00 => some ⟨[ill 19 (d != 0), ill 13 (a != 0), ill 7 (b != 0), ill 0 (fF w != 0)], .nop⟩
  | 0x01 => some ⟨s3dab e w (f0 w), .add d a b⟩
  | 0x02 => some ⟨s3dab e w (f0 w), .sub d a b⟩
  | 0x03 => some ⟨siDa e w, .addi d a (fImm w)⟩
  | 0x04 => some ⟨s3dab e w (f0 w), .mul d a b⟩
  | 0x05 => some ⟨s3dab e w (f01 w), .mulh d a b (bit w 0)⟩
  | 0x06 => some ⟨s3dab e w (f0 w), .madd d a b⟩
  | 0x07 => some ⟨s3dab e w [ill 2 (fld w 2 5 != 0)], .div d a b (bit w 1) (bit w 0)⟩
  | 0x08 => some ⟨s3dab e w (f0 w), .and d a b⟩
  | 0x09 => some ⟨s3dab e w (f0 w), .or d a b⟩
  | 0x0A => some ⟨s3dab e w (f0 w), .xor d a b⟩
  | 0x0B => some ⟨siDa e w, .andi d a (fImm w)⟩
  | 0x0C => some ⟨siDa e w, .ori d a (fImm w)⟩
  | 0x0D => some ⟨siDa e w, .xori d a (fImm w)⟩
  | 0x0E => some (decShift e w .shl .shlImm)
  | 0x0F => some (decShift e w .shr .shrImm)
  | 0x10 => some (decShift e w .sra .sraImm)
  | 0x11 => some ⟨s3dab e w (f01 w), .min d a b (bit w 0)⟩
  | 0x12 => some ⟨s3dab e w (f01 w), .max d a b (bit w 0)⟩
  | 0x13 => some ⟨s3dab e w (f01 w), .slt d a b (bit w 0)⟩
  | 0x14 => some ⟨[regChk e 19 d], .movi d (signedField (fld w 0 19) 19)⟩
  | 0x15 => some ⟨[regChk e 19 d, ill 0 (bit w 0)], .movk d (fld w 17 2) (fld w 1 16)⟩
  | 0x16 => some ⟨s3da e w (f0 w), .clz d a⟩
  | 0x17 => some ⟨s3da e w (f0 w), .popc d a⟩
  | 0x18 => some ⟨siDa e w, .ext d a (bit w 12) (fld w 6 6) (fld w 0 6)⟩
  | 0x19 =>
    let k := fld w 22 3
    let ra := fld w 16 6
    let rb := fld w 10 6
    some ⟨[ill 22 (5 < k), regChk e 16 ra, if 4 ≤ k then ill 10 (rb != 0) else regChk e 10 rb],
      .bc (Cond.ofCode k) ra rb (signedField (fld w 0 10) 10)⟩
  | 0x1A => some ⟨[], .br (signedField (fld w 0 25) 25)⟩
  | 0x1B => some ⟨[], .call (signedField (fld w 0 25) 25)⟩
  | 0x1C =>
    if fF w = 1 then some ⟨s3da e w [], .jrLk d a⟩
    else some ⟨[ill 19 (d != 0), regChk e 13 a, ill 7 (b != 0), ill 0 (fF w != 0)], .jr a⟩
  | 0x1D => some ⟨siDa e w, .loop d a (fImm w)⟩
  | 0x1E => some ⟨[ill 19 (d != 0), ill 13 (a != 0), ill 2 (fld w 2 11 != 0)], .give (fld w 0 2)⟩
  | 0x1F => some ⟨[ill 19 (d != 0), ill 13 (a != 0), ill 2 (fld w 2 11 != 0)], .take (fld w 0 2)⟩
  | 0x20 => some ⟨[opd 19 (7 < d), regChk e 13 a, regChk e 7 b] ++ f0 w, .mbw d a b⟩
  | 0x21 => some ⟨[regChk e 19 d, opd 13 (7 < a), ill 7 (b != 0)] ++ f0 w, .mbr d a⟩
  | 0x22 =>
    some ⟨[ill 19 (d != 0), ill 13 (a != 0), ill 7 (b != 0), ill 3 (fld w 3 4 != 0)],
      if fld w 0 3 = 0 then .rdv else .rdvMask (fld w 0 3)⟩
  | 0x23 =>
    if bit w 3 then
      some ⟨[ill 19 (d != 0), regChk e 13 a, ill 7 (fld w 7 6 != 0)], .barTm a (fld w 4 3) (fld w 0 3)⟩
    else some ⟨[ill 19 (d != 0), ill 13 (a != 0), ill 7 (fld w 7 6 != 0)], .bar (fld w 4 3) (fld w 0 3)⟩
  | 0x24 => some ⟨[regChk e 19 d, ill 13 (a != 0)], if fI w = 0x10 then .rdsrQflags d else .rdsr d (fI w)⟩
  | 0x25 =>
    some ⟨[ill 19 (d != 0), regChk e 13 a],
      match fI w with
      | 0x000 => .wrsrStatus a
      | 0x010 => .wrsrQflags a
      | 0x011 => .wrsrNpdef a
      | 0x012 => .wrsrDph a
      | 0x020 => .wrsrSpass a
      | 0x021 => .wrsrSkern a
      | 0x022 => .wrsrSdrain a
      | n => .wrsr a n⟩
  | 0x26 => some ⟨[ill 19 (d != 0), ill 13 (a != 0)], .trap (fI w)⟩
  | 0x27 => some ⟨[ill 19 (d != 0), ill 13 (a != 0), ill 7 (b != 0)] ++ f0 w ++ [c.sup], .eret⟩
  | 0x28 => some ⟨[ill 19 (d != 0), ill 13 (a != 0)], .idle (fImm w)⟩
  | 0x29 => some ⟨[regChk e 19 d, ill 13 (a != 0), ill 7 (b != 0)] ++ f0 w, .rdcyc d⟩
  | _ => none

/-! ## Short forms of A (R57, R244, R281) -/

/-- A field that takes an A register 0..31 only (R50). -/
def aReg (lsb n : Nat) : Chk := opd lsb (31 < n)

/-- A field that takes an A register or a handle (R50). -/
def aBase (lsb n : Nat) : Chk := opd lsb (47 < n)

/-- A field that takes a handle only (R281). -/
def aHandle (lsb n : Nat) : Chk := opd lsb (n < 32 || 47 < n)

/-- The checks of the offset fields of MA (R43). -/
def maOff (w : Nat) : List Chk := if bit w 9 then [opd 3 (31 < fld w 3 6), ill 0 (bit w 0)] else []

/-- The offset of MA. -/
def maOffOf (w : Nat) : MOff :=
  if bit w 9 then .index (fld w 3 6) (fld w 1 2) else .imm (signedField (fld w 0 9) 9)

/-- size and z reserved: the forms that move a fixed amount (R43). -/
def maFixed (w : Nat) : List Chk := [ill 11 (fld w 11 2 != 0), ill 10 (bit w 10)] ++ maOff w

def decAShort (c : DCtx) (w : Nat) : Option Dec :=
  let d := fD w
  let a := fA w
  let b := fB w
  let base := ABase.ofCode a
  let off := maOffOf w
  match fld w 25 7 with
  | 0x40 =>
    some ⟨[aReg 19 d, aBase 13 a, ill 10 (fld w 11 2 == 3 && bit w 10)] ++ maOff w,
      .ld d base (fld w 11 2) (bit w 10) off⟩
  | 0x41 => some ⟨[aReg 19 d, aBase 13 a, ill 10 (bit w 10)] ++ maOff w, .st d base (fld w 11 2) off⟩
  | 0x42 => some ⟨[opd 19 (15 < d), aBase 13 a] ++ maFixed w, .ldq d base off⟩
  | 0x43 => some ⟨[opd 19 (7 < d), aBase 13 a] ++ maFixed w, .stq d base off⟩
  | 0x44 => some ⟨[aReg 19 d, aBase 13 a] ++ maFixed w, .ldt d base off⟩
  | 0x45 => some ⟨[aReg 19 d, aBase 13 a] ++ maFixed w, .stt d base off⟩
  | 0x46 =>
    some ⟨[aReg 19 d, aReg 13 a, aReg 7 b, ill 3 (8 < fld w 3 4)],
      .amo d a b (fld w 3 4) (bit w 2) (fld w 0 2)⟩
  | 0x47 =>
    some ⟨[aReg 19 d, aReg 13 a, aReg 7 b, ill 3 (fld w 3 4 != 0)], .cas d a b (bit w 2) (fld w 0 2)⟩
  | 0x48 =>
    some ⟨[ill 19 (d != 0), ill 13 (a != 0), ill 5 (fld w 5 8 != 0), opd 3 (fld w 3 2 == 3), opd 0 (5 < fld w 0 3)],
      .fence (fld w 3 2) (fld w 0 3)⟩
  | 0x49 => some ⟨[ill 19 (d != 0), ill 13 (a != 0)], .spadj (fImm w)⟩
  | 0x4A =>
    some ⟨[ill 19 (d != 0), aReg 13 a, ill 8 (fld w 8 4 != 0)],
      if bit w 12 then .passA a (fld w 0 8) else .passM a (fld w 0 8)⟩
  | 0x4B => some ⟨[aReg 19 d, aReg 13 a, ill 7 (b != 0), ill 1 (fld w 1 6 != 0)], .tlbp d a (bit w 0)⟩
  | 0x4C => some ⟨[ill 19 (d != 0), ill 13 (a != 0), opd 8 (23 < fld w 8 5)], .pghint (fld w 8 5) (fld w 0 8)⟩
  | 0x4D =>
    some ⟨[ill 19 (d != 0), (if fld w 0 1 = 1 then ill 13 (a != 0) else aReg 13 a), ill 7 (b != 0),
      ill 2 (fld w 2 5 != 0), c.sup], .tlbinv a (fld w 0 2)⟩
  | 0x4E =>
    some ⟨[c.feat 7 false 25 true, aHandle 19 d, aReg 13 a, aReg 7 b, ill 1 (fld w 1 6 != 0)],
      .openH (d - 32) a b (bit w 0)⟩
  | 0x4F =>
    some ⟨[c.feat 7 false 25 true, aHandle 19 d, ill 13 (a != 0), ill 7 (b != 0)] ++ f0 w, .closeH (d - 32)⟩
  | 0x50 => some ⟨[c.feat 7 false 25 true, aReg 19 d, aReg 13 a, aReg 7 b] ++ f0 w, .bind d a b⟩
  | 0x51 => some ⟨[c.feat 7 false 25 true, aReg 19 d, aReg 13 a, aReg 7 b] ++ f0 w, .rebind d a b⟩
  | 0x52 => some ⟨[ill 19 (d != 0), aReg 13 a, aReg 7 b, ill 0 (95 < fF w)], .lpatch a b (fF w)⟩
  | 0x53 => some ⟨[aReg 19 d, aReg 13 a, ill 7 (b != 0)] ++ f0 w, .larm d a⟩
  | 0x54 => some ⟨[aReg 19 d, aReg 13 a, ill 7 (b != 0), ill 2 (fld w 2 5 != 0)], .decld d a (fld w 0 2 + 1)⟩
  | 0x55 => some ⟨[ill 19 (d != 0), aReg 13 a, aReg 7 b] ++ f0 w ++ [c.sup], .ctxsv a b⟩
  | 0x56 => some ⟨[ill 19 (d != 0), aReg 13 a, aReg 7 b] ++ f0 w ++ [c.sup], .ctxld a b⟩
  | _ => none

/-! ## Long forms of A (R49, R245) -/

def npChk (c : DCtx) (w2 : Nat) : List Chk :=
  [c.feat 6 true 29 (fld w2 29 3 == 3), opd2 29 (4 < fld w2 29 3)]

def aCtlOf (w2 : Nat) : ACtl := ⟨Np.ofCode (fld w2 29 3), fld w2 27 2, fld w2 25 2⟩

def alC (w2 : Nat) : Nat := fld w2 19 6
def alQ (w2 : Nat) : Nat := fld w2 14 5
def alT (w2 : Nat) : Nat := fld w2 10 4
def alR (w2 : Nat) : Nat := fld w2 7 3
def alO (w2 : Nat) : Nat := fld w2 0 7

/-- The c field of an A long form, where it is used or reserved. -/
def alCChk (use : Bool) (w2 : Nat) : Chk := if use then opd2 19 (31 < alC w2) else ill2 19 (alC w2 != 0)

/-- The queue field: 0 reserved, 1 a q queue, 2 a w queue (R49, R245). -/
def alQChk (use : Nat) (w2 : Nat) : Chk :=
  match use with
  | 0 => ill2 14 (alQ w2 != 0)
  | 1 => opd2 14 (15 < alQ w2)
  | _ => opd2 14 (alQ w2 < 16 || 23 < alQ w2)

/-- The type field with the types a form accepts; a k4 code needs feature 3 (R435). -/
def alTChk (c : DCtx) (ok : Ty → Bool) (w2 : Nat) : List Chk :=
  [c.feat 3 true 10 (alT w2 == 5), opd2 10 (!ok (Ty.ofCode (alT w2)))]

/-- The rnd field, where the form rounds or not (R54). -/
def alRChk (use : Bool) (w2 : Nat) : Chk := if use then opd2 7 (5 < alR w2) else ill2 7 (alR w2 != 0)

/-- The profiles and source types of pooling (R272). -/
def poolOk (np : Np) (sty : Ty) : Bool :=
  match np with
  | .np4 => sty.isInt
  | _ => sty == .f32 || sty == .bf16 || sty == .f16 || sty == .e4m3 || sty == .e5m2

/-- The kind field of the copy forms: reserved unless the destination is plain k4 (R245). -/
def kindChk (w1 : Nat) (plainK4 : Bool) : List Chk :=
  [ill 6 (bit w1 6), ill 4 (!plainK4 && fld w1 4 2 != 0), ill 2 (fld w1 2 2 != 0)]

/-- A pooling combination refused by R272; checked only where its fields are legal. -/
def poolChk (c : DCtx) (pools : Bool) (w2 : Nat) : Chk :=
  opd 0 (pools && fld w2 29 3 ≤ 4 && alT w2 != 15 && fld w2 0 4 != 15 &&
    !poolOk (c.resolve (Np.ofCode (fld w2 29 3))) (Ty.ofCode (fld w2 0 4)))

def decALong (c : DCtx) (w1 w2 : Nat) : Option Dec :=
  let d := fD w1
  let a := fA w1
  let b := fB w1
  let f := fF w1
  let db := ABase.ofCode d
  let ab := ABase.ofCode a
  let ctl := aCtlOf w2
  let ty := Ty.ofCode (alT w2)
  let sty := Ty.ofCode (fld w2 0 4)
  let rnd := Rnd.ofCode (alR w2)
  let queueLoad (queue : Nat) : List Chk :=
    [aBase 19 d, aReg 13 a, aReg 7 b, ill 0 (f != 0)] ++ npChk c w2 ++
      [alCChk false w2, alQChk queue w2] ++ alTChk c Ty.isElem w2 ++ [alRChk false w2, ill2 0 (alO w2 != 0)]
  match fld w1 25 7 with
  | 0x60 => some ⟨queueLoad 1, .ldqs (alQ w2) db a b ty ctl⟩
  | 0x61 => some ⟨queueLoad 1, .gathq (alQ w2) db a b ty ctl⟩
  | 0x62 => some ⟨queueLoad 2, .scatq (alQ w2 - 16) db a b ty ctl⟩
  | 0x63 =>
    some ⟨[aBase 19 d, aReg 13 a, aReg 7 b, ill 0 (f != 0)] ++ npChk c w2 ++
        [alCChk true w2, alQChk 0 w2] ++ alTChk c Ty.isRow w2 ++
        [alRChk (bit w2 2) w2, ill2 3 (fld w2 3 4 != 0)],
      .rgath db a b (alC w2) ty rnd (bit w2 0) (bit w2 1) (bit w2 2) ctl⟩
  | 0x64 =>
    some ⟨[aBase 19 d, aReg 13 a, aReg 7 b, ill 0 (f != 0)] ++ npChk c w2 ++
        [alCChk true w2, alQChk 0 w2] ++ alTChk c Ty.isRow w2 ++ [alRChk false w2, ill2 1 (fld w2 1 6 != 0)],
      .rstrm db a b (alC w2) ty (bit w2 0) ctl⟩
  | 0x65 =>
    some ⟨[ill 19 (d != 0), aReg 13 a, aReg 7 b, ill 3 (fld w1 3 4 != 0), opd 0 (5 < fld w1 0 3)] ++ npChk c w2 ++
        [alCChk true w2, alQChk 0 w2, ill2 10 (alT w2 != 0), alRChk false w2, ill2 0 (alO w2 != 0)],
      .cplvl (fld w1 0 3) a b (alC w2) ctl⟩
  | 0x66 =>
    if fld w1 0 2 = 1 then
      some ⟨[aReg 19 d, aReg 13 a, ill 7 (b != 0)] ++ kindChk w1 false ++ npChk c w2 ++
          [alCChk false w2, alQChk 0 w2, ill2 10 (alT w2 != 0), alRChk false w2, ill2 0 (alO w2 != 0)],
        .cpgoPm d a ctl⟩
    else
      let mx := fld w2 4 3
      some ⟨[aBase 19 d, aBase 13 a, aReg 7 b] ++ kindChk w1 (ty == .k4 && mx != 2) ++
          [ill 0 (fld w1 0 2 != 0)] ++ npChk c w2 ++ [alCChk false w2, alQChk 0 w2] ++
          alTChk c (fun t => t != .anc) w2 ++
          [opd2 10 (sty != .anc && ((ty == .b8) != (sty == .b8))), opd2 10 (mx == 2 && !ty.isMx), alRChk true w2,
            c.feat 4 true 0 (mx != 0), opd2 4 (2 < mx), opd2 4 (mx == 1 && !sty.isMx),
            c.feat 3 true 0 (sty == .k4), opd2 0 (sty == .anc)],
        .cpgo db ab b ty sty rnd mx (fld w1 4 2) ctl⟩
  | 0x67 =>
    let op := fld w1 0 2
    some ⟨[aBase 19 d, aBase 13 a, aReg 7 b] ++ kindChk w1 (ty == .k4) ++
        [ill 0 (op == 3), poolChk c (op != 0) w2] ++ npChk c w2 ++ [alCChk (op != 0) w2, alQChk 0 w2] ++
        alTChk c (fun t => t != .anc) w2 ++
        [opd2 10 (sty != .anc && ((ty == .b8) != (sty == .b8))), alRChk true w2, ill2 4 (fld w2 4 3 != 0),
          c.feat 3 true 0 (sty == .k4), opd2 0 (sty == .anc)],
      .cpgath db ab b (alC w2) op ty sty rnd (fld w1 4 2) ctl⟩
  | 0x68 =>
    let op := fld w1 0 2
    some ⟨[aBase 19 d, aBase 13 a, aReg 7 b] ++ kindChk w1 (ty == .k4) ++
        [ill 0 (1 < op), poolChk c (op == 1) w2] ++ npChk c w2 ++ [alCChk false w2, alQChk 0 w2] ++
        alTChk c (fun t => t != .anc) w2 ++
        [opd2 10 (sty != .anc && ((ty == .b8) != (sty == .b8))), alRChk true w2, ill2 4 (fld w2 4 3 != 0),
          c.feat 3 true 0 (sty == .k4), opd2 0 (sty == .anc)],
      .cpscat db ab b (op == 1) ty sty rnd (fld w1 4 2) ctl⟩
  | 0x69 =>
    some ⟨[aBase 19 d, aReg 13 a, aReg 7 b, ill 0 (1 < f), opd 0 (f == 0 && ty.isElem && ty != .bf16)] ++ npChk c w2 ++
        [alCChk true w2, alQChk 1 w2] ++ alTChk c Ty.isElem w2 ++ [alRChk false w2, ill2 0 (alO w2 != 0)],
      .decq (alQ w2) db a b (alC w2) ty (f == 1) ctl⟩
  | _ => none

/-! ## Short forms of X (R58, R157) -/

/-- An s or v register field of an X short form (R40). -/
def xReg (lsb n : Nat) : Chk := opd lsb (31 < n)

/-- funct of the scalar float forms: [6:3] reserved, [2:0] rnd (R157). -/
def fRnd (w : Nat) : List Chk := [ill 3 (fld w 3 4 != 0), opd 0 (5 < fld w 0 3)]

def decSf (w : Nat) (i : Nat → Nat → Nat → Rnd → Instr) : Dec :=
  ⟨[xReg 19 (fD w), xReg 13 (fA w), xReg 7 (fB w)] ++ fRnd w, i (fD w) (fA w) (fB w) (Rnd.ofCode (fld w 0 3))⟩

def decXShort (w : Nat) : Option Dec :=
  let d := fD w
  let a := fA w
  let b := fB w
  match fld w 25 7 with
  | 0x40 => some (decSf w .sfadd)
  | 0x41 => some (decSf w .sfsub)
  | 0x42 => some (decSf w .sfmul)
  | 0x43 => some (decSf w .sfma)
  | 0x44 => some (decSf w .sfdiv)
  | 0x45 =>
    some ⟨[xReg 19 d, xReg 13 a, ill 7 (b != 0)] ++ fRnd w, .sfsqrt d a (Rnd.ofCode (fld w 0 3))⟩
  | 0x46 => some ⟨[xReg 19 d, xReg 13 a, xReg 7 b] ++ f0 w, .sfmin d a b⟩
  | 0x47 => some ⟨[xReg 19 d, xReg 13 a, xReg 7 b] ++ f0 w, .sfmax d a b⟩
  | 0x48 => some ⟨[xReg 19 d, xReg 13 a, xReg 7 b, ill 3 (fld w 3 4 != 0)], .sfcmp d a b (fld w 0 3)⟩
  | 0x49 =>
    let t := fld w 2 2
    let s := fld w 0 2
    let ints := (t == 1 && s == 2) || (t == 2 && s == 1)
    some ⟨[xReg 19 d, xReg 13 a, ill 7 (b != 0),
        (if ints then ill 4 (fld w 4 3 != 0) else opd 4 (5 < fld w 4 3)), ill 0 (t == s)],
      .sfcvt d a (Rnd.ofCode (fld w 4 3)) t s⟩
  | 0x4A =>
    some ⟨[xReg 19 d, xReg 13 a, xReg 7 b, ill 3 (fld w 3 4 != 0), ill 0 (bit w 2 && fld w 0 2 == 3)],
      .vext d a b (bit w 2) (fld w 0 2)⟩
  | 0x4B => some ⟨[xReg 19 d, xReg 13 a, xReg 7 b, ill 2 (fld w 2 5 != 0)], .vins d a b (fld w 0 2)⟩
  | 0x4C =>
    some ⟨[xReg 19 d, opd 13 ((if bit w 0 then 7 else 15) < a), ill 7 (b != 0), ill 1 (fld w 1 6 != 0)],
      .qcnt d a (bit w 0)⟩
  | 0x4D =>
    if bit w 0 then some ⟨[xReg 19 d, opd 13 (15 < a), xReg 7 b, ill 1 (fld w 1 6 != 0)], .qdropNw d a b⟩
    else some ⟨[ill 19 (d != 0), opd 13 (15 < a), xReg 7 b, ill 1 (fld w 1 6 != 0)], .qdrop a b⟩
  | 0x4E => some ⟨[ill 22 (fld w 22 3 != 0), xReg 13 a], .loopp (fld w 19 3) a (fImm w)⟩
  | 0x4F => some ⟨[ill 3 (fld w 3 4 != 0)], .plog d a b (fld w 0 3)⟩
  | 0x50 => some ⟨[xReg 19 d, ill 7 (b != 0), ill 2 (fld w 2 5 != 0)], .pcnt d a (fld w 0 2)⟩
  | 0x51 => some ⟨[xReg 19 d, ill 7 (b != 0), ill 2 (fld w 2 5 != 0)], .pfirst d a (fld w 0 2)⟩
  | 0x52 =>
    if bit w 10 then some ⟨[xReg 13 a], .psetReg d a (fld w 11 2) (fld w 0 10)⟩
    else some ⟨[ill 13 (a != 0)], .pset d (fld w 11 2) (fld w 0 10)⟩
  | 0x53 => some ⟨[xReg 19 d, opd 13 (56 < a), ill 7 (b != 0)] ++ f0 w, .ppack d a⟩
  | 0x54 => some ⟨[opd 19 (56 < d), xReg 13 a, ill 7 (b != 0)] ++ f0 w, .punpk d a⟩
  | 0x55 => some ⟨[xReg 19 d, xReg 7 b] ++ f0 w, .pext d a b⟩
  | 0x56 => some ⟨[xReg 13 a, xReg 7 b] ++ f0 w, .pins d a b⟩
  | _ => none

/-! ## Long forms of X (R45, R168, R181) -/

def xlA (w1 : Nat) : Nat := fld w1 11 7
def xlB (w1 : Nat) : Nat := fld w1 4 7
def xlD (w1 : Nat) : Nat := fld w1 18 7
def xlF (w1 : Nat) : Nat := fld w1 0 4
def xlC (w2 : Nat) : Nat := fld w2 18 7
def xlT (w2 : Nat) : Nat := fld w2 14 4
def xlR (w2 : Nat) : Nat := fld w2 4 3
def xlNp (w2 : Nat) : Nat := fld w2 29 3

def xCtlOf (w2 : Nat) : XCtl :=
  ⟨Np.ofCode (xlNp w2), fld w2 27 2, fld w2 25 2, fld w2 8 6, bit w2 7, bit w2 0⟩

/-- A source code that R46 refuses for a type. -/
def srcBad (t : Ty) (n : Nat) : Bool := if n < 88 then false else if n = 120 then !t.laneOk else n != 121

/-- A code that is not a scalar or mailbox source. -/
def scalarBad (n : Nat) : Bool := n < 32 || (64 ≤ n && n < 80) || 88 ≤ n

/-- Two codes that name one mailbox (R154). -/
def mboxClash (m n : Nat) : Bool := m == n && 80 ≤ m && m < 88

/-- The destination kinds of an X long form. -/
inductive DKind where
  | vw | vwe | p
  deriving DecidableEq, Repr

def dstBad : DKind → Nat → Bool
  | .vw, n => !(n < 32 || (64 ≤ n && n < 72))
  | .vwe, n => !(n < 32 || (64 ≤ n && n < 72) || (88 ≤ n && n < 96))
  | .p, n => 63 < n

/-- How a form uses the b or c position. -/
inductive Pos where
  | unused | any | scalar
  deriving DecidableEq, Repr

/-- What distinguishes one X long form: its destination, positions, funct, types and rounding. -/
structure XlSpec where
  form : List Chk := []
  dest : DKind := .vw
  b : Pos := .any
  c : Pos := .unused
  functIll : Bool := false
  functLsb : Nat := 0
  functFeat : List Chk := []
  functOpd : Bool := false
  tyOk : Ty → Bool
  srcTy : Ty
  cTy : Ty
  rnd : Bool := false
  zIll : Bool := false

/-- The b or c position's code check, at `lsb` of its word. -/
def posChk (p : Pos) (word2 : Bool) (lsb : Nat) (t : Ty) (n : Nat) (clash : Bool) : Chk :=
  match p with
  | .unused => ⟨.illegal, word2, lsb, n != 0⟩
  | .any => ⟨.operand, word2, lsb, srcBad t n || clash⟩
  | .scalar => ⟨.operand, word2, lsb, scalarBad n || clash⟩

/-- A position's peek bit (R48). -/
def peekChk (p : Pos) (lsb n : Nat) (set : Bool) : Chk :=
  match p with
  | .unused => ill2 lsb set
  | _ => opd2 lsb (set && !(64 ≤ n && n < 80))

/-- The checks of an X long form, in scan order (R45, R46, R47, R48). -/
def XlSpec.checks (s : XlSpec) (c : DCtx) (w1 w2 : Nat) : List Chk :=
  let a := xlA w1
  let b := xlB w1
  let z := xlC w2
  let useB := s.b != .unused
  let useC := s.c != .unused
  s.form ++
  [opd 18 (dstBad s.dest (xlD w1)),
    opd 11 (srcBad s.srcTy a || (useB && mboxClash a b) || (useC && mboxClash a z)),
    posChk s.b false 4 s.srcTy b (useC && mboxClash b z),
    ill s.functLsb s.functIll] ++ s.functFeat ++ [opd 0 s.functOpd] ++ npChk c w2 ++
  [posChk s.c true 18 s.cTy z false,
    c.feat 3 true 14 (xlT w2 == 5),
    opd2 14 (!s.tyOk (Ty.ofCode (xlT w2))),
    ill2 7 (s.zIll && bit w2 7),
    (if s.rnd then opd2 4 (5 < xlR w2) else ill2 4 (xlR w2 != 0)),
    peekChk .any 3 a (bit w2 3),
    peekChk s.b 2 b (bit w2 2),
    peekChk s.c 1 z (bit w2 1)]

/-- The source in a position: code 0 stands for v0 in an unused one. -/
def xSrcA (w1 w2 : Nat) : XSrc := XSrc.ofCode (xlA w1) (bit w2 3)
def xSrcB (w1 w2 : Nat) : XSrc := XSrc.ofCode (xlB w1) (bit w2 2)
def xSrcC (w2 : Nat) : XSrc := XSrc.ofCode (xlC w2) (bit w2 1)

/-- VRED's and VSCAN's profiles and rounding modes (R183): op 0 is `.add`, 1 and 2 the maxima and minima. -/
def reduceOk (affine : Bool) (add : Bool) (t : Ty) (np : Np) (r : Rnd) : Bool :=
  if affine then t == .f32 && (match np with | .np4 => false | .np3 => true | _ => r == .rne)
  else if add then
    if t == .f32 then (match np with | .np4 => false | .np3 => true | _ => r == .rne)
    else t.isInt && np == .np4 && r == .rne
  else r == .rne

/-- CSCAN's profiles: as VSCAN, and only rne (R96, R183). -/
def cscanOk (op : Nat) (t : Ty) (np : Np) (r : Rnd) : Bool :=
  r == .rne &&
  (if op = 3 then t == .f32 && np != .np4
   else if op = 0 then (if t == .f32 then np != .np4 else np == .np4)
   else true)

/-- The np, type and rnd fields are legal codes, so that their combination is examined. -/
def comboLive (w2 : Nat) (tyOk : Bool) : Bool := xlNp w2 ≤ 4 && tyOk && xlR w2 ≤ 5

/-- The X long forms (R46, R56, R61). Which field a fault names where R61's scan can be read in two ways is DEDUCED (log 23): the
combination of VCVT `.sat` with its type is not examined for a type that is no destination of VCVT at all, which is reported itself; and a
scope of CSCAN that is not listed, or that gauge mode refuses, is a fault of `funct` as a whole. -/
def decXLong (c : DCtx) (w1 w2 : Nat) : Option Dec :=
  let f := xlF w1
  let ty := Ty.ofCode (xlT w2)
  let rnd := Rnd.ofCode (xlR w2)
  let ctl := xCtlOf w2
  let d := XDst.ofCode (xlD w1)
  let a := xSrcA w1 w2
  let b := xSrcB w1 w2
  let z := xSrcC w2
  let np := c.resolve (Np.ofCode (xlNp w2))
  let bin (tyOk : Ty → Bool) (fMax : Nat) (useRnd : Bool) : List Chk :=
    XlSpec.checks { functIll := fMax < f, tyOk := tyOk, srcTy := ty, cTy := ty, rnd := useRnd } c w1 w2
  let una (tyOk : Ty → Bool) (fMax : Nat) (useRnd : Bool) : List Chk :=
    XlSpec.checks { b := .unused, functIll := fMax < f, tyOk := tyOk, srcTy := ty, cTy := ty, rnd := useRnd } c w1 w2
  match fld w1 25 7 with
  | 0x60 => some ⟨bin Ty.isInt 1 false, .vadd d a b ty (f == 1) ctl⟩
  | 0x61 => some ⟨bin Ty.isInt 1 false, .vsub d a b ty (f == 1) ctl⟩
  | 0x62 => some ⟨bin Ty.isInt 1 false, .vmul d a b ty (f == 1) ctl⟩
  | 0x63 => some ⟨bin Ty.isInt 0 false, .vmulh d a b ty ctl⟩
  | 0x64 =>
    some ⟨XlSpec.checks { c := .any, functIll := 1 < f, tyOk := Ty.isInt, srcTy := ty, cTy := ty } c w1 w2,
      .vmad d a b z ty (f == 1) ctl⟩
  | 0x65 => some ⟨bin (fun t => t.isInt || t == .b8) 7 false, .vlog d a b ty f ctl⟩
  | 0x66 => some ⟨bin Ty.isInt 3 false, .vsh d a b ty f ctl⟩
  | 0x67 => some ⟨bin (fun t => t.isInt || t.isFloat3) 0 false, .vmin d a b ty ctl⟩
  | 0x68 => some ⟨bin (fun t => t.isInt || t.isFloat3) 0 false, .vmax d a b ty ctl⟩
  | 0x69 =>
    some ⟨XlSpec.checks { b := .unused, functIll := 1 < f, functOpd := f == 1 && ty.isFloat3, tyOk := Ty.isAbs, srcTy := ty, cTy := ty } c w1 w2, .vabs d a ty (f == 1) ctl⟩
  | 0x6A => some ⟨bin Ty.isFloat3 0 true, .vfadd d a b ty rnd ctl⟩
  | 0x6B => some ⟨bin Ty.isFloat3 0 true, .vfsub d a b ty rnd ctl⟩
  | 0x6C => some ⟨bin Ty.isFloat3 0 true, .vfmul d a b ty rnd ctl⟩
  | 0x6D =>
    some ⟨XlSpec.checks { c := .any, functIll := 2 < f, tyOk := Ty.isFloat3, srcTy := ty, cTy := ty, rnd := true } c w1 w2,
      .vfma d a b z ty rnd f ctl⟩
  | 0x6E => some ⟨bin Ty.isFloat3 0 true, .vfdiv d a b ty rnd ctl⟩
  | 0x6F => some ⟨una Ty.isFloat3 0 true, .vfsqrt d a ty rnd ctl⟩
  | 0x70 =>
    let tyOk := fun t : Ty => t.isInt || t.isFloat3 || t == .b8
    some ⟨XlSpec.checks { dest := .p, functIll := 7 < f, functOpd := tyOk ty && !vcmpOk ty f, tyOk := tyOk, srcTy := ty, cTy := ty } c w1 w2, .vcmp (xlD w1) a b ty f ctl⟩
  | 0x71 =>
    some ⟨XlSpec.checks { functIll := 0 < f, tyOk := Ty.isElem, srcTy := ty, cTy := ty, zIll := true } c w1 w2,
      .vsel d a b ty ctl⟩
  | 0x72 =>
    some ⟨XlSpec.checks { dest := .vwe, b := .unused, functIll := 0 < f, tyOk := Ty.isElem, srcTy := ty, cTy := ty }
        c w1 w2, .vmov d a ty ctl⟩
  | 0x73 =>
    some ⟨XlSpec.checks { b := .unused, functIll := 0 < f, tyOk := Ty.isInt, srcTy := ty, cTy := ty, zIll := true }
        c w1 w2, .viota d a ty ctl⟩
  | 0x74 =>
    some ⟨XlSpec.checks { c := if f = 1 then .any else .unused, functIll := 2 < f, tyOk := Ty.isElem, srcTy := ty, cTy := ty } c w1 w2, .vperm d a b z ty f ctl⟩
  | 0x75 =>
    some ⟨XlSpec.checks { b := .scalar, c := .any, functIll := 1 < f, tyOk := Ty.isElem, srcTy := ty, cTy := ty }
        c w1 w2, .vslide d a b z ty (f == 1) ctl⟩
  | 0x76 =>
    let tyOk := fun t : Ty => t.isInt || t.isFloat3
    some ⟨XlSpec.checks { b := .unused, functIll := 4 < f, functOpd := comboLive w2 (tyOk ty) && (!reduceOk false (f == 0) ty np rnd || (3 ≤ f && (ty == .s8 || ty == .z8))), tyOk := tyOk, srcTy := ty, cTy := ty, rnd := true } c w1 w2,
      .vred d a ty f rnd ctl⟩
  | 0x77 =>
    let tyOk := fun t : Ty => t.isInt || t.isFloat3
    some ⟨XlSpec.checks { b := if f < 3 then .unused else .any, c := if f = 4 then .unused else .scalar, functIll := 4 < f, functOpd := comboLive w2 (tyOk ty) && !reduceOk (3 ≤ f) (f == 0) ty np rnd, tyOk := tyOk, srcTy := ty, cTy := ty, rnd := true } c w1 w2,
      .vscan d a b z ty f rnd ctl⟩
  | 0x78 =>
    some ⟨XlSpec.checks { b := if f = 2 then .scalar else .any, functIll := 2 < f, tyOk := fun t => t == .z64, srcTy := .z64, cTy := .z64 } c w1 w2, .vclmul d a b f ctl⟩
  | 0x79 =>
    let sty := Ty.ofCode f
    let cc := xlC w2
    some ⟨[opd 18 (dstBad .vw (xlD w1)), opd 11 (srcBad sty (xlA w1) || mboxClash (xlA w1) (xlB w1)),
        opd 4 (scalarBad (xlB w1)), opd 0 (!(sty.isElem && sty != .b8))] ++ npChk c w2 ++
        [ill2 19 (1 < cc), opd2 18 (cc % 2 == 1 && ty.isElem && ty != .b8 && ty != .e5m2),
          c.feat 3 true 14 (xlT w2 == 5), opd2 14 (!(ty.isElem && ty != .b8)),
          opd2 4 (5 < xlR w2), peekChk .any 3 (xlA w1) (bit w2 3), peekChk .scalar 2 (xlB w1) (bit w2 2),
          ill2 1 (bit w2 1)],
      .vcvt d a b ty sty rnd (cc % 2 == 1) ctl⟩
  | 0x7A =>
    some ⟨XlSpec.checks { form := [c.feat 3 false 25 true], b := .scalar, functIll := 3 < f, functLsb := 2, tyOk := Ty.isFloat3, srcTy := ty, cTy := ty, rnd := true } c w1 w2, .vqpack d a b ty f rnd ctl⟩
  | 0x7B =>
    some ⟨XlSpec.checks { form := [c.feat 3 false 25 true], b := .scalar, functIll := 0 < f, tyOk := Ty.isFloat3, srcTy := ty, cTy := ty, rnd := true } c w1 w2, .vqunpk d a b ty rnd ctl⟩
  | 0x7C =>
    some ⟨XlSpec.checks { form := [c.feat 5 false 25 true], dest := if f = 1 then .vwe else .vw, b := .unused, functIll := 2 < f, tyOk := Ty.isSpars, srcTy := ty, cTy := ty } c w1 w2, .vspars d a ty f ctl⟩
  | 0x7D =>
    some ⟨XlSpec.checks { dest := if f = 2 then .p else .vw, b := .scalar, functIll := 2 < f, tyOk := Ty.isTopk, srcTy := ty, cTy := ty } c w1 w2, .vtopk (if f = 2 then .p (xlD w1) else .vec d) a b ty f ctl⟩
  | 0x7E =>
    some ⟨XlSpec.checks { b := .scalar, c := .any, functIll := 1 < f, tyOk := Ty.isHist, srcTy := ty, cTy := .z32 }
        c w1 w2, .vhist d a b z ty (f == 1) ctl⟩
  | 0x7F =>
    let op := f % 4
    let sc := f / 4
    let tyOk := fun t : Ty => t == .f32 || t.isInt
    some ⟨XlSpec.checks { b := if op = 3 then .any else .unused, c := .scalar, functIll := 2 < sc, functFeat := [c.feat 9 false 0 (sc == 1 || sc == 2)], functOpd := (c.gauge && 0 < sc) || (comboLive w2 (tyOk ty) && !cscanOk op ty np rnd), tyOk := tyOk, srcTy := ty, cTy := ty, rnd := true } c w1 w2,
      .cscan d a b z ty op sc rnd ctl⟩
  | _ => none

/-! ## Forms of M (R59, R299, R306, R307) -/

def decMShort (w : Nat) : Option Dec :=
  let d := fD w
  let a := fA w
  match fld w 25 7 with
  | 0x40 => some ⟨[opd 19 (15 < d), opd 13 (15 < a), ill 7 (fB w != 0)] ++ f0 w, .mqry d a⟩
  | 0x41 =>
    if fF w = 1 then some ⟨[opd 19 (15 < d), ill 13 (a != 0), ill 7 (fB w != 0)], .mskipCx d⟩
    else some ⟨[opd 19 (15 < d), opd 13 (15 < a), ill 7 (fB w != 0)] ++ f0 w, .mskip d a⟩
  | _ => none

/-- A predecessor id without its valid bit (R51). -/
def predChk (lsb : Nat) (valid : Bool) (n : Nat) : Chk := ill2 lsb (!valid && n != 0)

def predOf (valid : Bool) (n : Nat) : Option Nat := if valid then some n else none

def mCtlOf (w1 w2 : Nat) : MCtl :=
  ⟨Np.ofCode (fld w2 29 3), fld w2 27 2, fld w2 25 2, fld w1 4 4, predOf (bit w2 13) (fld w2 9 4),
    predOf (bit w2 8) (fld w2 4 4)⟩

/-- The checks every M long form shares after those of its first word and before opt. -/
def mTail (c : DCtx) (w2 : Nat) (kcUsed : Bool) (tyChk : List Chk) (rndUsed : Bool) (optChk : List Chk) : List Chk :=
  npChk c w2 ++ [ill2 21 (!kcUsed && fld w2 21 4 != 0)] ++ tyChk ++
  [if rndUsed then opd2 14 (5 < fld w2 14 3) else ill2 14 (fld w2 14 3 != 0)] ++
  [predChk 9 (bit w2 13) (fld w2 9 4), predChk 4 (bit w2 8) (fld w2 4 4)] ++ optChk

/-- The type field of an M form with the types it accepts. -/
def mTy (c : DCtx) (w2 : Nat) (ok : Ty → Bool) : List Chk :=
  [c.feat 3 true 17 (fld w2 17 4 == 5), opd2 17 (!ok (Ty.ofCode (fld w2 17 4)))]

def decMLong (c : DCtx) (w1 w2 : Nat) : Option Dec :=
  let kd := fld w1 21 4
  let ka := fld w1 17 4
  let kb := fld w1 13 4
  let acc := fld w1 11 2
  let wb := fld w1 10 1
  let mode := fld w1 8 2
  let f := fld w1 0 4
  let kc := fld w2 21 4
  let ty := Ty.ofCode (fld w2 17 4)
  let opt := fld w2 0 4
  let ctl := mCtlOf w1 w2
  match fld w1 25 7 with
  | 0x60 =>
    some ⟨[ill 21 (kd != 0), ill 11 (acc != 0), ill 8 (mode != 0), ill 0 (f != 0)] ++
        mTail c w2 true (mTy c w2 Ty.isRow) false [ill2 0 (opt != 0)], .mwld wb ka kb kc ty ctl⟩
  | 0x61 =>
    some ⟨[c.feat 5 false 25 true, ill 21 (kd != 0), ill 11 (acc != 0), ill 8 (mode != 0), ill 0 (f != 0)] ++
        mTail c w2 true (mTy c w2 (fun t => t.isRow && t != .k4)) false [ill2 2 (3 < opt)],
      .mwlds wb ka kb kc (opt % 4) ty ctl⟩
  | 0x62 =>
    some ⟨[ill 21 (kd != 0), opd 8 (mode == 3), ill 0 (f != 0)] ++
        mTail c w2 false (mTy c w2 Ty.isRow) false [ill2 0 (opt < 8 && opt != 0)],
      .mrun acc wb ka kb (MMode.ofCode mode) ty (if opt < 8 then none else some (opt % 8)) ctl⟩
  | 0x63 =>
    some ⟨[c.feat 6 false 25 true, ill 21 (f == 0 && kd != 0), ill 10 (wb != 0), ill 8 (mode != 0), ill 0 (1 < f)] ++
        mTail c w2 true [ill2 17 (fld w2 17 4 != 0)] false [ill2 0 (opt != 0)],
      .manch acc ka kb kc (if f = 1 then some kd else none) ctl⟩
  | 0x64 =>
    some ⟨[ill 21 (kd != 0), ill 17 (ka != 0), ill 13 (kb != 0), ill 10 (wb != 0), ill 8 (mode != 0), ill 0 (f != 0)] ++
        mTail c w2 false (mTy c w2 (fun t => t == .f32 || t == .s32 || t == .anc)) false [ill2 0 (opt != 0)],
      .mzero acc ty ctl⟩
  | 0x65 =>
    some ⟨[ill 21 (kd != 0), ill 10 (wb != 0), ill 8 (mode != 0), ill 0 (f != 0)] ++
        mTail c w2 true (mTy c w2 Ty.isDrain) true
          [ill2 3 (8 ≤ opt && ty != .e5m2), ill2 0 (opt % 4 != 0 && ty != .k4)],
      .mdrn acc ka kb kc ty (Rnd.ofCode (fld w2 14 3)) (8 ≤ opt) (opt / 4 % 2 == 1) (opt % 4) ctl⟩
  | _ => none

/-! ## The whole decoder -/

/-- Bits [31:30] of the first word fix the length (R35). -/
def isLong (w1 : Nat) : Bool := fld w1 30 2 == 3

/-- The form the engine's opcode map gives the words; none for an unassigned major (R56..R60). -/
def decOp (c : DCtx) (w1 w2 : Nat) : Option Dec :=
  if fld w1 25 7 < 0x40 then decShared c w1
  else if fld w1 25 7 < 0x60 then
    match c.eng with
    | .a => decAShort c w1
    | .x => decXShort w1
    | .m => decMShort w1
  else
    match c.eng with
    | .a => decALong c w1 w2
    | .x => decXLong c w1 w2
    | .m => decMLong c w1 w2

/-- Decodes the words of one instruction. An unassigned major is an instruction of its own, whose meaning raises 0x01
(R60). -/
def decodeWords (c : DCtx) (w1 w2 : Nat) : Except DecodeFault Instr :=
  match decOp c w1 w2 with
  | none => .ok (.unassignedMajor w1)
  | some d => d.run w1 w2

/-- Why a byte string gives no instruction. -/
inductive DecodeError where
  | tooShort
  | fault (f : DecodeFault)
  deriving DecidableEq, Repr

/-- The little-endian number of a byte list (R65). -/
def natOfBytes : List Byte → Nat
  | [] => 0
  | b :: t => b.toNat + 256 * natOfBytes t

/-- The `n` bytes of a number, lowest first. -/
def bytesOfNat : Nat → Nat → List Byte
  | 0, _ => []
  | n + 1, v => BitVec.ofNat 8 v :: bytesOfNat n (v / 256)

/-- Decodes the first instruction of a byte string, which is stored little-endian (R34), and returns the rest. -/
def decodeBytes (c : DCtx) (bs : List Byte) : Except DecodeError (Instr × List Byte) :=
  if bs.length < 4 then .error .tooShort
  else
    let w1 := natOfBytes (bs.take 4)
    let n := if isLong w1 then 8 else 4
    if bs.length < n then .error .tooShort
    else
      match decodeWords c w1 (if isLong w1 then natOfBytes ((bs.drop 4).take 4) else 0) with
      | .error f => .error (.fault f)
      | .ok i => .ok (i, bs.drop n)

/-- A decoding context in which no form is refused for its mode or its features: supervisor mode, rib clocking, np1,
every feature accepted. -/
def openCtx (e : Eng) : DCtx := ⟨e, .np1, false, false, BitVec.allOnes 256⟩

/-- What engine `e` reads from the two words, if they are one of its forms. -/
def tryEngine (e : Eng) (bs : List Byte) : Option Instr :=
  match decodeBytes (openCtx e) bs with
  | .ok (.unassignedMajor _, _) => none
  | .ok (i, _) => some i
  | .error _ => none

/-- The bytes of an instruction whose bits the opcode table numbers from the first word's bit 0. -/
def tableBytes (w : Nat) : List Byte := bytesOfNat 4 (w % 2 ^ 32) ++ bytesOfNat 4 (w / 2 ^ 32)

/-- The engine that reads an opcode-table word: the first of A, X and M on which it is a form. -/
def tableEngine (w : Nat) : Option Eng :=
  if (tryEngine .a (tableBytes w)).isSome then some .a
  else if (tryEngine .x (tableBytes w)).isSome then some .x
  else if (tryEngine .m (tableBytes w)).isSome then some .m
  else none

/-- The instruction the decoder reads from an opcode-table word. The major maps of the engines overlap, so the word is
read on A, else on X, else on M. -/
def decodeTableWord (_nbits w : Nat) : Option Instr :=
  match tryEngine .a (tableBytes w) with
  | some i => some i
  | none =>
    match tryEngine .x (tableBytes w) with
    | some i => some i
    | none => tryEngine .m (tableBytes w)

/-! ## The encoder -/

def encS3 (maj d a b f : Nat) : List Nat := [maj * 2 ^ 25 + d * 2 ^ 19 + a * 2 ^ 13 + b * 2 ^ 7 + f]
def encSI (maj d a i : Nat) : List Nat := [maj * 2 ^ 25 + d * 2 ^ 19 + a * 2 ^ 13 + i]
def encImm (i : Int) : Nat := fieldOfInt i 13
def boolBit (b : Bool) : Nat := if b then 1 else 0

/-- The low bits of an MA word: ix and the offset fields (R43). -/
def MOff.bits : MOff → Nat
  | .imm o => fieldOfInt o 9
  | .index r s => 2 ^ 9 + r * 2 ^ 3 + s * 2

def encMA (maj d : Nat) (base : ABase) (size : Nat) (z : Bool) (off : MOff) : List Nat :=
  [maj * 2 ^ 25 + d * 2 ^ 19 + base.code * 2 ^ 13 + size * 2 ^ 11 + boolBit z * 2 ^ 10 + off.bits]

/-- The A long form (R49). -/
def encAL (maj d a b f : Nat) (c : ACtl) (cc queue ty rnd opt : Nat) : List Nat :=
  [maj * 2 ^ 25 + d * 2 ^ 19 + a * 2 ^ 13 + b * 2 ^ 7 + f,
    c.np.code * 2 ^ 29 + c.take * 2 ^ 27 + c.give * 2 ^ 25 + cc * 2 ^ 19 + queue * 2 ^ 14 + ty * 2 ^ 10 +
      rnd * 2 ^ 7 + opt]

/-- The X long form (R45). -/
def encXL (maj d : Nat) (a b : XSrc) (f : Nat) (c : XCtl) (z : XSrc) (ty rnd : Nat) : List Nat :=
  [maj * 2 ^ 25 + d * 2 ^ 18 + a.code * 2 ^ 11 + b.code * 2 ^ 4 + f,
    c.np.code * 2 ^ 29 + c.take * 2 ^ 27 + c.give * 2 ^ 25 + z.code * 2 ^ 18 + ty * 2 ^ 14 + c.guard * 2 ^ 8 +
      boolBit c.zeroing * 2 ^ 7 + rnd * 2 ^ 4 + boolBit a.peek * 2 ^ 3 + boolBit b.peek * 2 ^ 2 +
      boolBit z.peek * 2 + boolBit c.trapOnEmpty]

/-- The code 0 of an unused source position. -/
def noSrc : XSrc := .v 0

/-- The M long form (R51). -/
def encML (maj kd ka kb acc wb mode f : Nat) (c : MCtl) (kc ty rnd opt : Nat) : List Nat :=
  [maj * 2 ^ 25 + kd * 2 ^ 21 + ka * 2 ^ 17 + kb * 2 ^ 13 + acc * 2 ^ 11 + wb * 2 ^ 10 + mode * 2 ^ 8 + c.cid * 2 ^ 4 + f,
    c.np.code * 2 ^ 29 + c.take * 2 ^ 27 + c.give * 2 ^ 25 + kc * 2 ^ 21 + ty * 2 ^ 17 + rnd * 2 ^ 14 +
      boolBit c.pred1.isSome * 2 ^ 13 + c.pred1.getD 0 * 2 ^ 9 + boolBit c.pred2.isSome * 2 ^ 8 +
      c.pred2.getD 0 * 2 ^ 4 + opt]

def XAnyDst.code : XAnyDst → Nat
  | .vec d => d.code
  | .p n => n

/-- The words of a well-formed instruction; an event has none. -/
def encode : Instr → List Nat
  | .nop => encS3 0x00 0 0 0 0
  | .add d a b => encS3 0x01 d a b 0
  | .sub d a b => encS3 0x02 d a b 0
  | .addi d a i => encSI 0x03 d a (encImm i)
  | .mul d a b => encS3 0x04 d a b 0
  | .mulh d a b z => encS3 0x05 d a b (boolBit z)
  | .madd d a b => encS3 0x06 d a b 0
  | .div d a b r z => encS3 0x07 d a b (boolBit r * 2 + boolBit z)
  | .and d a b => encS3 0x08 d a b 0
  | .or d a b => encS3 0x09 d a b 0
  | .xor d a b => encS3 0x0A d a b 0
  | .andi d a i => encSI 0x0B d a (encImm i)
  | .ori d a i => encSI 0x0C d a (encImm i)
  | .xori d a i => encSI 0x0D d a (encImm i)
  | .shl d a b => encS3 0x0E d a b 0
  | .shlImm d a n => encS3 0x0E d a 0 (64 + n)
  | .shr d a b => encS3 0x0F d a b 0
  | .shrImm d a n => encS3 0x0F d a 0 (64 + n)
  | .sra d a b => encS3 0x10 d a b 0
  | .sraImm d a n => encS3 0x10 d a 0 (64 + n)
  | .min d a b z => encS3 0x11 d a b (boolBit z)
  | .max d a b z => encS3 0x12 d a b (boolBit z)
  | .slt d a b z => encS3 0x13 d a b (boolBit z)
  | .movi d i => [0x14 * 2 ^ 25 + d * 2 ^ 19 + fieldOfInt i 19]
  | .movk d p k => [0x15 * 2 ^ 25 + d * 2 ^ 19 + p * 2 ^ 17 + k * 2]
  | .clz d a => encS3 0x16 d a 0 0
  | .popc d a => encS3 0x17 d a 0 0
  | .ext d a z l w => encSI 0x18 d a (boolBit z * 2 ^ 12 + l * 2 ^ 6 + w)
  | .bc c a b o => [0x19 * 2 ^ 25 + c.code * 2 ^ 22 + a * 2 ^ 16 + b * 2 ^ 10 + fieldOfInt o 10]
  | .br o => [0x1A * 2 ^ 25 + fieldOfInt o 25]
  | .call o => [0x1B * 2 ^ 25 + fieldOfInt o 25]
  | .jr a => encS3 0x1C 0 a 0 0
  | .jrLk d a => encS3 0x1C d a 0 1
  | .loop d a i => encSI 0x1D d a (encImm i)
  | .give f => encSI 0x1E 0 0 f
  | .take f => encSI 0x1F 0 0 f
  | .mbw m a b => encS3 0x20 m a b 0
  | .mbr d m => encS3 0x21 d m 0 0
  | .rdv => encS3 0x22 0 0 0 0
  | .rdvMask g => encS3 0x22 0 0 0 g
  | .bar g s => encSI 0x23 0 0 (g * 2 ^ 4 + s)
  | .barTm a g s => encSI 0x23 0 a (g * 2 ^ 4 + 8 + s)
  | .rdsr d n => encSI 0x24 d 0 n
  | .rdsrQflags d => encSI 0x24 d 0 0x10
  | .wrsr a n => encSI 0x25 0 a n
  | .wrsrStatus a => encSI 0x25 0 a 0x000
  | .wrsrQflags a => encSI 0x25 0 a 0x010
  | .wrsrNpdef a => encSI 0x25 0 a 0x011
  | .wrsrDph a => encSI 0x25 0 a 0x012
  | .wrsrSpass a => encSI 0x25 0 a 0x020
  | .wrsrSkern a => encSI 0x25 0 a 0x021
  | .wrsrSdrain a => encSI 0x25 0 a 0x022
  | .trap i => encSI 0x26 0 0 i
  | .eret => encS3 0x27 0 0 0 0
  | .idle i => encSI 0x28 0 0 (encImm i)
  | .rdcyc d => encS3 0x29 d 0 0 0
  | .ld d b s z o => encMA 0x40 d b s z o
  | .st d b s o => encMA 0x41 d b s false o
  | .ldq q b o => encMA 0x42 q b 0 false o
  | .stq w b o => encMA 0x43 w b 0 false o
  | .ldt d b o => encMA 0x44 d b 0 false o
  | .stt d b o => encMA 0x45 d b 0 false o
  | .amo d a b op s r => encS3 0x46 d a b (op * 2 ^ 3 + boolBit s * 2 ^ 2 + r)
  | .cas d a b s r => encS3 0x47 d a b (boolBit s * 2 ^ 2 + r)
  | .fence k s => encSI 0x48 0 0 (k * 2 ^ 3 + s)
  | .spadj i => encSI 0x49 0 0 (encImm i)
  | .passM a n => encSI 0x4A 0 a n
  | .passA a n => encSI 0x4A 0 a (2 ^ 12 + n)
  | .tlbp d a t => encS3 0x4B d a 0 (boolBit t)
  | .pghint q g => encSI 0x4C 0 0 (q * 2 ^ 8 + g)
  | .tlbinv a r => encS3 0x4D 0 a 0 r
  | .openH h a b w => encS3 0x4E (32 + h) a b (boolBit w)
  | .closeH h => encS3 0x4F (32 + h) 0 0 0
  | .bind d a b => encS3 0x50 d a b 0
  | .rebind d a b => encS3 0x51 d a b 0
  | .lpatch a b f => encS3 0x52 0 a b f
  | .larm d a => encS3 0x53 d a 0 0
  | .decld d a k => encS3 0x54 d a 0 (k - 1)
  | .ctxsv a b => encS3 0x55 0 a b 0
  | .ctxld a b => encS3 0x56 0 a b 0
  | .ldqs q d a b t c => encAL 0x60 d.code a b 0 c 0 q t.code 0 0
  | .gathq q d a b t c => encAL 0x61 d.code a b 0 c 0 q t.code 0 0
  | .scatq w d a b t c => encAL 0x62 d.code a b 0 c 0 (16 + w) t.code 0 0
  | .rgath d a b k t r sk tx sc c =>
    encAL 0x63 d.code a b 0 c k 0 t.code r.code (boolBit sc * 4 + boolBit tx * 2 + boolBit sk)
  | .rstrm d a b k t sk c => encAL 0x64 d.code a b 0 c k 0 t.code 0 (boolBit sk)
  | .cplvl l a b k c => encAL 0x65 0 a b l c k 0 0 0 0
  | .cpgo d a b t s r mx k c => encAL 0x66 d.code a.code b (k * 16) c 0 0 t.code r.code (mx * 16 + s.code)
  | .cpgoPm d a c => encAL 0x66 d a 0 1 c 0 0 0 0 0
  | .cpgath d a b k op t s r kind c =>
    encAL 0x67 d.code a.code b (kind * 16 + op) c k 0 t.code r.code s.code
  | .cpscat d a b ad t s r kind c =>
    encAL 0x68 d.code a.code b (kind * 16 + boolBit ad) c 0 0 t.code r.code s.code
  | .decq q d a b k t zr c => encAL 0x69 d.code a b (boolBit zr) c k q t.code 0 0
  | .sfadd d a b r => encS3 0x40 d a b r.code
  | .sfsub d a b r => encS3 0x41 d a b r.code
  | .sfmul d a b r => encS3 0x42 d a b r.code
  | .sfma d a b r => encS3 0x43 d a b r.code
  | .sfdiv d a b r => encS3 0x44 d a b r.code
  | .sfsqrt d a r => encS3 0x45 d a 0 r.code
  | .sfmin d a b => encS3 0x46 d a b 0
  | .sfmax d a b => encS3 0x47 d a b 0
  | .sfcmp d a b c => encS3 0x48 d a b c
  | .sfcvt d a r t s => encS3 0x49 d a 0 (r.code * 16 + t * 4 + s)
  | .vext d a b s z => encS3 0x4A d a b (boolBit s * 4 + z)
  | .vins d a b z => encS3 0x4B d a b z
  | .qcnt d a w => encS3 0x4C d a 0 (boolBit w)
  | .qdrop a b => encS3 0x4D 0 a b 0
  | .qdropNw d a b => encS3 0x4D d a b 1
  | .loopp k a i => encSI 0x4E k a (encImm i)
  | .plog d a b op => encS3 0x4F d a b op
  | .pcnt d a w => encS3 0x50 d a 0 w
  | .pfirst d a w => encS3 0x51 d a 0 w
  | .pset d w n => encSI 0x52 d 0 (w * 2 ^ 11 + n)
  | .psetReg d a w n => encSI 0x52 d a (w * 2 ^ 11 + 2 ^ 10 + n)
  | .ppack d a => encS3 0x53 d a 0 0
  | .punpk d a => encS3 0x54 d a 0 0
  | .pext d a b => encS3 0x55 d a b 0
  | .pins d a b => encS3 0x56 d a b 0
  | .vadd d a b t s c => encXL 0x60 d.code a b (boolBit s) c noSrc t.code 0
  | .vsub d a b t s c => encXL 0x61 d.code a b (boolBit s) c noSrc t.code 0
  | .vmul d a b t s c => encXL 0x62 d.code a b (boolBit s) c noSrc t.code 0
  | .vmulh d a b t c => encXL 0x63 d.code a b 0 c noSrc t.code 0
  | .vmad d a b z t s c => encXL 0x64 d.code a b (boolBit s) c z t.code 0
  | .vlog d a b t op c => encXL 0x65 d.code a b op c noSrc t.code 0
  | .vsh d a b t op c => encXL 0x66 d.code a b op c noSrc t.code 0
  | .vmin d a b t c => encXL 0x67 d.code a b 0 c noSrc t.code 0
  | .vmax d a b t c => encXL 0x68 d.code a b 0 c noSrc t.code 0
  | .vabs d a t s c => encXL 0x69 d.code a noSrc (boolBit s) c noSrc t.code 0
  | .vfadd d a b t r c => encXL 0x6A d.code a b 0 c noSrc t.code r.code
  | .vfsub d a b t r c => encXL 0x6B d.code a b 0 c noSrc t.code r.code
  | .vfmul d a b t r c => encXL 0x6C d.code a b 0 c noSrc t.code r.code
  | .vfma d a b z t r op c => encXL 0x6D d.code a b op c z t.code r.code
  | .vfdiv d a b t r c => encXL 0x6E d.code a b 0 c noSrc t.code r.code
  | .vfsqrt d a t r c => encXL 0x6F d.code a noSrc 0 c noSrc t.code r.code
  | .vcmp p a b t k c => encXL 0x70 p a b k c noSrc t.code 0
  | .vsel d a b t c => encXL 0x71 d.code a b 0 c noSrc t.code 0
  | .vmov d a t c => encXL 0x72 d.code a noSrc 0 c noSrc t.code 0
  | .viota d a t c => encXL 0x73 d.code a noSrc 0 c noSrc t.code 0
  | .vperm d a b z t op c => encXL 0x74 d.code a b op c z t.code 0
  | .vslide d a b z t up c => encXL 0x75 d.code a b (boolBit up) c z t.code 0
  | .vred d a t op r c => encXL 0x76 d.code a noSrc op c noSrc t.code r.code
  | .vscan d a b z t op r c => encXL 0x77 d.code a b op c z t.code r.code
  | .vclmul d a b op c => encXL 0x78 d.code a b op c noSrc 13 0
  | .vcvt d a b t s r sat c => encXL 0x79 d.code a b s.code c (.v (boolBit sat)) t.code r.code
  | .vqpack d a b t k r c => encXL 0x7A d.code a b k c noSrc t.code r.code
  | .vqunpk d a b t r c => encXL 0x7B d.code a b 0 c noSrc t.code r.code
  | .vspars d a t op c => encXL 0x7C d.code a noSrc op c noSrc t.code 0
  | .vtopk d a b t op c => encXL 0x7D d.code a b op c noSrc t.code 0
  | .vhist d a b z t s c => encXL 0x7E d.code a b (boolBit s) c z t.code 0
  | .cscan d a b z t op sc r c => encXL 0x7F d.code a b (sc * 4 + op) c z t.code r.code
  | .mqry d i => encS3 0x40 d i 0 0
  | .mskip i a => encS3 0x41 i a 0 0
  | .mskipCx i => encS3 0x41 i 0 0 1
  | .mwld w ka kb kc t c => encML 0x60 0 ka kb 0 w 0 0 c kc t.code 0 0
  | .mwlds w ka kb kc er t c => encML 0x61 0 ka kb 0 w 0 0 c kc t.code 0 er
  | .mrun acc w ka kb md t cm c =>
    encML 0x62 0 ka kb acc w md.code 0 c 0 t.code 0 (match cm with | none => 0 | some h => 8 + h)
  | .manch acc ka kb kc k c => encML 0x63 (k.getD 0) ka kb acc 0 0 (boolBit k.isSome) c kc 0 0 0
  | .mzero acc t c => encML 0x64 0 0 0 acc 0 0 0 c 0 t.code 0 0
  | .mdrn acc ka kb kc t r sat clr kind c =>
    encML 0x65 0 ka kb acc 0 0 0 c kc t.code r.code (boolBit sat * 8 + boolBit clr * 4 + kind)
  | .unassignedMajor w => [w]
  | _ => []

end Sys2Proof
end

