-- ==== Sys2Proof/Machine/Num.lean ====
section
/-! DEFINITION. Numbers (03_numbers): exact values, the floating-point formats, one rounding function for every mode,
conversions, the ANC96 window, and the minimum and maximum order. Flags are the bits of `qflags` (R66). -/

namespace Sys2Proof

/-! ## qflags bits (R66) -/

def fNv : Word := 0x001
def fDz : Word := 0x002
def fOf : Word := 0x004
def fUf : Word := 0x008
def fNx : Word := 0x010
def fQsat : Word := 0x020
def fQinf : Word := 0x040
def fQnan : Word := 0x080
def fAovf : Word := 0x100

/-! ## Exact values -/

/-- An exact value: NaN, an infinity, or (-1)^neg * mant * 2^exp with a signed zero (R68, R81). -/
inductive Num where
  | nan
  | inf (neg : Bool)
  | fin (neg : Bool) (mant : Nat) (exp : Int)
  deriving DecidableEq, Repr

/-- A value and the flags met on the way to it. -/
structure NumF where
  val : Num
  flags : Word
  deriving DecidableEq, Repr

/-- The integer as a value; 0 is +0. -/
def Num.ofInt (i : Int) : Num := .fin (i < 0) i.natAbs 0

def Num.isNan : Num → Bool
  | .nan => true
  | _ => false

def Num.isZero : Num → Bool
  | .fin _ m _ => m == 0
  | _ => false

def Num.isInf : Num → Bool
  | .inf _ => true
  | _ => false

def Num.sign : Num → Bool
  | .nan => false
  | .inf n => n
  | .fin n _ _ => n

def Num.neg : Num → Num
  | .nan => .nan
  | .inf n => .inf !n
  | .fin n m e => .fin (!n) m e

def Num.abs : Num → Num
  | .nan => .nan
  | .inf _ => .inf false
  | .fin _ m e => .fin false m e

/-- The signed integer `mant * 2^(exp - e)` for e ≤ exp. -/
def scaledInt (neg : Bool) (m : Nat) (exp e : Int) : Int :=
  let v : Int := (m * 2 ^ (exp - e).toNat : Nat)
  if neg then -v else v

/-- Exact sum; an exact zero of operands of opposite sign is −0 under rdn, else +0 (R81). ∞ − ∞ is invalid (R68). -/
def Num.add (rdn : Bool) : Num → Num → NumF
  | .nan, _ => ⟨.nan, 0⟩
  | _, .nan => ⟨.nan, 0⟩
  | .inf a, .inf b => if a = b then ⟨.inf a, 0⟩ else ⟨.nan, fNv⟩
  | .inf a, _ => ⟨.inf a, 0⟩
  | _, .inf b => ⟨.inf b, 0⟩
  | .fin na ma ea, .fin nb mb eb =>
    let e := min ea eb
    let s := scaledInt na ma ea e + scaledInt nb mb eb e
    if s = 0 then ⟨.fin (if na = nb then na else rdn) 0 e, 0⟩
    else ⟨.fin (s < 0) s.natAbs e, 0⟩

/-- Exact product; 0·∞ is invalid (R68). -/
def Num.mul : Num → Num → NumF
  | .nan, _ => ⟨.nan, 0⟩
  | _, .nan => ⟨.nan, 0⟩
  | .inf a, .inf b => ⟨.inf (a != b), 0⟩
  | .inf a, .fin b m _ => if m = 0 then ⟨.nan, fNv⟩ else ⟨.inf (a != b), 0⟩
  | .fin a m _, .inf b => if m = 0 then ⟨.nan, fNv⟩ else ⟨.inf (a != b), 0⟩
  | .fin na ma ea, .fin nb mb eb => ⟨.fin (na != nb) (ma * mb) (ea + eb), 0⟩

/-- 0·∞ in a product whose other addend may be NaN (R172): VFMA sets nv even then. -/
def Num.invalidProduct : Num → Num → Bool
  | .inf _, .fin _ m _ => m == 0
  | .fin _ m _, .inf _ => m == 0
  | _, _ => false

/-- x·y + z, exact (R81, R172). -/
def Num.fma (rdn : Bool) (x y z : Num) : NumF :=
  let p := Num.mul x y
  let s := Num.add rdn p.val z
  ⟨s.val, p.flags ||| s.flags⟩

/-- The bits by which a quotient or root is carried beyond the widest significand, before one sticky bit. -/
def guardBits : Nat := 160

/-- Quotient carried to `guardBits` bits with a sticky last bit: it rounds as the exact quotient does in every mode,
because no format and no dither threshold looks further (R79, R81). Special cases of R68 and dz of R66. -/
def Num.div : Num → Num → NumF
  | .nan, _ => ⟨.nan, 0⟩
  | _, .nan => ⟨.nan, 0⟩
  | .inf _, .inf _ => ⟨.nan, fNv⟩
  | .inf a, .fin b _ _ => ⟨.inf (a != b), 0⟩
  | .fin a _ _, .inf b => ⟨.fin (a != b) 0 0, 0⟩
  | .fin na ma ea, .fin nb mb eb =>
    if mb = 0 then (if ma = 0 then ⟨.nan, fNv⟩ else ⟨.inf (na != nb), fDz⟩)
    else if ma = 0 then ⟨.fin (na != nb) 0 0, 0⟩
    else
      let k := guardBits + Nat.log2 mb + 1
      let q := ma * 2 ^ k / mb
      let r := ma * 2 ^ k % mb
      ⟨.fin (na != nb) (2 * q + (if r = 0 then 0 else 1)) (ea - eb - k - 1), 0⟩

/-- Integer square root by one bit of the root for each unit of fuel, the highest first. -/
def isqrtLoop : Nat → Nat → Nat → Nat
  | 0, _, r => r
  | f + 1, n, r =>
    let c := r + 2 ^ f
    isqrtLoop f n (if c * c ≤ n then c else r)

/-- The floor of the square root. -/
def isqrt (n : Nat) : Nat := isqrtLoop (Nat.log2 n / 2 + 1) n 0

/-- Square root, carried as `Num.div` carries a quotient; below −0 it is invalid (R68). -/
def Num.sqrt : Num → NumF
  | .nan => ⟨.nan, 0⟩
  | .inf n => if n then ⟨.nan, fNv⟩ else ⟨.inf false, 0⟩
  | .fin n m e =>
    if m = 0 then ⟨.fin n 0 e, 0⟩
    else if n then ⟨.nan, fNv⟩
    else
      let odd := e % 2 != 0
      let m2 := (if odd then 2 * m else m) * 2 ^ (2 * guardBits)
      let e2 := (if odd then e - 1 else e) - 2 * guardBits
      let r := isqrt m2
      ⟨.fin false (2 * r + (if r * r = m2 then 0 else 1)) (e2 / 2 - 1), 0⟩

/-- The comparison of two values that are not NaN, numeric: −0 equals +0 (R160). -/
def Num.cmp : Num → Num → Ordering
  | .inf a, .inf b => if a = b then .eq else if a then .lt else .gt
  | .inf a, _ => if a then .lt else .gt
  | _, .inf b => if b then .gt else .lt
  | .fin na ma ea, .fin nb mb eb =>
    let e := min ea eb
    compare (scaledInt na ma ea e) (scaledInt nb mb eb e)
  | _, _ => .eq

/-- The order of R86 on values that are not NaN: −0 stands below +0. -/
def Num.below (x y : Num) : Bool :=
  match x.cmp y with
  | .lt => true
  | .gt => false
  | .eq => x.isZero && y.isZero && x.sign && !y.sign

/-! ## Formats (R67) -/

/-- A floating-point format: width, significand bits with the hidden one, exponent of the smallest subnormal, the
largest finite magnitude's code, the infinity's code if any, and the canonical NaN. -/
structure Fmt where
  width : Nat
  p : Nat
  emin : Int
  maxCode : Nat
  infCode : Option Nat
  nanCode : Nat
  deriving DecidableEq, Repr

def fmtF32 : Fmt := ⟨32, 24, -149, 0x7F7FFFFF, some 0x7F800000, 0x7FC00000⟩
def fmtBf16 : Fmt := ⟨16, 8, -133, 0x7F7F, some 0x7F80, 0x7FC0⟩
def fmtF16 : Fmt := ⟨16, 11, -24, 0x7BFF, some 0x7C00, 0x7E00⟩
def fmtE4m3 : Fmt := ⟨8, 4, -9, 0x7E, none, 0x7F⟩
def fmtE5m2 : Fmt := ⟨8, 3, -16, 0x7B, some 0x7C, 0x7E⟩

/-- The format of a floating-point type; f32 stands for the others. -/
def Fmt.ofTy : Ty → Fmt
  | .bf16 => fmtBf16
  | .f16 => fmtF16
  | .e4m3 => fmtE4m3
  | .e5m2 => fmtE5m2
  | _ => fmtF32

/-- The value of a code (R67, R69, R70). -/
def Fmt.decode (f : Fmt) (bits : Nat) : Num :=
  let neg := bits / 2 ^ (f.width - 1) % 2 == 1
  let mag := bits % 2 ^ (f.width - 1)
  if f.infCode = some mag then .inf neg
  else if f.maxCode < mag then .nan
  else
    let ex := mag / 2 ^ (f.p - 1)
    let fr := mag % 2 ^ (f.p - 1)
    if ex = 0 then .fin neg fr f.emin else .fin neg (2 ^ (f.p - 1) + fr) (f.emin + ex - 1)

/-- How a value is rounded: the mode and, under rdi, the threshold t of R79. -/
structure RMode where
  rnd : Rnd
  thr : Nat
  deriving DecidableEq, Repr

def rmRne : RMode := ⟨.rne, 0⟩

/-- Reverses the five bits of `j` (R79). -/
def bitReverse5 (j : Nat) : Nat :=
  j % 2 * 16 + j / 2 % 2 * 8 + j / 4 % 2 * 4 + j / 8 % 2 * 2 + j / 16 % 2

/-- The dither threshold of position `p` under phase `dph` (R79). -/
def ditherThr (p dph : Nat) : Nat := bitReverse5 ((p % 32 + dph) % 32) * 8 + 4

/-- The mode of an element at position `p`. -/
def RMode.at (rnd : Rnd) (dph p : Nat) : RMode := ⟨rnd, ditherThr p dph⟩

/-- Whether the larger of the two neighbouring magnitudes is chosen: `lo` is the smaller, `rem` of 2^s the part above
it, not 0 (R78, R79). -/
def roundUp (r : RMode) (neg : Bool) (lo rem s : Nat) : Bool :=
  match r.rnd with
  | .rne => 2 * rem > 2 ^ s || (2 * rem == 2 ^ s && lo % 2 == 1)
  | .rtz => false
  | .rup => !neg
  | .rdn => neg
  | .rna => 2 * rem ≥ 2 ^ s
  | .rdi => rem * 256 / 2 ^ s ≥ r.thr

/-- A magnitude m·2^e rounded to a multiple of 2^q, as the multiple, with whether it is inexact. -/
def roundMag (r : RMode) (neg : Bool) (m : Nat) (e q : Int) : Nat × Bool :=
  if q ≤ e then (m * 2 ^ (e - q).toNat, false)
  else
    let s := (q - e).toNat
    let lo := m / 2 ^ s
    let rem := m % 2 ^ s
    if rem = 0 then (lo, false) else (if roundUp r neg lo rem s then lo + 1 else lo, true)

/-- The code of an overflow (R78, R82). -/
def Fmt.overflow (f : Fmt) (r : RMode) (sat neg : Bool) : Nat :=
  match f.infCode with
  | none => f.maxCode
  | some i =>
    if sat then f.maxCode
    else
      match r.rnd with
      | .rtz => f.maxCode
      | .rup => if neg then f.maxCode else i
      | .rdn => if neg then i else f.maxCode
      | _ => i

/-- The code with its sign. -/
def Fmt.signed (f : Fmt) (neg : Bool) (mag : Nat) : Nat := (if neg then 2 ^ (f.width - 1) else 0) + mag

/-- A value rounded to a format, with its flags (R66, R78, R81, R82). `sat` is the `.sat` modifier of e5m2. -/
def Fmt.round (f : Fmt) (r : RMode) (sat : Bool) : Num → Nat × Word
  | .nan => (f.nanCode, 0)
  | .inf neg =>
    match f.infCode with
    | none => (f.signed neg f.maxCode, 0)
    | some i => (f.signed neg (if sat then f.maxCode else i), 0)
  | .fin neg m e =>
    if m = 0 then (f.signed neg 0, 0)
    else
      let top := e + (Nat.log2 m : Nat) + 1 - f.p
      let q := max top f.emin
      let (k, inexact) := roundMag r neg m e q
      let mag := (q - f.emin).toNat * 2 ^ (f.p - 1) + k
      if f.maxCode < mag then (f.signed neg (f.overflow r sat neg), fOf ||| fNx)
      else
        (f.signed neg mag,
          if inexact then (if mag < 2 ^ (f.p - 1) then fUf ||| fNx else fNx) else 0)

/-- The value a rounding gives, as a value again. -/
def roundNum (f : Fmt) (r : RMode) (x : NumF) : NumF :=
  let (b, fl) := f.round r false x.val
  ⟨f.decode b, x.flags ||| fl⟩

/-! ## Integers (R74, R83) -/

/-- Width in bytes of an element (R152); a K4 element has none of its own and counts as one byte. -/
def Ty.width : Ty → Nat
  | .f32 | .s32 | .z32 => 4
  | .bf16 | .f16 | .s16 | .z16 => 2
  | .s64 | .z64 => 8
  | _ => 1

def Ty.signed : Ty → Bool
  | .s8 | .s16 | .s32 | .s64 => true
  | _ => false

/-- The range of an integer type. -/
def Ty.intMin (t : Ty) : Int := if t.signed then -(2 ^ (8 * t.width - 1) : Nat) else 0
def Ty.intMax (t : Ty) : Int :=
  if t.signed then (2 ^ (8 * t.width - 1) : Nat) - 1 else (2 ^ (8 * t.width) : Nat) - 1

/-- Saturation to a type's range. -/
def Ty.clamp (t : Ty) (i : Int) : Int := if i < t.intMin then t.intMin else if t.intMax < i then t.intMax else i

/-- The unsigned code of an integer modulo 2^W. -/
def wrapTo (bits : Nat) (i : Int) : Nat := (i % (2 ^ bits : Nat)).toNat

/-- The two's-complement or unsigned reading of an element. -/
def Ty.readInt (t : Ty) (v : Nat) : Int := if t.signed then signedField v (8 * t.width) else v

/-- A float value converted to an integer type (R83): rounded by the mode, saturated, NaN to 0. -/
def intOfNum (t : Ty) (r : RMode) : Num → Int × Word
  | .nan => (0, fNv)
  | .inf neg => (if neg then t.intMin else t.intMax, fNv)
  | .fin neg m e =>
    let (k, inexact) := roundMag r neg m e 0
    let v : Int := if neg then -(k : Int) else k
    if v < t.intMin || t.intMax < v then (t.clamp v, fNv) else (v, if inexact then fNx else 0)

/-- An integer converted between integer types: exact in range, else saturated with nv (R197). -/
def intOfInt (t : Ty) (i : Int) : Int × Word := if i < t.intMin || t.intMax < i then (t.clamp i, fNv) else (i, 0)

/-! ## Element conversion (R81..R84, R197) -/

/-- The value of an element of any type but k4 and anc. -/
def elemNum (t : Ty) (v : Nat) : Num := if t.isInt then Num.ofInt (t.readInt v) else (Fmt.ofTy t).decode v

/-- VCVT's conversion of one element (R197). One of the same type is copied, an infinity under `.sat` too. -/
def convElem (dst src : Ty) (r : RMode) (sat : Bool) (v : Nat) : Nat × Word :=
  if dst.isInt then
    if src.isInt then
      let (i, fl) := intOfInt dst (src.readInt v)
      (wrapTo (8 * dst.width) i, fl)
    else
      let (i, fl) := intOfNum dst r (elemNum src v)
      (wrapTo (8 * dst.width) i, fl)
  else if dst = src then
    match elemNum src v with
    | .nan => ((Fmt.ofTy dst).nanCode, 0)
    | _ => (v, 0)
  else (Fmt.ofTy dst).round r sat (elemNum src v)

/-- The copy path's conversion of one element whose source value has been read exactly (R84): through f32 where either
side is a float, directly between integers, b8 unchanged. -/
def copyElem (dst src : Ty) (r : RMode) (v : Nat) : Nat × Word :=
  if dst = .b8 then (v, 0)
  else if dst.isInt && src.isInt then
    let (i, fl) := intOfInt dst (src.readInt v)
    (wrapTo (8 * dst.width) i, fl)
  else
    let x := roundNum fmtF32 rmRne ⟨elemNum src v, 0⟩
    if dst.isInt then
      let (i, fl) := intOfNum dst r x.val
      (wrapTo (8 * dst.width) i, x.flags ||| fl)
    else
      let (b, fl) := (Fmt.ofTy dst).round r false x.val
      (b, x.flags ||| fl)

/-! ## K4 and MX blocks (R71..R73, R85) -/

/-- The magnitudes of the non-negative codes, in eighths (R72). -/
def k4Mag8 : Nat → Nat → Nat
  | 1, c => [0, 4, 8, 12, 16, 24, 32, 48].getD c 0
  | 2, c => [0, 1, 2, 4, 8, 16, 32, 64].getD c 0
  | 3, c => [0, 8, 16, 24, 32, 48, 64, 96].getD c 0
  | _, c => 8 * c

/-- V(code) of R72. -/
def k4Value (kind code : Nat) : Num :=
  if kind = 0 then Num.ofInt (signedField code 4)
  else .fin (8 ≤ code) (k4Mag8 kind (code % 8)) (-3)

/-- A value times a power of two. -/
def Num.scale (x : Num) (k : Int) : Num :=
  match x with
  | .fin n m e => .fin n m (e + k)
  | y => y

/-- Element `k` of a 17-byte block with scale byte `scale` (R71). -/
def k4Elem (scale code : Nat) : Num :=
  if scale % 64 = 63 then .nan else (k4Value (scale / 64) code).scale ((scale % 64 : Nat) - 32)

/-- floor(log2 |x|) of a finite non-zero value. -/
def Num.ilog2 : Num → Int
  | .fin _ m e => e + (Nat.log2 m : Nat)
  | _ => 0

/-- The larger magnitude of two values, infinities and NaNs left out. -/
def Num.maxMag (x y : Num) : Num :=
  match y with
  | .fin _ 0 _ => x
  | .fin _ _ _ => if x.cmp y.abs == .lt then y.abs else x
  | _ => x

/-- The largest finite magnitude of a list (R73, R93); +0 for none. -/
def maxFinite (xs : List Num) : Num := xs.foldl Num.maxMag (.fin false 0 0)

/-- The largest magnitude's code index and code count of a kind and sign. -/
def k4Max (kind : Nat) (neg : Bool) : Nat := if kind = 0 then (if neg then 8 else 7) else 7

/-- Steps through the grid of a kind's magnitudes for the largest index whose magnitude is at most m·2^e. -/
def k4Floor (kind : Nat) (m : Nat) (e : Int) : Nat → Nat
  | 0 => 0
  | n + 1 => if (Num.fin false (k4Mag8 kind (n + 1)) (-3)).cmp (.fin false m e) == .gt then k4Floor kind m e n else n + 1

/-- The code of a magnitude index with its sign (R72). -/
def k4Code (kind : Nat) (neg : Bool) (idx : Nat) : Nat :=
  if kind = 0 then (if neg then (16 - idx) % 16 else idx) else (if neg then 8 + idx else idx)

/-- GridRound of R73: the code, and whether the code's value differs from y. -/
def k4Round (kind : Nat) (r : RMode) : Num → Nat × Bool
  | .fin neg m e =>
    let top := k4Max kind neg
    let lo := k4Floor kind m e top
    let lov : Num := .fin false (k4Mag8 kind lo) (-3)
    if lov.cmp (.fin false m e) == .eq then (k4Code kind neg lo, false)
    else if lo = top then (k4Code kind neg top, true)
    else
      -- position of |y| between lo and hi as rem of 2^s with a common unit
      let hi8 := k4Mag8 kind (lo + 1)
      let lo8 := k4Mag8 kind lo
      let u := min e (-3)
      let y := m * 2 ^ (e - u).toNat
      let l := lo8 * 2 ^ (-3 - u).toNat
      let gap := (hi8 - lo8) * 2 ^ (-3 - u).toNat
      let rem := y - l
      let up : Bool :=
        match r.rnd with
        | .rne => 2 * rem > gap || (2 * rem == gap && lo % 2 == 1)
        | .rtz => false
        | .rup => !neg
        | .rdn => neg
        | .rna => 2 * rem ≥ gap
        | .rdi => rem * 256 / gap ≥ r.thr
      (k4Code kind neg (if up then lo + 1 else lo), true)
  | _ => (0, false)

/-- EncodeK4 of R73: 32 codes, the scale byte, and the flags. -/
def encodeK4 (xs : List Num) (kind : Nat) (mode : Nat → RMode) : List Nat × Nat × Word :=
  if xs.any Num.isNan then (xs.map (fun _ => 0), kind * 64 + 63, fQnan)
  else
    let m := maxFinite xs
    let emax : Int := if kind = 0 || kind = 1 then 2 else 3
    let eu : Int := m.ilog2 - emax + 32
    let ex : Int := if m.isZero then 0 else min (max eu 0) 62
    let fs : Word := if !m.isZero && ex ≠ eu then fQsat else 0
    let step := fun (acc : List Nat × Word × Nat) (x : Num) =>
      match x with
      | .inf neg => (acc.1 ++ [k4Code kind neg (k4Max kind neg)], acc.2.1 ||| fQinf, acc.2.2 + 1)
      | y =>
        let (c, nx) := k4Round kind (mode acc.2.2) (y.scale (32 - ex))
        (acc.1 ++ [c], acc.2.1 ||| (if nx then fNx else 0), acc.2.2 + 1)
    let (codes, fl, _) := xs.foldl step ([], fs, 0)
    (codes, kind * 64 + ex.toNat, fl)

/-- The 17 bytes of a K4 block (R71). -/
def k4Bytes (codes : List Nat) (scale : Nat) : List Nat :=
  (List.range 16).map (fun i => codes.getD (2 * i) 0 + 16 * codes.getD (2 * i + 1) 0) ++ [scale]

/-- The element maximum exponent of an MX format (R85). -/
def mxEmax : Ty → Int
  | .e4m3 => 8
  | .e5m2 => 15
  | .k4 => 2
  | _ => 0

/-- An MX element's value from its code (R85): E2M1 is the k4e grid, MXINT8 is s8 times 2^-6. -/
def mxElem (t : Ty) (scale code : Nat) : Num :=
  if scale = 255 then .nan
  else
    let v : Num :=
      match t with
      | .k4 => k4Value 1 code
      | .s8 => (Num.ofInt (Ty.readInt .s8 code)).scale (-6)
      | t => (Fmt.ofTy t).decode code
    v.scale ((scale : Nat) - 127)

/-- Writes an MX block (R85): 32 codes, the E8M0 scale byte, and the flags. -/
def encodeMx (t : Ty) (xs : List Num) (mode : Nat → RMode) : List Nat × Nat × Word :=
  if xs.any Num.isNan then (xs.map (fun _ => 0), 255, fQnan)
  else
    let m := maxFinite xs
    let eu : Int := m.ilog2 - mxEmax t + 127
    let ex : Int := if m.isZero then 0 else min (max eu 0) 254
    let fs : Word := if !m.isZero && ex ≠ eu then fQsat else 0
    let top (neg : Bool) : Nat :=
      match t with
      | .k4 => k4Code 1 neg 7
      | .s8 => if neg then 0x80 else 0x7F
      | t => (Fmt.ofTy t).signed neg (Fmt.ofTy t).maxCode
    let one (r : RMode) (y : Num) : Nat × Bool :=
      match t with
      | .k4 => k4Round 1 r y
      | .s8 =>
        let (i, fl) := intOfNum .s8 r (y.scale 6)
        (wrapTo 8 i, fl != 0)
      | t =>
        let (b, fl) := (Fmt.ofTy t).round r true y
        (b, fl &&& fNx != 0)
    let step := fun (acc : List Nat × Word × Nat) (x : Num) =>
      match x with
      | .inf neg => (acc.1 ++ [top neg], acc.2.1 ||| fQinf, acc.2.2 + 1)
      | y =>
        let (c, nx) := one (mode acc.2.2) (y.scale (127 - ex))
        (acc.1 ++ [c], acc.2.1 ||| (if nx then fNx else 0), acc.2.2 + 1)
    let (codes, fl, _) := xs.foldl step ([], fs, 0)
    (codes, ex.toNat, fl)

/-! ## ANC96 (R75..R77) -/

/-- The special-value state of a window, with what the zero rule of R77 needs: whether any term came and whether all
were −0. -/
inductive AncSp where
  | empty
  | negZeros
  | plain
  | pinf
  | ninf
  | nan
  deriving DecidableEq, Repr

/-- One ANC96 element: N and its state; the anchor stands with its row or instruction. -/
structure AncCell where
  n : Int
  sp : AncSp
  deriving DecidableEq, Repr

def AncCell.zero : AncCell := ⟨0, .empty⟩

/-- RoundToInteger_RNE of t·2^(64-A) (R76). -/
def ancUnits (anchor : Int) : Num → Int
  | .fin neg m e =>
    let (k, _) := roundMag rmRne neg m (e + 64 - anchor) 0
    if neg then -(k : Int) else k
  | _ => 0

/-- Adds one term to a window (R76, R77), with nv and aovf. -/
def AncCell.add (anchor : Int) (c : AncCell) (t : Num) : AncCell × Word :=
  match t with
  | .nan => (⟨c.n, .nan⟩, 0)
  | .inf neg =>
    match c.sp with
    | .nan => (c, 0)
    | .pinf => if neg then (⟨c.n, .nan⟩, fNv) else (c, 0)
    | .ninf => if neg then (c, 0) else (⟨c.n, .nan⟩, fNv)
    | _ => (⟨c.n, if neg then .ninf else .pinf⟩, 0)
  | .fin neg m _ =>
    let sp :=
      match c.sp with
      | .empty => if m = 0 && neg then .negZeros else .plain
      | .negZeros => if m = 0 && neg then .negZeros else .plain
      | s => s
    let s := c.n + ancUnits anchor t
    if s > 2 ^ 95 - 1 then (⟨2 ^ 95 - 1, sp⟩, fAovf)
    else if s < -(2 ^ 95) then (⟨-(2 ^ 95), sp⟩, fAovf)
    else (⟨s, sp⟩, 0)

/-- The value a window converts to (R77). -/
def AncCell.value (anchor : Int) (c : AncCell) : Num :=
  match c.sp with
  | .nan => .nan
  | .pinf => .inf false
  | .ninf => .inf true
  | .negZeros => .fin (c.n ≤ 0) c.n.natAbs (anchor - 64)
  | _ => .fin (c.n < 0) c.n.natAbs (anchor - 64)

/-- Adds a list of terms. -/
def ancSum (anchor : Int) (c : AncCell) (ts : List Num) : AncCell × Word :=
  ts.foldl (fun acc t => let (c', fl) := acc.1.add anchor t; (c', acc.2 ||| fl)) (c, 0)

/-- The anchor of R93 for the terms of an instruction. -/
def anchorOf (ts : List Num) : Int :=
  let m := maxFinite ts
  if m.isZero then 0 else m.ilog2 - 16

/-! ## Minimum and maximum (R86) -/

/-- Whether the later value replaces the earlier as the maximum: a NaN never does, anything replaces a NaN. -/
def maxTakes (x y : Num) : Bool :=
  if y.isNan then false else if x.isNan then true else x.below y

/-- Whether the later value replaces the earlier as the minimum. -/
def minTakes (x y : Num) : Bool :=
  if y.isNan then false else if x.isNan then true else y.below x

/-- The comparison of R160 and R173 by condition code. -/
def condHolds (cond : Nat) (x y : Num) : Bool :=
  let un := x.isNan || y.isNan
  match cond with
  | 0 => !un && x.cmp y == .eq
  | 1 => un || x.cmp y != .eq
  | 2 => !un && x.cmp y == .lt
  | 3 => !un && x.cmp y != .gt
  | 4 => !un && x.cmp y == .gt
  | 5 => !un && x.cmp y != .lt
  | 6 => un
  | _ => !un

/-! ## The matrix dot product (R89) -/

/-- Truncation toward zero to a multiple of 2^q. -/
def Num.truncTo (q : Int) : Num → Num
  | .fin n m e =>
    if q ≤ e then .fin n m e
    else .fin n (m / 2 ^ (q - e).toNat) q
  | x => x

/-- DotNp12: 64 exact products aligned and rounded once; `pairs` holds the terms that are read, `full` says that every
one of the 64 positions is. Unread positions are exact +0 (R89, R295). -/
def dotNp12 (pairs : List (Num × Num)) : NumF :=
  let ps := pairs.map (fun p => Num.mul p.1 p.2)
  let vals := ps.map NumF.val
  let invalid := ps.any (fun p => p.flags != 0)
  let pinf := vals.any (fun v => v == .inf false)
  let ninf := vals.any (fun v => v == .inf true)
  if invalid || (pinf && ninf) then ⟨.nan, fNv⟩
  else if vals.any Num.isNan then ⟨.nan, 0⟩
  else if pinf then ⟨.inf false, 0⟩
  else if ninf then ⟨.inf true, 0⟩
  else
    let mx := maxFinite vals
    if mx.isZero then
      -- −0 only when all 64 products are −0
      ⟨.fin (vals.length == 64 && vals.all (fun v => v.sign)) 0 0, 0⟩
    else
      let q := mx.ilog2 - 47
      let ts := vals.map (Num.truncTo q)
      let s := ts.foldl (fun acc t => (Num.add false acc t).val) (.fin false 0 q)
      roundNum fmtF32 rmRne ⟨s, 0⟩

end Sys2Proof
end

