-- ==== Sys2Proof/Machine/State.lean ====
section
/-! DEFINITION. The state of one package as plain data: the hub, four dies, 32 clusters and 512 cores, each with what the
spec gives it, and the model's own scheduling fields. Numbered registers, queues, tiles and cores stand in sparse tables
(`Tbl`); an unlisted entry holds the default that its accessor names. INVENTORY.md lists every piece with the
rule that names it. -/

namespace Sys2Proof.Machine

/-- Bytes by address, addresses strictly rising, no byte 0 listed (an unlisted address reads 0, R439, R207). -/
abbrev Memory := List Host.Cell

/-- R116; `none`: the job has no stream on this engine. -/
inductive RunState where
  | none | running | waiting | descheduled | ended | held
  deriving DecidableEq, Repr

/-- An entry of the loop stack (R129), or the active LOOPP (R165). -/
structure LoopEnt where
  pipelined : Bool
  start : Word
  stop : Word
  ctr : Nat
  deriving DecidableEq, Repr

/-- The attributes of a page (R332) or an object (R392); `kind` 0 SO, 1 RC, 2 UO. -/
structure Attr where
  writable : Bool
  executable : Bool
  kind : Nat
  cmp : Bool
  rep : Bool
  race : Bool
  det : Bool
  deriving DecidableEq, Repr

/-- Where the bytes of a part of an access have their home. -/
inductive Home where
  | tile
  | local
  | remote (pkg inc : Nat)
  deriving DecidableEq, Repr

/-- A part of an access whose bytes are contiguous at one home: tile-store or physical address, length, attributes,
the `addr` field of R240 for its first byte, and the slot of the handle on which the access is based (R395, R399). -/
structure Seg where
  home : Home
  addr : Nat
  len : Nat
  attr : Attr
  tv : Nat
  slot : Option Nat
  deriving DecidableEq, Repr

/-- The operation of an AMO or CAS with its operands (R252, R253). -/
inductive AmoOp where
  | rmw (op : Nat) (b : Word)
  | cas (expect new : Word)
  deriving DecidableEq, Repr

/-- What stands in a queue entry: its data or an error mark (R104, R241). -/
inductive QData where
  | bytes (v : Vec)
  | error (cause : Nat) (tval : Word)
  deriving DecidableEq, Repr

/-- What a pending access or value of a stream does when it lands or is performed. -/
inductive PendOp where
  /-- A scalar value in flight (MBR, SFDIV, SFSQRT). -/
  | scalar (d : Nat) (v : Word) (flags : Word)
  /-- A vector result in flight to physical v register `d`, merged at landing (R102): the bytes of the mask are written. -/
  | vector (d : Nat) (v : Vec) (mask : Pred) (flags : Word) (give : Nat)
  /-- A vector result in flight to entry `id` of w queue `w`. -/
  | push (w id : Nat) (v : Vec) (mask : Pred) (flags : Word) (give : Nat)
  /-- A result in flight to an e half. -/
  | half (h : Nat) (v : Vec) (flags : Word) (give : Nat)
  /-- A predicate in flight. -/
  | pred (p : Nat) (v mask : Pred) (flags : Word) (give : Nat)
  /-- LD: `data` holds bytes captured at issue (tile store, deterministic buffer). -/
  | load (d size : Nat) (z : Bool) (segs : List Seg) (data : Option (List Byte))
  /-- AMO or CAS. -/
  | amo (d : Nat) (op : AmoOp) (dword acq rel : Bool) (segs : List Seg) (epoch : Nat)
  /-- An entry of a q queue being filled; `data`: what was read for it at issue, or when a handler's access followed it. -/
  | entry (q id : Nat) (segs : List Seg) (data : Option QData) (group give : Nat)
  /-- A store: bytes with their mask. -/
  | store (segs : List Seg) (data : List Byte) (mask : List Bool)
  /-- LDT: a copy to 512 bytes of the tile store (R248). -/
  | toTile (dst : Nat) (segs : List Seg)
  /-- An access that has met an error, whose cause is still to be reported, with the register that it leaves as it was (R231, R241). -/
  | bad (d : Option Nat) (cause tv : Nat)
  deriving DecidableEq, Repr

/-- A pending long-latency value or access of a stream, in program order (R102, R117). -/
structure Pend where
  id : Nat
  op : PendOp
  deriving DecidableEq, Repr

/-- A cause to be taken before the stream's next instruction (R241, R243, R291, R450, R466). `slot`: the transfer that
ERET resumes; `cmd`: the M command that ERET resumes. -/
structure Late where
  cause : Nat
  tval : Word
  slot : Option Nat
  cmd : Option Nat
  deriving DecidableEq, Repr

/-- An object as BIND or REBIND would create it (R391, R392). -/
structure ObjDesc where
  pkg : Nat
  inc : Nat
  pa : Nat
  size : Nat
  attr : Attr
  format : Nat
  rank : Nat
  dims : List Nat
  deriving DecidableEq, Repr

/-- What a stream stands at after its instruction has issued and before the event that completes it. -/
inductive Meet where
  | free
  /-- RDV with a mask (R140). -/
  | join (mask : Nat)
  /-- BAR: scope, mask, instance, and the release cycle of a timed one (R142, R144). -/
  | bar (scope mask inst : Nat) (timed : Option Nat)
  /-- IDLE until the local count reaches `until` (R149). -/
  | idle (until_ : Nat)
  /-- The completed instruction at `addr` waits for the counter of its loop (R131). -/
  | edge (addr next : Word)
  /-- A PASS toward M of `n` tiles from `t`, waiting to flip (R224). -/
  | pass (t n : Nat)
  /-- TLBINV of a reach and a page (R260). -/
  | tlbinv (reach : Nat) (va : Word)
  /-- DECLD into a bank from an address, with the number of values of an entry (R275). -/
  | decld (d bank e : Nat) (segs : List Seg)
  /-- An RDV or CLOSE that waits for the commit of buffered writes (R399, R451; log 44). -/
  | committing
  /-- An OPEN on an awaited name (R398). -/
  | awaiting (name : Word)
  /-- A directory act (R396). -/
  | dirOpen (h : Nat) (name : Word) (b : Nat) (wait : Bool)
  | dirClose (h : Nat)
  | dirBind (d : Nat) (name : Word) (obj : Option ObjDesc) (status : Nat)
  | dirRebind (d : Nat) (pairs : List (Word × Nat × Option ObjDesc))
  /-- A launch-record act (R411). -/
  | recPatch (record f : Nat) (value : Word)
  | recArm (d record : Nat)
  deriving DecidableEq, Repr

/-- One stream (R98, R112, R115). `regs` is the scalar file, `empty` its registers marked empty (R102). `stood`: the wait, with the
address of its instruction, at which a late cause met the stream, and to which ERET returns it (R231, R243). `wants`: the mailboxes that
the stream's instruction reads, where it is descheduled on them (R107, R108). -/
structure Stream where
  run : RunState
  pc : Word
  status : Word
  cause : Word
  epc : Word
  tval : Word
  tvec : Word
  tscr : Word
  qflags : Word
  npdef : Word
  dph : Word
  regs : Tbl Word
  empty : List Nat
  loops : List LoopEnt
  pend : List Pend
  late : List Late
  taken : List Late
  at_ : Meet
  stood : Option (Word × Meet)
  wants : List Nat
  deriving DecidableEq, Repr

/-- A cached translation (R334, R237). `size` 0, 1, 2 as TLBP reports it (R258). -/
structure Trans where
  ctx : Nat
  page : Nat
  size : Nat
  pkg : Nat
  frame : Nat
  inc : Nat
  attr : Attr
  deriving DecidableEq, Repr

/-- A copy level (R266). -/
structure Level where
  count : Nat
  src : Int
  dst : Int
  deriving DecidableEq, Repr

/-- A base that a transfer captured: a virtual address, or an object with an offset 0 (R234, R395). -/
inductive Base where
  | va (a : Word)
  | obj (slot : Nat)
  deriving DecidableEq, Repr

/-- What a transfer does (R263, R267, R270 to R273, R276). -/
inductive XferOp where
  | cpgo (dst src : Base) (m : Nat) (dty sty : Ty) (rnd : Rnd) (mx kind : Nat) (levels : List Level)
  | move (page frame : Word) (size entry : Nat) (old : Word)
  | gather (dst src index bags : Base) (op : Nat) (dty sty : Ty) (rnd : Rnd) (kind : Nat) (np : Np)
      (len : Nat) (srcStride dstStride : Int) (n : Nat)
  | scatter (dst src index : Base) (add : Bool) (dty sty : Ty) (rnd : Rnd) (kind : Nat) (np : Np)
      (len : Nat) (srcStride dstStride : Int) (n : Nat)
  | feed (feed : Nat) (rows index : Base) (gather : Bool) (n : Nat) (stride : Int) (tagBase len : Nat) (ty : Ty)
      (rnd : Rnd) (skip byTag scaled : Bool)
  | decode (q : Nat) (ids : List Nat) (src : Base) (bytes ratio : Nat) (ty : Ty) (zr : Bool) (gen : Nat)
  deriving DecidableEq, Repr

/-- A piece of what a transfer writes in a unit: bytes at an offset of a base with an alignment. -/
structure XPiece where
  base : Base
  off : Int
  align : Nat
  data : List Byte
  deriving DecidableEq, Repr

/-- An asynchronous transfer in its slot (R242): the elements performed, whether it is suspended (R243), the tokens it
owes, the rounding phase it found at issue (R80), its flags, where it stands in the order of issue, the rows of a feed that
have entered, the coded bytes a DECQ has read, and the `tval` of its own for a bag that ends before it begins (R271). `fan`: the
rows that a gather has read, under the window of their position and their index (R274); `sent`: the pieces of the present unit that
went to other packages, each with the part that its request names; `rest`: those of them that were not performed there and are
still to be (R242, R243). `counted`: what it counted at issue towards the quantum's limit; `wrote`: the bytes that it has written to det
pages (R369). -/
structure Transfer where
  op : XferOp
  done : Nat
  suspended : Bool
  give : Nat
  dph : Nat
  flags : Word
  order : Nat
  entered : List Nat
  held : List Byte
  bagTval : Word
  fan : List (Nat × Int × List Byte)
  sent : List (Seg × XPiece)
  rest : List XPiece
  counted : Nat
  wrote : Nat
  deriving DecidableEq, Repr

/-- One decoder table bank (R275): generation 0 is empty. -/
structure Bank where
  gen : Nat
  e : Nat
  table : List Word
  deriving DecidableEq, Repr

/-- The A stream's own state beside `Stream`: stack limit, handles (slot of the context's table), page registers and
hints of the 24 queues and where each accessed last, copy levels, transfers, release epoch (R99, R101, R112, R237, R242, R266, R465). -/
structure AState where
  slim : Word
  h : Tbl Nat
  curPage : Tbl Trans
  nextPage : Tbl Trans
  hint : Tbl Nat
  qva : Tbl Nat
  levels : Tbl Level
  xfers : Tbl Transfer
  banks : Tbl Bank
  gen : Nat
  epoch : Nat
  deriving DecidableEq, Repr

/-- An outstanding CSCAN of a core (R191): it lands by CSCAN_LANDING in physical register or reserved entry `id` of `d`. -/
structure Scan where
  id : Nat
  scope : Nat
  inst : Nat
  d : XDst
  ty : Ty
  op : Nat
  mask : Pred
  zeroing : Bool
  give : Nat
  deriving DecidableEq, Repr

/-- The X stream's own state: v and p files, LOOPP state, outstanding CSCANs (R99, R111, R112, R191). -/
structure XState where
  v : Tbl Vec
  vempty : List Nat
  p : Tbl Pred
  spass : Word
  skern : Word
  sdrain : Word
  scans : List Scan
  scanCount : Tbl Nat
  deriving DecidableEq, Repr

/-- The format of an accumulator tile (R284). -/
inductive AccFmt where
  | f32 | s32 | anc
  deriving DecidableEq, Repr

/-- A row of an accumulator tile: 64 elements of 32 bits in f32 and s32, the anchor and cells in anc. -/
structure AccRow where
  bits : BitVec 2048
  anchor : Int
  cells : Tbl AncCell
  deriving DecidableEq, Repr

structure AccTile where
  fmt : AccFmt
  rows : Tbl AccRow
  deriving DecidableEq, Repr

/-- A full weight buffer (R285): element (j, n) stands under j * 64 + n, the mask of column n and group g under
n * 16 + g. -/
structure WBuf where
  ty : Ty
  k : Nat
  n : Nat
  sparse : Bool
  w : Tbl Num
  masks : Tbl Nat
  deriving DecidableEq, Repr

/-- What a window command does, with the operands it read at entry (R287). -/
inductive MOp where
  | wld (wb tile k n : Nat) (ty : Ty)
  | wlds (wb tile k n e : Nat) (ty : Ty)
  | run (acc wb expect base : Nat) (mode : MMode) (ty : Ty) (np : Np) (cm : Option Nat)
  | anch (acc first rows : Nat) (anchor : Int)
  | anch4 (acc first rows addr blocks : Nat)
  | zero (acc : Nat) (ty : Ty)
  | drn (acc first rows addr : Nat) (ty : Ty) (rnd : Rnd) (sat clr : Bool) (kind : Nat)
  deriving DecidableEq, Repr

/-- The state of a command (R290). -/
inductive CmdState where
  | entered | issued | suspended | retired | cancelled
  deriving DecidableEq, Repr

/-- A command with its record of R290 and R302: `seq` numbers the commands of the job in program order; `checked`: its
checks at issue have passed and its e halves are read; `masks` are those an MWLDS read (R301). -/
structure Cmd where
  seq : Nat
  cid : Nat
  op : MOp
  state : CmdState
  take : Nat
  give : Nat
  after : List Nat
  dph : Nat
  checked : Bool
  received : Nat
  absent : Nat
  placed : List Nat
  skipped : List Nat
  seen : List Nat
  colmask : Option Nat
  rowsDone : Nat
  masks : List Nat
  flags : Word
  deriving DecidableEq, Repr

/-- A feed at the row port (R261, R293). -/
structure Feed where
  id : Nat
  ty : Ty
  len : Nat
  total : Nat
  checkedRows : List Nat
  began : Nat
  bound : Option Nat
  deriving DecidableEq, Repr

/-- A row at the port or in the array (R261): elements are absent under an absent header. -/
structure Row where
  feed : Nat
  tag : Nat
  seq : Nat
  scale : Nat
  data : Option (List Num)
  deriving DecidableEq, Repr

/-- A row in the array after its header check (R294, R297): its command with the operation, the weights and the column mask under which
it passes, the accumulator row it updates, if any, and whether it is the row that completes its command. -/
structure Passage where
  row : Row
  cmd : Nat
  op : MOp
  b : WBuf
  colmask : Nat
  target : Option Nat
  last : Bool
  deriving DecidableEq, Repr

/-- M's state (R284 to R293); `badAcc`: the accumulator rows with an uncorrectable error, row r of accumulator i under
256 * i + r (R221). -/
structure MState where
  acc : Tbl AccTile
  wb : Tbl WBuf
  e : Tbl Vec
  efull : List Nat
  window : List Cmd
  records : List Cmd
  nextCmd : Nat
  feeds : List Feed
  port : List Row
  array : List Passage
  nextFeed : Nat
  badAcc : List Nat
  deriving DecidableEq, Repr

/-- A queue entry: reserved until its data or its error mark stands in it (R104, R241). -/
structure QEnt where
  id : Nat
  data : Option QData
  deriving DecidableEq, Repr

structure WEnt where
  id : Nat
  data : Option (Vec × Pred)
  deriving DecidableEq, Repr

/-- The job of a core (R206, R207, R414): the local count at which it started, the cycles that it had counted before a restore (R422),
whether it stands still while another part of its launch is saved (R420), and memory as the instruction caches found it at job start
(R38). -/
structure Job where
  record : Nat
  ctx : Nat
  lidx : Nat
  start : Nat
  credit : Nat
  paused : Bool
  streams : List Eng
  code : Memory
  deriving DecidableEq, Repr

/-- A value in a mailbox, with the A party and interval that wrote it (R107, R365). -/
structure MVal where
  value : Word
  byA : Bool
  writer : Nat
  interval : Nat
  deriving DecidableEq, Repr

/-- A buffered write of a deterministic quantum (R368): `at_` is its place in program order, for a transfer that of its
issue (R370). -/
structure DetWrite where
  at_ : Nat
  seg : Seg
  data : List Byte
  mask : List Bool
  deriving DecidableEq, Repr

/-- A core's deterministic buffer (R368, R369); `atomic`: the pending atomic that ended the quantum, which the commit performs
(R370). -/
structure DetBuf where
  quantum : Nat
  counted : Nat
  ended : Bool
  writes : List DetWrite
  atomic : Option Nat
  deriving DecidableEq, Repr

/-- A barrier instance that not every named stream of the core has joined (R142): `joined` is a mask of engines. -/
structure OpenBar where
  scope : Nat
  inst : Nat
  mask : Nat
  joined : Nat
  deriving DecidableEq, Repr

/-- One core (R99, R209 to R230). `barCount` numbers its barrier instances by scope (R142). Uncorrectable errors (R64, R221):
`badTile` lists addresses of tile-store lines, `badParity` lines of the parity banks (line index i of group g under 512 * g + i),
`badCode` physical addresses of words in the core's instruction caches. -/
structure Core where
  job : Option Job
  held : Bool
  heldSince : Nat
  stopped : Bool
  a : Stream
  x : Stream
  m : Stream
  as : AState
  xs : XState
  ms : MState
  q : Tbl (List QEnt)
  w : Tbl (List WEnt)
  tokens : Tbl Nat
  reserved : Tbl Nat
  mbox : Tbl MVal
  holding : List MboxMsg
  outbound : List MboxMsg
  tile : Memory
  ownM : List Nat
  badTile : List Nat
  badParity : List Nat
  badCode : List Nat
  conflicts : Tbl Nat
  gtlb : List Trans
  pairs : List (Nat × Nat)
  det : DetBuf
  bars : List OpenBar
  barCount : Tbl Nat
  nextId : Nat
  deriving DecidableEq, Repr

/-- Why a cluster's clock domain stands still (R231, R337, R378, R426); a droop with the clock at which it began. -/
inductive Freeze where
  | fault (core : Nat) (e : Eng)
  | droop (at_ : Nat)
  | hold
  | debug
  deriving DecidableEq, Repr

/-- One cluster (R326, R336, R424): `lost` counts the eighths of nominal cycles that its local count did not make, `stretch` those by
which its coming cycles are longer. -/
structure Cluster where
  gauge : Bool
  changing : Option Bool
  lost : Nat
  stretch : Nat
  frozen : List Freeze
  since : Nat
  tlb : List Trans
  deriving DecidableEq, Repr

/-- A context slot (R404): live with its 16 descriptor dwords, the handle table (slot to object), and how many contexts the slot has
held, which tells a context from a later one of its id (R401). -/
structure Ctx where
  live : Bool
  desc : List Word
  handles : Tbl Nat
  gen : Nat
  deriving DecidableEq, Repr

/-- An object (R391 to R393): `name` is its last binding, `bound` whether an entry names it, `binder` the context that bound it, by its
id and the number of its slot's contexts. -/
structure Obj where
  desc : ObjDesc
  name : Word
  bound : Bool
  count : Nat
  binder : Nat × Nat
  deriving DecidableEq, Repr

/-- A directory entry that is not free: bound to an object, or awaited by the A streams of cores (R390). -/
structure DirEnt where
  name : Word
  obj : Option Nat
  waiters : List Nat
  deriving DecidableEq, Repr

/-- A launch record with its arms' place in the package's order and its predecessors' targets (R407, R411). -/
structure Rec where
  dw : Tbl Word
  order : Nat
  targets : List (Nat × Nat)
  deriving DecidableEq, Repr

/-- A CSCAN contribution of one participant (R190), with what its instance fixes (R191). -/
structure Contrib where
  scope : Nat
  unit_ : Nat
  inst : Nat
  op : Nat
  ty : Ty
  np : Np
  lidx : Nat
  h : Vec
  a : Vec
  b : Vec
  deriving DecidableEq, Repr

/-- The timed BAR instances of a launch: the smallest T given so far, by late participants too, and the largest that one which has
arrived gave (R144). -/
structure TimedBar where
  scope : Nat
  unit_ : Nat
  inst : Nat
  low : Nat
  high : Nat
  deriving DecidableEq, Repr

/-- A grant of a wave to a die, numbered package · 4 + die: its first logical index, its cores, and whether it is acknowledged
(R418). -/
structure Grant where
  die : Nat
  first : Nat
  cores : List Nat
  acked : Bool
  deriving DecidableEq, Repr

/-- A running launch of the package (R414, R415): its cores with their logical index in the current wave, its clusters in ascending
logical index and those that have its vault image (R475), the leader's index counter and the grants of the wave, whose copy the next
die in line keeps (R418), whether the start messages have been sent, the package's dies whose start is due and those whose jobs have
begun (R469), the tile and vault images once they are read (R416), the barrier instances that have completed (R365), the packages that
it spans with those whose part of the wave has ended (R457, R459), and the fabric barriers that have arrived and were released (R456). -/
structure Launch where
  record : Nat
  wave : Nat
  started : Bool
  cores : List (Nat × Nat)
  clusters : List Nat
  vaulted : List Nat
  index : Nat
  grants : List Grant
  sent : Bool
  due : List Nat
  begun : List Nat
  loaded : Option (Memory × List Byte)
  done : List Nat
  contribs : List Contrib
  timed : List TimedBar
  completed : List (Nat × Nat × Nat)
  remoteBars : List (Nat × Nat × Nat × Nat)
  released : List Nat
  packages : List Nat
  endedOn : List Nat
  deriving DecidableEq, Repr

/-- A hold of a die (R378 to R382). -/
structure Hold where
  ctx : Nat
  die : Nat
  gauge : Bool
  cause : Nat
  eng : Nat
  core : Nat
  epc : Word
  tval : Word
  count : Word
  later : Nat
  causes : List Nat
  image : Word
  began : Nat
  deriving DecidableEq, Repr

/-- The lifelines of a launch (R420): its cores with what they held, the mailbox writes for them that stood in ports of its other
cores, and the interval numbers of their units by core (R421); `image`: the die image that CTXSV wrote of it, and the number of that
save (R423); `shift`: the translation at which another part of the launch has been restored (R422). -/
structure Lifeline where
  launch : Launch
  cores : List (Nat × Core)
  mail : List MboxMsg
  intervals : List (Nat × Nat)
  ctx : Nat
  image : Option (List Byte)
  saved : Nat
  shift : Option (Int × Int)
  deriving DecidableEq, Repr

/-- A peer package (R460), and the clock at which this hub last heard from it. -/
structure Peer where
  up : Bool
  inc : Nat
  heard : Nat
  deriving DecidableEq, Repr

/-- What waits for the response to a request of this hub (R449): a pending access, a transfer, a stream whose next
instruction reads other packages' memory before it issues (its index list), a bulk command of the host by its number, a launch that
reads its images, or a write of the device's own. -/
inductive Owner where
  | pend (core id : Nat)
  | xfer (core slot : Nat)
  | instr (core : Nat) (e : Eng)
  | host (id : Nat)
  | image (record : Nat)
  | device (id : Nat)
  deriving DecidableEq, Repr

inductive Reply where
  | data (l : List Byte)
  | ack
  | nack (cause : Nat)
  deriving DecidableEq, Repr

/-- An outstanding request (R443, R464); `tv` is the R240 `addr` of its first byte. -/
structure OutReq where
  tid : Nat
  dst : Nat
  addr : Nat
  len : Nat
  tv : Nat
  write : Bool
  sent : Nat
  owner : Owner
  reply : Option Reply
  deriving DecidableEq, Repr

/-- What becomes of a record that the device writes of its own (R367, R379, R401): of a race conflict on a die, of an object reclaimed,
of a hold whose report then goes out. -/
inductive DevKind where
  | race (die : Nat)
  | reclaim (ctx gen : Nat) (words : List Word)
  | hold (h : Hold)
  deriving DecidableEq, Repr

/-- What a write of the device's own waits for: the header of a ring of `count` records, the write of the record, or the write of the
header; a plain write has no header. -/
inductive DevPhase where
  | header (count : Nat)
  | record (next : Nat)
  | index (logged : Bool)
  | plain
  deriving DecidableEq, Repr

/-- A write of the device's own whose bytes have their home, all or some, at another package; `gen` tells its context from a later one of
its id (R401). -/
structure DevWrite where
  id : Nat
  ctx : Nat
  gen : Nat
  base : Nat
  data : List Byte
  kind : DevKind
  phase : DevPhase
  deriving DecidableEq, Repr

/-- A release that this hub, as ordering point, holds until it is cleared (R465): an atomic request or a mailbox write. -/
inductive Release where
  | atomic (r : FabReq)
  | mail (m : MboxMsg)
  deriving DecidableEq, Repr

/-- A release act of a stream of this package that waits for its stores (R465, R466): the epoch, the stores it stands
behind, and the R240 `addr` of its target. -/
structure RelAct where
  core : Nat
  epoch : Nat
  behind : List Nat
  target : Nat
  dst : Nat
  pend : Option Nat
  deriving DecidableEq, Repr

/-- A message of the package to another one or to a switch (R443). -/
inductive FabMsg where
  | readReq (r : FabReq)
  | writeReq (r : FabReq)
  | atomicReq (r : FabReq)
  | data (dst tid : Nat) (l : List Byte)
  | ack (dst tid : Nat)
  | nack (dst tid cause : Nat)
  | mailbox (m : MboxMsg)
  | clear (dst core epoch : Nat)
  | cancel (dst core epoch : Nat)
  | barArrive (dst record engines inst count : Nat)
  | barRelease (dst record inst : Nat)
  | grant (dst record die first : Nat) (cores : List Nat)
  | grantAck (dst record die : Nat)
  | start (dst record die : Nat)
  | heartbeat (die : Nat)
  | hello (up : Bool) (inc : Nat)
  deriving DecidableEq, Repr

/-- A message of the package to the host (R428, R430, R433). -/
inductive HostMsg where
  | attest (report ephemeral : List Byte) (features : BitVec 256)
  | opened (status : Nat)
  | response (seq status : Nat) (payload : List Byte)
  | launchComplete (record ctx completions : Nat)
  | hold (record : List Byte)
  | context (ctx subtype : Nat) (payload : List Word)
  | dieFailed (die last : Nat)
  | thermal (level : Nat)
  deriving DecidableEq, Repr

/-- The phase of the session (R428). -/
inductive Phase where
  | closed | offered | opened
  deriving DecidableEq, Repr

/-- A message as it leaves the hub (R430): the Ethernet port, whether it travels over RUD (R427), its sequence number, 0 before the
session is open, and its HMAC. -/
structure HostOut where
  port : Nat
  rud : Bool
  seq : Nat
  msg : HostMsg
  mac : List Byte
  deriving DecidableEq, Repr

/-- A bulk command that has been accepted and not completed (R432): its number among what waits for replies, its bytes, whether its part
in this package is performed, and whether the session that it came in still awaits the response. -/
structure HostOp where
  id : Nat
  seq : Nat
  port : Nat
  write : Bool
  segs : List Seg
  data : List Byte
  performed : Bool
  answers : Bool
  deriving DecidableEq, Repr

/-- A context that a CTXEND or a thermal shutdown is ending (R406, R441), with the command that awaits it. -/
structure Ending where
  ctx : Nat
  command : Option HostHdr
  deriving DecidableEq, Repr

/-- A command whose message has been accepted and which has not begun (R430, R432). -/
structure WaitingCmd where
  seq : Nat
  bulk : Bool
  cmd : Instr
  deriving DecidableEq, Repr

/-- The host session (R427 to R434): what the messages of its opening said, the last sequence number accepted and the last sent,
failed messages in a row, the clock of the last message, the Ethernet ports that it uses, and the commands that wait to begin. -/
structure Session where
  phase : Phase
  transcript : List Byte
  hostKey : List Byte
  ephemeral : List Byte
  macKey : List Byte
  seqIn : Nat
  seqOut : Nat
  failed : Nat
  last : Nat
  ports : List Nat
  waiting : List WaitingCmd
  deriving DecidableEq, Repr

/-- Junction level (R441). -/
inductive Heat where
  | normal | hot | hotter | down
  deriving DecidableEq, Repr

/-- A fabric port (R442, R445, R447, R455). -/
structure Port where
  up : Bool
  lanesLost : List Nat
  windows : Nat
  deriving DecidableEq, Repr

/-- The package. `sentMail`: the mailbox writes that have left for a package and may still be lost with it (R453). `leftLaunches`: the
launches that this package leads and whose context has ended here, until the parts of the other packages have ended (R406, R459). `clears`
holds the release clears (true) and cancels (false) that came before their release, by package,
core and epoch (R465). -/
structure State where
  pkgId : Nat
  incarnation : Nat
  boots : Nat
  powered : Bool
  recovery : Bool
  slot : Nat
  accepted : BitVec 256
  mem : Memory
  flash : Memory
  badMem : List Nat
  tags : Tbl Nat
  shadow : Tbl (BitVec 40)
  counters : Tbl Nat
  holdLimit : Nat
  gaugeBudget : Nat
  ctxs : Tbl Ctx
  recs : Tbl Rec
  arms : Nat
  launches : List Launch
  leftLaunches : List Launch
  entries : List DirEnt
  objs : Tbl Obj
  nextObj : Nat
  holds : List Hold
  lifelines : List Lifeline
  attached : List Nat
  intervals : Tbl Nat
  session : Session
  ops : List HostOp
  endings : List Ending
  ring : List HostMsg
  ringDropped : Nat
  drops : Nat
  packetDrops : Nat
  heat : Heat
  snifer : List (List Byte)
  sniferOn : Bool
  routes : Tbl (List Nat)
  ports : Tbl Port
  peers : Tbl Peer
  requests : List OutReq
  nextTid : Nat
  devWrites : List DevWrite
  nextDev : Nat
  releases : List Release
  clears : List (Nat × Nat × Nat × Bool)
  relActs : List RelAct
  fabDropped : Nat
  lateResponses : Nat
  lostMail : Nat
  sentMail : Tbl Nat
  beats : Tbl Nat
  failedDies : List Nat
  inbound : List MboxMsg
  clusters : Tbl Cluster
  cores : Tbl Core
  agenda : List Turn
  turn : Turn
  steps : Nat
  clock : Nat
  toFabric : List FabMsg
  toHost : List HostOut
  deriving DecidableEq, Repr

/-- Why the machine stops. -/
inductive Fault where
  /-- Raised by `step` and by the events when the agenda or an event names a core, cluster, die or port that the grid of
  R3 or the tables of R326 and R442 do not have: no such unit exists. Safe: no program can name one. -/
  | noSuchUnit
  deriving DecidableEq, Repr

/-- Why an instruction has no meaning. -/
inductive Refusal where
  /-- Raised by an arm of `exec` whose instruction has no meaning in the model. Safe: nothing is claimed of it. -/
  | notModelled (mnemonic : String)
  deriving DecidableEq, Repr

/-! ## The state after reset -/

/-- A stream that no job has: R115's values where it gives them, 0 elsewhere (log 1). -/
def Stream.reset (eng : Eng) : Stream :=
  { run := .none, pc := 0, status := BitVec.ofNat 64 (eng.code * 16), cause := 0, epc := 0, tval := 0, tvec := 0,
    tscr := 0, qflags := 0, npdef := 1, dph := 0, regs := [], empty := [], loops := [], pend := [], late := [],
    taken := [], at_ := .free, stood := none, wants := [] }

/-- R115: handles invalid, copy levels of count 1 and stride 0, D = 8 by default of its accessor. -/
def AState.reset : AState :=
  { slim := 0, h := [], curPage := [], nextPage := [], hint := [], qva := [], levels := [], xfers := [], banks := [], gen := 0,
    epoch := 0 }

/-- R115: v registers 0 and full, p1..p63 zero. -/
def XState.reset : XState :=
  { v := [], vempty := [], p := [], spass := 0, skern := 0, sdrain := 0, scans := [], scanCount := [] }

/-- R115: accumulators +0 in f32, weight buffers and e halves empty. -/
def MState.reset : MState :=
  { acc := [], wb := [], e := [], efull := [], window := [], records := [], nextCmd := 0, feeds := [], port := [],
    array := [], nextFeed := 0, badAcc := [] }

def DetBuf.reset : DetBuf := { quantum := 0, counted := 0, ended := false, writes := [], atomic := none }

/-- A core without a job, as R115 and R207 leave one (log 1). -/
def Core.reset : Core :=
  { job := none, held := false, heldSince := 0, stopped := false, a := Stream.reset .a, x := Stream.reset .x,
    m := Stream.reset .m, as := AState.reset, xs := XState.reset, ms := MState.reset, q := [], w := [], tokens := [],
    reserved := [], mbox := [], holding := [], outbound := [], tile := [], ownM := [], badTile := [], badParity := [],
    badCode := [], conflicts := [],
    gtlb := [], pairs := [], det := DetBuf.reset, bars := [], barCount := [], nextId := 0 }

/-- A cluster in rib mode (R439). -/
def Cluster.reset : Cluster :=
  { gauge := false, changing := none, lost := 0, stretch := 0, frozen := [], since := 0, tlb := [] }

def Session.reset : Session :=
  { phase := .closed, transcript := [], hostKey := [], ephemeral := [], macKey := [], seqIn := 0, seqOut := 0, failed := 0,
    last := 0, ports := [], waiting := [] }

/-- The package after a reset (R439). -/
def State.reset : State :=
  { pkgId := 0, incarnation := 0, boots := 0, powered := true, recovery := false, slot := 0, accepted := 0, mem := [],
    flash := [], badMem := [], tags := [], shadow := [], counters := [], holdLimit := 30, gaugeBudget := 112, ctxs := [],
    recs := [], arms := 0, launches := [], leftLaunches := [], entries := [], objs := [], nextObj := 0, holds := [], lifelines := [],
    attached := [], intervals := [], session := Session.reset, ops := [], endings := [], ring := [], ringDropped := 0, drops := 0,
    packetDrops := 0, heat := .normal, snifer := [], sniferOn := true, routes := [], ports := [], peers := [],
    requests := [], nextTid := 1, devWrites := [], nextDev := 0, releases := [], clears := [], relActs := [], fabDropped := 0,
    lateResponses := 0, lostMail := 0, sentMail := [],
    beats := [], failedDies := [], inbound := [], clusters := [], cores := [], agenda := [], turn := .idle, steps := 0,
    clock := 0, toFabric := [], toHost := [] }

end Sys2Proof.Machine
end

