-- ==== Sys2Proof/Machine/Mem.lean ====
section
/-! DEFINITION. Memory in its canonical form, the places of units (R3, R326, R353), the physical map (R354), the fields of
context descriptors and launch records (R404, R407), and the page walk (R332, R333). -/

namespace Sys2Proof.Machine

/-! ## Bytes of a memory -/

/-- The byte at an address. -/
def readB : Memory → Nat → Byte
  | [], _ => 0
  | (k, v) :: t, a => if k = a then v else readB t a

/-- Writes a byte, keeping the addresses rising and no 0 listed. -/
def writeB : Memory → Nat → Byte → Memory
  | [], a, b => if b = 0 then [] else [(a, b)]
  | (k, v) :: t, a, b =>
    if a < k then (if b = 0 then (k, v) :: t else (a, b) :: (k, v) :: t)
    else if a = k then (if b = 0 then t else (a, b) :: t)
    else (k, v) :: writeB t a b

/-- The canonical form: addresses above `lo` strictly rising, no 0 listed. -/
def wfFrom : Nat → Memory → Bool
  | _, [] => true
  | lo, (k, v) :: t => decide (lo ≤ k) && decide (v ≠ 0) && wfFrom (k + 1) t

def Memory.wf (m : Memory) : Bool := wfFrom 0 m

/-- `n` bytes from an address. -/
def readBytes (m : Memory) : Nat → Nat → List Byte
  | _, 0 => []
  | a, n + 1 => readB m a :: readBytes m (a + 1) n

/-- Writes bytes from an address. -/
def writeBytes : Memory → Nat → List Byte → Memory
  | m, _, [] => m
  | m, a, b :: t => writeBytes (writeB m a b) (a + 1) t

/-- Writes the bytes whose mask is set. -/
def writeMasked : Memory → Nat → List Byte → List Bool → Memory
  | m, a, b :: t, k :: ks => writeMasked (if k then writeB m a b else m) (a + 1) t ks
  | m, _, _, _ => m

/-- The little-endian number of a byte list (R65). -/
def natOf (l : List Byte) : Nat := l.foldr (fun b acc => b.toNat + 256 * acc) 0

/-- The `n` bytes of a number, lowest first. -/
def bytesOf : Nat → Nat → List Byte
  | 0, _ => []
  | n + 1, v => BitVec.ofNat 8 v :: bytesOf n (v / 256)

def readNat (m : Memory) (a n : Nat) : Nat := natOf (readBytes m a n)

def vecOfBytes (l : List Byte) : Vec := BitVec.ofNat 4096 (natOf l)
def bytesOfVec (v : Vec) : List Byte := bytesOf 512 v.toNat
def boolsOfPred (p : Pred) : List Bool := (List.range 512).map p.getLsbD

/-! ## Places -/

/-- Core numbers are x + 32 y (R3). -/
def coreX (c : Nat) : Nat := c % 32
def coreY (c : Nat) : Nat := c / 32
/-- The cluster number g of a core (R326). -/
def clusterOf (c : Nat) : Nat := 8 * (coreY c / 4) + coreX c / 4
/-- The local index j of a core in its cluster (R326). -/
def localOf (c : Nat) : Nat := 4 * (coreY c % 4) + coreX c % 4
/-- The core of a cluster with a local index. -/
def coreOf (g j : Nat) : Nat := (4 * (g % 8) + j % 4) + 32 * (4 * (g / 8) + j / 4)
/-- The die of a cluster (R3). -/
def dieOfCluster (g : Nat) : Nat := 2 * (g / 16) + g % 8 / 4
/-- The local index of a cluster in its die (R353). -/
def clusterLocal (g : Nat) : Nat := 4 * (g / 8 % 2) + g % 4
/-- The cluster of a die with a local index. -/
def clusterAt (d c : Nat) : Nat := 8 * (2 * (d / 2) + c / 4) + 4 * (d % 2) + c % 4
def dieOf (c : Nat) : Nat := dieOfCluster (clusterOf c)
def clustersOfDie (d : Nat) : List Nat := (List.range 8).map (clusterAt d)

/-- The unit of a BAR or FENCE scope code that holds a core: core, cluster, die, package, fabric (R141, R347). -/
def unitOf (scope c : Nat) : Nat :=
  match scope with
  | 0 | 1 => c
  | 2 => clusterOf c
  | 3 => dieOf c
  | _ => 0

/-! ## The physical map (R354) -/

def stackBytes : Nat := 0xC00000000
def vaultBase : Nat := 0xF0000000000
def vaultBytes : Nat := 0x3000000
def tileBytes : Nat := 0x80000

/-- The assigned range that holds a local physical address, by its first address and its length. -/
def rangeOf (pa : Nat) : Option (Nat × Nat) :=
  if pa / 2 ^ 40 < 8 then
    (if pa % 2 ^ 40 < stackBytes then some (pa / 2 ^ 40 * 2 ^ 40, stackBytes) else none)
  else if vaultBase ≤ pa && decide ((pa - vaultBase) / 0x4000000 < 32) then
    (if (pa - vaultBase) % 0x4000000 < vaultBytes then
      some (vaultBase + (pa - vaultBase) / 0x4000000 * 0x4000000, vaultBytes) else none)
  else none

def assigned (pa : Nat) : Bool := (rangeOf pa).isSome

/-- The end of the assigned range that holds an address; the address itself where none does. -/
def rangeEnd (pa : Nat) : Nat :=
  match rangeOf pa with
  | some (b, n) => b + n
  | none => pa

def isStack (pa : Nat) : Bool := decide (pa / 2 ^ 40 < 8)
def vaultOf (pa : Nat) : Nat := (pa - vaultBase) / 0x4000000
/-- The die whose controllers are the home of a local physical address. -/
def homeDie (pa : Nat) : Nat := if isStack pa then pa / 2 ^ 40 / 2 else dieOfCluster (vaultOf pa)

/-- The replica of an address for die `d` (R362). -/
def replicaOf (d pa : Nat) : Nat :=
  if isStack pa then (2 * d + pa / 2 ^ 40 % 2) * 2 ^ 40 + pa % 2 ^ 40
  else vaultBase + clusterAt d (clusterLocal (vaultOf pa)) * 0x4000000 + (pa - vaultBase) % 0x4000000

/-! ## Tables of the state -/

def State.core (s : State) (c : Nat) : Core := tget s.cores c Core.reset
def State.setCore (s : State) (c : Nat) (k : Core) : State := { s with cores := tset s.cores c k }
def State.cluster (s : State) (g : Nat) : Cluster := tget s.clusters g Cluster.reset
def State.setCluster (s : State) (g : Nat) (k : Cluster) : State := { s with clusters := tset s.clusters g k }
def State.ctx (s : State) (n : Nat) : Ctx := tget s.ctxs n ⟨false, [], [], 0⟩
def State.setCtx (s : State) (n : Nat) (k : Ctx) : State := { s with ctxs := tset s.ctxs n k }
def State.lrec (s : State) (n : Nat) : Rec := tget s.recs n ⟨[], 0, []⟩
def State.setLrec (s : State) (n : Nat) (r : Rec) : State := { s with recs := tset s.recs n r }
def State.peer (s : State) (n : Nat) : Peer := tget s.peers n ⟨false, 0, 0⟩
def State.counter (s : State) (n : Nat) : Nat := tget s.counters n 0
def State.count (s : State) (n k : Nat) : State := { s with counters := tset s.counters n (s.counter n + k) }

/-- The numbers of the die event counters of R383 for a die. -/
def ctrDroop (d : Nat) : Nat := 64 * d
def ctrFrozen (d : Nat) : Nat := 64 * d + 1
def ctrRead (d tag : Nat) : Nat := 64 * d + 2 + tag
def ctrWrite (d tag : Nat) : Nat := 64 * d + 18 + tag
def ctrMerge (d : Nat) : Nat := 64 * d + 34
def ctrRaceTrap (d : Nat) : Nat := 64 * d + 35
def ctrRaceLog (d : Nat) : Nat := 64 * d + 36
def ctrRaceDrop (d : Nat) : Nat := 64 * d + 37
def ctrCommit (d : Nat) : Nat := 64 * d + 38
def ctrCommitBytes (d : Nat) : Nat := 64 * d + 39
def ctrHold (d : Nat) : Nat := 64 * d + 40
def ctrSummary (d : Nat) : Nat := 64 * d + 41

/-- Bits [hi:lo] of a word as a number. -/
def field (w : Word) (hi lo : Nat) : Nat := w.toNat / 2 ^ lo % 2 ^ (hi + 1 - lo)
def flag (w : Word) (i : Nat) : Bool := w.getLsbD i

/-- Replaces bits [hi:lo] of a word. -/
def setField (w : Word) (hi lo v : Nat) : Word :=
  BitVec.ofNat 64 (w.toNat / 2 ^ (hi + 1) * 2 ^ (hi + 1) + v % 2 ^ (hi + 1 - lo) * 2 ^ lo + w.toNat % 2 ^ lo)

/-! ## Context descriptor (R404) -/

def Ctx.dw (c : Ctx) (k : Nat) : Word := c.desc.getD k 0
def Ctx.gauge (c : Ctx) : Bool := flag (c.dw 0) 8
def Ctx.binder (c : Ctx) : Bool := flag (c.dw 0) 9
def Ctx.mmode (c : Ctx) : Nat := field (c.dw 0) 11 10
def Ctx.mscope (c : Ctx) : Nat := field (c.dw 0) 13 12
def Ctx.logs (c : Ctx) : Bool := flag (c.dw 0) 14
def Ctx.pcap (c : Ctx) : Nat := field (c.dw 0) 17 16
def Ctx.root (c : Ctx) : Nat := field (c.dw 1) 43 13 * 2 ^ 13
/-- `mscope` as a scope code of R255: cluster 2, die 3, package 4. -/
def Ctx.mscopeCode (c : Ctx) : Nat := c.mscope + 1

/-! ## Launch record (R407) -/

def Rec.d (r : Rec) (k : Nat) : Word := tget r.dw k 0
def Rec.setD (r : Rec) (k : Nat) (w : Word) : Rec := { r with dw := tset r.dw k w }
def Rec.built (r : Rec) : Bool := flag (r.d 0) 8
def Rec.armed (r : Rec) : Bool := flag (r.d 0) 9
def Rec.prio (r : Rec) : Nat := field (r.d 0) 11 10
def Rec.gauge (r : Rec) : Bool := flag (r.d 0) 12
def Rec.npdef (r : Rec) : Nat := field (r.d 0) 15 13
def Rec.ctx (r : Rec) : Nat := field (r.d 0) 21 16
def Rec.lvls (r : Rec) : Nat := field (r.d 0) 26 24
def Rec.arms (r : Rec) : Nat := field (r.d 14) 31 0
def Rec.completions (r : Rec) : Nat := field (r.d 14) 63 32
def Rec.vaultLen (r : Rec) : Nat := field (r.d 11) 25 0
def Rec.vbase (r : Rec) : Nat := field (r.d 15) 56 26 * 2 ^ 26
def Rec.voff (r : Rec) : Nat := field (r.d 15) 25 6 * 2 ^ 6
def Rec.code (r : Rec) (e : Eng) : Word := r.d (2 + e.code)
def Rec.tvec (r : Rec) (e : Eng) : Word := r.d (5 + e.code)

/-- A level dword (R408): domain, scope, count. -/
structure LevelDw where
  domain : Nat
  scope : Nat
  count : Nat
  deriving DecidableEq, Repr

def Rec.level (r : Rec) (l : Nat) : LevelDw := ⟨field (r.d (16 + l)) 2 0, field (r.d (16 + l)) 6 4, field (r.d (16 + l)) 31 16⟩
def Rec.levels (r : Rec) : List LevelDw := (List.range (r.lvls + 1)).map r.level

/-! ## Line tags (R358 to R361) -/

def tagOf (s : State) (line : Nat) : Nat := tget s.tags line 1

def sectorsOf : Nat → Nat
  | 1 => 0
  | 2 | 3 => 1
  | 4 | 6 => 2
  | 5 | 7 => 3
  | _ => 4

/-- The little-endian elements of `e` bytes of a line. -/
def lineEls (e : Nat) (line : Nat) : List Nat := (List.range (128 / e)).map (fun i => line / 2 ^ (8 * e * i) % 2 ^ (8 * e))

/-- Whether base-delta with elements of `e` bytes and deltas of `k` bytes represents a line (R359). -/
def baseDelta (e k line : Nat) : Bool :=
  match lineEls e line with
  | [] => false
  | x :: rest => rest.all (fun y =>
      let d := (y + 2 ^ (8 * e) - x) % 2 ^ (8 * e)
      decide (d < 2 ^ (8 * k - 1)) || decide (2 ^ (8 * e) - 2 ^ (8 * k - 1) ≤ d))

/-- The tag with the fewest sectors that represents a line, the lower one on a tie (R360). -/
def chooseTag (line : Nat) : Nat :=
  if line = 0 then 1
  else if (lineEls 8 line).all (fun x => x == line % 2 ^ 64) then 2
  else if baseDelta 8 1 line then 3
  else if baseDelta 8 2 line then 4
  else if baseDelta 4 1 line then 6
  else if baseDelta 8 4 line then 5
  else if baseDelta 4 2 line then 7
  else 0

/-- The lines of 128 bytes that `n` bytes from `pa` touch. -/
def linesOf (pa n : Nat) : List Nat :=
  if n = 0 then [] else (List.range ((pa + n - 1) / 128 - pa / 128 + 1)).map (fun i => (pa / 128 + i) * 128)

/-- Whether a store of masked bytes from `pa` writes address `a`. -/
def covers (pa : Nat) (mask : List Bool) (a : Nat) : Bool := pa ≤ a && mask.getD (a - pa) false

/-- An uncorrectable error that a read of a byte of the line meets: in a stored sector of a compressed line, or a tag
read as 8..15 (R357). -/
def lineBad (s : State) (line : Nat) : Bool :=
  let t := tagOf s line
  8 ≤ t || (t != 0 && (List.range (sectorsOf t)).any (fun i => s.badMem.contains (line + 32 * i)))

/-- The aligned units of `u` bytes that `n` bytes from `pa` touch. -/
def unitsIn (u pa n : Nat) : List Nat :=
  if n = 0 then [] else (List.range ((pa + n - 1) / u - pa / u + 1)).map (fun i => (pa / u + i) * u)

/-- The sectors of 32 bytes that `n` bytes from `pa` touch. -/
def sectorsIn (pa n : Nat) : List Nat := unitsIn 32 pa n

/-- A read of a byte of the sector meets an uncorrectable error: in the sector itself, or in its compressed line (R357). -/
def sectorBad (s : State) (sec : Nat) : Bool :=
  let l := sec / 128 * 128
  lineBad s l || (tagOf s l == 0 && s.badMem.contains sec)

/-- The uncorrectable error that a read of `n` bytes at a local physical address meets first: its cause, and the place of the first
byte of the read in the sector or the ECC word of 8 bytes (R240, R331, R357). -/
def badAt (s : State) (pa n : Nat) : Option (Nat × Nat) :=
  if isStack pa then ((sectorsIn pa n).find? (sectorBad s)).map (fun b => (0x50, max b pa - pa))
  else ((unitsIn 8 pa n).find? s.badMem.contains).map (fun b => (0x51, max b pa - pa))

/-- The cause of an uncorrectable error in `n` bytes read at a local physical address. -/
def readBad (s : State) (pa n : Nat) : Option Nat := (badAt s pa n).map Prod.fst

/-- The error marks that a store of masked bytes leaves in a line: of a raw line those of sectors that it covers whole are
cleared, a compressed line is encoded anew and leaves none (R357). -/
def marksAfter (s : State) (pa : Nat) (mask : List Bool) (line : Nat) : List Nat :=
  s.badMem.filter (fun b => !(line ≤ b && b < line + 128 &&
    (tagOf s line != 0 || (List.range 32).all (fun j => covers pa mask (b + j)))))

/-- The line controller's act for one touched line of a store (R357, R361, R387): tag, error marks, counters. `mem` of the
state already holds the new bytes. A raw line of which a sector stays uncorrectable stays raw: it cannot be encoded anew. -/
def lineStored (cmp : Bool) (pa : Nat) (mask : List Bool) (s : State) (line : Nat) : State :=
  let whole := (List.range 128).all (fun j => covers pa mask (line + j))
  let old := tagOf s line
  let bad := marksAfter s pa mask line
  let stuck := bad.any (fun b => line ≤ b && b < line + 128)
  let new := if cmp && !stuck then chooseTag (readNat s.mem line 128) else 0
  let d := homeDie line
  let s1 : State := { s with
    tags := if whole || cmp || old != 0 then tset s.tags line new else s.tags,
    badMem := bad }
  if whole then s1.count (ctrWrite d new) 1
  else if cmp || old != 0 then ((s1.count (ctrRead d old) 1).count (ctrWrite d new) 1).count (ctrMerge d) 1
  else s1

def linesStored (cmp : Bool) (pa : Nat) (mask : List Bool) : List Nat → State → State
  | [], s => s
  | l :: t, s => linesStored cmp pa mask t (lineStored cmp pa mask s l)

/-- Performs the masked bytes of a store at local physical addresses. -/
def storeLocal (s : State) (cmp : Bool) (pa : Nat) (data : List Byte) (mask : List Bool) : State :=
  let s1 : State := { s with mem := writeMasked s.mem pa data mask }
  if isStack pa then
    linesStored cmp pa mask ((linesOf pa data.length).filter (fun l =>
      (List.range 128).any (fun j => covers pa mask (l + j)))) s1
  else { s1 with badMem := s1.badMem.filter (fun b => !(List.range 8).all (fun j => covers pa mask (b + j))) }

/-- The first byte of `n` stored bytes that lies in a compressed line with an uncorrectable error of which the store covers only
a part: its controller does not perform that store (R357). -/
def storeBadAt (s : State) (pa n : Nat) : Option Nat :=
  if isStack pa then
    ((linesOf pa n).find? (fun l => tagOf s l != 0 && lineBad s l && !(pa ≤ l && decide (l + 128 ≤ pa + n)))).map (fun l => max l pa - pa)
  else none

def storeBad (s : State) (pa n : Nat) : Bool := (storeBadAt s pa n).isSome

/-- Counts the lines that a read decodes (R383). -/
def countReads : List Nat → State → State
  | [], s => s
  | l :: t, s => countReads t (s.count (ctrRead (homeDie l) (tagOf s l)) 1)

/-- The same for lines that are read `n` times: once, or, where a cache has them, not at all. -/
def countReadsBy (n : Nat) : List Nat → State → State
  | [], s => s
  | l :: t, s => countReadsBy n t (s.count (ctrRead (homeDie l) (tagOf s l)) n)

def readLocal (s : State) (pa n : Nat) : List Byte × State :=
  (readBytes s.mem pa n, if isStack pa then countReads (linesOf pa n) s else s)

/-! ## Translation (R332, R333) -/

/-- `rep`, `cmp` and the other attributes of a leaf entry. A cmp bit reads as 0 while feature 10 is not accepted (R435). -/
def leafAttr (s : State) (e : Word) : Attr :=
  { writable := flag e 1, executable := flag e 2, kind := field e 4 3, cmp := flag e 5 && s.accepted.getLsbD 10,
    rep := flag e 6, race := flag e 7, det := flag e 8 }

/-- Whether a valid leaf maps a page of 2^`shift` bytes (R333); feature 8 for a remote package (R435). -/
def leafOk (s : State) (e : Word) (shift : Nat) : Bool :=
  field e 4 3 != 3 && field e 43 14 * 2 ^ 14 % 2 ^ shift == 0 && assigned (field e 43 14 * 2 ^ 14) &&
    (field e 55 44 == s.pkgId || s.accepted.getLsbD 8)

/-- The page size code of TLBP for a level (R258). -/
def sizeCode (level : Nat) : Nat := 3 - level

def pageShift (size : Nat) : Nat := if size = 0 then 14 else if size = 1 then 25 else 36

/-- The walk below the table at `table`, whose level is the first of the list (R333): level, low bit, index width. An entry
that cannot be read gives 0x50 or 0x51 (R10). -/
def walkFrom (s : State) (ctx va : Nat) : Nat → List (Nat × Nat × Nat) → Except Nat Trans
  | _, [] => .error 0x10
  | table, (level, shift, width) :: rest =>
    let at_ := table + 8 * (va / 2 ^ shift % 2 ^ width)
    let e : Word := BitVec.ofNat 64 (readNat s.mem at_ 8)
    match readBad s at_ 8 with
    | some cause => .error cause
    | none =>
    if !flag e 0 || field e 63 56 != 0 || field e 13 10 != 0 || (level == 0 && flag e 9) then .error 0x10
    else if flag e 9 then
      if !leafOk s e shift then .error 0x10
      else
        let pkg := field e 55 44
        if pkg != s.pkgId && !(s.peer pkg).up then .error 0x48
        else .ok ⟨ctx, va / 2 ^ shift * 2 ^ shift, sizeCode level, pkg, field e 43 14 * 2 ^ 14, (s.peer pkg).inc,
          leafAttr s e⟩
    else walkFrom s ctx va (field e 43 14 * 2 ^ 14) rest

/-- The levels of a walk: level, low bit of its index field, width of the index (R333). -/
def walkLevels : List (Nat × Nat × Nat) := [(0, 47, 10), (1, 36, 11), (2, 25, 11), (3, 14, 11)]

/-- The page walk of a virtual address of 57 bits in a context. -/
def walk (s : State) (ctx va : Nat) : Except Nat Trans := walkFrom s ctx va (s.ctx ctx).root walkLevels

/-- The table entries that a walk reads (R333). -/
def walkReads (s : State) (va : Nat) : Nat → List (Nat × Nat × Nat) → List Nat
  | _, [] => []
  | table, (_, shift, width) :: rest =>
    let a := table + 8 * (va / 2 ^ shift % 2 ^ width)
    let e : Word := BitVec.ofNat 64 (readNat s.mem a 8)
    a :: (if (readBad s a 8).isSome || !flag e 0 || field e 63 56 != 0 || field e 13 10 != 0 || flag e 9 then []
      else walkReads s va (field e 43 14 * 2 ^ 14) rest)

/-- The lines that a walk reads in the stacks (R383). -/
def walkLines (s : State) (ctx va : Nat) : List Nat :=
  ((walkReads s va (s.ctx ctx).root walkLevels).filter isStack).flatMap (fun a => linesOf a 8)

/-- A cached translation whose peer is down or has another incarnation (R462). -/
def Trans.stale (s : State) (t : Trans) : Bool := t.pkg != s.pkgId && !((s.peer t.pkg).up && (s.peer t.pkg).inc == t.inc)

def Trans.covers (t : Trans) (ctx va : Nat) : Bool :=
  t.ctx == ctx && t.page == va / 2 ^ pageShift t.size * 2 ^ pageShift t.size

/-- The physical address that a translation gives. -/
def Trans.pa (t : Trans) (va : Nat) : Nat := t.frame + va % 2 ^ pageShift t.size

/-- The translation of an address of 57 bits that the caches of core `c` and of its cluster hold (R236, R237, R334). -/
def cachedFor (s : State) (c ctx va : Nat) : Option Trans :=
  ((s.cluster (clusterOf c)).tlb ++ (s.core c).gtlb ++ (s.core c).as.curPage.map Prod.snd ++
    (s.core c).as.nextPage.map Prod.snd).find? (fun t => t.covers ctx va)

/-- A cached translation serves an access: always where it is stale, so that the access raises 0x48 (R462); else whether it does or
has been replaced, so that the access walks, is free (R260, R334; log 33). -/
def servesCached (s : State) (t : Trans) (k : Nat) : Bool := t.stale s || Config.freeBool s.steps k

/-- A translation for core `c` of a virtual address: a cached one that no TLBINV has dropped, or the walk's (R236, R334). -/
def translate (s : State) (c ctx va k : Nat) : Except Nat Trans :=
  let v := va % 2 ^ 57
  match cachedFor s c ctx v with
  | some t =>
    if t.stale s then .error 0x48
    else if (walk s ctx v).toOption = some t then .ok t
    else if servesCached s t k then .ok t
    else walk s ctx v
  | none => walk s ctx v

/-- A cluster's cache of 4,096 entries with a translation that was walked (R334). -/
def cacheWith (t : Trans) (l : List Trans) : List Trans :=
  (t :: l.filter (fun u => !(u.ctx == t.ctx && u.page == t.page && u.size == t.size))).take 4096

/-- Installs a translation in a cluster's cache. -/
def installTrans (s : State) (g : Nat) (t : Trans) : State :=
  let k := s.cluster g
  s.setCluster g { k with tlb := cacheWith t k.tlb }

/-- What a walk for core `c` leaves: the lines that it read are counted, and its translation stands in the cluster's cache with the
peer's incarnation (R334, R383, R461). -/
def walked (s : State) (c ctx va : Nat) : State :=
  let s1 := countReads (walkLines s ctx va) s
  match walk s ctx va with
  | .ok t => installTrans s1 (clusterOf c) t
  | .error _ => s1

/-- Drops the stale translations of an address that a core may use (R462). -/
def dropStale (s : State) (c ctx va : Nat) : State :=
  let gone (t : Trans) : Bool := t.stale s && t.covers ctx va
  let keep (l : List Trans) := l.filter (fun t => !gone t)
  let keepT (l : Tbl Trans) := l.filter (fun p => !gone p.2)
  let g := clusterOf c
  let s1 := s.setCluster g { s.cluster g with tlb := keep (s.cluster g).tlb }
  let k := s1.core c
  s1.setCore c { k with
    gtlb := keep k.gtlb,
    as := { k.as with curPage := keepT k.as.curPage, nextPage := keepT k.as.nextPage } }

/-- What a translation for core `c` leaves: that of a walk, unless a cached one serves; a stale one is dropped at its fault (R462). -/
def translated (s : State) (c ctx va k : Nat) : State :=
  let v := va % 2 ^ 57
  match cachedFor s c ctx v with
  | some t =>
    if t.stale s then dropStale s c ctx v
    else
    let serves := servesCached s t k
    let s1 := countReadsBy (if serves then 0 else 1) (walkLines s ctx v) s
    let g := s1.cluster (clusterOf c)
    (match walk s ctx v with
     | .ok u => if g.tlb.head? = some u then s1 else s1.setCluster (clusterOf c) { g with tlb := if serves then g.tlb else cacheWith u g.tlb }
     | .error _ => s1)
  | none => walked s c ctx v

/-- Whether a translation permits an access: 0x11 for a write to a page that is not writable or replicated, and for a
fetch from one that is not executable (R333). -/
inductive Use where
  | read | write | fetch
  deriving DecidableEq, Repr

def Attr.refuses (a : Attr) : Use → Bool
  | .read => false
  | .write => !a.writable || a.rep
  | .fetch => !a.executable

/-- Bits [63:57] equal to bit 56 (R234). -/
def canonical (va : Nat) : Bool :=
  let v := va % 2 ^ 64
  v / 2 ^ 56 == 0 || v / 2 ^ 56 == 255

/-- The walks that the device itself makes for pieces of virtual addresses count the lines that they read, up to a piece that is refused
(R383, R388). -/
def countWalks (ctx : Nat) (use : Option Use) : List (Nat × Nat) → State → State
  | [], s => s
  | (va, _) :: t, s =>
    if !canonical va then s
    else
      let s1 := countReads (walkLines s ctx (va % 2 ^ 57)) s
      match walk s ctx (va % 2 ^ 57) with
      | .error _ => s1
      | .ok tr => if use.any tr.attr.refuses then s1 else countWalks ctx use t s1

end Sys2Proof.Machine
end

