-- ==== Sys2Proof/Machine/Digest.lean ====
section
/-! DEFINITION. SM3 and HMAC-SM3 (R30, R428 to R430, R437), as the published standard has them (PRESUMED, log 83). -/

namespace Sys2Proof.Machine

/-- The words of SM3 have 32 bits, the most significant byte first. -/
abbrev W32 := BitVec 32

def wordsBE : Nat → List Byte → List W32
  | 0, _ => []
  | n + 1, l => BitVec.ofNat 32 (natOf (l.take 4).reverse) :: wordsBE n (l.drop 4)

def bytesBE (l : List W32) : List Byte := l.flatMap (fun w => (bytesOf 4 w.toNat).reverse)

/-- The padding: a bit 1, zeros, and the length in bits in 8 bytes. -/
def sm3Pad (l : List Byte) : List Byte :=
  l ++ [0x80] ++ List.replicate ((119 - l.length % 64) % 64) 0 ++ (bytesOf 8 (8 * l.length)).reverse

def sm3P0 (x : W32) : W32 := x ^^^ x.rotateLeft 9 ^^^ x.rotateLeft 17
def sm3P1 (x : W32) : W32 := x ^^^ x.rotateLeft 15 ^^^ x.rotateLeft 23

/-- The next words of the message expansion; the latest one stands first. -/
def sm3Expand : Nat → List W32 → List W32
  | 0, l => l
  | n + 1, l =>
    let at_ (i : Nat) : W32 := l.getD (i - 1) 0
    sm3Expand n ((sm3P1 (at_ 16 ^^^ at_ 9 ^^^ (at_ 3).rotateLeft 15) ^^^ (at_ 13).rotateLeft 7 ^^^ at_ 6) :: l)

/-- The eight registers of the compression. -/
structure Sm3 where
  a : W32
  b : W32
  c : W32
  d : W32
  e : W32
  f : W32
  g : W32
  h : W32
  deriving DecidableEq, Repr

def sm3Init : Sm3 :=
  ⟨0x7380166f, 0x4914b2b9, 0x172442d7, 0xda8a0600, 0xa96f30bc, 0x163138aa, 0xe38dee4d, 0xb0fb0e4e⟩

/-- Round `j` on the words W and W′ of that round. -/
def sm3Round (j : Nat) (w w1 : W32) (r : Sm3) : Sm3 :=
  let t : W32 := if j < 16 then 0x79cc4519 else 0x7a879d8a
  let ss1 := (r.a.rotateLeft 12 + r.e + t.rotateLeft (j % 32)).rotateLeft 7
  let ff := if j < 16 then r.a ^^^ r.b ^^^ r.c else (r.a &&& r.b) ||| (r.a &&& r.c) ||| (r.b &&& r.c)
  let gg := if j < 16 then r.e ^^^ r.f ^^^ r.g else (r.e &&& r.f) ||| (~~~r.e &&& r.g)
  ⟨ff + r.d + (ss1 ^^^ r.a.rotateLeft 12) + w1, r.a, r.b.rotateLeft 9, r.c, sm3P0 (gg + r.h + ss1 + w), r.e,
    r.f.rotateLeft 19, r.g⟩

/-- The rounds on the expanded words, the first one first. -/
def sm3Rounds : Nat → Nat → List W32 → Sm3 → Sm3
  | 0, _, _, r => r
  | n + 1, j, ws, r => sm3Rounds n (j + 1) (ws.drop 1) (sm3Round j (ws.headD 0) (ws.headD 0 ^^^ ws.getD 4 0) r)

def sm3Block (v : Sm3) (block : List Byte) : Sm3 :=
  let r := sm3Rounds 64 0 (sm3Expand 52 (wordsBE 16 block).reverse).reverse v
  ⟨r.a ^^^ v.a, r.b ^^^ v.b, r.c ^^^ v.c, r.d ^^^ v.d, r.e ^^^ v.e, r.f ^^^ v.f, r.g ^^^ v.g, r.h ^^^ v.h⟩

def sm3Blocks : Nat → List Byte → Sm3 → Sm3
  | 0, _, v => v
  | n + 1, l, v => sm3Blocks n (l.drop 64) (sm3Block v (l.take 64))

/-- The SM3 digest of bytes, 32 bytes. -/
def sm3 (l : List Byte) : List Byte :=
  let p := sm3Pad l
  let v := sm3Blocks (p.length / 64) p sm3Init
  bytesBE [v.a, v.b, v.c, v.d, v.e, v.f, v.g, v.h]

/-- A list at a fixed length: cut, or filled with zeros. -/
def fit (n : Nat) (l : List Byte) : List Byte := (l ++ List.replicate n 0).take n

/-- HMAC-SM3 under a key of at most 64 bytes. -/
def hmacSm3 (key l : List Byte) : List Byte :=
  let k := fit 64 key
  sm3 (k.map (fun b => b ^^^ 0x5c) ++ sm3 (k.map (fun b => b ^^^ 0x36) ++ l))

end Sys2Proof.Machine
end

