-- ==== Sys2Proof/Machine/VecOps.lean ====
section
/-! DEFINITION. Whole-vector operations of the execute engine as functions of values alone (chapters 06 and 07): element
access, guard merging, and the body of each vector form. Nothing here reads the state. -/

namespace Sys2Proof

/-! ## Elements (R65, R152) -/

/-- Element `i` of width `w` bytes. -/
def vget (w : Nat) (v : Vec) (i : Nat) : Nat := v.toNat / 2 ^ (8 * w * i) % 2 ^ (8 * w)

/-- The number whose base-2^(8w) digits are the list, lowest first. -/
def natOfEls (w : Nat) : List Nat → Nat
  | [] => 0
  | e :: t => e % 2 ^ (8 * w) + 2 ^ (8 * w) * natOfEls w t

/-- The vector of a list of elements, lowest first; elements past the list are 0. -/
def vecOfEls (w : Nat) (l : List Nat) : Vec := BitVec.ofNat 4096 (natOfEls w l)

/-- The elements of a vector. -/
def els (w : Nat) (v : Vec) : List Nat := (List.range (512 / w)).map (vget w v)

/-- A scalar's low bits in every element (R153). -/
def broadcast (w : Nat) (s : Word) : Vec := vecOfEls w (List.replicate (512 / w) s.toNat)

/-- The element index source in a type (R46): modulo 2^W in integers, exact in f32, bf16 and f16. -/
def laneVec (t : Ty) : Vec :=
  vecOfEls t.width ((List.range (512 / t.width)).map (fun i =>
    if t.isInt then i else ((Fmt.ofTy t).round rmRne false (Num.ofInt i)).1))

/-- The bytes of a predicate's bits, each 0x00 or 0xFF. -/
def byteMask : Nat → Nat → Nat
  | 0, _ => 0
  | n + 1, p => (if p % 2 = 1 then 255 else 0) + 256 * byteMask n (p / 2)

def expandMask (p : Pred) : Vec := BitVec.ofNat 4096 (byteMask 512 p.toNat)

/-- Guard merging of the frame (R33): guarded bytes from the result, the others kept or zeroed. -/
def mergeVec (old res : Vec) (g : Pred) (zeroing : Bool) : Vec :=
  let m := expandMask g
  (res &&& m) ||| (if zeroing then 0 else old &&& ~~~m)

/-- Guard merging of a predicate destination, bit by bit (R173). -/
def mergePred (old res : Pred) (g : Pred) (zeroing : Bool) : Pred :=
  (res &&& g) ||| (if zeroing then 0 else old &&& ~~~g)

/-- A predicate whose `w` bits of each element repeat the element's result (R109). -/
def predOfBools (w : Nat) (l : List Bool) : Pred :=
  BitVec.ofNat 512 (l.foldr (fun b acc => (if b then 2 ^ w - 1 else 0) + 2 ^ w * acc) 0)

/-- Bit `j` of a predicate. -/
def pbit (p : Pred) (j : Nat) : Bool := p.getLsbD j

/-- The bytes lo .. lo+n-1 as a mask. -/
def byteRange (lo n : Nat) : Pred := BitVec.ofNat 512 ((2 ^ n - 1) * 2 ^ lo)

/-- A vector form's result: the vector, the bytes it writes (all but for the forms that write one part, R184), and
the flags its elements met. -/
structure XRes where
  vec : Vec
  part : Pred
  flags : Word
  deriving DecidableEq, Repr

def XRes.of (v : Vec) : XRes := ⟨v, BitVec.allOnes 512, 0⟩
def XRes.ofF (v : Vec) (f : Word) : XRes := ⟨v, BitVec.allOnes 512, f⟩

/-- What the body of a form computes: the vector with the bytes it writes, or the predicate, and the flags. -/
structure XOut where
  vec : Vec
  part : Pred
  pred : Pred
  flags : Word
  deriving DecidableEq, Repr

def XRes.out (r : XRes) : XOut := ⟨r.vec, r.part, 0, r.flags⟩
def predOut (p : Pred) : XOut := ⟨0, 0, p, 0⟩

/-- Collects elements with flags. -/
def collect (w : Nat) (l : List (Nat × Word)) : XRes :=
  XRes.ofF (vecOfEls w (l.map Prod.fst)) (l.foldl (fun f x => f ||| x.2) 0)

/-- An element-wise operation on two sources. -/
def map2 (w : Nat) (f : Nat → Nat → Nat) (a b : Vec) : Vec := vecOfEls w (List.zipWith f (els w a) (els w b))

/-! ## Integer arithmetic and logic (R169..R171) -/

/-- Clamp or wrap (R169). -/
def narrowInt (t : Ty) (sat : Bool) (i : Int) : Nat := wrapTo (8 * t.width) (if sat then t.clamp i else i)

def vAdd (t : Ty) (sat : Bool) (a b : Vec) : XRes :=
  XRes.of (map2 t.width (fun x y => narrowInt t sat (t.readInt x + t.readInt y)) a b)
def vSub (t : Ty) (sat : Bool) (a b : Vec) : XRes :=
  XRes.of (map2 t.width (fun x y => narrowInt t sat (t.readInt x - t.readInt y)) a b)
def vMul (t : Ty) (sat : Bool) (a b : Vec) : XRes :=
  XRes.of (map2 t.width (fun x y => narrowInt t sat (t.readInt x * t.readInt y)) a b)
def vMulh (t : Ty) (a b : Vec) : XRes :=
  XRes.of (map2 t.width (fun x y => wrapTo (8 * t.width)
    ((t.readInt x * t.readInt y) / (2 ^ (8 * t.width) : Nat))) a b)
def vMad (t : Ty) (sat : Bool) (a b c : Vec) : XRes :=
  let w := t.width
  XRes.of (vecOfEls w ((List.range (512 / w)).map (fun i =>
    narrowInt t sat (t.readInt (vget w a i) * t.readInt (vget w b i) + t.readInt (vget w c i)))))

/-- The logical operators of PLOG and VLOG (R167). -/
def logOp {n : Nat} (op : Nat) (a b : BitVec n) : BitVec n :=
  match op with
  | 0 => a &&& b
  | 1 => a ||| b
  | 2 => a ^^^ b
  | 3 => a &&& ~~~b
  | 4 => a ||| ~~~b
  | 5 => ~~~(a &&& b)
  | 6 => ~~~(a ||| b)
  | _ => ~~~(a ^^^ b)

def vLog (op : Nat) (a b : Vec) : XRes := XRes.of (logOp op a b)

/-- One element's shift (R170): shl, shr, sra, rol. -/
def shiftEl (t : Ty) (op x cnt : Nat) : Nat :=
  let W := 8 * t.width
  match op with
  | 0 => if cnt < W then x * 2 ^ cnt % 2 ^ W else 0
  | 1 => if cnt < W then x / 2 ^ cnt else 0
  | 2 =>
    let s := signedField x W
    if cnt < W then wrapTo W (s / (2 ^ cnt : Nat)) else (if 0 ≤ s then 0 else 2 ^ W - 1)
  | _ => (x * 2 ^ (cnt % W) % 2 ^ W) + x / 2 ^ (W - cnt % W)

def vShift (t : Ty) (op : Nat) (a b : Vec) : XRes := XRes.of (map2 t.width (shiftEl t op) a b)

/-- The element in canonical form: a float NaN becomes the canonical NaN (R68). -/
def canon (t : Ty) (x : Nat) : Nat :=
  if t.isInt || t == .b8 then x else if ((Fmt.ofTy t).decode x).isNan then (Fmt.ofTy t).nanCode else x

/-- Max and Min of two elements by R86, the first kept among equals. -/
def maxEl (t : Ty) (x y : Nat) : Nat := canon t (if maxTakes (elemNum t x) (elemNum t y) then y else x)
def minEl (t : Ty) (x y : Nat) : Nat := canon t (if minTakes (elemNum t x) (elemNum t y) then y else x)

def vMin (t : Ty) (a b : Vec) : XRes := XRes.of (map2 t.width (minEl t) a b)
def vMax (t : Ty) (a b : Vec) : XRes := XRes.of (map2 t.width (maxEl t) a b)

/-- One element of VABS (R171). -/
def absEl (t : Ty) (sat : Bool) (x : Nat) : Nat :=
  if t.isInt then narrowInt t sat (t.readInt x).natAbs
  else if ((Fmt.ofTy t).decode x).isNan then (Fmt.ofTy t).nanCode
  else x % 2 ^ (8 * t.width - 1)

def vAbs (t : Ty) (sat : Bool) (a : Vec) : XRes := XRes.of (vecOfEls t.width ((els t.width a).map (absEl t sat)))

/-! ## Float arithmetic (R172) -/

/-- Rounds an exact element result at its position (R80, R81). -/
def roundEl (t : Ty) (rnd : Rnd) (dph i : Nat) (x : NumF) : Nat × Word :=
  let (b, fl) := (Fmt.ofTy t).round (RMode.at rnd dph i) false x.val
  (b, x.flags ||| fl)

/-- An element-wise float operation of two sources. -/
def vFloat2 (t : Ty) (rnd : Rnd) (dph : Nat) (op : Num → Num → NumF) (a b : Vec) : XRes :=
  let f := Fmt.ofTy t
  let w := t.width
  collect w ((List.range (512 / w)).map (fun i =>
    roundEl t rnd dph i (op (f.decode (vget w a i)) (f.decode (vget w b i)))))

def isRdn (r : Rnd) : Bool := r == .rdn

def vFadd (t : Ty) (rnd : Rnd) (dph : Nat) (a b : Vec) : XRes := vFloat2 t rnd dph (Num.add (isRdn rnd)) a b
def vFsub (t : Ty) (rnd : Rnd) (dph : Nat) (a b : Vec) : XRes :=
  vFloat2 t rnd dph (fun x y => Num.add (isRdn rnd) x y.neg) a b
def vFmul (t : Ty) (rnd : Rnd) (dph : Nat) (a b : Vec) : XRes := vFloat2 t rnd dph Num.mul a b
def vFdiv (t : Ty) (rnd : Rnd) (dph : Nat) (a b : Vec) : XRes := vFloat2 t rnd dph Num.div a b

/-- VFMA's three forms (R172): x·y+z, x·y−z, −(x·y)+z; 0·∞ is invalid even with a NaN addend. -/
def fmaOp (op : Nat) (rdn : Bool) (x y z : Num) : NumF :=
  let r :=
    match op with
    | 0 => Num.fma rdn x y z
    | 1 => Num.fma rdn x y z.neg
    | _ => Num.fma rdn x.neg y z
  if Num.invalidProduct x y then ⟨.nan, fNv⟩ else r

def vFma (t : Ty) (rnd : Rnd) (dph op : Nat) (a b c : Vec) : XRes :=
  let f := Fmt.ofTy t
  let w := t.width
  collect w ((List.range (512 / w)).map (fun i =>
    roundEl t rnd dph i
      (fmaOp op (isRdn rnd) (f.decode (vget w a i)) (f.decode (vget w b i)) (f.decode (vget w c i)))))

def vFsqrt (t : Ty) (rnd : Rnd) (dph : Nat) (a : Vec) : XRes :=
  let f := Fmt.ofTy t
  let w := t.width
  collect w ((List.range (512 / w)).map (fun i => roundEl t rnd dph i (Num.sqrt (f.decode (vget w a i)))))

/-! ## Compare, select, index (R173..R178) -/

/-- VCMP's predicate: b8 compares as an unsigned byte (R173). -/
def vCmp (t : Ty) (cond : Nat) (a b : Vec) : Pred :=
  let rd := fun x => if t == .b8 then Num.ofInt (x : Nat) else elemNum t x
  predOfBools t.width (List.zipWith (fun x y => condHolds cond (rd x) (rd y)) (els t.width a) (els t.width b))

/-- VSEL (R174). -/
def vSel (g : Pred) (a b : Vec) : XRes := XRes.of (mergeVec b a g false)

/-- The exclusive prefix counts of a guard's elements. -/
def prefixCounts (w : Nat) (g : Pred) : Nat → Nat → Nat → List Nat
  | 0, _, _ => []
  | n + 1, i, c => c :: prefixCounts w g n (i + 1) (c + (if pbit g (i * w) then 1 else 0))

/-- VIOTA (R176). -/
def vIota (t : Ty) (g : Pred) (a : Vec) : XRes :=
  let w := t.width
  XRes.of (vecOfEls w (List.zipWith (· + ·) (els w a) (prefixCounts w g (512 / w) 0 0)))

/-- VPERM (R177). -/
def vPerm (t : Ty) (op : Nat) (a b c : Vec) : XRes :=
  let w := t.width
  let n := 512 / w
  XRes.of (vecOfEls w ((els w b).map (fun idx =>
    match op with
    | 0 => vget w a (idx % n)
    | 1 => let k := idx % (2 * n); if k < n then vget w a k else vget w c (k - n)
    | _ => if idx < n then vget w a idx else 0)))

/-- VSLIDE (R178); the count is a whole scalar. -/
def vSlide (t : Ty) (up : Bool) (a : Vec) (cnt : Word) (c : Vec) : XRes :=
  let w := t.width
  let n := 512 / w
  let k := min cnt.toNat n
  XRes.of (vecOfEls w ((List.range n).map (fun i =>
    if up then (if k ≤ i then vget w a (i - k) else vget w c (i + n - k))
    else (if i + k < n then vget w a (i + k) else vget w c (i + k - n)))))

/-! ## Trees and scans (R92..R95, R182) -/

/-- One level of the pairwise tree: the lower index is the left operand. -/
def pairLevel {α : Type} (op : α → α → α) : List α → List α
  | a :: b :: t => op a b :: pairLevel op t
  | l => l

/-- `k` levels of the pairwise tree (R92). -/
def treeReduce {α : Type} (op : α → α → α) : Nat → List α → List α
  | 0, l => l
  | k + 1, l => treeReduce op k (pairLevel op l)

/-- Level `j` of the Sklansky tree over indexed elements (R94): all reads precede the writes. -/
def sklanskyLevel {α : Type} (op : α → α → α) (dflt : α) (j : Nat) (l : List α) : List α :=
  (List.range l.length).map (fun i =>
    let x := l.getD i dflt
    if i / 2 ^ j % 2 = 1 then op (l.getD (i / 2 ^ (j + 1) * 2 ^ (j + 1) + 2 ^ j - 1) dflt) x else x)

/-- Levels j, j+1, .. of the Sklansky tree. -/
def sklansky {α : Type} (op : α → α → α) (dflt : α) : Nat → Nat → List α → List α
  | 0, _, l => l
  | k + 1, j, l => sklansky op dflt k (j + 1) (sklanskyLevel op dflt j l)

/-- log2 of the number of elements (R182). -/
def levels (w : Nat) : Nat := Nat.log2 (512 / w)

/-- A node that rounds RNE to f32, with its flags. -/
def addRne (x y : NumF) : NumF :=
  let s := roundNum fmtF32 rmRne (Num.add false x.val y.val)
  ⟨s.val, x.flags ||| y.flags ||| s.flags⟩

def mulRne (x y : NumF) : NumF :=
  let s := roundNum fmtF32 rmRne (Num.mul x.val y.val)
  ⟨s.val, x.flags ||| y.flags ||| s.flags⟩

/-- A value with no flag of its own. -/
def NumF.pure (x : Num) : NumF := ⟨x, 0⟩

/-- Whether a maximum or minimum replaces its left operand: op 1, 3 maximum; 2, 4 minimum. -/
def pickTakes (isMax : Bool) (x y : Num) : Bool := if isMax then maxTakes x y else minTakes x y

/-- The lowest index of the maximum or minimum (R86). -/
def argPick (isMax : Bool) (t : Ty) : List Nat → Nat → Nat → Num → Nat
  | [], _, best, _ => best
  | x :: r, i, best, cur =>
    if pickTakes isMax cur (elemNum t x) then argPick isMax t r (i + 1) i (elemNum t x)
    else argPick isMax t r (i + 1) best cur

/-- VRED (R186): op 0 `.add`, 1 `.max`, 2 `.min`, 3 `.amax`, 4 `.amin`. -/
def vRed (t : Ty) (op : Nat) (np : Np) (rnd : Rnd) (dph : Nat) (a : Vec) : XRes :=
  let w := t.width
  let n := 512 / w
  let xs := els w a
  let fill := fun (v : Nat) (fl : Word) => XRes.ofF (vecOfEls w (List.replicate n v)) fl
  match op with
  | 0 =>
    if t.isInt then fill (wrapTo (8 * w) ((xs.map t.readInt).foldl (· + ·) 0)) 0
    else if np == .np3 then
      let ts := xs.map (Fmt.ofTy t).decode
      let an := anchorOf ts
      let (c, fl) := ancSum an AncCell.zero ts
      let (b, fl2) := (Fmt.ofTy t).round (RMode.at rnd dph 0) false (c.value an)
      fill b (fl ||| fl2)
    else
      match treeReduce addRne (levels w) (xs.map (fun x => NumF.pure (fmtF32.decode x))) with
      | r :: _ =>
        let (b, _) := fmtF32.round rmRne false r.val
        fill b r.flags
      | [] => fill 0 0
  | 1 => fill (xs.foldl (maxEl t) (xs.getD 0 0)) 0
  | 2 => fill (xs.foldl (minEl t) (xs.getD 0 0)) 0
  | k => fill (argPick (k == 3) t xs 0 0 (elemNum t (xs.getD 0 0))) 0

/-- The pairs of the affine scan (R95): coefficient and offset. -/
structure AffPair where
  a : NumF
  b : NumF
  deriving DecidableEq, Repr

/-- Composition under np1 and np2: each product and sum rounds. -/
def AffPair.comp (p q : AffPair) : AffPair := ⟨mulRne q.a p.a, addRne (mulRne q.a p.b) q.b⟩

/-- The pairs under np3: the offset is an ANC96 window. -/
structure AffAnc where
  a : NumF
  b : AncCell
  flags : Word
  deriving DecidableEq, Repr

/-- Composition under np3: the product a2·b1 is entered into the later window (R76). -/
def AffAnc.comp (anchor : Int) (p q : AffAnc) : AffAnc :=
  let pr := Num.mul q.a.val (p.b.value anchor)
  let (c, fl) := q.b.add anchor pr.val
  ⟨mulRne q.a p.a, c, p.flags ||| q.flags ||| pr.flags ||| fl⟩

/-- The carry-in of a scan: code 32 is none (R187). -/
abbrev Carry := Option Word

/-- Running windows of the np3 sum. -/
def prefixAnc (anchor : Int) : List Num → AncCell → Word → List (AncCell × Word)
  | [], _, _ => []
  | x :: t, c, f => let (c', fl) := c.add anchor x; (c', f ||| fl) :: prefixAnc anchor t c' (f ||| fl)

/-- Rounds each window at its element index. -/
def roundCells (rnd : Rnd) (dph : Nat) (anchor : Int) : Nat → List (AncCell × Word) → List (Nat × Word)
  | _, [] => []
  | i, (c, f) :: t =>
    let (b, fl) := fmtF32.round (RMode.at rnd dph i) false (c.value anchor)
    (b, f ||| fl) :: roundCells rnd dph anchor (i + 1) t

/-- The encoding of a rounded f32 node with its flags. -/
def f32Out (x : NumF) : Nat × Word := ((fmtF32.round rmRne false x.val).1, x.flags)

/-- VSCAN (R187, R188): op 0 `.add`, 1 `.max`, 2 `.min`, 3 `.aff`, 4 `.affa`. The b chain of `.affa` changes no result, and sets no flag
(DEDUCED, log 27). -/
def vScan (t : Ty) (op : Nat) (np : Np) (rnd : Rnd) (dph : Nat) (a b : Vec) (carry : Carry) : XRes :=
  let w := t.width
  let xs := els w a
  let cv := carry.map (fun c => c.toNat % 2 ^ (8 * w))
  match op with
  | 0 =>
    if t.isInt then
      let ys := sklansky (fun x y => (x + y) % 2 ^ (8 * w)) 0 (levels w) 0 xs
      XRes.of (vecOfEls w (match cv with | none => ys | some c => ys.map (fun y => (c + y) % 2 ^ (8 * w))))
    else if np == .np3 then
      let ts := xs.map fmtF32.decode
      let ct := (cv.map (fun c => [fmtF32.decode c])).getD []
      let an := anchorOf (ct ++ ts)
      let (c0, f0) := ancSum an AncCell.zero ct
      collect w (roundCells rnd dph an 0 (prefixAnc an ts c0 f0))
    else
      let ys := sklansky addRne (NumF.pure (.fin false 0 0)) (levels w) 0 (xs.map (fun x => NumF.pure (fmtF32.decode x)))
      let zs := match cv with
        | none => ys
        | some c => ys.map (addRne (NumF.pure (fmtF32.decode c)))
      collect w (zs.map f32Out)
  | 1 =>
    let ys := sklansky (maxEl t) 0 (levels w) 0 (xs.map (canon t))
    XRes.of (vecOfEls w (match cv with | none => ys | some c => ys.map (maxEl t c)))
  | 2 =>
    let ys := sklansky (minEl t) 0 (levels w) 0 (xs.map (canon t))
    XRes.of (vecOfEls w (match cv with | none => ys | some c => ys.map (minEl t c)))
  | k =>
    let bs := els w b
    let f := fmtF32
    if np == .np3 then
      let ct := (cv.map (fun c => [f.decode c])).getD []
      let an := anchorOf (ct ++ bs.map f.decode)
      let mk := fun (x y : Nat) =>
        let (c, fl) := AncCell.zero.add an (f.decode y)
        (⟨NumF.pure (f.decode x), c, fl⟩ : AffAnc)
      let ps := sklansky (AffAnc.comp an) ⟨NumF.pure .nan, AncCell.zero, 0⟩ (levels w) 0 (List.zipWith mk xs bs)
      if k = 4 then collect w (ps.map (fun p => f32Out p.a))
      else
        let cells := ps.map (fun p =>
          match cv with
          | none => (p.b, p.flags ||| p.a.flags)
          | some c =>
            let pr := Num.mul p.a.val (f.decode c)
            let (x, fl) := p.b.add an pr.val
            (x, p.flags ||| p.a.flags ||| pr.flags ||| fl))
        collect w (roundCells rnd dph an 0 cells)
    else
      let mk := fun (x y : Nat) => (⟨NumF.pure (f.decode x), NumF.pure (f.decode y)⟩ : AffPair)
      let ps := sklansky AffPair.comp ⟨NumF.pure .nan, NumF.pure .nan⟩ (levels w) 0 (List.zipWith mk xs bs)
      if k = 4 then collect w (ps.map (fun p => f32Out p.a))
      else
        collect w (ps.map (fun p =>
          match cv with
          | none => f32Out ⟨p.b.val, p.a.flags ||| p.b.flags⟩
          | some c => f32Out (addRne (mulRne p.a (NumF.pure (f.decode c))) p.b)))

/-- One composition of CSCAN on one element (R190): the running value h with a contribution (a, b). -/
def cscanOp (t : Ty) (op : Nat) (h a b : Nat) : Nat × Word :=
  match op with
  | 0 =>
    if t.isInt then ((h + a) % 2 ^ (8 * t.width), 0)
    else f32Out (addRne (NumF.pure (fmtF32.decode h)) (NumF.pure (fmtF32.decode a)))
  | 1 => (maxEl t h a, 0)
  | 2 => (minEl t h a, 0)
  | _ =>
    f32Out (addRne (mulRne (NumF.pure (fmtF32.decode a)) (NumF.pure (fmtF32.decode h))) (NumF.pure (fmtF32.decode b)))

/-- The identity that code 32 gives participant 0 (R190). -/
def cscanIdentity (t : Ty) (op : Nat) : Nat :=
  match op with
  | 0 => if t.isInt then 0 else 0x80000000
  | 1 => if t.isInt then wrapTo (8 * t.width) t.intMin else 0xFF800000
  | 2 => if t.isInt then wrapTo (8 * t.width) t.intMax else 0x7F800000
  | _ => 0

/-- One composition of CSCAN on whole vectors. -/
def cscanStep (t : Ty) (op : Nat) (h a b : Vec) : Vec × Word :=
  let w := t.width
  let r := (List.range (512 / w)).map (fun i => cscanOp t op (vget w h i) (vget w a i) (vget w b i))
  (vecOfEls w (r.map Prod.fst), r.foldl (fun f x => f ||| x.2) 0)

/-! ## Carry-less multiplication (R194) -/

/-- XOR of the shifted copies of `a` that the set bits of `b` select. -/
def clmulLoop : Nat → Nat → Nat → Nat
  | 0, _, _ => 0
  | k + 1, a, b => (if b % 2 = 1 then a else 0) ^^^ clmulLoop k (2 * a) (b / 2)

/-- The parity of a word. -/
def parity : Nat → Nat → Bool
  | 0, _ => false
  | k + 1, v => (v % 2 == 1) != parity k (v / 2)

/-- The `.px` elements with the running parity. -/
def prefixXor : List Nat → Bool → List Nat
  | [], _ => []
  | x :: t, par =>
    let y := clmulLoop 64 x (2 ^ 64 - 1) % 2 ^ 64
    (if par then 2 ^ 64 - 1 - y else y) :: prefixXor t (par != parity 64 x)

/-- VCLMUL: op 0 `.lo`, 1 `.hi`, 2 `.px` with the carry-in parity in bit 0 of element 0 of `b`. -/
def vClmul (op : Nat) (a b : Vec) : XRes :=
  XRes.of (match op with
    | 0 => map2 8 (fun x y => clmulLoop 64 x y % 2 ^ 64) a b
    | 1 => map2 8 (fun x y => clmulLoop 64 x y / 2 ^ 64) a b
    | _ => vecOfEls 8 (prefixXor (els 8 a) (b.toNat % 2 == 1)))

/-! ## Conversion and packing (R195..R200) -/

/-- The number of parts of VCVT (R196). -/
def vcvtParts (ws wd : Nat) : Nat := if wd < ws then ws / wd else if ws < wd then wd / ws else 1

/-- VCVT into part `p` (R196, R197). -/
def vCvt (dst src : Ty) (rnd : Rnd) (sat : Bool) (dph p : Nat) (a : Vec) : XRes :=
  let ws := src.width
  let wd := dst.width
  let ns := 512 / ws
  let nd := 512 / wd
  let conv := fun (di v : Nat) => convElem dst src (RMode.at rnd dph di) sat v
  if ws ≤ wd then
    collect wd ((List.range nd).map (fun i => conv i (vget ws a ((if ws < wd then p * nd else 0) + i))))
  else
    let r := (List.range ns).map (fun i => conv (p * ns + i) (vget ws a i))
    ⟨BitVec.ofNat 4096 (natOfEls wd (r.map Prod.fst) * 2 ^ (8 * wd * (p * ns))), byteRange (wd * (p * ns)) (wd * ns),
      r.foldl (fun f x => f ||| x.2) 0⟩

/-- Consecutive groups of `k` elements. -/
def chunks {α : Type} (k : Nat) : Nat → List α → List (List α)
  | 0, _ => []
  | n + 1, l => l.take k :: chunks k n (l.drop k)

/-- The bytes a part of packed blocks takes, and the parts of a vector (R198). -/
def partBytes (t : Ty) : Nat := 512 / t.width / 32 * 17
def packParts (t : Ty) : Nat := if t == .f32 then 7 else 3

/-- VQPACK into part `p` (R199). -/
def vQpack (t : Ty) (kind : Nat) (rnd : Rnd) (dph p : Nat) (a : Vec) : XRes :=
  let n := 512 / t.width
  let blocks := (chunks 32 (n / 32) ((els t.width a).map (Fmt.ofTy t).decode)).map
    (fun b => encodeK4 b kind (RMode.at rnd dph))
  let bytes := (blocks.map (fun b => k4Bytes b.1 b.2.1)).flatten
  ⟨BitVec.ofNat 4096 (natOfEls 1 bytes * 2 ^ (8 * (p * partBytes t))), byteRange (p * partBytes t) (partBytes t),
    blocks.foldl (fun f b => f ||| b.2.2) 0⟩

/-- Element `i` of the blocks that start at byte `lo` of a byte-addressed number. -/
def k4At (v lo i : Nat) : Num :=
  let base := lo + i / 32 * 17
  let code := v / 2 ^ (8 * base + 4 * (i % 32)) % 16
  k4Elem (v / 2 ^ (8 * (base + 16)) % 256) code

/-- VQUNPK from part `p` (R200). -/
def vQunpk (t : Ty) (rnd : Rnd) (dph p : Nat) (a : Vec) : XRes :=
  let n := 512 / t.width
  collect t.width ((List.range n).map (fun i =>
    (Fmt.ofTy t).round (RMode.at rnd dph i) false (k4At a.toNat (p * partBytes t) i)))

/-! ## Pruning, ranking, counting (R201..R204) -/

/-- Whether magnitude `y` outranks `x`; NaN outranks every number (R201). -/
def magBeats (t : Ty) (y x : Nat) : Bool :=
  let a := elemNum t x
  let b := elemNum t y
  if a.isNan then false else if b.isNan then true else a.abs.cmp b.abs == .lt

/-- The number of elements of a group that rank before element `i`: larger, or equal with a lower index. -/
def rankIn (t : Ty) (g : List Nat) (i : Nat) : Nat :=
  let x := g.getD i 0
  (List.range g.length).countP (fun j =>
    let y := g.getD j 0
    magBeats t y x || (j < i && !magBeats t x y))

/-- The kept positions of a group of 8. -/
def keptOf (t : Ty) (g : List Nat) : List Bool := (List.range 8).map (fun i => rankIn t g i < 4)

/-- The mask byte of a group. -/
def maskByte (l : List Bool) : Nat := l.foldr (fun b acc => (if b then 1 else 0) + 2 * acc) 0

/-- VSPARS: op 0 `.val`, 1 `.msk`, 2 `.zero` (R201). `.msk` writes one part of a vector (R184). -/
def vSpars (t : Ty) (op : Nat) (a : Vec) : XRes :=
  let w := t.width
  let n := 512 / w
  let gs := chunks 8 (n / 8) (els w a)
  match op with
  | 0 => XRes.of (vecOfEls w ((gs.map (fun g => (List.zip g (keptOf t g)).filterMap
      (fun p => if p.2 then some p.1 else none))).flatten))
  | 1 => ⟨vecOfEls 1 (gs.map (fun g => maskByte (keptOf t g))), byteRange 0 (n / 8), 0⟩
  | _ => XRes.of (vecOfEls w ((gs.map (fun g => List.zipWith (fun x k => if k then x else 0) g (keptOf t g))).flatten))

/-- Whether element `y` ranks before element `x` in VTOPK's order, indexes aside (R203). -/
def topBeats (x y : Num) : Bool := if y.isNan then false else if x.isNan then true else x.below y

/-- Inserts an indexed value into a ranked list, after its equals. -/
def topInsert (v : Nat × Num) : List (Nat × Num) → List (Nat × Num)
  | [] => [v]
  | h :: t => if topBeats h.2 v.2 then v :: h :: t else h :: topInsert v t

/-- The elements in VTOPK's order. -/
def topRank (t : Ty) (xs : List Nat) : List (Nat × Num) :=
  ((List.range xs.length).zip (xs.map (elemNum t))).foldl (fun acc v => topInsert v acc) []

/-- VTOPK `.idx` and `.val` (R203). -/
def vTopk (t : Ty) (op : Nat) (cnt : Word) (a : Vec) : XRes :=
  let w := t.width
  let n := 512 / w
  let xs := els w a
  let k := min cnt.toNat n
  let top := (topRank t xs).take k
  let sel := top.map (fun p => if op = 0 then p.1 else canon t (xs.getD p.1 0))
  XRes.of (vecOfEls w (sel ++ List.replicate (n - k) (if op = 0 then n else 0)))

/-- VTOPK `.msk` (R203). -/
def vTopkMask (t : Ty) (cnt : Word) (a : Vec) : Pred :=
  let w := t.width
  let n := 512 / w
  let top := (topRank t (els w a)).take (min cnt.toNat n)
  predOfBools w ((List.range n).map (fun i => top.any (fun p => p.1 == i)))

/-- VHIST (R204): the base is read in the type, the old counts as z32. -/
def vHist (t : Ty) (sat : Bool) (a : Vec) (base : Word) (c : Vec) : XRes :=
  let w := t.width
  let b := t.readInt (base.toNat % 2 ^ (8 * w))
  let ts := (els w a).map (fun x => t.readInt x - b)
  XRes.of (vecOfEls 4 ((List.range 128).map (fun j =>
    let s := vget 4 c j + ts.countP (fun x => x == (j : Int))
    if sat then min s (2 ^ 32 - 1) else s % 2 ^ 32)))

/-! ## Predicates (R167) -/

/-- Width in bytes of a predicate's width code: byte, half, word, dword (R158). -/
def pWidth (code : Nat) : Nat := 2 ^ code

/-- Width in bytes of VEXT's and VINS's size code: word, byte, half, dword (R158). -/
def laneWidth : Nat → Nat
  | 0 => 4
  | 1 => 1
  | 2 => 2
  | _ => 8

/-- The elements of a predicate. -/
def predBools (w : Nat) (p : Pred) : List Bool := (List.range (512 / w)).map (fun i => pbit p (i * w))

def pCount (w : Nat) (p : Pred) : Nat := (predBools w p).countP id

/-- The lowest true element, or the number of elements. -/
def pFirst (w : Nat) (p : Pred) : Nat := (predBools w p).findIdx id

/-- PSET: the first `m` elements (R167). -/
def pSetFirst (w m : Nat) : Pred := byteRange 0 (min m (512 / w) * w)

/-- The 64 bytes a predicate packs to. -/
def pack8 (ps : List Pred) : Vec := vecOfEls 64 (ps.map BitVec.toNat)

end Sys2Proof
end

