-- ==== Sys2Proof/Machine/Regs.lean ====
section
/-! DEFINITION. The registers of a core: streams, scalar files with their full/empty bits (R99 to R103), the rotating
vector file (R110), predicates (R109, R156), token FIFOs (R209 to R211), q and w queues (R104, R179, R214), and the
local cycle count (R336, R113). -/

namespace Sys2Proof.Machine

/-- The stream that acts: a core and one of its engines. -/
structure Who where
  core : Nat
  eng : Eng
  deriving DecidableEq, Repr

/-- The stream of the current turn; core 0's A stream where the turn is none of a stream. -/
def State.who (s : State) : Who :=
  match s.turn with
  | .stream c e => ⟨c, e⟩
  | _ => ⟨0, .a⟩

/-- Engine `e` of the core of the current turn: a form private to an engine acts on it. -/
def State.whoOn (s : State) (e : Eng) : Who := ⟨s.who.core, e⟩

/-! ## Streams -/

def Core.stream (k : Core) : Eng → Stream
  | .a => k.a
  | .x => k.x
  | .m => k.m

def Core.setStream (k : Core) (e : Eng) (t : Stream) : Core :=
  match e with
  | .a => { k with a := t }
  | .x => { k with x := t }
  | .m => { k with m := t }

def State.stream (s : State) (w : Who) : Stream := (s.core w.core).stream w.eng
def State.setStream (s : State) (w : Who) (t : Stream) : State := s.setCore w.core ((s.core w.core).setStream w.eng t)

/-- `status.mode` is 1 (R114). -/
def Stream.super (t : Stream) : Bool := flag t.status 0

/-- `status.gauge` is 1 (R114). -/
def Stream.gauge (t : Stream) : Bool := flag t.status 2

/-- Writes the mode and pmode fields of `status` (R114). -/
def Stream.setMode (t : Stream) (mode pmode : Bool) : Stream :=
  { t with status := setField t.status 1 0 ((if mode then 1 else 0) + (if pmode then 2 else 0)) }

def Stream.addFlags (t : Stream) (f : Word) : Stream := { t with qflags := t.qflags ||| f }

/-- `qflags.aovte` (R66). -/
def Stream.aovte (t : Stream) : Bool := flag t.qflags 16

def Stream.phase (t : Stream) : Nat := field t.dph 4 0

/-- `dph` advances by 1 modulo 32 for an instruction with rnd = rdi (R80). -/
def Stream.stepPhase (t : Stream) (r : Rnd) : Stream :=
  if r = .rdi then { t with dph := BitVec.ofNat 64 ((t.phase + 1) % 32) } else t

/-- The profile that a field value resolves to (R87). -/
def Stream.profile (t : Stream) (np : Np) : Np := if np = .np0 then Np.ofCode (field t.npdef 2 0) else np

/-! ## Scalar registers (R99, R100, R102, R103) -/

/-- Register 0 reads 0; the others read the file. -/
def Stream.reg (t : Stream) (n : Nat) : Word := if n = 0 then 0 else tget t.regs n 0

/-- Whether a register is full; register 0 always is. -/
def Stream.full (t : Stream) (n : Nat) : Bool := n == 0 || !t.empty.contains n

/-- A fresh identifier of the core. -/
def Core.fresh (k : Core) : Nat × Core := (k.nextId, { k with nextId := k.nextId + 1 })

/-- Adds a pending value or access to a stream, in program order. -/
def Core.addPend (k : Core) (e : Eng) (op : PendOp) : Core :=
  let t := k.stream e
  { k.setStream e { t with pend := t.pend ++ [⟨k.nextId, op⟩] } with nextId := k.nextId + 1 }

/-- Writes a register. A write to register 0 is discarded; a write to a register whose producer has not landed takes
effect after the landing, so it joins the pending values (R103). -/
def Core.setReg (k : Core) (e : Eng) (n : Nat) (v : Word) : Core :=
  if n = 0 then k
  else if (k.stream e).full n then
    k.setStream e { k.stream e with regs := tset (k.stream e).regs n v }
  else k.addPend e (.scalar n v 0)

/-- Marks a register empty at the issue of a long-latency producer. -/
def Stream.markEmpty (t : Stream) (n : Nat) : Stream :=
  if n = 0 || t.empty.contains n then t else { t with empty := n :: t.empty }

def Stream.markFull (t : Stream) (n : Nat) : Stream := { t with empty := t.empty.filter (fun m => m != n) }

/-- The link register of CALL (R127). -/
def linkReg : Eng → Nat
  | .a => 31
  | .x => 31
  | .m => 15

/-! ## Vector registers and predicates (R109, R110, R156) -/

/-- The physical register of a logical v name (R110). -/
def physV (spass : Word) (n : Nat) : Nat := if n < 16 then n else 16 + (n - 16 + 16 - spass.toNat % 16) % 16

def Core.phys (k : Core) (n : Nat) : Nat := physV k.xs.spass n
def Core.vec (k : Core) (n : Nat) : Vec := tget k.xs.v (k.phys n) 0
def Core.vecFull (k : Core) (n : Nat) : Bool := !k.xs.vempty.contains (k.phys n)

def Core.setVecPhys (k : Core) (n : Nat) (v : Vec) : Core := { k with xs := { k.xs with v := tset k.xs.v n v } }

/-- p0 reads all ones (R100). -/
def Core.pred (k : Core) (n : Nat) : Pred := if n = 0 then BitVec.allOnes 512 else tget k.xs.p n 0

/-- A write to p0 is discarded. -/
def Core.setPredNow (k : Core) (n : Nat) (p : Pred) : Core :=
  if n = 0 then k else { k with xs := { k.xs with p := tset k.xs.p n p } }

def PendOp.writesPred (n : Nat) : PendOp → Bool
  | .pred p _ _ _ _ => p == n
  | _ => false

def PendOp.writesVec (n : Nat) : PendOp → Bool
  | .vector d _ _ _ _ => d == n
  | _ => false

def PendOp.writesHalf (n : Nat) : PendOp → Bool
  | .half d _ _ _ => d == n
  | _ => false

/-- A predicate that a pending form will write; its readers wait (R156). -/
def Core.predBusy (k : Core) (n : Nat) : Bool := n != 0 && k.x.pend.any (fun p => p.op.writesPred n)

/-- Writes the masked bits of a predicate, after any pending write of it, which then gives (R156, R210). -/
def Core.setPred (k : Core) (n : Nat) (v mask : Pred) (give : Nat := 0) : Core :=
  if k.predBusy n then k.addPend .x (.pred n v mask 0 give)
  else k.setPredNow n (mergePred (k.pred n) v mask false)

/-- Writes the masked bytes of a physical v register, after any pending write of it, which then gives (R103, R210). -/
def Core.setVec (k : Core) (n : Nat) (v : Vec) (mask : Pred) (give : Nat := 0) : Core :=
  if k.xs.vempty.contains n then k.addPend .x (.vector n v mask 0 give)
  else k.setVecPhys n (mergeVec (tget k.xs.v n 0) v mask false)

/-- The stage predicates of R111. -/
def stagePred (spass skern : Word) (i : Nat) : Pred :=
  if i ≤ spass.toNat && decide (spass.toNat - i < skern.toNat) then BitVec.allOnes 512 else 0

def writeStages (k : Core) : List Nat → Core
  | [] => k
  | i :: t => writeStages (k.setPred (56 + i) (stagePred k.xs.spass k.xs.skern i) (BitVec.allOnes 512)) t

/-- StagePredicates of R111. -/
def Core.stages (k : Core) : Core := writeStages k [0, 1, 2, 3, 4, 5, 6, 7]

/-! ## Token FIFOs (R209 to R211): ax 0, am 1, xa 2, xm 3, ma 4, mx 5 -/

/-- The FIFOs a take field names for an engine (R52). -/
def takeFifos (e : Eng) (f : Nat) : List Nat :=
  let p : Nat × Nat := match e with | .a => (2, 4) | .x => (0, 5) | .m => (1, 3)
  (if f % 2 = 1 then [p.1] else []) ++ (if 2 ≤ f % 4 then [p.2] else [])

/-- The FIFOs a give field names for an engine (R52). -/
def giveFifos (e : Eng) (f : Nat) : List Nat :=
  let p : Nat × Nat := match e with | .a => (0, 1) | .x => (2, 3) | .m => (4, 5)
  (if f % 2 = 1 then [p.1] else []) ++ (if 2 ≤ f % 4 then [p.2] else [])

/-- The partner engines of a take or give field. -/
def partners (e : Eng) (f : Nat) : List Eng :=
  let p : Eng × Eng := match e with | .a => (.x, .m) | .x => (.a, .m) | .m => (.a, .x)
  (if f % 2 = 1 then [p.1] else []) ++ (if 2 ≤ f % 4 then [p.2] else [])

def Core.token (k : Core) (f : Nat) : Nat := tget k.tokens f 0
def Core.slots (k : Core) (f : Nat) : Nat := tget k.reserved f 0

def Core.hasTokens (k : Core) (fs : List Nat) : Bool := fs.all (fun f => 0 < k.token f)

def Core.takeAll (k : Core) : List Nat → Core
  | [] => k
  | f :: t => Core.takeAll { k with tokens := tset k.tokens f (k.token f - 1) } t

/-- Gives a token to each FIFO without a reservation (R132). -/
def Core.giveAll (k : Core) : List Nat → Core
  | [] => k
  | f :: t => Core.giveAll { k with tokens := tset k.tokens f (k.token f + 1) } t

/-- The lowest FIFO of the list without a slot: tokens and reserved slots come to 16 (R211). -/
def Core.fullFifo (k : Core) (fs : List Nat) : Option Nat := fs.find? (fun f => 16 ≤ k.token f + k.slots f)

def Core.reserve (k : Core) : List Nat → Core
  | [] => k
  | f :: t => Core.reserve { k with reserved := tset k.reserved f (k.slots f + 1) } t

/-- Releases reserved slots without tokens (R291, 0x23). -/
def Core.unreserve (k : Core) : List Nat → Core
  | [] => k
  | f :: t => Core.unreserve { k with reserved := tset k.reserved f (k.slots f - 1) } t

/-- Fills reserved slots: gives the tokens (R211). -/
def Core.giveReserved (k : Core) (fs : List Nat) : Core := (k.unreserve fs).giveAll fs

/-- Whether the job of the core has streams on all these engines (R206). -/
def Core.hasEngines (k : Core) (es : List Eng) : Bool :=
  match k.job with
  | none => true
  | some j => es.all (fun e => j.streams.contains e)

/-! ## Queues -/

def Core.qOf (k : Core) (n : Nat) : List QEnt := tget k.q n []
def Core.setQ (k : Core) (n : Nat) (l : List QEnt) : Core := { k with q := tset k.q n l }
def Core.wOf (k : Core) (n : Nat) : List WEnt := tget k.w n []
def Core.setW (k : Core) (n : Nat) (l : List WEnt) : Core := { k with w := tset k.w n l }

/-- The entries present at the head: those before the first reserved one (R104). -/
def present {α : Type} (data : α → Bool) : List α → Nat
  | [] => 0
  | e :: t => if data e then present data t + 1 else 0

def Core.qPresent (k : Core) (n : Nat) : Nat := present (fun e => e.data.isSome) (k.qOf n)
def Core.wPresent (k : Core) (n : Nat) : Nat := present (fun e => e.data.isSome) (k.wOf n)

/-- Fills the reserved q entry with an identifier. -/
def fillQ (id : Nat) (d : QData) : List QEnt → List QEnt
  | [] => []
  | e :: t => if e.id = id then { e with data := some d } :: t else e :: fillQ id d t

/-- Fills the reserved w entry with an identifier. -/
def fillW (id : Nat) (d : Vec × Pred) : List WEnt → List WEnt
  | [] => []
  | e :: t => if e.id = id then { e with data := some d } :: t else e :: fillW id d t

/-- Reserves `n` entries of q queue `q` in program order and returns their identifiers (R214). -/
def Core.reserveQ (k : Core) (q : Nat) : Nat → List Nat × Core
  | 0 => ([], k)
  | n + 1 =>
    let k1 := { k.setQ q (k.qOf q ++ [⟨k.nextId, none⟩]) with nextId := k.nextId + 1 }
    let r := Core.reserveQ k1 q n
    (k.nextId :: r.1, r.2)

/-- Reserves an entry of w queue `w` (R179). -/
def Core.reserveW (k : Core) (w : Nat) : Nat × Core :=
  (k.nextId, { k.setW w (k.wOf w ++ [⟨k.nextId, none⟩]) with nextId := k.nextId + 1 })

/-! ## Time (R113, R150, R336) -/

/-- The local cycle count of a cluster: nominal cycles less those lost to stretching and freezes, in whole cycles. -/
def State.localCount (s : State) (g : Nat) : Nat :=
  let k := s.cluster g
  (8 * (if k.frozen.isEmpty then s.clock else k.since) - k.lost) / 8

/-- Local cycles of a core since its job started (R150). -/
def State.jobCount (s : State) (c : Nat) : Nat :=
  match (s.core c).job with
  | some j => if j.paused then j.credit else s.localCount (clusterOf c) - j.start + j.credit
  | none => s.localCount (clusterOf c)

/-- `cyc` (R113): 0 in rib mode. -/
def State.cyc (s : State) (w : Who) : Nat := if (s.stream w).gauge then s.jobCount w.core else 0

/-- Adds a reason for a cluster to stand still, once. -/
def State.freeze (s : State) (g : Nat) (why : Freeze) : State :=
  let k := s.cluster g
  if k.frozen.contains why then s
  else s.setCluster g { k with frozen := k.frozen ++ [why], since := if k.frozen.isEmpty then s.clock else k.since }

/-- Removes a reason; the frozen cycles are not counted when the last one goes (R231). -/
def State.thaw (s : State) (g : Nat) (why : Freeze) : State :=
  let k := s.cluster g
  let rest := k.frozen.filter (fun f => f != why)
  if k.frozen.isEmpty then s
  else if rest.isEmpty then s.setCluster g { k with frozen := [], lost := k.lost + 8 * (s.clock - k.since) }
  else s.setCluster g { k with frozen := rest }

/-- The clusters of a die that run launches of a context: its gauge domain (R373). -/
def State.domain (s : State) (ctx die : Nat) : List Nat :=
  (clustersOfDie die).filter (fun g => s.launches.any (fun l => l.clusters.contains g && (s.lrec l.record).ctx == ctx))

def freezeAll (why : Freeze) : List Nat → State → State
  | [], s => s
  | g :: t, s => freezeAll why t (s.freeze g why)

def thawAll (why : Freeze) : List Nat → State → State
  | [], s => s
  | g :: t, s => thawAll why t (s.thaw g why)

/-! ## Jobs of a core -/

def Core.ctx (k : Core) : Nat := match k.job with | some j => j.ctx | none => 0
def Core.lidx (k : Core) : Nat := match k.job with | some j => j.lidx | none => 0
def Core.record (k : Core) : Nat := match k.job with | some j => j.record | none => 0

/-- The running launch of a core's job. -/
def State.launchOf (s : State) (c : Nat) : Option Launch :=
  match (s.core c).job with
  | some j => s.launches.find? (fun l => l.record == j.record)
  | none => none

/-- Updates the launch of a record. -/
def State.mapLaunch (s : State) (record : Nat) (f : Launch → Launch) : State :=
  { s with launches := s.launches.map (fun l => if l.record == record then f l else l) }

/-- No job of a launch is saved while it runs: none of it goes on while a part of it stands in a lifeline (R420). -/
def State.whole (s : State) (record : Nat) : Bool := !s.lifelines.any (fun f => f.launch.record == record)

def insertBy {α : Type} (f : α → Nat) (x : α) : List α → List α
  | [] => [x]
  | y :: t => if f x ≤ f y then x :: y :: t else y :: insertBy f x t

/-- A list in ascending order of a number; equal ones keep their order. -/
def sortBy {α : Type} (f : α → Nat) : List α → List α
  | [] => []
  | x :: t => insertBy f x (sortBy f t)

/-- The clusters of cores in ascending order of the logical indices (R475). -/
def clustersBy (cores : List (Nat × Nat)) : List Nat := ((sortBy Prod.snd cores).map (fun p => clusterOf p.1)).eraseDups

/-- The `tval` of R474: a field of the instruction's own words. -/
def opTval (i : Instr) (word2 : Bool) (lsb : Nat) : Word :=
  tvalField word2 lsb ((encode i).getD (if word2 then 1 else 0) 0)

/-- The `tval` of R474 for 0x03: the instruction's first word. -/
def firstWord (i : Instr) : Word := BitVec.ofNat 64 ((encode i).getD 0 0)

/-- `addr` of R240 in bits [56:0], `late` in bit 63. -/
def accTval (late : Bool) (addr : Nat) : Word :=
  BitVec.ofNat 64 ((if late then 2 ^ 63 else 0) + addr % 2 ^ 57)

end Sys2Proof.Machine
end

