-- ==== Sys2Proof/Machine/Messages.lean ====
section
/-! DEFINITION. What leaves the hub: messages to the host (R430, R433, R434) and to the fabric, the requests of this hub (R443,
R449), and the writes that the device makes of its own (R367, R379, R401). -/

namespace Sys2Proof.Machine

/-! ## Messages to the host (R427, R430, R433, R434) -/

/-- The type of a message; 0 for those that open a session, which R428 numbers by step only. -/
def HostMsg.type : HostMsg → Nat
  | .attest .. | .opened _ => 0
  | .response .. => 0x80
  | .launchComplete .. => 0x90
  | .hold _ => 0x91
  | .context .. => 0x92
  | .dieFailed .. => 0x93
  | .thermal _ => 0x94

def HostMsg.status : HostMsg → Nat
  | .opened st => st
  | .response _ st _ => st
  | _ => 0

/-- The payload; items that the spec lists without a layout stand in 8 bytes each, in its order (DESIGN CHOICE, log 68). -/
def HostMsg.payload : HostMsg → List Byte
  | .attest report ephemeral features => report ++ ephemeral ++ bytesOf 32 features.toNat
  | .opened _ => []
  | .response seq _ l => bytesOf 8 seq ++ l
  | .launchComplete record ctx completions => bytesOf 8 record ++ bytesOf 8 ctx ++ bytesOf 8 completions
  | .hold record => record
  | .context ctx subtype words => bytesOf 8 ctx ++ bytesOf 8 subtype ++ words.flatMap (fun w => bytesOf 8 w.toNat)
  | .dieFailed die last => bytesOf 8 die ++ bytesOf 8 last
  | .thermal level => bytesOf 8 level

/-- Header and payload of a message (R430). -/
def HostMsg.bytes (m : HostMsg) (seq : Nat) : List Byte :=
  bytesOf 2 m.type ++ bytesOf 2 m.status ++ bytesOf 4 m.payload.length ++ bytesOf 8 seq ++ m.payload

/-- Sends a message in the open session: the next sequence number, and the HMAC under its key (R430). Answers to bulk commands travel
over RUD (R427). -/
def State.post (s : State) (port : Nat) (rud : Bool) (m : HostMsg) : State :=
  let n := s.session.seqOut + 1
  { s with
    session := { s.session with seqOut := n },
    toHost := s.toHost ++ [⟨port, rud, n, m, hmacSm3 s.session.macKey (m.bytes n)⟩] }

/-- Sends a device message, or keeps it in the ring of 4,096 while no session is open (R434). -/
def say (s : State) (m : HostMsg) : State :=
  if s.session.phase = .opened then s.post (s.session.ports.headD 0) false m
  else if s.ring.length < 4096 then { s with ring := s.ring ++ [m] }
  else { s with ringDropped := s.ringDropped + 1 }

/-- A context event: its words are filled with zeros to 32 bytes (R433; DESIGN CHOICE, log 68). -/
def contextEvent (ctx subtype : Nat) (words : List Word) : HostMsg := .context ctx subtype ((words ++ [0, 0, 0, 0]).take 4)

/-- The 64-byte hold record (R380). -/
def holdRecord (s : State) (h : Hold) (summary : Bool) : List Byte :=
  bytesOf 8 (h.ctx + h.die * 2 ^ 8 + (if summary then 2 ^ 16 else 0) + (if h.gauge then 2 ^ 17 else 0)) ++
  bytesOf 8 (h.cause + h.eng * 2 ^ 8 + h.core * 2 ^ 16) ++ bytesOf 8 h.epc.toNat ++ bytesOf 8 h.tval.toNat ++
  bytesOf 8 h.count.toNat ++ bytesOf 4 h.later ++ bytesOf 4 (natOf (h.causes.map (BitVec.ofNat 8))) ++
  bytesOf 8 h.image.toNat ++ bytesOf 8 ((s.clock - h.began) / 1300)

/-! ## Messages to the fabric -/

def emit (s : State) (m : FabMsg) : State := { s with toFabric := s.toFabric ++ [m] }

def Seg.isRemote (g : Seg) : Bool :=
  match g.home with
  | .remote _ _ => true
  | _ => false

def plainAttr : Attr := ⟨true, false, 1, false, false, false, false⟩

/-- Splits an access at the boundaries of 16 KiB pages (R344): virtual addresses with lengths. -/
def splitPages : Nat → Nat → Nat → List (Nat × Nat)
  | 0, _, _ => []
  | f + 1, va, n =>
    if n = 0 then []
    else
      let m := min n (0x4000 - va % 0x4000)
      (va % 2 ^ 64, m) :: splitPages f (va + m) (n - m)

/-! ## Requests of this hub (R443, R449) -/

/-- The first transaction id from `t` on that no outstanding request has, among 1 to 65535. -/
def unusedTid (used : List Nat) : Nat → Nat → Nat
  | 0, t => t
  | f + 1, t => if used.contains t then unusedTid used f (t % 65535 + 1) else t

/-- The id of this hub's next request: unique among its outstanding ones (R443). -/
def State.freeTid (s : State) : Nat := unusedTid (s.requests.map OutReq.tid) s.requests.length s.nextTid

/-- A request for a remote part. -/
def fabReq (s : State) (c : Nat) (g : Seg) (op epoch : Nat) (data : List Byte) : FabReq :=
  let (pkg, inc) := match g.home with | .remote p i => (p, i) | _ => (s.pkgId, 0)
  ⟨s.pkgId, s.freeTid, pkg, g.addr, inc, c, .a, g.len, op, g.attr.kind, g.attr.cmp, g.attr.rep, g.attr.race, g.attr.det,
    epoch, data⟩

/-- Sends a request and keeps it outstanding. -/
def sendReq (s : State) (r : FabReq) (tv : Nat) (write : Bool) (owner : Owner) (m : FabMsg) : State :=
  { emit s m with
    requests := s.requests ++ [⟨r.tid, r.dstPkg, r.pa, r.size, tv, write, s.clock, owner, none⟩],
    nextTid := r.tid % 65535 + 1 }

def requestRead (s : State) (c : Nat) (owner : Owner) (g : Seg) : State :=
  let r := fabReq s c g 0 0 []
  sendReq s r g.tv false owner (.readReq r)

/-- The contiguous masked runs of a part, as parts with their bytes (a write request carries no mask). -/
def maskedRuns (g : Seg) : Nat → List Byte → List Bool → List (Seg × List Byte)
  | i, b :: t, true :: ks =>
    match maskedRuns g (i + 1) t ks with
    | (h, l) :: rest =>
      if h.addr = g.addr + i + 1 && l.length < 512 then ({ h with addr := g.addr + i, len := h.len + 1, tv := g.tv + i }, b :: l) :: rest
      else ({ g with addr := g.addr + i, len := 1, tv := g.tv + i }, [b]) :: (h, l) :: rest
    | [] => [({ g with addr := g.addr + i, len := 1, tv := g.tv + i }, [b])]
  | i, _ :: t, _ :: ks => maskedRuns g (i + 1) t ks
  | _, _, _ => []

def requestRuns (c : Nat) (owner : Owner) : List (Seg × List Byte) → State → State
  | [], s => s
  | (g, l) :: t, s =>
    let r := fabReq s c g 0 0 l
    requestRuns c owner t (sendReq s r g.tv true owner (.writeReq r))

def requestReads (c : Nat) (owner : Owner) : List Seg → State → State
  | [], s => s
  | g :: t, s => requestReads c owner t (if g.isRemote then requestRead s c owner g else s)

def requestWrites (c : Nat) (owner : Owner) : List Seg → List Byte → List Bool → State → State
  | [], _, _, s => s
  | g :: t, data, mask, s =>
    let s1 := if g.isRemote then requestRuns c owner (maskedRuns g 0 (data.take g.len) (mask.take g.len)) s else s
    requestWrites c owner t (data.drop g.len) (mask.drop g.len) s1

/-- The read request of an owner for a remote part. -/
def findRead (s : State) (owner : Owner) (g : Seg) : Option OutReq :=
  s.requests.find? (fun q => q.owner == owner && !q.write && q.addr == g.addr && q.len == g.len &&
    (match g.home with | .remote p _ => q.dst == p | _ => false))

def dropReqs (s : State) (owner : Owner) : State := { s with requests := s.requests.filter (fun q => q.owner != owner) }

/-- The state of an owner's write requests: a nack, all acknowledged, or still outstanding. -/
inductive Acks where
  | failed (cause tv : Nat)
  | done
  | open_
  deriving DecidableEq, Repr

def acksOf (s : State) (owner : Owner) : Acks :=
  let ws := s.requests.filter (fun q => q.owner == owner && q.write)
  match ws.findSome? (fun q => match q.reply with | some (.nack cause) => some (cause, q.tv) | _ => none) with
  | some (cause, tv) => .failed cause tv
  | none => if ws.all (fun q => q.reply.isSome) then .done else .open_

/-- A part in pieces that one message carries (R443). -/
def pieces : Nat → Seg → List Seg
  | 0, _ => []
  | f + 1, g => if g.len ≤ 512 then [g] else
      { g with len := 512 } :: pieces f { g with addr := g.addr + 512, len := g.len - 512, tv := g.tv + 512 }

/-! ## Writes of the device's own (R367, R379, R401) -/

/-- The parts of bytes at virtual addresses of a context by its own tables; none where a part would fault. -/
def ctxSegs (s : State) (ctx : Nat) (use : Use) : List (Nat × Nat) → Option (List Seg)
  | [] => some []
  | (va, n) :: t =>
    if !canonical va then none
    else
      match walk s ctx (va % 2 ^ 57) with
      | .error _ => none
      | .ok tr =>
        let pa := tr.pa (va % 2 ^ 57)
        if tr.attr.refuses use || rangeEnd pa < pa + n then none
        else
          match ctxSegs s ctx use t with
          | none => none
          | some l =>
            some ((if tr.pkg = s.pkgId then [⟨.local, pa, n, tr.attr, va, none⟩]
              else pieces (n / 512 + 1) ⟨.remote tr.pkg tr.inc, pa, n, tr.attr, va, none⟩) ++ l)

def ctxParts (s : State) (ctx : Nat) (use : Use) (va n : Nat) : Option (List Seg) :=
  ctxSegs s ctx use (splitPages (n / 0x4000 + 2) va n)

/-- The walks of `ctxParts`. -/
def walkedParts (s : State) (ctx : Nat) (use : Use) (va n : Nat) : State := countWalks ctx (some use) (splitPages (n / 0x4000 + 2) va n) s

/-- Reads the parts of a header: none while a reply is missing; a header that cannot be read has no bytes. -/
def devRead (owner : Owner) : List Seg → State → Option (Option (List Byte))
  | [], _ => some (some [])
  | g :: t, s =>
    let here : Option (Option (List Byte)) :=
      if g.isRemote then
        match (findRead s owner g).bind OutReq.reply with
        | some (.data l) => some (some l)
        | some _ => some none
        | none => none
      else some (if (readBad s g.addr g.len).isSome then none else some (readBytes s.mem g.addr g.len))
    match here, devRead owner t s with
    | some a, some b => some (match a, b with | some l, some r => some (l ++ r) | _, _ => none)
    | _, _ => none

/-- Performs the local parts of a write of the device's own. -/
def devStore : List Seg → List Byte → State → State
  | [], _, s => s
  | g :: t, data, s =>
    devStore t (data.drop g.len)
      (if g.isRemote then s else storeLocal s g.attr.cmp g.addr (data.take g.len) (List.replicate g.len true))

/-- Writes bytes of the device's own at an address of a context, and says whether they could be written. -/
def devWrite (s0 : State) (owner : Owner) (ctx va : Nat) (data : List Byte) : State × Bool :=
  let s := walkedParts s0 ctx .write va data.length
  match ctxParts s ctx .write va data.length with
  | none => (s, false)
  | some segs =>
    if segs.any (fun g => !g.isRemote && storeBad s g.addr g.len) then (s, false)
    else (requestWrites 0 owner segs data (List.replicate data.length true) (devStore segs data (dropReqs s owner)), true)

/-- What follows when a write of the device's own is over: `done` says that its record, or its bytes, stand in memory. One that is
refused is never a fault: a race record is dropped and counted, a reclamation record goes to the host (R367, R401). -/
def devEnd (s : State) (d : DevWrite) (done refused : Bool) : State :=
  let s1 := dropReqs { s with devWrites := s.devWrites.drop 1 } (.device d.id)
  match d.kind with
  | .race die => s1.count (if done then ctrRaceLog die else ctrRaceDrop die) 1
  | .reclaim ctx _ words => if refused then say s1 (contextEvent ctx 2 words) else s1
  | .hold h => say s1 (.hold (holdRecord s1 { h with image := if done then BitVec.ofNat 64 d.base else 0 } false))

def devNext (s : State) (d : DevWrite) (phase : DevPhase) : State :=
  { s with devWrites := { d with phase := phase } :: s.devWrites.drop 1 }

/-- The next act of the first of the device's own writes; none while it waits. A ring whose context has ended is written no more (R401).
A ring's header holds the next index and the dropped
count. One that cannot be read, for which the spec names no consequence, counts as a header whose write would fault (R10; DESIGN
CHOICE, log 41). -/
def devAct (s : State) (d : DevWrite) : Option State :=
  let owner : Owner := .device d.id
  let write (s : State) (phase : DevPhase) (va : Nat) (data : List Byte) : State :=
    let r := devWrite s owner d.ctx va data
    if r.2 then devNext r.1 d phase else devEnd r.1 d false true
  let acked (act : State) : Option State :=
    match acksOf s owner with
    | .open_ => none
    | .failed _ _ => some (devEnd s d false true)
    | .done => some act
  if d.phase != .plain && !((s.ctx d.ctx).live && (s.ctx d.ctx).gen == d.gen) then some (devEnd s d false true)
  else
  match d.phase with
  | .header count =>
    let walked := walkedParts s d.ctx .read d.base 16
    (match ctxParts s d.ctx .read d.base 16 with
     | none => some (devEnd walked d false true)
     | some segs =>
       if segs.any (fun g => g.isRemote && (findRead s owner g).isNone) then some (requestReads 0 owner segs walked)
       else
         match devRead owner segs s with
         | none => none
         | some none => some (devEnd s d false true)
         | some (some h) =>
           let next := natOf (h.take 8)
           let s1 := countReads ((segs.filter (fun g => !g.isRemote && isStack g.addr)).flatMap (fun g => linesOf g.addr g.len))
             (if segs.any Seg.isRemote then s else walked)
           if count ≤ next then some (write s1 (.index false) (d.base + 8) (bytesOf 8 (natOf (h.drop 8) + 1)))
           else some (write s1 (.record next) (d.base + 64 + 32 * next) d.data))
  | .record next => acked (write s (.index true) d.base (bytesOf 8 (next + 1)))
  | .index logged => acked (devEnd s d logged false)
  | .plain => acked (devEnd s d true false)

/-- The device's own writes go on, one after another, until one waits for another package. -/
def devPump : Nat → State → State
  | 0, s => s
  | n + 1, s =>
    match s.devWrites with
    | [] => s
    | d :: _ => match devAct s d with | some s1 => devPump n s1 | none => s

def State.pump (s : State) : State := devPump (5 * s.devWrites.length) s

/-- Writes a record into a ring of `count` records of a context. -/
def ringWrite (s : State) (ctx base count : Nat) (record : List Byte) (kind : DevKind) : State :=
  State.pump { s with
    devWrites := s.devWrites ++ [⟨s.nextDev, ctx, (s.ctx ctx).gen, base, record, kind, .header count⟩], nextDev := s.nextDev + 1 }

/-- Writes bytes of a hold at an address of its context; its report goes out when they stand in memory, or cannot. -/
def dumpWrite (s : State) (h : Hold) (base : Nat) (data : List Byte) : State :=
  let d : DevWrite := ⟨s.nextDev, h.ctx, (s.ctx h.ctx).gen, base, data, .hold h, .plain⟩
  let r := devWrite { s with nextDev := s.nextDev + 1 } (.device d.id) h.ctx base data
  if r.2 then State.pump { r.1 with devWrites := r.1.devWrites ++ [d] }
  else devEnd { r.1 with devWrites := d :: r.1.devWrites } d false true

end Sys2Proof.Machine
end

