-- ==== Sys2Proof/Machine/Access.lean ====
section
/-! DEFINITION. Accesses to memory: how an address becomes parts with a home (R234, R344, R395, R475), the checks made
before anything is performed (R235, R238, R222, R254), the geometry of the tile store and its errors (R217 to R221, R227), the race
detector (R364 to R367) and the deterministic buffer (R368). -/

namespace Sys2Proof.Machine

/-- A refused access: the cause and its `tval`. -/
abbrev Refused := Nat × Word

/-! ## Addresses (R234, R395, R475) -/

/-- An address operand: virtual, or an offset in the object of a handle-table slot. -/
inductive Addr where
  | va (a : Nat)
  | obj (slot : Nat) (off : Int)
  deriving DecidableEq, Repr

/-- The `addr` field of R240 for byte `i` of an access. -/
def Addr.tv (a : Addr) (i : Nat) : Nat :=
  match a with
  | .va v => (v + i) % 2 ^ 57
  | .obj _ o => fieldOfInt (o + i) 57

/-- Moves an address by a signed number of bytes; a virtual one modulo 2^64. -/
def Addr.plus (a : Addr) (d : Int) : Addr :=
  match a with
  | .va v => .va (((v : Int) + d) % (2 ^ 64 : Nat)).toNat
  | .obj sl o => .obj sl (o + d)

/-- The requesters of R220, by their place in its order. -/
inductive Asker where
  | drain | weights | port | copy | store | load
  deriving DecidableEq, Repr

def Asker.place : Asker → Nat
  | .drain => 0
  | .weights => 1
  | .port => 2
  | .copy => 3
  | .store => 4
  | .load => 5

/-- What an access is: how it uses the bytes, its alignment, whether it is an atomic, whether its causes are late, whether
the gauge rule of R238 holds for it, which requester of the tile store it is, and which bytes a store writes (`[]`: all). -/
structure Acc where
  use : Use
  align : Nat
  atomic : Bool
  late : Bool
  sync : Bool
  asker : Asker
  mask : List Bool
  deriving DecidableEq, Repr

/-- Where an address of the launch vault window of a core's job leads (R475): none where it is no window address, else
the physical address, or the number of bytes before the first that the window refuses. -/
def windowOf (s : State) (c va n : Nat) : Option (Except Nat Nat) :=
  match s.launchOf c with
  | none => none
  | some l =>
    let r := s.lrec l.record
    let v := r.vbase
    let a := va % 2 ^ 57
    let cl := l.clusters
    if r.vaultLen = 0 || a < v || v + (cl.length + 1) * 0x4000000 ≤ a then none
    else
      let i := (a - v) / 0x4000000
      let o := (a - v) % 0x4000000
      let g := if i = 0 then clusterOf c else cl.getD (i - 1) 0
      if r.vaultLen ≤ o then some (.error 0)
      else if r.vaultLen < o + n then some (.error (r.vaultLen - o))
      else some (.ok (vaultBase + g * 0x4000000 + r.voff + o))

/-- Whether the gauge rule refuses a synchronous access to a part: stack memory, a vault outside the context's clusters,
or another package (R238). -/
def gaugeRefuses (s : State) (c : Nat) (seg : Seg) : Bool :=
  match seg.home with
  | .tile => false
  | .remote _ _ => true
  | .local => isStack seg.addr || !(vaultOf seg.addr == clusterOf c ||
      (s.domain (s.core c).ctx (dieOf c)).contains (vaultOf seg.addr))

/-- The local part at a physical address, through the replica of the core's die where the page is replicated (R362). -/
def localSeg (c : Nat) (attr : Attr) (pa n tv : Nat) : Seg :=
  ⟨.local, if attr.rep then replicaOf (dieOf c) pa else pa, n, attr, tv, none⟩

/-- One page part of an access by virtual address. -/
def segOfVa (s : State) (c : Nat) (acc : Acc) (k : Nat) (va n : Nat) : Except Refused Seg :=
  if !canonical va then .error (0x10, accTval acc.late va)
  else
    match windowOf s c va n with
    | some (.ok pa) => .ok ⟨.local, pa, n, plainAttr, va % 2 ^ 57, none⟩
    | some (.error i) => .error (0x10, accTval acc.late (va + i))
    | none =>
      if va < tileBytes then .error (0x10, accTval acc.late va)
      else
        match translate s c (s.core c).ctx va k with
        | .error cause => .error (cause, accTval acc.late va)
        | .ok t =>
          if t.attr.refuses acc.use then .error (0x11, accTval acc.late va)
          else
            let pa := t.pa va
            if rangeEnd pa < pa + n then .error (0x10, accTval acc.late (va + (rangeEnd pa - pa)))
            else if t.pkg = s.pkgId then .ok (localSeg c t.attr pa n (va % 2 ^ 57))
            else .ok ⟨.remote t.pkg t.inc, pa, n, t.attr, va % 2 ^ 57, none⟩

/-- A part in the pieces that the fabric's messages carry (R443). -/
def Seg.split (g : Seg) : List Seg := if g.isRemote then pieces (g.len / 512 + 1) g else [g]

def segsOfVa (s : State) (c : Nat) (acc : Acc) : Nat → List (Nat × Nat) → Except Refused (List Seg)
  | _, [] => .ok []
  | k, (va, n) :: t =>
    match segOfVa s c acc k va n with
    | .error e => .error e
    | .ok g =>
      match segsOfVa s c acc (k + 1) t with
      | .error e => .error e
      | .ok r => .ok (g.split ++ r)

/-- The tiles that bytes of the tile store touch. -/
def tilesOf (a n : Nat) : List Nat := if n = 0 then [] else (List.range ((a + n - 1) / 4096 - a / 4096 + 1)).map (fun i => a / 4096 + i)

/-- The first tile of an access that an engine does not own (R222). -/
def Core.notOwned (k : Core) (byM : Bool) (a n : Nat) : Option Nat := (tilesOf a n).find? (fun t => k.ownM.contains t != byM)

/-- The tile-store address of the first line refused. -/
def refusedLine (a t : Nat) : Nat := max a (4096 * t) / 64 * 64

/-- A tile-store access of A (R218, R222). -/
def segOfTile (k : Core) (late : Bool) (a n : Nat) : Except Refused (List Seg) :=
  if tileBytes < a + n then .error (0x13, accTval late a)
  else
    match k.notOwned false a n with
    | some t => .error (0x16, accTval late (refusedLine a t))
    | none => .ok [⟨.tile, a, n, plainAttr, a, none⟩]

/-- An access through a handle (R234, R395). -/
def segOfObj (s : State) (c : Nat) (acc : Acc) (slot : Nat) (off : Int) (n : Nat) : Except Refused (List Seg) :=
  let a : Addr := .obj slot off
  match tfind s.objs (tget (s.ctx (s.core c).ctx).handles slot 0) with
  | none => .error (0x15, accTval acc.late slot)
  | some o =>
    if (((o.desc.pa : Int) + off) % acc.align != 0) then .error (0x13, accTval acc.late (a.tv 0))
    else if off < 0 then .error (0x14, accTval acc.late (a.tv 0))
    else if (o.desc.size : Int) < off + n then
      .error (0x14, accTval acc.late (a.tv (max off o.desc.size - off).toNat))
    else if o.desc.attr.refuses acc.use then .error (0x11, accTval acc.late (a.tv 0))
    else
      let pa := o.desc.pa + off.toNat
      if rangeEnd pa < pa + n then .error (0x10, accTval acc.late (a.tv (rangeEnd pa - pa)))
      else if o.desc.pkg = s.pkgId then .ok [{ localSeg c o.desc.attr pa n (a.tv 0) with slot := some slot }]
      else if !((s.peer o.desc.pkg).up && (s.peer o.desc.pkg).inc == o.desc.inc) then .error (0x48, accTval acc.late (a.tv 0))
      else .ok (Seg.split ⟨.remote o.desc.pkg o.desc.inc, pa, n, o.desc.attr, a.tv 0, some slot⟩)

def segsOf0 (s : State) (c : Nat) (acc : Acc) (a : Addr) (n : Nat) : Except Refused (List Seg) :=
  match a with
  | .obj slot off => segOfObj s c acc slot off n
  | .va v =>
    if !canonical v then .error (0x10, accTval acc.late v)
    else if v % acc.align != 0 then .error (0x13, accTval acc.late v)
    else if v < tileBytes then segOfTile (s.core c) acc.late v n
    else segsOfVa s c acc 0 (splitPages (n / 0x4000 + 2) v n)

/-- The maximal runs of bytes of a part whose mask is set, from byte `i` on. -/
def maskRuns (g : Seg) : Nat → List Bool → List Seg
  | _, [] => []
  | i, false :: t => maskRuns g (i + 1) t
  | i, true :: t =>
    let one : Seg := { g with addr := g.addr + i, len := 1, tv := (g.tv + i) % 2 ^ 57 }
    match maskRuns g (i + 1) t with
    | h :: rest => if h.addr = g.addr + i + 1 then { one with len := h.len + 1 } :: rest else one :: h :: rest
    | [] => [one]

/-- The parts of an access that it writes or reads under its mask. -/
def masked : List Bool → List Seg → List Seg
  | _, [] => []
  | mask, g :: t => maskRuns g 0 (mask.take g.len) ++ masked (mask.drop g.len) t

def Acc.runs (acc : Acc) (segs : List Seg) : List Seg := if acc.mask.isEmpty then segs else masked acc.mask segs

/-! ## The tile store: its banks, their errors and their waits (R217, R219, R221, R227) -/

/-- The data bank, the line index and the group of a tile-store address (R217). -/
def bankOf (a : Nat) : Nat := a / 64 % 16
def lineIndexOf (a : Nat) : Nat := a / 1024 % 512
def groupOf (a : Nat) : Nat := bankOf a / 4

/-- The first address of a line of a data bank. -/
def lineAt (bank index : Nat) : Nat := 1024 * index + 64 * bank

/-- A line of 64 bytes of the tile store. -/
def lineOf (tile : Memory) (bank index : Nat) : Nat := readNat tile (lineAt bank index) 64

/-- The line of a group's parity bank: the XOR of the four data lines at its index (R217). -/
def parityLine (tile : Memory) (group index : Nat) : Nat :=
  [0, 1, 2, 3].foldl (fun x b => x ^^^ lineOf tile (4 * group + b) index) 0

/-- The other data banks of a bank's group. -/
def siblings (bank : Nat) : List Nat := ((List.range 4).map (fun b => bank / 4 * 4 + b)).filter (fun b => b != bank)

/-- A rebuilt read: the XOR of the group's other three data lines and its parity line (R219). -/
def rebuiltLine (tile : Memory) (bank index : Nat) : Nat :=
  (siblings bank).foldl (fun x b => x ^^^ lineOf tile b index) (parityLine tile (bank / 4) index)

/-- A read of the line at an address meets an uncorrectable error: in the line itself, or, rebuilt, in one of its four source
lines (R221). -/
def Core.lineLost (k : Core) (rebuilt : Bool) (l : Nat) : Bool :=
  let sources := (siblings (bankOf l)).any (fun b => k.badTile.contains (lineAt b (lineIndexOf l))) ||
    k.badParity.contains (512 * groupOf l + lineIndexOf l)
  (sources && rebuilt) || (k.badTile.contains l && !rebuilt)

/-- Whether bank conflicts let a read of this step be rebuilt: the arbitration of R219 is a matter of cycles (log 8). -/
def rebuilds (s : State) (l : Nat) : Bool := Config.freeBool s.steps (4096 + l / 64)

/-- The first byte of `n` bytes of a core's tile store whose line a read cannot have. -/
def tileBad (s : State) (c a n : Nat) : Option Nat :=
  ((unitsIn 64 a n).find? (fun l => (s.core c).lineLost (rebuilds s l) l)).map (fun l => max l a)

/-- The cycles that the request of this step for a line waited for its bank, which the spec gives as times only (log 43). -/
def waitsOf (s : State) (r : Asker) (l : Nat) : Nat := Config.freeNat s.steps (2 ^ 20 + 8 * (l / 64) + r.place)

/-- A command of a core's window is at work on the tile store: a drain, or a read of weights. -/
def Core.drainsNow (k : Core) : Bool :=
  k.ms.window.any (fun c => c.state == .issued && (match c.op with | .drn .. => true | _ => false))
def Core.readsWeights (k : Core) : Bool :=
  k.ms.window.any (fun c => c.state == .issued && (match c.op with | .wld .. | .wlds .. | .anch4 .. => true | _ => false))

/-- A requester of R220 has work under way, so that it may ask for a bank in the cycles of another's request. -/
def Asker.busy (k : Core) : Asker → Bool
  | .drain => k.drainsNow
  | .weights => k.readsWeights
  | .port => k.as.xfers.any (fun p => !p.2.suspended && (match p.2.op with | .feed .. => true | _ => false))
  | .copy => k.as.xfers.any (fun p => !p.2.suspended && (match p.2.op with | .feed .. => false | _ => true))
  | .store | .load => k.a.run == .running

/-- A request can wait for a bank (R219, R220): another requester is at work, or its own requests may meet there, since writes hold banks
for a second cycle and a form of A may ask for several lines. Weights and rows are read alone and one after the other (log 43). -/
def mayWait (k : Core) (r : Asker) : Bool :=
  !(r == .weights || r == .port) || [Asker.drain, .weights, .port, .copy, .load].any (fun q => q != r && q.busy k)

def addWaits (s : State) (r : Asker) : List Nat → Tbl Nat → Tbl Nat
  | [], t => t
  | l :: rest, t =>
    let i := 16 * r.place + bankOf l
    addWaits s r rest (tset t i (min (2 ^ 32 - 1) (tget t i 0 + waitsOf s r l)))

/-- Requests for `n` bytes of a core's tile store raise the counters of their requester and banks by the cycles that they waited;
frozen cycles count nothing (R227). -/
def countWaits (s : State) (c : Nat) (r : Asker) (a n : Nat) : State :=
  if (s.cluster (clusterOf c)).frozen.isEmpty && mayWait (s.core c) r then
    s.setCore c { s.core c with conflicts := addWaits s r (unitsIn 64 a n) (s.core c).conflicts }
  else s

/-- The waits of the tile-store parts of an access. -/
def waitParts (c : Nat) (r : Asker) : List Seg → State → State
  | [], s => s
  | g :: t, s => waitParts c r t (if g.home = .tile then countWaits s c r g.addr g.len else s)

/-! ## Race detector (R364 to R367) -/

/-- The writer value of a core's A party (R364). -/
def writerOf (s : State) (c : Nat) : Nat := (s.core c).ctx * 2 ^ 14 + c * 2 ^ 5 + s.pkgId % 32

/-- The key of a unit's interval number: context, scope code and unit. -/
def intervalKey (ctx scope unit : Nat) : Nat := (ctx * 8 + scope) * 1024 + unit

def State.interval (s : State) (c : Nat) : Nat :=
  let x := s.ctx (s.core c).ctx
  tget s.intervals (intervalKey (s.core c).ctx x.mscopeCode (unitOf x.mscopeCode c)) 0

/-- The key of a sector in the table of shadows: its address, or, for a sector of another package, of which this state holds what the
parties of this package have written (log 79), one above all addresses. -/
def Seg.shadowKey (g : Seg) (sec : Nat) : Nat :=
  match g.home with
  | .remote pkg _ => (pkg + 1) * 2 ^ 44 + sec
  | _ => sec

/-- The shadow of a sector: scope, interval, writer. -/
def shadowOf (s : State) (sec : Nat) : BitVec 40 := tget s.shadow sec 0
def shScope (w : BitVec 40) : Nat := w.toNat / 2 ^ 36 % 4
def shInterval (w : BitVec 40) : Nat := w.toNat / 2 ^ 20 % 2 ^ 16
def shWriter (w : BitVec 40) : Nat := w.toNat % 2 ^ 20

/-- Whether the detector works for an access of a core to a part (R363, R364). -/
def detects (s : State) (c : Nat) (seg : Seg) : Bool := (s.ctx (s.core c).ctx).mmode == 1 && seg.attr.race && seg.home != .tile

/-- A part of this package whose accesses the detector checks as they are performed (R366). -/
def detectsHere (s : State) (c : Nat) (seg : Seg) : Bool := detects s c seg && !seg.isRemote

/-- A write of another package has replaced the shadow of a sector of another package: this state does not hold it (log 79). -/
def shadowGone (s : State) (g : Seg) (sec : Nat) : Bool := g.isRemote && Config.freeBool s.steps (2 ^ 23 + g.shadowKey sec)

/-- Conditions 2 to 4 of R366 for one sector, by its key. -/
def conflicts (s : State) (c sec : Nat) : Bool :=
  let w := shadowOf s sec
  let x := s.ctx (s.core c).ctx
  let wc := shWriter w / 2 ^ 5 % 512
  shScope w == x.mscope && shWriter w != writerOf s c && unitOf x.mscopeCode wc == unitOf x.mscopeCode c &&
    shWriter w % 32 == s.pkgId % 32 && shInterval w == s.interval c &&
    !(s.core c).pairs.any (fun p => p.1 == shWriter w && p.2 == s.interval c)

/-- The key of the lowest conflicting sector of the parts of an access, with the R240 `addr` of the sector's first byte (R367). -/
def raceFirst (s : State) (c : Nat) : List Seg → Option (Nat × Nat)
  | [] => none
  | g :: t =>
    if detects s c g then
      match (sectorsIn g.addr g.len).find? (fun sec => conflicts s c (g.shadowKey sec) && !shadowGone s g sec) with
      | some sec => some (g.shadowKey sec, (g.tv + 2 ^ 57 + sec - g.addr) % 2 ^ 57)
      | none => raceFirst s c t
    else raceFirst s c t

def shadowSet (s : State) (c : Nat) : List Nat → State
  | [] => s
  | sec :: t =>
    let w := BitVec.ofNat 40 ((s.ctx (s.core c).ctx).mscope * 2 ^ 36 + s.interval c * 2 ^ 20 + writerOf s c)
    shadowSet { s with shadow := tset s.shadow sec w } c t

/-- Every write that is not refused updates the shadow of the sectors it touches (R366). -/
def raceWrite (s : State) (c : Nat) : List Seg → State
  | [] => s
  | g :: t => raceWrite (if detects s c g then shadowSet s c ((sectorsIn g.addr g.len).map g.shadowKey) else s) c t

/-- An acquire atomic on a race page installs, as it reads, the writer and interval that its sector's shadow holds (R365). -/
def learnShadow (s : State) (c : Nat) (g : Seg) : State :=
  let x := shadowOf s (g.shadowKey (g.addr / 32 * 32))
  if detects s c g && shScope x != 0 then
    let p := (shWriter x, shInterval x)
    s.setCore c { s.core c with pairs := (p :: (s.core c).pairs.filter (fun q => q != p)).take 8 }
  else s

/-- The record of a race conflict (R367). -/
def raceRecord (s : State) (c sec tv : Nat) (write : Bool) : List Byte :=
  bytesOf 8 (tv + (if write then 2 ^ 63 else 0)) ++
  bytesOf 8 (writerOf s c + shWriter (shadowOf s sec) * 2 ^ 32) ++
  bytesOf 2 (shInterval (shadowOf s sec)) ++ bytesOf 2 (s.interval c) ++ bytesOf 4 0 ++
  bytesOf 8 (s.jobCount c)

/-- The detector's part of an access: refuses it under trap, logs it under log, and updates the shadow for a write. An access
to a race page is performed in the step of this check (`atIssue`, log 79); an atomic updates the shadow as it is performed. -/
def raceCheck (s : State) (c : Nat) (acc : Acc) (segs : List Seg) : Except Refused State :=
  let runs := acc.runs segs
  let hit := if acc.atomic then none else raceFirst s c runs
  let x := s.ctx (s.core c).ctx
  let upd (t : State) : State := if acc.use == .write && !acc.atomic then raceWrite t c runs else t
  match hit with
  | none => .ok (upd s)
  | some (sec, tv) =>
    if !x.logs then .error (0x40, accTval acc.late tv)
    else
      let d := dieOf c
      .ok (upd (ringWrite s (s.core c).ctx (x.dw 2).toNat (x.dw 3).toNat (raceRecord s c sec tv (acc.use == .write)) (.race d)))

/-! ## All checks of an access -/

/-- The parts of an access after every check that precedes its performance: translation and permission of each part,
then the gauge rule, atomics on UO pages, and a controller's refusal of a partial store. -/
def segsOf (s : State) (c : Nat) (acc : Acc) (a : Addr) (n : Nat) : Except Refused (List Seg) :=
  match segsOf0 s c acc a n with
  | .error e => .error e
  | .ok segs =>
    match segs.find? (fun g => acc.sync && (s.core c).a.gauge && gaugeRefuses s c g) with
    | some g => .error (0x09, accTval acc.late g.tv)
    | none =>
      match segs.find? (fun g => acc.atomic && g.attr.kind == 2 && g.home != .tile) with
      | some g => .error (0x17, accTval acc.late g.tv)
      | none =>
        match (if acc.use == .write then acc.runs segs else []).findSome? (fun g =>
            if g.home == .local then (storeBadAt s g.addr g.len).map (fun i => g.tv + i) else none) with
        | some tv => .error (0x50, accTval acc.late tv)
        | none => .ok segs

/-! ## Performing parts -/

def Seg.overlaps (g h : Seg) : Bool :=
  (match g.home, h.home with
   | .tile, .tile => true
   | .local, .local => true
   | .remote p _, .remote q _ => p == q
   | _, _ => false) && g.addr < h.addr + h.len && h.addr < g.addr + g.len

/-- Whether a core's writes to a part are held in its deterministic buffer (R368). -/
def buffers (s : State) (c : Nat) (g : Seg) : Bool :=
  (s.ctx (s.core c).ctx).mmode == 2 && g.attr.det && g.home != .tile

/-- Overlays the bytes that buffered writes hold for a part. -/
def overlay (g : Seg) : List DetWrite → List Byte → List Byte
  | [], l => l
  | w :: t, l =>
    overlay g t (if w.seg.overlaps g then
      l.mapIdx (fun i b => if covers w.seg.addr w.mask (g.addr + i) then w.data.getD (g.addr + i - w.seg.addr) b else b)
      else l)

/-- The bytes of a part that is not remote, and the state with its reads counted. -/
def readSeg (s : State) (c : Nat) (g : Seg) : List Byte × State :=
  match g.home with
  | .tile => (readBytes (s.core c).tile g.addr g.len, s)
  | _ =>
    let r := readLocal s g.addr g.len
    (if buffers s c g then overlay g (s.core c).det.writes r.1 else r.1, r.2)

def readSegs (s : State) (c : Nat) : List Seg → List Byte × State
  | [] => ([], s)
  | g :: t =>
    let r := readSeg s c g
    let rest := readSegs r.2 c t
    (r.1 ++ rest.1, rest.2)

/-- The first uncorrectable error that reading the parts meets: the cause, and the R240 `addr` of the first byte refused (R221,
R331, R357). -/
def badSegs (s : State) (c : Nat) : List Seg → Option (Nat × Nat)
  | [] => none
  | g :: t =>
    match g.home with
    | .tile =>
      match tileBad s c g.addr g.len with
      | some b => some (0x51, b)
      | none => badSegs s c t
    | .local =>
      match badAt s g.addr g.len with
      | some (cause, i) => some (cause, g.tv + i)
      | none => badSegs s c t
    | .remote _ _ => badSegs s c t

/-- Whether a write of masked bytes covers a whole line of the tile store. -/
def coversLine (a : Nat) (mask : List Bool) (l : Nat) : Bool := (List.range 64).all (fun j => covers a mask (l + j))

/-- Writes masked bytes to the core's tile store. A line written whole loses its error; so does a parity line all of whose data
lines are (log 41). -/
def Core.tileWrite (k : Core) (a : Nat) (data : List Byte) (mask : List Bool) : Core :=
  { k with
    tile := writeMasked k.tile a data mask,
    badTile := k.badTile.filter (fun l => !coversLine a mask l),
    badParity := k.badParity.filter (fun p => !(List.range 4).all (fun b => coversLine a mask (lineAt (4 * (p / 512) + b) (p % 512)))) }

/-- Inserts a buffered write at its place, after those of the same place. -/
def insertDet (w : DetWrite) : List DetWrite → List DetWrite
  | [] => [w]
  | h :: t => if w.at_ < h.at_ then w :: h :: t else h :: insertDet w t

/-- Performs the masked bytes of a part, unless a request carries them to another package; `place` is its place in
program order. -/
def writeSeg (s : State) (c place : Nat) (g : Seg) (data : List Byte) (mask : List Bool) : State :=
  match g.home with
  | .tile => s.setCore c ((s.core c).tileWrite g.addr data mask)
  | _ =>
    if buffers s c g then
      let k := s.core c
      s.setCore c { k with det := { k.det with writes := insertDet ⟨place, g, data, mask⟩ k.det.writes } }
    else if g.isRemote then s
    else storeLocal s g.attr.cmp g.addr data mask

/-- Performs the parts of a store that no request carries. -/
def writeSegs (s : State) (c place : Nat) : List Seg → List Byte → List Bool → State
  | [], _, _ => s
  | g :: t, data, mask =>
    writeSegs (writeSeg s c place g (data.take g.len) (mask.take g.len)) c place t (data.drop g.len) (mask.drop g.len)

end Sys2Proof.Machine
end

