-- ==== Sys2Proof/Machine/Window.lean ====
section
/-! DEFINITION. M's command window: the records of commands (R290), which command may issue (R288, R289), and which rows of the port
may begin their passage (R293). -/

namespace Sys2Proof.Machine

/-! ## Records of commands (R290) -/

def Core.allCmds (k : Core) : List Cmd := k.ms.window ++ k.ms.records

/-- The youngest of some commands. -/
def youngest : List Cmd → Option Cmd
  | [] => none
  | c :: t => match youngest t with | none => some c | some d => if c.seq < d.seq then some d else some c

def Core.cmdOf (k : Core) (cid : Nat) : Option Cmd := youngest (k.allCmds.filter (fun c => c.cid == cid))
def Core.cmdSeq (k : Core) (seq : Nat) : Option Cmd := k.allCmds.find? (fun c => c.seq == seq)

def MOp.acc? : MOp → Option Nat
  | .run a _ _ _ _ _ _ _ | .anch a _ _ _ | .anch4 a _ _ _ _ | .zero a _ | .drn a _ _ _ _ _ _ _ _ => some a
  | _ => none

def MOp.wb? : MOp → Option Nat
  | .wld w _ _ _ _ | .wlds w _ _ _ _ _ | .run _ w _ _ _ _ _ _ => some w
  | _ => none

def MOp.isRun : MOp → Bool
  | .run .. => true
  | _ => false

/-- The e halves a command reads: MWLDS its L half, and its H half when the masks pass 512 bytes (R301); MRUN that of `.cm`. -/
def MOp.halves : MOp → List Nat
  | .wlds _ _ k n e _ => if 512 < n * k / 8 then [2 * e, 2 * e + 1] else [2 * e]
  | .run _ _ _ _ _ _ _ (some h) => [h]
  | _ => []

/-- The expected count of an MRUN. -/
def Cmd.expect (c : Cmd) : Nat := match c.op with | .run _ _ e _ _ _ _ _ => e | _ => 0
def Cmd.complete (c : Cmd) : Bool := c.expect ≤ c.received + c.absent

/-! ## Issue (R288, R289) -/

/-- Conditions 1 to 4 of R288 with R289 for an entered command; `older` stand before it in the window. -/
def qualifies (k : Core) (older : List Cmd) (c : Cmd) : Bool :=
  c.state == .entered &&
    c.after.all (fun q => !k.ms.window.any (fun d => d.seq == q)) &&
    older.all (fun d =>
      let shared := (c.op.acc?.isSome && c.op.acc? == d.op.acc?) || (c.op.wb?.isSome && c.op.wb? == d.op.wb?)
      !shared || (c.op.isRun && d.op.isRun && d.state != .entered)) &&
    k.hasTokens (takeFifos .m c.take) &&
    older.all (fun d => d.state != .entered || !(takeFifos .m d.take).any (takeFifos .m c.take).contains) &&
    c.op.halves.all k.ms.efull.contains

/-- The oldest qualifying command. -/
def oldestFit (k : Core) : List Cmd → List Cmd → Option Cmd
  | _, [] => none
  | older, c :: t => if qualifies k older c then some c else oldestFit k (older ++ [c]) t

/-- A resumed command that checks again: one that has read what it reads of its e halves, or whose halves are full (R301, R302). -/
def recheck (k : Core) : Option Cmd :=
  k.ms.window.find? (fun c => c.state == .issued && !c.checked && (c.colmask.isSome || c.op.halves.all k.ms.efull.contains))

/-- A command issues, or checks again, now. -/
def Core.issues (k : Core) : Bool := (recheck k).isSome || (oldestFit k [] k.ms.window).isSome

/-! ## The port (R293) -/

def Core.feed? (k : Core) (id : Nat) : Option Feed := k.ms.feeds.find? (fun f => f.id == id)

/-- The first row of the port with its feed and the command that the feed is bound to, if that row may begin its passage. -/
def Core.portHead (k : Core) : Option (Row × Feed × Cmd) :=
  match k.ms.port with
  | [] => none
  | r :: _ =>
    match k.feed? r.feed with
    | none => none
    | some f =>
      match f.bound.bind k.cmdSeq with
      | none => none
      | some c => if c.state == .suspended || (c.state == .issued && !c.checked) then none else some (r, f, c)

/-- The oldest MRUN that is not satisfied (R293). -/
def nextRun (k : Core) : Option Cmd := k.ms.window.find? (fun c => c.op.isRun && !c.complete)

/-- The MRUN that binds the next unbound feed now, with that feed: it has issued and holds no feed with rows to come (R293). -/
def Core.binds (k : Core) : Option (Cmd × Feed) :=
  match nextRun k with
  | none => none
  | some c =>
    if c.state != .issued || !c.checked || k.ms.feeds.any (fun f => f.bound == some c.seq) then none
    else (k.ms.feeds.find? (fun f => f.bound.isNone)).map (fun f => (c, f))

/-! ## Accumulators and the results of rows (R284, R296, R297) -/

def AccRow.zero : AccRow := ⟨0, 0, []⟩
def Core.accTile (k : Core) (n : Nat) : AccTile := tget k.ms.acc n ⟨.f32, []⟩

/-- The accumulator row that a row's write reads, as `badAcc` numbers it: every mode reads it but P, which in anc keeps its anchor. -/
def Passage.reads (k : Core) (p : Passage) : Option Nat :=
  match p.op, p.target with
  | .run acc _ _ _ mode _ _ _, some r => if mode = .p && (k.accTile acc).fmt != .anc then none else some (256 * acc + r)
  | _, _ => none

/-- A row's write meets an uncorrectable error in its accumulator row (R221). -/
def Passage.lost (k : Core) (p : Passage) : Bool := match p.reads k with | some i => k.ms.badAcc.contains i | none => false

/-- A row stands in the array with such an error while its command is suspended for it. -/
def Passage.stuck (k : Core) (p : Passage) : Bool :=
  p.lost k && (match k.cmdSeq p.cmd with | some c => c.state == .suspended | none => false)

/-- The row at the head of the port belongs to a command: its header check comes before the command's completing row is written
(R297, R312). -/
def Core.headOf (k : Core) (seq : Nat) : Bool := match k.portHead with | some (_, _, c) => c.seq == seq | none => false

/-- In gauge mode a row of a feed begins in every cycle and a result is written 132 cycles after its row began: the rows that follow a
completing row in that time are checked before it is written (R297, R312). -/
def Passage.followed (k : Core) (p : Passage) : Bool :=
  k.m.gauge && (match k.feed? p.row.feed with
    | none => false
    | some f => (List.range (min (f.total - (p.row.seq + 1)) 132)).any (fun i => !f.checkedRows.contains (p.row.seq + 1 + i)))

def Passage.isNp2 (p : Passage) : Bool := match p.op with | .run _ _ _ _ _ _ .np2 _ => true | _ => false

/-- No row of lower seq of the feed may still come before a row under np2 (R296). -/
def Passage.inTurn (k : Core) (p : Passage) : Bool :=
  (match k.cmdSeq p.cmd with | some c => c.complete || c.state == .cancelled | none => true) ||
    (match k.feed? p.row.feed with | none => true | some f => (List.range p.row.seq).all f.checkedRows.contains)

/-- Whether the result of a row may be written: under np2 every lower seq of its feed has passed its check, and no row before
it in (feed, seq) order is still in the array; otherwise the rows of a command keep their order (R296). -/
def mayWrite (k : Core) (before : List Passage) (p : Passage) : Bool :=
  !p.stuck k && !(p.last && (k.headOf p.cmd || p.followed k)) &&
    (if p.isNp2 then
      p.inTurn k && !k.ms.array.any (fun q => q.cmd == p.cmd && !q.stuck k &&
        (q.row.feed < p.row.feed || (q.row.feed == p.row.feed && q.row.seq < p.row.seq)))
    else !before.any (fun q => q.cmd == p.cmd && !q.stuck k))

/-- The first passage whose result may be written, with its place. -/
def firstWritable (k : Core) : Nat → List Passage → List Passage → Option (Nat × Passage)
  | _, _, [] => none
  | i, before, p :: t => if mayWrite k before p then some (i, p) else firstWritable k (i + 1) (before ++ [p]) t

/-- No row of the array goes on by itself: products wait for rows of lower seq, or stand at an error (R296, R308). -/
def Core.arrayRests (k : Core) : Bool := (firstWritable k 0 [] k.ms.array).isNone

end Sys2Proof.Machine
end

