-- ==== Sys2Proof/Machine/Jobs.lean ====
section
/-! DEFINITION. What ends: handles and objects (R393, R394, R399, R401), jobs (R139, R208), waves and launches (R413, R415,
R459), and holds (R378 to R382). Messages to the host (R433, R434). -/

namespace Sys2Proof.Machine

/-! ## Objects -/

/-- The reclamation record of R401. -/
def reclaimRecord (o : Obj) : List Word :=
  [o.name, BitVec.ofNat 64 (o.desc.pkg * 2 ^ 44 + o.desc.pa), BitVec.ofNat 64 o.desc.size, BitVec.ofNat 64 o.binder.1]

/-- Whether the context that bound an object still lives. -/
def binderLives (s : State) (o : Obj) : Bool := (s.ctx o.binder.1).live && (s.ctx o.binder.1).gen == o.binder.2

/-- Frees an object's slot and writes its record to the binder's completion area, or sends it to the host (R401). -/
def reclaim (s : State) (id : Nat) (o : Obj) : State :=
  let words := reclaimRecord o
  let s1 : State := { s with objs := tdel s.objs id }
  let x := s1.ctx o.binder.1
  if !binderLives s o || (x.dw 4) = 0 || (x.dw 5) = 0 then say s1 (contextEvent o.binder.1 2 words)
  else
    ringWrite s1 o.binder.1 (x.dw 4).toNat (x.dw 5).toNat (words.flatMap (fun w => bytesOf 8 w.toNat))
      (.reclaim o.binder.1 o.binder.2 words)

/-- Takes one handle off an object; the last one of an orphan reclaims it (R393, R399). -/
def dropHandle (s : State) (id : Nat) : State :=
  match tfind s.objs id with
  | none => s
  | some o =>
    let o1 := { o with count := o.count - 1 }
    if o1.count = 0 && !o1.bound then reclaim s id o1 else { s with objs := tset s.objs id o1 }

/-- Frees a slot of a context's handle table and takes the handle off its object. -/
def closeSlot (s : State) (ctx slot : Nat) : State :=
  let x := s.ctx ctx
  match tfind x.handles slot with
  | none => s
  | some id => dropHandle (s.setCtx ctx { x with handles := tdel x.handles slot }) id

/-- An object loses its name: orphan, or reclaimed when no handle is on it (R393). -/
def unbind (s : State) (id : Nat) : State :=
  match tfind s.objs id with
  | none => s
  | some o =>
    if o.count = 0 then reclaim s id { o with bound := false }
    else { s with objs := tset s.objs id { o with bound := false } }

def closeSlots (ctx : Nat) : List Nat → State → State
  | [], s => s
  | slot :: t, s => closeSlots ctx t (closeSlot s ctx slot)

/-- Removes a stream from the waiters of every awaited name; an awaited entry left without one becomes free (R398). -/
def unwait (s : State) (c : Nat) : State :=
  let es := s.entries.map (fun e => { e with waiters := e.waiters.filter (fun w => w != c) })
  { s with entries := es.filter (fun e => e.obj.isSome || !e.waiters.isEmpty) }

/-! ## Launches -/

/-- The product of the counts of the serial levels: the waves of a launch (R415). -/
def Rec.waves (r : Rec) : Nat := r.levels.foldl (fun n l => if l.domain = 5 then n * l.count else n) 1

/-- The packages a launch spans: the count of its package level (R457). -/
def Rec.packages (r : Rec) : Nat := r.levels.foldl (fun n l => if l.domain = 1 then n * l.count else n) 1

/-- The clusters a launch needs on a package, from its levels alone (R425). -/
def Rec.clusterNeed (r : Rec) : Nat :=
  r.levels.foldl (fun n l => if l.domain = 2 || l.domain = 3 then n * l.count
    else if l.domain = 4 then n * ((l.count + 15) / 16) else n) 1

/-- The place of a sender as its context event gives it: package, and core x + 32 y. -/
def senderPlace (m : MboxMsg) : Word := BitVec.ofNat 64 (m.srcPkg * 4096 + m.srcCore)

/-- A mailbox write is discarded, and the host hears of it (R136, R433). -/
def discardMail (s : State) (m : MboxMsg) : State := say s (contextEvent m.ctx 1 [senderPlace m, m.value])

/-- Cores without a job are no longer reserved for the wave for which they hold writes: those are discarded and reported (R136 names this
only of a write that arrives; DESIGN CHOICE, log 22). -/
def dropHeld : List Nat → State → State
  | [], s => s
  | c :: t, s =>
    let k := s.core c
    dropHeld t (if k.job.isSome || k.holding.isEmpty then s
      else k.holding.foldl discardMail (s.setCore c { k with holding := [] }))

/-- A launch is no longer one of the running ones; its clusters keep their regime until another launch needs it changed (R424). -/
def forgetLaunch (s : State) (record : Nat) : State :=
  let rest := s.launches.filter (fun l => l.record != record)
  let cs := (s.launches.filter (fun l => l.record == record)).flatMap (fun l => l.cores.map Prod.fst)
  dropHeld (cs.filter (fun c => !rest.any (fun l => l.cores.any (fun p => p.1 == c)))) { s with launches := rest }

/-- Completion of a launch at the hub: armed cleared, completions up by 1, message 0x90 (R413, R433). -/
def completeLaunch (s : State) (record : Nat) : State :=
  let r := s.lrec record
  let r1 := (r.setD 0 (setField (r.d 0) 9 9 0)).setD 14 (setField (r.d 14) 63 32 (r.completions + 1))
  say (forgetLaunch (s.setLrec record r1) record) (.launchComplete record r.ctx ((r.completions + 1) % 2 ^ 32))

/-- A launch between two waves. -/
def Launch.nextWave (l : Launch) : Launch :=
  { l with
    wave := l.wave + 1, started := false, index := 0, grants := [], sent := false, due := [], begun := [], loaded := none, done := [],
    contribs := [], timed := [], completed := [], remoteBars := [], released := [], endedOn := [] }

/-- The healthy dies of the packages of a launch, numbered package · 4 + die: the first leads it, the second is the next in line (R418,
R419, R457). -/
def Launch.line (s : State) (l : Launch) : List Nat :=
  (l.packages.flatMap (fun p => (List.range 4).map (fun d => 4 * p + d))).filter (fun d => !s.failedDies.contains d)

/-- The package of the die that leads a launch. -/
def Launch.leader (s : State) (l : Launch) : Nat := ((l.line s).map (fun d => d / 4)).headD (l.packages.headD s.pkgId)

/-- Updates a launch that runs, or one whose part in this package is saved (R420). -/
def State.mapAway (s : State) (record : Nat) (f : Launch → Launch) : State :=
  if s.launches.any (fun l => l.record == record) then s.mapLaunch record f
  else
    { s with lifelines := s.lifelines.map (fun h => if h.launch.record == record then { h with launch := f h.launch } else h) }

/-- A launch that runs, or whose part in this package is saved. -/
def State.known? (s : State) (record : Nat) : Option Launch :=
  match s.launches.find? (fun l => l.record == record) with
  | some l => some l
  | none => (s.lifelines.find? (fun h => h.launch.record == record)).map Lifeline.launch

def tellOver (record : Nat) : List Nat → State → State
  | [], s => s
  | p :: t, s => tellOver record t (if p = s.pkgId then s else emit s (.barRelease p record 0))

/-- The leader learns that the part of a package has ended. When every part has, the next wave may start, or the launch
completes on every package (R415, R459). -/
def partEnded (s : State) (record pkg : Nat) : State :=
  let s1 := s.mapAway record (fun l => { l with endedOn := pkg :: l.endedOn })
  match s1.launches.find? (fun l => l.record == record) with
  | none => s1
  | some l =>
    if !l.packages.all l.endedOn.contains then s1
    else if l.wave + 1 < (s1.lrec record).waves then s1.mapLaunch record Launch.nextWave
    else completeLaunch (tellOver record l.packages s1) record

/-- A launch whose context has ended here is over in this package (R406). Of one that spans packages every job of this part has ended: the
leader hears of it, and a package that leads waits for the parts of the others before it tells them of the completion (R459). -/
def leaveLaunch (s : State) (l : Launch) : State :=
  let s1 := forgetLaunch s l.record
  if l.packages.length ≤ 1 || l.begun.isEmpty then s1
  else if l.leader s != s.pkgId then emit s1 (.barArrive (l.leader s) l.record 0 0 l.wave)
  else
    let m : Launch := { l with cores := [], clusters := [], endedOn := s.pkgId :: l.endedOn }
    if m.packages.all m.endedOn.contains then tellOver l.record l.packages s1 else { s1 with leftLaunches := s1.leftLaunches ++ [m] }

def leaveLaunches : List Launch → State → State
  | [], s => s
  | l :: t, s => leaveLaunches t (leaveLaunch s l)

/-- Every job of the wave has ended: the next wave may start, or the launch completes; one whose context ends is over (R406). Of a launch
that spans packages this is the package's part, and its leader hears of it. -/
def waveEnded (s : State) (l : Launch) : State :=
  let more := decide (l.wave + 1 < (s.lrec l.record).waves)
  let next := if more then s.mapLaunch l.record Launch.nextWave else s
  if !(s.lrec l.record).armed then leaveLaunch s l
  else if (s.lrec l.record).packages ≤ 1 then (if more then next else completeLaunch s l.record)
  else if l.leader s = s.pkgId then partEnded s l.record s.pkgId
  else emit next (.barArrive (l.leader s) l.record 0 0 l.wave)

/-- A job of a launch has ended on a core. -/
def jobDone (s : State) (record c : Nat) : State :=
  let s1 := s.mapLaunch record (fun l => { l with done := c :: l.done })
  match s1.launches.find? (fun l => l.record == record) with
  | none => s1
  | some l =>
    if l.cores.all (fun p => l.done.contains p.1) && s.whole record then waveEnded s1 l
    else s1

/-! ## Jobs -/

/-- Nothing of a quantum is buffered (R369). -/
def DetBuf.clean (d : DetBuf) : Bool := d.writes.isEmpty && d.counted == 0 && d.atomic.isNone && !d.ended

def XferOp.isFeed : XferOp → Bool
  | .feed .. => true
  | _ => false

/-- A command that takes rows and has not had them all. -/
def Cmd.takesRows (c : Cmd) : Bool :=
  match c.op with
  | .run _ _ expect _ _ _ _ _ => c.state != .suspended && decide (c.received + c.absent < expect)
  | _ => false

/-- A command that stands still: it is suspended, it has not issued and cannot, or it takes rows and none comes. -/
def Core.stands (k : Core) (feeds : Bool) (c : Cmd) : Bool :=
  c.state == .suspended || (!k.issues && (c.state == .entered || !c.checked)) || (c.takesRows && !feeds)

/-- The core has nothing of its job left that can still go on: values, transfers, commands, rows, scans, buffered writes (R208).
A feed without a command that takes its rows stands still, and so does such a command without a feed. -/
def Core.settled (k : Core) : Bool :=
  let rows := k.ms.window.any Cmd.takesRows
  let feeds := k.as.xfers.any (fun p => !p.2.suspended && p.2.op.isFeed) || !k.ms.port.isEmpty
  k.a.pend.isEmpty && k.x.pend.isEmpty && k.m.pend.isEmpty && k.xs.scans.isEmpty && k.arrayRests &&
    k.det.writes.isEmpty && k.det.atomic.isNone && k.portHead.isNone &&
    k.as.xfers.all (fun p => p.2.suspended || (p.2.op.isFeed && !rows)) &&
    k.ms.window.all (k.stands feeds)

def Core.allEnded (k : Core) : Bool :=
  match k.job with
  | none => false
  | some j => j.streams.all (fun e => (k.stream e).run == .ended)

/-- What ending a job discards on its core: tokens, queue entries, mailbox values, held writes, transfers and commands
(R139, R208). The registers and the tile store keep their values until the next job starts. -/
def Core.clearJob (k : Core) : Core :=
  { k with
    job := none, held := false, stopped := false, q := [], w := [], tokens := [], reserved := [], mbox := [],
    holding := [],
    as := { k.as with xfers := [], h := [] },
    ms := { k.ms with window := [], feeds := [], port := [], array := [] },
    xs := { k.xs with scans := [] }, det := DetBuf.reset, pairs := [] }

/-- The writes of a core's own A stream to its own mailboxes that are held behind remote stores end with its job, as mailbox values do
(R139, R465). -/
def dropOwnReleases (s : State) (c : Nat) : State :=
  { s with releases := s.releases.filter (fun r => match r with
      | .mail m => !(m.srcPkg == s.pkgId && m.srcCore == c && m.dstPkg == s.pkgId && m.dstCore == c)
      | .atomic _ => true) }

/-- The job of a core ends once its streams have ended and its work has settled: its handles are closed, what it leaves
is discarded, and its launch hears of it (R139, R206, R394). -/
def tryEndJob (s : State) (c : Nat) : State :=
  let k := s.core c
  match k.job with
  | none => s
  | some j =>
    if k.allEnded && k.settled then
      let s1 := closeSlots j.ctx (k.as.h.map Prod.snd) (unwait (dropOwnReleases s c) c)
      jobDone (s1.setCore c (s1.core c).clearJob) j.record c
    else s

def endStreams (k : Core) : List Eng → Core
  | [] => k
  | e :: t => endStreams (k.setStream e { k.stream e with run := .ended, at_ := .free, late := [] }) t

/-- What runs on when a core's job ends with fatal status: transfers and commands. Scans and the buffered writes of an open quantum are
dropped. -/
def Core.killed (k : Core) (es : List Eng) : Core :=
  let k1 := endStreams { k with a := { k.a with pend := k.a.pend.filter (fun p => k.det.atomic != some p.id) } } es
  { k1 with
    held := false, stopped := false, det := DetBuf.reset, xs := { k1.xs with scans := [] } }

/-- Ends a core's job with fatal status: its streams stop, its transfers and commands run until they complete or fault,
and then the job ends (R379, R382, R406, R419). -/
def killJob (s : State) (c : Nat) : State :=
  let k := s.core c
  match k.job with
  | none => s
  | some j => tryEndJob ((unwait s c).setCore c (k.killed j.streams)) c

def killJobs : List Nat → State → State
  | [], s => s
  | c :: t, s => killJobs t (killJob s c)

/-! ## Holds -/

/-- The cores of a context's jobs in the domain that a hold covers: the faulting core, or in gauge mode every core of the
domain on the die (R378). -/
def heldCores (s : State) (ctx die c : Nat) (gauge : Bool) : List Nat :=
  if gauge then
    (s.cores.map Prod.fst).filter (fun d => dieOf d == die && (s.core d).job.isSome && (s.core d).ctx == ctx)
  else [c]

/-- Cores that a hold covers; the count of cycles, local ones, runs from the first fault of a core's hold (R336, R378). -/
def markHeld : List Nat → State → State
  | [], s => s
  | c :: t, s =>
    let k := s.core c
    markHeld t (if k.held then s
      else s.setCore c { k with held := true, heldSince := s.localCount (clusterOf c) })

/-- Ends the freezes that faults of these cores hold on clusters. -/
def thawFaults : List Nat → List Nat → State → State
  | [], _, s => s
  | c :: t, gs, s =>
    thawFaults t gs (thawAll (.fault c .m) gs (thawAll (.fault c .x) gs (thawAll (.fault c .a) gs s)))

/-- A fatal fault of a stream (R119): the stream is held, and a hold of its context on the die starts or is joined; a
ninth hold is summary-only and ends the jobs at once (R378, R381, R382). -/
def fatal (s : State) (w : Who) (cause : Nat) : State :=
  let t := s.stream w
  let s0 := s.setStream w { t with run := .held }
  let ctx := (s.core w.core).ctx
  let die := dieOf w.core
  let gauge := t.gauge
  let cover := heldCores s ctx die w.core gauge
  let hold1 (s : State) : State :=
    let s1 := markHeld cover s
    if gauge then freezeAll .hold (s.domain ctx die) s1 else s1
  let joined (h : Hold) : Hold :=
    { h with later := h.later + 1, causes := if h.causes.length < 4 then h.causes ++ [cause] else h.causes }
  if s.holds.any (fun h => h.ctx == ctx && h.die == die) then
    hold1 { s0 with holds := s0.holds.map (fun h => if h.ctx == ctx && h.die == die then joined h else h) }
  else
    let h : Hold := ⟨ctx, die, gauge, cause, w.eng.code, w.core, t.epc, t.tval,
      BitVec.ofNat 64 (s.jobCount w.core), 0, [], 0, s.clock⟩
    if (s.holds.filter (fun h => h.die == die)).length < 8 then
      let s1 := say (s0.count (ctrHold die) 1) (.hold (holdRecord s0 h false))
      hold1 { s1 with holds := s1.holds ++ [h] }
    else
      killJobs cover (thawFaults cover (s.domain ctx die) (say (s0.count (ctrSummary die) 1) (.hold (holdRecord s0 h true))))

/-- How an image version lays out a section of a job image after its header, by the section's number in the table of R422. -/
opaque Config.imageSection : Nat → Core → List Byte

/-- The lengths of those sections in the table's order (R422): scalar, special, loop and window state with transfers, FIFOs and
mailboxes; q and w with their masks; v and p; e and the weight buffers; the accumulators; the tile store. -/
def imageSections : List Nat := [0xF000, 0x19000, 0x5000, 0x9000, 0xC9000, 0x80000]

/-- The lifeline image of the job of a core (R422): in the header the version and the named fields, whose places after the version the
spec does not give, and the version's own bytes; then the sections, each at its offset. -/
def jobImage (s : State) (c : Nat) : List Byte :=
  let k := s.core c
  let mask := match k.job with | some j => j.streams.foldl (fun m e => m + 2 ^ e.code) 0 | none => 0
  [Config.imageVersion] ++ fit 0xFFF (Config.jobHeader [k.ctx, k.lidx, k.record, mask, s.jobCount c]) ++
    imageSections.zipIdx.flatMap (fun p => fit p.1 (Config.imageSection p.2 k))

/-- Cores in ascending order of their logical indices. -/
def byLidx (s : State) (cs : List Nat) : List Nat := sortBy (fun c => (s.core c).lidx) cs

/-- The end of a hold (R379): the images of the held jobs, in ascending order of their logical indices and as far as they fit, to the
dump area when the context has one (DEDUCED for several jobs, log 53), the hold record to the host, the held jobs end with fatal
status, and the cores are free. Uncorrectable errors in a dumped core are no cause (R10; DESIGN CHOICE, log 41). -/
def endHold (s : State) (i : Nat) : State :=
  match s.holds[i]? with
  | none => s
  | some h =>
    let cover := (heldCores s h.ctx h.die h.core h.gauge ++
      (s.cores.map Prod.fst).filter (fun d => (s.core d).held && dieOf d == h.die)).filter (fun d =>
        (s.core d).job.isSome && (s.core d).ctx == h.ctx)
    let x := s.ctx h.ctx
    let s0 : State := { s with holds := ldel s.holds i }
    let s1 := if x.dw 6 = 0 then say s0 (.hold (holdRecord s0 h false))
      else dumpWrite s0 h (x.dw 6).toNat (((byLidx s cover.eraseDups).flatMap (jobImage s)).take (x.dw 7).toNat)
    killJobs cover (thawFaults cover (s1.domain h.ctx h.die) (thawAll .hold (s1.domain h.ctx h.die) s1))

end Sys2Proof.Machine
end

