-- ==== Sys2Proof/Machine/Ops.lean ====
section
/-! DEFINITION. How an instruction ends: the results of a meaning, the loop check after completion (R131, R166), the loop
exit record (R228), taking an exception and returning from one (R118, R119), and the checks that several forms share. -/

namespace Sys2Proof.Machine

abbrev Out := Host.Outcome State Fault Refusal

/-- Where control goes when an instruction has issued: to the next instruction, to a target (by CALL or JR.lk when `call`),
or it stands at its instruction until an event completes it, in the given run state. -/
inductive Flow where
  | seq
  | jump (target : Word) (call : Bool)
  | stay (run : RunState)
  deriving DecidableEq, Repr

/-- The result of a meaning: a state and a flow; not issued, waiting or descheduled on mailboxes (R103, R107, R116); a cause with no
effect; or a cause after the effects its description states before the fault (R76). -/
inductive Res where
  | ok (s : State) (f : Flow)
  | wait
  | desched (mboxes : List Nat)
  | raise (cause : Nat) (tval : Word)
  | raiseIn (s : State) (cause : Nat) (tval : Word)
  deriving Repr

/-! ## The loop check (R131, R166) -/

/-- What the check answers: the core, the next pc, whether it waits for a counter, and the ends of the loops left. -/
structure LoopRes where
  core : Core
  next : Word
  waits : Bool
  exits : List Word
  deriving DecidableEq, Repr

def Core.setLoops (k : Core) (e : Eng) (l : List LoopEnt) : Core := k.setStream e { k.stream e with loops := l }

/-- AfterCompletion over the entries, innermost first; `ctl`: the instruction transferred control, `call`: by CALL or
JR.lk. -/
def afterCompletion (e : Eng) (addr next : Word) (ctl call : Bool) : Core → List LoopEnt → List Word → LoopRes
  | k, [], ex => ⟨k.setLoops e [], next, false, ex⟩
  | k, ent :: t, ex =>
    if addr.toNat < ent.start.toNat || ent.stop.toNat < addr.toNat then ⟨k.setLoops e (ent :: t), next, false, ex⟩
    else if addr = ent.stop && !ctl then
      if ent.pipelined then
        let k1 : Core := { k with xs := { k.xs with spass := BitVec.ofNat 64 ((k.xs.spass.toNat + 1) % 2 ^ 33) } }
        if k1.xs.spass.toNat < k1.xs.skern.toNat + k1.xs.sdrain.toNat then
          ⟨k1.stages.setLoops e (ent :: t), ent.start, false, ex⟩
        else afterCompletion e addr next ctl call k1 t ex
      else if !(k.stream e).full ent.ctr then ⟨k.setLoops e (ent :: t), next, true, ex⟩
      else
        let c := (k.stream e).reg ent.ctr - 1
        let k1 := k.setReg e ent.ctr c
        if c ≠ 0 then ⟨k1.setLoops e (ent :: t), ent.start, false, ex⟩
        else afterCompletion e addr next ctl call k1 t (ex ++ [ent.stop])
    else if ent.start.toNat ≤ next.toNat && next.toNat ≤ ent.stop.toNat then ⟨k.setLoops e (ent :: t), next, false, ex⟩
    else if call then ⟨k.setLoops e (ent :: t), next, false, ex⟩
    else afterCompletion e addr next ctl call k t (ex ++ [ent.stop])

/-- The record of a loop exit (R228). -/
def exitRecord (s : State) (c : Nat) (stop : Word) : List Byte :=
  bytesOf 8 (s.jobCount c) ++ bytesOf 8 stop.toNat ++ bytesOf 2 (coreX c + coreY c * 256) ++
  bytesOf 2 (s.core c).ctx ++ (List.range 96).flatMap (fun i => bytesOf 4 (tget (s.core c).conflicts i 0))

/-- Writes a record for each loop that the A stream left; a full or disabled buffer drops it (R228). -/
def writeExits (c : Nat) : List Word → State → State
  | [], s => s
  | stop :: t, s =>
    writeExits c t (if s.sniferOn && s.snifer.length < Config.sniferCapacity then
      { s with snifer := s.snifer ++ [exitRecord s c stop] } else s)

def Meet.isIdle : Meet → Bool
  | .idle _ => true
  | _ => false

/-- The state of a stream whose instruction completes. A stream of a held core that has come to wait at its instruction issues nothing
further (R378); IDLE is no wait of R116. -/
def runAfter (k : Core) (t : Stream) : RunState := if k.held && t.run != .running && !t.at_.isIdle then t.run else .running

/-- Completes the instruction at `addr` of a stream, whose next pc is `next`. -/
def retireAt (w : Who) (addr next : Word) (ctl call : Bool) (s : State) : State :=
  let k := s.core w.core
  let r := afterCompletion w.eng addr next ctl call k (k.stream w.eng).loops []
  let t := r.core.stream w.eng
  let t1 := if r.waits then { t with run := .waiting, at_ := .edge addr next }
    else { t with pc := r.next, run := runAfter k t, at_ := .free }
  let s1 := s.setCore w.core (r.core.setStream w.eng t1)
  if w.eng = .a then writeExits w.core r.exits s1 else s1

/-- Completes the instruction that a stream stands at, `len` bytes long, without a transfer of control. -/
def retire (w : Who) (len : Nat) (s : State) : State :=
  let pc := (s.stream w).pc
  retireAt w pc (pc + BitVec.ofNat 64 len) false false s

/-! ## Taking an exception and returning (R118, R119) -/

/-- Takes the trap of a cause at the stream's pc: `epc`, `cause`, `tval` and `status` are written and the pc goes to
`tvec`. A cause in supervisor mode is fatal with nothing overwritten; one with `tvec` = 0 is fatal after the registers
are written (R118, R119, R416). In gauge mode the domain freezes while the handler runs (R231). A race conflict that traps is
counted (R383). -/
def takeTrap (s : State) (w : Who) (cause : Nat) (tval : Word) : State :=
  let t := s.stream w
  let s := if cause = 0x40 then s.count (ctrRaceTrap (dieOf w.core)) 1 else s
  if t.super then fatal s w cause
  else
    let t1 := { t.setMode true false with
      epc := t.pc, cause := BitVec.ofNat 64 cause, tval := tval, at_ := .free, run := .running }
    if t.tvec = 0 then fatal (s.setStream w t1) w cause
    else
      let s1 := s.setStream w { t1 with pc := t.tvec }
      if t.gauge then freezeAll (.fault w.core w.eng) (s1.domain (s1.core w.core).ctx (dieOf w.core)) s1 else s1

/-- Resumes the transfers and commands whose causes the ended handler served (R243, R290). -/
def resumeLate : List Late → Core → Core
  | [], k => k
  | l :: t, k =>
    let k1 : Core := match l.slot with
      | some i => { k with as := { k.as with xfers := k.as.xfers.map (fun p =>
          if p.1 = i then (p.1, { p.2 with suspended := false }) else p) } }
      | none => k
    let k2 : Core := match l.cmd with
      | some q => { k1 with ms := { k1.ms with window := k1.ms.window.map (fun c =>
          if c.seq = q && c.state = .suspended then { c with state := .issued } else c) } }
      | none => k1
    resumeLate t k2

/-- A pc is a multiple of 4 (R37): the model clears bits [1:0] of an `epc` and of a record's code address, for which the spec names
no check (DESIGN CHOICE, log 80). -/
def alignPc (v : Word) : Word := BitVec.ofNat 64 (v.toNat / 4 * 4)

/-- The wait to which a stream returns, if it goes on at the instruction at which a late cause met it (R231, R243). -/
def Stream.stoodAt (t : Stream) (pc : Word) : Option (Word × Meet) := t.stood.filter (fun m => m.1 == pc)

/-- Eret (R118): mode from pmode, pmode 0, pc from `epc`; suspended work resumes; in gauge mode the domain thaws, once no further cause
of the stream is to be taken (R231, R233, R243). ERET lies outside every loop body (R131). -/
def eret (s : State) (w : Who) : State :=
  let t := s.stream w
  let pc := alignPc t.epc
  let t1 := { t.setMode (flag t.status 1) false with
    pc := pc, run := .running, at_ := .free, taken := [], stood := t.stoodAt pc }
  let s1 := s.setCore w.core (resumeLate t.taken ((s.core w.core).setStream w.eng t1))
  if t.gauge && t.late.isEmpty then thawAll (.fault w.core w.eng) (s1.domain (s1.core w.core).ctx (dieOf w.core)) s1 else s1

/-- Takes the first late cause of a stream (R241, R243, R291). What the instruction at its pc has asked other packages for is forgotten,
since it is issued anew (R239). -/
def takeLate (s : State) (w : Who) : State :=
  let t := s.stream w
  match t.late with
  | [] => s
  | l :: rest =>
    takeTrap (dropReqs (s.setStream w { t with late := rest, taken := t.taken ++ [l] }) (.instr w.core w.eng)) w l.cause l.tval

/-- Adds a late cause to a stream. In gauge mode the domain freezes as the fault is detected (R231); a stream that has ended or is held
takes no cause. -/
def addLate (s : State) (w : Who) (l : Late) : State :=
  let t := s.stream w
  let s1 := s.setStream w { t with late := t.late ++ [l] }
  if t.gauge && !t.super && t.run != .ended && t.run != .held then
    freezeAll (.fault w.core w.eng) (s1.domain (s1.core w.core).ctx (dieOf w.core)) s1
  else s1

/-! ## The end of an instruction -/

/-- A stream that has not issued its instruction. -/
def standAs (w : Who) (r : RunState) (s : State) : State := s.setStream w { s.stream w with run := r }

/-- The outcome of an instruction of `len` bytes from its result. -/
def finish (w : Who) (len : Nat) (s : State) : Res → Out
  | .ok s1 .seq => .next (retire w len s1)
  | .ok s1 (.jump t call) => .next (retireAt w (s.stream w).pc t true call s1)
  | .ok s1 (.stay r) => .next (standAs w r s1)
  | .wait => .next (standAs w .waiting s)
  | .desched ms => .next (s.setStream w { s.stream w with run := .descheduled, wants := ms })
  | .raise cause tval => .next (takeTrap s w cause tval)
  | .raiseIn s1 cause tval => .next (takeTrap s1 w cause tval)

/-- Reads registers of a stream: the instruction waits while one of them is empty (R103). -/
def needRegs (s : State) (w : Who) (ns : List Nat) (k : Res) : Res :=
  if ns.all (fun n => (s.stream w).full n) then k else .wait

def regOf (s : State) (w : Who) (n : Nat) : Word := (s.stream w).reg n

/-- Writes a scalar register of a stream. -/
def putReg (s : State) (w : Who) (n : Nat) (v : Word) : State := s.setCore w.core ((s.core w.core).setReg w.eng n v)

/-- An instruction that computes a register from registers. -/
def scalarForm (w : Who) (srcs : List Nat) (d : Nat) (v : Word) (s : State) : Out :=
  finish w 4 s (needRegs s w srcs (.ok (putReg s w d v) .seq))

/-- Whether the job of the acting core has streams on the engines that a field names (R206). -/
def enginesOk (s : State) (w : Who) (es : List Eng) : Bool := (s.core w.core).hasEngines es

/-- The check of R206 on the take and give fields of a long form: take stands at lsb 27 and give at 25 of word 2. -/
def partnerFault (i : Instr) (s : State) (w : Who) (take give : Nat) : Option Refused :=
  if !enginesOk s w (partners w.eng take) then some (0x02, opTval i true 27)
  else if !enginesOk s w (partners w.eng give) then some (0x02, opTval i true 25)
  else none

/-- Reserves the give slots of a form, or says why it cannot issue: 0x07 in gauge mode, a wait in rib mode (R211). -/
def reserveGive (s : State) (w : Who) (give : Nat) : Except Res State :=
  let k := s.core w.core
  let fs := giveFifos w.eng give
  match k.fullFifo fs with
  | some f => .error (if (s.stream w).gauge then .raise 0x07 (BitVec.ofNat 64 f) else .wait)
  | none => .ok (s.setCore w.core (k.reserve fs))

/-- A supervisor form in user mode raises 0x03 (R62). -/
def superOnly (i : Instr) (s : State) (w : Who) (r : Res) : Res :=
  if (s.stream w).super then r else .raise 0x03 (firstWord i)

end Sys2Proof.Machine
end

