-- ==== Sys2Proof/Machine/Flags.lean ====
section
/-! DEFINITION. How the flags of a result reach `qflags` (R66) and what an anchor overflow does (R76). The flags
themselves are computed beside each operation in Num.lean and VecOps.lean. -/

namespace Sys2Proof.Machine

/-- Whether a result's flags end its instruction with 0x23: a saturated window under `qflags.aovte` (R76). -/
def overflows (t : Stream) (flags : Word) : Bool := flags &&& fAovf != 0 && t.aovte

/-- Ends an instruction whose results are written: its flags are set, and it gives, or ends with 0x23 in place of its
give (R66, R76). Where the write follows an older one that has not landed (`late`), the write gives (R103, R210). -/
def endWith (w : Who) (flags : Word) (give : List Nat) (late : Bool) (s : State) : Res :=
  let t := s.stream w
  let s1 := s.setStream w (t.addFlags flags)
  let k := s1.core w.core
  if overflows t flags then .raiseIn (s1.setCore w.core (k.unreserve give)) 0x23 0
  else if late then .ok s1 .seq
  else .ok (s1.setCore w.core (k.giveReserved give)) .seq

/-- The same for a result that lands after its instruction has issued: 0x23 is taken before the next instruction. -/
def landWith (w : Who) (flags : Word) (give : List Nat) (s : State) : State :=
  let t := s.stream w
  let s1 := s.setStream w (t.addFlags flags)
  let k := s1.core w.core
  if overflows t flags then addLate (s1.setCore w.core (k.unreserve give)) w ⟨0x23, 0, none, none⟩
  else s1.setCore w.core (k.giveReserved give)

/-- A scalar float result: written with its flags; `dph` advances for rdi (R80, R159). -/
def scalarFloat (w : Who) (srcs : List Nat) (d : Nat) (rnd : Rnd) (r : Nat × Word) (s : State) : Out :=
  let t := s.stream w
  finish w 4 s (needRegs s w srcs
    (.ok (putReg (s.setStream w ((t.addFlags r.2).stepPhase rnd)) w d (BitVec.ofNat 64 r.1)) .seq))

end Sys2Proof.Machine
end

