-- ==== Sys2Proof/Machine/Operands.lean ====
section
/-! DEFINITION. Operand forms: the addresses of the access engine (R43, R49, R234), and the frame of the execute
engine's long forms (R33, R103 to R106, R153 to R156, R175, R179), written once for all of them. -/

namespace Sys2Proof.Machine

/-! ## Addresses of the access engine -/

/-- The registers that a base and an offset read. -/
def baseRegs : ABase → List Nat
  | .reg n => [n]
  | .handle _ => []

def offRegs : MOff → List Nat
  | .imm _ => []
  | .index r _ => [r]

/-- The slot that an h register names, if it is valid (R101). -/
def handleSlot (s : State) (w : Who) (h : Nat) : Option Nat := tfind (s.core w.core).as.h h

/-- The 0x15 of an invalid handle: `tval` is its code 32..47 (R240). -/
def badHandle (late : Bool) (h : Nat) : Refused := (0x15, accTval late (32 + h))

/-- A base as an address: a register's value, or an offset 0 in the object of a handle. -/
def baseAddr (s : State) (w : Who) : ABase → Except Refused Addr
  | .reg n => .ok (.va (regOf s w n).toNat)
  | .handle h =>
    match handleSlot s w h with
    | some slot => .ok (.obj slot 0)
    | none => .error (badHandle false h)

/-- The offset of the MA format in bytes: off9 times the width, or an index register shifted (R43). -/
def offBytes (s : State) (w : Who) (width : Nat) : MOff → Int
  | .imm o => o * width
  | .index r k => (regOf s w r).toInt * (2 ^ k : Nat)

/-- The address of an MA access (R43, R234). -/
def memAddr (s : State) (w : Who) (base : ABase) (width : Nat) (off : MOff) : Except Refused Addr :=
  match baseAddr s w base with
  | .error e => .error e
  | .ok a => .ok (a.plus (offBytes s w width off))

/-- The registers of an MA access. -/
def memRegs (base : ABase) (off : MOff) : List Nat := baseRegs base ++ offRegs off

/-! ## The frame of the X long forms -/

/-- The value of a source: a vector, a scalar or mailbox word, or the element index (R46). -/
inductive SVal where
  | vec (v : Vec)
  | word (x : Word)
  | lane
  deriving DecidableEq, Repr

/-- The source as a vector of elements of a type (R153). -/
def SVal.as (t : Ty) : SVal → Vec
  | .vec v => v
  | .word x => broadcast t.width x
  | .lane => laneVec t

/-- The source as a whole scalar: a count, a base or a carry (R153). -/
def SVal.word64 : SVal → Word
  | .word x => x
  | .vec v => v.setWidth 64
  | .lane => 0

/-- What a long form writes: a vector destination, or a predicate (R47). -/
inductive XTarget where
  | vec (d : XDst)
  | pred (p : Nat)
  deriving DecidableEq, Repr

/-- An X long form: its word, its control fields, its sources in operand order, its target, the rounding that steps `dph`,
whether it is a long-latency producer by itself, and whether its guard is an operand. -/
structure XForm where
  i : Instr
  ctl : XCtl
  srcs : List XSrc
  target : XTarget
  rnd : Rnd
  long : Bool
  guardOperand : Bool
  deriving DecidableEq, Repr

/-- The e half of a target. -/
def XTarget.half? : XTarget → Option Nat
  | .vec (.e h) => some h
  | _ => none

def XTarget.push? : XTarget → Option Nat
  | .vec (.w n) => some n
  | _ => none

/-- A form that an all-zero guard nullifies (R155). -/
def XForm.nullable (f : XForm) : Bool := !f.guardOperand && f.target.half?.isNone

/-- A form is a long-latency producer by itself or by a mailbox source (R102, R154). -/
def XForm.latent (f : XForm) : Bool := f.long || f.srcs.any (fun x => x.mbox?.isSome)

/-- The entries each source reads, by its place in its queue, and the entries consumed (R105). -/
def queueReads : List XSrc → (Nat → Nat) → List (Option (Nat × Nat))
  | [], _ => []
  | .q n pk :: t, used => some (n, used n) :: queueReads t (fun m => if m = n && !pk then used m + 1 else used m)
  | _ :: t, used => none :: queueReads t used

/-- How many entries of queue `n` the sources pop. -/
def pops (srcs : List XSrc) (n : Nat) : Nat := srcs.countP (fun x => x == .q n false)

/-- The first queue source that is not present, by its code (R106). -/
def missingQueue (k : Core) (srcs : List XSrc) : Option Nat :=
  (queueReads srcs (fun _ => 0)).findSome? (fun r =>
    match r with
    | some (n, i) => if k.qPresent n ≤ i then some (64 + n) else none
    | none => none)

/-- The first v or s source that is empty, by its code. R48 lets trap-on-empty govern the v sources alone where no source is a queue; the
frame of R33 and the table of R103, which name s too, are followed (DEDUCED, log 85). -/
def emptySource (k : Core) (srcs : List XSrc) : Option Nat :=
  srcs.findSome? (fun x =>
    match x with
    | .v n => if k.vecFull n then none else some n
    | .s n => if k.x.full n then none else some (32 + n)
    | _ => none)

def emptyMailbox (k : Core) (srcs : List XSrc) : Bool :=
  srcs.any (fun x => match x with | .m n => (tfind k.mbox n).isNone | _ => false)

/-- A stream that comes before engine `e` is descheduled on some of these mailboxes and now finds a value: the reads are served in the
order A, X, M (R108). -/
def earlierReader (k : Core) (e : Eng) (ms : List Nat) : Bool :=
  !k.held && [Eng.a, Eng.x].any (fun f => decide (f.code < e.code) && (k.stream f).run == .descheduled && (k.stream f).at_ == .free &&
    (k.stream f).wants.any ms.contains && (k.stream f).wants.all (fun m => (tfind k.mbox m).isSome))

/-- The error mark that a source would read (R241). -/
def errorMark (k : Core) (srcs : List XSrc) : Option Refused :=
  (queueReads srcs (fun _ => 0)).findSome? (fun r =>
    match r with
    | some (n, i) =>
      match (k.qOf n)[i]? with
      | some ⟨_, some (.error cause tval)⟩ => some (cause, tval)
      | _ => none
    | none => none)

def entryVec (k : Core) (n i : Nat) : Vec :=
  match (k.qOf n)[i]? with
  | some ⟨_, some (.bytes v)⟩ => v
  | _ => 0

/-- The values of the sources. -/
def sourceVals (k : Core) (srcs : List XSrc) : List SVal :=
  List.zipWith (fun x r =>
    match x, r with
    | .v n, _ => .vec (k.vec n)
    | .s n, _ => .word (k.x.reg n)
    | .q _ _, some (n, i) => .vec (entryVec k n i)
    | .q _ _, none => .vec 0
    | .m n, _ => .word (match tfind k.mbox n with | some v => v.value | none => 0)
    | .lane, _ => .lane
    | .ones, _ => .vec (BitVec.allOnes 4096)) srcs (queueReads srcs (fun _ => 0))

/-- Removes the popped entries. -/
def popAll (srcs : List XSrc) : List Nat → Core → Core
  | [], k => k
  | n :: t, k => popAll srcs t (if pops srcs n = 0 then k else k.setQ n ((k.qOf n).drop (pops srcs n)))

/-- The mailboxes that the sources name. -/
def mboxesOf (srcs : List XSrc) : List Nat := srcs.filterMap XSrc.mbox?

/-- Empties the mailboxes read (R107). -/
def readMboxes : List Nat → Core → Core
  | [], k => k
  | n :: t, k => readMboxes t { k with mbox := tdel k.mbox n }

/-- A half is full, or a pending result will fill it: one that has not landed holds a later write at issue as a full half does, where R103
could also let it issue and land after (DEDUCED, log 85). -/
def halfBusy (k : Core) (h : Nat) : Bool := k.ms.efull.contains h || k.x.pend.any (fun p => p.op.writesHalf h)

def Core.setHalf (k : Core) (h : Nat) (v : Vec) : Core :=
  { k with ms := { k.ms with e := tset k.ms.e h v, efull := h :: k.ms.efull.filter (fun n => n != h) } }

/-- Why a form that is not nullified cannot issue now, in the order of the frame (R33, R106, R211). -/
def xRefuse (f : XForm) (s : State) (w : Who) : Option Res :=
  let k := s.core w.core
  let gauge := (s.stream w).gauge
  let mq := missingQueue k f.srcs
  let me := emptySource k f.srcs
  let full := match f.target.push? with | some n => decide (8 ≤ (k.wOf n).length) | none => false
  let half := match f.target.half? with | some h => halfBusy k h | none => false
  match f.ctl.trapOnEmpty, mq, me with
  | true, some c, _ => some (.raise 0x04 (BitVec.ofNat 64 c))
  | true, none, some c => some (.raise 0x06 (BitVec.ofNat 64 c))
  | _, _, _ =>
    if full then
      some (if gauge then .raise 0x05 (BitVec.ofNat 64 (16 + f.target.push?.getD 0)) else .wait)
    else
      match k.fullFifo (giveFifos .x f.ctl.give) with
      | some n => some (if gauge then .raise 0x07 (BitVec.ofNat 64 n) else .wait)
      | none =>
        if mq.isSome || me.isSome || half || !k.hasTokens (takeFifos .x f.ctl.take) then some .wait
        else if emptyMailbox k f.srcs || earlierReader k .x (mboxesOf f.srcs) then some (.desched (mboxesOf f.srcs))
        else
          match errorMark k f.srcs with
          | some (cause, tval) => some (.raise cause tval)
          | none => none

/-- The guard as the mask of the bytes that are written, and the value written: zeroing writes zeros where the guard is
clear, in the bytes that the form writes (R33, R184). -/
def settle (res : Vec) (part g : Pred) (zeroing : Bool) : Vec × Pred :=
  if zeroing then (mergeVec 0 res g true, part) else (res, part &&& g)

def settlePred (res g : Pred) (zeroing : Bool) : Pred × Pred :=
  if zeroing then (res &&& g, BitVec.allOnes 512) else (res, g)

/-- The register that a form writes still awaits an older result, and its own write follows that (R103, R156). -/
def XForm.follows (f : XForm) (k : Core) : Bool :=
  match f.target with
  | .pred p => k.predBusy p
  | .vec (.v n) => k.xs.vempty.contains (k.phys n)
  | _ => false

/-- Writes the result of a form at once, or after an older result of its register, which write then gives. -/
def xWriteNow (f : XForm) (g : Pred) (o : XOut) (give : Nat) (k : Core) : Core :=
  let all := BitVec.allOnes 512
  match f.target with
  | .pred p => let r := settlePred o.pred g f.ctl.zeroing; k.setPred p r.1 r.2 give
  | .vec (.v n) =>
    let r := settle o.vec o.part (if f.guardOperand then all else g) f.ctl.zeroing
    k.setVec (k.phys n) r.1 r.2 give
  | .vec (.w n) =>
    { k.setW n (k.wOf n ++ [⟨k.nextId, some (o.vec, g &&& o.part)⟩]) with nextId := k.nextId + 1 }
  | .vec (.e h) => k.setHalf h (mergeVec 0 o.vec (g &&& o.part) true)

/-- Leaves the result of a long-latency form pending: its destination is empty, or its slot reserved (R102, R179). -/
def xWriteLate (f : XForm) (g : Pred) (o : XOut) (k : Core) : Core :=
  let all := BitVec.allOnes 512
  match f.target with
  | .pred p => let r := settlePred o.pred g f.ctl.zeroing; k.addPend .x (.pred p r.1 r.2 o.flags f.ctl.give)
  | .vec (.v n) =>
    let r := settle o.vec o.part (if f.guardOperand then all else g) f.ctl.zeroing
    let d := k.phys n
    let k1 := k.addPend .x (.vector d r.1 r.2 o.flags f.ctl.give)
    { k1 with xs := { k1.xs with vempty := if k1.xs.vempty.contains d then k1.xs.vempty else d :: k1.xs.vempty } }
  | .vec (.w n) =>
    let r := k.reserveW n
    r.2.addPend .x (.push n r.1 o.vec (g &&& o.part) o.flags f.ctl.give)
  | .vec (.e h) => k.addPend .x (.half h (mergeVec 0 o.vec (g &&& o.part) true) o.flags f.ctl.give)

/-- A nullified form: zeros under zeroing, and `dph` (R155). -/
def xNull (f : XForm) (s : State) (w : Who) : Res :=
  let k := s.core w.core
  let k1 : Core :=
    if f.ctl.zeroing then
      match f.target with
      | .pred p => k.setPred p 0 (BitVec.allOnes 512)
      | .vec (.v n) => k.setVec (k.phys n) 0 (BitVec.allOnes 512)
      | _ => k
    else k
  .ok (s.setCore w.core { k1 with x := k1.x.stepPhase f.rnd }) .seq

/-- The operands consumed at issue: take tokens, popped entries, mailboxes. -/
def xConsume (f : XForm) (k : Core) : Core :=
  readMboxes (mboxesOf f.srcs) (popAll f.srcs (List.range 16) (k.takeAll (takeFifos .x f.ctl.take)))

/-- Runs a form that can issue, from the values of its sources. -/
def xRun (f : XForm) (g : Pred) (o : XOut) (s : State) (w : Who) : Res :=
  let gives := giveFifos .x f.ctl.give
  let k := (xConsume f (s.core w.core)).reserve gives
  let k1 : Core := { k with x := k.x.stepPhase f.rnd }
  if f.latent then .ok (s.setCore w.core (xWriteLate f g o k1)) .seq
  else
    endWith w o.flags gives (f.follows k) (s.setCore w.core
      (xWriteNow f g o (if overflows (s.stream w) o.flags then 0 else f.ctl.give) k1))

/-- The frame: `check` refuses source values (R474), `act` runs the form from its guard and source values. A take or give field that names
an engine without a stream is refused in a form that its guard nullifies too: R206 asks for the field alone, though R155 takes and gives
nothing then (DEDUCED, log 85). A pending guard is waited for before every check of the first cycle, in forms that no guard nullifies
too (R33, R156; DEDUCED, log 85). -/
def xFrameWith (f : XForm) (check : List SVal → Option Res) (act : Pred → List SVal → State → Who → Res) (s : State) : Out :=
  let w := s.whoOn .x
  let k := s.core w.core
  let g := k.pred f.ctl.guard
  finish w 8 s (
    if k.predBusy f.ctl.guard then .wait
    else
      match partnerFault f.i s w f.ctl.take f.ctl.give with
      | some (c, v) => .raise c v
      | none =>
        if f.nullable && g == 0 then xNull f s w
        else
          match xRefuse f s w with
          | some r => r
          | none =>
            let vals := sourceVals k f.srcs
            match check vals with
            | some r => r
            | none => act g vals s w)

/-- The frame of a form whose `body` computes the result from the guard, the rounding phase and the source values. -/
def xFrame (f : XForm) (check : List SVal → Option Res) (body : Pred → Nat → List SVal → XOut) (s : State) : Out :=
  xFrameWith f check (fun g vals s w => xRun f g (body g (s.stream w).phase vals) s w) s

def noCheck (_ : List SVal) : Option Res := none

/-- The 0x02 of a source value outside its limits: `tval` names the field of the source (R474). -/
def fieldFault (i : Instr) (word2 : Bool) (lsb : Nat) : Res := .raise 0x02 (opTval i word2 lsb)

/-- The value of source `n`. -/
def src (l : List SVal) (n : Nat) : SVal := l.getD n (.vec 0)

end Sys2Proof.Machine
end

