-- ==== Sys2Proof/Machine/Release.lean ====
section
/-! DEFINITION. Release acts of an A stream and what they stand behind (R137, R345, R465, R466), and the places of R4. -/

namespace Sys2Proof.Machine

def PendOp.segs : PendOp → List Seg
  | .load _ _ _ g _ => g
  | .amo _ _ _ _ _ g _ => g
  | .entry _ _ g _ _ _ => g
  | .store g _ _ => g
  | .toTile d g => ⟨.tile, d, 512, plainAttr, d, none⟩ :: g
  | _ => []

/-- A pending value or access is an access to memory. -/
def PendOp.isAccess : PendOp → Bool
  | .load .. | .amo .. | .entry .. | .store .. | .toTile .. => true
  | _ => false

def PendOp.isRemoteStore : PendOp → Bool
  | .store g _ _ => g.any Seg.isRemote
  | _ => false

/-- Every earlier access of the A stream is performed, remote stores apart: they hold a release at its ordering point. -/
def Core.settledA (k : Core) : Bool := k.a.pend.all (fun p => !p.op.isAccess || p.op.isRemoteStore)

/-- Every earlier access of the A stream is performed (R339). -/
def Core.doneA (k : Core) : Bool := k.a.pend.all (fun p => !p.op.isAccess)

/-- A deterministic buffer holds stores to other packages, which leave at the commit (R368, R370). -/
def DetBuf.away (d : DetBuf) : List DetWrite := d.writes.filter (fun w => w.seg.isRemote)

/-- The remote stores that a release of this core stands behind: those that have left, and those that are still buffered. -/
def Core.behind (k : Core) : List Nat := (k.a.pend.filter (fun p => p.op.isRemoteStore)).map Pend.id ++ k.det.away.map DetWrite.at_

/-- The next release epoch of an A stream, 16 bits (R465). -/
def Core.nextEpoch (k : Core) : Nat := (k.as.epoch + 1) % 65536
def Core.bumpEpoch (k : Core) : Core := { k with as := { k.as with epoch := k.nextEpoch } }

/-- The release of a stream that has left it: at once, or held until the stores it stands behind are acknowledged. -/
def addRelAct (s : State) (c epoch target dst : Nat) (pend : Option Nat) : State :=
  let behind := (s.core c).behind
  if behind.isEmpty then s else { s with relActs := s.relActs ++ [⟨c, epoch, behind, target, dst, pend⟩] }

/-! ## Places (R4 to R6) -/

/-- The signed reading of a field of a place. -/
def placeField (pl lo n : Nat) : Int := signedField (pl / 2 ^ lo % 2 ^ n) n

/-- The core that a place names from core `c`, if the grid of R3 has it. -/
def placeCore (c pl : Nat) : Option Nat :=
  let x := (coreX c : Int) + placeField pl 0 6
  let y := (coreY c : Int) + placeField pl 6 6
  if 0 ≤ x && x < 32 && 0 ≤ y && y < 16 then some (x.toNat + 32 * y.toNat) else none

/-- The package that a place names (R5). -/
def placePkg (s : State) (pl : Nat) : Nat := (s.pkgId + pl / 2 ^ 12 % 2 ^ 12) % 4096

/-! ## Mailbox writes (R134 to R137) -/

/-- The message that carries a mailbox write; `rel`: 0, or 1 more than the epoch of a release. -/
def mailOf (s : State) (w : Who) (m : Nat) (v : Word) (pkg core rel : Nat) : MboxMsg :=
  ⟨s.pkgId, w.core, w.eng, pkg, core, m, v, (s.core w.core).ctx, (s.core w.core).record, rel, s.interval w.core,
    if pkg == s.pkgId then s.incarnation else (s.peer pkg).inc⟩

/-- What a mailbox holds of a write. -/
def mailVal (m : MboxMsg) : MVal :=
  ⟨m.value, m.srcEng == .a, m.ctx * 2 ^ 14 + m.srcCore * 2 ^ 5 + m.srcPkg % 32, m.interval⟩

/-- The mailboxes of a core for which a write of its own A stream is held behind remote stores (R465). -/
def heldOwn (s : State) (c : Nat) : List Nat :=
  s.releases.filterMap (fun r => match r with
    | .mail m => if m.srcPkg == s.pkgId && m.srcCore == c && m.dstPkg == s.pkgId && m.dstCore == c then some m.mbox else none
    | .atomic _ => none)

/-- A's accesses of mailboxes follow its held write of an own one (R137). -/
def behindHeld (s : State) (w : Who) : Bool := w.eng == .a && !(heldOwn s w.core).isEmpty

/-- A write of another core that is held for a mailbox enters it before a write of the core itself (R135). -/
def heldFirst (k : Core) (m : Nat) : Bool := k.holding.any (fun h => h.mbox == m)

/-- A write to the core's own mailbox waits until it is empty, behind those held for it. One of A behind remote stores is a release that is
held at this hub, and the mailbox is kept for it (R134, R465). -/
def sendOwn (s : State) (w : Who) (m : Nat) (v : Word) (pl : Nat) : Res :=
  let k := s.core w.core
  if (tfind k.mbox m).isSome || heldFirst k m || (heldOwn s w.core).contains m || behindHeld s w then .wait
  else if w.eng != .a then .ok (s.setCore w.core { k with mbox := tset k.mbox m (mailVal (mailOf s w m v s.pkgId w.core 0)) }) .seq
  else
    let k1 := k.bumpEpoch
    let msg := mailOf s w m v s.pkgId w.core (k.nextEpoch + 1)
    if k.behind.isEmpty then .ok (s.setCore w.core { k1 with mbox := tset k1.mbox m (mailVal msg) }) .seq
    else
      .ok { addRelAct (s.setCore w.core k1) w.core k.nextEpoch pl s.pkgId none with releases := s.releases ++ [.mail msg] } .seq

/-- A write to another core waits for a slot of the outbound port. A release behind remote stores takes its slot at once: a core of
this package receives it when they are acknowledged, and another package's hub holds it until then (R134, R465). -/
def sendOut (s : State) (w : Who) (m : Nat) (v : Word) (pkg core pl : Nat) : Res :=
  let k := s.core w.core
  if 16 ≤ k.outbound.length then .wait
  else
    let release := w.eng == .a
    let s1 := if release then addRelAct (s.setCore w.core k.bumpEpoch) w.core k.nextEpoch pl pkg none else s
    let k1 := s1.core w.core
    .ok (s1.setCore w.core { k1 with
      outbound := k1.outbound ++ [mailOf s w m v pkg core (if release then k.nextEpoch + 1 else 0)] }) .seq

/-- MBW of a value into mailbox `m` of a core: on A it is a release, before which the stream's earlier accesses are performed, remote
stores apart (R134, R137, R465). -/
def sendMail (s : State) (w : Who) (m : Nat) (v : Word) (pkg core pl : Nat) : Res :=
  if w.eng == .a && !(s.core w.core).settledA then .wait
  else if pkg == s.pkgId && core == w.core then sendOwn s w m v pl
  else sendOut s w m v pkg core pl

/-- A release of this package is still held behind stores that are not acknowledged. -/
def heldRel (s : State) (core rel : Nat) : Bool := rel != 0 && s.relActs.any (fun r => r.core == core && r.epoch + 1 == rel)

end Sys2Proof.Machine
end

