-- ==== Sys2Proof/Machine/Shared.lean ====
section
/-! DEFINITION. The shared control subset on every engine: arithmetic, logic and constants (R124 to R126), control
transfers (R127) and LOOP (R130). The system forms stand in System.lean. -/

namespace Sys2Proof.Machine

/-! ## Arithmetic, logic and constants (R124) -/

/-- X(v): signed for `.s`, unsigned for `.z`. -/
def xval (z : Bool) (v : Word) : Int := if z then v.toNat else v.toInt

def immWord (i : Int) : Word := BitVec.ofInt 64 i

/-- floor(X(a) · X(b) / 2^64). -/
def mulHigh (z : Bool) (a b : Word) : Word := BitVec.ofInt 64 (xval z a * xval z b / (2 ^ 64 : Nat))

/-- The quotient and remainder of R126, truncated toward zero, with its edge cases. -/
def quotient (z : Bool) (a b : Word) : Word :=
  if b = 0 then BitVec.allOnes 64 else BitVec.ofInt 64 ((xval z a).tdiv (xval z b))
def remainder (z : Bool) (a b : Word) : Word :=
  if b = 0 then a else BitVec.ofInt 64 ((xval z a).tmod (xval z b))

def shiftLeft (a : Word) (n : Nat) : Word := a <<< n
def shiftRight (a : Word) (n : Nat) : Word := a >>> n
def shiftArith (a : Word) (n : Nat) : Word := a.sshiftRight n

def minWord (z : Bool) (a b : Word) : Word := if xval z a ≤ xval z b then a else b
def maxWord (z : Bool) (a b : Word) : Word := if xval z b ≤ xval z a then a else b
def lessWord (z : Bool) (a b : Word) : Word := if xval z a < xval z b then 1 else 0

/-- The number of leading zero bits; 64 of 0. -/
def leadingZeros (a : Word) : Nat := if a = 0 then 64 else 63 - Nat.log2 a.toNat

/-- The number of one bits. -/
def onesCount (a : Word) : Nat := (List.range 64).countP (fun i => a.getLsbD i)

/-- The bit field of EXT, extended (R125). -/
def extract (z : Bool) (a : Word) (lsb width : Nat) : Word :=
  let v := a.toNat / 2 ^ lsb % 2 ^ width
  if z then BitVec.ofNat 64 v else BitVec.ofInt 64 (signedField v width)

/-- A form that computes `d` from registers `a` and `b`. -/
def binary (d a b : Nat) (f : Word → Word → Word) (s : State) : Out :=
  let w := s.who
  scalarForm w [a, b] d (f (regOf s w a) (regOf s w b)) s

/-- A form that computes `d` from register `a`. -/
def unary (d a : Nat) (f : Word → Word) (s : State) : Out :=
  let w := s.who
  scalarForm w [a] d (f (regOf s w a)) s

def execNop (s : State) : Out := finish s.who 4 s (.ok s .seq)
def execAdd (d a b : Nat) (s : State) : Out := binary d a b (fun x y => x + y) s
def execSub (d a b : Nat) (s : State) : Out := binary d a b (fun x y => x - y) s
def execAddi (d a : Nat) (imm : Int) (s : State) : Out := unary d a (fun x => x + immWord imm) s
def execMul (d a b : Nat) (s : State) : Out := binary d a b (fun x y => x * y) s
def execMulh (d a b : Nat) (z : Bool) (s : State) : Out := binary d a b (mulHigh z) s

/-- MADD reads `d` as a source. -/
def execMadd (d a b : Nat) (s : State) : Out :=
  let w := s.who
  scalarForm w [a, b, d] d (regOf s w d + regOf s w a * regOf s w b) s

def execDiv (d a b : Nat) (rem z : Bool) (s : State) : Out :=
  binary d a b (if rem then remainder z else quotient z) s
def execAnd (d a b : Nat) (s : State) : Out := binary d a b (fun x y => x &&& y) s
def execOr (d a b : Nat) (s : State) : Out := binary d a b (fun x y => x ||| y) s
def execXor (d a b : Nat) (s : State) : Out := binary d a b (fun x y => x ^^^ y) s
def execAndi (d a : Nat) (imm : Int) (s : State) : Out := unary d a (fun x => x &&& immWord imm) s
def execOri (d a : Nat) (imm : Int) (s : State) : Out := unary d a (fun x => x ||| immWord imm) s
def execXori (d a : Nat) (imm : Int) (s : State) : Out := unary d a (fun x => x ^^^ immWord imm) s
def execShl (d a b : Nat) (s : State) : Out := binary d a b (fun x y => shiftLeft x (y.toNat % 64)) s
def execShlImm (d a n : Nat) (s : State) : Out := unary d a (fun x => shiftLeft x n) s
def execShr (d a b : Nat) (s : State) : Out := binary d a b (fun x y => shiftRight x (y.toNat % 64)) s
def execShrImm (d a n : Nat) (s : State) : Out := unary d a (fun x => shiftRight x n) s
def execSra (d a b : Nat) (s : State) : Out := binary d a b (fun x y => shiftArith x (y.toNat % 64)) s
def execSraImm (d a n : Nat) (s : State) : Out := unary d a (fun x => shiftArith x n) s
def execMin (d a b : Nat) (z : Bool) (s : State) : Out := binary d a b (minWord z) s
def execMax (d a b : Nat) (z : Bool) (s : State) : Out := binary d a b (maxWord z) s
def execSlt (d a b : Nat) (z : Bool) (s : State) : Out := binary d a b (lessWord z) s

def execMovi (d : Nat) (imm : Int) (s : State) : Out := scalarForm s.who [] d (immWord imm) s

/-- MOVK replaces 16 bits of `d`, which it reads (R41). -/
def execMovk (d pos imm16 : Nat) (s : State) : Out :=
  unary d d (fun x => setField x (16 * pos + 15) (16 * pos) imm16) s

def execClz (d a : Nat) (s : State) : Out := unary d a (fun x => BitVec.ofNat 64 (leadingZeros x)) s
def execPopc (d a : Nat) (s : State) : Out := unary d a (fun x => BitVec.ofNat 64 (onesCount x)) s

/-- EXT; a field that leaves the register raises 0x02 (R125). -/
def execExt (d a : Nat) (z : Bool) (lsb wm1 : Nat) (s : State) : Out :=
  let w := s.who
  if 64 < lsb + (wm1 + 1) then finish w 4 s (.raise 0x02 (opTval (.ext d a z lsb wm1) false 0))
  else scalarForm w [a] d (extract z (regOf s w a) lsb (wm1 + 1)) s

/-! ## Control transfers (R127) -/

/-- The target of a word offset from the instruction (R41). -/
def offTarget (pc : Word) (off : Int) : Word := pc + BitVec.ofInt 64 (4 * off)

/-- The conditions of R42. -/
def condTrue (c : Cond) (a b : Word) : Bool :=
  match c with
  | .eq => a == b
  | .ne => a != b
  | .lt => decide (a.toInt < b.toInt)
  | .ge => decide (b.toInt ≤ a.toInt)
  | .ltz => decide (a.toInt < 0)
  | .gez => decide (0 ≤ a.toInt)

def execBc (c : Cond) (a b : Nat) (off : Int) (s : State) : Out :=
  let w := s.who
  finish w 4 s (needRegs s w [a, b] (
    if condTrue c (regOf s w a) (regOf s w b) then .ok s (.jump (offTarget (s.stream w).pc off) false) else .ok s .seq))

def execBr (off : Int) (s : State) : Out :=
  let w := s.who
  finish w 4 s (.ok s (.jump (offTarget (s.stream w).pc off) false))

def execCall (off : Int) (s : State) : Out :=
  let w := s.who
  let pc := (s.stream w).pc
  finish w 4 s (.ok (putReg s w (linkReg w.eng) (pc + 4)) (.jump (offTarget pc off) true))

/-- A jump to a register: a target that is no multiple of 4 raises 0x13 with the target (R37). -/
def jumpTo (w : Who) (a : Nat) (link : Option Nat) (s : State) : Res :=
  let t := regOf s w a
  needRegs s w [a] (
    if t.toNat % 4 ≠ 0 then .raise 0x13 t
    else
      match link with
      | none => .ok s (.jump t false)
      | some d => .ok (putReg s w d ((s.stream w).pc + 4)) (.jump t true))

def execJr (a : Nat) (s : State) : Out := finish s.who 4 s (jumpTo s.who a none s)
def execJrLk (d a : Nat) (s : State) : Out := finish s.who 4 s (jumpTo s.who a (some d) s)

/-! ## LOOP (R130) -/

/-- Opens a loop level, innermost first. -/
def pushLoop (s : State) (w : Who) (l : LoopEnt) : State :=
  s.setStream w { s.stream w with loops := l :: (s.stream w).loops }

def execLoop (d a : Nat) (imm : Int) (s : State) : Out :=
  let w := s.who
  let t := s.stream w
  let i : Instr := .loop d a imm
  let stop := offTarget t.pc imm
  let cnt := regOf s w a
  finish w 4 s (
    if imm < 1 then .raise 0x02 (opTval i false 0)
    else if d = 0 then .raise 0x02 (opTval i false 19)
    else if 4 ≤ (t.loops.filter (fun l => !l.pipelined)).length then .raise 0x02 (opTval i false 25)
    else needRegs s w [a, d] (
      if cnt = 0 then .ok (putReg s w d cnt) (.jump (stop + 4) false)
      else .ok (pushLoop (putReg s w d cnt) w ⟨false, t.pc + 4, stop, d⟩) .seq))

end Sys2Proof.Machine
end

