-- ==== Sys2Proof/Machine/System.lean ====
section
/-! DEFINITION. The shared control subset: tokens (R132), mailboxes (R133 to R137), rendezvous and barriers (R139 to R145),
special registers (R112, R113, R147), TRAP and ERET (R148), IDLE and RDCYC (R149, R150). -/

namespace Sys2Proof.Machine

/-! ## Tokens (R132, R206, R289) -/

/-- GIVE: no slot may be missing on any selected FIFO; 0x07 names the lowest full one in gauge mode. -/
def execGive (f : Nat) (s : State) : Out :=
  let w := s.who
  let k := s.core w.core
  let fs := giveFifos w.eng f
  finish w 4 s (
    if f % 4 = 0 || !enginesOk s w (partners w.eng f) then .raise 0x02 (opTval (.give f) false 0)
    else
      match k.fullFifo fs with
      | some n => if (s.stream w).gauge then .raise 0x07 (BitVec.ofNat 64 n) else .wait
      | none => .ok (s.setCore w.core (k.giveAll fs)) .seq)

/-- On M, a TAKE waits behind the older window commands that take from the same FIFO (R289). -/
def takeBlocked (k : Core) (e : Eng) (fs : List Nat) : Bool :=
  e == .m && k.ms.window.any (fun c => c.state == .entered && (takeFifos .m c.take).any fs.contains)

def execTake (f : Nat) (s : State) : Out :=
  let w := s.who
  let k := s.core w.core
  let fs := takeFifos w.eng f
  finish w 4 s (
    if f % 4 = 0 || !enginesOk s w (partners w.eng f) then .raise 0x02 (opTval (.take f) false 0)
    else if !k.hasTokens fs || takeBlocked k w.eng fs then .wait
    else .ok (s.setCore w.core (k.takeAll fs)) .seq)

/-! ## Mailboxes -/

/-- MBW to the place in `b` (R134, R436). -/
def execMbw (m a b : Nat) (s : State) : Out :=
  let w := s.who
  let i : Instr := .mbw m a b
  let place := (regOf s w b).toNat
  let pkg := placePkg s place
  finish w 4 s (needRegs s w [a, b] (
    if place / 2 ^ 24 ≠ 0 then .raise 0x02 (opTval i false 7)
    else if place / 2 ^ 12 ≠ 0 && !s.accepted.getLsbD 8 then
      .raise 0x01 (tvalFeature 8 false 25 ((encode i).getD 0 0))
    else
      match placeCore w.core place with
      | none => .raise 0x02 (opTval i false 7)
      | some c =>
        if pkg != s.pkgId && !(s.peer pkg).up then .raise 0x48 (BitVec.ofNat 64 place)
        else sendMail s w m (regOf s w a) pkg c place))

/-- The race detector's pair table: a value that an A stream's MBW wrote orders its writer before the accesses of the A
stream that reads it; 8 entries, the oldest goes (R365). -/
def Core.learn (k : Core) (m : MVal) : Core :=
  if m.byA then
    { k with pairs := ((m.writer, m.interval) :: k.pairs.filter (fun p => p != (m.writer, m.interval))).take 8 }
  else k

/-- An MBR of A that obtains a value of an A stream is an acquire: A's earlier accesses are performed before it (R137, R345). The stream
stays descheduled on the mailbox meanwhile, so that no later reader takes the value (R108). -/
def awaitsOlder (s : State) (w : Who) (v : MVal) : Bool := w.eng == .a && v.byA && !(s.core w.core).doneA

/-- MBR: the mailbox is emptied and the value lands later (R107, R133); streams that find one value are served in the order of R108. -/
def execMbr (d m : Nat) (s : State) : Out :=
  let w := s.who
  let k := s.core w.core
  finish w 4 s (
    if behindHeld s w then .wait
    else if earlierReader k w.eng [m] then .desched [m]
    else
      match tfind k.mbox m with
      | none => .desched [m]
      | some v =>
        if awaitsOlder s w v then .desched [m]
        else
          let k1 : Core := { (if w.eng = .a then k.learn v else k) with mbox := tdel k.mbox m }
          if d = 0 then .ok (s.setCore w.core k1) .seq
          else
            let k2 := k1.addPend w.eng (.scalar d v.value 0)
            .ok (s.setCore w.core (k2.setStream w.eng ((k2.stream w.eng).markEmpty d))) .seq)

/-! ## Rendezvous (R139, R140) -/

def engMask (e : Eng) : Nat := 2 ^ e.code

/-- The engines a mask names. -/
def maskEngines (m : Nat) : List Eng := [Eng.a, Eng.x, Eng.m].filter (fun e => m / engMask e % 2 == 1)

/-- A mask that omits the executing engine or names one without a stream (R140, R142). -/
def badMask (s : State) (w : Who) (m : Nat) : Bool :=
  !(maskEngines m).contains w.eng || !enginesOk s w (maskEngines m)

/-- What a stream must have finished before it ends: values, and A's transfers, releases and suspended work, M's window and the check of
the row at the head of its port (R139, R312, R451). -/
def mayEnd (s : State) (w : Who) : Bool :=
  let k := s.core w.core
  (s.stream w).pend.isEmpty && (s.stream w).late.isEmpty &&
    (match w.eng with
     | .a => k.as.xfers.isEmpty && !s.relActs.any (fun r => r.core == w.core) &&
        !s.requests.any (fun q => match q.owner with | .pend c _ | .xfer c _ => c == w.core | _ => false)
     | .x => k.xs.scans.isEmpty
     | .m => k.ms.window.isEmpty && k.portHead.isNone)

/-- A stream stands at its instruction until the commit of buffered writes: what they meet at their homes is reported before the stream
ends and before a handle is closed, so the model ends the quantum there (R399, R451; log 44). -/
def toCommit (s : State) (w : Who) : Res := .ok (s.setStream w { s.stream w with at_ := .committing }) (.stay .waiting)

/-- An ending A stream has nothing left but buffered writes, and releases that stand behind them. -/
def endsAtCommit (s : State) (w : Who) : Bool :=
  let k := s.core w.core
  w.eng == .a && !k.det.writes.isEmpty && k.a.pend.isEmpty && k.as.xfers.isEmpty

/-- RDV that ends the stream; the job ends with its last stream (R139). -/
def execRdv (s : State) : Out :=
  let w := s.who
  finish w 4 s (
    if endsAtCommit s w then toCommit s w
    else if !mayEnd s w then .wait
    else .ok (tryEndJob (standAs w .ended s) w.core) (.stay .ended))

/-- Completes a stream that stands at a short form. -/
def retireShort (s : State) (w : Who) : State := retire w 4 s

def retireEngines (c : Nat) : List Eng → State → State
  | [], s => s
  | e :: t, s => retireEngines c t (retireShort s ⟨c, e⟩)

/-- Every stream that a rendezvous names completes once all of them stand at it. -/
def joinAll (s : State) (c g : Nat) : State :=
  if (maskEngines g).all (fun e => (s.stream ⟨c, e⟩).at_ == .join g) then retireEngines c (maskEngines g) s else s

/-- RDV that joins: every named stream completes at the last arrival (R140). On A it is a full fence. -/
def execRdvMask (g : Nat) (s : State) : Out :=
  let w := s.who
  let k := s.core w.core
  if badMask s w g then finish w 4 s (.raise 0x02 (opTval (.rdvMask g) false 0))
  else if w.eng = .a && !k.doneA then finish w 4 s .wait
  else
    .next (joinAll (s.setStream w { s.stream w with at_ := .join g, run := .waiting }) w.core g)

/-! ## Barriers (R141 to R145, R339) -/

/-- The barrier instance a stream joins: the core's earliest open one of this scope and mask that it has not joined, or the
core's next one (R142). -/
def joinBar (k : Core) (e : Eng) (scope mask : Nat) : Nat × Core :=
  match k.bars.find? (fun b => b.scope == scope && b.mask == mask && b.joined / engMask e % 2 == 0) with
  | some b =>
    let b1 := { b with joined := b.joined + engMask e }
    (b.inst, { k with bars := (k.bars.map (fun c => if c == b then b1 else c)).filter (fun c => c.joined != c.mask) })
  | none =>
    let n := tget k.barCount scope 0
    let b : OpenBar := ⟨scope, n, mask, engMask e⟩
    (n, { k with
      bars := if mask = engMask e then k.bars else k.bars ++ [b],
      barCount := tset k.barCount scope (n + 1) })

/-- The key of a timed instance in its launch. -/
def timedOf (l : Launch) (scope u inst : Nat) : Option TimedBar :=
  l.timed.find? (fun t => t.scope == scope && t.unit_ == u && t.inst == inst)

/-- The T of a BAR that has issued counts for the lateness of later ones, that of a late participant too (R144). -/
def issuedTime (l : Launch) (scope u inst t : Nat) : Launch :=
  match timedOf l scope u inst with
  | some b => { l with timed := l.timed.map (fun c => if c == b then { b with low := min b.low t } else c) }
  | none => { l with timed := l.timed ++ [⟨scope, u, inst, t, 0⟩] }

/-- The T of a core that has arrived counts for the release (R144). -/
def arrivedTime (l : Launch) (scope u inst t : Nat) : Launch :=
  { l with timed := l.timed.map (fun b =>
      if b.scope == scope && b.unit_ == u && b.inst == inst then { b with high := max b.high t } else b) }

/-- A core has arrived at an instance of a scope: each stream that its BAR names has issued it (R142). -/
def arrivedAt (k : Core) (scope inst : Nat) : Bool :=
  decide (inst < tget k.barCount scope 0) && !k.bars.any (fun b => b.scope == scope && b.inst == inst)

/-- The largest T that the streams of a core gave at an instance at which they stand. -/
def Core.timeAt (k : Core) (scope inst : Nat) : Nat :=
  [Eng.a, Eng.x, Eng.m].foldl (fun n e => match (k.stream e).at_ with
    | .bar sc _ i (some t) => if sc = scope && i = inst then max n t else n
    | _ => n) 0

/-- A core that has arrived at a timed instance gives its release cycle (R144). -/
def timeArrival (s : State) (c scope inst : Nat) : State :=
  if arrivedAt (s.core c) scope inst then
    s.mapLaunch (s.core c).record (fun l => arrivedTime l scope (unitOf scope c) inst ((s.core c).timeAt scope inst))
  else s

/-- A BAR has issued: its stream stands at it until the barrier releases. -/
def standAtBar (s : State) (w : Who) (g scope : Nat) (timed : Option Nat) : State :=
  let r := joinBar (s.core w.core) w.eng scope g
  let s1 := s.setCore w.core r.2
  s1.setStream w { s1.stream w with at_ := .bar scope g r.1 timed, run := .waiting }

/-- The instance that the stream's next BAR of a scope and mask belongs to. -/
def nextInst (s : State) (w : Who) (g scope : Nat) : Nat := (joinBar (s.core w.core) w.eng scope g).1

def execBar (g scope : Nat) (s : State) : Out :=
  let w := s.who
  if scope = 0 || 6 ≤ scope || badMask s w g then finish w 4 s (.raise 0x02 (opTval (.bar g scope) false 0))
  else if !(s.core w.core).doneA then finish w 4 s .wait
  else .next (standAtBar s w g scope none)

/-- Timed BAR: legal in gauge mode; late after the smallest release cycle given so far, its own included (R144). A late one, which does
not arrive, is none of the k BARs that R142 counts: the core's next BAR of the scope belongs to the same instance (DESIGN CHOICE,
log 21). -/
def execBarTm (a g scope : Nat) (s : State) : Out :=
  let w := s.who
  let t := (regOf s w a).toNat
  let cyc := s.cyc w
  let u := unitOf scope w.core
  let inst := nextInst s w g scope
  let low := match (s.launchOf w.core).bind (fun l => timedOf l scope u inst) with | some b => min b.low t | none => t
  if scope = 0 || 6 ≤ scope || badMask s w g || !(s.stream w).gauge then
    finish w 4 s (.raise 0x02 (opTval (.barTm a g scope) false 0))
  else if !(s.stream w).full a || !(s.core w.core).doneA then finish w 4 s .wait
  else if low < cyc then
    finish w 4 s (.raiseIn (s.mapLaunch (s.core w.core).record (fun l => issuedTime l scope u inst t)) 0x09 (BitVec.ofNat 64 cyc))
  else
    .next (timeArrival (standAtBar (s.mapLaunch (s.core w.core).record (fun l => issuedTime l scope u inst t)) w g scope (some t))
      w.core scope inst)

/-! ## Special registers (R112 to R114, R147) -/

/-- The view of a special register in a mode: hidden, read-only or read-write (R112). -/
inductive SView where
  | hidden | readOnly | readWrite
  deriving DecidableEq, Repr

/-- The view of a number on an engine; none where the engine has no such register. -/
def sview (e : Eng) (super : Bool) (num : Nat) : Option SView :=
  match num with
  | 0x000 => some (if super then .readWrite else .readOnly)
  | 0x001 | 0x002 | 0x003 | 0x004 | 0x005 => some (if super then .readWrite else .hidden)
  | 0x010 | 0x011 | 0x012 => some .readWrite
  | 0x013 | 0x014 | 0x015 => some .readOnly
  | 0x020 | 0x021 | 0x022 => if e = .x then some (if super then .readWrite else .readOnly) else none
  | 0x028 => if e = .a then some (if super then .readWrite else .readOnly) else none
  | _ => none

/-- The contents of a special register. -/
def sread (s : State) (w : Who) (num : Nat) : Word :=
  let t := s.stream w
  let k := s.core w.core
  match num with
  | 0x000 => t.status
  | 0x001 => t.cause
  | 0x002 => t.epc
  | 0x003 => t.tval
  | 0x004 => t.tvec
  | 0x005 => t.tscr
  | 0x010 => t.qflags
  | 0x011 => t.npdef
  | 0x012 => t.dph
  | 0x013 => BitVec.ofNat 64 (s.cyc w)
  | 0x014 => BitVec.ofNat 64 k.lidx
  | 0x015 => BitVec.ofNat 64 k.ctx
  | 0x020 => k.xs.spass
  | 0x021 => k.xs.skern
  | 0x022 => k.xs.sdrain
  | 0x028 => k.as.slim
  | _ => 0

/-- The bits of a special register that a WRSR must write as 0, and those it ignores (R113, R114). -/
def sreserved (num : Nat) (v : Word) : Bool :=
  match num with
  | 0x000 => field v 63 6 != 0 || flag v 3
  | 0x001 => field v 63 8 != 0
  | 0x010 => field v 63 17 != 0 || field v 15 9 != 0
  | 0x011 => field v 63 3 != 0
  | 0x012 => field v 63 5 != 0
  | 0x020 => field v 63 33 != 0
  | 0x021 => field v 63 32 != 0
  | 0x022 => field v 63 3 != 0
  | _ => false

/-- Stores a value whose reserved bits are 0. -/
def swrite (s : State) (w : Who) (num : Nat) (v : Word) : State :=
  let t := s.stream w
  let k := s.core w.core
  match num with
  | 0x000 => s.setStream w (t.setMode (flag v 0) (flag v 1))
  | 0x001 => s.setStream w { t with cause := v }
  | 0x002 => s.setStream w { t with epc := v }
  | 0x003 => s.setStream w { t with tval := v }
  | 0x004 => s.setStream w { t with tvec := setField v 1 0 0 }
  | 0x005 => s.setStream w { t with tscr := v }
  | 0x010 => s.setStream w { t with qflags := v }
  | 0x011 => s.setStream w { t with npdef := v }
  | 0x012 => s.setStream w { t with dph := v }
  | 0x020 => s.setCore w.core { k with xs := { k.xs with spass := v } }
  | 0x021 => s.setCore w.core { k with xs := { k.xs with skern := v } }
  | 0x022 => s.setCore w.core { k with xs := { k.xs with sdrain := v } }
  | 0x028 => s.setCore w.core { k with as := { k.as with slim := v } }
  | _ => s

/-- Whether an asynchronous transfer can set a flag: one that converts. -/
def XferOp.flags : XferOp → Bool
  | .cpgo _ _ _ dty sty _ mx _ _ => dty != sty || mx != 0 || dty == .k4
  | .gather _ _ _ _ op dty sty _ _ _ _ _ _ _ => op != 0 || dty != sty || dty == .k4
  | .scatter _ _ _ add dty sty _ _ _ _ _ _ _ => add || dty != sty || dty == .k4
  | .feed _ _ _ _ _ _ _ _ _ _ _ _ scaled => scaled
  | _ => false

/-- Every earlier instruction of the stream that can set a flag has landed or retired (R147). -/
def flagsSettled (s : State) (w : Who) : Bool :=
  let k := s.core w.core
  match w.eng with
  | .a => !k.as.xfers.any (fun p => p.2.op.flags)
  | .x => k.x.pend.isEmpty && k.xs.scans.isEmpty
  | .m => !k.ms.window.any (fun c => match c.op with | .run .. | .drn .. | .anch4 .. | .anch .. => true | _ => false)

/-- RDSR: 0x02 for a number the engine has not, 0x03 for a hidden view (R113, R147). -/
def readSpecial (i : Instr) (d num : Nat) (s : State) : Out :=
  let w := s.who
  let t := s.stream w
  finish w 4 s (
    match sview w.eng t.super num with
    | none => .raise 0x02 (opTval i false 0)
    | some .hidden => .raise 0x03 (firstWord i)
    | some _ =>
      if num = 0x010 && !flagsSettled s w then .wait
      else .ok (putReg s w d (sread s w num)) .seq)

/-- WRSR: the view, then the value: a reserved bit, or a value R87 or R435 forbids, raises 0x02 (R113). A write of `qflags`
waits as a read does, so that no earlier instruction's flag lands after it. -/
def writeSpecial (i : Instr) (a num : Nat) (s : State) : Out :=
  let w := s.who
  let t := s.stream w
  let v := regOf s w a
  let badNp := num == 0x011 && !(1 ≤ v.toNat && v.toNat ≤ 4 && (v.toNat != 3 || s.accepted.getLsbD 6))
  finish w 4 s (
    match sview w.eng t.super num with
    | none => .raise 0x02 (opTval i false 0)
    | some .hidden | some .readOnly => .raise 0x03 (firstWord i)
    | some .readWrite =>
      needRegs s w [a] (
        if sreserved num v || badNp then .raise 0x02 (opTval i false 13)
        else if num = 0x010 && !flagsSettled s w then .wait
        else .ok (swrite s w num v) .seq))

def execRdsr (d num : Nat) (s : State) : Out := readSpecial (.rdsr d num) d num s
def execRdsrQflags (d : Nat) (s : State) : Out := readSpecial (.rdsrQflags d) d 0x010 s
def execWrsr (a num : Nat) (s : State) : Out := writeSpecial (.wrsr a num) a num s
def execWrsrStatus (a : Nat) (s : State) : Out := writeSpecial (.wrsrStatus a) a 0x000 s
def execWrsrQflags (a : Nat) (s : State) : Out := writeSpecial (.wrsrQflags a) a 0x010 s
def execWrsrNpdef (a : Nat) (s : State) : Out := writeSpecial (.wrsrNpdef a) a 0x011 s
def execWrsrDph (a : Nat) (s : State) : Out := writeSpecial (.wrsrDph a) a 0x012 s
def execWrsrSpass (a : Nat) (s : State) : Out := writeSpecial (.wrsrSpass a) a 0x020 s
def execWrsrSkern (a : Nat) (s : State) : Out := writeSpecial (.wrsrSkern a) a 0x021 s
def execWrsrSdrain (a : Nat) (s : State) : Out := writeSpecial (.wrsrSdrain a) a 0x022 s

/-! ## TRAP, ERET, IDLE, RDCYC (R148 to R150) -/

def execTrap (imm : Nat) (s : State) : Out := finish s.who 4 s (.raise 0x60 (BitVec.ofNat 64 imm))

/-- ERET in user mode raises 0x03. -/
def execEret (s : State) : Out :=
  let w := s.who
  if (s.stream w).super then .next (eret s w) else finish w 4 s (.raise 0x03 (firstWord .eret))

/-- IDLE stands at its instruction for n local cycles. -/
def execIdle (imm : Int) (s : State) : Out :=
  let w := s.who
  if imm < 0 then finish w 4 s (.raise 0x02 (opTval (.idle imm) false 0))
  else .next (s.setStream w { s.stream w with at_ := .idle (s.jobCount w.core + imm.toNat), run := .waiting })

def execRdcyc (d : Nat) (s : State) : Out :=
  let w := s.who
  scalarForm w [] d (BitVec.ofNat 64 (s.jobCount w.core)) s

end Sys2Proof.Machine
end

