-- ==== Sys2Proof/Machine/Fetch.lean ====
section
/-! DEFINITION. The turn of a stream before its instruction runs: whether it may issue, its late causes, fetching (R38,
R61, R64), decoding, and the limits of a handler that runs while a gauge domain stands still (R231, R232). -/

namespace Sys2Proof.Machine

/-- The cycles of a rib cluster in `d` nominal cycles are longer by what it is to stretch, at most to twice the nominal (R336). -/
def Cluster.lapse (d : Nat) (k : Cluster) : Cluster :=
  if k.gauge || !k.frozen.isEmpty then k
  else { k with lost := k.lost + min k.stretch (4 * d), stretch := k.stretch - min k.stretch (4 * d) }

/-- Above 105 °C firmware stretches every rib cluster, by amounts that the spec leaves to it (R441). -/
def warm (d : Nat) (s : State) : List Nat → State
  | [] => s
  | g :: t =>
    let k := s.cluster g
    warm d (if k.gauge then s
      else s.setCluster g { k with stretch := k.stretch + Config.freeNat s.steps (192 + g) % (4 * d + 1) }) t

/-- `d` nominal cycles pass. -/
def State.lapse (d : Nat) (s : State) : State :=
  let s1 := if s.heat = .normal then s else warm d s (List.range 32)
  { s1 with clock := s1.clock + d, clusters := s1.clusters.map (fun p => (p.1, p.2.lapse d)) }

/-- Starts a step: the agent that acts is the head of the agenda, or a free one when it is empty; free time passes. -/
def beginTurn (s : State) : State :=
  let s1 := s.lapse (Config.elapsed s.steps)
  { s1 with
    turn := match s.agenda with | [] => Config.freeTurn s.steps | t :: _ => t,
    agenda := s.agenda.drop 1,
    steps := s.steps + 1 }

/-- Whether a core's cluster stands still (R231, R337, R378, R426). -/
def State.still (s : State) (c : Nat) : Bool := !(s.cluster (clusterOf c)).frozen.isEmpty

/-- The place of a stream's fault among those that one freeze serves: by logical index, within a core A, X, M (R233). Cores of two
launches may share an index; they follow one another by their numbers. -/
def faultKey (s : State) (c : Nat) (e : Eng) : Nat := ((s.core c).lidx * 512 + c) * 3 + e.code

/-- The stream's domain runs, or stands still for faults of which this stream's is served now (R231, R233). -/
def ownTurn (s : State) (w : Who) : Bool :=
  let fs := (s.cluster (clusterOf w.core)).frozen
  fs.isEmpty || (fs.contains (.fault w.core w.eng) && fs.all (fun f => match f with
    | .fault c e => decide (faultKey s w.core w.eng ≤ faultKey s c e)
    | _ => false))

/-- The stream is a shadow handler: its own fault holds the domain still (R232). -/
def shadow (s : State) (w : Who) : Bool :=
  (s.stream w).super && (s.cluster (clusterOf w.core)).frozen.contains (.fault w.core w.eng)

/-- A held core's stream runs on until it waits, or for 2^20 local cycles (R336, R378). -/
def heldMayRun (s : State) (w : Who) : Bool :=
  let k := s.core w.core
  !k.held || (decide (s.localCount (clusterOf w.core) < k.heldSince + 2 ^ 20) && ((s.stream w).run == .running || (s.stream w).at_.isIdle))

/-- A core of a deterministic context has arrived at a BAR of `mscope` or wider, which ends its quanta (R369). -/
def atQuantumBar (s : State) (c : Nat) : Bool :=
  let k := s.core c
  let x := s.ctx k.ctx
  x.mmode == 2 && [Eng.a, Eng.x, Eng.m].any (fun e => match (k.stream e).at_ with
    | .bar scope _ inst _ => decide (x.mscopeCode ≤ scope) && arrivedAt k scope inst
    | _ => false)

/-- The stream waits for the commit of a quantum that its core has ended: A from the event that ended it, X and M once the core's
transfers have completed, with which the quantum ends; a handler and the late cause it serves go on (R369, R243; log 81). -/
def awaitsCommit (s : State) (w : Who) : Bool :=
  let k := s.core w.core
  (k.det.ended || atQuantumBar s w.core) && (w.eng == .a || k.as.xfers.isEmpty) && !(s.stream w).super && (s.stream w).late.isEmpty

/-- Whether a stream of a job is neither ended nor held nor stopped, in a domain that runs or serves its fault, and no part of its launch
is saved away (R420). -/
def active (s : State) (w : Who) : Bool :=
  let k := s.core w.core
  let t := s.stream w
  (match k.job with | none => false | some j => j.streams.contains w.eng && s.whole j.record) &&
    (t.run == .running || t.run == .waiting || t.run == .descheduled) && !k.stopped && heldMayRun s w && ownTurn s w

/-- Whether a stream may issue an instruction now. -/
def mayIssue (s : State) (w : Who) : Bool := active s w && (s.stream w).at_ == .free && !awaitsCommit s w

/-- The loop check of a completed instruction that waited for its counter goes on (R131). -/
def resumeEdge (s : State) (w : Who) : State :=
  match (s.stream w).at_ with
  | .edge addr next => retireAt w addr next false false s
  | _ => s

/-- The local physical address of an instruction word through its translation (R362). -/
def codeAt (c : Nat) (t : Trans) (va : Nat) : Nat :=
  if t.attr.rep then replicaOf (dieOf c) (t.pa va) else t.pa va

/-- Whether the line of an instruction cache that holds word `k` of this turn's instruction is refilled (log 15). -/
def refills (s : State) (k : Nat) : Bool := Config.freeBool s.steps (16 + k)

/-- The cause for which a word of local memory cannot be fetched: an error in its line of the instruction cache, or, where that is
refilled, of the read that refills it (R64). -/
def fetchBad (s : State) (w : Who) (pa k : Nat) : Option Nat :=
  let kept := if (s.core w.core).badCode.contains pa then some 0x51 else none
  let read := readBad s pa 4
  if kept = read then read else if refills s k then read else kept

/-- One instruction word at a virtual address (R61, R64). A word changed since the job started is the one at job start or the
latest one (R38); of a word changed more than once the versions between are not offered (DESIGN CHOICE, log 15). The bytes of another
package's memory are not this state's: that word is a free value. An error in the instruction cache is 0x51, in the stack read that
refills its line 0x50. -/
def fetchWord (s : State) (w : Who) (va k : Nat) : Except Refused Nat :=
  let v : Word := BitVec.ofNat 64 va
  if !canonical va then .error (0x10, v)
  else
    match windowOf s w.core va 4 with
    | some (.ok _) => .error (0x11, v)
    | some (.error _) => .error (0x10, v)
    | none =>
      if va < tileBytes then .error (0x10, v)
      else
        match translate s w.core (s.core w.core).ctx va k with
        | .error cause => .error (cause, v)
        | .ok t =>
          if t.attr.refuses .fetch then .error (0x11, v)
          else if t.pkg != s.pkgId then .ok (Config.freeNat s.steps (64 + k) % 2 ^ 32)
          else
            let pa := codeAt w.core t va
            if rangeEnd pa < pa + 4 then .error (0x10, v)
            else
              match fetchBad s w pa k with
              | some cause => .error (cause, v)
              | none =>
                let code := match (s.core w.core).job with | some j => j.code | none => s.mem
                let old := readNat code pa 4
                let new := readNat s.mem pa 4
                .ok (if old = new || !Config.freeBool s.steps (8 + k) then new else old)

/-- The first word and, for a long form, the second. -/
def fetchWords (s : State) (w : Who) : Except Refused (Nat × Nat) :=
  let pc := (s.stream w).pc.toNat
  match fetchWord s w pc 0 with
  | .error e => .error e
  | .ok w1 =>
    if isLong w1 then
      match fetchWord s w ((pc + 4) % 2 ^ 64) 1 with
      | .error e => .error e
      | .ok w2 => .ok (w1, w2)
    else .ok (w1, 0)

/-- What the fetch of one word leaves: the walk of its translation, and the line that a refill reads from a stack (R334, R383). -/
def fetchedWord (s : State) (w : Who) (va k : Nat) : State :=
  if !canonical va || (windowOf s w.core va 4).isSome || va < tileBytes then s
  else
    let ctx := (s.core w.core).ctx
    let s1 := translated s w.core ctx va k
    match translate s w.core ctx va k with
    | .error _ => s1
    | .ok t =>
      let pa := codeAt w.core t va
      if t.attr.refuses .fetch || t.pkg != s.pkgId || rangeEnd pa < pa + 4 || !isStack pa then s1
      else countReadsBy (if refills s k then 1 else 0) (linesOf pa 4) s1

/-- The state after the fetch of the instruction at a stream's pc. -/
def fetched (s : State) (w : Who) : State :=
  let pc := (s.stream w).pc.toNat
  let s1 := fetchedWord s w pc 0
  match fetchWord s w pc 0 with
  | .error _ => s1
  | .ok w1 => if isLong w1 then fetchedWord s1 w ((pc + 4) % 2 ^ 64) 1 else s1

/-- What decoding depends on beside the words: engine, `npdef`, regime, mode and accepted features (R61, R435). -/
def decodeCtx (s : State) (w : Who) : DCtx :=
  let t := s.stream w
  ⟨w.eng, Np.ofCode (field t.npdef 2 0), t.gauge, !t.super, s.accepted⟩

/-- What a stream does in its turn: nothing but change to a state, an instruction, or a fault of its decoding. -/
inductive Issue where
  | rest (s : State)
  | run (i : Instr)
  | refuse (cause : Nat) (tval : Word)
  deriving DecidableEq, Repr

/-- A late cause meets the stream at the instruction it waits at (R243, R291). -/
def wokenByLate (s : State) (w : Who) : Bool :=
  let t := s.stream w
  active s w && t.at_ != .free && !t.super && !t.late.isEmpty

/-- A stream leaves the wait at which a late cause meets it. One that has arrived at a rendezvous, a barrier or the end of a loop body, or
counts cycles in gauge mode, stands there again after ERET; the others have not issued, and their instruction is reissued (R116, R149,
R231, R243, R398). -/
def leaveMeet (s : State) (w : Who) : State :=
  let t := s.stream w
  let free (s : State) : State := s.setStream w { s.stream w with at_ := .free, run := .running }
  let stands : State := s.setStream w { t with at_ := .free, run := .running, stood := some (t.pc, t.at_) }
  match t.at_ with
  | .awaiting _ => free (unwait s w.core)
  | .decld .. => free (dropReqs s (.instr w.core w.eng))
  | .pass .. => free (s.setCore w.core ((s.core w.core).unreserve (giveFifos .a 2)))
  | .join _ | .bar .. | .edge .. => stands
  | .idle _ => if t.gauge then stands else free s
  | _ => free s

/-- A stream stands again where a late cause met it. -/
def standAgain (s : State) (w : Who) (m : Meet) : State :=
  let s1 := s.setStream w { s.stream w with at_ := m, run := .waiting, stood := none }
  match m with
  | .join g => joinAll s1 w.core g
  | _ => s1

/-- The wait to which a stream returns before it issues: none in a handler (R243). -/
def returnsTo (s : State) (w : Who) : Option Meet :=
  let t := s.stream w
  if t.super then none else (t.stoodAt t.pc).map Prod.snd

/-- The turn of a stream up to its instruction: late causes come before the next instruction (R243, R291). -/
def issue (s : State) (w : Who) : Issue :=
  let t := s.stream w
  if !mayIssue s w then
    .rest (if wokenByLate s w then takeLate (leaveMeet s w) w else if active s w then resumeEdge s w else s)
  else if !t.super && !t.late.isEmpty then .rest (takeLate s w)
  else
    match returnsTo s w with
    | some m => .rest (standAgain s w m)
    | none =>
      match fetchWords s w with
      | .error (cause, v) => .run (.instructionFetchFault cause v)
      | .ok (w1, w2) =>
        match decodeWords (decodeCtx s w) w1 w2 with
        | .ok i => .run i
        | .error f => .refuse f.cause f.tval

/-- The instructions a shadow handler may use (R232). -/
def shadowAllows : Instr → Bool
  | .nop | .add _ _ _ | .sub _ _ _ | .addi _ _ _ | .mul _ _ _ | .mulh _ _ _ _ | .madd _ _ _ | .div _ _ _ _ _
  | .and _ _ _ | .or _ _ _ | .xor _ _ _ | .andi _ _ _ | .ori _ _ _ | .xori _ _ _ | .shl _ _ _ | .shlImm _ _ _
  | .shr _ _ _ | .shrImm _ _ _ | .sra _ _ _ | .sraImm _ _ _ | .min _ _ _ _ | .max _ _ _ _ | .slt _ _ _ _ | .movi _ _
  | .movk _ _ _ | .clz _ _ | .popc _ _ | .ext _ _ _ _ _ | .bc _ _ _ _ | .br _ | .call _ | .jr _ | .jrLk _ _
  | .loop _ _ _ | .rdsr _ _ | .rdsrQflags _ | .wrsr _ _ | .wrsrStatus _ | .wrsrQflags _ | .wrsrNpdef _ | .wrsrDph _
  | .wrsrSpass _ | .wrsrSkern _ | .wrsrSdrain _ | .trap _ | .eret | .idle _ | .rdcyc _ | .ld _ _ _ _ _ | .st _ _ _ _
  | .tlbp _ _ _ | .tlbinv _ _ | .instructionFetchFault _ _ | .unassignedMajor _ => true
  | _ => false

/-- The fault that a shadow handler serves becomes fatal (R232). -/
def shadowFatal (s : State) (w : Who) : State := fatal s w (field (s.stream w).cause 7 0)

/-- Whether a shadow handler's instruction met a register that a producer had left empty (R232): it waits, or its write
joined the pending values. -/
def shadowStuck (before after : State) (w : Who) : Bool :=
  let t := after.stream w
  (t.run == .waiting && (match t.at_ with | .free | .edge _ _ => true | _ => false)) ||
    t.pend.any (fun p => decide ((before.core w.core).nextId ≤ p.id))

/-- The engine's grid has the core. -/
def coreExists (c : Nat) : Bool := c < 512

end Sys2Proof.Machine
end

