-- ==== Sys2Proof/Machine/Place.lean ====
section
/-! DEFINITION. Which constructors are events, and how an instruction is placed where a stream fetches next. -/

namespace Sys2Proof.Machine

/-- The events of the opcode table, as against the instruction forms (fetch faults and unassigned majors come from a
stream's own turn). -/
def isEvent (i : Instr) : Bool :=
  match i with
  | .unassignedMajor _ | .instructionFetchFault _ _ => false
  | _ => (encode i).isEmpty

/-- The code address of a placed instruction, virtual and physical. -/
def placeVa : Nat := 0x100000

/-- The root table and the one table below it, in stack 0. -/
def placeRoot : Nat := 0x10000
def placeTable : Nat := 0x14000

/-- A next-level entry and a leaf of 64 GiB, writable and executable, RC, of package `pkg` (R332). -/
def placeNext : Nat := 1 + placeTable
def placeLeaf (pkg : Nat) : Nat := 1 + 2 + 4 + 2 ^ 3 + 2 ^ 9 + pkg * 2 ^ 44

/-- Every feature accepted, context 0 with its page tables, and a running job on core 0 with a stream of the engine that reads the word. -/
def placeWord (s : State) (_nbits w : Nat) : State :=
  let e := (tableEngine w).getD .a
  let mem1 := writeBytes s.mem placeRoot (bytesOf 8 placeNext)
  let mem2 := writeBytes mem1 placeTable (bytesOf 8 (placeLeaf s.pkgId))
  let mem3 := writeBytes mem2 placeVa (tableBytes w ++ List.replicate 8 0)
  let k := s.core 0
  let j : Job := ⟨0, 0, 0, 0, 0, false, [.a, .x, .m], mem3⟩
  let k1 : Core := { k with job := some j }
  let k2 := k1.setStream e { k1.stream e with run := .running, pc := BitVec.ofNat 64 placeVa }
  let s1 := s.setCtx 0 ⟨true, [0, BitVec.ofNat 64 placeRoot], [], 0⟩
  { s1.setCore 0 k2 with mem := mem3, accepted := 0x7FF, agenda := [.stream 0 e] }

end Sys2Proof.Machine
end

