-- ==== Sys2Proof/Machine/Pending.lean ====
section
/-! DEFINITION. Pending values and accesses: what holds one back (R120, R342, R343, R254), the requests that cross the
fabric (R443, R449), and what each does when it lands or is performed (R102, R215, R241, R252, R341, R450, R465, R466). -/

namespace Sys2Proof.Machine

/-! ## Reading parts (R341, R449, R450) -/

/-- What reading parts answers: bytes, a wait for a reply, or a cause with the R240 `addr` of its part. -/
inductive Got where
  | ok (l : List Byte) (s : State)
  | wait
  | bad (cause tv : Nat)
  deriving Repr

/-- Reads parts: the home's bytes, or the replies of other packages (R341, R449, R450). -/
def gather (c : Nat) (owner : Owner) : List Seg → State → Got
  | [], s => .ok [] s
  | g :: t, s =>
    let here : Got :=
      if g.isRemote then
        match (findRead s owner g).bind OutReq.reply with
        | none => .wait
        | some (.data l) => .ok (if buffers s c g then overlay g (s.core c).det.writes l else l) s
        | some .ack => .wait
        | some (.nack cause) => .bad cause g.tv
      else
        match badSegs s c [g] with
        | some (cause, tv) => .bad cause tv
        | none => let r := readSeg s c g; .ok r.1 r.2
    match here with
    | .ok l s1 =>
      match gather c owner t s1 with
      | .ok r s2 => .ok (l ++ r) s2
      | e => e
    | e => e

/-! ## Order among the accesses of a stream -/

def segsMeet (a b : List Seg) : Bool := a.any (fun g => b.any g.overlaps)

/-- The strongest kind is SO (R343, R344). -/
def segsSO (a : List Seg) : Bool := a.any (fun g => g.attr.kind == 0 && g.home != .tile)

def PendOp.acquires : PendOp → Bool
  | .amo _ _ _ acq _ _ _ => acq
  | _ => false

def PendOp.releases : PendOp → Bool
  | .amo _ _ _ _ rel _ _ => rel
  | _ => false

/-- The scalar register that a value or access writes. -/
def PendOp.scalarDest : PendOp → Option Nat
  | .scalar d _ _ => some d
  | .load d _ _ _ _ => some d
  | .amo d _ _ _ _ _ _ => some d
  | .bad d _ _ => d
  | _ => none

/-- Both write one destination, so they land in program order (R103). -/
def PendOp.sameDest (a b : PendOp) : Bool :=
  match a, b with
  | .vector d _ _ _ _, .vector e _ _ _ _ => d == e
  | .half d _ _ _, .half e _ _ _ => d == e
  | .pred d _ _ _ _, .pred e _ _ _ _ => d == e
  | a, b => match a.scalarDest, b.scalarDest with | some d, some e => d == e && d != 0 | _, _ => false

/-- An older pending access or value holds a later one back: overlapping bytes, SO after SO, anything after an acquire, a
release after anything but a remote store, and one destination. -/
def PendOp.holds (older later : PendOp) : Bool :=
  segsMeet older.segs later.segs || (segsSO older.segs && segsSO later.segs) ||
    (older.acquires && later.isAccess) || (later.releases && older.isAccess && !older.isRemoteStore) ||
    older.sameDest later

def heldBack (older : List Pend) (op : PendOp) : Bool := older.any (fun p => p.op.holds op)

/-- Parts whose bytes are read or written at issue: the tile store, pages of the deterministic buffer, and race pages, whose accesses
the detector checks as they are performed (R366; logs 31 and 79). -/
def atIssue (s : State) (c : Nat) (g : Seg) : Bool := g.home == .tile || buffers s c g || detectsHere s c g

/-- An access with a part of another package or of a race page leaves at issue, so it waits for what would hold it back (R120, R343,
R366, R449). -/
def leavesLate (s : State) (c : Nat) (op : PendOp) : Bool :=
  op.segs.any (fun g => g.isRemote || detects s c g) && heldBack (s.core c).a.pend op

/-- Whether a pending access touches bytes that an access would touch at issue. -/
def busyNow (k : Core) (segs : List Seg) : Bool := k.a.pend.any (fun p => segsMeet p.op.segs segs)

/-! ## Performing -/

/-- Ends pending item `id` of a stream: it leaves the list, and its register is full unless another pending one writes it. -/
def dropPend (k : Core) (e : Eng) (id : Nat) (op : PendOp) : Core :=
  let t := k.stream e
  let rest := t.pend.filter (fun p => p.id != id)
  let t1 := { t with pend := rest }
  match op.scalarDest with
  | none => k.setStream e t1
  | some d => k.setStream e (if rest.any (fun p => p.op.scalarDest == some d) then t1 else t1.markFull d)

/-- Writes a scalar register at a landing. -/
def landReg (k : Core) (e : Eng) (d : Nat) (v : Word) : Core :=
  if d = 0 then k else k.setStream e { k.stream e with regs := tset (k.stream e).regs d v }

/-- A v register is full once no pending result and no scan writes it. -/
def fillVec (k : Core) (d : Nat) : Core :=
  if k.x.pend.any (fun p => p.op.writesVec d) || k.xs.scans.any (fun c => c.d == .v d) then k
  else { k with xs := { k.xs with vempty := k.xs.vempty.filter (fun n => n != d) } }

/-- A scan that was issued before a pending vector result and writes the same register. -/
def scanBefore (k : Core) (id : Nat) (op : PendOp) : Bool :=
  k.xs.scans.any (fun c => c.id < id && (match c.d, op with | .v d, .vector e _ _ _ _ => d == e | _, _ => false))

/-- The value a load writes (R246). -/
def loadValue (z : Bool) (n : Nat) (l : List Byte) : Word :=
  if z then BitVec.ofNat 64 (natOf l) else BitVec.ofInt 64 (signedField (natOf l) (8 * n))

/-- The new value of an atomic on `n` bytes from the old one (R252, R253). -/
def amoNew (n : Nat) (op : AmoOp) (old : Nat) : Nat :=
  let W := 8 * n
  match op with
  | .cas expect new => if old = expect.toNat % 2 ^ W then new.toNat % 2 ^ W else old
  | .rmw code b0 =>
    let b := b0.toNat % 2 ^ W
    match code with
    | 0 => b
    | 1 => (old + b) % 2 ^ W
    | 2 => old &&& b
    | 3 => old ||| b
    | 4 => old ^^^ b
    | 5 => if signedField old W ≤ signedField b W then old else b
    | 6 => if signedField b W ≤ signedField old W then old else b
    | 7 => min old b
    | _ => max old b

/-- Performs an atomic on a part that is not remote: the old value and the state. At a controller it is a partial store, whatever it
writes: a CAS that does not match writes the bytes that it read (R253, R387). -/
def amoLocal (s : State) (c place : Nat) (g : Seg) (op : AmoOp) : Nat × State :=
  let old := natOf (readSeg s c g).1
  (old, writeSeg s c place g (bytesOf g.len (amoNew g.len op old)) (List.replicate g.len true))

/-- The same with what the race detector learns and records as the atomic is performed (R365, R366). -/
def amoChecked (s : State) (c place : Nat) (g : Seg) (op : AmoOp) (acq : Bool) : Nat × State :=
  let r := amoLocal (if acq then learnShadow s c g else s) c place g op
  (r.1, raceWrite r.2 c [g])

/-! ## Releases (R465, R466) -/

/-- Whether a mailbox write of this epoch still stands in the core's outbound port. -/
def stillOut (k : Core) (epoch : Nat) : Bool := k.outbound.any (fun m => m.rel == epoch + 1)

/-- A pending store is acknowledged or performed: releases that stand behind nothing more are cleared. -/
def clearBehind (c id : Nat) : List RelAct → State → State
  | [], s => s
  | r :: t, s =>
    if r.core != c then clearBehind c id t { s with relActs := s.relActs ++ [r] }
    else
      let r1 := { r with behind := r.behind.filter (fun n => n != id) }
      if !r1.behind.isEmpty then clearBehind c id t { s with relActs := s.relActs ++ [r1] }
      else clearBehind c id t
        (if r.dst != s.pkgId && !stillOut (s.core c) r.epoch then emit s (.clear r.dst c r.epoch) else s)

/-- A pending store is performed; another buffered part of it that has still to leave keeps releases behind it. -/
def storeDone (s : State) (c id : Nat) : State :=
  if (s.core c).det.away.any (fun w => w.at_ == id) then s else clearBehind c id s.relActs { s with relActs := [] }

/-- The pending atomic of a cancelled release: its register keeps its value. -/
def cancelPend (s : State) (c : Nat) (id : Option Nat) : State :=
  match id with
  | none => s
  | some n =>
    match (s.core c).a.pend.find? (fun p => p.id == n) with
    | none => s
    | some p =>
      let k := dropPend (s.core c) .a n p.op
      dropReqs (s.setCore c { k with det := { k.det with atomic := if k.det.atomic = id then none else k.det.atomic } }) (.pend c n)

/-- Cancels a release: it is reported as 0x49 and never performed. -/
def cancelOne (s : State) (r : RelAct) : State :=
  let k := s.core r.core
  let s1 :=
    if stillOut k r.epoch then s.setCore r.core { k with outbound := k.outbound.filter (fun m => m.rel != r.epoch + 1) }
    else if r.dst == s.pkgId then
      { s with releases := s.releases.filter (fun h =>
          match h with | .mail m => !(m.srcPkg == s.pkgId && m.srcCore == r.core && m.rel == r.epoch + 1) | .atomic _ => true) }
    else emit s (.cancel r.dst r.core r.epoch)
  addLate (cancelPend s1 r.core r.pend) ⟨r.core, .a⟩ ⟨0x49, accTval true r.target, none, none⟩

def cancelBehind (c id : Nat) : List RelAct → State → State
  | [], s => s
  | r :: t, s =>
    if r.core == c && r.behind.contains id then cancelBehind c id t (cancelOne s r)
    else cancelBehind c id t { s with relActs := s.relActs ++ [r] }

/-- A remote store has failed: its cause first, then 0x49 for every release that follows it, in epoch order (R466). -/
def storeFailed (s : State) (c id cause tv : Nat) : State :=
  let s1 := addLate s ⟨c, .a⟩ ⟨cause, accTval true tv, none, none⟩
  cancelBehind c id s1.relActs { s1 with relActs := [] }

/-! ## Landing -/

/-- A load or atomic whose data met an error: 0x50, 0x51 or the target's cause, late; the register keeps its value. -/
def landBad (s : State) (c : Nat) (p : Pend) (cause tv : Nat) : State :=
  addLate (dropReqs (s.setCore c (dropPend (s.core c) .a p.id p.op)) (.pend c p.id)) ⟨c, .a⟩
    ⟨cause, accTval true tv, none, none⟩

/-- Lands a value that needs no memory; none when it is of another kind. -/
def landValue (s : State) (w : Who) (p : Pend) : Option State :=
  let c := w.core
  let k := dropPend (s.core c) w.eng p.id p.op
  match p.op with
  | .scalar d v fl => some (landWith w fl [] (s.setCore c (landReg k w.eng d v)))
  | .vector d v mask fl give =>
    let k1 := k.setVecPhys d (mergeVec (tget k.xs.v d 0) v mask false)
    some (landWith w fl (giveFifos .x give) (s.setCore c (fillVec k1 d)))
  | .push q id v mask fl give =>
    some (landWith w fl (giveFifos .x give) (s.setCore c (k.setW q (fillW id (v, mask) (k.wOf q)))))
  | .half h v fl give => some (landWith w fl (giveFifos .x give) (s.setCore c (k.setHalf h v)))
  | .pred n v mask fl give =>
    some (landWith w fl (giveFifos .x give) (s.setCore c (k.setPredNow n (mergePred (k.pred n) v mask false))))
  | .load d n z segs (some l) =>
    some (s.setCore c (landReg k .a d (if segs.isEmpty then 0 else loadValue z n l)))
  | .bad _ cause tv => some (landBad s c p cause tv)
  | _ => none

/-- Lands a load, an atomic or LDT from memory; none while it must wait. -/
def landAccess (s : State) (c : Nat) (p : Pend) : Option State :=
  match p.op with
  | .load d n z segs none =>
    match gather c (.pend c p.id) segs s with
    | .wait => none
    | .bad cause tv => some (landBad s c p cause tv)
    | .ok l s1 =>
      some (dropReqs (s1.setCore c (landReg (dropPend (s1.core c) .a p.id p.op) .a d (loadValue z n l))) (.pend c p.id))
  | .toTile dst segs =>
    match gather c (.pend c p.id) segs s with
    | .wait => none
    | .bad cause tv => some (landBad s c p cause tv)
    | .ok l s1 =>
      let s2 := countWaits s1 c .store dst 512
      some (dropReqs (s2.setCore c ((dropPend (s2.core c) .a p.id p.op).tileWrite dst l (List.replicate 512 true)))
        (.pend c p.id))
  | .amo d op _ acq _ [g] _ =>
    if s.relActs.any (fun r => r.core == c && r.pend == some p.id) || (s.core c).det.atomic == some p.id then none
    else if g.isRemote then
      match (s.requests.find? (fun q => q.owner == .pend c p.id)).bind OutReq.reply with
      | some (.data l) =>
        let s1 := raceWrite (if acq then learnShadow s c g else s) c [g]
        some (dropReqs (s1.setCore c (landReg (dropPend (s1.core c) .a p.id p.op) .a d (BitVec.ofNat 64 (natOf l))))
          (.pend c p.id))
      | some (.nack cause) => some (landBad s c p cause g.tv)
      | _ => none
    else
      match badSegs s c [g] with
      | some (cause, tv) => some (landBad s c p cause tv)
      | none =>
        let r := amoChecked s c p.id g op acq
        some (r.2.setCore c (landReg (dropPend (r.2.core c) .a p.id p.op) .a d (BitVec.ofNat 64 r.1)))
  | _ => none

/-- The value or access at place `n` of a stream lands, unless something older or an unfinished reply holds it back. -/
def landAt (s : State) (w : Who) (n : Nat) : State :=
  let t := s.stream w
  match t.pend[n]? with
  | none => s
  | some p =>
    if heldBack (t.pend.take n) p.op || (w.eng == .x && scanBefore (s.core w.core) p.id p.op) then s
    else
      match landValue s w p with
      | some s1 => tryEndJob s1 w.core
      | none => match landAccess s w.core p with | some s1 => tryEndJob s1 w.core | none => s

/-- Gives the tokens of a queue load when the last entry of its group has landed (R210). -/
def giveGroup (k : Core) (group give : Nat) : Core :=
  if k.a.pend.any (fun p => match p.op with | .entry _ _ _ _ g _ => g == group | _ => false) then k
  else k.giveReserved (giveFifos .a give)

/-- The pending queue entry at place `n` lands: its data, or an error mark (R215, R241). -/
def landEntry (s : State) (c n : Nat) : State :=
  let t := (s.core c).a
  match t.pend[n]? with
  | none => s
  | some p =>
    match p.op with
    | .entry q id segs data group give =>
      let fill (s1 : State) (d : QData) : State :=
        let k := dropPend (s1.core c) .a p.id p.op
        tryEndJob (dropReqs (s1.setCore c (giveGroup (k.setQ q (fillQ id d (k.qOf q))) group give)) (.pend c p.id)) c
      match data with
      | some x => fill s x
      | none =>
        if heldBack (t.pend.take n) p.op then s
        else
          match gather c (.pend c p.id) segs s with
          | .wait => s
          | .bad cause tv => fill s (.error cause (accTval true tv))
          | .ok l s1 => fill s1 (.bytes (vecOfBytes l))
    | _ => s

/-- The pending store at place `n` is performed, its remote parts acknowledged (R341, R449, R450). -/
def performStore (s : State) (c n : Nat) : State :=
  let t := (s.core c).a
  match t.pend[n]? with
  | none => s
  | some p =>
    match p.op with
    | .store segs data mask =>
      if heldBack (t.pend.take n) p.op then s
      else
        let owner : Owner := .pend c p.id
        let gone (s1 : State) : State := dropReqs (s1.setCore c (dropPend (s1.core c) .a p.id p.op)) owner
        match acksOf s owner with
        | .open_ => s
        | .failed cause tv =>
          tryEndJob (storeFailed (gone s) c p.id cause tv) c
        | .done => tryEndJob (storeDone (gone (writeSegs s c p.id segs data mask)) c p.id) c
    | _ => s

/-- Replaces the operation of pending item `id` of a core's A stream. -/
def setPend (s : State) (c id : Nat) (op : PendOp) : State :=
  let k := s.core c
  s.setCore c { k with a := { k.a with pend := k.a.pend.map (fun p => if p.id = id then { p with op := op } else p) } }

/-- The parts that an access reads. -/
def PendOp.readsFrom : PendOp → List Seg
  | .load _ _ _ g none | .amo _ _ _ _ _ g _ | .entry _ _ g none _ _ | .toTile _ g => g
  | _ => []

/-- Performs one pending access where it stands in program order: a read captures its bytes, or the error that it meets, which land after
the freeze (R231). -/
def performPend (s : State) (c : Nat) (p : Pend) : State :=
  if p.op.segs.any Seg.isRemote then s
  else
    match p.op, badSegs s c p.op.readsFrom with
    | .entry q id segs _ group give, some (cause, tv) => setPend s c p.id (.entry q id segs (some (.error cause (accTval true tv))) group give)
    | op, some (cause, tv) => setPend s c p.id (.bad op.scalarDest cause tv)
    | .load d n z segs none, none =>
      let r := readSegs s c segs
      setPend r.2 c p.id (.load d n z segs (some r.1))
    | .entry q id segs none group give, none =>
      let r := readSegs s c segs
      setPend r.2 c p.id (.entry q id segs (some (.bytes (vecOfBytes r.1))) group give)
    | .amo d op _ acq _ [g] _, none =>
      let r := amoChecked s c p.id g op acq
      setPend r.2 c p.id (.scalar d (BitVec.ofNat 64 r.1) 0)
    | .store segs data mask, none =>
      storeDone ((writeSegs s c p.id segs data mask).setCore c
        (dropPend ((writeSegs s c p.id segs data mask).core c) .a p.id p.op)) c p.id
    | .toTile dst segs, none =>
      let r := readSegs s c segs
      r.2.setCore c ((dropPend (r.2.core c) .a p.id p.op).tileWrite dst r.1 (List.replicate 512 true))
    | _, none => s

def performPends (c : Nat) : List Pend → State → State
  | [], s => s
  | p :: t, s => performPends c t (performPend s c p)

/-- Performs every pending access of a core, in program order: a shadow handler's accesses follow those before the fault (R120,
R232, R342). -/
def flushPends (s : State) (c : Nat) : State := performPends c (s.core c).a.pend s

end Sys2Proof.Machine
end

