-- ==== Sys2Proof/Machine/AMem.lean ====
section
/-! DEFINITION. The synchronous forms of the access engine: scalar, queue and tile accesses (R246 to R251), atomics (R252 to
R254), FENCE (R255), SPADJ (R256), TLBP, PGHINT and TLBINV (R258 to R260). -/

namespace Sys2Proof.Machine

/-! ## Opening an access -/

/-- A synchronous read or write with an alignment; a store of the bytes of a mask. -/
def syncAcc (use : Use) (align : Nat) : Acc := ⟨use, align, false, false, true, if use = .write then .store else .load, []⟩
def storeAcc (align : Nat) (mask : List Bool) : Acc := { syncAcc .write align with mask := mask }

/-- What the translation of an access leaves, page by page up to one that faults: walks that are counted and translations that are cached
(R334, R383). -/
def translatedPages (s : State) (c : Nat) : Nat → List (Nat × Nat) → State → State
  | _, [], t => t
  | k, (va, n) :: rest, t =>
    if !canonical va || (windowOf s c va n).isSome || va < tileBytes then translatedPages s c (k + 1) rest t
    else
      let t1 := translated t c (s.core c).ctx va k
      match translate s c (s.core c).ctx va k with
      | .error _ => t1
      | .ok _ => translatedPages s c (k + 1) rest t1

/-- The same for an address operand: a tile-store address and an object are not translated (R218, R395). -/
def translatedFor (s : State) (c : Nat) (acc : Acc) (a : Addr) (n : Nat) : State :=
  match a with
  | .obj _ _ => s
  | .va v =>
    if !canonical v || v % acc.align != 0 || v < tileBytes then s
    else translatedPages s c 0 (splitPages (n / 0x4000 + 2) v n) s

/-- A synchronous access to race pages that an older one holds back: it waits, and the detector checks it when it is performed (R365,
R366). -/
def checksLater (s : State) (c : Nat) (acc : Acc) (segs : List Seg) : Bool :=
  !acc.late && segs.any (detects s c) &&
    heldBack (s.core c).a.pend (if acc.use == .write then .store segs [] [] else .load 0 1 false segs none)

/-- The parts of a store that straddles pages, with the stronger kind for all of them: the whole store is ordered by it, also where its
parts are performed at different times (R344). -/
def strongest (acc : Acc) (l : List Seg) : List Seg :=
  if acc.use == .write && segsSO l then l.map (fun g => { g with attr := { g.attr with kind := 0 } }) else l

/-- All checks of one access: its parts, and the state after its translation, the waits for its banks, and the race detector's
part. -/
def openAccess (s : State) (c : Nat) (acc : Acc) (a : Addr) (n : Nat) : Except Refused (List Seg × State) :=
  match segsOf s c acc a n with
  | .error e => .error e
  | .ok segs =>
    let s0 := waitParts c acc.asker segs (translatedFor s c acc a n)
    if checksLater s c acc segs then .ok (strongest acc segs, s0)
    else
      match raceCheck s0 c acc segs with
      | .error e => .error e
      | .ok s1 => .ok (strongest acc segs, s1)

/-- All checks of the elements of a form with their masks, in order; nothing takes effect before the last passes (R239). -/
def openElems (c : Nat) (acc : Acc) (n : Nat) : List (Addr × List Bool) → State → Except Refused (List (List Seg) × State)
  | [], s => .ok ([], s)
  | (a, mask) :: t, s =>
    match openAccess s c { acc with mask := mask } a n with
    | .error e => .error e
    | .ok (g, s1) =>
      match openElems c acc n t s1 with
      | .error e => .error e
      | .ok (gs, s2) => .ok (g :: gs, s2)

def openAll (c : Nat) (acc : Acc) (n : Nat) (l : List Addr) (s : State) : Except Refused (List (List Seg) × State) :=
  openElems c acc n (l.map (fun a => (a, []))) s

/-- What the translations of elements leave where one of them is refused: those up to it. -/
def translatedAll (c : Nat) (acc : Acc) (n : Nat) : List Addr → State → State
  | [], s => s
  | a :: t, s =>
    let s1 := translatedFor s c acc a n
    match segsOf s c acc a n with
    | .error _ => s1
    | .ok _ => translatedAll c acc n t s1

/-- What stands before an access of a stream: in a shadow handler every access before the fault is performed first (R120, R232, R342). -/
def beforeAccess (s : State) (w : Who) : State := if shadow s w then flushPends s w.core else s

/-- Opens an MA access and goes on with its parts. A refused access has no effect but its walks. -/
def withAccess (s0 : State) (w : Who) (acc : Acc) (base : ABase) (width : Nat) (off : MOff)
    (k : List Seg → State → Res) : Res :=
  let s := beforeAccess s0 w
  match memAddr s w base width off with
  | .error (c, v) => .raise c v
  | .ok a =>
    match openAccess s w.core acc a width with
    | .error (c, v) => .raiseIn (translatedFor s w.core acc a width) c v
    | .ok (segs, s1) => k segs s1

/-- Whether every part can be read at issue and nothing older holds the access back: all parts are read at issue where one of
them is on a race page (R366). -/
def readsNow (s : State) (c : Nat) (op : PendOp) : Bool :=
  (op.segs.all (fun g => atIssue s c g && !g.isRemote) || (op.segs.any (detects s c) && !op.segs.any Seg.isRemote)) &&
    !heldBack (s.core c).a.pend op

/-- The bytes read at issue, if they are. -/
def captured (s : State) (c : Nat) (op : PendOp) : Option (List Byte) × State :=
  if readsNow s c op && (badSegs s c op.segs).isNone then
    let r := readSegs s c op.segs
    (some r.1, r.2)
  else (none, s)

/-- The owner of the requests of the item that `addPend` adds next. -/
def nextOwner (s : State) (c : Nat) : Owner := .pend c (s.core c).nextId

/-- Marks a scalar register of the A stream empty (R102). -/
def markA (d : Nat) (k : Core) : Core := { k with a := k.a.markEmpty d }

/-- Starts a load: its register is empty until the value lands (R102, R246). In a shadow handler it is performed at once. -/
def startLoad (s : State) (w : Who) (d n : Nat) (z : Bool) (segs : List Seg) : Res :=
  let op := PendOp.load d n z segs none
  if shadow s w then
    match badSegs s w.core segs with
    | some (cause, tv) => .raise cause (accTval true tv)
    | none =>
      let r := readSegs s w.core segs
      .ok (putReg r.2 w d (loadValue z n r.1)) .seq
  else if leavesLate s w.core op then .wait
  else
    let got := captured s w.core op
    let s1 := got.2.setCore w.core (markA d ((got.2.core w.core).addPend .a (.load d n z segs got.1)))
    .ok (if got.1.isSome then s1 else requestReads w.core (nextOwner s w.core) segs s1) .seq

/-! ## Stores -/

/-- A part of a store with its bytes and mask. -/
structure Part where
  seg : Seg
  data : List Byte
  mask : List Bool
  deriving DecidableEq, Repr

def partsOf : List Seg → List Byte → List Bool → List Part
  | [], _, _ => []
  | g :: t, data, mask => ⟨g, data.take g.len, mask.take g.len⟩ :: partsOf t (data.drop g.len) (mask.drop g.len)

/-- Performs the parts that take effect at issue. -/
def writeParts (c place : Nat) : List Part → State → State
  | [], s => s
  | p :: t, s => writeParts c place t (writeSeg s c place p.seg p.data p.mask)

/-- Counts writes of a core's quantum; the 4,096th ends it (R369). -/
def countDet (s : State) (c n : Nat) : State :=
  let k := s.core c
  s.setCore c { k with det := { k.det with counted := k.det.counted + n, ended := k.det.ended || 4096 ≤ k.det.counted + n } }

def countIf (b : Bool) (c n : Nat) (s : State) : State := if b then countDet s c n else s

/-- A store with buffered parts takes a place of its own in program order: releases that follow it stand behind those of them that leave
for another package at the commit (R370, R465). -/
def buffered (c : Nat) (now : List Part) (s : State) : State :=
  if now.any (fun p => buffers s c p.seg && p.seg.isRemote) then s.setCore c { s.core c with nextId := (s.core c).nextId + 1 } else s

/-- Performs the tile-store and buffered parts of a store at issue and leaves the rest pending; the parts of another package
go out as requests, and then nothing but buffered parts is performed before their acknowledgements (R120, R222, R341, R368, R449, R450).
The answer: the store waits, or the state after it. -/
def storeSegs (c : Nat) (parts : List Part) (s : State) : Option State :=
  let away := parts.any (fun p => p.seg.isRemote && !buffers s c p.seg)
  let atOnce (p : Part) : Bool := buffers s c p.seg || (!away && atIssue s c p.seg)
  let now := parts.filter atOnce
  let later := parts.filter (fun p => !atOnce p)
  let op := PendOp.store (later.map Part.seg) (later.flatMap Part.data) (later.flatMap Part.mask)
  if busyNow (s.core c) (now.map Part.seg) || leavesLate s c (.store (parts.map Part.seg) [] []) then none
  else
    let s1 := buffered c now (writeParts c (s.core c).nextId now s)
    if later.isEmpty then some s1
    else
      some (requestWrites c (nextOwner s1 c) (later.map Part.seg) (later.flatMap Part.data) (later.flatMap Part.mask)
        (s1.setCore c ((s1.core c).addPend .a op)))

/-- Starts the store of a synchronous form, which counts one write of its quantum (R369). -/
def startStore (s : State) (w : Who) (segs : List Seg) (data : List Byte) (mask : List Bool) : Res :=
  let c := w.core
  if shadow s w then .ok (writeSegs s c (s.core c).nextId segs data mask) .seq
  else
    match storeSegs c (partsOf segs data mask) s with
    | none => .wait
    | some s1 => .ok (countIf (segs.any (buffers s c)) c 1 s1) .seq

/-! ## LD and ST (R246) -/

def execLd (d : Nat) (base : ABase) (size : Nat) (z : Bool) (off : MOff) (s : State) : Out :=
  let w := s.whoOn .a
  let n := 2 ^ size
  finish w 4 s (needRegs s w (memRegs base off) (
    withAccess s w (syncAcc .read n) base n off (fun segs s1 => startLoad s1 w d n z segs)))

def execSt (d : Nat) (base : ABase) (size : Nat) (off : MOff) (s : State) : Out :=
  let w := s.whoOn .a
  let n := 2 ^ size
  finish w 4 s (needRegs s w (d :: memRegs base off) (
    withAccess s w (syncAcc .write n) base n off (fun segs s1 =>
      startStore s1 w segs (bytesOf n (regOf s w d).toNat) (List.replicate n true))))

/-! ## LDQ and STQ (R214 to R216, R247) -/

/-- Whether `n` more entries do not fit a q queue: 0x05 in gauge mode, a wait in rib mode (R214). -/
def queueFull (s : State) (w : Who) (q n : Nat) (k : Res) : Res :=
  if 8 < ((s.core w.core).qOf q).length + n then
    (if (s.stream w).gauge then .raise 0x05 (BitVec.ofNat 64 q) else .wait)
  else k

/-- The data of a queue entry from its bytes. -/
def entryOf (l : List Byte) : QData := .bytes (vecOfBytes l)

/-- Adds the pending entries of a queue load, each with its parts, to their reserved slots; all belong to `group`. -/
def startEntries (c q give group : Nat) : List (Nat × List Seg) → State → State
  | [], s => s
  | (id, segs) :: t, s =>
    let got := captured s c (.entry q id segs none group give)
    let owner := nextOwner s c
    let s1 := got.2.setCore c ((got.2.core c).addPend .a (.entry q id segs (got.1.map entryOf) group give))
    startEntries c q give group t (if got.1.isSome then s1 else requestReads c owner segs s1)

/-- What a queue access leaves in the page registers of its queue (R237): the page of its first byte is the current one, and a
next page that it reaches is promoted. -/
def noteQueue (s : State) (c queue : Nat) (a : Addr) : State :=
  match a with
  | .obj _ _ => s
  | .va v =>
    if v < tileBytes || !canonical v || (windowOf s c v 1).isSome then s
    else
      match translate s c (s.core c).ctx (v % 2 ^ 57) 0 with
      | .error _ => s
      | .ok t =>
        let k := s.core c
        let next := match tfind k.as.nextPage queue with
          | some n => if n.covers k.ctx (v % 2 ^ 57) then tdel k.as.nextPage queue else k.as.nextPage
          | none => k.as.nextPage
        s.setCore c { k with as := { k.as with
          curPage := tset k.as.curPage queue t, nextPage := next, qva := tset k.as.qva queue (v % 2 ^ 57) } }

/-- The gather translation cache of a core holds the translations of its latest element accesses, at most 64 (R236). -/
def noteGather (s : State) (c : Nat) (a : Addr) : State :=
  match a with
  | .obj _ _ => s
  | .va v =>
    if v < tileBytes || !canonical v || (windowOf s c v 1).isSome then s
    else
      match translate s c (s.core c).ctx (v % 2 ^ 57) 0 with
      | .error _ => s
      | .ok t =>
        let k := s.core c
        s.setCore c { k with gtlb := (t :: k.gtlb.filter (fun u => u != t)).take 64 }

def noteGathers (c : Nat) : List Addr → State → State
  | [], s => s
  | a :: t, s => noteGathers c t (noteGather s c a)

/-- The address of an MA access, where it has one. -/
def noteMem (s : State) (w : Who) (queue : Nat) (base : ABase) (width : Nat) (off : MOff) : State :=
  match memAddr s w base width off with
  | .ok a => noteQueue s w.core queue a
  | .error _ => s

/-- Reserves entries and starts them; an entry with a remote part waits for what would hold it back. -/
def startQueue (s : State) (w : Who) (q give : Nat) (entries : List (List Seg)) : Res :=
  let k := s.core w.core
  if entries.any (fun g => leavesLate s w.core (.entry q 0 g none 0 0)) then .wait
  else
    let r := k.reserveQ q entries.length
    .ok (startEntries w.core q give (r.1.headD 0) (r.1.zip entries) (s.setCore w.core r.2)) .seq

def execLdq (q : Nat) (base : ABase) (off : MOff) (s : State) : Out :=
  let w := s.whoOn .a
  finish w 4 s (needRegs s w (memRegs base off) (
    queueFull s w q 1 (
      withAccess s w (syncAcc .read 4) base 512 off (fun segs s1 =>
        startQueue (noteMem s1 w q base 512 off) w q 0 [segs]))))

/-- The entries at the head of a w queue, if `n` of them are present. -/
def wHead (k : Core) (q n : Nat) : Option (List (Vec × Pred)) :=
  if k.wPresent q < n then none else some (((k.wOf q).take n).filterMap WEnt.data)

def popW (k : Core) (q n : Nat) : Core := k.setW q ((k.wOf q).drop n)

/-- An entry whose mask is all zero is popped, and nothing of it is checked. -/
def execStq (q : Nat) (base : ABase) (off : MOff) (s : State) : Out :=
  let w := s.whoOn .a
  let k := s.core w.core
  finish w 4 s (needRegs s w (memRegs base off) (
    match wHead k q 1 with
    | some [(v, m)] =>
      let pop (t : State) : State := t.setCore w.core (popW (t.core w.core) q 1)
      if m == 0 then .ok (pop s) .seq
      else withAccess s w (storeAcc 4 (boolsOfPred m)) base 512 off (fun segs s1 =>
        startStore (noteMem (pop s1) w (16 + q) base 512 off) w segs (bytesOfVec v) (boolsOfPred m))
    | _ => .wait))

/-! ## LDT and STT (R248) -/

/-- The tile-store operand: 0x02, then alignment, then ownership. -/
def tileOperand (i : Instr) (s : State) (w : Who) (d : Nat) (k : Nat → Res) : Res :=
  let t := (regOf s w d).toNat
  if 0x7FFFF < t + 511 then .raise 0x02 (opTval i false 19)
  else if t % 64 != 0 then .raise 0x13 (accTval false t)
  else
    match segOfTile (s.core w.core) false t 512 with
    | .error (c, v) => .raise c v
    | .ok _ => k t

def execLdt (d : Nat) (base : ABase) (off : MOff) (s : State) : Out :=
  let w := s.whoOn .a
  finish w 4 s (needRegs s w (d :: memRegs base off) (
    tileOperand (.ldt d base off) s w d (fun t =>
      withAccess s w (syncAcc .read 64) base 512 off (fun segs s1 =>
        let op := PendOp.toTile t segs
        if leavesLate s1 w.core op then .wait
        else if segs.any (detects s1 w.core) && !segs.any Seg.isRemote then
          match badSegs s1 w.core segs with
          | some (cause, tv) => .ok (addLate s1 w ⟨cause, accTval true tv, none, none⟩) .seq
          | none =>
            let r := readSegs s1 w.core segs
            let s2 := countWaits r.2 w.core .store t 512
            .ok (s2.setCore w.core ((s2.core w.core).tileWrite t r.1 (List.replicate 512 true))) .seq
        else .ok (requestReads w.core (nextOwner s1 w.core) segs
          (s1.setCore w.core ((s1.core w.core).addPend .a op))) .seq))))

/-- STT reads its tile-store bytes at issue, after any pending copy into them. -/
def execStt (d : Nat) (base : ABase) (off : MOff) (s : State) : Out :=
  let w := s.whoOn .a
  finish w 4 s (needRegs s w (d :: memRegs base off) (
    tileOperand (.stt d base off) s w d (fun t =>
      let g : Seg := ⟨.tile, t, 512, plainAttr, t, none⟩
      withAccess s w (syncAcc .write 64) base 512 off (fun segs s1 =>
        if (s1.core w.core).a.pend.any (fun p => match p.op with | .toTile .. => segsMeet p.op.segs [g] | _ => false) then
          .wait
        else
          match badSegs s1 w.core [g] with
          | some (cause, tv) => .raise cause (accTval false tv)
          | none => startStore (countWaits s1 w.core .load t 512) w segs (readSeg s1 w.core g).1 (List.replicate 512 true)))))

/-! ## Long forms: the frame, LDQS, GATHQ, SCATQ (R210, R211, R249 to R251) -/

/-- The frame of A's long forms: the engines of the take and give fields, then the registers. -/
def aFrame (i : Instr) (c : ACtl) (regs : List Nat) (act : State → Who → Res) (s : State) : Out :=
  let w := s.whoOn .a
  finish w 8 s (
    match partnerFault i s w c.take c.give with
    | some (x, v) => .raise x v
    | none => needRegs s w regs (act s w))

/-- Takes the tokens of a form and reserves its gives, or says why it cannot issue. -/
def aTokens (c : ACtl) (s : State) (w : Who) (k : State → Res) : Res :=
  match reserveGive s w (c.give % 4) with
  | .error r => r
  | .ok s1 =>
    let k1 := s1.core w.core
    if k1.hasTokens (takeFifos .a c.take) then k (s1.setCore w.core (k1.takeAll (takeFifos .a c.take))) else .wait

/-- Entries of 512 bytes for `n` elements of `width` bytes. -/
def entriesFor (n width : Nat) : Nat := (n * width + 511) / 512

/-- Groups the parts of elements by entry. -/
def entryParts (width : Nat) : Nat → List (List Seg) → List (List Seg)
  | 0, _ => []
  | n + 1, l => (l.take (512 / width)).flatten :: entryParts width n (l.drop (512 / width))

def execLdqs (q : Nat) (d : ABase) (a b : Nat) (ty : Ty) (c : ACtl) (s : State) : Out :=
  let i : Instr := .ldqs q d a b ty c
  aFrame i c (baseRegs d ++ [a, b]) (fun s w =>
    let n := (regOf s w a).toNat
    let stride := (regOf s w b).toInt
    if n = 0 || 4096 / ty.width < n then .raise 0x02 (opTval i false 13)
    else
      queueFull s w q (entriesFor n ty.width) (aTokens c s w (fun s0 =>
        match baseAddr s w d with
        | .error (x, v) => .raise x v
        | .ok base =>
          let addrs := (List.range n).map (fun (j : Nat) => base.plus ((j : Int) * stride))
          match openAll w.core (syncAcc .read ty.width) ty.width addrs s0 with
          | .error (x, v) => .raiseIn (translatedAll w.core (syncAcc .read ty.width) ty.width addrs s) x v
          | .ok (parts, s1) =>
            startQueue (noteQueue s1 w.core q (base.plus (((n - 1 : Nat) : Int) * stride))) w q c.give
              (entryParts ty.width (entriesFor n ty.width) parts)))) s

/-- Reads bytes that an instruction needs before it issues: after the older accesses that hold a read of them back (R120, R254, R343),
and through requests where their home is another package (R239, R449). `s0` is the state before the access. -/
def readNow (s0 s : State) (w : Who) (segs : List Seg) (k : List Byte → State → Res) : Res :=
  let owner : Owner := .instr w.core w.eng
  let missing := segs.filter (fun g => g.isRemote && (findRead s owner g).isNone)
  if heldBack (s.core w.core).a.pend (.load 0 4 false segs none) then .wait
  else if !missing.isEmpty then .ok (requestReads w.core owner missing s0) (.stay .waiting)
  else
    match gather w.core owner segs s with
    | .ok l s1 => k l (dropReqs s1 owner)
    | .wait => .wait
    | .bad cause tv => .raiseIn (dropReqs s0 owner) cause (accTval false tv)

/-- The s32 entries of an index list. -/
def indices (l : List Byte) : Nat → List Int
  | 0 => []
  | n + 1 => signedField (natOf (l.take 4)) 32 :: indices (l.drop 4) n

/-- The first part outside the tile store: 0x09 in gauge mode for GATHQ and SCATQ (R251). -/
def tileOnly (s : State) (w : Who) (segs : List Seg) : Option Refused :=
  if (s.stream w).gauge then (segs.find? (fun g => g.home != .tile)).map (fun g => (0x09, accTval false g.tv)) else none

/-- The state in which an element form is refused after its index list was read: only walks have taken effect, and what was read of
the list is forgotten, since its reissue reads it anew (R239). -/
def refusedElems (s : State) (w : Who) (acc : Acc) (n : Nat) (addrs : List Addr) : State :=
  dropReqs (translatedAll w.core acc n addrs s) (.instr w.core w.eng)

/-- Opens and reads the index list of GATHQ or SCATQ. -/
def withIndices (s : State) (w : Who) (a n : Nat) (k : List Int → State → Res) : Res :=
  match openAccess s w.core (syncAcc .read 4) (.va (regOf s w a).toNat) (4 * n) with
  | .error (x, v) =>
    .raiseIn (dropReqs (translatedFor s w.core (syncAcc .read 4) (.va (regOf s w a).toNat) (4 * n)) (.instr w.core w.eng)) x v
  | .ok (segs, s1) =>
    match tileOnly s w segs with
    | some (x, v) => .raiseIn (dropReqs s (.instr w.core w.eng)) x v
    | none => readNow s s1 w segs (fun l s2 => k (indices l n) s2)

def execGathq (q : Nat) (d : ABase) (a b : Nat) (ty : Ty) (c : ACtl) (s : State) : Out :=
  let i : Instr := .gathq q d a b ty c
  aFrame i c (baseRegs d ++ [a, b]) (fun s w =>
    let n := (regOf s w b).toNat
    if n = 0 || 4096 / ty.width < n then .raise 0x02 (opTval i false 7)
    else
      queueFull s w q (entriesFor n ty.width) (aTokens c s w (fun _ =>
        match baseAddr s w d with
        | .error (x, v) => .raise x v
        | .ok base =>
          withIndices s w a n (fun idx s1 =>
            let acc := syncAcc .read ty.width
            let addrs := idx.map (fun x => base.plus (x * ty.width))
            match openAll w.core acc ty.width addrs s1 with
            | .error (x, v) => .raiseIn (refusedElems s w acc ty.width addrs) x v
            | .ok (parts, s2) =>
              match tileOnly s w parts.flatten with
              | some (x, v) => .raiseIn (refusedElems s w acc ty.width addrs) x v
              | none => aTokens c s2 w (fun s3 =>
                  startQueue (noteGathers w.core addrs s3) w q c.give (entryParts ty.width (entriesFor n ty.width) parts)))))) s

/-- The elements of the popped entries with their masks; those of an entry whose mask is all zero are left out. -/
def scatElems (width : Nat) : List (Vec × Pred) → List Int → List (Int × List Byte × List Bool)
  | [], _ => []
  | (v, m) :: t, idx =>
    let n := 512 / width
    let here := (idx.take n).mapIdx (fun j x =>
      (x, ((bytesOfVec v).drop (j * width)).take width, ((boolsOfPred m).drop (j * width)).take width))
    (if m == 0 then [] else here) ++ scatElems width t (idx.drop n)

def execScatq (q : Nat) (d : ABase) (a b : Nat) (ty : Ty) (c : ACtl) (s : State) : Out :=
  let i : Instr := .scatq q d a b ty c
  aFrame i c (baseRegs d ++ [a, b]) (fun s w =>
    let n := (regOf s w b).toNat
    let ne := entriesFor n ty.width
    if n = 0 || 4096 / ty.width < n then .raise 0x02 (opTval i false 7)
    else
      aTokens c s w (fun _ =>
        match wHead (s.core w.core) q ne with
        | none => .wait
        | some ents =>
          match baseAddr s w d with
          | .error (x, v) => .raise x v
          | .ok base =>
            withIndices s w a n (fun idx s1 =>
              let elems := scatElems ty.width ents idx
              let acc := syncAcc .write ty.width
              let addrs := elems.map (fun e => base.plus (e.1 * ty.width))
              match openElems w.core acc ty.width (addrs.zip (elems.map (fun e => e.2.2))) s1 with
              | .error (x, v) => .raiseIn (refusedElems s w acc ty.width addrs) x v
              | .ok (parts, s2) =>
                match tileOnly s w parts.flatten with
                | some (x, v) => .raiseIn (refusedElems s w acc ty.width addrs) x v
                | none =>
                  aTokens c (s2.setCore w.core (popW (s2.core w.core) q ne)) w (fun s3 =>
                    match startStore (noteGathers w.core addrs s3) w parts.flatten
                      (elems.flatMap (fun e => e.2.1)) (elems.flatMap (fun e => e.2.2)) with
                    | .ok s4 f => .ok (s4.setCore w.core ((s4.core w.core).giveReserved (giveFifos .a c.give))) f
                    | r => r))) ) s

/-! ## Atomics (R252 to R254, R365, R370, R465) -/

/-- Sends the pending atomic `id` of a core to another package (R449); `epoch`: 0, or the release epoch and 1. -/
def sendAtomic (s : State) (c : Nat) (g : Seg) (op : AmoOp) (id epoch : Nat) : State :=
  let r := { fabReq s c g (match op with | .rmw code _ => code | .cas .. => 15) epoch
    (match op with
     | .rmw _ b => bytesOf g.len b.toNat
     | .cas e n => bytesOf g.len e.toNat ++ bytesOf g.len n.toNat) with pa := g.addr }
  sendReq s r g.tv true (.pend c id) (.atomicReq r)

/-- What the atomic does at issue, once its waits are over: on the tile store it is performed; on a page of the deterministic
buffer it ends the quantum and is pending until the commit performs it, with one at most in a quantum (R369, R370); elsewhere it is
performed at its home. -/
def startAtomic (s : State) (w : Who) (d : Nat) (op : AmoOp) (dword acq rel : Bool) (g : Seg) : Res :=
  let c := w.core
  let k := s.core c
  let epoch := k.nextEpoch
  let s0 := if rel then s.setCore c k.bumpEpoch else s
  let p := PendOp.amo d op dword acq rel [g] (if rel then epoch + 1 else 0)
  if busyNow k [g] && atIssue s c g || buffers s c g && k.det.ended then .wait
  else if g.home == .tile then
    match badSegs s0 c [g] with
    | some (cause, tv) => .ok (addLate s0 w ⟨cause, accTval true tv, none, none⟩) .seq
    | none =>
      let r := amoLocal s0 c k.nextId g op
      .ok (r.2.setCore c (markA d ((r.2.core c).addPend .a (.scalar d (BitVec.ofNat 64 r.1) 0)))) .seq
  else if buffers s c g then
    let k1 := markA d ((s0.core c).addPend .a p)
    let s1 := s0.setCore c { k1 with det := { k1.det with ended := true, atomic := some k.nextId } }
    .ok (if rel then addRelAct s1 c epoch g.tv s.pkgId (some k.nextId) else s1) .seq
  else if leavesLate s c p then .wait
  else
    let s1 := s0.setCore c (markA d ((s0.core c).addPend .a p))
    match g.home with
    | .remote pkg _ =>
      let s2 := sendAtomic s1 c g op k.nextId (if rel then epoch + 1 else 0)
      let s3 := if rel then addRelAct s2 c epoch g.tv pkg (some k.nextId) else s2
      .ok (if rel && k.behind.isEmpty then emit s3 (.clear pkg c epoch) else s3) .seq
    | _ => .ok (if rel then addRelAct s1 c epoch g.tv s.pkgId (some k.nextId) else s1) .seq

def atomicAcc (n : Nat) : Acc := ⟨.write, n, true, false, true, .store, []⟩

/-- AMO and CAS: the checks of a write, then the waits of a release (R254). -/
def atomicForm (regs : List Nat) (d a : Nat) (op : State → Who → AmoOp) (dword : Bool) (ord : Nat) (s : State) : Out :=
  let w := s.whoOn .a
  let n := if dword then 8 else 4
  let acq := ord % 2 == 1
  let rel := decide (2 ≤ ord)
  finish w 4 s (needRegs s w regs (
    match openAccess s w.core (atomicAcc n) (.va (regOf s w a).toNat) n with
    | .error (c, v) => .raiseIn (translatedFor s w.core (atomicAcc n) (.va (regOf s w a).toNat) n) c v
    | .ok (segs, s1) =>
      let k := s.core w.core
      if rel && !(k.settledA && k.as.xfers.isEmpty) then .wait
      else
        match segs with
        | [g] => startAtomic s1 w d (op s w) dword acq rel g
        | _ => .wait))

def execAmo (d a b op : Nat) (dword : Bool) (ord : Nat) (s : State) : Out :=
  atomicForm [a, b] d a (fun s w => .rmw op (regOf s w b)) dword ord s

def execCas (d a b : Nat) (dword : Bool) (ord : Nat) (s : State) : Out :=
  atomicForm [d, a, b] d a (fun s w => .cas (regOf s w d) (regOf s w b)) dword ord s

/-! ## FENCE and SPADJ (R255, R256) -/

/-- A party toward which the order of an act of a scope binds (R346): the core's own transfers at every scope; beyond it, another core in
its unit that has a job or is taken for one. -/
def hasParty (s : State) (c scope : Nat) : Bool :=
  !(s.core c).as.xfers.isEmpty || 4 ≤ scope ||
    (2 ≤ scope && ((s.cores.filter (fun p => p.2.job.isSome)).map Prod.fst ++ s.launches.flatMap (fun l => l.cores.map Prod.fst)).any
      (fun d => d != c && unitOf scope d == unitOf scope c))

/-- FENCE: the earlier synchronous accesses are performed first, unless no party is there for which it orders them; `.rel` and `.full`
wait for the earlier transfers at every scope, and at fabric scope for remote stores that are still buffered (R255, R346, R465). -/
def execFence (kind scope : Nat) (s : State) : Out :=
  let w := s.whoOn .a
  let k := s.core w.core
  finish w 4 s (
    if (hasParty s w.core scope && !k.doneA) || (1 ≤ kind && !k.as.xfers.isEmpty) then .wait
    else if 1 ≤ kind && scope = 5 && !k.det.away.isEmpty then toCommit s w
    else .ok s .seq)

def execSpadj (imm : Int) (s : State) : Out :=
  let w := s.whoOn .a
  let t := regOf s w 30 + BitVec.ofInt 64 (16 * imm)
  finish w 4 s (needRegs s w [30] (
    if t.toNat < (s.core w.core).as.slim.toNat then .raise 0x12 t else .ok (putReg s w 30 t) .seq))

/-! ## Translation (R237, R258 to R260) -/

/-- The attributes word of TLBP. -/
def attrWord (a : Attr) (size : Nat) (remote : Bool) : Word :=
  let bit (b : Bool) (i : Nat) : Nat := if b then 2 ^ i else 0
  BitVec.ofNat 64 (1 + bit a.writable 1 + bit a.executable 2 + a.kind * 8 + bit a.cmp 5 + bit a.rep 6 + bit a.race 7 +
    bit a.det 8 + size * 512 + bit remote 11)

def addrWord (pkg pa : Nat) : Word := BitVec.ofNat 64 (2 ^ 63 + pkg * 2 ^ 44 + pa)

/-- What TLBP answers, and the translation it installs. -/
def probe (s : State) (c va : Nat) (attrs : Bool) : Word × Option Trans :=
  if va < tileBytes then (if attrs then 1 else addrWord s.pkgId va, none)
  else if !canonical va then (0, none)
  else
    match windowOf s c va 1 with
    | some (.ok pa) => (if attrs then attrWord plainAttr 0 false else addrWord s.pkgId pa, none)
    | some (.error _) => (0, none)
    | none =>
      let ctx := (s.core c).ctx
      let t := match translate s c ctx (va % 2 ^ 57) 0 with
        | .ok t => some t
        | .error _ => (walk s ctx (va % 2 ^ 57)).toOption
      match t with
      | none => (0, none)
      | some t => (if attrs then attrWord t.attr t.size (t.pkg != s.pkgId) else addrWord t.pkg (t.pa (va % 2 ^ 57)), some t)

/-- What a probe leaves: the walk that it makes (R334, R383). -/
def probed (s : State) (c va : Nat) : State :=
  if va < tileBytes || !canonical va || (windowOf s c va 1).isSome then s
  else
    let ctx := (s.core c).ctx
    match translate s c ctx va 0 with
    | .ok _ => translated s c ctx va 0
    | .error _ => walked s c ctx (va % 2 ^ 57)

def execTlbp (d a : Nat) (attrs : Bool) (s : State) : Out :=
  let w := s.whoOn .a
  let va := (regOf s w a).toNat
  let r := probe s w.core va attrs
  let s0 := probed s w.core va
  let s1 := match r.2 with | some t => installTrans s0 (clusterOf w.core) t | none => s0
  finish w 4 s (needRegs s w [a] (.ok (putReg s1 w d r.1) .seq))

def execPghint (queue dist : Nat) (s : State) : Out :=
  let w := s.whoOn .a
  let k := s.core w.core
  finish w 4 s (.ok (s.setCore w.core { k with as := { k.as with hint := tset k.as.hint queue dist } }) .seq)

/-- TLBINV stands at its instruction until every cache in reach has dropped the entries (R260). -/
def execTlbinv (a reach : Nat) (s : State) : Out :=
  let w := s.whoOn .a
  let va := if reach % 2 = 0 then regOf s w a else 0
  let t := s.stream w
  if !t.super then finish w 4 s (.raise 0x03 (firstWord (.tlbinv a reach)))
  else if reach % 2 = 0 && !t.full a then finish w 4 s .wait
  else if t.gauge && !shadow s w then finish w 4 s (.raise 0x09 (accTval false va.toNat))
  else .next (s.setStream w { t with at_ := .tlbinv reach va, run := .waiting })

end Sys2Proof.Machine
end

