-- ==== Sys2Proof/Machine/Commands.lean ====
section
/-! DEFINITION. How M's commands retire and suspend (R290 to R292, R297), and how MRUN commands bind feeds (R293). -/

namespace Sys2Proof.Machine

/-! ## Records of commands (R290) -/

/-- Replaces a command by its number. -/
def Core.setCmd (k : Core) (c : Cmd) : Core :=
  let f (l : List Cmd) := l.map (fun d => if d.seq == c.seq then c else d)
  { k with ms := { k.ms with window := f k.ms.window, records := f k.ms.records } }

/-- The major opcode of a command (R292, R299). -/
def MOp.major : MOp → Nat
  | .wld .. => 0x60
  | .wlds .. => 0x61
  | .run .. => 0x62
  | .anch .. | .anch4 .. => 0x63
  | .zero .. => 0x64
  | .drn .. => 0x65

def CmdState.code : CmdState → Nat
  | .entered => 1
  | .issued => 2
  | .suspended => 3
  | .retired => 4
  | .cancelled => 5

/-- The `tval` of a command's cause (R292). -/
def cmdTval (c : Cmd) (tag detail : Nat) : Word :=
  BitVec.ofNat 64 (2 ^ 63 + tag % 65536 * 2 ^ 43 + detail % 2 ^ 19 * 2 ^ 24 + c.op.major * 256 + c.cid * 16)

/-! ## Retirement and suspension (R291, R297, R307) -/

/-- A command leaves the window: its record stays until a newer one with its id enters. -/
def leaveWindow (k : Core) (c : Cmd) : Core :=
  { k with ms := { k.ms with window := k.ms.window.filter (fun d => d.seq != c.seq), records := k.ms.records ++ [c] } }

/-- Retires a command: its flags are set and it gives, or, under `qflags.aovte`, 0x23 in place of its give (R76, R291). -/
def retireCmd (s : State) (core : Nat) (c : Cmd) : State :=
  let k := s.core core
  let gives := giveFifos .m c.give
  let spills := overflows k.m c.flags
  let c1 := { c with state := .retired, seen := if spills then 0x23 :: c.seen else c.seen }
  let k1 := leaveWindow { k with m := k.m.addFlags c.flags } c1
  let s1 := s.setCore core (if spills then k1.unreserve gives else k1.giveReserved gives)
  tryEndJob (if spills then addLate s1 ⟨core, .m⟩ ⟨0x23, cmdTval c 0 0, none, none⟩ else s1) core

/-- An issued MRUN whose checks have passed retires once it is complete and its completing row, where a row completes it, has left the
array (R297). -/
def tryRetireRun (s : State) (core seq : Nat) : State :=
  let k := s.core core
  match k.ms.window.find? (fun c => c.seq == seq) with
  | none => s
  | some c =>
    if c.op.isRun && c.state == .issued && c.checked && c.complete && !k.ms.array.any (fun p => p.cmd == seq && p.last) then
      retireCmd s core c
    else s

/-- Suspends a command: the M stream takes the cause, and ERET resumes the command (R290, R291). -/
def suspendCmd (s : State) (core : Nat) (c : Cmd) (cause detail : Nat) : State :=
  let c1 := { c with state := .suspended, checked := if c.op.isRun then false else c.checked }
  tryEndJob (addLate (s.setCore core ((s.core core).setCmd c1)) ⟨core, .m⟩ ⟨cause, cmdTval c 0 detail, none, some c.seq⟩) core

/-- Reports a row's cause once for its command (R291). -/
def reportRow (s : State) (core : Nat) (c : Cmd) (cause : Nat) (r : Row) : State :=
  let s1 := s.setCore core ((s.core core).setCmd { c with seen := if c.seen.contains cause then c.seen else cause :: c.seen })
  if c.seen.contains cause then s1
  else addLate s1 ⟨core, .m⟩ ⟨cause, cmdTval c r.tag r.seq, none, none⟩

/-! ## Binding (R293) -/

def Cmd.rowTy (c : Cmd) : Ty := match c.op with | .run _ _ _ _ _ ty _ _ => ty | _ => .bf16

def setBound (k : Core) (feed seq : Nat) : Core :=
  { k with ms := { k.ms with feeds := k.ms.feeds.map (fun f => if f.id == feed then { f with bound := some seq } else f) } }

/-- The MRUN whose turn it is binds the next unbound feed; one whose row type differs suspends it with 0x02. -/
def bindNow (s : State) (core : Nat) : State :=
  let k := s.core core
  match k.binds with
  | none => s
  | some (c, f) =>
    let s1 := s.setCore core (setBound k f.id c.seq)
    if c.rowTy = f.ty then s1 else suspendCmd s1 core c 0x02 0

end Sys2Proof.Machine
end

