-- ==== Sys2Proof/Machine/Convert.lean ====
section
/-! DEFINITION. The data side of A's transfers: conversion on the copy path (R84, R85, R267, R269), pooling (R272, R273)
and the expansion of coded data (R276 to R278). -/

namespace Sys2Proof.Machine

/-! ## The copy path -/

/-- The bytes of `n` elements on a side (R71, R85, R262): K4 blocks of 17, MX blocks of 33 or 17. -/
def sideBytes (t : Ty) (mx : Bool) (n : Nat) : Nat :=
  if t = .k4 then n / 32 * 17 else if mx then n / 32 * 33 else n * t.width

/-- The elements that are converted together: a block on a K4 or MX side. -/
def unitLen (dty sty : Ty) (mx : Nat) : Nat := if dty = .k4 || sty = .k4 || mx != 0 then 32 else 1

/-- The alignment of a side (R235): the element width; blocks 1 byte. -/
def sideAlign (t : Ty) (mx : Bool) : Nat := if mx || t = .k4 then 1 else t.width

/-- The codes of `n` plain elements. -/
def codesOf (w n : Nat) (l : List Byte) : List Nat := (chunks w n l).map natOf8
where natOf8 (b : List Byte) : Nat := b.foldr (fun x acc => x.toNat + 256 * acc) 0

/-- The exact values of a K4 or MX block. -/
def blockVals (t : Ty) (mx : Bool) (l : List Byte) : List Num :=
  let at_ (i : Nat) : Nat := (l.getD i 0).toNat
  let nibble (i : Nat) : Nat := at_ (i / 2) / 16 ^ (i % 2) % 16
  (List.range 32).map (fun i =>
    if t = .k4 then (if mx then mxElem .k4 (at_ 16) (nibble i) else k4Elem (at_ 16) (nibble i))
    else mxElem t (at_ 32) (at_ i))

/-- A value converted to a plain element type. -/
def numTo (t : Ty) (r : RMode) (x : Num) : Nat × Word :=
  if t.isInt then
    let (i, fl) := intOfNum t r x
    (wrapTo (8 * t.width) i, fl)
  else (Fmt.ofTy t).round r false x

/-- Bytes of elements, lowest first. -/
def elemBytes (w : Nat) (l : List Nat) : List Byte :=
  l.flatMap (fun v => (List.range w).map (fun i => BitVec.ofNat 8 (v / 256 ^ i)))

def orFlags (l : List Word) : Word := l.foldl (fun a b => a ||| b) 0

/-- The bytes of a K4 or MX block of 32 values (R73, R85, R245). -/
def blockBytes (t : Ty) (mx : Bool) (kind : Nat) (rnd : Rnd) (dph : Nat) (xs : List Num) : List Byte × Word :=
  if t = .k4 && !mx then
    let (c, e, fl) := encodeK4 xs kind (RMode.at rnd dph)
    ((k4Bytes c e).map (BitVec.ofNat 8), fl)
  else
    let (c, e, fl) := encodeMx t xs (RMode.at rnd dph)
    ((if t = .k4 then k4Bytes c e else c ++ [e]).map (BitVec.ofNat 8), fl)

/-- A source value as f32, through which the copy path passes every conversion with a float or K4 type on a side (R84). -/
def asF32 (x : Num) : NumF := roundNum fmtF32 rmRne ⟨x, 0⟩

/-- One unit of a copy: `unitLen` elements from position `pos` of their run. -/
def convUnit (dty sty : Ty) (rnd : Rnd) (dph mx kind pos : Nat) (l : List Byte) : List Byte × Word :=
  let n := unitLen dty sty mx
  let srcBlock := mx == 1 || sty == .k4
  let dstBlock := mx == 2 || dty == .k4
  let xs := (if srcBlock then blockVals sty (mx == 1) l else (codesOf sty.width n l).map (elemNum sty)).map asF32
  if dstBlock then
    let r := blockBytes dty (mx == 2) kind rnd dph (xs.map NumF.val)
    (r.1, r.2 ||| orFlags (xs.map NumF.flags))
  else
    let r := if srcBlock then
        xs.mapIdx (fun i x => let y := numTo dty (RMode.at rnd dph (pos + i)) x.val; (y.1, x.flags ||| y.2))
      else (codesOf sty.width n l).mapIdx (fun i v => copyElem dty sty (RMode.at rnd dph (pos + i)) v)
    (elemBytes dty.width (r.map Prod.fst), orFlags (r.map Prod.snd))

/-- A row of `units` units: their bytes and flags, from position `pos`. -/
def convRow (dty sty : Ty) (rnd : Rnd) (dph mx kind : Nat) : Nat → Nat → List Byte → List Byte × Word
  | _, 0, _ => ([], 0)
  | pos, n + 1, l =>
    let u := unitLen dty sty mx
    let b := sideBytes sty (mx == 1) u
    let r := convUnit dty sty rnd dph mx kind pos (l.take b)
    let rest := convRow dty sty rnd dph mx kind (pos + u) n (l.drop b)
    (r.1 ++ rest.1, r.2 ||| rest.2)

/-! ## Pooling -/

/-- The profiles and source types of R272. -/
def poolTypes (np : Np) (sty : Ty) : Bool :=
  match np with
  | .np4 => sty.isInt
  | _ => sty == .f32 || sty == .bf16 || sty == .f16 || sty == .e4m3 || sty == .e5m2

/-- The pooled value of one element from its terms in order: an exact value and flags; the division is that of `.mean`. -/
def poolElem (np : Np) (mean : Bool) (ts : List Num) : NumF :=
  match np with
  | .np4 =>
    let s : Int := signedField (wrapTo 32 ((ts.map intVal).foldl (fun a b => a + b) 0)) 32
    ⟨Num.ofInt (if mean && !ts.isEmpty then s.tdiv ts.length else s), 0⟩
  | .np3 =>
    let an := anchorOf ts
    let (c, fl) := ancSum an AncCell.zero ts
    let v := c.value an
    if mean && !ts.isEmpty then
      let q := Num.div v (Num.ofInt ts.length)
      ⟨q.val, fl ||| q.flags⟩
    else ⟨v, fl⟩
  | _ =>
    match ts with
    | [] => NumF.pure (.fin false 0 0)
    | t :: rest =>
      let s := (rest.map NumF.pure).foldl addRne (NumF.pure t)
      if mean then
        let q := Num.div s.val (Num.ofInt ts.length)
        roundNum fmtF32 rmRne ⟨q.val, s.flags ||| q.flags⟩
      else s
where
  intVal : Num → Int
    | .fin n m _ => if n then -(m : Int) else m
    | _ => 0

/-- A pooled element in a plain destination type: one rounding under np3, else through f32 where a float takes part. -/
def poolTo (np : Np) (dty : Ty) (r : RMode) (x : NumF) : Nat × Word :=
  match np, dty.isInt with
  | .np4, true => let (b, fl) := intOfInt dty (poolElem.intVal x.val); (wrapTo (8 * dty.width) b, x.flags ||| fl)
  | .np4, false =>
    let y := roundNum fmtF32 rmRne x
    let r1 := numTo dty r y.val
    (r1.1, y.flags ||| r1.2)
  | _, _ => let r1 := numTo dty r x.val; (r1.1, x.flags ||| r1.2)

/-- A pooled row written in its destination type; position is the element index in the row, or in its block. -/
def poolRow (np : Np) (dty : Ty) (rnd : Rnd) (dph kind : Nat) (xs : List NumF) : List Byte × Word :=
  if dty = .k4 then
    let bs := (chunks 32 (xs.length / 32) xs).map (fun b =>
      blockBytes .k4 false kind rnd dph (b.map (fun x => if np = .np4 then (roundNum fmtF32 rmRne x).val else x.val)))
    (bs.flatMap Prod.fst, orFlags (xs.map NumF.flags) ||| orFlags (bs.map Prod.snd))
  else
    let r := xs.mapIdx (fun i x => poolTo np dty (RMode.at rnd dph i) x)
    (elemBytes dty.width (r.map Prod.fst), orFlags (r.map Prod.snd))

/-- Element `j` of each row. -/
def column (j : Nat) (rows : List (List Num)) : List Num := rows.map (fun r => r.getD j (.fin false 0 0))

/-- The values of the elements of a row of any type. -/
def rowVals (t : Ty) (n : Nat) (l : List Byte) : List Num :=
  if t = .k4 then (chunks 17 (n / 32) l).flatMap (blockVals .k4 false) else (codesOf t.width n l).map (elemNum t)

/-- The terms of a row in its pooling: floats exact. R272 names the types of the source alone: a destination of another kind than its
profile's is taken as well, its old values as f32 or s32 by RNE and without flags (DESIGN CHOICE, log 28). -/
def poolVals (np : Np) (t : Ty) (n : Nat) (l : List Byte) : List Num :=
  (rowVals t n l).map (fun x => if np != .np4 && t.isInt then (roundNum fmtF32 rmRne ⟨x, 0⟩).val else
    if np == .np4 && !t.isInt then Num.ofInt (intOfNum .s32 rmRne x).1 else x)

/-! ## Coded data -/

/-- A piece of decoded output: the block it is charged to, and its bytes. -/
abbrev Piece := Nat × List Byte

/-- The literals of a run: `n` values of `w` bytes from byte `i`; a cut one is completed with zeros when the input ends. -/
def literals (w : Nat) (ended : Bool) : Nat → Nat → List Byte → List Piece
  | 0, _, _ => []
  | n + 1, i, l =>
    match l with
    | [] => []
    | _ =>
      if l.length < w && !ended then []
      else (i / 64, (l.take w) ++ List.replicate (w - l.length) 0) :: literals w ended n (i + w) (l.drop w)

/-- The output of `.zr` coded bytes from byte `i`, as far as they are held (R277, R278). -/
def zrOut (w : Nat) (ended : Bool) : Nat → Nat → List Byte → List Piece
  | 0, _, _ => []
  | _, _, [] => []
  | f + 1, i, x :: t =>
    let n := x.toNat % 128 + 1
    if x.toNat < 128 then (i / 64, List.replicate (n * w) 0) :: zrOut w ended f (i + 1) t
    else literals w ended n (i + 1) t ++
      (if t.length < n * w then [] else zrOut w ended f (i + 1 + n * w) (t.drop (n * w)))

/-- The output of `.cb` codes: the first `e` bf16 values of each code's entry (R275, R276). -/
def cbOut (e : Nat) (table : List Word) : Nat → List Byte → List Piece
  | _, [] => []
  | i, x :: t =>
    (i / 64, ((List.range 8).map (fun j => BitVec.ofNat 8 ((table.getD x.toNat 0).toNat / 256 ^ j))).take (2 * e)) ::
      cbOut e table (i + 1) t

/-- The bytes charged to block `k`, of the first `room` output bytes. -/
def charged (k : Nat) : Nat → List Piece → Nat
  | _, [] => 0
  | room, (b, l) :: t => (if b = k then min room l.length else 0) + charged k (room - l.length) t

end Sys2Proof.Machine
end

