-- ==== Sys2Proof/Machine/Transfer.lean ====
section
/-! DEFINITION. The asynchronous transfers of the access engine (R242, R243): copies, gathering with pooling, scattering
(R266 to R273), page moves (R270), DECQ (R275 to R278), the row feeds (R261 to R265), and PASS, which waits
for them (R223 to R225). -/

namespace Sys2Proof.Machine

/-! ## Reading and writing an element -/

/-- What a transfer's reads answer: bytes, requests that are still to be sent or answered, or a cause with its `tval`. -/
inductive XGot where
  | ok (l : List Byte) (s : State)
  | wait (missing : List Seg)
  | bad (cause : Nat) (tval : Word)
  deriving Repr

def XGot.then (g : XGot) (k : List Byte → State → XGot) : XGot :=
  match g with
  | .ok l s => k l s
  | r => r

/-- A captured base moved by an offset. -/
def Base.addr (b : Base) (off : Int) : Addr :=
  match b with
  | .va a => (Addr.va a.toNat).plus off
  | .obj slot => .obj slot off

/-- A transfer's access: its causes are late and the gauge rule does not hold for it. A row of a feed is read by the row port. -/
def xferAcc (use : Use) (align : Nat) : Acc := ⟨use, align, false, true, false, .copy, []⟩
def rowAcc (align : Nat) : Acc := ⟨.read, align, false, true, false, .port, []⟩

def readBy (acc : Acc) (c slot : Nat) (b : Base) (off : Int) (n : Nat) (s : State) : XGot :=
  match openAccess s c acc (Base.addr b off) n with
  | .error (cause, tval) => .bad cause tval
  | .ok (segs, s1) =>
    let owner : Owner := .xfer c slot
    let missing := segs.filter (fun g => g.isRemote && (findRead s owner g).isNone)
    if !missing.isEmpty then .wait missing
    else
      match gather c owner segs s1 with
      | .ok l s2 => .ok l s2
      | .wait => .wait []
      | .bad cause tv => .bad cause (accTval true tv)

def readAt (c slot : Nat) (b : Base) (off : Int) (n align : Nat) (s : State) : XGot := readBy (xferAcc .read align) c slot b off n s

def Core.xfer? (k : Core) (slot : Nat) : Option Transfer := tfind k.as.xfers slot
def Core.setXfer (k : Core) (slot : Nat) (x : Transfer) : Core := { k with as := { k.as with xfers := tset k.as.xfers slot x } }
def putXfer (s : State) (c slot : Nat) (x : Transfer) : State := s.setCore c ((s.core c).setXfer slot x)

/-- Changes the transfer in a slot, if there is one. -/
def mapXfer (s : State) (c slot : Nat) (f : Transfer → Transfer) : State :=
  match (s.core c).xfer? slot with
  | some x => putXfer s c slot (f x)
  | none => s

/-- The row that a gather has read for an index within the window of 256 positions that holds `pos` (R274). -/
def fanned (s : State) (c slot pos : Nat) (idx : Int) : Option (List Byte) :=
  match (s.core c).xfer? slot with
  | some x => (x.fan.find? (fun p => p.1 == pos / 256 && p.2.1 == idx)).map (fun p => p.2.2)
  | none => none

/-- Reads the row that an index names, with `read`, once for all positions of a window (R274). -/
def readFan (c slot pos : Nat) (idx : Int) (read : State → XGot) (s : State) : XGot :=
  match fanned s c slot pos idx with
  | some l => .ok l s
  | none => (read s).then (fun l s1 => .ok l (mapXfer s1 c slot (fun x => { x with fan := (pos / 256, idx, l) :: x.fan })))

/-- Reads the rows that indices name from a position on. -/
def readRows (c slot : Nat) (b : Base) (stride : Int) (n align : Nat) : Nat → List Int → State → XGot
  | _, [], s => .ok [] s
  | pos, x :: t, s =>
    (readFan c slot pos x (readAt c slot b (x * stride) n align) s).then (fun l s1 =>
      (readRows c slot b stride n align (pos + 1) t s1).then (fun r s2 => .ok (l ++ r) s2))

/-- Reads pieces of one length at several offsets, in order. -/
def readMany (c slot : Nat) (b : Base) (n align : Nat) : List Int → State → XGot
  | [], s => .ok [] s
  | o :: t, s =>
    (readAt c slot b o n align s).then (fun l s1 => (readMany c slot b n align t s1).then (fun r s2 => .ok (l ++ r) s2))

/-- What the reads of a unit lead to. -/
inductive XUnit where
  | write (o : XPiece) (flags : Word) (s : State)
  | skip (s : State)
  | wait (missing : List Seg)
  | bad (cause : Nat) (tval : Word)
  deriving Repr

def XGot.to (g : XGot) (k : List Byte → State → XUnit) : XUnit :=
  match g with
  | .ok l s => k l s
  | .wait m => .wait m
  | .bad c v => .bad c v

/-! ## The units of a transfer -/

/-- The counts of the levels multiplied (R267). -/
def tuples (ls : List Level) : Nat := ls.foldl (fun n l => n * l.count) 1

/-- The source and destination offsets of run `r`, level 0 innermost. -/
def runOffsets : List Level → Nat → Int × Int
  | [], _ => (0, 0)
  | l :: t, r =>
    let rest := runOffsets t (r / l.count)
    let i : Int := (r % l.count : Nat)
    (i * l.src + rest.1, i * l.dst + rest.2)

/-- The units of a transfer in emission order: elements or blocks of a copy, rows, bags, 16 KiB pieces of a page. -/
def XferOp.units : XferOp → Nat
  | .cpgo _ _ m dty sty _ mx _ ls => tuples ls * (m / unitLen dty sty mx)
  | .move _ _ size _ _ => 2 ^ (pageShift size) / 0x4000 + 2
  | .gather _ _ _ _ _ _ _ _ _ _ _ _ _ n => n
  | .scatter _ _ _ _ _ _ _ _ _ _ _ _ n => n
  | .feed _ _ _ _ n _ _ _ _ _ _ _ _ => n
  | .decode _ ids _ _ _ _ _ _ => ids.length

/-- A signed entry of an index list. -/
def idxOf (l : List Byte) : Int := signedField (natOf (l.take 4)) 32

/-- A row of `len` elements read at the copy path. -/
def rowLen (t : Ty) (len : Nat) : Nat := sideBytes t false len

def copyUnit (c slot u : Nat) (dst src : Base) (m : Nat) (dty sty : Ty) (rnd : Rnd) (mx kind dph : Nat) (ls : List Level)
    (s : State) : XUnit :=
  let ul := unitLen dty sty mx
  let per := m / ul
  let o := runOffsets ls (u / per)
  let k := u % per
  let sb := sideBytes sty (mx == 1) ul
  let db := sideBytes dty (mx == 2) ul
  (readAt c slot src (o.1 + (k * sb : Nat)) sb (sideAlign sty (mx == 1)) s).to (fun l s1 =>
    let r := convUnit dty sty rnd dph mx kind (k * ul) l
    .write ⟨dst, o.2 + (k * db : Nat), sideAlign dty (mx == 2), r.1⟩ r.2 s1)

/-- CPGATH `.cp`: one row. -/
def gatherRow (c slot k : Nat) (dst src index : Base) (dty sty : Ty) (rnd : Rnd) (kind dph len : Nat) (ss ds : Int)
    (s : State) : XUnit :=
  (readAt c slot index ((4 * k : Nat) : Int) 4 4 s).to (fun l s1 =>
    (readFan c slot k (idxOf l) (readAt c slot src (idxOf l * ss) (rowLen sty len) (sideAlign sty false)) s1).to (fun row s2 =>
      let r := convRow dty sty rnd dph 0 kind 0 (len / unitLen dty sty 0) row
      .write ⟨dst, k * ds, sideAlign dty false, r.1⟩ r.2 (noteGather s2 c (Base.addr src (idxOf l * ss)))))

/-- Splits equal pieces of a byte list into the values of their rows. -/
def rowsOf (np : Np) (t : Ty) (len : Nat) (n : Nat) (l : List Byte) : List (List Num) :=
  (chunks (rowLen t len) n l).map (poolVals np t len)

/-- CPGATH `.sum` and `.mean`: one bag. A bag that ends before it begins is 0x02 naming the bag list's field (R271). -/
def gatherBag (c slot g : Nat) (dst src index bags : Base) (mean : Bool) (dty sty : Ty) (rnd : Rnd) (kind dph : Nat)
    (np : Np) (len : Nat) (ss ds : Int) (bagTval : Word) (s : State) : XUnit :=
  (readAt c slot bags ((4 * g : Nat) : Int) 8 4 s).to (fun l s1 =>
    let lo := natOf (l.take 4)
    let hi := natOf (l.drop 4)
    if hi < lo then .bad 0x02 bagTval
    else
      (readMany c slot index 4 4 ((List.range (hi - lo)).map (fun i => ((4 * (lo + i) : Nat) : Int))) s1).to (fun ix s2 =>
        (readRows c slot src ss (rowLen sty len) (sideAlign sty false) lo (indices ix (hi - lo)) s2).to
          (fun rows s3 =>
            let vals := rowsOf np sty len (hi - lo) rows
            let r := poolRow np dty rnd dph kind ((List.range len).map (fun j => poolElem np mean (column j vals)))
            .write ⟨dst, g * ds, sideAlign dty false, r.1⟩ r.2
              (noteGathers c ((indices ix (hi - lo)).map (fun x => Base.addr src (x * ss))) s3))))

/-- CPSCAT `.ord`: one row. -/
def scatterRow (c slot k : Nat) (dst src index : Base) (dty sty : Ty) (rnd : Rnd) (kind dph len : Nat) (ss ds : Int)
    (s : State) : XUnit :=
  (readAt c slot index ((4 * k : Nat) : Int) 4 4 s).to (fun l s1 =>
    (readAt c slot src (k * ss) (rowLen sty len) (sideAlign sty false) s1).to (fun row s2 =>
      let r := convRow dty sty rnd dph 0 kind 0 (len / unitLen dty sty 0) row
      .write ⟨dst, idxOf l * ds, sideAlign dty false, r.1⟩ r.2 (noteGather s2 c (Base.addr dst (idxOf l * ds)))))

/-- CPSCAT `.add`: the first row that names a destination row adds every row of the command that names it, by whichever index (R273). -/
def scatterAdd (c slot k : Nat) (dst src index : Base) (dty sty : Ty) (rnd : Rnd) (kind dph : Nat) (np : Np) (len : Nat)
    (ss ds : Int) (n : Nat) (s : State) : XUnit :=
  (readAt c slot index 0 (4 * n) 4 s).to (fun l s1 =>
    let ix := indices l n
    let at_ : Int := ix.getD k 0 * ds
    if (ix.take k).any (fun y => y * ds == at_) then .skip s1
    else
      let ks := (List.range n).filter (fun j => ix.getD j 0 * ds == at_)
      (readAt c slot dst at_ (rowLen dty len) (sideAlign dty false) s1).to (fun old s2 =>
        (readMany c slot src (rowLen sty len) (sideAlign sty false) (ks.map (fun (j : Nat) => (j : Int) * ss)) s2).to
          (fun rows s3 =>
            let vals := poolVals np dty len old :: rowsOf np sty len ks.length rows
            let r := poolRow np dty rnd dph kind ((List.range len).map (fun j => poolElem np false (column j vals)))
            .write ⟨dst, at_, sideAlign dty false, r.1⟩ r.2 (noteGather s3 c (Base.addr dst at_)))))

/-- The reads and the result of unit `u` of a transfer that writes memory element by element. -/
def XferOp.unit (c slot u dph : Nat) (bagTval : Word) (s : State) : XferOp → XUnit
  | .cpgo dst src m dty sty rnd mx kind ls => copyUnit c slot u dst src m dty sty rnd mx kind dph ls s
  | .gather dst src index bags op dty sty rnd kind np len ss ds _ =>
    if op = 0 then gatherRow c slot u dst src index dty sty rnd kind dph len ss ds s
    else gatherBag c slot u dst src index bags (op == 2) dty sty rnd kind dph np len ss ds bagTval s
  | .scatter dst src index add dty sty rnd kind np len ss ds n =>
    if add then scatterAdd c slot u dst src index dty sty rnd kind dph np len ss ds n s
    else scatterRow c slot u dst src index dty sty rnd kind dph len ss ds s
  | _ => .skip s

/-! ## Performing units -/

/-- What one unit comes to: performed, waiting for replies, or refused. -/
inductive UStep where
  | done (s : State)
  | wait (s : State)
  | bad (s : State) (cause : Nat) (tval : Word)
  deriving Repr

/-- Sends the requests that a unit misses. -/
def missingReqs (s : State) (c slot : Nat) (missing : List Seg) : UStep :=
  .wait (requestReads c (.xfer c slot) missing s)

/-- Advances a transfer past a unit. -/
def passUnit (s : State) (c slot : Nat) (flags : Word) : UStep :=
  .done (dropReqs (mapXfer s c slot (fun x => { x with done := x.done + 1, flags := x.flags ||| flags, sent := [], rest := [] }))
    (.xfer c slot))

/-- The pieces of an output that leave for other packages, as the contiguous parts that their requests name. -/
def sentPieces (o : XPiece) : Nat → List Part → List (Seg × XPiece)
  | _, [] => []
  | at_, p :: t =>
    (maskedRuns p.seg 0 p.data p.mask).map (fun r =>
      (r.1, { o with off := o.off + (at_ + (r.1.addr - p.seg.addr) : Nat), align := 1, data := r.2 })) ++
    sentPieces o (at_ + p.seg.len) t

/-- The bytes of parts that go to the deterministic buffer. -/
def bufferedLen (s : State) (c : Nat) (segs : List Seg) : Nat := segs.foldl (fun t g => if buffers s c g then t + g.len else t) 0

/-- Writes a piece of a unit's output: its local parts at once, its remote parts by requests whose acknowledgements it awaits. -/
def writePiece (s : State) (c slot order : Nat) (o : XPiece) : Except Refused State :=
  match openAccess s c (xferAcc .write o.align) (Base.addr o.base o.off) o.data.length with
  | .error e => .error e
  | .ok (segs, s1) =>
    let mask := List.replicate o.data.length true
    let s2 := writeSegs s1 c order segs o.data mask
    let away (p : Part) : Bool := p.seg.isRemote && !buffers s c p.seg
    let out := (sentPieces o 0 (partsOf segs o.data mask)).filter (fun q => away ⟨q.1, [], []⟩)
    .ok (mapXfer (requestRuns c (.xfer c slot) (out.map (fun q => (q.1, q.2.data))) s2) c slot (fun x =>
      { x with sent := x.sent ++ out, wrote := x.wrote + bufferedLen s c segs }))

/-- Writes a unit's output. -/
def writeUnit (s0 s : State) (c slot : Nat) (x : Transfer) (o : XPiece) (flags : Word) : UStep :=
  match writePiece (dropReqs s (.xfer c slot)) c slot x.order o with
  | .error (cause, tval) => .bad s0 cause tval
  | .ok s1 =>
    if s1.requests.any (fun q => q.owner == .xfer c slot) then .wait (mapXfer s1 c slot (fun x => { x with flags := x.flags ||| flags }))
    else passUnit s1 c slot flags

/-- Writes again the pieces that other packages did not perform: each is performed exactly once. The unit is over once none of them is
still to be acknowledged (R242). -/
def writeRest (s0 : State) (c slot order : Nat) : List XPiece → State → UStep
  | [], s =>
    if s.requests.any (fun q => q.owner == .xfer c slot) then .wait (mapXfer s c slot (fun x => { x with rest := [] }))
    else passUnit s c slot 0
  | o :: t, s =>
    match writePiece s c slot order o with
    | .error (cause, tval) => .bad s0 cause tval
    | .ok s1 => writeRest s0 c slot order t s1

/-- The pieces whose requests were nacked. -/
def nackedPieces (s : State) (owner : Owner) (sent : List (Seg × XPiece)) : List XPiece :=
  (sent.filter (fun q => s.requests.any (fun r => r.owner == owner && r.write && r.addr == q.1.addr && r.len == q.1.len &&
    (match r.reply with | some (.nack _) => true | _ => false)))).map Prod.snd

/-! ### Page moves (R270) -/

/-- Drops the translations of a page, or of all pages, of a context from the caches of a cluster and its cores. -/
def dropTrans (s : State) (ctx : Nat) (page : Option Nat) (g : Nat) : State :=
  let hit (t : Trans) : Bool := t.ctx == ctx && (match page with | none => true | some va => t.covers ctx va)
  let keep (l : List Trans) := l.filter (fun t => !hit t)
  let keepT (l : Tbl Trans) := l.filter (fun p => !hit p.2)
  let s1 := s.setCluster g { s.cluster g with tlb := keep (s.cluster g).tlb }
  { s1 with cores := s1.cores.map (fun p =>
      if clusterOf p.1 == g then (p.1, { p.2 with
        gtlb := keep p.2.gtlb,
        as := { p.2.as with curPage := keepT p.2.as.curPage, nextPage := keepT p.2.as.nextPage } }) else p) }

def dropTransAll (ctx : Nat) (page : Option Nat) : List Nat → State → State
  | [], s => s
  | g :: t, s => dropTransAll ctx page t (dropTrans s ctx page g)

/-- Writes a page-table entry. -/
def writeEntry (s : State) (entry : Nat) (e : Word) : State :=
  storeLocal s false entry (bytesOf 8 e.toNat) (List.replicate 8 true)

/-- The part of a frame as a piece of memory of this package or another. -/
def frameSeg (s : State) (pkg pa n tv : Nat) : Seg :=
  ⟨if pkg = s.pkgId then .local else .remote pkg (s.peer pkg).inc, pa, n, plainAttr, tv, none⟩

/-- A unit of a page move: the entry is cleared and its translations dropped, the page is copied piece by piece, and the
entry is written with the new frame. -/
def moveUnit (c slot : Nat) (x : Transfer) (page frame : Word) (size entry : Nat) (old : Word) (s : State) : UStep :=
  let ctx := (s.core c).ctx
  let pieces := 2 ^ (pageShift size) / 0x4000
  if x.done = 0 then
    passUnit (dropTransAll ctx (some (page.toNat % 2 ^ 57)) (List.range 32) (writeEntry s entry (old &&& ~~~1))) c slot 0
  else if x.done ≤ pieces then
    let off := (x.done - 1) * 0x4000
    let from_ := frameSeg s (field old 55 44) (field old 43 14 * 2 ^ 14 + off) 0x4000 (page.toNat + off)
    let to_ := frameSeg s (field frame 55 44) (field frame 43 0 + off) 0x4000 (page.toNat + off)
    let froms := from_.split
    let missing := froms.filter (fun g => g.isRemote && (findRead s (.xfer c slot) g).isNone)
    if !assigned to_.addr then .bad s 0x10 (accTval true (page.toNat + off))
    else if !missing.isEmpty then missingReqs s c slot missing
    else
      match gather c (.xfer c slot) froms s with
      | .wait => .wait s
      | .bad cause tv => .bad s cause (accTval true tv)
      | .ok l s1 =>
        if to_.isRemote then
          .wait (requestWrites c (.xfer c slot) [to_] l (List.replicate 0x4000 true) (dropReqs s1 (.xfer c slot)))
        else passUnit (storeLocal s1 (flag old 5) to_.addr l (List.replicate 0x4000 true)) c slot 0
  else
    let e := setField (setField (old ||| 1) 43 14 (field frame 43 14)) 55 44 (field frame 55 44)
    passUnit (writeEntry s entry e) c slot 0

/-! ### DECQ (R275 to R278) -/

/-- The pieces of output that held coded bytes expand to. -/
def decodeOut (k : Core) (ty : Ty) (zr ended : Bool) (gen : Nat) (held : List Byte) : List Piece :=
  if zr then zrOut ty.width ended held.length 0 held
  else
    match k.as.banks.find? (fun b => b.2.gen == gen) with
    | some b => cbOut b.2.e b.2.table 0 held
    | none => []

/-- The coded bytes of a block up to the one that fills the entries: those after it are not read (R276). Bytes of another package
are asked for one after the other. -/
def decodeScan (c slot : Nat) (src : Base) (at_ : Nat) (full : List Byte → Bool) : Nat → List Byte → State → XGot
  | 0, l, s => .ok l s
  | n + 1, l, s =>
    if full l then .ok l s
    else (readAt c slot src ((at_ + l.length : Nat) : Int) 1 1 s).then (fun b _ => decodeScan c slot src at_ full n (l ++ b) s)

/-- The state after the bytes of a block were read together, where its home is this package. -/
def readTogether (c slot : Nat) (src : Base) (at_ n : Nat) (s : State) : State :=
  match readAt c slot src ((at_ : Nat) : Int) n 1 s with
  | .ok _ s1 => s1
  | _ => s

/-- A step of a DECQ: the next entry is delivered once its bytes are known, else the next block is read and its charge
checked; 0x30 names the block. -/
def decodeUnit (c slot : Nat) (x : Transfer) (q : Nat) (ids : List Nat) (src : Base) (bytes ratio : Nat) (ty : Ty) (zr : Bool)
    (gen : Nat) (s : State) : UStep :=
  let k := s.core c
  let ended := decide (bytes ≤ x.held.length)
  let out := (decodeOut k ty zr ended gen x.held).flatMap Prod.snd
  if ended || 512 * (x.done + 1) ≤ out.length then
    let v := vecOfBytes ((out.drop (512 * x.done)).take 512)
    passUnit (s.setCore c (k.setQ q (fillQ (ids.getD x.done 0) (.bytes v) (k.qOf q)))) c slot 0
  else
    let at_ := x.held.length
    let n := min 64 (bytes - at_)
    let room := 512 * ids.length
    let take (l : List Byte) (s1 : State) : UStep :=
      let held := x.held ++ l
      if 64 * ratio < charged (at_ / 64) room (decodeOut k ty zr true gen held) then
        .bad s 0x30 (accTval true ((Base.addr src ((at_ : Nat) : Int)).tv 0))
      else .done (dropReqs (mapXfer s1 c slot (fun x => { x with held := held })) (.xfer c slot))
    let full (l : List Byte) : Bool :=
      decide (room ≤ ((decodeOut k ty zr (decide (bytes ≤ at_ + l.length)) gen (x.held ++ l)).flatMap Prod.snd).length)
    match decodeScan c slot src at_ full n [] s with
    | .wait m => missingReqs s c slot m
    | .ok l _ => take l (noteQueue (readTogether c slot src at_ l.length s) c q (Base.addr src ((at_ : Nat) : Int)))
    | .bad cause tval => .bad s cause tval

/-! ### A step of any transfer -/

/-- The A stream's earlier accesses that a transfer's accesses follow (R120). -/
def Core.olderPends (k : Core) (order : Nat) : Bool := k.a.pend.any (fun p => p.id < order && p.op.isAccess)

/-- Performs the next unit of the transfer in a slot. -/
def unitStep (s : State) (c slot : Nat) (x : Transfer) : UStep :=
  if s.requests.any (fun q => q.owner == .xfer c slot && q.write) then
    if s.requests.any (fun q => q.owner == .xfer c slot && q.write && q.reply.isNone) then .wait s
    else
      match acksOf s (.xfer c slot) with
      | .open_ => .wait s
      | .failed cause tv => .bad s cause (accTval true tv)
      | .done => passUnit s c slot 0
  else if !x.rest.isEmpty then writeRest s c slot x.order x.rest s
  else
    match x.op with
    | .move page frame size entry old => moveUnit c slot x page frame size entry old s
    | .decode q ids src bytes ratio ty zr gen => decodeUnit c slot x q ids src bytes ratio ty zr gen s
    | .feed .. => .wait s
    | op =>
      match op.unit c slot x.done x.dph x.bagTval s with
      | .wait m => missingReqs s c slot m
      | .bad cause tval => .bad s cause tval
      | .skip s1 => passUnit s1 c slot 0
      | .write o fl s1 => writeUnit s s1 c slot x o fl

/-- Whether a transfer may act: its core does not stand still, it is not suspended, and the accesses before it are performed. -/
def mayMove (s : State) (c : Nat) (x : Transfer) : Bool :=
  !s.still c && !x.suspended && !(s.core c).olderPends x.order

/-- How a run of units ended: all performed, the limit, a wait, or a refusal. -/
inductive UEnd where
  | complete (s : State)
  | paused (s : State)
  | refused (s : State) (cause : Nat) (tval : Word)
  deriving Repr

/-- Performs up to `n` steps of the transfer in a slot. -/
def runUnits (c slot : Nat) : Nat → State → UEnd
  | 0, s =>
    match (s.core c).xfer? slot with
    | none => .paused s
    | some x => if x.op.units ≤ x.done then .complete s else .paused s
  | n + 1, s =>
    match (s.core c).xfer? slot with
    | none => .paused s
    | some x =>
      if x.op.units ≤ x.done then .complete s
      else
        match unitStep s c slot x with
        | .done s1 => runUnits c slot n s1
        | .wait s1 => .paused s1
        | .bad s1 cause tval => .refused s1 cause tval

/-- A transfer's turn: it performs up to `n` steps, and a refused element is left for the event that reports it. -/
def runTransfer (s : State) (c slot n : Nat) : State :=
  match (s.core c).xfer? slot with
  | none => s
  | some x =>
    if !mayMove s c x then s
    else
      match runUnits c slot n s with
      | .complete s1 | .paused s1 | .refused s1 _ _ => s1

/-! ## Feeds (R261 to R265) -/

/-- The header of row `seq` of a feed with the index that names its data and their offset from the table: tag, scale and flags. -/
structure RowHead where
  index : Int
  off : Int
  tag : Nat
  scale : Nat
  flags : Word
  deriving DecidableEq, Repr

inductive HeadGot where
  | ok (h : RowHead) (s : State)
  | wait (missing : List Seg)
  | bad (cause : Nat) (tval : Word)
  deriving Repr

def feedHead (c slot seq dph : Nat) (index : Base) (gather : Bool) (stride : Int) (tagBase : Nat) (rnd : Rnd)
    (byTag scaled : Bool) (s : State) : HeadGot :=
  if !gather then .ok ⟨seq, seq * stride, (tagBase + seq) % 65536, 0x3F80, 0⟩ s
  else
    let n := if scaled then 8 else 4
    match readAt c slot index ((n * seq : Nat) : Int) n n s with
    | .wait m => .wait m
    | .bad cause v => .bad cause v
    | .ok l s1 =>
      let x := idxOf l
      let sc := if scaled then fmtBf16.round (RMode.at rnd dph seq) false (fmtF32.decode (natOf (l.drop 4))) else (0x3F80, 0)
      .ok ⟨x, x * stride, if byTag then (((tagBase : Int) + x) % 65536).toNat else (tagBase + seq) % 65536, sc.1, sc.2⟩ s1

/-- The causes that `.sk` turns into an absent row (R264). -/
def skips (cause : Nat) : Bool := [0x10, 0x11, 0x14, 0x16, 0x50, 0x51].contains cause

/-- In gauge mode a row comes from the tile store or the own vault; any other source raises 0x09 when it is read (R265). -/
def rowSource (s : State) (c : Nat) (segs : List Seg) : Option Refused :=
  if (s.core c).a.gauge then
    (segs.find? (fun g => !(g.home == .tile || (g.home == .local && !isStack g.addr && vaultOf g.addr == clusterOf c)))).map
      (fun g => (0x09, accTval true g.tv))
  else none

/-- Reads a row's data. -/
def readRow (c slot : Nat) (b : Base) (off : Int) (n align : Nat) (s : State) : XGot :=
  match segsOf s c (rowAcc align) (Base.addr b off) n with
  | .error (cause, tval) => .bad cause tval
  | .ok segs =>
    match rowSource s c segs with
    | some (cause, v) => .bad cause v
    | none => readBy (rowAcc align) c slot b off n s

/-- What a row of a feed comes to. -/
inductive RowGot where
  | row (r : Row) (flags : Word) (s : State)
  | wait (missing : List Seg)
  | bad (cause : Nat) (tval : Word)
  deriving Repr

/-- The values of a row (R262): elements of floats and integers, or of K4 blocks. -/
def rowNums (t : Ty) (len : Nat) (l : List Byte) : List Num := rowVals t len l

def feedRow (s : State) (c slot seq dph : Nat) : XferOp → RowGot
  | .feed feed rows index gather _ stride tagBase len ty rnd skip byTag scaled =>
    match feedHead c slot seq dph index gather stride tagBase rnd byTag scaled s with
    | .wait m => .wait m
    | .bad cause v => .bad cause v
    | .ok h s1 =>
      let read := readRow c slot rows h.off (rowLen ty len) (sideAlign ty false)
      match if gather then readFan c slot seq h.index read s1 else read s1 with
      | .wait m => .wait m
      | .bad cause v =>
        if skip && skips cause then .row ⟨feed, h.tag, seq, h.scale, none⟩ h.flags s1 else .bad cause v
      | .ok l s2 =>
        .row ⟨feed, h.tag, seq, h.scale, some (rowNums ty len l)⟩ h.flags
          (if gather then noteGather s2 c (Base.addr rows h.off) else s2)
  | _ => .wait []

/-- Whether an earlier feed still has rows to enter (R261). -/
def earlierFeed (k : Core) (order : Nat) : Bool :=
  k.as.xfers.any (fun p => match p.2.op with
    | .feed _ _ _ _ n _ _ _ _ _ _ _ _ => p.2.order < order && p.2.entered.length < n
    | _ => false)

/-- The profile of the MRUN that a feed is bound to, or would be bound to now (R293). -/
def feedProfile (k : Core) (f : Feed) : Option Np :=
  let cmds : List Cmd := k.ms.window ++ k.ms.records
  let c : Option Cmd := match f.bound with
    | some q => cmds.find? (fun c => c.seq == q)
    | none => k.ms.window.find? (fun c => match c.op with
        | .run _ _ expect _ _ _ _ _ => decide (c.received + c.absent < expect)
        | _ => false)
  match c with
  | some c => match c.op with | .run _ _ _ _ _ _ np _ => some np | _ => none
  | none => none

/-- Under np2 the port admits a row only below L + 64, L the lowest seq whose header has not passed its check (R296). -/
def np2Admits (k : Core) (feed seq : Nat) : Bool :=
  match k.ms.feeds.find? (fun f => f.id == feed) with
  | none => true
  | some f =>
    if feedProfile k f = some .np2 then
      decide (seq < ((List.range f.total).find? (fun i => !f.checkedRows.contains i)).getD f.total + 64)
    else true

def XferOp.feedId : XferOp → Nat
  | .feed f _ _ _ _ _ _ _ _ _ _ _ _ => f
  | _ => 0

/-- The reads of a row of a feed touch an SO page, or may. -/
def rowSO (s : State) (c slot seq dph : Nat) : XferOp → Bool
  | .feed _ rows index gather _ stride tagBase len ty rnd _ byTag scaled =>
    let so (segs : List Seg) : Bool := segs.any (fun g => g.home != .tile && g.attr.kind == 0)
    let n := if scaled then 8 else 4
    (gather && (match segsOf0 s c (xferAcc .read n) (Base.addr index ((n * seq : Nat) : Int)) n with | .ok l => so l | .error _ => true)) ||
      (match feedHead c slot seq dph index gather stride tagBase rnd byTag scaled s with
       | .ok h _ => (match segsOf0 s c (rowAcc 1) (Base.addr rows h.off) (rowLen ty len) with | .ok l => so l | .error _ => false)
       | _ => true)
  | _ => false

/-- A row that reads an SO page comes after the earlier rows that do: the accesses of one transfer to SO pages stand in emission order
(R343). -/
def inSOOrder (s : State) (c slot : Nat) (x : Transfer) (seq : Nat) : Bool :=
  !rowSO s c slot seq x.dph x.op || (List.range seq).all (fun i => x.entered.contains i || !rowSO s c slot i x.dph x.op)

/-- Whether row `seq` may enter the port now: the port has room, under np2 the row is not too far ahead, and in gauge mode
the rows come in order (R261, R265, R296). -/
def mayEnter (s : State) (c : Nat) (x : Transfer) (seq : Nat) : Bool :=
  let k := s.core c
  mayMove s c x && decide (seq < x.op.units) && !x.entered.contains seq && decide (k.ms.port.length < 16) &&
    !earlierFeed k x.order && (!k.a.gauge || x.entered.length == seq) && np2Admits k x.op.feedId seq

/-- ROW_PORT_ENTRY: row `seq` of the feed in a slot enters the row port. -/
def execRowPortEntry (c slot seq : Nat) (s : State) : Out :=
  if !coreExists c then .fault .noSuchUnit
  else
    match (s.core c).xfer? slot with
    | none => .next s
    | some x =>
      if !mayEnter s c x seq || !inSOOrder s c slot x seq then .next s
      else
        match feedRow s c slot seq x.dph x.op with
        | .wait m => .next (requestReads c (.xfer c slot) m s)
        | .bad _ _ => .next s
        | .row r fl s1 =>
          let s2 := mapXfer (dropReqs s1 (.xfer c slot)) c slot (fun x =>
            { x with entered := seq :: x.entered, done := x.done + 1, flags := x.flags ||| fl })
          let k := s2.core c
          .next (s2.setCore c { k with ms := { k.ms with port := k.ms.port ++ [r] } })

/-- The first row of a feed that is not entered and is refused. -/
def feedFault (s : State) (c slot : Nat) (x : Transfer) : List Nat → Option (Nat × Word)
  | [] => none
  | seq :: t =>
    if mayEnter s c x seq && inSOOrder s c slot x seq then
      match feedRow s c slot seq x.dph x.op with
      | .bad cause v => some (cause, v)
      | _ => feedFault s c slot x t
    else feedFault s c slot x t

/-! ## The events of a transfer (R210, R243) -/

/-- How many steps the rest of a transfer can take. -/
def Transfer.stepsLeft (x : Transfer) : Nat :=
  match x.op with
  | .decode _ ids _ bytes _ _ _ _ => ids.length + bytes / 64 + 2
  | op => 2 * (op.units - x.done) + 1

/-- Forgets the requests of a transfer that have been answered; what is in flight completes (R243). -/
def dropAnswered (s : State) (owner : Owner) : State :=
  { s with requests := s.requests.filter (fun q => !(q.owner == owner && q.reply.isSome)) }

/-- A base of a transfer is a virtual address. -/
def Base.isVa : Base → Bool
  | .va _ => true
  | .obj _ => false

def XferOp.usesVa : XferOp → Bool
  | .cpgo d a _ _ _ _ _ _ _ => d.isVa || a.isVa
  | .move .. => false
  | .gather d a i b _ _ _ _ _ _ _ _ _ _ => d.isVa || a.isVa || i.isVa || b.isVa
  | .scatter d a i _ _ _ _ _ _ _ _ _ _ => d.isVa || a.isVa || i.isVa
  | .feed _ r i _ _ _ _ _ _ _ _ _ _ => r.isVa || i.isVa
  | .decode _ _ a _ _ _ _ _ => a.isVa

/-- A stale translation of an element's address is dropped at the fault; a stale handle stays stale (R462). -/
def dropAt (s : State) (c cause : Nat) (tval : Word) (op : XferOp) : State :=
  if cause = 0x48 && op.usesVa then dropStale s c (s.core c).ctx (field tval 56 0) else s

/-- Suspends a transfer: its cause is taken before the A stream's next instruction, and ERET resumes it, which performs what was
not performed and asks anew for what was refused (R242, R243). -/
def suspendXfer (s : State) (c slot cause : Nat) (tval : Word) : State :=
  match (s.core c).xfer? slot with
  | none => s
  | some x =>
    let owner : Owner := .xfer c slot
    let y : Transfer := { x with suspended := true, rest := x.rest ++ nackedPieces s owner x.sent, sent := [] }
    tryEndJob (addLate (dropAnswered (putXfer (dropAt s c cause tval x.op) c slot y) owner) ⟨c, .a⟩ ⟨cause, tval, some slot, none⟩) c

/-- TRANSFER_ELEMENT_FAULT. -/
def execTransferElementFault (c slot : Nat) (s : State) : Out :=
  if !coreExists c then .fault .noSuchUnit
  else
    match (s.core c).xfer? slot with
    | none => .next s
    | some x =>
      if !mayMove s c x then .next s
      else
        match x.op with
        | .feed _ _ _ _ n _ _ _ _ _ _ _ _ =>
          match feedFault s c slot x (List.range n) with
          | some (cause, v) => .next (suspendXfer s c slot cause v)
          | none => .next s
        | _ =>
          match runUnits c slot x.stepsLeft s with
          | .refused s1 cause v => .next (suspendXfer s1 c slot cause v)
          | _ => .next s

/-- The end of a transfer: its flags are set, its slot is free, and it gives its tokens (R210, R213). What it has written to det pages
beyond its count at issue counts now (R369; DEDUCED, log 44). -/
def finishXfer (s0 : State) (c slot : Nat) (x : Transfer) : State :=
  let more := (x.wrote + 511) / 512 - x.counted
  let s := countIf (0 < more) c more s0
  let k := s.core c
  let s1 := s.setCore c { k with as := { k.as with xfers := tdel k.as.xfers slot } }
  tryEndJob (landWith ⟨c, .a⟩ x.flags (giveFifos .a x.give) s1) c

/-- TRANSFER_COMPLETION. -/
def execTransferCompletion (c slot : Nat) (s : State) : Out :=
  if !coreExists c then .fault .noSuchUnit
  else
    match (s.core c).xfer? slot with
    | none => .next s
    | some x =>
      if !mayMove s c x then .next s
      else
        match runUnits c slot x.stepsLeft s with
        | .complete s1 =>
          (match (s1.core c).xfer? slot with
           | some y => .next (finishXfer s1 c slot y)
           | none => .next s1)
        | _ => .next s

/-! ## Issue -/

/-- The lowest free slot of the 16 (R242). -/
def freeSlot (k : Core) : Option Nat := (List.range 16).find? (fun i => (k.xfer? i).isNone)

/-- The destination of unit `u` for the count of R369; of a scattered row its index as memory holds it at issue. Of the rows that `.add`
writes the first that names a destination counts. -/
def detOutp (s : State) (c : Nat) (u : Nat) : XferOp → Option (Base × Int × Nat)
  | .cpgo dst _ m dty sty _ mx _ ls =>
    let ul := unitLen dty sty mx
    let per := m / ul
    let db := sideBytes dty (mx == 2) ul
    some (dst, (runOffsets ls (u / per)).2 + (u % per * db : Nat), db)
  | .gather dst _ _ _ _ dty _ _ _ _ len _ ds _ => some (dst, u * ds, rowLen dty len)
  | .scatter dst _ index add dty _ _ _ _ len _ ds _ =>
    match readAt c 16 index 0 (4 * (u + 1)) 4 s with
    | .ok l _ =>
      let ix := indices l (u + 1)
      let at_ : Int := ix.getD u 0 * ds
      if add && (ix.take u).any (fun y => y * ds == at_) then none else some (dst, at_, rowLen dty len)
    | _ => none
  | _ => none

/-- The bytes of a unit that go to pages of the deterministic buffer. -/
def detBytes (s : State) (c u : Nat) (op : XferOp) : Nat :=
  match detOutp s c u op with
  | none => 0
  | some (b, off, n) =>
    match segsOf0 s c (xferAcc .write 1) (Base.addr b off) n with
    | .error _ => 0
    | .ok segs => bufferedLen s c segs

/-- A transfer counts 1 per 512 bytes that it writes to det pages, rounded up: at issue as far as they are known then (R369). -/
def detCount (s : State) (c : Nat) (op : XferOp) : Nat :=
  if (s.ctx (s.core c).ctx).mmode = 2 then
    ((List.range op.units).foldl (fun t u => t + detBytes s c u op) 0 + 511) / 512
  else 0

/-- Starts a transfer in a free slot: its tokens are taken and its gives reserved, and it takes its phase (R80, R210, R242). -/
def startXfer (c : ACtl) (rnd : Rnd) (bag : Word) (s : State) (w : Who) (mk : Core → XferOp × Core) : Res :=
  aTokens c s w (fun s1 =>
    let k := s1.core w.core
    match freeSlot k with
    | none => .wait
    | some slot =>
      let r := mk k
      let n := detCount s1 w.core r.1
      let x : Transfer := ⟨r.1, 0, false, c.give, k.a.phase, 0, k.nextId, [], [], bag, [], [], [], n, 0⟩
      let k1 := { r.2.setXfer slot x with nextId := r.2.nextId + 1, a := r.2.a.stepPhase rnd }
      .ok (countIf (0 < n) w.core n (s1.setCore w.core k1)) .seq)

/-- A base of a transfer, captured at issue, whose register value is aligned (R235, R395). -/
def withBase (s : State) (w : Who) (b : ABase) (align : Nat) (k : Base → Res) : Res :=
  match b with
  | .reg n =>
    let v := regOf s w n
    if v.toNat % align != 0 then .raise 0x13 (accTval false v.toNat) else k (.va v)
  | .handle h =>
    match handleSlot s w h with
    | some slot => k (.obj slot)
    | none => let e := badHandle false h; .raise e.1 e.2

def levelOf (k : Core) (l : Nat) : Level := tget k.as.levels l ⟨1, 0, 0⟩

/-- CPLVL takes and gives at once (R266). -/
def execCplvl (level a b st : Nat) (c : ACtl) (s : State) : Out :=
  let i : Instr := .cplvl level a b st c
  aFrame i c [a, b, st] (fun s w =>
    let n := (regOf s w a).toNat
    if 2 ^ 32 ≤ n then .raise 0x02 (opTval i false 13)
    else
      aTokens c s w (fun s1 =>
        let k := s1.core w.core
        let lv : Level := ⟨n, (regOf s w b).toInt, (regOf s w st).toInt⟩
        let k1 : Core := { k with as := { k.as with levels := tset k.as.levels level lv } }
        .ok (s1.setCore w.core (k1.giveReserved (giveFifos .a c.give))) .seq)) s

def execCpgo (d a : ABase) (b : Nat) (dty sty : Ty) (rnd : Rnd) (mx kind : Nat) (c : ACtl) (s : State) : Out :=
  let i : Instr := .cpgo d a b dty sty rnd mx kind c
  aFrame i c (baseRegs d ++ baseRegs a ++ [b]) (fun s w =>
    let m := (regOf s w b).toNat
    if m = 0 || 2 ^ 20 < m || m % unitLen dty sty mx != 0 then .raise 0x02 (opTval i false 7)
    else
      withBase s w a (sideAlign sty (mx == 1)) (fun src =>
        withBase s w d (sideAlign dty (mx == 2)) (fun dst =>
          startXfer c rnd 0 s w (fun k => (.cpgo dst src m dty sty rnd mx kind ((List.range 6).map (levelOf k)), k))))) s

/-- The entry that maps a page: its address, its size code and its contents (R270, R332). -/
def leafEntry (s : State) (va : Nat) : Nat → List (Nat × Nat × Nat) → Option (Nat × Nat × Word)
  | _, [] => none
  | table, (level, shift, width) :: rest =>
    let at_ := table + 8 * (va / 2 ^ shift % 2 ^ width)
    let e : Word := BitVec.ofNat 64 (readNat s.mem at_ 8)
    if flag e 9 then some (at_, sizeCode level, e) else leafEntry s va (field e 43 14 * 2 ^ 14) rest

/-- `cpgo.pm`: supervisor only; the page is one that the context maps, and both operands are aligned to its size. -/
def execCpgoPm (d a : Nat) (c : ACtl) (s : State) : Out :=
  let i : Instr := .cpgoPm d a c
  aFrame i c [d, a] (fun s w => superOnly i s w (
    let va := (regOf s w a).toNat
    let ctx := (s.core w.core).ctx
    if !canonical va then .raise 0x10 (accTval false va)
    else
      let t := countWalks ctx none [(va, 0)] s
      match walk s ctx (va % 2 ^ 57), leafEntry s (va % 2 ^ 57) (s.ctx ctx).root walkLevels with
      | .error cause, _ => .raiseIn t cause (accTval false va)
      | .ok _, none => .raiseIn t 0x10 (accTval false va)
      | .ok _, some (entry, size, old) =>
        if va % 2 ^ (pageShift size) != 0 then .raiseIn t 0x13 (accTval false va)
        else if field (regOf s w d) 43 0 % 2 ^ (pageShift size) != 0 then .raiseIn t 0x13 (accTval false (regOf s w d).toNat)
        else startXfer c .rne 0 t w (fun k => (.move (regOf s w a) (regOf s w d) size entry old, k)))) s

/-- The profiles and types that pooling refuses: the first field in the scan order that takes part is the op in word 1
(R272, R474). -/
def poolRefused (i : Instr) (np : Np) (sty : Ty) (k : Res) : Res :=
  if poolTypes np sty then k else .raise 0x02 (opTval i false 0)

/-- CPGATH: its shape comes from levels 0 and 1 (R271). -/
def execCpgath (d a : ABase) (b bags op : Nat) (dty sty : Ty) (rnd : Rnd) (kind : Nat) (c : ACtl) (s : State) : Out :=
  let i : Instr := .cpgath d a b bags op dty sty rnd kind c
  aFrame i c (baseRegs d ++ baseRegs a ++ [b, bags]) (fun s w =>
    let np := (s.stream w).profile c.np
    let go : Res :=
      withBase s w d (sideAlign dty false) (fun dst =>
        withBase s w a (sideAlign sty false) (fun src =>
          withBase s w (.reg b) 4 (fun index =>
            withBase s w (.reg (if op = 0 then 0 else bags)) 4 (fun bg =>
              startXfer c rnd (opTval i true 19) s w (fun k =>
                let l := levelOf k 0
                (.gather dst src index bg op dty sty rnd kind np l.count l.src l.dst (levelOf k 1).count, k))))))
    if op = 0 then go else poolRefused i np sty go) s

def execCpscat (d a : ABase) (b : Nat) (addTo : Bool) (dty sty : Ty) (rnd : Rnd) (kind : Nat) (c : ACtl) (s : State) : Out :=
  let i : Instr := .cpscat d a b addTo dty sty rnd kind c
  aFrame i c (baseRegs d ++ baseRegs a ++ [b]) (fun s w =>
    let np := (s.stream w).profile c.np
    let go : Res :=
      withBase s w d (sideAlign dty false) (fun dst =>
        withBase s w a (sideAlign sty false) (fun src =>
          withBase s w (.reg b) 4 (fun index =>
            startXfer c rnd 0 s w (fun k =>
              let l := levelOf k 0
              (.scatter dst src index addTo dty sty rnd kind np l.count l.src l.dst (levelOf k 1).count, k)))))
    if addTo then poolRefused i np sty go else go) s

/-- The limits of a feed's descriptor and count (R262). -/
def feedOk (ty : Ty) (desc : Word) (stream : Bool) : Bool :=
  let len := field desc 31 16
  1 ≤ len && len ≤ 128 && (ty != .k4 || len % 32 == 0) && (!stream || field desc 63 32 == 0)

/-- Starts a feed: M learns of it in the order of issue (R261). -/
def startFeed (c : ACtl) (rnd : Rnd) (s : State) (w : Who) (n len : Nat) (ty : Ty) (mk : Nat → XferOp) : Res :=
  match startXfer c rnd 0 s w (fun k =>
    let id := k.ms.nextFeed
    (mk id, { k with ms := { k.ms with
      nextFeed := id + 1, feeds := k.ms.feeds ++ [⟨id, ty, len, n, [], 0, none⟩] } })) with
  | .ok s1 f => .ok (bindNow s1 w.core) f
  | r => r

def execRgath (d : ABase) (a b desc : Nat) (ty : Ty) (rnd : Rnd) (sk tx sc : Bool) (c : ACtl) (s : State) : Out :=
  let i : Instr := .rgath d a b desc ty rnd sk tx sc c
  aFrame i c (baseRegs d ++ [a, b, desc]) (fun s w =>
    let e := regOf s w desc
    let n := (regOf s w b).toNat
    if n = 0 || 65536 < n then .raise 0x02 (opTval i false 7)
    else if !feedOk ty e false then .raise 0x02 (opTval i true 19)
    else
      withBase s w d (sideAlign ty false) (fun rows =>
        withBase s w (.reg a) (if sc then 8 else 4) (fun index =>
          startFeed c rnd s w n (field e 31 16) ty (fun id =>
            .feed id rows index true n (signedField (field e 63 32) 32) (field e 15 0) (field e 31 16) ty rnd sk tx sc)))) s

def execRstrm (d : ABase) (a b desc : Nat) (ty : Ty) (sk : Bool) (c : ACtl) (s : State) : Out :=
  let i : Instr := .rstrm d a b desc ty sk c
  aFrame i c (baseRegs d ++ [a, b, desc]) (fun s w =>
    let e := regOf s w desc
    let n := (regOf s w a).toNat
    if n = 0 || 65536 < n then .raise 0x02 (opTval i false 13)
    else if !feedOk ty e true then .raise 0x02 (opTval i true 19)
    else
      withBase s w d (sideAlign ty false) (fun rows =>
        startFeed c .rne s w n (field e 31 16) ty (fun id =>
          .feed id rows (.va 0) false n (regOf s w b).toInt (field e 15 0) (field e 31 16) ty .rne sk false false))) s

/-- DECQ: 0x31 when `.cb` finds no generation; the limits of its counts; the entries are reserved at issue (R276, R278). -/
def execDecq (q : Nat) (d : ABase) (a b entries : Nat) (ty : Ty) (zr : Bool) (c : ACtl) (s : State) : Out :=
  let i : Instr := .decq q d a b entries ty zr c
  aFrame i c (baseRegs d ++ [a, b, entries]) (fun s w =>
    let bytes := (regOf s w a).toNat
    let ratio := (regOf s w b).toNat
    let n := (regOf s w entries).toNat
    let k := s.core w.core
    if bytes = 0 || 2 ^ 24 < bytes then .raise 0x02 (opTval i false 13)
    else if ratio = 0 || 1024 < ratio then .raise 0x02 (opTval i false 7)
    else if n = 0 || 8 < n then .raise 0x02 (opTval i true 19)
    else if !zr && k.as.gen = 0 then .raise 0x31 0
    else
      queueFull s w q n (withBase s w d 1 (fun src =>
        startXfer c .rne 0 s w (fun k =>
          let r := k.reserveQ q n
          (.decode q r.1 src bytes ratio ty zr k.as.gen, r.2))))) s

/-! ## PASS (R222 to R226, R257) -/

/-- Whether `n` bytes at an offset of a base lie in the tile store between two addresses. -/
def hits (lo hi : Nat) (b : Base) (off : Int) (n : Nat) : Bool :=
  match Base.addr b off with
  | .va v => decide (0 < n) && decide (v < hi) && decide (lo < v + n)
  | .obj _ _ => false

/-- An index as memory holds it now, if it can be read here. -/
def peekIdx (s : State) (c : Nat) (index : Base) (off : Nat) : Option (List Byte) :=
  match readAt c 16 index (off : Int) 4 4 s with
  | .ok l _ => some l
  | _ => none

/-- A row named by an index meets the tiles; where the index cannot be read now, it may (R224). -/
def rowHits (s : State) (c lo hi : Nat) (index : Base) (off : Nat) (b : Base) (stride : Int) (n : Nat) : Bool :=
  hits lo hi index (off : Int) 4 ||
    (match peekIdx s c index off with | some l => hits lo hi b (idxOf l * stride) n | none => true)

/-- Whether unit `u` of a transfer reads or writes tile-store bytes between two addresses. -/
def unitHits (s : State) (c lo hi u : Nat) : XferOp → Bool
  | .cpgo dst src m dty sty _ mx _ ls =>
    let ul := unitLen dty sty mx
    let per := m / ul
    let o := runOffsets ls (u / per)
    let sb := sideBytes sty (mx == 1) ul
    let db := sideBytes dty (mx == 2) ul
    hits lo hi src (o.1 + (u % per * sb : Nat)) sb || hits lo hi dst (o.2 + (u % per * db : Nat)) db
  | .gather dst src index bags op dty sty _ _ _ len ss ds _ =>
    hits lo hi dst (u * ds) (rowLen dty len) ||
      (if op = 0 then rowHits s c lo hi index (4 * u) src ss (rowLen sty len)
       else hits lo hi bags ((4 * u : Nat) : Int) 8 ||
        (match peekIdx s c bags (4 * u), peekIdx s c bags (4 * u + 4) with
         | some a, some b => (List.range (natOf b - natOf a)).any (fun i =>
            rowHits s c lo hi index (4 * (natOf a + i)) src ss (rowLen sty len))
         | _, _ => true))
  | .scatter dst src index add dty sty _ _ _ len ss ds n =>
    (add && hits lo hi index 0 (4 * n)) || hits lo hi src (u * ss) (rowLen sty len) || rowHits s c lo hi index (4 * u) dst ds (rowLen dty len)
  | .feed _ rows index gather _ stride _ len ty _ _ _ scaled =>
    if gather then rowHits s c lo hi index ((if scaled then 8 else 4) * u) rows stride (rowLen ty len)
    else hits lo hi rows (u * stride) (rowLen ty len)
  | .decode _ _ _ _ _ _ _ _ => false
  | .move .. => false

/-- Whether what is left of a transfer reads or writes tile-store bytes between two addresses. -/
def xferHits (s : State) (c lo hi : Nat) (x : Transfer) : Bool :=
  match x.op with
  | .decode _ _ src bytes _ _ _ _ => hits lo hi src (x.held.length : Int) (bytes - x.held.length)
  | .feed .. => (List.range x.op.units).any (fun u => !x.entered.contains u && unitHits s c lo hi u x.op)
  | op => (List.range (op.units - x.done)).any (fun i => unitHits s c lo hi (x.done + i) op)

/-- The first tile of a range that does not belong to the giving engine: 0x16 with its first address (R223). -/
def passRefused (k : Core) (byM : Bool) (t n : Nat) : Option Refused :=
  ((List.range n).map (fun i => t + i)).find? (fun i => k.ownM.contains i != byM) |>.map (fun i => (0x16, accTval false (4096 * i)))

/-- The range of a PASS, checked in the order of its fields (R257, R474). -/
def passRange (i : Instr) (s : State) (w : Who) (a n : Nat) (byM : Bool) (k : Nat → Res) : Res :=
  let t := (regOf s w a).toNat
  if n = 0 || 128 < n then .raise 0x02 (opTval i false 0)
  else if 128 < t + n then .raise 0x02 (opTval i false 13)
  else if !byM && !enginesOk s w [.m] then .raise 0x02 (opTval i false 12)
  else
    match passRefused (s.core w.core) byM t n with
    | some (c, v) => .raise c v
    | none => k t

/-- PASS toward M: it waits until the earlier accesses and transfers are done with the tiles, and then stands at its flip with
a slot of am reserved (R211, R224). -/
def execPassM (a n : Nat) (s : State) : Out :=
  let w := s.whoOn .a
  finish w 4 s (needRegs s w [a] (passRange (.passM a n) s w a n false (fun t =>
    match reserveGive s w 2 with
    | .error r => r
    | .ok s1 =>
      let k := s.core w.core
      let range : Seg := ⟨.tile, 4096 * t, 4096 * n, plainAttr, 4096 * t, none⟩
      if k.a.pend.any (fun p => segsMeet p.op.segs [range]) ||
          k.as.xfers.any (fun x => xferHits s w.core (4096 * t) (4096 * (t + n)) x.2) then .wait
      else
        let s2 := s1.setStream w { s1.stream w with at_ := .pass t n }
        .ok s2 (.stay .waiting))))

/-- PASS toward A: the tiles are A's for every later instruction (R225). -/
def execPassA (a n : Nat) (s : State) : Out :=
  let w := s.whoOn .a
  finish w 4 s (needRegs s w [a] (passRange (.passA a n) s w a n true (fun t =>
    let k := s.core w.core
    .ok (s.setCore w.core { k with ownM := k.ownM.filter (fun i => !(t ≤ i && i < t + n)) }) .seq)))

/-- PASS_FLIP: the owner bits of a PASS toward M flip together, and it gives its am token (R223, R224). -/
def execPassFlip (core : Nat) (s : State) : Out :=
  if !coreExists core then .fault .noSuchUnit
  else
    let w : Who := ⟨core, .a⟩
    match (s.stream w).at_ with
    | .pass t n =>
      if s.still core then .next s
      else
        let k := (s.core core).giveReserved (giveFifos .a 2)
        .next (retire w 4 (s.setCore core { k with ownM := (List.range n).map (fun i => t + i) ++ k.ownM }))
    | _ => .next s

end Sys2Proof.Machine
end

