-- ==== Sys2Proof/Machine/Matrix.lean ====
section
/-! DEFINITION. The matrix engine: MQRY and MSKIP (R306, R307), entry to the window (R287), issue (R288, R289), the acts of the
commands (R300 to R305), and the rows (R294 to R297). -/

namespace Sys2Proof.Machine

/-! ## MQRY and MSKIP (R306, R307) -/

/-- The snapshot of a command. -/
def snapshot (c : Cmd) : Word :=
  let bit (cause i : Nat) : Nat := if c.seen.contains cause then 2 ^ i else 0
  BitVec.ofNat 64 (bit 0x23 55 + bit 0x24 54 + bit 0x21 53 + bit 0x20 52 + c.state.code * 2 ^ 48 +
    (if c.op.isRun then c.absent % 2 ^ 24 * 2 ^ 24 + c.received % 2 ^ 24 else 0))

def execMqry (d id : Nat) (s : State) : Out :=
  let w := s.whoOn .m
  let v := match (s.core w.core).cmdOf id with | some c => snapshot c | none => 0
  finish w 4 s (.ok (putReg s w d v) .seq)

/-- MSKIP: the youngest MRUN with the id, if it is in the window. -/
def execMskip (id a : Nat) (s : State) : Out :=
  let w := s.whoOn .m
  let k := s.core w.core
  let i : Instr := .mskip id a
  let u := (regOf s w a).toNat
  finish w 4 s (needRegs s w [a] (
    if 65535 < u then .raise 0x02 (opTval i false 13)
    else
      match youngest (k.allCmds.filter (fun c => c.cid == id && c.op.isRun)) with
      | none => .ok s .seq
      | some c =>
        if c.state == .retired || c.state == .cancelled then .ok s .seq
        else
          let base := match c.op with | .run _ _ _ b _ _ _ _ => b | _ => 0
          let placing := match c.op with | .run _ _ _ _ m _ _ _ => m == .p | _ => false
          let r := (u + 65536 - base) % 65536
          if 256 ≤ r then .raise 0x02 (opTval i false 13)
          else if c.skipped.contains u || (placing && c.placed.contains r) then .ok s .seq
          else
            let c1 := { c with skipped := u :: c.skipped, absent := c.absent + 1 }
            .ok (bindNow (tryRetireRun (s.setCore w.core (k.setCmd c1)) w.core c.seq) w.core) .seq))

/-- MSKIP `.cx` cancels a suspended command; it keeps its effects and gives its token. Of two commands of one id the youngest is meant, as
R288 reads an id, and flags met so far, which R302 and R305 set at retirement, are dropped (DESIGN CHOICE, log 45). -/
def execMskipCx (id : Nat) (s : State) : Out :=
  let w := s.whoOn .m
  let k := s.core w.core
  finish w 4 s (
    match k.cmdOf id with
    | none => .ok s .seq
    | some c =>
      if c.state != .suspended then .ok s .seq
      else
        .ok (bindNow (s.setCore w.core ((leaveWindow k { c with state := .cancelled }).giveReserved (giveFifos .m c.give))) w.core) .seq)

/-! ## Entry to the window (R287) -/

/-- The command that a predecessor field names, the youngest of its id, if it is in the window (R288). -/
def predecessor (k : Core) : Option Nat → List Nat
  | none => []
  | some id =>
    match k.cmdOf id with
    | some c => if k.ms.window.any (fun d => d.seq == c.seq) then [c.seq] else []
    | none => []

/-- Enters a command: its give is reserved, its phase taken, and older records of its id go, but for those of which rows are in the
array or still come. -/
def enterCmd (s : State) (w : Who) (c : MCtl) (rnd : Rnd) (op : MOp) : Res :=
  let k := s.core w.core
  match reserveGive s w (c.give % 4) with
  | .error r => r
  | .ok s1 =>
    let k1 := s1.core w.core
    let cmd : Cmd := ⟨k.ms.nextCmd, c.cid, op, .entered, c.take, c.give, predecessor k c.pred1 ++ predecessor k c.pred2,
      k.m.phase, false, 0, 0, [], [], [], none, 0, [], 0⟩
    let old := k1.ms.records.filter (fun d => d.cid != c.cid || k1.ms.feeds.any (fun f => f.bound == some d.seq) ||
      k1.ms.array.any (fun p => p.cmd == d.seq))
    .ok (s1.setCore w.core { k1 with
      m := k1.m.stepPhase rnd
      ms := { k1.ms with window := k1.ms.window ++ [cmd], records := old, nextCmd := k.ms.nextCmd + 1 } }) .seq

/-- The frame of M's long forms: the full window at which the front end waits, partner engines, registers, the values checked at entry,
and the entry (R287). -/
def mEntry (i : Instr) (c : MCtl) (regs : List Nat) (rnd : Rnd) (check : State → Who → Option Res) (op : State → Who → MOp)
    (s : State) : Out :=
  let w := s.whoOn .m
  finish w 8 s (
    if 16 ≤ (s.core w.core).ms.window.length then .wait
    else
      match partnerFault i s w c.take c.give with
      | some (x, v) => .raise x v
      | none => needRegs s w regs (match check s w with | some r => r | none => enterCmd s w c rnd (op s w)))

/-- 0x02 that names a k register field (R287, R474). -/
def kaBad (i : Instr) : Option Res := some (.raise 0x02 (opTval i false 17))
def kbBad (i : Instr) : Option Res := some (.raise 0x02 (opTval i false 13))
def kdBad (i : Instr) : Option Res := some (.raise 0x02 (opTval i false 21))
def kcBad (i : Instr) : Option Res := some (.raise 0x02 (opTval i true 21))

def kreg (s : State) (w : Who) (n : Nat) : Nat := (regOf s w n).toNat

/-- MWLD (R300). -/
def execMwld (wb ka kb kc : Nat) (ty : Ty) (c : MCtl) (s : State) : Out :=
  let i : Instr := .mwld wb ka kb kc ty c
  mEntry i c [ka, kb, kc] .rne (fun s w =>
    let t := kreg s w ka
    let k := kreg s w kb
    let n := kreg s w kc
    if 127 < t then kaBad i
    else if k = 0 || 64 < k then kbBad i
    else if n = 0 || 64 < n || (ty == .k4 && n % 32 != 0) then kcBad i
    else if tileBytes < 4096 * t + k * rowLen ty n then kaBad i
    else none) (fun s w => .wld wb (kreg s w ka) (kreg s w kb) (kreg s w kc) ty) s

/-- MWLDS (R301). -/
def execMwlds (wb ka kb kc e : Nat) (ty : Ty) (c : MCtl) (s : State) : Out :=
  let i : Instr := .mwlds wb ka kb kc e ty c
  mEntry i c [ka, kb, kc] .rne (fun s w =>
    let t := kreg s w ka
    let k := kreg s w kb
    let n := kreg s w kc
    if 127 < t then kaBad i
    else if k % 8 != 0 || k < 8 || 128 < k then kbBad i
    else if n = 0 || 64 < n then kcBad i
    else if tileBytes < 4096 * t + n * (k / 2) * ty.width then kaBad i
    else none) (fun s w => .wlds wb (kreg s w ka) (kreg s w kb) (kreg s w kc) e ty) s

/-- MRUN (R302); its profile is resolved as it enters. -/
def execMrun (acc wb ka kb : Nat) (mode : MMode) (ty : Ty) (cm : Option Nat) (c : MCtl) (s : State) : Out :=
  let i : Instr := .mrun acc wb ka kb mode ty cm c
  mEntry i c [ka, kb] .rne (fun s w =>
    if 2 ^ 24 ≤ kreg s w ka then kaBad i else if 65536 ≤ kreg s w kb then kbBad i else none)
    (fun s w => .run acc wb (kreg s w ka) (kreg s w kb) mode ty ((s.stream w).profile c.np) cm) s

/-- MANCH `.k` and `.k4` (R303). -/
def execManch (acc ka kb kc : Nat) (blocks : Option Nat) (c : MCtl) (s : State) : Out :=
  let i : Instr := .manch acc ka kb kc blocks c
  mEntry i c ([ka, kb, kc] ++ blocks.toList) .rne (fun s w =>
    let n := kreg s w kb
    if n = 0 then kbBad i
    else if 256 < kreg s w ka + n then kaBad i
    else
      match blocks with
      | none => if (regOf s w kc).toInt < -512 || 511 < (regOf s w kc).toInt then kcBad i else none
      | some kd =>
        let m := kreg s w kd
        if m = 0 || 64 < m || tileBytes < kreg s w kc + 17 * m then kdBad i else none)
    (fun s w =>
      match blocks with
      | none => .anch acc (kreg s w ka) (kreg s w kb) (regOf s w kc).toInt
      | some kd => .anch4 acc (kreg s w ka) (kreg s w kb) (kreg s w kc) (kreg s w kd)) s

/-- MZERO (R304). -/
def execMzero (acc : Nat) (ty : Ty) (c : MCtl) (s : State) : Out :=
  mEntry (.mzero acc ty c) c [] .rne (fun _ _ => none) (fun _ _ => .zero acc ty) s

/-- MDRN (R305): `dph` advances for rdi as the command enters. -/
def execMdrn (acc ka kb kc : Nat) (ty : Ty) (rnd : Rnd) (sat clr : Bool) (kind : Nat) (c : MCtl) (s : State) : Out :=
  let i : Instr := .mdrn acc ka kb kc ty rnd sat clr kind c
  mEntry i c [ka, kb, kc] rnd (fun s w =>
    let n := kreg s w kb
    let a := kreg s w kc
    if n = 0 then kbBad i
    else if 256 < kreg s w ka + n then kaBad i
    else if a % 64 != 0 then some (.raise 0x13 (accTval false a))
    else if tileBytes < a + n * rowLen ty 64 then kbBad i
    else none) (fun s w => .drn acc (kreg s w ka) (kreg s w kb) (kreg s w kc) ty rnd sat clr kind) s

/-! ## Accumulators -/

def AccTile.row (t : AccTile) (r : Nat) : AccRow := tget t.rows r AccRow.zero
def AccTile.setRow (t : AccTile) (r : Nat) (v : AccRow) : AccTile := { t with rows := tset t.rows r v }
def Core.setTile (k : Core) (n : Nat) (t : AccTile) : Core := { k with ms := { k.ms with acc := tset k.ms.acc n t } }

def AccRow.el (r : AccRow) (n : Nat) : Nat := r.bits.toNat / 2 ^ (32 * n) % 2 ^ 32

/-- A row from its 64 elements. -/
def rowBits (l : List Nat) : BitVec 2048 := BitVec.ofNat 2048 (natOfEls 4 l)

/-- The exact value of an element of a tile (R305). -/
def AccTile.val (t : AccTile) (r n : Nat) : Num :=
  let w := t.row r
  match t.fmt with
  | .f32 => fmtF32.decode (w.el n)
  | .s32 => Num.ofInt (signedField (w.el n) 32)
  | .anc => (tget w.cells n AncCell.zero).value w.anchor

/-! ## Issue (R288, R289) -/

def isFloatRow (t : Ty) : Bool := !(t == .s8 || t == .z8)

/-- The format that a profile accumulates in (R284). -/
def fmtOfNp : Np → AccFmt
  | .np3 => .anc
  | .np4 => .s32
  | _ => .f32

/-- Marks halves read (R286). -/
def emptyHalves (k : Core) (hs : List Nat) : Core :=
  { k with ms := { k.ms with efull := k.ms.efull.filter (fun h => !hs.contains h) } }

def emptyWb (k : Core) (wb : Nat) : Core := { k with ms := { k.ms with wb := tdel k.ms.wb wb } }

/-- An MRUN holds a feed whose row type differs from its own (R293). -/
def feedDiffers (k : Core) (seq : Nat) (ty : Ty) : Bool := k.ms.feeds.any (fun f => f.bound == some seq && f.ty != ty)

/-- What an MRUN checks at issue, and again as it resumes (R291, R293, R302). A type that its profile does not allow is refused here with
0x02, since the profile is known at issue only (R91; no row of R302's table; DEDUCED, log 46). -/
def runRefused (k : Core) (seq acc wb : Nat) (mode : MMode) (ty : Ty) (np : Np) : Option Nat :=
  match tfind k.ms.wb wb with
  | none => some 0x25
  | some b =>
    if feedDiffers k seq ty then some 0x02
    else if isFloatRow ty != isFloatRow b.ty || isFloatRow ty == (np == .np4) then some 0x02
    else if (k.accTile acc).fmt != fmtOfNp np || (mode == .s && np == .np4) then some 0x02
    else none

/-- The masks of an MWLDS: byte n * (K/8) + g for column n and group g. -/
def maskBytes (k : Core) (e kk n : Nat) : List Nat :=
  ((List.range (n * (kk / 8))).map (fun i => vget 1 (tget k.ms.e (2 * e + i / 512) 0) (i % 512)))

/-- The checks of an issued command, at issue or as ERET resumes it: an MRUN's conditions and column mask, an MWLDS's masks. -/
def checkIssued (s : State) (core : Nat) (c : Cmd) : State :=
  let k := s.core core
  match c.op with
  | .run acc wb _ _ mode ty np cm =>
    (match runRefused k c.seq acc wb mode ty np with
     | some cause => suspendCmd s core c cause 0
     | none =>
       let r : Cmd × Core := match c.colmask, cm with
         | none, some h => ({ c with checked := true, colmask := some ((tget k.ms.e h 0).toNat % 2 ^ 64) }, emptyHalves k [h])
         | _, _ => ({ c with checked := true }, k)
       bindNow (tryRetireRun (s.setCore core (r.2.setCmd r.1)) core c.seq) core)
  | .wlds _ _ kk n e _ =>
    let masks := maskBytes k e kk n
    let s1 := s.setCore core (emptyHalves k c.op.halves)
    (match masks.findIdx? (fun m => onesCount (BitVec.ofNat 64 m) != 4) with
     | some i => suspendCmd s1 core c 0x22 i
     | none => s1.setCore core ((s1.core core).setCmd { c with checked := true, masks := masks }))
  | _ => s.setCore core (k.setCmd { c with checked := true })

/-- COMMAND_ISSUE. -/
def execCommandIssue (core : Nat) (s : State) : Out :=
  if !coreExists core then .fault .noSuchUnit
  else
    let k := s.core core
    if s.still core then .next s
    else
      match recheck k with
      | some c => .next (checkIssued s core c)
      | none =>
        match oldestFit k [] k.ms.window with
        | none => .next s
        | some c =>
          let c1 := { c with state := .issued }
          let k1 := (k.takeAll (takeFifos .m c.take)).setCmd c1
          let k2 := match c.op with | .wld w _ _ _ _ => emptyWb k1 w | .wlds w _ _ _ _ _ => emptyWb k1 w | _ => k1
          .next (checkIssued (s.setCore core k2) core c1)

/-! ## The acts of the other commands (R300, R301, R303 to R305) -/

/-- An M access to the tile store: 0x16 with its detail (R222, R292). -/
def mOwns (k : Core) (a n : Nat) : Option (Nat × Nat) := (k.notOwned true a n).map (fun t => (0x16, refusedLine a t))

/-- An M read of the tile store: 0x16, or the 0x51 of a line that cannot be had (R221). -/
def mRead (s : State) (c a n : Nat) : Option (Nat × Nat) :=
  match mOwns (s.core c) a n with
  | some e => some e
  | none => (tileBad s c a n).map (fun b => (0x51, b))

/-- Accumulator rows that are written whole have no error left (R221). -/
def mendRows (k : Core) (acc : Nat) (rows : List Nat) : Core :=
  { k with ms := { k.ms with badAcc := k.ms.badAcc.filter (fun i => !(i / 256 == acc && rows.contains (i % 256))) } }

/-- What the act of a command comes to: the core and flags, or a suspension that keeps the core. -/
inductive Act where
  | done (k : Core) (flags : Word)
  | fault (k : Core) (rows : Nat) (flags : Word) (cause detail : Nat)
  deriving Repr

/-- The values of a dense block, row after row (R300). -/
def denseVals (k : Core) (t kk n : Nat) (ty : Ty) : Tbl Num :=
  (List.range kk).flatMap (fun j =>
    (rowVals ty n (readBytes k.tile (4096 * t + j * rowLen ty n) (rowLen ty n))).mapIdx (fun i v => (j * 64 + i, v)))

/-- The kept values of a sparse block, column after column: value j of column n under j * 64 + n (R301). -/
def sparseVals (k : Core) (t kk n : Nat) (ty : Ty) : Tbl Num :=
  (List.range (kk / 2)).flatMap (fun j => (List.range n).map (fun i =>
    (j * 64 + i, elemNum ty (readNat k.tile (4096 * t + (i * (kk / 2) + j) * ty.width) ty.width))))

def sparseMasks (kk n : Nat) (masks : List Nat) : Tbl Nat :=
  (List.range n).flatMap (fun i => (List.range (kk / 8)).map (fun g => (i * 16 + g, masks.getD (i * (kk / 8) + g) 0)))

/-- Sets the anchor of rows and clears them (R303). -/
def anchorRows (t : AccTile) (a : Int) : List Nat → AccTile
  | [] => t
  | r :: rest => anchorRows (t.setRow r ⟨0, a, []⟩) a rest

/-- The anchor of a run of K4 blocks: largest E other than 63, less 16; 0 where every block is a NaN block. -/
def blockAnchor (k : Core) (addr m : Nat) : Int :=
  let es := ((List.range m).map (fun i => (readB k.tile (addr + 17 * i + 16)).toNat % 64)).filter (fun e => e != 63)
  if es.isEmpty then 0 else ((es.foldl max 0 : Nat) : Int) - 16

/-- The destination types of a tile's format (R305). -/
def drainOk (f : AccFmt) (ty : Ty) : Bool :=
  match f with
  | .s32 => ty == .s8 || ty == .s16 || ty == .s32 || ty == .f32 || ty == .bf16 || ty == .f16
  | _ => true

/-- A drained row: bytes and flags. -/
def drainRow (t : AccTile) (r : Nat) (ty : Ty) (rnd : Rnd) (sat : Bool) (kind dph : Nat) : List Byte × Word :=
  let xs := (List.range 64).map (t.val r)
  if ty = .k4 then
    let a := blockBytes .k4 false kind rnd dph (xs.take 32)
    let b := blockBytes .k4 false kind rnd dph (xs.drop 32)
    (a.1 ++ b.1, a.2 ||| b.2)
  else
    let one (n : Nat) (x : Num) : Nat × Word :=
      let m := RMode.at rnd dph (r * 64 + n)
      if ty.isInt then
        let (i, fl) := if t.fmt = .s32 then intOfInt ty (poolElem.intVal x) else intOfNum ty m x
        (wrapTo (8 * ty.width) i, fl)
      else (Fmt.ofTy ty).round m sat x
    let rs := xs.mapIdx one
    (elemBytes ty.width (rs.map Prod.fst), orFlags (rs.map Prod.snd))

/-- Drains rows one after another from row `i` of the command; a row that cannot be read or written leaves those before it written.
The detail of an accumulator's error is 0: it has no tile-store address (R292; DESIGN CHOICE, log 41). -/
def drainFrom (acc first addr : Nat) (ty : Ty) (rnd : Rnd) (sat clr : Bool) (kind dph : Nat) : List Nat → Core → Word → Act
  | [], k, fl => .done k fl
  | i :: rest, k, fl =>
    let P := rowLen ty 64
    let t := k.accTile acc
    let r := first + i
    if k.ms.badAcc.contains (256 * acc + r) then .fault k i fl 0x51 0
    else
      match mOwns k (addr + i * P) P with
      | some (cause, detail) => .fault k i fl cause detail
      | none =>
        let d := drainRow t r ty rnd sat kind dph
        let k1 := k.tileWrite (addr + i * P) d.1 (List.replicate P true)
        let k2 := if clr then k1.setTile acc (t.setRow r ⟨0, (t.row r).anchor, []⟩) else k1
        drainFrom acc first addr ty rnd sat clr kind dph rest k2 (fl ||| d.2)

/-- The act of a command other than MRUN. -/
def actOf (s : State) (core : Nat) (c : Cmd) : Act :=
  let k := s.core core
  let reading (a n : Nat) (act : Act) : Act :=
    match mRead s core a n with | some (cause, detail) => .fault k 0 0 cause detail | none => act
  match c.op with
  | .wld wb t kk n ty =>
    reading (4096 * t) (kk * rowLen ty n)
      (.done { k with ms := { k.ms with wb := tset k.ms.wb wb ⟨ty, kk, n, false, denseVals k t kk n ty, []⟩ } } 0)
  | .wlds wb t kk n _ ty =>
    reading (4096 * t) (n * (kk / 2) * ty.width)
      (.done { k with ms := { k.ms with
        wb := tset k.ms.wb wb ⟨ty, kk, n, true, sparseVals k t kk n ty, sparseMasks kk n c.masks⟩ } } 0)
  | .anch acc first rows a =>
    let rs := (List.range rows).map (fun i => first + i)
    if (k.accTile acc).fmt != .anc then .fault k 0 0 0x02 0
    else .done (mendRows (k.setTile acc (anchorRows (k.accTile acc) a rs)) acc rs) 0
  | .anch4 acc first rows addr m =>
    let rs := (List.range rows).map (fun i => first + i)
    if (k.accTile acc).fmt != .anc then .fault k 0 0 0x02 0
    else reading addr (17 * m) (.done (mendRows (k.setTile acc (anchorRows (k.accTile acc) (blockAnchor k addr m) rs)) acc rs) 0)
  | .zero acc ty =>
    .done (mendRows (k.setTile acc ⟨match ty with | .s32 => .s32 | .anc => .anc | _ => .f32, []⟩) acc (List.range 256)) 0
  | .drn acc first rows addr ty rnd sat clr kind =>
    if !drainOk (k.accTile acc).fmt ty then .fault k 0 0 0x02 0
    else drainFrom acc first addr ty rnd sat clr kind c.dph ((List.range (rows - c.rowsDone)).map (fun i => c.rowsDone + i)) k
      c.flags
  | .run .. => .done k 0

/-- The waits of a command's reads or of the rows that it has drained, `upto` of them (R220, R227). -/
def cmdWaits (s : State) (core : Nat) (c : Cmd) (upto : Nat) : State :=
  match c.op with
  | .wld _ t kk n ty => countWaits s core .weights (4096 * t) (kk * rowLen ty n)
  | .wlds _ t kk n _ ty => countWaits s core .weights (4096 * t) (n * (kk / 2) * ty.width)
  | .anch4 _ _ _ addr m => countWaits s core .weights addr (17 * m)
  | .drn _ _ _ addr ty _ _ _ _ => countWaits s core .drain (addr + c.rowsDone * rowLen ty 64) ((upto - c.rowsDone) * rowLen ty 64)
  | _ => s

/-- The rows of a drain. -/
def Cmd.drains (c : Cmd) : Nat := match c.op with | .drn _ _ rows _ _ _ _ _ _ => rows | _ => 0

/-- COMMAND_RETIRE: the issued command at place `n`, other than an MRUN, completes, or suspends at the access that fails. -/
def execCommandRetire (core n : Nat) (s : State) : Out :=
  if !coreExists core then .fault .noSuchUnit
  else
    match (s.core core).ms.window[n]? with
    | none => .next s
    | some c =>
      if s.still core || c.op.isRun || c.state != .issued || !c.checked then .next s
      else
        match actOf s core c with
        | .done k1 fl => .next (retireCmd (cmdWaits (s.setCore core k1) core c c.drains) core { c with flags := fl })
        | .fault k1 rows fl cause detail =>
          let c1 := match c.op with | .drn .. => { c with rowsDone := max c.rowsDone rows, flags := fl } | _ => c
          .next (suspendCmd (cmdWaits (s.setCore core k1) core c rows) core c1 cause detail)

/-! ## Rows (R294 to R297) -/

/-- Replaces a feed; one whose rows have all begun is no longer kept. -/
def setFeed (k : Core) (f : Feed) : Core :=
  { k with ms := { k.ms with
    feeds := (k.ms.feeds.map (fun g => if g.id == f.id then f else g)).filter (fun g => g.began < g.total) } }

/-- How the header check of a row ends (R294): the command's new counts, whether the row updates an accumulator row, and its
cause. -/
def headerCheck (c : Cmd) (r : Row) : Cmd × Option Nat × Option Nat :=
  let base := match c.op with | .run _ _ _ b _ _ _ _ => b | _ => 0
  let placing := match c.op with | .run _ _ _ _ m _ _ _ => m == .p | _ => false
  let x := (r.tag + 65536 - base % 65536) % 65536
  let mark (c : Cmd) : Cmd := if placing then { c with placed := if c.placed.contains x then c.placed else x :: c.placed } else c
  if c.complete then (c, none, some 0x24)
  else
    match r.data with
    | none =>
      let c1 := { c with absent := c.absent + 1 }
      if 256 ≤ x then (c1, none, some 0x21) else (mark c1, none, none)
    | some _ =>
      if c.skipped.contains r.tag then (c, none, some 0x24)
      else
        let c1 := { c with received := c.received + 1 }
        if 256 ≤ x then (c1, none, some 0x21)
        else if placing && c.placed.contains x then (c1, none, some 0x20)
        else (mark c1, some x, none)

/-- The weights, mask and operation under which a row passes: those of its command as the passage begins. -/
def passageOf (k : Core) (c : Cmd) (r : Row) (target : Option Nat) (last : Bool) : Passage :=
  let wb := match c.op with | .run _ w _ _ _ _ _ _ => w | _ => 0
  ⟨r, c.seq, c.op, tget k.ms.wb wb ⟨.bf16, 0, 0, false, [], []⟩, c.colmask.getD (2 ^ 64 - 1), target, last⟩

/-- A row begins its passage under its command. An absent header ends with its check; so does a data row that updates nothing and does
not complete the command. -/
def beginRow (s : State) (core : Nat) (c : Cmd) (f : Feed) (r : Row) : State :=
  let k := s.core core
  let h := if c.state == .cancelled then (c, none, none) else headerCheck c r
  let last := r.data.isSome && !c.complete && h.1.complete
  let k1 := setFeed { k with ms := { k.ms with port := k.ms.port.drop 1 } }
    { f with began := f.began + 1, checkedRows := r.seq :: f.checkedRows, bound := some c.seq }
  let k2 : Core := if h.2.1.isSome || last then { k1 with ms := { k1.ms with array := k1.ms.array ++ [passageOf k c r h.2.1 last] } }
    else k1
  let s1 := s.setCore core (k2.setCmd h.1)
  let s2 := match h.2.2 with | some cause => reportRow s1 core h.1 cause r | none => s1
  bindNow (tryRetireRun s2 core c.seq) core

/-- ROW_PASSAGE_BEGIN: the first row of the port, once its feed is bound to an MRUN that has issued. -/
def execRowPassageBegin (core : Nat) (s : State) : Out :=
  if !coreExists core then .fault .noSuchUnit
  else if s.still core then .next s
  else
    let s1 := bindNow s core
    match (s1.core core).portHead with
    | none => .next s1
    | some (r, f, c) => .next (beginRow s1 core c f r)

/-- The terms of column `n` for a row: the products that are read (R295). -/
def columnPairs (b : WBuf) (xs : List Num) (n : Nat) : List (Num × Num) :=
  if b.n ≤ n then []
  else if b.sparse then
    let kept := (List.range b.k).filter (fun p => tget b.masks (n * 16 + p / 8) 0 / 2 ^ (p % 8) % 2 == 1)
    ((kept.mapIdx (fun j p => (j, p))).filter (fun jp => jp.2 < xs.length)).map (fun jp =>
      (xs.getD jp.2 (.fin false 0 0), tget b.w (jp.1 * 64 + n) (.fin false 0 0)))
  else (List.range (min xs.length b.k)).map (fun j => (xs.getD j (.fin false 0 0), tget b.w (j * 64 + n) (.fin false 0 0)))

/-- The sum of exact integer products (R302). -/
def intDot (l : List (Num × Num)) : Int := l.foldl (fun a p => a + poolElem.intVal p.1 * poolElem.intVal p.2) 0

/-- Adds the terms of a column to a window: each product, scaled in mode S, and +0 for the positions that are not read. -/
def ancColumn (anchor : Int) (sigma : Option Num) (cell : AncCell) (l : List (Num × Num)) : AncCell × Word :=
  let ps : List NumF := l.map (fun p => Num.mul p.1 p.2)
  let ts := match sigma with
    | some g => ps.map (fun (p : NumF) => let q := Num.mul g p.val; (⟨q.val, p.flags ||| q.flags⟩ : NumF))
    | none => ps
  let r := ancSum anchor cell (ts.map NumF.val ++ (if l.length < 64 then [.fin false 0 0] else []))
  (r.1, r.2 ||| orFlags (ts.map NumF.flags))

/-- The new accumulator row and the flags of a data row (R90). -/
def applyRow (fmt : AccFmt) (old : AccRow) (b : WBuf) (mode : MMode) (colmask : Nat) (scale : Nat) (xs : List Num) :
    AccRow × Word :=
  let cols := (List.range 64).filter (fun n => colmask / 2 ^ n % 2 == 1)
  let sigma := fmtBf16.decode scale
  match fmt with
  | .anc =>
    let step (acc : AccRow × Word) (n : Nat) : AccRow × Word :=
      let start := if mode = .p then AncCell.zero else tget acc.1.cells n AncCell.zero
      let r := ancColumn old.anchor (if mode = .s then some sigma else none) start (columnPairs b xs n)
      ({ acc.1 with cells := tset acc.1.cells n r.1 }, acc.2 ||| r.2)
    cols.foldl step (old, 0)
  | .s32 =>
    let one (n : Nat) : Nat :=
      if colmask / 2 ^ n % 2 == 1 then
        wrapTo 32 (intDot (columnPairs b xs n) + (if mode = .p then 0 else (old.el n : Int)))
      else old.el n
    ({ old with bits := rowBits ((List.range 64).map one) }, 0)
  | .f32 =>
    let one (n : Nat) : Nat × Word :=
      if colmask / 2 ^ n % 2 == 1 then
        let d := dotNp12 (columnPairs b xs n)
        let x := fmtF32.decode (old.el n)
        let y : NumF := match mode with
          | .p => d
          | .a => addRne (NumF.pure x) d
          | .s =>
            let f := roundNum fmtF32 rmRne (Num.fma false sigma d.val x)
            ⟨f.val, d.flags ||| f.flags⟩
        f32Out y
      else (old.el n, 0)
    let rs := (List.range 64).map one
    ({ old with bits := rowBits (rs.map Prod.fst) }, orFlags (rs.map Prod.snd))

/-- The flags of a row reach its command's record, and `qflags` at once where the command has retired before the row is written (R302). Such a
row that saturates under `aovte` sets aovf and suspends nothing: R291 raises 0x23 at a retirement, which is past (R76, R297; DEDUCED,
log 45). -/
def rowFlags (k : Core) (p : Passage) (fl : Word) : Core :=
  match k.cmdSeq p.cmd with
  | some c => if c.state == .retired then { k with m := k.m.addFlags fl } else k.setCmd { c with flags := c.flags ||| fl }
  | none => { k with m := k.m.addFlags fl }

/-- The core after a row of the array has left it with its result. -/
def writeRow (k : Core) (i : Nat) (p : Passage) : Core :=
  let k1 : Core := { k with ms := { k.ms with array := ldel k.ms.array i } }
  match p.op, p.target with
  | .run acc _ _ _ mode _ _ _, some r =>
    let t := k.accTile acc
    let res := applyRow t.fmt (t.row r) p.b mode p.colmask p.row.scale (p.row.data.getD [])
    let k2 := rowFlags (k1.setTile acc (t.setRow r res.1)) p res.2
    if mode = .p && p.colmask = 2 ^ 64 - 1 && t.fmt != .anc then mendRows k2 acc [r] else k2
  | _, _ => k1

/-- A row whose accumulator row has an uncorrectable error: its command suspends with 0x51 and the row stays; once the command has left
the window the M stream takes the cause and the row is dropped (R221, R291; log 41). -/
def loseRow (s : State) (core i : Nat) (p : Passage) : State :=
  let k := s.core core
  let drop := s.setCore core { k with ms := { k.ms with array := ldel k.ms.array i } }
  match k.cmdSeq p.cmd with
  | some c =>
    if c.state == .issued then suspendCmd s core c 0x51 0 else addLate drop ⟨core, .m⟩ ⟨0x51, cmdTval c 0 0, none, none⟩
  | none => drop

/-- ROW_RESULT_WRITE: the result of a row is written to its accumulator row, and its MRUN retires if the row completes it. -/
def execRowResultWrite (core : Nat) (s : State) : Out :=
  if !coreExists core then .fault .noSuchUnit
  else
    let k := s.core core
    match firstWritable k 0 [] k.ms.array with
    | none => .next s
    | some (i, p) =>
      if s.still core then .next s
      else if p.lost k then .next (tryEndJob (loseRow s core i p) core)
      else .next (tryEndJob (tryRetireRun (s.setCore core (writeRow k i p)) core p.cmd) core)

end Sys2Proof.Machine
end

