-- ==== Sys2Proof/Machine/Directory.lean ====
section
/-! DEFINITION. The tensor directory: OPEN, CLOSE, BIND and REBIND (R390 to R400) and their acts at the hub. -/

namespace Sys2Proof.Machine

/-! ## Objects from descriptors (R391, R392) -/

/-- A stream that stands at its instruction until an act at the hub completes it. -/
def standAtAct (s : State) (w : Who) (m : Meet) : State :=
  s.setStream w { s.stream w with at_ := m, run := .waiting }

/-- A little-endian field of a descriptor. -/
def descField (l : List Byte) (at_ n : Nat) : Nat := natOf ((l.drop at_).take n)

/-- The dims of a descriptor of a rank fit its size (R391). -/
def dimsFit (format size : Nat) (dims : List Nat) : Bool :=
  let p := dims.foldl (fun a b => a * b) 1
  dims.isEmpty ||
    (if format = 5 then dims.headD 0 % 32 == 0 && decide (p / 32 * 17 ≤ size)
     else decide (p * (Ty.ofCode format).width ≤ size))

/-- The limits of R391 on a descriptor of 48 bytes. -/
def descOk (s : State) (c : Nat) (l : List Byte) : Bool :=
  let base := descField l 0 8
  let size := descField l 8 8
  let format := descField l 16 1
  let rank := descField l 17 1
  let dim (k : Nat) : Nat := descField l (24 + 4 * k) 4
  canonical base && decide (tileBytes ≤ base) && (windowOf s c base 1).isNone &&
    decide (1 ≤ size) && decide (size ≤ 2 ^ 40) && decide (format ≤ 14) && decide (rank ≤ 4) &&
    descField l 18 6 == 0 && descField l 40 8 == 0 &&
    (List.range 4).all (fun k => if k < rank then 1 ≤ dim k else dim k == 0) &&
    dimsFit format size ((List.range rank).map dim)

/-- The pages of an extent: the address of each piece, its length and its translation; the address that a fault names. Frames that run
past an assigned range fault at the access that meets them, not here (R327, R392). -/
def extentPages (s : State) (ctx : Nat) : Nat → Nat → Nat → Except (Nat × Nat) (List (Nat × Nat × Trans))
  | 0, _, _ => .ok []
  | f + 1, va, n =>
    if n = 0 then .ok []
    else
      let first := va / 0x4000 * 0x4000
      if !canonical va then .error (0x10, first)
      else
        match walk s ctx (va % 2 ^ 57) with
        | .error cause => .error (cause, first)
        | .ok t =>
          let size := 2 ^ pageShift t.size
          let m := min n (size - va % size)
          match extentPages s ctx f (va + m) (n - m) with
          | .error e => .error e
          | .ok rest => .ok ((t.pa (va % 2 ^ 57), m, t) :: rest)

/-- Pieces that follow one another within one package and share kind, cmp, rep, race and det. -/
def uniform (pa pkg : Nat) (a : Attr) : List (Nat × Nat × Trans) → Bool
  | [] => true
  | (p, m, t) :: rest =>
    p == pa && t.pkg == pkg && { t.attr with writable := true, executable := true } == a && uniform (pa + m) pkg a rest

/-- What a descriptor leads to: an object, a status (4 or 5), or a precise fault with its `addr`. -/
inductive Made where
  | obj (o : ObjDesc)
  | status (st : Nat)
  | fault (cause addr : Nat)
  deriving DecidableEq, Repr

def makeObj (s : State) (c : Nat) (l : List Byte) : Made :=
  if !descOk s c l then .status 4
  else
    let base := descField l 0 8
    let size := descField l 8 8
    match extentPages s (s.core c).ctx (size / 0x4000 + 2) base size with
    | .error (cause, addr) => .fault cause addr
    | .ok [] => .status 5
    | .ok ((pa, m, t) :: rest) =>
      let a : Attr := { t.attr with writable := true, executable := true }
      if !uniform pa t.pkg a ((pa, m, t) :: rest) then .status 5
      else
        .obj ⟨t.pkg, t.inc, pa, size,
          { a with writable := ((pa, m, t) :: rest).all (fun p => p.2.2.attr.writable), executable := false },
          descField l 16 1, descField l 17 1, (List.range 4).map (fun k => descField l (24 + 4 * k) 4)⟩

/-- The addresses of an extent at which its pages are walked, up to one that faults. -/
def extentVas (s : State) (ctx : Nat) : Nat → Nat → Nat → List (Nat × Nat)
  | 0, _, _ => []
  | f + 1, va, n =>
    if n = 0 || !canonical va then []
    else
      (va, n) :: (match walk s ctx (va % 2 ^ 57) with
        | .error _ => []
        | .ok t => let m := min n (2 ^ pageShift t.size - va % 2 ^ pageShift t.size); extentVas s ctx f (va + m) (n - m))

/-- The walks of a descriptor's pages count the lines that they read (R383). -/
def walkedExtent (s : State) (c : Nat) (l : List Byte) : State :=
  let ctx := (s.core c).ctx
  if !descOk s c l then s
  else countWalks ctx none (extentVas s ctx (descField l 8 8 / 0x4000 + 2) (descField l 0 8) (descField l 8 8)) s

/-! ## The forms (R397 to R400) -/

/-- OPEN waits while its status register is empty; a valid handle is 0x02. -/
def execOpenH (h a b : Nat) (wait : Bool) (s : State) : Out :=
  let w := s.whoOn .a
  finish w 4 s (needRegs s w [a] (
    if (handleSlot s w h).isSome then .raise 0x02 (opTval (.openH h a b wait) false 19)
    else if !(s.stream w).full b then .wait
    else .ok (standAtAct s w (.dirOpen h (regOf s w a) b wait)) (.stay .waiting)))

/-- An access that a transfer makes through a slot of the handle table. -/
def XferOp.usesSlot (slot : Nat) : XferOp → Bool
  | .cpgo d a _ _ _ _ _ _ _ => d == .obj slot || a == .obj slot
  | .move .. => false
  | .gather d a i g _ _ _ _ _ _ _ _ _ _ => d == .obj slot || a == .obj slot || i == .obj slot || g == .obj slot
  | .scatter d a i _ _ _ _ _ _ _ _ _ _ => d == .obj slot || a == .obj slot || i == .obj slot
  | .feed _ r i _ _ _ _ _ _ _ _ _ _ => r == .obj slot || i == .obj slot
  | .decode _ _ a _ _ _ _ _ => a == .obj slot

/-- CLOSE waits for the earlier accesses of its stream, the transfers and the buffered writes that are based on its handle (R399,
R451). -/
def execCloseH (h : Nat) (s : State) : Out :=
  let w := s.whoOn .a
  let k := s.core w.core
  finish w 4 s (
    match handleSlot s w h with
    | none => let e := badHandle false h; .raise e.1 e.2
    | some slot =>
      let based (g : Seg) : Bool := g.slot == some slot
      if k.a.pend.any (fun p => p.op.segs.any based) || k.as.xfers.any (fun p => p.2.op.usesSlot slot) then .wait
      else if k.det.writes.any (fun d => based d.seg) then toCommit s w
      else .ok (standAtAct s w (.dirClose h)) (.stay .waiting))

/-- Without the binder right BIND and REBIND raise 0x03; they wait as `fence.rel.package` waits (R400). -/
def binderForm (i : Instr) (regs : List Nat) (act : State → Who → Res) (early : State → Who → Option Res) (s : State) : Out :=
  let w := s.whoOn .a
  let k := s.core w.core
  finish w 4 s (
    if !(s.ctx k.ctx).binder then .raise 0x03 (firstWord i)
    else needRegs s w regs (
      match early s w with
      | some r => r
      | none => if !k.doneA || !k.as.xfers.isEmpty then .wait else act s w))

/-- Reads memory for a form that reads several times: the replies stay until the form ends. -/
def readKept (s0 s : State) (w : Who) (va n : Nat) (k : List Byte → State → Res) : Res :=
  match openAccess s w.core (syncAcc .read 8) (.va va) n with
  | .error (c, v) => .raiseIn (translatedFor s w.core (syncAcc .read 8) (.va va) n) c v
  | .ok (parts, s1) =>
    let owner : Owner := .instr w.core w.eng
    let segs := parts.flatMap (fun g => pieces (g.len / 512 + 1) g)
    let missing := segs.filter (fun g => g.isRemote && (findRead s owner g).isNone)
    if !missing.isEmpty then .ok (requestReads w.core owner missing s0) (.stay .waiting)
    else
      match gather w.core owner segs s1 with
      | .ok l s2 => k l s2
      | .wait => .wait
      | .bad cause tv => .raise cause (accTval false tv)

/-- Drops the replies that a form kept when it ends in a fault. -/
def forgetReads (s : State) (w : Who) : Res → Res
  | .raise c v => .raiseIn (dropReqs s (.instr w.core w.eng)) c v
  | .raiseIn t c v => .raiseIn (dropReqs t (.instr w.core w.eng)) c v
  | r => r

/-- Stands at an act with the replies dropped. -/
def toAct (s : State) (w : Who) (m : Meet) : Res :=
  .ok (standAtAct (dropReqs s (.instr w.core w.eng)) w m) (.stay .waiting)

def execBind (d a b : Nat) (s : State) : Out :=
  binderForm (.bind d a b) [a, b] (fun s w =>
    forgetReads s w (readKept s s w (regOf s w b).toNat 48 (fun l s1 =>
      match makeObj s1 w.core l with
      | .fault cause addr => .raiseIn (walkedExtent s w.core l) cause (accTval false addr)
      | .status st => toAct (walkedExtent s1 w.core l) w (.dirBind d (regOf s w a) none st)
      | .obj o => toAct (walkedExtent s1 w.core l) w (.dirBind d (regOf s w a) (some o) 0)))) (fun _ _ => none) s

/-- The pairs of a REBIND: a name and a descriptor address. -/
def pairsOf (l : List Byte) : Nat → List (Word × Nat)
  | 0 => []
  | n + 1 => (BitVec.ofNat 64 (descField l 0 8), descField l 8 8) :: pairsOf (l.drop 16) n

/-- Reads the descriptors of the pairs in order: empty for an unbinding. -/
def readDescs (s0 : State) (w : Who) : List (Word × Nat) → State → (List (Word × List Byte) → State → Res) → Res
  | [], s, k => k [] s
  | (name, addr) :: t, s, k =>
    if addr = 0 then readDescs s0 w t s (fun r s2 => k ((name, []) :: r) s2)
    else readKept s0 s w addr 48 (fun l s1 => readDescs s0 w t s1 (fun r s2 => k ((name, l) :: r) s2))

/-- Checks the pairs in list order up to the first that fails whatever the directory holds: a status 6, 4 or 5 stands for
such a pair, 0 for one that unbinds, 1 for one that binds. -/
def checkPairs (s : State) (c : Nat) : List Word → List (Word × List Byte) →
    Except (Nat × Nat) (List (Word × Nat × Option ObjDesc))
  | _, [] => .ok []
  | seen, (name, l) :: t =>
    let go (k : Nat) (o : Option ObjDesc) : Except (Nat × Nat) (List (Word × Nat × Option ObjDesc)) :=
      match checkPairs s c (name :: seen) t with
      | .error e => .error e
      | .ok r => .ok ((name, k, o) :: r)
    if seen.contains name then .ok [(name, 6, none)]
    else if l.isEmpty then go 0 none
    else
      match makeObj s c l with
      | .fault cause addr => .error (cause, addr)
      | .status st => .ok [(name, st, none)]
      | .obj o => go 1 (some o)

/-- The walks of the pairs that `checkPairs` looks at. -/
def walkedPairs (c : Nat) : List Word → List (Word × List Byte) → State → State
  | _, [], s => s
  | seen, (name, l) :: t, s =>
    if seen.contains name then s
    else if l.isEmpty then walkedPairs c (name :: seen) t s
    else
      match makeObj s c l with
      | .obj _ => walkedPairs c (name :: seen) t (walkedExtent s c l)
      | _ => walkedExtent s c l

def execRebind (d a b : Nat) (s : State) : Out :=
  let i : Instr := .rebind d a b
  binderForm i [a, b] (fun s w =>
    let n := (regOf s w b).toNat
    forgetReads s w (readKept s s w (regOf s w a).toNat (16 * n) (fun l s1 =>
      readDescs s w (pairsOf l n) s1 (fun ps s2 =>
        let s3 := walkedPairs w.core [] ps s2
        match checkPairs s2 w.core [] ps with
        | .error (cause, addr) => .raiseIn s3 cause (accTval false addr)
        | .ok l => toAct s3 w (.dirRebind d l)))))
    (fun s w =>
      let n := (regOf s w b).toNat
      if n = 0 || 16 < n then some (.raise 0x02 (opTval i false 7)) else none) s

/-! ## The acts at the hub (R396, R398 to R400) -/

def State.entry? (s : State) (name : Word) : Option DirEnt := s.entries.find? (fun e => e.name == name)

/-- The object that a name is bound to. -/
def State.bound? (s : State) (name : Word) : Option Nat := (s.entry? name).bind DirEnt.obj

/-- Wakes the A streams of cores that await a name, in order; each issues its OPEN again. -/
def wakeWaiters (name : Word) : List Nat → State → State
  | [], s => s
  | c :: t, s =>
    let w : Who := ⟨c, .a⟩
    let st := s.stream w
    wakeWaiters name t (if st.at_ == .awaiting name then s.setStream w { st with at_ := .free, run := .running } else s)

/-- Binds a name to a new object; an object that the name had before loses it. -/
def bindName (s : State) (ctx : Nat) (name : Word) (o : ObjDesc) : State :=
  let id := s.nextObj
  let binder := (ctx, (s.ctx ctx).gen)
  let ws := match s.entry? name with | some e => e.waiters | none => []
  let es := if (s.entry? name).isSome then s.entries.map (fun e => if e.name == name then ⟨name, some id, []⟩ else e)
    else s.entries ++ [⟨name, some id, []⟩]
  wakeWaiters name ws { s with entries := es, nextObj := id + 1, objs := tset s.objs id ⟨o, name, true, 0, binder⟩ }

/-- Frees the entry of a name. -/
def freeName (s : State) (name : Word) : State := { s with entries := s.entries.filter (fun e => e.name != name) }

/-- The entries a package has (R390). -/
def dirSize : Nat := 65536
/-- The slots of a context's handle table (R394). -/
def handleSlots : Nat := 512

/-- Completes the form that a stream stands at, with a status. -/
def actDone (s : State) (w : Who) (d st : Nat) : State := retire w 4 (putReg s w d (BitVec.ofNat 64 st))

/-- OPEN: a bound name gives the lowest free slot of the context's table. -/
def openAct (s : State) (w : Who) (h : Nat) (name : Word) (b : Nat) (wait : Bool) : State :=
  let k := s.core w.core
  let x := s.ctx k.ctx
  match s.bound? name with
  | some id =>
    (match (List.range handleSlots).find? (fun i => (tfind x.handles i).isNone), tfind s.objs id with
     | some slot, some o =>
       let s1 := (({ s with objs := tset s.objs id { o with count := o.count + 1 } } : State).setCtx k.ctx
         { x with handles := tset x.handles slot id }).setCore w.core { k with as := { k.as with h := tset k.as.h h slot } }
       actDone s1 w b 0
     | _, _ => actDone s w b 2)
  | none =>
    if !wait then actDone s w b 1
    else if (s.entry? name).isNone && decide (dirSize ≤ s.entries.length) then takeTrap s w 0x4A 0
    else
      let es := if (s.entry? name).isSome then s.entries.map (fun e => if e.name == name then { e with waiters := e.waiters ++ [w.core] } else e)
        else s.entries ++ [⟨name, none, [w.core]⟩]
      ({ s with entries := es } : State).setStream w { s.stream w with at_ := .awaiting name, run := .descheduled }

/-- CLOSE: the handle is invalid and its slot free; the last handle of an orphan reclaims it. -/
def closeAct (s : State) (w : Who) (h : Nat) : State :=
  let k := s.core w.core
  match tfind k.as.h h with
  | none => retire w 4 s
  | some slot => retire w 4 (closeSlot (s.setCore w.core { k with as := { k.as with h := tdel k.as.h h } }) k.ctx slot)

def bindAct (s : State) (w : Who) (d : Nat) (name : Word) (obj : Option ObjDesc) (status : Nat) : State :=
  if (s.bound? name).isSome then actDone s w d 3
  else
    match obj with
    | none => actDone s w d status
    | some o =>
      if (s.entry? name).isNone && decide (dirSize ≤ s.entries.length) then takeTrap s w 0x4A 0
      else actDone (bindName s (s.core w.core).ctx name o) w d 0

/-- The status of the first pair that fails, with its index in bits [15:8]. -/
def rebindStatus (s : State) : Nat → List (Word × Nat × Option ObjDesc) → Option Nat
  | _, [] => none
  | i, (name, k, _) :: t =>
    if 2 ≤ k then some (k + 256 * i)
    else if k = 0 && (s.bound? name).isNone then some (1 + 256 * i)
    else rebindStatus s (i + 1) t

/-- Applies the pairs of a REBIND in order. -/
def applyPairs (binder : Nat) : List (Word × Nat × Option ObjDesc) → State → State
  | [], s => s
  | (name, _, o) :: t, s =>
    let old := s.bound? name
    let s1 := match o with | some o => bindName s binder name o | none => freeName s name
    applyPairs binder t (match old with | some id => unbind s1 id | none => s1)

def rebindAct (s : State) (w : Who) (d : Nat) (pairs : List (Word × Nat × Option ObjDesc)) : State :=
  match rebindStatus s 0 pairs with
  | some st => actDone s w d st
  | none =>
    let grow := pairs.countP (fun p => p.2.2.isSome && (s.entry? p.1).isNone)
    if dirSize < s.entries.length + grow then takeTrap s w 0x4A 0
    else actDone (applyPairs (s.core w.core).ctx pairs s) w d 0

/-- DIRECTORY_ACT: the act of the form that the core's A stream stands at. -/
def execDirectoryAct (core : Nat) (s : State) : Out :=
  if !coreExists core then .fault .noSuchUnit
  else
    let w : Who := ⟨core, .a⟩
    if s.still core then .next s
    else
      match (s.stream w).at_ with
      | .dirOpen h name b wait => .next (openAct s w h name b wait)
      | .dirClose h => .next (closeAct s w h)
      | .dirBind d name obj status => .next (bindAct s w d name obj status)
      | .dirRebind d pairs => .next (rebindAct s w d pairs)
      | _ => .next s

end Sys2Proof.Machine
end

