-- ==== Sys2Proof/Machine/Records.lean ====
section
/-! DEFINITION. Launch records (R407 to R412, R425): validity, LPATCH and LARM and their acts at the hub. -/

namespace Sys2Proof.Machine

/-! ## Validity (R408, R412) -/

/-- The cores of a unit of a domain code. -/
def domainCores : Nat → Nat
  | 0 => 4096 * 512
  | 1 => 512
  | 2 => 128
  | 3 => 16
  | _ => 1

/-- The rules of R408 on a level dword: `prev` is the domain of the hardware level before it, `core` says that the core
level stands above it. -/
def levelBad (gauge : Bool) (prev : Option Nat) (core : Bool) (w : Word) : Bool :=
  let dom := field w 2 0
  let scope := field w 6 4
  let count := field w 31 16
  if field w 3 3 != 0 || field w 15 7 != 0 || field w 63 32 != 0 || 5 < dom || 5 < scope || count = 0 then true
  else if dom = 5 then !core || scope != 1 || gauge
  else
    core || (match prev with | some p => decide (dom ≤ p) | none => false) || decide (scope < 5 - dom) ||
      decide ((match prev with | some p => 5 - p | none => 5) < scope) ||
      decide (domainCores (5 - scope) / domainCores dom < count)

/-- The place of the first level that breaks a rule; the first level where none has domain core. -/
def levelsBad (gauge : Bool) : Nat → Option Nat → Bool → List Word → Option Nat
  | _, _, core, [] => if core then none else some 16
  | i, prev, core, w :: t =>
    if levelBad gauge prev core w then some i
    else
      let dom := field w 2 0
      levelsBad gauge (i + 1) (if dom = 5 then prev else some dom) (core || dom == 4) t

def bad0 (s : State) (r : Rec) : Bool :=
  let d := r.d 0
  let x := s.ctx r.ctx
  !r.built || field d 7 0 != 1 || field d 23 22 != 0 || field d 31 27 != 0 || !x.live || decide (x.pcap < r.prio) ||
    r.gauge != x.gauge || r.npdef = 0 || decide (4 < r.npdef) || (r.npdef == 3 && !s.accepted.getLsbD 6)

def bad1 (index : Nat) (r : Rec) : Bool :=
  let d := r.d 1
  field d 15 13 != 0 || field d 31 29 != 0 || field d 63 32 != 0 || (flag d 12 && field d 11 0 == index) ||
    (flag d 28 && field d 27 16 == index)

def bad15 (r : Rec) : Bool :=
  let d := r.d 15
  if r.vaultLen = 0 then d != 0
  else field d 5 0 != 0 || !canonical d.toNat || decide (vaultBytes < r.voff + r.vaultLen)

/-- The first offending dword of a record. -/
def recordBad (s : State) (index : Nat) (r : Rec) : Option Nat :=
  let checks : List (Nat × Bool) :=
    [(0, bad0 s r), (1, bad1 index r), (2, r.d 2 == 0 && r.d 3 == 0 && r.d 4 == 0), (5, field (r.d 5) 1 0 != 0),
     (6, field (r.d 6) 1 0 != 0), (7, field (r.d 7) 1 0 != 0),
     (9, field (r.d 9) 63 21 != 0 || decide (tileBytes < field (r.d 9) 19 0)),
     (11, field (r.d 11) 63 26 != 0 || decide (vaultBytes < r.vaultLen)), (15, bad15 r)]
  match checks.find? Prod.snd with
  | some p => some p.1
  | none =>
    let n := r.lvls + 1
    match levelsBad r.gauge 16 none false ((List.range n).map (fun i => r.d (16 + i))) with
    | some k => some k
    | none => ((List.range (8 - n)).map (fun i => 16 + n + i)).find? (fun k => r.d k != 0)

/-! ## Arming (R411, R425) -/

/-- The guard bands of the armed gauge launches, in watts. -/
def guardBands (s : State) : Nat :=
  s.recs.foldl (fun n p => if p.2.armed && p.2.gauge then n + 7 * p.2.clusterNeed else n) 0

/-- Admit(r) of R425; new gauge admissions are refused above 112 °C (R441). -/
def admits (s : State) (r : Rec) : Bool :=
  decide (guardBands s + 7 * r.clusterNeed ≤ s.gaugeBudget) && !(s.heat == .hotter || s.heat == .down)

/-- The valid predecessors of a record. -/
def Rec.preds (r : Rec) : List Nat :=
  let d := r.d 1
  (if flag d 12 then [field d 11 0] else []) ++ (if flag d 28 then [field d 27 16] else [])

/-- Arms a record. -/
def armRecord (s : State) (index : Nat) : State :=
  let r := s.lrec index
  let r1 := (r.setD 0 (setField (r.d 0) 9 9 1)).setD 14 (setField (r.d 14) 31 0 (r.arms + 1))
  ({ s with arms := s.arms + 1 } : State).setLrec index
    { r1 with order := s.arms, targets := r.preds.map (fun p => (p, (if p = index then r1 else s.lrec p).arms)) }

/-- The act of LARM or of a host arm: a status, or the dword that 0x39 names. -/
def armAct (s : State) (index : Nat) : Except Nat (Nat × State) :=
  let r := s.lrec index
  if r.armed then .ok (2, s)
  else
    match recordBad s index r with
    | some k => .error k
    | none => if r.gauge && !admits s r then .ok (1, s) else .ok (0, armRecord s index)

/-! ## LPATCH and LARM (R410, R411) -/

/-- The `tval` of the hub's faults: record and dword. -/
def recTval (index k : Nat) : Word := BitVec.ofNat 64 (index + k * 2 ^ 16)

def execLpatch (a b f : Nat) (s : State) : Out :=
  let w := s.whoOn .a
  let n := (regOf s w a).toNat
  finish w 4 s (needRegs s w [a, b] (
    if 4095 < n then .raise 0x02 (opTval (.lpatch a b f) false 13)
    else .ok (standAtAct s w (.recPatch n f (regOf s w b))) (.stay .waiting)))

/-- LARM is a release at package scope: it waits for the earlier accesses of its stream. -/
def execLarm (d a : Nat) (s : State) : Out :=
  let w := s.whoOn .a
  let k := s.core w.core
  let n := (regOf s w a).toNat
  finish w 4 s (needRegs s w [a] (
    if 4095 < n then .raise 0x02 (opTval (.larm d a) false 13)
    else if !k.doneA || !k.as.xfers.isEmpty then .wait
    else .ok (standAtAct s w (.recArm d n)) (.stay .waiting)))

/-- The dword that a field of LPATCH names, and its bits. -/
def patchPart (f : Nat) : Nat × Nat × Nat := (f % 32, if f < 64 then 0 else 32, if f < 32 then 63 else if f < 64 then 31 else 63)

def patchAct (s : State) (w : Who) (index f : Nat) (value : Word) : State :=
  let r := s.lrec index
  let (k, lo, hi) := patchPart f
  if r.ctx != (s.core w.core).ctx || !r.built then takeTrap s w 0x11 (recTval index 0)
  else if k = 0 || k = 14 || !flag (r.d 0) (32 + k) then takeTrap s w 0x11 (recTval index k)
  else if r.armed then takeTrap s w 0x38 (recTval index k)
  else retire w 4 (s.setLrec index (r.setD k (setField (r.d k) hi lo value.toNat)))

def larmAct (s : State) (w : Who) (d index : Nat) : State :=
  if (s.lrec index).ctx != (s.core w.core).ctx then takeTrap s w 0x11 (recTval index 0)
  else
    match armAct s index with
    | .error k => takeTrap s w 0x39 (recTval index k)
    | .ok (st, s1) => actDone s1 w d st

/-- LAUNCH_RECORD_ACT: the act of the form that the core's A stream stands at. -/
def execLaunchRecordAct (core : Nat) (s : State) : Out :=
  if !coreExists core then .fault .noSuchUnit
  else
    let w : Who := ⟨core, .a⟩
    if s.still core then .next s
    else
      match (s.stream w).at_ with
      | .recPatch index f value => .next (patchAct s w index f value)
      | .recArm d index => .next (larmAct s w d index)
      | _ => .next s

end Sys2Proof.Machine
end

