-- ==== Sys2Proof/Machine/Placing.lean ====
section
/-! DEFINITION. Which cores a launch takes: logical indices (R414, R415), the placement walk (R371, R372, R408, R414), where a saved
launch fits (R422), and the ready queue (R371, R413, R417, R457). -/

namespace Sys2Proof.Machine

/-! ## Logical indices (R414, R415) -/

def prodOf (l : List Nat) : Nat := l.foldl (fun a b => a * b) 1

/-- The digits of a number in mixed radix, most significant first. -/
def digitsOf : List Nat → Nat → List Nat
  | [], _ => []
  | c :: t, v => v / prodOf t % c :: digitsOf t v

def ofDigits : List Nat → List Nat → Nat → Nat
  | c :: cs, d :: ds, v => ofDigits cs ds (v * c + d)
  | _, _, v => v

/-- The index tuple of a job: its package's rank, the ranks of its units, and the digits of its wave. -/
def indexTuple (rank : Nat) : List LevelDw → List Nat → List Nat → List Nat
  | [], _, _ => []
  | l :: t, hw, se =>
    if l.domain = 0 then 0 :: indexTuple rank t hw se
    else if l.domain = 1 then rank :: indexTuple rank t hw se
    else if l.domain = 5 then se.headD 0 :: indexTuple rank t hw se.tail
    else hw.headD 0 :: indexTuple rank t hw.tail se

def serialCounts (r : Rec) : List Nat := (r.levels.filter (fun l => l.domain == 5)).map LevelDw.count

def lidxOf (r : Rec) (rank : Nat) (hw : List Nat) (wave : Nat) : Nat :=
  ofDigits (r.levels.map LevelDw.count) (indexTuple rank r.levels hw (digitsOf (serialCounts r) wave)) 0

/-- The digits of a logical index at the levels of the domains that a test selects. -/
def digitsAt (r : Rec) (lidx : Nat) (p : Nat → Bool) : List Nat :=
  ((r.levels.zip (digitsOf (r.levels.map LevelDw.count) lidx)).filter (fun q => p q.1.domain)).map Prod.snd

/-- The logical index that the core of one has in a wave. -/
def inWave (r : Rec) (lidx wave : Nat) : Nat :=
  lidxOf r ((digitsAt r lidx (fun d => d == 1)).headD 0) (digitsAt r lidx (fun d => 2 ≤ d && d ≤ 4)) wave

/-! ## Which cores a launch can have (R371, R372, R424) -/

/-- The cores in the order of R414's keys: die, cluster, local index. -/
def keyOrder : List Nat :=
  (List.range 4).flatMap (fun d => (clustersOfDie d).flatMap (fun g => (List.range 16).map (coreOf g)))

/-- A core moved by `dx` and `dy`, if the grid has it. -/
def shiftCore (dx dy : Int) (c : Nat) : Option Nat :=
  let x := (coreX c : Int) + dx
  let y := (coreY c : Int) + dy
  if 0 ≤ x && x < 32 && 0 ≤ y && y < 16 then some (x.toNat + 32 * y.toNat) else none

/-- The core at which one of a launch stands after a move that the grid admits. -/
def moveCore (dx dy : Int) (c : Nat) : Nat := (shiftCore dx dy c).getD c

/-- The places of a lifeline's cores in its launch: where they were saved, or, once another part of the launch is restored, moved as that
one was (R422). -/
def Lifeline.places (f : Lifeline) : List Nat :=
  let d := f.shift.getD (0, 0)
  f.cores.map (fun p => moveCore d.1 d.2 p.1)

/-- A core is one of a launch's and its job is not saved away. -/
def State.occupies (s : State) (l : Launch) (c : Nat) : Bool :=
  l.cores.any (fun p => p.1 == c) && !s.lifelines.any (fun f => f.launch.record == l.record && f.places.contains c)

/-- A die of this package has failed. -/
def State.dieFailed (s : State) (d : Nat) : Bool := s.failedDies.contains (s.pkgId * 4 + d)

/-- Whether a core has no job and belongs to no running launch; `gone`: the records of launches that count as absent. -/
def coreFree (s : State) (gone : List Nat) (c : Nat) : Bool :=
  let k := s.core c
  (match k.job with | none => true | some j => gone.contains j.record) && !k.held &&
    !s.launches.any (fun l => !gone.contains l.record && s.occupies l c) && !s.dieFailed (dieOf c)

/-- Whether a cluster can run a regime: it has it, it changes to it, or it is idle. -/
def regimeFits (s : State) (gone : List Nat) (gauge : Bool) (g : Nat) : Bool :=
  match (s.cluster g).changing with
  | some t => t == gauge
  | none => (s.cluster g).gauge == gauge || ((List.range 16).map (coreOf g)).all (coreFree s gone)

/-- A core that a launch can have now. -/
def coreFits (s : State) (gone needed : List Nat) (gauge : Bool) (c : Nat) : Bool :=
  let g := clusterOf c
  !needed.contains c && regimeFits s gone gauge g &&
    !s.launches.any (fun l => !gone.contains l.record && (s.lrec l.record).gauge && l.clusters.contains g) &&
    (if gauge then ((List.range 16).map (coreOf g)).all (fun d => coreFree s gone d && !needed.contains d)
     else coreFree s gone c)

/-- A core that a launch could have once running launches end. -/
def coreIdeal (s : State) (gauge : Bool) (c : Nat) : Bool :=
  let ok (d : Nat) : Bool := !(s.core d).held && !s.dieFailed (dieOf d)
  if gauge then ((List.range 16).map (coreOf (clusterOf c))).all ok else ok c

/-! ## Choosing the units (R408, R414) -/

/-- The units of a scope that hold some cores, in the order of the cores. -/
def unitsAmong (scope : Nat) : List Nat → List Nat → List Nat
  | [], _ => []
  | c :: t, seen => if seen.contains (unitOf scope c) then unitsAmong scope t seen else unitOf scope c :: unitsAmong scope t (unitOf scope c :: seen)

def coresIn (scope u : Nat) (l : List Nat) : List Nat := l.filter (fun c => unitOf scope c == u)

/-- The first `n` results of the parts that have one, each with its rank before its indices. -/
def firstFits (f : List Nat → Option (List (Nat × List Nat))) : Nat → Nat → List (List Nat) → Option (List (Nat × List Nat))
  | _, 0, _ => some []
  | _, _ + 1, [] => none
  | rank, n + 1, p :: t =>
    match f p with
    | none => firstFits f rank (n + 1) t
    | some l =>
      match firstFits f (rank + 1) n t with
      | none => none
      | some r => some (l.map (fun q => (q.1, rank :: q.2)) ++ r)

/-- The units with the lowest keys under which the rest of the gang fits: the cores with their ranks, for the hardware levels
within a package. -/
def placeLevels (ok : Nat → Bool) : List LevelDw → List Nat → Option (List (Nat × List Nat))
  | [], cand =>
    match cand with
    | c :: _ => if ok c then some [(c, [])] else none
    | [] => none
  | l :: rest, cand =>
    (unitsAmong l.scope cand []).findSome? (fun u =>
      let mine := coresIn l.scope u cand
      let dom := 5 - l.domain
      firstFits (placeLevels ok rest) 0 l.count ((unitsAmong dom mine []).map (fun v => coresIn dom v mine)))

def hwLevels (r : Rec) : List LevelDw := r.levels.filter (fun l => 2 ≤ l.domain && l.domain ≤ 4)

def placeRec (s : State) (gone needed : List Nat) (r : Rec) : Option (List (Nat × List Nat)) :=
  placeLevels (coreFits s gone needed r.gauge) (hwLevels r) keyOrder

/-! ## Restoring a saved launch: where (R422) -/

/-- The translations by multiples of 4, the empty one first. -/
def shifts : List (Int × Int) :=
  (0, 0) :: ((List.range 7).flatMap (fun (j : Nat) => (List.range 15).map (fun (i : Nat) => (4 * (i : Int) - 28, 4 * (j : Int) - 12))))

/-- Cores that share a die before a move share one after it, and no others do. -/
def keepsDies (cs ds : List Nat) : Bool :=
  (cs.zip ds).all (fun p => (cs.zip ds).all (fun q => (dieOf p.1 == dieOf q.1) == (dieOf p.2 == dieOf q.2)))

/-- The translations that a saved launch may take: none but the empty one in gauge mode, and for a launch whose parts in other packages
stay at the same places; where part of the launch stands on its cores, that which keeps the places of its parts (R422, R458). -/
def shiftsOf (s : State) (f : Lifeline) : List (Int × Int) :=
  let r := s.lrec f.launch.record
  match f.shift with
  | some d => [d]
  | none => if r.gauge || 1 < r.packages || s.launches.any (fun l => l.record == f.launch.record) then [(0, 0)] else shifts

/-- Where a saved launch fits: the translation and the cores. -/
def shiftFor (s : State) (ok : Nat → Bool) (f : Lifeline) : Option ((Int × Int) × List Nat) :=
  let cs := f.cores.map Prod.fst
  (shiftsOf s f).findSome? (fun d =>
    match cs.mapM (shiftCore d.1 d.2) with
    | none => none
    | some ds => if ds.all ok && keepsDies cs ds then some (d, ds) else none)

/-! ## The ready queue (R371, R413, R457) -/

/-- A record whose launch waits to start or to be restored in this package, with its predecessors met here; one that spans packages
needs feature bit 8 (R413, R448). -/
def readyHere (s : State) (i : Nat) : Bool :=
  let r := s.lrec i
  r.armed && !s.launches.any (fun l => l.record == i) && !s.lifelines.any (fun f => f.launch.record == i && f.image.isSome) &&
    r.targets.all (fun p => p.2 ≤ (s.lrec p.1).completions) && (r.packages ≤ 1 || s.accepted.getLsbD 8)

/-- This package is the lowest at which a spanning record stands armed, and it stands armed with its predecessors met on each of the
others, all of which are up. No message of the spec carries that, so it is free here (R457; DESIGN CHOICE, log 55). -/
def leadsSpan (s : State) (i : Nat) : Bool :=
  let n := (s.lrec i).packages
  decide (s.pkgId + n ≤ 4096) && ((List.range n).all (fun k => k = 0 || (s.peer (s.pkgId + k)).up)) &&
    Config.freeBool s.steps (2 ^ 20 + i)

/-- A ready record (R413, R457). -/
def isReady (s : State) (i : Nat) : Bool := readyHere s i && ((s.lrec i).packages ≤ 1 || leadsSpan s i)

/-- The order of the queue: priority, 3 first, then the order of the arms. -/
def queueBefore (s : State) (i j : Nat) : Bool :=
  let a := s.lrec i
  let b := s.lrec j
  decide (b.prio < a.prio) || (a.prio == b.prio && decide (a.order < b.order))

def insertQueue (s : State) (i : Nat) : List Nat → List Nat
  | [] => [i]
  | j :: t => if queueBefore s i j then i :: j :: t else j :: insertQueue s i t

/-- The ready records in their order, with one that another package's dispatcher has found ready. -/
def queueWith (s : State) (record : Nat) : List Nat :=
  ((s.recs.map Prod.fst).filter (fun i => i == record || isReady s i)).foldl (fun q i => insertQueue s i q) []

/-- The lifelines of a record that pre-emption saved. -/
def savedOf (s : State) (i : Nat) : Option Lifeline := s.lifelines.find? (fun f => f.launch.record == i && f.image.isNone)

/-- The clusters of some cores as whole clusters. -/
def wholeClusters (l : List Nat) : List Nat := (unitsAmong 2 l []).flatMap (fun g => (List.range 16).map (coreOf g))

/-- The cores that a ready record would take now, with whole clusters for a gauge launch. -/
def planCores (s : State) (gone needed : List Nat) (i : Nat) : Option (List Nat) :=
  let r := s.lrec i
  let whole (l : List Nat) : List Nat := if r.gauge then wholeClusters l else l
  match savedOf s i with
  | some f => (shiftFor s (coreFits s gone needed r.gauge) f).map (fun p => whole p.2)
  | none => (placeRec s gone needed r).map (fun l => whole (l.map Prod.fst))

/-- The cores that the head of the queue can use, which are reserved for it while it cannot start: in each unit of its outermost level
in which its gang could stand, every core that is not held nor on a failed die (R371). -/
def usableCores (s : State) (i : Nat) : List Nat :=
  let r := s.lrec i
  let ok := coreIdeal s r.gauge
  match savedOf s i with
  | some f =>
    ((shiftsOf s f).filterMap (fun d => (f.cores.map Prod.fst).mapM (shiftCore d.1 d.2))).flatMap (fun ds => if ds.all ok then ds else [])
  | none =>
    match hwLevels r with
    | [] => []
    | l :: rest =>
      (unitsAmong l.scope keyOrder []).flatMap (fun u =>
        let mine := coresIn l.scope u keyOrder
        if (placeLevels ok (l :: rest) mine).isSome then mine.filter ok else [])

/-- The cores that the records before one in the queue take or have reserved. Each die has its own queue, whose first record that cannot
start is its head: `headed` lists the dies that have theirs. -/
def neededBefore (s : State) (target : Nat) : List Nat → List Nat → List Nat → List Nat
  | [], _, nd => nd
  | i :: t, headed, nd =>
    if i = target then nd
    else
      match planCores s [] nd i with
      | some l => neededBefore s target t headed (nd ++ l)
      | none =>
        let l := (usableCores s i).filter (fun c => !headed.contains (dieOf c))
        neededBefore s target t (headed ++ unitsAmong 3 l []) (nd ++ l)

def needed (s : State) (record : Nat) : List Nat := neededBefore s record (queueWith s record) [] []

end Sys2Proof.Machine
end

