-- ==== Sys2Proof/Machine/Launch.lean ====
section
/-! DEFINITION. From reserved cores to running jobs (R416, R418, R419, R457, R458, R469): the images of a wave, job start (R115, R207),
grants and start messages, and the clusters' regimes (R424). -/

namespace Sys2Proof.Machine

/-! ## Images (R207, R328, R409, R416) -/

/-- The parts of an image at virtual addresses of a context; else the cause and the first byte refused. -/
def imageSegs (s : State) (ctx : Nat) : List (Nat × Nat) → Except (Nat × Nat) (List Seg)
  | [] => .ok []
  | (va, n) :: t =>
    if !canonical va then .error (0x10, va)
    else
      match walk s ctx (va % 2 ^ 57) with
      | .error cause => .error (cause, va)
      | .ok tr =>
        let pa := tr.pa (va % 2 ^ 57)
        if rangeEnd pa < pa + n then .error (0x10, va + (rangeEnd pa - pa))
        else
          match imageSegs s ctx t with
          | .error e => .error e
          | .ok l =>
            .ok ((if tr.pkg = s.pkgId then [⟨.local, pa, n, tr.attr, va, none⟩]
              else pieces (n / 512 + 1) ⟨.remote tr.pkg tr.inc, pa, n, tr.attr, va, none⟩) ++ l)

/-- The bytes of an image, a read that waits for another package, or one that faults with the first byte refused. -/
inductive Loaded where
  | ok (l : List Byte) (s : State)
  | wait (s : State)
  | bad (cause va : Nat) (s : State)
  deriving Repr

/-- Reads the parts of an image whose replies are there. -/
def readImage (owner : Owner) : List Seg → State → Loaded
  | [], s => .ok [] s
  | g :: t, s =>
    let here : Loaded :=
      if g.isRemote then
        match (findRead s owner g).bind OutReq.reply with
        | some (.data l) => .ok l s
        | some (.nack cause) => .bad cause g.tv s
        | _ => .wait s
      else
        match badAt s g.addr g.len with
        | some (cause, i) => .bad cause (g.tv + i) s
        | none => let r := readLocal s g.addr g.len; .ok r.1 r.2
    match here with
    | .ok l s1 =>
      (match readImage owner t s1 with
       | .ok r s2 => .ok (l ++ r) s2
       | e => e)
    | e => e

/-- Reads the `n` bytes of an image of a record through its context's translation; its parts in other packages are asked for first. -/
def loadImage (s : State) (record ctx : Nat) (va : Word) (n : Nat) : Loaded :=
  let owner : Owner := .image record
  let walked := countWalks ctx none (splitPages (n / 0x4000 + 2) va.toNat n) s
  match imageSegs s ctx (splitPages (n / 0x4000 + 2) va.toNat n) with
  | .error (cause, b) => .bad cause b walked
  | .ok segs =>
    let missing := segs.filter (fun g => g.isRemote && (findRead s owner g).isNone)
    if missing.isEmpty then readImage owner segs (if segs.any Seg.isRemote then s else walked)
    else .wait (requestReads 0 owner missing walked)

/-- The tile image's section and the vault image of a record. -/
def loadVault (s : State) (record : Nat) : Loaded :=
  let r := s.lrec record
  loadImage s record r.ctx (r.d 10) r.vaultLen

/-- The 64 bytes of parameters (R409). -/
def paramBytes (r : Rec) : List Byte := (List.range 8).flatMap (fun i => bytesOf 8 (r.d (24 + i)).toNat)

/-- The tile image of a job: the section, and the parameters at 0x77FC0. -/
def tileImage (r : Rec) (section_ : List Byte) : Memory :=
  let m := writeBytes [] 0 section_
  if flag (r.d 9) 20 then writeBytes m 0x77FC0 (paramBytes r) else m

/-- Copies the vault image to clusters (R475). -/
def copyVault (r : Rec) (img : List Byte) : List Nat → State → State
  | [], s => s
  | g :: t, s => copyVault r img t (if img.isEmpty then s else
      storeLocal s false (vaultBase + g * 0x4000000 + r.voff) img (List.replicate img.length true))

/-! ## Job start (R115, R207, R313, R322) -/

/-- A stream at job start; none where its code field is 0. -/
def startStream (r : Rec) (e : Eng) : Stream :=
  let t := Stream.reset e
  if r.code e = 0 then t
  else
    { t with
      run := .running, pc := alignPc (r.code e), status := setField t.status 2 2 (if r.gauge then 1 else 0),
      tvec := setField (r.tvec e) 1 0 0, npdef := BitVec.ofNat 64 r.npdef }

/-- The stack top and limit of a launch: 0 and 0 give the defaults. -/
def Rec.stack (r : Rec) : Word × Word := if r.d 12 = 0 && r.d 13 = 0 then (0x80000, 0x78000) else (r.d 12, r.d 13)

def Rec.engines (r : Rec) : List Eng := [Eng.a, Eng.x, Eng.m].filter (fun e => r.code e != 0)

/-- A core with its job started: the state of R115; writes that wait for the core stay held. -/
def Core.startJob (k : Core) (r : Rec) (j : Job) (tile : Memory) : Core :=
  let a := startStream r .a
  { Core.reset with
    job := some j,
    a := { a with regs := if r.code .a = 0 || r.stack.1 = 0 then [] else [(30, r.stack.1)] },
    x := startStream r .x, m := startStream r .m,
    as := { AState.reset with slim := r.stack.2, epoch := k.as.epoch },
    tile := tile, holding := k.holding, outbound := k.outbound, gtlb := k.gtlb, nextId := k.nextId }

def startJobs (record : Nat) (r : Rec) (tile : Memory) (code : Memory) : List (Nat × Nat) → State → State
  | [], s => s
  | (c, lidx) :: t, s =>
    let j : Job := ⟨record, r.ctx, lidx, s.localCount (clusterOf c), 0, false, r.engines, code⟩
    startJobs record r tile code t (s.setCore c ((s.core c).startJob r j tile))

/-- A launch of the context other than `record` runs in a unit of its `mscope`. -/
def unitBusy (s : State) (record ctx u : Nat) : Bool :=
  let x := s.ctx ctx
  s.launches.any (fun l => l.record != record && (s.lrec l.record).ctx == ctx && !l.begun.isEmpty &&
    l.cores.any (fun p => unitOf x.mscopeCode p.1 == u))

/-- A unit's interval number is 0 at launch (R365), unless another launch of the context runs in it. -/
def clearIntervals (s : State) (record ctx : Nat) (cores : List Nat) : State :=
  let x := s.ctx ctx
  let us := (unitsAmong x.mscopeCode cores []).filter (fun u => !unitBusy s record ctx u)
  { s with intervals := us.foldl (fun m u => tset m (intervalKey ctx x.mscopeCode u) 0) s.intervals }

/-- The dies of this package on which a launch has cores. -/
def Launch.dies (l : Launch) : List Nat := unitsAmong 3 (l.cores.map Prod.fst) []

/-- The gang stands on more than one die: its dispatchers agree by grants (R418). -/
def Launch.spreads (l : Launch) : Bool := decide (1 < l.packages.length) || decide (1 < l.dies.length)

/-- The cores with the logical indices of the present wave. -/
def Launch.waveCores (l : Launch) (r : Rec) : List (Nat × Nat) := l.cores.map (fun p => (p.1, inWave r p.2 l.wave))

/-- Clusters that join a gauge domain stand still with it (R231, R337). -/
def joinDomain (ctx : Nat) : List Nat → State → State
  | [], s => s
  | g :: t, s =>
    let why := ((s.domain ctx (g / 8)).flatMap (fun h => (s.cluster h).frozen)).eraseDups
    joinDomain ctx t (if (s.ctx ctx).gauge then why.foldl (fun s f => s.freeze g f) s else s)

/-- Starts the jobs of a wave on a die, once its images are read: not while a part of the launch is saved away (R420), and not those
that have ended already. -/
def startDie (s : State) (record d : Nat) : State :=
  match s.launches.find? (fun l => l.record == record) with
  | none => s
  | some l =>
    match l.loaded with
    | none => s
    | some (tile, img) =>
      if l.begun.contains d || !s.whole record then s
      else
        let r := s.lrec record
        let cores := l.waveCores r
        let mine := cores.filter (fun p => dieOf p.1 == d && !l.done.contains p.1)
        let fresh := (unitsAmong 2 (mine.map Prod.fst) []).filter (fun g => !l.vaulted.contains g)
        let s1 := if l.wave = 0 && l.begun.isEmpty then clearIntervals s record r.ctx (l.cores.map Prod.fst) else s
        let s2 := (copyVault r img fresh s1).mapLaunch record (fun m =>
          { m with
            cores := cores, vaulted := m.vaulted ++ fresh, due := m.due.filter (fun e => e != d), begun := d :: m.begun,
            started := m.dies.all (fun e => e == d || m.begun.contains e || s.dieFailed e) })
        startJobs record r tile s2.mem mine (joinDomain r.ctx (unitsAmong 2 (mine.map Prod.fst) []) s2)

def startDies (record : Nat) : List Nat → State → State
  | [], s => s
  | d :: t, s => startDies record t (startDie s record d)

/-- Every job of a wave whose images cannot be read ends with fatal status at once, and the host hears of it; of a launch that spans
packages, the jobs on every package (R416). -/
def failWave (s : State) (l : Launch) (cause va : Nat) : State :=
  let ctx := (s.lrec l.record).ctx
  let s1 := dropHeld (l.cores.map Prod.fst)
    (say s (contextEvent ctx 4 [BitVec.ofNat 64 l.record, BitVec.ofNat 64 cause, BitVec.ofNat 64 va]))
  let all (m : Launch) : Launch := { m with done := m.cores.map Prod.fst }
  if 1 < l.packages.length && l.leader s = s.pkgId then
    partEnded (s1.mapLaunch l.record (fun m => { all m with endedOn := m.packages.filter (fun p => p != s.pkgId) })) l.record s.pkgId
  else waveEnded (s1.mapLaunch l.record all) (all l)

/-- Reads the images of a launch's wave in this package, the tile image first. -/
def loadWave (s : State) (record : Nat) (l : Launch) : State :=
  if l.loaded.isSome then s
  else
    let r := s.lrec record
    let forget (t : State) : State := dropReqs t (.image record)
    match loadImage s record r.ctx (r.d 8) (field (r.d 9) 19 0) with
    | .wait s1 => s1
    | .bad cause va s1 => failWave (forget s1) l cause va
    | .ok sec s1 =>
      match loadVault s1 record with
      | .wait s2 => s2
      | .bad cause va s2 => failWave (forget s2) l cause va
      | .ok img s2 => forget (s2.mapLaunch record (fun m => { m with loaded := some (tileImage r sec, img) }))

/-! ## Regimes (R424) -/

/-- Clusters that must change regime before a launch can run on them. -/
def toChange (s : State) (gauge : Bool) (gs : List Nat) : List Nat :=
  gs.filter (fun g => (s.cluster g).changing.isSome || (s.cluster g).gauge != gauge)

/-- Starts the change of clusters that are not changing yet. -/
def startChange (gauge : Bool) : List Nat → State → State
  | [], s => s
  | g :: t, s => startChange gauge t (if (s.cluster g).changing.isSome then s else s.setCluster g { s.cluster g with changing := some gauge })

/-- REGIME_CHANGE_DONE. -/
def execRegimeChangeDone (cluster : Nat) (s : State) : Out :=
  if 32 ≤ cluster then .fault .noSuchUnit
  else
    let k := s.cluster cluster
    match k.changing with
    | some g => .next (s.setCluster cluster { k with gauge := g, changing := none })
    | none => .next s

/-! ## Grants (R418, R419, R457, R458) -/

/-- The jobs of one package's part of a launch, by its levels below the package level. -/
def partSize (r : Rec) : Nat := prodOf ((r.levels.dropWhile (fun l => l.domain != 1)).tail.map LevelDw.count)

/-- The grants of a wave to the dies of a package, which places its part as the leader's stands: a contiguous range of logical indices for
each die. -/
def grantsFor (s : State) (l : Launch) (pkg : Nat) : List Grant :=
  let r := s.lrec l.record
  let rank (p : Nat) : Nat := l.packages.findIdx (fun q => q == p)
  l.dies.map (fun d =>
    let mine := sortBy Prod.snd ((l.waveCores r).filter (fun p => dieOf p.1 == d))
    ⟨pkg * 4 + d, (mine.map Prod.snd).headD 0 + rank pkg * partSize r - rank s.pkgId * partSize r, mine.map Prod.fst, false⟩)

def grantMsg (record dst : Nat) (g : Grant) : FabMsg := .grant dst record g.die g.first g.cores

/-- The grants that go to the next die in line as its copy, where it is a die of another package: those that are not for that package
itself (R418). -/
def copiesOf (s : State) (l : Launch) (gs : List Grant) : List FabMsg :=
  match (l.line s)[1]? with
  | some n => if n / 4 = s.pkgId then [] else (gs.filter (fun g => g.die / 4 != n / 4)).map (grantMsg l.record (n / 4))
  | none => []

/-- The messages that carry grants to the dies of other packages. -/
def grantMsgs (s : State) (l : Launch) (gs : List Grant) : List FabMsg :=
  (gs.filter (fun g => g.die / 4 != s.pkgId)).map (fun g => grantMsg l.record (g.die / 4) g)

/-- The leader grants each die its range in one batch; the counter and the batch go to the next die in line first (R418). -/
def sendGrants (s : State) (record : Nat) (l : Launch) : State :=
  let gs := l.packages.flatMap (grantsFor s l)
  let n := gs.foldl (fun k g => k + g.cores.length) 0
  let s1 := s.mapLaunch record (fun m => { m with index := m.index + n, grants := gs })
  { s1 with toFabric := s1.toFabric ++ copiesOf s l gs ++ grantMsgs s l gs }

/-- The cores of a range moved from one die of a package to another. -/
def toDie (cores : List Nat) (d e : Nat) : Option (List Nat) :=
  cores.mapM (shiftCore (16 * ((e % 2 : Nat) : Int) - 16 * ((d % 2 : Nat) : Int)) (8 * ((e / 2 : Nat) : Int) - 8 * ((d / 2 : Nat) : Int)))

/-- The range of a grant on the healthy die `e` of its package that has no range of the wave and can take it; those of another package's
die answer by their acknowledgement. -/
def movedGrant (s : State) (record : Nat) (l : Launch) (e : Nat) (g : Grant) : Option Grant :=
  let die := g.die / 4 * 4 + e
  if s.failedDies.contains die || l.grants.any (fun h => h.die == die) then none
  else
    match toDie g.cores (g.die % 4) e with
    | none => none
    | some cs =>
      if g.die / 4 != s.pkgId || cs.all (coreFits s [] (needed s record) (s.lrec record).gauge) then some ⟨die, g.first, cs, false⟩ else none

/-- The grants that must move with one: every package places its part at the same positions, so those of the same die of every package
(R458). None can move once one of them is acknowledged. -/
def takersOf (s : State) (record : Nat) (l : Launch) (g : Grant) : Option (List (Grant × Grant)) :=
  let mates := l.grants.filter (fun h => h.die % 4 == g.die % 4)
  if mates.any Grant.acked then none
  else (List.range 4).findSome? (fun e => mates.mapM (fun h => (movedGrant s record l e h).map (fun n => (h, n))))

/-- The range of a grant stands on other cores of this package, with the same logical indices. -/
def Launch.moveRange (l : Launch) (old new : List Nat) : Launch :=
  let cs := l.cores.map (fun p => ((new[old.findIdx (fun c => c == p.1)]?).getD p.1, p.2))
  { l with cores := cs, clusters := clustersBy cs }

/-- A launch with one grant in place of another. -/
def Launch.regrant (s : State) (l : Launch) (g h : Grant) : Launch :=
  { (if g.die / 4 = s.pkgId then l.moveRange g.cores h.cores else l) with grants := l.grants.map (fun x => if x == g then h else x) }

/-- The cores of this package that ranges leave. -/
def coresLeft (s : State) (moves : List (Grant × Grant)) : List Nat :=
  (moves.filter (fun m => m.1.die / 4 == s.pkgId)).flatMap (fun m => m.1.cores)

/-- A range that was granted to a die and not acknowledged before that failed is granted again, to one that can take it (R419). -/
def regrantOne (s : State) (record : Nat) (l : Launch) (g : Grant) : State :=
  match takersOf s record l g with
  | none => s
  | some moves =>
    let mine := (moves.filter (fun m => m.2.die / 4 == s.pkgId)).flatMap (fun m => m.2.cores)
    let change := toChange s (s.lrec record).gauge (unitsAmong 2 mine [])
    if !change.isEmpty then startChange (s.lrec record).gauge change s
    else
      let s1 := dropHeld (coresLeft s moves) (s.mapLaunch record (fun m => moves.foldl (fun m p => m.regrant s p.1 p.2) m))
      let gs := moves.map Prod.snd
      { s1 with toFabric := s1.toFabric ++ copiesOf s l gs ++ grantMsgs s l gs }

/-- A launch of one die, whose wave has not started as that die fails, takes other cores with the same logical indices (R419). -/
def replaceWave (s : State) (record : Nat) (l : Launch) : State :=
  let r := s.lrec record
  match placeRec s [record] (needed s record) r with
  | none => s
  | some plan =>
    let cores := plan.map (fun p => (p.1, lidxOf r 0 p.2 l.wave))
    let change := toChange s r.gauge (clustersBy cores)
    if !change.isEmpty then startChange r.gauge change s
    else
      dropHeld ((l.cores.map Prod.fst).filter (fun c => !cores.any (fun p => p.1 == c)))
        (s.mapLaunch record (fun m => { m with cores := cores, clusters := clustersBy cores }))

/-- The leader sends a start message to every die; those of its own package are due (R418, R469). -/
def sendStarts (s : State) (record : Nat) (l : Launch) : State :=
  let away := (l.grants.map Grant.die).filter (fun d => d / 4 != s.pkgId && !s.failedDies.contains d)
  let s1 := s.mapLaunch record (fun m => { m with sent := true, due := m.dies.filter (fun d => !m.begun.contains d && !s.dieFailed d) })
  { s1 with toFabric := s1.toFabric ++ away.map (fun d => .start (d / 4) record d) }

/-- The cores of a range are free of their last jobs. -/
def rangeFree (s : State) (cores : List Nat) : Bool := cores.all (fun c => (s.core c).job.isNone && !(s.core c).held)

/-- The next act of the leader of a launch whose wave has not started: on one die it reads the images and starts; else it grants, grants
again what a failed die has not acknowledged, and, once every range is acknowledged and its images are read, starts the wave (R416, R418,
R419). -/
def leadWave (s : State) (record : Nat) (l : Launch) : State :=
  if !l.spreads then
    if l.dies.any s.dieFailed then replaceWave s record l
    else if !rangeFree s (l.cores.map Prod.fst) then s
    else startDies record l.dies (loadWave s record l)
  else if l.sent then s
  else if l.grants.isEmpty then sendGrants s record l
  else
    match l.grants.find? (fun g => !g.acked && s.failedDies.contains g.die) with
    | some g => regrantOne s record l g
    | none =>
      if !l.grants.all Grant.acked then s
      else
        let s1 := loadWave s record l
        match s1.launches.find? (fun m => m.record == record) with
        | some m => if m.loaded.isSome then sendStarts s1 record m else s1
        | none => s1

/-- A package that does not lead acknowledges its grants once its images are read. -/
def ackGrants (s : State) (record : Nat) (l : Launch) : State :=
  let due := l.grants.filter (fun g => g.die / 4 == s.pkgId && !g.acked)
  if due.isEmpty || !due.all (fun g => rangeFree s g.cores) then s
  else
    let s1 := loadWave s record l
    match s1.launches.find? (fun m => m.record == record) with
    | some m =>
      if m.loaded.isNone then s1
      else
        let s2 := s1.mapLaunch record (fun m => { m with grants := m.grants.map (fun g => if due.contains g then { g with acked := true } else g) })
        { s2 with toFabric := s2.toFabric ++ due.map (fun g => .grantAck (l.leader s) record g.die) }
    | none => s1

/-- A launch whose cores are reserved goes on towards its wave. -/
def waveOf (s : State) (record : Nat) (l : Launch) : State :=
  if l.started || !s.whole record || !(s.lrec record).armed then s
  else if l.leader s = s.pkgId then leadWave s record l
  else ackGrants s record l

/-- A launch that takes its cores. -/
def newLaunch (s : State) (record : Nat) (cores : List (Nat × Nat)) (packages : List Nat) : State :=
  let l : Launch :=
    { record := record, wave := 0, started := false, cores := cores, clusters := clustersBy cores, vaulted := [], index := 0, grants := [],
      sent := false, due := [], begun := [], loaded := none, done := [], contribs := [], timed := [], completed := [],
      remoteBars := [], released := [], packages := packages, endedOn := [] }
  { s with launches := s.launches ++ [l] }

/-- A ready record takes its cores, or the change of its clusters begins; its first wave goes on from there. -/
def launchNow (s : State) (record : Nat) : State :=
  let r := s.lrec record
  match placeRec s [] (needed s record) r with
  | none => s
  | some plan =>
    let cores := plan.map (fun p => (p.1, lidxOf r 0 p.2 0))
    let change := toChange s r.gauge (clustersBy cores)
    if !change.isEmpty then startChange r.gauge change s
    else
      let s1 := newLaunch s record cores ((List.range (max 1 r.packages)).map (fun i => s.pkgId + i))
      match s1.launches.find? (fun l => l.record == record) with
      | some l => waveOf s1 record l
      | none => s1

/-- WAVE_START: the dispatcher's next act for a launch. -/
def execWaveStart (record : Nat) (s : State) : Out :=
  match s.launches.find? (fun l => l.record == record) with
  | some l => .next (waveOf s record l)
  | none => .next (if s.powered && isReady s record && (savedOf s record).isNone then launchNow s record else s)

end Sys2Proof.Machine
end

