-- ==== Sys2Proof/Machine/XVector.lean ====
section
/-! DEFINITION. The vector forms of chapter 06: integer arithmetic and logic (R169 to R171), float arithmetic (R172),
comparison and selection (R173 to R176), permutation and slides (R177, R178). Each is its body under the frame of R33. -/

namespace Sys2Proof.Machine

/-- A form that rounds nothing. -/
def form (i : Instr) (d : XDst) (srcs : List XSrc) (c : XCtl) : XForm := ⟨i, c, srcs, .vec d, .rne, false, false⟩

/-- A form that rounds by `r`. -/
def formR (i : Instr) (d : XDst) (srcs : List XSrc) (r : Rnd) (c : XCtl) : XForm := ⟨i, c, srcs, .vec d, r, false, false⟩

/-- A form of two sources read in type `t`. -/
def map2Form (f : XForm) (t : Ty) (op : Vec → Vec → XRes) (s : State) : Out :=
  xFrame f noCheck (fun _ _ v => (op ((src v 0).as t) ((src v 1).as t)).out) s

/-- A rounding form of two sources. -/
def round2Form (f : XForm) (t : Ty) (op : Nat → Vec → Vec → XRes) (s : State) : Out :=
  xFrame f noCheck (fun _ dph v => (op dph ((src v 0).as t) ((src v 1).as t)).out) s

def execVadd (d : XDst) (a b : XSrc) (ty : Ty) (sat : Bool) (c : XCtl) (s : State) : Out :=
  map2Form (form (.vadd d a b ty sat c) d [a, b] c) ty (vAdd ty sat) s
def execVsub (d : XDst) (a b : XSrc) (ty : Ty) (sat : Bool) (c : XCtl) (s : State) : Out :=
  map2Form (form (.vsub d a b ty sat c) d [a, b] c) ty (vSub ty sat) s
def execVmul (d : XDst) (a b : XSrc) (ty : Ty) (sat : Bool) (c : XCtl) (s : State) : Out :=
  map2Form (form (.vmul d a b ty sat c) d [a, b] c) ty (vMul ty sat) s
def execVmulh (d : XDst) (a b : XSrc) (ty : Ty) (c : XCtl) (s : State) : Out :=
  map2Form (form (.vmulh d a b ty c) d [a, b] c) ty (vMulh ty) s

def execVmad (d : XDst) (a b z : XSrc) (ty : Ty) (sat : Bool) (c : XCtl) (s : State) : Out :=
  xFrame (form (.vmad d a b z ty sat c) d [a, b, z] c) noCheck
    (fun _ _ v => (vMad ty sat ((src v 0).as ty) ((src v 1).as ty) ((src v 2).as ty)).out) s

def execVlog (d : XDst) (a b : XSrc) (ty : Ty) (op : Nat) (c : XCtl) (s : State) : Out :=
  map2Form (form (.vlog d a b ty op c) d [a, b] c) ty (vLog op) s
def execVsh (d : XDst) (a b : XSrc) (ty : Ty) (op : Nat) (c : XCtl) (s : State) : Out :=
  map2Form (form (.vsh d a b ty op c) d [a, b] c) ty (vShift ty op) s
def execVmin (d : XDst) (a b : XSrc) (ty : Ty) (c : XCtl) (s : State) : Out :=
  map2Form (form (.vmin d a b ty c) d [a, b] c) ty (vMin ty) s
def execVmax (d : XDst) (a b : XSrc) (ty : Ty) (c : XCtl) (s : State) : Out :=
  map2Form (form (.vmax d a b ty c) d [a, b] c) ty (vMax ty) s

def execVabs (d : XDst) (a : XSrc) (ty : Ty) (sat : Bool) (c : XCtl) (s : State) : Out :=
  xFrame (form (.vabs d a ty sat c) d [a] c) noCheck (fun _ _ v => (vAbs ty sat ((src v 0).as ty)).out) s

def execVfadd (d : XDst) (a b : XSrc) (ty : Ty) (rnd : Rnd) (c : XCtl) (s : State) : Out :=
  round2Form (formR (.vfadd d a b ty rnd c) d [a, b] rnd c) ty (vFadd ty rnd) s
def execVfsub (d : XDst) (a b : XSrc) (ty : Ty) (rnd : Rnd) (c : XCtl) (s : State) : Out :=
  round2Form (formR (.vfsub d a b ty rnd c) d [a, b] rnd c) ty (vFsub ty rnd) s
def execVfmul (d : XDst) (a b : XSrc) (ty : Ty) (rnd : Rnd) (c : XCtl) (s : State) : Out :=
  round2Form (formR (.vfmul d a b ty rnd c) d [a, b] rnd c) ty (vFmul ty rnd) s

def execVfma (d : XDst) (a b z : XSrc) (ty : Ty) (rnd : Rnd) (op : Nat) (c : XCtl) (s : State) : Out :=
  xFrame (formR (.vfma d a b z ty rnd op c) d [a, b, z] rnd c) noCheck
    (fun _ dph v => (vFma ty rnd dph op ((src v 0).as ty) ((src v 1).as ty) ((src v 2).as ty)).out) s

/-- VFDIV and VFSQRT are long-latency producers (R102). -/
def execVfdiv (d : XDst) (a b : XSrc) (ty : Ty) (rnd : Rnd) (c : XCtl) (s : State) : Out :=
  round2Form { formR (.vfdiv d a b ty rnd c) d [a, b] rnd c with long := true } ty (vFdiv ty rnd) s

def execVfsqrt (d : XDst) (a : XSrc) (ty : Ty) (rnd : Rnd) (c : XCtl) (s : State) : Out :=
  xFrame { formR (.vfsqrt d a ty rnd c) d [a] rnd c with long := true } noCheck
    (fun _ dph v => (vFsqrt ty rnd dph ((src v 0).as ty)).out) s

/-- VCMP writes a predicate (R173). -/
def execVcmp (p : Nat) (a b : XSrc) (ty : Ty) (cond : Nat) (c : XCtl) (s : State) : Out :=
  xFrame { form (.vcmp p a b ty cond c) (.v 0) [a, b] c with target := .pred p } noCheck
    (fun _ _ v => predOut (vCmp ty cond ((src v 0).as ty) ((src v 1).as ty))) s

/-- VSEL's guard is its selector (R174). -/
def execVsel (d : XDst) (a b : XSrc) (ty : Ty) (c : XCtl) (s : State) : Out :=
  xFrame { form (.vsel d a b ty c) d [a, b] c with guardOperand := true } noCheck
    (fun g _ v => (vSel g ((src v 0).as ty) ((src v 1).as ty)).out) s

def execVmov (d : XDst) (a : XSrc) (ty : Ty) (c : XCtl) (s : State) : Out :=
  xFrame (form (.vmov d a ty c) d [a] c) noCheck (fun _ _ v => (XRes.of ((src v 0).as ty)).out) s

/-- VIOTA counts its guard (R176). -/
def execViota (d : XDst) (a : XSrc) (ty : Ty) (c : XCtl) (s : State) : Out :=
  xFrame { form (.viota d a ty c) d [a] c with guardOperand := true } noCheck
    (fun g _ v => (vIota ty g ((src v 0).as ty)).out) s

/-- VPERM; `.x2` (op 1) also reads its c source (R177). -/
def execVperm (d : XDst) (a b z : XSrc) (ty : Ty) (op : Nat) (c : XCtl) (s : State) : Out :=
  xFrame (form (.vperm d a b z ty op c) d (if op = 1 then [a, b, z] else [a, b]) c) noCheck
    (fun _ _ v => (vPerm ty op ((src v 0).as ty) ((src v 1).as ty) ((src v 2).as ty)).out) s

/-- VSLIDE reads its count as a whole scalar (R178). -/
def execVslide (d : XDst) (a b z : XSrc) (ty : Ty) (up : Bool) (c : XCtl) (s : State) : Out :=
  xFrame (form (.vslide d a b z ty up c) d [a, b, z] c) noCheck
    (fun _ _ v => (vSlide ty up ((src v 0).as ty) (src v 1).word64 ((src v 2).as ty)).out) s

end Sys2Proof.Machine
end

