-- ==== Sys2Proof/Machine/XTransform.lean ====
section
/-! DEFINITION. The vector forms of chapter 07: reductions and scans (R186 to R188), CSCAN (R189 to R192), VCLMUL (R194),
conversion and packing (R195 to R200), pruning, ranking and counting (R201 to R204). -/

namespace Sys2Proof.Machine

/-- The profile of a form as it stands at issue (R87). -/
def profileOf (c : XCtl) (s : State) : Np := (s.stream (s.whoOn .x)).profile c.np

def execVred (d : XDst) (a : XSrc) (ty : Ty) (op : Nat) (rnd : Rnd) (c : XCtl) (s : State) : Out :=
  xFrame (formR (.vred d a ty op rnd c) d [a] rnd c) noCheck
    (fun _ dph v => (vRed ty op (profileOf c s) rnd dph ((src v 0).as ty)).out) s

/-- The carry-in of a scan: s0 is none (R187). -/
def carryOf (z : XSrc) (v : SVal) : Carry := if z = .s 0 then none else some v.word64

/-- The sources of VSCAN: `.add`, `.max`, `.min` have a and the carry; `.aff` all three; `.affa` no carry. -/
def scanSrcs (op : Nat) (a b z : XSrc) : List XSrc := if op < 3 then [a, z] else if op = 3 then [a, b, z] else [a, b]

def execVscan (d : XDst) (a b z : XSrc) (ty : Ty) (op : Nat) (rnd : Rnd) (c : XCtl) (s : State) : Out :=
  xFrame (formR (.vscan d a b z ty op rnd c) d (scanSrcs op a b z) rnd c) noCheck
    (fun _ dph v =>
      let carry := if op < 3 then carryOf z (src v 1) else if op = 3 then carryOf z (src v 2) else none
      (vScan ty op (profileOf c s) rnd dph ((src v 0).as ty) ((src v 1).as ty) carry).out) s

/-! ## CSCAN (R189 to R192) -/

/-- The sources of CSCAN: a pair for `.aff`, and the carry. -/
def cscanSrcs (op : Nat) (a b z : XSrc) : List XSrc := if op = 3 then [a, b, z] else [a, z]

/-- The scope of CSCAN as a scope code of R141: `.cl` 2, `.die` 3, `.pkg` 4. -/
def cscanScope (scope : Nat) : Nat := scope + 2

/-- The instance that a core's next CSCAN of a scope belongs to. -/
def scanInst (s : State) (c scope : Nat) : Nat := tget (s.core c).xs.scanCount scope 0

/-- A contribution of the instance that has already fixed its op, type and profile (R191). -/
def scanFirst (s : State) (c scope : Nat) : Option Contrib :=
  (s.launchOf c).bind (fun l => l.contribs.find? (fun x =>
    x.scope == scope && x.unit_ == unitOf (cscanScope scope) c && x.inst == scanInst s c scope))

/-- What stops a CSCAN at issue: a fifth outstanding instance waits; one that differs from its instance raises 0x02 with
the first differing field (R191, R474). -/
def cscanCheck (i : Instr) (ty : Ty) (op scope : Nat) (np : Np) (s : State) (_ : List SVal) : Option Res :=
  let c := (s.whoOn .x).core
  if 4 ≤ (s.core c).xs.scans.length then some .wait
  else
    match scanFirst s c scope with
    | none => none
    | some x =>
      if x.op != op then some (fieldFault i false 0)
      else if x.np != np then some (fieldFault i true 29)
      else if x.ty != ty then some (fieldFault i true 14)
      else none

/-- A CSCAN issues: its destination is empty or its slot reserved, and its contribution stands with the launch. -/
def cscanIssue (f : XForm) (d : XDst) (z : XSrc) (ty : Ty) (op scope : Nat) (np : Np) (g : Pred) (vals : List SVal)
    (s : State) (w : Who) : Res :=
  let k := (xConsume f (s.core w.core)).reserve (giveFifos .x f.ctl.give)
  let inst := scanInst s w.core scope
  let last := src vals (if op = 3 then 2 else 1)
  let h := match carryOf z last with
    | some _ => last.as ty
    | none => vecOfEls ty.width (List.replicate (512 / ty.width) (cscanIdentity ty op))
  let x : Contrib := ⟨scope, unitOf (cscanScope scope) w.core, inst, op, ty, np, k.lidx, h, (src vals 0).as ty,
    if op = 3 then (src vals 1).as ty else 0⟩
  let r : Nat × Nat × Core := match d with
    | .w n => let q := k.reserveW n; (n, q.1, q.2)
    | .v n => (k.phys n, k.nextId, { k with
        nextId := k.nextId + 1,
        xs := { k.xs with vempty := if k.xs.vempty.contains (k.phys n) then k.xs.vempty else k.phys n :: k.xs.vempty } })
    | .e n => (n, k.nextId, k)
  let k1 := r.2.2
  let d1 : XDst := match d with | .v _ => .v r.1 | t => t
  let sc : Scan := ⟨r.2.1, scope, inst, d1, ty, op, g, f.ctl.zeroing, f.ctl.give⟩
  let k2 : Core := { k1 with
    xs := { k1.xs with scans := k1.xs.scans ++ [sc], scanCount := tset k1.xs.scanCount scope (inst + 1) } }
  .ok ((s.setCore w.core k2).mapLaunch k.record (fun l => { l with contribs := l.contribs ++ [x] })) .seq

def execCscan (d : XDst) (a b z : XSrc) (ty : Ty) (op scope : Nat) (rnd : Rnd) (c : XCtl) (s : State) : Out :=
  let i : Instr := .cscan d a b z ty op scope rnd c
  let f := form i d (cscanSrcs op a b z) c
  xFrameWith f (cscanCheck i ty op scope (profileOf c s) s) (cscanIssue f d z ty op scope (profileOf c s)) s

/-! ## Carry-less multiplication, conversion and packing -/

def execVclmul (d : XDst) (a b : XSrc) (op : Nat) (c : XCtl) (s : State) : Out :=
  map2Form (form (.vclmul d a b op c) d [a, b] c) .z64 (vClmul op) s

/-- A part operand at its limit raises 0x02 with the b field (R196, R199). -/
def partCheck (i : Instr) (parts : Nat) (v : List SVal) : Option Res :=
  if parts ≤ (src v 1).word64.toNat then some (fieldFault i false 4) else none

def partOf (v : List SVal) : Nat := (src v 1).word64.toNat

def execVcvt (d : XDst) (a b : XSrc) (dty sty : Ty) (rnd : Rnd) (sat : Bool) (c : XCtl) (s : State) : Out :=
  let i : Instr := .vcvt d a b dty sty rnd sat c
  xFrame (formR i d [a, b] rnd c) (partCheck i (vcvtParts sty.width dty.width))
    (fun _ dph v => (vCvt dty sty rnd sat dph (partOf v) ((src v 0).as sty)).out) s

def execVqpack (d : XDst) (a b : XSrc) (ty : Ty) (kind : Nat) (rnd : Rnd) (c : XCtl) (s : State) : Out :=
  let i : Instr := .vqpack d a b ty kind rnd c
  xFrame (formR i d [a, b] rnd c) (partCheck i (packParts ty))
    (fun _ dph v => (vQpack ty kind rnd dph (partOf v) ((src v 0).as ty)).out) s

def execVqunpk (d : XDst) (a b : XSrc) (ty : Ty) (rnd : Rnd) (c : XCtl) (s : State) : Out :=
  let i : Instr := .vqunpk d a b ty rnd c
  xFrame (formR i d [a, b] rnd c) (partCheck i (packParts ty))
    (fun _ dph v => (vQunpk ty rnd dph (partOf v) ((src v 0).as ty)).out) s

/-! ## Pruning, ranking, counting -/

def execVspars (d : XDst) (a : XSrc) (ty : Ty) (op : Nat) (c : XCtl) (s : State) : Out :=
  xFrame (form (.vspars d a ty op c) d [a] c) noCheck (fun _ _ v => (vSpars ty op ((src v 0).as ty)).out) s

/-- VTOPK; `.msk` (op 2) writes a predicate (R203). -/
def execVtopk (d : XAnyDst) (a b : XSrc) (ty : Ty) (op : Nat) (c : XCtl) (s : State) : Out :=
  let target : XTarget := match d with | .vec v => .vec v | .p n => .pred n
  xFrame { form (.vtopk d a b ty op c) (.v 0) [a, b] c with target := target } noCheck
    (fun _ _ v =>
      let x := (src v 0).as ty
      let n := (src v 1).word64
      if op = 2 then predOut (vTopkMask ty n x) else (vTopk ty op n x).out) s

/-- VHIST: a in the type, the base from b, the old counts as z32 (R204). -/
def execVhist (d : XDst) (a b z : XSrc) (ty : Ty) (sat : Bool) (c : XCtl) (s : State) : Out :=
  xFrame (form (.vhist d a b z ty sat c) d [a, b, z] c) noCheck
    (fun _ _ v => (vHist ty sat ((src v 0).as ty) (src v 1).word64 ((src v 2).as .z32)).out) s

end Sys2Proof.Machine
end

