-- ==== Sys2Proof/Machine/Lifeline.lean ====
section
/-! DEFINITION. Lifelines: saving the jobs of a launch and restoring them (R193, R308, R420 to R422), pre-emption (R417), and CTXSV
and CTXLD (R423). -/

namespace Sys2Proof.Machine

/-! ## CSCAN (R190, R192) -/

/-- The cores of a launch in the unit of a scope code that holds a core (R141). -/
def participants (l : Launch) (scope c : Nat) : List Nat :=
  (l.cores.map Prod.fst).filter (fun d => unitOf scope d == unitOf scope c)

/-- The contributions of an instance in ascending logical index, if every participant has made one. -/
def instanceOf (l : Launch) (sc : Scan) (c : Nat) : Option (List Contrib) :=
  let u := unitOf (cscanScope sc.scope) c
  let lidxs := sortBy id ((l.cores.filter (fun p => unitOf (cscanScope sc.scope) p.1 == u)).map Prod.snd)
  lidxs.mapM (fun i => l.contribs.find? (fun x => x.scope == sc.scope && x.unit_ == u && x.inst == sc.inst && x.lidx == i))

/-- The value that enters a participant's contribution, and the flags of its own step. Participant 0 receives the carry-in as its bits
stand, a NaN that is not canonical too: no operation has produced it (R68; DEDUCED, log 27). -/
def scanValue (ty : Ty) (op lidx : Nat) : Vec → List Contrib → Vec × Word
  | h, [] => (h, 0)
  | h, x :: t =>
    let r := cscanStep ty op h x.a x.b
    if x.lidx = lidx then (h, r.2) else scanValue ty op lidx r.1 t

/-- What must land before a scan: older results for the same destination. -/
def scanBlocked (k : Core) (n : Nat) (sc : Scan) : Bool :=
  (k.xs.scans.take n).any (fun b => b.d == sc.d) ||
    k.x.pend.any (fun p => p.id < sc.id && (match sc.d, p.op with
      | .v d, .vector e _ _ _ _ => d == e
      | .e h, .half g _ _ _ => h == g
      | _, _ => false))

/-- Lands a scan: the value under its guard, its flags and its gives. -/
def landScan (s : State) (c n : Nat) (sc : Scan) (v : Vec) (flags : Word) : State :=
  let k0 := s.core c
  let k : Core := { k0 with xs := { k0.xs with scans := ldel k0.xs.scans n } }
  let r := settle v (BitVec.allOnes 512) sc.mask sc.zeroing
  let k1 : Core := match sc.d with
    | .v d => fillVec (k.setVecPhys d (mergeVec (tget k.xs.v d 0) r.1 r.2 false)) d
    | .w q => k.setW q (fillW sc.id (v, sc.mask) (k.wOf q))
    | .e h => k.setHalf h (mergeVec 0 v sc.mask true)
  tryEndJob (landWith ⟨c, .x⟩ flags (giveFifos .x sc.give) (s.setCore c k1)) c

/-- The state after the landing of outstanding scan `n` of a core, if every participant's contribution is there and nothing older for
its destination still comes. -/
def landedScan (s : State) (core n : Nat) : Option State :=
  let k := s.core core
  match k.xs.scans[n]?, s.launchOf core with
  | some sc, some l =>
    if scanBlocked k n sc || !s.whole l.record then none
    else
      match instanceOf l sc core with
      | none | some [] => none
      | some (x :: t) =>
        let r := scanValue sc.ty sc.op k.lidx x.h (x :: t)
        some (landScan s core n sc r.1 r.2)
  | _, _ => none

/-- A scan of a core that can land, landed (R421). -/
def landSome (s : State) (c : Nat) : Option State := (List.range (s.core c).xs.scans.length).findSome? (landedScan s c)

/-! ## What must be over before a save (R308, R369, R376, R421) -/

/-- A row goes on that the save waits for: a result that can be written, or the check of the row behind a last one (R297, R308). -/
def settleRow (s : State) (c : Nat) : State :=
  let k := s.core c
  let r :=
    if !k.arrayRests then execRowResultWrite c s
    else if k.ms.array.any (fun p => !p.isNp2 && !p.stuck k) then execRowPassageBegin c s
    else .next s
  match r with
  | .next t => t
  | _ => s

/-- Lands the oldest pending item of a core or a complete scan, or lets a row go on. -/
def settleOne (s : State) (c : Nat) : State :=
  let k := s.core c
  match k.a.pend, landSome s c with
  | p :: _, _ =>
    (match p.op with
     | .entry .. => landEntry s c 0
     | .store .. => performStore s c 0
     | _ => landAt s ⟨c, .a⟩ 0)
  | [], some t => t
  | [], none =>
    if !k.x.pend.isEmpty then landAt s ⟨c, .x⟩ 0
    else if !k.m.pend.isEmpty then landAt s ⟨c, .m⟩ 0
    else settleRow s c

def settleCore (c : Nat) : Nat → State → State
  | 0, s => s
  | n + 1, s => settleCore c n (settleOne s c)

/-- A bound of the items and rows that are in flight on a core. -/
def Core.inFlight (k : Core) : Nat :=
  k.a.pend.length + k.x.pend.length + k.m.pend.length + k.xs.scans.length + 2 * (k.ms.array.length + k.ms.port.length)

def settleCores : List Nat → State → State
  | [], s => s
  | c :: t, s => settleCores t (settleCore c (s.core c).inFlight s)

/-- No value is in flight on a core, and of its rows only those stand in the array that a lifeline keeps: products under np2, and rows at
an error (R308). -/
def Core.atRest (k : Core) : Bool :=
  k.a.pend.isEmpty && k.x.pend.isEmpty && k.m.pend.isEmpty && k.arrayRests && k.ms.array.all (fun p => p.isNp2 || p.stuck k)

/-- Whether requests or releases of a core are still under way. -/
def owes (s : State) (c : Nat) : Bool :=
  s.requests.any (fun q => match q.owner with
    | .pend d _ | .xfer d _ | .instr d _ => d == c
    | .host _ | .image _ | .device _ => false) ||
    s.relActs.any (fun r => r.core == c) ||
    s.releases.any (fun r => match r with | .mail m => m.srcCore == c && m.srcPkg == s.pkgId | .atomic _ => false)

/-- The timed die barrier at which each stream that it names on a core stands: a superstep boundary (R376). -/
def atBoundary (k : Core) : Bool :=
  [Eng.a, Eng.x, Eng.m].any (fun e =>
    match (k.stream e).at_ with
    | .bar 3 mask inst (some _) =>
      (maskEngines mask).all (fun f => match (k.stream f).at_ with
        | .bar 3 m i (some _) => m == mask && i == inst
        | _ => false)
    | _ => false)

/-- The core stands where its launch may stop: in gauge mode a superstep boundary outside a debug stop, and under deterministic commits
the end of a quantum (R369, R376, R426). -/
def mayStop (s : State) (gauge : Bool) (c : Nat) : Bool :=
  let k := s.core c
  (!gauge || k.job.isNone || (atBoundary k && !(s.cluster (clusterOf c)).frozen.contains .debug)) &&
    ((s.ctx k.ctx).mmode != 2 || k.det.clean)

/-- Whether a core of a launch can be saved: it stands where it may stop, and nothing of it is in flight, complete scans among it (R421).
A result behind an incomplete scan of the same register delays the save (R103, R193 do not say how it is kept; DESIGN CHOICE, log 53). -/
def canSave (s : State) (gauge : Bool) (c : Nat) : Bool :=
  (s.core c).atRest && (landSome s c).isNone && !owes s c && !(s.core c).held && mayStop s gauge c

/-- The jobs of a launch stop together: none is saved before each of its cores in this package but the one that executes CTXSV stands where
it may stop (R420, R423). -/
def launchStops (s : State) (l : Launch) (exec : Option Nat) : Bool :=
  let gauge := (s.lrec l.record).gauge
  !s.whole l.record || (l.cores.map Prod.fst).all (fun c => mayStop s (gauge && exec != some c) c)

/-- A write of a port to one of some cores of this package. -/
def goesTo (s : State) (cs : List Nat) (m : MboxMsg) : Bool := m.dstPkg == s.pkgId && cs.contains m.dstCore

/-- No write of a launch to one of some cores is still held as a release. -/
def mailClear (s : State) (l : Launch) (cs : List Nat) : Bool :=
  l.cores.all (fun p => (s.core p.1).outbound.all (fun m => !goesTo s cs m || !heldRel s p.1 m.rel))

/-! ## Saving (R116, R149, R398, R420, R421) -/

/-- A stream at an instruction that has not taken effect issues it again: an IDLE with its full count. -/
def Stream.saved (t : Stream) : Stream :=
  let t1 := { t with stood := t.stood.filter (fun p => !p.2.isIdle) }
  match t.at_ with
  | .tlbinv .. | .decld .. | .awaiting _ | .dirOpen .. | .dirClose _ | .dirBind .. | .dirRebind .. | .recPatch .. | .recArm ..
  | .idle _ | .pass .. | .committing => { t1 with at_ := .free, run := .running }
  | _ => t1

/-- The streams of a core stop between instructions: what one stands at and has not issued leaves the waiters, its requests and its
reservation. -/
def unissue (s : State) (c : Nat) : State :=
  let s1 := dropReqs (dropReqs (dropReqs (unwait s c) (.instr c .a)) (.instr c .x)) (.instr c .m)
  let k := s1.core c
  let k1 := match k.a.at_ with | .pass .. => k.unreserve (giveFifos .a 2) | _ => k
  s1.setCore c { k1 with a := k1.a.saved, x := k1.x.saved, m := k1.m.saved }

def unissueAll : List Nat → State → State
  | [], s => s
  | c :: t, s => unissueAll t (unissue s c)

/-- What a lifeline keeps of a core; the writes of its own port to saved jobs stand in the lifeline's mail, the others stay in the port.
Errors of its tile store and accumulators raise no cause, and their marks are kept (R10 names streams alone; DESIGN CHOICE, log 41). -/
def savedCore (s : State) (c : Nat) : Core :=
  let k := s.core c
  { k with job := k.job.map (fun j => { j with credit := s.jobCount c, start := 0, paused := false }), outbound := [], gtlb := [] }

/-- What the core keeps when its job is saved away. -/
def leftCore (k : Core) : Core :=
  { Core.reset with outbound := k.outbound, gtlb := k.gtlb, nextId := k.nextId, as := { AState.reset with epoch := k.as.epoch } }

def leaveCores : List Nat → State → State
  | [], s => s
  | c :: t, s => leaveCores t (s.setCore c (leftCore (s.core c)))

/-- The writes to saved jobs leave the ports of their launch. -/
def takeMail (cs : List Nat) : List Nat → State → State
  | [], s => s
  | c :: t, s =>
    let k := s.core c
    takeMail cs t (s.setCore c { k with outbound := k.outbound.filter (fun m => !goesTo s cs m) })

/-- The writes for saved jobs that stand in ports of the launch's cores in this package, and those of its cores in other packages that
have reached this hub. -/
def mailFor (s : State) (l : Launch) (cs : List Nat) : List MboxMsg :=
  s.inbound.filter (fun m => goesTo s cs m && m.launch == l.record) ++
    l.cores.flatMap (fun p => (s.core p.1).outbound.filter (goesTo s cs))

/-- The jobs of a launch that stay on their cores stand still while another part of it is saved, and go on with it: their counts too (R420,
R422). -/
def pauseCores (record : Nat) (stop : Bool) : List Nat → State → State
  | [], s => s
  | c :: t, s =>
    let k := s.core c
    pauseCores record stop t (match k.job with
      | some j =>
        if j.record = record && j.paused != stop then
          s.setCore c { k with job := some { j with paused := stop, credit := s.jobCount c, start := s.localCount (clusterOf c) } }
        else s
      | none => s)

/-- Saves the jobs of a launch on some of its cores; none of its other jobs goes on until they are restored (R420). -/
def saveLaunch (s0 : State) (l : Launch) (cs : List Nat) (image : Option (List Byte)) (saved : Nat) : State :=
  let s := unissueAll cs s0
  let ctx := (s.lrec l.record).ctx
  let f : Lifeline := ⟨l, cs.map (fun c => (c, savedCore s c)), mailFor s l cs, cs.map (fun c => (c, s.interval c)), ctx, image, saved, none⟩
  let s1 := takeMail cs (l.cores.map Prod.fst)
    { s with inbound := s.inbound.filter (fun m => !(goesTo s cs m && m.launch == l.record)) }
  let s2 := leaveCores cs { s1 with lifelines := s1.lifelines ++ [f] }
  if l.cores.any (fun p => s2.occupies l p.1) then pauseCores l.record true (l.cores.map Prod.fst) s2 else forgetLaunch s2 l.record

/-! ## Restoring (R422) -/

/-- A message whose ends within this package move with their launch. -/
def shiftMail (s : State) (l : Launch) (dx dy : Int) (m : MboxMsg) : MboxMsg :=
  let move (pkg c : Nat) : Nat := if pkg == s.pkgId && l.cores.any (fun p => p.1 == c) then moveCore dx dy c else c
  { m with srcCore := move m.srcPkg m.srcCore, dstCore := move m.dstPkg m.dstCore, rel := 0, inc := s.incarnation }

/-- Puts saved cores back, with their marks of uncorrectable errors (DESIGN CHOICE, log 41); their streams' counts go on from what they
had. -/
def restoreCores (l : Launch) (dx dy : Int) : List (Nat × Core) → State → State
  | [], s => s
  | (c, k) :: t, s =>
    let d := moveCore dx dy c
    let o := s.core d
    let k1 : Core := { k with
      job := k.job.map (fun j => { j with start := s.localCount (clusterOf d) }),
      outbound := o.outbound, holding := k.holding.map (shiftMail s l dx dy) ++ o.holding, gtlb := o.gtlb,
      nextId := max k.nextId o.nextId }
    restoreCores l dx dy t (s.setCore d k1)

/-- The interval numbers that the units of a restored launch had, unless another launch of the context runs there (R421). -/
def restoreIntervals (record ctx : Nat) (dx dy : Int) : List (Nat × Nat) → State → State
  | [], s => s
  | (c, n) :: t, s =>
    let scope := (s.ctx ctx).mscopeCode
    let u := unitOf scope (moveCore dx dy c)
    restoreIntervals record ctx dx dy t
      (if unitBusy s record ctx u then s else { s with intervals := tset s.intervals (intervalKey ctx scope u) n })

/-- A unit of a scope after a move, found through a core of the launch in it. -/
def shiftUnit (l : Launch) (dx dy : Int) (scope u : Nat) : Nat :=
  match l.cores.find? (fun p => unitOf scope p.1 == u) with
  | some p => unitOf scope (moveCore dx dy p.1)
  | none => u

/-- A launch at a translation of its cores. -/
def shiftLaunch (l : Launch) (dx dy : Int) : Launch :=
  let move := moveCore dx dy
  let cs := l.cores.map (fun p => (move p.1, p.2))
  { l with
    cores := cs, clusters := clustersBy cs,
    begun := unitsAmong 3 ((l.cores.filter (fun p => l.begun.contains (dieOf p.1))).map (fun p => move p.1)) [],
    done := l.done.map move,
    contribs := l.contribs.map (fun b => { b with unit_ := shiftUnit l dx dy (cscanScope b.scope) b.unit_ }),
    timed := l.timed.map (fun b => { b with unit_ := shiftUnit l dx dy b.scope b.unit_ }),
    completed := l.completed.map (fun b => (b.1, shiftUnit l dx dy b.1 b.2.1, b.2.2)) }

/-- What a restored part adds to its launch: what was noted of the launch as each was saved. -/
def Launch.join (m l : Launch) : Launch :=
  { m with
    vaulted := (m.vaulted ++ l.vaulted).eraseDups, done := (m.done ++ l.done).eraseDups,
    contribs := (m.contribs ++ l.contribs).eraseDups, timed := (m.timed ++ l.timed).eraseDups,
    completed := (m.completed ++ l.completed).eraseDups }

/-- The other parts of a launch follow the translation of one that is restored. -/
def followShift (f : Lifeline) (dx dy : Int) (g : Lifeline) : Lifeline :=
  if g.launch.record != f.launch.record then g
  else
    let a := f.shift.getD (0, 0)
    let b := g.shift.getD (0, 0)
    { g with shift := some (b.1 + dx - a.1, b.2 + dy - a.2) }

/-- Puts saved jobs back at a translation. The vault image goes to clusters that the launch has not used before (R475): the answer is the
state in which that image waits for another package, if it does. One that cannot be read is not copied (DESIGN CHOICE, log 53). -/
def restoreAt (s : State) (f : Lifeline) (dx dy : Int) : Except State State :=
  let record := f.launch.record
  let l := shiftLaunch f.launch dx dy
  let cs := f.cores.map (fun p => moveCore dx dy p.1)
  let had := match s.launches.find? (fun m => m.record == record) with | some m => m.vaulted | none => l.vaulted
  let fresh := (unitsAmong 2 cs []).filter (fun g => !had.contains g)
  let put (s0 : State) : State :=
    let s1 := restoreCores f.launch dx dy f.cores
      { s0 with lifelines := (s0.lifelines.filter (fun g => g != f)).map (followShift f dx dy) }
    let s2 : State :=
      if s1.launches.any (fun m => m.record == record) then s1.mapLaunch record (fun m => m.join l)
      else { s1 with launches := s1.launches ++ [l] }
    let s3 := s2.mapLaunch record (fun m => { m with vaulted := m.vaulted ++ fresh })
    let s4 := restoreIntervals record f.ctx dx dy f.intervals s3
    let s5 := match s4.launches.find? (fun m => m.record == record) with
      | some m => pauseCores record (!s4.whole record) (m.cores.map Prod.fst) s4
      | none => s4
    let s6 := joinDomain f.ctx (unitsAmong 2 cs []) s5
    { s6 with inbound := f.mail.map (shiftMail s f.launch dx dy) ++ s6.inbound }
  if fresh.isEmpty then .ok (put s)
  else
    match loadVault s record with
    | .wait s1 => .error s1
    | .bad _ _ s1 => .ok (put (dropReqs s1 (.image record)))
    | .ok img s1 => .ok (put (copyVault (s.lrec record) img fresh (dropReqs s1 (.image record))))

/-- A state, whether something still waits in it or not. -/
def eitherState : Except State State → State
  | .ok s => s
  | .error s => s

/-- LAUNCH_RESTORE: a launch that pre-emption saved resumes once its gang can be made co-resident. -/
def execLaunchRestore (record : Nat) (s : State) : Out :=
  match savedOf s record with
  | none => .next s
  | some f =>
    let gauge := (s.lrec record).gauge
    match shiftFor s (coreFits s [] (needed s record) gauge) f with
    | none => .next s
    | some ((dx, dy), cs) =>
      let change := toChange s gauge (unitsAmong 2 cs [])
      .next (if change.isEmpty then eitherState (restoreAt s f dx dy) else startChange gauge change s)

/-! ## PREEMPTION (R417) -/

/-- Lowest priority first, and among equals the latest armed. -/
def insertVictim (s : State) (i : Nat) : List Nat → List Nat
  | [] => [i]
  | j :: t =>
    let a := s.lrec i
    let b := s.lrec j
    if decide (a.prio < b.prio) || (a.prio == b.prio && decide (b.order < a.order)) then i :: j :: t else j :: insertVictim s i t

/-- The running launches of lower priority than a record, in the order in which they are chosen. -/
def victims (s : State) (record : Nat) : List Nat :=
  ((s.launches.filter (fun l => l.started && s.whole l.record && decide ((s.lrec l.record).prio < (s.lrec record).prio) &&
    l.cores.all (fun p => !(s.core p.1).held && !((s.lrec l.record).gauge && (s.cluster (clusterOf p.1)).frozen.contains .debug)))).map
      Launch.record).foldl (fun q i => insertVictim s i q) []

/-- The fewest victims whose absence makes a gang fit. -/
def enoughVictims (fits : List Nat → Bool) (l : List Nat) : Option (List Nat) :=
  ((List.range l.length).map (fun n => l.take (n + 1))).find? fits

/-- Saves a victim if it can be saved now. -/
def saveVictim (s : State) (i : Nat) : State :=
  match s.launches.find? (fun l => l.record == i) with
  | none => s
  | some l =>
    let cs := l.cores.map Prod.fst
    let s1 := settleCores cs s
    if !(cs.all (canSave s1 (s.lrec i).gauge) && launchStops s1 l none && mailClear s1 l cs) then s
    else
      match s1.launches.find? (fun m => m.record == i) with
      | some m => saveLaunch s1 m cs none s.steps
      | none => s1

def saveVictims : List Nat → State → State
  | [], s => s
  | i :: t, s => saveVictims t (saveVictim s i)

/-- Saves launches of lower priority for a record whose gang does not fit otherwise. -/
def preemptFor (s : State) (record : Nat) (fits : List Nat → Bool) : State :=
  match enoughVictims fits (victims s record) with
  | some vs => saveVictims vs s
  | none => s

/-- PREEMPTION: for a ready record whose gang cannot otherwise become co-resident. -/
def execPreemption (record : Nat) (s : State) : Out :=
  let fits (gone : List Nat) : Bool := (planCores s gone (needed s record) record).isSome
  .next (if !isReady s record || fits [] then s else preemptFor s record fits)

/-! ## CTXSV and CTXLD (R423) -/

/-- The lifelines of the jobs in a die image that no CTXSV of this state has written. -/
opaque Config.foreignImage : Nat → List Byte → List Lifeline

/-- A stream whose pc, and the addresses that its loop levels give it, are multiples of 4 (R37). -/
def Stream.aligned (t : Stream) : Stream :=
  { t with pc := alignPc t.pc, loops := t.loops.map (fun l => { l with start := alignPc l.start }) }

/-- A lifeline of a context with the tile stores of its cores in the canonical form and every pc a multiple of 4. -/
def Lifeline.tidy (f : Lifeline) (ctx : Nat) : Lifeline :=
  { f with ctx := ctx, cores := f.cores.map (fun p => (p.1, { p.2 with
      tile := p.2.tile.foldl (fun m b => writeB m b.1 b.2) [], a := p.2.a.aligned, x := p.2.x.aligned, m := p.2.m.aligned })) }

/-- The operands of CTXSV and CTXLD, in the order of their checks. -/
def ctxForm (i : Instr) (a b : Nat) (act : State → Who → Nat → Nat → Res) (s : State) : Out :=
  let w := s.whoOn .a
  let x := (regOf s w b).toNat
  let va := (regOf s w a).toNat
  finish w 4 s (superOnly i s w (needRegs s w [a, b] (
    if 63 < x || !(s.ctx x).live then .raise 0x02 (opTval i false 7)
    else if va % 0x1000 != 0 then .raise 0x13 (accTval false va)
    else act s w va x)))

/-- The running launches of a context with jobs on a die, and the cores of those jobs. -/
def onDie (s : State) (ctx die : Nat) : List (Launch × List Nat) :=
  (s.launches.map (fun l => (l, (l.cores.map Prod.fst).filter (fun c => dieOf c == die && (s.core c).job.isSome)))).filter
    (fun p => (s.lrec p.1.record).ctx == ctx && !p.2.isEmpty)

def saveAll (image : List Byte) (n : Nat) : List (Launch × List Nat) → State → State
  | [], s => s
  | (l, cs) :: t, s => saveAll image n t (saveLaunch s l cs (some image) n)

/-- A die image: a header of 4 KiB with the context, the number of jobs and the record indexes, and the images of the jobs in ascending
logical index (R423). -/
def dieImage (s : State) (ctx : Nat) (records cs : List Nat) : List Byte :=
  fit 0x1000 (Config.dieHeader ctx cs.length records) ++ (byLidx s cs).flatMap (jobImage s)

/-- CTXSV waits until every job on the die can be saved. An uncorrectable error in a saved core raises nothing (DESIGN CHOICE, log 41). -/
def execCtxsv (a b : Nat) (s : State) : Out :=
  ctxForm (.ctxsv a b) a b (fun s w va ctx =>
    let die := dieOf w.core
    let cs := (onDie s ctx die).flatMap Prod.snd
    let s1 := settleCores cs s
    let jobs := onDie s1 ctx die
    let image := dieImage s1 ctx (jobs.map (fun p => p.1.record)) (jobs.flatMap Prod.snd)
    if !jobs.all (fun p => p.2.all (fun c => canSave s1 ((s1.lrec p.1.record).gauge && c != w.core) c) &&
        launchStops s1 p.1 (some w.core) && mailClear s1 p.1 p.2) then .wait
    else
      match openAccess s1 w.core (syncAcc .write 0x1000) (.va va) image.length with
      | .error (c, v) => .raiseIn (translatedFor s w.core (syncAcc .write 0x1000) (.va va) image.length) c v
      | .ok (segs, s2) =>
        let mask := List.replicate image.length true
        if cs.contains w.core then
          .ok (saveAll image s.steps (onDie s2 ctx die) (requestWrites w.core (.instr w.core .a) segs image mask
            (writeSegs s2 w.core (s2.core w.core).nextId segs image mask))) (.stay .none)
        else
          match storeSegs w.core (partsOf segs image mask) s2 with
          | none => .wait
          | some s3 => .ok (saveAll image s.steps (onDie s3 ctx die) s3) .seq) s

/-- What a die header says: the context and the number of jobs, of which a die has at most 128. -/
def headerOf (s : State) (header : List Byte) : Nat × Nat :=
  let known := s.lifelines.findSome? (fun f =>
    match f.image with
    | some l => if l.take 0x1000 == header then some (f.ctx, (l.length - 0x1000) / 0x180000) else none
    | none => none)
  known.getD (Config.headerCtx header, min 128 (Config.headerJobs header))

/-- Every job image of a die image has the version of this part. -/
def versionsOk (image : List Byte) (n : Nat) : Bool :=
  (List.range n).all (fun i => image[0x1000 + i * 0x180000]? == some Config.imageVersion)

/-- The lifelines of a die image: those that one CTXSV wrote with it, or what an image of another source holds. -/
def imageJobs (s : State) (ctx : Nat) (image : List Byte) : List Lifeline :=
  let mine := s.lifelines.filter (fun f => f.image == some image && f.ctx == ctx)
  match mine with
  | f :: _ => mine.filter (fun g => g.saved == f.saved)
  | [] => (Config.foreignImage s.steps image).map (fun f => f.tidy ctx)

/-- Restores lifelines on the executing die when every one of them fits; else the state in which they wait, with the change of
clusters begun where it is that which they wait for. -/
def restoreAll (die : Nat) (s0 : State) : List Lifeline → State → Except State State
  | [], s => .ok s
  | f :: t, s =>
    let gauge := (s.lrec f.launch.record).gauge
    let part := if s.launches.any (fun l => l.record == f.launch.record) then [f.launch.record] else []
    match shiftFor s (fun c => dieOf c == die && coreFits s part [] gauge c) f with
    | none => .error s0
    | some ((dx, dy), cs) =>
      let change := toChange s gauge (unitsAmong 2 cs [])
      if !change.isEmpty then .error (startChange gauge change s0)
      else
        match restoreAt s f dx dy with
        | .ok s1 => restoreAll die s0 t s1
        | .error _ => .error (eitherState (restoreAt s0 f dx dy))

/-- CTXLD restores the jobs of the image at U(a), or waits until they can be placed. Its last check names the address for an image of
another version and the context operand for an image of another context (R474 gives the operand of a check, not this choice: DESIGN
CHOICE, log 56). -/
def execCtxld (a b : Nat) (s : State) : Out :=
  let i : Instr := .ctxld a b
  ctxForm i a b (fun s w va ctx =>
    forgetReads s w (if !(s.core w.core).doneA then .wait
      else
        readKept s s w va 0x1000 (fun header s1 =>
          let (c, n) := headerOf s header
          readKept s s1 w (va + 0x1000) (n * 0x180000) (fun jobs s2 =>
            let image := header ++ jobs
            if !versionsOk image n then .raise 0x02 (opTval i false 13)
            else if c != ctx then .raise 0x02 (opTval i false 7)
            else
              match restoreAll (dieOf w.core) s (imageJobs s2 ctx image) s2 with
              | .error s3 => .ok s3 (.stay .waiting)
              | .ok s3 => .ok (dropReqs s3 (.instr w.core w.eng)) .seq)))) s

end Sys2Proof.Machine
end

