-- ==== Sys2Proof/Machine/Events.lean ====
section
/-! DEFINITION. The events of a core: landings (R102, R192, R215, R341), barriers (R143, R144, R339, R456), IDLE's end (R149),
mailbox writes that arrive and enter (R135, R136), the ends of TLBINV and DECLD (R260, R275), and the faults of fetching
(R60, R64). -/

namespace Sys2Proof.Machine

/-- An event of a core that exists; it changes nothing while the core's cluster stands still. -/
def coreEvent (c : Nat) (s : State) (act : State → State) : Out :=
  if !coreExists c then .fault .noSuchUnit else .next (if s.still c then s else act s)

/-! ## Landings -/

def execValueLanding (core : Nat) (e : Eng) (n : Nat) (s : State) : Out := coreEvent core s (fun s => landAt s ⟨core, e⟩ n)
def execQueueEntryLanding (core n : Nat) (s : State) : Out := coreEvent core s (fun s => landEntry s core n)
def execStorePerformed (core n : Nat) (s : State) : Out := coreEvent core s (fun s => performStore s core n)

/-! ## CSCAN (R190, R192) -/

/-- CSCAN_LANDING: outstanding scan `n` of the core, once every participant's contribution is there. -/
def execCscanLanding (core n : Nat) (s : State) : Out := coreEvent core s (fun s => (landedScan s core n).getD s)

/-! ## Barriers -/

/-- Whether a barrier that ends quanta waits for the commit of what its participants have buffered (R369, R370). -/
def commitFirst (s : State) (l : Launch) (scope : Nat) (ps : List Nat) : Bool :=
  let x := s.ctx (s.lrec l.record).ctx
  x.mmode == 2 && decide (x.mscopeCode ≤ scope) && ps.any (fun d => !(s.core d).det.clean)

/-- The streams of a core that stand at an instance. -/
def standsAt (k : Core) (scope inst : Nat) (timed : Bool) : List Eng :=
  [Eng.a, Eng.x, Eng.m].filter (fun e => match (k.stream e).at_ with
    | .bar sc _ i t => sc == scope && i == inst && t.isSome == timed
    | _ => false)

/-- The first barrier without a release cycle at which a stream of a core stands: scope, mask and instance. -/
def untimedAt (k : Core) : List (Nat × Nat × Nat) :=
  [Eng.a, Eng.x, Eng.m].filterMap (fun e => match (k.stream e).at_ with | .bar sc mask i none => some (sc, mask, i) | _ => none)

/-- The interval numbers of the units of `mscope` in which an instance of that scope or wider completes (R365). -/
def advanceUnits (s : State) (l : Launch) (scope c : Nat) : State :=
  let ctx := (s.lrec l.record).ctx
  let x := s.ctx ctx
  if x.mmode != 1 || scope < x.mscopeCode then s
  else
    let us := unitsAmong x.mscopeCode (participants l scope c) []
    { s with intervals := us.foldl (fun m u =>
        let key := intervalKey ctx x.mscopeCode u
        tset m key ((tget m key 0 + 1) % 65536)) s.intervals }

/-- An instance of a launch completes, once: the numbers advance at its first release. -/
def advanceIntervals (s : State) (l : Launch) (scope inst c : Nat) : State :=
  let key := (scope, unitOf scope c, inst)
  if l.completed.contains key then s
  else (advanceUnits s l scope c).mapLaunch l.record (fun m => { m with completed := key :: m.completed })

/-- Tells every other package of a launch that a barrier of fabric scope is released (R456). -/
def tellRelease (record inst : Nat) : List Nat → State → State
  | [], s => s
  | p :: t, s => tellRelease record inst t (if p = s.pkgId then s else emit s (.barRelease p record (inst + 1)))

/-- The leader of a launch knows of a package's arrival at a fabric barrier; with the last one it releases it. -/
def noteArrival (s : State) (record pkg engines inst count : Nat) : State :=
  let s1 := s.mapAway record (fun l => { l with remoteBars := l.remoteBars ++ [(pkg, engines, inst, count)] })
  match s1.known? record with
  | none => s1
  | some l =>
    if l.packages.all (fun p => l.remoteBars.any (fun b => b.1 == p && b.2.2.1 == inst)) then
      tellRelease record inst l.packages (s1.mapAway record (fun l => { l with released := inst :: l.released }))
    else s1

/-- A fabric barrier at which this package's participants have all arrived: the leader hears of it once. Its messages need feature bit 8
(R448). -/
def arriveFabric (s : State) (l : Launch) (mask inst : Nat) : State :=
  if !s.accepted.getLsbD 8 || l.remoteBars.any (fun b => b.1 == s.pkgId && b.2.2.1 == inst) then s
  else if l.leader s = s.pkgId then noteArrival s l.record s.pkgId mask inst l.cores.length
  else
    emit (s.mapLaunch l.record (fun m => { m with remoteBars := m.remoteBars ++ [(s.pkgId, mask, inst, m.cores.length)] }))
      (.barArrive (l.leader s) l.record mask (inst + 1) l.cores.length)

/-- Releases a core from an untimed barrier once every participant has arrived. The first release completes the instance. -/
def releaseBar (s : State) (c : Nat) (l : Launch) (scope mask inst : Nat) : State :=
  let ps := participants l scope c
  if !ps.all (fun d => arrivedAt (s.core d) scope inst) || !s.whole l.record || commitFirst s l scope ps then s
  else if scope = 5 && 1 < l.packages.length && !l.released.contains inst then arriveFabric s l mask inst
  else
    retireEngines c (standsAt (s.core c) scope inst false) (advanceIntervals s l scope inst c)

/-- BARRIER_RELEASE: on one core; on each participant it may come at another time (R143). -/
def execBarrierRelease (core : Nat) (s : State) : Out :=
  coreEvent core s (fun s =>
    match s.launchOf core with
    | none => s
    | some l =>
      match (untimedAt (s.core core)).find? (fun b => (participants l b.1 core).all (fun d => arrivedAt (s.core d) b.1 b.2.2)) with
      | some (scope, mask, inst) => releaseBar s core l scope mask inst
      | none => s)

/-- The timed barrier at which a stream of a core stands. -/
def timedAt (k : Core) : Option (Nat × Nat) :=
  [Eng.a, Eng.x, Eng.m].findSome? (fun e => match (k.stream e).at_ with | .bar sc _ i (some _) => some (sc, i) | _ => none)

def releaseTimed (scope inst : Nat) : List Nat → State → State
  | [], s => s
  | c :: t, s => releaseTimed scope inst t (retireEngines c (standsAt (s.core c) scope inst true) s)

/-- TIMED_BARRIER_RELEASE: at the largest T that a participant which has arrived gave, those of the die go on together (R144). -/
def execTimedBarrierRelease (core : Nat) (s : State) : Out :=
  coreEvent core s (fun s =>
    match s.launchOf core, timedAt (s.core core) with
    | some l, some (scope, inst) =>
      let here := (participants l scope core).filter (fun d => arrivedAt (s.core d) scope inst &&
        !(standsAt (s.core d) scope inst true).isEmpty)
      let last := match timedOf l scope (unitOf scope core) inst with | some b => b.high | none => 0
      if here.isEmpty || !s.whole l.record || s.jobCount core < last then s
      else releaseTimed scope inst (here.filter (fun d => dieOf d == dieOf core)) (advanceIntervals s l scope inst core)
    | _, _ => s)

/-- IDLE_EXPIRY: n local cycles have passed (R149). A shadow handler's IDLE ends while the domain stands still: none of its
cycles is counted, and the spec gives it no other length (R231, R232). -/
def execIdleExpiry (core : Nat) (e : Eng) (s : State) : Out :=
  if !coreExists core then .fault .noSuchUnit
  else
    let w : Who := ⟨core, e⟩
    match (s.stream w).at_ with
    | .idle n =>
      .next (if (if s.still core then shadow s w else decide (n ≤ s.jobCount core)) then retire w 4 s else s)
    | _ => .next s

/-! ## Mailbox writes (R135, R136) -/

/-- A core without a job is reserved for a wave of a launch that has not started there (R136): the present one, or, once its own job of
that has ended, the next (R415). -/
def reservedFor (s : State) (l : Launch) (c : Nat) : Bool :=
  l.cores.any (fun p => p.1 == c) &&
    (!l.begun.contains (dieOf c) || (l.done.contains c && decide (l.wave + 1 < (s.lrec l.record).waves)))

/-- What becomes of a write that reaches its core: held, discarded with a report, or refused while the buffer is full. -/
def deliver (s : State) (m : MboxMsg) : Option State :=
  let k := s.core m.dstCore
  let runs := match k.job with | some j => j.ctx == m.ctx | none => false
  let awaited := k.job.isNone && s.launches.any (fun l => l.record == m.launch && (s.lrec l.record).ctx == m.ctx &&
    reservedFor s l m.dstCore)
  if runs || awaited then
    (if k.holding.length < 16 then some (s.setCore m.dstCore { k with holding := k.holding ++ [m] }) else none)
  else some (discardMail s m)

/-- The first write of a core's outbound port that a core of this package can receive, with its place: one that no release holds, and
behind no other of its stream for the same core, in the port or in what a restore brought back (R135, R420, R465). -/
def firstOwn (s : State) (c : Nat) : Option (Nat × MboxMsg) :=
  let l := (s.core c).outbound
  let same (m n : MboxMsg) : Bool := m.srcEng == n.srcEng && m.dstPkg == n.dstPkg && m.dstCore == n.dstCore
  (l.mapIdx (fun i m => (i, m))).find? (fun p => p.2.dstPkg == s.pkgId && !heldRel s c p.2.rel && !(l.take p.1).any (same p.2) &&
    !s.inbound.any (fun m => m.srcPkg == s.pkgId && m.srcCore == c && same p.2 m))

/-- REMOTE_MAILBOX_WRITE_ARRIVAL. -/
def execRemoteMailboxWriteArrival (src : Nat) (s : State) : Out :=
  if src = 512 then
    match (s.inbound.mapIdx (fun i m => (i, m))).find? (fun p => !s.still p.2.dstCore) with
    | none => .next s
    | some (i, m) => .next (match deliver { s with inbound := ldel s.inbound i } m with | some s1 => s1 | none => s)
  else if !coreExists src then .fault .noSuchUnit
  else
    match firstOwn s src with
    | none => .next s
    | some (i, m) =>
      let k := s.core src
      if s.still m.dstCore then .next s
      else .next (match deliver (s.setCore src { k with outbound := ldel k.outbound i }) m with | some s1 => s1 | none => s)

/-- HELD_MAILBOX_WRITE_ENTRY: the oldest held write of a mailbox enters it once it is empty and a job runs. -/
def execHeldMailboxWriteEntry (core mbox : Nat) (s : State) : Out :=
  coreEvent core s (fun s =>
    let k := s.core core
    match (k.holding.mapIdx (fun i m => (i, m))).find? (fun p => p.2.mbox == mbox) with
    | none => s
    | some (i, m) =>
      if k.job.isNone || (tfind k.mbox mbox).isSome || (heldOwn s core).contains mbox then s
      else s.setCore core { k with holding := ldel k.holding i, mbox := tset k.mbox mbox (mailVal m) })

/-! ## TLBINV (R260) -/

/-- TLBINV_COMPLETION: every cache in reach drops the entries. A shadow handler's TLBINV completes while the domain stands
still. -/
def execTlbinvCompletion (core : Nat) (s : State) : Out :=
  if !coreExists core then .fault .noSuchUnit
  else
    let w : Who := ⟨core, .a⟩
    match (s.stream w).at_ with
    | .tlbinv reach va =>
      if s.still core && !shadow s w then .next s
      else
        let page := if reach % 2 = 0 then some (va.toNat % 2 ^ 57) else none
        let gs := if reach < 2 then [clusterOf core] else List.range 32
        .next (retire w 4 (dropTransAll (s.core core).ctx page gs s))
    | _ => .next s

/-! ## DECLD (R275, R279) -/

def Core.bank (k : Core) (b : Nat) : Bank := tget k.as.banks b ⟨0, 0, []⟩

/-- The bank that a DECLD fills: the empty one, else the one of the older generation. -/
def bankToFill (k : Core) : Nat :=
  if (k.bank 0).gen = 0 then 0 else if (k.bank 1).gen = 0 then 1 else if (k.bank 0).gen < (k.bank 1).gen then 0 else 1

/-- A DECQ that captured a generation and has not completed. -/
def bankUsed (k : Core) (gen : Nat) : Bool :=
  gen != 0 && k.as.xfers.any (fun p => match p.2.op with | .decode _ _ _ _ _ _ zr g => !zr && g == gen | _ => false)

/-- DECLD stands at its instruction until its table has been read. -/
def execDecld (d a e : Nat) (s : State) : Out :=
  let w := s.whoOn .a
  let k := s.core w.core
  let b := bankToFill k
  finish w 4 s (needRegs s w [a] (
    match openAccess s w.core (syncAcc .read 8) (.va (regOf s w a).toNat) 2048 with
    | .error (c, v) => .raiseIn (translatedFor s w.core (syncAcc .read 8) (.va (regOf s w a).toNat) 2048) c v
    | .ok (segs, s1) =>
      if bankUsed k (k.bank b).gen || leavesLate s w.core (.load 0 8 false segs none) then .wait
      else .ok (standAtAct (requestReads w.core (.instr w.core .a) segs s1) w (.decld d b e segs)) (.stay .waiting)))

/-- The 256 words of a table. -/
def tableWords : Nat → List Byte → List Word
  | 0, _ => []
  | n + 1, l => BitVec.ofNat 64 (natOf (l.take 8)) :: tableWords n (l.drop 8)

/-- DECLD_LOAD_DONE: the bank holds the new generation, and A goes on; data that cannot be corrected is a fault of the DECLD. -/
def execDecldLoadDone (core : Nat) (s : State) : Out :=
  coreEvent core s (fun s =>
    let w : Who := ⟨core, .a⟩
    let owner : Owner := .instr core .a
    match (s.stream w).at_ with
    | .decld d b e segs =>
      if heldBack (s.core core).a.pend (.load 0 8 false segs none) then s
      else
        match gather core owner segs s with
        | .wait => s
        | .bad cause tv => takeTrap (dropReqs s owner) w cause (accTval false tv)
        | .ok l s1 =>
          let k := s1.core core
          let gen := k.as.gen + 1
          let k1 : Core := { k with as := { k.as with gen := gen, banks := tset k.as.banks b ⟨gen, e, tableWords 256 l⟩ } }
          retire w 4 (putReg (dropReqs (s1.setCore core k1) owner) w d (BitVec.ofNat 64 gen))
    | _ => s)

/-! ## Fetching -/

/-- UNASSIGNED_MAJOR: 0x01 with the layout of R63. -/
def execUnassignedMajor (w1 : Nat) (s : State) : Out := finish s.who 4 s (.raise 0x01 (tvalField false 25 w1))

/-- INSTRUCTION_FETCH_FAULT: the fault goes to the stream, with the address of the word. -/
def execInstructionFetchFault (cause : Nat) (va : Word) (s : State) : Out := finish s.who 4 s (.raise cause va)

end Sys2Proof.Machine
end

