-- ==== Sys2Proof/Machine/Die.lean ====
section
/-! DEFINITION. The events of a cluster and a die: page walks and next pages (R237, R334, R335), the commit of a deterministic
quantum (R370), the ends of holds (R378, R379), and droops (R336, R337). -/

namespace Sys2Proof.Machine

/-! ## Translation -/

/-- Whether a context has a job on a core of a cluster (R334). -/
def usesCluster (s : State) (cluster ctx : Nat) : Bool :=
  (List.range 16).any (fun j => let k := s.core (coreOf cluster j); k.job.isSome && k.ctx == ctx)

/-- PAGE_WALK: the walk's translation enters the cluster's cache; a walk that faults leaves nothing. -/
def execPageWalk (cluster ctxid : Nat) (va : Word) (s : State) : Out :=
  if 32 ≤ cluster then .fault .noSuchUnit
  else if !usesCluster s cluster ctxid then .next s
  else
    let v := va.toNat % 2 ^ 57
    let s1 := countReads (walkLines s ctxid v) s
    .next (match walk s ctxid v with
      | .ok t => installTrans s1 cluster t
      | .error _ => s1)

/-- The PGHINT distance of a queue: 8 at job start. -/
def Core.hintOf (k : Core) (queue : Nat) : Nat := tget k.as.hint queue 8

/-- NEXT_PAGE_TRANSLATION: the page after a queue's current one, once its accesses come within D × 512 bytes of the end. -/
def execNextPageTranslation (core queue : Nat) (s : State) : Out :=
  if 24 ≤ queue then .fault .noSuchUnit
  else
    coreEvent core s (fun s =>
      let k := s.core core
      match tfind k.as.curPage queue with
      | none => s
      | some t =>
        let stop := t.page + 2 ^ pageShift t.size
        if k.hintOf queue = 0 || k.hintOf queue * 512 < stop - tget k.as.qva queue 0 || 2 ^ 57 ≤ stop then s
        else
          let s1 := translated s core k.ctx stop 0
          match translate s core k.ctx stop 0 with
          | .ok n => s1.setCore core { k with as := { k.as with nextPage := tset k.as.nextPage queue n } }
          | .error _ => s1)

/-! ## Deterministic commit (R369, R370) -/

/-- The participants of the quanta of a core's unit, in ascending logical index (R368). -/
def quantumCores (s : State) (l : Launch) (c : Nat) : List Nat :=
  let sc := (s.ctx (s.lrec l.record).ctx).mscopeCode
  (sortBy Prod.snd (l.cores.filter (fun p => unitOf sc p.1 == unitOf sc c))).map Prod.fst

/-- A stream that waits for the commit of its core's writes (R399, R451; log 44). -/
def Stream.atCommit (t : Stream) : Bool := t.at_ == .committing

/-- A participant has ended its quantum: its writes, an atomic or a barrier ended it, its A stream waits for the commit, or nothing of it
writes any more; and its accesses and transfers have completed. What a handler issues behind the atomic waits for the commit or goes on
without it (R120, log 81). -/
def quantumOver (s : State) (record c : Nat) : Bool :=
  let k := s.core c
  match k.job with
  | none => true
  | some j =>
    j.record != record ||
      ((k.det.ended || atQuantumBar s c || k.a.atCommit || !j.streams.contains .a || k.a.run == .ended) &&
        (k.a.pend.takeWhile (fun p => k.det.atomic != some p.id)).isEmpty && k.as.xfers.isEmpty)

def setBuffered (s : State) (c : Nat) (l : List DetWrite) : State :=
  let k := s.core c
  s.setCore c { k with det := { k.det with writes := l } }

/-- Counts the bytes of a buffered write on the die of its core as they are committed (R383). -/
def countCommitted (s : State) (c : Nat) (w : DetWrite) : State := s.count (ctrCommitBytes (dieOf c)) (w.mask.countP id)

/-- Performs a buffered write at its home in this package; what its controller cannot perform is reported late. -/
def commitHere (s : State) (c : Nat) (w : DetWrite) : State :=
  match (maskRuns w.seg 0 w.mask).findSome? (fun g => (storeBadAt s g.addr g.len).map (fun i => g.tv + i)) with
  | some tv => addLate s ⟨c, .a⟩ ⟨0x50, accTval true tv, none, none⟩
  | none => storeLocal s w.seg.attr.cmp w.seg.addr w.data w.mask

/-- A pending access at its place in program order. -/
def insertPend (p : Pend) : List Pend → List Pend
  | [] => [p]
  | h :: t => if p.id < h.id then p :: h :: t else h :: insertPend p t

/-- A buffered write to another package leaves as a store of the core, at its place in program order, that waits for its
acknowledgement. -/
def commitAway (s : State) (c : Nat) (w : DetWrite) : State :=
  let op := PendOp.store [{ w.seg with attr := { w.seg.attr with det := false } }] w.data w.mask
  let k := s.core c
  requestWrites c (.pend c w.at_) [w.seg] w.data w.mask
    (s.setCore c { k with a := { k.a with pend := insertPend ⟨w.at_, op⟩ k.a.pend } })

/-- Performs a core's buffered writes in program order, up to the first that leaves for another package; answers whether one has
left. -/
def commitWrites (c : Nat) : List DetWrite → State → State × Bool
  | [], s => (s, false)
  | w :: t, s =>
    let s1 := countCommitted (setBuffered s c t) c w
    if w.seg.isRemote then (commitAway s1 c w, true) else commitWrites c t (commitHere s1 c w)

/-- Performs the buffers in ascending logical index. -/
def commitBuffers : List Nat → State → State × Bool
  | [], s => (s, false)
  | c :: t, s =>
    let r := commitWrites c (s.core c).det.writes s
    if r.2 then r else commitBuffers t r.1

/-- The atomic that ended a core's quantum is no longer held for the commit. -/
def releaseAtomic (s : State) (c : Nat) : State :=
  let k := s.core c
  s.setCore c { k with det := { k.det with atomic := none } }

/-- Performs the atomic that ended a quantum; its result lands (R370). One at another package is sent there, and its result lands as
its response comes; answers whether it has left. -/
def commitAtomic (s : State) (c : Nat) (p : Pend) : State × Bool :=
  match p.op with
  | .amo d op _ _ _ [g] _ =>
    if g.isRemote then (sendAtomic (releaseAtomic s c) c g op p.id 0, true)
    else
      let s1 := releaseAtomic s c
      match badAt s g.addr g.len with
      | some (cause, i) => (landBad s1 c p cause (g.tv + i), false)
      | none =>
        let old := natOf (readBytes s.mem g.addr g.len)
        let s2 := storeLocal s1 g.attr.cmp g.addr (bytesOf g.len (amoNew g.len op old)) (List.replicate g.len true)
        (s2.setCore c (landReg (dropPend (s2.core c) .a p.id p.op) .a d (BitVec.ofNat 64 old)), false)
  | _ => (releaseAtomic s c, false)

/-- Performs the atomics in ascending logical index, up to the first that leaves for another package. -/
def commitAtomics : List Nat → State → State × Bool
  | [], s => (s, false)
  | c :: t, s =>
    match (s.core c).a.pend.find? (fun p => (s.core c).det.atomic == some p.id) with
    | none => commitAtomics t s
    | some p =>
      let r := commitAtomic s c p
      if r.2 then r else commitAtomics t r.1

/-- Counts a commit on each die of its participants (R383). -/
def countCommit : List Nat → State → State
  | [], s => s
  | d :: t, s => countCommit t (s.count (ctrCommit d) 1)

/-- Every participant begins its next quantum. -/
def nextQuanta : List Nat → State → State
  | [], s => s
  | c :: t, s =>
    let k := s.core c
    let a := if k.a.atCommit then { k.a with at_ := .free, run := runAfter k k.a } else k.a
    nextQuanta t (tryEndJob (s.setCore c { k with det := { DetBuf.reset with quantum := k.det.quantum + 1 }, a := a }) c)

/-- QUANTUM_COMMIT of the unit of a core: the buffers, then the atomics, then every participant goes on. A write or an atomic at
another package is performed there before anything that follows it: the commit goes on at a later event (R370, log 81). -/
def execQuantumCommit (core : Nat) (s : State) : Out :=
  if !coreExists core then .fault .noSuchUnit
  else
    match s.launchOf core with
    | none => .next s
    | some l =>
      let ps := quantumCores s l core
      let due := ps.any (fun c => !(s.core c).det.clean)
      if (s.ctx (s.core core).ctx).mmode != 2 || !due || !ps.all (quantumOver s l.record) then .next s
      else
        let w := commitBuffers ps s
        let a := if w.2 then w else commitAtomics ps w.1
        .next (if a.2 then a.1 else nextQuanta ps (countCommit (unitsAmong 3 ps []) a.1))

/-! ## Holds (R378, R379) -/

/-- HOLD_STREAM_LIMIT: a stream of a held core that has not come to wait 2^20 cycles after the hold began stops. -/
def execHoldStreamLimit (core : Nat) (e : Eng) (s : State) : Out :=
  if !coreExists core then .fault .noSuchUnit
  else
    let k := s.core core
    let t := s.stream ⟨core, e⟩
    .next (if k.held && k.heldSince + 2 ^ 20 ≤ s.localCount (clusterOf core) && t.run == .running
      then s.setStream ⟨core, e⟩ { t with run := .held }
      else s)

/-- The place in the package's list of hold `n` of a die. -/
def holdAt (s : State) (die n : Nat) : Option Nat :=
  (((s.holds.mapIdx (fun i h => (i, h))).filter (fun p => p.2.die == die))[n]?).map Prod.fst

/-- Nominal cycles in a second (R336). -/
def secondCycles : Nat := 1300000000

/-- HOLD_LIMIT_EXPIRY: hold `hold` of a die, with no debugger attached to its context. -/
def execHoldLimitExpiry (die hold : Nat) (s : State) : Out :=
  if 4 ≤ die then .fault .noSuchUnit
  else
    match holdAt s die hold with
    | none => .next s
    | some i =>
      match s.holds[i]? with
      | none => .next s
      | some h =>
        .next (if !s.attached.contains h.ctx && h.began + s.holdLimit * secondCycles ≤ s.clock then endHold s i else s)

/-! ## Droops (R336, R337) -/

/-- DROOP_STRETCH: one cycle of a rib cluster is to be longer by some eighths, at most eight; it becomes so as nominal time passes. -/
def execDroopStretch (cluster eighths : Nat) (s : State) : Out :=
  if 32 ≤ cluster then .fault .noSuchUnit
  else
    let k := s.cluster cluster
    .next (if k.gauge || 8 < eighths then s else s.setCluster cluster { k with stretch := k.stretch + eighths })

/-- The gauge domain that a cluster belongs to: the clusters on its die of the context whose launch runs on it (R373). -/
def gaugeDomain (s : State) (g : Nat) : List Nat :=
  match s.launches.find? (fun l => l.clusters.contains g) with
  | some l => if (s.cluster g).gauge then s.domain (s.lrec l.record).ctx (dieOfCluster g) else []
  | none => []

def droopOf (s : State) (g : Nat) : Option Nat := (s.cluster g).frozen.findSome? (fun f => match f with | .droop n => some n | _ => none)

/-- DROOP_FREEZE: the domain of a gauge cluster freezes, and the die counts it. -/
def execDroopFreeze (cluster : Nat) (s : State) : Out :=
  if 32 ≤ cluster then .fault .noSuchUnit
  else
    let d := gaugeDomain s cluster
    .next (if d.isEmpty || (droopOf s cluster).isSome then s
      else freezeAll (.droop s.clock) d (s.count (ctrDroop (dieOfCluster cluster)) 1))

/-- DROOP_RECOVERY: the domain thaws, and the die counts its frozen cycles. -/
def execDroopRecovery (cluster : Nat) (s : State) : Out :=
  if 32 ≤ cluster then .fault .noSuchUnit
  else
    .next (match droopOf s cluster with
      | none => s
      | some n => thawAll (.droop n) (cluster :: gaugeDomain s cluster) (s.count (ctrFrozen (dieOfCluster cluster)) (s.clock - n)))

end Sys2Proof.Machine
end

