-- ==== Sys2Proof/Machine/Host.lean ====
section
/-! DEFINITION. The host: the session (R427 to R430, R434, R435), its commands (R404, R406, R431, R432), reset (R437 to R439) and heat
(R441). A command's event is the arrival of its message with a good MAC; HOST_MESSAGE_DROP is a message that has not. A command whose
act cannot begin or end yet waits, and its event comes again. -/

namespace Sys2Proof.Machine

/-! ## Ethernet ports (R427, R438) -/

/-- An Ethernet port is up: all four, in recovery port 0 alone. -/
def etherUp (s : State) (port : Nat) : Bool := decide (port < if s.recovery then 1 else 4)

/-- The MAC and the IPv6 address of an Ethernet port, which firmware sets from the package's identity. -/
def etherMacOf (s : State) (port : Nat) : List Byte := fit 6 (Config.etherMac s.pkgId port)
def etherIpOf (s : State) (port : Nat) : List Byte := fit 16 (Config.etherIp s.pkgId port)

/-- UNSUPPORTED_DELIVERY_MODE: the packet is dropped and counted. A port that is down has no packets. -/
def execUnsupportedDeliveryMode (port : Nat) (s : State) : Out :=
  if 4 ≤ port then .fault .noSuchUnit else .next (if etherUp s port then { s with packetDrops := s.packetDrops + 1 } else s)

/-! ## The firmware slots of the boot flash (R437) -/

/-- A signature over the SM3 digest of an image under the key whose digest is fused as the Kwasum key. -/
def signedBy (key image sig : List Byte) : Bool := sm3 key == Config.kwasumHash && Config.sm2Verify key (sm3 image) sig

/-- A slot passes: its signature and its version, and the die images that it brings, which the hub firmware verifies the same way (DESIGN
CHOICE for those: a slot with one that fails does not run, log 57). -/
def slotGood (flash : Memory) (slot : Nat) : Bool :=
  let key := Config.slotKey flash slot
  signedBy key (Config.slotImage flash slot) (Config.slotSignature flash slot) &&
    decide (Config.minimumVersion.toNat ≤ (Config.slotVersion flash slot).toNat) &&
    (List.range 4).all (fun d => signedBy key (Config.dieFirmware flash slot d) (Config.dieSignature flash slot d))

/-! ## Opening a session (R428, R429, R435) -/

/-- Features 0 to 10 are offered (R435). -/
def offered : BitVec 256 := 0x7FF

/-- A message of the opening, before which no sequence number counts. -/
def State.openWith (s : State) (m : HostMsg) : State := { s with toHost := s.toHost ++ [⟨0, false, 0, m, []⟩] }

/-- Measurements 0 to 3 (R429); in recovery 1 and 2 are zero (R438). -/
def measurement (s : State) (n : Nat) : List Byte :=
  match n with
  | 0 => sm3 Config.bootRom
  | 1 => if s.recovery then List.replicate 32 0 else sm3 (Config.slotImage s.flash s.slot)
  | 2 => if s.recovery then List.replicate 32 0 else sm3 ((List.range 4).flatMap (Config.dieFirmware s.flash s.slot))
  | _ => sm3 Config.fuseConfig

/-- Bytes 0 to 191 of the attestation report. -/
def reportBody (s : State) (nonce : List Byte) : List Byte :=
  fit 32 nonce ++ (List.range 4).flatMap (measurement s) ++ bytesOf 8 (Config.slotVersion s.flash s.slot).toNat ++
    bytesOf 8 Config.minimumVersion.toNat ++ bytesOf 8 (s.pkgId + s.incarnation * 2 ^ 16) ++ bytesOf 8 s.boots

/-- The 256 bytes of the report, signed with the identity key. -/
def report (s : State) (nonce : List Byte) : List Byte :=
  let body := reportBody s nonce
  body ++ fit 64 (Config.sm2Sign (Config.identityKey Config.fusedSecret (sm3 (measurement s 0))) body)

/-- SESSION_OPEN_REQUEST: step 1, answered by step 2, or by status 5 while a session is open. -/
def execSessionOpenRequest (nonce hostKey sig ownerKey : List Byte) (s : State) : Out :=
  .next (if s.session.phase = .opened then s.openWith (.opened 5)
    else if nonce.length ≠ 32 || sm3 ownerKey ≠ Config.ownerHash || !Config.sm2Verify ownerKey (nonce ++ hostKey) sig then s
    else
      let eph := Config.deviceEphemeral s.steps
      let x : Session := { Session.reset with
        phase := .offered, hostKey := hostKey, ephemeral := eph,
        transcript := nonce ++ hostKey ++ sig ++ report s nonce ++ eph ++ bytesOf 32 offered.toNat }
      ({ s with session := x } : State).openWith (.attest (report s nonce) eph offered))

/-- Whether a set of features may be accepted (R435). -/
def mayAccept (s : State) (accepted : BitVec 256) : Bool :=
  accepted &&& offered == accepted && (!s.ctxs.any (fun p => p.2.live) || accepted == s.accepted)

def postAll : List HostMsg → State → State
  | [], s => s
  | m :: t, s => postAll t (s.post (s.session.ports.headD 0) false m)

/-- The session ends: its commands and endings go on without an answer (R434). -/
def endSession (s : State) : State :=
  { s with
    session := Session.reset, ops := s.ops.map (fun o => { o with answers := false }),
    endings := s.endings.map (fun e => { e with command := none }) }

/-- SESSION_FEATURE_ACCEPT: step 3, answered by step 4; then the messages that waited in the ring go out (R428, R434). -/
def execSessionFeatureAccept (ephemeral : List Byte) (accepted : BitVec 256) (sig : List Byte) (s : State) : Out :=
  let x := s.session
  .next (if x.phase ≠ .offered then s
    else if !Config.sm2Verify x.hostKey (x.transcript ++ ephemeral ++ bytesOf 32 accepted.toNat) sig || !mayAccept s accepted then
      (endSession s).openWith (.opened 1)
    else
      let y : Session := { x with phase := .opened, macKey := fit 32 (Config.sm2Exchange x.ephemeral ephemeral), last := s.clock }
      postAll s.ring (({ s with session := y, accepted := accepted, ring := [] } : State).openWith (.opened 0)))

/-! ## Commands (R430 to R432) -/

/-- The response to an ordered command; the payload is what follows the sequence number (R430). -/
def respond (s : State) (h : HostHdr) (status : Nat) (payload : List Byte) : State := s.post h.port false (.response h.seq status payload)

/-- The response to a bulk command, over RUD (R427). -/
def respondBulk (s : State) (h : HostHdr) (status : Nat) (payload : List Byte) : State := s.post h.port true (.response h.seq status payload)

/-- A message from the host that is dropped and counted; the third in a row ends the session (R430, R434). -/
def dropMessage (s : State) : State :=
  let x := s.session
  let s1 : State := { s with drops := s.drops + 1 }
  if x.failed + 1 < 3 then { s1 with session := { x with failed := x.failed + 1, last := s.clock } } else endSession s1

/-- A command waits for those of lower sequence numbers: an ordered one for every command, a bulk one for the ordered ones (R432). -/
def mustWait (s : State) (seq : Nat) (bulk : Bool) : Bool :=
  s.endings.any (fun e => e.command.isSome) || (!bulk && s.ops.any HostOp.answers) ||
    s.session.waiting.any (fun w => decide (w.seq < seq) && !(bulk && w.bulk))

/-- The session after a command's message is accepted: the port that it came by is the one that the device uses next (R427). -/
def State.accept (s : State) (h : HostHdr) : State :=
  let x := s.session
  { s with session := { x with seqIn := h.seq, failed := 0, last := s.clock, ports := h.port :: x.ports.filter (fun p => p != h.port) } }

/-- A command begins: in recovery all but three are refused (R438). -/
def beginCmd (h : HostHdr) (bulk inRecovery : Bool) (act : State → State) (s : State) : State :=
  if s.recovery && !inRecovery then (if bulk then respondBulk s h 4 [] else respond s h 4 []) else act s

/-- The command `i` in an open session: a message whose number is not the next is dropped, and any other is accepted as it arrives (R430).
One whose command must wait then stands among those that wait, and its event comes again (R432). -/
def hostCmd (i : Instr) (h : HostHdr) (bulk inRecovery : Bool) (act : State → State) (s : State) : Out :=
  let w : WaitingCmd := ⟨h.seq, bulk, i⟩
  .next (if s.session.phase ≠ .opened || !etherUp s h.port then s
    else if s.session.waiting.contains w then
      (if mustWait s h.seq bulk then s
       else beginCmd h bulk inRecovery act
        { s with session := { s.session with waiting := s.session.waiting.filter (fun x => x != w) } })
    else if h.seq ≠ s.session.seqIn + 1 then dropMessage s
    else
      let s1 := s.accept h
      if mustWait s h.seq bulk then { s1 with session := { s1.session with waiting := s1.session.waiting ++ [w] } }
      else beginCmd h bulk inRecovery act s1)

/-! ## MEMW and MEMR -/

/-- A refused access: the status and what follows the sequence number. -/
abbrev HostBad := Nat × List Byte

def faultStatus (cause : Nat) : HostBad := (3, [BitVec.ofNat 8 cause])

/-- The parts of a command's access by a context's tables. -/
def virtSegs (s : State) (ctx : Nat) (use : Use) : List (Nat × Nat) → Except HostBad (List Seg)
  | [] => .ok []
  | (va, n) :: t =>
    if !canonical va then .error (faultStatus 0x10)
    else
      match walk s ctx (va % 2 ^ 57) with
      | .error cause => .error (faultStatus cause)
      | .ok tr =>
        let pa := tr.pa (va % 2 ^ 57)
        if tr.attr.refuses use then .error (faultStatus 0x11)
        else if rangeEnd pa < pa + n then .error (faultStatus 0x10)
        else
          match virtSegs s ctx use t with
          | .error e => .error e
          | .ok r =>
            let tv := va % 2 ^ 57
            .ok ((if tr.pkg = s.pkgId then [⟨.local, pa, n, tr.attr, tv, none⟩]
              else pieces (n / 512 + 1) ⟨.remote tr.pkg tr.inc, pa, n, tr.attr, tv, none⟩) ++ r)

/-- The parts of a command's access (R431). -/
def hostSegs (s : State) (use : Use) (n : Nat) : HostAddr → Except HostBad (List Seg)
  | .phys pa => if !assigned pa || rangeEnd pa < pa + n then .error (1, []) else .ok [⟨.local, pa, n, plainAttr, pa, none⟩]
  | .virt ctx va =>
    if !(s.ctx ctx).live then .error (1, []) else virtSegs s ctx use (splitPages (n / 0x4000 + 2) va.toNat n)

/-- The walks that find a command's parts. -/
def walkedHost (s : State) (use : Use) (n : Nat) : HostAddr → State
  | .phys _ => s
  | .virt ctx va => if !(s.ctx ctx).live then s else walkedParts s ctx use va.toNat n

/-- Performs the local parts of a command's write. -/
def hostWrite : List Seg → List Byte → State → State
  | [], _, s => s
  | g :: t, data, s =>
    hostWrite t (data.drop g.len)
      (if g.isRemote then s else storeLocal s g.attr.cmp g.addr (data.take g.len) (List.replicate g.len true))

/-- What a command's read has: its bytes, or a cause; none while a reply is missing. -/
def hostRead (owner : Owner) : List Seg → State → Option (Except Nat (List Byte) × State)
  | [], s => some (.ok [], s)
  | g :: t, s =>
    let here : Option (Except Nat (List Byte) × State) :=
      if g.isRemote then
        match (findRead s owner g).bind OutReq.reply with
        | some (.data l) => some (.ok l, s)
        | some (.nack cause) => some (.error cause, s)
        | _ => none
      else
        match readBad s g.addr g.len with
        | some cause => some (.error cause, s)
        | none => let r := readLocal s g.addr g.len; some (.ok r.1, r.2)
    match here with
    | none => none
    | some (.error c, s1) => some (.error c, s1)
    | some (.ok l, s1) =>
      match hostRead owner t s1 with
      | none => none
      | some (.error c, s2) => some (.error c, s2)
      | some (.ok r, s2) => some (.ok (l ++ r), s2)

/-- What waits for the replies to a bulk command. -/
def HostOp.owner (op : HostOp) : Owner := .host op.id

/-- A bulk command completes: its response goes out in the session that it came in (R432, R434). -/
def endOp (s : State) (op : HostOp) (status : Nat) (payload : List Byte) : State :=
  let s1 : State := { dropReqs s op.owner with ops := s.ops.filter (fun o => o.id != op.id) }
  if op.answers then respondBulk s1 ⟨op.seq, op.port⟩ status payload else s1

/-- Completes a bulk command whose replies have all come. -/
def finishOp (op : HostOp) (s : State) : State :=
  if !op.performed then s
  else if op.write then
    match acksOf s op.owner with
    | .open_ => s
    | .failed c _ => endOp s op 3 [BitVec.ofNat 8 c]
    | .done => endOp s op 0 []
  else
    match hostRead op.owner op.segs s with
    | none => s
    | some (.error c, s1) => endOp s1 op 3 [BitVec.ofNat 8 c]
    | some (.ok l, s1) => endOp s1 op 0 l

/-- Completes every bulk command that waits for nothing more. -/
def finishOps : List HostOp → State → State
  | [], s => s
  | op :: t, s => finishOps t (finishOp op s)

/-- A bulk command takes effect in this package and is sent to others. A part of a write that its controller does not perform gives its
cause, and nothing is written then (R357). -/
def performOp (op : HostOp) (s : State) : State :=
  let op1 := { op with performed := true }
  let s1 : State := { s with ops := s.ops.map (fun o => if o.id = op.id then op1 else o) }
  if op.write then
    if op.segs.any (fun g => g.home == .local && storeBad s g.addr g.len) then endOp s1 op 3 [0x50]
    else
      finishOp op1 (requestWrites 0 op.owner op.segs op.data (List.replicate op.data.length true) (hostWrite op.segs op.data s1))
  else finishOp op1 (requestReads 0 op.owner op.segs s1)

/-- A bulk command that has been accepted and has not taken effect: those between two ordered commands do so in any order (R432). -/
def waitingOp (s : State) (h : HostHdr) (write : Bool) : Option HostOp :=
  s.ops.find? (fun o => o.seq == h.seq && o.write == write && !o.performed)

/-- A bulk command is accepted; its event comes again as it takes effect. -/
def startOp (h : HostHdr) (write : Bool) (segs : List Seg) (data : List Byte) (s : State) : State :=
  { s with ops := s.ops ++ [⟨s.nextDev, h.seq, h.port, write, segs, data, false, true⟩], nextDev := s.nextDev + 1 }

/-- MEMW. In recovery it writes the boot flash alone (R438). -/
def execMemw (h : HostHdr) (addr : HostAddr) (data : List Byte) (s : State) : Out :=
  match waitingOp s h true with
  | some op => .next (performOp op s)
  | none =>
    hostCmd (.memw h addr data) h true true (fun s1 =>
      if s1.recovery then
        match addr with
        | .phys pa =>
          if Config.bootFlash pa data.length then respondBulk { s1 with flash := writeBytes s1.flash pa data } h 0 []
          else respondBulk s1 h 4 []
        | .virt _ _ => respondBulk s1 h 4 []
      else if 65526 < data.length then respondBulk s1 h 1 []
      else
        let s2 := walkedHost s1 .write data.length addr
        match hostSegs s1 .write data.length addr with
        | .error (st, l) => respondBulk s2 h st l
        | .ok segs => startOp h true segs data s2) s

/-- MEMR: the response carries the data. -/
def execMemr (h : HostHdr) (addr : HostAddr) (len : Nat) (s : State) : Out :=
  match waitingOp s h false with
  | some op => .next (performOp op s)
  | none =>
    hostCmd (.memr h addr len) h true false (fun s1 =>
      if 65528 < len then respondBulk s1 h 1 []
      else
        let s2 := walkedHost s1 .read len addr
        match hostSegs s1 .read len addr with
        | .error (st, l) => respondBulk s2 h st l
        | .ok segs => startOp h false segs [] s2) s

/-! ## CTXNEW and CTXEND (R404, R406) -/

/-- A descriptor that the package refuses (R404, R435). -/
def descBad (s : State) (desc : List Word) : Bool :=
  let x : Ctx := ⟨true, desc, [], 0⟩
  let d := x.dw 0
  desc.length ≠ 16 || field d 7 6 != 0 || flag d 15 || field d 63 18 != 0 || field (x.dw 1) 63 56 != 0 ||
    field (x.dw 1) 12 0 != 0 || (desc.drop 8).any (fun w => w != 0) || x.mmode == 3 || x.mscope == 0 ||
    (x.gauge && x.mmode == 2) || (x.gauge && !s.accepted.getLsbD 0) || (x.mmode == 2 && !s.accepted.getLsbD 1) ||
    (x.mmode == 1 && !s.accepted.getLsbD 2)

def execCtxnew (h : HostHdr) (desc : List Word) (s : State) : Out :=
  hostCmd (.ctxnew h desc) h false false (fun s1 =>
    let n := field (desc.headD 0) 5 0
    if descBad s1 desc then respond s1 h 1 []
    else if (s1.ctx n).live then respond s1 h 5 []
    else respond (s1.setCtx n ⟨true, desc, [], (s1.ctx n).gen + 1⟩) h 0 []) s

/-- The cores with a job of a context. -/
def coresOf (s : State) (ctx : Nat) : List Nat :=
  (s.cores.map Prod.fst).filter (fun c => (s.core c).job.isSome && (s.core c).ctx == ctx)

/-- The cores of a context whose jobs are not held. -/
def runningOf (s : State) (ctx : Nat) : List Nat := (coresOf s ctx).filter (fun c => !(s.core c).held)

/-- Clusters whose jobs end go on, but for droops and holds. -/
def thawJobs : List Nat → State → State
  | [], s => s
  | g :: t, s =>
    thawJobs t (((s.cluster g).frozen.filter (fun f => match f with | .fault .. | .debug => true | .droop _ | .hold => false)).foldl
      (fun s f => s.thaw g f) s)

/-- Forgets what launches have asked other packages for. -/
def dropImages : List Launch → State → State
  | [], s => s
  | l :: t, s => dropImages t (dropReqs s (.image l.record))

/-- Steps 1 and 2 of ending a context: its records return to built, its running jobs end with fatal status; a launch without a job is
over (R406). -/
def beginEnd (s : State) (ctx : Nat) : State :=
  let mine := s.launches.filter (fun l => (s.lrec l.record).ctx == ctx)
  let idle := mine.filter (fun l => !l.cores.any (fun p => (s.core p.1).job.isSome))
  let s1 := dropImages mine (thawJobs (mine.flatMap Launch.clusters).eraseDups s)
  let s2 : State := { s1 with
    recs := s1.recs.map (fun p => (p.1, if p.2.ctx == ctx && p.2.armed then p.2.setD 0 (setField (p.2.d 0) 9 9 0) else p.2)) }
  killJobs (runningOf s ctx) (leaveLaunches idle s2)

def endHolds (ctx : Nat) : Nat → State → State
  | 0, s => s
  | n + 1, s =>
    match s.holds.findIdx? (fun h => h.ctx == ctx) with
    | some i => endHolds ctx n (endHold s i)
    | none => s

/-- Steps 3 and 4 after its holds have ended: lifelines are discarded, handles are closed, and the slot is free. -/
def endRest (s0 : State) (ctx : Nat) : State :=
  let mine := s0.launches.filter (fun l => (s0.lrec l.record).ctx == ctx)
  let saved := ((s0.lifelines.filter (fun f => f.ctx == ctx)).map Lifeline.launch).filter (fun l =>
    !mine.any (fun m => m.record == l.record))
  let s := leaveLaunches (mine ++ saved) s0
  let s1 : State := { s with
    lifelines := s.lifelines.filter (fun f => f.ctx != ctx), attached := s.attached.filter (fun n => n != ctx) }
  let s2 := closeSlots ctx ((s1.ctx ctx).handles.map Prod.fst) s1
  dropTransAll ctx none (List.range 32) (s2.setCtx ctx ⟨false, [], [], (s2.ctx ctx).gen⟩)

/-- The ending of a context goes on: its holds end once its running jobs have, and the rest follows when no job is left. -/
def finishEnd (s : State) (e : Ending) : State :=
  if !(runningOf s e.ctx).isEmpty then s
  else
    let s1 := endHolds e.ctx s.holds.length s
    if !(coresOf s1 e.ctx).isEmpty then s1
    else
      let s2 := (endRest s1 e.ctx).pump
      let s3 : State := { s2 with endings := s2.endings.filter (fun x => x.ctx != e.ctx) }
      match e.command with
      | some h => respond s3 h 0 []
      | none => s3

def finishEnds : List Ending → State → State
  | [], s => s
  | e :: t, s => finishEnds t (finishEnd s e)

/-- A context begins to end. -/
def startEnd (s : State) (ctx : Nat) (command : Option HostHdr) : State :=
  let e : Ending := ⟨ctx, command⟩
  finishEnd (beginEnd { s with endings := s.endings ++ [e] } ctx) e

/-- The event of a command goes on with an ending: it is that command's, or nothing awaits the ending and it is no new message. -/
def goesOn (s : State) (h : HostHdr) (e : Ending) : Bool :=
  match e.command with
  | some c => c.seq == h.seq
  | none => s.session.phase != .opened || h.seq != s.session.seqIn + 1

/-- A command ends a live context, which may be ending already. -/
def endBy (s : State) (h : HostHdr) (ctxid : Nat) : State :=
  match s.endings.find? (fun e => e.ctx == ctxid) with
  | some e =>
    finishEnd { s with endings := s.endings.map (fun x => if x.ctx == ctxid then { x with command := some h } else x) }
      { e with command := some h }
  | none => startEnd s ctxid (some h)

/-- CTXEND: its event comes again until the jobs of its context have ended. -/
def execCtxend (h : HostHdr) (ctxid : Nat) (s : State) : Out :=
  match s.endings.find? (fun e => e.ctx == ctxid && goesOn s h e) with
  | some e => .next (finishEnd s e)
  | none =>
    hostCmd (.ctxend h ctxid) h false false (fun s1 => if !(s1.ctx ctxid).live then respond s1 h 1 [] else endBy s1 h ctxid) s

/-! ## Launch records -/

/-- The record that RECW leaves: built, with the fields that only the device writes kept (R407). -/
def writtenRec (old : Rec) (dwords : List Word) : Rec :=
  let r : Rec := { old with dw := (dwords.mapIdx (fun k w => (k, w))).filter (fun p => p.2 != 0) }
  (r.setD 0 (setField (dwords.headD 0) 9 8 (1 + 2 * field (old.d 0) 9 9))).setD 14 (old.d 14)

def execRecw (h : HostHdr) (index : Nat) (dwords : List Word) (s : State) : Out :=
  hostCmd (.recw h index dwords) h false false (fun s1 =>
    if 4095 < index || dwords.length ≠ 32 then respond s1 h 1 []
    else if (s1.lrec index).armed then respond s1 h 2 []
    else respond (s1.setLrec index (writtenRec (s1.lrec index) dwords)) h 0 []) s

/-- RECARM arms as LARM does; what would be a fault of LARM is status 3. -/
def execRecarm (h : HostHdr) (index : Nat) (s : State) : Out :=
  hostCmd (.recarm h index) h false false (fun s1 =>
    if 4095 < index then respond s1 h 3 [0x02]
    else
      match armAct s1 index with
      | .error _ => respond s1 h 3 [0x39]
      | .ok (st, s2) => respond s2 h st []) s

/-! ## STATUS and SET -/

/-- What STATUS reports (R431, R434): live contexts, holds of each die, temperatures and power, which the spec gives no value, the gauge
reservation, and the messages that the ring has dropped. -/
def statusItems (s : State) : List (List Nat) :=
  [(s.ctxs.filter (fun p => p.2.live)).map Prod.fst, (List.range 4).map (fun d => (s.holds.filter (fun h => h.die == d)).length),
    (List.range 5).map (fun i => Config.freeNat s.steps (2 ^ 21 + i)), [Config.freeNat s.steps (2 ^ 21 + 5)], [guardBands s],
    [s.ringDropped]]

def execStatus (h : HostHdr) (s : State) : Out :=
  hostCmd (.status h) h false true (fun s1 => respond s1 h 0 ((Config.statusBytes (statusItems s1)).take 65528)) s

def execSetHoldLimit (h : HostHdr) (seconds : Nat) (s : State) : Out :=
  hostCmd (.setHoldLimit h seconds) h false false (fun s1 =>
    if 1 ≤ seconds && seconds ≤ 3600 then respond { s1 with holdLimit := seconds } h 0 [] else respond s1 h 1 []) s

def execSetGaugeBudget (h : HostHdr) (watts : Nat) (s : State) : Out :=
  hostCmd (.setGaugeBudget h watts) h false false (fun s1 =>
    if watts ≤ 224 && watts % 7 = 0 then respond { s1 with gaugeBudget := watts } h 0 [] else respond s1 h 1 []) s

/-- The command types of R431 whose every message is another event: an unlisted subcode of DEBUG (0x31) or item of SET (0x32) is no
command either (DEDUCED, log 86). -/
def knownType (ty : Nat) : Bool := [0x01, 0x02, 0x10, 0x11, 0x20, 0x21, 0x30, 0x38, 0x3F].contains ty

def execUnknownCommandType (h : HostHdr) (ty : Nat) (s : State) : Out :=
  if knownType ty then .next s else hostCmd (.unknownCommandType h ty) h false false (fun s1 => respond s1 h 1 []) s

/-! ## Reset (R437 to R439) -/

/-- A reset: everything as R439 gives it, the incarnation and the boot count up by 1. Slot A runs if it passes, else slot B; when neither
does, the package enters recovery (R437, R438). -/
def warmReset (s : State) : State :=
  let a := slotGood s.flash 0
  let b := slotGood s.flash 1
  { State.reset with
    pkgId := s.pkgId, incarnation := (s.incarnation + 1) % 2 ^ 48, boots := s.boots + 1, flash := s.flash,
    recovery := !a && !b, slot := if !a && b then 1 else 0,
    agenda := s.agenda, turn := s.turn, steps := s.steps, clock := s.clock, toFabric := s.toFabric, toHost := s.toHost }

def execReset (h : HostHdr) (s : State) : Out := hostCmd (.reset h) h false false (fun s1 => warmReset (respond s1 h 0 [])) s

def execPowerUp (s : State) : Out := .next (warmReset s)
def execResetPin (s : State) : Out := .next (warmReset s)

/-! ## The session's ends -/

def execSessionClose (h : HostHdr) (s : State) : Out := hostCmd (.sessionClose h) h false true (fun s1 => endSession (respond s1 h 0 [])) s

/-- SESSION_IDLE_TIMEOUT: 30 s without a message from the host. -/
def execSessionIdleTimeout (s : State) : Out :=
  .next (if s.session.phase = .opened && s.session.last + 30 * secondCycles ≤ s.clock then endSession s else s)

/-- HOST_MESSAGE_DROP: a message with a bad MAC or sequence number. -/
def execHostMessageDrop (s : State) : Out := .next (if s.session.phase = .opened then dropMessage s else s)

/-! ## Heat (R441) -/

/-- Above 105 °C firmware stretches the rib clusters as time passes (`warm`). -/
def execJunctionAbove105 (s : State) : Out := .next (if s.heat = .normal then say { s with heat := .hot } (.thermal 1) else s)

/-- A junction that passes 112 °C has passed 105 °C. -/
def execJunctionAbove112 (s : State) : Out :=
  .next (match s.heat with
    | .normal => say (say { s with heat := .hotter } (.thermal 1)) (.thermal 2)
    | .hot => say { s with heat := .hotter } (.thermal 2)
    | _ => s)

/-- The junction falls below 112 °C, and perhaps below 105 °C; a package that powers down stays so. -/
def execJunctionCooling (below112 below105 : Bool) (s : State) : Out :=
  .next (match s.heat with
    | .down => s
    | _ => if below105 then { s with heat := .normal }
      else if below112 && s.heat = .hotter then { s with heat := .hot } else s)

/-- The messages 0x94 that the junction has been the cause of. -/
def Heat.level : Heat → Nat
  | .normal => 0
  | .hot => 1
  | .hotter => 2
  | .down => 3

/-- The last `n` messages up to level 3, lowest first: each threshold is passed once per entry. -/
def sayThermal : Nat → State → State
  | 0, s => s
  | n + 1, s => sayThermal n (say s (.thermal (3 - n)))

/-- The live contexts that are not ending begin to end. -/
def startEnds : List Nat → State → State
  | [], s => s
  | n :: t, s => startEnds t (if s.endings.any (fun e => e.ctx == n) then s else startEnd s n none)

/-- THERMAL_SHUTDOWN: the message goes out, after those of the thresholds passed on the way, and every live context begins to end as
CTXEND ends it; the event comes again, and when none is left the hello goes out and the dies power down (R441, R460). -/
def execThermalShutdown (s : State) : Out :=
  let live (s : State) : List Nat := (s.ctxs.filter (fun p => p.2.live)).map Prod.fst
  .next (if !s.powered then s
    else
      let s0 := if s.heat = .down then finishEnds s.endings s else sayThermal (3 - s.heat.level) { s with heat := .down }
      let s1 := startEnds (live s0) s0
      if (live s1).isEmpty then { emit s1 (.hello false s.incarnation) with powered := false } else s1)

end Sys2Proof.Machine
end

