-- ==== Sys2Proof/Machine/Debug.lean ====
section
/-! DEFINITION. The host's debugger (R379, R426): attach and detach, stop and resume, and the state that it reads and writes. -/

namespace Sys2Proof.Machine

/-- A debugger's command about a live context. -/
def debugCmd (i : Instr) (h : HostHdr) (ctxid : Nat) (act : State → State) (s : State) : Out :=
  hostCmd i h false false (fun s1 => if !(s1.ctx ctxid).live then respond s1 h 1 [] else act s1) s

def execDebugAttach (h : HostHdr) (ctxid : Nat) (s : State) : Out :=
  debugCmd (.debugAttach h ctxid) h ctxid (fun s1 =>
    respond { s1 with attached := if s1.attached.contains ctxid then s1.attached else ctxid :: s1.attached } h 0 []) s

/-- Detaching ends the holds of the context; with no debugger attached the command is invalid. -/
def execDebugDetach (h : HostHdr) (ctxid : Nat) (s : State) : Out :=
  debugCmd (.debugDetach h ctxid) h ctxid (fun s1 =>
    if !s1.attached.contains ctxid then respond s1 h 1 []
    else
      let s2 : State := { s1 with attached := s1.attached.filter (fun n => n != ctxid) }
      respond (endHolds ctxid s2.holds.length s2) h 0 []) s

/-- A debugger's command about the job of a core. -/
def debugJob (i : Instr) (h : HostHdr) (ctxid core : Nat) (act : State → State) (s : State) : Out :=
  debugCmd i h ctxid (fun s1 =>
    let k := s1.core core
    if !coreExists core || k.job.isNone || k.ctx != ctxid then respond s1 h 1 [] else act s1) s

/-! ## Stop and resume -/

def AccFmt.code : AccFmt → Byte
  | .f32 => 0
  | .s32 => 1
  | .anc => 2

def spCode : AncSp → Byte
  | .empty => 0
  | .plain => 1
  | .negZeros => 2
  | .pinf => 3
  | .ninf => 4
  | .nan => 5

/-- A cell of format anc: its 12 bytes, and its state in one. -/
def cellBytes (x : AncCell) : List Byte := bytesOf 12 (wrapTo 96 x.n) ++ [spCode x.sp]

/-- The destination code of a result in flight, in the codes of R48: those of s registers count from 32, of predicates from 96, of q queues
from 72, and of accumulator rows, 256 to each, from 1024 (DESIGN CHOICE, log 64). -/
def PendOp.destCode : PendOp → Option Nat
  | .scalar d _ _ | .load d _ _ _ _ | .amo d _ _ _ _ _ _ => some (32 + d)
  | .vector d _ _ _ _ => some d
  | .push w _ _ _ _ _ => some (64 + w)
  | .half h _ _ _ => some (88 + h)
  | .pred p _ _ _ _ => some (96 + p)
  | .entry q _ _ _ _ _ => some (72 + q)
  | .bad d _ _ => d.map (fun r => 32 + r)
  | .store .. | .toTile .. => none

/-- The value of a result in flight, where the machine has it already. -/
def PendOp.known : PendOp → Option Nat
  | .scalar _ v _ => some v.toNat
  | .vector _ v _ _ _ | .push _ _ v _ _ _ | .half _ v _ _ => some v.toNat
  | .pred _ v _ _ _ => some v.toNat
  | .load _ _ _ _ (some l) => some (natOf l)
  | .entry _ _ _ (some (.bytes v)) _ _ => some v.toNat
  | _ => none

/-- The value that a CSCAN brings to a core, once every contribution has come (R190). -/
def scanKnown (s : State) (c : Nat) (sc : Scan) : Option Nat :=
  match s.launchOf c with
  | none => none
  | some l => match instanceOf l sc c with
    | none | some [] => none
    | some (x :: t) => some (scanValue sc.ty sc.op (s.core c).lidx x.h (x :: t)).1.toNat

/-- An accumulator row as a number: its 2,048 bits, or in format anc its 64 cells of 13 bytes, as a debugger reads them. -/
def AccTile.rowNumber (t : AccTile) (r : Nat) : Nat :=
  match t.fmt with
  | .anc => natOf ((List.range 64).flatMap (fun n => cellBytes (tget (t.row r).cells n AncCell.zero)))
  | _ => (t.row r).bits.toNat

/-- The rows in the array that will write an accumulator row, with what each will leave there: accumulator, row, sequence number, value. -/
def resultsFrom (k : Core) : List Passage → List (Nat × Nat × Nat × Nat)
  | [] => []
  | p :: t =>
    let k1 := writeRow k 0 p
    match p.op, p.target with
    | .run acc _ _ _ _ _ _ _, some r => (acc, r, p.row.seq, (k1.accTile acc).rowNumber r) :: resultsFrom k1 t
    | _, _ => resultsFrom k1 t

def rowResults (k : Core) : List (Nat × Nat × Nat × Nat) := resultsFrom k k.ms.array

/-- The results in flight on a core: core, engine, destination code, remaining cycles and value. Cycles are no part of the model (log 8),
and a result that memory or other cores have yet to give has no value: both are free. -/
def dumpOf (s : State) (c : Nat) : List (List Nat) :=
  let k := s.core c
  let free (i : Nat) : Nat := Config.freeNat s.steps (2 ^ 22 + 4096 * c + i)
  let entry (e : Eng) (code i : Nat) (v : Option Nat) : List Nat := [c, e.code, code, free (2 * i), v.getD (free (2 * i + 1))]
  let pends := [Eng.a, Eng.x, Eng.m].flatMap (fun e =>
    (k.stream e).pend.filterMap (fun p => p.op.destCode.map (fun d => entry e d p.id p.op.known)))
  let scans := k.xs.scans.map (fun x => entry .x x.d.code x.id (scanKnown s c x))
  let rows := (rowResults k).map (fun r => entry .m (1024 + 256 * r.1 + r.2.1) r.2.2.1 (some r.2.2.2))
  pends ++ scans ++ rows

/-- An OPEN on an awaited name leaves the waiters and is issued again (R398). -/
def stopWaiter (s : State) (c : Nat) : State :=
  match (s.core c).a.at_ with
  | .awaiting _ => let s1 := unwait s c; s1.setCore c { s1.core c with a := (s1.core c).a.saved }
  | _ => s

def stopWaiters : List Nat → State → State
  | [], s => s
  | c :: t, s => stopWaiters t (stopWaiter s c)

/-- A stop: in rib mode every stream of the job stops at its next boundary; in gauge mode the whole domain freezes, and the response
carries the dump of what is in flight. An IDLE that stands in a rib stop is issued again with its full count (R149); in a gauge stop it
keeps its rest, since every later cycle count is unchanged (R426; R149 names any debug stop: DEDUCED, log 64). -/
def execDebugStop (h : HostHdr) (ctxid core : Nat) (s : State) : Out :=
  debugJob (.debugStop h ctxid core) h ctxid core (fun s1 =>
    if (s1.ctx ctxid).gauge then
      let d := s1.domain ctxid (dieOf core)
      let cs := (coresOf s1 ctxid).filter (fun c => d.contains (clusterOf c))
      if (s1.cluster (clusterOf core)).frozen.contains .debug then respond s1 h 0 []
      else respond (freezeAll .debug d (stopWaiters cs s1)) h 0 ((Config.dumpBytes (cs.flatMap (dumpOf s1))).take 65528)
    else
      let s2 := unissue s1 core
      respond (s2.setCore core { s2.core core with stopped := true }) h 0 []) s

def execDebugResume (h : HostHdr) (ctxid core : Nat) (s : State) : Out :=
  debugJob (.debugResume h ctxid core) h ctxid core (fun s1 =>
    if (s1.ctx ctxid).gauge then respond (thawAll .debug (s1.domain ctxid (dieOf core)) s1) h 0 []
    else respond (s1.setCore core { s1.core core with stopped := false }) h 0 []) s

/-! ## Reading and writing -/

/-- A held or stopped job. -/
def reachable (s : State) (core : Nat) : Bool :=
  let k := s.core core
  k.held || k.stopped || (s.cluster (clusterOf core)).frozen.contains .debug || (s.cluster (clusterOf core)).frozen.contains .hold

def scalarCount (e : Eng) : Nat := match e with | .m => 16 | _ => 32

/-- An integer in 8 bytes, as a two's complement. -/
def intBytes (i : Int) : List Byte := bytesOf 8 (wrapTo 64 i)

/-- The type in which a debugger sees a weight: that of its buffer, f32 for k4. -/
def WBuf.shown (b : WBuf) : Ty := if b.ty = .k4 then .f32 else b.ty

def bitByte (b : Bool) : List Byte := [if b then 1 else 0]

/-- The bytes of an item; none for one that does not exist. What is empty or invalid has no bytes. An
uncorrectable error in what is read is no cause here: the bytes are answered (R10 names streams alone; DESIGN CHOICE, log 64). -/
def debugRead (s : State) (c : Nat) (item : DebugItem) : Option (List Byte) :=
  let k := s.core c
  match item with
  | .pc e => some (bytesOf 8 (k.stream e).pc.toNat)
  | .scalar e n => if n < scalarCount e then some (bytesOf 8 ((k.stream e).reg n).toNat) else none
  | .special e n => if (sview e true n).isSome then some (bytesOf 8 (sread s ⟨c, e⟩ n).toNat) else none
  | .vector n => if n < 32 then some (bytesOfVec (k.vec n)) else none
  | .predicate n => if n < 64 then some (bytesOf 64 (k.pred n).toNat) else none
  | .mailbox n => if n < 8 then some (match tfind k.mbox n with | some v => bytesOf 8 v.value.toNat | none => []) else none
  | .tileByte n => if n < tileBytes then some [readB k.tile n] else none
  | .owner t => if t < 128 then some [if k.ownM.contains t then 1 else 0] else none
  | .half n => if n < 8 then some (bytesOfVec (tget k.ms.e n 0)) else none
  | .accRow a r => if a < 4 && r < 256 then some (bytesOf 256 ((k.accTile a).row r).bits.toNat) else none
  | .token f => if f < 6 then some [BitVec.ofNat 8 (k.token f)] else none
  | .handle n => if n < 16 then some (match tfind k.as.h n with | some x => bytesOf 2 x | none => []) else none
  | .qEntry q i =>
    if 16 ≤ q then none
    else (k.qOf q)[i]?.map (fun e => match e.data with
      | some (.bytes v) => bytesOfVec v
      | some (.error cause tval) => bytesOf 8 cause ++ bytesOf 8 tval.toNat
      | none => [])
  | .wEntry w i =>
    if 8 ≤ w then none
    else (k.wOf w)[i]?.map (fun e => match e.data with
      | some (v, p) => bytesOfVec v ++ bytesOf 64 p.toNat
      | none => [])
  | .loopEntry e i =>
    (k.stream e).loops[i]?.map (fun l =>
      bytesOf 8 l.start.toNat ++ bytesOf 8 l.stop.toNat ++ [BitVec.ofNat 8 l.ctr, if l.pipelined then 1 else 0])
  | .copyLevel n =>
    if 6 ≤ n then none
    else let l := tget k.as.levels n ⟨1, 0, 0⟩; some (bytesOf 8 l.count ++ intBytes l.src ++ intBytes l.dst)
  | .weight wb j n =>
    if 2 ≤ wb || 64 ≤ j || 64 ≤ n then none
    else some (match tfind k.ms.wb wb with
      | some b => bytesOf b.shown.width (numTo b.shown rmRne (tget b.w (j * 64 + n) (.fin false 0 0))).1
      | none => [])
  | .scalarFull e n => if n < scalarCount e then some (bitByte (!(k.stream e).empty.contains n)) else none
  | .vectorFull n => if n < 32 then some (bitByte (!k.xs.vempty.contains (k.phys n))) else none
  | .halfFull n => if n < 8 then some (bitByte (k.ms.efull.contains n)) else none
  | .accFormat a => if a < 4 then some [(k.accTile a).fmt.code] else none
  | .accAnchor a r => if a < 4 && r < 256 then some (intBytes ((k.accTile a).row r).anchor) else none
  | .accCell a r n =>
    if a < 4 && r < 256 && n < 64 then
      some (cellBytes (tget ((k.accTile a).row r).cells n AncCell.zero))
    else none
  | .bank b => if b < 2 then some (bytesOf 8 (k.bank b).gen ++ [BitVec.ofNat 8 (k.bank b).e]) else none
  | .bankEntry b i => if b < 2 && i < 256 then some (bytesOf 8 ((k.bank b).table.getD i 0).toNat) else none

/-- The bits of a value from `lo` on, as a word. -/
def wordAt (v : Vec) (lo : Nat) : Word := BitVec.ofNat 64 (v.toNat / 2 ^ lo)

/-- Writes an entry of a list. -/
def setAt {α : Type} (l : List α) (i : Nat) (f : α → α) : Option (List α) :=
  if i < l.length then some (l.mapIdx (fun j x => if j = i then f x else x)) else none

/-- A list of marked numbers with or without a number. -/
def markFull (clear : Bool) (n : Nat) (l : List Nat) : List Nat :=
  if clear then l.filter (fun x => x != n) else n :: l.filter (fun x => x != n)

/-- Writes an item; none where it does not exist or cannot hold the value. A result in flight overwrites it as it lands, and marks of
uncorrectable errors stay (DESIGN CHOICE, log 64). -/
def debugWrite (s : State) (c : Nat) (item : DebugItem) (value : Vec) : Option State :=
  let k := s.core c
  let v := wordAt value 0
  match item with
  | .pc e => if v.toNat % 4 = 0 then some (s.setCore c (k.setStream e { k.stream e with pc := v })) else none
  | .scalar e n =>
    if n = 0 || scalarCount e ≤ n then none
    else some (s.setCore c (k.setStream e { k.stream e with regs := tset (k.stream e).regs n v }))
  | .special e n =>
    if sview e true n = some .readWrite && !sreserved n v && !(n == 0x011 && (v.toNat = 0 || decide (4 < v.toNat))) then
      some (swrite s ⟨c, e⟩ n v)
    else none
  | .vector n => if n < 32 then some (s.setCore c (k.setVecPhys (k.phys n) value)) else none
  | .predicate n => if n < 64 then some (s.setCore c (k.setPredNow n (value.setWidth 512))) else none
  | .mailbox n => if n < 8 then some (s.setCore c { k with mbox := tset k.mbox n ⟨v, false, 0, 0⟩ }) else none
  | .tileByte n => if n < tileBytes then some (s.setCore c { k with tile := writeB k.tile n (value.setWidth 8) }) else none
  | .owner t =>
    let rest := k.ownM.filter (fun x => x != t)
    if t < 128 && v.toNat < 2 then some (s.setCore c { k with ownM := if v = 1 then t :: rest else rest }) else none
  | .half n => if n < 8 then some (s.setCore c (k.setHalf n value)) else none
  | .accRow a r =>
    if a < 4 && r < 256 then
      let t := k.accTile a
      some (s.setCore c (k.setTile a (t.setRow r { t.row r with bits := value.setWidth 2048 })))
    else none
  | .token f =>
    if f < 6 && v.toNat + k.slots f ≤ 16 then some (s.setCore c { k with tokens := tset k.tokens f v.toNat }) else none
  | .handle n =>
    if 16 ≤ n then none
    else if v = BitVec.allOnes 64 then some (s.setCore c { k with as := { k.as with h := tdel k.as.h n } })
    else if (tfind (s.ctx k.ctx).handles v.toNat).isSome then
      some (s.setCore c { k with as := { k.as with h := tset k.as.h n v.toNat } })
    else none
  | .qEntry q i =>
    if 16 ≤ q then none
    else (setAt (k.qOf q) i (fun e => { e with data := some (.bytes value) })).map (fun l => s.setCore c (k.setQ q l))
  | .wEntry w i =>
    if 8 ≤ w then none
    else (setAt (k.wOf w) i (fun e => { e with data := some (value, match e.data with | some d => d.2 | none => BitVec.allOnes 512) })).map
      (fun l => s.setCore c (k.setW w l))
  | .loopEntry e i =>
    if v.toNat % 4 != 0 || (wordAt value 64).toNat % 4 != 0 then none
    else
      (setAt (k.stream e).loops i (fun l => { l with start := v, stop := wordAt value 64, ctr := (wordAt value 128).toNat % 32 })).map
        (fun l => s.setCore c (k.setLoops e l))
  | .copyLevel n =>
    if 6 ≤ n || 2 ^ 32 ≤ v.toNat then none
    else
      some (s.setCore c { k with as := { k.as with
        levels := tset k.as.levels n ⟨v.toNat, (wordAt value 64).toInt, (wordAt value 128).toInt⟩ } })
  | .weight wb j n =>
    match tfind k.ms.wb wb with
    | none => none
    | some b =>
      if 64 ≤ j || 64 ≤ n then none
      else
        let x := elemNum b.shown (value.toNat % 2 ^ (8 * b.shown.width))
        some (s.setCore c { k with ms := { k.ms with wb := tset k.ms.wb wb { b with w := tset b.w (j * 64 + n) x } } })
  | .scalarFull e n =>
    if n = 0 || scalarCount e ≤ n || 1 < v.toNat then none
    else some (s.setCore c (k.setStream e { k.stream e with empty := markFull (v.toNat == 1) n (k.stream e).empty }))
  | .vectorFull n =>
    if 32 ≤ n || 1 < v.toNat then none
    else some (s.setCore c { k with xs := { k.xs with vempty := markFull (v.toNat == 1) (k.phys n) k.xs.vempty } })
  | .halfFull n =>
    if 8 ≤ n || 1 < v.toNat then none
    else some (s.setCore c { k with ms := { k.ms with efull := markFull (v.toNat == 0) n k.ms.efull } })
  | .accFormat a =>
    match [AccFmt.f32, .s32, .anc].find? (fun f => f.code.toNat == v.toNat) with
    | some f => if a < 4 then some (s.setCore c (k.setTile a { k.accTile a with fmt := f })) else none
    | none => none
  | .accAnchor a r =>
    if 4 ≤ a || 256 ≤ r then none
    else let t := k.accTile a; some (s.setCore c (k.setTile a (t.setRow r { t.row r with anchor := v.toInt })))
  | .accCell a r n =>
    match [AncSp.empty, .plain, .negZeros, .pinf, .ninf, .nan].find? (fun x => (spCode x).toNat == (wordAt value 96).toNat % 256) with
    | some sp =>
      if 4 ≤ a || 256 ≤ r || 64 ≤ n then none
      else
        let t := k.accTile a
        let x : AncCell := ⟨signedField (value.toNat % 2 ^ 96) 96, sp⟩
        some (s.setCore c (k.setTile a (t.setRow r { t.row r with cells := tset (t.row r).cells n x })))
    | none => none
  | .bank b =>
    let e := (wordAt value 64).toNat % 256
    if 2 ≤ b || e = 0 || 4 < e then none
    else some (s.setCore c { k with as := { k.as with banks := tset k.as.banks b { k.bank b with gen := v.toNat, e := e } } })
  | .bankEntry b i =>
    if 2 ≤ b || 256 ≤ i then none
    else
      let l := (List.range 256).map (fun j => if j = i then v else (k.bank b).table.getD j 0)
      some (s.setCore c { k with as := { k.as with banks := tset k.as.banks b { k.bank b with table := l } } })

def execDebugReadState (h : HostHdr) (ctxid core : Nat) (item : DebugItem) (s : State) : Out :=
  debugJob (.debugReadState h ctxid core item) h ctxid core (fun s1 =>
    if !reachable s1 core then respond s1 h 1 []
    else
      match debugRead s1 core item with
      | some l => respond s1 h 0 l
      | none => respond s1 h 1 []) s

def execDebugWriteState (h : HostHdr) (ctxid core : Nat) (item : DebugItem) (value : Vec) (s : State) : Out :=
  debugJob (.debugWriteState h ctxid core item value) h ctxid core (fun s1 =>
    if !reachable s1 core then respond s1 h 1 []
    else
      match debugWrite s1 core item value with
      | some s2 => respond s2 h 0 []
      | none => respond s1 h 1 []) s

end Sys2Proof.Machine
end

