-- ==== Sys2Proof/Machine/Fabric.lean ====
section
/-! DEFINITION. The Rharov fabric as one package sees it: links (R442 to R447, R455), requests from other packages (R448 to R450,
R461), responses (R463, R464), mailbox writes (R452, R453), releases (R465, R466), barriers and dispatch (R418, R419, R456 to
R459), and peers (R460). A message whose package is another one is no event of this package. -/

namespace Sys2Proof.Machine

/-! ## Peers and outstanding requests -/

/-- Completes the requests that a test selects and that have no reply yet as nacked with 0x48. -/
def failReqs (p : OutReq → Bool) (s : State) : State :=
  { s with requests := s.requests.map (fun q => if p q && q.reply.isNone then { q with reply := some (.nack 0x48) } else q) }

/-- The host's commands and the device's own writes go on with the replies that have come. -/
def wakeHost (s : State) : State := (finishOps s.ops s).pump

/-- The mailbox writes that a test selects and that have not left their ports are lost, and counted (R453). -/
def loseMail (p : MboxMsg → Bool) (s : State) : State :=
  { s with
    lostMail := s.lostMail + (s.cores.map (fun q => (q.2.outbound.filter p).length)).sum,
    cores := s.cores.map (fun q => (q.1, { q.2 with outbound := q.2.outbound.filter (fun m => !p m) })) }

/-- Of the mailbox writes that have left for a package those that had not been delivered are lost with it and counted: how many is free
(R453, log 22). -/
def loseSent (s : State) (pkg : Nat) : State :=
  { s with
    lostMail := s.lostMail + Config.freeNat s.steps (2 ^ 24 + pkg) % (tget s.sentMail pkg 0 + 1),
    sentMail := tdel s.sentMail pkg }

/-- A peer is marked down, and every request outstanding to it completes with 0x48 (R460, R464). -/
def peerDown (s : State) (pkg : Nat) : State :=
  wakeHost (failReqs (fun q => q.dst == pkg)
    (loseMail (fun m => m.dstPkg == pkg) { loseSent s pkg with peers := tset s.peers pkg { s.peer pkg with up := false } }))

def peersDown : List Nat → State → State
  | [], s => s
  | p :: t, s => peersDown t (peerDown s p)

/-- This hub hears from a package. -/
def hear (s : State) (pkg : Nat) : State := { s with peers := tset s.peers pkg { s.peer pkg with heard := s.clock } }

/-- HELLO (R460): a peer comes up with its incarnation, or goes down. Requests sent to an earlier incarnation fail, and mailbox writes
for it are lost (R453, R463). -/
def execHello (pkg : Nat) (up : Bool) (inc : Nat) (s : State) : Out :=
  .next (if pkg = s.pkgId || 4096 ≤ pkg then s
    else if !up then peerDown s pkg
    else
      let s1 := if (s.peer pkg).inc = inc then s
        else failReqs (fun q => q.dst == pkg) (loseMail (fun m => m.dstPkg == pkg && m.inc != inc % 2 ^ 48) (loseSent s pkg))
      wakeHost { s1 with peers := tset s1.peers pkg ⟨true, inc % 2 ^ 48, s1.clock⟩ })

/-- Nominal cycles in 10 µs (R336). -/
def tenMicros : Nat := 13000

/-- PEER_SILENCE_TIMEOUT: nothing heard for 100 µs while requests are outstanding. -/
def execPeerSilenceTimeout (pkg : Nat) (s : State) : Out :=
  .next (if (s.peer pkg).up && s.requests.any (fun q => q.dst == pkg && q.reply.isNone) &&
    (s.peer pkg).heard + 10 * tenMicros ≤ s.clock then peerDown s pkg else s)

/-- REQUEST_TIMEOUT: no response within 100 µs of the sending. -/
def execRequestTimeout (tid : Nat) (s : State) : Out :=
  .next (wakeHost (failReqs (fun q => q.tid == tid && decide (q.sent + 10 * tenMicros ≤ s.clock)) s))

/-! ## Links (R442, R445, R447, R455) -/

def State.port (s : State) (p : Nat) : Port := tget s.ports p ⟨false, [], 0⟩
def State.setPort (s : State) (p : Nat) (x : Port) : State := { s with ports := tset s.ports p x }

/-- An event of one of the 36 ports. -/
def portEvent (port : Nat) (s : State) (act : State → State) : Out := if 36 ≤ port then .fault .noSuchUnit else .next (act s)

def addRoutes (port : Nat) : List Nat → State → State
  | [], s => s
  | id :: t, s =>
    let old := tget s.routes id []
    addRoutes port t (if id < 4096 && id != s.pkgId && !old.contains port then { s with routes := tset s.routes id (old ++ [port]) } else s)

/-- LINK_UP: the link comes up with all its lanes, firmware writes the routes, and a hello goes out. -/
def execLinkUp (port : Nat) (ids : List Nat) (s : State) : Out :=
  portEvent port s (fun s =>
    emit (addRoutes port ids (s.setPort port { s.port port with up := true, lanesLost := [] })) (.hello true s.incarnation))

/-- The link goes down: no route uses its port, and a peer whose last route it was is marked down. -/
def dropLink (s : State) (port : Nat) : State :=
  let s1 := s.setPort port { s.port port with up := false }
  let gone := (s1.routes.filter (fun p => p.2 == [port])).map Prod.fst
  peersDown gone { s1 with routes := (s1.routes.map (fun p => (p.1, p.2.filter (fun q => q != port)))).filter (fun p => !p.2.isEmpty) }

def execLinkDown (port : Nat) (s : State) : Out := portEvent port s (fun s => if (s.port port).up then dropLink s port else s)

/-- FLIT_REPLAY only delays delivery. -/
def execFlitReplay (port : Nat) (s : State) : Out := portEvent port s id

/-- LANE_LOCK_TIMEOUT: a lane has had no lock for 10 µs, and its link goes down. -/
def execLaneLockTimeout (port lane : Nat) (s : State) : Out :=
  if 4 ≤ lane then .fault .noSuchUnit
  else
    portEvent port s (fun s =>
      let x := s.port port
      if !x.up then s else dropLink (s.setPort port { x with lanesLost := lane :: x.lanesLost.filter (fun l => l != lane) }) port)

def countWindows : List Nat → State → State
  | [], s => s
  | p :: t, s => countWindows t (if p < 36 then s.setPort p { s.port p with windows := (s.port p).windows + 1 } else s)

/-- CLASS0_WINDOW_END: the ports at which a condition of R454 failed count it. -/
def execClass0WindowEnd (failed : List Nat) (s : State) : Out := .next (countWindows failed s)

/-- RESERVED_OP_MESSAGE: the hub drops and counts it (R444). -/
def execReservedOpMessage (port : Nat) (s : State) : Out :=
  portEvent port s (fun s => { s with fabDropped := s.fabDropped + 1 })

/-! ## Requests from other packages (R448 to R450, R461) -/

/-- The local address of a request: the replica of the die with the index of the source core's (R362). -/
def reqHome (r : FabReq) : Nat := if r.rep then replicaOf (dieOf r.core) r.pa else r.pa

/-- A request of another package to this one: nacked where its incarnation is another or its bytes have no home, else done. -/
def serve (s : State) (r : FabReq) (act : State → State) : Out :=
  let nack (c : Nat) : State := emit s (.nack r.srcPkg r.tid c)
  if r.dstPkg ≠ s.pkgId || r.srcPkg = s.pkgId then .next s
  else if r.inc % 65536 ≠ s.incarnation % 65536 then .next (nack 0x48)
  else if !assigned (reqHome r) || rangeEnd (reqHome r) < (reqHome r) + r.size then .next (nack 0x10)
  else .next (act s)

def execReadRequest (r : FabReq) (s : State) : Out :=
  serve s r (fun s =>
    match readBad s (reqHome r) r.size with
    | some c => emit s (.nack r.srcPkg r.tid c)
    | none => let d := readLocal s (reqHome r) r.size; emit d.2 (.data r.srcPkg r.tid d.1))

/-- A word that another package's write may leave in a shadow: its core, and a context, a scope and an interval that no request names. -/
def foreignWord (s : State) (r : FabReq) (sec : Nat) : BitVec 40 :=
  let free (i n : Nat) : Nat := Config.freeNat s.steps (2 ^ 46 + 4 * sec + i) % 2 ^ n
  BitVec.ofNat 40 (free 0 2 * 2 ^ 36 + free 1 16 * 2 ^ 20 + free 2 6 * 2 ^ 14 + r.core * 2 ^ 5 + r.srcPkg % 32)

def foreignShadows (r : FabReq) : List Nat → State → State
  | [], s => s
  | sec :: t, s =>
    foreignShadows r t (if Config.freeBool s.steps (2 ^ 46 + sec) then { s with shadow := tset s.shadow sec (foreignWord s r sec) } else s)

/-- A write of another package to a race page updates the shadow of its sectors if its party is of a detect context, which the request
does not say (R366, R443; log 79). -/
def foreignWrite (s : State) (r : FabReq) : State := if r.race then foreignShadows r (sectorsIn r.pa r.size) s else s

def execWriteRequest (r : FabReq) (s : State) : Out :=
  serve s r (fun s =>
    if storeBad s r.pa r.size then emit s (.nack r.srcPkg r.tid 0x50)
    else emit (foreignWrite (storeLocal s r.cmp r.pa (r.data.take r.size) (List.replicate r.size true)) r) (.ack r.srcPkg r.tid))

/-- The operation that an atomic request carries. -/
def reqAmo (r : FabReq) : AmoOp :=
  if r.op = 15 then .cas (BitVec.ofNat 64 (natOf (r.data.take r.size))) (BitVec.ofNat 64 (natOf (r.data.drop r.size)))
  else .rmw r.op (BitVec.ofNat 64 (natOf (r.data.take r.size)))

/-- Performs an atomic request at its home, as a partial store of its controller whatever it writes (R387); the response carries the old
value. -/
def doAtomic (s : State) (r : FabReq) : State :=
  if storeBad s r.pa r.size then emit s (.nack r.srcPkg r.tid 0x50)
  else
    match readBad s r.pa r.size with
    | some c => emit s (.nack r.srcPkg r.tid c)
    | none =>
      let old := readBytes s.mem r.pa r.size
      emit (foreignWrite (storeLocal s r.cmp r.pa (bytesOf r.size (amoNew r.size (reqAmo r) (natOf old))) (List.replicate r.size true)) r)
        (.data r.srcPkg r.tid old)

/-- The clear or cancel of a release that came before it. -/
def earlyWord (s : State) (pkg core epoch : Nat) : Option Bool :=
  (s.clears.find? (fun c => c.1 == pkg && c.2.1 == core && c.2.2.1 == epoch)).map (fun c => c.2.2.2)

def dropEarly (s : State) (pkg core epoch : Nat) : State :=
  { s with clears := s.clears.filter (fun c => !(c.1 == pkg && c.2.1 == core && c.2.2.1 == epoch)) }

/-- ATOMIC_REQUEST: a release is held until it is cleared (R465). -/
def execAtomicRequest (r : FabReq) (s : State) : Out :=
  serve s r (fun s =>
    if r.epoch = 0 then doAtomic s r
    else
      match earlyWord s r.srcPkg r.core (r.epoch - 1) with
      | some true => doAtomic (dropEarly s r.srcPkg r.core (r.epoch - 1)) r
      | some false => dropEarly s r.srcPkg r.core (r.epoch - 1)
      | none => { s with releases := s.releases ++ [.atomic r] })

/-! ## Responses (R449, R450, R464) -/

/-- A response to request `tid`; one to no outstanding request is dropped and counted. -/
def answer (s : State) (tid : Nat) (fits : OutReq → Bool) (reply : Reply) : State :=
  match s.requests.find? (fun q => q.tid == tid && q.reply.isNone) with
  | none => { s with lateResponses := s.lateResponses + 1 }
  | some q =>
    if !fits q then { s with fabDropped := s.fabDropped + 1 }
    else
      wakeHost (hear { s with requests := s.requests.map (fun p => if p == q then { p with reply := some reply } else p) } q.dst)

/-- READ_RESPONSE: the bytes of a read, or the old value of an atomic. -/
def execReadResponse (tid : Nat) (data : List Byte) (s : State) : Out :=
  .next (answer s tid (fun q => q.len == data.length) (.data data))

def execAcknowledgement (tid : Nat) (s : State) : Out := .next (answer s tid (fun q => q.write) .ack)

/-- The cause codes of R8's table: every other one is reserved and never raised (R9). -/
def causeCodes : List Nat :=
  [0x01, 0x02, 0x03, 0x04, 0x05, 0x06, 0x07, 0x09, 0x10, 0x11, 0x12, 0x13, 0x14, 0x15, 0x16, 0x17, 0x20, 0x21, 0x22, 0x23, 0x24, 0x25,
    0x30, 0x31, 0x38, 0x39, 0x40, 0x48, 0x49, 0x4A, 0x50, 0x51, 0x60]

/-- A nack carries the cause of its target, which is one of R8's table: no other message of this name exists (R8, R9). -/
def execNack (tid cause : Nat) (s : State) : Out :=
  .next (if causeCodes.contains cause then answer s tid (fun _ => true) (.nack cause) else s)

/-! ## Mailbox writes (R452, R453) and releases (R465, R466) -/

/-- A mailbox write from another package: a release waits at its ordering point, any other one for its core. One with bits [15:0] of an
earlier incarnation of this package is lost with that (R443, R453). -/
def receiveMail (s : State) (m : MboxMsg) : State :=
  if m.dstPkg ≠ s.pkgId || m.srcPkg = s.pkgId || 512 ≤ m.dstCore || m.inc % 65536 ≠ s.incarnation % 65536 then s
  else if m.rel = 0 then { s with inbound := s.inbound ++ [m] }
  else
    match earlyWord s m.srcPkg m.srcCore (m.rel - 1) with
    | some true => { dropEarly s m.srcPkg m.srcCore (m.rel - 1) with inbound := s.inbound ++ [m] }
    | some false => dropEarly s m.srcPkg m.srcCore (m.rel - 1)
    | none => { s with releases := s.releases ++ [.mail m] }

/-- The first write of a list that goes to another package, with its place. -/
def firstAway (s : State) (l : List MboxMsg) : Option (Nat × MboxMsg) :=
  (l.mapIdx (fun i m => (i, m))).find? (fun p => p.2.dstPkg != s.pkgId)

/-- The oldest write of a core's outbound port to another package leaves, its clear behind it where nothing holds it back; to
a package that is down it is lost and counted. -/
def sendAway (s : State) (core : Nat) : State :=
  match firstAway s (s.core core).outbound with
  | none => s
  | some (i, m) =>
    let k := s.core core
    let s1 := s.setCore core { k with outbound := ldel k.outbound i }
    if !(s.peer m.dstPkg).up then { s1 with lostMail := s1.lostMail + 1 }
    else
      let s2 := emit { s1 with sentMail := tset s1.sentMail m.dstPkg (tget s1.sentMail m.dstPkg 0 + 1) } (.mailbox m)
      if m.rel != 0 && !heldRel s2 core m.rel then emit s2 (.clear m.dstPkg core (m.rel - 1)) else s2

def execMailboxWrite (m : Option MboxMsg) (core : Nat) (s : State) : Out :=
  match m with
  | some x => .next (receiveMail s x)
  | none => if !coreExists core then .fault .noSuchUnit else .next (sendAway s core)

/-- A release that this hub holds, by its source. -/
def Release.is (pkg core epoch : Nat) : Release → Bool
  | .atomic r => r.srcPkg == pkg && r.core == core && r.epoch == epoch + 1
  | .mail m => m.srcPkg == pkg && m.srcCore == core && m.rel == epoch + 1

/-- A mailbox write of a core to itself. -/
def mailToSelf (m : MboxMsg) : Bool := m.srcPkg == m.dstPkg && m.srcCore == m.dstCore

/-- A cleared release is performed: a core's write to itself enters the mailbox that is kept for it (R134). -/
def performRelease (s : State) : Release → State
  | .atomic r => doAtomic s r
  | .mail m =>
    if mailToSelf m then
      let k := s.core m.dstCore
      s.setCore m.dstCore { k with mbox := tset k.mbox m.mbox (mailVal m) }
    else { s with inbound := s.inbound ++ [m] }

/-- A held release that must wait: it enters a core that stands still. -/
def releaseStill (s : State) : Release → Bool
  | .atomic _ => false
  | .mail m => mailToSelf m && s.still m.dstCore

/-- RELEASE_CLEAR: the held release is performed. A release of this package is cleared once its stores are acknowledged. -/
def execReleaseClear (srcPkg core epoch : Nat) (s : State) : Out :=
  .next (if srcPkg = s.pkgId && s.relActs.any (fun r => r.core == core && r.epoch == epoch) then s
    else
      match s.releases.find? (Release.is srcPkg core epoch) with
      | none => if srcPkg = s.pkgId then s else { s with clears := (srcPkg, core, epoch, true) :: s.clears }
      | some x =>
        if releaseStill s x then s
        else performRelease { s with releases := s.releases.filter (fun y => y != x) } x)

/-- RELEASE_CANCEL: the held release is never performed. -/
def execReleaseCancel (srcPkg core epoch : Nat) (s : State) : Out :=
  .next (if srcPkg = s.pkgId then s
    else if s.releases.any (Release.is srcPkg core epoch) then
      { s with releases := s.releases.filter (fun y => !Release.is srcPkg core epoch y) }
    else { s with clears := (srcPkg, core, epoch, false) :: s.clears })

/-! ## Barriers (R456, R459) -/

/-- The part of another package has ended before its wave has started: images could not be read there, and every job of the wave ends with
fatal status (R416). -/
def wholeWaveFails (s : State) (record : Nat) : State :=
  partEnded (s.mapAway record (fun l =>
    { l with done := l.cores.map Prod.fst, endedOn := l.packages.filter (fun p => p != s.pkgId) })) record s.pkgId

/-- A launch that has been left here, from which a package's part of the present wave has not been heard. -/
def leftFor (s : State) (srcPkg record arrived : Nat) : Option Launch :=
  s.leftLaunches.find? (fun l => l.record == record && l.wave == arrived && l.packages.contains srcPkg && !l.endedOn.contains srcPkg)

/-- The part of a package of such a launch has ended: after the last one the others hear of the completion (R459). -/
def leftArrival (s : State) (l : Launch) (srcPkg : Nat) : State :=
  let m : Launch := { l with endedOn := srcPkg :: l.endedOn }
  if m.packages.all m.endedOn.contains then
    tellOver l.record l.packages { s with leftLaunches := s.leftLaunches.filter (fun x => x != l) }
  else { s with leftLaunches := s.leftLaunches.map (fun x => if x == l then m else x) }

/-- FABRIC_BARRIER_ARRIVAL at the leader: a package's arrival at barrier instance `instanceNo` - 1, or, where that is 0, the end of its
part of wave `arrived`. -/
def execFabricBarrierArrival (srcPkg record engines instanceNo arrived : Nat) (s : State) : Out :=
  .next (match if instanceNo = 0 then leftFor s srcPkg record arrived else none with
    | some l => leftArrival s l srcPkg
    | none =>
    match s.known? record with
    | none => s
    | some l =>
      if l.leader s != s.pkgId || !l.packages.contains srcPkg || srcPkg = s.pkgId then s
      else if instanceNo = 0 then
        (if l.endedOn.contains srcPkg || l.wave != arrived then s
         else if !l.sent then wholeWaveFails s record
         else partEnded s record srcPkg)
      else if l.remoteBars.any (fun b => b.1 == srcPkg && b.2.2.1 + 1 == instanceNo) then s
      else noteArrival s record srcPkg engines (instanceNo - 1) arrived)

/-- FABRIC_BARRIER_RELEASE from the leader: of instance `instanceNo` - 1, or the completion of the launch. -/
def execFabricBarrierRelease (record instanceNo : Nat) (s : State) : Out :=
  .next (match s.known? record with
    | none => s
    | some l =>
      if l.packages.length ≤ 1 || l.leader s = s.pkgId then s
      else if instanceNo = 0 then completeLaunch s record
      else s.mapAway record (fun l => { l with released := (instanceNo - 1) :: l.released }))

/-! ## Dispatch (R418, R419, R457, R458) -/

/-- The place of a logical index among the cores of one package's part. -/
def hwNumber (r : Rec) (lidx : Nat) : Nat := ofDigits ((hwLevels r).map LevelDw.count) (digitsAt r lidx (fun d => 2 ≤ d && d ≤ 4)) 0

/-- The rank of the package of a logical index, and its wave. -/
def rankOf (r : Rec) (lidx : Nat) : Nat := (digitsAt r lidx (fun d => d == 1)).headD 0
def waveNo (r : Rec) (lidx : Nat) : Nat := ofDigits (serialCounts r) (digitsAt r lidx (fun d => d == 5)) 0

/-- The logical indices that a grant from `first` on gives its cores. -/
def grantIndices (r : Rec) (first n : Nat) : List Nat :=
  (List.range n).map (fun i =>
    lidxOf r (rankOf r first) (digitsOf ((hwLevels r).map LevelDw.count) (hwNumber r first + i)) (waveNo r first))

/-- The packages of the launch to which a grant to a die belongs. -/
def grantPackages (r : Rec) (die first : Nat) : List Nat := (List.range r.packages).map (fun i => die / 4 - rankOf r first + i)

/-- The launch of a grant as the grant finds it: a new one once the record is ready in this package, or one that waits for the grant's
wave. -/
def grantLaunch (s : State) (record die first : Nat) : Option State :=
  let r := s.lrec record
  match s.launches.find? (fun l => l.record == record) with
  | none => if readyHere s record && (savedOf s record).isNone then some (newLaunch s record [] (grantPackages r die first)) else none
  | some l =>
    if l.wave = waveNo r first then some s
    else if l.wave < waveNo r first && l.begun.isEmpty then
      some (s.mapLaunch record (fun m => { m.nextWave with wave := waveNo r first }))
    else none

/-- A package that does not lead notes a grant, in place of an earlier one of the range; the counter of what it has seen granted rises
with a new one. -/
def noteGrant (s : State) (record : Nat) (g : Grant) : State :=
  s.mapLaunch record (fun l =>
    { l with
      index := if l.grants.any (fun h => h.first == g.first) then l.index else l.index + g.cores.length,
      grants := l.grants.filter (fun h => h.first != g.first) ++ [g] })

/-- The cores of a grant join the package's part of the launch, in place of those that had the range or stand there. -/
def reserveGrant (s : State) (record first : Nat) (cores : List Nat) : State :=
  let r := s.lrec record
  let new := cores.zip (grantIndices r first cores.length)
  let stays (l : Launch) (p : Nat × Nat) : Bool := !new.any (fun q => q.1 == p.1 || q.2 == inWave r p.2 l.wave)
  let gone := ((s.launches.filter (fun l => l.record == record)).flatMap (fun l => l.cores.filter (fun p => !stays l p))).map Prod.fst
  dropHeld (gone.filter (fun c => !cores.contains c)) (s.mapLaunch record (fun l =>
    let cs := l.cores.filter (stays l) ++ new
    { l with cores := cs, clusters := clustersBy cs }))

/-- A grant to a die of this package from the leader in another: the die reserves the cores, once they are free and in the launch's
regime, and acknowledges when the images are read. Launches of lower priority in its way are saved (R417). -/
def ownGrant (s : State) (record die first : Nat) (cores : List Nat) : State :=
  match grantLaunch s record die first with
  | none => s
  | some s1 =>
    match s1.launches.find? (fun l => l.record == record) with
    | none => s
    | some l =>
      let g : Grant := ⟨die, first, cores, false⟩
      let gauge := (s.lrec record).gauge
      let mine := l.cores.map Prod.fst
      let fits (gone : List Nat) : Bool := cores.all (fun c => mine.contains c || coreFits s gone (needed s record) gauge c)
      let change := toChange s gauge (unitsAmong 2 cores [])
      if l.begun.contains (die % 4) then s
      else if l.grants.any (fun h => { h with acked := false } == g) then
        (if l.grants.any (fun h => h == { g with acked := true }) then emit s (.grantAck (l.leader s) record die) else waveOf s record l)
      else if !fits [] then preemptFor s record fits
      else if !change.isEmpty then startChange gauge change s
      else
        let s2 := noteGrant (reserveGrant s1 record first cores) record g
        match s2.launches.find? (fun m => m.record == record) with
        | some m => waveOf s2 record m
        | none => s2

/-- The leader's own die acknowledges a range of its own that is free, unless it has failed (R418, R419). -/
def ackOwn (s : State) (die first : Nat) (cores : List Nat) (g : Grant) : Grant :=
  if die / 4 = s.pkgId && !s.dieFailed (die % 4) && g.die == die && g.first == first && g.cores == cores && rangeFree s cores then
    { g with acked := true }
  else g

/-- DISPATCH_GRANT: a die of the leader's package acknowledges its range once it is free; a die of another package takes it; and the next
in line keeps a copy of what other dies are granted (R418). -/
def execDispatchGrant (record die first : Nat) (cores : List Nat) (s : State) : Out :=
  let known := s.launches.find? (fun l => l.record == record)
  let leads := match known with | some l => l.leader s == s.pkgId | none => false
  .next (if cores.isEmpty || !cores.all (fun c => coreExists c && dieOf c == die % 4) then s
    else if leads then
      s.mapLaunch record (fun l => { l with grants := l.grants.map (ackOwn s die first cores) })
    else if (s.lrec record).packages ≤ 1 then s
    else if die / 4 = s.pkgId then ownGrant s record die first cores
    else
      match grantLaunch s record die first with
      | some s1 => noteGrant s1 record ⟨die, first, cores, false⟩
      | none => s)

/-- DISPATCH_ACKNOWLEDGEMENT of a die of another package at the leader. -/
def execDispatchAcknowledgement (record die : Nat) (s : State) : Out :=
  .next (if die / 4 = s.pkgId then s
    else s.mapLaunch record (fun l =>
      if l.leader s = s.pkgId then { l with grants := l.grants.map (fun g => if g.die = die then { g with acked := true } else g) } else l))

/-- DISPATCH_START: the leader's message reaches a die, which starts the jobs of its range (R469). In a package that has come to lead since,
it may be the earlier leader's (R419). -/
def execDispatchStart (record die : Nat) (s : State) : Out :=
  let d := die % 4
  .next (match s.launches.find? (fun l => l.record == record) with
    | none => s
    | some l =>
      let acked := l.grants.any (fun g => g.die == die && g.acked)
      let told := l.due.contains d || (l.packages.headD s.pkgId != s.pkgId && acked)
      if die / 4 = s.pkgId && told && rangeFree s ((l.cores.map Prod.fst).filter (fun c => dieOf c == d)) then startDie s record d else s)

/-- HEARTBEAT of a die, numbered package · 4 + die. -/
def execHeartbeat (die : Nat) (s : State) : Out :=
  let s1 : State := { s with beats := tset s.beats die s.clock }
  .next (if die / 4 = s.pkgId then s1 else hear s1 (die / 4))

/-- HEARTBEAT_TIMER: every 10 µs a die of this package sends its heartbeat; to other packages under feature bit 8 alone (R448). -/
def execHeartbeatTimer (die : Nat) (s : State) : Out :=
  if 4 ≤ die then .fault .noSuchUnit
  else
    let n := s.pkgId * 4 + die
    let s1 : State := { s with beats := tset s.beats n s.clock }
    .next (if s.failedDies.contains n || !s.powered then s
      else if s.accepted.getLsbD 8 then emit s1 (.heartbeat n) else s1)

/-- Ends the jobs of cores on a failed die with fatal status; what they had in flight is lost with the die. -/
def loseJobs : List Nat → State → State
  | [], s => s
  | c :: t, s =>
    let k := s.core c
    match k.job with
    | none => loseJobs t s
    | some j =>
      let s1 := closeSlots j.ctx (k.as.h.map Prod.snd) (unwait (dropOwnReleases s c) c)
      loseJobs t (jobDone (s1.setCore c (s1.core c).clearJob) j.record c)

/-- The reports of jobs lost on a failed die: record, die and count for each launch (R433). -/
def reportLost (die : Nat) : List (Nat × Nat × Nat) → State → State
  | [], s => s
  | (record, ctx, n) :: t, s =>
    reportLost die t (say s (contextEvent ctx 3 [BitVec.ofNat 64 record, BitVec.ofNat 64 die, BitVec.ofNat 64 n]))

/-- A die of this package has a range of a launch: its jobs run, or the range is acknowledged and they have not begun. -/
def Launch.holdsRange (l : Launch) (pkg d : Nat) : Bool :=
  l.begun.contains d || l.grants.any (fun g => g.die == 4 * pkg + d && g.acked)

/-- The cores of a launch on a die whose jobs are lost if that die fails. -/
def Launch.onFailed (l : Launch) (pkg d : Nat) : List Nat :=
  if l.holdsRange pkg d then ((l.cores.map Prod.fst).filter (fun c => dieOf c == d)).filter (fun c => !l.done.contains c) else []

/-- The launches that lose jobs on a die, with how many. -/
def lostOn (s : State) (d : Nat) : List (Nat × Nat × Nat) :=
  (s.launches.map (fun l => (l.record, (s.lrec l.record).ctx, (l.onFailed s.pkgId d).length))).filter (fun p => p.2.2 != 0)

/-- Jobs of a launch that have not begun on a failed die count as ended. -/
def loseUnbegun (record : Nat) : List Nat → State → State
  | [], s => s
  | c :: t, s => loseUnbegun record t (jobDone s record c)

/-- The acknowledged ranges of a failed die whose jobs have not begun. -/
def loseRanges (d : Nat) : List Launch → State → State
  | [], s => s
  | l :: t, s => loseRanges d t (if l.begun.contains d then s else loseUnbegun l.record (l.onFailed s.pkgId d) s)

/-- A package that becomes the leader of a launch grants again what is not acknowledged to it (R419). -/
def takeLead (s0 : State) : List Launch → State → State
  | [], s => s
  | l :: t, s =>
    takeLead s0 t
      (if l.leader s0 != s.pkgId && l.leader s == s.pkgId && !l.started then
        { s with toFabric := s.toFabric ++ grantMsgs s l (l.grants.filter (fun g => !g.acked && !s.failedDies.contains g.die)) }
      else s)

/-- DIE_FAILURE_TIMEOUT: no heartbeat of a die for 30 µs. The host hears of it; of a die of this package, the jobs whose range had been
acknowledged end with fatal status. The other ranges are granted again: at once by a package that now leads, else at WAVE_START (R419). -/
def execDieFailureTimeout (die : Nat) (s : State) : Out :=
  let last := tget s.beats die 0
  if s.failedDies.contains die || s.clock < last + 3 * tenMicros then .next s
  else
    let s1 := say { s with failedDies := die :: s.failedDies } (.dieFailed die last)
    let s2 := takeLead s s1.launches s1
    if die / 4 != s.pkgId then .next s2
    else
      let d := die % 4
      let s3 := reportLost die (lostOn s2 d) s2
      .next (loseRanges d s2.launches (loseJobs ((s3.cores.map Prod.fst).filter (fun c => dieOf c == d)) s3))

end Sys2Proof.Machine
end

