-- ==== Sys2Proof/Machine/XShort.lean ====
section
/-! DEFINITION. The short forms of the execute engine: scalar float (R159 to R161), lane moves and queue control (R162 to
R164), LOOPP (R165) and predicates (R167). -/

namespace Sys2Proof.Machine

/-! ## Scalar float (R158 to R161) -/

/-- The f32 in bits [31:0]. -/
def f32Of (v : Word) : Num := fmtF32.decode (v.toNat % 2 ^ 32)

/-- Rounds a scalar result; the dither position is 0 (R80). -/
def roundScalar (s : State) (rnd : Rnd) (x : NumF) : Nat × Word :=
  let r := fmtF32.round (RMode.at rnd (s.stream (s.whoOn .x)).phase 0) false x.val
  (r.1, x.flags ||| r.2)

/-- A scalar float form of two sources. -/
def scalarOp (d a b : Nat) (rnd : Rnd) (op : Num → Num → NumF) (s : State) : Out :=
  let w := s.whoOn .x
  scalarFloat w [a, b] d rnd (roundScalar s rnd (op (f32Of (regOf s w a)) (f32Of (regOf s w b)))) s

def execSfadd (d a b : Nat) (rnd : Rnd) (s : State) : Out := scalarOp d a b rnd (Num.add (isRdn rnd)) s
def execSfsub (d a b : Nat) (rnd : Rnd) (s : State) : Out := scalarOp d a b rnd (fun x y => Num.add (isRdn rnd) x y.neg) s
def execSfmul (d a b : Nat) (rnd : Rnd) (s : State) : Out := scalarOp d a b rnd Num.mul s

/-- SFMA adds the product to `d`, which it reads; 0·∞ is invalid even with a NaN in `d`. -/
def execSfma (d a b : Nat) (rnd : Rnd) (s : State) : Out :=
  let w := s.whoOn .x
  scalarFloat w [a, b, d] d rnd
    (roundScalar s rnd (fmaOp 0 (isRdn rnd) (f32Of (regOf s w a)) (f32Of (regOf s w b)) (f32Of (regOf s w d)))) s

/-- A scalar form whose result lands later (R102): `d` is empty until then. -/
def scalarLate (w : Who) (srcs : List Nat) (d : Nat) (rnd : Rnd) (r : Nat × Word) (s : State) : Out :=
  finish w 4 s (needRegs s w srcs (
    let k := (s.core w.core).addPend w.eng (.scalar d (BitVec.ofNat 64 r.1) r.2)
    .ok (s.setCore w.core (k.setStream w.eng (((k.stream w.eng).markEmpty d).stepPhase rnd))) .seq))

def execSfdiv (d a b : Nat) (rnd : Rnd) (s : State) : Out :=
  let w := s.whoOn .x
  scalarLate w [a, b] d rnd (roundScalar s rnd (Num.div (f32Of (regOf s w a)) (f32Of (regOf s w b)))) s

def execSfsqrt (d a : Nat) (rnd : Rnd) (s : State) : Out :=
  let w := s.whoOn .x
  scalarLate w [a] d rnd (roundScalar s rnd (Num.sqrt (f32Of (regOf s w a)))) s

/-- Minimum and maximum by R86, without a flag. -/
def scalarPick (d a b : Nat) (pick : Nat → Nat → Nat) (s : State) : Out :=
  let w := s.whoOn .x
  scalarForm w [a, b] d
    (BitVec.ofNat 64 (pick ((regOf s w a).toNat % 2 ^ 32) ((regOf s w b).toNat % 2 ^ 32))) s

def execSfmin (d a b : Nat) (s : State) : Out := scalarPick d a b (minEl .f32) s
def execSfmax (d a b : Nat) (s : State) : Out := scalarPick d a b (maxEl .f32) s

def execSfcmp (d a b cond : Nat) (s : State) : Out :=
  let w := s.whoOn .x
  scalarForm w [a, b] d (if condHolds cond (f32Of (regOf s w a)) (f32Of (regOf s w b)) then 1 else 0) s

/-- The type of a kind code of SFCVT (R161). -/
def kindTy : Nat → Ty
  | 0 => .f32
  | 1 => .s64
  | 2 => .z64
  | _ => .f16

/-- SFCVT reads the low bits that its source kind has. -/
def execSfcvt (d a : Nat) (rnd : Rnd) (dst src : Nat) (s : State) : Out :=
  let w := s.whoOn .x
  let sty := kindTy src
  scalarFloat w [a] d rnd
    (convElem (kindTy dst) sty (RMode.at rnd (s.stream w).phase 0) false ((regOf s w a).toNat % 2 ^ (8 * sty.width))) s

/-! ## Lane moves and queue control (R162 to R164) -/

/-- The element that an index register names. -/
def laneIndex (v : Word) (size : Nat) : Nat := v.toNat % (512 / laneWidth size)

def execVext (d a b : Nat) (sx : Bool) (size : Nat) (s : State) : Out :=
  let w := s.whoOn .x
  let k := s.core w.core
  let n := laneWidth size
  let x := vget n (k.vec a) (laneIndex (regOf s w b) size)
  finish w 4 s (needRegs s w [b] (
    if !k.vecFull a then .wait
    else .ok (putReg s w d (if sx then BitVec.ofInt 64 (signedField x (8 * n)) else BitVec.ofNat 64 x)) .seq))

/-- Replaces element `i` of width `n` bytes. -/
def vput (n : Nat) (v : Vec) (i x : Nat) : Vec :=
  mergeVec v (BitVec.ofNat 4096 (x % 2 ^ (8 * n) * 2 ^ (8 * n * i))) (byteRange (n * i) n) false

def execVins (d a b size : Nat) (s : State) : Out :=
  let w := s.whoOn .x
  let k := s.core w.core
  finish w 4 s (needRegs s w [a, b] (
    if !k.vecFull d then .wait
    else
      .ok (s.setCore w.core (k.setVecPhys (k.phys d)
        (vput (laneWidth size) (k.vec d) (laneIndex (regOf s w b) size) (regOf s w a).toNat))) .seq))

/-- QCNT: entries present of a q queue, free slots of a w queue. -/
def execQcnt (d a : Nat) (w8 : Bool) (s : State) : Out :=
  let w := s.whoOn .x
  let k := s.core w.core
  scalarForm w [] d (BitVec.ofNat 64 (if w8 then 8 - (k.wOf a).length else k.qPresent a)) s

def execQdrop (a b : Nat) (s : State) : Out :=
  let w := s.whoOn .x
  let k := s.core w.core
  let n := (regOf s w b).toNat
  finish w 4 s (needRegs s w [b] (
    if 8 < n then .raise 0x02 (opTval (.qdrop a b) false 7)
    else if k.qPresent a < n then .wait
    else .ok (s.setCore w.core (k.setQ a ((k.qOf a).drop n))) .seq))

def execQdropNw (d a b : Nat) (s : State) : Out :=
  let w := s.whoOn .x
  let k := s.core w.core
  let n := (regOf s w b).toNat
  let m := min n (k.qPresent a)
  finish w 4 s (needRegs s w [b] (
    if 8 < n then .raise 0x02 (opTval (.qdropNw d a b) false 7)
    else .ok (putReg (s.setCore w.core (k.setQ a ((k.qOf a).drop m))) w d (BitVec.ofNat 64 m)) .seq))

/-! ## The pipelined loop (R111, R165) -/

/-- The address after a body whose last instruction's first word stands at `stop` (R111). Where that word cannot be read the model takes
it for a short form (DESIGN CHOICE, log 78). -/
def afterBody (s : State) (w : Who) (stop : Word) : Word :=
  match fetchWord s w stop.toNat 2 with
  | .ok x => if isLong x then stop + 8 else stop + 4
  | .error _ => stop + 4

def execLoopp (e a : Nat) (imm : Int) (s : State) : Out :=
  let w := s.whoOn .x
  let t := s.stream w
  let i : Instr := .loopp e a imm
  let n := regOf s w a
  let stop := t.pc + BitVec.ofInt 64 (4 * imm)
  finish w 4 s (
    if imm < 1 then .raise 0x02 (opTval i false 0)
    else needRegs s w [a] (
      if 2 ^ 32 ≤ n.toNat then .raise 0x02 (opTval i false 13)
      else if t.loops.any LoopEnt.pipelined then .raise 0x02 (opTval i false 25)
      else if n = 0 then .ok s (.jump (afterBody s w stop) false)
      else
        let k := s.core w.core
        let k1 : Core := { k with
          x := { t with loops := ⟨true, t.pc + 4, stop, 0⟩ :: t.loops },
          xs := { k.xs with spass := 0, skern := n, sdrain := BitVec.ofNat 64 e } }
        .ok (s.setCore w.core k1.stages) .seq))

/-! ## Predicates (R167) -/

/-- A form that reads predicates: it waits for their pending writes (R156). -/
def readPreds (w : Who) (ps : List Nat) (s : State) (r : Res) : Res :=
  if ps.any (fun p => (s.core w.core).predBusy p) then .wait else r

def allOnesP : Pred := BitVec.allOnes 512

def execPlog (d a b op : Nat) (s : State) : Out :=
  let w := s.whoOn .x
  let k := s.core w.core
  finish w 4 s (readPreds w [a, b] s (.ok (s.setCore w.core (k.setPred d (logOp op (k.pred a) (k.pred b)) allOnesP)) .seq))

def execPcnt (d a width : Nat) (s : State) : Out :=
  let w := s.whoOn .x
  finish w 4 s (readPreds w [a] s
    (.ok (putReg s w d (BitVec.ofNat 64 (pCount (pWidth width) ((s.core w.core).pred a)))) .seq))

def execPfirst (d a width : Nat) (s : State) : Out :=
  let w := s.whoOn .x
  finish w 4 s (readPreds w [a] s
    (.ok (putReg s w d (BitVec.ofNat 64 (pFirst (pWidth width) ((s.core w.core).pred a)))) .seq))

def execPset (d width n : Nat) (s : State) : Out :=
  let w := s.whoOn .x
  finish w 4 s (.ok (s.setCore w.core ((s.core w.core).setPred d (pSetFirst (pWidth width) n) allOnesP)) .seq)

/-- PSET with the count in a register; the constant field is ignored. -/
def execPsetReg (d a width _ignored : Nat) (s : State) : Out :=
  let w := s.whoOn .x
  finish w 4 s (needRegs s w [a]
    (.ok (s.setCore w.core ((s.core w.core).setPred d (pSetFirst (pWidth width) (regOf s w a).toNat) allOnesP)) .seq))

/-- The predicates a, a+1, .., a+7. -/
def eight (a : Nat) : List Nat := (List.range 8).map (fun i => a + i)

def execPpack (d a : Nat) (s : State) : Out :=
  let w := s.whoOn .x
  let k := s.core w.core
  finish w 4 s (readPreds w (eight a) s
    (.ok (s.setCore w.core (k.setVec (k.phys d) (pack8 ((eight a).map k.pred)) allOnesP)) .seq))

/-- Writes the 64-byte chunks of a vector to eight predicates. -/
def unpack8 (v : Vec) (d : Nat) : List Nat → Core → Core
  | [], k => k
  | i :: t, k => unpack8 v d t (k.setPred (d + i) (BitVec.ofNat 512 (vget 64 v i)) allOnesP)

def execPunpk (d a : Nat) (s : State) : Out :=
  let w := s.whoOn .x
  let k := s.core w.core
  finish w 4 s (if !k.vecFull a then .wait
    else .ok (s.setCore w.core (unpack8 (k.vec a) d (List.range 8) k)) .seq)

def execPext (d a b : Nat) (s : State) : Out :=
  let w := s.whoOn .x
  finish w 4 s (needRegs s w [b] (readPreds w [a] s
    (.ok (putReg s w d (((s.core w.core).pred a >>> (64 * ((regOf s w b).toNat % 8))).setWidth 64)) .seq)))

def execPins (d a b : Nat) (s : State) : Out :=
  let w := s.whoOn .x
  let k := s.core w.core
  let j := (regOf s w b).toNat % 8
  finish w 4 s (needRegs s w [a, b] (readPreds w [d] s
    (.ok (s.setCore w.core (k.setPred d ((regOf s w a).setWidth 512 <<< (64 * j)) (byteRange (64 * j) 64))) .seq)))

end Sys2Proof.Machine
end

