-- ==== Sys2Proof/Machine/Dispatch.lean ====
section
/-! DEFINITION. One arm for each constructor of `Instr`, each one call of its meaning. -/

namespace Sys2Proof.Machine

def exec (i : Instr) (s : State) : Host.Outcome State Fault Refusal :=
  match i with
  | .nop => Sys2Proof.Machine.execNop s
  | .add d a b => Sys2Proof.Machine.execAdd d a b s
  | .sub d a b => Sys2Proof.Machine.execSub d a b s
  | .addi d a imm => Sys2Proof.Machine.execAddi d a imm s
  | .mul d a b => Sys2Proof.Machine.execMul d a b s
  | .mulh d a b z => Sys2Proof.Machine.execMulh d a b z s
  | .madd d a b => Sys2Proof.Machine.execMadd d a b s
  | .div d a b rem z => Sys2Proof.Machine.execDiv d a b rem z s
  | .and d a b => Sys2Proof.Machine.execAnd d a b s
  | .or d a b => Sys2Proof.Machine.execOr d a b s
  | .xor d a b => Sys2Proof.Machine.execXor d a b s
  | .andi d a imm => Sys2Proof.Machine.execAndi d a imm s
  | .ori d a imm => Sys2Proof.Machine.execOri d a imm s
  | .xori d a imm => Sys2Proof.Machine.execXori d a imm s
  | .shl d a b => Sys2Proof.Machine.execShl d a b s
  | .shlImm d a n => Sys2Proof.Machine.execShlImm d a n s
  | .shr d a b => Sys2Proof.Machine.execShr d a b s
  | .shrImm d a n => Sys2Proof.Machine.execShrImm d a n s
  | .sra d a b => Sys2Proof.Machine.execSra d a b s
  | .sraImm d a n => Sys2Proof.Machine.execSraImm d a n s
  | .min d a b z => Sys2Proof.Machine.execMin d a b z s
  | .max d a b z => Sys2Proof.Machine.execMax d a b z s
  | .slt d a b z => Sys2Proof.Machine.execSlt d a b z s
  | .movi d imm => Sys2Proof.Machine.execMovi d imm s
  | .movk d pos imm16 => Sys2Proof.Machine.execMovk d pos imm16 s
  | .clz d a => Sys2Proof.Machine.execClz d a s
  | .popc d a => Sys2Proof.Machine.execPopc d a s
  | .ext d a z lsb wm1 => Sys2Proof.Machine.execExt d a z lsb wm1 s
  | .bc c a b off => Sys2Proof.Machine.execBc c a b off s
  | .br off => Sys2Proof.Machine.execBr off s
  | .call off => Sys2Proof.Machine.execCall off s
  | .jr a => Sys2Proof.Machine.execJr a s
  | .jrLk d a => Sys2Proof.Machine.execJrLk d a s
  | .loop d a imm => Sys2Proof.Machine.execLoop d a imm s
  | .give f => Sys2Proof.Machine.execGive f s
  | .take f => Sys2Proof.Machine.execTake f s
  | .mbw m a b => Sys2Proof.Machine.execMbw m a b s
  | .mbr d m => Sys2Proof.Machine.execMbr d m s
  | .rdv => Sys2Proof.Machine.execRdv s
  | .rdvMask engines => Sys2Proof.Machine.execRdvMask engines s
  | .bar engines scope => Sys2Proof.Machine.execBar engines scope s
  | .barTm a engines scope => Sys2Proof.Machine.execBarTm a engines scope s
  | .rdsr d num => Sys2Proof.Machine.execRdsr d num s
  | .rdsrQflags d => Sys2Proof.Machine.execRdsrQflags d s
  | .wrsr a num => Sys2Proof.Machine.execWrsr a num s
  | .wrsrStatus a => Sys2Proof.Machine.execWrsrStatus a s
  | .wrsrQflags a => Sys2Proof.Machine.execWrsrQflags a s
  | .wrsrNpdef a => Sys2Proof.Machine.execWrsrNpdef a s
  | .wrsrDph a => Sys2Proof.Machine.execWrsrDph a s
  | .wrsrSpass a => Sys2Proof.Machine.execWrsrSpass a s
  | .wrsrSkern a => Sys2Proof.Machine.execWrsrSkern a s
  | .wrsrSdrain a => Sys2Proof.Machine.execWrsrSdrain a s
  | .trap imm => Sys2Proof.Machine.execTrap imm s
  | .eret => Sys2Proof.Machine.execEret s
  | .idle imm => Sys2Proof.Machine.execIdle imm s
  | .rdcyc d => Sys2Proof.Machine.execRdcyc d s
  | .ld d base size z off => Sys2Proof.Machine.execLd d base size z off s
  | .st d base size off => Sys2Proof.Machine.execSt d base size off s
  | .ldq q base off => Sys2Proof.Machine.execLdq q base off s
  | .stq w base off => Sys2Proof.Machine.execStq w base off s
  | .ldt d base off => Sys2Proof.Machine.execLdt d base off s
  | .stt d base off => Sys2Proof.Machine.execStt d base off s
  | .amo d a b op dword ord => Sys2Proof.Machine.execAmo d a b op dword ord s
  | .cas d a b dword ord => Sys2Proof.Machine.execCas d a b dword ord s
  | .fence kind scope => Sys2Proof.Machine.execFence kind scope s
  | .spadj imm => Sys2Proof.Machine.execSpadj imm s
  | .passM a n => Sys2Proof.Machine.execPassM a n s
  | .passA a n => Sys2Proof.Machine.execPassA a n s
  | .tlbp d a attrs => Sys2Proof.Machine.execTlbp d a attrs s
  | .pghint queue dist => Sys2Proof.Machine.execPghint queue dist s
  | .tlbinv a reach => Sys2Proof.Machine.execTlbinv a reach s
  | .openH h a b wait => Sys2Proof.Machine.execOpenH h a b wait s
  | .closeH h => Sys2Proof.Machine.execCloseH h s
  | .bind d a b => Sys2Proof.Machine.execBind d a b s
  | .rebind d a b => Sys2Proof.Machine.execRebind d a b s
  | .lpatch a b f => Sys2Proof.Machine.execLpatch a b f s
  | .larm d a => Sys2Proof.Machine.execLarm d a s
  | .decld d a e => Sys2Proof.Machine.execDecld d a e s
  | .ctxsv a b => Sys2Proof.Machine.execCtxsv a b s
  | .ctxld a b => Sys2Proof.Machine.execCtxld a b s
  | .ldqs q d a b ty c => Sys2Proof.Machine.execLdqs q d a b ty c s
  | .gathq q d a b ty c => Sys2Proof.Machine.execGathq q d a b ty c s
  | .scatq w d a b ty c => Sys2Proof.Machine.execScatq w d a b ty c s
  | .rgath d a b desc ty rnd sk tx sc c => Sys2Proof.Machine.execRgath d a b desc ty rnd sk tx sc c s
  | .rstrm d a b desc ty sk c => Sys2Proof.Machine.execRstrm d a b desc ty sk c s
  | .cplvl level a b st c => Sys2Proof.Machine.execCplvl level a b st c s
  | .cpgo d a b dty sty rnd mx kind c => Sys2Proof.Machine.execCpgo d a b dty sty rnd mx kind c s
  | .cpgoPm d a c => Sys2Proof.Machine.execCpgoPm d a c s
  | .cpgath d a b bags op dty sty rnd kind c => Sys2Proof.Machine.execCpgath d a b bags op dty sty rnd kind c s
  | .cpscat d a b addTo dty sty rnd kind c => Sys2Proof.Machine.execCpscat d a b addTo dty sty rnd kind c s
  | .decq q d a b entries ty zr c => Sys2Proof.Machine.execDecq q d a b entries ty zr c s
  | .sfadd d a b rnd => Sys2Proof.Machine.execSfadd d a b rnd s
  | .sfsub d a b rnd => Sys2Proof.Machine.execSfsub d a b rnd s
  | .sfmul d a b rnd => Sys2Proof.Machine.execSfmul d a b rnd s
  | .sfma d a b rnd => Sys2Proof.Machine.execSfma d a b rnd s
  | .sfdiv d a b rnd => Sys2Proof.Machine.execSfdiv d a b rnd s
  | .sfsqrt d a rnd => Sys2Proof.Machine.execSfsqrt d a rnd s
  | .sfmin d a b => Sys2Proof.Machine.execSfmin d a b s
  | .sfmax d a b => Sys2Proof.Machine.execSfmax d a b s
  | .sfcmp d a b cond => Sys2Proof.Machine.execSfcmp d a b cond s
  | .sfcvt d a rnd dst src => Sys2Proof.Machine.execSfcvt d a rnd dst src s
  | .vext d a b sx size => Sys2Proof.Machine.execVext d a b sx size s
  | .vins d a b size => Sys2Proof.Machine.execVins d a b size s
  | .qcnt d a w => Sys2Proof.Machine.execQcnt d a w s
  | .qdrop a b => Sys2Proof.Machine.execQdrop a b s
  | .qdropNw d a b => Sys2Proof.Machine.execQdropNw d a b s
  | .loopp e a imm => Sys2Proof.Machine.execLoopp e a imm s
  | .plog d a b op => Sys2Proof.Machine.execPlog d a b op s
  | .pcnt d a width => Sys2Proof.Machine.execPcnt d a width s
  | .pfirst d a width => Sys2Proof.Machine.execPfirst d a width s
  | .pset d width n => Sys2Proof.Machine.execPset d width n s
  | .psetReg d a width ignored => Sys2Proof.Machine.execPsetReg d a width ignored s
  | .ppack d a => Sys2Proof.Machine.execPpack d a s
  | .punpk d a => Sys2Proof.Machine.execPunpk d a s
  | .pext d a b => Sys2Proof.Machine.execPext d a b s
  | .pins d a b => Sys2Proof.Machine.execPins d a b s
  | .vadd d a b ty sat c => Sys2Proof.Machine.execVadd d a b ty sat c s
  | .vsub d a b ty sat c => Sys2Proof.Machine.execVsub d a b ty sat c s
  | .vmul d a b ty sat c => Sys2Proof.Machine.execVmul d a b ty sat c s
  | .vmulh d a b ty c => Sys2Proof.Machine.execVmulh d a b ty c s
  | .vmad d a b z ty sat c => Sys2Proof.Machine.execVmad d a b z ty sat c s
  | .vlog d a b ty op c => Sys2Proof.Machine.execVlog d a b ty op c s
  | .vsh d a b ty op c => Sys2Proof.Machine.execVsh d a b ty op c s
  | .vmin d a b ty c => Sys2Proof.Machine.execVmin d a b ty c s
  | .vmax d a b ty c => Sys2Proof.Machine.execVmax d a b ty c s
  | .vabs d a ty sat c => Sys2Proof.Machine.execVabs d a ty sat c s
  | .vfadd d a b ty rnd c => Sys2Proof.Machine.execVfadd d a b ty rnd c s
  | .vfsub d a b ty rnd c => Sys2Proof.Machine.execVfsub d a b ty rnd c s
  | .vfmul d a b ty rnd c => Sys2Proof.Machine.execVfmul d a b ty rnd c s
  | .vfma d a b z ty rnd op c => Sys2Proof.Machine.execVfma d a b z ty rnd op c s
  | .vfdiv d a b ty rnd c => Sys2Proof.Machine.execVfdiv d a b ty rnd c s
  | .vfsqrt d a ty rnd c => Sys2Proof.Machine.execVfsqrt d a ty rnd c s
  | .vcmp p a b ty cond c => Sys2Proof.Machine.execVcmp p a b ty cond c s
  | .vsel d a b ty c => Sys2Proof.Machine.execVsel d a b ty c s
  | .vmov d a ty c => Sys2Proof.Machine.execVmov d a ty c s
  | .viota d a ty c => Sys2Proof.Machine.execViota d a ty c s
  | .vperm d a b z ty op c => Sys2Proof.Machine.execVperm d a b z ty op c s
  | .vslide d a b z ty up c => Sys2Proof.Machine.execVslide d a b z ty up c s
  | .vred d a ty op rnd c => Sys2Proof.Machine.execVred d a ty op rnd c s
  | .vscan d a b z ty op rnd c => Sys2Proof.Machine.execVscan d a b z ty op rnd c s
  | .vclmul d a b op c => Sys2Proof.Machine.execVclmul d a b op c s
  | .vcvt d a b dty sty rnd sat c => Sys2Proof.Machine.execVcvt d a b dty sty rnd sat c s
  | .vqpack d a b ty kind rnd c => Sys2Proof.Machine.execVqpack d a b ty kind rnd c s
  | .vqunpk d a b ty rnd c => Sys2Proof.Machine.execVqunpk d a b ty rnd c s
  | .vspars d a ty op c => Sys2Proof.Machine.execVspars d a ty op c s
  | .vtopk d a b ty op c => Sys2Proof.Machine.execVtopk d a b ty op c s
  | .vhist d a b z ty sat c => Sys2Proof.Machine.execVhist d a b z ty sat c s
  | .cscan d a b z ty op scope rnd c => Sys2Proof.Machine.execCscan d a b z ty op scope rnd c s
  | .mqry d id => Sys2Proof.Machine.execMqry d id s
  | .mskip id a => Sys2Proof.Machine.execMskip id a s
  | .mskipCx id => Sys2Proof.Machine.execMskipCx id s
  | .mwld wb ka kb kc ty c => Sys2Proof.Machine.execMwld wb ka kb kc ty c s
  | .mwlds wb ka kb kc e ty c => Sys2Proof.Machine.execMwlds wb ka kb kc e ty c s
  | .mrun acc wb ka kb mode ty cm c => Sys2Proof.Machine.execMrun acc wb ka kb mode ty cm c s
  | .manch acc ka kb kc blocks c => Sys2Proof.Machine.execManch acc ka kb kc blocks c s
  | .mzero acc ty c => Sys2Proof.Machine.execMzero acc ty c s
  | .mdrn acc ka kb kc ty rnd sat clr kind c => Sys2Proof.Machine.execMdrn acc ka kb kc ty rnd sat clr kind c s
  | .valueLanding core e n => Sys2Proof.Machine.execValueLanding core e n s
  | .queueEntryLanding core n => Sys2Proof.Machine.execQueueEntryLanding core n s
  | .transferElementFault core slot => Sys2Proof.Machine.execTransferElementFault core slot s
  | .transferCompletion core slot => Sys2Proof.Machine.execTransferCompletion core slot s
  | .rowPortEntry core slot seq => Sys2Proof.Machine.execRowPortEntry core slot seq s
  | .commandIssue core => Sys2Proof.Machine.execCommandIssue core s
  | .rowPassageBegin core => Sys2Proof.Machine.execRowPassageBegin core s
  | .rowResultWrite core => Sys2Proof.Machine.execRowResultWrite core s
  | .commandRetire core n => Sys2Proof.Machine.execCommandRetire core n s
  | .cscanLanding core n => Sys2Proof.Machine.execCscanLanding core n s
  | .barrierRelease core => Sys2Proof.Machine.execBarrierRelease core s
  | .timedBarrierRelease core => Sys2Proof.Machine.execTimedBarrierRelease core s
  | .idleExpiry core e => Sys2Proof.Machine.execIdleExpiry core e s
  | .passFlip core => Sys2Proof.Machine.execPassFlip core s
  | .remoteMailboxWriteArrival src => Sys2Proof.Machine.execRemoteMailboxWriteArrival src s
  | .heldMailboxWriteEntry core mbox => Sys2Proof.Machine.execHeldMailboxWriteEntry core mbox s
  | .pageWalk cluster ctxid va => Sys2Proof.Machine.execPageWalk cluster ctxid va s
  | .nextPageTranslation core queue => Sys2Proof.Machine.execNextPageTranslation core queue s
  | .directoryAct core => Sys2Proof.Machine.execDirectoryAct core s
  | .launchRecordAct core => Sys2Proof.Machine.execLaunchRecordAct core s
  | .waveStart record => Sys2Proof.Machine.execWaveStart record s
  | .preemption record => Sys2Proof.Machine.execPreemption record s
  | .launchRestore record => Sys2Proof.Machine.execLaunchRestore record s
  | .regimeChangeDone cluster => Sys2Proof.Machine.execRegimeChangeDone cluster s
  | .quantumCommit core => Sys2Proof.Machine.execQuantumCommit core s
  | .holdStreamLimit core e => Sys2Proof.Machine.execHoldStreamLimit core e s
  | .holdLimitExpiry die hold => Sys2Proof.Machine.execHoldLimitExpiry die hold s
  | .droopStretch cluster eighths => Sys2Proof.Machine.execDroopStretch cluster eighths s
  | .droopFreeze cluster => Sys2Proof.Machine.execDroopFreeze cluster s
  | .droopRecovery cluster => Sys2Proof.Machine.execDroopRecovery cluster s
  | .sessionOpenRequest nonce hostKey sig ownerKey => Sys2Proof.Machine.execSessionOpenRequest nonce hostKey sig ownerKey s
  | .sessionFeatureAccept ephemeral accepted sig => Sys2Proof.Machine.execSessionFeatureAccept ephemeral accepted sig s
  | .memw h addr data => Sys2Proof.Machine.execMemw h addr data s
  | .memr h addr len => Sys2Proof.Machine.execMemr h addr len s
  | .ctxnew h desc => Sys2Proof.Machine.execCtxnew h desc s
  | .ctxend h ctxid => Sys2Proof.Machine.execCtxend h ctxid s
  | .recw h index dwords => Sys2Proof.Machine.execRecw h index dwords s
  | .recarm h index => Sys2Proof.Machine.execRecarm h index s
  | .status h => Sys2Proof.Machine.execStatus h s
  | .debugAttach h ctxid => Sys2Proof.Machine.execDebugAttach h ctxid s
  | .debugDetach h ctxid => Sys2Proof.Machine.execDebugDetach h ctxid s
  | .debugStop h ctxid core => Sys2Proof.Machine.execDebugStop h ctxid core s
  | .debugResume h ctxid core => Sys2Proof.Machine.execDebugResume h ctxid core s
  | .debugReadState h ctxid core item => Sys2Proof.Machine.execDebugReadState h ctxid core item s
  | .debugWriteState h ctxid core item value => Sys2Proof.Machine.execDebugWriteState h ctxid core item value s
  | .setHoldLimit h seconds => Sys2Proof.Machine.execSetHoldLimit h seconds s
  | .setGaugeBudget h watts => Sys2Proof.Machine.execSetGaugeBudget h watts s
  | .reset h => Sys2Proof.Machine.execReset h s
  | .sessionClose h => Sys2Proof.Machine.execSessionClose h s
  | .sessionIdleTimeout => Sys2Proof.Machine.execSessionIdleTimeout s
  | .powerUp => Sys2Proof.Machine.execPowerUp s
  | .resetPin => Sys2Proof.Machine.execResetPin s
  | .junctionAbove105 => Sys2Proof.Machine.execJunctionAbove105 s
  | .junctionAbove112 => Sys2Proof.Machine.execJunctionAbove112 s
  | .thermalShutdown => Sys2Proof.Machine.execThermalShutdown s
  | .linkUp port ids => Sys2Proof.Machine.execLinkUp port ids s
  | .flitReplay port => Sys2Proof.Machine.execFlitReplay port s
  | .linkDown port => Sys2Proof.Machine.execLinkDown port s
  | .laneLockTimeout port lane => Sys2Proof.Machine.execLaneLockTimeout port lane s
  | .readRequest r => Sys2Proof.Machine.execReadRequest r s
  | .writeRequest r => Sys2Proof.Machine.execWriteRequest r s
  | .atomicRequest r => Sys2Proof.Machine.execAtomicRequest r s
  | .readResponse tid data => Sys2Proof.Machine.execReadResponse tid data s
  | .acknowledgement tid => Sys2Proof.Machine.execAcknowledgement tid s
  | .nack tid cause => Sys2Proof.Machine.execNack tid cause s
  | .mailboxWrite m core => Sys2Proof.Machine.execMailboxWrite m core s
  | .releaseClear srcPkg core epoch => Sys2Proof.Machine.execReleaseClear srcPkg core epoch s
  | .releaseCancel srcPkg core epoch => Sys2Proof.Machine.execReleaseCancel srcPkg core epoch s
  | .fabricBarrierArrival srcPkg record engines instanceNo arrived => Sys2Proof.Machine.execFabricBarrierArrival srcPkg record engines instanceNo arrived s
  | .fabricBarrierRelease record instanceNo => Sys2Proof.Machine.execFabricBarrierRelease record instanceNo s
  | .dispatchGrant record die first cores => Sys2Proof.Machine.execDispatchGrant record die first cores s
  | .dispatchAcknowledgement record die => Sys2Proof.Machine.execDispatchAcknowledgement record die s
  | .dispatchStart record die => Sys2Proof.Machine.execDispatchStart record die s
  | .heartbeat die => Sys2Proof.Machine.execHeartbeat die s
  | .heartbeatTimer die => Sys2Proof.Machine.execHeartbeatTimer die s
  | .dieFailureTimeout die => Sys2Proof.Machine.execDieFailureTimeout die s
  | .hello pkg up inc => Sys2Proof.Machine.execHello pkg up inc s
  | .requestTimeout tid => Sys2Proof.Machine.execRequestTimeout tid s
  | .peerSilenceTimeout pkg => Sys2Proof.Machine.execPeerSilenceTimeout pkg s
  | .class0WindowEnd failed => Sys2Proof.Machine.execClass0WindowEnd failed s
  | .unassignedMajor w1 => Sys2Proof.Machine.execUnassignedMajor w1 s
  | .instructionFetchFault cause va => Sys2Proof.Machine.execInstructionFetchFault cause va s
  | .storePerformed core n => Sys2Proof.Machine.execStorePerformed core n s
  | .tlbinvCompletion core => Sys2Proof.Machine.execTlbinvCompletion core s
  | .decldLoadDone core => Sys2Proof.Machine.execDecldLoadDone core s
  | .hostMessageDrop => Sys2Proof.Machine.execHostMessageDrop s
  | .unknownCommandType h ty => Sys2Proof.Machine.execUnknownCommandType h ty s
  | .unsupportedDeliveryMode port => Sys2Proof.Machine.execUnsupportedDeliveryMode port s
  | .reservedOpMessage port => Sys2Proof.Machine.execReservedOpMessage port s
  | .junctionCooling below112 below105 => Sys2Proof.Machine.execJunctionCooling below112 below105 s

end Sys2Proof.Machine
end

