-- ==== Sys2Proof/Machine/Turn.lean ====
section
/-! DEFINITION. The turn of an agent around `exec`: a stream's instruction, the faults that join a freeze (R231, R233), and the
attempts of waiting streams at the start of a hold (R378). -/

namespace Sys2Proof.Machine

/-- A stream runs its decoded instruction; a shadow handler within the limits of R232. -/
def runInstr (i : Instr) (w : Who) (s : State) : Host.Outcome State Fault Refusal :=
  if shadow s w then
    if shadowAllows i then
      match exec i s with
      | .next t => .next (if shadowStuck s t w then shadowFatal s w else t)
      | r => r
    else .next (shadowFatal s w)
  else exec i s

/-- The turn of a stream. The instruction, or the fault of its decoding, follows its fetch. -/
def ownStep (w : Who) (s : State) : Host.Outcome State Fault Refusal :=
  match issue s w with
  | .rest t => .next t
  | .refuse cause tval => .next (takeTrap (fetched s w) w cause tval)
  | .run i => runInstr i w (fetched s w)

/-! ## Faults of one cycle (R231, R233) -/

/-- A cluster has just frozen for faults whose handlers have not begun: in that cycle other faults may be met (log 14). -/
def freshFreeze (s : State) (g : Nat) : Bool :=
  let fs := (s.cluster g).frozen
  !fs.isEmpty && fs.all (fun f => match f with
    | .fault c e => !(s.stream ⟨c, e⟩).super || (s.stream ⟨c, e⟩).pc == (s.stream ⟨c, e⟩).tvec
    | _ => false)

def justFrozen (s : State) (w : Who) : Bool :=
  freshFreeze s (clusterOf w.core) && !(s.cluster (clusterOf w.core)).frozen.contains (.fault w.core w.eng)

/-- `s` as it would be were a cluster not frozen. -/
def unfrozen (s : State) (g : Nat) : State := s.setCluster g { s.cluster g with frozen := [] }

/-- The freeze of a cluster in `s` goes on in `t` with what `t` has added. -/
def refrozen (s t : State) (g : Nat) : State :=
  t.setCluster g { t.cluster g with
    frozen := ((s.cluster g).frozen ++ (t.cluster g).frozen).eraseDups, since := (s.cluster g).since, lost := (s.cluster g).lost }

/-- A stream whose next instruction faults in the cycle at which its domain stands still is served in the same freeze; an instruction
that does not fault does nothing before the thaw (log 14). -/
def joinFault (w : Who) (s : State) : State :=
  let g := clusterOf w.core
  match ownStep w (unfrozen s g) with
  | .next t => if (t.stream w).super && !(s.stream w).super then refrozen s t g else s
  | _ => s

/-- A stream of a core has got a late cause. -/
def metLate (s t : State) (c : Nat) : Bool :=
  [Eng.a, Eng.x, Eng.m].any (fun e => decide ((s.stream ⟨c, e⟩).late.length < (t.stream ⟨c, e⟩).late.length))

/-- A fault that a transfer, a command or a row of a core meets in that cycle is served in the same freeze too. -/
def joinLate (c : Nat) (act : State → Host.Outcome State Fault Refusal) (s : State) : State :=
  let g := clusterOf c
  match act (unfrozen s g) with
  | .next t => if metLate s t c then refrozen s t g else s
  | _ => s

/-- The core whose transfer, command or row an event is of. -/
def workOf : Instr → Option Nat
  | .transferElementFault core _ | .commandIssue core | .commandRetire core _ | .rowPassageBegin core | .rowResultWrite core
  | .rowPortEntry core _ _ => some core
  | _ => none

def eventTurn (i : Instr) (s : State) : Host.Outcome State Fault Refusal :=
  match workOf i with
  | some c => if coreExists c && freshFreeze s (clusterOf c) then .next (joinLate c (exec i) s) else exec i s
  | none => exec i s

def transferTurn (c slot n : Nat) (s : State) : State :=
  if freshFreeze s (clusterOf c) then joinLate c (fun t => .next (runTransfer t c slot 1)) s else runTransfer s c slot n

def streamTurn (w : Who) (s : State) : Host.Outcome State Fault Refusal :=
  if justFrozen s w then .next (joinFault w s) else ownStep w s

/-! ## The start of a hold (R378) -/

/-- A stream of a core that a hold has just covered, which its last attempt to issue left waiting, attempts once more at once: that wait
may have been over already (R116). In gauge mode the domain is frozen. -/
def retryHeld (s : State) (w : Who) : State :=
  let t := s.stream w
  if (t.run == .waiting || t.run == .descheduled) && t.at_ == .free && !t.gauge && !awaitsCommit s w then
    match ownStep w (s.setStream w { t with run := .running }) with
    | .next u => u
    | _ => s
  else s

/-- The cores that are held in `t` and were not in `s`. -/
def newlyHeld (s t : State) : List Nat := (t.cores.map Prod.fst).filter (fun c => (t.core c).held && !(s.core c).held)

def retryCores : List Nat → State → State
  | [], s => s
  | c :: t, s => retryCores t (retryHeld (retryHeld (retryHeld s ⟨c, .a⟩) ⟨c, .x⟩) ⟨c, .m⟩)

/-- What follows a turn that began at `s`. -/
def afterTurn (s : State) : Host.Outcome State Fault Refusal → Host.Outcome State Fault Refusal
  | .next t => .next (retryCores (newlyHeld s t) t)
  | r => r

end Sys2Proof.Machine
end

