-- ==== Sys2Proof/Machine/Step.lean ====
section
/-! DEFINITION. One step: the agent at the head of the agenda acts. -/

namespace Sys2Proof.Machine

def step (s : State) : Host.Outcome State Fault Refusal :=
  let t := beginTurn s
  afterTurn t (match t.turn with
    | .idle => .next t
    | .event i => if isEvent i then eventTurn i t else .next t
    | .transfer c slot n => if coreExists c then .next (transferTurn c slot n t) else .fault .noSuchUnit
    | .stream c e => if coreExists c then streamTurn ⟨c, e⟩ t else .fault .noSuchUnit)

/-- `s` with an instruction stored where `step` fetches next, and the stream of its engine next to act. -/
def State.withFetchWord (s : State) (nbits w : Nat) : State := placeWord s nbits w

end Sys2Proof.Machine
end

