-- ==== Sys2Proof/Safety.lean ====
section
/-! DEFINITION. The words in which claims about the machine are stated: which stream acts, when its registers are readable
and its loops stay as they are, and what an instruction may change. -/

namespace Sys2Proof.Machine

/-! ## When an instruction runs to its end -/

/-- Stream `w` acts in this step. -/
def Acts (s : State) (w : Who) : Prop := s.turn = .stream w.core w.eng

/-- The registers of a stream that have their values (R103). -/
def Full (s : State) (w : Who) (ns : List Nat) : Prop := ∀ n ∈ ns, (s.stream w).full n = true

/-- The instruction at `pc` neither ends nor leaves the body of an open loop when control goes on at `next`; `ctl`: it
transfers control, `call`: by CALL or JR.lk (R131). -/
def StaysIn (t : Stream) (next : Word) (ctl call : Bool) : Prop :=
  match t.loops with
  | [] => True
  | l :: _ => t.pc.toNat < l.start.toNat ∨ l.stop.toNat < t.pc.toNat ∨
      ((t.pc = l.stop → ctl = true) ∧ ((l.start.toNat ≤ next.toNat ∧ next.toNat ≤ l.stop.toNat) ∨ call = true))

/-- The address of the instruction that stream `w` runs. -/
def State.pcOf (s : State) (w : Who) : Word := (s.stream w).pc

/-- An instruction of `n` bytes that goes on at the next one leaves the open loops alone. -/
def Straight (s : State) (w : Who) (n : Nat) : Prop := StaysIn (s.stream w) (s.pcOf w + BitVec.ofNat 64 n) false false

/-- Stream `w` acts, the registers it reads have their values, and the instruction of `n` bytes leaves the open loops alone. -/
def CanRun (s : State) (w : Who) (srcs : List Nat) (n : Nat) : Prop := Acts s w ∧ Full s w srcs ∧ Straight s w n

/-- How a stream goes on once its instruction completes: it runs, unless a hold of its core has come upon it as it waited (R378). -/
def State.runNext (s : State) (w : Who) : RunState := runAfter (s.core w.core) (s.stream w)

/-- Stream `w` goes on at `next`. -/
def State.goTo (s : State) (w : Who) (next : Word) : State :=
  s.setStream w { s.stream w with pc := next, run := s.runNext w, at_ := .free }

/-- The conditions of a BC (R42), in numbers. -/
def condMeets : Cond → Word → Word → Bool
  | .eq, A, B => decide (A.toNat = B.toNat)
  | .ne, A, B => decide (A.toNat ≠ B.toNat)
  | .lt, A, B => decide (A.toInt < B.toInt)
  | .ge, A, B => decide (B.toInt ≤ A.toInt)
  | .ltz, A, _ => decide (A.toInt < 0)
  | .gez, A, _ => decide (0 ≤ A.toInt)

/-! ## What an instruction changes -/

/-- Memory, the boot flash, the tile stores and those that lifelines keep have the canonical form. -/
structure Canonical (s : State) : Prop where
  memory : s.mem.wf = true
  flash : s.flash.wf = true
  tiles : ∀ c, (s.core c).tile.wf = true
  saved : ∀ f ∈ s.lifelines, ∀ p ∈ f.cores, p.2.tile.wf = true

/-- Every part of the package but core `c` is as before; so is every byte of memory. -/
structure OnlyCore (c : Nat) (s t : State) : Prop where
  cores : ∀ d, d ≠ c → t.core d = s.core d
  rest : { t with cores := s.cores } = s
  memory : ∀ a, readB t.mem a = readB s.mem a

/-- An instruction of stream `w` wrote `v` to register `d` (register 0 reads 0 and discards), set the flags `fl`, left `dph`
at `ph` and goes on at `next`. Everything else is as before: the other registers, every other flag, the special and the
exception registers, the other streams, vectors, predicates, accumulators, queues, tokens, mailboxes, the tile store, memory. -/
structure Wrote (s t : State) (w : Who) (d : Nat) (v next fl ph : Word) : Prop where
  value : (t.stream w).reg d = if d = 0 then 0 else v
  others : ∀ n, n ≠ d → (t.stream w).reg n = (s.stream w).reg n
  stream : t.stream w = { s.stream w with
    regs := (t.stream w).regs, pc := next, run := s.runNext w, at_ := .free, qflags := (s.stream w).qflags ||| fl, dph := ph }
  core : (t.core w.core).setStream w.eng (s.stream w) = s.core w.core
  tile : ∀ a, readB (t.core w.core).tile a = readB (s.core w.core).tile a
  only : OnlyCore w.core s t

/-- Instruction `i` answers a next state in which it wrote `v` to register `d` and nothing else, and goes on 4 bytes on. -/
def WritesReg (i : Instr) (s : State) (w : Who) (d : Nat) (v : Word) : Prop :=
  ∃ t, exec i s = .next t ∧ Wrote s t w d v (s.pcOf w + 4) 0 (s.stream w).dph

/-- Instruction `i` writes the rounded code `r.1` to register `d`, sets the flags `r.2`, and steps the rounding phase under
`rdi` (R80, R159). -/
def WritesFloat (i : Instr) (s : State) (w : Who) (d : Nat) (rnd : Rnd) (r : Nat × Word) : Prop :=
  ∃ t, exec i s = .next t ∧ Wrote s t w d (BitVec.ofNat 64 r.1) (s.pcOf w + 4) r.2
    (if rnd = .rdi then BitVec.ofNat 64 (((s.stream w).phase + 1) % 32) else (s.stream w).dph)

/-- The core of stream `w` becomes `k`, and the stream goes on 4 bytes on. -/
def State.coreGoes (s : State) (w : Who) (k : Core) : State := (s.setCore w.core k).goTo w (s.pcOf w + 4)

/-- Instruction `i` takes the trap of a cause (R118). -/
def Traps (i : Instr) (s : State) (w : Who) (cause : Nat) (tval : Word) : Prop := exec i s = .next (takeTrap s w cause tval)

/-! ## The long forms of the execute engine (R33, R103 to R106, R155, R179, R206, R211) -/

/-- Whether a form with these sources is a long-latency producer by a mailbox source (R154). -/
def readsMail (srcs : List XSrc) : Bool := srcs.any (fun x => x.mbox?.isSome)

/-- The destination of a form can take its result. -/
def DestReady (k : Core) (tg : XTarget) : Prop :=
  match tg with
  | .pred p => k.predBusy p = false
  | .vec (.v n) => k.vecFull n = true
  | .vec (.w n) => (k.wOf n).length < 8
  | .vec (.e h) => halfBusy k h = false

/-- Nothing stops or nullifies a long form of stream `w`: the guard `c.guard` has landed and, unless it is an operand or the
target is an e half, selects a byte; the partners of take and give exist; every source has its value and no stream before X waits for the
same mailboxes; every token is there and every FIFO has a slot; and the destination can take the result. -/
structure XReady (s : State) (w : Who) (c : XCtl) (srcs : List XSrc) (tg : XTarget) (guardOp : Bool) : Prop where
  acts : Acts s w
  eng : w.eng = .x
  guard : (s.core w.core).predBusy c.guard = false
  active : guardOp = true ∨ (∃ h, tg = .vec (.e h)) ∨ (s.core w.core).pred c.guard ≠ 0
  takes : (s.core w.core).hasEngines (partners .x c.take) = true
  gives : (s.core w.core).hasEngines (partners .x c.give) = true
  queues : missingQueue (s.core w.core) srcs = none
  regs : emptySource (s.core w.core) srcs = none
  mail : emptyMailbox (s.core w.core) srcs = false
  first : earlierReader (s.core w.core) .x (mboxesOf srcs) = false
  marks : errorMark (s.core w.core) srcs = none
  tokens : (s.core w.core).hasTokens (takeFifos .x c.take) = true
  slots : (s.core w.core).fullFifo (giveFifos .x c.give) = none
  dest : DestReady (s.core w.core) tg
  line : Straight s w 8

/-- The bytes that a form writes and their values: a byte of the part `part` takes the result where the guard selects it,
becomes 0 under zeroing where it does not, and else stays. -/
def mergedBit (c : XCtl) (part g : Pred) (i : Nat) (new old : Bool) : Bool :=
  if part.getLsbD i then (if g.getLsbD i then new else if c.zeroing then false else old) else old

/-- The destination of a form that is no long-latency producer, after it (R33, R173, R179, R184, R285). -/
def XLanded (k k' : Core) (c : XCtl) (tg : XTarget) (g : Pred) (o : XOut) : Prop :=
  k'.x.pend = k.x.pend ∧
  match tg with
  | .pred p => (∀ n, n ≠ p → k'.pred n = k.pred n) ∧
      (∀ i < 512, (k'.pred p).getLsbD i = (p == 0 || mergedBit c (BitVec.allOnes 512) g i (o.pred.getLsbD i) ((k.pred p).getLsbD i))) ∧
      k'.xs.v = k.xs.v ∧ k'.w = k.w ∧ k'.ms = k.ms
  | .vec (.v n) => (∀ m, k.phys m ≠ k.phys n → k'.vec m = k.vec m) ∧
      (∀ i < 4096, (k'.vec n).getLsbD i = mergedBit c o.part g (i / 8) (o.vec.getLsbD i) ((k.vec n).getLsbD i)) ∧
      k'.xs.p = k.xs.p ∧ k'.w = k.w ∧ k'.ms = k.ms
  | .vec (.w n) => (∀ m, m ≠ n → k'.wOf m = k.wOf m) ∧
      (∃ id, k'.wOf n = k.wOf n ++ [⟨id, some (o.vec, g &&& o.part)⟩]) ∧ k'.xs.v = k.xs.v ∧ k'.xs.p = k.xs.p ∧ k'.ms = k.ms
  | .vec (.e h) => (∀ m, m ≠ h → tget k'.ms.e m 0 = tget k.ms.e m 0 ∧ (m ∈ k'.ms.efull ↔ m ∈ k.ms.efull)) ∧
      (∀ i < 4096, (tget k'.ms.e h 0).getLsbD i = (o.part.getLsbD (i / 8) && g.getLsbD (i / 8) && o.vec.getLsbD i)) ∧
      h ∈ k'.ms.efull ∧ k'.xs.v = k.xs.v ∧ k'.xs.p = k.xs.p ∧ k'.w = k.w

/-- The destination of a long-latency producer, after it: the value is pending, a v destination is empty and a w destination
has its slot; every register keeps its value (R102, R179). -/
def XPending (k k' : Core) (c : XCtl) (tg : XTarget) (g : Pred) (o : XOut) : Prop :=
  k'.xs.v = k.xs.v ∧ k'.xs.p = k.xs.p ∧ k'.ms = k.ms ∧
  ∃ id op, k'.x.pend = k.x.pend ++ [⟨id, op⟩] ∧
    match tg with
    | .pred p => k'.w = k.w ∧ ∃ v m, op = .pred p v m o.flags c.give ∧ ∀ i < 512,
        m.getLsbD i = (c.zeroing || g.getLsbD i) ∧ (m.getLsbD i = true → v.getLsbD i = (g.getLsbD i && o.pred.getLsbD i))
    | .vec (.v n) => k'.w = k.w ∧ k'.vecFull n = false ∧ ∃ v m, op = .vector (k.phys n) v m o.flags c.give ∧
        (∀ i < 512, m.getLsbD i = (o.part.getLsbD i && (c.zeroing || g.getLsbD i))) ∧
        (∀ i < 4096, m.getLsbD (i / 8) = true → v.getLsbD i = (g.getLsbD (i / 8) && o.vec.getLsbD i))
    | .vec (.w n) => (∃ slot, k'.wOf n = k.wOf n ++ [⟨slot, none⟩] ∧ op = .push n slot o.vec (g &&& o.part) o.flags c.give) ∧
        (∀ m, m ≠ n → k'.wOf m = k.wOf m)
    | .vec (.e h) => k'.w = k.w ∧ ∃ v, op = .half h v o.flags c.give ∧
        ∀ i < 4096, v.getLsbD i = (o.part.getLsbD (i / 8) && g.getLsbD (i / 8) && o.vec.getLsbD i)

/-- What a long form of stream `w` did with the result `o` of its body: the operands it consumed, its destination, its flags
and tokens, the rounding phase, and that it left everything else alone. `late`: it is a long-latency producer; then its flags
and gives follow its value. `guardOp`: its guard is an operand and masks nothing of a v destination. -/
structure XEffect (s t : State) (w : Who) (c : XCtl) (srcs : List XSrc) (tg : XTarget) (rnd : Rnd) (late guardOp : Bool)
    (o : XOut) : Prop where
  result :
    let g := if guardOp && (match tg with | .vec (.v _) => true | _ => false) then BitVec.allOnes 512
      else (s.core w.core).pred c.guard
    if late then XPending (s.core w.core) (t.core w.core) c tg g o else XLanded (s.core w.core) (t.core w.core) c tg g o
  queues : ∀ n < 16, (t.core w.core).qOf n = ((s.core w.core).qOf n).drop (pops srcs n)
  mail : ∀ n, tfind (t.core w.core).mbox n = if n ∈ mboxesOf srcs then none else tfind (s.core w.core).mbox n
  tokens : ∀ n, (t.core w.core).token n = (s.core w.core).token n - (if n ∈ takeFifos .x c.take then 1 else 0) +
    (if late = false ∧ n ∈ giveFifos .x c.give then 1 else 0)
  slots : ∀ n, (t.core w.core).slots n =
    (s.core w.core).slots n + (if late = true ∧ n ∈ giveFifos .x c.give then 1 else 0)
  frame : t.core w.core = { s.core w.core with
    x := { (s.core w.core).x with
      pc := s.pcOf w + 8, run := s.runNext w, at_ := .free, pend := (t.core w.core).x.pend,
      qflags := (s.core w.core).x.qflags ||| (if late then 0 else o.flags),
      dph := if rnd = .rdi then BitVec.ofNat 64 (((s.stream w).phase + 1) % 32) else (s.core w.core).x.dph },
    xs := { (s.core w.core).xs with
      v := (t.core w.core).xs.v, vempty := (t.core w.core).xs.vempty, p := (t.core w.core).xs.p },
    ms := { (s.core w.core).ms with e := (t.core w.core).ms.e, efull := (t.core w.core).ms.efull },
    q := (t.core w.core).q, w := (t.core w.core).w, mbox := (t.core w.core).mbox, tokens := (t.core w.core).tokens,
    reserved := (t.core w.core).reserved, nextId := (t.core w.core).nextId }
  only : OnlyCore w.core s t

/-- What the word of a long form of the execute engine says beside its operation (R45 to R47): its control fields, its sources
in operand order, its target, the rounding that steps `dph`, whether its guard is an operand (R174, R176), and whether it is a
long-latency producer whatever its sources (R102). -/
structure XShape where
  ctl : XCtl
  srcs : List XSrc
  target : XTarget
  rnd : Rnd
  guardOp : Bool
  long : Bool
  deriving DecidableEq, Repr

def xShape : Instr → Option XShape
  | .vadd d a b _ _ c | .vsub d a b _ _ c | .vmul d a b _ _ c | .vmulh d a b _ c | .vlog d a b _ _ c | .vsh d a b _ _ c
  | .vmin d a b _ c | .vmax d a b _ c | .vclmul d a b _ c => some ⟨c, [a, b], .vec d, .rne, false, false⟩
  | .vmad d a b z _ _ c | .vslide d a b z _ _ c | .vhist d a b z _ _ c => some ⟨c, [a, b, z], .vec d, .rne, false, false⟩
  | .vabs d a _ _ c | .vmov d a _ c | .vspars d a _ _ c => some ⟨c, [a], .vec d, .rne, false, false⟩
  | .vfadd d a b _ r c | .vfsub d a b _ r c | .vfmul d a b _ r c | .vcvt d a b _ _ r _ c | .vqpack d a b _ _ r c
  | .vqunpk d a b _ r c => some ⟨c, [a, b], .vec d, r, false, false⟩
  | .vfma d a b z _ r _ c => some ⟨c, [a, b, z], .vec d, r, false, false⟩
  | .vfdiv d a b _ r c => some ⟨c, [a, b], .vec d, r, false, true⟩
  | .vfsqrt d a _ r c => some ⟨c, [a], .vec d, r, false, true⟩
  | .vcmp p a b _ _ c => some ⟨c, [a, b], .pred p, .rne, false, false⟩
  | .vsel d a b _ c => some ⟨c, [a, b], .vec d, .rne, true, false⟩
  | .viota d a _ c => some ⟨c, [a], .vec d, .rne, true, false⟩
  | .vperm d a b z _ op c => some ⟨c, if op = 1 then [a, b, z] else [a, b], .vec d, .rne, false, false⟩
  | .vred d a _ _ r c => some ⟨c, [a], .vec d, r, false, false⟩
  | .vscan d a b z _ op r c =>
    some ⟨c, if op < 3 then [a, z] else if op = 3 then [a, b, z] else [a, b], .vec d, r, false, false⟩
  | .vtopk d a b _ _ c => some ⟨c, [a, b], match d with | .vec v => .vec v | .p n => .pred n, .rne, false, false⟩
  | .cscan d a b z _ op _ _ c => some ⟨c, if op = 3 then [a, b, z] else [a, z], .vec d, .rne, false, false⟩
  | _ => none

/-- Nothing stops or nullifies the well-formed long form `i` on stream `w`. -/
def XCan (i : Instr) (s : State) (w : Who) : Prop :=
  i.wf .x = true ∧ ∃ h, xShape i = some h ∧ XReady s w h.ctl h.srcs h.target h.guardOp

/-- Instruction `i` runs as a long form with the result `o`. -/
def XDoes (i : Instr) (s : State) (w : Who) (o : XOut) : Prop :=
  ∃ h t, xShape i = some h ∧ exec i s = .next t ∧
    XEffect s t w h.ctl h.srcs h.target h.rnd (h.long || readsMail h.srcs) h.guardOp o

/-- A form whose result is a whole vector without a flag, element by element. -/
def XElements (i : Instr) (s : State) (w : Who) (ty : Ty) (f : Nat → Nat) : Prop :=
  ∃ o, XDoes i s w o ∧ o.part = BitVec.allOnes 512 ∧ o.flags = 0 ∧ ∀ j < 512 / ty.width, vget ty.width o.vec j = f j

/-- A form whose result is a whole vector of rounded elements: each code, and the union of the flags. -/
def XRounded (i : Instr) (s : State) (w : Who) (ty : Ty) (f : Nat → Nat × Word) : Prop :=
  ∃ o, XDoes i s w o ∧ o.part = BitVec.allOnes 512 ∧ (∀ j < 512 / ty.width, vget ty.width o.vec j = (f j).1) ∧
    ∀ m < 64, o.flags.getLsbD m = (List.range (512 / ty.width)).any (fun j => (f j).2.getLsbD m)

/-- Source `n` of a long form as a vector of a type (R46, R105, R153). -/
def xIn (s : State) (w : Who) (srcs : List XSrc) (n : Nat) (ty : Ty) : Vec := (src (sourceVals (s.core w.core) srcs) n).as ty

/-- Source `n` of a long form as a whole scalar (R153). -/
def xScalar (s : State) (w : Who) (srcs : List XSrc) (n : Nat) : Word := (src (sourceVals (s.core w.core) srcs) n).word64

/-! ## The long forms of the access engine (R210, R211, R234, R242) -/

/-- Nothing stops a long form of stream `w` of the access engine: the partners of take and give exist, the registers that it
reads have their values, every token is there and every FIFO has a slot. -/
structure AReady (s : State) (w : Who) (c : ACtl) (regs : List Nat) : Prop where
  acts : Acts s w
  eng : w.eng = .a
  regs : Full s w regs
  takes : (s.core w.core).hasEngines (partners .a c.take) = true
  gives : (s.core w.core).hasEngines (partners .a c.give) = true
  tokens : (s.core w.core).hasTokens (takeFifos .a c.take) = true
  slots : (s.core w.core).fullFifo (giveFifos .a (c.give % 4)) = none
  line : Straight s w 8

/-- The state in which a form of stream `w` has taken its tokens and reserved the slots of its gives. -/
def State.tookA (s : State) (w : Who) (c : ACtl) : State :=
  s.setCore w.core (((s.core w.core).reserve (giveFifos .a (c.give % 4))).takeAll (takeFifos .a c.take))

/-- A base operand that an asynchronous form captures: an aligned register value, or the object of a valid handle. -/
def Captured (s : State) (w : Who) (b : ABase) (align : Nat) (v : Base) : Prop :=
  match b with
  | .reg n => (regOf s w n).toNat % align = 0 ∧ v = .va (regOf s w n)
  | .handle h => ∃ slot, handleSlot s w h = some slot ∧ v = .obj slot

/-- A form of stream `w` put the transfer `op` into slot `slot`: its tokens are taken, the slots of its gives reserved, the
rounding phase is the one it found, `bag` is the `tval` of a bag that ends before it begins, what it writes to det pages is counted as
far as it is known (R369), and the stream goes on 8 bytes on.
Outside deterministic commits its buffer is as it was; queues and feeds are what `op` says, the rest of the package unchanged. -/
structure Started (s t : State) (w : Who) (c : ACtl) (slot : Nat) (rnd : Rnd) (bag : Word) (op : XferOp) : Prop where
  xfers : (t.core w.core).as.xfers = tset (s.core w.core).as.xfers slot
    ⟨op, 0, false, c.give, (s.stream w).phase, 0, (s.core w.core).nextId, [], [], bag, [], [], [],
      detCount (s.tookA w c) w.core op, 0⟩
  tokens : ∀ n, (t.core w.core).token n = (s.core w.core).token n - (if n ∈ takeFifos .a c.take then 1 else 0)
  slots : ∀ n, (t.core w.core).slots n = (s.core w.core).slots n + (if n ∈ giveFifos .a c.give then 1 else 0)
  frame : t.core w.core = { s.core w.core with
    as := { (s.core w.core).as with xfers := (t.core w.core).as.xfers },
    ms := { (s.core w.core).ms with feeds := (t.core w.core).ms.feeds, nextFeed := (t.core w.core).ms.nextFeed },
    a := { (s.core w.core).a with
      pc := s.pcOf w + 8, run := s.runNext w, at_ := .free,
      dph := if rnd = .rdi then BitVec.ofNat 64 (((s.stream w).phase + 1) % 32) else (s.core w.core).a.dph },
    q := (t.core w.core).q, tokens := (t.core w.core).tokens, reserved := (t.core w.core).reserved,
    nextId := (t.core w.core).nextId, det := (t.core w.core).det }
  det : (s.ctx (s.core w.core).ctx).mmode ≠ 2 → (t.core w.core).det = (s.core w.core).det
  only : OnlyCore w.core s t

/-- A form of the A stream `w` put `op` into a slot and touched neither queues nor feeds. -/
def StartsXfer (i : Instr) (s : State) (w : Who) (c : ACtl) (slot : Nat) (rnd : Rnd) (bag : Word) (op : XferOp) : Prop :=
  ∃ t, exec i s = .next t ∧ Started s t w c slot rnd bag op ∧ (t.core w.core).q = (s.core w.core).q ∧
    (t.core w.core).ms = (s.core w.core).ms

/-- Nothing pending of a stream touches bytes of these parts. -/
def Clear (k : Core) (segs : List Seg) : Prop := ∀ p ∈ k.a.pend, segsMeet p.op.segs segs = false

/-- Every part has its home in this package. -/
def Here (segs : List Seg) : Prop := ∀ g ∈ segs, g.isRemote = false

/-- Core `c` reads `n` bytes of this package at `va` for a form of its A stream: their values, and the state after it. -/
def ReadsAs (s : State) (c va n : Nat) (l : List Byte) (t : State) : Prop :=
  ∃ parts s1, openAccess s c (syncAcc .read 8) (.va va) n = .ok (parts, s1) ∧ Here parts ∧
    gather c (.instr c .a) (parts.flatMap (fun g => pieces (g.len / 512 + 1) g)) s1 = .ok l t

/-- Stream `w` stands at the act `m` until an event completes it. -/
def State.standsAt (s : State) (w : Who) (m : Meet) : State := s.setStream w { s.stream w with run := .waiting, at_ := m }

/-- Instruction `i` waits: the stream issues it again, with nothing else changed. -/
def Waits (i : Instr) (s : State) (w : Who) : Prop := exec i s = .next (s.setStream w { s.stream w with run := .waiting })

/-- A queue's entries after `n` more have been reserved. -/
def Reserved (old new : List QEnt) (ids : List Nat) : Prop := new = old ++ ids.map (fun i => ⟨i, none⟩)

/-! ## The commands of the matrix engine (R287, R290) -/

/-- Nothing stops a command of stream `w` of the matrix engine from entering the window: the partners of take and give exist, its
registers have their values, the window has room and every FIFO of its give has a slot. -/
structure MReady (s : State) (w : Who) (c : MCtl) (regs : List Nat) : Prop where
  acts : Acts s w
  eng : w.eng = .m
  regs : Full s w regs
  takes : (s.core w.core).hasEngines (partners .m c.take) = true
  gives : (s.core w.core).hasEngines (partners .m c.give) = true
  room : (s.core w.core).ms.window.length < 16
  slots : (s.core w.core).fullFifo (giveFifos .m (c.give % 4)) = none
  line : Straight s w 8

/-- Every unbound feed has the row type of each MRUN that has not ended, so that no binding suspends one (R293). -/
def FeedsFit (k : Core) : Prop :=
  ∀ d ∈ k.allCmds, ∀ f ∈ k.ms.feeds, d.op.isRun = true → d.state ≠ .retired → d.state ≠ .cancelled → f.bound = none → d.rowTy = f.ty

/-- The core once the MRUN whose turn it is has bound the next unbound feed (R293). -/
def Core.bound (k : Core) : Core := match k.binds with | some (c, f) => setBound k f.id c.seq | none => k

/-- Instruction `i` enters the command `op` behind those of the window, with the slots of its gives reserved, the rounding phase it
found, and the commands of its predecessor fields; records of other ids stay; the stream goes on 8 bytes on. -/
def Enters (i : Instr) (s : State) (w : Who) (c : MCtl) (rnd : Rnd) (op : MOp) : Prop :=
  let k := s.core w.core
  let cmd : Cmd := ⟨k.ms.nextCmd, c.cid, op, .entered, c.take, c.give, predecessor k c.pred1 ++ predecessor k c.pred2,
    k.m.phase, false, 0, 0, [], [], [], none, 0, [], 0⟩
  ∃ t, exec i s = .next t ∧ (t.core w.core).ms.window = k.ms.window ++ [cmd] ∧
    (t.core w.core).ms.nextCmd = k.ms.nextCmd + 1 ∧
    (∀ r ∈ (t.core w.core).ms.records, r ∈ k.ms.records) ∧
    (∀ r ∈ k.ms.records, r.cid ≠ c.cid → r ∈ (t.core w.core).ms.records) ∧
    (∀ n, (t.core w.core).slots n = k.slots n + (if n ∈ giveFifos .m c.give then 1 else 0)) ∧
    t.core w.core = { k with
      ms := { k.ms with
        window := (t.core w.core).ms.window, records := (t.core w.core).ms.records, nextCmd := k.ms.nextCmd + 1 },
      reserved := (t.core w.core).reserved,
      m := { k.m with
        pc := s.pcOf w + 8, run := s.runNext w, at_ := .free,
        dph := if rnd = .rdi then BitVec.ofNat 64 ((k.m.phase + 1) % 32) else k.m.dph } } ∧
    OnlyCore w.core s t

/-! ## Decoding (R61, R183, R272) -/

/-- The profile to which a form resolves is one that its operation and types accept (R96, R183, R272). -/
def profileFits (c : DCtx) : Instr → Bool
  | .vred _ _ t op r x => reduceOk false (op == 0) t (c.resolve x.np) r
  | .vscan _ _ _ _ t op r x => reduceOk (3 ≤ op) (op == 0) t (c.resolve x.np) r
  | .cscan _ _ _ _ t op _ r x => cscanOk op t (c.resolve x.np) r
  | .cpgath _ _ _ _ op _ sty _ _ x => op == 0 || poolOk (c.resolve x.np) sty
  | .cpscat _ _ _ add _ sty _ _ x => !add || poolOk (c.resolve x.np) sty
  | _ => true

/-! ## The host and the fabric (R430, R432, R448, R464) -/

/-- The message of a command is the next one of an open session in which no command is still to be completed or begun, by a port that is
up. -/
def HostNext (s : State) (h : HostHdr) : Prop :=
  s.session.phase = .opened ∧ h.port < (if s.recovery then 1 else 4) ∧ h.seq = s.session.seqIn + 1 ∧
    (∀ e ∈ s.endings, e.command = none) ∧ (∀ o ∈ s.ops, o.answers = false) ∧ s.session.waiting = []

/-- The message of a command is accepted; the device uses its port from here on (R427, R430). -/
def State.hears (s : State) (h : HostHdr) : State :=
  { s with session := { s.session with
      seqIn := h.seq, failed := 0, last := s.clock, ports := h.port :: s.session.ports.filter (fun p => p != h.port) } }

/-- The host gets the response to a command, with the next number and the HMAC of the session: its status, and what follows the command's
sequence number; that of a bulk command over RUD (R427, R430). -/
def State.replies (s : State) (h : HostHdr) (rud : Bool) (status : Nat) (payload : List Byte) : State :=
  let m : HostMsg := .response h.seq status payload
  let n := s.session.seqOut + 1
  { s with
    session := { s.session with seqOut := n }, toHost := s.toHost ++ [⟨h.port, rud, n, m, hmacSm3 s.session.macKey (m.bytes n)⟩] }

/-- The state after a reset of `s`: everything as `State.reset` has it but the package's number, its incarnation and boots, whether
it is in recovery, the slot that runs, what went out before, and the model's own order of turns (R437 to R439). -/
def State.restarted (s : State) (recovery : Bool) (slot : Nat) : State :=
  { State.reset with
    pkgId := s.pkgId, incarnation := (s.incarnation + 1) % 2 ^ 48, boots := s.boots + 1, recovery := recovery, slot := slot, flash := s.flash,
    agenda := s.agenda, turn := s.turn, steps := s.steps, clock := s.clock, toFabric := s.toFabric, toHost := s.toHost }

/-- The package sends a message over the fabric. -/
def State.sends (s : State) (m : FabMsg) : State := { s with toFabric := s.toFabric ++ [m] }

/-- No request to a package is still without a reply. -/
def AllReplied (s : State) (pkg : Nat) : Prop := ∀ q ∈ s.requests, q.dst = pkg → q.reply ≠ none

/-- The request is one of another package to this one, in its present incarnation. -/
def Reaches (s : State) (r : FabReq) : Prop :=
  r.dstPkg = s.pkgId ∧ r.srcPkg ≠ s.pkgId ∧ r.inc % 65536 = s.incarnation % 65536

/-- The commands of a window with command `c` in the place of the one with its number. -/
def inPlace (c : Cmd) (l : List Cmd) : List Cmd := l.map (fun d => if d.seq = c.seq then c else d)

end Sys2Proof.Machine
end

