-- ==== Sys2Proof/Certificates/Slice0/Obligations.lean ====
section
/-! DEFINITION. The statements for the provers: what the rules of the spec say that instructions, events and the machine do. -/

open Sys2Proof Sys2Proof.Machine

/-! ## The machine as a whole -/

/-- When a stream may issue, has no late cause to take and returns to no wait, the words at its pc decode to `i`, and the state after
their fetch is `f`, then the step is `exec i f` (R61, R98). A shadow handler runs only what R232 allows, and meets no empty register.
Words that decode to nothing raise their cause, and a fetch that is refused takes the fetch fault (R64). An event of the machine is
`exec` of it, but in a domain that has just frozen for a fault. After a step in which a hold has come upon cores, their waiting streams
attempt once more; after any other nothing follows. The model's own choice in it: which stream acts next is a free value (log 3), exec
reads the actor from the turn (log 9), the shadow handler's turns and the faults of one cycle follow log 14, and what a hold lets
streams attempt follows log 13. -/
def Obligations.StepRunsDecoded : Prop :=
  (∀ (s : State) (w : Who),
    let u := beginTurn s
    let f := fetched u w
    u.turn = .stream w.core w.eng → w.core < 512 → mayIssue u w = true → ((u.stream w).super = true ∨ (u.stream w).late = []) →
    returnsTo u w = none →
    (∀ (w1 w2 : Nat) (i : Instr), fetchWords u w = .ok (w1, w2) → decodeWords (decodeCtx u w) w1 w2 = .ok i →
      (shadow f w = false → step s = afterTurn u (exec i f)) ∧
      (shadow f w = true → shadowAllows i = false → step s = afterTurn u (.next (shadowFatal f w))) ∧
      (shadow f w = true → shadowAllows i = true → ∀ t, exec i f = .next t →
        step s = afterTurn u (.next (if shadowStuck f t w then shadowFatal f w else t)))) ∧
    (∀ (w1 w2 : Nat) (d : DecodeFault), fetchWords u w = .ok (w1, w2) → decodeWords (decodeCtx u w) w1 w2 = .error d →
      step s = afterTurn u (.next (takeTrap f w d.cause d.tval))) ∧
    (∀ (cause : Nat) (v : Word), fetchWords u w = .error (cause, v) → shadow f w = false →
      step s = afterTurn u (exec (.instructionFetchFault cause v) f))) ∧
  (∀ (s : State) (i : Instr), let u := beginTurn s
    u.turn = .event i → isEvent i = true → (∀ c, workOf i = some c → freshFreeze u (clusterOf c) = false) →
    step s = afterTurn u (exec i u)) ∧
  (∀ u t : State, (∀ c, (t.core c).held = true → (u.core c).held = true) → afterTurn u (.next t) = .next t)

/-- Words written out from the encodings of R40 to R51 decode to the instructions they stand for. -/
def Obligations.WordsDecode : Prop :=
  -- add a4, a5, a6: major 0x01, d 4, a 5, b 6
  decodeTableWord 32 (0x01 * 2 ^ 25 + 4 * 2 ^ 19 + 5 * 2 ^ 13 + 6 * 2 ^ 7) = some (.add 4 5 6) ∧
  -- ext.z a4, a6, 8, 4 (R125)
  decodeTableWord 32 0x3020D203 = some (.ext 4 6 true 8 3) ∧
  -- movi a5, 0x1000; tlbp.at a12, a4; stt [a4], a5 (the worked program of R388)
  decodeTableWord 32 0x28281000 = some (.movi 5 0x1000) ∧
  decodeTableWord 32 0x96608001 = some (.tlbp 12 4 true) ∧
  decodeTableWord 32 0x8A288000 = some (.stt 5 (.reg 4) (.imm 0)) ∧
  -- bar.tm die, a, a11 (the worked program of R385)
  decodeTableWord 32 0x4601601B = some (.barTm 11 1 3)

/-- After reset memory and the tile stores have the canonical form, and every byte of them reads 0 (R207, R439). The model's own
choice in it: that bytes which nothing has written read 0 (log 76). -/
def Obligations.ResetMemoryCanonical : Prop :=
  Canonical State.reset ∧ (∀ a, readB State.reset.mem a = 0) ∧ (∀ c a, readB (State.reset.core c).tile a = 0)

/-! ## The shared control subset: arithmetic and logic (R124 to R126) -/

/-- Addition, subtraction and multiplication modulo 2^64 (R124). Division truncates toward zero, never faults, and has the edge
cases of R126. -/
def Obligations.ArithmeticAndDivision : Prop :=
  (∀ (s : State) (w : Who) (d a b : Nat) (imm : Int), CanRun s w [a, b, d] 4 →
      let A := regOf s w a
      let B := regOf s w b
      let D := regOf s w d
      WritesReg (.add d a b) s w d (BitVec.ofNat 64 (A.toNat + B.toNat)) ∧
      WritesReg (.sub d a b) s w d (BitVec.ofInt 64 ((A.toNat : Int) - B.toNat)) ∧
      WritesReg (.addi d a imm) s w d (BitVec.ofInt 64 (A.toNat + imm)) ∧
      WritesReg (.mul d a b) s w d (BitVec.ofNat 64 (A.toNat * B.toNat)) ∧
      WritesReg (.mulh d a b false) s w d (BitVec.ofInt 64 ((A.toInt * B.toInt).fdiv (2 ^ 64 : Nat))) ∧
      WritesReg (.mulh d a b true) s w d (BitVec.ofNat 64 (A.toNat * B.toNat / 2 ^ 64)) ∧
      WritesReg (.madd d a b) s w d (BitVec.ofNat 64 (D.toNat + A.toNat * B.toNat))) ∧
  (∀ (s : State) (w : Who) (d a b : Nat), CanRun s w [a, b, d] 4 →
      let A := regOf s w a
      let B := regOf s w b
      (B = 0 → ∀ z, WritesReg (.div d a b false z) s w d (BitVec.allOnes 64) ∧ WritesReg (.div d a b true z) s w d A) ∧
      (B ≠ 0 → WritesReg (.div d a b false true) s w d (BitVec.ofNat 64 (A.toNat / B.toNat)) ∧
        WritesReg (.div d a b true true) s w d (BitVec.ofNat 64 (A.toNat % B.toNat)) ∧
        ∃ q r : Int, A.toInt = q * B.toInt + r ∧ r.natAbs < B.toInt.natAbs ∧ (r = 0 ∨ (0 < r ↔ 0 < A.toInt)) ∧
          WritesReg (.div d a b false false) s w d (BitVec.ofInt 64 q) ∧
          WritesReg (.div d a b true false) s w d (BitVec.ofInt 64 r)))

/-- Logic, constants and NOP (R124); bit by bit. -/
def Obligations.LogicResults : Prop :=
  ∀ (s : State) (w : Who) (d a b pos imm16 : Nat) (imm : Int), CanRun s w [a, b, d] 4 → pos < 4 → imm16 < 2 ^ 16 →
    let A := regOf s w a
    let B := regOf s w b
    let D := regOf s w d
    let I : Word := BitVec.ofInt 64 imm
    (∀ (i : Instr) (f : Bool → Bool → Bool),
      (i, f) ∈ [(.and d a b, Bool.and), (.or d a b, Bool.or), (.xor d a b, Bool.xor)] →
      ∃ v : Word, WritesReg i s w d v ∧ ∀ n < 64, v.getLsbD n = f (A.getLsbD n) (B.getLsbD n)) ∧
    (∀ (i : Instr) (f : Bool → Bool → Bool),
      (i, f) ∈ [(.andi d a imm, Bool.and), (.ori d a imm, Bool.or), (.xori d a imm, Bool.xor)] →
      ∃ v : Word, WritesReg i s w d v ∧ ∀ n < 64, v.getLsbD n = f (A.getLsbD n) (I.getLsbD n)) ∧
    WritesReg (.movi d imm) s w d I ∧
    (∃ v : Word, WritesReg (.movk d pos imm16) s w d v ∧
      ∀ n < 64, v.getLsbD n = if 16 * pos ≤ n ∧ n < 16 * pos + 16 then imm16.testBit (n - 16 * pos) else D.getLsbD n) ∧
    exec .nop s = .next (s.goTo w (s.pcOf w + 4))

/-- Shifts by a register's low six bits and by a constant, selection and counting (R124), and bit fields (R125): a field that
leaves the register raises 0x02 with lsb 0 in `tval`. -/
def Obligations.ShiftsAndSelections : Prop :=
  (∀ (s : State) (w : Who) (d a b n : Nat), CanRun s w [a, b, d] 4 → n < 64 →
      let A := regOf s w a
      let k := (regOf s w b).toNat % 64
      WritesReg (.shl d a b) s w d (BitVec.ofNat 64 (A.toNat * 2 ^ k)) ∧
      WritesReg (.shlImm d a n) s w d (BitVec.ofNat 64 (A.toNat * 2 ^ n)) ∧
      WritesReg (.shr d a b) s w d (BitVec.ofNat 64 (A.toNat / 2 ^ k)) ∧
      WritesReg (.shrImm d a n) s w d (BitVec.ofNat 64 (A.toNat / 2 ^ n)) ∧
      WritesReg (.sra d a b) s w d (BitVec.ofInt 64 (A.toInt.fdiv (2 ^ k : Nat))) ∧
      WritesReg (.sraImm d a n) s w d (BitVec.ofInt 64 (A.toInt.fdiv (2 ^ n : Nat)))) ∧
  (∀ (s : State) (w : Who) (d a b lsb wm1 : Nat), CanRun s w [a, b, d] 4 → lsb < 64 → wm1 < 64 →
      let A := regOf s w a
      let B := regOf s w b
      WritesReg (.min d a b false) s w d (if A.toInt ≤ B.toInt then A else B) ∧
      WritesReg (.min d a b true) s w d (if A.toNat ≤ B.toNat then A else B) ∧
      WritesReg (.max d a b false) s w d (if B.toInt ≤ A.toInt then A else B) ∧
      WritesReg (.max d a b true) s w d (if B.toNat ≤ A.toNat then A else B) ∧
      WritesReg (.slt d a b false) s w d (if A.toInt < B.toInt then 1 else 0) ∧
      WritesReg (.slt d a b true) s w d (if A.toNat < B.toNat then 1 else 0) ∧
      (∃ n, n ≤ 64 ∧ A.toNat < 2 ^ (64 - n) ∧ (n < 64 → 2 ^ (63 - n) ≤ A.toNat) ∧
        WritesReg (.clz d a) s w d (BitVec.ofNat 64 n)) ∧
      WritesReg (.popc d a) s w d (BitVec.ofNat 64 ((List.range 64).filter (fun i => A.getLsbD i)).length) ∧
      (lsb + (wm1 + 1) ≤ 64 →
        WritesReg (.ext d a true lsb wm1) s w d (BitVec.ofNat 64 (A.toNat / 2 ^ lsb % 2 ^ (wm1 + 1))) ∧
        WritesReg (.ext d a false lsb wm1) s w d ((A.extractLsb' lsb (wm1 + 1)).signExtend 64)) ∧
      (64 < lsb + (wm1 + 1) → ∀ z, Traps (.ext d a z lsb wm1) s w 0x02 (opTval (.ext d a z lsb wm1) false 0)))

/-- A write of a short form to a register whose producer has not landed takes effect after the landing: the value that the form would
write joins the stream's pending values, and the register reads as before (R103). An empty source makes a short form wait, with nothing
else changed. The model's own choice in it: a waiting instruction leaves all but the run state and is tried again (log 10). -/
def Obligations.EmptyRegisters : Prop :=
  ∀ (s : State) (w : Who) (d a b n lsb wm1 pos imm16 : Nat) (imm : Int) (z rem : Bool) (c : Cond), Acts s w → n < 64 →
    lsb + (wm1 + 1) ≤ 64 →
    let S := s.stream w
    let k := s.core w.core
    let two : List Instr := [.add d a b, .sub d a b, .mul d a b, .mulh d a b z, .div d a b rem z, .and d a b, .or d a b, .xor d a b,
      .shl d a b, .shr d a b, .sra d a b, .min d a b z, .max d a b z, .slt d a b z]
    let one : List Instr := [.addi d a imm, .andi d a imm, .ori d a imm, .xori d a imm, .shlImm d a n, .shrImm d a n, .sraImm d a n,
      .clz d a, .popc d a, .ext d a z lsb wm1]
    (∀ i srcs, (i ∈ two ∧ srcs = [a, b]) ∨ (i ∈ one ∧ srcs = [a]) ∨ (i ∈ [Instr.movi d imm, .rdcyc d] ∧ srcs = []) →
      Full s w srcs → Straight s w 4 → S.full d = false →
      ∃ v, WritesReg i (s.setStream w { S with empty := [] }) w d v ∧
        exec i s = .next (s.coreGoes w (Core.setStream { k with nextId := k.nextId + 1 } w.eng { S with
          pend := S.pend ++ [⟨k.nextId, .scalar d v 0⟩] }))) ∧
    (∀ i srcs, (i ∈ two ∧ srcs = [a, b]) ∨ (i ∈ one ∧ srcs = [a]) ∨ (i = .madd d a b ∧ srcs = [a, b, d]) ∨
        (i = .movk d pos imm16 ∧ srcs = [d]) ∨ (i = .bc c a b imm ∧ srcs = [a, b]) ∨ (i ∈ [Instr.jr a, .jrLk d a] ∧ srcs = [a]) →
      (∃ m ∈ srcs, S.full m = false) → Waits i s w)

/-! ## Control transfers and loops (R127 to R131) -/

/-- Branches, calls and jumps (R127): the target, the link, and the 0x13 of a target that is no multiple of 4 (R37). JR reads its
register before it writes the link. -/
def Obligations.ControlTransfers : Prop :=
  ∀ (s : State) (w : Who) (c : Cond) (d a b : Nat) (off : Int), Acts s w → Full s w [a, b, d, linkReg w.eng] →
    let here := s.pcOf w
    let target : Word := BitVec.ofInt 64 (here.toNat + 4 * off)
    let A := regOf s w a
    (condMeets c A (regOf s w b) = true → StaysIn (s.stream w) target true false →
      exec (.bc c a b off) s = .next (s.goTo w target)) ∧
    (condMeets c A (regOf s w b) = false → Straight s w 4 →
      exec (.bc c a b off) s = .next (s.goTo w (here + 4))) ∧
    (StaysIn (s.stream w) target true false → exec (.br off) s = .next (s.goTo w target)) ∧
    (StaysIn (s.stream w) target true true →
      ∃ t, exec (.call off) s = .next t ∧ Wrote s t w (linkReg w.eng) (here + 4) target 0 (s.stream w).dph) ∧
    (A.toNat % 4 = 0 → StaysIn (s.stream w) A true false → exec (.jr a) s = .next (s.goTo w A)) ∧
    (A.toNat % 4 = 0 → StaysIn (s.stream w) A true true →
      ∃ t, exec (.jrLk d a) s = .next t ∧ Wrote s t w d (here + 4) A 0 (s.stream w).dph) ∧
    (A.toNat % 4 ≠ 0 → Traps (.jr a) s w 0x13 A ∧ Traps (.jrLk d a) s w 0x13 A)

/-- LOOP (R130): the three 0x02 causes, a count of 0 skips the body, and any other count opens a level whose counter is `d`. The
innermost loop at its end (R131), for an instruction that transfers no control: a count that does not reach 0 goes back to the
start; a count that does pops the level, and the rest of the check follows, so that of two levels with one end the outer one turns; a
counter that is not full makes the stream wait with its instruction completed. A branch pops the levels whose bodies it leaves. -/
def Obligations.LoopsOpenAndTurn : Prop :=
  (∀ (s : State) (w : Who) (d a : Nat) (imm : Int), Acts s w →
      let here := s.pcOf w
      let stop : Word := BitVec.ofInt 64 (here.toNat + 4 * imm)
      let levels := ((s.stream w).loops.filter (fun l => !l.pipelined)).length
      (imm < 1 → Traps (.loop d a imm) s w 0x02 (opTval (.loop d a imm) false 0)) ∧
      (1 ≤ imm → d = 0 → Traps (.loop d a imm) s w 0x02 (opTval (.loop d a imm) false 19)) ∧
      (1 ≤ imm → d ≠ 0 → 4 ≤ levels → Traps (.loop d a imm) s w 0x02 (opTval (.loop d a imm) false 25)) ∧
      (1 ≤ imm → d ≠ 0 → levels < 4 → Full s w [a, d] → here.toNat + 4 < 2 ^ 64 →
        (regOf s w a = 0 → StaysIn (s.stream w) (stop + 4) true false →
          ∃ t, exec (.loop d a imm) s = .next t ∧ Wrote s t w d 0 (stop + 4) 0 (s.stream w).dph) ∧
        (regOf s w a ≠ 0 →
          ∃ t, exec (.loop d a imm) s = .next t ∧
            (t.stream w).loops = ⟨false, here + 4, stop, d⟩ :: (s.stream w).loops ∧
            Wrote s (t.setStream w { t.stream w with loops := (s.stream w).loops }) w d (regOf s w a) (here + 4) 0
              (s.stream w).dph))) ∧
  (∀ (s : State) (w : Who) (l : LoopEnt) (rest : List LoopEnt), Acts s w → (s.stream w).loops = l :: rest →
      l.pipelined = false → l.ctr ≠ 0 → s.pcOf w = l.stop → l.start.toNat ≤ l.stop.toNat →
      let c := regOf s w l.ctr
      ((s.stream w).full l.ctr = true → c ≠ 1 →
        ∃ t, exec .nop s = .next t ∧ Wrote s t w l.ctr (c - 1) l.start 0 (s.stream w).dph) ∧
      ((s.stream w).full l.ctr = true → c = 1 → rest = [] → w.eng ≠ .a →
        ∃ t, exec .nop s = .next t ∧ (t.stream w).loops = [] ∧
          Wrote s (t.setStream w { t.stream w with loops := l :: rest }) w l.ctr 0 (s.pcOf w + 4) 0 (s.stream w).dph) ∧
      ((s.stream w).full l.ctr = true → c = 1 → rest = [] → w.eng = .a →
        ∃ t, exec .nop s = .next t ∧ (t.stream w).loops = [] ∧ (t.stream w).reg l.ctr = 0 ∧ (t.stream w).pc = s.pcOf w + 4 ∧
          t.mem = s.mem ∧ (t.snifer = s.snifer ∨ ∃ r, r.length = 404 ∧ t.snifer = s.snifer ++ [r])) ∧
      ((s.stream w).full l.ctr = false →
        exec .nop s = .next (s.setStream w { s.stream w with run := .waiting, at_ := .edge (s.pcOf w) (s.pcOf w + 4) })) ∧
      (∀ l2 more, rest = l2 :: more → l2.pipelined = false → l2.ctr ≠ 0 → l2.ctr ≠ l.ctr → l2.stop = l.stop →
        l2.start.toNat ≤ l2.stop.toNat → Full s w [l.ctr, l2.ctr] → c = 1 → regOf s w l2.ctr ≠ 1 → w.eng ≠ .a →
        ∃ t, exec .nop s = .next t ∧ OnlyCore w.core s t ∧
          (∀ n, (t.stream w).reg n = if n = l2.ctr then regOf s w l2.ctr - 1 else if n = l.ctr then 0 else regOf s w n) ∧
          t.core w.core = (s.core w.core).setStream w.eng { s.stream w with
            regs := (t.stream w).regs, loops := rest, pc := l2.start, run := s.runNext w, at_ := .free })) ∧
  (∀ (s : State) (w : Who) (left rest : List LoopEnt) (off : Int), Acts s w → w.eng ≠ .a →
      (s.stream w).loops = left ++ rest →
      let target : Word := BitVec.ofInt 64 ((s.pcOf w).toNat + 4 * off)
      (∀ l ∈ left, l.start.toNat ≤ (s.pcOf w).toNat ∧ (s.pcOf w).toNat ≤ l.stop.toNat ∧
        (target.toNat < l.start.toNat ∨ l.stop.toNat < target.toNat)) →
      StaysIn { s.stream w with loops := rest } target true false →
      exec (.br off) s = .next ((s.setStream w { s.stream w with loops := rest }).goTo w target))

/-! ## Tokens, mailboxes, joins and barriers (R132 to R145) -/

/-- GIVE and TAKE (R132, R52): every selected FIFO gains or loses one token, and nothing else changes. A full FIFO stops a GIVE
with 0x07 in gauge mode and makes it wait in rib mode; a FIFO without a token makes a TAKE wait. The value 00 raises 0x02. The
model's own choice in it: the wait is the one of log 10, and which full FIFO the tval of 0x07 names follows the FIFO order of
log 23. -/
def Obligations.TokensMove : Prop :=
  ∀ (s : State) (w : Who) (f : Nat), Acts s w → f < 4 →
    let k := s.core w.core
    let gives := giveFifos w.eng f
    let takes := takeFifos w.eng f
    (f ≠ 0 → k.hasEngines (partners w.eng f) = true → Straight s w 4 → k.fullFifo gives = none →
      ∃ t, exec (.give f) s = .next t ∧ (∀ n, (t.core w.core).token n = k.token n + (if n ∈ gives then 1 else 0)) ∧
        t = (s.setCore w.core { k with tokens := (t.core w.core).tokens }).goTo w (s.pcOf w + 4)) ∧
    (f ≠ 0 → k.hasEngines (partners w.eng f) = true → ∀ n, k.fullFifo gives = some n →
      if (s.stream w).gauge then Traps (.give f) s w 0x07 (BitVec.ofNat 64 n)
      else exec (.give f) s = .next (s.setStream w { s.stream w with run := .waiting })) ∧
    (f ≠ 0 → k.hasEngines (partners w.eng f) = true → Straight s w 4 → (∀ n ∈ takes, 0 < k.token n) →
      takeBlocked k w.eng takes = false →
      ∃ t, exec (.take f) s = .next t ∧ (∀ n, (t.core w.core).token n = k.token n - (if n ∈ takes then 1 else 0)) ∧
        t = (s.setCore w.core { k with tokens := (t.core w.core).tokens }).goTo w (s.pcOf w + 4)) ∧
    (f ≠ 0 → k.hasEngines (partners w.eng f) = true → (∃ n ∈ takes, k.token n = 0) →
      exec (.take f) s = .next (s.setStream w { s.stream w with run := .waiting })) ∧
    (f = 0 → Traps (.give f) s w 0x02 (opTval (.give f) false 0) ∧ Traps (.take f) s w 0x02 (opTval (.take f) false 0))

/-- MBR empties a full mailbox, and its value lands later in `d`, which is empty until then; on an empty mailbox, behind a stream that
the engine order serves first, and on A while accesses are still to be performed before a value of an A stream, the stream is
descheduled with nothing else changed (R107, R108, R133, R137). MBW refuses the value's high bits, a place outside the grid and an
unreachable package (R134). To the own core it writes the mailbox when that is empty and no write is held for it, and waits otherwise; to
another core, of this package or another, it joins the outbound port, or waits while that holds 16 (R134, R135). A write of A waits for
its accesses, remote stores apart; those hold it as a release with the next epoch (R137, R465). The model's own choice in it: the 24-bit
place as the tval of 0x48 and the order behind a write that is held for an own mailbox (log 22). -/
def Obligations.MailboxesMove : Prop :=
  (∀ (s : State) (w : Who) (d m : Nat), Acts s w →
      let k := s.core w.core
      (behindHeld s w = true → Waits (.mbr d m) s w) ∧
      (behindHeld s w = false → (tfind k.mbox m = none ∨ earlierReader k w.eng [m] = true ∨
          ∃ v, tfind k.mbox m = some v ∧ w.eng = .a ∧ v.byA = true ∧ k.doneA = false) →
        exec (.mbr d m) s = .next (s.setStream w { s.stream w with run := .descheduled, wants := [m] })) ∧
      (∀ v, tfind k.mbox m = some v → behindHeld s w = false → earlierReader k w.eng [m] = false →
        ¬ (w.eng = .a ∧ v.byA = true ∧ k.doneA = false) → Straight s w 4 →
        ∃ t, exec (.mbr d m) s = .next t ∧ tfind (t.core w.core).mbox m = none ∧
          (∀ n, n ≠ m → tfind (t.core w.core).mbox n = tfind k.mbox n) ∧ OnlyCore w.core s t ∧
          (t.stream w).pc = s.pcOf w + 4 ∧ (t.stream w).regs = (s.stream w).regs ∧
          (t.core w.core).tile = k.tile ∧ (t.core w.core).tokens = k.tokens ∧
          (d ≠ 0 → (t.stream w).full d = false ∧
            (t.stream w).pend = (s.stream w).pend ++ [⟨k.nextId, .scalar d v.value 0⟩]) ∧
          (d = 0 → (t.stream w).pend = (s.stream w).pend))) ∧
  (∀ (s : State) (w : Who) (m a b : Nat), Acts s w → Full s w [a, b] →
      let i : Instr := .mbw m a b
      let k := s.core w.core
      let A := regOf s w a
      let P := (regOf s w b).toNat
      let pkg := placePkg s P
      (2 ^ 24 ≤ P → Traps i s w 0x02 (opTval i false 7)) ∧
      (2 ^ 12 ≤ P → P < 2 ^ 24 → s.accepted.getLsbD 8 = false →
        Traps i s w 0x01 (tvalFeature 8 false 25 ((encode i).getD 0 0))) ∧
      (P < 2 ^ 24 → (2 ^ 12 ≤ P → s.accepted.getLsbD 8 = true) →
        (placeCore w.core P = none → Traps i s w 0x02 (opTval i false 7)) ∧
        ∀ c, placeCore w.core P = some c →
          (pkg ≠ s.pkgId → (s.peer pkg).up = false → Traps i s w 0x48 (BitVec.ofNat 64 P)) ∧
          (pkg = s.pkgId ∨ (s.peer pkg).up = true → w.eng = .a → k.settledA = false → Waits i s w) ∧
          -- the own core
          (pkg = s.pkgId → c = w.core → (w.eng = .a → k.settledA = true) →
            let kept : Prop := (tfind k.mbox m).isSome = true ∨ (∃ g ∈ k.holding, g.mbox = m) ∨ m ∈ heldOwn s c ∨
              (w.eng = .a ∧ heldOwn s c ≠ [])
            (kept → Waits i s w) ∧
            (¬ kept → Straight s w 4 →
              (w.eng ≠ .a → ∃ v, v.value = A ∧ v.byA = false ∧
                exec i s = .next (s.coreGoes w { k with mbox := tset k.mbox m v })) ∧
              (w.eng = .a → k.behind = [] → ∃ v, v.value = A ∧ v.byA = true ∧
                exec i s = .next (s.coreGoes w { k with
                  as := { k.as with epoch := k.nextEpoch }, mbox := tset k.mbox m v })) ∧
              (w.eng = .a → k.behind ≠ [] → ∃ g : MboxMsg, g.value = A ∧ g.mbox = m ∧ g.dstCore = c ∧ g.dstPkg = s.pkgId ∧
                g.srcCore = c ∧ g.rel = k.nextEpoch + 1 ∧
                exec i s = .next (({ s with
                  relActs := s.relActs ++ [⟨c, k.nextEpoch, k.behind, P, s.pkgId, none⟩],
                  releases := s.releases ++ [.mail g] } : State).coreGoes w { k with
                    as := { k.as with epoch := k.nextEpoch } })))) ∧
          -- another core
          (pkg = s.pkgId ∨ (s.peer pkg).up = true → ¬ (pkg = s.pkgId ∧ c = w.core) → (w.eng = .a → k.settledA = true) →
            (16 ≤ k.outbound.length → Waits i s w) ∧
            (k.outbound.length < 16 → Straight s w 4 → ∃ g : MboxMsg, g.value = A ∧ g.mbox = m ∧ g.dstCore = c ∧ g.dstPkg = pkg ∧
              g.srcCore = w.core ∧ g.ctx = k.ctx ∧ g.launch = k.record ∧
              (w.eng ≠ .a → g.rel = 0 ∧ exec i s = .next (s.coreGoes w { k with outbound := k.outbound ++ [g] })) ∧
              (w.eng = .a → g.rel = k.nextEpoch + 1 ∧
                exec i s = .next (({ s with relActs := s.relActs ++
                    (if k.behind = [] then [] else [⟨w.core, k.nextEpoch, k.behind, P, pkg, none⟩]) } : State).coreGoes w { k with
                  as := { k.as with epoch := k.nextEpoch }, outbound := k.outbound ++ [g] }))))))

/-- RDV ends a stream that has finished its work, which then never issues again (R139, R116); RDV with a mask stands at its join
until every named stream has reached it (R140); a mask that omits the engine or names a missing stream raises 0x02. The model's
own choice in it: RDV waits for the accesses of A, remote stores included (log 18), and where a quantum buffers stores of the core it
stands until their commit (log 44). -/
def Obligations.RendezvousJoins : Prop :=
  ∀ (s : State) (w : Who) (g : Nat), Acts s w →
    (mayEnd s w = false → endsAtCommit s w = false → exec .rdv s = .next (s.setStream w { s.stream w with run := .waiting })) ∧
    (endsAtCommit s w = true → exec .rdv s = .next (s.standsAt w .committing)) ∧
    (∀ j, mayEnd s w = true → (w.eng = .a → (s.core w.core).det.writes = []) → (s.core w.core).job = some j →
      (∃ e ∈ j.streams, e ≠ w.eng ∧ (s.stream ⟨w.core, e⟩).run ≠ .ended) →
      exec .rdv s = .next (s.setStream w { s.stream w with run := .ended })) ∧
    (∀ j, mayEnd s w = true → (s.core w.core).job = some j →
      (∀ e ∈ j.streams, e ≠ w.eng → (s.stream ⟨w.core, e⟩).run = .ended) → (s.core w.core).settled = true →
      ∃ t, exec .rdv s = .next t ∧ (t.core w.core).job = none ∧ (t.core w.core).mbox = [] ∧ (t.core w.core).tokens = [] ∧
        (t.core w.core).q = [] ∧ (t.core w.core).w = [] ∧ (t.core w.core).holding = [] ∧ (t.stream w).run = .ended) ∧
    (badMask s w g = true → Traps (.rdvMask g) s w 0x02 (opTval (.rdvMask g) false 0)) ∧
    (badMask s w g = false → (w.eng = .a → (s.core w.core).doneA = true) →
      (∃ e ∈ maskEngines g, e ≠ w.eng ∧ (s.stream ⟨w.core, e⟩).at_ ≠ .join g) →
      exec (.rdvMask g) s = .next (s.setStream w { s.stream w with run := .waiting, at_ := .join g })) ∧
    (badMask s w g = false → (w.eng = .a → (s.core w.core).doneA = true) →
      (∀ e ∈ maskEngines g, Straight s ⟨w.core, e⟩ 4 ∧ (e ≠ w.eng → (s.stream ⟨w.core, e⟩).at_ = .join g)) →
      ∃ t, exec (.rdvMask g) s = .next t ∧ OnlyCore w.core s t ∧
        (∀ e ∈ maskEngines g, t.stream ⟨w.core, e⟩ = { s.stream ⟨w.core, e⟩ with
          pc := s.pcOf ⟨w.core, e⟩ + 4, at_ := .free,
          run := if e = w.eng then (if (s.core w.core).held then .waiting else .running) else s.runNext ⟨w.core, e⟩ }) ∧
        (∀ e, e ∉ maskEngines g → t.stream ⟨w.core, e⟩ = s.stream ⟨w.core, e⟩))

/-- BAR and timed BAR (R141 to R144): the refused scopes and masks, a timed one in rib mode or late, and the arrival: the stream
stands at its instance until the barrier releases. A BAR waits for the A stream's accesses (R339). The T of a timed BAR that issues
counts for the lateness of later ones, a late one's too, and that of a core that has arrived, with each stream of its mask, for the
release. The model's own choice in it: instances are counted for each core (log 20), lateness is against the smallest T given (log 21),
and the tval of a timed BAR in rib mode (log 23). -/
def Obligations.BarriersArrive : Prop :=
  ∀ (s : State) (w : Who) (g scope a : Nat), Acts s w →
    let k := s.core w.core
    let T := (regOf s w a).toNat
    (scope = 0 ∨ 6 ≤ scope ∨ badMask s w g = true → Traps (.bar g scope) s w 0x02 (opTval (.bar g scope) false 0) ∧
      Traps (.barTm a g scope) s w 0x02 (opTval (.barTm a g scope) false 0)) ∧
    ((s.stream w).gauge = false → Traps (.barTm a g scope) s w 0x02 (opTval (.barTm a g scope) false 0)) ∧
    (1 ≤ scope → scope < 6 → badMask s w g = false → k.doneA = false →
      Waits (.bar g scope) s w ∧ ((s.stream w).gauge = true → Waits (.barTm a g scope) s w)) ∧
    (1 ≤ scope → scope < 6 → badMask s w g = false → k.doneA = true →
      ∃ t, exec (.bar g scope) s = .next t ∧ OnlyCore w.core s t ∧
        t.stream w = { s.stream w with run := .waiting, at_ := .bar scope g (nextInst s w g scope) none } ∧
        (t.core w.core).tile = k.tile) ∧
    (1 ≤ scope → scope < 6 → badMask s w g = false → k.doneA = true → (s.stream w).gauge = true → Full s w [a] →
      let unit_ := unitOf scope w.core
      let inst := nextInst s w g scope
      let given := (s.launchOf w.core).bind (fun l => timedOf l scope unit_ inst)
      let low := match given with | some b => min b.low T | none => T
      let high := match given with | some b => b.high | none => 0
      (low < s.cyc w → ∃ f : Launch → Launch,
        (∀ l, f l = { l with timed := (f l).timed } ∧ ∃ b, timedOf (f l) scope unit_ inst = some b ∧ b.low ≤ T) ∧
        exec (.barTm a g scope) s = .next (takeTrap (s.mapLaunch k.record f) w 0x09 (BitVec.ofNat 64 (s.cyc w)))) ∧
      (s.cyc w ≤ low →
        ∃ t, exec (.barTm a g scope) s = .next t ∧
          t.stream w = { s.stream w with run := .waiting, at_ := .bar scope g inst (some T) } ∧
          { t with cores := s.cores, launches := s.launches } = s ∧ (∀ c, c ≠ w.core → t.core c = s.core c) ∧
          (t.core w.core).tile = k.tile ∧
          ((s.launchOf w.core).isSome = true → ∃ l b, t.launchOf w.core = some l ∧ timedOf l scope unit_ inst = some b ∧ b.low = low ∧
            T ≤ (t.core w.core).timeAt scope inst ∧
            b.high = if arrivedAt (t.core w.core) scope inst then max high ((t.core w.core).timeAt scope inst) else high)))

/-! ## Special registers, exceptions and waiting (R112 to R119, R147 to R150) -/

/-- RDSR writes what the register holds (R112, R113, R147): the registers of both views, the hidden ones in supervisor mode, those
of X and A on their engines. An unlisted number raises 0x02, a hidden one 0x03; a read of `qflags` waits for the flags of every
earlier instruction. -/
def Obligations.SpecialReads : Prop :=
  ∀ (s : State) (w : Who) (d num : Nat) (v : Word), CanRun s w [d] 4 →
    let S := s.stream w
    let k := s.core w.core
    ((num, v) ∈ [(0x000, S.status), (0x011, S.npdef), (0x012, S.dph), (0x013, BitVec.ofNat 64 (s.cyc w)),
        (0x014, BitVec.ofNat 64 k.lidx), (0x015, BitVec.ofNat 64 k.ctx)] → WritesReg (.rdsr d num) s w d v) ∧
    ((num, v) ∈ [(0x001, S.cause), (0x002, S.epc), (0x003, S.tval), (0x004, S.tvec), (0x005, S.tscr)] →
      (S.super = true → WritesReg (.rdsr d num) s w d v) ∧
      (S.super = false → Traps (.rdsr d num) s w 0x03 (firstWord (.rdsr d num)))) ∧
    ((num, v) ∈ [(0x020, k.xs.spass), (0x021, k.xs.skern), (0x022, k.xs.sdrain)] →
      (w.eng = .x → WritesReg (.rdsr d num) s w d v) ∧
      (w.eng ≠ .x → Traps (.rdsr d num) s w 0x02 (opTval (.rdsr d num) false 0))) ∧
    ((num, v) = (0x028, k.as.slim) →
      (w.eng = .a → WritesReg (.rdsr d num) s w d v) ∧
      (w.eng ≠ .a → Traps (.rdsr d num) s w 0x02 (opTval (.rdsr d num) false 0))) ∧
    (num ∉ [0x000, 0x001, 0x002, 0x003, 0x004, 0x005, 0x010, 0x011, 0x012, 0x013, 0x014, 0x015, 0x020, 0x021, 0x022, 0x028] →
      Traps (.rdsr d num) s w 0x02 (opTval (.rdsr d num) false 0)) ∧
    (flagsSettled s w = true → WritesReg (.rdsrQflags d) s w d S.qflags) ∧
    (flagsSettled s w = false → exec (.rdsrQflags d) s = .next (s.setStream w { S with run := .waiting }))

/-- WRSR (R112 to R114, R147): what each form stores, and that nothing else changes. A read-only or hidden view raises 0x03, a number
that the engine has not 0x02, and so do a non-zero reserved bit and a profile that R87 or R435 forbids, with the a field. The model's
own choice in it: a write of qflags waits like a read (log 17). -/
def Obligations.SpecialWrites : Prop :=
  ∀ (s : State) (w : Who) (a : Nat), CanRun s w [a] 4 →
    let S := s.stream w
    let k := s.core w.core
    let A := regOf s w a
    let next := s.pcOf w + 4
    let refused (i : Instr) : Prop := Traps i s w 0x02 (opTval i false 13)
    let passes : List Instr := [.wrsrSpass a, .wrsrSkern a, .wrsrSdrain a]
    (∀ i u, (i, u) ∈ [(Instr.wrsr a 0x001, { S with cause := A }), (.wrsr a 0x002, { S with epc := A }),
        (.wrsr a 0x003, { S with tval := A }), (.wrsr a 0x004, { S with tvec := A &&& ~~~(3 : Word) }),
        (.wrsr a 0x005, { S with tscr := A }),
        (.wrsrStatus a, { S with status := (S.status &&& ~~~(3 : Word)) ||| (A &&& 3) })] →
      (S.super = false → Traps i s w 0x03 (firstWord i)) ∧
      (S.super = true → (i = .wrsr a 0x001 → A.toNat < 2 ^ 8) → (i = .wrsrStatus a → A &&& 0x37 = A) →
        exec i s = .next ((s.setStream w u).goTo w next))) ∧
    (S.super = true → (2 ^ 8 ≤ A.toNat → refused (.wrsr a 0x001)) ∧ (A &&& 0x37 ≠ A → refused (.wrsrStatus a))) ∧
    (∀ n ∈ [0x013, 0x014, 0x015], Traps (.wrsr a n) s w 0x03 (firstWord (.wrsr a n))) ∧
    (A &&& 0x101FF = A → (flagsSettled s w = true → exec (.wrsrQflags a) s = .next ((s.setStream w { S with qflags := A }).goTo w next)) ∧
      (flagsSettled s w = false → Waits (.wrsrQflags a) s w)) ∧
    (A &&& 0x101FF ≠ A → refused (.wrsrQflags a)) ∧
    (1 ≤ A.toNat → A.toNat ≤ 4 → (A.toNat = 3 → s.accepted.getLsbD 6 = true) →
      exec (.wrsrNpdef a) s = .next ((s.setStream w { S with npdef := A }).goTo w next)) ∧
    (A.toNat = 0 ∨ 4 < A.toNat ∨ (A.toNat = 3 ∧ s.accepted.getLsbD 6 = false) → refused (.wrsrNpdef a)) ∧
    (A.toNat < 32 → exec (.wrsrDph a) s = .next ((s.setStream w { S with dph := A }).goTo w next)) ∧
    (32 ≤ A.toNat → refused (.wrsrDph a)) ∧
    (w.eng ≠ .x → ∀ i ∈ passes, Traps i s w 0x02 (opTval i false 0)) ∧
    (w.eng = .x → S.super = false → ∀ i ∈ passes, Traps i s w 0x03 (firstWord i)) ∧
    (w.eng = .x → S.super = true →
      (A.toNat < 2 ^ 33 →
        exec (.wrsrSpass a) s = .next ((s.setCore w.core { k with xs := { k.xs with spass := A } }).goTo w next)) ∧
      (A.toNat < 2 ^ 32 →
        exec (.wrsrSkern a) s = .next ((s.setCore w.core { k with xs := { k.xs with skern := A } }).goTo w next)) ∧
      (A.toNat < 2 ^ 3 →
        exec (.wrsrSdrain a) s = .next ((s.setCore w.core { k with xs := { k.xs with sdrain := A } }).goTo w next)) ∧
      (2 ^ 33 ≤ A.toNat → refused (.wrsrSpass a)) ∧ (2 ^ 32 ≤ A.toNat → refused (.wrsrSkern a)) ∧
      (2 ^ 3 ≤ A.toNat → refused (.wrsrSdrain a))) ∧
    (w.eng = .a → S.super = true →
      exec (.wrsr a 0x028) s = .next ((s.setCore w.core { k with as := { k.as with slim := A } }).goTo w next)) ∧
    (w.eng = .a → S.super = false → Traps (.wrsr a 0x028) s w 0x03 (firstWord (.wrsr a 0x028))) ∧
    (w.eng ≠ .a → Traps (.wrsr a 0x028) s w 0x02 (opTval (.wrsr a 0x028) false 0))

/-- Taking an exception from user mode (R118): `epc` is the address of the instruction, `cause` and `tval` say why, `pmode` becomes the old
mode, the mode becomes supervisor, and the pc goes to `tvec`. Nothing else of the package changes, but that a race conflict is counted
(R383), and in gauge mode the clusters of the domain freeze, with their local counts as they were (R231). TRAP raises 0x60, an unassigned
major 0x01, a failed fetch its own cause. A late cause is taken in the same way before the stream's next instruction, whose replies of
other packages are forgotten (R239, R243). The model's own choice in it: when a turn of a stream comes (log 3) and that late causes are
taken one after another (log 11). -/
def Obligations.ExceptionEntry : Prop :=
  (∀ (s : State) (w : Who) (i : Instr) (cause : Nat) (tval : Word), Acts s w → (s.stream w).super = false → (s.stream w).tvec ≠ 0 →
      (i, cause, tval) ∈ [(Instr.trap (tval.toNat), 0x60, tval), (.unassignedMajor (tval.toNat % 2 ^ 32), 0x01,
        BitVec.ofNat 64 (25 * 2 ^ 32 + tval.toNat % 2 ^ 32)), (.instructionFetchFault cause tval, cause, tval)] →
      let entered : Stream := { s.stream w with
        epc := s.pcOf w, cause := BitVec.ofNat 64 cause, tval := tval,
        status := ((s.stream w).status &&& ~~~(3 : Word)) ||| 1, pc := (s.stream w).tvec, run := .running, at_ := .free }
      let u := if cause = 0x40 then s.count (ctrRaceTrap (dieOf w.core)) 1 else s
      let domain := s.domain (s.core w.core).ctx (dieOf w.core)
      ((s.stream w).gauge = false → exec i s = .next (u.setStream w entered)) ∧
      ((s.stream w).gauge = true → ∃ t, exec i s = .next t ∧ { t with clusters := s.clusters } = u.setStream w entered ∧
        (∀ g ∈ domain, Freeze.fault w.core w.eng ∈ (t.cluster g).frozen ∧ t.localCount g = s.localCount g) ∧
        ∀ g, g ∉ domain → t.cluster g = s.cluster g)) ∧
  (∀ (s : State) (w : Who) (l : Late) (rest : List Late), let u := beginTurn s
    u.turn = .stream w.core w.eng → w.core < 512 → mayIssue u w = true → (u.stream w).super = false → (u.stream w).gauge = false →
    (u.stream w).tvec ≠ 0 → (u.stream w).late = l :: rest → l.cause ≠ 0x40 →
    step s = .next (State.setStream { u with requests := u.requests.filter (fun q => q.owner != .instr w.core w.eng) } w
      { u.stream w with
        epc := u.pcOf w, cause := BitVec.ofNat 64 l.cause, tval := l.tval, late := rest, taken := (u.stream w).taken ++ [l],
        status := ((u.stream w).status &&& ~~~(3 : Word)) ||| 1, pc := (u.stream w).tvec, run := .running, at_ := .free }))

/-- A cause in supervisor mode is fatal (R119): the stream is held with its handler state intact, nothing of `cause` and `epc` is
overwritten, and, with fewer than eight holds on the die and none of the context, a hold with this cause starts. With `tvec` 0
the trap writes its registers and then the stream is held (R118). The model's own choice in it: which streams of a held core
still run (log 13). -/
def Obligations.FatalFaults : Prop :=
  ∀ (s : State) (w : Who) (n : Nat), Acts s w → (s.stream w).gauge = false →
    ((s.stream w).super = true ∨ (s.stream w).tvec = 0) →
    (∀ h ∈ s.holds, ¬ (h.ctx = (s.core w.core).ctx ∧ h.die = dieOf w.core)) →
    (s.holds.filter (fun h => h.die == dieOf w.core)).length < 8 →
    ∃ t, exec (.trap n) s = .next t ∧ t.mem = s.mem ∧ (∀ c, c ≠ w.core → t.core c = s.core c) ∧
      (t.core w.core).held = true ∧ (t.core w.core).tile = (s.core w.core).tile ∧
      (∃ h, t.holds = s.holds ++ [h] ∧ h.cause = 0x60 ∧ h.ctx = (s.core w.core).ctx ∧ h.core = w.core ∧
        h.epc = (t.stream w).epc ∧ h.tval = (t.stream w).tval) ∧
      ((s.stream w).super = true → t.stream w = { s.stream w with run := .held }) ∧
      ((s.stream w).super = false → (s.stream w).tvec = 0 → t.stream w = { s.stream w with
        epc := s.pcOf w, cause := 0x60, tval := BitVec.ofNat 64 n,
        status := ((s.stream w).status &&& ~~~(3 : Word)) ||| 1, run := .held, at_ := .free })

/-- ERET (R118): in supervisor mode the mode comes from `pmode`, `pmode` becomes 0 and the pc comes from `epc`, with nothing else
changed where the handler served no late cause; the transfers and commands whose late causes it served go on (R243). In gauge mode the
domain thaws with its local counts as they were, unless the stream still has a cause to take (R231, R233). In user mode it raises 0x03.
The model's own choice in it: bits [1:0] of the pc are cleared (log 80), and a stream that a late cause met at a wait stands there again
only when it returns to it (log 11). -/
def Obligations.ExceptionReturn : Prop :=
  ∀ (s : State) (w : Who), Acts s w →
    let S := s.stream w
    let returned : Stream := { S with
      status := (S.status &&& ~~~(3 : Word)) ||| ((S.status >>> 1) &&& 1),
      pc := S.epc &&& ~~~(3 : Word), run := .running, at_ := .free, taken := [],
      stood := S.stood.filter (fun m => m.1 == S.epc &&& ~~~(3 : Word)) }
    let domain := s.domain (s.core w.core).ctx (dieOf w.core)
    (S.super = true → S.taken = [] →
      (S.gauge = false ∨ S.late ≠ [] → exec .eret s = .next (s.setStream w returned)) ∧
      (S.gauge = true → S.late = [] → ∃ t, exec .eret s = .next t ∧ { t with clusters := s.clusters } = s.setStream w returned ∧
        (∀ g ∈ domain, Freeze.fault w.core w.eng ∉ (t.cluster g).frozen ∧
          ((s.cluster g).since ≤ s.clock → t.localCount g = s.localCount g)) ∧
        ∀ g, g ∉ domain → t.cluster g = s.cluster g)) ∧
    (S.super = true → S.gauge = false → ∃ t, exec .eret s = .next t ∧ OnlyCore w.core s t ∧ t.stream w = returned ∧
      (∀ l ∈ S.taken, ∀ i x, l.slot = some i → (t.core w.core).xfer? i = some x → x.suspended = false) ∧
      (∀ l ∈ S.taken, ∀ c ∈ (t.core w.core).ms.window, l.cmd = some c.seq → c.state ≠ .suspended) ∧
      (t.core w.core).tile = (s.core w.core).tile ∧ (t.core w.core).q = (s.core w.core).q) ∧
    (S.super = false → Traps .eret s w 0x03 (firstWord .eret))

/-- IDLE stands until the local count has gone on by n, and IDLE_EXPIRY then lets the stream go on; a negative n raises 0x02. RDCYC
reads the local count since the job's start (R149, R150). The model's own choice in it: how much time passes in a step is a
free value (logs 3 and 8). -/
def Obligations.IdleAndCycles : Prop :=
  ∀ (s : State) (w : Who) (imm : Int) (d n : Nat),
    (Acts s w → imm < 0 → Traps (.idle imm) s w 0x02 (opTval (.idle imm) false 0)) ∧
    (Acts s w → 0 ≤ imm → exec (.idle imm) s = .next (s.setStream w { s.stream w with
      run := .waiting, at_ := .idle (s.jobCount w.core + imm.toNat) })) ∧
    (w.core < 512 → s.still w.core = false → (s.stream w).at_ = .idle n → Straight s w 4 →
      exec (.idleExpiry w.core w.eng) s = .next (if n ≤ s.jobCount w.core then s.goTo w (s.pcOf w + 4) else s)) ∧
    (CanRun s w [d] 4 → WritesReg (.rdcyc d) s w d (BitVec.ofNat 64 (s.jobCount w.core)))

/-! ## Short forms of the execute engine (R158 to R167) -/

/-- SFADD, SFSUB, SFMUL, SFMA and SFCVT (R159, R161): the exact result of the low 32 bits, rounded once by the mode at dither
position 0; SFMA adds the product to `d`. -/
def Obligations.ScalarFloatResults : Prop :=
  ∀ (s : State) (w : Who) (d a b dst sr : Nat) (rnd : Rnd), CanRun s w [a, b, d] 4 → w.eng = .x →
    let mode := RMode.at rnd (s.stream w).phase 0
    let A := fmtF32.decode ((regOf s w a).toNat % 2 ^ 32)
    let B := fmtF32.decode ((regOf s w b).toNat % 2 ^ 32)
    let D := fmtF32.decode ((regOf s w d).toNat % 2 ^ 32)
    let rounded (x : NumF) : Nat × Word := ((fmtF32.round mode false x.val).1, x.flags ||| (fmtF32.round mode false x.val).2)
    WritesFloat (.sfadd d a b rnd) s w d rnd (rounded (Sys2Proof.Num.add (rnd == .rdn) A B)) ∧
    WritesFloat (.sfsub d a b rnd) s w d rnd (rounded (Sys2Proof.Num.add (rnd == .rdn) A B.neg)) ∧
    WritesFloat (.sfmul d a b rnd) s w d rnd (rounded (Sys2Proof.Num.mul A B)) ∧
    WritesFloat (.sfma d a b rnd) s w d rnd (rounded
      (if Sys2Proof.Num.invalidProduct A B then ⟨.nan, fNv⟩ else Sys2Proof.Num.fma (rnd == .rdn) A B D)) ∧
    (let dt : Ty := [Ty.f32, .s64, .z64, .f16].getD dst .f16
     let st : Ty := [Ty.f32, .s64, .z64, .f16].getD sr .f16
     WritesFloat (.sfcvt d a rnd dst sr) s w d rnd (convElem dt st mode false ((regOf s w a).toNat % 2 ^ (8 * st.width))))

/-- SFMIN, SFMAX and SFCMP (R86, R160): the smaller or the larger of two numbers, −0 below +0, a NaN giving way to a number; a
comparison writes 0 or 1. None sets a flag. -/
def Obligations.ScalarFloatOrder : Prop :=
  ∀ (s : State) (w : Who) (d a b : Nat), CanRun s w [a, b, d] 4 → w.eng = .x →
    let x := (regOf s w a).toNat % 2 ^ 32
    let y := (regOf s w b).toNat % 2 ^ 32
    let A := fmtF32.decode x
    let B := fmtF32.decode y
    (A.isNan = false → B.isNan = false →
      (B.below A = false → WritesReg (.sfmin d a b) s w d (BitVec.ofNat 64 x)) ∧
      (B.below A = true → WritesReg (.sfmin d a b) s w d (BitVec.ofNat 64 y)) ∧
      (A.below B = false → WritesReg (.sfmax d a b) s w d (BitVec.ofNat 64 x)) ∧
      (A.below B = true → WritesReg (.sfmax d a b) s w d (BitVec.ofNat 64 y)) ∧
      ∀ p ∈ [(0, Ordering.eq, true), (1, .eq, false), (2, .lt, true), (3, .gt, false), (4, .gt, true), (5, .lt, false)],
        WritesReg (.sfcmp d a b p.1) s w d (if (A.cmp B == p.2.1) = p.2.2 then 1 else 0)) ∧
    (A.isNan = true → B.isNan = false → ∀ i ∈ [Instr.sfmin d a b, .sfmax d a b], WritesReg i s w d (BitVec.ofNat 64 y)) ∧
    (A.isNan = false → B.isNan = true → ∀ i ∈ [Instr.sfmin d a b, .sfmax d a b], WritesReg i s w d (BitVec.ofNat 64 x)) ∧
    (A.isNan = true → B.isNan = true → ∀ i ∈ [Instr.sfmin d a b, .sfmax d a b], WritesReg i s w d 0x7FC00000) ∧
    (A.isNan = true ∨ B.isNan = true → ∀ c < 8, WritesReg (.sfcmp d a b c) s w d (if c = 1 ∨ c = 6 then 1 else 0)) ∧
    (A.isNan = false → B.isNan = false → WritesReg (.sfcmp d a b 6) s w d 0 ∧ WritesReg (.sfcmp d a b 7) s w d 1)

/-- SFDIV and SFSQRT leave their value in flight: `d` is empty, every register keeps its value, and the flags come with the value
(R102, R159). VALUE_LANDING then writes the register, sets the flags and marks it full, unless an older pending value holds it
back or another one writes the same register. The model's own choice in it: a landing comes at a free time (log 8). -/
def Obligations.ScalarFloatLands : Prop :=
  ∀ (s : State) (w : Who) (d a b : Nat) (rnd : Rnd),
    let S := s.stream w
    let k := s.core w.core
    (Acts s w → w.eng = .x → Full s w [a, b] → Straight s w 4 →
      let mode := RMode.at rnd S.phase 0
      let A := fmtF32.decode ((regOf s w a).toNat % 2 ^ 32)
      let B := fmtF32.decode ((regOf s w b).toNat % 2 ^ 32)
      ∀ (i : Instr) (x : NumF), (i, x) ∈ [(.sfdiv d a b rnd, Sys2Proof.Num.div A B), (.sfsqrt d a rnd, Sys2Proof.Num.sqrt A)] →
        let r := fmtF32.round mode false x.val
        exec i s = .next (s.coreGoes w (Core.setStream { k with nextId := k.nextId + 1 } w.eng { S with
          pend := S.pend ++ [⟨k.nextId, .scalar d (BitVec.ofNat 64 r.1) (x.flags ||| r.2)⟩],
          empty := if d = 0 ∨ S.empty.contains d then S.empty else d :: S.empty,
          dph := if rnd = .rdi then BitVec.ofNat 64 ((S.phase + 1) % 32) else S.dph }))) ∧
    (∀ n id v fl, w.core < 512 → s.still w.core = false → k.allEnded = false → S.pend[n]? = some ⟨id, .scalar d v fl⟩ →
      heldBack (S.pend.take n) (.scalar d v fl) = false → (fl &&& fAovf = 0 ∨ S.aovte = false) →
      let rest := S.pend.filter (fun p => p.id != id)
      ∃ t, exec (.valueLanding w.core w.eng n) s = .next t ∧ OnlyCore w.core s t ∧
        (∀ m, (t.stream w).reg m = if m = d ∧ d ≠ 0 then v else S.reg m) ∧
        t.core w.core = k.setStream w.eng { S with
          regs := (t.stream w).regs, pend := rest, qflags := S.qflags ||| fl,
          empty := if rest.any (fun p => p.op.scalarDest == some d) then S.empty else S.empty.filter (fun m => m != d) })

/-- Lane moves, queue control and LOOPP (R162 to R165): the element that an index register names modulo the element count, the
entries present, a drop that waits or one that takes what there is, and a count outside its range. LOOPP with a count of 0 goes on after
the body, whose last instruction may be a long form (R111). At the end of its body the back edge raises `spass` and goes back with new
stage predicates, or pops the level once kernel and drain passes are done (R111, R166). -/
def Obligations.LanesAndQueues : Prop :=
  (∀ (s : State) (w : Who) (l : LoopEnt) (rest : List LoopEnt), Acts s w → w.eng = .x → (s.stream w).loops = l :: rest →
    l.pipelined = true → s.pcOf w = l.stop → l.start.toNat ≤ l.stop.toNat →
    let k := s.core w.core
    let pass := (k.xs.spass.toNat + 1) % 2 ^ 33
    let passes := k.xs.skern.toNat + k.xs.sdrain.toNat
    (pass < passes → (∀ p ∈ [56, 57, 58, 59, 60, 61, 62, 63], k.predBusy p = false) →
      ∃ t, exec .nop s = .next t ∧ OnlyCore w.core s t ∧
        (∀ p < 64, (t.core w.core).pred p = if 56 ≤ p
          then (if p - 56 ≤ pass ∧ pass - (p - 56) < k.xs.skern.toNat then BitVec.allOnes 512 else 0) else k.pred p) ∧
        t.core w.core = { k with
          xs := { k.xs with spass := BitVec.ofNat 64 pass, p := (t.core w.core).xs.p },
          x := { k.x with pc := l.start, run := s.runNext w, at_ := .free } }) ∧
    (passes ≤ pass → rest = [] →
      exec .nop s = .next (s.coreGoes w { k with
        xs := { k.xs with spass := BitVec.ofNat 64 pass }, x := { k.x with loops := [] } }))) ∧
  ∀ (s : State) (w : Who) (d a b e size : Nat) (imm : Int), CanRun s w [a, b, d] 4 → w.eng = .x → size < 4 →
    let k := s.core w.core
    let width := [4, 1, 2, 8].getD size 8
    let j := (regOf s w b).toNat % (512 / width)
    let n := (regOf s w b).toNat
    let c := (regOf s w a).toNat
    let here := s.pcOf w
    let stop : Word := BitVec.ofInt 64 (here.toNat + 4 * imm)
    (k.vecFull a = true →
      WritesReg (.vext d a b false size) s w d (BitVec.ofNat 64 (vget width (k.vec a) j)) ∧
      WritesReg (.vext d a b true size) s w d (BitVec.ofInt 64 (signedField (vget width (k.vec a) j) (8 * width)))) ∧
    (k.vecFull d = true → ∃ v, exec (.vins d a b size) s = .next (s.coreGoes w
        { k with xs := { k.xs with v := tset k.xs.v (k.phys d) v } }) ∧
      ∀ i < 512 / width, vget width v i = if i = j then c % 2 ^ (8 * width) else vget width (k.vec d) i) ∧
    WritesReg (.qcnt d a false) s w d (BitVec.ofNat 64 (k.qPresent a)) ∧
    WritesReg (.qcnt d a true) s w d (BitVec.ofNat 64 (8 - (k.wOf a).length)) ∧
    (8 < n → Traps (.qdrop a b) s w 0x02 (opTval (.qdrop a b) false 7) ∧
      Traps (.qdropNw d a b) s w 0x02 (opTval (.qdropNw d a b) false 7)) ∧
    (n ≤ 8 → k.qPresent a < n → exec (.qdrop a b) s = .next (s.setStream w { s.stream w with run := .waiting })) ∧
    (n ≤ 8 → n ≤ k.qPresent a → exec (.qdrop a b) s = .next (s.coreGoes w (k.setQ a ((k.qOf a).drop n)))) ∧
    (n ≤ 8 → ∃ t, exec (.qdropNw d a b) s = .next t ∧
      (t.core w.core).q = tset k.q a ((k.qOf a).drop (Nat.min n (k.qPresent a))) ∧
      Wrote s (t.setCore w.core { t.core w.core with q := k.q }) w d (BitVec.ofNat 64 (Nat.min n (k.qPresent a))) (here + 4) 0
        (s.stream w).dph) ∧
    (imm < 1 → Traps (.loopp e a imm) s w 0x02 (opTval (.loopp e a imm) false 0)) ∧
    (1 ≤ imm → 2 ^ 32 ≤ c → Traps (.loopp e a imm) s w 0x02 (opTval (.loopp e a imm) false 13)) ∧
    (1 ≤ imm → c < 2 ^ 32 → (s.stream w).loops.any LoopEnt.pipelined = true →
      Traps (.loopp e a imm) s w 0x02 (opTval (.loopp e a imm) false 25)) ∧
    (∀ x, 1 ≤ imm → c = 0 → (s.stream w).loops.any LoopEnt.pipelined = false → fetchWord s w stop.toNat 2 = .ok x →
      let after : Word := if x / 2 ^ 30 % 4 = 3 then stop + 8 else stop + 4
      StaysIn (s.stream w) after true false → exec (.loopp e a imm) s = .next (s.goTo w after)) ∧
    (1 ≤ imm → 0 < c → c < 2 ^ 32 → (s.stream w).loops.any LoopEnt.pipelined = false → e < 8 → here.toNat + 4 < 2 ^ 64 →
      (∀ p ∈ [56, 57, 58, 59, 60, 61, 62, 63], k.predBusy p = false) →
      ∃ t, exec (.loopp e a imm) s = .next t ∧ OnlyCore w.core s t ∧
        (t.core w.core).xs = { k.xs with
          spass := 0, skern := regOf s w a, sdrain := BitVec.ofNat 64 e, p := (t.core w.core).xs.p } ∧
        (∀ p < 64, (t.core w.core).pred p = if 56 ≤ p then (if p = 56 then BitVec.allOnes 512 else 0) else k.pred p) ∧
        t.core w.core = { k with xs := (t.core w.core).xs, x := { k.x with
          pc := here + 4, run := s.runNext w, at_ := .free, loops := ⟨true, here + 4, stop, 0⟩ :: k.x.loops } })

/-- Predicate forms (R109, R167), where the predicates that they touch have landed. The upper 64-byte parts come from the
lower-numbered predicate first; p0 reads all ones and is never written. -/
def Obligations.PredicateResults : Prop :=
  ∀ (s : State) (w : Who) (d a b width n : Nat), CanRun s w [a, b, d] 4 → w.eng = .x → width < 4 → n < 1024 →
    (∀ p, (s.core w.core).predBusy p = false) →
    let k := s.core w.core
    let W := 2 ^ width
    let writes (i : Instr) (q : Pred) : Prop := exec i s = .next (s.coreGoes w
      (if d = 0 then k else { k with xs := { k.xs with p := tset k.xs.p d q } }))
    let first (m : Nat) (q : Pred) : Prop := ∀ j < 512, q.getLsbD j = decide (j / W < m)
    (∀ (c : Nat) (f : Bool → Bool → Bool), (c, f) ∈ [(0, Bool.and), (1, Bool.or), (2, Bool.xor), (3, fun x y => x && !y),
        (4, fun x y => x || !y), (5, fun x y => !(x && y)), (6, fun x y => !(x || y)), (7, fun x y => !(Bool.xor x y))] →
      ∃ q, writes (.plog d a b c) q ∧ ∀ j < 512, q.getLsbD j = f ((k.pred a).getLsbD j) ((k.pred b).getLsbD j)) ∧
    WritesReg (.pcnt d a width) s w d
      (BitVec.ofNat 64 ((List.range (512 / W)).filter (fun j => (k.pred a).getLsbD (j * W))).length) ∧
    (∃ m ≤ 512 / W, (∀ j < m, (k.pred a).getLsbD (j * W) = false) ∧ (m < 512 / W → (k.pred a).getLsbD (m * W) = true) ∧
      WritesReg (.pfirst d a width) s w d (BitVec.ofNat 64 m)) ∧
    (∃ q, writes (.pset d width n) q ∧ first n q) ∧
    (∃ q, writes (.psetReg d a width n) q ∧ first (regOf s w a).toNat q) ∧
    (k.vecFull d = true → ∃ v, exec (.ppack d a) s = .next (s.coreGoes w
        { k with xs := { k.xs with v := tset k.xs.v (k.phys d) v } }) ∧
      ∀ j < 4096, v.getLsbD j = (k.pred (a + j / 512)).getLsbD (j % 512)) ∧
    (k.vecFull a = true → ∃ t, exec (.punpk d a) s = .next t ∧ OnlyCore w.core s t ∧
      (∀ p, (t.core w.core).pred p = if p ≠ 0 ∧ d ≤ p ∧ p < d + 8 then (k.vec a).extractLsb' (512 * (p - d)) 512 else k.pred p) ∧
      t = s.coreGoes w { k with xs := { k.xs with p := (t.core w.core).xs.p } }) ∧
    WritesReg (.pext d a b) s w d ((k.pred a).extractLsb' (64 * ((regOf s w b).toNat % 8)) 64) ∧
    (∃ q, writes (.pins d a b) q ∧ ∀ j < 512, q.getLsbD j =
      if j / 64 = (regOf s w b).toNat % 8 then (regOf s w a).getLsbD (j % 64) else (k.pred d).getLsbD j)

/-! ## Long forms of the execute engine (R33, R168 to R204) -/

/-- Integer arithmetic element by element (R169, R171): the exact result, saturated under `.sat`, else modulo 2^W; VMULH keeps the
upper half, VABS takes the magnitude. Beside the element values each runs as every long form does (`XEffect`). -/
def Obligations.VectorIntegers : Prop :=
  ∀ (s : State) (w : Who) (d : XDst) (a b z : XSrc) (ty : Ty) (sat : Bool) (c : XCtl), ty.isInt = true →
    let M : Int := (2 ^ (8 * ty.width) : Nat)
    let fit (x : Int) : Nat := ((if sat then max ty.intMin (min ty.intMax x) else x) % M).toNat
    let el (l : List XSrc) (n j : Nat) : Int := ty.readInt (vget ty.width (xIn s w l n ty) j)
    (XCan (.vadd d a b ty sat c) s w →
      XElements (.vadd d a b ty sat c) s w ty (fun j => fit (el [a, b] 0 j + el [a, b] 1 j))) ∧
    (XCan (.vsub d a b ty sat c) s w →
      XElements (.vsub d a b ty sat c) s w ty (fun j => fit (el [a, b] 0 j - el [a, b] 1 j))) ∧
    (XCan (.vmul d a b ty sat c) s w →
      XElements (.vmul d a b ty sat c) s w ty (fun j => fit (el [a, b] 0 j * el [a, b] 1 j))) ∧
    (XCan (.vmulh d a b ty c) s w →
      XElements (.vmulh d a b ty c) s w ty (fun j => ((el [a, b] 0 j * el [a, b] 1 j).fdiv M % M).toNat)) ∧
    (XCan (.vmad d a b z ty sat c) s w →
      XElements (.vmad d a b z ty sat c) s w ty (fun j => fit (el [a, b, z] 0 j * el [a, b, z] 1 j + el [a, b, z] 2 j))) ∧
    (XCan (.vabs d a ty sat c) s w → XElements (.vabs d a ty sat c) s w ty (fun j => fit (el [a] 0 j).natAbs)) ∧
    (XCan (.vmin d a b ty c) s w → XElements (.vmin d a b ty c) s w ty (fun j =>
      vget ty.width (xIn s w [a, b] (if el [a, b] 1 j < el [a, b] 0 j then 1 else 0) ty) j)) ∧
    (XCan (.vmax d a b ty c) s w → XElements (.vmax d a b ty c) s w ty (fun j =>
      vget ty.width (xIn s w [a, b] (if el [a, b] 0 j < el [a, b] 1 j then 1 else 0) ty) j))

/-- Logic, shifts and carry-less products (R167, R170, R194): bit by bit. A count of the width or more shifts everything out; a
rotation counts modulo the width. `.px` is the running parity over the whole vector from the carry-in. -/
def Obligations.VectorBits : Prop :=
  ∀ (s : State) (w : Who) (d : XDst) (a b : XSrc) (ty : Ty) (op : Nat) (c : XCtl),
    let A := xIn s w [a, b] 0 ty
    let B := xIn s w [a, b] 1 ty
    let W := 8 * ty.width
    let x (j : Nat) := vget ty.width A j
    let n (j : Nat) := vget ty.width B j
    let A8 := xIn s w [a, b] 0 .z64
    let B8 := xIn s w [a, b] 1 .z64
    let product (j m : Nat) : Bool := ((List.range 64).filter (fun i => decide (i ≤ m) &&
      (vget 8 A8 j).testBit (m - i) && (vget 8 B8 j).testBit i)).length % 2 == 1
    (∀ (f : Bool → Bool → Bool), (op, f) ∈ [(0, Bool.and), (1, Bool.or), (2, Bool.xor), (3, fun x y => x && !y),
        (4, fun x y => x || !y), (5, fun x y => !(x && y)), (6, fun x y => !(x || y)), (7, fun x y => !(Bool.xor x y))] →
      XCan (.vlog d a b ty op c) s w → ∃ o, XDoes (.vlog d a b ty op c) s w o ∧ o.part = BitVec.allOnes 512 ∧ o.flags = 0 ∧
        ∀ i < 4096, o.vec.getLsbD i = f (A.getLsbD i) (B.getLsbD i)) ∧
    (ty.isInt = true → XCan (.vsh d a b ty 0 c) s w →
      XElements (.vsh d a b ty 0 c) s w ty (fun j => x j * 2 ^ n j % 2 ^ W)) ∧
    (ty.isInt = true → XCan (.vsh d a b ty 1 c) s w → XElements (.vsh d a b ty 1 c) s w ty (fun j => x j / 2 ^ n j)) ∧
    (ty.isInt = true → XCan (.vsh d a b ty 2 c) s w → XElements (.vsh d a b ty 2 c) s w ty (fun j =>
      ((signedField (x j) W).fdiv (2 ^ n j : Nat) % (2 ^ W : Nat)).toNat)) ∧
    (ty.isInt = true → XCan (.vsh d a b ty 3 c) s w → XElements (.vsh d a b ty 3 c) s w ty (fun j =>
      x j * 2 ^ (n j % W) % 2 ^ W + x j / 2 ^ (W - n j % W))) ∧
    (XCan (.vclmul d a b 0 c) s w → ∃ o, XDoes (.vclmul d a b 0 c) s w o ∧ o.part = BitVec.allOnes 512 ∧ o.flags = 0 ∧
      ∀ j < 64, ∀ m < 64, (vget 8 o.vec j).testBit m = product j m) ∧
    (XCan (.vclmul d a b 1 c) s w → ∃ o, XDoes (.vclmul d a b 1 c) s w o ∧ o.part = BitVec.allOnes 512 ∧ o.flags = 0 ∧
      ∀ j < 64, ∀ m < 64, (vget 8 o.vec j).testBit m = product j (m + 64)) ∧
    (XCan (.vclmul d a b 2 c) s w → ∃ o, XDoes (.vclmul d a b 2 c) s w o ∧ o.part = BitVec.allOnes 512 ∧ o.flags = 0 ∧
      ∀ m < 4096, o.vec.getLsbD m =
        ((((List.range (m + 1)).filter (fun i => A8.getLsbD i)).length + (if B8.getLsbD 0 then 1 else 0)) % 2 == 1))

/-- Float arithmetic element by element (R172, R79 to R81): the exact result rounded once, the dither threshold taken at the
element's position; a product 0·∞ of VFMA is invalid even with a NaN addend. VFDIV and VFSQRT are long-latency producers. -/
def Obligations.VectorFloats : Prop :=
  ∀ (s : State) (w : Who) (d : XDst) (a b z : XSrc) (ty : Ty) (rnd : Rnd) (op : Nat) (c : XCtl), ty.isFloat3 = true →
    let f := Fmt.ofTy ty
    let rdn := rnd == .rdn
    let num (l : List XSrc) (n j : Nat) : Sys2Proof.Num := f.decode (vget ty.width (xIn s w l n ty) j)
    let rounded (x : Nat → NumF) (j : Nat) : Nat × Word :=
      let r := f.round (RMode.at rnd (s.stream w).phase j) false (x j).val
      (r.1, (x j).flags ||| r.2)
    let fma (j : Nat) : NumF :=
      let x := num [a, b, z] 0 j
      let y := num [a, b, z] 1 j
      let t := num [a, b, z] 2 j
      if Sys2Proof.Num.invalidProduct x y then ⟨.nan, fNv⟩
      else if op = 0 then Sys2Proof.Num.fma rdn x y t else if op = 1 then Sys2Proof.Num.fma rdn x y t.neg else Sys2Proof.Num.fma rdn x.neg y t
    (XCan (.vfadd d a b ty rnd c) s w → XRounded (.vfadd d a b ty rnd c) s w ty
      (rounded (fun j => Sys2Proof.Num.add rdn (num [a, b] 0 j) (num [a, b] 1 j)))) ∧
    (XCan (.vfsub d a b ty rnd c) s w → XRounded (.vfsub d a b ty rnd c) s w ty
      (rounded (fun j => Sys2Proof.Num.add rdn (num [a, b] 0 j) (num [a, b] 1 j).neg))) ∧
    (XCan (.vfmul d a b ty rnd c) s w → XRounded (.vfmul d a b ty rnd c) s w ty
      (rounded (fun j => Sys2Proof.Num.mul (num [a, b] 0 j) (num [a, b] 1 j)))) ∧
    (XCan (.vfma d a b z ty rnd op c) s w → XRounded (.vfma d a b z ty rnd op c) s w ty (rounded fma)) ∧
    (XCan (.vfdiv d a b ty rnd c) s w → XRounded (.vfdiv d a b ty rnd c) s w ty
      (rounded (fun j => Sys2Proof.Num.div (num [a, b] 0 j) (num [a, b] 1 j)))) ∧
    (XCan (.vfsqrt d a ty rnd c) s w → XRounded (.vfsqrt d a ty rnd c) s w ty (rounded (fun j => Sys2Proof.Num.sqrt (num [a] 0 j)))) ∧
    (XCan (.vabs d a ty false c) s w → XElements (.vabs d a ty false c) s w ty (fun j =>
      if (num [a] 0 j).isNan then f.nanCode else vget ty.width (xIn s w [a] 0 ty) j % 2 ^ (8 * ty.width - 1)))

/-- Comparison, selection, movement, counting, permutation and slides (R173 to R178). VSEL's and VIOTA's guard is an operand; the
count of VSLIDE is a whole scalar. The model's own choice in it: VSEL and VIOTA read the guard as an operand and push it as the
mask of a queue entry (log 26). -/
def Obligations.VectorSelections : Prop :=
  ∀ (s : State) (w : Who) (d : XDst) (p : Nat) (a b z : XSrc) (ty : Ty) (cond : Nat) (c : XCtl),
    let W := ty.width
    let n := 512 / W
    let g := (s.core w.core).pred c.guard
    let el (l : List XSrc) (k j : Nat) : Nat := vget W (xIn s w l k ty) j
    let num (x : Nat) : Sys2Proof.Num := if ty = .b8 then Sys2Proof.Num.ofInt x else elemNum ty x
    let k := min (xScalar s w [a, b, z] 1).toNat n
    (XCan (.vcmp p a b ty cond c) s w → ∃ o, XDoes (.vcmp p a b ty cond c) s w o ∧ o.flags = 0 ∧
      ∀ i < 512, o.pred.getLsbD i = condHolds cond (num (el [a, b] 0 (i / W))) (num (el [a, b] 1 (i / W)))) ∧
    (XCan (.vsel d a b ty c) s w → ∃ o, XDoes (.vsel d a b ty c) s w o ∧ o.part = BitVec.allOnes 512 ∧ o.flags = 0 ∧
      ∀ i < 4096, o.vec.getLsbD i = (xIn s w [a, b] (if g.getLsbD (i / 8) then 0 else 1) ty).getLsbD i) ∧
    (XCan (.vmov d a ty c) s w → XDoes (.vmov d a ty c) s w ⟨xIn s w [a] 0 ty, BitVec.allOnes 512, 0, 0⟩) ∧
    (XCan (.viota d a ty c) s w → XElements (.viota d a ty c) s w ty (fun j =>
      (el [a] 0 j + ((List.range j).filter (fun i => g.getLsbD (i * W))).length) % 2 ^ (8 * W))) ∧
    (XCan (.vperm d a b z ty 0 c) s w →
      XElements (.vperm d a b z ty 0 c) s w ty (fun j => el [a, b] 0 (el [a, b] 1 j % n))) ∧
    (XCan (.vperm d a b z ty 1 c) s w → XElements (.vperm d a b z ty 1 c) s w ty (fun j =>
      let i := el [a, b, z] 1 j % (2 * n)
      if i < n then el [a, b, z] 0 i else el [a, b, z] 2 (i - n))) ∧
    (XCan (.vperm d a b z ty 2 c) s w → XElements (.vperm d a b z ty 2 c) s w ty (fun j =>
      if el [a, b] 1 j < n then el [a, b] 0 (el [a, b] 1 j) else 0)) ∧
    (XCan (.vslide d a b z ty true c) s w → XElements (.vslide d a b z ty true c) s w ty (fun j =>
      if k ≤ j then el [a, b, z] 0 (j - k) else el [a, b, z] 2 (j + n - k))) ∧
    (XCan (.vslide d a b z ty false c) s w → XElements (.vslide d a b z ty false c) s w ty (fun j =>
      if j + k < n then el [a, b, z] 0 (j + k) else el [a, b, z] 2 (j + k - n)))

/-- Reductions and scans (R182, R186 to R188): integer sums and prefix sums modulo 2^W, the maximum and minimum with the lowest
index among equals; a float form has the result of its tree or window, rounded under its profile. The window of VRED saturates for no
operand (R76, R93), so that VRED completes under `qflags.aovte` too; a saturated window of a scan ends it then with 0x23. The model's own
choice in it: the sticky flags of anchored sums (log 27) and the tval 0 of that 0x23 (log 23). -/
def Obligations.VectorReductions : Prop :=
  ∀ (s : State) (w : Who) (d : XDst) (a b z : XSrc) (ty : Ty) (op : Nat) (rnd : Rnd) (c : XCtl),
    let W := ty.width
    let n := 512 / W
    let M : Int := (2 ^ (8 * W) : Nat)
    let np := (s.stream w).profile c.np
    let ph := (s.stream w).phase
    let x (l : List XSrc) (j : Nat) : Int := ty.readInt (vget W (xIn s w l 0 ty) j)
    let red := vRed ty op np rnd ph (xIn s w [a] 0 ty)
    let srcs := if op < 3 then [a, z] else if op = 3 then [a, b, z] else [a, b]
    let last := if op = 3 then 2 else 1
    let carry : Carry := if z = .s 0 ∨ 4 ≤ op then none else some (xScalar s w srcs last)
    let scan := vScan ty op np rnd ph (xIn s w srcs 0 ty) (xIn s w srcs 1 ty) carry
    (XCan (.vred d a ty op rnd c) s w → XDoes (.vred d a ty op rnd c) s w red.out) ∧
    (ty.isInt = true → XCan (.vred d a ty 0 rnd c) s w → XElements (.vred d a ty 0 rnd c) s w ty (fun _ =>
      (((List.range n).map (x [a])).sum % M).toNat)) ∧
    (ty.isInt = true → ∀ (o : Nat) (gt : Int → Int → Prop), (o, gt) ∈ [(1, fun u v => v < u), (2, fun u v => u < v)] →
      (XCan (.vred d a ty o rnd c) s w → ∃ k < n, (∀ j < n, ¬ gt (x [a] j) (x [a] k)) ∧
        XElements (.vred d a ty o rnd c) s w ty (fun _ => vget W (xIn s w [a] 0 ty) k)) ∧
      (XCan (.vred d a ty (o + 2) rnd c) s w → ∃ k < n, (∀ j < n, ¬ gt (x [a] j) (x [a] k)) ∧
        (∀ j < k, gt (x [a] k) (x [a] j)) ∧ XElements (.vred d a ty (o + 2) rnd c) s w ty (fun _ => k % 2 ^ (8 * W)))) ∧
    (XCan (.vscan d a b z ty op rnd c) s w →
      (scan.flags &&& fAovf = 0 ∨ readsMail srcs = true ∨ (s.stream w).aovte = false →
        XDoes (.vscan d a b z ty op rnd c) s w scan.out) ∧
      (scan.flags &&& fAovf ≠ 0 → readsMail srcs = false → (s.stream w).aovte = true →
        ∃ u, exec (.vscan d a b z ty op rnd c) s = .next (takeTrap u w 0x23 0) ∧
          (u.stream w).qflags = (s.stream w).qflags ||| scan.flags)) ∧
    (ty.isInt = true → XCan (.vscan d a b z ty 0 rnd c) s w → XElements (.vscan d a b z ty 0 rnd c) s w ty (fun j =>
      ((((List.range (j + 1)).map (x [a, z])).sum + (if z = .s 0 then 0 else (xScalar s w [a, z] 1).toNat)) % M).toNat))

/-- Conversion, packing, pruning, ranking and counting (R195 to R204): VCVT converts each element at its position, into one part of
the destination when it narrows; a part operand at its limit raises 0x02 with the b field; VHIST adds to each count the
elements that equal the base plus its index. The model's own choice in it: the flags of saturating conversions (log 27). -/
def Obligations.VectorConversions : Prop :=
  ∀ (s : State) (w : Who) (d : XDst) (e : XAnyDst) (a b z : XSrc) (ty sty : Ty) (op : Nat) (rnd : Rnd) (sat : Bool) (c : XCtl),
    let ws := sty.width
    let wd := ty.width
    let ns := 512 / ws
    let ph := (s.stream w).phase
    let part := (xScalar s w [a, b] 1).toNat
    let parts := if wd < ws then ws / wd else if ws < wd then wd / ws else 1
    let conv (j i : Nat) : Nat × Word := convElem ty sty (RMode.at rnd ph j) sat (vget ws (xIn s w [a, b] 0 sty) i)
    (XCan (.vcvt d a b ty sty rnd sat c) s w →
      (parts ≤ part → Traps (.vcvt d a b ty sty rnd sat c) s w 0x02 (opTval (.vcvt d a b ty sty rnd sat c) false 4)) ∧
      (part < parts → ws ≤ wd → XRounded (.vcvt d a b ty sty rnd sat c) s w ty
        (fun j => conv j (if ws < wd then part * (512 / wd) + j else j))) ∧
      (part < parts → wd < ws → ∃ o, XDoes (.vcvt d a b ty sty rnd sat c) s w o ∧
        (∀ j < 512, o.part.getLsbD j = (decide (wd * ns * part ≤ j) && decide (j < wd * ns * (part + 1)))) ∧
        (∀ i < ns, vget wd o.vec (part * ns + i) = (conv (part * ns + i) i).1) ∧
        ∀ m < 64, o.flags.getLsbD m = (List.range ns).any (fun i => (conv (part * ns + i) i).2.getLsbD m))) ∧
    (XCan (.vqpack d a b ty op rnd c) s w →
      (packParts ty ≤ part → Traps (.vqpack d a b ty op rnd c) s w 0x02 (opTval (.vqpack d a b ty op rnd c) false 4)) ∧
      (part < packParts ty → XDoes (.vqpack d a b ty op rnd c) s w (vQpack ty op rnd ph part (xIn s w [a, b] 0 ty)).out)) ∧
    (XCan (.vqunpk d a b ty rnd c) s w →
      (packParts ty ≤ part → Traps (.vqunpk d a b ty rnd c) s w 0x02 (opTval (.vqunpk d a b ty rnd c) false 4)) ∧
      (part < packParts ty → XDoes (.vqunpk d a b ty rnd c) s w (vQunpk ty rnd ph part (xIn s w [a, b] 0 ty)).out)) ∧
    (XCan (.vspars d a ty op c) s w → XDoes (.vspars d a ty op c) s w (vSpars ty op (xIn s w [a] 0 ty)).out) ∧
    (XCan (.vspars d a ty 2 c) s w → XElements (.vspars d a ty 2 c) s w ty (fun j =>
      let at_ (i : Nat) := vget wd (xIn s w [a] 0 ty) (j / 8 * 8 + i)
      if ((List.range 8).filter (fun i => magBeats ty (at_ i) (at_ (j % 8)) ||
        (decide (i < j % 8) && !magBeats ty (at_ (j % 8)) (at_ i)))).length < 4 then at_ (j % 8) else 0)) ∧
    (op < 2 → XCan (.vtopk e a b ty op c) s w →
      XDoes (.vtopk e a b ty op c) s w (vTopk ty op (xScalar s w [a, b] 1) (xIn s w [a, b] 0 ty)).out) ∧
    (XCan (.vtopk e a b ty 2 c) s w →
      XDoes (.vtopk e a b ty 2 c) s w ⟨0, 0, vTopkMask ty (xScalar s w [a, b] 1) (xIn s w [a, b] 0 ty), 0⟩) ∧
    (XCan (.vhist d a b z ty sat c) s w → XElements (.vhist d a b z ty sat c) s w .z32 (fun j =>
      let base := ty.readInt ((xScalar s w [a, b, z] 1).toNat % 2 ^ (8 * wd))
      let hits := ((List.range (512 / wd)).filter (fun i => ty.readInt (vget wd (xIn s w [a, b, z] 0 ty) i) == base + j)).length
      let sum := vget 4 (xIn s w [a, b, z] 2 .z32) j + hits
      if sat then min sum (2 ^ 32 - 1) else sum % 2 ^ 32))

/-- Every long form of the execute engine, nullified or stopped (R33, R103, R106, R108, R155, R206, R211, R241): an all-zero guard
leaves the form without effect but for zeros under zeroing and the rounding phase; a missing partner raises 0x02; under trap-on-empty
a missing queue entry raises 0x04 and an empty register 0x06; else the form waits, or is descheduled on its mailboxes. The model's own
choice in it: the wait is the one of log 10; a missing partner is found before an all-zero guard, a pending write of an e half counts
as a full one, and an empty scalar source raises 0x06 without a queue source too (log 85); which full FIFO the tval of 0x07 names
follows the FIFO order of log 23. -/
def Obligations.VectorFormsStop : Prop :=
  ∀ (s : State) (w : Who) (i : Instr) (h : XShape), Acts s w → w.eng = .x → xShape i = some h →
    let k := s.core w.core
    let waits := exec i s = .next (s.setStream w { s.stream w with run := .waiting })
    let live := h.guardOp = true ∨ (∃ e, h.target = .vec (.e e)) ∨ k.pred h.ctl.guard ≠ 0
    let calm := h.ctl.trapOnEmpty = false ∨ (missingQueue k h.srcs = none ∧ emptySource k h.srcs = none)
    let room := ∀ n, h.target = .vec (.w n) → (k.wOf n).length < 8
    (k.predBusy h.ctl.guard = true → waits) ∧
    (k.predBusy h.ctl.guard = false → k.hasEngines (partners .x h.ctl.take) = false → Traps i s w 0x02 (opTval i true 27)) ∧
    (k.predBusy h.ctl.guard = false → k.hasEngines (partners .x h.ctl.take) = true →
      (k.hasEngines (partners .x h.ctl.give) = false → Traps i s w 0x02 (opTval i true 25)) ∧
      (k.hasEngines (partners .x h.ctl.give) = true → ¬ live → Straight s w 8 →
        (∀ p, h.target = .pred p → k.predBusy p = false) → (∀ n, h.target = .vec (.v n) → k.vecFull n = true) →
        ∃ t, exec i s = .next t ∧ OnlyCore w.core s t ∧
          (t.core w.core) = { k with
            xs := { k.xs with v := (t.core w.core).xs.v, p := (t.core w.core).xs.p },
            x := { k.x with
              pc := s.pcOf w + 8, run := s.runNext w, at_ := .free,
              dph := if h.rnd = .rdi then BitVec.ofNat 64 (((s.stream w).phase + 1) % 32) else k.x.dph } } ∧
          (∀ n m, h.ctl.zeroing = true → h.target = .vec (.v m) → k.phys m = k.phys n → (t.core w.core).vec n = 0) ∧
          (∀ n, (h.ctl.zeroing = false ∨ ∀ m, h.target = .vec (.v m) → k.phys m ≠ k.phys n) →
            (t.core w.core).vec n = k.vec n) ∧
          (∀ n, (t.core w.core).pred n = if h.ctl.zeroing = true ∧ n ≠ 0 ∧ h.target = .pred n then 0 else k.pred n)) ∧
      (k.hasEngines (partners .x h.ctl.give) = true → live →
        (∀ q, h.ctl.trapOnEmpty = true → missingQueue k h.srcs = some q → Traps i s w 0x04 (BitVec.ofNat 64 q)) ∧
        (∀ r, h.ctl.trapOnEmpty = true → missingQueue k h.srcs = none → emptySource k h.srcs = some r →
          Traps i s w 0x06 (BitVec.ofNat 64 r)) ∧
        (calm → ∀ n, h.target = .vec (.w n) → 8 ≤ (k.wOf n).length →
          if (s.stream w).gauge then Traps i s w 0x05 (BitVec.ofNat 64 (16 + n)) else waits) ∧
        (calm → room → ∀ n, k.fullFifo (giveFifos .x h.ctl.give) = some n →
          if (s.stream w).gauge then Traps i s w 0x07 (BitVec.ofNat 64 n) else waits) ∧
        (calm → room → k.fullFifo (giveFifos .x h.ctl.give) = none →
          (missingQueue k h.srcs ≠ none ∨ emptySource k h.srcs ≠ none ∨ k.hasTokens (takeFifos .x h.ctl.take) = false ∨
            (∃ e, h.target = .vec (.e e) ∧ halfBusy k e = true) → waits) ∧
          (missingQueue k h.srcs = none → emptySource k h.srcs = none → k.hasTokens (takeFifos .x h.ctl.take) = true →
            (∀ e, h.target = .vec (.e e) → halfBusy k e = false) →
            (emptyMailbox k h.srcs = true ∨ earlierReader k .x (mboxesOf h.srcs) = true →
              exec i s = .next (s.setStream w { s.stream w with run := .descheduled, wants := mboxesOf h.srcs })) ∧
            (emptyMailbox k h.srcs = false → earlierReader k .x (mboxesOf h.srcs) = false → ∀ m, errorMark k h.srcs = some m →
              Traps i s w m.1 m.2)))))

/-- CSCAN (R189 to R192): it issues with its contribution added to the launch and its scan outstanding, a fifth one waits, and one
that differs from its instance raises 0x02 with the field that differs. CSCAN_LANDING, once every participant has contributed,
gives participant j the value that participants 0 to j − 1 composed in ascending logical index. The model's own choice in it:
which field a mismatch names and what a fifth scan does (log 25). -/
def Obligations.CoreScans : Prop :=
  ∀ (s : State) (w : Who) (d : XDst) (a b z : XSrc) (ty : Ty) (op scope : Nat) (rnd : Rnd) (c : XCtl),
    let i : Instr := .cscan d a b z ty op scope rnd c
    let k := s.core w.core
    let srcs := if op = 3 then [a, b, z] else [a, z]
    let last := if op = 3 then 2 else 1
    let inst := tget k.xs.scanCount scope 0
    (XCan i s w →
      (4 ≤ k.xs.scans.length → exec i s = .next (s.setStream w { s.stream w with run := .waiting })) ∧
      (∀ x, k.xs.scans.length < 4 → scanFirst s w.core scope = some x →
        (x.op ≠ op → Traps i s w 0x02 (opTval i false 0)) ∧
        (x.op = op → x.np ≠ (s.stream w).profile c.np → Traps i s w 0x02 (opTval i true 29)) ∧
        (x.op = op → x.np = (s.stream w).profile c.np → x.ty ≠ ty → Traps i s w 0x02 (opTval i true 14))) ∧
      (k.xs.scans.length < 4 → (∀ x, scanFirst s w.core scope = some x →
          x.op = op ∧ x.np = (s.stream w).profile c.np ∧ x.ty = ty) →
        ∃ t sc x, exec i s = .next t ∧ (t.core w.core).xs.scans = k.xs.scans ++ [sc] ∧
          sc.scope = scope ∧ sc.inst = inst ∧ sc.ty = ty ∧ sc.op = op ∧ sc.mask = k.pred c.guard ∧ sc.zeroing = c.zeroing ∧
          sc.give = c.give ∧ tget (t.core w.core).xs.scanCount scope 0 = inst + 1 ∧
          t.launches = s.launches.map (fun l => if l.record == k.record then { l with contribs := l.contribs ++ [x] } else l) ∧
          x.scope = scope ∧ x.unit_ = unitOf (scope + 2) w.core ∧ x.inst = inst ∧ x.op = op ∧ x.ty = ty ∧ x.lidx = k.lidx ∧
          x.np = (s.stream w).profile c.np ∧ x.a = xIn s w srcs 0 ty ∧ (op = 3 → x.b = xIn s w srcs 1 ty) ∧
          (z ≠ .s 0 → x.h = xIn s w srcs last ty) ∧
          (z = .s 0 → ∀ j < 512 / ty.width, vget ty.width x.h j = cscanIdentity ty op) ∧
          (∀ n, (t.core w.core).vec n = k.vec n) ∧ (t.core w.core).x.regs = k.x.regs ∧ (t.core w.core).xs.p = k.xs.p ∧
          (∀ m, d = .v m → (t.core w.core).vecFull m = false) ∧ t.mem = s.mem ∧ (t.core w.core).tile = k.tile ∧
          (t.core w.core).x.pc = s.pcOf w + 8 ∧ ∀ e, e ≠ w.core → t.core e = s.core e)) ∧
    (∀ n sc l x rest, w.core < 512 → s.still w.core = false → k.allEnded = false → k.xs.scans[n]? = some sc →
      s.launchOf w.core = some l → s.whole l.record = true → scanBlocked k n sc = false → instanceOf l sc w.core = some (x :: rest) →
      let r := scanValue sc.ty sc.op k.lidx x.h (x :: rest)
      overflows k.x r.2 = false → ∀ m, sc.d = .v m →
        ∃ t, exec (.cscanLanding w.core n) s = .next t ∧ OnlyCore w.core s t ∧ (t.core w.core).xs.scans = ldel k.xs.scans n ∧
          (∀ j < 4096, (tget (t.core w.core).xs.v m 0).getLsbD j = if sc.mask.getLsbD (j / 8) then r.1.getLsbD j
            else if sc.zeroing then false else (tget k.xs.v m 0).getLsbD j) ∧
          (∀ q, q ≠ m → tget (t.core w.core).xs.v q 0 = tget k.xs.v q 0) ∧
          (t.core w.core).x = { k.x with qflags := k.x.qflags ||| r.2 } ∧
          ((∀ p ∈ k.x.pend, p.op.writesVec m = false) → (∀ q ∈ ldel k.xs.scans n, q.d ≠ .v m) →
            (t.core w.core).xs.vempty.contains m = false) ∧ (t.core w.core).tile = k.tile)

/-! ## The access engine: loads, stores and atomics (R234 to R256, R341 to R343) -/

/-- LD, LDQ and LDT (R246 to R248): after the checks of the access, `d` is empty, the queue entry is reserved, or the copy is under
way, and the access joins the pending ones; nothing else of registers and memory changes. LDT from a race page, which the detector
checks as it is performed, copies at issue (R366). A queue without room raises 0x05 in gauge mode and makes the stream wait in rib
mode; a refused access takes its trap, and only the walks of its pages have taken effect. The model's own choice in it: the order of the
checks (logs 29 and 30), the first refused byte (log 32), which bytes are read at issue (log 31), and race pages (log 79). -/
def Obligations.LoadsIssue : Prop :=
  ∀ (s : State) (w : Who) (d q size : Nat) (base : ABase) (z : Bool) (off : MOff), Acts s w → w.eng = .a →
    shadow s w = false → Full s w (d :: memRegs base off) →
    let S := s.stream w
    let c := w.core
    let wide := memAddr s w base 512 off
    let addr := memAddr s w base (2 ^ size) off
    (∀ r o width, memAddr s w (.reg r) width (.imm o) = .ok ((Addr.va (regOf s w r).toNat).plus (o * width))) ∧
    (∀ e, addr = .error e → Traps (.ld d base size z off) s w e.1 e.2) ∧
    (∀ a e, addr = .ok a → openAccess s c (syncAcc .read (2 ^ size)) a (2 ^ size) = .error e →
      exec (.ld d base size z off) s =
        .next (takeTrap (translatedFor s c (syncAcc .read (2 ^ size)) a (2 ^ size)) w e.1 e.2)) ∧
    (∀ a segs s1, addr = .ok a → openAccess s c (syncAcc .read (2 ^ size)) a (2 ^ size) = .ok (segs, s1) → Straight s w 4 →
      leavesLate s1 c (.load d (2 ^ size) z segs none) = false →
      ∃ t data, exec (.ld d base size z off) s = .next t ∧
        (t.stream w).pend = S.pend ++ [⟨(s.core c).nextId, .load d (2 ^ size) z segs data⟩] ∧
        (∀ l, data = some l → l = (readSegs s1 c segs).1) ∧ (d ≠ 0 → (t.stream w).full d = false) ∧
        (t.stream w).regs = S.regs ∧ (t.stream w).pc = S.pc + 4 ∧ t.mem = s1.mem ∧ (t.core c).tile = (s.core c).tile ∧
        (t.core c).q = (s.core c).q ∧ ∀ e, e ≠ c → t.core e = s.core e) ∧
    (8 ≤ ((s.core c).qOf q).length → if S.gauge then Traps (.ldq q base off) s w 0x05 (BitVec.ofNat 64 q)
      else exec (.ldq q base off) s = .next (s.setStream w { S with run := .waiting })) ∧
    (∀ a segs s1, wide = .ok a → ((s.core c).qOf q).length < 8 → openAccess s c (syncAcc .read 4) a 512 = .ok (segs, s1) →
      Straight s w 4 → leavesLate s1 c (.entry q 0 segs none 0 0) = false →
      ∃ t data, exec (.ldq q base off) s = .next t ∧
        (t.core c).qOf q = (s.core c).qOf q ++ [⟨(s.core c).nextId, none⟩] ∧
        (t.stream w).pend = S.pend ++ [⟨(s.core c).nextId + 1, .entry q (s.core c).nextId segs data (s.core c).nextId 0⟩] ∧
        (t.stream w).regs = S.regs ∧ (t.stream w).pc = S.pc + 4 ∧ t.mem = s1.mem ∧ (t.core c).tile = (s.core c).tile ∧
        (∀ n, n ≠ q → (t.core c).qOf n = (s.core c).qOf n) ∧ ∀ e, e ≠ c → t.core e = s.core e) ∧
    (0x7FFFF < (regOf s w d).toNat + 511 → Traps (.ldt d base off) s w 0x02 (opTval (.ldt d base off) false 19)) ∧
    (∀ a segs s1, wide = .ok a → (regOf s w d).toNat + 511 ≤ 0x7FFFF → (regOf s w d).toNat % 64 = 0 →
      (∀ n ∈ tilesOf (regOf s w d).toNat 512, n ∉ (s.core c).ownM) → openAccess s c (syncAcc .read 64) a 512 = .ok (segs, s1) →
      Straight s w 4 → leavesLate s1 c (.toTile (regOf s w d).toNat segs) = false →
      ∃ t, exec (.ldt d base off) s = .next t ∧ (t.stream w).regs = S.regs ∧ (t.stream w).pc = S.pc + 4 ∧ t.mem = s1.mem ∧
        (∀ e, e ≠ c → t.core e = s.core e) ∧
        ((∀ g ∈ segs, detects s1 c g = false) → (t.core c).tile = (s.core c).tile ∧
          (t.stream w).pend = S.pend ++ [⟨(s.core c).nextId, .toTile (regOf s w d).toNat segs⟩]) ∧
        ((∃ g ∈ segs, detects s1 c g = true) → (∀ g ∈ segs, g.isRemote = false) → badSegs s1 c segs = none →
          (s.core c).tile.wf = true → (readSegs s1 c segs).1.length = 512 → (t.stream w).pend = S.pend ∧
          ∀ x, readB (t.core c).tile x = if (regOf s w d).toNat ≤ x ∧ x < (regOf s w d).toNat + 512
            then (readSegs s1 c segs).1.getD (x - (regOf s w d).toNat) 0 else readB (s.core c).tile x))

/-- What lands of a load (R102, R215, R241, R246, R248): a register gets the little-endian value of the bytes, extended; a queue
entry its bytes, or an error mark where they cannot be read; the tile store its 512 bytes. The access leaves the pending ones.
The model's own choice in it: what holds a landing back (log 12). -/
def Obligations.LoadsLand : Prop :=
  ∀ (s : State) (c n id : Nat) (segs : List Seg), c < 512 → s.still c = false → (s.core c).allEnded = false → Canonical s →
    let S := (s.core c).a
    let owner : Owner := .pend c id
    (∀ d size z l s1, S.pend[n]? = some ⟨id, .load d size z segs none⟩ →
      heldBack (S.pend.take n) (.load d size z segs none) = false → gather c owner segs s = .ok l s1 →
      ∃ t, exec (.valueLanding c .a n) s = .next t ∧
        (∀ m, (t.core c).a.reg m = if m = d ∧ d ≠ 0 then
          (if z then BitVec.ofNat 64 (natOf l) else BitVec.ofInt 64 (signedField (natOf l) (8 * size))) else S.reg m) ∧
        (t.core c).a.pend = S.pend.filter (fun p => p.id != id) ∧ t.mem = s.mem ∧ (t.core c).tile = (s.core c).tile ∧
        (t.core c).a.pc = S.pc ∧ (t.core c).a.qflags = S.qflags ∧ ∀ e, e ≠ c → t.core e = s.core e) ∧
    (∀ g, segs = [g] → g.home = .local → buffers s c g = false → readBad s g.addr g.len = none →
      ∃ s1, gather c owner segs s = .ok (readBytes s.mem g.addr g.len) s1 ∧ s1.cores = s.cores ∧ s1.mem = s.mem) ∧
    (∀ q e group give l s1, S.pend[n]? = some ⟨id, .entry q e segs none group give⟩ →
      heldBack (S.pend.take n) (.entry q e segs none group give) = false → gather c owner segs s = .ok l s1 →
      ∃ t, exec (.queueEntryLanding c n) s = .next t ∧ (t.core c).qOf q = fillQ e (.bytes (vecOfBytes l)) ((s.core c).qOf q) ∧
        (∀ m, m ≠ q → (t.core c).qOf m = (s.core c).qOf m) ∧ (t.core c).a.pend = S.pend.filter (fun p => p.id != id) ∧
        t.mem = s.mem ∧ (t.core c).tile = (s.core c).tile ∧ (t.core c).a.regs = S.regs ∧ (t.core c).a.pc = S.pc) ∧
    (∀ q e group give l, S.pend[n]? = some ⟨id, .entry q e segs (some l) group give⟩ →
      ∃ t, exec (.queueEntryLanding c n) s = .next t ∧ (t.core c).qOf q = fillQ e l ((s.core c).qOf q) ∧
        (t.core c).a.pend = S.pend.filter (fun p => p.id != id) ∧ t.mem = s.mem ∧ (t.core c).tile = (s.core c).tile) ∧
    (∀ q e group give cause tv, S.pend[n]? = some ⟨id, .entry q e segs none group give⟩ →
      heldBack (S.pend.take n) (.entry q e segs none group give) = false → gather c owner segs s = .bad cause tv →
      ∃ t, exec (.queueEntryLanding c n) s = .next t ∧ t.mem = s.mem ∧
        (t.core c).qOf q = fillQ e (.error cause (accTval true tv)) ((s.core c).qOf q)) ∧
    (∀ dst l s1, S.pend[n]? = some ⟨id, .toTile dst segs⟩ → heldBack (S.pend.take n) (.toTile dst segs) = false →
      gather c owner segs s = .ok l s1 → l.length = 512 →
      ∃ t, exec (.valueLanding c .a n) s = .next t ∧
        (∀ a, readB (t.core c).tile a = if dst ≤ a ∧ a < dst + 512 then l.getD (a - dst) 0 else readB (s.core c).tile a) ∧
        (t.core c).a.pend = S.pend.filter (fun p => p.id != id) ∧ t.mem = s.mem ∧ (t.core c).a.regs = S.regs)

/-- ST, STQ and STT (R246 to R248, R104, R222): after the checks, tile-store bytes and those of race pages are written at issue, and a
store to other local memory joins the pending ones with memory as it was; STQ pops the head of its queue, a refused one pops nothing
(R239), and an entry whose mask is zero is popped with nothing checked. STORE_PERFORMED writes exactly the masked bytes of a pending
store. The model's own choice in it: the order of the checks (logs 29 and 30), tile bytes are written at issue (log 31), and so are those
of race pages (log 79). -/
def Obligations.StoresIssueAndPerform : Prop :=
  ∀ (s : State) (w : Who) (d q size : Nat) (base : ABase) (off : MOff), w.eng = .a → Canonical s →
    let S := s.stream w
    let c := w.core
    let k := s.core c
    (Acts s w → shadow s w = false → Full s w (d :: memRegs base off) → Straight s w 4 →
      (∀ a g s1, memAddr s w base (2 ^ size) off = .ok a →
        openAccess s c (syncAcc .write (2 ^ size)) a (2 ^ size) = .ok ([g], s1) →
        g.len = 2 ^ size →
        let bytes := bytesOf (2 ^ size) (regOf s w d).toNat
        (g.home = .tile → busyNow k [g] = false → ∃ t, exec (.st d base size off) s = .next t ∧ t.mem = s1.mem ∧
          (∀ x, readB (t.core c).tile x = if g.addr ≤ x ∧ x < g.addr + 2 ^ size then bytes.getD (x - g.addr) 0
            else readB k.tile x) ∧
          t.core c = { k with
            tile := (t.core c).tile, badTile := (t.core c).badTile, badParity := (t.core c).badParity,
            conflicts := (t.core c).conflicts,
            a := { S with pc := S.pc + 4, run := s.runNext w, at_ := .free } } ∧ ∀ e, e ≠ c → t.core e = s.core e) ∧
        (g.home = .local → buffers s c g = false → detects s c g = false →
          ∃ t, exec (.st d base size off) s = .next t ∧ t.mem = s1.mem ∧
          t.core c = { k with nextId := k.nextId + 1, a := { S with
            pc := S.pc + 4, run := s.runNext w, at_ := .free,
            pend := S.pend ++ [⟨k.nextId, .store [g] bytes (List.replicate (2 ^ size) true)⟩] } } ∧
          ∀ e, e ≠ c → t.core e = s.core e) ∧
        (g.home = .local → detects s c g = true → heldBack S.pend (.store [g] [] []) = false →
          ∃ t, exec (.st d base size off) s = .next t ∧
          (∀ x, readB t.mem x = if g.addr ≤ x ∧ x < g.addr + 2 ^ size then bytes.getD (x - g.addr) 0 else readB s1.mem x) ∧
          t.core c = { k with a := { S with pc := S.pc + 4, run := s.runNext w, at_ := .free } } ∧
          ∀ e, e ≠ c → t.core e = s.core e)) ∧
      (∀ a e, memAddr s w base (2 ^ size) off = .ok a → openAccess s c (syncAcc .write (2 ^ size)) a (2 ^ size) = .error e →
        exec (.st d base size off) s =
          .next (takeTrap (translatedFor s c (syncAcc .write (2 ^ size)) a (2 ^ size)) w e.1 e.2)) ∧
      (k.wPresent q = 0 → exec (.stq q base off) s = .next (s.setStream w { S with run := .waiting })) ∧
      (∀ e v rest, k.wOf q = ⟨e, some (v, 0)⟩ :: rest → exec (.stq q base off) s = .next (s.coreGoes w (k.setW q rest))) ∧
      (∀ v m rest a x, (∃ e, k.wOf q = ⟨e, some (v, m)⟩ :: rest) → m ≠ 0 → memAddr s w base 512 off = .ok a →
        openAccess s c (storeAcc 4 (boolsOfPred m)) a 512 = .error x →
        exec (.stq q base off) s = .next (takeTrap (translatedFor s c (storeAcc 4 (boolsOfPred m)) a 512) w x.1 x.2)) ∧
      (∀ e v m rest a g s1, k.wOf q = ⟨e, some (v, m)⟩ :: rest → m ≠ 0 → memAddr s w base 512 off = .ok a →
        openAccess s c (storeAcc 4 (boolsOfPred m)) a 512 = .ok ([g], s1) →
        g.len = 512 → g.home = .local → buffers s c g = false → detects s c g = false →
        ∃ t, exec (.stq q base off) s = .next t ∧ (t.core c).wOf q = rest ∧ (∀ n, n ≠ q → (t.core c).wOf n = k.wOf n) ∧
          (t.core c).a.pend = S.pend ++ [⟨k.nextId, .store [g] (bytesOfVec v) (boolsOfPred m)⟩] ∧ t.mem = s1.mem ∧
          (t.core c).a.regs = S.regs ∧ (t.core c).tile = k.tile ∧ (t.core c).a.pc = S.pc + 4) ∧
      (∀ a g s1, memAddr s w base 512 off = .ok a → (regOf s w d).toNat + 511 ≤ 0x7FFFF → (regOf s w d).toNat % 64 = 0 →
        (∀ n ∈ tilesOf (regOf s w d).toNat 512, n ∉ k.ownM) → openAccess s c (syncAcc .write 64) a 512 = .ok ([g], s1) →
        g.len = 512 → g.home = .local → buffers s c g = false → detects s c g = false → S.pend = [] → k.badTile = [] →
        k.badParity = [] →
        ∃ t, exec (.stt d base off) s = .next t ∧ t.mem = s1.mem ∧ (t.core c).tile = k.tile ∧ (t.core c).a.regs = S.regs ∧
          (t.core c).a.pend = [⟨k.nextId, .store [g] (readBytes k.tile (regOf s w d).toNat 512) (List.replicate 512 true)⟩] ∧
          (t.core c).a.pc = S.pc + 4)) ∧
    (∀ n id g data mask, c < 512 → s.still c = false → k.allEnded = false → S.pend[n]? = some ⟨id, .store [g] data mask⟩ →
      heldBack (S.pend.take n) (.store [g] data mask) = false → g.home = .local → buffers s c g = false →
      data.length = g.len → mask.length = g.len → s.relActs = [] → (∀ r ∈ s.requests, r.owner ≠ .pend c id) →
      ∃ t, exec (.storePerformed c n) s = .next t ∧
        (∀ a, readB t.mem a = if g.addr ≤ a ∧ a < g.addr + g.len ∧ mask.getD (a - g.addr) false = true
          then data.getD (a - g.addr) 0 else readB s.mem a) ∧
        t.core c = k.setStream .a { S with pend := S.pend.filter (fun p => p.id != id) } ∧
        (∀ e, e ≠ c → t.core e = s.core e) ∧ t.requests = s.requests)

/-- AMO and CAS (R252 to R254): on the tile store the old value lands in `d` and the new one is written at issue; on local memory
the atomic is pending until it reads the old value and writes the new one in one step, `d` getting the old value zero-extended;
a CAS that does not match leaves the bytes as they were. A refused atomic has no effect but its walks. The model's own choice in it:
the order of the checks (logs 29 and 30), tile bytes are written at issue (log 31), and race pages (log 79). -/
def Obligations.AtomicsPerform : Prop :=
  ∀ (s : State) (w : Who) (d a b op ord : Nat) (dword : Bool), w.eng = .a → Canonical s →
    let S := s.stream w
    let c := w.core
    let k := s.core c
    let n := if dword then 8 else 4
    let addr : Addr := .va (regOf s w a).toNat
    let acc : Acc := ⟨.write, n, true, false, true, .store, []⟩
    let forms := [(Instr.amo d a b op dword ord, AmoOp.rmw op (regOf s w b)),
      (.cas d a b dword ord, .cas (regOf s w d) (regOf s w b))]
    (Acts s w → Full s w [d, a, b] → ∀ i o, (i, o) ∈ forms →
      (∀ e, openAccess s c acc addr n = .error e → exec i s = .next (takeTrap (translatedFor s c acc addr n) w e.1 e.2)) ∧
      (∀ g s1, openAccess s c acc addr n = .ok ([g], s1) → Straight s w 4 → ord = 0 →
        (g.home = .tile → g.len = n → busyNow k [g] = false → badSegs s1 c [g] = none →
          ∃ t, exec i s = .next t ∧
            (t.stream w).pend = S.pend ++ [⟨k.nextId, .scalar d (BitVec.ofNat 64 (natOf (readBytes k.tile g.addr n))) 0⟩] ∧
            (∀ x, x < g.addr ∨ g.addr + n ≤ x → readB (t.core c).tile x = readB k.tile x) ∧
            natOf (readBytes (t.core c).tile g.addr n) = amoNew n o (natOf (readBytes k.tile g.addr n)) % 2 ^ (8 * n) ∧
            (t.stream w).regs = S.regs ∧ (d ≠ 0 → (t.stream w).full d = false) ∧ t.mem = s.mem ∧ (t.stream w).pc = S.pc + 4) ∧
        (g.home = .local → buffers s c g = false →
          (detects s c g = true → heldBack S.pend (.amo d o dword false false [g] 0) = false) → ∃ t, exec i s = .next t ∧
          (t.stream w).pend = S.pend ++ [⟨k.nextId, .amo d o dword false false [g] 0⟩] ∧ (d ≠ 0 → (t.stream w).full d = false) ∧
          (t.stream w).regs = S.regs ∧ t.mem = s.mem ∧ (t.core c).tile = k.tile ∧ (t.stream w).pc = S.pc + 4))) ∧
    (∀ j id o g, c < 512 → s.still c = false → k.allEnded = false → S.pend[j]? = some ⟨id, .amo d o dword false false [g] 0⟩ →
      heldBack (S.pend.take j) (.amo d o dword false false [g] 0) = false → g.home = .local → g.len = n →
      buffers s c g = false → readBad s g.addr n = none → s.relActs = [] →
      let old := natOf (readBytes s.mem g.addr n)
      ∃ t, exec (.valueLanding c .a j) s = .next t ∧
        (∀ m, (t.stream w).reg m = if m = d ∧ d ≠ 0 then BitVec.ofNat 64 old else S.reg m) ∧
        (∀ x, x < g.addr ∨ g.addr + n ≤ x → readB t.mem x = readB s.mem x) ∧
        natOf (readBytes t.mem g.addr n) = amoNew n o old % 2 ^ (8 * n) ∧
        (t.stream w).pend = S.pend.filter (fun p => p.id != id) ∧ (t.core c).tile = k.tile)

/-- FENCE, SPADJ, PASS and PGHINT (R222 to R226, R237, R255 to R257): what each waits for, the stack limit's 0x12, the owner bits
that a PASS changes, the refused ranges, and a full am FIFO, which stops a PASS toward M with 0x07 in gauge mode and makes it wait in
rib mode. PASS_FLIP hands the tiles to M and gives the am token. The model's own choice in it: for which parties a FENCE waits (log 19),
a PASS toward M flips the owners at its event (log 40), and the tval of a PASS toward a core without M (log 23). -/
def Obligations.FencesAndPasses : Prop :=
  ∀ (s : State) (w : Who) (a n kind scope queue dist : Nat) (imm : Int), w.eng = .a →
    let S := s.stream w
    let k := s.core w.core
    let waits (i : Instr) : Prop := exec i s = .next (s.setStream w { S with run := .waiting })
    let t := (regOf s w a).toNat
    let sp : Word := BitVec.ofInt 64 ((regOf s w 30).toNat + 16 * imm)
    (Acts s w → Straight s w 4 → Full s w [a, 30] →
      ((hasParty s w.core scope = true → k.doneA = true) → (1 ≤ kind → k.as.xfers = []) →
        (kind = 0 ∨ scope ≠ 5 ∨ k.det.away = [] → exec (.fence kind scope) s = .next (s.goTo w (S.pc + 4))) ∧
        (1 ≤ kind → scope = 5 → k.det.away ≠ [] → exec (.fence kind scope) s = .next (s.standsAt w .committing))) ∧
      ((hasParty s w.core scope = true ∧ k.doneA = false) ∨ (1 ≤ kind ∧ k.as.xfers ≠ []) → waits (.fence kind scope)) ∧
      (sp.toNat < k.as.slim.toNat → Traps (.spadj imm) s w 0x12 sp) ∧
      (k.as.slim.toNat ≤ sp.toNat → WritesReg (.spadj imm) s w 30 sp) ∧
      exec (.pghint queue dist) s = .next (s.coreGoes w { k with as := { k.as with hint := tset k.as.hint queue dist } }) ∧
      (n = 0 ∨ 128 < n → Traps (.passM a n) s w 0x02 (opTval (.passM a n) false 0) ∧
        Traps (.passA a n) s w 0x02 (opTval (.passA a n) false 0)) ∧
      (0 < n → n ≤ 128 → 128 < t + n → Traps (.passM a n) s w 0x02 (opTval (.passM a n) false 13) ∧
        Traps (.passA a n) s w 0x02 (opTval (.passA a n) false 13)) ∧
      (0 < n → t + n ≤ 128 →
        (∀ i, t ≤ i → i < t + n → i ∉ k.ownM → (∀ j, t ≤ j → j < i → j ∈ k.ownM) →
          Traps (.passA a n) s w 0x16 (BitVec.ofNat 64 (4096 * i))) ∧
        ((∀ i, t ≤ i → i < t + n → i ∈ k.ownM) → exec (.passA a n) s = .next (s.coreGoes w
          { k with ownM := k.ownM.filter (fun i => !(decide (t ≤ i) && decide (i < t + n))) })) ∧
        (k.hasEngines [.m] = false → Traps (.passM a n) s w 0x02 (opTval (.passM a n) false 12)) ∧
        (k.hasEngines [.m] = true →
          (∀ i, t ≤ i → i < t + n → i ∈ k.ownM → (∀ j, t ≤ j → j < i → j ∉ k.ownM) →
            Traps (.passM a n) s w 0x16 (BitVec.ofNat 64 (4096 * i))) ∧
          ((∀ i, t ≤ i → i < t + n → i ∉ k.ownM) → k.fullFifo [1] ≠ none →
            (S.gauge = true → Traps (.passM a n) s w 0x07 1) ∧ (S.gauge = false → waits (.passM a n))) ∧
          ((∀ i, t ≤ i → i < t + n → i ∉ k.ownM) → k.fullFifo [1] = none → S.pend = [] → k.as.xfers = [] →
            exec (.passM a n) s = .next ((s.setCore w.core { k with
              reserved := tset k.reserved 1 (k.slots 1 + 1) }).setStream w { S with at_ := .pass t n, run := .waiting }))))) ∧
    (∀ t m, w.core < 512 → s.still w.core = false → S.at_ = .pass t m → Straight s w 4 →
      ∃ u, exec (.passFlip w.core) s = .next u ∧ (∀ i, i ∈ (u.core w.core).ownM ↔ i ∈ k.ownM ∨ (t ≤ i ∧ i < t + m)) ∧
        (u.core w.core).token 1 = k.token 1 + 1 ∧ (u.core w.core).slots 1 = k.slots 1 - 1 ∧ OnlyCore w.core s u ∧
        u.core w.core = { k with
          ownM := (u.core w.core).ownM, tokens := (u.core w.core).tokens,
          reserved := (u.core w.core).reserved, a := { S with pc := S.pc + 4, run := s.runNext w, at_ := .free } })

/-! ## Translation, strided and indexed queues, tables and contexts (R237, R249 to R251, R258 to R260, R266, R275, R423) -/

/-- TLBP, TLBINV, PAGE_WALK and the next page of a queue (R237, R258 to R260, R334): what a probe answers and that it faults
nothing, what leaves the caches of the reach, and that a walk's translation enters its cluster's cache. A cached translation of a package
that was restarted makes the access raise 0x48, and the core uses it no more (R462). The model's own choice in it: which translation an access
uses (log 33), the line-read counters (log 34), the next page of a queue (log 35) and the size code of a probe (log 36). -/
def Obligations.TranslationForms : Prop :=
  ∀ (s : State) (w : Who) (d a : Nat) (at_ : Bool), w.eng = .a →
    let S := s.stream w
    let k := s.core w.core
    let V := (regOf s w a).toNat
    let g := clusterOf w.core
    (∀ va n tr, cachedFor s w.core k.ctx (va % 2 ^ 57) = some tr → tr.pkg ≠ s.pkgId → (s.peer tr.pkg).inc ≠ tr.inc →
      let gone (x : Trans) : Prop := ¬ (x.stale s = true ∧ x.covers k.ctx (va % 2 ^ 57) = true)
      let t := translated s w.core k.ctx va n
      translate s w.core k.ctx va n = .error 0x48 ∧ (∀ x ∈ (t.cluster g).tlb, gone x) ∧
        (∀ x ∈ (t.core w.core).gtlb, gone x) ∧
        (∀ p ∈ (t.core w.core).as.curPage ++ (t.core w.core).as.nextPage, gone p.2) ∧
        (∀ h, h ≠ g → t.cluster h = s.cluster h) ∧ (∀ e, e ≠ w.core → t.core e = s.core e) ∧ t.mem = s.mem) ∧
    (CanRun s w [a, d] 4 →
      (V < tileBytes → WritesReg (.tlbp d a false) s w d (BitVec.ofNat 64 (2 ^ 63 + s.pkgId * 2 ^ 44 + V)) ∧
        WritesReg (.tlbp d a true) s w d 1) ∧
      (canonical V = false → WritesReg (.tlbp d a at_) s w d 0) ∧
      (tileBytes ≤ V → canonical V = true → windowOf s w.core V 1 = none → (s.cluster g).tlb = [] → k.gtlb = [] →
        k.as.curPage = [] → k.as.nextPage = [] →
        (∀ cause, walk s k.ctx (V % 2 ^ 57) = .error cause → ∃ t, exec (.tlbp d a at_) s = .next t ∧
          Wrote s { t with counters := s.counters } w d 0 (S.pc + 4) 0 S.dph) ∧
        (∀ tr, walk s k.ctx (V % 2 ^ 57) = .ok tr → ∃ t, exec (.tlbp d a at_) s = .next t ∧ (t.cluster g).tlb = [tr] ∧
          (∀ h, h ≠ g → t.cluster h = s.cluster h) ∧
          Wrote s { t with clusters := s.clusters, counters := s.counters } w d
            (if at_ then attrWord tr.attr tr.size (tr.pkg != s.pkgId)
              else BitVec.ofNat 64 (2 ^ 63 + tr.pkg * 2 ^ 44 + (tr.frame + V % 2 ^ 57 % 2 ^ pageShift tr.size)))
            (S.pc + 4) 0 S.dph))) ∧
    (∀ reach, Acts s w →
      (S.super = false → Traps (.tlbinv a reach) s w 0x03 (firstWord (.tlbinv a reach))) ∧
      (S.super = true → S.gauge = false → Full s w [a] →
        exec (.tlbinv a reach) s = .next (s.standsAt w (.tlbinv reach (if reach % 2 = 0 then regOf s w a else 0))))) ∧
    (∀ reach va, w.core < 512 → s.still w.core = false → S.at_ = .tlbinv reach va → Straight s w 4 →
      let gone (tr : Trans) : Prop := tr.ctx = k.ctx ∧ (reach % 2 = 0 → tr.covers k.ctx (va.toNat % 2 ^ 57) = true)
      ∃ t, exec (.tlbinvCompletion w.core) s = .next t ∧
        (∀ h, (h = g ∨ (2 ≤ reach ∧ h < 32)) → (∀ tr ∈ (t.cluster h).tlb, ¬ gone tr) ∧ ∀ e, clusterOf e = h →
          (∀ tr ∈ (t.core e).gtlb, ¬ gone tr) ∧ (∀ p ∈ (t.core e).as.curPage ++ (t.core e).as.nextPage, ¬ gone p.2)) ∧
        t.stream w = { S with pc := S.pc + 4, run := s.runNext w, at_ := .free } ∧ t.mem = s.mem ∧
        ∀ e, (t.core e).tile = (s.core e).tile) ∧
    (∀ cl ctxid (va : Word), cl < 32 →
      (usesCluster s cl ctxid = true →
        (∀ tr, walk s ctxid (va.toNat % 2 ^ 57) = .ok tr → ∃ t, exec (.pageWalk cl ctxid va) s = .next t ∧
          tr ∈ (t.cluster cl).tlb ∧ (∀ h, h ≠ cl → t.cluster h = s.cluster h) ∧ t.cores = s.cores ∧ t.mem = s.mem) ∧
        (∀ cause, walk s ctxid (va.toNat % 2 ^ 57) = .error cause → ∃ t, exec (.pageWalk cl ctxid va) s = .next t ∧
          t.clusters = s.clusters ∧ t.cores = s.cores ∧ t.mem = s.mem)) ∧
      (usesCluster s cl ctxid = false → exec (.pageWalk cl ctxid va) s = .next s)) ∧
    (∀ queue cur, w.core < 512 → queue < 24 → s.still w.core = false → tfind k.as.curPage queue = some cur →
      let stop := cur.page + 2 ^ pageShift cur.size
      let D := tget k.as.hint queue 8
      (D = 0 ∨ D * 512 < stop - tget k.as.qva queue 0 → exec (.nextPageTranslation w.core queue) s = .next s) ∧
      (∀ tr, D ≠ 0 → stop - tget k.as.qva queue 0 ≤ D * 512 → stop < 2 ^ 57 → translate s w.core k.ctx stop 0 = .ok tr →
        exec (.nextPageTranslation w.core queue) s = .next ((translated s w.core k.ctx stop 0).setCore w.core
          { k with as := { k.as with nextPage := tset k.as.nextPage queue tr } })))

/-- LDQS and GATHQ reserve the entries that their elements fill and leave one pending load for each; SCATQ pops its entries and
stores their masked bytes; CPLVL sets a copy level (R249 to R251, R266). A count out of range raises 0x02, a queue without room
0x05 or a wait, and a refused element its own cause with nothing popped, taken or reserved, and its index list forgotten (R239). The
model's own choice in it: the order of the checks (logs 29 and 30), when an index of a list is refused (log 39), and race pages (log
79). -/
def Obligations.QueueForms : Prop :=
  ∀ (s : State) (w : Who) (q a b st level : Nat) (d : ABase) (ty : Ty) (c : ACtl),
    AReady s w c (baseRegs d ++ [a, b, st]) →
    let S := s.stream w
    let k := s.core w.core
    let W := ty.width
    let s0 := s.tookA w c
    let na := (regOf s w a).toNat
    let nb := (regOf s w b).toNat
    let loads (t : State) (entries : List (List Seg)) (mem : Memory) : Prop :=
      (∃ ids data, ids.length = entries.length ∧ data.length = entries.length ∧
        Reserved (k.qOf q) ((t.core w.core).qOf q) ids ∧
        (t.stream w).pend = S.pend ++ (t.stream w).pend.drop S.pend.length ∧
        ((t.stream w).pend.drop S.pend.length).map Pend.op =
          (ids.zip (entries.zip data)).map (fun e => .entry q e.1 e.2.1 e.2.2 (ids.headD 0) c.give)) ∧
      (∀ n, n ≠ q → (t.core w.core).qOf n = k.qOf n) ∧ (t.core w.core).tokens = (s0.core w.core).tokens ∧
      (t.core w.core).reserved = (s0.core w.core).reserved ∧ (t.stream w).regs = S.regs ∧ (t.stream w).pc = S.pc + 8 ∧
      t.mem = mem ∧ (t.core w.core).tile = k.tile ∧ ∀ e, e ≠ w.core → t.core e = s.core e
    (∀ n, (s0.core w.core).token n = k.token n - (if n ∈ takeFifos .a c.take then 1 else 0)) ∧
    (∀ n, (s0.core w.core).slots n = k.slots n + (if n ∈ giveFifos .a c.give then 1 else 0)) ∧
    -- LDQS
    (na = 0 ∨ 4096 / W < na → Traps (.ldqs q d a b ty c) s w 0x02 (opTval (.ldqs q d a b ty c) false 13)) ∧
    (0 < na → na ≤ 4096 / W → 8 < (k.qOf q).length + entriesFor na W →
      (S.gauge = true → Traps (.ldqs q d a b ty c) s w 0x05 (BitVec.ofNat 64 q)) ∧
      (S.gauge = false → Waits (.ldqs q d a b ty c) s w)) ∧
    (∀ base, 0 < na → na ≤ 4096 / W → (k.qOf q).length + entriesFor na W ≤ 8 → baseAddr s w d = .ok base →
      let addrs := (List.range na).map (fun (j : Nat) => base.plus ((j : Int) * (regOf s w b).toInt))
      (∀ e, openAll w.core (syncAcc .read W) W addrs s0 = .error e →
        exec (.ldqs q d a b ty c) s = .next (takeTrap (translatedAll w.core (syncAcc .read W) W addrs s) w e.1 e.2)) ∧
      (∀ parts s1, openAll w.core (syncAcc .read W) W addrs s0 = .ok (parts, s1) → Here parts.flatten →
        (∀ es ∈ entryParts W (entriesFor na W) parts, leavesLate s w.core (.entry q 0 es none 0 0) = false) →
        ∃ t, exec (.ldqs q d a b ty c) s = .next t ∧ loads t (entryParts W (entriesFor na W) parts) s1.mem)) ∧
    -- GATHQ
    (nb = 0 ∨ 4096 / W < nb → Traps (.gathq q d a b ty c) s w 0x02 (opTval (.gathq q d a b ty c) false 7) ∧
      Traps (.scatq q d a b ty c) s w 0x02 (opTval (.scatq q d a b ty c) false 7)) ∧
    (∀ base segs s1 l s2, 0 < nb → nb ≤ 4096 / W → baseAddr s w d = .ok base →
      openAccess s w.core (syncAcc .read 4) (.va (regOf s w a).toNat) (4 * nb) = .ok (segs, s1) → tileOnly s w segs = none →
      Here segs → heldBack S.pend (.load 0 4 false segs none) = false →
      gather w.core (.instr w.core w.eng) segs s1 = .ok l s2 →
      let s3 := dropReqs s2 (.instr w.core w.eng)
      let idx := indices l nb
      (∀ parts s4, (k.qOf q).length + entriesFor nb W ≤ 8 →
        openAll w.core (syncAcc .read W) W (idx.map (fun x => base.plus (x * W))) s3 = .ok (parts, s4) →
        tileOnly s w parts.flatten = none → Here parts.flatten →
        (∀ es ∈ entryParts W (entriesFor nb W) parts, leavesLate s w.core (.entry q 0 es none 0 0) = false) →
        ∃ t, exec (.gathq q d a b ty c) s = .next t ∧ loads t (entryParts W (entriesFor nb W) parts) s4.mem) ∧
      (∀ e, (k.qOf q).length + entriesFor nb W ≤ 8 →
        openAll w.core (syncAcc .read W) W (idx.map (fun x => base.plus (x * W))) s3 = .error e →
        exec (.gathq q d a b ty c) s = .next (takeTrap
          (refusedElems s w (syncAcc .read W) W (idx.map (fun x => base.plus (x * W)))) w e.1 e.2)) ∧
      -- SCATQ
      (∀ ents parts s4, wHead k q (entriesFor nb W) = some ents →
        let elems := scatElems W ents idx
        openElems w.core (syncAcc .write W) W
          ((elems.map (fun e => base.plus (e.1 * W))).zip (elems.map (fun e => e.2.2))) s3 = .ok (parts, s4) →
        shadow s w = false → tileOnly s w parts.flatten = none →
        (∀ g ∈ parts.flatten, g.home = .local ∧ buffers s w.core g = false ∧ detects s w.core g = false) → parts.flatten ≠ [] →
        let ps := partsOf parts.flatten (elems.flatMap (fun e => e.2.1)) (elems.flatMap (fun e => e.2.2))
        ∃ t, exec (.scatq q d a b ty c) s = .next t ∧ (t.core w.core).wOf q = (k.wOf q).drop (entriesFor nb W) ∧
          (∀ n, n ≠ q → (t.core w.core).wOf n = k.wOf n) ∧
          (∃ id, (t.stream w).pend = S.pend ++
            [⟨id, .store (ps.map Part.seg) (ps.flatMap Part.data) (ps.flatMap Part.mask)⟩]) ∧
          (∀ n, (t.core w.core).token n = k.token n - (if n ∈ takeFifos .a c.take then 1 else 0) +
            (if n ∈ giveFifos .a c.give then 1 else 0)) ∧ (∀ n, (t.core w.core).slots n = k.slots n) ∧
          (t.stream w).regs = S.regs ∧ (t.stream w).pc = S.pc + 8 ∧ t.mem = s4.mem ∧ (t.core w.core).tile = k.tile ∧
          ∀ e, e ≠ w.core → t.core e = s.core e)) ∧
    (0 < nb → nb ≤ 4096 / W → wHead k q (entriesFor nb W) = none → Waits (.scatq q d a b ty c) s w) ∧
    -- CPLVL
    (2 ^ 32 ≤ na → Traps (.cplvl level a b st c) s w 0x02 (opTval (.cplvl level a b st c) false 13)) ∧
    (na < 2 ^ 32 → ∃ t, exec (.cplvl level a b st c) s = .next t ∧
      levelOf (t.core w.core) level = ⟨na, (regOf s w b).toInt, (regOf s w st).toInt⟩ ∧
      (∀ n, n ≠ level → levelOf (t.core w.core) n = levelOf k n) ∧
      (∀ n, (t.core w.core).token n = k.token n - (if n ∈ takeFifos .a c.take then 1 else 0) +
        (if n ∈ giveFifos .a c.give then 1 else 0)) ∧ (∀ n, (t.core w.core).slots n = k.slots n) ∧
      t.core w.core = { k with
        as := { k.as with levels := (t.core w.core).as.levels },
        tokens := (t.core w.core).tokens, reserved := (t.core w.core).reserved,
        a := { k.a with pc := S.pc + 8, run := s.runNext w, at_ := .free } } ∧ OnlyCore w.core s t)

/-- DECLD and its end (R275), CTXSV and CTXLD (R423): a table is read into the empty or the older bank under the next generation; a
save leaves no job of the context on the die and a lifeline for each launch; a load reads the header and the images, refuses another
version or context, restores the jobs and waits while they cannot be placed. Both are privileged, and name a live context and an
aligned address. The model's own choice in it: when a bad table is reported (log 39), images as data and which operand a refused image
names (log 56). -/
def Obligations.TablesAndContexts : Prop :=
  ∀ (s : State) (w : Who) (d a b e : Nat), w.eng = .a →
    let S := s.stream w
    let k := s.core w.core
    let c := w.core
    let owner : Owner := .instr c .a
    let A := (regOf s w a).toNat
    let x := (regOf s w b).toNat
    (Acts s w → Full s w [a] →
      (∀ f, openAccess s c (syncAcc .read 8) (.va A) 2048 = .error f →
        exec (.decld d a e) s = .next (takeTrap (translatedFor s c (syncAcc .read 8) (.va A) 2048) w f.1 f.2)) ∧
      (∀ segs s1, openAccess s c (syncAcc .read 8) (.va A) 2048 = .ok (segs, s1) →
        let late : Bool := leavesLate s c (.load 0 8 false segs none)
        (bankUsed k (k.bank (bankToFill k)).gen = true ∨ late = true → Waits (.decld d a e) s w) ∧
        (bankUsed k (k.bank (bankToFill k)).gen = false → late = false → Here segs →
          exec (.decld d a e) s = .next (s1.standsAt w (.decld d (bankToFill k) e segs))))) ∧
    (∀ bk segs l s1, c < 512 → s.still c = false → S.at_ = .decld d bk e segs →
      heldBack S.pend (.load 0 8 false segs none) = false → Straight s w 4 → S.full d = true →
      (gather c owner segs s = .ok l s1 → ∃ t, exec (.decldLoadDone c) s = .next t ∧
        (t.core c).bank bk = ⟨k.as.gen + 1, e, tableWords 256 l⟩ ∧ (∀ n, n ≠ bk → (t.core c).bank n = k.bank n) ∧
        (t.core c).as.gen = k.as.gen + 1 ∧ (t.stream w).pc = S.pc + 4 ∧ (t.stream w).run = s.runNext w ∧
        (∀ n, (t.stream w).reg n = if n = d ∧ d ≠ 0 then BitVec.ofNat 64 (k.as.gen + 1) else S.reg n) ∧
        t.mem = s.mem ∧ (t.core c).tile = k.tile ∧ (∀ n, n ≠ c → t.core n = s.core n)) ∧
      (∀ cause tv, gather c owner segs s = .bad cause tv →
        exec (.decldLoadDone c) s = .next (takeTrap (dropReqs s owner) w cause (accTval false tv)))) ∧
    (Acts s w → Full s w [a, b] →
      (∀ i ∈ [Instr.ctxsv a b, .ctxld a b],
        (S.super = false → Traps i s w 0x03 (firstWord i)) ∧
        (S.super = true → (63 < x ∨ (s.ctx x).live = false) → Traps i s w 0x02 (opTval i false 7)) ∧
        (S.super = true → x ≤ 63 → (s.ctx x).live = true → A % 0x1000 ≠ 0 → Traps i s w 0x13 (accTval false A))) ∧
      (S.super = true → x ≤ 63 → (s.ctx x).live = true → A % 0x1000 = 0 → Straight s w 4 →
        let cs := (onDie s x (dieOf c)).flatMap Prod.snd
        let image := dieImage s x ((onDie s x (dieOf c)).map (fun p => p.1.record)) cs
        (∀ segs s1 s2, (∀ p ∈ onDie s x (dieOf c), mailClear s p.1 p.2 = true ∧ launchStops s p.1 (some c) = true ∧
            ∀ n ∈ p.2, (s.core n).inFlight = 0 ∧ canSave s ((s.lrec p.1.record).gauge && n != c) n = true) →
          openAccess s c (syncAcc .write 0x1000) (.va A) image.length = .ok (segs, s1) →
          storeSegs c (partsOf segs image (List.replicate image.length true)) s1 = some s2 → c ∉ cs →
          ∃ t new, exec (.ctxsv a b) s = .next t ∧ (∀ n ∈ cs, (t.core n).job = none) ∧
            t.lifelines = s.lifelines ++ new ∧ new.length = (onDie s x (dieOf c)).length ∧
            (∀ f ∈ new, f.ctx = x ∧ f.image = some image) ∧ (t.stream w).pc = S.pc + 4 ∧ t.mem = s2.mem) ∧
        (k.doneA = false → Waits (.ctxld a b) s w) ∧
        (∀ header s1 hc n jobs s2, k.doneA = true → ReadsAs s c A 0x1000 header s1 → headerOf s header = (hc, n) →
          ReadsAs s1 c (A + 0x1000) (n * 0x180000) jobs s2 →
          let image := header ++ jobs
          (versionsOk image n = false →
            exec (.ctxld a b) s = .next (takeTrap (dropReqs s owner) w 0x02 (opTval (.ctxld a b) false 13))) ∧
          (versionsOk image n = true → hc ≠ x →
            exec (.ctxld a b) s = .next (takeTrap (dropReqs s owner) w 0x02 (opTval (.ctxld a b) false 7))) ∧
          (∀ f, versionsOk image n = true → hc = x → imageJobs s2 x image = [f] →
            let place := shiftFor s2 (fun n => dieOf n == dieOf c && coreFits s2 (if s2.launches.any (fun l => l.record == f.launch.record)
              then [f.launch.record] else []) [] (s2.lrec f.launch.record).gauge n) f
            (place = none → Waits (.ctxld a b) s w) ∧
            (place = some ((0, 0), f.cores.map Prod.fst) → f.ctx = x → f.cores ≠ [] → (f.cores.map Prod.fst).Nodup →
              (∀ p ∈ f.cores, p.1 ≠ c ∧ p.1 < 512) →
              (∀ g ∈ s2.lifelines, g.launch.record = f.launch.record → g = f) →
              (∀ l ∈ s2.launches, l.record ≠ f.launch.record) →
              (∀ g ∈ unitsAmong 2 (f.cores.map Prod.fst) [], g ∈ f.launch.vaulted) →
              toChange s2 (s2.lrec f.launch.record).gauge (unitsAmong 2 (f.cores.map Prod.fst) []) = [] →
              ∃ t, exec (.ctxld a b) s = .next t ∧ f ∉ t.lifelines ∧ (t.stream w).pc = S.pc + 4 ∧
                (∃ l ∈ t.launches, l.record = f.launch.record ∧ l.wave = f.launch.wave) ∧ ∀ p ∈ f.cores,
                (t.core p.1).a = p.2.a ∧ (t.core p.1).x = p.2.x ∧ (t.core p.1).m = p.2.m ∧ (t.core p.1).tile = p.2.tile ∧
                (t.core p.1).ms = p.2.ms ∧ (t.core p.1).xs = p.2.xs ∧ (t.core p.1).ownM = p.2.ownM)))))

/-! ## Transfers (R242, R243, R261 to R278) -/

/-- The asynchronous forms start (R210, R242): their limits, and the transfer that stands in the lowest free slot with what the
form captured; without a free slot they wait. CPGO (R267), the page move (R270), CPGATH (R271, R272), CPSCAT (R273), the feeds
(R261 to R264), which the MRUN whose turn it is binds at once (R293), and DECQ (R276, R278), for which a queue without room raises 0x05 in
gauge mode and makes it wait in rib mode. The model's own choice in it: a transfer takes the lowest free slot (log 37), corners of its
limits (log 38), and the field of a bag's range fault (log 23). -/
def Obligations.TransfersStart : Prop :=
  ∀ (s : State) (w : Who) (c : ACtl) (slot : Nat) (d a : ABase) (b g e : Nat),
    AReady s w c (baseRegs d ++ baseRegs a ++ [b, g, e]) →
    let k := s.core w.core
    let B := (regOf s w b).toNat
    let np := (s.stream w).profile c.np
    let len := (levelOf k 0).count
    (∀ dty sty rnd mx kind, let i : Instr := .cpgo d a b dty sty rnd mx kind c;
      (B = 0 ∨ 2 ^ 20 < B ∨ B % unitLen dty sty mx ≠ 0 → Traps i s w 0x02 (opTval i false 7)) ∧
      (0 < B → B ≤ 2 ^ 20 → B % unitLen dty sty mx = 0 →
        (∀ n, a = .reg n → (regOf s w n).toNat % sideAlign sty (mx == 1) ≠ 0 →
          Traps i s w 0x13 (accTval false (regOf s w n).toNat)) ∧
        (∀ h, a = .handle h → handleSlot s w h = none → Traps i s w 0x15 (accTval false (32 + h))) ∧
        (∀ dst src, Captured s w a (sideAlign sty (mx == 1)) src → Captured s w d (sideAlign dty (mx == 2)) dst →
          (freeSlot k = none → Waits i s w) ∧
          (freeSlot k = some slot →
            StartsXfer i s w c slot rnd 0 (.cpgo dst src B dty sty rnd mx kind ((List.range 6).map (levelOf k))))))) ∧
    (∀ dr pg, d = .reg dr → a = .reg pg →
      let i : Instr := .cpgoPm dr pg c;
      let V := (regOf s w pg).toNat
      let u := countWalks k.ctx none [(V, 0)] s
      ((s.stream w).super = false → Traps i s w 0x03 (firstWord i)) ∧
      ((s.stream w).super = true → canonical V = true →
        (∀ cause, walk s k.ctx (V % 2 ^ 57) = .error cause → exec i s = .next (takeTrap u w cause (accTval false V))) ∧
        (∀ tr entry size old, walk s k.ctx (V % 2 ^ 57) = .ok tr →
          leafEntry s (V % 2 ^ 57) (s.ctx k.ctx).root [(0, 47, 10), (1, 36, 11), (2, 25, 11), (3, 14, 11)] =
            some (entry, size, old) →
          V % 2 ^ pageShift size = 0 → (regOf s w dr).toNat % 2 ^ 44 % 2 ^ pageShift size = 0 →
          (freeSlot k = none → Waits i s w) ∧
          (freeSlot k = some slot → ∃ t, exec i s = .next t ∧
            Started u t w c slot .rne 0 (.move (regOf s w pg) (regOf s w dr) size entry old) ∧
            (t.core w.core).q = k.q ∧ (t.core w.core).ms = k.ms)))) ∧
    (∀ op dty sty rnd kind dst src, Captured s w d (sideAlign dty false) dst →
      Captured s w a (sideAlign sty false) src → B % 4 = 0 →
      (let i : Instr := .cpgath d a b g op dty sty rnd kind c;
        (op ≠ 0 → poolTypes np sty = false → Traps i s w 0x02 (opTval i false 0)) ∧
        ((op ≠ 0 → poolTypes np sty = true ∧ (regOf s w g).toNat % 4 = 0) →
          (freeSlot k = none → Waits i s w) ∧
          (freeSlot k = some slot →
            StartsXfer i s w c slot rnd (opTval i true 19) (.gather dst src (.va (regOf s w b))
              (.va (if op = 0 then 0 else regOf s w g)) op dty sty rnd kind np len (levelOf k 0).src (levelOf k 0).dst
              (levelOf k 1).count)))) ∧
      (∀ add, let i : Instr := .cpscat d a b add dty sty rnd kind c;
        (add = true → poolTypes np sty = false → Traps i s w 0x02 (opTval i false 0)) ∧
        ((add = true → poolTypes np sty = true) →
          (freeSlot k = none → Waits i s w) ∧
          (freeSlot k = some slot →
            StartsXfer i s w c slot rnd 0 (.scatter dst src (.va (regOf s w b)) add dty sty rnd kind np len (levelOf k 0).src
              (levelOf k 0).dst (levelOf k 1).count))))) ∧
    (∀ ty rnd sk tx sc rows, let D := regOf s w e
      let n := (regOf s w g).toNat
      let id := k.ms.nextFeed
      let kf : Core := { k with ms := { k.ms with
        nextFeed := id + 1, feeds := k.ms.feeds ++ [⟨id, ty, field D 31 16, n, [], 0, none⟩] } }
      let starts (i : Instr) (r : Rnd) (op : XferOp) : Prop :=
        ((∀ m f, kf.binds = some (m, f) → m.rowTy = f.ty) → ∃ t, exec i s = .next t ∧ Started s t w c slot r 0 op ∧
          (t.core w.core).q = k.q ∧ (kf.binds = none → (t.core w.core).ms = kf.ms) ∧
          ∀ m f, kf.binds = some (m, f) → (t.core w.core).ms = { kf.ms with
            feeds := kf.ms.feeds.map (fun h => if h.id = f.id then { h with bound := some m.seq } else h) }) ∧
        (∀ m f, kf.binds = some (m, f) → m.rowTy ≠ f.ty → k.allEnded = false → ∃ t, exec i s = .next t ∧
          (t.core w.core).m = { k.m with
            late := k.m.late ++ [⟨0x02, BitVec.ofNat 64 (2 ^ 63 + 0x62 * 256 + m.cid * 16), none, some m.seq⟩] } ∧
          ((t.core w.core).xfer? slot).isSome = true ∧ (t.stream w).pc = s.pcOf w + 8)
      (let i : Instr := .rgath d b g e ty rnd sk tx sc c;
        (n = 0 ∨ 65536 < n → Traps i s w 0x02 (opTval i false 7)) ∧
        (0 < n → n ≤ 65536 → feedOk ty D false = false → Traps i s w 0x02 (opTval i true 19)) ∧
        (0 < n → n ≤ 65536 → feedOk ty D false = true → Captured s w d (sideAlign ty false) rows →
          B % (if sc then 8 else 4) = 0 →
          (freeSlot k = none → Waits i s w) ∧
          (freeSlot k = some slot →
            starts i rnd (.feed id rows (.va (regOf s w b)) true n (signedField (field D 63 32) 32) (field D 15 0) (field D 31 16)
              ty rnd sk tx sc)))) ∧
      (let i : Instr := .rstrm d g b e ty sk c;
        (n = 0 ∨ 65536 < n → Traps i s w 0x02 (opTval i false 13)) ∧
        (0 < n → n ≤ 65536 → feedOk ty D true = false → Traps i s w 0x02 (opTval i true 19)) ∧
        (0 < n → n ≤ 65536 → feedOk ty D true = true → Captured s w d (sideAlign ty false) rows →
          (freeSlot k = none → Waits i s w) ∧
          (freeSlot k = some slot →
            starts i .rne (.feed id rows (.va 0) false n (regOf s w b).toInt (field D 15 0) (field D 31 16) ty .rne sk false
              false))))) ∧
    (∀ q ty zr src, let i : Instr := .decq q d b g e ty zr c;
      let ratio := (regOf s w g).toNat
      let n := (regOf s w e).toNat
      (B = 0 ∨ 2 ^ 24 < B → Traps i s w 0x02 (opTval i false 13)) ∧
      (0 < B → B ≤ 2 ^ 24 → (ratio = 0 ∨ 1024 < ratio) → Traps i s w 0x02 (opTval i false 7)) ∧
      (0 < B → B ≤ 2 ^ 24 → 0 < ratio → ratio ≤ 1024 →
        (n = 0 ∨ 8 < n → Traps i s w 0x02 (opTval i true 19)) ∧
        (0 < n → n ≤ 8 → zr = false → k.as.gen = 0 → Traps i s w 0x31 0) ∧
        (0 < n → n ≤ 8 → (zr = true ∨ k.as.gen ≠ 0) →
          (8 < (k.qOf q).length + n →
            if (s.stream w).gauge then Traps i s w 0x05 (BitVec.ofNat 64 q) else Waits i s w) ∧
          ((k.qOf q).length + n ≤ 8 → Captured s w d 1 src →
            (freeSlot k = none → Waits i s w) ∧
            (freeSlot k = some slot →
              ∃ t ids, exec i s = .next t ∧ Started s t w c slot .rne 0 (.decode q ids src B ratio ty zr k.as.gen) ∧
                ids.length = n ∧ Reserved (k.qOf q) ((t.core w.core).qOf q) ids ∧
                (∀ m, m ≠ q → (t.core w.core).qOf m = k.qOf m) ∧ (t.core w.core).ms = k.ms)))))

/-- What becomes of a transfer (R210, R243, R261, R267): a copy of bytes moves each byte and nothing else; a transfer whose units
are all performed frees its slot, sets its flags and gives its tokens; a refused element suspends it, which then asks anew for what
was refused alone, and leaves a late cause; a row enters the port behind those before it. A transfer that may not move does nothing. The
model's own choice in it: elements are performed in the order of emission (log 37). -/
def Obligations.TransferEvents : Prop :=
  ∀ (s : State) (c slot : Nat) (x : Transfer), c < 512 → (s.core c).xfer? slot = some x →
    (mayMove s c x = false → exec (.transferCompletion c slot) s = .next s ∧
      exec (.transferElementFault c slot) s = .next s ∧ runTransfer s c slot 1 = s) ∧
    (mayMove s c x = true →
      (∀ D P m kind rnd ls n, x.op = .cpgo (.va D) (.va P) m .b8 .b8 rnd 0 kind ls → 0 < m → x.done < x.op.units → x.rest = [] →
        (∀ q ∈ s.requests, q.owner ≠ .xfer c slot) → s.mem.wf = true → n = x.done →
        ∀ g h s1 l s2 s3,
          openAccess s c (xferAcc .read 1) ((Addr.va P.toNat).plus ((runOffsets ls (n / m)).1 + (n % m : Nat))) 1 = .ok ([g], s1) →
          g.home = .local → g.len = 1 → gather c (.xfer c slot) [g] s1 = .ok l s2 → buffers s1 c g = false →
          openAccess s2 c (xferAcc .write 1) ((Addr.va D.toNat).plus ((runOffsets ls (n / m)).2 + (n % m : Nat))) 1 = .ok ([h], s3) →
          h.home = .local → h.len = 1 → buffers s3 c h = false → s3.mem.wf = true →
          let t := runTransfer s c slot 1
          readB t.mem h.addr = readB s1.mem g.addr ∧ (∀ y, y ≠ h.addr → readB t.mem y = readB s3.mem y) ∧
            (t.core c).xfer? slot = some { x with done := n + 1, sent := [] } ∧ ∀ d, d ≠ c → t.core d = s.core d) ∧
      (∀ s1 y, runUnits c slot x.stepsLeft s = .complete s1 → (s1.core c).xfer? slot = some y →
        (s1.core c).allEnded = false → overflows (s1.core c).a y.flags = false →
        let k := s1.core c
        ∃ t, exec (.transferCompletion c slot) s = .next t ∧
          (t.core c).as = { k.as with xfers := tdel k.as.xfers slot } ∧ (t.core c).xfer? slot = none ∧
          (t.core c).a = { k.a with qflags := k.a.qflags ||| y.flags } ∧
          (∀ n, (t.core c).token n = k.token n + (if n ∈ giveFifos .a y.give then 1 else 0)) ∧
          (∀ n, (t.core c).slots n = k.slots n - (if n ∈ giveFifos .a y.give then 1 else 0)) ∧
          t.mem = s1.mem ∧ (t.core c).tile = k.tile ∧ (t.core c).x = k.x ∧ (t.core c).m = k.m) ∧
      (∀ s1 y cause v, x.op.isFeed = false → runUnits c slot x.stepsLeft s = .refused s1 cause v →
        (s1.core c).xfer? slot = some y → (s1.core c).allEnded = false →
        exec (.transferElementFault c slot) s = .next (addLate (dropAnswered (putXfer (dropAt s1 c cause v y.op) c slot
          { y with suspended := true, rest := y.rest ++ nackedPieces s1 (.xfer c slot) y.sent, sent := [] }) (.xfer c slot)) ⟨c, .a⟩
          ⟨cause, v, some slot, none⟩)) ∧
      (∀ cause v, x.op.isFeed = true → feedFault s c slot x (List.range x.op.units) = some (cause, v) →
        (s.core c).allEnded = false →
        ∃ t, exec (.transferElementFault c slot) s = .next t ∧ t.mem = s.mem ∧
          (∃ y, (t.core c).xfer? slot = some { x with suspended := true, rest := y, sent := [] }) ∧
          (t.core c).a = { (s.core c).a with late := (s.core c).a.late ++ [⟨cause, v, some slot, none⟩] } ∧
          (t.core c).ms = (s.core c).ms)) ∧
    (∀ seq r fl s1, mayEnter s c x seq = true → inSOOrder s c slot x seq = true → feedRow s c slot seq x.dph x.op = .row r fl s1 →
      ∃ t, exec (.rowPortEntry c slot seq) s = .next t ∧
        (t.core c).ms = { (s.core c).ms with port := (s.core c).ms.port ++ [r] } ∧
        (∃ f, (t.core c).xfer? slot =
          some { x with entered := seq :: x.entered, done := x.done + 1, flags := x.flags ||| fl, fan := f }) ∧
        t.mem = s1.mem ∧ (t.core c).a = (s.core c).a ∧ (t.core c).tile = (s.core c).tile ∧ ∀ d, d ≠ c → t.core d = s.core d)

/-! ## The tensor directory and launch records (R390 to R412) -/

/-- OPEN, CLOSE, BIND and REBIND at issue (R397 to R400): what refuses them, what they wait for, and the act that they stand at; a
directory that refuses a descriptor answers by the status of the act. CLOSE waits for what is based on its handle. The model's own
choice in it: the order of statuses and faults (log 49), and CLOSE stands until the commit of stores based on its handle that a quantum
buffers (log 44). -/
def Obligations.DirectoryForms : Prop :=
  ∀ (s : State) (w : Who) (h d a b : Nat) (wait : Bool), Acts s w → w.eng = .a → Full s w [a, b] →
    let S := s.stream w
    let k := s.core w.core
    let c := w.core
    let owner : Owner := .instr c .a
    let name := regOf s w a
    ((handleSlot s w h).isSome = true → Traps (.openH h a d wait) s w 0x02 (opTval (.openH h a d wait) false 19)) ∧
    (handleSlot s w h = none → S.full d = false → Waits (.openH h a d wait) s w) ∧
    (handleSlot s w h = none → S.full d = true →
      exec (.openH h a d wait) s = .next (s.standsAt w (.dirOpen h name d wait))) ∧
    (handleSlot s w h = none → Traps (.closeH h) s w 0x15 (accTval false (32 + h))) ∧
    (∀ slot, handleSlot s w h = some slot →
      let based (gs : List Seg) : Prop := ∃ g ∈ gs, g.slot = some slot
      ((∃ p ∈ k.a.pend, based p.op.segs) ∨ (∃ p ∈ k.as.xfers, p.2.op.usesSlot slot = true) → Waits (.closeH h) s w) ∧
      ((∀ p ∈ k.a.pend, ¬ based p.op.segs) → (∀ p ∈ k.as.xfers, p.2.op.usesSlot slot = false) →
        (based (k.det.writes.map DetWrite.seg) → exec (.closeH h) s = .next (s.standsAt w .committing)) ∧
        (¬ based (k.det.writes.map DetWrite.seg) → exec (.closeH h) s = .next (s.standsAt w (.dirClose h))))) ∧
    ((s.ctx k.ctx).binder = false → ∀ i ∈ [Instr.bind d a b, .rebind d a b], Traps i s w 0x03 (firstWord i)) ∧
    ((s.ctx k.ctx).binder = true →
      let n := (regOf s w b).toNat
      (n = 0 ∨ 16 < n → Traps (.rebind d a b) s w 0x02 (opTval (.rebind d a b) false 7)) ∧
      (k.doneA = false ∨ k.as.xfers ≠ [] → Waits (.bind d a b) s w ∧ (0 < n → n ≤ 16 → Waits (.rebind d a b) s w)) ∧
      (k.doneA = true → k.as.xfers = [] →
        (∀ l s2, ReadsAs s c (regOf s w b).toNat 48 l s2 →
          let s3 := dropReqs (walkedExtent s2 c l) owner
          (∀ o, makeObj s2 c l = .obj o → exec (.bind d a b) s = .next (s3.standsAt w (.dirBind d name (some o) 0))) ∧
          (∀ st, makeObj s2 c l = .status st → exec (.bind d a b) s = .next (s3.standsAt w (.dirBind d name none st))) ∧
          (∀ cause addr, makeObj s2 c l = .fault cause addr →
            exec (.bind d a b) s = .next (takeTrap (dropReqs (walkedExtent s c l) owner) w cause (accTval false addr)))) ∧
        (∀ l s2, 0 < n → n ≤ 16 → ReadsAs s c (regOf s w a).toNat (16 * n) l s2 →
          ((∀ p ∈ pairsOf l n, p.2 = 0) → ((pairsOf l n).map Prod.fst).Nodup →
            exec (.rebind d a b) s = .next ((dropReqs s2 owner).standsAt w
              (.dirRebind d ((pairsOf l n).map (fun p => (p.1, 0, none)))))) ∧
          (∀ nm addr l2 s3 o, n = 1 → pairsOf l n = [(nm, addr)] → addr ≠ 0 → ReadsAs s2 c addr 48 l2 s3 → l2 ≠ [] →
            makeObj s3 c l2 = .obj o →
            exec (.rebind d a b) s =
              .next ((dropReqs (walkedExtent s3 c l2) owner).standsAt w (.dirRebind d [(nm, 1, some o)]))))))

/-- DIRECTORY_ACT (R393 to R400): the act of the form that the A stream stands at: statuses, the lowest free handle slot, counts on
objects, the names that are bound and unbound, the objects that are reclaimed, and 0x4A where the directory has no entry left.
The model's own choice in it: the order of statuses (log 49), and how a waiting OPEN wakes (log 50). -/
def Obligations.DirectoryActs : Prop :=
  ∀ (s : State) (w : Who) (h d : Nat) (name : Word), w.eng = .a → w.core < 512 → s.still w.core = false → Straight s w 4 →
    let S := s.stream w
    let k := s.core w.core
    let x := s.ctx k.ctx
    let i : Instr := .directoryAct w.core
    let answers (st : Nat) : Prop := ∃ t, exec i s = .next t ∧ Wrote s t w d (BitVec.ofNat 64 st) (S.pc + 4) 0 S.dph
    (∀ wait, S.at_ = .dirOpen h name d wait → S.full d = true →
      (∀ id slot o, s.bound? name = some id → tfind s.objs id = some o →
        (List.range 512).find? (fun n => (tfind x.handles n).isNone) = some slot →
        ∃ t, exec i s = .next t ∧ tfind (t.core w.core).as.h h = some slot ∧
          (∀ n, n ≠ h → tfind (t.core w.core).as.h n = tfind k.as.h n) ∧
          t.ctx k.ctx = { x with handles := tset x.handles slot id } ∧
          tfind t.objs id = some { o with count := o.count + 1 } ∧ (∀ n, n ≠ id → tfind t.objs n = tfind s.objs n) ∧
          (t.stream w).reg d = 0 ∧ (∀ n, n ≠ d → (t.stream w).reg n = S.reg n) ∧ (t.stream w).pc = S.pc + 4 ∧
          t.mem = s.mem ∧ t.entries = s.entries) ∧
      ((s.bound? name).isSome = true → (∀ n < 512, (tfind x.handles n).isSome = true) → answers 2) ∧
      (s.bound? name = none → wait = false → answers 1) ∧
      (s.bound? name = none → wait = true → s.entry? name = none → 65536 ≤ s.entries.length →
        exec i s = .next (takeTrap s w 0x4A 0)) ∧
      (s.bound? name = none → wait = true → s.entry? name = none → s.entries.length < 65536 →
        exec i s = .next (({ s with entries := s.entries ++ [⟨name, none, [w.core]⟩] } : State).setStream w
          { S with run := .descheduled, at_ := .awaiting name }))) ∧
    (∀ slot id o, S.at_ = .dirClose h → tfind k.as.h h = some slot → tfind x.handles slot = some id → tfind s.objs id = some o →
      ∃ t, exec i s = .next t ∧ tfind (t.core w.core).as.h h = none ∧ tfind (t.ctx k.ctx).handles slot = none ∧
        (t.stream w).pc = S.pc + 4 ∧ (t.stream w).regs = S.regs ∧
        (o.bound = true ∨ 2 ≤ o.count → tfind t.objs id = some { o with count := o.count - 1 } ∧ t.mem = s.mem) ∧
        (o.bound = false → o.count = 1 → tfind t.objs id = none)) ∧
    (∀ obj st, S.at_ = .dirBind d name obj st → S.full d = true →
      ((s.bound? name).isSome = true → answers 3) ∧
      (s.bound? name = none → obj = none → answers st) ∧
      (∀ o, s.bound? name = none → obj = some o → s.entry? name = none → 65536 ≤ s.entries.length →
        exec i s = .next (takeTrap s w 0x4A 0)) ∧
      (∀ o, s.bound? name = none → obj = some o → s.entry? name = none → s.entries.length < 65536 →
        ∃ t, exec i s = .next t ∧ t.entries = s.entries ++ [⟨name, some s.nextObj, []⟩] ∧
          tfind t.objs s.nextObj = some ⟨o, name, true, 0, (k.ctx, x.gen)⟩ ∧ t.nextObj = s.nextObj + 1 ∧
          Wrote s { t with entries := s.entries, objs := s.objs, nextObj := s.nextObj } w d 0 (S.pc + 4) 0 S.dph)) ∧
    (∀ pairs, S.at_ = .dirRebind d pairs → S.full d = true →
      (∀ st, rebindStatus s 0 pairs = some st → answers st) ∧
      (∀ id o, pairs = [(name, 0, none)] → s.bound? name = some id → tfind s.objs id = some o → s.entries.length ≤ 65536 →
        ∃ t, exec i s = .next t ∧ t.entries = s.entries.filter (fun e => e.name != name) ∧ (t.stream w).reg d = 0 ∧
          (t.stream w).pc = S.pc + 4 ∧
          tfind t.objs id = (if o.count = 0 then none else some { o with bound := false })) ∧
      (∀ id o old, pairs = [(name, 1, some o)] → s.bound? name = some id → tfind s.objs id = some old → id ≠ s.nextObj →
        s.entries.length ≤ 65536 →
        ∃ t, exec i s = .next t ∧ (t.bound? name = some s.nextObj) ∧ tfind t.objs s.nextObj = some ⟨o, name, true, 0, (k.ctx, x.gen)⟩ ∧
          tfind t.objs id = (if old.count = 0 then none else some { old with bound := false }) ∧ (t.stream w).reg d = 0 ∧
          (t.stream w).pc = S.pc + 4))

/-- LPATCH, LARM and their acts (R410 to R412): the refused numbers, what LARM waits for, the 0x11 of another context's record or
of a dword that its mask shuts, the 0x38 of an armed record, the 0x39 with the offending dword, the patch of exactly the named
bits, and the statuses of LARM. The model's own choice in it: which dword LARM names where a record breaks a rule of more than
one (log 51). -/
def Obligations.LaunchRecordForms : Prop :=
  ∀ (s : State) (w : Who) (d a b f n : Nat), w.eng = .a →
    let S := s.stream w
    let k := s.core w.core
    let r := s.lrec n
    let A := (regOf s w a).toNat
    (Acts s w → Full s w [a, b] →
      (4095 < A → Traps (.lpatch a b f) s w 0x02 (opTval (.lpatch a b f) false 13) ∧
        Traps (.larm d a) s w 0x02 (opTval (.larm d a) false 13)) ∧
      (A ≤ 4095 → exec (.lpatch a b f) s = .next (s.standsAt w (.recPatch A f (regOf s w b)))) ∧
      (A ≤ 4095 → k.doneA = true → k.as.xfers = [] → exec (.larm d a) s = .next (s.standsAt w (.recArm d A))) ∧
      (A ≤ 4095 → (k.doneA = false ∨ k.as.xfers ≠ []) → Waits (.larm d a) s w)) ∧
    (w.core < 512 → s.still w.core = false → Straight s w 4 →
      let i : Instr := .launchRecordAct w.core
      (∀ value, S.at_ = .recPatch n f value → f < 96 →
        let j := f % 32
        (r.ctx ≠ k.ctx ∨ r.built = false → exec i s = .next (takeTrap s w 0x11 (BitVec.ofNat 64 n))) ∧
        (r.ctx = k.ctx → r.built = true →
          (j = 0 ∨ j = 14 ∨ (r.d 0).getLsbD (32 + j) = false →
            exec i s = .next (takeTrap s w 0x11 (BitVec.ofNat 64 (n + j * 2 ^ 16)))) ∧
          (j ≠ 0 → j ≠ 14 → (r.d 0).getLsbD (32 + j) = true →
            (r.armed = true → exec i s = .next (takeTrap s w 0x38 (BitVec.ofNat 64 (n + j * 2 ^ 16)))) ∧
            (r.armed = false → ∃ t, exec i s = .next t ∧ (∀ m, m ≠ j → (t.lrec n).d m = r.d m) ∧
              (∀ m < 64, ((t.lrec n).d j).getLsbD m =
                if f < 32 then value.getLsbD m
                else if f < 64 then (if m < 32 then value.getLsbD m else (r.d j).getLsbD m)
                else (if m < 32 then (r.d j).getLsbD m else value.getLsbD (m - 32))) ∧
              (∀ m, m ≠ n → t.lrec m = s.lrec m) ∧ t.stream w = { S with pc := S.pc + 4, run := s.runNext w, at_ := .free } ∧
              t.mem = s.mem)))) ∧
      (S.at_ = .recArm d n → S.full d = true →
        (r.ctx ≠ k.ctx → exec i s = .next (takeTrap s w 0x11 (BitVec.ofNat 64 n))) ∧
        (r.ctx = k.ctx → r.armed = true →
          ∃ t, exec i s = .next t ∧ Wrote s t w d 2 (S.pc + 4) 0 S.dph) ∧
        (∀ j, r.ctx = k.ctx → r.armed = false → recordBad s n r = some j →
          exec i s = .next (takeTrap s w 0x39 (BitVec.ofNat 64 (n + j * 2 ^ 16)))) ∧
        (r.ctx = k.ctx → r.armed = false → recordBad s n r = none →
          (r.gauge = true → admits s r = false → ∃ t, exec i s = .next t ∧ Wrote s t w d 1 (S.pc + 4) 0 S.dph) ∧
          ((r.gauge = true → admits s r = true) → ∃ t, exec i s = .next t ∧ (t.lrec n).armed = true ∧
            (t.lrec n).arms = (r.arms + 1) % 2 ^ 32 ∧ (t.lrec n).completions = r.completions ∧ (t.lrec n).order = s.arms ∧
            (t.lrec n).ctx = r.ctx ∧ (∀ m, m ≠ n → t.lrec m = s.lrec m) ∧
            Wrote s { t with recs := s.recs, arms := s.arms } w d 0 (S.pc + 4) 0 S.dph))))

/-! ## The matrix engine (R284 to R307) -/

/-- The forms of M at issue: MQRY's snapshot (R306), MSKIP and its cancelling form (R307), and the entry of each command with the
values that R287 and its own rule check (R300 to R305); a value out of range raises 0x02 with the field, and a full window makes
the stream wait before any of it is looked at. MSKIP ends with the binding of a feed where an MRUN's turn has come (R293). The model's
own choice in it: which register a range fault names (log 47), the profile that an MRUN resolves (log 46) and MSKIP before a
retirement (log 45). -/
def Obligations.MatrixCommands : Prop :=
  ∀ (s : State) (w : Who) (d id a acc wb ka kb kc e : Nat) (ty : Ty) (c : MCtl), w.eng = .m →
    let k := s.core w.core
    let A := kreg s w ka
    let B := kreg s w kb
    let C := kreg s w kc
    let next := s.pcOf w + 4
    (CanRun s w [d] 4 →
      (k.cmdOf id = none → WritesReg (.mqry d id) s w d 0) ∧
      (∀ cm, k.cmdOf id = some cm → ∃ v, WritesReg (.mqry d id) s w d v ∧ v.toNat / 2 ^ 48 % 8 = cm.state.code ∧
        (cm.op.isRun = true → v.toNat % 2 ^ 24 = cm.received % 2 ^ 24 ∧ v.toNat / 2 ^ 24 % 2 ^ 24 = cm.absent % 2 ^ 24) ∧
        (cm.op.isRun = false → v.toNat % 2 ^ 48 = 0) ∧
        v.getLsbD 52 = cm.seen.contains 0x20 ∧ v.getLsbD 53 = cm.seen.contains 0x21 ∧
        v.getLsbD 54 = cm.seen.contains 0x24 ∧ v.getLsbD 55 = cm.seen.contains 0x23)) ∧
    (CanRun s w [a] 4 →
      let u := (regOf s w a).toNat
      let found := youngest (k.allCmds.filter (fun c => c.cid == id && c.op.isRun))
      (65535 < u → Traps (.mskip id a) s w 0x02 (opTval (.mskip id a) false 13)) ∧
      (u ≤ 65535 → (∀ cm, found = some cm → cm.state = .retired ∨ cm.state = .cancelled) →
        exec (.mskip id a) s = .next (s.goTo w next)) ∧
      (∀ cm x b base mode t np m h, u ≤ 65535 → found = some cm → cm.state ≠ .retired → cm.state ≠ .cancelled →
        cm.op = .run x b m base mode t np h →
        let r := (u + 65536 - base) % 65536
        (256 ≤ r → Traps (.mskip id a) s w 0x02 (opTval (.mskip id a) false 13)) ∧
        (r < 256 → (u ∈ cm.skipped ∨ (mode = .p ∧ r ∈ cm.placed)) → exec (.mskip id a) s = .next (s.goTo w next)) ∧
        (r < 256 → u ∉ cm.skipped → ¬ (mode = .p ∧ r ∈ cm.placed) →
          (cm.state ≠ .issued ∨ cm.received + cm.absent + 1 < m) → FeedsFit k →
          exec (.mskip id a) s = .next (s.coreGoes w (k.setCmd { cm with
            skipped := u :: cm.skipped, absent := cm.absent + 1 }).bound)))) ∧
    (CanRun s w [] 4 →
      ((∀ cm, k.cmdOf id = some cm → cm.state ≠ .suspended) → exec (.mskipCx id) s = .next (s.goTo w next)) ∧
      (∀ cm, k.cmdOf id = some cm → cm.state = .suspended → FeedsFit k →
        ∃ t, exec (.mskipCx id) s = .next t ∧ OnlyCore w.core s t ∧
          (t.core w.core).ms = ({ k with ms := { k.ms with
            window := k.ms.window.filter (fun x => x.seq != cm.seq),
            records := k.ms.records ++ [{ cm with state := .cancelled }] } } : Core).bound.ms ∧
          (∀ n, (t.core w.core).token n = k.token n + (if n ∈ giveFifos .m cm.give then 1 else 0)) ∧
          (∀ n, (t.core w.core).slots n = k.slots n - (if n ∈ giveFifos .m cm.give then 1 else 0)) ∧
          t.stream w = { s.stream w with pc := next, run := s.runNext w, at_ := .free })) ∧
    (MReady s w c [ka, kb, kc] →
      (let i : Instr := .mwld wb ka kb kc ty c;
        (127 < A → Traps i s w 0x02 (opTval i false 17)) ∧
        (A ≤ 127 → (B = 0 ∨ 64 < B) → Traps i s w 0x02 (opTval i false 13)) ∧
        (A ≤ 127 → 0 < B → B ≤ 64 → (C = 0 ∨ 64 < C) → Traps i s w 0x02 (opTval i true 21)) ∧
        (A ≤ 127 → 0 < B → B ≤ 64 → 0 < C → C ≤ 64 → (ty = .k4 → C % 32 = 0) → 4096 * A + B * rowLen ty C ≤ 0x80000 →
          Enters i s w c .rne (.wld wb A B C ty))) ∧
      (let i : Instr := .mwlds wb ka kb kc e ty c;
        (A ≤ 127 → (B % 8 ≠ 0 ∨ B < 8 ∨ 128 < B) → Traps i s w 0x02 (opTval i false 13)) ∧
        (A ≤ 127 → B % 8 = 0 → 8 ≤ B → B ≤ 128 → 0 < C → C ≤ 64 → 4096 * A + C * (B / 2) * ty.width ≤ 0x80000 →
          Enters i s w c .rne (.wlds wb A B C e ty))) ∧
      (∀ mode cm, let i : Instr := .mrun acc wb ka kb mode ty cm c;
        (2 ^ 24 ≤ A → Traps i s w 0x02 (opTval i false 17)) ∧
        (A < 2 ^ 24 → 65536 ≤ B → Traps i s w 0x02 (opTval i false 13)) ∧
        (A < 2 ^ 24 → B < 65536 → Enters i s w c .rne (.run acc wb A B mode ty ((s.stream w).profile c.np) cm))) ∧
      (let i : Instr := .manch acc ka kb kc none c;
        let v := (regOf s w kc).toInt
        (B = 0 → Traps i s w 0x02 (opTval i false 13)) ∧
        (0 < B → 256 < A + B → Traps i s w 0x02 (opTval i false 17)) ∧
        (0 < B → A + B ≤ 256 → (v < -512 ∨ 511 < v) → Traps i s w 0x02 (opTval i true 21)) ∧
        (0 < B → A + B ≤ 256 → -512 ≤ v → v ≤ 511 → Enters i s w c .rne (.anch acc A B v))) ∧
      (∀ kd, Full s w [kd] → let i : Instr := .manch acc ka kb kc (some kd) c;
        let m := kreg s w kd
        (0 < B → A + B ≤ 256 → (m = 0 ∨ 64 < m ∨ 0x80000 < C + 17 * m) → Traps i s w 0x02 (opTval i false 21)) ∧
        (0 < B → A + B ≤ 256 → 0 < m → m ≤ 64 → C + 17 * m ≤ 0x80000 → Enters i s w c .rne (.anch4 acc A B C m))) ∧
      Enters (.mzero acc ty c) s w c .rne (.zero acc ty) ∧
      (∀ rnd sat clr kind, let i : Instr := .mdrn acc ka kb kc ty rnd sat clr kind c;
        (0 < B → A + B ≤ 256 → C % 64 ≠ 0 → Traps i s w 0x13 (accTval false C)) ∧
        (0 < B → A + B ≤ 256 → C % 64 = 0 → C + B * rowLen ty 64 ≤ 0x80000 →
          Enters i s w c rnd (.drn acc A B C ty rnd sat clr kind)))) ∧
    (Acts s w → 16 ≤ k.ms.window.length → Waits (.mzero acc ty c) s w ∧ Waits (.mwld wb ka kb kc ty c) s w ∧
        Waits (.mwlds wb ka kb kc e ty c) s w ∧ (∀ mode cm, Waits (.mrun acc wb ka kb mode ty cm c) s w) ∧
        (∀ kd, Waits (.manch acc ka kb kc kd c) s w) ∧
        ∀ rnd sat clr kind, Waits (.mdrn acc ka kb kc ty rnd sat clr kind c) s w)

/-- The events of M: the issue of the oldest qualifying command (R288, R289, R302), with the binding of the next feed and the 0x02 of a
feed of another type (R293), the passage of a row by the cases of R294 (R297), the write of its result to one accumulator row, column by
column (R90, R295, R296), and the end of a command, of an MWLD or MWLDS with the weights it places (R291, R300, R301, R303 to R305).
The model's own choice in it: when an MRUN retires (log 45) and np2 admission (log 46). -/
def Obligations.MatrixEvents : Prop :=
  ∀ (s : State) (c n : Nat) (cm : Cmd), c < 512 → s.still c = false → (s.core c).allEnded = false →
    let k := s.core c
    let others (t : State) : Prop := (∀ d, d ≠ c → t.core d = s.core d) ∧ t.mem = s.mem ∧ (t.core c).a = k.a ∧
      (t.core c).x = k.x ∧ (t.core c).q = k.q ∧ (t.core c).w = k.w ∧ (t.core c).mbox = k.mbox
    (recheck k = none → oldestFit k [] k.ms.window = some cm →
      ((match cm.op with | .run .. | .wlds .. => False | _ => True) →
        ∃ t, exec (.commandIssue c) s = .next t ∧
          (t.core c).ms.window = inPlace { cm with state := .issued, checked := true } k.ms.window ∧
          (∀ m, (t.core c).token m = k.token m - (if m ∈ takeFifos .m cm.take then 1 else 0)) ∧
          (∀ b tl r q y, cm.op = .wld b tl r q y → tfind (t.core c).ms.wb b = none) ∧
          (t.core c).ms.acc = k.ms.acc ∧ (t.core c).m = k.m ∧ (t.core c).tile = k.tile ∧ others t) ∧
      (∀ acc wb m base mode ty np h, cm.op = .run acc wb m base mode ty np h → cm.received + cm.absent < m →
        (runRefused k cm.seq acc wb mode ty np = none →
          let mask := match cm.colmask, h with
            | none, some j => some ((tget k.ms.e j 0).toNat % 2 ^ 64)
            | x, _ => x
          (FeedsFit k → ∃ t, exec (.commandIssue c) s = .next t ∧
            (t.core c).ms.window = inPlace { cm with state := .issued, checked := true, colmask := mask } k.ms.window ∧
            (∀ f, nextRun k = some cm → (∀ g ∈ k.ms.feeds, g.bound ≠ some cm.seq) →
              k.ms.feeds.find? (fun g => g.bound.isNone) = some f →
              (t.core c).ms.feeds = k.ms.feeds.map (fun g => if g.id = f.id then { g with bound := some cm.seq } else g)) ∧
            (t.core c).ms.acc = k.ms.acc ∧ (t.core c).m = k.m ∧ (t.core c).tile = k.tile ∧ others t) ∧
          (∀ f, nextRun k = some cm → (∀ g ∈ k.ms.feeds, g.bound ≠ some cm.seq) →
            k.ms.feeds.find? (fun g => g.bound.isNone) = some f → ty ≠ f.ty → ∃ t, exec (.commandIssue c) s = .next t ∧
              (t.core c).ms.window = inPlace { cm with state := .suspended, checked := false, colmask := mask } k.ms.window ∧
              (t.core c).ms.port = k.ms.port ∧ (t.core c).ms.acc = k.ms.acc ∧
              (t.core c).m = { k.m with late := k.m.late ++ [⟨0x02, cmdTval cm 0 0, none, some cm.seq⟩] } ∧ others t)) ∧
        (∀ cause, runRefused k cm.seq acc wb mode ty np = some cause →
          ∃ t, exec (.commandIssue c) s = .next t ∧
            (t.core c).ms.window = inPlace { cm with state := .suspended, checked := false } k.ms.window ∧
            (t.core c).m = { k.m with late := k.m.late ++ [⟨cause, cmdTval cm 0 0, none, some cm.seq⟩] } ∧
            (t.core c).ms.acc = k.ms.acc ∧ (t.core c).tile = k.tile ∧ others t))) ∧
    (recheck k = none → oldestFit k [] k.ms.window = none → exec (.commandIssue c) s = .next s) ∧
    (∀ r f acc wb m base mode ty np h, k.binds = none → FeedsFit k → k.portHead = some (r, f, cm) →
      cm.op = .run acc wb m base mode ty np h → cm.state = .issued →
      let x := (r.tag + 65536 - base % 65536) % 65536
      (r.data ≠ none → cm.received + cm.absent < m → r.tag ∉ cm.skipped → x < 256 → ¬ (mode = .p ∧ x ∈ cm.placed) →
        ∃ t, exec (.rowPassageBegin c) s = .next t ∧ (t.core c).ms.port = k.ms.port.drop 1 ∧
          (t.core c).ms.array = k.ms.array ++ [⟨r, cm.seq, cm.op, tget k.ms.wb wb ⟨.bf16, 0, 0, false, [], []⟩,
            cm.colmask.getD (2 ^ 64 - 1), some x, decide (m ≤ cm.received + cm.absent + 1)⟩] ∧
          (t.core c).ms.window = inPlace { cm with
            received := cm.received + 1, placed := if mode = .p then x :: cm.placed else cm.placed } k.ms.window ∧
          (t.core c).ms.acc = k.ms.acc ∧ (t.core c).m = k.m ∧ (t.core c).tile = k.tile ∧ others t) ∧
      (r.data = none → cm.received + cm.absent + 1 < m → x < 256 → ¬ (mode = .p ∧ x ∈ cm.placed) →
        ∃ t, exec (.rowPassageBegin c) s = .next t ∧ (t.core c).ms.port = k.ms.port.drop 1 ∧
          (t.core c).ms.array = k.ms.array ∧
          (t.core c).ms.window = inPlace { cm with
            absent := cm.absent + 1, placed := if mode = .p then x :: cm.placed else cm.placed } k.ms.window ∧
          (t.core c).ms.acc = k.ms.acc ∧ (t.core c).m = k.m ∧ (t.core c).tile = k.tile ∧ others t) ∧
      (∀ (cause : Nat) (d : Cmd),
        (m ≤ cm.received + cm.absent ∧ (∃ p ∈ k.ms.array, p.cmd = cm.seq ∧ p.last = true) ∧ cause = 0x24 ∧ d = cm) ∨
        (cm.received + cm.absent + 1 < m ∧ (
          (r.data = none ∧ 256 ≤ x ∧ cause = 0x21 ∧ d = { cm with absent := cm.absent + 1 }) ∨
          (r.data ≠ none ∧ r.tag ∈ cm.skipped ∧ cause = 0x24 ∧ d = cm) ∨
          (r.data ≠ none ∧ r.tag ∉ cm.skipped ∧ 256 ≤ x ∧ cause = 0x21 ∧ d = { cm with received := cm.received + 1 }) ∨
          (r.data ≠ none ∧ r.tag ∉ cm.skipped ∧ x < 256 ∧ mode = .p ∧ x ∈ cm.placed ∧ cause = 0x20 ∧
            d = { cm with received := cm.received + 1 }))) →
        ∃ t, exec (.rowPassageBegin c) s = .next t ∧ (t.core c).ms.port = k.ms.port.drop 1 ∧
          (t.core c).ms.array = k.ms.array ∧
          (t.core c).ms.window = inPlace { d with
            seen := if cause ∈ cm.seen then cm.seen else cause :: cm.seen } k.ms.window ∧
          (t.core c).m = { k.m with
            late := k.m.late ++ (if cause ∈ cm.seen then [] else [⟨cause, cmdTval cm r.tag r.seq, none, none⟩]) } ∧
          (t.core c).ms.acc = k.ms.acc ∧ (t.core c).tile = k.tile ∧ others t)) ∧
    (∀ j p r acc wb m base mode ty np h, firstWritable k 0 [] k.ms.array = some (j, p) → p.lost k = false →
      p.target = some r → p.op = .run acc wb m base mode ty np h →
      let old := (k.accTile acc).row r
      let res := applyRow (k.accTile acc).fmt old p.b mode p.colmask p.row.scale (p.row.data.getD [])
      ∃ t, exec (.rowResultWrite c) s = .next t ∧ (t.core c).ms.array = ldel k.ms.array j ∧
        ((t.core c).accTile acc).row r = res.1 ∧ (∀ y, y ≠ r → ((t.core c).accTile acc).row y = (k.accTile acc).row y) ∧
        (∀ y, y ≠ acc → (t.core c).accTile y = k.accTile y) ∧ (t.core c).ms.wb = k.ms.wb ∧ (t.core c).tile = k.tile ∧
        others t) ∧
    (∀ (fmt : AccFmt) (old : AccRow) (b : WBuf) (mode : MMode) (mask scale : Nat) (xs : List Sys2Proof.Num) (n : Nat), n < 64 →
      let res := (applyRow fmt old b mode mask scale xs).1
      let pairs := columnPairs b xs n
      let zero : Sys2Proof.Num := .fin false 0 0
      let sigma := fmtBf16.decode scale
      let kept := ((List.range b.k).filter (fun p => (tget b.masks (n * 16 + p / 8) 0).testBit (p % 8) && decide (p < xs.length)))
      -- the products that a column reads
      (b.n ≤ n → pairs = []) ∧
      (n < b.n → b.sparse = false → pairs = (List.range (min xs.length b.k)).map (fun j => (xs.getD j zero, tget b.w (j * 64 + n) zero))) ∧
      (n < b.n → b.sparse = true → ∀ j, pairs[j]? = kept[j]?.map (fun q => (xs.getD q zero, tget b.w (j * 64 + n) zero))) ∧
      -- a column that the mask leaves out, and the sums of the three formats
      (mask.testBit n = false → res.el n = old.el n ∧ tget res.cells n AncCell.zero = tget old.cells n AncCell.zero) ∧
      (mask.testBit n = true →
        (fmt = .s32 → (res.el n : Int) = ((pairs.map (fun p => poolElem.intVal p.1 * poolElem.intVal p.2)).sum +
          (if mode = .p then 0 else (old.el n : Int))) % (2 ^ 32 : Nat)) ∧
        (fmt = .f32 →
          let d := dotNp12 pairs
          let x := fmtF32.decode (old.el n)
          let y : NumF := match mode with
            | .p => d
            | .a => addRne (NumF.pure x) d
            | .s => ⟨(roundNum fmtF32 rmRne (Sys2Proof.Num.fma false sigma d.val x)).val, 0⟩
          res.el n = (f32Out y).1 % 2 ^ 32) ∧
        (fmt = .anc → tget res.cells n AncCell.zero = (ancColumn old.anchor (if mode = .s then some sigma else none)
          (if mode = .p then AncCell.zero else tget old.cells n AncCell.zero) pairs).1))) ∧
    (∀ k1 fl, k.ms.window[n]? = some cm → cm.op.isRun = false → cm.state = .issued → cm.checked = true →
      actOf s c cm = .done k1 fl → overflows k.m fl = false →
      (∃ t, exec (.commandRetire c n) s = .next t ∧
        (t.core c).ms = { k1.ms with
          window := k.ms.window.filter (fun x => x.seq != cm.seq),
          records := k.ms.records ++ [{ cm with state := .retired, flags := fl }] } ∧
        (∀ m, (t.core c).token m = k.token m + (if m ∈ giveFifos .m cm.give then 1 else 0)) ∧
        (∀ m, (t.core c).slots m = k.slots m - (if m ∈ giveFifos .m cm.give then 1 else 0)) ∧
        (t.core c).m = { k.m with qflags := k.m.qflags ||| fl } ∧ (t.core c).tile = k1.tile ∧ others t) ∧
      (∀ wb tile kk n ty, cm.op = .wld wb tile kk n ty → n ≤ 64 → (ty = .k4 → n % 32 = 0) → fl = 0 ∧ k1.tile = k.tile ∧
        k1.ms.acc = k.ms.acc ∧ (∀ y, y ≠ wb → tfind k1.ms.wb y = tfind k.ms.wb y) ∧
        ∃ b, tfind k1.ms.wb wb = some b ∧ b.ty = ty ∧ b.k = kk ∧ b.n = n ∧ b.sparse = false ∧
          ∀ j < kk, (List.range n).map (fun i => tget b.w (j * 64 + i) (.fin false 0 0)) =
            rowVals ty n (readBytes k.tile (4096 * tile + j * rowLen ty n) (rowLen ty n))) ∧
      (∀ wb tile kk n e ty, cm.op = .wlds wb tile kk n e ty → n ≤ 64 → kk ≤ 128 → fl = 0 ∧ k1.tile = k.tile ∧
        k1.ms.acc = k.ms.acc ∧ (∀ y, y ≠ wb → tfind k1.ms.wb y = tfind k.ms.wb y) ∧
        ∃ b, tfind k1.ms.wb wb = some b ∧ b.ty = ty ∧ b.k = kk ∧ b.n = n ∧ b.sparse = true ∧
          (∀ i < n, ∀ j < kk / 2, tget b.w (j * 64 + i) (.fin false 0 0) =
            elemNum ty (readNat k.tile (4096 * tile + (i * (kk / 2) + j) * ty.width) ty.width)) ∧
          ∀ i < n, ∀ g < kk / 8, tget b.masks (i * 16 + g) 0 = cm.masks.getD (i * (kk / 8) + g) 0) ∧
      (∀ acc ty, cm.op = .zero acc ty → fl = 0 ∧ k1.tile = k.tile ∧
        (k1.accTile acc).fmt = (match ty with | .s32 => .s32 | .anc => .anc | _ => .f32) ∧
        (∀ r, (k1.accTile acc).row r = ⟨0, 0, []⟩) ∧ ∀ y, y ≠ acc → k1.accTile y = k.accTile y) ∧
      (∀ acc first rows v, cm.op = .anch acc first rows v → fl = 0 ∧ k1.tile = k.tile ∧
        (∀ r, (k1.accTile acc).row r = if first ≤ r ∧ r < first + rows then ⟨0, v, []⟩ else (k.accTile acc).row r) ∧
        ∀ y, y ≠ acc → k1.accTile y = k.accTile y) ∧
      (∀ acc first addr ty rnd sat clr kind, cm.op = .drn acc first 1 addr ty rnd sat clr kind → cm.rowsDone = 0 →
        let out := drainRow (k.accTile acc) first ty rnd sat kind cm.dph
        fl = cm.flags ||| out.2 ∧ k1.tile = writeMasked k.tile addr out.1 (List.replicate (rowLen ty 64) true) ∧
        ∀ r, (k1.accTile acc).row r = if clr = true ∧ r = first then ⟨0, ((k.accTile acc).row r).anchor, []⟩
          else (k.accTile acc).row r)) ∧
    (∀ k1 rows fl cause detail, k.ms.window[n]? = some cm → cm.op.isRun = false → cm.state = .issued → cm.checked = true →
      actOf s c cm = .fault k1 rows fl cause detail →
      ∃ t d, exec (.commandRetire c n) s = .next t ∧ d.seq = cm.seq ∧ d.state = .suspended ∧
        (t.core c).ms.window = inPlace d k.ms.window ∧ (t.core c).tile = k1.tile ∧ others t ∧
        (t.core c).m = { k.m with late := k.m.late ++ [⟨cause, cmdTval cm 0 detail, none, some cm.seq⟩] })

/-! ## Barriers, mail, launches and quanta (R135, R136, R142 to R144, R365 to R376, R413 to R424) -/

/-- The releases of barriers (R142 to R144, R365, R420): a core goes on from an untimed barrier once every participant has arrived, and
its interval number advances once for the instance, with the first release; the participants of a die go on together from a timed
one at the largest T that an arrived participant of the instance gave, and not before; none goes on while part of its launch is
saved. The model's own choice in it: instances are counted for each core (log 20), and when a timed instance is complete (log 21). -/
def Obligations.BarriersRelease : Prop :=
  ∀ (s : State) (c scope mask inst : Nat) (l : Launch), c < 512 → s.still c = false → s.launchOf c = some l →
    let k := s.core c
    let ps := participants l scope c
    let gone (timed : Bool) (t : State) : Prop := ∀ e ∈ standsAt k scope inst timed, t.stream ⟨c, e⟩ =
      { s.stream ⟨c, e⟩ with pc := s.pcOf ⟨c, e⟩ + 4, run := s.runNext ⟨c, e⟩, at_ := .free }
    let found := (untimedAt k).find? (fun b => (participants l b.1 c).all (fun d => arrivedAt (s.core d) b.1 b.2.2))
    (found = none → exec (.barrierRelease c) s = .next s) ∧
    (s.whole l.record = false → exec (.barrierRelease c) s = .next s ∧ exec (.timedBarrierRelease c) s = .next s) ∧
    (found = some (scope, mask, inst) → commitFirst s l scope ps = false → s.whole l.record = true →
      (scope ≠ 5 ∨ l.packages.length ≤ 1 ∨ inst ∈ l.released) → (∀ e ∈ standsAt k scope inst false, Straight s ⟨c, e⟩ 4) →
      ∃ t, exec (.barrierRelease c) s = .next t ∧ gone false t ∧
        (∀ e, e ∉ standsAt k scope inst false → t.stream ⟨c, e⟩ = s.stream ⟨c, e⟩) ∧ (∀ d, d ≠ c → t.core d = s.core d) ∧
        t.mem = s.mem ∧ (t.core c).tile = k.tile ∧
        (let ctx := (s.lrec l.record).ctx;
          let x := s.ctx ctx
          let key := intervalKey ctx x.mscopeCode (unitOf x.mscopeCode c)
          let first : Prop := (scope, unitOf scope c, inst) ∉ l.completed
          (x.mmode ≠ 1 ∨ scope < x.mscopeCode ∨ ¬ first → t.intervals = s.intervals) ∧
          (x.mmode = 1 → x.mscopeCode ≤ scope → first → c ∈ l.cores.map Prod.fst →
            tget t.intervals key 0 = (tget s.intervals key 0 + 1) % 65536))) ∧
    (timedAt k = some (scope, inst) → s.whole l.record = true → c ∈ ps → arrivedAt k scope inst = true →
      standsAt k scope inst true ≠ [] →
      let here := ps.filter (fun d => arrivedAt (s.core d) scope inst && !(standsAt (s.core d) scope inst true).isEmpty)
      let last := match timedOf l scope (unitOf scope c) inst with | some b => b.high | none => 0
      (s.jobCount c < last → exec (.timedBarrierRelease c) s = .next s) ∧
      (last ≤ s.jobCount c → (∀ d ∈ here, ∀ e ∈ standsAt (s.core d) scope inst true, Straight s ⟨d, e⟩ 4) →
        ∃ t, exec (.timedBarrierRelease c) s = .next t ∧ gone true t ∧ t.mem = s.mem ∧
          (∀ d ∈ here, dieOf d = dieOf c → ∀ e ∈ standsAt (s.core d) scope inst true,
            (t.stream ⟨d, e⟩).at_ = .free ∧ (t.stream ⟨d, e⟩).pc = s.pcOf ⟨d, e⟩ + 4) ∧
          (∀ d, dieOf d ≠ dieOf c → t.core d = s.core d)))

/-- Mailbox writes on their way (R135, R136): the next write of an outbound port to this package is held at its core while a job
of its context runs there or the core is kept for a wave of its launch, waits while sixteen are held, and is reported and discarded
where another job runs; a held write enters its mailbox once that is empty and no write of the core's own A stream is kept for it. The
model's own choice in it: the order of mail (log 22) and the layout of its report (log 68). -/
def Obligations.MailArrives : Prop :=
  ∀ (s : State) (src i : Nat) (m : MboxMsg),
    let dst := s.core m.dstCore
    let runs : Prop := (∃ j, dst.job = some j ∧ j.ctx = m.ctx) ∨
      (dst.job = none ∧ ∃ l ∈ s.launches, l.record = m.launch ∧ (s.lrec l.record).ctx = m.ctx ∧ reservedFor s l m.dstCore = true)
    (src < 512 → firstOwn s src = none → exec (.remoteMailboxWriteArrival src) s = .next s) ∧
    (src < 512 → firstOwn s src = some (i, m) → s.still m.dstCore = false →
      (runs → dst.holding.length < 16 → ∃ t, exec (.remoteMailboxWriteArrival src) s = .next t ∧
        (t.core m.dstCore).holding = dst.holding ++ [m] ∧ (t.core src).outbound = ldel (s.core src).outbound i ∧
        (∀ c, (t.core c).mbox = (s.core c).mbox ∧ (t.core c).tile = (s.core c).tile ∧ (t.core c).a = (s.core c).a) ∧
        t.mem = s.mem) ∧
      (runs → 16 ≤ dst.holding.length → exec (.remoteMailboxWriteArrival src) s = .next s) ∧
      (¬ runs → dst.job ≠ none → s.session.phase = .opened →
        ∃ t, exec (.remoteMailboxWriteArrival src) s = .next t ∧ (t.core src).outbound = ldel (s.core src).outbound i ∧
          (∀ c, (t.core c).holding = (s.core c).holding) ∧
          t.toHost.map HostOut.msg = s.toHost.map HostOut.msg ++
            [.context m.ctx 1 [BitVec.ofNat 64 (m.srcPkg * 4096 + m.srcCore), m.value, 0, 0]])) ∧
    (∀ rest, s.inbound = m :: rest → s.still m.dstCore = false → runs → dst.holding.length < 16 →
      exec (.remoteMailboxWriteArrival 512) s = .next ((({ s with inbound := rest } : State)).setCore m.dstCore
        { dst with holding := dst.holding ++ [m] })) ∧
    ((∀ n ∈ s.inbound, s.still n.dstCore = true) → exec (.remoteMailboxWriteArrival 512) s = .next s) ∧
    (∀ c, c < 512 → s.still c = false →
      ((s.core c).holding.mapIdx (fun i m => (i, m))).find? (fun p => p.2.mbox == m.mbox) = some (i, m) →
      (m.mbox ∈ heldOwn s c → exec (.heldMailboxWriteEntry c m.mbox) s = .next s) ∧
      ((s.core c).job.isSome = true → tfind (s.core c).mbox m.mbox = none → m.mbox ∉ heldOwn s c →
        exec (.heldMailboxWriteEntry c m.mbox) s = .next (s.setCore c { s.core c with
          holding := ldel (s.core c).holding i, mbox := tset (s.core c).mbox m.mbox (mailVal m) })) ∧
      ((tfind (s.core c).mbox m.mbox).isSome = true → exec (.heldMailboxWriteEntry c m.mbox) s = .next s))

/-- WAVE_START and job start of a launch on one die (R115, R207, R313, R322, R416, R475): once its cores are free and its images read,
each core has a job with its logical index, its tile store holds the image, each cluster's vault its copy of the vault image, every
stream of the record runs at its code address in user mode with empty files, its `tvec` from the record, and the stack registers hold the
record's values or the defaults. An image whose bytes have not all come is waited for; one that cannot be read starts no job and the host
hears why. The model's own choice in it: which cores a launch gets (log 52), the default stack (log 77), bits [1:0] of a code address
(log 80), the words of the context event (log 68) and the wait for an image in another package (log 73). -/
def Obligations.WavesStart : Prop :=
  ∀ (s : State) (record : Nat) (l : Launch), s.launches.find? (fun x => x.record == record) = some l →
    let r := s.lrec record
    let secLen := field (r.d 9) 19 0
    (l.started = true ∨ s.whole record = false ∨ r.armed = false → exec (.waveStart record) s = .next s) ∧
    (l.started = false → l.spreads = false → l.leader s = s.pkgId → s.whole record = true → r.armed = true →
      l.dies.any s.dieFailed = false → l.loaded = none → l.begun = [] → l.done = [] →
      ((∃ p ∈ l.cores, (s.core p.1).job ≠ none ∨ (s.core p.1).held = true) → exec (.waveStart record) s = .next s) ∧
      ((∀ p ∈ l.cores, (s.core p.1).job = none ∧ (s.core p.1).held = false) → (l.cores.map Prod.fst).Nodup →
        (∀ s1, loadImage s record r.ctx (r.d 8) secLen = .wait s1 → exec (.waveStart record) s = .next s1) ∧
        (∀ cause va s2, (loadImage s record r.ctx (r.d 8) secLen = .bad cause va s2 ∨
            ∃ sec s1, loadImage s record r.ctx (r.d 8) secLen = .ok sec s1 ∧ loadVault s1 record = .bad cause va s2) →
          s.session.phase = .opened →
          ∃ t, exec (.waveStart record) s = .next t ∧ t.mem = s.mem ∧
            (∀ c, { t.core c with holding := (s.core c).holding } = s.core c) ∧ (∀ p ∈ l.cores, (t.core p.1).holding = []) ∧
            HostMsg.context r.ctx 4 [BitVec.ofNat 64 record, BitVec.ofNat 64 cause, BitVec.ofNat 64 va, 0] ∈
              t.toHost.map HostOut.msg) ∧
        (∀ sec s1 img s2, loadImage s record r.ctx (r.d 8) secLen = .ok sec s1 → loadVault s1 record = .ok img s2 →
        ∃ t, exec (.waveStart record) s = .next t ∧
          (img = [] ∨ (∀ p ∈ l.cores, unitOf 2 p.1 ∈ l.vaulted) → t.mem = s.mem) ∧
          (∀ p ∈ l.cores, unitOf 2 p.1 ∉ l.vaulted → r.voff + img.length ≤ 0x4000000 → s.mem.wf = true →
            ∀ i < img.length, readB t.mem (vaultBase + unitOf 2 p.1 * 0x4000000 + r.voff + i) = img.getD i 0) ∧
          (∀ d, d ∉ l.cores.map Prod.fst → t.core d = s.core d) ∧
          ∀ p ∈ l.cores, ∃ j, let k := t.core p.1
            k.job = some j ∧ j.record = record ∧ j.ctx = r.ctx ∧ j.lidx = inWave r p.2 l.wave ∧
            j.start = s.localCount (clusterOf p.1) ∧ k.tile = tileImage r sec ∧ k.ownM = [] ∧ k.mbox = [] ∧
            k.tokens = [] ∧ k.q = [] ∧ k.w = [] ∧ k.ms = MState.reset ∧ k.xs = XState.reset ∧ k.as.h = [] ∧
            k.as.slim = (if r.d 12 = 0 ∧ r.d 13 = 0 then 0x78000 else r.d 13) ∧
            (∀ e n, (k.stream e).reg n = if e = .a ∧ n = 30 ∧ r.code .a ≠ 0 then
              (if r.d 12 = 0 ∧ r.d 13 = 0 then 0x80000 else r.d 12) else 0) ∧
            (∀ e, r.code e = 0 → (k.stream e).run = .none) ∧
            ∀ e, r.code e ≠ 0 → (k.stream e).run = .running ∧ (k.stream e).pc = r.code e &&& ~~~(3 : Word) ∧
              (k.stream e).super = false ∧ (k.stream e).gauge = r.gauge ∧ (k.stream e).loops = [] ∧
              (k.stream e).tvec = r.tvec e &&& ~~~(3 : Word) ∧
              (k.stream e).empty = [] ∧ (k.stream e).qflags = 0 ∧ (k.stream e).dph = 0 ∧ (k.stream e).cause = 0 ∧
              (k.stream e).npdef = BitVec.ofNat 64 r.npdef)))

/-- Regimes, pre-emption, restoring and quanta (R368 to R372, R417, R420 to R424). REGIME_CHANGE_DONE ends a change; PREEMPTION
saves a victim, whose cores have no job then; LAUNCH_RESTORE gives a saved launch its cores back; QUANTUM_COMMIT performs the
buffered writes in the order of the logical indices and begins the next quantum, and one that goes to another package leaves and is
waited for. The model's own choice in it: the end of a quantum (log 44), the events of a commit (log 81), which cores (log 52) and the
place of a restore (log 53). -/
def Obligations.LaunchesMove : Prop :=
  ∀ (s : State) (record : Nat),
    (∀ g, g < 32 →
      (∀ to_, (s.cluster g).changing = some to_ →
        exec (.regimeChangeDone g) s = .next (s.setCluster g { s.cluster g with gauge := to_, changing := none })) ∧
      ((s.cluster g).changing = none → exec (.regimeChangeDone g) s = .next s)) ∧
    (isReady s record = false → exec (.preemption record) s = .next s) ∧
    (∀ v l, isReady s record = true → planCores s [] (needed s record) record = none →
      enoughVictims (fun gone => (planCores s gone (needed s record) record).isSome) (victims s record) = some [v] →
      s.launches.find? (fun x => x.record == v) = some l → mailClear s l (l.cores.map Prod.fst) = true →
      launchStops s l none = true → (∀ p ∈ l.cores, (s.core p.1).inFlight = 0 ∧ canSave s (s.lrec v).gauge p.1 = true) →
      ∃ t f, exec (.preemption record) s = .next t ∧ t.lifelines = s.lifelines ++ [f] ∧ f.image = none ∧
        f.launch.record = l.record ∧ f.cores.map Prod.fst = l.cores.map Prod.fst ∧
        (∀ p ∈ f.cores, p.2.tile = (s.core p.1).tile ∧ p.2.ms = (s.core p.1).ms ∧ p.2.a.regs = (s.core p.1).a.regs ∧
          p.2.xs = (s.core p.1).xs) ∧
        (∀ p ∈ l.cores, (t.core p.1).job = none) ∧ (∀ x ∈ t.launches, x.record ≠ l.record) ∧ t.mem = s.mem) ∧
    (savedOf s record = none → exec (.launchRestore record) s = .next s) ∧
    (∀ f, savedOf s record = some f → (f.cores.map Prod.fst).Nodup → (∀ p ∈ f.cores, p.1 < 512) → f.launch.record = record →
      shiftFor s (coreFits s [] (needed s record) (s.lrec record).gauge) f = some ((0, 0), f.cores.map Prod.fst) →
      (toChange s (s.lrec record).gauge (unitsAmong 2 (f.cores.map Prod.fst) []) = [] →
        (∀ g ∈ s.lifelines, g.launch.record = record → g = f) → (∀ x ∈ s.launches, x.record ≠ record) →
        (∀ p ∈ f.cores, unitOf 2 p.1 ∈ f.launch.vaulted) →
        ∃ t, exec (.launchRestore record) s = .next t ∧ t.mem = s.mem ∧
          t.lifelines = s.lifelines.filter (fun g => g.launch.record != record) ∧ ∀ p ∈ f.cores,
          (t.core p.1).a = p.2.a ∧ (t.core p.1).x = p.2.x ∧ (t.core p.1).m = p.2.m ∧ (t.core p.1).tile = p.2.tile ∧
          (t.core p.1).ms = p.2.ms ∧ (t.core p.1).xs = p.2.xs) ∧
      (∀ g, g ∈ toChange s (s.lrec record).gauge (unitsAmong 2 (f.cores.map Prod.fst) []) →
        ∃ t, exec (.launchRestore record) s = .next t ∧ (t.cluster g).changing = some (s.lrec record).gauge ∧
          t.cores = s.cores ∧ t.lifelines = s.lifelines)) ∧
    (∀ c l, c < 512 → s.launchOf c = some l →
      let ps := quantumCores s l c
      let writes := ps.flatMap (fun d => (s.core d).det.writes)
      ((∃ d ∈ ps, quantumOver s l.record d = false) → exec (.quantumCommit c) s = .next s) ∧
      ((s.ctx (s.core c).ctx).mmode = 2 → (∃ d ∈ ps, (s.core d).det.clean = false) →
        (∀ d ∈ ps, quantumOver s l.record d = true ∧ (s.core d).allEnded = false ∧ (s.core d).det.atomic = none) →
        ps.Nodup → (∀ b ∈ writes, b.seg.isRemote = false) → s.badMem = [] → (∀ line, tagOf s line < 8) →
        ∃ t, exec (.quantumCommit c) s = .next t ∧
          t.mem = writes.foldl (fun m b => writeMasked m b.seg.addr b.data b.mask) s.mem ∧
          (∀ d ∈ ps, (t.core d).det = { DetBuf.reset with quantum := (s.core d).det.quantum + 1 } ∧
            (t.core d).a = (if (s.core d).a.at_ = .committing
              then { (s.core d).a with at_ := .free, run := s.runNext ⟨d, .a⟩ } else (s.core d).a) ∧
            (t.core d).tile = (s.core d).tile) ∧
          ∀ d, d ∉ ps → t.core d = s.core d) ∧
      (∀ d rest b more, ps = d :: rest → (s.core d).det.writes = b :: more → b.seg.isRemote = true →
        (s.ctx (s.core c).ctx).mmode = 2 → (∀ d ∈ ps, quantumOver s l.record d = true) →
        ∃ t, exec (.quantumCommit c) s = .next t ∧ (t.core d).det = { (s.core d).det with writes := more } ∧
          (t.core d).a.pend.length = (s.core d).a.pend.length + 1 ∧ t.mem = s.mem ∧ ∀ e, e ≠ d → t.core e = s.core e))

/-- Holds and droops (R336, R337, R378, R379): a held core's running stream stops 2^20 local cycles after its hold began; a hold ends at
the limit unless a debugger is attached: its record goes to the host, and the streams of its held jobs end, and the jobs with them once
what runs on has settled, with their cores no longer held; a stretched cycle is not counted and no cycle is longer than twice the
nominal one; and a gauge domain that froze for a droop goes on with its local counts as they were. The model's own choice in it: when a
held stream stops (log 13), the eighths of a stretched cycle (log 43) and the clock of the hold limit (log 69). -/
def Obligations.HoldsAndDroops : Prop :=
  ∀ (s : State) (w : Who) (cl n : Nat), w.core < 512 → cl < 32 →
    let k := s.core w.core
    let g := s.cluster cl
    let now := s.localCount (clusterOf w.core)
    (k.held = true → k.heldSince + 2 ^ 20 ≤ now → (s.stream w).run = .running →
      exec (.holdStreamLimit w.core w.eng) s = .next (s.setStream w { s.stream w with run := .held })) ∧
    (k.held = false ∨ now < k.heldSince + 2 ^ 20 ∨ (s.stream w).run ≠ .running →
      exec (.holdStreamLimit w.core w.eng) s = .next s) ∧
    (∀ die i h, die < 4 → holdAt s die n = some i → s.holds[i]? = some h →
      (h.ctx ∈ s.attached ∨ s.clock < h.began + s.holdLimit * 1300000000 → exec (.holdLimitExpiry die n) s = .next s) ∧
      (h.ctx ∉ s.attached → h.began + s.holdLimit * 1300000000 ≤ s.clock → (s.ctx h.ctx).dw 6 = 0 → s.session.phase = .opened →
        ∃ t, exec (.holdLimitExpiry die n) s = .next t ∧ t.holds = ldel s.holds i ∧
          HostMsg.hold (holdRecord s h false) ∈ t.toHost.map HostOut.msg ∧
          ∀ c j, (s.core c).held = true → dieOf c = die → (s.core c).job = some j → j.ctx = h.ctx → (t.core c).held = false ∧
            ((t.core c).job = none ∨ ∀ e ∈ j.streams, ((t.core c).stream e).run = .ended))) ∧
    (g.gauge = false → n ≤ 8 →
      exec (.droopStretch cl n) s = .next (s.setCluster cl { g with stretch := g.stretch + n })) ∧
    (g.gauge = false → g.frozen = [] → s.heat = .normal → ((s.lapse n).cluster cl) =
      { g with lost := g.lost + min g.stretch (4 * n), stretch := g.stretch - min g.stretch (4 * n) }) ∧
    (g.gauge = true ∨ 8 < n → exec (.droopStretch cl n) s = .next s) ∧
    (cl ∈ gaugeDomain s cl → droopOf s cl = none →
      ∃ t, exec (.droopFreeze cl) s = .next t ∧ (t.cluster cl).frozen = g.frozen ++ [.droop s.clock] ∧
        t.counter (ctrDroop (dieOfCluster cl)) = s.counter (ctrDroop (dieOfCluster cl)) + 1 ∧
        t.localCount cl = s.localCount cl ∧ t.cores = s.cores ∧ t.mem = s.mem) ∧
    (g.frozen = [.droop n] → gaugeDomain s cl = [cl] → g.since = n → n ≤ s.clock →
      ∃ t, exec (.droopRecovery cl) s = .next t ∧ (t.cluster cl).frozen = [] ∧ t.localCount cl = s.localCount cl ∧
        t.counter (ctrFrozen (dieOfCluster cl)) = s.counter (ctrFrozen (dieOfCluster cl)) + (s.clock - n) ∧
        t.cores = s.cores ∧ t.mem = s.mem) ∧
    (droopOf s cl = none → exec (.droopRecovery cl) s = .next s)

/-! ## The host (R428 to R434, R404 to R406) -/

/-- The session (R427 to R430, R434, R435): what opens it and what refuses it, the ends of it, after which its commands go on without an
answer, the messages that are dropped and counted, the commands that are accepted and wait for others, SET and STATUS, the types that
are no command, and recovery, in which commands answer with status 4. The model's own choice in it: the opening (log 58), the order of
commands (log 59), recovery (log 60), the boot flash (log 57), the layout of STATUS (log 65) and a DEBUG or SET of no listed subcode
(log 86). -/
def Obligations.HostSession : Prop :=
  ∀ (s : State) (nonce hostKey sig ownerKey eph : List Byte) (accepted : BitVec 256) (h : HostHdr) (ty n : Nat),
    let x := s.session
    let ask : Instr := .sessionOpenRequest nonce hostKey sig ownerKey
    let accept : Instr := .sessionFeatureAccept eph accepted sig
    let signed := Config.sm2Verify x.hostKey (x.transcript ++ eph ++ bytesOf 32 accepted.toNat) sig
    let opening (m : HostMsg) : HostOut := ⟨0, false, 0, m, []⟩
    let ended (s : State) : State := { s with
      session := Session.reset, ops := s.ops.map (fun o => { o with answers := false }),
      endings := s.endings.map (fun e => { e with command := none }) }
    let dropped : State := if x.failed + 1 < 3
      then { s with drops := s.drops + 1, session := { x with failed := x.failed + 1, last := s.clock } }
      else ended { s with drops := s.drops + 1 }
    let u := s.hears h
    let some_ : List Instr := [.status h, .sessionClose h, .setHoldLimit h n, .recarm h n, .unknownCommandType h 0x40]
    (x.phase = .opened → exec ask s = .next { s with toHost := s.toHost ++ [opening (.opened 5)] }) ∧
    (x.phase ≠ .opened → (sm3 ownerKey ≠ Config.ownerHash ∨ Config.sm2Verify ownerKey (nonce ++ hostKey) sig = false) →
      exec ask s = .next s) ∧
    (x.phase ≠ .opened → nonce.length = 32 → sm3 ownerKey = Config.ownerHash →
      Config.sm2Verify ownerKey (nonce ++ hostKey) sig = true →
      ∃ t report key, exec ask s = .next t ∧ t.session.phase = .offered ∧ t.session.hostKey = hostKey ∧
        t.session.ephemeral = key ∧ report.length = 256 ∧ report.take 32 = nonce ∧
        (s.recovery = false → (report.drop 64).take 32 = sm3 (Config.slotImage s.flash s.slot)) ∧
        (s.recovery = true → (report.drop 64).take 64 = List.replicate 64 0) ∧
        (report.drop 160).take 8 = bytesOf 8 (Config.slotVersion s.flash s.slot).toNat ∧
        (report.drop 184).take 8 = bytesOf 8 s.boots ∧
        t.session.transcript = nonce ++ hostKey ++ sig ++ report ++ key ++ bytesOf 32 0x7FF ∧
        { t with session := s.session } = { s with toHost := s.toHost ++ [opening (.attest report key 0x7FF)] }) ∧
    (x.phase ≠ .offered → exec accept s = .next s) ∧
    (x.phase = .offered → (signed = false ∨ accepted &&& 0x7FF ≠ accepted ∨
      (accepted ≠ s.accepted ∧ ∃ c, (s.ctx c).live = true)) →
      exec accept s = .next { ended s with toHost := s.toHost ++ [opening (.opened 1)] }) ∧
    (x.phase = .offered → signed = true → accepted &&& 0x7FF = accepted →
      (accepted = s.accepted ∨ ∀ p ∈ s.ctxs, p.2.live = false) →
      ∃ t, exec accept s = .next t ∧ t.accepted = accepted ∧ t.ring = [] ∧
        t.session = { x with phase := .opened, macKey := fit 32 (Config.sm2Exchange x.ephemeral eph), last := s.clock,
                             seqOut := x.seqOut + s.ring.length } ∧
        t.toHost.map HostOut.msg = s.toHost.map HostOut.msg ++ .opened 0 :: s.ring ∧
        { t with session := s.session, accepted := s.accepted, toHost := s.toHost, ring := s.ring } = s) ∧
    (HostNext s h → exec (.sessionClose h) s = .next { u.replies h false 0 [] with session := Session.reset }) ∧
    (x.phase = .opened → x.last + 30 * 1300000000 ≤ s.clock → exec .sessionIdleTimeout s = .next (ended s)) ∧
    (x.phase ≠ .opened ∨ s.clock < x.last + 30 * 1300000000 → exec .sessionIdleTimeout s = .next s) ∧
    (x.phase = .opened → exec .hostMessageDrop s = .next dropped) ∧
    (x.phase ≠ .opened → exec .hostMessageDrop s = .next s) ∧
    (x.phase ≠ .opened ∨ (if s.recovery then 1 else 4) ≤ h.port → ∀ i ∈ some_, exec i s = .next s) ∧
    (x.phase = .opened → h.port < (if s.recovery then 1 else 4) →
      let before : Prop := (∃ e ∈ s.endings, e.command ≠ none) ∨ (∃ o ∈ s.ops, o.answers = true) ∨ ∃ y ∈ x.waiting, y.seq < h.seq
      (h.seq ≠ x.seqIn + 1 → (∀ y ∈ x.waiting, y.seq ≠ h.seq) → ∀ i ∈ some_, exec i s = .next dropped) ∧
      (h.seq = x.seqIn + 1 → (∀ y ∈ x.waiting, y.seq ≠ h.seq) → before → ∀ i ∈ some_,
        exec i s = .next { u with session := { u.session with waiting := x.waiting ++ [⟨h.seq, false, i⟩] } }) ∧
      (∀ i ∈ some_, ⟨h.seq, false, i⟩ ∈ x.waiting → before → exec i s = .next s) ∧
      (⟨h.seq, false, .setHoldLimit h n⟩ ∈ x.waiting → ¬ before → s.recovery = false → 1 ≤ n → n ≤ 3600 →
        exec (.setHoldLimit h n) s = .next (({ s with holdLimit := n, session := { x with
          waiting := x.waiting.filter (fun y => y != ⟨h.seq, false, .setHoldLimit h n⟩) } } : State).replies h false 0 []))) ∧
    (HostNext s h → ∃ payload, payload.length ≤ 65528 ∧ exec (.status h) s = .next (u.replies h false 0 payload)) ∧
    (HostNext s h → s.recovery = false →
      (ty ∉ [0x01, 0x02, 0x10, 0x11, 0x20, 0x21, 0x30, 0x38, 0x3F] →
        exec (.unknownCommandType h ty) s = .next (u.replies h false 1 [])) ∧
      (1 ≤ n → n ≤ 3600 → exec (.setHoldLimit h n) s = .next (({ u with holdLimit := n } : State).replies h false 0 [])) ∧
      (n = 0 ∨ 3600 < n → exec (.setHoldLimit h n) s = .next (u.replies h false 1 [])) ∧
      (n ≤ 224 → n % 7 = 0 → exec (.setGaugeBudget h n) s = .next (({ u with gaugeBudget := n } : State).replies h false 0 [])) ∧
      (224 < n ∨ n % 7 ≠ 0 → exec (.setGaugeBudget h n) s = .next (u.replies h false 1 []))) ∧
    (HostNext s h → s.recovery = true → ∀ (c a : Nat) (desc : List Word) (addr : HostAddr),
      (∀ i ∈ [Instr.ctxnew h desc, .recw h a desc, .recarm h a, .setHoldLimit h n, .setGaugeBudget h n,
        .debugAttach h c, .debugDetach h c, .reset h],
        exec i s = .next (u.replies h false 4 [])) ∧
      ((∀ e ∈ s.endings, e.ctx ≠ c) → exec (.ctxend h c) s = .next (u.replies h false 4 [])) ∧
      (waitingOp s h false = none → exec (.memr h addr n) s = .next (u.replies h true 4 []))) ∧
    (HostNext s h → s.recovery = true → waitingOp s h true = none → ∀ (pa : Nat) (data : List Byte),
      (Config.bootFlash pa data.length = true →
        exec (.memw h (.phys pa) data) s = .next (({ u with flash := writeBytes s.flash pa data } : State).replies h true 0 [])) ∧
      (Config.bootFlash pa data.length = false → exec (.memw h (.phys pa) data) s = .next (u.replies h true 4 [])))

/-- MEMW, MEMR, CTXNEW, CTXEND, RECW and RECARM (R404 to R407, R411, R431, R432): a bulk command is accepted and takes effect when its
event comes again, with the bytes that are written or read; the slot that becomes live or free, the record that is written or armed, and
the statuses of what is refused. The model's own choice in it: the statuses of MEMW and MEMR (log 61), the order of commands (log 59),
CTXEND (log 62) and RECARM (log 63). -/
def Obligations.HostCommands : Prop :=
  ∀ (s : State) (h : HostHdr), s.recovery = false →
    let u := s.hears h
    let answers (i : Instr) (rud : Bool) (st : Nat) (l : List Byte) : Prop := exec i s = .next (u.replies h rud st l)
    (HostNext s h → waitingOp s h true = none → waitingOp s h false = none →
      ∀ (addr : HostAddr) (data : List Byte) (n : Nat), n = data.length → n ≤ 65526 →
      let wrote := walkedHost u .write n addr
      let read := walkedHost u .read n addr
      let accepts (i : Instr) (v : State) (write : Bool) (g : Seg) (l : List Byte) : Prop := exec i s = .next { v with
        ops := s.ops ++ [⟨s.nextDev, h.seq, h.port, write, [g], l, false, true⟩], nextDev := s.nextDev + 1 }
      (∀ pa, addr = .phys pa → assigned pa = true → pa + n ≤ rangeEnd pa →
        accepts (.memw h addr data) u true ⟨.local, pa, n, plainAttr, pa, none⟩ data ∧
        accepts (.memr h addr n) u false ⟨.local, pa, n, plainAttr, pa, none⟩ []) ∧
      (∀ c va tr, addr = .virt c va → (s.ctx c).live = true → 0 < n → canonical va.toNat = true →
        va.toNat % 2 ^ 14 + n ≤ 2 ^ 14 → walk s c (va.toNat % 2 ^ 57) = .ok tr → tr.pkg = s.pkgId → tr.attr.rep = false →
        let pa := tr.pa (va.toNat % 2 ^ 57)
        let g : Seg := ⟨.local, pa, n, tr.attr, va.toNat % 2 ^ 57, none⟩
        pa + n ≤ rangeEnd pa →
          (tr.attr.writable = true → accepts (.memw h addr data) wrote true g data) ∧
          (tr.attr.writable = false → exec (.memw h addr data) s = .next (wrote.replies h true 3 [0x11])) ∧
          accepts (.memr h addr n) read false g []) ∧
      (∀ pa, addr = .phys pa → (assigned pa = false ∨ rangeEnd pa < pa + n) →
        answers (.memw h addr data) true 1 [] ∧ answers (.memr h addr n) true 1 []) ∧
      (∀ c va, addr = .virt c va → (s.ctx c).live = false →
        answers (.memw h addr data) true 1 [] ∧ answers (.memr h addr n) true 1 []) ∧
      (∀ c va cause, addr = .virt c va → (s.ctx c).live = true → 0 < n →
        (canonical va.toNat = false ∧ cause = 0x10 ∨ canonical va.toNat = true ∧ walk s c (va.toNat % 2 ^ 57) = .error cause) →
        exec (.memw h addr data) s = .next (wrote.replies h true 3 [BitVec.ofNat 8 cause]) ∧
        exec (.memr h addr n) s = .next (read.replies h true 3 [BitVec.ofNat 8 cause]))) ∧
    (∀ (op : HostOp) (g : Seg) (addr : HostAddr) (data : List Byte) (n : Nat), waitingOp s h op.write = some op → op.segs = [g] →
      g.home = .local → op.answers = true → (∀ q ∈ s.requests, q.owner ≠ .host op.id) →
      let ends (t : State) (st : Nat) (l : List Byte) : Prop := t.ops = s.ops.filter (fun o => o.id != op.id) ∧
        t.toHost = (s.replies ⟨op.seq, op.port⟩ true st l).toHost ∧ t.session = (s.replies ⟨op.seq, op.port⟩ true st l).session ∧
        t.cores = s.cores ∧ t.requests = s.requests
      (op.write = true → op.data.length = g.len → s.mem.wf = true →
        (storeBad s g.addr g.len = false → ∃ t, exec (.memw h addr data) s = .next t ∧ ends t 0 [] ∧
          ∀ a, readB t.mem a = if g.addr ≤ a ∧ a < g.addr + g.len then op.data.getD (a - g.addr) 0 else readB s.mem a) ∧
        (storeBad s g.addr g.len = true → ∃ t, exec (.memw h addr data) s = .next t ∧ ends t 3 [0x50] ∧ t.mem = s.mem)) ∧
      (op.write = false →
        (readBad s g.addr g.len = none → ∃ t, exec (.memr h addr n) s = .next t ∧
          ends t 0 (readBytes s.mem g.addr g.len) ∧ t.mem = s.mem) ∧
        (∀ cause, readBad s g.addr g.len = some cause → ∃ t, exec (.memr h addr n) s = .next t ∧
          ends t 3 [BitVec.ofNat 8 cause] ∧ t.mem = s.mem))) ∧
    (HostNext s h → ∀ desc : List Word, let n := field (desc.headD 0) 5 0
      (descBad s desc = true → answers (.ctxnew h desc) false 1 []) ∧
      (desc.length = 16 → (desc.getD 0 0).getLsbD 8 = true → s.accepted.getLsbD 0 = false →
        answers (.ctxnew h desc) false 1 []) ∧
      (descBad s desc = false → (s.ctx n).live = true → answers (.ctxnew h desc) false 5 []) ∧
      (descBad s desc = false → (s.ctx n).live = false →
        exec (.ctxnew h desc) s = .next ((u.setCtx n ⟨true, desc, [], (s.ctx n).gen + 1⟩).replies h false 0 []))) ∧
    (HostNext s h → ∀ n, (∀ e ∈ s.endings, e.ctx ≠ n) → ((s.ctx n).live = false → answers (.ctxend h n) false 1 []) ∧
      ((s.ctx n).live = true → ∃ t, exec (.ctxend h n) s = .next t ∧
        (∀ c j, (s.core c).job = some j → j.ctx = n → (s.core c).held = false →
          (t.core c).job = none ∨ ∀ e ∈ j.streams, ((t.core c).stream e).run = .ended) ∧
        ((∀ c, (s.core c).job = none ∨ (s.core c).ctx ≠ n) →
          (t.ctx n).live = false ∧ (∀ e ∈ t.endings, e.ctx ≠ n) ∧ .response h.seq 0 [] ∈ t.toHost.map HostOut.msg ∧
          (∀ f ∈ t.lifelines, f.ctx ≠ n) ∧ (∀ x ∈ t.holds, x.ctx ≠ n) ∧ n ∉ t.attached ∧
          (∀ m, (t.lrec m).armed = true → (t.lrec m).ctx ≠ n) ∧ ∀ l ∈ t.launches, (t.lrec l.record).ctx ≠ n))) ∧
    (∀ n c, (∃ e ∈ s.endings, e.ctx = n ∧ ∃ p, e.command = some ⟨h.seq, p⟩) → (s.core c).job ≠ none → (s.core c).ctx = n →
      (s.core c).held = false → exec (.ctxend h n) s = .next s) ∧
    (HostNext s h → ∀ (m : Nat) (dwords : List Word), let r := s.lrec m
      (4095 < m ∨ dwords.length ≠ 32 → answers (.recw h m dwords) false 1 []) ∧
      (m ≤ 4095 → dwords.length = 32 → r.armed = true → answers (.recw h m dwords) false 2 []) ∧
      (m ≤ 4095 → dwords.length = 32 → r.armed = false → ∃ t, exec (.recw h m dwords) s = .next t ∧
        (t.lrec m).built = true ∧ (t.lrec m).armed = false ∧ (t.lrec m).d 14 = r.d 14 ∧
        (∀ k < 32, k ≠ 0 → k ≠ 14 → (t.lrec m).d k = dwords.getD k 0) ∧
        (∀ b < 64, b ≠ 8 → b ≠ 9 → ((t.lrec m).d 0).getLsbD b = (dwords.getD 0 0).getLsbD b) ∧
        (∀ k, k ≠ m → t.lrec k = s.lrec k) ∧ { t with recs := s.recs } = u.replies h false 0 []) ∧
      (4095 < m → answers (.recarm h m) false 3 [0x02]) ∧
      (m ≤ 4095 → r.armed = true → answers (.recarm h m) false 2 []) ∧
      (∀ j, m ≤ 4095 → r.armed = false → recordBad s m r = some j → answers (.recarm h m) false 3 [0x39]) ∧
      (m ≤ 4095 → r.armed = false → recordBad s m r = none →
        (r.gauge = true → admits s r = false → answers (.recarm h m) false 1 []) ∧
        ((r.gauge = true → admits s r = true) → ∃ t, exec (.recarm h m) s = .next t ∧ (t.lrec m).armed = true ∧
          (t.lrec m).arms = (r.arms + 1) % 2 ^ 32 ∧ (t.lrec m).completions = r.completions ∧ (t.lrec m).order = s.arms ∧
          (∀ k, k ≠ m → t.lrec k = s.lrec k) ∧ { t with recs := s.recs, arms := s.arms } = u.replies h false 0 [])))

/-- DEBUG (R379, R398, R426, R431): attach and detach, the stop and the resumption of a job or, in gauge mode, of its domain, and the
pieces of state of a held or stopped job that are read and written. RESET, power-up and the reset pin (R437 to R439). The
model's own choice in it: the items of a debugger (log 64), the statuses of what is refused (log 61), what a reset keeps (log 66), the
reset values of registers and package (logs 1 and 2) and what the firmware slots hold (log 57). -/
def Obligations.DebugAndReset : Prop :=
  ∀ (s : State) (h : HostHdr) (n c : Nat) (item : DebugItem) (v : Vec),
    let a := slotGood s.flash 0
    let b := slotGood s.flash 1
    let again (t : State) : State := t.restarted (!a && !b) (if a = false ∧ b = true then 1 else 0)
    exec .powerUp s = .next (again s) ∧
    exec .resetPin s = .next (again s) ∧
    (HostNext s h → s.recovery = false →
      let u := s.hears h
      let k := s.core c
      let jobs : List Instr := [.debugStop h n c, .debugResume h n c, .debugReadState h n c item, .debugWriteState h n c item v]
      let domain := s.domain n (dieOf c)
      let answers (i : Instr) (st : Nat) (l : List Byte) : Prop := exec i s = .next (u.replies h false st l)
      exec (.reset h) s = .next (again (u.replies h false 0 [])) ∧
      ((s.ctx n).live = false → ∀ i ∈ [Instr.debugAttach h n, .debugDetach h n] ++ jobs, answers i 1 []) ∧
      ((s.ctx n).live = true →
        (∃ t, exec (.debugAttach h n) s = .next t ∧ (∀ m, m ∈ t.attached ↔ m = n ∨ m ∈ s.attached) ∧
          { t with attached := s.attached } = u.replies h false 0 []) ∧
        (n ∉ s.attached → answers (.debugDetach h n) 1 []) ∧
        (n ∈ s.attached → ∃ t, exec (.debugDetach h n) s = .next t ∧ n ∉ t.attached ∧ (∀ x ∈ t.holds, x.ctx ≠ n) ∧
          .response h.seq 0 [] ∈ t.toHost.map HostOut.msg) ∧
        (512 ≤ c ∨ k.job = none ∨ k.ctx ≠ n → ∀ i ∈ jobs, answers i 1 []) ∧
        (c < 512 → k.job ≠ none → k.ctx = n →
          ((s.ctx n).gauge = false →
            (∃ t, exec (.debugStop h n c) s = .next t ∧ (t.core c).stopped = true ∧ t.mem = s.mem ∧
              t.toHost = (u.replies h false 0 []).toHost ∧ (∀ d, d ≠ c → t.core d = s.core d) ∧
              (t.core c).tile = k.tile ∧ (t.core c).mbox = k.mbox ∧ (t.core c).tokens = k.tokens ∧ (t.core c).q = k.q ∧
              ∀ e, ((t.core c).stream e).pc = (k.stream e).pc ∧ ((t.core c).stream e).regs = (k.stream e).regs ∧
                ((k.stream e).at_ = .free → (k.stream e).stood = none → (t.core c).stream e = k.stream e) ∧
                ∀ m, (k.stream e).at_ = .idle m → ((t.core c).stream e).at_ = .free ∧ ((t.core c).stream e).run = .running) ∧
            exec (.debugResume h n c) s = .next ((u.setCore c { k with stopped := false }).replies h false 0 [])) ∧
          ((s.ctx n).gauge = true →
            (.debug ∉ (s.cluster (clusterOf c)).frozen → ∃ t l, exec (.debugStop h n c) s = .next t ∧
              t.toHost = (u.replies h false 0 l).toHost ∧ t.mem = s.mem ∧
              (∀ d, (∀ m, (s.core d).a.at_ ≠ .awaiting m) → t.core d = s.core d) ∧
              (∀ d m, d < 512 → (s.core d).a.at_ = .awaiting m → (s.core d).job ≠ none → (s.core d).ctx = n → clusterOf d ∈ domain →
                (t.core d).a.at_ = .free ∧ (t.core d).a.run = .running ∧ ∀ x ∈ t.entries, d ∉ x.waiters) ∧
              ∀ g ∈ domain, .debug ∉ (s.cluster g).frozen →
                (t.cluster g).frozen = (s.cluster g).frozen ++ [.debug] ∧ t.localCount g = s.localCount g) ∧
            ∃ t, exec (.debugResume h n c) s = .next t ∧ t.toHost = (u.replies h false 0 []).toHost ∧ t.cores = s.cores ∧
              t.mem = s.mem ∧ ∀ g ∈ domain, .debug ∉ (t.cluster g).frozen) ∧
          (reachable s c = false → answers (.debugReadState h n c item) 1 [] ∧ answers (.debugWriteState h n c item v) 1 []) ∧
          (reachable s c = true → ∀ (e : Eng) (m : Nat) (l : List Byte),
            let writes (t : State) : Prop := exec (.debugWriteState h n c item v) s = .next (t.replies h false 0 [])
            let x : Word := v.setWidth 64
            ((item, l) ∈ [(.pc e, bytesOf 8 (k.stream e).pc.toNat), (.scalar e (m % 16), bytesOf 8 ((k.stream e).reg (m % 16)).toNat),
              (.vector (m % 32), bytesOfVec (k.vec (m % 32))), (.predicate (m % 64), bytesOf 64 (k.pred (m % 64)).toNat),
              (.half (m % 8), bytesOfVec (tget k.ms.e (m % 8) 0)),
              (.tileByte (m % 0x80000), [readB k.tile (m % 0x80000)]), (.token (m % 6), [BitVec.ofNat 8 (k.token (m % 6))]),
              (.scalarFull e (m % 16), [if m % 16 ∈ (k.stream e).empty then 0 else 1]),
              (.vectorFull (m % 32), [if k.vecFull (m % 32) = true then 1 else 0]),
              (.halfFull (m % 8), [if m % 8 ∈ k.ms.efull then 1 else 0]),
              (.accRow (m % 4) (m % 256), bytesOf 256 ((k.accTile (m % 4)).row (m % 256)).bits.toNat)] →
              answers (.debugReadState h n c item) 0 l) ∧
            (item = .pc e → v.toNat % 4 = 0 → writes (u.setStream ⟨c, e⟩ { s.stream ⟨c, e⟩ with pc := x })) ∧
            (item = .pc e → v.toNat % 4 ≠ 0 → answers (.debugWriteState h n c item v) 1 []) ∧
            (item = .scalar e m → 1 ≤ m → m < 16 →
              writes (u.setStream ⟨c, e⟩ { s.stream ⟨c, e⟩ with regs := tset (s.stream ⟨c, e⟩).regs m x })) ∧
            (item = .scalarFull e m → 1 ≤ m → m < 16 →
              (x = 1 → writes (u.setStream ⟨c, e⟩ { s.stream ⟨c, e⟩ with
                empty := (s.stream ⟨c, e⟩).empty.filter (fun r => r != m) })) ∧
              (x = 0 → writes (u.setStream ⟨c, e⟩ { s.stream ⟨c, e⟩ with
                empty := m :: (s.stream ⟨c, e⟩).empty.filter (fun r => r != m) })) ∧
              (x ≠ 0 → x ≠ 1 → answers (.debugWriteState h n c item v) 1 [])) ∧
            (item = .tileByte m → m < 0x80000 → writes (u.setCore c { k with tile := writeB k.tile m (v.setWidth 8) })) ∧
            (item = .mailbox m → m < 8 → writes (u.setCore c { k with mbox := tset k.mbox m ⟨x, false, 0, 0⟩ })) ∧
            (item = .handle m → m < 16 → x = BitVec.allOnes 64 →
              writes (u.setCore c { k with as := { k.as with h := tdel k.as.h m } })) ∧
            (item = .handle m → m < 16 → x ≠ BitVec.allOnes 64 →
              ((tfind (s.ctx n).handles x.toNat).isSome = true →
                writes (u.setCore c { k with as := { k.as with h := tset k.as.h m x.toNat } })) ∧
              (tfind (s.ctx n).handles x.toNat = none → answers (.debugWriteState h n c item v) 1 [])) ∧
            (item = .handle m → 16 ≤ m → answers (.debugWriteState h n c item v) 1 [])))))

/-! ## Heat, links and peers (R427, R441 to R447, R454, R455, R460, R464) -/

/-- The junction's levels with their messages, the packets that are dropped, the ports with their routes, and the peers: a link
that goes down takes its routes and the peers that only it reached; a peer that goes down, or comes up again as another incarnation,
fails what is outstanding to it and loses the mail that has not left. The model's own choice in it: heat levels and shutdown (log 67),
lanes and routes (log 75), the mail that is lost (log 22), a new incarnation (log 71), events that name no unit of the package (log 7),
the ports of recovery (log 60) and the cycles of the timeouts (log 70). -/
def Obligations.HeatLinksAndPeers : Prop :=
  ∀ (s : State) (port lane pkg inc tid : Nat) (ids : List Nat) (below112 below105 : Bool), s.session.phase = .opened →
    let told (u : State) (ms : List HostMsg) (t : State) : Prop :=
      t.toHost.map HostOut.msg = s.toHost.map HostOut.msg ++ ms ∧ { t with toHost := s.toHost, session := s.session } = u
    let lost (p : MboxMsg → Bool) (t : State) : Prop :=
      (∃ n, n ≤ tget s.sentMail pkg 0 ∧ t.lostMail = s.lostMail + n + (s.cores.map (fun q => (q.2.outbound.filter p).length)).sum) ∧
        tget t.sentMail pkg 0 = 0 ∧ ∀ c, t.core c = { s.core c with outbound := (s.core c).outbound.filter (fun m => !p m) }
    (s.heat = .normal → ∃ t, exec .junctionAbove105 s = .next t ∧ told { s with heat := .hot } [.thermal 1] t) ∧
    (s.heat ≠ .normal → exec .junctionAbove105 s = .next s) ∧
    (s.heat = .normal → ∃ t, exec .junctionAbove112 s = .next t ∧ told { s with heat := .hotter } [.thermal 1, .thermal 2] t) ∧
    (s.heat = .hot → ∃ t, exec .junctionAbove112 s = .next t ∧ told { s with heat := .hotter } [.thermal 2] t) ∧
    (s.heat = .hotter ∨ s.heat = .down → exec .junctionAbove112 s = .next s) ∧
    (∃ t, exec (.junctionCooling below112 below105) s = .next t ∧ { t with heat := s.heat } = s ∧
      t.heat = if s.heat = .down then .down else if below105 then .normal
        else if s.heat = .hotter ∧ below112 then .hot else s.heat) ∧
    (s.powered = false → exec .thermalShutdown s = .next s) ∧
    (s.powered = true → s.heat ≠ .down → ∃ t, exec .thermalShutdown s = .next t ∧ t.heat = .down ∧
      (∃ rest, t.toHost.map HostOut.msg = s.toHost.map HostOut.msg ++ (match s.heat with
        | .normal => [.thermal 1, .thermal 2, .thermal 3] | .hot => [.thermal 2, .thermal 3] | _ => [.thermal 3]) ++ rest) ∧
      (∀ c j, (s.core c).job = some j → (s.ctx j.ctx).live = true → (s.core c).held = false → (∀ e ∈ s.endings, e.ctx ≠ j.ctx) →
        (t.core c).job = none ∨ ∀ e ∈ j.streams, ((t.core c).stream e).run = .ended) ∧
      ((∀ p ∈ s.ctxs, p.2.live = false) → t.powered = false ∧ .hello false s.incarnation ∈ t.toFabric)) ∧
    (s.powered = true → s.heat = .down → s.endings = [] → (∀ p ∈ s.ctxs, p.2.live = false) →
      exec .thermalShutdown s = .next { s.sends (.hello false s.incarnation) with powered := false }) ∧
    (port < 4 → exec (.unsupportedDeliveryMode port) s =
      .next (if port < (if s.recovery then 1 else 4) then { s with packetDrops := s.packetDrops + 1 } else s)) ∧
    (port < 36 →
      let unrouted (t : State) : Prop := (t.port port).up = false ∧ (∀ id, port ∉ tget t.routes id []) ∧
        (∀ c, { t.core c with outbound := (s.core c).outbound } = s.core c) ∧ t.mem = s.mem ∧
        ∀ id, tget s.routes id [] = [port] → (t.peer id).up = false ∧ AllReplied t id ∧
          ∀ c, ∀ m ∈ (t.core c).outbound, m.dstPkg ≠ id
      (∃ t, exec (.linkUp port ids) s = .next t ∧ t.port port = { s.port port with up := true, lanesLost := [] } ∧
        (∀ id ∈ ids, id < 4096 → id ≠ s.pkgId → port ∈ tget t.routes id []) ∧
        { t with ports := s.ports, routes := s.routes } = s.sends (.hello true s.incarnation)) ∧
      exec (.flitReplay port) s = .next s ∧
      exec (.reservedOpMessage port) s = .next { s with fabDropped := s.fabDropped + 1 } ∧
      ((s.port port).up = false → exec (.linkDown port) s = .next s ∧ (lane < 4 → exec (.laneLockTimeout port lane) s = .next s)) ∧
      ((s.port port).up = true → s.devWrites = [] → (∃ t, exec (.linkDown port) s = .next t ∧ unrouted t) ∧
        (lane < 4 → ∃ t, exec (.laneLockTimeout port lane) s = .next t ∧ unrouted t ∧ lane ∈ (t.port port).lanesLost))) ∧
    (36 ≤ port → ∀ i ∈ [Instr.linkUp port ids, .flitReplay port, .linkDown port, .reservedOpMessage port],
      exec i s = .fault .noSuchUnit) ∧
    (∃ t, exec (.class0WindowEnd ids) s = .next t ∧ { t with ports := s.ports } = s ∧
      ∀ p < 36, t.port p = { s.port p with windows := (s.port p).windows + ids.count p }) ∧
    (pkg = s.pkgId ∨ 4096 ≤ pkg → ∀ up, exec (.hello pkg up inc) s = .next s) ∧
    (pkg ≠ s.pkgId → pkg < 4096 → s.devWrites = [] →
      (∃ t, exec (.hello pkg false inc) s = .next t ∧ (t.peer pkg).up = false ∧ AllReplied t pkg ∧ t.mem = s.mem ∧
        lost (fun m => m.dstPkg == pkg) t) ∧
      (∃ t, exec (.hello pkg true inc) s = .next t ∧ t.peer pkg = ⟨true, inc % 2 ^ 48, s.clock⟩ ∧ t.mem = s.mem ∧
        ((s.peer pkg).inc ≠ inc → AllReplied t pkg ∧ lost (fun m => m.dstPkg == pkg && m.inc != inc % 2 ^ 48) t) ∧
        ((s.peer pkg).inc = inc → t.cores = s.cores ∧ t.lostMail = s.lostMail ∧ (s.ops = [] → t.requests = s.requests)))) ∧
    (s.ops = [] → s.devWrites = [] → exec (.requestTimeout tid) s = .next { s with
      requests := s.requests.map (fun q =>
        if q.tid = tid ∧ q.sent + 130000 ≤ s.clock ∧ q.reply = none then { q with reply := some (.nack 0x48) } else q) }) ∧
    ((s.peer pkg).up = false ∨ (∀ q ∈ s.requests, q.dst = pkg → q.reply ≠ none) ∨ s.clock < (s.peer pkg).heard + 130000 →
      exec (.peerSilenceTimeout pkg) s = .next s) ∧
    ((s.peer pkg).up = true → (∃ q ∈ s.requests, q.dst = pkg ∧ q.reply = none) → (s.peer pkg).heard + 130000 ≤ s.clock →
      s.devWrites = [] → ∃ t, exec (.peerSilenceTimeout pkg) s = .next t ∧ (t.peer pkg).up = false ∧ AllReplied t pkg ∧
        t.mem = s.mem ∧ lost (fun m => m.dstPkg == pkg) t)

/-- Requests of other packages and the responses to this one's (R8, R448 to R450, R452, R453, R461, R463 to R465): what is not this
package's, the nacks, the bytes that a read answers, a write and an atomic store, the release that is held until it is cleared, the
response that completes its request, the response that comes too late, and mail that arrives or leaves with the clear of a release. The
model's own choice in it: how requests are refused (log 72) and releases carried (log 74), and that mail for another incarnation is
dropped (log 22). -/
def Obligations.RequestsAreServed : Prop :=
  ∀ (s : State) (r : FabReq) (tid cause core : Nat) (data : List Byte) (m : MboxMsg),
    let home := if r.rep then replicaOf (dieOf r.core) r.pa else r.pa
    let nack (c : Nat) : State := s.sends (.nack r.srcPkg r.tid c)
    let requests : List Instr := [.readRequest r, .writeRequest r, .atomicRequest r]
    let stored (t : State) (v : List Byte) : Prop := ∀ a, readB t.mem a =
      if r.pa ≤ a ∧ a < r.pa + r.size then v.getD (a - r.pa) 0 else readB s.mem a
    let done (t : State) (x : FabMsg) : Prop := t.toFabric = s.toFabric ++ [x] ∧ t.cores = s.cores ∧ t.requests = s.requests
    (r.dstPkg ≠ s.pkgId ∨ r.srcPkg = s.pkgId → ∀ i ∈ requests, exec i s = .next s) ∧
    (r.dstPkg = s.pkgId → r.srcPkg ≠ s.pkgId → r.inc % 65536 ≠ s.incarnation % 65536 → ∀ i ∈ requests, exec i s = .next (nack 0x48)) ∧
    (Reaches s r → (assigned home = false ∨ rangeEnd home < home + r.size) → ∀ i ∈ requests, exec i s = .next (nack 0x10)) ∧
    (Reaches s r → assigned home = true → home + r.size ≤ rangeEnd home →
      (∀ c, readBad s home r.size = some c → exec (.readRequest r) s = .next (nack c)) ∧
      (readBad s home r.size = none → ∃ t, exec (.readRequest r) s = .next t ∧ t.mem = s.mem ∧
        done t (.data r.srcPkg r.tid (readBytes s.mem home r.size))) ∧
      (r.rep = false → s.mem.wf = true →
        (storeBad s r.pa r.size = true → exec (.writeRequest r) s = .next (nack 0x50) ∧
          (r.epoch = 0 → exec (.atomicRequest r) s = .next (nack 0x50))) ∧
        (storeBad s r.pa r.size = false → r.data.length = r.size →
          ∃ t, exec (.writeRequest r) s = .next t ∧ stored t r.data ∧ done t (.ack r.srcPkg r.tid)) ∧
        (r.epoch = 0 → storeBad s r.pa r.size = false →
          (∀ c, readBad s r.pa r.size = some c → exec (.atomicRequest r) s = .next (nack c)) ∧
          (readBad s r.pa r.size = none →
            let old := natOf (readBytes s.mem r.pa r.size)
            let b := BitVec.ofNat 64 (natOf (r.data.take r.size))
            let op := if r.op = 15 then AmoOp.cas b (BitVec.ofNat 64 (natOf (r.data.drop r.size))) else .rmw r.op b
            ∃ t, exec (.atomicRequest r) s = .next t ∧ done t (.data r.srcPkg r.tid (readBytes s.mem r.pa r.size)) ∧
              stored t (bytesOf r.size (amoNew r.size op old)))) ∧
        (r.epoch ≠ 0 → s.clears = [] →
          exec (.atomicRequest r) s = .next { s with releases := s.releases ++ [.atomic r] }))) ∧
    ((∀ q ∈ s.requests, q.tid = tid → q.reply ≠ none) →
      let late : State := { s with lateResponses := s.lateResponses + 1 }
      exec (.readResponse tid data) s = .next late ∧ exec (.acknowledgement tid) s = .next late ∧
        (cause ∈ causeCodes → exec (.nack tid cause) s = .next late)) ∧
    (cause ∉ causeCodes → exec (.nack tid cause) s = .next s) ∧
    (∀ q, s.requests.find? (fun q => q.tid == tid && q.reply.isNone) = some q → s.ops = [] → s.devWrites = [] →
      let replied (x : Reply) : State := { s with
        requests := s.requests.map (fun p => if p = q then { p with reply := some x } else p),
        peers := tset s.peers q.dst { s.peer q.dst with heard := s.clock } }
      let misfit : State := { s with fabDropped := s.fabDropped + 1 }
      exec (.readResponse tid data) s = .next (if q.len = data.length then replied (.data data) else misfit) ∧
      exec (.acknowledgement tid) s = .next (if q.write then replied .ack else misfit) ∧
      (cause ∈ causeCodes → exec (.nack tid cause) s = .next (replied (.nack cause)))) ∧
    (m.dstPkg ≠ s.pkgId ∨ m.srcPkg = s.pkgId ∨ 512 ≤ m.dstCore ∨ m.inc % 65536 ≠ s.incarnation % 65536 →
      exec (.mailboxWrite (some m) core) s = .next s) ∧
    (m.dstPkg = s.pkgId → m.srcPkg ≠ s.pkgId → m.dstCore < 512 → m.inc % 65536 = s.incarnation % 65536 →
      (m.rel = 0 → exec (.mailboxWrite (some m) core) s = .next { s with inbound := s.inbound ++ [m] }) ∧
      (m.rel ≠ 0 → s.clears = [] → exec (.mailboxWrite (some m) core) s = .next { s with releases := s.releases ++ [.mail m] })) ∧
    (core < 512 → (∀ x ∈ (s.core core).outbound, x.dstPkg = s.pkgId) → exec (.mailboxWrite none core) s = .next s) ∧
    (∀ i, core < 512 → firstAway s (s.core core).outbound = some (i, m) →
      let v := s.setCore core { s.core core with outbound := ldel (s.core core).outbound i }
      let u : State := { v with sentMail := tset s.sentMail m.dstPkg (tget s.sentMail m.dstPkg 0 + 1) }
      ((s.peer m.dstPkg).up = false → exec (.mailboxWrite none core) s = .next { v with lostMail := s.lostMail + 1 }) ∧
      ((s.peer m.dstPkg).up = true →
        (m.rel = 0 ∨ (∃ x ∈ s.relActs, x.core = core ∧ x.epoch + 1 = m.rel) →
          exec (.mailboxWrite none core) s = .next (u.sends (.mailbox m))) ∧
        (m.rel ≠ 0 → (∀ x ∈ s.relActs, x.core = core → x.epoch + 1 ≠ m.rel) →
          exec (.mailboxWrite none core) s = .next ((u.sends (.mailbox m)).sends (.clear m.dstPkg core (m.rel - 1))))))

/-- Releases, fabric barriers, dispatch and heartbeats (R416, R418, R419, R448, R456 to R459, R465, R469): a held release is performed once
it is cleared and never once it is cancelled; the leader releases a barrier once every package of the launch has arrived, and ends
the launch once every part has ended, also where its own context has ended; a die that is granted places reserves and acknowledges them and
starts its jobs when told; a die's heartbeat goes to other packages under feature bit 8; a die without one for 30 µs has failed, and its
jobs end. The model's own choice in it: grants and starts (log 55), heartbeats (log 70) and releases (log 74). -/
def Obligations.ReleasesAndDispatch : Prop :=
  ∀ (s : State) (pkg core epoch record die engines k count first : Nat) (cores : List Nat),
    (pkg ≠ s.pkgId →
      (s.releases.find? (Release.is pkg core epoch) = none →
        exec (.releaseClear pkg core epoch) s = .next { s with clears := (pkg, core, epoch, true) :: s.clears } ∧
        exec (.releaseCancel pkg core epoch) s = .next { s with clears := (pkg, core, epoch, false) :: s.clears }) ∧
      (∀ x, s.releases.find? (Release.is pkg core epoch) = some x →
        (∀ m, x = .mail m → m.dstPkg = s.pkgId → exec (.releaseClear pkg core epoch) s =
          .next { s with releases := s.releases.filter (fun y => y != x), inbound := s.inbound ++ [m] }) ∧
        (∀ r, x = .atomic r → storeBad s r.pa r.size = false → readBad s r.pa r.size = none →
          ∃ t, exec (.releaseClear pkg core epoch) s = .next t ∧ t.releases = s.releases.filter (fun y => y != x) ∧
            t.toFabric = s.toFabric ++ [.data r.srcPkg r.tid (readBytes s.mem r.pa r.size)] ∧
            ∀ a, a < r.pa ∨ r.pa + r.size ≤ a → readB t.mem a = readB s.mem a) ∧
        exec (.releaseCancel pkg core epoch) s =
          .next { s with releases := s.releases.filter (fun y => !Release.is pkg core epoch y) })) ∧
    ((∃ x ∈ s.relActs, x.core = core ∧ x.epoch = epoch) → exec (.releaseClear s.pkgId core epoch) s = .next s) ∧
    (∀ m, (∀ x ∈ s.relActs, x.core = core → x.epoch ≠ epoch) → s.releases.find? (Release.is s.pkgId core epoch) = some (.mail m) →
      m.dstPkg = s.pkgId → m.dstCore = core →
      (s.still core = true → exec (.releaseClear s.pkgId core epoch) s = .next s) ∧
      (s.still core = false → exec (.releaseClear s.pkgId core epoch) s =
        .next (({ s with releases := s.releases.filter (fun y => y != .mail m) } : State).setCore core
          { s.core core with mbox := tset (s.core core).mbox m.mbox (mailVal m) }))) ∧
    exec (.releaseCancel s.pkgId core epoch) s = .next s ∧
    (s.known? record = none →
      (leftFor s pkg record count = none → exec (.fabricBarrierArrival pkg record engines k count) s = .next s) ∧
      exec (.fabricBarrierRelease record k) s = .next s ∧ exec (.dispatchStart record die) s = .next s) ∧
    (∀ l, leftFor s pkg record count = some l → ∃ t, exec (.fabricBarrierArrival pkg record engines 0 count) s = .next t ∧
      t.cores = s.cores ∧ t.mem = s.mem ∧
      ((∀ p ∈ l.packages, p = pkg ∨ p ∈ l.endedOn) → t.leftLaunches = s.leftLaunches.filter (fun x => x != l) ∧
        ∀ p ∈ l.packages, p ≠ s.pkgId → .barRelease p record 0 ∈ t.toFabric) ∧
      ((∃ p ∈ l.packages, p ≠ pkg ∧ p ∉ l.endedOn) → t.toFabric = s.toFabric)) ∧
    (∀ l, s.launches.find? (fun l => l.record == record) = some l →
      let given : Prop := die % 4 ∈ l.due ∨ (l.packages.headD s.pkgId ≠ s.pkgId ∧ ∃ g ∈ l.grants, g.die = die ∧ g.acked = true)
      let here : Prop := leftFor s pkg record count = none
      (here → l.leader s ≠ s.pkgId ∨ pkg ∉ l.packages ∨ pkg = s.pkgId →
        exec (.fabricBarrierArrival pkg record engines k count) s = .next s) ∧
      (l.leader s = s.pkgId → pkg ∈ l.packages → pkg ≠ s.pkgId → (∀ b ∈ l.remoteBars, ¬ (b.1 = pkg ∧ b.2.2.1 = k)) →
        ∃ t l', exec (.fabricBarrierArrival pkg record engines (k + 1) count) s = .next t ∧
          t.launches.find? (fun l => l.record == record) = some l' ∧ l'.remoteBars = l.remoteBars ++ [(pkg, engines, k, count)] ∧
          t.cores = s.cores ∧ t.mem = s.mem ∧
          ((∀ p ∈ l.packages, p = pkg ∨ ∃ b ∈ l.remoteBars, b.1 = p ∧ b.2.2.1 = k) → l'.released = k :: l.released ∧
            ∀ p ∈ l.packages, p ≠ s.pkgId → .barRelease p record (k + 1) ∈ t.toFabric) ∧
          ((∃ p ∈ l.packages, p ≠ pkg ∧ ∀ b ∈ l.remoteBars, ¬ (b.1 = p ∧ b.2.2.1 = k)) → l'.released = l.released ∧
            t.toFabric = s.toFabric)) ∧
      (here → l.leader s = s.pkgId → (l.wave ≠ count ∨ pkg ∈ l.endedOn) →
        exec (.fabricBarrierArrival pkg record engines 0 count) s = .next s) ∧
      (here → l.leader s = s.pkgId → pkg ∈ l.packages → pkg ≠ s.pkgId → pkg ∉ l.endedOn → l.wave = count →
        (l.sent = false ∨ ∀ p ∈ l.packages, p = pkg ∨ p ∈ l.endedOn) → (s.lrec record).waves ≤ l.wave + 1 →
        ∃ t, exec (.fabricBarrierArrival pkg record engines 0 count) s = .next t ∧ (∀ x ∈ t.launches, x.record ≠ record) ∧
          (t.lrec record).completions = ((s.lrec record).completions + 1) % 2 ^ 32 ∧ (t.lrec record).armed = false ∧
          ∀ p ∈ l.packages, p ≠ s.pkgId → .barRelease p record 0 ∈ t.toFabric) ∧
      (l.packages.length ≤ 1 ∨ l.leader s = s.pkgId → exec (.fabricBarrierRelease record k) s = .next s) ∧
      (1 < l.packages.length → l.leader s ≠ s.pkgId →
        (exec (.fabricBarrierRelease record (k + 1)) s = .next (s.mapLaunch record (fun l => { l with released := k :: l.released }))) ∧
        ∃ t, exec (.fabricBarrierRelease record 0) s = .next t ∧ (∀ x ∈ t.launches, x.record ≠ record) ∧
          (t.lrec record).completions = ((s.lrec record).completions + 1) % 2 ^ 32 ∧ (t.lrec record).armed = false) ∧
      (die / 4 ≠ s.pkgId ∨ ¬ given ∨ die % 4 ∈ l.begun ∨ l.loaded = none → exec (.dispatchStart record die) s = .next s) ∧
      (∀ tile img, die / 4 = s.pkgId → given → die % 4 ∉ l.begun → l.loaded = some (tile, img) → s.whole record = true →
        (∀ p ∈ l.cores, dieOf p.1 = die % 4 → (s.core p.1).job = none ∧ (s.core p.1).held = false) →
        (l.cores.map Prod.fst).Nodup →
        let r := s.lrec record
        ∃ t, exec (.dispatchStart record die) s = .next t ∧
          (∀ d, d ∉ l.cores.map Prod.fst ∨ dieOf d ≠ die % 4 ∨ d ∈ l.done → t.core d = s.core d) ∧
          ∀ p ∈ l.cores, dieOf p.1 = die % 4 → p.1 ∉ l.done → ∃ j, (t.core p.1).job = some j ∧ j.record = record ∧ j.ctx = r.ctx ∧
            j.lidx = inWave r p.2 l.wave ∧ (t.core p.1).tile = tile ∧ ∀ e, r.code e ≠ 0 →
              ((t.core p.1).stream e).run = .running ∧ ((t.core p.1).stream e).pc = r.code e &&& ~~~(3 : Word)) ∧
      (l.leader s = s.pkgId →
        (die / 4 ≠ s.pkgId → ∃ t l', exec (.dispatchAcknowledgement record die) s = .next t ∧ { t with launches := s.launches } = s ∧
          t.launches.find? (fun l => l.record == record) = some l' ∧
          l' = { l with grants := l.grants.map (fun g => if g.die = die then { g with acked := true } else g) }) ∧
        (die / 4 = s.pkgId → cores ≠ [] → (∀ c ∈ cores, c < 512 ∧ dieOf c = die % 4) → s.dieFailed (die % 4) = true →
          exec (.dispatchGrant record die first cores) s = .next s) ∧
        (die / 4 = s.pkgId → cores ≠ [] → (∀ c ∈ cores, c < 512 ∧ dieOf c = die % 4) → rangeFree s cores = true →
          s.dieFailed (die % 4) = false → ∃ t l', exec (.dispatchGrant record die first cores) s = .next t ∧
            { t with launches := s.launches } = s ∧
            t.launches.find? (fun l => l.record == record) = some l' ∧
            l' = { l with grants := l.grants.map (fun g =>
              if g.die = die ∧ g.first = first ∧ g.cores = cores then { g with acked := true } else g) }))) ∧
    (die / 4 = s.pkgId → exec (.dispatchAcknowledgement record die) s = .next s) ∧
    (let r := s.lrec record;
      (cores = [] ∨ (s.launches.find? (fun l => l.record == record) = none ∧ r.packages ≤ 1) →
        exec (.dispatchGrant record die first cores) s = .next s) ∧
      (die / 4 = s.pkgId → 1 < r.packages → cores ≠ [] → (∀ c ∈ cores, c < 512 ∧ dieOf c = die % 4) →
        s.launches.find? (fun l => l.record == record) = none →
        (readyHere s record = false → exec (.dispatchGrant record die first cores) s = .next s) ∧
        (readyHere s record = true → savedOf s record = none →
          let fits (gone : List Nat) : Bool := cores.all (coreFits s gone (needed s record) r.gauge)
          (fits [] = false → enoughVictims fits (victims s record) = none →
            exec (.dispatchGrant record die first cores) s = .next s) ∧
          (fits [] = true → toChange s r.gauge (unitsAmong 2 cores []) = [] → r.d 9 = 0 → r.d 11 = 0 → s.failedDies = [] →
            0 < rankOf r first → rankOf r first ≤ s.pkgId →
            ∃ t l, exec (.dispatchGrant record die first cores) s = .next t ∧ t.launches = s.launches ++ [l] ∧ l.record = record ∧
              l.started = false ∧ l.cores.map Prod.fst = cores ∧ l.grants = [⟨die, first, cores, true⟩] ∧ t.cores = s.cores ∧
              t.mem = s.mem ∧ t.toFabric = s.toFabric ++ [.grantAck (s.pkgId - rankOf r first) record die])))) ∧
    (exec (.heartbeat die) s = .next { s with
      beats := tset s.beats die s.clock,
      peers := if die / 4 = s.pkgId then s.peers else tset s.peers (die / 4) { s.peer (die / 4) with heard := s.clock } }) ∧
    (die < 4 → let n := s.pkgId * 4 + die;
      (n ∈ s.failedDies ∨ s.powered = false → exec (.heartbeatTimer die) s = .next s) ∧
      (n ∉ s.failedDies → s.powered = true → let u : State := { s with beats := tset s.beats n s.clock }
        exec (.heartbeatTimer die) s = .next (if s.accepted.getLsbD 8 = true then u.sends (.heartbeat n) else u))) ∧
    (let last := tget s.beats die 0;
      (die ∈ s.failedDies ∨ s.clock < last + 39000 → exec (.dieFailureTimeout die) s = .next s) ∧
      (die ∉ s.failedDies → last + 39000 ≤ s.clock → s.session.phase = .opened →
        ∃ t, exec (.dieFailureTimeout die) s = .next t ∧ t.failedDies = die :: s.failedDies ∧
          (∃ rest, t.toHost.map HostOut.msg = s.toHost.map HostOut.msg ++ .dieFailed die last :: rest) ∧
          (die / 4 ≠ s.pkgId → t.cores = s.cores) ∧
          (die / 4 = s.pkgId → ∀ c, dieOf c = die % 4 → (t.core c).job = none)))

/-! ## The encoding and memory, for every instruction (R35, R40 to R51, R56 to R59, R61) -/

/-- DECODE AND ENCODE AGREE. Every well-formed instruction has one word, or two where bits [31:30] of the first are 11; the decoder
reads no other instruction from them; and in supervisor mode, in rib mode, with every feature accepted, it reads that
instruction, if the form accepts the profile it resolves to. -/
def Obligations.EncodeThenDecode : Prop :=
  ∀ (e : Eng) (i : Instr) (w1 : Nat) (rest : List Nat), i.wf e = true → encode i = w1 :: rest → (∀ n, i ≠ .unassignedMajor n) →
    let w2 := rest.headD 0
    w1 < 2 ^ 32 ∧ w2 < 2 ^ 32 ∧ rest.length = (if 3 * 2 ^ 30 ≤ w1 then 1 else 0) ∧
    (∀ c j, c.eng = e → decodeWords c w1 w2 = .ok j → j = i) ∧
    (∀ c, c.eng = e → c.user = false → c.gauge = false → c.accepted = BitVec.allOnes 256 → profileFits c i = true →
      decodeWords c w1 w2 = .ok i)

/-- AN INVARIANT THAT EVERY STEP KEEPS: memory, the tile stores and those of the lifelines stay in the canonical form, so that
equal contents are equal data. The model's own choice in it: that bytes which nothing has written read 0 (log 76), so that the
canonical form lists no 0. -/
def Obligations.StepKeepsMemoryCanonical : Prop :=
  ∀ s t : State, Canonical s → step s = .next t → Canonical t
end

