-- ==== Sys2Proof/Laws/Access.lean ====
section
/-! SUPPORT. What reading the parts of an access can do. -/

namespace Sys2Proof.Machine

theorem countReads_frame (l : List Nat) (s : State) : ∃ x, countReads l s = { s with counters := x } := by
  induction l generalizing s with
  | nil => exact ⟨s.counters, rfl⟩
  | cons a t ih =>
    obtain ⟨x, hx⟩ := ih (s.count (ctrRead (homeDie a) (tagOf s a)) 1)
    exact ⟨x, hx⟩

theorem readLocal_frame (s : State) (pa n : Nat) : ∃ x, readLocal s pa n = (readBytes s.mem pa n, { s with counters := x }) := by
  unfold readLocal
  split
  · obtain ⟨x, hx⟩ := countReads_frame (linesOf pa n) s
    exact ⟨x, by rw [hx]⟩
  · exact ⟨s.counters, rfl⟩

/-- Without an error mark, and without a tag, no read meets an error. -/
theorem badAt_of_clean {s : State} (h : s.badMem = []) (ht : s.tags = []) (pa n : Nat) : badAt s pa n = none := by
  have hs : sectorBad s = fun _ => false := by
    funext x
    simp [sectorBad, lineBad, h, tagOf, ht, tget, tfind]
  unfold badAt
  split <;> simp [hs, h]

/-- Parts of this package's memory, without an error mark and outside the deterministic buffer, are read as memory holds them; only
the counters of the line reads move. -/
theorem gather_local {c : Nat} {owner : Owner} {segs : List Seg} {s : State} (hb : s.badMem = []) (ht : s.tags = [])
    (hl : ∀ g ∈ segs, g.home = .local ∧ buffers s c g = false) :
    ∃ x, gather c owner segs s = .ok (segs.flatMap (fun g => readBytes s.mem g.addr g.len)) { s with counters := x } := by
  induction segs generalizing s with
  | nil => exact ⟨s.counters, rfl⟩
  | cons g rest ih =>
    obtain ⟨hh, hf⟩ := hl g (by simp)
    obtain ⟨x, hx⟩ := readLocal_frame s g.addr g.len
    obtain ⟨y, hy⟩ := ih (s := { s with counters := x }) hb ht (fun a ha => hl a (by simp [ha]))
    exact ⟨y, by simp [gather, Seg.isRemote, hh, badSegs, badAt_of_clean hb ht, readSeg, hf, hx, hy]⟩

end Sys2Proof.Machine
end

