-- ==== Sys2Proof/Laws/Anchored.lean ====
section
/-! SUPPORT. The anchored sum of VRED (R93) never saturates its windows (R76): the anchor stands 16 below the largest binary exponent, so
that each of at most 512 terms is below 2^82 units. -/

namespace Sys2Proof.Machine

/-- The binary exponent of a finite value other than zero is at most `a`. -/
def ExpLe (t : Num) (a : Int) : Prop :=
  match t with
  | .fin _ m e => m ≠ 0 → e + (Nat.log2 m : Nat) ≤ a
  | _ => True

/-- A finite magnitude that bounds the exponent of a value. -/
def Tops (x t : Num) : Prop := (∃ m e, x = .fin false m e) ∧ ExpLe t x.ilog2 ∧ ∀ n m e, t = .fin n m e → m ≠ 0 → x.isZero = false

theorem log2_le_of_scaled {m n i j : Nat} (hm : m ≠ 0) (h : m * 2 ^ i ≤ n * 2 ^ j) :
    n ≠ 0 ∧ Nat.log2 m + i ≤ Nat.log2 n + j := by
  have hp : 0 < m * 2 ^ i := by positivity
  have hn : n ≠ 0 := by rintro rfl; simp at h; omega
  refine ⟨hn, ?_⟩
  have h1 : 2 ^ Nat.log2 m ≤ m := Nat.log2_self_le hm
  have h2 : n < 2 ^ (Nat.log2 n + 1) := Nat.lt_log2_self
  have h3 : 2 ^ (Nat.log2 m + i) < 2 ^ (Nat.log2 n + 1 + j) := by
    calc 2 ^ (Nat.log2 m + i) = 2 ^ Nat.log2 m * 2 ^ i := Nat.pow_add ..
      _ ≤ m * 2 ^ i := Nat.mul_le_mul_right _ h1
      _ ≤ n * 2 ^ j := h
      _ < 2 ^ (Nat.log2 n + 1) * 2 ^ j := Nat.mul_lt_mul_of_pos_right h2 (by positivity)
      _ = 2 ^ (Nat.log2 n + 1 + j) := (Nat.pow_add ..).symm
  have := (Nat.pow_lt_pow_iff_right (by decide : 1 < 2)).mp h3
  omega

/-- What the order of two magnitudes says of their exponents. -/
theorem exp_le_of_scaled {m n : Nat} {d e : Int} (hm : m ≠ 0)
    (h : m * 2 ^ (d - min d e).toNat ≤ n * 2 ^ (e - min d e).toNat) :
    n ≠ 0 ∧ d + (Nat.log2 m : Nat) ≤ e + (Nat.log2 n : Nat) := by
  obtain ⟨hn, hl⟩ := log2_le_of_scaled hm h
  exact ⟨hn, by omega⟩

theorem tops_maxMag {x y : Num} (hx : ∃ m e, x = .fin false m e) :
    Tops (x.maxMag y) y ∧ ∀ t, Tops x t → Tops (x.maxMag y) t := by
  obtain ⟨m, d, rfl⟩ := hx
  cases y with
  | nan => exact ⟨⟨⟨m, d, rfl⟩, trivial, by simp⟩, fun _ h => h⟩
  | inf b => exact ⟨⟨⟨m, d, rfl⟩, trivial, by simp⟩, fun _ h => h⟩
  | fin b n e =>
    rcases Nat.eq_zero_or_pos n with rfl | hn
    · refine ⟨⟨⟨m, d, rfl⟩, by simp [ExpLe], ?_⟩, fun _ h => h⟩
      rintro _ _ _ ⟨⟩ h
      exact absurd rfl h
    · have hn0 : n ≠ 0 := by omega
      have hmag : (Num.fin false m d).maxMag (.fin b n e) =
          if (Num.fin false m d).cmp (.fin false n e) == .lt then .fin false n e else .fin false m d := by
        cases n with
        | zero => omega
        | succ n => rfl
      rw [hmag]
      have hc : (Num.fin false m d).cmp (.fin false n e) =
          compare ((m * 2 ^ (d - min d e).toNat : Nat) : Int) ((n * 2 ^ (e - min d e).toNat : Nat) : Int) := by
        simp [Num.cmp, scaledInt]
      by_cases h : (Num.fin false m d).cmp (.fin false n e) == .lt
      · rw [if_pos h]
        have hlt : m * 2 ^ (d - min d e).toNat ≤ n * 2 ^ (e - min d e).toNat := by
          rw [hc, beq_iff_eq, compare_lt_iff_lt] at h
          exact_mod_cast h.le
        refine ⟨⟨⟨n, e, rfl⟩, ?_, ?_⟩, ?_⟩
        · intro _; exact le_refl _
        · rintro _ _ _ ⟨⟩ _; simpa [Num.isZero] using hn0
        · rintro t ⟨-, ht, hz⟩
          refine ⟨⟨n, e, rfl⟩, ?_, fun _ _ _ _ _ => by simpa [Num.isZero] using hn0⟩
          cases t with
          | nan => trivial
          | inf _ => trivial
          | fin b' k f =>
            intro hk
            have hm0 : m ≠ 0 := by simpa [Num.isZero] using hz _ _ _ rfl hk
            have h1 := ht hk
            have h2 := (exp_le_of_scaled hm0 hlt).2
            simp only [Num.ilog2] at h1 ⊢
            omega
      · rw [if_neg h]
        have hle : n * 2 ^ (e - min e d).toNat ≤ m * 2 ^ (d - min e d).toNat := by
          rw [hc, beq_iff_eq, compare_lt_iff_lt] at h
          rw [min_comm e d]
          exact_mod_cast not_lt.mp h
        obtain ⟨hm0, h2⟩ := exp_le_of_scaled hn0 hle
        refine ⟨⟨⟨m, d, rfl⟩, fun _ => h2, fun _ _ _ _ _ => by simpa [Num.isZero] using hm0⟩, fun _ h => h⟩

theorem tops_foldl (ts : List Num) (x : Num) (hx : ∃ m e, x = .fin false m e) :
    (∃ m e, ts.foldl Num.maxMag x = .fin false m e) ∧ (∀ t, Tops x t → Tops (ts.foldl Num.maxMag x) t) ∧
      ∀ t ∈ ts, Tops (ts.foldl Num.maxMag x) t := by
  induction ts generalizing x with
  | nil => exact ⟨hx, fun _ h => h, by simp⟩
  | cons y ts ih =>
    obtain ⟨h1, h2⟩ := tops_maxMag (y := y) hx
    obtain ⟨i1, i2, i3⟩ := ih (x.maxMag y) h1.1
    refine ⟨i1, fun t h => i2 t (h2 t h), ?_⟩
    intro t ht
    rcases List.mem_cons.mp ht with rfl | ht
    · exact i2 _ h1
    · exact i3 t ht

/-- The largest finite magnitude of a list bounds the exponents of all of its members. -/
theorem tops_maxFinite {ts : List Num} {t : Num} (h : t ∈ ts) : Tops (maxFinite ts) t :=
  (tops_foldl ts _ ⟨0, 0, rfl⟩).2.2 t h

theorem roundMag_le {r : RMode} {neg : Bool} {m : Nat} {e : Int} {b : Nat} (h : e + (Nat.log2 m : Nat) < b) :
    (roundMag r neg m e 0).1 ≤ 2 ^ b := by
  have hlt : m < 2 ^ (Nat.log2 m + 1) := Nat.lt_log2_self
  by_cases he : 0 ≤ e
  · have hb : Nat.log2 m + 1 + (e - 0).toNat ≤ b := by omega
    simp only [roundMag, he, if_true]
    calc m * 2 ^ (e - 0).toNat ≤ 2 ^ (Nat.log2 m + 1) * 2 ^ (e - 0).toNat := Nat.mul_le_mul_right _ hlt.le
      _ = 2 ^ (Nat.log2 m + 1 + (e - 0).toNat) := (Nat.pow_add ..).symm
      _ ≤ 2 ^ b := Nat.pow_le_pow_right (by decide) hb
  · simp only [roundMag, he, if_false]
    have hq : m / 2 ^ (0 - e).toNat < 2 ^ b := by
      rw [Nat.div_lt_iff_lt_mul (by positivity), ← Nat.pow_add]
      exact lt_of_lt_of_le hlt (Nat.pow_le_pow_right (by decide) (by omega))
    split
    · exact hq.le
    · dsimp only
      split <;> omega

/-- A term of a sum that is anchored at the largest exponent less 16 is at most 2^81 units. -/
theorem ancUnits_le {ts : List Num} {t : Num} (h : t ∈ ts) : (ancUnits (anchorOf ts) t).natAbs ≤ 2 ^ 81 := by
  obtain ⟨⟨M, E, hx⟩, hle, hz⟩ := tops_maxFinite h
  cases t with
  | nan => simp [ancUnits]
  | inf _ => simp [ancUnits]
  | fin b m e =>
    have hk : (roundMag rmRne b m (e + 64 - anchorOf ts) 0).1 ≤ 2 ^ 81 := by
      rcases Nat.eq_zero_or_pos m with rfl | hm
      · simp only [roundMag]
        split <;> simp
      · have hm0 : m ≠ 0 := by omega
        have h1 := hle hm0
        have h2 := hz _ _ _ rfl hm0
        apply roundMag_le
        simp only [anchorOf, h2, Bool.false_eq_true, if_false]
        omega
    simp only [ancUnits]
    split <;> simpa using hk

theorem ancSum_step {a : Int} {c : AncCell} {t : Num} {B : Nat} (hc : c.n.natAbs ≤ B) (ht : (ancUnits a t).natAbs ≤ 2 ^ 81)
    (hB : B + 2 ^ 81 < 2 ^ 95) : (c.add a t).1.n.natAbs ≤ B + 2 ^ 81 ∧ (c.add a t).2 &&& fAovf = 0 := by
  cases t with
  | nan => exact ⟨by simp only [AncCell.add]; omega, by simp [AncCell.add]⟩
  | inf b =>
    constructor
    · simp only [AncCell.add]
      split <;> (try split) <;> dsimp only <;> omega
    · simp only [AncCell.add]
      split <;> (try split) <;> first | exact BitVec.zero_and | exact (by decide : fNv &&& fAovf = 0)
  | fin b m e =>
    have h1 : ¬ c.n + ancUnits a (.fin b m e) > 2 ^ 95 - 1 := by omega
    have h2 : ¬ c.n + ancUnits a (.fin b m e) < -(2 ^ 95) := by omega
    simp only [AncCell.add, if_neg h1, if_neg h2]
    exact ⟨by omega, by simp⟩

theorem or_and_zero {x y z : Word} (hx : x &&& z = 0) (hy : y &&& z = 0) : (x ||| y) &&& z = 0 := by
  rw [BitVec.and_comm, BitVec.and_or_distrib_left, BitVec.and_comm z x, BitVec.and_comm z y, hx, hy]
  rfl

theorem ancSum_foldl (a : Int) (ts : List Num) (c : AncCell) (fl : Word) (B : Nat) (hc : c.n.natAbs ≤ B) (hf : fl &&& fAovf = 0)
    (hts : ∀ t ∈ ts, (ancUnits a t).natAbs ≤ 2 ^ 81) (hB : B + ts.length * 2 ^ 81 < 2 ^ 95) :
    (ts.foldl (fun acc t => let (c', fl) := AncCell.add a acc.1 t; (c', acc.2 ||| fl)) (c, fl)).2 &&& fAovf = 0 := by
  induction ts generalizing c fl B with
  | nil => exact hf
  | cons t ts ih =>
    rw [List.length_cons, Nat.add_mul, Nat.one_mul] at hB
    obtain ⟨h1, h2⟩ := ancSum_step hc (hts t (by simp))
      (lt_of_le_of_lt (Nat.add_le_add_left (Nat.le_add_left _ _) _) hB)
    exact ih _ _ (B + 2 ^ 81) h1 (or_and_zero hf h2) (fun u hu => hts u (by simp [hu]))
      (by rwa [Nat.add_assoc, Nat.add_comm (2 ^ 81)])

/-- A sum of at most 512 terms that is anchored by R93 saturates nothing. -/
theorem ancSum_anchored {ts : List Num} (h : ts.length ≤ 512) : (ancSum (anchorOf ts) AncCell.zero ts).2 &&& fAovf = 0 :=
  ancSum_foldl _ ts _ 0 0 (by simp [AncCell.zero]) (by simp) (fun _ ht => ancUnits_le ht) (by omega)

theorem round_no_aovf (f : Fmt) (r : RMode) (sat : Bool) (x : Num) : (f.round r sat x).2 &&& fAovf = 0 := by
  cases x with
  | nan => simp [Fmt.round]
  | inf b =>
    simp only [Fmt.round]
    split <;> exact BitVec.zero_and
  | fin b m e =>
    simp only [Fmt.round]
    split
    · exact BitVec.zero_and
    · split
      · exact (by decide : (fOf ||| fNx) &&& fAovf = 0)
      · split
        · split
          · exact (by decide : (fUf ||| fNx) &&& fAovf = 0)
          · exact (by decide : fNx &&& fAovf = 0)
        · exact BitVec.zero_and

theorem add_no_aovf (x y : Num) : (Num.add false x y).flags &&& fAovf = 0 := by
  cases x <;> cases y <;> simp only [Num.add] <;> (try split) <;>
    first | exact BitVec.zero_and | exact (by decide : fNv &&& fAovf = 0)

theorem addRne_no_aovf {x y : NumF} (hx : x.flags &&& fAovf = 0) (hy : y.flags &&& fAovf = 0) : (addRne x y).flags &&& fAovf = 0 :=
  or_and_zero (or_and_zero hx hy) (or_and_zero (add_no_aovf x.val y.val) (round_no_aovf _ _ _ _))

theorem pairLevel_all {α : Type} {P : α → Prop} {op : α → α → α} (h : ∀ x y, P x → P y → P (op x y)) :
    ∀ l : List α, (∀ x ∈ l, P x) → ∀ x ∈ pairLevel op l, P x
  | [], _, _, hx => by simp [pairLevel] at hx
  | [y], hl, x, hx => hl x (by simpa [pairLevel] using hx)
  | y :: z :: l, hl, x, hx => by
    rcases List.mem_cons.mp hx with rfl | hx
    · exact h _ _ (hl _ (by simp)) (hl _ (by simp))
    · exact pairLevel_all h l (fun u hu => hl u (by simp [hu])) x hx

theorem treeReduce_all {α : Type} {P : α → Prop} {op : α → α → α} (h : ∀ x y, P x → P y → P (op x y)) (n : Nat) (l : List α)
    (hl : ∀ x ∈ l, P x) : ∀ x ∈ treeReduce op n l, P x := by
  induction n generalizing l with
  | zero => exact hl
  | succ n ih => exact ih _ (pairLevel_all h l hl)

/-- VRED sets no `aovf` (R76, R92, R93). -/
theorem vRed_no_aovf (t : Ty) (op : Nat) (np : Np) (rnd : Rnd) (dph : Nat) (a : Vec) : (vRed t op np rnd dph a).flags &&& fAovf = 0 := by
  unfold vRed
  split
  · split
    · exact BitVec.zero_and
    · split
      · refine or_and_zero (ancSum_anchored ?_) (round_no_aovf _ _ _ _)
        simp only [els, List.length_map, List.length_range]
        exact Nat.div_le_self _ _
      · have h := treeReduce_all (P := fun y : NumF => y.flags &&& fAovf = 0) (fun _ _ => addRne_no_aovf) (levels t.width)
          ((els t.width a).map (fun x => NumF.pure (fmtF32.decode x))) (by
            intro x hx
            obtain ⟨y, -, rfl⟩ := List.mem_map.mp hx
            exact BitVec.zero_and)
        dsimp only
        cases hr : treeReduce addRne (levels t.width) ((els t.width a).map (fun x => NumF.pure (fmtF32.decode x))) with
        | nil => exact BitVec.zero_and
        | cons r _ => exact h r (by rw [hr]; simp)
  all_goals exact BitVec.zero_and

end Sys2Proof.Machine
end

