-- ==== Sys2Proof/Laws/Table.lean ====
section
/-! SUPPORT. Laws of the sparse tables: reading after writing and after removing. -/

namespace Sys2Proof

variable {α : Type}

@[simp] theorem tfind_tset_self (t : Tbl α) (k : Nat) (v : α) : tfind (tset t k v) k = some v := by
  induction t with
  | nil => simp [tset, tfind]
  | cons p t ih =>
    obtain ⟨j, w⟩ := p
    simp only [tset]
    split
    · simp [tfind]
    · split
      · simp [tfind]
      · next h _ => simp [tfind, h, ih]

theorem tfind_tset_ne (t : Tbl α) {k m : Nat} (v : α) (h : m ≠ k) : tfind (tset t k v) m = tfind t m := by
  induction t with
  | nil => simp [tset, tfind, h.symm]
  | cons p t ih =>
    obtain ⟨j, w⟩ := p
    simp only [tset]
    split
    · next hj => simp [tfind, h.symm, hj ▸ h.symm]
    · split
      · simp [tfind, h.symm]
      · simp [tfind, ih]

@[simp] theorem tget_tset_self (t : Tbl α) (k : Nat) (v d : α) : tget (tset t k v) k d = v := by simp [tget]

theorem tget_tset_ne (t : Tbl α) {k m : Nat} (v d : α) (h : m ≠ k) : tget (tset t k v) m d = tget t m d := by
  simp [tget, tfind_tset_ne t v h]

@[simp] theorem tget_nil (k : Nat) (d : α) : tget ([] : Tbl α) k d = d := rfl

/-- The last of two writes of one entry stands. -/
@[simp] theorem tset_tset (t : Tbl α) (k : Nat) (v w : α) : tset (tset t k v) k w = tset t k w := by
  induction t with
  | nil => simp [tset]
  | cons p t ih =>
    obtain ⟨j, u⟩ := p
    by_cases hj : j = k
    · simp [tset, hj]
    · by_cases hk : k < j
      · simp [tset, hj, hk]
      · simp [tset, hj, hk, ih]

theorem tfind_tdel_self (t : Tbl α) (k : Nat) : tfind (tdel t k) k = none := by
  induction t with
  | nil => rfl
  | cons p t ih =>
    obtain ⟨j, w⟩ := p
    by_cases h : j = k
    · simpa [tdel, h] using ih
    · have hj : (j != k) = true := by simp [h]
      simpa [tdel, hj, tfind, h] using ih

theorem tfind_tdel_ne (t : Tbl α) {k m : Nat} (h : m ≠ k) : tfind (tdel t k) m = tfind t m := by
  induction t with
  | nil => rfl
  | cons p t ih =>
    obtain ⟨j, w⟩ := p
    by_cases hj : j = k
    · simpa [tdel, hj, tfind, h.symm] using ih
    · have hk : (j != k) = true := by simp [hj]
      have ih' : tfind (List.filter (fun p => p.1 != k) t) m = tfind t m := ih
      simp [tdel, hk, tfind, ih']

end Sys2Proof
end

