-- ==== Sys2Proof/Laws/State.lean ====
section
/-! SUPPORT. What each update of the state leaves and gives: one lemma per field per update. -/

namespace Sys2Proof.Machine

variable (s : State) (k : Core) (t : Stream)

/-! ### `State.setCore` -/

@[simp] theorem State.setCore_pkgId (c : Nat) (j : Core) : (s.setCore c j).pkgId = s.pkgId := rfl
@[simp] theorem State.setCore_incarnation (c : Nat) (j : Core) : (s.setCore c j).incarnation = s.incarnation := rfl
@[simp] theorem State.setCore_boots (c : Nat) (j : Core) : (s.setCore c j).boots = s.boots := rfl
@[simp] theorem State.setCore_powered (c : Nat) (j : Core) : (s.setCore c j).powered = s.powered := rfl
@[simp] theorem State.setCore_recovery (c : Nat) (j : Core) : (s.setCore c j).recovery = s.recovery := rfl
@[simp] theorem State.setCore_slot (c : Nat) (j : Core) : (s.setCore c j).slot = s.slot := rfl
@[simp] theorem State.setCore_accepted (c : Nat) (j : Core) : (s.setCore c j).accepted = s.accepted := rfl
@[simp] theorem State.setCore_mem (c : Nat) (j : Core) : (s.setCore c j).mem = s.mem := rfl
@[simp] theorem State.setCore_flash (c : Nat) (j : Core) : (s.setCore c j).flash = s.flash := rfl
@[simp] theorem State.setCore_badMem (c : Nat) (j : Core) : (s.setCore c j).badMem = s.badMem := rfl
@[simp] theorem State.setCore_tags (c : Nat) (j : Core) : (s.setCore c j).tags = s.tags := rfl
@[simp] theorem State.setCore_shadow (c : Nat) (j : Core) : (s.setCore c j).shadow = s.shadow := rfl
@[simp] theorem State.setCore_counters (c : Nat) (j : Core) : (s.setCore c j).counters = s.counters := rfl
@[simp] theorem State.setCore_holdLimit (c : Nat) (j : Core) : (s.setCore c j).holdLimit = s.holdLimit := rfl
@[simp] theorem State.setCore_gaugeBudget (c : Nat) (j : Core) : (s.setCore c j).gaugeBudget = s.gaugeBudget := rfl
@[simp] theorem State.setCore_ctxs (c : Nat) (j : Core) : (s.setCore c j).ctxs = s.ctxs := rfl
@[simp] theorem State.setCore_recs (c : Nat) (j : Core) : (s.setCore c j).recs = s.recs := rfl
@[simp] theorem State.setCore_arms (c : Nat) (j : Core) : (s.setCore c j).arms = s.arms := rfl
@[simp] theorem State.setCore_launches (c : Nat) (j : Core) : (s.setCore c j).launches = s.launches := rfl
@[simp] theorem State.setCore_leftLaunches (c : Nat) (j : Core) : (s.setCore c j).leftLaunches = s.leftLaunches := rfl
@[simp] theorem State.setCore_entries (c : Nat) (j : Core) : (s.setCore c j).entries = s.entries := rfl
@[simp] theorem State.setCore_objs (c : Nat) (j : Core) : (s.setCore c j).objs = s.objs := rfl
@[simp] theorem State.setCore_nextObj (c : Nat) (j : Core) : (s.setCore c j).nextObj = s.nextObj := rfl
@[simp] theorem State.setCore_holds (c : Nat) (j : Core) : (s.setCore c j).holds = s.holds := rfl
@[simp] theorem State.setCore_lifelines (c : Nat) (j : Core) : (s.setCore c j).lifelines = s.lifelines := rfl
@[simp] theorem State.setCore_attached (c : Nat) (j : Core) : (s.setCore c j).attached = s.attached := rfl
@[simp] theorem State.setCore_intervals (c : Nat) (j : Core) : (s.setCore c j).intervals = s.intervals := rfl
@[simp] theorem State.setCore_session (c : Nat) (j : Core) : (s.setCore c j).session = s.session := rfl
@[simp] theorem State.setCore_ops (c : Nat) (j : Core) : (s.setCore c j).ops = s.ops := rfl
@[simp] theorem State.setCore_endings (c : Nat) (j : Core) : (s.setCore c j).endings = s.endings := rfl
@[simp] theorem State.setCore_ring (c : Nat) (j : Core) : (s.setCore c j).ring = s.ring := rfl
@[simp] theorem State.setCore_ringDropped (c : Nat) (j : Core) : (s.setCore c j).ringDropped = s.ringDropped := rfl
@[simp] theorem State.setCore_drops (c : Nat) (j : Core) : (s.setCore c j).drops = s.drops := rfl
@[simp] theorem State.setCore_packetDrops (c : Nat) (j : Core) : (s.setCore c j).packetDrops = s.packetDrops := rfl
@[simp] theorem State.setCore_heat (c : Nat) (j : Core) : (s.setCore c j).heat = s.heat := rfl
@[simp] theorem State.setCore_snifer (c : Nat) (j : Core) : (s.setCore c j).snifer = s.snifer := rfl
@[simp] theorem State.setCore_sniferOn (c : Nat) (j : Core) : (s.setCore c j).sniferOn = s.sniferOn := rfl
@[simp] theorem State.setCore_routes (c : Nat) (j : Core) : (s.setCore c j).routes = s.routes := rfl
@[simp] theorem State.setCore_ports (c : Nat) (j : Core) : (s.setCore c j).ports = s.ports := rfl
@[simp] theorem State.setCore_peers (c : Nat) (j : Core) : (s.setCore c j).peers = s.peers := rfl
@[simp] theorem State.setCore_requests (c : Nat) (j : Core) : (s.setCore c j).requests = s.requests := rfl
@[simp] theorem State.setCore_nextTid (c : Nat) (j : Core) : (s.setCore c j).nextTid = s.nextTid := rfl
@[simp] theorem State.setCore_devWrites (c : Nat) (j : Core) : (s.setCore c j).devWrites = s.devWrites := rfl
@[simp] theorem State.setCore_nextDev (c : Nat) (j : Core) : (s.setCore c j).nextDev = s.nextDev := rfl
@[simp] theorem State.setCore_releases (c : Nat) (j : Core) : (s.setCore c j).releases = s.releases := rfl
@[simp] theorem State.setCore_clears (c : Nat) (j : Core) : (s.setCore c j).clears = s.clears := rfl
@[simp] theorem State.setCore_relActs (c : Nat) (j : Core) : (s.setCore c j).relActs = s.relActs := rfl
@[simp] theorem State.setCore_fabDropped (c : Nat) (j : Core) : (s.setCore c j).fabDropped = s.fabDropped := rfl
@[simp] theorem State.setCore_lateResponses (c : Nat) (j : Core) : (s.setCore c j).lateResponses = s.lateResponses := rfl
@[simp] theorem State.setCore_lostMail (c : Nat) (j : Core) : (s.setCore c j).lostMail = s.lostMail := rfl
@[simp] theorem State.setCore_sentMail (c : Nat) (j : Core) : (s.setCore c j).sentMail = s.sentMail := rfl
@[simp] theorem State.setCore_beats (c : Nat) (j : Core) : (s.setCore c j).beats = s.beats := rfl
@[simp] theorem State.setCore_failedDies (c : Nat) (j : Core) : (s.setCore c j).failedDies = s.failedDies := rfl
@[simp] theorem State.setCore_inbound (c : Nat) (j : Core) : (s.setCore c j).inbound = s.inbound := rfl
@[simp] theorem State.setCore_clusters (c : Nat) (j : Core) : (s.setCore c j).clusters = s.clusters := rfl
@[simp] theorem State.setCore_agenda (c : Nat) (j : Core) : (s.setCore c j).agenda = s.agenda := rfl
@[simp] theorem State.setCore_turn (c : Nat) (j : Core) : (s.setCore c j).turn = s.turn := rfl
@[simp] theorem State.setCore_steps (c : Nat) (j : Core) : (s.setCore c j).steps = s.steps := rfl
@[simp] theorem State.setCore_clock (c : Nat) (j : Core) : (s.setCore c j).clock = s.clock := rfl
@[simp] theorem State.setCore_toFabric (c : Nat) (j : Core) : (s.setCore c j).toFabric = s.toFabric := rfl
@[simp] theorem State.setCore_toHost (c : Nat) (j : Core) : (s.setCore c j).toHost = s.toHost := rfl

/-! ### `State.setCluster` -/

@[simp] theorem State.setCluster_pkgId (g : Nat) (j : Cluster) : (s.setCluster g j).pkgId = s.pkgId := rfl
@[simp] theorem State.setCluster_incarnation (g : Nat) (j : Cluster) : (s.setCluster g j).incarnation = s.incarnation := rfl
@[simp] theorem State.setCluster_boots (g : Nat) (j : Cluster) : (s.setCluster g j).boots = s.boots := rfl
@[simp] theorem State.setCluster_powered (g : Nat) (j : Cluster) : (s.setCluster g j).powered = s.powered := rfl
@[simp] theorem State.setCluster_recovery (g : Nat) (j : Cluster) : (s.setCluster g j).recovery = s.recovery := rfl
@[simp] theorem State.setCluster_slot (g : Nat) (j : Cluster) : (s.setCluster g j).slot = s.slot := rfl
@[simp] theorem State.setCluster_accepted (g : Nat) (j : Cluster) : (s.setCluster g j).accepted = s.accepted := rfl
@[simp] theorem State.setCluster_mem (g : Nat) (j : Cluster) : (s.setCluster g j).mem = s.mem := rfl
@[simp] theorem State.setCluster_flash (g : Nat) (j : Cluster) : (s.setCluster g j).flash = s.flash := rfl
@[simp] theorem State.setCluster_badMem (g : Nat) (j : Cluster) : (s.setCluster g j).badMem = s.badMem := rfl
@[simp] theorem State.setCluster_tags (g : Nat) (j : Cluster) : (s.setCluster g j).tags = s.tags := rfl
@[simp] theorem State.setCluster_shadow (g : Nat) (j : Cluster) : (s.setCluster g j).shadow = s.shadow := rfl
@[simp] theorem State.setCluster_counters (g : Nat) (j : Cluster) : (s.setCluster g j).counters = s.counters := rfl
@[simp] theorem State.setCluster_holdLimit (g : Nat) (j : Cluster) : (s.setCluster g j).holdLimit = s.holdLimit := rfl
@[simp] theorem State.setCluster_gaugeBudget (g : Nat) (j : Cluster) : (s.setCluster g j).gaugeBudget = s.gaugeBudget := rfl
@[simp] theorem State.setCluster_ctxs (g : Nat) (j : Cluster) : (s.setCluster g j).ctxs = s.ctxs := rfl
@[simp] theorem State.setCluster_recs (g : Nat) (j : Cluster) : (s.setCluster g j).recs = s.recs := rfl
@[simp] theorem State.setCluster_arms (g : Nat) (j : Cluster) : (s.setCluster g j).arms = s.arms := rfl
@[simp] theorem State.setCluster_launches (g : Nat) (j : Cluster) : (s.setCluster g j).launches = s.launches := rfl
@[simp] theorem State.setCluster_leftLaunches (g : Nat) (j : Cluster) : (s.setCluster g j).leftLaunches = s.leftLaunches := rfl
@[simp] theorem State.setCluster_entries (g : Nat) (j : Cluster) : (s.setCluster g j).entries = s.entries := rfl
@[simp] theorem State.setCluster_objs (g : Nat) (j : Cluster) : (s.setCluster g j).objs = s.objs := rfl
@[simp] theorem State.setCluster_nextObj (g : Nat) (j : Cluster) : (s.setCluster g j).nextObj = s.nextObj := rfl
@[simp] theorem State.setCluster_holds (g : Nat) (j : Cluster) : (s.setCluster g j).holds = s.holds := rfl
@[simp] theorem State.setCluster_lifelines (g : Nat) (j : Cluster) : (s.setCluster g j).lifelines = s.lifelines := rfl
@[simp] theorem State.setCluster_attached (g : Nat) (j : Cluster) : (s.setCluster g j).attached = s.attached := rfl
@[simp] theorem State.setCluster_intervals (g : Nat) (j : Cluster) : (s.setCluster g j).intervals = s.intervals := rfl
@[simp] theorem State.setCluster_session (g : Nat) (j : Cluster) : (s.setCluster g j).session = s.session := rfl
@[simp] theorem State.setCluster_ops (g : Nat) (j : Cluster) : (s.setCluster g j).ops = s.ops := rfl
@[simp] theorem State.setCluster_endings (g : Nat) (j : Cluster) : (s.setCluster g j).endings = s.endings := rfl
@[simp] theorem State.setCluster_ring (g : Nat) (j : Cluster) : (s.setCluster g j).ring = s.ring := rfl
@[simp] theorem State.setCluster_ringDropped (g : Nat) (j : Cluster) : (s.setCluster g j).ringDropped = s.ringDropped := rfl
@[simp] theorem State.setCluster_drops (g : Nat) (j : Cluster) : (s.setCluster g j).drops = s.drops := rfl
@[simp] theorem State.setCluster_packetDrops (g : Nat) (j : Cluster) : (s.setCluster g j).packetDrops = s.packetDrops := rfl
@[simp] theorem State.setCluster_heat (g : Nat) (j : Cluster) : (s.setCluster g j).heat = s.heat := rfl
@[simp] theorem State.setCluster_snifer (g : Nat) (j : Cluster) : (s.setCluster g j).snifer = s.snifer := rfl
@[simp] theorem State.setCluster_sniferOn (g : Nat) (j : Cluster) : (s.setCluster g j).sniferOn = s.sniferOn := rfl
@[simp] theorem State.setCluster_routes (g : Nat) (j : Cluster) : (s.setCluster g j).routes = s.routes := rfl
@[simp] theorem State.setCluster_ports (g : Nat) (j : Cluster) : (s.setCluster g j).ports = s.ports := rfl
@[simp] theorem State.setCluster_peers (g : Nat) (j : Cluster) : (s.setCluster g j).peers = s.peers := rfl
@[simp] theorem State.setCluster_requests (g : Nat) (j : Cluster) : (s.setCluster g j).requests = s.requests := rfl
@[simp] theorem State.setCluster_nextTid (g : Nat) (j : Cluster) : (s.setCluster g j).nextTid = s.nextTid := rfl
@[simp] theorem State.setCluster_devWrites (g : Nat) (j : Cluster) : (s.setCluster g j).devWrites = s.devWrites := rfl
@[simp] theorem State.setCluster_nextDev (g : Nat) (j : Cluster) : (s.setCluster g j).nextDev = s.nextDev := rfl
@[simp] theorem State.setCluster_releases (g : Nat) (j : Cluster) : (s.setCluster g j).releases = s.releases := rfl
@[simp] theorem State.setCluster_clears (g : Nat) (j : Cluster) : (s.setCluster g j).clears = s.clears := rfl
@[simp] theorem State.setCluster_relActs (g : Nat) (j : Cluster) : (s.setCluster g j).relActs = s.relActs := rfl
@[simp] theorem State.setCluster_fabDropped (g : Nat) (j : Cluster) : (s.setCluster g j).fabDropped = s.fabDropped := rfl
@[simp] theorem State.setCluster_lateResponses (g : Nat) (j : Cluster) : (s.setCluster g j).lateResponses = s.lateResponses := rfl
@[simp] theorem State.setCluster_lostMail (g : Nat) (j : Cluster) : (s.setCluster g j).lostMail = s.lostMail := rfl
@[simp] theorem State.setCluster_sentMail (g : Nat) (j : Cluster) : (s.setCluster g j).sentMail = s.sentMail := rfl
@[simp] theorem State.setCluster_beats (g : Nat) (j : Cluster) : (s.setCluster g j).beats = s.beats := rfl
@[simp] theorem State.setCluster_failedDies (g : Nat) (j : Cluster) : (s.setCluster g j).failedDies = s.failedDies := rfl
@[simp] theorem State.setCluster_inbound (g : Nat) (j : Cluster) : (s.setCluster g j).inbound = s.inbound := rfl
@[simp] theorem State.setCluster_cores (g : Nat) (j : Cluster) : (s.setCluster g j).cores = s.cores := rfl
@[simp] theorem State.setCluster_agenda (g : Nat) (j : Cluster) : (s.setCluster g j).agenda = s.agenda := rfl
@[simp] theorem State.setCluster_turn (g : Nat) (j : Cluster) : (s.setCluster g j).turn = s.turn := rfl
@[simp] theorem State.setCluster_steps (g : Nat) (j : Cluster) : (s.setCluster g j).steps = s.steps := rfl
@[simp] theorem State.setCluster_clock (g : Nat) (j : Cluster) : (s.setCluster g j).clock = s.clock := rfl
@[simp] theorem State.setCluster_toFabric (g : Nat) (j : Cluster) : (s.setCluster g j).toFabric = s.toFabric := rfl
@[simp] theorem State.setCluster_toHost (g : Nat) (j : Cluster) : (s.setCluster g j).toHost = s.toHost := rfl

/-! ### `State.setCtx` -/

@[simp] theorem State.setCtx_pkgId (n : Nat) (j : Ctx) : (s.setCtx n j).pkgId = s.pkgId := rfl
@[simp] theorem State.setCtx_incarnation (n : Nat) (j : Ctx) : (s.setCtx n j).incarnation = s.incarnation := rfl
@[simp] theorem State.setCtx_boots (n : Nat) (j : Ctx) : (s.setCtx n j).boots = s.boots := rfl
@[simp] theorem State.setCtx_powered (n : Nat) (j : Ctx) : (s.setCtx n j).powered = s.powered := rfl
@[simp] theorem State.setCtx_recovery (n : Nat) (j : Ctx) : (s.setCtx n j).recovery = s.recovery := rfl
@[simp] theorem State.setCtx_slot (n : Nat) (j : Ctx) : (s.setCtx n j).slot = s.slot := rfl
@[simp] theorem State.setCtx_accepted (n : Nat) (j : Ctx) : (s.setCtx n j).accepted = s.accepted := rfl
@[simp] theorem State.setCtx_mem (n : Nat) (j : Ctx) : (s.setCtx n j).mem = s.mem := rfl
@[simp] theorem State.setCtx_flash (n : Nat) (j : Ctx) : (s.setCtx n j).flash = s.flash := rfl
@[simp] theorem State.setCtx_badMem (n : Nat) (j : Ctx) : (s.setCtx n j).badMem = s.badMem := rfl
@[simp] theorem State.setCtx_tags (n : Nat) (j : Ctx) : (s.setCtx n j).tags = s.tags := rfl
@[simp] theorem State.setCtx_shadow (n : Nat) (j : Ctx) : (s.setCtx n j).shadow = s.shadow := rfl
@[simp] theorem State.setCtx_counters (n : Nat) (j : Ctx) : (s.setCtx n j).counters = s.counters := rfl
@[simp] theorem State.setCtx_holdLimit (n : Nat) (j : Ctx) : (s.setCtx n j).holdLimit = s.holdLimit := rfl
@[simp] theorem State.setCtx_gaugeBudget (n : Nat) (j : Ctx) : (s.setCtx n j).gaugeBudget = s.gaugeBudget := rfl
@[simp] theorem State.setCtx_recs (n : Nat) (j : Ctx) : (s.setCtx n j).recs = s.recs := rfl
@[simp] theorem State.setCtx_arms (n : Nat) (j : Ctx) : (s.setCtx n j).arms = s.arms := rfl
@[simp] theorem State.setCtx_launches (n : Nat) (j : Ctx) : (s.setCtx n j).launches = s.launches := rfl
@[simp] theorem State.setCtx_leftLaunches (n : Nat) (j : Ctx) : (s.setCtx n j).leftLaunches = s.leftLaunches := rfl
@[simp] theorem State.setCtx_entries (n : Nat) (j : Ctx) : (s.setCtx n j).entries = s.entries := rfl
@[simp] theorem State.setCtx_objs (n : Nat) (j : Ctx) : (s.setCtx n j).objs = s.objs := rfl
@[simp] theorem State.setCtx_nextObj (n : Nat) (j : Ctx) : (s.setCtx n j).nextObj = s.nextObj := rfl
@[simp] theorem State.setCtx_holds (n : Nat) (j : Ctx) : (s.setCtx n j).holds = s.holds := rfl
@[simp] theorem State.setCtx_lifelines (n : Nat) (j : Ctx) : (s.setCtx n j).lifelines = s.lifelines := rfl
@[simp] theorem State.setCtx_attached (n : Nat) (j : Ctx) : (s.setCtx n j).attached = s.attached := rfl
@[simp] theorem State.setCtx_intervals (n : Nat) (j : Ctx) : (s.setCtx n j).intervals = s.intervals := rfl
@[simp] theorem State.setCtx_session (n : Nat) (j : Ctx) : (s.setCtx n j).session = s.session := rfl
@[simp] theorem State.setCtx_ops (n : Nat) (j : Ctx) : (s.setCtx n j).ops = s.ops := rfl
@[simp] theorem State.setCtx_endings (n : Nat) (j : Ctx) : (s.setCtx n j).endings = s.endings := rfl
@[simp] theorem State.setCtx_ring (n : Nat) (j : Ctx) : (s.setCtx n j).ring = s.ring := rfl
@[simp] theorem State.setCtx_ringDropped (n : Nat) (j : Ctx) : (s.setCtx n j).ringDropped = s.ringDropped := rfl
@[simp] theorem State.setCtx_drops (n : Nat) (j : Ctx) : (s.setCtx n j).drops = s.drops := rfl
@[simp] theorem State.setCtx_packetDrops (n : Nat) (j : Ctx) : (s.setCtx n j).packetDrops = s.packetDrops := rfl
@[simp] theorem State.setCtx_heat (n : Nat) (j : Ctx) : (s.setCtx n j).heat = s.heat := rfl
@[simp] theorem State.setCtx_snifer (n : Nat) (j : Ctx) : (s.setCtx n j).snifer = s.snifer := rfl
@[simp] theorem State.setCtx_sniferOn (n : Nat) (j : Ctx) : (s.setCtx n j).sniferOn = s.sniferOn := rfl
@[simp] theorem State.setCtx_routes (n : Nat) (j : Ctx) : (s.setCtx n j).routes = s.routes := rfl
@[simp] theorem State.setCtx_ports (n : Nat) (j : Ctx) : (s.setCtx n j).ports = s.ports := rfl
@[simp] theorem State.setCtx_peers (n : Nat) (j : Ctx) : (s.setCtx n j).peers = s.peers := rfl
@[simp] theorem State.setCtx_requests (n : Nat) (j : Ctx) : (s.setCtx n j).requests = s.requests := rfl
@[simp] theorem State.setCtx_nextTid (n : Nat) (j : Ctx) : (s.setCtx n j).nextTid = s.nextTid := rfl
@[simp] theorem State.setCtx_devWrites (n : Nat) (j : Ctx) : (s.setCtx n j).devWrites = s.devWrites := rfl
@[simp] theorem State.setCtx_nextDev (n : Nat) (j : Ctx) : (s.setCtx n j).nextDev = s.nextDev := rfl
@[simp] theorem State.setCtx_releases (n : Nat) (j : Ctx) : (s.setCtx n j).releases = s.releases := rfl
@[simp] theorem State.setCtx_clears (n : Nat) (j : Ctx) : (s.setCtx n j).clears = s.clears := rfl
@[simp] theorem State.setCtx_relActs (n : Nat) (j : Ctx) : (s.setCtx n j).relActs = s.relActs := rfl
@[simp] theorem State.setCtx_fabDropped (n : Nat) (j : Ctx) : (s.setCtx n j).fabDropped = s.fabDropped := rfl
@[simp] theorem State.setCtx_lateResponses (n : Nat) (j : Ctx) : (s.setCtx n j).lateResponses = s.lateResponses := rfl
@[simp] theorem State.setCtx_lostMail (n : Nat) (j : Ctx) : (s.setCtx n j).lostMail = s.lostMail := rfl
@[simp] theorem State.setCtx_sentMail (n : Nat) (j : Ctx) : (s.setCtx n j).sentMail = s.sentMail := rfl
@[simp] theorem State.setCtx_beats (n : Nat) (j : Ctx) : (s.setCtx n j).beats = s.beats := rfl
@[simp] theorem State.setCtx_failedDies (n : Nat) (j : Ctx) : (s.setCtx n j).failedDies = s.failedDies := rfl
@[simp] theorem State.setCtx_inbound (n : Nat) (j : Ctx) : (s.setCtx n j).inbound = s.inbound := rfl
@[simp] theorem State.setCtx_clusters (n : Nat) (j : Ctx) : (s.setCtx n j).clusters = s.clusters := rfl
@[simp] theorem State.setCtx_cores (n : Nat) (j : Ctx) : (s.setCtx n j).cores = s.cores := rfl
@[simp] theorem State.setCtx_agenda (n : Nat) (j : Ctx) : (s.setCtx n j).agenda = s.agenda := rfl
@[simp] theorem State.setCtx_turn (n : Nat) (j : Ctx) : (s.setCtx n j).turn = s.turn := rfl
@[simp] theorem State.setCtx_steps (n : Nat) (j : Ctx) : (s.setCtx n j).steps = s.steps := rfl
@[simp] theorem State.setCtx_clock (n : Nat) (j : Ctx) : (s.setCtx n j).clock = s.clock := rfl
@[simp] theorem State.setCtx_toFabric (n : Nat) (j : Ctx) : (s.setCtx n j).toFabric = s.toFabric := rfl
@[simp] theorem State.setCtx_toHost (n : Nat) (j : Ctx) : (s.setCtx n j).toHost = s.toHost := rfl

/-! ### `State.setLrec` -/

@[simp] theorem State.setLrec_pkgId (n : Nat) (j : Rec) : (s.setLrec n j).pkgId = s.pkgId := rfl
@[simp] theorem State.setLrec_incarnation (n : Nat) (j : Rec) : (s.setLrec n j).incarnation = s.incarnation := rfl
@[simp] theorem State.setLrec_boots (n : Nat) (j : Rec) : (s.setLrec n j).boots = s.boots := rfl
@[simp] theorem State.setLrec_powered (n : Nat) (j : Rec) : (s.setLrec n j).powered = s.powered := rfl
@[simp] theorem State.setLrec_recovery (n : Nat) (j : Rec) : (s.setLrec n j).recovery = s.recovery := rfl
@[simp] theorem State.setLrec_slot (n : Nat) (j : Rec) : (s.setLrec n j).slot = s.slot := rfl
@[simp] theorem State.setLrec_accepted (n : Nat) (j : Rec) : (s.setLrec n j).accepted = s.accepted := rfl
@[simp] theorem State.setLrec_mem (n : Nat) (j : Rec) : (s.setLrec n j).mem = s.mem := rfl
@[simp] theorem State.setLrec_flash (n : Nat) (j : Rec) : (s.setLrec n j).flash = s.flash := rfl
@[simp] theorem State.setLrec_badMem (n : Nat) (j : Rec) : (s.setLrec n j).badMem = s.badMem := rfl
@[simp] theorem State.setLrec_tags (n : Nat) (j : Rec) : (s.setLrec n j).tags = s.tags := rfl
@[simp] theorem State.setLrec_shadow (n : Nat) (j : Rec) : (s.setLrec n j).shadow = s.shadow := rfl
@[simp] theorem State.setLrec_counters (n : Nat) (j : Rec) : (s.setLrec n j).counters = s.counters := rfl
@[simp] theorem State.setLrec_holdLimit (n : Nat) (j : Rec) : (s.setLrec n j).holdLimit = s.holdLimit := rfl
@[simp] theorem State.setLrec_gaugeBudget (n : Nat) (j : Rec) : (s.setLrec n j).gaugeBudget = s.gaugeBudget := rfl
@[simp] theorem State.setLrec_ctxs (n : Nat) (j : Rec) : (s.setLrec n j).ctxs = s.ctxs := rfl
@[simp] theorem State.setLrec_arms (n : Nat) (j : Rec) : (s.setLrec n j).arms = s.arms := rfl
@[simp] theorem State.setLrec_launches (n : Nat) (j : Rec) : (s.setLrec n j).launches = s.launches := rfl
@[simp] theorem State.setLrec_leftLaunches (n : Nat) (j : Rec) : (s.setLrec n j).leftLaunches = s.leftLaunches := rfl
@[simp] theorem State.setLrec_entries (n : Nat) (j : Rec) : (s.setLrec n j).entries = s.entries := rfl
@[simp] theorem State.setLrec_objs (n : Nat) (j : Rec) : (s.setLrec n j).objs = s.objs := rfl
@[simp] theorem State.setLrec_nextObj (n : Nat) (j : Rec) : (s.setLrec n j).nextObj = s.nextObj := rfl
@[simp] theorem State.setLrec_holds (n : Nat) (j : Rec) : (s.setLrec n j).holds = s.holds := rfl
@[simp] theorem State.setLrec_lifelines (n : Nat) (j : Rec) : (s.setLrec n j).lifelines = s.lifelines := rfl
@[simp] theorem State.setLrec_attached (n : Nat) (j : Rec) : (s.setLrec n j).attached = s.attached := rfl
@[simp] theorem State.setLrec_intervals (n : Nat) (j : Rec) : (s.setLrec n j).intervals = s.intervals := rfl
@[simp] theorem State.setLrec_session (n : Nat) (j : Rec) : (s.setLrec n j).session = s.session := rfl
@[simp] theorem State.setLrec_ops (n : Nat) (j : Rec) : (s.setLrec n j).ops = s.ops := rfl
@[simp] theorem State.setLrec_endings (n : Nat) (j : Rec) : (s.setLrec n j).endings = s.endings := rfl
@[simp] theorem State.setLrec_ring (n : Nat) (j : Rec) : (s.setLrec n j).ring = s.ring := rfl
@[simp] theorem State.setLrec_ringDropped (n : Nat) (j : Rec) : (s.setLrec n j).ringDropped = s.ringDropped := rfl
@[simp] theorem State.setLrec_drops (n : Nat) (j : Rec) : (s.setLrec n j).drops = s.drops := rfl
@[simp] theorem State.setLrec_packetDrops (n : Nat) (j : Rec) : (s.setLrec n j).packetDrops = s.packetDrops := rfl
@[simp] theorem State.setLrec_heat (n : Nat) (j : Rec) : (s.setLrec n j).heat = s.heat := rfl
@[simp] theorem State.setLrec_snifer (n : Nat) (j : Rec) : (s.setLrec n j).snifer = s.snifer := rfl
@[simp] theorem State.setLrec_sniferOn (n : Nat) (j : Rec) : (s.setLrec n j).sniferOn = s.sniferOn := rfl
@[simp] theorem State.setLrec_routes (n : Nat) (j : Rec) : (s.setLrec n j).routes = s.routes := rfl
@[simp] theorem State.setLrec_ports (n : Nat) (j : Rec) : (s.setLrec n j).ports = s.ports := rfl
@[simp] theorem State.setLrec_peers (n : Nat) (j : Rec) : (s.setLrec n j).peers = s.peers := rfl
@[simp] theorem State.setLrec_requests (n : Nat) (j : Rec) : (s.setLrec n j).requests = s.requests := rfl
@[simp] theorem State.setLrec_nextTid (n : Nat) (j : Rec) : (s.setLrec n j).nextTid = s.nextTid := rfl
@[simp] theorem State.setLrec_devWrites (n : Nat) (j : Rec) : (s.setLrec n j).devWrites = s.devWrites := rfl
@[simp] theorem State.setLrec_nextDev (n : Nat) (j : Rec) : (s.setLrec n j).nextDev = s.nextDev := rfl
@[simp] theorem State.setLrec_releases (n : Nat) (j : Rec) : (s.setLrec n j).releases = s.releases := rfl
@[simp] theorem State.setLrec_clears (n : Nat) (j : Rec) : (s.setLrec n j).clears = s.clears := rfl
@[simp] theorem State.setLrec_relActs (n : Nat) (j : Rec) : (s.setLrec n j).relActs = s.relActs := rfl
@[simp] theorem State.setLrec_fabDropped (n : Nat) (j : Rec) : (s.setLrec n j).fabDropped = s.fabDropped := rfl
@[simp] theorem State.setLrec_lateResponses (n : Nat) (j : Rec) : (s.setLrec n j).lateResponses = s.lateResponses := rfl
@[simp] theorem State.setLrec_lostMail (n : Nat) (j : Rec) : (s.setLrec n j).lostMail = s.lostMail := rfl
@[simp] theorem State.setLrec_sentMail (n : Nat) (j : Rec) : (s.setLrec n j).sentMail = s.sentMail := rfl
@[simp] theorem State.setLrec_beats (n : Nat) (j : Rec) : (s.setLrec n j).beats = s.beats := rfl
@[simp] theorem State.setLrec_failedDies (n : Nat) (j : Rec) : (s.setLrec n j).failedDies = s.failedDies := rfl
@[simp] theorem State.setLrec_inbound (n : Nat) (j : Rec) : (s.setLrec n j).inbound = s.inbound := rfl
@[simp] theorem State.setLrec_clusters (n : Nat) (j : Rec) : (s.setLrec n j).clusters = s.clusters := rfl
@[simp] theorem State.setLrec_cores (n : Nat) (j : Rec) : (s.setLrec n j).cores = s.cores := rfl
@[simp] theorem State.setLrec_agenda (n : Nat) (j : Rec) : (s.setLrec n j).agenda = s.agenda := rfl
@[simp] theorem State.setLrec_turn (n : Nat) (j : Rec) : (s.setLrec n j).turn = s.turn := rfl
@[simp] theorem State.setLrec_steps (n : Nat) (j : Rec) : (s.setLrec n j).steps = s.steps := rfl
@[simp] theorem State.setLrec_clock (n : Nat) (j : Rec) : (s.setLrec n j).clock = s.clock := rfl
@[simp] theorem State.setLrec_toFabric (n : Nat) (j : Rec) : (s.setLrec n j).toFabric = s.toFabric := rfl
@[simp] theorem State.setLrec_toHost (n : Nat) (j : Rec) : (s.setLrec n j).toHost = s.toHost := rfl

/-! ### `State.count` -/

@[simp] theorem State.count_pkgId (n j : Nat) : (s.count n j).pkgId = s.pkgId := rfl
@[simp] theorem State.count_incarnation (n j : Nat) : (s.count n j).incarnation = s.incarnation := rfl
@[simp] theorem State.count_boots (n j : Nat) : (s.count n j).boots = s.boots := rfl
@[simp] theorem State.count_powered (n j : Nat) : (s.count n j).powered = s.powered := rfl
@[simp] theorem State.count_recovery (n j : Nat) : (s.count n j).recovery = s.recovery := rfl
@[simp] theorem State.count_slot (n j : Nat) : (s.count n j).slot = s.slot := rfl
@[simp] theorem State.count_accepted (n j : Nat) : (s.count n j).accepted = s.accepted := rfl
@[simp] theorem State.count_mem (n j : Nat) : (s.count n j).mem = s.mem := rfl
@[simp] theorem State.count_flash (n j : Nat) : (s.count n j).flash = s.flash := rfl
@[simp] theorem State.count_badMem (n j : Nat) : (s.count n j).badMem = s.badMem := rfl
@[simp] theorem State.count_tags (n j : Nat) : (s.count n j).tags = s.tags := rfl
@[simp] theorem State.count_shadow (n j : Nat) : (s.count n j).shadow = s.shadow := rfl
@[simp] theorem State.count_holdLimit (n j : Nat) : (s.count n j).holdLimit = s.holdLimit := rfl
@[simp] theorem State.count_gaugeBudget (n j : Nat) : (s.count n j).gaugeBudget = s.gaugeBudget := rfl
@[simp] theorem State.count_ctxs (n j : Nat) : (s.count n j).ctxs = s.ctxs := rfl
@[simp] theorem State.count_recs (n j : Nat) : (s.count n j).recs = s.recs := rfl
@[simp] theorem State.count_arms (n j : Nat) : (s.count n j).arms = s.arms := rfl
@[simp] theorem State.count_launches (n j : Nat) : (s.count n j).launches = s.launches := rfl
@[simp] theorem State.count_leftLaunches (n j : Nat) : (s.count n j).leftLaunches = s.leftLaunches := rfl
@[simp] theorem State.count_entries (n j : Nat) : (s.count n j).entries = s.entries := rfl
@[simp] theorem State.count_objs (n j : Nat) : (s.count n j).objs = s.objs := rfl
@[simp] theorem State.count_nextObj (n j : Nat) : (s.count n j).nextObj = s.nextObj := rfl
@[simp] theorem State.count_holds (n j : Nat) : (s.count n j).holds = s.holds := rfl
@[simp] theorem State.count_lifelines (n j : Nat) : (s.count n j).lifelines = s.lifelines := rfl
@[simp] theorem State.count_attached (n j : Nat) : (s.count n j).attached = s.attached := rfl
@[simp] theorem State.count_intervals (n j : Nat) : (s.count n j).intervals = s.intervals := rfl
@[simp] theorem State.count_session (n j : Nat) : (s.count n j).session = s.session := rfl
@[simp] theorem State.count_ops (n j : Nat) : (s.count n j).ops = s.ops := rfl
@[simp] theorem State.count_endings (n j : Nat) : (s.count n j).endings = s.endings := rfl
@[simp] theorem State.count_ring (n j : Nat) : (s.count n j).ring = s.ring := rfl
@[simp] theorem State.count_ringDropped (n j : Nat) : (s.count n j).ringDropped = s.ringDropped := rfl
@[simp] theorem State.count_drops (n j : Nat) : (s.count n j).drops = s.drops := rfl
@[simp] theorem State.count_packetDrops (n j : Nat) : (s.count n j).packetDrops = s.packetDrops := rfl
@[simp] theorem State.count_heat (n j : Nat) : (s.count n j).heat = s.heat := rfl
@[simp] theorem State.count_snifer (n j : Nat) : (s.count n j).snifer = s.snifer := rfl
@[simp] theorem State.count_sniferOn (n j : Nat) : (s.count n j).sniferOn = s.sniferOn := rfl
@[simp] theorem State.count_routes (n j : Nat) : (s.count n j).routes = s.routes := rfl
@[simp] theorem State.count_ports (n j : Nat) : (s.count n j).ports = s.ports := rfl
@[simp] theorem State.count_peers (n j : Nat) : (s.count n j).peers = s.peers := rfl
@[simp] theorem State.count_requests (n j : Nat) : (s.count n j).requests = s.requests := rfl
@[simp] theorem State.count_nextTid (n j : Nat) : (s.count n j).nextTid = s.nextTid := rfl
@[simp] theorem State.count_devWrites (n j : Nat) : (s.count n j).devWrites = s.devWrites := rfl
@[simp] theorem State.count_nextDev (n j : Nat) : (s.count n j).nextDev = s.nextDev := rfl
@[simp] theorem State.count_releases (n j : Nat) : (s.count n j).releases = s.releases := rfl
@[simp] theorem State.count_clears (n j : Nat) : (s.count n j).clears = s.clears := rfl
@[simp] theorem State.count_relActs (n j : Nat) : (s.count n j).relActs = s.relActs := rfl
@[simp] theorem State.count_fabDropped (n j : Nat) : (s.count n j).fabDropped = s.fabDropped := rfl
@[simp] theorem State.count_lateResponses (n j : Nat) : (s.count n j).lateResponses = s.lateResponses := rfl
@[simp] theorem State.count_lostMail (n j : Nat) : (s.count n j).lostMail = s.lostMail := rfl
@[simp] theorem State.count_sentMail (n j : Nat) : (s.count n j).sentMail = s.sentMail := rfl
@[simp] theorem State.count_beats (n j : Nat) : (s.count n j).beats = s.beats := rfl
@[simp] theorem State.count_failedDies (n j : Nat) : (s.count n j).failedDies = s.failedDies := rfl
@[simp] theorem State.count_inbound (n j : Nat) : (s.count n j).inbound = s.inbound := rfl
@[simp] theorem State.count_clusters (n j : Nat) : (s.count n j).clusters = s.clusters := rfl
@[simp] theorem State.count_cores (n j : Nat) : (s.count n j).cores = s.cores := rfl
@[simp] theorem State.count_agenda (n j : Nat) : (s.count n j).agenda = s.agenda := rfl
@[simp] theorem State.count_turn (n j : Nat) : (s.count n j).turn = s.turn := rfl
@[simp] theorem State.count_steps (n j : Nat) : (s.count n j).steps = s.steps := rfl
@[simp] theorem State.count_clock (n j : Nat) : (s.count n j).clock = s.clock := rfl
@[simp] theorem State.count_toFabric (n j : Nat) : (s.count n j).toFabric = s.toFabric := rfl
@[simp] theorem State.count_toHost (n j : Nat) : (s.count n j).toHost = s.toHost := rfl

/-! ### `State.setStream` -/

@[simp] theorem State.setStream_pkgId (w : Who) (u : Stream) : (s.setStream w u).pkgId = s.pkgId := rfl
@[simp] theorem State.setStream_incarnation (w : Who) (u : Stream) : (s.setStream w u).incarnation = s.incarnation := rfl
@[simp] theorem State.setStream_boots (w : Who) (u : Stream) : (s.setStream w u).boots = s.boots := rfl
@[simp] theorem State.setStream_powered (w : Who) (u : Stream) : (s.setStream w u).powered = s.powered := rfl
@[simp] theorem State.setStream_recovery (w : Who) (u : Stream) : (s.setStream w u).recovery = s.recovery := rfl
@[simp] theorem State.setStream_slot (w : Who) (u : Stream) : (s.setStream w u).slot = s.slot := rfl
@[simp] theorem State.setStream_accepted (w : Who) (u : Stream) : (s.setStream w u).accepted = s.accepted := rfl
@[simp] theorem State.setStream_mem (w : Who) (u : Stream) : (s.setStream w u).mem = s.mem := rfl
@[simp] theorem State.setStream_flash (w : Who) (u : Stream) : (s.setStream w u).flash = s.flash := rfl
@[simp] theorem State.setStream_badMem (w : Who) (u : Stream) : (s.setStream w u).badMem = s.badMem := rfl
@[simp] theorem State.setStream_tags (w : Who) (u : Stream) : (s.setStream w u).tags = s.tags := rfl
@[simp] theorem State.setStream_shadow (w : Who) (u : Stream) : (s.setStream w u).shadow = s.shadow := rfl
@[simp] theorem State.setStream_counters (w : Who) (u : Stream) : (s.setStream w u).counters = s.counters := rfl
@[simp] theorem State.setStream_holdLimit (w : Who) (u : Stream) : (s.setStream w u).holdLimit = s.holdLimit := rfl
@[simp] theorem State.setStream_gaugeBudget (w : Who) (u : Stream) : (s.setStream w u).gaugeBudget = s.gaugeBudget := rfl
@[simp] theorem State.setStream_ctxs (w : Who) (u : Stream) : (s.setStream w u).ctxs = s.ctxs := rfl
@[simp] theorem State.setStream_recs (w : Who) (u : Stream) : (s.setStream w u).recs = s.recs := rfl
@[simp] theorem State.setStream_arms (w : Who) (u : Stream) : (s.setStream w u).arms = s.arms := rfl
@[simp] theorem State.setStream_launches (w : Who) (u : Stream) : (s.setStream w u).launches = s.launches := rfl
@[simp] theorem State.setStream_leftLaunches (w : Who) (u : Stream) : (s.setStream w u).leftLaunches = s.leftLaunches := rfl
@[simp] theorem State.setStream_entries (w : Who) (u : Stream) : (s.setStream w u).entries = s.entries := rfl
@[simp] theorem State.setStream_objs (w : Who) (u : Stream) : (s.setStream w u).objs = s.objs := rfl
@[simp] theorem State.setStream_nextObj (w : Who) (u : Stream) : (s.setStream w u).nextObj = s.nextObj := rfl
@[simp] theorem State.setStream_holds (w : Who) (u : Stream) : (s.setStream w u).holds = s.holds := rfl
@[simp] theorem State.setStream_lifelines (w : Who) (u : Stream) : (s.setStream w u).lifelines = s.lifelines := rfl
@[simp] theorem State.setStream_attached (w : Who) (u : Stream) : (s.setStream w u).attached = s.attached := rfl
@[simp] theorem State.setStream_intervals (w : Who) (u : Stream) : (s.setStream w u).intervals = s.intervals := rfl
@[simp] theorem State.setStream_session (w : Who) (u : Stream) : (s.setStream w u).session = s.session := rfl
@[simp] theorem State.setStream_ops (w : Who) (u : Stream) : (s.setStream w u).ops = s.ops := rfl
@[simp] theorem State.setStream_endings (w : Who) (u : Stream) : (s.setStream w u).endings = s.endings := rfl
@[simp] theorem State.setStream_ring (w : Who) (u : Stream) : (s.setStream w u).ring = s.ring := rfl
@[simp] theorem State.setStream_ringDropped (w : Who) (u : Stream) : (s.setStream w u).ringDropped = s.ringDropped := rfl
@[simp] theorem State.setStream_drops (w : Who) (u : Stream) : (s.setStream w u).drops = s.drops := rfl
@[simp] theorem State.setStream_packetDrops (w : Who) (u : Stream) : (s.setStream w u).packetDrops = s.packetDrops := rfl
@[simp] theorem State.setStream_heat (w : Who) (u : Stream) : (s.setStream w u).heat = s.heat := rfl
@[simp] theorem State.setStream_snifer (w : Who) (u : Stream) : (s.setStream w u).snifer = s.snifer := rfl
@[simp] theorem State.setStream_sniferOn (w : Who) (u : Stream) : (s.setStream w u).sniferOn = s.sniferOn := rfl
@[simp] theorem State.setStream_routes (w : Who) (u : Stream) : (s.setStream w u).routes = s.routes := rfl
@[simp] theorem State.setStream_ports (w : Who) (u : Stream) : (s.setStream w u).ports = s.ports := rfl
@[simp] theorem State.setStream_peers (w : Who) (u : Stream) : (s.setStream w u).peers = s.peers := rfl
@[simp] theorem State.setStream_requests (w : Who) (u : Stream) : (s.setStream w u).requests = s.requests := rfl
@[simp] theorem State.setStream_nextTid (w : Who) (u : Stream) : (s.setStream w u).nextTid = s.nextTid := rfl
@[simp] theorem State.setStream_devWrites (w : Who) (u : Stream) : (s.setStream w u).devWrites = s.devWrites := rfl
@[simp] theorem State.setStream_nextDev (w : Who) (u : Stream) : (s.setStream w u).nextDev = s.nextDev := rfl
@[simp] theorem State.setStream_releases (w : Who) (u : Stream) : (s.setStream w u).releases = s.releases := rfl
@[simp] theorem State.setStream_clears (w : Who) (u : Stream) : (s.setStream w u).clears = s.clears := rfl
@[simp] theorem State.setStream_relActs (w : Who) (u : Stream) : (s.setStream w u).relActs = s.relActs := rfl
@[simp] theorem State.setStream_fabDropped (w : Who) (u : Stream) : (s.setStream w u).fabDropped = s.fabDropped := rfl
@[simp] theorem State.setStream_lateResponses (w : Who) (u : Stream) : (s.setStream w u).lateResponses = s.lateResponses := rfl
@[simp] theorem State.setStream_lostMail (w : Who) (u : Stream) : (s.setStream w u).lostMail = s.lostMail := rfl
@[simp] theorem State.setStream_sentMail (w : Who) (u : Stream) : (s.setStream w u).sentMail = s.sentMail := rfl
@[simp] theorem State.setStream_beats (w : Who) (u : Stream) : (s.setStream w u).beats = s.beats := rfl
@[simp] theorem State.setStream_failedDies (w : Who) (u : Stream) : (s.setStream w u).failedDies = s.failedDies := rfl
@[simp] theorem State.setStream_inbound (w : Who) (u : Stream) : (s.setStream w u).inbound = s.inbound := rfl
@[simp] theorem State.setStream_clusters (w : Who) (u : Stream) : (s.setStream w u).clusters = s.clusters := rfl
@[simp] theorem State.setStream_agenda (w : Who) (u : Stream) : (s.setStream w u).agenda = s.agenda := rfl
@[simp] theorem State.setStream_turn (w : Who) (u : Stream) : (s.setStream w u).turn = s.turn := rfl
@[simp] theorem State.setStream_steps (w : Who) (u : Stream) : (s.setStream w u).steps = s.steps := rfl
@[simp] theorem State.setStream_clock (w : Who) (u : Stream) : (s.setStream w u).clock = s.clock := rfl
@[simp] theorem State.setStream_toFabric (w : Who) (u : Stream) : (s.setStream w u).toFabric = s.toFabric := rfl
@[simp] theorem State.setStream_toHost (w : Who) (u : Stream) : (s.setStream w u).toHost = s.toHost := rfl

/-! ### `State.mapLaunch` -/

@[simp] theorem State.mapLaunch_pkgId (r : Nat) (f : Launch → Launch) : (s.mapLaunch r f).pkgId = s.pkgId := rfl
@[simp] theorem State.mapLaunch_incarnation (r : Nat) (f : Launch → Launch) : (s.mapLaunch r f).incarnation = s.incarnation := rfl
@[simp] theorem State.mapLaunch_boots (r : Nat) (f : Launch → Launch) : (s.mapLaunch r f).boots = s.boots := rfl
@[simp] theorem State.mapLaunch_powered (r : Nat) (f : Launch → Launch) : (s.mapLaunch r f).powered = s.powered := rfl
@[simp] theorem State.mapLaunch_recovery (r : Nat) (f : Launch → Launch) : (s.mapLaunch r f).recovery = s.recovery := rfl
@[simp] theorem State.mapLaunch_slot (r : Nat) (f : Launch → Launch) : (s.mapLaunch r f).slot = s.slot := rfl
@[simp] theorem State.mapLaunch_accepted (r : Nat) (f : Launch → Launch) : (s.mapLaunch r f).accepted = s.accepted := rfl
@[simp] theorem State.mapLaunch_mem (r : Nat) (f : Launch → Launch) : (s.mapLaunch r f).mem = s.mem := rfl
@[simp] theorem State.mapLaunch_flash (r : Nat) (f : Launch → Launch) : (s.mapLaunch r f).flash = s.flash := rfl
@[simp] theorem State.mapLaunch_badMem (r : Nat) (f : Launch → Launch) : (s.mapLaunch r f).badMem = s.badMem := rfl
@[simp] theorem State.mapLaunch_tags (r : Nat) (f : Launch → Launch) : (s.mapLaunch r f).tags = s.tags := rfl
@[simp] theorem State.mapLaunch_shadow (r : Nat) (f : Launch → Launch) : (s.mapLaunch r f).shadow = s.shadow := rfl
@[simp] theorem State.mapLaunch_counters (r : Nat) (f : Launch → Launch) : (s.mapLaunch r f).counters = s.counters := rfl
@[simp] theorem State.mapLaunch_holdLimit (r : Nat) (f : Launch → Launch) : (s.mapLaunch r f).holdLimit = s.holdLimit := rfl
@[simp] theorem State.mapLaunch_gaugeBudget (r : Nat) (f : Launch → Launch) : (s.mapLaunch r f).gaugeBudget = s.gaugeBudget := rfl
@[simp] theorem State.mapLaunch_ctxs (r : Nat) (f : Launch → Launch) : (s.mapLaunch r f).ctxs = s.ctxs := rfl
@[simp] theorem State.mapLaunch_recs (r : Nat) (f : Launch → Launch) : (s.mapLaunch r f).recs = s.recs := rfl
@[simp] theorem State.mapLaunch_arms (r : Nat) (f : Launch → Launch) : (s.mapLaunch r f).arms = s.arms := rfl
@[simp] theorem State.mapLaunch_leftLaunches (r : Nat) (f : Launch → Launch) : (s.mapLaunch r f).leftLaunches = s.leftLaunches := rfl
@[simp] theorem State.mapLaunch_entries (r : Nat) (f : Launch → Launch) : (s.mapLaunch r f).entries = s.entries := rfl
@[simp] theorem State.mapLaunch_objs (r : Nat) (f : Launch → Launch) : (s.mapLaunch r f).objs = s.objs := rfl
@[simp] theorem State.mapLaunch_nextObj (r : Nat) (f : Launch → Launch) : (s.mapLaunch r f).nextObj = s.nextObj := rfl
@[simp] theorem State.mapLaunch_holds (r : Nat) (f : Launch → Launch) : (s.mapLaunch r f).holds = s.holds := rfl
@[simp] theorem State.mapLaunch_lifelines (r : Nat) (f : Launch → Launch) : (s.mapLaunch r f).lifelines = s.lifelines := rfl
@[simp] theorem State.mapLaunch_attached (r : Nat) (f : Launch → Launch) : (s.mapLaunch r f).attached = s.attached := rfl
@[simp] theorem State.mapLaunch_intervals (r : Nat) (f : Launch → Launch) : (s.mapLaunch r f).intervals = s.intervals := rfl
@[simp] theorem State.mapLaunch_session (r : Nat) (f : Launch → Launch) : (s.mapLaunch r f).session = s.session := rfl
@[simp] theorem State.mapLaunch_ops (r : Nat) (f : Launch → Launch) : (s.mapLaunch r f).ops = s.ops := rfl
@[simp] theorem State.mapLaunch_endings (r : Nat) (f : Launch → Launch) : (s.mapLaunch r f).endings = s.endings := rfl
@[simp] theorem State.mapLaunch_ring (r : Nat) (f : Launch → Launch) : (s.mapLaunch r f).ring = s.ring := rfl
@[simp] theorem State.mapLaunch_ringDropped (r : Nat) (f : Launch → Launch) : (s.mapLaunch r f).ringDropped = s.ringDropped := rfl
@[simp] theorem State.mapLaunch_drops (r : Nat) (f : Launch → Launch) : (s.mapLaunch r f).drops = s.drops := rfl
@[simp] theorem State.mapLaunch_packetDrops (r : Nat) (f : Launch → Launch) : (s.mapLaunch r f).packetDrops = s.packetDrops := rfl
@[simp] theorem State.mapLaunch_heat (r : Nat) (f : Launch → Launch) : (s.mapLaunch r f).heat = s.heat := rfl
@[simp] theorem State.mapLaunch_snifer (r : Nat) (f : Launch → Launch) : (s.mapLaunch r f).snifer = s.snifer := rfl
@[simp] theorem State.mapLaunch_sniferOn (r : Nat) (f : Launch → Launch) : (s.mapLaunch r f).sniferOn = s.sniferOn := rfl
@[simp] theorem State.mapLaunch_routes (r : Nat) (f : Launch → Launch) : (s.mapLaunch r f).routes = s.routes := rfl
@[simp] theorem State.mapLaunch_ports (r : Nat) (f : Launch → Launch) : (s.mapLaunch r f).ports = s.ports := rfl
@[simp] theorem State.mapLaunch_peers (r : Nat) (f : Launch → Launch) : (s.mapLaunch r f).peers = s.peers := rfl
@[simp] theorem State.mapLaunch_requests (r : Nat) (f : Launch → Launch) : (s.mapLaunch r f).requests = s.requests := rfl
@[simp] theorem State.mapLaunch_nextTid (r : Nat) (f : Launch → Launch) : (s.mapLaunch r f).nextTid = s.nextTid := rfl
@[simp] theorem State.mapLaunch_devWrites (r : Nat) (f : Launch → Launch) : (s.mapLaunch r f).devWrites = s.devWrites := rfl
@[simp] theorem State.mapLaunch_nextDev (r : Nat) (f : Launch → Launch) : (s.mapLaunch r f).nextDev = s.nextDev := rfl
@[simp] theorem State.mapLaunch_releases (r : Nat) (f : Launch → Launch) : (s.mapLaunch r f).releases = s.releases := rfl
@[simp] theorem State.mapLaunch_clears (r : Nat) (f : Launch → Launch) : (s.mapLaunch r f).clears = s.clears := rfl
@[simp] theorem State.mapLaunch_relActs (r : Nat) (f : Launch → Launch) : (s.mapLaunch r f).relActs = s.relActs := rfl
@[simp] theorem State.mapLaunch_fabDropped (r : Nat) (f : Launch → Launch) : (s.mapLaunch r f).fabDropped = s.fabDropped := rfl
@[simp] theorem State.mapLaunch_lateResponses (r : Nat) (f : Launch → Launch) : (s.mapLaunch r f).lateResponses = s.lateResponses := rfl
@[simp] theorem State.mapLaunch_lostMail (r : Nat) (f : Launch → Launch) : (s.mapLaunch r f).lostMail = s.lostMail := rfl
@[simp] theorem State.mapLaunch_sentMail (r : Nat) (f : Launch → Launch) : (s.mapLaunch r f).sentMail = s.sentMail := rfl
@[simp] theorem State.mapLaunch_beats (r : Nat) (f : Launch → Launch) : (s.mapLaunch r f).beats = s.beats := rfl
@[simp] theorem State.mapLaunch_failedDies (r : Nat) (f : Launch → Launch) : (s.mapLaunch r f).failedDies = s.failedDies := rfl
@[simp] theorem State.mapLaunch_inbound (r : Nat) (f : Launch → Launch) : (s.mapLaunch r f).inbound = s.inbound := rfl
@[simp] theorem State.mapLaunch_clusters (r : Nat) (f : Launch → Launch) : (s.mapLaunch r f).clusters = s.clusters := rfl
@[simp] theorem State.mapLaunch_cores (r : Nat) (f : Launch → Launch) : (s.mapLaunch r f).cores = s.cores := rfl
@[simp] theorem State.mapLaunch_agenda (r : Nat) (f : Launch → Launch) : (s.mapLaunch r f).agenda = s.agenda := rfl
@[simp] theorem State.mapLaunch_turn (r : Nat) (f : Launch → Launch) : (s.mapLaunch r f).turn = s.turn := rfl
@[simp] theorem State.mapLaunch_steps (r : Nat) (f : Launch → Launch) : (s.mapLaunch r f).steps = s.steps := rfl
@[simp] theorem State.mapLaunch_clock (r : Nat) (f : Launch → Launch) : (s.mapLaunch r f).clock = s.clock := rfl
@[simp] theorem State.mapLaunch_toFabric (r : Nat) (f : Launch → Launch) : (s.mapLaunch r f).toFabric = s.toFabric := rfl
@[simp] theorem State.mapLaunch_toHost (r : Nat) (f : Launch → Launch) : (s.mapLaunch r f).toHost = s.toHost := rfl

/-! ### Reading back -/

@[simp] theorem State.core_setCore_self (c : Nat) (j : Core) : (s.setCore c j).core c = j := by
  simp [State.core, State.setCore]

theorem State.core_setCore_ne {c d : Nat} (j : Core) (h : d ≠ c) : (s.setCore c j).core d = s.core d := by
  simp [State.core, State.setCore, tget_tset_ne _ _ _ h]

@[simp] theorem State.setCore_setCore (c : Nat) (j l : Core) : (s.setCore c j).setCore c l = s.setCore c l := by
  simp [State.setCore]

@[simp] theorem State.cluster_setCluster_self (g : Nat) (j : Cluster) : (s.setCluster g j).cluster g = j := by
  simp [State.cluster, State.setCluster]

@[simp] theorem State.ctx_setCtx_self (n : Nat) (j : Ctx) : (s.setCtx n j).ctx n = j := by
  simp [State.ctx, State.setCtx]

@[simp] theorem State.lrec_setLrec_self (n : Nat) (j : Rec) : (s.setLrec n j).lrec n = j := by
  simp [State.lrec, State.setLrec]

@[simp] theorem State.counter_count_self (n j : Nat) : (s.count n j).counter n = s.counter n + j := by
  simp [State.counter, State.count]

@[simp] theorem State.cluster_setCore (c : Nat) (j : Core) (m : Nat) : (s.setCore c j).cluster m = s.cluster m := rfl
@[simp] theorem State.ctx_setCore (c : Nat) (j : Core) (m : Nat) : (s.setCore c j).ctx m = s.ctx m := rfl
@[simp] theorem State.lrec_setCore (c : Nat) (j : Core) (m : Nat) : (s.setCore c j).lrec m = s.lrec m := rfl
@[simp] theorem State.peer_setCore (c : Nat) (j : Core) (m : Nat) : (s.setCore c j).peer m = s.peer m := rfl
@[simp] theorem State.core_setCluster (g : Nat) (j : Cluster) (m : Nat) : (s.setCluster g j).core m = s.core m := rfl
@[simp] theorem State.ctx_setCluster (g : Nat) (j : Cluster) (m : Nat) : (s.setCluster g j).ctx m = s.ctx m := rfl
@[simp] theorem State.lrec_setCluster (g : Nat) (j : Cluster) (m : Nat) : (s.setCluster g j).lrec m = s.lrec m := rfl
@[simp] theorem State.peer_setCluster (g : Nat) (j : Cluster) (m : Nat) : (s.setCluster g j).peer m = s.peer m := rfl
@[simp] theorem State.core_setCtx (n : Nat) (j : Ctx) (m : Nat) : (s.setCtx n j).core m = s.core m := rfl
@[simp] theorem State.cluster_setCtx (n : Nat) (j : Ctx) (m : Nat) : (s.setCtx n j).cluster m = s.cluster m := rfl
@[simp] theorem State.lrec_setCtx (n : Nat) (j : Ctx) (m : Nat) : (s.setCtx n j).lrec m = s.lrec m := rfl
@[simp] theorem State.peer_setCtx (n : Nat) (j : Ctx) (m : Nat) : (s.setCtx n j).peer m = s.peer m := rfl
@[simp] theorem State.core_setLrec (n : Nat) (j : Rec) (m : Nat) : (s.setLrec n j).core m = s.core m := rfl
@[simp] theorem State.cluster_setLrec (n : Nat) (j : Rec) (m : Nat) : (s.setLrec n j).cluster m = s.cluster m := rfl
@[simp] theorem State.ctx_setLrec (n : Nat) (j : Rec) (m : Nat) : (s.setLrec n j).ctx m = s.ctx m := rfl
@[simp] theorem State.peer_setLrec (n : Nat) (j : Rec) (m : Nat) : (s.setLrec n j).peer m = s.peer m := rfl
@[simp] theorem State.core_count (n j : Nat) (m : Nat) : (s.count n j).core m = s.core m := rfl
@[simp] theorem State.cluster_count (n j : Nat) (m : Nat) : (s.count n j).cluster m = s.cluster m := rfl
@[simp] theorem State.ctx_count (n j : Nat) (m : Nat) : (s.count n j).ctx m = s.ctx m := rfl
@[simp] theorem State.lrec_count (n j : Nat) (m : Nat) : (s.count n j).lrec m = s.lrec m := rfl
@[simp] theorem State.peer_count (n j : Nat) (m : Nat) : (s.count n j).peer m = s.peer m := rfl
@[simp] theorem State.cluster_setStream (w : Who) (u : Stream) (m : Nat) : (s.setStream w u).cluster m = s.cluster m := rfl
@[simp] theorem State.ctx_setStream (w : Who) (u : Stream) (m : Nat) : (s.setStream w u).ctx m = s.ctx m := rfl
@[simp] theorem State.lrec_setStream (w : Who) (u : Stream) (m : Nat) : (s.setStream w u).lrec m = s.lrec m := rfl
@[simp] theorem State.peer_setStream (w : Who) (u : Stream) (m : Nat) : (s.setStream w u).peer m = s.peer m := rfl
@[simp] theorem State.core_mapLaunch (r : Nat) (f : Launch → Launch) (m : Nat) : (s.mapLaunch r f).core m = s.core m := rfl
@[simp] theorem State.cluster_mapLaunch (r : Nat) (f : Launch → Launch) (m : Nat) : (s.mapLaunch r f).cluster m = s.cluster m := rfl
@[simp] theorem State.ctx_mapLaunch (r : Nat) (f : Launch → Launch) (m : Nat) : (s.mapLaunch r f).ctx m = s.ctx m := rfl
@[simp] theorem State.lrec_mapLaunch (r : Nat) (f : Launch → Launch) (m : Nat) : (s.mapLaunch r f).lrec m = s.lrec m := rfl
@[simp] theorem State.peer_mapLaunch (r : Nat) (f : Launch → Launch) (m : Nat) : (s.mapLaunch r f).peer m = s.peer m := rfl

/-! ### `Core.setStream` -/

@[simp] theorem Core.setStream_job (e : Eng) (u : Stream) : (k.setStream e u).job = k.job := by cases e <;> rfl
@[simp] theorem Core.setStream_held (e : Eng) (u : Stream) : (k.setStream e u).held = k.held := by cases e <;> rfl
@[simp] theorem Core.setStream_heldSince (e : Eng) (u : Stream) : (k.setStream e u).heldSince = k.heldSince := by cases e <;> rfl
@[simp] theorem Core.setStream_stopped (e : Eng) (u : Stream) : (k.setStream e u).stopped = k.stopped := by cases e <;> rfl
@[simp] theorem Core.setStream_as (e : Eng) (u : Stream) : (k.setStream e u).as = k.as := by cases e <;> rfl
@[simp] theorem Core.setStream_xs (e : Eng) (u : Stream) : (k.setStream e u).xs = k.xs := by cases e <;> rfl
@[simp] theorem Core.setStream_ms (e : Eng) (u : Stream) : (k.setStream e u).ms = k.ms := by cases e <;> rfl
@[simp] theorem Core.setStream_q (e : Eng) (u : Stream) : (k.setStream e u).q = k.q := by cases e <;> rfl
@[simp] theorem Core.setStream_w (e : Eng) (u : Stream) : (k.setStream e u).w = k.w := by cases e <;> rfl
@[simp] theorem Core.setStream_tokens (e : Eng) (u : Stream) : (k.setStream e u).tokens = k.tokens := by cases e <;> rfl
@[simp] theorem Core.setStream_reserved (e : Eng) (u : Stream) : (k.setStream e u).reserved = k.reserved := by cases e <;> rfl
@[simp] theorem Core.setStream_mbox (e : Eng) (u : Stream) : (k.setStream e u).mbox = k.mbox := by cases e <;> rfl
@[simp] theorem Core.setStream_holding (e : Eng) (u : Stream) : (k.setStream e u).holding = k.holding := by cases e <;> rfl
@[simp] theorem Core.setStream_outbound (e : Eng) (u : Stream) : (k.setStream e u).outbound = k.outbound := by cases e <;> rfl
@[simp] theorem Core.setStream_tile (e : Eng) (u : Stream) : (k.setStream e u).tile = k.tile := by cases e <;> rfl
@[simp] theorem Core.setStream_ownM (e : Eng) (u : Stream) : (k.setStream e u).ownM = k.ownM := by cases e <;> rfl
@[simp] theorem Core.setStream_badTile (e : Eng) (u : Stream) : (k.setStream e u).badTile = k.badTile := by cases e <;> rfl
@[simp] theorem Core.setStream_badParity (e : Eng) (u : Stream) : (k.setStream e u).badParity = k.badParity := by cases e <;> rfl
@[simp] theorem Core.setStream_badCode (e : Eng) (u : Stream) : (k.setStream e u).badCode = k.badCode := by cases e <;> rfl
@[simp] theorem Core.setStream_conflicts (e : Eng) (u : Stream) : (k.setStream e u).conflicts = k.conflicts := by cases e <;> rfl
@[simp] theorem Core.setStream_gtlb (e : Eng) (u : Stream) : (k.setStream e u).gtlb = k.gtlb := by cases e <;> rfl
@[simp] theorem Core.setStream_pairs (e : Eng) (u : Stream) : (k.setStream e u).pairs = k.pairs := by cases e <;> rfl
@[simp] theorem Core.setStream_det (e : Eng) (u : Stream) : (k.setStream e u).det = k.det := by cases e <;> rfl
@[simp] theorem Core.setStream_bars (e : Eng) (u : Stream) : (k.setStream e u).bars = k.bars := by cases e <;> rfl
@[simp] theorem Core.setStream_barCount (e : Eng) (u : Stream) : (k.setStream e u).barCount = k.barCount := by cases e <;> rfl
@[simp] theorem Core.setStream_nextId (e : Eng) (u : Stream) : (k.setStream e u).nextId = k.nextId := by cases e <;> rfl
@[simp] theorem Core.stream_setStream_self (e : Eng) (u : Stream) : (k.setStream e u).stream e = u := by
  cases e <;> rfl

theorem Core.stream_setStream_ne {e f : Eng} (u : Stream) (h : f ≠ e) : (k.setStream e u).stream f = k.stream f := by
  cases e <;> cases f <;> first | rfl | exact absurd rfl h

@[simp] theorem Core.setStream_setStream (e : Eng) (u v : Stream) :
    (k.setStream e u).setStream e v = k.setStream e v := by cases e <;> rfl

@[simp] theorem Core.setStream_stream (e : Eng) : k.setStream e (k.stream e) = k := by cases e <;> rfl

@[simp] theorem State.stream_setStream_self (w : Who) (u : Stream) : (s.setStream w u).stream w = u := by
  simp [State.stream, State.setStream]

theorem State.stream_setStream_ne {w v : Who} (u : Stream) (h : v ≠ w) : (s.setStream w u).stream v = s.stream v := by
  unfold State.stream State.setStream
  by_cases hc : v.core = w.core
  · have he : v.eng ≠ w.eng := fun e => h (by cases v; cases w; simp_all)
    rw [hc, State.core_setCore_self, Core.stream_setStream_ne _ _ he]
  · rw [State.core_setCore_ne _ _ hc]

@[simp] theorem State.setStream_setStream (w : Who) (u v : Stream) :
    (s.setStream w u).setStream w v = s.setStream w v := by
  simp [State.setStream]

@[simp] theorem State.stream_setCore_self (c : Nat) (j : Core) (e : Eng) : (s.setCore c j).stream ⟨c, e⟩ = j.stream e := by
  simp [State.stream]

theorem State.stream_core (w : Who) : (s.core w.core).stream w.eng = s.stream w := rfl

@[simp] theorem State.setCore_setStream (w : Who) (j : Core) (u : Stream) :
    (s.setCore w.core j).setStream w u = s.setCore w.core (j.setStream w.eng u) := by
  simp [State.setStream]

@[simp] theorem State.core_setStream_self (w : Who) (u : Stream) :
    (s.setStream w u).core w.core = (s.core w.core).setStream w.eng u := by simp [State.setStream]

theorem State.core_setStream_ne (w : Who) (u : Stream) {d : Nat} (h : d ≠ w.core) :
    (s.setStream w u).core d = s.core d := by
  simp [State.setStream, State.core_setCore_ne _ _ h]

/-! ### Updates of a stream -/

@[simp] theorem Stream.setMode_run (p q : Bool) : (t.setMode p q).run = t.run := rfl
@[simp] theorem Stream.setMode_pc (p q : Bool) : (t.setMode p q).pc = t.pc := rfl
@[simp] theorem Stream.setMode_cause (p q : Bool) : (t.setMode p q).cause = t.cause := rfl
@[simp] theorem Stream.setMode_epc (p q : Bool) : (t.setMode p q).epc = t.epc := rfl
@[simp] theorem Stream.setMode_tval (p q : Bool) : (t.setMode p q).tval = t.tval := rfl
@[simp] theorem Stream.setMode_tvec (p q : Bool) : (t.setMode p q).tvec = t.tvec := rfl
@[simp] theorem Stream.setMode_tscr (p q : Bool) : (t.setMode p q).tscr = t.tscr := rfl
@[simp] theorem Stream.setMode_qflags (p q : Bool) : (t.setMode p q).qflags = t.qflags := rfl
@[simp] theorem Stream.setMode_npdef (p q : Bool) : (t.setMode p q).npdef = t.npdef := rfl
@[simp] theorem Stream.setMode_dph (p q : Bool) : (t.setMode p q).dph = t.dph := rfl
@[simp] theorem Stream.setMode_regs (p q : Bool) : (t.setMode p q).regs = t.regs := rfl
@[simp] theorem Stream.setMode_empty (p q : Bool) : (t.setMode p q).empty = t.empty := rfl
@[simp] theorem Stream.setMode_loops (p q : Bool) : (t.setMode p q).loops = t.loops := rfl
@[simp] theorem Stream.setMode_pend (p q : Bool) : (t.setMode p q).pend = t.pend := rfl
@[simp] theorem Stream.setMode_late (p q : Bool) : (t.setMode p q).late = t.late := rfl
@[simp] theorem Stream.setMode_taken (p q : Bool) : (t.setMode p q).taken = t.taken := rfl
@[simp] theorem Stream.setMode_at_ (p q : Bool) : (t.setMode p q).at_ = t.at_ := rfl
@[simp] theorem Stream.setMode_stood (p q : Bool) : (t.setMode p q).stood = t.stood := rfl
@[simp] theorem Stream.setMode_wants (p q : Bool) : (t.setMode p q).wants = t.wants := rfl
@[simp] theorem Stream.addFlags_run (f : Word) : (t.addFlags f).run = t.run := rfl
@[simp] theorem Stream.addFlags_pc (f : Word) : (t.addFlags f).pc = t.pc := rfl
@[simp] theorem Stream.addFlags_status (f : Word) : (t.addFlags f).status = t.status := rfl
@[simp] theorem Stream.addFlags_cause (f : Word) : (t.addFlags f).cause = t.cause := rfl
@[simp] theorem Stream.addFlags_epc (f : Word) : (t.addFlags f).epc = t.epc := rfl
@[simp] theorem Stream.addFlags_tval (f : Word) : (t.addFlags f).tval = t.tval := rfl
@[simp] theorem Stream.addFlags_tvec (f : Word) : (t.addFlags f).tvec = t.tvec := rfl
@[simp] theorem Stream.addFlags_tscr (f : Word) : (t.addFlags f).tscr = t.tscr := rfl
@[simp] theorem Stream.addFlags_npdef (f : Word) : (t.addFlags f).npdef = t.npdef := rfl
@[simp] theorem Stream.addFlags_dph (f : Word) : (t.addFlags f).dph = t.dph := rfl
@[simp] theorem Stream.addFlags_regs (f : Word) : (t.addFlags f).regs = t.regs := rfl
@[simp] theorem Stream.addFlags_empty (f : Word) : (t.addFlags f).empty = t.empty := rfl
@[simp] theorem Stream.addFlags_loops (f : Word) : (t.addFlags f).loops = t.loops := rfl
@[simp] theorem Stream.addFlags_pend (f : Word) : (t.addFlags f).pend = t.pend := rfl
@[simp] theorem Stream.addFlags_late (f : Word) : (t.addFlags f).late = t.late := rfl
@[simp] theorem Stream.addFlags_taken (f : Word) : (t.addFlags f).taken = t.taken := rfl
@[simp] theorem Stream.addFlags_at_ (f : Word) : (t.addFlags f).at_ = t.at_ := rfl
@[simp] theorem Stream.addFlags_stood (f : Word) : (t.addFlags f).stood = t.stood := rfl
@[simp] theorem Stream.addFlags_wants (f : Word) : (t.addFlags f).wants = t.wants := rfl
@[simp] theorem Stream.markEmpty_run (n : Nat) : (t.markEmpty n).run = t.run := by
  unfold Stream.markEmpty; split <;> rfl
@[simp] theorem Stream.markEmpty_pc (n : Nat) : (t.markEmpty n).pc = t.pc := by
  unfold Stream.markEmpty; split <;> rfl
@[simp] theorem Stream.markEmpty_status (n : Nat) : (t.markEmpty n).status = t.status := by
  unfold Stream.markEmpty; split <;> rfl
@[simp] theorem Stream.markEmpty_cause (n : Nat) : (t.markEmpty n).cause = t.cause := by
  unfold Stream.markEmpty; split <;> rfl
@[simp] theorem Stream.markEmpty_epc (n : Nat) : (t.markEmpty n).epc = t.epc := by
  unfold Stream.markEmpty; split <;> rfl
@[simp] theorem Stream.markEmpty_tval (n : Nat) : (t.markEmpty n).tval = t.tval := by
  unfold Stream.markEmpty; split <;> rfl
@[simp] theorem Stream.markEmpty_tvec (n : Nat) : (t.markEmpty n).tvec = t.tvec := by
  unfold Stream.markEmpty; split <;> rfl
@[simp] theorem Stream.markEmpty_tscr (n : Nat) : (t.markEmpty n).tscr = t.tscr := by
  unfold Stream.markEmpty; split <;> rfl
@[simp] theorem Stream.markEmpty_qflags (n : Nat) : (t.markEmpty n).qflags = t.qflags := by
  unfold Stream.markEmpty; split <;> rfl
@[simp] theorem Stream.markEmpty_npdef (n : Nat) : (t.markEmpty n).npdef = t.npdef := by
  unfold Stream.markEmpty; split <;> rfl
@[simp] theorem Stream.markEmpty_dph (n : Nat) : (t.markEmpty n).dph = t.dph := by
  unfold Stream.markEmpty; split <;> rfl
@[simp] theorem Stream.markEmpty_regs (n : Nat) : (t.markEmpty n).regs = t.regs := by
  unfold Stream.markEmpty; split <;> rfl
@[simp] theorem Stream.markEmpty_loops (n : Nat) : (t.markEmpty n).loops = t.loops := by
  unfold Stream.markEmpty; split <;> rfl
@[simp] theorem Stream.markEmpty_pend (n : Nat) : (t.markEmpty n).pend = t.pend := by
  unfold Stream.markEmpty; split <;> rfl
@[simp] theorem Stream.markEmpty_late (n : Nat) : (t.markEmpty n).late = t.late := by
  unfold Stream.markEmpty; split <;> rfl
@[simp] theorem Stream.markEmpty_taken (n : Nat) : (t.markEmpty n).taken = t.taken := by
  unfold Stream.markEmpty; split <;> rfl
@[simp] theorem Stream.markEmpty_at_ (n : Nat) : (t.markEmpty n).at_ = t.at_ := by
  unfold Stream.markEmpty; split <;> rfl
@[simp] theorem Stream.markEmpty_stood (n : Nat) : (t.markEmpty n).stood = t.stood := by
  unfold Stream.markEmpty; split <;> rfl
@[simp] theorem Stream.markEmpty_wants (n : Nat) : (t.markEmpty n).wants = t.wants := by
  unfold Stream.markEmpty; split <;> rfl
@[simp] theorem Stream.markFull_run (n : Nat) : (t.markFull n).run = t.run := rfl
@[simp] theorem Stream.markFull_pc (n : Nat) : (t.markFull n).pc = t.pc := rfl
@[simp] theorem Stream.markFull_status (n : Nat) : (t.markFull n).status = t.status := rfl
@[simp] theorem Stream.markFull_cause (n : Nat) : (t.markFull n).cause = t.cause := rfl
@[simp] theorem Stream.markFull_epc (n : Nat) : (t.markFull n).epc = t.epc := rfl
@[simp] theorem Stream.markFull_tval (n : Nat) : (t.markFull n).tval = t.tval := rfl
@[simp] theorem Stream.markFull_tvec (n : Nat) : (t.markFull n).tvec = t.tvec := rfl
@[simp] theorem Stream.markFull_tscr (n : Nat) : (t.markFull n).tscr = t.tscr := rfl
@[simp] theorem Stream.markFull_qflags (n : Nat) : (t.markFull n).qflags = t.qflags := rfl
@[simp] theorem Stream.markFull_npdef (n : Nat) : (t.markFull n).npdef = t.npdef := rfl
@[simp] theorem Stream.markFull_dph (n : Nat) : (t.markFull n).dph = t.dph := rfl
@[simp] theorem Stream.markFull_regs (n : Nat) : (t.markFull n).regs = t.regs := rfl
@[simp] theorem Stream.markFull_loops (n : Nat) : (t.markFull n).loops = t.loops := rfl
@[simp] theorem Stream.markFull_pend (n : Nat) : (t.markFull n).pend = t.pend := rfl
@[simp] theorem Stream.markFull_late (n : Nat) : (t.markFull n).late = t.late := rfl
@[simp] theorem Stream.markFull_taken (n : Nat) : (t.markFull n).taken = t.taken := rfl
@[simp] theorem Stream.markFull_at_ (n : Nat) : (t.markFull n).at_ = t.at_ := rfl
@[simp] theorem Stream.markFull_stood (n : Nat) : (t.markFull n).stood = t.stood := rfl
@[simp] theorem Stream.markFull_wants (n : Nat) : (t.markFull n).wants = t.wants := rfl
@[simp] theorem Stream.stepPhase_run (r : Rnd) : (t.stepPhase r).run = t.run := by
  unfold Stream.stepPhase; split <;> rfl
@[simp] theorem Stream.stepPhase_pc (r : Rnd) : (t.stepPhase r).pc = t.pc := by
  unfold Stream.stepPhase; split <;> rfl
@[simp] theorem Stream.stepPhase_status (r : Rnd) : (t.stepPhase r).status = t.status := by
  unfold Stream.stepPhase; split <;> rfl
@[simp] theorem Stream.stepPhase_cause (r : Rnd) : (t.stepPhase r).cause = t.cause := by
  unfold Stream.stepPhase; split <;> rfl
@[simp] theorem Stream.stepPhase_epc (r : Rnd) : (t.stepPhase r).epc = t.epc := by
  unfold Stream.stepPhase; split <;> rfl
@[simp] theorem Stream.stepPhase_tval (r : Rnd) : (t.stepPhase r).tval = t.tval := by
  unfold Stream.stepPhase; split <;> rfl
@[simp] theorem Stream.stepPhase_tvec (r : Rnd) : (t.stepPhase r).tvec = t.tvec := by
  unfold Stream.stepPhase; split <;> rfl
@[simp] theorem Stream.stepPhase_tscr (r : Rnd) : (t.stepPhase r).tscr = t.tscr := by
  unfold Stream.stepPhase; split <;> rfl
@[simp] theorem Stream.stepPhase_qflags (r : Rnd) : (t.stepPhase r).qflags = t.qflags := by
  unfold Stream.stepPhase; split <;> rfl
@[simp] theorem Stream.stepPhase_npdef (r : Rnd) : (t.stepPhase r).npdef = t.npdef := by
  unfold Stream.stepPhase; split <;> rfl
@[simp] theorem Stream.stepPhase_regs (r : Rnd) : (t.stepPhase r).regs = t.regs := by
  unfold Stream.stepPhase; split <;> rfl
@[simp] theorem Stream.stepPhase_empty (r : Rnd) : (t.stepPhase r).empty = t.empty := by
  unfold Stream.stepPhase; split <;> rfl
@[simp] theorem Stream.stepPhase_loops (r : Rnd) : (t.stepPhase r).loops = t.loops := by
  unfold Stream.stepPhase; split <;> rfl
@[simp] theorem Stream.stepPhase_pend (r : Rnd) : (t.stepPhase r).pend = t.pend := by
  unfold Stream.stepPhase; split <;> rfl
@[simp] theorem Stream.stepPhase_late (r : Rnd) : (t.stepPhase r).late = t.late := by
  unfold Stream.stepPhase; split <;> rfl
@[simp] theorem Stream.stepPhase_taken (r : Rnd) : (t.stepPhase r).taken = t.taken := by
  unfold Stream.stepPhase; split <;> rfl
@[simp] theorem Stream.stepPhase_at_ (r : Rnd) : (t.stepPhase r).at_ = t.at_ := by
  unfold Stream.stepPhase; split <;> rfl
@[simp] theorem Stream.stepPhase_stood (r : Rnd) : (t.stepPhase r).stood = t.stood := by
  unfold Stream.stepPhase; split <;> rfl
@[simp] theorem Stream.stepPhase_wants (r : Rnd) : (t.stepPhase r).wants = t.wants := by
  unfold Stream.stepPhase; split <;> rfl

@[simp] theorem Stream.addFlags_qflags (f : Word) : (t.addFlags f).qflags = t.qflags ||| f := rfl

end Sys2Proof.Machine
end

