-- ==== Sys2Proof/Laws/Finish.lean ====
section
/-! SUPPORT. How an instruction ends: what completing, waiting and writing a register do, once for every form. -/

namespace Sys2Proof.Machine

theorem who_of_acts {s : State} {w : Who} (h : Acts s w) : s.who = w := by
  simp [State.who, Acts] at *
  rw [h]

theorem whoOn_of_acts {s : State} {w : Who} {e : Eng} (h : Acts s w) : s.whoOn e = ⟨w.core, e⟩ := by
  simp [State.whoOn, who_of_acts h]

theorem needRegs_of_full {s : State} {w : Who} {ns : List Nat} (k : Res) (h : Full s w ns) : needRegs s w ns k = k := by
  have : ns.all (fun n => (s.stream w).full n) = true := List.all_eq_true.mpr h
  simp [needRegs, this]

@[simp] theorem needRegs_nil (s : State) (w : Who) (k : Res) : needRegs s w [] k = k := rfl

theorem setLoops_same (k : Core) (e : Eng) (l : List LoopEnt) (h : (k.stream e).loops = l) : k.setLoops e l = k := by
  subst h
  cases e <;> rfl

/-- The loop check leaves everything alone where the instruction stays in the open body. -/
theorem afterCompletion_stays {e : Eng} {k : Core} {next : Word} {ctl call : Bool}
    (h : StaysIn (k.stream e) next ctl call) :
    afterCompletion e (k.stream e).pc next ctl call k (k.stream e).loops [] = ⟨k, next, false, []⟩ := by
  unfold StaysIn at h
  cases hl : (k.stream e).loops with
  | nil => simp only [afterCompletion]; rw [setLoops_same k e [] hl]
  | cons l t =>
    rw [hl] at h
    have hs : k.setLoops e (l :: t) = k := setLoops_same k e _ hl
    simp only [afterCompletion, Bool.or_eq_true, decide_eq_true_eq, Bool.and_eq_true, Bool.not_eq_true', hs]
    split
    · rfl
    · next hout =>
      have hin : ¬ (k.stream e).pc.toNat < l.start.toNat ∧ ¬ l.stop.toNat < (k.stream e).pc.toNat := by
        constructor
        · exact fun c => hout (Or.inl c)
        · exact fun c => hout (Or.inr c)
      rcases h with h | h | ⟨h1, h2⟩
      · exact absurd h hin.1
      · exact absurd h hin.2
      · split
        · next hend =>
          have := h1 hend.1
          simp [hend.2] at this
        · split
          · rfl
          · next hnext =>
            rcases h2 with h2 | h2
            · exact absurd h2 hnext
            · simp [h2]

/-- An instruction that stays in the open loops completes by moving the pc. -/
theorem retireAt_stays {w : Who} {next : Word} {ctl call : Bool} {s : State}
    (h : StaysIn (s.stream w) next ctl call) : retireAt w (s.stream w).pc next ctl call s = s.goTo w next := by
  have hk := afterCompletion_stays (k := s.core w.core) (e := w.eng) h
  have hr : ∀ r : LoopRes, r = ⟨s.core w.core, next, false, []⟩ →
      (if w.eng = .a then writeExits w.core r.exits (s.setCore w.core (r.core.setStream w.eng
        (if r.waits then { r.core.stream w.eng with run := .waiting, at_ := .edge (s.stream w).pc next }
          else { r.core.stream w.eng with
            pc := r.next, run := runAfter (s.core w.core) (r.core.stream w.eng), at_ := .free })))
      else s.setCore w.core (r.core.setStream w.eng
        (if r.waits then { r.core.stream w.eng with run := .waiting, at_ := .edge (s.stream w).pc next }
          else { r.core.stream w.eng with
            pc := r.next, run := runAfter (s.core w.core) (r.core.stream w.eng), at_ := .free }))) = s.goTo w next := by
    rintro r rfl
    simp only [Bool.false_eq_true, if_false, writeExits, ite_self]
    rfl
  exact hr _ hk

theorem staysIn_congr {t u : Stream} {next : Word} {ctl call : Bool} (hl : u.loops = t.loops) (hp : u.pc = t.pc) :
    StaysIn u next ctl call ↔ StaysIn t next ctl call := by
  unfold StaysIn
  rw [hl, hp]

/-- Completion of an instruction whose effect left the pc and the loops alone. -/
theorem retire_stays {w : Who} {n : Nat} {s s1 : State} (h : Straight s w n)
    (hl : (s1.stream w).loops = (s.stream w).loops) (hp : (s1.stream w).pc = (s.stream w).pc) :
    retire w n s1 = s1.goTo w (s.pcOf w + BitVec.ofNat 64 n) := by
  have h1 : StaysIn (s1.stream w) ((s1.stream w).pc + BitVec.ofNat 64 n) false false := by
    rw [hp]; exact (staysIn_congr hl hp).mpr h
  simp only [retire]
  rw [retireAt_stays h1, hp]
  rfl

/-- Writing a full register. -/
theorem setReg_full {k : Core} {e : Eng} {n : Nat} {v : Word} (hn : n ≠ 0) (hf : (k.stream e).full n = true) :
    k.setReg e n v = k.setStream e { k.stream e with regs := tset (k.stream e).regs n v } := by
  simp [Core.setReg, hn, hf]

theorem setReg_zero (k : Core) (e : Eng) (v : Word) : k.setReg e 0 v = k := by simp [Core.setReg]

/-- The one stream record that a write of a full register leaves. -/
def Stream.put (t : Stream) (n : Nat) (v : Word) : Stream := if n = 0 then t else { t with regs := tset t.regs n v }

theorem putReg_full {s : State} {w : Who} {n : Nat} {v : Word} (hf : (s.stream w).full n = true) :
    putReg s w n v = s.setStream w ((s.stream w).put n v) := by
  by_cases hn : n = 0
  · subst hn
    simp [putReg, setReg_zero, Stream.put, State.setStream, State.stream]
  · simp only [putReg, State.stream] at hf ⊢
    rw [setReg_full hn hf]
    simp [Stream.put, hn, State.setStream]

@[simp] theorem Stream.put_reg_self (t : Stream) (n : Nat) (v : Word) : (t.put n v).reg n = if n = 0 then 0 else v := by
  by_cases hn : n = 0 <;> simp [Stream.put, Stream.reg, hn]

theorem Stream.put_reg_ne (t : Stream) {n m : Nat} (v : Word) (h : m ≠ n) : (t.put n v).reg m = t.reg m := by
  by_cases hn : n = 0
  · simp [Stream.put, hn]
  · simp [Stream.put, hn, Stream.reg, tget_tset_ne _ _ _ h]

theorem Stream.put_eq (t : Stream) (n : Nat) (v : Word) : t.put n v = { t with regs := (t.put n v).regs } := by
  by_cases hn : n = 0 <;> simp [Stream.put, hn]

theorem onlyCore_setCore (s : State) (c : Nat) (k : Core) : OnlyCore c s (s.setCore c k) :=
  ⟨fun _ h => State.core_setCore_ne s k h, rfl, fun _ => rfl⟩

theorem runAfter_congr {k k1 : Core} {t u : Stream} (hk : k1.held = k.held) (hr : u.run = t.run) (ha : u.at_ = t.at_) :
    runAfter k1 u = runAfter k t := by
  simp only [runAfter, hk, hr, ha]

/-- A write that leaves how a stream runs and what it stands at. -/
theorem runNext_setStream {s : State} {w : Who} {u : Stream} (hr : u.run = (s.stream w).run) (ha : u.at_ = (s.stream w).at_) :
    (s.setStream w u).runNext w = s.runNext w := by
  simp only [State.runNext, State.stream_setStream_self]
  refine runAfter_congr ?_ hr ha
  simp only [State.setStream, State.core_setCore_self]
  cases w.eng <;> rfl

/-- What writing a full register of a stream, its flags and its rounding phase leaves. -/
theorem wrote_put {s : State} {w : Who} {d : Nat} {v next fl ph : Word} :
    Wrote s ((s.setStream w (({ s.stream w with qflags := (s.stream w).qflags ||| fl, dph := ph } : Stream).put d v)).goTo w next)
      w d v next fl ph := by
  have hs : ∀ u : Stream, u.run = (s.stream w).run → u.at_ = (s.stream w).at_ → (s.setStream w u).goTo w next =
      s.setStream w { u with pc := next, run := s.runNext w, at_ := .free } := by
    intro u hr ha; simp [State.goTo, runNext_setStream hr ha]
  rw [hs _ (by by_cases hd : d = 0 <;> simp [Stream.put, hd]) (by by_cases hd : d = 0 <;> simp [Stream.put, hd])]
  constructor
  · simp only [State.stream_setStream_self]
    rw [show ∀ u : Stream, ({ u with pc := next, run := s.runNext w, at_ := .free } : Stream).reg d = u.reg d from fun _ => rfl]
    exact Stream.put_reg_self _ _ _
  · intro n hn
    simp only [State.stream_setStream_self]
    rw [show ∀ u : Stream, ({ u with pc := next, run := s.runNext w, at_ := .free } : Stream).reg n = u.reg n from fun _ => rfl,
      Stream.put_reg_ne _ _ hn]
    rfl
  · simp only [State.stream_setStream_self]
    by_cases hd : d = 0 <;> simp [Stream.put, hd]
  · simp [State.stream]
  · intro a
    simp
  · exact onlyCore_setCore _ _ _

/-- A form that computes one register. -/
theorem scalarForm_writes {s : State} {w : Who} {srcs : List Nat} {d : Nat} {v : Word}
    (hr : Full s w srcs) (hl : Straight s w 4) (hd : (s.stream w).full d = true) :
    ∃ t, scalarForm w srcs d v s = .next t ∧ Wrote s t w d v (s.pcOf w + 4) 0 (s.stream w).dph := by
  refine ⟨(s.setStream w ((s.stream w).put d v)).goTo w (s.pcOf w + 4), ?_, ?_⟩
  · simp only [scalarForm, needRegs_of_full _ hr, finish, putReg_full hd]
    rw [retire_stays hl]
    · rfl
    · by_cases h0 : d = 0 <;> simp [Stream.put, h0]
    · by_cases h0 : d = 0 <;> simp [Stream.put, h0]
  · have hq : ({ s.stream w with qflags := (s.stream w).qflags ||| 0, dph := (s.stream w).dph } : Stream) = s.stream w := by
      simp
    have := wrote_put (s := s) (w := w) (d := d) (v := v) (next := s.pcOf w + 4) (fl := 0) (ph := (s.stream w).dph)
    rwa [hq] at this

end Sys2Proof.Machine
end

