-- ==== Sys2Proof/Laws/Memory.lean ====
section
/-! SUPPORT. Laws of memory: reading after writing, what a write leaves alone, and that every memory operation keeps the
canonical form. -/

namespace Sys2Proof.Machine

/-- Below the first listed address every byte reads 0. -/
theorem readB_below {lo a : Nat} {m : Memory} (h : wfFrom lo m = true) (ha : a < lo) : readB m a = 0 := by
  induction m generalizing lo with
  | nil => rfl
  | cons p t ih =>
    obtain ⟨k, v⟩ := p
    simp only [wfFrom, Bool.and_eq_true, decide_eq_true_eq] at h
    have hk : k ≠ a := by omega
    simp only [readB, hk, if_false]
    exact ih h.2 (by omega)

theorem wfFrom_mono {lo hi : Nat} {m : Memory} (h : wfFrom hi m = true) (hl : lo ≤ hi) : wfFrom lo m = true := by
  cases m with
  | nil => rfl
  | cons p t =>
    obtain ⟨k, v⟩ := p
    simp only [wfFrom, Bool.and_eq_true, decide_eq_true_eq] at h ⊢
    exact ⟨⟨by omega, h.1.2⟩, h.2⟩

/-- A write above a bound keeps the form above it. -/
theorem wfFrom_writeB {lo a : Nat} {b : Byte} {m : Memory} (h : wfFrom lo m = true) (ha : lo ≤ a) :
    wfFrom lo (writeB m a b) = true := by
  induction m generalizing lo with
  | nil =>
    simp only [writeB]
    split
    · rfl
    · next hb =>
      simp only [wfFrom, Bool.and_eq_true, decide_eq_true_eq]
      exact ⟨⟨ha, hb⟩, trivial⟩
  | cons p t ih =>
    obtain ⟨k, v⟩ := p
    simp only [wfFrom, Bool.and_eq_true, decide_eq_true_eq] at h
    simp only [writeB]
    split
    · next hlt =>
      split
      · simp only [wfFrom, Bool.and_eq_true, decide_eq_true_eq]; exact h
      · next hb =>
        simp only [wfFrom, Bool.and_eq_true, decide_eq_true_eq]
        exact ⟨⟨ha, hb⟩, ⟨by omega, h.1.2⟩, h.2⟩
    · split
      · next heq =>
        subst heq
        split
        · exact wfFrom_mono h.2 (by omega)
        · next hb =>
          simp only [wfFrom, Bool.and_eq_true, decide_eq_true_eq]
          exact ⟨⟨ha, hb⟩, h.2⟩
      · simp only [wfFrom, Bool.and_eq_true, decide_eq_true_eq]
        exact ⟨h.1, ih h.2 (by omega)⟩

/-- Writing a byte keeps the canonical form. -/
theorem wf_writeB {m : Memory} {a : Nat} {b : Byte} (h : m.wf = true) : Memory.wf (writeB m a b) = true :=
  wfFrom_writeB h (Nat.zero_le a)

/-- Writing bytes keeps the canonical form. -/
theorem wf_writeBytes {m : Memory} {a : Nat} {l : List Byte} (h : m.wf = true) : Memory.wf (writeBytes m a l) = true := by
  induction l generalizing m a with
  | nil => exact h
  | cons b t ih => exact ih (wf_writeB h)

/-- Writing masked bytes keeps the canonical form. -/
theorem wf_writeMasked {m : Memory} {a : Nat} {l : List Byte} {ks : List Bool} (h : m.wf = true) :
    Memory.wf (writeMasked m a l ks) = true := by
  induction l generalizing m a ks with
  | nil => simpa [writeMasked] using h
  | cons b t ih =>
    cases ks with
    | nil => simpa [writeMasked] using h
    | cons k ks =>
      simp only [writeMasked]
      split
      · exact ih (wf_writeB h)
      · exact ih h

/-- The byte that a write gives its own address. -/
theorem readB_writeB_self {m : Memory} {a : Nat} {b : Byte} (h : m.wf = true) : readB (writeB m a b) a = b := by
  have go : ∀ {lo : Nat} {m : Memory}, wfFrom lo m = true → readB (writeB m a b) a = b := by
    intro lo m h
    induction m generalizing lo with
    | nil =>
      simp only [writeB]
      split
      · next hb => exact hb.symm
      · simp [readB]
    | cons p t ih =>
      obtain ⟨k, v⟩ := p
      simp only [wfFrom, Bool.and_eq_true, decide_eq_true_eq] at h
      simp only [writeB]
      split
      · next hlt =>
        split
        · next hb =>
          subst hb
          have hk : k ≠ a := by omega
          simp only [readB, hk, if_false]
          exact readB_below h.2 (by omega)
        · simp [readB]
      · split
        · next heq =>
          subst heq
          split
          · next hb => subst hb; exact readB_below h.2 (by omega)
          · simp [readB]
        · next hne =>
          have hk : k ≠ a := fun e => hne e.symm
          simp only [readB, hk, if_false]
          exact ih h.2
  exact go h

/-- A write leaves every other address alone. -/
theorem readB_writeB_ne {m : Memory} {a c : Nat} {b : Byte} (hc : c ≠ a) : readB (writeB m a b) c = readB m c := by
  induction m with
  | nil =>
    simp only [writeB]
    split
    · rfl
    · simp [readB, hc.symm]
  | cons p t ih =>
    obtain ⟨k, v⟩ := p
    simp only [writeB]
    split
    · split
      · rfl
      · simp [readB, hc.symm]
    · split
      · next heq =>
        subst heq
        split <;> simp [readB, hc.symm]
      · simp only [readB, ih]

/-- Writing bytes leaves every address outside them alone. -/
theorem readB_writeBytes_out {m : Memory} {a c : Nat} {l : List Byte} (h : c < a ∨ a + l.length ≤ c) :
    readB (writeBytes m a l) c = readB m c := by
  induction l generalizing m a with
  | nil => rfl
  | cons b t ih =>
    simp only [List.length_cons] at h
    rw [writeBytes, ih (by omega), readB_writeB_ne (by omega)]

/-- Writing masked bytes leaves every address outside them alone. -/
theorem readB_writeMasked_out {m : Memory} {a c : Nat} {l : List Byte} {ks : List Bool}
    (h : c < a ∨ a + l.length ≤ c) : readB (writeMasked m a l ks) c = readB m c := by
  induction l generalizing m a ks with
  | nil => simp [writeMasked]
  | cons b t ih =>
    simp only [List.length_cons] at h
    cases ks with
    | nil => simp [writeMasked]
    | cons k ks =>
      simp only [writeMasked]
      rw [ih (by omega)]
      split
      · exact readB_writeB_ne (by omega)
      · rfl

/-- Byte `i` of the bytes written. -/
theorem readB_writeBytes_in {m : Memory} {a i : Nat} {l : List Byte} (h : m.wf = true) (hi : i < l.length) :
    readB (writeBytes m a l) (a + i) = l[i] := by
  induction l generalizing m a i with
  | nil => exact absurd hi (Nat.not_lt_zero i)
  | cons b t ih =>
    cases i with
    | zero =>
      rw [writeBytes, readB_writeBytes_out (by omega), Nat.add_zero, readB_writeB_self h]
      rfl
    | succ i =>
      have ht : i < t.length := by simpa using hi
      have := ih (a := a + 1) (wf_writeB h (a := a) (b := b)) ht
      simpa [writeBytes, Nat.add_assoc, Nat.add_comm 1 i] using this

@[simp] theorem length_readBytes (m : Memory) (a n : Nat) : (readBytes m a n).length = n := by
  induction n generalizing a with
  | zero => rfl
  | succ n ih => simp [readBytes, ih]

@[simp] theorem length_bytesOf (n v : Nat) : (bytesOf n v).length = n := by
  induction n generalizing v with
  | zero => rfl
  | succ n ih => simp [bytesOf, ih]

/-- The number of its `n` bytes. -/
theorem natOf_bytesOf (n v : Nat) : natOf (bytesOf n v) = v % 256 ^ n := by
  induction n generalizing v with
  | zero => simp [bytesOf, natOf, Nat.mod_one]
  | succ n ih =>
    have hs : natOf (bytesOf (n + 1) v) = v % 256 + 256 * natOf (bytesOf n (v / 256)) := by
      simp [bytesOf, natOf]
    rw [hs, ih, pow_succ, Nat.mul_comm (256 ^ n) 256, Nat.mod_mul]

/-- Reading back the bytes that a write stored. -/
theorem readBytes_writeBytes {m : Memory} {a : Nat} {l : List Byte} (h : m.wf = true) :
    readBytes (writeBytes m a l) a l.length = l := by
  have key : ∀ (n b : Nat) (m' : Memory) (l' : List Byte), l'.length = n →
      (∀ i (hi : i < l'.length), readB m' (b + i) = l'[i]) → readBytes m' b n = l' := by
    intro n
    induction n with
    | zero => intro b m' l' hl _; rw [List.length_eq_zero_iff.mp hl]; rfl
    | succ n ih =>
      intro b m' l' hl hr
      cases l' with
      | nil => simp at hl
      | cons x t =>
        have h0 : readB m' b = x := hr 0 (Nat.zero_lt_succ _)
        have ht := ih (b + 1) m' t (by simpa using hl) (fun i hi => by
          have := hr (i + 1) (by simpa using hi)
          simpa [Nat.add_assoc, Nat.add_comm 1 i] using this)
        simp [readBytes, h0, ht]
  exact key l.length a _ l rfl (fun i hi => readB_writeBytes_in h hi)

theorem wf_nil : Memory.wf [] = true := rfl

end Sys2Proof.Machine
end

