-- ==== Sys2Proof/Laws/Vector.lean ====
section
/-! SUPPORT. What the frame of the execute engine's long forms does, once for every form: guard merging, the operands it
consumes, and the state that a form leaves. -/

namespace Sys2Proof.Machine

/-! ## Guard merging, bit by bit -/

theorem getLsbD_lit_zero {n : Nat} (i : Nat) : (0 : BitVec n).getLsbD i = false := by simp

theorem getLsbD_ones {n i : Nat} (h : i < n) : (BitVec.allOnes n).getLsbD i = true := by
  rw [BitVec.getLsbD_allOnes, decide_eq_true_eq]
  exact h

theorem byteMask_testBit (n p i : Nat) : (byteMask n p).testBit i = (decide (i < 8 * n) && p.testBit (i / 8)) := by
  induction n generalizing p i with
  | zero => simp [byteMask]
  | succ n ih =>
    rw [byteMask]
    have h255 : (if p % 2 = 1 then 255 else 0) < 2 ^ 8 := by split <;> decide
    rw [show (256 : Nat) = 2 ^ 8 from rfl, Nat.add_comm, Nat.testBit_two_pow_mul_add _ h255]
    by_cases hi : i < 8
    · have h8 : i / 8 = 0 := by omega
      have hlt : i < 8 * (n + 1) := by omega
      simp only [hi, if_true, h8, hlt, decide_true, Bool.true_and, Nat.testBit_zero]
      have : ∀ j < 8, Nat.testBit 255 j = true := by decide
      split
      · next h => simp [h, this i hi]
      · next h => simp [h]
    · simp only [hi, if_false, ih]
      have h1 : (i - 8) / 8 = i / 8 - 1 := by omega
      have h2 : (decide (i - 8 < 8 * n)) = decide (i < 8 * (n + 1)) := by
        apply decide_eq_decide.mpr; omega
      rw [h1, h2]
      have h3 : i / 8 = (i / 8 - 1) + 1 := by omega
      conv_rhs => rw [h3, Nat.testBit_succ]

theorem expandMask_bit (p : Pred) {i : Nat} (h : i < 4096) : (expandMask p).getLsbD i = p.getLsbD (i / 8) := by
  simp only [expandMask, BitVec.getLsbD_ofNat, h, byteMask_testBit, decide_true, Bool.true_and, BitVec.testBit_toNat]

theorem mergeVec_bit (old res : Vec) (g : Pred) (z : Bool) {i : Nat} (h : i < 4096) :
    (mergeVec old res g z).getLsbD i = if g.getLsbD (i / 8) then res.getLsbD i else if z then false else old.getLsbD i := by
  simp only [mergeVec, BitVec.getLsbD_or, BitVec.getLsbD_and, expandMask_bit g h]
  cases z <;> cases hg : g.getLsbD (i / 8) <;>
    simp only [Bool.false_eq_true, if_true, if_false, getLsbD_lit_zero, BitVec.getLsbD_and, BitVec.getLsbD_not, h,
      expandMask_bit g h, hg, decide_true, Bool.and_true, Bool.and_false, Bool.not_true, Bool.not_false, Bool.or_false,
      Bool.false_or]

theorem mergePred_bit (old res g : Pred) (z : Bool) {i : Nat} (h : i < 512) :
    (mergePred old res g z).getLsbD i = if g.getLsbD i then res.getLsbD i else if z then false else old.getLsbD i := by
  simp only [mergePred, BitVec.getLsbD_or, BitVec.getLsbD_and]
  cases z <;> cases hg : g.getLsbD i <;>
    simp only [Bool.false_eq_true, if_true, if_false, getLsbD_lit_zero, BitVec.getLsbD_and, BitVec.getLsbD_not, h, hg,
      decide_true, Bool.and_true, Bool.and_false, Bool.not_true, Bool.not_false, Bool.or_false, Bool.false_or]

/-! ## What the operands' consumption and the gives touch -/

theorem takeAll_eq (fs : List Nat) (k : Core) : ∃ T, k.takeAll fs = { k with tokens := T } ∧
    (fs.Nodup → ∀ n, tget T n 0 = k.token n - if n ∈ fs then 1 else 0) := by
  induction fs generalizing k with
  | nil => exact ⟨k.tokens, rfl, fun _ n => by simp [Core.token]⟩
  | cons f t ih =>
    obtain ⟨T, h1, h2⟩ := ih { k with tokens := tset k.tokens f (k.token f - 1) }
    refine ⟨T, h1, fun hn n => ?_⟩
    rw [h2 (List.nodup_cons.mp hn).2 n]
    by_cases hf : n = f
    · subst hf
      simp [Core.token, (List.nodup_cons.mp hn).1]
    · simp [Core.token, tget_tset_ne _ _ _ hf, hf]

theorem giveAll_eq (fs : List Nat) (k : Core) : ∃ T, k.giveAll fs = { k with tokens := T } ∧
    (fs.Nodup → ∀ n, tget T n 0 = k.token n + if n ∈ fs then 1 else 0) := by
  induction fs generalizing k with
  | nil => exact ⟨k.tokens, rfl, fun _ n => by simp [Core.token]⟩
  | cons f t ih =>
    obtain ⟨T, h1, h2⟩ := ih { k with tokens := tset k.tokens f (k.token f + 1) }
    refine ⟨T, h1, fun hn n => ?_⟩
    rw [h2 (List.nodup_cons.mp hn).2 n]
    by_cases hf : n = f
    · subst hf
      simp [Core.token, (List.nodup_cons.mp hn).1]
    · simp [Core.token, tget_tset_ne _ _ _ hf, hf]

theorem reserve_eq (fs : List Nat) (k : Core) : ∃ T, k.reserve fs = { k with reserved := T } ∧
    (fs.Nodup → ∀ n, tget T n 0 = k.slots n + if n ∈ fs then 1 else 0) := by
  induction fs generalizing k with
  | nil => exact ⟨k.reserved, rfl, fun _ n => by simp [Core.slots]⟩
  | cons f t ih =>
    obtain ⟨T, h1, h2⟩ := ih { k with reserved := tset k.reserved f (k.slots f + 1) }
    refine ⟨T, h1, fun hn n => ?_⟩
    rw [h2 (List.nodup_cons.mp hn).2 n]
    by_cases hf : n = f
    · subst hf
      simp [Core.slots, (List.nodup_cons.mp hn).1]
    · simp [Core.slots, tget_tset_ne _ _ _ hf, hf]

theorem unreserve_eq (fs : List Nat) (k : Core) : ∃ T, k.unreserve fs = { k with reserved := T } ∧
    (fs.Nodup → ∀ n, tget T n 0 = k.slots n - if n ∈ fs then 1 else 0) := by
  induction fs generalizing k with
  | nil => exact ⟨k.reserved, rfl, fun _ n => by simp [Core.slots]⟩
  | cons f t ih =>
    obtain ⟨T, h1, h2⟩ := ih { k with reserved := tset k.reserved f (k.slots f - 1) }
    refine ⟨T, h1, fun hn n => ?_⟩
    rw [h2 (List.nodup_cons.mp hn).2 n]
    by_cases hf : n = f
    · subst hf
      simp [Core.slots, (List.nodup_cons.mp hn).1]
    · simp [Core.slots, tget_tset_ne _ _ _ hf, hf]

theorem giveFifos_nodup (e : Eng) (f : Nat) : (giveFifos e f).Nodup := by
  unfold giveFifos
  by_cases h1 : f % 2 = 1 <;> by_cases h2 : 2 ≤ f % 4 <;> cases e <;> simp [h1, h2]

theorem takeFifos_nodup (e : Eng) (f : Nat) : (takeFifos e f).Nodup := by
  unfold takeFifos
  by_cases h1 : f % 2 = 1 <;> by_cases h2 : 2 ≤ f % 4 <;> cases e <;> simp [h1, h2]

theorem popAll_eq (srcs : List XSrc) (l : List Nat) (k : Core) : ∃ Q, popAll srcs l k = { k with q := Q } ∧
    (l.Nodup → ∀ n, tget Q n [] = if n ∈ l then (k.qOf n).drop (pops srcs n) else k.qOf n) := by
  induction l generalizing k with
  | nil => exact ⟨k.q, rfl, fun _ n => by simp [Core.qOf]⟩
  | cons m t ih =>
    simp only [popAll]
    by_cases hp : pops srcs m = 0
    · rw [if_pos hp]
      obtain ⟨Q, h1, h2⟩ := ih k
      refine ⟨Q, h1, fun hn n => ?_⟩
      rw [h2 (List.nodup_cons.mp hn).2 n]
      by_cases hm : n = m
      · subst hm
        simp [(List.nodup_cons.mp hn).1, hp]
      · simp [hm]
    · rw [if_neg hp]
      obtain ⟨Q, h1, h2⟩ := ih (k.setQ m ((k.qOf m).drop (pops srcs m)))
      refine ⟨Q, h1, fun hn n => ?_⟩
      rw [h2 (List.nodup_cons.mp hn).2 n]
      by_cases hm : n = m
      · subst hm
        simp [Core.qOf, Core.setQ, (List.nodup_cons.mp hn).1]
      · simp [Core.qOf, Core.setQ, tget_tset_ne _ _ _ hm, hm]

theorem readMboxes_eq (l : List Nat) (k : Core) : ∃ M, readMboxes l k = { k with mbox := M } ∧
    ∀ n, tfind M n = if n ∈ l then none else tfind k.mbox n := by
  induction l generalizing k with
  | nil => exact ⟨k.mbox, rfl, fun n => by simp⟩
  | cons m t ih =>
    obtain ⟨M, h1, h2⟩ := ih { k with mbox := tdel k.mbox m }
    refine ⟨M, h1, fun n => ?_⟩
    rw [h2 n]
    by_cases hm : n = m
    · subst hm
      simp [tfind_tdel_self]
    · simp [hm, tfind_tdel_ne _ hm]

/-- What consuming the operands and reserving the gives leaves. -/
theorem xConsume_eq (f : XForm) (k : Core) : ∃ T R Q M,
    (xConsume f k).reserve (giveFifos .x f.ctl.give) = { k with tokens := T, reserved := R, q := Q, mbox := M } ∧
    (∀ n, tget T n 0 = k.token n - if n ∈ takeFifos .x f.ctl.take then 1 else 0) ∧
    (∀ n, tget R n 0 = k.slots n + if n ∈ giveFifos .x f.ctl.give then 1 else 0) ∧
    (∀ n < 16, tget Q n [] = (k.qOf n).drop (pops f.srcs n)) ∧
    (∀ n, tfind M n = if n ∈ mboxesOf f.srcs then none else tfind k.mbox n) := by
  obtain ⟨T, t1, t2⟩ := takeAll_eq (takeFifos .x f.ctl.take) k
  obtain ⟨Q, q1, q2⟩ := popAll_eq f.srcs (List.range 16) { k with tokens := T }
  obtain ⟨M, m1, m2⟩ := readMboxes_eq (mboxesOf f.srcs) { k with tokens := T, q := Q }
  obtain ⟨R, r1, r2⟩ := reserve_eq (giveFifos .x f.ctl.give) { k with tokens := T, q := Q, mbox := M }
  refine ⟨T, R, Q, M, ?_, t2 (takeFifos_nodup _ _), fun n => r2 (giveFifos_nodup _ _) n, fun n hn => ?_, m2⟩
  · simp only [xConsume, t1, q1, m1, r1]
  · have := q2 List.nodup_range n
    simpa [List.mem_range, hn, Core.qOf] using this

theorem stepPhase_eq (t : Stream) (r : Rnd) :
    t.stepPhase r = { t with dph := if r = .rdi then BitVec.ofNat 64 ((t.phase + 1) % 32) else t.dph } := by
  unfold Stream.stepPhase
  split <;> rfl

/-! ## The destination -/

theorem contains_added (l : List Nat) (d : Nat) : (if l.contains d then l else d :: l).contains d = true := by
  by_cases h : l.contains d = true
  · rw [if_pos h]; exact h
  · rw [if_neg h]; simp

/-- The guard that masks the destination of a form. -/
def destGuard (guardOp : Bool) (tg : XTarget) (g : Pred) : Pred :=
  if guardOp && (match tg with | .vec (.v _) => true | _ => false) then BitVec.allOnes 512 else g

theorem settle_bits (res old : Vec) (part g : Pred) (c : XCtl) {i : Nat} (h : i < 4096) :
    (mergeVec old (settle res part g c.zeroing).1 (settle res part g c.zeroing).2 false).getLsbD i =
      mergedBit c part g (i / 8) (res.getLsbD i) (old.getLsbD i) := by
  rw [mergeVec_bit _ _ _ _ h]
  unfold settle mergedBit
  cases c.zeroing <;> cases hp : part.getLsbD (i / 8) <;> cases hg : g.getLsbD (i / 8) <;>
    simp only [Bool.false_eq_true, if_true, if_false, BitVec.getLsbD_and, hp, hg, Bool.and_true, Bool.and_false,
      mergeVec_bit _ _ _ _ h]

theorem settlePred_bits (res old g : Pred) (c : XCtl) {i : Nat} (h : i < 512) :
    (mergePred old (settlePred res g c.zeroing).1 (settlePred res g c.zeroing).2 false).getLsbD i =
      mergedBit c (BitVec.allOnes 512) g i (res.getLsbD i) (old.getLsbD i) := by
  have h1 : (BitVec.allOnes 512).getLsbD i = true := getLsbD_ones h
  rw [mergePred_bit _ _ _ _ h]
  unfold settlePred mergedBit
  cases c.zeroing <;> cases hg : g.getLsbD i <;>
    simp only [Bool.false_eq_true, if_true, if_false, BitVec.getLsbD_and, h1, hg, Bool.and_true, Bool.and_false]

theorem halves_bits (res : Vec) (part g : Pred) {i : Nat} (h : i < 4096) :
    (mergeVec 0 res (g &&& part) true).getLsbD i = (part.getLsbD (i / 8) && g.getLsbD (i / 8) && res.getLsbD i) := by
  rw [mergeVec_bit _ _ _ _ h]
  cases hp : part.getLsbD (i / 8) <;> cases hg : g.getLsbD (i / 8) <;>
    simp only [Bool.false_eq_true, if_true, if_false, BitVec.getLsbD_and, hp, hg, Bool.and_true, Bool.and_false,
      Bool.true_and, Bool.false_and]

/-- What writing a result at once touches, and that the destination holds it. -/
theorem xWriteNow_eq (f : XForm) (g : Pred) (o : XOut) (gv : Nat) (k : Core) (hd : DestReady k f.target) :
    ∃ V P W E F N, xWriteNow f g o gv k =
        { k with xs := { k.xs with v := V, p := P }, w := W, ms := { k.ms with e := E, efull := F }, nextId := N } ∧
      XLanded k (xWriteNow f g o gv k) f.ctl f.target (destGuard f.guardOperand f.target g) o := by
  unfold DestReady at hd
  rcases ht : f.target with d | p
  · rcases d with n | n | n
    · rw [ht] at hd
      have hv : k.xs.vempty.contains (k.phys n) = false := by simpa [Core.vecFull] using hd
      have he : xWriteNow f g o gv k = k.setVecPhys (k.phys n) (mergeVec (tget k.xs.v (k.phys n) 0)
          (settle o.vec o.part (if f.guardOperand then BitVec.allOnes 512 else g) f.ctl.zeroing).1
          (settle o.vec o.part (if f.guardOperand then BitVec.allOnes 512 else g) f.ctl.zeroing).2 false) := by
        simp only [xWriteNow, ht, Core.setVec, hv, Bool.false_eq_true, if_false]
      refine ⟨_, k.xs.p, k.w, k.ms.e, k.ms.efull, k.nextId, he, ?_⟩
      rw [he]
      refine ⟨rfl, fun m hm => ?_, fun i hi => ?_, rfl, rfl, rfl⟩
      · exact tget_tset_ne _ _ _ hm
      · have hphys : ∀ v, (k.setVecPhys (k.phys n) v).vec n = v := fun v => tget_tset_self _ _ _ _
        rw [hphys, settle_bits _ _ _ _ _ hi]
        simp only [destGuard, Bool.and_true]
        rfl
    · have he : xWriteNow f g o gv k = { k.setW n (k.wOf n ++ [⟨k.nextId, some (o.vec, g &&& o.part)⟩]) with
          nextId := k.nextId + 1 } := by simp only [xWriteNow, ht]
      refine ⟨k.xs.v, k.xs.p, _, k.ms.e, k.ms.efull, _, he, ?_⟩
      rw [he]
      refine ⟨rfl, fun m hm => ?_, ⟨k.nextId, ?_⟩, rfl, rfl, rfl⟩
      · exact tget_tset_ne _ _ _ hm
      · have : destGuard f.guardOperand (.vec (.w n)) g = g := by simp [destGuard]
        rw [this]
        exact tget_tset_self _ _ _ _
    · have he : xWriteNow f g o gv k = k.setHalf n (mergeVec 0 o.vec (g &&& o.part) true) := by simp only [xWriteNow, ht]
      refine ⟨k.xs.v, k.xs.p, k.w, _, _, k.nextId, he, ?_⟩
      rw [he]
      have hg : destGuard f.guardOperand (.vec (.e n)) g = g := by simp [destGuard]
      rw [hg]
      refine ⟨rfl, fun m hm => ⟨tget_tset_ne _ _ _ hm, ?_⟩, fun i hi => ?_, ?_, rfl, rfl, rfl⟩
      · simp [Core.setHalf, hm]
      · have : tget (k.setHalf n (mergeVec 0 o.vec (g &&& o.part) true)).ms.e n 0 = mergeVec 0 o.vec (g &&& o.part) true :=
          tget_tset_self _ _ _ _
        rw [this, halves_bits _ _ _ hi]
      · simp [Core.setHalf]
  · rw [ht] at hd
    have hg : destGuard f.guardOperand (.pred p) g = g := by simp [destGuard]
    have he : xWriteNow f g o gv k = k.setPredNow p (mergePred (k.pred p) (settlePred o.pred g f.ctl.zeroing).1
        (settlePred o.pred g f.ctl.zeroing).2 false) := by
      simp only [xWriteNow, ht, Core.setPred, hd, Bool.false_eq_true, if_false]
    have hP : ∃ P, xWriteNow f g o gv k = { k with xs := { k.xs with p := P } } := by
      rw [he, Core.setPredNow]
      split
      · exact ⟨k.xs.p, rfl⟩
      · exact ⟨_, rfl⟩
    obtain ⟨P, hP⟩ := hP
    refine ⟨k.xs.v, P, k.w, k.ms.e, k.ms.efull, k.nextId, hP, ?_⟩
    have e1 : (xWriteNow f g o gv k).x.pend = k.x.pend ∧ (xWriteNow f g o gv k).xs.v = k.xs.v ∧ (xWriteNow f g o gv k).w = k.w ∧
        (xWriteNow f g o gv k).ms = k.ms := by rw [hP]; exact ⟨rfl, rfl, rfl, rfl⟩
    refine ⟨e1.1, fun n hn => ?_, fun i hi => ?_, e1.2.1, e1.2.2.1, e1.2.2.2⟩
    · rw [he, Core.setPredNow]
      split
      · rfl
      · simp only [Core.pred]
        split
        · rfl
        · exact tget_tset_ne _ _ _ hn
    · rw [he, Core.setPredNow]
      by_cases hp0 : p = 0
      · subst hp0
        have hp : (k.pred 0).getLsbD i = true := getLsbD_ones hi
        simp only [if_true, hp, beq_self_eq_true, Bool.true_or]
      · have hb : (p == 0) = false := by simp [hp0]
        rw [if_neg hp0, hb, Bool.false_or, hg, ← settlePred_bits _ _ _ _ hi]
        simp [Core.pred, hp0]

theorem settle_late (res : Vec) (part g : Pred) (c : XCtl) :
    (∀ i < 512, (settle res part g c.zeroing).2.getLsbD i = (part.getLsbD i && (c.zeroing || g.getLsbD i))) ∧
    (∀ i < 4096, (settle res part g c.zeroing).2.getLsbD (i / 8) = true →
      (settle res part g c.zeroing).1.getLsbD i = (g.getLsbD (i / 8) && res.getLsbD i)) := by
  unfold settle
  cases c.zeroing
  · refine ⟨fun i _ => ?_, fun i _ h => ?_⟩
    · simp only [Bool.false_eq_true, if_false, BitVec.getLsbD_and, Bool.false_or]
    · simp only [Bool.false_eq_true, if_false, BitVec.getLsbD_and, Bool.and_eq_true] at h ⊢
      rw [h.2, Bool.true_and]
  · refine ⟨fun i _ => ?_, fun i hi _ => ?_⟩
    · simp only [if_true, Bool.true_or, Bool.and_true]
    · simp only [if_true]
      rw [mergeVec_bit _ _ _ _ hi]
      cases g.getLsbD (i / 8) <;> simp only [Bool.false_eq_true, if_true, if_false, Bool.true_and, Bool.false_and]

/-- What leaving a result pending touches, and what is pending. -/
theorem xWriteLate_eq (f : XForm) (g : Pred) (o : XOut) (k : Core) :
    ∃ PD VE W N, xWriteLate f g o k =
        { k with x := { k.x with pend := PD }, xs := { k.xs with vempty := VE }, w := W, nextId := N } ∧
      XPending k (xWriteLate f g o k) f.ctl f.target (destGuard f.guardOperand f.target g) o := by
  rcases ht : f.target with d | p
  · rcases d with n | n | n
    · refine ⟨_, _, k.w, _, by simp only [xWriteLate, ht]; rfl, ?_⟩
      simp only [xWriteLate, ht]
      have hg : destGuard f.guardOperand (.vec (.v n)) g = if f.guardOperand then BitVec.allOnes 512 else g := by
        simp [destGuard]
      rw [hg]
      refine ⟨rfl, rfl, rfl, k.nextId, _, rfl, rfl, ?_, _, _, rfl, ?_⟩
      · exact congrArg (fun b => !b) (contains_added k.xs.vempty (k.phys n))
      · exact settle_late _ _ _ _
    · refine ⟨_, k.xs.vempty, _, _, by simp only [xWriteLate, ht]; rfl, ?_⟩
      simp only [xWriteLate, ht]
      have hg : destGuard f.guardOperand (.vec (.w n)) g = g := by simp [destGuard]
      rw [hg]
      refine ⟨rfl, rfl, rfl, k.nextId + 1, _, rfl, ⟨k.nextId, ?_, rfl⟩, fun m hm => ?_⟩
      · exact tget_tset_self _ _ _ _
      · exact tget_tset_ne _ _ _ hm
    · refine ⟨_, k.xs.vempty, k.w, _, by simp only [xWriteLate, ht]; rfl, ?_⟩
      simp only [xWriteLate, ht]
      have hg : destGuard f.guardOperand (.vec (.e n)) g = g := by simp [destGuard]
      rw [hg]
      exact ⟨rfl, rfl, rfl, k.nextId, _, rfl, rfl, _, rfl, fun i hi => halves_bits _ _ _ hi⟩
  · refine ⟨_, k.xs.vempty, k.w, _, by simp only [xWriteLate, ht]; rfl, ?_⟩
    simp only [xWriteLate, ht]
    have hg : destGuard f.guardOperand (.pred p) g = g := by simp [destGuard]
    rw [hg]
    refine ⟨rfl, rfl, rfl, k.nextId, _, rfl, rfl, _, _, rfl, fun i hi => ?_⟩
    unfold settlePred
    have h1 : (BitVec.allOnes 512).getLsbD i = true := getLsbD_ones hi
    cases f.ctl.zeroing
    · simp only [Bool.false_eq_true, if_false, Bool.false_or, true_and]
      intro h
      rw [h, Bool.true_and]
    · simp only [if_true, h1, Bool.true_or, true_and, BitVec.getLsbD_and]
      intro _
      rw [Bool.and_comm]

/-! ## The frame -/

/-- A destination that can take its result awaits no older one. -/
theorem follows_false {f : XForm} {k : Core} (h : DestReady k f.target) : f.follows k = false := by
  unfold DestReady at h
  unfold XForm.follows
  rcases ht : f.target with d | p
  · rw [ht] at h
    rcases d with n | n | n
    · simpa [Core.vecFull] using h
    · rfl
    · rfl
  · rw [ht] at h
    exact h

/-- A form that can issue consumes its operands, writes or leaves pending its result, sets its flags, and gives. -/
theorem xRun_eq {f : XForm} {g : Pred} {o : XOut} {s : State} {w : Who} (hw : w.eng = .x)
    (hd : DestReady (s.core w.core) f.target) (hov : f.latent = true ∨ overflows (s.stream w) o.flags = false) :
    ∃ K : Core, xRun f g o s w = .ok (s.setCore w.core K) .seq ∧
      (if f.latent then XPending (s.core w.core) K f.ctl f.target (destGuard f.guardOperand f.target g) o
        else XLanded (s.core w.core) K f.ctl f.target (destGuard f.guardOperand f.target g) o) ∧
      (∀ n < 16, K.qOf n = ((s.core w.core).qOf n).drop (pops f.srcs n)) ∧
      (∀ n, tfind K.mbox n = if n ∈ mboxesOf f.srcs then none else tfind (s.core w.core).mbox n) ∧
      (∀ n, K.token n = (s.core w.core).token n - (if n ∈ takeFifos .x f.ctl.take then 1 else 0) +
        (if f.latent = false ∧ n ∈ giveFifos .x f.ctl.give then 1 else 0)) ∧
      (∀ n, K.slots n = (s.core w.core).slots n + (if f.latent = true ∧ n ∈ giveFifos .x f.ctl.give then 1 else 0)) ∧
      K = { s.core w.core with
        x := { (s.core w.core).x with
          pend := K.x.pend, qflags := (s.core w.core).x.qflags ||| (if f.latent then 0 else o.flags),
          dph := if f.rnd = .rdi then BitVec.ofNat 64 (((s.stream w).phase + 1) % 32) else (s.core w.core).x.dph },
        xs := { (s.core w.core).xs with v := K.xs.v, vempty := K.xs.vempty, p := K.xs.p },
        ms := { (s.core w.core).ms with e := K.ms.e, efull := K.ms.efull },
        q := K.q, w := K.w, mbox := K.mbox, tokens := K.tokens, reserved := K.reserved, nextId := K.nextId } := by
  obtain ⟨c, e⟩ := w
  simp only at hw hd ⊢
  subst hw
  obtain ⟨T, R, Q, M, hk, hT, hR, hQ, hM⟩ := xConsume_eq f (s.core c)
  by_cases hl : f.latent = true
  · simp only [xRun, hk, hl, if_true]
    rw [stepPhase_eq]
    obtain ⟨PD, VE, W, N, h1, h2⟩ := xWriteLate_eq f g o { s.core c with
      x := { (s.core c).x with
        dph := if f.rnd = .rdi then BitVec.ofNat 64 (((s.core c).x.phase + 1) % 32) else (s.core c).x.dph },
      q := Q, tokens := T, reserved := R, mbox := M }
    refine ⟨_, rfl, h2, ?_⟩
    rw [h1]
    refine ⟨hQ, hM, fun n => ?_, fun n => ?_, ?_⟩
    · simp only [Core.token, Bool.true_eq_false, false_and, if_false, Nat.add_zero]
      exact hT n
    · simp only [Core.slots, true_and]
      exact hR n
    · have : (s.core c).x.qflags ||| 0 = (s.core c).x.qflags := by simp
      rw [this]
      rfl
  · have hlf : f.latent = false := by simpa using hl
    have hov' : overflows (s.stream ⟨c, .x⟩) o.flags = false := by
      rcases hov with h | h
      · exact absurd h hl
      · exact h
    have hfo : f.follows { s.core c with q := Q, tokens := T, reserved := R, mbox := M } = false := follows_false hd
    simp only [xRun, hk, hlf, hov', hfo, Bool.false_eq_true, if_false]
    rw [stepPhase_eq]
    obtain ⟨V, P, W, E, F, N, h1, h2⟩ := xWriteNow_eq f g o f.ctl.give { s.core c with
      x := { (s.core c).x with
        dph := if f.rnd = .rdi then BitVec.ofNat 64 (((s.core c).x.phase + 1) % 32) else (s.core c).x.dph },
      q := Q, tokens := T, reserved := R, mbox := M } hd
    rw [h1] at h2 ⊢
    obtain ⟨R', hR1, hR2⟩ := unreserve_eq (giveFifos .x f.ctl.give) { s.core c with
      x := { (s.core c).x with
        qflags := (s.core c).x.qflags ||| o.flags,
        dph := if f.rnd = .rdi then BitVec.ofNat 64 (((s.core c).x.phase + 1) % 32) else (s.core c).x.dph },
      xs := { (s.core c).xs with v := V, p := P }, w := W, ms := { (s.core c).ms with e := E, efull := F }, nextId := N,
      q := Q, tokens := T, reserved := R, mbox := M }
    obtain ⟨T', hT1, hT2⟩ := giveAll_eq (giveFifos .x f.ctl.give) { s.core c with
      x := { (s.core c).x with
        qflags := (s.core c).x.qflags ||| o.flags,
        dph := if f.rnd = .rdi then BitVec.ofNat 64 (((s.core c).x.phase + 1) % 32) else (s.core c).x.dph },
      xs := { (s.core c).xs with v := V, p := P }, w := W, ms := { (s.core c).ms with e := E, efull := F }, nextId := N,
      q := Q, tokens := T, reserved := R', mbox := M }
    have hov2 : overflows { (s.core c).x with
        dph := if f.rnd = .rdi then BitVec.ofNat 64 (((s.core c).x.phase + 1) % 32) else (s.core c).x.dph } o.flags = false :=
      hov'
    refine ⟨{ s.core c with
      x := { (s.core c).x with
        qflags := (s.core c).x.qflags ||| o.flags,
        dph := if f.rnd = .rdi then BitVec.ofNat 64 (((s.core c).x.phase + 1) % 32) else (s.core c).x.dph },
      xs := { (s.core c).xs with v := V, p := P }, w := W, ms := { (s.core c).ms with e := E, efull := F }, nextId := N,
      q := Q, tokens := T', reserved := R', mbox := M }, ?_, h2, hQ, hM, fun n => ?_, fun n => ?_, rfl⟩
    · simp only [endWith, State.setStream, State.stream, State.core_setCore_self, State.setCore_setCore, Core.setStream,
        Core.stream, Stream.addFlags, hov2, Bool.false_eq_true, if_false, Core.giveReserved, hR1, hT1]
    · simp only [Core.token]
      rw [hT2 (giveFifos_nodup _ _) n]
      simp only [Core.token]
      rw [hT n]
      simp only [true_and]
      rfl
    · simp only [Core.slots]
      rw [hR2 (giveFifos_nodup _ _) n]
      simp only [Core.slots]
      rw [hR n]
      simp only [false_and, if_false, Nat.add_zero, Nat.add_sub_cancel]
      rfl

theorem partnerFault_none {i : Instr} {s : State} {w : Who} {t g : Nat}
    (ht : (s.core w.core).hasEngines (partners w.eng t) = true) (hg : (s.core w.core).hasEngines (partners w.eng g) = true) :
    partnerFault i s w t g = none := by
  simp [partnerFault, enginesOk, ht, hg]

/-- A form for which everything is ready has nothing to stop it. -/
theorem xRefuse_none {f : XForm} {s : State} {w : Who} (h : XReady s w f.ctl f.srcs f.target f.guardOperand) :
    xRefuse f s w = none := by
  have hq := h.queues
  have hr := h.regs
  have hm := h.mail
  have he := h.marks
  have ht := h.tokens
  have hs := h.slots
  have hd := h.dest
  have hf1 := h.first
  rcases ht' : f.target with d | p
  · rcases d with n | n | n <;> rw [ht'] at hd <;> simp only [DestReady] at hd
    · unfold xRefuse
      simp [ht', hq, hr, hs, hm, he, ht, hf1, XTarget.push?, XTarget.half?]
    · have hf : ¬ 8 ≤ ((s.core w.core).wOf n).length := by omega
      unfold xRefuse
      simp [ht', hq, hr, hs, hm, he, ht, hf1, hf, XTarget.push?, XTarget.half?]
    · unfold xRefuse
      simp [ht', hq, hr, hs, hm, he, ht, hf1, hd, XTarget.push?, XTarget.half?]
  · unfold xRefuse
    simp [ht', hq, hr, hs, hm, he, ht, hf1, XTarget.push?, XTarget.half?]

/-- The frame of every long form: with everything ready and its source values within their limits, it runs. -/
theorem xFrame_runs {f : XForm} {check : List SVal → Option Res} {body : Pred → Nat → List SVal → XOut} {s : State} {w : Who}
    {o : XOut} (h : XReady s w f.ctl f.srcs f.target f.guardOperand)
    (hc : check (sourceVals (s.core w.core) f.srcs) = none)
    (ho : body ((s.core w.core).pred f.ctl.guard) (s.stream w).phase (sourceVals (s.core w.core) f.srcs) = o)
    (hov : f.latent = true ∨ overflows (s.stream w) o.flags = false) :
    ∃ t, xFrame f check body s = .next t ∧
      XEffect s t w f.ctl f.srcs f.target f.rnd (f.long || readsMail f.srcs) f.guardOperand o := by
  have hw : s.whoOn .x = w := by
    rw [whoOn_of_acts h.acts]
    have := h.eng
    cases w
    simp_all
  have hdest : DestReady (s.core w.core) f.target := h.dest
  have hnull : (f.nullable && (s.core w.core).pred f.ctl.guard == 0) = false := by
    rcases h.active with ha | ⟨n, hn⟩ | ha
    · simp [XForm.nullable, ha]
    · simp [XForm.nullable, hn, XTarget.half?]
    · simpa using fun _ => ha
  have hpart : partnerFault f.i s w f.ctl.take f.ctl.give = none :=
    partnerFault_none (by rw [h.eng]; exact h.takes) (by rw [h.eng]; exact h.gives)
  obtain ⟨K, hrun, hres, hq, hm, ht, hs, hK⟩ := xRun_eq (f := f) (g := (s.core w.core).pred f.ctl.guard) (o := o) h.eng hdest hov
  have hl : ((s.setCore w.core K).stream w).loops = (s.stream w).loops := by
    simp only [State.stream, State.core_setCore_self, h.eng, Core.stream]
    rw [hK]
  have hp : ((s.setCore w.core K).stream w).pc = (s.stream w).pc := by
    simp only [State.stream, State.core_setCore_self, h.eng, Core.stream]
    rw [hK]
  have hrn : (s.setCore w.core K).runNext w = s.runNext w := by
    simp only [State.runNext, State.stream, State.core_setCore_self, h.eng, Core.stream]
    rw [hK]
    exact runAfter_congr rfl rfl rfl
  refine ⟨(s.setCore w.core K).goTo w (s.pcOf w + 8), ?_, ?_⟩
  · simp only [xFrame, xFrameWith, hw, h.guard, Bool.false_eq_true, if_false, hpart, hnull, xRefuse_none h, hc, ho, hrun, finish]
    rw [retire_stays h.line hl hp]
    rfl
  · have hcore : ((s.setCore w.core K).goTo w (s.pcOf w + 8)).core w.core =
        { K with x := { K.x with pc := s.pcOf w + 8, run := s.runNext w, at_ := .free } } := by
      simp only [State.goTo, hrn, State.setStream, State.stream, State.core_setCore_self, State.setCore_setCore, h.eng,
        Core.setStream, Core.stream]
    have hlat : (f.long || readsMail f.srcs) = f.latent := rfl
    rw [hlat]
    refine ⟨?_, ?_, ?_, ?_, ?_, ?_, ?_⟩
    · rw [hcore]
      exact hres
    · rw [hcore]; exact hq
    · rw [hcore]; exact hm
    · rw [hcore]; exact ht
    · rw [hcore]; exact hs
    · rw [hcore, hK]
    · have : (s.setCore w.core K).goTo w (s.pcOf w + 8) = s.setCore w.core
          { K with x := { K.x with pc := s.pcOf w + 8, run := s.runNext w, at_ := .free } } := by
        simp only [State.goTo, hrn, State.setStream, State.stream, State.core_setCore_self, State.setCore_setCore, h.eng,
          Core.setStream, Core.stream]
      rw [this]
      exact onlyCore_setCore _ _ _

end Sys2Proof.Machine
end

