-- ==== Sys2Proof/Tests/Slice0.lean ====
section
/-! SUPPORT. Decoding tests: for every form a word written out from the encodings of R39 to R51, R56 to R59, R168, R181, R245,
R281, R299 and R306 (value and lowest bit of each field) decodes to the instruction that it stands for, and that instruction
encodes to the word. Then the checks of well-formedness, each with a term that it refuses, and words that decoding refuses. -/

namespace Sys2Proof.Tests

set_option Elab.async false

/-- A word from the values of its fields and their lowest bits. -/
def word (l : List (Nat × Nat)) : Nat := l.foldl (fun n p => n + p.1 * 2 ^ p.2) 0

/-- Engine `e` reads `i` from these words, and `i` encodes to them. -/
def reads (e : Eng) (l : List (List (Nat × Nat) × Instr)) : Bool :=
  l.all (fun p => (match decodeWords (openCtx e) (word p.1) 0 with | .ok j => j == p.2 | .error _ => false) &&
    encode p.2 == [word p.1] && p.2.wf e)

/-- The same for a long form. -/
def readsLong (e : Eng) (l : List (List (Nat × Nat) × List (Nat × Nat) × Instr)) : Bool :=
  l.all (fun p => (match decodeWords (openCtx e) (word p.1) (word p.2.1) with | .ok j => j == p.2.2 | .error _ => false) &&
    encode p.2.2 == [word p.1, word p.2.1] && p.2.2.wf e)

/-- Words that engine `e` refuses with a cause and a field: whether it is in word 2, and its lowest bit. -/
def refuses (c : DCtx) (l : List (Nat × Nat × Nat × Bool × Nat)) : Bool :=
  l.all (fun p => match decodeWords c p.1 p.2.1 with
    | .error f => f.cause == p.2.2.1 && f.tval == tvalField p.2.2.2.1 p.2.2.2.2 (if p.2.2.2.1 then p.2.1 else p.1)
    | .ok _ => false)

/-! ## The shared control subset (R39, R41, R42, R56, R123) -/

theorem test_decode_arithmetic : reads .a [
    ([], .nop),
    ([(0x01, 25), (4, 19), (5, 13), (31, 7)], .add 4 5 31),
    ([(0x02, 25), (4, 19), (5, 13), (6, 7)], .sub 4 5 6),
    ([(0x03, 25), (4, 19), (5, 13), (0x1FFF, 0)], .addi 4 5 (-1)),
    ([(0x04, 25), (4, 19), (5, 13), (6, 7)], .mul 4 5 6),
    ([(0x05, 25), (4, 19), (5, 13), (6, 7), (1, 0)], .mulh 4 5 6 true),
    ([(0x06, 25), (4, 19), (5, 13), (6, 7)], .madd 4 5 6),
    ([(0x07, 25), (4, 19), (5, 13), (6, 7), (1, 1)], .div 4 5 6 true false),
    ([(0x08, 25), (4, 19), (5, 13), (6, 7)], .and 4 5 6),
    ([(0x09, 25), (4, 19), (5, 13), (6, 7)], .or 4 5 6),
    ([(0x0A, 25), (4, 19), (5, 13), (6, 7)], .xor 4 5 6),
    ([(0x0B, 25), (4, 19), (5, 13), (0x1000, 0)], .andi 4 5 (-4096)),
    ([(0x0C, 25), (4, 19), (5, 13), (0xFFF, 0)], .ori 4 5 4095),
    ([(0x0D, 25), (4, 19), (5, 13), (7, 0)], .xori 4 5 7)] = true := by decide +kernel

theorem test_decode_shift_select : reads .x [
    ([(0x0E, 25), (4, 19), (5, 13), (6, 7)], .shl 4 5 6),
    ([(0x0E, 25), (4, 19), (5, 13), (1, 6), (63, 0)], .shlImm 4 5 63),
    ([(0x0F, 25), (4, 19), (5, 13), (6, 7)], .shr 4 5 6),
    ([(0x0F, 25), (4, 19), (5, 13), (1, 6), (1, 0)], .shrImm 4 5 1),
    ([(0x10, 25), (4, 19), (5, 13), (6, 7)], .sra 4 5 6),
    ([(0x10, 25), (4, 19), (5, 13), (1, 6), (32, 0)], .sraImm 4 5 32),
    ([(0x11, 25), (4, 19), (5, 13), (6, 7), (1, 0)], .min 4 5 6 true),
    ([(0x12, 25), (4, 19), (5, 13), (6, 7)], .max 4 5 6 false),
    ([(0x13, 25), (4, 19), (5, 13), (6, 7), (1, 0)], .slt 4 5 6 true),
    ([(0x14, 25), (4, 19), (0x7FFFF, 0)], .movi 4 (-1)),
    ([(0x15, 25), (4, 19), (3, 17), (0xABCD, 1)], .movk 4 3 0xABCD),
    ([(0x16, 25), (4, 19), (5, 13)], .clz 4 5),
    ([(0x17, 25), (4, 19), (5, 13)], .popc 4 5),
    ([(0x18, 25), (4, 19), (6, 13), (1, 12), (8, 6), (3, 0)], .ext 4 6 true 8 3)] = true := by decide +kernel

theorem test_decode_control : reads .m [
    ([(0x19, 25), (3, 22), (5, 16), (6, 10), (0x3FF, 0)], .bc .ge 5 6 (-1)),
    ([(0x19, 25), (5, 22), (5, 16), (7, 0)], .bc .gez 5 0 7),
    ([(0x1A, 25), (0x1FFFFFF, 0)], .br (-1)),
    ([(0x1B, 25), (0x0FFFFFF, 0)], .call 16777215),
    ([(0x1C, 25), (5, 13)], .jr 5),
    ([(0x1C, 25), (4, 19), (5, 13), (1, 0)], .jrLk 4 5),
    ([(0x1D, 25), (4, 19), (5, 13), (2, 0)], .loop 4 5 2),
    ([(0x1E, 25), (3, 0)], .give 3),
    ([(0x1F, 25), (1, 0)], .take 1),
    ([(0x20, 25), (7, 19), (5, 13), (6, 7)], .mbw 7 5 6),
    ([(0x21, 25), (4, 19), (7, 13)], .mbr 4 7),
    ([(0x22, 25)], .rdv),
    ([(0x22, 25), (7, 0)], .rdvMask 7),
    ([(0x23, 25), (5, 4), (3, 0)], .bar 5 3),
    ([(0x23, 25), (5, 13), (1, 4), (1, 3), (3, 0)], .barTm 5 1 3)] = true := by decide +kernel

theorem test_decode_system : reads .x [
    ([(0x24, 25), (4, 19), (0x11, 0)], .rdsr 4 0x11),
    ([(0x24, 25), (4, 19), (0x10, 0)], .rdsrQflags 4),
    ([(0x25, 25), (5, 13), (0x04, 0)], .wrsr 5 0x04),
    ([(0x25, 25), (5, 13)], .wrsrStatus 5),
    ([(0x25, 25), (5, 13), (0x10, 0)], .wrsrQflags 5),
    ([(0x25, 25), (5, 13), (0x11, 0)], .wrsrNpdef 5),
    ([(0x25, 25), (5, 13), (0x12, 0)], .wrsrDph 5),
    ([(0x25, 25), (5, 13), (0x20, 0)], .wrsrSpass 5),
    ([(0x25, 25), (5, 13), (0x21, 0)], .wrsrSkern 5),
    ([(0x25, 25), (5, 13), (0x22, 0)], .wrsrSdrain 5),
    ([(0x26, 25), (0x1ABC, 0)], .trap 0x1ABC),
    ([(0x27, 25)], .eret),
    ([(0x28, 25), (20, 0)], .idle 20),
    ([(0x29, 25), (4, 19)], .rdcyc 4)] = true := by decide +kernel

/-! ## The access engine (R43, R49, R50, R57, R245, R281) -/

theorem test_decode_access : reads .a [
    ([(0x40, 25), (4, 19), (40, 13), (2, 11), (1, 10), (0x1FF, 0)], .ld 4 (.handle 8) 2 true (.imm (-1))),
    ([(0x41, 25), (4, 19), (5, 13), (3, 11), (1, 9), (6, 3), (3, 1)], .st 4 (.reg 5) 3 (.index 6 3)),
    ([(0x42, 25), (15, 19), (5, 13), (2, 0)], .ldq 15 (.reg 5) (.imm 2)),
    ([(0x43, 25), (7, 19), (32, 13)], .stq 7 (.handle 0) (.imm 0)),
    ([(0x44, 25), (4, 19), (5, 13), (1, 0)], .ldt 4 (.reg 5) (.imm 1)),
    ([(0x45, 25), (4, 19), (5, 13), (1, 9), (7, 3)], .stt 4 (.reg 5) (.index 7 0)),
    ([(0x46, 25), (4, 19), (5, 13), (6, 7), (8, 3), (1, 2), (3, 0)], .amo 4 5 6 8 true 3),
    ([(0x47, 25), (4, 19), (5, 13), (6, 7), (1, 0)], .cas 4 5 6 false 1),
    ([(0x48, 25), (2, 3), (5, 0)], .fence 2 5),
    ([(0x49, 25), (0x1FFF, 0)], .spadj (-1)),
    ([(0x4A, 25), (7, 13), (1, 0)], .passM 7 1),
    ([(0x4A, 25), (7, 13), (1, 12), (128, 0)], .passA 7 128),
    ([(0x4B, 25), (12, 19), (4, 13), (1, 0)], .tlbp 12 4 true),
    ([(0x4C, 25), (23, 8), (255, 0)], .pghint 23 255),
    ([(0x4D, 25), (5, 13), (2, 0)], .tlbinv 5 2)] = true := by decide +kernel

theorem test_decode_directory : reads .a [
    ([(0x4E, 25), (33, 19), (5, 13), (6, 7), (1, 0)], .openH 1 5 6 true),
    ([(0x4F, 25), (47, 19)], .closeH 15),
    ([(0x50, 25), (4, 19), (5, 13), (6, 7)], .bind 4 5 6),
    ([(0x51, 25), (4, 19), (5, 13), (6, 7)], .rebind 4 5 6),
    ([(0x52, 25), (5, 13), (6, 7), (95, 0)], .lpatch 5 6 95),
    ([(0x53, 25), (4, 19), (5, 13)], .larm 4 5),
    ([(0x54, 25), (4, 19), (5, 13), (3, 0)], .decld 4 5 4),
    ([(0x55, 25), (5, 13), (6, 7)], .ctxsv 5 6),
    ([(0x56, 25), (5, 13), (6, 7)], .ctxld 5 6)] = true := by decide +kernel

theorem test_decode_access_long : readsLong .a [
    ([(0x60, 25), (8, 19), (9, 13), (10, 7)], [(1, 29), (1, 27), (2, 25), (15, 14), (8, 10)],
      .ldqs 15 (.reg 8) 9 10 .s16 ⟨.np1, 1, 2⟩),
    ([(0x61, 25), (40, 19), (9, 13), (10, 7)], [(14, 10)], .gathq 0 (.handle 8) 9 10 .b8 ⟨.np0, 0, 0⟩),
    ([(0x62, 25), (8, 19), (9, 13), (10, 7)], [(23, 14)], .scatq 7 (.reg 8) 9 10 .f32 ⟨.np0, 0, 0⟩),
    ([(0x63, 25), (8, 19), (9, 13), (10, 7)], [(11, 19), (1, 10), (1, 7), (1, 2), (1, 1)],
      .rgath (.reg 8) 9 10 11 .bf16 .rtz false true true ⟨.np0, 0, 0⟩),
    ([(0x64, 25), (8, 19), (9, 13), (10, 7)], [(11, 19), (1, 10)], .rstrm (.reg 8) 9 10 11 .bf16 false ⟨.np0, 0, 0⟩),
    ([(0x65, 25), (9, 13), (10, 7), (5, 0)], [(11, 19)], .cplvl 5 9 10 11 ⟨.np0, 0, 0⟩),
    ([(0x66, 25), (8, 19), (32, 13), (10, 7), (3, 4)], [(5, 10), (5, 7), (2, 0)],
      .cpgo (.reg 8) (.handle 0) 10 .k4 .f16 .rdi 0 3 ⟨.np0, 0, 0⟩),
    ([(0x66, 25), (8, 19), (9, 13), (10, 7)], [(1, 4), (6, 0)], .cpgo (.reg 8) (.reg 9) 10 .f32 .s8 .rne 1 0 ⟨.np0, 0, 0⟩),
    ([(0x66, 25), (8, 19), (9, 13), (1, 0)], [(2, 27)], .cpgoPm 8 9 ⟨.np0, 2, 0⟩),
    ([(0x67, 25), (8, 19), (9, 13), (10, 7), (2, 0)], [(2, 29), (11, 19), (1, 10)],
      .cpgath (.reg 8) (.reg 9) 10 11 2 .bf16 .f32 .rne 0 ⟨.np2, 0, 0⟩),
    ([(0x68, 25), (8, 19), (9, 13), (10, 7), (1, 0)], [(2, 29)],
      .cpscat (.reg 8) (.reg 9) 10 true .f32 .f32 .rne 0 ⟨.np2, 0, 0⟩),
    ([(0x69, 25), (8, 19), (9, 13), (10, 7)], [(11, 19), (3, 14), (1, 10)],
      .decq 3 (.reg 8) 9 10 11 .bf16 false ⟨.np0, 0, 0⟩)] = true := by decide +kernel

/-- The words of the examples of R245 and R257. -/
theorem test_decode_printed_a :
    (match decodeWords (openCtx .a) 0xC8412500 0x00580400 with
      | .ok i => i == .rstrm (.reg 8) 9 10 11 .bf16 false ⟨.np0, 0, 0⟩ | .error _ => false) = true ∧
    (match decodeWords (openCtx .a) 0x9400E001 0 with | .ok i => i == .passM 7 1 | .error _ => false) = true := by decide +kernel

/-! ## The execute engine (R45 to R48, R58, R157, R168, R181) -/

theorem test_decode_execute : reads .x [
    ([(0x40, 25), (4, 19), (5, 13), (6, 7), (1, 0)], .sfadd 4 5 6 .rtz),
    ([(0x41, 25), (4, 19), (5, 13), (6, 7), (2, 0)], .sfsub 4 5 6 .rup),
    ([(0x42, 25), (4, 19), (5, 13), (6, 7), (3, 0)], .sfmul 4 5 6 .rdn),
    ([(0x43, 25), (4, 19), (5, 13), (6, 7), (4, 0)], .sfma 4 5 6 .rna),
    ([(0x44, 25), (4, 19), (5, 13), (6, 7), (5, 0)], .sfdiv 4 5 6 .rdi),
    ([(0x45, 25), (4, 19), (5, 13)], .sfsqrt 4 5 .rne),
    ([(0x46, 25), (4, 19), (5, 13), (6, 7)], .sfmin 4 5 6),
    ([(0x47, 25), (4, 19), (5, 13), (6, 7)], .sfmax 4 5 6),
    ([(0x48, 25), (4, 19), (5, 13), (6, 7), (7, 0)], .sfcmp 4 5 6 7),
    ([(0x49, 25), (4, 19), (5, 13), (1, 4), (1, 2)], .sfcvt 4 5 .rtz 1 0),
    ([(0x4A, 25), (5, 19), (4, 13), (4, 7), (1, 2), (1, 0)], .vext 5 4 4 true 1),
    ([(0x4B, 25), (4, 19), (5, 13), (6, 7), (3, 0)], .vins 4 5 6 3),
    ([(0x4C, 25), (4, 19), (7, 13), (1, 0)], .qcnt 4 7 true),
    ([(0x4D, 25), (15, 13), (6, 7)], .qdrop 15 6),
    ([(0x4D, 25), (4, 19), (15, 13), (6, 7), (1, 0)], .qdropNw 4 15 6),
    ([(0x4E, 25), (7, 19), (5, 13), (9, 0)], .loopp 7 5 9)] = true := by decide +kernel

theorem test_decode_predicate : reads .x [
    ([(0x4F, 25), (63, 19), (62, 13), (61, 7), (7, 0)], .plog 63 62 61 7),
    ([(0x50, 25), (4, 19), (63, 13), (3, 0)], .pcnt 4 63 3),
    ([(0x51, 25), (4, 19), (63, 13), (2, 0)], .pfirst 4 63 2),
    ([(0x52, 25), (63, 19), (1, 11), (1023, 0)], .pset 63 1 1023),
    ([(0x52, 25), (63, 19), (5, 13), (2, 11), (1, 10)], .psetReg 63 5 2 0),
    ([(0x53, 25), (4, 19), (56, 13)], .ppack 4 56),
    ([(0x54, 25), (56, 19), (5, 13)], .punpk 56 5),
    ([(0x55, 25), (4, 19), (63, 13), (6, 7)], .pext 4 63 6),
    ([(0x56, 25), (63, 19), (5, 13), (6, 7)], .pins 63 5 6)] = true := by decide +kernel

/-- A control record with distinct fields: np 1, take 1, give 2, guard 9. -/
def ctl : XCtl := ⟨.np1, 1, 2, 9, false, true⟩
/-- The same fields of word 2. -/
def ctlBits : List (Nat × Nat) := [(1, 29), (1, 27), (2, 25), (9, 8), (1, 0)]

theorem test_decode_vector_integer : readsLong .x [
    ([(0x60, 25), (64, 18), (65, 11), (33, 4), (1, 0)], ctlBits ++ [(6, 14), (1, 3)], .vadd (.w 0) (.q 1 true) (.s 1) .s8 true ctl),
    ([(0x61, 25), (3, 18), (4, 11), (79, 4)], ctlBits ++ [(13, 14)], .vsub (.v 3) (.v 4) (.q 15 false) .z64 false ctl),
    ([(0x62, 25), (3, 18), (80, 11), (87, 4)], ctlBits ++ [(8, 14)], .vmul (.v 3) (.m 0) (.m 7) .s16 false ctl),
    ([(0x63, 25), (3, 18), (120, 11), (121, 4)], ctlBits ++ [(10, 14)], .vmulh (.v 3) .lane .ones .s32 ctl),
    ([(0x64, 25), (3, 18), (4, 11), (5, 4)], ctlBits ++ [(66, 18), (10, 14), (1, 1)],
      .vmad (.v 3) (.v 4) (.v 5) (.q 2 true) .s32 false ctl),
    ([(0x65, 25), (3, 18), (4, 11), (5, 4), (7, 0)], ctlBits ++ [(14, 14)], .vlog (.v 3) (.v 4) (.v 5) .b8 7 ctl),
    ([(0x66, 25), (3, 18), (4, 11), (5, 4), (3, 0)], ctlBits ++ [(9, 14)], .vsh (.v 3) (.v 4) (.v 5) .z16 3 ctl),
    ([(0x67, 25), (3, 18), (4, 11), (5, 4)], ctlBits, .vmin (.v 3) (.v 4) (.v 5) .f32 ctl),
    ([(0x68, 25), (3, 18), (4, 11), (5, 4)], ctlBits ++ [(1, 14)], .vmax (.v 3) (.v 4) (.v 5) .bf16 ctl),
    ([(0x69, 25), (71, 18), (4, 11), (1, 0)], ctlBits ++ [(12, 14)], .vabs (.w 7) (.v 4) .s64 true ctl)] = true := by decide +kernel

theorem test_decode_vector_float : readsLong .x [
    ([(0x6A, 25), (3, 18), (4, 11), (5, 4)], ctlBits ++ [(5, 4)], .vfadd (.v 3) (.v 4) (.v 5) .f32 .rdi ctl),
    ([(0x6B, 25), (3, 18), (4, 11), (5, 4)], ctlBits ++ [(1, 14), (1, 4)], .vfsub (.v 3) (.v 4) (.v 5) .bf16 .rtz ctl),
    ([(0x6C, 25), (3, 18), (4, 11), (5, 4)], ctlBits ++ [(2, 14)], .vfmul (.v 3) (.v 4) (.v 5) .f16 .rne ctl),
    ([(0x6D, 25), (3, 18), (4, 11), (5, 4), (2, 0)], ctlBits ++ [(6, 18)], .vfma (.v 3) (.v 4) (.v 5) (.v 6) .f32 .rne 2 ctl),
    ([(0x6E, 25), (3, 18), (4, 11), (5, 4)], ctlBits, .vfdiv (.v 3) (.v 4) (.v 5) .f32 .rne ctl),
    ([(0x6F, 25), (3, 18), (4, 11)], ctlBits, .vfsqrt (.v 3) (.v 4) .f32 .rne ctl),
    ([(0x70, 25), (63, 18), (4, 11), (5, 4), (7, 0)], ctlBits, .vcmp 63 (.v 4) (.v 5) .f32 7 ctl),
    ([(0x71, 25), (3, 18), (4, 11), (5, 4)], ctlBits ++ [(14, 14)], .vsel (.v 3) (.v 4) (.v 5) .b8 ctl),
    ([(0x72, 25), (95, 18), (4, 11)], ctlBits ++ [(1, 7)], .vmov (.e 7) (.v 4) .f32 { ctl with zeroing := true }),
    ([(0x73, 25), (3, 18), (32, 11)], ctlBits ++ [(10, 14)], .viota (.v 3) (.s 0) .s32 ctl),
    ([(0x74, 25), (3, 18), (4, 11), (5, 4), (1, 0)], ctlBits ++ [(6, 18)], .vperm (.v 3) (.v 4) (.v 5) (.v 6) .f32 1 ctl),
    ([(0x75, 25), (3, 18), (4, 11), (33, 4), (1, 0)], ctlBits ++ [(6, 18)],
      .vslide (.v 3) (.v 4) (.s 1) (.v 6) .f32 true ctl)] = true := by decide +kernel

theorem test_decode_vector_transform : readsLong .x [
    ([(0x76, 25), (3, 18), (4, 11), (4, 0)], ctlBits ++ [(10, 14)], .vred (.v 3) (.v 4) .s32 4 .rne ctl),
    ([(0x77, 25), (3, 18), (4, 11)], ctlBits ++ [(33, 18)], .vscan (.v 3) (.v 4) (.v 0) (.s 1) .f32 0 .rne ctl),
    ([(0x77, 25), (3, 18), (4, 11), (5, 4), (4, 0)], ctlBits, .vscan (.v 3) (.v 4) (.v 5) (.v 0) .f32 4 .rne ctl),
    ([(0x78, 25), (3, 18), (4, 11), (33, 4), (2, 0)], ctlBits ++ [(13, 14)], .vclmul (.v 3) (.v 4) (.s 1) 2 ctl),
    ([(0x79, 25), (3, 18), (4, 11), (33, 4), (2, 0)], ctlBits ++ [(1, 18), (4, 14), (3, 4)],
      .vcvt (.v 3) (.v 4) (.s 1) .e5m2 .f16 .rdn true ctl),
    ([(0x7A, 25), (65, 18), (5, 11), (36, 4), (1, 0)], [(0, 0)],
      .vqpack (.w 1) (.v 5) (.s 4) .f32 1 .rne ⟨.np0, 0, 0, 0, false, false⟩),
    ([(0x7B, 25), (3, 18), (4, 11), (33, 4)], ctlBits ++ [(1, 14)], .vqunpk (.v 3) (.v 4) (.s 1) .bf16 .rne ctl),
    ([(0x7C, 25), (88, 18), (4, 11), (1, 0)], ctlBits ++ [(3, 14)], .vspars (.e 0) (.v 4) .e4m3 1 ctl),
    ([(0x7D, 25), (63, 18), (4, 11), (33, 4), (2, 0)], ctlBits ++ [(9, 14)], .vtopk (.p 63) (.v 4) (.s 1) .z16 2 ctl),
    ([(0x7E, 25), (3, 18), (4, 11), (33, 4), (1, 0)], ctlBits ++ [(6, 18), (7, 14)], .vhist (.v 3) (.v 4) (.s 1) (.v 6) .z8 true ctl),
    ([(0x7F, 25), (3, 18), (4, 11), (5, 4), (2, 2), (3, 0)], ctlBits ++ [(33, 18)],
      .cscan (.v 3) (.v 4) (.v 5) (.s 1) .f32 3 2 .rne ctl)] = true := by decide +kernel

/-- The words of the examples of R162 and R436: `vqpack.k4e w1, v5, s4` where feature 3 is not accepted. -/
theorem test_decode_printed_x :
    (match decodeWords (openCtx .x) 0x94288200 0 with | .ok i => i == .vext 5 4 4 false 0 | .error _ => false) = true ∧
    (match decodeWords ⟨.x, .np1, false, false, 0x7F7⟩ 0xF5042A41 0 with
      | .ok _ => false | .error f => f.cause == 1 && f.tval == 0x03000219F5042A41) = true := by decide +kernel

/-! ## The matrix engine (R51, R59, R299, R306) -/

theorem test_decode_matrix_short : reads .m [
    ([(0x40, 25), (4, 19), (15, 13)], .mqry 4 15),
    ([(0x41, 25), (15, 19), (5, 13)], .mskip 15 5),
    ([(0x41, 25), (15, 19), (1, 0)], .mskipCx 15)] = true := by decide +kernel

theorem test_decode_matrix : readsLong .m [
    ([(0x60, 25), (3, 17), (4, 13), (1, 10), (9, 4)], [(1, 27), (2, 25), (5, 21), (6, 17)], .mwld 1 3 4 5 .s8 ⟨.np0, 1, 2, 9, none, none⟩),
    ([(0x61, 25), (3, 17), (4, 13), (9, 4)], [(5, 21), (1, 17), (3, 0)], .mwlds 0 3 4 5 3 .bf16 ⟨.np0, 0, 0, 9, none, none⟩),
    ([(0x62, 25), (3, 17), (4, 13), (2, 11), (1, 10), (2, 8), (9, 4)], [(1, 29), (1, 17), (1, 13), (7, 9), (1, 8), (6, 4), (15, 0)],
      .mrun 2 1 3 4 .s .bf16 (some 7) ⟨.np1, 0, 0, 9, some 7, some 6⟩),
    ([(0x63, 25), (6, 21), (3, 17), (4, 13), (2, 11), (9, 4), (1, 0)], [(3, 29), (5, 21)],
      .manch 2 3 4 5 (some 6) ⟨.np3, 0, 0, 9, none, none⟩),
    ([(0x64, 25), (3, 11), (9, 4)], [(15, 17)], .mzero 3 .anc ⟨.np0, 0, 0, 9, none, none⟩),
    ([(0x65, 25), (3, 17), (4, 13), (2, 11), (9, 4)], [(5, 21), (5, 17), (1, 14), (1, 2), (3, 0)],
      .mdrn 2 3 4 5 .k4 .rtz false true 3 ⟨.np0, 0, 0, 9, none, none⟩)] = true := by decide +kernel

/-! ## Refused words (R55, R61 to R63) -/

/-- A reserved field raises 0x01, an operand value 0x02, each with its field; the earliest class goes first. -/
theorem test_refused_words :
    refuses (openCtx .m) [
      (word [(0x01, 25), (4, 19), (5, 13), (6, 7), (1, 0)], 0, 1, false, 0),
      (word [(0x01, 25), (16, 19), (5, 13), (6, 7)], 0, 2, false, 19),
      (word [(0x01, 25), (16, 19), (5, 13), (6, 7), (1, 0)], 0, 1, false, 0),
      (word [(0x62, 25), (3, 8)], 0, 2, false, 8),
      (word [(0x64, 25)], word [(5, 29)], 2, true, 29),
      (word [(0x60, 25)], word [(1, 9)], 1, true, 9)] = true ∧
    refuses (openCtx .a) [
      (word [(0x40, 25), (4, 19), (48, 13)], 0, 2, false, 13),
      (word [(0x40, 25), (3, 11), (1, 10)], 0, 1, false, 10),
      (word [(0x62, 25)], word [(15, 14)], 2, true, 14),
      (word [(0x60, 25)], word [(15, 10)], 2, true, 10)] = true ∧
    refuses (openCtx .x) [
      (word [(0x60, 25), (32, 18)], word [(10, 14)], 2, false, 18),
      (word [(0x60, 25), (90, 11)], word [(10, 14)], 2, false, 11),
      (word [(0x60, 25), (80, 11), (80, 4)], word [(10, 14)], 2, false, 11),
      (word [(0x60, 25)], word [(10, 14), (1, 3)], 2, true, 3),
      (word [(0x71, 25)], word [(1, 7)], 1, true, 7)] = true := by decide +kernel

/-- An unassigned major decodes to an instruction of its own (R60); a supervisor form is refused in user mode (R62). -/
theorem test_unassigned_and_privileged :
    (match decodeWords (openCtx .a) (word [(0x2A, 25)]) 0 with | .ok i => i == .unassignedMajor (word [(0x2A, 25)]) | .error _ => false)
      = true ∧
    (match decodeWords ⟨.a, .np1, false, true, 0x7FF⟩ (word [(0x27, 25)]) 0 with
      | .ok _ => false | .error f => f.cause == 3 && f.tval == 0x4E000000) = true := by decide +kernel

/-- Bytes of an instruction lie little-endian (R34), and too few of them give none. -/
theorem test_bytes :
    decodeTableWord 32 (word [(0x14, 25), (5, 19), (0x1000, 0)]) = some (.movi 5 0x1000) ∧
    (match decodeBytes (openCtx .a) [0x00, 0x10, 0x28, 0x28, 0xAA] with
      | .ok (i, rest) => i == .movi 5 0x1000 && rest == [0xAA] | .error _ => false) = true ∧
    (match decodeBytes (openCtx .a) [0x00, 0x10, 0x28] with | .error .tooShort => true | _ => false) = true := by decide +kernel

/-! ## Well-formedness: each check with a term that it refuses -/

/-- Terms that engine `e` cannot have. -/
def illFormed (e : Eng) (l : List Instr) : Bool := l.all (fun i => !i.wf e)

theorem test_ill_formed_shared : illFormed .m [
    .add 16 0 0, .add 0 16 0, .add 0 0 16, .addi 16 0 0, .addi 0 0 4096, .addi 0 0 (-4097), .mulh 0 16 0 false, .div 16 0 0 false false,
    .min 0 0 16 true, .shlImm 0 0 64, .shrImm 16 0 0, .movi 0 262144, .movi 16 0, .movk 0 4 0, .movk 0 0 65536, .clz 16 0, .popc 0 16,
    .ext 0 0 true 64 0, .ext 0 0 true 0 64, .bc .eq 0 16 0, .bc .ltz 0 1 0, .bc .eq 0 0 512, .br 16777216, .call (-16777217), .jr 16,
    .jrLk 16 0, .loop 16 1 1, .give 4, .take 4, .mbw 8 0 0, .mbr 0 8, .mbr 16 0, .rdvMask 0, .rdvMask 8, .bar 8 0, .bar 0 8, .barTm 16 0 0,
    .rdsr 0 8192, .rdsr 0 0x10, .rdsrQflags 16, .rdcyc 16, .wrsr 16 1, .wrsr 0 8192, .wrsr 0 0x11, .wrsrStatus 16, .wrsrDph 16, .trap 8192,
    .idle 4096] = true := by decide +kernel

theorem test_ill_formed_access : illFormed .a [
    .ld 32 (.reg 0) 0 false (.imm 0), .ld 0 (.reg 32) 0 false (.imm 0), .ld 0 (.handle 16) 0 false (.imm 0),
    .ld 0 (.reg 0) 4 false (.imm 0), .ld 0 (.reg 0) 3 true (.imm 0), .ld 0 (.reg 0) 0 false (.imm 256),
    .st 0 (.reg 0) 0 (.index 32 0), .st 0 (.reg 0) 0 (.index 0 4), .ldq 16 (.reg 0) (.imm 0), .stq 8 (.reg 0) (.imm 0),
    .ldt 32 (.reg 0) (.imm 0), .amo 0 0 0 9 false 0, .amo 0 0 0 0 false 4, .cas 32 0 0 false 0, .fence 3 0, .fence 0 6,
    .spadj 4096, .passM 32 1, .passA 0 256, .tlbp 32 0 false, .pghint 24 0, .pghint 0 256, .tlbinv 0 4, .tlbinv 1 1, .openH 16 0 0 false,
    .closeH 16, .bind 32 0 0, .lpatch 0 0 96, .larm 32 0, .decld 0 0 0, .decld 0 0 5, .ctxsv 32 0, .ctxld 0 32,
    .ldqs 16 (.reg 0) 0 0 .f32 ⟨.np0, 0, 0⟩, .ldqs 0 (.reg 0) 0 0 .anc ⟨.np0, 0, 0⟩, .ldqs 0 (.reg 0) 0 0 .f32 ⟨.np0, 4, 0⟩,
    .gathq 0 (.reg 0) 0 0 .f32 ⟨.np0, 0, 4⟩, .scatq 8 (.reg 0) 0 0 .f32 ⟨.np0, 0, 0⟩,
    .rgath (.reg 0) 0 0 0 .f32 .rne false false false ⟨.np0, 0, 0⟩, .rgath (.reg 0) 0 0 0 .bf16 .rtz false false false ⟨.np0, 0, 0⟩,
    .rstrm (.reg 0) 0 0 32 .bf16 false ⟨.np0, 0, 0⟩, .cplvl 6 0 0 0 ⟨.np0, 0, 0⟩,
    .cpgo (.reg 0) (.reg 0) 0 .b8 .f32 .rne 0 0 ⟨.np0, 0, 0⟩, .cpgo (.reg 0) (.reg 0) 0 .f32 .f32 .rne 3 0 ⟨.np0, 0, 0⟩,
    .cpgo (.reg 0) (.reg 0) 0 .f32 .f32 .rne 1 0 ⟨.np0, 0, 0⟩, .cpgo (.reg 0) (.reg 0) 0 .f32 .f32 .rne 2 0 ⟨.np0, 0, 0⟩,
    .cpgo (.reg 0) (.reg 0) 0 .f32 .f32 .rne 0 1 ⟨.np0, 0, 0⟩, .cpgo (.reg 0) (.reg 0) 0 .k4 .f32 .rne 0 4 ⟨.np0, 0, 0⟩,
    .cpgoPm 32 0 ⟨.np0, 0, 0⟩, .cpgath (.reg 0) (.reg 0) 0 0 3 .f32 .f32 .rne 0 ⟨.np0, 0, 0⟩,
    .cpgath (.reg 0) (.reg 0) 0 1 0 .f32 .f32 .rne 0 ⟨.np0, 0, 0⟩, .cpscat (.reg 0) (.reg 0) 32 true .f32 .f32 .rne 0 ⟨.np0, 0, 0⟩,
    .decq 0 (.reg 0) 0 0 0 .f32 false ⟨.np0, 0, 0⟩, .decq 0 (.reg 0) 0 0 0 .anc true ⟨.np0, 0, 0⟩] = true := by decide +kernel

/-- A control record without marks. -/
def free : XCtl := ⟨.np1, 0, 0, 0, false, false⟩

theorem test_ill_formed_execute : illFormed .x [
    .sfadd 32 0 0 .rne, .sfsqrt 0 32 .rne, .sfmin 0 0 32, .sfcmp 0 0 0 8, .sfcvt 0 0 .rne 1 1, .sfcvt 0 0 .rtz 1 2, .sfcvt 0 0 .rne 4 0,
    .vext 0 0 0 true 3, .vext 0 0 0 false 4, .vins 0 0 0 4, .qcnt 0 8 true, .qcnt 0 16 false, .qdrop 16 0, .qdropNw 32 0 0, .loopp 8 0 1,
    .loopp 0 0 4096, .plog 64 0 0 0, .plog 0 0 0 8, .pcnt 0 64 0, .pfirst 0 0 4, .pset 0 0 1024, .psetReg 0 32 0 0, .ppack 0 57, .punpk 57 0,
    .pext 0 64 0, .pins 64 0 0, .vadd (.e 0) (.v 0) (.v 0) .s32 false free, .vadd (.w 8) (.v 0) (.v 0) .s32 false free,
    .vadd (.v 32) (.v 0) (.v 0) .s32 false free, .vadd (.v 0) (.v 32) (.v 0) .s32 false free, .vadd (.v 0) (.q 16 false) (.v 0) .s32 false free,
    .vadd (.v 0) (.m 8) (.v 0) .s32 false free, .vadd (.v 0) (.m 1) (.m 1) .s32 false free, .vadd (.v 0) (.v 0) (.v 0) .f32 false free,
    .vadd (.v 0) (.v 0) (.v 0) .s32 false ⟨.np1, 4, 0, 0, false, false⟩, .vadd (.v 0) (.v 0) (.v 0) .s32 false ⟨.np1, 0, 0, 64, false, false⟩,
    .vmad (.v 0) (.v 0) (.m 1) (.m 1) .s32 false free, .vlog (.v 0) (.v 0) (.v 0) .s32 8 free, .vlog (.v 0) .lane (.v 0) .b8 0 free,
    .vsh (.v 0) (.v 0) (.v 0) .s32 4 free, .vmin (.v 0) (.v 0) (.v 0) .e4m3 free, .vabs (.v 0) (.v 0) .f32 true free, .vabs (.v 0) (.v 0) .z8 false free,
    .vfadd (.v 0) (.v 0) (.v 0) .s32 .rne free, .vfma (.v 0) (.v 0) (.v 0) (.v 0) .f32 .rne 3 free, .vfsqrt (.v 0) (.v 0) .s8 .rne free,
    .vcmp 64 (.v 0) (.v 0) .f32 0 free, .vcmp 0 (.v 0) (.v 0) .s32 6 free, .vcmp 0 (.v 0) (.v 0) .b8 2 free,
    .vsel (.v 0) (.v 0) (.v 0) .f32 { free with zeroing := true }, .vmov (.e 8) (.v 0) .f32 free, .viota (.v 0) (.v 0) .f32 free,
    .vperm (.v 0) (.v 0) (.v 0) (.v 1) .f32 0 free, .vperm (.v 0) (.v 0) (.v 0) (.v 0) .f32 3 free,
    .vslide (.v 0) (.v 0) (.v 0) (.v 0) .f32 true free, .vred (.v 0) (.v 0) .f32 5 .rne free, .vred (.v 0) (.v 0) .f32 1 .rtz free,
    .vred (.v 0) (.v 0) .bf16 0 .rne free, .vred (.v 0) (.v 0) .s8 3 .rne free, .vscan (.v 0) (.v 0) (.v 1) (.s 0) .f32 0 .rne free,
    .vscan (.v 0) (.v 0) (.v 0) (.v 1) .f32 0 .rne free, .vscan (.v 0) (.v 0) (.v 0) (.s 0) .s32 3 .rne free, .vclmul (.v 0) (.v 0) (.v 0) 2 free,
    .vclmul (.v 0) (.v 0) (.v 0) 3 free, .vcvt (.v 0) (.v 0) (.s 0) .b8 .f32 .rne false free, .vcvt (.v 0) (.v 0) (.s 0) .f32 .b8 .rne false free,
    .vcvt (.v 0) (.v 0) (.s 0) .f32 .f32 .rne true free, .vcvt (.v 0) (.v 0) (.v 0) .f32 .f16 .rne false free,
    .vqpack (.v 0) (.v 0) (.s 0) .f32 4 .rne free, .vqunpk (.v 0) (.v 0) (.s 0) .s8 .rne free, .vspars (.e 0) (.v 0) .f32 0 free,
    .vspars (.v 0) (.v 0) .s64 0 free, .vtopk (.p 0) (.v 0) (.s 0) .f32 0 free, .vtopk (.vec (.v 0)) (.v 0) (.s 0) .f32 2 free,
    .vtopk (.vec (.v 0)) (.v 0) (.s 0) .s8 0 free, .vhist (.v 0) (.v 0) (.s 0) (.v 0) .f32 false free,
    .cscan (.v 0) (.v 0) (.v 0) (.s 0) .f32 0 3 .rne free, .cscan (.v 0) (.v 0) (.v 0) (.s 0) .f32 0 0 .rtz free,
    .cscan (.v 0) (.v 0) (.v 0) (.s 0) .s32 3 0 .rne free] = true := by decide +kernel

/-- A control record of the matrix engine without marks. -/
def mfree : MCtl := ⟨.np0, 0, 0, 0, none, none⟩

theorem test_ill_formed_matrix : illFormed .m [
    .mqry 16 0, .mqry 0 16, .mskip 16 0, .mskip 0 16, .mskipCx 16, .mwld 2 0 0 0 .s8 mfree, .mwld 0 16 0 0 .s8 mfree, .mwld 0 0 0 0 .f32 mfree,
    .mwlds 0 0 0 0 4 .s8 mfree, .mwlds 0 0 0 0 0 .k4 mfree, .mrun 4 0 0 0 .p .s8 none mfree, .mrun 0 0 0 0 .p .s8 (some 8) mfree,
    .mrun 0 0 0 0 .p .s8 none ⟨.np0, 0, 0, 16, none, none⟩, .mrun 0 0 0 0 .p .s8 none ⟨.np0, 0, 0, 0, some 16, none⟩,
    .manch 0 0 0 0 (some 16) mfree, .mzero 0 .s8 mfree, .mdrn 0 0 0 0 .z8 .rne false false 0 mfree, .mdrn 0 0 0 0 .f32 .rne true false 0 mfree,
    .mdrn 0 0 0 0 .f32 .rne false false 1 mfree, .mdrn 0 0 0 0 .k4 .rne false false 4 mfree] = true ∧
    illFormed .x [.mqry 0 0, .ld 0 (.reg 0) 0 false (.imm 0)] = true ∧ illFormed .a [.sfmin 0 0 0, .mwld 0 0 0 0 .s8 mfree] = true := by
  decide +kernel

end Sys2Proof.Tests
end

