-- ==== Sys2Proof/Tests/Witness.lean ====
section
/-! SUPPORT. States and operands that meet the hypotheses of the statements, clause by clause: the machine as a whole, the shared
control subset, special registers, exceptions and waiting. -/

namespace Sys2Proof.Tests

set_option Elab.async false

open Sys2Proof.Machine

/-! ## A small machine: core 0 runs a job of context 0 with three streams; the low 64 GiB of addresses map to themselves -/

/-- The page tables of `placeWord`. -/
def tables : Memory := writeBytes (writeBytes [] placeRoot (bytesOf 8 placeNext)) placeTable (bytesOf 8 (placeLeaf 0))

/-- A stream in the middle of straight code, in user mode, in rib mode. -/
def mid (e : Eng) : Stream :=
  { Stream.reset e with
    run := .running, pc := 0x100000, tvec := 0x200000, regs := [(1, 7), (2, 3), (5, 0x300000), (6, 0x1000), (7, 0xFFFFFFFFFFFFFFFF)] }

def core0 : Core :=
  { Core.reset with job := some ⟨0, 0, 0, 0, 0, false, [.a, .x, .m], []⟩, a := mid .a, x := mid .x, m := mid .m }

/-- The launch of record 0, with one job on core 0. -/
def launch0 : Launch :=
  { record := 0, wave := 0, started := true, cores := [(0, 0)], clusters := [0], vaulted := [], index := 0, grants := [], sent := false,
    due := [], begun := [0], loaded := none, done := [], contribs := [], timed := [], completed := [], remoteBars := [], released := [],
    packages := [0], endedOn := [] }

/-- The package whose core 0 is `k`, with its stream of engine `e` acting. -/
def on (e : Eng) (k : Core) : State :=
  { State.reset with
    mem := tables, accepted := 0x7FF, ctxs := [(0, ⟨true, [0, BitVec.ofNat 64 placeRoot], [], 0⟩)], cores := [(0, k)],
    launches := [launch0], turn := .stream 0 e,
    session := { Session.reset with phase := .opened } }

/-- The acting stream of core 0. -/
def me (e : Eng) : Who := ⟨0, e⟩

/-- `core0` with one stream changed. -/
def core0With (e : Eng) (f : Stream → Stream) : Core := core0.setStream e (f (core0.stream e))

def inSuper (t : Stream) : Stream := { t with status := t.status ||| 1 }
def inGauge (t : Stream) : Stream := { t with status := t.status ||| 4 }

theorem acts_on (e : Eng) (k : Core) : Acts (on e k) (me e) := rfl

theorem stream_on (e : Eng) (k : Core) : (on e k).stream (me e) = k.stream e := rfl

theorem full_on {e : Eng} {k : Core} {ns : List Nat} (h : (k.stream e).empty = []) : Full (on e k) (me e) ns := by
  intro n _
  rw [stream_on]
  simp [Stream.full, h]

theorem straight_on {e : Eng} {k : Core} {n : Nat} (h : (k.stream e).loops = []) : Straight (on e k) (me e) n := by
  simp [Straight, StaysIn, stream_on, h]

theorem stays_on {e : Eng} {k : Core} {next : Word} {ctl call : Bool} (h : (k.stream e).loops = []) :
    StaysIn ((on e k).stream (me e)) next ctl call := by
  simp [StaysIn, stream_on, h]

theorem runs_on {e : Eng} {k : Core} {ns : List Nat} {n : Nat} (h : (k.stream e).empty = []) (l : (k.stream e).loops = []) :
    CanRun (on e k) (me e) ns n := ⟨acts_on e k, full_on h, straight_on l⟩

/-- What a state of tables holds at every index is what its entries and the default hold. -/
theorem tget_all {α : Type} (p : α → Bool) (d : α) (hd : p d = true) (t : Tbl α) (h : t.all (fun x => p x.2) = true) (n : Nat) :
    p (tget t n d) = true := by
  induction t with
  | nil => exact hd
  | cons x t ih =>
    obtain ⟨k, v⟩ := x
    simp only [List.all_cons, Bool.and_eq_true] at h
    simp only [tget, tfind]
    by_cases hk : k = n
    · simpa [hk] using h.1
    · simpa [hk, tget] using ih h.2

theorem canonical_of {s : State} (hm : s.mem.wf = true) (hc : s.cores.all (fun x => x.2.tile.wf) = true)
    (hl : s.lifelines.all (fun f => f.cores.all (fun x => x.2.tile.wf)) = true) (hf : s.flash.wf = true := by rfl) : Canonical s :=
  ⟨hm, hf, fun c => tget_all (fun k : Core => k.tile.wf) Core.reset rfl s.cores hc c, by simpa [List.all_eq_true] using hl⟩

/-- A check of what a computation answers. -/
def answers {ε α : Type} (r : Except ε α) (p : α → Bool) : Bool :=
  match r with
  | .ok x => p x
  | .error _ => false

theorem of_answers {ε α : Type} {r : Except ε α} {p : α → Bool} (h : answers r p = true) : ∃ x, r = .ok x ∧ p x = true := by
  cases r with
  | ok x => exact ⟨x, rfl, h⟩
  | error _ => cases h

/-- What a computation that succeeds answers. -/
def okOf {ε α : Type} (d : α) (r : Except ε α) : α :=
  match r with
  | .ok x => x
  | .error _ => d

theorem okOf_eq {ε α β : Type} {d : α × β} {r : Except ε (α × β)} (h : answers r (fun _ => true) = true) :
    r = .ok ((okOf d r).1, (okOf d r).2) := by
  cases r with
  | ok x => rfl
  | error _ => cases h

/-- What a gather that succeeds answers. -/
def gotL (g : Got) : List Byte :=
  match g with
  | .ok l _ => l
  | _ => []

def gotS (d : State) (g : Got) : State :=
  match g with
  | .ok _ s => s
  | _ => d

def isGot (g : Got) : Bool :=
  match g with
  | .ok _ _ => true
  | _ => false

theorem got_eq {d : State} {g : Got} (h : isGot g = true) : g = .ok (gotL g) (gotS d g) := by
  cases g with
  | ok l s => rfl
  | _ => cases h

/-! ## The machine as a whole -/

/-- A nop at the pc of the A stream; the shadow case with a `take` that R232 does not allow. -/
theorem witness_StepRunsDecoded :
    let s := State.reset.withFetchWord 32 0
    let w := me .a
    ((beginTurn s).turn = .stream w.core w.eng ∧ w.core < 512 ∧ mayIssue (beginTurn s) w = true ∧
      ((beginTurn s).stream w).late = [] ∧ returnsTo (beginTurn s) w = none ∧ shadow (fetched (beginTurn s) w) w = false) ∧
    answers (fetchWords (beginTurn s) w) (fun x => x == (0, 0)) = true ∧
    decodeWords (decodeCtx (beginTurn s) w) 0 0 = .ok .nop := by
  decide +kernel

/-- Words that decode to nothing: those of no major opcode's form, and an address that no fetch reaches. -/
theorem witness_StepRunsDecoded_faults :
    let w := me .a
    let s := State.reset.withFetchWord 32 (0x0A000000 + 2)
    let far : State := { s with cores := [(0, s.core 0 |>.setStream .a { (s.core 0).a with pc := 0x1000 })] }
    (mayIssue (beginTurn s) w = true ∧ answers (fetchWords (beginTurn s) w) (fun x => x == (0x0A000002, 0)) = true ∧
      (match decodeWords (decodeCtx (beginTurn s) w) 0x0A000002 0 with | .error _ => true | .ok _ => false) = true) ∧
    (mayIssue (beginTurn far) w = true ∧ returnsTo (beginTurn far) w = none ∧ shadow (fetched (beginTurn far) w) w = false ∧
      (match fetchWords (beginTurn far) w with | .error _ => true | .ok _ => false) = true) := by
  decide +kernel

theorem witness_StepRunsDecoded_shadow :
    let w := me .a
    let s0 := State.reset.withFetchWord 32 ((encode (.take 1)).getD 0 0)
    let s : State := { s0 with
      cores := [(0, { s0.core 0 with a := inGauge (inSuper (s0.core 0).a) })],
      clusters := [(0, { Cluster.reset with frozen := [.fault 0 .a] })] }
    ((beginTurn s).turn = .stream w.core w.eng ∧ mayIssue (beginTurn s) w = true ∧ ((beginTurn s).stream w).super = true) ∧
    answers (fetchWords (beginTurn s) w) (fun x => decodeWords (decodeCtx (beginTurn s) w) x.1 x.2 == .ok (.take 1)) = true ∧
    returnsTo (beginTurn s) w = none ∧ shadow (fetched (beginTurn s) w) w = true ∧ shadowAllows (.take 1) = false := by
  decide +kernel

/-- An event of the machine that is next, and a step after which no hold has come. -/
theorem witness_StepRunsDecoded_event :
    let i : Instr := .commandIssue 0
    let s : State := { State.reset with agenda := [.event i] }
    (beginTurn s).turn = .event i ∧ isEvent i = true ∧ (workOf i = some 0 ∧ freshFreeze (beginTurn s) (clusterOf 0) = false) ∧
      ∀ c, ((on .a core0).core c).held = true → (State.reset.core c).held = true := by
  refine ⟨rfl, by decide, by decide +kernel, ?_⟩
  intro c h
  have : ((on .a core0).core c).held = false := by
    simpa [State.core, on] using tget_all (fun k : Core => !k.held) Core.reset rfl [(0, core0)] (by decide +kernel) c
  simp [this] at h

/-! ## Arithmetic, logic, control transfers and loops -/

/-- Divisors 0, not 0, and −1. -/
theorem witness_ArithmeticAndDivision :
    let s := on .a core0
    CanRun s (me .a) [1, 2, 3] 4 ∧ regOf s (me .a) 2 ≠ 0 ∧ CanRun s (me .a) [1, 4, 3] 4 ∧ regOf s (me .a) 4 = 0 ∧
      regOf s (me .a) 7 = -1 :=
  ⟨runs_on rfl rfl, by decide, runs_on rfl rfl, by decide, by decide⟩

theorem witness_LogicResults : CanRun (on .m core0) (me .m) [1, 2, 3] 4 ∧ 3 < 4 ∧ 65535 < 2 ^ 16 :=
  ⟨runs_on rfl rfl, by decide, by decide⟩

/-- A field that ends at bit 63, and one that ends at bit 64. -/
theorem witness_ShiftsAndSelections :
    CanRun (on .x core0) (me .x) [1, 2, 3] 4 ∧ 63 < 64 ∧ 60 + (3 + 1) ≤ 64 ∧ 64 < 61 + (3 + 1) :=
  ⟨runs_on rfl rfl, by decide, by decide, by decide⟩

theorem witness_EmptyRegisters :
    let k := core0With .a (fun t => { t with empty := [4] })
    Acts (on .a k) (me .a) ∧ Full (on .a k) (me .a) [1, 2] ∧ Straight (on .a k) (me .a) 4 ∧
      ((on .a k).stream (me .a)).full 4 = false :=
  ⟨rfl, by intro n h; fin_cases h <;> rfl, straight_on rfl, rfl⟩

/-- A source that is empty, and fields that end at bit 63 of a word. -/
theorem witness_EmptyRegisters_waits :
    let k := core0With .a (fun t => { t with empty := [4] })
    Acts (on .a k) (me .a) ∧ 63 < 64 ∧ 60 + (3 + 1) ≤ 64 ∧ (∃ m ∈ [1, 4], ((on .a k).stream (me .a)).full m = false) ∧
      ∃ m ∈ [4], ((on .a k).stream (me .a)).full m = false :=
  ⟨rfl, by decide, by decide, by decide +kernel, by decide +kernel⟩

/-- A condition that holds and one that does not, an aligned target and one that is not, also within and out of a loop. -/
theorem witness_ControlTransfers :
    let s := on .a core0
    Acts s (me .a) ∧ Full s (me .a) [1, 2, 3, linkReg .a] ∧ condMeets .ne (regOf s (me .a) 1) (regOf s (me .a) 2) = true ∧
      condMeets .eq (regOf s (me .a) 1) (regOf s (me .a) 2) = false ∧ (regOf s (me .a) 5).toNat % 4 = 0 ∧
      (regOf s (me .a) 1).toNat % 4 ≠ 0 ∧ StaysIn (s.stream (me .a)) (0x100010 : Word) true true ∧ Straight s (me .a) 4 ∧
      StaysIn { mid .a with loops := [⟨false, 0x100000, 0x100008, 4⟩] } 0x100008 true false ∧
      StaysIn { mid .a with loops := [⟨false, 0x100000, 0x100008, 4⟩] } 0x200000 true true :=
  ⟨rfl, full_on rfl, by decide, by decide, by decide, by decide, stays_on rfl, straight_on rfl,
    Or.inr (Or.inr ⟨fun _ => rfl, Or.inl (by decide)⟩), Or.inr (Or.inr ⟨fun _ => rfl, Or.inr rfl⟩)⟩

/-- Four levels and three, counts 0 and not. -/
theorem witness_LoopsOpenAndTurn :
    let l : LoopEnt := ⟨false, 0x80000, 0x80010, 4⟩
    let levels (k : Core) := (((on .a k).stream (me .a)).loops.filter (fun l => !l.pipelined)).length
    let k3 := core0With .a (fun t => { t with loops := [l, l, l] })
    let k4 := core0With .a (fun t => { t with loops := [l, l, l, l] })
    Acts (on .a k3) (me .a) ∧ levels k3 < 4 ∧ Full (on .a k3) (me .a) [1, 4] ∧ ((on .a k3).pcOf (me .a)).toNat + 4 < 2 ^ 64 ∧
      regOf (on .a k3) (me .a) 1 ≠ 0 ∧ regOf (on .a k3) (me .a) 3 = 0 ∧
      StaysIn ((on .a k3).stream (me .a)) (BitVec.ofInt 64 (0x100000 + 4 * 2) + 4) true false ∧
      Acts (on .a k4) (me .a) ∧ 4 ≤ levels k4 := by
  refine ⟨rfl, by decide +kernel, full_on rfl, by decide +kernel, by decide +kernel, by decide +kernel, ?_, rfl, by decide +kernel⟩
  exact Or.inr (Or.inl (by decide +kernel))

/-- The end of the innermost loop with its counter at 2, at 1, and not full, on A and on another engine. -/
theorem witness_LoopsOpenAndTurn_end :
    let l : LoopEnt := ⟨false, 0x100000, 0x100000, 4⟩
    let at_ (e : Eng) (c : Word) (em : List Nat) : State :=
      on e (core0With e (fun t => { t with loops := [l], regs := [(4, c)], empty := em }))
    l.pipelined = false ∧ l.ctr ≠ 0 ∧ l.start.toNat ≤ l.stop.toNat ∧
    (∀ e ∈ [Eng.a, .x], Acts (at_ e 2 []) (me e) ∧ ((at_ e 2 []).stream (me e)).loops = [l] ∧ (at_ e 2 []).pcOf (me e) = l.stop ∧
      ((at_ e 2 []).stream (me e)).full 4 = true ∧ regOf (at_ e 2 []) (me e) 4 ≠ 1 ∧ regOf (at_ e 1 []) (me e) 4 = 1 ∧
      ((at_ e 1 []).stream (me e)).full 4 = true ∧ ((at_ e 1 [4]).stream (me e)).full 4 = false) := by
  refine ⟨rfl, by decide, by decide, ?_⟩
  intro e he
  fin_cases he <;> exact ⟨rfl, rfl, rfl, by decide +kernel⟩

/-- Two levels with one end, of which the inner one is at its last turn; a branch that leaves both. -/
theorem witness_LoopsOpenAndTurn_nested :
    let l : LoopEnt := ⟨false, 0x100000, 0x100000, 4⟩
    let l2 : LoopEnt := ⟨false, 0xFFFFC, 0x100000, 5⟩
    let s : State := on .x (core0With .x (fun t => { t with loops := [l, l2], regs := [(4, 1), (5, 3)] }))
    let target : Word := BitVec.ofInt 64 ((s.pcOf (me .x)).toNat + 4 * 5)
    let leaves (l : LoopEnt) : Bool := decide (l.start.toNat ≤ (s.pcOf (me .x)).toNat ∧ (s.pcOf (me .x)).toNat ≤ l.stop.toNat ∧
      (target.toNat < l.start.toNat ∨ l.stop.toNat < target.toNat))
    (Acts s (me .x) ∧ (s.stream (me .x)).loops = l :: [l2] ∧ l2.pipelined = false ∧ l2.ctr ≠ 0 ∧ l2.ctr ≠ l.ctr ∧ l2.stop = l.stop ∧
      l2.start.toNat ≤ l2.stop.toNat ∧ Full s (me .x) [l.ctr, l2.ctr] ∧ regOf s (me .x) 4 = 1 ∧ regOf s (me .x) 5 ≠ 1) ∧
      (leaves l = true ∧ leaves l2 = true) ∧
      StaysIn { s.stream (me .x) with loops := [] } target true false :=
  ⟨⟨rfl, rfl, rfl, by decide, by decide, rfl, by decide, full_on rfl, by decide +kernel, by decide +kernel⟩,
    by decide +kernel, by simp [StaysIn]⟩

/-! ## Tokens, mailboxes, joins and barriers -/

/-- Free slots, a full FIFO in both modes, tokens, none, and the value 00. -/
theorem witness_TokensMove :
    let full : Core := { core0 with tokens := [(0, 16)] }
    let fullG : Core := { core0With .a inGauge with tokens := [(0, 16)] }
    let held : Core := { core0 with tokens := [(0, 1), (1, 1), (2, 1), (3, 1), (4, 1), (5, 1)] }
    Acts (on .a core0) (me .a) ∧ Straight (on .a core0) (me .a) 4 ∧
      core0.hasEngines (partners .a 3) = true ∧ core0.fullFifo (giveFifos .a 3) = none ∧
      full.fullFifo (giveFifos .a 1) = some 0 ∧ ((on .a full).stream (me .a)).gauge = false ∧
      fullG.fullFifo (giveFifos .a 1) = some 0 ∧ ((on .a fullG).stream (me .a)).gauge = true ∧
      (∀ n ∈ takeFifos .a 3, 0 < held.token n) ∧ takeBlocked held .a (takeFifos .a 3) = false ∧
      (∃ n ∈ takeFifos .a 1, core0.token n = 0) :=
  ⟨rfl, straight_on rfl, by decide +kernel⟩

theorem witness_MailboxesMove :
    let k : Core := { core0 with mbox := [(2, ⟨9, false, 0, 0⟩)] }
    Acts (on .x k) (me .x) ∧ tfind k.mbox 1 = none ∧ tfind k.mbox 2 = some ⟨9, false, 0, 0⟩ ∧ Straight (on .x k) (me .x) 4 ∧
      Full (on .x k) (me .x) [1, 2] ∧ (regOf (on .x k) (me .x) 3).toNat = 0 ∧ (on .x k).pkgId < 4096 ∧ (tfind k.mbox 2).isSome = true ∧
      (on .a k).core 0 = k ∧ k.a.pend = [] ∧ heldOwn (on .a k) 0 = [] ∧ heldOwn (on .x k) 0 = [] ∧
      behindHeld (on .x k) (me .x) = false ∧ earlierReader k .x [2] = false :=
  ⟨rfl, rfl, rfl, straight_on rfl, full_on rfl, by decide +kernel, by decide, rfl, rfl, rfl, by decide +kernel⟩

/-- A stream that the engine order serves first, an A stream whose load has not come, and one with a store to another package. -/
theorem witness_MailboxesMove_order :
    let first : Core := { core0With .a (fun t => { t with run := .descheduled, wants := [2] }) with mbox := [(2, ⟨9, false, 0, 0⟩)] }
    let pend (op : PendOp) := core0With .a (fun t => { t with pend := [⟨0, op⟩] })
    let load := pend (.load 3 8 false [⟨.local, 0x200000, 8, plainAttr, 0x200000, none⟩] none)
    let store := pend (.store [⟨.remote 1 0, 0x200000, 8, plainAttr, 0x200000, none⟩] [] [])
    earlierReader first .x [2] = true ∧ behindHeld (on .x first) (me .x) = false ∧ load.settledA = false ∧ store.settledA = true ∧
      store.behind ≠ [] ∧ store.outbound.length < 16 := by
  decide +kernel

/-- Places: too wide, outside the grid, another package without and with feature 8, and another core. -/
theorem witness_MailboxesMove_places :
    let p (v : Word) : State := on .x (core0With .x (fun t => { t with regs := [(1, 7), (2, v)] }))
    let P (v : Word) := (regOf (p v) (me .x) 2).toNat
    (2 ^ 24 ≤ P 0x1000000 ∧ Full (p 0x1000000) (me .x) [1, 2]) ∧
    (P 0x820 < 2 ^ 12 ∧ placeCore 0 (P 0x820) = none) ∧
    (2 ^ 12 ≤ P 0x400000 ∧ P 0x400000 < 2 ^ 24 ∧ ({ p 0x400000 with accepted := 0 } : State).accepted.getLsbD 8 = false) ∧
    ((p 0x400000).accepted.getLsbD 8 = true ∧ (placeCore 0 (P 0x400000)).isSome = true ∧
      placePkg (p 0x400000) (P 0x400000) ≠ (p 0x400000).pkgId ∧ ((p 0x400000).peer (placePkg (p 0x400000) (P 0x400000))).up = false) ∧
    (P 1 < 2 ^ 12 ∧ placeCore 0 (P 1) ≠ none ∧ placeCore 0 (P 1) ≠ some 0 ∧ ((p 1).core 0).outbound.length < 16 ∧
      16 ≤ (List.replicate 16 (mailOf (p 1) (me .x) 0 7 0 1 0)).length) := by
  refine ⟨⟨by decide +kernel, full_on rfl⟩, by decide +kernel⟩

/-- Reads: behind a held write of the own A stream, of an empty mailbox, and of a value of an A stream while a load is to be performed. -/
theorem witness_MailboxesMove_reads :
    let held : State := { on .a core0 with
      releases := [.mail { mailOf (on .a core0) (me .a) 3 7 0 0 1 with srcCore := 0, dstCore := 0 }] }
    let load : Core := { core0With .a (fun t => { t with
      pend := [⟨0, .load 3 8 false [⟨.local, 0x200000, 8, plainAttr, 0x200000, none⟩] none⟩] }) with mbox := [(2, ⟨9, true, 0, 0⟩)] }
    behindHeld held (me .a) = true ∧ tfind core0.mbox 1 = none ∧ behindHeld (on .a load) (me .a) = false ∧
      (∃ v, tfind load.mbox 2 = some v ∧ (me .a).eng = .a ∧ v.byA = true ∧ load.doneA = false) ∧
      earlierReader load .a [2] = false ∧ tfind load.mbox 2 = some ⟨9, true, 0, 0⟩ := by
  refine ⟨by decide +kernel, rfl, by decide +kernel, ⟨_, rfl, rfl, rfl, by decide +kernel⟩, by decide +kernel, rfl⟩

/-- Writes to the own core: kept by a value, by another core's held write, and by a held write of its own; free ones of X, of A, and of A
behind a remote store; and an A stream whose load has not come. -/
theorem witness_MailboxesMove_own :
    let s (e : Eng) (k : Core) : State := on e k
    let kept (t : State) (w : Who) (m : Nat) : Prop := (tfind (t.core 0).mbox m).isSome = true ∨ (∃ g ∈ (t.core 0).holding, g.mbox = m) ∨
      m ∈ heldOwn t 0 ∨ (w.eng = .a ∧ heldOwn t 0 ≠ [])
    let pend (op : PendOp) : Core := core0With .a (fun t => { t with pend := [⟨0, op⟩] })
    let remote := pend (.store [⟨.remote 1 0, 0x200000, 8, plainAttr, 0x200000, none⟩] [] [])
    let load := pend (.load 3 8 false [⟨.local, 0x200000, 8, plainAttr, 0x200000, none⟩] none)
    let hold : Core := { core0 with holding := [mailOf (on .a core0) (me .a) 3 7 0 0 0] }
    placeCore 0 0 = some 0 ∧ placePkg (s .a core0) 0 = (s .a core0).pkgId ∧ Full (s .a core0) (me .a) [1, 3] ∧
      (∃ g ∈ ((s .x hold).core 0).holding, g.mbox = 3) ∧ ¬ kept (s .x core0) (me .x) 3 ∧ ¬ kept (s .a core0) (me .a) 3 ∧
      core0.settledA = true ∧ core0.behind = [] ∧ ¬ kept (s .a remote) (me .a) 3 ∧ remote.settledA = true ∧ remote.behind ≠ [] ∧
      load.settledA = false ∧ (regOf (s .a core0) (me .a) 3).toNat = 0 := by
  refine ⟨by decide +kernel, by decide +kernel, full_on rfl, by decide +kernel⟩

/-- Writes to other cores: a place outside the grid of another package, one in another package that is up, and an A stream behind a remote
store. -/
theorem witness_MailboxesMove_other :
    let s : State := { on .a (core0With .a (fun t => { t with
      pend := [⟨0, .store [⟨.remote 1 0, 0x200000, 8, plainAttr, 0x200000, none⟩] [] []⟩] })) with peers := [(1, ⟨true, 0, 0⟩)] }
    (0x1820 < 2 ^ 24 ∧ s.accepted.getLsbD 8 = true ∧ placeCore 0 0x1820 = none) ∧
      (placePkg s 0x1001 = 1 ∧ (s.peer 1).up = true ∧ placeCore 0 0x1001 = some 1 ∧ ¬ (placePkg s 0x1001 = s.pkgId ∧ 1 = 0)) ∧
      (s.core 0).settledA = true ∧ (s.core 0).behind ≠ [] ∧ (s.core 0).outbound.length < 16 ∧ Straight s (me .a) 4 :=
  ⟨by decide +kernel, by decide +kernel, by decide +kernel, by decide +kernel, by decide +kernel, straight_on (k := core0With .a (fun t => { t with
      pend := [⟨0, .store [⟨.remote 1 0, 0x200000, 8, plainAttr, 0x200000, none⟩] [] []⟩] })) rfl⟩

/-- A stream that may not end, one with a buffered store, one that is not the last, the last one; a bad mask, a join that waits and one
that is complete. -/
theorem witness_RendezvousJoins :
    let busy := core0With .a (fun t => { t with pend := [⟨0, .scalar 1 0 0⟩] })
    let last : Core := { core0 with x := { core0.x with run := .ended }, m := { core0.m with run := .ended } }
    let join : Core := { core0 with x := { core0.x with run := .waiting, at_ := .join 3 } }
    mayEnd (on .a busy) (me .a) = false ∧ mayEnd (on .a core0) (me .a) = true ∧
      (let b : Core := { core0 with det := { DetBuf.reset with
          writes := [⟨0, ⟨.local, 0x200000, 1, plainAttr, 0x200000, none⟩, [1], [true]⟩] } };
        mayEnd (on .a b) (me .a) = true ∧ b.det.writes ≠ []) ∧ core0.det.writes = [] ∧
      (∃ e ∈ [Eng.a, .x, .m], e ≠ .a ∧ ((on .a core0).stream ⟨0, e⟩).run ≠ .ended) ∧
      (mayEnd (on .a last) (me .a) = true ∧ last.settled = true ∧
        ∀ e ∈ [Eng.a, .x, .m], e ≠ .a → ((on .a last).stream ⟨0, e⟩).run = .ended) ∧
      badMask (on .a core0) (me .a) 2 = true ∧ badMask (on .a join) (me .a) 3 = false ∧ join.doneA = true ∧
      (∃ e ∈ maskEngines 3, e ≠ .a ∧ ((on .a core0).stream ⟨0, e⟩).at_ ≠ .join 3) ∧
      (∀ e ∈ maskEngines 3, e ≠ .a → ((on .a join).stream ⟨0, e⟩).at_ = .join 3) := by
  decide +kernel

/-- A stream of A whose buffered store has left nothing else to wait for. -/
theorem witness_RendezvousJoins_commit :
    let b : Core := { core0 with det := { DetBuf.reset with
      writes := [⟨0, ⟨.remote 1 0, 0x200000, 1, plainAttr, 0x200000, none⟩, [1], [true]⟩] } }
    let released : State := { on .a b with relActs := [⟨0, 1, [0], 0, 1, none⟩] }
    let busy := core0With .a (fun t => { t with pend := [⟨0, .scalar 1 0 0⟩] })
    endsAtCommit released (me .a) = true ∧ mayEnd (on .a busy) (me .a) = false ∧ endsAtCommit (on .a busy) (me .a) = false := by
  decide +kernel

/-- A barrier while a load of A is to be performed. -/
theorem witness_BarriersArrive_waits :
    let k := (core0With .a (fun t => { inGauge t with
      pend := [⟨0, .load 3 8 false [⟨.local, 0x200000, 8, plainAttr, 0x200000, none⟩] none⟩] }))
    badMask (on .a k) (me .a) 1 = false ∧ k.doneA = false ∧ ((on .a k).stream (me .a)).gauge = true := by
  decide +kernel

theorem witness_BarriersArrive :
    let g := core0With .a inGauge
    let late : State := { on .a g with clock := 8 }
    Acts (on .a core0) (me .a) ∧ badMask (on .a core0) (me .a) 0 = true ∧ badMask (on .a core0) (me .a) 1 = false ∧
      core0.doneA = true ∧ ((on .a core0).stream (me .a)).gauge = false ∧ ((on .a g).stream (me .a)).gauge = true ∧
      Full (on .a g) (me .a) [1] ∧ Full late (me .a) [1] ∧ badMask (on .a g) (me .a) 1 = false ∧ g.doneA = true ∧
      (on .a g).cyc (me .a) ≤ (regOf (on .a g) (me .a) 1).toNat ∧ (regOf late (me .a) 1).toNat < late.cyc (me .a) ∧
      ((late.launchOf 0).bind (fun l => timedOf l 1 (unitOf 1 0) (nextInst late (me .a) 1 1))) = none ∧
      ((on .a g).launchOf 0).isSome = true :=
  ⟨rfl, by decide +kernel, by decide +kernel, by decide +kernel, by decide +kernel, by decide +kernel, full_on rfl, full_on rfl,
    by decide +kernel⟩

/-! ## Special registers, exceptions and waiting -/

/-- User and supervisor mode, the engines, flags that are settled and flags that are still to come. -/
theorem witness_SpecialReads :
    let sup := core0With .a inSuper
    let due := core0With .x (fun t => { t with pend := [⟨0, .scalar 1 0 0x10⟩] })
    CanRun (on .a core0) (me .a) [4] 4 ∧ ((on .a core0).stream (me .a)).super = false ∧
      CanRun (on .a sup) (me .a) [4] 4 ∧ ((on .a sup).stream (me .a)).super = true ∧ CanRun (on .x core0) (me .x) [4] 4 ∧
      flagsSettled (on .x core0) (me .x) = true ∧ CanRun (on .x due) (me .x) [4] 4 ∧ flagsSettled (on .x due) (me .x) = false ∧
      0x006 ∉ [0x000, 0x001, 0x002, 0x003, 0x004, 0x005, 0x010, 0x011, 0x012, 0x013, 0x014, 0x015, 0x020, 0x021, 0x022, 0x028] :=
  ⟨runs_on rfl rfl, by decide, runs_on rfl rfl, by decide, runs_on rfl rfl, by decide +kernel, runs_on rfl rfl, by decide +kernel,
    by decide⟩

/-- The limits of each register: the largest value that it takes and the least that it does not. -/
theorem witness_SpecialWrites :
    let r (e : Eng) (v : Word) : State := on e (core0With e (fun t => { inSuper t with regs := [(1, v)] }))
    CanRun (on .a core0) (me .a) [1] 4 ∧ ((on .a core0).stream (me .a)).super = false ∧
      (∀ v, CanRun (r .x v) (me .x) [1] 4) ∧ (∀ v, CanRun (r .a v) (me .a) [1] 4) ∧ ((r .x 255).stream (me .x)).super = true ∧
      (regOf (r .x 255) (me .x) 1).toNat < 2 ^ 8 ∧ regOf (r .x 0x37) (me .x) 1 &&& 0x37 = regOf (r .x 0x37) (me .x) 1 ∧
      flagsSettled (r .x 0x101FF) (me .x) = true ∧ regOf (r .x 0x101FF) (me .x) 1 &&& 0x101FF = regOf (r .x 0x101FF) (me .x) 1 ∧
      (regOf (r .x 4) (me .x) 1).toNat ≤ 4 ∧ (r .x 3).accepted.getLsbD 6 = true ∧ 4 < (regOf (r .x 5) (me .x) 1).toNat ∧
      (regOf (r .x 31) (me .x) 1).toNat < 32 ∧ 32 ≤ (regOf (r .x 32) (me .x) 1).toNat ∧
      (regOf (r .x 0x1FFFFFFFF) (me .x) 1).toNat < 2 ^ 33 ∧ (regOf (r .x 0xFFFFFFFF) (me .x) 1).toNat < 2 ^ 32 ∧
      (regOf (r .x 7) (me .x) 1).toNat < 2 ^ 3 :=
  ⟨runs_on rfl rfl, by decide, fun _ => runs_on rfl rfl, fun _ => runs_on rfl rfl, by decide +kernel⟩

/-- The least values that are refused, the profiles that need a feature, and flags that are still to come. -/
theorem witness_SpecialWrites_refused :
    let r (e : Eng) (v : Word) : State := on e (core0With e (fun t => { inSuper t with regs := [(1, v)] }))
    let due := core0With .x (fun t => { t with regs := [(1, 1)], pend := [⟨0, .scalar 1 0 0x10⟩] })
    let none6 : State := { r .x 3 with accepted := 0 }
    2 ^ 8 ≤ (regOf (r .a 0x100) (me .a) 1).toNat ∧ regOf (r .a 8) (me .a) 1 &&& 0x37 ≠ regOf (r .a 8) (me .a) 1 ∧
      regOf (r .a 0x200) (me .a) 1 &&& 0x101FF ≠ regOf (r .a 0x200) (me .a) 1 ∧
      (flagsSettled (on .x due) (me .x) = false ∧ regOf (on .x due) (me .x) 1 &&& 0x101FF = regOf (on .x due) (me .x) 1) ∧
      ((regOf none6 (me .x) 1).toNat = 3 ∧ none6.accepted.getLsbD 6 = false) ∧ (regOf (r .x 0) (me .x) 1).toNat = 0 ∧
      2 ^ 33 ≤ (regOf (r .x 0x200000000) (me .x) 1).toNat ∧ 2 ^ 32 ≤ (regOf (r .x 0x100000000) (me .x) 1).toNat ∧
      2 ^ 3 ≤ (regOf (r .x 8) (me .x) 1).toNat ∧ ((on .x core0).stream (me .x)).super = false ∧ ((on .a core0).stream (me .a)).super = false := by
  decide +kernel

theorem witness_ExceptionEntry :
    let s := on .a core0
    let tval : Word := 5
    Acts s (me .a) ∧ (s.stream (me .a)).super = false ∧ (s.stream (me .a)).gauge = false ∧ (s.stream (me .a)).tvec ≠ 0 ∧
      (Instr.trap tval.toNat, 0x60, tval) ∈ [(Instr.trap (tval.toNat), 0x60, tval), (.unassignedMajor (tval.toNat % 2 ^ 32), 0x01,
        BitVec.ofNat 64 (25 * 2 ^ 32 + tval.toNat % 2 ^ 32)), (.instructionFetchFault 0x10 tval, 0x10, tval)] :=
  ⟨rfl, by decide, by decide, by decide, by simp⟩

/-- The entry in gauge mode, whose domain has a cluster; a late cause of a stream that may issue. -/
theorem witness_ExceptionEntry_gauge_late :
    let g := core0With .a inGauge
    let l : Late := ⟨0x24, 5, none, none⟩
    let s : State := { on .a (core0With .a (fun t => { t with late := [l] })) with agenda := [.stream 0 .a] }
    (Acts (on .a g) (me .a) ∧ ((on .a g).stream (me .a)).super = false ∧ ((on .a g).stream (me .a)).tvec ≠ 0 ∧
      ((on .a g).stream (me .a)).gauge = true ∧ 0 ∈ (on .a g).domain 0 0) ∧
      ((beginTurn s).turn = .stream 0 .a ∧ mayIssue (beginTurn s) (me .a) = true ∧ ((beginTurn s).stream (me .a)).super = false ∧
        ((beginTurn s).stream (me .a)).gauge = false ∧ ((beginTurn s).stream (me .a)).tvec ≠ 0 ∧
        ((beginTurn s).stream (me .a)).late = l :: [] ∧ l.cause ≠ 0x40) := by
  refine ⟨⟨rfl, by decide +kernel⟩, by decide +kernel⟩

/-- Supervisor mode, and user mode without a handler. -/
theorem witness_FatalFaults :
    let sup := core0With .a inSuper
    let none_ := core0With .a (fun t => { t with tvec := 0 })
    Acts (on .a sup) (me .a) ∧ ((on .a sup).stream (me .a)).gauge = false ∧ (on .a sup).holds = [] ∧
      ((on .a sup).stream (me .a)).super = true ∧ Acts (on .a none_) (me .a) ∧ ((on .a none_).stream (me .a)).super = false ∧
      ((on .a none_).stream (me .a)).tvec = 0 ∧ ((on .a none_).stream (me .a)).gauge = false ∧ (on .a none_).holds = [] :=
  ⟨rfl, by decide, rfl, by decide, rfl, by decide, by decide, by decide, rfl⟩

theorem witness_ExceptionReturn :
    let sup := core0With .m inSuper
    Acts (on .m sup) (me .m) ∧ ((on .m sup).stream (me .m)).gauge = false ∧ ((on .m sup).stream (me .m)).super = true ∧
      ((on .m sup).stream (me .m)).taken = [] ∧ ((on .m core0).stream (me .m)).super = false :=
  ⟨rfl, by decide, by decide, rfl, by decide⟩

/-- Handlers in gauge mode with no other cause to take and with one, and one that has served the late cause of a transfer and of a
command. -/
theorem witness_ExceptionReturn_gauge_late :
    let k (late taken : List Late) (gauge : Bool) := core0With .a (fun t =>
      { (if gauge then inGauge (inSuper t) else inSuper t) with late := late, taken := taken })
    let l : Late := ⟨0x24, 5, none, none⟩
    let served : Core := k [] [⟨0x10, 0, some 2, none⟩, ⟨0x20, 0, none, some 7⟩] false
    let S (c : Core) := (on .a c).stream (me .a)
    (Acts (on .a (k [] [] true)) (me .a) ∧ (S (k [] [] true)).super = true ∧ (S (k [] [] true)).taken = [] ∧
      (S (k [] [] true)).gauge = true ∧ (S (k [] [] true)).late = []) ∧ (S (k [l] [] true)).late ≠ [] ∧
      ((S served).super = true ∧ (S served).gauge = false ∧ (S served).taken.length = 2) := by
  refine ⟨⟨rfl, by decide +kernel⟩, by decide +kernel⟩

/-- An IDLE whose count has come, and one whose count is still to come. -/
theorem witness_IdleAndCycles :
    let k (n : Nat) := core0With .x (fun t => { t with run := .waiting, at_ := .idle n })
    Acts (on .x core0) (me .x) ∧ (-1 : Int) < 0 ∧ (0 : Int) ≤ 0 ∧ (on .x (k 0)).still 0 = false ∧
      ((on .x (k 0)).stream (me .x)).at_ = .idle 0 ∧ Straight (on .x (k 0)) (me .x) 4 ∧ 0 ≤ (on .x (k 0)).jobCount 0 ∧
      ¬ 1 ≤ (on .x (k 1)).jobCount 0 ∧ CanRun (on .x core0) (me .x) [4] 4 :=
  ⟨rfl, by decide, by decide, by decide +kernel, rfl, straight_on rfl, by decide, by decide +kernel, runs_on rfl rfl⟩

end Sys2Proof.Tests
end

