-- ==== Sys2Proof/Tests/WitnessA.lean ====
section
/-! SUPPORT. States and operands that meet the hypotheses of the statements on the access engine, clause by clause. -/

namespace Sys2Proof.Tests

set_option Elab.async false

open Sys2Proof.Machine

/-- `core0` with the registers of A. -/
def regsA (l : Tbl Word) : Core := core0With .a (fun t => { t with regs := l })

/-- An access of core 0 that is opened as one part of a home, while the part's bytes are in neither buffer. -/
def opensOne (s : State) (acc : Acc) (a : Addr) (n : Nat) (home : Home) : Bool :=
  answers (openAccess s 0 acc a n) (fun r => match r.1 with
    | [g] => g.home == home && g.len == n && !buffers s 0 g && !busyNow (s.core 0) [g] && (badSegs s 0 [g]).isNone &&
      (readBad s g.addr n).isNone
    | _ => false)

theorem of_opensOne {s : State} {acc : Acc} {a : Addr} {n : Nat} {home : Home} (h : opensOne s acc a n home = true) :
    ∃ g s1, openAccess s 0 acc a n = .ok ([g], s1) ∧ g.home = home ∧ g.len = n ∧ buffers s 0 g = false ∧
      busyNow (s.core 0) [g] = false ∧ badSegs s 0 [g] = none ∧ readBad s g.addr n = none := by
  obtain ⟨⟨segs, s1⟩, ho, hp⟩ := of_answers h
  match segs, hp with
  | [g], hp =>
    simp only [Bool.and_eq_true, beq_iff_eq, Bool.not_eq_true', Option.isNone_iff_eq_none] at hp
    obtain ⟨⟨⟨⟨⟨h1, h2⟩, h3⟩, h4⟩, h5⟩, h6⟩ := hp
    exact ⟨g, s1, ho, h1, h2, h3, h4, h5, h6⟩
  | [], hp => cases hp
  | _ :: _ :: _, hp => cases hp

theorem canonical_on {e : Eng} {k : Core} (h : k.tile.wf = true) : Canonical (on e k) :=
  canonical_of (show tables.wf = true by decide +kernel) (by simpa [on] using h) rfl

/-! ## Loads, stores and atomics -/

/-- Refused bases, refused accesses, accesses to memory and to the tile store, a full queue in both modes, and tile-store ends in and
out of range. -/
theorem witness_LoadsIssue :
    let s := on .a core0
    let full : Core := { core0 with q := [(1, List.replicate 8 ⟨0, none⟩)] }
    let fullG : Core := { core0With .a inGauge with q := [(1, List.replicate 8 ⟨0, none⟩)] }
    let above := on .a (regsA [(4, 0x7FE40), (5, 0x300000)])
    Acts s (me .a) ∧ shadow s (me .a) = false ∧ Full s (me .a) (4 :: memRegs (.reg 5) (.imm 0)) ∧
      memAddr s (me .a) (.handle 0) 8 (.imm 0) ≠ .ok (.va 0) ∧
      answers (memAddr s (me .a) (.reg 1) 8 (.imm 0)) (fun a => !answers (openAccess s 0 (syncAcc .read 8) a 8) (fun _ => true)) = true ∧
      (memAddr s (me .a) (.reg 5) 8 (.imm 0) = .ok (.va 0x300000) ∧
        (∃ x, openAccess s 0 (syncAcc .read 8) (.va 0x300000) 8 = .ok x ∧
          (!leavesLate x.2 0 (.load 4 8 true x.1 none)) = true)) ∧
      (∃ x, openAccess s 0 (syncAcc .read 4) (.va 0x300000) 512 = .ok x ∧
        (!leavesLate x.2 0 (.entry 1 0 x.1 none 0 0)) = true) ∧
      (8 ≤ (((on .a full).core 0).qOf 1).length ∧ ((on .a full).stream (me .a)).gauge = false) ∧
      (8 ≤ (((on .a fullG).core 0).qOf 1).length ∧ ((on .a fullG).stream (me .a)).gauge = true) ∧
      ((s.core 0).qOf 1).length < 8 ∧ Straight s (me .a) 4 ∧
      (0x7FFFF < (regOf above (me .a) 4).toNat + 511 ∧ Full above (me .a) (4 :: memRegs (.reg 5) (.imm 0))) ∧
      ((regOf s (me .a) 6).toNat + 511 ≤ 0x7FFFF ∧ (regOf s (me .a) 6).toNat % 64 = 0 ∧
        (∀ n ∈ tilesOf (regOf s (me .a) 6).toNat 512, n ∉ (s.core 0).ownM) ∧
        ∃ x, openAccess s 0 (syncAcc .read 64) (.va 0x300000) 512 = .ok x ∧ (!leavesLate x.2 0 (.toTile 0x1000 x.1)) = true) :=
  ⟨rfl, by decide +kernel, full_on rfl, by decide +kernel, by decide +kernel, ⟨by decide +kernel, of_answers (by decide +kernel)⟩,
    of_answers (by decide +kernel), by decide +kernel, by decide +kernel, by decide +kernel, straight_on rfl,
    ⟨by decide +kernel, full_on rfl⟩, ⟨by decide +kernel, by decide +kernel, by decide +kernel, of_answers (by decide +kernel)⟩⟩

/-- A part of local memory that core 0 reads, and core 0 with one pending access. -/
def part (a n : Nat) : Seg := ⟨.local, a, n, plainAttr, a, none⟩
def pending (op : PendOp) : Core := { core0 with a := { core0.a with pend := [⟨3, op⟩], empty := [4] } }

/-- What a gather answers. -/
def got (g : Got) (p : List Byte → State → Bool) : Bool :=
  match g with
  | .ok l s => p l s
  | _ => false

theorem of_got {g : Got} {p : List Byte → State → Bool} (h : got g p = true) : ∃ l s, g = .ok l s ∧ p l s = true := by
  cases g with
  | ok l s => exact ⟨l, s, rfl, h⟩
  | _ => cases h

def isBad (g : Got) : Bool :=
  match g with
  | .bad _ _ => true
  | _ => false

theorem of_isBad {g : Got} (h : isBad g = true) : ∃ cause tv, g = .bad cause tv := by
  cases g with
  | bad c t => exact ⟨c, t, rfl⟩
  | _ => cases h

theorem witness_LoadsLand :
    let load : PendOp := .load 4 8 true [part 0x300000 8] none
    let entry : PendOp := .entry 1 0 [part 0x300000 512] none 0 0
    let kept : PendOp := .entry 1 0 [part 0x300000 512] (some (.bytes 7)) 0 0
    let tile : PendOp := .toTile 0x1000 [part 0x300000 512]
    let bad : State := { on .a (pending entry) with badMem := [0x300000], tags := [(0x300000, 0)] }
    (∀ op ∈ [load, entry, kept, tile], (on .a (pending op)).still 0 = false ∧ (pending op).allEnded = false ∧
      Canonical (on .a (pending op)) ∧ (pending op).a.pend[0]? = some ⟨3, op⟩ ∧ heldBack ((pending op).a.pend.take 0) op = false) ∧
    (∃ l s, gather 0 (.pend 0 3) [part 0x300000 8] (on .a (pending load)) = .ok l s ∧ true = true) ∧
    (buffers (on .a (pending load)) 0 (part 0x300000 8) = false ∧ readBad (on .a (pending load)) 0x300000 8 = none) ∧
    (∃ l s, gather 0 (.pend 0 3) [part 0x300000 512] (on .a (pending entry)) = .ok l s ∧ decide (l.length = 512) = true) ∧
    (∃ l s, gather 0 (.pend 0 3) [part 0x300000 512] (on .a (pending tile)) = .ok l s ∧ decide (l.length = 512) = true) ∧
    (∃ cause tv, gather 0 (.pend 0 3) [part 0x300000 512] bad = .bad cause tv) := by
  refine ⟨?_, of_got (by decide +kernel), by decide +kernel, of_got (by decide +kernel), of_got (by decide +kernel), of_isBad (by decide +kernel)⟩
  intro op h
  fin_cases h <;> exact ⟨rfl, rfl, canonical_on rfl, rfl, rfl⟩

/-- Stores to the tile store and to memory, a refused one, a w queue that is empty, one whose entry has no byte, and one with bytes. -/
theorem witness_StoresIssue :
    let s := on .a core0
    let none_ : Core := { core0 with w := [(1, [⟨0, some (5, 0)⟩])] }
    let some_ : Core := { core0 with w := [(1, [⟨0, some (5, 3)⟩])] }
    Canonical s ∧ Acts s (me .a) ∧ shadow s (me .a) = false ∧ Full s (me .a) (2 :: memRegs (.reg 5) (.imm 0)) ∧ Straight s (me .a) 4 ∧
      memAddr s (me .a) (.reg 6) 8 (.imm 0) = .ok (.va 0x1000) ∧
      (∃ g s1, openAccess s 0 (syncAcc .write 8) (.va 0x1000) 8 = .ok ([g], s1) ∧ g.home = .tile ∧ g.len = 8 ∧ buffers s 0 g = false ∧
        busyNow (s.core 0) [g] = false ∧ badSegs s 0 [g] = none ∧ readBad s g.addr 8 = none) ∧
      (∃ g s1, openAccess s 0 (syncAcc .write 8) (.va 0x300000) 8 = .ok ([g], s1) ∧ g.home = .local ∧ g.len = 8 ∧
        buffers s 0 g = false ∧ busyNow (s.core 0) [g] = false ∧ badSegs s 0 [g] = none ∧ readBad s g.addr 8 = none) ∧
      answers (openAccess s 0 (syncAcc .write 8) (.va 7) 8) (fun _ => true) = false ∧ (s.core 0).wPresent 1 = 0 ∧
      ((on .a none_).core 0).wOf 1 = [⟨0, some (5, 0)⟩] ∧ ((on .a some_).core 0).wOf 1 = [⟨0, some (5, 3)⟩] ∧ (3 : Pred) ≠ 0 ∧
      (∃ g s1, openAccess (on .a some_) 0 (storeAcc 4 (boolsOfPred 3)) (.va 0x300000) 512 = .ok ([g], s1) ∧
        g.home = .local ∧ g.len = 512 ∧ buffers (on .a some_) 0 g = false ∧ busyNow ((on .a some_).core 0) [g] = false ∧
        badSegs (on .a some_) 0 [g] = none ∧ readBad (on .a some_) g.addr 512 = none) ∧
      answers (openAccess (on .a some_) 0 (storeAcc 4 (boolsOfPred 3)) (.va 0x300002) 512) (fun _ => true) = false ∧
      (∃ g s1, openAccess s 0 (syncAcc .write 64) (.va 0x300000) 512 = .ok ([g], s1) ∧ g.home = .local ∧ g.len = 512 ∧
        buffers s 0 g = false ∧ busyNow (s.core 0) [g] = false ∧ badSegs s 0 [g] = none ∧ readBad s g.addr 512 = none) ∧
      core0.badTile = [] ∧ core0.a.pend = [] :=
  ⟨canonical_on rfl, rfl, by decide +kernel, full_on rfl, straight_on rfl, by decide +kernel, of_opensOne (by decide +kernel),
    of_opensOne (by decide +kernel), by decide +kernel, by decide +kernel, by decide +kernel, by decide +kernel, by decide +kernel,
    of_opensOne (by decide +kernel), by decide +kernel, of_opensOne (by decide +kernel), rfl, rfl⟩

theorem witness_StoresPerform :
    let op : PendOp := .store [part 0x300000 8] (List.replicate 8 7) (List.replicate 8 true)
    let s := on .a (pending op)
    Canonical s ∧ s.still 0 = false ∧ (pending op).allEnded = false ∧ (pending op).a.pend[0]? = some ⟨3, op⟩ ∧
      heldBack ((pending op).a.pend.take 0) op = false ∧ buffers s 0 (part 0x300000 8) = false ∧ s.relActs = [] ∧
      (∀ r ∈ s.requests, r.owner ≠ .pend 0 3) :=
  ⟨canonical_on rfl, by decide +kernel, by decide +kernel, rfl, by decide +kernel, by decide +kernel, rfl, by decide +kernel⟩

/-- Atomics on the tile store, on memory, refused, and pending. -/
theorem witness_AtomicsPerform :
    let s := on .a (regsA [(1, 0x1000), (2, 3), (5, 0x300000)])
    let acc : Acc := ⟨.write, 8, true, false, true, .store, []⟩
    let op : PendOp := .amo 4 (.rmw 1 5) true false false [part 0x300000 8] 0
    Canonical s ∧ Acts s (me .a) ∧ Full s (me .a) [4, 1, 2] ∧ Straight s (me .a) 4 ∧
      (∃ g s1, openAccess s 0 acc (.va (regOf s (me .a) 1).toNat) 8 = .ok ([g], s1) ∧ g.home = .tile ∧ g.len = 8 ∧ buffers s 0 g = false ∧
        busyNow (s.core 0) [g] = false ∧ badSegs s 0 [g] = none ∧ readBad s g.addr 8 = none) ∧
      (∃ g s1, openAccess s 0 acc (.va (regOf s (me .a) 5).toNat) 8 = .ok ([g], s1) ∧ g.home = .local ∧ g.len = 8 ∧
        buffers s 0 g = false ∧ busyNow (s.core 0) [g] = false ∧ badSegs s 0 [g] = none ∧ readBad s g.addr 8 = none) ∧
      answers (openAccess s 0 acc (.va (regOf s (me .a) 2).toNat) 8) (fun _ => true) = false ∧
      ((on .a (pending op)).still 0 = false ∧ (pending op).allEnded = false ∧ (pending op).a.pend[0]? = some ⟨3, op⟩ ∧
        heldBack ((pending op).a.pend.take 0) op = false ∧ buffers (on .a (pending op)) 0 (part 0x300000 8) = false ∧
        readBad (on .a (pending op)) 0x300000 8 = none ∧ (on .a (pending op)).relActs = []) :=
  ⟨canonical_on rfl, rfl, full_on rfl, straight_on rfl, of_opensOne (by decide +kernel), of_opensOne (by decide +kernel),
    by decide +kernel, by decide +kernel⟩

/-- Accesses to a race page of a context whose race detector is on: loads to the tile store, stores and atomics that nothing holds
back. -/
theorem witness_LoadsIssue_race :
    let leaf := placeLeaf 0 + 2 ^ 7
    let s : State := { on .a core0 with
      mem := writeBytes (writeBytes [] placeRoot (bytesOf 8 placeNext)) placeTable (bytesOf 8 leaf),
      ctxs := [(0, ⟨true, [0x2400, BitVec.ofNat 64 placeRoot], [], 0⟩)] }
    Canonical s ∧ Acts s (me .a) ∧ shadow s (me .a) = false ∧ core0.a.pend = [] ∧ core0.tile.wf = true ∧
      (∃ x, openAccess s 0 (syncAcc .read 64) (.va 0x300000) 512 = .ok x ∧
        (x.1.any (fun g => detects x.2 0 g) && x.1.all (fun g => !g.isRemote) && (badSegs x.2 0 x.1).isNone &&
          (readSegs x.2 0 x.1).1.length == 512 && !leavesLate x.2 0 (.toTile 0x1000 x.1)) = true) ∧
      (∃ x, openAccess s 0 (syncAcc .write 8) (.va 0x300000) 8 = .ok x ∧
        (match x.1 with
          | [g] => detects s 0 g && g.len == 8 && g.home == .local && !heldBack [] (.store [g] [] [])
          | _ => false) = true) ∧
      (∃ x, openAccess s 0 ⟨.write, 8, true, false, true, .store, []⟩ (.va 0x300000) 8 = .ok x ∧
        (match x.1 with
          | [g] => detects s 0 g && g.home == .local && !buffers s 0 g && !heldBack [] (.amo 4 (.rmw 1 3) true false false [g] 0)
          | _ => false) = true) :=
  ⟨canonical_of (by decide +kernel) rfl rfl, rfl, by decide +kernel, rfl, rfl, of_answers (by decide +kernel),
    of_answers (by decide +kernel), of_answers (by decide +kernel)⟩

end Sys2Proof.Tests
end

