-- ==== Sys2Proof/Tests/WitnessA2.lean ====
section
/-! SUPPORT. States and operands that meet the hypotheses of the statements on fences, passes, translation, queues, tables, contexts,
transfers, the directory and launch records, clause by clause. -/

namespace Sys2Proof.Tests

set_option Elab.async false

open Sys2Proof.Machine

/-! ## Fences, passes and translation -/

/-- Accesses and transfers under way and none; the stack limit; ranges of tiles of both owners, also partly, and out of range. -/
theorem witness_FencesAndPasses :
    let busy := pending (.scalar 4 0 0)
    let load := pending (.load 4 8 true [part 0x300000 8] none)
    let moving : Core := { core0 with as := { core0.as with
      xfers := [(0, ⟨.cpgo (.va 0) (.va 0) 1 .b8 .b8 .rne 0 0 [], 0, false, 0, 0, 0, 0, [], [], 0, [], [], [], 0, 0⟩)] } }
    let r (t sp : Word) := regsA [(1, t), (30, sp)]
    let low : Core := { r 0 0x1000 with as := { core0.as with slim := 0x1001 } }
    let mine : Core := { r 126 0x1000 with ownM := [126, 127] }
    let half : Core := { r 126 0x1000 with ownM := [126] }
    let sp (k : Core) : Word := BitVec.ofInt 64 ((regOf (on .a k) (me .a) 30).toNat + 16 * 0)
    Acts (on .a core0) (me .a) ∧ Straight (on .a core0) (me .a) 4 ∧ Full (on .a core0) (me .a) [1, 30] ∧
      (core0.doneA = true ∧ core0.as.xfers = []) ∧ busy.doneA = true ∧ load.doneA = false ∧ moving.as.xfers ≠ [] ∧
      (sp low).toNat < low.as.slim.toNat ∧ (r 0 0x1000).as.slim.toNat ≤ (sp (r 0 0x1000)).toNat ∧
      128 < (regOf (on .a (r 127 0)) (me .a) 1).toNat + 2 ∧ (regOf (on .a (r 126 0)) (me .a) 1).toNat + 2 ≤ 128 ∧
      (∀ i, 126 ≤ i → i < 128 → i ∈ mine.ownM) ∧ (127 ∉ half.ownM ∧ ∀ j, 126 ≤ j → j < 127 → j ∈ half.ownM) ∧
      (126 ∈ half.ownM ∧ ∀ j, 126 ≤ j → j < 126 → j ∉ half.ownM) ∧
      (core0.hasEngines [.m] = true ∧ core0.fullFifo [1] = none ∧ core0.a.pend = [] ∧ ∀ i, 126 ≤ i → i < 128 → i ∉ core0.ownM) ∧
      ({ core0 with job := some ⟨0, 0, 0, 0, 0, false, [.a], []⟩ } : Core).hasEngines [.m] = false := by
  refine ⟨rfl, straight_on rfl, full_on rfl, by decide +kernel, by decide +kernel, by decide +kernel, by decide +kernel,
    by decide +kernel, by decide +kernel, by decide +kernel, by decide +kernel, ?_, ⟨by decide, ?_⟩, ⟨by decide, ?_⟩,
    ⟨by decide +kernel, by decide +kernel, rfl, ?_⟩, by decide +kernel⟩
  · intro i h1 h2
    show i ∈ [126, 127]
    simp; omega
  · intro j h1 h2
    show j ∈ [126]
    simp; omega
  · intro j h1 h2
    omega
  · intro i _ _
    show i ∉ ([] : List Nat)
    simp

/-- Which parties a FENCE has: its own transfers at every scope, everything from package scope; nobody at cluster scope where only
this core has a job. A full am FIFO, in both modes. -/
theorem witness_FencesAndPasses_parties :
    let load := pending (.load 4 8 true [part 0x300000 8] none)
    let moving : Core := { load with as := { load.as with
      xfers := [(0, ⟨.cpgo (.va 0) (.va 0) 1 .b8 .b8 .rne 0 0 [], 0, false, 0, 0, 0, 0, [], [], 0, [], [], [], 0, 0⟩)] } }
    let full : Core := { regsA [(1, 126)] with tokens := [(1, 16)] }
    let fullG : Core := { full with a := inGauge full.a }
    (hasParty (on .a load) 0 1 = false ∧ load.doneA = false ∧ load.as.xfers = []) ∧
      (hasParty (on .a load) 0 4 = true ∧ hasParty (on .a moving) 0 1 = true ∧ moving.doneA = false) ∧
      (Acts (on .a full) (me .a) ∧ Straight (on .a full) (me .a) 4 ∧ Full (on .a full) (me .a) [1, 30] ∧ full.hasEngines [.m] = true ∧
        (regOf (on .a full) (me .a) 1).toNat = 126 ∧ full.ownM = [] ∧ full.fullFifo [1] ≠ none ∧
        ((on .a full).stream (me .a)).gauge = false) ∧
      (Acts (on .a fullG) (me .a) ∧ Full (on .a fullG) (me .a) [1, 30] ∧ fullG.ownM = [] ∧ fullG.fullFifo [1] ≠ none ∧
        ((on .a fullG).stream (me .a)).gauge = true) :=
  ⟨by decide +kernel, by decide +kernel, ⟨rfl, straight_on rfl, full_on rfl, by decide +kernel, by decide +kernel, rfl, by decide +kernel,
    by decide +kernel⟩, ⟨rfl, full_on rfl, rfl, by decide +kernel, by decide +kernel⟩⟩

/-- A FENCE of fabric scope finds a remote store that is still buffered. -/
theorem witness_FencesAndPasses_buffered :
    let far : DetWrite := ⟨7, ⟨.remote 1 0, 0x300000, 1, plainAttr, 0, none⟩, [1], [true]⟩
    let k : Core := { core0 with det := { core0.det with writes := [far] } }
    Acts (on .a k) (me .a) ∧ Straight (on .a k) (me .a) 4 ∧ k.doneA = true ∧ k.as.xfers = [] ∧ k.det.away ≠ [] := by
  refine ⟨rfl, straight_on rfl, by decide +kernel, by decide +kernel, by decide +kernel⟩

theorem witness_FencesAndPasses_flip :
    let k := core0With .a (fun t => { t with run := .waiting, at_ := .pass 126 2 })
    (on .a k).still 0 = false ∧ ((on .a k).stream (me .a)).at_ = .pass 126 2 ∧ Straight (on .a k) (me .a) 4 :=
  ⟨by decide +kernel, rfl, straight_on rfl⟩

/-- What a walk answers. -/
def walks (s : State) (ctx va : Nat) : Bool := answers (walk s ctx va) (fun _ => true)

theorem of_walks {s : State} {ctx va : Nat} (h : walks s ctx va = true) : ∃ tr, walk s ctx va = .ok tr := by
  obtain ⟨tr, ht, -⟩ := of_answers h
  exact ⟨tr, ht⟩

theorem of_not_walks {s : State} {ctx va : Nat} (h : walks s ctx va = false) : ∃ cause, walk s ctx va = .error cause := by
  cases hw : walk s ctx va with
  | ok tr => simp [walks, answers, hw] at h
  | error cause => exact ⟨cause, rfl⟩

/-- Probes of the tile store, of an address that is not canonical, of a mapped page and of one that is not mapped; TLBINV in both
modes and at its act; walks of a cluster that the context uses and of one that it does not. -/
theorem witness_TranslationForms :
    let s := on .a (regsA [(1, 0x7FFFF), (2, 0x100000000000000), (3, 0x300000), (5, 0x80000000000)])
    let sup := on .a (core0With .a inSuper)
    let act := on .a (core0With .a (fun t => { t with run := .waiting, at_ := .tlbinv 3 0 }))
    CanRun s (me .a) [1, 4] 4 ∧ (regOf s (me .a) 1).toNat < tileBytes ∧ canonical (regOf s (me .a) 2).toNat = false ∧
      (tileBytes ≤ (regOf s (me .a) 3).toNat ∧ canonical (regOf s (me .a) 3).toNat = true ∧
        windowOf s 0 (regOf s (me .a) 3).toNat 1 = none ∧ (s.cluster 0).tlb = [] ∧ (s.core 0).gtlb = [] ∧
        (s.core 0).as.curPage = [] ∧ (s.core 0).as.nextPage = []) ∧
      (∃ tr, walk s 0 ((regOf s (me .a) 3).toNat % 2 ^ 57) = .ok tr) ∧
      (canonical (regOf s (me .a) 5).toNat = true ∧ windowOf s 0 (regOf s (me .a) 5).toNat 1 = none ∧
        ∃ cause, walk s 0 ((regOf s (me .a) 5).toNat % 2 ^ 57) = .error cause) ∧
      (Acts s (me .a) ∧ (s.stream (me .a)).super = false) ∧
      (Acts sup (me .a) ∧ (sup.stream (me .a)).super = true ∧ (sup.stream (me .a)).gauge = false ∧ Full sup (me .a) [1]) ∧
      (act.still 0 = false ∧ (act.stream (me .a)).at_ = .tlbinv 3 0 ∧ Straight act (me .a) 4) ∧
      usesCluster s 0 0 = true ∧ usesCluster s 1 0 = false :=
  ⟨runs_on rfl rfl, by decide +kernel, by decide +kernel, by decide +kernel, of_walks (by decide +kernel),
    ⟨by decide +kernel, by decide +kernel, of_not_walks (by decide +kernel)⟩, ⟨rfl, by decide +kernel⟩,
    ⟨rfl, by decide +kernel, by decide +kernel, full_on rfl⟩, ⟨by decide +kernel, rfl, straight_on rfl⟩, by decide +kernel, by decide +kernel⟩

/-- The cluster holds the translation of a package that has been restarted since; the core's access uses no other. -/
theorem witness_TranslationForms_stale :
    let old : Trans := ⟨0, 0, 2, 1, 0, 3, plainAttr⟩
    let s : State := { on .a core0 with clusters := [(0, { (on .a core0).cluster 0 with tlb := [old] })], peers := [(1, ⟨true, 4, 0⟩)] }
    cachedFor s 0 (s.core 0).ctx (0x300000 % 2 ^ 57) = some old ∧ old.pkg ≠ s.pkgId ∧ (s.peer old.pkg).inc ≠ old.inc := by
  decide +kernel

/-- A queue one step before the end of its page, far from it, and with D = 0. -/
theorem witness_TranslationForms_next :
    let cur : Trans := ⟨0, 0, 2, 0, 0, 0, plainAttr⟩
    let k (va d : Nat) : Core := { core0 with as := { core0.as with curPage := [(1, cur)], qva := [(1, va)], hint := [(1, d)] } }
    let stop := cur.page + 2 ^ pageShift cur.size
    (on .a (k 0 8)).still 0 = false ∧ tfind (k 0 8).as.curPage 1 = some cur ∧ 8 * 512 < stop - tget (k 0 8).as.qva 1 0 ∧
      tget (k 0 0).as.hint 1 8 = 0 ∧ stop - tget (k (stop - 4096) 8).as.qva 1 0 ≤ 8 * 512 ∧ stop < 2 ^ 57 := by
  decide +kernel

/-- With the table of the second 64 GiB mapped as well, the next page has a translation. -/
theorem witness_TranslationForms_nextPage :
    let cur : Trans := ⟨0, 0, 2, 0, 0, 0, plainAttr⟩
    let k : Core := { core0 with as := { core0.as with curPage := [(1, cur)], qva := [(1, 2 ^ 36 - 4096)], hint := [(1, 8)] } }
    let s : State := { on .a k with mem := writeBytes tables (placeTable + 8) (bytesOf 8 (placeLeaf 0)) }
    ∃ tr, translate s 0 0 (cur.page + 2 ^ pageShift cur.size) 0 = .ok tr ∧ true = true :=
  of_answers (by decide +kernel)

/-! ## Queues, tables and contexts -/

/-- Whether nothing stops a long form of A on core 0. -/
def aFree (k : Core) (c : ACtl) : Bool :=
  k.hasEngines (partners .a c.take) && k.hasEngines (partners .a c.give) && k.hasTokens (takeFifos .a c.take) &&
    k.fullFifo (giveFifos .a (c.give % 4)) == none

theorem aReady_of {s : State} {k : Core} {c : ACtl} {regs : List Nat} (ht : s.turn = .stream 0 .a) (hk : s.core 0 = k)
    (h : aFree k c = true) (he : k.a.empty = []) (hl : k.a.loops = []) : AReady s (me .a) c regs := by
  have hs : s.stream (me .a) = k.a := by simp [State.stream, me, Core.stream, hk]
  simp only [aFree, Bool.and_eq_true, beq_iff_eq] at h
  obtain ⟨⟨⟨h1, h2⟩, h3⟩, h4⟩ := h
  refine ⟨ht, rfl, fun n _ => ?_, ?_, ?_, ?_, ?_, ?_⟩
  · rw [hs]; simp [Stream.full, he]
  · exact hk ▸ h1
  · exact hk ▸ h2
  · exact hk ▸ h3
  · exact hk ▸ h4
  · unfold Straight StaysIn; rw [hs]; simp [hl]

theorem aReady_on {k : Core} {c : ACtl} {regs : List Nat} (h : aFree k c = true) (he : k.a.empty = []) (hl : k.a.loops = []) :
    AReady (on .a k) (me .a) c regs := aReady_of rfl rfl h he hl

def plainA : ACtl := ⟨.np0, 0, 0⟩
def syncedA : ACtl := ⟨.np0, 1, 1⟩

/-- A number of bytes of parts. -/
def opensAll (s : State) (acc : Acc) (n : Nat) (l : List Addr) (p : List (List Seg) × State → Bool) : Bool :=
  answers (openAll 0 acc n l s) p

theorem here_of {l : List Seg} (h : l.all (fun g => !g.isRemote) = true) : Here l := by
  intro g hg
  simpa using List.all_eq_true.1 h g hg

/-- Nothing older is pending, so no access waits as it leaves. -/
theorem leaves_of {s : State} {c : Nat} {op : PendOp} (h : (s.core c).a.pend = []) : leavesLate s c op = false := by
  simp [leavesLate, h, heldBack]

/-- Counts 0, 1, the largest and one beyond; a queue with room and one without, in both modes; elements that are refused. -/
theorem witness_QueueForms_LDQS :
    let r (n st : Word) : Core := { regsA [(1, n), (2, st), (5, 0x300000)] with tokens := [(0, 1), (1, 1), (2, 1), (3, 1), (4, 1), (5, 1)] }
    let full : Core := { r 1 8 with q := [(1, List.replicate 8 ⟨0, none⟩)] }
    let fullG : Core := { full with a := inGauge full.a }
    let s0 (k : Core) := (on .a k).tookA (me .a) syncedA
    (∀ n st, AReady (on .a (r n st)) (me .a) syncedA (baseRegs (.reg 5) ++ [1, 2, 3])) ∧
      AReady (on .a full) (me .a) syncedA (baseRegs (.reg 5) ++ [1, 2, 3]) ∧
      AReady (on .a fullG) (me .a) syncedA (baseRegs (.reg 5) ++ [1, 2, 3]) ∧
      (regOf (on .a (r 0 8)) (me .a) 1).toNat = 0 ∧ 4096 / Ty.z64.width < (regOf (on .a (r 513 8)) (me .a) 1).toNat ∧
      (0 < (regOf (on .a (r 512 8)) (me .a) 1).toNat ∧ (regOf (on .a (r 512 8)) (me .a) 1).toNat ≤ 4096 / Ty.z64.width ∧
        ((r 512 8).qOf 1).length + entriesFor 512 8 ≤ 8) ∧
      8 < (full.qOf 1).length + entriesFor 1 8 ∧ ((on .a full).stream (me .a)).gauge = false ∧
      ((on .a fullG).stream (me .a)).gauge = true ∧ answers (baseAddr (on .a (r 3 8)) (me .a) (.reg 5)) (fun b => b == .va 0x300000) = true ∧
      (∃ x, openAll 0 (syncAcc .read 8) 8 [.va 0x300000, .va 0x300008, .va 0x300010] (s0 (r 3 8)) = .ok x ∧
        x.1.flatten.all (fun g => !g.isRemote) = true) ∧ (∀ op, leavesLate (on .a (r 3 8)) 0 op = false) ∧
      answers (openAll 0 (syncAcc .read 8) 8 [.va 0x300000, .va 0x300001] (s0 (r 2 1))) (fun _ => true) = false :=
  ⟨fun _ _ => aReady_on rfl rfl rfl, aReady_on rfl rfl rfl, aReady_on rfl rfl rfl, by decide +kernel, by decide +kernel, by decide +kernel,
    by decide +kernel, by decide +kernel, by decide +kernel, by decide +kernel, of_answers (by decide +kernel), fun _ => leaves_of rfl, by decide +kernel⟩

/-- Index lists of counts 0, 1, the largest, and beyond; one of memory with two indices, and the elements that it names, read and stored. -/
theorem witness_QueueForms_indexed :
    let r (n : Word) : Core := { regsA [(1, 0x400000), (2, n), (5, 0x300000)] with w := [(1, [⟨0, some (5, 0xFFFF)⟩])] }
    let s : State := { on .a (r 2) with mem := writeBytes tables 0x400000 (bytesOf 8 (3 * 2 ^ 32 + 1)) }
    let o1 := okOf ([], s) (openAccess s 0 (syncAcc .read 4) (.va (regOf s (me .a) 1).toNat) (4 * 2))
    let g := gather 0 (.instr 0 .a) o1.1 o1.2
    let s3 := dropReqs (gotS s g) (.instr 0 .a)
    let idx := indices (gotL g) 2
    let addrs := idx.map (fun x => (Addr.va 0x300000).plus (x * 8))
    let o2 := okOf ([], s) (openAll 0 (syncAcc .read 8) 8 addrs s3)
    let ents := (wHead (r 2) 1 (entriesFor 2 8)).getD []
    let elems := scatElems 8 ents idx
    let targets := (elems.map (fun e => (Addr.va 0x300000).plus (e.1 * 8))).zip (elems.map (fun e => e.2.2))
    let o3 := okOf ([], s) (openElems 0 (syncAcc .write 8) 8 targets s3)
    AReady s (me .a) plainA (baseRegs (.reg 5) ++ [1, 2, 3]) ∧
      ((regOf (on .a (r 0)) (me .a) 2).toNat = 0 ∧ 4096 / Ty.z64.width < (regOf (on .a (r 513)) (me .a) 2).toNat) ∧
      (0 < (regOf s (me .a) 2).toNat ∧ (regOf s (me .a) 2).toNat ≤ 4096 / Ty.z64.width) ∧
      answers (baseAddr s (me .a) (.reg 5)) (fun b => b == .va 0x300000) = true ∧
      openAccess s 0 (syncAcc .read 4) (.va (regOf s (me .a) 1).toNat) (4 * 2) = .ok (o1.1, o1.2) ∧ tileOnly s (me .a) o1.1 = none ∧
      Here o1.1 ∧ heldBack (r 2).a.pend (.load 0 4 false o1.1 none) = false ∧ (∀ op, leavesLate s 0 op = false) ∧ g = .ok (gotL g) (gotS s g) ∧ idx = [1, 3] ∧
      openAll 0 (syncAcc .read 8) 8 addrs s3 = .ok (o2.1, o2.2) ∧ tileOnly s (me .a) o2.1.flatten = none ∧ Here o2.1.flatten ∧
      wHead (r 2) 1 (entriesFor 2 8) = some ents ∧
      openElems 0 (syncAcc .write 8) 8 targets s3 = .ok (o3.1, o3.2) ∧
      shadow s (me .a) = false ∧ tileOnly s (me .a) o3.1.flatten = none ∧
      (∀ g ∈ o3.1.flatten, g.home = .local ∧ buffers s 0 g = false ∧ detects s 0 g = false) ∧ o3.1.flatten ≠ [] ∧ wHead core0 1 (entriesFor 2 8) = none :=
  ⟨aReady_of rfl rfl rfl rfl rfl, by decide +kernel, by decide +kernel, by decide +kernel, okOf_eq (by decide +kernel), by decide +kernel,
    here_of (by decide +kernel), rfl, fun _ => leaves_of rfl, got_eq (by decide +kernel), by decide +kernel, okOf_eq (by decide +kernel),
    by decide +kernel, here_of (by decide +kernel), by decide +kernel, okOf_eq (by decide +kernel), by decide +kernel⟩

/-- The third index of a list names an element that is refused, and a count of levels at its limit. -/
theorem witness_QueueForms_refused :
    let r (n : Word) := regsA [(1, 0x400000), (2, 2), (5, 0x300001), (3, n)]
    let s : State := { on .a (r 0) with mem := writeBytes tables 0x400000 (bytesOf 8 (3 * 2 ^ 32 + 1)) }
    answers (openAll 0 (syncAcc .read 8) 8 [(Addr.va 0x300001).plus (1 * 8)] s) (fun _ => true) = false ∧
      2 ^ 32 ≤ (regOf (on .a (r 0x100000000)) (me .a) 3).toNat ∧ (regOf (on .a (r 0xFFFFFFFF)) (me .a) 3).toNat < 2 ^ 32 := by
  decide +kernel

/-- A table that is refused, one whose bank a DECQ uses, and one that is read; DECLD at its act with bytes that can and cannot be read. -/
theorem witness_TablesAndContexts_DECLD :
    let use (g : Nat) : Transfer := ⟨.decode 1 [] (.va 0) 1 1 .s8 false g, 0, false, 0, 0, 0, 0, [], [], 0, [], [], [], 0, 0⟩
    let banks : Tbl Bank := [(0, ⟨1, 8, []⟩), (1, ⟨2, 8, []⟩)]
    let r := regsA [(1, 0x300000), (2, 0x300004)]
    let used : Core := { r with as := { r.as with banks := banks, xfers := [(0, use 1)] } }
    let s := on .a r
    let o := okOf ([], s) (openAccess s 0 (syncAcc .read 8) (.va (regOf s (me .a) 1).toNat) 2048)
    let k := core0With .a (fun t => { t with run := .waiting, at_ := .decld 4 0 8 [part 0x300000 2048] })
    let g := gather 0 (.instr 0 .a) [part 0x300000 2048] (on .a k)
    let bad : State := { on .a k with badMem := [0x300000], tags := [(0x300000, 0)] }
    Acts s (me .a) ∧ Full s (me .a) [1] ∧ Full s (me .a) [2] ∧
      answers (openAccess s 0 (syncAcc .read 8) (.va (regOf s (me .a) 2).toNat) 2048) (fun _ => true) = false ∧
      openAccess s 0 (syncAcc .read 8) (.va (regOf s (me .a) 1).toNat) 2048 = .ok (o.1, o.2) ∧
      bankUsed r (r.bank (bankToFill r)).gen = false ∧ Here o.1 ∧
      leavesLate s 0 (.load 0 8 false o.1 none) = false ∧ bankUsed used (used.bank (bankToFill used)).gen = true ∧
      answers (openAccess (on .a used) 0 (syncAcc .read 8) (.va 0x300000) 2048) (fun _ => true) = true ∧
      ((on .a k).still 0 = false ∧ ((on .a k).stream (me .a)).at_ = .decld 4 0 8 [part 0x300000 2048] ∧
        heldBack k.a.pend (.load 0 8 false [part 0x300000 2048] none) = false ∧ Straight (on .a k) (me .a) 4 ∧ ((on .a k).stream (me .a)).full 4 = true) ∧
      g = .ok (gotL g) (gotS (on .a k) g) ∧ ∃ cause tv, gather 0 (.instr 0 .a) [part 0x300000 2048] bad = .bad cause tv :=
  ⟨rfl, full_on rfl, full_on rfl, by decide +kernel, okOf_eq (by decide +kernel), by decide +kernel, here_of (by decide +kernel),
    leaves_of rfl, by decide +kernel, by decide +kernel, ⟨by decide +kernel, rfl, rfl, straight_on rfl, by decide +kernel⟩,
    got_eq (by decide +kernel), of_isBad (by decide +kernel)⟩

/-- DECLD from memory of another package, behind an older atomic access that acquires, and with nothing older. -/
theorem witness_TablesAndContexts_late :
    let far : Seg := ⟨.remote 1 0, 0x300000, 8, plainAttr, 0, none⟩
    let acq := pending (.amo 4 (.rmw 0 0) true true false [part 0x300000 8] 0)
    leavesLate (on .a core0) 0 (.load 0 8 false [far] none) = false ∧ leavesLate (on .a acq) 0 (.load 0 8 false [far] none) = true := by
  decide +kernel

/-- User mode, a context that is not live, one beyond the table, and an address that is not aligned. -/
theorem witness_TablesAndContexts_refused :
    let r := regsA [(1, 0x300000), (2, 64), (3, 1), (5, 0x300008)]
    let sup : Core := { r with a := inSuper r.a }
    (Acts (on .a r) (me .a) ∧ ((on .a r).stream (me .a)).super = false) ∧
      (Acts (on .a sup) (me .a) ∧ Full (on .a sup) (me .a) [1, 2] ∧ ((on .a sup).stream (me .a)).super = true) ∧
      63 < (regOf (on .a sup) (me .a) 2).toNat ∧ ((on .a sup).ctx (regOf (on .a sup) (me .a) 3).toNat).live = false ∧
      ((on .a sup).ctx (regOf (on .a sup) (me .a) 4).toNat).live = true ∧ (regOf (on .a sup) (me .a) 5).toNat % 0x1000 ≠ 0 :=
  ⟨⟨rfl, by decide +kernel⟩, ⟨rfl, full_on rfl, by decide +kernel⟩, by decide +kernel⟩

/-- Core 0 in supervisor mode of context 0; core 1 runs a job of context 1. -/
def twoCores : State :=
  let k : Core := { regsA [(1, 0x300000), (2, 1)] with
    a := inSuper (regsA [(1, 0x300000), (2, 1)]).a }
  { on .a k with
    cores := [(0, k), (1, { core0 with job := some ⟨1, 1, 0, 0, 0, false, [.a, .x, .m], []⟩ })],
    ctxs := [(0, ⟨true, [0, BitVec.ofNat 64 placeRoot], [], 0⟩), (1, ⟨true, [1, BitVec.ofNat 64 placeRoot], [], 0⟩)],
    recs := [(1, ⟨[(0, 0x10100)], 0, []⟩)],
    launches := [launch0, { launch0 with record := 1, cores := [(1, 0)] }] }

theorem length_dieImage (s : State) (ctx : Nat) : (dieImage s ctx [] []).length = 0x1000 := by
  have h (l : List Byte) (n : Nat) : (fit n l).length = n := by simp [fit]
  unfold dieImage
  rw [List.length_append, h]
  rfl

/-- CTXSV of a context whose job on the die, that of core 1, can be saved. -/
theorem witness_TablesAndContexts_save :
    let s := twoCores
    let cs := (onDie s 1 (dieOf 0)).flatMap Prod.snd
    Acts s (me .a) ∧ (s.stream (me .a)).super = true ∧ regOf s (me .a) 1 = 0x300000 ∧ regOf s (me .a) 2 = 1 ∧ (s.ctx 1).live = true ∧
      cs = [1] ∧ (∀ p ∈ onDie s 1 (dieOf 0), mailClear s p.1 p.2 = true) ∧
      (∀ p ∈ onDie s 1 (dieOf 0), launchStops s p.1 (some 0) = true ∧
        ∀ n ∈ p.2, (s.core n).inFlight = 0 ∧ canSave s ((s.lrec p.1.record).gauge && n != 0) n = true) :=
  ⟨rfl, by decide +kernel⟩

/-- CTXSV of a context without a job on the die: every hypothesis of its clause. -/
theorem witness_TablesAndContexts_saved :
    let s : State := { twoCores with launches := [] }
    let o := okOf ([], s) (openAccess s 0 (syncAcc .write 0x1000) (.va 0x300000) 0x1000)
    onDie s 1 (dieOf 0) = [] ∧ (dieImage s 1 [] []).length = 0x1000 ∧ openAccess s 0 (syncAcc .write 0x1000) (.va 0x300000) 0x1000 = .ok (o.1, o.2) ∧
      (storeSegs 0 (partsOf o.1 (dieImage s 1 [] []) (List.replicate 0x1000 true)) o.2).isSome = true :=
  ⟨by decide +kernel, length_dieImage _ _, okOf_eq (by decide +kernel), by decide +kernel⟩

/-- A core 0 without its job's rest, with the image of a lifeline of context 1 whose core is free. -/
def loading (img : List Byte) (mem : Memory) : State :=
  let f : Lifeline := ⟨{ launch0 with record := 1, cores := [(1, 0)], vaulted := [0] }, [(1, core0)], [], [], 1, some img, 0, none⟩
  { twoCores with
    mem := mem, cores := [(0, twoCores.core 0)], launches := [launch0], lifelines := [f] }

def dieGone (s : State) : State := { s with failedDies := [0] }

/-- What core 0 reads for a CTXLD. -/
def reading (s : State) (va n : Nat) : Got :=
  let o := okOf ([], s) (openAccess s 0 (syncAcc .read 8) (.va va) n)
  gather 0 (.instr 0 .a) (o.1.flatMap (fun g => pieces (g.len / 512 + 1) g)) o.2

theorem readsAs_of {s : State} {va n : Nat}
    (ho : answers (openAccess s 0 (syncAcc .read 8) (.va va) n) (fun r => r.1.all (fun g => !g.isRemote)) = true)
    (hg : isGot (reading s va n) = true) : ReadsAs s 0 va n (gotL (reading s va n)) (gotS s (reading s va n)) := by
  obtain ⟨⟨parts, s1⟩, he, hp⟩ := of_answers ho
  refine ⟨parts, s1, he, here_of hp, ?_⟩
  have := got_eq (d := s) hg
  simpa [reading, okOf, he] using this

/-- Lists that are the same piece by piece. -/
def sameBy {α : Type} [BEq α] : Nat → List α → List α → Bool
  | 0, l, r => l.isEmpty && r.isEmpty
  | n + 1, l, r => l.take 64 == r.take 64 && sameBy n (l.drop 64) (r.drop 64)

theorem eq_of_sameBy {α : Type} [BEq α] [LawfulBEq α] : ∀ (n : Nat) (l r : List α), sameBy n l r = true → l = r
  | 0, l, r, h => by simp [sameBy] at h; rw [h.1, h.2]
  | n + 1, l, r, h => by
    simp only [sameBy, Bool.and_eq_true, beq_iff_eq] at h
    rw [← List.take_append_drop 64 l, ← List.take_append_drop 64 r, h.1, eq_of_sameBy n _ _ h.2]

/-- CTXLD where memory holds the image of a lifeline of context 1 whose core is free. -/
theorem witness_TablesAndContexts_load :
    let img : List Byte := List.replicate 0x1000 0
    let s := loading img tables
    let f := s.lifelines.headD ⟨launch0, [], [], [], 0, none, 0, none⟩
    let s1 := gotS s (reading s 0x300000 0x1000)
    let s2 := gotS s1 (reading s1 0x301000 0)
    Acts s (me .a) ∧ (s.stream (me .a)).super = true ∧ (s.ctx 1).live = true ∧ (s.ctx 0).live = true ∧ (s.core 0).doneA = true ∧
      ReadsAs s 0 0x300000 0x1000 img s1 ∧ headerOf s img = (1, 0) ∧ ReadsAs s1 0 0x301000 0 [] s2 ∧
      versionsOk img 0 = true ∧ imageJobs s2 1 img = [f] ∧
      f.ctx = 1 ∧ f.cores ≠ [] ∧ (f.cores.map Prod.fst).Nodup ∧ (∀ p ∈ f.cores, p.1 ≠ 0 ∧ p.1 < 512) ∧ s2.lifelines = [f] ∧
      (∀ l ∈ s2.launches, l.record ≠ f.launch.record) ∧ (∀ g ∈ unitsAmong 2 (f.cores.map Prod.fst) [], g ∈ f.launch.vaulted) ∧
      shiftFor s2 (fun n => dieOf n == dieOf 0 && coreFits s2 (if s2.launches.any (fun l => l.record == f.launch.record)
        then [f.launch.record] else []) [] (s2.lrec f.launch.record).gauge n) f = some ((0, 0), [1]) ∧
      toChange s2 (s2.lrec f.launch.record).gauge (unitsAmong 2 [1] []) = [] ∧
      shiftFor (dieGone s2) (fun n => dieOf n == dieOf 0 && coreFits (dieGone s2) [] [] ((dieGone s2).lrec f.launch.record).gauge n) f =
        none := by
  have hl (mem : Memory) (img : List Byte) (h : img.length = 0x1000) : headerOf (loading img mem) img = (1, 0) := by
    simp [headerOf, loading, List.take_of_length_le (Nat.le_of_eq h), h]
  have hj (t : State) (img : List Byte) (f : Lifeline) (h : t.lifelines = [f]) (hi : f.image = some img) (hc : f.ctx = 1) :
      imageJobs t 1 img = [f] := by
    simp [imageJobs, h, hi, hc]
  refine ⟨rfl, by decide +kernel, by decide +kernel, by decide +kernel, by decide +kernel, ?_, hl _ _ List.length_replicate, ?_, by decide +kernel, hj _ _ _ rfl rfl rfl, rfl,
    by decide +kernel, by decide +kernel, by decide +kernel, rfl, by decide +kernel, by decide +kernel, by decide +kernel,
    by decide +kernel, by decide +kernel⟩
  · have h := readsAs_of (s := loading (List.replicate 0x1000 0) tables) (va := 0x300000) (n := 0x1000) (by decide +kernel) (by decide +kernel)
    rwa [eq_of_sameBy 64 (gotL (reading (loading (List.replicate 0x1000 0) tables) 0x300000 0x1000)) (List.replicate 0x1000 0) (by decide +kernel)] at h
  · exact readsAs_of (by decide +kernel) (by decide +kernel)

/-- Memory holds, at 0x300000, an image of one job whose version byte is `b`. -/
def imaged (b : Byte) : State := loading (List.replicate (0x1000 + 0x180000) 0) (writeB tables 0x301000 b)

/-- CTXLD of an image of another version. -/
theorem witness_TablesAndContexts_version : ∃ b s1 jobs s2, ReadsAs (imaged b) 0 0x300000 0x1000 (List.replicate 0x1000 0) s1 ∧
    headerOf (imaged b) (List.replicate 0x1000 0) = (1, 1) ∧ ReadsAs s1 0 0x301000 (1 * 0x180000) jobs s2 ∧
    versionsOk (List.replicate 0x1000 0 ++ jobs) 1 = false := by
  have hh (b : Byte) : headerOf (imaged b) (List.replicate 0x1000 0) = (1, 1) := by
    simp only [imaged, headerOf, loading, List.findSome?, List.take_replicate, List.length_replicate, Nat.min_eq_left (Nat.le_add_right _ _),
      beq_self_eq_true, if_true]
    rfl
  have hr (b : Byte) (hb : b = 0 ∨ b = 3) : ∃ s1 jobs s2, ReadsAs (imaged b) 0 0x300000 0x1000 (List.replicate 0x1000 0) s1 ∧
      ReadsAs s1 0 0x301000 (1 * 0x180000) jobs s2 ∧ jobs[0]? = some b := by
    have h1 : ReadsAs (imaged b) 0 0x300000 0x1000 (gotL (reading (imaged b) 0x300000 0x1000)) (gotS (imaged b) (reading (imaged b) 0x300000 0x1000)) := by
      rcases hb with rfl | rfl <;> exact readsAs_of (by decide +kernel) (by decide +kernel)
    have h2 : gotL (reading (imaged b) 0x300000 0x1000) = List.replicate 0x1000 0 := by
      rcases hb with rfl | rfl <;> exact eq_of_sameBy 64 _ _ (by decide +kernel)
    generalize hs : gotS (imaged b) (reading (imaged b) 0x300000 0x1000) = s1 at h1
    rw [h2] at h1
    have ho : answers (openAccess s1 0 (syncAcc .read 8) (.va 0x301000) 0x180000) (fun r => r.1.all (fun g => !g.isRemote) &&
        r.2.badMem.isEmpty && r.2.tags.isEmpty &&
        (r.1.flatMap (fun g => pieces (g.len / 512 + 1) g)).all (fun g => g.home == .local && !buffers r.2 0 g) &&
        ((r.1.flatMap (fun g => pieces (g.len / 512 + 1) g)).flatMap (fun g => readBytes r.2.mem g.addr g.len))[0]? == some b) = true := by
      rw [← hs]
      rcases hb with rfl | rfl <;> decide +kernel
    obtain ⟨⟨parts, t⟩, he, hp⟩ := of_answers ho
    simp only [Bool.and_eq_true, List.isEmpty_iff, beq_iff_eq] at hp
    obtain ⟨⟨⟨⟨hp1, hp2⟩, hp3⟩, hp4⟩, hp5⟩ := hp
    obtain ⟨x, hx⟩ := gather_local (c := 0) (owner := .instr 0 .a) hp2 hp3 (fun g hg => by
      have := List.all_eq_true.1 hp4 g hg
      simpa using this)
    exact ⟨s1, _, _, h1, ⟨parts, t, he, here_of hp1, hx⟩, hp5⟩
  have hv (jobs : List Byte) (b : Byte) (h : jobs[0]? = some b) (hb : b ≠ Config.imageVersion) :
      versionsOk (List.replicate 0x1000 0 ++ jobs) 1 = false := by
    have hi : (List.replicate 0x1000 (0 : Byte) ++ jobs)[0x1000]? = some b := by
      rw [List.getElem?_append_right (by rw [List.length_replicate]), List.length_replicate]
      exact h
    simp only [versionsOk, List.range_one, List.all_cons, List.all_nil, Nat.zero_mul, Nat.add_zero, hi]
    simpa using hb
  by_cases h0 : (0 : Byte) = Config.imageVersion
  · obtain ⟨s1, jobs, s2, h1, h2, h3⟩ := hr 3 (.inr rfl)
    exact ⟨3, s1, jobs, s2, h1, hh 3, h2, hv jobs 3 h3 (by rw [← h0]; decide)⟩
  · obtain ⟨s1, jobs, s2, h1, h2, h3⟩ := hr 0 (.inl rfl)
    exact ⟨0, s1, jobs, s2, h1, hh 0, h2, hv jobs 0 h3 h0⟩

end Sys2Proof.Tests
end

