-- ==== Sys2Proof/Tests/WitnessD.lean ====
section
/-! SUPPORT. States and operands that meet the hypotheses of the statements on the directory and on launch records, clause by clause. -/

namespace Sys2Proof.Tests

set_option Elab.async false

open Sys2Proof.Machine

/-! ## The directory -/

/-- A directory object of 64 bytes. -/
def objDesc : ObjDesc := ⟨0, 0, 0x300000, 64, { plainAttr with executable := false }, 0, 0, [0, 0, 0, 0]⟩

/-- Forms at issue: handles valid and not, a status register that is full and one that is not, accesses and transfers under way. -/
theorem witness_DirectoryForms :
    let k := regsA [(1, 5), (2, 0x300000), (3, 17), (5, 16)]
    let open_ : Core := { k with as := { k.as with h := [(1, 7)] } }
    let empty : Core := { k with a := { k.a with empty := [4] } }
    let via : Seg := { part 0x300000 8 with slot := some 7 }
    let busy : Core := { open_ with a := { open_.a with pend := [⟨0, .load 4 8 true [via] none⟩] } }
    let other : Core := { open_ with a := { open_.a with pend := [⟨0, .load 4 8 true [part 0x300000 8] none⟩] } }
    let kept : Core := { open_ with det := { DetBuf.reset with writes := [⟨0, via, [1], [true]⟩] } }
    let uses : Core := { open_ with as := { open_.as with
      xfers := [(0, ⟨.cpgo (.obj 7) (.va 0) 1 .b8 .b8 .rne 0 0 [], 0, false, 0, 0, 0, 0, [], [], 0, [], [], [], 0, 0⟩)] } }
    Acts (on .a k) (me .a) ∧ Full (on .a k) (me .a) [1, 2] ∧ (handleSlot (on .a open_) (me .a) 1).isSome = true ∧
      handleSlot (on .a k) (me .a) 1 = none ∧ ((on .a k).stream (me .a)).full 4 = true ∧
      (((on .a empty).stream (me .a)).full 4 = false ∧ Full (on .a empty) (me .a) [1, 2]) ∧
      handleSlot (on .a open_) (me .a) 1 = some 7 ∧ (open_.doneA = true ∧ ∀ p ∈ open_.as.xfers, p.2.op.usesSlot 7 = false) ∧
      busy.doneA = false ∧ (∃ p ∈ busy.a.pend, ∃ g ∈ p.op.segs, g.slot = some 7) ∧ (∀ p ∈ other.a.pend, ∀ g ∈ p.op.segs, g.slot ≠ some 7) ∧
      other.a.pend ≠ [] ∧ (∃ g ∈ kept.det.writes.map DetWrite.seg, g.slot = some 7) ∧ (∃ p ∈ uses.as.xfers, p.2.op.usesSlot 7 = true) ∧ ((on .a k).ctx 0).binder = false ∧
      (16 < (regOf (on .a k) (me .a) 3).toNat ∧ (0 < (regOf (on .a k) (me .a) 5).toNat ∧ (regOf (on .a k) (me .a) 5).toNat ≤ 16)) :=
  ⟨rfl, full_on rfl, by decide +kernel, by decide +kernel, by decide +kernel,
    ⟨by decide +kernel, by intro n h; fin_cases h <;> rfl⟩, by decide +kernel⟩

/-- A state whose context may bind, with bytes at 0x300000. -/
def binder (k : Core) (bytes : List Byte) : State :=
  { on .a k with
    ctxs := [(0, ⟨true, [0x200, BitVec.ofNat 64 placeRoot], [], 0⟩)], mem := writeBytes tables 0x300000 bytes }

/-- The 48 bytes of a descriptor. -/
def descBytes (base size : Nat) : List Byte := bytesOf 8 base ++ bytesOf 8 size ++ List.replicate 32 0

/-- BIND of a descriptor of an object, of one that is refused, and of one whose extent is not mapped. -/
theorem witness_DirectoryForms_BIND :
    let k := regsA [(1, 5), (2, 0x300000)]
    let s (base size : Nat) := binder k (descBytes base size)
    let g (base size : Nat) := reading (s base size) 0x300000 48
    let made (base size : Nat) := makeObj (gotS (s base size) (g base size)) 0 (gotL (g base size))
    (∀ b n, Acts (s b n) (me .a)) ∧ ((s 0 0).ctx 0).binder = true ∧ k.doneA = true ∧ k.as.xfers = [] ∧
      (∀ p ∈ [(0x500000, 64), (0, 64), (0x80000000000, 64)], (regOf (s p.1 p.2) (me .a) 2).toNat = 0x300000 ∧
        ReadsAs (s p.1 p.2) 0 0x300000 48 (gotL (g p.1 p.2)) (gotS (s p.1 p.2) (g p.1 p.2))) ∧
      made 0x500000 64 = .obj { objDesc with pa := 0x500000 } ∧ made 0 64 = .status 4 ∧ made 0x80000000000 64 = .fault 0x10 0x80000000000 :=
  ⟨fun _ _ => rfl, by decide +kernel, by decide +kernel, by decide +kernel,
    by intro p h; fin_cases h <;> exact ⟨by decide +kernel, readsAs_of (by decide +kernel) (by decide +kernel)⟩, by decide +kernel⟩

/-- REBIND of two names to none, and of one name to a descriptor. -/
theorem witness_DirectoryForms_REBIND :
    let k (n : Word) := regsA [(1, 0x300000), (2, n)]
    let two := binder (k 2) (bytesOf 8 5 ++ bytesOf 8 0 ++ bytesOf 8 6 ++ bytesOf 8 0)
    let one := binder (k 1) (bytesOf 8 5 ++ bytesOf 8 0x300100 ++ List.replicate 240 0 ++ descBytes 0x500000 64)
    let g := reading two 0x300000 (16 * 2)
    let g1 := reading one 0x300000 (16 * 1)
    let g2 := reading (gotS one g1) 0x300100 48
    Acts two (me .a) ∧ ReadsAs two 0 0x300000 (16 * 2) (gotL g) (gotS two g) ∧ (∀ p ∈ pairsOf (gotL g) 2, p.2 = 0) ∧
      ((pairsOf (gotL g) 2).map Prod.fst).Nodup ∧ ReadsAs one 0 0x300000 (16 * 1) (gotL g1) (gotS one g1) ∧
      pairsOf (gotL g1) 1 = [(5, 0x300100)] ∧ ReadsAs (gotS one g1) 0 0x300100 48 (gotL g2) (gotS (gotS one g1) g2) ∧ gotL g2 ≠ [] ∧
      makeObj (gotS (gotS one g1) g2) 0 (gotL g2) = .obj { objDesc with pa := 0x500000 } :=
  ⟨rfl, readsAs_of (by decide +kernel) (by decide +kernel), by decide +kernel, by decide +kernel,
    readsAs_of (by decide +kernel) (by decide +kernel), by decide +kernel, readsAs_of (by decide +kernel) (by decide +kernel),
    by decide +kernel, by decide +kernel⟩

/-- The A stream stands at an act; name 5 is bound to object 3 with a count, and handles are in use. -/
def acting (m : Meet) (entries : List DirEnt) (handles : Tbl Nat) (count : Nat) (bound : Bool) : State :=
  let k := core0With .a (fun t => { t with run := .waiting, at_ := m })
  { on .a { k with as := { k.as with h := [(1, 0)] } } with
    entries := entries, objs := [(3, ⟨objDesc, 5, bound, count, (0, 0)⟩)], nextObj := 4,
    ctxs := [(0, ⟨true, [0, BitVec.ofNat 64 placeRoot], handles, 0⟩)] }

theorem acting_handles (m : Meet) (e : List DirEnt) (hs : Tbl Nat) (c : Nat) (b : Bool) : ((acting m e hs c b).ctx 0).handles = hs := rfl

def bound5 : List DirEnt := [⟨5, some 3, []⟩]
def allHandles : Tbl Nat := (List.range 512).map (fun i => (i, 3))
def fullDir (n : Nat) : List DirEnt := List.replicate n ⟨6, some 3, []⟩

theorem tfind_map {l : List Nat} {n : Nat} (h : n ∈ l) : (tfind (l.map (fun i => (i, 3))) n).isSome = true := by
  induction l with
  | nil => cases h
  | cons m l ih =>
    by_cases hm : m = n
    · simp [tfind, hm]
    · simp only [List.map_cons, tfind, hm, if_false]
      exact ih ((List.mem_cons.1 h).resolve_left (fun e => hm e.symm))

theorem witness_DirectoryActs_OPEN :
    let a (wait : Bool) (e : List DirEnt) (hs : Tbl Nat) := acting (.dirOpen 2 5 4 wait) e hs 1 true
    (∀ e hs wait, (a wait e hs).still 0 = false ∧ Straight (a wait e hs) (me .a) 4 ∧
      ((a wait e hs).stream (me .a)).at_ = .dirOpen 2 5 4 wait ∧ ((a wait e hs).stream (me .a)).full 4 = true) ∧
      ((a false bound5 [(0, 3)]).bound? 5 = some 3 ∧ (tfind (a false bound5 [(0, 3)]).objs 3).isSome = true ∧
        (List.range 512).find? (fun n => (tfind ((a false bound5 [(0, 3)]).ctx 0).handles n).isNone) = some 1) ∧
      (((a false bound5 allHandles).bound? 5).isSome = true ∧ ((a false bound5 allHandles).ctx 0).handles = allHandles ∧
        ∀ n < 512, (tfind allHandles n).isSome = true) ∧
      ((a true [] []).bound? 5 = none ∧ (a true [] []).entry? 5 = none ∧ (a true [] []).entries.length < 65536) :=
  ⟨fun _ _ _ => ⟨rfl, trivial, rfl, rfl⟩, by decide +kernel,
    ⟨by decide +kernel, acting_handles _ _ _ _ _, fun n h => tfind_map (l := List.range 512) (List.mem_range.2 h)⟩, by decide +kernel⟩

theorem entry_none {s : State} {n : Nat} (h : s.entries = List.replicate n ⟨6, some 3, []⟩) : s.entry? 5 = none := by
  rw [State.entry?, h]
  cases n <;> simp

theorem length_entries {s : State} {n : Nat} (h : s.entries = List.replicate n ⟨6, some 3, []⟩) : n ≤ s.entries.length := by
  simp [h]

theorem full_directory (n : Nat) :
    let s := acting (.dirOpen 2 5 4 true) (fullDir n) [] 1 true
    s.bound? 5 = none ∧ s.entry? 5 = none ∧ n ≤ s.entries.length := by
  have he : (acting (.dirOpen 2 5 4 true) (fullDir n) [] 1 true).entry? 5 = none := entry_none rfl
  exact ⟨by rw [State.bound?, he]; rfl, he, length_entries rfl⟩

/-- A directory that is full of other names. -/
theorem witness_DirectoryActs_full :
    ∃ s : State, s.bound? 5 = none ∧ s.entry? 5 = none ∧ 65536 ≤ s.entries.length := ⟨_, full_directory 65536⟩

/-- A close of the last handle of an orphan, of one of several, and of a bound object; a bind of a name that is bound and one that is
free, with a descriptor and with a status; rebinds that fail, unbind, and bind. -/
theorem witness_DirectoryActs_others :
    let c (n : Nat) (b : Bool) := acting (.dirClose 1) [] [(0, 3)] n b
    let b (e : List DirEnt) (o : Option ObjDesc) := acting (.dirBind 4 5 o 4) e [] 1 true
    let r (e : List DirEnt) (ps : List (Word × Nat × Option ObjDesc)) := acting (.dirRebind 4 ps) e [] 1 true
    (∀ n x, tfind ((c n x).core 0).as.h 1 = some 0 ∧ tfind ((c n x).ctx 0).handles 0 = some 3 ∧
      tfind (c n x).objs 3 = some ⟨objDesc, 5, x, n, (0, 0)⟩ ∧ Straight (c n x) (me .a) 4) ∧
      ((b bound5 none).bound? 5).isSome = true ∧ ((b [] none).bound? 5 = none ∧ (b [] (some objDesc)).bound? 5 = none ∧
        (b [] (some objDesc)).entry? 5 = none ∧ (b [] (some objDesc)).entries.length < 65536) ∧
      ((b [] none).stream (me .a)).full 4 = true ∧
      rebindStatus (r [] [(5, 0, none)]) 0 [(5, 0, none)] = some 1 ∧ rebindStatus (r [] [(5, 2, none)]) 0 [(5, 2, none)] = some 2 ∧
      ((r bound5 [(5, 0, none)]).bound? 5 = some 3 ∧ (r bound5 [(5, 0, none)]).entries.length ≤ 65536 ∧
        rebindStatus (r bound5 [(5, 0, none)]) 0 [(5, 0, none)] = none) ∧
      ((r bound5 [(5, 1, some objDesc)]).bound? 5 = some 3 ∧ 3 ≠ (r bound5 []).nextObj) :=
  ⟨fun _ _ => ⟨rfl, rfl, rfl, trivial⟩, by decide +kernel⟩

/-! ## Launch records -/

/-- A valid record of one core, all of whose dwords may be patched. -/
def goodRec : Rec := ⟨[(0, 0xFFFFFFFF00002101), (2, 0x100000), (16, 0x10014)], 0, []⟩

/-- The state in which record 7 is `r`. -/
def withRec (s : State) (r : Rec) : State := { s with recs := [(7, r)] }

theorem witness_LaunchRecordForms :
    let k (n : Word) := regsA [(1, n), (2, 5)]
    let busy : Core := { k 4095 with a := { (k 4095).a with pend := [⟨0, .load 4 8 true [part 0x300000 8] none⟩] } }
    Acts (on .a (k 0)) (me .a) ∧ Full (on .a (k 0)) (me .a) [1, 2] ∧ 4095 < (regOf (on .a (k 4096)) (me .a) 1).toNat ∧
      (regOf (on .a (k 4095)) (me .a) 1).toNat ≤ 4095 ∧ ((k 0).doneA = true ∧ (k 0).as.xfers = []) ∧ busy.doneA = false :=
  ⟨rfl, full_on rfl, by decide +kernel⟩

/-- The acts on records of another context, unbuilt, armed and open to the patch; a dword that may not be patched; a record that is bad,
one that is not admitted and one that is armed. -/
theorem witness_LaunchRecordForms_acts :
    let at_ (m : Meet) := on .a (core0With .a (fun t => { t with run := .waiting, at_ := m }))
    let r (d0 : Word) : Rec := ⟨[(0, d0), (2, 0x100000), (16, 0x10014)], 0, []⟩
    let g : Word := 0xFFFFFFFF00002101
    let s (m : Meet) (d0 : Word) := withRec (at_ m) (r d0)
    let gauge : State := { s (.recArm 4 7) (g ||| 0x1000) with ctxs := [(0, ⟨true, [0x100, BitVec.ofNat 64 placeRoot], [], 0⟩)], gaugeBudget := 0 }
    (∀ m d0, (s m d0).still 0 = false ∧ Straight (s m d0) (me .a) 4 ∧ ((s m d0).stream (me .a)).at_ = m ∧
      ((s m d0).stream (me .a)).full 4 = true) ∧
      ((r (g ||| 0x10000)).ctx ≠ 0 ∧ (r (g - 0x100)).built = false ∧ (r g).ctx = 0 ∧ (r g).built = true) ∧
      (((r 0x2101).d 0).getLsbD (32 + 2) = false ∧ ((r g).d 0).getLsbD (32 + 2) = true ∧ (r (g ||| 0x200)).armed = true ∧
        (r g).armed = false) ∧
      recordBad (s (.recArm 4 7) 0x2102) 7 (r 0x2102) = some 0 ∧ recordBad (s (.recArm 4 7) g) 7 (r g) = none ∧ (r g).gauge = false ∧
      (recordBad gauge 7 (r (g ||| 0x1000)) = none ∧ (r (g ||| 0x1000)).gauge = true ∧ admits gauge (r (g ||| 0x1000)) = false) ∧
      admits { gauge with gaugeBudget := 112 } (r (g ||| 0x1000)) = true :=
  ⟨fun _ _ => ⟨rfl, trivial, rfl, rfl⟩, by decide +kernel⟩

end Sys2Proof.Tests
end

