-- ==== Sys2Proof/Tests/WitnessL.lean ====
section
/-! SUPPORT. States and operands that meet the hypotheses of the statements on barriers, mail, launches, quanta, holds and droops, clause
by clause. -/

namespace Sys2Proof.Tests

set_option Elab.async false

open Sys2Proof.Machine

/-! ## Barriers -/

/-- `core0` with its A stream at a cluster barrier. -/
def atBar (scope mask : Nat) (timed : Option Nat) : Core :=
  { core0 with a := { core0.a with at_ := .bar scope mask 0 timed, run := .waiting }, barCount := [(scope, 1)] }

/-- A launch of core 0 that spans packages, with the timed barriers of its instances. -/
def spans (pkgs released : List Nat) (timed : List TimedBar) : Launch :=
  { launch0 with packages := pkgs, released := released, timed := timed }

/-- Core 0 at a barrier, in such a launch. -/
def barred (scope mask : Nat) (timed : Option Nat) (l : Launch) : State := { on .a (atBar scope mask timed) with launches := [l] }

/-- The same in a context that tells intervals apart, where the instance has completed or not. -/
def interval (done : Bool) : State :=
  { barred 2 1 none { spans [0] [] [] with completed := if done then [(2, 0, 0)] else [] } with
    ctxs := [(0, ⟨true, [0x1400, BitVec.ofNat 64 placeRoot], [], 0⟩)] }

/-- A core that has not arrived; a launch with a saved part; a cluster barrier; a fabric barrier that is released; and a barrier as wide
as the interval, of an instance that has completed and of one that has not. -/
theorem witness_BarriersRelease_untimed :
    let found (s : State) (l : Launch) :=
      (untimedAt (s.core 0)).find? (fun b => (participants l b.1 0).all (fun d => arrivedAt (s.core d) b.1 b.2.2))
    let s := barred 2 1 none (spans [0] [] [])
    let far := barred 5 1 none (spans [0, 1] [0] [])
    let cut : State := { s with lifelines := [⟨launch0, [], [], [], 0, none, 0, none⟩] }
    (s.still 0 = false ∧ s.launchOf 0 = some (spans [0] [] []) ∧ s.whole 0 = true ∧ cut.whole 0 = false) ∧
      found (on .a core0) (spans [] [] []) = none ∧
      found s (spans [0] [] []) = some (2, 1, 0) ∧ commitFirst s (spans [0] [] []) 2 (participants (spans [0] [] []) 2 0) = false ∧
      (∀ e ∈ standsAt (s.core 0) 2 0 false, Straight s ⟨0, e⟩ 4) ∧ standsAt (s.core 0) 2 0 false = [.a] ∧
      (far.still 0 = false ∧ far.launchOf 0 = some (spans [0, 1] [0] [])) ∧ found far (spans [0, 1] [0] []) = some (5, 1, 0) ∧
      0 ∈ (spans [0, 1] [0] []).released ∧ commitFirst far (spans [0, 1] [0] []) 5 (participants (spans [0, 1] [0] []) 5 0) = false ∧
      (∀ b, ((interval b).ctx 0).mmode = 1 ∧ ((interval b).ctx 0).mscopeCode = 2 ∧ found (interval b) (spans [0] [] []) = some (2, 1, 0) ∧
        (interval b).launches.map (fun l => ((2, unitOf 2 0, 0) ∈ l.completed : Bool)) = [b]) :=
  ⟨by decide +kernel, by decide +kernel, by decide +kernel, by decide +kernel,
    fun e he => straight_on (by
      have : e = .a := by
        simpa [show standsAt ((barred 2 1 none (spans [0] [] [])).core 0) 2 0 false = [.a] by decide +kernel] using he
      subst this; rfl),
    by decide +kernel⟩

/-- A timed barrier one cycle before its release cycle and at it. -/
theorem witness_BarriersRelease_timed :
    let l := spans [0] [] [⟨3, 0, 0, 60, 100⟩]
    let s (n : Nat) : State := { barred 3 1 (some 100) l with clock := n }
    let ps := participants l 3 0
    let here (n : Nat) := ps.filter (fun d => arrivedAt ((s n).core d) 3 0 && !(standsAt ((s n).core d) 3 0 true).isEmpty)
    ((s 99).still 0 = false ∧ (s 99).launchOf 0 = some l ∧ timedAt ((s 99).core 0) = some (3, 0) ∧ (s 99).whole 0 = true ∧ 0 ∈ ps ∧
      arrivedAt ((s 99).core 0) 3 0 = true ∧ standsAt ((s 99).core 0) 3 0 true ≠ []) ∧
      (timedOf l 3 (unitOf 3 0) 0).map TimedBar.high = some 100 ∧ (s 99).jobCount 0 < 100 ∧ 100 ≤ (s 100).jobCount 0 ∧
      here 100 = [0] ∧ standsAt ((s 100).core 0) 3 0 true = [.a] ∧ Straight (s 100) ⟨0, .a⟩ 4 :=
  ⟨by decide +kernel, by decide +kernel, by decide +kernel, by decide +kernel, by decide +kernel, by decide +kernel, straight_on rfl⟩

/-! ## Mail -/

def mailTo (pkg core ctx : Nat) : MboxMsg := ⟨0, 1, .a, pkg, core, 3, 7, ctx, 0, 0, 0, 0⟩

/-- A write on its way to core 0 from core 1, to a job of its context, to a full buffer, to a job of another context, and to a core
that is kept for the next wave; one that came from another package, to a core that stands still and to one that does not; held writes
whose mailbox is empty, full, and due an earlier write of the core itself. -/
theorem witness_MailArrives :
    let sends (m : MboxMsg) (k : Core) : State := { on .a k with cores := [(0, k), (1, { Core.reset with outbound := [m] })] }
    let full : Core := { core0 with holding := List.replicate 16 (mailTo 0 0 0) }
    let holds : Core := { core0 with holding := [mailTo 0 0 0] }
    let busy : Core := { holds with mbox := [(3, ⟨1, true, 0, 0⟩)] }
    let s := sends (mailTo 0 0 0) core0
    let kept : Launch := { launch0 with done := [0] }
    let gap : State := { sends (mailTo 0 0 0) Core.reset with launches := [kept], recs := [(0, ⟨[(0, 0x1002301), (16, 0x20005), (17, 0x10014)], 0, []⟩)] }
    let frozen : State := { s with inbound := [mailTo 0 0 0], clusters := [(0, { Cluster.reset with frozen := [.fault 0 .a] })] }
    let due : State := { on .a holds with releases := [.mail { mailTo 0 0 0 with srcCore := 0, rel := 1 }] }
    (1 < 512 ∧ firstOwn s 1 = some (0, mailTo 0 0 0) ∧ s.still 0 = false ∧ firstOwn (on .a core0) 1 = none) ∧
      (∃ j, (s.core 0).job = some j ∧ j.ctx = (mailTo 0 0 0).ctx) ∧ (s.core 0).holding.length < 16 ∧
      ((gap.core 0).job = none ∧ (gap.lrec 0).ctx = 0 ∧ (gap.lrec 0).waves = 2 ∧ reservedFor gap kept 0 = true) ∧
      16 ≤ ((sends (mailTo 0 0 0) full).core 0).holding.length ∧
      (firstOwn (sends (mailTo 0 0 9) core0) 1 = some (0, mailTo 0 0 9) ∧ (s.core 0).job.map Job.ctx = some 0 ∧
        (sends (mailTo 0 0 9) core0).session.phase = .opened) ∧
      ({ s with inbound := [mailTo 0 0 0] } : State).inbound = mailTo 0 0 0 :: [] ∧ (∀ n ∈ frozen.inbound, frozen.still n.dstCore = true) ∧
      (holds.holding.mapIdx (fun i m => (i, m))).find? (fun p => p.2.mbox == 3) = some (0, mailTo 0 0 0) ∧
      (holds.job.isSome = true ∧ tfind holds.mbox 3 = none ∧ 3 ∉ heldOwn (on .a holds) 0) ∧ 3 ∈ heldOwn due 0 ∧
      (tfind busy.mbox 3).isSome = true :=
  ⟨by decide +kernel, ⟨_, rfl, by decide +kernel⟩, by decide +kernel⟩

/-! ## Launches -/

/-- A record of one core with code for A, armed, with a section and a vault image of four bytes each at a virtual address. -/
def oneCoreAt (va : Word) : Rec :=
  ⟨[(0, 0x2301), (2, 0x100000), (8, va), (9, 4), (10, 0x300000), (11, 4), (16, 0x10014)], 0, []⟩

def oneCore : Rec := oneCoreAt 0x300000

/-- A launch of record 0 that waits to start on core 0. -/
def waits0 : Launch := { launch0 with started := false, vaulted := [], begun := [] }

def loads (r : Loaded) (p : List Byte → Bool) : Bool := match r with | .ok l _ => p l | _ => false
def loadedS (d : State) (r : Loaded) : State := match r with | .ok _ t => t | _ => d

theorem of_loads {d : State} {r : Loaded} {p : List Byte → Bool} (h : loads r p = true) : ∃ l, r = .ok l (loadedS d r) ∧ p l = true := by
  cases r with
  | ok l t => exact ⟨l, rfl, h⟩
  | _ => cases h

/-- A wave whose core is busy; one that may start, with images of four bytes; one whose section is not mapped, and one whose section
another package has. -/
theorem witness_WavesStart :
    let s (k : Core) (va : Word) : State := { on .a k with recs := [(0, oneCoreAt va)], launches := [waits0] }
    let l := waits0
    let u := s Core.reset 0x300000
    let r := u.lrec 0
    let u1 := loadedS u (loadImage u 0 0 (r.d 8) 4)
    let gone := s Core.reset 0x80000000000
    let away : State := { u with
      mem := writeBytes (writeBytes [] placeRoot (bytesOf 8 placeNext)) placeTable (bytesOf 8 (placeLeaf 1)), peers := [(1, ⟨true, 0, 0⟩)] }
    ((s core0 0).launches.find? (fun x => x.record == 0) = some l ∧ l.started = false ∧ l.spreads = false ∧
      l.leader (s core0 0) = (s core0 0).pkgId ∧ (s core0 0).whole 0 = true ∧ r.armed = true ∧
      l.dies.any (s core0 0).dieFailed = false ∧ l.loaded = none ∧ l.begun = [] ∧ l.done = [] ∧ u.session.phase = .opened) ∧
      (∃ p ∈ l.cores, ((s core0 0).core p.1).job ≠ none ∨ ((s core0 0).core p.1).held = true) ∧
      (∀ p ∈ l.cores, (u.core p.1).job = none ∧ (u.core p.1).held = false) ∧ (l.cores.map Prod.fst).Nodup ∧
      (∃ sec, loadImage u 0 0 (r.d 8) 4 = .ok sec u1 ∧ decide (sec.length = 4) = true) ∧
      (∃ img, loadVault u1 0 = .ok img (loadedS u1 (loadVault u1 0)) ∧ decide (img.length = 4) = true) ∧
      (field (r.d 9) 19 0 = 4 ∧ unitOf 2 0 ∉ l.vaulted ∧ r.voff + 4 ≤ 0x4000000 ∧ u.mem.wf = true) ∧
      (match loadImage gone 0 0 ((gone.lrec 0).d 8) 4 with | .bad cause _ _ => cause == 0x10 | _ => false) = true ∧
      (match loadImage away 0 0 ((away.lrec 0).d 8) 4 with | .wait _ => true | _ => false) = true :=
  ⟨by decide +kernel, ⟨(0, 0), by decide +kernel, .inl (by decide +kernel)⟩, by decide +kernel, by decide +kernel,
    of_loads (by decide +kernel), of_loads (by decide +kernel), by decide +kernel, by decide +kernel, by decide +kernel⟩

/-- A record of priority 3 that needs the 128 cores of a die, armed. -/
def wholeDie : Rec := ⟨[(0, 0x2F01), (2, 0x100000), (16, 0x800034)], 1, []⟩

/-- Changes of regime; a record that is not ready; one that takes the only running launch's core from it where the other dies have
failed. -/
theorem witness_LaunchesMove_preemption :
    let changing : State := { on .a core0 with clusters := [(31, { Cluster.reset with changing := some true })] }
    let s : State := { on .a core0 with recs := [(0, oneCore), (8, wholeDie)], failedDies := [1, 2, 3] }
    ((changing.cluster 31).changing = some true ∧ (changing.cluster 0).changing = none) ∧ isReady s 9 = false ∧
      (isReady s 8 = true ∧ planCores s [] (needed s 8) 8 = none ∧
        enoughVictims (fun gone => (planCores s gone (needed s 8) 8).isSome) (victims s 8) = some [0] ∧
        s.launches.find? (fun x => x.record == 0) = some launch0 ∧ mailClear s launch0 (launch0.cores.map Prod.fst) = true ∧
        launchStops s launch0 none = true ∧ ∀ p ∈ launch0.cores, (s.core p.1).inFlight = 0 ∧ canSave s (s.lrec 0).gauge p.1 = true) :=
  by decide +kernel

/-- No saved launch; one that fits where it was, in clusters of its regime and of the other. -/
theorem witness_LaunchesMove_restore :
    let f : Lifeline := ⟨{ launch0 with vaulted := [0] }, [(0, core0)], [], [], 0, none, 1, none⟩
    let s (gauge : Bool) : State := { on .a Core.reset with
      recs := [(0, oneCore)], launches := [], lifelines := [f], clusters := [(0, { Cluster.reset with gauge := gauge })] }
    let change (gauge : Bool) := toChange (s gauge) ((s gauge).lrec 0).gauge (unitsAmong 2 (f.cores.map Prod.fst) [])
    savedOf (on .a core0) 0 = none ∧
      (savedOf (s false) 0 = some f ∧ (f.cores.map Prod.fst).Nodup ∧ (∀ p ∈ f.cores, p.1 < 512) ∧ f.launch.record = 0) ∧
      shiftFor (s false) (coreFits (s false) [] (needed (s false) 0) ((s false).lrec 0).gauge) f = some ((0, 0), f.cores.map Prod.fst) ∧
      shiftFor (s true) (coreFits (s true) [] (needed (s true) 0) ((s true).lrec 0).gauge) f = some ((0, 0), f.cores.map Prod.fst) ∧
      change false = [] ∧ 0 ∈ change true ∧ (∀ g ∈ (s false).lifelines, g.launch.record = 0 → g = f) ∧
      (∀ p ∈ f.cores, unitOf 2 p.1 ∈ f.launch.vaulted) :=
  by decide +kernel

theorem tag_small {s : State} {line : Nat} (h : s.tags = []) : tagOf s line < 8 := by simp [tagOf, tget, tfind, h]

/-- A quantum that has not ended, and one that has, with one buffered write, of this package's memory and of another's. -/
theorem witness_LaunchesMove_quanta :
    let k (ended : Bool) (g : Seg) : Core := { core0 with det := { DetBuf.reset with
      ended := ended, counted := 1, writes := [⟨0, g, [1, 2], [true, true]⟩] } }
    let s (ended : Bool) (g : Seg) : State := { on .a (k ended g) with ctxs := [(0, ⟨true, [0x1800, BitVec.ofNat 64 placeRoot], [], 0⟩)] }
    let here := part 0x300000 2
    let away : Seg := { here with home := .remote 1 0 }
    let ps (e : Bool) := quantumCores (s e here) launch0 0
    (s false here).launchOf 0 = some launch0 ∧ (∃ d ∈ ps false, quantumOver (s false here) 0 d = false) ∧
      ((s true here).ctx ((s true here).core 0).ctx).mmode = 2 ∧ (∃ d ∈ ps true, ((s true here).core d).det.clean = false) ∧
      (∀ d ∈ ps true, quantumOver (s true here) 0 d = true ∧ ((s true here).core d).allEnded = false ∧
        ((s true here).core d).det.atomic = none) ∧ (ps true).Nodup ∧
      (∀ b ∈ (ps true).flatMap (fun d => ((s true here).core d).det.writes), b.seg.isRemote = false) ∧ (s true here).badMem = [] ∧
      (quantumCores (s true away) launch0 0 = [0] ∧ ((s true away).core 0).det.writes = [⟨0, away, [1, 2], [true, true]⟩] ∧
        away.isRemote = true ∧ quantumOver (s true away) 0 0 = true) ∧
      ∀ line, tagOf (s true here) line < 8 :=
  ⟨by decide +kernel, by decide +kernel, by decide +kernel, by decide +kernel, by decide +kernel, by decide +kernel, by decide +kernel,
    by decide +kernel, by decide +kernel, fun _ => tag_small rfl⟩

/-! ## Holds and droops -/

/-- A held core one cycle before the limit of its streams and at it; a hold one cycle before its limit, at it, and with a debugger;
clusters of both regimes; a domain that is frozen. -/
theorem witness_HoldsAndDroops :
    let held (n : Nat) : State := { on .a { core0 with held := true, heldSince := 5 } with clock := n }
    let h : Hold := ⟨0, 3, false, 0x11, 0, 0, 0, 0, 0, 0, [], 0, 5⟩
    let s (n : Nat) (attached : List Nat) : State := { on .a { core0 with held := true, heldSince := 5 } with holds := [h], clock := n, attached := attached, holdLimit := 1 }
    let g (frozen : List Freeze) : State := { on .a core0 with
      clock := 9, clusters := [(0, { Cluster.reset with gauge := true, frozen := frozen, since := 7 })] }
    (((held 0x100005).core 0).held = true ∧ ((held 0x100005).core 0).heldSince + 2 ^ 20 ≤ (held 0x100005).localCount 0 ∧
      ((held 0x100005).stream ⟨0, .x⟩).run = .running) ∧
      ((held 0x100004).localCount 0 < ((held 0x100004).core 0).heldSince + 2 ^ 20 ∧ (core0.held = false)) ∧
      (holdAt (s 5 []) 3 0 = some 0 ∧ (s 5 []).holds[0]? = some h) ∧ (s 1300000004 []).clock < h.began + (s 5 []).holdLimit * 1300000000 ∧
      h.ctx ∈ (s 1300000005 [0]).attached ∧ (h.ctx ∉ (s 5 []).attached ∧ h.began + (s 5 []).holdLimit * 1300000000 ≤
        (s 1300000005 []).clock ∧ ((s 5 []).ctx h.ctx).dw 6 = 0 ∧ (s 5 []).session.phase = .opened ∧
        ((s 1300000005 []).core 0).held = true ∧ ((s 1300000005 []).core 0).job.map Job.ctx = some h.ctx) ∧
      ((on .a core0).cluster 0).gauge = false ∧ ((on .a core0).cluster 0).frozen = [] ∧ (on .a core0).heat = .normal ∧ 8 ≤ 8 ∧ 8 < 9 ∧
      ((g []).cluster 0).gauge = true ∧
      (0 ∈ gaugeDomain (g []) 0 ∧ droopOf (g []) 0 = none) ∧
      (((g [.droop 7]).cluster 0).frozen = [.droop 7] ∧ gaugeDomain (g [.droop 7]) 0 = [0] ∧ ((g [.droop 7]).cluster 0).since = 7 ∧
        7 ≤ (g [.droop 7]).clock) := by
  decide +kernel

end Sys2Proof.Tests
end

