-- ==== Sys2Proof/Tests/WitnessF.lean ====
section
/-! SUPPORT. States and operands that meet the hypotheses of the statements on the fabric, dispatch, the encoding and the whole step,
clause by clause. -/

namespace Sys2Proof.Tests

set_option Elab.async false

open Sys2Proof.Machine

/-! ## Requests and responses -/

/-- A request of 8 bytes of package 1. -/
def ask (dst inc pa op epoch : Nat) : FabReq := ⟨1, 5, dst, pa, inc, 3, .a, 8, op, 0, false, false, false, false, epoch, List.replicate 16 1⟩

/-- A request of another package's, of a stale incarnation, of no home, past the end of a stack, ending with it, one on a line that
cannot be corrected; an atomic, plain and releasing; responses that are awaited and not; mail that comes and goes. -/
theorem witness_RequestsAreServed :
    let s : State := on .a core0
    let e := rangeEnd 0x300000
    let bad : State := { s with badMem := [0x300000], tags := [(0x300000, 2)] }
    let q : OutReq := ⟨9, 1, 0, 8, 0, true, 5, .pend 0 0, none⟩
    let t : State := { s with requests := [q], peers := [(1, ⟨true, 0, 0⟩)] }
    let out (m : MboxMsg) : State := { t with cores := [(0, { core0 with outbound := [m] })] }
    let due : State := { out { mailTo 1 0 0 with rel := 4 } with relActs := [⟨0, 3, [1], 0, 1, none⟩] }
    (ask 7 0 0x300000 0 0).dstPkg ≠ s.pkgId ∧
      ((ask 0 1 0x300000 0 0).dstPkg = s.pkgId ∧ (ask 0 1 0x300000 0 0).srcPkg ≠ s.pkgId ∧
        (ask 0 1 0x300000 0 0).inc % 65536 ≠ s.incarnation % 65536) ∧
      Reaches s (ask 0 0 0x300000 0 0) ∧ assigned (2 ^ 44 - 8) = false ∧ rangeEnd (e - 7) < e - 7 + 8 ∧
      (assigned (e - 8) = true ∧ e - 8 + 8 ≤ rangeEnd (e - 8) ∧ readBad s (e - 8) 8 = none ∧ storeBad s (e - 8) 8 = false ∧
        s.mem.wf = true) ∧ (∃ c, readBad bad 0x300000 8 = some c) ∧ (storeBad bad 0x300004 2 = true ∧ Reaches bad (ask 0 0 0x300000 0 0)) ∧
      ((List.replicate 8 (1 : Byte)).length = 8 ∧ (ask 0 0 0x300000 15 0).epoch = 0) ∧ (ask 0 0 0x300000 0 1).epoch ≠ 0 ∧ s.clears = [] ∧
      (∀ q ∈ s.requests, q.tid = 5 → q.reply ≠ none) ∧
      (t.requests.find? (fun q => q.tid == 9 && q.reply.isNone) = some q ∧ t.ops = [] ∧ t.devWrites = [] ∧ 0x48 ∈ causeCodes ∧ 0x08 ∉ causeCodes) ∧
      ((mailTo 1 0 0).dstPkg ≠ s.pkgId ∧ ({ mailTo 0 511 0 with srcPkg := 1 }).dstPkg = s.pkgId ∧
        ({ mailTo 0 511 0 with srcPkg := 1 }).srcPkg ≠ s.pkgId ∧ (mailTo 0 511 0).inc % 65536 = s.incarnation % 65536 ∧
        ({ mailTo 0 511 0 with inc := 7 }).inc % 65536 ≠ s.incarnation % 65536 ∧ ({ mailTo 0 511 0 with rel := 1 }).rel ≠ 0) ∧
      (∀ x ∈ (s.core 0).outbound, x.dstPkg = s.pkgId) ∧
      (firstAway (out (mailTo 1 0 0)) ((out (mailTo 1 0 0)).core 0).outbound = some (0, mailTo 1 0 0) ∧ (t.peer 1).up = true) ∧
      (∃ x ∈ due.relActs, x.core = 0 ∧ x.epoch + 1 = 4) ∧ t.relActs = [] ∧
      (firstAway (out (mailTo 2 0 0)) ((out (mailTo 2 0 0)).core 0).outbound = some (0, mailTo 2 0 0) ∧ (t.peer 2).up = false) :=
  ⟨by decide +kernel, by decide +kernel, by refine ⟨?_, ?_, ?_⟩ <;> decide +kernel, by decide +kernel, by decide +kernel, by decide +kernel,
    ⟨0x50, by decide +kernel⟩, ⟨by decide +kernel, by refine ⟨?_, ?_, ?_⟩ <;> decide +kernel⟩, by decide +kernel⟩

/-! ## Releases, barriers and dispatch -/

/-- Releases of package 1 that are held, of both kinds, and that are not; acts of this package that are not cleared, and a write of a
core to itself that is, while the core stands still and while it does not. -/
theorem witness_ReleasesAndDispatch_releases :
    let mail : MboxMsg := { mailTo 0 0 0 with srcPkg := 1, rel := 4 }
    let mine : MboxMsg := { mailTo 0 0 0 with srcCore := 0, rel := 4 }
    let s (l : List Release) : State := { on .a core0 with releases := l }
    let own : State := { on .a core0 with relActs := [⟨0, 3, [1], 0, 1, none⟩] }
    let still : State := { s [.mail mine] with clusters := [(0, { Cluster.reset with frozen := [.fault 0 .a] })] }
    1 ≠ (s []).pkgId ∧ (s []).releases.find? (Release.is 1 1 3) = none ∧
      (s [.mail mail]).releases.find? (Release.is 1 1 3) = some (.mail mail) ∧
      ((s [.atomic (ask 0 0 0x300000 0 4)]).releases.find? (Release.is 1 3 3) = some (.atomic (ask 0 0 0x300000 0 4)) ∧
        storeBad (s []) 0x300000 8 = false ∧ readBad (s []) 0x300000 8 = none) ∧ (∃ x ∈ own.relActs, x.core = 0 ∧ x.epoch = 3) ∧
      (s [.mail mine]).relActs = [] ∧ (s [.mail mine]).releases.find? (Release.is 0 0 3) = some (.mail mine) ∧ mine.dstPkg = 0 ∧
      mine.dstCore = 0 ∧ (s [.mail mine]).still 0 = false ∧ still.still 0 = true :=
  ⟨by decide +kernel, by decide +kernel, by decide +kernel, by decide +kernel, ⟨_, List.mem_singleton.mpr rfl, by decide, by decide⟩,
    by decide +kernel⟩

/-- The leader of a launch of two and of three packages, of which one has arrived or ended; a package that is not the leader, and its
part that waits to start, granted and not, loaded and not; a launch of one package. -/
theorem witness_ReleasesAndDispatch_parts :
    let l (pkgs ended : List Nat) (bars : List (Nat × Nat × Nat × Nat)) : Launch :=
      { launch0 with started := false, begun := [], packages := pkgs, endedOn := ended, remoteBars := bars }
    let part (acked : Bool) : Launch := { l [0, 1] [] [] with grants := [⟨4, 1, [0], acked⟩], loaded := some ([], []) }
    let s (pkg : Nat) (m : Launch) (k : Core) : State := { on .a k with pkgId := pkg, launches := [m], recs := [(0, oneCore)] }
    let two := s 0 (l [0, 1] [0] [(0, 1, 2, 1)]) core0
    let three := s 0 (l [0, 1, 2] [] [(0, 1, 2, 1)]) core0
    let second (a : Bool) := s 1 (part a) Core.reset
    two.known? 9 = none ∧ two.launches.find? (fun l => l.record == 0) = some (l [0, 1] [0] [(0, 1, 2, 1)]) ∧
      ((l [0, 1] [0] []).leader two = two.pkgId ∧ 1 ∈ [0, 1] ∧ 1 ≠ two.pkgId ∧
        ∀ b ∈ (l [0, 1] [0] [(0, 1, 2, 1)]).remoteBars, ¬ (b.1 = 1 ∧ b.2.2.1 = 2)) ∧
      (∀ p ∈ [0, 1], p = 1 ∨ ∃ b ∈ (l [0, 1] [0] [(0, 1, 2, 1)]).remoteBars, b.1 = p ∧ b.2.2.1 = 2) ∧
      (three.launches.find? (fun l => l.record == 0) = some (l [0, 1, 2] [] [(0, 1, 2, 1)]) ∧
        ∃ p ∈ [0, 1, 2], p ≠ 1 ∧ ∀ b ∈ (l [0, 1, 2] [] [(0, 1, 2, 1)]).remoteBars, ¬ (b.1 = p ∧ b.2.2.1 = 2)) ∧
      (1 ∉ (l [0, 1] [0] []).endedOn ∧ (l [0, 1] [0] []).wave = 0 ∧ (∀ p ∈ [0, 1], p = 1 ∨ p ∈ (l [0, 1] [0] []).endedOn) ∧
        (l [0, 1] [0] []).sent = false ∧ (two.lrec 0).waves ≤ 0 + 1) ∧
      ((l [0] [] []).packages.length ≤ 1 ∧ 1 < (l [0, 1] [] []).packages.length ∧
        (part true).leader (second true) ≠ (second true).pkgId) ∧
      (4 / 4 = (second true).pkgId ∧ (∃ g ∈ (part true).grants, g.die = 4 ∧ g.acked = true) ∧
        (∀ g ∈ (part false).grants, ¬ (g.die = 4 ∧ g.acked = true)) ∧ 4 % 4 ∉ (part true).begun ∧ (l [0, 1] [] []).loaded = none ∧
        (part true).loaded = some ([], []) ∧ (second true).whole 0 = true ∧ ((part true).cores.map Prod.fst).Nodup ∧
        (∀ p ∈ (part true).cores, dieOf p.1 = 4 % 4 ∧ ((second true).core p.1).job = none ∧ ((second true).core p.1).held = false)) ∧
      (4 / 4 ≠ two.pkgId ∧ (∀ c ∈ [1], c < 512 ∧ dieOf c = 0 % 4) ∧ rangeFree two [1] = true) := by
  exact ⟨by decide +kernel, by decide +kernel, by decide +kernel, by decide +kernel, by decide +kernel, by decide +kernel, by decide +kernel,
    by decide +kernel, by decide +kernel⟩

/-- A launch that the leader has left, of which the other part is still awaited, or the other two parts; starts that are given by the
leader's message and by an acknowledgement to it; a grant to a die that has failed and to one that has not. -/
theorem witness_ReleasesAndDispatch_left :
    let l (pkgs : List Nat) : Launch := { launch0 with started := false, begun := [], packages := pkgs, endedOn := [0] }
    let s (pkgs : List Nat) (here : Bool) : State := { on .a core0 with
      leftLaunches := [l pkgs], launches := if here then [l [0, 1]] else [], recs := [(0, oneCore)] }
    let far (due : List Nat) (acked : Bool) : Launch := { l [0, 1] with due := due, grants := [⟨4, 1, [0], acked⟩] }
    let second (m : Launch) : State := { on .a Core.reset with pkgId := 1, launches := [m], recs := [(0, oneCore)] }
    let down : State := { s [0, 1] true with failedDies := [0] }
    (s [0, 1] false).known? 0 = none ∧ leftFor (s [0, 1] false) 1 0 0 = some (l [0, 1]) ∧ leftFor (s [0, 1] false) 2 0 0 = none ∧
      leftFor (on .a core0) 1 0 0 = none ∧ (∀ p ∈ (l [0, 1]).packages, p = 1 ∨ p ∈ (l [0, 1]).endedOn) ∧
      leftFor (s [0, 1, 2] false) 1 0 0 = some (l [0, 1, 2]) ∧ (∃ p ∈ (l [0, 1, 2]).packages, p ≠ 1 ∧ p ∉ (l [0, 1, 2]).endedOn) ∧
      (4 % 4 ∈ (far [0] false).due) ∧
      ((far [] true).packages.headD (second (far [] true)).pkgId ≠ (second (far [] true)).pkgId ∧
        ∃ g ∈ (far [] true).grants, g.die = 4 ∧ g.acked = true) ∧
      (4 % 4 ∉ (far [] false).due ∧ ∀ g ∈ (far [] false).grants, ¬ (g.die = 4 ∧ g.acked = true)) ∧
      ((l [0, 1]).leader down = down.pkgId ∧ down.dieFailed (0 % 4) = true ∧ (s [0, 1] true).dieFailed (0 % 4) = false) := by
  decide +kernel

/-- A record that spans two packages and is armed: a grant of a core that is free and of one that is not; heartbeats of a die that has
failed and of one that has not, one cycle before its limit and at it. -/
theorem witness_ReleasesAndDispatch_dies :
    let two : Rec := ⟨[(0, 0x1002301), (2, 0x100000), (16, 0x20051), (17, 0x10014)], 0, []⟩
    let s (k : Core) : State := { on .a k with pkgId := 1, launches := [], recs := [(0, two)] }
    let t (n : Nat) (failed : List Nat) : State := { on .a core0 with clock := n, failedDies := failed }
    let r := (s core0).lrec 0
    let fits (k : Core) (gone : List Nat) : Bool := [0].all (coreFits (s k) gone (needed (s k) 0) r.gauge)
    (4 / 4 = (s core0).pkgId ∧ 1 < r.packages ∧ (∀ c ∈ [0], c < 512 ∧ dieOf c = 4 % 4) ∧
      (s core0).launches.find? (fun l => l.record == 0) = none ∧ readyHere (s core0) 0 = true ∧
      readyHere { s core0 with accepted := 0 } 0 = false ∧ savedOf (s core0) 0 = none) ∧
      (fits core0 [] = false ∧ enoughVictims (fits core0) (victims (s core0) 0) = none) ∧ fits Core.reset [] = true ∧
      toChange (s Core.reset) r.gauge (unitsAmong 2 [0] []) = [] ∧
      (r.d 9 = 0 ∧ r.d 11 = 0 ∧ (s Core.reset).failedDies = [] ∧ 0 < rankOf r 1 ∧ rankOf r 1 ≤ (s Core.reset).pkgId) ∧
      ((t 0 []).powered = true ∧ 3 ∉ (t 0 []).failedDies ∧ 3 ∈ (t 0 [3]).failedDies) ∧
      ((t 38999 []).clock < tget (t 38999 []).beats 3 0 + 39000 ∧ tget (t 39000 []).beats 3 0 + 39000 ≤ (t 39000 []).clock ∧
        (t 39000 []).session.phase = .opened) := by
  decide +kernel

/-! ## The encoding and the whole step -/

/-- A context in which every form decodes: supervisor, rib mode, every feature. -/
def anyCtx (e : Eng) : DCtx := ⟨e, .np1, false, false, BitVec.allOnes 256⟩

/-- A form of one word and one of two, at the limits of their fields. -/
theorem witness_EncodeThenDecode :
    let i : Instr := .ld 31 (.reg 31) 3 false (.imm 255)
    let j : Instr := .mzero 3 .s32 ⟨.np0, 3, 3, 15, some 15, some 15⟩
    (i.wf .a = true ∧ (encode i).length = 1 ∧ i ≠ .unassignedMajor 0 ∧ (anyCtx .a).user = false ∧ profileFits (anyCtx .a) i = true) ∧
      (j.wf .m = true ∧ (encode j).length = 2 ∧ j ≠ .unassignedMajor 0 ∧ profileFits (anyCtx .m) j = true) := by
  decide +kernel

/-- A step at a nop in a state whose memory and tile stores are canonical. -/
theorem witness_StepKeepsMemoryCanonical :
    let s := State.reset.withFetchWord 32 0
    s.mem.wf = true ∧ s.flash.wf = true ∧ s.cores.all (fun x => x.2.tile.wf) = true ∧ s.lifelines = [] ∧
      (match step s with | .next _ => true | _ => false) = true := by
  decide +kernel

end Sys2Proof.Tests
end

