-- ==== Sys2Proof/Tests/WitnessH.lean ====
section
/-! SUPPORT. States and operands that meet the hypotheses of the statements on the host, the debugger, heat, links and peers, clause by
clause. -/

namespace Sys2Proof.Tests

set_option Elab.async false

open Sys2Proof.Machine

/-! ## The session -/

/-- A hash, a signature and a measurement are values that nothing fixes, so no concrete key meets a premise on them: for every request
and acceptance one of the statement's clauses applies. -/
theorem witness_HostSession_open (nonce hostKey sig ownerKey : List Byte) (h : nonce.length = 32) :
    let s : State := { on .a core0 with session := Session.reset }
    s.session.phase ≠ .opened ∧
      ((sm3 ownerKey ≠ Config.ownerHash ∨ Config.sm2Verify ownerKey (nonce ++ hostKey) sig = false) ∨
        (nonce.length = 32 ∧ sm3 ownerKey = Config.ownerHash ∧ Config.sm2Verify ownerKey (nonce ++ hostKey) sig = true)) := by
  refine ⟨by decide +kernel, ?_⟩
  by_cases h1 : sm3 ownerKey = Config.ownerHash
  · cases h2 : Config.sm2Verify ownerKey (nonce ++ hostKey) sig
    · exact .inl (.inr rfl)
    · exact .inr ⟨h, h1, rfl⟩
  · exact .inl (.inl h1)

theorem witness_HostSession_accept (eph sig : List Byte) :
    let s : State := { on .a core0 with session := { Session.reset with phase := .offered } }
    let x := s.session
    let signed := Config.sm2Verify x.hostKey (x.transcript ++ eph ++ bytesOf 32 s.accepted.toNat) sig
    x.phase = .offered ∧ (s.accepted &&& 0x7FF = s.accepted ∧ (0x800 : BitVec 256) &&& 0x7FF ≠ 0x800 ∧
      ((0x7 : BitVec 256) ≠ s.accepted ∧ (s.ctx 0).live = true)) ∧ (signed = false ∨ signed = true) :=
  ⟨rfl, by decide +kernel, by simp⟩

/-- An opened session and one that is not; 30 s one cycle before and at the end; a message that is not the next one, the third that
fails; the next message, in recovery and not, by a port that recovery has and by one that it has not; a command that waits for the end
of a context and for a bulk command; the limits of SET. -/
theorem witness_HostSession_rest (pa n : Nat) :
    let s : State := on .a core0
    let t : State := { s with recovery := true, session := { s.session with failed := 2 } }
    let ending : State := { s with endings := [⟨3, some ⟨1, 0⟩⟩] }
    let bulk : State := { s with ops := [⟨1, 1, 0, true, [], [], false, true⟩] }
    (s.session.phase = .opened ∧ ({ s with session := Session.reset } : State).session.phase ≠ .offered) ∧
      (({ s with clock := 39000000000 } : State).session.last + 30 * 1300000000 ≤ 39000000000 ∧
        38999999999 < s.session.last + 30 * 1300000000) ∧
      (2 ≠ s.session.seqIn + 1 ∧ ¬ t.session.failed + 1 < 3 ∧ s.session.failed + 1 < 3) ∧
      (HostNext s ⟨1, 3⟩ ∧ HostNext t ⟨1, 0⟩ ∧ ¬ HostNext t ⟨1, 1⟩ ∧ ¬ HostNext s ⟨1, 4⟩) ∧ (s.recovery = false ∧ t.recovery = true) ∧
      ((∃ e ∈ ending.endings, e.command ≠ none) ∧ (∃ o ∈ bulk.ops, o.answers = true) ∧ ∀ e ∈ t.endings, e.ctx ≠ 3) ∧
      (waitingOp t ⟨1, 0⟩ true = none ∧ waitingOp t ⟨1, 0⟩ false = none) ∧
      (Config.bootFlash pa n = true ∨ Config.bootFlash pa n = false) ∧
      0x33 ∉ [0x01, 0x02, 0x10, 0x11, 0x20, 0x21, 0x30, 0x38, 0x3F] ∧ 224 % 7 = 0 ∧ 225 % 7 ≠ 0 := by
  unfold HostNext
  exact ⟨by decide +kernel, by decide +kernel, by decide +kernel, by decide +kernel, by decide +kernel, by decide +kernel,
    by decide +kernel, by cases Config.bootFlash pa n <;> simp, by decide +kernel⟩

/-- A command that waits: behind the end of a context, behind a bulk command, behind an older one that waits, and behind nothing any more;
and a message of no number that is awaited. -/
theorem witness_HostSession_waits :
    let i : Instr := .setHoldLimit ⟨1, 0⟩ 3600
    let s (l : List WaitingCmd) (n : Nat) : State := { on .a core0 with session := { (on .a core0).session with waiting := l, seqIn := n } }
    let ending (l : List WaitingCmd) (n : Nat) : State := { s l n with endings := [⟨3, some ⟨7, 0⟩⟩] }
    let bulk (l : List WaitingCmd) (n : Nat) : State := { s l n with ops := [⟨1, 1, 0, true, [], [], false, true⟩] }
    let w : WaitingCmd := ⟨1, false, i⟩
    ((s [] 0).session.phase = .opened ∧ (s [] 0).recovery = false) ∧
      ((∃ e ∈ (ending [] 0).endings, e.command ≠ none) ∧ 1 = (ending [] 0).session.seqIn + 1 ∧ (ending [] 0).session.waiting = []) ∧
      ((∃ o ∈ (bulk [w] 1).ops, o.answers = true) ∧ w ∈ (bulk [w] 1).session.waiting) ∧
      (∃ y ∈ (s [⟨0, true, .memr ⟨0, 0⟩ (.phys 0) 4⟩, w] 1).session.waiting, y.seq < 1) ∧
      (w ∈ (s [w] 1).session.waiting ∧ (s [w] 1).endings = [] ∧ (s [w] 1).ops = [] ∧ ∀ y ∈ (s [w] 1).session.waiting, ¬ y.seq < 1) ∧
      (3 ≠ (s [w] 1).session.seqIn + 1 ∧ ∀ y ∈ (s [w] 1).session.waiting, y.seq ≠ 3) := by
  decide +kernel

/-! ## Commands -/

/-- A physical range that ends at the end of a stack, one that passes it, and one that no stack has; a virtual range of a live context
that ends with its page, a context that is not live, an address that is not canonical and one that is not mapped. -/
theorem witness_HostCommands_memory :
    let s := on .a core0
    let e := rangeEnd 0x300000
    (s.recovery = false ∧ waitingOp s ⟨1, 0⟩ true = none ∧ waitingOp s ⟨1, 0⟩ false = none) ∧ assigned (e - 4) = true ∧ (e - 4) + 4 ≤ rangeEnd (e - 4) ∧
      (s.mem.wf = true ∧ storeBad s (e - 4) 4 = false ∧ readBad s (e - 4) 4 = none) ∧
      (rangeEnd (e - 4) < (e - 4) + 5 ∧ assigned (2 ^ 44 - 1) = false) ∧
      ((s.ctx 0).live = true ∧ (s.ctx 5).live = false ∧ canonical 0x303FFC = true ∧ 0x303FFC % 2 ^ 14 + 4 ≤ 2 ^ 14) ∧
      (∃ tr, walk s 0 (0x303FFC % 2 ^ 57) = .ok tr ∧ (tr.pkg == s.pkgId && tr.attr.writable && !tr.attr.rep &&
        tr.pa (0x303FFC % 2 ^ 57) == 0x303FFC) = true) ∧
      canonical (2 ^ 60) = false ∧ canonical 0x80000000000 = true ∧
      ∃ x, x = walk s 0 (0x80000000000 % 2 ^ 57) ∧ (match x with | .error c => c == 0x10 | .ok _ => false) = true :=
  ⟨by decide +kernel, by decide +kernel, by decide +kernel, by decide +kernel, by decide +kernel, by decide +kernel,
    of_answers (by decide +kernel), by decide +kernel, by decide +kernel, ⟨_, rfl, by decide +kernel⟩⟩

/-- Bulk commands that have been accepted and take effect: a write and a read of a line that is good, and of one that is not. -/
theorem witness_HostCommands_bulk :
    let op (write : Bool) (g : Seg) : HostOp := ⟨7, 1, 0, write, [g], if write then List.replicate 8 1 else [], false, true⟩
    let s (write : Bool) : State := { on .a core0 with ops := [op write (part 0x300000 8)] }
    let bad (write : Bool) : State := { s write with badMem := [0x300000], tags := [(0x300000, 2)] }
    (∀ write, waitingOp (s write) ⟨1, 0⟩ write = some (op write (part 0x300000 8)) ∧ (s write).mem.wf = true ∧
      ∀ q ∈ (s write).requests, q.owner ≠ .host 7) ∧
      (storeBad (s true) 0x300000 8 = false ∧ storeBad (bad true) 0x300000 8 = true) ∧ readBad (s false) 0x300000 8 = none ∧
      (readBad (bad false) 0x300000 8).isSome = true := by
  decide +kernel

/-- A good descriptor of slot 63, one of slot 0 that is live, a bad one, and one of a gauge context where that feature is not accepted;
a record of the last number that is armed, built, or bad, and one that needs more watts than the budget. -/
theorem witness_HostCommands_records :
    let s := on .a core0
    let desc (d0 : Word) : List Word := d0 :: 0x10000 :: List.replicate 14 0
    let rib : State := { s with accepted := 0x7FE }
    let t (r : Rec) : State := { s with recs := [(4095, r)] }
    let gauge (budget : Nat) : State := { s with
      gaugeBudget := budget, ctxs := [(1, ⟨true, desc 0x30F101, [], 0⟩)], recs := [(4095, ⟨[(0, 0x13101), (2, 4), (16, 0x10014)], 0, []⟩)] }
    (descBad s (desc 0x103F) = false ∧ (s.ctx 63).live = false ∧ field ((desc 0x103F).headD 0) 5 0 = 63) ∧
      (descBad s (desc 0x1000) = false ∧ (s.ctx 0).live = true) ∧ descBad s (desc 0x3F) = true ∧
      ((desc 0x1101).length = 16 ∧ ((desc 0x1101).getD 0 0).getLsbD 8 = true ∧ rib.accepted.getLsbD 0 = false) ∧
      ((t ⟨[(0, 0x2201)], 0, []⟩).lrec 4095).armed = true ∧ ((t ⟨[(0, 0x2101)], 0, []⟩).lrec 4095).armed = false ∧
      recordBad (t ⟨[(0, 0x2101)], 0, []⟩) 4095 ((t ⟨[(0, 0x2101)], 0, []⟩).lrec 4095) = some 2 ∧
      recordBad (t ⟨[(0, 0x2101), (2, 4), (16, 0x10014)], 0, []⟩) 4095 ⟨[(0, 0x2101), (2, 4), (16, 0x10014)], 0, []⟩ = none ∧
      (recordBad (gauge 6) 4095 ((gauge 6).lrec 4095) = none ∧ ((gauge 6).lrec 4095).gauge = true) ∧
      admits (gauge 6) ((gauge 6).lrec 4095) = false ∧ admits (gauge 7) ((gauge 7).lrec 4095) = true := by
  decide +kernel

/-- A context without jobs that ends at once, and one that ends while a job is there. -/
theorem witness_HostCommands_end :
    let s := on .a Core.reset
    (s.ctx 0).live = true ∧ (s.ctx 1).live = false ∧ (∀ e ∈ s.endings, e.ctx ≠ 0) ∧
      (let t : State := { on .a core0 with endings := [⟨0, some ⟨1, 0⟩⟩] };
        (∃ e ∈ t.endings, e.ctx = 0) ∧ (t.core 0).job ≠ none ∧ (t.core 0).ctx = 0 ∧ (t.core 0).held = false) ∧ ∀ c, (s.core c).job = none ∨ (s.core c).ctx ≠ 0 := by
  refine ⟨rfl, rfl, by decide +kernel, by decide +kernel, fun c => .inl ?_⟩
  have := tget_all (fun k : Core => k.job.isNone) Core.reset rfl (on .a Core.reset).cores rfl c
  simpa [State.core] using this

/-! ## The debugger -/

/-- A context that is not live, is attached, and is not; a core that does not exist, one without a job, and one of the context, in rib
mode and in gauge mode; a job that is reachable and one that is not. -/
theorem witness_DebugAndReset :
    let s (k : Core) (attached : List Nat) : State := { on .a k with attached := attached }
    let gauge (frozen : List Freeze) : State := { on .a core0 with
      ctxs := [(0, ⟨true, [0x100], [], 0⟩)], clusters := [(0, { Cluster.reset with gauge := true, frozen := frozen })] }
    let stopped : Core := { core0 with stopped := true }
    (HostNext (s core0 []) ⟨1, 0⟩ ∧ (s core0 []).recovery = false) ∧ ((s core0 []).ctx 1).live = false ∧ ((s core0 []).ctx 0).live = true ∧
      0 ∉ (s core0 []).attached ∧ 0 ∈ (s core0 [0]).attached ∧ ((s core0 []).core 1).job = none ∧
      (((s core0 []).core 0).job ≠ none ∧ ((s core0 []).core 0).ctx = 0 ∧ ((s core0 []).ctx 0).gauge = false) ∧
      (((gauge []).ctx 0).gauge = true ∧ .debug ∉ ((gauge []).cluster (clusterOf 0)).frozen ∧ ((gauge []).core 0).job ≠ none ∧
        (gauge []).domain 0 (dieOf 0) = [0]) ∧
      ((gauge []).core 0).a.at_ = .free ∧ core0.x.at_ = .free ∧ core0.x.stood = none ∧
      (tfind ((s core0 []).ctx 0).handles 5 = none ∧ (5 : Word) ≠ BitVec.allOnes 64 ∧
        (tfind ({ (s core0 []).ctx 0 with handles := [(5, 3)] } : Ctx).handles 5).isSome = true) ∧
      reachable (s core0 []) 0 = false ∧ reachable (s stopped []) 0 = true ∧ (0x100 : Vec).toNat % 4 = 0 ∧ (0x102 : Vec).toNat % 4 ≠ 0 := by
  exact ⟨⟨⟨rfl, by decide, rfl, by decide, by decide⟩, rfl⟩, by decide +kernel⟩

/-! ## Heat, links and peers -/

/-- Every level of heat, powered and not; the last port of each kind with its link up and down; the last package; a request one cycle
before its time runs out and at it. -/
theorem witness_HeatLinksAndPeers :
    let s : State := on .a core0
    let hot (h : Heat) (p : Bool) : State := { s with heat := h, powered := p }
    let linked : State := { s with ports := [(35, ⟨true, [], 0⟩)], routes := [(4095, [35])] }
    let req : OutReq := ⟨1, 4095, 0, 8, 0, false, 5, .pend 0 0, none⟩
    let asks (n : Nat) : State := { s with requests := [req], peers := [(4095, ⟨true, 7, 5⟩)], clock := n }
    s.session.phase = .opened ∧ (hot .normal true).heat = .normal ∧ (hot .hot true).heat ≠ .normal ∧ (hot .hotter true).heat = .hotter ∧
      (hot .down false).heat = .down ∧ (hot .down false).powered = false ∧ s.powered = true ∧
      ((linked.port 35).up = true ∧ (s.port 35).up = false ∧ tget linked.routes 4095 [] = [35]) ∧ (4095 ≠ s.pkgId ∧ 0 = s.pkgId) ∧
      (((asks 5).peer 4095).inc ≠ 8 ∧ ((asks 5).peer 4095).inc = 7) ∧ (s.ops = [] ∧ s.devWrites = [] ∧ s.endings = []) ∧
      ((s.peer 4095).up = false ∧ (∀ q ∈ s.requests, q.dst = 4095 → q.reply ≠ none) ∧
        (asks 130004).clock < ((asks 130004).peer 4095).heard + 130000) ∧
      (((asks 130005).peer 4095).up = true ∧ (∃ q ∈ (asks 130005).requests, q.dst = 4095 ∧ q.reply = none) ∧
        ((asks 130005).peer 4095).heard + 130000 ≤ (asks 130005).clock) := by
  decide +kernel

end Sys2Proof.Tests
end

