-- ==== Sys2Proof/Tests/WitnessM.lean ====
section
/-! SUPPORT. States and operands that meet the hypotheses of the statements on the matrix engine, clause by clause. -/

namespace Sys2Proof.Tests

set_option Elab.async false

open Sys2Proof.Machine

/-- `core0` with the registers of M. -/
def regsM (l : Tbl Word) : Core := core0With .m (fun t => { t with regs := l })

/-- A command without predecessors and tokens. -/
def cmdOf (op : MOp) (st : CmdState) : Cmd := ⟨9, 2, op, st, 0, 0, [], 0, false, 0, 0, [], [], [], none, 0, [], 0⟩

def ranOf (op : MOp) : Cmd := { cmdOf op .issued with checked := true }

/-- `core0` with one command in its window. -/
def windowed (c : Cmd) : Core := { core0 with ms := { core0.ms with window := [c] } }

def mFree (k : Core) (c : MCtl) : Bool :=
  k.hasEngines (partners .m c.take) && k.hasEngines (partners .m c.give) && decide (k.ms.window.length < 16) &&
    k.fullFifo (giveFifos .m (c.give % 4)) == none

theorem mReady_on {k : Core} {c : MCtl} {regs : List Nat} (h : mFree k c = true) (he : k.m.empty = []) (hl : k.m.loops = []) :
    MReady (on .m k) (me .m) c regs := by
  simp only [mFree, Bool.and_eq_true, beq_iff_eq, decide_eq_true_eq] at h
  obtain ⟨⟨⟨h1, h2⟩, h3⟩, h4⟩ := h
  exact ⟨rfl, rfl, full_on he, h1, h2, h3, h4, straight_on hl⟩

def plainM : MCtl := ⟨.np0, 0, 0, 3, none, none⟩
def syncedM : MCtl := ⟨.np0, 1, 1, 3, some 2, some 3⟩

/-- No command with the id and one of every kind; MSKIP at row tags 255 and 256 beyond its base, of a row that is skipped, one that
is placed, and of commands that are retired or wait; a cancelled command. -/
theorem witness_MatrixCommands_short :
    let run (mode : MMode) := MOp.run 1 0 4 10 mode .f32 .np0 none
    let sk (a : Word) (c : Cmd) : Core := { windowed c with m := { core0.m with regs := [(1, a)] } }
    let u (a : Word) := (regOf (on .m (sk a (cmdOf (run .a) .entered))) (me .m) 1).toNat
    let found (k : Core) := youngest (k.allCmds.filter (fun c => c.cid == 2 && c.op.isRun))
    let skipped := { cmdOf (run .a) .issued with skipped := [11] }
    let placed := { cmdOf (run .p) .issued with placed := [1] }
    (∀ k : Core, k.m = mid .m → CanRun (on .m k) (me .m) [2] 4) ∧ (∀ a c, CanRun (on .m (sk a c)) (me .m) [1] 4) ∧
      core0.cmdOf 2 = none ∧ (windowed (cmdOf (run .a) .entered)).cmdOf 2 = some (cmdOf (run .a) .entered) ∧
      (windowed (cmdOf (.zero 1 .f32) .suspended)).cmdOf 2 = some (cmdOf (.zero 1 .f32) .suspended) ∧
      65535 < u 65536 ∧ u 65535 ≤ 65535 ∧ found core0 = none ∧
      found (windowed (cmdOf (run .a) .retired)) = some (cmdOf (run .a) .retired) ∧
      found (windowed (cmdOf (run .a) .entered)) = some (cmdOf (run .a) .entered) ∧
      256 ≤ (u 266 + 65536 - 10) % 65536 ∧ (u 265 + 65536 - 10) % 65536 < 256 ∧
      (11 ∈ skipped.skipped ∧ (11 + 65536 - 10) % 65536 < 256) ∧ ((11 + 65536 - 10) % 65536 ∈ placed.placed) ∧
      skipped.received + skipped.absent + 1 < 4 ∧ (cmdOf (run .a) .entered).state ≠ .issued ∧ u 12 ∉ skipped.skipped :=
  ⟨fun k h => runs_on (by show k.m.empty = []; rw [h]; rfl) (by show k.m.loops = []; rw [h]; rfl), fun _ _ => runs_on rfl rfl, by decide +kernel⟩

/-- The long forms, with tokens and without: each value of MWLD, MWLDS, MRUN, MANCH and MDRN at its limits and one beyond; a window
of sixteen commands. -/
theorem witness_MatrixCommands_long :
    let s (v : Word) := on .m (regsM [(1, v), (2, v), (3, v), (4, v)])
    let A (v : Word) := kreg (s v) (me .m) 1
    let v (x : Word) := (regOf (s x) (me .m) 3).toInt
    let full : Core := { core0 with ms := { core0.ms with window := List.replicate 16 (cmdOf (.zero 1 .f32) .entered) } }
    (∀ x regs, MReady (s x) (me .m) plainM regs) ∧ (∀ x regs, MReady (s x) (me .m) syncedM regs) ∧
      (127 < A 128 ∧ A 127 ≤ 127 ∧ A 0 = 0 ∧ 64 < A 65 ∧ (0 < A 64 ∧ A 64 ≤ 64 ∧ A 64 % 32 = 0)) ∧
      (4096 * A 127 + A 16 * rowLen .f32 (A 64) ≤ 0x80000 ∧ 4096 * A 0 + A 64 * rowLen .k4 (A 64) ≤ 0x80000) ∧
      (A 9 % 8 ≠ 0 ∧ A 0 < 8 ∧ 128 < A 136 ∧ (A 128 % 8 = 0 ∧ 8 ≤ A 128 ∧ A 128 ≤ 128) ∧ A 8 % 8 = 0 ∧
        4096 * A 0 + A 64 * (A 128 / 2) * Ty.f32.width ≤ 0x80000) ∧
      (2 ^ 24 ≤ A 0x1000000 ∧ A 0xFFFFFF < 2 ^ 24 ∧ 65536 ≤ A 65536 ∧ A 65535 < 65536) ∧
      (256 < A 255 + A 2 ∧ A 0 + A 256 ≤ 256 ∧ 0 < A 256) ∧ (v 0xFFFFFFFFFFFFFDFF < -512 ∧ 511 < v 512) ∧
      (-512 ≤ v 0xFFFFFFFFFFFFFE00 ∧ v 511 ≤ 511) ∧ 0x80000 < A 0x7FFF0 + 17 * A 1 ∧ A 0x7FFEF + 17 * A 1 ≤ 0x80000 ∧
      A 1 % 64 ≠ 0 ∧ (A 0x7FF00 % 64 = 0 ∧ A 0x7FF00 + A 1 * rowLen .f32 64 ≤ 0x80000) ∧ Full (s 1) (me .m) [4] ∧
      (Acts (on .m full) (me .m) ∧ Full (on .m full) (me .m) [] ∧ full.hasEngines (partners .m 1) = true ∧ 16 ≤ full.ms.window.length) :=
  by
  refine ⟨fun _ _ => mReady_on rfl rfl rfl, fun _ _ => mReady_on rfl rfl rfl, ?_⟩
  and_intros <;> first | exact full_on rfl | decide +kernel | exact rfl

/-- A weight buffer of one element. -/
def oneWb : WBuf := ⟨.f32, 1, 1, false, [(0, .fin false 1 0)], []⟩

/-- A feed of one row of a type that no MRUN is bound to. -/
def loose (ty : Ty) : Feed := ⟨0, ty, 1, 1, [], 0, none⟩

/-- Issue: a window with nothing that qualifies, a command that does, an MRUN that may run with its column mask, and one whose buffer
is empty; an unbound feed of the MRUN's type and of another. -/
theorem witness_MatrixEvents_issue :
    let k (c : Cmd) : Core := { windowed c with ms := { (windowed c).ms with wb := [(0, oneWb)], efull := [0] } }
    let z := cmdOf (.zero 1 .f32) .entered
    let load := cmdOf (.wld 0 0 1 1 .f32) .entered
    let run := cmdOf (.run 1 0 4 10 .a .f32 .np0 (some 0)) .entered
    let none_ := cmdOf (.run 1 2 4 10 .a .f32 .np0 none) .entered
    ((on .m (k z)).still 0 = false ∧ ((on .m (k z)).core 0).allEnded = false) ∧
      (recheck core0 = none ∧ oldestFit core0 [] core0.ms.window = none) ∧
      (recheck (k z) = none ∧ oldestFit (k z) [] (k z).ms.window = some z) ∧
      (recheck (k load) = none ∧ oldestFit (k load) [] (k load).ms.window = some load) ∧
      (recheck (k run) = none ∧ oldestFit (k run) [] (k run).ms.window = some run ∧ run.received + run.absent < 4 ∧
        runRefused (k run) 9 1 0 .a .f32 .np0 = none) ∧
      (recheck (k none_) = none ∧ oldestFit (k none_) [] (k none_).ms.window = some none_ ∧
        runRefused (k none_) 9 1 2 .a .f32 .np0 = some 0x25) ∧
      (∀ ty ∈ [Ty.f32, .s8], let f : Core := { k run with ms := { (k run).ms with feeds := [loose ty] } }
        recheck f = none ∧ oldestFit f [] f.ms.window = some run ∧ nextRun f = some run ∧ (∀ g ∈ f.ms.feeds, g.bound ≠ some run.seq) ∧
          f.ms.feeds.find? (fun g => g.bound.isNone) = some (loose ty)) ∧
      FeedsFit { k run with ms := { (k run).ms with feeds := [loose .f32] } } := by
  unfold FeedsFit
  decide +kernel

/-- Rows at the port, with data and absent, of an issued MRUN; a result that may be written. -/
theorem witness_MatrixEvents_rows :
    let cm := ranOf (.run 1 0 4 10 .p .f32 .np0 none)
    let row (tag : Nat) (data : Option (List Num)) : Row := ⟨0, tag, 0, 0x3F80, data⟩
    let p : Passage := ⟨row 10 (some [.fin false 1 0]), 9, cm.op, oneWb, 2 ^ 64 - 1, some 1, false⟩
    let k (tag : Nat) (data : Option (List Num)) : Core := { windowed cm with ms := { (windowed cm).ms with
      wb := [(0, oneWb)], feeds := [{ loose .f32 with bound := some 9 }], port := [row tag data], array := [p] } }
    let one := k 265 (some [.fin false 1 0])
    let gone := k 265 none
    ((on .m one).still 0 = false ∧ ((on .m one).core 0).allEnded = false) ∧ FeedsFit one ∧
      (∀ q ∈ [one, gone], q.binds = none) ∧
      one.portHead = some (row 265 (some [.fin false 1 0]), { loose .f32 with bound := some 9 }, cm) ∧
      gone.portHead = some (row 265 none, { loose .f32 with bound := some 9 }, cm) ∧ cm.state = .issued ∧
      (cm.received + cm.absent < 4 ∧ cm.received + cm.absent + 1 < 4 ∧ 265 ∉ cm.skipped ∧ (265 + 65536 - 10 % 65536) % 65536 < 256 ∧
        255 ∉ cm.placed) ∧
      firstWritable one 0 [] one.ms.array = some (0, p) ∧ p.lost one = false := by
  unfold FeedsFit
  decide +kernel

/-- What an act that is done leaves. -/
def doneOf (d : Core) (a : Act) : Core × Word :=
  match a with
  | .done k f => (k, f)
  | _ => (d, 0)

def isDone (a : Act) : Bool :=
  match a with
  | .done _ _ => true
  | _ => false

theorem done_eq {d : Core} {a : Act} (h : isDone a = true) : a = .done (doneOf d a).1 (doneOf d a).2 := by
  cases a with
  | done k f => rfl
  | _ => cases h

theorem of_notDone {a : Act} (h : isDone a = false) : ∃ k r f cause detail, a = .fault k r f cause detail := by
  cases a with
  | fault k r f c d => exact ⟨k, r, f, c, d, rfl⟩
  | _ => cases h

/-- The other cases of a row at the head of the port: an absent row and one with data out of the range of their MRUN, a skipped tag, a
row placed twice, and one beyond the end of an MRUN whose last row is still in the array. -/
theorem witness_MatrixEvents_reports :
    let cm := ranOf (.run 1 0 4 10 .p .f32 .np0 none)
    let row (tag : Nat) (data : Option (List Num)) : Row := ⟨0, tag, 0, 0x3F80, data⟩
    let one : Option (List Num) := some [.fin false 1 0]
    let bound : Feed := { loose .f32 with bound := some 9 }
    let k (d : Cmd) (r : Row) (l : List Passage) : Core := { windowed d with ms := { (windowed d).ms with
      wb := [(0, oneWb)], feeds := [bound], port := [r], array := l } }
    let lastRow : Passage := ⟨row 13 one, 9, cm.op, oneWb, 2 ^ 64 - 1, some 3, true⟩
    let full := { cm with received := 4 }
    let skip := { cm with skipped := [265], absent := 1 }
    let twice := { cm with placed := [255], received := 1 }
    [k full (row 14 one) [lastRow], k cm (row 300 none) [], k cm (row 300 one) [], k skip (row 265 one) [], k twice (row 265 one) []].all
        (fun p => p.binds == none && !(on .m p).still 0 && !p.allEnded) = true ∧
      FeedsFit (k full (row 14 one) [lastRow]) ∧ FeedsFit (k cm (row 300 none) []) ∧ FeedsFit (k cm (row 300 one) []) ∧
      FeedsFit (k skip (row 265 one) []) ∧ FeedsFit (k twice (row 265 one) []) ∧
      (k full (row 14 one) [lastRow]).portHead = some (row 14 one, bound, full) ∧ 4 ≤ full.received + full.absent ∧
      lastRow.cmd = full.seq ∧ lastRow.last = true ∧
      (k cm (row 300 none) []).portHead = some (row 300 none, bound, cm) ∧ (k cm (row 300 one) []).portHead = some (row 300 one, bound, cm) ∧
      cm.received + cm.absent + 1 < 4 ∧ 300 ∉ cm.skipped ∧ 256 ≤ (300 + 65536 - 10 % 65536) % 65536 ∧
      (k skip (row 265 one) []).portHead = some (row 265 one, bound, skip) ∧ skip.received + skip.absent + 1 < 4 ∧ 265 ∈ skip.skipped ∧
      (k twice (row 265 one) []).portHead = some (row 265 one, bound, twice) ∧ twice.received + twice.absent + 1 < 4 ∧
      265 ∉ twice.skipped ∧ (265 + 65536 - 10 % 65536) % 65536 = 255 ∧ 255 ∈ twice.placed := by
  unfold FeedsFit
  and_intros <;> decide +kernel

/-- Ends of an MWLD and of an MWLDS. -/
theorem witness_MatrixEvents_weights :
    let d := ranOf (.wld 0 0 2 64 .f32)
    let p := ranOf (.wlds 0 0 16 2 0 .f32)
    let k (c : Cmd) : Core := { windowed c with ownM := (List.range 128) }
    (d.op.isRun = false ∧ d.state = .issued ∧ d.checked = true ∧ (k d).ms.window[0]? = some d) ∧
      actOf (on .m (k d)) 0 d = .done (doneOf core0 (actOf (on .m (k d)) 0 d)).1 (doneOf core0 (actOf (on .m (k d)) 0 d)).2 ∧
      overflows core0.m (doneOf core0 (actOf (on .m (k d)) 0 d)).2 = false ∧
      (p.op.isRun = false ∧ p.state = .issued ∧ p.checked = true ∧ (k p).ms.window[0]? = some p) ∧
      actOf (on .m (k p)) 0 p = .done (doneOf core0 (actOf (on .m (k p)) 0 p)).1 (doneOf core0 (actOf (on .m (k p)) 0 p)).2 ∧
      overflows core0.m (doneOf core0 (actOf (on .m (k p)) 0 p)).2 = false :=
  ⟨by decide +kernel, done_eq (by decide +kernel), by decide +kernel, by decide +kernel, done_eq (by decide +kernel), by decide +kernel⟩

/-- Columns: of a dense and of a sparse buffer, inside it and beyond, and left out by the mask. -/
theorem witness_MatrixEvents_columns :
    let sparse : WBuf := { oneWb with sparse := true, k := 8, masks := [(0, 0x0F)] }
    oneWb.n ≤ 63 ∧ (0 < oneWb.n ∧ oneWb.sparse = false) ∧ (0 < sparse.n ∧ sparse.sparse = true) ∧ (2 : Nat).testBit 0 = false ∧
      (1 : Nat).testBit 0 = true ∧ columnPairs sparse [.fin false 1 0, .fin false 1 0] 0 ≠ [] := by
  decide +kernel

/-- Ends of commands: a clear, an anchor, a drained row that is cleared, and an anchor of a tile of another format. -/
theorem witness_MatrixEvents_ends :
    let z := ranOf (.zero 1 .f32)
    let a := ranOf (.anch 1 0 256 5)
    let d := ranOf (.drn 1 255 1 0x1000 .f32 .rne false true 0)
    let anc : Core := { windowed a with ms := { (windowed a).ms with acc := [(1, ⟨.anc, []⟩)] } }
    let kd : Core := { windowed d with ownM := [1], ms := { (windowed d).ms with acc := [(1, ⟨.s32, [(255, ⟨5, 0, []⟩)]⟩)] } }
    ((on .m (windowed z)).still 0 = false ∧ ((on .m (windowed z)).core 0).allEnded = false) ∧
      ((windowed z).ms.window[0]? = some z ∧ z.op.isRun = false ∧ z.state = .issued ∧ z.checked = true) ∧
      actOf (on .m (windowed z)) 0 z = .done (doneOf core0 (actOf (on .m (windowed z)) 0 z)).1 (doneOf core0 (actOf (on .m (windowed z)) 0 z)).2 ∧
      overflows core0.m (doneOf core0 (actOf (on .m (windowed z)) 0 z)).2 = false ∧
      actOf (on .m anc) 0 a = .done (doneOf core0 (actOf (on .m anc) 0 a)).1 (doneOf core0 (actOf (on .m anc) 0 a)).2 ∧
      overflows core0.m (doneOf core0 (actOf (on .m anc) 0 a)).2 = false ∧
      actOf (on .m kd) 0 d = .done (doneOf core0 (actOf (on .m kd) 0 d)).1 (doneOf core0 (actOf (on .m kd) 0 d)).2 ∧
      overflows core0.m (doneOf core0 (actOf (on .m kd) 0 d)).2 = false ∧ d.rowsDone = 0 ∧
      ∃ k r f cause detail, actOf (on .m (windowed a)) 0 a = .fault k r f cause detail :=
  ⟨by decide +kernel, by decide +kernel, done_eq (by decide +kernel), by decide +kernel, done_eq (by decide +kernel), by decide +kernel,
    done_eq (by decide +kernel), by decide +kernel, rfl, of_notDone (by decide +kernel)⟩

end Sys2Proof.Tests
end

