-- ==== Sys2Proof/Tests/WitnessT.lean ====
section
/-! SUPPORT. States and operands that meet the hypotheses of the statements on transfers, the directory and launch records, clause by
clause. -/

namespace Sys2Proof.Tests

set_option Elab.async false

open Sys2Proof.Machine

/-! ## Transfers -/

/-- A transfer under way in slot 0. -/
def xfer (op : XferOp) : Transfer := ⟨op, 0, false, 0, 0, 0, 0, [], [], 0, [], [], [], 0, 0⟩

def moving (op : XferOp) : Core := { core0 with as := { core0.as with xfers := [(0, xfer op)] } }

/-- Every slot in use. -/
def stuffedSlots : Tbl Transfer := (List.range 16).map (fun i => (i, xfer (.cpgo (.va 0) (.va 0) 1 .b8 .b8 .rne 0 0 [])))

/-- Run lengths 0, 1, 2^20 and one beyond, sources that are aligned, misaligned, and of a valid and an invalid handle, a free slot
and none. -/
theorem witness_TransfersStart_CPGO :
    let r (n v : Word) : Core := { regsA [(1, 0x300000), (2, n), (3, v)] with as := { AState.reset with h := [(0, 5)] } }
    let full (n : Word) : Core := { r n 0 with as := { AState.reset with xfers := stuffedSlots } }
    let B (n : Word) := (regOf (on .a (r n 0)) (me .a) 2).toNat
    (∀ n v d a, AReady (on .a (r n v)) (me .a) plainA (baseRegs d ++ baseRegs a ++ [2, 4, 5])) ∧
      (∀ n d a, AReady (on .a (full n)) (me .a) plainA (baseRegs d ++ baseRegs a ++ [2, 4, 5])) ∧
      B 0 = 0 ∧ 2 ^ 20 < B 0x100001 ∧ (0 < B 0x100000 ∧ B 0x100000 ≤ 2 ^ 20 ∧ B 0x100000 % unitLen .f32 .f32 0 = 0) ∧
      B 33 % unitLen .f32 .k4 0 ≠ 0 ∧ (regOf (on .a (r 1 0x300001)) (me .a) 3).toNat % sideAlign .f32 (0 == 1) ≠ 0 ∧
      handleSlot (on .a (r 1 0)) (me .a) 1 = none ∧
      Captured (on .a (r 1 0)) (me .a) (.handle 0) 4 (.obj 5) ∧ Captured (on .a (r 1 0)) (me .a) (.reg 1) 4 (.va 0x300000) ∧
      freeSlot (r 1 0) = some 0 ∧ freeSlot (full 1) = none :=
  ⟨fun _ _ _ _ => aReady_on rfl rfl rfl, fun _ _ _ => aReady_on rfl rfl rfl, by decide +kernel, by decide +kernel, by decide +kernel,
    by decide +kernel, by decide +kernel, by decide +kernel, ⟨5, by decide +kernel, rfl⟩, ⟨by decide +kernel, by decide +kernel⟩,
    by decide +kernel, by decide +kernel⟩

/-- The page move in both modes, of a page that is mapped and of one that is not. -/
theorem witness_TransfersStart_move :
    let r (pg : Word) := regsA [(1, 0x1000000000), (2, pg)]
    let s (pg : Word) : State := { on .a { r pg with a := inSuper (r pg).a } with mem := writeBytes tables (placeTable + 8) (bytesOf 8 (placeLeaf 0)) }
    let e := (leafEntry (s 0x1000000000) (0x1000000000 % 2 ^ 57) ((s 0).ctx 0).root [(0, 47, 10), (1, 36, 11), (2, 25, 11), (3, 14, 11)]).getD (0, 0, 0)
    (AReady (on .a (r 0)) (me .a) plainA (baseRegs (.reg 1) ++ baseRegs (.reg 2) ++ [2, 4, 5]) ∧ ((on .a (r 0)).stream (me .a)).super = false) ∧
      (∀ pg, AReady (s pg) (me .a) plainA (baseRegs (.reg 1) ++ baseRegs (.reg 2) ++ [2, 4, 5])) ∧ ((s 0).stream (me .a)).super = true ∧
      freeSlot ((s 0).core 0) = some 0 ∧ canonical (regOf (s 0x1000000000) (me .a) 2).toNat = true ∧
      (∃ cause, walk (s 0x80000000000) 0 ((regOf (s 0x80000000000) (me .a) 2).toNat % 2 ^ 57) = .error cause) ∧
      (∃ tr, walk (s 0x1000000000) 0 ((regOf (s 0x1000000000) (me .a) 2).toNat % 2 ^ 57) = .ok tr) ∧
      leafEntry (s 0x1000000000) (0x1000000000 % 2 ^ 57) ((s 0).ctx 0).root [(0, 47, 10), (1, 36, 11), (2, 25, 11), (3, 14, 11)] = some e ∧
      0x1000000000 % 2 ^ pageShift e.2.1 = 0 ∧ (regOf (s 0) (me .a) 1).toNat % 2 ^ 44 % 2 ^ pageShift e.2.1 = 0 :=
  ⟨⟨aReady_on rfl rfl rfl, by decide +kernel⟩, fun _ => aReady_of rfl rfl rfl rfl rfl, by decide +kernel, by decide +kernel, by decide +kernel,
    of_not_walks (by decide +kernel), of_walks (by decide +kernel), by decide +kernel⟩

/-- Gathers and scatters with types that pooling takes and types that it does not. -/
theorem witness_TransfersStart_gather :
    let k := regsA [(1, 0x300000), (2, 0x400000), (3, 0x500000)]
    let s := on .a k
    let np := (s.stream (me .a)).profile .np0
    AReady s (me .a) plainA (baseRegs (.reg 1) ++ baseRegs (.reg 2) ++ [2, 3, 5]) ∧ freeSlot k = some 0 ∧
      Captured s (me .a) (.reg 1) (sideAlign .f32 false) (.va 0x300000) ∧ Captured s (me .a) (.reg 2) (sideAlign .f32 false) (.va 0x400000) ∧
      (regOf s (me .a) 2).toNat % 4 = 0 ∧ poolTypes np .f32 = true ∧ poolTypes np .s8 = false ∧ (regOf s (me .a) 3).toNat % 4 = 0 :=
  ⟨aReady_on rfl rfl rfl, by decide +kernel, ⟨by decide +kernel, by decide +kernel⟩, ⟨by decide +kernel, by decide +kernel⟩,
    by decide +kernel⟩

/-- Feeds of 0, 65536 and 65537 rows with descriptors in and out of range; DECQ at the limits of its three values. -/
theorem witness_TransfersStart_feeds :
    let r (n desc : Word) := regsA [(1, 0x300000), (2, 0x400000), (3, n), (4, desc)]
    let s (n desc : Word) := on .a (r n desc)
    let n (v : Word) := (regOf (s v 0) (me .a) 3).toNat
    (∀ v desc, AReady (s v desc) (me .a) plainA (baseRegs (.reg 1) ++ baseRegs (.reg 1) ++ [2, 3, 4])) ∧
      n 0 = 0 ∧ (0 < n 65536 ∧ n 65536 ≤ 65536) ∧ 65536 < n 65537 ∧
      feedOk .f32 (regOf (s 1 0x10000) (me .a) 4) false = true ∧ feedOk .f32 (regOf (s 1 0x800000) (me .a) 4) true = true ∧
      feedOk .f32 (regOf (s 1 0x810000) (me .a) 4) false = false ∧ feedOk .k4 (regOf (s 1 0x210000) (me .a) 4) false = false ∧
      feedOk .f32 (regOf (s 1 0x100010000) (me .a) 4) true = false ∧
      Captured (s 1 0) (me .a) (.reg 1) (sideAlign .f32 false) (.va 0x300000) ∧ (regOf (s 1 0) (me .a) 2).toNat % 8 = 0 ∧
      (regOf (s 1 0) (me .a) 2).toNat % 4 = 0 ∧ freeSlot (r 1 0) = some 0 :=
  ⟨fun _ _ => aReady_on rfl rfl rfl, by decide +kernel, by decide +kernel, by decide +kernel, by decide +kernel, by decide +kernel,
    by decide +kernel, by decide +kernel, by decide +kernel, ⟨by decide +kernel, by decide +kernel⟩, by decide +kernel⟩

/-- A feed that no MRUN takes, one that an issued MRUN of its type takes, and one that an MRUN of another type takes. -/
theorem witness_TransfersStart_binds :
    let run (ty : Ty) : Cmd := ⟨9, 2, .run 1 0 4 10 .a ty .np0 none, .issued, 0, 0, [], 0, true, 0, 0, [], [], [], none, 0, [], 0⟩
    let kf (l : List Cmd) : Core := { core0 with ms := { core0.ms with window := l, feeds := [⟨0, .f32, 1, 1, [], 0, none⟩] } }
    (kf []).binds = none ∧ (kf [run .f32]).binds = some (run .f32, ⟨0, .f32, 1, 1, [], 0, none⟩) ∧ (run .f32).rowTy = .f32 ∧
      (kf [run .s8]).binds = some (run .s8, ⟨0, .f32, 1, 1, [], 0, none⟩) ∧ (run .s8).rowTy ≠ .f32 := by
  decide +kernel

theorem witness_TransfersStart_DECQ :
    let r (n ratio e : Word) := regsA [(1, 0x300000), (2, n), (3, ratio), (4, e)]
    let s (n ratio e : Word) := on .a (r n ratio e)
    let v (x : Word) := (regOf (s x x x) (me .a) 2).toNat
    let loaded : Core := { r 64 8 8 with as := { AState.reset with gen := 1 } }
    (∀ n ratio e, AReady (s n ratio e) (me .a) plainA (baseRegs (.reg 1) ++ baseRegs (.reg 1) ++ [2, 3, 4])) ∧
      v 0 = 0 ∧ 2 ^ 24 < v 0x1000001 ∧ v 0x1000000 ≤ 2 ^ 24 ∧ 1024 < v 1025 ∧ (0 < v 1024 ∧ v 1024 ≤ 1024) ∧ 8 < v 9 ∧ (0 < v 8 ∧ v 8 ≤ 8) ∧
      (r 64 8 8).as.gen = 0 ∧ loaded.as.gen ≠ 0 ∧ (loaded.qOf 1).length + 8 ≤ 8 ∧ Captured (on .a loaded) (me .a) (.reg 1) 1 (.va 0x300000) ∧
      freeSlot loaded = some 0 ∧ AReady (on .a loaded) (me .a) plainA (baseRegs (.reg 1) ++ baseRegs (.reg 1) ++ [2, 3, 4]) :=
  by
  refine ⟨fun _ _ _ => aReady_on rfl rfl rfl, ?_⟩
  and_intros <;> first | exact aReady_on rfl rfl rfl | decide +kernel

/-- Every slot in use, in user mode and in supervisor mode, with operands that the forms take; the walk of a page move counts. -/
theorem witness_TransfersStart_noSlot :
    let r (pg : Word) : Core := { regsA [(1, 0x300000), (2, pg), (3, 8), (4, 0x10000)] with as := { AState.reset with gen := 1, xfers := stuffedSlots } }
    let sup (pg : Word) : Core := { r pg with a := inSuper (r pg).a }
    let s (pg : Word) : State := on .a (r pg)
    let v (pg : Word) : State := { on .a (sup pg) with mem := writeBytes tables (placeTable + 8) (bytesOf 8 (placeLeaf 0)) }
    (∀ pg d a b g e, AReady (s pg) (me .a) plainA (baseRegs d ++ baseRegs a ++ [b, g, e])) ∧
      (∀ pg d a b g e, AReady (v pg) (me .a) plainA (baseRegs d ++ baseRegs a ++ [b, g, e])) ∧
      freeSlot ((s 0x400000).core 0) = none ∧ freeSlot ((v 0x1000000000).core 0) = none ∧
      Captured (s 0x400000) (me .a) (.reg 1) (sideAlign .f32 false) (.va 0x300000) ∧ Captured (s 0x400000) (me .a) (.reg 1) 1 (.va 0x300000) ∧
      (regOf (s 0x400000) (me .a) 2).toNat % 8 = 0 ∧ feedOk .f32 (regOf (s 0x400000) (me .a) 4) true = true ∧
      ((v 0x1000000000).stream (me .a)).super = true ∧
      ∃ tr, walk (v 0x1000000000) 0 ((regOf (v 0x1000000000) (me .a) 2).toNat % 2 ^ 57) = .ok tr :=
  ⟨fun _ _ _ _ _ _ => aReady_on rfl rfl rfl, fun _ _ _ _ _ _ => aReady_of rfl rfl rfl rfl rfl, by decide +kernel, by decide +kernel,
    ⟨by decide +kernel, by decide +kernel⟩, ⟨by decide +kernel, by decide +kernel⟩, by decide +kernel, by decide +kernel, by decide +kernel,
    of_walks (by decide +kernel)⟩

/-- A queue without room for one entry, in both modes. -/
theorem witness_TransfersStart_DECQ_full :
    let k : Core := { regsA [(1, 0x300000), (2, 64), (3, 8), (4, 1)] with
      as := { AState.reset with gen := 1 }, q := [(1, List.replicate 8 ⟨0, none⟩)] }
    let g : Core := { k with a := inGauge k.a }
    AReady (on .a k) (me .a) plainA (baseRegs (.reg 1) ++ baseRegs (.reg 1) ++ [2, 3, 4]) ∧
      AReady (on .a g) (me .a) plainA (baseRegs (.reg 1) ++ baseRegs (.reg 1) ++ [2, 3, 4]) ∧
      (regOf (on .a k) (me .a) 4).toNat = 1 ∧ k.as.gen ≠ 0 ∧ 8 < (k.qOf 1).length + 1 ∧ 8 < (g.qOf 1).length + 1 ∧
      ((on .a k).stream (me .a)).gauge = false ∧ ((on .a g).stream (me .a)).gauge = true :=
  ⟨aReady_on rfl rfl rfl, aReady_on rfl rfl rfl, by decide +kernel⟩

/-- How a run of units ended, with the state that it left. -/
def ended (u : UEnd) : State :=
  match u with
  | .complete s | .paused s | .refused s _ _ => s

def isComplete (u : UEnd) : Bool :=
  match u with
  | .complete _ => true
  | _ => false

theorem complete_eq {u : UEnd} (h : isComplete u = true) : u = .complete (ended u) := by
  cases u with
  | complete s => rfl
  | _ => cases h

def isRefused (u : UEnd) : Bool :=
  match u with
  | .refused _ _ _ => true
  | _ => false

theorem of_isRefused {u : UEnd} (h : isRefused u = true) : ∃ cause v, u = .refused (ended u) cause v := by
  cases u with
  | refused s c v => exact ⟨c, v, rfl⟩
  | _ => cases h

/-- A copy of two bytes between words of memory. -/
def copy2 (src : Word) : XferOp := .cpgo (.va 0x300000) (.va src) 2 .b8 .b8 .rne 0 0 [⟨1, 0, 0⟩]

/-- A transfer that may not move, and a copy of bytes of which one is performed. -/
theorem witness_TransferEvents_copy :
    let still : Core := { core0 with as := { core0.as with xfers := [(0, { xfer (copy2 0x400000) with suspended := true })] } }
    let s := on .a (moving (copy2 0x400000))
    let x := xfer (copy2 0x400000)
    let ls : List Level := [⟨1, 0, 0⟩]
    let o1 := okOf ([], s) (openAccess s 0 (xferAcc .read 1) ((Addr.va 0x400000).plus ((runOffsets ls 0).1 + (0 : Nat))) 1)
    let g := gather 0 (.xfer 0 0) o1.1 o1.2
    let o2 := okOf ([], s) (openAccess (gotS s g) 0 (xferAcc .write 1) ((Addr.va 0x300000).plus ((runOffsets ls 0).2 + (0 : Nat))) 1)
    (still.xfer? 0 = some { x with suspended := true } ∧ mayMove (on .a still) 0 { x with suspended := true } = false) ∧
      ((s.core 0).xfer? 0 = some x ∧ mayMove s 0 x = true ∧ x.done < x.op.units ∧ x.rest = [] ∧ s.requests = [] ∧ s.mem.wf = true) ∧
      openAccess s 0 (xferAcc .read 1) ((Addr.va 0x400000).plus ((runOffsets ls 0).1 + (0 : Nat))) 1 = .ok (o1.1, o1.2) ∧
      (o1.1.length = 1 ∧ ∀ p ∈ o1.1, p.home = .local ∧ p.len = 1 ∧ buffers o1.2 0 p = false) ∧ g = .ok (gotL g) (gotS s g) ∧
      openAccess (gotS s g) 0 (xferAcc .write 1) ((Addr.va 0x300000).plus ((runOffsets ls 0).2 + (0 : Nat))) 1 = .ok (o2.1, o2.2) ∧
      (o2.1.length = 1 ∧ ∀ p ∈ o2.1, p.home = .local ∧ p.len = 1 ∧ buffers o2.2 0 p = false) ∧ o2.2.mem.wf = true :=
  ⟨by decide +kernel, by decide +kernel, okOf_eq (by decide +kernel), by decide +kernel, got_eq (by decide +kernel),
    okOf_eq (by decide +kernel), by decide +kernel, by decide +kernel⟩

/-- A copy that completes, and one with a refused element. -/
theorem witness_TransferEvents_ends :
    let s := on .a (moving (copy2 0x400000))
    let x := xfer (copy2 0x400000)
    let u := runUnits 0 0 x.stepsLeft s
    let t := on .a (moving (copy2 0x80000000000))
    let y := xfer (copy2 0x80000000000)
    let v := runUnits 0 0 y.stepsLeft t
    u = .complete (ended u) ∧ ((ended u).core 0).xfer? 0 ≠ none ∧ ((ended u).core 0).allEnded = false ∧
      overflows ((ended u).core 0).a 0 = false ∧ mayMove t 0 y = true ∧ y.op.isFeed = false ∧
      (∃ cause tv, v = .refused (ended v) cause tv) ∧ ((ended v).core 0).xfer? 0 ≠ none ∧ ((ended v).core 0).allEnded = false :=
  ⟨complete_eq (by decide +kernel), by decide +kernel, by decide +kernel, by decide +kernel, by decide +kernel, by decide +kernel,
    of_isRefused (by decide +kernel), by decide +kernel, by decide +kernel⟩

def isRow (r : RowGot) : Bool :=
  match r with
  | .row _ _ _ => true
  | _ => false

theorem of_isRow {g : RowGot} (h : isRow g = true) : ∃ r fl s, g = .row r fl s := by
  cases g with
  | row r fl s => exact ⟨r, fl, s, rfl⟩
  | _ => cases h

/-- A feed of one row of one f32 whose row may enter, and one whose index cannot be read. -/
theorem witness_TransferEvents_feed :
    let feed (index : Word) : XferOp := .feed 0 (.va 0x300000) (.va index) true 1 0 0 1 .f32 .rne false false false
    let k (index : Word) : Core := { moving (feed index) with ms := { core0.ms with feeds := [⟨0, .f32, 1, 1, [], 0, none⟩] } }
    let s (index : Word) := on .a (k index)
    (feed 0).isFeed = true ∧ mayMove (s 0x80000000000) 0 (xfer (feed 0x80000000000)) = true ∧
      feedFault (s 0x80000000000) 0 0 (xfer (feed 0x80000000000)) (List.range (feed 0).units) ≠ none ∧ (k 0).allEnded = false ∧
      mayEnter (s 0x400000) 0 (xfer (feed 0x400000)) 0 = true ∧ inSOOrder (s 0x400000) 0 0 (xfer (feed 0x400000)) 0 = true ∧
      ∃ r fl s1, feedRow (s 0x400000) 0 0 0 (xfer (feed 0x400000)).dph (xfer (feed 0x400000)).op = .row r fl s1 :=
  ⟨rfl, by decide +kernel, by decide +kernel, by decide +kernel, by decide +kernel, by decide +kernel, of_isRow (by decide +kernel)⟩

end Sys2Proof.Tests
end

