-- ==== Sys2Proof/Tests/WitnessX.lean ====
section
/-! SUPPORT. States and operands that meet the hypotheses of the statements on the execute engine, clause by clause. -/

namespace Sys2Proof.Tests

set_option Elab.async false

open Sys2Proof.Machine

/-! ## Short forms -/

/-- Numbers in and out of order, a NaN, and each rounding at a phase. -/
theorem witness_ScalarFloats :
    let k := core0With .x (fun t => { t with regs := [(1, 0x3F800000), (2, 0xC0000000), (3, 0x7FC00000)] })
    let num (n : Nat) : Num := fmtF32.decode ((regOf (on .x k) (me .x) n).toNat % 2 ^ 32)
    CanRun (on .x k) (me .x) [1, 2, 4] 4 ∧ (me .x).eng = .x ∧ (num 1).isNan = false ∧ (num 2).isNan = false ∧
      (num 2).below (num 1) = true ∧ (num 1).below (num 2) = false ∧ (num 3).isNan = true :=
  ⟨runs_on rfl rfl, rfl, by decide +kernel⟩

theorem witness_ScalarFloatLands :
    let k := core0With .x (fun t => { t with pend := [⟨5, .scalar 4 0x3F800000 0x10⟩], empty := [4] })
    Acts (on .x core0) (me .x) ∧ Full (on .x core0) (me .x) [1, 2] ∧ Straight (on .x core0) (me .x) 4 ∧
      (on .x k).still 0 = false ∧ k.allEnded = false ∧ k.x.pend[0]? = some ⟨5, .scalar 4 0x3F800000 0x10⟩ ∧
      heldBack (k.x.pend.take 0) (.scalar 4 0x3F800000 0x10) = false ∧ (0x10 : Word) &&& fAovf = 0 ∧ k.x.aovte = false :=
  ⟨rfl, full_on rfl, straight_on rfl, by decide +kernel, by decide +kernel, rfl, by decide +kernel, by decide, by decide +kernel⟩

/-- Counts 0, 8 and 9 of entries, with fewer present and enough; a LOOPP with and without passes, and inside another one. -/
theorem witness_LanesAndQueues :
    let r (a b : Word) := core0With .x (fun t => { t with regs := [(1, a), (2, b)] })
    let k (a b : Word) : Core := { r a b with q := [(1, [⟨0, some (.bytes 1)⟩])] }
    let inner (a : Word) := core0With .x (fun t => { t with regs := [(1, a)], loops := [⟨true, 0x80000, 0x80010, 0⟩] })
    (∀ a b, CanRun (on .x (k a b)) (me .x) [1, 2, 4] 4) ∧ (k 1 1).vecFull 1 = true ∧ (k 1 1).qPresent 1 = 1 ∧
      8 < (regOf (on .x (k 1 9)) (me .x) 2).toNat ∧ (regOf (on .x (k 1 8)) (me .x) 2).toNat ≤ 8 ∧
      (k 1 8).qPresent 1 < (regOf (on .x (k 1 8)) (me .x) 2).toNat ∧
      (regOf (on .x (k 1 1)) (me .x) 2).toNat ≤ (k 1 1).qPresent 1 ∧ (regOf (on .x (k 0 0)) (me .x) 1).toNat = 0 ∧
      2 ^ 32 ≤ (regOf (on .x (k 0x100000000 0)) (me .x) 1).toNat ∧ (regOf (on .x (k 0xFFFFFFFF 0)) (me .x) 1).toNat < 2 ^ 32 ∧
      ((on .x (k 1 0)).stream (me .x)).loops.any LoopEnt.pipelined = false ∧
      StaysIn ((on .x (k 0 0)).stream (me .x)) (0x100008 : Word) true false ∧ ((on .x (k 1 0)).pcOf (me .x)).toNat + 4 < 2 ^ 64 ∧
      (∀ p ∈ [56, 57, 58, 59, 60, 61, 62, 63], (k 1 0).predBusy p = false) ∧
      ((on .x (inner 1)).stream (me .x)).loops.any LoopEnt.pipelined = true ∧ CanRun (on .x (inner 1)) (me .x) [1, 2, 4] 4 :=
  by
  refine ⟨fun _ _ => runs_on rfl rfl, by decide +kernel, by decide +kernel, by decide +kernel, by decide +kernel, by decide +kernel, ?_⟩
  exact ⟨by decide +kernel, by decide +kernel, by decide +kernel, by decide +kernel, by decide +kernel, stays_on rfl, by decide +kernel,
    by decide +kernel, by decide +kernel, ⟨rfl, full_on rfl, Or.inr (Or.inl (by decide +kernel))⟩⟩

/-- The end of a LOOPP body with a pass to come, and at the last one. -/
theorem witness_LanesAndQueues_edge :
    let l : LoopEnt := ⟨true, 0xFFFF0, 0x100000, 0⟩
    let k (n : Word) : Core := { core0With .x (fun t => { t with loops := [l] }) with xs := { XState.reset with spass := n, skern := 3, sdrain := 1 } }
    let s (n : Word) : State := on .x (k n)
    (Acts (s 2) (me .x) ∧ ((s 2).stream (me .x)).loops = l :: [] ∧ l.pipelined = true ∧ (s 2).pcOf (me .x) = l.stop ∧
      l.start.toNat ≤ l.stop.toNat) ∧
      ((k 2).xs.spass.toNat + 1) % 2 ^ 33 < (k 2).xs.skern.toNat + (k 2).xs.sdrain.toNat ∧
      (∀ p ∈ [56, 57, 58, 59, 60, 61, 62, 63], (k 2).predBusy p = false) ∧
      (k 3).xs.skern.toNat + (k 3).xs.sdrain.toNat ≤ ((k 3).xs.spass.toNat + 1) % 2 ^ 33 :=
  ⟨⟨rfl, rfl, rfl, rfl, by decide⟩, by decide +kernel, by decide +kernel, by decide +kernel⟩

/-- A LOOPP without passes whose last word is that of a short form, and one whose last word begins a long form. -/
theorem witness_LanesAndQueues_last :
    let mem (w : Nat) : Memory := writeBytes tables 0x100008 (bytesOf 8 w)
    let s (w : Nat) : State := { on .x { core0 with job := some ⟨0, 0, 0, 0, 0, false, [.a, .x, .m], mem w⟩ } with mem := mem w }
    (∀ w, StaysIn ((s w).stream (me .x)) 0x10000C true false ∧ StaysIn ((s w).stream (me .x)) 0x100010 true false) ∧
      fetchWord (s 0) (me .x) 0x100008 2 = .ok 0 ∧ fetchWord (s 0xC0000000) (me .x) 0x100008 2 = .ok 0xC0000000 ∧
      0xC0000000 / 2 ^ 30 % 4 = 3 :=
  ⟨fun _ => ⟨trivial, trivial⟩, by decide +kernel⟩

theorem witness_PredicateResults :
    CanRun (on .x core0) (me .x) [1, 2, 4] 4 ∧ 3 < 4 ∧ 1023 < 1024 ∧ (∀ p, ((on .x core0).core 0).predBusy p = false) ∧
      core0.vecFull 4 = true :=
  ⟨runs_on rfl rfl, by decide, by decide, fun p => by simp [Core.predBusy, on, State.core, tget, tfind, core0, mid, Stream.reset],
    by decide +kernel⟩

/-! ## Long forms -/

/-- Whether nothing stops or nullifies a form on core 0. -/
def xFree (k : Core) (h : XShape) : Bool :=
  !k.predBusy h.ctl.guard && (h.guardOp || k.pred h.ctl.guard != 0) && k.hasEngines (partners .x h.ctl.take) &&
  k.hasEngines (partners .x h.ctl.give) && missingQueue k h.srcs == none && emptySource k h.srcs == none &&
  !emptyMailbox k h.srcs && !earlierReader k .x (mboxesOf h.srcs) && errorMark k h.srcs == none && k.hasTokens (takeFifos .x h.ctl.take) &&
  k.fullFifo (giveFifos .x h.ctl.give) == none &&
  match h.target with
  | .pred p => !k.predBusy p
  | .vec (.v n) => k.vecFull n
  | .vec (.w n) => decide ((k.wOf n).length < 8)
  | .vec (.e n) => !halfBusy k n

/-- Whether nothing stops or nullifies well-formed instructions on core 0. -/
def xAll (k : Core) (l : List Instr) : Bool :=
  l.all (fun i => i.wf .x && match xShape i with | some h => xFree k h | none => false)

theorem xCan_all {k : Core} {l : List Instr} (hl : k.x.loops = []) (h : xAll k l = true) : ∀ i ∈ l, XCan i (on .x k) (me .x) := by
  intro i hi
  have hb := List.all_eq_true.1 h i hi
  simp only [Bool.and_eq_true] at hb
  refine ⟨hb.1, ?_⟩
  cases hs : xShape i with
  | none => simp [hs] at hb
  | some f =>
    simp only [hs, xFree, Bool.and_eq_true, Bool.or_eq_true, Bool.not_eq_true', beq_iff_eq, bne_iff_ne] at hb
    obtain ⟨-, ⟨⟨⟨⟨⟨⟨⟨⟨⟨⟨⟨h1, h2⟩, h3⟩, h4⟩, h5⟩, h6⟩, h7⟩, h12⟩, h8⟩, h9⟩, h10⟩, h11⟩⟩ := hb
    refine ⟨f, rfl, ⟨rfl, rfl, h1, h2.elim Or.inl (fun h => Or.inr (Or.inr h)), h3, h4, h5, h6, h7, h12, h8, h9, h10, ?_, straight_on hl⟩⟩
    show DestReady k f.target
    cases ht : f.target with
    | pred p => simpa [DestReady, ht] using h11
    | vec d => cases d <;> simpa [DestReady, ht] using h11

/-- The control fields of a plain form, and of one that consumes and gives. -/
def plain : XCtl := ⟨.np0, 0, 0, 0, false, false⟩
def synced : XCtl := ⟨.np0, 1, 1, 0, true, true⟩

/-- Core 0 with tokens for X, an entry in q1, a value in mailbox 1, a number in x1, and a guard in p1. -/
def coreX0 : Core :=
  { core0 with
    tokens := [(0, 1), (1, 1), (2, 1), (3, 1), (4, 1), (5, 1)], q := [(1, [⟨0, some (.bytes 5)⟩])], mbox := [(1, ⟨9, false, 0, 0⟩)],
    xs := { core0.xs with p := [(1, 0xFF)] } }

/-- Every form with a vector destination and with a w queue, plain, and once with tokens, a queue and a mailbox source. -/
theorem witness_VectorIntegers :
    (∀ i ∈ [Instr.vadd (.v 1) (.v 2) (.v 3) .s32 true plain, .vadd (.w 1) (.q 1 false) (.m 1) .z64 false synced,
        .vsub (.v 1) (.v 2) (.s 1) .s8 true plain, .vmul (.v 1) .lane .ones .z16 false plain, .vmulh (.v 1) (.v 2) (.v 3) .s64 plain,
        .vmad (.v 1) (.v 2) (.v 3) (.v 1) .s32 true plain, .vabs (.v 1) (.v 2) .s8 true plain,
        .vmin (.v 1) (.v 2) (.v 3) .s16 plain, .vmax (.v 1) (.v 2) (.v 3) .z8 plain], XCan i (on .x coreX0) (me .x)) ∧
      Ty.s32.isInt = true :=
  ⟨xCan_all rfl (by decide +kernel), rfl⟩

theorem witness_VectorBits :
    ∀ i ∈ [Instr.vlog (.v 1) (.v 2) (.v 3) .b8 0 plain, .vlog (.v 1) (.v 2) (.v 3) .b8 7 plain, .vsh (.v 1) (.v 2) (.v 3) .s32 0 plain,
      .vsh (.v 1) (.v 2) (.v 3) .z8 1 plain, .vsh (.v 1) (.v 2) (.v 3) .s16 2 plain, .vsh (.v 1) (.v 2) (.v 3) .z64 3 plain,
      .vclmul (.v 1) (.v 2) (.v 3) 0 plain, .vclmul (.v 1) (.v 2) (.v 3) 1 plain, .vclmul (.v 1) (.v 2) (.s 1) 2 plain],
      XCan i (on .x coreX0) (me .x) :=
  xCan_all rfl (by decide +kernel)

theorem witness_VectorFloats :
    (∀ i ∈ [Instr.vfadd (.v 1) (.v 2) (.v 3) .f32 .rne plain, .vfsub (.v 1) (.v 2) (.v 3) .f16 .rdi plain,
      .vfmul (.v 1) (.v 2) (.v 3) .bf16 .rtz plain, .vfma (.v 1) (.v 2) (.v 3) (.v 1) .f32 .rdn 0 plain,
      .vfma (.v 1) (.v 2) (.v 3) (.v 1) .f32 .rup 1 plain, .vfma (.v 1) (.v 2) (.v 3) (.v 1) .f32 .rna 2 plain,
      .vfdiv (.v 1) (.v 2) (.v 3) .f32 .rne plain, .vfsqrt (.v 1) (.v 2) .f32 .rne plain, .vabs (.v 1) (.v 2) .f16 false plain],
      XCan i (on .x coreX0) (me .x)) ∧ Ty.f32.isFloat3 = true ∧ Ty.f16.isFloat3 = true ∧ Ty.bf16.isFloat3 = true :=
  ⟨xCan_all rfl (by decide +kernel), rfl, rfl, rfl⟩

theorem witness_VectorSelections :
    ∀ i ∈ [Instr.vcmp 2 (.v 2) (.v 3) .f32 5 plain, .vcmp 2 (.v 2) (.v 3) .s8 2 plain, .vsel (.v 1) (.v 2) (.v 3) .b8 { plain with guard := 1 },
      .vmov (.v 1) (.q 1 true) .b8 plain, .viota (.v 1) (.v 2) .s32 { plain with guard := 1 },
      .vperm (.v 1) (.v 2) (.v 3) (.v 0) .b8 0 plain, .vperm (.v 1) (.v 2) (.v 3) (.v 4) .b8 1 plain,
      .vperm (.v 1) (.v 2) (.v 3) (.v 0) .b8 2 plain, .vslide (.v 1) (.v 2) (.s 1) (.v 4) .b8 true plain,
      .vslide (.v 1) (.v 2) (.s 1) (.v 4) .b8 false plain], XCan i (on .x coreX0) (me .x) := by
  refine xCan_all rfl ?_
  decide +kernel


/-- 128 elements of one f32 value. -/
def filled (x : Nat) : Vec := vecOfEls 4 (List.replicate 128 x)

/-- Core 0 with 2^40 in every element of v2 and 1.0 in every one of v3, and traps on a saturated window enabled. -/
def coreWide : Core :=
  { core0With .x (fun t => { t with qflags := 0x10000 }) with xs := { XState.reset with v := [(2, filled 0x53800000), (3, filled 0x3F800000)] } }

/-- Profile np3. -/
def anchored : XCtl := { plain with np := .np3 }

theorem witness_VectorReductions :
    (∀ i ∈ [Instr.vred (.v 1) (.v 2) .s32 0 .rne { plain with np := .np4 }, .vred (.v 1) (.v 2) .s8 1 .rne plain, .vred (.v 1) (.v 2) .z8 2 .rne plain,
        .vred (.v 1) (.v 2) .z64 3 .rne plain, .vred (.v 1) (.v 2) .s16 4 .rne plain, .vred (.v 1) (.v 2) .f32 0 .rdi anchored,
        .vscan (.v 1) (.v 2) (.v 0) (.s 0) .s32 0 .rne { plain with np := .np4 }, .vscan (.v 1) (.v 2) (.v 0) (.s 1) .f32 0 .rne plain,
        .vscan (.v 1) (.v 2) (.v 3) (.s 1) .f32 3 .rne plain], XCan i (on .x coreX0) (me .x)) ∧
      coreX0.x.aovte = false ∧ XCan (.vred (.v 1) (.v 2) .f32 0 .rne anchored) (on .x coreWide) (me .x) ∧ coreWide.x.aovte = true :=
  ⟨xCan_all rfl (by decide +kernel), by decide +kernel,
    xCan_all (l := [.vred (.v 1) (.v 2) .f32 0 .rne anchored]) rfl (by decide +kernel) _ (by simp), by decide +kernel⟩

/-- A scan whose window saturates, under `qflags.aovte`. -/
theorem witness_VectorReductions_saturated :
    XCan (.vscan (.v 1) (.v 2) (.v 3) (.s 0) .f32 3 .rne anchored) (on .x coreWide) (me .x) ∧
      (vScan .f32 3 .np3 .rne 0 (xIn (on .x coreWide) (me .x) [.v 2, .v 3, .s 0] 0 .f32)
        (xIn (on .x coreWide) (me .x) [.v 2, .v 3, .s 0] 1 .f32) none).flags &&& fAovf ≠ 0 ∧
      readsMail [XSrc.v 2, .v 3, .s 0] = false ∧ coreWide.x.aovte = true :=
  ⟨xCan_all (l := [.vscan (.v 1) (.v 2) (.v 3) (.s 0) .f32 3 .rne anchored]) rfl (by decide +kernel) _ (by simp),
    by decide +kernel, by decide, by decide +kernel⟩

/-- Parts 0 and, in s1, 7 of conversions that have two and four of them. -/
theorem witness_VectorConversions :
    (∀ i ∈ [Instr.vcvt (.v 1) (.v 2) (.s 0) .f32 .f16 .rne false plain, .vcvt (.v 1) (.v 2) (.s 0) .e5m2 .f32 .rdi true plain,
        .vcvt (.v 1) (.v 2) (.s 1) .f32 .f32 .rne false plain, .vcvt (.v 1) (.v 2) (.s 1) .s8 .f32 .rne false plain,
        .vqpack (.v 1) (.v 2) (.s 0) .f32 0 .rne plain, .vqpack (.v 1) (.v 2) (.s 1) .f16 1 .rne plain,
        .vqunpk (.v 1) (.v 2) (.s 0) .f32 .rne plain, .vqunpk (.v 1) (.v 2) (.s 1) .f16 .rne plain,
        .vspars (.v 1) (.v 2) .f16 0 plain, .vspars (.v 1) (.v 2) .s8 1 plain, .vspars (.v 1) (.v 2) .f32 2 plain,
        .vtopk (.vec (.v 1)) (.v 2) (.s 1) .f32 0 plain, .vtopk (.vec (.v 1)) (.v 2) (.s 1) .s16 1 plain, .vtopk (.p 2) (.v 2) (.s 1) .s32 2 plain,
        .vhist (.v 1) (.v 2) (.s 1) (.v 3) .z8 true plain], XCan i (on .x coreX0) (me .x)) ∧
      packParts .f32 ≤ (xScalar (on .x coreX0) (me .x) [.v 2, .s 1] 1).toNat ∧
      (xScalar (on .x coreX0) (me .x) [.v 2, .s 0] 1).toNat < 1 :=
  ⟨xCan_all rfl (by decide +kernel), by decide +kernel, by decide +kernel⟩

/-! ## What stops a long form, and scans over cores -/

/-- The form whose stops are shown: it reads a queue and a register, consumes and gives, and its guard is p1. -/
def stopper (trap : Bool) (d : XDst) : Instr := .vadd d (.q 1 false) (.v 3) .s32 false ⟨.np0, 1, 1, 1, true, trap⟩

def stopShape (trap : Bool) (d : XDst) : XShape := ⟨⟨.np0, 1, 1, 1, true, trap⟩, [.q 1 false, .v 3], .vec d, .rne, false, false⟩

theorem witness_VectorFormsStop :
    let waiting : Core := { coreX0 with x := { coreX0.x with pend := [⟨0, .pred 1 0 0 0 0⟩] } }
    let alone : Core := { coreX0 with job := some ⟨0, 0, 0, 0, 0, false, [.x], []⟩ }
    let shut : Core := { coreX0 with xs := { coreX0.xs with p := [] } }
    let starved : Core := { coreX0 with q := [] }
    let empty : Core := { coreX0 with xs := { coreX0.xs with vempty := [3] } }
    let stuffed : Core := { coreX0 with w := [(1, List.replicate 8 ⟨0, none⟩)] }
    let noSlot : Core := { coreX0 with tokens := [(0, 16), (1, 16), (2, 16), (3, 16), (4, 16), (5, 16)] }
    let noToken : Core := { coreX0 with tokens := [] }
    let marked : Core := { coreX0 with q := [(1, [⟨0, some (.error 0x50 0)⟩])] }
    let second : Core := { coreX0 with a := { coreX0.a with run := .descheduled, wants := [1] } }
    let h := stopShape true (.w 1)
    Acts (on .x coreX0) (me .x) ∧ xShape (stopper true (.w 1)) = some h ∧ xShape (stopper false (.v 1)) = some (stopShape false (.v 1)) ∧
      (waiting.predBusy 1 = true ∧ coreX0.predBusy 1 = false ∧ coreX0.hasEngines (partners .x 1) = true) ∧
      (alone.predBusy 1 = false ∧ alone.hasEngines (partners .x 1) = false ∧ alone.hasEngines (partners .x 0) = true) ∧
      (shut.pred 1 = 0 ∧ shut.vecFull 1 = true ∧ Straight (on .x shut) (me .x) 8) ∧
      (coreX0.pred 1 ≠ 0 ∧ missingQueue starved h.srcs = some 65 ∧ missingQueue empty h.srcs = none ∧
        emptySource empty h.srcs = some 3) ∧
      (missingQueue stuffed h.srcs = none ∧ emptySource stuffed h.srcs = none ∧ 8 ≤ (stuffed.wOf 1).length) ∧
      (noSlot.fullFifo (giveFifos .x 1) ≠ none ∧ (noSlot.wOf 1).length < 8) ∧
      (noToken.hasTokens (takeFifos .x 1) = false ∧ noToken.fullFifo (giveFifos .x 1) = none ∧ missingQueue noToken h.srcs = none) ∧
      (coreX0.hasTokens (takeFifos .x 1) = true ∧ coreX0.fullFifo (giveFifos .x 1) = none ∧ emptyMailbox coreX0 [.m 2] = true ∧
        emptyMailbox marked h.srcs = false ∧ errorMark marked h.srcs ≠ none ∧ missingQueue marked h.srcs = none) ∧
      (emptyMailbox second [.m 1] = false ∧ earlierReader second .x (mboxesOf [.m 1]) = true ∧
        earlierReader marked .x (mboxesOf h.srcs) = false) :=
  ⟨rfl, rfl, rfl, by decide +kernel, by decide +kernel, ⟨by decide +kernel, by decide +kernel, straight_on rfl⟩, by decide +kernel⟩

/-- The e half of a conversion, while a command or an older result stands before it. -/
theorem witness_VectorFormsStop_half :
    xShape (.vmov (.e 2) (.v 1) .b8 plain) = some ⟨plain, [.v 1], .vec (.e 2), .rne, false, false⟩ ∧
      halfBusy { coreX0 with ms := { coreX0.ms with efull := [2] } } 2 = true ∧ halfBusy coreX0 2 = false := by
  refine ⟨rfl, by decide +kernel, by decide +kernel⟩

/-- A scan of core 0, and the contribution that a participant before it has given. -/
def scanForm (op : Nat) (ty : Ty) (np : Np) : Instr := .cscan (.v 1) (.v 2) (.v 3) (.s 0) ty op 0 .rne ⟨np, 0, 0, 0, false, false⟩

def given (op : Nat) (ty : Ty) (np : Np) (inst : Nat) : Contrib := ⟨0, 0, inst, op, ty, np, 0, 0, 0, 0⟩

def withContribs (s : State) (l : List Contrib) : State :=
  { s with launches := s.launches.map (fun x => { x with contribs := l }) }

/-- Four scans outstanding, no contribution, one that agrees, and one that differs in each field. -/
theorem witness_CoreScans :
    let sc : Scan := ⟨0, 0, 0, .v 1, .s32, 0, 0, false, 0⟩
    let full : Core := { coreX0 with xs := { coreX0.xs with scans := [sc, sc, sc, sc] } }
    let i : Instr := .cscan (.v 1) (.v 2) (.v 0) (.s 0) .s32 0 0 .rne ⟨.np4, 0, 0, 0, false, false⟩
    let np := ((on .x coreX0).stream (me .x)).profile .np4
    XCan i (on .x coreX0) (me .x) ∧ XCan i (on .x full) (me .x) ∧ 4 ≤ full.xs.scans.length ∧ coreX0.xs.scans.length < 4 ∧
      scanFirst (on .x coreX0) 0 0 = none ∧
      scanFirst (withContribs (on .x coreX0) [given 0 .s32 np 0]) 0 0 = some (given 0 .s32 np 0) ∧
      scanFirst (withContribs (on .x coreX0) [given 1 .s32 np 0]) 0 0 = some (given 1 .s32 np 0) ∧
      scanFirst (withContribs (on .x coreX0) [given 0 .s32 .np1 0]) 0 0 = some (given 0 .s32 .np1 0) ∧ Np.np1 ≠ np ∧
      scanFirst (withContribs (on .x coreX0) [given 0 .z32 np 0]) 0 0 = some (given 0 .z32 np 0) ∧
      XCan (.cscan (.v 1) (.v 2) (.v 3) (.s 1) .f32 3 0 .rne plain) (on .x coreX0) (me .x) :=
  by
  refine ⟨xCan_all (l := [.cscan (.v 1) (.v 2) (.v 0) (.s 0) .s32 0 0 .rne ⟨.np4, 0, 0, 0, false, false⟩]) rfl (by decide +kernel) _ (by simp),
    xCan_all (l := [.cscan (.v 1) (.v 2) (.v 0) (.s 0) .s32 0 0 .rne ⟨.np4, 0, 0, 0, false, false⟩]) rfl (by decide +kernel) _ (by simp),
    by decide +kernel, by decide +kernel, by decide +kernel, ?_⟩
  exact ⟨by decide +kernel, by decide +kernel, by decide +kernel, by decide +kernel, by decide +kernel,
    xCan_all (l := [.cscan (.v 1) (.v 2) (.v 3) (.s 1) .f32 3 0 .rne plain]) rfl (by decide +kernel) _ (by simp)⟩

/-- A scan that may land. -/
theorem witness_CoreScans_landing :
    let sc : Scan := ⟨0, 0, 0, .v 1, .s32, 0, 1, false, 0⟩
    let k : Core := { coreX0 with xs := { coreX0.xs with scans := [sc], vempty := [1] } }
    let x := given 0 .s32 .np4 0
    let s := withContribs (on .x k) [x]
    ∃ l, s.still 0 = false ∧ s.whole l.record = true ∧ k.allEnded = false ∧ k.xs.scans[0]? = some sc ∧ s.launchOf 0 = some l ∧ scanBlocked k 0 sc = false ∧
      instanceOf l sc 0 = some [x] ∧ overflows k.x (scanValue .s32 0 k.lidx x.h [x]).2 = false ∧
      (∀ p ∈ k.x.pend, p.op.writesVec 1 = false) ∧ (∀ q ∈ ldel k.xs.scans 0, q.d ≠ .v 1) :=
  ⟨{ (on .x core0).launches.headD launch0 with contribs := [given 0 .s32 .np4 0] },
    by decide +kernel⟩

end Sys2Proof.Tests
end

section
/-! SUPPORT. Shifts, selection, counting and bit fields in numbers (R124, R125), and the obligation about them. -/

namespace Sys2Proof.Machine

/-! ## The computed words, in numbers -/

theorem shiftLeft_eq_mul (a : Word) (n : Nat) : shiftLeft a n = BitVec.ofNat 64 (a.toNat * 2 ^ n) := by
  apply BitVec.eq_of_toNat_eq
  simp [shiftLeft, BitVec.toNat_shiftLeft, Nat.shiftLeft_eq]

theorem shiftRight_eq_div (a : Word) (n : Nat) : shiftRight a n = BitVec.ofNat 64 (a.toNat / 2 ^ n) := by
  apply BitVec.eq_of_toNat_eq
  have : a.toNat / 2 ^ n < 2 ^ 64 := (Nat.div_le_self _ _).trans_lt a.isLt
  simp only [shiftRight, BitVec.toNat_ushiftRight, Nat.shiftRight_eq_div_pow, BitVec.toNat_ofNat, Nat.mod_eq_of_lt this]

/-- An arithmetic shift divides and rounds down. -/
theorem shiftArith_eq_fdiv (a : Word) (n : Nat) : shiftArith a n = BitVec.ofInt 64 (a.toInt.fdiv (2 ^ n : Nat)) := by
  rw [Int.fdiv_eq_ediv_of_nonneg _ (Int.natCast_nonneg _), ← Int.shiftRight_eq_div_pow, ← BitVec.toInt_sshiftRight,
    BitVec.ofInt_toInt]
  rfl

theorem leadingZeros_le (a : Word) : leadingZeros a ≤ 64 := by
  unfold leadingZeros
  split <;> omega

/-- The position of the highest one bit of a word that is not 0. -/
theorem log2_toNat_lt {a : Word} (h : a ≠ 0) : Nat.log2 a.toNat < 64 :=
  (Nat.log2_lt (BitVec.toNat_ne.mp h)).mpr a.isLt

theorem toNat_lt_of_leadingZeros (a : Word) : a.toNat < 2 ^ (64 - leadingZeros a) := by
  by_cases h : a = 0
  · simp [leadingZeros, h]
  · have hl := log2_toNat_lt h
    have he : 64 - leadingZeros a = Nat.log2 a.toNat + 1 := by simp only [leadingZeros, h, if_false]; omega
    rw [he]
    exact Nat.lt_log2_self

theorem two_pow_le_of_leadingZeros {a : Word} (hn : leadingZeros a < 64) : 2 ^ (63 - leadingZeros a) ≤ a.toNat := by
  have h : a ≠ 0 := by rintro rfl; simp [leadingZeros] at hn
  have hl := log2_toNat_lt h
  have he : 63 - leadingZeros a = Nat.log2 a.toNat := by simp only [leadingZeros, h, if_false]; omega
  rw [he]
  exact Nat.log2_self_le (BitVec.toNat_ne.mp h)

theorem onesCount_eq_length (a : Word) : onesCount a = ((List.range 64).filter (fun i => a.getLsbD i)).length :=
  List.countP_eq_length_filter

/-- The reading of a field of `n` bits is that of the bit vector that holds it. -/
theorem signedField_eq_toInt {n v : Nat} (hn : 0 < n) (hv : v < 2 ^ n) : signedField v n = (BitVec.ofNat n v).toInt := by
  have hp : 2 ^ n = 2 * 2 ^ (n - 1) := by rw [← Nat.pow_succ']; congr 1; omega
  simp only [signedField, BitVec.toInt_eq_toNat_cond, BitVec.toNat_ofNat, Nat.mod_eq_of_lt hv]
  split <;> split <;> omega

theorem extract_signed (a : Word) (lsb : Nat) {n : Nat} (hn : 0 < n) :
    extract false a lsb n = (a.extractLsb' lsb n).signExtend 64 := by
  have hv : a.toNat / 2 ^ lsb % 2 ^ n < 2 ^ n := Nat.mod_lt _ (Nat.two_pow_pos n)
  have hf : BitVec.ofNat n (a.toNat / 2 ^ lsb % 2 ^ n) = a.extractLsb' lsb n := by
    apply BitVec.eq_of_toNat_eq
    simp [BitVec.extractLsb'_toNat, Nat.shiftRight_eq_div_pow]
  simp only [extract, Bool.false_eq_true, if_false, signedField_eq_toInt hn hv, hf, BitVec.signExtend]

/-! ## Forms of one result -/

section
variable {i : Instr} {s : State} {w : Who} {d a b : Nat}

theorem Full.subset {ms ns : List Nat} (h : Full s w ns) (hs : ms ⊆ ns) : Full s w ms := fun n hn => h n (hs hn)

/-- A form that computes `d` from registers `a` and `b` writes what it computes. -/
theorem binary_writes (f : Word → Word → Word) (h : CanRun s w [a, b, d] 4) (hi : exec i s = binary d a b f s) :
    WritesReg i s w d (f (regOf s w a) (regOf s w b)) := by
  obtain ⟨hact, hfull, hstr⟩ := h
  rw [WritesReg, hi, binary, who_of_acts hact]
  exact scalarForm_writes (hfull.subset (by simp)) hstr (hfull d (by simp))

/-- A form that computes `d` from register `a` writes what it computes. -/
theorem unary_writes (f : Word → Word) (h : CanRun s w [a, b, d] 4) (hi : exec i s = unary d a f s) :
    WritesReg i s w d (f (regOf s w a)) := by
  obtain ⟨hact, hfull, hstr⟩ := h
  rw [WritesReg, hi, unary, who_of_acts hact]
  exact scalarForm_writes (hfull.subset (by simp)) hstr (hfull d (by simp))

/-- A field that stays in the register is a form of one result. -/
theorem ext_writes {z : Bool} {lsb wm1 : Nat} (h : CanRun s w [a, b, d] 4) (hin : lsb + (wm1 + 1) ≤ 64) :
    WritesReg (.ext d a z lsb wm1) s w d (extract z (regOf s w a) lsb (wm1 + 1)) :=
  unary_writes (fun x => extract z x lsb (wm1 + 1)) h (if_neg (Nat.not_lt.mpr hin))

theorem ext_traps {z : Bool} {lsb wm1 : Nat} (h : Acts s w) (hout : 64 < lsb + (wm1 + 1)) :
    Traps (.ext d a z lsb wm1) s w 0x02 (opTval (.ext d a z lsb wm1) false 0) := by
  change execExt d a z lsb wm1 s = _
  simp only [execExt, hout, if_true, who_of_acts h, finish]

theorem clz_writes (h : CanRun s w [a, b, d] 4) : ∃ n, n ≤ 64 ∧ (regOf s w a).toNat < 2 ^ (64 - n) ∧
    (n < 64 → 2 ^ (63 - n) ≤ (regOf s w a).toNat) ∧ WritesReg (.clz d a) s w d (BitVec.ofNat 64 n) :=
  ⟨leadingZeros (regOf s w a), leadingZeros_le _, toNat_lt_of_leadingZeros _, two_pow_le_of_leadingZeros,
    unary_writes (fun x => BitVec.ofNat 64 (leadingZeros x)) h rfl⟩

end

/-- Settles O6: every form is one of a single result, and what it computes is read in numbers. -/
theorem shiftsAndSelections : Obligations.ShiftsAndSelections := by
  refine ⟨fun s w d a b n hrun _ => ?_, fun s w d a b lsb wm1 hrun _ _ => ?_⟩
  · simp only [← shiftLeft_eq_mul, ← shiftRight_eq_div, ← shiftArith_eq_fdiv]
    exact ⟨binary_writes (fun x y => shiftLeft x (y.toNat % 64)) hrun rfl, unary_writes (fun x => shiftLeft x n) hrun rfl,
      binary_writes (fun x y => shiftRight x (y.toNat % 64)) hrun rfl, unary_writes (fun x => shiftRight x n) hrun rfl,
      binary_writes (fun x y => shiftArith x (y.toNat % 64)) hrun rfl, unary_writes (fun x => shiftArith x n) hrun rfl⟩
  · simp only [← onesCount_eq_length]
    have hact : Acts s w := hrun.1
    refine ⟨binary_writes (minWord false) hrun rfl, ?_, binary_writes (maxWord false) hrun rfl, ?_,
      binary_writes (lessWord false) hrun rfl, ?_, clz_writes hrun,
      unary_writes (fun x => BitVec.ofNat 64 (onesCount x)) hrun rfl, fun hin => ⟨ext_writes hrun hin, ?_⟩,
      fun hout _ => ext_traps hact hout⟩
    · simpa [minWord, xval] using binary_writes (minWord true) hrun rfl
    · simpa [maxWord, xval] using binary_writes (maxWord true) hrun rfl
    · simpa [lessWord, xval] using binary_writes (lessWord true) hrun rfl
    · rw [← extract_signed _ _ wm1.succ_pos]
      exact ext_writes hrun hin

end Sys2Proof.Machine
end

section
/-! SUPPORT. LOOP and the loop check (R130, R131): one law for each answer of the check, what the stream is after it, and the
obligation about loops. -/

namespace Sys2Proof.Machine

/-! ## Writing a register leaves the rest of a stream -/

@[simp] theorem Stream.put_loops (t : Stream) (n : Nat) (v : Word) : (t.put n v).loops = t.loops := by rw [Stream.put_eq]
@[simp] theorem Stream.put_pc (t : Stream) (n : Nat) (v : Word) : (t.put n v).pc = t.pc := by rw [Stream.put_eq]
@[simp] theorem Stream.put_run (t : Stream) (n : Nat) (v : Word) : (t.put n v).run = t.run := by rw [Stream.put_eq]
@[simp] theorem Stream.put_at_ (t : Stream) (n : Nat) (v : Word) : (t.put n v).at_ = t.at_ := by rw [Stream.put_eq]
@[simp] theorem Stream.put_full (t : Stream) (n : Nat) (v : Word) (m : Nat) : (t.put n v).full m = t.full m := by
  rw [Stream.put_eq]; rfl

/-- A stream after a write of register `n`, with `ls` as its open loops. -/
def Stream.putLooped (t : Stream) (n : Nat) (v : Word) (ls : List LoopEnt) : Stream := { t.put n v with loops := ls }

@[simp] theorem Stream.putLooped_loops (t : Stream) (n : Nat) (v : Word) (ls : List LoopEnt) :
    (t.putLooped n v ls).loops = ls := rfl
@[simp] theorem Stream.putLooped_pc (t : Stream) (n : Nat) (v : Word) (ls : List LoopEnt) :
    (t.putLooped n v ls).pc = t.pc := Stream.put_pc t n v
@[simp] theorem Stream.putLooped_run (t : Stream) (n : Nat) (v : Word) (ls : List LoopEnt) :
    (t.putLooped n v ls).run = t.run := Stream.put_run t n v
@[simp] theorem Stream.putLooped_at_ (t : Stream) (n : Nat) (v : Word) (ls : List LoopEnt) :
    (t.putLooped n v ls).at_ = t.at_ := Stream.put_at_ t n v

theorem Stream.putLooped_same {t : Stream} {ls : List LoopEnt} (h : t.loops = ls) (n : Nat) (v : Word) :
    t.putLooped n v ls = t.put n v := by
  subst h
  rw [Stream.putLooped, Stream.put_eq]

/-- A write of a full register of a core's stream. -/
theorem setReg_eq_put {k : Core} {e : Eng} {n : Nat} (v : Word) (h : (k.stream e).full n = true) :
    k.setReg e n v = k.setStream e ((k.stream e).put n v) := by
  by_cases hn : n = 0
  · simp [hn, setReg_zero, Stream.put]
  · simp [setReg_full hn h, Stream.put, hn]

@[simp] theorem setLoops_setStream (k : Core) (e : Eng) (u : Stream) (l : List LoopEnt) :
    (k.setStream e u).setLoops e l = k.setStream e { u with loops := l } := by
  simp [Core.setLoops]

/-! ## The answers of the loop check (R131) -/

/-- `addr` is the last instruction of the body of a counted loop. -/
structure LoopEnt.EndsAt (l : LoopEnt) (addr : Word) : Prop where
  counted : l.pipelined = false
  stop : addr = l.stop
  start : l.start.toNat ≤ l.stop.toNat

/-- A transfer of control from `addr` to `next` leaves the body. -/
def LoopEnt.LeftBy (l : LoopEnt) (addr next : Word) : Prop :=
  l.start.toNat ≤ addr.toNat ∧ addr.toNat ≤ l.stop.toNat ∧ (next.toNat < l.start.toNat ∨ l.stop.toNat < next.toNat)

section
variable {e : Eng} {addr next : Word} {k : Core} {l : LoopEnt} {t : List LoopEnt} {ex : List Word}

/-- The check at the end of the innermost body, by its counter. -/
theorem afterCompletion_end (h : l.EndsAt addr) : afterCompletion e addr next false false k (l :: t) ex =
    if (k.stream e).full l.ctr = false then ⟨k.setLoops e (l :: t), next, true, ex⟩
    else if (k.stream e).reg l.ctr - 1 ≠ 0 then
      ⟨(k.setReg e l.ctr ((k.stream e).reg l.ctr - 1)).setLoops e (l :: t), l.start, false, ex⟩
    else afterCompletion e addr next false false (k.setReg e l.ctr ((k.stream e).reg l.ctr - 1)) t (ex ++ [l.stop]) := by
  obtain ⟨hp, rfl, hle⟩ := h
  have hin : ¬ l.stop.toNat < l.start.toNat := Nat.not_lt.mpr hle
  simp [afterCompletion, hin, hp]

theorem afterCompletion_waits (h : l.EndsAt addr) (hf : (k.stream e).full l.ctr = false) :
    afterCompletion e addr next false false k (l :: t) ex = ⟨k.setLoops e (l :: t), next, true, ex⟩ := by
  rw [afterCompletion_end h, if_pos hf]

/-- A count that does not reach 0 goes back to the start. -/
theorem afterCompletion_turns (h : l.EndsAt addr) (hf : (k.stream e).full l.ctr = true) (hc : (k.stream e).reg l.ctr ≠ 1) :
    afterCompletion e addr next false false k (l :: t) ex =
      ⟨k.setStream e ((k.stream e).putLooped l.ctr ((k.stream e).reg l.ctr - 1) (l :: t)), l.start, false, ex⟩ := by
  simp only [afterCompletion_end h, hf, Bool.true_eq_false, if_false, if_pos (sub_ne_zero.mpr hc), setReg_eq_put _ hf,
    setLoops_setStream, Stream.putLooped]

/-- A count that reaches 0 pops the level, and the check goes on with the next one. -/
theorem afterCompletion_pops (h : l.EndsAt addr) (hf : (k.stream e).full l.ctr = true) (hc : (k.stream e).reg l.ctr = 1) :
    afterCompletion e addr next false false k (l :: t) ex =
      afterCompletion e addr next false false (k.setStream e ((k.stream e).put l.ctr 0)) t (ex ++ [l.stop]) := by
  have h0 : (1 : Word) - 1 = 0 := by decide
  simp only [afterCompletion_end h, hf, Bool.true_eq_false, if_false, hc, h0, ne_eq, not_true, setReg_eq_put _ hf]

/-- A branch out of the innermost bodies pops their levels. -/
theorem afterCompletion_leaves (left : List LoopEnt) (h : ∀ l ∈ left, l.LeftBy addr next) (ex : List Word) :
    afterCompletion e addr next true false k (left ++ t) ex =
      afterCompletion e addr next true false k t (ex ++ left.map (fun l => l.stop)) := by
  induction left generalizing ex with
  | nil => simp
  | cons l left ih =>
    obtain ⟨hlo, hhi, hout⟩ := h l (by simp)
    have hin : ¬ (addr.toNat < l.start.toNat ∨ l.stop.toNat < addr.toNat) := by omega
    have hleft : ¬ (l.start.toNat ≤ next.toNat ∧ next.toNat ≤ l.stop.toNat) := by omega
    simp [afterCompletion, hin, hleft, ih (fun m hm => h m (by simp [hm]))]

/-- The levels that remain keep a branch that stays in the innermost of their bodies. -/
theorem afterCompletion_branch_stays (h : StaysIn { k.stream e with loops := t } next true false) :
    afterCompletion e (k.stream e).pc next true false k t ex = ⟨k.setLoops e t, next, false, ex⟩ := by
  cases t with
  | nil => rfl
  | cons l t =>
    simp only [afterCompletion, Bool.or_eq_true, decide_eq_true_eq, Bool.and_eq_true, Bool.not_true, Bool.and_false]
    split
    · rfl
    · next hin =>
      have hnext : l.start.toNat ≤ next.toNat ∧ next.toNat ≤ l.stop.toNat := by
        simp only [StaysIn] at h
        tauto
      simp [hnext]

end

/-! ## The stream after the check -/

section
variable {s : State} {w : Who} {u : Stream} {addr next goes : Word} {ctl call : Bool} {ex : List Word}

/-- Going on at `next` after a change that leaves how the stream runs and what it stands at. -/
theorem setStream_goTo (hr : u.run = (s.stream w).run) (ha : u.at_ = (s.stream w).at_) :
    (s.setStream w u).goTo w next = s.setStream w { u with pc := next, run := s.runNext w, at_ := .free } := by
  simp [State.goTo, runNext_setStream hr ha]

/-- The instruction completes with the stream `u` that the check answers, and goes on where the check says; an A stream records
the loops it has left (R228). -/
theorem retireAt_of_check
    (h : afterCompletion w.eng addr next ctl call (s.core w.core) (s.stream w).loops [] =
      ⟨(s.core w.core).setStream w.eng u, goes, false, ex⟩)
    (hr : u.run = (s.stream w).run) (ha : u.at_ = (s.stream w).at_) :
    retireAt w addr next ctl call s =
      if w.eng = .a then writeExits w.core ex ((s.setStream w u).goTo w goes) else (s.setStream w u).goTo w goes := by
  have hrun : runAfter (s.core w.core) u = s.runNext w := runAfter_congr rfl hr ha
  rw [setStream_goTo hr ha, retireAt, State.stream_core, h]
  simp [hrun, State.setStream]

/-- The instruction completes, and the stream waits for the counter. -/
theorem retireAt_of_wait
    (h : afterCompletion w.eng addr next ctl call (s.core w.core) (s.stream w).loops [] = ⟨s.core w.core, goes, true, []⟩) :
    retireAt w addr next ctl call s = s.setStream w { s.stream w with run := .waiting, at_ := .edge addr next } := by
  rw [retireAt, State.stream_core, h]
  simp [writeExits, State.setStream, State.stream_core]

/-- The instruction completes within the loops that are open after its effect. -/
theorem retireAt_setStream_stays (hp : u.pc = s.pcOf w) (h : StaysIn u next ctl call) :
    retireAt w (s.pcOf w) next ctl call (s.setStream w u) = (s.setStream w u).goTo w next := by
  have hu : (s.setStream w u).stream w = u := State.stream_setStream_self _ _ _
  have hret := retireAt_stays (s := s.setStream w u) (w := w) (next := next) (ctl := ctl) (call := call) (by rwa [hu])
  rwa [hu, hp] at hret

theorem retire_setStream_stays {n : Nat} (hp : u.pc = s.pcOf w) (h : StaysIn u (s.pcOf w + BitVec.ofNat 64 n) false false) :
    retire w n (s.setStream w u) = (s.setStream w u).goTo w (s.pcOf w + BitVec.ofNat 64 n) := by
  simp only [retire, State.stream_setStream_self, hp]
  exact retireAt_setStream_stays hp h

@[simp] theorem length_exitRecord (s : State) (c : Nat) (stop : Word) : (exitRecord s c stop).length = 404 := by
  simp [exitRecord]

/-- The record of one loop exit is appended or dropped (R228). -/
theorem writeExits_one (s : State) (c : Nat) (stop : Word) : writeExits c [stop] s = s ∨
    writeExits c [stop] s = { s with snifer := s.snifer ++ [exitRecord s c stop] } := by
  simp only [writeExits]
  split
  · exact .inr rfl
  · exact .inl rfl

/-- What writing a full register alone leaves. -/
theorem wrote_put_only (s : State) (w : Who) (d : Nat) (v next : Word) :
    Wrote s ((s.setStream w ((s.stream w).put d v)).goTo w next) w d v next 0 (s.stream w).dph := by
  simpa using wrote_put (s := s) (w := w) (d := d) (v := v) (next := next) (fl := 0) (ph := (s.stream w).dph)

/-- A register is written, the open loops become `ls`, and the stream goes on at `next`. -/
def State.wroteLooped (s : State) (w : Who) (d : Nat) (v : Word) (ls : List LoopEnt) (next : Word) : State :=
  (s.setStream w ((s.stream w).putLooped d v ls)).goTo w next

@[simp] theorem wroteLooped_stream (s : State) (w : Who) (d : Nat) (v : Word) (ls : List LoopEnt) (next : Word) :
    (s.wroteLooped w d v ls next).stream w =
      { (s.stream w).putLooped d v ls with pc := next, run := s.runNext w, at_ := .free } := by
  rw [State.wroteLooped, setStream_goTo (by simp) (by simp), State.stream_setStream_self]

theorem wroteLooped_wrote (s : State) (w : Who) (d : Nat) (v : Word) (ls : List LoopEnt) (next : Word) :
    Wrote s ((s.wroteLooped w d v ls next).setStream w
      { (s.wroteLooped w d v ls next).stream w with loops := (s.stream w).loops }) w d v next 0 (s.stream w).dph := by
  have hw := wrote_put_only s w d v next
  rw [setStream_goTo (by simp) (by simp), ← Stream.putLooped_same rfl] at hw
  rw [wroteLooped_stream, State.wroteLooped, setStream_goTo (by simp) (by simp), State.setStream_setStream]
  exact hw

/-- What is left of the only level. -/
theorem wroteLooped_left (s : State) (w : Who) (d : Nat) (next : Word) :
    ((s.wroteLooped w d 0 [] next).stream w).loops = [] ∧ ((s.wroteLooped w d 0 [] next).stream w).reg d = 0 ∧
      ((s.wroteLooped w d 0 [] next).stream w).pc = next ∧ (s.wroteLooped w d 0 [] next).mem = s.mem ∧
      (s.wroteLooped w d 0 [] next).snifer = s.snifer := by
  have hreg : ((s.stream w).put d 0).reg d = 0 := by simp
  rw [wroteLooped_stream]
  exact ⟨rfl, hreg, rfl, rfl, rfl⟩

end

/-! ## LOOP (R130) -/

theorem offTarget_eq (pc : Word) (off : Int) : offTarget pc off = BitVec.ofInt 64 (pc.toNat + 4 * off) := by
  rw [BitVec.ofInt_add, BitVec.ofInt_natCast, BitVec.ofNat_toNat, BitVec.setWidth_eq]
  rfl

section
variable {s : State} {w : Who} {d a : Nat} {imm : Int}

theorem loop_traps_offset (h : Acts s w) (hi : imm < 1) : Traps (.loop d a imm) s w 0x02 (opTval (.loop d a imm) false 0) := by
  change execLoop d a imm s = _
  simp only [execLoop, who_of_acts h, if_pos hi, finish]

theorem loop_traps_counter (h : Acts s w) (hi : 1 ≤ imm) (hd : d = 0) :
    Traps (.loop d a imm) s w 0x02 (opTval (.loop d a imm) false 19) := by
  change execLoop d a imm s = _
  simp only [execLoop, who_of_acts h, if_neg (Int.not_lt.mpr hi), if_pos hd, finish]

theorem loop_traps_depth (h : Acts s w) (hi : 1 ≤ imm) (hd : d ≠ 0)
    (hn : 4 ≤ ((s.stream w).loops.filter (fun l => !l.pipelined)).length) :
    Traps (.loop d a imm) s w 0x02 (opTval (.loop d a imm) false 25) := by
  change execLoop d a imm s = _
  simp only [execLoop, who_of_acts h, if_neg (Int.not_lt.mpr hi), if_neg hd, if_pos hn, finish]

theorem pushLoop_putReg (v : Word) (l : LoopEnt) (hd : (s.stream w).full d = true) :
    pushLoop (putReg s w d v) w l = s.setStream w ((s.stream w).putLooped d v (l :: (s.stream w).loops)) := by
  simp [putReg_full hd, pushLoop, Stream.putLooped]

variable (h : Acts s w) (hi : 1 ≤ imm) (hd : d ≠ 0)
  (hn : ((s.stream w).loops.filter (fun l => !l.pipelined)).length < 4) (hf : Full s w [a, d])
include h hi hd hn hf

/-- A LOOP without a cause whose registers have their values. -/
theorem loop_runs :
    exec (.loop d a imm) s = finish w 4 s (
      if regOf s w a = 0 then .ok (putReg s w d (regOf s w a)) (.jump (offTarget (s.pcOf w) imm + 4) false)
      else .ok (pushLoop (putReg s w d (regOf s w a)) w ⟨false, s.pcOf w + 4, offTarget (s.pcOf w) imm, d⟩) .seq) := by
  change execLoop d a imm s = _
  simp only [execLoop, who_of_acts h, if_neg (Int.not_lt.mpr hi), if_neg hd, if_neg (Nat.not_le.mpr hn), needRegs_of_full _ hf,
    State.pcOf]

/-- A count of 0 skips the body. -/
theorem loop_skips (hc : regOf s w a = 0) (hst : StaysIn (s.stream w) (offTarget (s.pcOf w) imm + 4) true false) :
    exec (.loop d a imm) s = .next ((s.setStream w ((s.stream w).put d 0)).goTo w (offTarget (s.pcOf w) imm + 4)) := by
  have hst' : StaysIn ((s.stream w).put d 0) (offTarget (s.pcOf w) imm + 4) true false :=
    (staysIn_congr (by simp) (by simp)).mpr hst
  rw [loop_runs h hi hd hn hf, if_pos hc, hc, putReg_full (hf d (by simp)), finish]
  exact congrArg _ (retireAt_setStream_stays (Stream.put_pc _ _ _) hst')

/-- Any other count opens a level; the LOOP itself stands before the body that it opens. -/
theorem loop_opens (hc : regOf s w a ≠ 0) (hpc : (s.pcOf w).toNat + 4 < 2 ^ 64) :
    exec (.loop d a imm) s = .next (s.wroteLooped w d (regOf s w a)
      (⟨false, s.pcOf w + 4, offTarget (s.pcOf w) imm, d⟩ :: (s.stream w).loops) (s.pcOf w + 4)) := by
  have hst : StaysIn ((s.stream w).putLooped d (regOf s w a)
      (⟨false, s.pcOf w + 4, offTarget (s.pcOf w) imm, d⟩ :: (s.stream w).loops))
      (s.pcOf w + BitVec.ofNat 64 4) false false := by
    have hlt : (s.pcOf w).toNat < (s.pcOf w + 4).toNat := by bv_omega
    exact Or.inl (by simpa [State.pcOf] using hlt)
  rw [loop_runs h hi hd hn hf, if_neg hc, pushLoop_putReg _ _ (hf d (by simp)), finish,
    retire_setStream_stays (Stream.putLooped_pc _ _ _ _) hst]
  rfl

end

/-! ## NOP at the end of a body, and a branch out of one (R131) -/

theorem nop_retires {s : State} {w : Who} (h : Acts s w) :
    exec .nop s = .next (retireAt w (s.pcOf w) (s.pcOf w + 4) false false s) := by
  change execNop s = _
  rw [execNop, who_of_acts h]
  rfl

section
variable {s : State} {w : Who} {l : LoopEnt} {rest : List LoopEnt}

/-- A counter that is not full makes the stream wait with its instruction completed. -/
theorem nop_waits (h : Acts s w) (hl : (s.stream w).loops = l :: rest) (he : l.EndsAt (s.pcOf w))
    (hf : (s.stream w).full l.ctr = false) :
    exec .nop s = .next (s.setStream w { s.stream w with run := .waiting, at_ := .edge (s.pcOf w) (s.pcOf w + 4) }) := by
  rw [nop_retires h, retireAt_of_wait (goes := s.pcOf w + 4)]
  rw [hl, afterCompletion_waits he hf, setLoops_same _ _ _ hl]

/-- A loop that turns is a write of its counter that goes on at the start. -/
theorem nop_turns (h : Acts s w) (hl : (s.stream w).loops = l :: rest) (he : l.EndsAt (s.pcOf w))
    (hf : (s.stream w).full l.ctr = true) (hc : regOf s w l.ctr ≠ 1) :
    exec .nop s = .next ((s.setStream w ((s.stream w).put l.ctr (regOf s w l.ctr - 1))).goTo w l.start) := by
  have hchk := afterCompletion_turns (e := w.eng) (k := s.core w.core) (next := s.pcOf w + 4) (t := rest) (ex := []) he hf hc
  rw [State.stream_core, Stream.putLooped_same hl, ← hl] at hchk
  rw [nop_retires h, retireAt_of_check hchk (by simp) (by simp)]
  simp [writeExits, regOf]

/-- The last turn of the only level leaves the loop. -/
theorem nop_leaves (h : Acts s w) (hl : (s.stream w).loops = [l]) (he : l.EndsAt (s.pcOf w))
    (hf : (s.stream w).full l.ctr = true) (hc : regOf s w l.ctr = 1) :
    let t := s.wroteLooped w l.ctr 0 [] (s.pcOf w + 4)
    exec .nop s = .next (if w.eng = .a then writeExits w.core [l.stop] t else t) := by
  have hchk : afterCompletion w.eng (s.pcOf w) (s.pcOf w + 4) false false (s.core w.core) (s.stream w).loops [] =
      ⟨(s.core w.core).setStream w.eng ((s.stream w).putLooped l.ctr 0 []), s.pcOf w + 4, false, [l.stop]⟩ := by
    rw [hl, afterCompletion_pops he hf hc, afterCompletion, setLoops_setStream, State.stream_core]
    rfl
  rw [nop_retires h, retireAt_of_check hchk (by simp) (by simp)]
  rfl

/-- Of two levels with one end, the inner one at its last turn, the outer one turns. -/
theorem nop_turns_outer {m : LoopEnt} {more : List LoopEnt} (h : Acts s w) (hl : (s.stream w).loops = l :: m :: more)
    (he : l.EndsAt (s.pcOf w)) (hm : m.EndsAt (s.pcOf w)) (hne : m.ctr ≠ l.ctr) (hf : (s.stream w).full l.ctr = true)
    (hfm : (s.stream w).full m.ctr = true) (hc : regOf s w l.ctr = 1) (hcm : regOf s w m.ctr ≠ 1) (hx : w.eng ≠ .a) :
    exec .nop s = .next ((s.setStream w
      (((s.stream w).put l.ctr 0).putLooped m.ctr (regOf s w m.ctr - 1) (m :: more))).goTo w m.start) := by
  have hreg : ((s.stream w).put l.ctr 0).reg m.ctr = regOf s w m.ctr := Stream.put_reg_ne _ _ hne
  have hchk : afterCompletion w.eng (s.pcOf w) (s.pcOf w + 4) false false (s.core w.core) (s.stream w).loops [] =
      ⟨(s.core w.core).setStream w.eng (((s.stream w).put l.ctr 0).putLooped m.ctr (regOf s w m.ctr - 1) (m :: more)),
        m.start, false, [l.stop]⟩ := by
    rw [hl, afterCompletion_pops he hf hc, State.stream_core, afterCompletion_turns hm]
    · simp only [Core.stream_setStream_self, Core.setStream_setStream, hreg]
      rfl
    · simpa using hfm
    · rwa [Core.stream_setStream_self, hreg]
  rw [nop_retires h, retireAt_of_check hchk (by simp) (by simp), if_neg hx]

/-- The registers after both levels have counted. -/
theorem put_put_reg (t : Stream) {c m : Nat} (v : Word) (hm : m ≠ 0) (n : Nat) :
    ((t.put c 0).put m v).reg n = if n = m then v else if n = c then 0 else t.reg n := by
  by_cases hnm : n = m
  · simp [hnm, hm]
  · rw [Stream.put_reg_ne _ _ hnm, if_neg hnm]
    by_cases hnc : n = c
    · simp [hnc]
    · rw [Stream.put_reg_ne _ _ hnc, if_neg hnc]

theorem br_retires {off : Int} (h : Acts s w) :
    exec (.br off) s = .next (retireAt w (s.pcOf w) (offTarget (s.pcOf w) off) true false s) := by
  change execBr off s = _
  rw [execBr, who_of_acts h]
  rfl

/-- A branch pops the levels whose bodies it leaves. -/
theorem br_leaves {left : List LoopEnt} {off : Int} (h : Acts s w) (hx : w.eng ≠ .a) (hl : (s.stream w).loops = left ++ rest)
    (hleft : ∀ l ∈ left, l.LeftBy (s.pcOf w) (offTarget (s.pcOf w) off))
    (hst : StaysIn { s.stream w with loops := rest } (offTarget (s.pcOf w) off) true false) :
    exec (.br off) s = .next ((s.setStream w { s.stream w with loops := rest }).goTo w (offTarget (s.pcOf w) off)) := by
  have hchk := afterCompletion_leaves (e := w.eng) (k := s.core w.core) (t := rest) left hleft []
  have hstay := hchk.trans (afterCompletion_branch_stays hst)
  rw [← hl] at hstay
  rw [br_retires h, retireAt_of_check hstay rfl rfl, if_neg hx]
  rfl

end

/-- Settles O9, by the causes and the two outcomes of LOOP, the answers of the check at the end of a body, and the levels that a
branch pops. -/
theorem loopsOpenAndTurn : Obligations.LoopsOpenAndTurn := by
  refine ⟨fun s w d a imm hact => ?_, fun s w l rest hact hl hp h0 hpc hle => ?_, fun s w left rest off hact hx hl => ?_⟩
  · simp only [← offTarget_eq]
    refine ⟨loop_traps_offset hact, loop_traps_counter hact, loop_traps_depth hact, fun hi hd hn hf hlt => ⟨fun hc hst => ?_,
      fun hc => ?_⟩⟩
    · exact ⟨_, loop_skips hact hi hd hn hf hc hst, wrote_put_only _ _ _ _ _⟩
    · exact ⟨_, loop_opens hact hi hd hn hf hc hlt, by simp, wroteLooped_wrote _ _ _ _ _ _⟩
  · have he : l.EndsAt (s.pcOf w) := ⟨hp, hpc, hle⟩
    refine ⟨fun hf hc => ⟨_, nop_turns hact hl he hf hc, wrote_put_only _ _ _ _ _⟩, fun hf hc hr hx => ?_,
      fun hf hc hr ha => ?_, nop_waits hact hl he, fun m more hr hp2 h2 hne hstop hle2 hf hc hcm hx => ?_⟩
    · subst hr
      refine ⟨_, nop_leaves hact hl he hf hc, ?_⟩
      rw [if_neg hx, ← hl]
      exact ⟨by simp, wroteLooped_wrote _ _ _ _ _ _⟩
    · subst hr
      refine ⟨_, nop_leaves hact hl he hf hc, ?_⟩
      rw [if_pos ha]
      obtain ⟨hloops, hreg, hto, hmem, hsn⟩ := wroteLooped_left s w l.ctr (s.pcOf w + 4)
      rcases writeExits_one (s.wroteLooped w l.ctr 0 [] (s.pcOf w + 4)) w.core l.stop with hw | hw
      · rw [hw]
        exact ⟨hloops, hreg, hto, hmem, .inl hsn⟩
      · rw [hw]
        exact ⟨hloops, hreg, hto, hmem, .inr ⟨_, length_exitRecord _ _ _, congrArg (· ++ _) hsn⟩⟩
    · subst hr
      have hm : m.EndsAt (s.pcOf w) := ⟨hp2, hpc.trans hstop.symm, hle2⟩
      refine ⟨_, nop_turns_outer hact hl he hm hne (hf _ (by simp)) (hf _ (by simp)) hc hcm hx, ?_⟩
      rw [setStream_goTo (by simp) (by simp)]
      simp only [State.stream_setStream_self, State.core_setStream_self]
      exact ⟨onlyCore_setCore _ _ _, put_put_reg _ _ h2, by
        rw [Stream.putLooped, Stream.put_eq (Stream.put _ _ _), Stream.put_eq (s.stream w)]⟩
  · simp only [← offTarget_eq]
    exact br_leaves hact hx hl

end Sys2Proof.Machine
end

section
/-! SUPPORT. What a scalar minimum, maximum or comparison picks (R86, R160), and the obligation about them. -/

namespace Sys2Proof.Machine

/-! ## The smaller and the larger of two codes -/

/-- The f32 code that SFMIN, or SFMAX where `isMax`, keeps of two. -/
def pickF32 (isMax : Bool) (x y : Nat) : Nat :=
  canon .f32 (if pickTakes isMax (fmtF32.decode x) (fmtF32.decode y) then y else x)

theorem minEl_f32 : minEl .f32 = pickF32 false := rfl
theorem maxEl_f32 : maxEl .f32 = pickF32 true := rfl

theorem canon_f32_number {x : Nat} (h : (fmtF32.decode x).isNan = false) : canon .f32 x = x := by
  change (if (fmtF32.decode x).isNan = true then fmtF32.nanCode else x) = x
  rw [h, if_neg Bool.false_ne_true]

theorem canon_f32_nan {x : Nat} (h : (fmtF32.decode x).isNan = true) : canon .f32 x = 0x7FC00000 := by
  change (if (fmtF32.decode x).isNan = true then fmtF32.nanCode else x) = _
  rw [h, if_pos rfl]
  rfl

section
variable {isMax : Bool} {A B : Num}

theorem pickTakes_numbers (ha : A.isNan = false) (hb : B.isNan = false) :
    pickTakes isMax A B = if isMax then A.below B else B.below A := by
  cases isMax <;> simp [pickTakes, maxTakes, minTakes, ha, hb]

theorem pickTakes_nan_number (ha : A.isNan = true) (hb : B.isNan = false) : pickTakes isMax A B = true := by
  cases isMax <;> simp [pickTakes, maxTakes, minTakes, ha, hb]

theorem pickTakes_nan_right (hb : B.isNan = true) : pickTakes isMax A B = false := by
  cases isMax <;> simp [pickTakes, maxTakes, minTakes, hb]

end

section
variable {isMax : Bool} {x y : Nat}

/-- Of two numbers the second one is kept where it is the smaller, or the larger. -/
theorem pickF32_numbers {takes : Bool} (hx : (fmtF32.decode x).isNan = false) (hy : (fmtF32.decode y).isNan = false)
    (h : (if isMax then (fmtF32.decode x).below (fmtF32.decode y) else (fmtF32.decode y).below (fmtF32.decode x)) = takes) :
    pickF32 isMax x y = if takes then y else x := by
  rw [pickF32, pickTakes_numbers hx hy, h]
  cases takes
  · exact canon_f32_number hx
  · exact canon_f32_number hy

theorem pickF32_nan_number (hx : (fmtF32.decode x).isNan = true) (hy : (fmtF32.decode y).isNan = false) :
    pickF32 isMax x y = y := by
  rw [pickF32, pickTakes_nan_number hx hy, if_pos rfl, canon_f32_number hy]

theorem pickF32_number_nan (hx : (fmtF32.decode x).isNan = false) (hy : (fmtF32.decode y).isNan = true) :
    pickF32 isMax x y = x := by
  rw [pickF32, pickTakes_nan_right hy, if_neg Bool.false_ne_true, canon_f32_number hx]

theorem pickF32_nans (hx : (fmtF32.decode x).isNan = true) (hy : (fmtF32.decode y).isNan = true) :
    pickF32 isMax x y = 0x7FC00000 := by
  rw [pickF32, pickTakes_nan_right hy, if_neg Bool.false_ne_true, canon_f32_nan hx]

end

/-! ## The conditions of a comparison -/

section
variable {A B : Num}

/-- Codes 0 to 5 ask whether the order of two numbers is, or is not, a given one. -/
theorem condHolds_numbers (ha : A.isNan = false) (hb : B.isNan = false) :
    ∀ p ∈ [(0, Ordering.eq, true), (1, .eq, false), (2, .lt, true), (3, .gt, false), (4, .gt, true), (5, .lt, false)],
      condHolds p.1 A B = decide ((A.cmp B == p.2.1) = p.2.2) := by
  simp [condHolds, ha, hb, bne, beq_eq_decide]

/-- With a NaN only `.ne` and `.un` hold. -/
theorem condHolds_nan (h : A.isNan = true ∨ B.isNan = true) {c : Nat} (hc : c < 8) :
    condHolds c A B = decide (c = 1 ∨ c = 6) := by
  have hun : (A.isNan || B.isNan) = true := by simpa using h
  interval_cases c <;> simp [condHolds, hun]

theorem condHolds_unordered_numbers (ha : A.isNan = false) (hb : B.isNan = false) : condHolds 6 A B = false := by
  simp [condHolds, ha, hb]

theorem condHolds_ordered_numbers (ha : A.isNan = false) (hb : B.isNan = false) : condHolds 7 A B = true := by
  simp [condHolds, ha, hb]

end

/-! ## The forms -/

section
variable {i : Instr} {s : State} {w : Who} {d a b : Nat}

theorem whoOn_x_of_acts (h : Acts s w) (hx : w.eng = .x) : s.whoOn .x = w := by
  rw [whoOn_of_acts h, ← hx]

/-- A form of the execute engine that computes `d` from registers `a` and `b` writes what it computes. -/
theorem binaryX_writes (f : Word → Word → Word) (h : CanRun s w [a, b, d] 4) (hx : w.eng = .x)
    (hi : exec i s = scalarForm (s.whoOn .x) [a, b] d (f (regOf s (s.whoOn .x) a) (regOf s (s.whoOn .x) b)) s) :
    WritesReg i s w d (f (regOf s w a) (regOf s w b)) := by
  obtain ⟨hact, hfull, hstr⟩ := h
  rw [WritesReg, hi, whoOn_x_of_acts hact hx]
  exact scalarForm_writes (hfull.subset (by simp)) hstr (hfull d (by simp))

theorem scalarPick_writes {isMax : Bool} {v : Nat} (h : CanRun s w [a, b, d] 4) (hx : w.eng = .x)
    (hi : exec i s = scalarPick d a b (pickF32 isMax) s)
    (hv : pickF32 isMax ((regOf s w a).toNat % 2 ^ 32) ((regOf s w b).toNat % 2 ^ 32) = v) :
    WritesReg i s w d (BitVec.ofNat 64 v) := by
  rw [← hv]
  exact binaryX_writes (fun x y => BitVec.ofNat 64 (pickF32 isMax (x.toNat % 2 ^ 32) (y.toNat % 2 ^ 32))) h hx hi

theorem exec_sfmin (s : State) (d a b : Nat) : exec (.sfmin d a b) s = scalarPick d a b (pickF32 false) s := rfl
theorem exec_sfmax (s : State) (d a b : Nat) : exec (.sfmax d a b) s = scalarPick d a b (pickF32 true) s := rfl

/-- SFMIN and SFMAX are the two picks. -/
theorem exec_scalarPick (s : State) (d a b : Nat) :
    ∀ i ∈ [Instr.sfmin d a b, .sfmax d a b], ∃ isMax, exec i s = scalarPick d a b (pickF32 isMax) s := by
  simp only [List.mem_cons, List.not_mem_nil, or_false, forall_eq_or_imp, forall_eq]
  exact ⟨⟨false, exec_sfmin s d a b⟩, ⟨true, exec_sfmax s d a b⟩⟩

/-- A value that both picks give is what both forms write. -/
theorem scalarPicks_write {v : Nat} (h : CanRun s w [a, b, d] 4) (hx : w.eng = .x)
    (hv : ∀ isMax, pickF32 isMax ((regOf s w a).toNat % 2 ^ 32) ((regOf s w b).toNat % 2 ^ 32) = v) :
    ∀ i ∈ [Instr.sfmin d a b, .sfmax d a b], WritesReg i s w d (BitVec.ofNat 64 v) := by
  intro i hi
  obtain ⟨isMax, hexec⟩ := exec_scalarPick s d a b i hi
  exact scalarPick_writes h hx hexec (hv isMax)

/-- A comparison writes 1 where its condition holds, else 0. -/
theorem sfcmp_writes {c : Nat} {holds : Prop} [Decidable holds] (h : CanRun s w [a, b, d] 4) (hx : w.eng = .x)
    (hc : condHolds c (f32Of (regOf s w a)) (f32Of (regOf s w b)) = decide holds) :
    WritesReg (.sfcmp d a b c) s w d (if holds then 1 else 0) := by
  have hw := binaryX_writes (i := .sfcmp d a b c) (fun x y => if condHolds c (f32Of x) (f32Of y) then 1 else 0) h hx rfl
  simpa only [hc, decide_eq_true_eq] using hw

end

/-- Settles O21, by what the picks keep and the conditions say of two numbers, of a number and a NaN, and of two NaNs. -/
theorem scalarFloatOrder : Obligations.ScalarFloatOrder := by
  intro s w d a b hrun hx x y A B
  refine ⟨fun ha hb => ⟨fun h => ?_, fun h => ?_, fun h => ?_, fun h => ?_, fun p hp => ?_⟩,
    fun ha hb => scalarPicks_write hrun hx fun _ => pickF32_nan_number ha hb,
    fun ha hb => scalarPicks_write hrun hx fun _ => pickF32_number_nan ha hb,
    fun ha hb => scalarPicks_write hrun hx fun _ => pickF32_nans ha hb,
    fun hnan c hc => sfcmp_writes hrun hx (condHolds_nan hnan hc), fun ha hb => ⟨?_, ?_⟩⟩
  · exact scalarPick_writes hrun hx (exec_sfmin s d a b) (pickF32_numbers (isMax := false) ha hb h)
  · exact scalarPick_writes hrun hx (exec_sfmin s d a b) (pickF32_numbers (isMax := false) ha hb h)
  · exact scalarPick_writes hrun hx (exec_sfmax s d a b) (pickF32_numbers (isMax := true) ha hb h)
  · exact scalarPick_writes hrun hx (exec_sfmax s d a b) (pickF32_numbers (isMax := true) ha hb h)
  · exact sfcmp_writes hrun hx (condHolds_numbers ha hb p hp)
  · exact sfcmp_writes (holds := False) hrun hx (condHolds_unordered_numbers ha hb)
  · exact sfcmp_writes (holds := True) hrun hx (condHolds_ordered_numbers ha hb)

end Sys2Proof.Machine
end

section
/-! SUPPORT. The elements and bits of whole vectors (R65), and what logic, shifts and carry-less products compute of them
(R167, R170, R194). -/

namespace Sys2Proof.Machine

/-! ## Elements of a vector (R65) -/

theorem vget_lt (w : Nat) (v : Vec) (j : Nat) : vget w v j < 2 ^ (8 * w) := Nat.mod_lt _ (Nat.two_pow_pos _)

/-- Bit `m` of an element is that bit of the vector at the element's place. -/
theorem vget_testBit {w m : Nat} (v : Vec) (j : Nat) (hm : m < 8 * w) :
    (vget w v j).testBit m = v.getLsbD (8 * w * j + m) := by
  rw [vget, Nat.testBit_mod_two_pow, Nat.testBit_div_two_pow, decide_eq_true hm, Bool.true_and, Nat.add_comm m,
    BitVec.testBit_toNat]

/-- A bit of a vector is a bit of one of its 64-bit elements. -/
theorem getLsbD_eq_testBit_vget (v : Vec) (m : Nat) : v.getLsbD m = (vget 8 v (m / 64)).testBit (m % 64) := by
  rw [vget_testBit _ _ (Nat.mod_lt _ (by decide)), Nat.div_add_mod]

theorem natOfEls_digit (w : Nat) (l : List Nat) (j : Nat) :
    natOfEls w l / 2 ^ (8 * w * j) % 2 ^ (8 * w) = l.getD j 0 % 2 ^ (8 * w) := by
  induction l generalizing j with
  | nil => simp [natOfEls]
  | cons e t ih =>
    cases j with
    | zero => simp [natOfEls]
    | succ j =>
      have hlow : e % 2 ^ (8 * w) < 2 ^ (8 * w) := Nat.mod_lt _ (Nat.two_pow_pos _)
      have hpow : 2 ^ (8 * w * (j + 1)) = 2 ^ (8 * w) * 2 ^ (8 * w * j) := by rw [Nat.mul_succ, Nat.pow_add, Nat.mul_comm]
      rw [natOfEls, hpow, ← Nat.div_div_eq_div_mul, Nat.add_mul_div_left _ _ (Nat.two_pow_pos _), Nat.div_eq_of_lt hlow,
        Nat.zero_add, ih, List.getD_cons_succ]

/-- An element of a vector that is given by its elements. -/
theorem vget_vecOfEls {w j : Nat} (l : List Nat) (hj : j < 512 / w) : vget w (vecOfEls w l) j = l.getD j 0 % 2 ^ (8 * w) := by
  have hin : 8 * w * j + 8 * w ≤ 4096 := by
    have hmul : w * (j + 1) ≤ w * (512 / w) := Nat.mul_le_mul_left w hj
    have hdiv : w * (512 / w) ≤ 512 := Nat.mul_div_le 512 w
    calc 8 * w * j + 8 * w = 8 * (w * (j + 1)) := by ring
      _ ≤ 8 * 512 := Nat.mul_le_mul_left 8 (hmul.trans hdiv)
  apply Nat.eq_of_testBit_eq
  intro m
  by_cases hm : m < 8 * w
  · have hbit : (natOfEls w l).testBit (8 * w * j + m) = (l.getD j 0 % 2 ^ (8 * w)).testBit m := by
      rw [← natOfEls_digit, Nat.testBit_mod_two_pow, decide_eq_true hm, Bool.true_and, Nat.testBit_div_two_pow, Nat.add_comm]
    rw [vget_testBit _ _ hm, vecOfEls, BitVec.getLsbD_ofNat, decide_eq_true (by omega), Bool.true_and, hbit]
  · rw [vget, Nat.testBit_mod_two_pow, Nat.testBit_mod_two_pow, decide_eq_false hm, Bool.false_and, Bool.false_and]

theorem length_els (w : Nat) (v : Vec) : (els w v).length = 512 / w := by simp [els]

theorem getElem_els {w j : Nat} {v : Vec} (h : j < (els w v).length) : (els w v)[j] = vget w v j := by simp [els]

theorem getD_els {w j : Nat} (v : Vec) (hj : j < 512 / w) : (els w v).getD j 0 = vget w v j := by
  have hlen : j < (els w v).length := by rwa [length_els]
  rw [List.getD_eq_getElem _ _ hlen, getElem_els]

/-- An element of an element-wise operation. -/
theorem vget_map2 {w j : Nat} (f : Nat → Nat → Nat) (a b : Vec) (hj : j < 512 / w) :
    vget w (map2 w f a b) j = f (vget w a j) (vget w b j) % 2 ^ (8 * w) := by
  have hlen : j < (List.zipWith f (els w a) (els w b)).length := by simpa [length_els] using hj
  rw [map2, vget_vecOfEls _ hj, List.getD_eq_getElem _ _ hlen, List.getElem_zipWith, getElem_els, getElem_els]

/-! ## Shifts (R170) -/

theorem width_pos (t : Ty) : 0 < t.width := by cases t <;> decide

theorem wrapTo_lt (bits : Nat) (i : Int) : wrapTo bits i < 2 ^ bits := by
  have hpos : (0 : Int) < ((2 ^ bits : Nat) : Int) := by positivity
  exact (Int.toNat_lt (Int.emod_nonneg _ hpos.ne')).mpr (Int.emod_lt_of_pos i hpos)

/-- A left shift by the width or more leaves nothing. -/
theorem shiftEl_left (t : Ty) (x n : Nat) : shiftEl t 0 x n = x * 2 ^ n % 2 ^ (8 * t.width) := by
  by_cases h : n < 8 * t.width
  · simp only [shiftEl, if_pos h]
  · have hdvd : 2 ^ (8 * t.width) ∣ x * 2 ^ n := (Nat.pow_dvd_pow 2 (Nat.le_of_not_lt h)).mul_left x
    simp only [shiftEl, if_neg h, Nat.mod_eq_zero_of_dvd hdvd]

section
variable {t : Ty} {x n : Nat} (hx : x < 2 ^ (8 * t.width))
include hx

theorem lt_two_pow_of_width_le (h : ¬ n < 8 * t.width) : x < 2 ^ n :=
  hx.trans_le (Nat.pow_le_pow_right (by decide) (Nat.le_of_not_lt h))

theorem shiftEl_right : shiftEl t 1 x n = x / 2 ^ n := by
  by_cases h : n < 8 * t.width
  · simp only [shiftEl, if_pos h]
  · simp only [shiftEl, if_neg h, Nat.div_eq_of_lt (lt_two_pow_of_width_le hx h)]

/-- The signed reading of a field is within 2^n on either side where the field has at most `n` bits. -/
theorem signedField_bounds (h : ¬ n < 8 * t.width) :
    -((2 ^ n : Nat) : Int) ≤ signedField x (8 * t.width) ∧ signedField x (8 * t.width) < ((2 ^ n : Nat) : Int) := by
  have hle : 2 ^ (8 * t.width) ≤ 2 ^ n := Nat.pow_le_pow_right (by decide) (Nat.le_of_not_lt h)
  unfold signedField
  split <;> omega

/-- An arithmetic shift divides and rounds down; by the width or more it leaves copies of the sign. -/
theorem shiftEl_arith : shiftEl t 2 x n =
    ((signedField x (8 * t.width)).fdiv (2 ^ n : Nat) % (2 ^ (8 * t.width) : Nat)).toNat := by
  rw [Int.fdiv_eq_ediv_of_nonneg _ (Int.natCast_nonneg _)]
  by_cases h : n < 8 * t.width
  · simp only [shiftEl, if_pos h, wrapTo]
  · obtain ⟨hlow, hhigh⟩ := signedField_bounds hx h
    by_cases hs : 0 ≤ signedField x (8 * t.width)
    · simp only [shiftEl, if_neg h, if_pos hs, Int.ediv_eq_zero_of_lt hs hhigh, Int.zero_emod, Int.toNat_zero]
    · have hdiv : signedField x (8 * t.width) / ((2 ^ n : Nat) : Int) = -1 := by
        rw [Int.ediv_eq_iff_of_pos (by positivity)]
        omega
      have hone : 1 ≤ 2 ^ (8 * t.width) := Nat.one_le_two_pow
      have hmod : (-1 : Int) % (2 ^ (8 * t.width) : Nat) = ((2 ^ (8 * t.width) - 1 : Nat) : Int) := by
        rw [← Int.add_emod_right, Int.emod_eq_of_lt] <;> omega
      simp only [shiftEl, if_neg h, if_neg hs, hdiv, hmod, Int.toNat_natCast]

end

/-- A rotation counts modulo the width. -/
theorem shiftEl_rotate (t : Ty) (x n : Nat) : shiftEl t 3 x n =
    x * 2 ^ (n % (8 * t.width)) % 2 ^ (8 * t.width) + x / 2 ^ (8 * t.width - n % (8 * t.width)) := rfl

/-- A rotation stays within the width. -/
theorem rotate_lt {W k x : Nat} (hk : k ≤ W) (hx : x < 2 ^ W) : x * 2 ^ k % 2 ^ W + x / 2 ^ (W - k) < 2 ^ W := by
  have hW : 2 ^ W = 2 ^ (W - k) * 2 ^ k := by rw [← Nat.pow_add, Nat.sub_add_cancel hk]
  have hlow : x / 2 ^ (W - k) < 2 ^ k := Nat.div_lt_of_lt_mul (hW ▸ hx)
  have hhigh : x % 2 ^ (W - k) < 2 ^ (W - k) := Nat.mod_lt _ (Nat.two_pow_pos _)
  calc x * 2 ^ k % 2 ^ W + x / 2 ^ (W - k) = x % 2 ^ (W - k) * 2 ^ k + x / 2 ^ (W - k) := by rw [hW, Nat.mul_mod_mul_right]
    _ < x % 2 ^ (W - k) * 2 ^ k + 2 ^ k := Nat.add_lt_add_left hlow _
    _ = (x % 2 ^ (W - k) + 1) * 2 ^ k := (Nat.succ_mul _ _).symm
    _ ≤ 2 ^ (W - k) * 2 ^ k := Nat.mul_le_mul_right _ hhigh
    _ = 2 ^ W := hW.symm

/-! ## Parities -/

/-- Whether a property holds of an odd number of the numbers below `n`. -/
def oddCount (p : Nat → Bool) (n : Nat) : Bool := ((List.range n).filter p).length % 2 == 1

@[simp] theorem oddCount_zero (p : Nat → Bool) : oddCount p 0 = false := rfl

theorem add_one_odd (n : Nat) : ((n + 1) % 2 == 1) = !(n % 2 == 1) := by
  rcases Nat.mod_two_eq_zero_or_one n with h | h <;> simp [Nat.add_mod, h]

theorem odd_add_carry (n : Nat) (b : Bool) : ((n + if b then 1 else 0) % 2 == 1) = ((n % 2 == 1) ^^ b) := by
  cases b
  · simp
  · simp [add_one_odd]

/-- The last number joins the count. -/
theorem oddCount_succ (p : Nat → Bool) (n : Nat) : oddCount p (n + 1) = (oddCount p n ^^ p n) := by
  cases hp : p n <;> simp [oddCount, List.range_succ, List.filter_append, hp, add_one_odd]

theorem oddCount_add (p : Nat → Bool) (m n : Nat) :
    oddCount p (m + n) = (oddCount p m ^^ oddCount (fun i => p (m + i)) n) := by
  induction n with
  | zero => simp
  | succ n ih => rw [← Nat.add_assoc, oddCount_succ, ih, oddCount_succ, Bool.xor_assoc]

/-- The first number taken out of the count. -/
theorem oddCount_succ_first (p : Nat → Bool) (n : Nat) : oddCount p (n + 1) = (p 0 ^^ oddCount (fun i => p (i + 1)) n) := by
  rw [Nat.add_comm n, oddCount_add, oddCount_succ, oddCount_zero, Bool.false_xor]
  simp only [Nat.add_comm 1]

theorem oddCount_congr {p q : Nat → Bool} {n : Nat} (h : ∀ i < n, p i = q i) : oddCount p n = oddCount q n := by
  have hf : (List.range n).filter p = (List.range n).filter q := List.filter_congr fun i hi => h i (List.mem_range.mp hi)
  rw [oddCount, oddCount, hf]

/-- Counting down is counting up. -/
theorem oddCount_reflect (p : Nat → Bool) (m : Nat) : oddCount (fun i => p (m - i)) (m + 1) = oddCount p (m + 1) := by
  induction m with
  | zero => rfl
  | succ m ih =>
    rw [oddCount_succ_first, oddCount_succ p]
    simp only [Nat.sub_zero, Nat.add_sub_add_right, ih, Bool.xor_comm]

/-- Numbers without the property do not count. -/
theorem oddCount_of_false_above {p : Nat → Bool} {m n : Nat} (hmn : m ≤ n) (h : ∀ i, m ≤ i → i < n → p i = false) :
    oddCount p n = oddCount p m := by
  obtain ⟨r, rfl⟩ := Nat.exists_eq_add_of_le hmn
  have hz : oddCount (fun i => p (m + i)) r = oddCount (fun _ => false) r := oddCount_congr fun i hi => h _ (by omega) (by omega)
  rw [oddCount_add, hz]
  simp [oddCount]

theorem parity_eq_oddCount (n v : Nat) : parity n v = oddCount v.testBit n := by
  induction n generalizing v with
  | zero => rfl
  | succ n ih =>
    rw [parity, ih, oddCount_succ_first, Nat.testBit_zero]
    simp only [Nat.testBit_succ, Bool.bne_eq_xor, beq_eq_decide]

/-! ## Carry-less products (R194) -/

/-- Bit `m` of the XOR of shifted copies is the parity of the bit products of total weight `m`. -/
theorem clmulLoop_testBit (n a b m : Nat) : (clmulLoop n a b).testBit m =
    oddCount (fun i => decide (i ≤ m) && a.testBit (m - i) && b.testBit i) n := by
  induction n generalizing a b with
  | zero => simp [clmulLoop]
  | succ n ih =>
    have hfirst : (if b % 2 = 1 then a else 0).testBit m = (a.testBit m && b.testBit 0) := by
      by_cases hb : b % 2 = 1 <;> simp [Nat.testBit_zero, hb]
    have hrest : ∀ i, (decide (i ≤ m) && (2 * a).testBit (m - i) && (b / 2).testBit i) =
        (decide (i + 1 ≤ m) && a.testBit (m - (i + 1)) && b.testBit (i + 1)) := by
      intro i
      by_cases hi : i + 1 ≤ m
      · have hsub : m - i = m - (i + 1) + 1 := by omega
        rw [hsub, Nat.testBit_succ, Nat.mul_div_cancel_left _ (by decide), Nat.testBit_succ, decide_eq_true hi,
          decide_eq_true (Nat.le_of_succ_le hi)]
      · have hsub : m - i = 0 := by omega
        simp [hi, hsub]
    rw [clmulLoop, Nat.testBit_xor, hfirst, ih, oddCount_succ_first]
    simp [hrest]

theorem vClmul_lo (a b : Vec) : vClmul 0 a b = XRes.of (map2 8 (fun x y => clmulLoop 64 x y % 2 ^ 64) a b) := rfl
theorem vClmul_hi (a b : Vec) : vClmul 1 a b = XRes.of (map2 8 (fun x y => clmulLoop 64 x y / 2 ^ 64) a b) := rfl
theorem vClmul_px (a b : Vec) : vClmul 2 a b = XRes.of (vecOfEls 8 (prefixXor (els 8 a) (b.toNat % 2 == 1))) := rfl

/-- A product with all ones gives the running parities. -/
theorem clmulLoop_ones_testBit (x : Nat) {m : Nat} (hm : m < 64) :
    (clmulLoop 64 x (2 ^ 64 - 1)).testBit m = oddCount x.testBit (m + 1) := by
  rw [clmulLoop_testBit, oddCount_of_false_above (m := m + 1) hm fun i hi _ => by simp [Nat.not_le.mpr hi],
    ← oddCount_reflect x.testBit]
  refine oddCount_congr fun i hi => ?_
  have hle : i ≤ m := Nat.le_of_lt_succ hi
  have h64 : i < 64 := by omega
  rw [Nat.testBit_two_pow_sub_one, decide_eq_true hle, decide_eq_true h64, Bool.true_and, Bool.and_true]

/-- Bit `i` of a list of 64-bit elements. -/
def listBit (l : List Nat) (i : Nat) : Bool := (l.getD (i / 64) 0).testBit (i % 64)

theorem listBit_cons_low (x : Nat) (l : List Nat) {i : Nat} (h : i < 64) : listBit (x :: l) i = x.testBit i := by
  simp [listBit, Nat.div_eq_of_lt h, Nat.mod_eq_of_lt h]

theorem listBit_cons_high (x : Nat) (l : List Nat) (i : Nat) : listBit (x :: l) (64 + i) = listBit l i := by
  simp [listBit, Nat.add_div_left]

theorem listBit_els (v : Vec) {i : Nat} (h : i < 4096) : listBit (els 8 v) i = v.getLsbD i := by
  rw [listBit, getD_els _ (by omega), ← getLsbD_eq_testBit_vget]

theorem complement_testBit {y m : Nat} (hy : y < 2 ^ 64) (hm : m < 64) : (2 ^ 64 - 1 - y).testBit m = !y.testBit m := by
  have hsub : 2 ^ 64 - 1 - y = 2 ^ 64 - (y + 1) := by omega
  rw [hsub, Nat.testBit_two_pow_sub_succ hy, decide_eq_true hm, Bool.true_and]

/-- The running parity over a list from a carry-in, bit by bit. -/
theorem prefixXor_testBit (l : List Nat) (par : Bool) (j : Nat) (hj : j < l.length) {m : Nat} (hm : m < 64) :
    ((prefixXor l par).getD j 0).testBit m = (oddCount (listBit l) (64 * j + m + 1) ^^ par) := by
  induction l generalizing par j with
  | nil => simp at hj
  | cons x t ih =>
    cases j with
    | zero =>
      have hy : (clmulLoop 64 x (2 ^ 64 - 1) % 2 ^ 64).testBit m = oddCount (listBit (x :: t)) (m + 1) := by
        rw [Nat.testBit_mod_two_pow, decide_eq_true hm, Bool.true_and, clmulLoop_ones_testBit x hm]
        exact oddCount_congr fun i hi => (listBit_cons_low x t (by omega)).symm
      have hlt : clmulLoop 64 x (2 ^ 64 - 1) % 2 ^ 64 < 2 ^ 64 := Nat.mod_lt _ (by decide)
      rw [prefixXor, List.getD_cons_zero, Nat.mul_zero, Nat.zero_add, ← hy]
      cases par
      · rw [if_neg Bool.false_ne_true, Bool.xor_false]
      · rw [if_pos rfl, complement_testBit hlt hm, Bool.xor_true]
    | succ j =>
      have hx : parity 64 x = oddCount (listBit (x :: t)) 64 := by
        rw [parity_eq_oddCount]
        exact oddCount_congr fun i hi => (listBit_cons_low x t hi).symm
      have hsum : 64 * (j + 1) + m + 1 = 64 + (64 * j + m + 1) := by ring
      have hhigh : (fun i => listBit (x :: t) (64 + i)) = listBit t := funext (listBit_cons_high x t)
      rw [prefixXor, List.getD_cons_succ, ih _ _ (Nat.lt_of_succ_lt_succ hj), hx, hsum, oddCount_add (listBit (x :: t)) 64,
        hhigh, Bool.bne_eq_xor, Bool.xor_comm par, Bool.xor_left_comm, ← Bool.xor_assoc]

/-! ## Logic (R167) -/

/-- Each operator of PLOG and VLOG works bit by bit. -/
theorem logOp_bits {n : Nat} (op : Nat) (f : Bool → Bool → Bool)
    (hf : (op, f) ∈ [(0, Bool.and), (1, Bool.or), (2, Bool.xor), (3, fun x y => x && !y),
      (4, fun x y => x || !y), (5, fun x y => !(x && y)), (6, fun x y => !(x || y)), (7, fun x y => !(Bool.xor x y))])
    (x y : BitVec n) : ∀ i < n, (logOp op x y).getLsbD i = f (x.getLsbD i) (y.getLsbD i) := by
  intro i hi
  simp only [List.mem_cons, List.not_mem_nil, or_false, Prod.mk.injEq] at hf
  obtain ⟨rfl, rfl⟩ | ⟨rfl, rfl⟩ | ⟨rfl, rfl⟩ | ⟨rfl, rfl⟩ | ⟨rfl, rfl⟩ | ⟨rfl, rfl⟩ | ⟨rfl, rfl⟩ | ⟨rfl, rfl⟩ := hf <;>
    simp [logOp, hi]

end Sys2Proof.Machine
end

section
/-! SUPPORT. The vector forms of logic, shifts and carry-less products (R170, R194), and the obligation about them. -/

namespace Sys2Proof.Machine

/-! ## Forms of two sources -/

section
variable {i : Instr} {s : State} {w : Who} {d : XDst} {a b : XSrc} {c : XCtl}

/-- A form without a rounding, of two sources read in one type, runs where it can, with the result that its operation gives. -/
theorem map2Form_does {ty : Ty} {op : Vec → Vec → XRes} (h : XCan i s w)
    (hs : xShape i = some ⟨c, [a, b], .vec d, .rne, false, false⟩) (hi : exec i s = map2Form (form i d [a, b] c) ty op s)
    (hf : (op (xIn s w [a, b] 0 ty) (xIn s w [a, b] 1 ty)).flags = 0) :
    XDoes i s w (op (xIn s w [a, b] 0 ty) (xIn s w [a, b] 1 ty)).out := by
  obtain ⟨_, sh, hsh, hready⟩ := h
  obtain rfl : _ = sh := Option.some.inj (hs.symm.trans hsh)
  have hov : overflows (s.stream w) (op (xIn s w [a, b] 0 ty) (xIn s w [a, b] 1 ty)).out.flags = false := by
    simp [XRes.out, hf, overflows]
  obtain ⟨t, ht, heff⟩ := xFrame_runs (f := form i d [a, b] c) (check := noCheck)
    (body := fun _ _ v => (op ((src v 0).as ty) ((src v 1).as ty)).out) hready rfl rfl (.inr hov)
  exact ⟨_, t, hs, hi.trans ht, heff⟩

/-- Such a form, where its operation gives a whole vector. -/
theorem map2Form_gives {ty : Ty} {op : Vec → Vec → XRes} {v : Vec} (h : XCan i s w)
    (hs : xShape i = some ⟨c, [a, b], .vec d, .rne, false, false⟩) (hi : exec i s = map2Form (form i d [a, b] c) ty op s)
    (hv : op (xIn s w [a, b] 0 ty) (xIn s w [a, b] 1 ty) = XRes.of v) :
    ∃ o, XDoes i s w o ∧ o.part = BitVec.allOnes 512 ∧ o.flags = 0 ∧ o.vec = v := by
  have hdoes := map2Form_does h hs hi (by rw [hv]; rfl)
  rw [hv] at hdoes
  exact ⟨_, hdoes, rfl, rfl, rfl⟩

/-- A shift is a form of its elements. -/
theorem vsh_elements {ty : Ty} {op : Nat} {f : Nat → Nat} (h : XCan (.vsh d a b ty op c) s w)
    (hf : ∀ j, shiftEl ty op (vget ty.width (xIn s w [a, b] 0 ty) j) (vget ty.width (xIn s w [a, b] 1 ty) j) = f j)
    (hlt : ∀ j, f j < 2 ^ (8 * ty.width)) : XElements (.vsh d a b ty op c) s w ty f := by
  obtain ⟨o, hdoes, hpart, hflags, hvec⟩ := map2Form_gives (op := vShift ty op) h rfl rfl rfl
  refine ⟨o, hdoes, hpart, hflags, fun j hj => ?_⟩
  rw [hvec, vget_map2 _ _ _ hj, hf, Nat.mod_eq_of_lt (hlt j)]

/-- Logic is bit by bit. -/
theorem vlog_bits {ty : Ty} {op : Nat} {f : Bool → Bool → Bool} (h : XCan (.vlog d a b ty op c) s w)
    (hf : ∀ (x y : Vec), ∀ i < 4096, (logOp op x y).getLsbD i = f (x.getLsbD i) (y.getLsbD i)) :
    ∃ o, XDoes (.vlog d a b ty op c) s w o ∧ o.part = BitVec.allOnes 512 ∧ o.flags = 0 ∧
      ∀ i < 4096, o.vec.getLsbD i = f ((xIn s w [a, b] 0 ty).getLsbD i) ((xIn s w [a, b] 1 ty).getLsbD i) := by
  obtain ⟨o, hdoes, hpart, hflags, hvec⟩ := map2Form_gives (op := vLog op) h rfl rfl rfl
  refine ⟨o, hdoes, hpart, hflags, fun i hi => ?_⟩
  rw [hvec]
  exact hf _ _ i hi

/-- The two halves of a carry-less product, each from its lowest bit `lo`. -/
theorem vclmul_bits {op lo : Nat} {half : Nat → Nat} (h : XCan (.vclmul d a b op c) s w)
    (hop : ∀ x y, vClmul op x y = XRes.of (map2 8 (fun x y => half (clmulLoop 64 x y)) x y))
    (hhalf : ∀ x, ∀ m < 64, (half x).testBit m = x.testBit (m + lo)) :
    ∃ o, XDoes (.vclmul d a b op c) s w o ∧ o.part = BitVec.allOnes 512 ∧ o.flags = 0 ∧ ∀ j < 64, ∀ m < 64,
      (vget 8 o.vec j).testBit m = oddCount (fun i => decide (i ≤ m + lo) &&
        (vget 8 (xIn s w [a, b] 0 .z64) j).testBit (m + lo - i) && (vget 8 (xIn s w [a, b] 1 .z64) j).testBit i) 64 := by
  obtain ⟨o, hdoes, hpart, hflags, hvec⟩ := map2Form_gives (op := vClmul op) h rfl rfl (hop _ _)
  refine ⟨o, hdoes, hpart, hflags, fun j hj m hm => ?_⟩
  rw [hvec, vget_map2 _ _ _ hj, Nat.testBit_mod_two_pow, decide_eq_true hm, Bool.true_and, hhalf _ m hm, clmulLoop_testBit]

/-- `.px` gives the running parities from the carry-in. -/
theorem vclmul_parities (h : XCan (.vclmul d a b 2 c) s w) :
    ∃ o, XDoes (.vclmul d a b 2 c) s w o ∧ o.part = BitVec.allOnes 512 ∧ o.flags = 0 ∧ ∀ m < 4096,
      o.vec.getLsbD m = (oddCount (xIn s w [a, b] 0 .z64).getLsbD (m + 1) ^^ (xIn s w [a, b] 1 .z64).getLsbD 0) := by
  obtain ⟨o, hdoes, hpart, hflags, hvec⟩ := map2Form_gives (op := vClmul 2) h rfl rfl (vClmul_px _ _)
  refine ⟨o, hdoes, hpart, hflags, fun m hm => ?_⟩
  have hj : m / 64 < 512 / 8 := by omega
  have hm64 : m % 64 < 64 := Nat.mod_lt _ (by decide)
  rw [hvec, getLsbD_eq_testBit_vget, vget_vecOfEls _ hj, Nat.testBit_mod_two_pow, decide_eq_true hm64, Bool.true_and,
    prefixXor_testBit _ _ _ (by rwa [length_els]) hm64, Nat.div_add_mod]
  congr 1
  · exact oddCount_congr fun i hi => listBit_els _ (by omega)
  · rw [← BitVec.testBit_toNat, Nat.testBit_zero, beq_eq_decide]

end

/-- Settles O26: every form is one of two sources; its elements, or its bits, are those of what it computes. -/
theorem vectorBits : Obligations.VectorBits := by
  intro s w d a b ty op c A B W x n A8 B8 product
  have hx : ∀ j, x j < 2 ^ W := vget_lt _ _
  have hW : 0 < W := Nat.mul_pos (by decide) (width_pos ty)
  refine ⟨fun f hf h => vlog_bits h (logOp_bits op f hf), fun _ h => vsh_elements h (fun j => shiftEl_left ty _ _) fun j => ?_,
    fun _ h => vsh_elements h (fun j => shiftEl_right (hx j)) fun j => ?_,
    fun _ h => vsh_elements h (fun j => shiftEl_arith (hx j)) fun j => ?_,
    fun _ h => vsh_elements h (fun j => shiftEl_rotate ty _ _) fun j => ?_,
    fun h => vclmul_bits (lo := 0) (half := (· % 2 ^ 64)) h vClmul_lo fun z m hm => ?_,
    fun h => vclmul_bits (lo := 64) (half := (· / 2 ^ 64)) h vClmul_hi fun z m _ => ?_, fun h => ?_⟩
  · exact Nat.mod_lt _ (Nat.two_pow_pos _)
  · exact (Nat.div_le_self _ _).trans_lt (hx j)
  · exact wrapTo_lt _ _
  · exact rotate_lt (Nat.mod_lt _ hW).le (hx j)
  · rw [Nat.testBit_mod_two_pow, decide_eq_true hm, Bool.true_and, Nat.add_zero]
  · exact Nat.testBit_div_two_pow z m
  · obtain ⟨o, hdoes, hpart, hflags, hbits⟩ := vclmul_parities h
    refine ⟨o, hdoes, hpart, hflags, fun m hm => ?_⟩
    rw [hbits m hm, odd_add_carry]
    rfl

end Sys2Proof.Machine
end

section
/-! SUPPORT. The machine as a whole: reset, words written out from the encodings, and the step that the canonical form does not
survive. -/

namespace Sys2Proof.Machine

/-! ## A wave whose tile image is kept in no canonical form (R207, R416)

`Canonical` speaks of memory, the boot flash, the tile stores and those of lifelines. A launch keeps the tile image of its wave between
reading it and starting its jobs (`Launch.loaded`), and job start makes that image the tile store of each core; of the image itself
`Canonical` says nothing. -/

/-- A launch of one job on core 0 whose tile image, read already, lists a byte 0 at address 0. -/
def looseImageLaunch : Launch :=
  { record := 0, wave := 0, started := false, cores := [(0, 0)], clusters := [0], vaulted := [], index := 0, grants := [],
    sent := false, due := [], begun := [], loaded := some ([(0, 0)], []), done := [], contribs := [], timed := [], completed := [],
    remoteBars := [], released := [], packages := [0], endedOn := [] }

/-- A package after reset whose dispatcher is about to start the wave of that launch, whose record is built and armed. -/
def looseImageState : State :=
  { State.reset with
    launches := [looseImageLaunch], recs := [(0, ⟨[(0, 0x300)], 0, []⟩)], agenda := [.event (.waveStart 0)] }

theorem looseImageState_canonical : Canonical looseImageState :=
  ⟨rfl, rfl, fun _ => rfl, by simp [looseImageState, State.reset]⟩

/-- What an outcome that is a next state says of that state. -/
def nextSatisfies (p : State → Bool) : Out → Bool
  | .next t => p t
  | _ => false

theorem next_of_nextSatisfies {p : State → Bool} {o : Out} (h : nextSatisfies p o = true) : ∃ t, o = .next t ∧ p t = true := by
  cases o with
  | next t => exact ⟨t, rfl, h⟩
  | fault r => simp [nextSatisfies] at h
  | refused r => simp [nextSatisfies] at h

/-- WAVE_START gives core 0 its job, with the image as its tile store. -/
theorem looseImageState_starts :
    nextSatisfies (fun t => (t.core 0).job.isSome && !(t.core 0).tile.wf) (step looseImageState) = true := by
  decide +kernel

/-- Refutes O60: job start makes the tile image that a launch keeps a core's tile store, whatever its form. -/
theorem not_stepKeepsMemoryCanonical : ¬ Obligations.StepKeepsMemoryCanonical := by
  unfold Obligations.StepKeepsMemoryCanonical
  intro h
  obtain ⟨t, hstep, hloose⟩ := next_of_nextSatisfies looseImageState_starts
  have htile : (t.core 0).tile.wf = true := (h _ t looseImageState_canonical hstep).tiles 0
  simp [htile] at hloose

/-! ## The turn of a stream and of an event (R61, R98, R232) -/

section
variable {u f : State} {w : Who} {i : Instr}

/-- A stream that may issue takes its own turn: its domain runs, or serves its fault. -/
theorem not_justFrozen_of_mayIssue (h : mayIssue u w = true) : justFrozen u w = false := by
  have hown : ownTurn u w = true := by
    simp only [mayIssue, active, Bool.and_eq_true] at h
    exact h.1.1.2
  simp only [ownTurn, Bool.or_eq_true, Bool.and_eq_true, List.isEmpty_iff] at hown
  rcases hown with hempty | ⟨hmine, -⟩
  · simp [justFrozen, freshFreeze, hempty]
  · simp [justFrozen, List.contains_iff_mem.mp hmine]

theorem streamTurn_of_mayIssue (h : mayIssue u w = true) : streamTurn w u = ownStep w u := by
  simp [streamTurn, not_justFrozen_of_mayIssue h]

/-- A stream that may issue, with no late cause to take and no wait to return to, issues what it fetches. -/
theorem issue_of_mayIssue (h : mayIssue u w = true) (hl : (u.stream w).super = true ∨ (u.stream w).late = [])
    (hr : returnsTo u w = none) :
    issue u w = match fetchWords u w with
      | .error (cause, v) => .run (.instructionFetchFault cause v)
      | .ok (w1, w2) =>
        match decodeWords (decodeCtx u w) w1 w2 with
        | .ok i => .run i
        | .error f => .refuse f.cause f.tval := by
  have hlate : (!(u.stream w).super && !(u.stream w).late.isEmpty) = false := by
    rcases hl with hl | hl <;> simp [hl]
  simp only [issue, h, Bool.not_true, Bool.false_eq_true, if_false, hlate, hr] <;> rfl

theorem runInstr_outside (h : shadow f w = false) : runInstr i w f = exec i f := by simp [runInstr, h]

theorem runInstr_refused (h : shadow f w = true) (ha : shadowAllows i = false) : runInstr i w f = .next (shadowFatal f w) := by
  simp [runInstr, h, ha]

theorem runInstr_shadow {t : State} (h : shadow f w = true) (ha : shadowAllows i = true) (ht : exec i f = .next t) :
    runInstr i w f = .next (if shadowStuck f t w then shadowFatal f w else t) := by
  simp [runInstr, h, ha, ht]

theorem step_of_stream {s : State} (ht : (beginTurn s).turn = .stream w.core w.eng) (hc : w.core < 512) :
    step s = afterTurn (beginTurn s) (streamTurn w (beginTurn s)) := by
  simp [step, ht, coreExists, hc]

theorem eventTurn_unfrozen (h : ∀ c, workOf i = some c → freshFreeze u (clusterOf c) = false) : eventTurn i u = exec i u := by
  unfold eventTurn
  split
  · next c hc => simp [h c hc]
  · rfl

theorem newlyHeld_nil {t : State} (h : ∀ c, (t.core c).held = true → (u.core c).held = true) : newlyHeld u t = [] := by
  simp only [newlyHeld, List.filter_eq_nil_iff, Bool.and_eq_true, Bool.not_eq_true', not_and, Bool.not_eq_false]
  exact fun c _ => h c

end

/-- Settles O1: the turn of a stream that may issue is its own, and what it issues is what it fetches and decodes. -/
theorem stepRunsDecoded : Obligations.StepRunsDecoded := by
  refine ⟨fun s w hturn hcore hmay hlate hret => ?_, fun s i hturn hev hwork => ?_, fun u t hheld => ?_⟩
  · have hstep : step s = afterTurn (beginTurn s) (ownStep w (beginTurn s)) := by
      rw [step_of_stream hturn hcore, streamTurn_of_mayIssue hmay]
    have hissue := issue_of_mayIssue hmay hlate hret
    refine ⟨fun w1 w2 i hfetch hdec => ?_, fun w1 w2 d hfetch hdec => ?_, fun cause v hfetch hsh => ?_⟩
    · have hown : ownStep w (beginTurn s) = runInstr i w (fetched (beginTurn s) w) := by
        simp only [ownStep, hissue, hfetch, hdec]
      rw [hstep, hown]
      exact ⟨fun hsh => by rw [runInstr_outside hsh], fun hsh ha => by rw [runInstr_refused hsh ha],
        fun hsh ha t ht => by rw [runInstr_shadow hsh ha ht]⟩
    · simp only [hstep, ownStep, hissue, hfetch, hdec]
    · simp only [hstep, ownStep, hissue, hfetch, runInstr_outside hsh]
  · simp only [step, hturn, hev, if_true, eventTurn_unfrozen hwork]
  · simp [afterTurn, newlyHeld_nil hheld, retryCores]

/-! ## Reset and decoding -/

/-- Settles O3: reset lists no byte at all. -/
theorem resetMemoryCanonical : Obligations.ResetMemoryCanonical :=
  ⟨⟨rfl, rfl, fun _ => rfl, by simp [State.reset]⟩, fun _ => rfl, fun _ _ => rfl⟩

/-- Settles O2: the decoder, run on each word. -/
theorem wordsDecode : Obligations.WordsDecode := ⟨rfl, rfl, rfl, rfl, rfl, rfl⟩

end Sys2Proof.Machine
end

section
/-! SUPPORT. The computed words of addition, multiplication, division and logic (R124, R126), and the obligations about them. -/

namespace Sys2Proof.Machine

/-! ## Sums, products and quotients in numbers -/

theorem add_eq_ofNat (a b : Word) : a + b = BitVec.ofNat 64 (a.toNat + b.toNat) := by
  simp [BitVec.ofNat_add]

theorem sub_eq_ofInt (a b : Word) : a - b = BitVec.ofInt 64 ((a.toNat : Int) - b.toNat) := by
  rw [sub_eq_add_neg, sub_eq_add_neg, BitVec.ofInt_add, BitVec.ofInt_neg]
  simp [BitVec.ofInt_natCast]

theorem add_immWord_eq_ofInt (a : Word) (imm : Int) : a + immWord imm = BitVec.ofInt 64 (a.toNat + imm) := by
  simp [immWord, BitVec.ofInt_add, BitVec.ofInt_natCast]

theorem mul_eq_ofNat (a b : Word) : a * b = BitVec.ofNat 64 (a.toNat * b.toNat) := by
  simp [BitVec.ofNat_mul]

theorem mulHigh_signed (a b : Word) : mulHigh false a b = BitVec.ofInt 64 ((a.toInt * b.toInt).fdiv (2 ^ 64 : Nat)) := by
  rw [Int.fdiv_eq_ediv_of_nonneg _ (Int.natCast_nonneg _)]
  rfl

theorem mulHigh_unsigned (a b : Word) : mulHigh true a b = BitVec.ofNat 64 (a.toNat * b.toNat / 2 ^ 64) := by
  rw [← BitVec.ofInt_natCast]
  simp [mulHigh, xval]

theorem quotient_zero (z : Bool) (a : Word) : quotient z a 0 = BitVec.allOnes 64 := if_pos rfl
theorem remainder_zero (z : Bool) (a : Word) : remainder z a 0 = a := if_pos rfl

theorem quotient_unsigned (a : Word) {b : Word} (hb : b ≠ 0) : quotient true a b = BitVec.ofNat 64 (a.toNat / b.toNat) := by
  rw [quotient, if_neg hb, xval, if_pos rfl, xval, if_pos rfl, ← Int.ofNat_tdiv, BitVec.ofInt_natCast]

theorem remainder_unsigned (a : Word) {b : Word} (hb : b ≠ 0) : remainder true a b = BitVec.ofNat 64 (a.toNat % b.toNat) := by
  rw [remainder, if_neg hb, xval, if_pos rfl, xval, if_pos rfl, ← Int.ofNat_tmod, BitVec.ofInt_natCast]

theorem quotient_signed (a : Word) {b : Word} (hb : b ≠ 0) : quotient false a b = BitVec.ofInt 64 (a.toInt.tdiv b.toInt) := if_neg hb
theorem remainder_signed (a : Word) {b : Word} (hb : b ≠ 0) : remainder false a b = BitVec.ofInt 64 (a.toInt.tmod b.toInt) :=
  if_neg hb

/-- A truncating remainder is 0 or has the sign of the dividend. -/
theorem tmod_sign (x y : Int) : x.tmod y = 0 ∨ (0 < x.tmod y ↔ 0 < x) := by
  rcases le_total 0 x with hx | hx
  · have := Int.tmod_nonneg y hx
    rcases hx.eq_or_lt with rfl | hpos
    · simp
    · omega
  · have := Int.tmod_nonneg y (Int.neg_nonneg.mpr hx)
    rw [Int.neg_tmod] at this
    omega

theorem tmod_natAbs_lt (x : Int) {y : Int} (hy : y ≠ 0) : (x.tmod y).natAbs < y.natAbs := by
  rw [Int.natAbs_tmod]
  exact Nat.mod_lt _ (Int.natAbs_pos.mpr hy)

/-! ## Forms -/

theorem madd_writes {s : State} {w : Who} {d a b : Nat} (h : CanRun s w [a, b, d] 4) :
    WritesReg (.madd d a b) s w d (regOf s w d + regOf s w a * regOf s w b) := by
  obtain ⟨hact, hfull, hstr⟩ := h
  have hi : exec (.madd d a b) s = scalarForm s.who [a, b, d] d _ s := rfl
  rw [WritesReg, hi, who_of_acts hact]
  exact scalarForm_writes hfull hstr (hfull d (by simp))

/-- A form of no register source writes what it computes. -/
theorem constant_writes {i : Instr} {s : State} {w : Who} {d : Nat} {v : Word} (h : CanRun s w [d] 4)
    (hi : exec i s = scalarForm w [] d v s) : WritesReg i s w d v := by
  obtain ⟨-, hfull, hstr⟩ := h
  rw [WritesReg, hi]
  exact scalarForm_writes (by simp [Full]) hstr (hfull d (by simp))

theorem CanRun.subset {s : State} {w : Who} {ms ns : List Nat} {n : Nat} (h : CanRun s w ns n) (hs : ms ⊆ ns) : CanRun s w ms n :=
  ⟨h.1, h.2.1.subset hs, h.2.2⟩

/-- Settles O4: each form writes one word, which is read in numbers. -/
theorem arithmeticAndDivision : Obligations.ArithmeticAndDivision := by
  refine ⟨fun s w d a b imm hrun => ?_, fun s w d a b hrun => ⟨fun hb z => ?_, fun hb => ?_⟩⟩
  · simp only [← add_eq_ofNat, ← sub_eq_ofInt, ← add_immWord_eq_ofInt, ← mul_eq_ofNat, ← mulHigh_signed, ← mulHigh_unsigned]
    refine ⟨binary_writes (fun x y => x + y) hrun rfl, binary_writes (fun x y => x - y) hrun rfl,
      unary_writes (fun x => x + immWord imm) hrun rfl, binary_writes (fun x y => x * y) hrun rfl,
      binary_writes (mulHigh false) hrun rfl, binary_writes (mulHigh true) hrun rfl, ?_⟩
    have hsum : BitVec.ofNat 64 ((regOf s w d).toNat + (regOf s w a).toNat * (regOf s w b).toNat) =
        regOf s w d + regOf s w a * regOf s w b := by
      rw [BitVec.ofNat_add, ← mul_eq_ofNat, BitVec.ofNat_toNat, BitVec.setWidth_eq]
    rw [hsum]
    exact madd_writes hrun
  · have hq := binary_writes (quotient z) hrun (i := .div d a b false z) rfl
    have hr := binary_writes (remainder z) hrun (i := .div d a b true z) rfl
    rw [hb, quotient_zero] at hq
    rw [hb, remainder_zero] at hr
    exact ⟨hq, hr⟩
  · have hy : (regOf s w b).toInt ≠ 0 := fun h => hb (BitVec.toInt_inj.mp (by simpa using h))
    rw [← quotient_unsigned _ hb, ← remainder_unsigned _ hb]
    refine ⟨binary_writes (quotient true) hrun rfl, binary_writes (remainder true) hrun rfl,
      (regOf s w a).toInt.tdiv (regOf s w b).toInt, (regOf s w a).toInt.tmod (regOf s w b).toInt,
      (Int.tdiv_mul_add_tmod _ _).symm, tmod_natAbs_lt _ hy, tmod_sign _ _, ?_, ?_⟩
    · rw [← quotient_signed _ hb]
      exact binary_writes (quotient false) hrun rfl
    · rw [← remainder_signed _ hb]
      exact binary_writes (remainder false) hrun rfl

/-! ## Fields and logic, bit by bit -/

/-- The bits of a word one of whose fields is replaced. -/
theorem getLsbD_setField (x : Word) {lo len v : Nat} (hlen : 0 < len) (hv : v < 2 ^ len) {n : Nat} (hn : n < 64) :
    (setField x (lo + len - 1) lo v).getLsbD n = if lo ≤ n ∧ n < lo + len then v.testBit (n - lo) else x.getLsbD n := by
  have hhi : lo + len - 1 + 1 = lo + len := by omega
  have hwid : lo + len - lo = len := by omega
  have hsplit : x.toNat / 2 ^ (lo + len) * 2 ^ (lo + len) + v * 2 ^ lo + x.toNat % 2 ^ lo =
      2 ^ lo * (2 ^ len * (x.toNat / 2 ^ (lo + len)) + v) + x.toNat % 2 ^ lo := by ring
  rw [setField, hhi, hwid, Nat.mod_eq_of_lt hv, hsplit, BitVec.getLsbD_ofNat, BitVec.getLsbD,
    Nat.testBit_two_pow_mul_add _ (Nat.mod_lt _ (Nat.two_pow_pos lo)), Nat.testBit_two_pow_mul_add _ hv, Nat.testBit_mod_two_pow,
    Nat.testBit_div_two_pow]
  simp only [hn, decide_true, Bool.true_and]
  by_cases hlo : n < lo
  · simp [hlo, Nat.not_le.mpr hlo]
  · by_cases hmid : n - lo < len
    · rw [if_neg hlo, if_pos hmid, if_pos (by omega)]
    · rw [if_neg hlo, if_neg hmid, if_neg (by omega)]
      congr 1
      omega

section
variable {s : State} {w : Who} {d a b : Nat} {imm : Int}

/-- The three connectives, and the forms that compute them bit by bit. -/
theorem logic_writes (h : CanRun s w [a, b, d] 4) : ∀ (i : Instr) (f : Bool → Bool → Bool),
    (i, f) ∈ [(.and d a b, Bool.and), (.or d a b, Bool.or), (.xor d a b, Bool.xor)] →
      ∃ v : Word, WritesReg i s w d v ∧ ∀ n < 64, v.getLsbD n = f ((regOf s w a).getLsbD n) ((regOf s w b).getLsbD n) := by
  intro i f hi
  simp only [List.mem_cons, List.not_mem_nil, or_false, Prod.mk.injEq] at hi
  rcases hi with ⟨rfl, rfl⟩ | ⟨rfl, rfl⟩ | ⟨rfl, rfl⟩
  · exact ⟨_, binary_writes (fun x y => x &&& y) h rfl, fun n _ => BitVec.getLsbD_and⟩
  · exact ⟨_, binary_writes (fun x y => x ||| y) h rfl, fun n _ => BitVec.getLsbD_or⟩
  · exact ⟨_, binary_writes (fun x y => x ^^^ y) h rfl, fun n _ => BitVec.getLsbD_xor⟩

theorem logicImm_writes (h : CanRun s w [a, b, d] 4) : ∀ (i : Instr) (f : Bool → Bool → Bool),
    (i, f) ∈ [(.andi d a imm, Bool.and), (.ori d a imm, Bool.or), (.xori d a imm, Bool.xor)] →
      ∃ v : Word, WritesReg i s w d v ∧
        ∀ n < 64, v.getLsbD n = f ((regOf s w a).getLsbD n) ((BitVec.ofInt 64 imm).getLsbD n) := by
  intro i f hi
  simp only [List.mem_cons, List.not_mem_nil, or_false, Prod.mk.injEq] at hi
  rcases hi with ⟨rfl, rfl⟩ | ⟨rfl, rfl⟩ | ⟨rfl, rfl⟩
  · exact ⟨_, unary_writes (fun x => x &&& immWord imm) h rfl, fun n _ => BitVec.getLsbD_and⟩
  · exact ⟨_, unary_writes (fun x => x ||| immWord imm) h rfl, fun n _ => BitVec.getLsbD_or⟩
  · exact ⟨_, unary_writes (fun x => x ^^^ immWord imm) h rfl, fun n _ => BitVec.getLsbD_xor⟩

end

/-- Settles O5: the connectives act on each bit, MOVK replaces one field, and NOP completes. -/
theorem logicResults : Obligations.LogicResults := by
  intro s w d a b pos imm16 imm hrun _ himm
  obtain ⟨hact, hfull, hstr⟩ := hrun
  have hd : CanRun s w [d] 4 := ⟨hact, hfull.subset (by simp), hstr⟩
  refine ⟨logic_writes ⟨hact, hfull, hstr⟩, logicImm_writes ⟨hact, hfull, hstr⟩, constant_writes hd ?_,
    ⟨_, unary_writes (b := d) (fun x => setField x (16 * pos + 15) (16 * pos) imm16)
      ⟨hact, hfull.subset (by simp), hstr⟩ rfl, fun n hn => getLsbD_setField (len := 16) _ (by decide) himm hn⟩, ?_⟩
  · change scalarForm s.who [] d (immWord imm) s = _
    rw [who_of_acts hact]
    rfl
  · rw [nop_retires hact]
    exact congrArg _ (retireAt_stays hstr)

end Sys2Proof.Machine
end

section
/-! SUPPORT. Short forms on empty registers (R103), and the obligation about them. -/

namespace Sys2Proof.Machine

/-- An instruction is the form of one result: it reads the registers `srcs` and writes `f` of the state to `d`. -/
def ComputesReg (i : Instr) (srcs : List Nat) (d : Nat) (f : State → Who → Word) : Prop :=
  ∀ s : State, exec i s = scalarForm s.who srcs d (f s s.who) s

/-- Which registers are empty says nothing of what a form computes. -/
def IgnoresEmpty (f : State → Who → Word) : Prop :=
  ∀ (s : State) (w : Who) (l : List Nat), f (s.setStream w { s.stream w with empty := l }) w = f s w

theorem regOf_setEmpty (s : State) (w : Who) (l : List Nat) (n : Nat) :
    regOf (s.setStream w { s.stream w with empty := l }) w n = regOf s w n := by
  simp only [regOf, State.stream_setStream_self]
  rfl

theorem jobCount_setStream (s : State) (w : Who) (u : Stream) : (s.setStream w u).jobCount w.core = s.jobCount w.core := by
  simp only [State.jobCount, State.core_setStream_self, Core.setStream_job]
  rfl

/-- The forms of two sources, of one, and of none. -/
def formsOfTwo (d a b : Nat) (z rem : Bool) : List Instr :=
  [.add d a b, .sub d a b, .mul d a b, .mulh d a b z, .div d a b rem z, .and d a b, .or d a b, .xor d a b,
    .shl d a b, .shr d a b, .sra d a b, .min d a b z, .max d a b z, .slt d a b z]

def formsOfOne (d a n lsb wm1 : Nat) (imm : Int) (z : Bool) : List Instr :=
  [.addi d a imm, .andi d a imm, .ori d a imm, .xori d a imm, .shlImm d a n, .shrImm d a n, .sraImm d a n,
    .clz d a, .popc d a, .ext d a z lsb wm1]

section
variable {d a b n lsb wm1 : Nat} {z rem : Bool} {imm : Int} {i : Instr}

theorem formsOfTwo_binary (hi : i ∈ formsOfTwo d a b z rem) : ∃ f, ∀ s, exec i s = binary d a b f s := by
  simp only [formsOfTwo, List.mem_cons, List.not_mem_nil, or_false] at hi
  rcases hi with rfl | rfl | rfl | rfl | rfl | rfl | rfl | rfl | rfl | rfl | rfl | rfl | rfl | rfl
  · exact ⟨fun x y => x + y, fun _ => rfl⟩
  · exact ⟨fun x y => x - y, fun _ => rfl⟩
  · exact ⟨fun x y => x * y, fun _ => rfl⟩
  · exact ⟨mulHigh z, fun _ => rfl⟩
  · exact ⟨if rem then remainder z else quotient z, fun _ => rfl⟩
  · exact ⟨fun x y => x &&& y, fun _ => rfl⟩
  · exact ⟨fun x y => x ||| y, fun _ => rfl⟩
  · exact ⟨fun x y => x ^^^ y, fun _ => rfl⟩
  · exact ⟨fun x y => shiftLeft x (y.toNat % 64), fun _ => rfl⟩
  · exact ⟨fun x y => shiftRight x (y.toNat % 64), fun _ => rfl⟩
  · exact ⟨fun x y => shiftArith x (y.toNat % 64), fun _ => rfl⟩
  · exact ⟨minWord z, fun _ => rfl⟩
  · exact ⟨maxWord z, fun _ => rfl⟩
  · exact ⟨lessWord z, fun _ => rfl⟩

theorem formsOfOne_unary (hin : lsb + (wm1 + 1) ≤ 64) (hi : i ∈ formsOfOne d a n lsb wm1 imm z) :
    ∃ f, ∀ s, exec i s = unary d a f s := by
  simp only [formsOfOne, List.mem_cons, List.not_mem_nil, or_false] at hi
  rcases hi with rfl | rfl | rfl | rfl | rfl | rfl | rfl | rfl | rfl | rfl
  · exact ⟨fun x => x + immWord imm, fun _ => rfl⟩
  · exact ⟨fun x => x &&& immWord imm, fun _ => rfl⟩
  · exact ⟨fun x => x ||| immWord imm, fun _ => rfl⟩
  · exact ⟨fun x => x ^^^ immWord imm, fun _ => rfl⟩
  · exact ⟨fun x => shiftLeft x n, fun _ => rfl⟩
  · exact ⟨fun x => shiftRight x n, fun _ => rfl⟩
  · exact ⟨fun x => shiftArith x n, fun _ => rfl⟩
  · exact ⟨fun x => BitVec.ofNat 64 (leadingZeros x), fun _ => rfl⟩
  · exact ⟨fun x => BitVec.ofNat 64 (onesCount x), fun _ => rfl⟩
  · exact ⟨fun x => extract z x lsb (wm1 + 1), fun _ => if_neg (Nat.not_lt.mpr hin)⟩

theorem formsOfTwo_computes (hi : i ∈ formsOfTwo d a b z rem) : ∃ f, IgnoresEmpty f ∧ ComputesReg i [a, b] d f := by
  obtain ⟨f, hf⟩ := formsOfTwo_binary hi
  exact ⟨fun s w => f (regOf s w a) (regOf s w b), fun s w l => by simp only [regOf_setEmpty], hf⟩

theorem formsOfOne_computes (hin : lsb + (wm1 + 1) ≤ 64) (hi : i ∈ formsOfOne d a n lsb wm1 imm z) :
    ∃ f, IgnoresEmpty f ∧ ComputesReg i [a] d f := by
  obtain ⟨f, hf⟩ := formsOfOne_unary hin hi
  exact ⟨fun s w => f (regOf s w a), fun s w l => by simp only [regOf_setEmpty], hf⟩

theorem formsOfNone_computes (hi : i ∈ [Instr.movi d imm, .rdcyc d]) : ∃ f, IgnoresEmpty f ∧ ComputesReg i [] d f := by
  simp only [List.mem_cons, List.not_mem_nil, or_false] at hi
  rcases hi with rfl | rfl
  · exact ⟨fun _ _ => immWord imm, fun _ _ _ => rfl, fun _ => rfl⟩
  · exact ⟨fun s w => BitVec.ofNat 64 (s.jobCount w.core), fun s w l => by simp only [jobCount_setStream], fun _ => rfl⟩

end

theorem addPend_eq (k : Core) (e : Eng) (op : PendOp) : k.addPend e op =
    Core.setStream { k with nextId := k.nextId + 1 } e { k.stream e with pend := (k.stream e).pend ++ [⟨k.nextId, op⟩] } := by
  cases e <;> rfl

theorem setReg_empty {k : Core} {e : Eng} {n : Nat} (v : Word) (h : (k.stream e).full n = false) :
    k.setReg e n v = k.addPend e (.scalar n v 0) := by
  have hn : n ≠ 0 := by rintro rfl; simp [Stream.full] at h
  simp [Core.setReg, hn, h]

section
variable {s : State} {w : Who} {d : Nat} {srcs : List Nat} {i : Instr} {f : State → Who → Word}

/-- The stream has the actor of its state whatever becomes of its registers. -/
theorem acts_setStream (h : Acts s w) (u : Stream) : Acts (s.setStream w u) w := h

/-- Were no register empty, the form would write its value. -/
theorem ComputesReg.writes_full (hi : ComputesReg i srcs d f) (hf : IgnoresEmpty f) (hact : Acts s w) (hstr : Straight s w 4) :
    WritesReg i (s.setStream w { s.stream w with empty := [] }) w d (f s w) := by
  have hfull : ∀ ns, Full (s.setStream w { s.stream w with empty := [] }) w ns := fun ns n _ => by simp [Stream.full]
  have hstr' : Straight (s.setStream w { s.stream w with empty := [] }) w 4 := by
    simp only [Straight, State.pcOf, State.stream_setStream_self]
    exact (staysIn_congr rfl rfl).mpr hstr
  rw [WritesReg, hi, who_of_acts (acts_setStream hact _), hf]
  exact scalarForm_writes (hfull srcs) hstr' (hfull [d] d (by simp))

/-- A write to an empty register joins the pending values. -/
theorem ComputesReg.joins_pending (hi : ComputesReg i srcs d f) (hact : Acts s w) (hsrc : Full s w srcs) (hstr : Straight s w 4)
    (hd : (s.stream w).full d = false) :
    exec i s = .next (s.coreGoes w (Core.setStream { s.core w.core with nextId := (s.core w.core).nextId + 1 } w.eng
      { s.stream w with pend := (s.stream w).pend ++ [⟨(s.core w.core).nextId, .scalar d (f s w) 0⟩] })) := by
  have hput : putReg s w d (f s w) = s.setCore w.core (Core.setStream { s.core w.core with nextId := (s.core w.core).nextId + 1 } w.eng
      { s.stream w with pend := (s.stream w).pend ++ [⟨(s.core w.core).nextId, .scalar d (f s w) 0⟩] }) := by
    rw [putReg, setReg_empty _ hd, addPend_eq]
    rfl
  rw [hi, who_of_acts hact, scalarForm, needRegs_of_full _ hsrc, hput, finish, retire_stays hstr]
  · rfl
  · simp [State.stream]
  · simp [State.stream]

end

/-- An instruction that reads registers before anything else. -/
def ReadsFirst (i : Instr) (srcs : List Nat) : Prop := ∀ s : State, ∃ r, exec i s = finish s.who 4 s (needRegs s s.who srcs r)

theorem ComputesReg.readsFirst {i : Instr} {srcs : List Nat} {d : Nat} {f : State → Who → Word} (h : ComputesReg i srcs d f) :
    ReadsFirst i srcs := fun s => ⟨_, h s⟩

theorem ReadsFirst.waits {i : Instr} {srcs : List Nat} {s : State} {w : Who} (h : ReadsFirst i srcs) (hact : Acts s w)
    (hm : ∃ m ∈ srcs, (s.stream w).full m = false) : Waits i s w := by
  obtain ⟨r, hr⟩ := h s
  have hnot : srcs.all (fun n => (s.stream w).full n) = false := by
    obtain ⟨m, hin, hm⟩ := hm
    exact List.all_eq_false.mpr ⟨m, hin, by simp [hm]⟩
  rw [Waits, hr, who_of_acts hact, needRegs, hnot]
  rfl

/-- Settles O7: a form of one result joins its value to the pending ones where its register is empty, and an instruction that reads
its registers first waits for them. -/
theorem emptyRegisters : Obligations.EmptyRegisters := by
  intro s w d a b n lsb wm1 pos imm16 imm z rem c hact _ hin
  refine ⟨fun i srcs hi hsrc hstr hd => ?_, fun i srcs hi hm => ?_⟩
  · have hcomp : ∃ f, IgnoresEmpty f ∧ ComputesReg i srcs d f := by
      rcases hi with ⟨hi, rfl⟩ | ⟨hi, rfl⟩ | ⟨hi, rfl⟩
      · exact formsOfTwo_computes hi
      · exact formsOfOne_computes hin hi
      · exact formsOfNone_computes hi
    obtain ⟨f, hf, hi⟩ := hcomp
    exact ⟨f s w, hi.writes_full hf hact hstr, hi.joins_pending hact hsrc hstr hd⟩
  · have hread : ReadsFirst i srcs := by
      rcases hi with ⟨hi, rfl⟩ | ⟨hi, rfl⟩ | ⟨rfl, rfl⟩ | ⟨rfl, rfl⟩ | ⟨rfl, rfl⟩ | ⟨hi, rfl⟩
      · obtain ⟨f, -, hf⟩ := formsOfTwo_computes hi
        exact hf.readsFirst
      · obtain ⟨f, -, hf⟩ := formsOfOne_computes hin hi
        exact hf.readsFirst
      · exact fun s => ⟨_, rfl⟩
      · exact fun s => ⟨_, rfl⟩
      · exact fun s => ⟨_, rfl⟩
      · simp only [List.mem_cons, List.not_mem_nil, or_false] at hi
        rcases hi with rfl | rfl <;> exact fun s => ⟨_, rfl⟩
    exact hread.waits hact hm

end Sys2Proof.Machine
end

section
/-! SUPPORT. Branches, calls and jumps (R127), tokens (R132), IDLE and RDCYC (R149, R150), and the obligations about them. -/

namespace Sys2Proof.Machine

/-! ## Branches, calls and jumps (R127) -/

theorem condTrue_eq_condMeets (c : Cond) (x y : Word) : condTrue c x y = condMeets c x y := by
  cases c
  case eq => simp [condTrue, condMeets, BitVec.toNat_inj, beq_eq_decide]
  case ne => simp [condTrue, condMeets, BitVec.toNat_inj, bne, beq_eq_decide]
  all_goals rfl

section
variable {s : State} {w : Who} {a b d : Nat} {off : Int} {c : Cond}

theorem bc_runs (h : Acts s w) (hf : Full s w [a, b]) : exec (.bc c a b off) s = finish w 4 s
    (if condMeets c (regOf s w a) (regOf s w b) then .ok s (.jump (offTarget (s.pcOf w) off) false) else .ok s .seq) := by
  change execBc c a b off s = _
  simp only [execBc, who_of_acts h, needRegs_of_full _ hf, condTrue_eq_condMeets, State.pcOf]

/-- A jump that stays in the open loops goes on at its target. -/
theorem finish_jump {next : Word} {call : Bool} {n : Nat} (hst : StaysIn (s.stream w) next true call) :
    finish w n s (.ok s (.jump next call)) = .next (s.goTo w next) := congrArg _ (retireAt_stays hst)

/-- A jump that writes a full register on its way. -/
theorem finish_link {next v : Word} {call : Bool} {n : Nat} (hd : (s.stream w).full d = true)
    (hst : StaysIn (s.stream w) next true call) :
    ∃ t, finish w n s (.ok (putReg s w d v) (.jump next call)) = .next t ∧ Wrote s t w d v next 0 (s.stream w).dph := by
  have hst' : StaysIn ((s.stream w).put d v) next true call :=
    (staysIn_congr (Stream.put_loops _ _ _) (Stream.put_pc _ _ _)).mpr hst
  refine ⟨_, ?_, wrote_put_only s w d v next⟩
  rw [putReg_full hd]
  exact congrArg _ (retireAt_setStream_stays (Stream.put_pc _ _ _) hst')

theorem bc_taken (h : Acts s w) (hf : Full s w [a, b]) (hc : condMeets c (regOf s w a) (regOf s w b) = true)
    (hst : StaysIn (s.stream w) (offTarget (s.pcOf w) off) true false) :
    exec (.bc c a b off) s = .next (s.goTo w (offTarget (s.pcOf w) off)) := by
  rw [bc_runs h hf, if_pos hc, finish_jump hst]

theorem bc_falls_through (h : Acts s w) (hf : Full s w [a, b]) (hc : condMeets c (regOf s w a) (regOf s w b) = false)
    (hst : Straight s w 4) : exec (.bc c a b off) s = .next (s.goTo w (s.pcOf w + 4)) := by
  rw [bc_runs h hf, hc, if_neg Bool.false_ne_true]
  exact congrArg _ (retire_stays hst rfl rfl)

theorem br_stays (h : Acts s w) (hst : StaysIn (s.stream w) (offTarget (s.pcOf w) off) true false) :
    exec (.br off) s = .next (s.goTo w (offTarget (s.pcOf w) off)) := by
  rw [br_retires h]
  exact congrArg _ (retireAt_stays hst)

theorem call_links (h : Acts s w) (hf : (s.stream w).full (linkReg w.eng) = true)
    (hst : StaysIn (s.stream w) (offTarget (s.pcOf w) off) true true) :
    ∃ t, exec (.call off) s = .next t ∧
      Wrote s t w (linkReg w.eng) (s.pcOf w + 4) (offTarget (s.pcOf w) off) 0 (s.stream w).dph := by
  have hi : exec (.call off) s = finish w 4 s
      (.ok (putReg s w (linkReg w.eng) (s.pcOf w + 4)) (.jump (offTarget (s.pcOf w) off) true)) := by
    change execCall off s = _
    simp only [execCall, who_of_acts h, State.pcOf]
  rw [hi]
  exact finish_link hf hst

/-- JR and JR.lk read their register first. -/
theorem jumpTo_full (link : Option Nat) (hf : Full s w [a]) : jumpTo w a link s =
    if (regOf s w a).toNat % 4 ≠ 0 then .raise 0x13 (regOf s w a)
    else match link with
      | none => .ok s (.jump (regOf s w a) false)
      | some d => .ok (putReg s w d (s.pcOf w + 4)) (.jump (regOf s w a) true) := by
  simp only [jumpTo, needRegs_of_full _ hf]
  rfl

theorem jr_finish (h : Acts s w) : exec (.jr a) s = finish w 4 s (jumpTo w a none s) := by
  change execJr a s = _
  rw [execJr, who_of_acts h]

theorem jrLk_finish (h : Acts s w) : exec (.jrLk d a) s = finish w 4 s (jumpTo w a (some d) s) := by
  change execJrLk d a s = _
  rw [execJrLk, who_of_acts h]

theorem jr_jumps (h : Acts s w) (hf : Full s w [a]) (ha : (regOf s w a).toNat % 4 = 0)
    (hst : StaysIn (s.stream w) (regOf s w a) true false) : exec (.jr a) s = .next (s.goTo w (regOf s w a)) := by
  rw [jr_finish h, jumpTo_full _ hf, if_neg (not_not.mpr ha), finish_jump hst]

theorem jrLk_links (h : Acts s w) (hf : Full s w [a, d]) (ha : (regOf s w a).toNat % 4 = 0)
    (hst : StaysIn (s.stream w) (regOf s w a) true true) :
    ∃ t, exec (.jrLk d a) s = .next t ∧ Wrote s t w d (s.pcOf w + 4) (regOf s w a) 0 (s.stream w).dph := by
  rw [jrLk_finish h, jumpTo_full _ (hf.subset (by simp)), if_neg (not_not.mpr ha)]
  exact finish_link (hf d (by simp)) hst

theorem jr_traps (h : Acts s w) (hf : Full s w [a]) (ha : (regOf s w a).toNat % 4 ≠ 0) :
    Traps (.jr a) s w 0x13 (regOf s w a) ∧ Traps (.jrLk d a) s w 0x13 (regOf s w a) := by
  constructor
  · rw [Traps, jr_finish h, jumpTo_full _ hf, if_pos ha]
    rfl
  · rw [Traps, jrLk_finish h, jumpTo_full _ hf, if_pos ha]
    rfl

end

/-- Settles O8, form by form. -/
theorem controlTransfers : Obligations.ControlTransfers := by
  intro s w c d a b off hact hfull
  simp only [← offTarget_eq]
  exact ⟨bc_taken hact (hfull.subset (by simp)), bc_falls_through hact (hfull.subset (by simp)), br_stays hact,
    call_links hact (hfull _ (by simp)), jr_jumps hact (hfull.subset (by simp)), jrLk_links hact (hfull.subset (by simp)),
    jr_traps hact (hfull.subset (by simp))⟩

/-! ## Tokens (R132) -/

section
variable {s : State} {w : Who} {f : Nat}

/-- The outcome of an instruction of 4 bytes that changes the core alone, and leaves the pc and the loops of its stream. -/
theorem finish_setCore {k : Core} {n : Nat} (hst : Straight s w n) (hs : k.stream w.eng = (s.core w.core).stream w.eng) :
    finish w n s (.ok (s.setCore w.core k) .seq) = .next ((s.setCore w.core k).goTo w (s.pcOf w + BitVec.ofNat 64 n)) := by
  have hu : (s.setCore w.core k).stream w = s.stream w := by simp [State.stream, hs]
  exact congrArg _ (retire_stays hst (by rw [hu]) (by rw [hu]))

theorem goTo_tokens (k : Core) (next : Word) : (((s.setCore w.core k).goTo w next).core w.core).tokens = k.tokens := by
  simp [State.goTo]

theorem give_finish (h : Acts s w) (hf : f < 4) (h0 : f ≠ 0) (hp : (s.core w.core).hasEngines (partners w.eng f) = true) :
    exec (.give f) s = finish w 4 s (match (s.core w.core).fullFifo (giveFifos w.eng f) with
      | some n => if (s.stream w).gauge then .raise 0x07 (BitVec.ofNat 64 n) else .wait
      | none => .ok (s.setCore w.core ((s.core w.core).giveAll (giveFifos w.eng f))) .seq) := by
  change execGive f s = _
  have hmod : f % 4 ≠ 0 := by omega
  simp only [execGive, who_of_acts h, enginesOk, hp, hmod, decide_false, Bool.not_true, Bool.or_self, Bool.false_eq_true,
    if_false] <;> rfl

theorem take_finish (h : Acts s w) (hf : f < 4) (h0 : f ≠ 0) (hp : (s.core w.core).hasEngines (partners w.eng f) = true) :
    exec (.take f) s = finish w 4 s
      (if !(s.core w.core).hasTokens (takeFifos w.eng f) || takeBlocked (s.core w.core) w.eng (takeFifos w.eng f) then .wait
       else .ok (s.setCore w.core ((s.core w.core).takeAll (takeFifos w.eng f))) .seq) := by
  change execTake f s = _
  have hmod : f % 4 ≠ 0 := by omega
  simp only [execTake, who_of_acts h, enginesOk, hp, hmod, decide_false, Bool.not_true, Bool.or_self, Bool.false_eq_true, if_false]

theorem give_gives (h : Acts s w) (hf : f < 4) (h0 : f ≠ 0) (hp : (s.core w.core).hasEngines (partners w.eng f) = true)
    (hst : Straight s w 4) (hfull : (s.core w.core).fullFifo (giveFifos w.eng f) = none) :
    ∃ t, exec (.give f) s = .next t ∧
      (∀ n, (t.core w.core).token n = (s.core w.core).token n + (if n ∈ giveFifos w.eng f then 1 else 0)) ∧
      t = (s.setCore w.core { s.core w.core with tokens := (t.core w.core).tokens }).goTo w (s.pcOf w + 4) := by
  obtain ⟨T, hT, hn⟩ := giveAll_eq (giveFifos w.eng f) (s.core w.core)
  refine ⟨(s.setCore w.core { s.core w.core with tokens := T }).goTo w (s.pcOf w + 4), ?_, fun n => ?_, ?_⟩
  · rw [give_finish h hf h0 hp, hfull]
    simp only [hT]
    exact finish_setCore hst (by cases w.eng <;> rfl)
  · rw [Core.token, goTo_tokens]
    exact hn (giveFifos_nodup _ _) n
  · rw [goTo_tokens]

theorem take_takes (h : Acts s w) (hf : f < 4) (h0 : f ≠ 0) (hp : (s.core w.core).hasEngines (partners w.eng f) = true)
    (hst : Straight s w 4) (htok : ∀ n ∈ takeFifos w.eng f, 0 < (s.core w.core).token n)
    (hb : takeBlocked (s.core w.core) w.eng (takeFifos w.eng f) = false) :
    ∃ t, exec (.take f) s = .next t ∧
      (∀ n, (t.core w.core).token n = (s.core w.core).token n - (if n ∈ takeFifos w.eng f then 1 else 0)) ∧
      t = (s.setCore w.core { s.core w.core with tokens := (t.core w.core).tokens }).goTo w (s.pcOf w + 4) := by
  have hall : (s.core w.core).hasTokens (takeFifos w.eng f) = true := by simpa [Core.hasTokens] using htok
  obtain ⟨T, hT, hn⟩ := takeAll_eq (takeFifos w.eng f) (s.core w.core)
  refine ⟨(s.setCore w.core { s.core w.core with tokens := T }).goTo w (s.pcOf w + 4), ?_, fun n => ?_, ?_⟩
  · rw [take_finish h hf h0 hp]
    simp only [hall, hb, hT, Bool.not_true, Bool.or_self, Bool.false_eq_true, if_false]
    exact finish_setCore hst (by cases w.eng <;> rfl)
  · rw [Core.token, goTo_tokens]
    exact hn (takeFifos_nodup _ _) n
  · rw [goTo_tokens]

end

/-- Settles O10: a field of partners that are there is given and taken FIFO by FIFO. -/
theorem tokensMove : Obligations.TokensMove := by
  intro s w f hact hf
  refine ⟨fun h0 hp => give_gives hact hf h0 hp, fun h0 hp n hn => ?_, fun h0 hp => take_takes hact hf h0 hp,
    fun h0 hp hempty => ?_, fun h0 => ?_⟩
  · cases hg : (s.stream w).gauge
    · simp only [give_finish hact hf h0 hp, hn, hg, Bool.false_eq_true, if_false]
      rfl
    · simp only [Traps, give_finish hact hf h0 hp, hn, hg, if_true, finish]
  · have hall : (s.core w.core).hasTokens (takeFifos w.eng f) = false := by
      obtain ⟨n, hin, hn⟩ := hempty
      exact List.all_eq_false.mpr ⟨n, hin, by simp [hn]⟩
    simp only [take_finish hact hf h0 hp, hall, Bool.not_false, Bool.true_or, if_true]
    rfl
  · subst h0
    constructor
    · change execGive 0 s = _
      simp [execGive, who_of_acts hact, finish]
    · change execTake 0 s = _
      simp [execTake, who_of_acts hact, finish]

/-! ## IDLE and RDCYC (R149, R150) -/

section
variable {s : State} {w : Who} {imm : Int}

theorem idle_traps (h : Acts s w) (hi : imm < 0) : Traps (.idle imm) s w 0x02 (opTval (.idle imm) false 0) := by
  change execIdle imm s = _
  simp only [execIdle, who_of_acts h, if_pos hi, finish]

theorem idle_stands (h : Acts s w) (hi : 0 ≤ imm) : exec (.idle imm) s = .next (s.setStream w
    { s.stream w with run := .waiting, at_ := .idle (s.jobCount w.core + imm.toNat) }) := by
  change execIdle imm s = _
  simp only [execIdle, who_of_acts h, if_neg (Int.not_lt.mpr hi)]

theorem idleExpiry_retires {n : Nat} (hc : w.core < 512) (hs : s.still w.core = false) (hat : (s.stream w).at_ = .idle n)
    (hst : Straight s w 4) :
    exec (.idleExpiry w.core w.eng) s = .next (if n ≤ s.jobCount w.core then s.goTo w (s.pcOf w + 4) else s) := by
  change execIdleExpiry w.core w.eng s = _
  have hret : retire w 4 s = s.goTo w (s.pcOf w + 4) := retire_stays hst rfl rfl
  simp [execIdleExpiry, coreExists, hc, hat, hs, hret]

end

/-- Settles O19: IDLE stands at a count that its expiry compares, and RDCYC is a form of one result. -/
theorem idleAndCycles : Obligations.IdleAndCycles := by
  intro s w imm d n
  refine ⟨idle_traps, idle_stands, idleExpiry_retires, fun hrun => constant_writes hrun ?_⟩
  change execRdcyc d s = _
  rw [execRdcyc, who_of_acts hrun.1]

end Sys2Proof.Machine
end

section
/-! SUPPORT. Fields of words, bit by bit (R113, R114); reads and writes of the special registers (R147), and the obligations about
them. -/

namespace Sys2Proof.Machine

/-! ## Fields, bit by bit -/

theorem field_testBit (v : Word) (hi lo n : Nat) :
    (field v hi lo).testBit n = (decide (n < hi + 1 - lo) && v.getLsbD (lo + n)) := by
  rw [field, Nat.testBit_mod_two_pow, Nat.testBit_div_two_pow, BitVec.testBit_toNat, Nat.add_comm n lo]

theorem field_eq_zero_iff (v : Word) (hi lo : Nat) : field v hi lo = 0 ↔ ∀ n, lo ≤ n → n ≤ hi → v.getLsbD n = false := by
  constructor
  · intro h n hlo hhi
    have hb := field_testBit v hi lo (n - lo)
    have hlt : n - lo < hi + 1 - lo := by omega
    rw [h, Nat.zero_testBit, decide_eq_true hlt, Bool.true_and, Nat.add_sub_cancel' hlo] at hb
    exact hb.symm
  · intro h
    apply Nat.eq_of_testBit_eq
    intro n
    rw [field_testBit, Nat.zero_testBit]
    by_cases hn : n < hi + 1 - lo
    · simp [h (lo + n) (by omega) (by omega)]
    · simp [hn]

/-- The field above bit `lo` is 0 where the word is below `2 ^ lo`. -/
theorem field_high_ne_zero {lo : Nat} (v : Word) (h : lo < 64) : (field v 63 lo != 0) = decide (2 ^ lo ≤ v.toNat) := by
  have hlt : v.toNat / 2 ^ lo < 2 ^ (64 - lo) := by
    rw [Nat.div_lt_iff_lt_mul (Nat.two_pow_pos lo), ← Nat.pow_add, Nat.sub_add_cancel h.le]
    exact v.isLt
  have hpos : v.toNat / 2 ^ lo = 0 ↔ v.toNat < 2 ^ lo := by simp
  rw [field, Nat.mod_eq_of_lt hlt, bne, beq_eq_decide, ← decide_not, decide_eq_decide, hpos, Nat.not_lt]

/-- A word has no bit outside a mask. -/
theorem and_eq_self_iff (v m : Word) : v &&& m = v ↔ ∀ n < 64, m.getLsbD n = false → v.getLsbD n = false := by
  constructor
  · intro h n _ hm
    rw [← h, BitVec.getLsbD_and, hm, Bool.and_false]
  · intro h
    apply BitVec.eq_of_getLsbD_eq
    intro n hn
    rw [BitVec.getLsbD_and]
    cases hm : m.getLsbD n
    · rw [h n hn hm, Bool.false_and]
    · rw [Bool.and_true]

/-- The two low bits of a word replaced. -/
theorem setField_low (x : Word) {v : Nat} (hv : v < 4) : setField x 1 0 v = (x &&& ~~~(3 : Word)) ||| BitVec.ofNat 64 v := by
  have h3 : ∀ n < 64, (~~~(3 : Word)).getLsbD n = decide (2 ≤ n) := by decide
  apply BitVec.eq_of_getLsbD_eq
  intro n hn
  rw [getLsbD_setField (lo := 0) (len := 2) x (by decide) hv hn, BitVec.getLsbD_or, BitVec.getLsbD_and, h3 n hn,
    BitVec.getLsbD_ofNat]
  by_cases h2 : n < 2
  · simp [h2, Nat.not_le.mpr h2, hn]
  · have hbit : v.testBit n = false :=
      Nat.testBit_lt_two_pow (hv.trans_le (Nat.pow_le_pow_right (by decide) (Nat.not_lt.mp h2) : 2 ^ 2 ≤ 2 ^ n))
    simp [h2, Nat.not_lt.mp h2, hbit]

theorem setMode_eq (t : Stream) (p q : Bool) : t.setMode p q =
    { t with status := (t.status &&& ~~~(3 : Word)) ||| BitVec.ofNat 64 ((if p then 1 else 0) + (if q then 2 else 0)) } := by
  rw [Stream.setMode, setField_low _ (by cases p <;> cases q <;> decide)]

/-- The mode and pmode of a word of `status`. -/
theorem modeBits_eq (v : Word) :
    BitVec.ofNat 64 ((if flag v 0 then 1 else 0) + (if flag v 1 then 2 else 0)) = v &&& (3 : Word) := by
  have h3 : ∀ n < 64, (3 : Word).getLsbD n = decide (n < 2) := by decide
  have hb : ∀ (p q : Bool), ∀ n < 64,
      (BitVec.ofNat 64 ((if p then 1 else 0) + (if q then 2 else 0))).getLsbD n = if n = 0 then p else decide (n = 1) && q := by
    decide
  apply BitVec.eq_of_getLsbD_eq
  intro n hn
  rw [hb _ _ n hn, BitVec.getLsbD_and, h3 n hn]
  by_cases h0 : n = 0
  · simp [h0, flag]
  · by_cases h1 : n = 1
    · simp [h1, flag]
    · have : ¬ n < 2 := by omega
      simp [h0, h1, this]

theorem setField_low_zero (x : Word) : setField x 1 0 0 = x &&& ~~~(3 : Word) := by
  rw [setField_low x (by decide), BitVec.or_zero]

/-! ## Reads (R112, R113) -/

section
variable {s : State} {w : Who} {d num : Nat}

theorem rdsr_finish (h : Acts s w) : exec (.rdsr d num) s = finish w 4 s (match sview w.eng (s.stream w).super num with
    | none => .raise 0x02 (opTval (.rdsr d num) false 0)
    | some .hidden => .raise 0x03 (firstWord (.rdsr d num))
    | some _ => if num = 0x010 && !flagsSettled s w then .wait else .ok (putReg s w d (sread s w num)) .seq) := by
  change readSpecial (.rdsr d num) d num s = _
  simp only [readSpecial, who_of_acts h] <;> rfl

/-- A number with a view that is not hidden is read. -/
theorem rdsr_writes (h : CanRun s w [d] 4) (hn : num ≠ 0x010) {v : SView} (hv : sview w.eng (s.stream w).super num = some v)
    (hs : v ≠ .hidden) : WritesReg (.rdsr d num) s w d (sread s w num) := by
  refine constant_writes h ?_
  rw [rdsr_finish h.1, hv, scalarForm, needRegs_nil]
  cases v
  case hidden => exact absurd rfl hs
  all_goals simp [hn]

theorem rdsr_traps_unlisted (h : Acts s w) (hv : sview w.eng (s.stream w).super num = none) :
    Traps (.rdsr d num) s w 0x02 (opTval (.rdsr d num) false 0) := by
  rw [Traps, rdsr_finish h, hv]
  rfl

theorem rdsr_traps_hidden (h : Acts s w) (hv : sview w.eng (s.stream w).super num = some .hidden) :
    Traps (.rdsr d num) s w 0x03 (firstWord (.rdsr d num)) := by
  rw [Traps, rdsr_finish h, hv]
  rfl

theorem rdsrQflags_finish (h : Acts s w) : exec (.rdsrQflags d) s = finish w 4 s
    (if flagsSettled s w then .ok (putReg s w d (s.stream w).qflags) .seq else .wait) := by
  change readSpecial (.rdsrQflags d) d 0x010 s = _
  rw [readSpecial, who_of_acts h]
  cases flagsSettled s w <;> rfl

/-- The registers of both views, and those of a mode. -/
theorem sview_listed {e : Eng} {b : Bool} (h : num ∈ [0x000, 0x011, 0x012, 0x013, 0x014, 0x015]) :
    num ≠ 0x010 ∧ ∃ v, sview e b num = some v ∧ v ≠ .hidden := by
  simp only [List.mem_cons, List.not_mem_nil, or_false] at h
  rcases h with rfl | rfl | rfl | rfl | rfl | rfl <;> cases b <;> exact ⟨by decide, _, rfl, by decide⟩

theorem sview_trap {e : Eng} {b : Bool} (h : num ∈ [0x001, 0x002, 0x003, 0x004, 0x005]) :
    num ≠ 0x010 ∧ sview e b num = some (if b then .readWrite else .hidden) := by
  simp only [List.mem_cons, List.not_mem_nil, or_false] at h
  rcases h with rfl | rfl | rfl | rfl | rfl <;> exact ⟨by decide, rfl⟩

theorem sview_stage {e : Eng} {b : Bool} (h : num ∈ [0x020, 0x021, 0x022]) :
    num ≠ 0x010 ∧ sview e b num = if e = .x then some (if b then .readWrite else .readOnly) else none := by
  simp only [List.mem_cons, List.not_mem_nil, or_false] at h
  rcases h with rfl | rfl | rfl <;> exact ⟨by decide, rfl⟩

theorem sview_slim (e : Eng) (b : Bool) :
    sview e b 0x028 = if e = .a then some (if b then .readWrite else .readOnly) else none := rfl

theorem sview_unlisted {e : Eng} {b : Bool} (h : num ∉ [0x000, 0x001, 0x002, 0x003, 0x004, 0x005, 0x010, 0x011, 0x012, 0x013, 0x014,
    0x015, 0x020, 0x021, 0x022, 0x028]) : sview e b num = none := by
  unfold sview
  split
  case h_17 => rfl
  all_goals simp at h

end

/-- Settles O14: the view of a number decides, and what is read is the table of the registers. -/
theorem specialReads : Obligations.SpecialReads := by
  intro s w d num v hrun
  have hact : Acts s w := hrun.1
  refine ⟨fun hin => ?_, fun hin => ?_, fun hin => ?_, fun heq => ?_, fun hout => rdsr_traps_unlisted hact (sview_unlisted hout),
    fun hf => constant_writes hrun ?_, fun hf => ?_⟩
  · have hnum : num ∈ [0x000, 0x011, 0x012, 0x013, 0x014, 0x015] := List.mem_map_of_mem (f := Prod.fst) hin
    have hval : v = sread s w num := by
      simp only [List.mem_cons, List.not_mem_nil, or_false, Prod.mk.injEq] at hin
      rcases hin with ⟨rfl, rfl⟩ | ⟨rfl, rfl⟩ | ⟨rfl, rfl⟩ | ⟨rfl, rfl⟩ | ⟨rfl, rfl⟩ | ⟨rfl, rfl⟩ <;> rfl
    obtain ⟨hne, view, hview, hopen⟩ := sview_listed hnum
    exact hval ▸ rdsr_writes hrun hne hview hopen
  · have hnum : num ∈ [0x001, 0x002, 0x003, 0x004, 0x005] := List.mem_map_of_mem (f := Prod.fst) hin
    have hval : v = sread s w num := by
      simp only [List.mem_cons, List.not_mem_nil, or_false, Prod.mk.injEq] at hin
      rcases hin with ⟨rfl, rfl⟩ | ⟨rfl, rfl⟩ | ⟨rfl, rfl⟩ | ⟨rfl, rfl⟩ | ⟨rfl, rfl⟩ <;> rfl
    obtain ⟨hne, hview⟩ := sview_trap (e := w.eng) (b := (s.stream w).super) hnum
    refine ⟨fun hs => hval ▸ rdsr_writes hrun hne hview (by simp [hs]), fun hs => rdsr_traps_hidden hact (by rw [hview, hs]; rfl)⟩
  · have hnum : num ∈ [0x020, 0x021, 0x022] := List.mem_map_of_mem (f := Prod.fst) hin
    have hval : v = sread s w num := by
      simp only [List.mem_cons, List.not_mem_nil, or_false, Prod.mk.injEq] at hin
      rcases hin with ⟨rfl, rfl⟩ | ⟨rfl, rfl⟩ | ⟨rfl, rfl⟩ <;> rfl
    obtain ⟨hne, hview⟩ := sview_stage (e := w.eng) (b := (s.stream w).super) hnum
    refine ⟨fun he => hval ▸ rdsr_writes hrun hne (hview.trans (if_pos he)) (by split <;> decide),
      fun he => rdsr_traps_unlisted hact (hview.trans (if_neg he))⟩
  · obtain ⟨rfl, rfl⟩ := Prod.mk.inj heq
    exact ⟨fun he => rdsr_writes hrun (by decide) ((sview_slim _ _).trans (if_pos he)) (by split <;> decide),
      fun he => rdsr_traps_unlisted hact ((sview_slim _ _).trans (if_neg he))⟩
  · rw [rdsrQflags_finish hact, hf, if_pos rfl, scalarForm, needRegs_nil]
  · rw [rdsrQflags_finish hact, hf]
    rfl

/-! ## Writes (R112 to R114) -/

/-- A WRSR form writes register `a` to the special register `num`. -/
def WritesSpecial (i : Instr) (a num : Nat) : Prop := ∀ s : State, exec i s = writeSpecial i a num s

/-- R87 and R435 forbid a value of `npdef`. -/
def badProfile (s : State) (num : Nat) (v : Word) : Bool :=
  num == 0x011 && !(1 ≤ v.toNat && v.toNat ≤ 4 && (v.toNat != 3 || s.accepted.getLsbD 6))

section
variable {s : State} {w : Who} {i : Instr} {a num : Nat}

theorem WritesSpecial.finish (hi : WritesSpecial i a num) (h : Acts s w) :
    exec i s = finish w 4 s (match sview w.eng (s.stream w).super num with
      | none => .raise 0x02 (opTval i false 0)
      | some .hidden | some .readOnly => .raise 0x03 (firstWord i)
      | some .readWrite => needRegs s w [a] (
          if sreserved num (regOf s w a) || badProfile s num (regOf s w a) then .raise 0x02 (opTval i false 13)
          else if num = 0x010 && !flagsSettled s w then .wait
          else .ok (swrite s w num (regOf s w a)) .seq)) := by
  rw [hi, writeSpecial, who_of_acts h]
  rfl

/-- The engine has no such register. -/
theorem WritesSpecial.traps_unlisted (hi : WritesSpecial i a num) (h : Acts s w) (hv : sview w.eng (s.stream w).super num = none) :
    Traps i s w 0x02 (opTval i false 0) := by
  rw [Traps, hi.finish h, hv]
  rfl

/-- The mode does not write it. -/
theorem WritesSpecial.traps_view (hi : WritesSpecial i a num) (h : Acts s w) {v : SView}
    (hv : sview w.eng (s.stream w).super num = some v) (hne : v ≠ .readWrite) : Traps i s w 0x03 (firstWord i) := by
  rw [Traps, hi.finish h, hv]
  cases v
  case readWrite => exact absurd rfl hne
  all_goals rfl

theorem WritesSpecial.refuses (hi : WritesSpecial i a num) (h : CanRun s w [a] 4)
    (hv : sview w.eng (s.stream w).super num = some .readWrite)
    (hbad : (sreserved num (regOf s w a) || badProfile s num (regOf s w a)) = true) :
    Traps i s w 0x02 (opTval i false 13) := by
  rw [Traps, hi.finish h.1, hv]
  simp only [needRegs_of_full _ h.2.1, hbad, if_true]
  rfl

theorem WritesSpecial.stores (hi : WritesSpecial i a num) (h : CanRun s w [a] 4)
    (hv : sview w.eng (s.stream w).super num = some .readWrite)
    (hgood : (sreserved num (regOf s w a) || badProfile s num (regOf s w a)) = false) :
    exec i s = Machine.finish w 4 s
      (if num = 0x010 && !flagsSettled s w then .wait else .ok (swrite s w num (regOf s w a)) .seq) := by
  rw [hi.finish h.1, hv]
  simp only [needRegs_of_full _ h.2.1, hgood, Bool.false_eq_true, if_false]

/-- A change of the stream that leaves its pc and its loops. -/
theorem finish_setStream {u : Stream} {n : Nat} (hst : Straight s w n) (hp : u.pc = (s.stream w).pc)
    (hl : u.loops = (s.stream w).loops) :
    finish w n s (.ok (s.setStream w u) .seq) = .next ((s.setStream w u).goTo w (s.pcOf w + BitVec.ofNat 64 n)) :=
  congrArg _ (retire_setStream_stays hp ((staysIn_congr hl hp).mpr hst))

/-- A register of the stream, other than `qflags`, that takes a value. -/
theorem WritesSpecial.stores_stream (hi : WritesSpecial i a num) (h : CanRun s w [a] 4)
    (hv : sview w.eng (s.stream w).super num = some .readWrite) (hne : num ≠ 0x010)
    (hgood : (sreserved num (regOf s w a) || badProfile s num (regOf s w a)) = false) {u : Stream}
    (hu : swrite s w num (regOf s w a) = s.setStream w u) (hp : u.pc = (s.stream w).pc) (hl : u.loops = (s.stream w).loops) :
    exec i s = .next ((s.setStream w u).goTo w (s.pcOf w + 4)) := by
  rw [hi.stores h hv hgood, hu]
  simp only [hne, decide_false, Bool.false_and, Bool.false_eq_true, if_false]
  exact finish_setStream h.2.2 hp hl

/-- A register of an engine that takes a value. -/
theorem WritesSpecial.stores_core (hi : WritesSpecial i a num) (h : CanRun s w [a] 4)
    (hv : sview w.eng (s.stream w).super num = some .readWrite) (hne : num ≠ 0x010)
    (hgood : (sreserved num (regOf s w a) || badProfile s num (regOf s w a)) = false) {k : Core}
    (hk : swrite s w num (regOf s w a) = s.setCore w.core k) (hs : k.stream w.eng = (s.core w.core).stream w.eng) :
    exec i s = .next ((s.setCore w.core k).goTo w (s.pcOf w + 4)) := by
  rw [hi.stores h hv hgood, hk]
  simp only [hne, decide_false, Bool.false_and, Bool.false_eq_true, if_false]
  exact finish_setCore h.2.2 hs

theorem badProfile_other {v : Word} (h : num ≠ 0x011) : badProfile s num v = false := by simp [badProfile, h]

/-- Bits that `status` and `qflags` have not. -/
theorem sreserved_status (v : Word) : sreserved 0x000 v = !(v &&& 0x37 == v) := by
  have hm : ∀ n < 64, (0x37 : Word).getLsbD n = (decide (n < 6) && n != 3) := by decide
  rw [Bool.eq_iff_iff]
  simp only [sreserved, Bool.or_eq_true, bne_iff_ne, ne_eq, field_eq_zero_iff, Bool.not_eq_true', beq_eq_false_iff_ne,
    and_eq_self_iff, flag]
  rw [← not_iff_not]
  simp only [not_or, not_not, Bool.not_eq_true]
  constructor
  · intro ⟨hhi, h3⟩ n hn hout
    rw [hm n hn] at hout
    by_cases h6 : n < 6
    · have : n = 3 := by simpa [h6] using hout
      exact this ▸ h3
    · exact hhi n (by omega) (by omega)
  · intro h
    exact ⟨fun n hlo hhi => h n (by omega) (by rw [hm n (by omega)]; simp; omega), h 3 (by decide) (by decide)⟩

theorem sreserved_qflags (v : Word) : sreserved 0x010 v = !(v &&& 0x101FF == v) := by
  have hm : ∀ n < 64, (0x101FF : Word).getLsbD n = (decide (n < 9) || n == 16) := by decide
  rw [Bool.eq_iff_iff]
  simp only [sreserved, Bool.or_eq_true, bne_iff_ne, ne_eq, field_eq_zero_iff, Bool.not_eq_true', beq_eq_false_iff_ne,
    and_eq_self_iff]
  rw [← not_iff_not]
  simp only [not_or, not_not]
  constructor
  · intro ⟨hhi, hmid⟩ n hn hout
    rw [hm n hn] at hout
    have hne : 9 ≤ n ∧ n ≠ 16 := by simpa using hout
    by_cases h17 : n < 17
    · exact hmid n hne.1 (by omega)
    · exact hhi n (by omega) (by omega)
  · intro h
    exact ⟨fun n hlo hhi => h n (by omega) (by rw [hm n (by omega)]; simp; omega),
      fun n hlo hhi => h n (by omega) (by rw [hm n (by omega)]; simp; omega)⟩

end

end Sys2Proof.Machine
end

section
/-! SUPPORT. The registers that WRSR writes (R112 to R114, R147), and the obligation about them. -/

namespace Sys2Proof.Machine

section
variable {s : State} {w : Who} {i : Instr} {a : Nat} {u : Stream}

/-- A WRSR form that stores its value in the stream, in supervisor mode alone, where `legal` holds of the value. -/
structure StoresInMode (i : Instr) (s : State) (w : Who) (a : Nat) (u : Stream) (num : Nat) (view : SView) : Prop where
  form : WritesSpecial i a num
  modes : ∀ e b, sview e b num = some (if b then .readWrite else view)
  shut : view ≠ .readWrite
  free : num ≠ 0x010 ∧ num ≠ 0x011
  effect : swrite s w num (regOf s w a) = s.setStream w u
  pc : u.pc = (s.stream w).pc
  loops : u.loops = (s.stream w).loops

theorem StoresInMode.traps {num : Nat} {view : SView} (h : StoresInMode i s w a u num view) (hact : Acts s w)
    (hs : (s.stream w).super = false) : Traps i s w 0x03 (firstWord i) :=
  h.form.traps_view hact (by rw [h.modes, hs]; rfl) h.shut

theorem StoresInMode.stores {num : Nat} {view : SView} (h : StoresInMode i s w a u num view) (hrun : CanRun s w [a] 4)
    (hs : (s.stream w).super = true) (hr : sreserved num (regOf s w a) = false) :
    exec i s = .next ((s.setStream w u).goTo w (s.pcOf w + 4)) :=
  h.form.stores_stream hrun (by rw [h.modes, hs]; rfl) h.free.1 (by rw [hr, badProfile_other h.free.2]; rfl) h.effect h.pc h.loops

/-- The registers of a trap, and the low bits of `status`. -/
theorem storesInMode_of_mem (hi : (i, u) ∈ [(Instr.wrsr a 0x001, { s.stream w with cause := regOf s w a }),
      (.wrsr a 0x002, { s.stream w with epc := regOf s w a }), (.wrsr a 0x003, { s.stream w with tval := regOf s w a }),
      (.wrsr a 0x004, { s.stream w with tvec := regOf s w a &&& ~~~(3 : Word) }), (.wrsr a 0x005, { s.stream w with tscr := regOf s w a }),
      (.wrsrStatus a, { s.stream w with status := ((s.stream w).status &&& ~~~(3 : Word)) ||| (regOf s w a &&& 3) })]) :
    ∃ num view, StoresInMode i s w a u num view ∧ ((i = .wrsr a 0x001 → (regOf s w a).toNat < 2 ^ 8) →
      (i = .wrsrStatus a → regOf s w a &&& 0x37 = regOf s w a) → sreserved num (regOf s w a) = false) := by
  simp only [List.mem_cons, List.not_mem_nil, or_false, Prod.mk.injEq] at hi
  rcases hi with ⟨rfl, rfl⟩ | ⟨rfl, rfl⟩ | ⟨rfl, rfl⟩ | ⟨rfl, rfl⟩ | ⟨rfl, rfl⟩ | ⟨rfl, rfl⟩
  · refine ⟨0x001, .hidden, ⟨fun _ => rfl, fun _ _ => rfl, by decide, by decide, rfl, rfl, rfl⟩, fun hlt _ => ?_⟩
    have := hlt rfl
    simp only [sreserved, field_high_ne_zero (lo := 8) _ (by decide), decide_eq_false_iff_not]
    omega
  · exact ⟨0x002, .hidden, ⟨fun _ => rfl, fun _ _ => rfl, by decide, by decide, rfl, rfl, rfl⟩, fun _ _ => rfl⟩
  · exact ⟨0x003, .hidden, ⟨fun _ => rfl, fun _ _ => rfl, by decide, by decide, rfl, rfl, rfl⟩, fun _ _ => rfl⟩
  · refine ⟨0x004, .hidden, ⟨fun _ => rfl, fun _ _ => rfl, by decide, by decide, ?_, rfl, rfl⟩, fun _ _ => rfl⟩
    simp only [swrite, setField_low_zero]
  · exact ⟨0x005, .hidden, ⟨fun _ => rfl, fun _ _ => rfl, by decide, by decide, rfl, rfl, rfl⟩, fun _ _ => rfl⟩
  · refine ⟨0x000, .readOnly, ⟨fun _ => rfl, fun _ _ => rfl, by decide, by decide, ?_, rfl, rfl⟩, fun _ heq => ?_⟩
    · simp only [swrite, setMode_eq, modeBits_eq]
    · rw [sreserved_status, heq rfl]
      simp

theorem cause_refuses (hrun : CanRun s w [a] 4) (hs : (s.stream w).super = true) (h : 2 ^ 8 ≤ (regOf s w a).toNat) :
    Traps (.wrsr a 0x001) s w 0x02 (opTval (.wrsr a 0x001) false 13) := by
  have hform : WritesSpecial (.wrsr a 0x001) a 0x001 := fun _ => rfl
  refine hform.refuses hrun (by rw [hs]; rfl) ?_
  rw [sreserved, field_high_ne_zero (lo := 8) _ (by decide), decide_eq_true h, Bool.true_or]

theorem status_refuses (hrun : CanRun s w [a] 4) (hs : (s.stream w).super = true) (h : regOf s w a &&& 0x37 ≠ regOf s w a) :
    Traps (.wrsrStatus a) s w 0x02 (opTval (.wrsrStatus a) false 13) := by
  have hform : WritesSpecial (.wrsrStatus a) a 0x000 := fun _ => rfl
  refine hform.refuses hrun (by rw [hs]; rfl) ?_
  rw [sreserved_status, beq_eq_false_iff_ne.mpr h, Bool.not_false, Bool.true_or]

theorem readOnly_traps {n : Nat} (hact : Acts s w) (hn : n ∈ [0x013, 0x014, 0x015]) :
    Traps (.wrsr a n) s w 0x03 (firstWord (.wrsr a n)) := by
  have hform : WritesSpecial (.wrsr a n) a n := fun _ => rfl
  refine hform.traps_view hact (v := .readOnly) ?_ (by decide)
  simp only [List.mem_cons, List.not_mem_nil, or_false] at hn
  rcases hn with rfl | rfl | rfl <;> rfl

theorem qflags_form : WritesSpecial (.wrsrQflags a) a 0x010 := fun _ => rfl

theorem qflags_stores (hrun : CanRun s w [a] 4) (h : regOf s w a &&& 0x101FF = regOf s w a) :
    exec (.wrsrQflags a) s = finish w 4 s
      (if flagsSettled s w then .ok (s.setStream w { s.stream w with qflags := regOf s w a }) .seq else .wait) := by
  rw [qflags_form.stores hrun rfl (by rw [sreserved_qflags, h, badProfile_other (by decide)]; simp)]
  cases flagsSettled s w <;> rfl

theorem qflags_refuses (hrun : CanRun s w [a] 4) (h : regOf s w a &&& 0x101FF ≠ regOf s w a) :
    Traps (.wrsrQflags a) s w 0x02 (opTval (.wrsrQflags a) false 13) := by
  refine qflags_form.refuses hrun rfl ?_
  rw [sreserved_qflags, beq_eq_false_iff_ne.mpr h, Bool.not_false, Bool.true_or]

theorem npdef_form : WritesSpecial (.wrsrNpdef a) a 0x011 := fun _ => rfl

theorem npdef_stores (hrun : CanRun s w [a] 4) (h1 : 1 ≤ (regOf s w a).toNat) (h4 : (regOf s w a).toNat ≤ 4)
    (h3 : (regOf s w a).toNat = 3 → s.accepted.getLsbD 6 = true) :
    exec (.wrsrNpdef a) s = .next ((s.setStream w { s.stream w with npdef := regOf s w a }).goTo w (s.pcOf w + 4)) := by
  refine npdef_form.stores_stream hrun rfl (by decide) ?_ rfl rfl rfl
  have hres : sreserved 0x011 (regOf s w a) = false := by
    rw [sreserved, field_high_ne_zero (lo := 3) _ (by decide), decide_eq_false_iff_not]
    omega
  rw [hres, Bool.false_or]
  by_cases h : (regOf s w a).toNat = 3
  · simp only [badProfile, h, h3 h]
    rfl
  · simp [badProfile, h1, h4, h]

theorem npdef_refuses (hrun : CanRun s w [a] 4) (h : (regOf s w a).toNat = 0 ∨ 4 < (regOf s w a).toNat ∨
    ((regOf s w a).toNat = 3 ∧ s.accepted.getLsbD 6 = false)) :
    Traps (.wrsrNpdef a) s w 0x02 (opTval (.wrsrNpdef a) false 13) := by
  refine npdef_form.refuses hrun rfl ?_
  have hbad : badProfile s 0x011 (regOf s w a) = true := by
    rcases h with h | h | ⟨h, hacc⟩
    · simp [badProfile, h]
    · simp [badProfile, Nat.not_le.mpr h]
    · simp only [badProfile, h, hacc]
      rfl
  rw [hbad, Bool.or_true]

theorem dph_form : WritesSpecial (.wrsrDph a) a 0x012 := fun _ => rfl

theorem dph_stores (hrun : CanRun s w [a] 4) (h : (regOf s w a).toNat < 32) :
    exec (.wrsrDph a) s = .next ((s.setStream w { s.stream w with dph := regOf s w a }).goTo w (s.pcOf w + 4)) := by
  refine dph_form.stores_stream hrun rfl (by decide) ?_ rfl rfl rfl
  rw [sreserved, field_high_ne_zero (lo := 5) _ (by decide), badProfile_other (by decide), Bool.or_false, decide_eq_false_iff_not]
  omega

theorem dph_refuses (hrun : CanRun s w [a] 4) (h : 32 ≤ (regOf s w a).toNat) :
    Traps (.wrsrDph a) s w 0x02 (opTval (.wrsrDph a) false 13) := by
  refine dph_form.refuses hrun rfl ?_
  rw [sreserved, field_high_ne_zero (lo := 5) _ (by decide), decide_eq_true (by omega), Bool.true_or]

/-- A register of the passes of LOOPP: the execute engine has it, in supervisor mode it is written, below `2 ^ width`. -/
structure PassForm (i : Instr) (a num width : Nat) : Prop where
  form : WritesSpecial i a num
  view : ∀ e b, sview e b num = if e = .x then some (if b then .readWrite else .readOnly) else none
  free : num ≠ 0x010 ∧ num ≠ 0x011
  width : ∀ v, sreserved num v = decide (2 ^ width ≤ v.toNat)

theorem spass_form : PassForm (.wrsrSpass a) a 0x020 33 :=
  ⟨fun _ => rfl, fun _ _ => rfl, by decide, fun v => field_high_ne_zero v (by decide)⟩
theorem skern_form : PassForm (.wrsrSkern a) a 0x021 32 :=
  ⟨fun _ => rfl, fun _ _ => rfl, by decide, fun v => field_high_ne_zero v (by decide)⟩
theorem sdrain_form : PassForm (.wrsrSdrain a) a 0x022 3 :=
  ⟨fun _ => rfl, fun _ _ => rfl, by decide, fun v => field_high_ne_zero v (by decide)⟩

theorem passForm_of_mem (hi : i ∈ [Instr.wrsrSpass a, .wrsrSkern a, .wrsrSdrain a]) : ∃ num width, PassForm i a num width := by
  simp only [List.mem_cons, List.not_mem_nil, or_false] at hi
  rcases hi with rfl | rfl | rfl
  · exact ⟨_, _, spass_form⟩
  · exact ⟨_, _, skern_form⟩
  · exact ⟨_, _, sdrain_form⟩

variable {num width : Nat}

theorem PassForm.traps_elsewhere (h : PassForm i a num width) (hact : Acts s w) (he : w.eng ≠ .x) :
    Traps i s w 0x02 (opTval i false 0) := h.form.traps_unlisted hact ((h.view _ _).trans (if_neg he))

theorem PassForm.traps_user (h : PassForm i a num width) (hact : Acts s w) (he : w.eng = .x) (hs : (s.stream w).super = false) :
    Traps i s w 0x03 (firstWord i) :=
  h.form.traps_view hact ((h.view _ _).trans (if_pos he)) (by rw [hs]; decide)

theorem PassForm.refuses (h : PassForm i a num width) (hrun : CanRun s w [a] 4) (he : w.eng = .x)
    (hs : (s.stream w).super = true) (hv : 2 ^ width ≤ (regOf s w a).toNat) : Traps i s w 0x02 (opTval i false 13) :=
  h.form.refuses hrun ((h.view _ _).trans (by rw [if_pos he, hs]; rfl)) (by rw [h.width, decide_eq_true hv, Bool.true_or])

theorem PassForm.stores (h : PassForm i a num width) (hrun : CanRun s w [a] 4) (he : w.eng = .x)
    (hs : (s.stream w).super = true) (hv : (regOf s w a).toNat < 2 ^ width) {k : Core}
    (hk : swrite s w num (regOf s w a) = s.setCore w.core k) (hx : k.stream w.eng = (s.core w.core).stream w.eng) :
    exec i s = .next ((s.setCore w.core k).goTo w (s.pcOf w + 4)) :=
  h.form.stores_core hrun ((h.view _ _).trans (by rw [if_pos he, hs]; rfl)) h.free.1
    (by rw [h.width, decide_eq_false (Nat.not_le.mpr hv), badProfile_other h.free.2]; rfl) hk hx

theorem slim_form : WritesSpecial (.wrsr a 0x028) a 0x028 := fun _ => rfl

end

theorem stream_setXs (k : Core) (e : Eng) (x : XState) : Core.stream { k with xs := x } e = k.stream e := by cases e <;> rfl
theorem stream_setAs (k : Core) (e : Eng) (x : AState) : Core.stream { k with as := x } e = k.stream e := by cases e <;> rfl

/-- Settles O15: each register by its view, its reserved bits and what it stores. -/
theorem specialWrites : Obligations.SpecialWrites := by
  intro s w a hrun
  have hact : Acts s w := hrun.1
  refine ⟨fun i u hi => ?_, fun hs => ⟨cause_refuses hrun hs, status_refuses hrun hs⟩, fun n hn => readOnly_traps hact hn,
    fun hq => ⟨fun hf => ?_, fun hf => ?_⟩, qflags_refuses hrun, npdef_stores hrun, npdef_refuses hrun, dph_stores hrun,
    dph_refuses hrun, fun he i hi => ?_, fun he hs i hi => ?_, fun he hs => ⟨fun hv => ?_, fun hv => ?_, fun hv => ?_,
      spass_form.refuses hrun he hs, skern_form.refuses hrun he hs, sdrain_form.refuses hrun he hs⟩,
    fun he hs => ?_, fun he hs => ?_, fun he => ?_⟩
  · obtain ⟨num, view, hform, hres⟩ := storesInMode_of_mem hi
    exact ⟨hform.traps hact, fun hs hc hst => hform.stores hrun hs (hres hc hst)⟩
  · rw [qflags_stores hrun hq, hf, if_pos rfl]
    exact finish_setStream hrun.2.2 rfl rfl
  · rw [Waits, qflags_stores hrun hq, hf]
    rfl
  · obtain ⟨num, width, hform⟩ := passForm_of_mem hi
    exact hform.traps_elsewhere hact he
  · obtain ⟨num, width, hform⟩ := passForm_of_mem hi
    exact hform.traps_user hact he hs
  · exact spass_form.stores hrun he hs hv rfl (stream_setXs _ _ _)
  · exact skern_form.stores hrun he hs hv rfl (stream_setXs _ _ _)
  · exact sdrain_form.stores hrun he hs hv rfl (stream_setXs _ _ _)
  · exact slim_form.stores_core hrun ((sview_slim _ _).trans (by rw [if_pos he, hs]; rfl)) (by decide) rfl rfl (stream_setAs _ _ _)
  · exact slim_form.traps_view hact ((sview_slim _ _).trans (if_pos he)) (by rw [hs]; decide)
  · exact slim_form.traps_unlisted hact ((sview_slim _ _).trans (if_neg he))

end Sys2Proof.Machine
end

section
/-! SUPPORT. Freezing and thawing a gauge domain (R231), messages to the host, and the obligations about exceptions (R118, R119, R148). -/

namespace Sys2Proof.Machine

/-! ## Freezing and thawing (R231) -/

section
variable (s : State) (why : Freeze) (g h : Nat)

theorem cluster_freeze_ne (hne : h ≠ g) : (s.freeze g why).cluster h = s.cluster h := by
  simp only [State.freeze]
  split
  · rfl
  · exact tget_tset_ne _ _ _ hne

theorem mem_frozen_freeze_self : why ∈ ((s.freeze g why).cluster g).frozen := by
  simp only [State.freeze]
  split
  · next hc => exact List.contains_iff_mem.mp hc
  · simp

theorem mem_frozen_freeze {f : Freeze} (hf : f ∈ (s.cluster h).frozen) : f ∈ ((s.freeze g why).cluster h).frozen := by
  by_cases hne : h = g
  · subst hne
    simp only [State.freeze]
    split
    · exact hf
    · simp [hf]
  · rwa [cluster_freeze_ne _ _ _ _ hne]

theorem freeze_frame : ∃ C, s.freeze g why = { s with clusters := C } := by
  simp only [State.freeze]
  split
  · exact ⟨s.clusters, rfl⟩
  · exact ⟨_, rfl⟩

/-- The local count stands where it was as the cluster freezes. -/
theorem localCount_freeze : (s.freeze g why).localCount h = s.localCount h := by
  by_cases hne : h = g
  · subst hne
    simp only [State.freeze]
    split
    · rfl
    · cases hf : (s.cluster h).frozen <;> simp [State.localCount, hf]
  · obtain ⟨C, hC⟩ := freeze_frame s why g
    have hclock : (s.freeze g why).clock = s.clock := by rw [hC]
    simp only [State.localCount, cluster_freeze_ne _ _ _ _ hne, hclock]

theorem cluster_thaw_ne (hne : h ≠ g) : (s.thaw g why).cluster h = s.cluster h := by
  unfold State.thaw
  simp only
  split
  · rfl
  · split <;> exact tget_tset_ne _ _ _ hne

theorem frozen_thaw_self : ((s.thaw g why).cluster g).frozen = (s.cluster g).frozen.filter (fun f => f != why) := by
  unfold State.thaw
  simp only
  split
  · next he => simp [List.isEmpty_iff.mp he]
  · split
    · next he => simpa using (List.isEmpty_iff.mp he).symm
    · simp

theorem thaw_frame : ∃ C, s.thaw g why = { s with clusters := C } := by
  unfold State.thaw
  simp only
  split
  · exact ⟨s.clusters, rfl⟩
  · split <;> exact ⟨_, rfl⟩

theorem since_thaw : ((s.thaw g why).cluster h).since = (s.cluster h).since := by
  by_cases hne : h = g
  · subst hne
    unfold State.thaw
    simp only
    split
    · rfl
    · split <;> simp
  · rw [cluster_thaw_ne _ _ _ _ hne]

/-- The frozen cycles are not counted. -/
theorem localCount_thaw (hs : (s.cluster h).since ≤ s.clock) : (s.thaw g why).localCount h = s.localCount h := by
  have hclock : (s.thaw g why).clock = s.clock := by
    obtain ⟨C, hC⟩ := thaw_frame s why g
    rw [hC]
  by_cases hne : h = g
  · subst hne
    unfold State.thaw
    simp only
    split
    · rfl
    · next he =>
      have hf : (s.cluster h).frozen.isEmpty = false := by simpa using he
      split
      · simp only [State.localCount, State.cluster_setCluster_self, State.setCluster_clock, hf, List.isEmpty_nil, if_true,
          Bool.false_eq_true, if_false]
        congr 1
        omega
      · next hr =>
        simp only [State.localCount, State.cluster_setCluster_self, hf, hr, Bool.false_eq_true, if_false]
  · simp only [State.localCount, cluster_thaw_ne _ _ _ _ hne, hclock]

end

section
variable (why : Freeze)

theorem freezeAll_frame (l : List Nat) (s : State) : ∃ C, freezeAll why l s = { s with clusters := C } := by
  induction l generalizing s with
  | nil => exact ⟨s.clusters, rfl⟩
  | cons g t ih =>
    obtain ⟨C, hC⟩ := freeze_frame s why g
    obtain ⟨D, hD⟩ := ih (s.freeze g why)
    exact ⟨D, by rw [freezeAll, hD, hC]⟩

theorem cluster_freezeAll_out {l : List Nat} {h : Nat} (hout : h ∉ l) (s : State) :
    (freezeAll why l s).cluster h = s.cluster h := by
  induction l generalizing s with
  | nil => rfl
  | cons g t ih =>
    simp only [List.mem_cons, not_or] at hout
    rw [freezeAll, ih hout.2, cluster_freeze_ne _ _ _ _ hout.1]

theorem mem_frozen_freezeAll {l : List Nat} {h : Nat} {f : Freeze} (s : State) (hf : f ∈ (s.cluster h).frozen) :
    f ∈ ((freezeAll why l s).cluster h).frozen := by
  induction l generalizing s with
  | nil => exact hf
  | cons g t ih => exact ih _ (mem_frozen_freeze s why g h hf)

theorem frozen_freezeAll {l : List Nat} {h : Nat} (hin : h ∈ l) (s : State) :
    why ∈ ((freezeAll why l s).cluster h).frozen := by
  induction l generalizing s with
  | nil => simp at hin
  | cons g t ih =>
    rcases List.mem_cons.mp hin with rfl | hin
    · exact mem_frozen_freezeAll why (s.freeze h why) (mem_frozen_freeze_self s why h)
    · exact ih hin _

theorem localCount_freezeAll (l : List Nat) (h : Nat) (s : State) : (freezeAll why l s).localCount h = s.localCount h := by
  induction l generalizing s with
  | nil => rfl
  | cons g t ih => rw [freezeAll, ih, localCount_freeze]

theorem thawAll_frame (l : List Nat) (s : State) : ∃ C, thawAll why l s = { s with clusters := C } := by
  induction l generalizing s with
  | nil => exact ⟨s.clusters, rfl⟩
  | cons g t ih =>
    obtain ⟨C, hC⟩ := thaw_frame s why g
    obtain ⟨D, hD⟩ := ih (s.thaw g why)
    exact ⟨D, by rw [thawAll, hD, hC]⟩

theorem cluster_thawAll_out {l : List Nat} {h : Nat} (hout : h ∉ l) (s : State) :
    (thawAll why l s).cluster h = s.cluster h := by
  induction l generalizing s with
  | nil => rfl
  | cons g t ih =>
    simp only [List.mem_cons, not_or] at hout
    rw [thawAll, ih hout.2, cluster_thaw_ne _ _ _ _ hout.1]

theorem not_frozen_thaw {g h : Nat} (s : State) (hf : why ∉ (s.cluster h).frozen) : why ∉ ((s.thaw g why).cluster h).frozen := by
  by_cases hne : h = g
  · subst hne
    rw [frozen_thaw_self]
    exact fun hc => hf (List.mem_filter.mp hc).1
  · rwa [cluster_thaw_ne _ _ _ _ hne]

theorem not_frozen_thawAll {l : List Nat} {h : Nat} (s : State) (hf : why ∉ (s.cluster h).frozen) :
    why ∉ ((thawAll why l s).cluster h).frozen := by
  induction l generalizing s with
  | nil => exact hf
  | cons g t ih => exact ih _ (not_frozen_thaw why s hf)

theorem thawed_thawAll {l : List Nat} {h : Nat} (hin : h ∈ l) (s : State) : why ∉ ((thawAll why l s).cluster h).frozen := by
  induction l generalizing s with
  | nil => simp at hin
  | cons g t ih =>
    rcases List.mem_cons.mp hin with rfl | hin
    · refine not_frozen_thawAll why (s.thaw h why) ?_
      rw [frozen_thaw_self]
      simp
    · exact ih hin _

theorem localCount_thawAll (l : List Nat) {h : Nat} (s : State) (hs : (s.cluster h).since ≤ s.clock) :
    (thawAll why l s).localCount h = s.localCount h := by
  induction l generalizing s with
  | nil => rfl
  | cons g t ih =>
    have hclock : (s.thaw g why).clock = s.clock := by
      obtain ⟨C, hC⟩ := thaw_frame s why g
      rw [hC]
    rw [thawAll, ih _ (by rwa [since_thaw, hclock]), localCount_thaw s why g h hs]

end

/-! ## Taking an exception (R118) -/

/-- The stream that has entered its handler, for a cause met in the mode whose `pmode` is 0. -/
def Stream.entered (t : Stream) (cause : Nat) (tval pc : Word) : Stream :=
  { t with
    epc := t.pc, cause := BitVec.ofNat 64 cause, tval := tval, status := (t.status &&& ~~~(3 : Word)) ||| 1, pc := pc,
    run := .running, at_ := .free }

theorem setMode_handler (t : Stream) : t.setMode true false = { t with status := (t.status &&& ~~~(3 : Word)) ||| 1 } := setMode_eq t true false

section
variable {s : State} {w : Who} {cause : Nat} {tval : Word}

/-- The count of a race conflict that traps (R383). -/
def raceCounted (s : State) (w : Who) (cause : Nat) : State := if cause = 0x40 then s.count (ctrRaceTrap (dieOf w.core)) 1 else s

theorem raceCounted_core (s : State) (w : Who) (cause c : Nat) : (raceCounted s w cause).core c = s.core c := by
  unfold raceCounted
  split <;> rfl

theorem raceCounted_frame (s : State) (w : Who) (cause : Nat) : ∃ C, raceCounted s w cause = { s with counters := C } := by
  unfold raceCounted
  split
  · exact ⟨_, rfl⟩
  · exact ⟨s.counters, rfl⟩

theorem domain_setStream (u : Stream) (ctx die : Nat) : (s.setStream w u).domain ctx die = s.domain ctx die := rfl
theorem domain_counters (C : Tbl Nat) (ctx die : Nat) : State.domain { s with counters := C } ctx die = s.domain ctx die := rfl

theorem takeTrap_user (hu : (s.stream w).super = false) (hv : (s.stream w).tvec ≠ 0) :
    takeTrap s w cause tval =
      let t := (raceCounted s w cause).setStream w ((s.stream w).entered cause tval (s.stream w).tvec)
      if (s.stream w).gauge then freezeAll (.fault w.core w.eng) (s.domain (s.core w.core).ctx (dieOf w.core)) t else t := by
  obtain ⟨C, hC⟩ := raceCounted_frame s w cause
  have hctx : ∀ u : Stream, (((raceCounted s w cause).setStream w u).core w.core).ctx = (s.core w.core).ctx := fun u => by
    rw [State.core_setStream_self, raceCounted_core, Core.ctx, Core.setStream_job]
    rfl
  simp only [takeTrap, hu, Bool.false_eq_true, if_false, hv, setMode_handler]
  rw [← raceCounted, hctx, domain_setStream, hC, domain_counters]
  rfl

theorem takeTrap_user_rib (hu : (s.stream w).super = false) (hv : (s.stream w).tvec ≠ 0) (hg : (s.stream w).gauge = false) :
    takeTrap s w cause tval = (raceCounted s w cause).setStream w ((s.stream w).entered cause tval (s.stream w).tvec) := by
  rw [takeTrap_user hu hv, hg]
  rfl

theorem takeTrap_user_gauge (hu : (s.stream w).super = false) (hv : (s.stream w).tvec ≠ 0) (hg : (s.stream w).gauge = true) :
    takeTrap s w cause tval = freezeAll (.fault w.core w.eng) (s.domain (s.core w.core).ctx (dieOf w.core))
      ((raceCounted s w cause).setStream w ((s.stream w).entered cause tval (s.stream w).tvec)) := by
  rw [takeTrap_user hu hv, hg]
  rfl

theorem localCount_entered (u : Stream) (g : Nat) : ((raceCounted s w cause).setStream w u).localCount g = s.localCount g := by
  obtain ⟨C, hC⟩ := raceCounted_frame s w cause
  rw [hC]
  rfl

/-- In gauge mode the clusters of the domain freeze as the exception is taken. -/
theorem takeTrap_freezes (hu : (s.stream w).super = false) (hv : (s.stream w).tvec ≠ 0) (hg : (s.stream w).gauge = true) :
    let t := takeTrap s w cause tval
    let domain := s.domain (s.core w.core).ctx (dieOf w.core)
    { t with clusters := s.clusters } = (raceCounted s w cause).setStream w ((s.stream w).entered cause tval (s.stream w).tvec) ∧
      (∀ g ∈ domain, Freeze.fault w.core w.eng ∈ (t.cluster g).frozen ∧ t.localCount g = s.localCount g) ∧
      ∀ g, g ∉ domain → t.cluster g = s.cluster g := by
  obtain ⟨R, hR⟩ := raceCounted_frame s w cause
  rw [takeTrap_user_gauge hu hv hg]
  refine ⟨?_, fun g hin => ⟨frozen_freezeAll _ hin _, ?_⟩, fun g hout => ?_⟩
  · obtain ⟨C, hC⟩ := freezeAll_frame (.fault w.core w.eng) (s.domain (s.core w.core).ctx (dieOf w.core))
      ((raceCounted s w cause).setStream w ((s.stream w).entered cause tval (s.stream w).tvec))
    rw [hC, hR]
    rfl
  · rw [localCount_freezeAll, localCount_entered]
  · rw [cluster_freezeAll_out _ hout, hR]
    rfl

end

/-- The instructions that raise a cause, whatever the state. -/
theorem raises_of_mem {s : State} {w : Who} {i : Instr} {cause : Nat} {tval : Word} (h : Acts s w)
    (hi : (i, cause, tval) ∈ [(Instr.trap (tval.toNat), 0x60, tval), (.unassignedMajor (tval.toNat % 2 ^ 32), 0x01,
      BitVec.ofNat 64 (25 * 2 ^ 32 + tval.toNat % 2 ^ 32)), (.instructionFetchFault cause tval, cause, tval)]) :
    exec i s = .next (takeTrap s w cause tval) := by
  simp only [List.mem_cons, List.not_mem_nil, or_false, Prod.mk.injEq] at hi
  rcases hi with ⟨rfl, rfl, -⟩ | ⟨rfl, rfl, hv⟩ | ⟨rfl, -, -⟩
  · change execTrap _ s = _
    rw [execTrap, who_of_acts h, BitVec.ofNat_toNat, BitVec.setWidth_eq]
    rfl
  · change execUnassignedMajor _ s = _
    have hword : tvalField false 25 (tval.toNat % 2 ^ 32) = tval := by
      rw [tvalField, if_neg Bool.false_ne_true, Nat.zero_add]
      exact hv.symm
    rw [execUnassignedMajor, who_of_acts h, hword]
    rfl
  · change execInstructionFetchFault cause tval s = _
    rw [execInstructionFetchFault, who_of_acts h]
    rfl

/-- A stream that may issue takes its late cause first. -/
theorem step_takes_late {s : State} {w : Who} {l : Late} {rest : List Late} (hturn : (beginTurn s).turn = .stream w.core w.eng)
    (hc : w.core < 512) (hmay : mayIssue (beginTurn s) w = true) (hs : ((beginTurn s).stream w).super = false)
    (hl : ((beginTurn s).stream w).late = l :: rest) :
    step s = afterTurn (beginTurn s) (.next (takeLate (beginTurn s) w)) := by
  rw [step_of_stream hturn hc, streamTurn_of_mayIssue hmay]
  simp [ownStep, issue, hmay, hs, hl]

/-- Changes of a stream hold no core. -/
theorem held_setStream (s : State) (w : Who) (u : Stream) (c : Nat) : ((s.setStream w u).core c).held = (s.core c).held := by
  by_cases hc : c = w.core
  · subst hc
    rw [State.core_setStream_self, Core.setStream_held]
  · rw [State.core_setStream_ne _ _ _ hc]

/-- Settles O16: the trap of each cause, and the late cause of a turn. -/
theorem exceptionEntry : Obligations.ExceptionEntry := by
  refine ⟨fun s w i cause tval hact hu hv hi => ⟨fun hg => ?_, fun hg => ?_⟩,
    fun s w l rest hturn hc hmay hs hg hv hl h40 => ?_⟩
  · rw [raises_of_mem hact hi, takeTrap_user_rib hu hv hg]
    rfl
  · exact ⟨_, raises_of_mem hact hi, takeTrap_freezes hu hv hg⟩
  · rw [step_takes_late hturn hc hmay hs hl]
    have htake : takeLate (beginTurn s) w = State.setStream
        { beginTurn s with requests := (beginTurn s).requests.filter (fun q => q.owner != .instr w.core w.eng) } w
        (({ (beginTurn s).stream w with late := rest, taken := ((beginTurn s).stream w).taken ++ [l] } : Stream).entered l.cause l.tval
          ((beginTurn s).stream w).tvec) := by
      have hstream : (dropReqs ((beginTurn s).setStream w { (beginTurn s).stream w with
          late := rest, taken := ((beginTurn s).stream w).taken ++ [l] }) (.instr w.core w.eng)).stream w =
          { (beginTurn s).stream w with late := rest, taken := ((beginTurn s).stream w).taken ++ [l] } :=
        State.stream_setStream_self _ _ _
      simp only [takeLate, hl]
      rw [takeTrap_user_rib (by rw [hstream]; exact hs) (by rw [hstream]; exact hv) (by rw [hstream]; exact hg), hstream, raceCounted,
        if_neg h40]
      exact State.setStream_setStream { beginTurn s with
        requests := (beginTurn s).requests.filter (fun q => q.owner != .instr w.core w.eng) } w _ _
    rw [htake, afterTurn, newlyHeld_nil (fun c => by rw [held_setStream]; exact id)]
    rfl

end Sys2Proof.Machine
end

section
/-! SUPPORT. Messages to the host, fatal causes (R119, R378) and ERET (R118, R243), and the obligations about them. -/

namespace Sys2Proof.Machine

/-! ## Messages to the host leave the rest of the package -/

theorem say_frame (s : State) (m : HostMsg) : ∃ S T R D, say s m = { s with session := S, toHost := T, ring := R, ringDropped := D } := by
  unfold say
  split
  · exact ⟨_, _, s.ring, s.ringDropped, rfl⟩
  · split
    · exact ⟨s.session, s.toHost, _, s.ringDropped, rfl⟩
    · exact ⟨s.session, s.toHost, s.ring, _, rfl⟩

/-! ## Fatal causes (R119, R378) -/

/-- The core that a hold covers: its count of cycles runs from its first hold. -/
def State.heldCore (s : State) (c : Nat) : Core :=
  if (s.core c).held then s.core c else { s.core c with held := true, heldSince := s.localCount (clusterOf c) }

theorem heldCore_held (s : State) (c : Nat) : (s.heldCore c).held = true := by
  unfold State.heldCore
  split
  · assumption
  · rfl

theorem heldCore_stream (s : State) (c : Nat) (e : Eng) : (s.heldCore c).stream e = (s.core c).stream e := by
  unfold State.heldCore
  split
  · rfl
  · cases e <;> rfl

theorem heldCore_tile (s : State) (c : Nat) : (s.heldCore c).tile = (s.core c).tile := by
  unfold State.heldCore
  split <;> rfl

theorem core_markHeld_self (s : State) (c : Nat) : (markHeld [c] s).core c = s.heldCore c := by
  simp only [markHeld, State.heldCore]
  split
  · rfl
  · simp

theorem core_markHeld_ne (s : State) {c d : Nat} (h : d ≠ c) : (markHeld [c] s).core d = s.core d := by
  simp only [markHeld]
  split
  · rfl
  · exact State.core_setCore_ne _ _ h

theorem markHeld_frame (cs : List Nat) (s : State) : ∃ C, markHeld cs s = { s with cores := C } := by
  induction cs generalizing s with
  | nil => exact ⟨s.cores, rfl⟩
  | cons c t ih =>
    simp only [markHeld]
    split
    · exact ih s
    · obtain ⟨C, hC⟩ := ih (s.setCore c { s.core c with held := true, heldSince := s.localCount (clusterOf c) })
      exact ⟨C, hC⟩

/-- The hold that a fatal cause of a stream starts (R378). -/
def holdOf (s : State) (w : Who) (cause : Nat) : Hold :=
  ⟨(s.core w.core).ctx, dieOf w.core, (s.stream w).gauge, cause, w.eng.code, w.core, (s.stream w).epc, (s.stream w).tval,
    BitVec.ofNat 64 (s.jobCount w.core), 0, [], 0, s.clock⟩

/-- In rib mode, with fewer than eight holds of the die and none of the context, a fatal cause holds the stream's core alone. -/
theorem fatal_starts {s : State} {w : Who} {cause : Nat} (hg : (s.stream w).gauge = false)
    (hnone : ∀ h ∈ s.holds, ¬ (h.ctx = (s.core w.core).ctx ∧ h.die = dieOf w.core))
    (hfew : (s.holds.filter (fun h => h.die == dieOf w.core)).length < 8) :
    ∃ u : State, fatal s w cause = markHeld [w.core] u ∧ u.mem = s.mem ∧ u.holds = s.holds ++ [holdOf s w cause] ∧
      (∀ c, u.core c = (s.setStream w { s.stream w with run := .held }).core c) := by
  have hany : s.holds.any (fun h => h.ctx == (s.core w.core).ctx && h.die == dieOf w.core) = false := by
    rw [List.any_eq_false]
    intro h hin
    simpa using hnone h hin
  obtain ⟨S, T, R, D, hsay⟩ := say_frame ((s.setStream w { s.stream w with run := .held }).count (ctrHold (dieOf w.core)) 1)
    (.hold (holdRecord (s.setStream w { s.stream w with run := .held }) (holdOf s w cause) false))
  refine ⟨{ say ((s.setStream w { s.stream w with run := .held }).count (ctrHold (dieOf w.core)) 1)
    (.hold (holdRecord (s.setStream w { s.stream w with run := .held }) (holdOf s w cause) false)) with
      holds := s.holds ++ [holdOf s w cause] }, ?_, ?_, rfl, fun c => ?_⟩
  · simp only [fatal, hany, Bool.false_eq_true, if_false, if_pos hfew, hg, heldCores, holdOf]
    simp only [holdOf, hg] at hsay
    rw [hsay]
    rfl
  · rw [hsay]
    rfl
  · rw [hsay]
    rfl

/-- What a fatal cause leaves of its stream, its core and the others. -/
theorem fatal_effect {s : State} {w : Who} {cause : Nat} (hg : (s.stream w).gauge = false)
    (hnone : ∀ h ∈ s.holds, ¬ (h.ctx = (s.core w.core).ctx ∧ h.die = dieOf w.core))
    (hfew : (s.holds.filter (fun h => h.die == dieOf w.core)).length < 8) :
    let t := fatal s w cause
    t.mem = s.mem ∧ (∀ c, c ≠ w.core → t.core c = s.core c) ∧ (t.core w.core).held = true ∧
      (t.core w.core).tile = (s.core w.core).tile ∧ t.holds = s.holds ++ [holdOf s w cause] ∧
      t.stream w = { s.stream w with run := .held } := by
  obtain ⟨u, hfatal, hmem, hholds, hcore⟩ := fatal_starts (cause := cause) hg hnone hfew
  obtain ⟨C, hC⟩ := markHeld_frame [w.core] u
  rw [hfatal]
  refine ⟨by rw [hC]; exact hmem, fun c hc => ?_, ?_, ?_, by rw [hC]; exact hholds, ?_⟩
  · rw [core_markHeld_ne _ hc, hcore, State.core_setStream_ne _ _ _ hc]
  · rw [core_markHeld_self, heldCore_held]
  · rw [core_markHeld_self, heldCore_tile, hcore, State.core_setStream_self, Core.setStream_tile]
  · rw [State.stream, core_markHeld_self, heldCore_stream, hcore, State.core_setStream_self, Core.stream_setStream_self]

/-- Settles O17: in supervisor mode nothing is written before the hold, and with `tvec` 0 the trap is. -/
theorem fatalFaults : Obligations.FatalFaults := by
  intro s w n hact hg hmode hnone hfew
  have hexec : exec (.trap n) s = .next (takeTrap s w 0x60 (BitVec.ofNat 64 n)) := by
    change execTrap n s = _
    rw [execTrap, who_of_acts hact]
    rfl
  cases hs : (s.stream w).super
  · have hv : (s.stream w).tvec = 0 := hmode.resolve_left (by simp [hs])
    have htrap : takeTrap s w 0x60 (BitVec.ofNat 64 n) = fatal (s.setStream w { s.stream w with
        epc := s.pcOf w, cause := 0x60, tval := BitVec.ofNat 64 n,
        status := ((s.stream w).status &&& ~~~(3 : Word)) ||| 1, at_ := .free, run := .running }) w 0x60 := by
      simp only [takeTrap, hs, hv, setMode_handler]
      rfl
    have hgauge : ∀ u : Stream, u.status = ((s.stream w).status &&& ~~~(3 : Word)) ||| 1 → u.gauge = false := fun u hu => by
      have h2 : (~~~(3 : Word)).getLsbD 2 = true ∧ (1 : Word).getLsbD 2 = false := by decide
      rw [Stream.gauge, hu, flag, BitVec.getLsbD_or, BitVec.getLsbD_and, h2.1, h2.2, Bool.and_true, Bool.or_false]
      exact hg
    have hctx : ∀ u : Stream, ((s.setStream w u).core w.core).ctx = (s.core w.core).ctx := fun u => by
      rw [State.core_setStream_self, Core.ctx, Core.setStream_job]
      rfl
    refine ⟨_, hexec.trans (congrArg _ htrap), ?_⟩
    obtain ⟨hmem, hcores, hheld, htile, hholds, hstream⟩ := fatal_effect (cause := 0x60) (s := s.setStream w { s.stream w with
        epc := s.pcOf w, cause := 0x60, tval := BitVec.ofNat 64 n,
        status := ((s.stream w).status &&& ~~~(3 : Word)) ||| 1, at_ := .free, run := .running }) (w := w)
      (by rw [State.stream_setStream_self]; exact hgauge _ rfl) (by rw [hctx]; exact hnone) hfew
    refine ⟨hmem, fun c hc => (hcores c hc).trans (State.core_setStream_ne _ _ _ hc), hheld, htile.trans ?_, ⟨_, hholds, rfl, ?_, rfl, ?_, ?_⟩,
      fun hc => ?_, fun _ _ => ?_⟩
    · rw [State.core_setStream_self, Core.setStream_tile]
    · exact hctx _
    · rw [hstream]
      rfl
    · rw [hstream]
      rfl
    · simp at hc
    · rw [hstream, State.stream_setStream_self]
  · have htrap : takeTrap s w 0x60 (BitVec.ofNat 64 n) = fatal s w 0x60 := by
      simp only [takeTrap, hs, if_true]
      rfl
    refine ⟨_, hexec.trans (congrArg _ htrap), ?_⟩
    obtain ⟨hmem, hcores, hheld, htile, hholds, hstream⟩ := fatal_effect (cause := 0x60) hg hnone hfew
    exact ⟨hmem, hcores, hheld, htile, ⟨_, hholds, rfl, rfl, rfl, by rw [hstream]; rfl, by rw [hstream]; rfl⟩, fun _ => hstream,
      fun hc => by simp at hc⟩

/-! ## ERET (R118, R243) -/

theorem alignPc_eq (v : Word) : alignPc v = v &&& ~~~(3 : Word) := by
  rw [← setField_low_zero, alignPc, setField]
  simp [Nat.mod_one]

theorem pmode_eq (v : Word) : BitVec.ofNat 64 ((if flag v 1 then 1 else 0) + (if false = true then 2 else 0)) = (v >>> 1) &&& 1 := by
  have h1 : ∀ n < 64, (1 : Word).getLsbD n = decide (n = 0) := by decide
  have hb : ∀ p : Bool, ∀ n < 64, (BitVec.ofNat 64 ((if p then 1 else 0) + (if false = true then 2 else 0))).getLsbD n =
      (decide (n = 0) && p) := by decide
  apply BitVec.eq_of_getLsbD_eq
  intro n hn
  rw [hb _ n hn, BitVec.getLsbD_and, BitVec.getLsbD_ushiftRight, h1 n hn]
  by_cases h0 : n = 0
  · simp [h0, flag]
  · simp [h0]

/-- The stream after ERET. -/
def Stream.returned (t : Stream) : Stream :=
  { t with
    status := (t.status &&& ~~~(3 : Word)) ||| ((t.status >>> 1) &&& 1), pc := t.epc &&& ~~~(3 : Word), run := .running, at_ := .free,
    taken := [], stood := t.stood.filter (fun m => m.1 == t.epc &&& ~~~(3 : Word)) }

theorem eret_eq (s : State) (w : Who) : eret s w =
    let s1 := s.setCore w.core (resumeLate (s.stream w).taken ((s.core w.core).setStream w.eng (s.stream w).returned))
    if (s.stream w).gauge && (s.stream w).late.isEmpty then
      thawAll (.fault w.core w.eng) (s1.domain (s1.core w.core).ctx (dieOf w.core)) s1
    else s1 := by
  simp only [eret, setMode_eq, pmode_eq, alignPc_eq, Stream.stoodAt]
  rfl

/-- A transfer or command of the list goes on. -/
def resumeXfers (l : Late) (x : Tbl Transfer) : Tbl Transfer :=
  match l.slot with
  | some i => x.map (fun p => if p.1 = i then (p.1, { p.2 with suspended := false }) else p)
  | none => x

def resumeCmds (l : Late) (c : List Cmd) : List Cmd :=
  match l.cmd with
  | some q => c.map (fun c => if c.seq = q && c.state = .suspended then { c with state := .issued } else c)
  | none => c

theorem resumeLate_cons (l : Late) (t : List Late) (k : Core) : resumeLate (l :: t) k = resumeLate t { k with
    as := { k.as with xfers := resumeXfers l k.as.xfers }, ms := { k.ms with window := resumeCmds l k.ms.window } } := by
  obtain ⟨cause, tval, slot, cmd⟩ := l
  cases slot <;> cases cmd <;> rfl

/-- What goes on is not suspended, and nothing is suspended anew. -/
theorem resumeXfers_runs {l : Late} {x : Tbl Transfer} {p : Nat × Transfer} (hp : p ∈ resumeXfers l x)
    (h : l.slot = some p.1 ∨ ∀ q ∈ x, q.1 = p.1 → q.2.suspended = false) : p.2.suspended = false := by
  unfold resumeXfers at hp
  split at hp
  · next i hi =>
    obtain ⟨q, hq, rfl⟩ := List.mem_map.mp hp
    by_cases hqi : q.1 = i
    · rw [if_pos hqi]
    · rw [if_neg hqi] at h ⊢
      exact h.elim (fun hs => absurd (Option.some.inj (hi.symm.trans hs)).symm hqi) (fun h => h q hq rfl)
  · next hn => exact h.elim (fun hs => by simp [hn] at hs) (fun h => h p hp rfl)

theorem resumeCmds_runs {l : Late} {x : List Cmd} {c : Cmd} (hc : c ∈ resumeCmds l x)
    (h : l.cmd = some c.seq ∨ ∀ d ∈ x, d.seq = c.seq → d.state ≠ .suspended) : c.state ≠ .suspended := by
  unfold resumeCmds at hc
  split at hc
  · next q hq =>
    obtain ⟨d, hd, rfl⟩ := List.mem_map.mp hc
    by_cases hs : d.state = .suspended
    · by_cases hdq : d.seq = q
      · simp [hdq, hs]
      · simp only [hdq, decide_false, Bool.false_and, Bool.false_eq_true, if_false] at h ⊢
        exact h.elim (fun hl => absurd (Option.some.inj (hq.symm.trans hl)).symm hdq) (fun h => h d hd rfl)
    · simp [hs]
  · next hn => exact h.elim (fun hl => by simp [hn] at hl) (fun h => h c hc rfl)

/-- What resuming the transfers and the commands of served causes leaves, and that none of them stays suspended. -/
theorem resumeLate_eq (ls : List Late) (k : Core) : ∃ X W,
    resumeLate ls k = { k with as := { k.as with xfers := X }, ms := { k.ms with window := W } } ∧
    (∀ p ∈ X, (∃ l ∈ ls, l.slot = some p.1) ∨ (∀ q ∈ k.as.xfers, q.1 = p.1 → q.2.suspended = false) → p.2.suspended = false) ∧
    (∀ c ∈ W, (∃ l ∈ ls, l.cmd = some c.seq) ∨ (∀ d ∈ k.ms.window, d.seq = c.seq → d.state ≠ .suspended) →
      c.state ≠ .suspended) := by
  induction ls generalizing k with
  | nil =>
    refine ⟨k.as.xfers, k.ms.window, rfl, fun p hp h => ?_, fun c hc h => ?_⟩
    · exact h.elim (by simp) (fun h => h p hp rfl)
    · exact h.elim (by simp) (fun h => h c hc rfl)
  | cons l t ih =>
    obtain ⟨X, W, heq, hX, hW⟩ := ih { k with
      as := { k.as with xfers := resumeXfers l k.as.xfers }, ms := { k.ms with window := resumeCmds l k.ms.window } }
    refine ⟨X, W, (resumeLate_cons l t k).trans heq, fun p hp h => hX p hp ?_, fun c hc h => hW c hc ?_⟩
    · rcases h with ⟨m, hin, hm⟩ | h
      · rcases List.mem_cons.mp hin with rfl | hin
        · exact .inr fun q hq hqp => resumeXfers_runs hq (.inl (hqp ▸ hm))
        · exact .inl ⟨m, hin, hm⟩
      · exact .inr fun q hq hqp => resumeXfers_runs hq (.inr fun r hr hrq => h r hr (hrq.trans hqp))
    · rcases h with ⟨m, hin, hm⟩ | h
      · rcases List.mem_cons.mp hin with rfl | hin
        · exact .inr fun d hd hdc => resumeCmds_runs hd (.inl (hdc ▸ hm))
        · exact .inl ⟨m, hin, hm⟩
      · exact .inr fun d hd hdc => resumeCmds_runs hd (.inr fun r hr hrd => h r hr (hrd.trans hdc))

theorem tfind_mem {α : Type} {t : Tbl α} {n : Nat} {v : α} (h : tfind t n = some v) : (n, v) ∈ t := by
  induction t with
  | nil => simp [tfind] at h
  | cons p t ih =>
    obtain ⟨j, u⟩ := p
    by_cases hj : j = n
    · subst hj
      simp only [tfind, if_true, Option.some.injEq] at h
      simp [h]
    · rw [tfind, if_neg hj] at h
      exact List.mem_cons_of_mem _ (ih h)

section
variable {s : State} {w : Who}

theorem eret_exec (h : Acts s w) (hs : (s.stream w).super = true) : exec .eret s = .next (eret s w) := by
  change execEret s = _
  simp only [execEret, who_of_acts h, hs, if_true]

theorem eret_thaws_not (h : (s.stream w).gauge = false ∨ (s.stream w).late ≠ []) : eret s w =
    s.setCore w.core (resumeLate (s.stream w).taken ((s.core w.core).setStream w.eng (s.stream w).returned)) := by
  have hcond : ((s.stream w).gauge && (s.stream w).late.isEmpty) = false := by
    rcases h with h | h <;> simp [h]
  simp only [eret_eq, hcond, Bool.false_eq_true, if_false]

theorem eret_served_none (ht : (s.stream w).taken = []) (h : (s.stream w).gauge = false ∨ (s.stream w).late ≠ []) :
    eret s w = s.setStream w (s.stream w).returned := by
  rw [eret_thaws_not h, ht]
  rfl

theorem eret_thaws (ht : (s.stream w).taken = []) (hg : (s.stream w).gauge = true) (hl : (s.stream w).late = []) :
    eret s w = thawAll (.fault w.core w.eng) (s.domain (s.core w.core).ctx (dieOf w.core)) (s.setStream w (s.stream w).returned) := by
  have hctx : ((s.setStream w (s.stream w).returned).core w.core).ctx = (s.core w.core).ctx := by
    rw [State.core_setStream_self, Core.ctx, Core.setStream_job]
    rfl
  simp only [eret_eq, hg, hl, ht, List.isEmpty_nil, Bool.and_self, if_true, resumeLate]
  change thawAll _ (State.domain (s.setStream w (s.stream w).returned)
    ((s.setStream w (s.stream w).returned).core w.core).ctx _) _ = _
  rw [hctx, domain_setStream]
  rfl

/-- What ERET leaves of the core, and the work that goes on. -/
theorem eret_resumes (hg : (s.stream w).gauge = false) : ∃ X W, eret s w = s.setCore w.core
      { (s.core w.core).setStream w.eng (s.stream w).returned with
        as := { (s.core w.core).as with xfers := X }, ms := { (s.core w.core).ms with window := W } } ∧
    (∀ p ∈ X, (∃ l ∈ (s.stream w).taken, l.slot = some p.1) → p.2.suspended = false) ∧
    (∀ c ∈ W, (∃ l ∈ (s.stream w).taken, l.cmd = some c.seq) → c.state ≠ .suspended) := by
  obtain ⟨X, W, heq, hX, hW⟩ := resumeLate_eq (s.stream w).taken ((s.core w.core).setStream w.eng (s.stream w).returned)
  refine ⟨X, W, ?_, fun p hp h => hX p hp (.inl h), fun c hc h => hW c hc (.inl h)⟩
  rw [eret_thaws_not (.inl hg), heq, Core.setStream_as, Core.setStream_ms]

end

/-- Settles O18: what ERET leaves where it served nothing, what goes on where it served late causes, and its cause in user mode. -/
theorem exceptionReturn : Obligations.ExceptionReturn := by
  intro s w hact
  refine ⟨fun hs ht => ⟨fun h => ?_, fun hg hl => ?_⟩, fun hs hg => ?_, fun hs => ?_⟩
  · rw [eret_exec hact hs, eret_served_none ht h]
    rfl
  · refine ⟨_, (eret_exec hact hs).trans (congrArg _ (eret_thaws ht hg hl)), ?_, fun g hin => ⟨thawed_thawAll _ hin _, fun hsince => ?_⟩,
      fun g hout => cluster_thawAll_out _ hout _⟩
    · obtain ⟨C, hC⟩ := thawAll_frame (.fault w.core w.eng) (s.domain (s.core w.core).ctx (dieOf w.core))
        (s.setStream w (s.stream w).returned)
      rw [hC]
      rfl
    · exact localCount_thawAll _ _ _ hsince
  · obtain ⟨X, W, heq, hX, hW⟩ := eret_resumes (s := s) (w := w) hg
    refine ⟨_, (eret_exec hact hs).trans (congrArg _ heq), onlyCore_setCore _ _ _, ?_, fun l hl i x hslot hx => ?_, fun l hl c hc hcmd => ?_,
      ?_, ?_⟩
    · rw [State.stream, State.core_setCore_self]
      cases w.eng <;> rfl
    · rw [State.core_setCore_self] at hx
      exact hX (i, x) (tfind_mem hx) ⟨l, hl, hslot⟩
    · rw [State.core_setCore_self] at hc
      exact hW c hc ⟨l, hl, hcmd⟩
    · rw [State.core_setCore_self]
      exact Core.setStream_tile _ _ _
    · rw [State.core_setCore_self]
      exact Core.setStream_q _ _ _
  · change execEret s = _
    simp only [execEret, who_of_acts hact, hs, Bool.false_eq_true, if_false]
    rfl

end Sys2Proof.Machine
end

section
/-! SUPPORT. Scalar float arithmetic, and its values that land late (R159, R161, R102), with the obligations about them. -/

namespace Sys2Proof.Machine

/-! ## Results that are written at once -/

section
variable {i : Instr} {s : State} {w : Who} {srcs : List Nat} {d : Nat} {rnd : Rnd} {r : Nat × Word}

/-- A scalar float form writes its rounded code and its flags, and steps the rounding phase. -/
theorem scalarFloat_writes (hfull : Full s w srcs) (hd : (s.stream w).full d = true) (hstr : Straight s w 4)
    (hi : exec i s = scalarFloat w srcs d rnd r s) : WritesFloat i s w d rnd r := by
  refine ⟨_, ?_, wrote_put⟩
  have hu : ((s.stream w).addFlags r.2).stepPhase rnd = { s.stream w with
      qflags := (s.stream w).qflags ||| r.2,
      dph := if rnd = .rdi then BitVec.ofNat 64 (((s.stream w).phase + 1) % 32) else (s.stream w).dph } := stepPhase_eq _ _
  have hput : putReg (s.setStream w (((s.stream w).addFlags r.2).stepPhase rnd)) w d (BitVec.ofNat 64 r.1) =
      s.setStream w ((((s.stream w).addFlags r.2).stepPhase rnd).put d (BitVec.ofNat 64 r.1)) := by
    rw [putReg_full (by simpa [Stream.full] using hd), State.stream_setStream_self, State.setStream_setStream]
  simp only [hi, scalarFloat, needRegs_of_full _ hfull, finish]
  rw [hput, retire_setStream_stays (by simp [State.pcOf]) ((staysIn_congr (by simp) (by simp)).mpr hstr), hu]
  rfl

/-- A form of the two sources of a scalar operation. -/
theorem scalarOp_writes {a b : Nat} {op : Num → Num → NumF} (h : CanRun s w [a, b, d] 4) (hx : w.eng = .x)
    (hi : exec i s = scalarOp d a b rnd op s) :
    WritesFloat i s w d rnd (roundScalar s rnd (op (f32Of (regOf s w a)) (f32Of (regOf s w b)))) := by
  obtain ⟨hact, hfull, hstr⟩ := h
  refine scalarFloat_writes (srcs := [a, b]) (hfull.subset (by simp)) (hfull d (by simp)) hstr ?_
  rw [hi, scalarOp, whoOn_x_of_acts hact hx]

theorem roundScalar_eq (h : Acts s w) (hx : w.eng = .x) (x : NumF) : roundScalar s rnd x =
    ((fmtF32.round (RMode.at rnd (s.stream w).phase 0) false x.val).1,
      x.flags ||| (fmtF32.round (RMode.at rnd (s.stream w).phase 0) false x.val).2) := by
  rw [roundScalar, whoOn_x_of_acts h hx]

theorem kindTy_eq (n : Nat) : kindTy n = [Ty.f32, .s64, .z64, .f16].getD n .f16 := by
  match n with
  | 0 | 1 | 2 | 3 => rfl
  | n + 4 => rfl

end

/-- Settles O20: each form rounds its exact result once. -/
theorem scalarFloatResults : Obligations.ScalarFloatResults := by
  intro s w d a b dst sr rnd hrun hx
  obtain ⟨hact, hfull, hstr⟩ := hrun
  simp only [← roundScalar_eq hact hx]
  refine ⟨scalarOp_writes ⟨hact, hfull, hstr⟩ hx rfl, scalarOp_writes (op := fun x y => Num.add (isRdn rnd) x y.neg) ⟨hact, hfull, hstr⟩ hx rfl,
    scalarOp_writes ⟨hact, hfull, hstr⟩ hx rfl, scalarFloat_writes hfull (hfull d (by simp)) hstr ?_,
    scalarFloat_writes (srcs := [a]) (hfull.subset (by simp)) (hfull d (by simp)) hstr ?_⟩
  · change execSfma d a b rnd s = _
    rw [execSfma, whoOn_x_of_acts hact hx]
    rfl
  · change execSfcvt d a rnd dst sr s = _
    simp only [execSfcvt, whoOn_x_of_acts hact hx, kindTy_eq]

/-! ## Results that land late -/

section
variable {i : Instr} {s : State} {w : Who} {srcs : List Nat} {d : Nat} {rnd : Rnd} {r : Nat × Word}

/-- A producer leaves its value in flight and its register empty. -/
theorem scalarLate_pends (hfull : Full s w srcs) (hstr : Straight s w 4) : scalarLate w srcs d rnd r s =
    .next (s.coreGoes w (Core.setStream { s.core w.core with nextId := (s.core w.core).nextId + 1 } w.eng { s.stream w with
      pend := (s.stream w).pend ++ [⟨(s.core w.core).nextId, .scalar d (BitVec.ofNat 64 r.1) r.2⟩],
      empty := if d = 0 ∨ (s.stream w).empty.contains d then (s.stream w).empty else d :: (s.stream w).empty,
      dph := if rnd = .rdi then BitVec.ofNat 64 (((s.stream w).phase + 1) % 32) else (s.stream w).dph })) := by
  have hmark : ∀ t : Stream, t.markEmpty d = { t with
      empty := if d = 0 ∨ t.empty.contains d then t.empty else d :: t.empty } := fun t => by
    unfold Stream.markEmpty
    by_cases h : d = 0 ∨ t.empty.contains d = true
    · have : (decide (d = 0) || t.empty.contains d) = true := by simpa using h
      rw [if_pos this, if_pos h]
    · have : ¬ (decide (d = 0) || t.empty.contains d) = true := by simpa using h
      rw [if_neg this, if_neg h]
  simp only [scalarLate, needRegs_of_full _ hfull, addPend_eq, Core.stream_setStream_self, Core.setStream_setStream, stepPhase_eq, hmark]
  rw [finish, retire_stays hstr (by simp [State.stream]) (by simp [State.stream])]
  rfl

/-- Landing a value that nothing holds back. -/
theorem landAt_scalar {n id : Nat} {v fl : Word} (hp : (s.stream w).pend[n]? = some ⟨id, .scalar d v fl⟩)
    (hb : heldBack ((s.stream w).pend.take n) (.scalar d v fl) = false) :
    landAt s w n = tryEndJob (landWith w fl []
      (s.setCore w.core (landReg (dropPend (s.core w.core) w.eng id (.scalar d v fl)) w.eng d v))) w.core := by
  have hscan : scanBefore (s.core w.core) id (.scalar d v fl) = false := by
    simp [scanBefore]
  simp only [landAt, hp, hb, hscan, Bool.and_false, Bool.or_self, Bool.false_eq_true, if_false, landValue]

/-- Nothing is left to give, and no window has saturated. -/
theorem landWith_quiet {fl : Word} (h : fl &&& fAovf = 0 ∨ (s.stream w).aovte = false) :
    landWith w fl [] s = s.setStream w ((s.stream w).addFlags fl) := by
  have hov : overflows (s.stream w) fl = false := by
    rcases h with h | h <;> simp [overflows, h]
  simp only [landWith, hov, Bool.false_eq_true, if_false, Core.giveReserved, Core.unreserve, Core.giveAll]
  rw [State.core_setStream_self, State.setStream, State.setCore_setCore]

theorem allEnded_setStream (k : Core) (e : Eng) (u : Stream) (h : u.run = (k.stream e).run) :
    (k.setStream e u).allEnded = k.allEnded := by
  have hrun : ∀ f, ((k.setStream e u).stream f).run = (k.stream f).run := fun f => by
    by_cases hf : f = e
    · subst hf
      rw [Core.stream_setStream_self, h]
    · rw [Core.stream_setStream_ne _ _ hf]
  simp only [Core.allEnded, Core.setStream_job, hrun]

theorem tryEndJob_running {c : Nat} (h : (s.core c).allEnded = false) : tryEndJob s c = s := by
  unfold tryEndJob
  simp only [h, Bool.false_and, Bool.false_eq_true, if_false]
  split <;> rfl

/-- The stream once a value has landed: register `d` has it, and is full unless another pending one writes it. -/
def Stream.landed (t : Stream) (id d : Nat) (v : Word) : Stream :=
  let rest := t.pend.filter (fun p => p.id != id)
  { t with
    regs := if d = 0 then t.regs else tset t.regs d v, pend := rest,
    empty := if rest.any (fun p => p.op.scalarDest == some d) then t.empty else t.empty.filter (fun m => m != d) }

theorem landed_reg (t : Stream) (id d : Nat) (v : Word) (m : Nat) :
    (t.landed id d v).reg m = if m = d ∧ d ≠ 0 then v else t.reg m := by
  simp only [Stream.landed, Stream.reg]
  by_cases hd : d = 0
  · simp [hd]
  · by_cases hm : m = d
    · subst hm
      simp [hd]
    · simp [hd, hm, tget_tset_ne _ _ _ hm]

theorem dropPend_scalar (k : Core) (e : Eng) (id d : Nat) (v fl : Word) : dropPend k e id (.scalar d v fl) =
    k.setStream e { (k.stream e).landed id d v with regs := (k.stream e).regs } := by
  have hd : (PendOp.scalar d v fl).scalarDest = some d := rfl
  unfold dropPend
  rw [hd]
  simp only [Stream.landed]
  split <;> rfl

theorem landReg_dropPend (k : Core) (e : Eng) (id d : Nat) (v fl : Word) :
    landReg (dropPend k e id (.scalar d v fl)) e d v = k.setStream e ((k.stream e).landed id d v) := by
  rw [dropPend_scalar, landReg]
  by_cases hd : d = 0
  · simp only [hd, if_true]
    rfl
  · simp only [hd, if_false, Core.stream_setStream_self, Core.setStream_setStream]
    congr 1
    simp [Stream.landed, hd]

end

/-- Settles O22: what the producers leave in flight, and what a landing writes. -/
theorem scalarFloatLands : Obligations.ScalarFloatLands := by
  refine fun s w d a b rnd => ⟨fun hact hx hfull hstr i x hi => ?_, fun n id v fl hc hs hend hp hb hov => ?_⟩
  · have hround := roundScalar_eq (rnd := rnd) hact hx x
    simp only [List.mem_cons, List.not_mem_nil, or_false, Prod.mk.injEq] at hi
    rcases hi with ⟨rfl, rfl⟩ | ⟨rfl, rfl⟩
    · change execSfdiv d a b rnd s = _
      simp only [execSfdiv, whoOn_x_of_acts hact hx, f32Of, hround, scalarLate_pends hfull hstr]
    · change execSfsqrt d a rnd s = _
      simp only [execSfsqrt, whoOn_x_of_acts hact hx, f32Of, hround,
        scalarLate_pends (hfull.subset (ms := [a]) (by simp)) hstr]
  · have hland : landAt s w n = s.setStream w (((s.stream w).landed id d v).addFlags fl) := by
      have hcore : s.setCore w.core (landReg (dropPend (s.core w.core) w.eng id (.scalar d v fl)) w.eng d v) =
          s.setStream w ((s.stream w).landed id d v) := by
        rw [landReg_dropPend]
        rfl
      rw [landAt_scalar hp hb, hcore, landWith_quiet (by rw [State.stream_setStream_self]; exact hov), State.stream_setStream_self,
        State.setStream_setStream, tryEndJob_running]
      rw [State.core_setStream_self]
      exact (allEnded_setStream _ _ (((s.stream w).landed id d v).addFlags fl) rfl).trans hend
    have hexec : exec (.valueLanding w.core w.eng n) s = .next (landAt s w n) := by
      change execValueLanding w.core w.eng n s = _
      simp [execValueLanding, coreEvent, coreExists, hc, hs]
    refine ⟨_, hexec.trans (congrArg _ hland), onlyCore_setCore _ _ _, fun m => ?_, ?_⟩
    · rw [State.stream_setStream_self]
      exact landed_reg (s.stream w) id d v m
    · rw [State.core_setStream_self, State.stream_setStream_self]
      rfl

end Sys2Proof.Machine
end

section
/-! SUPPORT. Rendezvous (R139, R140): what ending a stream says of its core, what the end of a job leaves, and the obligation about
them. -/

namespace Sys2Proof.Machine

/-! ## A stream that has ended says nothing of what its core has left to do (R208) -/

section
variable {k : Core} {e : Eng} {r : RunState}

/-- The core with another run state of one of its streams. -/
def Core.runs (k : Core) (e : Eng) (r : RunState) : Core := k.setStream e { k.stream e with run := r }

theorem mayWrite_runs (b : List Passage) (p : Passage) : mayWrite (k.runs e r) b p = mayWrite k b p := by cases e <;> rfl

theorem firstWritable_runs (l b : List Passage) (i : Nat) : firstWritable (k.runs e r) i b l = firstWritable k i b l := by
  induction l generalizing i b with
  | nil => rfl
  | cons p t ih => simp only [firstWritable, mayWrite_runs, ih]

theorem qualifies_runs (b : List Cmd) (c : Cmd) : qualifies (k.runs e r) b c = qualifies k b c := by cases e <;> rfl

theorem oldestFit_runs (l b : List Cmd) : oldestFit (k.runs e r) b l = oldestFit k b l := by
  induction l generalizing b with
  | nil => rfl
  | cons c t ih => simp only [oldestFit, qualifies_runs, ih]

theorem runs_ms : (k.runs e r).ms = k.ms := by cases e <;> rfl

theorem issues_runs : (k.runs e r).issues = k.issues := by
  simp only [Core.issues, oldestFit_runs, recheck, runs_ms]

theorem stands_runs (f : Bool) : (k.runs e r).stands f = k.stands f := by
  funext c
  simp only [Core.stands, issues_runs]

theorem runs_rest : (k.runs e r).as = k.as ∧ (k.runs e r).xs = k.xs ∧ (k.runs e r).det = k.det ∧
    (k.runs e r).portHead = k.portHead ∧ (k.runs e r).a.pend = k.a.pend ∧ (k.runs e r).x.pend = k.x.pend ∧
    (k.runs e r).m.pend = k.m.pend := by
  cases e <;> exact ⟨rfl, rfl, rfl, rfl, rfl, rfl, rfl⟩

theorem settled_runs : (k.runs e r).settled = k.settled := by
  obtain ⟨has, hxs, hdet, hport, hpa, hpx, hpm⟩ := runs_rest (k := k) (e := e) (r := r)
  simp only [Core.settled, Core.arrayRests, firstWritable_runs, stands_runs, runs_ms, has, hxs, hdet, hport, hpa, hpx, hpm]

end

/-! ## What the end of a job leaves (R139) -/

theorem core_say (s : State) (m : HostMsg) (c : Nat) : (say s m).core c = s.core c := by
  obtain ⟨_, _, _, _, h⟩ := say_frame s m
  rw [h]
  rfl

theorem core_foldl_discardMail (l : List MboxMsg) (s : State) (c : Nat) : (l.foldl discardMail s).core c = s.core c := by
  induction l generalizing s with
  | nil => rfl
  | cons m t ih => rw [List.foldl_cons, ih, discardMail, core_say]

section
variable {s : State} {c : Nat}

theorem core_dropHeld (l : List Nat) (h : (s.core c).holding = []) : (dropHeld l s).core c = s.core c := by
  induction l generalizing s with
  | nil => rfl
  | cons d t ih =>
    have hstep : (if (s.core d).job.isSome || (s.core d).holding.isEmpty then s
        else (s.core d).holding.foldl discardMail (s.setCore d { s.core d with holding := [] })).core c = s.core c := by
      split
      · rfl
      · next hd =>
        rw [core_foldl_discardMail]
        by_cases hc : c = d
        · subst hc
          simp [h] at hd
        · exact State.core_setCore_ne s _ hc
    rw [dropHeld]
    exact (ih (by rw [hstep, h])).trans hstep

theorem core_forgetLaunch (r : Nat) (h : (s.core c).holding = []) : (forgetLaunch s r).core c = s.core c := by
  rw [forgetLaunch]
  exact core_dropHeld (s := { s with launches := s.launches.filter (fun l => l.record != r) }) _ h

theorem core_completeLaunch (r : Nat) (h : (s.core c).holding = []) : (completeLaunch s r).core c = s.core c := by
  simp only [completeLaunch, core_say]
  exact core_forgetLaunch (s := s.setLrec _ _) _ h

theorem core_tellOver (r : Nat) (l : List Nat) : (tellOver r l s).core c = s.core c := by
  induction l generalizing s with
  | nil => rfl
  | cons p t ih =>
    rw [tellOver, ih]
    split <;> rfl

theorem core_mapAway (r : Nat) (f : Launch → Launch) : (s.mapAway r f).core c = s.core c := by
  unfold State.mapAway
  split <;> rfl

theorem core_partEnded (r p : Nat) (h : (s.core c).holding = []) : (partEnded s r p).core c = s.core c := by
  have hm := core_mapAway (s := s) (c := c) r (fun l => { l with endedOn := p :: l.endedOn })
  simp only [partEnded]
  split
  · exact hm
  · split
    · exact hm
    · split
      · exact hm
      · rw [core_completeLaunch _ (by rw [core_tellOver, hm, h]), core_tellOver, hm]

theorem core_leaveLaunch (l : Launch) (h : (s.core c).holding = []) : (leaveLaunch s l).core c = s.core c := by
  have hf := core_forgetLaunch l.record h
  simp only [leaveLaunch]
  split
  · exact hf
  · split
    · exact hf
    · split
      · rw [core_tellOver, hf]
      · exact hf

theorem core_waveEnded (l : Launch) (h : (s.core c).holding = []) : (waveEnded s l).core c = s.core c := by
  have hnext : (if decide (l.wave + 1 < (s.lrec l.record).waves) then s.mapLaunch l.record Launch.nextWave else s).core c = s.core c := by
    split <;> rfl
  simp only [waveEnded]
  split
  · exact core_leaveLaunch l h
  · split
    · split
      · rfl
      · exact core_completeLaunch _ h
    · split
      · exact core_partEnded _ _ h
      · exact hnext

/-- What the launch of an ended job hears of it says nothing of a core on which nothing is held. -/
theorem core_jobDone (r d : Nat) (h : (s.core c).holding = []) : (jobDone s r d).core c = s.core c := by
  simp only [jobDone]
  split
  · rfl
  · split
    · exact core_waveEnded (s := s.mapLaunch _ _) _ h
    · rfl

end

/-- A core whose job has ended. -/
structure Core.Cleared (k : Core) : Prop where
  job : k.job = none
  mbox : k.mbox = []
  tokens : k.tokens = []
  q : k.q = []
  w : k.w = []
  holding : k.holding = []

theorem clearJob_cleared (k : Core) : k.clearJob.Cleared := ⟨rfl, rfl, rfl, rfl, rfl, rfl⟩

theorem tryEndJob_cleared {s : State} {c : Nat} (ha : (s.core c).allEnded = true) (hs : (s.core c).settled = true) :
    ((tryEndJob s c).core c).Cleared := by
  unfold tryEndJob
  cases hj : (s.core c).job with
  | none => simp [Core.allEnded, hj] at ha
  | some j =>
    simp only [hj, ha, hs, Bool.and_self, if_true]
    rw [core_jobDone]
    · rw [State.core_setCore_self]
      exact clearJob_cleared _
    · rw [State.core_setCore_self]
      rfl

theorem Core.Cleared.setStream {k : Core} (h : k.Cleared) (e : Eng) (u : Stream) : (k.setStream e u).Cleared := by
  obtain ⟨h1, h2, h3, h4, h5, h6⟩ := h
  cases e <;> exact ⟨h1, h2, h3, h4, h5, h6⟩

/-! ## RDV (R139) -/

section
variable {s : State} {w : Who} {j : Job}

theorem rdv_finish (h : Acts s w) : exec .rdv s = finish w 4 s (if endsAtCommit s w then toCommit s w
    else if !mayEnd s w then .wait else .ok (tryEndJob (standAs w .ended s) w.core) (.stay .ended)) := by
  change execRdv s = _
  rw [execRdv, who_of_acts h]

theorem rdv_waits (h : Acts s w) (hm : mayEnd s w = false) (hc : endsAtCommit s w = false) :
    exec .rdv s = .next (s.setStream w { s.stream w with run := .waiting }) := by
  rw [rdv_finish h, hc, hm]
  rfl

theorem rdv_commits (h : Acts s w) (hc : endsAtCommit s w = true) : exec .rdv s = .next (s.standsAt w .committing) := by
  rw [rdv_finish h, if_pos hc, toCommit, finish, standAs, State.stream_setStream_self, State.setStream_setStream]
  rfl

theorem not_endsAtCommit (h : w.eng = .a → (s.core w.core).det.writes = []) : endsAtCommit s w = false := by
  unfold endsAtCommit
  cases he : w.eng with
  | a => simp [h he]
  | x => rfl
  | m => rfl

theorem rdv_ends (h : Acts s w) (hm : mayEnd s w = true) (hc : endsAtCommit s w = false) :
    exec .rdv s = .next (standAs w .ended (tryEndJob (standAs w .ended s) w.core)) := by
  rw [rdv_finish h, hc, hm]
  rfl

theorem standAs_core (r : RunState) : (standAs w r s).core w.core = (s.core w.core).runs w.eng r :=
  State.core_setStream_self _ _ _

theorem runs_job {k : Core} {e : Eng} {r : RunState} : (k.runs e r).job = k.job := by cases e <;> rfl

/-- A core all of whose other streams have ended. -/
theorem allEnded_runs_ended (hj : (s.core w.core).job = some j) : ((standAs w .ended s).core w.core).allEnded = true ↔
    ∀ e ∈ j.streams, e ≠ w.eng → (s.stream ⟨w.core, e⟩).run = .ended := by
  simp only [standAs_core, Core.allEnded, runs_job, hj, List.all_eq_true, beq_iff_eq]
  refine forall₂_congr fun e he => ?_
  by_cases hw : e = w.eng
  · subst hw
    simp [Core.runs]
  · rw [Core.runs, Core.stream_setStream_ne _ _ hw]
    exact ⟨fun h _ => h, fun h => h hw⟩

theorem rdv_ends_alone (h : Acts s w) (hm : mayEnd s w = true) (hc : endsAtCommit s w = false) (hj : (s.core w.core).job = some j)
    (hother : ∃ e ∈ j.streams, e ≠ w.eng ∧ (s.stream ⟨w.core, e⟩).run ≠ .ended) :
    exec .rdv s = .next (s.setStream w { s.stream w with run := .ended }) := by
  have hrun : ((standAs w .ended s).core w.core).allEnded = false := by
    rw [← Bool.not_eq_true, allEnded_runs_ended hj]
    obtain ⟨e, he, hne, hr⟩ := hother
    exact fun hall => hr (hall e he hne)
  rw [rdv_ends h hm hc, tryEndJob_running hrun]
  simp only [standAs, State.stream_setStream_self, State.setStream_setStream]

theorem rdv_ends_job (h : Acts s w) (hm : mayEnd s w = true) (hj : (s.core w.core).job = some j)
    (hall : ∀ e ∈ j.streams, e ≠ w.eng → (s.stream ⟨w.core, e⟩).run = .ended) (hs : (s.core w.core).settled = true) :
    ∃ t, exec .rdv s = .next t ∧ (t.core w.core).Cleared ∧ (t.stream w).run = .ended := by
  have hdet : (s.core w.core).det.writes = [] := by
    simp only [Core.settled, Bool.and_eq_true, List.isEmpty_iff] at hs
    tauto
  have hc := not_endsAtCommit (s := s) (w := w) (fun _ => hdet)
  refine ⟨_, rdv_ends h hm hc, ?_, by simp [standAs]⟩
  rw [standAs_core]
  exact (tryEndJob_cleared ((allEnded_runs_ended hj).mpr hall) (by rw [standAs_core, settled_runs, hs])).setStream _ _

end

/-! ## RDV with a mask (R140) -/

theorem OnlyCore.trans {c : Nat} {s t u : State} (h1 : OnlyCore c s t) (h2 : OnlyCore c t u) : OnlyCore c s u := by
  refine ⟨fun d hd => (h2.cores d hd).trans (h1.cores d hd), ?_, fun a => (h2.memory a).trans (h1.memory a)⟩
  have h : { u with cores := s.cores } = { ({ u with cores := t.cores } : State) with cores := s.cores } := rfl
  rw [h, h2.rest, h1.rest]

theorem maskEngines_nodup (g : Nat) : (maskEngines g).Nodup := List.Nodup.filter _ (by decide)

section
variable {s : State} {w : Who} {g c : Nat}

/-- The stream of a rendezvous that is complete. -/
def State.joined (s : State) (w : Who) : Stream :=
  { s.stream w with pc := s.pcOf w + 4, run := s.runNext w, at_ := .free }

/-- The streams named by a list complete one after another. -/
theorem retireEngines_joins (l : List Eng) (hl : l.Nodup) (s : State) (hst : ∀ e ∈ l, Straight s ⟨c, e⟩ 4) :
    OnlyCore c s (retireEngines c l s) ∧ (∀ e ∈ l, (retireEngines c l s).stream ⟨c, e⟩ = s.joined ⟨c, e⟩) ∧
      ∀ e, e ∉ l → (retireEngines c l s).stream ⟨c, e⟩ = s.stream ⟨c, e⟩ := by
  induction l generalizing s with
  | nil => exact ⟨⟨fun _ _ => rfl, rfl, fun _ => rfl⟩, by simp, fun _ _ => rfl⟩
  | cons e t ih =>
    obtain ⟨het, ht⟩ := List.nodup_cons.mp hl
    have hret : retireShort s ⟨c, e⟩ = s.setStream ⟨c, e⟩ (s.joined ⟨c, e⟩) := retire_stays (hst e (by simp)) rfl rfl
    set u := s.setStream ⟨c, e⟩ (s.joined ⟨c, e⟩) with hu
    have hsame : ∀ f, f ≠ e → u.stream ⟨c, f⟩ = s.stream ⟨c, f⟩ := fun f hf =>
      State.stream_setStream_ne s _ (by simpa using hf)
    have hheld : (u.core c).held = (s.core c).held := held_setStream s ⟨c, e⟩ _ c
    have hst' : ∀ f ∈ t, Straight u ⟨c, f⟩ 4 := fun f hf => by
      have hfe : f ≠ e := fun h => het (h ▸ hf)
      simpa only [Straight, State.pcOf, hsame f hfe] using hst f (List.mem_cons_of_mem _ hf)
    obtain ⟨honly, hin, hout⟩ := ih ht u hst'
    rw [retireEngines, hret]
    refine ⟨OnlyCore.trans (onlyCore_setCore _ _ _) honly, fun f hf => ?_, fun f hf => ?_⟩
    · rcases List.mem_cons.mp hf with rfl | hf
      · rw [hout f het, hu, State.stream_setStream_self]
      · have hfe : f ≠ e := fun h => het (h ▸ hf)
        rw [hin f hf]
        simp only [State.joined, State.pcOf, State.runNext, hsame f hfe, runAfter, hheld]
    · simp only [List.mem_cons, not_or] at hf
      obtain ⟨hfe, hft⟩ := hf
      rw [hout f hft, hsame f hfe]

theorem rdvMask_traps (h : Acts s w) (hb : badMask s w g = true) :
    Traps (.rdvMask g) s w 0x02 (opTval (.rdvMask g) false 0) := by
  change execRdvMask g s = _
  simp only [execRdvMask, who_of_acts h, hb, if_true, finish]

/-- The stream stands at its join. -/
def State.atJoin (s : State) (w : Who) (g : Nat) : State := s.setStream w { s.stream w with at_ := .join g, run := .waiting }

theorem rdvMask_joins (h : Acts s w) (hb : badMask s w g = false) (hd : w.eng = .a → (s.core w.core).doneA = true) :
    exec (.rdvMask g) s = .next (joinAll (s.atJoin w g) w.core g) := by
  change execRdvMask g s = _
  have hna : (decide (w.eng = .a) && !(s.core w.core).doneA) = false := by
    by_cases he : w.eng = .a
    · simp [hd he]
    · simp [he]
  simp only [execRdvMask, who_of_acts h, hb, hna, Bool.false_eq_true, if_false]
  rfl

theorem stream_atJoin_ne {e : Eng} (he : e ≠ w.eng) : (s.atJoin w g).stream ⟨w.core, e⟩ = s.stream ⟨w.core, e⟩ :=
  State.stream_setStream_ne s _ (fun h => he (congrArg Who.eng h))

theorem rdvMask_waits (h : Acts s w) (hb : badMask s w g = false) (hd : w.eng = .a → (s.core w.core).doneA = true)
    (hmiss : ∃ e ∈ maskEngines g, e ≠ w.eng ∧ (s.stream ⟨w.core, e⟩).at_ ≠ .join g) :
    exec (.rdvMask g) s = .next (s.setStream w { s.stream w with run := .waiting, at_ := .join g }) := by
  have hall : ((maskEngines g).all fun e => ((s.atJoin w g).stream ⟨w.core, e⟩).at_ == .join g) = false := by
    obtain ⟨e, he, hne, hat⟩ := hmiss
    exact List.all_eq_false.mpr ⟨e, he, by rw [stream_atJoin_ne hne]; simpa using hat⟩
  rw [rdvMask_joins h hb hd, joinAll, hall]
  rfl

theorem rdvMask_completes (h : Acts s w) (hb : badMask s w g = false) (hd : w.eng = .a → (s.core w.core).doneA = true)
    (hall : ∀ e ∈ maskEngines g, Straight s ⟨w.core, e⟩ 4 ∧ (e ≠ w.eng → (s.stream ⟨w.core, e⟩).at_ = .join g)) :
    ∃ t, exec (.rdvMask g) s = .next t ∧ OnlyCore w.core s t ∧
      (∀ e ∈ maskEngines g, t.stream ⟨w.core, e⟩ = { s.stream ⟨w.core, e⟩ with
        pc := s.pcOf ⟨w.core, e⟩ + 4, at_ := .free,
        run := if e = w.eng then (if (s.core w.core).held then .waiting else .running) else s.runNext ⟨w.core, e⟩ }) ∧
      (∀ e, e ∉ maskEngines g → t.stream ⟨w.core, e⟩ = s.stream ⟨w.core, e⟩) := by
  set u := s.atJoin w g with hu
  have hself : u.stream ⟨w.core, w.eng⟩ = { s.stream w with at_ := .join g, run := .waiting } := State.stream_setStream_self s w _
  have hheld : (u.core w.core).held = (s.core w.core).held := held_setStream s w _ _
  have hin : w.eng ∈ maskEngines g := by
    simp only [badMask, Bool.or_eq_false_iff, Bool.not_eq_false', List.contains_iff_mem] at hb
    exact hb.1
  have hst : ∀ e ∈ maskEngines g, Straight u ⟨w.core, e⟩ 4 := fun e he => by
    by_cases hw : e = w.eng
    · subst hw
      simp only [Straight, State.pcOf, hself]
      exact (staysIn_congr rfl rfl).mpr (hall w.eng he).1
    · simp only [Straight, State.pcOf, hu, stream_atJoin_ne hw]
      exact (hall e he).1
  have hat : ((maskEngines g).all fun e => (u.stream ⟨w.core, e⟩).at_ == .join g) = true := by
    refine List.all_eq_true.mpr fun e he => ?_
    by_cases hw : e = w.eng
    · subst hw
      simp [hself]
    · simp [hu, stream_atJoin_ne hw, (hall e he).2 hw]
  obtain ⟨honly, hjoin, hout⟩ := retireEngines_joins (maskEngines g) (maskEngines_nodup g) u hst
  refine ⟨_, rdvMask_joins h hb hd, ?_⟩
  rw [joinAll, if_pos hat]
  refine ⟨OnlyCore.trans (onlyCore_setCore _ _ _) honly, fun e he => ?_, fun e he => ?_⟩
  · rw [hjoin e he]
    by_cases hw : e = w.eng
    · subst hw
      simp [State.joined, State.pcOf, State.runNext, hself, runAfter, hheld, Meet.isIdle]
    · simp only [if_neg hw, State.joined, State.pcOf, State.runNext, runAfter, hheld]
      rw [hu, stream_atJoin_ne hw]
  · have hw : e ≠ w.eng := by
      rintro rfl
      exact he hin
    rw [hout e he, hu, stream_atJoin_ne hw]

end

/-- Settles O12: an RDV ends its stream or waits for what it has left, and one with a mask stands at its join until it is the last. -/
theorem rendezvousJoins : Obligations.RendezvousJoins := by
  intro s w g hact
  refine ⟨rdv_waits hact, rdv_commits hact, fun j hm hdet hj => rdv_ends_alone hact hm (not_endsAtCommit hdet) hj,
    fun j hm hj hall hs => ?_, rdvMask_traps hact, rdvMask_waits hact, rdvMask_completes hact⟩
  obtain ⟨t, ht, hk, hr⟩ := rdv_ends_job hact hm hj hall hs
  exact ⟨t, ht, hk.job, hk.mbox, hk.tokens, hk.q, hk.w, hk.holding, hr⟩

end Sys2Proof.Machine
end

section
/-! SUPPORT. Mailbox reads and writes (R133 to R137, R465), and the obligation about them. -/

namespace Sys2Proof.Machine

section
variable {s : State} {w : Who} {d m : Nat}

/-- The outcome of an instruction of 4 bytes that changes its core to `k`, beside other parts of the package in `u`. -/
theorem finish_coreGoes {u : State} {k : Core} (hst : Straight s w 4) (hu : u.pcOf w = s.pcOf w)
    (hl : (k.stream w.eng).loops = (s.stream w).loops) (hp : (k.stream w.eng).pc = (s.stream w).pc) :
    finish w 4 s (.ok (u.setCore w.core k) .seq) = .next (u.coreGoes w k) := by
  have hk : (u.setCore w.core k).stream w = k.stream w.eng := by simp [State.stream]
  rw [State.coreGoes, hu]
  exact congrArg _ (retire_stays hst (by rw [hk, hl]) (by rw [hk, hp]))

@[simp] theorem core_coreGoes (s : State) (w : Who) (k : Core) : (s.coreGoes w k).core w.core =
    k.setStream w.eng { k.stream w.eng with
      pc := s.pcOf w + 4, run := runAfter k (k.stream w.eng), at_ := .free } := by
  simp [State.coreGoes, State.goTo, State.stream, State.runNext]

@[simp] theorem stream_coreGoes (s : State) (w : Who) (k : Core) : (s.coreGoes w k).stream w =
    { k.stream w.eng with pc := s.pcOf w + 4, run := runAfter k (k.stream w.eng), at_ := .free } := by
  rw [← State.stream_core, core_coreGoes, Core.stream_setStream_self]

theorem onlyCore_coreGoes (s : State) (w : Who) (k : Core) : OnlyCore w.core s (s.coreGoes w k) := by
  rw [State.coreGoes, State.goTo, State.setStream, State.setCore_setCore]
  exact onlyCore_setCore _ _ _

/-! ## MBR (R133) -/

theorem mbr_finish (h : Acts s w) : exec (.mbr d m) s = finish w 4 s (
    if behindHeld s w then .wait
    else if earlierReader (s.core w.core) w.eng [m] then .desched [m]
    else match tfind (s.core w.core).mbox m with
      | none => .desched [m]
      | some v =>
        if awaitsOlder s w v then .desched [m]
        else
          let k1 : Core := { (if w.eng = .a then (s.core w.core).learn v else s.core w.core) with mbox := tdel (s.core w.core).mbox m }
          if d = 0 then .ok (s.setCore w.core k1) .seq
          else
            let k2 := k1.addPend w.eng (.scalar d v.value 0)
            .ok (s.setCore w.core (k2.setStream w.eng ((k2.stream w.eng).markEmpty d))) .seq) := by
  change execMbr d m s = _
  rw [execMbr, who_of_acts h] <;> rfl

theorem mbr_waits (h : Acts s w) (hb : behindHeld s w = true) : Waits (.mbr d m) s w := by
  rw [Waits, mbr_finish h, if_pos hb]
  rfl

theorem mbr_descheduled (h : Acts s w) (hb : behindHeld s w = false)
    (hno : tfind (s.core w.core).mbox m = none ∨ earlierReader (s.core w.core) w.eng [m] = true ∨
      ∃ v, tfind (s.core w.core).mbox m = some v ∧ w.eng = .a ∧ v.byA = true ∧ (s.core w.core).doneA = false) :
    exec (.mbr d m) s = .next (s.setStream w { s.stream w with run := .descheduled, wants := [m] }) := by
  rw [mbr_finish h, hb]
  rcases hno with hno | hno | ⟨v, hv, ha, hA, hd⟩
  · cases he : earlierReader (s.core w.core) w.eng [m] <;> simp [hno, finish]
  · simp [hno, finish]
  · have hw : awaitsOlder s w v = true := by simp [awaitsOlder, ha, hA, hd]
    cases he : earlierReader (s.core w.core) w.eng [m] <;> simp [hv, hw, finish]

/-- The core of a stream that has taken the value of a mailbox: the writer's pair may be learnt. -/
def Core.readMail (k : Core) (e : Eng) (m : Nat) (v : MVal) : Core :=
  { k with pairs := if e = .a then (k.learn v).pairs else k.pairs, mbox := tdel k.mbox m }

theorem readMail_eq (k : Core) (e : Eng) (m : Nat) (v : MVal) :
    ({ (if e = .a then k.learn v else k) with mbox := tdel k.mbox m } : Core) = k.readMail e m v := by
  simp only [Core.readMail, Core.learn]
  cases v.byA <;> cases e <;> rfl

theorem readMail_stream (k : Core) (e f : Eng) (m : Nat) (v : MVal) : (k.readMail e m v).stream f = k.stream f := by
  cases f <;> rfl

theorem full_markEmpty (t : Stream) {d : Nat} (hd : d ≠ 0) : (t.markEmpty d).full d = false := by
  have hin : (t.markEmpty d).empty.contains d = true := by
    unfold Stream.markEmpty
    by_cases h : t.empty.contains d = true
    · rw [if_pos (by rw [h, Bool.or_true]), h]
    · rw [if_neg (by simp [hd]; simpa using h)]
      simp
  simp only [Stream.full, hin, Bool.not_true, beq_eq_false_iff_ne.mpr hd, Bool.or_self]

/-- The core of a stream that awaits the value which it has taken. -/
def Core.awaitsMail (k : Core) (e : Eng) (d m : Nat) (v : MVal) : Core :=
  Core.setStream { k.readMail e m v with nextId := k.nextId + 1 } e
    (({ k.stream e with pend := (k.stream e).pend ++ [⟨k.nextId, .scalar d v.value 0⟩] } : Stream).markEmpty d)

theorem mbr_takes {v : MVal} (h : Acts s w) (hv : tfind (s.core w.core).mbox m = some v) (hb : behindHeld s w = false)
    (he : earlierReader (s.core w.core) w.eng [m] = false) (ha : ¬ (w.eng = .a ∧ v.byA = true ∧ (s.core w.core).doneA = false))
    (hst : Straight s w 4) :
    exec (.mbr d m) s = .next (s.coreGoes w (if d = 0 then (s.core w.core).readMail w.eng m v
      else (s.core w.core).awaitsMail w.eng d m v)) := by
  have hw : awaitsOlder s w v = false := by
    rw [← Bool.not_eq_true]
    simpa [awaitsOlder, and_assoc] using ha
  simp only [mbr_finish h, hb, he, hv, hw, readMail_eq, Bool.false_eq_true, if_false]
  by_cases hd : d = 0
  · simp only [if_pos hd]
    exact finish_coreGoes hst rfl (by rw [readMail_stream]; rfl) (by rw [readMail_stream]; rfl)
  · simp only [if_neg hd, addPend_eq, Core.setStream_setStream, Core.stream_setStream_self, readMail_stream]
    exact finish_coreGoes hst rfl (by simp; rfl) (by simp; rfl)

theorem mbr_reads {v : MVal} (h : Acts s w) (hv : tfind (s.core w.core).mbox m = some v) (hb : behindHeld s w = false)
    (he : earlierReader (s.core w.core) w.eng [m] = false) (ha : ¬ (w.eng = .a ∧ v.byA = true ∧ (s.core w.core).doneA = false))
    (hst : Straight s w 4) :
    ∃ t, exec (.mbr d m) s = .next t ∧ tfind (t.core w.core).mbox m = none ∧
      (∀ n, n ≠ m → tfind (t.core w.core).mbox n = tfind (s.core w.core).mbox n) ∧ OnlyCore w.core s t ∧
      (t.stream w).pc = s.pcOf w + 4 ∧ (t.stream w).regs = (s.stream w).regs ∧
      (t.core w.core).tile = (s.core w.core).tile ∧ (t.core w.core).tokens = (s.core w.core).tokens ∧
      (d ≠ 0 → (t.stream w).full d = false ∧
        (t.stream w).pend = (s.stream w).pend ++ [⟨(s.core w.core).nextId, .scalar d v.value 0⟩]) ∧
      (d = 0 → (t.stream w).pend = (s.stream w).pend) := by
  refine ⟨_, mbr_takes h hv hb he ha hst, ?_⟩
  by_cases hd : d = 0
  · simp only [if_pos hd, core_coreGoes, stream_coreGoes, Core.setStream_mbox, Core.setStream_tile, Core.setStream_tokens,
      readMail_stream]
    exact ⟨tfind_tdel_self _ _, fun n hn => tfind_tdel_ne _ hn, onlyCore_coreGoes _ _ _, trivial, rfl, rfl, rfl,
      fun hn => absurd hd hn, fun _ => rfl⟩
  · simp only [if_neg hd, core_coreGoes, stream_coreGoes, Core.setStream_mbox, Core.setStream_tile, Core.setStream_tokens,
      Core.awaitsMail, Core.stream_setStream_self, Stream.markEmpty_regs, Stream.markEmpty_pend]
    exact ⟨tfind_tdel_self _ _, fun n hn => tfind_tdel_ne _ hn, onlyCore_coreGoes _ _ _, trivial, rfl, rfl, rfl,
      fun hn => ⟨full_markEmpty _ hn, rfl⟩, fun hn => absurd hn hd⟩

end

/-! ## MBW (R134, R137, R465) -/

section
variable {s : State} {w : Who} {m a b c : Nat}

theorem mbw_finish (h : Acts s w) (hf : Full s w [a, b]) : exec (.mbw m a b) s = finish w 4 s (
    if (regOf s w b).toNat / 2 ^ 24 ≠ 0 then .raise 0x02 (opTval (.mbw m a b) false 7)
    else if (regOf s w b).toNat / 2 ^ 12 ≠ 0 && !s.accepted.getLsbD 8 then
      .raise 0x01 (tvalFeature 8 false 25 ((encode (.mbw m a b)).getD 0 0))
    else match placeCore w.core (regOf s w b).toNat with
      | none => .raise 0x02 (opTval (.mbw m a b) false 7)
      | some c =>
        if placePkg s (regOf s w b).toNat != s.pkgId && !(s.peer (placePkg s (regOf s w b).toNat)).up then
          .raise 0x48 (BitVec.ofNat 64 (regOf s w b).toNat)
        else sendMail s w m (regOf s w a) (placePkg s (regOf s w b).toNat) c (regOf s w b).toNat) := by
  change execMbw m a b s = _
  simp only [execMbw, who_of_acts h, needRegs_of_full _ hf] <;> rfl

theorem mbw_traps_bits (h : Acts s w) (hf : Full s w [a, b]) (hp : 2 ^ 24 ≤ (regOf s w b).toNat) :
    Traps (.mbw m a b) s w 0x02 (opTval (.mbw m a b) false 7) := by
  have hne : (regOf s w b).toNat / 2 ^ 24 ≠ 0 := by omega
  rw [Traps, mbw_finish h hf, if_pos hne]
  rfl

theorem mbw_traps_feature (h : Acts s w) (hf : Full s w [a, b]) (hlo : 2 ^ 12 ≤ (regOf s w b).toNat)
    (hp : (regOf s w b).toNat < 2 ^ 24) (hacc : s.accepted.getLsbD 8 = false) :
    Traps (.mbw m a b) s w 0x01 (tvalFeature 8 false 25 ((encode (.mbw m a b)).getD 0 0)) := by
  have h24 : ¬ (regOf s w b).toNat / 2 ^ 24 ≠ 0 := by omega
  have h12 : (decide ((regOf s w b).toNat / 2 ^ 12 ≠ 0) && !s.accepted.getLsbD 8) = true := by
    simp only [hacc, Bool.not_false, Bool.and_true, decide_eq_true_eq]
    omega
  rw [Traps, mbw_finish h hf, if_neg h24, if_pos h12]
  rfl

/-- The place is one of the grid, or of a package that features let the core reach. -/
structure Sendable (s : State) (w : Who) (b : Nat) : Prop where
  bits : (regOf s w b).toNat < 2 ^ 24
  feature : 2 ^ 12 ≤ (regOf s w b).toNat → s.accepted.getLsbD 8 = true

theorem mbw_place (h : Acts s w) (hf : Full s w [a, b]) (hp : Sendable s w b) : exec (.mbw m a b) s = finish w 4 s
    (match placeCore w.core (regOf s w b).toNat with
      | none => .raise 0x02 (opTval (.mbw m a b) false 7)
      | some c =>
        if placePkg s (regOf s w b).toNat != s.pkgId && !(s.peer (placePkg s (regOf s w b).toNat)).up then
          .raise 0x48 (BitVec.ofNat 64 (regOf s w b).toNat)
        else sendMail s w m (regOf s w a) (placePkg s (regOf s w b).toNat) c (regOf s w b).toNat) := by
  have h24 : ¬ (regOf s w b).toNat / 2 ^ 24 ≠ 0 := by
    have := hp.bits
    omega
  have h12 : (decide ((regOf s w b).toNat / 2 ^ 12 ≠ 0) && !s.accepted.getLsbD 8) = false := by
    by_cases hlo : 2 ^ 12 ≤ (regOf s w b).toNat
    · simp [hp.feature hlo]
    · have hz : (regOf s w b).toNat / 2 ^ 12 = 0 := by omega
      simp only [hz, ne_eq, not_true_eq_false, decide_false, Bool.false_and]
  rw [mbw_finish h hf, if_neg h24, h12, if_neg Bool.false_ne_true]

theorem mbw_traps_grid (h : Acts s w) (hf : Full s w [a, b]) (hp : Sendable s w b)
    (hc : placeCore w.core (regOf s w b).toNat = none) : Traps (.mbw m a b) s w 0x02 (opTval (.mbw m a b) false 7) := by
  rw [Traps, mbw_place h hf hp, hc]
  rfl

theorem mbw_traps_down (h : Acts s w) (hf : Full s w [a, b]) (hp : Sendable s w b)
    (hc : placeCore w.core (regOf s w b).toNat = some c) (hne : placePkg s (regOf s w b).toNat ≠ s.pkgId)
    (hd : (s.peer (placePkg s (regOf s w b).toNat)).up = false) :
    Traps (.mbw m a b) s w 0x48 (BitVec.ofNat 64 (regOf s w b).toNat) := by
  have hb : (placePkg s (regOf s w b).toNat != s.pkgId && !(s.peer (placePkg s (regOf s w b).toNat)).up) = true := by simp [hne, hd]
  rw [Traps, mbw_place h hf hp, hc]
  simp only [hb, if_true, finish]

theorem mbw_sends (h : Acts s w) (hf : Full s w [a, b]) (hp : Sendable s w b)
    (hc : placeCore w.core (regOf s w b).toNat = some c)
    (hup : placePkg s (regOf s w b).toNat = s.pkgId ∨ (s.peer (placePkg s (regOf s w b).toNat)).up = true) :
    exec (.mbw m a b) s = finish w 4 s
      (sendMail s w m (regOf s w a) (placePkg s (regOf s w b).toNat) c (regOf s w b).toNat) := by
  have hb : (placePkg s (regOf s w b).toNat != s.pkgId && !(s.peer (placePkg s (regOf s w b).toNat)).up) = false := by
    rcases hup with hup | hup <;> simp [hup]
  rw [mbw_place h hf hp, hc]
  simp only [hb, Bool.false_eq_true, if_false]

variable {v : Word} {pkg pl : Nat}

theorem sendMail_waits (ha : w.eng = .a) (hs : (s.core w.core).settledA = false) : sendMail s w m v pkg c pl = .wait := by
  simp [sendMail, ha, hs]

theorem sendMail_own (hs : w.eng = .a → (s.core w.core).settledA = true) :
    sendMail s w m v s.pkgId w.core pl = sendOwn s w m v pl := by
  have hb : (w.eng == .a && !(s.core w.core).settledA) = false := by
    by_cases he : w.eng = .a <;> simp [he, hs]
  simp [sendMail, hb]

theorem sendMail_out (hs : w.eng = .a → (s.core w.core).settledA = true) (ho : ¬ (pkg = s.pkgId ∧ c = w.core)) :
    sendMail s w m v pkg c pl = sendOut s w m v pkg c pl := by
  have hb : (w.eng == .a && !(s.core w.core).settledA) = false := by
    by_cases he : w.eng = .a <;> simp [he, hs]
  have ho' : (pkg == s.pkgId && c == w.core) = false := by
    rw [← Bool.not_eq_true]
    simpa using ho
  simp only [sendMail, hb, ho', Bool.false_eq_true, if_false]

/-- A mailbox of the own core takes no write now. -/
def ownKept (s : State) (w : Who) (m : Nat) : Prop :=
  (tfind (s.core w.core).mbox m).isSome = true ∨ (∃ g ∈ (s.core w.core).holding, g.mbox = m) ∨ m ∈ heldOwn s w.core ∨
    (w.eng = .a ∧ heldOwn s w.core ≠ [])

theorem ownKept_iff : ownKept s w m ↔ ((tfind (s.core w.core).mbox m).isSome || heldFirst (s.core w.core) m ||
    (heldOwn s w.core).contains m || behindHeld s w) = true := by
  simp [ownKept, heldFirst, behindHeld, or_assoc]

theorem sendOwn_waits (h : ownKept s w m) : sendOwn s w m v pl = .wait := if_pos (ownKept_iff.mp h)

theorem sendOwn_now (h : ¬ ownKept s w m) (he : w.eng ≠ .a) : sendOwn s w m v pl = .ok (s.setCore w.core { s.core w.core with
    mbox := tset (s.core w.core).mbox m (mailVal (mailOf s w m v s.pkgId w.core 0)) }) .seq := by
  have he' : (w.eng != .a) = true := by simp [he]
  simp only [sendOwn, if_neg (mt ownKept_iff.mpr h), he', if_true]

theorem behind_epoch (k : Core) (n : Nat) : Core.behind { k with as := { k.as with epoch := n } } = k.behind := rfl

theorem sendOwn_release (h : ¬ ownKept s w m) (he : w.eng = .a) (hb : (s.core w.core).behind = []) :
    sendOwn s w m v pl = .ok (s.setCore w.core { s.core w.core with
      as := { (s.core w.core).as with epoch := (s.core w.core).nextEpoch },
      mbox := tset (s.core w.core).mbox m (mailVal (mailOf s w m v s.pkgId w.core ((s.core w.core).nextEpoch + 1))) }) .seq := by
  have he' : (w.eng != .a) = false := by simp [he]
  simp only [sendOwn, if_neg (mt ownKept_iff.mpr h), he', hb, Bool.false_eq_true, if_false, List.isEmpty_nil, if_true]
  rfl

theorem addRelAct_behind {u : State} {n epoch target dst : Nat} {p : Option Nat} : addRelAct u n epoch target dst p =
    { u with relActs := u.relActs ++ (if (u.core n).behind = [] then [] else [⟨n, epoch, (u.core n).behind, target, dst, p⟩]) } := by
  unfold addRelAct
  cases hb : (u.core n).behind with
  | nil => simp
  | cons x t => simp

theorem sendOwn_held (h : ¬ ownKept s w m) (he : w.eng = .a) (hb : (s.core w.core).behind ≠ []) :
    sendOwn s w m v pl = .ok (({ s with
      relActs := s.relActs ++ [⟨w.core, (s.core w.core).nextEpoch, (s.core w.core).behind, pl, s.pkgId, none⟩],
      releases := s.releases ++ [.mail (mailOf s w m v s.pkgId w.core ((s.core w.core).nextEpoch + 1))] } : State).setCore w.core
        { s.core w.core with as := { (s.core w.core).as with epoch := (s.core w.core).nextEpoch } }) .seq := by
  have he' : (w.eng != .a) = false := by simp [he]
  have hb' : (s.core w.core).behind.isEmpty = false := by simp [hb]
  simp only [sendOwn, if_neg (mt ownKept_iff.mpr h), he', hb', addRelAct_behind, Bool.false_eq_true, if_false, State.core_setCore_self,
    Core.bumpEpoch, behind_epoch, if_neg hb]
  rfl

theorem sendOut_waits (h : 16 ≤ (s.core w.core).outbound.length) : sendOut s w m v pkg c pl = .wait := if_pos h

theorem sendOut_now (h : (s.core w.core).outbound.length < 16) (he : w.eng ≠ .a) : sendOut s w m v pkg c pl =
    .ok (s.setCore w.core { s.core w.core with outbound := (s.core w.core).outbound ++ [mailOf s w m v pkg c 0] }) .seq := by
  have he' : (w.eng == .a) = false := by simp [he]
  simp only [sendOut, if_neg (Nat.not_le.mpr h), he', Bool.false_eq_true, if_false]

theorem sendOut_release (h : (s.core w.core).outbound.length < 16) (he : w.eng = .a) : sendOut s w m v pkg c pl =
    .ok (({ s with relActs := s.relActs ++ (if (s.core w.core).behind = [] then []
        else [⟨w.core, (s.core w.core).nextEpoch, (s.core w.core).behind, pl, pkg, none⟩]) } : State).setCore w.core
      { s.core w.core with
        as := { (s.core w.core).as with epoch := (s.core w.core).nextEpoch },
        outbound := (s.core w.core).outbound ++ [mailOf s w m v pkg c ((s.core w.core).nextEpoch + 1)] }) .seq := by
  have he' : (w.eng == .a) = true := by simp [he]
  have hcore : ∀ r, (({ s.setCore w.core (s.core w.core).bumpEpoch with relActs := r } : State).core w.core) =
      (s.core w.core).bumpEpoch := fun _ => State.core_setCore_self _ _ _
  simp only [sendOut, if_neg (Nat.not_le.mpr h), he', if_true, addRelAct_behind, hcore]
  simp only [State.setCore, tset_tset]
  rfl

end

/-- Settles O11: an MBR takes its value or is descheduled, and an MBW goes to the own core or to the outbound port. -/
theorem mailboxesMove : Obligations.MailboxesMove := by
  refine ⟨fun s w d m hact => ⟨mbr_waits hact, mbr_descheduled hact, fun v => mbr_reads hact⟩, ?_⟩
  intro s w m a b hact hf i k A P pkg
  refine ⟨mbw_traps_bits hact hf, mbw_traps_feature hact hf, fun hbits hfeat => ?_⟩
  have hp : Sendable s w b := ⟨hbits, hfeat⟩
  refine ⟨mbw_traps_grid hact hf hp, fun c hc => ⟨mbw_traps_down hact hf hp hc, fun hup he hs => ?_, fun hpkg hown hs => ?_,
    fun hup hout hs => ⟨fun hfull => ?_, fun hroom hst => ?_⟩⟩⟩
  · rw [Waits, mbw_sends hact hf hp hc hup, sendMail_waits he hs]
    rfl
  · subst hown
    have hexec : exec i s = finish w 4 s (sendOwn s w m A P) := by
      rw [mbw_sends hact hf hp hc (Or.inl hpkg), show placePkg s (regOf s w b).toNat = s.pkgId from hpkg, sendMail_own hs]
    refine ⟨fun hk => ?_, fun hk hst => ⟨fun he => ⟨mailVal (mailOf s w m A s.pkgId w.core 0), rfl, ?_, ?_⟩,
      fun he hb => ⟨mailVal (mailOf s w m A s.pkgId w.core (k.nextEpoch + 1)), rfl, ?_, ?_⟩, fun he hb => ?_⟩⟩
    · rw [Waits, hexec, sendOwn_waits hk]
      rfl
    · exact beq_eq_false_iff_ne.mpr he
    · rw [hexec, sendOwn_now hk he]
      exact finish_coreGoes hst rfl rfl rfl
    · exact beq_iff_eq.mpr he
    · rw [hexec, sendOwn_release hk he hb]
      exact finish_coreGoes hst rfl rfl rfl
    · refine ⟨mailOf s w m A s.pkgId w.core (k.nextEpoch + 1), rfl, rfl, rfl, rfl, rfl, rfl, ?_⟩
      rw [hexec, sendOwn_held hk he hb]
      exact finish_coreGoes hst rfl rfl rfl
  · rw [Waits, mbw_sends hact hf hp hc hup, sendMail_out hs hout, sendOut_waits hfull]
    rfl
  · refine ⟨mailOf s w m A pkg c (if w.eng = .a then k.nextEpoch + 1 else 0), rfl, rfl, rfl, rfl, rfl, rfl, rfl, fun he => ?_, fun he => ?_⟩
    · rw [if_neg he, mbw_sends hact hf hp hc hup, sendMail_out hs hout, sendOut_now hroom he]
      exact ⟨rfl, finish_coreGoes hst rfl rfl rfl⟩
    · rw [if_pos he, mbw_sends hact hf hp hc hup, sendMail_out hs hout, sendOut_release hroom he]
      exact ⟨rfl, finish_coreGoes hst rfl rfl rfl⟩

end Sys2Proof.Machine
end

section
/-! SUPPORT. Arrival at a barrier (R141 to R144), and the obligation about it. -/

namespace Sys2Proof.Machine

/-! ## BAR -/

section
variable {s : State} {w : Who} {g scope a : Nat}

/-- The mask and the scope of a BAR are ones that it accepts. -/
structure BarOk (s : State) (w : Who) (g scope : Nat) : Prop where
  low : 1 ≤ scope
  high : scope < 6
  mask : badMask s w g = false

theorem BarOk.accepts (h : BarOk s w g scope) : (decide (scope = 0) || decide (6 ≤ scope) || badMask s w g) = false := by
  obtain ⟨hlo, hhi, hm⟩ := h
  simp only [hm, Bool.or_false, Bool.or_eq_false_iff, decide_eq_false_iff_not]
  omega

theorem refused_bar (h : scope = 0 ∨ 6 ≤ scope ∨ badMask s w g = true) :
    (decide (scope = 0) || decide (6 ≤ scope) || badMask s w g) = true := by
  simpa [or_assoc] using h

theorem bar_unfolds (h : Acts s w) : exec (.bar g scope) s =
    if scope = 0 || 6 ≤ scope || badMask s w g then finish w 4 s (.raise 0x02 (opTval (.bar g scope) false 0))
    else if !(s.core w.core).doneA then finish w 4 s .wait
    else .next (standAtBar s w g scope none) := by
  change execBar g scope s = _
  rw [execBar, who_of_acts h]

/-- The smallest T given so far at the barrier of a timed BAR, its own T included. -/
def barLow (s : State) (w : Who) (g scope T : Nat) : Nat :=
  match (s.launchOf w.core).bind (fun l => timedOf l scope (unitOf scope w.core) (nextInst s w g scope)) with
  | some b => min b.low T
  | none => T

/-- The state in which the T of a timed BAR counts for the lateness of later ones. -/
def barIssued (s : State) (w : Who) (g scope T : Nat) : State :=
  s.mapLaunch (s.core w.core).record (fun l => issuedTime l scope (unitOf scope w.core) (nextInst s w g scope) T)

theorem barTm_unfolds (h : Acts s w) : exec (.barTm a g scope) s =
    if scope = 0 || 6 ≤ scope || badMask s w g || !(s.stream w).gauge then
      finish w 4 s (.raise 0x02 (opTval (.barTm a g scope) false 0))
    else if !(s.stream w).full a || !(s.core w.core).doneA then finish w 4 s .wait
    else if barLow s w g scope (regOf s w a).toNat < s.cyc w then
      finish w 4 s (.raiseIn (barIssued s w g scope (regOf s w a).toNat) 0x09 (BitVec.ofNat 64 (s.cyc w)))
    else .next (timeArrival (standAtBar (barIssued s w g scope (regOf s w a).toNat) w g scope (some (regOf s w a).toNat))
      w.core scope (nextInst s w g scope)) := by
  change execBarTm a g scope s = _
  rw [execBarTm, who_of_acts h] <;> rfl

theorem bar_traps (h : Acts s w) (hr : scope = 0 ∨ 6 ≤ scope ∨ badMask s w g = true) :
    Traps (.bar g scope) s w 0x02 (opTval (.bar g scope) false 0) ∧
      Traps (.barTm a g scope) s w 0x02 (opTval (.barTm a g scope) false 0) := by
  constructor
  · rw [Traps, bar_unfolds h, if_pos (refused_bar hr)]
    rfl
  · rw [Traps, barTm_unfolds h, if_pos (by rw [refused_bar hr, Bool.true_or])]
    rfl

theorem barTm_traps_rib (h : Acts s w) (hg : (s.stream w).gauge = false) :
    Traps (.barTm a g scope) s w 0x02 (opTval (.barTm a g scope) false 0) := by
  rw [Traps, barTm_unfolds h, if_pos (by rw [hg, Bool.not_false, Bool.or_true])]
  rfl

theorem bar_goes (h : Acts s w) (hok : BarOk s w g scope) : exec (.bar g scope) s =
    if !(s.core w.core).doneA then finish w 4 s .wait else .next (standAtBar s w g scope none) := by
  rw [bar_unfolds h, hok.accepts, if_neg Bool.false_ne_true]

theorem barTm_goes (h : Acts s w) (hok : BarOk s w g scope) (hg : (s.stream w).gauge = true) : exec (.barTm a g scope) s =
    if !(s.stream w).full a || !(s.core w.core).doneA then finish w 4 s .wait
    else if barLow s w g scope (regOf s w a).toNat < s.cyc w then
      finish w 4 s (.raiseIn (barIssued s w g scope (regOf s w a).toNat) 0x09 (BitVec.ofNat 64 (s.cyc w)))
    else .next (timeArrival (standAtBar (barIssued s w g scope (regOf s w a).toNat) w g scope (some (regOf s w a).toNat))
      w.core scope (nextInst s w g scope)) := by
  rw [barTm_unfolds h, hok.accepts, hg, Bool.not_true, Bool.or_false, if_neg Bool.false_ne_true]

theorem bar_waits (h : Acts s w) (hok : BarOk s w g scope) (hd : (s.core w.core).doneA = false) :
    Waits (.bar g scope) s w ∧ ((s.stream w).gauge = true → Waits (.barTm a g scope) s w) := by
  refine ⟨?_, fun hg => ?_⟩
  · rw [Waits, bar_goes h hok, hd]
    rfl
  · rw [Waits, barTm_goes h hok hg, hd, if_pos (by rw [Bool.not_false, Bool.or_true])]
    rfl

theorem joinBar_stream (k : Core) (e f : Eng) (sc m : Nat) : (joinBar k e sc m).2.stream f = k.stream f := by
  unfold joinBar
  split <;> cases f <;> rfl

theorem joinBar_job (k : Core) (e : Eng) (sc m : Nat) :
    (joinBar k e sc m).2.job = k.job ∧ (joinBar k e sc m).2.tile = k.tile := by
  unfold joinBar
  split <;> exact ⟨rfl, rfl⟩

/-- The core of a stream that stands at its barrier. -/
theorem standAtBar_eq (timed : Option Nat) : standAtBar s w g scope timed =
    s.setCore w.core ((joinBar (s.core w.core) w.eng scope g).2.setStream w.eng
      { s.stream w with at_ := .bar scope g (nextInst s w g scope) timed, run := .waiting }) := by
  have hu : (s.setCore w.core (joinBar (s.core w.core) w.eng scope g).2).stream w = s.stream w := by
    rw [← State.stream_core, State.core_setCore_self, joinBar_stream]
    rfl
  simp only [standAtBar, hu, State.setStream, State.core_setCore_self, State.setCore_setCore, nextInst]

theorem bar_arrives (h : Acts s w) (hok : BarOk s w g scope) (hd : (s.core w.core).doneA = true) :
    ∃ t, exec (.bar g scope) s = .next t ∧ OnlyCore w.core s t ∧
      t.stream w = { s.stream w with run := .waiting, at_ := .bar scope g (nextInst s w g scope) none } ∧
      (t.core w.core).tile = (s.core w.core).tile := by
  refine ⟨standAtBar s w g scope none, ?_, ?_⟩
  · rw [bar_goes h hok, hd]
    rfl
  · rw [standAtBar_eq]
    refine ⟨onlyCore_setCore _ _ _, ?_, ?_⟩
    · rw [← State.stream_core, State.core_setCore_self, Core.stream_setStream_self]
    · rw [State.core_setCore_self, Core.setStream_tile, (joinBar_job _ _ _ _).2]

end

/-! ## The T of a timed BAR (R144) -/

section
variable {l : Launch} {scope u inst T : Nat}

theorem issuedTime_frame : issuedTime l scope u inst T = { l with timed := (issuedTime l scope u inst T).timed } := by
  unfold issuedTime
  split <;> rfl

/-- The first of a list with a key is still that of the list after a change that keeps the keys. -/
theorem find?_map_keeps {α : Type} {p : α → Bool} {f : α → α} (hf : ∀ x, p (f x) = p x) (l : List α) :
    (l.map f).find? p = (l.find? p).map f := by
  rw [List.find?_map]
  congr 1
  exact congrArg (fun q => List.find? q l) (funext hf)

theorem timedOf_issuedTime : timedOf (issuedTime l scope u inst T) scope u inst = some (match timedOf l scope u inst with
    | some b => { b with low := min b.low T }
    | none => ⟨scope, u, inst, T, 0⟩) := by
  unfold issuedTime
  cases hb : timedOf l scope u inst with
  | none =>
    rw [timedOf] at hb
    simp [timedOf, List.find?_append, hb]
  | some b =>
    have hkeep : ∀ c : TimedBar, (((if c == b then { b with low := min b.low T } else c).scope == scope &&
        (if c == b then { b with low := min b.low T } else c).unit_ == u &&
        (if c == b then { b with low := min b.low T } else c).inst == inst) = (c.scope == scope && c.unit_ == u && c.inst == inst)) := by
      intro c
      by_cases hc : c = b
      · subst hc
        simp
      · simp [hc]
    have hb' := hb
    rw [timedOf] at hb'
    simp only [timedOf]
    rw [find?_map_keeps (p := fun t : TimedBar => t.scope == scope && t.unit_ == u && t.inst == inst) hkeep, hb']
    simp

theorem timedOf_arrivedTime {n : Nat} : timedOf (arrivedTime l scope u inst n) scope u inst =
    (timedOf l scope u inst).map (fun b => { b with high := max b.high n }) := by
  have hkeep : ∀ b : TimedBar, ((if b.scope == scope && b.unit_ == u && b.inst == inst then { b with high := max b.high n } else b).scope == scope &&
      (if b.scope == scope && b.unit_ == u && b.inst == inst then { b with high := max b.high n } else b).unit_ == u &&
      (if b.scope == scope && b.unit_ == u && b.inst == inst then { b with high := max b.high n } else b).inst == inst) =
      (b.scope == scope && b.unit_ == u && b.inst == inst) := by
    intro b
    split <;> rfl
  simp only [timedOf, arrivedTime]
  rw [find?_map_keeps (p := fun t : TimedBar => t.scope == scope && t.unit_ == u && t.inst == inst) hkeep]
  cases hb : l.timed.find? (fun t => t.scope == scope && t.unit_ == u && t.inst == inst) with
  | none => rfl
  | some b =>
    have := List.find?_some hb
    simp only [Option.map_some, this, if_true]

end

section
variable {s : State} {w : Who} {g scope a : Nat}

/-- The launch of a core after a change of it. -/
theorem launchOf_mapLaunch {t : State} {c : Nat} {f : Launch → Launch} (hf : ∀ l, (f l).record = l.record)
    (hj : (t.core c).job = (s.core c).job) (hl : t.launches = (s.mapLaunch (s.core c).record f).launches) :
    t.launchOf c = (s.launchOf c).map f := by
  unfold State.launchOf
  rw [hj, hl]
  cases hk : (s.core c).job with
  | none => rfl
  | some j =>
    have hrec : (s.core c).record = j.record := by simp [Core.record, hk]
    have hkeep : ∀ l : Launch, ((if l.record == j.record then f l else l).record == j.record) = (l.record == j.record) := by
      intro l
      split <;> simp [hf]
    simp only [State.mapLaunch, hrec]
    rw [find?_map_keeps (p := fun l : Launch => l.record == j.record) hkeep]
    cases hb : s.launches.find? (fun l => l.record == j.record) with
    | none => rfl
    | some l =>
      have := List.find?_some hb
      simp only [Option.map_some, this, if_true]

theorem barTm_late (h : Acts s w) (hok : BarOk s w g scope) (hd : (s.core w.core).doneA = true) (hg : (s.stream w).gauge = true)
    (hf : Full s w [a]) (hlate : barLow s w g scope (regOf s w a).toNat < s.cyc w) :
    ∃ f : Launch → Launch, (∀ l, f l = { l with timed := (f l).timed } ∧
        ∃ b, timedOf (f l) scope (unitOf scope w.core) (nextInst s w g scope) = some b ∧ b.low ≤ (regOf s w a).toNat) ∧
      exec (.barTm a g scope) s = .next (takeTrap (s.mapLaunch (s.core w.core).record f) w 0x09 (BitVec.ofNat 64 (s.cyc w))) := by
  refine ⟨fun l => issuedTime l scope (unitOf scope w.core) (nextInst s w g scope) (regOf s w a).toNat,
    fun l => ⟨issuedTime_frame, _, timedOf_issuedTime, ?_⟩, ?_⟩
  · cases timedOf l scope (unitOf scope w.core) (nextInst s w g scope) with
    | none => exact le_refl _
    | some b => exact min_le_right _ _
  · have hfull : (s.stream w).full a = true := hf a (by simp)
    rw [barTm_goes h hok hg, hfull, hd, if_pos hlate]
    rfl

theorem timeAt_stands {k : Core} {e : Eng} {m inst T : Nat} (h : (k.stream e).at_ = .bar scope m inst (some T)) :
    T ≤ k.timeAt scope inst := by
  simp only [Core.timeAt, List.foldl_cons, List.foldl_nil]
  cases e <;> simp only [h, decide_true, Bool.and_self, if_true] <;> (repeat' split) <;> simp

/-- The launch of a stream that stands at a timed BAR: its T is one of those issued, and once its core has arrived, the largest of the
core is one of those of the release. -/
def barCounts (k : Core) (scope u inst T : Nat) (l : Launch) : Launch :=
  if arrivedAt k scope inst then arrivedTime (issuedTime l scope u inst T) scope u inst (k.timeAt scope inst)
  else issuedTime l scope u inst T

theorem barCounts_record (k : Core) (u inst T : Nat) (l : Launch) : (barCounts k scope u inst T l).record = l.record := by
  unfold barCounts
  rw [issuedTime_frame]
  split <;> rfl

theorem timedOf_barCounts (k : Core) (u inst T : Nat) (l : Launch) :
    ∃ b, timedOf (barCounts k scope u inst T l) scope u inst = some b ∧
      b.low = (match timedOf l scope u inst with | some c => min c.low T | none => T) ∧
      b.high = if arrivedAt k scope inst then max (match timedOf l scope u inst with | some c => c.high | none => 0) (k.timeAt scope inst)
        else (match timedOf l scope u inst with | some c => c.high | none => 0) := by
  unfold barCounts
  by_cases ha : arrivedAt k scope inst = true
  · simp only [ha, if_true, timedOf_arrivedTime, timedOf_issuedTime, Option.map_some]
    cases timedOf l scope u inst <;> exact ⟨_, rfl, rfl, rfl⟩
  · simp only [if_neg ha, timedOf_issuedTime]
    cases timedOf l scope u inst <;> exact ⟨_, rfl, rfl, rfl⟩

/-- A timed BAR that is not late arrives. -/
theorem barTm_arrives (h : Acts s w) (hok : BarOk s w g scope) (hd : (s.core w.core).doneA = true) (hg : (s.stream w).gauge = true)
    (hf : Full s w [a]) (htime : s.cyc w ≤ barLow s w g scope (regOf s w a).toNat) :
    ∃ t, exec (.barTm a g scope) s = .next t ∧
      t.stream w = { s.stream w with run := .waiting, at_ := .bar scope g (nextInst s w g scope) (some (regOf s w a).toNat) } ∧
      { t with cores := s.cores, launches := s.launches } = s ∧ (∀ c, c ≠ w.core → t.core c = s.core c) ∧
      (t.core w.core).tile = (s.core w.core).tile ∧
      (t.core w.core).job = (s.core w.core).job ∧
      t.launches = (s.mapLaunch (s.core w.core).record
        (barCounts (t.core w.core) scope (unitOf scope w.core) (nextInst s w g scope) (regOf s w a).toNat)).launches := by
  have hfull : (s.stream w).full a = true := hf a (by simp)
  set u := standAtBar (barIssued s w g scope (regOf s w a).toNat) w g scope (some (regOf s w a).toNat) with hu
  have hue : u = (barIssued s w g scope (regOf s w a).toNat).setCore w.core ((joinBar (s.core w.core) w.eng scope g).2.setStream w.eng
      { s.stream w with at_ := .bar scope g (nextInst s w g scope) (some (regOf s w a).toNat), run := .waiting }) := standAtBar_eq _
  have hcore : u.core w.core = (joinBar (s.core w.core) w.eng scope g).2.setStream w.eng
      { s.stream w with at_ := .bar scope g (nextInst s w g scope) (some (regOf s w a).toNat), run := .waiting } := by
    rw [hue, State.core_setCore_self]
  have hjob : (u.core w.core).job = (s.core w.core).job := by rw [hcore, Core.setStream_job, (joinBar_job _ _ _ _).1]
  have hrec : (u.core w.core).record = (s.core w.core).record := by simp only [Core.record, hjob]
  have hcores : ∀ c, (timeArrival u w.core scope (nextInst s w g scope)).core c = u.core c := fun c => by
    unfold timeArrival
    split <;> rfl
  refine ⟨timeArrival u w.core scope (nextInst s w g scope), ?_, ?_, ?_, fun c hc => ?_, ?_, ?_, ?_⟩
  · rw [barTm_goes h hok hg, hfull, hd, if_neg (Nat.not_lt.mpr htime)]
    rfl
  · rw [← State.stream_core, hcores, hcore, Core.stream_setStream_self]
  · rw [hue]
    unfold timeArrival
    split <;> rfl
  · rw [hcores, hue, State.core_setCore_ne _ _ hc]
    rfl
  · rw [hcores, hcore, Core.setStream_tile, (joinBar_job _ _ _ _).2]
  · rw [hcores, hjob]
  · rw [hcores]
    have hlau : u.launches = (barIssued s w g scope (regOf s w a).toNat).launches := by rw [hue]; rfl
    unfold timeArrival
    by_cases ha : arrivedAt (u.core w.core) scope (nextInst s w g scope) = true
    · rw [if_pos ha]
      simp only [State.mapLaunch, hlau, hrec, barIssued, List.map_map]
      refine List.map_congr_left fun l _ => ?_
      have hr : (issuedTime l scope (unitOf scope w.core) (nextInst s w g scope) (regOf s w a).toNat).record = l.record := by
        rw [issuedTime_frame]
      by_cases hl : (l.record == (s.core w.core).record) = true
      · simp only [Function.comp_apply, hl, if_true, hr, barCounts, if_pos ha]
      · simp only [Function.comp_apply, if_neg hl]
    · have hc : barCounts (u.core w.core) scope (unitOf scope w.core) (nextInst s w g scope) (regOf s w a).toNat =
          fun l => issuedTime l scope (unitOf scope w.core) (nextInst s w g scope) (regOf s w a).toNat :=
        funext fun l => if_neg ha
      rw [if_neg ha, hc]
      exact hlau

end

/-- Settles O13: a BAR is refused, waits for the accesses of its A stream, or stands at its barrier. -/
theorem barriersArrive : Obligations.BarriersArrive := by
  intro s w g scope a hact k T
  refine ⟨bar_traps hact, barTm_traps_rib hact, fun hlo hhi hm => bar_waits hact ⟨hlo, hhi, hm⟩,
    fun hlo hhi hm => bar_arrives hact ⟨hlo, hhi, hm⟩, fun hlo hhi hm hd hg hf => ⟨barTm_late hact ⟨hlo, hhi, hm⟩ hd hg hf, fun htime => ?_⟩⟩
  obtain ⟨t, ht, hstr, hrest, hcores, htile, hjob, hlau⟩ := barTm_arrives hact ⟨hlo, hhi, hm⟩ hd hg hf htime
  refine ⟨t, ht, hstr, hrest, hcores, htile, fun hsome => ?_⟩
  obtain ⟨l, hl⟩ := Option.isSome_iff_exists.mp hsome
  have hT : T ≤ (t.core w.core).timeAt scope (nextInst s w g scope) := by
    refine timeAt_stands (e := w.eng) (m := g) ?_
    rw [State.stream_core, hstr]
  have hl1 := launchOf_mapLaunch (barCounts_record _ _ _ _) hjob hlau
  obtain ⟨b, hb, hlow, hhigh⟩ := timedOf_barCounts (scope := scope) (t.core w.core) (unitOf scope w.core) (nextInst s w g scope) T l
  rw [hl, Option.map_some] at hl1
  simp only [hl, Option.bind_some]
  exact ⟨_, b, hl1, hb, hlow, hT, hhigh⟩

end Sys2Proof.Machine
end

section
/-! SUPPORT. Predicates: their bits, the writes of several of them, and the predicate short forms (R109, R167) with the obligation
about them. -/

namespace Sys2Proof.Machine

/-! ## Bits of predicates -/

theorem byteRange_bit (lo n : Nat) {i : Nat} (hi : i < 512) : (byteRange lo n).getLsbD i = decide (lo ≤ i ∧ i < lo + n) := by
  have hb : ((2 ^ n - 1) * 2 ^ lo).testBit i = decide (lo ≤ i ∧ i < lo + n) := by
    rw [Nat.testBit_mul_two_pow, Nat.testBit_two_pow_sub_one]
    by_cases h : lo ≤ i
    · simp only [h, decide_true, Bool.true_and, true_and, decide_eq_decide]
      omega
    · simp [h]
  rw [byteRange, BitVec.getLsbD_ofNat, hb, decide_eq_true hi, Bool.true_and]

theorem ones_bit {i : Nat} (hi : i < 512) : allOnesP.getLsbD i = true := getLsbD_ones hi

/-- A predicate written whole is the new one. -/
theorem mergePred_whole (old new : Pred) : mergePred old new allOnesP false = new :=
  BitVec.eq_of_getLsbD_eq fun i hi => by rw [mergePred_bit _ _ _ _ hi, ones_bit hi, if_pos rfl]

section
variable {k : Core} {n : Nat}

theorem setPred_free {v m : Pred} (h : k.predBusy n = false) :
    k.setPred n v m = if n = 0 then k else { k with xs := { k.xs with p := tset k.xs.p n (mergePred (k.pred n) v m false) } } := by
  rw [Core.setPred, h, if_neg Bool.false_ne_true]
  rfl

theorem setPred_whole {v : Pred} (h : k.predBusy n = false) :
    k.setPred n v allOnesP = if n = 0 then k else { k with xs := { k.xs with p := tset k.xs.p n v } } := by
  rw [setPred_free h, mergePred_whole]

theorem pred_of_set (k : Core) (n m : Nat) (v : Pred) :
    (if n = 0 then k else { k with xs := { k.xs with p := tset k.xs.p n v } } : Core).pred m =
      if m ≠ 0 ∧ m = n then v else k.pred m := by
  by_cases hn : n = 0
  · subst hn
    rw [if_pos rfl, if_neg (by tauto)]
  · by_cases hm : m = n
    · subst hm
      simp [Core.pred, hn]
    · simp [Core.pred, hn, hm, tget_tset_ne _ _ _ hm]

/-- Writes of the predicates from `base` on, one for each index of a list. -/
def Core.writePreds (base : Nat) (f : Nat → Pred) : List Nat → Core → Core
  | [], k => k
  | i :: t, k => writePreds base f t (k.setPred (base + i) (f i) allOnesP)

/-- The writes change predicates alone. -/
theorem writePreds_frame (base : Nat) (f : Nat → Pred) (l : List Nat) (k : Core) (h : ∀ i ∈ l, k.predBusy (base + i) = false) :
    k.writePreds base f l = { k with xs := { k.xs with p := (k.writePreds base f l).xs.p } } := by
  induction l generalizing k with
  | nil => rfl
  | cons i t ih =>
    have hset := setPred_whole (v := f i) (h i (by simp))
    have hstep : ∃ P, k.setPred (base + i) (f i) allOnesP = { k with xs := { k.xs with p := P } } := by
      rw [hset]
      split
      · exact ⟨_, rfl⟩
      · exact ⟨_, rfl⟩
    obtain ⟨P, hP⟩ := hstep
    have hbusy : ∀ j ∈ t, (k.setPred (base + i) (f i) allOnesP).predBusy (base + j) = false := fun j hj => by
      rw [hP]
      exact h j (List.mem_cons_of_mem _ hj)
    rw [Core.writePreds, ih _ hbusy, hP]

theorem pred_writePreds (base : Nat) (f : Nat → Pred) (l : List Nat) (k : Core) (h : ∀ i ∈ l, k.predBusy (base + i) = false) (m : Nat) :
    (k.writePreds base f l).pred m = if m ≠ 0 ∧ ∃ i ∈ l, m = base + i then f (m - base) else k.pred m := by
  induction l generalizing k with
  | nil => simp [Core.writePreds]
  | cons i t ih =>
    have hset := setPred_whole (v := f i) (h i (by simp))
    have hbusy : ∀ j ∈ t, (k.setPred (base + i) (f i) allOnesP).predBusy (base + j) = false := fun j hj => by
      rw [hset]
      split <;> exact h j (List.mem_cons_of_mem _ hj)
    rw [Core.writePreds, ih _ hbusy, hset, pred_of_set]
    by_cases hm : m = base + i
    · subst hm
      by_cases h0 : base + i = 0
      · simp [h0]
      · have hex : ∃ j ∈ i :: t, base + i = base + j := ⟨i, by simp, rfl⟩
        rw [if_pos (c := _ ≠ 0 ∧ ∃ j ∈ i :: t, _) ⟨h0, hex⟩, if_pos (c := _ ≠ 0 ∧ _ = _) ⟨h0, rfl⟩, Nat.add_sub_cancel_left, ite_self]
    · simp [hm]

end

/-! ## Short forms that end in a register or a core -/

section
variable {s : State} {w : Who} {d a b : Nat}

/-- A form of 4 bytes whose result is the value of a full register. -/
theorem finish_putReg {v : Word} (hst : Straight s w 4) (hd : (s.stream w).full d = true) :
    ∃ t, finish w 4 s (.ok (putReg s w d v) .seq) = .next t ∧ Wrote s t w d v (s.pcOf w + 4) 0 (s.stream w).dph :=
  scalarForm_writes (srcs := []) (by intro n hn; simp at hn) hst hd

/-- A form of 4 bytes that changes vector registers, predicates or stage counts. -/
theorem finish_xs {x : XState} (hst : Straight s w 4) : finish w 4 s (.ok (s.setCore w.core { s.core w.core with xs := x }) .seq) =
    .next (s.coreGoes w { s.core w.core with xs := x }) :=
  finish_coreGoes hst rfl (by rw [stream_setXs]; rfl) (by rw [stream_setXs]; rfl)

theorem readPreds_free {ps : List Nat} {r : Res} (h : ∀ p ∈ ps, (s.core w.core).predBusy p = false) : readPreds w ps s r = r :=
  if_neg (by simpa using h)

/-- A form that writes the masked bits of one predicate. -/
theorem finish_setPred {v m : Pred} (hst : Straight s w 4) (h : (s.core w.core).predBusy d = false) :
    finish w 4 s (.ok (s.setCore w.core ((s.core w.core).setPred d v m)) .seq) = .next (s.coreGoes w
      (if d = 0 then s.core w.core else { s.core w.core with xs := { (s.core w.core).xs with
        p := tset (s.core w.core).xs.p d (mergePred ((s.core w.core).pred d) v m false) } })) := by
  rw [setPred_free h]
  split
  · exact finish_coreGoes hst rfl rfl rfl
  · exact finish_xs hst

end

/-! ## The forms of R167 -/

/-- What a predicate form writes: `q` to predicate `d`. -/
def WritesPred (i : Instr) (s : State) (w : Who) (d : Nat) (q : Pred) : Prop := exec i s = .next (s.coreGoes w
  (if d = 0 then s.core w.core else { s.core w.core with xs := { (s.core w.core).xs with p := tset (s.core w.core).xs.p d q } }))

section
variable {s : State} {w : Who} {d a b width n : Nat}

/-- Nothing stops a predicate form: it can run on the execute engine, and no predicate has a pending write. -/
structure PredReady (s : State) (w : Who) (ns : List Nat) : Prop where
  run : CanRun s w ns 4
  eng : w.eng = .x
  landed : ∀ p, (s.core w.core).predBusy p = false

theorem PredReady.who {ns : List Nat} (h : PredReady s w ns) : s.whoOn .x = w := whoOn_x_of_acts h.run.1 h.eng

theorem PredReady.straight {ns : List Nat} (h : PredReady s w ns) : Straight s w 4 := h.run.2.2

theorem plog_writes {c : Nat} {f : Bool → Bool → Bool} (h : PredReady s w [a, b, d])
    (hf : (c, f) ∈ [(0, Bool.and), (1, Bool.or), (2, Bool.xor), (3, fun x y => x && !y),
      (4, fun x y => x || !y), (5, fun x y => !(x && y)), (6, fun x y => !(x || y)), (7, fun x y => !(Bool.xor x y))]) :
    ∃ q, WritesPred (.plog d a b c) s w d q ∧
      ∀ j < 512, q.getLsbD j = f (((s.core w.core).pred a).getLsbD j) (((s.core w.core).pred b).getLsbD j) := by
  refine ⟨mergePred ((s.core w.core).pred d) (logOp c ((s.core w.core).pred a) ((s.core w.core).pred b)) allOnesP false, ?_, fun j hj => ?_⟩
  · change execPlog d a b c s = _
    rw [execPlog, h.who]
    simp only [readPreds_free (fun p _ => h.landed p)]
    exact finish_setPred h.straight (h.landed d)
  · rw [mergePred_whole, logOp_bits c f hf _ _ j hj]

theorem length_predBools (p : Pred) (W : Nat) : (predBools W p).length = 512 / W := by simp [predBools]

theorem pCount_eq (W : Nat) (p : Pred) :
    pCount W p = ((List.range (512 / W)).filter (fun j => p.getLsbD (j * W))).length := by
  rw [pCount, predBools, List.countP_map, List.countP_eq_length_filter]
  rfl

theorem pcnt_writes (h : PredReady s w [a, b, d]) : WritesReg (.pcnt d a width) s w d
    (BitVec.ofNat 64 ((List.range (512 / 2 ^ width)).filter (fun j => ((s.core w.core).pred a).getLsbD (j * 2 ^ width))).length) := by
  change ∃ t, execPcnt d a width s = _ ∧ _
  rw [execPcnt, h.who, ← pCount_eq, readPreds_free (fun p _ => h.landed p)]
  exact finish_putReg h.straight (h.run.2.1 d (by simp))

theorem pfirst_writes (h : PredReady s w [a, b, d]) : ∃ m ≤ 512 / 2 ^ width,
    (∀ j < m, ((s.core w.core).pred a).getLsbD (j * 2 ^ width) = false) ∧
    (m < 512 / 2 ^ width → ((s.core w.core).pred a).getLsbD (m * 2 ^ width) = true) ∧
    WritesReg (.pfirst d a width) s w d (BitVec.ofNat 64 m) := by
  set l := predBools (2 ^ width) ((s.core w.core).pred a) with hl
  have hlen : l.length = 512 / 2 ^ width := length_predBools _ _
  have hget : ∀ j (hj : j < l.length), l[j] = ((s.core w.core).pred a).getLsbD (j * 2 ^ width) := fun j hj => by
    simp [hl, predBools, pbit]
  have hle : l.findIdx id ≤ l.length := List.findIdx_le_length
  refine ⟨l.findIdx id, hlen ▸ hle, fun j hj => ?_, fun hm => ?_, ?_⟩
  · rw [← hget j (by omega)]
    simpa using List.not_of_lt_findIdx hj
  · have hm' : l.findIdx id < l.length := hlen ▸ hm
    rw [← hget _ hm']
    exact List.findIdx_getElem (p := id) (w := hm')
  · change ∃ t, execPfirst d a width s = _ ∧ _
    rw [execPfirst, h.who, readPreds_free (fun p _ => h.landed p)]
    exact finish_putReg h.straight (h.run.2.1 d (by simp))

/-- The first elements of a predicate. -/
theorem pSetFirst_bit (hw : width < 4) (m : Nat) {j : Nat} (hj : j < 512) :
    (pSetFirst (2 ^ width) m).getLsbD j = decide (j / 2 ^ width < m) := by
  rw [pSetFirst, byteRange_bit _ _ hj]
  simp only [Nat.zero_le, true_and, Nat.zero_add, decide_eq_decide]
  interval_cases width <;> omega

theorem pset_writes (h : PredReady s w [a, b, d]) (hw : width < 4) :
    ∃ q, WritesPred (.pset d width n) s w d q ∧ ∀ j < 512, q.getLsbD j = decide (j / 2 ^ width < n) := by
  refine ⟨mergePred ((s.core w.core).pred d) (pSetFirst (2 ^ width) n) allOnesP false, ?_, fun j hj => ?_⟩
  · change execPset d width n s = _
    rw [execPset, h.who]
    exact finish_setPred h.straight (h.landed d)
  · rw [mergePred_whole, pSetFirst_bit hw n hj]

theorem psetReg_writes (h : PredReady s w [a, b, d]) (hw : width < 4) : ∃ q, WritesPred (.psetReg d a width n) s w d q ∧
    ∀ j < 512, q.getLsbD j = decide (j / 2 ^ width < (regOf s w a).toNat) := by
  refine ⟨mergePred ((s.core w.core).pred d) (pSetFirst (2 ^ width) (regOf s w a).toNat) allOnesP false, ?_, fun j hj => ?_⟩
  · change execPsetReg d a width n s = _
    rw [execPsetReg, h.who, needRegs_of_full _ (h.run.2.1.subset (by simp))]
    exact finish_setPred h.straight (h.landed d)
  · rw [mergePred_whole, pSetFirst_bit hw _ hj]

/-- A bit of the parts of 64 bytes that predicates pack to. -/
theorem pack8_bit (ps : List Pred) (hlen : ps.length = 8) {j : Nat} (hj : j < 4096) :
    (pack8 ps).getLsbD j = (ps.getD (j / 512) 0).getLsbD (j % 512) := by
  have hchunk : (pack8 ps).getLsbD j = (vget 64 (pack8 ps) (j / 512)).testBit (j % 512) := by
    rw [vget_testBit _ _ (Nat.mod_lt _ (by decide)), Nat.div_add_mod]
  have h8 : j / 512 < 8 := by omega
  have hin : j / 512 < ps.length := by omega
  have hmap : (ps.map BitVec.toNat).getD (j / 512) 0 = (ps.getD (j / 512) 0).toNat := by simp [List.getD, hin]
  rw [hchunk, pack8, vget_vecOfEls _ (by omega), hmap, Nat.testBit_mod_two_pow, BitVec.testBit_toNat,
    decide_eq_true (Nat.mod_lt _ (by decide)), Bool.true_and]

theorem ppack_writes (h : PredReady s w [a, b, d]) (hd : (s.core w.core).vecFull d = true) :
    ∃ v, exec (.ppack d a) s = .next (s.coreGoes w { s.core w.core with xs := { (s.core w.core).xs with
        v := tset (s.core w.core).xs.v ((s.core w.core).phys d) v } }) ∧
      ∀ j < 4096, v.getLsbD j = ((s.core w.core).pred (a + j / 512)).getLsbD (j % 512) := by
  have hfull : (s.core w.core).xs.vempty.contains ((s.core w.core).phys d) = false := by simpa [Core.vecFull] using hd
  refine ⟨mergeVec (tget (s.core w.core).xs.v ((s.core w.core).phys d) 0) (pack8 ((eight a).map (s.core w.core).pred)) allOnesP false,
    ?_, fun j hj => ?_⟩
  · change execPpack d a s = _
    rw [execPpack, h.who]
    simp only [readPreds_free (fun p _ => h.landed p), Core.setVec, hfull, Bool.false_eq_true, if_false]
    exact finish_xs h.straight
  · have h8 : j / 512 < 8 := by omega
    rw [mergeVec_bit _ _ _ _ hj, ones_bit (by omega), if_pos rfl, pack8_bit _ (by simp [eight]) hj]
    simp [eight, List.getD, h8]

theorem unpack8_eq (v : Vec) (d : Nat) (l : List Nat) (k : Core) :
    unpack8 v d l k = k.writePreds d (fun i => BitVec.ofNat 512 (vget 64 v i)) l := by
  induction l generalizing k with
  | nil => rfl
  | cons i t ih => rw [unpack8, ih, Core.writePreds]

/-- A part of 64 bytes of a vector. -/
theorem vget64_eq (v : Vec) (i : Nat) : BitVec.ofNat 512 (vget 64 v i) = v.extractLsb' (512 * i) 512 := by
  apply BitVec.eq_of_toNat_eq
  simp [vget, BitVec.extractLsb'_toNat, Nat.shiftRight_eq_div_pow]

theorem punpk_writes (h : PredReady s w [a, b, d]) (ha : (s.core w.core).vecFull a = true) :
    ∃ t, exec (.punpk d a) s = .next t ∧ OnlyCore w.core s t ∧
      (∀ p, (t.core w.core).pred p = if p ≠ 0 ∧ d ≤ p ∧ p < d + 8 then ((s.core w.core).vec a).extractLsb' (512 * (p - d)) 512
        else (s.core w.core).pred p) ∧
      t = s.coreGoes w { s.core w.core with xs := { (s.core w.core).xs with p := (t.core w.core).xs.p } } := by
  obtain ⟨K, hK⟩ : ∃ K, K = (s.core w.core).writePreds d (fun i => BitVec.ofNat 512 (vget 64 ((s.core w.core).vec a) i)) (List.range 8) :=
    ⟨_, rfl⟩
  have hframe : K = { s.core w.core with xs := { (s.core w.core).xs with p := K.xs.p } } := by
    rw [hK]
    exact writePreds_frame d _ _ _ (fun i _ => h.landed _)
  have hxs : ∀ e u, (K.setStream e u).xs = K.xs := fun e u => by cases e <;> rfl
  refine ⟨s.coreGoes w K, ?_, onlyCore_coreGoes _ _ _, fun p => ?_, ?_⟩
  · change execPunpk d a s = _
    rw [execPunpk, h.who]
    simp only [ha, Bool.not_true, Bool.false_eq_true, if_false, unpack8_eq, ← hK]
    rw [hframe]
    exact finish_xs h.straight
  · have hpred : ((s.coreGoes w K).core w.core).pred p = K.pred p := by
      rw [core_coreGoes]
      simp only [Core.pred, hxs]
    rw [hpred, hK, pred_writePreds _ _ _ _ (fun i _ => h.landed _), vget64_eq]
    refine if_congr (and_congr_right fun _ => ?_) rfl rfl
    constructor
    · rintro ⟨i, hi, rfl⟩
      have := List.mem_range.mp hi
      omega
    · exact fun hp => ⟨p - d, List.mem_range.mpr (by omega), by omega⟩
  · rw [core_coreGoes, hxs, ← hframe]

theorem pext_writes (h : PredReady s w [a, b, d]) : WritesReg (.pext d a b) s w d
    (((s.core w.core).pred a).extractLsb' (64 * ((regOf s w b).toNat % 8)) 64) := by
  have hx : ((s.core w.core).pred a >>> (64 * ((regOf s w b).toNat % 8))).setWidth 64 =
      ((s.core w.core).pred a).extractLsb' (64 * ((regOf s w b).toNat % 8)) 64 := by
    apply BitVec.eq_of_toNat_eq
    simp [BitVec.extractLsb'_toNat]
  change ∃ t, execPext d a b s = _ ∧ _
  rw [execPext, h.who, needRegs_of_full _ (h.run.2.1.subset (by simp)), readPreds_free (fun p _ => h.landed p), hx]
  exact finish_putReg h.straight (h.run.2.1 d (by simp))

theorem pins_writes (h : PredReady s w [a, b, d]) : ∃ q, WritesPred (.pins d a b) s w d q ∧ ∀ j < 512, q.getLsbD j =
    if j / 64 = (regOf s w b).toNat % 8 then (regOf s w a).getLsbD (j % 64) else ((s.core w.core).pred d).getLsbD j := by
  refine ⟨mergePred ((s.core w.core).pred d) ((regOf s w a).setWidth 512 <<< (64 * ((regOf s w b).toNat % 8)))
    (byteRange (64 * ((regOf s w b).toNat % 8)) 64) false, ?_, fun j hj => ?_⟩
  · change execPins d a b s = _
    rw [execPins, h.who]
    simp only [needRegs_of_full _ (h.run.2.1.subset (show [a, b] ⊆ [a, b, d] by simp)), readPreds_free (fun p _ => h.landed p)]
    exact finish_setPred h.straight (h.landed d)
  · have hm : (regOf s w b).toNat % 8 < 8 := Nat.mod_lt _ (by decide)
    rw [mergePred_bit _ _ _ _ hj, byteRange_bit _ _ hj]
    by_cases hp : j / 64 = (regOf s w b).toNat % 8
    · have hin : 64 * ((regOf s w b).toNat % 8) ≤ j ∧ j < 64 * ((regOf s w b).toNat % 8) + 64 := by omega
      have hrem : j - 64 * ((regOf s w b).toNat % 8) = j % 64 := by omega
      have hw : j % 64 < 64 := Nat.mod_lt _ (by decide)
      simp [hp, hin, hj, hrem, hw]
    · have hout : ¬ (64 * ((regOf s w b).toNat % 8) ≤ j ∧ j < 64 * ((regOf s w b).toNat % 8) + 64) := by omega
      simp [hp, hout]

end

/-- Settles O24, form by form. -/
theorem predicateResults : Obligations.PredicateResults := by
  intro s w d a b width n hrun hx hw _ hbusy
  have h : PredReady s w [a, b, d] := ⟨hrun, hx, hbusy⟩
  exact ⟨fun c f => plog_writes h, pcnt_writes h, pfirst_writes h, pset_writes h hw, psetReg_writes h hw, ppack_writes h,
    punpk_writes h, pext_writes h, pins_writes h⟩

end Sys2Proof.Machine
end

section
/-! SUPPORT. Lane moves, queue control and the pipelined loop (R111, R162 to R166), with the obligation about them. -/

namespace Sys2Proof.Machine

/-! ## Stage predicates (R111) -/

section
variable {k : Core}

/-- The stage predicate of index `i` in pass `pass` of `kern` kernel passes. -/
def stageOf (pass kern i : Nat) : Pred := if i ≤ pass ∧ pass - i < kern then BitVec.allOnes 512 else 0

theorem stagePred_eq (spass skern : Word) (i : Nat) : stagePred spass skern i = stageOf spass.toNat skern.toNat i := by
  simp [stagePred, stageOf]

theorem writeStages_eq (spass skern : Word) (l : List Nat) (k : Core) (hp : k.xs.spass = spass) (hk : k.xs.skern = skern)
    (h : ∀ i ∈ l, k.predBusy (56 + i) = false) :
    writeStages k l = k.writePreds 56 (stageOf spass.toNat skern.toNat) l := by
  induction l generalizing k with
  | nil => rfl
  | cons i t ih =>
    have hset := setPred_whole (v := stagePred spass skern i) (h i (by simp))
    have hne : 56 + i ≠ 0 := by omega
    rw [if_neg hne] at hset
    have hset' : k.setPred (56 + i) (stagePred spass skern i) (BitVec.allOnes 512) = _ := hset
    rw [writeStages, Core.writePreds, ← stagePred_eq, hp, hk, hset', hset]
    exact ih _ hp hk (fun j hj => h j (List.mem_cons_of_mem _ hj))

/-- What new stage predicates leave of a core: predicates 56 to 63 alone change. -/
theorem stages_effect (h : ∀ p ∈ [56, 57, 58, 59, 60, 61, 62, 63], k.predBusy p = false) :
    k.stages = { k with xs := { k.xs with p := k.stages.xs.p } } ∧
      ∀ p < 64, k.stages.pred p = if 56 ≤ p then stageOf k.xs.spass.toNat k.xs.skern.toNat (p - 56) else k.pred p := by
  have hfree : ∀ i ∈ [0, 1, 2, 3, 4, 5, 6, 7], k.predBusy (56 + i) = false := fun i hi => h _ (by
    simp only [List.mem_cons, List.not_mem_nil, or_false] at hi ⊢
    omega)
  rw [Core.stages, writeStages_eq k.xs.spass k.xs.skern _ k rfl rfl hfree]
  refine ⟨writePreds_frame _ _ _ _ hfree, fun p hp => ?_⟩
  rw [pred_writePreds _ _ _ _ hfree]
  refine if_congr ?_ rfl rfl
  constructor
  · rintro ⟨-, i, -, rfl⟩
    omega
  · intro h56
    refine ⟨by omega, p - 56, ?_, by omega⟩
    simp only [List.mem_cons, List.not_mem_nil, or_false]
    omega

end

/-! ## The end of a pipelined body (R111, R166) -/

section
variable {s : State} {w : Who} {l : LoopEnt} {rest : List LoopEnt}

/-- The loop check answers a core in which the stream runs and stands as before; no A loop is left. -/
theorem retireAt_of_core {addr next goes : Word} {ctl call : Bool} {k : Core}
    (h : afterCompletion w.eng addr next ctl call (s.core w.core) (s.stream w).loops [] = ⟨k, goes, false, []⟩)
    (hr : (k.stream w.eng).run = (s.stream w).run) (ha : (k.stream w.eng).at_ = (s.stream w).at_) :
    retireAt w addr next ctl call s =
      s.setCore w.core (k.setStream w.eng { k.stream w.eng with pc := goes, run := s.runNext w, at_ := .free }) := by
  have hrun : runAfter (s.core w.core) (k.stream w.eng) = s.runNext w := runAfter_congr rfl hr ha
  rw [retireAt, State.stream_core, h]
  simp only [Bool.false_eq_true, if_false, hrun, writeExits, ite_self]

/-- The pass that begins or would begin at the end of a pipelined body. -/
def Core.nextPass (k : Core) : Nat := (k.xs.spass.toNat + 1) % 2 ^ 33

def Core.raised (k : Core) : Core := { k with xs := { k.xs with spass := BitVec.ofNat 64 k.nextPass } }

theorem raised_spass (k : Core) : k.raised.xs.spass.toNat = k.nextPass := by
  have hlt : k.nextPass < 2 ^ 64 := lt_trans (Nat.mod_lt _ (by decide)) (by decide)
  simp only [Core.raised, BitVec.toNat_ofNat]
  exact Nat.mod_eq_of_lt hlt

/-- The check at the end of a pipelined body. -/
theorem afterCompletion_pipelined {e : Eng} {next : Word} {k : Core} {t : List LoopEnt} (hp : l.pipelined = true)
    (hle : l.start.toNat ≤ l.stop.toNat) : afterCompletion e l.stop next false false k (l :: t) [] =
      if k.nextPass < k.xs.skern.toNat + k.xs.sdrain.toNat then ⟨k.raised.stages.setLoops e (l :: t), l.start, false, []⟩
      else afterCompletion e l.stop next false false k.raised t [] := by
  have hin : ¬ l.stop.toNat < l.start.toNat := Nat.not_lt.mpr hle
  have hr := raised_spass k
  rw [Core.raised, Core.nextPass] at hr
  simp only [afterCompletion, hin, decide_false, Bool.or_self, Bool.false_eq_true, if_false, lt_irrefl, decide_true, Bool.not_false,
    Bool.and_self, if_true, hp, hr]
  rfl

variable (h : Acts s w) (hx : w.eng = .x) (hl : (s.stream w).loops = l :: rest) (hp : l.pipelined = true)
  (hpc : s.pcOf w = l.stop) (hle : l.start.toNat ≤ l.stop.toNat)
include h hx hl hp hpc hle

theorem nop_next_pass (hpass : (s.core w.core).nextPass < (s.core w.core).xs.skern.toNat + (s.core w.core).xs.sdrain.toNat)
    (hbusy : ∀ p ∈ [56, 57, 58, 59, 60, 61, 62, 63], (s.core w.core).predBusy p = false) :
    ∃ t, exec .nop s = .next t ∧ OnlyCore w.core s t ∧
      (∀ p < 64, (t.core w.core).pred p = if 56 ≤ p then stageOf (s.core w.core).nextPass (s.core w.core).xs.skern.toNat (p - 56)
        else (s.core w.core).pred p) ∧
      t.core w.core = { s.core w.core with
        xs := { (s.core w.core).xs with spass := BitVec.ofNat 64 (s.core w.core).nextPass, p := (t.core w.core).xs.p },
        x := { (s.core w.core).x with pc := l.start, run := s.runNext w, at_ := .free } } := by
  obtain ⟨hframe, hpred⟩ := stages_effect (k := (s.core w.core).raised) hbusy
  obtain ⟨K, hK⟩ : ∃ K, K = (s.core w.core).raised.stages := ⟨_, rfl⟩
  rw [← hK] at hframe hpred
  have hstr : K.stream w.eng = s.stream w := by rw [hframe, hx]; rw [← State.stream_core, hx]; rfl
  have hkeep : K.setLoops w.eng (l :: rest) = K := setLoops_same K _ _ (by rw [hstr, hl])
  have hchk : afterCompletion w.eng (s.pcOf w) (s.pcOf w + 4) false false (s.core w.core) (s.stream w).loops [] =
      ⟨K, l.start, false, []⟩ := by
    rw [hl, hpc, afterCompletion_pipelined hp hle, if_pos hpass, ← hK, hkeep]
  refine ⟨_, by rw [nop_retires h, retireAt_of_core hchk (by rw [hstr]) (by rw [hstr])], onlyCore_setCore _ _ _, fun p hlt => ?_, ?_⟩
  · have hset : ∀ e u, (K.setStream e u).pred p = K.pred p := fun e u => by cases e <;> rfl
    rw [State.core_setCore_self, hset, hpred p hlt, raised_spass]
    rfl
  · rw [State.core_setCore_self, hstr, hx, hframe, ← State.stream_core, hx]
    rfl

theorem nop_last_pass (hpass : (s.core w.core).xs.skern.toNat + (s.core w.core).xs.sdrain.toNat ≤ (s.core w.core).nextPass)
    (hrest : rest = []) :
    exec .nop s = .next (s.coreGoes w { s.core w.core with
      xs := { (s.core w.core).xs with spass := BitVec.ofNat 64 (s.core w.core).nextPass }, x := { (s.core w.core).x with loops := [] } }) := by
  subst hrest
  have hstr : s.stream w = (s.core w.core).x := by rw [← State.stream_core, hx]; rfl
  have hchk : afterCompletion w.eng (s.pcOf w) (s.pcOf w + 4) false false (s.core w.core) (s.stream w).loops [] =
      ⟨(s.core w.core).raised.setLoops w.eng [], s.pcOf w + 4, false, []⟩ := by
    rw [hl, hpc, afterCompletion_pipelined hp hle, if_neg (Nat.not_lt.mpr hpass), afterCompletion]
  have hset : (s.core w.core).raised.setLoops w.eng [] = { s.core w.core with
      xs := { (s.core w.core).xs with spass := BitVec.ofNat 64 (s.core w.core).nextPass }, x := { (s.core w.core).x with loops := [] } } := by
    rw [hx]
    rfl
  rw [hset] at hchk
  rw [nop_retires h, retireAt_of_core hchk (by rw [hx, hstr]; rfl) (by rw [hx, hstr]; rfl)]
  have hcore : ∀ K : Core, K.held = (s.core w.core).held → (K.stream w.eng).run = (s.stream w).run →
      (K.stream w.eng).at_ = (s.stream w).at_ → s.setCore w.core (K.setStream w.eng
        { K.stream w.eng with pc := s.pcOf w + 4, run := s.runNext w, at_ := .free }) = s.coreGoes w K := fun K hh hr ha => by
    have hrun : runAfter K (K.stream w.eng) = s.runNext w := runAfter_congr hh hr ha
    simp only [State.coreGoes, State.goTo, State.setStream, State.core_setCore_self, State.setCore_setCore, State.runNext, State.stream,
      hrun]
  exact congrArg _ (hcore _ rfl (by rw [hx, hstr]; rfl) (by rw [hx, hstr]; rfl))

end

/-! ## Lanes (R162) -/

section
variable {s : State} {w : Who} {d a b size : Nat}

theorem laneWidth_eq (h : size < 4) : laneWidth size = [4, 1, 2, 8].getD size 8 := by
  interval_cases size <;> rfl

/-- The elements after one of them has been replaced. -/
theorem vget_vput {n : Nat} (hn : n ∈ [1, 2, 4, 8]) (v : Vec) {i j : Nat} (hi : i < 512 / n) (x : Nat) (hj : j < 512 / n) :
    vget n (vput n v j x) i = if i = j then x % 2 ^ (8 * n) else vget n v i := by
  have hpos : 0 < n := by
    rcases List.mem_cons.mp hn with rfl | hn <;> simp_all <;> omega
  have hin : n * i + n ≤ 512 := by
    calc n * i + n = n * (i + 1) := by ring
      _ ≤ n * (512 / n) := Nat.mul_le_mul_left n hi
      _ ≤ 512 := Nat.mul_div_le 512 n
  apply Nat.eq_of_testBit_eq
  intro m
  by_cases hm : m < 8 * n
  · have hbyte : (8 * n * i + m) / 8 = n * i + m / 8 := by
      rw [mul_assoc, Nat.mul_add_div (by decide)]
    have hlt : 8 * n * i + m < 4096 := by
      rw [mul_assoc]
      omega
    have hgrd : (byteRange (n * j) n).getLsbD (n * i + m / 8) = decide (i = j) := by
      rw [byteRange_bit _ _ (by omega), decide_eq_decide]
      constructor
      · rintro ⟨hlo, hhi⟩
        have h1 : j < i + 1 := Nat.lt_of_mul_lt_mul_left (a := n) (by rw [mul_add, mul_one]; omega)
        have h2 : i < j + 1 := Nat.lt_of_mul_lt_mul_left (a := n) (by rw [mul_add, mul_one]; omega)
        omega
      · rintro rfl
        omega
    rw [vget_testBit _ _ hm, vput, mergeVec_bit _ _ _ _ hlt, hbyte, hgrd]
    by_cases hij : i = j
    · subst hij
      simp only [decide_true, if_true]
      rw [BitVec.getLsbD_ofNat, decide_eq_true hlt, Bool.true_and, Nat.testBit_mul_two_pow]
      simp
    · simp only [hij, decide_false, Bool.false_eq_true, if_false, vget_testBit _ _ hm]
  · have hbig : ∀ y, y < 2 ^ (8 * n) → y.testBit m = false := fun y hy =>
      Nat.testBit_lt_two_pow (lt_of_lt_of_le hy (Nat.pow_le_pow_right (by decide) (Nat.not_lt.mp hm)))
    rw [hbig _ (vget_lt _ _ _)]
    split
    · rw [hbig _ (Nat.mod_lt _ (Nat.two_pow_pos _))]
    · rw [hbig _ (vget_lt _ _ _)]

theorem vext_writes (h : CanRun s w [a, b, d] 4) (hx : w.eng = .x) (hf : (s.core w.core).vecFull a = true) (sx : Bool) :
    WritesReg (.vext d a b sx size) s w d (if sx
      then BitVec.ofInt 64 (signedField (vget (laneWidth size) ((s.core w.core).vec a) ((regOf s w b).toNat % (512 / laneWidth size)))
        (8 * laneWidth size))
      else BitVec.ofNat 64 (vget (laneWidth size) ((s.core w.core).vec a) ((regOf s w b).toNat % (512 / laneWidth size)))) := by
  obtain ⟨hact, hfull, hst⟩ := h
  change ∃ t, execVext d a b sx size s = _ ∧ _
  simp only [execVext, whoOn_x_of_acts hact hx, needRegs_of_full _ (hfull.subset (show [b] ⊆ [a, b, d] by simp)), hf, Bool.not_true,
    Bool.false_eq_true, if_false, laneIndex]
  exact finish_putReg hst (hfull d (by simp))

theorem vins_writes (h : CanRun s w [a, b, d] 4) (hx : w.eng = .x) (hd : (s.core w.core).vecFull d = true) :
    exec (.vins d a b size) s = .next (s.coreGoes w { s.core w.core with xs := { (s.core w.core).xs with
      v := tset (s.core w.core).xs.v ((s.core w.core).phys d)
        (vput (laneWidth size) ((s.core w.core).vec d) ((regOf s w b).toNat % (512 / laneWidth size)) (regOf s w a).toNat) } }) := by
  obtain ⟨hact, hfull, hst⟩ := h
  change execVins d a b size s = _
  simp only [execVins, whoOn_x_of_acts hact hx, needRegs_of_full _ (hfull.subset (show [a, b] ⊆ [a, b, d] by simp)), hd, Bool.not_true,
    Bool.false_eq_true, if_false, laneIndex]
  exact finish_xs hst

/-! ## Queue control (R163, R164) -/

theorem qcnt_writes (h : CanRun s w [a, b, d] 4) (hx : w.eng = .x) (w8 : Bool) : WritesReg (.qcnt d a w8) s w d
    (BitVec.ofNat 64 (if w8 then 8 - ((s.core w.core).wOf a).length else (s.core w.core).qPresent a)) := by
  refine constant_writes (h.subset (by simp)) ?_
  change execQcnt d a w8 s = _
  rw [execQcnt, whoOn_x_of_acts h.1 hx]

theorem qdrop_finish (h : CanRun s w [a, b, d] 4) (hx : w.eng = .x) : exec (.qdrop a b) s = finish w 4 s
    (if 8 < (regOf s w b).toNat then .raise 0x02 (opTval (.qdrop a b) false 7)
     else if (s.core w.core).qPresent a < (regOf s w b).toNat then .wait
     else .ok (s.setCore w.core ((s.core w.core).setQ a (((s.core w.core).qOf a).drop (regOf s w b).toNat))) .seq) := by
  change execQdrop a b s = _
  simp only [execQdrop, whoOn_x_of_acts h.1 hx, needRegs_of_full _ (h.2.1.subset (show [b] ⊆ [a, b, d] by simp))]

theorem qdropNw_finish (h : CanRun s w [a, b, d] 4) (hx : w.eng = .x) : exec (.qdropNw d a b) s = finish w 4 s
    (if 8 < (regOf s w b).toNat then .raise 0x02 (opTval (.qdropNw d a b) false 7)
     else .ok (putReg (s.setCore w.core ((s.core w.core).setQ a
        (((s.core w.core).qOf a).drop (min (regOf s w b).toNat ((s.core w.core).qPresent a))))) w d
          (BitVec.ofNat 64 (min (regOf s w b).toNat ((s.core w.core).qPresent a)))) .seq) := by
  change execQdropNw d a b s = _
  simp only [execQdropNw, whoOn_x_of_acts h.1 hx, needRegs_of_full _ (h.2.1.subset (show [b] ⊆ [a, b, d] by simp))]

theorem qdrop_traps (h : CanRun s w [a, b, d] 4) (hx : w.eng = .x) (hn : 8 < (regOf s w b).toNat) :
    Traps (.qdrop a b) s w 0x02 (opTval (.qdrop a b) false 7) ∧ Traps (.qdropNw d a b) s w 0x02 (opTval (.qdropNw d a b) false 7) := by
  constructor
  · rw [Traps, qdrop_finish h hx, if_pos hn]
    rfl
  · rw [Traps, qdropNw_finish h hx, if_pos hn]
    rfl

theorem qdrop_waits (h : CanRun s w [a, b, d] 4) (hx : w.eng = .x) (hn : (regOf s w b).toNat ≤ 8)
    (hp : (s.core w.core).qPresent a < (regOf s w b).toNat) :
    exec (.qdrop a b) s = .next (s.setStream w { s.stream w with run := .waiting }) := by
  rw [qdrop_finish h hx, if_neg (Nat.not_lt.mpr hn), if_pos hp]
  rfl

theorem setQ_stream (k : Core) (n : Nat) (l : List QEnt) (e : Eng) : (k.setQ n l).stream e = k.stream e := by cases e <;> rfl

theorem qdrop_drops (h : CanRun s w [a, b, d] 4) (hx : w.eng = .x) (hn : (regOf s w b).toNat ≤ 8)
    (hp : (regOf s w b).toNat ≤ (s.core w.core).qPresent a) : exec (.qdrop a b) s =
      .next (s.coreGoes w ((s.core w.core).setQ a (((s.core w.core).qOf a).drop (regOf s w b).toNat))) := by
  rw [qdrop_finish h hx, if_neg (Nat.not_lt.mpr hn), if_neg (Nat.not_lt.mpr hp)]
  exact finish_coreGoes h.2.2 rfl (by rw [setQ_stream]; rfl) (by rw [setQ_stream]; rfl)

/-- A change of the queues that a write of a register follows says nothing of the rest. -/
theorem wrote_beside_q {u : Stream} (Q : Tbl (List QEnt)) (next : Word) :
    (((s.setCore w.core { s.core w.core with q := Q }).setStream w u).goTo w next).setCore w.core
      { (((s.setCore w.core { s.core w.core with q := Q }).setStream w u).goTo w next).core w.core with q := (s.core w.core).q } =
      (s.setStream w u).goTo w next := by
  rcases w with ⟨c, e⟩
  cases e <;> simp [State.goTo, State.setStream, State.stream, Core.setStream, Core.stream, State.runNext, runAfter]

theorem qdropNw_drops (h : CanRun s w [a, b, d] 4) (hx : w.eng = .x) (hn : (regOf s w b).toNat ≤ 8) :
    ∃ t, exec (.qdropNw d a b) s = .next t ∧
      (t.core w.core).q = tset (s.core w.core).q a (((s.core w.core).qOf a).drop (min (regOf s w b).toNat ((s.core w.core).qPresent a))) ∧
      Wrote s (t.setCore w.core { t.core w.core with q := (s.core w.core).q }) w d
        (BitVec.ofNat 64 (min (regOf s w b).toNat ((s.core w.core).qPresent a))) (s.pcOf w + 4) 0 (s.stream w).dph := by
  obtain ⟨hact, hfull, hst⟩ := h
  obtain ⟨Q, hQ⟩ : ∃ Q, Q = tset (s.core w.core).q a
    (((s.core w.core).qOf a).drop (min (regOf s w b).toNat ((s.core w.core).qPresent a))) := ⟨_, rfl⟩
  have hset : (s.core w.core).setQ a (((s.core w.core).qOf a).drop (min (regOf s w b).toNat ((s.core w.core).qPresent a))) =
      { s.core w.core with q := Q } := by rw [hQ]; rfl
  have hstr : (s.setCore w.core { s.core w.core with q := Q }).stream w = s.stream w := by
    rw [← State.stream_core, State.core_setCore_self, ← State.stream_core]
    cases w.eng <;> rfl
  refine ⟨((s.setCore w.core { s.core w.core with q := Q }).setStream w
    ((s.stream w).put d (BitVec.ofNat 64 (min (regOf s w b).toNat ((s.core w.core).qPresent a))))).goTo w (s.pcOf w + 4), ?_, ?_, ?_⟩
  · rw [qdropNw_finish ⟨hact, hfull, hst⟩ hx, if_neg (Nat.not_lt.mpr hn), hset,
      putReg_full (by rw [hstr]; exact hfull d (by simp)), hstr, finish]
    exact congrArg _ (retire_stays hst (by rw [State.stream_setStream_self, Stream.put_loops])
      (by rw [State.stream_setStream_self, Stream.put_pc]))
  · rw [← hQ]
    simp [State.goTo]
  · rw [wrote_beside_q]
    exact wrote_put_only _ _ _ _ _

/-! ## LOOPP (R165) -/

variable {e : Nat} {imm : Int}

theorem loopp_finish (h : Acts s w) (hx : w.eng = .x) : exec (.loopp e a imm) s = finish w 4 s (
    if imm < 1 then .raise 0x02 (opTval (.loopp e a imm) false 0)
    else needRegs s w [a] (
      if 2 ^ 32 ≤ (regOf s w a).toNat then .raise 0x02 (opTval (.loopp e a imm) false 13)
      else if (s.stream w).loops.any LoopEnt.pipelined then .raise 0x02 (opTval (.loopp e a imm) false 25)
      else if regOf s w a = 0 then .ok s (.jump (afterBody s w (offTarget (s.pcOf w) imm)) false)
      else .ok (s.setCore w.core (Core.stages { s.core w.core with
        x := { s.stream w with loops := ⟨true, s.pcOf w + 4, offTarget (s.pcOf w) imm, 0⟩ :: (s.stream w).loops },
        xs := { (s.core w.core).xs with spass := 0, skern := regOf s w a, sdrain := BitVec.ofNat 64 e } })) .seq)) := by
  change execLoopp e a imm s = _
  rw [execLoopp, whoOn_x_of_acts h hx]
  rfl

theorem loopp_runs (h : CanRun s w [a, b, d] 4) (hx : w.eng = .x) (hi : 1 ≤ imm) : exec (.loopp e a imm) s = finish w 4 s (
    if 2 ^ 32 ≤ (regOf s w a).toNat then .raise 0x02 (opTval (.loopp e a imm) false 13)
    else if (s.stream w).loops.any LoopEnt.pipelined then .raise 0x02 (opTval (.loopp e a imm) false 25)
    else if regOf s w a = 0 then .ok s (.jump (afterBody s w (offTarget (s.pcOf w) imm)) false)
    else .ok (s.setCore w.core (Core.stages { s.core w.core with
      x := { s.stream w with loops := ⟨true, s.pcOf w + 4, offTarget (s.pcOf w) imm, 0⟩ :: (s.stream w).loops },
      xs := { (s.core w.core).xs with spass := 0, skern := regOf s w a, sdrain := BitVec.ofNat 64 e } })) .seq) := by
  rw [loopp_finish h.1 hx, if_neg (Int.not_lt.mpr hi), needRegs_of_full _ (h.2.1.subset (by simp))]

theorem loopp_traps_offset (h : Acts s w) (hx : w.eng = .x) (hi : imm < 1) :
    Traps (.loopp e a imm) s w 0x02 (opTval (.loopp e a imm) false 0) := by
  rw [Traps, loopp_finish h hx, if_pos hi]
  rfl

theorem loopp_traps_count (h : CanRun s w [a, b, d] 4) (hx : w.eng = .x) (hi : 1 ≤ imm) (hc : 2 ^ 32 ≤ (regOf s w a).toNat) :
    Traps (.loopp e a imm) s w 0x02 (opTval (.loopp e a imm) false 13) := by
  rw [Traps, loopp_runs h hx hi, if_pos hc]
  rfl

theorem loopp_traps_nested (h : CanRun s w [a, b, d] 4) (hx : w.eng = .x) (hi : 1 ≤ imm) (hc : (regOf s w a).toNat < 2 ^ 32)
    (hl : (s.stream w).loops.any LoopEnt.pipelined = true) : Traps (.loopp e a imm) s w 0x02 (opTval (.loopp e a imm) false 25) := by
  rw [Traps, loopp_runs h hx hi, if_neg (Nat.not_le.mpr hc), if_pos hl]
  rfl

theorem loopp_skips {x : Nat} (h : CanRun s w [a, b, d] 4) (hx : w.eng = .x) (hi : 1 ≤ imm) (hc : (regOf s w a).toNat = 0)
    (hl : (s.stream w).loops.any LoopEnt.pipelined = false) (hw : fetchWord s w (offTarget (s.pcOf w) imm).toNat 2 = .ok x)
    (hst : StaysIn (s.stream w) (if x / 2 ^ 30 % 4 = 3 then offTarget (s.pcOf w) imm + 8 else offTarget (s.pcOf w) imm + 4) true false) :
    exec (.loopp e a imm) s =
      .next (s.goTo w (if x / 2 ^ 30 % 4 = 3 then offTarget (s.pcOf w) imm + 8 else offTarget (s.pcOf w) imm + 4)) := by
  have hafter : afterBody s w (offTarget (s.pcOf w) imm) =
      if x / 2 ^ 30 % 4 = 3 then offTarget (s.pcOf w) imm + 8 else offTarget (s.pcOf w) imm + 4 := by
    simp [afterBody, hw, isLong, fld]
  have hz : regOf s w a = 0 := BitVec.eq_of_toNat_eq hc
  rw [loopp_runs h hx hi, hc, if_neg (by decide), hl, if_neg Bool.false_ne_true, if_pos hz, hafter, finish_jump hst]

theorem loopp_opens (h : CanRun s w [a, b, d] 4) (hx : w.eng = .x) (hi : 1 ≤ imm) (hpos : 0 < (regOf s w a).toNat)
    (hc : (regOf s w a).toNat < 2 ^ 32) (hl : (s.stream w).loops.any LoopEnt.pipelined = false) (hpc : (s.pcOf w).toNat + 4 < 2 ^ 64)
    (hbusy : ∀ p ∈ [56, 57, 58, 59, 60, 61, 62, 63], (s.core w.core).predBusy p = false) :
    ∃ t, exec (.loopp e a imm) s = .next t ∧ OnlyCore w.core s t ∧
      (t.core w.core).xs = { (s.core w.core).xs with
        spass := 0, skern := regOf s w a, sdrain := BitVec.ofNat 64 e, p := (t.core w.core).xs.p } ∧
      (∀ p < 64, (t.core w.core).pred p =
        if 56 ≤ p then (if p = 56 then BitVec.allOnes 512 else 0) else (s.core w.core).pred p) ∧
      t.core w.core = { s.core w.core with xs := (t.core w.core).xs, x := { (s.core w.core).x with
        pc := s.pcOf w + 4, run := s.runNext w, at_ := .free,
        loops := ⟨true, s.pcOf w + 4, offTarget (s.pcOf w) imm, 0⟩ :: (s.core w.core).x.loops } } := by
  have hne : ¬ regOf s w a = 0 := fun h0 => by simp [h0] at hpos
  have hxs : s.stream w = (s.core w.core).x := by rw [← State.stream_core, hx]; rfl
  obtain ⟨K0, hK0⟩ : ∃ K0 : Core, K0 = { s.core w.core with
      x := { s.stream w with loops := ⟨true, s.pcOf w + 4, offTarget (s.pcOf w) imm, 0⟩ :: (s.stream w).loops },
      xs := { (s.core w.core).xs with spass := 0, skern := regOf s w a, sdrain := BitVec.ofNat 64 e } } := ⟨_, rfl⟩
  have hbusy0 : ∀ p ∈ [56, 57, 58, 59, 60, 61, 62, 63], K0.predBusy p = false := by
    rw [hK0, hxs]
    exact hbusy
  obtain ⟨hframe, hpred⟩ := stages_effect hbusy0
  obtain ⟨K, hK⟩ : ∃ K, K = K0.stages := ⟨_, rfl⟩
  rw [← hK] at hframe hpred
  have hstr : (s.setCore w.core K).stream w =
      { s.stream w with loops := ⟨true, s.pcOf w + 4, offTarget (s.pcOf w) imm, 0⟩ :: (s.stream w).loops } := by
    rw [← State.stream_core, State.core_setCore_self, hframe, hK0, hx]
    rfl
  have hstay : StaysIn ((s.setCore w.core K).stream w) (((s.setCore w.core K).stream w).pc + BitVec.ofNat 64 4) false false := by
    rw [hstr]
    refine Or.inl ?_
    have hadd : (s.pcOf w + 4).toNat = (s.pcOf w).toNat + 4 := by
      rw [BitVec.toNat_add]
      exact Nat.mod_eq_of_lt hpc
    change (s.pcOf w).toNat < (s.pcOf w + 4).toNat
    omega
  have hexec : exec (.loopp e a imm) s = .next ((s.setCore w.core K).goTo w (s.pcOf w + 4)) := by
    rw [loopp_runs h hx hi, if_neg (Nat.not_le.mpr hc), hl, if_neg Bool.false_ne_true, if_neg hne, ← hK0, ← hK, finish, retire,
      retireAt_stays hstay, hstr]
    rfl
  have hheld : K.held = (s.core w.core).held := by rw [hframe, hK0]
  have hgo : ((s.setCore w.core K).goTo w (s.pcOf w + 4)).core w.core = K.setStream .x { s.stream w with
      loops := ⟨true, s.pcOf w + 4, offTarget (s.pcOf w) imm, 0⟩ :: (s.stream w).loops,
      pc := s.pcOf w + 4, run := s.runNext w, at_ := .free } := by
    have hrun : (s.setCore w.core K).runNext w = s.runNext w := by
      rw [State.runNext, hstr, State.core_setCore_self]
      exact runAfter_congr hheld rfl rfl
    rw [State.goTo, hrun, State.core_setStream_self, State.core_setCore_self, hstr, hx]
  refine ⟨_, hexec, ?_, ?_, fun p hp => ?_, ?_⟩
  · rw [State.goTo, State.setStream, State.setCore_setCore]
    exact onlyCore_setCore _ _ _
  · rw [hgo, hframe, hK0]
    rfl
  · have hset : ∀ u, (K.setStream .x u).pred p = K.pred p := fun _ => rfl
    rw [hgo, hset, hpred p hp]
    by_cases h56 : 56 ≤ p
    · rw [if_pos h56, if_pos h56, hK0]
      refine if_congr ?_ rfl rfl
      change (p - 56 ≤ 0 ∧ 0 - (p - 56) < (regOf s w a).toNat) ↔ p = 56
      omega
    · rw [if_neg h56, if_neg h56, hK0]
      rfl
  · rw [hgo, hframe, hK0, hxs]
    rfl

end

/-- Settles O23: the passes of a pipelined loop, and the lane and queue forms one by one. -/
theorem lanesAndQueues : Obligations.LanesAndQueues := by
  refine ⟨fun s w l rest hact hx hl hp hpc hle => ⟨nop_next_pass hact hx hl hp hpc hle, nop_last_pass hact hx hl hp hpc hle⟩, ?_⟩
  intro s w d a b e size imm hrun hx hsize
  have hmem : laneWidth size ∈ [1, 2, 4, 8] := by interval_cases size <;> decide
  have hpos : 0 < 512 / laneWidth size := by interval_cases size <;> decide
  simp only [← laneWidth_eq hsize, ← offTarget_eq]
  exact ⟨fun ha => ⟨vext_writes hrun hx ha false, vext_writes hrun hx ha true⟩,
    fun hd => ⟨_, vins_writes hrun hx hd, fun i hi => vget_vput hmem _ hi _ (Nat.mod_lt _ hpos)⟩,
    qcnt_writes hrun hx false, qcnt_writes hrun hx true, qdrop_traps hrun hx, qdrop_waits hrun hx, qdrop_drops hrun hx,
    qdropNw_drops hrun hx, loopp_traps_offset hrun.1 hx, loopp_traps_count hrun hx, loopp_traps_nested hrun hx,
    fun x hi hc hl hw hst => loopp_skips hrun hx hi hc hl hw hst,
    fun hi hpos hc hl _ hpc hbusy => loopp_opens hrun hx hi hpos hc hl hpc hbusy⟩

end Sys2Proof.Machine
end

section
/-! SUPPORT. Long forms of the execute engine by their elements: what every one gives that only computes (R33, R65, R152), and the
obligation about integer arithmetic (R169, R171). -/

namespace Sys2Proof.Machine

/-! ## A form with its result -/

/-- The form that a word with this shape runs as. -/
def XShape.form (h : XShape) (i : Instr) : XForm := ⟨i, h.ctl, h.srcs, h.target, h.rnd, h.long, h.guardOp⟩

section
variable {i : Instr} {s : State} {w : Who} {h : XShape} {check : List SVal → Option Res} {body : Pred → Nat → List SVal → XOut}
  {o : XOut}

theorem overflows_false (t : Stream) {fl : Word} (h : fl &&& fAovf = 0) : overflows t fl = false := by simp [overflows, h]

/-- A form that nothing stops gives what its body computes, unless a saturated window ends it. -/
theorem xForm_does_of (hcan : XCan i s w) (hs : xShape i = some h) (hi : exec i s = xFrame (h.form i) check body s)
    (hc : check (sourceVals (s.core w.core) h.srcs) = none)
    (ho : body ((s.core w.core).pred h.ctl.guard) (s.stream w).phase (sourceVals (s.core w.core) h.srcs) = o)
    (hov : (h.form i).latent = true ∨ overflows (s.stream w) o.flags = false) : XDoes i s w o := by
  obtain ⟨_, sh, hsh, hready⟩ := hcan
  obtain rfl : h = sh := Option.some.inj (hs.symm.trans hsh)
  obtain ⟨t, ht, heff⟩ := xFrame_runs (f := h.form i) hready hc ho hov
  exact ⟨_, t, hs, hi.trans ht, heff⟩

theorem of_no_aovf (v : Vec) : (XRes.of v).out.flags &&& fAovf = 0 := by
  change (0 : Word) &&& fAovf = 0
  decide

/-- A form without a window. -/
theorem xForm_does (hcan : XCan i s w) (hs : xShape i = some h) (hi : exec i s = xFrame (h.form i) check body s)
    (hc : check (sourceVals (s.core w.core) h.srcs) = none)
    (ho : body ((s.core w.core).pred h.ctl.guard) (s.stream w).phase (sourceVals (s.core w.core) h.srcs) = o)
    (hfl : o.flags &&& fAovf = 0) : XDoes i s w o :=
  xForm_does_of hcan hs hi hc ho (.inr (overflows_false _ hfl))

/-- One whose result is a whole vector without a flag. -/
theorem xForm_gives {res : XRes} {v : Vec} (hcan : XCan i s w) (hs : xShape i = some h) (hi : exec i s = xFrame (h.form i) check body s)
    (hc : check (sourceVals (s.core w.core) h.srcs) = none)
    (ho : body ((s.core w.core).pred h.ctl.guard) (s.stream w).phase (sourceVals (s.core w.core) h.srcs) = res.out)
    (hv : res = XRes.of v) : XDoes i s w (XRes.of v).out := by
  subst hv
  exact xForm_does hcan hs hi hc ho (of_no_aovf v)

theorem XCan.wf (h : XCan i s w) : i.wf .x = true := h.1

end

/-! ## Elements of a result -/

section
variable {i : Instr} {s : State} {w : Who} {ty : Ty}

/-- A result that is a list of elements without a flag. -/
theorem xElements_of_list {l : List Nat} {f : Nat → Nat} (h : XDoes i s w (XRes.of (vecOfEls ty.width l)).out)
    (hf : ∀ j < 512 / ty.width, l.getD j 0 % 2 ^ (8 * ty.width) = f j) : XElements i s w ty f :=
  ⟨_, h, rfl, rfl, fun j hj => (vget_vecOfEls l hj).trans (hf j hj)⟩

theorem getD_map_range {α : Type} (f : Nat → α) (d : α) {n j : Nat} (hj : j < n) : ((List.range n).map f).getD j d = f j := by
  simp [List.getD, hj]

/-- One that is computed element by element. -/
theorem xElements_of_range {f g : Nat → Nat}
    (h : XDoes i s w (XRes.of (vecOfEls ty.width ((List.range (512 / ty.width)).map g))).out)
    (hf : ∀ j < 512 / ty.width, g j % 2 ^ (8 * ty.width) = f j) : XElements i s w ty f :=
  xElements_of_list h fun j hj => by rw [getD_map_range _ _ hj, hf j hj]

theorem getD_map_els (g : Nat → Nat) (W : Nat) (v : Vec) {j : Nat} (hj : j < 512 / W) : ((els W v).map g).getD j 0 = g (vget W v j) := by
  rw [els, List.map_map, getD_map_range _ _ hj]
  rfl

theorem map2_eq (W : Nat) (f : Nat → Nat → Nat) (a b : Vec) :
    map2 W f a b = vecOfEls W ((List.range (512 / W)).map (fun j => f (vget W a j) (vget W b j))) := by
  rw [map2, els, els, List.zipWith_map, List.zipWith_self]

/-- A bit of a union of flags. -/
theorem getLsbD_foldl_or {α : Type} (g : α → Word) (l : List α) (z : Word) (m : Nat) :
    (l.foldl (fun f x => f ||| g x) z).getLsbD m = (z.getLsbD m || l.any (fun x => (g x).getLsbD m)) := by
  induction l generalizing z with
  | nil => simp
  | cons x t ih => rw [List.foldl_cons, ih, BitVec.getLsbD_or, List.any_cons, Bool.or_assoc]

theorem foldl_or_no_aovf {α : Type} (g : α → Word) (l : List α) (z : Word) (hz : z &&& fAovf = 0) (hg : ∀ x ∈ l, g x &&& fAovf = 0) :
    l.foldl (fun f x => f ||| g x) z &&& fAovf = 0 := by
  induction l generalizing z with
  | nil => exact hz
  | cons x t ih => exact ih _ (or_and_zero hz (hg x (by simp))) fun y hy => hg y (List.mem_cons_of_mem _ hy)

theorem collect_no_aovf {W : Nat} {l : List (Nat × Word)} (h : ∀ x ∈ l, x.2 &&& fAovf = 0) : (collect W l).flags &&& fAovf = 0 :=
  foldl_or_no_aovf (fun x : Nat × Word => x.2) l 0 (by decide) h

/-- A result whose elements are rounded one by one. -/
theorem xRounded_of_range {g : Nat → Nat × Word}
    (h : XDoes i s w (collect ty.width ((List.range (512 / ty.width)).map g)).out)
    (hg : ∀ j < 512 / ty.width, (g j).1 < 2 ^ (8 * ty.width)) : XRounded i s w ty g := by
  refine ⟨_, h, rfl, fun j hj => ?_, fun m _ => ?_⟩
  · have hlist : (((List.range (512 / ty.width)).map g).map Prod.fst).getD j 0 = (g j).1 := by
      rw [List.map_map, getD_map_range _ _ hj]
      rfl
    exact (vget_vecOfEls _ hj).trans (by rw [hlist, Nat.mod_eq_of_lt (hg j hj)])
  · change (((List.range (512 / ty.width)).map g).foldl (fun f (x : Nat × Word) => f ||| x.2) 0).getLsbD m = _
    rw [getLsbD_foldl_or, getLsbD_lit_zero, Bool.false_or, List.any_map]
    rfl

end

/-! ## Integer arithmetic (R169, R171) -/

section
variable {s : State} {w : Who} {d : XDst} {a b z : XSrc} {ty : Ty} {sat : Bool} {c : XCtl}

theorem clamp_eq (t : Ty) (x : Int) : t.clamp x = max t.intMin (min t.intMax x) := by
  have hle : t.intMin ≤ t.intMax := by
    unfold Ty.intMin Ty.intMax
    have h1 : (0 : Int) < (2 ^ (8 * t.width - 1) : Nat) := by positivity
    have h2 : (0 : Int) < (2 ^ (8 * t.width) : Nat) := by positivity
    split <;> omega
  unfold Ty.clamp
  split
  · omega
  · split <;> omega

/-- What narrows an exact result (R169). -/
theorem narrowInt_eq (t : Ty) (sat : Bool) (x : Int) :
    narrowInt t sat x = ((if sat then max t.intMin (min t.intMax x) else x) % (2 ^ (8 * t.width) : Nat)).toNat := by
  rw [narrowInt, wrapTo, clamp_eq]

theorem narrowInt_lt (t : Ty) (sat : Bool) (x : Int) : narrowInt t sat x < 2 ^ (8 * t.width) := wrapTo_lt _ _

/-- An operation on pairs of elements, without a flag. -/
theorem map2_elements {i : Instr} {op : Vec → Vec → XRes} {g : Nat → Nat → Nat} {f : Nat → Nat} (h : XCan i s w)
    (hs : xShape i = some ⟨c, [a, b], .vec d, .rne, false, false⟩) (hi : exec i s = map2Form (form i d [a, b] c) ty op s)
    (hop : ∀ x y, op x y = XRes.of (map2 ty.width g x y)) (hlt : ∀ x y, x < 2 ^ (8 * ty.width) → y < 2 ^ (8 * ty.width) → g x y < 2 ^ (8 * ty.width))
    (hf : ∀ j, g (vget ty.width (xIn s w [a, b] 0 ty) j) (vget ty.width (xIn s w [a, b] 1 ty) j) = f j) : XElements i s w ty f := by
  have hdoes := map2Form_does h hs hi (by rw [hop]; rfl)
  rw [hop, map2_eq] at hdoes
  exact xElements_of_range hdoes fun j _ => by rw [Nat.mod_eq_of_lt (hlt _ _ (vget_lt _ _ _) (vget_lt _ _ _)), hf]

theorem vmad_elements (h : XCan (.vmad d a b z ty sat c) s w) : XElements (.vmad d a b z ty sat c) s w ty (fun j =>
    narrowInt ty sat (ty.readInt (vget ty.width (xIn s w [a, b, z] 0 ty) j) * ty.readInt (vget ty.width (xIn s w [a, b, z] 1 ty) j) +
      ty.readInt (vget ty.width (xIn s w [a, b, z] 2 ty) j))) := by
  have hdoes := xForm_gives (check := noCheck)
    (body := fun _ _ v => (vMad ty sat ((src v 0).as ty) ((src v 1).as ty) ((src v 2).as ty)).out)
    (res := vMad ty sat (xIn s w [a, b, z] 0 ty) (xIn s w [a, b, z] 1 ty) (xIn s w [a, b, z] 2 ty)) h rfl rfl rfl rfl rfl
  exact xElements_of_range hdoes fun j _ => Nat.mod_eq_of_lt (narrowInt_lt _ _ _)

theorem vabs_elements {f : Nat → Nat} (h : XCan (.vabs d a ty sat c) s w)
    (hf : ∀ j < 512 / ty.width, absEl ty sat (vget ty.width (xIn s w [a] 0 ty) j) % 2 ^ (8 * ty.width) = f j) :
    XElements (.vabs d a ty sat c) s w ty f := by
  have hdoes := xForm_gives (check := noCheck) (body := fun _ _ v => (vAbs ty sat ((src v 0).as ty)).out) (res := vAbs ty sat (xIn s w [a] 0 ty)) h rfl rfl rfl rfl rfl
  exact xElements_of_list hdoes fun j hj => by rw [getD_map_els _ _ _ hj, hf j hj]

theorem vabs_int_elements (hty : ty.isInt = true) (h : XCan (.vabs d a ty sat c) s w) : XElements (.vabs d a ty sat c) s w ty
    (fun j => narrowInt ty sat (ty.readInt (vget ty.width (xIn s w [a] 0 ty) j)).natAbs) :=
  vabs_elements h fun j _ => by rw [absEl, if_pos hty, Nat.mod_eq_of_lt (narrowInt_lt _ _ _)]

/-- The order of R86 on integers. -/
theorem below_ofInt (x y : Int) : (Num.ofInt x).below (Num.ofInt y) = decide (x < y) := by
  have hs : ∀ v : Int, scaledInt (decide (v < 0)) v.natAbs 0 0 = v := fun v => by
    by_cases hv : v < 0
    · simp [scaledInt, hv, abs_of_neg]
    · simp [scaledInt, hv, abs_of_nonneg (not_lt.mp hv)]
  have hc : (Num.ofInt x).cmp (Num.ofInt y) = compare x y := by
    simp only [Num.ofInt, Num.cmp, min_self, hs]
  unfold Num.below
  rw [hc]
  rcases lt_trichotomy x y with h | rfl | h
  · rw [compare_lt_iff_lt.mpr h, decide_eq_true h]
  · have hcmp : compare x x = .eq := compare_eq_iff_eq.mpr rfl
    rw [hcmp, decide_eq_false (lt_irrefl x)]
    simp [Num.ofInt, Num.sign, Num.isZero]
  · rw [compare_gt_iff_gt.mpr h, decide_eq_false (lt_asymm h)]

theorem elemNum_int (hty : ty.isInt = true) (x : Nat) : elemNum ty x = Num.ofInt (ty.readInt x) := if_pos hty

theorem canon_int (hty : ty.isInt = true) (x : Nat) : canon ty x = x := by simp [canon, hty]

theorem isNan_ofInt (x : Int) : (Num.ofInt x).isNan = false := rfl

theorem minEl_int (hty : ty.isInt = true) (x y : Nat) : minEl ty x y = if ty.readInt y < ty.readInt x then y else x := by
  simp only [minEl, canon_int hty, elemNum_int hty, minTakes, below_ofInt, isNan_ofInt, Bool.false_eq_true, if_false, decide_eq_true_eq]

theorem maxEl_int (hty : ty.isInt = true) (x y : Nat) : maxEl ty x y = if ty.readInt x < ty.readInt y then y else x := by
  simp only [maxEl, canon_int hty, elemNum_int hty, maxTakes, below_ofInt, isNan_ofInt, Bool.false_eq_true, if_false, decide_eq_true_eq]

theorem vget_xIn_ite {p : Prop} [Decidable p] {l : List XSrc} {j : Nat} : (if p then vget ty.width (xIn s w l 1 ty) j
    else vget ty.width (xIn s w l 0 ty) j) = vget ty.width (xIn s w l (if p then 1 else 0) ty) j := by
  split <;> rfl

end

/-- Settles O25, form by form. -/
theorem vectorIntegers : Obligations.VectorIntegers := by
  intro s w d a b z ty sat c hty M fit el
  have hfit : ∀ x, fit x = narrowInt ty sat x := fun x => (narrowInt_eq ty sat x).symm
  simp only [hfit]
  have hpos : (0 : Int) ≤ (2 ^ (8 * ty.width) : Nat) := Int.natCast_nonneg _
  refine ⟨fun h => map2_elements h rfl rfl (fun _ _ => rfl) (fun _ _ _ _ => narrowInt_lt _ _ _) fun _ => rfl,
    fun h => map2_elements h rfl rfl (fun _ _ => rfl) (fun _ _ _ _ => narrowInt_lt _ _ _) fun _ => rfl,
    fun h => map2_elements h rfl rfl (fun _ _ => rfl) (fun _ _ _ _ => narrowInt_lt _ _ _) fun _ => rfl,
    fun h => map2_elements h rfl rfl (fun _ _ => rfl) (fun _ _ _ _ => wrapTo_lt _ _) fun j => ?_,
    vmad_elements, vabs_int_elements hty,
    fun h => map2_elements (g := minEl ty) h rfl rfl (fun _ _ => rfl) (fun x y hx hy => ?_) fun j => ?_,
    fun h => map2_elements (g := maxEl ty) h rfl rfl (fun _ _ => rfl) (fun x y hx hy => ?_) fun j => ?_⟩
  · rw [wrapTo, Int.fdiv_eq_ediv_of_nonneg _ hpos]
  · rw [minEl_int hty]
    split <;> assumption
  · rw [minEl_int hty]
    exact vget_xIn_ite
  · rw [maxEl_int hty]
    split <;> assumption
  · rw [maxEl_int hty]
    exact vget_xIn_ite

end Sys2Proof.Machine
end

section
/-! SUPPORT. Rounded elements: their codes fit their format, and none sets `aovf` (R66, R76, R78); vector float arithmetic (R172), with the
obligation about it. -/

namespace Sys2Proof.Machine

/-! ## Flags of the exact operations -/

theorem no_aovf_of_nv {fl : Word} (h : fl = 0 ∨ fl = fNv) : fl &&& fAovf = 0 := by
  rcases h with rfl | rfl <;> decide

theorem mul_flags (x y : Num) : (Num.mul x y).flags = 0 ∨ (Num.mul x y).flags = fNv := by
  cases x <;> cases y <;> simp only [Num.mul] <;> (try split) <;> simp

theorem add_flags (rdn : Bool) (x y : Num) : (Num.add rdn x y).flags = 0 ∨ (Num.add rdn x y).flags = fNv := by
  cases x <;> cases y <;> simp only [Num.add] <;> (try split) <;> simp

theorem sqrt_flags (x : Num) : (Num.sqrt x).flags = 0 ∨ (Num.sqrt x).flags = fNv := by
  cases x <;> simp only [Num.sqrt] <;> (repeat' split) <;> simp

theorem div_no_aovf (x y : Num) : (Num.div x y).flags &&& fAovf = 0 := by
  have h : (Num.div x y).flags = 0 ∨ (Num.div x y).flags = fNv ∨ (Num.div x y).flags = fDz := by
    cases x <;> cases y <;> simp only [Num.div] <;> (repeat' split) <;> simp
  rcases h with h | h | h <;> rw [h] <;> decide

theorem fma_no_aovf (rdn : Bool) (x y z : Num) : (Num.fma rdn x y z).flags &&& fAovf = 0 :=
  or_and_zero (no_aovf_of_nv (mul_flags _ _)) (no_aovf_of_nv (add_flags _ _ _))

/-- The three forms of VFMA (R172). -/
theorem fmaOp_eq (op : Nat) (rdn : Bool) (x y z : Num) : fmaOp op rdn x y z = if Num.invalidProduct x y then ⟨.nan, fNv⟩
    else if op = 0 then Num.fma rdn x y z else if op = 1 then Num.fma rdn x y z.neg else Num.fma rdn x.neg y z := by
  match op with
  | 0 | 1 | n + 2 => rfl

theorem fmaOp_no_aovf (op : Nat) (rdn : Bool) (x y z : Num) : (fmaOp op rdn x y z).flags &&& fAovf = 0 := by
  rw [fmaOp_eq]
  split
  · exact no_aovf_of_nv (.inr rfl)
  · (repeat' split) <;> exact fma_no_aovf _ _ _ _

/-! ## Codes (R67, R78) -/

/-- The magnitudes that a format writes stand below its sign bit. -/
structure FmtFits (f : Fmt) : Prop where
  pos : 0 < f.width
  max : f.maxCode < 2 ^ (f.width - 1)
  inf : ∀ i, f.infCode = some i → i < 2 ^ (f.width - 1)
  nan : f.nanCode < 2 ^ f.width

theorem signed_lt {f : Fmt} (h : FmtFits f) (neg : Bool) {m : Nat} (hm : m < 2 ^ (f.width - 1)) : f.signed neg m < 2 ^ f.width := by
  have hdouble : 2 ^ f.width = 2 ^ (f.width - 1) + 2 ^ (f.width - 1) := by
    have hp := h.pos
    rw [← two_mul, ← pow_succ', Nat.sub_add_cancel hp]
  unfold Fmt.signed
  split <;> omega

theorem overflow_lt {f : Fmt} (h : FmtFits f) (r : RMode) (sat neg : Bool) : f.overflow r sat neg < 2 ^ (f.width - 1) := by
  unfold Fmt.overflow
  split
  · exact h.max
  · next i hi =>
    have hinf := h.inf i hi
    have hmax := h.max
    (repeat' split) <;> assumption

/-- A rounded code has the width of its format. -/
theorem round_lt {f : Fmt} (h : FmtFits f) (r : RMode) (sat : Bool) (x : Num) : (f.round r sat x).1 < 2 ^ f.width := by
  cases x with
  | nan => exact h.nan
  | inf neg =>
    simp only [Fmt.round]
    split
    · exact signed_lt h _ h.max
    · next i hi =>
      refine signed_lt h _ ?_
      split
      · exact h.max
      · exact h.inf i hi
  | fin neg m e =>
    simp only [Fmt.round]
    split
    · exact signed_lt h _ (Nat.two_pow_pos _)
    · split
      · exact signed_lt h _ (overflow_lt h _ _ _)
      · next hle => exact signed_lt h _ (lt_of_le_of_lt (Nat.not_lt.mp hle) h.max)

theorem ofTy_fits (t : Ty) : FmtFits (Fmt.ofTy t) := by
  cases t <;> refine ⟨by decide, by decide, fun i hi => ?_, by decide⟩ <;>
    simp only [Fmt.ofTy, fmtF32, fmtBf16, fmtF16, fmtE4m3, fmtE5m2, Option.some.injEq, reduceCtorEq] at hi <;> subst hi <;> decide

/-- The floating-point types have the width of their format. -/
theorem ofTy_width {t : Ty} (h : t.isFloat3 = true ∨ t = .e4m3 ∨ t = .e5m2) : (Fmt.ofTy t).width = 8 * t.width := by
  rcases h with h | rfl | rfl
  · cases t <;> first | rfl | exact absurd h Bool.false_ne_true
  · rfl
  · rfl

/-! ## Rounded elements (R80, R81) -/

theorem roundEl_lt {t : Ty} (ht : t.isFloat3 = true) (rnd : Rnd) (ph j : Nat) (x : NumF) :
    (roundEl t rnd ph j x).1 < 2 ^ (8 * t.width) := by
  rw [← ofTy_width (.inl ht)]
  exact round_lt (ofTy_fits t) _ _ _

theorem roundEl_no_aovf (t : Ty) (rnd : Rnd) (ph j : Nat) {x : NumF} (h : x.flags &&& fAovf = 0) :
    (roundEl t rnd ph j x).2 &&& fAovf = 0 := or_and_zero h (round_no_aovf _ _ _ _)

section
variable {i : Instr} {s : State} {w : Who} {d : XDst} {a b z : XSrc} {ty : Ty} {rnd : Rnd} {c : XCtl} {h : XShape}

/-- A form whose elements are rounded from exact values. -/
theorem xForm_rounds {body : Pred → Nat → List SVal → XOut} {x : Nat → NumF} (hty : ty.isFloat3 = true) (hcan : XCan i s w)
    (hs : xShape i = some h) (hi : exec i s = xFrame (h.form i) noCheck body s)
    (ho : body ((s.core w.core).pred h.ctl.guard) (s.stream w).phase (sourceVals (s.core w.core) h.srcs) =
      (collect ty.width ((List.range (512 / ty.width)).map (fun j => roundEl ty rnd (s.stream w).phase j (x j)))).out)
    (hx : ∀ j, (x j).flags &&& fAovf = 0) : XRounded i s w ty (fun j => roundEl ty rnd (s.stream w).phase j (x j)) := by
  refine xRounded_of_range (xForm_does hcan hs hi rfl ho (collect_no_aovf (W := ty.width) ?_)) fun j _ => roundEl_lt hty _ _ _ _
  intro y hy
  obtain ⟨j, -, rfl⟩ := List.mem_map.mp hy
  exact roundEl_no_aovf _ _ _ _ (hx j)

theorem vfma_rounds {op : Nat} (hty : ty.isFloat3 = true) (hcan : XCan (.vfma d a b z ty rnd op c) s w) :
    XRounded (.vfma d a b z ty rnd op c) s w ty (fun j => roundEl ty rnd (s.stream w).phase j
      (fmaOp op (isRdn rnd) ((Fmt.ofTy ty).decode (vget ty.width (xIn s w [a, b, z] 0 ty) j))
        ((Fmt.ofTy ty).decode (vget ty.width (xIn s w [a, b, z] 1 ty) j)) ((Fmt.ofTy ty).decode (vget ty.width (xIn s w [a, b, z] 2 ty) j)))) :=
  xForm_rounds (body := fun _ dph v => (vFma ty rnd dph op ((src v 0).as ty) ((src v 1).as ty) ((src v 2).as ty)).out) hty hcan rfl rfl rfl
    fun _ => fmaOp_no_aovf _ _ _ _ _

/-- A form of two float sources. -/
theorem round2_rounds {op : Num → Num → NumF} {long : Bool} (hty : ty.isFloat3 = true) (hcan : XCan i s w)
    (hs : xShape i = some ⟨c, [a, b], .vec d, rnd, false, long⟩)
    (hi : exec i s = round2Form ⟨i, c, [a, b], .vec d, rnd, long, false⟩ ty (fun ph => vFloat2 ty rnd ph op) s)
    (hop : ∀ x y, (op x y).flags &&& fAovf = 0) : XRounded i s w ty (fun j => roundEl ty rnd (s.stream w).phase j
      (op ((Fmt.ofTy ty).decode (vget ty.width (xIn s w [a, b] 0 ty) j)) ((Fmt.ofTy ty).decode (vget ty.width (xIn s w [a, b] 1 ty) j)))) :=
  xForm_rounds (body := fun _ dph v => (vFloat2 ty rnd dph op ((src v 0).as ty) ((src v 1).as ty)).out) hty hcan hs hi rfl fun _ => hop _ _

theorem vfsqrt_rounds (hty : ty.isFloat3 = true) (hcan : XCan (.vfsqrt d a ty rnd c) s w) : XRounded (.vfsqrt d a ty rnd c) s w ty
    (fun j => roundEl ty rnd (s.stream w).phase j (Num.sqrt ((Fmt.ofTy ty).decode (vget ty.width (xIn s w [a] 0 ty) j)))) :=
  xForm_rounds (body := fun _ dph v => (vFsqrt ty rnd dph ((src v 0).as ty)).out) hty hcan rfl rfl rfl
    fun _ => no_aovf_of_nv (sqrt_flags _)

theorem not_isInt_of_float {t : Ty} (h : t.isFloat3 = true) : t.isInt = false := by
  cases t <;> first | rfl | exact absurd h Bool.false_ne_true

theorem vabs_float_elements (hty : ty.isFloat3 = true) (hcan : XCan (.vabs d a ty false c) s w) :
    XElements (.vabs d a ty false c) s w ty (fun j =>
      if ((Fmt.ofTy ty).decode (vget ty.width (xIn s w [a] 0 ty) j)).isNan then (Fmt.ofTy ty).nanCode
      else vget ty.width (xIn s w [a] 0 ty) j % 2 ^ (8 * ty.width - 1)) := by
  refine vabs_elements hcan fun j _ => ?_
  rw [absEl, if_neg (by rw [not_isInt_of_float hty]; exact Bool.false_ne_true)]
  refine Nat.mod_eq_of_lt ?_
  split
  · rw [← ofTy_width (.inl hty)]
    exact (ofTy_fits ty).nan
  · exact lt_of_lt_of_le (Nat.mod_lt _ (Nat.two_pow_pos _)) (Nat.pow_le_pow_right (by decide) (Nat.sub_le _ _))

end

/-- Settles O27, form by form. -/
theorem vectorFloats : Obligations.VectorFloats := by
  intro s w d a b z ty rnd op c hty
  simp only [← fmaOp_eq]
  exact ⟨fun h => round2_rounds hty h rfl rfl fun _ _ => no_aovf_of_nv (add_flags _ _ _),
    fun h => round2_rounds (op := fun x y => Num.add (isRdn rnd) x y.neg) hty h rfl rfl fun _ _ => no_aovf_of_nv (add_flags _ _ _),
    fun h => round2_rounds hty h rfl rfl fun _ _ => no_aovf_of_nv (mul_flags _ _),
    vfma_rounds hty, fun h => round2_rounds hty h rfl rfl div_no_aovf, vfsqrt_rounds hty, vabs_float_elements hty⟩

end Sys2Proof.Machine
end

section
/-! SUPPORT. Comparison, selection, movement, counting, permutation and slides (R173 to R178), and the obligation about them. -/

namespace Sys2Proof.Machine

/-! ## Bits of a predicate of elements (R109) -/

/-- The number whose groups of `w` bits repeat the booleans of a list. -/
def boolsNat (w : Nat) (l : List Bool) : Nat := l.foldr (fun b acc => (if b then 2 ^ w - 1 else 0) + 2 ^ w * acc) 0

theorem testBit_boolsNat {w : Nat} (hw : 0 < w) (l : List Bool) (i : Nat) : (boolsNat w l).testBit i = l.getD (i / w) false := by
  induction l generalizing i with
  | nil => simp [boolsNat]
  | cons b t ih =>
    have hlt : (if b then 2 ^ w - 1 else 0) < 2 ^ w := by
      have := Nat.two_pow_pos w
      split <;> omega
    have hcons : boolsNat w (b :: t) = 2 ^ w * boolsNat w t + (if b then 2 ^ w - 1 else 0) := Nat.add_comm _ _
    rw [hcons, Nat.testBit_two_pow_mul_add _ hlt]
    by_cases hi : i < w
    · rw [if_pos hi, Nat.div_eq_of_lt hi, List.getD_cons_zero]
      cases b
      · simp
      · simp [Nat.testBit_two_pow_sub_one, hi]
    · have hle : w ≤ i := Nat.not_lt.mp hi
      rw [if_neg hi, ih, Nat.div_eq_sub_div hw hle, List.getD_cons_succ]

theorem predOfBools_bit {w : Nat} (hw : 0 < w) (l : List Bool) {i : Nat} (hi : i < 512) :
    (predOfBools w l).getLsbD i = l.getD (i / w) false := by
  have hb := testBit_boolsNat hw l i
  rw [predOfBools, BitVec.getLsbD_ofNat, decide_eq_true hi, Bool.true_and]
  exact hb

theorem width_dvd (t : Ty) : t.width ∣ 512 := by cases t <;> decide

/-- The element of a byte of a vector. -/
theorem div_width_lt (t : Ty) {i : Nat} (hi : i < 512) : i / t.width < 512 / t.width := Nat.div_lt_div_of_lt_of_dvd (width_dvd t) hi

section
variable {s : State} {w : Who} {d : XDst} {p : Nat} {a b z : XSrc} {ty : Ty} {cond : Nat} {c : XCtl}

/-! ## VCMP, VSEL, VMOV (R173 to R175) -/

/-- The value of an element in a comparison: a byte of b8 is unsigned. -/
def cmpNum (ty : Ty) (x : Nat) : Num := if ty = .b8 then Num.ofInt x else elemNum ty x

theorem vCmp_bit (A B : Vec) {i : Nat} (hi : i < 512) : (vCmp ty cond A B).getLsbD i =
    condHolds cond (cmpNum ty (vget ty.width A (i / ty.width))) (cmpNum ty (vget ty.width B (i / ty.width))) := by
  have hj := div_width_lt ty hi
  have hrd : ∀ x, (if (ty == .b8) = true then Num.ofInt (x : Nat) else elemNum ty x) = cmpNum ty x := fun x => by
    simp only [cmpNum, beq_iff_eq]
  rw [vCmp, predOfBools_bit (width_pos ty) _ hi, els, els, List.zipWith_map, List.zipWith_self, getD_map_range _ _ hj]
  simp only [hrd]

theorem vcmp_bits (h : XCan (.vcmp p a b ty cond c) s w) : ∃ o, XDoes (.vcmp p a b ty cond c) s w o ∧ o.flags = 0 ∧
    ∀ i < 512, o.pred.getLsbD i = condHolds cond (cmpNum ty (vget ty.width (xIn s w [a, b] 0 ty) (i / ty.width)))
      (cmpNum ty (vget ty.width (xIn s w [a, b] 1 ty) (i / ty.width))) :=
  ⟨_, xForm_does (check := noCheck) (body := fun _ _ v => predOut (vCmp ty cond ((src v 0).as ty) ((src v 1).as ty)))
    (o := predOut (vCmp ty cond (xIn s w [a, b] 0 ty) (xIn s w [a, b] 1 ty))) h rfl rfl rfl rfl BitVec.zero_and, rfl,
    fun _ hi => vCmp_bit _ _ hi⟩

theorem vsel_bits (h : XCan (.vsel d a b ty c) s w) : ∃ o, XDoes (.vsel d a b ty c) s w o ∧ o.part = BitVec.allOnes 512 ∧ o.flags = 0 ∧
    ∀ i < 4096, o.vec.getLsbD i = (xIn s w [a, b] (if ((s.core w.core).pred c.guard).getLsbD (i / 8) then 0 else 1) ty).getLsbD i := by
  refine ⟨_, xForm_gives (check := noCheck) (body := fun g _ v => (vSel g ((src v 0).as ty) ((src v 1).as ty)).out)
    (res := vSel ((s.core w.core).pred c.guard) (xIn s w [a, b] 0 ty) (xIn s w [a, b] 1 ty)) h rfl rfl rfl rfl rfl, rfl, rfl, fun i hi => ?_⟩
  refine (mergeVec_bit _ _ _ _ hi).trans ?_
  cases ((s.core w.core).pred c.guard).getLsbD (i / 8) <;> rfl

theorem vmov_copies (h : XCan (.vmov d a ty c) s w) :
    XDoes (.vmov d a ty c) s w ⟨xIn s w [a] 0 ty, BitVec.allOnes 512, 0, 0⟩ :=
  xForm_gives (check := noCheck) (body := fun _ _ v => (XRes.of ((src v 0).as ty)).out) (res := XRes.of (xIn s w [a] 0 ty))
    h rfl rfl rfl rfl rfl

/-! ## VIOTA (R176) -/

theorem getD_prefixCounts (W : Nat) (g : Pred) {n j : Nat} (hj : j < n) (i k : Nat) : (prefixCounts W g n i k).getD j 0 =
    k + ((List.range j).filter (fun q => g.getLsbD ((i + q) * W))).length := by
  induction n generalizing i j k with
  | zero => omega
  | succ n ih =>
    rw [prefixCounts]
    cases j with
    | zero => simp
    | succ j =>
      have hshift : ∀ q, i + 1 + q = i + (q + 1) := fun q => by omega
      rw [List.getD_cons_succ, ih (by omega), List.range_succ_eq_map, List.filter_cons, List.filter_map, Nat.add_zero, pbit]
      simp only [hshift]
      cases g.getLsbD (i * W)
      · simp [Function.comp_def]
      · simp [Function.comp_def]
        omega

theorem length_prefixCounts (W : Nat) (g : Pred) (n i k : Nat) : (prefixCounts W g n i k).length = n := by
  induction n generalizing i k with
  | zero => rfl
  | succ n ih => rw [prefixCounts, List.length_cons, ih]

theorem viota_elements (h : XCan (.viota d a ty c) s w) : XElements (.viota d a ty c) s w ty (fun j =>
    (vget ty.width (xIn s w [a] 0 ty) j + ((List.range j).filter
      (fun i => ((s.core w.core).pred c.guard).getLsbD (i * ty.width))).length) % 2 ^ (8 * ty.width)) := by
  have hdoes := xForm_gives (check := noCheck) (body := fun g _ v => (vIota ty g ((src v 0).as ty)).out)
    (res := vIota ty ((s.core w.core).pred c.guard) (xIn s w [a] 0 ty)) h rfl rfl rfl rfl rfl
  refine xElements_of_list hdoes fun j hj => ?_
  have hcount := getD_prefixCounts ty.width ((s.core w.core).pred c.guard) hj 0 0
  have hlen := length_prefixCounts ty.width ((s.core w.core).pred c.guard) (512 / ty.width) 0 0
  simp only [Nat.zero_add] at hcount
  rw [← hcount]
  simp [List.getD, els, hj, hlen]

/-! ## VPERM and VSLIDE (R177, R178) -/

theorem vperm_elements {op : Nat} {l : List XSrc} {g f : Nat → Nat} (h : XCan (.vperm d a b z ty op c) s w)
    (hl : (if op = 1 then [a, b, z] else [a, b]) = l)
    (hop : vPerm ty op (xIn s w l 0 ty) (xIn s w l 1 ty) (xIn s w l 2 ty) =
      XRes.of (vecOfEls ty.width ((els ty.width (xIn s w l 1 ty)).map g)))
    (hlt : ∀ x, g x < 2 ^ (8 * ty.width)) (hf : ∀ j, g (vget ty.width (xIn s w l 1 ty) j) = f j) :
    XElements (.vperm d a b z ty op c) s w ty f := by
  subst hl
  have hdoes := xForm_gives (check := noCheck) (body := fun _ _ v => (vPerm ty op ((src v 0).as ty) ((src v 1).as ty) ((src v 2).as ty)).out)
    h rfl rfl rfl rfl hop
  exact xElements_of_list hdoes fun j hj => by rw [getD_map_els _ _ _ hj, Nat.mod_eq_of_lt (hlt _), hf]

theorem vslide_elements {up : Bool} {f : Nat → Nat} (h : XCan (.vslide d a b z ty up c) s w)
    (hf : ∀ j, (if up
        then (if min (xScalar s w [a, b, z] 1).toNat (512 / ty.width) ≤ j
          then vget ty.width (xIn s w [a, b, z] 0 ty) (j - min (xScalar s w [a, b, z] 1).toNat (512 / ty.width))
          else vget ty.width (xIn s w [a, b, z] 2 ty) (j + 512 / ty.width - min (xScalar s w [a, b, z] 1).toNat (512 / ty.width)))
        else (if j + min (xScalar s w [a, b, z] 1).toNat (512 / ty.width) < 512 / ty.width
          then vget ty.width (xIn s w [a, b, z] 0 ty) (j + min (xScalar s w [a, b, z] 1).toNat (512 / ty.width))
          else vget ty.width (xIn s w [a, b, z] 2 ty) (j + min (xScalar s w [a, b, z] 1).toNat (512 / ty.width) - 512 / ty.width))) = f j) :
    XElements (.vslide d a b z ty up c) s w ty f := by
  have hdoes := xForm_gives (check := noCheck)
    (body := fun _ _ v => (vSlide ty up ((src v 0).as ty) (src v 1).word64 ((src v 2).as ty)).out)
    (res := vSlide ty up (xIn s w [a, b, z] 0 ty) (xScalar s w [a, b, z] 1) (xIn s w [a, b, z] 2 ty)) h rfl rfl rfl rfl rfl
  refine xElements_of_range hdoes fun j _ => ?_
  rw [hf]
  refine Nat.mod_eq_of_lt ?_
  rw [← hf]
  (repeat' split) <;> exact vget_lt _ _ _

end

/-- Settles O28, form by form. -/
theorem vectorSelections : Obligations.VectorSelections := by
  intro s w d p a b z ty cond c
  exact ⟨vcmp_bits, vsel_bits, vmov_copies, viota_elements,
    fun h => vperm_elements (g := fun x => vget ty.width (xIn s w [a, b] 0 ty) (x % (512 / ty.width))) h rfl rfl
      (fun _ => vget_lt _ _ _) fun _ => rfl,
    fun h => vperm_elements (g := fun x => if x % (2 * (512 / ty.width)) < 512 / ty.width
        then vget ty.width (xIn s w [a, b, z] 0 ty) (x % (2 * (512 / ty.width)))
        else vget ty.width (xIn s w [a, b, z] 2 ty) (x % (2 * (512 / ty.width)) - 512 / ty.width)) h rfl rfl
      (fun _ => by split <;> exact vget_lt _ _ _) fun _ => rfl,
    fun h => vperm_elements (g := fun x => if x < 512 / ty.width then vget ty.width (xIn s w [a, b] 0 ty) x else 0) h rfl rfl
      (fun _ => by split <;> [exact vget_lt _ _ _; exact Nat.two_pow_pos _]) fun _ => rfl,
    fun h => vslide_elements h fun _ => rfl, fun h => vslide_elements h fun _ => rfl⟩

end Sys2Proof.Machine
end

section
/-! SUPPORT. Reductions and scans (R86, R94, R182, R186 to R188): a fold that keeps the better element, the lowest index of the best
one, the Sklansky tree of sums, and the obligation about them. -/

namespace Sys2Proof.Machine

/-! ## The best element (R86, R186) -/

/-- The number by which VRED and VSCAN rank an integer element: the higher, the better. -/
def rankKey (isMax : Bool) (t : Ty) (x : Nat) : Int := if isMax then t.readInt x else -t.readInt x

section
variable {ty : Ty} {isMax : Bool}

theorem pickEl_int (hty : ty.isInt = true) (x y : Nat) :
    (if isMax then maxEl ty x y else minEl ty x y) = if rankKey isMax ty x < rankKey isMax ty y then y else x := by
  cases isMax
  · simp [minEl_int hty, rankKey]
  · simp [maxEl_int hty, rankKey]

theorem pickTakes_int (hty : ty.isInt = true) (x y : Nat) :
    pickTakes isMax (elemNum ty x) (elemNum ty y) = decide (rankKey isMax ty x < rankKey isMax ty y) := by
  cases isMax
  · simp [pickTakes, minTakes, elemNum_int hty, isNan_ofInt, below_ofInt, rankKey]
  · simp [pickTakes, maxTakes, elemNum_int hty, isNan_ofInt, below_ofInt, rankKey]

/-- A fold that keeps the better of two ends with one of the elements, and none is better. -/
theorem foldl_best (key : Nat → Int) (l : List Nat) (a : Nat) :
    l.foldl (fun x y => if key x < key y then y else x) a ∈ a :: l ∧
      ∀ y ∈ a :: l, key y ≤ key (l.foldl (fun x y => if key x < key y then y else x) a) := by
  induction l generalizing a with
  | nil => simp
  | cons b t ih =>
    obtain ⟨hmem, hmax⟩ := ih (if key a < key b then b else a)
    rw [List.foldl_cons]
    have hstep : key a ≤ key (if key a < key b then b else a) ∧ key b ≤ key (if key a < key b then b else a) := by split <;> omega
    have hbest := hmax _ List.mem_cons_self
    refine ⟨?_, fun y hy => ?_⟩
    · rcases List.mem_cons.mp hmem with h | h
      · rw [h]
        split <;> simp
      · simp [h]
    · rcases List.mem_cons.mp hy with rfl | hy
      · exact hstep.1.trans hbest
      rcases List.mem_cons.mp hy with rfl | hy
      · exact hstep.2.trans hbest
      · exact hmax y (List.mem_cons_of_mem _ hy)

/-- The search for the best index, from index `i` on, where `best` is the lowest index of the best element before. -/
theorem argPick_best (hty : ty.isInt = true) (e : Nat → Nat) (m i best : Nat) (hlt : best < i + m)
    (hmax : ∀ j < i, rankKey isMax ty (e j) ≤ rankKey isMax ty (e best)) (hlow : ∀ j < best, rankKey isMax ty (e j) < rankKey isMax ty (e best)) :
    ∃ k < i + m, argPick isMax ty ((List.range' i m).map e) i best (elemNum ty (e best)) = k ∧
      (∀ j < i + m, rankKey isMax ty (e j) ≤ rankKey isMax ty (e k)) ∧ ∀ j < k, rankKey isMax ty (e j) < rankKey isMax ty (e k) := by
  induction m generalizing i best with
  | zero => exact ⟨best, hlt, rfl, hmax, hlow⟩
  | succ m ih =>
    rw [List.range'_succ, List.map_cons, argPick, pickTakes_int hty]
    have hcount : i + (m + 1) = i + 1 + m := by omega
    rw [hcount] at hlt ⊢
    by_cases htake : rankKey isMax ty (e best) < rankKey isMax ty (e i)
    · rw [if_pos (decide_eq_true htake)]
      refine ih (i + 1) i (by omega) (fun j hj => ?_) (fun j hj => lt_of_le_of_lt (hmax j hj) htake)
      rcases Nat.lt_succ_iff_lt_or_eq.mp hj with hj | rfl
      · exact ((hmax j hj).trans_lt htake).le
      · exact le_rfl
    · rw [if_neg (by simpa using htake)]
      refine ih (i + 1) best hlt (fun j hj => ?_) hlow
      rcases Nat.lt_succ_iff_lt_or_eq.mp hj with hj | rfl
      · exact hmax j hj
      · exact not_lt.mp htake

end

/-! ## The Sklansky tree of sums (R94) -/

theorem length_sklanskyLevel {α : Type} (op : α → α → α) (d : α) (j : Nat) (l : List α) : (sklanskyLevel op d j l).length = l.length := by
  simp [sklanskyLevel]

theorem getD_sklanskyLevel {α : Type} (op : α → α → α) (d : α) (j : Nat) (l : List α) {i : Nat} (hi : i < l.length) :
    (sklanskyLevel op d j l).getD i d =
      if i / 2 ^ j % 2 = 1 then op (l.getD (i / 2 ^ (j + 1) * 2 ^ (j + 1) + 2 ^ j - 1) d) (l.getD i d) else l.getD i d := by
  rw [sklanskyLevel, getD_map_range _ _ hi]

/-- Before level `j` an element holds the sum of its block of 2^j elements up to itself; after the levels from `j` on, that of its
block of 2^(j + k). -/
theorem getD_sklansky_sum (M : Nat) (x : Nat → Nat) (k j : Nat) (l : List Nat)
    (hl : ∀ i < l.length, l.getD i 0 = (∑ q ∈ Finset.Ico (i / 2 ^ j * 2 ^ j) (i + 1), x q) % M) {i : Nat} (hi : i < l.length) :
    (sklansky (fun a b => (a + b) % M) 0 k j l).getD i 0 = (∑ q ∈ Finset.Ico (i / 2 ^ (j + k) * 2 ^ (j + k)) (i + 1), x q) % M := by
  induction k generalizing j l with
  | zero => exact hl i hi
  | succ k ih =>
    rw [sklansky, show j + (k + 1) = j + 1 + k by omega]
    refine ih (j + 1) _ (fun p hp => ?_) (by rwa [length_sklanskyLevel])
    rw [length_sklanskyLevel] at hp
    rw [getD_sklanskyLevel _ _ _ _ hp]
    have hpow : (0 : Nat) < 2 ^ j := by positivity
    have hhalf : p / 2 ^ (j + 1) = p / 2 ^ j / 2 := by rw [pow_succ, Nat.div_div_eq_div_mul]
    have hblock : p / 2 ^ (j + 1) * 2 ^ (j + 1) = p / 2 ^ j / 2 * 2 * 2 ^ j := by rw [hhalf, pow_succ]; ring
    have hle : p / 2 ^ j * 2 ^ j ≤ p := Nat.div_mul_le_self _ _
    generalize hb : p / 2 ^ j = b at *
    by_cases hodd : b % 2 = 1
    · rw [if_pos hodd, hblock]
      have hb2 : b = b / 2 * 2 + 1 := by omega
      have hsplit : b * 2 ^ j = b / 2 * 2 * 2 ^ j + 2 ^ j := by
        conv_lhs => rw [hb2]
        ring
      have hleft : (b / 2 * 2 * 2 ^ j + 2 ^ j - 1) / 2 ^ j = b / 2 * 2 := by
        rw [Nat.add_sub_assoc hpow, Nat.add_comm, Nat.add_mul_div_right _ _ hpow, Nat.div_eq_of_lt (by omega), Nat.zero_add]
      rw [hl _ (by omega), hl p hp, hb, hleft, Nat.sub_add_cancel (by omega), ← hsplit, ← Nat.add_mod, Finset.sum_Ico_consecutive _ (by omega) (by omega)]
    · rw [if_neg hodd, hl p hp, hb, hblock, show b / 2 * 2 = b by omega]

theorem lanes_eq_two_pow (t : Ty) : 512 / t.width = 2 ^ levels t.width := by cases t <;> decide

/-- The running sums of a vector's elements. -/
theorem getD_prefixSums (t : Ty) (v : Vec) {i : Nat} (hi : i < 512 / t.width) :
    (sklansky (fun x y => (x + y) % 2 ^ (8 * t.width)) 0 (levels t.width) 0 (els t.width v)).getD i 0 =
      (∑ q ∈ Finset.range (i + 1), vget t.width v q) % 2 ^ (8 * t.width) := by
  have hlen : (els t.width v).length = 512 / t.width := by simp [els]
  rw [getD_sklansky_sum (2 ^ (8 * t.width)) (vget t.width v) _ _ _ (fun p hp => ?_) (hlen ▸ hi), Nat.zero_add,
    Nat.div_eq_of_lt (lanes_eq_two_pow t ▸ hi), Nat.zero_mul, Finset.range_eq_Ico]
  have hsingle : Finset.Ico (p / 2 ^ 0 * 2 ^ 0) (p + 1) = {p} := by simp [Nat.Ico_succ_singleton]
  rw [hsingle, Finset.sum_singleton, Nat.mod_eq_of_lt (vget_lt _ _ _), els, getD_map_range _ _ (hlen ▸ hp)]

theorem length_sklansky {α : Type} (op : α → α → α) (d : α) (k j : Nat) (l : List α) : (sklansky op d k j l).length = l.length := by
  induction k generalizing j l with
  | zero => rfl
  | succ k ih => rw [sklansky, ih, length_sklanskyLevel]

/-- An element counts modulo 2^W as its code does. -/
theorem readInt_emod (t : Ty) {x : Nat} (hx : x < 2 ^ (8 * t.width)) :
    t.readInt x % (2 ^ (8 * t.width) : Nat) = (x : Int) % (2 ^ (8 * t.width) : Nat) := by
  have hpow : ((2 ^ (8 * t.width) : Nat) : Int) = (2 ^ (8 * t.width) : Nat) := rfl
  unfold Ty.readInt signedField
  split
  · split
    · rfl
    · exact Int.sub_emod_right _ _
  · rfl

theorem sum_readInt_emod (t : Ty) (v : Vec) (n : Nat) :
    ((List.range n).map (fun q => t.readInt (vget t.width v q))).sum % (2 ^ (8 * t.width) : Nat) =
      ((∑ q ∈ Finset.range n, vget t.width v q : Nat) : Int) % (2 ^ (8 * t.width) : Nat) := by
  induction n with
  | zero => rfl
  | succ n ih =>
    rw [List.range_succ, List.map_append, List.sum_append, Finset.sum_range_succ, Nat.cast_add, Int.add_emod, ih,
      List.map_singleton, List.sum_singleton, readInt_emod t (vget_lt _ _ _), ← Int.add_emod]

/-! ## What a form that is ready does -/

section
variable {f : XForm} {check : List SVal → Option Res} {act : Pred → List SVal → State → Who → Res} {s : State} {w : Who}

theorem XReady.whoOn {c : XCtl} {srcs : List XSrc} {tg : XTarget} {guardOp : Bool} (h : XReady s w c srcs tg guardOp) : s.whoOn .x = w := by
  rw [whoOn_of_acts h.acts]
  have heng := h.eng
  cases w
  simp_all

/-- The frame of a form that nothing stops checks its source values and acts. -/
theorem xFrameWith_ready (h : XReady s w f.ctl f.srcs f.target f.guardOperand) :
    xFrameWith f check act s = finish w 8 s ((check (sourceVals (s.core w.core) f.srcs)).getD
      (act ((s.core w.core).pred f.ctl.guard) (sourceVals (s.core w.core) f.srcs) s w)) := by
  have hnull : (f.nullable && (s.core w.core).pred f.ctl.guard == 0) = false := by
    rcases h.active with ha | ⟨n, hn⟩ | ha
    · simp [XForm.nullable, ha]
    · simp [XForm.nullable, hn, XTarget.half?]
    · simpa using fun _ => ha
  have hpart : partnerFault f.i s w f.ctl.take f.ctl.give = none :=
    partnerFault_none (by rw [h.eng]; exact h.takes) (by rw [h.eng]; exact h.gives)
  simp only [xFrameWith, h.whoOn, h.guard, Bool.false_eq_true, if_false, hpart, hnull, xRefuse_none h]
  cases check (sourceVals (s.core w.core) f.srcs) <;> rfl

/-- A form that is no long-latency producer ends with 0x23 when its window saturates, its flags set. -/
theorem xFrame_overflows {body : Pred → Nat → List SVal → XOut} {o : XOut} (h : XReady s w f.ctl f.srcs f.target f.guardOperand)
    (hc : check (sourceVals (s.core w.core) f.srcs) = none)
    (ho : body ((s.core w.core).pred f.ctl.guard) (s.stream w).phase (sourceVals (s.core w.core) f.srcs) = o)
    (hlat : f.latent = false) (hov : overflows (s.stream w) o.flags = true) :
    ∃ u, xFrame f check body s = .next (takeTrap u w 0x23 0) ∧ (u.stream w).qflags = (s.stream w).qflags ||| o.flags := by
  obtain ⟨c, e⟩ := w
  obtain rfl : e = .x := h.eng
  have hd : DestReady (s.core c) f.target := h.dest
  obtain ⟨T, R, Q, M, hk, _⟩ := xConsume_eq f (s.core c)
  obtain ⟨V, P, W, E, F, N, hw, _⟩ := xWriteNow_eq f ((s.core c).pred f.ctl.guard) o 0 { s.core c with
    x := { (s.core c).x with dph := if f.rnd = .rdi then BitVec.ofNat 64 (((s.core c).x.phase + 1) % 32) else (s.core c).x.dph },
    q := Q, tokens := T, reserved := R, mbox := M } hd
  have hstream : overflows { (s.core c).x with
      dph := if f.rnd = .rdi then BitVec.ofNat 64 (((s.core c).x.phase + 1) % 32) else (s.core c).x.dph } o.flags = true := hov
  rw [xFrame, xFrameWith_ready h, hc, Option.getD_none, ho]
  simp only [xRun, hk, hlat, hov, Bool.false_eq_true, if_false, if_true]
  rw [stepPhase_eq, hw]
  simp only [endWith, State.setStream, State.stream, State.core_setCore_self, State.setCore_setCore, Core.setStream,
    Core.stream, Stream.addFlags, hstream, if_true]
  obtain ⟨R', hR, _⟩ := unreserve_eq (giveFifos .x f.ctl.give) { s.core c with
    x := { (s.core c).x with
      qflags := (s.core c).x.qflags ||| o.flags,
      dph := if f.rnd = .rdi then BitVec.ofNat 64 (((s.core c).x.phase + 1) % 32) else (s.core c).x.dph },
    xs := { (s.core c).xs with v := V, p := P }, w := W, ms := { (s.core c).ms with e := E, efull := F }, nextId := N,
    q := Q, tokens := T, reserved := R, mbox := M }
  refine ⟨_, rfl, ?_⟩
  rw [hR, State.core_setCore_self]

end

/-! ## The obligation -/

section
variable {s : State} {w : Who} {d : XDst} {a b z : XSrc} {ty : Ty} {op : Nat} {rnd : Rnd} {c : XCtl}

theorem vred_does (h : XCan (.vred d a ty op rnd c) s w) : XDoes (.vred d a ty op rnd c) s w
    (vRed ty op ((s.stream w).profile c.np) rnd (s.stream w).phase (xIn s w [a] 0 ty)).out := by
  have hw : s.whoOn .x = w := by
    obtain ⟨_, _, _, hready⟩ := h
    exact hready.whoOn
  refine xForm_does (check := noCheck) (body := fun _ dph v => (vRed ty op (profileOf c s) rnd dph ((src v 0).as ty)).out)
    h rfl rfl rfl ?_ (vRed_no_aovf ..)
  rw [profileOf, hw]
  rfl

/-- An integer reduction has one value in every element. -/
theorem vred_fills {v : Nat} {f : Nat → Nat} (h : XCan (.vred d a ty op rnd c) s w)
    (hv : vRed ty op ((s.stream w).profile c.np) rnd (s.stream w).phase (xIn s w [a] 0 ty) =
      XRes.ofF (vecOfEls ty.width (List.replicate (512 / ty.width) v)) 0)
    (hf : ∀ j, v % 2 ^ (8 * ty.width) = f j) : XElements (.vred d a ty op rnd c) s w ty f := by
  have hdoes := vred_does h
  rw [hv] at hdoes
  refine xElements_of_list hdoes fun j hj => ?_
  rw [← hf j]
  simp [List.getD, hj]

theorem vred_sums (hty : ty.isInt = true) (h : XCan (.vred d a ty 0 rnd c) s w) : XElements (.vred d a ty 0 rnd c) s w ty (fun _ =>
    (((List.range (512 / ty.width)).map (fun j => ty.readInt (vget ty.width (xIn s w [a] 0 ty) j))).sum % (2 ^ (8 * ty.width) : Nat)).toNat) := by
  refine vred_fills (v := wrapTo (8 * ty.width) (((els ty.width (xIn s w [a] 0 ty)).map ty.readInt).foldl (· + ·) 0)) h
    (by simp only [vRed, hty, if_true]) fun j => ?_
  rw [Nat.mod_eq_of_lt (wrapTo_lt _ _), wrapTo, ← List.sum_eq_foldl, els, List.map_map]
  rfl

theorem vred_picks (isMax : Bool) (hty : ty.isInt = true) (h : XCan (.vred d a ty (if isMax then 1 else 2) rnd c) s w) :
    ∃ k < 512 / ty.width, (∀ j < 512 / ty.width, rankKey isMax ty (vget ty.width (xIn s w [a] 0 ty) j) ≤
        rankKey isMax ty (vget ty.width (xIn s w [a] 0 ty) k)) ∧
      XElements (.vred d a ty (if isMax then 1 else 2) rnd c) s w ty (fun _ => vget ty.width (xIn s w [a] 0 ty) k) := by
  have hn : 0 < 512 / ty.width := by rw [lanes_eq_two_pow]; positivity
  have hpick := fun x y => pickEl_int (isMax := isMax) hty x y
  have hhead : (els ty.width (xIn s w [a] 0 ty)).getD 0 0 = vget ty.width (xIn s w [a] 0 ty) 0 := getD_map_range _ _ hn
  obtain ⟨hmem, hbest⟩ := foldl_best (rankKey isMax ty) (els ty.width (xIn s w [a] 0 ty)) (vget ty.width (xIn s w [a] 0 ty) 0)
  have hall : ∀ y, y ∈ vget ty.width (xIn s w [a] 0 ty) 0 :: els ty.width (xIn s w [a] 0 ty) ↔
      ∃ j < 512 / ty.width, vget ty.width (xIn s w [a] 0 ty) j = y := fun y => by
    simp only [els, List.mem_cons, List.mem_map, List.mem_range]
    exact ⟨fun hy => hy.elim (fun e => ⟨0, hn, e.symm⟩) id, .inr⟩
  obtain ⟨k, hk, hval⟩ := (hall _).mp hmem
  refine ⟨k, hk, fun j hj => ?_, vred_fills (v := vget ty.width (xIn s w [a] 0 ty) k) h ?_ fun _ => Nat.mod_eq_of_lt (vget_lt _ _ _)⟩
  · rw [hval]
    exact hbest _ ((hall _).mpr ⟨j, hj, rfl⟩)
  · simp only [← hpick] at hval
    cases isMax
    · simp only [Bool.false_eq_true, if_false] at hval ⊢
      rw [hval]
      simp only [vRed, hhead]
    · simp only [if_true] at hval ⊢
      rw [hval]
      simp only [vRed, hhead]

theorem vred_indexes (isMax : Bool) (hty : ty.isInt = true) (h : XCan (.vred d a ty (if isMax then 3 else 4) rnd c) s w) :
    ∃ k < 512 / ty.width, (∀ j < 512 / ty.width, rankKey isMax ty (vget ty.width (xIn s w [a] 0 ty) j) ≤
        rankKey isMax ty (vget ty.width (xIn s w [a] 0 ty) k)) ∧
      (∀ j < k, rankKey isMax ty (vget ty.width (xIn s w [a] 0 ty) j) < rankKey isMax ty (vget ty.width (xIn s w [a] 0 ty) k)) ∧
      XElements (.vred d a ty (if isMax then 3 else 4) rnd c) s w ty (fun _ => k % 2 ^ (8 * ty.width)) := by
  have hn : 0 < 512 / ty.width := by rw [lanes_eq_two_pow]; positivity
  have hhead : (els ty.width (xIn s w [a] 0 ty)).getD 0 0 = vget ty.width (xIn s w [a] 0 ty) 0 := getD_map_range _ _ hn
  obtain ⟨k, hk, hval, hmax, hlow⟩ := argPick_best (isMax := isMax) hty (vget ty.width (xIn s w [a] 0 ty)) (512 / ty.width) 0 0 (by omega)
    (by simp) (by simp)
  rw [Nat.zero_add] at hk hmax
  rw [← List.range_eq_range', ← els] at hval
  refine ⟨k, hk, hmax, hlow, vred_fills (v := k) h ?_ fun _ => rfl⟩
  cases isMax <;> simp only [Bool.false_eq_true, if_false, if_true, vRed, hhead] <;> rw [← hval] <;> rfl

/-- The carry that a scan reads. -/
def scanCarry (s : State) (w : Who) (op : Nat) (a b z : XSrc) : Carry :=
  if z = .s 0 ∨ 4 ≤ op then none else some (xScalar s w (scanSrcs op a b z) (if op = 3 then 2 else 1))

/-- What the body of a scan computes. -/
def scanBody (ty : Ty) (op : Nat) (rnd : Rnd) (z : XSrc) (c : XCtl) (s : State) (_ : Pred) (dph : Nat) (v : List SVal) : XOut :=
  (vScan ty op (profileOf c s) rnd dph ((src v 0).as ty) ((src v 1).as ty)
    (if op < 3 then carryOf z (src v 1) else if op = 3 then carryOf z (src v 2) else none)).out

theorem scanBody_eq (hw : s.whoOn .x = w) (g : Pred) : scanBody ty op rnd z c s g (s.stream w).phase (sourceVals (s.core w.core) (scanSrcs op a b z)) =
    (vScan ty op ((s.stream w).profile c.np) rnd (s.stream w).phase (xIn s w (scanSrcs op a b z) 0 ty) (xIn s w (scanSrcs op a b z) 1 ty)
      (scanCarry s w op a b z)).out := by
  have hcarry : (if op < 3 then carryOf z (src (sourceVals (s.core w.core) (scanSrcs op a b z)) 1)
      else if op = 3 then carryOf z (src (sourceVals (s.core w.core) (scanSrcs op a b z)) 2) else none) = scanCarry s w op a b z := by
    unfold scanCarry carryOf xScalar
    by_cases hz : z = .s 0
    · simp [hz]
    · rcases lt_trichotomy op 3 with h3 | h3 | h3
      · simp [hz, h3, show ¬ 4 ≤ op by omega, show op ≠ 3 by omega]
      · simp [hz, h3]
      · simp [show ¬ op < 3 by omega, show op ≠ 3 by omega, show 4 ≤ op by omega]
  rw [scanBody, hcarry, profileOf, hw]
  rfl

theorem vscan_does (h : XCan (.vscan d a b z ty op rnd c) s w) :
    let r := vScan ty op ((s.stream w).profile c.np) rnd (s.stream w).phase (xIn s w (scanSrcs op a b z) 0 ty) (xIn s w (scanSrcs op a b z) 1 ty)
      (scanCarry s w op a b z)
    (r.flags &&& fAovf = 0 ∨ readsMail (scanSrcs op a b z) = true ∨ (s.stream w).aovte = false →
      XDoes (.vscan d a b z ty op rnd c) s w r.out) ∧
    (r.flags &&& fAovf ≠ 0 → readsMail (scanSrcs op a b z) = false → (s.stream w).aovte = true →
      ∃ u, exec (.vscan d a b z ty op rnd c) s = .next (takeTrap u w 0x23 0) ∧ (u.stream w).qflags = (s.stream w).qflags ||| r.flags) := by
  intro r
  have hshape : xShape (.vscan d a b z ty op rnd c) = some ⟨c, scanSrcs op a b z, .vec d, rnd, false, false⟩ := rfl
  have hready : XReady s w c (scanSrcs op a b z) (.vec d) false := by
    obtain ⟨_, sh, hsh, hready⟩ := h
    cases hsh
    exact hready
  have hbody := scanBody_eq (ty := ty) (rnd := rnd) (c := c) (op := op) (a := a) (b := b) (z := z) hready.whoOn ((s.core w.core).pred c.guard)
  refine ⟨fun hov => xForm_does_of (check := noCheck) (body := scanBody ty op rnd z c s) h hshape rfl rfl hbody ?_, fun hfl hmail hte => ?_⟩
  · rcases hov with hfl | hmail | hte
    · exact .inr (overflows_false _ hfl)
    · exact .inl ((Bool.false_or _).trans hmail)
    · exact .inr (by simp [overflows, hte])
  · refine xFrame_overflows (f := formR (.vscan d a b z ty op rnd c) d (scanSrcs op a b z) rnd c) (check := noCheck)
      (body := scanBody ty op rnd z c s) hready rfl hbody ?_ ?_
    · exact (Bool.false_or _).trans hmail
    · simp [overflows, hte]
      exact hfl

/-- The integer sums of a scan by element. -/
def scanSums (ty : Ty) (v : Vec) (carry : Nat) : List Nat :=
  (List.range (512 / ty.width)).map (fun j => (carry + ∑ q ∈ Finset.range (j + 1), vget ty.width v q) % 2 ^ (8 * ty.width))

theorem vScan_sums (hty : ty.isInt = true) (np : Np) (rnd : Rnd) (dph : Nat) (v v1 : Vec) (carry : Carry) :
    vScan ty 0 np rnd dph v v1 carry = XRes.of (vecOfEls ty.width (scanSums ty v ((carry.map BitVec.toNat).getD 0))) := by
  have hlen : (sklansky (fun x y => (x + y) % 2 ^ (8 * ty.width)) 0 (levels ty.width) 0 (els ty.width v)).length = 512 / ty.width := by
    simp [length_sklansky, els]
  have hget := fun j (hj : j < 512 / ty.width) => getD_prefixSums ty v hj
  simp only [vScan, hty, if_true]
  generalize sklansky (fun x y => (x + y) % 2 ^ (8 * ty.width)) 0 (levels ty.width) 0 (els ty.width v) = ys at hlen hget
  congr 2
  cases carry with
  | none =>
    refine List.ext_getElem (by simp [hlen, scanSums]) fun j hj _ => ?_
    have hval := hget j (hlen ▸ hj)
    rw [List.getD_eq_getElem _ _ (show j < ys.length from hj)] at hval
    simp [hval, scanSums]
  | some cw =>
    refine List.ext_getElem (by simp [hlen, scanSums]) fun j hj _ => ?_
    simp only [Option.map_some, List.length_map] at hj
    have hval := hget j (hlen ▸ hj)
    rw [List.getD_eq_getElem _ _ (show j < ys.length from hj)] at hval
    simp [hval, scanSums]

theorem vscan_sums (hty : ty.isInt = true) (h : XCan (.vscan d a b z ty 0 rnd c) s w) : XElements (.vscan d a b z ty 0 rnd c) s w ty (fun j =>
    ((((List.range (j + 1)).map (fun q => ty.readInt (vget ty.width (xIn s w [a, z] 0 ty) q))).sum +
      (if z = .s 0 then 0 else (xScalar s w [a, z] 1).toNat)) % (2 ^ (8 * ty.width) : Nat)).toNat) := by
  have hdoes := (vscan_does h).1 (.inl ?_)
  · have hv : vScan ty 0 ((s.stream w).profile c.np) rnd (s.stream w).phase (xIn s w (scanSrcs 0 a b z) 0 ty) (xIn s w (scanSrcs 0 a b z) 1 ty)
        (scanCarry s w 0 a b z) = _ := vScan_sums hty ..
    rw [hv] at hdoes
    refine xElements_of_list hdoes fun j hj => ?_
    have hcarry : ((scanCarry s w 0 a b z).map BitVec.toNat).getD 0 = if z = .s 0 then 0 else (xScalar s w [a, z] 1).toNat := by
      by_cases hz : z = .s 0
      · simp [scanCarry, hz]
      · simp [scanCarry, hz, scanSrcs]
    rw [scanSums, getD_map_range _ _ hj, Nat.mod_mod, hcarry, Int.add_emod, sum_readInt_emod, ← Int.add_emod, Nat.add_comm]
    have htoNat : ∀ m k : Nat, ((m : Int) % (k : Int)).toNat = m % k := fun m k => by rw [← Int.natCast_emod, Int.toNat_natCast]
    refine (htoNat _ _).symm.trans ?_
    split <;> simp <;> rfl
  · rw [vScan_sums hty]
    exact BitVec.zero_and

end

/-- Settles O29, form by form. -/
theorem vectorReductions : Obligations.VectorReductions := by
  intro s w d a b z ty op rnd c W n M np ph x red srcs last carry scan
  refine ⟨vred_does, vred_sums, fun hty o gt ho => ?_, vscan_does, vscan_sums⟩
  have hside : ∃ isMax : Bool, o = (if isMax then 1 else 2) ∧ ∀ j k, gt (x [a] j) (x [a] k) ↔
      rankKey isMax ty (vget W (xIn s w [a] 0 ty) k) < rankKey isMax ty (vget W (xIn s w [a] 0 ty) j) := by
    simp only [List.mem_cons, Prod.mk.injEq, List.not_mem_nil, or_false] at ho
    rcases ho with ⟨rfl, rfl⟩ | ⟨rfl, rfl⟩
    · exact ⟨true, rfl, fun _ _ => Iff.rfl⟩
    · exact ⟨false, rfl, fun _ _ => by simp [rankKey, x, W]⟩
  obtain ⟨isMax, rfl, hgt⟩ := hside
  simp only [hgt, not_lt]
  refine ⟨vred_picks isMax hty, ?_⟩
  have hop : (if isMax then 1 else 2) + 2 = if isMax then 3 else 4 := by cases isMax <;> rfl
  rw [hop]
  exact vred_indexes isMax hty

end Sys2Proof.Machine
end

section
/-! SUPPORT. Conversion, packing, pruning, ranking and counting (R195 to R204): what a part operand at its limit raises, the flags
and elements of the results, and the obligation about them. -/

namespace Sys2Proof.Machine

/-! ## Conversion of an element (R197) -/

theorem convElem_lt {dst src : Ty} (hd : dst.isElem = true) (hb : dst ≠ .b8) (r : RMode) (sat : Bool) {v : Nat} (hv : v < 2 ^ (8 * src.width)) :
    (convElem dst src r sat v).1 < 2 ^ (8 * dst.width) := by
  unfold convElem
  split
  · split <;> exact wrapTo_lt _ _
  next hint =>
  have hwidth : (Fmt.ofTy dst).width = 8 * dst.width := by
    refine ofTy_width ?_
    cases dst <;> simp_all [Ty.isInt, Ty.isElem, Ty.isFloat3]
  split
  next heq =>
    subst heq
    split
    · rw [← hwidth]
      exact (ofTy_fits dst).nan
    · exact hv
  · rw [← hwidth]
    exact round_lt (ofTy_fits dst) _ _ _

theorem saturated_no_aovf (c : Bool) (x y : Int) (fl : Word) (h : fl &&& fAovf = 0) : (if c then (x, fNv) else (y, fl)).2 &&& fAovf = 0 := by
  cases c
  · exact h
  · exact (by decide : fNv &&& fAovf = 0)

theorem optional_no_aovf {fl : Word} (h : fl &&& fAovf = 0) (b : Bool) : (if b then fl else 0) &&& fAovf = 0 := by
  cases b
  · exact BitVec.zero_and
  · exact h

theorem inexact_no_aovf (b : Bool) : (if b then fNx else 0) &&& fAovf = 0 := optional_no_aovf (by decide) b

theorem intOfInt_no_aovf (t : Ty) (i : Int) : (intOfInt t i).2 &&& fAovf = 0 := saturated_no_aovf _ _ _ _ BitVec.zero_and

theorem intOfNum_no_aovf (t : Ty) (r : RMode) (x : Num) : (intOfNum t r x).2 &&& fAovf = 0 := by
  cases x with
  | nan => exact (by decide : fNv &&& fAovf = 0)
  | inf neg => exact (by decide : fNv &&& fAovf = 0)
  | fin neg m e => exact saturated_no_aovf _ _ _ _ (inexact_no_aovf _)

theorem convElem_no_aovf (dst src : Ty) (r : RMode) (sat : Bool) (v : Nat) : (convElem dst src r sat v).2 &&& fAovf = 0 := by
  unfold convElem
  split
  · split
    · exact intOfInt_no_aovf _ _
    · exact intOfNum_no_aovf _ _ _
  · split
    · split <;> exact BitVec.zero_and
    · exact round_no_aovf _ _ _ _

/-! ## A block of elements at its place in a vector (R184, R196) -/

/-- An element of a block that stands `p` elements into the vector. -/
theorem vget_shifted {W p i : Nat} (l : List Nat) (hin : W * (p + i) + W ≤ 512) :
    vget W (BitVec.ofNat 4096 (natOfEls W l * 2 ^ (8 * W * p))) (p + i) = l.getD i 0 % 2 ^ (8 * W) := by
  have hsplit : 8 * W * (p + i) = 8 * W * p + 8 * W * i := by ring
  rw [vget, BitVec.toNat_ofNat, ← natOfEls_digit, hsplit]
  refine Nat.eq_of_testBit_eq fun m => ?_
  simp only [Nat.testBit_mod_two_pow, Nat.testBit_div_two_pow, Nat.testBit_mul_two_pow]
  by_cases hm : m < 8 * W
  · have hle : 8 * W * p ≤ m + (8 * W * p + 8 * W * i) := by omega
    have hlt : m + (8 * W * p + 8 * W * i) < 4096 := by
      have : 8 * (W * (p + i) + W) ≤ 8 * 512 := Nat.mul_le_mul_left 8 hin
      have heq : 8 * (W * (p + i) + W) = 8 * W * p + 8 * W * i + 8 * W := by ring
      omega
    simp only [hm, hle, hlt, decide_true, Bool.true_and]
    congr 1
    omega
  · simp [hm]

/-! ## Groups of eight (R201) -/

theorem chunks_eq {α : Type} (k n : Nat) (l : List α) : chunks k n l = (List.range n).map (fun c => (l.drop (k * c)).take k) := by
  induction n generalizing l with
  | zero => rfl
  | succ n ih =>
    rw [chunks, ih, List.range_succ_eq_map, List.map_cons, List.map_map]
    simp [Function.comp_def, Nat.mul_succ, List.drop_drop, Nat.add_comm]

/-- A group of eight elements of a vector. -/
def octet (W : Nat) (v : Vec) (c : Nat) : List Nat := (List.range 8).map (fun i => vget W v (c * 8 + i))

theorem length_octet (W : Nat) (v : Vec) (c : Nat) : (octet W v c).length = 8 := by simp [octet]

theorem chunks_octets (W : Nat) (v : Vec) (n : Nat) (hn : 8 * n ≤ 512 / W) : chunks 8 n (els W v) = (List.range n).map (octet W v) := by
  rw [chunks_eq]
  refine List.map_congr_left fun c hc => ?_
  have hc := List.mem_range.mp hc
  refine List.ext_getElem (by simp [els, octet]; omega) fun i hi _ => ?_
  simp [els, octet, Nat.mul_comm]

/-- The elements of equally long blocks, one after another. -/
theorem getD_flatten_blocks (f : Nat → List Nat) (m k : Nat) (hlen : ∀ c, (f c).length = m) {j : Nat} (hj : j < k * m) :
    (((List.range k).map f).flatten).getD j 0 = (f (j / m)).getD (j % m) 0 := by
  induction k with
  | zero => omega
  | succ k ih =>
    have hsize : (((List.range k).map f).flatten).length = k * m := by
      rw [List.length_flatten, List.map_map]
      simp [Function.comp_def, hlen]
    rw [List.range_succ, List.map_append, List.flatten_append]
    rw [Nat.succ_mul] at hj
    by_cases hlt : j < k * m
    · rw [List.getD_append _ _ _ _ (hsize ▸ hlt), ih hlt]
    · have hm : 0 < m := by omega
      have hdiv : j / m = k := Nat.div_eq_of_lt_le (not_lt.mp hlt) (by rw [Nat.succ_mul]; omega)
      have hmod : j % m = j - k * m := by
        rw [Nat.mod_def, hdiv, Nat.mul_comm]
      rw [List.getD_append_right _ _ _ _ (by omega), hsize, hdiv, hmod]
      simp

/-! ## Flags of packing (R73, R199) -/

theorem encodeK4_no_aovf (xs : List Num) (kind : Nat) (mode : Nat → RMode) : (encodeK4 xs kind mode).2.2 &&& fAovf = 0 := by
  unfold encodeK4
  split
  · exact (by decide : fQnan &&& fAovf = 0)
  · change (List.foldl (α := List Nat × Word × Nat) _ _ xs).2.1 &&& fAovf = 0
    refine List.foldlRecOn (motive := fun (acc : List Nat × Word × Nat) => acc.2.1 &&& fAovf = 0) xs _ ?_ fun acc hacc x _ => ?_
    · exact optional_no_aovf (by decide) _
    · cases x with
      | inf neg => exact or_and_zero hacc (by decide)
      | nan => exact or_and_zero hacc (inexact_no_aovf _)
      | fin neg m e => exact or_and_zero hacc (inexact_no_aovf _)

/-! ## The obligation -/

section
variable {s : State} {w : Who} {d : XDst} {e : XAnyDst} {a b z : XSrc} {ty sty : Ty} {op : Nat} {rnd : Rnd} {sat : Bool} {c : XCtl}

/-- A part operand at its limit raises 0x02 with the b field. -/
theorem part_traps {i : Instr} {h : XShape} {n : Nat} {body : Pred → Nat → List SVal → XOut} (hcan : XCan i s w) (hs : xShape i = some h)
    (hi : exec i s = xFrame (h.form i) (partCheck i n) body s) (hn : n ≤ (src (sourceVals (s.core w.core) h.srcs) 1).word64.toNat) :
    Traps i s w 0x02 (opTval i false 4) := by
  obtain ⟨_, sh, hsh, hready⟩ := hcan
  obtain rfl : h = sh := Option.some.inj (hs.symm.trans hsh)
  have hcheck : partCheck i n (sourceVals (s.core w.core) h.srcs) = some (fieldFault i false 4) := if_pos hn
  rw [Traps, hi, xFrame, xFrameWith_ready (f := h.form i) hready]
  change finish w 8 s ((partCheck i n (sourceVals (s.core w.core) h.srcs)).getD _) = _
  rw [hcheck]
  rfl

theorem partCheck_none {i : Instr} {n : Nat} {v : List SVal} (h : (src v 1).word64.toNat < n) : partCheck i n v = none :=
  if_neg (Nat.not_le.mpr h)

theorem vcvt_traps (h : XCan (.vcvt d a b ty sty rnd sat c) s w)
    (hp : vcvtParts sty.width ty.width ≤ (xScalar s w [a, b] 1).toNat) :
    Traps (.vcvt d a b ty sty rnd sat c) s w 0x02 (opTval (.vcvt d a b ty sty rnd sat c) false 4) :=
  part_traps (h := ⟨c, [a, b], .vec d, rnd, false, false⟩) (n := vcvtParts sty.width ty.width)
    (body := fun _ dph v => (vCvt ty sty rnd sat dph (partOf v) ((src v 0).as sty)).out) h rfl rfl hp

theorem vcvt_does (h : XCan (.vcvt d a b ty sty rnd sat c) s w) (hp : (xScalar s w [a, b] 1).toNat < vcvtParts sty.width ty.width) :
    XDoes (.vcvt d a b ty sty rnd sat c) s w
      (vCvt ty sty rnd sat (s.stream w).phase (xScalar s w [a, b] 1).toNat (xIn s w [a, b] 0 sty)).out := by
  refine xForm_does (h := ⟨c, [a, b], .vec d, rnd, false, false⟩) (check := partCheck (.vcvt d a b ty sty rnd sat c) (vcvtParts sty.width ty.width))
    (body := fun _ dph v => (vCvt ty sty rnd sat dph (partOf v) ((src v 0).as sty)).out) h rfl rfl (partCheck_none hp) rfl ?_
  change (vCvt ..).flags &&& fAovf = 0
  have hconv : ∀ l : List (Nat × Word), (∀ x ∈ l, x.2 &&& fAovf = 0) → l.foldl (fun f x => f ||| x.2) (0 : Word) &&& fAovf = 0 := fun l hl =>
    foldl_or_no_aovf (fun x : Nat × Word => x.2) l 0 (by decide) hl
  rw [vCvt]
  by_cases hw : sty.width ≤ ty.width
  · rw [if_pos hw]
    refine hconv _ fun x hx => ?_
    obtain ⟨_, _, rfl⟩ := List.mem_map.mp hx
    exact convElem_no_aovf ..
  · rw [if_neg hw]
    refine hconv _ fun x hx => ?_
    obtain ⟨_, _, rfl⟩ := List.mem_map.mp hx
    exact convElem_no_aovf ..

theorem vcvt_types (h : XCan (.vcvt d a b ty sty rnd sat c) s w) : ty.isElem = true ∧ ty ≠ .b8 := by
  have hwf := h.wf
  simp only [Instr.wf, Bool.and_eq_true, bne_iff_ne] at hwf
  tauto

theorem vcvt_widens (h : XCan (.vcvt d a b ty sty rnd sat c) s w) (hp : (xScalar s w [a, b] 1).toNat < vcvtParts sty.width ty.width)
    (hw : sty.width ≤ ty.width) : XRounded (.vcvt d a b ty sty rnd sat c) s w ty (fun j =>
      convElem ty sty (RMode.at rnd (s.stream w).phase j) sat (vget sty.width (xIn s w [a, b] 0 sty)
        (if sty.width < ty.width then (xScalar s w [a, b] 1).toNat * (512 / ty.width) + j else j))) := by
  have hdoes := vcvt_does h hp
  rw [vCvt, if_pos hw] at hdoes
  obtain ⟨hel, hb8⟩ := vcvt_types h
  have hfun : ∀ j, (if sty.width < ty.width then (xScalar s w [a, b] 1).toNat * (512 / ty.width) + j else j) =
      (if sty.width < ty.width then (xScalar s w [a, b] 1).toNat * (512 / ty.width) else 0) + j := fun j => by split <;> simp
  simp only [hfun]
  exact xRounded_of_range hdoes fun j _ => convElem_lt hel hb8 _ _ (vget_lt _ _ _)

theorem vcvt_narrows (h : XCan (.vcvt d a b ty sty rnd sat c) s w) (hp : (xScalar s w [a, b] 1).toNat < vcvtParts sty.width ty.width)
    (hw : ty.width < sty.width) :
    let n := 512 / sty.width
    let p := (xScalar s w [a, b] 1).toNat
    let conv (j i : Nat) := convElem ty sty (RMode.at rnd (s.stream w).phase j) sat (vget sty.width (xIn s w [a, b] 0 sty) i)
    ∃ o, XDoes (.vcvt d a b ty sty rnd sat c) s w o ∧
      (∀ j < 512, o.part.getLsbD j = (decide (ty.width * n * p ≤ j) && decide (j < ty.width * n * (p + 1)))) ∧
      (∀ i < n, vget ty.width o.vec (p * n + i) = (conv (p * n + i) i).1) ∧
      ∀ m < 64, o.flags.getLsbD m = (List.range n).any (fun i => (conv (p * n + i) i).2.getLsbD m) := by
  intro n p conv
  have hdoes := vcvt_does h hp
  rw [vCvt, if_neg (Nat.not_le.mpr hw)] at hdoes
  obtain ⟨hel, hb8⟩ := vcvt_types h
  have hfits : ty.width * (n * vcvtParts sty.width ty.width) = 512 := by
    simp only [n, vcvtParts, hw, if_true]
    revert hw
    cases ty <;> cases sty <;> decide
  refine ⟨_, hdoes, fun j hj => ?_, fun i hi => ?_, fun m _ => ?_⟩
  · change (byteRange (ty.width * (p * n)) (ty.width * n)).getLsbD j = _
    rw [byteRange_bit _ _ hj, Bool.decide_and, Nat.mul_comm p n, ← Nat.mul_assoc, Nat.mul_succ]
  · have hin : ty.width * (p * n + i) + ty.width ≤ 512 := by
      calc ty.width * (p * n + i) + ty.width = ty.width * (p * n + (i + 1)) := by ring
        _ ≤ ty.width * (p * n + n) := Nat.mul_le_mul_left _ (by omega)
        _ = ty.width * (n * (p + 1)) := by ring
        _ ≤ ty.width * (n * vcvtParts sty.width ty.width) := Nat.mul_le_mul_left _ (Nat.mul_le_mul_left _ hp)
        _ = 512 := hfits
    refine (vget_shifted _ hin).trans ?_
    rw [List.map_map, getD_map_range _ _ hi]
    exact Nat.mod_eq_of_lt (convElem_lt hel hb8 _ _ (vget_lt _ _ _))
  · change (((List.range n).map _).foldl (fun f (x : Nat × Word) => f ||| x.2) 0).getLsbD m = _
    rw [getLsbD_foldl_or, getLsbD_lit_zero, Bool.false_or, List.any_map]
    rfl

/-! ### Packing (R198 to R200) -/

theorem vqpack_traps (h : XCan (.vqpack d a b ty op rnd c) s w) (hp : packParts ty ≤ (xScalar s w [a, b] 1).toNat) :
    Traps (.vqpack d a b ty op rnd c) s w 0x02 (opTval (.vqpack d a b ty op rnd c) false 4) :=
  part_traps (h := ⟨c, [a, b], .vec d, rnd, false, false⟩) (n := packParts ty)
    (body := fun _ dph v => (vQpack ty op rnd dph (partOf v) ((src v 0).as ty)).out) h rfl rfl hp

theorem vqpack_does (h : XCan (.vqpack d a b ty op rnd c) s w) (hp : (xScalar s w [a, b] 1).toNat < packParts ty) :
    XDoes (.vqpack d a b ty op rnd c) s w
      (vQpack ty op rnd (s.stream w).phase (xScalar s w [a, b] 1).toNat (xIn s w [a, b] 0 ty)).out := by
  refine xForm_does (h := ⟨c, [a, b], .vec d, rnd, false, false⟩) (check := partCheck (.vqpack d a b ty op rnd c) (packParts ty))
    (body := fun _ dph v => (vQpack ty op rnd dph (partOf v) ((src v 0).as ty)).out) h rfl rfl (partCheck_none hp) rfl ?_
  refine foldl_or_no_aovf (fun x : List Nat × Nat × Word => x.2.2) _ 0 (by decide) fun x hx => ?_
  obtain ⟨_, _, rfl⟩ := List.mem_map.mp hx
  exact encodeK4_no_aovf _ _ _

theorem vqunpk_traps (h : XCan (.vqunpk d a b ty rnd c) s w) (hp : packParts ty ≤ (xScalar s w [a, b] 1).toNat) :
    Traps (.vqunpk d a b ty rnd c) s w 0x02 (opTval (.vqunpk d a b ty rnd c) false 4) :=
  part_traps (h := ⟨c, [a, b], .vec d, rnd, false, false⟩) (n := packParts ty)
    (body := fun _ dph v => (vQunpk ty rnd dph (partOf v) ((src v 0).as ty)).out) h rfl rfl hp

theorem vqunpk_does (h : XCan (.vqunpk d a b ty rnd c) s w) (hp : (xScalar s w [a, b] 1).toNat < packParts ty) :
    XDoes (.vqunpk d a b ty rnd c) s w
      (vQunpk ty rnd (s.stream w).phase (xScalar s w [a, b] 1).toNat (xIn s w [a, b] 0 ty)).out := by
  refine xForm_does (h := ⟨c, [a, b], .vec d, rnd, false, false⟩) (check := partCheck (.vqunpk d a b ty rnd c) (packParts ty))
    (body := fun _ dph v => (vQunpk ty rnd dph (partOf v) ((src v 0).as ty)).out) h rfl rfl (partCheck_none hp) rfl ?_
  refine collect_no_aovf (W := ty.width) fun x hx => ?_
  obtain ⟨_, _, rfl⟩ := List.mem_map.mp hx
  exact round_no_aovf _ _ _ _

/-! ### Pruning, ranking and counting (R201 to R204) -/

theorem vspars_does (h : XCan (.vspars d a ty op c) s w) : XDoes (.vspars d a ty op c) s w (vSpars ty op (xIn s w [a] 0 ty)).out := by
  refine xForm_does (check := noCheck) (body := fun _ _ v => (vSpars ty op ((src v 0).as ty)).out) h rfl rfl rfl rfl ?_
  change (vSpars ..).flags &&& fAovf = 0
  unfold vSpars
  split <;> exact BitVec.zero_and

theorem getD_kept (t : Ty) (g : List Nat) (hg : g.length = 8) {i : Nat} (hi : i < 8) :
    (List.zipWith (fun x k => if k then x else 0) g (keptOf t g)).getD i 0 = if rankIn t g i < 4 then g.getD i 0 else 0 := by
  have hk : (keptOf t g).length = 8 := by simp [keptOf]
  simp [List.getD, keptOf, hg, hi]

theorem vspars_prunes (h : XCan (.vspars d a ty 2 c) s w) : XElements (.vspars d a ty 2 c) s w ty (fun j =>
    let at_ (i : Nat) := vget ty.width (xIn s w [a] 0 ty) (j / 8 * 8 + i)
    if ((List.range 8).filter (fun i => magBeats ty (at_ i) (at_ (j % 8)) ||
      (decide (i < j % 8) && !magBeats ty (at_ (j % 8)) (at_ i)))).length < 4 then at_ (j % 8) else 0) := by
  have hdoes := vspars_does h
  have hn : 512 / ty.width / 8 * 8 = 512 / ty.width := by cases ty <;> decide
  refine xElements_of_list hdoes fun j hj => ?_
  rw [chunks_octets _ _ _ (by omega), List.map_map, getD_flatten_blocks _ 8 _ (fun q => ?_) (hn.symm ▸ hj)]
  · have hlt : j % 8 < 8 := Nat.mod_lt _ (by decide)
    rw [Function.comp_apply, getD_kept _ _ (length_octet _ _ _) hlt, rankIn, length_octet, List.countP_eq_length_filter]
    have hget : ∀ i < 8, (octet ty.width (xIn s w [a] 0 ty) (j / 8)).getD i 0 = vget ty.width (xIn s w [a] 0 ty) (j / 8 * 8 + i) :=
      fun i hi => getD_map_range _ _ hi
    have hfilter : (List.range 8).filter (fun i => magBeats ty ((octet ty.width (xIn s w [a] 0 ty) (j / 8)).getD i 0)
          ((octet ty.width (xIn s w [a] 0 ty) (j / 8)).getD (j % 8) 0) || (decide (i < j % 8) &&
            !magBeats ty ((octet ty.width (xIn s w [a] 0 ty) (j / 8)).getD (j % 8) 0) ((octet ty.width (xIn s w [a] 0 ty) (j / 8)).getD i 0))) =
        (List.range 8).filter (fun i => magBeats ty (vget ty.width (xIn s w [a] 0 ty) (j / 8 * 8 + i))
          (vget ty.width (xIn s w [a] 0 ty) (j / 8 * 8 + j % 8)) || (decide (i < j % 8) &&
            !magBeats ty (vget ty.width (xIn s w [a] 0 ty) (j / 8 * 8 + j % 8)) (vget ty.width (xIn s w [a] 0 ty) (j / 8 * 8 + i)))) :=
      List.filter_congr fun i hi => by rw [hget i (List.mem_range.mp hi), hget _ hlt]
    dsimp only
    rw [hfilter, hget _ hlt]
    split
    · exact Nat.mod_eq_of_lt (vget_lt _ _ _)
    · exact Nat.zero_mod _
  · simp [length_octet, keptOf]

theorem vtopk_does (hop : op < 2) (h : XCan (.vtopk e a b ty op c) s w) :
    XDoes (.vtopk e a b ty op c) s w (vTopk ty op (xScalar s w [a, b] 1) (xIn s w [a, b] 0 ty)).out := by
  refine xForm_does (check := noCheck) (body := fun _ _ v => if op = 2 then predOut (vTopkMask ty (src v 1).word64 ((src v 0).as ty))
    else (vTopk ty op (src v 1).word64 ((src v 0).as ty)).out) h rfl rfl rfl (if_neg (by omega)) BitVec.zero_and

theorem vtopk_masks (h : XCan (.vtopk e a b ty 2 c) s w) :
    XDoes (.vtopk e a b ty 2 c) s w ⟨0, 0, vTopkMask ty (xScalar s w [a, b] 1) (xIn s w [a, b] 0 ty), 0⟩ :=
  xForm_does (check := noCheck) (body := fun _ _ v => predOut (vTopkMask ty (src v 1).word64 ((src v 0).as ty)))
    h rfl rfl rfl rfl BitVec.zero_and

theorem vhist_counts (h : XCan (.vhist d a b z ty sat c) s w) : XElements (.vhist d a b z ty sat c) s w .z32 (fun j =>
    let base := ty.readInt ((xScalar s w [a, b, z] 1).toNat % 2 ^ (8 * ty.width))
    let hits := ((List.range (512 / ty.width)).filter (fun i => ty.readInt (vget ty.width (xIn s w [a, b, z] 0 ty) i) == base + j)).length
    let sum := vget 4 (xIn s w [a, b, z] 2 .z32) j + hits
    if sat then min sum (2 ^ 32 - 1) else sum % 2 ^ 32) := by
  have hdoes := xForm_gives (check := noCheck)
    (body := fun _ _ v => (vHist ty sat ((src v 0).as ty) (src v 1).word64 ((src v 2).as .z32)).out)
    (res := vHist ty sat (xIn s w [a, b, z] 0 ty) (xScalar s w [a, b, z] 1) (xIn s w [a, b, z] 2 .z32)) h rfl rfl rfl rfl rfl
  refine xElements_of_range hdoes fun j _ => ?_
  have hcount : ((els ty.width (xIn s w [a, b, z] 0 ty)).map (fun x => ty.readInt x -
        ty.readInt ((xScalar s w [a, b, z] 1).toNat % 2 ^ (8 * ty.width)))).countP (fun x => x == (j : Int)) =
      ((List.range (512 / ty.width)).filter (fun i => ty.readInt (vget ty.width (xIn s w [a, b, z] 0 ty) i) ==
        ty.readInt ((xScalar s w [a, b, z] 1).toNat % 2 ^ (8 * ty.width)) + j)).length := by
    rw [els, List.map_map, List.countP_map, List.countP_eq_length_filter]
    congr 1
    refine List.filter_congr fun i _ => ?_
    rw [Function.comp_apply, Function.comp_apply, Bool.eq_iff_iff, beq_iff_eq, beq_iff_eq]
    exact sub_eq_iff_eq_add'
  dsimp only
  rw [hcount]
  split
  · exact Nat.mod_eq_of_lt (by simp only [Ty.width]; omega)
  · exact Nat.mod_mod _ _

end

/-- Settles O30, form by form. -/
theorem vectorConversions : Obligations.VectorConversions := by
  intro s w d e a b z ty sty op rnd sat c ws wd ns ph part parts conv
  exact ⟨fun h => ⟨vcvt_traps h, vcvt_widens h, vcvt_narrows h⟩, fun h => ⟨vqpack_traps h, vqpack_does h⟩,
    fun h => ⟨vqunpk_traps h, vqunpk_does h⟩, vspars_does, vspars_prunes, vtopk_does, vtopk_masks, vhist_counts⟩

end Sys2Proof.Machine
end

section
/-! SUPPORT. Long forms of the execute engine that are nullified, refused or wait (R33, R103, R106, R155, R211): the frame of every
form, case by case, and the obligation about it. -/

namespace Sys2Proof.Machine

/-- Every long form runs in the frame of its shape. -/
theorem xShape_runs {i : Instr} {h : XShape} {s : State} (hs : xShape i = some h) :
    ∃ check act, exec i s = xFrameWith (h.form i) check act s := by
  cases i <;> simp only [xShape, Option.some.injEq, reduceCtorEq] at hs <;> subst hs <;>
    simp only [exec, execVadd, execVsub, execVmul, execVmulh, execVmad, execVlog, execVsh, execVmin, execVmax, execVabs, execVfadd,
      execVfsub, execVfmul, execVfma, execVfdiv, execVfsqrt, execVcmp, execVsel, execVmov, execViota, execVperm, execVslide, execVred,
      execVscan, execVclmul, execVcvt, execVqpack, execVqunpk, execVspars, execVtopk, execVhist, execCscan, map2Form, round2Form,
      xFrame] <;> exact ⟨_, _, rfl⟩

section
variable {f : XForm} {check : List SVal → Option Res} {act : Pred → List SVal → State → Who → Res} {s : State} {w : Who}

/-! ## The frame before the sources (R155, R206) -/

theorem xFrameWith_waits (hw : s.whoOn .x = w) (hg : (s.core w.core).predBusy f.ctl.guard = true) :
    xFrameWith f check act s = .next (s.setStream w { s.stream w with run := .waiting }) := by
  simp only [xFrameWith, hw, hg, if_true]
  rfl

theorem xFrameWith_refuses {c : Nat} {v : Word} (hw : s.whoOn .x = w) (hg : (s.core w.core).predBusy f.ctl.guard = false)
    (hp : partnerFault f.i s w f.ctl.take f.ctl.give = some (c, v)) : xFrameWith f check act s = .next (takeTrap s w c v) := by
  simp only [xFrameWith, hw, hg, Bool.false_eq_true, if_false, hp]
  rfl

theorem xFrameWith_nullifies (hw : s.whoOn .x = w) (hg : (s.core w.core).predBusy f.ctl.guard = false)
    (hp : partnerFault f.i s w f.ctl.take f.ctl.give = none) (hn : f.nullable = true) (hz : (s.core w.core).pred f.ctl.guard = 0) :
    xFrameWith f check act s = finish w 8 s (xNull f s w) := by
  simp only [xFrameWith, hw, hg, Bool.false_eq_true, if_false, hp, hn, hz, beq_self_eq_true, Bool.and_self, if_true]

theorem xFrameWith_stops {r : Res} (hw : s.whoOn .x = w) (hg : (s.core w.core).predBusy f.ctl.guard = false)
    (hp : partnerFault f.i s w f.ctl.take f.ctl.give = none)
    (hlive : f.guardOperand = true ∨ (∃ e, f.target = .vec (.e e)) ∨ (s.core w.core).pred f.ctl.guard ≠ 0)
    (hr : xRefuse f s w = some r) : xFrameWith f check act s = finish w 8 s r := by
  have hnull : (f.nullable && (s.core w.core).pred f.ctl.guard == 0) = false := by
    rcases hlive with ha | ⟨n, hn⟩ | ha
    · simp [XForm.nullable, ha]
    · simp [XForm.nullable, hn, XTarget.half?]
    · simpa using fun _ => ha
  simp only [xFrameWith, hw, hg, Bool.false_eq_true, if_false, hp, hnull, hr]

/-! ## What keeps a form from issuing (R33, R106, R211) -/

theorem xRefuse_noEntry {n : Nat} (ht : f.ctl.trapOnEmpty = true) (hq : missingQueue (s.core w.core) f.srcs = some n) :
    xRefuse f s w = some (.raise 0x04 (BitVec.ofNat 64 n)) := by
  simp only [xRefuse, ht, hq]

theorem xRefuse_empty {n : Nat} (ht : f.ctl.trapOnEmpty = true) (hq : missingQueue (s.core w.core) f.srcs = none)
    (he : emptySource (s.core w.core) f.srcs = some n) : xRefuse f s w = some (.raise 0x06 (BitVec.ofNat 64 n)) := by
  simp only [xRefuse, ht, hq, he]

/-- No source raises for want of a value. -/
def XForm.calm (f : XForm) (k : Core) : Prop :=
  f.ctl.trapOnEmpty = false ∨ (missingQueue k f.srcs = none ∧ emptySource k f.srcs = none)

/-- A form whose queue has no room. -/
theorem xRefuse_full {n : Nat} (hc : f.calm (s.core w.core)) (ht : f.target = .vec (.w n)) (hn : 8 ≤ ((s.core w.core).wOf n).length) :
    xRefuse f s w = some (if (s.stream w).gauge then .raise 0x05 (BitVec.ofNat 64 (16 + n)) else .wait) := by
  rcases hc with hc | ⟨hq, he⟩
  · simp [xRefuse, hc, ht, XTarget.push?, hn]
  · simp [xRefuse, hq, he, ht, XTarget.push?, hn]

/-- The queue that a form pushes has room. -/
def XForm.room (f : XForm) (k : Core) : Prop := ∀ n, f.target = .vec (.w n) → (k.wOf n).length < 8

/-- A source, a half or a token is still to come. -/
def XForm.lacks (f : XForm) (k : Core) : Bool :=
  (missingQueue k f.srcs).isSome || (emptySource k f.srcs).isSome || f.target.half?.any (halfBusy k) ||
    !k.hasTokens (takeFifos .x f.ctl.take)

theorem half?_eq_some {t : XTarget} {e : Nat} : t.half? = some e ↔ t = .vec (.e e) := by
  rcases t with (n | n | n) | p <;> simp [XTarget.half?]

theorem lacks_iff {k : Core} : f.lacks k = true ↔ missingQueue k f.srcs ≠ none ∨ emptySource k f.srcs ≠ none ∨
    k.hasTokens (takeFifos .x f.ctl.take) = false ∨ ∃ e, f.target = .vec (.e e) ∧ halfBusy k e = true := by
  simp only [XForm.lacks, Bool.or_eq_true, Option.isSome_iff_ne_none, Option.any_eq_true, half?_eq_some, Bool.not_eq_true', or_assoc]
  exact or_congr_right (or_congr_right or_comm)

/-- What follows once the sources raise nothing and the queue has room. -/
theorem xRefuse_calm (hc : f.calm (s.core w.core)) (hr : f.room (s.core w.core)) : xRefuse f s w =
    ((s.core w.core).fullFifo (giveFifos .x f.ctl.give)).elim
      (if f.lacks (s.core w.core) then some .wait
        else if emptyMailbox (s.core w.core) f.srcs || earlierReader (s.core w.core) .x (mboxesOf f.srcs) then some (.desched (mboxesOf f.srcs))
        else (errorMark (s.core w.core) f.srcs).map (fun m => .raise m.1 m.2))
      (fun n => some (if (s.stream w).gauge then .raise 0x07 (BitVec.ofNat 64 n) else .wait)) := by
  have hpush : ∀ m, f.target = .vec (.w m) → ¬ 8 ≤ ((s.core w.core).wOf m).length := fun m hm => Nat.not_le.mpr (hr m hm)
  have hquiet : ∀ {α : Type} (x : α) (a b : Nat → α), (match f.ctl.trapOnEmpty, missingQueue (s.core w.core) f.srcs,
      emptySource (s.core w.core) f.srcs with
      | true, some c, _ => a c
      | true, none, some c => b c
      | _, _, _ => x) = x := fun x a b => by
    rcases hc with hc | ⟨hq, he⟩
    · simp only [hc]
    · rw [hq, he]
      cases f.ctl.trapOnEmpty <;> rfl
  refine (hquiet _ _ _).trans ?_
  rcases ht : f.target with (m | m | m) | p
  case vec.w =>
    simp only [XForm.lacks, ht, XTarget.push?, XTarget.half?, Option.any_none, Bool.false_eq_true, if_false, Bool.or_false, hpush m ht, decide_false]
    cases (s.core w.core).fullFifo (giveFifos .x f.ctl.give) <;> cases errorMark (s.core w.core) f.srcs <;> rfl
  all_goals
    simp only [XForm.lacks, ht, XTarget.push?, XTarget.half?, Option.any_none, Option.any_some, Bool.false_eq_true, if_false, Bool.or_false]
    cases (s.core w.core).fullFifo (giveFifos .x f.ctl.give) <;> cases errorMark (s.core w.core) f.srcs <;> rfl

end

/-! ## A nullified form (R155) -/

section
variable {f : XForm} {s : State} {w : Who}

/-- The destination of a nullified form: zeros under zeroing. -/
def nullDest (f : XForm) (k : Core) : Core :=
  if f.ctl.zeroing then
    match f.target with
    | .pred p => k.setPredNow p 0
    | .vec (.v n) => k.setVecPhys (k.phys n) 0
    | _ => k
  else k

theorem mergeVec_whole (old v : Vec) : mergeVec old v (BitVec.allOnes 512) false = v := by
  refine BitVec.eq_of_getLsbD_eq fun i hi => ?_
  rw [mergeVec_bit _ _ _ _ hi, getLsbD_ones (by omega), if_pos rfl]

theorem xNull_eq (hp : ∀ p, f.target = .pred p → (s.core w.core).predBusy p = false)
    (hv : ∀ n, f.target = .vec (.v n) → (s.core w.core).vecFull n = true) : xNull f s w =
      .ok (s.setCore w.core { nullDest f (s.core w.core) with x := (nullDest f (s.core w.core)).x.stepPhase f.rnd }) .seq := by
  have hdest : (if f.ctl.zeroing then
      match f.target with
      | .pred p => (s.core w.core).setPred p 0 (BitVec.allOnes 512)
      | .vec (.v n) => (s.core w.core).setVec ((s.core w.core).phys n) 0 (BitVec.allOnes 512)
      | _ => s.core w.core
      else s.core w.core) = nullDest f (s.core w.core) := by
    unfold nullDest
    cases f.ctl.zeroing
    · rfl
    rcases ht : f.target with (n | n | n) | p
    · have hfull : (s.core w.core).xs.vempty.contains ((s.core w.core).phys n) = false := by simpa [Core.vecFull] using hv n ht
      simp only [if_true, Core.setVec, hfull, Bool.false_eq_true, if_false, mergeVec_whole]
    · rfl
    · rfl
    · simp only [if_true, Core.setPred, hp p ht, Bool.false_eq_true, if_false]
      exact congrArg _ (mergePred_whole _ _)
  rw [← hdest]
  rfl

/-- A nullified form changes the values of registers alone. -/
theorem nullDest_frame (f : XForm) (k : Core) :
    nullDest f k = { k with xs := { k.xs with v := (nullDest f k).xs.v, p := (nullDest f k).xs.p } } := by
  unfold nullDest
  cases f.ctl.zeroing
  · rfl
  rcases f.target with (n | n | n) | p
  · rfl
  · rfl
  · rfl
  · by_cases hp : p = 0 <;> simp [Core.setPredNow, hp]

theorem nullDest_zeroes {n m : Nat} (hz : f.ctl.zeroing = true) (ht : f.target = .vec (.v m)) {k : Core} (hnm : k.phys m = k.phys n) :
    (nullDest f k).vec n = 0 := by
  rw [nullDest, hz, ht]
  simp only [if_true, hnm]
  exact tget_tset_self _ _ _ _

theorem nullDest_vec {n : Nat} {k : Core} (h : f.ctl.zeroing = false ∨ ∀ m, f.target = .vec (.v m) → k.phys m ≠ k.phys n) :
    (nullDest f k).vec n = k.vec n := by
  unfold nullDest
  cases hz : f.ctl.zeroing
  · rfl
  rcases ht : f.target with (m | m | m) | p
  · exact tget_tset_ne _ _ _ (Ne.symm ((h.resolve_left (by simp [hz])) m ht))
  · rfl
  · rfl
  · by_cases hp : p = 0 <;> simp [Core.setPredNow, hp, Core.vec, Core.phys]

theorem nullDest_pred (k : Core) (n : Nat) :
    (nullDest f k).pred n = if f.ctl.zeroing = true ∧ n ≠ 0 ∧ f.target = .pred n then 0 else k.pred n := by
  unfold nullDest
  cases hz : f.ctl.zeroing
  · simp
  rcases ht : f.target with (m | m | m) | p
  · simp [Core.pred, Core.setVecPhys]
  · simp
  · simp
  · by_cases hn : n = 0
    · simp [Core.pred, hn]
    by_cases hp : p = n
    · subst hp
      simp [Core.pred, Core.setPredNow, hn]
    · by_cases hp0 : p = 0
      · simp [Core.setPredNow, hp0, Ne.symm hn]
      · have hpn : ¬ n = p := fun e => hp e.symm
        simp [Core.pred, Core.setPredNow, hn, hp, hp0, tget_tset_ne _ _ _ hpn]

/-- A nullified form goes on after it has changed its core. -/
theorem xNull_runs (heng : w.eng = .x) (hst : Straight s w 8) (hp : ∀ p, f.target = .pred p → (s.core w.core).predBusy p = false)
    (hv : ∀ n, f.target = .vec (.v n) → (s.core w.core).vecFull n = true) :
    ∃ t, finish w 8 s (xNull f s w) = .next t ∧ OnlyCore w.core s t ∧
      t.core w.core = { nullDest f (s.core w.core) with
        x := { (s.core w.core).x with
          pc := s.pcOf w + 8, run := s.runNext w, at_ := .free,
          dph := if f.rnd = .rdi then BitVec.ofNat 64 (((s.stream w).phase + 1) % 32) else (s.core w.core).x.dph } } := by
  obtain ⟨c, e⟩ := w
  obtain rfl : e = .x := heng
  have hx : (nullDest f (s.core c)).x = (s.core c).x := by rw [nullDest_frame]
  obtain ⟨K, hK⟩ : ∃ K : Core, K = { nullDest f (s.core c) with
      x := { (s.core c).x with dph := if f.rnd = .rdi then BitVec.ofNat 64 (((s.core c).x.phase + 1) % 32) else (s.core c).x.dph } } := ⟨_, rfl⟩
  rw [xNull_eq hp hv, stepPhase_eq, hx, ← hK]
  have hstream : (s.setCore c K).stream ⟨c, .x⟩ = { s.stream ⟨c, .x⟩ with
      dph := if f.rnd = .rdi then BitVec.ofNat 64 (((s.core c).x.phase + 1) % 32) else (s.core c).x.dph } := by
    simp only [State.stream, State.core_setCore_self, Core.stream, hK]
  have hnext : (s.setCore c K).runNext ⟨c, .x⟩ = s.runNext ⟨c, .x⟩ := by
    rw [State.runNext, hstream, State.core_setCore_self, hK, nullDest_frame]
    exact runAfter_congr rfl rfl rfl
  refine ⟨(s.setCore c K).goTo ⟨c, .x⟩ (s.pcOf ⟨c, .x⟩ + 8), ?_, ?_, ?_⟩
  · exact congrArg Host.Outcome.next (retire_stays hst (by rw [hstream]) (by rw [hstream]))
  · rw [State.goTo, State.setStream, State.setCore_setCore]
    exact onlyCore_setCore _ _ _
  · simp only [State.goTo, hnext, State.setStream, State.core_setCore_self, hstream, Core.setStream]
    rw [hK]
    rfl

end

/-! ## The obligation -/

section
variable {i : Instr} {h : XShape} {s : State} {w : Who}

/-- A form that its guard leaves active is stopped by what `xRefuse` says. -/
theorem form_stops {r : Res} (hw : s.whoOn .x = w) (heng : w.eng = .x) (hs : xShape i = some h)
    (hg : (s.core w.core).predBusy h.ctl.guard = false) (ht : (s.core w.core).hasEngines (partners .x h.ctl.take) = true)
    (hgv : (s.core w.core).hasEngines (partners .x h.ctl.give) = true)
    (hlive : h.guardOp = true ∨ (∃ e, h.target = .vec (.e e)) ∨ (s.core w.core).pred h.ctl.guard ≠ 0)
    (hr : xRefuse (h.form i) s w = some r) : exec i s = finish w 8 s r := by
  obtain ⟨check, act, hrun⟩ := xShape_runs (s := s) hs
  rw [hrun]
  exact xFrameWith_stops hw hg (partnerFault_none (by rw [heng]; exact ht) (by rw [heng]; exact hgv)) hlive hr

theorem stops_gauge {c : Nat} {v : Word} (b : Bool) (h : exec i s = finish w 8 s (if b then .raise c v else .wait)) :
    if b then Traps i s w c v else exec i s = .next (s.setStream w { s.stream w with run := .waiting }) := by
  cases b <;> exact h

theorem form_nullifies (hw : s.whoOn .x = w) (heng : w.eng = .x) (hs : xShape i = some h)
    (hg : (s.core w.core).predBusy h.ctl.guard = false) (ht : (s.core w.core).hasEngines (partners .x h.ctl.take) = true)
    (hgv : (s.core w.core).hasEngines (partners .x h.ctl.give) = true)
    (hdead : ¬ (h.guardOp = true ∨ (∃ e, h.target = .vec (.e e)) ∨ (s.core w.core).pred h.ctl.guard ≠ 0)) :
    exec i s = finish w 8 s (xNull (h.form i) s w) := by
  obtain ⟨check, act, hrun⟩ := xShape_runs (s := s) hs
  simp only [not_or, not_exists, Bool.not_eq_true, not_not] at hdead
  obtain ⟨hop, hhalf, hzero⟩ := hdead
  have hnull : (h.form i).nullable = true := by
    change (!h.guardOp && h.target.half?.isNone) = true
    rw [hop]
    rcases ht : h.target with (n | n | n) | p
    · rfl
    · rfl
    · exact absurd ht (hhalf n)
    · rfl
  rw [hrun]
  exact xFrameWith_nullifies hw hg (partnerFault_none (by rw [heng]; exact ht) (by rw [heng]; exact hgv)) hnull hzero

end

/-- Settles O31, by the cases of the frame. -/
theorem vectorFormsStop : Obligations.VectorFormsStop := by
  intro s w i h hacts heng hs k waits live calm room
  have hw : s.whoOn .x = w := by
    rw [whoOn_of_acts hacts, ← heng]
  obtain ⟨check, act, hrun⟩ := xShape_runs (s := s) hs
  have hpart : ∀ c v, partnerFault i s w h.ctl.take h.ctl.give = some (c, v) → k.predBusy h.ctl.guard = false →
      exec i s = .next (takeTrap s w c v) := fun c v hp hg => hrun.trans (xFrameWith_refuses hw hg hp)
  refine ⟨fun hg => hrun.trans (xFrameWith_waits hw hg), fun hg ht => hpart _ _ ?_ hg, fun hg ht =>
    ⟨fun hgv => hpart _ _ ?_ hg, fun hgv hdead hst hp hv => ?_, fun hgv hlive => ?_⟩⟩
  · simp [partnerFault, enginesOk, heng, ht, k] at ht ⊢
  · simp [partnerFault, enginesOk, heng, k] at ht hgv ⊢
    simp [ht, hgv]
  · obtain ⟨t, hfin, honly, hcore⟩ := xNull_runs (f := h.form i) heng hst hp hv
    refine ⟨t, (form_nullifies hw heng hs hg ht hgv hdead).trans hfin, honly, ?_, fun n m hz htg hnm => ?_, fun n hn => ?_, fun n => ?_⟩
    · rw [hcore]
      conv_lhs => rw [nullDest_frame]
      rfl
    · rw [hcore]
      exact nullDest_zeroes (f := h.form i) hz htg hnm
    · rw [hcore]
      exact nullDest_vec (f := h.form i) hn
    · rw [hcore]
      exact nullDest_pred (f := h.form i) _ n
  have hstop : ∀ {r : Res}, xRefuse (h.form i) s w = some r → exec i s = finish w 8 s r := form_stops hw heng hs hg ht hgv hlive
  refine ⟨fun q hte hq => hstop (xRefuse_noEntry (f := h.form i) hte hq), fun r hte hq he => hstop (xRefuse_empty (f := h.form i) hte hq he),
    fun hc n htg hn => stops_gauge _ (hstop (xRefuse_full (f := h.form i) hc htg hn)), fun hc hr n hf => ?_, fun hc hr hf => ?_⟩
  · refine stops_gauge _ (hstop ?_)
    rw [xRefuse_calm (f := h.form i) hc hr]
    change Option.elim (k.fullFifo (giveFifos .x h.ctl.give)) _ _ = _
    rw [hf]
    rfl
  · have hcalm := xRefuse_calm (f := h.form i) hc hr
    change _ = Option.elim (k.fullFifo (giveFifos .x h.ctl.give)) _ _ at hcalm
    rw [hf, Option.elim_none] at hcalm
    refine ⟨fun hlack => hstop (hcalm.trans (if_pos ?_)), fun hq he htk hhalf => ?_⟩
    · exact (lacks_iff (f := h.form i)).mpr hlack
    have hready : (h.form i).lacks k = false := by
      rw [← Bool.not_eq_true, lacks_iff (f := h.form i)]
      rintro (h1 | h1 | h1 | ⟨e, h1, h2⟩)
      · exact h1 hq
      · exact h1 he
      · exact Bool.false_ne_true (h1.symm.trans htk)
      · exact Bool.false_ne_true ((hhalf e h1).symm.trans h2)
    rw [hready, if_neg Bool.false_ne_true] at hcalm
    change _ = if (emptyMailbox k h.srcs || earlierReader k .x (mboxesOf h.srcs)) = true then _ else Option.map _ (errorMark k h.srcs) at hcalm
    refine ⟨fun hmail => hstop (hcalm.trans (if_pos (by simpa using hmail))), fun hm1 hm2 m hm => ?_⟩
    rw [hm1, hm2, hm] at hcalm
    exact hstop hcalm

end Sys2Proof.Machine
end

section
/-! SUPPORT. CSCAN (R189 to R192): what stops it, what it leaves at issue, what lands of it, and the obligation about it. -/

namespace Sys2Proof.Machine

section
variable {s : State} {w : Who} {d : XDst} {a b z : XSrc} {ty : Ty} {op scope : Nat} {rnd : Rnd} {c : XCtl}

/-! ## Issue -/

theorem cscan_finish (h : XCan (.cscan d a b z ty op scope rnd c) s w) : exec (.cscan d a b z ty op scope rnd c) s = finish w 8 s
    ((cscanCheck (.cscan d a b z ty op scope rnd c) ty op scope ((s.stream w).profile c.np) s
      (sourceVals (s.core w.core) (cscanSrcs op a b z))).getD
      (cscanIssue (form (.cscan d a b z ty op scope rnd c) d (cscanSrcs op a b z) c) d z ty op scope ((s.stream w).profile c.np)
        ((s.core w.core).pred c.guard) (sourceVals (s.core w.core) (cscanSrcs op a b z)) s w)) := by
  obtain ⟨_, sh, hsh, hready⟩ := h
  cases hsh
  have hw := hready.whoOn
  have hrun := xFrameWith_ready (f := form (.cscan d a b z ty op scope rnd c) d (cscanSrcs op a b z) c)
    (check := cscanCheck (.cscan d a b z ty op scope rnd c) ty op scope (profileOf c s) s)
    (act := cscanIssue (form (.cscan d a b z ty op scope rnd c) d (cscanSrcs op a b z) c) d z ty op scope (profileOf c s)) hready
  have hnp : profileOf c s = (s.stream w).profile c.np := by rw [profileOf, hw]
  rw [← hnp]
  exact hrun

theorem XCan.acts {i : Instr} (h : XCan i s w) : Acts s w := by
  obtain ⟨_, _, _, hready⟩ := h
  exact hready.acts

theorem XCan.whoOn {i : Instr} (h : XCan i s w) : s.whoOn .x = w := by
  obtain ⟨_, _, _, hready⟩ := h
  exact hready.whoOn

theorem XCan.eng {i : Instr} (h : XCan i s w) : w.eng = .x := by
  obtain ⟨_, _, _, hready⟩ := h
  exact hready.eng

theorem XCan.line {i : Instr} (h : XCan i s w) : Straight s w 8 := by
  obtain ⟨_, _, _, hready⟩ := h
  exact hready.line

/-- The check of CSCAN by its cases. -/
theorem cscanCheck_eq (i : Instr) (np : Np) (v : List SVal) (hw : s.whoOn .x = w) : cscanCheck i ty op scope np s v =
    if 4 ≤ (s.core w.core).xs.scans.length then some .wait
    else (scanFirst s w.core scope).bind (fun x =>
      if x.op ≠ op then some (fieldFault i false 0) else if x.np ≠ np then some (fieldFault i true 29)
      else if x.ty ≠ ty then some (fieldFault i true 14) else none) := by
  simp only [cscanCheck, hw, bne_iff_ne]
  cases scanFirst s w.core scope <;> rfl

/-- The carry of a contribution: the scalar's low bits in every element, or the identity. -/
def scanCarryIn (s : State) (w : Who) (a b z : XSrc) (ty : Ty) (op : Nat) : Vec :=
  if z = .s 0 then vecOfEls ty.width (List.replicate (512 / ty.width) (cscanIdentity ty op))
  else xIn s w (cscanSrcs op a b z) (if op = 3 then 2 else 1) ty

/-- The contribution that a CSCAN leaves with its launch. -/
def contribOf (s : State) (w : Who) (a b z : XSrc) (ty : Ty) (op scope : Nat) (np : Np) : Contrib :=
  ⟨scope, unitOf (scope + 2) w.core, scanInst s w.core scope, op, ty, np, (s.core w.core).lidx, scanCarryIn s w a b z ty op,
    xIn s w (cscanSrcs op a b z) 0 ty, if op = 3 then xIn s w (cscanSrcs op a b z) 1 ty else 0⟩

/-- The empty v registers once register `n` is empty too. -/
def emptiedBy (k : Core) (n : Nat) : List Nat := if k.xs.vempty.contains (k.phys n) then k.xs.vempty else k.phys n :: k.xs.vempty

/-- What a CSCAN leaves at issue: its core with the operands consumed, its destination reserved and its scan outstanding. -/
theorem cscanIssue_eq (i : Instr) (np : Np) (g : Pred) : ∃ T R Q M W N VE sc,
    cscanIssue (form i d (cscanSrcs op a b z) c) d z ty op scope np g (sourceVals (s.core w.core) (cscanSrcs op a b z)) s w =
      .ok ((s.setCore w.core { s.core w.core with
        tokens := T, reserved := R, q := Q, mbox := M, w := W, nextId := N,
        xs := { (s.core w.core).xs with
          vempty := VE, scans := (s.core w.core).xs.scans ++ [sc],
          scanCount := tset (s.core w.core).xs.scanCount scope (scanInst s w.core scope + 1) } }).mapLaunch (s.core w.core).record
        (fun l => { l with contribs := l.contribs ++ [contribOf s w a b z ty op scope np] })) .seq ∧
      sc.scope = scope ∧ sc.inst = scanInst s w.core scope ∧ sc.ty = ty ∧ sc.op = op ∧ sc.mask = g ∧ sc.zeroing = c.zeroing ∧
      sc.give = c.give ∧ ∀ m, d = .v m → VE.contains ((s.core w.core).phys m) = true := by
  obtain ⟨T, R, Q, M, hk, _⟩ := xConsume_eq (form i d (cscanSrcs op a b z) c) (s.core w.core)
  have hcarry : (match carryOf z (src (sourceVals (s.core w.core) (cscanSrcs op a b z)) (if op = 3 then 2 else 1)) with
      | some _ => (src (sourceVals (s.core w.core) (cscanSrcs op a b z)) (if op = 3 then 2 else 1)).as ty
      | none => vecOfEls ty.width (List.replicate (512 / ty.width) (cscanIdentity ty op))) = scanCarryIn s w a b z ty op := by
    by_cases hz : z = .s 0 <;> simp [carryOf, scanCarryIn, hz, xIn]
  have hcontrib : contribOf s w a b z ty op scope np = ⟨scope, unitOf (scope + 2) w.core, scanInst s w.core scope, op, ty, np,
      (s.core w.core).lidx, _, xIn s w (cscanSrcs op a b z) 0 ty, if op = 3 then xIn s w (cscanSrcs op a b z) 1 ty else 0⟩ :=
    congrArg (fun h => (⟨scope, unitOf (scope + 2) w.core, scanInst s w.core scope, op, ty, np,
      (s.core w.core).lidx, h, xIn s w (cscanSrcs op a b z) 0 ty, if op = 3 then xIn s w (cscanSrcs op a b z) 1 ty else 0⟩ : Contrib)) hcarry.symm
  rcases d with n | n | n
  · refine ⟨T, R, Q, M, (s.core w.core).w, (s.core w.core).nextId + 1, emptiedBy (s.core w.core) n, ⟨(s.core w.core).nextId, scope, scanInst s w.core scope,
      .v ((s.core w.core).phys n), ty, op, g, c.zeroing, c.give⟩, ?_, rfl, rfl, rfl, rfl, rfl, rfl, rfl, fun m hm => ?_⟩
    rotate_left
    · cases hm
      exact contains_added (s.core w.core).xs.vempty ((s.core w.core).phys n)
    · rw [hcontrib]
      simp only [cscanIssue, hk]
      rfl
  · refine ⟨T, R, Q, M, ((s.core w.core).reserveW n).2.w, (s.core w.core).nextId + 1, (s.core w.core).xs.vempty, ⟨(s.core w.core).nextId, scope, scanInst s w.core scope,
      .w n, ty, op, g, c.zeroing, c.give⟩, ?_, rfl, rfl, rfl, rfl, rfl, rfl, rfl, fun m hm => by simp at hm⟩
    rw [hcontrib]
    simp only [cscanIssue, hk]
    rfl
  · refine ⟨T, R, Q, M, (s.core w.core).w, (s.core w.core).nextId, (s.core w.core).xs.vempty, ⟨(s.core w.core).nextId, scope,
      scanInst s w.core scope, .e n, ty, op, g, c.zeroing, c.give⟩, ?_, rfl, rfl, rfl, rfl, rfl, rfl, rfl, fun m hm => by simp at hm⟩
    rw [hcontrib]
    simp only [cscanIssue, hk]
    rfl

theorem cscanIdentity_lt (hty : ty = .f32 ∨ ty.isInt = true) : cscanIdentity ty op < 2 ^ (8 * ty.width) := by
  have hfloat : ty.isInt ≠ true → ty.width = 4 := fun h => by
    rcases hty with rfl | hty
    · rfl
    · exact absurd hty h
  have hzero : 0 < 2 ^ (8 * ty.width) := by positivity
  unfold cscanIdentity
  split
  · split
    · exact hzero
    · rw [hfloat ‹_›]
      decide
  · split
    · exact wrapTo_lt _ _
    · rw [hfloat ‹_›]
      decide
  · split
    · exact wrapTo_lt _ _
    · rw [hfloat ‹_›]
      decide
  · exact hzero

theorem cscan_types (h : XCan (.cscan d a b z ty op scope rnd c) s w) : ty = .f32 ∨ ty.isInt = true := by
  have hwf := h.wf
  simp only [Instr.wf, Bool.and_eq_true, Bool.or_eq_true, beq_iff_eq] at hwf
  tauto

/-- A carry of s0 is the identity in every element. -/
theorem scanCarryIn_identity (hty : ty = .f32 ∨ ty.isInt = true) (hz : z = .s 0) {j : Nat} (hj : j < 512 / ty.width) :
    vget ty.width (scanCarryIn s w a b z ty op) j = cscanIdentity ty op := by
  rw [scanCarryIn, if_pos hz, vget_vecOfEls _ hj]
  simp [List.getD, hj, Nat.mod_eq_of_lt (cscanIdentity_lt hty)]

/-- A long form that changes its core, but for its stream, and its launch. -/
theorem finish_coreLaunch {k : Core} {r : Nat} {g : Launch → Launch} (hst : Straight s w 8) (hk : k.stream w.eng = (s.core w.core).stream w.eng) :
    finish w 8 s (.ok ((s.setCore w.core k).mapLaunch r g) .seq) = .next (((s.setCore w.core k).mapLaunch r g).goTo w (s.pcOf w + 8)) := by
  have hstream : ((s.setCore w.core k).mapLaunch r g).stream w = s.stream w := by
    change ((s.setCore w.core k).core w.core).stream w.eng = _
    rw [State.core_setCore_self, hk]
    rfl
  exact congrArg Host.Outcome.next (retire_stays hst (by rw [hstream]) (by rw [hstream]))

/-- A CSCAN that nothing stops. -/
theorem cscan_issues (h : XCan (.cscan d a b z ty op scope rnd c) s w) (hfew : (s.core w.core).xs.scans.length < 4)
    (hsame : ∀ x, scanFirst s w.core scope = some x → x.op = op ∧ x.np = (s.stream w).profile c.np ∧ x.ty = ty) :
    ∃ T R Q M W N VE sc, exec (.cscan d a b z ty op scope rnd c) s = .next
      (((s.setCore w.core { s.core w.core with
        tokens := T, reserved := R, q := Q, mbox := M, w := W, nextId := N,
        xs := { (s.core w.core).xs with
          vempty := VE, scans := (s.core w.core).xs.scans ++ [sc],
          scanCount := tset (s.core w.core).xs.scanCount scope (scanInst s w.core scope + 1) } }).mapLaunch (s.core w.core).record
        (fun l => { l with contribs := l.contribs ++ [contribOf s w a b z ty op scope ((s.stream w).profile c.np)] })).goTo w (s.pcOf w + 8)) ∧
      sc.scope = scope ∧ sc.inst = scanInst s w.core scope ∧ sc.ty = ty ∧ sc.op = op ∧ sc.mask = (s.core w.core).pred c.guard ∧
      sc.zeroing = c.zeroing ∧ sc.give = c.give ∧ ∀ m, d = .v m → VE.contains ((s.core w.core).phys m) = true := by
  obtain ⟨T, R, Q, M, W, N, VE, sc, hact, hsc⟩ := cscanIssue_eq (s := s) (w := w) (d := d) (a := a) (b := b) (z := z) (ty := ty) (op := op)
    (scope := scope) (c := c) (.cscan d a b z ty op scope rnd c) ((s.stream w).profile c.np) ((s.core w.core).pred c.guard)
  have hcheck : cscanCheck (.cscan d a b z ty op scope rnd c) ty op scope ((s.stream w).profile c.np) s
      (sourceVals (s.core w.core) (cscanSrcs op a b z)) = none := by
    rw [cscanCheck_eq _ _ _ h.whoOn, if_neg (Nat.not_le.mpr hfew)]
    cases hx : scanFirst s w.core scope with
    | none => rfl
    | some x =>
      obtain ⟨h1, h2, h3⟩ := hsame x hx
      simp [h1, h2, h3]
  refine ⟨T, R, Q, M, W, N, VE, sc, ?_, hsc⟩
  rw [cscan_finish h, hcheck, Option.getD_none, hact]
  refine finish_coreLaunch h.line ?_
  rw [h.eng]
  rfl

/-- The state in which a long form has changed its core and its launch. -/
theorem launchGoes {K : Core} {r : Nat} {g : Launch → Launch} (heng : w.eng = .x) : ∃ rn,
    (((s.setCore w.core K).mapLaunch r g).goTo w (s.pcOf w + 8)).core w.core =
      { K with x := { K.x with pc := s.pcOf w + 8, run := rn, at_ := .free } } ∧
    (∀ e, e ≠ w.core → (((s.setCore w.core K).mapLaunch r g).goTo w (s.pcOf w + 8)).core e = s.core e) ∧
    (((s.setCore w.core K).mapLaunch r g).goTo w (s.pcOf w + 8)).launches = s.launches.map (fun l => if l.record == r then g l else l) ∧
    (((s.setCore w.core K).mapLaunch r g).goTo w (s.pcOf w + 8)).mem = s.mem := by
  obtain ⟨cr, e⟩ := w
  obtain rfl : e = .x := heng
  have hcore : ((s.setCore cr K).mapLaunch r g).core cr = K := State.core_setCore_self _ _ _
  refine ⟨((s.setCore cr K).mapLaunch r g).runNext ⟨cr, .x⟩, ?_, fun e he => ?_, rfl, rfl⟩
  · simp only [State.goTo, State.setStream, State.core_setCore_self, State.stream, hcore, Core.stream, Core.setStream]
  · rw [State.goTo, State.setStream, State.core_setCore_ne _ _ he]
    exact State.core_setCore_ne _ _ he

/-! ## The landing -/

/-- What lands with flags that end nothing: the flags are set, and the reserved slots give. -/
theorem landWith_gives {u : State} {fl : Word} {give : List Nat} (h : overflows (u.stream w) fl = false) : ∃ T R,
    landWith w fl give u = u.setCore w.core { (u.core w.core).setStream w.eng ((u.stream w).addFlags fl) with tokens := T, reserved := R } := by
  obtain ⟨R, hR, _⟩ := unreserve_eq give ((u.core w.core).setStream w.eng ((u.stream w).addFlags fl))
  obtain ⟨T, hT, _⟩ := giveAll_eq give { (u.core w.core).setStream w.eng ((u.stream w).addFlags fl) with reserved := R }
  refine ⟨T, R, ?_⟩
  simp only [landWith, h, Bool.false_eq_true, if_false, State.setStream, State.core_setCore_self, State.setCore_setCore, Core.giveReserved, hR, hT]

theorem allEnded_gives (k : Core) (t : Stream) (T R : Tbl Nat) (h : t.run = k.x.run) :
    ({ k.setStream .x t with tokens := T, reserved := R } : Core).allEnded = k.allEnded := allEnded_setStream k .x t h

theorem fillVec_eq (k : Core) (m : Nat) : ∃ VE, fillVec k m = { k with xs := { k.xs with vempty := VE } } ∧
    ((∀ p ∈ k.x.pend, p.op.writesVec m = false) → (∀ q ∈ k.xs.scans, q.d ≠ .v m) → VE.contains m = false) := by
  unfold fillVec
  split
  next h =>
    refine ⟨k.xs.vempty, rfl, fun hp hq => ?_⟩
    simp only [Bool.or_eq_true, List.any_eq_true, beq_iff_eq] at h
    rcases h with ⟨p, hm, hw⟩ | ⟨q, hm, hd⟩
    · exact absurd hw (by simp [hp p hm])
    · exact absurd hd (hq q hm)
  · exact ⟨_, rfl, fun _ _ => by simp⟩

theorem settle_masked (res old : Vec) (g : Pred) (zeroing : Bool) {i : Nat} (hi : i < 4096) :
    (mergeVec old (settle res (BitVec.allOnes 512) g zeroing).1 (settle res (BitVec.allOnes 512) g zeroing).2 false).getLsbD i =
      if g.getLsbD (i / 8) then res.getLsbD i else if zeroing then false else old.getLsbD i := by
  have hone : (BitVec.allOnes 512).getLsbD (i / 8) = true := getLsbD_ones (by omega)
  rw [mergeVec_bit _ _ _ _ hi]
  cases zeroing
  · simp only [settle, Bool.false_eq_true, if_false, BitVec.getLsbD_and, hone, Bool.true_and]
  · simp only [settle, if_true, hone, mergeVec_bit _ _ _ _ hi]

/-- A scan that lands in a v register. -/
theorem landScan_vec {n m : Nat} {sc : Scan} {v : Vec} {fl : Word} {cr : Nat} (hd : sc.d = .v m) (hend : (s.core cr).allEnded = false)
    (hov : overflows (s.core cr).x fl = false) : ∃ T R VE V, landScan s cr n sc v fl = s.setCore cr { s.core cr with
      x := (s.core cr).x.addFlags fl, tokens := T, reserved := R,
      xs := { (s.core cr).xs with scans := ldel (s.core cr).xs.scans n, v := tset (s.core cr).xs.v m V, vempty := VE } } ∧
      (∀ i < 4096, V.getLsbD i = if sc.mask.getLsbD (i / 8) then v.getLsbD i else if sc.zeroing then false
        else (tget (s.core cr).xs.v m 0).getLsbD i) ∧
      ((∀ p ∈ (s.core cr).x.pend, p.op.writesVec m = false) → (∀ q ∈ ldel (s.core cr).xs.scans n, q.d ≠ .v m) → VE.contains m = false) := by
  obtain ⟨V, hV⟩ : ∃ V, V = mergeVec (tget (s.core cr).xs.v m 0) (settle v (BitVec.allOnes 512) sc.mask sc.zeroing).1
    (settle v (BitVec.allOnes 512) sc.mask sc.zeroing).2 false := ⟨_, rfl⟩
  obtain ⟨VE, hfill, hempty⟩ := fillVec_eq { s.core cr with
    xs := { (s.core cr).xs with scans := ldel (s.core cr).xs.scans n, v := tset (s.core cr).xs.v m V } } m
  obtain ⟨T, R, hland⟩ := landWith_gives (w := ⟨cr, .x⟩) (give := giveFifos .x sc.give) (fl := fl) (u := s.setCore cr { s.core cr with
    xs := { (s.core cr).xs with scans := ldel (s.core cr).xs.scans n, v := tset (s.core cr).xs.v m V, vempty := VE } })
    (by rw [State.stream, State.core_setCore_self]; exact hov)
  have hrun : landScan s cr n sc v fl = tryEndJob (landWith ⟨cr, .x⟩ fl (giveFifos .x sc.give) (s.setCore cr { s.core cr with
    xs := { (s.core cr).xs with scans := ldel (s.core cr).xs.scans n, v := tset (s.core cr).xs.v m V, vempty := VE } })) cr := by
    rw [← hfill, hV]
    simp only [landScan, hd]
    rfl
  refine ⟨T, R, VE, V, ?_, fun i hi => ?_, hempty⟩
  · rw [hrun, hland, tryEndJob_running]
    · simp only [State.core_setCore_self, State.setCore_setCore, State.stream, Core.stream, Core.setStream]
    · rw [State.core_setCore_self]
      refine (allEnded_gives _ _ _ _ ?_).trans ?_
      · rfl
      · rw [State.core_setCore_self]
        exact hend
  · rw [hV]
    exact settle_masked _ _ _ _ hi

end

theorem cscanLanding_lands {n cr : Nat} {sc : Scan} {l : Launch} {x : Contrib} {rest : List Contrib} {s : State} (hc : cr < 512)
    (hstill : s.still cr = false) (hsc : (s.core cr).xs.scans[n]? = some sc) (hl : s.launchOf cr = some l) (hwhole : s.whole l.record = true)
    (hblock : scanBlocked (s.core cr) n sc = false) (hinst : instanceOf l sc cr = some (x :: rest)) :
    exec (.cscanLanding cr n) s = .next (landScan s cr n sc (scanValue sc.ty sc.op (s.core cr).lidx x.h (x :: rest)).1
      (scanValue sc.ty sc.op (s.core cr).lidx x.h (x :: rest)).2) := by
  have hexists : coreExists cr = true := decide_eq_true hc
  have hscan : landedScan s cr n = some (landScan s cr n sc (scanValue sc.ty sc.op (s.core cr).lidx x.h (x :: rest)).1
      (scanValue sc.ty sc.op (s.core cr).lidx x.h (x :: rest)).2) := by
    simp only [landedScan, hsc, hl, hblock, hwhole, hinst, Bool.not_true, Bool.or_false, Bool.false_eq_true, if_false]
  have hrun : exec (.cscanLanding cr n) s = execCscanLanding cr n s := rfl
  rw [hrun, execCscanLanding, coreEvent, hexists, hstill, hscan]
  rfl

/-- Settles O32: the cases of the issue, and a landing in a v register. -/
theorem coreScans : Obligations.CoreScans := by
  intro s w d a b z ty op scope rnd c i k srcs last inst
  refine ⟨fun h => ⟨fun hfull => ?_, fun x hfew hx => ?_, fun hfew hsame => ?_⟩,
    fun n sc l x rest hw hstill hend hsc hl hwhole hblock hinst hov m hm => ?_⟩
  · rw [cscan_finish h, cscanCheck_eq _ _ _ h.whoOn, if_pos hfull]
    rfl
  · have hrun : ∀ {r : Res}, (if x.op ≠ op then some (fieldFault i false 0) else if x.np ≠ (s.stream w).profile c.np then
        some (fieldFault i true 29) else if x.ty ≠ ty then some (fieldFault i true 14) else none) = some r → exec i s = finish w 8 s r :=
      fun hr => by rw [cscan_finish h, cscanCheck_eq _ _ _ h.whoOn, if_neg (Nat.not_le.mpr hfew), hx, Option.bind_some, hr, Option.getD_some]
    refine ⟨fun hop => hrun (if_pos hop), fun hop hnp => hrun ((if_neg (not_not.mpr hop)).trans (if_pos hnp)), fun hop hnp hty =>
      hrun ((if_neg (not_not.mpr hop)).trans ((if_neg (not_not.mpr hnp)).trans (if_pos hty)))⟩
  · obtain ⟨T, R, Q, M, W, N, VE, sc, hrun, h1, h2, h3, h4, h5, h6, h7, hve⟩ := cscan_issues h hfew hsame
    have heng := h.eng
    have htypes := cscan_types h
    obtain ⟨cr, e⟩ := w
    obtain rfl : e = .x := heng
    obtain ⟨K, hK⟩ : ∃ K : Core, K = { s.core cr with
      tokens := T, reserved := R, q := Q, mbox := M, w := W, nextId := N,
      xs := { (s.core cr).xs with
        vempty := VE, scans := (s.core cr).xs.scans ++ [sc],
        scanCount := tset (s.core cr).xs.scanCount scope (scanInst s cr scope + 1) } } := ⟨_, rfl⟩
    rw [← hK] at hrun
    obtain ⟨F, hF⟩ : ∃ F : Launch → Launch, F = (fun l => { l with contribs := l.contribs ++
      [contribOf s ⟨cr, .x⟩ a b z ty op scope ((s.stream ⟨cr, .x⟩).profile c.np)] }) := ⟨_, rfl⟩
    rw [← hF] at hrun
    obtain ⟨rn, hcore, hne, hlau, hmem⟩ := launchGoes (s := s) (w := ⟨cr, .x⟩) (K := K) (r := (s.core cr).record) (g := F) rfl
    refine ⟨_, sc, contribOf s ⟨cr, .x⟩ a b z ty op scope ((s.stream ⟨cr, .x⟩).profile c.np), hrun, ?_⟩
    rw [hcore, hlau, hmem]
    subst hK hF
    exact ⟨rfl, h1, h2, h3, h4, h5, h6, h7, tget_tset_self _ _ _ _, rfl, rfl, rfl, rfl, rfl, rfl, rfl, rfl, rfl, fun hop => if_pos hop,
      fun hz => if_neg hz, fun hz j hj => scanCarryIn_identity htypes hz hj, fun n => rfl, rfl, rfl,
      fun m hm => congrArg Bool.not (hve m hm), rfl, rfl, rfl, hne⟩
  · have hland := cscanLanding_lands hw hstill hsc hl hwhole hblock hinst
    obtain ⟨T, R, VE, V, heq, hbits, hempty⟩ := landScan_vec (s := s) (n := n) (v := (scanValue sc.ty sc.op k.lidx x.h (x :: rest)).1) hm hend hov
    refine ⟨_, hland, ?_⟩
    rw [heq, State.core_setCore_self]
    refine ⟨onlyCore_setCore _ _ _, rfl, fun j hj => ?_, fun q hq => tget_tset_ne _ _ _ hq, rfl, hempty, rfl⟩
    change (tget (tset k.xs.v m V) m 0).getLsbD j = _
    rw [tget_tset_self]
    exact hbits j hj

end Sys2Proof.Machine
end

section
/-! SUPPORT. The fields of encoded words (R39, R43, R45, R49, R51), what the decoder reads from a word with given fields, and the codes of
the fields' values. -/

namespace Sys2Proof

/-! ## Fields of a sum -/

/-- A field below the place where a part of a sum begins does not see that part. -/
theorem fld_below (x y k lo n : Nat) (h : lo + n ≤ k) : fld (x * 2 ^ k + y) lo n = fld y lo n := by
  obtain ⟨m, rfl⟩ := Nat.exists_eq_add_of_le h
  have hsplit : x * 2 ^ (lo + n + m) + y = y + x * 2 ^ m * 2 ^ n * 2 ^ lo := by rw [pow_add, pow_add]; ring
  rw [fld, fld, hsplit, Nat.add_mul_div_right _ _ (by positivity), Nat.add_mul_mod_self_right]

theorem fld_whole {v n : Nat} (h : v < 2 ^ n) : fld v 0 n = v := by rw [fld, pow_zero, Nat.div_one, Nat.mod_eq_of_lt h]

theorem bit_eq_fld (w i : Nat) : bit w i = (fld w i 1 == 1) := rfl

/-! ## What the decoder reads -/

/-- The mode in which no form is refused: supervisor, rib mode, every feature accepted; and instruction `i` accepts its profile. -/
structure OpenFor (c : DCtx) (i : Instr) : Prop where
  user : c.user = false
  gauge : c.gauge = false
  accepted : c.accepted = BitVec.allOnes 256
  fits : Machine.profileFits c i = true

/-- The decoder reads one form from two words: instruction `i`, whose checks pass where nothing is refused for its mode or its
features. -/
def Reads (e : Eng) (i : Instr) (w1 w2 : Nat) : Prop :=
  ∀ c : DCtx, c.eng = e → ∃ d, decOp c w1 w2 = some d ∧ d.instr = i ∧ (OpenFor c i → ∀ k ∈ d.checks, k.bad = false)

theorem firstBad_none {p : Cls → Bool} {l : List Chk} (h : ∀ k ∈ l, k.bad = false) : firstBad p l = none := by
  induction l with
  | nil => rfl
  | cons k t ih =>
    rw [firstBad, h k (by simp), Bool.false_and, if_neg Bool.false_ne_true]
    exact ih fun x hx => h x (List.mem_cons_of_mem _ hx)

theorem Reads.only {e : Eng} {i j : Instr} {w1 w2 : Nat} {c : DCtx} (h : Reads e i w1 w2) (hc : c.eng = e) (hj : decodeWords c w1 w2 = .ok j) :
    j = i := by
  obtain ⟨d, hd, hi, _⟩ := h c hc
  rw [decodeWords, hd] at hj
  simp only [Dec.run] at hj
  split at hj
  · cases hj
  · cases hj
    exact hi

theorem Reads.decodes {e : Eng} {i : Instr} {w1 w2 : Nat} {c : DCtx} (h : Reads e i w1 w2) (hc : c.eng = e) (ho : OpenFor c i) :
    decodeWords c w1 w2 = .ok i := by
  obtain ⟨d, hd, hi, hk⟩ := h c hc
  have hnone : firstFault d.checks = none := by simp [firstFault, firstBad_none (hk ho)]
  rw [decodeWords, hd, ← hi]
  simp only [Dec.run, hnone]

/-- The words of a form, as the statement of the encoding reads them. -/
def Coded (e : Eng) (i : Instr) (ws : List Nat) : Prop :=
  ∀ w1 rest, ws = w1 :: rest →
    w1 < 2 ^ 32 ∧ rest.headD 0 < 2 ^ 32 ∧ rest.length = (if 3 * 2 ^ 30 ≤ w1 then 1 else 0) ∧ Reads e i w1 (rest.headD 0)

theorem coded_nil (e : Eng) (i : Instr) : Coded e i [] := fun _ _ h => by simp at h

theorem coded_short {e : Eng} {i : Instr} {w : Nat} (hw : w < 3 * 2 ^ 30) (h : Reads e i w 0) : Coded e i [w] := fun w1 rest he => by
  simp only [List.cons.injEq] at he
  obtain ⟨rfl, rfl⟩ := he
  exact ⟨by omega, by decide, by rw [if_neg (by omega)]; rfl, h⟩

theorem coded_long {e : Eng} {i : Instr} {w v : Nat} (hlo : 3 * 2 ^ 30 ≤ w) (hw : w < 2 ^ 32) (hv : v < 2 ^ 32) (h : Reads e i w v) :
    Coded e i [w, v] := fun w1 rest he => by
  simp only [List.cons.injEq] at he
  obtain ⟨rfl, rfl⟩ := he
  exact ⟨hw, hv, by rw [if_pos hlo]; rfl, h⟩

/-! ## The short formats (R39) -/

/-- The fields of a word of the SI format. -/
structure SIWord (w maj d a i : Nat) : Prop where
  op : fld w 25 7 = maj
  fd : fD w = d
  fa : fA w = a
  fi : fI w = i
  low : ∀ lo n, lo + n ≤ 13 → fld w lo n = fld i lo n

/-- The fields of a word of the S3 format. -/
structure S3Word (w maj d a b f : Nat) : Prop where
  op : fld w 25 7 = maj
  fd : fD w = d
  fa : fA w = a
  fb : fB w = b
  ff : fF w = f
  low : ∀ lo n, lo + n ≤ 7 → fld w lo n = fld f lo n

theorem siWord {maj d a i : Nat} (hm : maj < 128) (hd : d < 64) (ha : a < 64) (hi : i < 8192) :
    SIWord (maj * 2 ^ 25 + d * 2 ^ 19 + a * 2 ^ 13 + i) maj d a i := by
  constructor
  · simp only [fld]; omega
  · simp only [fD, fld]; omega
  · simp only [fA, fld]; omega
  · simp only [fI, fld]; omega
  · intro lo n h
    rw [show maj * 2 ^ 25 + d * 2 ^ 19 + a * 2 ^ 13 + i = (maj * 2 ^ 12 + d * 2 ^ 6 + a) * 2 ^ 13 + i by ring]
    exact fld_below _ _ _ _ _ h

theorem s3Word {maj d a b f : Nat} (hm : maj < 128) (hd : d < 64) (ha : a < 64) (hb : b < 64) (hf : f < 128) :
    S3Word (maj * 2 ^ 25 + d * 2 ^ 19 + a * 2 ^ 13 + b * 2 ^ 7 + f) maj d a b f := by
  constructor
  · simp only [fld]; omega
  · simp only [fD, fld]; omega
  · simp only [fA, fld]; omega
  · simp only [fB, fld]; omega
  · simp only [fF, fld]; omega
  · intro lo n h
    rw [show maj * 2 ^ 25 + d * 2 ^ 19 + a * 2 ^ 13 + b * 2 ^ 7 + f = (maj * 2 ^ 18 + d * 2 ^ 12 + a * 2 ^ 6 + b) * 2 ^ 7 + f by ring]
    exact fld_below _ _ _ _ _ h

theorem coded_s3 {e : Eng} {i : Instr} {maj d a b f : Nat} (hm : maj < 96) (hd : d < 64) (ha : a < 64) (hb : b < 64) (hf : f < 128)
    (h : ∀ w, S3Word w maj d a b f → Reads e i w 0) : Coded e i (encS3 maj d a b f) :=
  coded_short (by omega) (h _ (s3Word (by omega) hd ha hb hf))

theorem coded_si {e : Eng} {i : Instr} {maj d a imm : Nat} (hm : maj < 96) (hd : d < 64) (ha : a < 64) (hi : imm < 8192)
    (h : ∀ w, SIWord w maj d a imm → Reads e i w 0) : Coded e i (encSI maj d a imm) :=
  coded_short (by omega) (h _ (siWord (by omega) hd ha hi))

/-! ## Codes of values -/

theorem regOk_lt {e : Eng} {n : Nat} (h : regOk e n = true) : n < 32 := by
  cases e
  · exact of_decide_eq_true h
  · exact of_decide_eq_true h
  · exact (of_decide_eq_true h : n < 16).trans (by decide)

theorem regOk_field {e : Eng} {n : Nat} (h : regOk e n = true) : n < 64 := (regOk_lt h).trans (by decide)

/-- A signed number of `n + 1` bits is read back from its field. -/
theorem signedField_fieldOfInt {i : Int} {n : Nat} (hlo : -(2 ^ n : Nat) ≤ i) (hhi : i < (2 ^ n : Nat)) :
    fieldOfInt i (n + 1) < 2 ^ (n + 1) ∧ signedField (fieldOfInt i (n + 1)) (n + 1) = i := by
  have hpow : ((2 ^ (n + 1) : Nat) : Int) = 2 * (2 ^ n : Nat) := by push_cast; ring
  have hpos : (0 : Int) < (2 ^ n : Nat) := by positivity
  have hmod : (fieldOfInt i (n + 1) : Int) = i % (2 ^ (n + 1) : Nat) := Int.toNat_of_nonneg (Int.emod_nonneg _ (by omega))
  have hval : i % (2 ^ (n + 1) : Nat) = if 0 ≤ i then i else i + (2 ^ (n + 1) : Nat) := by
    split
    · exact Int.emod_eq_of_lt ‹_› (by omega)
    · rw [← Int.add_emod_right]
      exact Int.emod_eq_of_lt (by omega) (by omega)
  rw [hval] at hmod
  unfold signedField
  rw [Nat.add_sub_cancel]
  generalize fieldOfInt i (n + 1) = v at hmod
  generalize ((2 ^ (n + 1) : Nat)) = M at *
  generalize ((2 ^ n : Nat)) = H at *
  split at hmod
  · exact ⟨by omega, by split <;> omega⟩
  · exact ⟨by omega, by split <;> omega⟩

theorem imm13_field {i : Int} (h : imm13Ok i = true) : encImm i < 8192 ∧ signedField (encImm i) 13 = i := by
  simp only [imm13Ok, Bool.and_eq_true, decide_eq_true_eq] at h
  exact signedField_fieldOfInt (n := 12) (by omega) (by omega)

theorem boolBit_lt (b : Bool) : boolBit b < 2 := by cases b <;> decide

theorem boolBit_beq (b : Bool) : (boolBit b == 1) = b := by cases b <;> rfl

end Sys2Proof
end

section
/-! SUPPORT. The words of the shared control subset (R56, R123) are read back. -/

namespace Sys2Proof

section
variable {e : Eng} {d a b : Nat}

/-! ## Forms of one shape -/

/-- Three registers, `funct` reserved. -/
theorem coded_dab (mk : Nat → Nat → Nat → Instr) {maj : Nat} (hm : maj < 96)
    (hdec : ∀ c w, fld w 25 7 = maj → decOp c w 0 = some ⟨s3dab c.eng w (f0 w), mk (fD w) (fA w) (fB w)⟩)
    (hd : regOk e d = true) (ha : regOk e a = true) (hb : regOk e b = true) : Coded e (mk d a b) (encS3 maj d a b 0) := by
  refine coded_s3 hm (regOk_field hd) (regOk_field ha) (regOk_field hb) (by decide) fun w hw c hc => ?_
  subst hc
  refine ⟨_, hdec c w hw.op, by rw [hw.fd, hw.fa, hw.fb], fun _ => ?_⟩
  simp [s3dab, f0, regChk, opd, ill, hw.fd, hw.fa, hw.fb, hw.ff, hd, ha, hb]

/-- Three registers and one bit of `funct`. -/
theorem coded_dabz (mk : Nat → Nat → Nat → Bool → Instr) {maj : Nat} (hm : maj < 96) (z : Bool)
    (hdec : ∀ c w, fld w 25 7 = maj → decOp c w 0 = some ⟨s3dab c.eng w (f01 w), mk (fD w) (fA w) (fB w) (bit w 0)⟩)
    (hd : regOk e d = true) (ha : regOk e a = true) (hb : regOk e b = true) : Coded e (mk d a b z) (encS3 maj d a b (boolBit z)) := by
  have hz := boolBit_lt z
  refine coded_s3 hm (regOk_field hd) (regOk_field ha) (regOk_field hb) (by omega) fun w hw c hc => ?_
  subst hc
  have hbit : bit w 0 = z := by rw [bit_eq_fld, hw.low 0 1 (by decide), fld_whole (by omega), boolBit_beq]
  refine ⟨_, hdec c w hw.op, by rw [hw.fd, hw.fa, hw.fb, hbit], fun _ => ?_⟩
  simp [s3dab, f01, regChk, opd, ill, hw.fd, hw.fa, hw.fb, hw.ff, hd, ha, hb, Nat.le_of_lt_succ hz]

/-- Two registers and a signed constant. -/
theorem coded_dai (mk : Nat → Nat → Int → Instr) {maj : Nat} (hm : maj < 96) {i : Int}
    (hdec : ∀ c w, fld w 25 7 = maj → decOp c w 0 = some ⟨siDa c.eng w, mk (fD w) (fA w) (fImm w)⟩)
    (hd : regOk e d = true) (ha : regOk e a = true) (hi : imm13Ok i = true) : Coded e (mk d a i) (encSI maj d a (encImm i)) := by
  obtain ⟨hlt, hval⟩ := imm13_field hi
  refine coded_si hm (regOk_field hd) (regOk_field ha) hlt fun w hw c hc => ?_
  subst hc
  refine ⟨_, hdec c w hw.op, by rw [fImm, hw.fd, hw.fa, hw.fi, hval], fun _ => ?_⟩
  simp [siDa, regChk, opd, hw.fd, hw.fa, hd, ha]

/-- A shift by a register. -/
theorem coded_shift (byReg : Nat → Nat → Nat → Instr) (byImm : Nat → Nat → Nat → Instr) {maj : Nat} (hm : maj < 96)
    (hdec : ∀ c w, fld w 25 7 = maj → decOp c w 0 = some (decShift c.eng w byReg byImm))
    (hd : regOk e d = true) (ha : regOk e a = true) (hb : regOk e b = true) : Coded e (byReg d a b) (encS3 maj d a b 0) := by
  refine coded_s3 hm (regOk_field hd) (regOk_field ha) (regOk_field hb) (by decide) fun w hw c hc => ?_
  subst hc
  have hbit : bit w 6 = false := by rw [bit_eq_fld, hw.low 6 1 (by decide)]; rfl
  have hlow : fld w 0 6 = 0 := hw.low 0 6 (by decide)
  refine ⟨_, hdec c w hw.op, ?_, fun _ => ?_⟩
  · simp [decShift, hbit, hw.fd, hw.fa, hw.fb]
  · simp [decShift, hbit, hlow, s3dab, regChk, opd, ill, hw.fd, hw.fa, hw.fb, hd, ha, hb]

/-- A shift by a constant. -/
theorem coded_shiftImm (byReg : Nat → Nat → Nat → Instr) (byImm : Nat → Nat → Nat → Instr) {maj : Nat} (hm : maj < 96) {n : Nat}
    (hdec : ∀ c w, fld w 25 7 = maj → decOp c w 0 = some (decShift c.eng w byReg byImm))
    (hd : regOk e d = true) (ha : regOk e a = true) (hn : n < 64) : Coded e (byImm d a n) (encS3 maj d a 0 (64 + n)) := by
  refine coded_s3 hm (regOk_field hd) (regOk_field ha) (by decide) (by omega) fun w hw c hc => ?_
  subst hc
  have hbit : bit w 6 = true := by
    rw [bit_eq_fld, hw.low 6 1 (by decide), beq_iff_eq]
    simp only [fld]
    omega
  have hlow : fld w 0 6 = n := by
    rw [hw.low 0 6 (by decide)]
    simp only [fld]
    omega
  refine ⟨_, hdec c w hw.op, ?_, fun _ => ?_⟩
  · simp [decShift, hbit, hlow, hw.fd, hw.fa]
  · simp [decShift, hbit, regChk, opd, ill, hw.fd, hw.fa, hw.fb, hd, ha]

/-- Two registers, the rest reserved. -/
theorem coded_da (mk : Nat → Nat → Instr) {maj : Nat} (hm : maj < 96)
    (hdec : ∀ c w, fld w 25 7 = maj → decOp c w 0 = some ⟨s3da c.eng w (f0 w), mk (fD w) (fA w)⟩)
    (hd : regOk e d = true) (ha : regOk e a = true) : Coded e (mk d a) (encS3 maj d a 0 0) := by
  refine coded_s3 hm (regOk_field hd) (regOk_field ha) (by decide) (by decide) fun w hw c hc => ?_
  subst hc
  refine ⟨_, hdec c w hw.op, by rw [hw.fd, hw.fa], fun _ => ?_⟩
  simp [s3da, f0, regChk, opd, ill, hw.fd, hw.fa, hw.fb, hw.ff, hd, ha]

/-- A constant alone, the registers reserved. -/
theorem coded_imm (mk : Nat → Instr) {maj n : Nat} (hm : maj < 96) (hn : n < 8192)
    (hdec : ∀ c w, c.eng = e → fld w 25 7 = maj → decOp c w 0 = some ⟨[ill 19 (fD w != 0), ill 13 (fA w != 0)], mk (fI w)⟩) :
    Coded e (mk n) (encSI maj 0 0 n) := by
  refine coded_si hm (by decide) (by decide) hn fun w hw c hc => ?_
  refine ⟨_, hdec c w hc hw.op, by rw [hw.fi], fun _ => ?_⟩
  simp [ill, hw.fd, hw.fa]

/-- The selection of token FIFOs. -/
theorem coded_tokens (mk : Nat → Instr) {maj f : Nat} (hm : maj < 96) (hf : f < 4)
    (hdec : ∀ c w, fld w 25 7 = maj → decOp c w 0 = some ⟨[ill 19 (fD w != 0), ill 13 (fA w != 0), ill 2 (fld w 2 11 != 0)], mk (fld w 0 2)⟩) :
    Coded e (mk f) (encSI maj 0 0 f) := by
  refine coded_si hm (by decide) (by decide) (by omega) fun w hw c hc => ?_
  have hlow : fld w 0 2 = f := by rw [hw.low 0 2 (by decide), fld_whole (by omega)]
  have hrest : fld w 2 11 = 0 := by
    rw [hw.low 2 11 (by decide)]
    simp only [fld]
    omega
  refine ⟨_, hdec c w hw.op, by rw [hlow], fun _ => ?_⟩
  simp [ill, hw.fd, hw.fa, hrest]

/-! ## Single forms -/

theorem coded_nop : Coded e .nop (encode .nop) := by
  refine coded_s3 (by decide) (by decide) (by decide) (by decide) (by decide) fun w hw c hc => ⟨_, by rw [decOp, decShared, hw.op]; rfl, rfl, fun _ => ?_⟩
  simp [ill, hw.fd, hw.fa, hw.fb, hw.ff]

theorem coded_div {r z : Bool} (hd : regOk e d = true) (ha : regOk e a = true) (hb : regOk e b = true) :
    Coded e (.div d a b r z) (encode (.div d a b r z)) := by
  have hr := boolBit_lt r
  have hz := boolBit_lt z
  refine coded_s3 (by decide) (regOk_field hd) (regOk_field ha) (regOk_field hb) (by omega) fun w hw c hc => ?_
  subst hc
  have hbit1 : bit w 1 = r := by
    rw [bit_eq_fld, hw.low 1 1 (by decide), show fld (boolBit r * 2 + boolBit z) 1 1 = boolBit r by simp only [fld]; omega, boolBit_beq]
  have hbit0 : bit w 0 = z := by
    rw [bit_eq_fld, hw.low 0 1 (by decide), show fld (boolBit r * 2 + boolBit z) 0 1 = boolBit z by simp only [fld]; omega, boolBit_beq]
  have hrest : fld w 2 5 = 0 := by
    rw [hw.low 2 5 (by decide)]
    simp only [fld]
    omega
  refine ⟨_, by rw [decOp, decShared, hw.op]; rfl, by simp only [hw.fd, hw.fa, hw.fb, hbit0, hbit1], fun _ => ?_⟩
  simp [s3dab, regChk, opd, ill, hw.fd, hw.fa, hw.fb, hd, ha, hb, hrest]

theorem coded_movi {i : Int} (hd : regOk e d = true) (hi : imm19Ok i = true) : Coded e (.movi d i) (encode (.movi d i)) := by
  simp only [imm19Ok, Bool.and_eq_true, decide_eq_true_eq] at hi
  obtain ⟨hlt, hval⟩ : fieldOfInt i 19 < 2 ^ 19 ∧ signedField (fieldOfInt i 19) 19 = i := signedField_fieldOfInt (n := 18) (by omega) (by omega)
  have hd64 := regOk_field hd
  refine coded_short (by omega) fun c hc => ?_
  subst hc
  obtain ⟨w, hw⟩ : ∃ w, w = 0x14 * 2 ^ 25 + d * 2 ^ 19 + fieldOfInt i 19 := ⟨_, rfl⟩
  rw [← hw]
  have hop : fld w 25 7 = 0x14 := by simp only [fld]; omega
  have hfd : fD w = d := by simp only [fD, fld]; omega
  have himm : fld w 0 19 = fieldOfInt i 19 := by simp only [fld]; omega
  refine ⟨_, by rw [decOp, decShared, hop]; rfl, by simp only [hfd, himm, hval], fun _ => ?_⟩
  simp [regChk, opd, hfd, hd]

theorem coded_movk {p k : Nat} (hd : regOk e d = true) (hp : p < 4) (hk : k < 65536) : Coded e (.movk d p k) (encode (.movk d p k)) := by
  have hd64 := regOk_field hd
  refine coded_short (by omega) fun c hc => ?_
  subst hc
  obtain ⟨w, hw⟩ : ∃ w, w = 0x15 * 2 ^ 25 + d * 2 ^ 19 + p * 2 ^ 17 + k * 2 := ⟨_, rfl⟩
  rw [← hw]
  have hop : fld w 25 7 = 0x15 := by simp only [fld]; omega
  have hfd : fD w = d := by simp only [fD, fld]; omega
  have hp' : fld w 17 2 = p := by simp only [fld]; omega
  have hk' : fld w 1 16 = k := by simp only [fld]; omega
  have hbit : bit w 0 = false := by
    rw [bit_eq_fld, show fld w 0 1 = 0 by simp only [fld]; omega]
    rfl
  refine ⟨_, by rw [decOp, decShared, hop]; rfl, by simp only [hfd, hp', hk'], fun _ => ?_⟩
  simp [regChk, opd, ill, hfd, hd, hbit]

theorem coded_ext {z : Bool} {l n : Nat} (hd : regOk e d = true) (ha : regOk e a = true) (hl : l < 64) (hn : n < 64) :
    Coded e (.ext d a z l n) (encode (.ext d a z l n)) := by
  have hz := boolBit_lt z
  refine coded_si (by decide) (regOk_field hd) (regOk_field ha) (by omega) fun w hw c hc => ?_
  subst hc
  have hbit : bit w 12 = z := by
    rw [bit_eq_fld, hw.low 12 1 (by decide), show fld (boolBit z * 2 ^ 12 + l * 2 ^ 6 + n) 12 1 = boolBit z by simp only [fld]; omega, boolBit_beq]
  have hl' : fld w 6 6 = l := by
    rw [hw.low 6 6 (by decide)]
    simp only [fld]
    omega
  have hn' : fld w 0 6 = n := by
    rw [hw.low 0 6 (by decide)]
    simp only [fld]
    omega
  refine ⟨_, by rw [decOp, decShared, hw.op]; rfl, by simp only [hw.fd, hw.fa, hbit, hl', hn'], fun _ => ?_⟩
  simp [siDa, regChk, opd, hw.fd, hw.fa, hd, ha]

theorem Cond.ofCode_code (k : Cond) : Cond.ofCode k.code = k := by cases k <;> rfl

theorem coded_bc {k : Cond} {o : Int} (ha : regOk e a = true) (hb : (match k with | .ltz | .gez => b == 0 | _ => regOk e b) = true)
    (ho : off10Ok o = true) : Coded e (.bc k a b o) (encode (.bc k a b o)) := by
  simp only [off10Ok, Bool.and_eq_true, decide_eq_true_eq] at ho
  obtain ⟨hlt, hval⟩ : fieldOfInt o 10 < 2 ^ 10 ∧ signedField (fieldOfInt o 10) 10 = o := signedField_fieldOfInt (n := 9) (by omega) (by omega)
  have ha64 := regOk_field ha
  have hk6 : k.code < 6 := by cases k <;> decide
  have hb64 : b < 64 := by
    cases k
    case ltz | gez =>
      rw [beq_iff_eq] at hb
      omega
    all_goals exact regOk_field hb
  refine coded_short (by omega) fun c hc => ?_
  subst hc
  obtain ⟨w, hw⟩ : ∃ w, w = 0x19 * 2 ^ 25 + k.code * 2 ^ 22 + a * 2 ^ 16 + b * 2 ^ 10 + fieldOfInt o 10 := ⟨_, rfl⟩
  rw [← hw]
  have hop : fld w 25 7 = 0x19 := by simp only [fld]; omega
  have hk' : fld w 22 3 = k.code := by simp only [fld]; omega
  have ha' : fld w 16 6 = a := by simp only [fld]; omega
  have hb' : fld w 10 6 = b := by simp only [fld]; omega
  have ho' : fld w 0 10 = fieldOfInt o 10 := by simp only [fld]; omega
  refine ⟨_, by rw [decOp, decShared, hop]; rfl, by simp only [hk', ha', hb', ho', hval, Cond.ofCode_code], fun _ => ?_⟩
  simp only [hk', ha', hb', List.mem_cons, List.not_mem_nil, or_false, forall_eq_or_imp, forall_eq]
  refine ⟨decide_eq_false (by omega), by simp [regChk, opd, ha], ?_⟩
  cases k <;> simp [Cond.code, regChk, opd, ill] at hb ⊢ <;> exact hb

theorem coded_off25 (mk : Int → Instr) {maj : Nat} (hm : maj < 96) {o : Int} (ho : off25Ok o = true)
    (hdec : ∀ c w, fld w 25 7 = maj → decOp c w 0 = some ⟨[], mk (signedField (fld w 0 25) 25)⟩) :
    Coded e (mk o) [maj * 2 ^ 25 + fieldOfInt o 25] := by
  simp only [off25Ok, Bool.and_eq_true, decide_eq_true_eq] at ho
  obtain ⟨hlt, hval⟩ : fieldOfInt o 25 < 2 ^ 25 ∧ signedField (fieldOfInt o 25) 25 = o := signedField_fieldOfInt (n := 24) (by omega) (by omega)
  refine coded_short (by omega) fun c hc => ⟨_, hdec c _ ?_, ?_, by simp⟩
  · simp only [fld]; omega
  · rw [show fld (maj * 2 ^ 25 + fieldOfInt o 25) 0 25 = fieldOfInt o 25 by simp only [fld]; omega, hval]

theorem coded_jr (ha : regOk e a = true) : Coded e (.jr a) (encode (.jr a)) := by
  refine coded_s3 (by decide) (by decide) (regOk_field ha) (by decide) (by decide) fun w hw c hc => ?_
  subst hc
  refine ⟨_, by rw [decOp, decShared, hw.op]; exact if_neg (show ¬ fF w = 1 by rw [hw.ff]; decide), by simp only [hw.fa], fun _ => ?_⟩
  simp [regChk, opd, ill, hw.fd, hw.fa, hw.fb, hw.ff, ha]

theorem coded_jrLk (hd : regOk e d = true) (ha : regOk e a = true) : Coded e (.jrLk d a) (encode (.jrLk d a)) := by
  refine coded_s3 (by decide) (regOk_field hd) (regOk_field ha) (by decide) (by decide) fun w hw c hc => ?_
  subst hc
  refine ⟨_, by rw [decOp, decShared, hw.op]; exact if_pos hw.ff, by simp only [hw.fd, hw.fa], fun _ => ?_⟩
  simp [s3da, regChk, opd, ill, hw.fd, hw.fa, hw.fb, hd, ha]

theorem coded_mbw {m : Nat} (hm : m < 8) (ha : regOk e a = true) (hb : regOk e b = true) : Coded e (.mbw m a b) (encode (.mbw m a b)) := by
  refine coded_s3 (by decide) (by omega) (regOk_field ha) (regOk_field hb) (by decide) fun w hw c hc => ?_
  subst hc
  refine ⟨_, by rw [decOp, decShared, hw.op]; rfl, by simp only [hw.fd, hw.fa, hw.fb], fun _ => ?_⟩
  simp [f0, regChk, opd, ill, hw.fd, hw.fa, hw.fb, hw.ff, ha, hb, Nat.le_of_lt_succ hm]

theorem coded_mbr {m : Nat} (hd : regOk e d = true) (hm : m < 8) : Coded e (.mbr d m) (encode (.mbr d m)) := by
  refine coded_s3 (by decide) (regOk_field hd) (by omega) (by decide) (by decide) fun w hw c hc => ?_
  subst hc
  refine ⟨_, by rw [decOp, decShared, hw.op]; rfl, by simp only [hw.fd, hw.fa], fun _ => ?_⟩
  simp [f0, regChk, opd, ill, hw.fd, hw.fa, hw.fb, hw.ff, hd, Nat.le_of_lt_succ hm]

/-- RDV without a mask, and with one. -/
theorem coded_rdvMask {g : Nat} (hg : g < 8) : Coded e (if g = 0 then .rdv else .rdvMask g) (encS3 0x22 0 0 0 g) := by
  refine coded_s3 (by decide) (by decide) (by decide) (by decide) (by omega) fun w hw c hc => ?_
  have hlow : fld w 0 3 = g := by rw [hw.low 0 3 (by decide), fld_whole (by omega)]
  have hrest : fld w 3 4 = 0 := by
    rw [hw.low 3 4 (by decide)]
    simp only [fld]
    omega
  refine ⟨_, by rw [decOp, decShared, hw.op]; rfl, by simp only [hlow], fun _ => ?_⟩
  simp [ill, hw.fd, hw.fa, hw.fb, hrest]

theorem coded_bar {g n : Nat} (hg : g < 8) (hn : n < 8) : Coded e (.bar g n) (encode (.bar g n)) := by
  refine coded_si (by decide) (by decide) (by decide) (by omega) fun w hw c hc => ?_
  have hbit : bit w 3 = false := by
    rw [bit_eq_fld, hw.low 3 1 (by decide), show fld (g * 2 ^ 4 + n) 3 1 = 0 by simp only [fld]; omega]
    rfl
  have hg' : fld w 4 3 = g := by
    rw [hw.low 4 3 (by decide)]
    simp only [fld]
    omega
  have hn' : fld w 0 3 = n := by
    rw [hw.low 0 3 (by decide)]
    simp only [fld]
    omega
  have hrest : fld w 7 6 = 0 := by
    rw [hw.low 7 6 (by decide)]
    simp only [fld]
    omega
  refine ⟨_, by rw [decOp, decShared, hw.op]; exact if_neg (show ¬ bit w 3 = true by rw [hbit]; decide), by simp only [hg', hn'], fun _ => ?_⟩
  simp [ill, hw.fd, hw.fa, hrest]

theorem coded_barTm {g n : Nat} (ha : regOk e a = true) (hg : g < 8) (hn : n < 8) : Coded e (.barTm a g n) (encode (.barTm a g n)) := by
  refine coded_si (by decide) (by decide) (regOk_field ha) (by omega) fun w hw c hc => ?_
  subst hc
  have hbit : bit w 3 = true := by
    rw [bit_eq_fld, hw.low 3 1 (by decide), show fld (g * 2 ^ 4 + 8 + n) 3 1 = 1 by simp only [fld]; omega]
    rfl
  have hg' : fld w 4 3 = g := by
    rw [hw.low 4 3 (by decide)]
    simp only [fld]
    omega
  have hn' : fld w 0 3 = n := by
    rw [hw.low 0 3 (by decide)]
    simp only [fld]
    omega
  have hrest : fld w 7 6 = 0 := by
    rw [hw.low 7 6 (by decide)]
    simp only [fld]
    omega
  refine ⟨_, by rw [decOp, decShared, hw.op]; exact if_pos hbit, by simp only [hw.fa, hg', hn'], fun _ => ?_⟩
  simp [regChk, opd, ill, hw.fd, hw.fa, hrest, ha]

theorem coded_rdsr {n : Nat} (hd : regOk e d = true) (hn : n < 8192) :
    Coded e (if n = 0x10 then .rdsrQflags d else .rdsr d n) (encSI 0x24 d 0 n) := by
  refine coded_si (by decide) (regOk_field hd) (by decide) hn fun w hw c hc => ?_
  subst hc
  refine ⟨_, by rw [decOp, decShared, hw.op]; rfl, by simp only [hw.fd, hw.fi], fun _ => ?_⟩
  simp [regChk, opd, ill, hw.fd, hw.fa, hd]

/-- The form of WRSR by the number of its register. -/
def wrsrForm (a : Nat) : Nat → Instr
  | 0x000 => .wrsrStatus a
  | 0x010 => .wrsrQflags a
  | 0x011 => .wrsrNpdef a
  | 0x012 => .wrsrDph a
  | 0x020 => .wrsrSpass a
  | 0x021 => .wrsrSkern a
  | 0x022 => .wrsrSdrain a
  | n => .wrsr a n

theorem coded_wrsr {n : Nat} (ha : regOk e a = true) (hn : n < 8192) : Coded e (wrsrForm a n) (encSI 0x25 0 a n) := by
  refine coded_si (by decide) (by decide) (regOk_field ha) hn fun w hw c hc => ?_
  subst hc
  have hfa := hw.fa
  have hfi := hw.fi
  refine ⟨_, by rw [decOp, decShared, hw.op]; rfl, by subst hfa hfi; rfl, fun _ => ?_⟩
  simp [regChk, opd, ill, hw.fd, hw.fa, ha]

theorem coded_eret : Coded e .eret (encode .eret) := by
  refine coded_s3 (by decide) (by decide) (by decide) (by decide) (by decide) fun w hw c hc => ⟨_, by rw [decOp, decShared, hw.op]; rfl, rfl, fun ho => ?_⟩
  simp [f0, ill, DCtx.sup, ho.user, hw.fd, hw.fa, hw.fb, hw.ff]

theorem coded_rdcyc (hd : regOk e d = true) : Coded e (.rdcyc d) (encode (.rdcyc d)) := by
  refine coded_s3 (by decide) (regOk_field hd) (by decide) (by decide) (by decide) fun w hw c hc => ?_
  subst hc
  refine ⟨_, by rw [decOp, decShared, hw.op]; rfl, by simp only [hw.fd], fun _ => ?_⟩
  simp [f0, regChk, opd, ill, hw.fd, hw.fa, hw.fb, hw.ff, hd]

theorem wrsrForm_listed {n : Nat} (h : [0x000, 0x010, 0x011, 0x012, 0x020, 0x021, 0x022].contains n = false) : wrsrForm a n = .wrsr a n := by
  unfold wrsrForm
  split
  case h_8 => rfl
  all_goals exact absurd h (by decide)

end

end Sys2Proof
end

section
/-! SUPPORT. The words of the access engine (R43, R49, R57, R244, R245, R281) are read back. -/

namespace Sys2Proof

section
variable {d a b : Nat}

/-! ## Memory accesses (R43, R50) -/

theorem ABase.code_lt {b : ABase} (h : b.ok = true) : b.code < 48 := by
  cases b with
  | reg n => exact (of_decide_eq_true h : n < 32).trans (by decide)
  | handle n =>
    have hn : n < 16 := of_decide_eq_true h
    simp only [ABase.code]
    omega

theorem ABase.ofCode_code {b : ABase} (h : b.ok = true) : ABase.ofCode b.code = b := by
  cases b with
  | reg n => exact if_pos (of_decide_eq_true h : n < 32)
  | handle n => simp [ABase.ofCode, ABase.code]

theorem MOff.bits_lt {o : MOff} (ho : o.ok = true) : o.bits < 1024 := by
  cases o with
  | imm i =>
    simp only [MOff.ok, Bool.and_eq_true, decide_eq_true_eq] at ho
    have hlt : fieldOfInt i 9 < 2 ^ 9 := (signedField_fieldOfInt (n := 8) (by omega) (by omega)).1
    simp only [MOff.bits]
    omega
  | index r n =>
    simp only [MOff.ok, Bool.and_eq_true, decide_eq_true_eq] at ho
    simp only [MOff.bits]
    omega

/-- The fields of a word of the MA format. -/
structure MAWord (w maj d : Nat) (base : ABase) (size : Nat) (z : Bool) (o : MOff) : Prop where
  op : fld w 25 7 = maj
  fd : fD w = d
  fa : fA w = base.code
  fsize : fld w 11 2 = size
  fz : bit w 10 = z
  off : maOffOf w = o
  offOk : ∀ k ∈ maOff w, k.bad = false

theorem maWord {maj : Nat} {base : ABase} {size : Nat} {z : Bool} {o : MOff} (hm : maj < 128) (hd : d < 64) (hb : base.ok = true)
    (hs : size < 4) (ho : o.ok = true) :
    MAWord (maj * 2 ^ 25 + d * 2 ^ 19 + base.code * 2 ^ 13 + size * 2 ^ 11 + boolBit z * 2 ^ 10 + o.bits) maj d base size z o := by
  have hbase := ABase.code_lt hb
  have hz := boolBit_lt z
  have hbits := MOff.bits_lt ho
  obtain ⟨w, hw⟩ : ∃ w, w = maj * 2 ^ 25 + d * 2 ^ 19 + base.code * 2 ^ 13 + size * 2 ^ 11 + boolBit z * 2 ^ 10 + o.bits := ⟨_, rfl⟩
  rw [← hw]
  have hlow : ∀ lo n, lo + n ≤ 10 → fld w lo n = fld o.bits lo n := fun lo n h => by
    rw [hw, show maj * 2 ^ 25 + d * 2 ^ 19 + base.code * 2 ^ 13 + size * 2 ^ 11 + boolBit z * 2 ^ 10 + o.bits =
      (maj * 2 ^ 15 + d * 2 ^ 9 + base.code * 2 ^ 3 + size * 2 + boolBit z) * 2 ^ 10 + o.bits by ring]
    exact fld_below _ _ _ _ _ h
  have hoff : maOffOf w = o ∧ ∀ k ∈ maOff w, k.bad = false := by
    unfold maOffOf maOff
    rw [bit_eq_fld, bit_eq_fld, hlow 9 1 (by decide), hlow 3 6 (by decide), hlow 1 2 (by decide), hlow 0 9 (by decide), hlow 0 1 (by decide)]
    cases o with
    | imm i =>
      simp only [MOff.ok, Bool.and_eq_true, decide_eq_true_eq] at ho
      obtain ⟨hlt, hval⟩ : fieldOfInt i 9 < 2 ^ 9 ∧ signedField (fieldOfInt i 9) 9 = i := signedField_fieldOfInt (n := 8) (by omega) (by omega)
      have hix : fld (MOff.imm i).bits 9 1 = 0 := by simp only [MOff.bits, fld]; omega
      have himm : fld (MOff.imm i).bits 0 9 = fieldOfInt i 9 := fld_whole hlt
      simp [hix, himm, hval]
    | index r n =>
      simp only [MOff.ok, Bool.and_eq_true, decide_eq_true_eq] at ho
      have hix : fld (MOff.index r n).bits 9 1 = 1 := by simp only [MOff.bits, fld]; omega
      have hr : fld (MOff.index r n).bits 3 6 = r := by simp only [MOff.bits, fld]; omega
      have hn : fld (MOff.index r n).bits 1 2 = n := by simp only [MOff.bits, fld]; omega
      have hz0 : fld (MOff.index r n).bits 0 1 = 0 := by simp only [MOff.bits, fld]; omega
      simp [hix, hr, hn, hz0, opd, ill]
      omega
  refine ⟨?_, ?_, ?_, ?_, ?_, hoff.1, hoff.2⟩
  · simp only [fld]; omega
  · simp only [fD, fld]; omega
  · simp only [fA, fld]; omega
  · simp only [fld]; omega
  · rw [bit_eq_fld, show fld w 10 1 = boolBit z by simp only [fld]; omega, boolBit_beq]

theorem coded_ma {e : Eng} {i : Instr} {maj : Nat} {base : ABase} {size : Nat} {z : Bool} {o : MOff} (hm : maj < 96) (hd : d < 64)
    (hb : base.ok = true) (hs : size < 4) (ho : o.ok = true) (h : ∀ w, MAWord w maj d base size z o → Reads e i w 0) :
    Coded e i (encMA maj d base size z o) := by
  have hbase := ABase.code_lt hb
  have hz := boolBit_lt z
  have hbits := MOff.bits_lt ho
  exact coded_short (by omega) (h _ (maWord (by omega) hd hb hs ho))

theorem coded_ld {n : Nat} {base : ABase} {z : Bool} {o : MOff} (hd : d < 32) (hb : base.ok = true) (hs : n < 4) (hz : (n != 3 || !z) = true)
    (ho : o.ok = true) : Coded .a (.ld d base n z o) (encode (.ld d base n z o)) := by
  refine coded_ma (by decide) (by omega) hb hs ho fun w hw c hc => ?_
  refine ⟨_, by rw [decOp, decAShort, hw.op, hc]; rfl, by simp only [hw.fd, hw.fa, hw.fsize, hw.fz, hw.off, ABase.ofCode_code hb], fun _ => ?_⟩
  have hbase := ABase.code_lt hb
  have hsize : (n == 3 && z) = false := by
    rw [← Bool.not_eq_true', Bool.not_and]
    exact hz
  simp only [List.forall_mem_append]
  exact ⟨by simp [aReg, aBase, opd, ill, hw.fd, hw.fa, hw.fsize, hw.fz, hsize]; omega, hw.offOk⟩

theorem coded_st {n : Nat} {base : ABase} {o : MOff} (hd : d < 32) (hb : base.ok = true) (hs : n < 4) (ho : o.ok = true) :
    Coded .a (.st d base n o) (encode (.st d base n o)) := by
  refine coded_ma (by decide) (by omega) hb hs ho fun w hw c hc => ?_
  refine ⟨_, by rw [decOp, decAShort, hw.op, hc]; rfl, by simp only [hw.fd, hw.fa, hw.fsize, hw.off, ABase.ofCode_code hb], fun _ => ?_⟩
  have hbase := ABase.code_lt hb
  simp only [List.forall_mem_append]
  exact ⟨by simp [aReg, aBase, opd, ill, hw.fd, hw.fa, hw.fz]; omega, hw.offOk⟩

/-- The accesses of a fixed size. -/
theorem coded_maFixed (mk : Nat → ABase → MOff → Instr) {maj : Nat} (hm : maj < 96) (ck : Nat → Chk) {base : ABase} {o : MOff} (hd : d < 64)
    (hb : base.ok = true) (ho : o.ok = true) (hck : (ck d).bad = false)
    (hdec : ∀ c w, c.eng = .a → fld w 25 7 = maj →
      decOp c w 0 = some ⟨[ck (fD w), aBase 13 (fA w)] ++ maFixed w, mk (fD w) (ABase.ofCode (fA w)) (maOffOf w)⟩) :
    Coded .a (mk d base o) (encMA maj d base 0 false o) := by
  refine coded_ma hm hd hb (by decide) ho fun w hw c hc => ?_
  refine ⟨_, hdec c w hc hw.op, by rw [hw.fd, hw.fa, hw.off, ABase.ofCode_code hb], fun _ => ?_⟩
  have hbase := ABase.code_lt hb
  simp only [maFixed, List.forall_mem_append]
  refine ⟨?_, ?_, hw.offOk⟩
  · simp [aBase, opd, hw.fd, hw.fa, hck]
    omega
  · simp [ill, hw.fsize, hw.fz]

theorem aReg_ok {lsb n : Nat} (h : n < 32) : (aReg lsb n).bad = false := decide_eq_false (by omega)

/-! ## Forms of registers (R57) -/

/-- Three registers, `funct` reserved, of a form that needs feature 7. -/
theorem coded_feat7 (mk : Nat → Nat → Nat → Instr) {maj : Nat} (hm : maj < 96) (hd : d < 32) (ha : a < 32) (hb : b < 32)
    (hdec : ∀ c w, c.eng = .a → fld w 25 7 = maj → decOp c w 0 =
      some ⟨[c.feat 7 false 25 true, aReg 19 (fD w), aReg 13 (fA w), aReg 7 (fB w)] ++ f0 w, mk (fD w) (fA w) (fB w)⟩) :
    Coded .a (mk d a b) (encS3 maj d a b 0) := by
  refine coded_s3 hm (by omega) (by omega) (by omega) (by decide) fun w hw c hc => ?_
  refine ⟨_, hdec c w hc hw.op, by rw [hw.fd, hw.fa, hw.fb], fun ho => ?_⟩
  simp [DCtx.feat, ho.accepted, aReg, opd, ill, f0, hw.fd, hw.fa, hw.fb, hw.ff]
  omega

/-- Two registers of a form of the supervisor. -/
theorem coded_supervisor (mk : Nat → Nat → Instr) {maj : Nat} (hm : maj < 96) (ha : a < 32) (hb : b < 32)
    (hdec : ∀ c w, c.eng = .a → fld w 25 7 = maj → decOp c w 0 =
      some ⟨[ill 19 (fD w != 0), aReg 13 (fA w), aReg 7 (fB w)] ++ f0 w ++ [c.sup], mk (fA w) (fB w)⟩) :
    Coded .a (mk a b) (encS3 maj 0 a b 0) := by
  refine coded_s3 hm (by decide) (by omega) (by omega) (by decide) fun w hw c hc => ?_
  refine ⟨_, hdec c w hc hw.op, by rw [hw.fa, hw.fb], fun ho => ?_⟩
  simp [DCtx.sup, ho.user, aReg, opd, ill, f0, hw.fd, hw.fa, hw.fb, hw.ff]
  omega

theorem coded_amo {op r : Nat} {n : Bool} (hd : d < 32) (ha : a < 32) (hb : b < 32) (hop : op < 9) (hr : r < 4) :
    Coded .a (.amo d a b op n r) (encode (.amo d a b op n r)) := by
  have hn := boolBit_lt n
  refine coded_s3 (by decide) (by omega) (by omega) (by omega) (by omega) fun w hw c hc => ?_
  have hop' : fld w 3 4 = op := by
    rw [hw.low 3 4 (by decide)]
    simp only [fld]
    omega
  have hn' : bit w 2 = n := by
    rw [bit_eq_fld, hw.low 2 1 (by decide), show fld (op * 2 ^ 3 + boolBit n * 2 ^ 2 + r) 2 1 = boolBit n by simp only [fld]; omega, boolBit_beq]
  have hr' : fld w 0 2 = r := by
    rw [hw.low 0 2 (by decide)]
    simp only [fld]
    omega
  refine ⟨_, by rw [decOp, decAShort, hw.op, hc]; rfl, by simp only [hw.fd, hw.fa, hw.fb, hop', hn', hr'], fun _ => ?_⟩
  simp [aReg, opd, ill, hw.fd, hw.fa, hw.fb, hop']
  omega

theorem coded_cas {r : Nat} {n : Bool} (hd : d < 32) (ha : a < 32) (hb : b < 32) (hr : r < 4) :
    Coded .a (.cas d a b n r) (encode (.cas d a b n r)) := by
  have hn := boolBit_lt n
  refine coded_s3 (by decide) (by omega) (by omega) (by omega) (by omega) fun w hw c hc => ?_
  have hrest : fld w 3 4 = 0 := by
    rw [hw.low 3 4 (by decide)]
    simp only [fld]
    omega
  have hn' : bit w 2 = n := by
    rw [bit_eq_fld, hw.low 2 1 (by decide), show fld (boolBit n * 2 ^ 2 + r) 2 1 = boolBit n by simp only [fld]; omega, boolBit_beq]
  have hr' : fld w 0 2 = r := by
    rw [hw.low 0 2 (by decide)]
    simp only [fld]
    omega
  refine ⟨_, by rw [decOp, decAShort, hw.op, hc]; rfl, by simp only [hw.fd, hw.fa, hw.fb, hn', hr'], fun _ => ?_⟩
  simp [aReg, opd, ill, hw.fd, hw.fa, hw.fb, hrest]
  omega

theorem coded_fence {k n : Nat} (hk : k < 3) (hn : n < 6) : Coded .a (.fence k n) (encode (.fence k n)) := by
  refine coded_si (by decide) (by decide) (by decide) (by omega) fun w hw c hc => ?_
  have hk' : fld w 3 2 = k := by
    rw [hw.low 3 2 (by decide)]
    simp only [fld]
    omega
  have hn' : fld w 0 3 = n := by
    rw [hw.low 0 3 (by decide)]
    simp only [fld]
    omega
  have hrest : fld w 5 8 = 0 := by
    rw [hw.low 5 8 (by decide)]
    simp only [fld]
    omega
  refine ⟨_, by rw [decOp, decAShort, hw.op, hc]; rfl, by simp only [hk', hn'], fun _ => ?_⟩
  simp [opd, ill, hw.fd, hw.fa, hk', hn', hrest]
  omega

/-- A PASS toward M or toward A. -/
theorem coded_pass {n : Nat} (toA : Bool) (ha : a < 32) (hn : n < 256) :
    Coded .a (if toA then .passA a n else .passM a n) (encSI 0x4A 0 a (boolBit toA * 2 ^ 12 + n)) := by
  have ht := boolBit_lt toA
  refine coded_si (by decide) (by decide) (by omega) (by omega) fun w hw c hc => ?_
  have hbit : bit w 12 = toA := by
    rw [bit_eq_fld, hw.low 12 1 (by decide), show fld (boolBit toA * 2 ^ 12 + n) 12 1 = boolBit toA by simp only [fld]; omega, boolBit_beq]
  have hn' : fld w 0 8 = n := by
    rw [hw.low 0 8 (by decide)]
    simp only [fld]
    omega
  have hrest : fld w 8 4 = 0 := by
    rw [hw.low 8 4 (by decide)]
    simp only [fld]
    omega
  refine ⟨_, by rw [decOp, decAShort, hw.op, hc]; rfl, by simp only [hw.fa, hbit, hn'], fun _ => ?_⟩
  simp [aReg, opd, ill, hw.fd, hw.fa, hrest]
  omega

theorem coded_tlbp {n : Bool} (hd : d < 32) (ha : a < 32) : Coded .a (.tlbp d a n) (encode (.tlbp d a n)) := by
  have hn := boolBit_lt n
  refine coded_s3 (by decide) (by omega) (by omega) (by decide) (by omega) fun w hw c hc => ?_
  have hbit : bit w 0 = n := by rw [bit_eq_fld, hw.low 0 1 (by decide), fld_whole (by omega), boolBit_beq]
  have hrest : fld w 1 6 = 0 := by
    rw [hw.low 1 6 (by decide)]
    simp only [fld]
    omega
  refine ⟨_, by rw [decOp, decAShort, hw.op, hc]; rfl, by simp only [hw.fd, hw.fa, hbit], fun _ => ?_⟩
  simp [aReg, opd, ill, hw.fd, hw.fa, hw.fb, hrest]
  omega

theorem coded_pghint {q g : Nat} (hq : q < 24) (hg : g < 256) : Coded .a (.pghint q g) (encode (.pghint q g)) := by
  refine coded_si (by decide) (by decide) (by decide) (by omega) fun w hw c hc => ?_
  have hq' : fld w 8 5 = q := by
    rw [hw.low 8 5 (by decide)]
    simp only [fld]
    omega
  have hg' : fld w 0 8 = g := by
    rw [hw.low 0 8 (by decide)]
    simp only [fld]
    omega
  refine ⟨_, by rw [decOp, decAShort, hw.op, hc]; rfl, by simp only [hq', hg'], fun _ => ?_⟩
  simp [opd, ill, hw.fd, hw.fa, hq']
  omega

theorem coded_tlbinv {r : Nat} (ha : a < 32) (hr : r < 4) (hra : (r % 2 == 0 || a == 0) = true) : Coded .a (.tlbinv a r) (encode (.tlbinv a r)) := by
  refine coded_s3 (by decide) (by decide) (by omega) (by decide) (by omega) fun w hw c hc => ?_
  have hr' : fld w 0 2 = r := by rw [hw.low 0 2 (by decide), fld_whole (by omega)]
  have hodd : fld w 0 1 = r % 2 := by
    rw [hw.low 0 1 (by decide)]
    simp only [fld]
    omega
  have hrest : fld w 2 5 = 0 := by
    rw [hw.low 2 5 (by decide)]
    simp only [fld]
    omega
  refine ⟨_, by rw [decOp, decAShort, hw.op, hc]; rfl, by simp only [hw.fa, hr'], fun ho => ?_⟩
  have hreg : (if r % 2 = 1 then ill 13 (a != 0) else aReg 13 a).bad = false := by
    split
    next h1 =>
      have ha0 : a = 0 := by
        simp only [Bool.or_eq_true, beq_iff_eq] at hra
        omega
      rw [ha0]
      rfl
    · exact aReg_ok ha
  simp only [hw.fd, hw.fa, hw.fb, hodd, hrest, List.mem_cons, List.not_mem_nil, or_false, forall_eq_or_imp, forall_eq]
  exact ⟨rfl, hreg, rfl, rfl, ho.user⟩

theorem coded_openH {h : Nat} {n : Bool} (hh : h < 16) (ha : a < 32) (hb : b < 32) : Coded .a (.openH h a b n) (encode (.openH h a b n)) := by
  have hn := boolBit_lt n
  refine coded_s3 (by decide) (by omega) (by omega) (by omega) (by omega) fun w hw c hc => ?_
  have hbit : bit w 0 = n := by rw [bit_eq_fld, hw.low 0 1 (by decide), fld_whole (by omega), boolBit_beq]
  have hrest : fld w 1 6 = 0 := by
    rw [hw.low 1 6 (by decide)]
    simp only [fld]
    omega
  refine ⟨_, by rw [decOp, decAShort, hw.op, hc]; rfl, by simp only [hw.fd, hw.fa, hw.fb, hbit, Nat.add_sub_cancel_left], fun ho => ?_⟩
  simp [DCtx.feat, ho.accepted, aHandle, aReg, opd, ill, hw.fd, hw.fa, hw.fb, hrest]
  omega

theorem coded_closeH {h : Nat} (hh : h < 16) : Coded .a (.closeH h) (encode (.closeH h)) := by
  refine coded_s3 (by decide) (by omega) (by decide) (by decide) (by decide) fun w hw c hc => ?_
  refine ⟨_, by rw [decOp, decAShort, hw.op, hc]; rfl, by simp only [hw.fd, Nat.add_sub_cancel_left], fun ho => ?_⟩
  simp [DCtx.feat, ho.accepted, aHandle, opd, ill, f0, hw.fd, hw.fa, hw.fb, hw.ff]
  omega

theorem coded_lpatch {f : Nat} (ha : a < 32) (hb : b < 32) (hf : f < 96) : Coded .a (.lpatch a b f) (encode (.lpatch a b f)) := by
  refine coded_s3 (by decide) (by decide) (by omega) (by omega) (by omega) fun w hw c hc => ?_
  refine ⟨_, by rw [decOp, decAShort, hw.op, hc]; rfl, by simp only [hw.fa, hw.fb, hw.ff], fun _ => ?_⟩
  simp [aReg, opd, ill, hw.fd, hw.fa, hw.fb, hw.ff]
  omega

theorem coded_larm (hd : d < 32) (ha : a < 32) : Coded .a (.larm d a) (encode (.larm d a)) := by
  refine coded_s3 (by decide) (by omega) (by omega) (by decide) (by decide) fun w hw c hc => ?_
  refine ⟨_, by rw [decOp, decAShort, hw.op, hc]; rfl, by simp only [hw.fd, hw.fa], fun _ => ?_⟩
  simp [aReg, opd, ill, f0, hw.fd, hw.fa, hw.fb, hw.ff]
  omega

theorem coded_decld {k : Nat} (hd : d < 32) (ha : a < 32) (hk1 : 1 ≤ k) (hk4 : k ≤ 4) : Coded .a (.decld d a k) (encode (.decld d a k)) := by
  refine coded_s3 (by decide) (by omega) (by omega) (by decide) (by omega) fun w hw c hc => ?_
  have hk : fld w 0 2 = k - 1 := by rw [hw.low 0 2 (by decide), fld_whole (by omega)]
  have hrest : fld w 2 5 = 0 := by
    rw [hw.low 2 5 (by decide)]
    simp only [fld]
    omega
  refine ⟨_, by rw [decOp, decAShort, hw.op, hc]; rfl, by simp only [hw.fd, hw.fa, hk, Nat.sub_add_cancel hk1], fun _ => ?_⟩
  simp [aReg, opd, ill, hw.fd, hw.fa, hw.fb, hrest]
  omega

end

end Sys2Proof
end

section
/-! SUPPORT. The long words of the access engine (R49, R245, R267 to R273) are read back. -/

namespace Sys2Proof

theorem Np.ofCode_code (p : Np) : Np.ofCode p.code = p := by cases p <;> rfl
theorem Np.code_le (p : Np) : p.code ≤ 4 := by cases p <;> decide
theorem Ty.ofCode_code (t : Ty) : Ty.ofCode t.code = t := by cases t <;> rfl
theorem Ty.code_lt (t : Ty) : t.code < 16 := by cases t <;> decide
theorem Rnd.ofCode_code (r : Rnd) : Rnd.ofCode r.code = r := by cases r <;> rfl
theorem Rnd.code_le (r : Rnd) : r.code ≤ 5 := by cases r <;> decide

/-! ## Checks that long forms share -/

section
variable {c : DCtx} {i : Instr}

theorem feat_ok (ho : OpenFor c i) {n : Nat} (hn : n < 256) (word2 : Bool) (lsb : Nat) (used : Bool) : (c.feat n word2 lsb used).bad = false := by
  rw [DCtx.feat, ho.accepted, BitVec.getLsbD_allOnes, decide_eq_true hn, Bool.not_true, Bool.and_false]

theorem npChk_ok (ho : OpenFor c i) {v : Nat} {np : Np} (h : fld v 29 3 = np.code) : ∀ k ∈ npChk c v, k.bad = false := by
  have hle := Np.code_le np
  simp only [npChk, h, List.mem_cons, List.not_mem_nil, or_false, forall_eq_or_imp, forall_eq]
  exact ⟨feat_ok ho (by decide) _ _ _, decide_eq_false (by omega)⟩

theorem alTChk_ok (ho : OpenFor c i) {v : Nat} {t : Ty} {ok : Ty → Bool} (h : alT v = t.code) (hok : ok t = true) :
    ∀ k ∈ alTChk c ok v, k.bad = false := by
  simp only [alTChk, h, Ty.ofCode_code, hok, List.mem_cons, List.not_mem_nil, or_false, forall_eq_or_imp, forall_eq]
  exact ⟨feat_ok ho (by decide) _ _ _, rfl⟩

end

/-! ## The fields of the A long format (R49) -/

structure ALWords (w v maj d a b f : Nat) (c : ACtl) (cc q ty rnd opt : Nat) : Prop where
  op : fld w 25 7 = maj
  fd : fD w = d
  fa : fA w = a
  fb : fB w = b
  ff : fF w = f
  flow : ∀ lo n, lo + n ≤ 7 → fld w lo n = fld f lo n
  ctl : aCtlOf v = c
  np : fld v 29 3 = c.np.code
  fc : alC v = cc
  fq : alQ v = q
  ft : alT v = ty
  fr : alR v = rnd
  fo : alO v = opt
  low : ∀ lo n, lo + n ≤ 7 → fld v lo n = fld opt lo n

theorem alWords {maj d a b f : Nat} {c : ACtl} {cc q ty rnd opt : Nat} (hm : maj < 128) (hd : d < 64) (ha : a < 64) (hb : b < 64) (hf : f < 128)
    (hctl : c.ok = true) (hcc : cc < 64) (hq : q < 32) (ht : ty < 16) (hr : rnd < 8) (ho : opt < 128) :
    ALWords (maj * 2 ^ 25 + d * 2 ^ 19 + a * 2 ^ 13 + b * 2 ^ 7 + f)
      (c.np.code * 2 ^ 29 + c.take * 2 ^ 27 + c.give * 2 ^ 25 + cc * 2 ^ 19 + q * 2 ^ 14 + ty * 2 ^ 10 + rnd * 2 ^ 7 + opt)
      maj d a b f c cc q ty rnd opt := by
  have hw := s3Word hm hd ha hb hf
  have hnp := Np.code_le c.np
  simp only [ACtl.ok, Bool.and_eq_true, decide_eq_true_eq] at hctl
  obtain ⟨v, hv⟩ : ∃ v, v = c.np.code * 2 ^ 29 + c.take * 2 ^ 27 + c.give * 2 ^ 25 + cc * 2 ^ 19 + q * 2 ^ 14 + ty * 2 ^ 10 + rnd * 2 ^ 7 + opt :=
    ⟨_, rfl⟩
  rw [← hv]
  have hcode : fld v 29 3 = c.np.code := by simp only [fld]; omega
  have htake : fld v 27 2 = c.take := by simp only [fld]; omega
  have hgive : fld v 25 2 = c.give := by simp only [fld]; omega
  refine ⟨hw.op, hw.fd, hw.fa, hw.fb, hw.ff, hw.low, ?_, hcode, ?_, ?_, ?_, ?_, ?_, fun lo n h => ?_⟩
  · rw [aCtlOf, hcode, htake, hgive, Np.ofCode_code]
  · simp only [alC, fld]; omega
  · simp only [alQ, fld]; omega
  · simp only [alT, fld]; omega
  · simp only [alR, fld]; omega
  · simp only [alO, fld]; omega
  · rw [hv, show c.np.code * 2 ^ 29 + c.take * 2 ^ 27 + c.give * 2 ^ 25 + cc * 2 ^ 19 + q * 2 ^ 14 + ty * 2 ^ 10 + rnd * 2 ^ 7 + opt =
      (c.np.code * 2 ^ 22 + c.take * 2 ^ 20 + c.give * 2 ^ 18 + cc * 2 ^ 12 + q * 2 ^ 7 + ty * 2 ^ 3 + rnd) * 2 ^ 7 + opt by ring]
    exact fld_below _ _ _ _ _ h

theorem coded_al {e : Eng} {i : Instr} {maj d a b f : Nat} {c : ACtl} {cc q ty rnd opt : Nat} (hm1 : 96 ≤ maj) (hm2 : maj < 128) (hd : d < 64)
    (ha : a < 64) (hb : b < 64) (hf : f < 128) (hctl : c.ok = true) (hcc : cc < 64) (hq : q < 32) (ht : ty < 16) (hr : rnd < 8) (ho : opt < 128)
    (h : ∀ w v, ALWords w v maj d a b f c cc q ty rnd opt → Reads e i w v) : Coded e i (encAL maj d a b f c cc q ty rnd opt) := by
  have hwords := alWords hm2 hd ha hb hf hctl hcc hq ht hr ho
  have hnp := Np.code_le c.np
  simp only [ACtl.ok, Bool.and_eq_true, decide_eq_true_eq] at hctl
  exact coded_long (by omega) (by omega) (by omega) (h _ _ hwords)

/-! ## The forms (R57, R245) -/

section
variable {d : ABase} {a b : Nat} {t : Ty} {c : ACtl}

/-- The queue loads and the scatter of a queue. -/
theorem coded_queueLoad (mk : Nat → ABase → Nat → Nat → Ty → ACtl → Instr) {maj : Nat} (hm1 : 96 ≤ maj) (hm2 : maj < 128) (use q : Nat)
    (hd : d.ok = true) (ha : a < 32) (hb : b < 32) (ht : t.isElem = true) (hctl : c.ok = true) (hq : q < 32)
    (hqc : ∀ v, alQ v = q → (alQChk use v).bad = false)
    (hdec : ∀ c w v, c.eng = .a → fld w 25 7 = maj → decOp c w v =
      some ⟨[aBase 19 (fD w), aReg 13 (fA w), aReg 7 (fB w), ill 0 (fF w != 0)] ++ npChk c v ++
        [alCChk false v, alQChk use v] ++ alTChk c Ty.isElem v ++ [alRChk false v, ill2 0 (alO v != 0)],
        mk (alQ v) (ABase.ofCode (fD w)) (fA w) (fB w) (Ty.ofCode (alT v)) (aCtlOf v)⟩) :
    Coded .a (mk q d a b t c) (encAL maj d.code a b 0 c 0 q t.code 0 0) := by
  have hbase := ABase.code_lt hd
  refine coded_al hm1 hm2 (by omega) (by omega) (by omega) (by decide) hctl (by decide) hq (Ty.code_lt t) (by decide) (by decide)
    fun w v hw c hc => ?_
  refine ⟨_, hdec c w v hc hw.op, by rw [hw.fq, hw.fd, hw.fa, hw.fb, hw.ft, hw.ctl, ABase.ofCode_code hd, Ty.ofCode_code], fun ho => ?_⟩
  simp only [List.forall_mem_append]
  refine ⟨⟨⟨⟨?_, npChk_ok ho hw.np⟩, ?_⟩, alTChk_ok ho hw.ft ht⟩, ?_⟩
  · simp [aBase, aReg, opd, ill, hw.fd, hw.fa, hw.fb, hw.ff]
    omega
  · simp [alCChk, ill2, hw.fc, hqc v hw.fq]
  · simp [alRChk, ill2, hw.fr, hw.fo]

theorem coded_rgath {k : Nat} {r : Rnd} {sk tx sc : Bool} (hd : d.ok = true) (ha : a < 32) (hb : b < 32) (hk : k < 32) (ht : t.isRow = true)
    (hr : (sc || r == .rne) = true) (hctl : c.ok = true) : Coded .a (.rgath d a b k t r sk tx sc c) (encode (.rgath d a b k t r sk tx sc c)) := by
  have hbase := ABase.code_lt hd
  have hrnd := Rnd.code_le r
  have h1 := boolBit_lt sk
  have h2 := boolBit_lt tx
  have h3 := boolBit_lt sc
  refine coded_al (by decide) (by decide) (by omega) (by omega) (by omega) (by decide) hctl (by omega) (by decide) (Ty.code_lt t) (by omega)
    (by omega) fun w v hw c hc => ?_
  have hsk : bit v 0 = sk := by
    rw [bit_eq_fld, hw.low 0 1 (by decide), show fld (boolBit sc * 4 + boolBit tx * 2 + boolBit sk) 0 1 = boolBit sk by simp only [fld]; omega, boolBit_beq]
  have htx : bit v 1 = tx := by
    rw [bit_eq_fld, hw.low 1 1 (by decide), show fld (boolBit sc * 4 + boolBit tx * 2 + boolBit sk) 1 1 = boolBit tx by simp only [fld]; omega, boolBit_beq]
  have hsc : bit v 2 = sc := by
    rw [bit_eq_fld, hw.low 2 1 (by decide), show fld (boolBit sc * 4 + boolBit tx * 2 + boolBit sk) 2 1 = boolBit sc by simp only [fld]; omega, boolBit_beq]
  have hrest : fld v 3 4 = 0 := by
    rw [hw.low 3 4 (by decide)]
    simp only [fld]
    omega
  refine ⟨_, by rw [decOp, decALong, hw.op, hc]; rfl, by simp only [hw.fd, hw.fa, hw.fb, hw.fc, hw.ft, hw.fr, hw.ctl, hsk, htx, hsc,
    ABase.ofCode_code hd, Ty.ofCode_code, Rnd.ofCode_code], fun ho => ?_⟩
  simp only [List.forall_mem_append]
  refine ⟨⟨⟨⟨?_, npChk_ok ho hw.np⟩, ?_⟩, alTChk_ok ho hw.ft ht⟩, ?_⟩
  · simp [aBase, aReg, opd, ill, hw.fd, hw.fa, hw.fb, hw.ff]
    omega
  · simp [alCChk, alQChk, opd2, ill2, hw.fc, hw.fq]
    omega
  · have hround : (alRChk sc v).bad = false := by
      cases sc
      · have hrne : r = .rne := by simpa using hr
        subst hrne
        simp [alRChk, ill2, hw.fr, Rnd.code]
      · simp [alRChk, opd2, hw.fr]
        omega
    simp [hsc, hround, ill2, hrest]

theorem coded_rstrm {k : Nat} {sk : Bool} (hd : d.ok = true) (ha : a < 32) (hb : b < 32) (hk : k < 32) (ht : t.isRow = true) (hctl : c.ok = true) :
    Coded .a (.rstrm d a b k t sk c) (encode (.rstrm d a b k t sk c)) := by
  have hbase := ABase.code_lt hd
  have h1 := boolBit_lt sk
  refine coded_al (by decide) (by decide) (by omega) (by omega) (by omega) (by decide) hctl (by omega) (by decide) (Ty.code_lt t) (by omega)
    (by omega) fun w v hw c hc => ?_
  have hsk : bit v 0 = sk := by rw [bit_eq_fld, hw.low 0 1 (by decide), fld_whole (by omega), boolBit_beq]
  have hrest : fld v 1 6 = 0 := by
    rw [hw.low 1 6 (by decide)]
    simp only [fld]
    omega
  refine ⟨_, by rw [decOp, decALong, hw.op, hc]; rfl, by simp only [hw.fd, hw.fa, hw.fb, hw.fc, hw.ft, hw.ctl, hsk, ABase.ofCode_code hd,
    Ty.ofCode_code], fun ho => ?_⟩
  simp only [List.forall_mem_append]
  refine ⟨⟨⟨⟨?_, npChk_ok ho hw.np⟩, ?_⟩, alTChk_ok ho hw.ft ht⟩, ?_⟩
  · simp [aBase, aReg, opd, ill, hw.fd, hw.fa, hw.fb, hw.ff]
    omega
  · simp [alCChk, alQChk, opd2, ill2, hw.fc, hw.fq]
    omega
  · simp [alRChk, ill2, hw.fr, hrest]

theorem coded_cplvl {l k : Nat} (hl : l < 6) (ha : a < 32) (hb : b < 32) (hk : k < 32) (hctl : c.ok = true) :
    Coded .a (.cplvl l a b k c) (encode (.cplvl l a b k c)) := by
  refine coded_al (by decide) (by decide) (by omega) (by omega) (by omega) (by omega) hctl (by omega) (by decide) (by decide) (by omega)
    (by omega) fun w v hw c hc => ?_
  have hl' : fld w 0 3 = l := by rw [hw.flow 0 3 (by decide), fld_whole (by omega)]
  have hrest : fld w 3 4 = 0 := by
    rw [hw.flow 3 4 (by decide)]
    simp only [fld]
    omega
  refine ⟨_, by rw [decOp, decALong, hw.op, hc]; rfl, by simp only [hw.fa, hw.fb, hw.fc, hw.ctl, hl'], fun ho => ?_⟩
  simp only [List.forall_mem_append]
  refine ⟨⟨?_, npChk_ok ho hw.np⟩, ?_⟩
  · simp [aReg, opd, ill, hw.fd, hw.fa, hw.fb, hrest, hl']
    omega
  · simp [alCChk, alQChk, alRChk, opd2, ill2, hw.fc, hw.fq, hw.ft, hw.fr, hw.fo]
    omega

theorem coded_cpgoPm {d : Nat} (hd : d < 32) (ha : a < 32) (hctl : c.ok = true) : Coded .a (.cpgoPm d a c) (encode (.cpgoPm d a c)) := by
  refine coded_al (by decide) (by decide) (by omega) (by omega) (by omega) (by decide) hctl (by omega) (by decide) (by decide) (by omega)
    (by omega) fun w v hw c hc => ?_
  have hone : fld w 0 2 = 1 := hw.flow 0 2 (by decide)
  have h6 : bit w 6 = false := by rw [bit_eq_fld, hw.flow 6 1 (by decide)]; rfl
  have h4 : fld w 4 2 = 0 := hw.flow 4 2 (by decide)
  have h2 : fld w 2 2 = 0 := hw.flow 2 2 (by decide)
  refine ⟨_, by rw [decOp, decALong, hw.op, hc]; exact if_pos hone, by simp only [hw.fd, hw.fa, hw.ctl], fun ho => ?_⟩
  simp only [List.forall_mem_append]
  refine ⟨⟨⟨?_, ?_⟩, npChk_ok ho hw.np⟩, ?_⟩
  · simp [aReg, opd, ill, hw.fd, hw.fa, hw.fb]
    omega
  · simp [kindChk, ill, h6, h4, h2]
  · simp [alCChk, alQChk, alRChk, ill2, hw.fc, hw.fq, hw.ft, hw.fr, hw.fo]

/-- The `funct` of a copy form: its kind and its low bits. -/
theorem kindChk_ok {w f kind low : Nat} {plain : Bool} (hlow : ∀ lo n, lo + n ≤ 7 → fld w lo n = fld f lo n) (hf : f = kind * 16 + low)
    (hk : kind < 4) (hl : low < 4) (hplain : (plain || kind == 0) = true) :
    (∀ k ∈ kindChk w plain, k.bad = false) ∧ fld w 4 2 = kind ∧ fld w 0 2 = low := by
  subst hf
  have h6 : bit w 6 = false := by
    rw [bit_eq_fld, hlow 6 1 (by decide), show fld (kind * 16 + low) 6 1 = 0 by simp only [fld]; omega]
    rfl
  have h4 : fld w 4 2 = kind := by
    rw [hlow 4 2 (by decide)]
    simp only [fld]
    omega
  have h2 : fld w 2 2 = 0 := by
    rw [hlow 2 2 (by decide)]
    simp only [fld]
    omega
  have h0 : fld w 0 2 = low := by
    rw [hlow 0 2 (by decide)]
    simp only [fld]
    omega
  refine ⟨?_, h4, h0⟩
  simp only [kindChk, h6, h4, h2, ill, List.mem_cons, List.not_mem_nil, or_false, forall_eq_or_imp, forall_eq]
  refine ⟨trivial, ?_, rfl⟩
  cases plain
  · simpa using hplain
  · rfl

/-- The types that a copy may name. -/
theorem copyTypes_ok {dty sty : Ty} {mx : Nat} (h : copyTypesOk dty sty mx = true) :
    (dty != .anc) = true ∧ (sty == .anc) = false ∧ ((dty == .b8) != (sty == .b8)) = false ∧ (mx == 1 && !sty.isMx) = false ∧
      (mx == 2 && !dty.isMx) = false := by
  simp only [copyTypesOk, Bool.and_eq_true] at h
  obtain ⟨⟨⟨⟨h1, h2⟩, h3⟩, h4⟩, h5⟩ := h
  refine ⟨h1, by simpa using h2, ?_, ?_, ?_⟩
  · simpa [bne] using h3
  · cases hm : mx == 1 <;> simp_all [bne]
  · cases hm : mx == 2 <;> simp_all [bne]

section
variable {a : ABase} {s : Ty} {r : Rnd} {kind mx : Nat}

/-- The source type in the low bits of the second word. -/
theorem opt_type {v opt hi : Nat} (hlow : ∀ lo n, lo + n ≤ 7 → fld v lo n = fld opt lo n) (ho : opt = hi * 16 + s.code) (hh : hi < 8) :
    fld v 0 4 = s.code ∧ fld v 4 3 = hi := by
  have hs := Ty.code_lt s
  subst ho
  rw [hlow 0 4 (by decide), hlow 4 3 (by decide)]
  constructor
  · simp only [fld]; omega
  · simp only [fld]; omega

theorem coded_cpgo (hd : d.ok = true) (ha : a.ok = true) (hb : b < 32) (hmx : mx < 3) (hty : copyTypesOk t s mx = true)
    (hkind : copyKindOk t mx kind = true) (hctl : c.ok = true) :
    Coded .a (.cpgo d a b t s r mx kind c) (encode (.cpgo d a b t s r mx kind c)) := by
  have hbase := ABase.code_lt hd
  have habase := ABase.code_lt ha
  have hrnd := Rnd.code_le r
  have hs := Ty.code_lt s
  simp only [copyKindOk, Bool.and_eq_true, decide_eq_true_eq] at hkind
  obtain ⟨hk4, hplain⟩ := hkind
  obtain ⟨ht1, ht2, ht3, ht4, ht5⟩ := copyTypes_ok hty
  refine coded_al (by decide) (by decide) (by omega) (by omega) (by omega) (by omega) hctl (by omega) (by decide) (Ty.code_lt t) (by omega)
    (by omega) fun w v hw c hc => ?_
  obtain ⟨hst, hmx'⟩ := opt_type (s := s) hw.low rfl (by omega)
  obtain ⟨hkc, hk', h0⟩ := kindChk_ok (low := 0) (plain := t == .k4 && mx != 2) hw.flow (by omega) hk4 (by decide) hplain
  refine ⟨_, by rw [decOp, decALong, hw.op, hc]; exact if_neg (show ¬ fld w 0 2 = 1 by rw [h0]; decide), by simp only [hw.fd, hw.fa, hw.fb, hw.ft, hw.fr,
    hw.ctl, hst, hmx', hk', ABase.ofCode_code hd, ABase.ofCode_code ha, Ty.ofCode_code, Rnd.ofCode_code], fun ho => ?_⟩
  simp only [hw.ft, hst, hmx', Ty.ofCode_code, List.forall_mem_append]
  refine ⟨⟨⟨⟨⟨⟨?_, hkc⟩, ?_⟩, npChk_ok ho hw.np⟩, ?_⟩, alTChk_ok ho hw.ft ht1⟩, ?_⟩
  · simp [aBase, aReg, opd, hw.fd, hw.fa, hw.fb]
    omega
  · simp [ill, h0]
  · simp [alCChk, alQChk, ill2, hw.fc, hw.fq]
  · simp only [List.mem_cons, List.not_mem_nil, or_false, forall_eq_or_imp, forall_eq]
    refine ⟨?_, ht5, ?_, feat_ok ho (by decide) _ _ _, ?_, ht4, feat_ok ho (by decide) _ _ _, ht2⟩
    · simp [opd2, ht3]
    · simp [alRChk, opd2, hw.fr]
      omega
    · exact decide_eq_false (by omega)

/-- What a pooling copy's types and profile pass. -/
theorem poolChk_ok {c : DCtx} {v : Nat} {np : Np} {pools : Bool} (hnp : fld v 29 3 = np.code) (hs : fld v 0 4 = s.code)
    (hp : pools = true → poolOk (c.resolve np) s = true) : (poolChk c pools v).bad = false := by
  simp only [poolChk, opd, hnp, hs, Np.ofCode_code, Ty.ofCode_code]
  cases pools
  · rfl
  · simp [hp rfl]

theorem coded_cpgath {k op : Nat} (hd : d.ok = true) (ha : a.ok = true) (hb : b < 32) (hk : k < 32) (hop : op < 3) (hk0 : (op != 0 || k == 0) = true)
    (hty : copyTypesOk t s 0 = true) (hkind : copyKindOk t 0 kind = true) (hctl : c.ok = true) :
    Coded .a (.cpgath d a b k op t s r kind c) (encode (.cpgath d a b k op t s r kind c)) := by
  have hbase := ABase.code_lt hd
  have habase := ABase.code_lt ha
  have hrnd := Rnd.code_le r
  have hs := Ty.code_lt s
  simp only [copyKindOk, Bool.and_eq_true, decide_eq_true_eq] at hkind
  obtain ⟨hk4, hplain⟩ := hkind
  obtain ⟨ht1, ht2, ht3, -, -⟩ := copyTypes_ok hty
  refine coded_al (by decide) (by decide) (by omega) (by omega) (by omega) (by omega) hctl (by omega) (by decide) (Ty.code_lt t) (by omega)
    (by omega) fun w v hw cx hc => ?_
  obtain ⟨hst, hhi⟩ := opt_type (s := s) (hi := 0) hw.low (by omega) (by omega)
  obtain ⟨hkc, hk', h0⟩ := kindChk_ok (low := op) (plain := t == .k4) hw.flow rfl hk4 (by omega) (by simpa using hplain)
  refine ⟨_, by rw [decOp, decALong, hw.op, hc]; rfl, by simp only [hw.fd, hw.fa, hw.fb, hw.fc, hw.ft, hw.fr,
    hw.ctl, hst, h0, hk', ABase.ofCode_code hd, ABase.ofCode_code ha, Ty.ofCode_code, Rnd.ofCode_code], fun ho => ?_⟩
  simp only [hw.ft, hst, hhi, h0, Ty.ofCode_code, List.forall_mem_append]
  refine ⟨⟨⟨⟨⟨⟨?_, hkc⟩, ?_⟩, npChk_ok ho hw.np⟩, ?_⟩, alTChk_ok ho hw.ft ht1⟩, ?_⟩
  · simp [aBase, aReg, opd, hw.fd, hw.fa, hw.fb]
    omega
  · have hpool : (poolChk cx (op != 0) v).bad = false := by
      refine poolChk_ok hw.np hst fun hp => ?_
      have hfit := ho.fits
      simp only [Machine.profileFits, Bool.or_eq_true, beq_iff_eq] at hfit
      exact hfit.resolve_left (by simpa using hp)
    simp [ill, hpool]
    omega
  · have huse : (alCChk (op != 0) v).bad = false := by
      by_cases hop0 : op = 0
      · subst hop0
        simpa [alCChk, ill2, hw.fc] using hk0
      · simp [alCChk, hop0, opd2, hw.fc]
        omega
    simp [huse, alQChk, ill2, hw.fq]
  · simp only [List.mem_cons, List.not_mem_nil, or_false, forall_eq_or_imp, forall_eq]
    refine ⟨?_, ?_, rfl, feat_ok ho (by decide) _ _ _, ht2⟩
    · simp [opd2, ht3]
    · simp [alRChk, opd2, hw.fr]
      omega

theorem coded_cpscat {ad : Bool} (hd : d.ok = true) (ha : a.ok = true) (hb : b < 32)
    (hty : copyTypesOk t s 0 = true) (hkind : copyKindOk t 0 kind = true) (hctl : c.ok = true) :
    Coded .a (.cpscat d a b ad t s r kind c) (encode (.cpscat d a b ad t s r kind c)) := by
  have hbase := ABase.code_lt hd
  have habase := ABase.code_lt ha
  have hrnd := Rnd.code_le r
  have hs := Ty.code_lt s
  have had := boolBit_lt ad
  simp only [copyKindOk, Bool.and_eq_true, decide_eq_true_eq] at hkind
  obtain ⟨hk4, hplain⟩ := hkind
  obtain ⟨ht1, ht2, ht3, -, -⟩ := copyTypes_ok hty
  refine coded_al (by decide) (by decide) (by omega) (by omega) (by omega) (by omega) hctl (by omega) (by decide) (Ty.code_lt t) (by omega)
    (by omega) fun w v hw cx hc => ?_
  obtain ⟨hst, hhi⟩ := opt_type (s := s) (hi := 0) hw.low (by omega) (by omega)
  obtain ⟨hkc, hk', h0⟩ := kindChk_ok (low := boolBit ad) (plain := t == .k4) hw.flow rfl hk4 (by omega) (by simpa using hplain)
  refine ⟨_, by rw [decOp, decALong, hw.op, hc]; rfl, by simp only [hw.fd, hw.fa, hw.fb, hw.ft, hw.fr,
    hw.ctl, hst, h0, hk', boolBit_beq, ABase.ofCode_code hd, ABase.ofCode_code ha, Ty.ofCode_code, Rnd.ofCode_code], fun ho => ?_⟩
  simp only [hw.ft, hst, hhi, h0, boolBit_beq, Ty.ofCode_code, List.forall_mem_append]
  refine ⟨⟨⟨⟨⟨⟨?_, hkc⟩, ?_⟩, npChk_ok ho hw.np⟩, ?_⟩, alTChk_ok ho hw.ft ht1⟩, ?_⟩
  · simp [aBase, aReg, opd, hw.fd, hw.fa, hw.fb]
    omega
  · have hpool : (poolChk cx ad v).bad = false := by
      refine poolChk_ok hw.np hst fun hp => ?_
      have hfit := ho.fits
      simp only [Machine.profileFits, hp, Bool.not_true, Bool.false_or] at hfit
      exact hfit
    simp [ill, hpool]
    omega
  · simp [alCChk, alQChk, ill2, hw.fc, hw.fq]
  · simp only [List.mem_cons, List.not_mem_nil, or_false, forall_eq_or_imp, forall_eq]
    refine ⟨?_, ?_, rfl, feat_ok ho (by decide) _ _ _, ht2⟩
    · simp [opd2, ht3]
    · simp [alRChk, opd2, hw.fr]
      omega

end

theorem coded_decq {q k : Nat} {zr : Bool} (hq : q < 16) (hd : d.ok = true) (ha : a < 32) (hb : b < 32) (hk : k < 32)
    (ht : (if zr then t.isElem else t == .bf16) = true) (hctl : c.ok = true) :
    Coded .a (.decq q d a b k t zr c) (encode (.decq q d a b k t zr c)) := by
  have hbase := ABase.code_lt hd
  have hz := boolBit_lt zr
  refine coded_al (by decide) (by decide) (by omega) (by omega) (by omega) (by omega) hctl (by omega) (by omega) (Ty.code_lt t) (by omega)
    (by omega) fun w v hw c hc => ?_
  refine ⟨_, by rw [decOp, decALong, hw.op, hc]; rfl, by simp only [hw.fd, hw.fa, hw.fb, hw.ff, hw.fc, hw.fq, hw.ft, hw.ctl, boolBit_beq,
    ABase.ofCode_code hd, Ty.ofCode_code], fun ho => ?_⟩
  have hel : t.isElem = true := by
    cases zr
    · rw [beq_iff_eq.mp ht]
      rfl
    · exact ht
  have hplain : (boolBit zr == 0 && t.isElem && t != .bf16) = false := by
    cases zr
    · simp [beq_iff_eq.mp ht]
    · rfl
  simp only [hw.ff, hw.ft, Ty.ofCode_code, List.forall_mem_append]
  refine ⟨⟨⟨⟨?_, npChk_ok ho hw.np⟩, ?_⟩, alTChk_ok ho hw.ft hel⟩, ?_⟩
  · simp only [opd, hplain, List.mem_cons, List.not_mem_nil, or_false, forall_eq_or_imp, forall_eq]
    simp [aBase, aReg, opd, ill, hw.fd, hw.fa, hw.fb]
    omega
  · simp [alCChk, alQChk, opd2, hw.fc, hw.fq]
    omega
  · simp [alRChk, ill2, hw.fr, hw.fo]

end

end Sys2Proof
end

section
/-! SUPPORT. The short words of the execute engine (R58, R157) are read back. -/

namespace Sys2Proof

section
variable {d a b : Nat}

/-- The scalar float forms of two operands. -/
theorem coded_sf (mk : Nat → Nat → Nat → Rnd → Instr) {maj : Nat} (hm : maj < 96) {r : Rnd} (hd : d < 32) (ha : a < 32) (hb : b < 32)
    (hdec : ∀ c w, c.eng = .x → fld w 25 7 = maj → decOp c w 0 = some (decSf w mk)) : Coded .x (mk d a b r) (encS3 maj d a b r.code) := by
  have hr := Rnd.code_le r
  refine coded_s3 hm (by omega) (by omega) (by omega) (by omega) fun w hw c hc => ?_
  have hr' : fld w 0 3 = r.code := by rw [hw.low 0 3 (by decide), fld_whole (by omega)]
  have hrest : fld w 3 4 = 0 := by
    rw [hw.low 3 4 (by decide)]
    simp only [fld]
    omega
  refine ⟨_, hdec c w hc hw.op, by simp only [decSf, hw.fd, hw.fa, hw.fb, hr', Rnd.ofCode_code], fun _ => ?_⟩
  simp [decSf, fRnd, xReg, opd, ill, hw.fd, hw.fa, hw.fb, hr', hrest]
  omega

theorem coded_sfsqrt {r : Rnd} (hd : d < 32) (ha : a < 32) : Coded .x (.sfsqrt d a r) (encode (.sfsqrt d a r)) := by
  have hr := Rnd.code_le r
  refine coded_s3 (by decide) (by omega) (by omega) (by omega) (by omega) fun w hw c hc => ?_
  have hr' : fld w 0 3 = r.code := by rw [hw.low 0 3 (by decide), fld_whole (by omega)]
  have hrest : fld w 3 4 = 0 := by
    rw [hw.low 3 4 (by decide)]
    simp only [fld]
    omega
  refine ⟨_, by rw [decOp, decXShort, hw.op, hc]; rfl, by simp only [hw.fd, hw.fa, hr', Rnd.ofCode_code], fun _ => ?_⟩
  simp [fRnd, xReg, opd, ill, hw.fd, hw.fa, hw.fb, hr', hrest]
  omega

/-- Three registers below 32, `funct` reserved. -/
theorem coded_xdab (mk : Nat → Nat → Nat → Instr) {maj : Nat} (hm : maj < 96) (hd : d < 32) (ha : a < 32) (hb : b < 32)
    (hdec : ∀ c w, c.eng = .x → fld w 25 7 = maj → decOp c w 0 =
      some ⟨[xReg 19 (fD w), xReg 13 (fA w), xReg 7 (fB w)] ++ f0 w, mk (fD w) (fA w) (fB w)⟩) : Coded .x (mk d a b) (encS3 maj d a b 0) := by
  refine coded_s3 hm (by omega) (by omega) (by omega) (by decide) fun w hw c hc => ?_
  refine ⟨_, hdec c w hc hw.op, by rw [hw.fd, hw.fa, hw.fb], fun _ => ?_⟩
  simp [xReg, opd, ill, f0, hw.fd, hw.fa, hw.fb, hw.ff]
  omega

theorem coded_sfcmp {k : Nat} (hd : d < 32) (ha : a < 32) (hb : b < 32) (hk : k < 8) : Coded .x (.sfcmp d a b k) (encode (.sfcmp d a b k)) := by
  refine coded_s3 (by decide) (by omega) (by omega) (by omega) (by omega) fun w hw c hc => ?_
  have hk' : fld w 0 3 = k := by rw [hw.low 0 3 (by decide), fld_whole (by omega)]
  have hrest : fld w 3 4 = 0 := by
    rw [hw.low 3 4 (by decide)]
    simp only [fld]
    omega
  refine ⟨_, by rw [decOp, decXShort, hw.op, hc]; rfl, by simp only [hw.fd, hw.fa, hw.fb, hk'], fun _ => ?_⟩
  simp [xReg, opd, ill, hw.fd, hw.fa, hw.fb, hrest]
  omega

theorem coded_sfcvt {r : Rnd} {t s : Nat} (hd : d < 32) (ha : a < 32) (ht : t < 4) (hs : s < 4) (hts : t ≠ s)
    (hr : (r == .rne || !((t == 1 && s == 2) || (t == 2 && s == 1))) = true) : Coded .x (.sfcvt d a r t s) (encode (.sfcvt d a r t s)) := by
  have hrnd := Rnd.code_le r
  refine coded_s3 (by decide) (by omega) (by omega) (by omega) (by omega) fun w hw c hc => ?_
  have hr' : fld w 4 3 = r.code := by
    rw [hw.low 4 3 (by decide)]
    simp only [fld]
    omega
  have ht' : fld w 2 2 = t := by
    rw [hw.low 2 2 (by decide)]
    simp only [fld]
    omega
  have hs' : fld w 0 2 = s := by
    rw [hw.low 0 2 (by decide)]
    simp only [fld]
    omega
  refine ⟨_, by rw [decOp, decXShort, hw.op, hc]; rfl, by simp only [hw.fd, hw.fa, hr', ht', hs', Rnd.ofCode_code], fun _ => ?_⟩
  have hround : (if ((t == 1 && s == 2) || (t == 2 && s == 1)) = true then ill 4 (r.code != 0) else opd 4 (5 < r.code)).bad = false := by
    split
    next hints =>
      rw [hints, Bool.not_true, Bool.or_false, beq_iff_eq] at hr
      rw [hr]
      rfl
    · exact decide_eq_false (by omega)
  simp only [hw.fd, hw.fa, hw.fb, hr', ht', hs', List.mem_cons, List.not_mem_nil, or_false, forall_eq_or_imp, forall_eq]
  refine ⟨decide_eq_false (by omega), decide_eq_false (by omega), rfl, hround, ?_⟩
  simp [ill, hts]

theorem coded_vext {n : Bool} {z : Nat} (hd : d < 32) (ha : a < 32) (hb : b < 32) (hz : z < 4) (hn : (!(n && z == 3)) = true) :
    Coded .x (.vext d a b n z) (encode (.vext d a b n z)) := by
  have h1 := boolBit_lt n
  refine coded_s3 (by decide) (by omega) (by omega) (by omega) (by omega) fun w hw c hc => ?_
  have hn' : bit w 2 = n := by
    rw [bit_eq_fld, hw.low 2 1 (by decide), show fld (boolBit n * 4 + z) 2 1 = boolBit n by simp only [fld]; omega, boolBit_beq]
  have hz' : fld w 0 2 = z := by
    rw [hw.low 0 2 (by decide)]
    simp only [fld]
    omega
  have hrest : fld w 3 4 = 0 := by
    rw [hw.low 3 4 (by decide)]
    simp only [fld]
    omega
  refine ⟨_, by rw [decOp, decXShort, hw.op, hc]; rfl, by simp only [hw.fd, hw.fa, hw.fb, hn', hz'], fun _ => ?_⟩
  have hbad : (n && z == 3) = false := (Bool.not_eq_true' _).mp hn
  simp only [hw.fd, hw.fa, hw.fb, hn', hz', hrest, List.mem_cons, List.not_mem_nil, or_false, forall_eq_or_imp, forall_eq]
  exact ⟨decide_eq_false (by omega), decide_eq_false (by omega), decide_eq_false (by omega), rfl, hbad⟩

theorem coded_vins {z : Nat} (hd : d < 32) (ha : a < 32) (hb : b < 32) (hz : z < 4) : Coded .x (.vins d a b z) (encode (.vins d a b z)) := by
  refine coded_s3 (by decide) (by omega) (by omega) (by omega) (by omega) fun w hw c hc => ?_
  have hz' : fld w 0 2 = z := by rw [hw.low 0 2 (by decide), fld_whole (by omega)]
  have hrest : fld w 2 5 = 0 := by
    rw [hw.low 2 5 (by decide)]
    simp only [fld]
    omega
  refine ⟨_, by rw [decOp, decXShort, hw.op, hc]; rfl, by simp only [hw.fd, hw.fa, hw.fb, hz'], fun _ => ?_⟩
  simp [xReg, opd, ill, hw.fd, hw.fa, hw.fb, hrest]
  omega

theorem coded_qcnt {n : Bool} (hd : d < 32) (ha : a < (if n then 8 else 16)) : Coded .x (.qcnt d a n) (encode (.qcnt d a n)) := by
  have h1 := boolBit_lt n
  have ha16 : a < 16 := ha.trans_le (by cases n <;> decide)
  refine coded_s3 (by decide) (by omega) (by omega) (by omega) (by omega) fun w hw c hc => ?_
  have hn' : bit w 0 = n := by rw [bit_eq_fld, hw.low 0 1 (by decide), fld_whole (by omega), boolBit_beq]
  have hrest : fld w 1 6 = 0 := by
    rw [hw.low 1 6 (by decide)]
    simp only [fld]
    omega
  refine ⟨_, by rw [decOp, decXShort, hw.op, hc]; rfl, by simp only [hw.fd, hw.fa, hn'], fun _ => ?_⟩
  have hlim : ¬ (if n then 7 else 15) < a := by cases n <;> simp at ha ⊢ <;> omega
  simp [xReg, opd, ill, hw.fd, hw.fa, hw.fb, hrest, hn']
  omega

theorem coded_qdrop (ha : a < 16) (hb : b < 32) : Coded .x (.qdrop a b) (encode (.qdrop a b)) := by
  refine coded_s3 (by decide) (by omega) (by omega) (by omega) (by omega) fun w hw c hc => ?_
  have hbit : bit w 0 = false := by rw [bit_eq_fld, hw.low 0 1 (by decide)]; rfl
  have hrest : fld w 1 6 = 0 := hw.low 1 6 (by decide)
  refine ⟨_, by rw [decOp, decXShort, hw.op, hc]; exact if_neg (show ¬ bit w 0 = true by rw [hbit]; decide), by simp only [hw.fa, hw.fb], fun _ => ?_⟩
  simp [xReg, opd, ill, hw.fd, hw.fa, hw.fb, hrest]
  omega

theorem coded_qdropNw (hd : d < 32) (ha : a < 16) (hb : b < 32) : Coded .x (.qdropNw d a b) (encode (.qdropNw d a b)) := by
  refine coded_s3 (by decide) (by omega) (by omega) (by omega) (by omega) fun w hw c hc => ?_
  have hbit : bit w 0 = true := by rw [bit_eq_fld, hw.low 0 1 (by decide)]; rfl
  have hrest : fld w 1 6 = 0 := hw.low 1 6 (by decide)
  refine ⟨_, by rw [decOp, decXShort, hw.op, hc]; exact if_pos hbit, by simp only [hw.fd, hw.fa, hw.fb], fun _ => ?_⟩
  simp [xReg, opd, ill, hw.fd, hw.fa, hw.fb, hrest]
  omega

theorem coded_loopp {k : Nat} {i : Int} (hk : k < 8) (ha : a < 32) (hi : imm13Ok i = true) : Coded .x (.loopp k a i) (encode (.loopp k a i)) := by
  obtain ⟨hlt, hval⟩ := imm13_field hi
  refine coded_short (by omega) fun c hc => ?_
  obtain ⟨w, hw⟩ : ∃ w, w = 0x4E * 2 ^ 25 + k * 2 ^ 19 + a * 2 ^ 13 + encImm i := ⟨_, rfl⟩
  have hword := siWord (maj := 0x4E) (d := k) (a := a) (by decide) (by omega) (by omega) hlt
  rw [← hw] at hword ⊢
  have hk' : fld w 19 3 = k := by simp only [fld]; omega
  have hrest : fld w 22 3 = 0 := by simp only [fld]; omega
  refine ⟨_, by rw [decOp, decXShort, hword.op, hc]; rfl, by simp only [hword.fa, fImm, hword.fi, hk', hval], fun _ => ?_⟩
  simp [xReg, opd, ill, hword.fa, hrest]
  omega

theorem coded_plog {op : Nat} (hd : d < 64) (ha : a < 64) (hb : b < 64) (hop : op < 8) : Coded .x (.plog d a b op) (encode (.plog d a b op)) := by
  refine coded_s3 (by decide) hd ha hb (by omega) fun w hw c hc => ?_
  have hop' : fld w 0 3 = op := by rw [hw.low 0 3 (by decide), fld_whole (by omega)]
  have hrest : fld w 3 4 = 0 := by
    rw [hw.low 3 4 (by decide)]
    simp only [fld]
    omega
  refine ⟨_, by rw [decOp, decXShort, hw.op, hc]; rfl, by simp only [hw.fd, hw.fa, hw.fb, hop'], fun _ => ?_⟩
  simp [ill, hrest]

/-- The counts of a predicate. -/
theorem coded_pcount (mk : Nat → Nat → Nat → Instr) {maj n : Nat} (hm : maj < 96) (hd : d < 32) (ha : a < 64) (hn : n < 4)
    (hdec : ∀ c w, c.eng = .x → fld w 25 7 = maj → decOp c w 0 =
      some ⟨[xReg 19 (fD w), ill 7 (fB w != 0), ill 2 (fld w 2 5 != 0)], mk (fD w) (fA w) (fld w 0 2)⟩) :
    Coded .x (mk d a n) (encS3 maj d a 0 n) := by
  refine coded_s3 hm (by omega) ha (by omega) (by omega) fun w hw c hc => ?_
  have hn' : fld w 0 2 = n := by rw [hw.low 0 2 (by decide), fld_whole (by omega)]
  have hrest : fld w 2 5 = 0 := by
    rw [hw.low 2 5 (by decide)]
    simp only [fld]
    omega
  refine ⟨_, hdec c w hc hw.op, by rw [hw.fd, hw.fa, hn'], fun _ => ?_⟩
  simp [xReg, opd, ill, hw.fd, hw.fb, hrest]
  omega

theorem coded_pset {k n : Nat} (hd : d < 64) (hk : k < 4) (hn : n < 1024) : Coded .x (.pset d k n) (encode (.pset d k n)) := by
  refine coded_si (by decide) hd (by omega) (by omega) fun w hw c hc => ?_
  have hbit : bit w 10 = false := by
    rw [bit_eq_fld, hw.low 10 1 (by decide), show fld (k * 2 ^ 11 + n) 10 1 = 0 by simp only [fld]; omega]
    rfl
  have hk' : fld w 11 2 = k := by
    rw [hw.low 11 2 (by decide)]
    simp only [fld]
    omega
  have hn' : fld w 0 10 = n := by
    rw [hw.low 0 10 (by decide)]
    simp only [fld]
    omega
  refine ⟨_, by rw [decOp, decXShort, hw.op, hc]; exact if_neg (show ¬ bit w 10 = true by rw [hbit]; decide), by simp only [hw.fd, hk', hn'], fun _ => ?_⟩
  simp [ill, hw.fa]

theorem coded_psetReg {k n : Nat} (hd : d < 64) (ha : a < 32) (hk : k < 4) (hn : n < 1024) :
    Coded .x (.psetReg d a k n) (encode (.psetReg d a k n)) := by
  refine coded_si (by decide) hd (by omega) (by omega) fun w hw c hc => ?_
  have hbit : bit w 10 = true := by
    rw [bit_eq_fld, hw.low 10 1 (by decide), show fld (k * 2 ^ 11 + 2 ^ 10 + n) 10 1 = 1 by simp only [fld]; omega]
    rfl
  have hk' : fld w 11 2 = k := by
    rw [hw.low 11 2 (by decide)]
    simp only [fld]
    omega
  have hn' : fld w 0 10 = n := by
    rw [hw.low 0 10 (by decide)]
    simp only [fld]
    omega
  refine ⟨_, by rw [decOp, decXShort, hw.op, hc]; exact if_pos hbit, by simp only [hw.fd, hw.fa, hk', hn'], fun _ => ?_⟩
  simp [xReg, opd, hw.fa]
  omega

theorem coded_ppack (hd : d < 32) (ha : a ≤ 56) : Coded .x (.ppack d a) (encode (.ppack d a)) := by
  refine coded_s3 (by decide) (by omega) (by omega) (by omega) (by omega) fun w hw c hc => ?_
  refine ⟨_, by rw [decOp, decXShort, hw.op, hc]; rfl, by simp only [hw.fd, hw.fa], fun _ => ?_⟩
  simp [f0, xReg, opd, ill, hw.fd, hw.fa, hw.fb, hw.ff]
  omega

theorem coded_punpk (hd : d ≤ 56) (ha : a < 32) : Coded .x (.punpk d a) (encode (.punpk d a)) := by
  refine coded_s3 (by decide) (by omega) (by omega) (by omega) (by omega) fun w hw c hc => ?_
  refine ⟨_, by rw [decOp, decXShort, hw.op, hc]; rfl, by simp only [hw.fd, hw.fa], fun _ => ?_⟩
  simp [f0, xReg, opd, ill, hw.fd, hw.fa, hw.fb, hw.ff]
  omega

theorem coded_pext (hd : d < 32) (ha : a < 64) (hb : b < 32) : Coded .x (.pext d a b) (encode (.pext d a b)) := by
  refine coded_s3 (by decide) (by omega) ha (by omega) (by omega) fun w hw c hc => ?_
  refine ⟨_, by rw [decOp, decXShort, hw.op, hc]; rfl, by simp only [hw.fd, hw.fa, hw.fb], fun _ => ?_⟩
  simp [f0, xReg, opd, ill, hw.fd, hw.fb, hw.ff]
  omega

theorem coded_pins (hd : d < 64) (ha : a < 32) (hb : b < 32) : Coded .x (.pins d a b) (encode (.pins d a b)) := by
  refine coded_s3 (by decide) hd (by omega) (by omega) (by omega) fun w hw c hc => ?_
  refine ⟨_, by rw [decOp, decXShort, hw.op, hc]; rfl, by simp only [hw.fd, hw.fa, hw.fb], fun _ => ?_⟩
  simp [f0, xReg, opd, ill, hw.fa, hw.fb, hw.ff]
  omega

end

end Sys2Proof
end

section
/-! SUPPORT. The long words of the execute engine (R45 to R48, R168, R181) are read back. -/

namespace Sys2Proof

/-! ## Sources and destinations (R46, R47) -/

/-- A source that has a code. -/
def XSrc.named : XSrc → Bool
  | .v n => n < 32
  | .s n => n < 32
  | .q n _ => n < 16
  | .m n => n < 8
  | .lane => true
  | .ones => true

theorem XSrc.named_of_ok {x : XSrc} {t : Ty} (h : x.ok t = true) : x.named = true := by
  cases x with
  | v | s | q | m => exact h
  | lane | ones => rfl

theorem XSrc.named_of_scalarOk {x : XSrc} (h : x.scalarOk = true) : x.named = true := by
  cases x with
  | s | m => exact h
  | v | q | lane | ones => exact absurd h Bool.false_ne_true

theorem XSrc.code_lt {x : XSrc} (h : x.named = true) : x.code < 128 := by
  cases x with
  | v n | s n | q n _ | m n => simp only [XSrc.named, decide_eq_true_eq] at h; simp only [XSrc.code]; omega
  | lane | ones => decide

theorem XSrc.ofCode_code {x : XSrc} (h : x.named = true) : XSrc.ofCode x.code x.peek = x := by
  cases x with
  | v n => rw [XSrc.code, XSrc.ofCode, if_pos (of_decide_eq_true h)]
  | s n =>
    have hn : n < 32 := of_decide_eq_true h
    rw [XSrc.code, XSrc.ofCode, if_neg (by omega), if_pos (by omega), Nat.add_sub_cancel_left]
  | q n p =>
    have hn : n < 16 := of_decide_eq_true h
    rw [XSrc.code, XSrc.ofCode, if_neg (by omega), if_neg (by omega), if_pos (by omega), Nat.add_sub_cancel_left]
    rfl
  | m n =>
    have hn : n < 8 := of_decide_eq_true h
    rw [XSrc.code, XSrc.ofCode, if_neg (by omega), if_neg (by omega), if_neg (by omega), if_pos (by omega), Nat.add_sub_cancel_left]
  | lane | ones => rfl

theorem srcBad_code {x : XSrc} {t : Ty} (h : x.ok t = true) : srcBad t x.code = false := by
  have hlt := XSrc.named_of_ok h
  cases x with
  | v n | s n | q n _ | m n =>
    simp only [XSrc.named, decide_eq_true_eq] at hlt
    rw [srcBad, XSrc.code, if_pos (by omega)]
  | lane =>
    have hl : t.laneOk = true := h
    simp [srcBad, XSrc.code, hl]
  | ones => rfl

theorem scalarBad_of_range {n : Nat} (h : (32 ≤ n ∧ n < 64) ∨ (80 ≤ n ∧ n < 88)) : scalarBad n = false := by
  simp only [scalarBad, Bool.or_eq_false_iff, Bool.and_eq_false_iff, decide_eq_false_iff_not]
  omega

theorem scalarBad_code {x : XSrc} (h : x.scalarOk = true) : scalarBad x.code = false := by
  have hlt := XSrc.named_of_scalarOk h
  cases x with
  | s n | m n =>
    simp only [XSrc.named, decide_eq_true_eq] at hlt
    refine scalarBad_of_range ?_
    simp only [XSrc.code]
    omega
  | v | q | lane | ones => exact absurd h Bool.false_ne_true

/-- A code among the eight of the mailboxes is a mailbox's (R46). -/
theorem XSrc.mbox_of_code {x : XSrc} (h : x.named = true) (hlo : 80 ≤ x.code) (hhi : x.code < 88) : x = .m (x.code - 80) := by
  cases x with
  | v n | s n | q n _ =>
    simp only [XSrc.named, decide_eq_true_eq] at h
    simp only [XSrc.code] at hlo
    omega
  | m n => rw [XSrc.code, Nat.add_sub_cancel_left]
  | lane | ones => exact absurd hhi (by decide)

/-- Codes clash only where the sources name one mailbox (R154). -/
theorem mboxClash_code {x y : XSrc} (hx : x.named = true) (hy : y.named = true) (hxy : sameMbox x y = false) :
    mboxClash x.code y.code = false := by
  by_contra hclash
  simp only [mboxClash, Bool.not_eq_false, Bool.and_eq_true, beq_iff_eq, decide_eq_true_eq] at hclash
  obtain ⟨⟨heq, hlo⟩, hhi⟩ := hclash
  rw [XSrc.mbox_of_code hx hlo hhi, XSrc.mbox_of_code hy (by omega) (by omega), heq] at hxy
  simp [sameMbox, XSrc.mbox?] at hxy

theorem sameMbox_noSrc (x : XSrc) : sameMbox x noSrc = false := by cases x <;> rfl

theorem XSrc.peek_code {x : XSrc} (h : x.named = true) : (x.peek && !(64 ≤ x.code && x.code < 80)) = false := by
  cases x with
  | q n p =>
    have hn : n < 16 := of_decide_eq_true h
    have hlo : 64 ≤ 64 + n := Nat.le_add_right _ _
    have hhi : 64 + n < 80 := by omega
    rw [XSrc.code, decide_eq_true hlo, decide_eq_true hhi]
    exact Bool.and_false _
  | v | s | m | lane | ones => rfl

theorem XDst.vw_vwe {d : XDst} (h : d.vw = true) : d.vwe = true := by
  cases d with
  | v | w => exact h
  | e => exact absurd h Bool.false_ne_true

theorem XDst.code_lt {d : XDst} (h : d.vwe = true) : d.code < 128 := by
  cases d with
  | v n | w n | e n =>
    simp only [XDst.vwe, XDst.vw, decide_eq_true_eq] at h
    simp only [XDst.code]
    omega

theorem XDst.ofCode_code {d : XDst} (h : d.vwe = true) : XDst.ofCode d.code = d := by
  cases d with
  | v n => rw [XDst.code, XDst.ofCode, if_pos (of_decide_eq_true h)]
  | w n =>
    have hn : n < 8 := of_decide_eq_true h
    rw [XDst.code, XDst.ofCode, if_neg (by omega), if_pos (by omega), Nat.add_sub_cancel_left]
  | e n => rw [XDst.code, XDst.ofCode, if_neg (by omega), if_neg (by omega), Nat.add_sub_cancel_left]

theorem dstBad_vw_of_range {n : Nat} (h : n < 32 ∨ (64 ≤ n ∧ n < 72)) : dstBad .vw n = false := by
  simp only [dstBad, Bool.not_eq_false', Bool.or_eq_true, Bool.and_eq_true, decide_eq_true_eq]
  exact h

theorem dstBad_vwe_of_range {n : Nat} (h : (n < 32 ∨ (64 ≤ n ∧ n < 72)) ∨ (88 ≤ n ∧ n < 96)) : dstBad .vwe n = false := by
  simp only [dstBad, Bool.not_eq_false', Bool.or_eq_true, Bool.and_eq_true, decide_eq_true_eq]
  exact h

theorem dstBad_vw {d : XDst} (h : d.vw = true) : dstBad .vw d.code = false := by
  cases d with
  | v n | w n =>
    simp only [XDst.vw, decide_eq_true_eq] at h
    refine dstBad_vw_of_range ?_
    simp only [XDst.code]
    omega
  | e => exact absurd h Bool.false_ne_true

theorem dstBad_vwe {d : XDst} (h : d.vwe = true) : dstBad .vwe d.code = false := by
  cases d with
  | v n | w n | e n =>
    simp only [XDst.vwe, XDst.vw, decide_eq_true_eq] at h
    refine dstBad_vwe_of_range ?_
    simp only [XDst.code]
    omega

/-! ## The fields of the X long format (R45) -/

/-- What a form reads from two words of the X long format. -/
structure XLWords (w v maj d : Nat) (a b : XSrc) (f : Nat) (c : XCtl) (z : XSrc) (t : Ty) (r : Rnd) : Prop where
  op : fld w 25 7 = maj
  fd : xlD w = d
  fa : xlA w = a.code
  fb : xlB w = b.code
  ff : xlF w = f
  np : xlNp v = c.np.code
  ctl : xCtlOf v = c
  fz : xlC v = z.code
  ft : xlT v = t.code
  fr : xlR v = r.code
  zeroing : bit v 7 = c.zeroing
  peekA : bit v 3 = a.peek
  peekB : bit v 2 = b.peek
  peekC : bit v 1 = z.peek

theorem xlWords {maj d : Nat} {a b : XSrc} {f : Nat} {c : XCtl} {z : XSrc} (t : Ty) (r : Rnd) (hm : maj < 128) (hd : d < 128)
    (ha : a.named = true) (hb : b.named = true) (hf : f < 16) (hc : c.ok = true) (hz : z.named = true) :
    XLWords (maj * 2 ^ 25 + d * 2 ^ 18 + a.code * 2 ^ 11 + b.code * 2 ^ 4 + f)
      (c.np.code * 2 ^ 29 + c.take * 2 ^ 27 + c.give * 2 ^ 25 + z.code * 2 ^ 18 + t.code * 2 ^ 14 + c.guard * 2 ^ 8 +
        boolBit c.zeroing * 2 ^ 7 + r.code * 2 ^ 4 + boolBit a.peek * 2 ^ 3 + boolBit b.peek * 2 ^ 2 + boolBit z.peek * 2 +
        boolBit c.trapOnEmpty) maj d a b f c z t r := by
  have := XSrc.code_lt ha
  have := XSrc.code_lt hb
  have := XSrc.code_lt hz
  have := Np.code_le c.np
  have := Ty.code_lt t
  have := Rnd.code_le r
  have := boolBit_lt c.zeroing
  have := boolBit_lt a.peek
  have := boolBit_lt b.peek
  have := boolBit_lt z.peek
  have := boolBit_lt c.trapOnEmpty
  simp only [XCtl.ok, Bool.and_eq_true, decide_eq_true_eq] at hc
  obtain ⟨v, hv⟩ : ∃ v, v = c.np.code * 2 ^ 29 + c.take * 2 ^ 27 + c.give * 2 ^ 25 + z.code * 2 ^ 18 + t.code * 2 ^ 14 + c.guard * 2 ^ 8 +
        boolBit c.zeroing * 2 ^ 7 + r.code * 2 ^ 4 + boolBit a.peek * 2 ^ 3 + boolBit b.peek * 2 ^ 2 + boolBit z.peek * 2 +
        boolBit c.trapOnEmpty := ⟨_, rfl⟩
  rw [← hv]
  have hnp : fld v 29 3 = c.np.code := by simp only [fld]; omega
  have htake : fld v 27 2 = c.take := by simp only [fld]; omega
  have hgive : fld v 25 2 = c.give := by simp only [fld]; omega
  have hguard : fld v 8 6 = c.guard := by simp only [fld]; omega
  have hz7 : fld v 7 1 = boolBit c.zeroing := by simp only [fld]; omega
  have hp3 : fld v 3 1 = boolBit a.peek := by simp only [fld]; omega
  have hp2 : fld v 2 1 = boolBit b.peek := by simp only [fld]; omega
  have hp1 : fld v 1 1 = boolBit z.peek := by simp only [fld]; omega
  have ht0 : fld v 0 1 = boolBit c.trapOnEmpty := by simp only [fld]; omega
  have hzero : bit v 7 = c.zeroing := by rw [bit_eq_fld, hz7, boolBit_beq]
  have htrap : bit v 0 = c.trapOnEmpty := by rw [bit_eq_fld, ht0, boolBit_beq]
  refine ⟨?_, ?_, ?_, ?_, ?_, hnp, ?_, ?_, ?_, ?_, hzero, ?_, ?_, ?_⟩
  · simp only [fld]; omega
  · simp only [xlD, fld]; omega
  · simp only [xlA, fld]; omega
  · simp only [xlB, fld]; omega
  · simp only [xlF, fld]; omega
  · rw [xCtlOf, xlNp, hnp, htake, hgive, hguard, hzero, htrap, Np.ofCode_code]
  · simp only [xlC, fld]; omega
  · simp only [xlT, fld]; omega
  · simp only [xlR, fld]; omega
  · rw [bit_eq_fld, hp3, boolBit_beq]
  · rw [bit_eq_fld, hp2, boolBit_beq]
  · rw [bit_eq_fld, hp1, boolBit_beq]

theorem coded_xl {i : Instr} {maj d : Nat} {a b : XSrc} {f : Nat} {c : XCtl} {z : XSrc} {t : Ty} {r : Rnd} (hm1 : 96 ≤ maj) (hm2 : maj < 128)
    (hd : d < 128) (ha : a.named = true) (hb : b.named = true) (hf : f < 16) (hc : c.ok = true) (hz : z.named = true)
    (h : ∀ w v, XLWords w v maj d a b f c z t r → Reads .x i w v) : Coded .x i (encXL maj d a b f c z t.code r.code) := by
  have hwords := xlWords t r hm2 hd ha hb hf hc hz
  have := XSrc.code_lt ha
  have := XSrc.code_lt hb
  have := XSrc.code_lt hz
  have := Np.code_le c.np
  have := Ty.code_lt t
  have := Rnd.code_le r
  have := boolBit_lt c.zeroing
  have := boolBit_lt a.peek
  have := boolBit_lt b.peek
  have := boolBit_lt z.peek
  have := boolBit_lt c.trapOnEmpty
  simp only [XCtl.ok, Bool.and_eq_true, decide_eq_true_eq] at hc
  exact coded_long (by omega) (by omega) (by omega) (h _ _ hwords)

section
variable {w v maj d : Nat} {a b : XSrc} {f : Nat} {c : XCtl} {z : XSrc} {t : Ty} {r : Rnd}

theorem XLWords.srcA (h : XLWords w v maj d a b f c z t r) (ha : a.named = true) : xSrcA w v = a := by
  rw [xSrcA, h.fa, h.peekA, XSrc.ofCode_code ha]

theorem XLWords.srcB (h : XLWords w v maj d a b f c z t r) (hb : b.named = true) : xSrcB w v = b := by
  rw [xSrcB, h.fb, h.peekB, XSrc.ofCode_code hb]

theorem XLWords.srcC (h : XLWords w v maj d a b f c z t r) (hz : z.named = true) : xSrcC v = z := by
  rw [xSrcC, h.fz, h.peekC, XSrc.ofCode_code hz]

end

/-! ## The checks of a form (R45 to R48) -/

/-- The source that a position takes in a type. -/
def Pos.takes (p : Pos) (t : Ty) (x : XSrc) : Prop :=
  match p with
  | .unused => x = noSrc
  | .any => x.ok t = true
  | .scalar => x.scalarOk = true

theorem Pos.takes_named {p : Pos} {t : Ty} {x : XSrc} (h : p.takes t x) : x.named = true := by
  cases p with
  | unused => rw [show x = noSrc from h]; rfl
  | any => exact XSrc.named_of_ok h
  | scalar => exact XSrc.named_of_scalarOk h

theorem posChk_ok {p : Pos} {t : Ty} {x : XSrc} (h : p.takes t x) (word2 : Bool) (lsb : Nat) {clash : Bool} (hc : clash = false) :
    (posChk p word2 lsb t x.code clash).bad = false := by
  subst hc
  cases p with
  | unused => rw [show x = noSrc from h]; rfl
  | any => rw [posChk, srcBad_code h]; rfl
  | scalar => rw [posChk, scalarBad_code h]; rfl

theorem peekChk_ok {p : Pos} {t : Ty} {x : XSrc} (h : p.takes t x) (lsb : Nat) : (peekChk p lsb x.code x.peek).bad = false := by
  have hpeek := XSrc.peek_code (Pos.takes_named h)
  cases p with
  | unused => rw [show x = noSrc from h]; rfl
  | any | scalar => exact hpeek

/-- The operands, the types and the options that a form takes. -/
structure XlSpec.Takes (s : XlSpec) (d : Nat) (a b : XSrc) (c : XCtl) (z : XSrc) (t : Ty) (r : Rnd) : Prop where
  form : ∀ k ∈ s.form, k.bad = false
  dest : dstBad s.dest d = false
  srcA : a.ok s.srcTy = true
  srcB : s.b.takes s.srcTy b
  srcC : s.c.takes s.cTy z
  apartAB : sameMbox a b = false
  apartAC : sameMbox a z = false
  apartBC : sameMbox b z = false
  funct : s.functIll = false
  functFeat : ∀ k ∈ s.functFeat, k.bad = false
  functOpd : s.functOpd = false
  ty : s.tyOk t = true
  zero : s.zIll = true → c.zeroing = false
  round : s.rnd = true ∨ r = .rne

theorem XlSpec.Takes.checks {s : XlSpec} {w v maj d : Nat} {a b : XSrc} {f : Nat} {c : XCtl} {z : XSrc} {t : Ty} {r : Rnd} {cx : DCtx} {i : Instr}
    (h : s.Takes d a b c z t r) (hw : XLWords w v maj d a b f c z t r) (ho : OpenFor cx i) : ∀ k ∈ s.checks cx w v, k.bad = false := by
  have ha := XSrc.named_of_ok h.srcA
  have hb := Pos.takes_named h.srcB
  have hz := Pos.takes_named h.srcC
  have hab := mboxClash_code ha hb h.apartAB
  have haz := mboxClash_code ha hz h.apartAC
  have hbz := mboxClash_code hb hz h.apartBC
  have hround : (if s.rnd then opd2 4 (5 < xlR v) else ill2 4 (xlR v != 0)).bad = false := by
    have hle := Rnd.code_le r
    rcases h.round with hr | rfl
    · rw [hr, if_pos rfl]
      simp [opd2, hw.fr, hle]
    · split
      · simp [opd2, hw.fr, hle]
      · simp [ill2, hw.fr, Rnd.code]
  have hzero : (s.zIll && bit v 7) = false := by
    rw [hw.zeroing]
    cases hs : s.zIll
    · rfl
    · rw [h.zero hs, Bool.and_false]
  rw [XlSpec.checks]
  simp only [List.forall_mem_append, List.forall_mem_cons, List.not_mem_nil, false_imp_iff, implies_true, and_true]
  refine ⟨⟨⟨⟨⟨h.form, ?_, ?_, ?_, h.funct⟩, h.functFeat⟩, h.functOpd⟩, npChk_ok ho hw.np⟩, ?_, feat_ok ho (by decide) _ _ _, ?_, hzero, hround, ?_, ?_, ?_⟩
  · rw [hw.fd]; exact h.dest
  · rw [hw.fa, hw.fb, hw.fz]; simp [opd, srcBad_code h.srcA, hab, haz]
  · rw [hw.fb, hw.fz, hbz]; exact posChk_ok h.srcB _ _ (Bool.and_false _)
  · rw [hw.fz]; exact posChk_ok h.srcC _ _ rfl
  · rw [hw.ft, Ty.ofCode_code]; simp [opd2, h.ty]
  · rw [hw.fa, hw.peekA]; exact peekChk_ok (p := .any) h.srcA _
  · rw [hw.fb, hw.peekB]; exact peekChk_ok h.srcB _
  · rw [hw.fz, hw.peekC]; exact peekChk_ok h.srcC _

/-- A form whose checks are those of a spec: it is read back when it takes its operands. The spec sees the context, the fields that it
depends on and the condition under which a combination is examined. -/
theorem coded_spec (S : DCtx → Nat → Ty → Rnd → XCtl → (Bool → Bool) → XlSpec) (mk : Nat → XSrc → XSrc → XSrc → Nat → Ty → Rnd → XCtl → Instr)
    {i : Instr} {maj d : Nat} {a b : XSrc} {f : Nat} {c : XCtl} {z : XSrc} {t : Ty} {r : Rnd} (hm1 : 96 ≤ maj) (hm2 : maj < 128)
    (hd : d < 128) (ha : a.named = true) (hb : b.named = true) (hf : f < 16) (hc : c.ok = true) (hz : z.named = true)
    (hi : mk d a b z f t r c = i) (htakes : ∀ cx live, OpenFor cx i → (S cx f t r c live).Takes d a b c z t r)
    (hdec : ∀ cx w v, cx.eng = .x → fld w 25 7 = maj → decOp cx w v =
      some ⟨(S cx (xlF w) (Ty.ofCode (xlT v)) (Rnd.ofCode (xlR v)) (xCtlOf v) (comboLive v)).checks cx w v,
        mk (xlD w) (xSrcA w v) (xSrcB w v) (xSrcC v) (xlF w) (Ty.ofCode (xlT v)) (Rnd.ofCode (xlR v)) (xCtlOf v)⟩) :
    Coded .x i (encXL maj d a b f c z t.code r.code) := by
  refine coded_xl hm1 hm2 hd ha hb hf hc hz fun w v hw cx hcx => ⟨_, hdec cx w v hcx hw.op, ?_, fun ho => ?_⟩
  · rw [hw.fd, hw.srcA ha, hw.srcB hb, hw.srcC hz, hw.ff, hw.ft, hw.fr, hw.ctl, Ty.ofCode_code, Rnd.ofCode_code, hi]
  · rw [hw.ff, hw.ft, hw.fr, hw.ctl, Ty.ofCode_code, Rnd.ofCode_code]
    exact (htakes cx _ ho).checks hw ho

end Sys2Proof
end

section
/-! SUPPORT. Each long form of the execute engine (R168, R181) is read back from its words. -/

namespace Sys2Proof

/-- A number that a condition bounds is below a bound of the funct field. -/
theorem boolBit_le (s : Bool) : boolBit s ≤ 1 := Nat.le_of_lt_succ (boolBit_lt s)

section
variable {e : Eng} {d : XDst} {a b z : XSrc} {t : Ty} {c : XCtl}

/-! ## Two vector sources (R168, R169) -/

/-- A form of two vector sources. -/
theorem coded_bin (mk : XDst → XSrc → XSrc → Nat → Ty → Rnd → XCtl → Instr) {i : Instr} {maj : Nat} (hm1 : 96 ≤ maj) (hm2 : maj < 128)
    (tyOk : Ty → Bool) (fMax : Nat) (useRnd : Bool) {f : Nat} {r : Rnd} (hf : f ≤ fMax) (hmax : fMax < 16) (hr : useRnd = true ∨ r = .rne)
    (hi : mk d a b f t r c = i) (hwf : (e == .x && d.vw && a.ok t && b.ok t && !sameMbox a b && tyOk t && c.ok) = true)
    (hdec : ∀ cx w v, cx.eng = .x → fld w 25 7 = maj → decOp cx w v =
      some ⟨XlSpec.checks { functIll := fMax < xlF w, tyOk := tyOk, srcTy := Ty.ofCode (xlT v), cTy := Ty.ofCode (xlT v), rnd := useRnd } cx w v,
        mk (XDst.ofCode (xlD w)) (xSrcA w v) (xSrcB w v) (xlF w) (Ty.ofCode (xlT v)) (Rnd.ofCode (xlR v)) (xCtlOf v)⟩) :
    Coded e i (encXL maj d.code a b f c noSrc t.code r.code) := by
  simp only [Bool.and_eq_true, beq_iff_eq, Bool.not_eq_true'] at hwf
  obtain ⟨⟨⟨⟨⟨⟨rfl, hd⟩, ha⟩, hb⟩, hab⟩, ht⟩, hc⟩ := hwf
  exact coded_spec (fun _ f t _ _ _ => { functIll := fMax < f, tyOk := tyOk, srcTy := t, cTy := t, rnd := useRnd })
    (fun d a b _ f t r c => mk (XDst.ofCode d) a b f t r c) hm1 hm2 (XDst.code_lt (XDst.vw_vwe hd)) (XSrc.named_of_ok ha) (XSrc.named_of_ok hb)
    (by omega) hc rfl (by rw [XDst.ofCode_code (XDst.vw_vwe hd), hi])
    (fun _ _ _ => {
      form := by simp, dest := dstBad_vw hd, srcA := ha, srcB := hb, srcC := rfl, apartAB := hab, apartAC := sameMbox_noSrc a,
      apartBC := sameMbox_noSrc b, funct := decide_eq_false (by omega), functFeat := by simp, functOpd := rfl, ty := ht, zero := by simp,
      round := hr }) hdec

theorem coded_vadd {s : Bool} (h : (Instr.vadd d a b t s c).wf e = true) : Coded e (.vadd d a b t s c) (encode (.vadd d a b t s c)) :=
  coded_bin (fun d a b f t _ c => .vadd d a b t (f == 1) c) (r := .rne) (by decide) (by decide) Ty.isInt 1 false (boolBit_le s) (by decide)
    (.inr rfl) (by rw [boolBit_beq]) h fun cx w v hcx h => by rw [decOp, decXLong, h, hcx]; rfl

theorem coded_vsub {s : Bool} (h : (Instr.vsub d a b t s c).wf e = true) : Coded e (.vsub d a b t s c) (encode (.vsub d a b t s c)) :=
  coded_bin (fun d a b f t _ c => .vsub d a b t (f == 1) c) (r := .rne) (by decide) (by decide) Ty.isInt 1 false (boolBit_le s) (by decide)
    (.inr rfl) (by rw [boolBit_beq]) h fun cx w v hcx h => by rw [decOp, decXLong, h, hcx]; rfl

theorem coded_vmul {s : Bool} (h : (Instr.vmul d a b t s c).wf e = true) : Coded e (.vmul d a b t s c) (encode (.vmul d a b t s c)) :=
  coded_bin (fun d a b f t _ c => .vmul d a b t (f == 1) c) (r := .rne) (by decide) (by decide) Ty.isInt 1 false (boolBit_le s) (by decide)
    (.inr rfl) (by rw [boolBit_beq]) h fun cx w v hcx h => by rw [decOp, decXLong, h, hcx]; rfl

theorem coded_vmulh (h : (Instr.vmulh d a b t c).wf e = true) : Coded e (.vmulh d a b t c) (encode (.vmulh d a b t c)) :=
  coded_bin (fun d a b _ t _ c => .vmulh d a b t c) (r := .rne) (by decide) (by decide) Ty.isInt 0 false le_rfl (by decide) (.inr rfl) rfl h
    fun cx w v hcx h => by rw [decOp, decXLong, h, hcx]; rfl

theorem coded_vlog {op : Nat} (h : (Instr.vlog d a b t op c).wf e = true) : Coded e (.vlog d a b t op c) (encode (.vlog d a b t op c)) := by
  simp only [Instr.wf, Bool.and_eq_true, decide_eq_true_eq] at h
  obtain ⟨⟨hform, hop⟩, hc⟩ := h
  exact coded_bin (fun d a b f t _ c => .vlog d a b t f c) (r := .rne) (by decide) (by decide) (fun t => t.isInt || t == .b8) 7 false
    (Nat.le_of_lt_succ hop) (by decide) (.inr rfl) rfl (by simp only [Bool.and_eq_true]; exact ⟨hform, hc⟩)
    fun cx w v hcx h => by rw [decOp, decXLong, h, hcx]; rfl

theorem coded_vsh {op : Nat} (h : (Instr.vsh d a b t op c).wf e = true) : Coded e (.vsh d a b t op c) (encode (.vsh d a b t op c)) := by
  simp only [Instr.wf, Bool.and_eq_true, decide_eq_true_eq] at h
  obtain ⟨⟨hform, hop⟩, hc⟩ := h
  exact coded_bin (fun d a b f t _ c => .vsh d a b t f c) (r := .rne) (by decide) (by decide) Ty.isInt 3 false
    (Nat.le_of_lt_succ hop) (by decide) (.inr rfl) rfl (by simp only [Bool.and_eq_true]; exact ⟨hform, hc⟩)
    fun cx w v hcx h => by rw [decOp, decXLong, h, hcx]; rfl

theorem coded_vmin (h : (Instr.vmin d a b t c).wf e = true) : Coded e (.vmin d a b t c) (encode (.vmin d a b t c)) :=
  coded_bin (fun d a b _ t _ c => .vmin d a b t c) (r := .rne) (by decide) (by decide) (fun t => t.isInt || t.isFloat3) 0 false le_rfl (by decide)
    (.inr rfl) rfl h fun cx w v hcx h => by rw [decOp, decXLong, h, hcx]; rfl

theorem coded_vmax (h : (Instr.vmax d a b t c).wf e = true) : Coded e (.vmax d a b t c) (encode (.vmax d a b t c)) :=
  coded_bin (fun d a b _ t _ c => .vmax d a b t c) (r := .rne) (by decide) (by decide) (fun t => t.isInt || t.isFloat3) 0 false le_rfl (by decide)
    (.inr rfl) rfl h fun cx w v hcx h => by rw [decOp, decXLong, h, hcx]; rfl

theorem coded_vfadd {r : Rnd} (h : (Instr.vfadd d a b t r c).wf e = true) : Coded e (.vfadd d a b t r c) (encode (.vfadd d a b t r c)) :=
  coded_bin (fun d a b _ t r c => .vfadd d a b t r c) (by decide) (by decide) Ty.isFloat3 0 true le_rfl (by decide) (.inl rfl) rfl h
    fun cx w v hcx h => by rw [decOp, decXLong, h, hcx]; rfl

theorem coded_vfsub {r : Rnd} (h : (Instr.vfsub d a b t r c).wf e = true) : Coded e (.vfsub d a b t r c) (encode (.vfsub d a b t r c)) :=
  coded_bin (fun d a b _ t r c => .vfsub d a b t r c) (by decide) (by decide) Ty.isFloat3 0 true le_rfl (by decide) (.inl rfl) rfl h
    fun cx w v hcx h => by rw [decOp, decXLong, h, hcx]; rfl

theorem coded_vfmul {r : Rnd} (h : (Instr.vfmul d a b t r c).wf e = true) : Coded e (.vfmul d a b t r c) (encode (.vfmul d a b t r c)) :=
  coded_bin (fun d a b _ t r c => .vfmul d a b t r c) (by decide) (by decide) Ty.isFloat3 0 true le_rfl (by decide) (.inl rfl) rfl h
    fun cx w v hcx h => by rw [decOp, decXLong, h, hcx]; rfl

theorem coded_vfdiv {r : Rnd} (h : (Instr.vfdiv d a b t r c).wf e = true) : Coded e (.vfdiv d a b t r c) (encode (.vfdiv d a b t r c)) :=
  coded_bin (fun d a b _ t r c => .vfdiv d a b t r c) (by decide) (by decide) Ty.isFloat3 0 true le_rfl (by decide) (.inl rfl) rfl h
    fun cx w v hcx h => by rw [decOp, decXLong, h, hcx]; rfl

theorem coded_vsel (h : (Instr.vsel d a b t c).wf e = true) : Coded e (.vsel d a b t c) (encode (.vsel d a b t c)) := by
  simp only [Instr.wf, Bool.and_eq_true, beq_iff_eq, Bool.not_eq_true'] at h
  obtain ⟨⟨⟨⟨⟨⟨⟨rfl, hd⟩, ha⟩, hb⟩, hab⟩, ht⟩, hzero⟩, hc⟩ := h
  exact coded_spec (fun _ f t _ _ _ => { functIll := 0 < f, tyOk := Ty.isElem, srcTy := t, cTy := t, zIll := true })
    (fun d a b _ _ t _ c => .vsel (XDst.ofCode d) a b t c) (r := .rne) (by decide) (by decide) (XDst.code_lt (XDst.vw_vwe hd))
    (XSrc.named_of_ok ha) (XSrc.named_of_ok hb) (by decide) hc rfl (by rw [XDst.ofCode_code (XDst.vw_vwe hd)])
    (fun _ _ _ => {
      form := by simp, dest := dstBad_vw hd, srcA := ha, srcB := hb, srcC := rfl, apartAB := hab, apartAC := sameMbox_noSrc a,
      apartBC := sameMbox_noSrc b, funct := rfl, functFeat := by simp, functOpd := rfl, ty := ht, zero := fun _ => hzero, round := .inr rfl })
    fun cx w v hcx h => by rw [decOp, decXLong, h, hcx]; rfl

theorem coded_vcmp {p k : Nat} (h : (Instr.vcmp p a b t k c).wf e = true) : Coded e (.vcmp p a b t k c) (encode (.vcmp p a b t k c)) := by
  simp only [Instr.wf, Bool.and_eq_true, beq_iff_eq, Bool.not_eq_true', decide_eq_true_eq] at h
  obtain ⟨⟨⟨⟨⟨⟨⟨⟨rfl, hp⟩, ha⟩, hb⟩, hab⟩, ht⟩, hk⟩, hcmp⟩, hc⟩ := h
  exact coded_spec (fun _ f t _ _ _ => {
      dest := .p, functIll := 7 < f, functOpd := (t.isInt || t.isFloat3 || t == .b8) && !vcmpOk t f,
      tyOk := fun t => t.isInt || t.isFloat3 || t == .b8, srcTy := t, cTy := t })
    (fun p a b _ f t _ c => .vcmp p a b t f c) (r := .rne) (by decide) (by decide) (by omega) (XSrc.named_of_ok ha) (XSrc.named_of_ok hb)
    (by omega) hc rfl rfl
    (fun _ _ _ => {
      form := by simp, dest := decide_eq_false (by omega), srcA := ha, srcB := hb, srcC := rfl, apartAB := hab, apartAC := sameMbox_noSrc a,
      apartBC := sameMbox_noSrc b, funct := decide_eq_false (by omega), functFeat := by simp, functOpd := by simp [hcmp], ty := ht,
      zero := by simp, round := .inr rfl })
    fun cx w v hcx h => by rw [decOp, decXLong, h, hcx]; rfl

theorem coded_vclmul {op : Nat} (h : (Instr.vclmul d a b op c).wf e = true) : Coded e (.vclmul d a b op c) (encode (.vclmul d a b op c)) := by
  simp only [Instr.wf, Bool.and_eq_true, beq_iff_eq, Bool.not_eq_true', decide_eq_true_eq] at h
  obtain ⟨⟨⟨⟨⟨⟨rfl, hd⟩, ha⟩, hb⟩, hab⟩, hop⟩, hc⟩ := h
  have htakes : (if op = 2 then Pos.scalar else .any).takes .z64 b := by
    split at hb <;> rename_i hop2
    · rw [if_pos hop2]; exact hb
    · rw [if_neg hop2]; exact hb
  exact coded_spec (fun _ f _ _ _ _ => {
      b := if f = 2 then .scalar else .any, functIll := 2 < f, tyOk := fun t => t == .z64, srcTy := .z64, cTy := .z64 })
    (fun d a b _ f _ _ c => .vclmul (XDst.ofCode d) a b f c) (t := .z64) (r := .rne) (by decide) (by decide) (XDst.code_lt (XDst.vw_vwe hd))
    (XSrc.named_of_ok ha) (Pos.takes_named htakes) (by omega) hc rfl (by rw [XDst.ofCode_code (XDst.vw_vwe hd)])
    (fun _ _ _ => {
      form := by simp, dest := dstBad_vw hd, srcA := ha, srcB := htakes, srcC := rfl, apartAB := hab, apartAC := sameMbox_noSrc a,
      apartBC := sameMbox_noSrc b, funct := decide_eq_false (by omega), functFeat := by simp, functOpd := rfl, ty := rfl, zero := by simp,
      round := .inr rfl })
    fun cx w v hcx h => by rw [decOp, decXLong, h, hcx]; rfl

end

end Sys2Proof
end

section
/-! SUPPORT. The long forms of the execute engine with one or three sources, and those of R181, are read back from their words. -/

namespace Sys2Proof

section
variable {e : Eng} {d : XDst} {a b z : XSrc} {t : Ty} {c : XCtl}

/-! ## One vector source -/

/-- A form of one vector source and no option. -/
theorem coded_una (mk : XDst → XSrc → Nat → Ty → Rnd → XCtl → Instr) {i : Instr} {maj : Nat} (hm1 : 96 ≤ maj) (hm2 : maj < 128)
    (S : Nat → Ty → XlSpec) {f : Nat} {r : Rnd} (hf : f < 16) (hd : d.vwe = true) (ha : a.named = true) (hc : c.ok = true)
    (hi : mk d a f t r c = i) (htakes : (S f t).Takes d.code a noSrc c noSrc t r)
    (hdec : ∀ cx w v, cx.eng = .x → fld w 25 7 = maj → decOp cx w v =
      some ⟨(S (xlF w) (Ty.ofCode (xlT v))).checks cx w v,
        mk (XDst.ofCode (xlD w)) (xSrcA w v) (xlF w) (Ty.ofCode (xlT v)) (Rnd.ofCode (xlR v)) (xCtlOf v)⟩) :
    Coded .x i (encXL maj d.code a noSrc f c noSrc t.code r.code) :=
  coded_spec (fun _ f t _ _ _ => S f t) (fun d a _ _ f t r c => mk (XDst.ofCode d) a f t r c) hm1 hm2 (XDst.code_lt hd) ha rfl hf hc rfl
    (by rw [XDst.ofCode_code hd, hi]) (fun _ _ _ => htakes) hdec

theorem coded_vabs {s : Bool} (h : (Instr.vabs d a t s c).wf e = true) : Coded e (.vabs d a t s c) (encode (.vabs d a t s c)) := by
  simp only [Instr.wf, Bool.and_eq_true, beq_iff_eq, Bool.not_eq_true'] at h
  obtain ⟨⟨⟨⟨⟨rfl, hd⟩, ha⟩, ht⟩, hs⟩, hc⟩ := h
  have hsat := boolBit_lt s
  exact coded_una (fun d a f t _ c => .vabs d a t (f == 1) c) (r := .rne) (by decide) (by decide)
    (fun f t => { b := .unused, functIll := 1 < f, functOpd := f == 1 && t.isFloat3, tyOk := Ty.isAbs, srcTy := t, cTy := t })
    (by omega) (XDst.vw_vwe hd) (XSrc.named_of_ok ha) hc (by rw [boolBit_beq])
    { form := by simp, dest := dstBad_vw hd, srcA := ha, srcB := rfl, srcC := rfl, apartAB := sameMbox_noSrc a, apartAC := sameMbox_noSrc a,
      apartBC := rfl, funct := decide_eq_false (by omega), functFeat := by simp, functOpd := by rw [boolBit_beq]; exact hs, ty := ht,
      zero := by simp, round := .inr rfl }
    fun cx w v hcx h => by rw [decOp, decXLong, h, hcx]; rfl

theorem coded_vfsqrt {r : Rnd} (h : (Instr.vfsqrt d a t r c).wf e = true) : Coded e (.vfsqrt d a t r c) (encode (.vfsqrt d a t r c)) := by
  simp only [Instr.wf, Bool.and_eq_true, beq_iff_eq] at h
  obtain ⟨⟨⟨⟨rfl, hd⟩, ha⟩, ht⟩, hc⟩ := h
  exact coded_una (fun d a _ t r c => .vfsqrt d a t r c) (by decide) (by decide)
    (fun f t => { b := .unused, functIll := 0 < f, tyOk := Ty.isFloat3, srcTy := t, cTy := t, rnd := true })
    (by decide) (XDst.vw_vwe hd) (XSrc.named_of_ok ha) hc rfl
    { form := by simp, dest := dstBad_vw hd, srcA := ha, srcB := rfl, srcC := rfl, apartAB := sameMbox_noSrc a, apartAC := sameMbox_noSrc a,
      apartBC := rfl, funct := rfl, functFeat := by simp, functOpd := rfl, ty := ht, zero := by simp, round := .inl rfl }
    fun cx w v hcx h => by rw [decOp, decXLong, h, hcx]; rfl

theorem coded_vmov (h : (Instr.vmov d a t c).wf e = true) : Coded e (.vmov d a t c) (encode (.vmov d a t c)) := by
  simp only [Instr.wf, Bool.and_eq_true, beq_iff_eq] at h
  obtain ⟨⟨⟨⟨rfl, hd⟩, ha⟩, ht⟩, hc⟩ := h
  exact coded_una (fun d a _ t _ c => .vmov d a t c) (r := .rne) (by decide) (by decide)
    (fun f t => { dest := .vwe, b := .unused, functIll := 0 < f, tyOk := Ty.isElem, srcTy := t, cTy := t })
    (by decide) hd (XSrc.named_of_ok ha) hc rfl
    { form := by simp, dest := dstBad_vwe hd, srcA := ha, srcB := rfl, srcC := rfl, apartAB := sameMbox_noSrc a, apartAC := sameMbox_noSrc a,
      apartBC := rfl, funct := rfl, functFeat := by simp, functOpd := rfl, ty := ht, zero := by simp, round := .inr rfl }
    fun cx w v hcx h => by rw [decOp, decXLong, h, hcx]; rfl

theorem coded_viota (h : (Instr.viota d a t c).wf e = true) : Coded e (.viota d a t c) (encode (.viota d a t c)) := by
  simp only [Instr.wf, Bool.and_eq_true, beq_iff_eq, Bool.not_eq_true'] at h
  obtain ⟨⟨⟨⟨⟨rfl, hd⟩, ha⟩, ht⟩, hzero⟩, hc⟩ := h
  exact coded_una (fun d a _ t _ c => .viota d a t c) (r := .rne) (by decide) (by decide)
    (fun f t => { b := .unused, functIll := 0 < f, tyOk := Ty.isInt, srcTy := t, cTy := t, zIll := true })
    (by decide) (XDst.vw_vwe hd) (XSrc.named_of_ok ha) hc rfl
    { form := by simp, dest := dstBad_vw hd, srcA := ha, srcB := rfl, srcC := rfl, apartAB := sameMbox_noSrc a, apartAC := sameMbox_noSrc a,
      apartBC := rfl, funct := rfl, functFeat := by simp, functOpd := rfl, ty := ht, zero := fun _ => hzero, round := .inr rfl }
    fun cx w v hcx h => by rw [decOp, decXLong, h, hcx]; rfl

theorem coded_vspars {op : Nat} (h : (Instr.vspars d a t op c).wf e = true) : Coded e (.vspars d a t op c) (encode (.vspars d a t op c)) := by
  simp only [Instr.wf, Bool.and_eq_true, beq_iff_eq, decide_eq_true_eq] at h
  obtain ⟨⟨⟨⟨⟨rfl, hd⟩, ha⟩, ht⟩, hop⟩, hc⟩ := h
  have hvwe : d.vwe = true := by
    split at hd
    · exact hd
    · exact XDst.vw_vwe hd
  have hdest : dstBad (if op = 1 then .vwe else .vw) d.code = false := by
    split at hd <;> rename_i hop1
    · rw [if_pos hop1]; exact dstBad_vwe hd
    · rw [if_neg hop1]; exact dstBad_vw hd
  exact coded_spec (fun cx f t _ _ _ => {
      form := [cx.feat 5 false 25 true], dest := if f = 1 then .vwe else .vw, b := .unused, functIll := 2 < f, tyOk := Ty.isSpars, srcTy := t,
      cTy := t })
    (fun d a _ _ f t _ c => .vspars (XDst.ofCode d) a t f c) (r := .rne) (by decide) (by decide) (XDst.code_lt hvwe) (XSrc.named_of_ok ha) rfl
    (by omega) hc rfl (by rw [XDst.ofCode_code hvwe])
    (fun _ _ ho => {
      form := by simp [feat_ok ho], dest := hdest, srcA := ha, srcB := rfl, srcC := rfl, apartAB := sameMbox_noSrc a,
      apartAC := sameMbox_noSrc a, apartBC := rfl, funct := decide_eq_false (by omega), functFeat := by simp, functOpd := rfl, ty := ht,
      zero := by simp, round := .inr rfl })
    fun cx w v hcx h => by rw [decOp, decXLong, h, hcx]; rfl

theorem coded_vred {op : Nat} {r : Rnd} (h : (Instr.vred d a t op r c).wf e = true) :
    Coded e (.vred d a t op r c) (encode (.vred d a t op r c)) := by
  simp only [Instr.wf, Bool.and_eq_true, beq_iff_eq, decide_eq_true_eq, Bool.not_eq_true'] at h
  obtain ⟨⟨⟨⟨⟨⟨⟨⟨rfl, hd⟩, ha⟩, ht⟩, hop⟩, _⟩, _⟩, hbyte⟩, hc⟩ := h
  exact coded_spec (fun cx f t r c live => {
      b := .unused, functIll := 4 < f,
      functOpd := live (t.isInt || t.isFloat3) && (!reduceOk false (f == 0) t (cx.resolve c.np) r || (3 ≤ f && (t == .s8 || t == .z8))),
      tyOk := fun t => t.isInt || t.isFloat3, srcTy := t, cTy := t, rnd := true })
    (fun d a _ _ f t r c => .vred (XDst.ofCode d) a t f r c) (by decide) (by decide) (XDst.code_lt (XDst.vw_vwe hd)) (XSrc.named_of_ok ha) rfl
    (by omega) hc rfl (by rw [XDst.ofCode_code (XDst.vw_vwe hd)])
    (fun cx live ho => {
      form := by simp, dest := dstBad_vw hd, srcA := ha, srcB := rfl, srcC := rfl, apartAB := sameMbox_noSrc a, apartAC := sameMbox_noSrc a,
      apartBC := rfl, funct := decide_eq_false (by omega), functFeat := by simp,
      functOpd := by
        have hfits : reduceOk false (op == 0) t (cx.resolve c.np) r = true := ho.fits
        rw [hfits, hbyte, Bool.not_true, Bool.or_false, Bool.and_false],
      ty := ht, zero := by simp, round := .inl rfl })
    fun cx w v hcx h => by rw [decOp, decXLong, h, hcx]; rfl

/-! ## A vector and a scalar source (R197 to R203) -/

/-- A form of a vector source and a scalar source of a vector destination. -/
theorem coded_vecScalar (mk : XDst → XSrc → XSrc → Nat → Ty → Rnd → XCtl → Instr) {i : Instr} {maj : Nat} (hm1 : 96 ≤ maj) (hm2 : maj < 128)
    (fMax lsb : Nat) {f : Nat} {r : Rnd} (hf : f ≤ fMax) (hmax : fMax < 16)
    (hd : d.vw = true) (ha : a.ok t = true) (hb : b.scalarOk = true) (hab : sameMbox a b = false) (ht : t.isFloat3 = true) (hc : c.ok = true)
    (hi : mk d a b f t r c = i)
    (hdec : ∀ cx w v, cx.eng = .x → fld w 25 7 = maj → decOp cx w v =
      some ⟨XlSpec.checks {
          form := [cx.feat 3 false 25 true], b := .scalar, functIll := fMax < xlF w, functLsb := lsb, tyOk := Ty.isFloat3,
          srcTy := Ty.ofCode (xlT v), cTy := Ty.ofCode (xlT v), rnd := true } cx w v,
        mk (XDst.ofCode (xlD w)) (xSrcA w v) (xSrcB w v) (xlF w) (Ty.ofCode (xlT v)) (Rnd.ofCode (xlR v)) (xCtlOf v)⟩) :
    Coded .x i (encXL maj d.code a b f c noSrc t.code r.code) :=
  coded_spec (fun cx f t _ _ _ => {
      form := [cx.feat 3 false 25 true], b := .scalar, functIll := fMax < f, functLsb := lsb, tyOk := Ty.isFloat3, srcTy := t, cTy := t,
      rnd := true })
    (fun d a b _ f t r c => mk (XDst.ofCode d) a b f t r c) hm1 hm2 (XDst.code_lt (XDst.vw_vwe hd)) (XSrc.named_of_ok ha)
    (XSrc.named_of_scalarOk hb) (by omega) hc rfl (by rw [XDst.ofCode_code (XDst.vw_vwe hd), hi])
    (fun _ _ ho => {
      form := by simp [feat_ok ho], dest := dstBad_vw hd, srcA := ha, srcB := hb, srcC := rfl, apartAB := hab, apartAC := sameMbox_noSrc a,
      apartBC := sameMbox_noSrc b, funct := decide_eq_false (by omega), functFeat := by simp, functOpd := rfl, ty := ht, zero := by simp,
      round := .inl rfl }) hdec

theorem coded_vqpack {k : Nat} {r : Rnd} (h : (Instr.vqpack d a b t k r c).wf e = true) :
    Coded e (.vqpack d a b t k r c) (encode (.vqpack d a b t k r c)) := by
  simp only [Instr.wf, Bool.and_eq_true, beq_iff_eq, decide_eq_true_eq, Bool.not_eq_true'] at h
  obtain ⟨⟨⟨⟨⟨⟨⟨rfl, hd⟩, ha⟩, hb⟩, hab⟩, ht⟩, hk⟩, hc⟩ := h
  exact coded_vecScalar (fun d a b f t r c => .vqpack d a b t f r c) (by decide) (by decide) 3 2 (by omega) (by decide) hd ha hb hab ht hc rfl
    fun cx w v hcx h => by rw [decOp, decXLong, h, hcx]; rfl

theorem coded_vqunpk {r : Rnd} (h : (Instr.vqunpk d a b t r c).wf e = true) : Coded e (.vqunpk d a b t r c) (encode (.vqunpk d a b t r c)) := by
  simp only [Instr.wf, Bool.and_eq_true, beq_iff_eq, Bool.not_eq_true'] at h
  obtain ⟨⟨⟨⟨⟨⟨rfl, hd⟩, ha⟩, hb⟩, hab⟩, ht⟩, hc⟩ := h
  exact coded_vecScalar (fun d a b _ t r c => .vqunpk d a b t r c) (by decide) (by decide) 0 0 le_rfl (by decide) hd ha hb hab ht hc rfl
    fun cx w v hcx h => by rw [decOp, decXLong, h, hcx]; rfl

theorem coded_vtopk_vec {op : Nat} (h : (Instr.vtopk (.vec d) a b t op c).wf e = true) :
    Coded e (.vtopk (.vec d) a b t op c) (encode (.vtopk (.vec d) a b t op c)) := by
  simp only [Instr.wf, Bool.and_eq_true, beq_iff_eq, decide_eq_true_eq, Bool.not_eq_true', bne_iff_ne] at h
  obtain ⟨⟨⟨⟨⟨⟨⟨rfl, hd, hop2⟩, ha⟩, hb⟩, hab⟩, ht⟩, hop⟩, hc⟩ := h
  exact coded_spec (fun _ f t _ _ _ => {
      dest := if f = 2 then .p else .vw, b := .scalar, functIll := 2 < f, tyOk := Ty.isTopk, srcTy := t, cTy := t })
    (fun d a b _ f t _ c => .vtopk (if f = 2 then .p d else .vec (XDst.ofCode d)) a b t f c) (r := .rne) (by decide) (by decide)
    (XDst.code_lt (XDst.vw_vwe hd)) (XSrc.named_of_ok ha) (XSrc.named_of_scalarOk hb) (by omega) hc rfl
    (by simp only [if_neg hop2, XAnyDst.code, XDst.ofCode_code (XDst.vw_vwe hd)])
    (fun _ _ _ => {
      form := by simp, dest := by rw [if_neg hop2]; exact dstBad_vw hd, srcA := ha, srcB := hb, srcC := rfl, apartAB := hab,
      apartAC := sameMbox_noSrc a, apartBC := sameMbox_noSrc b, funct := decide_eq_false (by omega), functFeat := by simp, functOpd := rfl,
      ty := ht, zero := by simp, round := .inr rfl })
    fun cx w v hcx h => by rw [decOp, decXLong, h, hcx]; rfl

theorem coded_vtopk_p {p op : Nat} (h : (Instr.vtopk (.p p) a b t op c).wf e = true) :
    Coded e (.vtopk (.p p) a b t op c) (encode (.vtopk (.p p) a b t op c)) := by
  simp only [Instr.wf, Bool.and_eq_true, beq_iff_eq, decide_eq_true_eq, Bool.not_eq_true'] at h
  obtain ⟨⟨⟨⟨⟨⟨⟨rfl, hp, rfl⟩, ha⟩, hb⟩, hab⟩, ht⟩, _⟩, hc⟩ := h
  exact coded_spec (fun _ f t _ _ _ => {
      dest := if f = 2 then .p else .vw, b := .scalar, functIll := 2 < f, tyOk := Ty.isTopk, srcTy := t, cTy := t })
    (fun d a b _ f t _ c => .vtopk (if f = 2 then .p d else .vec (XDst.ofCode d)) a b t f c) (r := .rne) (by decide) (by decide)
    (show p < 128 by omega) (XSrc.named_of_ok ha) (XSrc.named_of_scalarOk hb) (by decide) hc rfl (by simp only [if_true, XAnyDst.code])
    (fun _ _ _ => {
      form := by simp, dest := decide_eq_false (show ¬63 < p by omega), srcA := ha, srcB := hb, srcC := rfl, apartAB := hab,
      apartAC := sameMbox_noSrc a, apartBC := sameMbox_noSrc b, funct := rfl, functFeat := by simp, functOpd := rfl,
      ty := ht, zero := by simp, round := .inr rfl })
    fun cx w v hcx h => by rw [decOp, decXLong, h, hcx]; rfl

theorem coded_vtopk {d : XAnyDst} {op : Nat} (h : (Instr.vtopk d a b t op c).wf e = true) :
    Coded e (.vtopk d a b t op c) (encode (.vtopk d a b t op c)) := by
  cases d with
  | vec => exact coded_vtopk_vec h
  | p => exact coded_vtopk_p h

end

end Sys2Proof
end

section
/-! SUPPORT. The long forms of the execute engine with a c position, and conversion, are read back from their words. -/

namespace Sys2Proof

section
variable {e : Eng} {d : XDst} {a b z : XSrc} {t : Ty} {c : XCtl}

/-- A form of three sources, with the positions and types of its spec. -/
theorem coded_tern (S : Nat → Ty → XlSpec) (mk : XDst → XSrc → XSrc → XSrc → Nat → Ty → Rnd → XCtl → Instr) {i : Instr} {maj : Nat}
    (hm1 : 96 ≤ maj) (hm2 : maj < 128) {f : Nat} {r : Rnd} (hf : f < 16) (hc : c.ok = true) (hi : mk d a b z f t r c = i)
    (hd : d.vw = true) (hdest : (S f t).dest = .vw) (ha : a.ok (S f t).srcTy = true) (hb : (S f t).b.takes (S f t).srcTy b)
    (hz : (S f t).c.takes (S f t).cTy z) (hab : sameMbox a b = false) (haz : sameMbox a z = false) (hbz : sameMbox b z = false)
    (hform : (S f t).form = []) (hill : (S f t).functIll = false) (hfeat : (S f t).functFeat = []) (hopd : (S f t).functOpd = false)
    (hty : (S f t).tyOk t = true) (hzero : (S f t).zIll = false) (hr : (S f t).rnd = true ∨ r = .rne)
    (hdec : ∀ cx w v, cx.eng = .x → fld w 25 7 = maj → decOp cx w v =
      some ⟨(S (xlF w) (Ty.ofCode (xlT v))).checks cx w v,
        mk (XDst.ofCode (xlD w)) (xSrcA w v) (xSrcB w v) (xSrcC v) (xlF w) (Ty.ofCode (xlT v)) (Rnd.ofCode (xlR v)) (xCtlOf v)⟩) :
    Coded .x i (encXL maj d.code a b f c z t.code r.code) :=
  coded_spec (fun _ f t _ _ _ => S f t) (fun d a b z f t r c => mk (XDst.ofCode d) a b z f t r c) hm1 hm2 (XDst.code_lt (XDst.vw_vwe hd))
    (XSrc.named_of_ok ha) (Pos.takes_named hb) hf hc (Pos.takes_named hz) (by rw [XDst.ofCode_code (XDst.vw_vwe hd), hi])
    (fun _ _ _ => {
      form := by simp [hform], dest := by rw [hdest]; exact dstBad_vw hd, srcA := ha, srcB := hb, srcC := hz, apartAB := hab,
      apartAC := haz, apartBC := hbz, funct := hill, functFeat := by simp [hfeat], functOpd := hopd, ty := hty,
      zero := fun h => absurd (hzero.symm.trans h) Bool.false_ne_true, round := hr }) hdec

theorem coded_vmad {s : Bool} (h : (Instr.vmad d a b z t s c).wf e = true) : Coded e (.vmad d a b z t s c) (encode (.vmad d a b z t s c)) := by
  simp only [Instr.wf, Bool.and_eq_true, beq_iff_eq, Bool.not_eq_true'] at h
  obtain ⟨⟨⟨⟨⟨⟨⟨⟨⟨rfl, hd⟩, ha⟩, hb⟩, hz⟩, hab⟩, haz⟩, hbz⟩, ht⟩, hc⟩ := h
  have hs := boolBit_lt s
  exact coded_tern (fun f t => { c := .any, functIll := 1 < f, tyOk := Ty.isInt, srcTy := t, cTy := t })
    (fun d a b z f t _ c => .vmad d a b z t (f == 1) c) (r := .rne) (by decide) (by decide) (by omega) hc (by rw [boolBit_beq]) hd rfl ha hb hz
    hab haz hbz rfl (decide_eq_false (by omega)) rfl rfl ht rfl (.inr rfl)
    fun cx w v hcx h => by rw [decOp, decXLong, h, hcx]; rfl

theorem coded_vfma {r : Rnd} {op : Nat} (h : (Instr.vfma d a b z t r op c).wf e = true) :
    Coded e (.vfma d a b z t r op c) (encode (.vfma d a b z t r op c)) := by
  simp only [Instr.wf, Bool.and_eq_true, beq_iff_eq, Bool.not_eq_true', decide_eq_true_eq] at h
  obtain ⟨⟨⟨⟨⟨⟨⟨⟨⟨⟨rfl, hd⟩, ha⟩, hb⟩, hz⟩, hab⟩, haz⟩, hbz⟩, ht⟩, hop⟩, hc⟩ := h
  exact coded_tern (fun f t => { c := .any, functIll := 2 < f, tyOk := Ty.isFloat3, srcTy := t, cTy := t, rnd := true })
    (fun d a b z f t r c => .vfma d a b z t r f c) (by decide) (by decide) (by omega) hc rfl hd rfl ha hb hz
    hab haz hbz rfl (decide_eq_false (by omega)) rfl rfl ht rfl (.inl rfl)
    fun cx w v hcx h => by rw [decOp, decXLong, h, hcx]; rfl

theorem coded_vslide {up : Bool} (h : (Instr.vslide d a b z t up c).wf e = true) :
    Coded e (.vslide d a b z t up c) (encode (.vslide d a b z t up c)) := by
  simp only [Instr.wf, Bool.and_eq_true, beq_iff_eq, Bool.not_eq_true'] at h
  obtain ⟨⟨⟨⟨⟨⟨⟨⟨⟨rfl, hd⟩, ha⟩, hb⟩, hz⟩, hab⟩, haz⟩, hbz⟩, ht⟩, hc⟩ := h
  have hs := boolBit_lt up
  exact coded_tern (fun f t => { b := .scalar, c := .any, functIll := 1 < f, tyOk := Ty.isElem, srcTy := t, cTy := t })
    (fun d a b z f t _ c => .vslide d a b z t (f == 1) c) (r := .rne) (by decide) (by decide) (by omega) hc (by rw [boolBit_beq]) hd rfl ha hb
    hz hab haz hbz rfl (decide_eq_false (by omega)) rfl rfl ht rfl (.inr rfl)
    fun cx w v hcx h => by rw [decOp, decXLong, h, hcx]; rfl

theorem coded_vhist {s : Bool} (h : (Instr.vhist d a b z t s c).wf e = true) :
    Coded e (.vhist d a b z t s c) (encode (.vhist d a b z t s c)) := by
  simp only [Instr.wf, Bool.and_eq_true, beq_iff_eq, Bool.not_eq_true'] at h
  obtain ⟨⟨⟨⟨⟨⟨⟨⟨⟨rfl, hd⟩, ha⟩, hb⟩, hz⟩, hab⟩, haz⟩, hbz⟩, ht⟩, hc⟩ := h
  have hs := boolBit_lt s
  exact coded_tern (fun f t => { b := .scalar, c := .any, functIll := 1 < f, tyOk := Ty.isHist, srcTy := t, cTy := .z32 })
    (fun d a b z f t _ c => .vhist d a b z t (f == 1) c) (r := .rne) (by decide) (by decide) (by omega) hc (by rw [boolBit_beq]) hd rfl ha hb
    hz hab haz hbz rfl (decide_eq_false (by omega)) rfl rfl ht rfl (.inr rfl)
    fun cx w v hcx h => by rw [decOp, decXLong, h, hcx]; rfl

/-- A position that depends on the operation takes what the operation's condition says. -/
theorem Pos.takes_ite {p q : Pos} {P : Prop} [Decidable P] {x : XSrc} (h : if P then p.takes t x else q.takes t x) :
    (if P then p else q).takes t x := by
  split at h <;> rename_i hP
  · rw [if_pos hP]; exact h
  · rw [if_neg hP]; exact h

theorem coded_vperm {op : Nat} (h : (Instr.vperm d a b z t op c).wf e = true) :
    Coded e (.vperm d a b z t op c) (encode (.vperm d a b z t op c)) := by
  simp only [Instr.wf, Bool.and_eq_true, beq_iff_eq, Bool.not_eq_true', decide_eq_true_eq] at h
  obtain ⟨⟨⟨⟨⟨⟨⟨⟨⟨⟨rfl, hd⟩, ha⟩, hb⟩, hz⟩, hab⟩, haz⟩, hbz⟩, ht⟩, hop⟩, hc⟩ := h
  have htakes : (if op = 1 then Pos.any else .unused).takes t z := by
    refine Pos.takes_ite ?_
    split at hz
    · rwa [if_pos ‹_›]
    · rw [if_neg ‹_›]; exact beq_iff_eq.mp hz
  exact coded_tern (fun f t => { c := if f = 1 then .any else .unused, functIll := 2 < f, tyOk := Ty.isElem, srcTy := t, cTy := t })
    (fun d a b z f t _ c => .vperm d a b z t f c) (r := .rne) (by decide) (by decide) (by omega) hc rfl hd rfl ha hb
    htakes hab haz hbz rfl (decide_eq_false (by omega)) rfl rfl ht rfl (.inr rfl)
    fun cx w v hcx h => by rw [decOp, decXLong, h, hcx]; rfl

theorem coded_vscan {op : Nat} {r : Rnd} (h : (Instr.vscan d a b z t op r c).wf e = true) :
    Coded e (.vscan d a b z t op r c) (encode (.vscan d a b z t op r c)) := by
  simp only [Instr.wf, Bool.and_eq_true, beq_iff_eq, decide_eq_true_eq, Bool.not_eq_true'] at h
  obtain ⟨⟨⟨⟨⟨⟨⟨⟨⟨⟨⟨⟨⟨rfl, hd⟩, ha⟩, hb⟩, hz⟩, hab⟩, haz⟩, hbz⟩, ht⟩, hop⟩, _⟩, _⟩, _⟩, hc⟩ := h
  have htakesB : (if op < 3 then Pos.unused else .any).takes t b := by
    refine Pos.takes_ite ?_
    split at hb
    · rw [if_pos ‹_›]; exact beq_iff_eq.mp hb
    · rwa [if_neg ‹_›]
  have htakesC : (if op = 4 then Pos.unused else .scalar).takes t z := by
    refine Pos.takes_ite ?_
    split at hz
    · rw [if_pos ‹_›]; exact beq_iff_eq.mp hz
    · rwa [if_neg ‹_›]
  exact coded_spec (fun cx f t r c live => {
      b := if f < 3 then .unused else .any, c := if f = 4 then .unused else .scalar, functIll := 4 < f,
      functOpd := live (t.isInt || t.isFloat3) && !reduceOk (3 ≤ f) (f == 0) t (cx.resolve c.np) r,
      tyOk := fun t => t.isInt || t.isFloat3, srcTy := t, cTy := t, rnd := true })
    (fun d a b z f t r c => .vscan (XDst.ofCode d) a b z t f r c) (by decide) (by decide) (XDst.code_lt (XDst.vw_vwe hd)) (XSrc.named_of_ok ha)
    (Pos.takes_named htakesB) (by omega) hc (Pos.takes_named htakesC) (by rw [XDst.ofCode_code (XDst.vw_vwe hd)])
    (fun cx live ho => {
      form := by simp, dest := dstBad_vw hd, srcA := ha, srcB := htakesB, srcC := htakesC, apartAB := hab, apartAC := haz,
      apartBC := hbz, funct := decide_eq_false (by omega), functFeat := by simp,
      functOpd := by
        have hfits : reduceOk (3 ≤ op) (op == 0) t (cx.resolve c.np) r = true := ho.fits
        rw [hfits, Bool.not_true, Bool.and_false],
      ty := ht, zero := by simp, round := .inl rfl })
    fun cx w v hcx h => by rw [decOp, decXLong, h, hcx]; rfl

theorem coded_cscan {op sc : Nat} {r : Rnd} (h : (Instr.cscan d a b z t op sc r c).wf e = true) :
    Coded e (.cscan d a b z t op sc r c) (encode (.cscan d a b z t op sc r c)) := by
  simp only [Instr.wf, Bool.and_eq_true, beq_iff_eq, decide_eq_true_eq, Bool.not_eq_true'] at h
  obtain ⟨⟨⟨⟨⟨⟨⟨⟨⟨⟨⟨⟨⟨rfl, hd⟩, ha⟩, hb⟩, hz⟩, hab⟩, haz⟩, hbz⟩, ht⟩, hop⟩, hsc⟩, _⟩, _⟩, hc⟩ := h
  have htakes : (if op = 3 then Pos.any else .unused).takes t b := by
    refine Pos.takes_ite ?_
    split at hb
    · rwa [if_pos ‹_›]
    · rw [if_neg ‹_›]; exact beq_iff_eq.mp hb
  have hmod : (sc * 4 + op) % 4 = op := by omega
  have hdiv : (sc * 4 + op) / 4 = sc := by omega
  exact coded_spec (fun cx f t r c live => {
      b := if f % 4 = 3 then .any else .unused, c := .scalar, functIll := 2 < f / 4,
      functFeat := [cx.feat 9 false 0 (f / 4 == 1 || f / 4 == 2)],
      functOpd := (cx.gauge && 0 < f / 4) || (live (t == .f32 || t.isInt) && !cscanOk (f % 4) t (cx.resolve c.np) r),
      tyOk := fun t => t == .f32 || t.isInt, srcTy := t, cTy := t, rnd := true })
    (fun d a b z f t r c => .cscan (XDst.ofCode d) a b z t (f % 4) (f / 4) r c) (by decide) (by decide) (XDst.code_lt (XDst.vw_vwe hd))
    (XSrc.named_of_ok ha) (Pos.takes_named htakes) (by omega) hc (XSrc.named_of_scalarOk hz)
    (by rw [XDst.ofCode_code (XDst.vw_vwe hd), hmod, hdiv])
    (fun cx live ho => {
      form := by simp, dest := dstBad_vw hd, srcA := ha, srcB := by rw [hmod]; exact htakes, srcC := hz, apartAB := hab, apartAC := haz,
      apartBC := hbz, funct := decide_eq_false (by omega), functFeat := by simp [feat_ok ho],
      functOpd := by
        have hfits : cscanOk op t (cx.resolve c.np) r = true := ho.fits
        rw [hmod, hfits, ho.gauge, Bool.not_true, Bool.and_false, Bool.false_and, Bool.or_false],
      ty := ht, zero := by simp, round := .inl rfl })
    fun cx w v hcx h => by rw [decOp, decXLong, h, hcx]; rfl

/-! ## Conversion (R195) -/

theorem coded_vcvt {s : Ty} {r : Rnd} {sat : Bool} (h : (Instr.vcvt d a b t s r sat c).wf e = true) :
    Coded e (.vcvt d a b t s r sat c) (encode (.vcvt d a b t s r sat c)) := by
  simp only [Instr.wf, Bool.and_eq_true, beq_iff_eq, Bool.not_eq_true', bne_iff_ne] at h
  obtain ⟨⟨⟨⟨⟨⟨⟨⟨⟨⟨rfl, hd⟩, ha⟩, hb⟩, hab⟩, ht⟩, htb⟩, hs⟩, hsb⟩, hsat⟩, hc⟩ := h
  have hbit := boolBit_lt sat
  have hnamed : (XSrc.v (boolBit sat)).named = true := decide_eq_true (by omega)
  have hvwe := XDst.vw_vwe hd
  have hna := XSrc.named_of_ok ha
  have hnb := XSrc.named_of_scalarOk hb
  refine coded_xl (by decide) (by decide) (XDst.code_lt hvwe) hna hnb (Ty.code_lt s) hc hnamed fun w v hw cx hcx =>
    ⟨_, by rw [decOp, decXLong, hw.op, hcx]; rfl, ?_, fun ho => ?_⟩
  · have hcc : (xlC v % 2 == 1) = sat := by
      rw [hw.fz, XSrc.code]
      cases sat <;> rfl
    simp only [hw.fd, hw.srcA hna, hw.srcB hnb, hw.ff, hw.ft, hw.fr, hw.ctl, Ty.ofCode_code, Rnd.ofCode_code, XDst.ofCode_code hvwe, hcc]
  · have hsatOk : (boolBit sat % 2 == 1 && t.isElem && t != .b8 && t != .e5m2) = false := by
      cases sat with
      | false => rfl
      | true =>
        have ht5 : t = .e5m2 := by simpa using hsat
        rw [ht5]; rfl
    have hrnd : decide (5 < r.code) = false := decide_eq_false (Nat.not_lt.mpr (Rnd.code_le r))
    simp only [hw.fd, hw.fa, hw.fb, hw.ff, hw.ft, hw.fr, hw.fz, hw.peekA, hw.peekB, hw.peekC, Ty.ofCode_code, List.forall_mem_append,
      List.forall_mem_cons, List.not_mem_nil, false_imp_iff, implies_true, and_true]
    refine ⟨⟨⟨dstBad_vw hd, ?_, scalarBad_code hb, ?_⟩, npChk_ok ho hw.np⟩, ?_, hsatOk, feat_ok ho (by decide) _ _ _, ?_, hrnd,
      peekChk_ok (p := .any) ha _, peekChk_ok (p := .scalar) (t := t) hb _, rfl⟩
    · simp [opd, srcBad_code ha, mboxClash_code hna hnb hab]
    · simp [opd, hs, hsb]
    · exact decide_eq_false (by rw [XSrc.code]; omega)
    · simp [opd2, ht, htb]

end

end Sys2Proof
end

section
/-! SUPPORT. The forms of the matrix engine (R59, R51, R299 to R307) are read back from their words. -/

namespace Sys2Proof

/-! ## The short forms (R299) -/

theorem coded_mqry {e : Eng} {d i : Nat} (h : (Instr.mqry d i).wf e = true) : Coded e (.mqry d i) (encode (.mqry d i)) := by
  simp only [Instr.wf, Bool.and_eq_true, beq_iff_eq, decide_eq_true_eq] at h
  obtain ⟨⟨rfl, hd⟩, hi⟩ := h
  refine coded_s3 (by decide) (by omega) (by omega) (by decide) (by decide) fun w hw c hc => ?_
  refine ⟨_, by rw [decOp, decMShort, hw.op, hc]; rfl, by simp only [hw.fd, hw.fa], fun _ => ?_⟩
  simp [opd, ill, f0, hw.fd, hw.fa, hw.fb, hw.ff]
  omega

theorem coded_mskip {e : Eng} {i a : Nat} (h : (Instr.mskip i a).wf e = true) : Coded e (.mskip i a) (encode (.mskip i a)) := by
  simp only [Instr.wf, Bool.and_eq_true, beq_iff_eq, decide_eq_true_eq] at h
  obtain ⟨⟨rfl, hd⟩, hi⟩ := h
  refine coded_s3 (by decide) (by omega) (by omega) (by decide) (by decide) fun w hw c hc => ?_
  refine ⟨_, by rw [decOp, decMShort, hw.op, hc]; exact if_neg (show ¬fF w = 1 by rw [hw.ff]; decide), by simp only [hw.fd, hw.fa], fun _ => ?_⟩
  simp [opd, ill, f0, hw.fd, hw.fa, hw.fb, hw.ff]
  omega

theorem coded_mskipCx {e : Eng} {i : Nat} (h : (Instr.mskipCx i).wf e = true) : Coded e (.mskipCx i) (encode (.mskipCx i)) := by
  simp only [Instr.wf, Bool.and_eq_true, beq_iff_eq, decide_eq_true_eq] at h
  obtain ⟨rfl, hd⟩ := h
  refine coded_s3 (by decide) (by omega) (by decide) (by decide) (by decide) fun w hw c hc => ?_
  refine ⟨_, by rw [decOp, decMShort, hw.op, hc]; exact if_pos hw.ff, by simp only [hw.fd], fun _ => ?_⟩
  simp [opd, ill, hw.fd, hw.fa, hw.fb]
  omega

/-! ## The fields of the M long format (R51) -/

/-- What a form reads from two words of the M long format. -/
structure MLWords (w v maj kd ka kb acc wb mode f : Nat) (c : MCtl) (kc ty rnd opt : Nat) : Prop where
  op : fld w 25 7 = maj
  fkd : fld w 21 4 = kd
  fka : fld w 17 4 = ka
  fkb : fld w 13 4 = kb
  facc : fld w 11 2 = acc
  fwb : fld w 10 1 = wb
  fmode : fld w 8 2 = mode
  ff : fld w 0 4 = f
  np : fld v 29 3 = c.np.code
  ctl : mCtlOf w v = c
  fkc : fld v 21 4 = kc
  ft : fld v 17 4 = ty
  fr : fld v 14 3 = rnd
  pred1 : bit v 13 = c.pred1.isSome
  pred1Id : fld v 9 4 = c.pred1.getD 0
  pred2 : bit v 8 = c.pred2.isSome
  pred2Id : fld v 4 4 = c.pred2.getD 0
  fopt : fld v 0 4 = opt

theorem predOk_getD {p : Option Nat} (h : predOk p = true) : p.getD 0 < 16 := by
  cases p with
  | none => decide
  | some n => exact of_decide_eq_true h

theorem predOf_isSome (p : Option Nat) : predOf p.isSome (p.getD 0) = p := by cases p <;> rfl

theorem predChk_isSome (lsb : Nat) (p : Option Nat) : (predChk lsb p.isSome (p.getD 0)).bad = false := by cases p <;> rfl

theorem mlWords {maj kd ka kb acc wb mode f : Nat} {c : MCtl} {kc ty rnd opt : Nat} (hm : maj < 128) (hkd : kd < 16) (hka : ka < 16)
    (hkb : kb < 16) (hacc : acc < 4) (hwb : wb < 2) (hmode : mode < 4) (hf : f < 16) (hc : c.ok = true) (hkc : kc < 16) (hty : ty < 16)
    (hrnd : rnd < 8) (hopt : opt < 16) :
    MLWords (maj * 2 ^ 25 + kd * 2 ^ 21 + ka * 2 ^ 17 + kb * 2 ^ 13 + acc * 2 ^ 11 + wb * 2 ^ 10 + mode * 2 ^ 8 + c.cid * 2 ^ 4 + f)
      (c.np.code * 2 ^ 29 + c.take * 2 ^ 27 + c.give * 2 ^ 25 + kc * 2 ^ 21 + ty * 2 ^ 17 + rnd * 2 ^ 14 +
        boolBit c.pred1.isSome * 2 ^ 13 + c.pred1.getD 0 * 2 ^ 9 + boolBit c.pred2.isSome * 2 ^ 8 + c.pred2.getD 0 * 2 ^ 4 + opt)
      maj kd ka kb acc wb mode f c kc ty rnd opt := by
  simp only [MCtl.ok, Bool.and_eq_true, decide_eq_true_eq] at hc
  obtain ⟨⟨⟨⟨htakeLt, hgiveLt⟩, hcidLt⟩, hp1⟩, hp2⟩ := hc
  have := predOk_getD hp1
  have := predOk_getD hp2
  have := Np.code_le c.np
  have := boolBit_lt c.pred1.isSome
  have := boolBit_lt c.pred2.isSome
  obtain ⟨w, hw⟩ : ∃ w, w = maj * 2 ^ 25 + kd * 2 ^ 21 + ka * 2 ^ 17 + kb * 2 ^ 13 + acc * 2 ^ 11 + wb * 2 ^ 10 + mode * 2 ^ 8 +
    c.cid * 2 ^ 4 + f := ⟨_, rfl⟩
  obtain ⟨v, hv⟩ : ∃ v, v = c.np.code * 2 ^ 29 + c.take * 2 ^ 27 + c.give * 2 ^ 25 + kc * 2 ^ 21 + ty * 2 ^ 17 + rnd * 2 ^ 14 +
        boolBit c.pred1.isSome * 2 ^ 13 + c.pred1.getD 0 * 2 ^ 9 + boolBit c.pred2.isSome * 2 ^ 8 + c.pred2.getD 0 * 2 ^ 4 + opt := ⟨_, rfl⟩
  rw [← hw, ← hv]
  have hnp : fld v 29 3 = c.np.code := by simp only [fld]; omega
  have htake : fld v 27 2 = c.take := by simp only [fld]; omega
  have hgive : fld v 25 2 = c.give := by simp only [fld]; omega
  have hcid : fld w 4 4 = c.cid := by simp only [fld]; omega
  have hb1 : fld v 13 1 = boolBit c.pred1.isSome := by simp only [fld]; omega
  have hi1 : fld v 9 4 = c.pred1.getD 0 := by simp only [fld]; omega
  have hb2 : fld v 8 1 = boolBit c.pred2.isSome := by simp only [fld]; omega
  have hi2 : fld v 4 4 = c.pred2.getD 0 := by simp only [fld]; omega
  have hs1 : bit v 13 = c.pred1.isSome := by rw [bit_eq_fld, hb1, boolBit_beq]
  have hs2 : bit v 8 = c.pred2.isSome := by rw [bit_eq_fld, hb2, boolBit_beq]
  refine ⟨?_, ?_, ?_, ?_, ?_, ?_, ?_, ?_, hnp, ?_, ?_, ?_, ?_, hs1, hi1, hs2, hi2, ?_⟩
  · simp only [fld]; omega
  · simp only [fld]; omega
  · simp only [fld]; omega
  · simp only [fld]; omega
  · simp only [fld]; omega
  · simp only [fld]; omega
  · simp only [fld]; omega
  · simp only [fld]; omega
  · rw [mCtlOf, hnp, htake, hgive, hcid, hs1, hi1, hs2, hi2, predOf_isSome, predOf_isSome, Np.ofCode_code]
  · simp only [fld]; omega
  · simp only [fld]; omega
  · simp only [fld]; omega
  · simp only [fld]; omega

theorem coded_ml {e : Eng} {i : Instr} {maj kd ka kb acc wb mode f : Nat} {c : MCtl} {kc ty rnd opt : Nat} (hm1 : 96 ≤ maj) (hm2 : maj < 128)
    (hkd : kd < 16) (hka : ka < 16) (hkb : kb < 16) (hacc : acc < 4) (hwb : wb < 2) (hmode : mode < 4) (hf : f < 16) (hc : c.ok = true)
    (hkc : kc < 16) (hty : ty < 16) (hrnd : rnd < 8) (hopt : opt < 16)
    (h : ∀ w v, MLWords w v maj kd ka kb acc wb mode f c kc ty rnd opt → Reads e i w v) :
    Coded e i (encML maj kd ka kb acc wb mode f c kc ty rnd opt) := by
  have hwords := mlWords hm2 hkd hka hkb hacc hwb hmode hf hc hkc hty hrnd hopt
  simp only [MCtl.ok, Bool.and_eq_true, decide_eq_true_eq] at hc
  obtain ⟨⟨⟨⟨htakeLt, hgiveLt⟩, hcidLt⟩, hp1⟩, hp2⟩ := hc
  have := predOk_getD hp1
  have := predOk_getD hp2
  have := Np.code_le c.np
  have := boolBit_lt c.pred1.isSome
  have := boolBit_lt c.pred2.isSome
  exact coded_long (by omega) (by omega) (by omega) (h _ _ hwords)

section
variable {w v maj kd ka kb acc wb mode f : Nat} {c : MCtl} {kc ty rnd opt : Nat} {cx : DCtx} {i : Instr}

theorem MLWords.mTy_ok {t : Ty} (hw : MLWords w v maj kd ka kb acc wb mode f c kc t.code rnd opt) (ho : OpenFor cx i) {ok : Ty → Bool}
    (hok : ok t = true) : ∀ k ∈ mTy cx v ok, k.bad = false := by
  simp only [mTy, List.forall_mem_cons, List.not_mem_nil, false_imp_iff, implies_true, and_true]
  exact ⟨feat_ok ho (by decide) _ _ _, by rw [hw.ft, Ty.ofCode_code]; simp [opd2, hok]⟩

/-- The checks that the second words share pass where the unused fields are 0. -/
theorem MLWords.tail_ok (hw : MLWords w v maj kd ka kb acc wb mode f c kc ty rnd opt) (ho : OpenFor cx i) {kcUsed rndUsed : Bool}
    {tyChk optChk : List Chk} (hkc : kcUsed = true ∨ kc = 0) (htyc : ∀ k ∈ tyChk, k.bad = false) (hr : rnd ≤ 5) (hrnd : rndUsed = true ∨ rnd = 0)
    (hopt : ∀ k ∈ optChk, k.bad = false) : ∀ k ∈ mTail cx v kcUsed tyChk rndUsed optChk, k.bad = false := by
  have hkcOk : (!kcUsed && fld v 21 4 != 0) = false := by
    rcases hkc with h | h
    · rw [h]; rfl
    · rw [hw.fkc, h]; exact Bool.and_false _
  have hrndOk : (if rndUsed then opd2 14 (5 < fld v 14 3) else ill2 14 (fld v 14 3 != 0)).bad = false := by
    have hle : (opd2 14 (5 < fld v 14 3)).bad = false := decide_eq_false (by rw [hw.fr]; omega)
    rcases hrnd with h | h
    · rw [if_pos h]; exact hle
    · split
      · exact hle
      · rw [hw.fr, h]; rfl
  simp only [mTail, List.forall_mem_append, List.forall_mem_cons, List.not_mem_nil, false_imp_iff, implies_true, and_true]
  refine ⟨⟨⟨⟨⟨npChk_ok ho hw.np, hkcOk⟩, htyc⟩, hrndOk⟩, ?_, ?_⟩, hopt⟩
  · rw [hw.pred1, hw.pred1Id]; exact predChk_isSome _ _
  · rw [hw.pred2, hw.pred2Id]; exact predChk_isSome _ _

end

/-! ## The forms (R300 to R306) -/

section
variable {e : Eng} {ka kb kc acc wb : Nat} {t : Ty} {c : MCtl}

theorem coded_mwld (h : (Instr.mwld wb ka kb kc t c).wf e = true) : Coded e (.mwld wb ka kb kc t c) (encode (.mwld wb ka kb kc t c)) := by
  simp only [Instr.wf, Bool.and_eq_true, beq_iff_eq, decide_eq_true_eq] at h
  obtain ⟨⟨⟨⟨⟨⟨rfl, hwb⟩, hka⟩, hkb⟩, hkc⟩, ht⟩, hc⟩ := h
  refine coded_ml (by decide) (by decide) (by decide) hka hkb (by decide) hwb (by decide) (by decide) hc hkc (Ty.code_lt t) (by decide)
    (by decide) fun w v hw cx hcx => ⟨_, by rw [decOp, decMLong, hw.op, hcx]; rfl, ?_, fun ho => ?_⟩
  · simp only [hw.fwb, hw.fka, hw.fkb, hw.fkc, hw.ft, hw.ctl, Ty.ofCode_code]
  · simp only [List.forall_mem_append]
    refine ⟨by simp [ill, hw.fkd, hw.facc, hw.fmode, hw.ff], ?_⟩
    exact hw.tail_ok ho (.inl rfl) (hw.mTy_ok ho ht) (by decide) (.inr rfl) (by simp [ill2, hw.fopt])

theorem coded_mwlds {er : Nat} (h : (Instr.mwlds wb ka kb kc er t c).wf e = true) :
    Coded e (.mwlds wb ka kb kc er t c) (encode (.mwlds wb ka kb kc er t c)) := by
  simp only [Instr.wf, Bool.and_eq_true, beq_iff_eq, decide_eq_true_eq] at h
  obtain ⟨⟨⟨⟨⟨⟨⟨⟨rfl, hwb⟩, hka⟩, hkb⟩, hkc⟩, her⟩, ht⟩, htk⟩, hc⟩ := h
  refine coded_ml (by decide) (by decide) (by decide) hka hkb (by decide) hwb (by decide) (by decide) hc hkc (Ty.code_lt t) (by decide)
    (by omega) fun w v hw cx hcx => ⟨_, by rw [decOp, decMLong, hw.op, hcx]; rfl, ?_, fun ho => ?_⟩
  · simp only [hw.fwb, hw.fka, hw.fkb, hw.fkc, hw.ft, hw.ctl, hw.fopt, Ty.ofCode_code, Nat.mod_eq_of_lt her]
  · simp only [List.forall_mem_append]
    refine ⟨by simp [ill, feat_ok ho, hw.fkd, hw.facc, hw.fmode, hw.ff], ?_⟩
    refine hw.tail_ok ho (.inl rfl) (hw.mTy_ok ho (by rw [ht, htk]; rfl)) (by decide) (.inr rfl) ?_
    simp [ill2, hw.fopt]
    omega

theorem MMode.ofCode_code (m : MMode) : MMode.ofCode m.code = m := by cases m <;> rfl

theorem MMode.code_lt (m : MMode) : m.code < 3 := by cases m <;> decide

/-- MRUN with an option field that gives its mask. -/
theorem coded_mrun_opt {md : MMode} {cm : Option Nat} {opt : Nat} (hacc : acc < 4) (hwb : wb < 2) (hka : ka < 16) (hkb : kb < 16)
    (ht : t.isRow = true) (hc : c.ok = true) (hlt : opt < 16) (hread : (if opt < 8 then none else some (opt % 8)) = cm)
    (hok : (decide (opt < 8) && opt != 0) = false) :
    Coded .m (.mrun acc wb ka kb md t cm c) (encML 0x62 0 ka kb acc wb md.code 0 c 0 t.code 0 opt) := by
  have hmd := MMode.code_lt md
  refine coded_ml (by decide) (by decide) (by decide) hka hkb hacc hwb (by omega) (by decide) hc (by decide) (Ty.code_lt t) (by decide)
    hlt fun w v hw cx hcx => ⟨_, by rw [decOp, decMLong, hw.op, hcx]; rfl, ?_, fun ho => ?_⟩
  · simp only [hw.facc, hw.fwb, hw.fka, hw.fkb, hw.fmode, hw.ft, hw.ctl, hw.fopt, Ty.ofCode_code, MMode.ofCode_code, hread]
  · simp only [List.forall_mem_append]
    refine ⟨?_, hw.tail_ok ho (.inr rfl) (hw.mTy_ok ho ht) (by decide) (.inr rfl) (by simpa [ill2, hw.fopt] using hok)⟩
    simp [opd, ill, hw.fkd, hw.fmode, hw.ff]
    omega

theorem coded_mrun {md : MMode} {cm : Option Nat} (h : (Instr.mrun acc wb ka kb md t cm c).wf e = true) :
    Coded e (.mrun acc wb ka kb md t cm c) (encode (.mrun acc wb ka kb md t cm c)) := by
  simp only [Instr.wf, Bool.and_eq_true, beq_iff_eq, decide_eq_true_eq] at h
  obtain ⟨⟨⟨⟨⟨⟨⟨rfl, hacc⟩, hwb⟩, hka⟩, hkb⟩, ht⟩, hcm⟩, hc⟩ := h
  cases cm with
  | none => exact coded_mrun_opt hacc hwb hka hkb ht hc (by decide) rfl rfl
  | some n =>
    have hn : n < 8 := of_decide_eq_true hcm
    refine coded_mrun_opt (opt := 8 + n) hacc hwb hka hkb ht hc (by omega) ?_ ?_
    · rw [if_neg (by omega), show (8 + n) % 8 = n by omega]
    · rw [decide_eq_false (by omega), Bool.false_and]

theorem coded_manch {k : Option Nat} (h : (Instr.manch acc ka kb kc k c).wf e = true) :
    Coded e (.manch acc ka kb kc k c) (encode (.manch acc ka kb kc k c)) := by
  simp only [Instr.wf, Bool.and_eq_true, beq_iff_eq, decide_eq_true_eq] at h
  obtain ⟨⟨⟨⟨⟨⟨rfl, hacc⟩, hka⟩, hkb⟩, hkc⟩, hk⟩, hc⟩ := h
  have hkd : k.getD 0 < 16 := by
    cases k with
    | none => decide
    | some n => exact of_decide_eq_true hk
  have hbit := boolBit_lt k.isSome
  refine coded_ml (by decide) (by decide) hkd hka hkb hacc (by decide) (by decide) (by omega) hc hkc (by decide) (by decide)
    (by decide) fun w v hw cx hcx => ⟨_, by rw [decOp, decMLong, hw.op, hcx]; rfl, ?_, fun ho => ?_⟩
  · simp only [hw.facc, hw.fkd, hw.fka, hw.fkb, hw.fkc, hw.ff, hw.ctl]
    cases k <;> rfl
  · simp only [List.forall_mem_append]
    refine ⟨?_, hw.tail_ok ho (.inl rfl) (by simp [ill2, hw.ft]) (by decide) (.inr rfl) (by simp [ill2, hw.fopt])⟩
    simp only [List.forall_mem_cons, List.not_mem_nil, false_imp_iff, implies_true, and_true, hw.fkd, hw.fwb, hw.fmode, hw.ff]
    refine ⟨feat_ok ho (by decide) _ _ _, ?_, rfl, rfl, decide_eq_false (by omega)⟩
    cases k <;> rfl

theorem coded_mzero (h : (Instr.mzero acc t c).wf e = true) : Coded e (.mzero acc t c) (encode (.mzero acc t c)) := by
  simp only [Instr.wf, Bool.and_eq_true, beq_iff_eq, decide_eq_true_eq] at h
  obtain ⟨⟨⟨rfl, hacc⟩, ht⟩, hc⟩ := h
  refine coded_ml (by decide) (by decide) (by decide) (by decide) (by decide) hacc (by decide) (by decide) (by decide) hc (by decide)
    (Ty.code_lt t) (by decide) (by decide) fun w v hw cx hcx => ⟨_, by rw [decOp, decMLong, hw.op, hcx]; rfl, ?_, fun ho => ?_⟩
  · simp only [hw.facc, hw.ft, hw.ctl, Ty.ofCode_code]
  · simp only [List.forall_mem_append]
    refine ⟨by simp [ill, hw.fkd, hw.fka, hw.fkb, hw.fwb, hw.fmode, hw.ff], ?_⟩
    exact hw.tail_ok ho (.inr rfl) (hw.mTy_ok ho ht) (by decide) (.inr rfl) (by simp [ill2, hw.fopt])

theorem coded_mdrn {r : Rnd} {sat clr : Bool} {kind : Nat} (h : (Instr.mdrn acc ka kb kc t r sat clr kind c).wf e = true) :
    Coded e (.mdrn acc ka kb kc t r sat clr kind c) (encode (.mdrn acc ka kb kc t r sat clr kind c)) := by
  simp only [Instr.wf, Bool.and_eq_true, beq_iff_eq, decide_eq_true_eq] at h
  obtain ⟨⟨⟨⟨⟨⟨⟨⟨⟨rfl, hacc⟩, hka⟩, hkb⟩, hkc⟩, ht⟩, hsat⟩, hkind⟩, htk⟩, hc⟩ := h
  have hrnd := Rnd.code_le r
  have hs := boolBit_lt sat
  have hcl := boolBit_lt clr
  have hsat' : decide (8 ≤ boolBit sat * 8 + boolBit clr * 4 + kind) = sat := by
    rw [decide_eq_decide.mpr (show 8 ≤ boolBit sat * 8 + boolBit clr * 4 + kind ↔ boolBit sat = 1 by omega)]
    cases sat <;> rfl
  have hclr' : ((boolBit sat * 8 + boolBit clr * 4 + kind) / 4 % 2 == 1) = clr := by
    rw [show (boolBit sat * 8 + boolBit clr * 4 + kind) / 4 % 2 = boolBit clr by omega, boolBit_beq]
  have hkind' : (boolBit sat * 8 + boolBit clr * 4 + kind) % 4 = kind := by omega
  refine coded_ml (by decide) (by decide) (by decide) hka hkb hacc (by decide) (by decide) (by decide) hc hkc
    (Ty.code_lt t) (by omega) (by omega) fun w v hw cx hcx => ⟨_, by rw [decOp, decMLong, hw.op, hcx]; rfl, ?_, fun ho => ?_⟩
  · simp only [hw.facc, hw.fka, hw.fkb, hw.fkc, hw.ft, hw.fr, hw.fopt, hw.ctl, Ty.ofCode_code, Rnd.ofCode_code, hsat', hclr', hkind']
  · simp only [List.forall_mem_append]
    refine ⟨by simp [ill, hw.fkd, hw.fwb, hw.fmode, hw.ff], ?_⟩
    refine hw.tail_ok ho (.inl rfl) (hw.mTy_ok ho ht) hrnd (.inl rfl) ?_
    simp only [List.forall_mem_cons, List.not_mem_nil, false_imp_iff, implies_true, and_true, hw.fopt, hw.ft, Ty.ofCode_code, hsat', hkind']
    refine ⟨?_, ?_⟩
    · cases sat with
      | false => rfl
      | true => simpa [ill2] using hsat
    · simp only [ill2, Bool.and_eq_false_imp, bne_iff_ne, bne_eq_false_iff_eq]
      intro hk
      simpa [hk] using htk

end

end Sys2Proof
end

section
/-! SUPPORT. Every well-formed instruction is read back from its words (R34 to R61). -/

namespace Sys2Proof

/-- The queue field of a form that takes a w queue (R245). -/
theorem scatqChk_ok {v : Nat} (hlo : 16 ≤ alQ v) (hhi : alQ v < 24) : (alQChk 2 v).bad = false := by
  simp only [alQChk, opd2, Bool.or_eq_false_iff, decide_eq_false_iff_not]
  omega

/-- Every well-formed instruction is read back from its words: the forms shared by the engines (R56, R125), those of A (R57, R245), of X
(R58, R168, R181) and of M (R59). -/
theorem coded_of_wf {e : Eng} {i : Instr} (hwf : i.wf e = true) (hn : ∀ n, i ≠ .unassignedMajor n) : Coded e i (encode i) := by
  cases i with
  | nop =>
    exact coded_nop
  | rdv =>
    exact coded_rdvMask (g := 0) (by decide)
  | eret =>
    exact coded_eret
  | add d a b =>
    simp only [Instr.wf, Bool.and_eq_true, beq_iff_eq, decide_eq_true_eq] at hwf
    obtain ⟨⟨hd, ha⟩, hb⟩ := hwf
    exact coded_dab .add (by decide) (fun c w h => by rw [decOp, decShared, h]; rfl) hd ha hb
  | sub d a b =>
    simp only [Instr.wf, Bool.and_eq_true, beq_iff_eq, decide_eq_true_eq] at hwf
    obtain ⟨⟨hd, ha⟩, hb⟩ := hwf
    exact coded_dab .sub (by decide) (fun c w h => by rw [decOp, decShared, h]; rfl) hd ha hb
  | mul d a b =>
    simp only [Instr.wf, Bool.and_eq_true, beq_iff_eq, decide_eq_true_eq] at hwf
    obtain ⟨⟨hd, ha⟩, hb⟩ := hwf
    exact coded_dab .mul (by decide) (fun c w h => by rw [decOp, decShared, h]; rfl) hd ha hb
  | madd d a b =>
    simp only [Instr.wf, Bool.and_eq_true, beq_iff_eq, decide_eq_true_eq] at hwf
    obtain ⟨⟨hd, ha⟩, hb⟩ := hwf
    exact coded_dab .madd (by decide) (fun c w h => by rw [decOp, decShared, h]; rfl) hd ha hb
  | and d a b =>
    simp only [Instr.wf, Bool.and_eq_true, beq_iff_eq, decide_eq_true_eq] at hwf
    obtain ⟨⟨hd, ha⟩, hb⟩ := hwf
    exact coded_dab .and (by decide) (fun c w h => by rw [decOp, decShared, h]; rfl) hd ha hb
  | or d a b =>
    simp only [Instr.wf, Bool.and_eq_true, beq_iff_eq, decide_eq_true_eq] at hwf
    obtain ⟨⟨hd, ha⟩, hb⟩ := hwf
    exact coded_dab .or (by decide) (fun c w h => by rw [decOp, decShared, h]; rfl) hd ha hb
  | xor d a b =>
    simp only [Instr.wf, Bool.and_eq_true, beq_iff_eq, decide_eq_true_eq] at hwf
    obtain ⟨⟨hd, ha⟩, hb⟩ := hwf
    exact coded_dab .xor (by decide) (fun c w h => by rw [decOp, decShared, h]; rfl) hd ha hb
  | mulh d a b z =>
    simp only [Instr.wf, Bool.and_eq_true, beq_iff_eq, decide_eq_true_eq] at hwf
    obtain ⟨⟨hd, ha⟩, hb⟩ := hwf
    exact coded_dabz .mulh (by decide) z (fun c w h => by rw [decOp, decShared, h]; rfl) hd ha hb
  | min d a b z =>
    simp only [Instr.wf, Bool.and_eq_true, beq_iff_eq, decide_eq_true_eq] at hwf
    obtain ⟨⟨hd, ha⟩, hb⟩ := hwf
    exact coded_dabz .min (by decide) z (fun c w h => by rw [decOp, decShared, h]; rfl) hd ha hb
  | max d a b z =>
    simp only [Instr.wf, Bool.and_eq_true, beq_iff_eq, decide_eq_true_eq] at hwf
    obtain ⟨⟨hd, ha⟩, hb⟩ := hwf
    exact coded_dabz .max (by decide) z (fun c w h => by rw [decOp, decShared, h]; rfl) hd ha hb
  | slt d a b z =>
    simp only [Instr.wf, Bool.and_eq_true, beq_iff_eq, decide_eq_true_eq] at hwf
    obtain ⟨⟨hd, ha⟩, hb⟩ := hwf
    exact coded_dabz .slt (by decide) z (fun c w h => by rw [decOp, decShared, h]; rfl) hd ha hb
  | div d a b r z =>
    simp only [Instr.wf, Bool.and_eq_true, beq_iff_eq, decide_eq_true_eq] at hwf
    obtain ⟨⟨hd, ha⟩, hb⟩ := hwf
    exact coded_div hd ha hb
  | addi d a i =>
    simp only [Instr.wf, Bool.and_eq_true, beq_iff_eq, decide_eq_true_eq] at hwf
    obtain ⟨⟨hd, ha⟩, hi⟩ := hwf
    exact coded_dai .addi (by decide) (fun c w h => by rw [decOp, decShared, h]; rfl) hd ha hi
  | andi d a i =>
    simp only [Instr.wf, Bool.and_eq_true, beq_iff_eq, decide_eq_true_eq] at hwf
    obtain ⟨⟨hd, ha⟩, hi⟩ := hwf
    exact coded_dai .andi (by decide) (fun c w h => by rw [decOp, decShared, h]; rfl) hd ha hi
  | ori d a i =>
    simp only [Instr.wf, Bool.and_eq_true, beq_iff_eq, decide_eq_true_eq] at hwf
    obtain ⟨⟨hd, ha⟩, hi⟩ := hwf
    exact coded_dai .ori (by decide) (fun c w h => by rw [decOp, decShared, h]; rfl) hd ha hi
  | xori d a i =>
    simp only [Instr.wf, Bool.and_eq_true, beq_iff_eq, decide_eq_true_eq] at hwf
    obtain ⟨⟨hd, ha⟩, hi⟩ := hwf
    exact coded_dai .xori (by decide) (fun c w h => by rw [decOp, decShared, h]; rfl) hd ha hi
  | loop d a i =>
    simp only [Instr.wf, Bool.and_eq_true, beq_iff_eq, decide_eq_true_eq] at hwf
    obtain ⟨⟨hd, ha⟩, hi⟩ := hwf
    exact coded_dai .loop (by decide) (fun c w h => by rw [decOp, decShared, h]; rfl) hd ha hi
  | shl d a b =>
    simp only [Instr.wf, Bool.and_eq_true, beq_iff_eq, decide_eq_true_eq] at hwf
    obtain ⟨⟨hd, ha⟩, hb⟩ := hwf
    exact coded_shift .shl .shlImm (by decide) (fun c w h => by rw [decOp, decShared, h]; rfl) hd ha hb
  | shlImm d a n =>
    simp only [Instr.wf, Bool.and_eq_true, beq_iff_eq, decide_eq_true_eq] at hwf
    obtain ⟨⟨hd, ha⟩, hn⟩ := hwf
    exact coded_shiftImm .shl .shlImm (by decide) (fun c w h => by rw [decOp, decShared, h]; rfl) hd ha hn
  | shr d a b =>
    simp only [Instr.wf, Bool.and_eq_true, beq_iff_eq, decide_eq_true_eq] at hwf
    obtain ⟨⟨hd, ha⟩, hb⟩ := hwf
    exact coded_shift .shr .shrImm (by decide) (fun c w h => by rw [decOp, decShared, h]; rfl) hd ha hb
  | shrImm d a n =>
    simp only [Instr.wf, Bool.and_eq_true, beq_iff_eq, decide_eq_true_eq] at hwf
    obtain ⟨⟨hd, ha⟩, hn⟩ := hwf
    exact coded_shiftImm .shr .shrImm (by decide) (fun c w h => by rw [decOp, decShared, h]; rfl) hd ha hn
  | sra d a b =>
    simp only [Instr.wf, Bool.and_eq_true, beq_iff_eq, decide_eq_true_eq] at hwf
    obtain ⟨⟨hd, ha⟩, hb⟩ := hwf
    exact coded_shift .sra .sraImm (by decide) (fun c w h => by rw [decOp, decShared, h]; rfl) hd ha hb
  | sraImm d a n =>
    simp only [Instr.wf, Bool.and_eq_true, beq_iff_eq, decide_eq_true_eq] at hwf
    obtain ⟨⟨hd, ha⟩, hn⟩ := hwf
    exact coded_shiftImm .sra .sraImm (by decide) (fun c w h => by rw [decOp, decShared, h]; rfl) hd ha hn
  | movi d i =>
    simp only [Instr.wf, Bool.and_eq_true, beq_iff_eq, decide_eq_true_eq] at hwf
    obtain ⟨hd, hi⟩ := hwf
    exact coded_movi hd hi
  | movk d p k =>
    simp only [Instr.wf, Bool.and_eq_true, beq_iff_eq, decide_eq_true_eq] at hwf
    obtain ⟨⟨hd, hp⟩, hk⟩ := hwf
    exact coded_movk hd hp hk
  | clz d a =>
    simp only [Instr.wf, Bool.and_eq_true, beq_iff_eq, decide_eq_true_eq] at hwf
    obtain ⟨hd, ha⟩ := hwf
    exact coded_da .clz (by decide) (fun c w h => by rw [decOp, decShared, h]; rfl) hd ha
  | popc d a =>
    simp only [Instr.wf, Bool.and_eq_true, beq_iff_eq, decide_eq_true_eq] at hwf
    obtain ⟨hd, ha⟩ := hwf
    exact coded_da .popc (by decide) (fun c w h => by rw [decOp, decShared, h]; rfl) hd ha
  | ext d a z l n =>
    simp only [Instr.wf, Bool.and_eq_true, beq_iff_eq, decide_eq_true_eq] at hwf
    obtain ⟨⟨⟨hd, ha⟩, hl⟩, hn⟩ := hwf
    exact coded_ext hd ha hl hn
  | bc k a b o =>
    simp only [Instr.wf, Bool.and_eq_true] at hwf
    obtain ⟨⟨ha, hb⟩, ho⟩ := hwf
    exact coded_bc ha hb ho
  | br o =>
    exact coded_off25 .br (by decide) hwf fun c w h => by rw [decOp, decShared, h]; rfl
  | call o =>
    exact coded_off25 .call (by decide) hwf fun c w h => by rw [decOp, decShared, h]; rfl
  | jr a =>
    exact coded_jr hwf
  | jrLk d a =>
    simp only [Instr.wf, Bool.and_eq_true, beq_iff_eq, decide_eq_true_eq] at hwf
    obtain ⟨hd, ha⟩ := hwf
    exact coded_jrLk hd ha
  | give f =>
    exact coded_tokens .give (by decide) (of_decide_eq_true hwf) fun c w h => by rw [decOp, decShared, h]; rfl
  | take f =>
    exact coded_tokens .take (by decide) (of_decide_eq_true hwf) fun c w h => by rw [decOp, decShared, h]; rfl
  | mbw m a b =>
    simp only [Instr.wf, Bool.and_eq_true, beq_iff_eq, decide_eq_true_eq] at hwf
    obtain ⟨⟨hm, ha⟩, hb⟩ := hwf
    exact coded_mbw hm ha hb
  | mbr d m =>
    simp only [Instr.wf, Bool.and_eq_true, beq_iff_eq, decide_eq_true_eq] at hwf
    obtain ⟨hd, hm⟩ := hwf
    exact coded_mbr hd hm
  | rdvMask g =>
    simp only [Instr.wf, Bool.and_eq_true, beq_iff_eq, decide_eq_true_eq] at hwf
    obtain ⟨hpos, hlt⟩ := hwf
    have hmask := coded_rdvMask (e := e) hlt
    rwa [if_neg (by omega)] at hmask
  | bar g n =>
    simp only [Instr.wf, Bool.and_eq_true, beq_iff_eq, decide_eq_true_eq] at hwf
    obtain ⟨hg, hn⟩ := hwf
    exact coded_bar hg hn
  | barTm a g n =>
    simp only [Instr.wf, Bool.and_eq_true, beq_iff_eq, decide_eq_true_eq] at hwf
    obtain ⟨⟨ha, hg⟩, hn⟩ := hwf
    exact coded_barTm ha hg hn
  | rdsr d n =>
    simp only [Instr.wf, Bool.and_eq_true, bne_iff_ne, decide_eq_true_eq] at hwf
    obtain ⟨⟨hd, hlt⟩, hne⟩ := hwf
    have hread := coded_rdsr hd hlt
    rwa [if_neg hne] at hread
  | rdsrQflags d =>
    exact coded_rdsr (n := 0x10) hwf (by decide)
  | rdcyc d =>
    exact coded_rdcyc hwf
  | wrsr a n =>
    simp only [Instr.wf, Bool.and_eq_true, decide_eq_true_eq, Bool.not_eq_true'] at hwf
    obtain ⟨⟨ha, hlt⟩, hlist⟩ := hwf
    have hwrite := coded_wrsr ha hlt
    rwa [wrsrForm_listed hlist] at hwrite
  | wrsrStatus a =>
    exact coded_wrsr (n := 0x000) hwf (by decide)
  | wrsrQflags a =>
    exact coded_wrsr (n := 0x010) hwf (by decide)
  | wrsrNpdef a =>
    exact coded_wrsr (n := 0x011) hwf (by decide)
  | wrsrDph a =>
    exact coded_wrsr (n := 0x012) hwf (by decide)
  | wrsrSpass a =>
    exact coded_wrsr (n := 0x020) hwf (by decide)
  | wrsrSkern a =>
    exact coded_wrsr (n := 0x021) hwf (by decide)
  | wrsrSdrain a =>
    exact coded_wrsr (n := 0x022) hwf (by decide)
  | trap n =>
    exact coded_imm .trap (by decide) (of_decide_eq_true hwf) fun c w _ h => by rw [decOp, decShared, h]; rfl
  | idle i =>
    obtain ⟨hlt, hval⟩ := imm13_field hwf
    have hwords := coded_imm (e := e) (fun n => .idle (signedField n 13)) (maj := 0x28) (by decide) hlt fun c w _ h => by rw [decOp, decShared, h]; rfl
    simp only [hval] at hwords
    exact hwords
  | ld d b n z o =>
    simp only [Instr.wf, Bool.and_eq_true, beq_iff_eq, decide_eq_true_eq] at hwf
    obtain ⟨⟨⟨⟨⟨rfl, hd⟩, hb⟩, hn⟩, hz⟩, ho⟩ := hwf
    exact coded_ld hd hb hn hz ho
  | st d b n o =>
    simp only [Instr.wf, Bool.and_eq_true, beq_iff_eq, decide_eq_true_eq] at hwf
    obtain ⟨⟨⟨⟨rfl, hd⟩, hb⟩, hn⟩, ho⟩ := hwf
    exact coded_st hd hb hn ho
  | ldq d b o =>
    simp only [Instr.wf, Bool.and_eq_true, beq_iff_eq, decide_eq_true_eq] at hwf
    obtain ⟨⟨⟨rfl, hd⟩, hb⟩, ho⟩ := hwf
    exact coded_maFixed .ldq (by decide) (fun n => opd 19 (15 < n)) (by omega) hb ho (decide_eq_false (by omega)) fun c w hc h => by rw [decOp, decAShort, h, hc]; rfl
  | stq d b o =>
    simp only [Instr.wf, Bool.and_eq_true, beq_iff_eq, decide_eq_true_eq] at hwf
    obtain ⟨⟨⟨rfl, hd⟩, hb⟩, ho⟩ := hwf
    exact coded_maFixed .stq (by decide) (fun n => opd 19 (7 < n)) (by omega) hb ho (decide_eq_false (by omega)) fun c w hc h => by rw [decOp, decAShort, h, hc]; rfl
  | ldt d b o =>
    simp only [Instr.wf, Bool.and_eq_true, beq_iff_eq, decide_eq_true_eq] at hwf
    obtain ⟨⟨⟨rfl, hd⟩, hb⟩, ho⟩ := hwf
    exact coded_maFixed .ldt (by decide) (aReg 19) (by omega) hb ho (aReg_ok hd) fun c w hc h => by rw [decOp, decAShort, h, hc]; rfl
  | stt d b o =>
    simp only [Instr.wf, Bool.and_eq_true, beq_iff_eq, decide_eq_true_eq] at hwf
    obtain ⟨⟨⟨rfl, hd⟩, hb⟩, ho⟩ := hwf
    exact coded_maFixed .stt (by decide) (aReg 19) (by omega) hb ho (aReg_ok hd) fun c w hc h => by rw [decOp, decAShort, h, hc]; rfl
  | amo d a b op n r =>
    simp only [Instr.wf, Bool.and_eq_true, beq_iff_eq, decide_eq_true_eq] at hwf
    obtain ⟨⟨⟨⟨⟨rfl, hd⟩, ha⟩, hb⟩, hop⟩, hr⟩ := hwf
    exact coded_amo hd ha hb hop hr
  | cas d a b n r =>
    simp only [Instr.wf, Bool.and_eq_true, beq_iff_eq, decide_eq_true_eq] at hwf
    obtain ⟨⟨⟨⟨rfl, hd⟩, ha⟩, hb⟩, hr⟩ := hwf
    exact coded_cas hd ha hb hr
  | fence k n =>
    simp only [Instr.wf, Bool.and_eq_true, beq_iff_eq, decide_eq_true_eq] at hwf
    obtain ⟨⟨rfl, hk⟩, hn⟩ := hwf
    exact coded_fence hk hn
  | spadj i =>
    simp only [Instr.wf, Bool.and_eq_true, beq_iff_eq, decide_eq_true_eq] at hwf
    obtain ⟨rfl, hi⟩ := hwf
    obtain ⟨hlt, hval⟩ := imm13_field hi
    have hwords := coded_imm (e := .a) (fun n => .spadj (signedField n 13)) (maj := 0x49) (by decide) hlt fun c w hc h => by rw [decOp, decAShort, h, hc]; rfl
    simp only [hval] at hwords
    exact hwords
  | passM a n =>
    simp only [Instr.wf, Bool.and_eq_true, beq_iff_eq, decide_eq_true_eq] at hwf
    obtain ⟨⟨rfl, ha⟩, hn⟩ := hwf
    have hwords := coded_pass false ha hn
    rw [show boolBit false = 0 from rfl, Nat.zero_mul, Nat.zero_add] at hwords
    exact hwords
  | passA a n =>
    simp only [Instr.wf, Bool.and_eq_true, beq_iff_eq, decide_eq_true_eq] at hwf
    obtain ⟨⟨rfl, ha⟩, hn⟩ := hwf
    exact coded_pass true ha hn
  | tlbp d a n =>
    simp only [Instr.wf, Bool.and_eq_true, beq_iff_eq, decide_eq_true_eq] at hwf
    obtain ⟨⟨rfl, hd⟩, ha⟩ := hwf
    exact coded_tlbp hd ha
  | pghint q g =>
    simp only [Instr.wf, Bool.and_eq_true, beq_iff_eq, decide_eq_true_eq] at hwf
    obtain ⟨⟨rfl, hq⟩, hg⟩ := hwf
    exact coded_pghint hq hg
  | tlbinv a r =>
    simp only [Instr.wf, Bool.and_eq_true, beq_iff_eq, decide_eq_true_eq] at hwf
    obtain ⟨⟨⟨rfl, ha⟩, hr⟩, hra⟩ := hwf
    exact coded_tlbinv ha hr hra
  | openH h a b n =>
    simp only [Instr.wf, Bool.and_eq_true, beq_iff_eq, decide_eq_true_eq] at hwf
    obtain ⟨⟨⟨rfl, hh⟩, ha⟩, hb⟩ := hwf
    exact coded_openH hh ha hb
  | closeH h =>
    simp only [Instr.wf, Bool.and_eq_true, beq_iff_eq, decide_eq_true_eq] at hwf
    obtain ⟨rfl, hh⟩ := hwf
    exact coded_closeH hh
  | bind d a b =>
    simp only [Instr.wf, Bool.and_eq_true, beq_iff_eq, decide_eq_true_eq] at hwf
    obtain ⟨⟨⟨rfl, hd⟩, ha⟩, hb⟩ := hwf
    exact coded_feat7 .bind (by decide) hd ha hb fun c w hc h => by rw [decOp, decAShort, h, hc]; rfl
  | rebind d a b =>
    simp only [Instr.wf, Bool.and_eq_true, beq_iff_eq, decide_eq_true_eq] at hwf
    obtain ⟨⟨⟨rfl, hd⟩, ha⟩, hb⟩ := hwf
    exact coded_feat7 .rebind (by decide) hd ha hb fun c w hc h => by rw [decOp, decAShort, h, hc]; rfl
  | lpatch a b f =>
    simp only [Instr.wf, Bool.and_eq_true, beq_iff_eq, decide_eq_true_eq] at hwf
    obtain ⟨⟨⟨rfl, ha⟩, hb⟩, hf⟩ := hwf
    exact coded_lpatch ha hb hf
  | larm d a =>
    simp only [Instr.wf, Bool.and_eq_true, beq_iff_eq, decide_eq_true_eq] at hwf
    obtain ⟨⟨rfl, hd⟩, ha⟩ := hwf
    exact coded_larm hd ha
  | decld d a k =>
    simp only [Instr.wf, Bool.and_eq_true, beq_iff_eq, decide_eq_true_eq] at hwf
    obtain ⟨⟨⟨⟨rfl, hd⟩, ha⟩, hk1⟩, hk4⟩ := hwf
    exact coded_decld hd ha hk1 hk4
  | ctxsv a b =>
    simp only [Instr.wf, Bool.and_eq_true, beq_iff_eq, decide_eq_true_eq] at hwf
    obtain ⟨⟨rfl, ha⟩, hb⟩ := hwf
    exact coded_supervisor .ctxsv (by decide) ha hb fun c w hc h => by rw [decOp, decAShort, h, hc]; rfl
  | ctxld a b =>
    simp only [Instr.wf, Bool.and_eq_true, beq_iff_eq, decide_eq_true_eq] at hwf
    obtain ⟨⟨rfl, ha⟩, hb⟩ := hwf
    exact coded_supervisor .ctxld (by decide) ha hb fun c w hc h => by rw [decOp, decAShort, h, hc]; rfl
  | ldqs q d a b t c =>
    simp only [Instr.wf, Bool.and_eq_true, beq_iff_eq, decide_eq_true_eq] at hwf
    obtain ⟨⟨⟨⟨⟨⟨rfl, hq⟩, hd⟩, ha⟩, hb⟩, ht⟩, hc⟩ := hwf
    exact coded_queueLoad .ldqs (by decide) (by decide) 1 q hd ha hb ht hc (by omega)
      (fun v hv => decide_eq_false (by rw [hv]; omega)) fun c w v hc h => by rw [decOp, decALong, h, hc]; rfl
  | gathq q d a b t c =>
    simp only [Instr.wf, Bool.and_eq_true, beq_iff_eq, decide_eq_true_eq] at hwf
    obtain ⟨⟨⟨⟨⟨⟨rfl, hq⟩, hd⟩, ha⟩, hb⟩, ht⟩, hc⟩ := hwf
    exact coded_queueLoad .gathq (by decide) (by decide) 1 q hd ha hb ht hc (by omega)
      (fun v hv => decide_eq_false (by rw [hv]; omega)) fun c w v hc h => by rw [decOp, decALong, h, hc]; rfl
  | scatq n d a b t c =>
    simp only [Instr.wf, Bool.and_eq_true, beq_iff_eq, decide_eq_true_eq] at hwf
    obtain ⟨⟨⟨⟨⟨⟨rfl, hn⟩, hd⟩, ha⟩, hb⟩, ht⟩, hc⟩ := hwf
    have hwords := coded_queueLoad (maj := 0x62) (fun q => .scatq (q - 16)) (by decide) (by decide) 2 (16 + n) hd ha hb ht hc (by omega)
      (fun v hv => scatqChk_ok (by omega) (by omega)) fun c w v hc h => by rw [decOp, decALong, h, hc]; rfl
    rwa [Nat.add_sub_cancel_left] at hwords
  | rgath d a b k t r sk tx sc c =>
    simp only [Instr.wf, Bool.and_eq_true, beq_iff_eq, decide_eq_true_eq] at hwf
    obtain ⟨⟨⟨⟨⟨⟨⟨rfl, hd⟩, ha⟩, hb⟩, hk⟩, ht⟩, hr⟩, hc⟩ := hwf
    exact coded_rgath hd ha hb hk ht hr hc
  | rstrm d a b k t sk c =>
    simp only [Instr.wf, Bool.and_eq_true, beq_iff_eq, decide_eq_true_eq] at hwf
    obtain ⟨⟨⟨⟨⟨⟨rfl, hd⟩, ha⟩, hb⟩, hk⟩, ht⟩, hc⟩ := hwf
    exact coded_rstrm hd ha hb hk ht hc
  | cplvl l a b k c =>
    simp only [Instr.wf, Bool.and_eq_true, beq_iff_eq, decide_eq_true_eq] at hwf
    obtain ⟨⟨⟨⟨⟨rfl, hl⟩, ha⟩, hb⟩, hk⟩, hc⟩ := hwf
    exact coded_cplvl hl ha hb hk hc
  | cpgo d a b t s r mx k c =>
    simp only [Instr.wf, Bool.and_eq_true, beq_iff_eq, decide_eq_true_eq] at hwf
    obtain ⟨⟨⟨⟨⟨⟨⟨rfl, hd⟩, ha⟩, hb⟩, hmx⟩, hty⟩, hk⟩, hc⟩ := hwf
    exact coded_cpgo hd ha hb hmx hty hk hc
  | cpgoPm d a c =>
    simp only [Instr.wf, Bool.and_eq_true, beq_iff_eq, decide_eq_true_eq] at hwf
    obtain ⟨⟨⟨rfl, hd⟩, ha⟩, hc⟩ := hwf
    exact coded_cpgoPm hd ha hc
  | cpgath d a b k op t s r kind c =>
    simp only [Instr.wf, Bool.and_eq_true, beq_iff_eq, decide_eq_true_eq] at hwf
    obtain ⟨⟨⟨⟨⟨⟨⟨⟨⟨rfl, hd⟩, ha⟩, hb⟩, hk⟩, hop⟩, hk0⟩, hty⟩, hkind⟩, hc⟩ := hwf
    exact coded_cpgath hd ha hb hk hop hk0 hty hkind hc
  | cpscat d a b ad t s r kind c =>
    simp only [Instr.wf, Bool.and_eq_true, beq_iff_eq, decide_eq_true_eq] at hwf
    obtain ⟨⟨⟨⟨⟨⟨rfl, hd⟩, ha⟩, hb⟩, hty⟩, hkind⟩, hc⟩ := hwf
    exact coded_cpscat hd ha hb hty hkind hc
  | decq q d a b k t zr c =>
    simp only [Instr.wf, Bool.and_eq_true, decide_eq_true_eq] at hwf
    rw [beq_iff_eq] at hwf
    obtain ⟨⟨⟨⟨⟨⟨⟨rfl, hq⟩, hd⟩, ha⟩, hb⟩, hk⟩, ht⟩, hc⟩ := hwf
    exact coded_decq hq hd ha hb hk ht hc
  | sfadd d a b r =>
    simp only [Instr.wf, Bool.and_eq_true, beq_iff_eq, decide_eq_true_eq] at hwf
    obtain ⟨⟨⟨rfl, hd⟩, ha⟩, hb⟩ := hwf
    exact coded_sf .sfadd (by decide) hd ha hb fun c w hc h => by rw [decOp, decXShort, h, hc]; rfl
  | sfsub d a b r =>
    simp only [Instr.wf, Bool.and_eq_true, beq_iff_eq, decide_eq_true_eq] at hwf
    obtain ⟨⟨⟨rfl, hd⟩, ha⟩, hb⟩ := hwf
    exact coded_sf .sfsub (by decide) hd ha hb fun c w hc h => by rw [decOp, decXShort, h, hc]; rfl
  | sfmul d a b r =>
    simp only [Instr.wf, Bool.and_eq_true, beq_iff_eq, decide_eq_true_eq] at hwf
    obtain ⟨⟨⟨rfl, hd⟩, ha⟩, hb⟩ := hwf
    exact coded_sf .sfmul (by decide) hd ha hb fun c w hc h => by rw [decOp, decXShort, h, hc]; rfl
  | sfma d a b r =>
    simp only [Instr.wf, Bool.and_eq_true, beq_iff_eq, decide_eq_true_eq] at hwf
    obtain ⟨⟨⟨rfl, hd⟩, ha⟩, hb⟩ := hwf
    exact coded_sf .sfma (by decide) hd ha hb fun c w hc h => by rw [decOp, decXShort, h, hc]; rfl
  | sfdiv d a b r =>
    simp only [Instr.wf, Bool.and_eq_true, beq_iff_eq, decide_eq_true_eq] at hwf
    obtain ⟨⟨⟨rfl, hd⟩, ha⟩, hb⟩ := hwf
    exact coded_sf .sfdiv (by decide) hd ha hb fun c w hc h => by rw [decOp, decXShort, h, hc]; rfl
  | sfsqrt d a r =>
    simp only [Instr.wf, Bool.and_eq_true, beq_iff_eq, decide_eq_true_eq] at hwf
    obtain ⟨⟨rfl, hd⟩, ha⟩ := hwf
    exact coded_sfsqrt hd ha
  | sfmin d a b =>
    simp only [Instr.wf, Bool.and_eq_true, beq_iff_eq, decide_eq_true_eq] at hwf
    obtain ⟨⟨⟨rfl, hd⟩, ha⟩, hb⟩ := hwf
    exact coded_xdab .sfmin (by decide) hd ha hb fun c w hc h => by rw [decOp, decXShort, h, hc]; rfl
  | sfmax d a b =>
    simp only [Instr.wf, Bool.and_eq_true, beq_iff_eq, decide_eq_true_eq] at hwf
    obtain ⟨⟨⟨rfl, hd⟩, ha⟩, hb⟩ := hwf
    exact coded_xdab .sfmax (by decide) hd ha hb fun c w hc h => by rw [decOp, decXShort, h, hc]; rfl
  | sfcmp d a b k =>
    simp only [Instr.wf, Bool.and_eq_true, beq_iff_eq, decide_eq_true_eq] at hwf
    obtain ⟨⟨⟨⟨rfl, hd⟩, ha⟩, hb⟩, hk⟩ := hwf
    exact coded_sfcmp hd ha hb hk
  | sfcvt d a r t s =>
    simp only [Instr.wf, Bool.and_eq_true, beq_iff_eq, decide_eq_true_eq] at hwf
    obtain ⟨⟨⟨⟨⟨⟨rfl, hd⟩, ha⟩, ht⟩, hs⟩, hts⟩, hr⟩ := hwf
    exact coded_sfcvt hd ha ht hs (bne_iff_ne.mp hts) hr
  | vext d a b n z =>
    simp only [Instr.wf, Bool.and_eq_true, beq_iff_eq, decide_eq_true_eq] at hwf
    obtain ⟨⟨⟨⟨⟨rfl, hd⟩, ha⟩, hb⟩, hz⟩, hn⟩ := hwf
    exact coded_vext hd ha hb hz hn
  | vins d a b z =>
    simp only [Instr.wf, Bool.and_eq_true, beq_iff_eq, decide_eq_true_eq] at hwf
    obtain ⟨⟨⟨⟨rfl, hd⟩, ha⟩, hb⟩, hz⟩ := hwf
    exact coded_vins hd ha hb hz
  | qcnt d a n =>
    simp only [Instr.wf, Bool.and_eq_true, beq_iff_eq, decide_eq_true_eq] at hwf
    obtain ⟨⟨rfl, hd⟩, ha⟩ := hwf
    exact coded_qcnt hd ha
  | qdrop a b =>
    simp only [Instr.wf, Bool.and_eq_true, beq_iff_eq, decide_eq_true_eq] at hwf
    obtain ⟨⟨rfl, ha⟩, hb⟩ := hwf
    exact coded_qdrop ha hb
  | qdropNw d a b =>
    simp only [Instr.wf, Bool.and_eq_true, beq_iff_eq, decide_eq_true_eq] at hwf
    obtain ⟨⟨⟨rfl, hd⟩, ha⟩, hb⟩ := hwf
    exact coded_qdropNw hd ha hb
  | loopp k a i =>
    simp only [Instr.wf, Bool.and_eq_true, beq_iff_eq, decide_eq_true_eq] at hwf
    obtain ⟨⟨⟨rfl, hk⟩, ha⟩, hi⟩ := hwf
    exact coded_loopp hk ha hi
  | plog d a b op =>
    simp only [Instr.wf, Bool.and_eq_true, beq_iff_eq, decide_eq_true_eq] at hwf
    obtain ⟨⟨⟨⟨rfl, hd⟩, ha⟩, hb⟩, hop⟩ := hwf
    exact coded_plog hd ha hb hop
  | pcnt d a n =>
    simp only [Instr.wf, Bool.and_eq_true, beq_iff_eq, decide_eq_true_eq] at hwf
    obtain ⟨⟨⟨rfl, hd⟩, ha⟩, hn⟩ := hwf
    exact coded_pcount .pcnt (by decide) hd ha hn fun c w hc h => by rw [decOp, decXShort, h, hc]; rfl
  | pfirst d a n =>
    simp only [Instr.wf, Bool.and_eq_true, beq_iff_eq, decide_eq_true_eq] at hwf
    obtain ⟨⟨⟨rfl, hd⟩, ha⟩, hn⟩ := hwf
    exact coded_pcount .pfirst (by decide) hd ha hn fun c w hc h => by rw [decOp, decXShort, h, hc]; rfl
  | pset d k n =>
    simp only [Instr.wf, Bool.and_eq_true, beq_iff_eq, decide_eq_true_eq] at hwf
    obtain ⟨⟨⟨rfl, hd⟩, hk⟩, hn⟩ := hwf
    exact coded_pset hd hk hn
  | psetReg d a k n =>
    simp only [Instr.wf, Bool.and_eq_true, beq_iff_eq, decide_eq_true_eq] at hwf
    obtain ⟨⟨⟨⟨rfl, hd⟩, ha⟩, hk⟩, hn⟩ := hwf
    exact coded_psetReg hd ha hk hn
  | ppack d a =>
    simp only [Instr.wf, Bool.and_eq_true, beq_iff_eq, decide_eq_true_eq] at hwf
    obtain ⟨⟨rfl, hd⟩, ha⟩ := hwf
    exact coded_ppack hd ha
  | punpk d a =>
    simp only [Instr.wf, Bool.and_eq_true, beq_iff_eq, decide_eq_true_eq] at hwf
    obtain ⟨⟨rfl, hd⟩, ha⟩ := hwf
    exact coded_punpk hd ha
  | pext d a b =>
    simp only [Instr.wf, Bool.and_eq_true, beq_iff_eq, decide_eq_true_eq] at hwf
    obtain ⟨⟨⟨rfl, hd⟩, ha⟩, hb⟩ := hwf
    exact coded_pext hd ha hb
  | pins d a b =>
    simp only [Instr.wf, Bool.and_eq_true, beq_iff_eq, decide_eq_true_eq] at hwf
    obtain ⟨⟨⟨rfl, hd⟩, ha⟩, hb⟩ := hwf
    exact coded_pins hd ha hb
  | vadd => exact coded_vadd hwf
  | vsub => exact coded_vsub hwf
  | vmul => exact coded_vmul hwf
  | vmulh => exact coded_vmulh hwf
  | vmad => exact coded_vmad hwf
  | vlog => exact coded_vlog hwf
  | vsh => exact coded_vsh hwf
  | vmin => exact coded_vmin hwf
  | vmax => exact coded_vmax hwf
  | vabs => exact coded_vabs hwf
  | vfadd => exact coded_vfadd hwf
  | vfsub => exact coded_vfsub hwf
  | vfmul => exact coded_vfmul hwf
  | vfma => exact coded_vfma hwf
  | vfdiv => exact coded_vfdiv hwf
  | vfsqrt => exact coded_vfsqrt hwf
  | vcmp => exact coded_vcmp hwf
  | vsel => exact coded_vsel hwf
  | vmov => exact coded_vmov hwf
  | viota => exact coded_viota hwf
  | vperm => exact coded_vperm hwf
  | vslide => exact coded_vslide hwf
  | vred => exact coded_vred hwf
  | vscan => exact coded_vscan hwf
  | vclmul => exact coded_vclmul hwf
  | vcvt => exact coded_vcvt hwf
  | vqpack => exact coded_vqpack hwf
  | vqunpk => exact coded_vqunpk hwf
  | vspars => exact coded_vspars hwf
  | vtopk => exact coded_vtopk hwf
  | vhist => exact coded_vhist hwf
  | cscan => exact coded_cscan hwf
  | mqry => exact coded_mqry hwf
  | mskip => exact coded_mskip hwf
  | mskipCx => exact coded_mskipCx hwf
  | mwld => exact coded_mwld hwf
  | mwlds => exact coded_mwlds hwf
  | mrun => exact coded_mrun hwf
  | manch => exact coded_manch hwf
  | mzero => exact coded_mzero hwf
  | mdrn => exact coded_mdrn hwf
  | unassignedMajor n => exact absurd rfl (hn n)
  | _ => exact coded_nil _ _

end Sys2Proof

namespace Sys2Proof.Machine

/-- Settles O59: every form's words have the fields from which the decoder reads it (`coded_of_wf`). -/
theorem encodeThenDecode : Obligations.EncodeThenDecode := by
  unfold Obligations.EncodeThenDecode
  intro e i w1 rest hwf henc hn
  obtain ⟨hw1, hw2, hlen, hreads⟩ := coded_of_wf hwf hn w1 rest henc
  exact ⟨hw1, hw2, hlen, fun c j hc hj => hreads.only hc hj,
    fun c hc huser hgauge hacc hfits => hreads.decodes hc ⟨huser, hgauge, hacc, hfits⟩⟩

end Sys2Proof.Machine
end

section
/-! SUPPORT. LPATCH and LARM with their acts (R410 to R412, R425), and the obligation about them. -/

namespace Sys2Proof.Machine

section
variable {s : State} {w : Who} {a b d f n : Nat}

/-! ## Acts at the hub -/

theorem whoOn_acts (h : Acts s w) (hw : w.eng = .a) : s.whoOn .a = w := by
  rw [whoOn_of_acts h, ← hw]

/-- A form that stands at an act. -/
theorem finish_stands (m : Meet) (len : Nat) : finish w len s (.ok (standAtAct s w m) (.stay .waiting)) = .next (s.standsAt w m) := by
  simp [finish, standAs, standAtAct, State.standsAt]

/-- The act of a form is done: its status stands in a full register, and the stream goes on. -/
theorem actDone_eq {u : State} {st : Nat} (hd : (u.stream w).full d = true) (hst : Straight u w 4) :
    actDone u w d st = (u.setStream w ((u.stream w).put d (BitVec.ofNat 64 st))).goTo w (u.pcOf w + 4) := by
  rw [actDone, putReg_full hd]
  exact retire_setStream_stays (Stream.put_pc _ _ _) ((staysIn_congr (Stream.put_loops _ _ _) (Stream.put_pc _ _ _)).mpr hst)

theorem actDone_wrote {st : Nat} (hd : (s.stream w).full d = true) (hst : Straight s w 4) :
    Wrote s (actDone s w d st) w d (BitVec.ofNat 64 st) (s.pcOf w + 4) 0 (s.stream w).dph := by
  rw [actDone_eq hd hst]
  exact wrote_put_only _ _ _ _ _

/-! ## LPATCH and LARM at issue (R410, R411) -/

theorem lpatch_finish (h : Acts s w) (hw : w.eng = .a) (hf : Full s w [a, b]) : exec (.lpatch a b f) s = finish w 4 s (
    if 4095 < (regOf s w a).toNat then .raise 0x02 (opTval (.lpatch a b f) false 13)
    else .ok (standAtAct s w (.recPatch (regOf s w a).toNat f (regOf s w b))) (.stay .waiting)) := by
  change execLpatch a b f s = _
  rw [execLpatch, whoOn_acts h hw, needRegs_of_full _ hf]

theorem larm_finish (h : Acts s w) (hw : w.eng = .a) (hf : Full s w [a]) : exec (.larm d a) s = finish w 4 s (
    if 4095 < (regOf s w a).toNat then .raise 0x02 (opTval (.larm d a) false 13)
    else if !(s.core w.core).doneA || !(s.core w.core).as.xfers.isEmpty then .wait
    else .ok (standAtAct s w (.recArm d (regOf s w a).toNat)) (.stay .waiting)) := by
  change execLarm d a s = _
  rw [execLarm, whoOn_acts h hw, needRegs_of_full _ hf]

/-! ## The act of LPATCH (R410) -/

theorem launchRecordAct_patch {value : Word} (hc : w.core < 512) (hs : s.still w.core = false) (hw : w.eng = .a)
    (hat : (s.stream w).at_ = .recPatch n f value) : exec (.launchRecordAct w.core) s = .next (patchAct s w n f value) := by
  obtain ⟨c, e⟩ := w
  subst hw
  change execLaunchRecordAct c s = _
  simp [execLaunchRecordAct, coreExists, hc, hs, hat]

theorem launchRecordAct_arm (hc : w.core < 512) (hs : s.still w.core = false) (hw : w.eng = .a)
    (hat : (s.stream w).at_ = .recArm d n) : exec (.launchRecordAct w.core) s = .next (larmAct s w d n) := by
  obtain ⟨c, e⟩ := w
  subst hw
  change execLaunchRecordAct c s = _
  simp [execLaunchRecordAct, coreExists, hc, hs, hat]

theorem setField_mod (x : Word) (hi lo v : Nat) : setField x hi lo v = setField x hi lo (v % 2 ^ (hi + 1 - lo)) := by
  rw [setField, setField, Nat.mod_mod]

/-- The bits of a dword with a field replaced by the low bits of a word. -/
theorem getLsbD_setField_word (x value : Word) {lo len : Nat} (hlen : 0 < len) {m : Nat} (hm : m < 64) :
    (setField x (lo + len - 1) lo value.toNat).getLsbD m = if lo ≤ m ∧ m < lo + len then value.getLsbD (m - lo) else x.getLsbD m := by
  rw [setField_mod, show lo + len - 1 + 1 - lo = len by omega, getLsbD_setField x hlen (Nat.mod_lt _ (Nat.two_pow_pos _)) hm]
  by_cases hin : lo ≤ m ∧ m < lo + len
  · rw [if_pos hin, if_pos hin, Nat.testBit_mod_two_pow, decide_eq_true (by omega), Bool.true_and, BitVec.getLsbD]
  · rw [if_neg hin, if_neg hin]

/-- The dword that LPATCH leaves: its field of LPATCH comes from the value (R410). -/
def patched (r : Rec) (f : Nat) (value : Word) : Word :=
  setField (r.d (patchPart f).1) (patchPart f).2.2 (patchPart f).2.1 value.toNat

theorem patched_bits (r : Rec) (f : Nat) (value : Word) {m : Nat} (hm : m < 64) : (patched r f value).getLsbD m =
    if f < 32 then value.getLsbD m
    else if f < 64 then (if m < 32 then value.getLsbD m else (r.d (f % 32)).getLsbD m)
    else (if m < 32 then (r.d (f % 32)).getLsbD m else value.getLsbD (m - 32)) := by
  rw [patched, patchPart]
  dsimp only
  by_cases h1 : f < 32
  · rw [if_pos h1, if_pos h1, if_pos (by omega)]
    exact (getLsbD_setField_word _ _ (lo := 0) (len := 64) (by decide) hm).trans (if_pos ⟨by omega, by omega⟩)
  · rw [if_neg h1, if_neg h1]
    by_cases h2 : f < 64
    · rw [if_pos h2, if_pos h2, if_pos h2]
      refine (getLsbD_setField_word _ _ (lo := 0) (len := 32) (by decide) hm).trans ?_
      rw [Nat.sub_zero]
      by_cases h3 : m < 32
      · rw [if_pos h3, if_pos ⟨by omega, by omega⟩]
      · rw [if_neg h3, if_neg (by omega)]
    · rw [if_neg h2, if_neg h2, if_neg h2]
      refine (getLsbD_setField_word _ _ (lo := 32) (len := 32) (by decide) hm).trans ?_
      by_cases h3 : m < 32
      · rw [if_pos h3, if_neg (by omega)]
      · rw [if_neg h3, if_pos ⟨by omega, by omega⟩]

theorem patchAct_eq (value : Word) : patchAct s w n f value =
    if (s.lrec n).ctx ≠ (s.core w.core).ctx ∨ (s.lrec n).built = false then takeTrap s w 0x11 (recTval n 0)
    else if f % 32 = 0 ∨ f % 32 = 14 ∨ ((s.lrec n).d 0).getLsbD (32 + f % 32) = false then takeTrap s w 0x11 (recTval n (f % 32))
    else if (s.lrec n).armed then takeTrap s w 0x38 (recTval n (f % 32))
    else retire w 4 (s.setLrec n ((s.lrec n).setD (f % 32) (patched (s.lrec n) f value))) := by
  simp only [patchAct, patched]
  unfold patchPart
  simp [flag, or_assoc]

theorem patch_retires (R : Rec) (hst : Straight s w 4) :
    retire w 4 (s.setLrec n R) = (s.setLrec n R).goTo w (s.pcOf w + 4) := retire_stays (s1 := s.setLrec n R) hst rfl rfl

theorem d_setD_self (r : Rec) (k : Nat) (v : Word) : (r.setD k v).d k = v := tget_tset_self _ _ _ _

theorem d_setD_ne (r : Rec) {k m : Nat} (v : Word) (h : m ≠ k) : (r.setD k v).d m = r.d m := tget_tset_ne _ _ _ h

theorem lrec_setLrec_self (s : State) (n : Nat) (r : Rec) : (s.setLrec n r).lrec n = r := tget_tset_self _ _ _ _

theorem lrec_setLrec_ne (s : State) {n m : Nat} (r : Rec) (h : m ≠ n) : (s.setLrec n r).lrec m = s.lrec m := tget_tset_ne _ _ _ h

theorem patch_writes (value : Word) (hst : Straight s w 4) (hok : ¬((s.lrec n).ctx ≠ (s.core w.core).ctx ∨ (s.lrec n).built = false))
    (hopen : ¬(f % 32 = 0 ∨ f % 32 = 14 ∨ ((s.lrec n).d 0).getLsbD (32 + f % 32) = false)) (harmed : (s.lrec n).armed = false) :
    ∃ t, patchAct s w n f value = t ∧ (∀ m, m ≠ f % 32 → (t.lrec n).d m = (s.lrec n).d m) ∧
      (t.lrec n).d (f % 32) = patched (s.lrec n) f value ∧ (∀ m, m ≠ n → t.lrec m = s.lrec m) ∧
      t.stream w = { s.stream w with pc := (s.stream w).pc + 4, run := s.runNext w, at_ := .free } ∧ t.mem = s.mem := by
  rw [patchAct_eq, if_neg hok, if_neg hopen, harmed, if_neg Bool.false_ne_true, patch_retires _ hst]
  refine ⟨_, rfl, fun m hm => ?_, ?_, fun m hm => ?_, ?_, rfl⟩
  · simp only [State.goTo, State.lrec_setStream, lrec_setLrec_self, d_setD_ne _ _ hm]
  · simp only [State.goTo, State.lrec_setStream, lrec_setLrec_self, d_setD_self]
  · simp only [State.goTo, State.lrec_setStream, lrec_setLrec_ne _ _ hm]
  · simp only [State.goTo, State.stream_setStream_self]
    rfl

/-! ## The act of LARM (R411, R412, R425) -/

/-- A record as LARM leaves it. -/
def Rec.armedRec (r : Rec) : Rec := (r.setD 0 (setField (r.d 0) 9 9 1)).setD 14 (setField (r.d 14) 31 0 (r.arms + 1))

theorem armedRec_d0 (r : Rec) : r.armedRec.d 0 = setField (r.d 0) 9 9 1 := by
  rw [Rec.armedRec, d_setD_ne _ _ (by decide), d_setD_self]

theorem armedRec_d14 (r : Rec) : r.armedRec.d 14 = setField (r.d 14) 31 0 (r.arms + 1) := d_setD_self _ _ _

theorem armedRec_bit0 (r : Rec) {m : Nat} (hm : m < 64) : (r.armedRec.d 0).getLsbD m = if m = 9 then true else (r.d 0).getLsbD m := by
  rw [armedRec_d0]
  refine (getLsbD_setField _ (lo := 9) (len := 1) (v := 1) (by decide) (by decide) hm).trans ?_
  by_cases h : m = 9
  · rw [if_pos h, if_pos (by omega), h]; rfl
  · rw [if_neg h, if_neg (by omega)]

theorem armedRec_armed (r : Rec) : r.armedRec.armed = true := by rw [Rec.armed, flag, armedRec_bit0 _ (by decide), if_pos rfl]

/-- A field that lies clear of the armed bit. -/
theorem armedRec_field0 (r : Rec) {hi lo : Nat} (hhi : hi < 64) (h : hi < 9 ∨ 9 < lo) : field (r.armedRec.d 0) hi lo = field (r.d 0) hi lo := by
  refine Nat.eq_of_testBit_eq fun m => ?_
  rw [field_testBit, field_testBit]
  by_cases hm : m < hi + 1 - lo
  · rw [armedRec_bit0 _ (by omega), if_neg (by omega)]
  · rw [decide_eq_false hm, Bool.false_and, Bool.false_and]

theorem armedRec_ctx (r : Rec) : r.armedRec.ctx = r.ctx := armedRec_field0 r (by decide) (.inr (by decide))

theorem armedRec_arms (r : Rec) : r.armedRec.arms = (r.arms + 1) % 2 ^ 32 := by
  rw [Rec.arms, armedRec_d14]
  generalize r.arms + 1 = v
  rw [setField, field, BitVec.toNat_ofNat]
  have hlt := (r.d 14).isLt
  omega

theorem armedRec_completions (r : Rec) : r.armedRec.completions = r.completions := by
  rw [Rec.completions, armedRec_d14, Rec.completions]
  generalize r.arms + 1 = v
  rw [setField, field, field, BitVec.toNat_ofNat]
  have hlt := (r.d 14).isLt
  omega

/-- What a record looks like once it is armed; the other records stay. -/
structure Arms (s t : State) (n : Nat) : Prop where
  armed : (t.lrec n).armed = true
  arms : (t.lrec n).arms = ((s.lrec n).arms + 1) % 2 ^ 32
  completions : (t.lrec n).completions = (s.lrec n).completions
  order : (t.lrec n).order = s.arms
  ctx : (t.lrec n).ctx = (s.lrec n).ctx
  others : ∀ m, m ≠ n → t.lrec m = s.lrec m

theorem armRecord_arms (s : State) (n : Nat) : Arms s (armRecord s n) n := by
  have hrec : ∃ o l, (armRecord s n).lrec n = { (s.lrec n).armedRec with order := o, targets := l } ∧ o = s.arms :=
    ⟨_, _, lrec_setLrec_self _ _ _, rfl⟩
  obtain ⟨o, l, hrec, rfl⟩ := hrec
  refine ⟨?_, ?_, ?_, ?_, ?_, fun m hm => lrec_setLrec_ne _ _ hm⟩
  · rw [hrec]; exact armedRec_armed _
  · rw [hrec]; exact armedRec_arms _
  · rw [hrec]; exact armedRec_completions _
  · rw [hrec]
  · rw [hrec]; exact armedRec_ctx _

theorem armAct_armed (h : (s.lrec n).armed = true) : armAct s n = .ok (2, s) := by rw [armAct, if_pos h]

theorem armAct_bad {j : Nat} (h : (s.lrec n).armed = false) (hb : recordBad s n (s.lrec n) = some j) : armAct s n = .error j := by
  rw [armAct, h, if_neg Bool.false_ne_true, hb]

theorem armAct_refused (h : (s.lrec n).armed = false) (hb : recordBad s n (s.lrec n) = none) (hg : (s.lrec n).gauge = true)
    (ha : admits s (s.lrec n) = false) : armAct s n = .ok (1, s) := by
  rw [armAct, h, if_neg Bool.false_ne_true, hb, hg, ha]
  rfl

theorem armAct_arms (h : (s.lrec n).armed = false) (hb : recordBad s n (s.lrec n) = none)
    (ha : (s.lrec n).gauge = true → admits s (s.lrec n) = true) : armAct s n = .ok (0, armRecord s n) := by
  rw [armAct, h, if_neg Bool.false_ne_true, hb]
  cases hg : (s.lrec n).gauge
  · rfl
  · rw [ha hg]; rfl

theorem larmAct_foreign (h : (s.lrec n).ctx ≠ (s.core w.core).ctx) : larmAct s w d n = takeTrap s w 0x11 (recTval n 0) := by
  rw [larmAct, if_pos (bne_iff_ne.mpr h)]

theorem larmAct_done {st : Nat} {u : State} (hc : (s.lrec n).ctx = (s.core w.core).ctx) (h : armAct s n = .ok (st, u)) :
    larmAct s w d n = actDone u w d st := by
  rw [larmAct, if_neg (by simp [hc]), h]

theorem larmAct_bad {j : Nat} (hc : (s.lrec n).ctx = (s.core w.core).ctx) (h : armAct s n = .error j) :
    larmAct s w d n = takeTrap s w 0x39 (recTval n j) := by
  rw [larmAct, if_neg (by simp [hc]), h]

/-- The act of LARM done with the record armed. -/
theorem larm_arms (hst : Straight s w 4) (hd : (s.stream w).full d = true) :
    Arms s (actDone (armRecord s n) w d 0) n ∧
      Wrote s { actDone (armRecord s n) w d 0 with recs := s.recs, arms := s.arms } w d 0 (s.pcOf w + 4) 0 (s.stream w).dph := by
  have hdone := actDone_eq (u := armRecord s n) (w := w) (d := d) (st := 0) hd hst
  have harms := armRecord_arms s n
  rw [hdone]
  refine ⟨⟨harms.armed, harms.arms, harms.completions, harms.order, harms.ctx, harms.others⟩, ?_⟩
  exact wrote_put_only s w d 0 (s.pcOf w + 4)

end

/-- Settles O45, form by form and act by act. -/
theorem launchRecordForms : Obligations.LaunchRecordForms := by
  unfold Obligations.LaunchRecordForms
  refine fun s w d a b f n hw => ⟨fun hact hfull => ⟨fun hA => ?_, fun hA => ?_, fun hA hdone hx => ?_, fun hA hbusy => ?_⟩,
    fun hc hs hst => ⟨fun value hat hf => ?_, fun hat hd => ?_⟩⟩
  · exact ⟨by rw [Traps, lpatch_finish hact hw hfull, if_pos hA]; rfl,
      by rw [Traps, larm_finish hact hw fun n hn => hfull n (by simp_all), if_pos hA]; rfl⟩
  · rw [lpatch_finish hact hw hfull, if_neg (by omega), finish_stands]
  · rw [larm_finish hact hw fun n hn => hfull n (by simp_all), if_neg (by omega), hdone, hx]
    exact finish_stands _ _
  · rw [Waits, larm_finish hact hw fun n hn => hfull n (by simp_all), if_neg (by omega), if_pos]
    · rfl
    · rcases hbusy with h | h
      · simp [h]
      · simp [h]
  · rw [launchRecordAct_patch hc hs hw hat]
    refine ⟨fun h => by rw [patchAct_eq, if_pos h]; rfl, fun hctx hbuilt => ?_⟩
    have hok : ¬((s.lrec n).ctx ≠ (s.core w.core).ctx ∨ (s.lrec n).built = false) := by simp [hctx, hbuilt]
    refine ⟨fun h => by rw [patchAct_eq, if_neg hok, if_pos h]; rfl, fun h0 h14 hmask => ?_⟩
    have hopen : ¬(f % 32 = 0 ∨ f % 32 = 14 ∨ ((s.lrec n).d 0).getLsbD (32 + f % 32) = false) := by simp [h0, h14, hmask]
    refine ⟨fun harmed => by rw [patchAct_eq, if_neg hok, if_neg hopen, if_pos harmed]; rfl, fun harmed => ?_⟩
    obtain ⟨t, ht, hothers, hdword, hrecs, hstream, hmem⟩ := patch_writes value hst hok hopen harmed
    exact ⟨t, congrArg _ ht, hothers, fun m hm => by rw [hdword, patched_bits _ _ _ hm], hrecs, hstream, hmem⟩
  · rw [launchRecordAct_arm hc hs hw hat]
    refine ⟨fun h => by rw [larmAct_foreign h]; rfl, fun hctx harmed => ⟨_, rfl, ?_⟩, fun j hctx harmed hbad => ?_,
      fun hctx harmed hgood => ⟨fun hg hadm => ⟨_, rfl, ?_⟩, fun hadm => ⟨_, rfl, ?_⟩⟩⟩
    · rw [larmAct_done hctx (armAct_armed harmed)]
      exact actDone_wrote hd hst
    · rw [larmAct_bad hctx (armAct_bad harmed hbad)]; rfl
    · rw [larmAct_done hctx (armAct_refused harmed hgood hg hadm)]
      exact actDone_wrote hd hst
    · rw [larmAct_done hctx (armAct_arms harmed hgood hadm)]
      obtain ⟨harms, hwrote⟩ := larm_arms (n := n) hst hd
      exact ⟨harms.armed, harms.arms, harms.completions, harms.order, harms.ctx, harms.others, hwrote⟩

end Sys2Proof.Machine
end

section
/-! SUPPORT. FENCE, SPADJ, PASS, PGHINT and PASS_FLIP (R222 to R226, R255 to R257), and the obligation about them. -/

namespace Sys2Proof.Machine

section
variable {s : State} {w : Who} {a n kind scope queue dist : Nat} {imm : Int}

/-- The core of an A stream that goes on. -/
theorem core_coreGoes_a (s : State) (k : Core) (hw : w.eng = .a) : (s.coreGoes w k).core w.core =
    { k with a := { k.a with pc := s.pcOf w + 4, run := runAfter k k.a, at_ := .free } } := by
  rw [core_coreGoes, hw]
  rfl

/-! ## FENCE, SPADJ and PGHINT (R237, R255, R256) -/

theorem fence_finish (h : Acts s w) (hw : w.eng = .a) : exec (.fence kind scope) s = finish w 4 s (
    if (hasParty s w.core scope && !(s.core w.core).doneA) || (1 ≤ kind && !(s.core w.core).as.xfers.isEmpty) then .wait
    else if 1 ≤ kind && scope = 5 && !(s.core w.core).det.away.isEmpty then toCommit s w
    else .ok s .seq) := by
  change execFence kind scope s = _
  rw [execFence, whoOn_acts h hw]

/-- What a FENCE waits for is not there. -/
theorem fence_passes (h : Acts s w) (hw : w.eng = .a) (hp : hasParty s w.core scope = true → (s.core w.core).doneA = true)
    (hx : 1 ≤ kind → (s.core w.core).as.xfers = []) : exec (.fence kind scope) s = finish w 4 s (
      if 1 ≤ kind && scope = 5 && !(s.core w.core).det.away.isEmpty then toCommit s w else .ok s .seq) := by
  rw [fence_finish h hw, if_neg]
  simp only [Bool.or_eq_true, Bool.and_eq_true, Bool.not_eq_true', decide_eq_true_eq, List.isEmpty_eq_false_iff]
  rintro (⟨hparty, hdone⟩ | ⟨hk, hne⟩)
  · rw [hp hparty] at hdone
    exact absurd hdone (by decide)
  · exact hne (hx hk)

theorem fence_goes (h : Acts s w) (hw : w.eng = .a) (hst : Straight s w 4)
    (hp : hasParty s w.core scope = true → (s.core w.core).doneA = true) (hx : 1 ≤ kind → (s.core w.core).as.xfers = [])
    (hno : kind = 0 ∨ scope ≠ 5 ∨ (s.core w.core).det.away = []) :
    exec (.fence kind scope) s = .next (s.goTo w ((s.stream w).pc + 4)) := by
  rw [fence_passes h hw hp hx, if_neg]
  · exact congrArg _ (retire_stays hst rfl rfl)
  · simp only [Bool.and_eq_true, Bool.not_eq_true', decide_eq_true_eq, List.isEmpty_eq_false_iff]
    rintro ⟨⟨hk, hs⟩, hne⟩
    rcases hno with h0 | h5 | he
    · omega
    · exact h5 hs
    · exact hne he

theorem fence_commits (h : Acts s w) (hw : w.eng = .a)
    (hp : hasParty s w.core scope = true → (s.core w.core).doneA = true) (hx : 1 ≤ kind → (s.core w.core).as.xfers = [])
    (hk : 1 ≤ kind) (hs : scope = 5) (hne : (s.core w.core).det.away ≠ []) :
    exec (.fence kind scope) s = .next (s.standsAt w .committing) := by
  rw [fence_passes h hw hp hx, if_pos (by simp [hk, hs, hne])]
  simp [finish, toCommit, standAs, State.standsAt]

theorem fence_waits (h : Acts s w) (hw : w.eng = .a) (hb : (hasParty s w.core scope = true ∧ (s.core w.core).doneA = false) ∨
    (1 ≤ kind ∧ (s.core w.core).as.xfers ≠ [])) : Waits (.fence kind scope) s w := by
  rw [Waits, fence_finish h hw, if_pos]
  · rfl
  · simpa [Bool.or_eq_true, Bool.and_eq_true] using hb

theorem spadj_finish (h : Acts s w) (hw : w.eng = .a) (hf : Full s w [30]) {t : Word}
    (ht : BitVec.ofInt 64 ((regOf s w 30).toNat + 16 * imm) = t) : exec (.spadj imm) s = finish w 4 s (
    if t.toNat < (s.core w.core).as.slim.toNat then .raise 0x12 t else .ok (putReg s w 30 t) .seq) := by
  subst ht
  change execSpadj imm s = _
  have hadd : regOf s w 30 + BitVec.ofInt 64 (16 * imm) = BitVec.ofInt 64 ((regOf s w 30).toNat + 16 * imm) := by
    rw [BitVec.ofInt_add, BitVec.ofInt_natCast, BitVec.ofNat_toNat, BitVec.setWidth_eq]
  rw [execSpadj, whoOn_acts h hw, needRegs_of_full _ hf, hadd]

theorem pghint_goes (h : Acts s w) (hw : w.eng = .a) (hst : Straight s w 4) : exec (.pghint queue dist) s =
    .next (s.coreGoes w { s.core w.core with as := { (s.core w.core).as with hint := tset (s.core w.core).as.hint queue dist } }) := by
  change execPghint queue dist s = _
  rw [execPghint, whoOn_acts h hw]
  exact finish_coreGoes hst rfl (by rw [stream_setAs]; rfl) (by rw [stream_setAs]; rfl)

/-! ## PASS (R222 to R225, R257) -/

theorem passM_finish (h : Acts s w) (hw : w.eng = .a) (hf : Full s w [a]) : exec (.passM a n) s = finish w 4 s
    (passRange (.passM a n) s w a n false (fun t =>
      match reserveGive s w 2 with
      | .error r => r
      | .ok s1 =>
        if (s.core w.core).a.pend.any (fun p => segsMeet p.op.segs [⟨.tile, 4096 * t, 4096 * n, plainAttr, 4096 * t, none⟩]) ||
            (s.core w.core).as.xfers.any (fun x => xferHits s w.core (4096 * t) (4096 * (t + n)) x.2) then .wait
        else .ok (s1.setStream w { s1.stream w with at_ := .pass t n }) (.stay .waiting))) := by
  change execPassM a n s = _
  rw [execPassM, whoOn_acts h hw, needRegs_of_full _ hf] <;> rfl

theorem passA_finish (h : Acts s w) (hw : w.eng = .a) (hf : Full s w [a]) : exec (.passA a n) s = finish w 4 s
    (passRange (.passA a n) s w a n true (fun t => .ok (s.setCore w.core { s.core w.core with
      ownM := (s.core w.core).ownM.filter (fun i => !(decide (t ≤ i) && decide (i < t + n))) }) .seq)) := by
  change execPassA a n s = _
  rw [execPassA, whoOn_acts h hw, needRegs_of_full _ hf]

theorem passRange_count {i : Instr} {byM : Bool} {k : Nat → Res} (h : n = 0 ∨ 128 < n) :
    passRange i s w a n byM k = .raise 0x02 (opTval i false 0) := by
  rw [passRange, if_pos (by simpa using h)]

theorem passRange_end {i : Instr} {byM : Bool} {k : Nat → Res} (h0 : 0 < n) (h128 : n ≤ 128) (h : 128 < (regOf s w a).toNat + n) :
    passRange i s w a n byM k = .raise 0x02 (opTval i false 13) := by
  rw [passRange, if_neg (by simp; omega), if_pos h]

/-- A range within the tile store, for an engine that is there. -/
theorem passRange_eq {i : Instr} {byM : Bool} {k : Nat → Res} (h0 : 0 < n) (h : (regOf s w a).toNat + n ≤ 128)
    (he : byM = true ∨ (s.core w.core).hasEngines [.m] = true) : passRange i s w a n byM k =
      match passRefused (s.core w.core) byM (regOf s w a).toNat n with
      | some (c, v) => .raise c v
      | none => k (regOf s w a).toNat := by
  have heng : ¬(!byM && !enginesOk s w [.m]) = true := by
    rcases he with rfl | he
    · simp
    · simp [enginesOk, he]
  rw [passRange, if_neg (by simp; omega), if_neg (by omega), if_neg heng] <;> rfl

/-- The first tile of the other owner in a range of the tile store. -/
theorem passRefused_first {k : Core} {byM : Bool} {t i : Nat} (hlo : t ≤ i) (hhi : i < t + n) (h128 : t + n ≤ 128)
    (hi : k.ownM.contains i ≠ byM) (hfirst : ∀ j, t ≤ j → j < i → k.ownM.contains j = byM) :
    passRefused k byM t n = some (0x16, BitVec.ofNat 64 (4096 * i)) := by
  have hfind : (List.range n).find? ((fun i => k.ownM.contains i != byM) ∘ fun i => t + i) = some (i - t) := by
    rw [List.find?_range_eq_some]
    refine ⟨?_, List.mem_range.mpr (by omega), fun j hj => ?_⟩
    · simp only [Function.comp_apply, Nat.add_sub_cancel' hlo]
      exact bne_iff_ne.mpr hi
    · simp only [Function.comp_apply, Bool.not_eq_true', bne_eq_false_iff_eq]
      exact hfirst _ (Nat.le_add_right _ _) (by omega)
  have haddr : accTval false (4096 * i) = BitVec.ofNat 64 (4096 * i) := by
    rw [accTval, if_neg Bool.false_ne_true, Nat.zero_add, Nat.mod_eq_of_lt (by omega)]
  rw [passRefused, List.find?_map, hfind, Option.map_some, Option.map_some, Nat.add_sub_cancel' hlo, haddr]

theorem passRefused_none {k : Core} {byM : Bool} {t : Nat} (h : ∀ i, t ≤ i → i < t + n → k.ownM.contains i = byM) :
    passRefused k byM t n = none := by
  have hfind : (List.range n).find? ((fun i => k.ownM.contains i != byM) ∘ fun i => t + i) = none := by
    rw [List.find?_eq_none]
    intro j hj
    have hjn := List.mem_range.mp hj
    simp only [Function.comp_apply, bne_iff_ne, ne_eq, not_not]
    exact h _ (Nat.le_add_right _ _) (by omega)
  rw [passRefused, List.find?_map, hfind]
  rfl

theorem passA_refused {i : Nat} (h : Acts s w) (hw : w.eng = .a) (hf : Full s w [a]) (h0 : 0 < n) (hend : (regOf s w a).toNat + n ≤ 128)
    (hlo : (regOf s w a).toNat ≤ i) (hhi : i < (regOf s w a).toNat + n) (hi : i ∉ (s.core w.core).ownM)
    (hfirst : ∀ j, (regOf s w a).toNat ≤ j → j < i → j ∈ (s.core w.core).ownM) :
    Traps (.passA a n) s w 0x16 (BitVec.ofNat 64 (4096 * i)) := by
  rw [Traps, passA_finish h hw hf, passRange_eq h0 hend (.inl rfl),
    passRefused_first hlo hhi hend (by simpa using hi) fun j h1 h2 => by simpa using hfirst j h1 h2]
  rfl

theorem passA_passes (h : Acts s w) (hw : w.eng = .a) (hst : Straight s w 4) (hf : Full s w [a]) (h0 : 0 < n)
    (hend : (regOf s w a).toNat + n ≤ 128)
    (hown : ∀ i, (regOf s w a).toNat ≤ i → i < (regOf s w a).toNat + n → i ∈ (s.core w.core).ownM) :
    exec (.passA a n) s = .next (s.coreGoes w { s.core w.core with ownM := (s.core w.core).ownM.filter (fun i =>
      !(decide ((regOf s w a).toNat ≤ i) && decide (i < (regOf s w a).toNat + n))) }) := by
  rw [passA_finish h hw hf, passRange_eq h0 hend (.inl rfl), passRefused_none fun i h1 h2 => by simpa using hown i h1 h2]
  exact finish_coreGoes hst rfl (by rw [← State.stream_core, hw]; rfl) (by rw [← State.stream_core, hw]; rfl)

theorem passM_noEngine (h : Acts s w) (hw : w.eng = .a) (hf : Full s w [a]) (h0 : 0 < n) (hend : (regOf s w a).toNat + n ≤ 128)
    (he : (s.core w.core).hasEngines [.m] = false) : Traps (.passM a n) s w 0x02 (opTval (.passM a n) false 12) := by
  rw [Traps, passM_finish h hw hf, passRange, if_neg (by simp; omega), if_neg (by omega), if_pos (by simp [enginesOk, he])]
  rfl

theorem passM_refused {i : Nat} (h : Acts s w) (hw : w.eng = .a) (hf : Full s w [a]) (h0 : 0 < n) (hend : (regOf s w a).toNat + n ≤ 128)
    (he : (s.core w.core).hasEngines [.m] = true)
    (hlo : (regOf s w a).toNat ≤ i) (hhi : i < (regOf s w a).toNat + n) (hi : i ∈ (s.core w.core).ownM)
    (hfirst : ∀ j, (regOf s w a).toNat ≤ j → j < i → j ∉ (s.core w.core).ownM) :
    Traps (.passM a n) s w 0x16 (BitVec.ofNat 64 (4096 * i)) := by
  rw [Traps, passM_finish h hw hf, passRange_eq h0 hend (.inr he),
    passRefused_first hlo hhi hend (by simpa using hi) fun j h1 h2 => by simpa using hfirst j h1 h2]
  rfl

section
variable (h : Acts s w) (hw : w.eng = .a) (hf : Full s w [a]) (h0 : 0 < n) (hend : (regOf s w a).toNat + n ≤ 128)
  (he : (s.core w.core).hasEngines [.m] = true)
  (hown : ∀ i, (regOf s w a).toNat ≤ i → i < (regOf s w a).toNat + n → i ∉ (s.core w.core).ownM)
include h hw hf h0 hend he hown

/-- A PASS of A's own tiles without a slot of am. -/
theorem passM_noSlot {r : Res} (hr : reserveGive s w 2 = .error r) : exec (.passM a n) s = finish w 4 s r := by
  rw [passM_finish h hw hf, passRange_eq h0 hend (.inr he), passRefused_none fun i h1 h2 => by simpa using hown i h1 h2]
  simp only [hr]

/-- A PASS of A's own tiles with a slot of am, and nothing of A under way. -/
theorem passM_stands {u : State} (hr : reserveGive s w 2 = .ok u) (hpend : (s.core w.core).a.pend = []) (hx : (s.core w.core).as.xfers = []) :
    exec (.passM a n) s = finish w 4 s (.ok (u.setStream w { u.stream w with at_ := .pass (regOf s w a).toNat n }) (.stay .waiting)) := by
  rw [passM_finish h hw hf, passRange_eq h0 hend (.inr he), passRefused_none fun i h1 h2 => by simpa using hown i h1 h2]
  simp only [hr, hpend, hx, List.any_nil, Bool.or_self, Bool.false_eq_true, if_false]

end

theorem giveFifos_am (hw : w.eng = .a) : giveFifos w.eng 2 = [1] := by rw [hw]; rfl

theorem reserveGive_full (hw : w.eng = .a) (hfull : (s.core w.core).fullFifo [1] ≠ none) :
    reserveGive s w 2 = .error (if (s.stream w).gauge then .raise 0x07 1 else .wait) := by
  have hone : (s.core w.core).fullFifo [1] = some 1 := by
    simp only [Core.fullFifo, List.find?_cons, List.find?_nil] at hfull ⊢
    split at hfull
    · simp_all
    · exact absurd rfl hfull
  simp only [reserveGive, giveFifos_am hw, hone]
  rfl

theorem reserveGive_am (hw : w.eng = .a) (hroom : (s.core w.core).fullFifo [1] = none) : reserveGive s w 2 =
    .ok (s.setCore w.core { s.core w.core with reserved := tset (s.core w.core).reserved 1 ((s.core w.core).slots 1 + 1) }) := by
  simp only [reserveGive, giveFifos_am hw, hroom]
  rfl

/-! ## PASS_FLIP (R223, R224) -/

/-- The core once a PASS toward M has flipped the owners and given its am token. -/
def Core.flipped (k : Core) (t n : Nat) : Core :=
  { k with
    reserved := tset k.reserved 1 (k.slots 1 - 1), tokens := tset k.tokens 1 (k.token 1 + 1),
    ownM := (List.range n).map (fun i => t + i) ++ k.ownM }

theorem mem_flipped (k : Core) (t n i : Nat) : i ∈ (k.flipped t n).ownM ↔ i ∈ k.ownM ∨ (t ≤ i ∧ i < t + n) := by
  have hrange : (∃ j, j < n ∧ t + j = i) ↔ t ≤ i ∧ i < t + n :=
    ⟨fun ⟨j, hj, he⟩ => by omega, fun ⟨hlo, hhi⟩ => ⟨i - t, by omega, by omega⟩⟩
  simp only [Core.flipped, List.mem_append, List.mem_map, List.mem_range, hrange, or_comm]

theorem passFlip_flips {t : Nat} (hw : w.eng = .a) (hc : w.core < 512) (hs : s.still w.core = false) (hat : (s.stream w).at_ = .pass t n)
    (hst : Straight s w 4) : exec (.passFlip w.core) s =
      .next ((s.setCore w.core ((s.core w.core).flipped t n)).goTo w (s.pcOf w + 4)) := by
  obtain ⟨c, e⟩ := w
  subst hw
  change execPassFlip c s = _
  have hret : retire ⟨c, .a⟩ 4 (s.setCore c ((s.core c).flipped t n)) = _ :=
    retire_stays (s := s) hst (by rw [State.stream_setCore_self]; rfl) (by rw [State.stream_setCore_self]; rfl)
  simp only [execPassFlip, coreExists, hc, hat, hs, decide_true, Bool.not_true, Bool.false_eq_true, if_false]
  exact congrArg _ hret

end

/-- Settles O37, form by form. -/
theorem fencesAndPasses : Obligations.FencesAndPasses := by
  unfold Obligations.FencesAndPasses
  refine fun s w a n kind scope queue dist imm hw => ⟨fun hact hst hfull => ?_, fun t m hc hs hat hst => ?_⟩
  · have hfa : Full s w [a] := fun n hn => hfull n (by simp_all)
    have hf30 : Full s w [30] := fun n hn => hfull n (by simp_all)
    refine ⟨fun hp hx => ⟨fence_goes hact hw hst hp hx, fence_commits hact hw hp hx⟩, fence_waits hact hw, fun hlim => ?_, fun hlim => ?_,
      pghint_goes hact hw hst, fun h => ⟨?_, ?_⟩, fun h0 h128 h => ⟨?_, ?_⟩, fun h0 hend =>
        ⟨fun i => passA_refused hact hw hfa h0 hend, passA_passes hact hw hst hfa h0 hend, passM_noEngine hact hw hfa h0 hend, fun he =>
          ⟨fun i => passM_refused hact hw hfa h0 hend he, fun hown hfull => ⟨fun hg => ?_, fun hg => ?_⟩, fun hown hroom hpend hx => ?_⟩⟩⟩
    · rw [Traps, spadj_finish hact hw hf30 rfl, if_pos hlim]; rfl
    · rw [WritesReg, spadj_finish hact hw hf30 rfl, if_neg (Nat.not_lt.mpr hlim)]
      exact finish_putReg hst (hf30 30 (by simp))
    · rw [Traps, passM_finish hact hw hfa, passRange_count h]; rfl
    · rw [Traps, passA_finish hact hw hfa, passRange_count h]; rfl
    · rw [Traps, passM_finish hact hw hfa, passRange_end h0 h128 h]; rfl
    · rw [Traps, passA_finish hact hw hfa, passRange_end h0 h128 h]; rfl
    · rw [Traps, passM_noSlot hact hw hfa h0 hend he hown (reserveGive_full hw hfull), if_pos hg]; rfl
    · exact (passM_noSlot hact hw hfa h0 hend he hown (reserveGive_full hw hfull)).trans (by rw [if_neg (by simp [hg])]; rfl)
    · have hpend' : (s.core w.core).a.pend = [] := by rw [← hpend, ← State.stream_core, hw]; rfl
      rw [passM_stands hact hw hfa h0 hend he hown (reserveGive_am hw hroom) hpend' hx]
      simp only [finish, standAs]
      simp [State.setStream, State.stream, hw]
      rfl
  · have hcore := core_coreGoes_a s ((s.core w.core).flipped t m) hw
    have ha : (s.core w.core).a = s.stream w := by rw [← State.stream_core, hw]; rfl
    refine ⟨s.coreGoes w ((s.core w.core).flipped t m), passFlip_flips hw hc hs hat hst, fun i => ?_, ?_, ?_, ?_, ?_⟩
    · rw [hcore]
      exact mem_flipped _ _ _ _
    · rw [hcore]; exact tget_tset_self _ _ _ _
    · rw [hcore]; exact tget_tset_self _ _ _ _
    · exact onlyCore_coreGoes _ _ _
    · rw [hcore, ← ha]
      simp only [State.runNext, State.pcOf, ← ha]
      rfl

end Sys2Proof.Machine
end

section
/-! SUPPORT. OPEN, CLOSE, BIND and REBIND at issue (R397 to R400), and the obligation about them. -/

namespace Sys2Proof.Machine

section
variable {s : State} {w : Who} {h d a b n : Nat} {wait : Bool}

/-! ## Stands at an act -/

/-- A form that stands at an act in a state that it has reached. -/
theorem finish_standsAt (s u : State) (m : Meet) (len : Nat) :
    finish w len s (.ok (standAtAct u w m) (.stay .waiting)) = .next (u.standsAt w m) := by
  simp [finish, standAs, standAtAct, State.standsAt]

theorem finish_toAct (s u : State) (m : Meet) (len : Nat) :
    finish w len s (toAct u w m) = .next ((dropReqs u (.instr w.core w.eng)).standsAt w m) := finish_standsAt _ _ _ _

theorem finish_forget_toAct (s u : State) (m : Meet) (hw : w.eng = .a) :
    finish w 4 s (forgetReads s w (toAct u w m)) = .next ((dropReqs u (.instr w.core .a)).standsAt w m) := by
  rw [← hw, ← finish_toAct s u m 4]
  rfl

theorem finish_forget_raiseIn (s u : State) (cause : Nat) (tval : Word) (hw : w.eng = .a) :
    finish w 4 s (forgetReads s w (.raiseIn u cause tval)) = .next (takeTrap (dropReqs u (.instr w.core .a)) w cause tval) := by
  rw [← hw]
  rfl

theorem finish_toCommit (s : State) (len : Nat) : finish w len s (toCommit s w) = .next (s.standsAt w .committing) := by
  simp [finish, toCommit, standAs, State.standsAt]

/-! ## Parts of a read in this package -/

/-- The pieces of a part have its home. -/
theorem isRemote_of_mem_pieces : ∀ (f : Nat) (g : Seg), ∀ x ∈ pieces f g, x.isRemote = g.isRemote
  | 0, _, _, hx => absurd hx List.not_mem_nil
  | f + 1, g, x, hx => by
    rw [pieces] at hx
    by_cases hl : g.len ≤ 512
    · rw [if_pos hl, List.mem_singleton] at hx
      rw [hx]
    · rw [if_neg hl, List.mem_cons] at hx
      rcases hx with rfl | hx
      · rfl
      · exact isRemote_of_mem_pieces f { g with addr := g.addr + 512, len := g.len - 512, tv := g.tv + 512 } x hx

theorem here_pieces {parts : List Seg} (h : Here parts) : Here (parts.flatMap (fun g => pieces (g.len / 512 + 1) g)) := by
  intro x hx
  obtain ⟨g, hg, hxg⟩ := List.mem_flatMap.mp hx
  rw [isRemote_of_mem_pieces _ g x hxg, h g hg]

/-- A read that is answered from this package goes on with its bytes. -/
theorem readKept_eq {s0 s2 : State} {va : Nat} {l : List Byte} (hw : w.eng = .a) (h : ReadsAs s w.core va n l s2)
    (k : List Byte → State → Res) : readKept s0 s w va n k = k l s2 := by
  obtain ⟨parts, s1, hopen, hhere, hgather⟩ := h
  have hmissing : (parts.flatMap (fun g => pieces (g.len / 512 + 1) g)).filter
      (fun g => g.isRemote && (findRead s (.instr w.core .a) g).isNone) = [] := by
    rw [List.filter_eq_nil_iff]
    intro g hg
    simp [here_pieces hhere g hg]
  rw [readKept, hopen]
  dsimp only
  rw [hw, hmissing, hgather]
  rfl

/-! ## OPEN and CLOSE (R397, R399) -/

theorem openH_finish (hact : Acts s w) (hw : w.eng = .a) (hf : Full s w [a]) : exec (.openH h a d wait) s = finish w 4 s (
    if (handleSlot s w h).isSome then .raise 0x02 (opTval (.openH h a d wait) false 19)
    else if !(s.stream w).full d then .wait
    else .ok (standAtAct s w (.dirOpen h (regOf s w a) d wait)) (.stay .waiting)) := by
  change execOpenH h a d wait s = _
  rw [execOpenH, whoOn_acts hact hw, needRegs_of_full _ hf]

theorem closeH_invalid (hact : Acts s w) (hw : w.eng = .a) (hs : handleSlot s w h = none) :
    Traps (.closeH h) s w 0x15 (accTval false (32 + h)) := by
  change execCloseH h s = _
  rw [execCloseH, whoOn_acts hact hw, hs]
  rfl

theorem closeH_finish {slot : Nat} (hact : Acts s w) (hw : w.eng = .a) (hs : handleSlot s w h = some slot) :
    exec (.closeH h) s = finish w 4 s (
      if (s.core w.core).a.pend.any (fun p => p.op.segs.any (fun g => g.slot == some slot)) ||
        (s.core w.core).as.xfers.any (fun p => p.2.op.usesSlot slot) then .wait
      else if (s.core w.core).det.writes.any (fun d => d.seg.slot == some slot) then toCommit s w
      else .ok (standAtAct s w (.dirClose h)) (.stay .waiting)) := by
  change execCloseH h s = _
  rw [execCloseH, whoOn_acts hact hw, hs]

/-- CLOSE of a handle on which no access and no transfer is based. -/
theorem closeH_free {slot : Nat} (hact : Acts s w) (hw : w.eng = .a) (hs : handleSlot s w h = some slot)
    (hp : ∀ p ∈ (s.core w.core).a.pend, ¬∃ g ∈ p.op.segs, g.slot = some slot)
    (hx : ∀ p ∈ (s.core w.core).as.xfers, p.2.op.usesSlot slot = false) :
    exec (.closeH h) s = finish w 4 s (
      if (s.core w.core).det.writes.any (fun d => d.seg.slot == some slot) then toCommit s w
      else .ok (standAtAct s w (.dirClose h)) (.stay .waiting)) := by
  rw [closeH_finish hact hw hs, if_neg]
  simp only [Bool.or_eq_true, List.any_eq_true, beq_iff_eq]
  rintro (⟨p, hpm, g, hg, hgs⟩ | ⟨p, hpm, hu⟩)
  · exact hp p hpm ⟨g, hg, hgs⟩
  · rw [hx p hpm] at hu
    exact absurd hu (by decide)

/-! ## BIND and REBIND (R398, R400) -/

theorem binderForm_unbound {i : Instr} {regs : List Nat} {act : State → Who → Res} {early : State → Who → Option Res}
    (hact : Acts s w) (hw : w.eng = .a) (hb : (s.ctx (s.core w.core).ctx).binder = false) :
    binderForm i regs act early s = .next (takeTrap s w 0x03 (firstWord i)) := by
  rw [binderForm, whoOn_acts hact hw, hb]
  rfl

theorem binderForm_eq {i : Instr} {regs : List Nat} {act : State → Who → Res} {early : State → Who → Option Res}
    (hact : Acts s w) (hw : w.eng = .a) (hf : Full s w regs) (hb : (s.ctx (s.core w.core).ctx).binder = true) :
    binderForm i regs act early s = finish w 4 s ((early s w).getD
      (if !(s.core w.core).doneA || !(s.core w.core).as.xfers.isEmpty then .wait else act s w)) := by
  rw [binderForm, whoOn_acts hact hw, hb, needRegs_of_full _ hf]
  cases early s w <;> rfl

theorem bind_exec : exec (.bind d a b) s = execBind d a b s := rfl

theorem rebind_exec : exec (.rebind d a b) s = execRebind d a b s := rfl

/-- What BIND does with the bytes of its descriptor. -/
def bindMade (s s1 : State) (w : Who) (d a : Nat) (l : List Byte) (m : Made) : Res :=
  match m with
  | .fault cause addr => .raiseIn (walkedExtent s w.core l) cause (accTval false addr)
  | .status st => toAct (walkedExtent s1 w.core l) w (.dirBind d (regOf s w a) none st)
  | .obj o => toAct (walkedExtent s1 w.core l) w (.dirBind d (regOf s w a) (some o) 0)

theorem bind_reads {l : List Byte} {s2 : State} (hact : Acts s w) (hw : w.eng = .a) (hf : Full s w [a, b])
    (hb : (s.ctx (s.core w.core).ctx).binder = true) (hdone : (s.core w.core).doneA = true) (hx : (s.core w.core).as.xfers = [])
    (hr : ReadsAs s w.core (regOf s w b).toNat 48 l s2) :
    exec (.bind d a b) s = finish w 4 s (forgetReads s w (bindMade s s2 w d a l (makeObj s2 w.core l))) := by
  rw [bind_exec, execBind, binderForm_eq hact hw hf hb, hdone, hx, readKept_eq hw hr]
  rfl

/-- The number of pairs is out of its range. -/
theorem rebind_count (hact : Acts s w) (hw : w.eng = .a) (hf : Full s w [a, b]) (hb : (s.ctx (s.core w.core).ctx).binder = true)
    (hn : (regOf s w b).toNat = 0 ∨ 16 < (regOf s w b).toNat) :
    Traps (.rebind d a b) s w 0x02 (opTval (.rebind d a b) false 7) := by
  rw [Traps, rebind_exec, execRebind, binderForm_eq hact hw hf hb, if_pos (by simpa using hn)]
  rfl

theorem rebind_waits (hact : Acts s w) (hw : w.eng = .a) (hf : Full s w [a, b]) (hb : (s.ctx (s.core w.core).ctx).binder = true)
    (h0 : 0 < (regOf s w b).toNat) (h16 : (regOf s w b).toNat ≤ 16)
    (hbusy : (s.core w.core).doneA = false ∨ (s.core w.core).as.xfers ≠ []) : Waits (.rebind d a b) s w := by
  rw [Waits, rebind_exec, execRebind, binderForm_eq hact hw hf hb, if_neg (by simp; omega), Option.getD_none, if_pos]
  · rfl
  · simpa using hbusy

theorem bind_waits (hact : Acts s w) (hw : w.eng = .a) (hf : Full s w [a, b]) (hb : (s.ctx (s.core w.core).ctx).binder = true)
    (hbusy : (s.core w.core).doneA = false ∨ (s.core w.core).as.xfers ≠ []) : Waits (.bind d a b) s w := by
  rw [Waits, bind_exec, execBind, binderForm_eq hact hw hf hb, Option.getD_none, if_pos]
  · rfl
  · simpa using hbusy

/-- What REBIND does with the descriptors of its pairs. -/
def rebindMade (w : Who) (d : Nat) (ps : List (Word × List Byte)) (s2 : State) : Res :=
  match checkPairs s2 w.core [] ps with
  | .error (cause, addr) => .raiseIn (walkedPairs w.core [] ps s2) cause (accTval false addr)
  | .ok l => toAct (walkedPairs w.core [] ps s2) w (.dirRebind d l)

theorem rebind_reads {l : List Byte} {s2 : State} (hact : Acts s w) (hw : w.eng = .a) (hf : Full s w [a, b])
    (hb : (s.ctx (s.core w.core).ctx).binder = true) (hdone : (s.core w.core).doneA = true) (hx : (s.core w.core).as.xfers = [])
    (h0 : 0 < (regOf s w b).toNat) (h16 : (regOf s w b).toNat ≤ 16)
    (hr : ReadsAs s w.core (regOf s w a).toNat (16 * (regOf s w b).toNat) l s2) :
    exec (.rebind d a b) s = finish w 4 s (forgetReads s w (readDescs s w (pairsOf l (regOf s w b).toNat) s2 (rebindMade w d))) := by
  rw [rebind_exec, execRebind, binderForm_eq hact hw hf hb, hdone, hx, if_neg (by simp; omega)]
  dsimp only
  rw [Option.getD_none, if_neg (by decide), readKept_eq hw hr]
  rfl

/-- Pairs that name no descriptor read nothing. -/
theorem readDescs_unbinds (s0 : State) : ∀ (ps : List (Word × Nat)) (s : State) (k : List (Word × List Byte) → State → Res),
    (∀ p ∈ ps, p.2 = 0) → readDescs s0 w ps s k = k (ps.map (fun p => (p.1, []))) s
  | [], _, _, _ => rfl
  | (name, addr) :: t, s, k, h => by
    have h0 : addr = 0 := h _ List.mem_cons_self
    rw [readDescs, if_pos h0, readDescs_unbinds s0 t s _ fun p hp => h p (List.mem_cons_of_mem _ hp)]
    rfl

theorem checkPairs_unbinds (s : State) (c : Nat) : ∀ (ps : List (Word × Nat)) (seen : List Word),
    (ps.map Prod.fst).Nodup → (∀ p ∈ ps, p.1 ∉ seen) →
    checkPairs s c seen (ps.map (fun p => (p.1, []))) = .ok (ps.map (fun p => (p.1, 0, none)))
  | [], _, _, _ => rfl
  | (name, addr) :: t, seen, hnd, hseen => by
    obtain ⟨hne, hnd⟩ := List.nodup_cons.mp hnd
    have hnew : seen.contains name = false := by simpa using hseen _ List.mem_cons_self
    have hrest := checkPairs_unbinds s c t (name :: seen) hnd fun p hp hin => by
      rcases List.mem_cons.mp hin with heq | hin
      · exact hne (List.mem_map.mpr ⟨p, hp, heq⟩)
      · exact hseen p (List.mem_cons_of_mem _ hp) hin
    rw [List.map_cons, checkPairs]
    simp only [hnew, Bool.false_eq_true, if_false, List.isEmpty_nil, if_true, hrest]
    rfl

theorem walkedPairs_unbinds (c : Nat) : ∀ (ps : List (Word × Nat)) (seen : List Word) (s : State),
    walkedPairs c seen (ps.map (fun p => (p.1, []))) s = s
  | [], _, _ => rfl
  | (name, addr) :: t, seen, s => by
    rw [List.map_cons, walkedPairs, walkedPairs_unbinds c t (name :: seen) s]
    simp

theorem rebindMade_unbinds {ps : List (Word × Nat)} (s2 : State) (h : (ps.map Prod.fst).Nodup) :
    rebindMade w d (ps.map (fun p => (p.1, []))) s2 = toAct s2 w (.dirRebind d (ps.map (fun p => (p.1, 0, none)))) := by
  rw [rebindMade, checkPairs_unbinds _ _ _ _ h fun _ _ => List.not_mem_nil, walkedPairs_unbinds]

/-- One pair that binds a name to the object of a descriptor. -/
theorem rebindMade_binds {nm : Word} {l : List Byte} {o : ObjDesc} (s3 : State) (hl : l ≠ []) (ho : makeObj s3 w.core l = .obj o) :
    rebindMade w d [(nm, l)] s3 = toAct (walkedExtent s3 w.core l) w (.dirRebind d [(nm, 1, some o)]) := by
  have hemp : l.isEmpty = false := by simpa using hl
  simp only [rebindMade, checkPairs, walkedPairs, List.contains_nil, Bool.false_eq_true, if_false, hemp, ho]

end

/-- Settles O43, form by form. -/
theorem directoryForms : Obligations.DirectoryForms := by
  unfold Obligations.DirectoryForms
  intro s w h d a b wait hact hw hfull
  have hfa : Full s w [a] := fun n hn => hfull n (by simp_all)
  refine ⟨fun hs => ?_, fun hs hd => ?_, fun hs hd => ?_, fun hs => closeH_invalid hact hw hs, fun slot hs => ⟨fun hb => ?_,
    fun hp hx => ⟨fun hb => ?_, fun hb => ?_⟩⟩, fun hb i hi => ?_, fun hb => ⟨fun hn => rebind_count hact hw hfull hb hn,
    fun hbusy => ⟨bind_waits hact hw hfull hb hbusy, fun h0 h16 => rebind_waits hact hw hfull hb h0 h16 hbusy⟩,
    fun hdone hx => ⟨fun l s2 hr => ⟨fun o ho => ?_, fun st ho => ?_, fun cause addr ho => ?_⟩,
      fun l s2 h0 h16 hr => ⟨fun hz hnd => ?_, fun nm addr l2 s3 o hn hp ha hr2 hl2 ho => ?_⟩⟩⟩⟩
  · rw [Traps, openH_finish hact hw hfa, if_pos hs]
    rfl
  · rw [Waits, openH_finish hact hw hfa, hs, hd]
    rfl
  · rw [openH_finish hact hw hfa, hs, hd]
    exact finish_standsAt _ _ _ _
  · rw [Waits, closeH_finish hact hw hs, if_pos]
    · rfl
    · rcases hb with ⟨p, hp, g, hg, hgs⟩ | hx
      · simp only [Bool.or_eq_true, List.any_eq_true, beq_iff_eq]
        exact .inl ⟨p, hp, g, hg, hgs⟩
      · simp only [Bool.or_eq_true, List.any_eq_true]
        exact .inr hx
  · rw [closeH_free hact hw hs hp hx, if_pos, finish_toCommit]
    obtain ⟨g, hg, hgs⟩ := hb
    obtain ⟨x, hxm, rfl⟩ := List.mem_map.mp hg
    simp only [List.any_eq_true, beq_iff_eq]
    exact ⟨x, hxm, hgs⟩
  · rw [closeH_free hact hw hs hp hx, if_neg, finish_standsAt]
    simp only [List.any_eq_true, beq_iff_eq]
    rintro ⟨x, hxm, hgs⟩
    exact hb ⟨_, List.mem_map_of_mem hxm, hgs⟩
  · simp only [List.mem_cons, List.not_mem_nil, or_false] at hi
    rcases hi with rfl | rfl
    · rw [Traps, bind_exec, execBind, binderForm_unbound hact hw hb]
    · rw [Traps, rebind_exec, execRebind, binderForm_unbound hact hw hb]
  · refine (bind_reads hact hw hfull hb hdone hx hr).trans ?_
    rw [ho]
    exact finish_forget_toAct _ _ _ hw
  · refine (bind_reads hact hw hfull hb hdone hx hr).trans ?_
    rw [ho]
    exact finish_forget_toAct _ _ _ hw
  · refine (bind_reads hact hw hfull hb hdone hx hr).trans ?_
    rw [ho]
    exact finish_forget_raiseIn _ _ _ _ hw
  · rw [rebind_reads hact hw hfull hb hdone hx h0 h16 hr, readDescs_unbinds _ _ _ _ hz, rebindMade_unbinds _ hnd]
    exact finish_forget_toAct _ _ _ hw
  · rw [rebind_reads hact hw hfull hb hdone hx h0 h16 hr, hp, readDescs, if_neg ha, readKept_eq hw hr2, readDescs,
      rebindMade_binds _ hl2 ho]
    exact finish_forget_toAct _ _ _ hw

end Sys2Proof.Machine
end

section
/-! SUPPORT. What the shared operations on memory, requests and the device's own writes leave alone, once for every form. -/

namespace Sys2Proof.Machine

/-! ## Requests (R443) -/

theorem requestRuns_frame (c : Nat) (owner : Owner) : ∀ (l : List (Seg × List Byte)) (s : State),
    ∃ R N F, requestRuns c owner l s = { s with requests := R, nextTid := N, toFabric := F }
  | [], s => ⟨s.requests, s.nextTid, s.toFabric, rfl⟩
  | (_, _) :: t, _ => by
    obtain ⟨R, N, F, h⟩ := requestRuns_frame c owner t _
    exact ⟨R, N, F, h⟩

theorem requestReads_frame (c : Nat) (owner : Owner) : ∀ (l : List Seg) (s : State),
    ∃ R N F, requestReads c owner l s = { s with requests := R, nextTid := N, toFabric := F }
  | [], s => ⟨s.requests, s.nextTid, s.toFabric, rfl⟩
  | g :: t, s => by
    obtain ⟨R, N, F, h⟩ := requestReads_frame c owner t (if g.isRemote then requestRead s c owner g else s)
    cases hg : g.isRemote
    · rw [requestReads, h, hg]
      exact ⟨R, N, F, rfl⟩
    · rw [requestReads, h, hg]
      exact ⟨R, N, F, rfl⟩

theorem requestWrites_frame (c : Nat) (owner : Owner) : ∀ (l : List Seg) (data : List Byte) (mask : List Bool) (s : State),
    ∃ R N F, requestWrites c owner l data mask s = { s with requests := R, nextTid := N, toFabric := F }
  | [], _, _, s => ⟨s.requests, s.nextTid, s.toFabric, rfl⟩
  | g :: t, data, mask, s => by
    cases hg : g.isRemote
    · obtain ⟨R, N, F, h⟩ := requestWrites_frame c owner t (data.drop g.len) (mask.drop g.len) s
      exact ⟨R, N, F, by rw [requestWrites, hg]; exact h⟩
    · obtain ⟨R, N, F, h⟩ := requestRuns_frame c owner (maskedRuns g 0 (data.take g.len) (mask.take g.len)) s
      obtain ⟨R', N', F', h'⟩ := requestWrites_frame c owner t (data.drop g.len) (mask.drop g.len)
        (requestRuns c owner (maskedRuns g 0 (data.take g.len) (mask.take g.len)) s)
      refine ⟨R', N', F', ?_⟩
      rw [requestWrites, hg]
      exact h'.trans (by rw [h])

/-! ## Stores and walks (R333, R357, R383) -/

theorem lineStored_frame (cmp : Bool) (pa : Nat) (mask : List Bool) (s : State) (line : Nat) :
    ∃ T B C, lineStored cmp pa mask s line = { s with tags := T, badMem := B, counters := C } := by
  rw [lineStored]
  split
  · exact ⟨_, _, _, rfl⟩
  · split
    · exact ⟨_, _, _, rfl⟩
    · exact ⟨_, _, s.counters, rfl⟩

theorem linesStored_frame (cmp : Bool) (pa : Nat) (mask : List Bool) : ∀ (l : List Nat) (s : State),
    ∃ T B C, linesStored cmp pa mask l s = { s with tags := T, badMem := B, counters := C }
  | [], s => ⟨s.tags, s.badMem, s.counters, rfl⟩
  | a :: t, s => by
    obtain ⟨T, B, C, h⟩ := lineStored_frame cmp pa mask s a
    obtain ⟨T', B', C', h'⟩ := linesStored_frame cmp pa mask t (lineStored cmp pa mask s a)
    exact ⟨T', B', C', by rw [linesStored, h', h]⟩

/-- A store of this package writes its masked bytes, and else only the marks and counters of lines. -/
theorem storeLocal_frame (s : State) (cmp : Bool) (pa : Nat) (data : List Byte) (mask : List Bool) :
    ∃ T B C, storeLocal s cmp pa data mask =
      { s with mem := writeMasked s.mem pa data mask, tags := T, badMem := B, counters := C } := by
  rw [storeLocal]
  dsimp only
  split
  · obtain ⟨T, B, C, h⟩ := linesStored_frame cmp pa mask ((linesOf pa data.length).filter (fun l =>
      (List.range 128).any (fun j => covers pa mask (l + j)))) { s with mem := writeMasked s.mem pa data mask }
    exact ⟨T, B, C, h⟩
  · exact ⟨s.tags, _, s.counters, rfl⟩

theorem countWalks_frame (ctx : Nat) (use : Option Use) : ∀ (l : List (Nat × Nat)) (s : State),
    ∃ C, countWalks ctx use l s = { s with counters := C }
  | [], s => ⟨s.counters, rfl⟩
  | (va, _) :: t, s => by
    rw [countWalks]
    split
    · exact ⟨s.counters, rfl⟩
    · obtain ⟨C, hC⟩ := countReads_frame (walkLines s ctx (va % 2 ^ 57)) s
      cases walk s ctx (va % 2 ^ 57) with
      | error e => exact ⟨C, hC⟩
      | ok tr =>
        dsimp only
        split
        · exact ⟨C, hC⟩
        · obtain ⟨C', h'⟩ := countWalks_frame ctx use t (countReads (walkLines s ctx (va % 2 ^ 57)) s)
          exact ⟨C', by rw [h', hC]⟩

/-! ## The device's own writes (R367, R379, R401) -/

/-- A state with the parts that the device's own writes touch as another has them: memory with its marks, counters, messages, requests,
and the writes themselves. -/
def State.deviceOf (t s : State) : State :=
  { t with
    mem := s.mem, badMem := s.badMem, tags := s.tags, counters := s.counters, session := s.session, ring := s.ring,
    ringDropped := s.ringDropped, requests := s.requests, nextTid := s.nextTid, devWrites := s.devWrites, nextDev := s.nextDev,
    toFabric := s.toFabric, toHost := s.toHost }

/-- The second state differs from the first only in what the device's own writes touch; messages to the host only join those before
them, and memory keeps the canonical form. -/
structure DeviceOnly (s t : State) : Prop where
  frame : t.deviceOf s = s
  told : s.toHost <+: t.toHost
  wf : s.mem.wf = true → t.mem.wf = true

theorem DeviceOnly.quiet {s t : State} (h : t.deviceOf s = s) (ht : t.toHost = s.toHost) (hm : t.mem = s.mem := by rfl) :
    DeviceOnly s t := ⟨h, ht ▸ List.prefix_rfl, fun h => hm ▸ h⟩

theorem DeviceOnly.refl (s : State) : DeviceOnly s s := .quiet rfl rfl

theorem DeviceOnly.trans {s t u : State} (h1 : DeviceOnly s t) (h2 : DeviceOnly t u) : DeviceOnly s u :=
  ⟨(congrArg (fun x : State => x.deviceOf s) h2.frame).trans h1.frame, h1.told.trans h2.told,
    fun h => h2.wf (h1.wf h)⟩

section
variable {s t : State}

theorem DeviceOnly.cores (h : DeviceOnly s t) : t.cores = s.cores := congrArg (a₁ := t.deviceOf s) State.cores h.frame
theorem DeviceOnly.core (h : DeviceOnly s t) (c : Nat) : t.core c = s.core c := by rw [State.core, h.cores, State.core]
theorem DeviceOnly.stream (h : DeviceOnly s t) (w : Who) : t.stream w = s.stream w := by
  rw [State.stream, h.core, State.stream]
theorem DeviceOnly.ctxs (h : DeviceOnly s t) : t.ctxs = s.ctxs := congrArg (a₁ := t.deviceOf s) State.ctxs h.frame
theorem DeviceOnly.ctx (h : DeviceOnly s t) (n : Nat) : t.ctx n = s.ctx n := by rw [State.ctx, h.ctxs, State.ctx]
theorem DeviceOnly.objs (h : DeviceOnly s t) : t.objs = s.objs := congrArg (a₁ := t.deviceOf s) State.objs h.frame
theorem DeviceOnly.entries (h : DeviceOnly s t) : t.entries = s.entries := congrArg (a₁ := t.deviceOf s) State.entries h.frame
theorem DeviceOnly.launches (h : DeviceOnly s t) : t.launches = s.launches := congrArg (a₁ := t.deviceOf s) State.launches h.frame
theorem DeviceOnly.lifelines (h : DeviceOnly s t) : t.lifelines = s.lifelines := congrArg (a₁ := t.deviceOf s) State.lifelines h.frame
theorem DeviceOnly.attached (h : DeviceOnly s t) : t.attached = s.attached := congrArg (a₁ := t.deviceOf s) State.attached h.frame
theorem DeviceOnly.recs (h : DeviceOnly s t) : t.recs = s.recs := congrArg (a₁ := t.deviceOf s) State.recs h.frame
theorem DeviceOnly.failedDies (h : DeviceOnly s t) : t.failedDies = s.failedDies :=
  congrArg (a₁ := t.deviceOf s) State.failedDies h.frame
theorem DeviceOnly.heat (h : DeviceOnly s t) : t.heat = s.heat := congrArg (a₁ := t.deviceOf s) State.heat h.frame
theorem DeviceOnly.endings (h : DeviceOnly s t) : t.endings = s.endings := congrArg (a₁ := t.deviceOf s) State.endings h.frame
theorem DeviceOnly.holds (h : DeviceOnly s t) : t.holds = s.holds := congrArg (a₁ := t.deviceOf s) State.holds h.frame

theorem toHost_say (s : State) (m : HostMsg) : s.toHost <+: (say s m).toHost := by
  rw [say]
  split
  · exact List.prefix_append _ _
  · split <;> exact List.prefix_rfl

theorem DeviceOnly.of_say (s : State) (m : HostMsg) : DeviceOnly s (say s m) := by
  refine ⟨?_, toHost_say s m, ?_⟩
  · obtain ⟨S, T, R, D, h⟩ := say_frame s m
    rw [h]
    rfl
  · obtain ⟨S, T, R, D, h⟩ := say_frame s m
    rw [h]
    exact id

theorem DeviceOnly.of_requestReads (c : Nat) (owner : Owner) (l : List Seg) (s : State) : DeviceOnly s (requestReads c owner l s) := by
  obtain ⟨R, N, F, h⟩ := requestReads_frame c owner l s
  rw [h]
  exact .quiet rfl rfl

theorem DeviceOnly.of_requestWrites (c : Nat) (owner : Owner) (l : List Seg) (data : List Byte) (mask : List Bool) (s : State) :
    DeviceOnly s (requestWrites c owner l data mask s) := by
  obtain ⟨R, N, F, h⟩ := requestWrites_frame c owner l data mask s
  rw [h]
  exact .quiet rfl rfl

theorem DeviceOnly.of_storeLocal (s : State) (cmp : Bool) (pa : Nat) (data : List Byte) (mask : List Bool) :
    DeviceOnly s (storeLocal s cmp pa data mask) := by
  obtain ⟨T, B, C, h⟩ := storeLocal_frame s cmp pa data mask
  rw [h]
  exact ⟨rfl, List.prefix_rfl, fun hm => wf_writeMasked hm⟩

theorem DeviceOnly.of_countReads (l : List Nat) (s : State) : DeviceOnly s (countReads l s) := by
  obtain ⟨C, h⟩ := countReads_frame l s
  rw [h]
  exact .quiet rfl rfl

theorem DeviceOnly.of_walkedParts (s : State) (ctx : Nat) (use : Use) (va n : Nat) : DeviceOnly s (walkedParts s ctx use va n) := by
  obtain ⟨C, h⟩ := countWalks_frame ctx (some use) (splitPages (n / 0x4000 + 2) va n) s
  rw [walkedParts, h]
  exact .quiet rfl rfl

theorem DeviceOnly.of_devStore : ∀ (l : List Seg) (data : List Byte) (s : State), DeviceOnly s (devStore l data s)
  | [], _, s => DeviceOnly.refl s
  | g :: t, data, s => by
    rw [devStore]
    refine DeviceOnly.trans ?_ (DeviceOnly.of_devStore t _ _)
    split
    · exact DeviceOnly.refl s
    · exact DeviceOnly.of_storeLocal _ _ _ _ _

theorem DeviceOnly.of_devWrite (s : State) (owner : Owner) (ctx va : Nat) (data : List Byte) :
    DeviceOnly s (devWrite s owner ctx va data).1 := by
  have hwalk := DeviceOnly.of_walkedParts s ctx .write va data.length
  rw [devWrite]
  split
  · exact hwalk
  · split
    · exact hwalk
    · refine hwalk.trans (DeviceOnly.trans ?_ (DeviceOnly.of_requestWrites _ _ _ _ _ _))
      exact DeviceOnly.trans (t := dropReqs _ owner) (.quiet rfl rfl) (DeviceOnly.of_devStore _ _ _)

theorem DeviceOnly.of_devEnd (s : State) (d : DevWrite) (done refused : Bool) : DeviceOnly s (devEnd s d done refused) := by
  rw [devEnd]
  split
  · exact .quiet rfl rfl
  · split
    · exact DeviceOnly.trans (t := dropReqs { s with devWrites := s.devWrites.drop 1 } (.device d.id)) (.quiet rfl rfl) (DeviceOnly.of_say _ _)
    · exact .quiet rfl rfl
  · exact DeviceOnly.trans (t := dropReqs { s with devWrites := s.devWrites.drop 1 } (.device d.id)) (.quiet rfl rfl) (DeviceOnly.of_say _ _)

/-- A write of the device's own that goes on, or ends because it cannot be written. -/
theorem DeviceOnly.of_devNext (s : State) (d : DevWrite) (phase : DevPhase) (owner : Owner) (va : Nat) (data : List Byte) :
    DeviceOnly s (if (devWrite s owner d.ctx va data).2 then devNext (devWrite s owner d.ctx va data).1 d phase
      else devEnd (devWrite s owner d.ctx va data).1 d false true) := by
  have hwrite := DeviceOnly.of_devWrite s owner d.ctx va data
  split
  · exact hwrite.trans (.quiet rfl rfl)
  · exact hwrite.trans (DeviceOnly.of_devEnd _ _ _ _)

theorem DeviceOnly.of_devAct {d : DevWrite} {u : State} (h : devAct s d = some u) : DeviceOnly s u := by
  rw [devAct] at h
  split at h
  · rw [← Option.some.inj h]
    exact DeviceOnly.of_devEnd _ _ _ _
  · have hacked : ∀ act : State, DeviceOnly s act → (match acksOf s (.device d.id) with
        | .open_ => none
        | .failed _ _ => some (devEnd s d false true)
        | .done => some act) = some u → DeviceOnly s u := by
      intro act hact hm
      split at hm
      · exact absurd hm (by simp)
      · rw [← Option.some.inj hm]
        exact DeviceOnly.of_devEnd _ _ _ _
      · rw [← Option.some.inj hm]
        exact hact
    split at h
    · next count hphase =>
      dsimp only at h
      split at h
      · rw [← Option.some.inj h]
        exact (DeviceOnly.of_walkedParts _ _ _ _ _).trans (DeviceOnly.of_devEnd _ _ _ _)
      · split at h
        · rw [← Option.some.inj h]
          exact (DeviceOnly.of_walkedParts _ _ _ _ _).trans (DeviceOnly.of_requestReads _ _ _ _)
        · split at h
          · exact absurd h (by simp)
          · rw [← Option.some.inj h]
            exact DeviceOnly.of_devEnd _ _ _ _
          · next segs _ _ _ hd _ =>
            have hcount : DeviceOnly s (countReads ((segs.filter (fun g => !g.isRemote && isStack g.addr)).flatMap
                (fun g => linesOf g.addr g.len)) (if segs.any Seg.isRemote then s else walkedParts s d.ctx .read d.base 16)) := by
              refine DeviceOnly.trans ?_ (DeviceOnly.of_countReads _ _)
              split
              · exact DeviceOnly.refl s
              · exact DeviceOnly.of_walkedParts _ _ _ _ _
            split at h
            · rw [← Option.some.inj h]
              exact hcount.trans (DeviceOnly.of_devNext _ _ _ _ _ _)
            · rw [← Option.some.inj h]
              exact hcount.trans (DeviceOnly.of_devNext _ _ _ _ _ _)
    · exact hacked _ (DeviceOnly.of_devNext _ _ _ _ _ _) h
    · exact hacked _ (DeviceOnly.of_devEnd _ _ _ _) h
    · exact hacked _ (DeviceOnly.of_devEnd _ _ _ _) h

theorem DeviceOnly.of_devPump : ∀ (n : Nat) (s : State), DeviceOnly s (devPump n s)
  | 0, s => DeviceOnly.refl s
  | n + 1, s => by
    rw [devPump]
    split
    · exact DeviceOnly.refl s
    · next d _ hd =>
      cases h : devAct s d with
      | none => exact DeviceOnly.refl s
      | some u => exact (DeviceOnly.of_devAct h).trans (DeviceOnly.of_devPump n u)

theorem DeviceOnly.of_pump (s : State) : DeviceOnly s s.pump := DeviceOnly.of_devPump _ _

theorem DeviceOnly.of_ringWrite (s : State) (ctx base count : Nat) (record : List Byte) (kind : DevKind) :
    DeviceOnly s (ringWrite s ctx base count record kind) := by
  rw [ringWrite]
  exact DeviceOnly.trans (t := { s with devWrites := _, nextDev := s.nextDev + 1 }) (.quiet rfl rfl) (DeviceOnly.of_pump _)

/-! ## Objects that lose their last handle or their name (R393, R399, R401) -/

/-- A reclaimed object is gone; its record is the device's own write. -/
theorem reclaim_frame (s : State) (id : Nat) (o : Obj) : DeviceOnly { s with objs := tdel s.objs id } (reclaim s id o) := by
  rw [reclaim]
  split
  · exact DeviceOnly.of_say _ _
  · exact DeviceOnly.of_ringWrite _ _ _ _ _ _

end

end Sys2Proof.Machine
end

section
/-! SUPPORT. The acts of the directory (R393 to R400), and the obligation about them. -/

namespace Sys2Proof.Machine

section
variable {s u : State} {w : Who} {h d : Nat} {name : Word}

/-! ## How an act ends -/

theorem straight_congr {n : Nat} (hu : u.stream w = s.stream w) (hst : Straight s w n) : Straight u w n := by
  rw [Straight, State.pcOf, hu]
  exact hst

/-- The stream that an act leaves: its status stands in a full register, and it goes on. -/
theorem actDone_stream {st : Nat} (hu : u.stream w = s.stream w) (hd : (s.stream w).full d = true) (hst : Straight s w 4) :
    ∃ U, actDone u w d st = u.setStream w U ∧ U.pc = (s.stream w).pc + 4 ∧ U.reg d = (if d = 0 then 0 else BitVec.ofNat 64 st) ∧
      ∀ n, n ≠ d → U.reg n = (s.stream w).reg n := by
  refine ⟨_, (actDone_eq (hu ▸ hd) (straight_congr hu hst)).trans (State.setStream_setStream _ _ _ _), ?_, ?_, fun n hn => ?_⟩
  · rw [← hu]
    rfl
  · rw [State.stream_setStream_self, ← Stream.put_reg_self (u.stream w) d (BitVec.ofNat 64 st)]
    rfl
  · rw [State.stream_setStream_self, ← hu, ← Stream.put_reg_ne (u.stream w) (BitVec.ofNat 64 st) hn]
    rfl

theorem retire_stream (hu : u.stream w = s.stream w) (hst : Straight s w 4) :
    ∃ U, retire w 4 u = u.setStream w U ∧ U.pc = (s.stream w).pc + 4 ∧ U.regs = (s.stream w).regs := by
  refine ⟨_, retire_stays (straight_congr hu hst) rfl rfl, ?_, ?_⟩
  · rw [← hu]
    rfl
  · rw [← hu]

/-! ## Which act runs -/

section
variable (hc : w.core < 512) (hs : s.still w.core = false) (hw : w.eng = .a)
include hc hs hw

theorem directoryAct_open {wait : Bool} (hat : (s.stream w).at_ = .dirOpen h name d wait) :
    exec (.directoryAct w.core) s = .next (openAct s w h name d wait) := by
  obtain ⟨c, e⟩ := w
  subst hw
  change execDirectoryAct c s = _
  simp [execDirectoryAct, coreExists, hc, hs, hat]

theorem directoryAct_close (hat : (s.stream w).at_ = .dirClose h) : exec (.directoryAct w.core) s = .next (closeAct s w h) := by
  obtain ⟨c, e⟩ := w
  subst hw
  change execDirectoryAct c s = _
  simp [execDirectoryAct, coreExists, hc, hs, hat]

theorem directoryAct_bind {obj : Option ObjDesc} {st : Nat} (hat : (s.stream w).at_ = .dirBind d name obj st) :
    exec (.directoryAct w.core) s = .next (bindAct s w d name obj st) := by
  obtain ⟨c, e⟩ := w
  subst hw
  change execDirectoryAct c s = _
  simp [execDirectoryAct, coreExists, hc, hs, hat]

theorem directoryAct_rebind {pairs : List (Word × Nat × Option ObjDesc)} (hat : (s.stream w).at_ = .dirRebind d pairs) :
    exec (.directoryAct w.core) s = .next (rebindAct s w d pairs) := by
  obtain ⟨c, e⟩ := w
  subst hw
  change execDirectoryAct c s = _
  simp [execDirectoryAct, coreExists, hc, hs, hat]

end

/-! ## OPEN (R397) -/

/-- The state in which a handle is on an object, before the status is written. -/
def opened (s : State) (w : Who) (h slot id : Nat) (o : Obj) : State :=
  (({ s with objs := tset s.objs id { o with count := o.count + 1 } } : State).setCtx (s.core w.core).ctx
    { s.ctx (s.core w.core).ctx with handles := tset (s.ctx (s.core w.core).ctx).handles slot id }).setCore w.core
      { s.core w.core with as := { (s.core w.core).as with h := tset (s.core w.core).as.h h slot } }

theorem opened_stream (slot id : Nat) (o : Obj) : (opened s w h slot id o).stream w = s.stream w := by
  rw [opened, State.stream, State.core_setCore_self, stream_setAs]
  rfl

theorem openAct_opens {wait : Bool} {id slot : Nat} {o : Obj} (hb : s.bound? name = some id) (ho : tfind s.objs id = some o)
    (hslot : (List.range 512).find? (fun n => (tfind (s.ctx (s.core w.core).ctx).handles n).isNone) = some slot) :
    openAct s w h name d wait = actDone (opened s w h slot id o) w d 0 := by
  rw [openAct, handleSlots]
  dsimp only
  rw [hb]
  dsimp only
  rw [hslot, ho]
  rfl

theorem openAct_full {wait : Bool} (hb : (s.bound? name).isSome = true)
    (hfull : ∀ n < 512, (tfind (s.ctx (s.core w.core).ctx).handles n).isSome = true) :
    openAct s w h name d wait = actDone s w d 2 := by
  obtain ⟨id, hid⟩ := Option.isSome_iff_exists.mp hb
  have hnone : (List.range 512).find? (fun n => (tfind (s.ctx (s.core w.core).ctx).handles n).isNone) = none := by
    rw [List.find?_eq_none]
    intro n hn
    obtain ⟨v, hv⟩ := Option.isSome_iff_exists.mp (hfull n (List.mem_range.mp hn))
    simp [hv]
  rw [openAct, handleSlots]
  dsimp only
  rw [hid]
  dsimp only
  rw [hnone]

/-- An OPEN that waits for a name that has no entry. -/
theorem openAct_awaits (hb : s.bound? name = none) (he : s.entry? name = none) : openAct s w h name d true =
    if 65536 ≤ s.entries.length then takeTrap s w 0x4A 0
    else ({ s with entries := s.entries ++ [⟨name, none, [w.core]⟩] } : State).setStream w
      { s.stream w with run := .descheduled, at_ := .awaiting name } := by
  rw [openAct]
  dsimp only
  rw [hb, he]
  by_cases hlen : 65536 ≤ s.entries.length
  · have hdec : decide (dirSize ≤ s.entries.length) = true := decide_eq_true hlen
    rw [hdec, if_pos hlen]
    rfl
  · have hdec : decide (dirSize ≤ s.entries.length) = false := decide_eq_false hlen
    rw [hdec, if_neg hlen]
    rfl

/-! ## CLOSE (R399) -/

/-- The state in which a handle and its slot are free, before the object loses it. -/
def closed (s : State) (w : Who) (h slot : Nat) : State :=
  (s.setCore w.core { s.core w.core with as := { (s.core w.core).as with h := tdel (s.core w.core).as.h h } }).setCtx
    (s.core w.core).ctx
    { s.ctx (s.core w.core).ctx with handles := tdel (s.ctx (s.core w.core).ctx).handles slot }

theorem closed_stream (slot : Nat) : (closed s w h slot).stream w = s.stream w := by
  rw [closed, State.stream, State.core_setCtx, State.core_setCore_self, stream_setAs]
  rfl

theorem closeAct_eq {slot id : Nat} (hh : tfind (s.core w.core).as.h h = some slot)
    (hid : tfind (s.ctx (s.core w.core).ctx).handles slot = some id) :
    closeAct s w h = retire w 4 (dropHandle (closed s w h slot) id) := by
  have hid' : tfind ((s.setCore w.core { s.core w.core with
      as := { (s.core w.core).as with h := tdel (s.core w.core).as.h h } }).ctx (s.core w.core).ctx).handles slot = some id := hid
  rw [closeAct]
  dsimp only
  rw [hh]
  dsimp only
  rw [closeSlot, hid']
  rfl

/-- What dropping a handle changes: the object's count, or, where the last handle of an orphan goes, the object is reclaimed. -/
theorem dropHandle_spec {u : State} {id : Nat} {o : Obj} (ho : tfind u.objs id = some o) :
    ∃ O, DeviceOnly { u with objs := O } (dropHandle u id) ∧
      (o.bound = true ∨ 2 ≤ o.count → tfind O id = some { o with count := o.count - 1 } ∧ (dropHandle u id).mem = u.mem) ∧
      (o.bound = false → o.count = 1 → tfind O id = none) := by
  by_cases hlast : o.count - 1 = 0 ∧ o.bound = false
  · have hdrop : dropHandle u id = reclaim u id { o with count := o.count - 1 } := by
      rw [dropHandle, ho]
      simp [hlast.1, hlast.2]
    refine ⟨tdel u.objs id, by rw [hdrop]; exact reclaim_frame _ _ _, fun h => ?_, fun _ _ => tfind_tdel_self _ _⟩
    rcases h with h | h
    · rw [hlast.2] at h
      exact absurd h (by decide)
    · omega
  · have hdrop : dropHandle u id = { u with objs := tset u.objs id { o with count := o.count - 1 } } := by
      rw [dropHandle, ho]
      dsimp only
      rw [if_neg]
      simp only [Bool.and_eq_true, decide_eq_true_eq, Bool.not_eq_true']
      exact hlast
    refine ⟨tset u.objs id { o with count := o.count - 1 }, by rw [hdrop]; exact .quiet rfl rfl, fun _ => ⟨tfind_tset_self _ _ _, by rw [hdrop]⟩,
      fun hb h1 => absurd ⟨by omega, hb⟩ hlast⟩

/-! ## BIND and REBIND (R398, R400) -/

/-- Waking the streams that await a name changes streams that stand there and nothing else. -/
theorem wakeWaiters_frame : ∀ (l : List Nat) (s : State),
    ∃ C, wakeWaiters name l s = { s with cores := C } ∧
      ∀ w : Who, w.eng = .a → (s.stream w).at_ ≠ .awaiting name → (wakeWaiters name l s).stream w = s.stream w
  | [], s => ⟨s.cores, rfl, fun _ _ _ => rfl⟩
  | c :: t, s => by
    have hstep : ∃ C, (if (s.stream ⟨c, .a⟩).at_ == Meet.awaiting name
        then s.setStream ⟨c, .a⟩ { s.stream ⟨c, .a⟩ with at_ := .free, run := .running } else s) = { s with cores := C } := by
      split
      · exact ⟨_, rfl⟩
      · exact ⟨s.cores, rfl⟩
    obtain ⟨C, hC⟩ := hstep
    obtain ⟨C', hC', hkeep⟩ := wakeWaiters_frame t (if (s.stream ⟨c, .a⟩).at_ == Meet.awaiting name
        then s.setStream ⟨c, .a⟩ { s.stream ⟨c, .a⟩ with at_ := .free, run := .running } else s)
    refine ⟨C', by rw [wakeWaiters]; exact hC'.trans (by rw [hC]), fun v hv hat => ?_⟩
    have hsame : (if (s.stream ⟨c, .a⟩).at_ == Meet.awaiting name
        then s.setStream ⟨c, .a⟩ { s.stream ⟨c, .a⟩ with at_ := .free, run := .running } else s).stream v = s.stream v := by
      split
      · next hthere =>
        refine State.stream_setStream_ne _ _ fun heq => hat ?_
        rw [heq]
        exact eq_of_beq hthere
      · rfl
    rw [wakeWaiters, hkeep v hv (by rw [hsame]; exact hat), hsame]

/-- The binding of a name that has no entry adds one and a new object. -/
theorem bindName_new (ctx : Nat) (o : ObjDesc) (he : s.entry? name = none) : bindName s ctx name o =
    { s with
      entries := s.entries ++ [⟨name, some s.nextObj, []⟩], nextObj := s.nextObj + 1,
      objs := tset s.objs s.nextObj ⟨o, name, true, 0, (ctx, (s.ctx ctx).gen)⟩ } := by
  rw [bindName, he]
  rfl

theorem bindAct_binds {o : ObjDesc} {st : Nat} (hb : s.bound? name = none) (he : s.entry? name = none) :
    bindAct s w d name (some o) st = if 65536 ≤ s.entries.length then takeTrap s w 0x4A 0
      else actDone (bindName s (s.core w.core).ctx name o) w d 0 := by
  unfold bindAct
  rw [hb, he]
  by_cases hlen : 65536 ≤ s.entries.length
  · have hdec : decide (dirSize ≤ s.entries.length) = true := decide_eq_true hlen
    rw [hdec, if_pos hlen]
    rfl
  · have hdec : decide (dirSize ≤ s.entries.length) = false := decide_eq_false hlen
    rw [hdec, if_neg hlen]
    rfl

theorem rebindAct_status {pairs : List (Word × Nat × Option ObjDesc)} {st : Nat} (h : rebindStatus s 0 pairs = some st) :
    rebindAct s w d pairs = actDone s w d st := by
  rw [rebindAct, h]

theorem entry?_of_bound {id : Nat} (hb : s.bound? name = some id) : ∃ e, s.entry? name = some e ∧ e.obj = some id := by
  rw [State.bound?, Option.bind_eq_some_iff] at hb
  exact hb

theorem rebindAct_unbinds {id : Nat} (hb : s.bound? name = some id) (hlen : s.entries.length ≤ 65536) :
    rebindAct s w d [(name, 0, none)] = actDone (unbind (freeName s name) id) w d 0 := by
  simp [rebindAct, rebindStatus, hb, dirSize, Nat.not_lt.mpr hlen, applyPairs]

theorem rebindAct_binds {id : Nat} {o : ObjDesc} (hb : s.bound? name = some id) (hlen : s.entries.length ≤ 65536) :
    rebindAct s w d [(name, 1, some o)] = actDone (unbind (bindName s (s.core w.core).ctx name o) id) w d 0 := by
  obtain ⟨e, he, _⟩ := entry?_of_bound hb
  simp [rebindAct, rebindStatus, hb, he, dirSize, Nat.not_lt.mpr hlen, applyPairs]

/-- An object that loses its name stays while a handle is on it. -/
theorem unbind_spec {u : State} {id : Nat} {o : Obj} (ho : tfind u.objs id = some o) :
    ∃ O, DeviceOnly { u with objs := O } (unbind u id) ∧
      tfind O id = (if o.count = 0 then none else some { o with bound := false }) ∧ ∀ n, n ≠ id → tfind O n = tfind u.objs n := by
  by_cases h0 : o.count = 0
  · have hun : unbind u id = reclaim u id { o with bound := false } := by
      simp only [unbind, ho, if_pos h0]
    exact ⟨tdel u.objs id, by rw [hun]; exact reclaim_frame _ _ _, by rw [if_pos h0, tfind_tdel_self], fun n hn => tfind_tdel_ne _ hn⟩
  · have hun : unbind u id = { u with objs := tset u.objs id { o with bound := false } } := by
      simp only [unbind, ho, if_neg h0]
    exact ⟨tset u.objs id { o with bound := false }, by rw [hun]; exact .quiet rfl rfl, by rw [if_neg h0, tfind_tset_self],
      fun n hn => tfind_tset_ne _ _ hn⟩

/-- The name of an entry that a binding replaces leads to the new object. -/
theorem find?_map_bound (id : Nat) : ∀ l : List DirEnt, (l.find? (fun e => e.name == name)).isSome = true →
    (l.map (fun e => if e.name == name then ⟨name, some id, []⟩ else e)).find? (fun e => e.name == name) =
      some ⟨name, some id, []⟩
  | [], h => absurd h Bool.false_ne_true
  | e :: t, h => by
    cases he : e.name == name with
    | true =>
      rw [List.map_cons, he, if_pos rfl, List.find?_cons, beq_self_eq_true]
    | false =>
      rw [List.find?_cons, he] at h
      rw [List.map_cons, he, if_neg Bool.false_ne_true, List.find?_cons, he]
      exact find?_map_bound id t h

/-- The binding of a name that has an entry, with a new object; streams that awaited it wake. -/
theorem bindName_again (ctx : Nat) (o : ObjDesc) {id : Nat} (hb : s.bound? name = some id) :
    ∃ C E, bindName s ctx name o = { s with
        entries := E, nextObj := s.nextObj + 1, cores := C,
        objs := tset s.objs s.nextObj ⟨o, name, true, 0, (ctx, (s.ctx ctx).gen)⟩ } ∧
      E.find? (fun e => e.name == name) = some ⟨name, some s.nextObj, []⟩ ∧
      ∀ w : Who, w.eng = .a → (s.stream w).at_ ≠ .awaiting name → (bindName s ctx name o).stream w = s.stream w := by
  obtain ⟨e, he, _⟩ := entry?_of_bound hb
  have hbind : bindName s ctx name o = wakeWaiters name e.waiters { s with
      entries := s.entries.map (fun e => if e.name == name then ⟨name, some s.nextObj, []⟩ else e), nextObj := s.nextObj + 1,
      objs := tset s.objs s.nextObj ⟨o, name, true, 0, (ctx, (s.ctx ctx).gen)⟩ } := by
    rw [bindName, he]
    rfl
  rw [hbind]
  obtain ⟨C, hC, hkeep⟩ := wakeWaiters_frame (name := name) e.waiters { s with
      entries := s.entries.map (fun e => if e.name == name then ⟨name, some s.nextObj, []⟩ else e), nextObj := s.nextObj + 1,
      objs := tset s.objs s.nextObj ⟨o, name, true, 0, (ctx, (s.ctx ctx).gen)⟩ }
  refine ⟨C, _, hC, find?_map_bound _ _ ?_, hkeep⟩
  rw [State.entry?] at he
  rw [he]
  rfl

end

/-- Settles O44, act by act. -/
theorem directoryActs : Obligations.DirectoryActs := by
  unfold Obligations.DirectoryActs
  intro s w h d name hw hc hs hst
  refine ⟨fun wait hat hd => ?_, fun slot id o hat hh hid ho => ?_, fun obj st hat hd => ?_, fun pairs hat hd => ?_⟩
  · dsimp only
    rw [directoryAct_open hc hs hw hat]
    refine ⟨fun id slot o hb ho hslot => ⟨_, rfl, ?_⟩, fun hb hfull => ⟨_, rfl, ?_⟩, fun hb hwait => ⟨_, rfl, ?_⟩,
      fun hb hwait he hlen => ?_, fun hb hwait he hlen => ?_⟩
    · rw [openAct_opens hb ho hslot]
      obtain ⟨U, hU, hpc, hreg, hregs⟩ := actDone_stream (st := 0) (opened_stream (h := h) slot id o) hd hst
      rw [hU]
      refine ⟨?_, fun n hn => ?_, ?_, ?_, fun n hn => ?_, ?_, fun n hn => ?_, ?_, rfl, rfl⟩
      · simp [opened]
      · simp [opened, tfind_tset_ne _ _ hn]
      · simp [opened]
      · exact tfind_tset_self _ _ _
      · exact tfind_tset_ne _ _ hn
      · rw [State.stream_setStream_self, hreg]
        split <;> rfl
      · rw [State.stream_setStream_self, hregs n hn]
      · rw [State.stream_setStream_self, hpc]
    · rw [openAct_full hb hfull]
      exact actDone_wrote hd hst
    · have hact : openAct s w h name d wait = actDone s w d 1 := by
        rw [openAct]
        dsimp only
        rw [hb, hwait]
        rfl
      rw [hact]
      exact actDone_wrote hd hst
    · rw [hwait, openAct_awaits hb he, if_pos hlen]
    · rw [hwait, openAct_awaits hb he, if_neg (by omega)]
  · rw [directoryAct_close hc hs hw hat, closeAct_eq hh hid]
    obtain ⟨O, hdev, hstay, hgone⟩ := dropHandle_spec (u := closed s w h slot) (id := id) ho
    have hstream : (dropHandle (closed s w h slot) id).stream w = s.stream w := (hdev.stream w).trans (closed_stream slot)
    obtain ⟨U, hU, hpc, hregs⟩ := retire_stream hstream hst
    rw [hU]
    refine ⟨_, rfl, ?_, ?_, ?_, ?_, fun hb => ?_, fun hb h1 => ?_⟩
    · rw [State.core_setStream_self, Core.setStream_as, hdev.core]
      change tfind ((closed s w h slot).core w.core).as.h h = none
      rw [closed, State.core_setCtx, State.core_setCore_self]
      exact tfind_tdel_self _ _
    · rw [State.ctx_setStream, hdev.ctx]
      change tfind ((closed s w h slot).ctx (s.core w.core).ctx).handles slot = none
      rw [closed, State.ctx_setCtx_self]
      exact tfind_tdel_self _ _
    · rw [State.stream_setStream_self, hpc]
    · rw [State.stream_setStream_self, hregs]
    · obtain ⟨hobj, hmem⟩ := hstay hb
      exact ⟨(congrArg (tfind · id) hdev.objs).trans hobj, hmem⟩
    · exact (congrArg (tfind · id) hdev.objs).trans (hgone hb h1)
  · dsimp only
    rw [directoryAct_bind hc hs hw hat]
    refine ⟨fun hb => ⟨_, rfl, ?_⟩, fun hb ho => ⟨_, rfl, ?_⟩, fun o hb ho he hlen => ?_, fun o hb ho he hlen => ⟨_, rfl, ?_⟩⟩
    · unfold bindAct
      rw [if_pos hb]
      exact actDone_wrote hd hst
    · unfold bindAct
      rw [hb, ho]
      exact actDone_wrote hd hst
    · rw [ho, bindAct_binds hb he, if_pos hlen]
    · rw [ho, bindAct_binds hb he, if_neg (by omega), bindName_new _ _ he]
      have hdone := actDone_eq (st := 0) (w := w) (d := d) (u := { s with
        entries := s.entries ++ [⟨name, some s.nextObj, []⟩], nextObj := s.nextObj + 1,
        objs := tset s.objs s.nextObj ⟨o, name, true, 0, ((s.core w.core).ctx, (s.ctx (s.core w.core).ctx).gen)⟩ }) hd hst
      rw [hdone]
      exact ⟨rfl, tfind_tset_self _ _ _, rfl, wrote_put_only s w d 0 (s.pcOf w + 4)⟩
  · dsimp only
    rw [directoryAct_rebind hc hs hw hat]
    refine ⟨fun st h => ⟨_, rfl, ?_⟩, fun id o hp hb ho hlen => ⟨_, rfl, ?_⟩, fun id o old hp hb ho hne hlen => ⟨_, rfl, ?_⟩⟩
    · rw [rebindAct_status h]
      exact actDone_wrote hd hst
    · subst hp
      rw [rebindAct_unbinds hb hlen]
      obtain ⟨O, hdev, hobj, hothers⟩ := unbind_spec (u := freeName s name) (id := id) ho
      obtain ⟨U, hU, hpc, hreg, hregs⟩ := actDone_stream (s := s) (st := 0) (hdev.stream w) hd hst
      rw [hU]
      refine ⟨hdev.entries, ?_, ?_, ?_⟩
      · rw [State.stream_setStream_self, hreg]
        split <;> rfl
      · rw [State.stream_setStream_self, hpc]
      · exact (congrArg (tfind · id) hdev.objs).trans hobj
    · subst hp
      rw [rebindAct_binds hb hlen]
      obtain ⟨C, E, hbind, hentry, hkeep⟩ := bindName_again (s.core w.core).ctx o hb
      have hstream : (bindName s (s.core w.core).ctx name o).stream w = s.stream w :=
        hkeep w hw (by rw [hat]; simp)
      have hold : tfind (bindName s (s.core w.core).ctx name o).objs id = some old := by
        rw [hbind]
        exact (tfind_tset_ne _ _ hne).trans ho
      obtain ⟨O, hdev, hobj, hothers⟩ := unbind_spec hold
      obtain ⟨U, hU, hpc, hreg, hregs⟩ := actDone_stream (s := s) (st := 0) ((hdev.stream w).trans hstream) hd hst
      rw [hU]
      refine ⟨?_, ?_, ?_, ?_, ?_⟩
      · change ((unbind (bindName s (s.core w.core).ctx name o) id).entries.find? (fun e => e.name == name)).bind DirEnt.obj = _
        rw [hdev.entries, hbind]
        change (E.find? (fun e => e.name == name)).bind DirEnt.obj = _
        rw [hentry]
        rfl
      · change tfind (unbind (bindName s (s.core w.core).ctx name o) id).objs s.nextObj = _
        rw [hdev.objs]
        refine (hothers _ (Ne.symm hne)).trans ?_
        rw [hbind]
        exact tfind_tset_self _ _ _
      · exact (congrArg (tfind · id) hdev.objs).trans hobj
      · rw [State.stream_setStream_self, hreg]
        split <;> rfl
      · rw [State.stream_setStream_self, hpc]

end Sys2Proof.Machine
end

section
/-! SUPPORT. Mailbox writes on their way (R135, R136), and the obligation about them. -/

namespace Sys2Proof.Machine

section
variable {s : State} {m : MboxMsg} {c src i : Nat}

/-- A core is one to which a mailbox write of its context goes: a job of the context runs there, or the core is kept for a wave of the
launch (R136). -/
def MailRuns (s : State) (m : MboxMsg) : Prop :=
  (∃ j, (s.core m.dstCore).job = some j ∧ j.ctx = m.ctx) ∨
    ((s.core m.dstCore).job = none ∧ ∃ l ∈ s.launches, l.record = m.launch ∧ (s.lrec l.record).ctx = m.ctx ∧
      reservedFor s l m.dstCore = true)

theorem mailRuns_iff : ((match (s.core m.dstCore).job with | some j => j.ctx == m.ctx | none => false) ||
    ((s.core m.dstCore).job.isNone && s.launches.any (fun l => l.record == m.launch && (s.lrec l.record).ctx == m.ctx &&
      reservedFor s l m.dstCore))) = true ↔ MailRuns s m := by
  rw [MailRuns]
  cases hj : (s.core m.dstCore).job with
  | some j => simp
  | none => simp [and_assoc]

theorem deliver_holds (h : MailRuns s m) (hroom : (s.core m.dstCore).holding.length < 16) : deliver s m =
    some (s.setCore m.dstCore { s.core m.dstCore with holding := (s.core m.dstCore).holding ++ [m] }) := by
  exact (if_pos (mailRuns_iff.mpr h)).trans (if_pos hroom)

theorem deliver_waits (h : MailRuns s m) (hfull : 16 ≤ (s.core m.dstCore).holding.length) : deliver s m = none := by
  exact (if_pos (mailRuns_iff.mpr h)).trans (if_neg (Nat.not_lt.mpr hfull))

theorem deliver_discards (h : ¬MailRuns s m) : deliver s m = some (discardMail s m) := by
  exact if_neg (mt mailRuns_iff.mp h)

/-! ## The outbound port of a core -/

/-- The state in which a write has left the outbound port of its core. -/
def State.mailLeft (s : State) (src i : Nat) : State :=
  s.setCore src { s.core src with outbound := ldel (s.core src).outbound i }

theorem core_mailLeft (s : State) (src i c : Nat) : (s.mailLeft src i).core c =
    { s.core c with outbound := if c = src then ldel (s.core c).outbound i else (s.core c).outbound } := by
  by_cases hc : c = src
  · subst hc
    rw [State.mailLeft, State.core_setCore_self, if_pos rfl]
  · rw [State.mailLeft, State.core_setCore_ne _ _ hc, if_neg hc]

theorem mailRuns_mailLeft : MailRuns (s.mailLeft src i) m ↔ MailRuns s m := by
  rw [MailRuns, core_mailLeft]
  rfl

theorem arrival_none (hsrc : src < 512) (h : firstOwn s src = none) : exec (.remoteMailboxWriteArrival src) s = .next s := by
  change execRemoteMailboxWriteArrival src s = _
  have hne : src ≠ 512 := by omega
  simp [execRemoteMailboxWriteArrival, hne, coreExists, hsrc, h]

theorem arrival_some (hsrc : src < 512) (h : firstOwn s src = some (i, m)) (hs : s.still m.dstCore = false) :
    exec (.remoteMailboxWriteArrival src) s = .next ((deliver (s.mailLeft src i) m).getD s) := by
  change execRemoteMailboxWriteArrival src s = _
  have hne : src ≠ 512 := by omega
  rw [execRemoteMailboxWriteArrival, if_neg hne, if_neg (by simp [coreExists, hsrc]), h]
  dsimp only
  rw [hs, if_neg Bool.false_ne_true]
  change _ = Host.Outcome.next ((deliver (s.setCore src { s.core src with outbound := ldel (s.core src).outbound i }) m).getD s)
  cases deliver (s.setCore src { s.core src with outbound := ldel (s.core src).outbound i }) m <;> rfl

/-! ## Mail of other packages -/

theorem inbound_first {rest : List MboxMsg} (hin : s.inbound = m :: rest) (hs : s.still m.dstCore = false) :
    exec (.remoteMailboxWriteArrival 512) s = .next ((deliver { s with inbound := rest } m).getD s) := by
  change execRemoteMailboxWriteArrival 512 s = _
  rw [execRemoteMailboxWriteArrival, if_pos rfl, hin, List.mapIdx_cons, List.find?_cons, hs]
  change Host.Outcome.next (match deliver { s with inbound := ldel (m :: rest) 0 } m with | some s1 => s1 | none => s) = _
  rw [ldel]
  cases deliver { s with inbound := rest } m <;> rfl

theorem inbound_still (h : ∀ n ∈ s.inbound, s.still n.dstCore = true) : exec (.remoteMailboxWriteArrival 512) s = .next s := by
  change execRemoteMailboxWriteArrival 512 s = _
  have hnone : (s.inbound.mapIdx (fun i m => (i, m))).find? (fun p => !s.still p.2.dstCore) = none := by
    rw [List.find?_eq_none]
    intro p hp
    obtain ⟨j, hj, rfl⟩ := List.mem_mapIdx.mp hp
    simp [h _ (List.getElem_mem hj)]
  rw [execRemoteMailboxWriteArrival, if_pos rfl, hnone]

/-! ## Held writes -/

theorem heldEntry_eq {mbox : Nat} (hc : c < 512) (hs : s.still c = false)
    (h : ((s.core c).holding.mapIdx (fun i m => (i, m))).find? (fun p => p.2.mbox == mbox) = some (i, m)) :
    exec (.heldMailboxWriteEntry c mbox) s = .next (
      if (s.core c).job.isNone || (tfind (s.core c).mbox mbox).isSome || (heldOwn s c).contains mbox then s
      else s.setCore c { s.core c with
        holding := ldel (s.core c).holding i, mbox := tset (s.core c).mbox mbox (mailVal m) }) := by
  change execHeldMailboxWriteEntry c mbox s = _
  rw [execHeldMailboxWriteEntry, coreEvent, if_neg (by simp [coreExists, hc]), hs, if_neg Bool.false_ne_true]
  dsimp only
  rw [h]

theorem say_opened (hopen : s.session.phase = .opened) (x : HostMsg) :
    (say s x).toHost.map HostOut.msg = s.toHost.map HostOut.msg ++ [x] := by
  rw [say, if_pos hopen, State.post, List.map_append]
  rfl

end

/-- Settles O49, by what becomes of the write that arrives. -/
theorem mailArrives : Obligations.MailArrives := by
  unfold Obligations.MailArrives
  intro s src i m
  refine ⟨fun hsrc h => arrival_none hsrc h, fun hsrc h hs => ⟨fun hr hroom => ?_, fun hr hfull => ?_, fun hr hj hopen => ?_⟩,
    fun rest hin hs hr hroom => ?_, inbound_still, fun c hc hs h => ⟨fun hheld => ?_, fun hj hm hheld => ?_, fun hm => ?_⟩⟩
  · have hholding : ((s.mailLeft src i).core m.dstCore).holding = (s.core m.dstCore).holding := by rw [core_mailLeft]
    rw [arrival_some hsrc h hs, deliver_holds (mailRuns_mailLeft.mpr hr) (by rw [hholding]; exact hroom), Option.getD_some]
    obtain ⟨K, hK⟩ : ∃ K : Core, K = { (s.mailLeft src i).core m.dstCore with
      holding := ((s.mailLeft src i).core m.dstCore).holding ++ [m] } := ⟨_, rfl⟩
    rw [← hK]
    have hcore : ∀ c, ((s.mailLeft src i).setCore m.dstCore K).core c = { s.core c with
        outbound := ((s.mailLeft src i).core c).outbound,
        holding := if c = m.dstCore then (s.core c).holding ++ [m] else (s.core c).holding } := by
      intro c
      by_cases hcd : c = m.dstCore
      · subst hcd
        rw [State.core_setCore_self, if_pos rfl, hK, core_mailLeft]
      · rw [State.core_setCore_ne _ _ hcd, if_neg hcd, core_mailLeft]
    refine ⟨_, rfl, ?_, ?_, fun c => ?_, rfl⟩
    · rw [hcore, if_pos rfl]
    · rw [hcore, core_mailLeft, if_pos rfl]
    · rw [hcore]
      exact ⟨rfl, rfl, rfl⟩
  · rw [arrival_some hsrc h hs, deliver_waits (mailRuns_mailLeft.mpr hr) (by rw [core_mailLeft]; exact hfull)]
    rfl
  · rw [arrival_some hsrc h hs, deliver_discards (mt mailRuns_mailLeft.mp hr), Option.getD_some]
    obtain ⟨S, T, R, D, hsay⟩ := say_frame (s.mailLeft src i) (contextEvent m.ctx 1 [senderPlace m, m.value])
    have hcores : ∀ c, (discardMail (s.mailLeft src i) m).core c = (s.mailLeft src i).core c := by
      intro c
      rw [discardMail, hsay]
      rfl
    refine ⟨_, rfl, ?_, fun c => ?_, ?_⟩
    · rw [hcores, core_mailLeft, if_pos rfl]
    · rw [hcores, core_mailLeft]
    · rw [discardMail]
      exact say_opened (s := s.mailLeft src i) hopen _
  · rw [inbound_first hin hs, deliver_holds (s := { s with inbound := rest }) hr hroom]
    rfl
  · rw [heldEntry_eq hc hs h, if_pos (by simp [hheld])]
  · rw [heldEntry_eq hc hs h, if_neg]
    simp [Option.isSome_iff_ne_none.mp hj, hm, hheld]
  · rw [heldEntry_eq hc hs h, if_pos (by simp [hm])]

end Sys2Proof.Machine
end

section
/-! SUPPORT. MQRY, MSKIP and the entry of commands to the window (R287, R300 to R307), and the obligation about them. -/

namespace Sys2Proof.Machine

section
variable {s : State} {w : Who} {a d id : Nat} {c : MCtl}

theorem whoOn_m (h : Acts s w) (hw : w.eng = .m) : s.whoOn .m = w := by
  rw [whoOn_of_acts h, ← hw]

theorem Full.sub {l l' : List Nat} (h : Full s w l) (hl : ∀ n ∈ l', n ∈ l) : Full s w l' := fun n hn => h n (hl n hn)

theorem Full.add {l l' : List Nat} (h : Full s w l) (h' : Full s w l') : Full s w (l ++ l') := fun n hn =>
  (List.mem_append.mp hn).elim (h n) (h' n)

theorem giveFifos_mod (e : Eng) (f : Nat) : giveFifos e (f % 4) = giveFifos e f := by
  have h2 : f % 4 % 2 = f % 2 := by omega
  unfold giveFifos
  rw [h2, Nat.mod_mod]

/-! ## MQRY (R306) -/

theorem mqry_exec (h : Acts s w) (hw : w.eng = .m) : exec (.mqry d id) s =
    scalarForm w [] d (match (s.core w.core).cmdOf id with | some c => snapshot c | none => 0) s := by
  change execMqry d id s = _
  rw [execMqry, whoOn_m h hw] <;> rfl

theorem mqry_writes (h : CanRun s w [d] 4) (hw : w.eng = .m) :
    WritesReg (.mqry d id) s w d (match (s.core w.core).cmdOf id with | some c => snapshot c | none => 0) := by
  obtain ⟨hact, hfull, hst⟩ := h
  rw [WritesReg, mqry_exec hact hw]
  exact scalarForm_writes (fun _ hn => absurd hn List.not_mem_nil) hst (hfull d (by simp))

theorem code_lt (st : CmdState) : st.code < 8 := by cases st <;> decide

/-- The fields of a snapshot in numbers. -/
theorem snapshot_toNat (cm : Cmd) : (snapshot cm).toNat =
    (cm.seen.contains 0x23).toNat * 2 ^ 55 + (cm.seen.contains 0x24).toNat * 2 ^ 54 + (cm.seen.contains 0x21).toNat * 2 ^ 53 +
      (cm.seen.contains 0x20).toNat * 2 ^ 52 + cm.state.code * 2 ^ 48 +
      (if cm.op.isRun then cm.absent % 2 ^ 24 * 2 ^ 24 + cm.received % 2 ^ 24 else 0) := by
  have hbit : ∀ (b : Bool) (i : Nat), (if b then 2 ^ i else 0) = b.toNat * 2 ^ i := by
    intro b i
    cases b <;> simp
  have hle : ∀ b : Bool, b.toNat ≤ 1 := by decide
  have hcode := code_lt cm.state
  have h23 := hle (cm.seen.contains 0x23)
  have h24 := hle (cm.seen.contains 0x24)
  have h21 := hle (cm.seen.contains 0x21)
  have h20 := hle (cm.seen.contains 0x20)
  rw [snapshot]
  simp only [hbit, BitVec.toNat_ofNat]
  refine Nat.mod_eq_of_lt ?_
  split <;> omega

theorem getLsbD_toNat (v : Word) (i : Nat) : v.getLsbD i = decide (v.toNat / 2 ^ i % 2 = 1) := by
  rw [BitVec.getLsbD, Nat.testBit_eq_decide_div_mod_eq]

theorem snapshot_fields (cm : Cmd) : (snapshot cm).toNat / 2 ^ 48 % 8 = cm.state.code ∧
    (cm.op.isRun = true → (snapshot cm).toNat % 2 ^ 24 = cm.received % 2 ^ 24 ∧
      (snapshot cm).toNat / 2 ^ 24 % 2 ^ 24 = cm.absent % 2 ^ 24) ∧
    (cm.op.isRun = false → (snapshot cm).toNat % 2 ^ 48 = 0) ∧
    (snapshot cm).getLsbD 52 = cm.seen.contains 0x20 ∧ (snapshot cm).getLsbD 53 = cm.seen.contains 0x21 ∧
    (snapshot cm).getLsbD 54 = cm.seen.contains 0x24 ∧ (snapshot cm).getLsbD 55 = cm.seen.contains 0x23 := by
  have hcode := code_lt cm.state
  have hlow : (if cm.op.isRun then cm.absent % 2 ^ 24 * 2 ^ 24 + cm.received % 2 ^ 24 else 0) < 2 ^ 48 := by
    split <;> omega
  have hlast : ∀ b : Bool, decide (b.toNat = 1) = b := by decide
  have hle : ∀ b : Bool, b.toNat ≤ 1 := by decide
  have h23 := hle (cm.seen.contains 0x23)
  have h24 := hle (cm.seen.contains 0x24)
  have h21 := hle (cm.seen.contains 0x21)
  have h20 := hle (cm.seen.contains 0x20)
  simp only [getLsbD_toNat, snapshot_toNat]
  refine ⟨by omega, fun h => ?_, fun h => ?_, ?_, ?_, ?_, ?_⟩
  · rw [if_pos h]
    omega
  · rw [h, if_neg Bool.false_ne_true]
    omega
  · exact (decide_eq_decide.mpr (by omega)).trans (hlast (cm.seen.contains 0x20))
  · exact (decide_eq_decide.mpr (by omega)).trans (hlast (cm.seen.contains 0x21))
  · exact (decide_eq_decide.mpr (by omega)).trans (hlast (cm.seen.contains 0x24))
  · exact (decide_eq_decide.mpr (by omega)).trans (hlast (cm.seen.contains 0x23))

/-! ## The binding of the next feed (R293) -/

/-- No binding suspends a command, so that a core binds what `Core.bound` binds. -/
theorem bindNow_fits {u : State} {c : Nat} (h : ∀ m f, (u.core c).binds = some (m, f) → m.rowTy = f.ty) :
    bindNow u c = match (u.core c).binds with | none => u | some _ => u.setCore c (u.core c).bound := by
  rw [bindNow]
  unfold Core.bound
  dsimp only
  cases hb : (u.core c).binds with
  | none => rfl
  | some p =>
    obtain ⟨m, f⟩ := p
    dsimp only
    rw [if_pos (h m f hb)]

theorem bindNow_setCore {k : Core} {c : Nat} (h : ∀ m f, k.binds = some (m, f) → m.rowTy = f.ty) :
    bindNow (s.setCore c k) c = s.setCore c k.bound := by
  have hk : (s.setCore c k).core c = k := State.core_setCore_self _ _ _
  rw [bindNow_fits (by rw [hk]; exact h), hk]
  unfold Core.bound
  cases k.binds with
  | none => rfl
  | some p => exact State.setCore_setCore _ _ _ _

/-- What a binding finds: an issued command of the window, and a feed that is not bound. -/
theorem binds_spec {k : Core} {m : Cmd} {f : Feed} (h : k.binds = some (m, f)) :
    m ∈ k.ms.window ∧ m.op.isRun = true ∧ m.state = .issued ∧ f ∈ k.ms.feeds ∧ f.bound = none := by
  rw [Core.binds] at h
  cases hn : nextRun k with
  | none => simp [hn] at h
  | some c =>
    rw [hn] at h
    dsimp only at h
    split at h
    · exact absurd h (by simp)
    · next hready =>
      obtain ⟨g, hg, heq⟩ := Option.map_eq_some_iff.mp h
      obtain ⟨rfl, rfl⟩ := Prod.mk.injEq _ _ _ _ ▸ heq
      rw [nextRun] at hn
      have hmem := List.mem_of_find?_eq_some hn
      have hrun := List.find?_some hn
      have hunbound := List.find?_some hg
      simp only [Bool.or_eq_true, bne_iff_ne, ne_eq, Bool.not_eq_true', not_or, not_not] at hready
      simp only [Bool.and_eq_true] at hrun
      exact ⟨hmem, hrun.1, hready.1.1, List.mem_of_find?_eq_some hg, Option.isNone_iff_eq_none.mp hunbound⟩

/-- Feeds of the row types of the commands bind without a suspension, whatever commands have gone or changed elsewhere. -/
theorem fits_of_feedsFit {k k' : Core} (h : FeedsFit k) (hfeeds : k'.ms.feeds = k.ms.feeds)
    (hcmds : ∀ m ∈ k'.ms.window, ∃ m' ∈ k.allCmds, m'.op = m.op ∧ m'.state = m.state) :
    ∀ m f, k'.binds = some (m, f) → m.rowTy = f.ty := by
  intro m f hb
  obtain ⟨hm, hrun, hst, hf, hunbound⟩ := binds_spec hb
  obtain ⟨m', hm', hop, hstate⟩ := hcmds m hm
  have hty : m'.rowTy = m.rowTy := by rw [Cmd.rowTy, Cmd.rowTy, hop]
  rw [← hty]
  refine h m' hm' f (hfeeds ▸ hf) (hop ▸ hrun) ?_ ?_ hunbound
  · rw [hstate, hst]
    decide
  · rw [hstate, hst]
    decide

/-! ## How a form ends that changes its core alone -/

theorem finish_core {u : State} {k : Core} {n : Nat} (hst : Straight s w n)
    (hl : (k.stream w.eng).loops = (s.stream w).loops) (hp : (k.stream w.eng).pc = (s.stream w).pc) :
    finish w n s (.ok (u.setCore w.core k) .seq) = .next ((u.setCore w.core k).goTo w (s.pcOf w + BitVec.ofNat 64 n)) := by
  have hk : (u.setCore w.core k).stream w = k.stream w.eng := by simp [State.stream]
  exact congrArg _ (retire_stays hst (by rw [hk, hl]) (by rw [hk, hp]))

theorem core_goTo (u : State) (k : Core) (next : Word) : ((u.setCore w.core k).goTo w next).core w.core =
    k.setStream w.eng { k.stream w.eng with pc := next, run := runAfter k (k.stream w.eng), at_ := .free } := by
  simp [State.goTo, State.stream, State.runNext]

theorem onlyCore_goTo (s : State) (k : Core) (next : Word) : OnlyCore w.core s ((s.setCore w.core k).goTo w next) := by
  rw [State.goTo, State.setStream, State.setCore_setCore]
  exact onlyCore_setCore _ _ _

/-- Reserved slots that become tokens. -/
theorem giveReserved_eq (fs : List Nat) (k : Core) : ∃ R T, k.giveReserved fs = { k with reserved := R, tokens := T } ∧
    (fs.Nodup → ∀ n, tget T n 0 = k.token n + if n ∈ fs then 1 else 0) ∧
    (fs.Nodup → ∀ n, tget R n 0 = k.slots n - if n ∈ fs then 1 else 0) := by
  obtain ⟨R, hR, hslots⟩ := unreserve_eq fs k
  obtain ⟨T, hT, htokens⟩ := giveAll_eq fs (k.unreserve fs)
  refine ⟨R, T, by rw [Core.giveReserved, hT, hR], fun hn n => ?_, hslots⟩
  rw [htokens hn n, hR]
  rfl

/-! ## MSKIP (R307) -/

theorem mskip_finish (h : Acts s w) (hw : w.eng = .m) (hf : Full s w [a]) : exec (.mskip id a) s = finish w 4 s (
    if 65535 < (regOf s w a).toNat then .raise 0x02 (opTval (.mskip id a) false 13)
    else
      match youngest ((s.core w.core).allCmds.filter (fun c => c.cid == id && c.op.isRun)) with
      | none => .ok s .seq
      | some c =>
        if c.state == .retired || c.state == .cancelled then .ok s .seq
        else
          let base := match c.op with | .run _ _ _ b _ _ _ _ => b | _ => 0
          let placing := match c.op with | .run _ _ _ _ m _ _ _ => m == .p | _ => false
          let r := ((regOf s w a).toNat + 65536 - base) % 65536
          if 256 ≤ r then .raise 0x02 (opTval (.mskip id a) false 13)
          else if c.skipped.contains (regOf s w a).toNat || (placing && c.placed.contains r) then .ok s .seq
          else
            .ok (bindNow (tryRetireRun (s.setCore w.core ((s.core w.core).setCmd
              { c with skipped := (regOf s w a).toNat :: c.skipped, absent := c.absent + 1 })) w.core c.seq) w.core) .seq) := by
  change execMskip id a s = _
  rw [execMskip, whoOn_m h hw, needRegs_of_full _ hf] <;> rfl

/-- MSKIP of an MRUN that has not ended. -/
theorem mskip_run {cm : Cmd} {x b m base : Nat} {mode : MMode} {t : Ty} {np : Np} {hh : Option Nat} (h : Acts s w) (hw : w.eng = .m)
    (hf : Full s w [a]) (hu : (regOf s w a).toNat ≤ 65535)
    (hfound : youngest ((s.core w.core).allCmds.filter (fun c => c.cid == id && c.op.isRun)) = some cm)
    (hret : cm.state ≠ .retired) (hcan : cm.state ≠ .cancelled) (hop : cm.op = .run x b m base mode t np hh) :
    exec (.mskip id a) s = finish w 4 s (
      if 256 ≤ ((regOf s w a).toNat + 65536 - base) % 65536 then .raise 0x02 (opTval (.mskip id a) false 13)
      else if cm.skipped.contains (regOf s w a).toNat ||
          (mode == .p && cm.placed.contains (((regOf s w a).toNat + 65536 - base) % 65536)) then .ok s .seq
      else .ok (bindNow (tryRetireRun (s.setCore w.core ((s.core w.core).setCmd
        { cm with skipped := (regOf s w a).toNat :: cm.skipped, absent := cm.absent + 1 })) w.core cm.seq) w.core) .seq) := by
  rw [mskip_finish h hw hf, if_neg (by omega), hfound]
  dsimp only
  rw [if_neg (by simp [hret, hcan]), hop]

theorem find?_setCmd {l : List Cmd} {c d : Cmd} (h : (l.map (fun d => if d.seq == c.seq then c else d)).find? (fun d => d.seq == c.seq) =
    some d) : d = c := by
  obtain ⟨e, _, rfl⟩ := List.mem_map.mp (List.mem_of_find?_eq_some h)
  have hseq := List.find?_some h
  by_cases he : e.seq == c.seq
  · rw [if_pos he]
  · rw [if_neg he] at hseq
    exact absurd hseq he

/-- A changed command that is not one to retire. -/
theorem tryRetireRun_setCmd {k : Core} {c : Cmd} {n : Nat}
    (h : (c.op.isRun && c.state == .issued && c.checked && c.complete) = false) :
    tryRetireRun (s.setCore n (k.setCmd c)) n c.seq = s.setCore n (k.setCmd c) := by
  rw [tryRetireRun, State.core_setCore_self]
  split
  · rfl
  · next d hd =>
    obtain rfl := find?_setCmd hd
    rw [h, Bool.false_and, if_neg Bool.false_ne_true]

theorem mem_setCmd_window {k : Core} {c m : Cmd} (h : m ∈ (k.setCmd c).ms.window) : m = c ∨ m ∈ k.allCmds := by
  obtain ⟨e, he, rfl⟩ := List.mem_map.mp h
  by_cases hs : e.seq == c.seq
  · rw [if_pos hs]
    exact .inl rfl
  · rw [if_neg hs]
    exact .inr (List.mem_append_left _ he)

theorem mem_of_youngest : ∀ {l : List Cmd} {c : Cmd}, youngest l = some c → c ∈ l
  | [], _, h => absurd h (by simp [youngest])
  | d :: t, c, h => by
    rw [youngest] at h
    cases ht : youngest t with
    | none =>
      rw [ht] at h
      rw [← Option.some.inj h]
      exact List.mem_cons_self
    | some e =>
      rw [ht] at h
      have he := mem_of_youngest ht
      dsimp only at h
      split at h
      · rw [← Option.some.inj h]
        exact List.mem_cons_of_mem _ he
      · rw [← Option.some.inj h]
        exact List.mem_cons_self

theorem bound_stream (k : Core) (e : Eng) : k.bound.stream e = k.stream e := by
  rw [Core.bound]
  split
  · cases e <;> rfl
  · rfl

theorem bound_tokens (k : Core) : k.bound.tokens = k.tokens ∧ k.bound.reserved = k.reserved := by
  rw [Core.bound]
  split
  · exact ⟨rfl, rfl⟩
  · exact ⟨rfl, rfl⟩

theorem bound_held (k : Core) : k.bound.held = k.held := by
  rw [Core.bound]
  split
  · rfl
  · rfl

/-- MSKIP that counts an absent row. -/
theorem mskip_counts {cm : Cmd} {x b m base : Nat} {mode : MMode} {t : Ty} {np : Np} {hh : Option Nat} (h : CanRun s w [a] 4)
    (hw : w.eng = .m) (hu : (regOf s w a).toNat ≤ 65535)
    (hfound : youngest ((s.core w.core).allCmds.filter (fun c => c.cid == id && c.op.isRun)) = some cm)
    (hret : cm.state ≠ .retired) (hcan : cm.state ≠ .cancelled) (hop : cm.op = .run x b m base mode t np hh)
    (hr : ((regOf s w a).toNat + 65536 - base) % 65536 < 256) (hskip : (regOf s w a).toNat ∉ cm.skipped)
    (hplace : ¬(mode = .p ∧ ((regOf s w a).toNat + 65536 - base) % 65536 ∈ cm.placed))
    (hopen : cm.state ≠ .issued ∨ cm.received + cm.absent + 1 < m) (hfit : FeedsFit (s.core w.core)) :
    exec (.mskip id a) s = .next (s.coreGoes w ((s.core w.core).setCmd { cm with
      skipped := (regOf s w a).toNat :: cm.skipped, absent := cm.absent + 1 }).bound) := by
  obtain ⟨hact, hfull, hst⟩ := h
  have hmem : cm ∈ (s.core w.core).allCmds := (List.mem_filter.mp (mem_of_youngest hfound)).1
  have hnotp : (mode == .p && cm.placed.contains (((regOf s w a).toNat + 65536 - base) % 65536)) = false := by
    rw [Bool.eq_false_iff]
    simpa using hplace
  obtain ⟨c1, hc1⟩ : ∃ c1 : Cmd, c1 = { cm with skipped := (regOf s w a).toNat :: cm.skipped, absent := cm.absent + 1 } := ⟨_, rfl⟩
  have hstays : (c1.op.isRun && c1.state == .issued && c1.checked && c1.complete) = false := by
    have hexp : c1.expect = m := by rw [hc1, Cmd.expect, hop]
    rcases hopen with hs | hs
    · have : (c1.state == .issued) = false := by rw [hc1]; simpa using hs
      rw [this, Bool.and_false, Bool.false_and, Bool.false_and]
    · have : c1.complete = false := by
        rw [Cmd.complete, hexp, hc1]
        exact decide_eq_false (by dsimp only; omega)
      rw [this, Bool.and_false]
  rw [mskip_run hact hw hfull hu hfound hret hcan hop, if_neg (by omega), if_neg (by rw [hnotp]; simpa using hskip), ← hc1,
    show cm.seq = c1.seq by rw [hc1], tryRetireRun_setCmd hstays, bindNow_setCore]
  · have hstream : ((s.core w.core).setCmd c1).bound.stream w.eng = s.stream w := bound_stream _ _
    exact finish_coreGoes hst rfl (by rw [hstream]) (by rw [hstream])
  · refine fits_of_feedsFit hfit rfl fun d hd => ?_
    rcases mem_setCmd_window hd with rfl | hd
    · exact ⟨cm, hmem, by rw [hc1], by rw [hc1]⟩
    · exact ⟨d, hd, rfl, rfl⟩

/-! ## MSKIP `.cx` (R307) -/

theorem mskipCx_cancels {cm : Cmd} (h : CanRun s w [] 4) (hw : w.eng = .m) (hfound : (s.core w.core).cmdOf id = some cm)
    (hsus : cm.state = .suspended) (hfit : FeedsFit (s.core w.core)) :
    ∃ R T, exec (.mskipCx id) s = .next (s.coreGoes w (({ s.core w.core with ms := { (s.core w.core).ms with
        window := (s.core w.core).ms.window.filter (fun x => x.seq != cm.seq),
        records := (s.core w.core).ms.records ++ [{ cm with state := .cancelled }] }, reserved := R, tokens := T } : Core).bound)) ∧
      (∀ n, tget T n 0 = (s.core w.core).token n + (if n ∈ giveFifos .m cm.give then 1 else 0)) ∧
      ∀ n, tget R n 0 = (s.core w.core).slots n - (if n ∈ giveFifos .m cm.give then 1 else 0) := by
  obtain ⟨hact, hfull, hst⟩ := h
  obtain ⟨R, T, hgive, htokens, hslots⟩ := giveReserved_eq (giveFifos .m cm.give)
    (leaveWindow (s.core w.core) { cm with state := .cancelled })
  refine ⟨R, T, ?_, htokens (giveFifos_nodup _ _), hslots (giveFifos_nodup _ _)⟩
  change execMskipCx id s = _
  rw [execMskipCx, whoOn_m hact hw]
  dsimp only
  rw [hfound]
  dsimp only
  rw [hsus, if_neg (by decide), hgive, bindNow_setCore]
  · have hstream : ({ s.core w.core with ms := { (s.core w.core).ms with
        window := (s.core w.core).ms.window.filter (fun x => x.seq != cm.seq),
        records := (s.core w.core).ms.records ++ [{ cm with state := .cancelled }] }, reserved := R, tokens := T } : Core).bound.stream
          w.eng = s.stream w := bound_stream _ _
    exact finish_coreGoes hst rfl (by rw [← hstream]; rfl) (by rw [← hstream]; rfl)
  · exact fits_of_feedsFit hfit rfl fun d hd => ⟨d, List.mem_append_left _ (List.mem_of_mem_filter hd), rfl, rfl⟩

/-- A binding sees the window and the feeds alone. -/
theorem bound_ms_congr {k k' : Core} (h : k'.ms = k.ms) : k'.bound.ms = k.bound.ms := by
  have hb : k'.binds = k.binds := by
    unfold Core.binds nextRun
    rw [h]
  unfold Core.bound
  rw [hb]
  cases k.binds with
  | none => exact h
  | some p =>
    dsimp only [setBound]
    rw [h]

/-! ## Entry to the window (R287) -/

section
variable {i : Instr} {regs regs' : List Nat} {rnd : Rnd} {check : State → Who → Option Res} {op : State → Who → MOp}

theorem mEntry_ready (h : MReady s w c regs) (hf : Full s w regs') :
    mEntry i c regs' rnd check op s = finish w 8 s ((check s w).getD (enterCmd s w c rnd (op s w))) := by
  rw [mEntry, whoOn_m h.acts h.eng, if_neg (Nat.not_le.mpr h.room),
    partnerFault_none (i := i) (by rw [h.eng]; exact h.takes) (by rw [h.eng]; exact h.gives)]
  dsimp only
  rw [needRegs_of_full _ hf]
  cases check s w <;> rfl

theorem mEntry_full {j : Instr} (hexec : exec j s = mEntry i c regs' rnd check op s) (h : Acts s w) (hw : w.eng = .m)
    (hfull : 16 ≤ (s.core w.core).ms.window.length) : Waits j s w := by
  rw [Waits, hexec, mEntry, whoOn_m h hw]
  dsimp only
  rw [if_pos hfull]
  rfl

/-- A value out of its range, named by its field. -/
theorem mEntry_traps {j : Instr} {cause : Nat} {v : Word} (hexec : exec j s = mEntry i c regs' rnd check op s) (h : MReady s w c regs)
    (hf : Full s w regs') (hcheck : check s w = some (.raise cause v)) : Traps j s w cause v := by
  rw [Traps, hexec, mEntry_ready h hf, hcheck]
  rfl

theorem enterCmd_eq (h : MReady s w c regs) (o : MOp) : ∃ R, enterCmd s w c rnd o = .ok (s.setCore w.core { s.core w.core with
      reserved := R, m := (s.core w.core).m.stepPhase rnd,
      ms := { (s.core w.core).ms with
        window := (s.core w.core).ms.window ++ [⟨(s.core w.core).ms.nextCmd, c.cid, o, .entered, c.take, c.give,
          predecessor (s.core w.core) c.pred1 ++ predecessor (s.core w.core) c.pred2, (s.core w.core).m.phase, false, 0, 0, [], [], [],
          none, 0, [], 0⟩],
        records := (s.core w.core).ms.records.filter (fun d => d.cid != c.cid ||
          (s.core w.core).ms.feeds.any (fun f => f.bound == some d.seq) || (s.core w.core).ms.array.any (fun p => p.cmd == d.seq)),
        nextCmd := (s.core w.core).ms.nextCmd + 1 } }) .seq ∧
    ∀ n, tget R n 0 = (s.core w.core).slots n + (if n ∈ giveFifos .m c.give then 1 else 0) := by
  obtain ⟨R, hR, hslots⟩ := reserve_eq (giveFifos .m c.give) (s.core w.core)
  refine ⟨R, ?_, hslots (giveFifos_nodup _ _)⟩
  have hroom : (s.core w.core).fullFifo (giveFifos w.eng (c.give % 4)) = none := by rw [h.eng]; exact h.slots
  have hgive : reserveGive s w (c.give % 4) = .ok (s.setCore w.core { s.core w.core with reserved := R }) := by
    rw [reserveGive]
    dsimp only
    rw [hroom, h.eng, giveFifos_mod, hR]
  rw [enterCmd]
  dsimp only
  rw [hgive]
  dsimp only
  rw [State.core_setCore_self, State.setCore_setCore]

theorem mEntry_enters {j : Instr} (hexec : exec j s = mEntry i c regs' rnd check op s) (h : MReady s w c regs) (hf : Full s w regs')
    (hcheck : check s w = none) : Enters j s w c rnd (op s w) := by
  obtain ⟨R, henter, hslots⟩ := enterCmd_eq (rnd := rnd) h (op s w)
  have hm : ∀ k : Core, k.stream w.eng = k.m := fun k => by rw [h.eng]; rfl
  have hset : ∀ (k : Core) (u : Stream), k.setStream w.eng u = { k with m := u } := fun k u => by rw [h.eng]; rfl
  have hmem : (s.core w.core).m = s.stream w := by rw [← hm]; rfl
  rw [mEntry_ready h hf, hcheck, Option.getD_none, henter, finish_core h.line] at hexec
  · refine ⟨_, hexec, ?_, ?_, ?_, ?_, ?_, ?_, onlyCore_goTo _ _ _⟩ <;> rw [core_goTo, hset, hm]
    · exact fun r hr => List.mem_of_mem_filter hr
    · exact fun r hr hne => List.mem_filter.mpr ⟨hr, by simp [hne]⟩
    · exact hslots
    · have hrun : runAfter ({ s.core w.core with
          reserved := R, m := (s.core w.core).m.stepPhase rnd,
          ms := { (s.core w.core).ms with
            window := (s.core w.core).ms.window ++ [⟨(s.core w.core).ms.nextCmd, c.cid, op s w, .entered, c.take, c.give,
              predecessor (s.core w.core) c.pred1 ++ predecessor (s.core w.core) c.pred2, (s.core w.core).m.phase, false, 0, 0, [],
              [], [], none, 0, [], 0⟩],
            records := (s.core w.core).ms.records.filter (fun d => d.cid != c.cid ||
              (s.core w.core).ms.feeds.any (fun f => f.bound == some d.seq) ||
              (s.core w.core).ms.array.any (fun p => p.cmd == d.seq)),
            nextCmd := (s.core w.core).ms.nextCmd + 1 } } : Core) ((s.core w.core).m.stepPhase rnd) = s.runNext w := by
        refine runAfter_congr rfl ?_ ?_
        · rw [Stream.stepPhase_run, hmem]
        · rw [Stream.stepPhase_at_, hmem]
      rw [hrun, stepPhase_eq]
      rfl
  · rw [hm, Stream.stepPhase_loops, hmem]
  · rw [hm, Stream.stepPhase_pc, hmem]

end

/-! ## The forms as entries (R300 to R305) -/

section
variable {acc wb ka kb kc e : Nat} {ty : Ty}

theorem mwld_entry : exec (.mwld wb ka kb kc ty c) s = mEntry (.mwld wb ka kb kc ty c) c [ka, kb, kc] .rne (fun s w =>
    if 127 < kreg s w ka then kaBad (.mwld wb ka kb kc ty c)
    else if kreg s w kb = 0 || 64 < kreg s w kb then kbBad (.mwld wb ka kb kc ty c)
    else if kreg s w kc = 0 || 64 < kreg s w kc || (ty == .k4 && kreg s w kc % 32 != 0) then kcBad (.mwld wb ka kb kc ty c)
    else if tileBytes < 4096 * kreg s w ka + kreg s w kb * rowLen ty (kreg s w kc) then kaBad (.mwld wb ka kb kc ty c)
    else none) (fun s w => .wld wb (kreg s w ka) (kreg s w kb) (kreg s w kc) ty) s := rfl

theorem mwlds_entry : exec (.mwlds wb ka kb kc e ty c) s = mEntry (.mwlds wb ka kb kc e ty c) c [ka, kb, kc] .rne (fun s w =>
    if 127 < kreg s w ka then kaBad (.mwlds wb ka kb kc e ty c)
    else if kreg s w kb % 8 != 0 || kreg s w kb < 8 || 128 < kreg s w kb then kbBad (.mwlds wb ka kb kc e ty c)
    else if kreg s w kc = 0 || 64 < kreg s w kc then kcBad (.mwlds wb ka kb kc e ty c)
    else if tileBytes < 4096 * kreg s w ka + kreg s w kc * (kreg s w kb / 2) * ty.width then kaBad (.mwlds wb ka kb kc e ty c)
    else none) (fun s w => .wlds wb (kreg s w ka) (kreg s w kb) (kreg s w kc) e ty) s := rfl

theorem mrun_entry {mode : MMode} {cm : Option Nat} : exec (.mrun acc wb ka kb mode ty cm c) s =
    mEntry (.mrun acc wb ka kb mode ty cm c) c [ka, kb] .rne (fun s w =>
      if 2 ^ 24 ≤ kreg s w ka then kaBad (.mrun acc wb ka kb mode ty cm c)
      else if 65536 ≤ kreg s w kb then kbBad (.mrun acc wb ka kb mode ty cm c)
      else none) (fun s w => .run acc wb (kreg s w ka) (kreg s w kb) mode ty ((s.stream w).profile c.np) cm) s := rfl

/-- MANCH with an anchor in a register. -/
theorem manch_entry : exec (.manch acc ka kb kc none c) s = mEntry (.manch acc ka kb kc none c) c [ka, kb, kc] .rne (fun s w =>
    if kreg s w kb = 0 then kbBad (.manch acc ka kb kc none c)
    else if 256 < kreg s w ka + kreg s w kb then kaBad (.manch acc ka kb kc none c)
    else if (regOf s w kc).toInt < -512 || 511 < (regOf s w kc).toInt then kcBad (.manch acc ka kb kc none c)
    else none) (fun s w => .anch acc (kreg s w ka) (kreg s w kb) (regOf s w kc).toInt) s := rfl

/-- MANCH with the anchor of K4 blocks. -/
theorem manch4_entry {kd : Nat} : exec (.manch acc ka kb kc (some kd) c) s =
    mEntry (.manch acc ka kb kc (some kd) c) c ([ka, kb, kc] ++ [kd]) .rne (fun s w =>
      if kreg s w kb = 0 then kbBad (.manch acc ka kb kc (some kd) c)
      else if 256 < kreg s w ka + kreg s w kb then kaBad (.manch acc ka kb kc (some kd) c)
      else if kreg s w kd = 0 || 64 < kreg s w kd || tileBytes < kreg s w kc + 17 * kreg s w kd
        then kdBad (.manch acc ka kb kc (some kd) c)
      else none) (fun s w => .anch4 acc (kreg s w ka) (kreg s w kb) (kreg s w kc) (kreg s w kd)) s := rfl

theorem mzero_entry : exec (.mzero acc ty c) s =
    mEntry (.mzero acc ty c) c [] .rne (fun _ _ => none) (fun _ _ => .zero acc ty) s := rfl

theorem mdrn_entry {rnd : Rnd} {sat clr : Bool} {kind : Nat} : exec (.mdrn acc ka kb kc ty rnd sat clr kind c) s =
    mEntry (.mdrn acc ka kb kc ty rnd sat clr kind c) c [ka, kb, kc] rnd (fun s w =>
      if kreg s w kb = 0 then kbBad (.mdrn acc ka kb kc ty rnd sat clr kind c)
      else if 256 < kreg s w ka + kreg s w kb then kaBad (.mdrn acc ka kb kc ty rnd sat clr kind c)
      else if kreg s w kc % 64 != 0 then some (.raise 0x13 (accTval false (kreg s w kc)))
      else if tileBytes < kreg s w kc + kreg s w kb * rowLen ty 64 then kbBad (.mdrn acc ka kb kc ty rnd sat clr kind c)
      else none) (fun s w => .drn acc (kreg s w ka) (kreg s w kb) (kreg s w kc) ty rnd sat clr kind) s := rfl

end

end

/-- Settles O46, form by form. -/
theorem matrixCommands : Obligations.MatrixCommands := by
  unfold Obligations.MatrixCommands
  intro s w d id a acc wb ka kb kc e ty c hw
  refine ⟨fun h => ⟨fun hnone => ?_, fun cm hcm => ⟨snapshot cm, ?_, snapshot_fields cm⟩⟩, fun h => ⟨fun hu => ?_, fun hu hend => ?_,
    fun cm x b base mode t np m hh hu hfound hret hcan hop => ⟨fun hr => ?_, fun hr hdone => ?_, fun hr hskip hplace hopen hfit =>
      mskip_counts h hw hu hfound hret hcan hop hr hskip hplace hopen hfit⟩⟩, fun h => ⟨fun hnot => ?_, fun cm hcm hsus hfit => ?_⟩,
    fun h => ⟨⟨fun hA => ?_, fun hA hB => ?_, fun hA hB0 hB hC => ?_, fun hA hB0 hB hC0 hC h32 hend => ?_⟩,
      ⟨fun hA hB => ?_, fun hA hB8 hBlo hBhi hC0 hC hend => ?_⟩,
      fun mode cm => ⟨fun hA => ?_, fun hA hB => ?_, fun hA hB => ?_⟩,
      ⟨fun hB => ?_, fun hB hA => ?_, fun hB hA hv => ?_, fun hB hA hlo hhi => ?_⟩,
      fun kd hkd => ⟨fun hB hA hm => ?_, fun hB hA hm0 hm hend => ?_⟩, ?_,
      fun rnd sat clr kind => ⟨fun hB hA hC => ?_, fun hB hA hC hend => ?_⟩⟩,
    fun hact hfull => ⟨?_, ?_, ?_,
      fun mode cm => ?_, fun kd => ?_, fun rnd sat clr kind => ?_⟩⟩
  · have hv := mqry_writes (id := id) h hw
    rwa [hnone] at hv
  · have hv := mqry_writes (id := id) h hw
    rwa [hcm] at hv
  · rw [Traps, mskip_finish h.1 hw h.2.1, if_pos hu]
    rfl
  · obtain ⟨hact, hfull, hst⟩ := h
    rw [mskip_finish hact hw hfull, if_neg (by omega)]
    cases hf : youngest ((s.core w.core).allCmds.filter (fun c => c.cid == id && c.op.isRun)) with
    | none => exact congrArg _ (retire_stays hst rfl rfl)
    | some cm =>
      dsimp only
      rw [if_pos (by simpa using hend cm hf)]
      exact congrArg _ (retire_stays hst rfl rfl)
  · rw [Traps, mskip_run h.1 hw h.2.1 hu hfound hret hcan hop, if_pos hr]
    rfl
  · obtain ⟨hact, hfull, hst⟩ := h
    rw [mskip_run hact hw hfull hu hfound hret hcan hop, if_neg (by omega), if_pos (by simpa using hdone)]
    exact congrArg _ (retire_stays hst rfl rfl)
  · obtain ⟨hact, hfull, hst⟩ := h
    change execMskipCx id s = _
    rw [execMskipCx, whoOn_m hact hw]
    cases hf : (s.core w.core).cmdOf id with
    | none => exact congrArg _ (retire_stays hst rfl rfl)
    | some cm =>
      dsimp only
      rw [if_pos (by simpa using hnot cm hf)]
      exact congrArg _ (retire_stays hst rfl rfl)
  · obtain ⟨R, T, hexec, htokens, hslots⟩ := mskipCx_cancels h hw hcm hsus hfit
    have hms : ∀ (k : Core) (u : Stream), (k.setStream w.eng u).ms = k.ms := fun k u => Core.setStream_ms k _ _
    refine ⟨_, hexec, onlyCore_coreGoes _ _ _, ?_, fun n => ?_, fun n => ?_, ?_⟩
    · rw [core_coreGoes, hms]
      exact bound_ms_congr rfl
    · rw [core_coreGoes, ← htokens n, Core.token, Core.setStream_tokens]
      exact congrArg (tget · n 0) (bound_tokens _).1
    · rw [core_coreGoes, ← hslots n, Core.slots, Core.setStream_reserved]
      exact congrArg (tget · n 0) (bound_tokens _).2
    · rw [stream_coreGoes, bound_stream]
      refine congrArg (fun r => ({ s.stream w with pc := s.pcOf w + 4, run := r, at_ := .free } : Stream)) ?_
      exact runAfter_congr (bound_held _) rfl rfl
  · exact mEntry_traps mwld_entry h h.regs (if_pos hA)
  · exact mEntry_traps mwld_entry h h.regs ((if_neg (by omega)).trans (if_pos (by simpa using hB)))
  · exact mEntry_traps mwld_entry h h.regs ((if_neg (by omega)).trans ((if_neg (by simp; omega)).trans
      (if_pos (by rcases hC with hC | hC <;> simp [hC]))))
  · refine mEntry_enters mwld_entry h h.regs ?_
    refine (if_neg (by omega)).trans ((if_neg (by simp; omega)).trans ((if_neg ?_).trans (if_neg (Nat.not_lt.mpr hend))))
    simp only [Bool.or_eq_true, Bool.and_eq_true, decide_eq_true_eq, beq_iff_eq, bne_iff_ne, ne_eq]
    rintro ((h0 | h64) | ⟨hk, hne⟩)
    · omega
    · omega
    · exact hne (h32 hk)
  · exact mEntry_traps mwlds_entry h h.regs ((if_neg (by omega)).trans (if_pos (by simpa [or_assoc] using hB)))
  · refine mEntry_enters mwlds_entry h h.regs ?_
    exact (if_neg (by omega)).trans ((if_neg (by simp; omega)).trans ((if_neg (by simp; omega)).trans (if_neg (Nat.not_lt.mpr hend))))
  · exact mEntry_traps mrun_entry h (h.regs.sub (by simp)) (if_pos hA)
  · exact mEntry_traps mrun_entry h (h.regs.sub (by simp)) ((if_neg (by omega)).trans (if_pos hB))
  · exact mEntry_enters mrun_entry h (h.regs.sub (by simp)) ((if_neg (by omega)).trans (if_neg (by omega)))
  · exact mEntry_traps manch_entry h (h.regs.sub (by simp)) (if_pos hB)
  · exact mEntry_traps manch_entry h (h.regs.sub (by simp)) ((if_neg (by omega)).trans (if_pos hA))
  · exact mEntry_traps manch_entry h (h.regs.sub (by simp)) ((if_neg (by omega)).trans ((if_neg (by omega)).trans (if_pos (by simpa using hv))))
  · exact mEntry_enters manch_entry h (h.regs.sub (by simp)) ((if_neg (by omega)).trans ((if_neg (by omega)).trans (if_neg (by simp; omega))))
  · exact mEntry_traps manch4_entry h (h.regs.add hkd) ((if_neg (by omega)).trans ((if_neg (by omega)).trans
      (if_pos (by
        simp only [Bool.or_eq_true, decide_eq_true_eq]
        exact or_assoc.mpr hm))))
  · exact mEntry_enters manch4_entry h (h.regs.add hkd) ((if_neg (by omega)).trans ((if_neg (by omega)).trans (if_neg (by
      simp only [Bool.or_eq_true, decide_eq_true_eq]
      rintro ((h0 | h64) | hbig)
      · omega
      · omega
      · exact absurd hbig (Nat.not_lt.mpr hend)))))
  · exact mEntry_enters mzero_entry h (h.regs.sub (by simp)) rfl
  · exact mEntry_traps mdrn_entry h h.regs ((if_neg (by omega)).trans ((if_neg (by omega)).trans (if_pos (by simpa using hC))))
  · exact mEntry_enters mdrn_entry h h.regs ((if_neg (by omega)).trans ((if_neg (by omega)).trans ((if_neg (by simpa using hC)).trans
      (if_neg (Nat.not_lt.mpr hend)))))
  · exact mEntry_full mzero_entry hact hw hfull
  · exact mEntry_full mwld_entry hact hw hfull
  · exact mEntry_full mwlds_entry hact hw hfull
  · exact mEntry_full mrun_entry hact hw hfull
  · cases kd with
    | none => exact mEntry_full manch_entry hact hw hfull
    | some kd => exact mEntry_full manch4_entry hact hw hfull
  · exact mEntry_full mdrn_entry hact hw hfull

end Sys2Proof.Machine
end

section
/-! SUPPORT. Requests of other packages, responses, and mail between packages (R448 to R453, R461 to R465), and the obligation about
them. -/

namespace Sys2Proof.Machine

/-! ## Bytes that are stored whole -/

theorem writeMasked_all : ∀ (l : List Byte) (m : Memory) (a : Nat), writeMasked m a l (List.replicate l.length true) = writeBytes m a l
  | [], _, _ => by rw [writeBytes]; simp [writeMasked]
  | b :: t, m, a => by
    rw [List.length_cons, List.replicate_succ, writeMasked, if_pos rfl, writeMasked_all t, writeBytes]

/-- The bytes of memory after a whole store. -/
theorem readB_writeMasked_all {m : Memory} {a n x : Nat} {l : List Byte} (h : m.wf = true) (hl : l.length = n) :
    readB (writeMasked m a l (List.replicate n true)) x = if a ≤ x ∧ x < a + n then l.getD (x - a) 0 else readB m x := by
  subst hl
  rw [writeMasked_all]
  by_cases hx : a ≤ x ∧ x < a + l.length
  · have hi : x - a < l.length := by omega
    rw [if_pos hx, List.getD_eq_getElem _ _ hi, ← readB_writeBytes_in h hi, Nat.add_sub_cancel' hx.1]
  · rw [if_neg hx, readB_writeBytes_out (by omega)]

section
variable {s : State} {r : FabReq}

/-! ## Requests from other packages (R448 to R450, R461) -/

theorem serve_foreign {act : State → State} (h : r.dstPkg ≠ s.pkgId ∨ r.srcPkg = s.pkgId) : serve s r act = .next s := by
  rw [serve, if_pos (by simpa using h)]

theorem serve_stale {act : State → State} (hd : r.dstPkg = s.pkgId) (hs : r.srcPkg ≠ s.pkgId)
    (hi : r.inc % 65536 ≠ s.incarnation % 65536) : serve s r act = .next (s.sends (.nack r.srcPkg r.tid 0x48)) := by
  rw [serve, if_neg (by simp [hd, hs]), if_pos hi]
  rfl

theorem serve_homeless {act : State → State} (h : Reaches s r)
    (hn : assigned (reqHome r) = false ∨ rangeEnd (reqHome r) < reqHome r + r.size) :
    serve s r act = .next (s.sends (.nack r.srcPkg r.tid 0x10)) := by
  obtain ⟨hd, hs, hi⟩ := h
  rw [serve, if_neg (by simp [hd, hs]), if_neg (by simp [hi]), if_pos (by simpa using hn)]
  rfl

theorem serve_done {act : State → State} (h : Reaches s r) (ha : assigned (reqHome r) = true)
    (he : reqHome r + r.size ≤ rangeEnd (reqHome r)) : serve s r act = .next (act s) := by
  obtain ⟨hd, hs, hi⟩ := h
  rw [serve, if_neg (by simp [hd, hs]), if_neg (by simp [hi]), if_neg (by simp [ha]; omega)]

theorem readRequest_exec : exec (.readRequest r) s = execReadRequest r s := rfl
theorem writeRequest_exec : exec (.writeRequest r) s = execWriteRequest r s := rfl
theorem atomicRequest_exec : exec (.atomicRequest r) s = execAtomicRequest r s := rfl

/-- What holds of every request, whatever it does. -/
theorem request_all {x : Out} (h : ∀ act : State → State, serve s r act = x) :
    ∀ i ∈ [Instr.readRequest r, .writeRequest r, .atomicRequest r], exec i s = x := by
  intro i hi
  simp only [List.mem_cons, List.not_mem_nil, or_false] at hi
  rcases hi with rfl | rfl | rfl
  · rw [readRequest_exec, execReadRequest, h]
  · rw [writeRequest_exec, execWriteRequest, h]
  · rw [atomicRequest_exec, execAtomicRequest, h]

section
variable (h : Reaches s r) (ha : assigned (reqHome r) = true) (he : reqHome r + r.size ≤ rangeEnd (reqHome r))
include h ha he

theorem readRequest_served : exec (.readRequest r) s = .next (
    match readBad s (reqHome r) r.size with
    | some c => emit s (.nack r.srcPkg r.tid c)
    | none => emit (readLocal s (reqHome r) r.size).2 (.data r.srcPkg r.tid (readLocal s (reqHome r) r.size).1)) := by
  rw [readRequest_exec, execReadRequest, serve_done h ha he] <;> rfl

theorem writeRequest_served : exec (.writeRequest r) s = .next (
    if storeBad s r.pa r.size then emit s (.nack r.srcPkg r.tid 0x50)
    else emit (foreignWrite (storeLocal s r.cmp r.pa (r.data.take r.size) (List.replicate r.size true)) r) (.ack r.srcPkg r.tid)) := by
  rw [writeRequest_exec, execWriteRequest, serve_done h ha he]

theorem atomicRequest_served (hep : r.epoch = 0) : exec (.atomicRequest r) s = .next (doAtomic s r) := by
  rw [atomicRequest_exec, execAtomicRequest, serve_done h ha he, if_pos hep]

theorem atomicRequest_held (hep : r.epoch ≠ 0) (hclears : s.clears = []) :
    exec (.atomicRequest r) s = .next { s with releases := s.releases ++ [.atomic r] } := by
  rw [atomicRequest_exec, execAtomicRequest, serve_done h ha he, if_neg hep, earlyWord, hclears]
  rfl

end

theorem foreignShadows_frame (r : FabReq) : ∀ (l : List Nat) (s : State), ∃ W, foreignShadows r l s = { s with shadow := W }
  | [], s => ⟨s.shadow, rfl⟩
  | a :: t, s => by
    rw [foreignShadows]
    split
    · obtain ⟨W, h⟩ := foreignShadows_frame r t { s with shadow := tset s.shadow a (foreignWord s r a) }
      exact ⟨W, h⟩
    · exact foreignShadows_frame r t s

theorem foreignWrite_frame (s : State) (r : FabReq) : ∃ W, foreignWrite s r = { s with shadow := W } := by
  rw [foreignWrite]
  split
  · exact foreignShadows_frame _ _ _
  · exact ⟨s.shadow, rfl⟩

/-- The state after a request has stored bytes at its address and answered. -/
def answered (s : State) (r : FabReq) (l : List Byte) (x : FabMsg) : State :=
  emit (foreignWrite (storeLocal s r.cmp r.pa l (List.replicate r.size true)) r) x

theorem answered_frame (s : State) (r : FabReq) (l : List Byte) (x : FabMsg) : ∃ T B C W, answered s r l x =
    { s with
      mem := writeMasked s.mem r.pa l (List.replicate r.size true), tags := T, badMem := B, counters := C, shadow := W,
      toFabric := s.toFabric ++ [x] } := by
  obtain ⟨T, B, C, h⟩ := storeLocal_frame s r.cmp r.pa l (List.replicate r.size true)
  obtain ⟨W, hW⟩ := foreignWrite_frame (storeLocal s r.cmp r.pa l (List.replicate r.size true)) r
  refine ⟨T, B, C, W, ?_⟩
  rw [answered, hW, h]
  rfl

theorem answered_stores {l : List Byte} (x : FabMsg) (hwf : s.mem.wf = true) (hl : l.length = r.size) (a : Nat) :
    readB (answered s r l x).mem a = if r.pa ≤ a ∧ a < r.pa + r.size then l.getD (a - r.pa) 0 else readB s.mem a := by
  obtain ⟨T, B, C, W, h⟩ := answered_frame s r l x
  rw [h]
  exact readB_writeMasked_all hwf hl

theorem answered_done (l : List Byte) (x : FabMsg) : (answered s r l x).toFabric = s.toFabric ++ [x] ∧
    (answered s r l x).cores = s.cores ∧ (answered s r l x).requests = s.requests := by
  obtain ⟨T, B, C, W, h⟩ := answered_frame s r l x
  rw [h]
  exact ⟨rfl, rfl, rfl⟩

theorem doAtomic_done (hs : storeBad s r.pa r.size = false) (hr : readBad s r.pa r.size = none) : doAtomic s r =
    answered s r (bytesOf r.size (amoNew r.size (reqAmo r) (natOf (readBytes s.mem r.pa r.size))))
      (.data r.srcPkg r.tid (readBytes s.mem r.pa r.size)) := by
  rw [doAtomic, hs, if_neg Bool.false_ne_true, hr]
  rfl

theorem doAtomic_lost {c : Nat} (hs : storeBad s r.pa r.size = false) (hr : readBad s r.pa r.size = some c) :
    doAtomic s r = s.sends (.nack r.srcPkg r.tid c) := by
  rw [doAtomic, hs, if_neg Bool.false_ne_true, hr]
  rfl

/-! ## Responses (R449, R450, R464) -/

variable {tid : Nat} {fits : OutReq → Bool} {reply : Reply}

theorem answer_late (h : ∀ q ∈ s.requests, q.tid = tid → q.reply ≠ none) :
    answer s tid fits reply = { s with lateResponses := s.lateResponses + 1 } := by
  have hnone : s.requests.find? (fun q => q.tid == tid && q.reply.isNone) = none := by
    rw [List.find?_eq_none]
    intro q hq
    simp only [Bool.and_eq_true, beq_iff_eq, Option.isNone_iff_eq_none, not_and]
    exact h q hq
  rw [answer, hnone]

theorem wakeHost_idle (hops : s.ops = []) (hdev : s.devWrites = []) : wakeHost s = s := by
  rw [wakeHost, hops, finishOps, State.pump, hdev]
  rfl

theorem answer_found {q : OutReq} (h : s.requests.find? (fun q => q.tid == tid && q.reply.isNone) = some q) (hops : s.ops = [])
    (hdev : s.devWrites = []) : answer s tid fits reply = if fits q then { s with
        requests := s.requests.map (fun p => if p = q then { p with reply := some reply } else p),
        peers := tset s.peers q.dst { s.peer q.dst with heard := s.clock } }
      else { s with fabDropped := s.fabDropped + 1 } := by
  rw [answer, h]
  dsimp only
  cases hf : fits q with
  | false => rfl
  | true =>
    rw [if_neg (by decide), if_pos rfl]
    rw [wakeHost_idle (by exact hops) (by exact hdev)]
    simp only [beq_iff_eq]
    rfl

/-! ## Mail between packages (R452, R453, R465) -/

variable {m : MboxMsg} {core i : Nat}

theorem mailboxWrite_in : exec (.mailboxWrite (some m) core) s = .next (receiveMail s m) := rfl

theorem mailboxWrite_out (hc : core < 512) : exec (.mailboxWrite none core) s = .next (sendAway s core) := by
  change execMailboxWrite none core s = _
  simp [execMailboxWrite, coreExists, hc]

theorem receiveMail_reaches (hd : m.dstPkg = s.pkgId) (hs : m.srcPkg ≠ s.pkgId) (hc : m.dstCore < 512)
    (hi : m.inc % 65536 = s.incarnation % 65536) : receiveMail s m =
      if m.rel = 0 then { s with inbound := s.inbound ++ [m] }
      else
        match earlyWord s m.srcPkg m.srcCore (m.rel - 1) with
        | some true => { dropEarly s m.srcPkg m.srcCore (m.rel - 1) with inbound := s.inbound ++ [m] }
        | some false => dropEarly s m.srcPkg m.srcCore (m.rel - 1)
        | none => { s with releases := s.releases ++ [.mail m] } := by
  rw [receiveMail, if_neg (by simp [hd, hs, hi]; omega)] <;> rfl

theorem heldRel_iff (c rel : Nat) : heldRel s c rel = true ↔ rel ≠ 0 ∧ ∃ x ∈ s.relActs, x.core = c ∧ x.epoch + 1 = rel := by
  simp [heldRel]

/-- The state in which a write to another package has left its port. -/
def mailOut (s : State) (core i : Nat) (m : MboxMsg) : State :=
  let v := s.setCore core { s.core core with outbound := ldel (s.core core).outbound i }
  { v with sentMail := tset s.sentMail m.dstPkg (tget s.sentMail m.dstPkg 0 + 1) }

theorem sendAway_lost (h : firstAway s (s.core core).outbound = some (i, m)) (hup : (s.peer m.dstPkg).up = false) :
    sendAway s core = { s.setCore core { s.core core with outbound := ldel (s.core core).outbound i } with
      lostMail := s.lostMail + 1 } := by
  rw [sendAway, h]
  dsimp only
  rw [hup]
  rfl

theorem sendAway_sends (h : firstAway s (s.core core).outbound = some (i, m)) (hup : (s.peer m.dstPkg).up = true) :
    sendAway s core = if m.rel != 0 && !heldRel s core m.rel
      then ((mailOut s core i m).sends (.mailbox m)).sends (.clear m.dstPkg core (m.rel - 1))
      else (mailOut s core i m).sends (.mailbox m) := by
  rw [sendAway, h]
  dsimp only
  rw [hup]
  rfl

end

/-- Settles O57, by what a message asks for. -/
theorem requestsAreServed : Obligations.RequestsAreServed := by
  unfold Obligations.RequestsAreServed
  intro s r tid cause core data m
  refine ⟨fun h => request_all fun _ => serve_foreign h, fun hd hs hi => request_all fun _ => serve_stale hd hs hi,
    fun h hn => request_all fun _ => serve_homeless h hn, fun h ha he => ⟨fun c hc => ?_, fun hc => ?_, fun hrep hwf =>
      ⟨fun hbad => ⟨?_, fun hep => ?_⟩, fun hbad hlen => ?_, fun hep hbad => ⟨fun c hc => ?_, fun hc => ?_⟩, fun hep hclears => ?_⟩⟩,
    fun h => ⟨congrArg _ (answer_late h), congrArg _ (answer_late h), fun hcause => ?_⟩, fun hcause => ?_,
    fun q hq hops hdev => ⟨?_, congrArg _ (answer_found hq hops hdev), fun hcause => ?_⟩,
    fun h => ?_, fun hd hs hc hi => ⟨fun hrel => ?_, fun hrel hclears => ?_⟩, fun hc h => ?_,
    fun i hc h => ⟨fun hup => ?_, fun hup => ⟨fun hrel => ?_, fun hrel hacts => ?_⟩⟩⟩
  · change readBad s (reqHome r) r.size = some c at hc
    rw [readRequest_served h ha he, hc]
    rfl
  · change readBad s (reqHome r) r.size = none at hc
    obtain ⟨C, hread⟩ := readLocal_frame s (reqHome r) r.size
    rw [readRequest_served h ha he, hc, hread]
    exact ⟨_, rfl, rfl, rfl, rfl, rfl⟩
  · rw [writeRequest_served h ha he, if_pos hbad]
    rfl
  · rw [atomicRequest_served h ha he hep, doAtomic, if_pos hbad]
    rfl
  · rw [writeRequest_served h ha he, hbad, if_neg Bool.false_ne_true, ← hlen, List.take_length, hlen]
    exact ⟨_, rfl, answered_stores _ hwf hlen, answered_done _ _⟩
  · rw [atomicRequest_served h ha he hep, doAtomic_lost hbad hc]
  · rw [atomicRequest_served h ha he hep, doAtomic_done hbad hc]
    exact ⟨_, rfl, answered_done _ _, answered_stores _ hwf (length_bytesOf _ _)⟩
  · exact atomicRequest_held h ha he hep hclears
  · change execNack tid cause s = _
    rw [execNack, if_pos (by simpa using hcause), answer_late h]
  · change execNack tid cause s = _
    rw [execNack, if_neg (by simpa using hcause)]
  · change Host.Outcome.next (answer s tid (fun q => q.len == data.length) (.data data)) = _
    rw [answer_found hq hops hdev]
    simp only [beq_iff_eq]
  · change execNack tid cause s = _
    rw [execNack, if_pos (by simpa using hcause), answer_found hq hops hdev]
    rfl
  · rw [mailboxWrite_in, receiveMail, if_pos (by simpa [or_assoc] using h)]
  · rw [mailboxWrite_in, receiveMail_reaches hd hs hc hi, if_pos hrel]
  · rw [mailboxWrite_in, receiveMail_reaches hd hs hc hi, if_neg hrel, earlyWord, hclears]
    rfl
  · have hnone : firstAway s (s.core core).outbound = none := by
      rw [firstAway, List.find?_eq_none]
      intro p hp
      obtain ⟨j, hj, rfl⟩ := List.mem_mapIdx.mp hp
      simp [h _ (List.getElem_mem hj)]
    rw [mailboxWrite_out hc, sendAway, hnone]
  · rw [mailboxWrite_out hc, sendAway_lost h hup]
  · rw [mailboxWrite_out hc, sendAway_sends h hup, if_neg]
    · rfl
    · simp only [Bool.and_eq_true, bne_iff_ne, ne_eq, Bool.not_eq_true', not_and, Bool.not_eq_false]
      exact fun hne => (heldRel_iff _ _).mpr ⟨hne, hrel.resolve_left hne⟩
  · rw [mailboxWrite_out hc, sendAway_sends h hup, if_pos]
    · rfl
    · simp only [Bool.and_eq_true, bne_iff_ne, ne_eq, Bool.not_eq_true']
      refine ⟨hrel, ?_⟩
      rw [Bool.eq_false_iff]
      intro hheld
      obtain ⟨_, x, hx, hcore, hep⟩ := (heldRel_iff _ _).mp hheld
      exact hacts x hx hcore hep

end Sys2Proof.Machine
end

section
/-! SUPPORT. What the end of jobs leaves of the other cores, the holds and the messages to the host (R139, R379). -/

namespace Sys2Proof.Machine

/-- The second state has the cores of the first, apart from the writes held on them, and its holds, failed dies, heat, endings and debuggers; to its
messages to the host others may have joined. -/
structure Beside (s t : State) : Prop where
  told : s.toHost <+: t.toHost
  holds : t.holds = s.holds
  failed : t.failedDies = s.failedDies
  heat : t.heat = s.heat
  endings : t.endings = s.endings
  attached : t.attached = s.attached
  core : ∀ c, ∃ l, t.core c = { s.core c with holding := l }

section
variable {s t u : State}

theorem Beside.quiet (ht : t.toHost = s.toHost := by rfl) (hh : t.holds = s.holds := by rfl)
    (hf : t.failedDies = s.failedDies := by rfl) (hheat : t.heat = s.heat := by rfl) (he : t.endings = s.endings := by rfl)
    (ha : t.attached = s.attached := by rfl) (hc : t.cores = s.cores := by rfl) : Beside s t :=
  ⟨ht ▸ List.prefix_rfl, hh, hf, hheat, he, ha, fun c => ⟨(s.core c).holding, by rw [State.core, hc, State.core]⟩⟩

theorem Beside.refl (s : State) : Beside s s := .quiet

theorem Beside.trans (h1 : Beside s t) (h2 : Beside t u) : Beside s u := by
  refine ⟨h1.told.trans h2.told, h2.holds.trans h1.holds, h2.failed.trans h1.failed, h2.heat.trans h1.heat,
    h2.endings.trans h1.endings, h2.attached.trans h1.attached, fun c => ?_⟩
  obtain ⟨l, hl⟩ := h1.core c
  obtain ⟨m, hm⟩ := h2.core c
  exact ⟨m, by rw [hm, hl]⟩

theorem Beside.of_device (h : DeviceOnly s t) : Beside s t :=
  ⟨h.told, h.holds, h.failedDies, h.heat, h.endings, h.attached, fun c => ⟨(s.core c).holding, h.core c⟩⟩

end

section
variable (s : State)

theorem Beside.of_say (m : HostMsg) : Beside s (say s m) := .of_device (.of_say s m)

theorem Beside.of_discardMails : ∀ (l : List MboxMsg) (s : State), Beside s (l.foldl discardMail s)
  | [], s => .refl s
  | m :: t, s => (Beside.of_say s _).trans (Beside.of_discardMails t (discardMail s m))

theorem Beside.of_dropHeld : ∀ (l : List Nat) (s : State), Beside s (dropHeld l s)
  | [], s => .refl s
  | d :: t, s => by
    refine Beside.trans ?_ (Beside.of_dropHeld t _)
    split
    · exact .refl s
    · refine Beside.trans (t := s.setCore d { s.core d with holding := [] }) ⟨List.prefix_rfl, rfl, rfl, rfl, rfl, rfl, fun c => ?_⟩
        (Beside.of_discardMails _ _)
      by_cases hc : c = d
      · subst hc
        exact ⟨[], State.core_setCore_self _ _ _⟩
      · exact ⟨_, State.core_setCore_ne _ _ hc⟩

theorem Beside.of_forgetLaunch (r : Nat) : Beside s (forgetLaunch s r) :=
  Beside.trans (t := { s with launches := s.launches.filter (fun l => l.record != r) }) (.quiet) (Beside.of_dropHeld _ _)

theorem Beside.of_completeLaunch (r : Nat) : Beside s (completeLaunch s r) :=
  Beside.trans (t := s.setLrec r _) (.quiet) ((Beside.of_forgetLaunch _ r).trans (Beside.of_say _ _))

theorem Beside.of_tellOver (r : Nat) : ∀ (l : List Nat) (s : State), Beside s (tellOver r l s)
  | [], s => .refl s
  | p :: t, s => by
    refine Beside.trans ?_ (Beside.of_tellOver r t _)
    split
    · exact .refl s
    · exact .quiet

theorem Beside.of_mapAway (r : Nat) (f : Launch → Launch) : Beside s (s.mapAway r f) := by
  rw [State.mapAway]
  split
  · exact .quiet
  · exact .quiet

theorem Beside.of_partEnded (r p : Nat) : Beside s (partEnded s r p) := by
  have hmap := Beside.of_mapAway s r (fun l => { l with endedOn := p :: l.endedOn })
  simp only [partEnded]
  split
  · exact hmap
  · split
    · exact hmap
    · split
      · exact hmap.trans (.quiet)
      · exact hmap.trans ((Beside.of_tellOver _ _ _).trans (Beside.of_completeLaunch _ _))

theorem Beside.of_leaveLaunch (l : Launch) : Beside s (leaveLaunch s l) := by
  have hforget := Beside.of_forgetLaunch s l.record
  simp only [leaveLaunch]
  split
  · exact hforget
  · split
    · exact hforget.trans (.quiet)
    · split
      · exact hforget.trans (Beside.of_tellOver _ _ _)
      · exact hforget.trans (.quiet)

theorem Beside.of_waveEnded (l : Launch) : Beside s (waveEnded s l) := by
  have hnext : Beside s (if decide (l.wave + 1 < (s.lrec l.record).waves) then s.mapLaunch l.record Launch.nextWave else s) := by
    split
    · exact .quiet
    · exact .refl s
  simp only [waveEnded]
  split
  · exact Beside.of_leaveLaunch s l
  · split
    · split
      · exact .quiet
      · exact Beside.of_completeLaunch s _
    · split
      · exact Beside.of_partEnded s _ _
      · exact hnext.trans (.quiet)

theorem Beside.of_jobDone (r c : Nat) : Beside s (jobDone s r c) := by
  have hmap : Beside s (s.mapLaunch r (fun l => { l with done := c :: l.done })) := .quiet
  simp only [jobDone]
  split
  · exact hmap
  · split
    · exact hmap.trans (Beside.of_waveEnded _ _)
    · exact hmap

theorem Beside.of_dropHandle (id : Nat) : Beside s (dropHandle s id) := by
  rw [dropHandle]
  split
  · exact .refl s
  · dsimp only
    split
    · exact Beside.trans (t := { s with objs := tdel s.objs id }) (.quiet) (.of_device (reclaim_frame _ _ _))
    · exact .quiet

theorem Beside.of_closeSlots (ctx : Nat) : ∀ (l : List Nat) (s : State), Beside s (closeSlots ctx l s)
  | [], s => .refl s
  | slot :: t, s => by
    refine Beside.trans ?_ (Beside.of_closeSlots ctx t _)
    rw [closeSlot]
    split
    · exact .refl s
    · exact Beside.trans (t := s.setCtx ctx _) (.quiet) (Beside.of_dropHandle _ _)

end

/-! ## Jobs that end -/

section
variable {s : State} {c d : Nat}

theorem tryEndJob_ends {j : Job} (hj : (s.core d).job = some j) (ha : (s.core d).allEnded = true) (hs : (s.core d).settled = true) :
    ∃ u, Beside s u ∧ Beside (u.setCore d (u.core d).clearJob) (tryEndJob s d) := by
  refine ⟨closeSlots j.ctx ((s.core d).as.h.map Prod.snd) (unwait (dropOwnReleases s d) d),
    Beside.trans (t := unwait (dropOwnReleases s d) d) (.quiet) (Beside.of_closeSlots _ _ _), ?_⟩
  rw [tryEndJob, hj]
  dsimp only
  rw [ha, hs, Bool.and_self, if_pos rfl]
  exact Beside.of_jobDone _ _ _

theorem tryEndJob_stays (h : (s.core d).job = none ∨ ((s.core d).allEnded && (s.core d).settled) = false) : tryEndJob s d = s := by
  rw [tryEndJob]
  rcases h with h | h
  · rw [h]
  · split
    · rfl
    · rw [h, if_neg Bool.false_ne_true]

/-- What the end of a core's job does to the holds, the messages and the other cores. -/
theorem tryEndJob_beside (s : State) (d : Nat) : s.toHost <+: (tryEndJob s d).toHost ∧ (tryEndJob s d).holds = s.holds ∧
    (∀ c, c ≠ d → ∃ l, (tryEndJob s d).core c = { s.core c with holding := l }) ∧
    ((tryEndJob s d).core d = s.core d ∨ ∃ k l, (tryEndJob s d).core d = { Core.clearJob k with holding := l }) := by
  cases hj : (s.core d).job with
  | none =>
    rw [tryEndJob_stays (.inl hj)]
    exact ⟨List.prefix_rfl, rfl, fun c _ => ⟨_, rfl⟩, .inl rfl⟩
  | some j =>
    cases hes : ((s.core d).allEnded && (s.core d).settled) with
    | false =>
      rw [tryEndJob_stays (.inr hes)]
      exact ⟨List.prefix_rfl, rfl, fun c _ => ⟨_, rfl⟩, .inl rfl⟩
    | true =>
      rw [Bool.and_eq_true] at hes
      obtain ⟨u, hsu, hut⟩ := tryEndJob_ends hj hes.1 hes.2
      refine ⟨hsu.told.trans hut.told, hut.holds.trans hsu.holds, fun c hc => ?_, .inr ?_⟩
      · obtain ⟨l, hl⟩ := hsu.core c
        obtain ⟨m, hm⟩ := hut.core c
        exact ⟨m, by rw [hm, State.core_setCore_ne _ _ hc, hl]⟩
      · obtain ⟨m, hm⟩ := hut.core d
        exact ⟨u.core d, m, by rw [hm, State.core_setCore_self]⟩

theorem endStreams_frame : ∀ (l : List Eng) (k : Core), (endStreams k l).job = k.job ∧
    ∀ e, e ∈ l ∨ (k.stream e).run = .ended → ((endStreams k l).stream e).run = .ended
  | [], k => ⟨rfl, fun e h => h.resolve_left (by simp)⟩
  | f :: t, k => by
    obtain ⟨hjob, hrun⟩ := endStreams_frame t (k.setStream f { k.stream f with run := .ended, at_ := .free, late := [] })
    refine ⟨hjob.trans (by cases f <;> rfl), fun e h => hrun e ?_⟩
    by_cases hef : e = f
    · right
      rw [hef, Core.stream_setStream_self]
    · refine h.imp (fun hm => (List.mem_cons.mp hm).resolve_left hef) fun hk => ?_
      rw [← hk]
      rw [Core.stream_setStream_ne _ _ hef]

/-- A core whose job `j` has ended with fatal status, or still has transfers or commands that run on. -/
def Core.over (k : Core) (j : Job) : Prop :=
  k.held = false ∧ (k.job = none ∨ k.job = some j ∧ ∀ e ∈ j.streams, (k.stream e).run = .ended)

theorem Core.over_killed {k : Core} {j : Job} (hj : k.job = some j) : (k.killed j.streams).over j := by
  obtain ⟨hjob, hrun⟩ := endStreams_frame j.streams
    { k with a := { k.a with pend := k.a.pend.filter (fun p => k.det.atomic != some p.id) } }
  refine ⟨rfl, .inr ⟨hjob.trans hj, fun e he => ?_⟩⟩
  rw [← hrun e (.inl he)]
  cases e <;> rfl

theorem Core.over_holding {k : Core} {j : Job} (h : k.over j) (l : List MboxMsg) : ({ k with holding := l } : Core).over j := by
  obtain ⟨hheld, hjob⟩ := h
  refine ⟨hheld, hjob.imp_right (And.imp_right fun hrun e he => ?_)⟩
  rw [← hrun e he]
  cases e <;> rfl

theorem killJob_beside (s : State) (d : Nat) : s.toHost <+: (killJob s d).toHost ∧ (killJob s d).holds = s.holds ∧
    (∀ c, c ≠ d → ∃ l, (killJob s d).core c = { s.core c with holding := l }) ∧
    (∀ j, (s.core d).job = some j → ((killJob s d).core d).over j) ∧
    ((s.core d).job = none → killJob s d = s) := by
  cases hj : (s.core d).job with
  | none =>
    have hkill : killJob s d = s := by rw [killJob, hj]
    rw [hkill]
    exact ⟨List.prefix_rfl, rfl, fun c _ => ⟨_, rfl⟩, fun j h => absurd h (by simp), fun _ => rfl⟩
  | some j =>
    have hkill : killJob s d = tryEndJob ((unwait s d).setCore d ((s.core d).killed j.streams)) d := by rw [killJob, hj]
    obtain ⟨htold, hholds, hcores, hcore⟩ := tryEndJob_beside ((unwait s d).setCore d ((s.core d).killed j.streams)) d
    rw [← hkill] at htold hholds hcores hcore
    refine ⟨htold, hholds, fun c hc => ?_, fun i hi => ?_, fun h => absurd h (by simp)⟩
    · obtain ⟨l, hl⟩ := hcores c hc
      exact ⟨l, by rw [hl, State.core_setCore_ne _ _ hc]; rfl⟩
    · obtain rfl := Option.some.inj hi
      rcases hcore with hcore | ⟨k, l, hcore⟩
      · rw [hcore, State.core_setCore_self]
        exact Core.over_killed hj
      · rw [hcore]
        exact ⟨rfl, .inl rfl⟩

theorem killJob_over {j : Job} (h : (s.core c).over j) : ((killJob s d).core c).over j := by
  obtain ⟨_, _, hcores, hjobs, hnone⟩ := killJob_beside s d
  by_cases hc : c = d
  · subst hc
    rcases h.2 with hj | ⟨hj, _⟩
    · rw [hnone hj]
      exact h
    · exact hjobs j hj
  · obtain ⟨l, hl⟩ := hcores c hc
    rw [hl]
    exact Core.over_holding h l

theorem killJobs_over {j : Job} : ∀ (l : List Nat) {s : State}, (s.core c).over j → ((killJobs l s).core c).over j
  | [], _, h => h
  | _ :: t, _, h => killJobs_over t (killJob_over h)

/-- Every job among those that are killed is over. -/
theorem killJobs_kills {j : Job} {l : List Nat} (hc : c ∈ l) (hj : (s.core c).job = some j) : ((killJobs l s).core c).over j := by
  induction l generalizing s with
  | nil => exact absurd hc (by simp)
  | cons d t ih =>
    obtain ⟨_, _, hcores, hjobs, _⟩ := killJob_beside s d
    by_cases hcd : c = d
    · exact killJobs_over t (hcd ▸ hjobs j (hcd ▸ hj))
    · obtain ⟨m, hm⟩ := hcores c hcd
      exact ih ((List.mem_cons.mp hc).resolve_left hcd) (by rw [hm]; exact hj)

theorem killJobs_beside : ∀ (l : List Nat) (s : State), s.toHost <+: (killJobs l s).toHost ∧ (killJobs l s).holds = s.holds
  | [], _ => ⟨List.prefix_rfl, rfl⟩
  | d :: t, s => by
    obtain ⟨htold, hholds, _⟩ := killJob_beside s d
    obtain ⟨htold', hholds'⟩ := killJobs_beside t (killJob s d)
    exact ⟨htold.trans htold', hholds'.trans hholds⟩

end

end Sys2Proof.Machine
end

section
/-! SUPPORT. Holds and droops (R336, R337, R378, R379), and the obligation about them. -/

namespace Sys2Proof.Machine

section
variable {s : State} {w : Who} {cl n : Nat}

theorem holdStreamLimit_eq (hc : w.core < 512) : exec (.holdStreamLimit w.core w.eng) s = .next (
    if (s.core w.core).held = true ∧ (s.core w.core).heldSince + 2 ^ 20 ≤ s.localCount (clusterOf w.core) ∧ (s.stream w).run = .running
      then s.setStream w { s.stream w with run := .held } else s) := by
  change execHoldStreamLimit w.core w.eng s = _
  rw [execHoldStreamLimit, if_neg (by simp [coreExists, hc])]
  simp only [Bool.and_eq_true, decide_eq_true_eq, beq_iff_eq, and_assoc]

/-! ## The end of a hold (R379) -/

section
variable {die i : Nat} {h : Hold}

theorem holdLimitExpiry_eq (hdie : die < 4) (hi : holdAt s die n = some i) (hh : s.holds[i]? = some h) :
    exec (.holdLimitExpiry die n) s =
      .next (if h.ctx ∉ s.attached ∧ h.began + s.holdLimit * 1300000000 ≤ s.clock then endHold s i else s) := by
  change execHoldLimitExpiry die n s = _
  rw [execHoldLimitExpiry, if_neg (Nat.not_le.mpr hdie), hi]
  dsimp only
  rw [hh]
  have hends : (!s.attached.contains h.ctx && decide (h.began + s.holdLimit * secondCycles ≤ s.clock)) = true ↔
      h.ctx ∉ s.attached ∧ h.began + s.holdLimit * secondCycles ≤ s.clock := by simp
  exact congrArg _ (if_congr hends rfl rfl)

theorem die_of_holdAt (hi : holdAt s die n = some i) (hh : s.holds[i]? = some h) : h.die = die := by
  obtain ⟨⟨k, g⟩, hget, rfl⟩ := Option.map_eq_some_iff.mp hi
  obtain ⟨hmem, hdie⟩ := List.mem_filter.mp (List.mem_of_getElem? hget)
  obtain ⟨m, hm, heq⟩ := List.mem_mapIdx.mp hmem
  obtain ⟨rfl, rfl⟩ := Prod.mk.inj heq
  rw [List.getElem?_eq_getElem hm] at hh
  rw [← Option.some.inj hh]
  exact eq_of_beq hdie

/-- What a table lists no entry of reads as the default. -/
theorem tfind_of_not_mem {α : Type} : ∀ {t : Tbl α} {k : Nat}, k ∉ t.map Prod.fst → tfind t k = none
  | [], _, _ => rfl
  | (j, v) :: t, k, h => by
    simp only [List.map_cons, List.mem_cons, not_or] at h
    rw [tfind, if_neg (fun hj => h.1 hj.symm), tfind_of_not_mem h.2]

theorem tfind_map {α : Type} (f : α → α) : ∀ (t : Tbl α) (k : Nat), tfind (t.map (fun p => (p.1, f p.2))) k = (tfind t k).map f
  | [], _ => rfl
  | (j, v) :: t, k => by
    rw [List.map_cons, tfind, tfind, tfind_map f t k]
    split <;> rfl

/-- A core of which something has been written is in the list of cores. -/
theorem mem_cores_of_held {c : Nat} (h : (s.core c).held = true) : c ∈ s.cores.map Prod.fst := by
  by_contra hout
  rw [State.core, tget, tfind_of_not_mem hout] at h
  exact Bool.noConfusion h

theorem thawFaults_frame (gs : List Nat) : ∀ (l : List Nat) (s : State), ∃ C, thawFaults l gs s = { s with clusters := C }
  | [], s => ⟨s.clusters, rfl⟩
  | c :: t, s => by
    obtain ⟨C1, h1⟩ := thawAll_frame (.fault c .a) gs s
    obtain ⟨C2, h2⟩ := thawAll_frame (.fault c .x) gs (thawAll (.fault c .a) gs s)
    obtain ⟨C3, h3⟩ := thawAll_frame (.fault c .m) gs (thawAll (.fault c .x) gs (thawAll (.fault c .a) gs s))
    obtain ⟨C, hC⟩ := thawFaults_frame gs t (thawAll (.fault c .m) gs (thawAll (.fault c .x) gs (thawAll (.fault c .a) gs s)))
    exact ⟨C, by rw [thawFaults, hC, h3, h2, h1]⟩

/-- The end of a hold whose record goes to the host: the hold is gone, and every held job of its context on its die is over. -/
theorem endHold_over (hh : s.holds[i]? = some h) (hdump : (s.ctx h.ctx).dw 6 = 0) (hopen : s.session.phase = .opened) :
    (endHold s i).holds = ldel s.holds i ∧ HostMsg.hold (holdRecord s h false) ∈ (endHold s i).toHost.map HostOut.msg ∧
      ∀ c j, (s.core c).held = true → dieOf c = h.die → (s.core c).job = some j → j.ctx = h.ctx → ((endHold s i).core c).over j := by
  obtain ⟨cover, hcover⟩ : ∃ l, l = (heldCores s h.ctx h.die h.core h.gauge ++
      (s.cores.map Prod.fst).filter (fun d => (s.core d).held && dieOf d == h.die)).filter (fun d =>
        (s.core d).job.isSome && (s.core d).ctx == h.ctx) := ⟨_, rfl⟩
  obtain ⟨u, hu⟩ : ∃ u, u = say { s with holds := ldel s.holds i } (.hold (holdRecord { s with holds := ldel s.holds i } h false)) :=
    ⟨_, rfl⟩
  have hend : endHold s i = killJobs cover (thawFaults cover (u.domain h.ctx h.die) (thawAll .hold (u.domain h.ctx h.die) u)) := by
    rw [endHold, hh]
    dsimp only
    rw [if_pos hdump, ← hcover, ← hu]
  obtain ⟨C, hC⟩ := thawAll_frame .hold (u.domain h.ctx h.die) u
  obtain ⟨D, hD⟩ := thawFaults_frame (u.domain h.ctx h.die) cover (thawAll .hold (u.domain h.ctx h.die) u)
  obtain ⟨htold, hholds⟩ := killJobs_beside cover (thawFaults cover (u.domain h.ctx h.die) (thawAll .hold (u.domain h.ctx h.die) u))
  rw [← hend] at htold hholds
  rw [hD, hC] at htold hholds
  have hsay := Beside.of_say { s with holds := ldel s.holds i } (.hold (holdRecord { s with holds := ldel s.holds i } h false))
  rw [← hu] at hsay
  refine ⟨hholds.trans hsay.holds, ?_, fun c j hheld hdie hjob hctx => ?_⟩
  · refine (htold.map HostOut.msg).subset ?_
    change _ ∈ u.toHost.map HostOut.msg
    rw [hu, say_opened (s := { s with holds := ldel s.holds i }) hopen]
    exact List.mem_append_right _ (List.mem_singleton.mpr rfl)
  · rw [hend]
    refine killJobs_kills ?_ ?_
    · rw [hcover, List.mem_filter]
      refine ⟨List.mem_append_right _ (List.mem_filter.mpr ⟨mem_cores_of_held hheld, ?_⟩), ?_⟩
      · simp [hheld, hdie]
      · simp [Core.ctx, hjob, hctx]
    · rw [hD, hC]
      obtain ⟨l, hl⟩ := hsay.core c
      change (u.core c).job = some j
      rw [hl]
      exact hjob

end

/-! ## Stretched cycles and droops (R336, R337) -/

theorem droopStretch_eq (hcl : cl < 32) : exec (.droopStretch cl n) s = .next (
    if (s.cluster cl).gauge = true ∨ 8 < n then s else s.setCluster cl { s.cluster cl with stretch := (s.cluster cl).stretch + n }) := by
  change execDroopStretch cl n s = _
  rw [execDroopStretch, if_neg (Nat.not_le.mpr hcl)]
  simp only [Bool.or_eq_true, decide_eq_true_eq]

theorem cluster_lapse (hheat : s.heat = .normal) : (s.lapse n).cluster cl = (s.cluster cl).lapse n := by
  rw [State.lapse, if_pos hheat, State.cluster, State.cluster, tget, tget]
  dsimp only
  rw [tfind_map]
  cases tfind s.clusters cl with
  | some p => rfl
  | none => simp [Cluster.lapse, Cluster.reset]

theorem droopFreeze_eq (hcl : cl < 32) (hdom : cl ∈ gaugeDomain s cl) (hd : droopOf s cl = none) : exec (.droopFreeze cl) s =
    .next (freezeAll (.droop s.clock) (gaugeDomain s cl) (s.count (ctrDroop (dieOfCluster cl)) 1)) := by
  change execDroopFreeze cl s = _
  rw [execDroopFreeze, if_neg (Nat.not_le.mpr hcl)]
  dsimp only
  rw [if_neg]
  simp [hd, List.ne_nil_of_mem hdom]

theorem droopRecovery_thaws (hcl : cl < 32) (hd : droopOf s cl = some n) : exec (.droopRecovery cl) s = .next
    (thawAll (.droop n) (cl :: gaugeDomain s cl) (s.count (ctrFrozen (dieOfCluster cl)) (s.clock - n))) := by
  change execDroopRecovery cl s = _
  rw [execDroopRecovery, if_neg (Nat.not_le.mpr hcl), hd]

theorem droopRecovery_none (hcl : cl < 32) (hd : droopOf s cl = none) : exec (.droopRecovery cl) s = .next s := by
  change execDroopRecovery cl s = _
  rw [execDroopRecovery, if_neg (Nat.not_le.mpr hcl), hd]

theorem droop_not_frozen (hd : droopOf s cl = none) : Freeze.droop n ∉ (s.cluster cl).frozen := fun hmem =>
  absurd (List.findSome?_eq_none_iff.mp hd _ hmem) (by simp)

/-- A cluster that freezes with its domain has the one new reason behind the others. -/
theorem frozen_freezeAll_once {why : Freeze} : ∀ (l : List Nat) (s : State), cl ∈ l → why ∉ (s.cluster cl).frozen →
    ((freezeAll why l s).cluster cl).frozen = (s.cluster cl).frozen ++ [why] := by
  have hkeep : ∀ (l : List Nat) (s : State), why ∈ (s.cluster cl).frozen →
      ((freezeAll why l s).cluster cl).frozen = (s.cluster cl).frozen := by
    intro l
    induction l with
    | nil => exact fun _ _ => rfl
    | cons g t ih =>
      intro s hin
      have hstep : (s.freeze g why).cluster cl = s.cluster cl := by
        by_cases hg : cl = g
        · subst hg
          rw [State.freeze, if_pos (List.contains_iff_mem.mpr hin)]
        · exact cluster_freeze_ne _ _ _ _ hg
      rw [freezeAll, ih _ (by rw [hstep]; exact hin), hstep]
  intro l
  induction l with
  | nil => exact fun _ h => absurd h (by simp)
  | cons g t ih =>
    intro s hin hout
    rw [freezeAll]
    by_cases hg : cl = g
    · subst hg
      have hfreeze : ((s.freeze cl why).cluster cl).frozen = (s.cluster cl).frozen ++ [why] := by
        simp [State.freeze, hout]
      rw [hkeep t _ (by rw [hfreeze]; simp), hfreeze]
    · have hstep : (s.freeze g why).cluster cl = s.cluster cl := cluster_freeze_ne _ _ _ _ hg
      rw [ih _ ((List.mem_cons.mp hin).resolve_left hg) (by rw [hstep]; exact hout), hstep]

theorem frozen_thawAll (why : Freeze) : ∀ (l : List Nat) (s : State), (s.cluster cl).frozen = [] →
    ((thawAll why l s).cluster cl).frozen = []
  | [], _, h => h
  | g :: t, s, h => by
    refine frozen_thawAll why t _ ?_
    by_cases hg : cl = g
    · subst hg
      rw [frozen_thaw_self, h, List.filter_nil]
    · rw [cluster_thaw_ne _ _ _ _ hg, h]

end

/-- Settles O52, from what each event does to holds and clusters. -/
theorem holdsAndDroops : Obligations.HoldsAndDroops := by
  unfold Obligations.HoldsAndDroops
  intro s w cl n hc hcl
  refine ⟨fun hheld hsince hrun => ?_, fun hnot => ?_, fun die i h hdie hi hh => ⟨fun hkeep => ?_, fun hdet hend hdump hopen => ?_⟩,
    fun hg hn => ?_, fun hg hf hheat => ?_, fun hnot => ?_, fun hdom hd => ?_, fun hf hdom hsince hn => ?_, fun hd => ?_⟩
  · rw [holdStreamLimit_eq hc, if_pos ⟨hheld, hsince, hrun⟩]
  · rw [holdStreamLimit_eq hc, if_neg]
    rintro ⟨hheld, hsince, hrun⟩
    rcases hnot with h | h | h
    · rw [hheld] at h
      exact Bool.noConfusion h
    · exact absurd hsince (Nat.not_le.mpr h)
    · exact h hrun
  · rw [holdLimitExpiry_eq hdie hi hh, if_neg]
    rintro ⟨hdet, hend⟩
    exact hkeep.elim hdet (Nat.not_lt.mpr hend)
  · obtain ⟨hholds, htold, hover⟩ := endHold_over hh hdump hopen
    refine ⟨endHold s i, by rw [holdLimitExpiry_eq hdie hi hh, if_pos ⟨hdet, hend⟩], hholds, htold, fun c j hheld hc hj hctx => ?_⟩
    obtain ⟨hfree, hjob⟩ := hover c j hheld (hc.trans (die_of_holdAt hi hh).symm) hj hctx
    exact ⟨hfree, hjob.imp_right And.right⟩
  · rw [droopStretch_eq hcl, if_neg]
    rintro (h | h)
    · rw [hg] at h
      exact Bool.noConfusion h
    · exact absurd h (Nat.not_lt.mpr hn)
  · rw [cluster_lapse hheat, Cluster.lapse, if_neg (by simp [hg, hf])]
  · rw [droopStretch_eq hcl, if_pos hnot]
  · obtain ⟨C, hC⟩ := freezeAll_frame (.droop s.clock) (gaugeDomain s cl) (s.count (ctrDroop (dieOfCluster cl)) 1)
    refine ⟨_, droopFreeze_eq hcl hdom hd, frozen_freezeAll_once _ _ hdom (droop_not_frozen hd), ?_, ?_, ?_, ?_⟩
    · rw [hC]
      exact tget_tset_self _ _ _ _
    · rw [localCount_freezeAll]
      rfl
    · rw [hC]
      rfl
    · rw [hC]
      rfl
  · have hd : droopOf s cl = some n := by simp [droopOf, hf]
    obtain ⟨C, hC⟩ := thawAll_frame (.droop n) (cl :: gaugeDomain s cl) (s.count (ctrFrozen (dieOfCluster cl)) (s.clock - n))
    refine ⟨_, droopRecovery_thaws hcl hd, ?_, ?_, ?_, ?_, ?_⟩
    · refine frozen_thawAll _ (gaugeDomain s cl) _ ?_
      rw [frozen_thaw_self]
      change (s.cluster cl).frozen.filter _ = _
      simp [hf]
    · refine (localCount_thawAll _ _ (s := s.count (ctrFrozen (dieOfCluster cl)) (s.clock - n)) ?_).trans rfl
      change (s.cluster cl).since ≤ s.clock
      omega
    · rw [hC]
      exact tget_tset_self _ _ _ _
    · rw [hC]
      rfl
    · rw [hC]
      rfl
  · exact droopRecovery_none hcl hd

end Sys2Proof.Machine
end

section
/-! SUPPORT. Releases that this hub holds, and barriers of fabric scope at their leader (R456, R459, R465). -/

namespace Sys2Proof.Machine

/-! ## Releases (R465, R466) -/

section
variable {s : State} {pkg core epoch : Nat} {x : Release} {m : MboxMsg} {r : FabReq}

theorem mail_src (h : Release.is pkg core epoch (.mail m) = true) : m.srcPkg = pkg ∧ m.srcCore = core := by
  simp only [Release.is, Bool.and_eq_true, beq_iff_eq] at h
  exact h.1

theorem releaseClear_early (hpkg : pkg ≠ s.pkgId) (h : s.releases.find? (Release.is pkg core epoch) = none) :
    exec (.releaseClear pkg core epoch) s = .next { s with clears := (pkg, core, epoch, true) :: s.clears } := by
  change execReleaseClear pkg core epoch s = _
  simp [execReleaseClear, hpkg, h]

theorem releaseClear_performs (hacts : pkg = s.pkgId → ∀ x ∈ s.relActs, x.core = core → x.epoch ≠ epoch)
    (h : s.releases.find? (Release.is pkg core epoch) = some x) : exec (.releaseClear pkg core epoch) s =
    .next (if releaseStill s x then s else performRelease { s with releases := s.releases.filter (fun y => y != x) } x) := by
  change execReleaseClear pkg core epoch s = _
  rw [execReleaseClear, if_neg, h]
  simp only [Bool.and_eq_true, decide_eq_true_eq, List.any_eq_true, beq_iff_eq, not_and, not_exists]
  exact hacts

theorem releaseClear_acts (h : ∃ x ∈ s.relActs, x.core = core ∧ x.epoch = epoch) :
    exec (.releaseClear s.pkgId core epoch) s = .next s := by
  change execReleaseClear s.pkgId core epoch s = _
  rw [execReleaseClear, if_pos]
  simpa using h

theorem releaseCancel_early (hpkg : pkg ≠ s.pkgId) (h : s.releases.find? (Release.is pkg core epoch) = none) :
    exec (.releaseCancel pkg core epoch) s = .next { s with clears := (pkg, core, epoch, false) :: s.clears } := by
  change execReleaseCancel pkg core epoch s = _
  rw [execReleaseCancel, if_neg hpkg, if_neg]
  simpa using h

theorem releaseCancel_held (hpkg : pkg ≠ s.pkgId) (h : s.releases.find? (Release.is pkg core epoch) = some x) :
    exec (.releaseCancel pkg core epoch) s =
      .next { s with releases := s.releases.filter (fun y => !Release.is pkg core epoch y) } := by
  change execReleaseCancel pkg core epoch s = _
  rw [execReleaseCancel, if_neg hpkg, if_pos]
  exact List.any_eq_true.mpr ⟨x, List.mem_of_find?_eq_some h, List.find?_some h⟩

theorem releaseCancel_own : exec (.releaseCancel s.pkgId core epoch) s = .next s := by
  change execReleaseCancel s.pkgId core epoch s = _
  rw [execReleaseCancel, if_pos rfl]

/-- A held write of another package goes to its core as other mail of that package does. -/
theorem performRelease_mail (h : mailToSelf m = false) : performRelease s (.mail m) = { s with inbound := s.inbound ++ [m] } := by
  rw [performRelease, h, if_neg Bool.false_ne_true]

theorem performRelease_atomic (hs : storeBad s r.pa r.size = false) (hr : readBad s r.pa r.size = none) :
    ∃ t, performRelease s (.atomic r) = t ∧ t.releases = s.releases ∧
      t.toFabric = s.toFabric ++ [.data r.srcPkg r.tid (readBytes s.mem r.pa r.size)] ∧
      ∀ a, a < r.pa ∨ r.pa + r.size ≤ a → readB t.mem a = readB s.mem a := by
  obtain ⟨T, B, C, W, h⟩ := answered_frame s r (bytesOf r.size (amoNew r.size (reqAmo r) (natOf (readBytes s.mem r.pa r.size))))
    (.data r.srcPkg r.tid (readBytes s.mem r.pa r.size))
  refine ⟨_, (doAtomic_done hs hr).trans h, rfl, rfl, fun a ha => readB_writeMasked_out ?_⟩
  rwa [length_bytesOf]

end

/-! ## What the leader tells the other packages (R456, R459) -/

section
variable {s : State}

theorem tellOver_frame (record : Nat) : ∀ (l : List Nat) (s : State),
    ∃ F, tellOver record l s = { s with toFabric := s.toFabric ++ F } ∧ ∀ p ∈ l, p ≠ s.pkgId → .barRelease p record 0 ∈ F
  | [], s => ⟨[], by simp [tellOver], by simp⟩
  | q :: t, s => by
    by_cases hq : q = s.pkgId
    · obtain ⟨F, hF, hmem⟩ := tellOver_frame record t s
      refine ⟨F, by rw [tellOver, if_pos hq, hF], fun p hp hne => hmem p ?_ hne⟩
      exact (List.mem_cons.mp hp).resolve_left (fun h => hne (h.trans hq))
    · obtain ⟨F, hF, hmem⟩ := tellOver_frame record t (emit s (.barRelease q record 0))
      refine ⟨.barRelease q record 0 :: F, ?_, fun p hp hne => ?_⟩
      · rw [tellOver, if_neg hq, hF]
        simp [emit]
      · rcases List.mem_cons.mp hp with rfl | hp
        · exact List.mem_cons_self
        · exact List.mem_cons_of_mem _ (hmem p hp hne)

theorem tellRelease_frame (record inst : Nat) : ∀ (l : List Nat) (s : State),
    ∃ F, tellRelease record inst l s = { s with toFabric := s.toFabric ++ F } ∧
      ∀ p ∈ l, p ≠ s.pkgId → .barRelease p record (inst + 1) ∈ F
  | [], s => ⟨[], by simp [tellRelease], by simp⟩
  | q :: t, s => by
    by_cases hq : q = s.pkgId
    · obtain ⟨F, hF, hmem⟩ := tellRelease_frame record inst t s
      refine ⟨F, by rw [tellRelease, if_pos hq, hF], fun p hp hne => hmem p ?_ hne⟩
      exact (List.mem_cons.mp hp).resolve_left (fun h => hne (h.trans hq))
    · obtain ⟨F, hF, hmem⟩ := tellRelease_frame record inst t (emit s (.barRelease q record (inst + 1)))
      refine ⟨.barRelease q record (inst + 1) :: F, ?_, fun p hp hne => ?_⟩
      · rw [tellRelease, if_neg hq, hF]
        simp [emit]
      · rcases List.mem_cons.mp hp with rfl | hp
        · exact List.mem_cons_self
        · exact List.mem_cons_of_mem _ (hmem p hp hne)

/-! ## A launch that completes (R413) -/

/-- Nothing of launches, records and the fabric changes where only held writes are discarded. -/
theorem dropHeld_rest : ∀ (l : List Nat) (s : State), (dropHeld l s).launches = s.launches ∧ (dropHeld l s).recs = s.recs ∧
    (dropHeld l s).toFabric = s.toFabric
  | [], _ => ⟨rfl, rfl, rfl⟩
  | c :: t, s => by
    have hmail : ∀ (l : List MboxMsg) (u : State), (l.foldl discardMail u).launches = u.launches ∧
        (l.foldl discardMail u).recs = u.recs ∧ (l.foldl discardMail u).toFabric = u.toFabric := by
      intro l
      induction l with
      | nil => exact fun u => ⟨rfl, rfl, rfl⟩
      | cons m l ih =>
        intro u
        obtain ⟨h1, h2, h3⟩ := ih (discardMail u m)
        obtain ⟨S, T, R, D, hsay⟩ := say_frame u (contextEvent m.ctx 1 [senderPlace m, m.value])
        rw [List.foldl_cons, h1, h2, h3, discardMail, hsay]
        exact ⟨rfl, rfl, rfl⟩
    have hstep : ∀ u : State, u = (if (s.core c).job.isSome || (s.core c).holding.isEmpty then s
        else (s.core c).holding.foldl discardMail (s.setCore c { s.core c with holding := [] })) →
        u.launches = s.launches ∧ u.recs = s.recs ∧ u.toFabric = s.toFabric := by
      intro u hu
      split at hu
      · rw [hu]
        exact ⟨rfl, rfl, rfl⟩
      · rw [hu]
        exact hmail _ _
    obtain ⟨h1, h2, h3⟩ := dropHeld_rest t _
    obtain ⟨g1, g2, g3⟩ := hstep _ rfl
    exact ⟨h1.trans g1, h2.trans g2, h3.trans g3⟩

/-- A completed launch is gone; its record is no longer armed and has one completion more. -/
theorem completeLaunch_ends (s : State) (record : Nat) : (∀ x ∈ (completeLaunch s record).launches, x.record ≠ record) ∧
    ((completeLaunch s record).lrec record).completions = ((s.lrec record).completions + 1) % 2 ^ 32 ∧
    ((completeLaunch s record).lrec record).armed = false ∧ (completeLaunch s record).toFabric = s.toFabric := by
  obtain ⟨r1, hr1⟩ : ∃ r, r = ((s.lrec record).setD 0 (setField ((s.lrec record).d 0) 9 9 0)).setD 14
    (setField ((s.lrec record).d 14) 63 32 ((s.lrec record).completions + 1)) := ⟨_, rfl⟩
  have hcomplete : completeLaunch s record = say (forgetLaunch (s.setLrec record r1) record)
      (.launchComplete record (s.lrec record).ctx (((s.lrec record).completions + 1) % 2 ^ 32)) := by
    rw [hr1]
    rfl
  obtain ⟨S, T, R, D, hsay⟩ := say_frame (forgetLaunch (s.setLrec record r1) record)
    (.launchComplete record (s.lrec record).ctx (((s.lrec record).completions + 1) % 2 ^ 32))
  obtain ⟨hl, hr, hf⟩ := dropHeld_rest (((s.launches.filter (fun l => l.record == record)).flatMap
      (fun l => l.cores.map Prod.fst)).filter (fun c => !(s.launches.filter (fun l => l.record != record)).any
        (fun l => l.cores.any (fun p => p.1 == c))))
    { s.setLrec record r1 with launches := s.launches.filter (fun l => l.record != record) }
  have hforget : forgetLaunch (s.setLrec record r1) record = dropHeld (((s.launches.filter (fun l => l.record == record)).flatMap
      (fun l => l.cores.map Prod.fst)).filter (fun c => !(s.launches.filter (fun l => l.record != record)).any
        (fun l => l.cores.any (fun p => p.1 == c))))
      { s.setLrec record r1 with launches := s.launches.filter (fun l => l.record != record) } := rfl
  have hrec : (completeLaunch s record).lrec record = r1 := by
    rw [hcomplete, hsay, State.lrec]
    change tget (forgetLaunch (s.setLrec record r1) record).recs record _ = r1
    rw [hforget, hr]
    exact lrec_setLrec_self s record r1
  refine ⟨?_, ?_, ?_, ?_⟩
  · rw [hcomplete, hsay]
    change ∀ x ∈ (forgetLaunch (s.setLrec record r1) record).launches, _
    rw [hforget, hl]
    intro x hx
    simpa using (List.mem_filter.mp hx).2
  · rw [hrec, Rec.completions, hr1, d_setD_self]
    apply Nat.eq_of_testBit_eq
    intro n
    rw [field_testBit, Nat.testBit_mod_two_pow]
    by_cases hn : n < 32
    · rw [setField_mod, getLsbD_setField (lo := 32) (len := 32) _ (by decide) (Nat.mod_lt _ (by decide)) (by omega),
        if_pos (by omega), Nat.testBit_mod_two_pow]
      simp [hn]
    · simp [hn]
  · rw [hrec, Rec.armed, flag, hr1, d_setD_ne _ _ (by decide), d_setD_self]
    exact (getLsbD_setField _ (lo := 9) (len := 1) (v := 0) (by decide) (by decide) (by decide)).trans (by simp)
  · rw [hcomplete, hsay]
    change (forgetLaunch (s.setLrec record r1) record).toFabric = _
    rw [hforget, hf]
    rfl

end

end Sys2Proof.Machine
end

section
/-! SUPPORT. Barriers of fabric scope and the ends of parts at the leader of a launch (R456, R459). -/

namespace Sys2Proof.Machine

section
variable {s : State} {record pkg engines k count : Nat} {l : Launch}

theorem record_of_find (h : s.launches.find? (fun l => l.record == record) = some l) : l.record = record :=
  eq_of_beq (List.find?_some (p := fun l : Launch => l.record == record) h)

theorem find_mapLaunch {f : Launch → Launch} (hf : ∀ l, (f l).record = l.record)
    (h : s.launches.find? (fun l => l.record == record) = some l) :
    (s.mapLaunch record f).launches.find? (fun l => l.record == record) = some (f l) := by
  have hrec := record_of_find h
  have hkeep : ∀ l : Launch, ((if l.record == record then f l else l).record == record) = (l.record == record) := by
    intro l
    split <;> simp [hf]
  rw [State.mapLaunch]
  refine (find?_map_keeps hkeep _).trans ?_
  rw [h, Option.map_some, if_pos (by simp [hrec])]

theorem any_of_find (h : s.launches.find? (fun l => l.record == record) = some l) :
    s.launches.any (fun l => l.record == record) = true :=
  List.any_eq_true.mpr ⟨l, List.mem_of_find?_eq_some h, List.find?_some (p := fun l : Launch => l.record == record) h⟩

theorem mapAway_runs (h : s.launches.find? (fun l => l.record == record) = some l) (f : Launch → Launch) :
    s.mapAway record f = s.mapLaunch record f := by
  rw [State.mapAway, if_pos (any_of_find h)]

theorem known_of_find (h : s.launches.find? (fun l => l.record == record) = some l) : s.known? record = some l := by
  rw [State.known?, h]

theorem find_of_unknown (h : s.known? record = none) : s.launches.find? (fun l => l.record == record) = none := by
  rw [State.known?] at h
  cases hf : s.launches.find? (fun l => l.record == record) with
  | none => rfl
  | some l => simp [hf] at h

/-! ## The end of a part (R415, R459) -/

/-- What a launch that is over leaves: no launch of its record, one completion more, and its end told to the other packages. -/
def Over (s t : State) (record : Nat) (packages : List Nat) : Prop :=
  (∀ x ∈ t.launches, x.record ≠ record) ∧ (t.lrec record).completions = ((s.lrec record).completions + 1) % 2 ^ 32 ∧
    (t.lrec record).armed = false ∧ ∀ p ∈ packages, p ≠ s.pkgId → .barRelease p record 0 ∈ t.toFabric

theorem partEnded_over (h : s.launches.find? (fun l => l.record == record) = some l)
    (hall : ∀ p ∈ l.packages, p = pkg ∨ p ∈ l.endedOn) (hw : (s.lrec record).waves ≤ l.wave + 1) :
    Over s (partEnded s record pkg) record l.packages := by
  obtain ⟨F, hF, hmem⟩ := tellOver_frame record l.packages (s.mapLaunch record (fun l => { l with endedOn := pkg :: l.endedOn }))
  have hend : partEnded s record pkg = completeLaunch (tellOver record l.packages
      (s.mapLaunch record (fun l => { l with endedOn := pkg :: l.endedOn }))) record := by
    rw [partEnded, mapAway_runs h, find_mapLaunch (f := fun l => { l with endedOn := pkg :: l.endedOn }) (fun _ => rfl) h]
    dsimp only
    rw [if_neg, if_neg]
    · exact Nat.not_lt.mpr hw
    · simpa [← or_iff_not_imp_left] using hall
  obtain ⟨hgone, hcomp, harm, hfab⟩ := completeLaunch_ends (tellOver record l.packages
      (s.mapLaunch record (fun l => { l with endedOn := pkg :: l.endedOn }))) record
  rw [← hend] at hgone hcomp harm hfab
  refine ⟨hgone, ?_, harm, fun p hp hne => ?_⟩
  · rw [hcomp, hF]
    rfl
  · rw [hfab, hF]
    exact List.mem_append_right _ (hmem p hp hne)

theorem wholeWaveFails_over (h : s.launches.find? (fun l => l.record == record) = some l)
    (hw : (s.lrec record).waves ≤ l.wave + 1) : Over s (wholeWaveFails s record) record l.packages := by
  rw [wholeWaveFails, mapAway_runs h]
  have hover := find_mapLaunch (f := fun l => { l with
    done := l.cores.map Prod.fst, endedOn := l.packages.filter (fun p => p != s.pkgId) }) (fun _ => rfl) h
  refine partEnded_over (pkg := s.pkgId) (l := { l with
    done := l.cores.map Prod.fst, endedOn := l.packages.filter (fun p => p != s.pkgId) }) hover (fun p hp => ?_) hw
  by_cases hne : p = s.pkgId
  · exact .inl hne
  · exact .inr (List.mem_filter.mpr ⟨hp, by simpa using hne⟩)

/-! ## Arrivals (R456, R459) -/

/-- A launch left here hears of the end of a package's part. -/
theorem arrival_left (h : leftFor s pkg record count = some l) :
    exec (.fabricBarrierArrival pkg record engines 0 count) s = .next (leftArrival s l pkg) := by
  change execFabricBarrierArrival pkg record engines 0 count s = _
  rw [execFabricBarrierArrival, if_pos rfl, h]

theorem record_of_leftFor (h : leftFor s pkg record count = some l) : l.record = record := by
  have hp := List.find?_some h
  simp only [Bool.and_eq_true, beq_iff_eq] at hp
  exact hp.1.1.1

theorem arrival_unknown (h : s.known? record = none) (hleft : leftFor s pkg record count = none) :
    exec (.fabricBarrierArrival pkg record engines k count) s = .next s := by
  change execFabricBarrierArrival pkg record engines k count s = _
  rw [execFabricBarrierArrival, hleft, ite_self, h]

/-- What an arrival does at a launch that the leader knows. -/
theorem arrival_known (h : s.launches.find? (fun l => l.record == record) = some l)
    (hleft : k = 0 → leftFor s pkg record count = none) : exec (.fabricBarrierArrival pkg record engines k count) s = .next (
      if l.leader s ≠ s.pkgId ∨ pkg ∉ l.packages ∨ pkg = s.pkgId then s
      else if k = 0 then
        (if pkg ∈ l.endedOn ∨ l.wave ≠ count then s else if l.sent = false then wholeWaveFails s record else partEnded s record pkg)
      else if l.remoteBars.any (fun b => b.1 == pkg && b.2.2.1 + 1 == k) then s
      else noteArrival s record pkg engines (k - 1) count) := by
  change execFabricBarrierArrival pkg record engines k count s = _
  have hnone : (if k = 0 then leftFor s pkg record count else none) = none := by
    split
    · next hk => exact hleft hk
    · rfl
  rw [execFabricBarrierArrival, hnone]
  dsimp only
  rw [known_of_find h]
  simp [or_assoc]

theorem leftArrival_all (hl : l.record = record) (hall : ∀ p ∈ l.packages, p = pkg ∨ p ∈ l.endedOn) :
    ∃ F, leftArrival s l pkg = { s with
      leftLaunches := s.leftLaunches.filter (fun x => x != l), toFabric := s.toFabric ++ F } ∧
      ∀ p ∈ l.packages, p ≠ s.pkgId → .barRelease p record 0 ∈ F := by
  obtain ⟨F, hF, hmem⟩ := tellOver_frame record l.packages { s with leftLaunches := s.leftLaunches.filter (fun x => x != l) }
  refine ⟨F, ?_, hmem⟩
  rw [leftArrival, if_pos (by simpa using hall), hl, hF]

theorem leftArrival_some (hsome : ∃ p ∈ l.packages, p ≠ pkg ∧ p ∉ l.endedOn) :
    ∃ L, leftArrival s l pkg = { s with leftLaunches := L } := by
  obtain ⟨p, hp, hne, hend⟩ := hsome
  refine ⟨_, (if_neg fun hall => ?_).trans rfl⟩
  have := List.all_eq_true.mp hall p hp
  simp [hne, hend] at this

/-- The leader notes the arrival of a package. -/
theorem noteArrival_notes (h : s.launches.find? (fun l => l.record == record) = some l) :
    ∃ t l', noteArrival s record pkg engines k count = t ∧ t.launches.find? (fun l => l.record == record) = some l' ∧
      l'.remoteBars = l.remoteBars ++ [(pkg, engines, k, count)] ∧ t.cores = s.cores ∧ t.mem = s.mem ∧
      ((∀ p ∈ l.packages, p = pkg ∨ ∃ b ∈ l.remoteBars, b.1 = p ∧ b.2.2.1 = k) → l'.released = k :: l.released ∧
        ∀ p ∈ l.packages, p ≠ s.pkgId → .barRelease p record (k + 1) ∈ t.toFabric) ∧
      ((∃ p ∈ l.packages, p ≠ pkg ∧ ∀ b ∈ l.remoteBars, ¬ (b.1 = p ∧ b.2.2.1 = k)) → l'.released = l.released ∧
        t.toFabric = s.toFabric) := by
  have hnoted := find_mapLaunch (f := fun l => { l with remoteBars := l.remoteBars ++ [(pkg, engines, k, count)] }) (fun _ => rfl) h
  obtain ⟨u, hu⟩ : ∃ u, u = s.mapLaunch record (fun l => { l with remoteBars := l.remoteBars ++ [(pkg, engines, k, count)] }) := ⟨_, rfl⟩
  rw [← hu] at hnoted
  have hnote : noteArrival s record pkg engines k count =
      if l.packages.all (fun p => (l.remoteBars ++ [(pkg, engines, k, count)]).any (fun b => b.1 == p && b.2.2.1 == k))
      then tellRelease record k l.packages (u.mapLaunch record (fun l => { l with released := k :: l.released })) else u := by
    rw [noteArrival, mapAway_runs h, ← hu, known_of_find hnoted]
    dsimp only
    rw [mapAway_runs hnoted]
  have hall : l.packages.all (fun p => (l.remoteBars ++ [(pkg, engines, k, count)]).any (fun b => b.1 == p && b.2.2.1 == k)) = true ↔
      ∀ p ∈ l.packages, p = pkg ∨ ∃ b ∈ l.remoteBars, b.1 = p ∧ b.2.2.1 = k := by
    rw [List.all_eq_true]
    refine forall₂_congr fun p hp => ?_
    rw [List.any_append, Bool.or_eq_true, List.any_eq_true]
    simp only [Bool.and_eq_true, beq_iff_eq, List.any_cons, List.any_nil, Bool.or_false, and_true]
    rw [or_comm, eq_comm (a := pkg)]
  by_cases hc : ∀ p ∈ l.packages, p = pkg ∨ ∃ b ∈ l.remoteBars, b.1 = p ∧ b.2.2.1 = k
  · obtain ⟨F, hF, hmem⟩ := tellRelease_frame record k l.packages (u.mapLaunch record (fun l => { l with released := k :: l.released }))
    rw [if_pos (hall.mpr hc), hF] at hnote
    refine ⟨_, _, hnote, find_mapLaunch (f := fun l => { l with released := k :: l.released }) (fun _ => rfl) hnoted, rfl, ?_, ?_,
      fun _ => ⟨rfl, fun p hp hne => List.mem_append_right _ (hmem p hp ?_)⟩, fun hx => ?_⟩
    · rw [hu]; rfl
    · rw [hu]; rfl
    · rw [hu]; exact hne
    · obtain ⟨p, hp, hne, hnot⟩ := hx
      obtain ⟨b, hb, hbp⟩ := (hc p hp).resolve_left hne
      exact absurd hbp (hnot b hb)
  · rw [if_neg (mt hall.mp hc)] at hnote
    refine ⟨u, _, hnote, hnoted, rfl, by rw [hu]; rfl, by rw [hu]; rfl, fun hx => absurd hx hc, fun _ => ⟨rfl, by rw [hu]; rfl⟩⟩

/-! ## Releases of barriers by the leader (R456) -/

theorem barRelease_unknown (h : s.known? record = none) : exec (.fabricBarrierRelease record k) s = .next s := by
  change execFabricBarrierRelease record k s = _
  rw [execFabricBarrierRelease, h]

theorem barRelease_known (h : s.launches.find? (fun l => l.record == record) = some l) : exec (.fabricBarrierRelease record k) s =
    .next (if l.packages.length ≤ 1 ∨ l.leader s = s.pkgId then s else if k = 0 then completeLaunch s record
      else s.mapLaunch record (fun l => { l with released := (k - 1) :: l.released })) := by
  change execFabricBarrierRelease record k s = _
  rw [execFabricBarrierRelease, known_of_find h]
  dsimp only
  rw [mapAway_runs h]
  simp only [Bool.or_eq_true, decide_eq_true_eq]

end

end Sys2Proof.Machine
end

section
/-! SUPPORT. Job start on a die (R115, R207, R231, R416, R475). -/

namespace Sys2Proof.Machine

section
variable {s : State} {record d : Nat} {l : Launch} {tile : Memory} {img : List Byte}

theorem copyVault_frame (r : Rec) (img : List Byte) : ∀ (l : List Nat) (s : State),
    ∃ M T B C, copyVault r img l s = { s with mem := M, tags := T, badMem := B, counters := C }
  | [], s => ⟨s.mem, s.tags, s.badMem, s.counters, rfl⟩
  | g :: t, s => by
    rw [copyVault]
    split
    · exact copyVault_frame r img t s
    · obtain ⟨T, B, C, h⟩ := storeLocal_frame s false (vaultBase + g * 0x4000000 + r.voff) img (List.replicate img.length true)
      obtain ⟨M', T', B', C', h'⟩ := copyVault_frame r img t
        (storeLocal s false (vaultBase + g * 0x4000000 + r.voff) img (List.replicate img.length true))
      exact ⟨M', T', B', C', by rw [h', h]⟩

theorem freezes_frame (g : Nat) : ∀ (why : List Freeze) (s : State),
    ∃ C, why.foldl (fun s f => s.freeze g f) s = { s with clusters := C } ∧
      ∀ h, (why.foldl (fun s f => s.freeze g f) s).localCount h = s.localCount h
  | [], s => ⟨s.clusters, rfl, fun _ => rfl⟩
  | f :: t, s => by
    obtain ⟨C, hC⟩ := freeze_frame s f g
    obtain ⟨D, hD, hcount⟩ := freezes_frame g t (s.freeze g f)
    exact ⟨D, by rw [List.foldl_cons, hD, hC], fun h => by rw [List.foldl_cons, hcount, localCount_freeze]⟩

/-- Clusters that join a domain may freeze; their local counts stay. -/
theorem joinDomain_frame (ctx : Nat) : ∀ (l : List Nat) (s : State),
    ∃ C, joinDomain ctx l s = { s with clusters := C } ∧ ∀ h, (joinDomain ctx l s).localCount h = s.localCount h
  | [], s => ⟨s.clusters, rfl, fun _ => rfl⟩
  | g :: t, s => by
    obtain ⟨u, hu⟩ : ∃ u, u = (if (s.ctx ctx).gauge then (((s.domain ctx (g / 8)).flatMap
      (fun h => (s.cluster h).frozen)).eraseDups).foldl (fun s f => s.freeze g f) s else s) := ⟨_, rfl⟩
    have hstep : ∃ C, u = { s with clusters := C } ∧ ∀ h, u.localCount h = s.localCount h := by
      rw [hu]
      split
      · exact freezes_frame g _ s
      · exact ⟨s.clusters, rfl, fun _ => rfl⟩
    obtain ⟨C, hC, hcount⟩ := hstep
    obtain ⟨D, hD, hcount'⟩ := joinDomain_frame ctx t u
    have hjoin : joinDomain ctx (g :: t) s = joinDomain ctx t u := by rw [hu]; rfl
    exact ⟨D, by rw [hjoin, hD, hC], fun h => by rw [hjoin, hcount', hcount]⟩

/-- Each core of a list has its job; nothing else changes. -/
theorem startJobs_starts (r : Rec) (tile code : Memory) : ∀ (l : List (Nat × Nat)) (s : State), (l.map Prod.fst).Nodup →
    (∃ C, startJobs record r tile code l s = { s with cores := C }) ∧
    (∀ c, c ∉ l.map Prod.fst → (startJobs record r tile code l s).core c = s.core c) ∧
    ∀ p ∈ l, (startJobs record r tile code l s).core p.1 = (s.core p.1).startJob r
      ⟨record, r.ctx, p.2, s.localCount (clusterOf p.1), 0, false, r.engines, code⟩ tile
  | [], s, _ => ⟨⟨s.cores, rfl⟩, fun _ _ => rfl, fun _ h => absurd h (by simp)⟩
  | (c, i) :: t, s, hnd => by
    obtain ⟨hc, hnd⟩ := List.nodup_cons.mp hnd
    obtain ⟨⟨C, hC⟩, hout, hin⟩ := startJobs_starts r tile code t (s.setCore c ((s.core c).startJob r
      ⟨record, r.ctx, i, s.localCount (clusterOf c), 0, false, r.engines, code⟩ tile)) hnd
    refine ⟨⟨C, hC.trans rfl⟩, fun e he => ?_, fun p hp => ?_⟩
    · simp only [List.map_cons, List.mem_cons, not_or] at he
      exact (hout e he.2).trans (State.core_setCore_ne _ _ he.1)
    · rcases List.mem_cons.mp hp with rfl | hp
      · exact (hout c hc).trans (State.core_setCore_self _ _ _)
      · have hne : p.1 ≠ c := fun h => hc (List.mem_map.mpr ⟨p, hp, h⟩)
        refine (hin p hp).trans ?_
        rw [State.core_setCore_ne _ _ hne]
        rfl

/-- The state in which a die's jobs start: its vaults have their copies, and the launch has begun there. -/
theorem startDie_starts (hl : s.launches.find? (fun l => l.record == record) = some l) (hload : l.loaded = some (tile, img))
    (hbegun : d ∉ l.begun) (hwhole : s.whole record = true) (hnd : (l.cores.map Prod.fst).Nodup) :
    ∃ u v,
      u = copyVault (s.lrec record) img ((unitsAmong 2 (((l.waveCores (s.lrec record)).filter
        (fun p => dieOf p.1 == d && !l.done.contains p.1)).map Prod.fst) []).filter (fun g => !l.vaulted.contains g))
        (if l.wave = 0 && l.begun.isEmpty then clearIntervals s record (s.lrec record).ctx (l.cores.map Prod.fst) else s) ∧
      startDie s record d = v ∧ v.mem = u.mem ∧ v.recs = s.recs ∧ v.pkgId = s.pkgId ∧ v.failedDies = s.failedDies ∧
      v.lifelines = s.lifelines ∧ (∀ h, v.localCount h = s.localCount h) ∧
      (∃ due vaulted started, v.launches.find? (fun l => l.record == record) = some { l with
        cores := l.waveCores (s.lrec record), vaulted := vaulted, due := due, begun := d :: l.begun, started := started }) ∧
      (∀ c, c ∉ l.cores.map Prod.fst ∨ dieOf c ≠ d ∨ c ∈ l.done → v.core c = s.core c) ∧
      ∀ p ∈ l.cores, dieOf p.1 = d → p.1 ∉ l.done → v.core p.1 = (s.core p.1).startJob (s.lrec record)
        ⟨record, (s.lrec record).ctx, inWave (s.lrec record) p.2 l.wave, s.localCount (clusterOf p.1), 0, false,
          (s.lrec record).engines, u.mem⟩ tile := by
  obtain ⟨r, hr⟩ : ∃ r, r = s.lrec record := ⟨_, rfl⟩
  obtain ⟨mine, hmine⟩ : ∃ m, m = (l.waveCores r).filter (fun p => dieOf p.1 == d && !l.done.contains p.1) := ⟨_, rfl⟩
  obtain ⟨fresh, hfresh⟩ : ∃ f, f = (unitsAmong 2 (mine.map Prod.fst) []).filter (fun g => !l.vaulted.contains g) := ⟨_, rfl⟩
  obtain ⟨s1, hs1⟩ : ∃ x, x = (if l.wave = 0 && l.begun.isEmpty then clearIntervals s record r.ctx (l.cores.map Prod.fst) else s) :=
    ⟨_, rfl⟩
  obtain ⟨F, hF⟩ : ∃ F : Launch → Launch, F = fun m => { m with
      cores := l.waveCores r, vaulted := m.vaulted ++ fresh, due := m.due.filter (fun e => e != d), begun := d :: m.begun,
      started := m.dies.all (fun e => e == d || m.begun.contains e || s.dieFailed e) } := ⟨_, rfl⟩
  have hint : ∃ I, s1 = { s with intervals := I } := by
    rw [hs1]
    split
    · exact ⟨_, rfl⟩
    · exact ⟨s.intervals, rfl⟩
  obtain ⟨I, hI⟩ := hint
  obtain ⟨M, T, B, C, hcopy⟩ := copyVault_frame r img fresh s1
  obtain ⟨D, hD, hcount⟩ := joinDomain_frame r.ctx (unitsAmong 2 (mine.map Prod.fst) []) ((copyVault r img fresh s1).mapLaunch record F)
  have hmap : mine.map Prod.fst = ((l.cores.filter (fun p => dieOf p.1 == d && !l.done.contains p.1)).map Prod.fst) := by
    rw [hmine, Launch.waveCores, List.filter_map, List.map_map]
    rfl
  have hmineNd : (mine.map Prod.fst).Nodup := by
    rw [hmap]
    exact hnd.sublist (List.filter_sublist.map _)
  obtain ⟨⟨E, hE⟩, hout, hin⟩ := startJobs_starts (record := record) r tile ((copyVault r img fresh s1).mapLaunch record F).mem mine
    (joinDomain r.ctx (unitsAmong 2 (mine.map Prod.fst) []) ((copyVault r img fresh s1).mapLaunch record F)) hmineNd
  have hstart : startDie s record d = startJobs record r tile ((copyVault r img fresh s1).mapLaunch record F).mem mine
      (joinDomain r.ctx (unitsAmong 2 (mine.map Prod.fst) []) ((copyVault r img fresh s1).mapLaunch record F)) := by
    rw [startDie, hl]
    dsimp only
    rw [hload]
    dsimp only
    rw [if_neg (by simp [hbegun, hwhole]), ← hr, ← hmine, ← hfresh, ← hs1, hF]
  have hcores : ∀ c, (joinDomain r.ctx (unitsAmong 2 (mine.map Prod.fst) []) ((copyVault r img fresh s1).mapLaunch record F)).core c =
      s.core c := by
    intro c
    rw [hD, hcopy, hI]
    rfl
  have hcounts : ∀ h, (joinDomain r.ctx (unitsAmong 2 (mine.map Prod.fst) [])
      ((copyVault r img fresh s1).mapLaunch record F)).localCount h = s.localCount h := by
    intro h
    rw [hcount, hcopy, hI]
    rfl
  rw [← hr, ← hmine, ← hfresh, ← hs1]
  refine ⟨_, _, rfl, hstart, ?_, ?_, ?_, ?_, ?_, fun h => ?_, ?_, fun c hc => ?_, fun p hp hd hdone => ?_⟩
  · rw [hE, hD]
    rfl
  · rw [hE, hD, hcopy, hI]
    rfl
  · rw [hE, hD, hcopy, hI]
    rfl
  · rw [hE, hD, hcopy, hI]
    rfl
  · rw [hE, hD, hcopy, hI]
    rfl
  · rw [hE]
    exact hcounts h
  · refine ⟨l.due.filter (fun e => e != d), l.vaulted ++ fresh,
      l.dies.all (fun e => e == d || l.begun.contains e || s.dieFailed e), ?_⟩
    rw [hE, hD]
    refine (find_mapLaunch (s := copyVault r img fresh s1) (f := F) (fun m => by rw [hF]) (by rw [hcopy, hI]; exact hl)).trans ?_
    rw [hF]
  · rw [hout c, hcores]
    rw [hmap]
    intro hmem
    obtain ⟨p, hp, rfl⟩ := List.mem_map.mp hmem
    obtain ⟨hp, hpd⟩ := List.mem_filter.mp hp
    simp only [Bool.and_eq_true, beq_iff_eq, Bool.not_eq_true', List.contains_eq_mem, decide_eq_false_iff_not] at hpd
    rcases hc with hc | hc | hc
    · exact hc (List.mem_map_of_mem hp)
    · exact hc hpd.1
    · exact hpd.2 hc
  · have hmem : (p.1, inWave r p.2 l.wave) ∈ mine := by
      rw [hmine, List.mem_filter]
      exact ⟨List.mem_map.mpr ⟨p, hp, rfl⟩, by simp [hd, hdone]⟩
    rw [hin _ hmem]
    dsimp only
    rw [hcores, hcounts]
    rfl

/-- A stream of a record runs at its code address as its job starts. -/
theorem startJob_stream (k : Core) (r : Rec) (j : Job) {e : Eng} (he : r.code e ≠ 0) :
    ((k.startJob r j tile).stream e).run = .running ∧ ((k.startJob r j tile).stream e).pc = r.code e &&& ~~~(3 : Word) := by
  have hstream : ∃ R, (k.startJob r j tile).stream e = { startStream r e with regs := R } := by
    cases e <;> exact ⟨_, rfl⟩
  obtain ⟨R, hR⟩ := hstream
  rw [hR, startStream, if_neg he]
  exact ⟨rfl, alignPc_eq _⟩

end

end Sys2Proof.Machine
end

section
/-! SUPPORT. Grants of a launch's cores to dies, and their acknowledgements (R418, R419, R457). -/

namespace Sys2Proof.Machine

section
variable {s : State} {record die first : Nat} {l : Launch} {cores : List Nat}

/-! ## The leader of a launch -/

theorem leader_healthy {p : Nat} {t : List Nat} (hfail : s.failedDies = []) (hp : l.packages = p :: t) : l.leader s = p := by
  have hline : ∃ rest, l.line s = 4 * p :: rest := by
    rw [Launch.line, hfail, hp, List.flatMap_cons]
    exact ⟨_, rfl⟩
  obtain ⟨rest, hrest⟩ := hline
  rw [Launch.leader, hrest, List.map_cons, List.headD_cons, Nat.mul_div_cancel_left _ (by decide)]

theorem grant_eq : exec (.dispatchGrant record die first cores) s = .next (
    if cores.isEmpty || !cores.all (fun c => coreExists c && dieOf c == die % 4) then s
    else if (match s.launches.find? (fun l => l.record == record) with | some l => l.leader s == s.pkgId | none => false) then
      s.mapLaunch record (fun l => { l with grants := l.grants.map (ackOwn s die first cores) })
    else if (s.lrec record).packages ≤ 1 then s
    else if die / 4 = s.pkgId then ownGrant s record die first cores
    else match grantLaunch s record die first with
      | some s1 => noteGrant s1 record ⟨die, first, cores, false⟩
      | none => s) := by
  change execDispatchGrant record die first cores s = _
  rfl

theorem grant_leads (hl : s.launches.find? (fun l => l.record == record) = some l) (hlead : l.leader s = s.pkgId)
    (hne : cores ≠ []) (hc : ∀ c ∈ cores, c < 512 ∧ dieOf c = die % 4) : exec (.dispatchGrant record die first cores) s =
    .next (s.mapLaunch record (fun l => { l with grants := l.grants.map (ackOwn s die first cores) })) := by
  rw [grant_eq, if_neg]
  · rw [hl]
    dsimp only
    rw [if_pos (by simp [hlead])]
  · have hall : cores.all (fun c => coreExists c && dieOf c == die % 4) = true := by
      rw [List.all_eq_true]
      intro c h
      simp [coreExists, hc c h]
    simp [hall, hne]

theorem grant_none (h : cores = [] ∨ s.launches.find? (fun l => l.record == record) = none ∧ (s.lrec record).packages ≤ 1) :
    exec (.dispatchGrant record die first cores) s = .next s := by
  rw [grant_eq]
  rcases h with rfl | ⟨hl, hp⟩
  · rfl
  · rw [hl, if_neg Bool.false_ne_true, if_pos hp, ite_self]

theorem grant_own (hl : s.launches.find? (fun l => l.record == record) = none) (hd : die / 4 = s.pkgId)
    (hp : 1 < (s.lrec record).packages) (hne : cores ≠ []) (hc : ∀ c ∈ cores, c < 512 ∧ dieOf c = die % 4) :
    exec (.dispatchGrant record die first cores) s = .next (ownGrant s record die first cores) := by
  rw [grant_eq, if_neg]
  · rw [hl, if_neg Bool.false_ne_true, if_neg (Nat.not_le.mpr hp), if_pos hd]
  · have hall : cores.all (fun c => coreExists c && dieOf c == die % 4) = true := by
      rw [List.all_eq_true]
      intro c h
      simp [coreExists, hc c h]
    simp [hall, hne]

/-! ## A launch that is new to this package -/

/-- A launch of a record that has no cores yet. -/
def freshLaunch (record : Nat) (packages : List Nat) : Launch :=
  { record := record, wave := 0, started := false, cores := [], clusters := clustersBy [], vaulted := [], index := 0, grants := [],
    sent := false, due := [], begun := [], loaded := none, done := [], contribs := [], timed := [], completed := [],
    remoteBars := [], released := [], packages := packages, endedOn := [] }

section
variable (hnone : s.launches.find? (fun l => l.record == record) = none)
include hnone

theorem find_behind (hrec : l.record = record) :
    (s.launches ++ [l]).find? (fun l => l.record == record) = some l := by
  rw [List.find?_append, hnone]
  simp [hrec]

theorem mapLaunch_behind (u : State) (f : Launch → Launch) (hu : u.launches = s.launches ++ [l]) (hrec : l.record = record) :
    u.mapLaunch record f = { u with launches := s.launches ++ [f l] } := by
  have hkeep : s.launches.map (fun l => if l.record == record then f l else l) = s.launches := by
    refine (List.map_congr_left fun m hm => ?_).trans (List.map_id _)
    rw [if_neg (by simpa using List.find?_eq_none.mp hnone m hm)]
    rfl
  rw [State.mapLaunch, hu, List.map_append, hkeep, List.map_singleton, if_pos (by simp [hrec])]

theorem filter_behind (hrec : l.record = record) : (s.launches ++ [l]).filter (fun l => l.record == record) = [l] := by
  have hempty : s.launches.filter (fun l => l.record == record) = [] := List.filter_eq_nil_iff.mpr (List.find?_eq_none.mp hnone)
  rw [List.filter_append, hempty, List.nil_append, List.filter_singleton]
  simp [hrec]

theorem grantLaunch_new (hready : readyHere s record = true) (hsaved : savedOf s record = none) :
    grantLaunch s record die first =
      some { s with launches := s.launches ++ [freshLaunch record (grantPackages (s.lrec record) die first)] } := by
  rw [grantLaunch, hnone]
  dsimp only
  rw [hready, hsaved]
  rfl

theorem ownGrant_unready (hready : readyHere s record = false) : ownGrant s record die first cores = s := by
  rw [ownGrant, grantLaunch, hnone]
  dsimp only
  rw [hready]
  rfl

/-- The launch that reserves the cores of its first grant. -/
def grantedLaunch (r : Rec) (record die first : Nat) (cores : List Nat) : Launch :=
  { freshLaunch record (grantPackages r die first) with
    cores := cores.zip (grantIndices r first cores.length), clusters := clustersBy (cores.zip (grantIndices r first cores.length)),
    index := cores.length, grants := [⟨die, first, cores, false⟩] }

theorem ownGrant_new (hready : readyHere s record = true) (hsaved : savedOf s record = none) : ownGrant s record die first cores =
    if cores.all (coreFits s [] (needed s record) (s.lrec record).gauge) = false then
      preemptFor s record (fun gone => cores.all (coreFits s gone (needed s record) (s.lrec record).gauge))
    else if (toChange s (s.lrec record).gauge (unitsAmong 2 cores [])).isEmpty = false then
      startChange (s.lrec record).gauge (toChange s (s.lrec record).gauge (unitsAmong 2 cores [])) s
    else waveOf { s with launches := s.launches ++ [grantedLaunch (s.lrec record) record die first cores] } record
      (grantedLaunch (s.lrec record) record die first cores) := by
  have hfind := find_behind hnone (l := freshLaunch record (grantPackages (s.lrec record) die first)) rfl
  have hfilter := filter_behind hnone (l := freshLaunch record (grantPackages (s.lrec record) die first)) rfl
  obtain ⟨u, hu⟩ : ∃ u : State, u = { s with launches := s.launches ++ [freshLaunch record (grantPackages (s.lrec record) die first)] } :=
    ⟨_, rfl⟩
  have hul : u.launches = s.launches ++ [freshLaunch record (grantPackages (s.lrec record) die first)] := by rw [hu]
  have hrec : u.lrec record = s.lrec record := by rw [hu]; rfl
  have hreserve : reserveGrant u record first cores = { s with launches := s.launches ++ [{
      freshLaunch record (grantPackages (s.lrec record) die first) with
      cores := cores.zip (grantIndices (s.lrec record) first cores.length),
      clusters := clustersBy (cores.zip (grantIndices (s.lrec record) first cores.length)) }] } := by
    rw [reserveGrant]
    dsimp only
    rw [hrec, hul, hfilter]
    refine (congrArg (dropHeld []) (mapLaunch_behind hnone u _ hul rfl)).trans ?_
    rw [hu]
    rfl
  have hnote : noteGrant (reserveGrant u record first cores) record ⟨die, first, cores, false⟩ =
      { s with launches := s.launches ++ [grantedLaunch (s.lrec record) record die first cores] } := by
    rw [hreserve, noteGrant, mapLaunch_behind hnone _ _ rfl rfl]
    simp only [freshLaunch, grantedLaunch, List.any_nil, Bool.false_eq_true, if_false, Nat.zero_add, List.filter_nil, List.nil_append]
  rw [ownGrant, grantLaunch_new hnone hready hsaved, ← hu]
  dsimp only
  rw [hul, hfind]
  dsimp only
  rw [hnote]
  dsimp only
  rw [find_behind hnone (l := grantedLaunch (s.lrec record) record die first cores) rfl]
  refine (if_neg Bool.false_ne_true).trans ((if_neg Bool.false_ne_true).trans ?_)
  cases hfit : cores.all (coreFits s [] (needed s record) (s.lrec record).gauge) with
  | false => exact (if_pos (congrArg Bool.not hfit)).trans (if_pos rfl).symm
  | true =>
    refine (if_neg (ne_true_of_eq_false (congrArg Bool.not hfit))).trans (Eq.trans ?_ (if_neg Bool.true_eq_false.mp).symm)
    cases (toChange s (s.lrec record).gauge (unitsAmong 2 cores [])).isEmpty <;> rfl

end

/-! ## The acknowledgement of a grant (R416, R418) -/

theorem loadImage_empty (s : State) (record ctx : Nat) (va : Word) : loadImage s record ctx va 0 = .ok [] s := rfl

/-- Both images of a wave are read. -/
theorem loadWave_loads {sec img : List Byte} {s1 s2 : State} (hload : l.loaded = none)
    (h1 : loadImage s record (s.lrec record).ctx ((s.lrec record).d 8) (field ((s.lrec record).d 9) 19 0) = .ok sec s1)
    (h2 : loadVault s1 record = .ok img s2) : loadWave s record l =
    dropReqs (s2.mapLaunch record (fun m => { m with loaded := some (tileImage (s.lrec record) sec, img) })) (.image record) := by
  rw [loadWave, if_neg (by simp [hload])]
  dsimp only
  rw [h1]
  dsimp only
  rw [h2]

theorem loadWave_empty (hload : l.loaded = none) (h9 : (s.lrec record).d 9 = 0) (h11 : (s.lrec record).d 11 = 0) :
    loadWave s record l = dropReqs (s.mapLaunch record (fun m => { m with
      loaded := some (tileImage (s.lrec record) [], []) })) (.image record) := by
  refine loadWave_loads (s1 := s) hload ?_ ?_
  · rw [h9]
    exact loadImage_empty s record _ _
  · rw [loadVault, Rec.vaultLen, h11]
    exact loadImage_empty s record _ _

/-- A core that fits has no job and is not held. -/
theorem free_of_fits {c : Nat} {needed : List Nat} {gauge : Bool} (hc : c < 512) (h : coreFits s [] needed gauge c = true) :
    ((s.core c).job.isNone && !(s.core c).held) = true := by
  have hfree : coreFree s [] c = true := by
    rw [coreFits, Bool.and_eq_true] at h
    obtain ⟨_, h⟩ := h
    split at h
    · have hmem : c ∈ (List.range 16).map (coreOf (clusterOf c)) := by
        refine List.mem_map.mpr ⟨localOf c, List.mem_range.mpr ?_, ?_⟩
        · simp only [localOf, coreX, coreY]
          omega
        · simp only [localOf, coreOf, clusterOf, coreX, coreY]
          omega
      have := List.all_eq_true.mp h c hmem
      rw [Bool.and_eq_true] at this
      exact this.1
    · exact h
  unfold coreFree at hfree
  simp only [Bool.and_eq_true] at hfree
  obtain ⟨⟨⟨hjob, hheld⟩, _⟩, _⟩ := hfree
  rw [Bool.and_eq_true]
  refine ⟨?_, hheld⟩
  cases hj : (s.core c).job with
  | none => rfl
  | some j =>
    rw [hj] at hjob
    exact absurd hjob (by simp)

/-- A first grant whose images are empty is acknowledged at once. -/
theorem waveOf_granted (hnone : s.launches.find? (fun l => l.record == record) = none)
    (harm : (s.lrec record).armed = true) (hwhole : s.whole record = true) (hd : die / 4 = s.pkgId)
    (hfree : rangeFree s cores = true) {p : Nat} {rest : List Nat} (hfail : s.failedDies = [])
    (hp : grantPackages (s.lrec record) die first = p :: rest) (hne : p ≠ s.pkgId)
    (h9 : (s.lrec record).d 9 = 0) (h11 : (s.lrec record).d 11 = 0) :
    ∃ R, waveOf { s with launches := s.launches ++ [grantedLaunch (s.lrec record) record die first cores] } record
      (grantedLaunch (s.lrec record) record die first cores) =
      { s with
        requests := R, toFabric := s.toFabric ++ [.grantAck p record die],
        launches := s.launches ++ [{ grantedLaunch (s.lrec record) record die first cores with
          loaded := some (tileImage (s.lrec record) [], []), grants := [⟨die, first, cores, true⟩] }] } := by
  obtain ⟨L, hL⟩ : ∃ L, L = grantedLaunch (s.lrec record) record die first cores := ⟨_, rfl⟩
  obtain ⟨u, hu⟩ : ∃ u : State, u = { s with launches := s.launches ++ [L] } := ⟨_, rfl⟩
  have hul : u.launches = s.launches ++ [L] := by rw [hu]
  have hLrec : L.record = record := by rw [hL]; rfl
  have hrec : u.lrec record = s.lrec record := by rw [hu]; rfl
  have hlead : L.leader u = p := leader_healthy (by rw [hu]; exact hfail) (by rw [hL]; exact hp)
  have hdue : L.grants.filter (fun g => g.die / 4 == u.pkgId && !g.acked) = [⟨die, first, cores, false⟩] := by
    rw [hL, hu]
    simp [grantedLaunch, hd]
  have hload : loadWave u record L = { s with
      requests := s.requests.filter (fun q => q.owner != .image record),
      launches := s.launches ++ [{ L with loaded := some (tileImage (s.lrec record) [], []) }] } := by
    rw [loadWave_empty (by rw [hL]; rfl) (by rw [hrec]; exact h9) (by rw [hrec]; exact h11), mapLaunch_behind hnone u _ hul hLrec, hrec, hu]
    rfl
  have hfreeAll : rangeFree u cores = true := by rw [hu]; exact hfree
  have hmine : ([⟨die, first, cores, false⟩] : List Grant).all (fun g => rangeFree u g.cores) = true := by
    rw [List.all_cons, hfreeAll]
    rfl
  have hack : ackGrants u record L = { s with
      requests := s.requests.filter (fun q => q.owner != .image record), toFabric := s.toFabric ++ [.grantAck p record die],
      launches := s.launches ++ [{ L with
        loaded := some (tileImage (s.lrec record) [], []), grants := [⟨die, first, cores, true⟩] }] } := by
    rw [ackGrants]
    dsimp only
    rw [hdue, if_neg (by rw [hmine]; exact Bool.false_ne_true), hload]
    dsimp only
    rw [find_behind hnone (l := { L with loaded := some (tileImage (s.lrec record) [], []) }) hLrec]
    dsimp only
    rw [if_neg (by exact Bool.false_ne_true),
      mapLaunch_behind hnone (l := { L with loaded := some (tileImage (s.lrec record) [], []) }) _ _ rfl hLrec, hlead, hL]
    simp [grantedLaunch]
  refine ⟨s.requests.filter (fun q => q.owner != .image record), ?_⟩
  rw [← hL, ← hu, waveOf, if_neg, if_neg, hack]
  · rw [hlead, hu]
    exact hne
  · have hwhole' : u.whole record = true := by rw [hu]; exact hwhole
    have hstarted : L.started = false := by rw [hL]; rfl
    simp [hwhole', hstarted, hrec, harm]

end

end Sys2Proof.Machine
end

section
/-! SUPPORT. Dies that fail (R419, R433), and the obligation about releases, fabric barriers, dispatch and heartbeats. -/

namespace Sys2Proof.Machine

/-! ## Jobs lost on a failed die (R419) -/

/-- Messages to the host only join those before them, the failed dies stay, and no core that has no job gets one. -/
def Loses (s t : State) : Prop :=
  s.toHost <+: t.toHost ∧ t.failedDies = s.failedDies ∧ ∀ c, (s.core c).job = none → (t.core c).job = none

section
variable {s t u : State}

theorem Loses.trans (h1 : Loses s t) (h2 : Loses t u) : Loses s u := by
  obtain ⟨htold, hfail, hjob⟩ := h1
  obtain ⟨htold', hfail', hjob'⟩ := h2
  exact ⟨htold.trans htold', hfail'.trans hfail, fun c h => hjob' c (hjob c h)⟩

theorem Loses.of_beside (h : Beside s t) : Loses s t := by
  refine ⟨h.told, h.failed, fun c hj => ?_⟩
  obtain ⟨l, hl⟩ := h.core c
  rw [hl]
  exact hj

theorem loseJobs_loses : ∀ (l : List Nat) (s : State), Loses s (loseJobs l s) ∧ ∀ c ∈ l, ((loseJobs l s).core c).job = none
  | [], s => ⟨.of_beside (.refl s), fun _ h => absurd h (by simp)⟩
  | c :: t, s => by
    have hstep : ∃ u, loseJobs (c :: t) s = loseJobs t u ∧ Loses s u ∧ (u.core c).job = none := by
      cases hj : (s.core c).job with
      | none => exact ⟨s, by rw [loseJobs, hj], .of_beside (.refl s), hj⟩
      | some j =>
        have h1 := (Beside.quiet (s := s) (t := unwait (dropOwnReleases s c) c)).trans
          (Beside.of_closeSlots j.ctx ((s.core c).as.h.map Prod.snd) _)
        obtain ⟨v, hv⟩ : ∃ v, v = closeSlots j.ctx ((s.core c).as.h.map Prod.snd) (unwait (dropOwnReleases s c) c) := ⟨_, rfl⟩
        rw [← hv] at h1
        have hclear : Loses v (v.setCore c (v.core c).clearJob) ∧ ((v.setCore c (v.core c).clearJob).core c).job = none := by
          refine ⟨⟨List.prefix_rfl, rfl, fun d hd => ?_⟩, by rw [State.core_setCore_self]; rfl⟩
          by_cases hdc : d = c
          · rw [hdc, State.core_setCore_self]
            rfl
          · rwa [State.core_setCore_ne _ _ hdc]
        have h2 := Loses.of_beside (Beside.of_jobDone (v.setCore c (v.core c).clearJob) j.record c)
        refine ⟨jobDone (v.setCore c (v.core c).clearJob) j.record c, ?_, ((Loses.of_beside h1).trans hclear.1).trans h2, h2.2.2 c hclear.2⟩
        rw [loseJobs, hj, hv]
    obtain ⟨u, heq, hlose, hnone⟩ := hstep
    obtain ⟨hrest, hall⟩ := loseJobs_loses t u
    rw [heq]
    refine ⟨hlose.trans hrest, fun d hd => ?_⟩
    rcases List.mem_cons.mp hd with rfl | hd
    · exact hrest.2.2 d hnone
    · exact hall d hd

theorem Beside.of_takeLead (s0 : State) : ∀ (l : List Launch) (s : State), Beside s (takeLead s0 l s) ∧ (takeLead s0 l s).cores = s.cores
  | [], s => ⟨.refl s, rfl⟩
  | l :: t, s => by
    have hstep : ∃ F, (if l.leader s0 != s.pkgId && l.leader s == s.pkgId && !l.started then
        { s with toFabric := s.toFabric ++ grantMsgs s l (l.grants.filter (fun g => !g.acked && !s.failedDies.contains g.die)) }
        else s) = { s with toFabric := F } := by
      split
      · exact ⟨_, rfl⟩
      · exact ⟨s.toFabric, rfl⟩
    obtain ⟨F, hF⟩ := hstep
    obtain ⟨hb, hc⟩ := Beside.of_takeLead s0 t { s with toFabric := F }
    have htake : takeLead s0 (l :: t) s = takeLead s0 t { s with toFabric := F } := by rw [takeLead, hF]
    rw [htake]
    exact ⟨Beside.trans (t := { s with toFabric := F }) .quiet hb, hc⟩

theorem Beside.of_reportLost (die : Nat) : ∀ (l : List (Nat × Nat × Nat)) (s : State), Beside s (reportLost die l s)
  | [], s => .refl s
  | (_, _, _) :: t, s => (Beside.of_say s _).trans (Beside.of_reportLost die t _)

theorem Beside.of_loseUnbegun (record : Nat) : ∀ (l : List Nat) (s : State), Beside s (loseUnbegun record l s)
  | [], s => .refl s
  | c :: t, s => (Beside.of_jobDone s record c).trans (Beside.of_loseUnbegun record t _)

theorem Beside.of_loseRanges (d : Nat) : ∀ (l : List Launch) (s : State), Beside s (loseRanges d l s)
  | [], s => .refl s
  | l :: t, s => by
    refine Beside.trans ?_ (Beside.of_loseRanges d t _)
    split
    · exact .refl s
    · exact Beside.of_loseUnbegun _ _ _

/-! ## A die without a heartbeat (R419, R448) -/

variable {die : Nat}

theorem failure_none (h : die ∈ s.failedDies ∨ s.clock < tget s.beats die 0 + 39000) : exec (.dieFailureTimeout die) s = .next s := by
  change execDieFailureTimeout die s = _
  have hcond : (s.failedDies.contains die || decide (s.clock < tget s.beats die 0 + 3 * tenMicros)) = true := by
    rw [Bool.or_eq_true, List.contains_iff_mem, decide_eq_true_iff]
    exact h
  exact if_pos hcond

/-- A die fails: the host hears of it, and a failed die of this package has no job. -/
theorem failure_fails (h : die ∉ s.failedDies) (hlast : tget s.beats die 0 + 39000 ≤ s.clock) (hopen : s.session.phase = .opened) :
    ∃ t, exec (.dieFailureTimeout die) s = .next t ∧ t.failedDies = die :: s.failedDies ∧
      (∃ rest, t.toHost.map HostOut.msg = s.toHost.map HostOut.msg ++ .dieFailed die (tget s.beats die 0) :: rest) ∧
      (die / 4 ≠ s.pkgId → t.cores = s.cores) ∧
      (die / 4 = s.pkgId → ∀ c, dieOf c = die % 4 → (t.core c).job = none) := by
  obtain ⟨s1, hs1⟩ : ∃ x, x = say { s with failedDies := die :: s.failedDies } (.dieFailed die (tget s.beats die 0)) := ⟨_, rfl⟩
  obtain ⟨s2, hs2⟩ : ∃ x, x = takeLead s s1.launches s1 := ⟨_, rfl⟩
  obtain ⟨s3, hs3⟩ : ∃ x, x = reportLost die (lostOn s2 (die % 4)) s2 := ⟨_, rfl⟩
  obtain ⟨t, ht⟩ : ∃ x, x = (if die / 4 != s.pkgId then s2 else loseRanges (die % 4) s2.launches
      (loseJobs ((s3.cores.map Prod.fst).filter (fun c => dieOf c == die % 4)) s3)) := ⟨_, rfl⟩
  have hexec : exec (.dieFailureTimeout die) s = .next t := by
    change execDieFailureTimeout die s = _
    have hcond : ¬(s.failedDies.contains die || decide (s.clock < tget s.beats die 0 + 3 * tenMicros)) = true := by
      rw [Bool.or_eq_true, List.contains_iff_mem, decide_eq_true_iff]
      rintro (hx | hx)
      · exact h hx
      · exact absurd hx (Nat.not_lt.mpr hlast)
    refine (if_neg hcond).trans ?_
    dsimp only
    rw [← hs1, ← hs2, ← hs3, ht]
    split <;> rfl
  have hsay : s1.toHost.map HostOut.msg = s.toHost.map HostOut.msg ++ [.dieFailed die (tget s.beats die 0)] := by
    rw [hs1]
    exact say_opened (s := { s with failedDies := die :: s.failedDies }) hopen _
  have hs1b := Beside.of_say { s with failedDies := die :: s.failedDies } (.dieFailed die (tget s.beats die 0))
  rw [← hs1] at hs1b
  obtain ⟨hs2b, hs2c⟩ := Beside.of_takeLead s s1.launches s1
  rw [← hs2] at hs2b hs2c
  have hs1c : s1.cores = s.cores := by
    obtain ⟨S, T, R, D, hframe⟩ := say_frame { s with failedDies := die :: s.failedDies } (.dieFailed die (tget s.beats die 0))
    rw [hs1, hframe]
  have hs3b := Beside.of_reportLost die (lostOn s2 (die % 4)) s2
  rw [← hs3] at hs3b
  obtain ⟨hlose, hgone⟩ := loseJobs_loses ((s3.cores.map Prod.fst).filter (fun c => dieOf c == die % 4)) s3
  have hranges := Beside.of_loseRanges (die % 4) s2.launches
    (loseJobs ((s3.cores.map Prod.fst).filter (fun c => dieOf c == die % 4)) s3)
  have hall : Loses s1 t := by
    rw [ht]
    split
    · exact .of_beside hs2b
    · exact (Loses.of_beside (hs2b.trans hs3b)).trans (hlose.trans (.of_beside hranges))
  refine ⟨t, hexec, hall.2.1.trans hs1b.failed, ?_, fun hne => ?_, fun heq c hc => ?_⟩
  · obtain ⟨rest, hrest⟩ := hall.1.map HostOut.msg
    exact ⟨rest, by rw [← hrest, hsay, List.append_assoc, List.singleton_append]⟩
  · rw [ht, if_pos (by simpa using hne), hs2c, hs1c]
  · rw [ht, if_neg (by simp [heq])]
    refine (Loses.of_beside hranges).2.2 c ?_
    by_cases hmem : c ∈ s3.cores.map Prod.fst
    · exact hgone c (List.mem_filter.mpr ⟨hmem, by simp [hc]⟩)
    · refine hlose.2.2 c ?_
      rw [State.core, tget, tfind_of_not_mem hmem]
      rfl

end

end Sys2Proof.Machine
end

section
/-! SUPPORT. Start messages and heartbeats (R448, R469), and the obligation about releases, fabric barriers and dispatch. -/

namespace Sys2Proof.Machine

section
variable {s : State} {record die : Nat} {l : Launch}

/-- A start message counts: the die is due, or another package has led and the die's range is acknowledged. -/
def Told (s : State) (l : Launch) (die : Nat) : Prop :=
  die % 4 ∈ l.due ∨ (l.packages.headD s.pkgId ≠ s.pkgId ∧ ∃ g ∈ l.grants, g.die = die ∧ g.acked = true)

theorem told_iff : (l.due.contains (die % 4) || (l.packages.headD s.pkgId != s.pkgId && l.grants.any (fun g => g.die == die && g.acked))) =
    true ↔ Told s l die := by
  simp [Told, List.any_eq_true]

theorem start_known (hl : s.launches.find? (fun l => l.record == record) = some l) : exec (.dispatchStart record die) s = .next (
    if die / 4 = s.pkgId && (l.due.contains (die % 4) ||
      (l.packages.headD s.pkgId != s.pkgId && l.grants.any (fun g => g.die == die && g.acked))) &&
      rangeFree s ((l.cores.map Prod.fst).filter (fun c => dieOf c == die % 4)) then startDie s record (die % 4) else s) := by
  change execDispatchStart record die s = _
  rw [execDispatchStart, hl]

theorem start_unknown (hl : s.launches.find? (fun l => l.record == record) = none) : exec (.dispatchStart record die) s = .next s := by
  change execDispatchStart record die s = _
  rw [execDispatchStart, hl]

theorem startDie_stays {d : Nat} (hl : s.launches.find? (fun l => l.record == record) = some l) (h : d ∈ l.begun ∨ l.loaded = none) :
    startDie s record d = s := by
  rw [startDie, hl]
  dsimp only
  cases hload : l.loaded with
  | none => rfl
  | some p =>
    have hb : d ∈ l.begun := h.resolve_right (by simp [hload])
    exact if_pos (by simp [hb])

theorem start_stays (hl : s.launches.find? (fun l => l.record == record) = some l)
    (h : die / 4 ≠ s.pkgId ∨ ¬ Told s l die ∨ die % 4 ∈ l.begun ∨ l.loaded = none) : exec (.dispatchStart record die) s = .next s := by
  rw [start_known hl]
  split
  · next hc =>
    simp only [Bool.and_eq_true, decide_eq_true_eq] at hc
    obtain ⟨⟨hd, htold⟩, _⟩ := hc
    rw [startDie_stays hl ((h.resolve_left (fun hne => hne hd)).resolve_left (fun hne => hne (told_iff.mp htold)))]
  · rfl

theorem start_starts (hl : s.launches.find? (fun l => l.record == record) = some l) (hd : die / 4 = s.pkgId) (ht : Told s l die)
    (hfree : ∀ p ∈ l.cores, dieOf p.1 = die % 4 → (s.core p.1).job = none ∧ (s.core p.1).held = false) :
    exec (.dispatchStart record die) s = .next (startDie s record (die % 4)) := by
  rw [start_known hl, if_pos]
  have hrange : rangeFree s ((l.cores.map Prod.fst).filter (fun c => dieOf c == die % 4)) = true := by
    rw [rangeFree, List.all_eq_true]
    intro c hc
    obtain ⟨hmem, hdie⟩ := List.mem_filter.mp hc
    obtain ⟨p, hp, rfl⟩ := List.mem_map.mp hmem
    obtain ⟨hjob, hheld⟩ := hfree p hp (eq_of_beq hdie)
    simp [hjob, hheld]
  simp only [Bool.and_eq_true, decide_eq_true_eq]
  exact ⟨⟨hd, told_iff.mpr ht⟩, hrange⟩

theorem acknowledgement_eq (hd : die / 4 ≠ s.pkgId) : exec (.dispatchAcknowledgement record die) s =
    .next (s.mapLaunch record (fun l => if l.leader s = s.pkgId
      then { l with grants := l.grants.map (fun g => if g.die = die then { g with acked := true } else g) } else l)) := by
  change execDispatchAcknowledgement record die s = _
  rw [execDispatchAcknowledgement, if_neg hd]

theorem mapLaunch_id {f : Launch → Launch} (hf : ∀ l, f l = l) : s.mapLaunch record f = s := by
  have hid : s.launches.map (fun l => if l.record == record then f l else l) = s.launches := by
    refine (List.map_congr_left fun l _ => ?_).trans (List.map_id _)
    rw [hf, ite_self]
    rfl
  rw [State.mapLaunch, hid]

theorem heartbeatTimer_eq (hd : die < 4) : exec (.heartbeatTimer die) s = .next (
    if s.failedDies.contains (s.pkgId * 4 + die) || !s.powered then s
    else if s.accepted.getLsbD 8 then emit { s with beats := tset s.beats (s.pkgId * 4 + die) s.clock } (.heartbeat (s.pkgId * 4 + die))
    else { s with beats := tset s.beats (s.pkgId * 4 + die) s.clock }) := by
  change execHeartbeatTimer die s = _
  exact if_neg (Nat.not_le.mpr hd)

theorem whole_of_ready (hready : readyHere s record = true) (hsaved : savedOf s record = none) : s.whole record = true := by
  rw [readyHere] at hready
  simp only [Bool.and_eq_true] at hready
  obtain ⟨⟨⟨_, hlines⟩, _⟩, _⟩ := hready
  rw [State.whole, Bool.not_eq_true', List.any_eq_false]
  intro f hf hrec
  rw [Bool.not_eq_true', List.any_eq_false] at hlines
  have himg := hlines f hf
  have hnone := List.find?_eq_none.mp hsaved f hf
  cases himage : f.image <;> simp [hrec, himage] at himg hnone

theorem armed_of_ready (hready : readyHere s record = true) : (s.lrec record).armed = true := by
  rw [readyHere] at hready
  simp only [Bool.and_eq_true] at hready
  exact hready.1.1.1.1

end

/-- Settles O58, by the message that comes. -/
theorem releasesAndDispatch : Obligations.ReleasesAndDispatch := by
  unfold Obligations.ReleasesAndDispatch
  intro s pkg core epoch record die engines k count first cores
  refine ⟨fun hpkg => ⟨fun hnone => ⟨releaseClear_early hpkg hnone, releaseCancel_early hpkg hnone⟩, fun x hx => ⟨?_, ?_,
      releaseCancel_held hpkg hx⟩⟩, releaseClear_acts, fun m hacts hx hdst hcore => ?_, releaseCancel_own,
    fun hk => ⟨fun hleft => arrival_unknown hk hleft, barRelease_unknown hk, start_unknown (find_of_unknown hk)⟩, fun l hleft => ?_,
    fun l hl => ?_, fun hd => ?_, ?_, ?_, ?_, ?_⟩
  · rintro m rfl hdst
    have hsrc := mail_src (List.find?_some hx)
    have hself : mailToSelf m = false := by
      have hne : m.srcPkg ≠ m.dstPkg := fun h => hpkg (hsrc.1.symm.trans (h.trans hdst))
      simp [mailToSelf, hne]
    rw [releaseClear_performs (fun h => absurd h hpkg) hx, if_neg (by simp [releaseStill, hself]), performRelease_mail hself]
  · rintro r rfl hs hr
    rw [releaseClear_performs (fun h => absurd h hpkg) hx, if_neg (by exact Bool.false_ne_true)]
    obtain ⟨t, ht, hrel, hfab, hmem⟩ := performRelease_atomic
      (s := { s with releases := s.releases.filter (fun y => y != .atomic r) }) (r := r) hs hr
    exact ⟨t, by rw [ht], hrel, hfab, hmem⟩
  · have hsrc := mail_src (List.find?_some hx)
    have hself : mailToSelf m = true := by simp [mailToSelf, hsrc, hdst, hcore]
    rw [releaseClear_performs (fun _ => hacts) hx]
    refine ⟨fun hstill => ?_, fun hstill => ?_⟩
    · rw [if_pos (by simp [releaseStill, hself, hcore, hstill])]
    · rw [if_neg (by simp [releaseStill, hself, hcore, hstill]), performRelease, if_pos hself, hcore]
      rfl
  · refine ⟨_, arrival_left hleft, ?_⟩
    by_cases hall : ∀ p ∈ l.packages, p = pkg ∨ p ∈ l.endedOn
    · obtain ⟨F, hF, hmem⟩ := leftArrival_all (s := s) (record_of_leftFor hleft) hall
      rw [hF]
      refine ⟨rfl, rfl, fun _ => ⟨rfl, fun p hp hne => List.mem_append_right _ (hmem p hp hne)⟩, ?_⟩
      rintro ⟨p, hp, hne, hend⟩
      exact absurd (hall p hp) (by simp [hne, hend])
    · have hsome : ∃ p ∈ l.packages, p ≠ pkg ∧ p ∉ l.endedOn := by
        by_contra hno
        refine hall fun p hp => ?_
        by_contra hor
        exact hno ⟨p, hp, fun h => hor (.inl h), fun h => hor (.inr h)⟩
      obtain ⟨L, hL⟩ := leftArrival_some (s := s) hsome
      rw [hL]
      exact ⟨rfl, rfl, fun h => absurd h hall, fun _ => rfl⟩
  · refine ⟨fun hhere hor => ?_, fun hlead hin hne hnew => ?_, fun hhere hlead hor => ?_,
      fun hhere hlead hin hne hend hwave hsent hw => ?_, fun hor => ?_, fun hlen hlead => ⟨?_, ?_⟩, fun hor => start_stays hl hor,
      fun tile img hd htold hbegun hload hwhole hfree hnd => ?_, fun hlead => ⟨fun hd => ?_, fun hd hcs hc hfail => ?_,
        fun hd hcs hc hfree hfail => ?_⟩⟩
    · rw [arrival_known hl (fun _ => hhere), if_pos hor]
    · have hbars : l.remoteBars.any (fun b => b.1 == pkg && b.2.2.1 + 1 == k + 1) = false := by
        rw [List.any_eq_false]
        intro b hb
        simpa using hnew b hb
      obtain ⟨t, l', ht, hrest⟩ := noteArrival_notes (pkg := pkg) (engines := engines) (k := k) (count := count) hl
      refine ⟨t, l', ?_, hrest⟩
      rw [arrival_known hl (fun h => absurd h (Nat.succ_ne_zero k)), if_neg (by simp [hlead, hin, hne]), if_neg (Nat.succ_ne_zero k), hbars,
        if_neg Bool.false_ne_true]
      exact congrArg _ ht
    · rw [arrival_known hl (fun _ => hhere), if_pos rfl, if_pos hor.symm, ite_self]
    · have hexec : exec (.fabricBarrierArrival pkg record engines 0 count) s =
          .next (if l.sent = false then wholeWaveFails s record else partEnded s record pkg) := by
        rw [arrival_known hl (fun _ => hhere), if_neg (by simp [hlead, hin, hne]), if_pos rfl, if_neg (by simp [hend, hwave])]
      by_cases hs : l.sent = false
      · rw [hexec, if_pos hs]
        exact ⟨_, rfl, wholeWaveFails_over hl hw⟩
      · rw [hexec, if_neg hs]
        exact ⟨_, rfl, partEnded_over hl (hsent.resolve_left hs) hw⟩
    · rw [barRelease_known hl, if_pos hor]
    · rw [barRelease_known hl, if_neg (by simp [hlead, hlen]), if_neg (Nat.succ_ne_zero k), Nat.add_sub_cancel]
    · obtain ⟨hgone, hcomp, harm, _⟩ := completeLaunch_ends s record
      exact ⟨_, by rw [barRelease_known hl, if_neg (by simp [hlead, hlen]), if_pos rfl], hgone, hcomp, harm⟩
    · obtain ⟨u, v, _, hv, _, _, _, _, _, _, _, hout, hin⟩ := startDie_starts hl hload hbegun hwhole hnd
      refine ⟨v, by rw [start_starts hl hd htold hfree, hv], hout, fun p hp hpd hdone => ?_⟩
      rw [hin p hp hpd hdone]
      exact ⟨_, rfl, rfl, rfl, rfl, rfl, fun e he => startJob_stream _ _ _ he⟩
    · refine ⟨_, _, acknowledgement_eq hd, rfl, find_mapLaunch (fun l => ?_) hl, if_pos hlead⟩
      split <;> rfl
    · rw [grant_leads hl hlead hcs hc, mapLaunch_id fun m => ?_]
      have hid : ackOwn s die first cores = id := by
        funext g
        rw [ackOwn, hfail]
        simp
      rw [hid, List.map_id]
    · refine ⟨_, _, grant_leads hl hlead hcs hc, rfl, find_mapLaunch (fun l => rfl) hl, ?_⟩
      have hack : ackOwn s die first cores = fun g => if g.die = die ∧ g.first = first ∧ g.cores = cores then { g with acked := true } else g := by
        funext g
        simp only [ackOwn, hfail, hfree, hd, decide_true, Bool.not_false, Bool.and_true, Bool.true_and, Bool.and_eq_true, beq_iff_eq,
          and_assoc]
      rw [hack]
  · change execDispatchAcknowledgement record die s = _
    rw [execDispatchAcknowledgement, if_pos hd]
  · refine ⟨grant_none, fun hd hp hcs hc hnone => ⟨fun hready => ?_, fun hready hsaved => ⟨fun hfit hvict => ?_,
      fun hfit hchange h9 h11 hfail hrank hle => ?_⟩⟩⟩
    · rw [grant_own hnone hd hp hcs hc, ownGrant_unready hnone hready]
    · rw [grant_own hnone hd hp hcs hc, ownGrant_new hnone hready hsaved, if_pos hfit, preemptFor, hvict]
    · have hfree : rangeFree s cores = true := by
        rw [rangeFree, List.all_eq_true]
        exact fun c h => free_of_fits (hc c h).1 (List.all_eq_true.mp hfit c h)
      obtain ⟨rest, hpk⟩ : ∃ rest, grantPackages (s.lrec record) die first = (s.pkgId - rankOf (s.lrec record) first) :: rest := by
        rw [grantPackages, hd]
        obtain ⟨n, hn⟩ : ∃ n, (s.lrec record).packages = n + 1 := ⟨(s.lrec record).packages - 1, by omega⟩
        rw [hn, List.range_succ_eq_map]
        exact ⟨_, rfl⟩
      obtain ⟨R, hR⟩ := waveOf_granted (cores := cores) hnone (armed_of_ready hready) (whole_of_ready hready hsaved) hd hfree hfail hpk
        (by omega) h9 h11
      have hne : ¬ (cores.all (coreFits s [] (needed s record) (s.lrec record).gauge) = false) := ne_false_of_eq_true hfit
      have hexec := grant_own (die := die) (first := first) hnone hd hp hcs hc
      rw [ownGrant_new hnone hready hsaved, if_neg hne, hchange, if_neg (by simp), hR] at hexec
      refine ⟨_, _, hexec, rfl, rfl, rfl, ?_, rfl, rfl, rfl, rfl⟩
      refine List.map_fst_zip ?_
      simp [grantIndices]
  · change execHeartbeat die s = _
    rw [execHeartbeat]
    split <;> rfl
  · refine fun hd => ⟨fun hor => ?_, fun hfail hpow => ?_⟩
    · rw [heartbeatTimer_eq hd, if_pos]
      simpa using hor
    · rw [heartbeatTimer_eq hd, if_neg (by simp [hfail, hpow])]
      rfl
  · exact ⟨failure_none, failure_fails⟩

end Sys2Proof.Machine
end

section
/-! SUPPORT. Releases of barriers in a package (R143, R144, R365), and the obligation about them. -/

namespace Sys2Proof.Machine

section
variable {s : State} {c scope mask inst : Nat} {l : Launch}

/-! ## Streams that go on from a barrier -/

/-- The stream behind the barrier at which it stood. -/
def State.goesOn (s : State) (w : Who) : Stream := { s.stream w with pc := s.pcOf w + 4, run := s.runNext w, at_ := .free }

/-- Some streams of a core have gone on, and nothing else has changed. -/
structure GoneOn (s t : State) (c : Nat) (es : List Eng) : Prop where
  frame : ∃ C, t = { s with cores := C }
  gone : ∀ e ∈ es, t.stream ⟨c, e⟩ = s.goesOn ⟨c, e⟩
  stays : ∀ e, e ∉ es → t.stream ⟨c, e⟩ = s.stream ⟨c, e⟩
  others : ∀ d, d ≠ c → t.core d = s.core d
  tile : (t.core c).tile = (s.core c).tile
  held : (t.core c).held = (s.core c).held

theorem goesOn_congr {t : State} {w : Who} (hu : t.stream w = s.stream w) (hk : (t.core w.core).held = (s.core w.core).held) :
    t.goesOn w = s.goesOn w := by
  have hrun : t.runNext w = s.runNext w := by
    rw [State.runNext, State.runNext, hu]
    exact runAfter_congr hk rfl rfl
  rw [State.goesOn, State.goesOn, State.pcOf, hu, hrun]
  rfl

theorem goTo_gone (e : Eng) : GoneOn s (s.goTo ⟨c, e⟩ (s.pcOf ⟨c, e⟩ + 4)) c [e] := by
  refine ⟨⟨_, rfl⟩, fun f hf => ?_, fun f hf => ?_, fun d hd => ?_, ?_, ?_⟩
  · rw [List.mem_singleton.mp hf, State.goTo, State.stream_setStream_self]
    rfl
  · refine State.stream_setStream_ne _ _ fun h => hf ?_
    rw [(Who.mk.inj h).2]
    exact List.mem_singleton.mpr rfl
  · exact State.core_setCore_ne _ _ hd
  · rw [State.goTo, State.setStream, State.core_setCore_self]
    cases e <;> rfl
  · rw [State.goTo, State.setStream, State.core_setCore_self]
    cases e <;> rfl

theorem GoneOn.cons {t u : State} {e : Eng} {es : List Eng} (he : e ∉ es) (h1 : GoneOn s t c [e]) (h2 : GoneOn t u c es) :
    GoneOn s u c (e :: es) := by
  obtain ⟨⟨C, hC⟩, hgone, hstays, hothers, htile, hheld⟩ := h1
  obtain ⟨⟨D, hD⟩, hgone', hstays', hothers', htile', hheld'⟩ := h2
  refine ⟨⟨D, by rw [hD, hC]⟩, fun f hf => ?_, fun f hf => ?_, fun d hd => by rw [hothers' d hd, hothers d hd],
    htile'.trans htile, hheld'.trans hheld⟩
  · rcases List.mem_cons.mp hf with rfl | hf
    · rw [hstays' f he, hgone f (List.mem_singleton.mpr rfl)]
    · have hne : f ∉ [e] := fun h => he (List.mem_singleton.mp h ▸ hf)
      rw [hgone' f hf]
      exact goesOn_congr (hstays f hne) hheld
  · simp only [List.mem_cons, not_or] at hf
    rw [hstays' f hf.2, hstays f (by simpa using hf.1)]

theorem retireEngines_gone : ∀ (es : List Eng) (s : State), es.Nodup → (∀ e ∈ es, Straight s ⟨c, e⟩ 4) →
    GoneOn s (retireEngines c es s) c es
  | [], s, _, _ => ⟨⟨s.cores, rfl⟩, fun _ h => absurd h (by simp), fun _ _ => rfl, fun _ _ => rfl, rfl, rfl⟩
  | e :: es, s, hnd, hst => by
    obtain ⟨he, hnd⟩ := List.nodup_cons.mp hnd
    have hretire : retire ⟨c, e⟩ 4 s = s.goTo ⟨c, e⟩ (s.pcOf ⟨c, e⟩ + 4) := retire_stays (hst e List.mem_cons_self) rfl rfl
    have hgone := goTo_gone (s := s) (c := c) e
    rw [← hretire] at hgone
    refine hgone.cons he (retireEngines_gone es _ hnd fun f hf => straight_congr ?_ (hst f (List.mem_cons_of_mem _ hf)))
    exact hgone.stays f fun h => he (List.mem_singleton.mp h ▸ hf)

theorem standsAt_nodup (k : Core) (timed : Bool) : (standsAt k scope inst timed).Nodup :=
  List.Nodup.filter _ (by decide)

theorem mem_standsAt {k : Core} {timed : Bool} {e : Eng} (h : e ∈ standsAt k scope inst timed) : (k.stream e).at_ ≠ .free := by
  intro hfree
  have hp := (List.mem_filter.mp h).2
  rw [hfree] at hp
  exact Bool.noConfusion hp

/-! ## Interval numbers (R365) -/

theorem advanceIntervals_frame (s : State) (l : Launch) (scope inst c : Nat) :
    ∃ I L, advanceIntervals s l scope inst c = { s with intervals := I, launches := L } := by
  rw [advanceIntervals]
  split
  · exact ⟨s.intervals, s.launches, rfl⟩
  · rw [advanceUnits]
    split
    · exact ⟨s.intervals, _, rfl⟩
    · exact ⟨_, _, rfl⟩

/-- The barrier completes with the first release of a scope as wide as the interval's. -/
def Advances (s : State) (l : Launch) (scope inst c : Nat) : Prop :=
  (s.ctx (s.lrec l.record).ctx).mmode = 1 ∧ (s.ctx (s.lrec l.record).ctx).mscopeCode ≤ scope ∧ (scope, unitOf scope c, inst) ∉ l.completed

theorem intervals_stay (h : ¬ Advances s l scope inst c) : (advanceIntervals s l scope inst c).intervals = s.intervals := by
  rw [advanceIntervals]
  split
  · rfl
  · next hfirst =>
    rw [advanceUnits]
    dsimp only
    rw [if_pos]
    · rfl
    · simp only [Bool.or_eq_true, bne_iff_ne, ne_eq, decide_eq_true_eq]
      by_contra hno
      simp only [not_or, Decidable.not_not, Nat.not_lt] at hno
      exact h ⟨hno.1, hno.2, fun hmem => hfirst (List.contains_iff_mem.mpr hmem)⟩

/-- The units among some cores come once each. -/
theorem unitsAmong_spec (scope : Nat) : ∀ (l seen : List Nat), (unitsAmong scope l seen).Nodup ∧
    (∀ u ∈ unitsAmong scope l seen, u ∉ seen) ∧ ∀ c ∈ l, unitOf scope c ∉ seen → unitOf scope c ∈ unitsAmong scope l seen
  | [], _ => ⟨List.nodup_nil, fun _ h => absurd h (by simp [unitsAmong]), fun _ h => absurd h (by simp)⟩
  | c :: t, seen => by
    rw [unitsAmong]
    by_cases hseen : unitOf scope c ∈ seen
    · rw [if_pos (List.contains_iff_mem.mpr hseen)]
      obtain ⟨hnd, hout, hin⟩ := unitsAmong_spec scope t seen
      refine ⟨hnd, hout, fun d hd hnew => ?_⟩
      rcases List.mem_cons.mp hd with rfl | hd
      · exact absurd hseen hnew
      · exact hin d hd hnew
    · rw [if_neg (mt List.contains_iff_mem.mp hseen)]
      obtain ⟨hnd, hout, hin⟩ := unitsAmong_spec scope t (unitOf scope c :: seen)
      refine ⟨List.nodup_cons.mpr ⟨fun h => hout _ h List.mem_cons_self, hnd⟩, fun u hu => ?_, fun d hd hnew => ?_⟩
      · rcases List.mem_cons.mp hu with rfl | hu
        · exact hseen
        · exact fun h => hout u hu (List.mem_cons_of_mem _ h)
      · rcases List.mem_cons.mp hd with rfl | hd
        · exact List.mem_cons_self
        · by_cases hsame : unitOf scope d = unitOf scope c
          · rw [hsame]
            exact List.mem_cons_self
          · exact List.mem_cons_of_mem _ (hin d hd (by simp [hsame, hnew]))

/-- Each of some distinct numbers is raised once. -/
theorem foldl_raise (key : Nat → Nat) (hkey : ∀ u v, key u = key v → u = v) {u : Nat} : ∀ (us : List Nat) (m : Tbl Nat), us.Nodup →
    tget (us.foldl (fun m v => tset m (key v) ((tget m (key v) 0 + 1) % 65536)) m) (key u) 0 =
      if u ∈ us then (tget m (key u) 0 + 1) % 65536 else tget m (key u) 0
  | [], _, _ => rfl
  | v :: us, m, hnd => by
    obtain ⟨hv, hnd⟩ := List.nodup_cons.mp hnd
    rw [List.foldl_cons, foldl_raise key hkey us _ hnd]
    by_cases huv : u = v
    · subst huv
      rw [if_neg hv, tget_tset_self, if_pos List.mem_cons_self]
    · have hne : key u ≠ key v := fun h => huv (hkey u v h)
      simp only [tget_tset_ne _ _ _ hne, List.mem_cons, huv, false_or]

theorem intervals_advance (h : Advances s l scope inst c) (hc : c ∈ l.cores.map Prod.fst) :
    tget (advanceIntervals s l scope inst c).intervals (intervalKey (s.lrec l.record).ctx (s.ctx (s.lrec l.record).ctx).mscopeCode
        (unitOf (s.ctx (s.lrec l.record).ctx).mscopeCode c)) 0 =
      (tget s.intervals (intervalKey (s.lrec l.record).ctx (s.ctx (s.lrec l.record).ctx).mscopeCode
        (unitOf (s.ctx (s.lrec l.record).ctx).mscopeCode c)) 0 + 1) % 65536 := by
  obtain ⟨hmode, hscope, hfirst⟩ := h
  obtain ⟨hnd, _, hin⟩ := unitsAmong_spec (s.ctx (s.lrec l.record).ctx).mscopeCode (participants l scope c) []
  have hpart : c ∈ participants l scope c := List.mem_filter.mpr ⟨hc, by simp⟩
  have hadv : (advanceIntervals s l scope inst c).intervals = (unitsAmong (s.ctx (s.lrec l.record).ctx).mscopeCode
      (participants l scope c) []).foldl (fun m v => tset m (intervalKey (s.lrec l.record).ctx (s.ctx (s.lrec l.record).ctx).mscopeCode v)
        ((tget m (intervalKey (s.lrec l.record).ctx (s.ctx (s.lrec l.record).ctx).mscopeCode v) 0 + 1) % 65536)) s.intervals := by
    rw [advanceIntervals]
    rw [if_neg (mt List.contains_iff_mem.mp hfirst), advanceUnits]
    rw [if_neg (by simp [hmode, hscope])]
    rfl
  rw [hadv, foldl_raise (intervalKey (s.lrec l.record).ctx (s.ctx (s.lrec l.record).ctx).mscopeCode)
    (fun u v h => by simpa [intervalKey] using h) _ _ hnd, if_pos (hin c hpart (by simp))]

/-! ## Untimed barriers (R143) -/

theorem barrierRelease_eq (hc : c < 512) (hs : s.still c = false) (hl : s.launchOf c = some l) : exec (.barrierRelease c) s = .next (
    match (untimedAt (s.core c)).find? (fun b => (participants l b.1 c).all (fun d => arrivedAt (s.core d) b.1 b.2.2)) with
    | some (scope, mask, inst) => releaseBar s c l scope mask inst
    | none => s) := by
  change execBarrierRelease c s = _
  rw [execBarrierRelease, coreEvent, if_neg (by simp [coreExists, hc]), hs, if_neg Bool.false_ne_true, hl] <;> rfl

theorem releaseBar_waits (hw : s.whole l.record = false) : releaseBar s c l scope mask inst = s := by
  rw [releaseBar]
  exact if_pos (by simp [hw])

theorem releaseBar_releases (hall : (participants l scope c).all (fun d => arrivedAt (s.core d) scope inst) = true)
    (hw : s.whole l.record = true) (hcommit : commitFirst s l scope (participants l scope c) = false)
    (hfab : scope ≠ 5 ∨ l.packages.length ≤ 1 ∨ inst ∈ l.released) : releaseBar s c l scope mask inst =
    retireEngines c (standsAt (s.core c) scope inst false) (advanceIntervals s l scope inst c) := by
  rw [releaseBar]
  rw [if_neg (by rw [hall, hw, hcommit]; exact Bool.false_ne_true), if_neg]
  simp only [Bool.and_eq_true, decide_eq_true_eq, Bool.not_eq_true', List.contains_eq_mem, decide_eq_false_iff_not]
  rintro ⟨⟨h5, hlen⟩, hrel⟩
  rcases hfab with h | h | h
  · exact h h5
  · exact absurd hlen (Nat.not_lt.mpr h)
  · exact hrel h

/-! ## Timed barriers (R144) -/

/-- The largest T that an arrived participant of a barrier gave. -/
def latestT (l : Launch) (scope c inst : Nat) : Nat :=
  match timedOf l scope (unitOf scope c) inst with
  | some b => b.high
  | none => 0

theorem timedRelease_eq (hc : c < 512) (hs : s.still c = false) (hl : s.launchOf c = some l) : exec (.timedBarrierRelease c) s = .next (
    match timedAt (s.core c) with
    | some (scope, inst) =>
      if ((participants l scope c).filter (fun d => arrivedAt (s.core d) scope inst &&
          !(standsAt (s.core d) scope inst true).isEmpty)).isEmpty || !s.whole l.record ||
        decide (s.jobCount c < latestT l scope c inst) then s
      else releaseTimed scope inst (((participants l scope c).filter (fun d => arrivedAt (s.core d) scope inst &&
        !(standsAt (s.core d) scope inst true).isEmpty)).filter (fun d => dieOf d == dieOf c)) (advanceIntervals s l scope inst c)
    | none => s) := by
  change execTimedBarrierRelease c s = _
  rw [execTimedBarrierRelease, coreEvent, if_neg (by simp [coreExists, hc]), hs, if_neg Bool.false_ne_true, hl]
  cases timedAt (s.core c) <;> rfl

/-- The streams of some cores that stand at a timed barrier go on together. -/
theorem releaseTimed_gone : ∀ (ds : List Nat) (s : State),
    (∀ d ∈ ds, ∀ e ∈ standsAt (s.core d) scope inst true, Straight s ⟨d, e⟩ 4) →
    (∃ C, releaseTimed scope inst ds s = { s with cores := C }) ∧
    (∀ d ∈ ds, ∀ e ∈ standsAt (s.core d) scope inst true, (releaseTimed scope inst ds s).stream ⟨d, e⟩ = s.goesOn ⟨d, e⟩) ∧
    (∀ d, d ∉ ds → (releaseTimed scope inst ds s).core d = s.core d) ∧
    ∀ d, (∀ e, e ∉ standsAt (s.core d) scope inst true) → ∀ e, (releaseTimed scope inst ds s).stream ⟨d, e⟩ = s.stream ⟨d, e⟩
  | [], s, _ => ⟨⟨s.cores, rfl⟩, fun _ h => absurd h (by simp), fun _ _ => rfl, fun _ _ _ => rfl⟩
  | d :: ds, s, hst => by
    have h1 := retireEngines_gone (c := d) (standsAt (s.core d) scope inst true) s (standsAt_nodup _ _)
      (hst d List.mem_cons_self)
    obtain ⟨t, ht⟩ : ∃ t, t = retireEngines d (standsAt (s.core d) scope inst true) s := ⟨_, rfl⟩
    rw [← ht] at h1
    have hrel : releaseTimed scope inst (d :: ds) s = releaseTimed scope inst ds t := by rw [releaseTimed, ht]
    have hempty : ∀ e, e ∉ standsAt (t.core d) scope inst true := by
      intro e he
      by_cases hin : e ∈ standsAt (s.core d) scope inst true
      · refine mem_standsAt he ?_
        change (t.stream ⟨d, e⟩).at_ = _
        rw [h1.gone e hin]
        rfl
      · have hp := (List.mem_filter.mp he)
        refine hin (List.mem_filter.mpr ⟨hp.1, ?_⟩)
        have hsame : (t.core d).stream e = (s.core d).stream e := h1.stays e hin
        rw [← hsame]
        exact hp.2
    have hst' : ∀ f ∈ ds, ∀ e ∈ standsAt (t.core f) scope inst true, Straight t ⟨f, e⟩ 4 := by
      intro f hf e he
      by_cases hfd : f = d
      · subst hfd
        exact absurd he (hempty e)
      · rw [h1.others f hfd] at he
        refine straight_congr ?_ (hst f (List.mem_cons_of_mem _ hf) e he)
        rw [State.stream, h1.others f hfd, State.stream]
    obtain ⟨⟨D, hD⟩, hgone, hout, hstill⟩ := releaseTimed_gone ds t hst'
    obtain ⟨C, hC⟩ := h1.frame
    rw [hrel]
    refine ⟨⟨D, by rw [hD, hC]⟩, fun f hf e he => ?_, fun f hf => ?_, fun f hf e => ?_⟩
    · by_cases hfd : f = d
      · subst hfd
        rw [hstill f hempty, h1.gone e he]
      · have hf' := (List.mem_cons.mp hf).resolve_left hfd
        rw [hgone f hf' e (by rw [h1.others f hfd]; exact he)]
        refine goesOn_congr ?_ (by rw [h1.others f hfd])
        rw [State.stream, h1.others f hfd, State.stream]
    · simp only [List.mem_cons, not_or] at hf
      rw [hout f hf.2, h1.others f hf.1]
    · by_cases hfd : f = d
      · subst hfd
        rw [hstill f hempty, h1.stays e (hf e)]
      · rw [hstill f (by rw [h1.others f hfd]; exact hf), State.stream, h1.others f hfd, State.stream]

end

/-- Settles O48, by the barrier at which a core's streams stand. -/
theorem barriersRelease : Obligations.BarriersRelease := by
  unfold Obligations.BarriersRelease
  intro s c scope mask inst l hc hs hl
  refine ⟨fun hnone => ?_, fun hw => ⟨?_, ?_⟩, fun hfound hcommit hw hfab hst => ?_, fun htimed hw hpart harr hstands =>
    ⟨fun hearly => ?_, fun hlate hst => ?_⟩⟩
  · rw [barrierRelease_eq hc hs hl, hnone]
  · rw [barrierRelease_eq hc hs hl]
    split
    · rw [releaseBar_waits hw]
    · rfl
  · rw [timedRelease_eq hc hs hl]
    split
    · rw [if_pos (by simp [hw])]
    · rfl
  · obtain ⟨I, L, hframe⟩ := advanceIntervals_frame s l scope inst c
    obtain ⟨u, hu⟩ : ∃ u, u = advanceIntervals s l scope inst c := ⟨_, rfl⟩
    have hstream : ∀ w, u.stream w = s.stream w := by
      intro w
      rw [hu, hframe]
      rfl
    have hcores : ∀ d, u.core d = s.core d := by
      intro d
      rw [hu, hframe]
      rfl
    have hgone := retireEngines_gone (c := c) (standsAt (s.core c) scope inst false) u (standsAt_nodup _ _)
      (fun e he => straight_congr (hstream _) (hst e he))
    obtain ⟨C, hC⟩ := hgone.frame
    refine ⟨retireEngines c (standsAt (s.core c) scope inst false) u, ?_, fun e he => ?_, fun e he => ?_, fun d hd => ?_, ?_, ?_, ?_, ?_⟩
    · rw [barrierRelease_eq hc hs hl, hfound]
      dsimp only
      rw [releaseBar_releases (List.find?_some (p := fun b : Nat × Nat × Nat => (participants l b.1 c).all (fun d => arrivedAt (s.core d) b.1 b.2.2)) hfound) hw hcommit hfab, hu]
    · rw [hgone.gone e he]
      exact goesOn_congr (hstream _) (by rw [hcores])
    · rw [hgone.stays e he, hstream]
    · rw [hgone.others d hd, hcores]
    · rw [hC, hu, hframe]
    · rw [hgone.tile, hcores]
    · intro hnot
      rw [hC]
      change u.intervals = s.intervals
      rw [hu]
      refine intervals_stay fun hadv => ?_
      obtain ⟨hmode, hscope, hfirst⟩ := hadv
      rcases hnot with h | h | h
      · exact h hmode
      · exact absurd hscope (Nat.not_le.mpr h)
      · exact h hfirst
    · intro hmode hscope hfirst hin
      rw [hC]
      change tget u.intervals _ 0 = _
      rw [hu]
      exact intervals_advance ⟨hmode, hscope, hfirst⟩ hin
  · rw [timedRelease_eq hc hs hl, htimed]
    have hdec : decide (s.jobCount c < latestT l scope c inst) = true := decide_eq_true hearly
    exact congrArg _ (if_pos (by rw [hdec, Bool.or_true]))
  · obtain ⟨I, L, hframe⟩ := advanceIntervals_frame s l scope inst c
    obtain ⟨u, hu⟩ : ∃ u, u = advanceIntervals s l scope inst c := ⟨_, rfl⟩
    have hstream : ∀ w, u.stream w = s.stream w := by
      intro w
      rw [hu, hframe]
      rfl
    have hcores : ∀ d, u.core d = s.core d := by
      intro d
      rw [hu, hframe]
      rfl
    obtain ⟨here, hhere⟩ : ∃ ds, ds = (participants l scope c).filter (fun d => arrivedAt (s.core d) scope inst &&
      !(standsAt (s.core d) scope inst true).isEmpty) := ⟨_, rfl⟩
    have hmem : c ∈ here := by
      rw [hhere, List.mem_filter]
      exact ⟨hpart, by simp [harr, hstands]⟩
    rw [← hhere] at hst
    obtain ⟨⟨C, hC⟩, hgone, hout, _⟩ := releaseTimed_gone (scope := scope) (inst := inst) (here.filter (fun d => dieOf d == dieOf c)) u
      (fun d hd e he => straight_congr (hstream _) (hst d (List.mem_filter.mp hd).1 e (by rw [← hcores]; exact he)))
    have hgoes : ∀ d ∈ here, dieOf d = dieOf c → ∀ e ∈ standsAt (s.core d) scope inst true,
        (releaseTimed scope inst (here.filter (fun d => dieOf d == dieOf c)) u).stream ⟨d, e⟩ = s.goesOn ⟨d, e⟩ := by
      intro d hd hdie e he
      rw [hgone d (List.mem_filter.mpr ⟨hd, by simp [hdie]⟩) e (by rw [hcores]; exact he)]
      exact goesOn_congr (hstream _) (by rw [hcores])
    refine ⟨releaseTimed scope inst (here.filter (fun d => dieOf d == dieOf c)) u, ?_, fun e he => hgoes c hmem rfl e he, ?_,
      fun d hd hdie e he => ?_, fun d hd => ?_⟩
    · rw [timedRelease_eq hc hs hl, htimed]
      dsimp only
      rw [← hhere, hu]
      refine congrArg _ (if_neg ?_)
      have hdec : decide (s.jobCount c < latestT l scope c inst) = false := decide_eq_false (Nat.not_lt.mpr hlate)
      have hne : here.isEmpty = false := by simp [List.ne_nil_of_mem hmem]
      rw [hne, hw, hdec]
      exact Bool.false_ne_true
    · rw [hC, hu, hframe]
    · rw [← hhere] at hd
      rw [hgoes d hd hdie e he]
      exact ⟨rfl, rfl⟩
    · rw [hout d fun h => hd (eq_of_beq (List.mem_filter.mp h).2), hcores]

end Sys2Proof.Machine
end

section
/-! SUPPORT. Commands of the host (R430 to R432, R438): when one is accepted, waits, is dropped or takes effect, and the obligation about
the session (R427 to R430, R434). -/

namespace Sys2Proof.Machine

/-! ## Commands in an open session -/

section
variable {s : State} {i : Instr} {h : HostHdr} {bulk inRecovery : Bool} {act : State → State}

/-- The Ethernet port of a message is up. -/
def PortUp (s : State) (h : HostHdr) : Prop := h.port < (if s.recovery then 1 else 4)

/-- A command stands before this one: an ending or another command is to be completed first, or one that waits came before it. -/
def Behind (s : State) (h : HostHdr) (bulk : Bool) : Prop :=
  (∃ e ∈ s.endings, e.command ≠ none) ∨ (bulk = false ∧ ∃ o ∈ s.ops, o.answers = true) ∨
    ∃ y ∈ s.session.waiting, y.seq < h.seq ∧ ¬ (bulk = true ∧ y.bulk = true)

theorem mustWait_iff : mustWait s h.seq bulk = true ↔ Behind s h bulk := by
  simp only [mustWait, Behind, Bool.or_eq_true, Bool.and_eq_true, List.any_eq_true, Bool.not_eq_true', decide_eq_true_eq, ne_eq,
    Option.isSome_iff_ne_none, or_assoc, Bool.and_eq_false_iff, not_and, Bool.not_eq_true]
  refine or_congr_right (or_congr_right (exists_congr fun y => and_congr_right fun _ => and_congr_right fun _ => ?_))
  cases bulk <;> simp

theorem etherUp_iff : etherUp s h.port = true ↔ PortUp s h := decide_eq_true_iff

theorem mem_waiting_iff (w : WaitingCmd) : s.session.waiting.contains w = true ↔ w ∈ s.session.waiting := List.contains_iff_mem

theorem hostCmd_closed (hc : s.session.phase ≠ .opened ∨ ¬ PortUp s h) : hostCmd i h bulk inRecovery act s = .next s := by
  refine congrArg _ (if_pos ?_)
  simp only [Bool.or_eq_true, decide_eq_true_eq, Bool.not_eq_true', ← Bool.not_eq_true, etherUp_iff]
  exact hc

section
variable (hopen : s.session.phase = .opened) (hup : PortUp s h)
include hopen hup

theorem hostCmd_opened : hostCmd i h bulk inRecovery act s = .next (
    if s.session.waiting.contains ⟨h.seq, bulk, i⟩ then
      (if mustWait s h.seq bulk then s
       else beginCmd h bulk inRecovery act { s with session := { s.session with
         waiting := s.session.waiting.filter (fun x => x != ⟨h.seq, bulk, i⟩) } })
    else if h.seq ≠ s.session.seqIn + 1 then dropMessage s
    else if mustWait s h.seq bulk then { s.hears h with session := { (s.hears h).session with
      waiting := s.session.waiting ++ [⟨h.seq, bulk, i⟩] } }
    else beginCmd h bulk inRecovery act (s.hears h)) := by
  refine congrArg _ (if_neg ?_)
  simp only [Bool.or_eq_true, decide_eq_true_eq, Bool.not_eq_true', ← Bool.not_eq_true, etherUp_iff]
  rintro (h | h)
  · exact h hopen
  · exact h hup

theorem hostCmd_dropped (hin : ⟨h.seq, bulk, i⟩ ∉ s.session.waiting) (hseq : h.seq ≠ s.session.seqIn + 1) :
    hostCmd i h bulk inRecovery act s = .next (dropMessage s) := by
  rw [hostCmd_opened hopen hup, if_neg (mt (mem_waiting_iff _).mp hin), if_pos hseq]

theorem hostCmd_joins (hin : ⟨h.seq, bulk, i⟩ ∉ s.session.waiting) (hseq : h.seq = s.session.seqIn + 1) (hb : Behind s h bulk) :
    hostCmd i h bulk inRecovery act s = .next { s.hears h with session := { (s.hears h).session with
      waiting := s.session.waiting ++ [⟨h.seq, bulk, i⟩] } } := by
  rw [hostCmd_opened hopen hup, if_neg (mt (mem_waiting_iff _).mp hin), if_neg (not_not.mpr hseq), if_pos (mustWait_iff.mpr hb)]

theorem hostCmd_stands (hin : ⟨h.seq, bulk, i⟩ ∈ s.session.waiting) (hb : Behind s h bulk) :
    hostCmd i h bulk inRecovery act s = .next s := by
  rw [hostCmd_opened hopen hup, if_pos ((mem_waiting_iff _).mpr hin), if_pos (mustWait_iff.mpr hb)]

theorem hostCmd_begins (hin : ⟨h.seq, bulk, i⟩ ∈ s.session.waiting) (hb : ¬ Behind s h bulk) :
    hostCmd i h bulk inRecovery act s = .next (beginCmd h bulk inRecovery act { s with session := { s.session with
      waiting := s.session.waiting.filter (fun x => x != ⟨h.seq, bulk, i⟩) } }) := by
  rw [hostCmd_opened hopen hup, if_pos ((mem_waiting_iff _).mpr hin), if_neg (mt mustWait_iff.mp hb)]

end

/-- The next message of a session in which nothing is to be completed before it. -/
theorem hostCmd_next (hn : HostNext s h) : hostCmd i h bulk inRecovery act s = .next (beginCmd h bulk inRecovery act (s.hears h)) := by
  obtain ⟨hopen, hup, hseq, hend, hops, hwait⟩ := hn
  have hb : ¬ Behind s h bulk := by
    rintro (⟨e, he, hc⟩ | ⟨_, o, ho, ha⟩ | ⟨y, hy, _⟩)
    · exact hc (hend e he)
    · rw [hops o ho] at ha
      exact Bool.noConfusion ha
    · rw [hwait] at hy
      exact absurd hy (by simp)
  rw [hostCmd_opened hopen hup, if_neg (by simp [hwait]), if_neg (not_not.mpr hseq), if_neg (mt mustWait_iff.mp hb)]

theorem beginCmd_acts (hr : s.recovery = false ∨ inRecovery = true) : beginCmd h bulk inRecovery act s = act s := by
  refine if_neg ?_
  rcases hr with hr | hr <;> simp [hr]

theorem beginCmd_refused (hr : s.recovery = true) : beginCmd h bulk false act s = s.replies h bulk 4 [] := by
  refine (if_pos (by simp [hr])).trans ?_
  cases bulk <;> rfl

theorem hostCmd_acts (hn : HostNext s h) (hr : s.recovery = false ∨ inRecovery = true) :
    hostCmd i h bulk inRecovery act s = .next (act (s.hears h)) := by
  rw [hostCmd_next hn]
  exact congrArg _ (beginCmd_acts (s := s.hears h) hr)

theorem hostCmd_refused (hn : HostNext s h) (hr : s.recovery = true) :
    hostCmd i h bulk false act s = .next ((s.hears h).replies h bulk 4 []) := by
  rw [hostCmd_next hn]
  exact congrArg _ (beginCmd_refused (s := s.hears h) hr)

/-- The command runs as a command of the host does. -/
def IsCommand (i : Instr) (h : HostHdr) (bulk inRecovery : Bool) : Prop :=
  ∃ act : State → State, ∀ s, exec i s = hostCmd i h bulk inRecovery act s

theorem isCommand_some {n : Nat} (hi : i ∈ [Instr.status h, .sessionClose h, .setHoldLimit h n, .recarm h n, .unknownCommandType h 0x40]) :
    ∃ r, IsCommand i h false r := by
  simp only [List.mem_cons, List.not_mem_nil, or_false] at hi
  rcases hi with rfl | rfl | rfl | rfl | rfl <;> exact ⟨_, _, fun _ => rfl⟩

/-- The commands that are refused in recovery, those about memory and endings apart. -/
theorem isCommand_refused {c a n : Nat} {desc : List Word} (hi : i ∈ [Instr.ctxnew h desc, .recw h a desc, .recarm h a,
    .setHoldLimit h n, .setGaugeBudget h n, .debugAttach h c, .debugDetach h c, .reset h]) : IsCommand i h false false := by
  simp only [List.mem_cons, List.not_mem_nil, or_false] at hi
  rcases hi with rfl | rfl | rfl | rfl | rfl | rfl | rfl | rfl <;> exact ⟨_, fun _ => rfl⟩

end

/-! ## The attestation report (R429) -/

theorem length_sm3 (l : List Byte) : (sm3 l).length = 32 := by
  simp [sm3, bytesBE]

theorem length_fit (n : Nat) (l : List Byte) : (fit n l).length = n := by
  simp [fit]

theorem fit_of_length {n : Nat} {l : List Byte} (h : l.length = n) : fit n l = l := by
  rw [fit, List.take_left' h]

theorem length_measurement (s : State) (n : Nat) : (measurement s n).length = 32 := by
  unfold measurement
  split
  · exact length_sm3 _
  · split
    · simp
    · exact length_sm3 _
  · split
    · simp
    · exact length_sm3 _
  · exact length_sm3 _

section
variable {s : State} {nonce hostKey sig ownerKey eph : List Byte} {accepted : BitVec 256}

/-- The report in its pieces, each of a fixed length. -/
theorem report_pieces (hn : nonce.length = 32) : ∃ rest, rest.length = 64 ∧ report s nonce =
    nonce ++ (measurement s 0 ++ (measurement s 1 ++ (measurement s 2 ++ (measurement s 3 ++
      (bytesOf 8 (Config.slotVersion s.flash s.slot).toNat ++ (bytesOf 8 Config.minimumVersion.toNat ++
        (bytesOf 8 (s.pkgId + s.incarnation * 2 ^ 16) ++ (bytesOf 8 s.boots ++ rest)))))))) := by
  refine ⟨fit 64 (Config.sm2Sign (Config.identityKey Config.fusedSecret (sm3 (measurement s 0))) (reportBody s nonce)), length_fit 64 _, ?_⟩
  rw [report, reportBody, fit_of_length hn]
  simp [List.range_succ, List.append_assoc]

theorem length_report (hn : nonce.length = 32) : (report s nonce).length = 256 := by
  obtain ⟨rest, hrest, h⟩ := report_pieces (s := s) hn
  rw [h]
  simp [hn, hrest, length_measurement, length_bytesOf]

theorem drop_pieces {a b : List Byte} {n m : Nat} (ha : a.length = n) : (a ++ b).drop (n + m) = b.drop m := by
  rw [← ha, List.drop_append, List.drop_of_length_le (Nat.le_add_right _ _), Nat.add_sub_cancel_left, List.nil_append]

theorem take_piece {a b : List Byte} {n : Nat} (ha : a.length = n) : (a ++ b).take n = a := List.take_left' ha

theorem report_measures (hn : nonce.length = 32) : (report s nonce).take 32 = nonce ∧
    ((report s nonce).drop 64).take 32 = measurement s 1 ∧ ((report s nonce).drop 64).take 64 = measurement s 1 ++ measurement s 2 ∧
    ((report s nonce).drop 160).take 8 = bytesOf 8 (Config.slotVersion s.flash s.slot).toNat ∧
    ((report s nonce).drop 184).take 8 = bytesOf 8 s.boots := by
  obtain ⟨rest, hrest, h⟩ := report_pieces (s := s) hn
  have h0 := length_measurement s 0
  have h1 := length_measurement s 1
  have h2 := length_measurement s 2
  have h3 := length_measurement s 3
  have h8 : ∀ n, (bytesOf 8 n).length = 8 := fun n => length_bytesOf 8 n
  have h64 : (report s nonce).drop 64 = measurement s 1 ++ (measurement s 2 ++ (measurement s 3 ++
      (bytesOf 8 (Config.slotVersion s.flash s.slot).toNat ++ (bytesOf 8 Config.minimumVersion.toNat ++
        (bytesOf 8 (s.pkgId + s.incarnation * 2 ^ 16) ++ (bytesOf 8 s.boots ++ rest)))))) := by
    rw [h, drop_pieces (m := 32) hn, drop_pieces (m := 0) h0, List.drop_zero]
  have h160 : (report s nonce).drop 160 = bytesOf 8 (Config.slotVersion s.flash s.slot).toNat ++ (bytesOf 8 Config.minimumVersion.toNat ++
        (bytesOf 8 (s.pkgId + s.incarnation * 2 ^ 16) ++ (bytesOf 8 s.boots ++ rest))) := by
    rw [h, drop_pieces (m := 128) hn, drop_pieces (m := 96) h0, drop_pieces (m := 64) h1, drop_pieces (m := 32) h2,
      drop_pieces (m := 0) h3, List.drop_zero]
  refine ⟨by rw [h, take_piece hn], by rw [h64, take_piece h1], ?_, by rw [h160, take_piece (h8 _)], ?_⟩
  · rw [h64, ← List.append_assoc]
    exact take_piece (by rw [List.length_append, h1, h2])
  · have h184 : (report s nonce).drop 184 = bytesOf 8 s.boots ++ rest := by
      rw [show (184 : Nat) = 160 + 24 from rfl, ← List.drop_drop, h160, drop_pieces (m := 16) (h8 _), drop_pieces (m := 8) (h8 _),
        drop_pieces (m := 0) (h8 _), List.drop_zero]
    rw [h184, take_piece (h8 _)]

/-! ## Opening a session (R428, R435) -/

theorem openRequest_offers (hp : s.session.phase ≠ .opened) (hn : nonce.length = 32) (ho : sm3 ownerKey = Config.ownerHash)
    (hv : Config.sm2Verify ownerKey (nonce ++ hostKey) sig = true) : exec (.sessionOpenRequest nonce hostKey sig ownerKey) s = .next (
      ({ s with session := { Session.reset with
        phase := .offered, hostKey := hostKey, ephemeral := Config.deviceEphemeral s.steps,
        transcript := nonce ++ hostKey ++ sig ++ report s nonce ++ Config.deviceEphemeral s.steps ++ bytesOf 32 offered.toNat } }
        : State).openWith (.attest (report s nonce) (Config.deviceEphemeral s.steps) offered)) := by
  change execSessionOpenRequest nonce hostKey sig ownerKey s = _
  rw [execSessionOpenRequest, if_neg hp, if_neg]
  simp [hn, ho, hv]

theorem postAll_eq : ∀ (l : List HostMsg) (s : State), ∃ T, postAll l s = { s with
    session := { s.session with seqOut := s.session.seqOut + l.length }, toHost := T } ∧
    T.map HostOut.msg = s.toHost.map HostOut.msg ++ l
  | [], s => ⟨s.toHost, rfl, (List.append_nil _).symm⟩
  | m :: l, s => by
    obtain ⟨T, hT, hmap⟩ := postAll_eq l (s.post (s.session.ports.headD 0) false m)
    refine ⟨T, ?_, ?_⟩
    · rw [postAll, hT]
      simp only [State.post, List.length_cons, Nat.add_assoc, Nat.add_comm 1]
    · rw [hmap]
      simp [State.post]

theorem mayAccept_iff : mayAccept s accepted = true ↔ accepted &&& 0x7FF = accepted ∧
    (accepted = s.accepted ∨ ∀ p ∈ s.ctxs, p.2.live = false) := by
  simp only [mayAccept, offered, Bool.and_eq_true, beq_iff_eq, Bool.or_eq_true, Bool.not_eq_true', List.any_eq_false, Bool.not_eq_true]
  rw [or_comm]

/-- A live context is in the table of contexts. -/
theorem mem_ctxs_of_live {c : Nat} (h : (s.ctx c).live = true) : ∃ p ∈ s.ctxs, p.2.live = true := by
  rw [State.ctx, tget] at h
  cases hf : tfind s.ctxs c with
  | none =>
    rw [hf] at h
    exact Bool.noConfusion h
  | some x =>
    rw [hf] at h
    exact ⟨(c, x), tfind_mem hf, h⟩

theorem accept_refused (hp : s.session.phase = .offered)
    (hr : Config.sm2Verify s.session.hostKey (s.session.transcript ++ eph ++ bytesOf 32 accepted.toNat) sig = false ∨
      mayAccept s accepted = false) :
    exec (.sessionFeatureAccept eph accepted sig) s = .next ((endSession s).openWith (.opened 1)) := by
  change execSessionFeatureAccept eph accepted sig s = _
  rw [execSessionFeatureAccept]
  dsimp only
  rw [if_neg (not_not.mpr hp), if_pos]
  rw [Bool.or_eq_true, Bool.not_eq_true', Bool.not_eq_true']
  exact hr

theorem accept_opens (hp : s.session.phase = .offered)
    (hv : Config.sm2Verify s.session.hostKey (s.session.transcript ++ eph ++ bytesOf 32 accepted.toNat) sig = true)
    (hm : mayAccept s accepted = true) : exec (.sessionFeatureAccept eph accepted sig) s = .next (postAll s.ring
      (({ s with
        session := { s.session with phase := .opened, macKey := fit 32 (Config.sm2Exchange s.session.ephemeral eph), last := s.clock },
        accepted := accepted, ring := [] } : State).openWith (.opened 0))) := by
  change execSessionFeatureAccept eph accepted sig s = _
  rw [execSessionFeatureAccept]
  dsimp only
  rw [if_neg (not_not.mpr hp), if_neg]
  rw [hv, hm]
  exact Bool.false_ne_true

end

end Sys2Proof.Machine
end

section
/-! SUPPORT. The obligation about the session of the host (R427 to R430, R434, R435, R438). -/

namespace Sys2Proof.Machine

section
variable {s : State} {h : HostHdr} {n : Nat}

theorem openRequest_opened (nonce hostKey sig ownerKey : List Byte) (hp : s.session.phase = .opened) :
    exec (.sessionOpenRequest nonce hostKey sig ownerKey) s = .next (s.openWith (.opened 5)) := congrArg _ (if_pos hp)

theorem openRequest_refused {nonce hostKey sig ownerKey : List Byte} (hp : s.session.phase ≠ .opened)
    (hr : sm3 ownerKey ≠ Config.ownerHash ∨ Config.sm2Verify ownerKey (nonce ++ hostKey) sig = false) :
    exec (.sessionOpenRequest nonce hostKey sig ownerKey) s = .next s := by
  change execSessionOpenRequest nonce hostKey sig ownerKey s = _
  rw [execSessionOpenRequest, if_neg hp, if_pos]
  rcases hr with h | h <;> simp [h]

theorem idleTimeout_eq : exec .sessionIdleTimeout s = .next (
    if s.session.phase = .opened ∧ s.session.last + 30 * secondCycles ≤ s.clock then endSession s else s) := by
  change execSessionIdleTimeout s = _
  simp only [execSessionIdleTimeout, Bool.and_eq_true, decide_eq_true_eq]

/-- What follows a message that is dropped: the third in a row ends the session. -/
theorem dropMessage_eq (s : State) : dropMessage s = if s.session.failed + 1 < 3
    then { s with drops := s.drops + 1, session := { s.session with failed := s.session.failed + 1, last := s.clock } }
    else endSession { s with drops := s.drops + 1 } := by
  rw [dropMessage]

/-! ## The commands that the statement names -/

theorem sessionClose_cmd : exec (.sessionClose h) s =
    hostCmd (.sessionClose h) h false true (fun s1 => endSession (respond s1 h 0 [])) s := rfl

theorem setHoldLimit_cmd : exec (.setHoldLimit h n) s = hostCmd (.setHoldLimit h n) h false false (fun s1 =>
    if 1 ≤ n && n ≤ 3600 then respond { s1 with holdLimit := n } h 0 [] else respond s1 h 1 []) s := rfl

theorem setGaugeBudget_cmd : exec (.setGaugeBudget h n) s = hostCmd (.setGaugeBudget h n) h false false (fun s1 =>
    if n ≤ 224 && n % 7 = 0 then respond { s1 with gaugeBudget := n } h 0 [] else respond s1 h 1 []) s := rfl

theorem status_cmd : exec (.status h) s = hostCmd (.status h) h false true (fun s1 =>
    respond s1 h 0 ((Config.statusBytes (statusItems s1)).take 65528)) s := rfl

theorem unknownType_cmd {ty : Nat} (hty : ty ∉ [0x01, 0x02, 0x10, 0x11, 0x20, 0x21, 0x30, 0x38, 0x3F]) :
    exec (.unknownCommandType h ty) s = hostCmd (.unknownCommandType h ty) h false false (fun s1 => respond s1 h 1 []) s :=
  if_neg (mt List.contains_iff_mem.mp hty)

theorem ctxend_cmd {c : Nat} (hnone : ∀ e ∈ s.endings, e.ctx ≠ c) : exec (.ctxend h c) s =
    hostCmd (.ctxend h c) h false false (fun s1 => if !(s1.ctx c).live then respond s1 h 1 [] else endBy s1 h c) s := by
  change execCtxend h c s = _
  have hfind : s.endings.find? (fun e => e.ctx == c && goesOn s h e) = none := by
    rw [List.find?_eq_none]
    intro e he
    simp [hnone e he]
  rw [execCtxend, hfind]

theorem memr_cmd {addr : HostAddr} (hnone : waitingOp s h false = none) : exec (.memr h addr n) s =
    hostCmd (.memr h addr n) h true false (fun s1 =>
      if 65528 < n then respondBulk s1 h 1 []
      else match hostSegs s1 .read n addr with
        | .error (st, l) => respondBulk (walkedHost s1 .read n addr) h st l
        | .ok segs => startOp h false segs [] (walkedHost s1 .read n addr)) s := by
  change execMemr h addr n s = _
  rw [execMemr, hnone] <;> rfl

theorem memw_cmd {addr : HostAddr} {data : List Byte} (hnone : waitingOp s h true = none) : exec (.memw h addr data) s =
    hostCmd (.memw h addr data) h true true (fun s1 =>
      if s1.recovery then
        match addr with
        | .phys pa =>
          if Config.bootFlash pa data.length then respondBulk { s1 with flash := writeBytes s1.flash pa data } h 0 []
          else respondBulk s1 h 4 []
        | .virt _ _ => respondBulk s1 h 4 []
      else if 65526 < data.length then respondBulk s1 h 1 []
      else match hostSegs s1 .write data.length addr with
        | .error (st, l) => respondBulk (walkedHost s1 .write data.length addr) h st l
        | .ok segs => startOp h true segs data (walkedHost s1 .write data.length addr)) s := by
  change execMemw h addr data s = _
  rw [execMemw, hnone] <;> rfl

end

/-- Settles O53, by the message of the host. -/
theorem hostSession : Obligations.HostSession := by
  unfold Obligations.HostSession
  intro s nonce hostKey sig ownerKey eph accepted h ty n
  refine ⟨openRequest_opened _ _ _ _, openRequest_refused, fun hp hn ho hv => ?_, fun hp => congrArg _ (if_pos hp), fun hp hr => ?_,
    fun hp hv ha hlive => ?_, fun hn => ?_, fun hp hlast => ?_, fun hr => ?_, fun hp => congrArg _ ((if_pos hp).trans (dropMessage_eq s)),
    fun hp => congrArg _ (if_neg hp), fun hr i hi => ?_, fun hp hup => ⟨fun hseq hnew i hi => ?_, fun hseq hnew hb i hi => ?_,
      fun i hi hin hb => ?_, fun hin hb hrec hlo hhi => ?_⟩, fun hn => ⟨(Config.statusBytes (statusItems (s.hears h))).take 65528, List.length_take_le _ _, ?_⟩,
    fun hn hrec => ⟨fun hty => ?_, fun hlo hhi => ?_, fun hr => ?_, fun hlo hhi => ?_, fun hr => ?_⟩,
    fun hn hrec c a desc addr => ⟨fun i hi => ?_, fun hnone => ?_, fun hnone => ?_⟩,
    fun hn hrec hnone pa data => ⟨fun hb => ?_, fun hb => ?_⟩⟩
  · obtain ⟨hnonce, hm1, hm2, hver, hboot⟩ := report_measures (s := s) hn
    refine ⟨_, report s nonce, Config.deviceEphemeral s.steps, openRequest_offers hp hn ho hv, rfl, rfl, rfl, length_report hn, hnonce,
      fun hrec => ?_, fun hrec => ?_, hver, hboot, rfl, rfl⟩
    · rw [hm1, measurement, if_neg (by simp [hrec])]
    · rw [hm2, measurement, measurement, if_pos hrec, if_pos hrec, List.replicate_append_replicate]
  · refine accept_refused hp (hr.imp_right fun hbad => ?_)
    rw [← Bool.not_eq_true, mayAccept_iff]
    rintro ⟨hand, hor⟩
    rcases hbad with hbad | ⟨hne, c, hlive⟩
    · exact hbad hand
    · obtain ⟨p, hp, hpl⟩ := mem_ctxs_of_live hlive
      rw [hor.resolve_left hne p hp] at hpl
      exact Bool.noConfusion hpl
  · obtain ⟨T, hT, hmap⟩ := postAll_eq s.ring (({ s with
        session := { s.session with phase := .opened, macKey := fit 32 (Config.sm2Exchange s.session.ephemeral eph), last := s.clock },
        accepted := accepted, ring := [] } : State).openWith (.opened 0))
    refine ⟨_, accept_opens hp hv (mayAccept_iff.mpr ⟨ha, hlive⟩), ?_⟩
    rw [hT]
    refine ⟨rfl, rfl, rfl, ?_, rfl⟩
    rw [hmap]
    simp [State.openWith]
  · rw [sessionClose_cmd, hostCmd_acts hn (.inr rfl)]
    obtain ⟨_, _, _, hend, hops, _⟩ := hn
    have hops' : s.ops.map (fun o => { o with answers := false }) = s.ops := by
      refine (List.map_congr_left fun o ho => ?_).trans (List.map_id _)
      rw [id, ← hops o ho]
    have hend' : s.endings.map (fun e => { e with command := none }) = s.endings := by
      refine (List.map_congr_left fun e he => ?_).trans (List.map_id _)
      rw [id, ← hend e he]
    refine congrArg Host.Outcome.next ?_
    change ({ (s.hears h).replies h false 0 [] with
      session := Session.reset, ops := s.ops.map (fun o => { o with answers := false }),
      endings := s.endings.map (fun e => { e with command := none }) } : State) = _
    rw [hops', hend']
    rfl
  · rw [idleTimeout_eq, if_pos ⟨hp, hlast⟩]
    rfl
  · rw [idleTimeout_eq, if_neg]
    rintro ⟨hp, hlast⟩
    rcases hr with h | h
    · exact h hp
    · exact absurd hlast (Nat.not_le.mpr h)
  · obtain ⟨r, act, hact⟩ := isCommand_some hi
    rw [hact, hostCmd_closed]
    exact hr.imp_right Nat.not_lt.mpr
  · obtain ⟨r, act, hact⟩ := isCommand_some hi
    rw [hact, hostCmd_dropped hp hup (fun hin => hnew _ hin rfl) hseq]
    exact congrArg _ (dropMessage_eq s)
  · obtain ⟨r, act, hact⟩ := isCommand_some hi
    rw [hact, hostCmd_joins hp hup (fun hin => hnew _ hin rfl) hseq]
    rcases hb with hb | hb | ⟨y, hy, hlt⟩
    · exact .inl hb
    · exact .inr (.inl ⟨rfl, hb⟩)
    · exact .inr (.inr ⟨y, hy, hlt, by simp⟩)
  · obtain ⟨r, act, hact⟩ := isCommand_some hi
    rw [hact, hostCmd_stands hp hup hin]
    rcases hb with hb | hb | ⟨y, hy, hlt⟩
    · exact .inl hb
    · exact .inr (.inl ⟨rfl, hb⟩)
    · exact .inr (.inr ⟨y, hy, hlt, by simp⟩)
  · have hbehind : ¬ Behind s h false := by
      rintro (hx | ⟨_, hx⟩ | ⟨y, hy, hlt, _⟩)
      · exact hb (.inl hx)
      · exact hb (.inr (.inl hx))
      · exact hb (.inr (.inr ⟨y, hy, hlt⟩))
    rw [setHoldLimit_cmd, hostCmd_begins hp hup hin hbehind]
    refine congrArg _ (Eq.trans (beginCmd_acts (.inl ?_)) (if_pos ?_))
    · exact hrec
    · simp [hlo, hhi]
  · rw [status_cmd, hostCmd_acts hn (.inr rfl)]
    rfl
  · rw [unknownType_cmd hty, hostCmd_acts hn (.inl hrec)]
    rfl
  · rw [setHoldLimit_cmd, hostCmd_acts hn (.inl hrec), if_pos (by simp [hlo, hhi])]
    rfl
  · rw [setHoldLimit_cmd, hostCmd_acts hn (.inl hrec), if_neg (by simp; omega)]
    rfl
  · rw [setGaugeBudget_cmd, hostCmd_acts hn (.inl hrec), if_pos (by simp [hlo, hhi])]
    rfl
  · rw [setGaugeBudget_cmd, hostCmd_acts hn (.inl hrec), if_neg (by simp; omega)]
    rfl
  · obtain ⟨act, hact⟩ := isCommand_refused hi
    rw [hact, hostCmd_refused hn hrec]
  · rw [ctxend_cmd hnone, hostCmd_refused hn hrec]
  · rw [memr_cmd hnone, hostCmd_refused hn hrec]
  · rw [memw_cmd hnone, hostCmd_acts hn (.inr rfl)]
    exact congrArg _ ((if_pos hrec).trans (if_pos hb))
  · rw [memw_cmd hnone, hostCmd_acts hn (.inr rfl)]
    exact congrArg _ ((if_pos hrec).trans (if_neg (ne_true_of_eq_false hb)))

end Sys2Proof.Machine
end

section
/-! SUPPORT. What lands of a load (R102, R215, R241, R246, R248): to a register, a queue or the tile store. -/

namespace Sys2Proof.Machine

/-! ## The bytes that an access gets -/

section
variable {s s1 t : State} {c n id : Nat} {owner : Owner} {segs : List Seg} {l : List Byte} {op : PendOp}

theorem readSeg_frame (s : State) (c : Nat) (g : Seg) : ∃ l x, readSeg s c g = (l, { s with counters := x }) := by
  rw [readSeg]
  split
  · exact ⟨_, s.counters, rfl⟩
  · obtain ⟨x, hx⟩ := readLocal_frame s g.addr g.len
    exact ⟨_, x, by rw [hx]⟩

theorem readSegs_frame (c : Nat) (segs : List Seg) (s : State) : ∃ l x, readSegs s c segs = (l, { s with counters := x }) := by
  induction segs generalizing s with
  | nil => exact ⟨[], s.counters, rfl⟩
  | cons g rest ih =>
    obtain ⟨l, x, hx⟩ := readSeg_frame s c g
    obtain ⟨m, y, hy⟩ := ih { s with counters := x }
    exact ⟨l ++ m, y, by rw [readSegs, hx]; dsimp only; rw [hy]⟩

/-- Reading parts moves the counters of the line reads alone. -/
theorem gather_frame (h : gather c owner segs s = .ok l s1) : ∃ x, s1 = { s with counters := x } := by
  induction segs generalizing s l s1 with
  | nil =>
    obtain ⟨-, rfl⟩ := Got.ok.inj h
    exact ⟨s.counters, rfl⟩
  | cons g rest ih =>
    rw [gather] at h
    dsimp only at h
    split at h
    case h_2 hbad => exact (hbad l s1 h).elim
    case h_1 l0 s0 here =>
      have hs0 : ∃ x, s0 = { s with counters := x } := by
        split at here
        · split at here
          · cases here
          · obtain ⟨-, rfl⟩ := Got.ok.inj here
            exact ⟨s.counters, rfl⟩
          · cases here
          · cases here
        · split at here
          · cases here
          · obtain ⟨m, x, hx⟩ := readSeg_frame s c g
            rw [hx] at here
            exact ⟨x, (Got.ok.inj here).2.symm⟩
      obtain ⟨x, rfl⟩ := hs0
      split at h
      case h_2 hbad => exact (hbad l s1 h).elim
      case h_1 r s2 hr =>
        obtain ⟨y, rfl⟩ := ih (s := { s with counters := x }) hr
        obtain ⟨-, rfl⟩ := Got.ok.inj h
        exact ⟨y, rfl⟩

theorem gather_one {g : Seg} (hh : g.home = .local) (hb : buffers s c g = false) (hr : readBad s g.addr g.len = none) :
    ∃ x, gather c owner [g] s = .ok (readBytes s.mem g.addr g.len) { s with counters := x } := by
  have hbad : badAt s g.addr g.len = none := Option.map_eq_none_iff.mp hr
  obtain ⟨x, hx⟩ := readLocal_frame s g.addr g.len
  exact ⟨x, by simp [gather, Seg.isRemote, hh, badSegs, hbad, readSeg, hb, hx]⟩

/-! ## The item that leaves the pending ones -/

/-- The A stream without pending item `id`, its register full unless another pending one writes it. -/
def Stream.without (t : Stream) (id : Nat) (op : PendOp) : Stream :=
  let rest := t.pend.filter (fun p => p.id != id)
  { t with
    pend := rest,
    empty := match op.scalarDest with
      | none => t.empty
      | some d => if rest.any (fun p => p.op.scalarDest == some d) then t.empty else t.empty.filter (fun m => m != d) }

theorem dropPend_eq (k : Core) (e : Eng) (id : Nat) (op : PendOp) : dropPend k e id op = k.setStream e ((k.stream e).without id op) := by
  rw [dropPend, Stream.without]
  cases op.scalarDest with
  | none => rfl
  | some d =>
    dsimp only
    split <;> rfl

theorem landReg_a (k : Core) (d : Nat) (v : Word) : landReg k .a d v = { k with a := { k.a with
    regs := if d = 0 then k.a.regs else tset k.a.regs d v } } := by
  rw [landReg]
  by_cases hd : d = 0
  · rw [if_pos hd]
    simp only [hd, if_true]
  · rw [if_neg hd]
    simp only [hd, if_false]
    rfl

theorem reg_tset (t : Stream) (d m : Nat) (v : Word) (R : Tbl Word) (hR : R = if d = 0 then t.regs else tset t.regs d v) :
    ({ t with regs := R } : Stream).reg m = if m = d ∧ d ≠ 0 then v else t.reg m := by
  subst hR
  simp only [Stream.reg]
  by_cases hd : d = 0
  · simp [hd]
  · by_cases hm : m = d
    · subst hm
      simp [hd]
    · simp [hd, hm, tget_tset_ne _ _ _ hm]

/-- A core whose streams go on as they did does not end its job with what has landed. -/
theorem tryEndJob_landed {u : State} (ha : (s.core c).allEnded = false) (hj : (u.core c).job = (s.core c).job)
    (hr : ∀ e, ((u.core c).stream e).run = ((s.core c).stream e).run) : tryEndJob u c = u := by
  refine tryEndJob_running ?_
  rw [← ha]
  simp only [Core.allEnded, hj, hr]

theorem valueLanding_acts (hc : c < 512) (hs : s.still c = false) (e : Eng) :
    exec (.valueLanding c e n) s = .next (landAt s ⟨c, e⟩ n) := by
  change execValueLanding c e n s = _
  simp [execValueLanding, coreEvent, coreExists, hc, hs]

theorem queueEntryLanding_acts (hc : c < 512) (hs : s.still c = false) :
    exec (.queueEntryLanding c n) s = .next (landEntry s c n) := by
  change execQueueEntryLanding c n s = _
  simp [execQueueEntryLanding, coreEvent, coreExists, hc, hs]

/-- An access of the A stream that nothing holds back lands from memory. -/
theorem landAt_access (hp : (s.core c).a.pend[n]? = some ⟨id, op⟩) (hb : heldBack ((s.core c).a.pend.take n) op = false)
    (hv : landValue s ⟨c, .a⟩ ⟨id, op⟩ = none) (ht : landAccess s c ⟨id, op⟩ = some t) :
    landAt s ⟨c, .a⟩ n = tryEndJob t c := by
  have hp' : (s.stream ⟨c, .a⟩).pend[n]? = some ⟨id, op⟩ := hp
  have hb' : heldBack ((s.stream ⟨c, .a⟩).pend.take n) op = false := hb
  simp only [landAt, hp', hb', Bool.false_or, reduceCtorEq, beq_iff_eq, Bool.false_and, Bool.and_eq_true, false_and, if_false, hv, ht]

theorem countWaits_core (s : State) (c : Nat) (r : Asker) (a n : Nat) : ∃ C, (countWaits s c r a n).mem = s.mem ∧
    (countWaits s c r a n).core c = { s.core c with conflicts := C } := by
  rw [countWaits]
  split
  · exact ⟨_, rfl, State.core_setCore_self _ _ _⟩
  · exact ⟨(s.core c).conflicts, rfl, rfl⟩

/-! ## A queue entry that lands -/

/-- The core once an entry has its data. -/
theorem giveGroup_eq (k : Core) (group give : Nat) : ∃ R T, giveGroup k group give = { k with reserved := R, tokens := T } := by
  rw [giveGroup]
  split
  · exact ⟨k.reserved, k.tokens, rfl⟩
  · obtain ⟨R, T, h, -⟩ := giveReserved_eq (giveFifos .a give) k
    exact ⟨R, T, h⟩

/-- The core and the state once an entry has its data. -/
def entryFilled (s : State) (c id q e group give : Nat) (op : PendOp) (data : QData) : State :=
  tryEndJob (dropReqs (s.setCore c (giveGroup ((dropPend (s.core c) .a id op).setQ q
    (fillQ e data ((dropPend (s.core c) .a id op).qOf q))) group give)) (.pend c id)) c

/-- What a pending entry without data becomes by what its reads answer. -/
def entryLands (s : State) (c id q e group give : Nat) (op : PendOp) : Got → State
  | .wait => s
  | .bad cause tv => entryFilled s c id q e group give op (.error cause (accTval true tv))
  | .ok l s1 => entryFilled s1 c id q e group give op (.bytes (vecOfBytes l))

theorem landEntry_gets {q e group give : Nat} (hp : (s.core c).a.pend[n]? = some ⟨id, .entry q e segs none group give⟩)
    (hb : heldBack ((s.core c).a.pend.take n) (.entry q e segs none group give) = false) : landEntry s c n =
      entryLands s c id q e group give (.entry q e segs none group give) (gather c (.pend c id) segs s) := by
  rw [landEntry, hp]
  dsimp only
  rw [hb, if_neg Bool.false_ne_true]
  cases gather c (.pend c id) segs s <;> rfl

/-- What a landed queue entry leaves, in a state `s1` after its reads were counted. -/
theorem filled_seen {q e group give : Nat} {data : QData} (ha : (s.core c).allEnded = false) (hc : s1.cores = s.cores)
    (hm : s1.mem = s.mem) (ht : t = entryFilled s1 c id q e group give op data) :
    (t.core c).qOf q = fillQ e data ((s.core c).qOf q) ∧ (∀ m, m ≠ q → (t.core c).qOf m = (s.core c).qOf m) ∧
    (t.core c).a.pend = (s.core c).a.pend.filter (fun p => p.id != id) ∧ t.mem = s.mem ∧ (t.core c).tile = (s.core c).tile ∧
    (t.core c).a.regs = (s.core c).a.regs ∧ (t.core c).a.pc = (s.core c).a.pc := by
  have hk : s1.core c = s.core c := by rw [State.core, hc, State.core]
  obtain ⟨k, hkeq⟩ : ∃ k, s.core c = k := ⟨_, rfl⟩
  rw [entryFilled, hk, dropPend_eq, hkeq] at ht
  rw [hkeq] at ha ⊢
  obtain ⟨R, T, hg⟩ := giveGroup_eq ((k.setStream .a ((k.stream .a).without id op)).setQ q
    (fillQ e data ((k.setStream .a ((k.stream .a).without id op)).qOf q))) group give
  rw [hg] at ht
  have hstay := tryEndJob_landed (s := s) (c := c) (u := dropReqs (s1.setCore c { (k.setStream .a ((k.stream .a).without id op)).setQ q
    (fillQ e data ((k.setStream .a ((k.stream .a).without id op)).qOf q)) with reserved := R, tokens := T }) (.pend c id)) (hkeq ▸ ha)
  have hcore : (dropReqs (s1.setCore c { (k.setStream .a ((k.stream .a).without id op)).setQ q
    (fillQ e data ((k.setStream .a ((k.stream .a).without id op)).qOf q)) with reserved := R, tokens := T }) (.pend c id)).core c =
      { (k.setStream .a ((k.stream .a).without id op)).setQ q
    (fillQ e data ((k.setStream .a ((k.stream .a).without id op)).qOf q)) with reserved := R, tokens := T } := State.core_setCore_self s1 c _
  rw [hcore, hkeq] at hstay
  rw [hstay rfl (fun e => by cases e <;> rfl)] at ht
  subst ht
  rw [hcore]
  exact ⟨tget_tset_self k.q q _ [], fun m hm => tget_tset_ne k.q _ _ hm, rfl, hm, rfl, rfl, rfl⟩

end

/-- Settles O34: a register, a queue entry or the tile store gets the bytes, and the access leaves the pending ones. -/
theorem loadsLand : Obligations.LoadsLand := by
  intro s c n id segs hc hs ha hcan
  have reads : ∀ {owner l s1}, gather c owner segs s = .ok l s1 → s1.cores = s.cores ∧ s1.mem = s.mem ∧ s1.core c = s.core c := by
    intro owner l s1 h
    obtain ⟨x, rfl⟩ := gather_frame h
    exact ⟨rfl, rfl, rfl⟩
  refine ⟨fun d size z l s1 hp hb hg => ?_, fun g hseg hh hbuf hr => ?_, fun q e group give l s1 hp hb hg => ?_,
    fun q e group give l hp => ?_, fun q e group give cause tv hp hb hg => ?_, fun dst l s1 hp hb hg hl => ?_⟩
  · obtain ⟨hcores, hmem, hk⟩ := reads hg
    have hland := landAt_access hp hb rfl (by rw [landAccess]; dsimp only; rw [hg])
    rw [hk, dropPend_eq, landReg_a] at hland
    obtain ⟨K, hK⟩ : ∃ K : Core, K = { (s.core c).setStream .a ((s.core c).a.without id (.load d size z segs none)) with
      a := { (s.core c).a.without id (.load d size z segs none) with
        regs := if d = 0 then (s.core c).a.regs else tset (s.core c).a.regs d (loadValue z size l) } } := ⟨_, rfl⟩
    have hland' : landAt s ⟨c, .a⟩ n = tryEndJob (dropReqs (s1.setCore c K) (.pend c id)) c := by
      rw [hland, hK]
      rfl
    have hcore : (dropReqs (s1.setCore c K) (.pend c id)).core c = K := State.core_setCore_self s1 c K
    rw [tryEndJob_landed ha (by rw [hcore, hK]; rfl) (fun e => by rw [hcore, hK]; cases e <;> rfl)] at hland'
    refine ⟨_, (valueLanding_acts hc hs .a).trans (congrArg _ hland'), ?_⟩
    rw [hcore]
    refine ⟨fun m => ?_, by rw [hK]; rfl, hmem, by rw [hK]; rfl, by rw [hK]; rfl, by rw [hK]; rfl, fun e he => ?_⟩
    · rw [hK]
      exact reg_tset ((s.core c).a.without id (.load d size z segs none)) d m (loadValue z size l) _ rfl
    · exact (State.core_setCore_ne s1 K he).trans (congrArg (fun x => tget x e Core.reset) hcores)
  · subst hseg
    obtain ⟨x, hx⟩ := gather_one (owner := .pend c id) hh hbuf hr
    exact ⟨_, hx, rfl, rfl⟩
  · obtain ⟨hcores, hmem, -⟩ := reads hg
    have hland := landEntry_gets hp hb
    rw [hg] at hland
    exact ⟨_, (queueEntryLanding_acts hc hs).trans (congrArg _ hland), filled_seen ha hcores hmem rfl⟩
  · have hland : landEntry s c n = entryFilled s c id q e group give (.entry q e segs (some l) group give) l := by
      rw [landEntry, hp]
      rfl
    obtain ⟨hq, -, hpend, hmem, htile, -⟩ := filled_seen (s := s) (c := c) (s1 := s) (id := id) (q := q) (e := e) (group := group)
      (give := give) (data := l) (op := .entry q e segs (some l) group give) ha rfl rfl rfl
    exact ⟨_, (queueEntryLanding_acts hc hs).trans (congrArg _ hland), hq, hpend, hmem, htile⟩
  · have hland := landEntry_gets hp hb
    rw [hg] at hland
    obtain ⟨hq, -, hpend, hmem, -⟩ := filled_seen (s := s) (c := c) (s1 := s) (id := id) (q := q) (e := e) (group := group)
      (give := give) (data := .error cause (accTval true tv)) (op := .entry q e segs none group give) ha rfl rfl rfl
    exact ⟨_, (queueEntryLanding_acts hc hs).trans (congrArg _ hland), hmem, hq⟩
  · obtain ⟨hcores, hmem, hk⟩ := reads hg
    have hland := landAt_access hp hb rfl (by rw [landAccess]; dsimp only; rw [hg])
    obtain ⟨K, hK⟩ : ∃ K : Core, K = (dropPend ((countWaits s1 c .store dst 512).core c) .a id (.toTile dst segs)).tileWrite dst l
      (List.replicate 512 true) := ⟨_, rfl⟩
    have hland' : landAt s ⟨c, .a⟩ n = tryEndJob (dropReqs ((countWaits s1 c .store dst 512).setCore c K) (.pend c id)) c := by
      rw [hland, hK]
    have hcore : (dropReqs ((countWaits s1 c .store dst 512).setCore c K) (.pend c id)).core c = K := State.core_setCore_self _ c K
    obtain ⟨C, hw, hcw⟩ := countWaits_core s1 c .store dst 512
    rw [dropPend_eq, hcw, hk] at hK
    rw [tryEndJob_landed ha (by rw [hcore, hK]; rfl) (fun e => by rw [hcore, hK]; cases e <;> rfl)] at hland'
    refine ⟨_, (valueLanding_acts hc hs .a).trans (congrArg _ hland'), ?_⟩
    rw [hcore, hK]
    exact ⟨fun a => readB_writeMasked_all (hcan.tiles c) hl, rfl, hw.trans hmem, rfl⟩

end Sys2Proof.Machine
end

section
/-! SUPPORT. Atomics (R252 to R254): the landing of one that its quantum's commit is to perform. -/

namespace Sys2Proof.Machine

/-- Four bytes of local memory. -/
def word0 : Seg := ⟨.local, 0, 4, plainAttr, 0, none⟩

/-- A pending exchange of core 0's A stream, which its deterministic buffer keeps for the commit. -/
def keptAtomic : State :=
  State.reset.setCore 0 { Core.reset with
    a := { Core.reset.a with pend := [⟨1, .amo 1 (.rmw 0 0) false false false [word0] 0⟩] },
    det := { DetBuf.reset with atomic := some 1 } }

theorem keptAtomic_canonical : Canonical keptAtomic :=
  ⟨rfl, rfl, fun c => by
    by_cases h : c = 0
    · subst h
      rfl
    · rw [keptAtomic, State.core_setCore_ne _ _ h]
      rfl, by simp [keptAtomic, State.setCore, State.reset]⟩

theorem keptAtomic_stays : exec (.valueLanding 0 .a 0) keptAtomic = .next keptAtomic := rfl

/-- Refutes O36: the landing of an atomic has no premise that the deterministic buffer does not keep it for the commit (R370). The
buffer of `keptAtomic` keeps the pending exchange, so that VALUE_LANDING leaves it pending. -/
theorem not_atomicsPerform : ¬ Obligations.AtomicsPerform := by
  unfold Obligations.AtomicsPerform
  intro h
  obtain ⟨t, ht, -, -, -, hpend, -⟩ := (h keptAtomic ⟨0, .a⟩ 1 0 0 0 0 false rfl keptAtomic_canonical).2 0 1 (.rmw 0 0) word0 (by decide)
    rfl rfl rfl rfl rfl rfl rfl rfl rfl
  obtain rfl : keptAtomic = t := Host.Outcome.next.inj (keptAtomic_stays.symm.trans ht)
  exact absurd hpend (by decide)

end Sys2Proof.Machine
end

section
/-! SUPPORT. What the checks of an access leave alone (R234 to R240, R334, R344, R366): translations, waits for banks, the race
detector. -/

namespace Sys2Proof.Machine

/-! ## The frame of an access -/

/-- A core whose counters of waits and caches of translations another has. -/
def Core.openOf (k k0 : Core) : Core :=
  { k with
    conflicts := k0.conflicts, gtlb := k0.gtlb,
    as := { k.as with curPage := k0.as.curPage, nextPage := k0.as.nextPage, qva := k0.as.qva } }

/-- A cluster whose cache of translations another has. -/
def Cluster.openOf (k k0 : Cluster) : Cluster := { k with tlb := k0.tlb }

/-- The second state differs from the first only in what the checks of an access of core `c` touch: counters of waits, caches of
translations, shadows, and what the device's own writes touch. -/
structure Opens (c : Nat) (s t : State) : Prop where
  core : (t.core c).openOf (s.core c) = s.core c
  others : ∀ e, e ≠ c → t.core e = s.core e
  clusters : ∀ g, (t.cluster g).openOf (s.cluster g) = s.cluster g
  rest : { t.deviceOf s with cores := s.cores, clusters := s.clusters, shadow := s.shadow } = s
  wf : s.mem.wf = true → t.mem.wf = true

section
variable {c : Nat} {s t u : State}

theorem Core.openOf_trans {k0 k1 k2 : Core} (h1 : k1.openOf k0 = k0) (h2 : k2.openOf k1 = k1) : k2.openOf k0 = k0 := by
  have h : k2.openOf k0 = (k2.openOf k1).openOf k0 := rfl
  rw [h, h2, h1]

theorem Opens.refl (c : Nat) (s : State) : Opens c s s := ⟨rfl, fun _ _ => rfl, fun _ => rfl, rfl, id⟩

theorem Opens.trans (h1 : Opens c s t) (h2 : Opens c t u) : Opens c s u where
  core := Core.openOf_trans h1.core h2.core
  others e he := (h2.others e he).trans (h1.others e he)
  clusters g := by
    have h : (u.cluster g).openOf (s.cluster g) = ((u.cluster g).openOf (t.cluster g)).openOf (s.cluster g) := rfl
    rw [h, h2.clusters, h1.clusters]
  rest := (congrArg (fun x : State => { x.deviceOf s with cores := s.cores, clusters := s.clusters, shadow := s.shadow }) h2.rest).trans h1.rest
  wf h := h2.wf (h1.wf h)

theorem Opens.of_device (h : DeviceOnly s t) : Opens c s t where
  core := by rw [h.core]; rfl
  others e _ := h.core e
  clusters g := by
    have hc : t.clusters = s.clusters := congrArg (a₁ := t.deviceOf s) State.clusters h.frame
    rw [State.cluster, hc]
    rfl
  rest := congrArg (fun x : State => { x with cores := s.cores, clusters := s.clusters, shadow := s.shadow }) h.frame
  wf := h.wf

theorem Opens.of_setCore {k : Core} (h : k.openOf (s.core c) = s.core c) : Opens c s (s.setCore c k) where
  core := by rw [State.core_setCore_self, h]
  others _ he := State.core_setCore_ne _ _ he
  clusters _ := rfl
  rest := rfl
  wf := id

theorem Opens.of_setCluster {g : Nat} {T : List Trans} : Opens c s (s.setCluster g { s.cluster g with tlb := T }) where
  core := rfl
  others _ _ := rfl
  clusters h := by
    by_cases hg : h = g
    · subst hg
      rw [State.cluster_setCluster_self]
      rfl
    · rw [show (s.setCluster g { s.cluster g with tlb := T }).cluster h = s.cluster h from tget_tset_ne _ _ _ hg]
      rfl
  rest := rfl
  wf := id

section
variable (h : Opens c s t)
include h

/-- The core after the checks of an access. -/
theorem Opens.core_eq : ∃ C G A, t.core c = { s.core c with conflicts := C, gtlb := G, as := A } := by
  refine ⟨(t.core c).conflicts, (t.core c).gtlb, (t.core c).as, ?_⟩
  have hk : t.core c = { (t.core c).openOf (s.core c) with
    conflicts := (t.core c).conflicts, gtlb := (t.core c).gtlb, as := (t.core c).as } := rfl
  exact hk.trans (congrArg (fun k : Core => { k with
    conflicts := (t.core c).conflicts, gtlb := (t.core c).gtlb, as := (t.core c).as }) h.core)

theorem Opens.ctxs : t.ctxs = s.ctxs :=
  congrArg (a₁ := { t.deviceOf s with cores := s.cores, clusters := s.clusters, shadow := s.shadow }) State.ctxs h.rest
theorem Opens.relActs : t.relActs = s.relActs :=
  congrArg (a₁ := { t.deviceOf s with cores := s.cores, clusters := s.clusters, shadow := s.shadow }) State.relActs h.rest
theorem Opens.ctx (n : Nat) : t.ctx n = s.ctx n := by rw [State.ctx, h.ctxs, State.ctx]
theorem Opens.a : (t.core c).a = (s.core c).a := congrArg (a₁ := (t.core c).openOf (s.core c)) Core.a h.core
theorem Opens.stream (e : Eng) : (t.core c).stream e = (s.core c).stream e :=
  congrArg (a₁ := (t.core c).openOf (s.core c)) (fun k => k.stream e) h.core
theorem Opens.job : (t.core c).job = (s.core c).job := congrArg (a₁ := (t.core c).openOf (s.core c)) Core.job h.core
theorem Opens.coreCtx : (t.core c).ctx = (s.core c).ctx := congrArg (a₁ := (t.core c).openOf (s.core c)) Core.ctx h.core
theorem Opens.tile : (t.core c).tile = (s.core c).tile := congrArg (a₁ := (t.core c).openOf (s.core c)) Core.tile h.core
theorem Opens.q : (t.core c).q = (s.core c).q := congrArg (a₁ := (t.core c).openOf (s.core c)) Core.q h.core
theorem Opens.w : (t.core c).w = (s.core c).w := congrArg (a₁ := (t.core c).openOf (s.core c)) Core.w h.core
theorem Opens.nextId : (t.core c).nextId = (s.core c).nextId := congrArg (a₁ := (t.core c).openOf (s.core c)) Core.nextId h.core
theorem Opens.ownM : (t.core c).ownM = (s.core c).ownM := congrArg (a₁ := (t.core c).openOf (s.core c)) Core.ownM h.core
theorem Opens.frozen (g : Nat) : (t.cluster g).frozen = (s.cluster g).frozen :=
  congrArg (a₁ := (t.cluster g).openOf (s.cluster g)) Cluster.frozen (h.clusters g)

theorem Opens.detects (g : Seg) : Machine.detects t c g = Machine.detects s c g := by
  rw [Machine.detects, h.coreCtx, h.ctx, Machine.detects]

theorem Opens.buffers (g : Seg) : Machine.buffers t c g = Machine.buffers s c g := by
  rw [Machine.buffers, h.coreCtx, h.ctx, Machine.buffers]

theorem Opens.leavesLate (op : PendOp) : Machine.leavesLate t c op = Machine.leavesLate s c op := by
  simp only [Machine.leavesLate, h.detects, h.a]

theorem Opens.shadow {e : Eng} : Machine.shadow t ⟨c, e⟩ = Machine.shadow s ⟨c, e⟩ := by
  simp only [Machine.shadow, State.stream, h.stream, h.frozen]

end

/-! ## Translations -/

theorem countReadsBy_frame (n : Nat) : ∀ (l : List Nat) (s : State), ∃ C, countReadsBy n l s = { s with counters := C }
  | [], s => ⟨s.counters, rfl⟩
  | a :: l, s => by
    obtain ⟨C, h⟩ := countReadsBy_frame n l (s.count (ctrRead (homeDie a) (tagOf s a)) n)
    exact ⟨C, h⟩

/-- What a translation touches beside counters and the cluster's cache of translations: where a stale one is dropped, the core's. -/
theorem Opens.of_translated (ctx va k : Nat) : Opens c s (translated s c ctx va k) := by
  rw [translated]
  dsimp only
  split
  · split
    · rw [dropStale]
      exact (Opens.of_setCluster (s := s)).trans (.of_setCore rfl)
    · obtain ⟨C, h⟩ := countReadsBy_frame (if servesCached s _ k = true then 0 else 1) (walkLines s ctx (va % 2 ^ 57)) s
      rw [h]
      have hcount : Opens c s { s with counters := C } := .of_device (.quiet rfl rfl)
      split
      · split
        · exact hcount
        · exact hcount.trans .of_setCluster
      · exact hcount
  · rw [walked]
    obtain ⟨C, h⟩ := countReads_frame (walkLines s ctx (va % 2 ^ 57)) s
    rw [h]
    have hcount : Opens c s { s with counters := C } := .of_device (.quiet rfl rfl)
    split
    · exact hcount.trans .of_setCluster
    · exact hcount

theorem Opens.of_translatedPages : ∀ (l : List (Nat × Nat)) (k : Nat) (t : State), Opens c t (translatedPages s c k l t)
  | [], _, t => .refl c t
  | (va, n) :: rest, k, t => by
    rw [translatedPages]
    split
    · exact Opens.of_translatedPages rest (k + 1) t
    · dsimp only
      split
      · exact .of_translated _ _ _
      · exact (Opens.of_translated _ _ _).trans (Opens.of_translatedPages rest (k + 1) _)

theorem Opens.of_translatedFor (acc : Acc) (a : Addr) (n : Nat) : Opens c s (translatedFor s c acc a n) := by
  unfold translatedFor
  split
  · exact .refl c s
  · split
    · exact .refl c s
    · exact .of_translatedPages _ _ _

/-! ## Waits and the race detector -/

theorem Opens.of_countWaits (r : Asker) (a n : Nat) : Opens c s (countWaits s c r a n) := by
  rw [countWaits]
  split
  · exact .of_setCore rfl
  · exact .refl c s

theorem Opens.of_waitParts (r : Asker) : ∀ (l : List Seg) (s : State), Opens c s (waitParts c r l s)
  | [], s => .refl c s
  | g :: l, s => by
    rw [waitParts]
    refine Opens.trans ?_ (Opens.of_waitParts r l _)
    split
    · exact .of_countWaits _ _ _
    · exact .refl c s

theorem shadowSet_frame (c : Nat) : ∀ (l : List Nat) (s : State), ∃ S, shadowSet s c l = { s with shadow := S }
  | [], s => ⟨s.shadow, rfl⟩
  | a :: l, s => by
    rw [shadowSet]
    obtain ⟨S, h⟩ := shadowSet_frame c l _
    exact ⟨S, h⟩

theorem raceWrite_frame (c : Nat) : ∀ (l : List Seg) (s : State), ∃ S, raceWrite s c l = { s with shadow := S }
  | [], s => ⟨s.shadow, rfl⟩
  | g :: l, s => by
    rw [raceWrite]
    split
    · obtain ⟨S, h⟩ := shadowSet_frame c ((sectorsIn g.addr g.len).map g.shadowKey) s
      rw [h]
      obtain ⟨S', h'⟩ := raceWrite_frame c l { s with shadow := S }
      exact ⟨S', h'⟩
    · exact raceWrite_frame c l s

theorem Opens.of_shadow {S : Tbl (BitVec 40)} : Opens c s { s with shadow := S } := ⟨rfl, fun _ _ => rfl, fun _ => rfl, rfl, id⟩

theorem Opens.of_raceWrite (l : List Seg) : Opens c s (raceWrite s c l) := by
  obtain ⟨S, h⟩ := raceWrite_frame c l s
  rw [h]
  exact .of_shadow

theorem Opens.of_raceCheck {acc : Acc} {segs : List Seg} (h : raceCheck s c acc segs = .ok t) : Opens c s t := by
  rw [raceCheck] at h
  dsimp only at h
  split at h
  · obtain rfl := Except.ok.inj h
    split
    · exact .of_raceWrite _
    · exact .refl c s
  · split at h
    · cases h
    · obtain rfl := Except.ok.inj h
      split
      · exact (Opens.of_device (.of_ringWrite _ _ _ _ _ _)).trans (.of_raceWrite _)
      · exact .of_device (.of_ringWrite _ _ _ _ _ _)

/-! ## All checks -/

theorem Opens.of_openAccess {acc : Acc} {a : Addr} {n : Nat} {segs : List Seg} (h : openAccess s c acc a n = .ok (segs, t)) :
    Opens c s t := by
  rw [openAccess] at h
  split at h
  · cases h
  · dsimp only at h
    next l hl =>
    have h0 : Opens c s (waitParts c acc.asker l (translatedFor s c acc a n)) :=
      (Opens.of_translatedFor acc a n).trans (.of_waitParts _ _ _)
    split at h
    · obtain ⟨-, rfl⟩ := Prod.mk.injEq _ _ _ _ ▸ Except.ok.inj h
      exact h0
    · split at h
      · cases h
      · next s1 hs1 =>
        obtain ⟨-, rfl⟩ := Prod.mk.injEq _ _ _ _ ▸ Except.ok.inj h
        exact h0.trans (.of_raceCheck hs1)

theorem Opens.of_noteQueue (q : Nat) (a : Addr) : Opens c s (noteQueue s c q a) := by
  unfold noteQueue
  split
  · exact .refl c s
  · split
    · exact .refl c s
    · split
      · exact .refl c s
      · exact .of_setCore rfl

theorem Opens.of_noteMem {e : Eng} (q : Nat) (base : ABase) (width : Nat) (off : MOff) :
    Opens c s (noteMem s ⟨c, e⟩ q base width off) := by
  rw [noteMem]
  split
  · exact .of_noteQueue _ _
  · exact .refl c s

theorem Opens.of_noteGathers : ∀ (l : List Addr) (s : State), Opens c s (noteGathers c l s)
  | [], s => .refl c s
  | a :: l, s => by
    rw [noteGathers]
    refine Opens.trans ?_ (Opens.of_noteGathers l _)
    unfold noteGather
    split
    · exact .refl c s
    · split
      · exact .refl c s
      · split
        · exact .refl c s
        · exact .of_setCore rfl

end

end Sys2Proof.Machine
end

section
/-! SUPPORT. LD, LDQ and LDT at issue (R246 to R248): the checks, and the access that joins the pending ones. -/

namespace Sys2Proof.Machine

/-! ## Completion -/

section
variable {s v u : State} {c : Nat} {w : Who}

/-- An instruction whose effect left the pc and the loops alone goes on at the next. -/
theorem finish_seq {n : Nat} (hst : Straight s w n) (hv : (v.stream w).loops = (s.stream w).loops) (hp : (v.stream w).pc = (s.stream w).pc) :
    finish w n s (.ok v .seq) = .next (v.goTo w (s.pcOf w + BitVec.ofNat 64 n)) := congrArg _ (retire_stays hst hv hp)

theorem core_goTo_a (v : State) (c : Nat) (next : Word) : (v.goTo ⟨c, .a⟩ next).core c = { v.core c with
    a := { (v.core c).a with pc := next, run := v.runNext ⟨c, .a⟩, at_ := .free } } := by
  rw [State.goTo, State.core_setStream_self]
  rfl

theorem core_goTo_ne {next : Word} {e : Nat} (he : e ≠ w.core) : (v.goTo w next).core e = v.core e := State.core_setCore_ne _ _ he

/-- What is seen after a form of A that has left the state `v`, whose core `c` is `k`. -/
theorem goes_a {k : Core} {n : Nat} (hst : Straight s ⟨c, .a⟩ n) (hk : v.core c = k) (hl : k.a.loops = (s.core c).a.loops)
    (hp : k.a.pc = (s.core c).a.pc) : ∃ t, finish ⟨c, .a⟩ n s (.ok v .seq) = .next t ∧ t.mem = v.mem ∧
      t.core c = { k with a := { k.a with
        pc := (s.core c).a.pc + BitVec.ofNat 64 n, run := runAfter k k.a, at_ := .free } } ∧ (∀ e, e ≠ c → t.core e = v.core e) := by
  subst hk
  refine ⟨_, finish_seq hst hl hp, rfl, core_goTo_a v c _, fun e he => core_goTo_ne he⟩

/-- The same where the form has left another core in place of its own. -/
theorem goes_of_exec {i : Instr} {k : Core} {n : Nat} (hi : exec i s = finish ⟨c, .a⟩ n s (.ok (u.setCore c k) .seq))
    (hst : Straight s ⟨c, .a⟩ n) (hl : k.a.loops = (s.core c).a.loops) (hp : k.a.pc = (s.core c).a.pc) :
    ∃ t, exec i s = .next t ∧ t.mem = u.mem ∧ t.core c = { k with a := { k.a with
        pc := (s.core c).a.pc + BitVec.ofNat 64 n, run := runAfter k k.a, at_ := .free } } ∧ (∀ e, e ≠ c → t.core e = u.core e) := by
  obtain ⟨t, ht, htm, htc, hto⟩ := goes_a hst (State.core_setCore_self u c k) hl hp
  exact ⟨t, hi.trans ht, htm, htc, fun e he => (hto e he).trans (State.core_setCore_ne _ _ he)⟩

theorem beforeAccess_outside (h : shadow s w = false) : beforeAccess s w = s := by rw [beforeAccess, if_neg (by simp [h])]

theorem withAccess_refused {acc : Acc} {base : ABase} {width : Nat} {off : MOff} {k : List Seg → State → Res} {e : Refused}
    (h : shadow s w = false) (ha : memAddr s w base width off = .error e) : withAccess s w acc base width off k = .raise e.1 e.2 := by
  rw [withAccess, beforeAccess_outside h]
  rw [ha]

theorem withAccess_fails {acc : Acc} {base : ABase} {width : Nat} {off : MOff} {k : List Seg → State → Res} {a : Addr} {e : Refused}
    (h : shadow s w = false) (ha : memAddr s w base width off = .ok a) (ho : openAccess s w.core acc a width = .error e) :
    withAccess s w acc base width off k = .raiseIn (translatedFor s w.core acc a width) e.1 e.2 := by
  rw [withAccess, beforeAccess_outside h]
  rw [ha]
  dsimp only
  rw [ho]

theorem withAccess_opens {acc : Acc} {base : ABase} {width : Nat} {off : MOff} {k : List Seg → State → Res} {a : Addr}
    {segs : List Seg} {s1 : State} (h : shadow s w = false) (ha : memAddr s w base width off = .ok a)
    (ho : openAccess s w.core acc a width = .ok (segs, s1)) : withAccess s w acc base width off k = k segs s1 := by
  rw [withAccess, beforeAccess_outside h]
  rw [ha]
  dsimp only
  rw [ho]

/-! ## Pending accesses -/

/-- Bytes that are read at issue are those of the parts. -/
theorem captured_frame (s : State) (c : Nat) (op : PendOp) : ∃ l x, captured s c op = (l, { s with counters := x }) ∧
    ∀ b, l = some b → b = (readSegs s c op.segs).1 := by
  rw [captured]
  split
  · obtain ⟨l, x, h⟩ := readSegs_frame c op.segs s
    refine ⟨some l, x, by dsimp only; rw [h], fun b hb => ?_⟩
    rw [h]
    exact (Option.some.inj hb).symm
  · exact ⟨none, s.counters, rfl, fun b hb => by cases hb⟩

/-- Requests for parts of other packages go out, or none do. -/
theorem asked_frame (b : Bool) (c : Nat) (owner : Owner) (segs : List Seg) (v : State) :
    (if b then v else requestReads c owner segs v).cores = v.cores ∧ (if b then v else requestReads c owner segs v).mem = v.mem := by
  obtain ⟨R, N, F, h⟩ := requestReads_frame c owner segs v
  cases b
  · rw [if_neg Bool.false_ne_true, h]
    exact ⟨rfl, rfl⟩
  · exact ⟨rfl, rfl⟩

theorem core_of_cores (h : v.cores = u.cores) (e : Nat) : v.core e = u.core e := by rw [State.core, h, State.core]

/-- A load outside a shadow handler joins the pending accesses, its register empty. -/
theorem startLoad_pends {d n : Nat} {z : Bool} {segs : List Seg} (hsh : shadow u ⟨c, .a⟩ = false)
    (hl : leavesLate u c (.load d n z segs none) = false) : ∃ v data, startLoad u ⟨c, .a⟩ d n z segs = .ok v .seq ∧ v.mem = u.mem ∧
      v.core c = markA d ((u.core c).addPend .a (.load d n z segs data)) ∧ (∀ e, e ≠ c → v.core e = u.core e) ∧
      ∀ l, data = some l → l = (readSegs u c segs).1 := by
  obtain ⟨data, x, hcap, hdata⟩ := captured_frame u c (.load d n z segs none)
  obtain ⟨v, hv⟩ : ∃ v, v = State.setCore { u with counters := x } c (markA d ((u.core c).addPend .a (.load d n z segs data))) := ⟨_, rfl⟩
  obtain ⟨hcores, hmem⟩ := asked_frame data.isSome c (nextOwner u c) segs v
  refine ⟨if data.isSome then v else requestReads c (nextOwner u c) segs v, data, ?_, hmem.trans (by rw [hv]; rfl), ?_, fun e he => ?_, hdata⟩
  · rw [startLoad]
    dsimp only
    rw [hsh, if_neg Bool.false_ne_true, hl, if_neg Bool.false_ne_true, hcap, hv]
    rfl
  · rw [core_of_cores hcores, hv]
    exact State.core_setCore_self _ _ _
  · rw [core_of_cores hcores, hv]
    exact State.core_setCore_ne _ _ he

theorem markA_eq (d : Nat) (k : Core) : ∃ E, markA d k = { k with a := { k.a with empty := E } } ∧
    (d ≠ 0 → ∀ t : Stream, ({ t with empty := E } : Stream).full d = false) := by
  refine ⟨(k.a.markEmpty d).empty, ?_, fun hd t => ?_⟩
  · rw [markA]
    unfold Stream.markEmpty
    split <;> rfl
  · exact full_markEmpty k.a hd

/-! ## Queue loads -/

/-- The core with an entry of queue `q` reserved. -/
def Core.reserved1 (k : Core) (q : Nat) : Core := { k.setQ q (k.qOf q ++ [⟨k.nextId, none⟩]) with nextId := k.nextId + 1 }

theorem startQueue_pends {q : Nat} {segs : List Seg} (hl : leavesLate u c (.entry q 0 segs none 0 0) = false) :
    ∃ v data, startQueue u ⟨c, .a⟩ q 0 [segs] = .ok v .seq ∧ v.mem = u.mem ∧
      v.core c = ((u.core c).reserved1 q).addPend .a (.entry q (u.core c).nextId segs data (u.core c).nextId 0) ∧
      ∀ e, e ≠ c → v.core e = u.core e := by
  obtain ⟨u1, hu1⟩ : ∃ u1, u1 = u.setCore c ((u.core c).reserved1 q) := ⟨_, rfl⟩
  have hcore : u1.core c = (u.core c).reserved1 q := by rw [hu1]; exact State.core_setCore_self _ _ _
  obtain ⟨data, x, hcap, -⟩ := captured_frame u1 c (.entry q (u.core c).nextId segs none (u.core c).nextId 0)
  obtain ⟨v, hv⟩ : ∃ v, v = State.setCore { u1 with counters := x } c
    ((u1.core c).addPend .a (.entry q (u.core c).nextId segs (data.map entryOf) (u.core c).nextId 0)) := ⟨_, rfl⟩
  obtain ⟨hcores, hmem⟩ := asked_frame data.isSome c (nextOwner u1 c) segs v
  refine ⟨if data.isSome then v else requestReads c (nextOwner u1 c) segs v, data.map entryOf, ?_, hmem.trans (by rw [hv, hu1]; rfl), ?_,
    fun e he => ?_⟩
  · rw [startQueue]
    dsimp only
    rw [List.any_cons, List.any_nil, hl, Bool.or_false, if_neg Bool.false_ne_true]
    have hone : startEntries c q 0 (u.core c).nextId [((u.core c).nextId, segs)] u1 =
        if data.isSome then v else requestReads c (nextOwner u1 c) segs v := by
      rw [startEntries, startEntries]
      rw [hcap, hv]
      rfl
    rw [← hone, hu1]
    rfl
  · rw [core_of_cores hcores, hv, ← hcore]
    exact State.core_setCore_self _ _ _
  · rw [core_of_cores hcores, hv]
    exact (State.core_setCore_ne _ _ he).trans (by rw [hu1]; exact State.core_setCore_ne _ _ he)

theorem noteMem_mem (s : State) (w : Who) (q : Nat) (base : ABase) (width : Nat) (off : MOff) :
    (noteMem s w q base width off).mem = s.mem := by
  rw [noteMem]
  split
  · unfold noteQueue
    split
    · rfl
    · split
      · rfl
      · split <;> rfl
  · rfl

theorem queueFull_room {q n : Nat} {k : Res} (h : ((s.core w.core).qOf q).length + n ≤ 8) : queueFull s w q n k = k := by
  rw [queueFull, if_neg (by omega)]

theorem queueFull_full {q n : Nat} {k : Res} (h : 8 < ((s.core w.core).qOf q).length + n) :
    queueFull s w q n k = if (s.stream w).gauge then .raise 0x05 (BitVec.ofNat 64 q) else .wait := by
  rw [queueFull, if_pos h]

/-! ## Copies into the tile store -/

theorem tileOperand_range {i : Instr} {d : Nat} {k : Nat → Res} (h : 0x7FFFF < (regOf s w d).toNat + 511) :
    tileOperand i s w d k = .raise 0x02 (opTval i false 19) := by
  rw [tileOperand, if_pos h]

theorem tileOperand_goes {i : Instr} {d : Nat} {k : Nat → Res} (hr : (regOf s w d).toNat + 511 ≤ 0x7FFFF) (h64 : (regOf s w d).toNat % 64 = 0)
    (hown : ∀ n ∈ tilesOf (regOf s w d).toNat 512, n ∉ (s.core w.core).ownM) : tileOperand i s w d k = k (regOf s w d).toNat := by
  have hseg : segOfTile (s.core w.core) false (regOf s w d).toNat 512 = .ok [⟨.tile, (regOf s w d).toNat, 512, plainAttr, (regOf s w d).toNat, none⟩] := by
    have hno : (s.core w.core).notOwned false (regOf s w d).toNat 512 = none := by
      rw [Core.notOwned, List.find?_eq_none]
      intro t ht
      simp [hown t ht]
    rw [segOfTile, if_neg (by rw [tileBytes]; omega), hno]
  rw [tileOperand, if_neg (by omega)]
  rw [if_neg (by simp [h64]), hseg]

/-- What LDT does once its access has passed the checks. -/
def copyIn (u : State) (w : Who) (t : Nat) (segs : List Seg) : Res :=
  if leavesLate u w.core (.toTile t segs) then .wait
  else if segs.any (detects u w.core) && !segs.any Seg.isRemote then
    match badSegs u w.core segs with
    | some (cause, tv) => .ok (addLate u w ⟨cause, accTval true tv, none, none⟩) .seq
    | none =>
      let r := readSegs u w.core segs
      let s2 := countWaits r.2 w.core .store t 512
      .ok (s2.setCore w.core ((s2.core w.core).tileWrite t r.1 (List.replicate 512 true))) .seq
  else .ok (requestReads w.core (nextOwner u w.core) segs (u.setCore w.core ((u.core w.core).addPend .a (.toTile t segs)))) .seq

theorem copyIn_pends {t : Nat} {segs : List Seg} (hl : leavesLate u c (.toTile t segs) = false)
    (hd : (segs.any (detects u c) && !segs.any Seg.isRemote) = false) : ∃ v, copyIn u ⟨c, .a⟩ t segs = .ok v .seq ∧ v.mem = u.mem ∧
      v.core c = (u.core c).addPend .a (.toTile t segs) ∧ ∀ e, e ≠ c → v.core e = u.core e := by
  obtain ⟨hcores, hmem⟩ := asked_frame false c (nextOwner u c) segs (u.setCore c ((u.core c).addPend .a (.toTile t segs)))
  refine ⟨requestReads c (nextOwner u c) segs (u.setCore c ((u.core c).addPend .a (.toTile t segs))), ?_, hmem, ?_, fun e he => ?_⟩
  · rw [copyIn, hl, if_neg Bool.false_ne_true, hd, if_neg Bool.false_ne_true]
  · exact (core_of_cores hcores c).trans (State.core_setCore_self _ _ _)
  · exact (core_of_cores hcores e).trans (State.core_setCore_ne _ _ he)

theorem copyIn_copies {t : Nat} {segs : List Seg} (hl : leavesLate u c (.toTile t segs) = false)
    (hd : (segs.any (detects u c) && !segs.any Seg.isRemote) = true) (hb : badSegs u c segs = none) :
    ∃ v C, copyIn u ⟨c, .a⟩ t segs = .ok v .seq ∧ v.mem = u.mem ∧
      v.core c = Core.tileWrite { u.core c with conflicts := C } t (readSegs u c segs).1 (List.replicate 512 true) ∧
      ∀ e, e ≠ c → v.core e = u.core e := by
  obtain ⟨l, x, hr⟩ := readSegs_frame c segs u
  obtain ⟨u1, hu1⟩ : ∃ u1, u1 = { u with counters := x } := ⟨_, rfl⟩
  obtain ⟨C, hmem, hcore⟩ := countWaits_core u1 c .store t 512
  have hothers := (Opens.of_countWaits (c := c) (s := u1) .store t 512).others
  refine ⟨(countWaits u1 c .store t 512).setCore c (((countWaits u1 c .store t 512).core c).tileWrite t l (List.replicate 512 true)), C, ?_,
    hmem.trans (by rw [hu1]), ?_, fun e he => ?_⟩
  · rw [copyIn, hl, if_neg Bool.false_ne_true, hd, if_pos rfl, hb, hr, hu1]
  · rw [State.core_setCore_self, hcore, hr, hu1]
    rfl
  · exact (State.core_setCore_ne _ _ he).trans ((hothers e he).trans (by rw [hu1]; rfl))

/-- A late cause of an A stream joins those before it; in gauge mode the domain freezes. -/
theorem addLate_frame (u : State) (c : Nat) (l : Late) : ∃ L C, addLate u ⟨c, .a⟩ l =
    { u.setCore c { u.core c with a := { (u.core c).a with late := L } } with clusters := C } := by
  refine ⟨(u.core c).a.late ++ [l], ?_⟩
  rw [addLate]
  dsimp only
  split
  · exact freezeAll_frame (why := .fault c .a) _ _
  · exact ⟨u.clusters, rfl⟩

theorem copyIn_late {t cause tv : Nat} {segs : List Seg} (hl : leavesLate u c (.toTile t segs) = false)
    (hd : (segs.any (detects u c) && !segs.any Seg.isRemote) = true) (hb : badSegs u c segs = some (cause, tv)) :
    ∃ v L, copyIn u ⟨c, .a⟩ t segs = .ok v .seq ∧ v.mem = u.mem ∧
      v.core c = { u.core c with a := { (u.core c).a with late := L } } ∧ ∀ e, e ≠ c → v.core e = u.core e := by
  have hcopy : copyIn u ⟨c, .a⟩ t segs = .ok (addLate u ⟨c, .a⟩ ⟨cause, accTval true tv, none, none⟩) .seq := by
    rw [copyIn, hl, if_neg Bool.false_ne_true, hd, if_pos rfl, hb]
  obtain ⟨L, C, hlate⟩ := addLate_frame u c ⟨cause, accTval true tv, none, none⟩
  obtain ⟨v, hv⟩ : ∃ v, v = addLate u ⟨c, .a⟩ ⟨cause, accTval true tv, none, none⟩ := ⟨_, rfl⟩
  refine ⟨v, L, hcopy.trans (by rw [hv]), by rw [hv, hlate]; rfl, ?_, fun e he => ?_⟩
  · rw [hv, hlate]
    exact State.core_setCore_self u _ _
  · rw [hv, hlate]
    exact State.core_setCore_ne u _ he

end

/-- Settles O33: the checks of LD, LDQ and LDT, and what they leave pending. -/
theorem loadsIssue : Obligations.LoadsIssue := by
  rintro s ⟨c, e⟩ d q size base z off hact (rfl : e = .a) hsh hfull
  have hmem : Full s ⟨c, .a⟩ (memRegs base off) := fun n hn => hfull n (List.mem_cons_of_mem d hn)
  have hld : exec (.ld d base size z off) s = finish ⟨c, .a⟩ 4 s (withAccess s ⟨c, .a⟩ (syncAcc .read (2 ^ size)) base (2 ^ size) off
      (fun segs s1 => startLoad s1 ⟨c, .a⟩ d (2 ^ size) z segs)) := by
    change execLd d base size z off s = _
    rw [execLd, whoOn_of_acts hact]
    dsimp only
    rw [needRegs_of_full _ hmem]
  have hldq : exec (.ldq q base off) s = finish ⟨c, .a⟩ 4 s (queueFull s ⟨c, .a⟩ q 1 (withAccess s ⟨c, .a⟩ (syncAcc .read 4) base 512 off
      (fun segs s1 => startQueue (noteMem s1 ⟨c, .a⟩ q base 512 off) ⟨c, .a⟩ q 0 [segs]))) := by
    change execLdq q base off s = _
    rw [execLdq, whoOn_of_acts hact]
    dsimp only
    rw [needRegs_of_full _ hmem]
  have hldt : exec (.ldt d base off) s = finish ⟨c, .a⟩ 4 s (tileOperand (.ldt d base off) s ⟨c, .a⟩ d (fun t =>
      withAccess s ⟨c, .a⟩ (syncAcc .read 64) base 512 off (fun segs s1 => copyIn s1 ⟨c, .a⟩ t segs))) := by
    change execLdt d base off s = _
    rw [execLdt, whoOn_of_acts hact]
    dsimp only
    rw [needRegs_of_full _ hfull]
    rfl
  refine ⟨fun r o width => rfl, fun e he => ?_, fun a e ha he => ?_, fun a segs s1 ha ho hst hl => ?_, fun hq => ?_,
    fun a segs s1 ha hq ho hst hl => ?_, fun hr => ?_, fun a segs s1 ha hr h64 hown ho hst hl => ?_⟩
  · rw [Traps, hld, withAccess_refused hsh he]
    rfl
  · rw [hld, withAccess_fails hsh ha he]
    rfl
  · have hopen : Opens c s s1 := .of_openAccess ho
    obtain ⟨v, data, hv, hvm, hvc, hvo, hdata⟩ := startLoad_pends (c := c) (u := s1) (hopen.shadow.trans hsh) hl
    obtain ⟨C, G, A, hk⟩ := hopen.core_eq
    obtain ⟨E, hmark, hempty⟩ := markA_eq d ((s1.core c).addPend .a (.load d (2 ^ size) z segs data))
    rw [hmark, hk] at hvc
    obtain ⟨t, ht, htm, htc, hto⟩ := goes_a hst hvc rfl rfl
    refine ⟨t, data, ?_, ?_, hdata, fun hd => ?_, ?_, ?_, htm.trans hvm, ?_, ?_, fun e he => ?_⟩
    · rw [hld, withAccess_opens hsh ha ho, hv, ht]
    · exact (congrArg (fun k => k.a.pend) htc).trans rfl
    · exact (congrArg (fun k => k.a.full d) htc).trans (hempty hd { (s.core c).a with
        pend := (s.core c).a.pend ++ [⟨(s.core c).nextId, .load d (2 ^ size) z segs data⟩],
        pc := (s.core c).a.pc + BitVec.ofNat 64 4, run := _, at_ := .free })
    · exact (congrArg (fun k => k.a.regs) htc).trans rfl
    · exact (congrArg (fun k => k.a.pc) htc).trans rfl
    · exact (congrArg Core.tile htc).trans rfl
    · exact (congrArg Core.q htc).trans rfl
    · exact (hto e he).trans ((hvo e he).trans (hopen.others e he))
  · split
    · rw [Traps, hldq, queueFull_full (show 8 < ((s.core c).qOf q).length + 1 by dsimp only at hq; omega), if_pos ‹_›]
      rfl
    · rw [hldq, queueFull_full (show 8 < ((s.core c).qOf q).length + 1 by dsimp only at hq; omega), if_neg ‹_›]
      rfl
  · have hopen1 : Opens c s s1 := .of_openAccess ho
    have hnote : Opens c s1 (noteMem s1 ⟨c, .a⟩ q base 512 off) := .of_noteMem _ _ _ _
    have hopen : Opens c s (noteMem s1 ⟨c, .a⟩ q base 512 off) := hopen1.trans hnote
    obtain ⟨v, data, hv, hvm, hvc, hvo⟩ := startQueue_pends (c := c) (u := noteMem s1 ⟨c, .a⟩ q base 512 off) (q := q)
      ((hnote.leavesLate _).trans hl)
    obtain ⟨C, G, A, hk⟩ := hopen.core_eq
    rw [hk] at hvc
    obtain ⟨t, ht, htm, htc, hto⟩ := goes_a hst hvc rfl rfl
    refine ⟨t, data, ?_, ?_, ?_, ?_, ?_, htm.trans (hvm.trans (noteMem_mem _ _ _ _ _ _)), ?_, fun n hn => ?_, fun e he => ?_⟩
    · rw [hldq, queueFull_room (show ((s.core c).qOf q).length + 1 ≤ 8 by dsimp only at hq; omega), withAccess_opens hsh ha ho, hv, ht]
    · exact (congrArg (fun k => k.qOf q) htc).trans (tget_tset_self (s.core c).q q _ [])
    · exact (congrArg (fun k => k.a.pend) htc).trans rfl
    · exact (congrArg (fun k => k.a.regs) htc).trans rfl
    · exact (congrArg (fun k => k.a.pc) htc).trans rfl
    · exact (congrArg Core.tile htc).trans rfl
    · exact (congrArg (fun k => k.qOf n) htc).trans (tget_tset_ne (s.core c).q _ _ hn)
    · exact (hto e he).trans ((hvo e he).trans (hopen.others e he))
  · rw [Traps, hldt, tileOperand_range hr]
    rfl
  · have hopen : Opens c s s1 := .of_openAccess ho
    obtain ⟨C, G, A, hk⟩ := hopen.core_eq
    have hgo : exec (.ldt d base off) s = finish ⟨c, .a⟩ 4 s (copyIn s1 ⟨c, .a⟩ (regOf s ⟨c, .a⟩ d).toNat segs) := by
      rw [hldt, tileOperand_goes hr h64 hown, withAccess_opens hsh ha ho]
    cases hd : segs.any (detects s1 c) && !segs.any Seg.isRemote with
    | false =>
      obtain ⟨v, hv, hvm, hvc, hvo⟩ := copyIn_pends (c := c) (u := s1) hl hd
      rw [hk] at hvc
      obtain ⟨t, ht, htm, htc, hto⟩ := goes_a hst hvc rfl rfl
      refine ⟨t, by rw [hgo, hv, ht], (congrArg (fun k => k.a.regs) htc).trans rfl, (congrArg (fun k => k.a.pc) htc).trans rfl, htm.trans hvm,
        fun e he => (hto e he).trans ((hvo e he).trans (hopen.others e he)),
        fun _ => ⟨(congrArg Core.tile htc).trans rfl, (congrArg (fun k => k.a.pend) htc).trans rfl⟩, fun hex hrem => ?_⟩
      obtain ⟨g, hg, hdet⟩ := hex
      have hany : segs.any (detects s1 c) = true := List.any_eq_true.mpr ⟨g, hg, hdet⟩
      have hnone : segs.any Seg.isRemote = false := List.any_eq_false.mpr (fun x hx => by simp [hrem x hx])
      simp [hany, hnone] at hd
    | true =>
      have hsome : ¬ ∀ g ∈ segs, detects s1 c g = false := by
        intro hall
        rw [show segs.any (detects s1 c) = false from List.any_eq_false.mpr (fun x hx => by simp [hall x hx])] at hd
        exact absurd hd (by simp)
      cases hb : badSegs s1 c segs with
      | none =>
        obtain ⟨v, W, hv, hvm, hvc, hvo⟩ := copyIn_copies (c := c) (u := s1) hl hd hb
        rw [hk] at hvc
        obtain ⟨t, ht, htm, htc, hto⟩ := goes_a hst hvc rfl rfl
        refine ⟨t, by rw [hgo, hv, ht], (congrArg (fun k => k.a.regs) htc).trans rfl, (congrArg (fun k => k.a.pc) htc).trans rfl, htm.trans hvm,
          fun e he => (hto e he).trans ((hvo e he).trans (hopen.others e he)), fun h => absurd h hsome, fun _ _ _ hwf hlen => ?_⟩
        refine ⟨(congrArg (fun k => k.a.pend) htc).trans rfl, fun x => ?_⟩
        exact (congrArg (fun k => readB k.tile x) htc).trans (readB_writeMasked_all hwf hlen)
      | some b =>
        obtain ⟨cause, tv⟩ := b
        obtain ⟨v, L, hv, hvm, hvc, hvo⟩ := copyIn_late (c := c) (u := s1) hl hd hb
        rw [hk] at hvc
        obtain ⟨t, ht, htm, htc, hto⟩ := goes_a hst hvc rfl rfl
        refine ⟨t, by rw [hgo, hv, ht], (congrArg (fun k => k.a.regs) htc).trans rfl, (congrArg (fun k => k.a.pc) htc).trans rfl, htm.trans hvm,
          fun e he => (hto e he).trans ((hvo e he).trans (hopen.others e he)), fun h => absurd h hsome, fun _ _ h => by cases h⟩

end Sys2Proof.Machine
end

section
/-! SUPPORT. ST, STQ and STT at issue, and the performance of a pending store (R104, R222, R246 to R248, R341). -/

namespace Sys2Proof.Machine

/-! ## Bytes under a mask -/

/-- The bytes of memory after a store of masked bytes. -/
theorem readB_writeMasked {m : Memory} {a x : Nat} {l : List Byte} {ks : List Bool} (h : m.wf = true) :
    readB (writeMasked m a l ks) x =
      if a ≤ x ∧ x < a + l.length ∧ ks.getD (x - a) false = true then l.getD (x - a) 0 else readB m x := by
  induction l generalizing m a ks with
  | nil =>
    rw [if_neg (by simp; omega)]
    cases ks <;> rfl
  | cons b t ih =>
    cases ks with
    | nil =>
      rw [if_neg (by simp)]
      rfl
    | cons k ks =>
      obtain ⟨m1, hm1⟩ : ∃ m1, m1 = if k then writeB m a b else m := ⟨_, rfl⟩
      have hwf : Memory.wf m1 = true := by
        rw [hm1]
        split
        · exact wf_writeB h
        · exact h
      have hne : x ≠ a → readB m1 x = readB m x := fun hx => by
        rw [hm1]
        split
        · exact readB_writeB_ne hx
        · rfl
      rw [writeMasked, ← hm1, ih hwf]
      rcases Nat.lt_trichotomy x a with hx | hx | hx
      · rw [if_neg (by omega), if_neg (by omega), hne (by omega)]
      · subst hx
        rw [if_neg (by omega), hm1]
        cases k
        · rw [if_neg Bool.false_ne_true, if_neg (by simp)]
        · rw [if_pos rfl, readB_writeB_self h, if_pos (by simp)]
          simp
      · have hi : x - a = x - (a + 1) + 1 := by omega
        have hiff : (a ≤ x ∧ x < a + (b :: t).length ∧ (k :: ks).getD (x - a) false = true) ↔
            (a + 1 ≤ x ∧ x < a + 1 + t.length ∧ ks.getD (x - (a + 1)) false = true) := by
          rw [hi, List.getD_cons_succ, List.length_cons]
          exact ⟨fun ⟨h1, h2, h3⟩ => ⟨by omega, by omega, h3⟩, fun ⟨h1, h2, h3⟩ => ⟨by omega, by omega, h3⟩⟩
        rw [if_congr hiff rfl rfl, hi, List.getD_cons_succ, hne (by omega)]

/-! ## An access in one part -/

section
variable {s s1 u v : State} {c : Nat} {w : Who}

theorem pieces_ne_nil (f : Nat) (g : Seg) : pieces (f + 1) g ≠ [] := by
  rw [pieces]
  split <;> exact List.cons_ne_nil _ _

theorem head_pieces {f : Nat} {g x : Seg} {l : List Seg} (h : pieces (f + 1) g = x :: l) : x.len ≤ g.len := by
  rw [pieces] at h
  split at h
  · obtain ⟨rfl, -⟩ := List.cons.inj h
    exact Nat.le_refl _
  · next hlen =>
    obtain ⟨rfl, -⟩ := List.cons.inj h
    exact Nat.le_of_not_le hlen

/-- A part has a first piece, and no piece of it is longer. -/
theorem head_split (g : Seg) : ∃ x l, g.split = x :: l ∧ x.len ≤ g.len := by
  rw [Seg.split]
  split
  · obtain ⟨x, l, h⟩ := List.exists_cons_of_ne_nil (pieces_ne_nil (g.len / 512) g)
    exact ⟨x, l, h, head_pieces h⟩
  · exact ⟨g, [], rfl, Nat.le_refl _⟩

theorem segOfVa_len {acc : Acc} {k va n : Nat} {g : Seg} (h : segOfVa s c acc k va n = .ok g) : g.len = n := by
  rw [segOfVa] at h
  split at h
  · cases h
  · split at h
    · obtain rfl := Except.ok.inj h
      rfl
    · cases h
    · split at h
      · cases h
      · split at h
        · cases h
        · split at h
          · cases h
          · dsimp only at h
            split at h
            · cases h
            · split at h
              · obtain rfl := Except.ok.inj h
                rfl
              · obtain rfl := Except.ok.inj h
                rfl

/-- Where a page part stands, its translation has not failed. -/
theorem translate_of_segOfVa {acc : Acc} {k va n : Nat} {g : Seg} (h : segOfVa s c acc k va n = .ok g)
    (hskip : (!canonical va || (windowOf s c va n).isSome || decide (va < tileBytes)) = false) :
    ∃ t, translate s c (s.core c).ctx va k = .ok t := by
  simp only [Bool.or_eq_false_iff, Bool.not_eq_eq_eq_not, Bool.not_false, decide_eq_false_iff_not, Option.isSome_eq_false_iff,
    Option.isNone_iff_eq_none] at hskip
  obtain ⟨⟨hcan, hwin⟩, hva⟩ := hskip
  rw [segOfVa, hcan, hwin] at h
  simp only [Bool.not_true, Bool.false_eq_true, if_false, if_neg hva] at h
  cases ht : translate s c (s.core c).ctx va k with
  | ok t => exact ⟨t, rfl⟩
  | error e =>
    rw [ht] at h
    cases h

/-- A translation that does not fail drops nothing. -/
theorem translated_cores {ctx va k : Nat} {t : Trans} (h : translate s c ctx va k = .ok t) : (translated s c ctx va k).cores = s.cores := by
  rw [translate] at h
  rw [translated]
  dsimp only at h ⊢
  split at h
  · next tr htr =>
    split at h
    · cases h
    · next hstale =>
      rw [if_neg hstale]
      obtain ⟨C, hC⟩ := countReadsBy_frame (if servesCached s tr k = true then 0 else 1) (walkLines s ctx (va % 2 ^ 57)) s
      rw [hC]
      split
      · split <;> rfl
      · rfl
  · rw [walked]
    obtain ⟨C, hC⟩ := countReads_frame (walkLines s ctx (va % 2 ^ 57)) s
    rw [hC]
    split <;> rfl

/-- An access whose bytes are one part translates one page, and its core's caches keep what they hold. -/
theorem translatedFor_cores {acc : Acc} {a : Addr} {n : Nat} {g : Seg} (h : segsOf0 s c acc a n = .ok [g]) (hg : g.len = n) :
    (translatedFor s c acc a n).cores = s.cores := by
  unfold translatedFor
  split
  · rfl
  · next va =>
    split
    · rfl
    · next hva =>
      simp only [Bool.or_eq_true, Bool.not_eq_eq_eq_not, Bool.not_true, bne_iff_ne, ne_eq, decide_eq_true_eq, not_or, not_not,
        Bool.not_eq_false] at hva
      obtain ⟨⟨hcan, halign⟩, htile⟩ := hva
      have hsegs : segsOfVa s c acc 0 (splitPages (n / 0x4000 + 2) va n) = .ok [g] := by
        rw [segsOf0] at h
        rw [hcan] at h
        simpa only [Bool.not_true, Bool.false_eq_true, if_false, halign, bne_self_eq_false, if_neg htile] using h
      rw [splitPages] at hsegs ⊢
      by_cases hn : n = 0
      · rw [if_pos hn]
        rfl
      · rw [if_neg hn] at hsegs ⊢
        dsimp only at hsegs ⊢
        rw [segsOfVa] at hsegs
        split at hsegs
        · cases hsegs
        · next g1 hg1 =>
          split at hsegs
          · cases hsegs
          · next r hr =>
            obtain ⟨x, l, hx, hlen⟩ := head_split g1
            have heq := Except.ok.inj hsegs
            rw [hx, List.cons_append] at heq
            obtain ⟨rfl, hl⟩ := List.cons.inj heq
            have hm : min n (0x4000 - va % 0x4000) = n := by
              rw [segOfVa_len hg1] at hlen
              omega
            rw [hm] at hg1 ⊢
            have hend : splitPages (n / 0x4000 + 1) (va + n) (n - n) = [] := by
              rw [Nat.sub_self, splitPages, if_pos rfl]
            rw [hend, translatedPages]
            split
            · rfl
            · next hskip =>
              obtain ⟨t, ht⟩ := translate_of_segOfVa hg1 (Bool.eq_false_iff.mpr hskip)
              dsimp only
              rw [ht]
              exact translated_cores ht

theorem raceCheck_cores {acc : Acc} {segs : List Seg} (h : raceCheck s c acc segs = .ok u) : u.cores = s.cores := by
  have hrace : ∀ v : State, ∀ l, (raceWrite v c l).cores = v.cores := fun v l => by
    obtain ⟨S, hS⟩ := raceWrite_frame c l v
    rw [hS]
  rw [raceCheck] at h
  dsimp only at h
  split at h
  · obtain rfl := Except.ok.inj h
    split
    · exact hrace _ _
    · rfl
  · split at h
    · cases h
    · obtain rfl := Except.ok.inj h
      split
      · exact (hrace _ _).trans (DeviceOnly.of_ringWrite _ _ _ _ _ _).cores
      · exact (DeviceOnly.of_ringWrite _ _ _ _ _ _).cores

theorem segsOf0_of_segsOf {acc : Acc} {a : Addr} {n : Nat} {l : List Seg} (h : segsOf s c acc a n = .ok l) : segsOf0 s c acc a n = .ok l := by
  rw [segsOf] at h
  split at h
  · cases h
  · next l0 hl0 =>
    split at h
    · cases h
    · split at h
      · cases h
      · split at h
        · cases h
        · rw [hl0, Except.ok.inj h]

theorem strongest_one (acc : Acc) (g : Seg) : strongest acc [g] = [g] := by
  rw [strongest]
  split
  · next h =>
    have hkind : g.attr.kind = 0 := by
      simp only [Bool.and_eq_true, segsSO, List.any_cons, List.any_nil, Bool.or_false, beq_iff_eq] at h
      exact h.2.1
    rw [List.map_cons, List.map_nil]
    congr 1
    cases g with
    | mk home addr len attr tv slot =>
      cases attr
      simp only at hkind
      simp [hkind]
  · rfl

theorem strongest_len (acc : Acc) (l : List Seg) : (strongest acc l).length = l.length := by
  rw [strongest]
  split
  · rw [List.length_map]
  · rfl

/-- The one part of an access and the state after its checks. -/
theorem openAccess_one {acc : Acc} {a : Addr} {n : Nat} {g : Seg} (h : openAccess s c acc a n = .ok ([g], s1)) :
    segsOf s c acc a n = .ok [g] ∧ ∃ s0, s0 = waitParts c acc.asker [g] (translatedFor s c acc a n) ∧
      (checksLater s c acc [g] = true ∧ s1 = s0 ∨ checksLater s c acc [g] = false ∧ raceCheck s0 c acc [g] = .ok s1) := by
  rw [openAccess] at h
  split at h
  · cases h
  · next l hl =>
    have hone : ∀ x : State, (strongest acc l, x) = ([g], s1) → l = [g] ∧ x = s1 := fun x hx => by
      obtain ⟨hlist, hstate⟩ := Prod.mk.injEq _ _ _ _ ▸ hx
      have hlen : l.length = 1 := by
        rw [← strongest_len acc l, hlist]
        rfl
      obtain ⟨g', rfl⟩ := List.length_eq_one_iff.mp hlen
      rw [strongest_one] at hlist
      exact ⟨hlist, hstate⟩
    dsimp only at h
    split at h
    · next hlater =>
      obtain ⟨rfl, rfl⟩ := hone _ (Except.ok.inj h)
      exact ⟨hl, _, rfl, .inl ⟨hlater, rfl⟩⟩
    · next hlater =>
      split at h
      · cases h
      · next x hx =>
        obtain ⟨rfl, rfl⟩ := hone _ (Except.ok.inj h)
        exact ⟨hl, _, rfl, .inr ⟨Bool.eq_false_iff.mpr hlater, hx⟩⟩

/-- The core after the checks of an access in one part: waits are counted in its tile store alone. -/
theorem core_of_openAccess {acc : Acc} {a : Addr} {n : Nat} {g : Seg} (h : openAccess s c acc a n = .ok ([g], s1)) (hg : g.len = n) :
    ∃ C, s1.core c = { s.core c with conflicts := C } ∧ (g.home ≠ .tile → C = (s.core c).conflicts) := by
  obtain ⟨hsegs, s0, hs0, hcase⟩ := openAccess_one h
  have hcores := translatedFor_cores (segsOf0_of_segsOf hsegs) hg
  have h0 : ∃ C, s0.core c = { s.core c with conflicts := C } ∧ (g.home ≠ .tile → C = (s.core c).conflicts) := by
    rw [hs0, waitParts, waitParts]
    by_cases ht : g.home = .tile
    · rw [if_pos ht]
      obtain ⟨C, -, hC⟩ := countWaits_core (translatedFor s c acc a n) c acc.asker g.addr g.len
      exact ⟨C, hC.trans (by rw [core_of_cores hcores]), fun h => absurd ht h⟩
    · rw [if_neg ht]
      exact ⟨(s.core c).conflicts, core_of_cores hcores c, fun _ => rfl⟩
  rcases hcase with ⟨-, rfl⟩ | ⟨-, hrace⟩
  · exact h0
  · rw [core_of_cores (raceCheck_cores hrace)]
    exact h0

/-! ## One part that is stored -/

section
variable {g : Seg} {data : List Byte} {mask : List Bool}

theorem partsOf_one (hd : data.length = g.len) (hm : mask.length = g.len) : partsOf [g] data mask = [⟨g, data, mask⟩] := by
  rw [partsOf, partsOf, ← hd, List.take_length, hd, ← hm, List.take_length]

theorem atIssue_of_pends (hh : g.home = .local) (hb : buffers s c g = false) (hd : detects s c g = false) : atIssue s c g = false := by
  rw [atIssue, detectsHere, hh, hb, hd]
  rfl

/-- A part that is stored at issue. -/
theorem storeSegs_now (hrem : g.isRemote = false) (hb : buffers s c g = false) (hat : atIssue s c g = true)
    (hbusy : busyNow (s.core c) [g] = false) (hl : leavesLate s c (.store [g] [] []) = false) :
    storeSegs c [⟨g, data, mask⟩] s = some (writeSeg s c (s.core c).nextId g data mask) := by
  simp [storeSegs, hrem, hb, hat, hbusy, hl, buffered, writeParts]

/-- A part that joins the pending accesses. -/
theorem storeSegs_later (hrem : g.isRemote = false) (hat : atIssue s c g = false) (hdet : detects s c g = false) :
    storeSegs c [⟨g, data, mask⟩] s = some (s.setCore c ((s.core c).addPend .a (.store [g] data mask))) := by
  have hb : buffers s c g = false := by
    simp only [atIssue, Bool.or_eq_false_iff] at hat
    exact hat.1.2
  simp [storeSegs, hrem, hb, hat, hdet, buffered, writeParts, busyNow, segsMeet, leavesLate, requestWrites, PendOp.segs]

/-- Outside a shadow handler a store of one part that is not buffered goes on with what its part does. -/
theorem startStore_one (hsh : shadow u w = false) (hb : buffers u w.core g = false) (hd : data.length = g.len) (hm : mask.length = g.len)
    (h : storeSegs w.core [⟨g, data, mask⟩] u = some v) : startStore u w [g] data mask = .ok v .seq := by
  rw [startStore]
  rw [hsh, if_neg Bool.false_ne_true, partsOf_one hd hm, h]
  dsimp only
  rw [List.any_cons, List.any_nil, hb]
  rfl

/-- A local part that is neither buffered nor checked joins the pending accesses. -/
theorem startStore_pends (hsh : shadow u ⟨c, .a⟩ = false) (hh : g.home = .local) (hb : buffers u c g = false) (hdet : detects u c g = false)
    (hd : data.length = g.len) (hm : mask.length = g.len) : startStore u ⟨c, .a⟩ [g] data mask =
      .ok (u.setCore c ((u.core c).addPend .a (.store [g] data mask))) .seq :=
  startStore_one hsh hb hd hm (storeSegs_later (by rw [Seg.isRemote, hh]) (atIssue_of_pends hh hb hdet) hdet)

end

/-! ## Queue entries that are stored -/

theorem wHead_empty {k : Core} {q : Nat} (h : k.wPresent q = 0) : wHead k q 1 = none := by
  rw [wHead, h]
  rfl

theorem wHead_one {k : Core} {q e : Nat} {v : Vec} {m : Pred} {rest : List WEnt} (h : k.wOf q = ⟨e, some (v, m)⟩ :: rest) :
    wHead k q 1 = some [(v, m)] := by
  have hp : ¬ k.wPresent q < 1 := by
    rw [Core.wPresent, h, present]
    simp
  rw [wHead, if_neg hp, h]
  rfl

theorem popW_one {k : Core} {q e : Nat} {x : Option (Vec × Pred)} {rest : List WEnt} (h : k.wOf q = ⟨e, x⟩ :: rest) :
    popW k q 1 = k.setW q rest := by
  rw [popW, h]
  rfl

theorem length_bytesOfVec (v : Vec) : (bytesOfVec v).length = 512 := length_bytesOf 512 _

theorem length_boolsOfPred (m : Pred) : (boolsOfPred m).length = 512 := by
  rw [boolsOfPred, List.length_map, List.length_range]

end

/-- What an access does not meet it does not wait for. -/
theorem busyNow_of_heldBack {k : Core} {op : PendOp} (h : heldBack k.a.pend op = false) : busyNow k op.segs = false := by
  rw [heldBack, List.any_eq_false] at h
  rw [busyNow, List.any_eq_false]
  intro p hp hmeet
  have hno := h p hp
  simp [PendOp.holds, hmeet] at hno

theorem buffers_of_detects {g : Seg} (s : State) (c : Nat) (h : detects s c g = true) : buffers s c g = false := by
  simp only [detects, Bool.and_eq_true, beq_iff_eq] at h
  rw [buffers, h.1.1]
  rfl

section
variable {s s1 : State} {c d q size : Nat} {base : ABase} {off : MOff} {a : Addr} {g : Seg}

theorem st_exec (hact : Acts s ⟨c, .a⟩) (hsh : shadow s ⟨c, .a⟩ = false) (hfull : Full s ⟨c, .a⟩ (d :: memRegs base off)) :
    exec (.st d base size off) s = finish ⟨c, .a⟩ 4 s (withAccess s ⟨c, .a⟩ (syncAcc .write (2 ^ size)) base (2 ^ size) off
      (fun segs s1 => startStore s1 ⟨c, .a⟩ segs (bytesOf (2 ^ size) (regOf s ⟨c, .a⟩ d).toNat) (List.replicate (2 ^ size) true))) := by
  change execSt d base size off s = _
  rw [execSt, whoOn_of_acts hact]
  dsimp only
  rw [needRegs_of_full _ hfull]

/-- What STQ does with the entry at the head of its queue. -/
def storesHead (s : State) (w : Who) (q : Nat) (base : ABase) (off : MOff) : Option (List (Vec × Pred)) → Res
  | some [(v, m)] =>
    if m == 0 then .ok (s.setCore w.core (popW (s.core w.core) q 1)) .seq
    else withAccess s w (storeAcc 4 (boolsOfPred m)) base 512 off (fun segs s1 =>
      startStore (noteMem (s1.setCore w.core (popW (s1.core w.core) q 1)) w (16 + q) base 512 off) w segs (bytesOfVec v) (boolsOfPred m))
  | _ => .wait

theorem stq_exec (hact : Acts s ⟨c, .a⟩) (hfull : Full s ⟨c, .a⟩ (d :: memRegs base off)) :
    exec (.stq q base off) s = finish ⟨c, .a⟩ 4 s (storesHead s ⟨c, .a⟩ q base off (wHead (s.core c) q 1)) := by
  change execStq q base off s = _
  rw [execStq, whoOn_of_acts hact]
  dsimp only
  rw [needRegs_of_full _ (fun n hn => hfull n (List.mem_cons_of_mem d hn))]
  rfl

/-- What STT does once its access has passed the checks. -/
def copyOut (u : State) (w : Who) (t : Nat) (segs : List Seg) : Res :=
  let g : Seg := ⟨.tile, t, 512, plainAttr, t, none⟩
  if (u.core w.core).a.pend.any (fun p => match p.op with | .toTile .. => segsMeet p.op.segs [g] | _ => false) then .wait
  else
    match badSegs u w.core [g] with
    | some (cause, tv) => .raise cause (accTval false tv)
    | none => startStore (countWaits u w.core .load t 512) w segs (readSeg u w.core g).1 (List.replicate 512 true)

theorem stt_exec (hact : Acts s ⟨c, .a⟩) (hfull : Full s ⟨c, .a⟩ (d :: memRegs base off)) :
    exec (.stt d base off) s = finish ⟨c, .a⟩ 4 s (tileOperand (.stt d base off) s ⟨c, .a⟩ d (fun t =>
      withAccess s ⟨c, .a⟩ (syncAcc .write 64) base 512 off (fun segs s1 => copyOut s1 ⟨c, .a⟩ t segs))) := by
  change execStt d base off s = _
  rw [execStt, whoOn_of_acts hact]
  dsimp only
  rw [needRegs_of_full _ hfull]
  rfl

theorem tileBad_clean {t n : Nat} (hb : (s.core c).badTile = []) (hp : (s.core c).badParity = []) : tileBad s c t n = none := by
  have hlost : ∀ b l, (s.core c).lineLost b l = false := fun b l => by simp [Core.lineLost, hb, hp]
  rw [tileBad, Option.map_eq_none_iff, List.find?_eq_none]
  intro l _
  simp [hlost]

theorem copyOut_clean {t : Nat} {segs : List Seg} (hpend : (s.core c).a.pend = []) (hb : (s.core c).badTile = [])
    (hp : (s.core c).badParity = []) : copyOut s ⟨c, .a⟩ t segs =
      startStore (countWaits s c .load t 512) ⟨c, .a⟩ segs (readBytes (s.core c).tile t 512) (List.replicate 512 true) := by
  rw [copyOut]
  dsimp only
  rw [hpend, List.any_nil, if_neg Bool.false_ne_true, badSegs]
  dsimp only
  rw [tileBad_clean hb hp]
  rfl

/-- The parts of a store whose bytes are in one part. -/
theorem st_one {v : State} (hact : Acts s ⟨c, .a⟩) (hsh : shadow s ⟨c, .a⟩ = false) (hfull : Full s ⟨c, .a⟩ (d :: memRegs base off))
    (ha : memAddr s ⟨c, .a⟩ base (2 ^ size) off = .ok a) (ho : openAccess s c (syncAcc .write (2 ^ size)) a (2 ^ size) = .ok ([g], s1))
    (hg : g.len = 2 ^ size) (hb : buffers s1 c g = false)
    (hv : storeSegs c [⟨g, bytesOf (2 ^ size) (regOf s ⟨c, .a⟩ d).toNat, List.replicate (2 ^ size) true⟩] s1 = some v) :
    exec (.st d base size off) s = finish ⟨c, .a⟩ 4 s (.ok v .seq) := by
  rw [st_exec hact hsh hfull, withAccess_opens hsh ha ho, startStore_one ((Opens.of_openAccess ho).shadow.trans hsh) hb
    (by rw [length_bytesOf, hg]) (by rw [List.length_replicate, hg]) hv]

/-! ## The performance of a pending store -/

theorem storePerformed_acts {n : Nat} (hc : c < 512) (hs : s.still c = false) :
    exec (.storePerformed c n) s = .next (performStore s c n) := by
  change execStorePerformed c n s = _
  simp [execStorePerformed, coreEvent, coreExists, hc, hs]

theorem dropReqs_none {owner : Owner} (h : ∀ r ∈ s.requests, r.owner ≠ owner) : dropReqs s owner = s := by
  have hall : s.requests.filter (fun q => q.owner != owner) = s.requests :=
    List.filter_eq_self.mpr (fun r hr => by simpa using h r hr)
  rw [dropReqs, hall]

theorem acksOf_none {owner : Owner} (h : ∀ r ∈ s.requests, r.owner ≠ owner) : acksOf s owner = .done := by
  have hnone : s.requests.filter (fun q => q.owner == owner && q.write) = [] := by
    rw [List.filter_eq_nil_iff]
    intro r hr
    simp [h r hr]
  rw [acksOf, hnone]
  rfl

theorem storeDone_none {id : Nat} (h : s.relActs = []) : storeDone s c id = s := by
  rw [storeDone, h]
  split
  · rfl
  · rw [clearBehind, ← h]

theorem performStore_one {n id : Nat} {data : List Byte} {mask : List Bool} (hp : (s.core c).a.pend[n]? = some ⟨id, .store [g] data mask⟩)
    (hheld : heldBack ((s.core c).a.pend.take n) (.store [g] data mask) = false) (hh : g.home = .local) (hbuf : buffers s c g = false)
    (hd : data.length = g.len) (hm : mask.length = g.len) (hrel : s.relActs = []) (hreq : ∀ r ∈ s.requests, r.owner ≠ .pend c id) :
    performStore s c n = tryEndJob ((storeLocal s g.attr.cmp g.addr data mask).setCore c ((s.core c).setStream .a
      { (s.core c).a with pend := (s.core c).a.pend.filter (fun p => p.id != id) })) c := by
  obtain ⟨T, B, N, hw⟩ := storeLocal_frame s g.attr.cmp g.addr data mask
  have hwrite : writeSegs s c id [g] data mask = storeLocal s g.attr.cmp g.addr data mask := by
    rw [writeSegs, writeSegs, ← hd, List.take_length, hd, ← hm, List.take_length, writeSeg, hh]
    dsimp only
    rw [hbuf, if_neg Bool.false_ne_true, if_neg (by simp [Seg.isRemote, hh])]
  have hcore : (storeLocal s g.attr.cmp g.addr data mask).core c = s.core c := by
    rw [hw]
    rfl
  rw [performStore]
  dsimp only
  rw [hp]
  dsimp only
  rw [hheld, if_neg Bool.false_ne_true, acksOf_none hreq, hwrite, hcore]
  dsimp only
  rw [dropReqs_none (by rw [hw]; exact hreq), storeDone_none (by rw [hw]; exact hrel)]
  rfl

end

/-- Settles O35: stores at issue with their checks, and what the performance of a pending one writes. -/
theorem storesIssueAndPerform : Obligations.StoresIssueAndPerform := by
  rintro s ⟨c, e⟩ d q size base off (rfl : e = .a) hcan
  refine ⟨fun hact hsh hfull hst => ⟨fun a g s1 ha ho hg => ⟨fun hh hbusy => ?_, fun hh hb hdet => ?_, fun hh hdet hheld => ?_⟩,
    fun a e ha he => ?_, fun hq => ?_, fun e v rest hq => ?_, fun v m rest a x hq hm ha ho => ?_,
    fun e v m rest a g s1 hq hm ha ho hg hh hb hdet => ?_, fun a g s1 ha hr h64 hown ho hg hh hb hdet hpend hbad hpar => ?_⟩,
    fun n id g data mask hc hs ha hp hheld hh hbuf hd hm hrel hreq => ?_⟩
  · have hopen : Opens c s s1 := .of_openAccess ho
    obtain ⟨C, hk, -⟩ := core_of_openAccess ho hg
    have hdet : detects s1 c g = false := by simp [detects, hh]
    have hbuf : buffers s1 c g = false := by simp [buffers, hh]
    have hst' := st_one hact hsh hfull ha ho hg hbuf (storeSegs_now (by simp [Seg.isRemote, hh]) hbuf (by simp [atIssue, hh])
      (by rw [busyNow, hk]; exact hbusy) (by simp [leavesLate, PendOp.segs, Seg.isRemote, hh, hdet]))
    have hw : writeSeg s1 c (s1.core c).nextId g (bytesOf (2 ^ size) (regOf s ⟨c, .a⟩ d).toNat) (List.replicate (2 ^ size) true) =
        s1.setCore c (Core.tileWrite { s.core c with conflicts := C } g.addr (bytesOf (2 ^ size) (regOf s ⟨c, .a⟩ d).toNat)
          (List.replicate (2 ^ size) true)) := by
      rw [writeSeg, hh, hk]
    rw [hw] at hst'
    obtain ⟨t, ht, htm, htc, hto⟩ := goes_of_exec hst' hst rfl rfl
    refine ⟨t, ht, htm, fun x => ?_, ?_, fun e he => (hto e he).trans (hopen.others e he)⟩
    · exact (congrArg (fun k => readB k.tile x) htc).trans (readB_writeMasked_all (hcan.tiles c) (length_bytesOf _ _))
    · rw [htc]
      rfl
  · have hopen : Opens c s s1 := .of_openAccess ho
    obtain ⟨C, hk, hC⟩ := core_of_openAccess ho hg
    rw [hC (by rw [hh]; simp)] at hk
    have hdet1 := (hopen.detects g).trans hdet
    have hbuf1 := (hopen.buffers g).trans hb
    have hst' := st_one hact hsh hfull ha ho hg hbuf1 (storeSegs_later (by simp [Seg.isRemote, hh]) (atIssue_of_pends hh hbuf1 hdet1) hdet1)
    rw [hk] at hst'
    obtain ⟨t, ht, htm, htc, hto⟩ := goes_of_exec hst' hst rfl rfl
    exact ⟨t, ht, htm, htc, fun e he => (hto e he).trans (hopen.others e he)⟩
  · have hopen : Opens c s s1 := .of_openAccess ho
    obtain ⟨C, hk, hC⟩ := core_of_openAccess ho hg
    rw [hC (by rw [hh]; simp)] at hk
    have hdet1 := (hopen.detects g).trans hdet
    have hbuf1 := buffers_of_detects s1 c hdet1
    have hheld1 : heldBack (s1.core c).a.pend (.store [g] [] []) = false := by rw [hopen.a]; exact hheld
    have hst' := st_one hact hsh hfull ha ho hg hbuf1 (storeSegs_now (by simp [Seg.isRemote, hh]) hbuf1
      (by simp [atIssue, detectsHere, Seg.isRemote, hh, hdet1]) (busyNow_of_heldBack hheld1) (by rw [leavesLate, hheld1, Bool.and_false]))
    obtain ⟨T, B, N, hw⟩ := storeLocal_frame s1 g.attr.cmp g.addr (bytesOf (2 ^ size) (regOf s ⟨c, .a⟩ d).toNat) (List.replicate (2 ^ size) true)
    have hseg : writeSeg s1 c (s1.core c).nextId g (bytesOf (2 ^ size) (regOf s ⟨c, .a⟩ d).toNat) (List.replicate (2 ^ size) true) =
        storeLocal s1 g.attr.cmp g.addr (bytesOf (2 ^ size) (regOf s ⟨c, .a⟩ d).toNat) (List.replicate (2 ^ size) true) := by
      rw [writeSeg, hh]
      dsimp only
      rw [hbuf1, if_neg Bool.false_ne_true, if_neg (by simp [Seg.isRemote, hh])]
    rw [hseg, hw] at hst'
    obtain ⟨t, ht, htm, htc, hto⟩ := goes_a (v := { s1 with
      mem := writeMasked s1.mem g.addr (bytesOf (2 ^ size) (regOf s ⟨c, .a⟩ d).toNat) (List.replicate (2 ^ size) true),
      tags := T, badMem := B, counters := N }) hst hk rfl rfl
    refine ⟨t, hst'.trans ht, fun x => ?_, htc, fun e he => (hto e he).trans (hopen.others e he)⟩
    rw [htm]
    exact readB_writeMasked_all (hopen.wf hcan.memory) (length_bytesOf _ _)
  · rw [st_exec hact hsh hfull, withAccess_fails hsh ha he]
    rfl
  · rw [stq_exec hact hfull, wHead_empty hq]
    rfl
  · have hgo : exec (.stq q base off) s = finish ⟨c, .a⟩ 4 s (.ok (s.setCore c ((s.core c).setW q rest)) .seq) := by
      rw [stq_exec hact hfull, wHead_one hq, storesHead, if_pos (beq_self_eq_true _), popW_one hq]
    exact hgo.trans (finish_setCore (w := ⟨c, .a⟩) (k := (s.core c).setW q rest) hst rfl)
  · obtain ⟨e, hq⟩ := hq
    rw [stq_exec hact hfull, wHead_one hq, storesHead, if_neg (by simpa using hm), withAccess_fails hsh ha ho]
    rfl
  · have hopen : Opens c s s1 := .of_openAccess ho
    obtain ⟨C, hk, hC⟩ := core_of_openAccess ho hg
    rw [hC (by rw [hh]; simp)] at hk
    obtain ⟨u, hu⟩ : ∃ u, u = s1.setCore c ((s.core c).setW q rest) := ⟨_, rfl⟩
    have hpop : s1.setCore c (popW (s1.core c) q 1) = u := by
      rw [hu, hk]
      exact congrArg (s1.setCore c) (popW_one hq)
    have huk : u.core c = (s.core c).setW q rest := by
      rw [hu]
      exact State.core_setCore_self _ _ _
    have hnote : Opens c u (noteMem u ⟨c, .a⟩ (16 + q) base 512 off) := .of_noteMem _ _ _ _
    have hctx : ∀ x, detects u c x = detects s1 c x ∧ buffers u c x = buffers s1 c x := fun x => by
      rw [detects, buffers, huk, detects, buffers, hk, hu]
      exact ⟨rfl, rfl⟩
    have hshadow : shadow u ⟨c, .a⟩ = false := by
      rw [← hsh, ← hopen.shadow, hu]
      simp only [shadow, State.stream, State.core_setCore_self, hk]
      rfl
    have hgo : exec (.stq q base off) s = finish ⟨c, .a⟩ 4 s (.ok ((noteMem u ⟨c, .a⟩ (16 + q) base 512 off).setCore c
        (((noteMem u ⟨c, .a⟩ (16 + q) base 512 off).core c).addPend .a (.store [g] (bytesOfVec v) (boolsOfPred m)))) .seq) := by
      rw [stq_exec hact hfull, wHead_one hq, storesHead, if_neg (by simpa using hm), withAccess_opens hsh ha ho]
      dsimp only
      rw [hpop, startStore_pends (hnote.shadow.trans hshadow) hh ((hnote.buffers g).trans ((hctx g).2.trans ((hopen.buffers g).trans hb)))
        ((hnote.detects g).trans ((hctx g).1.trans ((hopen.detects g).trans hdet))) (by rw [length_bytesOfVec, hg])
        (by rw [length_boolsOfPred, hg])]
    obtain ⟨W, G, A, hnk⟩ := hnote.core_eq
    rw [hnk, huk] at hgo
    obtain ⟨t, ht, htm, htc, hto⟩ := goes_of_exec hgo hst rfl rfl
    refine ⟨t, ht, ?_, fun n hn => ?_, ?_, htm.trans ((noteMem_mem _ _ _ _ _ _).trans (by rw [hu]; rfl)), ?_, ?_, ?_⟩
    · exact (congrArg (fun k => k.wOf q) htc).trans (tget_tset_self (s.core c).w q _ [])
    · exact (congrArg (fun k => k.wOf n) htc).trans (tget_tset_ne (s.core c).w _ _ hn)
    · exact (congrArg (fun k => k.a.pend) htc).trans rfl
    · exact (congrArg (fun k => k.a.regs) htc).trans rfl
    · exact (congrArg Core.tile htc).trans rfl
    · exact (congrArg (fun k => k.a.pc) htc).trans rfl
  · have hopen : Opens c s s1 := .of_openAccess ho
    obtain ⟨C, hk, hC⟩ := core_of_openAccess ho hg
    rw [hC (by rw [hh]; simp)] at hk
    have hwait : Opens c s1 (countWaits s1 c .load (regOf s ⟨c, .a⟩ d).toNat 512) := .of_countWaits _ _ _
    obtain ⟨W, hwm, hwk⟩ := countWaits_core s1 c .load (regOf s ⟨c, .a⟩ d).toNat 512
    have hgo : exec (.stt d base off) s = finish ⟨c, .a⟩ 4 s (.ok ((countWaits s1 c .load (regOf s ⟨c, .a⟩ d).toNat 512).setCore c
        (((countWaits s1 c .load (regOf s ⟨c, .a⟩ d).toNat 512).core c).addPend .a (.store [g]
          (readBytes (s1.core c).tile (regOf s ⟨c, .a⟩ d).toNat 512) (List.replicate 512 true)))) .seq) := by
      rw [stt_exec hact hfull, tileOperand_goes hr h64 hown, withAccess_opens hsh ha ho]
      rw [copyOut_clean (by rw [hk]; exact hpend) (by rw [hk]; exact hbad) (by rw [hk]; exact hpar)]
      rw [startStore_pends (hwait.shadow.trans (hopen.shadow.trans hsh)) hh ((hwait.buffers g).trans ((hopen.buffers g).trans hb))
        ((hwait.detects g).trans ((hopen.detects g).trans hdet)) (by rw [length_readBytes, hg]) (by rw [List.length_replicate, hg])]
    rw [hwk, hk] at hgo
    obtain ⟨t, ht, htm, htc, hto⟩ := goes_of_exec hgo hst rfl rfl
    refine ⟨t, ht, htm.trans hwm, (congrArg Core.tile htc).trans rfl, (congrArg (fun k => k.a.regs) htc).trans rfl, ?_,
      (congrArg (fun k => k.a.pc) htc).trans rfl⟩
    refine (congrArg (fun k => k.a.pend) htc).trans ?_
    exact congrArg (· ++ _) hpend
  · obtain ⟨K, hK⟩ : ∃ K, K = (s.core c).setStream .a { (s.core c).a with pend := (s.core c).a.pend.filter (fun p => p.id != id) } :=
      ⟨_, rfl⟩
    have hperform := performStore_one (s := s) (c := c) hp hheld hh hbuf hd hm hrel hreq
    rw [← hK] at hperform
    obtain ⟨T, B, N, hw⟩ := storeLocal_frame s g.attr.cmp g.addr data mask
    rw [hw] at hperform
    have hcore : (State.setCore { s with mem := writeMasked s.mem g.addr data mask, tags := T, badMem := B, counters := N } c K).core c = K :=
      State.core_setCore_self _ _ _
    rw [tryEndJob_landed (s := s) ha (by rw [hcore, hK]; rfl) (fun e => by rw [hcore, hK]; cases e <;> rfl)] at hperform
    refine ⟨_, (storePerformed_acts hc hs).trans (congrArg _ hperform), fun x => ?_, hcore.trans hK, fun e he =>
      State.core_setCore_ne _ _ he, rfl⟩
    rw [← hd]
    exact readB_writeMasked hcan.memory

end Sys2Proof.Machine
end

section
/-! SUPPORT. Translation: what drops cached translations and what a probe answers (R237, R258 to R260, R334, R462). -/

namespace Sys2Proof.Machine

/-! ## Translations that are dropped -/

/-- TLBINV's translations: those of a context, or of a page of it. -/
def Trans.hit (ctx : Nat) (page : Option Nat) (t : Trans) : Bool :=
  t.ctx == ctx && (match page with | none => true | some va => t.covers ctx va)

/-- A core whose caches hold no translation that is hit. -/
def Core.dropping (k : Core) (ctx : Nat) (page : Option Nat) : Core :=
  { k with
    gtlb := k.gtlb.filter (fun t => !t.hit ctx page),
    as := { k.as with
      curPage := k.as.curPage.filter (fun p => !p.2.hit ctx page), nextPage := k.as.nextPage.filter (fun p => !p.2.hit ctx page) } }

section
variable {s u : State} {c g : Nat} {w : Who}

theorem tget_map_keyed {α : Type} {f : Nat → α → α} {d : α} {e : Nat} (hf : f e d = d) :
    ∀ l : Tbl α, tget (l.map (fun p => (p.1, f p.1 p.2))) e d = f e (tget l e d)
  | [] => hf.symm
  | (j, v) :: l => by
    have ih := tget_map_keyed hf l
    simp only [tget, List.map_cons, tfind] at ih ⊢
    by_cases hj : j = e
    · subst hj
      simp
    · simpa [hj] using ih

theorem core_dropTrans (s : State) (ctx : Nat) (page : Option Nat) (g e : Nat) :
    (dropTrans s ctx page g).core e = if clusterOf e = g then (s.core e).dropping ctx page else s.core e := by
  have hmap : (dropTrans s ctx page g).cores = s.cores.map (fun p =>
      (p.1, if clusterOf p.1 = g then p.2.dropping ctx page else p.2)) := by
    rw [dropTrans]
    refine List.map_congr_left (fun p _ => ?_)
    by_cases hp : clusterOf p.1 = g
    · rw [if_pos hp, if_pos (beq_iff_eq.mpr hp)]
      rfl
    · rw [if_neg hp, if_neg (fun h => hp (beq_iff_eq.mp h))]
  rw [State.core, hmap]
  have hreset : (if clusterOf e = g then Core.reset.dropping ctx page else Core.reset) = Core.reset := by split <;> rfl
  exact tget_map_keyed (f := fun e k => if clusterOf e = g then k.dropping ctx page else k) hreset s.cores

theorem cluster_dropTrans (s : State) (ctx : Nat) (page : Option Nat) (g h : Nat) : (dropTrans s ctx page g).cluster h =
    if h = g then { s.cluster g with tlb := (s.cluster g).tlb.filter (fun t => !t.hit ctx page) } else s.cluster h := by
  by_cases hg : h = g
  · subst hg
    rw [if_pos rfl]
    exact tget_tset_self _ _ _ _
  · rw [if_neg hg]
    exact tget_tset_ne _ _ _ hg

/-- No cache of a cluster or of its cores holds a translation that is hit. -/
def Dropped (ctx : Nat) (page : Option Nat) (s : State) (h : Nat) : Prop :=
  (∀ t ∈ (s.cluster h).tlb, t.hit ctx page = false) ∧ ∀ e, clusterOf e = h → (∀ t ∈ (s.core e).gtlb, t.hit ctx page = false) ∧
    ∀ p ∈ (s.core e).as.curPage ++ (s.core e).as.nextPage, p.2.hit ctx page = false

theorem dropTrans_drops (s : State) (ctx : Nat) (page : Option Nat) (g : Nat) : Dropped ctx page (dropTrans s ctx page g) g := by
  refine ⟨fun t ht => ?_, fun e he => ?_⟩
  · rw [cluster_dropTrans, if_pos rfl] at ht
    simpa using (List.mem_filter.mp ht).2
  · rw [core_dropTrans, if_pos he]
    refine ⟨fun t ht => by simpa using (List.mem_filter.mp ht).2, fun p hp => ?_⟩
    rcases List.mem_append.mp hp with hp | hp <;> simpa using (List.mem_filter.mp hp).2

theorem Dropped.keeps {ctx h : Nat} {page : Option Nat} (hd : Dropped ctx page s h) (g : Nat) :
    Dropped ctx page (dropTrans s ctx page g) h := by
  by_cases hg : h = g
  · subst hg
    exact dropTrans_drops _ _ _ _
  · refine ⟨by rw [cluster_dropTrans, if_neg hg]; exact hd.1, fun e he => ?_⟩
    rw [core_dropTrans, if_neg (by rw [he]; exact hg)]
    exact hd.2 e he

theorem Dropped.keeps_all {ctx h : Nat} {page : Option Nat} : ∀ (l : List Nat) {s : State}, Dropped ctx page s h →
    Dropped ctx page (dropTransAll ctx page l s) h
  | [], _, hd => hd
  | g :: l, _, hd => Dropped.keeps_all l (hd.keeps g)

theorem dropTransAll_drops {ctx h : Nat} {page : Option Nat} {l : List Nat} (hm : h ∈ l) (s : State) :
    Dropped ctx page (dropTransAll ctx page l s) h := by
  induction l generalizing s with
  | nil => cases hm
  | cons g l ih =>
    rcases List.mem_cons.mp hm with rfl | hm
    · exact Dropped.keeps_all l (dropTrans_drops s ctx page h)
    · exact ih hm _

/-- A core beside its caches of translations. -/
theorem dropTransAll_core (ctx : Nat) (page : Option Nat) (e : Nat) (l : List Nat) (s : State) :
    ∃ G A, (dropTransAll ctx page l s).core e = { s.core e with gtlb := G, as := A } := by
  induction l generalizing s with
  | nil => exact ⟨(s.core e).gtlb, (s.core e).as, rfl⟩
  | cons g l ih =>
    obtain ⟨G, A, h⟩ := ih (dropTrans s ctx page g)
    have hdrop : ∀ k : Core, ({ k.dropping ctx page with gtlb := G, as := A } : Core) = { k with gtlb := G, as := A } := fun _ => rfl
    refine ⟨G, A, ?_⟩
    rw [dropTransAll, h, core_dropTrans]
    split
    · exact hdrop _
    · rfl

theorem dropTransAll_mem (ctx : Nat) (page : Option Nat) (l : List Nat) (s : State) : (dropTransAll ctx page l s).mem = s.mem := by
  induction l generalizing s with
  | nil => rfl
  | cons g l ih => exact ih (dropTrans s ctx page g)

/-! ## A stale translation (R462) -/

theorem stale_of_inc {t : Trans} (hp : t.pkg ≠ s.pkgId) (hi : (s.peer t.pkg).inc ≠ t.inc) : t.stale s = true := by
  simp [Trans.stale, hp, hi]

theorem translated_stale {ctx va n : Nat} {t : Trans} (hc : cachedFor s c ctx (va % 2 ^ 57) = some t) (hs : t.stale s = true) :
    translate s c ctx va n = .error 0x48 ∧ translated s c ctx va n = dropStale s c ctx (va % 2 ^ 57) := by
  rw [translate, translated]
  dsimp only
  rw [hc]
  dsimp only
  rw [hs, if_pos rfl, if_pos rfl]
  exact ⟨rfl, rfl⟩

/-- A translation that neither is stale nor covers an address. -/
def Trans.fresh (s : State) (ctx va : Nat) (t : Trans) : Bool := !(t.stale s && t.covers ctx va)

theorem cluster_dropStale (ctx va : Nat) : (dropStale s c ctx va).cluster (clusterOf c) =
    { s.cluster (clusterOf c) with tlb := (s.cluster (clusterOf c)).tlb.filter (fun t => t.fresh s ctx va) } :=
  tget_tset_self _ _ _ _

theorem core_dropStale (ctx va : Nat) : (dropStale s c ctx va).core c = { s.core c with
    gtlb := (s.core c).gtlb.filter (fun t => t.fresh s ctx va),
    as := { (s.core c).as with
      curPage := (s.core c).as.curPage.filter (fun p => p.2.fresh s ctx va),
      nextPage := (s.core c).as.nextPage.filter (fun p => p.2.fresh s ctx va) } } := State.core_setCore_self _ _ _

theorem fresh_iff {ctx va : Nat} {t : Trans} (h : t.fresh s ctx va = true) : ¬ (t.stale s = true ∧ t.covers ctx va = true) := by
  rintro ⟨h1, h2⟩
  rw [Trans.fresh, h1, h2] at h
  cases h

/-! ## Probes (R258) -/

theorem canonical_low {va : Nat} (h : va < tileBytes) : canonical va = true := by
  have hv : va % 2 ^ 64 / 2 ^ 56 = 0 := by
    rw [tileBytes] at h
    omega
  rw [canonical, hv]
  rfl

theorem probe_low {va : Nat} (attrs : Bool) (h : va < tileBytes) :
    probe s c va attrs = (if attrs then 1 else BitVec.ofNat 64 (2 ^ 63 + s.pkgId * 2 ^ 44 + va), none) ∧ probed s c va = s := by
  refine ⟨?_, ?_⟩
  · rw [probe, if_pos h]
    rfl
  · rw [probed]
    exact if_pos (by simp [h])

theorem probe_not_canonical {va : Nat} (attrs : Bool) (h : canonical va = false) : probe s c va attrs = (0, none) ∧ probed s c va = s := by
  have hlow : ¬ va < tileBytes := fun hlow => by
    rw [canonical_low hlow] at h
    cases h
  refine ⟨?_, ?_⟩
  · rw [probe, if_neg hlow, if_pos (by simp [h])]
  · rw [probed]
    exact if_pos (by simp [h])

section
variable {va : Nat} {attrs : Bool} (hlow : tileBytes ≤ va) (hcan : canonical va = true) (hwin : windowOf s c va 1 = none)
  (hcached : cachedFor s c (s.core c).ctx (va % 2 ^ 57) = none)
include hlow hcan hwin hcached

theorem translate_uncached : translate s c (s.core c).ctx (va % 2 ^ 57) 0 = walk s (s.core c).ctx (va % 2 ^ 57) ∧
    translate s c (s.core c).ctx va 0 = walk s (s.core c).ctx (va % 2 ^ 57) ∧
    translated s c (s.core c).ctx va 0 = walked s c (s.core c).ctx (va % 2 ^ 57) := by
  rw [translate, translate, translated]
  dsimp only
  rw [Nat.mod_mod, hcached]
  exact ⟨rfl, rfl, rfl⟩

theorem probe_fails {cause : Nat} (hw : walk s (s.core c).ctx (va % 2 ^ 57) = .error cause) :
    ∃ N, probe s c va attrs = (0, none) ∧ probed s c va = { s with counters := N } := by
  obtain ⟨h1, h2, -⟩ := translate_uncached hlow hcan hwin hcached
  obtain ⟨N, hN⟩ := countReads_frame (walkLines s (s.core c).ctx (va % 2 ^ 57)) s
  refine ⟨N, ?_, ?_⟩
  · rw [probe, if_neg (by omega), hcan, hwin]
    simp only [Bool.not_true, Bool.false_eq_true, if_false, h1, hw]
    rfl
  · rw [probed, if_neg (by simp [hcan, hwin]; omega)]
    dsimp only
    rw [h2, hw]
    dsimp only
    rw [walked, hw, hN]

theorem probe_answers {tr : Trans} (hw : walk s (s.core c).ctx (va % 2 ^ 57) = .ok tr) :
    ∃ N, probe s c va attrs = (if attrs then attrWord tr.attr tr.size (tr.pkg != s.pkgId)
        else BitVec.ofNat 64 (2 ^ 63 + tr.pkg * 2 ^ 44 + (tr.frame + va % 2 ^ 57 % 2 ^ pageShift tr.size)), some tr) ∧
      probed s c va = installTrans { s with counters := N } (clusterOf c) tr := by
  obtain ⟨h1, h2, h3⟩ := translate_uncached hlow hcan hwin hcached
  obtain ⟨N, hN⟩ := countReads_frame (walkLines s (s.core c).ctx (va % 2 ^ 57)) s
  refine ⟨N, ?_, ?_⟩
  · rw [probe, if_neg (by omega), hcan, hwin]
    simp only [Bool.not_true, Bool.false_eq_true, if_false, h1, hw]
    rfl
  · rw [probed, if_neg (by simp [hcan, hwin]; omega)]
    dsimp only
    rw [h2, hw]
    dsimp only
    rw [h3, walked, hw, hN]

end

/-- A state with the translation that a probe installs. -/
def installs (s : State) (g : Nat) : Option Trans → State
  | some t => installTrans s g t
  | none => s

theorem tlbp_exec {d a : Nat} {attrs : Bool} (hact : Acts s ⟨c, .a⟩) (hfull : Full s ⟨c, .a⟩ [a]) : exec (.tlbp d a attrs) s =
    finish ⟨c, .a⟩ 4 s (.ok (putReg (installs (probed s c (regOf s ⟨c, .a⟩ a).toNat) (clusterOf c)
      (probe s c (regOf s ⟨c, .a⟩ a).toNat attrs).2) ⟨c, .a⟩ d (probe s c (regOf s ⟨c, .a⟩ a).toNat attrs).1) .seq) := by
  change execTlbp d a attrs s = _
  rw [execTlbp, whoOn_of_acts hact]
  dsimp only
  rw [needRegs_of_full _ hfull]
  cases (probe s c (regOf s ⟨c, .a⟩ a).toNat attrs).2 <;> rfl

/-- A register that a form writes in a state with other counters and caches of clusters. -/
theorem finish_putReg_beside {d : Nat} {v : Word} {N : Tbl Nat} {C : Tbl Cluster} (hst : Straight s w 4) (hd : (s.stream w).full d = true) :
    ∃ t, finish w 4 s (.ok (putReg { s with counters := N, clusters := C } w d v) .seq) = .next { t with counters := N, clusters := C } ∧
      Wrote s t w d v (s.pcOf w + 4) 0 (s.stream w).dph ∧ t.counters = s.counters ∧ t.clusters = s.clusters := by
  obtain ⟨u, hu⟩ : ∃ u : State, u = { s with counters := N, clusters := C } := ⟨_, rfl⟩
  have hw : (u.stream w).full d = true := by rw [hu]; exact hd
  refine ⟨_, ?_, wrote_put_only s w d v _, rfl, rfl⟩
  rw [← hu, putReg_full hw, finish_seq hst (by rw [State.stream_setStream_self, hu]; exact Stream.put_loops _ _ _)
    (by rw [State.stream_setStream_self, hu]; exact Stream.put_pc _ _ _), hu]
  rfl

end

/-- What NEXT_PAGE_TRANSLATION leaves by what the translation of the next page is. -/
def withNextPage (s : State) (c queue stop : Nat) : Except Nat Trans → State
  | .ok n => (translated s c (s.core c).ctx stop 0).setCore c
      { s.core c with as := { (s.core c).as with nextPage := tset (s.core c).as.nextPage queue n } }
  | .error _ => translated s c (s.core c).ctx stop 0

theorem decide_or3 {p q r : Prop} [Decidable p] [Decidable q] [Decidable r] :
    (decide p || decide q || decide r) = true ↔ p ∨ q ∨ r := by
  simp [or_assoc]

theorem nextPage_exec {s : State} {c queue : Nat} {cur : Trans} (hc : c < 512) (hq : queue < 24) (hs : s.still c = false)
    (hcur : tfind (s.core c).as.curPage queue = some cur) : exec (.nextPageTranslation c queue) s = .next (
      if tget (s.core c).as.hint queue 8 = 0 ∨ tget (s.core c).as.hint queue 8 * 512 <
          cur.page + 2 ^ pageShift cur.size - tget (s.core c).as.qva queue 0 ∨ 2 ^ 57 ≤ cur.page + 2 ^ pageShift cur.size then s
      else withNextPage s c queue (cur.page + 2 ^ pageShift cur.size)
        (translate s c (s.core c).ctx (cur.page + 2 ^ pageShift cur.size) 0)) := by
  change execNextPageTranslation c queue s = _
  rw [execNextPageTranslation, if_neg (by omega), coreEvent, if_neg (by simp [coreExists, hc]), hs, if_neg Bool.false_ne_true]
  dsimp only
  rw [hcur]
  dsimp only
  by_cases hfar : tget (s.core c).as.hint queue 8 = 0 ∨ tget (s.core c).as.hint queue 8 * 512 <
      cur.page + 2 ^ pageShift cur.size - tget (s.core c).as.qva queue 0 ∨ 2 ^ 57 ≤ cur.page + 2 ^ pageShift cur.size
  · exact congrArg _ ((if_pos (decide_or3.mpr hfar)).trans (if_pos hfar).symm)
  · refine congrArg _ ((if_neg (fun h => hfar (decide_or3.mp h))).trans (Eq.trans ?_ (if_neg hfar).symm))
    cases translate s c (s.core c).ctx (cur.page + 2 ^ pageShift cur.size) 0 <;> rfl

theorem clusterOf_lt {c : Nat} (hc : c < 512) : clusterOf c < 32 := by
  rw [clusterOf, coreY, coreX]
  omega

theorem cacheWith_same (tr : Trans) : cacheWith tr [tr] = [tr] := by simp [cacheWith]

/-- What a probe installs in an empty cache. -/
theorem installTrans_twice {s : State} {g : Nat} (tr : Trans) (N : Tbl Nat) (h : (s.cluster g).tlb = []) :
    ∃ C, installTrans (installTrans { s with counters := N } g tr) g tr = { s with counters := N, clusters := C } ∧
      (tget C g Cluster.reset).tlb = [tr] ∧ ∀ x, x ≠ g → tget C x Cluster.reset = s.cluster x := by
  refine ⟨_, rfl, ?_, fun x hx => ?_⟩
  · have h1 : ((installTrans { s with counters := N } g tr).cluster g).tlb = [tr] := by
      have hcl : ({ s with counters := N } : State).cluster g = s.cluster g := rfl
      rw [installTrans, State.cluster_setCluster_self, hcl, h]
      rfl
    have h2 : ((installTrans (installTrans { s with counters := N } g tr) g tr).cluster g).tlb = cacheWith tr [tr] := by
      rw [← h1]
      exact congrArg Cluster.tlb (State.cluster_setCluster_self _ _ _)
    exact h2.trans (cacheWith_same tr)
  · exact (tget_tset_ne _ _ _ hx).trans (tget_tset_ne _ _ _ hx)

/-- Settles O38: what a translation of another incarnation, probes, TLBINV, walks and the next page of a queue do to the caches. -/
theorem translationForms : Obligations.TranslationForms := by
  rintro s ⟨c, e⟩ d a at_ (rfl : e = .a)
  refine ⟨fun va n tr hc hpkg hinc => ?_, fun hrun => ⟨fun hv => ?_, fun hv => ?_, fun hlow hcan hwin h1 h2 h3 h4 => ?_⟩,
    fun reach hact => ⟨fun hsup => ?_, fun hsup hg hfull => ?_⟩, fun reach va hc hs hat hst => ?_, fun cl ctxid va hcl =>
    ⟨fun huse => ⟨fun tr hw => ?_, fun cause hw => ?_⟩, fun huse => ?_⟩, fun queue cur hc hq hs hcur => ⟨fun hfar => ?_, fun tr hD hnear hstop htr => ?_⟩⟩
  · obtain ⟨herr, hdrop⟩ := translated_stale (s := s) (c := c) (n := n) hc (stale_of_inc hpkg hinc)
    dsimp only
    rw [hdrop, cluster_dropStale, core_dropStale]
    refine ⟨herr, fun x hx => fresh_iff (List.mem_filter.mp hx).2, fun x hx => fresh_iff (List.mem_filter.mp hx).2, fun p hp => ?_,
      fun h hh => tget_tset_ne _ _ _ hh, fun e he => State.core_setCore_ne _ _ he, rfl⟩
    rcases List.mem_append.mp hp with hp | hp <;> exact fresh_iff (List.mem_filter.mp hp).2
  · obtain ⟨hact, hfull, hst⟩ := hrun
    have hd : (s.stream ⟨c, .a⟩).full d = true := hfull d (by simp)
    have hlow : ∀ attrs, exec (.tlbp d a attrs) s = finish ⟨c, .a⟩ 4 s (.ok (putReg s ⟨c, .a⟩ d (if attrs then 1 else
        BitVec.ofNat 64 (2 ^ 63 + s.pkgId * 2 ^ 44 + (regOf s ⟨c, .a⟩ a).toNat))) .seq) := fun attrs => by
      rw [tlbp_exec hact (hfull.subset (by simp)), (probe_low (s := s) (c := c) attrs hv).1, (probe_low (s := s) (c := c) attrs hv).2]
      rfl
    refine ⟨?_, ?_⟩
    · rw [WritesReg, hlow]
      exact finish_putReg hst hd
    · rw [WritesReg, hlow]
      exact finish_putReg hst hd
  · obtain ⟨hact, hfull, hst⟩ := hrun
    rw [WritesReg, tlbp_exec hact (hfull.subset (by simp)), (probe_not_canonical (s := s) (c := c) at_ hv).1,
      (probe_not_canonical (s := s) (c := c) at_ hv).2]
    exact finish_putReg hst (hfull d (by simp))
  · obtain ⟨hact, hfull, hst⟩ := hrun
    have hd : (s.stream ⟨c, .a⟩).full d = true := hfull d (by simp)
    have hcached : cachedFor s c (s.core c).ctx ((regOf s ⟨c, .a⟩ a).toNat % 2 ^ 57) = none := by
      rw [cachedFor, h1, h2, h3, h4]
      rfl
    refine ⟨fun cause hw => ?_, fun tr hw => ?_⟩
    · obtain ⟨N, hp, hprobed⟩ := probe_fails (attrs := at_) hlow hcan hwin hcached hw
      obtain ⟨t, ht, hwrote, hcount, hclus⟩ := finish_putReg_beside (d := d) (v := 0) (N := N) (C := s.clusters) hst hd
      refine ⟨{ t with counters := N, clusters := s.clusters }, ?_, ?_⟩
      · rw [tlbp_exec hact (hfull.subset (by simp)), hp, hprobed]
        exact ht
      · rw [← hclus, ← hcount]
        exact hwrote
    · obtain ⟨N, hp, hprobed⟩ := probe_answers (attrs := at_) hlow hcan hwin hcached hw
      obtain ⟨C, hC, htlb, hothers⟩ := installTrans_twice tr N h1
      obtain ⟨t, ht, hwrote, hcount, hclus⟩ := finish_putReg_beside (d := d) (v := if at_ then attrWord tr.attr tr.size (tr.pkg != s.pkgId)
        else BitVec.ofNat 64 (2 ^ 63 + tr.pkg * 2 ^ 44 + (tr.frame + (regOf s ⟨c, .a⟩ a).toNat % 2 ^ 57 % 2 ^ pageShift tr.size)))
        (N := N) (C := C) hst hd
      refine ⟨{ t with counters := N, clusters := C }, ?_, htlb, hothers, ?_⟩
      · rw [tlbp_exec hact (hfull.subset (by simp)), hp, hprobed, installs, hC]
        exact ht
      · rw [← hclus, ← hcount]
        exact hwrote
  · change execTlbinv a reach s = _
    rw [execTlbinv, whoOn_of_acts hact]
    dsimp only
    rw [if_pos (by rw [hsup]; rfl)]
    rfl
  · change execTlbinv a reach s = _
    rw [execTlbinv, whoOn_of_acts hact]
    dsimp only
    rw [if_neg (by rw [hsup]; simp), if_neg (by rw [hfull a (by simp)]; simp), if_neg (by rw [hg]; simp)]
    rfl
  · obtain ⟨page, hpage⟩ : ∃ page, page = if reach % 2 = 0 then some (va.toNat % 2 ^ 57) else none := ⟨_, rfl⟩
    obtain ⟨gs, hgs⟩ : ∃ gs, gs = if reach < 2 then [clusterOf c] else List.range 32 := ⟨_, rfl⟩
    obtain ⟨u, hu⟩ : ∃ u, u = dropTransAll (s.core c).ctx page gs s := ⟨_, rfl⟩
    obtain ⟨G, A, hk⟩ := dropTransAll_core (s.core c).ctx page c gs s
    have hstream : u.stream ⟨c, .a⟩ = s.stream ⟨c, .a⟩ := by
      rw [State.stream, hu, hk]
      rfl
    have hexec : exec (.tlbinvCompletion c) s = .next (u.goTo ⟨c, .a⟩ (s.pcOf ⟨c, .a⟩ + 4)) := by
      change execTlbinvCompletion c s = _
      rw [execTlbinvCompletion, if_neg (by simp [coreExists, hc])]
      dsimp only
      rw [hat]
      dsimp only
      rw [hs, if_neg (by simp), ← hpage, ← hgs, ← hu]
      exact congrArg _ (retire_stays hst (by rw [hstream]) (by rw [hstream]))
    have hgone : ∀ x : Trans, x.hit (s.core c).ctx page = false →
        ¬ (x.ctx = (s.core c).ctx ∧ (reach % 2 = 0 → x.covers (s.core c).ctx (va.toNat % 2 ^ 57) = true)) := by
      rintro x hx ⟨h1, h2⟩
      unfold Trans.hit at hx
      rw [h1, beq_self_eq_true, Bool.true_and, hpage] at hx
      by_cases hr : reach % 2 = 0
      · rw [if_pos hr] at hx
        exact absurd ((h2 hr).symm.trans hx) (by simp)
      · rw [if_neg hr] at hx
        cases hx
    have hcore : ∀ e, ∃ T, (u.goTo ⟨c, .a⟩ (s.pcOf ⟨c, .a⟩ + 4)).core e = { u.core e with a := T } := fun e => by
      by_cases he : e = c
      · subst he
        exact ⟨_, core_goTo_a u e _⟩
      · exact ⟨(u.core e).a, core_goTo_ne he⟩
    refine ⟨_, hexec, fun h hh => ?_, ?_, (congrArg State.mem hu).trans (dropTransAll_mem _ _ _ _), fun e => ?_⟩
    · have hin : h ∈ gs := by
        rw [hgs]
        split
        · rcases hh with rfl | ⟨hr, -⟩
          · exact List.mem_singleton_self _
          · omega
        · rcases hh with rfl | ⟨-, hlt⟩
          · exact List.mem_range.mpr (clusterOf_lt hc)
          · exact List.mem_range.mpr hlt
      obtain ⟨hd, hcores⟩ := hu ▸ dropTransAll_drops (ctx := (s.core c).ctx) (page := page) hin s
      refine ⟨fun x hx => hgone x (hd x hx), fun e he => ?_⟩
      obtain ⟨T, hT⟩ := hcore e
      rw [hT]
      exact ⟨fun x hx => hgone x ((hcores e he).1 x hx), fun p hp => hgone p.2 ((hcores e he).2 p hp)⟩
    · change (u.goTo ⟨c, .a⟩ _).stream ⟨c, .a⟩ = _
      rw [State.goTo, State.stream_setStream_self, hstream]
      have hrun : u.runNext ⟨c, .a⟩ = s.runNext ⟨c, .a⟩ := by
        rw [State.runNext, hstream, State.runNext, hu, hk]
        rfl
      rw [hrun]
      rfl
    · obtain ⟨T, hT⟩ := hcore e
      obtain ⟨G, A, hke⟩ := dropTransAll_core (s.core c).ctx page e gs s
      rw [hT, hu, hke]
  · obtain ⟨N, hN⟩ := countReads_frame (walkLines s ctxid (va.toNat % 2 ^ 57)) s
    have hexec : exec (.pageWalk cl ctxid va) s = .next (installTrans { s with counters := N } cl tr) := by
      change execPageWalk cl ctxid va s = _
      rw [execPageWalk, if_neg (by omega), huse]
      dsimp only
      rw [if_neg (by simp), hw, hN]
    refine ⟨_, hexec, ?_, fun h hh => tget_tset_ne _ _ _ hh, rfl, rfl⟩
    rw [installTrans, State.cluster_setCluster_self]
    exact List.mem_cons_self
  · obtain ⟨N, hN⟩ := countReads_frame (walkLines s ctxid (va.toNat % 2 ^ 57)) s
    have hexec : exec (.pageWalk cl ctxid va) s = .next { s with counters := N } := by
      change execPageWalk cl ctxid va s = _
      rw [execPageWalk, if_neg (by omega), huse]
      dsimp only
      rw [if_neg (by simp), hw, hN]
    exact ⟨_, hexec, rfl, rfl, rfl⟩
  · change execPageWalk cl ctxid va s = _
    rw [execPageWalk, if_neg (by omega), huse]
    rfl
  · exact (nextPage_exec hc hq hs hcur).trans (congrArg _ (if_pos (hfar.imp_right .inl)))
  · refine (nextPage_exec hc hq hs hcur).trans (congrArg _ ((if_neg ?_).trans ?_))
    · rintro (h | h | h)
      · exact hD h
      · exact absurd hnear (Nat.not_le.mpr h)
      · exact absurd hstop (Nat.not_lt.mpr h)
    · exact congrArg (withNextPage s c queue _) htr

end Sys2Proof.Machine
end

section
/-! SUPPORT. LDQS, GATHQ, SCATQ and CPLVL (R249 to R251, R266): tokens, reserved entries, and the accesses that join the pending ones. -/

namespace Sys2Proof.Machine

/-! ## Tokens of a long form of A (R210, R211) -/

section
variable {s t u : State} {c : Nat} {ctl : ACtl} {w : Who}

theorem reserve_with (C : Tbl Nat) (G : List Trans) (A : AState) : ∀ (fs : List Nat) (k : Core),
    ({ k with conflicts := C, gtlb := G, as := A } : Core).reserve fs = { k.reserve fs with conflicts := C, gtlb := G, as := A }
  | [], _ => rfl
  | f :: fs, k => reserve_with C G A fs { k with reserved := tset k.reserved f (k.slots f + 1) }

theorem takeAll_with (C : Tbl Nat) (G : List Trans) (A : AState) : ∀ (fs : List Nat) (k : Core),
    ({ k with conflicts := C, gtlb := G, as := A } : Core).takeAll fs = { k.takeAll fs with conflicts := C, gtlb := G, as := A }
  | [], _ => rfl
  | f :: fs, k => takeAll_with C G A fs { k with tokens := tset k.tokens f (k.token f - 1) }

theorem core_tookA (s : State) (c : Nat) (ctl : ACtl) : (s.tookA ⟨c, .a⟩ ctl).core c =
    ((s.core c).reserve (giveFifos .a (ctl.give % 4))).takeAll (takeFifos .a ctl.take) := State.core_setCore_self _ _ _

/-- The tokens and slots of a form that has taken and reserved. -/
theorem tookA_eq (s : State) (c : Nat) (ctl : ACtl) : ∃ T R, (s.tookA ⟨c, .a⟩ ctl).core c = { s.core c with tokens := T, reserved := R } ∧
    (∀ n, tget T n 0 = (s.core c).token n - if n ∈ takeFifos .a ctl.take then 1 else 0) ∧
    ∀ n, tget R n 0 = (s.core c).slots n + if n ∈ giveFifos .a ctl.give then 1 else 0 := by
  obtain ⟨R, hR, hslots⟩ := reserve_eq (giveFifos .a (ctl.give % 4)) (s.core c)
  obtain ⟨T, hT, htokens⟩ := takeAll_eq (takeFifos .a ctl.take) ((s.core c).reserve (giveFifos .a (ctl.give % 4)))
  refine ⟨T, R, ?_, fun n => ?_, fun n => ?_⟩
  · rw [core_tookA, hT, hR]
  · rw [htokens (takeFifos_nodup _ _) n, hR]
    rfl
  · rw [hslots (giveFifos_nodup _ _) n, giveFifos_mod]

/-- Tokens are taken and slots reserved as well after the checks of accesses. -/
theorem Opens.tookA (h : Opens c s t) (ctl : ACtl) : Opens c (s.tookA ⟨c, .a⟩ ctl) (t.tookA ⟨c, .a⟩ ctl) where
  core := by
    obtain ⟨C, G, A, hk⟩ := h.core_eq
    rw [core_tookA, core_tookA, hk, reserve_with, takeAll_with]
    obtain ⟨T, R, hs, -⟩ := tookA_eq s c ctl
    rw [core_tookA] at hs
    rw [hs]
    have hcore := h.core
    rw [hk] at hcore
    exact congrArg (fun k : Core => { k with tokens := T, reserved := R }) hcore
  others e he := (State.core_setCore_ne _ _ he).trans ((h.others e he).trans (State.core_setCore_ne _ _ he).symm)
  clusters := h.clusters
  rest := congrArg (fun x : State => { x with cores := (s.tookA ⟨c, .a⟩ ctl).cores }) h.rest
  wf := h.wf

/-- A form of A whose FIFOs have what it needs goes on with its tokens taken and its slots reserved. -/
theorem aTokens_goes {K : State → Res} (ht : (s.core c).hasTokens (takeFifos .a ctl.take) = true)
    (hs : (s.core c).fullFifo (giveFifos .a (ctl.give % 4)) = none) : aTokens ctl s ⟨c, .a⟩ K = K (s.tookA ⟨c, .a⟩ ctl) := by
  obtain ⟨R, hR, -⟩ := reserve_eq (giveFifos .a (ctl.give % 4)) (s.core c)
  have hres : reserveGive s ⟨c, .a⟩ (ctl.give % 4) = .ok (s.setCore c ((s.core c).reserve (giveFifos .a (ctl.give % 4)))) := by
    rw [reserveGive]
    dsimp only
    rw [hs]
  have hk : (s.setCore c ((s.core c).reserve (giveFifos .a (ctl.give % 4)))).core c = (s.core c).reserve (giveFifos .a (ctl.give % 4)) :=
    State.core_setCore_self _ _ _
  rw [aTokens, hres]
  dsimp only
  rw [hk, if_pos (by rw [hR]; exact ht), State.setCore_setCore, State.tookA]

theorem Opens.aTokens {K : State → Res} (h : Opens c s t) (ht : (s.core c).hasTokens (takeFifos .a ctl.take) = true)
    (hs : (s.core c).fullFifo (giveFifos .a (ctl.give % 4)) = none) :
    Machine.aTokens ctl t ⟨c, .a⟩ K = K (t.tookA ⟨c, .a⟩ ctl) := by
  obtain ⟨C, G, A, hk⟩ := h.core_eq
  exact aTokens_goes (by rw [hk]; exact ht) (by rw [hk]; exact hs)

/-- The frame of A's long forms where its engines are there and its registers have their values. -/
theorem aFrame_goes {i : Instr} {regs : List Nat} {act : State → Who → Res} (h : AReady s ⟨c, .a⟩ ctl regs) {rs : List Nat}
    (hrs : rs ⊆ regs) : aFrame i ctl rs act s = finish ⟨c, .a⟩ 8 s (act s ⟨c, .a⟩) := by
  have hno : partnerFault i s ⟨c, .a⟩ ctl.take ctl.give = none := by
    rw [partnerFault, enginesOk, enginesOk]
    dsimp only
    rw [h.takes, h.gives]
    rfl
  rw [aFrame, whoOn_of_acts h.acts]
  dsimp only
  rw [hno]
  dsimp only
  rw [needRegs_of_full _ (h.regs.subset hrs)]

/-! ## Entries that are reserved and started (R214 to R216) -/

theorem reserveQ_eq (q : Nat) : ∀ (n : Nat) (k : Core), ∃ ids Q N, k.reserveQ q n = (ids, { k with q := Q, nextId := N }) ∧
    ids.length = n ∧ tget Q q [] = k.qOf q ++ ids.map (fun i => ⟨i, none⟩) ∧ ∀ m, m ≠ q → tget Q m [] = k.qOf m
  | 0, k => ⟨[], k.q, k.nextId, rfl, rfl, by simp [Core.qOf], fun _ _ => rfl⟩
  | n + 1, k => by
    obtain ⟨ids, Q, N, h, hlen, hq, hothers⟩ := reserveQ_eq q n (k.reserved1 q)
    refine ⟨k.nextId :: ids, Q, N, ?_, by simp [hlen], ?_, fun m hm => (hothers m hm).trans (tget_tset_ne _ _ _ hm)⟩
    · have hstep : k.reserveQ q (n + 1) = (k.nextId :: ((k.reserved1 q).reserveQ q n).1, ((k.reserved1 q).reserveQ q n).2) := rfl
      rw [hstep, h]
      rfl
    · have hone : (k.reserved1 q).qOf q = k.qOf q ++ [⟨k.nextId, none⟩] := tget_tset_self k.q q _ []
      rw [hq, hone]
      simp

/-- The pending accesses that started entries add to those before them. -/
theorem startEntries_adds (c q give group : Nat) : ∀ (entries : List (List Seg)) (ids : List Nat) (u : State), ids.length = entries.length →
    ∃ data P N, data.length = entries.length ∧ (startEntries c q give group (ids.zip entries) u).mem = u.mem ∧
      (∀ e, e ≠ c → (startEntries c q give group (ids.zip entries) u).core e = u.core e) ∧
      (startEntries c q give group (ids.zip entries) u).core c =
        { u.core c with nextId := N, a := { (u.core c).a with pend := (u.core c).a.pend ++ P } } ∧
      P.map Pend.op = (ids.zip (entries.zip data)).map (fun e => .entry q e.1 e.2.1 e.2.2 group give)
  | [], ids, u, hlen => by
    obtain rfl := List.length_eq_zero_iff.mp hlen
    exact ⟨[], [], (u.core c).nextId, rfl, rfl, fun _ _ => rfl, by simp [startEntries], rfl⟩
  | g :: entries, [], u, hlen => by cases hlen
  | g :: entries, i :: ids, u, hlen => by
    obtain ⟨got, x, hcap, -⟩ := captured_frame u c (.entry q i g none group give)
    obtain ⟨v, hv⟩ : ∃ v, v = State.setCore { u with counters := x } c
      ((u.core c).addPend .a (.entry q i g (got.map entryOf) group give)) := ⟨_, rfl⟩
    obtain ⟨hcores, hmem⟩ := asked_frame got.isSome c (nextOwner u c) g v
    obtain ⟨v1, hv1⟩ : ∃ v1, v1 = if got.isSome then v else requestReads c (nextOwner u c) g v := ⟨_, rfl⟩
    rw [← hv1] at hcores hmem
    have hstep : startEntries c q give group ((i :: ids).zip (g :: entries)) u = startEntries c q give group (ids.zip entries) v1 := by
      rw [List.zip_cons_cons, startEntries]
      rw [hcap, hv1, hv]
      rfl
    obtain ⟨data, P, N, hdata, hm, hothers, hcore, hops⟩ := startEntries_adds c q give group entries ids v1 (Nat.succ.inj hlen)
    have hk : v1.core c = (u.core c).addPend .a (.entry q i g (got.map entryOf) group give) := by
      rw [core_of_cores hcores, hv]
      exact State.core_setCore_self _ _ _
    refine ⟨got.map entryOf :: data, ⟨(u.core c).nextId, .entry q i g (got.map entryOf) group give⟩ :: P, N, by simp [hdata], ?_,
      fun e he => ?_, ?_, ?_⟩
    · rw [hstep, hm, hmem, hv]
      rfl
    · rw [hstep, hothers e he, core_of_cores hcores, hv]
      exact State.core_setCore_ne _ _ he
    · rw [hstep, hcore, hk, Core.addPend, Core.setStream]
      simp [Core.stream]
    · simp [hops]

/-- What is seen of a queue load that has issued: its entries are reserved, and each has a pending access. -/
structure QueueLoaded (s t : State) (c q give : Nat) (tokens reserved : Tbl Nat) (entries : List (List Seg)) : Prop where
  loads : ∃ ids data, ids.length = entries.length ∧ data.length = entries.length ∧ Reserved ((s.core c).qOf q) ((t.core c).qOf q) ids ∧
    (t.core c).a.pend = (s.core c).a.pend ++ (t.core c).a.pend.drop (s.core c).a.pend.length ∧
    ((t.core c).a.pend.drop (s.core c).a.pend.length).map Pend.op =
      (ids.zip (entries.zip data)).map (fun e => .entry q e.1 e.2.1 e.2.2 (ids.headD 0) give)
  queues : ∀ n, n ≠ q → (t.core c).qOf n = (s.core c).qOf n
  tokens : (t.core c).tokens = tokens
  reserved : (t.core c).reserved = reserved
  regs : (t.core c).a.regs = (s.core c).a.regs
  pc : (t.core c).a.pc = (s.core c).a.pc + 8
  tile : (t.core c).tile = (s.core c).tile
  others : ∀ e, e ≠ c → t.core e = s.core e

/-- A queue load whose checks have passed issues. -/
theorem startQueue_issues {q give : Nat} {entries : List (List Seg)} (hst : Straight s ⟨c, .a⟩ 8) (hu : Opens c (s.tookA ⟨c, .a⟩ ctl) u)
    (hl : ∀ es ∈ entries, leavesLate s c (.entry q 0 es none 0 0) = false) :
    ∃ t, finish ⟨c, .a⟩ 8 s (startQueue u ⟨c, .a⟩ q give entries) = .next t ∧ t.mem = u.mem ∧
      QueueLoaded s t c q give ((s.tookA ⟨c, .a⟩ ctl).core c).tokens ((s.tookA ⟨c, .a⟩ ctl).core c).reserved entries := by
  obtain ⟨T, R, htook, -⟩ := tookA_eq s c ctl
  obtain ⟨C, G, A, hk⟩ := hu.core_eq
  rw [htook] at hk ⊢
  obtain ⟨ids, Q, N, hres, hids, hq, hqs⟩ := reserveQ_eq q entries.length (u.core c)
  obtain ⟨v, hv⟩ : ∃ v, v = u.setCore c { u.core c with q := Q, nextId := N } := ⟨_, rfl⟩
  have hvk : v.core c = { u.core c with q := Q, nextId := N } := by
    rw [hv]
    exact State.core_setCore_self _ _ _
  obtain ⟨data, P, M, hdata, hm, hothers, hcore, hops⟩ := startEntries_adds c q give (ids.headD 0) entries ids v hids
  have hlate : ∀ es, leavesLate u c (.entry q 0 es none 0 0) = leavesLate s c (.entry q 0 es none 0 0) := fun es => by
    rw [hu.leavesLate, leavesLate, htook, leavesLate]
    congr 1
    refine congrArg (fun f => List.any _ f) (funext fun g => ?_)
    rw [detects, htook, detects]
    rfl
  have hstart : startQueue u ⟨c, .a⟩ q give entries = .ok (startEntries c q give (ids.headD 0) (ids.zip entries) v) .seq := by
    have hnone : entries.any (fun g => leavesLate u c (.entry q 0 g none 0 0)) = false := by
      rw [List.any_eq_false]
      intro g hg
      rw [hlate, hl g hg]
      exact Bool.false_ne_true
    rw [startQueue]
    dsimp only
    rw [hnone, if_neg Bool.false_ne_true, hres, hv]
  rw [hvk, hk] at hcore
  obtain ⟨t, ht, htm, htc, hto⟩ := goes_a hst hcore rfl rfl
  refine ⟨t, by rw [hstart, ht], htm.trans (hm.trans (by rw [hv]; rfl)), ?_⟩
  have hpend : (t.core c).a.pend = (s.core c).a.pend ++ P := (congrArg (fun k => k.a.pend) htc).trans rfl
  have hqOf : ∀ n, (t.core c).qOf n = tget Q n [] := fun n => (congrArg (fun k => k.qOf n) htc).trans rfl
  refine ⟨⟨ids, data, hids, hdata, ?_, ?_, ?_⟩, fun n hn => ?_, (congrArg Core.tokens htc).trans rfl, (congrArg Core.reserved htc).trans rfl,
    (congrArg (fun k => k.a.regs) htc).trans rfl, (congrArg (fun k => k.a.pc) htc).trans rfl, (congrArg Core.tile htc).trans rfl,
    fun e he => ?_⟩
  · rw [Reserved, hqOf, hq, hk]
    rfl
  · rw [hpend, List.drop_left]
  · rw [hpend, List.drop_left, hops]
  · rw [hqOf, hqs n hn, hk]
    rfl
  · rw [hto e he, hothers e he, hv]
    exact (State.core_setCore_ne _ _ he).trans ((hu.others e he).trans (State.core_setCore_ne _ _ he))

theorem Opens.of_openElems {acc : Acc} {n : Nat} : ∀ (l : List (Addr × List Bool)) {s t : State} {parts : List (List Seg)},
    openElems c acc n l s = .ok (parts, t) → Opens c s t
  | [], s, t, parts, h => by
    obtain ⟨-, rfl⟩ := Prod.mk.injEq _ _ _ _ ▸ Except.ok.inj h
    exact .refl c s
  | (a, mask) :: l, s, t, parts, h => by
    rw [openElems] at h
    split at h
    · cases h
    · next g s1 hg =>
      split at h
      · cases h
      · next gs s2 hgs =>
        obtain ⟨-, rfl⟩ := Prod.mk.injEq _ _ _ _ ▸ Except.ok.inj h
        exact (Opens.of_openAccess hg).trans (Opens.of_openElems l hgs)

theorem noteQueue_mem (s : State) (c q : Nat) (a : Addr) : (noteQueue s c q a).mem = s.mem := by
  unfold noteQueue
  split
  · rfl
  · split
    · rfl
    · split <;> rfl

theorem noteGathers_mem (c : Nat) : ∀ (l : List Addr) (s : State), (noteGathers c l s).mem = s.mem
  | [], _ => rfl
  | a :: l, s => by
    rw [noteGathers, noteGathers_mem c l]
    unfold noteGather
    split
    · rfl
    · split
      · rfl
      · split <;> rfl

end

/-! ## Strided loads (R249) -/

section
variable {s : State} {c q a b : Nat} {d : ABase} {ty : Ty} {ctl : ACtl}

theorem ldqs_range {st : Nat} (h : AReady s ⟨c, .a⟩ ctl (baseRegs d ++ [a, b, st]))
    (hn : (regOf s ⟨c, .a⟩ a).toNat = 0 ∨ 4096 / ty.width < (regOf s ⟨c, .a⟩ a).toNat) :
    Traps (.ldqs q d a b ty ctl) s ⟨c, .a⟩ 0x02 (opTval (.ldqs q d a b ty ctl) false 13) := by
  change execLdqs q d a b ty ctl s = _
  rw [execLdqs]
  dsimp only
  rw [aFrame_goes h (by simp), if_pos (by simpa using hn)]
  rfl

/-- What a strided load does with what its checks answer: its parts with the state after them, or the refusal of an element. -/
def strides (s : State) (w : Who) (q give n W : Nat) (base : Addr) (stride : Int) (addrs : List Addr) :
    Except Refused (List (List Seg) × State) → Res
  | .error (x, v) => .raiseIn (translatedAll w.core (syncAcc .read W) W addrs s) x v
  | .ok (parts, s1) =>
    startQueue (noteQueue s1 w.core q (base.plus (((n - 1 : Nat) : Int) * stride))) w q give (entryParts W (entriesFor n W) parts)

/-- The addresses of a strided load. -/
def strideAddrs (base : Addr) (n : Nat) (stride : Int) : List Addr := (List.range n).map (fun (j : Nat) => base.plus ((j : Int) * stride))

/-- A strided load from what its base answers, with its tokens taken in `s0`. -/
def strideFrom (s : State) (w : Who) (q give n W : Nat) (stride : Int) (s0 : State) : Except Refused Addr → Res
  | .error (x, v) => .raise x v
  | .ok base => strides s w q give n W base stride (strideAddrs base n stride)
      (openAll w.core (syncAcc .read W) W (strideAddrs base n stride) s0)

theorem ldqs_exec {st : Nat} (h : AReady s ⟨c, .a⟩ ctl (baseRegs d ++ [a, b, st])) (h0 : 0 < (regOf s ⟨c, .a⟩ a).toNat)
    (hn : (regOf s ⟨c, .a⟩ a).toNat ≤ 4096 / ty.width) : exec (.ldqs q d a b ty ctl) s = finish ⟨c, .a⟩ 8 s (
      queueFull s ⟨c, .a⟩ q (entriesFor (regOf s ⟨c, .a⟩ a).toNat ty.width) (aTokens ctl s ⟨c, .a⟩ (fun s0 =>
        strideFrom s ⟨c, .a⟩ q ctl.give (regOf s ⟨c, .a⟩ a).toNat ty.width (regOf s ⟨c, .a⟩ b).toInt s0 (baseAddr s ⟨c, .a⟩ d)))) := by
  change execLdqs q d a b ty ctl s = _
  rw [execLdqs]
  dsimp only
  rw [aFrame_goes h (by simp), if_neg (by simp; omega)]
  rfl

/-! ## Gathers and scatters (R250, R251) -/

theorem indexed_range {st : Nat} (h : AReady s ⟨c, .a⟩ ctl (baseRegs d ++ [a, b, st]))
    (hn : (regOf s ⟨c, .a⟩ b).toNat = 0 ∨ 4096 / ty.width < (regOf s ⟨c, .a⟩ b).toNat) :
    Traps (.gathq q d a b ty ctl) s ⟨c, .a⟩ 0x02 (opTval (.gathq q d a b ty ctl) false 7) ∧
      Traps (.scatq q d a b ty ctl) s ⟨c, .a⟩ 0x02 (opTval (.scatq q d a b ty ctl) false 7) := by
  refine ⟨?_, ?_⟩
  · change execGathq q d a b ty ctl s = _
    rw [execGathq]
    dsimp only
    rw [aFrame_goes h (by simp), if_pos (by simpa using hn)]
    rfl
  · change execScatq q d a b ty ctl s = _
    rw [execScatq]
    dsimp only
    rw [aFrame_goes h (by simp), if_pos (by simpa using hn)]
    rfl

/-- The elements of a gather with the parts that their checks answer, in the state `s2` after them. -/
def gathers (s : State) (w : Who) (q n W : Nat) (ctl : ACtl) (addrs : List Addr) : Except Refused (List (List Seg) × State) → Res
  | .error (x, v) => .raiseIn (refusedElems s w (syncAcc .read W) W addrs) x v
  | .ok (parts, s2) =>
    match tileOnly s w parts.flatten with
    | some (x, v) => .raiseIn (refusedElems s w (syncAcc .read W) W addrs) x v
    | none => aTokens ctl s2 w (fun s3 =>
        startQueue (noteGathers w.core addrs s3) w q ctl.give (entryParts W (entriesFor n W) parts))

/-- A gather from what its base answers. -/
def gatherFrom (s : State) (w : Who) (q a n W : Nat) (ctl : ACtl) : Except Refused Addr → Res
  | .error (x, v) => .raise x v
  | .ok base => withIndices s w a n (fun idx s1 =>
      gathers s w q n W ctl (idx.map (fun x => base.plus (x * W))) (openAll w.core (syncAcc .read W) W (idx.map (fun x => base.plus (x * W))) s1))

theorem gathq_exec {st : Nat} (h : AReady s ⟨c, .a⟩ ctl (baseRegs d ++ [a, b, st])) (h0 : 0 < (regOf s ⟨c, .a⟩ b).toNat)
    (hn : (regOf s ⟨c, .a⟩ b).toNat ≤ 4096 / ty.width) : exec (.gathq q d a b ty ctl) s = finish ⟨c, .a⟩ 8 s (
      queueFull s ⟨c, .a⟩ q (entriesFor (regOf s ⟨c, .a⟩ b).toNat ty.width) (aTokens ctl s ⟨c, .a⟩ (fun _ =>
        gatherFrom s ⟨c, .a⟩ q a (regOf s ⟨c, .a⟩ b).toNat ty.width ctl (baseAddr s ⟨c, .a⟩ d)))) := by
  change execGathq q d a b ty ctl s = _
  rw [execGathq]
  dsimp only
  rw [aFrame_goes h (by simp), if_neg (by simp; omega)]
  rfl

/-- The elements of a scatter with the parts that their checks answer, in the state `s2` after them. -/
def scatters (s : State) (w : Who) (q n W : Nat) (ctl : ACtl) (elems : List (Int × List Byte × List Bool)) (addrs : List Addr) :
    Except Refused (List (List Seg) × State) → Res
  | .error (x, v) => .raiseIn (refusedElems s w (syncAcc .write W) W addrs) x v
  | .ok (parts, s2) =>
    match tileOnly s w parts.flatten with
    | some (x, v) => .raiseIn (refusedElems s w (syncAcc .write W) W addrs) x v
    | none =>
      aTokens ctl (s2.setCore w.core (popW (s2.core w.core) q (entriesFor n W))) w (fun s3 =>
        match startStore (noteGathers w.core addrs s3) w parts.flatten (elems.flatMap (fun e => e.2.1)) (elems.flatMap (fun e => e.2.2)) with
        | .ok s4 f => .ok (s4.setCore w.core ((s4.core w.core).giveReserved (giveFifos .a ctl.give))) f
        | r => r)

/-- A scatter of the entries at the head of its queue from what its base answers. -/
def scatterFrom (s : State) (w : Who) (q a n W : Nat) (ctl : ACtl) (ents : List (Vec × Pred)) : Except Refused Addr → Res
  | .error (x, v) => .raise x v
  | .ok base => withIndices s w a n (fun idx s1 =>
      scatters s w q n W ctl (scatElems W ents idx) ((scatElems W ents idx).map (fun e => base.plus (e.1 * W)))
        (openElems w.core (syncAcc .write W) W (((scatElems W ents idx).map (fun e => base.plus (e.1 * W))).zip
          ((scatElems W ents idx).map (fun e => e.2.2))) s1))

/-- A scatter from what the head of its queue answers. -/
def scatterHead (s : State) (w : Who) (q a n W : Nat) (d : ABase) (ctl : ACtl) : Option (List (Vec × Pred)) → Res
  | none => .wait
  | some ents => scatterFrom s w q a n W ctl ents (baseAddr s w d)

theorem scatq_exec {st : Nat} (h : AReady s ⟨c, .a⟩ ctl (baseRegs d ++ [a, b, st])) (h0 : 0 < (regOf s ⟨c, .a⟩ b).toNat)
    (hn : (regOf s ⟨c, .a⟩ b).toNat ≤ 4096 / ty.width) : exec (.scatq q d a b ty ctl) s = finish ⟨c, .a⟩ 8 s (
      aTokens ctl s ⟨c, .a⟩ (fun _ => scatterHead s ⟨c, .a⟩ q a (regOf s ⟨c, .a⟩ b).toNat ty.width d ctl
        (wHead (s.core c) q (entriesFor (regOf s ⟨c, .a⟩ b).toNat ty.width)))) := by
  change execScatq q d a b ty ctl s = _
  rw [execScatq]
  dsimp only
  rw [aFrame_goes h (by simp), if_neg (by simp; omega)]
  rfl

/-! ## Index lists -/

theorem withIndices_reads {n : Nat} {K : List Int → State → Res} {segs : List Seg} {l : List Byte} {s1 s2 : State}
    (ho : openAccess s c (syncAcc .read 4) (.va (regOf s ⟨c, .a⟩ a).toNat) (4 * n) = .ok (segs, s1))
    (ht : tileOnly s ⟨c, .a⟩ segs = none) (hhere : Here segs) (hheld : heldBack (s.core c).a.pend (.load 0 4 false segs none) = false)
    (hg : gather c (.instr c .a) segs s1 = .ok l s2) :
    withIndices s ⟨c, .a⟩ a n K = K (indices l n) (dropReqs s2 (.instr c .a)) ∧ Opens c s (dropReqs s2 (.instr c .a)) := by
  have hopen : Opens c s s1 := .of_openAccess ho
  refine ⟨?_, ?_⟩
  · have hnone : segs.filter (fun g => g.isRemote && (findRead s1 (.instr c .a) g).isNone) = [] := by
      rw [List.filter_eq_nil_iff]
      intro g hgm
      rw [hhere g hgm]
      simp
    rw [withIndices]
    dsimp only
    rw [ho]
    dsimp only
    rw [ht]
    dsimp only
    rw [readNow]
    dsimp only
    rw [hopen.a, hheld, if_neg Bool.false_ne_true, hnone, if_neg (by simp), hg]
  · obtain ⟨x, rfl⟩ := gather_frame hg
    exact hopen.trans (.of_device (.quiet rfl rfl))

/-! ## A store in several parts -/

theorem map_seg_partsOf : ∀ (l : List Seg) (data : List Byte) (mask : List Bool), (partsOf l data mask).map Part.seg = l
  | [], _, _ => rfl
  | g :: l, data, mask => by rw [partsOf, List.map_cons, map_seg_partsOf l]

theorem seg_of_mem_partsOf {l : List Seg} {data : List Byte} {mask : List Bool} {p : Part} (h : p ∈ partsOf l data mask) : p.seg ∈ l := by
  rw [← map_seg_partsOf l data mask]
  exact List.mem_map_of_mem h

/-- Local parts that are neither buffered nor checked all join the pending accesses. -/
theorem storeSegs_all {u : State} {l : List Seg} {data : List Byte} {mask : List Bool} (hne : l ≠ [])
    (hl : ∀ g ∈ l, g.home = .local ∧ buffers u c g = false ∧ detects u c g = false) : ∃ v, storeSegs c (partsOf l data mask) u = some v ∧
      v.mem = u.mem ∧ (∀ e, e ≠ c → v.core e = u.core e) ∧ v.core c = (u.core c).addPend .a (.store ((partsOf l data mask).map Part.seg)
        ((partsOf l data mask).flatMap Part.data) ((partsOf l data mask).flatMap Part.mask)) := by
  obtain ⟨ps, hps⟩ : ∃ ps, ps = partsOf l data mask := ⟨_, rfl⟩
  have hpart : ∀ p ∈ ps, p.seg.isRemote = false ∧ buffers u c p.seg = false ∧ detects u c p.seg = false ∧ atIssue u c p.seg = false :=
    fun p hp => by
      obtain ⟨hh, hb, hd⟩ := hl p.seg (seg_of_mem_partsOf (hps ▸ hp))
      exact ⟨by rw [Seg.isRemote, hh], hb, hd, atIssue_of_pends hh hb hd⟩
  have hsegs : ps.map Part.seg = l := by rw [hps, map_seg_partsOf]
  have haway : ps.any (fun p => p.seg.isRemote && !buffers u c p.seg) = false := by
    rw [List.any_eq_false]
    intro p hp
    rw [(hpart p hp).1]
    simp
  have honce : ∀ p ∈ ps, (buffers u c p.seg || (!ps.any (fun p => p.seg.isRemote && !buffers u c p.seg) && atIssue u c p.seg)) = false :=
    fun p hp => by rw [(hpart p hp).2.1, (hpart p hp).2.2.2, Bool.and_false, Bool.or_false]
  have hnow : ps.filter (fun p => buffers u c p.seg || (!ps.any (fun p => p.seg.isRemote && !buffers u c p.seg) && atIssue u c p.seg)) = [] := by
    rw [List.filter_eq_nil_iff]
    intro p hp
    rw [honce p hp]
    exact Bool.false_ne_true
  have hlater : ps.filter (fun p => !(buffers u c p.seg || (!ps.any (fun p => p.seg.isRemote && !buffers u c p.seg) && atIssue u c p.seg))) =
      ps := by
    rw [List.filter_eq_self]
    intro p hp
    rw [honce p hp]
    rfl
  have hempty : ps.isEmpty = false := by
    rw [List.isEmpty_eq_false_iff]
    intro h
    rw [h] at hsegs
    exact hne hsegs.symm
  have hleaves : leavesLate u c (.store (ps.map Part.seg) [] []) = false := by
    have hany : (ps.map Part.seg).any (fun g => g.isRemote || detects u c g) = false := by
      rw [List.any_eq_false]
      intro g hg
      obtain ⟨p, hp, rfl⟩ := List.mem_map.mp hg
      rw [(hpart p hp).1, (hpart p hp).2.2.1]
      simp
    rw [leavesLate, PendOp.segs, hany, Bool.false_and]
  obtain ⟨v, hv⟩ : ∃ v, v = u.setCore c ((u.core c).addPend .a (.store (ps.map Part.seg) (ps.flatMap Part.data) (ps.flatMap Part.mask))) :=
    ⟨_, rfl⟩
  obtain ⟨R, N, F, hreq⟩ := requestWrites_frame c (nextOwner u c) (ps.map Part.seg) (ps.flatMap Part.data) (ps.flatMap Part.mask) v
  have hgo : storeSegs c ps u = some { v with requests := R, nextTid := N, toFabric := F } := by
    rw [storeSegs]
    dsimp only
    rw [hnow, hlater, hleaves, List.map_nil, busyNow, if_neg (by simp [segsMeet]), hempty, if_neg Bool.false_ne_true, ← hreq, hv]
    rfl
  rw [← hps]
  refine ⟨_, hgo, by rw [hv]; rfl, fun e he => ?_, ?_⟩
  · have hcore : ({ v with requests := R, nextTid := N, toFabric := F } : State).core e = v.core e := rfl
    rw [hcore, hv]
    exact State.core_setCore_ne _ _ he
  · have hcore : ({ v with requests := R, nextTid := N, toFabric := F } : State).core c = v.core c := rfl
    rw [hcore, hv]
    exact State.core_setCore_self _ _ _

theorem startStore_all {u : State} {l : List Seg} {data : List Byte} {mask : List Bool} (hsh : shadow u ⟨c, .a⟩ = false) (hne : l ≠ [])
    (hl : ∀ g ∈ l, g.home = .local ∧ buffers u c g = false ∧ detects u c g = false) : ∃ v, startStore u ⟨c, .a⟩ l data mask = .ok v .seq ∧
      v.mem = u.mem ∧ (∀ e, e ≠ c → v.core e = u.core e) ∧ v.core c = (u.core c).addPend .a (.store ((partsOf l data mask).map Part.seg)
        ((partsOf l data mask).flatMap Part.data) ((partsOf l data mask).flatMap Part.mask)) := by
  obtain ⟨v, hv, hrest⟩ := storeSegs_all (data := data) (mask := mask) hne hl
  have hany : l.any (buffers u c) = false := by
    rw [List.any_eq_false]
    intro g hg
    rw [(hl g hg).2.1]
    exact Bool.false_ne_true
  refine ⟨v, ?_, hrest⟩
  rw [startStore, hsh, if_neg Bool.false_ne_true, hv]
  dsimp only
  rw [hany]
  rfl

end

section
variable {s t : State} {c : Nat}

theorem detects_congr (hx : t.ctxs = s.ctxs) (hk : (t.core c).ctx = (s.core c).ctx) (g : Seg) : detects t c g = detects s c g := by
  rw [detects, hk, State.ctx, hx, detects, State.ctx]

theorem buffers_congr (hx : t.ctxs = s.ctxs) (hk : (t.core c).ctx = (s.core c).ctx) (g : Seg) : buffers t c g = buffers s c g := by
  rw [buffers, hk, State.ctx, hx, buffers, State.ctx]

theorem shadow_congr {e : Eng} (hk : (t.core c).stream e = (s.core c).stream e) (hc : ∀ g, (t.cluster g).frozen = (s.cluster g).frozen) :
    shadow t ⟨c, e⟩ = shadow s ⟨c, e⟩ := by
  simp only [shadow, State.stream, hk, hc]

/-- The store of parts with their bytes and masks. -/
def storeOf (segs : List Seg) (data : List Byte) (mask : List Bool) : PendOp :=
  .store ((partsOf segs data mask).map Part.seg) ((partsOf segs data mask).flatMap Part.data) ((partsOf segs data mask).flatMap Part.mask)

/-- What a scatter whose checks have passed leaves. -/
theorem scatters_goes {q n W : Nat} {ctl : ACtl} {elems : List (Int × List Byte × List Bool)} {addrs : List Addr} {parts : List (List Seg)}
    {s4 : State} {regs : List Nat} (hready : AReady s ⟨c, .a⟩ ctl regs) (hopen : Opens c s s4) (hsh : shadow s ⟨c, .a⟩ = false)
    (ht : tileOnly s ⟨c, .a⟩ parts.flatten = none) (hne : parts.flatten ≠ [])
    (hl : ∀ g ∈ parts.flatten, g.home = .local ∧ buffers s c g = false ∧ detects s c g = false) :
    ∃ (v : State) (C : Tbl Nat) (G : List Trans) (A : AState) (T R : Tbl Nat),
      scatters s ⟨c, .a⟩ q n W ctl elems addrs (.ok (parts, s4)) = .ok (v.setCore c (Core.addPend { s.core c with
        w := tset (s.core c).w q (((s.core c).wOf q).drop (entriesFor n W)), conflicts := C, gtlb := G, as := A, tokens := T, reserved := R }
        .a (storeOf parts.flatten (elems.flatMap (fun e => e.2.1)) (elems.flatMap (fun e => e.2.2))))) .seq ∧
      v.mem = s4.mem ∧ (∀ e, e ≠ c → v.core e = s.core e) ∧
      (∀ n, tget T n 0 = (s.core c).token n - (if n ∈ takeFifos .a ctl.take then 1 else 0) + if n ∈ giveFifos .a ctl.give then 1 else 0) ∧
      ∀ n, tget R n 0 = (s.core c).slots n := by
  obtain ⟨C, G, A, hk⟩ := hopen.core_eq
  obtain ⟨p, hp⟩ : ∃ p, p = s4.setCore c (popW (s4.core c) q (entriesFor n W)) := ⟨_, rfl⟩
  have hpk : p.core c = { s.core c with
      w := tset (s.core c).w q (((s.core c).wOf q).drop (entriesFor n W)), conflicts := C, gtlb := G, as := A } := by
    rw [hp, State.core_setCore_self, hk]
    rfl
  obtain ⟨T, R, htook, htokens, hslots⟩ := tookA_eq p c ctl
  have hu : Opens c (p.tookA ⟨c, .a⟩ ctl) (noteGathers c addrs (p.tookA ⟨c, .a⟩ ctl)) := .of_noteGathers _ _
  obtain ⟨u, hueq⟩ : ∃ u, u = noteGathers c addrs (p.tookA ⟨c, .a⟩ ctl) := ⟨_, rfl⟩
  rw [← hueq] at hu
  obtain ⟨C', G', A', huk⟩ := hu.core_eq
  rw [htook, hpk] at huk
  have hctxs : u.ctxs = s.ctxs := hu.ctxs.trans ((congrArg State.ctxs hp).trans hopen.ctxs)
  have hctx : (u.core c).ctx = (s.core c).ctx := (congrArg Core.ctx huk).trans rfl
  have hfrozen : ∀ g, (u.cluster g).frozen = (s.cluster g).frozen := fun g =>
    (hu.frozen g).trans ((congrArg (fun x : State => (x.cluster g).frozen) hp).trans (hopen.frozen g))
  obtain ⟨v, hv, hvm, hvo, hvk⟩ := startStore_all (c := c) (u := u) (data := elems.flatMap (fun e => e.2.1))
    (mask := elems.flatMap (fun e => e.2.2)) ((shadow_congr (by rw [huk]; rfl) hfrozen).trans hsh) hne
    (fun g hg => ⟨(hl g hg).1, (buffers_congr hctxs hctx g).trans (hl g hg).2.1, (detects_congr hctxs hctx g).trans (hl g hg).2.2⟩)
  rw [huk] at hvk
  obtain ⟨R', T', hgive, hT', hR'⟩ := giveReserved_eq (giveFifos .a ctl.give) (v.core c)
  refine ⟨v, C', G', A', T', R', ?_, ?_, fun e he => ?_, fun n => ?_, fun n => ?_⟩
  · rw [scatters]
    dsimp only
    rw [ht]
    dsimp only
    rw [← hp, aTokens_goes (by rw [hpk]; exact hready.tokens) (by rw [hpk]; exact hready.slots), ← hueq, hv]
    dsimp only
    rw [hgive, hvk]
    rfl
  · rw [hvm, hueq, noteGathers_mem, hp]
    rfl
  · rw [hvo e he, hu.others e he]
    refine (State.core_setCore_ne _ _ he).trans ?_
    rw [hp, State.core_setCore_ne _ _ he, hopen.others e he]
  · have hbase : (v.core c).token n = tget T n 0 := by rw [hvk]; rfl
    rw [hT' (giveFifos_nodup _ _) n, hbase, htokens n, hpk]
    rfl
  · have hbase : (v.core c).slots n = tget R n 0 := by rw [hvk]; rfl
    rw [hR' (giveFifos_nodup _ _) n, hbase, hslots n, hpk, Nat.add_sub_cancel]
    rfl

end

/-- Settles O39: what the queue forms reserve, pop and store, and what refuses them. -/
theorem queueForms : Obligations.QueueForms := by
  rintro s ⟨c, e⟩ q a b st level d ty ctl hready
  obtain rfl : e = .a := hready.eng
  obtain ⟨T, R, htook, htokens, hslots⟩ := tookA_eq s c ctl
  have hcore0 : (s.tookA ⟨c, .a⟩ ctl).core c = { s.core c with tokens := T, reserved := R } := htook
  have hrefl : Opens c s s := .refl c s
  refine ⟨fun n => ?_, fun n => ?_, fun hn => ldqs_range hready hn, fun h0 hn hq => ?_, fun base h0 hn hq hbase => ⟨fun e he => ?_, fun parts s1 ho hhere hl => ?_⟩,
    fun hn => indexed_range hready hn, fun base segs s1 l s2 h0 hn hbase ho ht hhere hheld hg => ?_, fun h0 hn hw => ?_, fun hn => ?_, fun hn => ?_⟩
  · dsimp only
    rw [htook]
    exact htokens n
  · dsimp only
    rw [htook]
    exact hslots n
  · have hfull : 8 < ((s.core c).qOf q).length + entriesFor (regOf s ⟨c, .a⟩ a).toNat ty.width := hq
    refine ⟨fun hgauge => ?_, fun hgauge => ?_⟩
    · rw [Traps, ldqs_exec hready h0 hn, queueFull_full hfull, if_pos hgauge]
      rfl
    · rw [Waits, ldqs_exec hready h0 hn, queueFull_full hfull, if_neg (by rw [hgauge]; simp)]
      rfl
  · rw [ldqs_exec hready h0 hn, queueFull_room hq, aTokens_goes hready.tokens hready.slots, hbase, strideFrom]
    have herr : openAll c (syncAcc .read ty.width) ty.width (strideAddrs base (regOf s ⟨c, .a⟩ a).toNat (regOf s ⟨c, .a⟩ b).toInt)
      (s.tookA ⟨c, .a⟩ ctl) = .error e := he
    rw [herr]
    rfl
  · have hok : openAll c (syncAcc .read ty.width) ty.width (strideAddrs base (regOf s ⟨c, .a⟩ a).toNat (regOf s ⟨c, .a⟩ b).toInt)
      (s.tookA ⟨c, .a⟩ ctl) = .ok (parts, s1) := ho
    have hopen := (Opens.of_openElems _ hok).trans (.of_noteQueue q (base.plus ((((regOf s ⟨c, .a⟩ a).toNat - 1 : Nat) : Int) * (regOf s ⟨c, .a⟩ b).toInt)))
    obtain ⟨t, ht, htm, hload⟩ := startQueue_issues (q := q) (give := ctl.give) hready.line hopen hl
    refine ⟨t, ?_, hload.loads, hload.queues, hload.tokens, hload.reserved, hload.regs, hload.pc, htm.trans (noteQueue_mem _ _ _ _),
      hload.tile, hload.others⟩
    rw [ldqs_exec hready h0 hn, queueFull_room hq, aTokens_goes hready.tokens hready.slots, hbase, strideFrom, hok, strides, ht]
  · obtain ⟨-, hopen⟩ := withIndices_reads (K := fun _ _ => .wait) ho ht hhere hheld hg
    have hreads := fun K => (withIndices_reads (K := K) ho ht hhere hheld hg).1
    refine ⟨fun parts s4 hq ho4 ht4 hhere4 hl => ?_, fun e hq he => ?_, fun ents parts s4 hents ho4 hsh ht4 hl hne => ?_⟩
    · have hall : Opens c s s4 := hopen.trans (.of_openElems _ ho4)
      have hu := (hall.tookA ctl).trans (Opens.of_noteGathers ((indices l (regOf s ⟨c, .a⟩ b).toNat).map (fun x => base.plus (x * ty.width))) _)
      obtain ⟨t, ht, htm, hload⟩ := startQueue_issues (q := q) (give := ctl.give) hready.line hu hl
      refine ⟨t, ?_, hload.loads, hload.queues, hload.tokens, hload.reserved, hload.regs, hload.pc, htm.trans (noteGathers_mem _ _ _),
        hload.tile, hload.others⟩
      rw [gathq_exec hready h0 hn, queueFull_room hq, aTokens_goes hready.tokens hready.slots, hbase, gatherFrom, hreads]
      dsimp only at ho4
      rw [ho4, gathers]
      dsimp only
      rw [ht4]
      dsimp only
      rw [hall.aTokens hready.tokens hready.slots, ht]
    · rw [gathq_exec hready h0 hn, queueFull_room hq, aTokens_goes hready.tokens hready.slots, hbase, gatherFrom, hreads]
      dsimp only at he
      rw [he]
      rfl
    · have hall : Opens c s s4 := hopen.trans (.of_openElems _ ho4)
      obtain ⟨v, C, G, A, T', R', hgo, hvm, hvo, hT, hR⟩ := scatters_goes (q := q) (n := (regOf s ⟨c, .a⟩ b).toNat) (W := ty.width)
        (elems := scatElems ty.width ents (indices l (regOf s ⟨c, .a⟩ b).toNat))
        (addrs := (scatElems ty.width ents (indices l (regOf s ⟨c, .a⟩ b).toNat)).map (fun e => base.plus (e.1 * ty.width)))
        hready hall hsh ht4 hne hl
      have hexec : exec (.scatq q d a b ty ctl) s = finish ⟨c, .a⟩ 8 s (scatters s ⟨c, .a⟩ q (regOf s ⟨c, .a⟩ b).toNat ty.width ctl
          (scatElems ty.width ents (indices l (regOf s ⟨c, .a⟩ b).toNat))
          ((scatElems ty.width ents (indices l (regOf s ⟨c, .a⟩ b).toNat)).map (fun e => base.plus (e.1 * ty.width))) (.ok (parts, s4))) := by
        rw [scatq_exec hready h0 hn, aTokens_goes hready.tokens hready.slots]
        dsimp only at hents ho4
        rw [hents, scatterHead, hbase, scatterFrom, hreads, ho4]
      rw [hgo] at hexec
      obtain ⟨t, ht, htm, htc, hto⟩ := goes_of_exec hexec hready.line rfl rfl
      refine ⟨t, ht, ?_, fun n hn => ?_, ⟨(s.core c).nextId, ?_⟩, fun n => ?_, fun n => ?_, (congrArg (fun k => k.a.regs) htc).trans rfl,
        (congrArg (fun k => k.a.pc) htc).trans rfl, htm.trans hvm, (congrArg Core.tile htc).trans rfl, fun e he => (hto e he).trans (hvo e he)⟩
      · exact (congrArg (fun k => k.wOf q) htc).trans (tget_tset_self (s.core c).w q _ [])
      · exact (congrArg (fun k => k.wOf n) htc).trans (tget_tset_ne (s.core c).w _ _ hn)
      · exact (congrArg (fun k => k.a.pend) htc).trans rfl
      · exact (congrArg (fun k => k.token n) htc).trans (hT n)
      · exact (congrArg (fun k => k.slots n) htc).trans (hR n)
  · rw [Waits, scatq_exec hready h0 hn, aTokens_goes hready.tokens hready.slots]
    dsimp only at hw
    rw [hw]
    rfl
  · change execCplvl level a b st ctl s = _
    rw [execCplvl]
    dsimp only
    rw [aFrame_goes hready (by simp), if_pos hn]
    rfl
  · obtain ⟨L, hL⟩ : ∃ L, L = tset (s.core c).as.levels level
      (Level.mk (regOf s ⟨c, .a⟩ a).toNat (regOf s ⟨c, .a⟩ b).toInt (regOf s ⟨c, .a⟩ st).toInt) := ⟨_, rfl⟩
    obtain ⟨R', T', hgive, hT', hR'⟩ := giveReserved_eq (giveFifos .a ctl.give) { s.core c with
      tokens := T, reserved := R, as := { (s.core c).as with levels := L } }
    have hexec : exec (.cplvl level a b st ctl) s = finish ⟨c, .a⟩ 8 s (.ok (s.setCore c { s.core c with
        tokens := T', reserved := R', as := { (s.core c).as with levels := L } }) .seq) := by
      change execCplvl level a b st ctl s = _
      rw [execCplvl]
      dsimp only
      rw [aFrame_goes hready (by simp), if_neg (by omega), aTokens_goes hready.tokens hready.slots, hcore0]
      dsimp only
      rw [← hL, hgive, State.tookA, State.setCore_setCore]
    obtain ⟨K, hK⟩ : ∃ K : Core, K = { s.core c with tokens := T', reserved := R', as := { (s.core c).as with levels := L } } := ⟨_, rfl⟩
    rw [← hK] at hexec
    obtain ⟨t, ht⟩ : ∃ t, t = (s.setCore c K).goTo ⟨c, .a⟩ (s.pcOf ⟨c, .a⟩ + 8) := ⟨_, rfl⟩
    have hgo : exec (.cplvl level a b st ctl) s = .next t :=
      ht ▸ hexec.trans (finish_setCore (w := ⟨c, .a⟩) hready.line (by rw [hK]; rfl))
    have honly : OnlyCore c s t := ht ▸ onlyCore_goTo (w := ⟨c, .a⟩) s K _
    have hcore : t.core c = { s.core c with
        tokens := T', reserved := R', as := { (s.core c).as with levels := L },
        a := { (s.core c).a with pc := s.pcOf ⟨c, .a⟩ + 8, run := s.runNext ⟨c, .a⟩, at_ := .free } } := by
      rw [ht]
      exact (core_goTo (w := ⟨c, .a⟩) s K _).trans (by rw [hK]; rfl)
    refine ⟨t, hgo, ?_, fun n hn => ?_, fun n => ?_, fun n => ?_, ?_, honly⟩
    · exact (congrArg (fun k => levelOf k level) hcore).trans (by rw [levelOf, hL]; exact tget_tset_self (s.core c).as.levels level _ _)
    · exact (congrArg (fun k => levelOf k n) hcore).trans (by rw [levelOf, hL]; exact tget_tset_ne (s.core c).as.levels _ _ hn)
    · exact (congrArg (fun k => k.token n) hcore).trans ((hT' (giveFifos_nodup _ _) n).trans (congrArg (· + _) (htokens n)))
    · refine (congrArg (fun k => k.slots n) hcore).trans ((hR' (giveFifos_nodup _ _) n).trans ?_)
      exact (congrArg (· - _) (hslots n)).trans (Nat.add_sub_cancel _ _)
    · exact hcore.trans (by rw [hcore]; rfl)

end Sys2Proof.Machine
end

section
/-! SUPPORT. The start of a wave on one die: its images, its jobs, and what becomes of it where an image cannot be read (R207, R416,
R475). -/

namespace Sys2Proof.Machine

/-! ## What ends of launches leave of memory and the lifelines (R413) -/

/-- Memory and the lifelines are those of the first state. -/
structure Keeps (s t : State) : Prop where
  mem : t.mem = s.mem
  lifelines : t.lifelines = s.lifelines

section
variable {s t u : State}

theorem Keeps.quiet (hm : t.mem = s.mem := by rfl) (hl : t.lifelines = s.lifelines := by rfl) : Keeps s t := ⟨hm, hl⟩

theorem Keeps.refl (s : State) : Keeps s s := .quiet

theorem Keeps.trans (h1 : Keeps s t) (h2 : Keeps t u) : Keeps s u := ⟨h2.mem.trans h1.mem, h2.lifelines.trans h1.lifelines⟩

variable (s)

theorem Keeps.of_say (m : HostMsg) : Keeps s (say s m) := by
  obtain ⟨S, T, R, D, h⟩ := say_frame s m
  rw [h]
  exact .quiet

theorem Keeps.of_discardMails : ∀ (l : List MboxMsg) (s : State), Keeps s (l.foldl discardMail s)
  | [], s => .refl s
  | m :: t, s => (Keeps.of_say s _).trans (Keeps.of_discardMails t (discardMail s m))

theorem Keeps.of_dropHeld : ∀ (l : List Nat) (s : State), Keeps s (dropHeld l s)
  | [], s => .refl s
  | d :: t, s => by
    refine Keeps.trans ?_ (Keeps.of_dropHeld t _)
    split
    · exact .refl s
    · exact Keeps.trans (t := s.setCore d { s.core d with holding := [] }) (.quiet) (Keeps.of_discardMails _ _)

theorem Keeps.of_forgetLaunch (r : Nat) : Keeps s (forgetLaunch s r) :=
  Keeps.trans (t := { s with launches := s.launches.filter (fun l => l.record != r) }) (.quiet) (Keeps.of_dropHeld _ _)

theorem Keeps.of_completeLaunch (r : Nat) : Keeps s (completeLaunch s r) :=
  Keeps.trans (t := s.setLrec r _) (.quiet) ((Keeps.of_forgetLaunch _ r).trans (Keeps.of_say _ _))

theorem Keeps.of_tellOver (r : Nat) (l : List Nat) : Keeps s (tellOver r l s) := by
  obtain ⟨F, hF, _⟩ := tellOver_frame r l s
  rw [hF]
  exact .quiet

end

/-! ## A wave whose images cannot be read (R416) -/

/-- The images of the launch of a record have not been read. -/
def Unread (s : State) (record : Nat) : Prop :=
  ∀ l, s.launches.find? (fun l => l.record == record) = some l → l.loaded = none

section
variable {s : State} {record d : Nat} {l : Launch}

theorem unread_of_find (h : s.launches.find? (fun l => l.record == record) = some l) (hl : l.loaded = none) : Unread s record := by
  intro m hm
  rw [h] at hm
  exact Option.some.inj hm ▸ hl

theorem unread_of_gone (h : ∀ x ∈ s.launches, x.record ≠ record) : Unread s record := fun m hm =>
  absurd (record_of_find hm) (h m (List.mem_of_find?_eq_some hm))

theorem startDie_unread (h : Unread s record) : startDie s record d = s := by
  rw [startDie]
  cases hl : s.launches.find? (fun l => l.record == record) with
  | none => rfl
  | some l =>
    dsimp only
    rw [h l hl]

theorem startDies_unread (h : Unread s record) : ∀ ds, startDies record ds s = s
  | [] => rfl
  | d :: t => by rw [startDies, startDie_unread h, startDies_unread h t]

/-- The launch of an ended part waits for the others, goes on with its next wave, or is gone: no image of it is read yet. -/
theorem partEnded_unread (hl : s.launches.find? (fun l => l.record == record) = some l) (hload : l.loaded = none) (pkg : Nat) :
    Unread (partEnded s record pkg) record ∧ Keeps s (partEnded s record pkg) := by
  have hmap := find_mapLaunch (f := fun l => { l with endedOn := pkg :: l.endedOn }) (fun _ => rfl) hl
  rw [partEnded, mapAway_runs hl, hmap]
  dsimp only
  split
  · exact ⟨unread_of_find hmap hload, .quiet⟩
  · split
    · exact ⟨unread_of_find (find_mapLaunch (f := Launch.nextWave) (fun _ => rfl) hmap) rfl, .quiet⟩
    · exact ⟨unread_of_gone (completeLaunch_ends _ record).1, Keeps.trans (t := s.mapLaunch record _) (.quiet)
        ((Keeps.of_tellOver _ _ _).trans (Keeps.of_completeLaunch _ _))⟩

/-- The same of a launch whose wave has ended, while its record is armed; memory and the lifelines are as they were. -/
theorem waveEnded_unread (hl : s.launches.find? (fun l => l.record == record) = some l) (hload : l.loaded = none)
    (harm : (s.lrec record).armed = true) : Unread (waveEnded s l) record ∧ Keeps s (waveEnded s l) := by
  have hrec := record_of_find hl
  have hnext : Unread (s.mapLaunch record Launch.nextWave) record :=
    unread_of_find (find_mapLaunch (f := Launch.nextWave) (fun _ => rfl) hl) rfl
  have hsame : Unread s record := unread_of_find hl hload
  rw [waveEnded, hrec, harm]
  rw [if_neg (by simp)]
  split
  · split
    · exact ⟨hnext, .quiet⟩
    · exact ⟨unread_of_gone (completeLaunch_ends s record).1, .of_completeLaunch s record⟩
  · split
    · exact partEnded_unread hl hload s.pkgId
    · split
      · exact ⟨hnext, .quiet⟩
      · exact ⟨hsame, .quiet⟩

/-- No write stays held for a core without a job that is named. -/
theorem dropHeld_empties {c : Nat} : ∀ (l : List Nat) (s : State), c ∈ l → (s.core c).job = none →
    ((dropHeld l s).core c).holding = []
  | [], _, h, _ => absurd h (by simp)
  | d :: t, s, h, hj => by
    obtain ⟨u, hu⟩ : ∃ u, u = (if (s.core d).job.isSome || (s.core d).holding.isEmpty then s
      else (s.core d).holding.foldl discardMail (s.setCore d { s.core d with holding := [] })) := ⟨_, rfl⟩
    have hstep : dropHeld (d :: t) s = dropHeld t u := by rw [hu]; rfl
    have hjob : (u.core c).job = none := by
      rw [hu]
      split
      · exact hj
      · rw [core_foldl_discardMail]
        by_cases hc : c = d
        · subst hc
          rw [State.core_setCore_self]
          exact hj
        · rw [State.core_setCore_ne _ _ hc]
          exact hj
    rw [hstep]
    by_cases ht : c ∈ t
    · exact dropHeld_empties t u ht hjob
    · have hc : c = d := (List.mem_cons.mp h).resolve_right ht
      subst hc
      have hempty : (u.core c).holding = [] := by
        rw [hu]
        split
        · next hcond => simpa [hj] using hcond
        · rw [core_foldl_discardMail, State.core_setCore_self]
      rw [core_dropHeld _ hempty, hempty]

theorem recs_say (s : State) (m : HostMsg) : (say s m).recs = s.recs := (DeviceOnly.of_say s m).recs

theorem leads_alone (hs : l.spreads = false) : ¬ (1 < l.packages.length) := by
  intro h
  rw [Launch.spreads, Bool.or_eq_false_iff] at hs
  simp [h] at hs

/-- A wave whose images cannot be read starts no job; the host hears of it, and no write stays held for its cores. -/
theorem failWave_fails {cause va : Nat} (hl : s.launches.find? (fun l => l.record == record) = some l) (hload : l.loaded = none)
    (harm : (s.lrec record).armed = true) (hspread : l.spreads = false) (hopen : s.session.phase = .opened)
    (hjob : ∀ p ∈ l.cores, (s.core p.1).job = none) :
    Unread (failWave s l cause va) record ∧ Keeps s (failWave s l cause va) ∧ Beside s (failWave s l cause va) ∧
      (∀ p ∈ l.cores, ((failWave s l cause va).core p.1).holding = []) ∧
      HostMsg.context (s.lrec record).ctx 4 [BitVec.ofNat 64 record, BitVec.ofNat 64 cause, BitVec.ofNat 64 va, 0] ∈
        (failWave s l cause va).toHost.map HostOut.msg := by
  have hrec := record_of_find hl
  obtain ⟨m, hm⟩ : ∃ m, m = contextEvent (s.lrec record).ctx 4 [BitVec.ofNat 64 record, BitVec.ofNat 64 cause, BitVec.ofNat 64 va] :=
    ⟨_, rfl⟩
  obtain ⟨F, hF⟩ : ∃ F : Launch → Launch, F = fun m => { m with done := m.cores.map Prod.fst } := ⟨_, rfl⟩
  obtain ⟨u, hu⟩ : ∃ u, u = dropHeld (l.cores.map Prod.fst) (say s m) := ⟨_, rfl⟩
  have hfail : failWave s l cause va = waveEnded (u.mapLaunch record F) (F l) := by
    rw [failWave, hrec, if_neg (by simp [leads_alone hspread]), hu, hm, hF]
  obtain ⟨hlaunch, hrecs, _⟩ := dropHeld_rest (l.cores.map Prod.fst) (say s m)
  have hfind : u.launches.find? (fun l => l.record == record) = some l := by
    rw [hu, hlaunch, (DeviceOnly.of_say s m).launches]
    exact hl
  have harm' : ((u.mapLaunch record F).lrec record).armed = true := by
    have hr : (u.mapLaunch record F).recs = s.recs := by
      rw [hu]
      exact hrecs.trans (recs_say s m)
    rw [State.lrec, hr]
    exact harm
  have hbeside : Beside s (u.mapLaunch record F) := by
    rw [hu]
    exact ((Beside.of_say s m).trans (Beside.of_dropHeld _ _)).trans (.quiet)
  obtain ⟨hunread, hkeeps⟩ := waveEnded_unread (l := F l) (find_mapLaunch (f := F) (fun _ => by rw [hF]) hfind)
    (by rw [hF]; exact hload) harm'
  have hwave := Beside.of_waveEnded (u.mapLaunch record F) (F l)
  rw [hfail]
  refine ⟨hunread, Keeps.trans ?_ hkeeps, hbeside.trans hwave, fun p hp => ?_, ?_⟩
  · rw [hu]
    exact ((Keeps.of_say s m).trans (Keeps.of_dropHeld _ _)).trans (.quiet)
  · have hempty : ((u.mapLaunch record F).core p.1).holding = [] := by
      rw [hu]
      refine dropHeld_empties _ _ (List.mem_map_of_mem hp) ?_
      rw [core_say]
      exact hjob p hp
    rw [core_waveEnded _ hempty]
    exact hempty
  · have hsaid : m ∈ (say s m).toHost.map HostOut.msg := by
      rw [say_opened hopen]
      simp
    have htold : (say s m).toHost <+: (waveEnded (u.mapLaunch record F) (F l)).toHost := by
      refine List.IsPrefix.trans ?_ hwave.told
      rw [hu]
      exact (Beside.of_dropHeld _ _).told
    rw [hm] at hsaid
    rw [hm] at htold
    exact (htold.map HostOut.msg).subset hsaid

end

/-! ## Images (R328, R416) -/

/-- The state after a read of an image, however it ended. -/
def Loaded.state : Loaded → State
  | .ok _ s | .wait s | .bad _ _ s => s

/-- The read of one part of an image. -/
def readPart (owner : Owner) (g : Seg) (s : State) : Loaded :=
  if g.isRemote then
    match (findRead s owner g).bind OutReq.reply with
    | some (.data l) => .ok l s
    | some (.nack cause) => .bad cause g.tv s
    | _ => .wait s
  else
    match badAt s g.addr g.len with
    | some (cause, i) => .bad cause (g.tv + i) s
    | none => let r := readLocal s g.addr g.len; .ok r.1 r.2

/-- A read followed by another, where the first has its bytes. -/
def Loaded.append (x : Loaded) (k : State → Loaded) : Loaded :=
  match x with
  | .ok l s1 => (match k s1 with | .ok r s2 => .ok (l ++ r) s2 | e => e)
  | e => e

theorem readImage_cons (owner : Owner) (g : Seg) (t : List Seg) (s : State) :
    readImage owner (g :: t) s = (readPart owner g s).append (readImage owner t) := rfl

theorem readPart_frame (owner : Owner) (g : Seg) (s : State) : ∃ C, (readPart owner g s).state = { s with counters := C } := by
  rw [readPart]
  split
  · split <;> exact ⟨s.counters, rfl⟩
  · obtain ⟨C, hC⟩ := readLocal_frame s g.addr g.len
    split
    · exact ⟨s.counters, rfl⟩
    · rw [hC]
      exact ⟨C, rfl⟩

theorem readImage_frame (owner : Owner) : ∀ (l : List Seg) (s : State), ∃ C, (readImage owner l s).state = { s with counters := C }
  | [], s => ⟨s.counters, rfl⟩
  | g :: t, s => by
    obtain ⟨C, hC⟩ := readPart_frame owner g s
    rw [readImage_cons]
    cases hpart : readPart owner g s with
    | ok l s1 =>
      rw [hpart] at hC
      obtain ⟨C', hC'⟩ := readImage_frame owner t s1
      refine ⟨C', ?_⟩
      have hs1 : s1 = { s with counters := C } := hC
      rw [Loaded.append]
      cases hrest : readImage owner t s1 <;> · rw [hrest, hs1] at hC'; exact hC'
    | wait s1 =>
      rw [hpart] at hC
      exact ⟨C, hC⟩
    | bad cause va s1 =>
      rw [hpart] at hC
      exact ⟨C, hC⟩

/-- An image whose bytes are there, or that is refused, leaves only its reads counted. -/
theorem loadImage_frame (s : State) (record ctx : Nat) (va : Word) (n : Nat) :
    (∃ C, (loadImage s record ctx va n).state = { s with counters := C }) ∨ ∃ u, loadImage s record ctx va n = .wait u := by
  obtain ⟨C, hC⟩ := countWalks_frame ctx none (splitPages (n / 0x4000 + 2) va.toNat n) s
  rw [loadImage]
  dsimp only
  rw [hC]
  split
  · exact .inl ⟨C, rfl⟩
  · split
    · split
      · exact .inl (readImage_frame _ _ _)
      · obtain ⟨C', h⟩ := readImage_frame (.image record) _ _
        exact .inl ⟨C', h⟩
    · exact .inr ⟨_, rfl⟩

theorem loadImage_waits {s t : State} {record ctx n : Nat} {va : Word} (h : loadImage s record ctx va n = .wait t) :
    t.launches = s.launches := by
  have hstate : (loadImage s record ctx va n).state.launches = s.launches := by
    obtain ⟨C, hC⟩ := countWalks_frame ctx none (splitPages (n / 0x4000 + 2) va.toNat n) s
    rw [loadImage]
    dsimp only
    rw [hC]
    split
    · rfl
    · split
      · split
        · obtain ⟨C', h⟩ := readImage_frame (.image record) _ s
          rw [h]
        · obtain ⟨C', h⟩ := readImage_frame (.image record) _ { s with counters := C }
          rw [h]
      · exact (DeviceOnly.of_requestReads 0 (.image record) _ { s with counters := C }).launches
  rw [h] at hstate
  exact hstate

theorem loadImage_ok {s t : State} {record ctx n : Nat} {va : Word} {l : List Byte} (h : loadImage s record ctx va n = .ok l t) :
    ∃ C, t = { s with counters := C } := by
  rcases loadImage_frame s record ctx va n with hf | ⟨u, hu⟩
  · rwa [h] at hf
  · rw [h] at hu
    cases hu

theorem loadImage_bad {s t : State} {record ctx n cause b : Nat} {va : Word} (h : loadImage s record ctx va n = .bad cause b t) :
    ∃ C, t = { s with counters := C } := by
  rcases loadImage_frame s record ctx va n with hf | ⟨u, hu⟩
  · rwa [h] at hf
  · rw [h] at hu
    cases hu

/-! ## The vaults' copies (R475) -/

/-- Each cluster that is named has a copy of the vault image; its bytes elsewhere are as they were. -/
theorem readB_copyVault (r : Rec) (img : List Byte) {i g : Nat} (hi : i < img.length) (hfit : r.voff + img.length ≤ 0x4000000) :
    ∀ (l : List Nat) (s : State), s.mem.wf = true → readB (copyVault r img l s).mem (vaultBase + g * 0x4000000 + r.voff + i) =
      if g ∈ l then img.getD i 0 else readB s.mem (vaultBase + g * 0x4000000 + r.voff + i)
  | [], s, _ => by rw [if_neg (by simp)]; rfl
  | h :: t, s, hwf => by
    obtain ⟨T, B, C, hstore⟩ := storeLocal_frame s false (vaultBase + h * 0x4000000 + r.voff) img (List.replicate img.length true)
    have hne : img.isEmpty = false := by
      cases img with
      | nil => exact absurd hi (by simp)
      | cons _ _ => rfl
    have hmem : (storeLocal s false (vaultBase + h * 0x4000000 + r.voff) img (List.replicate img.length true)).mem =
        writeMasked s.mem (vaultBase + h * 0x4000000 + r.voff) img (List.replicate img.length true) := by rw [hstore]
    rw [copyVault, hne]
    refine (readB_copyVault r img hi hfit t _ (by rw [if_neg Bool.false_ne_true, hmem]; exact wf_writeMasked hwf)).trans ?_
    rw [if_neg Bool.false_ne_true, hmem, readB_writeMasked_all hwf rfl]
    by_cases ht : g ∈ t
    · rw [if_pos ht, if_pos (List.mem_cons_of_mem _ ht)]
    · rw [if_neg ht]
      by_cases hg : g = h
      · subst hg
        rw [if_pos (by omega), if_pos List.mem_cons_self]
        congr 1
        omega
      · rw [if_neg (by omega), if_neg (by simp [hg, ht])]

theorem copyVault_empty (r : Rec) : ∀ (l : List Nat) (s : State), copyVault r [] l s = s
  | [], _ => rfl
  | _ :: t, s => by rw [copyVault]; exact copyVault_empty r t s

theorem mem_unitsAmong {scope u : Nat} : ∀ {l seen : List Nat}, u ∈ unitsAmong scope l seen → ∃ c ∈ l, unitOf scope c = u
  | [], _, h => absurd h (by simp [unitsAmong])
  | c :: t, seen, h => by
    rw [unitsAmong] at h
    split at h
    · obtain ⟨d, hd, hu⟩ := mem_unitsAmong h
      exact ⟨d, List.mem_cons_of_mem _ hd, hu⟩
    · rcases List.mem_cons.mp h with rfl | h
      · exact ⟨c, List.mem_cons_self, rfl⟩
      · obtain ⟨d, hd, hu⟩ := mem_unitsAmong h
        exact ⟨d, List.mem_cons_of_mem _ hd, hu⟩

/-! ## The streams of a job (R115, R207) -/

section
variable {r : Rec} {e : Eng}

theorem startStream_none (h : r.code e = 0) : startStream r e = Stream.reset e := by rw [startStream, if_pos h]

/-- A stream that a record names: its address, its mode and its handler; all else as R115 has it. -/
theorem startStream_runs (h : r.code e ≠ 0) : startStream r e = { Stream.reset e with
    run := .running, pc := r.code e &&& ~~~(3 : Word), tvec := r.tvec e &&& ~~~(3 : Word), npdef := BitVec.ofNat 64 r.npdef,
    status := setField (Stream.reset e).status 2 2 (if r.gauge then 1 else 0) } := by
  rw [startStream, if_neg h, alignPc_eq, setField_low_zero]

theorem startStream_user (h : r.code e ≠ 0) : (startStream r e).super = false ∧ (startStream r e).gauge = r.gauge := by
  rw [startStream_runs h, Stream.super, Stream.gauge]
  dsimp only
  cases r.gauge <;> cases e <;> decide

variable (k : Core) (j : Job) (tile : Memory)

theorem stream_startJob : ∃ R, (k.startJob r j tile).stream e = { startStream r e with regs := R } := by
  cases e
  · exact ⟨_, rfl⟩
  · exact ⟨(startStream r .x).regs, rfl⟩
  · exact ⟨(startStream r .m).regs, rfl⟩

theorem regs_startStream : (startStream r e).regs = [] := by
  rw [startStream]
  split <;> rfl

/-- The registers of a started job are 0, but the stack register of an A stream. -/
theorem reg_startJob (n : Nat) : ((k.startJob r j tile).stream e).reg n = if e = .a ∧ n = 30 ∧ r.code .a ≠ 0 then
    (if r.d 12 = 0 ∧ r.d 13 = 0 then 0x80000 else r.d 12) else 0 := by
  have hzero : ∀ t : Stream, t.regs = [] → t.reg n = 0 := by
    intro t ht
    rw [Stream.reg, ht]
    split <;> rfl
  have hstack : r.stack.1 = if r.d 12 = 0 ∧ r.d 13 = 0 then 0x80000 else r.d 12 := by
    rw [Rec.stack]
    simp only [Bool.and_eq_true, decide_eq_true_eq]
    split <;> rfl
  cases e with
  | x => exact (hzero _ regs_startStream).trans (if_neg (by simp)).symm
  | m => exact (hzero _ regs_startStream).trans (if_neg (by simp)).symm
  | a =>
    have ha : ((k.startJob r j tile).stream .a).regs = if r.code .a = 0 || r.stack.1 = 0 then [] else [(30, r.stack.1)] := rfl
    rw [← hstack]
    by_cases hnone : (r.code .a = 0 || decide (r.stack.1 = 0)) = true
    · rw [if_pos hnone] at ha
      rw [hzero _ ha]
      split
      · next h =>
        simp only [h.2.2, Bool.or_eq_true, decide_eq_true_eq, false_or] at hnone
        exact hnone.symm
      · rfl
    · rw [if_neg hnone] at ha
      simp only [Bool.or_eq_true, decide_eq_true_eq, not_or] at hnone
      rw [Stream.reg, ha]
      by_cases hn : n = 30
      · subst hn
        rw [if_pos (show Eng.a = Eng.a ∧ 30 = 30 ∧ r.code .a ≠ 0 from ⟨rfl, rfl, hnone.1⟩)]
        rfl
      · simp [tget, tfind, hn, Ne.symm hn]

theorem slim_startJob : (k.startJob r j tile).as.slim = if r.d 12 = 0 ∧ r.d 13 = 0 then 0x78000 else r.d 13 := by
  have hslim : (k.startJob r j tile).as.slim = r.stack.2 := rfl
  rw [hslim, Rec.stack]
  simp only [Bool.and_eq_true, decide_eq_true_eq]
  split <;> rfl

end

/-! ## The act of the dispatcher (R416) -/

section
variable {s : State} {record : Nat} {l : Launch}

theorem waveStart_of_find (h : s.launches.find? (fun x => x.record == record) = some l) :
    exec (.waveStart record) s = .next (waveOf s record l) := by
  show execWaveStart record s = _
  rw [execWaveStart, h]

theorem waveOf_idle (h : l.started = true ∨ s.whole record = false ∨ (s.lrec record).armed = false) : waveOf s record l = s := by
  rw [waveOf, if_pos]
  rcases h with h | h | h <;> simp [h]

/-- A launch on one die, whose dies are healthy, reads its images and starts once its cores are free. -/
theorem waveOf_alone (hstart : l.started = false) (hspread : l.spreads = false) (hlead : l.leader s = s.pkgId)
    (hwhole : s.whole record = true) (harm : (s.lrec record).armed = true) (hdie : l.dies.any s.dieFailed = false) :
    waveOf s record l = if !rangeFree s (l.cores.map Prod.fst) then s else startDies record l.dies (loadWave s record l) := by
  rw [waveOf, if_neg (by simp [hstart, hwhole, harm]), if_pos hlead, leadWave, if_pos (by simp [hspread]),
    if_neg (by simp [hdie])]

theorem rangeFree_iff {cores : List Nat} : rangeFree s cores = true ↔ ∀ c ∈ cores, (s.core c).job = none ∧ (s.core c).held = false := by
  simp [rangeFree]

/-- One die at most holds the cores of a launch that does not spread. -/
theorem dies_alone (hspread : l.spreads = false) : (l.dies = [] ∧ l.cores = []) ∨
    ∃ d, l.dies = [d] ∧ ∀ p ∈ l.cores, dieOf p.1 = d := by
  have hone : l.dies.length ≤ 1 := by
    rw [Launch.spreads, Bool.or_eq_false_iff] at hspread
    simpa using hspread.2
  have hin : ∀ p ∈ l.cores, dieOf p.1 ∈ l.dies := fun p hp =>
    (unitsAmong_spec 3 (l.cores.map Prod.fst) []).2.2 p.1 (List.mem_map_of_mem hp) (by simp)
  cases hd : l.dies with
  | nil =>
    refine .inl ⟨rfl, List.eq_nil_iff_forall_not_mem.mpr fun p hp => ?_⟩
    have h := hin p hp
    rw [hd] at h
    exact absurd h (by simp)
  | cons d t =>
    rw [hd] at hone
    have ht : t = [] := List.length_eq_zero_iff.mp (Nat.le_zero.mp (Nat.le_of_succ_le_succ hone))
    subst ht
    refine .inr ⟨d, rfl, fun p hp => ?_⟩
    have h := hin p hp
    rw [hd] at h
    exact List.mem_singleton.mp h

/-- The clusters of a launch that have no copy of its vault image yet. -/
def Launch.freshVaults (l : Launch) (cores : List Nat) : List Nat := (unitsAmong 2 cores []).filter (fun g => !l.vaulted.contains g)

theorem mem_freshVaults {cores : List Nat} {c : Nat} (hc : c ∈ cores) (hv : unitOf 2 c ∉ l.vaulted) :
    unitOf 2 c ∈ l.freshVaults cores :=
  List.mem_filter.mpr ⟨(unitsAmong_spec 2 cores []).2.2 c hc (by simp), by simp [hv]⟩

theorem freshVaults_none {cores : List Nat} (h : ∀ c ∈ cores, unitOf 2 c ∈ l.vaulted) : l.freshVaults cores = [] := by
  refine List.filter_eq_nil_iff.mpr fun g hg => ?_
  obtain ⟨c, hc, rfl⟩ := mem_unitsAmong hg
  simp [h c hc]

/-- A launch on one die whose images are read: its jobs start, and its clusters have their copies. -/
theorem startDies_alone {tile : Memory} {img : List Byte} (hl : s.launches.find? (fun l => l.record == record) = some l)
    (hload : l.loaded = some (tile, img)) (hbegun : l.begun = []) (hdone : l.done = []) (hwhole : s.whole record = true)
    (hnd : (l.cores.map Prod.fst).Nodup) (hspread : l.spreads = false) :
    ∃ u code, (u : State).mem = s.mem ∧
      (startDies record l.dies s).mem = (copyVault (s.lrec record) img (l.freshVaults (l.cores.map Prod.fst)) u).mem ∧
      (∀ c, c ∉ l.cores.map Prod.fst → (startDies record l.dies s).core c = s.core c) ∧
      ∀ p ∈ l.cores, (startDies record l.dies s).core p.1 = (s.core p.1).startJob (s.lrec record)
        ⟨record, (s.lrec record).ctx, inWave (s.lrec record) p.2 l.wave, s.localCount (clusterOf p.1), 0, false,
          (s.lrec record).engines, code⟩ tile := by
  rcases dies_alone hspread with ⟨hd, hc⟩ | ⟨d, hd, hall⟩
  · rw [hd, hc]
    exact ⟨s, [], rfl, rfl, fun _ _ => rfl, fun _ h => absurd h (by simp)⟩
  · obtain ⟨u, v, hu, hv, hmem, _, _, _, _, _, _, hout, hin⟩ := startDie_starts (d := d) hl hload (by rw [hbegun]; simp) hwhole hnd
    have hmine : (((l.waveCores (s.lrec record)).filter (fun p => dieOf p.1 == d && !l.done.contains p.1)).map Prod.fst) =
        l.cores.map Prod.fst := by
      rw [List.filter_eq_self.mpr, Launch.waveCores, List.map_map]
      · rfl
      · intro q hq
        obtain ⟨p, hp, rfl⟩ := List.mem_map.mp hq
        simp [hall p hp, hdone]
    rw [hmine] at hu
    rw [hd]
    refine ⟨if l.wave = 0 && l.begun.isEmpty then clearIntervals s record (s.lrec record).ctx (l.cores.map Prod.fst) else s, u.mem,
      ?_, ?_, fun c hc => ?_, fun p hp => ?_⟩
    · split <;> rfl
    · rw [startDies, startDies, hv, hmem, hu]
      rfl
    · rw [startDies, startDies, hv]
      exact hout c (.inl hc)
    · rw [startDies, startDies, hv]
      exact hin p hp (hall p hp) (by rw [hdone]; simp)

end

/-- Settles O50: the images are read with nothing but counts changed; a launch on one die then starts its jobs, and one that cannot read
them ends its wave. -/
theorem wavesStart : Obligations.WavesStart := by
  unfold Obligations.WavesStart
  intro s record l hl
  have hexec := waveStart_of_find hl
  refine ⟨fun h => by rw [hexec, waveOf_idle h], fun hstart hspread hlead hwhole harm hdie hload hbegun hdone => ⟨fun hbusy => ?_,
    fun hfree hnd => ⟨fun s1 hwait => ?_, fun cause va s2 hbad hopen => ?_, fun sec s1 img s2 h1 h2 => ?_⟩⟩⟩
  · rw [hexec, waveOf_alone hstart hspread hlead hwhole harm hdie, if_pos]
    obtain ⟨p, hp, hb⟩ := hbusy
    rw [Bool.not_eq_true', Bool.eq_false_iff]
    intro hfree
    obtain ⟨hj, hh⟩ := rangeFree_iff.mp hfree p.1 (List.mem_map_of_mem hp)
    exact hb.elim (fun h => h hj) (fun h => absurd (h.symm.trans hh) (by simp))
  all_goals
    have hrange : rangeFree s (l.cores.map Prod.fst) = true := rangeFree_iff.mpr fun c hc => by
      obtain ⟨p, hp, rfl⟩ := List.mem_map.mp hc
      exact hfree p hp
    have hact := (waveOf_alone hstart hspread hlead hwhole harm hdie).trans (if_neg (by simp [hrange]))
    rw [hact] at hexec
  · have hwave : loadWave s record l = s1 := by
      rw [loadWave, if_neg (by simp [hload])]
      dsimp only
      rw [hwait]
    rw [hwave, startDies_unread (unread_of_find ((congrArg _ (loadImage_waits hwait)).trans hl) hload)] at hexec
    exact hexec
  · obtain ⟨v, hv, C, hC⟩ : ∃ v, loadWave s record l = failWave v l cause va ∧ ∃ C, v = dropReqs { s with counters := C } (.image record) := by
      refine ⟨dropReqs s2 (.image record), ?_, ?_⟩
      · rw [loadWave, if_neg (by simp [hload])]
        dsimp only
        rcases hbad with hbad | ⟨sec, s1, h1, h2⟩
        · rw [hbad]
        · rw [h1]
          dsimp only
          rw [h2]
      · rcases hbad with hbad | ⟨sec, s1, h1, h2⟩
        · obtain ⟨C, hC⟩ := loadImage_bad hbad
          exact ⟨C, by rw [hC]⟩
        · obtain ⟨C, hC⟩ := loadImage_ok h1
          obtain ⟨C', hC'⟩ := loadImage_bad h2
          exact ⟨C', by rw [hC', hC]⟩
    have hjob : ∀ p ∈ l.cores, (v.core p.1).job = none := fun p hp => by
      rw [hC]
      exact (hfree p hp).1
    obtain ⟨hunread, hkeeps, hbeside, hempty, htold⟩ := failWave_fails (s := v) (cause := cause) (va := va) (by rw [hC]; exact hl) hload
      (by rw [hC]; exact harm) hspread (by rw [hC]; exact hopen) hjob
    rw [hv, startDies_unread hunread] at hexec
    refine ⟨_, hexec, ?_, fun c => ?_, hempty, ?_⟩
    · rw [hkeeps.mem, hC]
      rfl
    · obtain ⟨h, hh⟩ := hbeside.core c
      rw [hh, hC]
      rfl
    · rw [hC] at htold ⊢
      exact htold
  · obtain ⟨C, hC⟩ := loadImage_ok h1
    obtain ⟨C', hC'⟩ := loadImage_ok h2
    obtain ⟨F, hF⟩ : ∃ F : Launch → Launch, F = fun m => { m with loaded := some (tileImage (s.lrec record) sec, img) } := ⟨_, rfl⟩
    obtain ⟨v, hv⟩ : ∃ v, v = dropReqs (s2.mapLaunch record F) (.image record) := ⟨_, rfl⟩
    have hwave : loadWave s record l = v := by rw [loadWave_loads hload h1 h2, hv, hF]
    have hs2 : s2 = { s with counters := C' } := by rw [hC', hC]
    have hfind : v.launches.find? (fun x => x.record == record) = some (F l) := by
      rw [hv]
      exact find_mapLaunch (f := F) (fun _ => by rw [hF]) (by rw [hs2]; exact hl)
    have hFl : F l = { l with loaded := some (tileImage (s.lrec record) sec, img) } := by rw [hF]
    rw [hFl] at hfind
    obtain ⟨u, code, hu, hmem, hout, hin⟩ := startDies_alone hfind rfl hbegun hdone (by rw [hv, hs2]; exact hwhole) hnd hspread
    have hvs : v.mem = s.mem ∧ v.lrec record = s.lrec record ∧ (∀ c, v.core c = s.core c) ∧ ∀ g, v.localCount g = s.localCount g := by
      rw [hv, hs2]
      exact ⟨rfl, rfl, fun _ => rfl, fun _ => rfl⟩
    obtain ⟨hvmem, hvrec, hvcore, hvcount⟩ := hvs
    rw [hvrec] at hmem
    rw [hwave] at hexec
    refine ⟨_, hexec, fun h => ?_, fun p hp hvault hfit hwf i hi => ?_, fun d hd => (hout d hd).trans (hvcore d), fun p hp => ?_⟩
    · refine hmem.trans ?_
      rcases h with h | h
      · rw [h, copyVault_empty, hu, hvmem]
      · have hnone : Launch.freshVaults { l with loaded := some (tileImage (s.lrec record) sec, img) } (l.cores.map Prod.fst) = [] :=
          freshVaults_none fun c hc => by
            obtain ⟨p, hp, rfl⟩ := List.mem_map.mp hc
            exact h p hp
        rw [hnone]
        exact hu.trans hvmem
    · refine (congrArg (fun m => readB m _) hmem).trans ?_
      refine (readB_copyVault _ img hi hfit _ u (by rw [hu, hvmem]; exact hwf)).trans (if_pos ?_)
      exact mem_freshVaults (List.mem_map_of_mem hp) hvault
    · obtain ⟨j, hj⟩ : ∃ j : Job, j = ⟨record, (s.lrec record).ctx, inWave (s.lrec record) p.2 l.wave, s.localCount (clusterOf p.1), 0,
        false, (s.lrec record).engines, code⟩ := ⟨_, rfl⟩
      have hcore := hin p hp
      rw [hvrec, hvcore, hvcount] at hcore
      have hcore' : (startDies record l.dies v).core p.1 = (s.core p.1).startJob (s.lrec record) j (tileImage (s.lrec record) sec) :=
        hcore.trans (congrArg (fun j => (s.core p.1).startJob (s.lrec record) j (tileImage (s.lrec record) sec)) hj.symm)
      refine ⟨j, ?_⟩
      dsimp only
      rw [hcore']
      refine ⟨rfl, by rw [hj], by rw [hj], by rw [hj], by rw [hj], rfl, rfl, rfl, rfl, rfl, rfl, rfl, rfl, rfl, slim_startJob _ _ _,
        fun e n => reg_startJob _ _ _ n, fun e he => ?_, fun e he => ?_⟩
      · obtain ⟨R, hR⟩ := stream_startJob (r := s.lrec record) (e := e) (s.core p.1) j (tileImage (s.lrec record) sec)
        rw [hR, startStream_none he]
        rfl
      · obtain ⟨R, hR⟩ := stream_startJob (r := s.lrec record) (e := e) (s.core p.1) j (tileImage (s.lrec record) sec)
        obtain ⟨hsuper, hgauge⟩ := startStream_user he
        rw [hR]
        refine ⟨?_, ?_, hsuper, hgauge, ?_⟩
        · rw [startStream_runs he]
        · rw [startStream_runs he]
        · rw [startStream_runs he]
          exact ⟨rfl, rfl, rfl, rfl, rfl, rfl, rfl⟩

end Sys2Proof.Machine
end

section
/-! SUPPORT. Saving the jobs of a launch and restoring them: what becomes of the cores, of memory and of the lifelines (R420 to R422). -/

namespace Sys2Proof.Machine

/-! ## The streams of a core stop (R420) -/

/-- A stream that stops keeps its registers. -/
theorem regs_saved (t : Stream) : t.saved.regs = t.regs := by
  obtain ⟨run, pc, status, cause, epc, tval, tvec, tscr, qflags, npdef, dph, regs, empty, loops, pend, late, taken, at_, stood, wants⟩ := t
  cases at_ <;> rfl

/-- A core without the slot that a PASS toward M has reserved and not used. -/
def passSlots (k : Core) : Core := match k.a.at_ with | .pass .. => k.unreserve (giveFifos .a 2) | _ => k

theorem passSlots_eq (k : Core) : ∃ R, passSlots k = { k with reserved := R } := by
  obtain ⟨T, hT, _⟩ := unreserve_eq (giveFifos .a 2) k
  rw [passSlots]
  split
  · exact ⟨T, hT⟩
  · exact ⟨k.reserved, rfl⟩

section
variable {s t u : State} {c : Nat}

/-- What the streams of a core stand at is forgotten; of the package only the waiters and the core's requests change. -/
theorem unissue_eq (s : State) (c : Nat) : ∃ E Q R, unissue s c = ({ s with entries := E, requests := Q }).setCore c { s.core c with
    reserved := R, a := (s.core c).a.saved, x := (s.core c).x.saved, m := (s.core c).m.saved } := by
  obtain ⟨R, hR⟩ := passSlots_eq (s.core c)
  have hun : unissue s c = (dropReqs (dropReqs (dropReqs (unwait s c) (.instr c .a)) (.instr c .x)) (.instr c .m)).setCore c
      { passSlots (s.core c) with
        a := (passSlots (s.core c)).a.saved, x := (passSlots (s.core c)).x.saved, m := (passSlots (s.core c)).m.saved } := rfl
  exact ⟨(unwait s c).entries, _, R, by rw [hun, hR]; rfl⟩

/-- Cores whose streams stop keep all else; of the package only the waiters and requests change. -/
theorem unissueAll_spec : ∀ (cs : List Nat) (s : State), (∃ E Q C, unissueAll cs s = { s with entries := E, requests := Q, cores := C }) ∧
    (∀ c, ∃ R a x m, (unissueAll cs s).core c = { s.core c with reserved := R, a := a, x := x, m := m } ∧ a.regs = (s.core c).a.regs) ∧
    ∀ c, c ∉ cs → (unissueAll cs s).core c = s.core c
  | [], s => ⟨⟨s.entries, s.requests, s.cores, rfl⟩,
      fun c => ⟨(s.core c).reserved, (s.core c).a, (s.core c).x, (s.core c).m, rfl, rfl⟩, fun _ _ => rfl⟩
  | d :: t, s => by
    obtain ⟨E, Q, R, hun⟩ := unissue_eq s d
    obtain ⟨⟨E', Q', C', hframe⟩, hall, hout⟩ := unissueAll_spec t (unissue s d)
    refine ⟨⟨E', Q', C', by rw [unissueAll, hframe, hun]; rfl⟩, fun c => ?_, fun c hc => ?_⟩
    · obtain ⟨R', a, x, m, hc, hregs⟩ := hall c
      rw [unissueAll, hc]
      by_cases hd : c = d
      · subst hd
        rw [hun, State.core_setCore_self] at hregs ⊢
        exact ⟨R', a, x, m, rfl, hregs.trans (regs_saved _)⟩
      · rw [hun, State.core_setCore_ne _ _ hd] at hregs ⊢
        exact ⟨R', a, x, m, rfl, hregs⟩
    · obtain ⟨hd, ht⟩ := not_or.mp (mt List.mem_cons.mpr hc)
      rw [unissueAll, hout c ht, hun]
      exact State.core_setCore_ne _ _ hd

/-! ## The writes to saved jobs, and the cores left (R420, R421) -/

theorem takeMail_spec (cs : List Nat) : ∀ (l : List Nat) (s : State), (∃ C, takeMail cs l s = { s with cores := C }) ∧
    ∀ c, ∃ o, (takeMail cs l s).core c = { s.core c with outbound := o }
  | [], s => ⟨⟨s.cores, rfl⟩, fun c => ⟨(s.core c).outbound, rfl⟩⟩
  | d :: t, s => by
    obtain ⟨⟨C, hC⟩, hall⟩ := takeMail_spec cs t (s.setCore d { s.core d with
      outbound := (s.core d).outbound.filter (fun m => !goesTo s cs m) })
    refine ⟨⟨C, hC.trans rfl⟩, fun c => ?_⟩
    obtain ⟨o, ho⟩ := hall c
    rw [takeMail]
    dsimp only
    rw [ho]
    by_cases hd : c = d
    · subst hd
      rw [State.core_setCore_self]
      exact ⟨o, rfl⟩
    · rw [State.core_setCore_ne _ _ hd]
      exact ⟨o, rfl⟩

/-- Cores whose jobs are saved have none and hold no write; the others are as they were. -/
theorem leaveCores_spec : ∀ (l : List Nat) (s : State), (∃ C, leaveCores l s = { s with cores := C }) ∧
    (∀ c ∈ l, ((leaveCores l s).core c).job = none) ∧ (∀ c, (s.core c).job = none → ((leaveCores l s).core c).job = none) ∧
    ∀ c, c ∉ l → (leaveCores l s).core c = s.core c
  | [], s => ⟨⟨s.cores, rfl⟩, fun _ h => absurd h (by simp), fun _ h => h, fun _ _ => rfl⟩
  | d :: t, s => by
    obtain ⟨⟨C, hC⟩, hin, hnone, hout⟩ := leaveCores_spec t (s.setCore d (leftCore (s.core d)))
    refine ⟨⟨C, hC.trans rfl⟩, fun c hc => ?_, fun c hj => ?_, fun c hc => ?_⟩
    · by_cases ht : c ∈ t
      · exact hin c ht
      · refine hnone c ?_
        rw [(List.mem_cons.mp hc).resolve_right ht, State.core_setCore_self]
        rfl
    · refine hnone c ?_
      by_cases hd : c = d
      · subst hd
        rw [State.core_setCore_self]
        rfl
      · rw [State.core_setCore_ne _ _ hd]
        exact hj
    · obtain ⟨hd, ht⟩ := not_or.mp (mt List.mem_cons.mpr hc)
      exact (hout c ht).trans (State.core_setCore_ne _ _ hd)

/-- A launch's jobs pause or go on: only their records change, and a core without a job stays so. -/
theorem pauseCores_spec (record : Nat) (stop : Bool) : ∀ (l : List Nat) (s : State),
    (∃ C, pauseCores record stop l s = { s with cores := C }) ∧
    ∀ c, ∃ j, (pauseCores record stop l s).core c = { s.core c with job := j } ∧ ((s.core c).job = none → j = none)
  | [], s => ⟨⟨s.cores, rfl⟩, fun c => ⟨(s.core c).job, rfl, id⟩⟩
  | d :: t, s => by
    obtain ⟨u, hu⟩ : ∃ u, u = (match (s.core d).job with
      | some j =>
        if j.record = record && j.paused != stop then
          s.setCore d { s.core d with job := some { j with
            paused := stop, credit := s.jobCount d, start := s.localCount (clusterOf d) } }
        else s
      | none => s) := ⟨_, rfl⟩
    have hframe : ∃ C, u = { s with cores := C } := by
      rw [hu]
      split
      · split
        · exact ⟨_, rfl⟩
        · exact ⟨s.cores, rfl⟩
      · exact ⟨s.cores, rfl⟩
    have hcore : ∀ c, ∃ j, u.core c = { s.core c with job := j } ∧ ((s.core c).job = none → j = none) := by
      intro c
      rw [hu]
      split
      · next j hj =>
        split
        · by_cases hd : c = d
          · subst hd
            rw [State.core_setCore_self]
            exact ⟨_, rfl, fun h => absurd (hj.symm.trans h) (by simp)⟩
          · rw [State.core_setCore_ne _ _ hd]
            exact ⟨(s.core c).job, rfl, id⟩
        · exact ⟨(s.core c).job, rfl, id⟩
      · exact ⟨(s.core c).job, rfl, id⟩
    have hstep : pauseCores record stop (d :: t) s = pauseCores record stop t u := by rw [hu]; rfl
    obtain ⟨C, hC⟩ := hframe
    obtain ⟨⟨C', hC'⟩, hall⟩ := pauseCores_spec record stop t u
    rw [hstep]
    refine ⟨⟨C', by rw [hC', hC]⟩, fun c => ?_⟩
    obtain ⟨j, hj, hjn⟩ := hcore c
    obtain ⟨j', hj', hjn'⟩ := hall c
    rw [hj] at hj' hjn'
    exact ⟨j', hj', fun h => hjn' (hjn h)⟩

/-! ## A launch is saved (R420) -/

/-- Jobs of cores among `cs` were saved: they have none; other cores keep all but their ports, the writes held for them and the record of
their job. Memory and the launch records are as they were. -/
structure Leaves (cs : List Nat) (s t : State) : Prop where
  mem : t.mem = s.mem
  recs : t.recs = s.recs
  none : ∀ c, (s.core c).job = none → (t.core c).job = none
  other : ∀ c, c ∉ cs → ∃ o h j, t.core c = { s.core c with outbound := o, holding := h, job := j }

theorem Leaves.trans {cs : List Nat} (h1 : Leaves cs s t) (h2 : Leaves cs t u) : Leaves cs s u := by
  refine ⟨h2.mem.trans h1.mem, h2.recs.trans h1.recs, fun c h => h2.none c (h1.none c h), fun c hc => ?_⟩
  obtain ⟨o, h, j, hcore⟩ := h1.other c hc
  obtain ⟨o', h', j', hcore'⟩ := h2.other c hc
  exact ⟨o', h', j', by rw [hcore', hcore]⟩

theorem Leaves.mono {cs ds : List Nat} (h : Leaves cs s t) (hsub : ∀ c ∈ cs, c ∈ ds) : Leaves ds s t :=
  ⟨h.mem, h.recs, h.none, fun c hc => h.other c (mt (hsub c) hc)⟩

theorem Leaves.refl (cs : List Nat) (s : State) : Leaves cs s s := ⟨rfl, rfl, fun _ h => h, fun c _ => ⟨_, _, _, rfl⟩⟩

theorem Leaves.of_unissueAll (cs : List Nat) (s : State) : Leaves cs s (unissueAll cs s) := by
  obtain ⟨⟨E, Q, C, h⟩, hall, hout⟩ := unissueAll_spec cs s
  refine ⟨by rw [h], by rw [h], fun c hj => ?_, fun c hc => ?_⟩
  · obtain ⟨R, a, x, m, hcore, _⟩ := hall c
    rw [hcore]
    exact hj
  · rw [hout c hc]
    exact ⟨_, _, _, rfl⟩

theorem Leaves.of_forgetLaunch (s : State) (r : Nat) : Leaves [] s (forgetLaunch s r) := by
  have hbeside := Beside.of_forgetLaunch s r
  refine ⟨(Keeps.of_forgetLaunch s r).mem, (dropHeld_rest _ _).2.1, fun c hj => ?_, fun c _ => ?_⟩
  · obtain ⟨h, hh⟩ := hbeside.core c
    rw [hh]
    exact hj
  · obtain ⟨h, hh⟩ := hbeside.core c
    exact ⟨(s.core c).outbound, h, (s.core c).job, hh⟩

theorem Leaves.of_pauseCores (record : Nat) (stop : Bool) (l : List Nat) (s : State) : Leaves [] s (pauseCores record stop l s) := by
  obtain ⟨⟨C, h⟩, hall⟩ := pauseCores_spec record stop l s
  refine ⟨by rw [h], by rw [h], fun c hj => ?_, fun c _ => ?_⟩
  · obtain ⟨j, hcore, hnone⟩ := hall c
    rw [hcore]
    exact hnone hj
  · obtain ⟨j, hcore, _⟩ := hall c
    exact ⟨(s.core c).outbound, (s.core c).holding, j, hcore⟩

/-- The lifeline that a save leaves. -/
def savedLife (s : State) (l : Launch) (cs : List Nat) (image : Option (List Byte)) (saved : Nat) : Lifeline :=
  ⟨l, cs.map (fun c => (c, savedCore (unissueAll cs s) c)), mailFor (unissueAll cs s) l cs,
    cs.map (fun c => (c, (unissueAll cs s).interval c)), (s.lrec l.record).ctx, image, saved, none⟩

/-- The state in which the jobs of a launch have left their cores. -/
theorem saveLaunch_leaves (s : State) (l : Launch) (cs : List Nat) (image : Option (List Byte)) (saved : Nat) :
    ∃ v, saveLaunch s l cs image saved = (if l.cores.any (fun p => v.occupies l p.1)
        then pauseCores l.record true (l.cores.map Prod.fst) v else forgetLaunch v l.record) ∧
      Leaves cs s v ∧ (∀ c ∈ cs, (v.core c).job = none) ∧ v.lifelines = s.lifelines ++ [savedLife s l cs image saved] ∧
      v.launches = s.launches := by
  obtain ⟨⟨E, Q, C, hun⟩, _, _⟩ := unissueAll_spec cs s
  have hrec : (unissueAll cs s).lrec l.record = s.lrec l.record := by rw [hun]; rfl
  obtain ⟨I, hI⟩ : ∃ I, I = (unissueAll cs s).inbound.filter (fun m => !(goesTo (unissueAll cs s) cs m && m.launch == l.record)) :=
    ⟨_, rfl⟩
  obtain ⟨⟨C1, h1⟩, hmail⟩ := takeMail_spec cs (l.cores.map Prod.fst) { unissueAll cs s with inbound := I }
  obtain ⟨L, hL⟩ : ∃ L, L = (takeMail cs (l.cores.map Prod.fst) { unissueAll cs s with inbound := I }).lifelines ++
    [savedLife s l cs image saved] := ⟨_, rfl⟩
  obtain ⟨⟨C2, h2⟩, hin, hnone, hout⟩ := leaveCores_spec cs
    { takeMail cs (l.cores.map Prod.fst) { unissueAll cs s with inbound := I } with lifelines := L }
  refine ⟨_, ?_, (Leaves.of_unissueAll cs s).trans ⟨?_, ?_, fun c hj => hnone c ?_, fun c hc => ?_⟩, hin, ?_, ?_⟩
  · rw [hL, hI, savedLife, ← hrec]
    rfl
  · rw [h2, h1]
  · rw [h2, h1]
  · obtain ⟨o, ho⟩ := hmail c
    refine (congrArg Core.job (ho : _)).trans ?_
    exact hj
  · obtain ⟨o, ho⟩ := hmail c
    exact ⟨o, ((unissueAll cs s).core c).holding, ((unissueAll cs s).core c).job, (hout c hc).trans ho⟩
  · rw [h2, hL, h1, hun]
  · rw [h2, h1, hun]

/-- A save leaves the cores without their jobs and one lifeline more. -/
theorem saveLaunch_saves (s : State) (l : Launch) (cs : List Nat) (image : Option (List Byte)) (saved : Nat) :
    Leaves cs s (saveLaunch s l cs image saved) ∧ (∀ c ∈ cs, ((saveLaunch s l cs image saved).core c).job = none) ∧
      (saveLaunch s l cs image saved).lifelines = s.lifelines ++ [savedLife s l cs image saved] := by
  obtain ⟨v, hv, hleaves, hjob, hlife, _⟩ := saveLaunch_leaves s l cs image saved
  rw [hv]
  split
  · have hpause := Leaves.of_pauseCores l.record true (l.cores.map Prod.fst) v
    obtain ⟨⟨C, hC⟩, _⟩ := pauseCores_spec l.record true (l.cores.map Prod.fst) v
    exact ⟨hleaves.trans (hpause.mono (by simp)), fun c hc => hpause.none c (hjob c hc), by rw [hC]; exact hlife⟩
  · have hforget := Leaves.of_forgetLaunch v l.record
    exact ⟨hleaves.trans (hforget.mono (by simp)), fun c hc => hforget.none c (hjob c hc),
      (Keeps.of_forgetLaunch v l.record).lifelines.trans hlife⟩

end

end Sys2Proof.Machine
end

section
/-! SUPPORT. A saved launch stands on its cores again (R422). -/

namespace Sys2Proof.Machine

theorem moveCore_zero (c : Nat) : moveCore 0 0 c = c := by
  rw [moveCore, shiftCore]
  split
  · next h =>
    simp only [coreX, coreY, Int.add_zero, Option.getD_some, Int.toNat_natCast]
    omega
  · rfl

theorem map_moveCore_zero (f : Lifeline) : f.cores.map (fun p => moveCore 0 0 p.1) = f.cores.map Prod.fst :=
  List.map_congr_left fun p _ => moveCore_zero p.1

section
variable {s : State} {f : Lifeline}

/-- Saved cores are put back where they were: with their port, what their cluster caches, and the count of their jobs of this time. -/
theorem restoreCores_spec (l : Launch) : ∀ (ps : List (Nat × Core)) (s : State), (ps.map Prod.fst).Nodup →
    (∃ C, restoreCores l 0 0 ps s = { s with cores := C }) ∧
    (∀ c, c ∉ ps.map Prod.fst → (restoreCores l 0 0 ps s).core c = s.core c) ∧
    ∀ p ∈ ps, ∃ j o h g n, (restoreCores l 0 0 ps s).core p.1 =
      { p.2 with job := j, outbound := o, holding := h, gtlb := g, nextId := n }
  | [], s, _ => ⟨⟨s.cores, rfl⟩, fun _ _ => rfl, fun _ h => absurd h (by simp)⟩
  | (c, k) :: t, s, hnd => by
    obtain ⟨hc, hnd⟩ := List.nodup_cons.mp hnd
    obtain ⟨K, hK⟩ : ∃ K : Core, K = { k with
      job := k.job.map (fun j => { j with start := s.localCount (clusterOf c) }),
      outbound := (s.core c).outbound, holding := k.holding.map (shiftMail s l 0 0) ++ (s.core c).holding, gtlb := (s.core c).gtlb,
      nextId := max k.nextId (s.core c).nextId } := ⟨_, rfl⟩
    have hstep : restoreCores l 0 0 ((c, k) :: t) s = restoreCores l 0 0 t (s.setCore c K) := by
      rw [restoreCores, moveCore_zero, hK]
    obtain ⟨⟨C, hC⟩, hout, hin⟩ := restoreCores_spec l t (s.setCore c K) hnd
    rw [hstep]
    refine ⟨⟨C, hC.trans rfl⟩, fun e he => ?_, fun p hp => ?_⟩
    · simp only [List.map_cons, List.mem_cons, not_or] at he
      exact (hout e he.2).trans (State.core_setCore_ne _ _ he.1)
    · rcases List.mem_cons.mp hp with rfl | hp
      · refine ⟨_, _, _, _, _, (hout c hc).trans ((State.core_setCore_self _ _ _).trans hK)⟩
      · exact hin p hp

theorem restoreIntervals_frame (record ctx : Nat) : ∀ (l : List (Nat × Nat)) (s : State),
    ∃ I, restoreIntervals record ctx 0 0 l s = { s with intervals := I }
  | [], s => ⟨s.intervals, rfl⟩
  | (c, n) :: t, s => by
    obtain ⟨u, hu⟩ : ∃ u, u = (if unitBusy s record ctx (unitOf (s.ctx ctx).mscopeCode (moveCore 0 0 c)) then s
      else { s with intervals := tset s.intervals (intervalKey ctx (s.ctx ctx).mscopeCode
        (unitOf (s.ctx ctx).mscopeCode (moveCore 0 0 c))) n }) := ⟨_, rfl⟩
    have hframe : ∃ I, u = { s with intervals := I } := by
      rw [hu]
      split
      · exact ⟨s.intervals, rfl⟩
      · exact ⟨_, rfl⟩
    obtain ⟨I, hI⟩ := hframe
    obtain ⟨I', hI'⟩ := restoreIntervals_frame record ctx t u
    have hstep : restoreIntervals record ctx 0 0 ((c, n) :: t) s = restoreIntervals record ctx 0 0 t u := by rw [hu]; rfl
    exact ⟨I', by rw [hstep, hI', hI]⟩

/-- The parts of other launches do not follow. -/
theorem followShift_other {g : Lifeline} (h : g.launch.record ≠ f.launch.record) : followShift f 0 0 g = g := by
  rw [followShift, if_pos (by simp [h])]

/-- Of a launch that is saved in one part no lifeline is left. -/
theorem restored_lifelines (honly : ∀ g ∈ s.lifelines, g.launch.record = f.launch.record → g = f) :
    (s.lifelines.filter (fun g => g != f)).map (followShift f 0 0) =
      s.lifelines.filter (fun g => g.launch.record != f.launch.record) := by
  have hfilter : s.lifelines.filter (fun g => g != f) = s.lifelines.filter (fun g => g.launch.record != f.launch.record) := by
    refine List.filter_congr fun g hg => ?_
    rw [Bool.eq_iff_iff, bne_iff_ne, bne_iff_ne]
    exact ⟨fun hne h => hne (honly g hg h), fun hne h => hne (congrArg (fun g : Lifeline => g.launch.record) h)⟩
  rw [hfilter]
  refine (List.map_congr_left fun g hg => ?_).trans (List.map_id _)
  exact followShift_other (bne_iff_ne.mp (List.mem_filter.mp hg).2)

/-- A launch is joined by a restored part, or runs again with it. -/
def rejoined (s : State) (l : Launch) : State :=
  if s.launches.any (fun m => m.record == l.record) then s.mapLaunch l.record (fun m => m.join l) else { s with launches := s.launches ++ [l] }

/-- The jobs of a launch go on once no part of it is saved. -/
def resumed (s : State) (record : Nat) : State :=
  match s.launches.find? (fun m => m.record == record) with
  | some m => pauseCores record (!s.whole record) (m.cores.map Prod.fst) s
  | none => s

/-- The cores of a restored launch with their saved state. -/
def putCores (s : State) (f : Lifeline) (dx dy : Int) : State :=
  restoreCores f.launch dx dy f.cores { s with lifelines := (s.lifelines.filter (fun g => g != f)).map (followShift f dx dy) }

/-- The jobs of a restored launch once its cores have their saved state. -/
def setGoing (f : Lifeline) (dx dy : Int) (fresh : List Nat) (s : State) : State :=
  joinDomain f.ctx (unitsAmong 2 (f.cores.map (fun p => moveCore dx dy p.1)) []) (resumed (restoreIntervals f.launch.record f.ctx dx dy
    f.intervals ((rejoined s (shiftLaunch f.launch dx dy)).mapLaunch f.launch.record (fun m => { m with vaulted := m.vaulted ++ fresh })))
    f.launch.record)

/-- The clusters that have had the vault image of a restored launch. -/
def hadVault (s : State) (f : Lifeline) (dx dy : Int) : List Nat :=
  match s.launches.find? (fun m => m.record == f.launch.record) with
  | some m => m.vaulted
  | none => (shiftLaunch f.launch dx dy).vaulted

/-- The vault image goes to clusters that had none; where all had, the launch goes on at once. -/
theorem restoreAt_had {dx dy : Int} (haway : s.launches.find? (fun m => m.record == f.launch.record) = none)
    (hfresh : (unitsAmong 2 (f.cores.map (fun p => moveCore dx dy p.1)) []).filter (fun g => !f.launch.vaulted.contains g) = []) :
    restoreAt s f dx dy = .ok { setGoing f dx dy [] (putCores s f dx dy) with
      inbound := f.mail.map (shiftMail s f.launch dx dy) ++ (setGoing f dx dy [] (putCores s f dx dy)).inbound } := by
  obtain ⟨F, hF⟩ : ∃ F, F = (unitsAmong 2 (f.cores.map (fun p => moveCore dx dy p.1)) []).filter (fun g =>
    !(hadVault s f dx dy).contains g) := ⟨_, rfl⟩
  have hnone : F = [] := by
    rw [hF, hadVault, haway]
    exact hfresh
  have hput : ∃ e, restoreAt s f dx dy = if F.isEmpty then .ok { setGoing f dx dy F (putCores s f dx dy) with
      inbound := f.mail.map (shiftMail s f.launch dx dy) ++ (setGoing f dx dy F (putCores s f dx dy)).inbound } else e := by
    rw [hF]
    exact ⟨_, rfl⟩
  obtain ⟨e, he⟩ := hput
  rw [he, hnone]
  rfl

/-- Restored cores have what was saved of them; the launch runs, and its jobs go on. -/
theorem putCores_spec (hnd : (f.cores.map Prod.fst).Nodup) (honly : ∀ g ∈ s.lifelines, g.launch.record = f.launch.record → g = f) :
    (∃ C, putCores s f 0 0 = { s with
      cores := C, lifelines := s.lifelines.filter (fun g => g.launch.record != f.launch.record) }) ∧
    (∀ c, c ∉ f.cores.map Prod.fst → (putCores s f 0 0).core c = s.core c) ∧
    ∀ p ∈ f.cores, ∃ j o h g n, (putCores s f 0 0).core p.1 =
      { p.2 with job := j, outbound := o, holding := h, gtlb := g, nextId := n } := by
  rw [putCores, restored_lifelines honly]
  obtain ⟨⟨C, h⟩, hout, hin⟩ := restoreCores_spec f.launch f.cores
    { s with lifelines := s.lifelines.filter (fun g => g.launch.record != f.launch.record) } hnd
  exact ⟨⟨C, h⟩, hout, hin⟩

theorem resumed_spec (s : State) (record : Nat) : (∃ C, resumed s record = { s with cores := C }) ∧
    ∀ c, ∃ j, (resumed s record).core c = { s.core c with job := j } := by
  rw [resumed]
  split
  · next m _ =>
    obtain ⟨hC, hall⟩ := pauseCores_spec record (!s.whole record) (m.cores.map Prod.fst) s
    exact ⟨hC, fun c => (hall c).imp fun _ h => h.1⟩
  · exact ⟨⟨s.cores, rfl⟩, fun c => ⟨(s.core c).job, rfl⟩⟩

theorem setGoing_spec (haway : ∀ l ∈ s.launches, l.record ≠ f.launch.record) :
    (setGoing f 0 0 [] s).mem = s.mem ∧ (setGoing f 0 0 [] s).lifelines = s.lifelines ∧
    (∃ l ∈ (setGoing f 0 0 [] s).launches, l.record = f.launch.record ∧ l.wave = f.launch.wave) ∧
    ∀ c, ∃ j, (setGoing f 0 0 [] s).core c = { s.core c with job := j } := by
  obtain ⟨l, hl⟩ : ∃ l, l = shiftLaunch f.launch 0 0 := ⟨_, rfl⟩
  have hrec : l.record = f.launch.record := by rw [hl]; rfl
  have hwave : l.wave = f.launch.wave := by rw [hl]; rfl
  have hrun : rejoined s l = { s with launches := s.launches ++ [l] } := by
    rw [rejoined, if_neg]
    rw [Bool.not_eq_true, List.any_eq_false, hrec]
    exact fun m hm => by simpa using haway m hm
  obtain ⟨u, hu⟩ : ∃ u, u = (rejoined s l).mapLaunch f.launch.record (fun m => { m with vaulted := m.vaulted ++ [] }) := ⟨_, rfl⟩
  have huLaunch : ∃ m ∈ u.launches, m.record = f.launch.record ∧ m.wave = f.launch.wave := by
    refine ⟨{ l with vaulted := l.vaulted ++ [] }, ?_, hrec, hwave⟩
    rw [hu, hrun]
    exact List.mem_map.mpr ⟨l, List.mem_append_right _ (List.mem_singleton.mpr rfl), if_pos (by simp [hrec])⟩
  have huFrame : u.mem = s.mem ∧ u.lifelines = s.lifelines ∧ ∀ c, u.core c = s.core c := by
    rw [hu, hrun]
    exact ⟨rfl, rfl, fun _ => rfl⟩
  obtain ⟨humem, hulife, hucore⟩ := huFrame
  obtain ⟨I, hI⟩ := restoreIntervals_frame f.launch.record f.ctx f.intervals u
  obtain ⟨v, hv⟩ : ∃ v, v = restoreIntervals f.launch.record f.ctx 0 0 f.intervals u := ⟨_, rfl⟩
  rw [← hv] at hI
  obtain ⟨⟨C, hC⟩, hjobs⟩ := resumed_spec v f.launch.record
  obtain ⟨x, hx⟩ : ∃ x, x = resumed v f.launch.record := ⟨_, rfl⟩
  rw [← hx] at hC hjobs
  obtain ⟨K, hK, _⟩ := joinDomain_frame f.ctx (unitsAmong 2 (f.cores.map (fun p => moveCore 0 0 p.1)) []) x
  have hgo : setGoing f 0 0 [] s = { x with clusters := K } := by
    rw [setGoing, ← hl, ← hu, ← hv, ← hx]
    exact hK
  have hxs : x.mem = u.mem ∧ x.lifelines = u.lifelines ∧ x.launches = u.launches := by
    rw [hC, hI]
    exact ⟨rfl, rfl, rfl⟩
  obtain ⟨hxmem, hxlife, hxlaunch⟩ := hxs
  have hvcore : ∀ c, v.core c = u.core c := fun c => by rw [hI]; rfl
  rw [hgo]
  refine ⟨hxmem.trans humem, hxlife.trans hulife, ?_, fun c => ?_⟩
  · rw [← hxlaunch] at huLaunch
    exact huLaunch
  · obtain ⟨j, hj⟩ := hjobs c
    refine ⟨j, (hj : _).trans ?_⟩
    rw [hvcore, hucore]

/-- A launch that is saved in one part, whose clusters have had its vault image, stands on its old cores again: with the streams,
the tiles and the engines' state that were saved. -/
theorem restoreAt_restores (hnd : (f.cores.map Prod.fst).Nodup) (honly : ∀ g ∈ s.lifelines, g.launch.record = f.launch.record → g = f)
    (haway : ∀ l ∈ s.launches, l.record ≠ f.launch.record)
    (hvault : ∀ g ∈ unitsAmong 2 (f.cores.map Prod.fst) [], g ∈ f.launch.vaulted) :
    ∃ t, restoreAt s f 0 0 = .ok t ∧ t.mem = s.mem ∧
      t.lifelines = s.lifelines.filter (fun g => g.launch.record != f.launch.record) ∧
      (∃ l ∈ t.launches, l.record = f.launch.record ∧ l.wave = f.launch.wave) ∧
      (∀ c, c ∉ f.cores.map Prod.fst → ∃ j, t.core c = { s.core c with job := j }) ∧
      ∀ p ∈ f.cores, ∃ j o h g n, t.core p.1 = { p.2 with job := j, outbound := o, holding := h, gtlb := g, nextId := n } := by
  have hfresh : (unitsAmong 2 (f.cores.map (fun p => moveCore 0 0 p.1)) []).filter (fun g => !f.launch.vaulted.contains g) = [] := by
    rw [map_moveCore_zero]
    exact List.filter_eq_nil_iff.mpr fun g hg => by simpa using hvault g hg
  obtain ⟨⟨C, hput⟩, hout, hin⟩ := putCores_spec hnd honly
  obtain ⟨u, hu⟩ : ∃ u, u = putCores s f 0 0 := ⟨_, rfl⟩
  rw [← hu] at hput hout hin
  have haway' : ∀ l ∈ u.launches, l.record ≠ f.launch.record := by
    rw [hput]
    exact haway
  obtain ⟨hmem, hlife, hlaunch, hcore⟩ := setGoing_spec haway'
  refine ⟨_, restoreAt_had (List.find?_eq_none.mpr fun m hm => by simpa using haway m hm) hfresh, ?_, ?_, ?_, fun c hc => ?_,
    fun p hp => ?_⟩
  · rw [← hu]
    refine hmem.trans ?_
    rw [hput]
  · rw [← hu]
    refine hlife.trans ?_
    rw [hput]
  · rw [← hu]
    exact hlaunch
  · rw [← hu]
    obtain ⟨j, hj⟩ := hcore c
    exact ⟨j, hj.trans (congrArg (fun k : Core => { k with job := j }) (hout c hc))⟩
  · rw [← hu]
    obtain ⟨j, hj⟩ := hcore p.1
    obtain ⟨j', o, h, g, n, hp'⟩ := hin p hp
    exact ⟨j, o, h, g, n, hj.trans (congrArg (fun k : Core => { k with job := j }) hp')⟩

end

end Sys2Proof.Machine
end

section
/-! SUPPORT. Regimes, pre-emption, restoring and the commit of a quantum (R368 to R372, R417, R420 to R424). -/

namespace Sys2Proof.Machine

/-! ## Changes of regime (R424) -/

section
variable {s : State} {gauge : Bool} {g : Nat}

/-- Clusters of which none changes the other way begin their change. -/
theorem startChange_spec : ∀ (l : List Nat) (s : State), (startChange gauge l s).cores = s.cores ∧
    (startChange gauge l s).lifelines = s.lifelines ∧
    ∀ g, ((s.cluster g).changing = some gauge → ((startChange gauge l s).cluster g).changing = some gauge) ∧
      (g ∈ l → (∀ b, (s.cluster g).changing = some b → b = gauge) → ((startChange gauge l s).cluster g).changing = some gauge)
  | [], s => ⟨rfl, rfl, fun _ => ⟨id, fun h => absurd h (by simp)⟩⟩
  | h :: t, s => by
    obtain ⟨u, hu⟩ : ∃ u, u = (if (s.cluster h).changing.isSome then s else s.setCluster h { s.cluster h with changing := some gauge }) :=
      ⟨_, rfl⟩
    have hstep : startChange gauge (h :: t) s = startChange gauge t u := by rw [hu]; rfl
    have hframe : u.cores = s.cores ∧ u.lifelines = s.lifelines := by
      rw [hu]
      split <;> exact ⟨rfl, rfl⟩
    have hcluster : ∀ g, g ≠ h → u.cluster g = s.cluster g := by
      intro g hg
      rw [hu]
      split
      · rfl
      · exact tget_tset_ne _ _ _ hg
    have hself : (∀ b, (s.cluster h).changing = some b → b = gauge) → (u.cluster h).changing = some gauge := by
      intro hb
      rw [hu]
      split
      · next hsome =>
        obtain ⟨b, hb'⟩ := Option.isSome_iff_exists.mp hsome
        rw [hb', hb b hb']
      · rw [State.cluster_setCluster_self]
    obtain ⟨hcores, hlife, hall⟩ := startChange_spec t u
    rw [hstep]
    refine ⟨hcores.trans hframe.1, hlife.trans hframe.2, fun g => ⟨fun hg => (hall g).1 ?_, fun hg hb => ?_⟩⟩
    · by_cases hgh : g = h
      · subst hgh
        exact hself fun b hb => Option.some.inj (hb.symm.trans hg)
      · rw [hcluster g hgh]
        exact hg
    · by_cases hgh : g = h
      · subst hgh
        exact (hall g).1 (hself hb)
      · exact (hall g).2 ((List.mem_cons.mp hg).resolve_left hgh) (by rw [hcluster g hgh]; exact hb)

/-- A place that was found for a saved launch is one of cores that it can have. -/
theorem shiftFor_fits {ok : Nat → Bool} {f : Lifeline} {d : Int × Int} {cs : List Nat} (h : shiftFor s ok f = some (d, cs)) :
    ∀ c ∈ cs, ok c = true := by
  obtain ⟨d', _, hd⟩ := List.exists_of_findSome?_eq_some h
  split at hd
  · exact absurd hd (by simp)
  · split at hd
    · next hok =>
      have hpair := Prod.mk.inj (Option.some.inj hd)
      intro c hc
      rw [← hpair.2] at hc
      exact List.all_eq_true.mp (Bool.and_eq_true_iff.mp hok).1 c hc
    · exact absurd hd (by simp)

/-- A cluster of a core that a launch can have changes to no other regime. -/
theorem changing_of_fits {gone needed : List Nat} {c : Nat} (h : coreFits s gone needed gauge c = true) :
    ∀ b, (s.cluster (clusterOf c)).changing = some b → b = gauge := by
  intro b hb
  simp only [coreFits, Bool.and_eq_true] at h
  have hregime := h.1.1.2
  rw [regimeFits, hb] at hregime
  exact eq_of_beq hregime

end

/-! ## Pre-emption (R417) -/

section
variable {s : State} {record v saved : Nat} {l : Launch}

theorem settleCores_idle : ∀ (cs : List Nat), (∀ c ∈ cs, (s.core c).inFlight = 0) → settleCores cs s = s
  | [], _ => rfl
  | c :: t, h => by
    rw [settleCores, h c List.mem_cons_self, settleCore]
    exact settleCores_idle t fun d hd => h d (List.mem_cons_of_mem _ hd)

/-- A launch that is saved whole runs no more. -/
theorem saveLaunch_whole {cs : List Nat} {image : Option (List Byte)} (hcs : cs = l.cores.map Prod.fst) :
    (saveLaunch s l cs image saved).launches = s.launches.filter (fun x => x.record != l.record) := by
  obtain ⟨v, hv, _, _, hlife, hlaunch⟩ := saveLaunch_leaves s l cs image saved
  have hplaces : (savedLife s l cs image saved).places = cs := by
    have hshift : (savedLife s l cs image saved).shift.getD (0, 0) = (0, 0) := rfl
    rw [Lifeline.places, hshift]
    refine (map_moveCore_zero _).trans ?_
    rw [savedLife, List.map_map]
    exact List.map_id cs
  have hnone : l.cores.any (fun p => v.occupies l p.1) = false := by
    refine List.any_eq_false.mpr fun p hp => ?_
    rw [Bool.not_eq_true, State.occupies, hlife, List.any_append]
    have hin : [savedLife s l cs image saved].any (fun f => f.launch.record == l.record && f.places.contains p.1) = true := by
      refine List.any_eq_true.mpr ⟨_, List.mem_singleton.mpr rfl, ?_⟩
      rw [hplaces, hcs]
      have hmem : p.1 ∈ l.cores.map Prod.fst := List.mem_map_of_mem hp
      simp [savedLife, hmem]
    rw [hin, Bool.or_true, Bool.not_true, Bool.and_false]
  rw [hv, hnone, if_neg Bool.false_ne_true, ← hlaunch]
  exact (dropHeld_rest _ _).1

/-- What a lifeline keeps of a core that stops. -/
theorem savedLife_cores (cs : List Nat) (image : Option (List Byte)) : ∀ p ∈ (savedLife s l cs image saved).cores,
    p.2.tile = (s.core p.1).tile ∧ p.2.ms = (s.core p.1).ms ∧ p.2.a.regs = (s.core p.1).a.regs ∧ p.2.xs = (s.core p.1).xs := by
  intro p hp
  obtain ⟨c, _, rfl⟩ := List.mem_map.mp hp
  obtain ⟨_, hall, _⟩ := unissueAll_spec cs s
  obtain ⟨R, a, x, m, hcore, hregs⟩ := hall c
  rw [savedCore, hcore]
  exact ⟨rfl, rfl, hregs, rfl⟩

/-- A victim whose cores have nothing in flight and stand where they may stop is saved. -/
theorem saveVictim_saves (hl : s.launches.find? (fun x => x.record == v) = some l) (hmail : mailClear s l (l.cores.map Prod.fst) = true)
    (hstop : launchStops s l none = true) (hcores : ∀ p ∈ l.cores, (s.core p.1).inFlight = 0 ∧ canSave s (s.lrec v).gauge p.1 = true) :
    saveVictim s v = saveLaunch s l (l.cores.map Prod.fst) none s.steps := by
  have hidle : settleCores (l.cores.map Prod.fst) s = s := settleCores_idle _ fun c hc => by
    obtain ⟨p, hp, rfl⟩ := List.mem_map.mp hc
    exact (hcores p hp).1
  have hcan : (l.cores.map Prod.fst).all (canSave s (s.lrec v).gauge) = true := List.all_eq_true.mpr fun c hc => by
    obtain ⟨p, hp, rfl⟩ := List.mem_map.mp hc
    exact (hcores p hp).2
  rw [saveVictim, hl]
  dsimp only
  rw [hidle, hcan, hstop, hmail, hl]
  rfl

end

/-! ## The commit of a quantum (R370) -/

/-- No line of memory has an error. -/
def Sound (s : State) : Prop := s.badMem = [] ∧ ∀ line, tagOf s line < 8

theorem chooseTag_lt (line : Nat) : chooseTag line < 8 := by
  rw [chooseTag]
  repeat' split
  all_goals decide

section
variable {s : State}

/-- The error marks and tags after a store touched a line. -/
theorem lineStored_marks (cmp : Bool) (pa : Nat) (mask : List Bool) (s : State) (line : Nat) :
    (lineStored cmp pa mask s line).badMem = marksAfter s pa mask line ∧
    ∃ b new, new < 8 ∧ (lineStored cmp pa mask s line).tags = if b = true then tset s.tags line new else s.tags := by
  have hlt : (if cmp && !(marksAfter s pa mask line).any (fun b => line ≤ b && b < line + 128)
      then chooseTag (readNat s.mem line 128) else 0) < 8 := by
    split
    · exact chooseTag_lt _
    · decide
  rw [lineStored]
  refine ⟨?_, (List.range 128).all (fun j => covers pa mask (line + j)) || cmp || tagOf s line != 0, _, hlt, ?_⟩
  · split
    · rfl
    · split <;> rfl
  · split
    · rfl
    · split <;> rfl

theorem lineStored_sound (cmp : Bool) (pa : Nat) (mask : List Bool) (h : Sound s) (line : Nat) :
    Sound (lineStored cmp pa mask s line) := by
  obtain ⟨hbad, htag⟩ := h
  obtain ⟨hmem, b, new, hlt, htags⟩ := lineStored_marks cmp pa mask s line
  refine ⟨hmem.trans (by rw [marksAfter, hbad]; rfl), fun n => ?_⟩
  rw [tagOf, htags]
  split
  · by_cases hn : n = line
    · subst hn
      rw [tget_tset_self]
      exact hlt
    · rw [tget_tset_ne _ _ _ hn]
      exact htag n
  · exact htag n

theorem linesStored_sound (cmp : Bool) (pa : Nat) (mask : List Bool) : ∀ (l : List Nat) (s : State), Sound s →
    Sound (linesStored cmp pa mask l s)
  | [], _, h => h
  | a :: t, _, h => linesStored_sound cmp pa mask t _ (lineStored_sound cmp pa mask h a)

theorem storeLocal_sound (h : Sound s) (cmp : Bool) (pa : Nat) (data : List Byte) (mask : List Bool) :
    Sound (storeLocal s cmp pa data mask) := by
  rw [storeLocal]
  dsimp only
  split
  · exact linesStored_sound cmp pa mask _ _ h
  · exact ⟨by rw [h.1]; rfl, h.2⟩

theorem storeBadAt_sound (h : Sound s) (pa n : Nat) : storeBadAt s pa n = none := by
  rw [storeBadAt]
  split
  · rw [List.find?_eq_none.mpr, Option.map_none]
    intro l _
    have hbad : lineBad s l = false := by
      rw [lineBad, h.1]
      have := h.2 l
      simp [Nat.not_le.mpr this]
    simp [hbad]
  · rfl

/-! ### The buffers -/

/-- A core whose buffered writes are performed. -/
def Core.committed (k : Core) : Core := { k with det := { k.det with writes := [] } }

/-- Buffered writes of a core that all stay in this package are performed in order. -/
theorem commitWrites_here (c : Nat) : ∀ (ws : List DetWrite) (s : State), Sound s → (s.core c).det.writes = ws →
    (∀ w ∈ ws, w.seg.isRemote = false) → ∃ t, commitWrites c ws s = (t, false) ∧ Sound t ∧
      t.mem = ws.foldl (fun m b => writeMasked m b.seg.addr b.data b.mask) s.mem ∧ t.core c = (s.core c).committed ∧
      ∀ d, d ≠ c → t.core d = s.core d
  | [], s, hs, hw, _ => ⟨s, rfl, hs, rfl, by rw [Core.committed, ← hw], fun _ _ => rfl⟩
  | w :: t, s, hs, hw, hl => by
    obtain ⟨s1, hs1⟩ : ∃ s1, s1 = countCommitted (setBuffered s c t) c w := ⟨_, rfl⟩
    have hframe : s1.mem = s.mem ∧ s1.badMem = s.badMem ∧ s1.tags = s.tags ∧
        s1.core c = { s.core c with det := { (s.core c).det with writes := t } } ∧ ∀ d, d ≠ c → s1.core d = s.core d := by
      rw [hs1]
      exact ⟨rfl, rfl, rfl, State.core_setCore_self _ _ _, fun d hd => State.core_setCore_ne _ _ hd⟩
    obtain ⟨hmem1, hbad1, htags1, hself1, hother1⟩ := hframe
    have hsound1 : Sound s1 := ⟨hbad1.trans hs.1, fun n => by rw [tagOf, htags1]; exact hs.2 n⟩
    have hhere : commitHere s1 c w = storeLocal s1 w.seg.attr.cmp w.seg.addr w.data w.mask := by
      have hnone : (maskRuns w.seg 0 w.mask).findSome? (fun g => (storeBadAt s1 g.addr g.len).map (fun i => g.tv + i)) = none :=
        List.findSome?_eq_none_iff.mpr fun g _ => by rw [storeBadAt_sound hsound1, Option.map_none]
      rw [commitHere, hnone]
    obtain ⟨T, B, C, hstore⟩ := storeLocal_frame s1 w.seg.attr.cmp w.seg.addr w.data w.mask
    obtain ⟨u, hu⟩ : ∃ u, u = storeLocal s1 w.seg.attr.cmp w.seg.addr w.data w.mask := ⟨_, rfl⟩
    have husound : Sound u := hu ▸ storeLocal_sound hsound1 _ _ _ _
    have humem : u.mem = writeMasked s.mem w.seg.addr w.data w.mask := by rw [hu, hstore, hmem1]
    have hucore : ∀ d, u.core d = s1.core d := fun d => by rw [hu, hstore]; rfl
    obtain ⟨v, hv, hvsound, hvmem, hvself, hvother⟩ := commitWrites_here c t u husound (by rw [hucore, hself1])
      (fun x hx => hl x (List.mem_cons_of_mem _ hx))
    refine ⟨v, ?_, hvsound, ?_, ?_, fun d hd => ?_⟩
    · rw [commitWrites, hl w List.mem_cons_self, if_neg Bool.false_ne_true, ← hs1, hhere, ← hu, hv]
    · rw [hvmem, humem]
      rfl
    · rw [hvself, hucore, hself1]
      rfl
    · rw [hvother d hd, hucore, hother1 d hd]

/-- The buffers of some cores whose writes all stay in this package are performed in order. -/
theorem commitBuffers_here : ∀ (ps : List Nat) (s : State), ps.Nodup → Sound s →
    (∀ b ∈ ps.flatMap (fun d => (s.core d).det.writes), b.seg.isRemote = false) → ∃ t, commitBuffers ps s = (t, false) ∧
      t.mem = (ps.flatMap (fun d => (s.core d).det.writes)).foldl (fun m b => writeMasked m b.seg.addr b.data b.mask) s.mem ∧
      (∀ d ∈ ps, t.core d = (s.core d).committed) ∧ ∀ d, d ∉ ps → t.core d = s.core d
  | [], s, _, _, _ => ⟨s, rfl, rfl, fun _ h => absurd h (by simp), fun _ _ => rfl⟩
  | c :: t, s, hnd, hs, hl => by
    obtain ⟨hc, hnd⟩ := List.nodup_cons.mp hnd
    rw [List.flatMap_cons] at hl
    obtain ⟨u, hu, husound, humem, huself, huother⟩ := commitWrites_here c _ s hs rfl fun w hw => hl w (List.mem_append_left _ hw)
    have hrest : t.flatMap (fun d => (u.core d).det.writes) = t.flatMap (fun d => (s.core d).det.writes) :=
      List.flatMap_congr fun d hd => by rw [huother d (fun h => hc (h ▸ hd))]
    obtain ⟨v, hv, hvmem, hvin, hvout⟩ := commitBuffers_here t u hnd husound fun w hw =>
      hl w (List.mem_append_right _ (hrest ▸ hw))
    refine ⟨v, ?_, ?_, fun d hd => ?_, fun d hd => ?_⟩
    · rw [commitBuffers, hu]
      exact hv
    · rw [hvmem, hrest, humem, List.flatMap_cons, List.foldl_append]
    · by_cases hdc : d = c
      · subst hdc
        rw [hvout d hc, huself]
      · have hdt := (List.mem_cons.mp hd).resolve_left hdc
        rw [hvin d hdt, huother d hdc]
    · obtain ⟨hdc, hdt⟩ := not_or.mp (mt List.mem_cons.mpr hd)
      rw [hvout d hdt, huother d hdc]

theorem commitAtomics_none : ∀ (ps : List Nat), (∀ d ∈ ps, (s.core d).det.atomic = none) → commitAtomics ps s = (s, false)
  | [], _ => rfl
  | c :: t, h => by
    have hnone : (s.core c).a.pend.find? (fun p => (s.core c).det.atomic == some p.id) = none := by
      rw [h c List.mem_cons_self]
      exact List.find?_eq_none.mpr fun _ _ => by simp
    rw [commitAtomics, hnone]
    exact commitAtomics_none t fun d hd => h d (List.mem_cons_of_mem _ hd)

theorem countCommit_frame : ∀ (l : List Nat) (s : State), ∃ C, countCommit l s = { s with counters := C }
  | [], s => ⟨s.counters, rfl⟩
  | d :: t, s => by
    obtain ⟨C, h⟩ := countCommit_frame t (s.count (ctrCommit d) 1)
    exact ⟨C, h⟩

/-! ### The next quantum -/

/-- A core that begins its next quantum: its A stream no longer stands at the commit. -/
def Core.nextQuantum (k : Core) : Core :=
  { k with
    det := { DetBuf.reset with quantum := k.det.quantum + 1 },
    a := if k.a.atCommit then { k.a with at_ := .free, run := runAfter k k.a } else k.a }

theorem runAfter_ended {k : Core} {t : Stream} (h : runAfter k t = .ended) : t.run = .ended := by
  rw [runAfter] at h
  split at h
  · exact h
  · exact absurd h (by decide)

theorem allEnded_nextQuantum {k : Core} (h : k.allEnded = false) : k.nextQuantum.allEnded = false := by
  rw [Core.allEnded] at h ⊢
  have hjob : k.nextQuantum.job = k.job := rfl
  rw [hjob]
  cases hj : k.job with
  | none => rfl
  | some j =>
    rw [hj] at h
    dsimp only at h ⊢
    rw [List.all_eq_false] at h ⊢
    obtain ⟨e, he, hrun⟩ := h
    refine ⟨e, he, fun hend => hrun ?_⟩
    cases e with
    | x => exact hend
    | m => exact hend
    | a =>
      have ha : (k.nextQuantum.stream .a) = if k.a.atCommit then { k.a with at_ := .free, run := runAfter k k.a } else k.a := rfl
      rw [ha] at hend
      split at hend
      · exact beq_iff_eq.mpr (runAfter_ended (eq_of_beq hend))
      · exact hend

/-- Each of some distinct cores whose streams have not all ended begins its next quantum. -/
theorem nextQuanta_spec : ∀ (ps : List Nat) (s : State), ps.Nodup → (∀ d ∈ ps, (s.core d).allEnded = false) →
    (∃ C, nextQuanta ps s = { s with cores := C }) ∧ (∀ d ∈ ps, (nextQuanta ps s).core d = (s.core d).nextQuantum) ∧
    ∀ d, d ∉ ps → (nextQuanta ps s).core d = s.core d
  | [], s, _, _ => ⟨⟨s.cores, rfl⟩, fun _ h => absurd h (by simp), fun _ _ => rfl⟩
  | c :: t, s, hnd, hall => by
    obtain ⟨hc, hnd⟩ := List.nodup_cons.mp hnd
    have hstep : nextQuanta (c :: t) s = nextQuanta t (s.setCore c (s.core c).nextQuantum) := by
      have hstays : tryEndJob (s.setCore c (s.core c).nextQuantum) c = s.setCore c (s.core c).nextQuantum := by
        refine tryEndJob_running ?_
        rw [State.core_setCore_self]
        exact allEnded_nextQuantum (hall c List.mem_cons_self)
      rw [← hstays]
      rfl
    have hother : ∀ d, d ≠ c → (s.setCore c (s.core c).nextQuantum).core d = s.core d := fun d hd => State.core_setCore_ne _ _ hd
    obtain ⟨⟨C, hC⟩, hin, hout⟩ := nextQuanta_spec t (s.setCore c (s.core c).nextQuantum) hnd fun d hd => by
      rw [hother d (fun h => hc (h ▸ hd))]
      exact hall d (List.mem_cons_of_mem _ hd)
    rw [hstep]
    refine ⟨⟨C, hC.trans rfl⟩, fun d hd => ?_, fun d hd => ?_⟩
    · by_cases hdc : d = c
      · subst hdc
        rw [hout d hc, State.core_setCore_self]
      · have hdt := (List.mem_cons.mp hd).resolve_left hdc
        rw [hin d hdt, hother d hdc]
    · obtain ⟨hdc, hdt⟩ := not_or.mp (mt List.mem_cons.mpr hd)
      rw [hout d hdt, hother d hdc]

/-! ### A write that leaves (R370, log 81) -/

theorem length_insertPend (p : Pend) : ∀ l : List Pend, (insertPend p l).length = l.length + 1
  | [] => rfl
  | h :: t => by
    rw [insertPend]
    split
    · rfl
    · rw [List.length_cons, length_insertPend p t, List.length_cons]

/-- A buffered write to another package becomes a pending store of its core. -/
theorem commitWrites_away {c : Nat} {w : DetWrite} {t : List DetWrite} (h : w.seg.isRemote = true) :
    ∃ u, commitWrites c (w :: t) s = (u, true) ∧ u.mem = s.mem ∧
      (∃ P, u.core c = { s.core c with
        det := { (s.core c).det with writes := t }, a := { (s.core c).a with pend := P } } ∧
        P.length = (s.core c).a.pend.length + 1) ∧ ∀ d, d ≠ c → u.core d = s.core d := by
  obtain ⟨s1, hs1⟩ : ∃ s1, s1 = countCommitted (setBuffered s c t) c w := ⟨_, rfl⟩
  have hframe : s1.mem = s.mem ∧ s1.core c = { s.core c with det := { (s.core c).det with writes := t } } ∧
      ∀ d, d ≠ c → s1.core d = s.core d := by
    rw [hs1]
    exact ⟨rfl, State.core_setCore_self _ _ _, fun d hd => State.core_setCore_ne _ _ hd⟩
  obtain ⟨hmem1, hself1, hother1⟩ := hframe
  obtain ⟨op, hop⟩ : ∃ op, op = PendOp.store [{ w.seg with attr := { w.seg.attr with det := false } }] w.data w.mask := ⟨_, rfl⟩
  obtain ⟨v, hv⟩ : ∃ v, v = s1.setCore c { s1.core c with
    a := { (s1.core c).a with pend := insertPend ⟨w.at_, op⟩ (s1.core c).a.pend } } := ⟨_, rfl⟩
  obtain ⟨R, N, F, hreq⟩ := requestWrites_frame c (.pend c w.at_) [w.seg] w.data w.mask v
  have haway : commitAway s1 c w = requestWrites c (.pend c w.at_) [w.seg] w.data w.mask v := by rw [commitAway, hv, hop]
  refine ⟨commitAway s1 c w, ?_, ?_, ⟨insertPend ⟨w.at_, op⟩ (s.core c).a.pend, ?_, length_insertPend _ _⟩, fun d hd => ?_⟩
  · rw [commitWrites, h, if_pos rfl, ← hs1]
  · rw [haway, hreq, hv]
    exact hmem1
  · rw [haway, hreq, hv]
    refine (State.core_setCore_self s1 c _).trans ?_
    rw [hself1]
  · rw [haway, hreq, hv]
    exact (State.core_setCore_ne s1 _ hd).trans (hother1 d hd)

end

/-! ## The obligation -/

section
variable {s : State} {record c : Nat} {l : Launch}

theorem preemption_eq : exec (.preemption record) s = .next (if !isReady s record || (planCores s [] (needed s record) record).isSome then s
    else preemptFor s record (fun gone => (planCores s gone (needed s record) record).isSome)) := rfl

/-- The one victim of a pre-emption is saved, if it can be. -/
theorem preemption_saves {v : Nat} (hready : isReady s record = true) (hfit : planCores s [] (needed s record) record = none)
    (hvictims : enoughVictims (fun gone => (planCores s gone (needed s record) record).isSome) (victims s record) = some [v]) :
    exec (.preemption record) s = .next (saveVictim s v) := by
  rw [preemption_eq, hready, hfit, preemptFor, hvictims]
  rfl

theorem launchRestore_none (h : savedOf s record = none) : exec (.launchRestore record) s = .next s := by
  show execLaunchRestore record s = _
  rw [execLaunchRestore, h]

/-- A launch that pre-emption saved begins its change of regime or is restored at its place. -/
theorem launchRestore_at {f : Lifeline} {cs : List Nat} {dx dy : Int} (h : savedOf s record = some f)
    (hplace : shiftFor s (coreFits s [] (needed s record) (s.lrec record).gauge) f = some ((dx, dy), cs)) :
    exec (.launchRestore record) s = .next (if (toChange s (s.lrec record).gauge (unitsAmong 2 cs [])).isEmpty
      then eitherState (restoreAt s f dx dy)
      else startChange (s.lrec record).gauge (toChange s (s.lrec record).gauge (unitsAmong 2 cs [])) s) := by
  show execLaunchRestore record s = _
  rw [execLaunchRestore, h]
  dsimp only
  rw [hplace]

theorem quantumCommit_eq (hc : c < 512) (hl : s.launchOf c = some l) : exec (.quantumCommit c) s =
    if (s.ctx (s.core c).ctx).mmode != 2 || !(quantumCores s l c).any (fun d => !(s.core d).det.clean) ||
        !(quantumCores s l c).all (quantumOver s l.record) then .next s
    else
      let w := commitBuffers (quantumCores s l c) s
      let a := if w.2 then w else commitAtomics (quantumCores s l c) w.1
      .next (if a.2 then a.1 else nextQuanta (quantumCores s l c) (countCommit (unitsAmong 3 (quantumCores s l c) []) a.1)) := by
  show execQuantumCommit c s = _
  rw [execQuantumCommit, if_neg (by simp [coreExists, hc]), hl]

/-- A quantum that is over begins its commit. -/
theorem quantumCommit_due (hc : c < 512) (hl : s.launchOf c = some l) (hmode : (s.ctx (s.core c).ctx).mmode = 2)
    (hdue : ∃ d ∈ quantumCores s l c, (s.core d).det.clean = false)
    (hover : ∀ d ∈ quantumCores s l c, quantumOver s l.record d = true) : exec (.quantumCommit c) s =
      let w := commitBuffers (quantumCores s l c) s
      let a := if w.2 then w else commitAtomics (quantumCores s l c) w.1
      .next (if a.2 then a.1 else nextQuanta (quantumCores s l c) (countCommit (unitsAmong 3 (quantumCores s l c) []) a.1)) := by
  have hany : (quantumCores s l c).any (fun d => !(s.core d).det.clean) = true := by
    obtain ⟨d, hd, hclean⟩ := hdue
    exact List.any_eq_true.mpr ⟨d, hd, by rw [hclean]; rfl⟩
  rw [quantumCommit_eq hc hl, hmode, hany, List.all_eq_true.mpr hover, if_neg (by simp)]

theorem quantumCommit_open (hc : c < 512) (hl : s.launchOf c = some l)
    (h : ∃ d ∈ quantumCores s l c, quantumOver s l.record d = false) : exec (.quantumCommit c) s = .next s := by
  have hall : (quantumCores s l c).all (quantumOver s l.record) = false := by
    obtain ⟨d, hd, hover⟩ := h
    exact List.all_eq_false.mpr ⟨d, hd, by simp [hover]⟩
  rw [quantumCommit_eq hc hl, hall, if_pos (by simp)]

end

/-- Settles O51: a save and a restore by what they leave of each core; a commit core by core, write by write. -/
theorem launchesMove : Obligations.LaunchesMove := by
  unfold Obligations.LaunchesMove
  intro s record
  refine ⟨fun g hg => ⟨fun b hb => ?_, fun hb => ?_⟩, fun hready => ?_, fun v l hready hfit hvictims hl hmail hstop hcores => ?_,
    launchRestore_none, fun f hf hnd hlt hrec hplace => ⟨fun hsame honly haway hvault => ?_, fun g hg => ?_⟩, fun c l hc hl => ?_⟩
  · show execRegimeChangeDone g s = _
    rw [execRegimeChangeDone, if_neg (by omega)]
    dsimp only
    rw [hb]
  · show execRegimeChangeDone g s = _
    rw [execRegimeChangeDone, if_neg (by omega)]
    dsimp only
    rw [hb]
  · rw [preemption_eq, hready]
    rfl
  · have hexec := preemption_saves hready hfit hvictims
    rw [saveVictim_saves hl hmail hstop hcores] at hexec
    obtain ⟨hleaves, hjob, hlife⟩ := saveLaunch_saves s l (l.cores.map Prod.fst) none s.steps
    refine ⟨_, savedLife s l (l.cores.map Prod.fst) none s.steps, hexec, hlife, rfl, rfl, ?_, savedLife_cores _ _, fun p hp =>
      hjob p.1 (List.mem_map_of_mem hp), fun x hx => ?_, hleaves.mem⟩
    · rw [savedLife, List.map_map]
      exact List.map_id _
    · rw [saveLaunch_whole rfl] at hx
      exact bne_iff_ne.mp (List.mem_filter.mp hx).2
  · subst hrec
    obtain ⟨t, ht, hmem, hlife, _, _, hcore⟩ := restoreAt_restores hnd honly haway fun g hg => by
      obtain ⟨c, hc, rfl⟩ := mem_unitsAmong hg
      obtain ⟨p, hp, rfl⟩ := List.mem_map.mp hc
      exact hvault p hp
    have hexec := launchRestore_at hf hplace
    rw [hsame, ht] at hexec
    refine ⟨t, hexec, hmem, hlife, fun p hp => ?_⟩
    obtain ⟨j, o, h, g, n, hp'⟩ := hcore p hp
    rw [hp']
    exact ⟨rfl, rfl, rfl, rfl, rfl, rfl⟩
  · have hexec := launchRestore_at hf hplace
    have hne : (toChange s (s.lrec record).gauge (unitsAmong 2 (f.cores.map Prod.fst) [])).isEmpty = false :=
      List.isEmpty_eq_false_iff.mpr (List.ne_nil_of_mem hg)
    rw [hne, if_neg Bool.false_ne_true] at hexec
    obtain ⟨hcores, hlife, hall⟩ := startChange_spec (gauge := (s.lrec record).gauge)
      (toChange s (s.lrec record).gauge (unitsAmong 2 (f.cores.map Prod.fst) [])) s
    refine ⟨_, hexec, (hall g).2 hg ?_, hcores, hlife⟩
    obtain ⟨c, hc, hcg⟩ := mem_unitsAmong (List.mem_filter.mp hg).1
    subst hcg
    exact changing_of_fits (shiftFor_fits hplace c hc)
  · refine ⟨quantumCommit_open hc hl, fun hmode hdue hall hnd hlocal hbad htags => ?_, fun d rest b more hps hw hremote hmode hover => ?_⟩
    · have hexec := quantumCommit_due hc hl hmode hdue fun d hd => (hall d hd).1
      obtain ⟨ps, hps⟩ : ∃ ps, ps = quantumCores s l c := ⟨_, rfl⟩
      rw [← hps] at hexec hall hnd hlocal ⊢
      obtain ⟨u, hu, hmem, hin, hout⟩ := commitBuffers_here ps s hnd ⟨hbad, htags⟩ hlocal
      have hatomic : commitAtomics ps u = (u, false) := commitAtomics_none ps fun d hd => by
        rw [hin d hd]
        exact (hall d hd).2.2
      obtain ⟨C, hC⟩ := countCommit_frame (unitsAmong 3 ps []) u
      obtain ⟨v, hv⟩ : ∃ v, v = countCommit (unitsAmong 3 ps []) u := ⟨_, rfl⟩
      have hvcore : ∀ d, v.core d = u.core d := fun d => by rw [hv, hC]; rfl
      have hvmem : v.mem = u.mem := by rw [hv, hC]
      obtain ⟨⟨D, hD⟩, hnext, hkeep⟩ := nextQuanta_spec ps v hnd fun d hd => by
        rw [hvcore, hin d hd]
        exact (hall d hd).2.1
      rw [hu] at hexec
      dsimp only at hexec
      rw [if_neg Bool.false_ne_true, hatomic] at hexec
      dsimp only at hexec
      rw [if_neg Bool.false_ne_true, ← hv] at hexec
      refine ⟨_, hexec, ?_, fun d hd => ?_, fun d hd => ?_⟩
      · rw [hD]
        exact hvmem.trans hmem
      · rw [hnext d hd, hvcore, hin d hd]
        refine ⟨rfl, ?_, rfl⟩
        have hat : (s.core d).a.atCommit = true ↔ (s.core d).a.at_ = .committing := by rw [Stream.atCommit]; exact beq_iff_eq
        by_cases hcommit : (s.core d).a.at_ = .committing
        · rw [if_pos hcommit]
          exact if_pos (hat.mpr hcommit)
        · rw [if_neg hcommit]
          exact if_neg (mt hat.mp hcommit)
      · rw [hkeep d hd, hvcore, hout d hd]
    · have hclean : (s.core d).det.clean = false := by
        rw [DetBuf.clean, hw]
        rfl
      have hexec := quantumCommit_due hc hl hmode ⟨d, by rw [hps]; exact List.mem_cons_self, hclean⟩ hover
      obtain ⟨u, hu, hmem, ⟨P, hcore, hlen⟩, hother⟩ := commitWrites_away (s := s) (c := d) (t := more) hremote
      have hbuf : commitBuffers (quantumCores s l c) s = (u, true) := by
        rw [hps, commitBuffers, hw, hu]
        rfl
      rw [hbuf] at hexec
      refine ⟨u, hexec, by rw [hcore], by rw [hcore]; exact hlen, hmem, hother⟩

end Sys2Proof.Machine
end

section
/-! SUPPORT. DECLD with its end, and the forms that save and load contexts (R275, R423). -/

namespace Sys2Proof.Machine

section
variable {s t u : State} {c : Nat}

theorem requestReads_here (c : Nat) (owner : Owner) : ∀ (l : List Seg) (s : State), Here l → requestReads c owner l s = s
  | [], _, _ => rfl
  | g :: t, s, h => by
    rw [requestReads, h g List.mem_cons_self, if_neg Bool.false_ne_true]
    exact requestReads_here c owner t s fun x hx => h x (List.mem_cons_of_mem _ hx)

theorem Opens.launches (h : Opens c s t) : t.launches = s.launches :=
  congrArg (a₁ := { t.deviceOf s with cores := s.cores, clusters := s.clusters, shadow := s.shadow }) State.launches h.rest
theorem Opens.recs (h : Opens c s t) : t.recs = s.recs :=
  congrArg (a₁ := { t.deviceOf s with cores := s.cores, clusters := s.clusters, shadow := s.shadow }) State.recs h.rest
theorem Opens.lifelines (h : Opens c s t) : t.lifelines = s.lifelines :=
  congrArg (a₁ := { t.deviceOf s with cores := s.cores, clusters := s.clusters, shadow := s.shadow }) State.lifelines h.rest

/-! ## Stores of a core (R341) -/

/-- A store of core `c` has been performed or made pending: launches, records and lifelines, the other cores and the core's job are as they
were, and of its A stream only what is pending may have changed. -/
structure Performs (c : Nat) (s t : State) : Prop where
  launches : t.launches = s.launches
  recs : t.recs = s.recs
  lifelines : t.lifelines = s.lifelines
  others : ∀ d, d ≠ c → t.core d = s.core d
  job : (t.core c).job = (s.core c).job
  a : ∃ P, (t.core c).a = { (s.core c).a with pend := P }

theorem Performs.trans (h1 : Performs c s t) (h2 : Performs c t u) : Performs c s u := by
  obtain ⟨P, hP⟩ := h1.a
  obtain ⟨P', hP'⟩ := h2.a
  exact ⟨h2.launches.trans h1.launches, h2.recs.trans h1.recs, h2.lifelines.trans h1.lifelines,
    fun d hd => (h2.others d hd).trans (h1.others d hd), h2.job.trans h1.job, P', by rw [hP', hP]⟩

theorem Performs.of_device (h : DeviceOnly s t) : Performs c s t :=
  ⟨h.launches, h.recs, h.lifelines, fun d _ => h.core d, by rw [h.core], _, by rw [h.core]⟩

theorem Performs.of_opens (h : Opens c s t) : Performs c s t :=
  ⟨h.launches, h.recs, h.lifelines, h.others, h.job, _, h.a⟩

theorem Performs.of_setCore {k : Core} {P : List Pend} (hj : k.job = (s.core c).job) (ha : k.a = { (s.core c).a with pend := P }) :
    Performs c s (s.setCore c k) :=
  ⟨rfl, rfl, rfl, fun _ hd => State.core_setCore_ne _ _ hd, by rw [State.core_setCore_self, hj], P, by rw [State.core_setCore_self, ha]⟩

theorem Performs.refl (c : Nat) (s : State) : Performs c s s := .of_device (DeviceOnly.refl s)

theorem Performs.of_writeSeg (place : Nat) (g : Seg) (data : List Byte) (mask : List Bool) :
    Performs c s (writeSeg s c place g data mask) := by
  rw [writeSeg]
  split
  · exact .of_setCore (P := (s.core c).a.pend) rfl rfl
  · split
    · exact .of_setCore (P := (s.core c).a.pend) rfl rfl
    · split
      · exact .refl c s
      · exact .of_device (.of_storeLocal _ _ _ _ _)

theorem Performs.of_writeParts (place : Nat) : ∀ (l : List Part) (s : State), Performs c s (writeParts c place l s)
  | [], s => .refl c s
  | _ :: t, _ => (Performs.of_writeSeg _ _ _ _).trans (Performs.of_writeParts place t _)

theorem Performs.of_storeSegs {parts : List Part} (h : storeSegs c parts s = some t) : Performs c s t := by
  have hbuffered : ∀ (now : List Part) (v : State), Performs c v (buffered c now v) := by
    intro now v
    rw [buffered]
    split
    · exact .of_setCore (P := (v.core c).a.pend) rfl rfl
    · exact .refl c v
  have hnow : ∀ (place : Nat) (now : List Part), Performs c s (buffered c now (writeParts c place now s)) := fun place now =>
    (Performs.of_writeParts place now s).trans (hbuffered now _)
  have hlater : ∀ (v : State) (op : PendOp), Performs c v (v.setCore c ((v.core c).addPend .a op)) := by
    intro v op
    rw [addPend_eq]
    exact .of_setCore rfl rfl
  rw [storeSegs] at h
  dsimp only at h
  split at h
  · exact absurd h (by simp)
  · split at h
    · rw [← Option.some.inj h]
      exact hnow _ _
    · rw [← Option.some.inj h]
      exact ((hnow _ _).trans (hlater _ _)).trans (.of_device (.of_requestWrites _ _ _ _ _ _))

end

/-! ## DECLD (R275) -/

section
variable {s : State} {w : Who} {d a b e : Nat}

theorem decld_finish (hact : Acts s w) (hw : w.eng = .a) (hf : Full s w [a]) : exec (.decld d a e) s = finish w 4 s (
    match openAccess s w.core (syncAcc .read 8) (.va (regOf s w a).toNat) 2048 with
    | .error (c, v) => .raiseIn (translatedFor s w.core (syncAcc .read 8) (.va (regOf s w a).toNat) 2048) c v
    | .ok (segs, s1) =>
      if bankUsed (s.core w.core) ((s.core w.core).bank (bankToFill (s.core w.core))).gen ||
          leavesLate s w.core (.load 0 8 false segs none) then .wait
      else .ok (standAtAct (requestReads w.core (.instr w.core .a) segs s1) w (.decld d (bankToFill (s.core w.core)) e segs))
        (.stay .waiting)) := by
  show execDecld d a e s = _
  rw [execDecld, whoOn_acts hact hw, needRegs_of_full _ hf] <;> rfl

theorem decld_refused {f : Refused} (hact : Acts s w) (hw : w.eng = .a) (hf : Full s w [a])
    (h : openAccess s w.core (syncAcc .read 8) (.va (regOf s w a).toNat) 2048 = .error f) :
    exec (.decld d a e) s = .next (takeTrap (translatedFor s w.core (syncAcc .read 8) (.va (regOf s w a).toNat) 2048) w f.1 f.2) := by
  rw [decld_finish hact hw hf, h]
  rfl

theorem decld_opens {segs : List Seg} {s1 : State} (hact : Acts s w) (hw : w.eng = .a) (hf : Full s w [a])
    (h : openAccess s w.core (syncAcc .read 8) (.va (regOf s w a).toNat) 2048 = .ok (segs, s1)) :
    exec (.decld d a e) s = finish w 4 s (if bankUsed (s.core w.core) ((s.core w.core).bank (bankToFill (s.core w.core))).gen ||
        leavesLate s w.core (.load 0 8 false segs none) then .wait
      else .ok (standAtAct (requestReads w.core (.instr w.core .a) segs s1) w (.decld d (bankToFill (s.core w.core)) e segs))
        (.stay .waiting)) := by
  rw [decld_finish hact hw hf, h]

/-- The table of a DECLD stands in its bank under the next generation. -/
def Core.loadsBank (k : Core) (bk e : Nat) (l : List Byte) : Core :=
  { k with as := { k.as with
    gen := k.as.gen + 1, banks := tset k.as.banks bk ⟨k.as.gen + 1, e, tableWords 256 l⟩ } }

theorem bank_loadsBank (k : Core) (bk e n : Nat) (l : List Byte) : (k.loadsBank bk e l).bank n =
    if n = bk then ⟨k.as.gen + 1, e, tableWords 256 l⟩ else k.bank n := by
  rw [Core.bank, Core.loadsBank]
  by_cases hn : n = bk
  · subst hn
    rw [if_pos rfl]
    exact tget_tset_self _ _ _ _
  · rw [if_neg hn]
    exact tget_tset_ne _ _ _ hn

end

section
variable {s : State} {c d bk e : Nat} {segs : List Seg}

theorem decldLoadDone_acts (hc : c < 512) (hs : s.still c = false) (hat : (s.stream ⟨c, .a⟩).at_ = .decld d bk e segs)
    (hb : heldBack (s.stream ⟨c, .a⟩).pend (.load 0 8 false segs none) = false) : exec (.decldLoadDone c) s = .next (
      match gather c (.instr c .a) segs s with
      | .wait => s
      | .bad cause tv => takeTrap (dropReqs s (.instr c .a)) ⟨c, .a⟩ cause (accTval false tv)
      | .ok l s1 => retire ⟨c, .a⟩ 4 (putReg (dropReqs (s1.setCore c ((s1.core c).loadsBank bk e l)) (.instr c .a)) ⟨c, .a⟩ d
          (BitVec.ofNat 64 ((s1.core c).as.gen + 1)))) := by
  show execDecldLoadDone c s = _
  simp only [execDecldLoadDone, coreEvent, coreExists, hc, hs, decide_true, Bool.not_true, Bool.false_eq_true, if_false, hat]
  have hb' : heldBack (s.core c).a.pend (.load 0 8 false segs none) = false := hb
  rw [hb', if_neg Bool.false_ne_true]
  rfl

end

/-! ## CTXSV and CTXLD (R423) -/

section
variable {s : State} {w : Who} {a b : Nat}

/-- The checks of the two forms, in their order. -/
theorem ctxForm_eq {i : Instr} {act : State → Who → Nat → Nat → Res} (hact : Acts s w) (hw : w.eng = .a) (hf : Full s w [a, b]) :
    ctxForm i a b act s = finish w 4 s (superOnly i s w (
      if 63 < (regOf s w b).toNat || !(s.ctx (regOf s w b).toNat).live then .raise 0x02 (opTval i false 7)
      else if (regOf s w a).toNat % 0x1000 != 0 then .raise 0x13 (accTval false (regOf s w a).toNat)
      else act s w (regOf s w a).toNat (regOf s w b).toNat)) := by
  rw [ctxForm, whoOn_acts hact hw, needRegs_of_full _ hf]

theorem ctxForm_user {i : Instr} {act : State → Who → Nat → Nat → Res} (hact : Acts s w) (hw : w.eng = .a) (hf : Full s w [a, b])
    (hs : (s.stream w).super = false) : ctxForm i a b act s = .next (takeTrap s w 0x03 (firstWord i)) := by
  rw [ctxForm_eq hact hw hf, superOnly, hs]
  rfl

theorem ctxForm_super {i : Instr} {act : State → Who → Nat → Nat → Res} (hact : Acts s w) (hw : w.eng = .a) (hf : Full s w [a, b])
    (hs : (s.stream w).super = true) : ctxForm i a b act s = finish w 4 s (
      if 63 < (regOf s w b).toNat || !(s.ctx (regOf s w b).toNat).live then .raise 0x02 (opTval i false 7)
      else if (regOf s w a).toNat % 0x1000 != 0 then .raise 0x13 (accTval false (regOf s w a).toNat)
      else act s w (regOf s w a).toNat (regOf s w b).toNat) := by
  rw [ctxForm_eq hact hw hf, superOnly, hs]
  rfl

/-- The form acts on a live context at an aligned address. -/
theorem ctxForm_acts {i : Instr} {act : State → Who → Nat → Nat → Res} (hact : Acts s w) (hw : w.eng = .a) (hf : Full s w [a, b])
    (hs : (s.stream w).super = true) (hx : (regOf s w b).toNat ≤ 63) (hlive : (s.ctx (regOf s w b).toNat).live = true)
    (hal : (regOf s w a).toNat % 0x1000 = 0) :
    ctxForm i a b act s = finish w 4 s (act s w (regOf s w a).toNat (regOf s w b).toNat) := by
  rw [ctxForm_super hact hw hf hs, if_neg (by simp [hlive]; omega), if_neg (by simp [hal])]

theorem ctxForm_checks {i : Instr} {act : State → Who → Nat → Nat → Res} (hact : Acts s w) (hw : w.eng = .a) (hf : Full s w [a, b])
    (hexec : exec i s = ctxForm i a b act s) :
    ((s.stream w).super = false → Traps i s w 0x03 (firstWord i)) ∧
    ((s.stream w).super = true → (63 < (regOf s w b).toNat ∨ (s.ctx (regOf s w b).toNat).live = false) →
      Traps i s w 0x02 (opTval i false 7)) ∧
    ((s.stream w).super = true → (regOf s w b).toNat ≤ 63 → (s.ctx (regOf s w b).toNat).live = true →
      (regOf s w a).toNat % 0x1000 ≠ 0 → Traps i s w 0x13 (accTval false (regOf s w a).toNat)) := by
  refine ⟨fun hs => hexec.trans (ctxForm_user hact hw hf hs), fun hs hx => hexec.trans ?_, fun hs hx hlive hal => hexec.trans ?_⟩
  · rw [ctxForm_super hact hw hf hs, if_pos (by simpa using hx)]
    rfl
  · rw [ctxForm_super hact hw hf hs, if_neg (by simp [hlive]; omega), if_pos (by simpa using hal)]
    rfl

end

/-! ### The save -/

/-- The running launches of a context on a die are told by the launches, their records, and which cores have jobs. -/
theorem onDie_congr {s t : State} (hl : t.launches = s.launches) (hr : t.recs = s.recs) (hj : ∀ c, (t.core c).job = (s.core c).job)
    (ctx die : Nat) : onDie t ctx die = onDie s ctx die := by
  have hrec : ∀ n, t.lrec n = s.lrec n := fun n => by rw [State.lrec, hr, State.lrec]
  simp only [onDie, hl, hrec, hj]

/-- The saves of some launches, one after another. -/
theorem saveAll_saves (image : List Byte) (n : Nat) : ∀ (ps : List (Launch × List Nat)) (s : State),
    Leaves (ps.flatMap Prod.snd) s (saveAll image n ps s) ∧
    (∀ c ∈ ps.flatMap Prod.snd, ((saveAll image n ps s).core c).job = none) ∧
    ∃ new, (saveAll image n ps s).lifelines = s.lifelines ++ new ∧ new.length = ps.length ∧
      ∀ f ∈ new, f.image = some image ∧ ∃ p ∈ ps, f.ctx = (s.lrec p.1.record).ctx
  | [], s => ⟨.refl _ s, fun _ h => absurd h (by simp), [], by rw [List.append_nil]; rfl, rfl, fun _ h => absurd h (by simp)⟩
  | (l, cs) :: t, s => by
    obtain ⟨hleaves, hjob, hlife⟩ := saveLaunch_saves s l cs (some image) n
    obtain ⟨hrest, hrestJob, new, hnew, hlen, hall⟩ := saveAll_saves image n t (saveLaunch s l cs (some image) n)
    have hrec : ∀ m, (saveLaunch s l cs (some image) n).lrec m = s.lrec m := fun m => by rw [State.lrec, hleaves.recs, State.lrec]
    rw [List.flatMap_cons, saveAll]
    refine ⟨(hleaves.mono fun c hc => List.mem_append_left _ hc).trans (hrest.mono fun c hc => List.mem_append_right _ hc),
      fun c hc => ?_, savedLife s l cs (some image) n :: new, ?_, ?_, fun f hf => ?_⟩
    · rcases List.mem_append.mp hc with hc | hc
      · exact hrest.none c (hjob c hc)
      · exact hrestJob c hc
    · rw [hnew, hlife, List.append_assoc]
      rfl
    · rw [List.length_cons, List.length_cons, hlen]
    · rcases List.mem_cons.mp hf with rfl | hf
      · exact ⟨rfl, (l, cs), List.mem_cons_self, rfl⟩
      · obtain ⟨himage, p, hp, hctx⟩ := hall f hf
        exact ⟨himage, p, List.mem_cons_of_mem _ hp, hctx.trans (by rw [hrec])⟩

section
variable {s : State} {w : Who} {a b x va : Nat} {segs : List Seg} {s1 s2 : State}

/-- The cores of the jobs that CTXSV saves, and the image it writes. -/
def dieCores (s : State) (ctx die : Nat) : List Nat := (onDie s ctx die).flatMap Prod.snd
def ownImage (s : State) (ctx die : Nat) : List Byte :=
  dieImage s ctx ((onDie s ctx die).map (fun p => p.1.record)) (dieCores s ctx die)

/-- What CTXSV does for a live context. -/
def saveDie (a b : Nat) (s : State) (w : Who) (va ctx : Nat) : Res :=
  let die := dieOf w.core
  let cs := (onDie s ctx die).flatMap Prod.snd
  let s1 := settleCores cs s
  let jobs := onDie s1 ctx die
  let image := dieImage s1 ctx (jobs.map (fun p => p.1.record)) (jobs.flatMap Prod.snd)
  if !jobs.all (fun p => p.2.all (fun c => canSave s1 ((s1.lrec p.1.record).gauge && c != w.core) c) &&
      launchStops s1 p.1 (some w.core) && mailClear s1 p.1 p.2) then .wait
  else
    match openAccess s1 w.core (syncAcc .write 0x1000) (.va va) image.length with
    | .error (c, v) => .raiseIn (translatedFor s w.core (syncAcc .write 0x1000) (.va va) image.length) c v
    | .ok (segs, s2) =>
      let mask := List.replicate image.length true
      if cs.contains w.core then
        .ok (saveAll image s.steps (onDie s2 ctx die) (requestWrites w.core (.instr w.core .a) segs image mask
          (writeSegs s2 w.core (s2.core w.core).nextId segs image mask))) (.stay .none)
      else
        match storeSegs w.core (partsOf segs image mask) s2 with
        | none => .wait
        | some s3 => .ok (saveAll image s.steps (onDie s3 ctx die) s3) .seq

theorem ctxsv_exec : exec (.ctxsv a b) s = ctxForm (.ctxsv a b) a b (saveDie a b) s := rfl

/-- Every job can be saved, and the image has been stored: the jobs leave the die. -/
theorem saveDie_saves (hcan : ∀ p ∈ onDie s x (dieOf w.core), mailClear s p.1 p.2 = true ∧ launchStops s p.1 (some w.core) = true ∧
      ∀ n ∈ p.2, (s.core n).inFlight = 0 ∧ canSave s ((s.lrec p.1.record).gauge && n != w.core) n = true)
    (hopen : openAccess s w.core (syncAcc .write 0x1000) (.va va) (ownImage s x (dieOf w.core)).length = .ok (segs, s1))
    (hstore : storeSegs w.core (partsOf segs (ownImage s x (dieOf w.core))
      (List.replicate (ownImage s x (dieOf w.core)).length true)) s1 = some s2)
    (hout : w.core ∉ dieCores s x (dieOf w.core)) :
    saveDie a b s w va x = .ok (saveAll (ownImage s x (dieOf w.core)) s.steps (onDie s2 x (dieOf w.core)) s2) .seq := by
  have hidle : settleCores (dieCores s x (dieOf w.core)) s = s := settleCores_idle _ fun c hc => by
    obtain ⟨p, hp, hc⟩ := List.mem_flatMap.mp hc
    exact ((hcan p hp).2.2 c hc).1
  have hall : (onDie s x (dieOf w.core)).all (fun p => p.2.all (fun c => canSave s ((s.lrec p.1.record).gauge && c != w.core) c) &&
      launchStops s p.1 (some w.core) && mailClear s p.1 p.2) = true := List.all_eq_true.mpr fun p hp => by
    obtain ⟨hmail, hstop, hcores⟩ := hcan p hp
    have hsave : p.2.all (fun c => canSave s ((s.lrec p.1.record).gauge && c != w.core) c) = true :=
      List.all_eq_true.mpr fun c hc => (hcores c hc).2
    rw [hsave, hmail, hstop]
    rfl
  have hnot : (dieCores s x (dieOf w.core)).contains w.core = false := by simpa using hout
  rw [dieCores] at hidle hnot
  rw [ownImage, dieCores] at hopen hstore
  rw [saveDie]
  dsimp only
  rw [hidle, hall, if_neg (by decide), hopen]
  dsimp only
  rw [hnot, if_neg Bool.false_ne_true, hstore]
  rfl

end

/-! ### The load -/

section
variable {s : State} {w : Who} {a b x va : Nat}

/-- What CTXLD does with a die image. -/
def loadDie (a b : Nat) (s : State) (w : Who) (ctx c n : Nat) (image : List Byte) (s2 : State) : Res :=
  if !versionsOk image n then .raise 0x02 (opTval (.ctxld a b) false 13)
  else if c != ctx then .raise 0x02 (opTval (.ctxld a b) false 7)
  else
    match restoreAll (dieOf w.core) s (imageJobs s2 ctx image) s2 with
    | .error s3 => .ok s3 (.stay .waiting)
    | .ok s3 => .ok (dropReqs s3 (.instr w.core w.eng)) .seq

theorem ctxld_exec : exec (.ctxld a b) s = ctxForm (.ctxld a b) a b (fun s w va ctx =>
    forgetReads s w (if !(s.core w.core).doneA then .wait
      else readKept s s w va 0x1000 (fun header s1 =>
        readKept s s1 w (va + 0x1000) ((headerOf s header).2 * 0x180000) (fun jobs s2 =>
          loadDie a b s w ctx (headerOf s header).1 (headerOf s header).2 (header ++ jobs) s2)))) s := rfl

theorem restoreAll_one {f : Lifeline} {s2 : State} (die : Nat) :
    restoreAll die s [f] s2 = (match shiftFor s2 (fun c => dieOf c == die && coreFits s2
        (if s2.launches.any (fun l => l.record == f.launch.record) then [f.launch.record] else []) []
        (s2.lrec f.launch.record).gauge c) f with
      | none => .error s
      | some ((dx, dy), cs) =>
        let change := toChange s2 (s2.lrec f.launch.record).gauge (unitsAmong 2 cs [])
        if !change.isEmpty then .error (startChange (s2.lrec f.launch.record).gauge change s)
        else
          match restoreAt s2 f dx dy with
          | .ok s1 => .ok s1
          | .error _ => .error (eitherState (restoreAt s f dx dy))) := rfl

end

/-! ## The obligation -/

section
variable {s : State} {c d bk e : Nat} {segs : List Seg}

/-- The table of a DECLD is read: the bank has it, and the stream goes on with the generation. -/
theorem decldLoadDone_loads {l : List Byte} {s1 : State} (hc : c < 512) (hs : s.still c = false)
    (hat : (s.stream ⟨c, .a⟩).at_ = .decld d bk e segs)
    (hb : heldBack (s.stream ⟨c, .a⟩).pend (.load 0 8 false segs none) = false) (hst : Straight s ⟨c, .a⟩ 4)
    (hd : (s.stream ⟨c, .a⟩).full d = true) (hg : gather c (.instr c .a) segs s = .ok l s1) :
    ∃ t T, exec (.decldLoadDone c) s = .next t ∧ t.core c = { (s.core c).loadsBank bk e l with a := T } ∧
      T.pc = (s.stream ⟨c, .a⟩).pc + 4 ∧ T.run = s.runNext ⟨c, .a⟩ ∧
      (∀ n, T.reg n = if n = d ∧ d ≠ 0 then BitVec.ofNat 64 ((s.core c).as.gen + 1) else (s.stream ⟨c, .a⟩).reg n) ∧
      t.mem = s.mem ∧ ∀ n, n ≠ c → t.core n = s.core n := by
  obtain ⟨x, hx⟩ := gather_frame hg
  have hcore1 : s1.core c = s.core c := by rw [hx]; rfl
  obtain ⟨v, hv⟩ : ∃ v, v = BitVec.ofNat 64 ((s.core c).as.gen + 1) := ⟨_, rfl⟩
  obtain ⟨K, hK⟩ : ∃ K, K = (s.core c).loadsBank bk e l := ⟨_, rfl⟩
  obtain ⟨u, hu⟩ : ∃ u, u = dropReqs (s1.setCore c K) (.instr c .a) := ⟨_, rfl⟩
  have hKa : K.a = (s.core c).a ∧ K.held = (s.core c).held := by rw [hK]; exact ⟨rfl, rfl⟩
  obtain ⟨hKa, hKheld⟩ := hKa
  have hucore : u.core c = K := by rw [hu]; exact State.core_setCore_self s1 c K
  have hustream : u.stream ⟨c, .a⟩ = s.stream ⟨c, .a⟩ := (congrArg Core.a hucore).trans hKa
  have huother : ∀ n, n ≠ c → u.core n = s.core n := fun n hn => by
    rw [hu, hx]
    exact State.core_setCore_ne s K hn
  have humem : u.mem = s.mem := by rw [hu, hx]; rfl
  have hexec := decldLoadDone_acts hc hs hat hb
  rw [hg] at hexec
  dsimp only at hexec
  rw [hcore1, ← hK, ← hu, ← hv, putReg_full (by rw [hustream]; exact hd), hustream] at hexec
  obtain ⟨y, hy⟩ : ∃ y, y = u.setStream ⟨c, .a⟩ ((s.stream ⟨c, .a⟩).put d v) := ⟨_, rfl⟩
  have hystream : y.stream ⟨c, .a⟩ = (s.stream ⟨c, .a⟩).put d v := by rw [hy, State.stream_setStream_self]
  rw [← hy, retire_stays hst (by rw [hystream]; exact Stream.put_loops _ _ _) (by rw [hystream]; exact Stream.put_pc _ _ _)] at hexec
  have hnext : y.runNext ⟨c, .a⟩ = s.runNext ⟨c, .a⟩ := by
    rw [hy, runNext_setStream (by rw [hustream]; exact Stream.put_run _ _ _) (by rw [hustream]; exact Stream.put_at_ _ _ _)]
    rw [State.runNext, State.runNext, hustream, hucore, runAfter, runAfter, hKheld]
  have hycore : y.core c = { K with a := (s.stream ⟨c, .a⟩).put d v } := by
    rw [hy, State.core_setStream_self, hucore]
    rfl
  refine ⟨_, { (y.core c).a with pc := s.pcOf ⟨c, .a⟩ + BitVec.ofNat 64 4, run := y.runNext ⟨c, .a⟩, at_ := .free }, hexec,
    (core_goTo_a y c _).trans ?_, rfl, hnext, fun n => ?_, ?_, fun n hn => ?_⟩
  · rw [hycore, hK]
  · have hreg : ({ (y.core c).a with pc := s.pcOf ⟨c, .a⟩ + BitVec.ofNat 64 4, run := y.runNext ⟨c, .a⟩, at_ := .free } : Stream).reg n =
        ((s.stream ⟨c, .a⟩).put d v).reg n := by
      rw [hycore]
      rfl
    rw [hreg, ← hv]
    by_cases hn : n = d
    · subst hn
      rw [Stream.put_reg_self]
      by_cases h0 : n = 0
      · rw [if_pos h0, if_neg (by simp [h0]), h0]
        rfl
      · rw [if_neg h0, if_pos ⟨rfl, h0⟩]
    · rw [Stream.put_reg_ne _ _ hn, if_neg (fun h => hn h.1)]
  · rw [hy]
    exact humem
  · rw [core_goTo_ne hn, hy]
    exact (State.core_setCore_ne _ _ hn).trans (huother n hn)

theorem decldLoadDone_faults {cause : Nat} {tv : Nat} (hc : c < 512) (hs : s.still c = false)
    (hat : (s.stream ⟨c, .a⟩).at_ = .decld d bk e segs)
    (hb : heldBack (s.stream ⟨c, .a⟩).pend (.load 0 8 false segs none) = false) (hg : gather c (.instr c .a) segs s = .bad cause tv) :
    exec (.decldLoadDone c) s = .next (takeTrap (dropReqs s (.instr c .a)) ⟨c, .a⟩ cause (accTval false tv)) := by
  rw [decldLoadDone_acts hc hs hat hb, hg]

end

section
variable {s : State} {c a b x : Nat}

/-- CTXSV once its image is stored: no job of the context is left on the die. -/
theorem ctxsv_saves {segs : List Seg} {s1 s2 : State} (hact : Acts s ⟨c, .a⟩) (hf : Full s ⟨c, .a⟩ [a, b])
    (hs : (s.stream ⟨c, .a⟩).super = true) (hx : x ≤ 63) (hxb : x = (regOf s ⟨c, .a⟩ b).toNat) (hlive : (s.ctx x).live = true)
    (hal : (regOf s ⟨c, .a⟩ a).toNat % 0x1000 = 0) (hst : Straight s ⟨c, .a⟩ 4)
    (hcan : ∀ p ∈ onDie s x (dieOf c), mailClear s p.1 p.2 = true ∧ launchStops s p.1 (some c) = true ∧
      ∀ n ∈ p.2, (s.core n).inFlight = 0 ∧ canSave s ((s.lrec p.1.record).gauge && n != c) n = true)
    (hopen : openAccess s c (syncAcc .write 0x1000) (.va (regOf s ⟨c, .a⟩ a).toNat) (ownImage s x (dieOf c)).length = .ok (segs, s1))
    (hstore : storeSegs c (partsOf segs (ownImage s x (dieOf c)) (List.replicate (ownImage s x (dieOf c)).length true)) s1 = some s2)
    (hout : c ∉ dieCores s x (dieOf c)) :
    ∃ t new, exec (.ctxsv a b) s = .next t ∧ (∀ n ∈ dieCores s x (dieOf c), (t.core n).job = none) ∧
      t.lifelines = s.lifelines ++ new ∧ new.length = (onDie s x (dieOf c)).length ∧
      (∀ f ∈ new, f.ctx = x ∧ f.image = some (ownImage s x (dieOf c))) ∧ (t.stream ⟨c, .a⟩).pc = (s.stream ⟨c, .a⟩).pc + 4 ∧
      t.mem = s2.mem := by
  have hperf : Performs c s s2 := (Performs.of_opens (Opens.of_openAccess hopen)).trans (Performs.of_storeSegs hstore)
  have hjobs : ∀ n, (s2.core n).job = (s.core n).job := fun n => by
    by_cases hn : n = c
    · rw [hn, hperf.job]
    · rw [hperf.others n hn]
  have hdie : onDie s2 x (dieOf c) = onDie s x (dieOf c) := onDie_congr hperf.launches hperf.recs hjobs _ _
  obtain ⟨u, hu⟩ : ∃ u, u = saveAll (ownImage s x (dieOf c)) s.steps (onDie s x (dieOf c)) s2 := ⟨_, rfl⟩
  obtain ⟨hleaves, hended, new, hnew, hlen, hall⟩ := saveAll_saves (ownImage s x (dieOf c)) s.steps (onDie s x (dieOf c)) s2
  rw [← hu] at hleaves hended hnew
  obtain ⟨o, h, j, hcore⟩ := hleaves.other c hout
  obtain ⟨P, hP⟩ := hperf.a
  have hustream : u.stream ⟨c, .a⟩ = { s.stream ⟨c, .a⟩ with pend := P } := by
    have ha : (u.core c).a = (s2.core c).a := by rw [hcore]
    exact ha.trans hP
  have hexec : exec (.ctxsv a b) s = finish ⟨c, .a⟩ 4 s (.ok u .seq) := by
    subst hxb
    rw [ctxsv_exec, ctxForm_acts hact rfl hf hs hx hlive hal, saveDie_saves (w := ⟨c, .a⟩) hcan hopen hstore hout, hdie, ← hu]
  rw [finish_seq hst (by rw [hustream]) (by rw [hustream])] at hexec
  refine ⟨_, new, hexec, fun n hn => ?_, hnew.trans (by rw [hperf.lifelines]), hlen, fun f hf => ?_, ?_, hleaves.mem⟩
  · have hne : n ≠ c := fun h => hout (h ▸ hn)
    rw [core_goTo_ne hne]
    exact hended n hn
  · obtain ⟨himage, p, hp, hctx⟩ := hall f hf
    refine ⟨hctx.trans ?_, himage⟩
    rw [State.lrec, hperf.recs]
    have hp := (List.mem_filter.mp hp).2
    simp only [Bool.and_eq_true, beq_iff_eq] at hp
    exact hp.1
  · have hcoret := core_goTo_a u c (s.pcOf ⟨c, .a⟩ + BitVec.ofNat 64 4)
    exact (congrArg (fun k : Core => k.a.pc) hcoret).trans rfl

/-- CTXLD where the header and the images have been read. -/
theorem ctxld_reads {header jobs : List Byte} {s1 s2 : State} {hc n : Nat} (hact : Acts s ⟨c, .a⟩) (hf : Full s ⟨c, .a⟩ [a, b])
    (hs : (s.stream ⟨c, .a⟩).super = true) (hx : (regOf s ⟨c, .a⟩ b).toNat ≤ 63) (hlive : (s.ctx (regOf s ⟨c, .a⟩ b).toNat).live = true)
    (hal : (regOf s ⟨c, .a⟩ a).toNat % 0x1000 = 0) (hdone : (s.core c).doneA = true)
    (h1 : ReadsAs s c (regOf s ⟨c, .a⟩ a).toNat 0x1000 header s1) (hhead : headerOf s header = (hc, n))
    (h2 : ReadsAs s1 c ((regOf s ⟨c, .a⟩ a).toNat + 0x1000) (n * 0x180000) jobs s2) :
    exec (.ctxld a b) s = finish ⟨c, .a⟩ 4 s (forgetReads s ⟨c, .a⟩
      (loadDie a b s ⟨c, .a⟩ (regOf s ⟨c, .a⟩ b).toNat hc n (header ++ jobs) s2)) := by
  rw [ctxld_exec, ctxForm_acts hact rfl hf hs hx hlive hal, hdone, if_neg (by decide), readKept_eq (w := ⟨c, .a⟩) rfl h1, hhead,
    readKept_eq (w := ⟨c, .a⟩) rfl h2]

theorem reads_a {va n : Nat} {l : List Byte} {t : State} (h : ReadsAs s c va n l t) : (t.core c).a = (s.core c).a := by
  obtain ⟨parts, s1, hopen, _, hg⟩ := h
  obtain ⟨C, hC⟩ := gather_frame hg
  have hcore : t.core c = s1.core c := by rw [hC]; rfl
  rw [hcore, (Opens.of_openAccess hopen).a]

/-- One lifeline is restored where it was saved; the stream goes on. -/
theorem loadDie_restores {f : Lifeline} {image : List Byte} {n : Nat} {s2 : State} (hver : versionsOk image n = true)
    (himage : imageJobs s2 x image = [f]) (hplace : shiftFor s2 (fun n => dieOf n == dieOf c && coreFits s2
        (if s2.launches.any (fun l => l.record == f.launch.record) then [f.launch.record] else []) []
        (s2.lrec f.launch.record).gauge n) f = some ((0, 0), f.cores.map Prod.fst))
    (hchange : toChange s2 (s2.lrec f.launch.record).gauge (unitsAmong 2 (f.cores.map Prod.fst) []) = []) {u : State}
    (hu : restoreAt s2 f 0 0 = .ok u) :
    loadDie a b s ⟨c, .a⟩ x x n image s2 = .ok (dropReqs u (.instr c .a)) .seq := by
  rw [loadDie, hver, if_neg (by decide), if_neg (by simp), himage, restoreAll_one, hplace]
  dsimp only
  rw [hchange, if_neg (by decide), hu]

theorem loadDie_waits {f : Lifeline} {image : List Byte} {n : Nat} {s2 : State} (hver : versionsOk image n = true)
    (himage : imageJobs s2 x image = [f]) (hplace : shiftFor s2 (fun n => dieOf n == dieOf c && coreFits s2
        (if s2.launches.any (fun l => l.record == f.launch.record) then [f.launch.record] else []) []
        (s2.lrec f.launch.record).gauge n) f = none) :
    loadDie a b s ⟨c, .a⟩ x x n image s2 = .ok s (.stay .waiting) := by
  rw [loadDie, hver, if_neg (by decide), if_neg (by simp), himage, restoreAll_one, hplace]

end

/-- Settles O40: a save by the jobs it leaves, a load by what it reads and where the image fits. -/
theorem tablesAndContexts : Obligations.TablesAndContexts := by
  unfold Obligations.TablesAndContexts
  intro s w d a b e hw
  obtain ⟨c, eng⟩ := w
  obtain rfl : eng = .a := hw
  refine ⟨fun hact hf => ⟨fun f h => decld_refused hact rfl hf h, fun segs s1 h => ⟨fun hbusy => ?_, fun hused hlate hhere => ?_⟩⟩,
    fun bk segs l s1 hc hs hat hb hst hd => ⟨fun hg => ?_, fun cause tv hg => decldLoadDone_faults hc hs hat hb hg⟩,
    fun hact hf => ⟨fun i hi => ?_, fun hsuper hx hlive hal hst => ⟨fun segs s1 s2 hcan hopen hstore hout =>
      ctxsv_saves hact hf hsuper hx rfl hlive hal hst hcan hopen hstore hout, fun hdone => ?_,
      fun header s1 hc n jobs s2 hdone h1 hhead h2 => ?_⟩⟩⟩
  · rw [Waits, decld_opens hact rfl hf h, if_pos (by simpa using hbusy)]
    rfl
  · have hlate' : leavesLate s c (.load 0 8 false segs none) = false := hlate
    rw [decld_opens hact rfl hf h, hused, hlate', if_neg (by decide), requestReads_here _ _ _ _ hhere]
    exact finish_standsAt _ _ _ _
  · obtain ⟨t, T, hexec, hcore, hpc, hrun, hreg, hmem, hother⟩ := decldLoadDone_loads hc hs hat hb hst hd hg
    have hbank : ∀ n, (t.core c).bank n = ((s.core c).loadsBank bk e l).bank n := fun n => by rw [hcore]; rfl
    have hstream : t.stream ⟨c, .a⟩ = T := congrArg Core.a hcore
    refine ⟨t, hexec, ?_, fun n hn => ?_, by rw [hcore]; rfl, by rw [hstream]; exact hpc, by rw [hstream]; exact hrun, fun n => ?_,
      hmem, by rw [hcore]; rfl, hother⟩
    · rw [hbank, bank_loadsBank, if_pos rfl]
    · rw [hbank, bank_loadsBank, if_neg hn]
    · rw [hstream]
      exact hreg n
  · rcases List.mem_cons.mp hi with rfl | hi
    · exact ctxForm_checks hact rfl hf ctxsv_exec
    · obtain rfl := List.mem_singleton.mp hi
      exact ctxForm_checks hact rfl hf ctxld_exec
  · have hdone' : (s.core c).doneA = false := hdone
    rw [Waits, ctxld_exec, ctxForm_acts hact rfl hf hsuper hx hlive hal, hdone', if_pos (by decide)]
    rfl
  · have hexec := ctxld_reads hact hf hsuper hx hlive hal hdone h1 hhead h2
    refine ⟨fun hver => ?_, fun hver hne => ?_, fun f hver heq himage => ⟨fun hplace => ?_, fun hplace hctx hcores hnd haway honly hlaunch
      hvault hchange => ?_⟩⟩
    · rw [hexec, loadDie, hver, if_pos (by decide)]
      rfl
    · rw [hexec, loadDie, hver, if_neg (by decide), if_pos (by simpa using hne)]
      rfl
    · subst heq
      rw [Waits, hexec, loadDie_waits hver himage hplace]
      rfl
    · subst heq
      obtain ⟨u, hu, humem, hulife, hulaunch, huother, hucore⟩ := restoreAt_restores hnd honly hlaunch hvault
      have hout : c ∉ f.cores.map Prod.fst := fun h => by
        obtain ⟨p, hp, hpc⟩ := List.mem_map.mp h
        exact (haway p hp).1 hpc
      obtain ⟨j, hj⟩ := huother c hout
      obtain ⟨v, hv⟩ : ∃ v, v = dropReqs u (.instr c .a) := ⟨_, rfl⟩
      have hvcore : ∀ n, v.core n = u.core n := fun n => by rw [hv]; rfl
      have hva : v.stream ⟨c, .a⟩ = s.stream ⟨c, .a⟩ := by
        have ha : (v.core c).a = (s2.core c).a := by rw [hvcore, hj]
        exact ha.trans ((reads_a h2).trans (reads_a h1))
      rw [loadDie_restores hver himage hplace hchange hu, ← hv] at hexec
      have hgo := hexec.trans (finish_seq hst (by rw [hva]) (by rw [hva]))
      refine ⟨_, hgo, ?_, ?_, ?_, fun p hp => ?_⟩
      · have hlife : (v.goTo ⟨c, .a⟩ (s.pcOf ⟨c, .a⟩ + BitVec.ofNat 64 4)).lifelines = u.lifelines := by rw [hv]; rfl
        rw [hlife, hulife]
        intro hmem
        exact absurd (List.mem_filter.mp hmem).2 (by simp)
      · exact (congrArg (fun k : Core => k.a.pc) (core_goTo_a v c (s.pcOf ⟨c, .a⟩ + BitVec.ofNat 64 4))).trans rfl
      · rw [hv]
        exact hulaunch
      · obtain ⟨j', o, h, g, n, hp'⟩ := hucore p hp
        rw [core_goTo_ne (haway p hp).1, hvcore, hp']
        exact ⟨rfl, rfl, rfl, rfl, rfl, rfl, rfl⟩

end Sys2Proof.Machine
end

section
/-! SUPPORT. The asynchronous forms at issue (R242, R261, R266 to R278): what they refuse, what they capture, and the transfer that
stands in a slot. -/

namespace Sys2Proof.Machine

/-! ## A transfer enters its slot -/

/-- The second core has put a transfer into a slot: its tokens are taken, its slots reserved and its phase stepped; queues, feeds and what
is counted for the deterministic buffer are left open. -/
structure XferPut (k K : Core) (slot : Nat) (x : Transfer) (ctl : ACtl) (rnd : Rnd) : Prop where
  frame : K = { k with
    as := { k.as with xfers := tset k.as.xfers slot x },
    ms := { k.ms with feeds := K.ms.feeds, nextFeed := K.ms.nextFeed },
    a := { k.a with dph := if rnd = .rdi then BitVec.ofNat 64 ((k.a.phase + 1) % 32) else k.a.dph },
    q := K.q, tokens := K.tokens, reserved := K.reserved, nextId := K.nextId, det := K.det }
  tokens : ∀ n, K.token n = k.token n - (if n ∈ takeFifos .a ctl.take then 1 else 0)
  slots : ∀ n, K.slots n = k.slots n + (if n ∈ giveFifos .a ctl.give then 1 else 0)

/-- The transfer that a form of core `c` starts. -/
def newXfer (u : State) (c : Nat) (ctl : ACtl) (bag : Word) (op : XferOp) : Transfer :=
  ⟨op, 0, false, ctl.give, (u.core c).a.phase, 0, (u.core c).nextId, [], [], bag, [], [], [], detCount (u.tookA ⟨c, .a⟩ ctl) c op, 0⟩

section
variable {s u : State} {c slot : Nat} {ctl : ACtl} {rnd : Rnd} {bag : Word} {mk : Core → XferOp × Core} {op : XferOp} {K : Core} {i : Instr}

theorem countIf_eq (b : Bool) (n : Nat) (s : State) (c : Nat) (k : Core) : ∃ D, countIf b c n (s.setCore c k) = s.setCore c { k with det := D } ∧
    (b = false → D = k.det) := by
  cases b with
  | false => exact ⟨k.det, rfl, fun _ => rfl⟩
  | true =>
    refine ⟨{ k.det with counted := k.det.counted + n, ended := k.det.ended || 4096 ≤ k.det.counted + n }, ?_, fun h => by cases h⟩
    rw [countIf, if_pos rfl, countDet, State.core_setCore_self]
    exact State.setCore_setCore _ _ _ _

theorem startXfer_waits (ht : (u.core c).hasTokens (takeFifos .a ctl.take) = true)
    (hs : (u.core c).fullFifo (giveFifos .a (ctl.give % 4)) = none) (hf : freeSlot (u.core c) = none) :
    startXfer ctl rnd bag u ⟨c, .a⟩ mk = .wait := by
  obtain ⟨T, R, htook, -⟩ := tookA_eq u c ctl
  have hfree : freeSlot ((u.tookA ⟨c, .a⟩ ctl).core c) = none := by
    rw [htook]
    exact hf
  rw [startXfer, aTokens_goes ht hs]
  dsimp only
  rw [hfree]

/-- A form whose FIFOs have what it needs puts its transfer into the lowest free slot. -/
theorem startXfer_puts {Q : Tbl (List QEnt)} {N F : Nat} {L : List Feed} (ht : (u.core c).hasTokens (takeFifos .a ctl.take) = true)
    (hs : (u.core c).fullFifo (giveFifos .a (ctl.give % 4)) = none) (hf : freeSlot (u.core c) = some slot)
    (hmk : mk ((u.tookA ⟨c, .a⟩ ctl).core c) = (op, { (u.tookA ⟨c, .a⟩ ctl).core c with
      q := Q, nextId := N, ms := { (u.core c).ms with feeds := L, nextFeed := F } })) :
    ∃ K, startXfer ctl rnd bag u ⟨c, .a⟩ mk = .ok (u.setCore c K) .seq ∧ XferPut (u.core c) K slot (newXfer u c ctl bag op) ctl rnd ∧
      K.q = Q ∧ K.ms = { (u.core c).ms with feeds := L, nextFeed := F } ∧
      ((u.ctx (u.core c).ctx).mmode ≠ 2 → K.det = (u.core c).det) := by
  obtain ⟨T, R, htook, htokens, hslots⟩ := tookA_eq u c ctl
  have hfree : freeSlot ((u.tookA ⟨c, .a⟩ ctl).core c) = some slot := by
    rw [htook]
    exact hf
  obtain ⟨n, hn⟩ : ∃ n, n = detCount (u.tookA ⟨c, .a⟩ ctl) c op := ⟨_, rfl⟩
  obtain ⟨x, hx⟩ : ∃ x, x = newXfer u c ctl bag op := ⟨_, rfl⟩
  obtain ⟨k1, hk1⟩ : ∃ k1, k1 = ({ u.core c with
      as := { (u.core c).as with xfers := tset (u.core c).as.xfers slot x },
      ms := { (u.core c).ms with feeds := L, nextFeed := F }, a := (u.core c).a.stepPhase rnd,
      q := Q, tokens := T, reserved := R, nextId := N + 1 } : Core) := ⟨_, rfl⟩
  obtain ⟨D, hD, hdet⟩ := countIf_eq (decide (0 < n)) n (u.tookA ⟨c, .a⟩ ctl) c k1
  refine ⟨{ k1 with det := D }, ?_, ⟨?_, fun m => ?_, fun m => ?_⟩, by rw [hk1], by rw [hk1], fun hm => ?_⟩
  · have hset : (u.tookA ⟨c, .a⟩ ctl).setCore c { k1 with det := D } = u.setCore c { k1 with det := D } := by
      rw [State.tookA]
      exact State.setCore_setCore _ _ _ _
    rw [← hset, ← hD, startXfer, aTokens_goes ht hs]
    dsimp only
    rw [hfree]
    dsimp only
    rw [hmk, hk1, hx, hn, htook]
    rfl
  · rw [hk1, stepPhase_eq, hx]
  · rw [hk1]
    exact htokens m
  · rw [hk1]
    exact hslots m
  · have hzero : n = 0 := by
      rw [hn, detCount, htook]
      exact if_neg hm
    rw [hdet (by simp [hzero]), hk1]

/-- How a form ends that has put its transfer. -/
theorem XferPut.started (h : XferPut (u.core c) K slot (newXfer u c ctl bag op) ctl rnd) (hst : Straight s ⟨c, .a⟩ 8)
    (hk : u.core c = s.core c) (hdet : (u.ctx (u.core c).ctx).mmode ≠ 2 → K.det = (u.core c).det) :
    ∃ t, finish ⟨c, .a⟩ 8 s (.ok (u.setCore c K) .seq) = .next t ∧ Started u t ⟨c, .a⟩ ctl slot rnd bag op ∧
      (t.core c).q = K.q ∧ (t.core c).ms = K.ms := by
  have hstream : (u.setCore c K).stream ⟨c, .a⟩ = K.a := congrArg Core.a (State.core_setCore_self _ _ _)
  have hloops : K.a.loops = (s.core c).a.loops := by rw [h.frame, hk]
  have hpc : K.a.pc = (s.core c).a.pc := by rw [h.frame, hk]
  have hgo := finish_seq (v := u.setCore c K) hst (by rw [hstream]; exact hloops) (by rw [hstream]; exact hpc)
  have hpcs : s.pcOf ⟨c, .a⟩ = u.pcOf ⟨c, .a⟩ := (congrArg (fun k => k.a.pc) hk).symm
  obtain ⟨t, ht⟩ : ∃ t, t = (u.setCore c K).goTo ⟨c, .a⟩ (s.pcOf ⟨c, .a⟩ + BitVec.ofNat 64 8) := ⟨_, rfl⟩
  have hc : t.core c = { K with a := { K.a with pc := u.pcOf ⟨c, .a⟩ + 8, run := runAfter K K.a, at_ := .free } } := by
    rw [ht, hpcs]
    exact core_goTo (w := ⟨c, .a⟩) u K _
  rw [← ht] at hgo
  refine ⟨t, hgo, ⟨?_, fun n => ?_, fun n => ?_, ?_, fun hm => ?_, ht ▸ onlyCore_goTo (w := ⟨c, .a⟩) u K _⟩, 
    (congrArg Core.q hc).trans rfl, (congrArg Core.ms hc).trans rfl⟩
  · exact (congrArg (fun k => k.as.xfers) hc).trans (congrArg (fun k => k.as.xfers) h.frame)
  · exact (congrArg (fun k => k.token n) hc).trans (h.tokens n)
  · exact (congrArg (fun k => k.slots n) hc).trans (h.slots n)
  · obtain ⟨Q, T, R, N, D, L, F, hK⟩ : ∃ Q T R N D L F, K = { u.core c with
        as := { (u.core c).as with xfers := tset (u.core c).as.xfers slot (newXfer u c ctl bag op) },
        ms := { (u.core c).ms with feeds := L, nextFeed := F },
        a := { (u.core c).a with
          dph := if rnd = .rdi then BitVec.ofNat 64 (((u.core c).a.phase + 1) % 32) else (u.core c).a.dph },
        q := Q, tokens := T, reserved := R, nextId := N, det := D } := ⟨_, _, _, _, _, _, _, h.frame⟩
    rw [hK] at hc
    dsimp only
    rw [hc]
    rfl
  · exact (congrArg Core.det hc).trans (hdet hm)

/-- A form that starts a transfer and touches neither queues nor feeds. -/
theorem starts_of_exec (hst : Straight s ⟨c, .a⟩ 8) (ht : (s.core c).hasTokens (takeFifos .a ctl.take) = true)
    (hs : (s.core c).fullFifo (giveFifos .a (ctl.give % 4)) = none) (hk : u.core c = s.core c)
    (hexec : exec i s = finish ⟨c, .a⟩ 8 s (startXfer ctl rnd bag u ⟨c, .a⟩ mk))
    (hmk : ∀ T R, mk { s.core c with tokens := T, reserved := R } = (op, { s.core c with tokens := T, reserved := R })) :
    (freeSlot (s.core c) = none → Waits i s ⟨c, .a⟩) ∧
    (freeSlot (s.core c) = some slot → ∃ t, exec i s = .next t ∧ Started u t ⟨c, .a⟩ ctl slot rnd bag op ∧
      (t.core c).q = (s.core c).q ∧ (t.core c).ms = (s.core c).ms) := by
  rw [← hk] at ht hs hmk ⊢
  refine ⟨fun hf => ?_, fun hf => ?_⟩
  · rw [Waits, hexec, startXfer_waits ht hs hf]
    rfl
  · obtain ⟨T, R, htook, -⟩ := tookA_eq u c ctl
    obtain ⟨K, hgo, hput, hq, hms, hdet⟩ := startXfer_puts (mk := mk) (rnd := rnd) (bag := bag) (Q := (u.core c).q) (N := (u.core c).nextId)
      (F := (u.core c).ms.nextFeed) (L := (u.core c).ms.feeds) ht hs hf (by rw [htook, hmk])
    obtain ⟨t, hfin, hstarted, htq, htms⟩ := hput.started hst hk hdet
    exact ⟨t, by rw [hexec, hgo, hfin], hstarted, htq.trans hq, htms.trans hms⟩

theorem startsXfer_of_exec {regs : List Nat} (h : AReady s ⟨c, .a⟩ ctl regs)
    (hexec : exec i s = finish ⟨c, .a⟩ 8 s (startXfer ctl rnd bag s ⟨c, .a⟩ mk))
    (hmk : ∀ T R, mk { s.core c with tokens := T, reserved := R } = (op, { s.core c with tokens := T, reserved := R })) :
    (freeSlot (s.core c) = none → Waits i s ⟨c, .a⟩) ∧
    (freeSlot (s.core c) = some slot → StartsXfer i s ⟨c, .a⟩ ctl slot rnd bag op) :=
  starts_of_exec h.line h.tokens h.slots rfl hexec hmk

/-! ## Captured bases (R235, R395) -/

section
variable {w : Who} {b : ABase} {align n h : Nat} {v : Base} {k : Base → Res}

theorem withBase_captured (hc : Captured s w b align v) : withBase s w b align k = k v := by
  cases b with
  | reg n =>
    obtain ⟨hal, rfl⟩ := hc
    rw [withBase]
    exact if_neg (by simp [hal])
  | handle h =>
    obtain ⟨slot, hs, rfl⟩ := hc
    rw [withBase, hs]

theorem withBase_unaligned (h : (regOf s w n).toNat % align ≠ 0) :
    withBase s w (.reg n) align k = .raise 0x13 (accTval false (regOf s w n).toNat) := by
  rw [withBase]
  exact if_pos (by simpa using h)

theorem withBase_closed (hs : handleSlot s w h = none) : withBase s w (.handle h) align k = .raise 0x15 (accTval false (32 + h)) := by
  rw [withBase, hs] <;> rfl

theorem captured_reg (h : (regOf s w n).toNat % align = 0) : Captured s w (.reg n) align (.va (regOf s w n)) := ⟨h, rfl⟩

end

/-! ## Copies, page moves, gathers and scatters (R266 to R273) -/

variable {d a : ABase} {b g e : Nat}

theorem cpgo_exec {dty sty : Ty} {mx kind : Nat} (h : AReady s ⟨c, .a⟩ ctl (baseRegs d ++ baseRegs a ++ [b, g, e])) :
    exec (.cpgo d a b dty sty rnd mx kind ctl) s = finish ⟨c, .a⟩ 8 s (
      if (regOf s ⟨c, .a⟩ b).toNat = 0 ∨ 2 ^ 20 < (regOf s ⟨c, .a⟩ b).toNat ∨ (regOf s ⟨c, .a⟩ b).toNat % unitLen dty sty mx ≠ 0 then
        .raise 0x02 (opTval (.cpgo d a b dty sty rnd mx kind ctl) false 7)
      else
        withBase s ⟨c, .a⟩ a (sideAlign sty (mx == 1)) (fun src =>
          withBase s ⟨c, .a⟩ d (sideAlign dty (mx == 2)) (fun dst =>
            startXfer ctl rnd 0 s ⟨c, .a⟩ (fun k =>
              (.cpgo dst src (regOf s ⟨c, .a⟩ b).toNat dty sty rnd mx kind ((List.range 6).map (levelOf k)), k))))) := by
  change execCpgo d a b dty sty rnd mx kind ctl s = _
  rw [execCpgo]
  dsimp only
  rw [aFrame_goes h (by simp)]
  congr 1
  refine if_congr ?_ rfl rfl
  simp [or_assoc]

theorem cpgath_exec {dty sty : Ty} {kind o : Nat} (h : AReady s ⟨c, .a⟩ ctl (baseRegs d ++ baseRegs a ++ [b, g, e]))
    (ho : o ≠ 0 → poolTypes ((s.stream ⟨c, .a⟩).profile ctl.np) sty = true) :
    exec (.cpgath d a b g o dty sty rnd kind ctl) s = finish ⟨c, .a⟩ 8 s (
      withBase s ⟨c, .a⟩ d (sideAlign dty false) (fun dst =>
        withBase s ⟨c, .a⟩ a (sideAlign sty false) (fun src =>
          withBase s ⟨c, .a⟩ (.reg b) 4 (fun index =>
            withBase s ⟨c, .a⟩ (.reg (if o = 0 then 0 else g)) 4 (fun bg =>
              startXfer ctl rnd (opTval (.cpgath d a b g o dty sty rnd kind ctl) true 19) s ⟨c, .a⟩ (fun k =>
                (.gather dst src index bg o dty sty rnd kind ((s.stream ⟨c, .a⟩).profile ctl.np) (levelOf k 0).count (levelOf k 0).src
                  (levelOf k 0).dst (levelOf k 1).count, k))))))) := by
  change execCpgath d a b g o dty sty rnd kind ctl s = _
  rw [execCpgath]
  dsimp only
  rw [aFrame_goes h (by simp)]
  by_cases h0 : o = 0
  · rw [if_pos h0]
  · rw [if_neg h0, poolRefused, if_pos (ho h0)]

theorem cpgath_refused {dty sty : Ty} {kind o : Nat} (h : AReady s ⟨c, .a⟩ ctl (baseRegs d ++ baseRegs a ++ [b, g, e])) (h0 : o ≠ 0)
    (ho : poolTypes ((s.stream ⟨c, .a⟩).profile ctl.np) sty = false) :
    Traps (.cpgath d a b g o dty sty rnd kind ctl) s ⟨c, .a⟩ 0x02 (opTval (.cpgath d a b g o dty sty rnd kind ctl) false 0) := by
  change execCpgath d a b g o dty sty rnd kind ctl s = _
  rw [execCpgath]
  dsimp only
  rw [aFrame_goes h (by simp), if_neg h0, poolRefused, if_neg (by rw [ho]; exact Bool.false_ne_true)]
  rfl

theorem cpscat_exec {dty sty : Ty} {kind : Nat} {add : Bool} (h : AReady s ⟨c, .a⟩ ctl (baseRegs d ++ baseRegs a ++ [b, g, e]))
    (ho : add = true → poolTypes ((s.stream ⟨c, .a⟩).profile ctl.np) sty = true) :
    exec (.cpscat d a b add dty sty rnd kind ctl) s = finish ⟨c, .a⟩ 8 s (
      withBase s ⟨c, .a⟩ d (sideAlign dty false) (fun dst =>
        withBase s ⟨c, .a⟩ a (sideAlign sty false) (fun src =>
          withBase s ⟨c, .a⟩ (.reg b) 4 (fun index =>
            startXfer ctl rnd 0 s ⟨c, .a⟩ (fun k =>
              (.scatter dst src index add dty sty rnd kind ((s.stream ⟨c, .a⟩).profile ctl.np) (levelOf k 0).count (levelOf k 0).src
                (levelOf k 0).dst (levelOf k 1).count, k)))))) := by
  change execCpscat d a b add dty sty rnd kind ctl s = _
  rw [execCpscat]
  dsimp only
  rw [aFrame_goes h (by simp)]
  cases add with
  | false => rfl
  | true => rw [if_pos rfl, poolRefused, if_pos (ho rfl)]

theorem cpscat_refused {dty sty : Ty} {kind : Nat} (h : AReady s ⟨c, .a⟩ ctl (baseRegs d ++ baseRegs a ++ [b, g, e]))
    (ho : poolTypes ((s.stream ⟨c, .a⟩).profile ctl.np) sty = false) :
    Traps (.cpscat d a b true dty sty rnd kind ctl) s ⟨c, .a⟩ 0x02 (opTval (.cpscat d a b true dty sty rnd kind ctl) false 0) := by
  change execCpscat d a b true dty sty rnd kind ctl s = _
  rw [execCpscat]
  dsimp only
  rw [aFrame_goes h (by simp), if_pos rfl, poolRefused, if_neg (by rw [ho]; exact Bool.false_ne_true)]
  rfl

/-- What `cpgo.pm` does with what the walk of its page answers. -/
def movesPage (t : State) (w : Who) (ctl : ACtl) (v f : Word) : Except Nat Trans → Option (Nat × Nat × Word) → Res
  | .error cause, _ => .raiseIn t cause (accTval false v.toNat)
  | .ok _, none => .raiseIn t 0x10 (accTval false v.toNat)
  | .ok _, some (entry, size, old) =>
    if v.toNat % 2 ^ (pageShift size) != 0 then .raiseIn t 0x13 (accTval false v.toNat)
    else if field f 43 0 % 2 ^ (pageShift size) != 0 then .raiseIn t 0x13 (accTval false f.toNat)
    else startXfer ctl .rne 0 t w (fun k => (.move v f size entry old, k))

theorem cpgoPm_exec {dr pg : Nat} (h : AReady s ⟨c, .a⟩ ctl (baseRegs (.reg dr) ++ baseRegs (.reg pg) ++ [b, g, e]))
    (hsup : (s.stream ⟨c, .a⟩).super = true) (hcan : canonical (regOf s ⟨c, .a⟩ pg).toNat = true) :
    exec (.cpgoPm dr pg ctl) s = finish ⟨c, .a⟩ 8 s (
      movesPage (countWalks (s.core c).ctx none [((regOf s ⟨c, .a⟩ pg).toNat, 0)] s) ⟨c, .a⟩ ctl (regOf s ⟨c, .a⟩ pg) (regOf s ⟨c, .a⟩ dr)
        (walk s (s.core c).ctx ((regOf s ⟨c, .a⟩ pg).toNat % 2 ^ 57))
        (leafEntry s ((regOf s ⟨c, .a⟩ pg).toNat % 2 ^ 57) (s.ctx (s.core c).ctx).root walkLevels)) := by
  change execCpgoPm dr pg ctl s = _
  rw [execCpgoPm]
  dsimp only
  rw [aFrame_goes h (by simp [baseRegs]), superOnly, if_pos hsup, if_neg (by simp [hcan])]
  rfl

theorem cpgoPm_user {dr pg : Nat} (h : AReady s ⟨c, .a⟩ ctl (baseRegs (.reg dr) ++ baseRegs (.reg pg) ++ [b, g, e]))
    (hsup : (s.stream ⟨c, .a⟩).super = false) : Traps (.cpgoPm dr pg ctl) s ⟨c, .a⟩ 0x03 (firstWord (.cpgoPm dr pg ctl)) := by
  change execCpgoPm dr pg ctl s = _
  rw [execCpgoPm]
  dsimp only
  rw [aFrame_goes h (by simp [baseRegs]), superOnly, if_neg (by rw [hsup]; exact Bool.false_ne_true)]
  rfl

/-! ## Feeds (R261 to R265) -/

theorem rgath_exec {ty : Ty} {sk tx sc : Bool} (h : AReady s ⟨c, .a⟩ ctl (baseRegs d ++ baseRegs a ++ [b, g, e])) :
    exec (.rgath d b g e ty rnd sk tx sc ctl) s = finish ⟨c, .a⟩ 8 s (
      if (regOf s ⟨c, .a⟩ g).toNat = 0 ∨ 65536 < (regOf s ⟨c, .a⟩ g).toNat then .raise 0x02 (opTval (.rgath d b g e ty rnd sk tx sc ctl) false 7)
      else if feedOk ty (regOf s ⟨c, .a⟩ e) false = false then .raise 0x02 (opTval (.rgath d b g e ty rnd sk tx sc ctl) true 19)
      else
        withBase s ⟨c, .a⟩ d (sideAlign ty false) (fun rows =>
          withBase s ⟨c, .a⟩ (.reg b) (if sc then 8 else 4) (fun index =>
            startFeed ctl rnd s ⟨c, .a⟩ (regOf s ⟨c, .a⟩ g).toNat (field (regOf s ⟨c, .a⟩ e) 31 16) ty (fun id =>
              .feed id rows index true (regOf s ⟨c, .a⟩ g).toNat (signedField (field (regOf s ⟨c, .a⟩ e) 63 32) 32)
                (field (regOf s ⟨c, .a⟩ e) 15 0) (field (regOf s ⟨c, .a⟩ e) 31 16) ty rnd sk tx sc)))) := by
  change execRgath d b g e ty rnd sk tx sc ctl s = _
  rw [execRgath]
  dsimp only
  rw [aFrame_goes h (by simp)]
  congr 1
  refine if_congr (by simp) rfl (if_congr (by simp) rfl rfl)

theorem rstrm_exec {ty : Ty} {sk : Bool} (h : AReady s ⟨c, .a⟩ ctl (baseRegs d ++ baseRegs a ++ [b, g, e])) :
    exec (.rstrm d g b e ty sk ctl) s = finish ⟨c, .a⟩ 8 s (
      if (regOf s ⟨c, .a⟩ g).toNat = 0 ∨ 65536 < (regOf s ⟨c, .a⟩ g).toNat then .raise 0x02 (opTval (.rstrm d g b e ty sk ctl) false 13)
      else if feedOk ty (regOf s ⟨c, .a⟩ e) true = false then .raise 0x02 (opTval (.rstrm d g b e ty sk ctl) true 19)
      else
        withBase s ⟨c, .a⟩ d (sideAlign ty false) (fun rows =>
          startFeed ctl .rne s ⟨c, .a⟩ (regOf s ⟨c, .a⟩ g).toNat (field (regOf s ⟨c, .a⟩ e) 31 16) ty (fun id =>
            .feed id rows (.va 0) false (regOf s ⟨c, .a⟩ g).toNat (regOf s ⟨c, .a⟩ b).toInt
              (field (regOf s ⟨c, .a⟩ e) 15 0) (field (regOf s ⟨c, .a⟩ e) 31 16) ty .rne sk false false))) := by
  change execRstrm d g b e ty sk ctl s = _
  rw [execRstrm]
  dsimp only
  rw [aFrame_goes h (by simp)]
  congr 1
  refine if_congr (by simp) rfl (if_congr (by simp) rfl rfl)

/-- The core whose engine M has learnt of a feed (R261). -/
def Core.withFeed (k : Core) (ty : Ty) (len n : Nat) : Core :=
  { k with ms := { k.ms with nextFeed := k.ms.nextFeed + 1, feeds := k.ms.feeds ++ [⟨k.ms.nextFeed, ty, len, n, [], 0, none⟩] } }

variable {n len : Nat} {ty : Ty} {mf : Nat → XferOp}

theorem startFeed_waits (ht : (s.core c).hasTokens (takeFifos .a ctl.take) = true)
    (hs : (s.core c).fullFifo (giveFifos .a (ctl.give % 4)) = none) (hf : freeSlot (s.core c) = none) :
    startFeed ctl rnd s ⟨c, .a⟩ n len ty mf = .wait := by
  rw [startFeed, startXfer_waits ht hs hf]

theorem startFeed_binds (ht : (s.core c).hasTokens (takeFifos .a ctl.take) = true)
    (hs : (s.core c).fullFifo (giveFifos .a (ctl.give % 4)) = none) (hf : freeSlot (s.core c) = some slot) :
    ∃ K, startFeed ctl rnd s ⟨c, .a⟩ n len ty mf = .ok (bindNow (s.setCore c K) c) .seq ∧
      XferPut (s.core c) K slot (newXfer s c ctl 0 (mf (s.core c).ms.nextFeed)) ctl rnd ∧ K.q = (s.core c).q ∧
      K.ms = ((s.core c).withFeed ty len n).ms ∧ ((s.ctx (s.core c).ctx).mmode ≠ 2 → K.det = (s.core c).det) := by
  obtain ⟨T, R, htook, -⟩ := tookA_eq s c ctl
  obtain ⟨K, hgo, hput, hq, hms, hdet⟩ := startXfer_puts (rnd := rnd) (bag := 0) (u := s) (op := mf (s.core c).ms.nextFeed)
    (Q := (s.core c).q) (N := (s.core c).nextId) (F := (s.core c).ms.nextFeed + 1)
    (L := (s.core c).ms.feeds ++ [⟨(s.core c).ms.nextFeed, ty, len, n, [], 0, none⟩])
    (mk := fun k => (mf k.ms.nextFeed, { k with ms := { k.ms with
      nextFeed := k.ms.nextFeed + 1, feeds := k.ms.feeds ++ [⟨k.ms.nextFeed, ty, len, n, [], 0, none⟩] } })) ht hs hf (by rw [htook])
  refine ⟨K, ?_, hput, hq, hms, hdet⟩
  rw [startFeed]
  dsimp only
  rw [hgo]

/-- A binding leaves a core that has put a transfer as it is but for the feeds. -/
theorem XferPut.bound {k : Core} {x : Transfer} (h : XferPut k K slot x ctl rnd) : XferPut k K.bound slot x ctl rnd := by
  cases hb : K.binds with
  | none =>
    have hK : K.bound = K := by rw [Core.bound, hb]
    rw [hK]
    exact h
  | some p =>
    have hK : K.bound = setBound K p.2.id p.1.seq := by rw [Core.bound, hb]
    rw [hK]
    exact ⟨congrArg (fun k : Core => setBound k p.2.id p.1.seq) h.frame, h.tokens, h.slots⟩

theorem binds_congr {k k' : Core} (h : k'.ms = k.ms) : k'.binds = k.binds := by
  unfold Core.binds nextRun
  rw [h]

/-- A late cause joins those of its stream. -/
theorem core_addLate (v : State) (w : Who) (l : Late) : (addLate v w l).core w.core =
    (v.core w.core).setStream w.eng { v.stream w with late := (v.stream w).late ++ [l] } := by
  obtain ⟨v1, hv1⟩ : ∃ v1, v1 = v.setStream w { v.stream w with late := (v.stream w).late ++ [l] } := ⟨_, rfl⟩
  have hcore : v1.core w.core = (v.core w.core).setStream w.eng { v.stream w with late := (v.stream w).late ++ [l] } := by
    rw [hv1]
    exact State.core_setStream_self _ _ _
  rw [addLate]
  dsimp only
  rw [← hv1]
  split
  · obtain ⟨C, hC⟩ := freezeAll_frame (why := .fault w.core w.eng) (v1.domain (v1.core w.core).ctx (dieOf w.core)) v1
    rw [hC]
    exact hcore
  · exact hcore

/-- A binding to a feed of another type suspends its MRUN (R293). -/
theorem bindNow_suspends {m : Cmd} {f : Feed} (hb : K.binds = some (m, f)) (hty : m.rowTy ≠ f.ty) (ha : (s.core c).allEnded = false)
    (hj : K.job = (s.core c).job) (hr : ∀ e, (K.stream e).run = ((s.core c).stream e).run) :
    ∃ M, (bindNow (s.setCore c K) c).core c = { K with
      ms := M, m := { K.m with late := K.m.late ++ [⟨0x02, cmdTval m 0 0, none, some m.seq⟩] } } := by
  obtain ⟨B, hB⟩ : ∃ B, B = (setBound K f.id m.seq).setCmd
      { m with state := .suspended, checked := if m.op.isRun then false else m.checked } := ⟨_, rfl⟩
  obtain ⟨A, hA⟩ : ∃ A, A = addLate (s.setCore c B) ⟨c, .m⟩ ⟨0x02, cmdTval m 0 0, none, some m.seq⟩ := ⟨_, rfl⟩
  have hcore : A.core c = B.setStream .m { B.m with late := B.m.late ++ [⟨0x02, cmdTval m 0 0, none, some m.seq⟩] } := by
    have hk : (s.setCore c B).core c = B := State.core_setCore_self _ _ _
    rw [hA]
    refine (core_addLate (s.setCore c B) ⟨c, .m⟩ _).trans ?_
    dsimp only [State.stream]
    rw [hk]
    rfl
  have hbind : bindNow (s.setCore c K) c = tryEndJob A c := by
    rw [bindNow, State.core_setCore_self, hb]
    dsimp only
    rw [if_neg hty, suspendCmd, hA, hB]
    simp only [State.core_setCore_self, State.setCore_setCore]
  have hstay : tryEndJob A c = A := by
    refine tryEndJob_landed ha ?_ fun e => ?_
    · rw [hcore, ← hj, hB]
      rfl
    · rw [hcore, ← hr e, hB]
      cases e <;> rfl
  exact ⟨B.ms, by rw [hbind, hstay, hcore, hB]; rfl⟩

/-- A feed that starts: the transfer, and the binding of the MRUN whose turn it is. -/
theorem feed_starts {regs : List Nat} (h : AReady s ⟨c, .a⟩ ctl regs)
    (hexec : exec i s = finish ⟨c, .a⟩ 8 s (startFeed ctl rnd s ⟨c, .a⟩ n len ty mf)) (hf : freeSlot (s.core c) = some slot) :
    ((∀ m f, ((s.core c).withFeed ty len n).binds = some (m, f) → m.rowTy = f.ty) → ∃ t, exec i s = .next t ∧
      Started s t ⟨c, .a⟩ ctl slot rnd 0 (mf (s.core c).ms.nextFeed) ∧ (t.core c).q = (s.core c).q ∧
      (((s.core c).withFeed ty len n).binds = none → (t.core c).ms = ((s.core c).withFeed ty len n).ms) ∧
      ∀ m f, ((s.core c).withFeed ty len n).binds = some (m, f) → (t.core c).ms = { ((s.core c).withFeed ty len n).ms with
        feeds := ((s.core c).withFeed ty len n).ms.feeds.map (fun h => if h.id = f.id then { h with bound := some m.seq } else h) }) ∧
    (∀ m f, ((s.core c).withFeed ty len n).binds = some (m, f) → m.rowTy ≠ f.ty → (s.core c).allEnded = false →
      ∃ t, exec i s = .next t ∧ (t.core c).m = { (s.core c).m with
        late := (s.core c).m.late ++ [⟨0x02, BitVec.ofNat 64 (2 ^ 63 + 0x62 * 256 + m.cid * 16), none, some m.seq⟩] } ∧
      ((t.core c).xfer? slot).isSome = true ∧ (t.stream ⟨c, .a⟩).pc = s.pcOf ⟨c, .a⟩ + 8) := by
  obtain ⟨K, hgo, hput, hq, hms, hdet⟩ := startFeed_binds (rnd := rnd) (n := n) (len := len) (ty := ty) (mf := mf) h.tokens h.slots hf
  obtain ⟨kf, hkf⟩ : ∃ kf, kf = (s.core c).withFeed ty len n := ⟨_, rfl⟩
  rw [← hkf] at hms ⊢
  have hbinds : K.binds = kf.binds := binds_congr hms
  have hbms : K.bound.ms = kf.bound.ms := bound_ms_congr hms
  refine ⟨fun hfit => ?_, fun m f hb hty ha => ?_⟩
  · have hdetb : (s.ctx (s.core c).ctx).mmode ≠ 2 → K.bound.det = (s.core c).det := fun hm => by
      rw [← hdet hm, Core.bound]
      split <;> rfl
    have hqb : K.bound.q = K.q := by
      rw [Core.bound]
      split <;> rfl
    obtain ⟨t, ht, hstarted, htq, htms⟩ := hput.bound.started (s := s) h.line rfl hdetb
    refine ⟨t, ?_, hstarted, htq.trans (hqb.trans hq), fun hn => ?_, fun m f hb => ?_⟩
    · rw [hexec, hgo, bindNow_setCore (by rw [hbinds]; exact hfit), ht]
    · rw [htms, hbms, Core.bound, hn]
    · rw [htms, hbms, Core.bound, hb]
      simp [setBound]
  · obtain ⟨hmem, hrun, -⟩ := binds_spec hb
    obtain ⟨M, hcore⟩ := bindNow_suspends (s := s) (c := c) (hbinds.trans hb) hty ha (by rw [hput.frame])
      (fun e => by rw [hput.frame]; cases e <;> rfl)
    obtain ⟨t, ht, -, htc, -⟩ := goes_a h.line hcore (by rw [hput.frame]) (by rw [hput.frame])
    refine ⟨t, by rw [hexec, hgo, ht], ?_, ?_, (congrArg (fun k => k.a.pc) htc).trans rfl⟩
    · have hm : K.m = (s.core c).m := by rw [hput.frame]
      have hval : cmdTval m 0 0 = BitVec.ofNat 64 (2 ^ 63 + 0x62 * 256 + m.cid * 16) := by
        rw [cmdTval]
        cases hop : m.op <;> simp [hop, MOp.isRun] at hrun
        rfl
      rw [← hval, ← hm]
      exact (congrArg Core.m htc).trans rfl
    · have hx : (t.core c).xfer? slot = some (newXfer s c ctl 0 (mf (s.core c).ms.nextFeed)) := by
        refine (congrArg (fun k => k.xfer? slot) htc).trans ?_
        refine (congrArg (fun k : Core => k.xfer? slot) hput.frame).trans ?_
        exact tfind_tset_self _ _ _
      rw [hx]
      rfl

/-! ## DECQ (R275 to R278) -/

theorem decq_exec {q : Nat} {zr : Bool} (h : AReady s ⟨c, .a⟩ ctl (baseRegs d ++ baseRegs a ++ [b, g, e])) :
    exec (.decq q d b g e ty zr ctl) s = finish ⟨c, .a⟩ 8 s (
      if (regOf s ⟨c, .a⟩ b).toNat = 0 ∨ 2 ^ 24 < (regOf s ⟨c, .a⟩ b).toNat then .raise 0x02 (opTval (.decq q d b g e ty zr ctl) false 13)
      else if (regOf s ⟨c, .a⟩ g).toNat = 0 ∨ 1024 < (regOf s ⟨c, .a⟩ g).toNat then .raise 0x02 (opTval (.decq q d b g e ty zr ctl) false 7)
      else if (regOf s ⟨c, .a⟩ e).toNat = 0 ∨ 8 < (regOf s ⟨c, .a⟩ e).toNat then .raise 0x02 (opTval (.decq q d b g e ty zr ctl) true 19)
      else if zr = false ∧ (s.core c).as.gen = 0 then .raise 0x31 0
      else
        queueFull s ⟨c, .a⟩ q (regOf s ⟨c, .a⟩ e).toNat (withBase s ⟨c, .a⟩ d 1 (fun src =>
          startXfer ctl .rne 0 s ⟨c, .a⟩ (fun k => (.decode q (k.reserveQ q (regOf s ⟨c, .a⟩ e).toNat).1 src (regOf s ⟨c, .a⟩ b).toNat
            (regOf s ⟨c, .a⟩ g).toNat ty zr k.as.gen, (k.reserveQ q (regOf s ⟨c, .a⟩ e).toNat).2))))) := by
  change execDecq q d b g e ty zr ctl s = _
  rw [execDecq]
  dsimp only
  rw [aFrame_goes h (by simp)]
  congr 1
  refine if_congr (by simp) rfl (if_congr (by simp) rfl (if_congr (by simp) rfl (if_congr (by simp) rfl rfl)))

theorem decq_starts {q : Nat} {zr : Bool} {src : Base} {bytes ratio m : Nat} {regs : List Nat} (h : AReady s ⟨c, .a⟩ ctl regs)
    (hexec : exec i s = finish ⟨c, .a⟩ 8 s (startXfer ctl .rne 0 s ⟨c, .a⟩ (fun k =>
      (.decode q (k.reserveQ q m).1 src bytes ratio ty zr k.as.gen, (k.reserveQ q m).2))))
    (hf : freeSlot (s.core c) = some slot) :
    ∃ t ids, exec i s = .next t ∧ Started s t ⟨c, .a⟩ ctl slot .rne 0 (.decode q ids src bytes ratio ty zr (s.core c).as.gen) ∧
      ids.length = m ∧ Reserved ((s.core c).qOf q) ((t.core c).qOf q) ids ∧
      (∀ n, n ≠ q → (t.core c).qOf n = (s.core c).qOf n) ∧ (t.core c).ms = (s.core c).ms := by
  obtain ⟨T, R, htook, -⟩ := tookA_eq s c ctl
  obtain ⟨ids, Q, N, hres, hlen, hq, hqs⟩ := reserveQ_eq q m ((s.tookA ⟨c, .a⟩ ctl).core c)
  have hqOf : ∀ n, ((s.tookA ⟨c, .a⟩ ctl).core c).qOf n = (s.core c).qOf n := fun n => by
    rw [htook]
    rfl
  obtain ⟨K, hgo, hput, hKq, hms, hdet⟩ := startXfer_puts (rnd := .rne) (bag := 0) (u := s)
    (op := .decode q ids src bytes ratio ty zr (s.core c).as.gen) (Q := Q) (N := N) (F := (s.core c).ms.nextFeed) (L := (s.core c).ms.feeds)
    (mk := fun k => (.decode q (k.reserveQ q m).1 src bytes ratio ty zr k.as.gen, (k.reserveQ q m).2)) h.tokens h.slots hf
    (by dsimp only; rw [hres, htook])
  obtain ⟨t, ht, hstarted, htq, htms⟩ := hput.started (s := s) h.line rfl hdet
  have htqOf : ∀ n, (t.core c).qOf n = tget Q n [] := fun n => by
    rw [Core.qOf, htq, hKq]
  refine ⟨t, ids, by rw [hexec, hgo, ht], hstarted, hlen, ?_, fun n hn => ?_, htms.trans hms⟩
  · rw [Reserved, htqOf, hq, hqOf]
  · rw [htqOf, hqs n hn, hqOf]

/-! ## The forms that start where their operands are captured -/

section
variable {dty sty : Ty} {mx kind o : Nat} {add : Bool} {dst src : Base} (h : AReady s ⟨c, .a⟩ ctl (baseRegs d ++ baseRegs a ++ [b, g, e]))
include h

theorem cpgo_starts (h0 : 0 < (regOf s ⟨c, .a⟩ b).toNat) (h20 : (regOf s ⟨c, .a⟩ b).toNat ≤ 2 ^ 20)
    (hlen : (regOf s ⟨c, .a⟩ b).toNat % unitLen dty sty mx = 0) (hsrc : Captured s ⟨c, .a⟩ a (sideAlign sty (mx == 1)) src)
    (hdst : Captured s ⟨c, .a⟩ d (sideAlign dty (mx == 2)) dst) :
    (freeSlot (s.core c) = none → Waits (.cpgo d a b dty sty rnd mx kind ctl) s ⟨c, .a⟩) ∧
    (freeSlot (s.core c) = some slot → StartsXfer (.cpgo d a b dty sty rnd mx kind ctl) s ⟨c, .a⟩ ctl slot rnd 0
      (.cpgo dst src (regOf s ⟨c, .a⟩ b).toNat dty sty rnd mx kind ((List.range 6).map (levelOf (s.core c))))) := by
  have hgo := cpgo_exec (rnd := rnd) (dty := dty) (sty := sty) (mx := mx) (kind := kind) h
  rw [if_neg (by omega), withBase_captured hsrc, withBase_captured hdst] at hgo
  exact startsXfer_of_exec h hgo (fun _ _ => rfl)

theorem cpgath_starts (hdst : Captured s ⟨c, .a⟩ d (sideAlign dty false) dst) (hsrc : Captured s ⟨c, .a⟩ a (sideAlign sty false) src)
    (hB : (regOf s ⟨c, .a⟩ b).toNat % 4 = 0)
    (hpool : o ≠ 0 → poolTypes ((s.stream ⟨c, .a⟩).profile ctl.np) sty = true ∧ (regOf s ⟨c, .a⟩ g).toNat % 4 = 0) :
    (freeSlot (s.core c) = none → Waits (.cpgath d a b g o dty sty rnd kind ctl) s ⟨c, .a⟩) ∧
    (freeSlot (s.core c) = some slot → StartsXfer (.cpgath d a b g o dty sty rnd kind ctl) s ⟨c, .a⟩ ctl slot rnd
      (opTval (.cpgath d a b g o dty sty rnd kind ctl) true 19)
      (.gather dst src (.va (regOf s ⟨c, .a⟩ b)) (.va (if o = 0 then 0 else regOf s ⟨c, .a⟩ g)) o dty sty rnd kind
        ((s.stream ⟨c, .a⟩).profile ctl.np) (levelOf (s.core c) 0).count (levelOf (s.core c) 0).src (levelOf (s.core c) 0).dst
        (levelOf (s.core c) 1).count)) := by
  have hbag : Captured s ⟨c, .a⟩ (.reg (if o = 0 then 0 else g)) 4 (.va (if o = 0 then 0 else regOf s ⟨c, .a⟩ g)) := by
    by_cases h0 : o = 0
    · rw [if_pos h0, if_pos h0]
      exact captured_reg (n := 0) rfl
    · rw [if_neg h0, if_neg h0]
      exact captured_reg (hpool h0).2
  have hgo := cpgath_exec (rnd := rnd) (dty := dty) (kind := kind) h (fun h0 => (hpool h0).1)
  rw [withBase_captured hdst, withBase_captured hsrc, withBase_captured (captured_reg hB), withBase_captured hbag] at hgo
  exact startsXfer_of_exec h hgo (fun _ _ => rfl)

theorem cpscat_starts (hdst : Captured s ⟨c, .a⟩ d (sideAlign dty false) dst) (hsrc : Captured s ⟨c, .a⟩ a (sideAlign sty false) src)
    (hB : (regOf s ⟨c, .a⟩ b).toNat % 4 = 0) (hpool : add = true → poolTypes ((s.stream ⟨c, .a⟩).profile ctl.np) sty = true) :
    (freeSlot (s.core c) = none → Waits (.cpscat d a b add dty sty rnd kind ctl) s ⟨c, .a⟩) ∧
    (freeSlot (s.core c) = some slot → StartsXfer (.cpscat d a b add dty sty rnd kind ctl) s ⟨c, .a⟩ ctl slot rnd 0
      (.scatter dst src (.va (regOf s ⟨c, .a⟩ b)) add dty sty rnd kind ((s.stream ⟨c, .a⟩).profile ctl.np)
        (levelOf (s.core c) 0).count (levelOf (s.core c) 0).src (levelOf (s.core c) 0).dst (levelOf (s.core c) 1).count)) := by
  have hgo := cpscat_exec (rnd := rnd) (dty := dty) (kind := kind) h hpool
  rw [withBase_captured hdst, withBase_captured hsrc, withBase_captured (captured_reg hB)] at hgo
  exact startsXfer_of_exec h hgo (fun _ _ => rfl)

theorem rgath_captured {rows : Base} {sk tx sc : Bool} (h0 : 0 < (regOf s ⟨c, .a⟩ g).toNat) (hn : (regOf s ⟨c, .a⟩ g).toNat ≤ 65536)
    (hok : feedOk ty (regOf s ⟨c, .a⟩ e) false = true) (hrows : Captured s ⟨c, .a⟩ d (sideAlign ty false) rows)
    (hB : (regOf s ⟨c, .a⟩ b).toNat % (if sc then 8 else 4) = 0) :
    exec (.rgath d b g e ty rnd sk tx sc ctl) s = finish ⟨c, .a⟩ 8 s (startFeed ctl rnd s ⟨c, .a⟩ (regOf s ⟨c, .a⟩ g).toNat
      (field (regOf s ⟨c, .a⟩ e) 31 16) ty (fun id =>
        .feed id rows (.va (regOf s ⟨c, .a⟩ b)) true (regOf s ⟨c, .a⟩ g).toNat (signedField (field (regOf s ⟨c, .a⟩ e) 63 32) 32)
          (field (regOf s ⟨c, .a⟩ e) 15 0) (field (regOf s ⟨c, .a⟩ e) 31 16) ty rnd sk tx sc)) := by
  rw [rgath_exec h, if_neg (by omega), if_neg (by rw [hok]; simp), withBase_captured hrows, withBase_captured (captured_reg hB)]

theorem rstrm_captured {rows : Base} {sk : Bool} (h0 : 0 < (regOf s ⟨c, .a⟩ g).toNat) (hn : (regOf s ⟨c, .a⟩ g).toNat ≤ 65536)
    (hok : feedOk ty (regOf s ⟨c, .a⟩ e) true = true) (hrows : Captured s ⟨c, .a⟩ d (sideAlign ty false) rows) :
    exec (.rstrm d g b e ty sk ctl) s = finish ⟨c, .a⟩ 8 s (startFeed ctl .rne s ⟨c, .a⟩ (regOf s ⟨c, .a⟩ g).toNat
      (field (regOf s ⟨c, .a⟩ e) 31 16) ty (fun id =>
        .feed id rows (.va 0) false (regOf s ⟨c, .a⟩ g).toNat (regOf s ⟨c, .a⟩ b).toInt
          (field (regOf s ⟨c, .a⟩ e) 15 0) (field (regOf s ⟨c, .a⟩ e) 31 16) ty .rne sk false false)) := by
  rw [rstrm_exec h, if_neg (by omega), if_neg (by rw [hok]; simp), withBase_captured hrows]

theorem decq_goes {q : Nat} {zr : Bool} (h0 : 0 < (regOf s ⟨c, .a⟩ b).toNat) (hB : (regOf s ⟨c, .a⟩ b).toNat ≤ 2 ^ 24)
    (hr0 : 0 < (regOf s ⟨c, .a⟩ g).toNat) (hr : (regOf s ⟨c, .a⟩ g).toNat ≤ 1024) (hn0 : 0 < (regOf s ⟨c, .a⟩ e).toNat)
    (hn : (regOf s ⟨c, .a⟩ e).toNat ≤ 8) (hzr : zr = true ∨ (s.core c).as.gen ≠ 0) :
    exec (.decq q d b g e ty zr ctl) s = finish ⟨c, .a⟩ 8 s (
      queueFull s ⟨c, .a⟩ q (regOf s ⟨c, .a⟩ e).toNat (withBase s ⟨c, .a⟩ d 1 (fun src =>
        startXfer ctl .rne 0 s ⟨c, .a⟩ (fun k => (.decode q (k.reserveQ q (regOf s ⟨c, .a⟩ e).toNat).1 src (regOf s ⟨c, .a⟩ b).toNat
          (regOf s ⟨c, .a⟩ g).toNat ty zr k.as.gen, (k.reserveQ q (regOf s ⟨c, .a⟩ e).toNat).2))))) := by
  have hgen : ¬(zr = false ∧ (s.core c).as.gen = 0) := fun hno => hzr.elim (fun hz => by simp [hno.1] at hz) (fun hg => hg hno.2)
  rw [decq_exec h, if_neg (by omega), if_neg (by omega), if_neg (by omega), if_neg hgen]

end

theorem cpgoPm_starts {dr pg entry size : Nat} {old : Word} {tr : Trans} (h : AReady s ⟨c, .a⟩ ctl (baseRegs (.reg dr) ++ baseRegs (.reg pg) ++ [b, g, e]))
    (hsup : (s.stream ⟨c, .a⟩).super = true) (hcan : canonical (regOf s ⟨c, .a⟩ pg).toNat = true)
    (hw : walk s (s.core c).ctx ((regOf s ⟨c, .a⟩ pg).toNat % 2 ^ 57) = .ok tr)
    (hleaf : leafEntry s ((regOf s ⟨c, .a⟩ pg).toNat % 2 ^ 57) (s.ctx (s.core c).ctx).root walkLevels = some (entry, size, old))
    (hva : (regOf s ⟨c, .a⟩ pg).toNat % 2 ^ pageShift size = 0)
    (hfr : (regOf s ⟨c, .a⟩ dr).toNat % 2 ^ 44 % 2 ^ pageShift size = 0) :
    (freeSlot (s.core c) = none → Waits (.cpgoPm dr pg ctl) s ⟨c, .a⟩) ∧
    (freeSlot (s.core c) = some slot → ∃ t, exec (.cpgoPm dr pg ctl) s = .next t ∧
      Started (countWalks (s.core c).ctx none [((regOf s ⟨c, .a⟩ pg).toNat, 0)] s) t ⟨c, .a⟩ ctl slot .rne 0
        (.move (regOf s ⟨c, .a⟩ pg) (regOf s ⟨c, .a⟩ dr) size entry old) ∧
      (t.core c).q = (s.core c).q ∧ (t.core c).ms = (s.core c).ms) := by
  obtain ⟨C, hC⟩ := countWalks_frame (s.core c).ctx none [((regOf s ⟨c, .a⟩ pg).toNat, 0)] s
  have hk : (countWalks (s.core c).ctx none [((regOf s ⟨c, .a⟩ pg).toNat, 0)] s).core c = s.core c := by
    rw [hC]
    rfl
  have hfr' : field (regOf s ⟨c, .a⟩ dr) 43 0 % 2 ^ (pageShift size) = 0 := by
    rw [field, Nat.pow_zero, Nat.div_one]
    exact hfr
  have hgo := cpgoPm_exec h hsup hcan
  rw [hw, hleaf, movesPage, if_neg (by simp [hva]), if_neg (by simp [hfr'])] at hgo
  exact starts_of_exec h.line h.tokens h.slots hk hgo (fun _ _ => rfl)

end

/-- Settles O41: what the asynchronous forms refuse, and the transfer that each starts. -/
theorem transfersStart : Obligations.TransfersStart := by
  rintro s ⟨c, en⟩ ctl slot d a b g e h
  obtain rfl : en = .a := h.eng
  refine ⟨fun dty sty rnd mx kind => ⟨fun hB => ?_, fun h0 h20 hlen => ⟨fun n hn hal => ?_, fun hh ha hcl => ?_,
      fun dst src hsrc hdst => cpgo_starts h h0 h20 hlen hsrc hdst⟩⟩,
    fun dr pg hd ha => ⟨fun hsup => ?_, fun hsup hcan => ⟨fun cause hw => ?_, fun tr entry size old hw hleaf hva hfr => ?_⟩⟩,
    fun o dty sty rnd kind dst src hdst hsrc hB => ⟨⟨fun h0 hpool => cpgath_refused h h0 hpool,
      fun hpool => cpgath_starts h hdst hsrc hB hpool⟩,
      fun add => ⟨fun hadd hpool => ?_, fun hpool => cpscat_starts h hdst hsrc hB hpool⟩⟩,
    fun ty rnd sk tx sc rows => ⟨⟨fun hn => ?_, fun h0 hn hok => ?_, fun h0 hn hok hrows hB => ⟨fun hf => ?_,
        fun hf => feed_starts h (rgath_captured h h0 hn hok hrows hB) hf⟩⟩,
      fun hn => ?_, fun h0 hn hok => ?_, fun h0 hn hok hrows => ⟨fun hf => ?_,
        fun hf => feed_starts h (rstrm_captured h h0 hn hok hrows) hf⟩⟩,
    fun q ty zr src => ⟨fun hB => ?_, fun h0 hB hr => ?_, fun h0 hB hr0 hr => ⟨fun hn => ?_, fun hn0 hn hzr hgen => ?_,
      fun hn0 hn hzr => ⟨fun hroom => ?_, fun hroom hsrc => ⟨fun hf => ?_, fun hf => ?_⟩⟩⟩⟩⟩
  · rw [Traps, cpgo_exec h, if_pos hB]
    rfl
  · subst hn
    rw [Traps, cpgo_exec h, if_neg (by omega), withBase_unaligned hal]
    rfl
  · subst ha
    rw [Traps, cpgo_exec h, if_neg (by omega), withBase_closed hcl]
    rfl
  · subst hd ha
    exact cpgoPm_user h hsup
  · subst hd ha
    rw [cpgoPm_exec h hsup hcan, hw]
    rfl
  · subst hd ha
    exact cpgoPm_starts h hsup hcan hw hleaf hva hfr
  · subst hadd
    exact cpscat_refused h hpool
  · rw [Traps, rgath_exec h, if_pos hn]
    rfl
  · rw [Traps, rgath_exec h, if_neg (by omega), if_pos hok]
    rfl
  · rw [Waits, rgath_captured h h0 hn hok hrows hB, startFeed_waits h.tokens h.slots hf]
    rfl
  · rw [Traps, rstrm_exec h, if_pos hn]
    rfl
  · rw [Traps, rstrm_exec h, if_neg (by omega), if_pos hok]
    rfl
  · rw [Waits, rstrm_captured h h0 hn hok hrows, startFeed_waits h.tokens h.slots hf]
    rfl
  · rw [Traps, decq_exec h, if_pos hB]
    rfl
  · rw [Traps, decq_exec h, if_neg (by omega), if_pos hr]
    rfl
  · rw [Traps, decq_exec h, if_neg (by omega), if_neg (by omega), if_pos hn]
    rfl
  · rw [Traps, decq_exec h, if_neg (by omega), if_neg (by omega), if_neg (by omega), if_pos ⟨hzr, hgen⟩]
    rfl
  · have hgo := decq_goes (q := q) (ty := ty) h h0 hB hr0 hr hn0 hn hzr
    rw [queueFull_full hroom] at hgo
    split
    · next hg => rw [Traps, hgo, if_pos hg]; rfl
    · next hg => rw [Waits, hgo, if_neg hg]; rfl
  · rw [Waits, decq_goes h h0 hB hr0 hr hn0 hn hzr, queueFull_room hroom, withBase_captured hsrc, startXfer_waits h.tokens h.slots hf]
    rfl
  · have hgo := decq_goes (q := q) (ty := ty) h h0 hB hr0 hr hn0 hn hzr
    rw [queueFull_room hroom, withBase_captured hsrc] at hgo
    exact decq_starts h hgo hf

end Sys2Proof.Machine
end

section
/-! SUPPORT. What becomes of a transfer (R210, R242, R243, R261): the requests that the checks of an access send, one unit of a copy,
the end, the suspension, and a row that enters the port. -/

namespace Sys2Proof.Machine

/-! ## The requests that the checks of an access send are the device's own -/

/-- Every request of the second state is one of the first, or the device's own. -/
def Asks (s t : State) : Prop := ∀ q ∈ t.requests, q ∈ s.requests ∨ ∃ d, q.owner = .device d

section
variable {s t u : State} {c : Nat}

theorem Asks.quiet (h : t.requests = s.requests) : Asks s t := fun q hq => .inl (h ▸ hq)

theorem Asks.trans (h1 : Asks s t) (h2 : Asks t u) : Asks s u := fun q hq => (h2 q hq).elim (h1 q) .inr

theorem Asks.of_dropReqs (owner : Owner) : Asks s (dropReqs s owner) := fun _ hq => .inl (List.mem_filter.mp hq).1

theorem Asks.of_sendReq (r : FabReq) (tv : Nat) (write : Bool) (d : Nat) (m : FabMsg) :
    Asks s (sendReq s r tv write (.device d) m) := by
  intro q hq
  rcases List.mem_append.mp hq with hq | hq
  · exact .inl hq
  · obtain rfl := List.mem_singleton.mp hq
    exact .inr ⟨d, rfl⟩

theorem Asks.of_requestRuns (e d : Nat) : ∀ (l : List (Seg × List Byte)) (s : State), Asks s (requestRuns e (.device d) l s)
  | [], _ => .quiet rfl
  | (_, _) :: l, _ => (Asks.of_sendReq _ _ _ _ _).trans (Asks.of_requestRuns e d l _)

theorem Asks.of_requestReads (e d : Nat) : ∀ (l : List Seg) (s : State), Asks s (requestReads e (.device d) l s)
  | [], _ => .quiet rfl
  | g :: l, s => by
    refine Asks.trans ?_ (Asks.of_requestReads e d l _)
    split
    · exact Asks.of_sendReq _ _ _ _ _
    · exact .quiet rfl

theorem Asks.of_requestWrites (e d : Nat) : ∀ (l : List Seg) (data : List Byte) (mask : List Bool) (s : State),
    Asks s (requestWrites e (.device d) l data mask s)
  | [], _, _, _ => .quiet rfl
  | g :: l, data, mask, s => by
    rw [requestWrites]
    refine Asks.trans ?_ (Asks.of_requestWrites e d l _ _ _)
    split
    · exact Asks.of_requestRuns _ _ _ _
    · exact .quiet rfl

theorem requests_storeLocal (cmp : Bool) (pa : Nat) (data : List Byte) (mask : List Bool) :
    (storeLocal s cmp pa data mask).requests = s.requests := by
  obtain ⟨T, B, C, h⟩ := storeLocal_frame s cmp pa data mask
  rw [h]

theorem requests_devStore : ∀ (l : List Seg) (data : List Byte) (s : State), (devStore l data s).requests = s.requests
  | [], _, _ => rfl
  | g :: l, data, s => by
    rw [devStore, requests_devStore l]
    split
    · rfl
    · exact requests_storeLocal _ _ _ _

theorem requests_walkedParts (ctx : Nat) (use : Use) (va n : Nat) : (walkedParts s ctx use va n).requests = s.requests := by
  obtain ⟨C, h⟩ := countWalks_frame ctx (some use) (splitPages (n / 0x4000 + 2) va n) s
  rw [walkedParts, h]

theorem requests_countReads (l : List Nat) : (countReads l s).requests = s.requests := by
  obtain ⟨C, h⟩ := countReads_frame l s
  rw [h]

theorem requests_say (m : HostMsg) : (say s m).requests = s.requests := by
  obtain ⟨S, T, R, D, h⟩ := say_frame s m
  rw [h]

theorem Asks.of_devWrite (d ctx va : Nat) (data : List Byte) : Asks s (devWrite s (.device d) ctx va data).1 := by
  have hwalk : Asks s (walkedParts s ctx .write va data.length) := .quiet (requests_walkedParts _ _ _ _)
  rw [devWrite]
  split
  · exact hwalk
  · split
    · exact hwalk
    · exact hwalk.trans ((Asks.of_dropReqs _).trans ((Asks.quiet (requests_devStore _ _ _)).trans (Asks.of_requestWrites _ _ _ _ _ _)))

theorem Asks.of_devEnd (d : DevWrite) (done refused : Bool) : Asks s (devEnd s d done refused) := by
  have hdrop : Asks s (dropReqs { s with devWrites := s.devWrites.drop 1 } (.device d.id)) :=
    Asks.trans (t := { s with devWrites := s.devWrites.drop 1 }) (.quiet rfl) (.of_dropReqs _)
  rw [devEnd]
  split
  · exact hdrop.trans (.quiet rfl)
  · split
    · exact hdrop.trans (.quiet (requests_say _))
    · exact hdrop
  · exact hdrop.trans (.quiet (requests_say _))

theorem Asks.of_devNext (d : DevWrite) (phase : DevPhase) (id va : Nat) (data : List Byte) :
    Asks s (if (devWrite s (.device id) d.ctx va data).2 then devNext (devWrite s (.device id) d.ctx va data).1 d phase
      else devEnd (devWrite s (.device id) d.ctx va data).1 d false true) := by
  have hwrite := Asks.of_devWrite (s := s) id d.ctx va data
  split
  · exact hwrite.trans (.quiet rfl)
  · exact hwrite.trans (.of_devEnd _ _ _)

theorem Asks.of_devAct {d : DevWrite} (h : devAct s d = some u) : Asks s u := by
  rw [devAct] at h
  split at h
  · rw [← Option.some.inj h]
    exact .of_devEnd _ _ _
  · have hacked : ∀ act : State, Asks s act → (match acksOf s (.device d.id) with
        | .open_ => none
        | .failed _ _ => some (devEnd s d false true)
        | .done => some act) = some u → Asks s u := by
      intro act hact hm
      split at hm
      · exact absurd hm (by simp)
      · rw [← Option.some.inj hm]
        exact .of_devEnd _ _ _
      · rw [← Option.some.inj hm]
        exact hact
    split at h
    · next count hphase =>
      dsimp only at h
      have hwalk : Asks s (walkedParts s d.ctx .read d.base 16) := .quiet (requests_walkedParts _ _ _ _)
      split at h
      · rw [← Option.some.inj h]
        exact hwalk.trans (.of_devEnd _ _ _)
      · split at h
        · rw [← Option.some.inj h]
          exact hwalk.trans (.of_requestReads _ _ _ _)
        · split at h
          · exact absurd h (by simp)
          · rw [← Option.some.inj h]
            exact .of_devEnd _ _ _
          · next segs _ _ _ hd _ =>
            have hcount : Asks s (countReads ((segs.filter (fun g => !g.isRemote && isStack g.addr)).flatMap
                (fun g => linesOf g.addr g.len)) (if segs.any Seg.isRemote then s else walkedParts s d.ctx .read d.base 16)) := by
              refine Asks.trans ?_ (.quiet (requests_countReads _))
              split
              · exact .quiet rfl
              · exact hwalk
            split at h
            · rw [← Option.some.inj h]
              exact hcount.trans (.of_devNext _ _ _ _ _)
            · rw [← Option.some.inj h]
              exact hcount.trans (.of_devNext _ _ _ _ _)
    · exact hacked _ (.of_devNext _ _ _ _ _) h
    · exact hacked _ (.of_devEnd _ _ _) h
    · exact hacked _ (.of_devEnd _ _ _) h

theorem Asks.of_devPump : ∀ (n : Nat) (s : State), Asks s (devPump n s)
  | 0, _ => .quiet rfl
  | n + 1, s => by
    rw [devPump]
    split
    · exact .quiet rfl
    · next d _ hd =>
      cases h : devAct s d with
      | none => exact .quiet rfl
      | some u => exact (Asks.of_devAct h).trans (Asks.of_devPump n u)

theorem Asks.of_ringWrite (ctx base count : Nat) (record : List Byte) (kind : DevKind) : Asks s (ringWrite s ctx base count record kind) := by
  rw [ringWrite]
  exact Asks.trans (t := { s with devWrites := _, nextDev := s.nextDev + 1 }) (.quiet rfl) (Asks.of_devPump _ _)

theorem requests_translated (ctx va k : Nat) : (translated s c ctx va k).requests = s.requests := by
  rw [translated]
  dsimp only
  split
  · next t _ =>
    split
    · rfl
    · obtain ⟨C, h⟩ := countReadsBy_frame (if servesCached s t k = true then 0 else 1) (walkLines s ctx (va % 2 ^ 57)) s
      rw [h]
      split
      · split
        · rfl
        · rfl
      · rfl
  · rw [walked]
    have hcount := requests_countReads (s := s) (walkLines s ctx (va % 2 ^ 57))
    split
    · exact hcount
    · exact hcount

theorem requests_translatedPages (s : State) : ∀ (l : List (Nat × Nat)) (k : Nat) (t : State),
    (translatedPages s c k l t).requests = t.requests
  | [], _, _ => rfl
  | (va, n) :: rest, k, t => by
    rw [translatedPages]
    split
    · exact requests_translatedPages s rest _ _
    · dsimp only
      split
      · exact requests_translated _ _ _
      · exact (requests_translatedPages s rest _ _).trans (requests_translated _ _ _)

theorem requests_waitParts (r : Asker) : ∀ (l : List Seg) (s : State), (waitParts c r l s).requests = s.requests
  | [], _ => rfl
  | g :: l, s => by
    rw [waitParts, requests_waitParts r l]
    split
    · rw [countWaits]
      split <;> rfl
    · rfl

theorem requests_raceWrite (l : List Seg) : (raceWrite s c l).requests = s.requests := by
  obtain ⟨S, h⟩ := raceWrite_frame c l s
  rw [h]

theorem Asks.of_raceCheck {acc : Acc} {segs : List Seg} (h : raceCheck s c acc segs = .ok t) : Asks s t := by
  rw [raceCheck] at h
  dsimp only at h
  split at h
  · obtain rfl := Except.ok.inj h
    split
    · exact .quiet (requests_raceWrite _)
    · exact .quiet rfl
  · split at h
    · cases h
    · obtain rfl := Except.ok.inj h
      split
      · exact (Asks.of_ringWrite _ _ _ _ _).trans (.quiet (requests_raceWrite _))
      · exact .of_ringWrite _ _ _ _ _

theorem Asks.of_openAccess {acc : Acc} {a : Addr} {n : Nat} {segs : List Seg} (h : openAccess s c acc a n = .ok (segs, t)) : Asks s t := by
  rw [openAccess] at h
  split at h
  · cases h
  · dsimp only at h
    next l hl =>
    have h0 : Asks s (waitParts c acc.asker l (translatedFor s c acc a n)) := by
      refine .quiet ((requests_waitParts _ _ _).trans ?_)
      unfold translatedFor
      split
      · rfl
      · split
        · rfl
        · exact requests_translatedPages _ _ _ _
    split at h
    · obtain ⟨-, rfl⟩ := Prod.mk.injEq _ _ _ _ ▸ Except.ok.inj h
      exact h0
    · split at h
      · cases h
      · next s1 hs1 =>
        obtain ⟨-, rfl⟩ := Prod.mk.injEq _ _ _ _ ▸ Except.ok.inj h
        exact h0.trans (.of_raceCheck hs1)

/-- A transfer that has no request has none after the checks of an access. -/
theorem Asks.none_of_xfer {slot : Nat} (h : Asks s t) (hs : ∀ q ∈ s.requests, q.owner ≠ .xfer c slot) :
    ∀ q ∈ t.requests, q.owner ≠ .xfer c slot := by
  intro q hq
  rcases h q hq with hq | ⟨d, hd⟩
  · exact hs q hq
  · rw [hd]
    exact fun hno => by cases hno

end

/-! ## A unit of a copy of bytes (R268) -/

section
variable {s s1 s2 s3 : State} {c slot n m : Nat} {g h : Seg} {l : List Byte} {D P : Word}

theorem convUnit_bytes (rnd : Rnd) (dph kind pos : Nat) (b : Byte) : convUnit .b8 .b8 rnd dph 0 kind pos [b] = ([b], 0) := by
  simp [convUnit, unitLen, codesOf, codesOf.natOf8, chunks, copyElem, elemBytes, orFlags, Ty.width]

/-- What reading one part of this package that nothing buffers answers. -/
theorem gather_here {owner : Owner} (hh : g.home = .local) (hb : buffers s c g = false) (hg : gather c owner [g] s = .ok l s1) :
    l = readBytes s.mem g.addr g.len := by
  cases hr : readBad s g.addr g.len with
  | none =>
    obtain ⟨x, hx⟩ := gather_one (owner := owner) hh hb hr
    rw [hx] at hg
    exact (Got.ok.inj hg).1.symm
  | some b =>
    have hbad : badAt s g.addr g.len ≠ none := fun hno => by
      rw [readBad, hno] at hr
      cases hr
    obtain ⟨x, hx⟩ := Option.ne_none_iff_exists'.mp hbad
    simp [gather, Seg.isRemote, hh, badSegs, hx] at hg

theorem core_mapXfer {x : Transfer} (f : Transfer → Transfer) (hx : (s.core c).xfer? slot = some x) :
    mapXfer s c slot f = s.setCore c ((s.core c).setXfer slot (f x)) := by
  rw [mapXfer, hx]
  rfl

theorem xfer_setXfer (k : Core) (x : Transfer) : (k.setXfer slot x).xfer? slot = some x := tfind_tset_self _ _ _

theorem Opens.xfers (h : Opens c s s1) : (s1.core c).as.xfers = (s.core c).as.xfers :=
  congrArg (a₁ := (s1.core c).openOf (s.core c)) (fun k => k.as.xfers) h.core

theorem Opens.xfer (h : Opens c s s1) : (s1.core c).xfer? slot = (s.core c).xfer? slot := by rw [Core.xfer?, h.xfers, Core.xfer?]

/-- A byte that a transfer writes to this package. -/
theorem writeUnit_byte {x y : Transfer} {o : XPiece} {s0 : State} (hx : (s.core c).xfer? slot = some y) (hlen : o.data.length = 1)
    (ho : openAccess s c (xferAcc .write o.align) (Base.addr o.base o.off) 1 = .ok ([h], s3)) (hh : h.home = .local) (hl : h.len = 1)
    (hb : buffers s3 c h = false) (hreq : ∀ q ∈ s.requests, q.owner ≠ .xfer c slot) :
    ∃ v : State, writeUnit s0 s c slot x o 0 = .done (v.setCore c ((s3.core c).setXfer slot { y with done := y.done + 1, sent := [], rest := [] })) ∧
      v.mem = writeMasked s3.mem h.addr o.data [true] ∧ v.cores = s3.cores := by
  have hopen : Opens c s s3 := .of_openAccess ho
  have hreq3 := (Asks.of_openAccess ho).none_of_xfer hreq
  have hb0 : buffers s c h = false := (hopen.buffers h).symm.trans hb
  have hy : (s3.core c).xfer? slot = some y := hopen.xfer.trans hx
  obtain ⟨b, hdata⟩ := List.length_eq_one_iff.mp hlen
  obtain ⟨v, hv⟩ : ∃ v, v = storeLocal s3 h.attr.cmp h.addr o.data [true] := ⟨_, rfl⟩
  obtain ⟨T, B, N, hw⟩ := storeLocal_frame s3 h.attr.cmp h.addr o.data [true]
  rw [← hv] at hw
  have hcore : v.core c = s3.core c := by
    rw [hw]
    rfl
  have hremote : h.isRemote = false := by simp [Seg.isRemote, hh]
  have hwrite : writeSegs s3 c x.order [h] o.data [true] = v := by
    rw [writeSegs, writeSegs, writeSeg, hh]
    dsimp only
    rw [hb, if_neg Bool.false_ne_true, hremote, if_neg Bool.false_ne_true, hl, List.take_of_length_le (by omega), hv]
    rfl
  obtain ⟨y1, hy1⟩ : ∃ y1 : Transfer, y1 = { y with sent := y.sent ++ [], wrote := y.wrote + 0 } := ⟨_, rfl⟩
  obtain ⟨v1, hv1⟩ : ∃ v1, v1 = v.setCore c ((s3.core c).setXfer slot y1) := ⟨_, rfl⟩
  have hpiece : writePiece s c slot x.order o = .ok v1 := by
    have hout : (sentPieces o 0 (partsOf [h] o.data [true])).filter (fun q => q.1.isRemote && !buffers s c q.1) = [] := by
      simp [sentPieces, partsOf, hdata, hl, maskedRuns, Seg.isRemote, hh]
    have hbl : bufferedLen s c [h] = 0 := by simp [bufferedLen, hb0]
    rw [writePiece, hlen, ho]
    dsimp only
    rw [List.replicate_one, hwrite, hout, hbl]
    refine congrArg Except.ok ?_
    refine (core_mapXfer (s := v) _ (by rw [hcore]; exact hy)).trans ?_
    rw [hv1, hy1, hcore]
  have hk1 : v1.core c = (s3.core c).setXfer slot y1 := by
    rw [hv1]
    exact State.core_setCore_self _ _ _
  have hnone : ∀ q ∈ v1.requests, q.owner ≠ .xfer c slot := by
    rw [hv1, hw]
    exact hreq3
  refine ⟨v, ?_, by rw [hw], by rw [hw]⟩
  rw [writeUnit, dropReqs_none hreq, hpiece]
  dsimp only
  rw [if_neg (by simpa using hnone), passUnit]
  rw [core_mapXfer (s := v1) (x := y1) _ (by rw [hk1]; exact xfer_setXfer _ _)]
  have hdrop : ∀ k, dropReqs (v1.setCore c k) (.xfer c slot) = v1.setCore c k := fun k => dropReqs_none (s := v1.setCore c k) hnone
  rw [hdrop, hk1, hv1, State.setCore_setCore, hy1]
  simp [Core.setXfer, tset_tset]

/-- One step of a copy of bytes. -/
theorem unitStep_byte {x : Transfer} {kind : Nat} {rnd : Rnd} {ls : List Level} (hx : (s.core c).xfer? slot = some x)
    (hop : x.op = .cpgo (.va D) (.va P) m .b8 .b8 rnd 0 kind ls) (hrest : x.rest = []) (hreq : ∀ q ∈ s.requests, q.owner ≠ .xfer c slot)
    (hr : openAccess s c (xferAcc .read 1) ((Addr.va P.toNat).plus ((runOffsets ls (x.done / m)).1 + (x.done % m : Nat))) 1 = .ok ([g], s1))
    (hgh : g.home = .local) (hgl : g.len = 1) (hg : gather c (.xfer c slot) [g] s1 = .ok l s2) (hgb : buffers s1 c g = false)
    (hw : openAccess s2 c (xferAcc .write 1) ((Addr.va D.toNat).plus ((runOffsets ls (x.done / m)).2 + (x.done % m : Nat))) 1 = .ok ([h], s3))
    (hh : h.home = .local) (hl : h.len = 1) (hb : buffers s3 c h = false) :
    ∃ v : State, unitStep s c slot x = .done (v.setCore c ((s3.core c).setXfer slot { x with done := x.done + 1, sent := [], rest := [] })) ∧
      v.mem = writeMasked s3.mem h.addr [readB s1.mem g.addr] [true] ∧ v.cores = s3.cores := by
  have hopen1 : Opens c s s1 := .of_openAccess hr
  have hbytes : l = [readB s1.mem g.addr] := by rw [gather_here hgh hgb hg, hgl]; rfl
  obtain ⟨C, hs2⟩ := gather_frame hg
  have hx2 : (s2.core c).xfer? slot = some x := by
    rw [hs2]
    exact hopen1.xfer.trans hx
  have hreq2 : ∀ q ∈ s2.requests, q.owner ≠ .xfer c slot := by
    rw [hs2]
    exact (Asks.of_openAccess hr).none_of_xfer hreq
  have hread : copyUnit c slot x.done (.va D) (.va P) m .b8 .b8 rnd 0 kind x.dph ls s =
      .write ⟨.va D, (runOffsets ls (x.done / m)).2 + (x.done % m : Nat), 1, [readB s1.mem g.addr]⟩ 0 s2 := by
    have hgot : readAt c slot (.va P) ((runOffsets ls (x.done / m)).1 + (x.done % m : Nat)) 1 1 s = .ok l s2 := by
      rw [readAt, readBy]
      simp only [Base.addr, hr, hg]
      simp [Seg.isRemote, hgh]
    rw [copyUnit]
    dsimp only
    have hul : unitLen .b8 .b8 0 = 1 := rfl
    have hsb : sideBytes .b8 (0 == 1) 1 = 1 := rfl
    have hdb : sideBytes .b8 (0 == 2) 1 = 1 := rfl
    rw [hul, hsb, hdb, Nat.div_one, Nat.mul_one]
    have hal : sideAlign .b8 (0 == 1) = 1 := rfl
    rw [hal, hgot, XGot.to]
    rw [hbytes, convUnit_bytes]
    rfl
  obtain ⟨v, hgo, hm, hc⟩ := writeUnit_byte (s := s2) (s0 := s) (x := x) (o := ⟨.va D, (runOffsets ls (x.done / m)).2 + (x.done % m : Nat), 1,
    [readB s1.mem g.addr]⟩) hx2 rfl hw hh hl hb hreq2
  obtain ⟨y, hy⟩ : ∃ y : Transfer, y = { x with done := x.done + 1, sent := [], rest := [] } := ⟨_, rfl⟩
  rw [← hy] at hgo ⊢
  refine ⟨v, ?_, hm, hc⟩
  have hnow : s.requests.any (fun q => q.owner == .xfer c slot && q.write) = false := by
    rw [List.any_eq_false]
    intro q hq
    simp [hreq q hq]
  rw [unitStep, hnow, if_neg Bool.false_ne_true, hrest, if_neg (by simp), hop]
  dsimp only [XferOp.unit]
  rw [hread]
  exact hgo

end

/-! ## The end of a transfer (R210, R213) -/

section
variable {s t u : State} {c slot n : Nat} {x y : Transfer}

theorem countIf_frame (b : Bool) (c n : Nat) (s : State) : ∃ D, (countIf b c n s).core c = { s.core c with det := D } ∧
    (countIf b c n s).mem = s.mem := by
  cases b with
  | false => exact ⟨(s.core c).det, rfl, rfl⟩
  | true => exact ⟨_, State.core_setCore_self _ _ _, rfl⟩

/-- What lands with flags that end nothing, with its tokens and slots. -/
theorem landWith_tokens {w : Who} {fl : Word} {give : List Nat} (hg : give.Nodup) (h : overflows (u.stream w) fl = false) : ∃ T R,
    landWith w fl give u = u.setCore w.core { (u.core w.core).setStream w.eng ((u.stream w).addFlags fl) with tokens := T, reserved := R } ∧
      (∀ n, tget T n 0 = (u.core w.core).token n + if n ∈ give then 1 else 0) ∧
      ∀ n, tget R n 0 = (u.core w.core).slots n - if n ∈ give then 1 else 0 := by
  obtain ⟨R, T, hgive, hT, hR⟩ := giveReserved_eq give ((u.core w.core).setStream w.eng ((u.stream w).addFlags fl))
  refine ⟨T, R, ?_, fun n => (hT hg n).trans ?_, fun n => (hR hg n).trans ?_⟩
  · simp only [landWith, h, Bool.false_eq_true, if_false, State.setStream, State.core_setCore_self, State.setCore_setCore, hgive]
  · rw [Core.token, Core.setStream_tokens, Core.token]
  · rw [Core.slots, Core.setStream_reserved, Core.slots]

theorem finishXfer_ends (ha : (s.core c).allEnded = false) (ho : overflows (s.core c).a y.flags = false) :
    ∃ t T R D, finishXfer s c slot y = t ∧ t.mem = s.mem ∧ t.core c = { s.core c with
      as := { (s.core c).as with xfers := tdel (s.core c).as.xfers slot }, a := (s.core c).a.addFlags y.flags,
      det := D, tokens := T, reserved := R } ∧
      (∀ n, tget T n 0 = (s.core c).token n + if n ∈ giveFifos .a y.give then 1 else 0) ∧
      ∀ n, tget R n 0 = (s.core c).slots n - if n ∈ giveFifos .a y.give then 1 else 0 := by
  obtain ⟨D, hk, hm⟩ := countIf_frame (decide (0 < (y.wrote + 511) / 512 - y.counted)) c ((y.wrote + 511) / 512 - y.counted) s
  obtain ⟨v, hv⟩ : ∃ v, v = countIf (decide (0 < (y.wrote + 511) / 512 - y.counted)) c ((y.wrote + 511) / 512 - y.counted) s := ⟨_, rfl⟩
  rw [← hv] at hk hm
  obtain ⟨u, hu⟩ : ∃ u, u = v.setCore c { v.core c with as := { (v.core c).as with xfers := tdel (v.core c).as.xfers slot } } := ⟨_, rfl⟩
  have huk : u.core c = { s.core c with as := { (s.core c).as with xfers := tdel (s.core c).as.xfers slot }, det := D } := by
    rw [hu, State.core_setCore_self, hk]
  have hov : overflows (u.stream ⟨c, .a⟩) y.flags = false := by
    rw [State.stream, huk]
    exact ho
  obtain ⟨T, R, hland, hT, hR⟩ := landWith_tokens (w := ⟨c, .a⟩) (giveFifos_nodup .a y.give) hov
  obtain ⟨K, hK⟩ : ∃ K, K = ({ s.core c with
      as := { (s.core c).as with xfers := tdel (s.core c).as.xfers slot }, a := (s.core c).a.addFlags y.flags,
      det := D, tokens := T, reserved := R } : Core) := ⟨_, rfl⟩
  have hland' : landWith ⟨c, .a⟩ y.flags (giveFifos .a y.give) u = u.setCore c K := by
    rw [hland, State.stream, huk, hK]
    rfl
  have hfin : finishXfer s c slot y = u.setCore c K := by
    rw [finishXfer]
    dsimp only
    rw [← hv, ← hu, hland']
    refine tryEndJob_landed ha ?_ fun e => ?_
    · rw [State.core_setCore_self, hK]
    · rw [State.core_setCore_self, hK]
      cases e <;> rfl
  refine ⟨_, T, R, D, hfin, by rw [hu]; exact hm, (State.core_setCore_self _ _ _).trans hK, fun n => ?_, fun n => ?_⟩
  · rw [hT n, huk]
    rfl
  · rw [hR n, huk]
    rfl

/-! ## The suspension of a transfer (R242, R243) -/

theorem mem_dropAt (s : State) (c cause : Nat) (v : Word) (op : XferOp) : (dropAt s c cause v op).mem = s.mem ∧
    ∃ G P N, (dropAt s c cause v op).core c = { s.core c with gtlb := G, as := { (s.core c).as with curPage := P, nextPage := N } } := by
  rw [dropAt]
  split
  · exact ⟨rfl, _, _, _, core_dropStale _ _⟩
  · exact ⟨rfl, _, _, _, rfl⟩

theorem suspendXfer_eq {cause : Nat} {v : Word} (hx : (s.core c).xfer? slot = some y) (ha : (s.core c).allEnded = false) :
    suspendXfer s c slot cause v = addLate (dropAnswered (putXfer (dropAt s c cause v y.op) c slot
      { y with suspended := true, rest := y.rest ++ nackedPieces s (.xfer c slot) y.sent, sent := [] }) (.xfer c slot)) ⟨c, .a⟩
      ⟨cause, v, some slot, none⟩ := by
  obtain ⟨-, G, P, N, hk⟩ := mem_dropAt s c cause v y.op
  obtain ⟨z, hz⟩ : ∃ z : Transfer, z = { y with suspended := true, rest := y.rest ++ nackedPieces s (.xfer c slot) y.sent, sent := [] } := ⟨_, rfl⟩
  obtain ⟨u, hu⟩ : ∃ u, u = dropAnswered (putXfer (dropAt s c cause v y.op) c slot z) (.xfer c slot) := ⟨_, rfl⟩
  have huk : u.core c = ((dropAt s c cause v y.op).core c).setXfer slot z := by
    rw [hu]
    exact State.core_setCore_self _ _ _
  have hlate := core_addLate u ⟨c, .a⟩ ⟨cause, v, some slot, none⟩
  dsimp only [State.stream] at hlate
  rw [huk, hk] at hlate
  rw [suspendXfer, hx]
  dsimp only
  rw [← hz, ← hu]
  refine tryEndJob_landed ha ?_ fun e => ?_
  · rw [hlate]
    rfl
  · rw [hlate]
    cases e <;> rfl

theorem mem_addLate (u : State) (c : Nat) (l : Late) : (addLate u ⟨c, .a⟩ l).mem = u.mem := by
  obtain ⟨L, C, h⟩ := addLate_frame u c l
  rw [h]
  rfl

/-- What is seen of a transfer that is suspended. -/
theorem suspendXfer_seen {cause : Nat} {v : Word} (hx : (s.core c).xfer? slot = some y) (ha : (s.core c).allEnded = false) :
    (suspendXfer s c slot cause v).mem = s.mem ∧
    ((suspendXfer s c slot cause v).core c).xfer? slot =
      some { y with suspended := true, rest := y.rest ++ nackedPieces s (.xfer c slot) y.sent, sent := [] } ∧
    ((suspendXfer s c slot cause v).core c).a = { (s.core c).a with late := (s.core c).a.late ++ [⟨cause, v, some slot, none⟩] } ∧
    ((suspendXfer s c slot cause v).core c).ms = (s.core c).ms := by
  obtain ⟨hmem, G, P, N, hk⟩ := mem_dropAt s c cause v y.op
  obtain ⟨z, hz⟩ : ∃ z : Transfer, z = { y with suspended := true, rest := y.rest ++ nackedPieces s (.xfer c slot) y.sent, sent := [] } := ⟨_, rfl⟩
  obtain ⟨u, hu⟩ : ∃ u, u = dropAnswered (putXfer (dropAt s c cause v y.op) c slot z) (.xfer c slot) := ⟨_, rfl⟩
  have huk : u.core c = ((dropAt s c cause v y.op).core c).setXfer slot z := by
    rw [hu]
    exact State.core_setCore_self _ _ _
  have hlate := core_addLate u ⟨c, .a⟩ ⟨cause, v, some slot, none⟩
  dsimp only [State.stream] at hlate
  rw [huk, hk] at hlate
  rw [suspendXfer_eq hx ha, ← hz, ← hu, mem_addLate, hlate]
  exact ⟨by rw [hu]; exact hmem, tfind_tset_self _ _ _, rfl, rfl⟩

/-! ## A row that enters the port (R261, R264) -/

/-- The second state differs from the first, on core `c`, in what the checks of accesses touch and in the rows that a transfer keeps. -/
structure Fans (c slot : Nat) (s t : State) : Prop where
  others : ∀ d, d ≠ c → t.core d = s.core d
  ms : (t.core c).ms = (s.core c).ms
  a : (t.core c).a = (s.core c).a
  tile : (t.core c).tile = (s.core c).tile
  xfer : ∀ x, (s.core c).xfer? slot = some x → ∃ f, (t.core c).xfer? slot = some { x with fan := f }

theorem Fans.trans (h1 : Fans c slot s t) (h2 : Fans c slot t u) : Fans c slot s u where
  others d hd := (h2.others d hd).trans (h1.others d hd)
  ms := h2.ms.trans h1.ms
  a := h2.a.trans h1.a
  tile := h2.tile.trans h1.tile
  xfer x hx := by
    obtain ⟨f, hf⟩ := h1.xfer x hx
    obtain ⟨f', hf'⟩ := h2.xfer _ hf
    exact ⟨f', hf'⟩

theorem Fans.of_opens (h : Opens c s t) : Fans c slot s t where
  others := h.others
  ms := congrArg (a₁ := (t.core c).openOf (s.core c)) Core.ms h.core
  a := h.a
  tile := h.tile
  xfer x hx := ⟨x.fan, h.xfer.trans hx⟩

theorem Fans.of_counters {C : Tbl Nat} : Fans c slot s { s with counters := C } := .of_opens (.of_device (.quiet rfl rfl))

theorem Fans.of_mapXfer (g : List (Nat × Int × List Byte) → List (Nat × Int × List Byte)) :
    Fans c slot s (mapXfer s c slot (fun x => { x with fan := g x.fan })) := by
  cases hx : (s.core c).xfer? slot with
  | none =>
    rw [mapXfer, hx]
    exact .of_opens (.refl c s)
  | some x =>
    rw [core_mapXfer _ hx]
    refine ⟨fun d hd => State.core_setCore_ne _ _ hd, ?_, ?_, ?_, fun y hy => ⟨g x.fan, ?_⟩⟩
    · rw [State.core_setCore_self]
      rfl
    · rw [State.core_setCore_self]
      rfl
    · rw [State.core_setCore_self]
      rfl
    · obtain rfl := Option.some.inj (hx.symm.trans hy)
      rw [State.core_setCore_self]
      exact xfer_setXfer _ _

theorem Fans.of_readBy {acc : Acc} {e : Nat} {b : Base} {off : Int} {k : Nat} {l : List Byte} (h : readBy acc c e b off k s = .ok l t) :
    Fans c slot s t := by
  rw [readBy] at h
  split at h
  · cases h
  · next segs s1 ho =>
    dsimp only at h
    split at h
    · cases h
    · split at h
      · next l' s2 hg =>
        obtain ⟨-, rfl⟩ := XGot.ok.inj h
        obtain ⟨C, hC⟩ := gather_frame hg
        rw [hC]
        exact (Fans.of_opens (.of_openAccess ho)).trans .of_counters
      · cases h
      · cases h

theorem Fans.of_feedHead {seq dph : Nat} {index : Base} {gather : Bool} {stride : Int} {tagBase : Nat} {rnd : Rnd} {byTag scaled : Bool}
    {hd : RowHead} (h : feedHead c slot seq dph index gather stride tagBase rnd byTag scaled s = .ok hd t) : Fans c slot s t := by
  rw [feedHead] at h
  split at h
  · obtain ⟨-, rfl⟩ := HeadGot.ok.inj h
    exact .of_opens (.refl c s)
  · dsimp only at h
    split at h
    · cases h
    · cases h
    · next hr =>
      obtain ⟨-, rfl⟩ := HeadGot.ok.inj h
      exact .of_readBy hr

theorem Fans.of_readRow {b : Base} {off : Int} {k align : Nat} {l : List Byte} (h : readRow c slot b off k align s = .ok l t) :
    Fans c slot s t := by
  rw [readRow] at h
  split at h
  · cases h
  · split at h
    · cases h
    · exact .of_readBy h

theorem Fans.of_readFan {pos : Nat} {idx : Int} {read : State → XGot} {l : List Byte} (hread : ∀ u l v, read u = .ok l v → Fans c slot u v)
    (h : readFan c slot pos idx read s = .ok l t) : Fans c slot s t := by
  rw [readFan] at h
  split at h
  · obtain ⟨-, rfl⟩ := XGot.ok.inj h
    exact .of_opens (.refl c s)
  · cases hr : read s with
    | ok l' u =>
      rw [hr] at h
      obtain ⟨-, rfl⟩ := XGot.ok.inj h
      exact (hread _ _ _ hr).trans (.of_mapXfer (fun f => (pos / 256, idx, l') :: f))
    | wait m =>
      rw [hr] at h
      cases h
    | bad cause v =>
      rw [hr] at h
      cases h

theorem Fans.of_feedRow {seq dph : Nat} {op : XferOp} {r : Row} {fl : Word} (h : feedRow s c slot seq dph op = .row r fl t) :
    Fans c slot s t := by
  cases op with
  | feed feed rows index gather n stride tagBase len ty rnd skip byTag scaled =>
    rw [feedRow] at h
    split at h
    · cases h
    · cases h
    · next hd s1 hh =>
      have hhead : Fans c slot s s1 := .of_feedHead hh
      dsimp only at h
      split at h
      · cases h
      · split at h
        · obtain ⟨-, -, rfl⟩ := RowGot.row.inj h
          exact hhead
        · cases h
      · next l s2 hl =>
        obtain ⟨-, -, rfl⟩ := RowGot.row.inj h
        have hrow : Fans c slot s s2 := by
          refine hhead.trans ?_
          split at hl
          · exact .of_readFan (fun _ _ _ hr => .of_readRow hr) hl
          · exact .of_readRow hl
        split
        · exact hrow.trans (.of_opens (.of_noteGathers [_] s2))
        · exact hrow
  | _ => cases h

end

/-! ## The events -/

section
variable {s : State} {c slot : Nat} {x : Transfer}

theorem transferCompletion_completes {s1 : State} {y : Transfer} (hc : c < 512) (hx : (s.core c).xfer? slot = some x)
    (hm : mayMove s c x = true) (hr : runUnits c slot x.stepsLeft s = .complete s1) (hy : (s1.core c).xfer? slot = some y) :
    exec (.transferCompletion c slot) s = .next (finishXfer s1 c slot y) := by
  change execTransferCompletion c slot s = _
  simp only [execTransferCompletion, coreExists, hc, decide_true, Bool.not_true, Bool.false_eq_true, if_false, hx, hm, hr, hy]

/-- A transfer that is no feed runs on to the element that is refused. -/
theorem transferElementFault_acts (hc : c < 512) (hx : (s.core c).xfer? slot = some x) (hm : mayMove s c x = true)
    (hop : x.op.isFeed = false) {s1 : State} {cause : Nat} {v : Word} (hr : runUnits c slot x.stepsLeft s = .refused s1 cause v) :
    exec (.transferElementFault c slot) s = .next (suspendXfer s1 c slot cause v) := by
  change execTransferElementFault c slot s = _
  simp only [execTransferElementFault, coreExists, hc, decide_true, Bool.not_true, Bool.false_eq_true, if_false, hx, hm]
  cases ho : x.op with
  | feed => simp [ho, XferOp.isFeed] at hop
  | _ => dsimp only; rw [hr]

theorem feedFault_acts (hc : c < 512) (hx : (s.core c).xfer? slot = some x) (hm : mayMove s c x = true)
    (hop : x.op.isFeed = true) {cause : Nat} {v : Word} (hr : feedFault s c slot x (List.range x.op.units) = some (cause, v)) :
    exec (.transferElementFault c slot) s = .next (suspendXfer s c slot cause v) := by
  change execTransferElementFault c slot s = _
  simp only [execTransferElementFault, coreExists, hc, decide_true, Bool.not_true, Bool.false_eq_true, if_false, hx, hm]
  cases ho : x.op with
  | feed =>
    rw [ho] at hr
    dsimp only
    rw [XferOp.units] at hr
    rw [hr]
  | _ => simp [ho, XferOp.isFeed] at hop

theorem transfer_stands (hc : c < 512) (hx : (s.core c).xfer? slot = some x) (hm : mayMove s c x = false) :
    exec (.transferCompletion c slot) s = .next s ∧ exec (.transferElementFault c slot) s = .next s ∧ runTransfer s c slot 1 = s := by
  refine ⟨?_, ?_, ?_⟩
  · change execTransferCompletion c slot s = _
    simp [execTransferCompletion, coreExists, hc, hx, hm]
  · change execTransferElementFault c slot s = _
    simp [execTransferElementFault, coreExists, hc, hx, hm]
  · simp [runTransfer, hx, hm]

theorem runUnits_zero (t : State) : runUnits c slot 0 t = .complete t ∨ runUnits c slot 0 t = .paused t := by
  rw [runUnits]
  split
  · exact .inr rfl
  · split
    · exact .inl rfl
    · exact .inr rfl

/-- A transfer that may move takes one step. -/
theorem runTransfer_one {t : State} (hx : (s.core c).xfer? slot = some x) (hm : mayMove s c x = true) (hn : x.done < x.op.units)
    (hu : unitStep s c slot x = .done t) : runTransfer s c slot 1 = t := by
  rw [runTransfer, hx]
  simp only [hm, Bool.not_true, Bool.false_eq_true, if_false]
  rw [runUnits, hx]
  dsimp only
  rw [if_neg (by omega), hu]
  dsimp only
  rcases runUnits_zero (c := c) (slot := slot) t with h | h
  · rw [h]
  · rw [h]

theorem rowPortEntry_enters {seq : Nat} {r : Row} {fl : Word} {s1 : State} (hc : c < 512) (hx : (s.core c).xfer? slot = some x)
    (hm : mayEnter s c x seq = true) (ho : inSOOrder s c slot x seq = true) (hr : feedRow s c slot seq x.dph x.op = .row r fl s1) :
    ∃ t f, exec (.rowPortEntry c slot seq) s = .next t ∧ t.mem = s1.mem ∧ (∀ d, d ≠ c → t.core d = s1.core d) ∧
      t.core c = { (s1.core c).setXfer slot { x with
        entered := seq :: x.entered, done := x.done + 1, flags := x.flags ||| fl, fan := f } with
        ms := { (s1.core c).ms with port := (s1.core c).ms.port ++ [r] } } := by
  obtain ⟨f, hf⟩ := (Fans.of_feedRow hr).xfer x hx
  obtain ⟨u, hu⟩ : ∃ u, u = (dropReqs s1 (.xfer c slot)).setCore c ((s1.core c).setXfer slot { x with
        entered := seq :: x.entered, done := x.done + 1, flags := x.flags ||| fl, fan := f }) := ⟨_, rfl⟩
  have huk : u.core c = (s1.core c).setXfer slot { x with
        entered := seq :: x.entered, done := x.done + 1, flags := x.flags ||| fl, fan := f } := by
    rw [hu]
    exact State.core_setCore_self _ _ _
  have hgo : exec (.rowPortEntry c slot seq) s = .next (u.setCore c { u.core c with
      ms := { (u.core c).ms with port := (u.core c).ms.port ++ [r] } }) := by
    change execRowPortEntry c slot seq s = _
    simp only [execRowPortEntry, coreExists, hc, decide_true, Bool.not_true, Bool.false_eq_true, if_false, hx, hm, ho, Bool.or_false, hr]
    rw [core_mapXfer (s := dropReqs s1 (.xfer c slot)) (x := { x with fan := f }) _ hf, hu]
    rfl
  refine ⟨_, f, hgo, ?_, fun d hd => (State.core_setCore_ne _ _ hd).trans ?_, (State.core_setCore_self _ _ _).trans (by rw [huk]; rfl)⟩
  · rw [hu]
    rfl
  · rw [hu]
    exact State.core_setCore_ne _ _ hd

end

/-- Settles O42: a step of a copy, the end and the suspension of a transfer, and the rows of a feed. -/
theorem transferEvents : Obligations.TransferEvents := by
  intro s c slot x hc hx
  refine ⟨transfer_stands hc hx, fun hm => ⟨fun D P m kind rnd ls n hop hm0 hn hrest hreq hwf hdone g h s1 l s2 s3 hr hgh hgl hg hgb hw hh hl hb
      hwf3 => ?_, fun s1 y hrun hy ha hov => ?_, fun s1 y cause v hop hrun hy ha => ?_, fun cause v hop hr ha => ?_⟩,
    fun seq r fl s1 hm ho hr => ?_⟩
  · subst hdone
    obtain ⟨v, hstep, hvm, hvc⟩ := unitStep_byte hx hop hrest hreq hr hgh hgl hg hgb hw hh hl hb
    have hrun := runTransfer_one hx hm hn hstep
    obtain ⟨C, hs2⟩ := gather_frame hg
    have hopen : Opens c s s3 := (Opens.of_openAccess hr).trans (Opens.trans (t := s2) (by rw [hs2]; exact .of_device (.quiet rfl rfl))
      (.of_openAccess hw))
    dsimp only
    rw [hrun]
    have hread : ∀ y, readB v.mem y = if y = h.addr then readB s1.mem g.addr else readB s3.mem y := fun y => by
      rw [hvm, readB_writeMasked hwf3]
      by_cases hy : y = h.addr
      · subst hy
        simp
      · rw [if_neg (by simp; omega), if_neg hy]
    refine ⟨(hread _).trans (if_pos rfl), fun y hy => (hread y).trans (if_neg hy), ?_, fun d hd => ?_⟩
    · rw [State.core_setCore_self, xfer_setXfer, hrest]
    · exact (State.core_setCore_ne _ _ hd).trans ((core_of_cores hvc d).trans (hopen.others d hd))
  · obtain ⟨t, T, R, F, hfin, htm, htc, hT, hR⟩ := finishXfer_ends (slot := slot) ha hov
    refine ⟨t, ?_, ?_, ?_, ?_, fun n => ?_, fun n => ?_, htm, ?_, ?_, ?_⟩
    · rw [transferCompletion_completes hc hx hm hrun hy, hfin]
    · rw [htc]
    · rw [htc]
      exact tfind_tdel_self _ _
    · rw [htc]
      rfl
    · rw [htc]
      exact hT n
    · rw [htc]
      exact hR n
    · rw [htc]
    · rw [htc]
    · rw [htc]
  · rw [transferElementFault_acts hc hx hm hop hrun, suspendXfer_eq hy ha]
  · obtain ⟨hmem, hxf, hla, hms⟩ := suspendXfer_seen (cause := cause) (v := v) hx ha
    exact ⟨_, feedFault_acts hc hx hm hop hr, hmem, ⟨_, hxf⟩, hla, hms⟩
  · have hfans := Fans.of_feedRow hr
    obtain ⟨t, f, ht, htm, hto, htc⟩ := rowPortEntry_enters hc hx hm ho hr
    refine ⟨t, ht, ?_, ⟨f, ?_⟩, htm, ?_, ?_, fun d hd => (hto d hd).trans (hfans.others d hd)⟩
    · rw [htc, ← hfans.ms]
    · rw [htc]
      exact xfer_setXfer _ _
    · rw [htc, ← hfans.a]
      rfl
    · rw [htc, ← hfans.tile]
      rfl

end Sys2Proof.Machine
end

section
/-! SUPPORT. How M's commands end, suspend and report (R290 to R293, R297): what each leaves of its core, once for every event of M. -/

namespace Sys2Proof.Machine

/-! ## What M's events leave alone -/

/-- The second state differs from the first, on core `c`, in M's stream and state, tokens and slots, the tile store and the counters of
waits; no stream stops or starts. -/
structure MSide (c : Nat) (s t : State) : Prop where
  cores : ∀ d, d ≠ c → t.core d = s.core d
  mem : t.mem = s.mem
  a : (t.core c).a = (s.core c).a
  x : (t.core c).x = (s.core c).x
  q : (t.core c).q = (s.core c).q
  w : (t.core c).w = (s.core c).w
  mbox : (t.core c).mbox = (s.core c).mbox
  job : (t.core c).job = (s.core c).job
  run : (t.core c).m.run = (s.core c).m.run

section
variable {s t u : State} {c n : Nat} {k : Core}

theorem MSide.refl (c : Nat) (s : State) : MSide c s s := ⟨fun _ _ => rfl, rfl, rfl, rfl, rfl, rfl, rfl, rfl, rfl⟩

theorem MSide.trans (h1 : MSide c s t) (h2 : MSide c t u) : MSide c s u :=
  ⟨fun d hd => (h2.cores d hd).trans (h1.cores d hd), h2.mem.trans h1.mem, h2.a.trans h1.a, h2.x.trans h1.x, h2.q.trans h1.q,
    h2.w.trans h1.w, h2.mbox.trans h1.mbox, h2.job.trans h1.job, h2.run.trans h1.run⟩

/-- A core that M's state, stream, tokens, slots, tile store and counters of waits alone are replaced in. -/
theorem MSide.of_setCore {M : MState} {m : Stream} {T R C : Tbl Nat} {tile : Memory} {bt : List Nat} {bp : List Nat}
    (hk : k = { s.core c with ms := M, m := m, tokens := T, reserved := R, conflicts := C, tile := tile, badTile := bt, badParity := bp })
    (hrun : m.run = (s.core c).m.run) : MSide c s (s.setCore c k) := by
  subst hk
  have hcore := State.core_setCore_self s c { s.core c with
    ms := M, m := m, tokens := T, reserved := R, conflicts := C, tile := tile, badTile := bt, badParity := bp }
  exact ⟨fun d hd => State.core_setCore_ne _ _ hd, rfl, by rw [hcore], by rw [hcore], by rw [hcore], by rw [hcore], by rw [hcore],
    by rw [hcore], by rw [hcore]; exact hrun⟩

theorem MSide.of_addLate (l : Late) : MSide c s (addLate s ⟨c, .m⟩ l) := by
  have hcore := core_addLate s ⟨c, .m⟩ l
  obtain ⟨v, hv⟩ : ∃ v, v = s.setStream ⟨c, .m⟩ { s.stream ⟨c, .m⟩ with late := (s.stream ⟨c, .m⟩).late ++ [l] } := ⟨_, rfl⟩
  have hshape : ∃ C, addLate s ⟨c, .m⟩ l = { v with clusters := C } := by
    rw [addLate]
    dsimp only
    rw [← hv]
    split
    · exact freezeAll_frame (why := .fault c .m) _ v
    · exact ⟨v.clusters, rfl⟩
  obtain ⟨C, hlate⟩ := hshape
  have hcores : ∀ d, d ≠ c → (addLate s ⟨c, .m⟩ l).core d = s.core d := fun d hd => by
    rw [hlate, hv]
    exact State.core_setCore_ne _ _ hd
  refine ⟨hcores, by rw [hlate, hv]; rfl, ?_, ?_, ?_, ?_, ?_, ?_, ?_⟩ <;> rw [hcore] <;> rfl

/-- No job ends by an event of M whose core's streams run on. -/
theorem MSide.tryEndJob (h : MSide c s t) (ha : (s.core c).allEnded = false) : Machine.tryEndJob t c = t := by
  refine tryEndJob_landed ha h.job fun e => ?_
  cases e
  · exact congrArg Stream.run h.a
  · exact congrArg Stream.run h.x
  · exact h.run

theorem core_addLate_m (s : State) (c : Nat) (l : Late) : (addLate s ⟨c, .m⟩ l).core c =
    { s.core c with m := { (s.core c).m with late := (s.core c).m.late ++ [l] } } := core_addLate s ⟨c, .m⟩ l

/-! ## Commands in their places -/

theorem setCmd_eq (k : Core) (cm : Cmd) : ∃ L, k.setCmd cm = { k with ms := { k.ms with
    window := inPlace cm k.ms.window, records := L } } := by
  refine ⟨(k.setCmd cm).ms.records, ?_⟩
  simp only [Core.setCmd, inPlace, beq_iff_eq]

theorem inPlace_inPlace {c d : Cmd} (h : d.seq = c.seq) (l : List Cmd) : inPlace d (inPlace c l) = inPlace d l := by
  rw [inPlace, inPlace, inPlace, List.map_map]
  refine List.map_congr_left fun e _ => ?_
  by_cases he : e.seq = c.seq
  · simp [he, h]
  · simp [he, h]

theorem mem_inPlace {c m : Cmd} {l : List Cmd} (h : m ∈ inPlace c l) : m = c ∨ m ∈ l := by
  obtain ⟨e, he, rfl⟩ := List.mem_map.mp h
  by_cases hs : e.seq = c.seq
  · rw [if_pos hs]
    exact .inl rfl
  · rw [if_neg hs]
    exact .inr he

/-- The command found by a number, once another of that number has taken its place. -/
theorem find?_inPlace {c d : Cmd} {l : List Cmd} (h : (inPlace c l).find? (fun x => x.seq == c.seq) = some d) : d = c := by
  rw [inPlace] at h
  refine find?_setCmd (l := l) (c := c) (d := d) ?_
  rw [← h]
  simp

/-- The first command with a property, once one that has it has taken another's place. -/
theorem find?_inPlace_first {c c' : Cmd} {p : Cmd → Bool} (hp : p c' = true) (hseq : c'.seq = c.seq) : ∀ {l : List Cmd},
    l.find? p = some c → (inPlace c' l).find? p = some c'
  | [], h => by cases h
  | d :: l, h => by
    rw [inPlace, List.map_cons, List.find?_cons]
    by_cases hd : d.seq = c'.seq
    · rw [if_pos hd, hp]
    · rw [if_neg hd]
      rw [List.find?_cons] at h
      split at h
      · obtain rfl := Option.some.inj h
        exact absurd hseq.symm hd
      · exact find?_inPlace_first hp hseq h

/-! ## Suspension, retirement and reports -/

/-- A command that suspends (R290, R291). -/
theorem suspendCmd_eq {cm : Cmd} {cause detail : Nat} (h : MSide c s u) (ha : (s.core c).allEnded = false) :
    ∃ t, suspendCmd u c cm cause detail = t ∧ MSide c s t ∧ t.core c =
      { (u.core c).setCmd { cm with state := .suspended, checked := if cm.op.isRun then false else cm.checked } with
        m := { (u.core c).m with late := (u.core c).m.late ++ [⟨cause, cmdTval cm 0 detail, none, some cm.seq⟩] } } := by
  obtain ⟨v, hv⟩ : ∃ v, v = u.setCore c ((u.core c).setCmd
    { cm with state := .suspended, checked := if cm.op.isRun then false else cm.checked }) := ⟨_, rfl⟩
  have hside : MSide c s v := by
    rw [hv]
    exact h.trans (.of_setCore (k := (u.core c).setCmd _) rfl rfl)
  have hcore : v.core c = (u.core c).setCmd { cm with state := .suspended, checked := if cm.op.isRun then false else cm.checked } := by
    rw [hv]
    exact State.core_setCore_self _ _ _
  have hall := hside.trans (.of_addLate ⟨cause, cmdTval cm 0 detail, none, some cm.seq⟩)
  refine ⟨addLate v ⟨c, .m⟩ ⟨cause, cmdTval cm 0 detail, none, some cm.seq⟩, ?_, hall, ?_⟩
  · rw [suspendCmd]
    rw [← hv, hall.tryEndJob ha]
  · rw [core_addLate_m, hcore]
    rfl

/-- What is seen of a command that retires. -/
theorem retireCmd_seen {cm : Cmd} (h : MSide c s u) (ha : (s.core c).allEnded = false) :
    ∃ t, retireCmd u c cm = t ∧ MSide c s t ∧ (∃ W L, (t.core c).ms = { (u.core c).ms with window := W, records := L }) ∧
      (t.core c).tile = (u.core c).tile := by
  obtain ⟨c1, hc1⟩ : ∃ c1 : Cmd, c1 = { cm with
    state := .retired, seen := if overflows (u.core c).m cm.flags then 0x23 :: cm.seen else cm.seen } := ⟨_, rfl⟩
  obtain ⟨k1, hk1⟩ : ∃ k1, k1 = leaveWindow { u.core c with m := (u.core c).m.addFlags cm.flags } c1 := ⟨_, rfl⟩
  obtain ⟨R, hR, -⟩ := unreserve_eq (giveFifos .m cm.give) k1
  obtain ⟨R', T', hgive, -⟩ := giveReserved_eq (giveFifos .m cm.give) k1
  cases ho : overflows (u.core c).m cm.flags with
  | false =>
    have hside : MSide c s (u.setCore c (k1.giveReserved (giveFifos .m cm.give))) := by
      rw [hgive]
      exact h.trans (.of_setCore (k := { k1 with reserved := R', tokens := T' }) (m := (u.core c).m.addFlags cm.flags) (by rw [hk1]; rfl) rfl)
    refine ⟨u.setCore c (k1.giveReserved (giveFifos .m cm.give)), ?_, hside, ?_, ?_⟩
    · rw [retireCmd]
      rw [← hc1, ← hk1, ho]
      exact hside.tryEndJob ha
    · rw [State.core_setCore_self, hgive, hk1]
      exact ⟨_, _, rfl⟩
    · rw [State.core_setCore_self, hgive, hk1]
      rfl
  | true =>
    obtain ⟨v, hv⟩ : ∃ v, v = u.setCore c (k1.unreserve (giveFifos .m cm.give)) := ⟨_, rfl⟩
    have hvk : v.core c = { k1 with reserved := R } := by
      rw [hv, State.core_setCore_self, hR]
    have hside : MSide c s v := by
      rw [hv, hR]
      exact h.trans (.of_setCore (k := { k1 with reserved := R }) (m := (u.core c).m.addFlags cm.flags) (by rw [hk1]; rfl) rfl)
    have hall := hside.trans (.of_addLate ⟨0x23, cmdTval cm 0 0, none, none⟩)
    refine ⟨addLate v ⟨c, .m⟩ ⟨0x23, cmdTval cm 0 0, none, none⟩, ?_, hall, ?_, ?_⟩
    · rw [retireCmd]
      rw [← hc1, ← hk1, ho]
      rw [if_pos rfl, if_pos rfl, ← hv]
      exact hall.tryEndJob ha
    · rw [core_addLate_m, hvk, hk1]
      exact ⟨_, _, rfl⟩
    · rw [core_addLate_m, hvk, hk1]
      rfl

/-- A command that retires with flags that end nothing. -/
theorem retireCmd_gives {cm : Cmd} (h : MSide c s u) (ha : (s.core c).allEnded = false) (ho : overflows (u.core c).m cm.flags = false) :
    ∃ t T R, retireCmd u c cm = t ∧ MSide c s t ∧ t.core c = { u.core c with
        ms := { (u.core c).ms with
          window := (u.core c).ms.window.filter (fun d => d.seq != cm.seq),
          records := (u.core c).ms.records ++ [{ cm with state := .retired }] },
        m := (u.core c).m.addFlags cm.flags, tokens := T, reserved := R } ∧
      (∀ n, tget T n 0 = (u.core c).token n + if n ∈ giveFifos .m cm.give then 1 else 0) ∧
      ∀ n, tget R n 0 = (u.core c).slots n - if n ∈ giveFifos .m cm.give then 1 else 0 := by
  obtain ⟨k1, hk1⟩ : ∃ k1, k1 = leaveWindow { u.core c with m := (u.core c).m.addFlags cm.flags } { cm with state := .retired } := ⟨_, rfl⟩
  obtain ⟨R, T, hgive, hT, hR⟩ := giveReserved_eq (giveFifos .m cm.give) k1
  have hside : MSide c s (u.setCore c (k1.giveReserved (giveFifos .m cm.give))) := by
    rw [hgive]
    exact h.trans (.of_setCore (k := { k1 with reserved := R, tokens := T }) (m := (u.core c).m.addFlags cm.flags) (by rw [hk1]; rfl) rfl)
  refine ⟨u.setCore c (k1.giveReserved (giveFifos .m cm.give)), T, R, ?_, hside, ?_, fun n => ?_, fun n => ?_⟩
  · rw [retireCmd]
    rw [ho, if_neg Bool.false_ne_true, if_neg Bool.false_ne_true, if_neg Bool.false_ne_true, ← hk1]
    exact hside.tryEndJob ha
  · rw [State.core_setCore_self, hgive, hk1]
    rfl
  · rw [hT (giveFifos_nodup _ _), hk1]
    rfl
  · rw [hR (giveFifos_nodup _ _), hk1]
    rfl

/-- A row's cause reaches M's stream once for its command. -/
theorem reportRow_eq (d : Cmd) (cause : Nat) (r : Row) (u : State) (c : Nat) : ∃ t, reportRow u c d cause r = t ∧ MSide c u t ∧
    t.core c = { (u.core c).setCmd { d with seen := if cause ∈ d.seen then d.seen else cause :: d.seen } with
      m := { (u.core c).m with
        late := (u.core c).m.late ++ (if cause ∈ d.seen then [] else [⟨cause, cmdTval d r.tag r.seq, none, none⟩]) } } := by
  obtain ⟨v, hv⟩ : ∃ v, v = u.setCore c ((u.core c).setCmd { d with seen := if cause ∈ d.seen then d.seen else cause :: d.seen }) := ⟨_, rfl⟩
  have hcore : v.core c = (u.core c).setCmd { d with seen := if cause ∈ d.seen then d.seen else cause :: d.seen } := by
    rw [hv]
    exact State.core_setCore_self _ _ _
  have hside : MSide c u v := by
    rw [hv]
    exact .of_setCore (k := (u.core c).setCmd _) rfl rfl
  have hreport : reportRow u c d cause r =
      if cause ∈ d.seen then v else addLate v ⟨c, .m⟩ ⟨cause, cmdTval d r.tag r.seq, none, none⟩ := by
    rw [reportRow, hv]
    simp only [List.contains_iff_mem]
  rw [hreport]
  by_cases hs : cause ∈ d.seen
  · refine ⟨_, rfl, ?_, ?_⟩
    · rw [if_pos hs]
      exact hside
    · rw [if_pos hs, hcore]
      simp only [hs, if_true, List.append_nil]
      rfl
  · refine ⟨_, rfl, ?_, ?_⟩
    · rw [if_neg hs]
      exact hside.trans (.of_addLate _)
    · rw [if_neg hs, core_addLate_m, hcore]
      simp only [hs, if_false]
      rfl

/-! ## Retirement of an MRUN that is not to retire, and bindings -/

theorem tryRetireRun_stays (h : ∀ d, (u.core c).ms.window.find? (fun x => x.seq == n) = some d → d.complete = false ∨
    (u.core c).ms.array.any (fun p => p.cmd == n && p.last) = true) : tryRetireRun u c n = u := by
  rw [tryRetireRun]
  split
  · rfl
  · next d hd =>
    rcases h d hd with hno | hlast
    · rw [hno, Bool.and_false, Bool.false_and, if_neg Bool.false_ne_true]
    · rw [hlast, Bool.not_true, Bool.and_false, if_neg Bool.false_ne_true]

/-- Bindings fit where every unbound feed and every issued command of the window are those of a core whose feeds fit. -/
theorem fits_of_window {k k' : Core} (h : FeedsFit k) (hfeeds : ∀ f ∈ k'.ms.feeds, f.bound = none → f ∈ k.ms.feeds)
    (hcmds : ∀ m ∈ k'.ms.window, m.state = .issued → ∃ m' ∈ k.allCmds, m'.op = m.op ∧ m'.state ≠ .retired ∧ m'.state ≠ .cancelled) :
    ∀ m f, k'.binds = some (m, f) → m.rowTy = f.ty := by
  intro m f hb
  obtain ⟨hm, hrun, hst, hf, hunbound⟩ := binds_spec hb
  obtain ⟨m', hm', hop, hret, hcan⟩ := hcmds m hm hst
  have hty : m'.rowTy = m.rowTy := by rw [Cmd.rowTy, Cmd.rowTy, hop]
  rw [← hty]
  exact h m' hm' f (hfeeds f hf hunbound) (hop ▸ hrun) hret hcan hunbound

/-- A binding that fits changes the feeds alone. -/
theorem bindNow_seen (hside : MSide c s u) (hfit : ∀ m f, (u.core c).binds = some (m, f) → m.rowTy = f.ty) :
    ∃ t, bindNow u c = t ∧ MSide c s t ∧ t.core c = (u.core c).bound ∧
      ∃ F, t.core c = { u.core c with ms := { (u.core c).ms with feeds := F } } := by
  rw [bindNow_fits hfit]
  cases hb : (u.core c).binds with
  | none =>
    have hbound : (u.core c).bound = u.core c := by rw [Core.bound, hb]
    exact ⟨u, rfl, hside, hbound.symm, _, rfl⟩
  | some p =>
    have hbound : (u.core c).bound = setBound (u.core c) p.2.id p.1.seq := by rw [Core.bound, hb]
    refine ⟨_, rfl, hside.trans (.of_setCore (k := (u.core c).bound) (by rw [hbound]; rfl) rfl), State.core_setCore_self _ _ _, ?_⟩
    rw [State.core_setCore_self, hbound]
    exact ⟨_, rfl⟩

end

end Sys2Proof.Machine
end

section
/-! SUPPORT. The acts of M's commands other than MRUN (R300, R301, R303 to R305): what each writes, and what it leaves alone. -/

namespace Sys2Proof.Machine

/-! ## Tables of blocks -/

section
variable {α : Type}

theorem tget_of_mem {t : Tbl α} {n : Nat} {v d : α} (hm : (n, v) ∈ t) (hu : ∀ v', (n, v') ∈ t → v' = v) : tget t n d = v := by
  rw [tget]
  cases h : tfind t n with
  | some v' => exact hu v' (tfind_mem h)
  | none =>
    exfalso
    induction t with
    | nil => cases hm
    | cons p t ih =>
      rw [tfind.eq_def] at h
      dsimp only at h
      split at h
      · cases h
      · next hne =>
        rcases List.mem_cons.mp hm with rfl | hm
        · exact hne rfl
        · exact ih hm (fun v' hv' => hu v' (List.mem_cons_of_mem _ hv')) h

/-- The entry of a table that lists blocks of `b` entries, `S` numbers apart. -/
theorem tget_blocks {a b S j i : Nat} {f : Nat → Nat → α} {d : α} (hb : b ≤ S) (hj : j < a) (hi : i < b) :
    tget ((List.range a).flatMap (fun j => (List.range b).map (fun i => (j * S + i, f j i)))) (j * S + i) d = f j i := by
  refine tget_of_mem (List.mem_flatMap.mpr ⟨j, List.mem_range.mpr hj, List.mem_map.mpr ⟨i, List.mem_range.mpr hi, rfl⟩⟩) fun v hv => ?_
  obtain ⟨j', -, hv⟩ := List.mem_flatMap.mp hv
  obtain ⟨i', hi', heq⟩ := List.mem_map.mp hv
  obtain ⟨hn, rfl⟩ := Prod.mk.injEq _ _ _ _ ▸ heq
  have hi'' := List.mem_range.mp hi'
  have hS : 0 < S := by omega
  have hdiv : ∀ x y, y < S → (x * S + y) / S = x := fun x y hy => by
    rw [Nat.mul_comm, Nat.mul_add_div hS, Nat.div_eq_of_lt hy, Nat.add_zero]
  have hjj : j' = j := by rw [← hdiv j' i' (by omega), hn, hdiv j i (by omega)]
  subst hjj
  obtain rfl : i' = i := by omega
  rfl

end

theorem length_rowVals {ty : Ty} {n : Nat} (l : List Byte) (h : ty = .k4 → n % 32 = 0) : (rowVals ty n l).length = n := by
  rw [rowVals]
  by_cases hk : ty = .k4
  · have hblock : ∀ b, (blockVals .k4 false b).length = 32 := fun b => by simp [blockVals]
    have h32 := h hk
    rw [if_pos hk, List.length_flatMap]
    simp only [hblock, chunks_eq]
    simp [Function.comp_def]
    omega
  · rw [if_neg hk]
    simp [codesOf, chunks_eq]

theorem mapIdx_eq_range {α β : Type} (l : List α) (z : α) (f : Nat → α → β) :
    l.mapIdx f = (List.range l.length).map (fun i => f i (l.getD i z)) := by
  refine List.ext_getElem (by simp) fun i h1 h2 => ?_
  simp only [List.length_mapIdx] at h1
  simp [List.getElem_mapIdx, h1]

/-- The dense weights that a block's bytes hold. -/
theorem denseVals_row {k : Core} {t kk n : Nat} {ty : Ty} {j : Nat} (hn : n ≤ 64) (h4 : ty = .k4 → n % 32 = 0) (hj : j < kk) :
    (List.range n).map (fun i => tget (denseVals k t kk n ty) (j * 64 + i) (.fin false 0 0)) =
      rowVals ty n (readBytes k.tile (4096 * t + j * rowLen ty n) (rowLen ty n)) := by
  have hshape : denseVals k t kk n ty = (List.range kk).flatMap (fun j => (List.range n).map (fun i =>
      (j * 64 + i, (rowVals ty n (readBytes k.tile (4096 * t + j * rowLen ty n) (rowLen ty n))).getD i (.fin false 0 0)))) := by
    rw [denseVals]
    refine congrArg (fun f => List.flatMap f (List.range kk)) (funext fun j => ?_)
    rw [mapIdx_eq_range _ (.fin false 0 0), length_rowVals _ h4]
  refine List.ext_getElem (by simp [length_rowVals _ h4]) fun i h1 h2 => ?_
  rw [length_rowVals _ h4] at h2
  rw [List.getElem_map, List.getElem_range, hshape, tget_blocks hn hj h2]
  simp [length_rowVals _ h4, h2]

/-! ## What an act leaves alone -/

/-- The second core differs from the first in weights, accumulators, tile-store bytes and their errors. -/
def ActFrame (k k1 : Core) : Prop := ∃ W A B T bt bp,
  k1 = { k with ms := { k.ms with wb := W, acc := A, badAcc := B }, tile := T, badTile := bt, badParity := bp }

section
variable {k k1 k2 : Core} {s : State} {c n : Nat} {cm : Cmd}

theorem ActFrame.refl (k : Core) : ActFrame k k := ⟨_, _, _, _, _, _, rfl⟩

theorem ActFrame.trans (h1 : ActFrame k k1) (h2 : ActFrame k1 k2) : ActFrame k k2 := by
  obtain ⟨_, _, _, _, _, _, rfl⟩ := h1
  obtain ⟨_, _, _, _, _, _, rfl⟩ := h2
  exact ⟨_, _, _, _, _, _, rfl⟩

theorem ActFrame.of_setTile (a : Nat) (t : AccTile) : ActFrame k (k.setTile a t) := ⟨_, _, _, _, _, _, rfl⟩
theorem ActFrame.of_mendRows (a : Nat) (l : List Nat) : ActFrame k (mendRows k a l) := ⟨_, _, _, _, _, _, rfl⟩
theorem ActFrame.of_tileWrite (a : Nat) (l : List Byte) (m : List Bool) : ActFrame k (k.tileWrite a l m) := ⟨_, _, _, _, _, _, rfl⟩

/-- The core that an act leaves. -/
def Act.core : Act → Core
  | .done k _ => k
  | .fault k _ _ _ _ => k

theorem drainFrom_frame (acc first addr : Nat) (ty : Ty) (rnd : Rnd) (sat clr : Bool) (kind dph : Nat) : ∀ (l : List Nat) (k : Core) (fl : Word),
    ActFrame k (drainFrom acc first addr ty rnd sat clr kind dph l k fl).core
  | [], k, _ => .refl k
  | i :: l, k, fl => by
    rw [drainFrom]
    dsimp only
    split
    · exact .refl k
    · split
      · exact .refl k
      · refine ActFrame.trans ?_ (drainFrom_frame acc first addr ty rnd sat clr kind dph l _ _)
        split
        · exact (ActFrame.of_tileWrite _ _ _).trans (.of_setTile _ _)
        · exact .of_tileWrite _ _ _

theorem actOf_frame (s : State) (c : Nat) (cm : Cmd) : ActFrame (s.core c) (actOf s c cm).core := by
  have hread : ∀ a n act, ActFrame (s.core c) (Act.core act) → ActFrame (s.core c)
      (Act.core (match mRead s c a n with | some (cause, detail) => .fault (s.core c) 0 0 cause detail | none => act)) := by
    intro a n act h
    split
    · exact .refl _
    · exact h
  rw [actOf]
  dsimp only
  split
  · exact hread _ _ _ ⟨_, _, _, _, _, _, rfl⟩
  · exact hread _ _ _ ⟨_, _, _, _, _, _, rfl⟩
  · split
    · exact .refl _
    · exact (ActFrame.of_setTile _ _).trans (.of_mendRows _ _)
  · split
    · exact .refl _
    · exact hread _ _ _ ((ActFrame.of_setTile _ _).trans (.of_mendRows _ _))
  · exact (ActFrame.of_setTile _ _).trans (.of_mendRows _ _)
  · split
    · exact .refl _
    · exact drainFrom_frame _ _ _ _ _ _ _ _ _ _ _ _
  · exact .refl _

theorem ActFrame.side (h : ActFrame (s.core c) k1) : MSide c s (s.setCore c k1) := by
  obtain ⟨_, _, _, _, _, _, rfl⟩ := h
  exact .of_setCore rfl rfl

theorem cmdWaits_seen (u : State) (c : Nat) (cm : Cmd) (n : Nat) : MSide c u (cmdWaits u c cm n) ∧
    ∃ C, (cmdWaits u c cm n).core c = { u.core c with conflicts := C } := by
  have hone : ∀ r a n, MSide c u (countWaits u c r a n) ∧ ∃ C, (countWaits u c r a n).core c = { u.core c with conflicts := C } := by
    intro r a n
    rw [countWaits]
    split
    · exact ⟨.of_setCore rfl rfl, _, State.core_setCore_self _ _ _⟩
    · exact ⟨.refl c u, _, rfl⟩
  rw [cmdWaits]
  split
  · exact hone _ _ _
  · exact hone _ _ _
  · exact hone _ _ _
  · exact hone _ _ _
  · exact ⟨.refl c u, _, rfl⟩

/-! ## The weights that MWLD and MWLDS place (R300, R301) -/

theorem actOf_wld {wb t kk m : Nat} {ty : Ty} {fl : Word} (hop : cm.op = .wld wb t kk m ty) (h : actOf s c cm = .done k1 fl) :
    fl = 0 ∧ k1 = { s.core c with ms := { (s.core c).ms with
      wb := tset (s.core c).ms.wb wb ⟨ty, kk, m, false, denseVals (s.core c) t kk m ty, []⟩ } } := by
  rw [actOf, hop] at h
  dsimp only at h
  split at h
  · cases h
  · obtain ⟨rfl, rfl⟩ := Act.done.inj h
    exact ⟨rfl, rfl⟩

theorem actOf_wlds {wb t kk m e : Nat} {ty : Ty} {fl : Word} (hop : cm.op = .wlds wb t kk m e ty) (h : actOf s c cm = .done k1 fl) :
    fl = 0 ∧ k1 = { s.core c with ms := { (s.core c).ms with
      wb := tset (s.core c).ms.wb wb ⟨ty, kk, m, true, sparseVals (s.core c) t kk m ty, sparseMasks kk m cm.masks⟩ } } := by
  rw [actOf, hop] at h
  dsimp only at h
  split at h
  · cases h
  · obtain ⟨rfl, rfl⟩ := Act.done.inj h
    exact ⟨rfl, rfl⟩

theorem sparseVals_at {t kk m i j : Nat} {ty : Ty} (hm : m ≤ 64) (hi : i < m) (hj : j < kk / 2) :
    tget (sparseVals k t kk m ty) (j * 64 + i) (.fin false 0 0) =
      elemNum ty (readNat k.tile (4096 * t + (i * (kk / 2) + j) * ty.width) ty.width) :=
  tget_blocks (f := fun j i => elemNum ty (readNat k.tile (4096 * t + (i * (kk / 2) + j) * ty.width) ty.width)) hm hj hi

theorem sparseMasks_at {kk m i g : Nat} {masks : List Nat} (hk : kk ≤ 128) (hi : i < m) (hg : g < kk / 8) :
    tget (sparseMasks kk m masks) (i * 16 + g) 0 = masks.getD (i * (kk / 8) + g) 0 :=
  tget_blocks (f := fun i g => masks.getD (i * (kk / 8) + g) 0) (by omega) hi hg

/-! ## Accumulators (R303 to R305) -/

theorem accTile_setTile_self (k : Core) (n : Nat) (t : AccTile) : (k.setTile n t).accTile n = t := tget_tset_self _ _ _ _
theorem accTile_setTile_ne (k : Core) {n m : Nat} (t : AccTile) (h : m ≠ n) : (k.setTile n t).accTile m = k.accTile m := tget_tset_ne _ _ _ h
theorem accTile_mendRows (k : Core) (a n : Nat) (l : List Nat) : (mendRows k a l).accTile n = k.accTile n := rfl

theorem row_setRow (t : AccTile) (r m : Nat) (v : AccRow) : (t.setRow r v).row m = if m = r then v else t.row m := by
  by_cases h : m = r
  · rw [if_pos h, h]
    exact tget_tset_self _ _ _ _
  · rw [if_neg h]
    exact tget_tset_ne _ _ _ h

theorem row_anchorRows (a : Int) (m : Nat) : ∀ (l : List Nat) (t : AccTile),
    (anchorRows t a l).row m = if m ∈ l then ⟨0, a, []⟩ else t.row m
  | [], t => by simp [anchorRows]
  | r :: l, t => by
    rw [anchorRows, row_anchorRows a m l, row_setRow]
    by_cases hm : m ∈ l
    · rw [if_pos hm, if_pos (List.mem_cons_of_mem _ hm)]
    · rw [if_neg hm]
      exact if_congr (by simp [hm]) rfl rfl

/-- The format that MZERO gives an accumulator for a type (R304). -/
def zeroFmt (ty : Ty) : AccFmt := match ty with | .s32 => .s32 | .anc => .anc | _ => .f32

theorem actOf_zero {acc : Nat} {ty : Ty} {fl : Word} (hop : cm.op = .zero acc ty) (h : actOf s c cm = .done k1 fl) :
    fl = 0 ∧ k1.tile = (s.core c).tile ∧ (k1.accTile acc).fmt = zeroFmt ty ∧
      (∀ r, (k1.accTile acc).row r = ⟨0, 0, []⟩) ∧ ∀ y, y ≠ acc → k1.accTile y = (s.core c).accTile y := by
  rw [actOf, hop] at h
  dsimp only at h
  obtain ⟨rfl, rfl⟩ := Act.done.inj h
  refine ⟨rfl, rfl, ?_, fun r => ?_, fun y hy => accTile_setTile_ne _ _ hy⟩
  · rw [accTile_mendRows, accTile_setTile_self]
    rfl
  · rw [accTile_mendRows, accTile_setTile_self]
    rfl

theorem actOf_anch {acc first rows : Nat} {v : Int} {fl : Word} (hop : cm.op = .anch acc first rows v) (h : actOf s c cm = .done k1 fl) :
    fl = 0 ∧ k1.tile = (s.core c).tile ∧
      (∀ r, (k1.accTile acc).row r = if first ≤ r ∧ r < first + rows then ⟨0, v, []⟩ else ((s.core c).accTile acc).row r) ∧
      ∀ y, y ≠ acc → k1.accTile y = (s.core c).accTile y := by
  rw [actOf, hop] at h
  dsimp only at h
  split at h
  · cases h
  · obtain ⟨rfl, rfl⟩ := Act.done.inj h
    refine ⟨rfl, rfl, fun r => ?_, fun y hy => accTile_setTile_ne _ _ hy⟩
    rw [accTile_mendRows, accTile_setTile_self, row_anchorRows]
    refine if_congr ?_ rfl rfl
    simp only [List.mem_map, List.mem_range]
    exact ⟨fun ⟨i, hi, he⟩ => by omega, fun ⟨h1, h2⟩ => ⟨r - first, by omega, by omega⟩⟩

theorem actOf_drn {acc first addr kind : Nat} {ty : Ty} {rnd : Rnd} {sat clr : Bool} {fl : Word}
    (hop : cm.op = .drn acc first 1 addr ty rnd sat clr kind) (hrows : cm.rowsDone = 0) (h : actOf s c cm = .done k1 fl) :
    fl = cm.flags ||| (drainRow ((s.core c).accTile acc) first ty rnd sat kind cm.dph).2 ∧
      k1.tile = writeMasked (s.core c).tile addr (drainRow ((s.core c).accTile acc) first ty rnd sat kind cm.dph).1
        (List.replicate (rowLen ty 64) true) ∧
      ∀ r, (k1.accTile acc).row r = if clr = true ∧ r = first then ⟨0, (((s.core c).accTile acc).row r).anchor, []⟩
        else ((s.core c).accTile acc).row r := by
  rw [actOf, hop] at h
  dsimp only at h
  split at h
  · cases h
  · rw [hrows] at h
    have hone : (List.range (1 - 0)).map (fun i => 0 + i) = [0] := rfl
    rw [hone, drainFrom] at h
    dsimp only at h
    split at h
    · cases h
    · split at h
      · cases h
      · rw [drainFrom] at h
        obtain ⟨rfl, rfl⟩ := Act.done.inj h
        rw [Nat.add_zero, Nat.zero_mul, Nat.add_zero]
        refine ⟨rfl, ?_, fun r => ?_⟩
        · split <;> rfl
        · cases clr with
          | true =>
            rw [if_pos rfl, accTile_setTile_self, row_setRow]
            by_cases hr : r = first
            · rw [if_pos hr, if_pos ⟨rfl, hr⟩, hr]
            · rw [if_neg hr, if_neg (by simp [hr])]
          | false =>
            rw [if_neg Bool.false_ne_true, if_neg (by simp)]
            rfl

/-! ## COMMAND_RETIRE -/

theorem commandRetire_acts (hc : c < 512) (hs : s.still c = false) (hw : (s.core c).ms.window[n]? = some cm) (hrun : cm.op.isRun = false)
    (hst : cm.state = .issued) (hck : cm.checked = true) : ∃ e, exec (.commandRetire c n) s = .next e ∧
      (∀ k1 fl, actOf s c cm = .done k1 fl → e = retireCmd (cmdWaits (s.setCore c k1) c cm cm.drains) c { cm with flags := fl }) ∧
      ∀ k1 rows fl cause detail, actOf s c cm = .fault k1 rows fl cause detail → ∃ R F,
        e = suspendCmd (cmdWaits (s.setCore c k1) c cm rows) c { cm with rowsDone := R, flags := F } cause detail := by
  change ∃ e, execCommandRetire c n s = .next e ∧ _
  rw [execCommandRetire, if_neg (by simp [coreExists, hc]), hw]
  dsimp only
  rw [if_neg (by simp [hs, hrun, hst, hck])]
  cases h : actOf s c cm with
  | done k1 fl =>
    refine ⟨_, rfl, fun k2 fl2 he => ?_, (fun _ _ _ _ _ he => by cases he)⟩
    obtain ⟨rfl, rfl⟩ := Act.done.inj he
    rfl
  | fault k1 rows fl cause detail =>
    refine ⟨_, rfl, (fun _ _ he => by cases he), fun k2 rows2 fl2 cause2 detail2 he => ?_⟩
    obtain ⟨rfl, rfl, rfl, rfl, rfl⟩ := Act.fault.inj he
    split
    · exact ⟨_, _, rfl⟩
    · exact ⟨cm.rowsDone, cm.flags, rfl⟩

/-- A command that completes retires with the flags of its act. -/
theorem commandRetire_retires {fl : Word} (hc : c < 512) (hs : s.still c = false) (ha : (s.core c).allEnded = false)
    (hw : (s.core c).ms.window[n]? = some cm) (hrun : cm.op.isRun = false) (hst : cm.state = .issued) (hck : cm.checked = true)
    (hact : actOf s c cm = .done k1 fl) (ho : overflows (s.core c).m fl = false) :
    ∃ t T R C, exec (.commandRetire c n) s = .next t ∧ MSide c s t ∧ t.core c = { k1 with
        ms := { k1.ms with
          window := (s.core c).ms.window.filter (fun x => x.seq != cm.seq),
          records := (s.core c).ms.records ++ [{ cm with state := .retired, flags := fl }] },
        m := (s.core c).m.addFlags fl, tokens := T, reserved := R, conflicts := C } ∧
      (∀ m, tget T m 0 = (s.core c).token m + if m ∈ giveFifos .m cm.give then 1 else 0) ∧
      ∀ m, tget R m 0 = (s.core c).slots m - if m ∈ giveFifos .m cm.give then 1 else 0 := by
  have hframe := actOf_frame s c cm
  rw [hact] at hframe
  obtain ⟨e, hgo, hdone, -⟩ := commandRetire_acts hc hs hw hrun hst hck
  obtain ⟨hwait, C, hcore⟩ := cmdWaits_seen (s.setCore c k1) c cm cm.drains
  rw [State.core_setCore_self] at hcore
  obtain ⟨W, A, B, T0, bt, bp, hk1⟩ := hframe
  have hk1' : k1 = _ := hk1
  have hside : MSide c s (cmdWaits (s.setCore c k1) c cm cm.drains) := (ActFrame.side ⟨W, A, B, T0, bt, bp, hk1⟩).trans hwait
  have hov : overflows ((cmdWaits (s.setCore c k1) c cm cm.drains).core c).m ({ cm with flags := fl } : Cmd).flags = false := by
    rw [hcore, hk1']
    exact ho
  obtain ⟨t, T, R, hret, hall, htc, hT, hR⟩ := retireCmd_gives (cm := { cm with flags := fl }) hside ha hov
  refine ⟨t, T, R, C, by rw [hgo, hdone k1 fl hact, hret], hall, ?_, fun m => ?_, fun m => ?_⟩
  · rw [htc, hcore, hk1']
  · rw [hT m, hcore, hk1']
    rfl
  · rw [hR m, hcore, hk1']
    rfl

theorem commandRetire_suspends {rows : Nat} {fl : Word} {cause detail : Nat} (hc : c < 512) (hs : s.still c = false)
    (ha : (s.core c).allEnded = false) (hw : (s.core c).ms.window[n]? = some cm) (hrun : cm.op.isRun = false) (hst : cm.state = .issued)
    (hck : cm.checked = true) (hact : actOf s c cm = .fault k1 rows fl cause detail) :
    ∃ t d, exec (.commandRetire c n) s = .next t ∧ MSide c s t ∧ d.seq = cm.seq ∧ d.state = .suspended ∧
      (t.core c).ms.window = inPlace d (s.core c).ms.window ∧ (t.core c).tile = k1.tile ∧
      (t.core c).m = { (s.core c).m with late := (s.core c).m.late ++ [⟨cause, cmdTval cm 0 detail, none, some cm.seq⟩] } := by
  have hframe := actOf_frame s c cm
  rw [hact] at hframe
  obtain ⟨e, hgo, -, hfault⟩ := commandRetire_acts hc hs hw hrun hst hck
  obtain ⟨hwait, C, hcore⟩ := cmdWaits_seen (s.setCore c k1) c cm rows
  rw [State.core_setCore_self] at hcore
  obtain ⟨W, A, B, T0, bt, bp, hk1⟩ := hframe
  have hk1' : k1 = _ := hk1
  have hside : MSide c s (cmdWaits (s.setCore c k1) c cm rows) := (ActFrame.side ⟨W, A, B, T0, bt, bp, hk1⟩).trans hwait
  obtain ⟨R, F, he⟩ := hfault k1 rows fl cause detail hact
  obtain ⟨t, hsus, hall, htc⟩ := suspendCmd_eq (cm := { cm with rowsDone := R, flags := F }) (cause := cause) (detail := detail) hside ha
  obtain ⟨L, hset⟩ := setCmd_eq ((cmdWaits (s.setCore c k1) c cm rows).core c) { cm with
    rowsDone := R, flags := F, state := .suspended, checked := if cm.op.isRun then false else cm.checked }
  rw [hset, hcore] at htc
  refine ⟨t, { cm with rowsDone := R, flags := F, state := .suspended, checked := if cm.op.isRun then false else cm.checked },
    by rw [hgo, he, hsus], hall, rfl, rfl, (congrArg (fun k => k.ms.window) htc).trans ?_,
    (congrArg Core.tile htc).trans rfl, (congrArg Core.m htc).trans ?_⟩
  · rw [hk1']
  · rw [hk1']
    rfl

end

end Sys2Proof.Machine
end

section
/-! SUPPORT. The columns of a row's result (R90, R295): the products that a column reads, and its sum in each format. -/

namespace Sys2Proof.Machine

/-! ## The products of a column -/

section
variable {b : WBuf} {xs : List Sys2Proof.Num} {n : Nat}

theorem columnPairs_past (h : b.n ≤ n) : columnPairs b xs n = [] := by rw [columnPairs, if_pos h]

theorem columnPairs_dense (h : n < b.n) (hd : b.sparse = false) : columnPairs b xs n =
    (List.range (min xs.length b.k)).map (fun j => (xs.getD j (.fin false 0 0), tget b.w (j * 64 + n) (.fin false 0 0))) := by
  rw [columnPairs, if_neg (by omega), hd, if_neg Bool.false_ne_true]

/-- Of a rising list the elements below a bound stand at its front, so that they keep their places. -/
theorem filter_mapIdx_lt (m : Nat) : ∀ (l : List Nat) (g : Nat → Nat), l.Pairwise (· < ·) →
    (l.mapIdx (fun j p => (g j, p))).filter (fun q => q.2 < m) = (l.filter (fun p => p < m)).mapIdx (fun j p => (g j, p))
  | [], _, _ => rfl
  | p :: l, g, h => by
    obtain ⟨hp, hl⟩ := List.pairwise_cons.mp h
    rw [List.mapIdx_cons]
    by_cases hpm : p < m
    · rw [List.filter_cons_of_pos (by simpa using hpm), List.filter_cons_of_pos (by simpa using hpm), List.mapIdx_cons]
      exact congrArg _ (filter_mapIdx_lt m l (fun j => g (j + 1)) hl)
    · have hnone : (p :: l).filter (fun p => p < m) = [] := by
        rw [List.filter_eq_nil_iff]
        intro x hx
        rcases List.mem_cons.mp hx with rfl | hx
        · simpa using hpm
        · have := hp x hx
          simp
          omega
      rw [hnone, List.filter_cons_of_neg (by simpa using hpm)]
      refine (filter_mapIdx_lt m l (fun j => g (j + 1)) hl).trans ?_
      rw [List.filter_cons_of_neg (by simpa using hpm)] at hnone
      rw [hnone]
      rfl

theorem columnPairs_sparse (h : n < b.n) (hs : b.sparse = true) (j : Nat) : (columnPairs b xs n)[j]? =
    ((List.range b.k).filter (fun p => (tget b.masks (n * 16 + p / 8) 0).testBit (p % 8) && decide (p < xs.length)))[j]?.map
      (fun q => (xs.getD q (.fin false 0 0), tget b.w (j * 64 + n) (.fin false 0 0))) := by
  obtain ⟨l, hl⟩ : ∃ l, l = (List.range b.k).filter (fun p => tget b.masks (n * 16 + p / 8) 0 / 2 ^ (p % 8) % 2 == 1) := ⟨_, rfl⟩
  have hsorted : l.Pairwise (· < ·) := by
    rw [hl]
    exact (List.pairwise_lt_range).filter _
  have hkept : (List.range b.k).filter (fun p => (tget b.masks (n * 16 + p / 8) 0).testBit (p % 8) && decide (p < xs.length)) =
      l.filter (fun p => p < xs.length) := by
    rw [hl, List.filter_filter]
    refine List.filter_congr fun p _ => ?_
    rw [Nat.testBit_eq_decide_div_mod_eq, Bool.and_comm]
    rfl
  rw [columnPairs, if_neg (by omega), hs, if_pos rfl]
  dsimp only
  rw [← hl, filter_mapIdx_lt _ l (fun j => j) hsorted, hkept]
  simp [List.getElem?_map, List.getElem?_mapIdx, Option.map_map, Function.comp_def]

end

/-! ## Rows -/

theorem el_rowBits {old : AccRow} {n : Nat} (f : Nat → Nat) (hn : n < 64) :
    ({ old with bits := rowBits ((List.range 64).map f) } : AccRow).el n = f n % 2 ^ 32 := by
  have hdigit := natOfEls_digit 4 ((List.range 64).map f) n
  have hsplit : 2 ^ 2048 = 2 ^ (32 * n) * 2 ^ (2048 - 32 * n) := by
    rw [← Nat.pow_add]
    congr 1
    omega
  have hdvd : 2 ^ 32 ∣ 2 ^ (2048 - 32 * n) := Nat.pow_dvd_pow 2 (by omega)
  rw [AccRow.el, rowBits, BitVec.toNat_ofNat, hsplit, Nat.mod_mul_right_div_self, Nat.mod_mod_of_dvd _ hdvd]
  simp [hn] at hdigit
  simpa using hdigit

theorem el_lt (r : AccRow) (n : Nat) : r.el n < 2 ^ 32 := Nat.mod_lt _ (Nat.two_pow_pos 32)

theorem intDot_eq (l : List (Sys2Proof.Num × Sys2Proof.Num)) :
    intDot l = (l.map (fun p => poolElem.intVal p.1 * poolElem.intVal p.2)).sum := by
  have hgen : ∀ (l : List (Sys2Proof.Num × Sys2Proof.Num)) (a : Int),
      l.foldl (fun a p => a + poolElem.intVal p.1 * poolElem.intVal p.2) a =
        a + (l.map (fun p => poolElem.intVal p.1 * poolElem.intVal p.2)).sum := by
    intro l
    induction l with
    | nil => simp
    | cons p l ih =>
      intro a
      rw [List.foldl_cons, ih]
      simp [Int.add_assoc]
  rw [intDot, hgen, Int.zero_add]

theorem wrapTo_cast (i : Int) : (wrapTo 32 i : Int) = i % (2 ^ 32 : Nat) := by
  rw [wrapTo, Int.toNat_of_nonneg (Int.emod_nonneg _ (by decide))]

/-- How `.anc` adds one column. -/
def ancStep (old : AccRow) (b : WBuf) (mode : MMode) (sigma : Sys2Proof.Num) (xs : List Sys2Proof.Num) (acc : AccRow × Word) (n : Nat) :
    AccRow × Word :=
  let r := ancColumn old.anchor (if mode = .s then some sigma else none) (if mode = .p then AncCell.zero else tget acc.1.cells n AncCell.zero)
    (columnPairs b xs n)
  ({ acc.1 with cells := tset acc.1.cells n r.1 }, acc.2 ||| r.2)

section
variable {old : AccRow} {b : WBuf} {mode : MMode} {mask scale : Nat} {sigma : Sys2Proof.Num} {xs : List Sys2Proof.Num} {n : Nat}

theorem ancFold_el : ∀ (l : List Nat) (acc : AccRow × Word), (l.foldl (ancStep old b mode sigma xs) acc).1.el n = acc.1.el n
  | [], _ => rfl
  | m :: l, acc => (ancFold_el l (ancStep old b mode sigma xs acc m)).trans rfl

theorem ancFold_cells : ∀ (l : List Nat) (acc : AccRow × Word), l.Nodup →
    tget (l.foldl (ancStep old b mode sigma xs) acc).1.cells n AncCell.zero =
      if n ∈ l then (ancColumn old.anchor (if mode = .s then some sigma else none)
        (if mode = .p then AncCell.zero else tget acc.1.cells n AncCell.zero) (columnPairs b xs n)).1
      else tget acc.1.cells n AncCell.zero
  | [], _, _ => by simp
  | m :: l, acc, h => by
    obtain ⟨hm, hl⟩ := List.nodup_cons.mp h
    rw [List.foldl_cons, ancFold_cells l _ hl]
    by_cases hn : n = m
    · subst hn
      rw [if_neg hm, if_pos List.mem_cons_self]
      exact tget_tset_self _ _ _ _
    · have hkeep : tget (ancStep old b mode sigma xs acc m).1.cells n AncCell.zero = tget acc.1.cells n AncCell.zero := tget_tset_ne _ _ _ hn
      rw [hkeep]
      refine if_congr ?_ rfl rfl
      simp [hn]

theorem applyRow_anc : applyRow .anc old b mode mask scale xs =
    ((List.range 64).filter (fun n => mask / 2 ^ n % 2 == 1)).foldl (ancStep old b mode (fmtBf16.decode scale) xs) (old, 0) := rfl

theorem mem_columns (hn : n < 64) : n ∈ (List.range 64).filter (fun n => mask / 2 ^ n % 2 == 1) ↔ mask.testBit n = true := by
  simp [Nat.testBit_eq_decide_div_mod_eq, hn]

/-- The f32 sum of a column. -/
def f32Column (old : AccRow) (b : WBuf) (mode : MMode) (sigma : Sys2Proof.Num) (xs : List Sys2Proof.Num) (n : Nat) : NumF :=
  let d := dotNp12 (columnPairs b xs n)
  let x := fmtF32.decode (old.el n)
  match mode with
  | .p => d
  | .a => addRne (NumF.pure x) d
  | .s => ⟨(roundNum fmtF32 rmRne (Sys2Proof.Num.fma false sigma d.val x)).val, 0⟩

/-- The code that an f32 column gets. -/
theorem applyRow_f32_el (hn : n < 64) : (applyRow .f32 old b mode mask scale xs).1.el n =
    (if mask.testBit n then (f32Out (f32Column old b mode (fmtBf16.decode scale) xs n)).1 else old.el n) % 2 ^ 32 := by
  rw [applyRow]
  dsimp only
  rw [List.map_map]
  refine (el_rowBits _ hn).trans (congrArg (· % 2 ^ 32) ?_)
  dsimp only [Function.comp_apply]
  cases hb : mask.testBit n with
  | true =>
    rw [Nat.testBit_eq_decide_div_mod_eq, decide_eq_true_eq] at hb
    rw [if_pos (by simpa using hb), if_pos rfl]
    cases mode <;> rfl
  | false =>
    rw [Nat.testBit_eq_decide_div_mod_eq, decide_eq_false_iff_not] at hb
    rw [if_neg (by simpa using hb), if_neg Bool.false_ne_true]

theorem applyRow_s32_el (hn : n < 64) : (applyRow .s32 old b mode mask scale xs).1.el n =
    (if mask.testBit n then wrapTo 32 (intDot (columnPairs b xs n) + (if mode = .p then 0 else (old.el n : Int))) else old.el n) % 2 ^ 32 := by
  rw [applyRow]
  dsimp only
  refine (el_rowBits _ hn).trans (congrArg (· % 2 ^ 32) ?_)
  refine if_congr ?_ rfl rfl
  rw [Nat.testBit_eq_decide_div_mod_eq]
  simp

theorem applyRow_masked {fmt : AccFmt} (hn : n < 64) (hm : mask.testBit n = false) :
    (applyRow fmt old b mode mask scale xs).1.el n = old.el n ∧
      tget (applyRow fmt old b mode mask scale xs).1.cells n AncCell.zero = tget old.cells n AncCell.zero := by
  cases fmt with
  | f32 => exact ⟨by rw [applyRow_f32_el hn, hm, if_neg Bool.false_ne_true, Nat.mod_eq_of_lt (el_lt old n)], by simp only [applyRow]⟩
  | s32 => exact ⟨by rw [applyRow_s32_el hn, hm, if_neg Bool.false_ne_true, Nat.mod_eq_of_lt (el_lt old n)], by simp only [applyRow]⟩
  | anc =>
    rw [applyRow_anc]
    refine ⟨ancFold_el _ _, ?_⟩
    rw [ancFold_cells _ _ (List.nodup_range.filter _), if_neg (by rw [mem_columns hn, hm]; simp)]

theorem applyRow_s32_sum (hn : n < 64) (hm : mask.testBit n = true) : ((applyRow .s32 old b mode mask scale xs).1.el n : Int) =
    (((columnPairs b xs n).map (fun p => poolElem.intVal p.1 * poolElem.intVal p.2)).sum +
      (if mode = .p then 0 else (old.el n : Int))) % (2 ^ 32 : Nat) := by
  rw [applyRow_s32_el hn, hm, if_pos rfl, Nat.mod_eq_of_lt (wrapTo_lt 32 _), wrapTo_cast, intDot_eq]

theorem applyRow_anc_cell (hn : n < 64) (hm : mask.testBit n = true) :
    tget (applyRow .anc old b mode mask scale xs).1.cells n AncCell.zero =
      (ancColumn old.anchor (if mode = .s then some (fmtBf16.decode scale) else none)
        (if mode = .p then AncCell.zero else tget old.cells n AncCell.zero) (columnPairs b xs n)).1 := by
  rw [applyRow_anc, ancFold_cells _ _ (List.nodup_range.filter _), if_pos ((mem_columns hn).mpr hm)]

end

end Sys2Proof.Machine
end

section
/-! SUPPORT. The events of M (R288, R289, R293 to R297, R302): the issue of a command, the passage of a row, the write of its result; and the
obligation about them. -/

namespace Sys2Proof.Machine

/-! ## COMMAND_ISSUE -/

section
variable {s u : State} {c n : Nat} {cm : Cmd} {k : Core}

theorem oldestFit_spec : ∀ {l older : List Cmd}, oldestFit k older l = some cm → cm ∈ l ∧ cm.state = .entered
  | [], _, h => by cases h
  | d :: l, older, h => by
    rw [oldestFit] at h
    split at h
    · next hq =>
      obtain rfl := Option.some.inj h
      simp only [qualifies, Bool.and_eq_true, beq_iff_eq] at hq
      exact ⟨List.mem_cons_self, hq.1.1.1.1.1⟩
    · obtain ⟨hm, hst⟩ := oldestFit_spec h
      exact ⟨List.mem_cons_of_mem _ hm, hst⟩

/-- The buffers of weights once a command issues: that of a load is empty (R300). -/
def issueWb (k : Core) : MOp → Tbl WBuf
  | .wld w _ _ _ _ | .wlds w _ _ _ _ _ => tdel k.ms.wb w
  | _ => k.ms.wb

theorem commandIssue_idle (hc : c < 512) (hs : s.still c = false) (hr : recheck (s.core c) = none)
    (ho : oldestFit (s.core c) [] (s.core c).ms.window = none) : exec (.commandIssue c) s = .next s := by
  change execCommandIssue c s = _
  rw [execCommandIssue, if_neg (by simp [coreExists, hc])]
  dsimp only
  rw [hs, if_neg Bool.false_ne_true, hr]
  dsimp only
  rw [ho]

/-- A command issues: its tokens are taken, and its checks follow. -/
theorem commandIssue_issues (hc : c < 512) (hs : s.still c = false) (hr : recheck (s.core c) = none)
    (ho : oldestFit (s.core c) [] (s.core c).ms.window = some cm) : ∃ v T L, exec (.commandIssue c) s =
        .next (checkIssued v c { cm with state := .issued }) ∧ MSide c s v ∧ v.core c = { s.core c with
          tokens := T, ms := { (s.core c).ms with
            window := inPlace { cm with state := .issued } (s.core c).ms.window, records := L, wb := issueWb (s.core c) cm.op } } ∧
      ∀ m, tget T m 0 = (s.core c).token m - if m ∈ takeFifos .m cm.take then 1 else 0 := by
  obtain ⟨T, htake, htokens⟩ := takeAll_eq (takeFifos .m cm.take) (s.core c)
  obtain ⟨L, hset⟩ := setCmd_eq ((s.core c).takeAll (takeFifos .m cm.take)) { cm with state := .issued }
  obtain ⟨k2, hk2⟩ : ∃ k2, k2 = ({ s.core c with
      tokens := T, ms := { (s.core c).ms with
        window := inPlace { cm with state := .issued } (s.core c).ms.window, records := L, wb := issueWb (s.core c) cm.op } } : Core) := ⟨_, rfl⟩
  refine ⟨s.setCore c k2, T, L, ?_, .of_setCore hk2 rfl, (State.core_setCore_self _ _ _).trans hk2, htokens (takeFifos_nodup _ _)⟩
  change execCommandIssue c s = _
  rw [execCommandIssue, if_neg (by simp [coreExists, hc])]
  dsimp only
  rw [hs, if_neg Bool.false_ne_true, hr]
  dsimp only
  rw [ho]
  dsimp only
  rw [hset, htake, hk2]
  cases cm.op <;> rfl

/-- A command whose checks are those of neither MRUN nor MWLDS. -/
theorem commandIssue_plain (hc : c < 512) (hs : s.still c = false) (hr : recheck (s.core c) = none)
    (ho : oldestFit (s.core c) [] (s.core c).ms.window = some cm) (hop : match cm.op with | .run .. | .wlds .. => False | _ => True) :
    ∃ t T L, exec (.commandIssue c) s = .next t ∧ MSide c s t ∧ t.core c = { s.core c with
        tokens := T, ms := { (s.core c).ms with
          window := inPlace { cm with state := .issued, checked := true } (s.core c).ms.window, records := L,
          wb := issueWb (s.core c) cm.op } } ∧
      ∀ m, tget T m 0 = (s.core c).token m - if m ∈ takeFifos .m cm.take then 1 else 0 := by
  obtain ⟨v, T, L, hgo, hside, hv, htokens⟩ := commandIssue_issues hc hs hr ho
  obtain ⟨L', hset⟩ := setCmd_eq (v.core c) { cm with state := .issued, checked := true }
  have hcheck : checkIssued v c { cm with state := .issued } = v.setCore c ((v.core c).setCmd { cm with state := .issued, checked := true }) := by
    rw [checkIssued]
    cases ho' : cm.op <;> simp [ho'] at hop <;> rfl
  refine ⟨_, T, L', by rw [hgo, hcheck], hside.trans (.of_setCore hset rfl), ?_, htokens⟩
  rw [State.core_setCore_self, hset, hv]
  dsimp only
  rw [inPlace_inPlace (by rfl)]

/-- The column mask of an MRUN that has passed its checks (R302). -/
def runMask (k : Core) (colmask : Option Nat) (h : Option Nat) : Option Nat :=
  match colmask, h with
  | none, some j => some ((tget k.ms.e j 0).toNat % 2 ^ 64)
  | x, _ => x

theorem runRefused_congr {k k' : Core} (hwb : k'.ms.wb = k.ms.wb) (hf : k'.ms.feeds = k.ms.feeds) (ha : k'.ms.acc = k.ms.acc)
    (seq acc wb : Nat) (mode : MMode) (ty : Ty) (np : Np) : runRefused k' seq acc wb mode ty np = runRefused k seq acc wb mode ty np := by
  rw [runRefused, runRefused, hwb, feedDiffers, feedDiffers, hf, Core.accTile, Core.accTile, ha]

section
variable {acc wb m base : Nat} {mode : MMode} {ty : Ty} {np : Np} {h : Option Nat}

/-- An MRUN whose checks fail suspends. -/
theorem commandIssue_refused {cause : Nat} (hc : c < 512) (hs : s.still c = false) (ha : (s.core c).allEnded = false)
    (hr : recheck (s.core c) = none) (ho : oldestFit (s.core c) [] (s.core c).ms.window = some cm)
    (hop : cm.op = .run acc wb m base mode ty np h) (href : runRefused (s.core c) cm.seq acc wb mode ty np = some cause) :
    ∃ t T L, exec (.commandIssue c) s = .next t ∧ MSide c s t ∧ t.core c = { s.core c with
        tokens := T, m := { (s.core c).m with late := (s.core c).m.late ++ [⟨cause, cmdTval cm 0 0, none, some cm.seq⟩] },
        ms := { (s.core c).ms with
          window := inPlace { cm with state := .suspended, checked := false } (s.core c).ms.window, records := L,
          wb := issueWb (s.core c) cm.op } } := by
  obtain ⟨v, T, L, hgo, hside, hv, -⟩ := commandIssue_issues hc hs hr ho
  have hwb : issueWb (s.core c) cm.op = (s.core c).ms.wb := by rw [hop]; rfl
  have hcheck : checkIssued v c { cm with state := .issued } = suspendCmd v c { cm with state := .issued } cause 0 := by
    have href' : runRefused (v.core c) cm.seq acc wb mode ty np = some cause := by
      rw [runRefused_congr (k := s.core c) (by rw [hv]; exact hwb) (by rw [hv]) (by rw [hv]), href]
    rw [checkIssued]
    dsimp only
    rw [hop]
    dsimp only
    rw [href']
  obtain ⟨t, hsus, hall, htc⟩ := suspendCmd_eq (cm := { cm with state := .issued }) (cause := cause) (detail := 0) hside ha
  have hisrun : cm.op.isRun = true := by rw [hop]; rfl
  obtain ⟨L', hset⟩ := setCmd_eq (v.core c) { cm with state := .suspended, checked := false }
  refine ⟨t, T, L', by rw [hgo, hcheck, hsus], hall, ?_⟩
  rw [htc]
  simp only [hisrun, if_true]
  rw [hset, hv]
  dsimp only
  rw [inPlace_inPlace (by rfl)]
  rfl

/-- An MRUN that has passed its checks, before the next binding. -/
theorem commandIssue_run (hc : c < 512) (hs : s.still c = false) (hr : recheck (s.core c) = none)
    (ho : oldestFit (s.core c) [] (s.core c).ms.window = some cm) (hop : cm.op = .run acc wb m base mode ty np h)
    (hopen : cm.received + cm.absent < m) (href : runRefused (s.core c) cm.seq acc wb mode ty np = none) :
    ∃ u T L E, exec (.commandIssue c) s = .next (bindNow u c) ∧ MSide c s u ∧ u.core c = { s.core c with
        tokens := T, ms := { (s.core c).ms with
          window := inPlace { cm with state := .issued, checked := true, colmask := runMask (s.core c) cm.colmask h } (s.core c).ms.window,
          records := L, efull := E } } := by
  obtain ⟨v, T, L, hgo, hside, hv, -⟩ := commandIssue_issues hc hs hr ho
  have hwb : issueWb (s.core c) cm.op = (s.core c).ms.wb := by rw [hop]; rfl
  rw [hwb] at hv
  have href' : runRefused (v.core c) cm.seq acc wb mode ty np = none := by
    rw [runRefused_congr (k := s.core c) (by rw [hv]) (by rw [hv]) (by rw [hv]), href]
  obtain ⟨c2, hc2⟩ : ∃ c2 : Cmd, c2 = { cm with
    state := .issued, checked := true, colmask := runMask (s.core c) cm.colmask h } := ⟨_, rfl⟩
  obtain ⟨k3, E, hk3, hcheck⟩ : ∃ k3 E, k3 = { v.core c with ms := { (v.core c).ms with efull := E } } ∧
      checkIssued v c { cm with state := .issued } = bindNow (tryRetireRun (v.setCore c (k3.setCmd c2)) c cm.seq) c := by
    rw [checkIssued]
    dsimp only
    rw [hop]
    dsimp only
    rw [href']
    dsimp only
    cases hcol : cm.colmask with
    | none =>
      cases h with
      | none => exact ⟨_, (v.core c).ms.efull, rfl, by rw [hc2, hcol, hop]; rfl⟩
      | some j =>
        refine ⟨emptyHalves (v.core c) [j], _, rfl, ?_⟩
        rw [hc2, hcol, hop, runMask, hv]
    | some x => exact ⟨_, (v.core c).ms.efull, rfl, by rw [hc2, hcol, hop]; rfl⟩
  obtain ⟨L', hset⟩ := setCmd_eq k3 c2
  obtain ⟨u, hu⟩ : ∃ u, u = v.setCore c (k3.setCmd c2) := ⟨_, rfl⟩
  have huk : u.core c = { s.core c with
        tokens := T, ms := { (s.core c).ms with window := inPlace c2 (s.core c).ms.window, records := L', efull := E } } := by
    rw [hu, State.core_setCore_self, hset, hk3, hv]
    dsimp only
    rw [inPlace_inPlace (by rw [hc2])]
  have hstay : tryRetireRun u c cm.seq = u := tryRetireRun_stays fun d hd => by
    rw [huk] at hd
    have hseq : cm.seq = c2.seq := by rw [hc2]
    rw [hseq] at hd
    obtain rfl := find?_inPlace hd
    refine .inl ?_
    rw [Cmd.complete, Cmd.expect, hc2]
    dsimp only
    rw [hop]
    exact decide_eq_false (by dsimp only; omega)
  refine ⟨u, T, L', E, ?_, ?_, by rw [huk, hc2]⟩
  · rw [hgo, hcheck, ← hu, hstay]
  · rw [hu]
    exact hside.trans (.of_setCore (hset.trans (by rw [hk3])) rfl)

/-- The next feed is bound to the oldest MRUN that is not satisfied and holds none. -/
theorem binds_of_next {k' : Core} {c2 : Cmd} {f : Feed} (hnext : nextRun k = some cm) (hw : k'.ms.window = inPlace c2 k.ms.window)
    (hf : k'.ms.feeds = k.ms.feeds) (hseq : c2.seq = cm.seq) (hopen : (c2.op.isRun && !c2.complete) = true) (hst : c2.state = .issued)
    (hck : c2.checked = true) (hfree : ∀ g ∈ k.ms.feeds, g.bound ≠ some cm.seq) (hfound : k.ms.feeds.find? (fun g => g.bound.isNone) = some f) :
    k'.binds = some (c2, f) := by
  have hrun : nextRun k' = some c2 := by
    rw [nextRun, hw]
    exact find?_inPlace_first hopen hseq hnext
  have hnone : k.ms.feeds.any (fun f => f.bound == some c2.seq) = false := by
    rw [List.any_eq_false]
    intro g hg
    simpa [hseq] using hfree g hg
  rw [Core.binds, hrun]
  dsimp only
  rw [hst, hck, hf, hnone, if_neg (by decide), hfound]
  rfl

end

/-! ## ROW_PASSAGE_BEGIN -/

theorem portHead_spec {r : Row} {f : Feed} (h : k.portHead = some (r, f, cm)) :
    f ∈ k.ms.feeds ∧ cm ∈ k.allCmds ∧ (cm.state = .issued → cm.checked = true) := by
  rw [Core.portHead] at h
  split at h
  · cases h
  · split at h
    · cases h
    · next f' hf =>
      split at h
      · cases h
      · next c' hc =>
        split at h
        · cases h
        · next hno =>
          obtain ⟨rfl, rfl, rfl⟩ : _ ∧ f' = f ∧ c' = cm := by simpa using h
          refine ⟨List.mem_of_find?_eq_some hf, ?_, fun hst => ?_⟩
          · obtain ⟨b, -, hb⟩ := Option.bind_eq_some_iff.mp hc
            exact List.mem_of_find?_eq_some hb
          · simpa [hst] using hno

theorem rowPassageBegin_begins {r : Row} {f : Feed} (hc : c < 512) (hs : s.still c = false) (hb : (s.core c).binds = none)
    (hp : (s.core c).portHead = some (r, f, cm)) : exec (.rowPassageBegin c) s = .next (beginRow s c cm f r) := by
  have hbind : bindNow s c = s := by rw [bindNow, hb]
  change execRowPassageBegin c s = _
  rw [execRowPassageBegin, if_neg (by simp [coreExists, hc]), hs, if_neg Bool.false_ne_true, hbind]
  dsimp only
  rw [hp]

/-- What is left of the passage of a row once its command has its new counts: nothing retires, and a binding fits. -/
theorem row_settles {d : Cmd} {A : List Passage} {P : List Row} {F : List Feed} {L : List Cmd} {mm : Stream} (hside : MSide c s u)
    (hu : u.core c = { s.core c with m := mm, ms := { (s.core c).ms with
      port := P, array := A, feeds := F, window := inPlace d (s.core c).ms.window, records := L } })
    (hseq : d.seq = cm.seq) (hop : d.op = cm.op) (hst : d.state = cm.state) (hissued : cm.state = .issued) (hmem : cm ∈ (s.core c).allCmds)
    (hfit : FeedsFit (s.core c)) (hfeeds : ∀ g ∈ F, g.bound = none → g ∈ (s.core c).ms.feeds)
    (hstay : d.complete = false ∨ A.any (fun p => p.cmd == cm.seq && p.last) = true) :
    ∃ t, bindNow (tryRetireRun u c cm.seq) c = t ∧ MSide c s t ∧ (t.core c).ms.port = P ∧ (t.core c).ms.array = A ∧
      (t.core c).ms.window = inPlace d (s.core c).ms.window ∧ (t.core c).ms.acc = (s.core c).ms.acc ∧ (t.core c).m = mm ∧
      (t.core c).tile = (s.core c).tile := by
  have hret : tryRetireRun u c cm.seq = u := tryRetireRun_stays fun e he => by
    rw [hu] at he ⊢
    rw [← hseq] at he
    obtain rfl := find?_inPlace he
    exact hstay
  obtain ⟨t, hbind, hall, -, F', htc⟩ := bindNow_seen hside (fits_of_window hfit (k' := u.core c) (by rw [hu]; exact hfeeds) (by
    rw [hu]
    intro m hm hmst
    rcases mem_inPlace hm with rfl | hm
    · exact ⟨cm, hmem, hop.symm, by rw [hissued]; decide, by rw [hissued]; decide⟩
    · exact ⟨m, List.mem_append_left _ hm, rfl, by rw [hmst]; decide, by rw [hmst]; decide⟩))
  refine ⟨t, by rw [hret, hbind], hall, ?_, ?_, ?_, ?_, ?_, ?_⟩ <;> rw [htc, hu]

/-- The core whose first row has left the port under its command. -/
def Core.rowTaken (k : Core) (cm : Cmd) (f : Feed) (r : Row) (h : Cmd × Option Nat × Option Nat) (last : Bool) : Core :=
  let k1 := setFeed { k with ms := { k.ms with port := k.ms.port.drop 1 } }
    { f with began := f.began + 1, checkedRows := r.seq :: f.checkedRows, bound := some cm.seq }
  let k2 : Core := if h.2.1.isSome || last then { k1 with ms := { k1.ms with array := k1.ms.array ++ [passageOf k cm r h.2.1 last] } } else k1
  k2.setCmd h.1

/-- A row that begins its passage with what its header check comes to. -/
def rowBegun (s : State) (c : Nat) (cm : Cmd) (f : Feed) (r : Row) (h : Cmd × Option Nat × Option Nat) : State :=
  let u := s.setCore c ((s.core c).rowTaken cm f r h (r.data.isSome && !cm.complete && h.1.complete))
  bindNow (tryRetireRun (match h.2.2 with | some cause => reportRow u c h.1 cause r | none => u) c cm.seq) c

/-- The rows in the array once a row has left the port. -/
def arrayWith (k : Core) (cm : Cmd) (r : Row) (target : Option Nat) (last : Bool) : List Passage :=
  if target.isSome || last then k.ms.array ++ [passageOf k cm r target last] else k.ms.array

theorem rowTaken_eq (k : Core) (cm : Cmd) (f : Feed) (r : Row) (d : Cmd) (target why : Option Nat) (last : Bool) : ∃ F L,
    k.rowTaken cm f r (d, target, why) last = { k with ms := { k.ms with
      port := k.ms.port.drop 1, array := arrayWith k cm r target last, feeds := F, window := inPlace d k.ms.window, records := L } } ∧
    ∀ g ∈ F, g.bound = none → g ∈ k.ms.feeds := by
  obtain ⟨f', hf'⟩ : ∃ f' : Feed, f' = { f with
    began := f.began + 1, checkedRows := r.seq :: f.checkedRows, bound := some cm.seq } := ⟨_, rfl⟩
  obtain ⟨F, hF⟩ : ∃ F, F = (k.ms.feeds.map (fun g => if g.id == f'.id then f' else g)).filter (fun g => g.began < g.total) := ⟨_, rfl⟩
  obtain ⟨k2, hk2⟩ : ∃ k2 : Core, k2 = { k with ms := { k.ms with
    port := k.ms.port.drop 1, array := arrayWith k cm r target last, feeds := F } } := ⟨_, rfl⟩
  obtain ⟨L, hset⟩ := setCmd_eq k2 d
  refine ⟨F, L, ?_, fun g hg hb => ?_⟩
  · have htaken : k.rowTaken cm f r (d, target, why) last = k2.setCmd d := by
      rw [Core.rowTaken, hk2, arrayWith, hF, hf']
      dsimp only
      split <;> rfl
    rw [htaken, hset, hk2]
  · rw [hF] at hg
    obtain ⟨e, he, rfl⟩ := List.mem_map.mp (List.mem_filter.mp hg).1
    by_cases hid : e.id == f'.id
    · rw [if_pos hid, hf'] at hb
      cases hb
    · rw [if_neg hid]
      exact he

section
variable {r : Row} {f : Feed} {d : Cmd} {target : Option Nat}

theorem beginRow_eq {why : Option Nat} (hst : cm.state = .issued) (hh : headerCheck cm r = (d, target, why)) :
    beginRow s c cm f r = rowBegun s c cm f r (d, target, why) := by
  have hrow : beginRow s c cm f r = rowBegun s c cm f r (if cm.state == .cancelled then (cm, none, none) else headerCheck cm r) := rfl
  have hno : (cm.state == .cancelled) = false := by rw [hst]; rfl
  rw [hrow, hno, if_neg Bool.false_ne_true, hh]

/-- A row that its command takes without a cause. -/
theorem beginRow_takes (hst : cm.state = .issued) (hh : headerCheck cm r = (d, target, none)) (hseq : d.seq = cm.seq) (hop : d.op = cm.op)
    (hdst : d.state = cm.state) (hmem : cm ∈ (s.core c).allCmds) (hfit : FeedsFit (s.core c))
    (hstay : d.complete = false ∨ (arrayWith (s.core c) cm r target (r.data.isSome && !cm.complete && d.complete)).any
      (fun p => p.cmd == cm.seq && p.last) = true) :
    ∃ t, beginRow s c cm f r = t ∧ MSide c s t ∧ (t.core c).ms.port = (s.core c).ms.port.drop 1 ∧
      (t.core c).ms.array = arrayWith (s.core c) cm r target (r.data.isSome && !cm.complete && d.complete) ∧
      (t.core c).ms.window = inPlace d (s.core c).ms.window ∧ (t.core c).ms.acc = (s.core c).ms.acc ∧ (t.core c).m = (s.core c).m ∧
      (t.core c).tile = (s.core c).tile := by
  obtain ⟨F, L, htaken, hfeeds⟩ := rowTaken_eq (s.core c) cm f r d target none (r.data.isSome && !cm.complete && d.complete)
  rw [beginRow_eq hst hh, rowBegun]
  exact row_settles (.of_setCore htaken rfl) ((State.core_setCore_self _ _ _).trans htaken) hseq hop hdst hst hmem hfit hfeeds hstay

/-- A row whose cause its command reports. -/
theorem beginRow_reports {cause : Nat} (hst : cm.state = .issued) (hh : headerCheck cm r = (d, target, some cause)) (hseq : d.seq = cm.seq)
    (hop : d.op = cm.op) (hdst : d.state = cm.state) (hcid : d.cid = cm.cid) (hseen : d.seen = cm.seen) (hmem : cm ∈ (s.core c).allCmds)
    (hfit : FeedsFit (s.core c))
    (hstay : d.complete = false ∨ (arrayWith (s.core c) cm r target (r.data.isSome && !cm.complete && d.complete)).any
      (fun p => p.cmd == cm.seq && p.last) = true) :
    ∃ t, beginRow s c cm f r = t ∧ MSide c s t ∧ (t.core c).ms.port = (s.core c).ms.port.drop 1 ∧
      (t.core c).ms.array = arrayWith (s.core c) cm r target (r.data.isSome && !cm.complete && d.complete) ∧
      (t.core c).ms.window = inPlace { d with seen := if cause ∈ cm.seen then cm.seen else cause :: cm.seen } (s.core c).ms.window ∧
      (t.core c).ms.acc = (s.core c).ms.acc ∧
      (t.core c).m = { (s.core c).m with
        late := (s.core c).m.late ++ (if cause ∈ cm.seen then [] else [⟨cause, cmdTval cm r.tag r.seq, none, none⟩]) } ∧
      (t.core c).tile = (s.core c).tile := by
  obtain ⟨F, L, htaken, hfeeds⟩ := rowTaken_eq (s.core c) cm f r d target (some cause) (r.data.isSome && !cm.complete && d.complete)
  obtain ⟨v, hv⟩ : ∃ v, v = s.setCore c ((s.core c).rowTaken cm f r (d, target, some cause) (r.data.isSome && !cm.complete && d.complete)) :=
    ⟨_, rfl⟩
  have hvk : v.core c = { s.core c with ms := { (s.core c).ms with
      port := (s.core c).ms.port.drop 1, array := arrayWith (s.core c) cm r target (r.data.isSome && !cm.complete && d.complete),
      feeds := F, window := inPlace d (s.core c).ms.window, records := L } } := by
    rw [hv]
    exact (State.core_setCore_self _ _ _).trans htaken
  have hvside : MSide c s v := by
    rw [hv]
    exact .of_setCore htaken rfl
  have htval : cmdTval d r.tag r.seq = cmdTval cm r.tag r.seq := by rw [cmdTval, cmdTval, hop, hcid]
  obtain ⟨u, hrep, hside, huk⟩ := reportRow_eq d cause r v c
  obtain ⟨L', hset⟩ := setCmd_eq (v.core c) { d with seen := if cause ∈ d.seen then d.seen else cause :: d.seen }
  rw [hset, hvk, htval, hseen] at huk
  have huk' : u.core c = { s.core c with
      m := { (s.core c).m with
        late := (s.core c).m.late ++ (if cause ∈ cm.seen then [] else [⟨cause, cmdTval cm r.tag r.seq, none, none⟩]) },
      ms := { (s.core c).ms with
        port := (s.core c).ms.port.drop 1, array := arrayWith (s.core c) cm r target (r.data.isSome && !cm.complete && d.complete),
        feeds := F, window := inPlace { d with seen := if cause ∈ cm.seen then cm.seen else cause :: cm.seen } (s.core c).ms.window,
        records := L' } } := by
    rw [huk]
    dsimp only
    rw [inPlace_inPlace (by rfl)]
  rw [beginRow_eq hst hh, rowBegun]
  dsimp only
  rw [← hv, hrep]
  exact row_settles (hvside.trans hside) huk' hseq hop hdst hst hmem hfit hfeeds hstay

end

/-! ### The check of a header (R294) -/

section
variable {r : Row} {acc wb m base : Nat} {mode : MMode} {ty : Ty} {np : Np} {h : Option Nat}

theorem complete_iff (hop : cm.op = .run acc wb m base mode ty np h) : cm.complete = decide (m ≤ cm.received + cm.absent) := by
  rw [Cmd.complete, Cmd.expect, hop]

/-- The header check of an MRUN. -/
theorem headerCheck_run (hop : cm.op = .run acc wb m base mode ty np h) (x : Nat) (hx : x = (r.tag + 65536 - base % 65536) % 65536) :
    headerCheck cm r =
      if m ≤ cm.received + cm.absent then (cm, none, some 0x24)
      else if r.data = none then
        if 256 ≤ x then ({ cm with absent := cm.absent + 1 }, none, some 0x21)
        else ({ cm with
          absent := cm.absent + 1, placed := if mode = .p then (if x ∈ cm.placed then cm.placed else x :: cm.placed) else cm.placed }, none, none)
      else if r.tag ∈ cm.skipped then (cm, none, some 0x24)
      else if 256 ≤ x then ({ cm with received := cm.received + 1 }, none, some 0x21)
      else if mode = .p ∧ x ∈ cm.placed then ({ cm with received := cm.received + 1 }, none, some 0x20)
      else ({ cm with
        received := cm.received + 1, placed := if mode = .p then (if x ∈ cm.placed then cm.placed else x :: cm.placed) else cm.placed },
        some x, none) := by
  subst hx
  rw [headerCheck, complete_iff hop, hop]
  dsimp only
  simp only [decide_eq_true_eq]
  refine if_congr Iff.rfl rfl ?_
  cases hd : r.data with
  | none =>
    rw [if_pos rfl]
    refine if_congr Iff.rfl rfl ?_
    by_cases hm : mode = .p
    · simp [hm, ← hop]
    · simp [hm, ← hop]
  | some l =>
    rw [if_neg (show ¬ (some l = none) by simp)]
    simp only [List.contains_iff_mem]
    refine if_congr Iff.rfl rfl (if_congr Iff.rfl rfl (if_congr (by simp) rfl ?_))
    by_cases hm : mode = .p
    · simp [hm, ← hop]
    · simp [hm, ← hop]

end

end

/-! ## ROW_RESULT_WRITE -/

section
variable {s u : State} {c n j : Nat} {k : Core} {p : Passage}

theorem rowFlags_eq (k : Core) (p : Passage) (fl : Word) : ∃ m W L, rowFlags k p fl = { k with m := m, ms := { k.ms with window := W, records := L } } ∧
    m.run = k.m.run := by
  rw [rowFlags]
  split
  · split
    · exact ⟨k.m.addFlags fl, k.ms.window, k.ms.records, rfl, rfl⟩
    · next cm _ _ =>
      obtain ⟨L, h⟩ := setCmd_eq k { cm with flags := cm.flags ||| fl }
      exact ⟨k.m, _, L, h, rfl⟩
  · exact ⟨k.m.addFlags fl, k.ms.window, k.ms.records, rfl, rfl⟩

/-- The core after a row of an accumulator has been written. -/
theorem writeRow_eq {r acc wb m base : Nat} {mode : MMode} {ty : Ty} {np : Np} {h : Option Nat} (ht : p.target = some r)
    (hop : p.op = .run acc wb m base mode ty np h) : ∃ M W L B, writeRow k j p = { k with m := M, ms := { k.ms with
      array := ldel k.ms.array j, window := W, records := L, badAcc := B,
      acc := tset k.ms.acc acc ((k.accTile acc).setRow r (applyRow (k.accTile acc).fmt ((k.accTile acc).row r) p.b mode p.colmask p.row.scale
        (p.row.data.getD [])).1) } } ∧ M.run = k.m.run := by
  obtain ⟨res, hres⟩ : ∃ res, res = applyRow (k.accTile acc).fmt ((k.accTile acc).row r) p.b mode p.colmask p.row.scale
    (p.row.data.getD []) := ⟨_, rfl⟩
  obtain ⟨M, W, L, hfl, hrun⟩ := rowFlags_eq (Core.setTile { k with ms := { k.ms with array := ldel k.ms.array j } } acc
    ((k.accTile acc).setRow r res.1)) p res.2
  have hwrite : ∃ B, writeRow k j p = { k with m := M, ms := { k.ms with
      array := ldel k.ms.array j, window := W, records := L, badAcc := B,
      acc := tset k.ms.acc acc ((k.accTile acc).setRow r res.1) } } := by
    rw [writeRow]
    dsimp only
    rw [hop, ht]
    dsimp only
    rw [← hres, hfl]
    split
    · exact ⟨_, rfl⟩
    · exact ⟨_, rfl⟩
  obtain ⟨B, hB⟩ := hwrite
  exact ⟨M, W, L, B, by rw [hB, hres], hrun⟩

theorem tryRetireRun_seen (h : MSide c s u) (ha : (s.core c).allEnded = false) (n : Nat) : ∃ t, tryRetireRun u c n = t ∧ MSide c s t ∧
    (∃ W L, (t.core c).ms = { (u.core c).ms with window := W, records := L }) ∧ (t.core c).tile = (u.core c).tile := by
  rw [tryRetireRun]
  dsimp only
  split
  · exact ⟨u, rfl, h, ⟨_, _, rfl⟩, rfl⟩
  · split
    · exact retireCmd_seen h ha
    · exact ⟨u, rfl, h, ⟨_, _, rfl⟩, rfl⟩

theorem rowResultWrite_writes {r acc wb m base : Nat} {mode : MMode} {ty : Ty} {np : Np} {h : Option Nat} (hc : c < 512)
    (hs : s.still c = false) (ha : (s.core c).allEnded = false) (hf : firstWritable (s.core c) 0 [] (s.core c).ms.array = some (j, p))
    (hl : p.lost (s.core c) = false) (ht : p.target = some r) (hop : p.op = .run acc wb m base mode ty np h) :
    ∃ t W L B, exec (.rowResultWrite c) s = .next t ∧ MSide c s t ∧ (t.core c).tile = (s.core c).tile ∧
      (t.core c).ms = { (s.core c).ms with
        array := ldel (s.core c).ms.array j, window := W, records := L, badAcc := B,
        acc := tset (s.core c).ms.acc acc (((s.core c).accTile acc).setRow r (applyRow ((s.core c).accTile acc).fmt
          (((s.core c).accTile acc).row r) p.b mode p.colmask p.row.scale (p.row.data.getD [])).1) } := by
  obtain ⟨M, W, L, B, hk, hrun⟩ := writeRow_eq (k := s.core c) (j := j) ht hop
  have hside : MSide c s (s.setCore c (writeRow (s.core c) j p)) := .of_setCore hk hrun
  obtain ⟨t, hret, hall, ⟨W', L', hms⟩, htile⟩ := tryRetireRun_seen hside ha p.cmd
  rw [State.core_setCore_self, hk] at hms htile
  refine ⟨t, W', L', B, ?_, hall, htile, hms⟩
  change execRowResultWrite c s = _
  rw [execRowResultWrite, if_neg (by simp [coreExists, hc])]
  dsimp only
  rw [hf]
  dsimp only
  rw [hs, if_neg Bool.false_ne_true, hl, if_neg Bool.false_ne_true, hret, hall.tryEndJob ha]

end

/-! ## The obligation -/

section
variable {s : State} {c n : Nat} {cm : Cmd}

/-- What every event of M leaves alone. -/
theorem MSide.others {t : State} (h : MSide c s t) : (∀ d, d ≠ c → t.core d = s.core d) ∧ t.mem = s.mem ∧ (t.core c).a = (s.core c).a ∧
    (t.core c).x = (s.core c).x ∧ (t.core c).q = (s.core c).q ∧ (t.core c).w = (s.core c).w ∧ (t.core c).mbox = (s.core c).mbox :=
  ⟨h.cores, h.mem, h.a, h.x, h.q, h.w, h.mbox⟩

section
variable {acc wb m base : Nat} {mode : MMode} {ty : Ty} {np : Np} {h : Option Nat}

/-- An MRUN that issues where every feed fits. -/
theorem commandIssue_fits (hc : c < 512) (hs : s.still c = false)
    (hr : recheck (s.core c) = none) (ho : oldestFit (s.core c) [] (s.core c).ms.window = some cm)
    (hop : cm.op = .run acc wb m base mode ty np h) (hopen : cm.received + cm.absent < m)
    (href : runRefused (s.core c) cm.seq acc wb mode ty np = none) (hfit : FeedsFit (s.core c)) :
    ∃ t, exec (.commandIssue c) s = .next t ∧ MSide c s t ∧
      (t.core c).ms.window = inPlace { cm with state := .issued, checked := true, colmask := runMask (s.core c) cm.colmask h }
        (s.core c).ms.window ∧
      (∀ f, nextRun (s.core c) = some cm → (∀ g ∈ (s.core c).ms.feeds, g.bound ≠ some cm.seq) →
        (s.core c).ms.feeds.find? (fun g => g.bound.isNone) = some f →
        (t.core c).ms.feeds = (s.core c).ms.feeds.map (fun g => if g.id = f.id then { g with bound := some cm.seq } else g)) ∧
      (t.core c).ms.acc = (s.core c).ms.acc ∧ (t.core c).m = (s.core c).m ∧ (t.core c).tile = (s.core c).tile := by
  obtain ⟨u, T, L, E, hgo, hside, hu⟩ := commandIssue_run hc hs hr ho hop hopen href
  obtain ⟨hmem, hent⟩ := oldestFit_spec ho
  obtain ⟨c2, hc2⟩ : ∃ c2 : Cmd, c2 = { cm with
    state := .issued, checked := true, colmask := runMask (s.core c) cm.colmask h } := ⟨_, rfl⟩
  rw [← hc2] at hu ⊢
  obtain ⟨t, hbind, hall, hbound, F, htc⟩ := bindNow_seen hside (fits_of_window hfit (k' := u.core c) (by rw [hu]; exact fun _ hf _ => hf) (by
    rw [hu]
    intro d hd hst
    rcases mem_inPlace hd with rfl | hd
    · exact ⟨cm, List.mem_append_left _ hmem, by rw [hc2], by rw [hent]; decide, by rw [hent]; decide⟩
    · exact ⟨d, List.mem_append_left _ hd, rfl, by rw [hst]; decide, by rw [hst]; decide⟩))
  refine ⟨t, by rw [hgo, hbind], hall, by rw [htc, hu], fun f hnext hfree hfound => ?_, by rw [htc, hu], by rw [htc, hu], by rw [htc, hu]⟩
  have hopen2 : (c2.op.isRun && !c2.complete) = true := by
    rw [complete_iff (cm := c2) (by rw [hc2]; exact hop), hc2, hop]
    simp [MOp.isRun]
    omega
  have hb := binds_of_next (k' := u.core c) hnext (by rw [hu]) (by rw [hu]) (by rw [hc2]) hopen2 (by rw [hc2]) (by rw [hc2]) hfree hfound
  rw [hbound, Core.bound, hb, hu]
  dsimp only [setBound]
  rw [hc2]
  simp only [beq_iff_eq]

/-- An MRUN that issues and whose turn binds a feed of another type. -/
theorem commandIssue_misfits {f : Feed} (hc : c < 512) (hs : s.still c = false) (ha : (s.core c).allEnded = false)
    (hr : recheck (s.core c) = none) (ho : oldestFit (s.core c) [] (s.core c).ms.window = some cm)
    (hop : cm.op = .run acc wb m base mode ty np h) (hopen : cm.received + cm.absent < m)
    (href : runRefused (s.core c) cm.seq acc wb mode ty np = none) (hnext : nextRun (s.core c) = some cm)
    (hfree : ∀ g ∈ (s.core c).ms.feeds, g.bound ≠ some cm.seq)
    (hfound : (s.core c).ms.feeds.find? (fun g => g.bound.isNone) = some f) (hty : ty ≠ f.ty) :
    ∃ t, exec (.commandIssue c) s = .next t ∧ MSide c s t ∧
      (t.core c).ms.window = inPlace { cm with state := .suspended, checked := false, colmask := runMask (s.core c) cm.colmask h }
        (s.core c).ms.window ∧
      (t.core c).ms.port = (s.core c).ms.port ∧ (t.core c).ms.acc = (s.core c).ms.acc ∧
      (t.core c).m = { (s.core c).m with late := (s.core c).m.late ++ [⟨0x02, cmdTval cm 0 0, none, some cm.seq⟩] } := by
  obtain ⟨u, T, L, E, hgo, hside, hu⟩ := commandIssue_run hc hs hr ho hop hopen href
  obtain ⟨c2, hc2⟩ : ∃ c2 : Cmd, c2 = { cm with
    state := .issued, checked := true, colmask := runMask (s.core c) cm.colmask h } := ⟨_, rfl⟩
  rw [← hc2] at hu
  have hopen2 : (c2.op.isRun && !c2.complete) = true := by
    rw [complete_iff (cm := c2) (by rw [hc2]; exact hop), hc2, hop]
    simp [MOp.isRun]
    omega
  have hb := binds_of_next (k' := u.core c) hnext (by rw [hu]) (by rw [hu]) (by rw [hc2]) hopen2 (by rw [hc2]) (by rw [hc2]) hfree hfound
  have hrow : c2.rowTy = ty := by rw [Cmd.rowTy, hc2, hop]
  obtain ⟨v, hv⟩ : ∃ v, v = u.setCore c (setBound (u.core c) f.id c2.seq) := ⟨_, rfl⟩
  have hvk : v.core c = setBound (u.core c) f.id c2.seq := by
    rw [hv]
    exact State.core_setCore_self _ _ _
  have hvside : MSide c s v := by
    rw [hv]
    exact hside.trans (.of_setCore (k := setBound (u.core c) f.id c2.seq) rfl rfl)
  obtain ⟨t, hsus, hall, htc⟩ := suspendCmd_eq (cm := c2) (cause := 0x02) (detail := 0) hvside ha
  have hbind : bindNow u c = t := by
    rw [bindNow, hb]
    dsimp only
    rw [hrow, if_neg hty, ← hv, hsus]
  have hisrun : c2.op.isRun = true := by rw [hc2, hop]; rfl
  have hval : cmdTval c2 0 0 = cmdTval cm 0 0 := by rw [hc2]; rfl
  obtain ⟨L', hset⟩ := setCmd_eq (v.core c) { c2 with state := .suspended, checked := false }
  simp only [hisrun, if_true] at htc
  rw [hset, hvk, hu, hval] at htc
  refine ⟨t, by rw [hgo, hbind], hall, (congrArg (fun k => k.ms.window) htc).trans ?_, (congrArg (fun k => k.ms.port) htc).trans rfl,
    (congrArg (fun k => k.ms.acc) htc).trans rfl, (congrArg Core.m htc).trans (by rw [hc2]; rfl)⟩
  refine (inPlace_inPlace (c := c2) (d := { c2 with state := .suspended, checked := false }) rfl _).trans ?_
  rw [hc2]

end

end

end Sys2Proof.Machine
end

section
/-! SUPPORT. The obligation about the events of M, event by event. -/

namespace Sys2Proof.Machine

section
variable {s : State} {c n : Nat} {cm : Cmd} {r : Row} {f : Feed} {acc wb m base : Nat} {mode : MMode} {ty : Ty} {np : Np} {h : Option Nat}

/-! ## The passage of a row -/

theorem mem_array_last {p : Passage} {l : List Passage} (hp : p ∈ l) (hs : p.cmd = n) (hl : p.last = true) :
    l.any (fun p => p.cmd == n && p.last) = true :=
  List.any_eq_true.mpr ⟨p, hp, by simp [hs, hl]⟩

/-- A data row that its command takes. -/
theorem rowPassage_data (hc : c < 512) (hs : s.still c = false) (hb : (s.core c).binds = none) (hfit : FeedsFit (s.core c))
    (hp : (s.core c).portHead = some (r, f, cm)) (hop : cm.op = .run acc wb m base mode ty np h) (hst : cm.state = .issued) {x : Nat}
    (hx : x = (r.tag + 65536 - base % 65536) % 65536) (hd : r.data ≠ none) (hopen : cm.received + cm.absent < m)
    (hskip : r.tag ∉ cm.skipped) (hin : x < 256) (hfree : ¬ (mode = .p ∧ x ∈ cm.placed)) :
    ∃ t, exec (.rowPassageBegin c) s = .next t ∧ MSide c s t ∧ (t.core c).ms.port = (s.core c).ms.port.drop 1 ∧
      (t.core c).ms.array = (s.core c).ms.array ++ [⟨r, cm.seq, cm.op, tget (s.core c).ms.wb wb ⟨.bf16, 0, 0, false, [], []⟩,
        cm.colmask.getD (2 ^ 64 - 1), some x, decide (m ≤ cm.received + cm.absent + 1)⟩] ∧
      (t.core c).ms.window = inPlace { cm with
        received := cm.received + 1, placed := if mode = .p then x :: cm.placed else cm.placed } (s.core c).ms.window ∧
      (t.core c).ms.acc = (s.core c).ms.acc ∧ (t.core c).m = (s.core c).m ∧ (t.core c).tile = (s.core c).tile := by
  obtain ⟨-, hmem, -⟩ := portHead_spec hp
  have hplaced : (if mode = .p then (if x ∈ cm.placed then cm.placed else x :: cm.placed) else cm.placed) =
      if mode = .p then x :: cm.placed else cm.placed := by
    by_cases hm : mode = .p
    · rw [if_pos hm, if_pos hm, if_neg fun hmem => hfree ⟨hm, hmem⟩]
    · rw [if_neg hm, if_neg hm]
  have hhead := headerCheck_run hop x hx
  rw [if_neg (by omega), if_neg hd, if_neg hskip, if_neg (by omega), if_neg hfree, hplaced] at hhead
  obtain ⟨d, hdef⟩ : ∃ d : Cmd, d = { cm with
    received := cm.received + 1, placed := if mode = .p then x :: cm.placed else cm.placed } := ⟨_, rfl⟩
  rw [← hdef] at hhead ⊢
  have hdone : d.complete = decide (m ≤ cm.received + cm.absent + 1) := by
    rw [complete_iff (cm := d) (by rw [hdef]; exact hop), hdef]
    exact decide_eq_decide.mpr (by dsimp only; omega)
  have hlast : (r.data.isSome && !cm.complete && d.complete) = decide (m ≤ cm.received + cm.absent + 1) := by
    rw [Option.isSome_iff_ne_none.mpr hd, complete_iff hop, decide_eq_false (show ¬ m ≤ cm.received + cm.absent by omega), hdone]
    rfl
  have harray : arrayWith (s.core c) cm r (some x) (r.data.isSome && !cm.complete && d.complete) =
      (s.core c).ms.array ++ [passageOf (s.core c) cm r (some x) (decide (m ≤ cm.received + cm.absent + 1))] := by
    rw [hlast, arrayWith, Option.isSome_some, Bool.true_or, if_pos rfl]
  have hpass : passageOf (s.core c) cm r (some x) (decide (m ≤ cm.received + cm.absent + 1)) =
      ⟨r, cm.seq, cm.op, tget (s.core c).ms.wb wb ⟨.bf16, 0, 0, false, [], []⟩, cm.colmask.getD (2 ^ 64 - 1), some x,
        decide (m ≤ cm.received + cm.absent + 1)⟩ := by
    rw [passageOf, hop]
  obtain ⟨t, hgo, hall, hport, harr, hwin, hacc, hmm, htile⟩ := beginRow_takes (f := f) hst hhead (by rw [hdef]) (by rw [hdef]) (by rw [hdef])
    hmem hfit (by
      rw [harray, hdone]
      by_cases hend : m ≤ cm.received + cm.absent + 1
      · exact .inr (mem_array_last (List.mem_append_right _ (List.mem_singleton.mpr rfl)) rfl (decide_eq_true hend))
      · exact .inl (decide_eq_false hend))
  exact ⟨t, by rw [rowPassageBegin_begins hc hs hb hp, hgo], hall, hport, by rw [harr, harray, hpass], hwin, hacc, hmm, htile⟩

/-- A row without data that its command counts. -/
theorem rowPassage_absent (hc : c < 512) (hs : s.still c = false) (hb : (s.core c).binds = none) (hfit : FeedsFit (s.core c))
    (hp : (s.core c).portHead = some (r, f, cm)) (hop : cm.op = .run acc wb m base mode ty np h) (hst : cm.state = .issued) {x : Nat}
    (hx : x = (r.tag + 65536 - base % 65536) % 65536) (hd : r.data = none) (hopen : cm.received + cm.absent + 1 < m)
    (hin : x < 256) (hfree : ¬ (mode = .p ∧ x ∈ cm.placed)) :
    ∃ t, exec (.rowPassageBegin c) s = .next t ∧ MSide c s t ∧ (t.core c).ms.port = (s.core c).ms.port.drop 1 ∧
      (t.core c).ms.array = (s.core c).ms.array ∧
      (t.core c).ms.window = inPlace { cm with
        absent := cm.absent + 1, placed := if mode = .p then x :: cm.placed else cm.placed } (s.core c).ms.window ∧
      (t.core c).ms.acc = (s.core c).ms.acc ∧ (t.core c).m = (s.core c).m ∧ (t.core c).tile = (s.core c).tile := by
  obtain ⟨-, hmem, -⟩ := portHead_spec hp
  have hplaced : (if mode = .p then (if x ∈ cm.placed then cm.placed else x :: cm.placed) else cm.placed) =
      if mode = .p then x :: cm.placed else cm.placed := by
    by_cases hm : mode = .p
    · rw [if_pos hm, if_pos hm, if_neg fun hmem => hfree ⟨hm, hmem⟩]
    · rw [if_neg hm, if_neg hm]
  have hhead := headerCheck_run hop x hx
  rw [if_neg (by omega), if_pos hd, if_neg (by omega), hplaced] at hhead
  obtain ⟨d, hdef⟩ : ∃ d : Cmd, d = { cm with
    absent := cm.absent + 1, placed := if mode = .p then x :: cm.placed else cm.placed } := ⟨_, rfl⟩
  rw [← hdef] at hhead ⊢
  have hdone : d.complete = false := by
    rw [complete_iff (cm := d) (by rw [hdef]; exact hop), hdef]
    exact decide_eq_false (by dsimp only; omega)
  have harray : arrayWith (s.core c) cm r none (r.data.isSome && !cm.complete && d.complete) = (s.core c).ms.array := by
    rw [hd, arrayWith]
    rfl
  obtain ⟨t, hgo, hall, hport, harr, hrest⟩ := beginRow_takes (f := f) hst hhead (by rw [hdef]) (by rw [hdef]) (by rw [hdef]) hmem hfit
    (.inl hdone)
  exact ⟨t, by rw [rowPassageBegin_begins hc hs hb hp, hgo], hall, hport, by rw [harr, harray], hrest⟩

/-- What a header check refuses, with the command that counts the row. -/
def RowRefused (s : State) (c : Nat) (cm : Cmd) (r : Row) (m x : Nat) (mode : MMode) (cause : Nat) (d : Cmd) : Prop :=
  (m ≤ cm.received + cm.absent ∧ (∃ p ∈ (s.core c).ms.array, p.cmd = cm.seq ∧ p.last = true) ∧ cause = 0x24 ∧ d = cm) ∨
  (cm.received + cm.absent + 1 < m ∧ (
    (r.data = none ∧ 256 ≤ x ∧ cause = 0x21 ∧ d = { cm with absent := cm.absent + 1 }) ∨
    (r.data ≠ none ∧ r.tag ∈ cm.skipped ∧ cause = 0x24 ∧ d = cm) ∨
    (r.data ≠ none ∧ r.tag ∉ cm.skipped ∧ 256 ≤ x ∧ cause = 0x21 ∧ d = { cm with received := cm.received + 1 }) ∨
    (r.data ≠ none ∧ r.tag ∉ cm.skipped ∧ x < 256 ∧ mode = .p ∧ x ∈ cm.placed ∧ cause = 0x20 ∧
      d = { cm with received := cm.received + 1 })))

theorem RowRefused.check {x cause : Nat} {d : Cmd} (hop : cm.op = .run acc wb m base mode ty np h)
    (hx : x = (r.tag + 65536 - base % 65536) % 65536) (hr : RowRefused s c cm r m x mode cause d) :
    headerCheck cm r = (d, none, some cause) := by
  rw [headerCheck_run hop x hx]
  rcases hr with ⟨hdone, -, rfl, rfl⟩ | ⟨hopen, ⟨hd, hout, rfl, rfl⟩ | ⟨hd, hskip, rfl, rfl⟩ | ⟨hd, hskip, hout, rfl, rfl⟩ |
    ⟨hd, hskip, hin, hm, hplaced, rfl, rfl⟩⟩
  · rw [if_pos hdone]
  · rw [if_neg (by omega), if_pos hd, if_pos hout]
  · rw [if_neg (by omega), if_neg hd, if_pos hskip]
  · rw [if_neg (by omega), if_neg hd, if_neg hskip, if_pos hout]
  · rw [if_neg (by omega), if_neg hd, if_neg hskip, if_neg (by omega), if_pos ⟨hm, hplaced⟩]

/-- The command keeps all but its counts. -/
theorem RowRefused.kept {x cause : Nat} {d : Cmd} (hr : RowRefused s c cm r m x mode cause d) :
    d.seq = cm.seq ∧ d.op = cm.op ∧ d.state = cm.state ∧ d.cid = cm.cid ∧ d.seen = cm.seen := by
  rcases hr with ⟨-, -, -, rfl⟩ | ⟨-, ⟨-, -, -, rfl⟩ | ⟨-, -, -, rfl⟩ | ⟨-, -, -, -, rfl⟩ | ⟨-, -, -, -, -, -, rfl⟩⟩ <;>
    exact ⟨rfl, rfl, rfl, rfl, rfl⟩

/-- A refused row counts as one row at most. -/
theorem RowRefused.counts {x cause : Nat} {d : Cmd} (hr : RowRefused s c cm r m x mode cause d) :
    d.received + d.absent ≤ cm.received + cm.absent + 1 := by
  rcases hr with ⟨-, -, -, rfl⟩ | ⟨-, ⟨-, -, -, rfl⟩ | ⟨-, -, -, rfl⟩ | ⟨-, -, -, -, rfl⟩ | ⟨-, -, -, -, -, -, rfl⟩⟩ <;> grind

/-- The command has not all its rows, or its last row has not left the array. -/
theorem RowRefused.stays {x cause : Nat} {d : Cmd} (hop : cm.op = .run acc wb m base mode ty np h)
    (hr : RowRefused s c cm r m x mode cause d) :
    (m ≤ cm.received + cm.absent ∧ (s.core c).ms.array.any (fun p => p.cmd == cm.seq && p.last) = true) ∨ d.complete = false := by
  have hcount := hr.counts
  obtain ⟨-, hdop, -⟩ := hr.kept
  rcases hr with ⟨hdone, ⟨p, hp, hs, hl⟩, -, -⟩ | ⟨hopen, -⟩
  · exact .inl ⟨hdone, mem_array_last hp hs hl⟩
  · exact .inr ((complete_iff (hdop.trans hop)).trans (decide_eq_false (by omega)))

/-- A row whose header its command refuses. -/
theorem rowPassage_reports {x cause : Nat} {d : Cmd} (hc : c < 512) (hs : s.still c = false) (hb : (s.core c).binds = none)
    (hfit : FeedsFit (s.core c)) (hp : (s.core c).portHead = some (r, f, cm)) (hop : cm.op = .run acc wb m base mode ty np h)
    (hst : cm.state = .issued) (hx : x = (r.tag + 65536 - base % 65536) % 65536) (hr : RowRefused s c cm r m x mode cause d) :
    ∃ t, exec (.rowPassageBegin c) s = .next t ∧ MSide c s t ∧ (t.core c).ms.port = (s.core c).ms.port.drop 1 ∧
      (t.core c).ms.array = (s.core c).ms.array ∧
      (t.core c).ms.window = inPlace { d with seen := if cause ∈ cm.seen then cm.seen else cause :: cm.seen } (s.core c).ms.window ∧
      (t.core c).m = { (s.core c).m with
        late := (s.core c).m.late ++ (if cause ∈ cm.seen then [] else [⟨cause, cmdTval cm r.tag r.seq, none, none⟩]) } ∧
      (t.core c).ms.acc = (s.core c).ms.acc ∧ (t.core c).tile = (s.core c).tile := by
  obtain ⟨-, hmem, -⟩ := portHead_spec hp
  obtain ⟨hseq, hdop, hdst, hcid, hseen⟩ := hr.kept
  have hstay := hr.stays hop
  have hlast : (r.data.isSome && !cm.complete && d.complete) = false := by
    rcases hstay with ⟨hdone, -⟩ | hopen
    · rw [complete_iff hop, decide_eq_true hdone]
      simp
    · rw [hopen, Bool.and_false]
  have harray : arrayWith (s.core c) cm r none (r.data.isSome && !cm.complete && d.complete) = (s.core c).ms.array := by
    rw [hlast, arrayWith]
    rfl
  obtain ⟨t, hgo, hall, hport, harr, hwin, hacc, hmm, htile⟩ := beginRow_reports (f := f) hst (hr.check hop hx) hseq hdop hdst hcid hseen hmem
    hfit (by rw [harray]; exact hstay.symm.imp_right And.right)
  exact ⟨t, by rw [rowPassageBegin_begins hc hs hb hp, hgo], hall, hport, by rw [harr, harray], hwin, hmm, hacc, htile⟩

end

/-! ## The obligation -/

section
variable {s : State} {c n : Nat} {cm : Cmd}

/-- The accumulators after the result of a row has been written to one of them. -/
theorem accTile_rowWritten {k k1 : Core} {acc r : Nat} {v : AccRow} (h : k1.ms.acc = tset k.ms.acc acc ((k.accTile acc).setRow r v)) :
    (k1.accTile acc).row r = v ∧ (∀ y, y ≠ r → (k1.accTile acc).row y = (k.accTile acc).row y) ∧
      ∀ y, y ≠ acc → k1.accTile y = k.accTile y := by
  have hself : k1.accTile acc = (k.accTile acc).setRow r v := by
    rw [Core.accTile, h, tget_tset_self]
  refine ⟨by rw [hself, row_setRow, if_pos rfl], fun y hy => by rw [hself, row_setRow, if_neg hy], fun y hy => ?_⟩
  rw [Core.accTile, h, tget_tset_ne _ _ _ hy, Core.accTile]

/-- The sums of a column of a row. -/
theorem applyRow_sums (fmt : AccFmt) (old : AccRow) (b : WBuf) (mode : MMode) (mask scale : Nat) (xs : List Sys2Proof.Num) {n : Nat}
    (hn : n < 64) (hm : mask.testBit n = true) :
    (fmt = .s32 → ((applyRow fmt old b mode mask scale xs).1.el n : Int) =
      (((columnPairs b xs n).map (fun p => poolElem.intVal p.1 * poolElem.intVal p.2)).sum +
        (if mode = .p then 0 else (old.el n : Int))) % (2 ^ 32 : Nat)) ∧
    (fmt = .f32 → (applyRow fmt old b mode mask scale xs).1.el n = (f32Out (f32Column old b mode (fmtBf16.decode scale) xs n)).1 % 2 ^ 32) ∧
    (fmt = .anc → tget (applyRow fmt old b mode mask scale xs).1.cells n AncCell.zero =
      (ancColumn old.anchor (if mode = .s then some (fmtBf16.decode scale) else none)
        (if mode = .p then AncCell.zero else tget old.cells n AncCell.zero) (columnPairs b xs n)).1) := by
  refine ⟨?_, ?_, ?_⟩
  · rintro rfl
    exact applyRow_s32_sum hn hm
  · rintro rfl
    rw [applyRow_f32_el hn, if_pos hm]
  · rintro rfl
    exact applyRow_anc_cell hn hm

/-- What the acts of an engine of M leave in its buffers and accumulators. -/
theorem retired_acts {k1 : Core} {fl : Word} (hact : actOf s c cm = .done k1 fl) :
    (∀ wb tile kk n ty, cm.op = .wld wb tile kk n ty → n ≤ 64 → (ty = .k4 → n % 32 = 0) → fl = 0 ∧ k1.tile = (s.core c).tile ∧
      k1.ms.acc = (s.core c).ms.acc ∧ (∀ y, y ≠ wb → tfind k1.ms.wb y = tfind (s.core c).ms.wb y) ∧
      ∃ b, tfind k1.ms.wb wb = some b ∧ b.ty = ty ∧ b.k = kk ∧ b.n = n ∧ b.sparse = false ∧
        ∀ j < kk, (List.range n).map (fun i => tget b.w (j * 64 + i) (.fin false 0 0)) =
          rowVals ty n (readBytes (s.core c).tile (4096 * tile + j * rowLen ty n) (rowLen ty n))) ∧
    (∀ wb tile kk n e ty, cm.op = .wlds wb tile kk n e ty → n ≤ 64 → kk ≤ 128 → fl = 0 ∧ k1.tile = (s.core c).tile ∧
      k1.ms.acc = (s.core c).ms.acc ∧ (∀ y, y ≠ wb → tfind k1.ms.wb y = tfind (s.core c).ms.wb y) ∧
      ∃ b, tfind k1.ms.wb wb = some b ∧ b.ty = ty ∧ b.k = kk ∧ b.n = n ∧ b.sparse = true ∧
        (∀ i < n, ∀ j < kk / 2, tget b.w (j * 64 + i) (.fin false 0 0) =
          elemNum ty (readNat (s.core c).tile (4096 * tile + (i * (kk / 2) + j) * ty.width) ty.width)) ∧
        ∀ i < n, ∀ g < kk / 8, tget b.masks (i * 16 + g) 0 = cm.masks.getD (i * (kk / 8) + g) 0) := by
  refine ⟨fun wb tile kk n ty hop hn h4 => ?_, fun wb tile kk n e ty hop hn hk => ?_⟩
  · obtain ⟨rfl, rfl⟩ := actOf_wld hop hact
    exact ⟨rfl, rfl, rfl, fun y hy => tfind_tset_ne _ _ hy, _, tfind_tset_self _ _ _, rfl, rfl, rfl, rfl, fun j hj => denseVals_row hn h4 hj⟩
  · obtain ⟨rfl, rfl⟩ := actOf_wlds hop hact
    exact ⟨rfl, rfl, rfl, fun y hy => tfind_tset_ne _ _ hy, _, tfind_tset_self _ _ _, rfl, rfl, rfl, rfl,
      fun i hi j hj => sparseVals_at hn hi hj, fun i hi g hg => sparseMasks_at hk hi hg⟩

end

/-- Settles O47, event by event: the lemmas about the issue of a command, the passage of a row, the write of its result, the sums of a
column, and the act of a command at its end. -/
theorem matrixEvents : Obligations.MatrixEvents := by
  intro s c n cm hc hs ha
  dsimp only
  refine ⟨fun hr ho => ⟨fun hop => ?_, fun acc wb m base mode ty np h hop hopen => ⟨fun href => ⟨fun hfit => ?_, fun f hnext hfree hfound hty => ?_⟩,
      fun cause href => ?_⟩⟩, fun hr ho => commandIssue_idle hc hs hr ho,
    fun r f acc wb m base mode ty np h hb hfit hp hop hst => ⟨fun hd hopen hskip hin hfree => ?_, fun hd hopen hin hfree => ?_,
      fun cause d hcase => ?_⟩,
    fun j p r acc wb m base mode ty np h hf hl ht hop => ?_, fun fmt old b mode mask scale xs n hn => ?_,
    fun k1 fl hw hrun hst hck hact hov => ⟨?_, (retired_acts hact).1, (retired_acts hact).2, fun acc ty hop => ?_,
      fun acc first rows v hop => actOf_anch hop hact, fun acc first addr ty rnd sat clr kind hop hrows => actOf_drn hop hrows hact⟩,
    fun k1 rows fl cause detail hw hrun hst hck hact => ?_⟩
  · obtain ⟨t, T, L, hgo, hall, ht, htokens⟩ := commandIssue_plain hc hs hr ho hop
    refine ⟨t, hgo, by rw [ht], fun m => ?_, fun b tl r q y hwld => ?_, by rw [ht], by rw [ht], by rw [ht], hall.others⟩
    · exact (congrArg (fun k => k.token m) ht).trans (htokens m)
    · rw [ht, hwld]
      exact tfind_tdel_self _ _
  · obtain ⟨t, hgo, hall, hwin, hfeeds, hacc, hm, htile⟩ := commandIssue_fits hc hs hr ho hop hopen href hfit
    exact ⟨t, hgo, hwin, hfeeds, hacc, hm, htile, hall.others⟩
  · obtain ⟨t, hgo, hall, hwin, hport, hacc, hm⟩ := commandIssue_misfits hc hs ha hr ho hop hopen href hnext hfree hfound hty
    exact ⟨t, hgo, hwin, hport, hacc, hm, hall.others⟩
  · obtain ⟨t, T, L, hgo, hall, ht⟩ := commandIssue_refused hc hs ha hr ho hop href
    exact ⟨t, hgo, by rw [ht], by rw [ht], by rw [ht], by rw [ht], hall.others⟩
  · obtain ⟨t, hgo, hall, hport, harr, hwin, hacc, hm, htile⟩ := rowPassage_data hc hs hb hfit hp hop hst rfl hd hopen hskip hin hfree
    exact ⟨t, hgo, hport, harr, hwin, hacc, hm, htile, hall.others⟩
  · obtain ⟨t, hgo, hall, hport, harr, hwin, hacc, hm, htile⟩ := rowPassage_absent hc hs hb hfit hp hop hst rfl hd hopen hin hfree
    exact ⟨t, hgo, hport, harr, hwin, hacc, hm, htile, hall.others⟩
  · obtain ⟨t, hgo, hall, hport, harr, hwin, hm, hacc, htile⟩ := rowPassage_reports hc hs hb hfit hp hop hst rfl hcase
    exact ⟨t, hgo, hport, harr, hwin, hm, hacc, htile, hall.others⟩
  · obtain ⟨t, W, L, B, hgo, hall, htile, hms⟩ := rowResultWrite_writes hc hs ha hf hl ht hop
    obtain ⟨hrow, hrows, htiles⟩ := accTile_rowWritten (k := s.core c) (k1 := t.core c) ((congrArg MState.acc hms).trans rfl)
    exact ⟨t, hgo, (congrArg MState.array hms).trans rfl, hrow, hrows, htiles, (congrArg MState.wb hms).trans rfl, htile, hall.others⟩
  · refine ⟨columnPairs_past, columnPairs_dense, columnPairs_sparse, applyRow_masked hn, fun hm => ?_⟩
    obtain ⟨hs32, hf32, hanc⟩ := applyRow_sums fmt old b mode mask scale xs hn hm
    refine ⟨hs32, fun hfmt => (hf32 hfmt).trans ?_, hanc⟩
    cases mode <;> rfl
  · obtain ⟨t, T, R, C, hgo, hall, ht, hT, hR⟩ := commandRetire_retires hc hs ha hw hrun hst hck hact hov
    exact ⟨t, hgo, (congrArg Core.ms ht).trans rfl, fun m => (congrArg (fun k => k.token m) ht).trans (hT m),
      fun m => (congrArg (fun k => k.slots m) ht).trans (hR m), (congrArg Core.m ht).trans rfl, (congrArg Core.tile ht).trans rfl, hall.others⟩
  · obtain ⟨hfl, htile, hfmt, hrest⟩ := actOf_zero hop hact
    refine ⟨hfl, htile, hfmt.trans ?_, hrest⟩
    cases ty <;> rfl
  · obtain ⟨t, d, hgo, hall, hseq, hst', hwin, htile, hm⟩ := commandRetire_suspends hc hs ha hw hrun hst hck hact
    exact ⟨t, d, hgo, hseq, hst', hwin, htile, hall.others, hm⟩

end Sys2Proof.Machine
end

section
/-! SUPPORT. The end of a context: what becomes of its jobs, and what stays of those of others (R406). -/

namespace Sys2Proof.Machine

/-- A core whose job `j` is over, or whose streams have all ended. -/
def Core.done (k : Core) (j : Job) : Prop := k.job = none ∨ k.job = some j ∧ ∀ e ∈ j.streams, (k.stream e).run = .ended

theorem Core.done_of_over {k : Core} {j : Job} (h : k.over j) : k.done j := h.2

/-- The second state is the first with jobs of context `n` ended and messages sent: no other job has changed, and none has begun. -/
structure Wanes (n : Nat) (s t : State) : Prop where
  told : s.toHost <+: t.toHost
  heat : t.heat = s.heat
  endings : ∀ e ∈ t.endings, e.ctx = n ∨ ∃ f ∈ s.endings, f.ctx = e.ctx
  jobs : ∀ c j, (t.core c).job = some j → (s.core c).job = some j
  others : ∀ c j, (s.core c).job = some j → j.ctx ≠ n → (t.core c).job = some j ∧ (t.core c).held = (s.core c).held
  done : ∀ c j, (s.core c).done j → (t.core c).done j

section
variable {n : Nat} {s t u : State}

theorem Wanes.trans (h1 : Wanes n s t) (h2 : Wanes n t u) : Wanes n s u := by
  refine ⟨h1.told.trans h2.told, h2.heat.trans h1.heat, fun e he => ?_, fun c j hj => h1.jobs c j (h2.jobs c j hj), fun c j hj hn => ?_,
    fun c j hd => h2.done c j (h1.done c j hd)⟩
  · rcases h2.endings e he with h | ⟨f, hf, hfe⟩
    · exact .inl h
    · rcases h1.endings f hf with h | ⟨g, hg, hgf⟩
      · exact .inl (hfe ▸ h)
      · exact .inr ⟨g, hg, hgf.trans hfe⟩
  · obtain ⟨hjob, hheld⟩ := h1.others c j hj hn
    obtain ⟨hjob', hheld'⟩ := h2.others c j hjob hn
    exact ⟨hjob', hheld'.trans hheld⟩

/-- Jobs, holds of cores and streams stay. -/
theorem Wanes.of_same (htold : s.toHost <+: t.toHost) (hheat : t.heat = s.heat)
    (hend : ∀ e ∈ t.endings, e.ctx = n ∨ ∃ f ∈ s.endings, f.ctx = e.ctx)
    (hcore : ∀ c, (t.core c).job = (s.core c).job ∧ (t.core c).held = (s.core c).held ∧ ∀ e, (t.core c).stream e = (s.core c).stream e) :
    Wanes n s t := by
  refine ⟨htold, hheat, hend, fun c j hj => ?_, fun c j hj _ => ?_, fun c j hd => ?_⟩
  · rwa [← (hcore c).1]
  · rw [(hcore c).1]
    exact ⟨hj, (hcore c).2.1⟩
  · rw [Core.done, (hcore c).1]
    refine hd.imp_right (And.imp_right fun hrun e he => ?_)
    rw [(hcore c).2.2 e]
    exact hrun e he

theorem Wanes.of_beside (h : Beside s t) : Wanes n s t := by
  refine .of_same h.told h.heat (fun e he => .inr ⟨e, h.endings ▸ he, rfl⟩) fun c => ?_
  obtain ⟨l, hl⟩ := h.core c
  rw [hl]
  exact ⟨rfl, rfl, fun e => by cases e <;> rfl⟩

theorem Wanes.refl (n : Nat) (s : State) : Wanes n s s := .of_beside (.refl s)

theorem Wanes.of_setCore {d : Nat} {k : Core} (hctx : ∀ j, (s.core d).job = some j → j.ctx = n)
    (hjob : ∀ j, k.job = some j → (s.core d).job = some j) (hdone : ∀ j, (s.core d).done j → k.done j) : Wanes n s (s.setCore d k) := by
  refine ⟨List.prefix_rfl, rfl, fun e he => .inr ⟨e, he, rfl⟩, fun c j hj => ?_, fun c j hj hn => ?_, fun c j hd => ?_⟩
  · by_cases hc : c = d
    · subst hc
      rw [State.core_setCore_self] at hj
      exact hjob j hj
    · rwa [State.core_setCore_ne _ _ hc] at hj
  · by_cases hc : c = d
    · subst hc
      exact absurd (hctx j hj) hn
    · rw [State.core_setCore_ne _ _ hc]
      exact ⟨hj, rfl⟩
  · by_cases hc : c = d
    · subst hc
      rw [State.core_setCore_self]
      exact hdone j hd
    · rwa [State.core_setCore_ne _ _ hc]

/-! ## Jobs that end (R139, R379) -/

variable {d : Nat}

theorem Wanes.of_tryEndJob (hctx : ∀ j, (s.core d).job = some j → j.ctx = n) : Wanes n s (tryEndJob s d) := by
  cases hj : (s.core d).job with
  | none =>
    rw [tryEndJob_stays (.inl hj)]
    exact .refl n s
  | some j =>
    cases hes : ((s.core d).allEnded && (s.core d).settled) with
    | false =>
      rw [tryEndJob_stays (.inr hes)]
      exact .refl n s
    | true =>
      rw [Bool.and_eq_true] at hes
      obtain ⟨u, hsu, hut⟩ := tryEndJob_ends hj hes.1 hes.2
      have hu := Wanes.of_beside (n := n) hsu
      refine (hu.trans (.of_setCore (fun i hi => hctx i (hu.jobs d i hi)) (fun i hi => ?_) fun i _ => .inl rfl)).trans (.of_beside hut)
      exact absurd hi (by simp [Core.clearJob])

theorem Wanes.of_killJob (hctx : ∀ j, (s.core d).job = some j → j.ctx = n) : Wanes n s (killJob s d) := by
  rw [killJob]
  split
  · exact .refl n s
  · next j hj =>
    obtain ⟨hheld, hover⟩ := Core.over_killed hj
    have hjob : ((s.core d).killed j.streams).job = some j := by
      rw [Core.killed]
      exact (endStreams_frame _ _).1.trans hj
    have hkill : Wanes n (unwait s d) ((unwait s d).setCore d ((s.core d).killed j.streams)) := by
      refine .of_setCore hctx (fun i hi => ?_) fun i hi => ?_
      · exact hj.trans (hjob.symm.trans hi)
      · rcases hi with hi | ⟨hi, _⟩
        · exact absurd (hi.symm.trans hj) (by simp)
        · have hij : i = j := Option.some.inj (hi.symm.trans hj)
          rw [hij]
          exact hover
    refine ((Wanes.of_beside (t := unwait s d) .quiet).trans hkill).trans (.of_tryEndJob fun i hi => ?_)
    rw [State.core_setCore_self, hjob] at hi
    exact hctx i (hj.trans hi)

theorem Wanes.of_killJobs : ∀ (l : List Nat) (s : State), (∀ d ∈ l, ∀ j, (s.core d).job = some j → j.ctx = n) →
    Wanes n s (killJobs l s)
  | [], s, _ => .refl n s
  | d :: t, s, hctx => by
    have hd := Wanes.of_killJob (hctx d List.mem_cons_self)
    exact hd.trans (.of_killJobs t _ fun e he j hj => hctx e (List.mem_cons_of_mem _ he) j (hd.jobs e j hj))

theorem killJobs_done {c : Nat} {j : Job} {l : List Nat} (hc : c ∈ l) (hj : (s.core c).job = some j) : ((killJobs l s).core c).done j :=
  Core.done_of_over (killJobs_kills hc hj)

/-! ## Holds of the context that end (R379) -/

theorem dumpWrite_device (s : State) (h : Hold) (base : Nat) (data : List Byte) : DeviceOnly s (dumpWrite s h base data) := by
  obtain ⟨d, hd⟩ : ∃ d : DevWrite, d = ⟨s.nextDev, h.ctx, (s.ctx h.ctx).gen, base, data, .hold h, .plain⟩ := ⟨_, rfl⟩
  obtain ⟨v, hv⟩ : ∃ v, v = devWrite { s with nextDev := s.nextDev + 1 } (.device d.id) h.ctx base data := ⟨_, rfl⟩
  have hbody : dumpWrite s h base data = if v.2 then State.pump { v.1 with devWrites := v.1.devWrites ++ [d] }
      else devEnd { v.1 with devWrites := d :: v.1.devWrites } d false true := by
    rw [hv, hd]
    rfl
  have hwrite : DeviceOnly s v.1 := by
    rw [hv]
    exact .trans (t := { s with nextDev := s.nextDev + 1 }) (.quiet rfl rfl) (.of_devWrite _ _ _ _ _)
  rw [hbody]
  split
  · exact hwrite.trans (.trans (t := { v.1 with devWrites := v.1.devWrites ++ [d] }) (.quiet rfl rfl) (.of_pump _))
  · exact hwrite.trans (.trans (t := { v.1 with devWrites := d :: v.1.devWrites }) (.quiet rfl rfl) (.of_devEnd _ _ _ _))

/-- The state in which a hold's record has gone out and its clusters go on, and the cores whose jobs end with it. -/
theorem endHold_eq {i : Nat} {h : Hold} (hh : s.holds[i]? = some h) : ∃ cover u C, endHold s i = killJobs cover { u with clusters := C } ∧
    DeviceOnly { s with holds := ldel s.holds i } u ∧ (∀ d ∈ cover, (s.core d).job.isSome = true ∧ (s.core d).ctx = h.ctx) := by
  obtain ⟨cover, hcover⟩ : ∃ l, l = (heldCores s h.ctx h.die h.core h.gauge ++
      (s.cores.map Prod.fst).filter (fun d => (s.core d).held && dieOf d == h.die)).filter (fun d =>
        (s.core d).job.isSome && (s.core d).ctx == h.ctx) := ⟨_, rfl⟩
  obtain ⟨u, hu⟩ : ∃ u, u = (if (s.ctx h.ctx).dw 6 = 0
      then say { s with holds := ldel s.holds i } (.hold (holdRecord { s with holds := ldel s.holds i } h false))
      else dumpWrite { s with holds := ldel s.holds i } h ((s.ctx h.ctx).dw 6).toNat
        (((byLidx s cover.eraseDups).flatMap (jobImage s)).take ((s.ctx h.ctx).dw 7).toNat)) := ⟨_, rfl⟩
  obtain ⟨C, hC⟩ := thawAll_frame .hold (u.domain h.ctx h.die) u
  obtain ⟨D, hD⟩ := thawFaults_frame (u.domain h.ctx h.die) cover (thawAll .hold (u.domain h.ctx h.die) u)
  refine ⟨cover, u, D, ?_, ?_, fun d hd => ?_⟩
  · have hend : endHold s i = killJobs cover (thawFaults cover (u.domain h.ctx h.die) (thawAll .hold (u.domain h.ctx h.die) u)) := by
      rw [endHold, hh]
      dsimp only
      rw [← hcover, ← hu]
    rw [hend, hD, hC]
  · rw [hu]
    split
    · exact .of_say _ _
    · exact dumpWrite_device _ _ _ _
  · rw [hcover] at hd
    simpa using (List.mem_filter.mp hd).2

theorem job_ctx {k : Core} {j : Job} (h : k.job = some j) : k.ctx = j.ctx := by
  rw [Core.ctx, h]

theorem Wanes.of_endHold {i : Nat} {h : Hold} (hh : s.holds[i]? = some h) (hn : h.ctx = n) : Wanes n s (endHold s i) := by
  obtain ⟨cover, u, C, heq, hu, hcover⟩ := endHold_eq hh
  rw [heq]
  have hheld : Wanes n s { s with holds := ldel s.holds i } :=
    .of_same List.prefix_rfl rfl (fun e he => .inr ⟨e, he, rfl⟩) fun _ => ⟨rfl, rfl, fun _ => rfl⟩
  have hthaw : Wanes n u { u with clusters := C } := .of_beside .quiet
  have hsame : Wanes n s { u with clusters := C } := (hheld.trans (.of_beside (.of_device hu))).trans hthaw
  refine hsame.trans (.of_killJobs cover _ fun d hd j hj => ?_)
  rw [← hn, ← (hcover d hd).2, job_ctx (hsame.jobs d j hj)]

theorem Wanes.of_endHolds (n : Nat) : ∀ (f : Nat) (s : State), Wanes n s (endHolds n f s)
  | 0, s => .refl n s
  | f + 1, s => by
    rw [endHolds]
    split
    · next i hi =>
      obtain ⟨hlt, hp, _⟩ := List.findIdx?_eq_some_iff_getElem.mp hi
      exact (Wanes.of_endHold (List.getElem?_eq_getElem hlt) (eq_of_beq hp)).trans (.of_endHolds n f _)
    · exact .refl n s

/-! ## The steps of the end of a context (R406) -/

theorem dropImages_frame : ∀ (l : List Launch) (s : State), ∃ R, dropImages l s = { s with requests := R }
  | [], s => ⟨s.requests, rfl⟩
  | l :: t, s => by
    obtain ⟨R, hR⟩ := dropImages_frame t (dropReqs s (.image l.record))
    exact ⟨R, by rw [dropImages, hR]; rfl⟩

theorem thawJobs_frame : ∀ (l : List Nat) (s : State), ∃ C, thawJobs l s = { s with clusters := C }
  | [], s => ⟨s.clusters, rfl⟩
  | g :: t, s => by
    have hfold : ∀ (fs : List Freeze) (s : State), ∃ C, fs.foldl (fun s f => s.thaw g f) s = { s with clusters := C } := by
      intro fs
      induction fs with
      | nil => exact fun s => ⟨s.clusters, rfl⟩
      | cons f fs ih =>
        intro s
        obtain ⟨C, hC⟩ := thaw_frame s f g
        obtain ⟨D, hD⟩ := ih (s.thaw g f)
        exact ⟨D, by rw [List.foldl_cons, hD, hC]⟩
    rw [thawJobs]
    obtain ⟨C, hC⟩ := hfold _ s
    rw [hC]
    exact thawJobs_frame t { s with clusters := C }

theorem Beside.of_leaveLaunches : ∀ (l : List Launch) (s : State), Beside s (leaveLaunches l s)
  | [], s => .refl s
  | l :: t, s => (Beside.of_leaveLaunch s l).trans (Beside.of_leaveLaunches t _)

/-- The state in which the records of a context are no longer armed and its launches without a job are over. -/
def leaving (s : State) (ctx : Nat) : State :=
  let mine := s.launches.filter (fun l => (s.lrec l.record).ctx == ctx)
  let s1 := dropImages mine (thawJobs (mine.flatMap Launch.clusters).eraseDups s)
  leaveLaunches (mine.filter (fun l => !l.cores.any (fun p => (s.core p.1).job.isSome))) { s1 with
    recs := s1.recs.map (fun p => (p.1, if p.2.ctx == ctx && p.2.armed then p.2.setD 0 (setField (p.2.d 0) 9 9 0) else p.2)) }

theorem beginEnd_leaving (s : State) (ctx : Nat) : beginEnd s ctx = killJobs (runningOf s ctx) (leaving s ctx) := rfl

theorem Beside.of_leaving (s : State) (ctx : Nat) : Beside s (leaving s ctx) := by
  obtain ⟨mine, hmine⟩ : ∃ l, l = s.launches.filter (fun l => (s.lrec l.record).ctx == ctx) := ⟨_, rfl⟩
  obtain ⟨C, hC⟩ := thawJobs_frame (mine.flatMap Launch.clusters).eraseDups s
  obtain ⟨R, hR⟩ := dropImages_frame mine (thawJobs (mine.flatMap Launch.clusters).eraseDups s)
  rw [leaving, ← hmine, hR, hC]
  exact Beside.trans (t := { s with clusters := C, requests := R, recs := _ }) .quiet (.of_leaveLaunches _ _)

theorem runningOf_spec {c ctx : Nat} (h : c ∈ runningOf s ctx) : (s.core c).job.isSome = true ∧ (s.core c).ctx = ctx ∧
    (s.core c).held = false := by
  obtain ⟨hcores, hheld⟩ := List.mem_filter.mp h
  have hp := (List.mem_filter.mp hcores).2
  simp only [Bool.and_eq_true, beq_iff_eq] at hp
  exact ⟨hp.1, hp.2, by simpa using hheld⟩

/-- A core with a job is in the list of cores. -/
theorem mem_cores_of_job {c : Nat} (h : (s.core c).job.isSome = true) : c ∈ s.cores.map Prod.fst := by
  by_contra hout
  rw [State.core, tget, tfind_of_not_mem hout] at h
  exact Bool.noConfusion h

theorem mem_coresOf {c : Nat} {j : Job} (hj : (s.core c).job = some j) : c ∈ coresOf s j.ctx := by
  rw [coresOf, List.mem_filter]
  exact ⟨mem_cores_of_job (by simp [hj]), by simp [hj, Core.ctx]⟩

theorem mem_runningOf {c : Nat} {j : Job} (hj : (s.core c).job = some j) (hheld : (s.core c).held = false) : c ∈ runningOf s j.ctx := by
  rw [runningOf, List.mem_filter]
  exact ⟨mem_coresOf hj, by simp [hheld]⟩

theorem Wanes.of_beginEnd (s : State) (n : Nat) : Wanes n s (beginEnd s n) := by
  rw [beginEnd_leaving]
  have hleave := Wanes.of_beside (n := n) (Beside.of_leaving s n)
  refine hleave.trans (.of_killJobs _ _ fun d hd j hj => ?_)
  rw [← (runningOf_spec hd).2.1, job_ctx (hleave.jobs d j hj)]

/-- A running job of the context is killed. -/
theorem beginEnd_done {c : Nat} {j : Job} (hj : (s.core c).job = some j) (hheld : (s.core c).held = false) :
    ((beginEnd s j.ctx).core c).done j := by
  rw [beginEnd_leaving]
  refine killJobs_done (mem_runningOf hj hheld) ?_
  obtain ⟨l, hl⟩ := (Beside.of_leaving s j.ctx).core c
  rw [hl]
  exact hj

theorem Wanes.of_dropTransAll (ctx : Nat) (page : Option Nat) (l : List Nat) (s : State) : Wanes n s (dropTransAll ctx page l s) := by
  have hframe : (dropTransAll ctx page l s).toHost = s.toHost ∧ (dropTransAll ctx page l s).heat = s.heat ∧
      (dropTransAll ctx page l s).endings = s.endings := by
    induction l generalizing s with
    | nil => exact ⟨rfl, rfl, rfl⟩
    | cons g t ih => exact ih (dropTrans s ctx page g)
  obtain ⟨htold, hheat, hend⟩ := hframe
  refine .of_same (by rw [htold]) hheat (fun e he => .inr ⟨e, hend ▸ he, rfl⟩) fun c => ?_
  obtain ⟨G, A, hk⟩ := dropTransAll_core ctx page c l s
  rw [hk]
  exact ⟨rfl, rfl, fun e => by cases e <;> rfl⟩

/-- The launches of a context, those included of which only a part that is saved is left. -/
def launchesOf (s : State) (ctx : Nat) : List Launch :=
  let mine := s.launches.filter (fun l => (s.lrec l.record).ctx == ctx)
  mine ++ ((s.lifelines.filter (fun f => f.ctx == ctx)).map Lifeline.launch).filter (fun l => !mine.any (fun m => m.record == l.record))

/-- The state in which a context has neither launches nor lifelines. -/
def endLeft (s : State) (ctx : Nat) : State :=
  let u := leaveLaunches (launchesOf s ctx) s
  { u with lifelines := u.lifelines.filter (fun f => f.ctx != ctx), attached := u.attached.filter (fun n => n != ctx) }

/-- The state in which its handles are closed too. -/
def endClosed (s : State) (ctx : Nat) : State := closeSlots ctx (((endLeft s ctx).ctx ctx).handles.map Prod.fst) (endLeft s ctx)

theorem endRest_eq (s : State) (ctx : Nat) : endRest s ctx =
    dropTransAll ctx none (List.range 32) ((endClosed s ctx).setCtx ctx ⟨false, [], [], ((endClosed s ctx).ctx ctx).gen⟩) := rfl

theorem Wanes.of_endLeft (s : State) (ctx : Nat) : Wanes n s (endLeft s ctx) := by
  have hdrop : ∀ (u : State) (L : List Lifeline) (A : List Nat), Wanes n u { u with lifelines := L, attached := A } := fun _ _ _ =>
    .of_same List.prefix_rfl rfl (fun e he => .inr ⟨e, he, rfl⟩) fun _ => ⟨rfl, rfl, fun _ => rfl⟩
  exact (Wanes.of_beside (Beside.of_leaveLaunches _ s)).trans (hdrop _ _ _)

theorem Wanes.of_endRest (s : State) (ctx : Nat) : Wanes n s (endRest s ctx) := by
  have hslot : Beside (endClosed s ctx) ((endClosed s ctx).setCtx ctx ⟨false, [], [], ((endClosed s ctx).ctx ctx).gen⟩) := .quiet
  rw [endRest_eq]
  exact ((Wanes.of_endLeft s ctx).trans (.of_beside ((Beside.of_closeSlots _ _ _).trans hslot))).trans (.of_dropTransAll _ _ _ _)

/-- The state in which nothing of a context is left and its ending is over. -/
def endOver (s : State) (ctx : Nat) : State :=
  let v := (endRest s ctx).pump
  { v with endings := v.endings.filter (fun x => x.ctx != ctx) }

theorem finishEnd_eq (s : State) (e : Ending) : finishEnd s e =
    if !(runningOf s e.ctx).isEmpty then s
    else if !(coresOf (endHolds e.ctx s.holds.length s) e.ctx).isEmpty then endHolds e.ctx s.holds.length s
    else match e.command with
      | some h => respond (endOver (endHolds e.ctx s.holds.length s) e.ctx) h 0 []
      | none => endOver (endHolds e.ctx s.holds.length s) e.ctx := rfl

theorem Wanes.of_respond (s : State) (h : HostHdr) (st : Nat) (l : List Byte) : Wanes n s (respond s h st l) :=
  .of_same (List.prefix_append _ _) rfl (fun x hx => .inr ⟨x, hx, rfl⟩) fun _ => ⟨rfl, rfl, fun _ => rfl⟩

theorem Wanes.of_endings (s : State) (p : Ending → Bool) : Wanes n s { s with endings := s.endings.filter p } :=
  .of_same List.prefix_rfl rfl (fun x hx => .inr ⟨x, (List.mem_filter.mp hx).1, rfl⟩) fun _ => ⟨rfl, rfl, fun _ => rfl⟩

theorem Wanes.of_endOver (s : State) (ctx : Nat) : Wanes ctx s (endOver s ctx) := by
  have hpump : Wanes ctx s (endRest s ctx).pump := (Wanes.of_endRest _ _).trans (.of_beside (.of_device (.of_pump _)))
  exact hpump.trans (.of_endings _ _)

theorem Wanes.of_finishEnd (s : State) (e : Ending) : Wanes e.ctx s (finishEnd s e) := by
  have hholds := Wanes.of_endHolds e.ctx s.holds.length s
  have hgo := hholds.trans (.of_endOver _ e.ctx)
  rw [finishEnd_eq]
  split
  · exact .refl _ s
  · split
    · exact hholds
    · split
      · exact hgo.trans (.of_respond _ _ _ _)
      · exact hgo

theorem Wanes.of_startEnd (s : State) (n : Nat) (command : Option HostHdr) : Wanes n s (startEnd s n command) := by
  rw [startEnd]
  refine Wanes.trans (t := { s with endings := s.endings ++ [⟨n, command⟩] }) ?_
    ((Wanes.of_beginEnd _ n).trans (Wanes.of_finishEnd _ ⟨n, command⟩))
  refine .of_same List.prefix_rfl rfl (fun e he => ?_) fun _ => ⟨rfl, rfl, fun _ => rfl⟩
  rcases List.mem_append.mp he with he | he
  · exact .inr ⟨e, he, rfl⟩
  · rw [List.mem_singleton.mp he]
    exact .inl rfl

/-- A job of the context that runs is over, or its streams have ended, once the context begins to end. -/
theorem startEnd_done {c : Nat} {j : Job} (command : Option HostHdr) (hj : (s.core c).job = some j) (hheld : (s.core c).held = false) :
    ((startEnd s j.ctx command).core c).done j := by
  rw [startEnd]
  exact (Wanes.of_finishEnd _ ⟨j.ctx, command⟩).done c j (beginEnd_done (s := { s with endings := s.endings ++ [⟨j.ctx, command⟩] }) hj hheld)

end

end Sys2Proof.Machine
end

section
/-! SUPPORT. The junction's levels and the shutdown of a hot package (R441). -/

namespace Sys2Proof.Machine

section
variable {s t u : State} {ms ns : List HostMsg}

/-- In an open session the second state is the first with messages sent to the host. -/
structure Tells (ms : List HostMsg) (s t : State) : Prop where
  msgs : t.toHost.map HostOut.msg = s.toHost.map HostOut.msg ++ ms
  rest : { t with toHost := s.toHost, session := s.session } = s
  phase : t.session.phase = .opened

theorem Tells.of_say (h : s.session.phase = .opened) (m : HostMsg) : Tells [m] s (say s m) := by
  have hsay : say s m = s.post (s.session.ports.headD 0) false m := by rw [say, if_pos h]
  rw [hsay]
  exact ⟨List.map_append, rfl, h⟩

theorem Tells.trans (h1 : Tells ms s t) (h2 : Tells ns t u) : Tells (ms ++ ns) s u :=
  ⟨by rw [h2.msgs, h1.msgs, List.append_assoc],
    (congrArg (fun x : State => { x with toHost := s.toHost, session := s.session }) h2.rest).trans h1.rest, h2.phase⟩

/-- The messages of the thresholds that a junction at a level has still to pass until the package powers down. -/
def Heat.owed : Heat → List HostMsg
  | .normal => [.thermal 1, .thermal 2, .thermal 3]
  | .hot => [.thermal 2, .thermal 3]
  | _ => [.thermal 3]

theorem sayThermal_tells {x : Heat} (hx : x ≠ .down) (h : s.session.phase = .opened) : Tells x.owed s (sayThermal (3 - x.level) s) := by
  have h3 : ∀ {u : State}, u.session.phase = .opened → Tells [.thermal 3] u (sayThermal 1 u) := fun h => .of_say h _
  have h2 : ∀ {u : State}, u.session.phase = .opened → Tells [.thermal 2, .thermal 3] u (sayThermal 2 u) := fun h =>
    (Tells.of_say h (.thermal 2)).trans (h3 (Tells.of_say h _).phase)
  cases x with
  | normal => exact (Tells.of_say h (.thermal 1)).trans (h2 (Tells.of_say h _).phase)
  | hot => exact h2 h
  | hotter => exact h3 h
  | down => exact absurd rfl hx

/-! ## The live contexts begin to end -/

theorem startEnds_frame : ∀ (l : List Nat) (s : State), s.toHost <+: (startEnds l s).toHost ∧ (startEnds l s).heat = s.heat ∧
    ∀ c j, (s.core c).done j → ((startEnds l s).core c).done j
  | [], _ => ⟨List.prefix_rfl, rfl, fun _ _ h => h⟩
  | n :: l, s => by
    obtain ⟨v, hv⟩ : ∃ v, v = if s.endings.any (fun e => e.ctx == n) then s else startEnd s n none := ⟨_, rfl⟩
    have hn : Wanes n s v := by
      rw [hv]
      split
      · exact .refl n s
      · exact .of_startEnd s n none
    obtain ⟨htold, hheat, hdone⟩ := startEnds_frame l v
    rw [startEnds, ← hv]
    exact ⟨hn.told.trans htold, hheat.trans hn.heat, fun c j h => hdone c j (hn.done c j h)⟩

/-- A running job of a context that begins to end. -/
theorem startEnds_done {c : Nat} {j : Job} : ∀ (l : List Nat) {s : State}, j.ctx ∈ l → (s.core c).job = some j → (s.core c).held = false →
    (∀ e ∈ s.endings, e.ctx ≠ j.ctx) → ((startEnds l s).core c).done j
  | [], _, hl, _, _, _ => absurd hl (by simp)
  | n :: l, s, hl, hj, hheld, hend => by
    rw [startEnds]
    by_cases hn : j.ctx = n
    · have hnew : s.endings.any (fun e => e.ctx == n) = false :=
        List.any_eq_false.mpr fun e he => by simpa [hn] using hend e he
      rw [hnew, if_neg Bool.false_ne_true, ← hn]
      exact (startEnds_frame l _).2.2 c j (startEnd_done none hj hheld)
    · have hin : j.ctx ∈ l := (List.mem_cons.mp hl).resolve_left hn
      split
      · exact startEnds_done l hin hj hheld hend
      · have hw := Wanes.of_startEnd s n none
        obtain ⟨hj', hheld'⟩ := hw.others c j hj hn
        refine startEnds_done l hin hj' (hheld'.trans hheld) fun e he => ?_
        rcases hw.endings e he with h | ⟨f, hf, hfe⟩
        · exact fun h' => hn (h'.symm.trans h)
        · exact hfe ▸ hend f hf

/-- The live contexts. -/
def liveCtxs (s : State) : List Nat := (s.ctxs.filter (fun p => p.2.live)).map Prod.fst

theorem liveCtxs_none (h : ∀ p ∈ s.ctxs, p.2.live = false) : liveCtxs s = [] := by
  rw [liveCtxs, List.filter_eq_nil_iff.mpr fun p hp => by simp [h p hp]]
  rfl

theorem mem_liveCtxs {n : Nat} (h : (s.ctx n).live = true) : n ∈ liveCtxs s := by
  rw [State.ctx, tget] at h
  cases hf : tfind s.ctxs n with
  | none =>
    rw [hf] at h
    cases h
  | some x =>
    rw [hf] at h
    exact List.mem_map.mpr ⟨(n, x), List.mem_filter.mpr ⟨tfind_mem hf, h⟩, rfl⟩

/-! ## The events -/

theorem above105_passes (h : s.session.phase = .opened) (hh : s.heat = .normal) :
    ∃ t, exec .junctionAbove105 s = .next t ∧ Tells [.thermal 1] { s with heat := .hot } t := by
  refine ⟨say { s with heat := .hot } (.thermal 1), ?_, .of_say (s := { s with heat := .hot }) h _⟩
  change execJunctionAbove105 s = _
  rw [execJunctionAbove105, if_pos hh]

theorem above105_again (hh : s.heat ≠ .normal) : exec .junctionAbove105 s = .next s := by
  change execJunctionAbove105 s = _
  rw [execJunctionAbove105, if_neg hh]

theorem above112_passes (h : s.session.phase = .opened) : (s.heat = .normal →
      ∃ t, exec .junctionAbove112 s = .next t ∧ Tells [.thermal 1, .thermal 2] { s with heat := .hotter } t) ∧
    (s.heat = .hot → ∃ t, exec .junctionAbove112 s = .next t ∧ Tells [.thermal 2] { s with heat := .hotter } t) ∧
    (s.heat = .hotter ∨ s.heat = .down → exec .junctionAbove112 s = .next s) := by
  obtain ⟨u, hu⟩ : ∃ u : State, u = { s with heat := .hotter } := ⟨_, rfl⟩
  have hopen : u.session.phase = .opened := by rw [hu, h]
  have hexec : exec .junctionAbove112 s = .next (match s.heat with
      | .normal => say (say u (.thermal 1)) (.thermal 2)
      | .hot => say u (.thermal 2)
      | _ => s) := by
    rw [hu]
    rfl
  rw [← hu, hexec]
  refine ⟨fun hh => ⟨_, by rw [hh], (Tells.of_say hopen _).trans (.of_say (Tells.of_say hopen _).phase _)⟩,
    fun hh => ⟨_, by rw [hh], .of_say hopen _⟩, ?_⟩
  rintro (hh | hh) <;> rw [hh]

theorem cooling_cools (below112 below105 : Bool) : ∃ t, exec (.junctionCooling below112 below105) s = .next t ∧ { t with heat := s.heat } = s ∧
    t.heat = if s.heat = .down then .down else if below105 then .normal
      else if s.heat = .hotter ∧ below112 then .hot else s.heat := by
  refine ⟨_, rfl, ?_, ?_⟩
  · split
    · rfl
    · split
      · rfl
      · split <;> rfl
  · split
    · next hh => rw [if_pos hh, hh]
    · next hh =>
      rw [if_neg hh]
      cases below105 with
      | true => rfl
      | false =>
        rw [if_neg Bool.false_ne_true, if_neg Bool.false_ne_true]
        by_cases hb : s.heat = .hotter ∧ below112 = true
        · rw [if_pos hb, if_pos (by simp [hb])]
        · rw [if_neg hb, if_neg (by simpa [and_comm] using hb)]

theorem shutdown_off (hp : s.powered = false) : exec .thermalShutdown s = .next s := by
  change execThermalShutdown s = _
  rw [execThermalShutdown, hp]
  rfl

theorem shutdown_eq (hp : s.powered = true) {u v : State}
    (hu : u = if s.heat = .down then finishEnds s.endings s else sayThermal (3 - s.heat.level) { s with heat := .down })
    (hv : v = startEnds (liveCtxs u) u) : exec .thermalShutdown s = .next (
      if (liveCtxs v).isEmpty then { emit v (.hello false s.incarnation) with powered := false } else v) := by
  change execThermalShutdown s = _
  rw [execThermalShutdown, if_neg (by simp [hp]), hv, hu]
  rfl

/-- A junction that passes the limit: the messages, and the contexts that begin to end. -/
theorem shutdown_begins (h : s.session.phase = .opened) (hp : s.powered = true) (hh : s.heat ≠ .down) :
    ∃ t, exec .thermalShutdown s = .next t ∧ t.heat = .down ∧
      (∃ rest, t.toHost.map HostOut.msg = s.toHost.map HostOut.msg ++ s.heat.owed ++ rest) ∧
      (∀ c j, (s.core c).job = some j → (s.ctx j.ctx).live = true → (s.core c).held = false → (∀ e ∈ s.endings, e.ctx ≠ j.ctx) →
        (t.core c).done j) ∧
      ((∀ p ∈ s.ctxs, p.2.live = false) → t.powered = false ∧ .hello false s.incarnation ∈ t.toFabric) := by
  obtain ⟨u, hu⟩ : ∃ u, u = sayThermal (3 - s.heat.level) { s with heat := .down } := ⟨_, rfl⟩
  obtain ⟨v, hv⟩ : ∃ v, v = startEnds (liveCtxs u) u := ⟨_, rfl⟩
  have htell : Tells s.heat.owed { s with heat := .down } u := by
    rw [hu]
    exact sayThermal_tells (s := { s with heat := .down }) hh h
  obtain ⟨⟨rest, htold⟩, hheat, hdone⟩ := hv ▸ startEnds_frame (liveCtxs u) u
  have hcores : u.cores = s.cores := (congrArg State.cores htell.rest).trans rfl
  have hctxs : u.ctxs = s.ctxs := (congrArg State.ctxs htell.rest).trans rfl
  have hend : u.endings = s.endings := (congrArg State.endings htell.rest).trans rfl
  have hheat' : v.heat = .down := hheat.trans ((congrArg State.heat htell.rest).trans rfl)
  have hmsgs : v.toHost.map HostOut.msg = s.toHost.map HostOut.msg ++ s.heat.owed ++ rest.map HostOut.msg := by
    rw [← htold, List.map_append, htell.msgs]
  have hjobs : ∀ c j, (s.core c).job = some j → (s.ctx j.ctx).live = true → (s.core c).held = false →
      (∀ e ∈ s.endings, e.ctx ≠ j.ctx) → (v.core c).done j := by
    intro c j hj hlive hheld he
    have hcore : u.core c = s.core c := by rw [State.core, hcores, State.core]
    have hctx : u.ctx j.ctx = s.ctx j.ctx := by rw [State.ctx, hctxs, State.ctx]
    rw [hv]
    exact startEnds_done _ (mem_liveCtxs (by rw [hctx]; exact hlive)) (by rw [hcore]; exact hj) (by rw [hcore]; exact hheld)
      (by rw [hend]; exact he)
  refine ⟨_, shutdown_eq hp (by rw [if_neg hh, hu]) hv, ?_, ⟨rest.map HostOut.msg, ?_⟩, fun c j hj hlive hheld he => ?_, fun hnone => ?_⟩
  · split <;> exact hheat'
  · split <;> exact hmsgs
  · split <;> exact hjobs c j hj hlive hheld he
  · have hu0 : liveCtxs u = [] := liveCtxs_none (by rw [hctxs]; exact hnone)
    rw [hv, hu0, startEnds, hu0, List.isEmpty_nil, if_pos rfl]
    exact ⟨rfl, List.mem_append_right _ (List.mem_singleton.mpr rfl)⟩

/-- A hot package of which nothing is left powers down. -/
theorem shutdown_ends (hp : s.powered = true) (hh : s.heat = .down) (he : s.endings = []) (hnone : ∀ p ∈ s.ctxs, p.2.live = false) :
    exec .thermalShutdown s = .next { s.sends (.hello false s.incarnation) with powered := false } := by
  rw [shutdown_eq hp (u := s) (v := s) (by rw [if_pos hh, he]; rfl) (by rw [liveCtxs_none hnone]; rfl), liveCtxs_none hnone,
    List.isEmpty_nil, if_pos rfl]
  rfl

end

end Sys2Proof.Machine
end

section
/-! SUPPORT. Peers that go down, and links (R442, R445, R447, R453 to R455, R460, R464). -/

namespace Sys2Proof.Machine

section
variable {s t u : State}

/-! ## The commands of the host that go on -/

/-- The second state is the first with commands of the host completed: requests dropped, and responses sent. -/
structure Woken (s t : State) : Prop where
  rest : { t with counters := s.counters, requests := s.requests, ops := s.ops, session := s.session, toHost := s.toHost } = s
  reqs : ∀ q ∈ t.requests, q ∈ s.requests

theorem Woken.refl (s : State) : Woken s s := ⟨rfl, fun _ h => h⟩

theorem Woken.trans (h1 : Woken s t) (h2 : Woken t u) : Woken s u :=
  ⟨(congrArg (fun x : State => { x with
      counters := s.counters, requests := s.requests, ops := s.ops, session := s.session, toHost := s.toHost }) h2.rest).trans h1.rest,
    fun q hq => h1.reqs q (h2.reqs q hq)⟩

theorem Woken.of_counters (C : Tbl Nat) : Woken s { s with counters := C } := ⟨rfl, fun _ h => h⟩

theorem Woken.of_endOp (s : State) (op : HostOp) (status : Nat) (l : List Byte) : Woken s (endOp s op status l) := by
  have hdrop : ∀ q ∈ (dropReqs s op.owner).requests, q ∈ s.requests := fun q hq => (List.mem_filter.mp hq).1
  rw [endOp]
  dsimp only
  split
  · exact ⟨rfl, hdrop⟩
  · exact ⟨rfl, hdrop⟩

/-- What a command's read has of one part. -/
def hostHere (owner : Owner) (g : Seg) (s : State) : Option (Except Nat (List Byte) × State) :=
  if g.isRemote then
    match (findRead s owner g).bind OutReq.reply with
    | some (.data l) => some (.ok l, s)
    | some (.nack cause) => some (.error cause, s)
    | _ => none
  else
    match readBad s g.addr g.len with
    | some cause => some (.error cause, s)
    | none => let r := readLocal s g.addr g.len; some (.ok r.1, r.2)

theorem hostHere_frame {owner : Owner} {g : Seg} {r : Except Nat (List Byte)} (h : hostHere owner g s = some (r, t)) :
    ∃ C, t = { s with counters := C } := by
  rw [hostHere] at h
  split at h
  · split at h
    · exact ⟨s.counters, (Prod.mk.inj (Option.some.inj h)).2.symm⟩
    · exact ⟨s.counters, (Prod.mk.inj (Option.some.inj h)).2.symm⟩
    · cases h
  · split at h
    · exact ⟨s.counters, (Prod.mk.inj (Option.some.inj h)).2.symm⟩
    · obtain ⟨C, hC⟩ := readLocal_frame s g.addr g.len
      rw [hC] at h
      exact ⟨C, (Prod.mk.inj (Option.some.inj h)).2.symm⟩

theorem hostRead_cons (owner : Owner) (g : Seg) (l : List Seg) (s : State) : hostRead owner (g :: l) s =
    (hostHere owner g s).bind (fun p => match p with
      | (.error c, s1) => some (.error c, s1)
      | (.ok x, s1) => (hostRead owner l s1).map (fun q => match q with
        | (.error c, s2) => (.error c, s2)
        | (.ok y, s2) => (.ok (x ++ y), s2))) := by
  have hbody : hostRead owner (g :: l) s = match hostHere owner g s with
      | none => none
      | some (.error c, s1) => some (.error c, s1)
      | some (.ok l', s1) => match hostRead owner l s1 with
        | none => none
        | some (.error c, s2) => some (.error c, s2)
        | some (.ok r, s2) => some (.ok (l' ++ r), s2) := rfl
  rw [hbody]
  cases hostHere owner g s with
  | none => rfl
  | some p =>
    obtain ⟨_ | x, s1⟩ := p
    · rfl
    · simp only [Option.bind_some]
      rcases hostRead owner l s1 with _ | ⟨_ | y, s2⟩ <;> rfl

theorem hostRead_frame (owner : Owner) : ∀ (l : List Seg) (s : State) {r : Except Nat (List Byte)} {t : State},
    hostRead owner l s = some (r, t) → ∃ C, t = { s with counters := C }
  | [], s, r, t, h => ⟨s.counters, (Prod.mk.inj (Option.some.inj h)).2.symm⟩
  | g :: l, s, r, t, h => by
    rw [hostRead_cons] at h
    obtain ⟨⟨x, s1⟩, hhere, hrest⟩ := Option.bind_eq_some_iff.mp h
    obtain ⟨C, rfl⟩ := hostHere_frame hhere
    cases x with
    | error c => exact ⟨C, (Prod.mk.inj (Option.some.inj hrest)).2.symm⟩
    | ok x =>
      obtain ⟨⟨y, s2⟩, hread, hq⟩ := Option.map_eq_some_iff.mp hrest
      obtain ⟨D, rfl⟩ := hostRead_frame owner l _ hread
      cases y with
      | error c => exact ⟨D, (Prod.mk.inj hq).2.symm⟩
      | ok y => exact ⟨D, (Prod.mk.inj hq).2.symm⟩

theorem Woken.of_finishOp (op : HostOp) (s : State) : Woken s (finishOp op s) := by
  rw [finishOp]
  split
  · exact .refl s
  · split
    · split
      · exact .refl s
      · exact .of_endOp _ _ _ _
      · exact .of_endOp _ _ _ _
    · split
      · exact .refl s
      · next h =>
        obtain ⟨C, rfl⟩ := hostRead_frame _ _ _ h
        exact (Woken.of_counters C).trans (.of_endOp _ _ _ _)
      · next h =>
        obtain ⟨C, rfl⟩ := hostRead_frame _ _ _ h
        exact (Woken.of_counters C).trans (.of_endOp _ _ _ _)

theorem Woken.of_finishOps : ∀ (l : List HostOp) (s : State), Woken s (finishOps l s)
  | [], s => .refl s
  | op :: l, s => (Woken.of_finishOp op s).trans (.of_finishOps l _)

theorem Woken.devWrites (h : Woken s t) : t.devWrites = s.devWrites := (congrArg State.devWrites h.rest).trans rfl

theorem Woken.of_wakeHost (hdev : s.devWrites = []) : Woken s (wakeHost s) := by
  have hops := Woken.of_finishOps s.ops s
  have hpump : (finishOps s.ops s).pump = finishOps s.ops s := by
    rw [State.pump, hops.devWrites, hdev]
    rfl
  rw [wakeHost, hpump]
  exact hops

/-! ## Peers -/

theorem failReqs_replied (p : OutReq → Bool) (s : State) : ∀ q ∈ (failReqs p s).requests, ∃ x ∈ s.requests, x.dst = q.dst ∧
    ((p x = true ∨ x.reply ≠ none) → q.reply ≠ none) := by
  intro q hq
  obtain ⟨x, hx, rfl⟩ := List.mem_map.mp hq
  refine ⟨x, hx, ?_⟩
  split
  · exact ⟨rfl, fun _ => nofun⟩
  · next hno =>
    refine ⟨rfl, fun h hnone => ?_⟩
    rcases h with hp | hr
    · exact hno (by simp [hp, hnone])
    · exact hr hnone

theorem core_loseMail (p : MboxMsg → Bool) (s : State) (c : Nat) :
    (loseMail p s).core c = { s.core c with outbound := (s.core c).outbound.filter (fun m => !p m) } := by
  rw [State.core, loseMail, tget, tfind_map (fun k : Core => { k with outbound := k.outbound.filter (fun m => !p m) }), State.core, tget]
  cases tfind s.cores c <;> rfl

/-- A peer that goes down: its mail is lost, and the commands of the host go on. -/
theorem peerDown_eq (hdev : s.devWrites = []) (pkg : Nat) : ∃ u v, peerDown s pkg = v ∧ Woken u v ∧
    u = failReqs (fun q => q.dst == pkg)
      (loseMail (fun m => m.dstPkg == pkg) { loseSent s pkg with peers := tset s.peers pkg { s.peer pkg with up := false } }) :=
  ⟨_, _, rfl, .of_wakeHost hdev, rfl⟩

/-- What mail to a package that is lost leaves: a count of writes that had left, and the cores without those that have not. -/
def MailLost (pkg : Nat) (p : MboxMsg → Bool) (s t : State) : Prop :=
  (∃ n, n ≤ tget s.sentMail pkg 0 ∧ t.lostMail = s.lostMail + n + (s.cores.map (fun q => (q.2.outbound.filter p).length)).sum) ∧
    tget t.sentMail pkg 0 = 0 ∧ ∀ c, t.core c = { s.core c with outbound := (s.core c).outbound.filter (fun m => !p m) }

theorem loseMail_loses (pkg : Nat) (p : MboxMsg → Bool) (s : State) : MailLost pkg p s (loseMail p (loseSent s pkg)) :=
  ⟨⟨_, Nat.le_of_lt_succ (Nat.mod_lt _ (Nat.succ_pos _)), rfl⟩, by
    change tget (tdel s.sentMail pkg) pkg 0 = 0
    rw [tget, tfind_tdel_self]
    rfl, core_loseMail p (loseSent s pkg)⟩

theorem MailLost.of_eq {pkg : Nat} {p : MboxMsg → Bool} (h : MailLost pkg p s t) (hlost : u.lostMail = t.lostMail)
    (hsent : u.sentMail = t.sentMail) (hcores : u.cores = t.cores) : MailLost pkg p s u := by
  obtain ⟨hn, hs, hc⟩ := h
  exact ⟨by rw [hlost]; exact hn, by rw [hsent]; exact hs, fun c => by rw [State.core, hcores]; exact hc c⟩

theorem Woken.cores (h : Woken s t) : t.cores = s.cores := (congrArg State.cores h.rest).trans rfl
theorem Woken.mem (h : Woken s t) : t.mem = s.mem := (congrArg State.mem h.rest).trans rfl
theorem Woken.peers (h : Woken s t) : t.peers = s.peers := (congrArg State.peers h.rest).trans rfl
theorem Woken.ports (h : Woken s t) : t.ports = s.ports := (congrArg State.ports h.rest).trans rfl
theorem Woken.routes (h : Woken s t) : t.routes = s.routes := (congrArg State.routes h.rest).trans rfl
theorem Woken.lostMail (h : Woken s t) : t.lostMail = s.lostMail := (congrArg State.lostMail h.rest).trans rfl
theorem Woken.sentMail (h : Woken s t) : t.sentMail = s.sentMail := (congrArg State.sentMail h.rest).trans rfl

theorem Woken.allReplied {pkg : Nat} (h : Woken s t) (ha : AllReplied s pkg) : AllReplied t pkg := fun q hq => ha q (h.reqs q hq)

theorem failReqs_allReplied (pkg : Nat) (s : State) : AllReplied (failReqs (fun q => q.dst == pkg) s) pkg := by
  intro q hq hd
  obtain ⟨x, -, hx, hr⟩ := failReqs_replied _ s q hq
  exact hr (.inl (by simp [hx, hd]))

theorem AllReplied.failReqs {id : Nat} (h : AllReplied s id) (p : OutReq → Bool) : AllReplied (failReqs p s) id := by
  intro q hq hd
  obtain ⟨x, hx, hdst, hr⟩ := failReqs_replied p s q hq
  exact hr (.inr (h x hx (hdst.trans hd)))

/-- A peer that goes down. -/
theorem peerDown_downs (hdev : s.devWrites = []) (pkg : Nat) : ((peerDown s pkg).peer pkg).up = false ∧ AllReplied (peerDown s pkg) pkg ∧
    (peerDown s pkg).mem = s.mem ∧ MailLost pkg (fun m => m.dstPkg == pkg) s (peerDown s pkg) := by
  obtain ⟨u, v, hv, hw, hu⟩ := peerDown_eq hdev pkg
  rw [hv]
  refine ⟨?_, hw.allReplied (hu ▸ failReqs_allReplied pkg _), by rw [hw.mem, hu]; rfl,
    (loseMail_loses pkg _ s).of_eq (by rw [hw.lostMail, hu]; rfl) (by rw [hw.sentMail, hu]; rfl) (by rw [hw.cores, hu]; rfl)⟩
  have hp : v.peers = tset s.peers pkg { s.peer pkg with up := false } := by
    rw [hw.peers, hu]
    rfl
  rw [State.peer, hp, tget_tset_self]

/-- What peers that go down leave: the ports and routes, memory, and the cores but for mail that is lost; no peer comes up, and no request
is asked anew. -/
structure Severs (s t : State) : Prop where
  ports : t.ports = s.ports
  routes : t.routes = s.routes
  mem : t.mem = s.mem
  devWrites : t.devWrites = s.devWrites
  cores : ∀ c, { t.core c with outbound := (s.core c).outbound } = s.core c
  mail : ∀ c, ∀ m ∈ (t.core c).outbound, m ∈ (s.core c).outbound
  peers : ∀ id, (s.peer id).up = false → (t.peer id).up = false
  replied : ∀ id, AllReplied s id → AllReplied t id

theorem Severs.refl (s : State) : Severs s s := ⟨rfl, rfl, rfl, rfl, fun _ => rfl, fun _ _ h => h, fun _ h => h, fun _ h => h⟩

theorem Severs.trans (h1 : Severs s t) (h2 : Severs t u) : Severs s u where
  ports := h2.ports.trans h1.ports
  routes := h2.routes.trans h1.routes
  mem := h2.mem.trans h1.mem
  devWrites := h2.devWrites.trans h1.devWrites
  cores c := (congrArg (fun k : Core => { k with outbound := (s.core c).outbound }) (h2.cores c)).trans (h1.cores c)
  mail c m hm := h1.mail c m (h2.mail c m hm)
  peers id h := h2.peers id (h1.peers id h)
  replied id h := h2.replied id (h1.replied id h)

theorem Severs.of_peerDown (hdev : s.devWrites = []) (pkg : Nat) : Severs s (peerDown s pkg) := by
  obtain ⟨u, v, hv, hw, hu⟩ := peerDown_eq hdev pkg
  have hcore : ∀ c, v.core c = { s.core c with outbound := (s.core c).outbound.filter (fun m => !(m.dstPkg == pkg)) } := fun c => by
    rw [State.core, hw.cores, hu]
    exact core_loseMail _ { loseSent s pkg with peers := tset s.peers pkg { s.peer pkg with up := false } } c
  have hpeers : v.peers = tset s.peers pkg { s.peer pkg with up := false } := by
    rw [hw.peers, hu]
    rfl
  rw [hv]
  refine ⟨by rw [hw.ports, hu]; rfl, by rw [hw.routes, hu]; rfl, by rw [hw.mem, hu]; rfl, by rw [hw.devWrites, hu]; rfl,
    fun c => by rw [hcore], fun c m hm => ?_, fun id hid => ?_, fun id hid => hw.allReplied ?_⟩
  · rw [hcore] at hm
    exact (List.mem_filter.mp hm).1
  · rw [State.peer, hpeers]
    by_cases h : id = pkg
    · rw [h, tget_tset_self]
    · rw [tget_tset_ne _ _ _ h]
      exact hid
  · rw [hu]
    exact AllReplied.failReqs (s := loseMail _ { loseSent s pkg with peers := _ }) hid _

theorem Severs.of_peersDown : ∀ (l : List Nat) {s : State}, s.devWrites = [] → Severs s (peersDown l s)
  | [], s, _ => .refl s
  | p :: l, s, hdev => by
    have hp := Severs.of_peerDown hdev p
    exact hp.trans (.of_peersDown l (hp.devWrites.trans hdev))

/-- A peer is down, with every request to it answered and no mail for it in a port. -/
def Severed (t : State) (id : Nat) : Prop := (t.peer id).up = false ∧ AllReplied t id ∧ ∀ c, ∀ m ∈ (t.core c).outbound, m.dstPkg ≠ id

theorem Severs.severed {id : Nat} (h : Severs s t) (hs : Severed s id) : Severed t id :=
  ⟨h.peers id hs.1, h.replied id hs.2.1, fun c m hm => hs.2.2 c m (h.mail c m hm)⟩

theorem peerDown_severed (hdev : s.devWrites = []) (pkg : Nat) : Severed (peerDown s pkg) pkg := by
  obtain ⟨hup, hrep, -, -, -, hcore⟩ := peerDown_downs hdev pkg
  refine ⟨hup, hrep, fun c m hm => ?_⟩
  rw [hcore c] at hm
  simpa using (List.mem_filter.mp hm).2

theorem peersDown_severed {id : Nat} : ∀ (l : List Nat) {s : State}, id ∈ l → s.devWrites = [] → Severed (peersDown l s) id
  | [], _, h, _ => absurd h (by simp)
  | p :: l, s, h, hdev => by
    have hp := (Severs.of_peerDown hdev p).devWrites.trans hdev
    by_cases hl : id ∈ l
    · exact peersDown_severed l hl hp
    · obtain rfl : id = p := (List.mem_cons.mp h).resolve_right hl
      exact (Severs.of_peersDown l hp).severed (peerDown_severed hdev id)

/-! ## Links -/

/-- The routes without a port. -/
def routesWithout (r : Tbl (List Nat)) (port : Nat) : Tbl (List Nat) :=
  (r.map (fun p => (p.1, p.2.filter (fun q => q != port)))).filter (fun p => !p.2.isEmpty)

theorem routesWithout_none (r : Tbl (List Nat)) (port id : Nat) : port ∉ tget (routesWithout r port) id [] := by
  intro h
  rw [tget] at h
  cases hf : tfind (routesWithout r port) id with
  | none =>
    rw [hf] at h
    cases h
  | some l =>
    rw [hf] at h
    obtain ⟨p, -, hp⟩ := List.mem_map.mp (List.mem_filter.mp (tfind_mem hf)).1
    obtain ⟨-, rfl⟩ := Prod.mk.inj hp
    simpa using (List.mem_filter.mp h).2

/-- What a link that goes down leaves (R447, R460). -/
def Unlinked (port : Nat) (s t : State) : Prop :=
  (t.port port).up = false ∧ (∀ id, port ∉ tget t.routes id []) ∧ (∀ c, { t.core c with outbound := (s.core c).outbound } = s.core c) ∧
    t.mem = s.mem ∧ ∀ id, tget s.routes id [] = [port] → Severed t id

theorem dropLink_unlinks (hdev : s.devWrites = []) (port : Nat) :
    Unlinked port s (dropLink s port) ∧ ((dropLink s port).port port).lanesLost = (s.port port).lanesLost := by
  obtain ⟨gone, hgone⟩ : ∃ l, l = (s.routes.filter (fun p => p.2 == [port])).map Prod.fst := ⟨_, rfl⟩
  obtain ⟨u, hu⟩ : ∃ u : State, u = { s.setPort port { s.port port with up := false } with routes := routesWithout s.routes port } := ⟨_, rfl⟩
  have hdrop : dropLink s port = peersDown gone u := by
    rw [hgone, hu]
    rfl
  have hudev : u.devWrites = [] := by rw [hu, ← hdev]; rfl
  have hsev := Severs.of_peersDown gone hudev
  have hport : (peersDown gone u).port port = { s.port port with up := false } := by
    rw [State.port, hsev.ports, hu]
    exact tget_tset_self _ _ _ _
  have hcore : ∀ c, u.core c = s.core c := fun c => by rw [hu]; rfl
  rw [hdrop]
  refine ⟨⟨by rw [hport], fun id => ?_, fun c => ?_, ?_, fun id hid => peersDown_severed gone ?_ hudev⟩, by rw [hport]⟩
  · rw [hsev.routes, hu]
    exact routesWithout_none _ _ _
  · rw [← hcore]
    exact hsev.cores c
  · rw [hsev.mem, hu]
    rfl
  · rw [hgone]
    rw [tget] at hid
    cases hf : tfind s.routes id with
    | none =>
      rw [hf] at hid
      cases hid
    | some l =>
      rw [hf] at hid
      exact List.mem_map.mpr ⟨(id, l), List.mem_filter.mpr ⟨tfind_mem hf, by simpa using hid⟩, rfl⟩

theorem addRoutes_frame (port : Nat) : ∀ (l : List Nat) (s : State), ∃ R, addRoutes port l s = { s with routes := R } ∧
    (∀ id, port ∈ tget s.routes id [] → port ∈ tget R id []) ∧
    ∀ id ∈ l, id < 4096 → id ≠ s.pkgId → port ∈ tget R id []
  | [], s => ⟨s.routes, rfl, fun _ h => h, nofun⟩
  | p :: l, s => by
    obtain ⟨R0, hR0, hkeep, hnew⟩ : ∃ R0, (if p < 4096 && p != s.pkgId && !(tget s.routes p []).contains port
        then { s with routes := tset s.routes p (tget s.routes p [] ++ [port]) } else s) = { s with routes := R0 } ∧
        (∀ id, port ∈ tget s.routes id [] → port ∈ tget R0 id []) ∧ (p < 4096 → p ≠ s.pkgId → port ∈ tget R0 p []) := by
      split
      · refine ⟨_, rfl, fun id hid => ?_, fun _ _ => ?_⟩
        · by_cases h : id = p
          · rw [h, tget_tset_self]
            exact List.mem_append_right _ (List.mem_singleton.mpr rfl)
          · rw [tget_tset_ne _ _ _ h]
            exact hid
        · rw [tget_tset_self]
          exact List.mem_append_right _ (List.mem_singleton.mpr rfl)
      · next hno =>
        refine ⟨s.routes, rfl, fun _ h => h, fun h1 h2 => ?_⟩
        by_contra hout
        exact hno (by simp [h1, h2, hout])
    obtain ⟨R, hR, hkeep', hnew'⟩ := addRoutes_frame port l { s with routes := R0 }
    refine ⟨R, by rw [addRoutes, hR0, hR], fun id hid => hkeep' id (hkeep id hid), fun id hid h1 h2 => ?_⟩
    rcases List.mem_cons.mp hid with rfl | hid
    · exact hkeep' id (hnew h1 h2)
    · exact hnew' id hid h1 h2

theorem countWindows_frame : ∀ (l : List Nat) (s : State), ∃ P, countWindows l s = { s with ports := P } ∧
    ∀ p < 36, ({ s with ports := P } : State).port p = { s.port p with windows := (s.port p).windows + l.count p }
  | [], s => ⟨s.ports, rfl, fun _ _ => rfl⟩
  | q :: l, s => by
    obtain ⟨P0, hP0, hport⟩ : ∃ P0, (if q < 36 then s.setPort q { s.port q with windows := (s.port q).windows + 1 } else s) =
        { s with ports := P0 } ∧ ∀ p < 36, ({ s with ports := P0 } : State).port p =
          { s.port p with windows := (s.port p).windows + if q = p then 1 else 0 } := by
      split
      · next hq =>
        refine ⟨_, rfl, fun p _ => ?_⟩
        by_cases h : q = p
        · subst h
          rw [if_pos rfl]
          exact tget_tset_self _ _ _ _
        · rw [if_neg h]
          exact tget_tset_ne _ _ _ (Ne.symm h)
      · next hq =>
        refine ⟨s.ports, rfl, fun p hp => ?_⟩
        rw [if_neg (by omega)]
        rfl
    obtain ⟨P, hP, hcount⟩ := countWindows_frame l { s with ports := P0 }
    refine ⟨P, by rw [countWindows, hP0, hP], fun p hp => (hcount p hp).trans ?_⟩
    rw [hport p hp, List.count_cons]
    dsimp only
    congr 1
    simp only [beq_iff_eq]
    omega

end

end Sys2Proof.Machine
end

section
/-! SUPPORT. Heat, links and peers (R427, R441 to R447, R454, R455, R460, R464): the events, and the obligation about them. -/

namespace Sys2Proof.Machine

section
variable {s : State} {port lane pkg inc tid : Nat} {ids : List Nat}

/-! ## Ports -/

theorem unsupported_drops (hport : port < 4) : exec (.unsupportedDeliveryMode port) s =
    .next (if port < (if s.recovery then 1 else 4) then { s with packetDrops := s.packetDrops + 1 } else s) := by
  change execUnsupportedDeliveryMode port s = _
  rw [execUnsupportedDeliveryMode, if_neg (by omega)]
  refine congrArg Host.Outcome.next (if_congr ?_ rfl rfl)
  rw [etherUp]
  cases s.recovery <;> simp <;> omega

theorem linkUp_routes (hport : port < 36) : ∃ t, exec (.linkUp port ids) s = .next t ∧
    t.port port = { s.port port with up := true, lanesLost := [] } ∧
    (∀ id ∈ ids, id < 4096 → id ≠ s.pkgId → port ∈ tget t.routes id []) ∧
    { t with ports := s.ports, routes := s.routes } = s.sends (.hello true s.incarnation) := by
  obtain ⟨R, hR, -, hnew⟩ := addRoutes_frame port ids (s.setPort port { s.port port with up := true, lanesLost := [] })
  refine ⟨emit { s.setPort port { s.port port with up := true, lanesLost := [] } with routes := R } (.hello true s.incarnation), ?_,
    tget_tset_self _ _ _ _, hnew, rfl⟩
  change execLinkUp port ids s = _
  rw [execLinkUp, portEvent, if_neg (by omega), hR]

theorem portEvent_outside (hport : 36 ≤ port) (act : State → State) : portEvent port s act = .fault .noSuchUnit := by
  rw [portEvent, if_pos hport]

theorem portEvent_here (hport : port < 36) (act : State → State) : portEvent port s act = .next (act s) := by
  rw [portEvent, if_neg (by omega)]

theorem linkDown_goes (hport : port < 36) : exec (.linkDown port) s = .next (if (s.port port).up then dropLink s port else s) :=
  portEvent_here hport _

theorem laneLock_goes (hport : port < 36) (hlane : lane < 4) : exec (.laneLockTimeout port lane) s =
    .next (if !(s.port port).up then s else dropLink (s.setPort port { s.port port with
      lanesLost := lane :: (s.port port).lanesLost.filter (fun l => l != lane) }) port) := by
  change execLaneLockTimeout port lane s = _
  rw [execLaneLockTimeout, if_neg (by omega), portEvent_here hport]

/-- A lane without a lock brings its link down. -/
theorem laneLock_unlinks (hport : port < 36) (hlane : lane < 4) (hup : (s.port port).up = true) (hdev : s.devWrites = []) :
    ∃ t, exec (.laneLockTimeout port lane) s = .next t ∧ Unlinked port s t ∧ lane ∈ (t.port port).lanesLost := by
  obtain ⟨u, hu⟩ : ∃ u, u = s.setPort port { s.port port with
    lanesLost := lane :: (s.port port).lanesLost.filter (fun l => l != lane) } := ⟨_, rfl⟩
  have hport' : u.port port = { s.port port with lanesLost := lane :: (s.port port).lanesLost.filter (fun l => l != lane) } := by
    rw [hu]
    exact tget_tset_self _ _ _ _
  obtain ⟨⟨hdown, hroutes, hcores, hmem, hpeers⟩, hlost⟩ := dropLink_unlinks (s := u) (by rw [hu]; exact hdev) port
  refine ⟨dropLink u port, by rw [laneLock_goes hport hlane, hup, hu]; rfl, ⟨hdown, hroutes, ?_, ?_, ?_⟩, ?_⟩
  · intro c
    have hcore : u.core c = s.core c := by rw [hu]; rfl
    rw [← hcore]
    exact hcores c
  · rw [hmem, hu]
    rfl
  · intro id hid
    exact hpeers id (by rw [hu]; exact hid)
  · rw [hlost, hport']
    exact List.mem_cons_self

theorem windowEnd_counts : ∃ t, exec (.class0WindowEnd ids) s = .next t ∧ { t with ports := s.ports } = s ∧
    ∀ p < 36, t.port p = { s.port p with windows := (s.port p).windows + ids.count p } := by
  obtain ⟨P, hP, hcount⟩ := countWindows_frame ids s
  exact ⟨{ s with ports := P }, congrArg Host.Outcome.next hP, rfl, hcount⟩

/-! ## Peers -/

theorem hello_other (h : pkg = s.pkgId ∨ 4096 ≤ pkg) (up : Bool) : exec (.hello pkg up inc) s = .next s := by
  change execHello pkg up inc s = _
  rw [execHello, if_pos (by simpa using h)]

theorem hello_down (hpkg : pkg ≠ s.pkgId) (hin : pkg < 4096) : exec (.hello pkg false inc) s = .next (peerDown s pkg) := by
  change execHello pkg false inc s = _
  rw [execHello, if_neg (by simp [hpkg]; omega)]
  rfl

/-- A peer that comes up, perhaps as another incarnation. -/
theorem hello_up (hpkg : pkg ≠ s.pkgId) (hin : pkg < 4096) (hdev : s.devWrites = []) : ∃ t, exec (.hello pkg true inc) s = .next t ∧
    t.peer pkg = ⟨true, inc % 2 ^ 48, s.clock⟩ ∧ t.mem = s.mem ∧
    ((s.peer pkg).inc ≠ inc → AllReplied t pkg ∧ MailLost pkg (fun m => m.dstPkg == pkg && m.inc != inc % 2 ^ 48) s t) ∧
    ((s.peer pkg).inc = inc → t.cores = s.cores ∧ t.lostMail = s.lostMail ∧ (s.ops = [] → t.requests = s.requests)) := by
  obtain ⟨u, hu⟩ : ∃ u, u = if (s.peer pkg).inc = inc then s else failReqs (fun q => q.dst == pkg)
    (loseMail (fun m => m.dstPkg == pkg && m.inc != inc % 2 ^ 48) (loseSent s pkg)) := ⟨_, rfl⟩
  obtain ⟨v, hv⟩ : ∃ v : State, v = { u with peers := tset u.peers pkg ⟨true, inc % 2 ^ 48, u.clock⟩ } := ⟨_, rfl⟩
  have hexec : exec (.hello pkg true inc) s = .next (wakeHost v) := by
    change execHello pkg true inc s = _
    rw [execHello, if_neg (by simp [hpkg]; omega), if_neg (by decide), hv, hu]
  have hu' : u.clock = s.clock ∧ u.mem = s.mem ∧ u.devWrites = s.devWrites ∧ u.ops = s.ops := by
    rw [hu]
    split <;> exact ⟨rfl, rfl, rfl, rfl⟩
  obtain ⟨hclock, hmem, hudev, huops⟩ := hu'
  have hvdev : v.devWrites = [] := by
    rw [hv]
    exact hudev.trans hdev
  have hw := Woken.of_wakeHost hvdev
  refine ⟨wakeHost v, hexec, ?_, ?_, fun hne => ?_, fun heq => ?_⟩
  · rw [State.peer, hw.peers, hv, ← hclock]
    exact tget_tset_self _ _ _ _
  · rw [hw.mem, hv]
    exact hmem
  · rw [if_neg hne] at hu
    refine ⟨hw.allReplied ?_, (loseMail_loses pkg _ s).of_eq (by rw [hw.lostMail, hv, hu]; rfl) (by rw [hw.sentMail, hv, hu]; rfl)
      (by rw [hw.cores, hv, hu]; rfl)⟩
    rw [hv, hu]
    exact failReqs_allReplied pkg _
  · rw [if_pos heq] at hu
    refine ⟨by rw [hw.cores, hv, hu], by rw [hw.lostMail, hv, hu], fun hops => ?_⟩
    rw [wakeHost_idle (by rw [hv]; exact huops.trans hops) hvdev, hv, hu]

/-- 100 µs in nominal cycles. -/
theorem ten_tenMicros : 10 * tenMicros = 130000 := rfl

theorem requestTimeout_fails (hops : s.ops = []) (hdev : s.devWrites = []) : exec (.requestTimeout tid) s = .next { s with
    requests := s.requests.map (fun q =>
      if q.tid = tid ∧ q.sent + 130000 ≤ s.clock ∧ q.reply = none then { q with reply := some (.nack 0x48) } else q) } := by
  change execRequestTimeout tid s = _
  rw [execRequestTimeout, wakeHost_idle (s := failReqs _ s) hops hdev, failReqs]
  have hsame : ∀ q : OutReq, (q.tid == tid && decide (q.sent + 10 * tenMicros ≤ s.clock) && q.reply.isNone) = true ↔
      q.tid = tid ∧ q.sent + 130000 ≤ s.clock ∧ q.reply = none := fun q => by
    rw [← ten_tenMicros]
    simp [and_assoc]
  simp only [hsame]

theorem silence_idle (h : (s.peer pkg).up = false ∨ (∀ q ∈ s.requests, q.dst = pkg → q.reply ≠ none) ∨
    s.clock < (s.peer pkg).heard + 130000) : exec (.peerSilenceTimeout pkg) s = .next s := by
  change execPeerSilenceTimeout pkg s = _
  rw [execPeerSilenceTimeout, if_neg]
  intro hc
  simp only [Bool.and_eq_true, List.any_eq_true, beq_iff_eq, decide_eq_true_eq, Option.isNone_iff_eq_none] at hc
  obtain ⟨⟨hup, q, hq, hdst, hr⟩, hlate⟩ := hc
  rcases h with h | h | h
  · rw [h] at hup
    cases hup
  · exact h q hq hdst hr
  · have hten := ten_tenMicros
    omega

theorem silence_downs (hup : (s.peer pkg).up = true) (hq : ∃ q ∈ s.requests, q.dst = pkg ∧ q.reply = none)
    (hlate : (s.peer pkg).heard + 130000 ≤ s.clock) : exec (.peerSilenceTimeout pkg) s = .next (peerDown s pkg) := by
  obtain ⟨q, hq, hdst, hr⟩ := hq
  change execPeerSilenceTimeout pkg s = _
  rw [execPeerSilenceTimeout, if_pos]
  simp only [Bool.and_eq_true, List.any_eq_true, beq_iff_eq, decide_eq_true_eq, Option.isNone_iff_eq_none]
  exact ⟨⟨hup, q, hq, hdst, hr⟩, hlate⟩

end

/-- Settles O56, event by event. -/
theorem heatLinksAndPeers : Obligations.HeatLinksAndPeers := by
  intro s port lane pkg inc tid ids below112 below105 hopen
  dsimp only
  obtain ⟨hnormal, hhot, hhigh⟩ := above112_passes hopen
  refine ⟨fun hh => ?_, above105_again, fun hh => ?_, fun hh => ?_, hhigh, cooling_cools _ _, shutdown_off, fun hp hh => ?_,
    fun hp hh he hnone => shutdown_ends hp hh he hnone, unsupported_drops, fun hport => ⟨linkUp_routes hport, ?_, ?_, fun hdown => ⟨?_, fun hlane => ?_⟩,
      fun hup hdev => ⟨?_, fun hlane => ?_⟩⟩, fun hport i hi => ?_, windowEnd_counts, fun h up => hello_other h up,
    fun hpkg hin hdev => ⟨⟨_, hello_down hpkg hin, peerDown_downs hdev pkg⟩, hello_up hpkg hin hdev⟩, requestTimeout_fails, silence_idle,
    fun hup hq hlate hdev => ⟨_, silence_downs hup hq hlate, peerDown_downs hdev pkg⟩⟩
  · obtain ⟨t, hgo, ht⟩ := above105_passes hopen hh
    exact ⟨t, hgo, ht.msgs, ht.rest⟩
  · obtain ⟨t, hgo, ht⟩ := hnormal hh
    exact ⟨t, hgo, ht.msgs, ht.rest⟩
  · obtain ⟨t, hgo, ht⟩ := hhot hh
    exact ⟨t, hgo, ht.msgs, ht.rest⟩
  · obtain ⟨t, hgo, hheat, ⟨rest, hrest⟩, hjobs, hoff⟩ := shutdown_begins hopen hp hh
    refine ⟨t, hgo, hheat, ⟨rest, hrest.trans ?_⟩, fun c j hj hlive hheld he => ?_, hoff⟩
    · cases s.heat <;> rfl
    · exact (hjobs c j hj hlive hheld he).imp_right And.right
  · exact portEvent_here hport id
  · exact portEvent_here hport (fun s => { s with fabDropped := s.fabDropped + 1 })
  · rw [linkDown_goes hport, hdown, if_neg Bool.false_ne_true]
  · rw [laneLock_goes hport hlane, hdown]
    rfl
  · obtain ⟨hun, -⟩ := dropLink_unlinks hdev port
    exact ⟨_, by rw [linkDown_goes hport, hup, if_pos rfl], hun⟩
  · exact laneLock_unlinks hport hlane hup hdev
  · simp only [List.mem_cons, List.not_mem_nil, or_false] at hi
    have hout := portEvent_outside (s := s) hport
    rcases hi with rfl | rfl | rfl | rfl
    · exact hout (fun s => emit (addRoutes port ids (s.setPort port { s.port port with up := true, lanesLost := [] }))
        (.hello true s.incarnation))
    · exact hout id
    · exact hout (fun s => if (s.port port).up then dropLink s port else s)
    · exact hout (fun s => { s with fabDropped := s.fabDropped + 1 })

end Sys2Proof.Machine
end

section
/-! SUPPORT. MEMW and MEMR (R431, R432): the access that is accepted or refused, and its effect. -/

namespace Sys2Proof.Machine

section
variable {s : State} {h : HostHdr} {addr : HostAddr} {data : List Byte} {n : Nat} {g : Seg} {st : Nat} {l : List Byte}

/-! ## The parts of an access -/

theorem splitPages_none : ∀ (f va : Nat), splitPages f va 0 = []
  | 0, _ => rfl
  | f + 1, va => by rw [splitPages, if_pos rfl]

/-- An access within one page has one part. -/
theorem splitPages_one {f va : Nat} (hn : 0 < n) (hfit : va % 2 ^ 14 + n ≤ 2 ^ 14) : splitPages (f + 1) va n = [(va % 2 ^ 64, n)] := by
  have hmin : min n (0x4000 - va % 0x4000) = n := by omega
  rw [splitPages, if_neg (by omega), hmin]
  dsimp only
  rw [Nat.sub_self, splitPages_none]

/-- The first part of an access that has bytes begins at its address. -/
theorem splitPages_first {f va : Nat} (hn : 0 < n) : ∃ m r, splitPages (f + 1) va n = (va % 2 ^ 64, m) :: r := by
  rw [splitPages, if_neg (by omega)]
  exact ⟨_, _, rfl⟩

theorem virtSegs_one {c va : Nat} {use : Use} {tr : Trans} (hcan : canonical va = true) (hw : walk s c (va % 2 ^ 57) = .ok tr)
    (hpkg : tr.pkg = s.pkgId) (hend : tr.pa (va % 2 ^ 57) + n ≤ rangeEnd (tr.pa (va % 2 ^ 57))) : virtSegs s c use [(va, n)] =
      if tr.attr.refuses use then .error (faultStatus 0x11) else .ok [⟨.local, tr.pa (va % 2 ^ 57), n, tr.attr, va % 2 ^ 57, none⟩] := by
  rw [virtSegs, hcan, if_neg (by decide), hw]
  dsimp only
  refine if_congr Iff.rfl rfl ?_
  rw [if_neg (by omega), virtSegs, if_pos hpkg]
  rfl

theorem virtSegs_refused {c va m cause : Nat} {use : Use} {r : List (Nat × Nat)}
    (h : canonical va = false ∧ cause = 0x10 ∨ canonical va = true ∧ walk s c (va % 2 ^ 57) = .error cause) :
    virtSegs s c use ((va, m) :: r) = .error (3, [BitVec.ofNat 8 cause]) := by
  rcases h with ⟨hcan, rfl⟩ | ⟨hcan, hw⟩
  · rw [virtSegs, hcan, if_pos (by decide)]
    rfl
  · rw [virtSegs, hcan, if_neg (by decide), hw]
    rfl

theorem hostSegs_phys {pa : Nat} {use : Use} (ha : assigned pa = true) (hend : pa + n ≤ rangeEnd pa) :
    hostSegs s use n (.phys pa) = .ok [⟨.local, pa, n, plainAttr, pa, none⟩] := by
  rw [hostSegs, if_neg]
  simp [ha]
  omega

theorem hostSegs_phys_bad {pa : Nat} {use : Use} (h : assigned pa = false ∨ rangeEnd pa < pa + n) :
    hostSegs s use n (.phys pa) = .error (1, []) := by
  rw [hostSegs, if_pos]
  simpa using h

theorem hostSegs_dead {c : Nat} {va : Word} {use : Use} (hl : (s.ctx c).live = false) : hostSegs s use n (.virt c va) = .error (1, []) := by
  rw [hostSegs, hl]
  rfl

theorem hostSegs_virt {c : Nat} {va : Word} {use : Use} (hl : (s.ctx c).live = true) :
    hostSegs s use n (.virt c va) = virtSegs s c use (splitPages (n / 0x4000 + 2) va.toNat n) := by
  rw [hostSegs, hl, if_neg (by decide)]

theorem walkedHost_frame (s : State) (use : Use) (n : Nat) (addr : HostAddr) : ∃ C, walkedHost s use n addr = { s with counters := C } := by
  cases addr with
  | phys pa => exact ⟨s.counters, rfl⟩
  | virt c va =>
    rw [walkedHost]
    split
    · exact ⟨s.counters, rfl⟩
    · exact countWalks_frame _ _ _ _

/-! ## The command's message -/

theorem startOp_accepts {write : Bool} {segs : List Seg} (use : Use) : startOp h write segs l (walkedHost (s.hears h) use n addr) =
    { walkedHost (s.hears h) use n addr with
      ops := s.ops ++ [⟨s.nextDev, h.seq, h.port, write, segs, l, false, true⟩], nextDev := s.nextDev + 1 } := by
  obtain ⟨C, hC⟩ := walkedHost_frame (s.hears h) use n addr
  rw [hC]
  rfl

theorem memw_acts (hn : HostNext s h) (hr : s.recovery = false) (hw : waitingOp s h true = none) (hlen : data.length ≤ 65526) :
    (∀ g, hostSegs (s.hears h) .write data.length addr = .ok [g] → exec (.memw h addr data) s =
      .next { walkedHost (s.hears h) .write data.length addr with
        ops := s.ops ++ [⟨s.nextDev, h.seq, h.port, true, [g], data, false, true⟩], nextDev := s.nextDev + 1 }) ∧
    ∀ st l, hostSegs (s.hears h) .write data.length addr = .error (st, l) → exec (.memw h addr data) s =
      .next ((walkedHost (s.hears h) .write data.length addr).replies h true st l) := by
  have hact := memw_cmd (addr := addr) (data := data) hw
  rw [hostCmd_acts hn (.inr rfl)] at hact
  rw [if_neg (show ¬ (s.hears h).recovery = true by rw [show (s.hears h).recovery = s.recovery from rfl, hr]; decide),
    if_neg (by omega)] at hact
  refine ⟨fun g hg => ?_, fun st l hbad => ?_⟩
  · rw [hact, hg]
    exact congrArg _ (startOp_accepts _)
  · rw [hact, hbad]
    rfl

theorem memr_acts (hn : HostNext s h) (hr : s.recovery = false) (hw : waitingOp s h false = none) (hlen : n ≤ 65528) :
    (∀ g, hostSegs (s.hears h) .read n addr = .ok [g] → exec (.memr h addr n) s =
      .next { walkedHost (s.hears h) .read n addr with
        ops := s.ops ++ [⟨s.nextDev, h.seq, h.port, false, [g], [], false, true⟩], nextDev := s.nextDev + 1 }) ∧
    ∀ st l, hostSegs (s.hears h) .read n addr = .error (st, l) → exec (.memr h addr n) s =
      .next ((walkedHost (s.hears h) .read n addr).replies h true st l) := by
  have hact := memr_cmd (addr := addr) (n := n) hw
  rw [hostCmd_acts hn (.inl hr)] at hact
  rw [if_neg (by omega)] at hact
  refine ⟨fun g hg => ?_, fun st l hbad => ?_⟩
  · rw [hact, hg]
    exact congrArg _ (startOp_accepts _)
  · rw [hact, hbad]
    rfl

/-! ## The effect of an accepted command (R432) -/

/-- A bulk command completes with an answer. -/
def opEnds (s : State) (op : HostOp) (st : Nat) (l : List Byte) (t : State) : Prop :=
  t.ops = s.ops.filter (fun o => o.id != op.id) ∧
    t.toHost = (s.replies ⟨op.seq, op.port⟩ true st l).toHost ∧ t.session = (s.replies ⟨op.seq, op.port⟩ true st l).session ∧
    t.cores = s.cores ∧ t.requests = s.requests

/-- A bulk command that has taken effect. -/
def HostOp.begun (op : HostOp) : HostOp := { op with performed := true }

/-- The state in which a bulk command takes effect. -/
def opStarts (s : State) (op : HostOp) : State := { s with ops := s.ops.map (fun o => if o.id = op.id then op.begun else o) }

theorem performOp_eq (op : HostOp) (s : State) : performOp op s =
    if op.write then
      if op.segs.any (fun g => g.home == .local && storeBad s g.addr g.len) then endOp (opStarts s op) op 3 [0x50]
      else finishOp op.begun (requestWrites 0 op.owner op.segs op.data (List.replicate op.data.length true)
        (hostWrite op.segs op.data (opStarts s op)))
    else finishOp op.begun (requestReads 0 op.owner op.segs (opStarts s op)) := rfl

theorem filter_opStarts (s : State) (op : HostOp) :
    (opStarts s op).ops.filter (fun o => o.id != op.id) = s.ops.filter (fun o => o.id != op.id) := by
  rw [opStarts]
  dsimp only
  induction s.ops with
  | nil => rfl
  | cons o l ih =>
    rw [List.map_cons]
    by_cases ho : o.id = op.id
    · rw [if_pos ho, List.filter_cons_of_neg (by simp [HostOp.begun]), List.filter_cons_of_neg (by simp [ho]), ih]
    · rw [if_neg ho, List.filter_cons_of_pos (by simp [ho]), List.filter_cons_of_pos (by simp [ho]), ih]

/-- A command ends in a state that agrees with the one in which it took effect. -/
theorem endOp_ends {op op' : HostOp} {u : State} (hid : op'.id = op.id) (hseq : op'.seq = op.seq) (hport : op'.port = op.port)
    (hans : op'.answers = true) (hops : u.ops = (opStarts s op).ops) (htold : u.toHost = s.toHost)
    (hsess : u.session = s.session) (hcores : u.cores = s.cores) (hreqs : u.requests = s.requests)
    (hnone : ∀ q ∈ s.requests, q.owner ≠ .host op.id) (st : Nat) (l : List Byte) : opEnds s op st l (endOp u op' st l) ∧
      (endOp u op' st l).mem = u.mem := by
  have hdrop : dropReqs u op'.owner = u := dropReqs_none (by rw [hreqs, HostOp.owner, hid]; exact hnone)
  rw [endOp, hdrop, hans, if_pos rfl, hseq, hport, hid]
  refine ⟨⟨?_, ?_, ?_, hcores, hreqs⟩, rfl⟩
  · exact (congrArg (List.filter (fun o => o.id != op.id)) hops).trans (filter_opStarts s op)
  · rw [respondBulk, State.post, State.replies]
    dsimp only
    rw [htold, hsess]
  · rw [respondBulk, State.post, State.replies]
    dsimp only
    rw [hsess]

section
variable {op : HostOp}

theorem memw_performs (hw : waitingOp s h true = some op) : exec (.memw h addr data) s = .next (performOp op s) := by
  change execMemw h addr data s = _
  rw [execMemw, hw] <;> rfl

theorem memr_performs (hw : waitingOp s h false = some op) : exec (.memr h addr n) s = .next (performOp op s) := by
  change execMemr h addr n s = _
  rw [execMemr, hw] <;> rfl

section
variable (hseg : op.segs = [g]) (hhome : g.home = .local) (hans : op.answers = true) (hnone : ∀ q ∈ s.requests, q.owner ≠ .host op.id)
include hseg hhome hans hnone

theorem performOp_writes (hwr : op.write = true) (hlen : op.data.length = g.len) (hwf : s.mem.wf = true)
    (hok : storeBad s g.addr g.len = false) : opEnds s op 0 [] (performOp op s) ∧
      ∀ a, readB (performOp op s).mem a = if g.addr ≤ a ∧ a < g.addr + g.len then op.data.getD (a - g.addr) 0 else readB s.mem a := by
  have hlocal : g.isRemote = false := by rw [Seg.isRemote, hhome]
  obtain ⟨T, B, C, hstore⟩ := storeLocal_frame (opStarts s op) g.attr.cmp g.addr (op.data.take g.len) (List.replicate g.len true)
  obtain ⟨u, hu⟩ : ∃ u, u = storeLocal (opStarts s op) g.attr.cmp g.addr (op.data.take g.len) (List.replicate g.len true) := ⟨_, rfl⟩
  rw [← hu] at hstore
  have hreqs : ∀ q ∈ u.requests, q.owner ≠ .host op.id := by
    rw [hstore]
    exact hnone
  have hperf : performOp op s = endOp u op.begun 0 [] := by
    rw [performOp_eq, hwr, if_pos rfl, hseg, if_neg (by simp [hok]), requestWrites, hlocal, if_neg Bool.false_ne_true, requestWrites,
      hostWrite, hlocal, if_neg Bool.false_ne_true, hostWrite, ← hu, finishOp, if_neg (by simp [HostOp.begun]),
      if_pos (by rw [HostOp.begun]; exact hwr)]
    rw [acksOf_none (owner := op.begun.owner) hreqs]
  rw [hperf]
  obtain ⟨hends, hmem⟩ := endOp_ends (s := s) (op := op) (u := u) (op' := op.begun) rfl rfl rfl hans (by rw [hstore]) (by rw [hstore]; rfl)
    (by rw [hstore]; rfl) (by rw [hstore]; rfl) (by rw [hstore]; rfl) hnone 0 []
  refine ⟨hends, fun a => ?_⟩
  rw [hmem, hstore]
  rw [List.take_of_length_le (Nat.le_of_eq hlen)]
  exact readB_writeMasked_all hwf hlen

theorem performOp_refused (hwr : op.write = true) (hbad : storeBad s g.addr g.len = true) :
    opEnds s op 3 [0x50] (performOp op s) ∧ (performOp op s).mem = s.mem := by
  have hperf : performOp op s = endOp (opStarts s op) op 3 [0x50] := by
    rw [performOp_eq, hwr, if_pos rfl, hseg, if_pos (by simp [hhome, hbad])]
  rw [hperf]
  exact endOp_ends rfl rfl rfl hans rfl rfl rfl rfl rfl hnone 3 [0x50]

theorem performOp_reads (hwr : op.write = false) :
    (readBad s g.addr g.len = none → opEnds s op 0 (readBytes s.mem g.addr g.len) (performOp op s) ∧ (performOp op s).mem = s.mem) ∧
    ∀ cause, readBad s g.addr g.len = some cause →
      opEnds s op 3 [BitVec.ofNat 8 cause] (performOp op s) ∧ (performOp op s).mem = s.mem := by
  have hlocal : g.isRemote = false := by rw [Seg.isRemote, hhome]
  have hread : readBad (opStarts s op) g.addr g.len = readBad s g.addr g.len := rfl
  have hone : ∀ r u, hostHere op.begun.owner g (opStarts s op) = some (r, u) → hostRead op.begun.owner [g] (opStarts s op) = some (r, u) := by
    intro r u hhere
    rw [hostRead_cons, hhere]
    cases r with
    | error c => rfl
    | ok l => simp [hostRead]
  have hperf : performOp op s = finishOp op.begun (opStarts s op) := by
    rw [performOp_eq, hwr, if_neg Bool.false_ne_true, hseg, requestReads, hlocal, if_neg Bool.false_ne_true, requestReads]
  have hfinish : performOp op s = match hostRead op.begun.owner [g] (opStarts s op) with
      | none => opStarts s op
      | some (.error c, u) => endOp u op.begun 3 [BitVec.ofNat 8 c]
      | some (.ok l, u) => endOp u op.begun 0 l := by
    rw [hperf, finishOp, if_neg (by simp [HostOp.begun]), if_neg (by rw [HostOp.begun]; simp [hwr]), show op.begun.segs = [g] from hseg] <;> rfl
  have hdata : ∀ l u, hostHere op.begun.owner g (opStarts s op) = some (.ok l, u) → performOp op s = endOp u op.begun 0 l :=
    fun l u hhere => by rw [hfinish, hone _ _ hhere]
  have hcause : ∀ c u, hostHere op.begun.owner g (opStarts s op) = some (.error c, u) →
      performOp op s = endOp u op.begun 3 [BitVec.ofNat 8 c] := fun c u hhere => by rw [hfinish, hone _ _ hhere]
  refine ⟨fun hgood => ?_, fun cause hbad => ?_⟩
  · obtain ⟨C, hC⟩ := readLocal_frame (opStarts s op) g.addr g.len
    have hhere : hostHere op.begun.owner g (opStarts s op) = some (.ok (readBytes s.mem g.addr g.len), { opStarts s op with counters := C }) := by
      rw [hostHere, hlocal, if_neg Bool.false_ne_true, hread, hgood]
      dsimp only
      rw [hC]
      rfl
    rw [hdata _ _ hhere]
    exact endOp_ends (s := s) (op := op) (op' := op.begun) (u := { opStarts s op with counters := C }) rfl rfl rfl hans rfl rfl rfl rfl rfl
      hnone 0 _
  · have hhere : hostHere op.begun.owner g (opStarts s op) = some (.error cause, opStarts s op) := by
      rw [hostHere, hlocal, if_neg Bool.false_ne_true, hread, hbad]
    rw [hcause _ _ hhere]
    exact endOp_ends (s := s) (op := op) (op' := op.begun) rfl rfl rfl hans rfl rfl rfl rfl rfl hnone 3 _

end
end
end

end Sys2Proof.Machine
end

section
/-! SUPPORT. The end of a context of which no job is left: its holds, launches, lifelines and handles (R406). -/

namespace Sys2Proof.Machine

section
variable {s t u : State} {n : Nat}

/-- The second state has the records, the lifelines and the attached debuggers of the first, and no launch that the first has not. -/
structure Calm (s t : State) : Prop where
  recs : t.recs = s.recs
  lifelines : t.lifelines = s.lifelines
  attached : t.attached = s.attached
  launches : ∀ x ∈ t.launches, x ∈ s.launches

theorem Calm.refl (s : State) : Calm s s := ⟨rfl, rfl, rfl, fun _ h => h⟩

theorem Calm.trans (h1 : Calm s t) (h2 : Calm t u) : Calm s u :=
  ⟨h2.recs.trans h1.recs, h2.lifelines.trans h1.lifelines, h2.attached.trans h1.attached, fun x hx => h1.launches x (h2.launches x hx)⟩

theorem Calm.of_device (h : DeviceOnly s t) : Calm s t :=
  ⟨h.recs, h.lifelines, h.attached, fun x hx => by rwa [h.launches] at hx⟩

section
variable (s)

theorem Calm.of_say (m : HostMsg) : Calm s (say s m) := .of_device (.of_say s m)

theorem Calm.of_discardMails : ∀ (l : List MboxMsg) (s : State), Calm s (l.foldl discardMail s)
  | [], s => .refl s
  | m :: t, s => (Calm.of_say s _).trans (Calm.of_discardMails t (discardMail s m))

theorem Calm.of_dropHeld : ∀ (l : List Nat) (s : State), Calm s (dropHeld l s)
  | [], s => .refl s
  | c :: t, s => by
    rw [dropHeld]
    refine Calm.trans ?_ (Calm.of_dropHeld t _)
    split
    · exact .refl s
    · have hset : Calm s (s.setCore c { s.core c with holding := [] }) := ⟨rfl, rfl, rfl, fun _ h => h⟩
      exact hset.trans (Calm.of_discardMails _ _)

/-- The launches of a record are forgotten. -/
theorem forgetLaunch_forgets (r : Nat) : Calm s (forgetLaunch s r) ∧ ∀ x ∈ (forgetLaunch s r).launches, x.record ≠ r := by
  obtain ⟨u, hu⟩ : ∃ u : State, u = { s with launches := s.launches.filter (fun l => l.record != r) } := ⟨_, rfl⟩
  obtain ⟨l, hl⟩ : ∃ l, forgetLaunch s r = dropHeld l u := ⟨_, by rw [hu]; rfl⟩
  have hdrop := Calm.of_dropHeld l u
  have hmem : ∀ x ∈ u.launches, x ∈ s.launches ∧ x.record ≠ r := fun x hx => by
    rw [hu] at hx
    obtain ⟨hx, hr⟩ := List.mem_filter.mp hx
    exact ⟨hx, by simpa using hr⟩
  rw [hl]
  refine ⟨⟨by rw [hdrop.recs, hu], by rw [hdrop.lifelines, hu], by rw [hdrop.attached, hu], fun x hx => (hmem x (hdrop.launches x hx)).1⟩,
    fun x hx => (hmem x (hdrop.launches x hx)).2⟩

theorem Calm.of_tellOver (r : Nat) (l : List Nat) (s : State) : Calm s (tellOver r l s) := by
  obtain ⟨F, hF, -⟩ := tellOver_frame r l s
  rw [hF]
  exact ⟨rfl, rfl, rfl, fun _ h => h⟩

theorem leaveLaunch_leaves (l : Launch) : Calm s (leaveLaunch s l) ∧ ∀ x ∈ (leaveLaunch s l).launches, x.record ≠ l.record := by
  obtain ⟨hcalm, hgone⟩ := forgetLaunch_forgets s l.record
  have hafter : Calm (forgetLaunch s l.record) (leaveLaunch s l) := by
    simp only [leaveLaunch]
    split
    · exact .refl _
    · split
      · exact ⟨rfl, rfl, rfl, fun _ h => h⟩
      · split
        · exact .of_tellOver _ _ _
        · exact ⟨rfl, rfl, rfl, fun _ h => h⟩
  exact ⟨hcalm.trans hafter, fun x hx => hgone x (hafter.launches x hx)⟩

theorem leaveLaunches_leave : ∀ (l : List Launch) (s : State), Calm s (leaveLaunches l s) ∧
    ∀ m ∈ l, ∀ x ∈ (leaveLaunches l s).launches, x.record ≠ m.record
  | [], s => ⟨.refl s, nofun⟩
  | m :: l, s => by
    obtain ⟨hm, hgone⟩ := leaveLaunch_leaves s m
    obtain ⟨hl, hrest⟩ := leaveLaunches_leave l (leaveLaunch s m)
    refine ⟨hm.trans hl, fun a ha x hx => ?_⟩
    rcases List.mem_cons.mp ha with rfl | ha
    · exact hgone x (hl.launches x hx)
    · exact hrest a ha x hx

theorem Calm.of_dropHandle (id : Nat) : Calm s (dropHandle s id) := by
  rw [dropHandle]
  split
  · exact .refl s
  · dsimp only
    split
    · exact Calm.trans (t := { s with objs := tdel s.objs id }) ⟨rfl, rfl, rfl, fun _ h => h⟩ (.of_device (reclaim_frame _ _ _))
    · exact ⟨rfl, rfl, rfl, fun _ h => h⟩

theorem Calm.of_closeSlots (ctx : Nat) : ∀ (l : List Nat) (s : State), Calm s (closeSlots ctx l s)
  | [], s => .refl s
  | slot :: t, s => by
    refine Calm.trans ?_ (Calm.of_closeSlots ctx t _)
    rw [closeSlot]
    split
    · exact .refl s
    · exact Calm.trans (t := s.setCtx ctx _) ⟨rfl, rfl, rfl, fun _ h => h⟩ (Calm.of_dropHandle _ _)

theorem dropTransAll_calm (ctx : Nat) (page : Option Nat) (l : List Nat) (s : State) :
    Calm s (dropTransAll ctx page l s) ∧ (dropTransAll ctx page l s).ctxs = s.ctxs ∧ (dropTransAll ctx page l s).holds = s.holds := by
  induction l generalizing s with
  | nil => exact ⟨.refl s, rfl, rfl⟩
  | cons g t ih =>
    obtain ⟨hcalm, hctxs, hholds⟩ := ih (dropTrans s ctx page g)
    exact ⟨Calm.trans (t := dropTrans s ctx page g) ⟨rfl, rfl, rfl, fun _ h => h⟩ hcalm, hctxs, hholds⟩

end

/-! ## A context without a job -/

/-- No core has a job of the context. -/
def NoJob (n : Nat) (s : State) : Prop := ∀ c, (s.core c).job = none ∨ (s.core c).ctx ≠ n

theorem NoJob.after (h : NoJob n s) (hw : Wanes n s t) : NoJob n t := by
  intro c
  cases hj : (t.core c).job with
  | none => exact .inl rfl
  | some j =>
    have hjs := hw.jobs c j hj
    rcases h c with hnone | hctx
    · rw [hnone] at hjs
      cases hjs
    · rw [job_ctx hjs] at hctx
      exact .inr (by rw [job_ctx hj]; exact hctx)

theorem coresOf_none (h : NoJob n s) : coresOf s n = [] := by
  rw [coresOf, List.filter_eq_nil_iff]
  intro c _
  rcases h c with hj | hctx
  · simp [hj]
  · simp [hctx]

theorem runningOf_none (h : NoJob n s) : runningOf s n = [] := by
  rw [runningOf, coresOf_none h]
  rfl

theorem length_ldel {α : Type} : ∀ (l : List α) {i : Nat}, i < l.length → (ldel l i).length + 1 = l.length
  | [], _, h => absurd h (by simp)
  | _ :: _, 0, _ => rfl
  | _ :: l, i + 1, h => congrArg (· + 1) (length_ldel l (Nat.lt_of_succ_lt_succ h))

/-- A hold of a context without a job ends: its report goes out. -/
theorem endHold_quiet {i : Nat} {h : Hold} (hno : NoJob n s) (hh : s.holds[i]? = some h) (hn : h.ctx = n) :
    Calm s (endHold s i) ∧ (endHold s i).holds = ldel s.holds i := by
  obtain ⟨cover, u, C, heq, hu, hcover⟩ := endHold_eq hh
  have hempty : cover = [] := List.eq_nil_iff_forall_not_mem.mpr fun d hd => by
    obtain ⟨hj, hctx⟩ := hcover d hd
    rcases hno d with hnone | hne
    · rw [hnone] at hj
      cases hj
    · exact hne (hctx.trans hn)
  have hcalm : Calm s u := Calm.trans (t := { s with holds := ldel s.holds i }) ⟨rfl, rfl, rfl, fun _ h => h⟩ (.of_device hu)
  rw [heq, hempty]
  exact ⟨hcalm.trans ⟨rfl, rfl, rfl, fun _ h => h⟩, (congrArg (a₁ := u.deviceOf { s with holds := ldel s.holds i }) State.holds hu.frame).trans rfl⟩

theorem endHolds_quiet : ∀ (f : Nat) {s : State}, NoJob n s → s.holds.length ≤ f →
    Calm s (endHolds n f s) ∧ ∀ x ∈ (endHolds n f s).holds, x.ctx ≠ n
  | 0, s, _, hf => ⟨.refl s, by simp [endHolds, List.length_eq_zero_iff.mp (Nat.le_zero.mp hf)]⟩
  | f + 1, s, hno, hf => by
    rw [endHolds]
    split
    · next i hi =>
      obtain ⟨hlt, hp, _⟩ := List.findIdx?_eq_some_iff_getElem.mp hi
      have hh := List.getElem?_eq_getElem hlt
      obtain ⟨hcalm, hholds⟩ := endHold_quiet hno hh (eq_of_beq hp)
      obtain ⟨hcalm', hnone⟩ := endHolds_quiet f (hno.after (Wanes.of_endHold hh (eq_of_beq hp)))
        (by rw [hholds]; have := length_ldel s.holds hlt; omega)
      exact ⟨hcalm.trans hcalm', hnone⟩
    · next hi =>
      refine ⟨.refl s, fun x hx hctx => ?_⟩
      rw [List.findIdx?_eq_none_iff] at hi
      simpa [hctx] using hi x hx

/-- A record of the context is no longer armed. -/
def Rec.disarmed (r : Rec) (n : Nat) : Rec := if r.ctx == n && r.armed then r.setD 0 (setField (r.d 0) 9 9 0) else r

theorem disarmed_spec (r : Rec) (n : Nat) (h : (r.disarmed n).armed = true) : (r.disarmed n).ctx ≠ n := by
  rw [Rec.disarmed] at h ⊢
  split at h
  · exfalso
    rw [Rec.armed, d_setD_self, flag, getLsbD_setField _ (lo := 9) (len := 1) (v := 0) (by decide) (by decide) (by decide)] at h
    simp at h
  · next hno =>
    rw [if_neg hno]
    intro hctx
    exact hno (by simp [hctx, h])

theorem leaving_recs (s : State) (n : Nat) : (leaving s n).recs = s.recs.map (fun p => (p.1, p.2.disarmed n)) := by
  obtain ⟨mine, hmine⟩ : ∃ l, l = s.launches.filter (fun l => (s.lrec l.record).ctx == n) := ⟨_, rfl⟩
  obtain ⟨C, hC⟩ := thawJobs_frame (mine.flatMap Launch.clusters).eraseDups s
  obtain ⟨R, hR⟩ := dropImages_frame mine (thawJobs (mine.flatMap Launch.clusters).eraseDups s)
  rw [leaving, ← hmine, hR, hC]
  exact (leaveLaunches_leave _ _).1.recs

/-- No record of the context is armed any more. -/
theorem leaving_disarms (s : State) (n m : Nat) (h : ((leaving s n).lrec m).armed = true) : ((leaving s n).lrec m).ctx ≠ n := by
  rw [State.lrec, leaving_recs, tget, tfind_map (fun r : Rec => r.disarmed n)] at h ⊢
  cases hf : tfind s.recs m with
  | none =>
    rw [hf] at h
    simp [Rec.armed, Rec.d, tget, tfind, flag] at h
  | some r =>
    rw [hf] at h
    exact disarmed_spec r n h

/-- What is left of a context once its ending is over. -/
structure CtxOver (n : Nat) (t : State) : Prop where
  dead : (t.ctx n).live = false
  endings : ∀ e ∈ t.endings, e.ctx ≠ n
  lifelines : ∀ f ∈ t.lifelines, f.ctx ≠ n
  attached : n ∉ t.attached
  launches : ∀ l ∈ t.launches, (t.lrec l.record).ctx ≠ n

theorem endLeft_spec (s : State) (n : Nat) : (endLeft s n).recs = s.recs ∧ (∀ f ∈ (endLeft s n).lifelines, f.ctx ≠ n) ∧
    n ∉ (endLeft s n).attached ∧ ∀ l ∈ (endLeft s n).launches, (s.lrec l.record).ctx ≠ n := by
  obtain ⟨hcalm, hgone⟩ := leaveLaunches_leave (launchesOf s n) s
  refine ⟨hcalm.recs, fun f hf => ?_, fun ha => ?_, fun l hl hctx => ?_⟩
  · simpa using (List.mem_filter.mp hf).2
  · simpa using (List.mem_filter.mp ha).2
  · have hmine : l ∈ launchesOf s n := List.mem_append_left _ (List.mem_filter.mpr ⟨hcalm.launches l hl, by simp [hctx]⟩)
    exact hgone l hmine l hl rfl

theorem endOver_spec (s : State) (n : Nat) : CtxOver n (endOver s n) ∧ (endOver s n).recs = s.recs ∧ (endOver s n).holds = s.holds := by
  obtain ⟨hrecs, hlife, hatt, hlaunch⟩ := endLeft_spec s n
  obtain ⟨v, hv⟩ : ∃ v, v = (endClosed s n).setCtx n ⟨false, [], [], ((endClosed s n).ctx n).gen⟩ := ⟨_, rfl⟩
  have hclosed : Calm (endLeft s n) v := by
    rw [hv]
    exact (Calm.of_closeSlots n _ _).trans ⟨rfl, rfl, rfl, fun _ h => h⟩
  have hdead : (v.ctx n).live = false := by
    rw [hv, State.ctx]
    exact congrArg Ctx.live (tget_tset_self _ _ _ _)
  obtain ⟨hdrop, hctxs, -⟩ := dropTransAll_calm n none (List.range 32) v
  have hrest : endRest s n = dropTransAll n none (List.range 32) v := by rw [hv, endRest_eq]
  have hpump : DeviceOnly (endRest s n) (endRest s n).pump := .of_pump _
  obtain ⟨w, hw⟩ : ∃ w, w = (endRest s n).pump := ⟨_, rfl⟩
  rw [← hw] at hpump
  have hcalm : Calm (endLeft s n) w := (hclosed.trans (hrest ▸ hdrop)).trans (.of_device hpump)
  have hover : endOver s n = { w with endings := w.endings.filter (fun x => x.ctx != n) } := by
    rw [hw]
    rfl
  have hleft : (endLeft s n).holds = s.holds := (Beside.of_leaveLaunches (launchesOf s n) s).holds
  have hbeside : Beside (endLeft s n) v := by
    rw [hv]
    exact (Beside.of_closeSlots _ _ _).trans .quiet
  have hholds : w.holds = s.holds := by
    rw [(Beside.of_device hpump).holds, hrest, (dropTransAll_calm n none (List.range 32) v).2.2, hbeside.holds, hleft]
  have hrecs' : w.recs = s.recs := hcalm.recs.trans hrecs
  rw [hover]
  refine ⟨⟨?_, fun e he => ?_, fun f hf => ?_, ?_, fun l hl => ?_⟩, hrecs', hholds⟩
  · refine (congrArg Ctx.live (hpump.ctx n)).trans ?_
    rw [hrest, State.ctx, hctxs]
    exact hdead
  · simpa using (List.mem_filter.mp he).2
  · exact hlife f (hcalm.lifelines ▸ hf)
  · exact hcalm.attached ▸ hatt
  · refine Eq.mp ?_ (hlaunch l (hcalm.launches l hl))
    rw [State.lrec, State.lrec, hrecs']

/-- A context without a job ends at once when its command comes. -/
theorem startEnd_over (s : State) (n : Nat) (h : HostHdr) (hno : NoJob n s) : ∃ t, startEnd s n (some h) = t ∧ CtxOver n t ∧
    .response h.seq 0 [] ∈ t.toHost.map HostOut.msg ∧ (∀ x ∈ t.holds, x.ctx ≠ n) ∧
    ∀ m, (t.lrec m).armed = true → (t.lrec m).ctx ≠ n := by
  obtain ⟨u, hu⟩ : ∃ u : State, u = { s with endings := s.endings ++ [⟨n, some h⟩] } := ⟨_, rfl⟩
  have hnou : NoJob n u := by
    rw [hu]
    exact hno
  have hbegin : beginEnd u n = leaving u n := by
    rw [beginEnd_leaving, runningOf_none hnou]
    rfl
  have hnov : NoJob n (leaving u n) := hnou.after (.of_beside (.of_leaving u n))
  obtain ⟨hcalm, hholds⟩ := endHolds_quiet (n := n) (leaving u n).holds.length hnov (Nat.le_refl _)
  have hnow := hnov.after (Wanes.of_endHolds n (leaving u n).holds.length (leaving u n))
  obtain ⟨w, hw⟩ : ∃ w, w = endHolds n (leaving u n).holds.length (leaving u n) := ⟨_, rfl⟩
  rw [← hw] at hcalm hholds hnow
  obtain ⟨hover, hrecs, hholds'⟩ := endOver_spec w n
  have hend : startEnd s n (some h) = respond (endOver w n) h 0 [] := by
    rw [startEnd, ← hu, hbegin, finishEnd_eq]
    dsimp only
    rw [runningOf_none hnov, ← hw, coresOf_none hnow]
    rfl
  have hafter : ∀ v : State, CtxOver n v → CtxOver n (respond v h 0 []) := fun v hv => ⟨hv.dead, hv.endings, hv.lifelines, hv.attached, hv.launches⟩
  refine ⟨_, hend, hafter _ hover, ?_, fun x hx => ?_, fun m hm => ?_⟩
  · exact List.mem_map.mpr ⟨_, List.mem_append_right _ (List.mem_singleton.mpr rfl), rfl⟩
  · exact hholds x (hholds' ▸ hx)
  · have hsame : (respond (endOver w n) h 0 []).lrec m = (leaving u n).lrec m := by
      rw [State.lrec, State.lrec, ← hcalm.recs, ← hrecs]
      rfl
    rw [hsame] at hm ⊢
    exact leaving_disarms u n m hm

end

end Sys2Proof.Machine
end

section
/-! SUPPORT. The obligation about the commands on memory, contexts and records (R404, R406, R407, R411, R431, R432). -/

namespace Sys2Proof.Machine

section
variable {s : State} {h : HostHdr} {n m : Nat}

/-! ## CTXNEW and CTXEND -/

theorem ctxnew_cmd (desc : List Word) : exec (.ctxnew h desc) s = hostCmd (.ctxnew h desc) h false false (fun s1 =>
    let n := field (desc.headD 0) 5 0
    if descBad s1 desc then respond s1 h 1 []
    else if (s1.ctx n).live then respond s1 h 5 []
    else respond (s1.setCtx n ⟨true, desc, [], (s1.ctx n).gen + 1⟩) h 0 []) s := rfl

theorem ctxnew_bad {desc : List Word} (hn : HostNext s h) (hr : s.recovery = false) (hbad : descBad s desc = true) :
    exec (.ctxnew h desc) s = .next ((s.hears h).replies h false 1 []) := by
  have hbad' : descBad (s.hears h) desc = true := hbad
  rw [ctxnew_cmd, hostCmd_acts hn (.inl hr), hbad', if_pos rfl]
  rfl

/-- A descriptor of a gauge context is refused without the feature bit of gauge mode. -/
theorem descBad_gauge {desc : List Word} (hg : (desc.getD 0 0).getLsbD 8 = true) (ha : s.accepted.getLsbD 0 = false) :
    descBad s desc = true := by
  have hgauge : (Ctx.gauge ⟨true, desc, [], 0⟩) = true := hg
  simp only [descBad, hgauge, ha, Bool.not_false, Bool.and_self, Bool.or_true, Bool.true_or]

/-- The ending of a context goes on with its command while a job of it runs. -/
theorem ctxend_waits {c : Nat} (he : ∃ e ∈ s.endings, e.ctx = n ∧ ∃ p, e.command = some ⟨h.seq, p⟩) (hj : (s.core c).job ≠ none)
    (hctx : (s.core c).ctx = n) (hheld : (s.core c).held = false) : exec (.ctxend h n) s = .next s := by
  obtain ⟨e, hmem, hen, p, hcmd⟩ := he
  obtain ⟨j, hj⟩ := Option.ne_none_iff_exists'.mp hj
  have hrun : (runningOf s n).isEmpty = false := by
    rw [List.isEmpty_eq_false_iff_exists_mem]
    rw [job_ctx hj] at hctx
    exact ⟨c, hctx ▸ mem_runningOf hj hheld⟩
  obtain ⟨f, hf⟩ : ∃ f, s.endings.find? (fun e => e.ctx == n && goesOn s h e) = some f := by
    refine Option.isSome_iff_exists.mp (List.find?_isSome.mpr ⟨e, hmem, ?_⟩)
    simp [hen, goesOn, hcmd]
  have hfn : f.ctx = n := by
    have := List.find?_some hf
    simp only [Bool.and_eq_true, beq_iff_eq] at this
    exact this.1
  change execCtxend h n s = _
  rw [execCtxend, hf]
  dsimp only
  rw [finishEnd_eq, hfn, hrun]
  rfl

theorem ctxend_begins (hn : HostNext s h) (hr : s.recovery = false) (hnone : ∀ e ∈ s.endings, e.ctx ≠ n) :
    exec (.ctxend h n) s = .next (if !(s.ctx n).live then (s.hears h).replies h false 1 [] else startEnd (s.hears h) n (some h)) := by
  have hfind : (s.hears h).endings.find? (fun e => e.ctx == n) = none := by
    rw [List.find?_eq_none]
    intro e he
    simpa using hnone e he
  rw [ctxend_cmd hnone, hostCmd_acts hn (.inl hr), endBy, hfind]
  rfl

/-! ## RECW and RECARM -/

theorem recw_cmd (dwords : List Word) : exec (.recw h m dwords) s = hostCmd (.recw h m dwords) h false false (fun s1 =>
    if 4095 < m || dwords.length ≠ 32 then respond s1 h 1 []
    else if (s1.lrec m).armed then respond s1 h 2 []
    else respond (s1.setLrec m (writtenRec (s1.lrec m) dwords)) h 0 []) s := rfl

/-- A table that lists the words that are not 0. -/
theorem tget_nonzero (l : List Word) (k : Nat) : tget ((l.mapIdx (fun k w => (k, w))).filter (fun p => p.2 != 0)) k 0 = l.getD k 0 := by
  obtain ⟨T, hT⟩ : ∃ T, T = (l.mapIdx (fun k w => (k, w))).filter (fun p => p.2 != 0) := ⟨_, rfl⟩
  have hmem : ∀ v, (k, v) ∈ T ↔ l[k]? = some v ∧ v ≠ 0 := by
    intro v
    rw [hT, List.mem_filter, List.mem_mapIdx]
    constructor
    · rintro ⟨⟨i, hi, heq⟩, hv⟩
      obtain ⟨rfl, rfl⟩ := Prod.mk.inj heq
      exact ⟨List.getElem?_eq_getElem hi, by simpa using hv⟩
    · rintro ⟨hk, hv⟩
      obtain ⟨hi, hk⟩ := List.getElem?_eq_some_iff.mp hk
      exact ⟨⟨k, hi, by rw [hk]⟩, by simpa using hv⟩
  rw [← hT, List.getD_eq_getElem?_getD]
  by_cases h : ∃ v, l[k]? = some v ∧ v ≠ 0
  · obtain ⟨v, hk, hv⟩ := h
    rw [tget_of_mem ((hmem v).mpr ⟨hk, hv⟩) fun v' hv' => Option.some.inj (((hmem v').mp hv').1.symm.trans hk), hk]
    rfl
  · have hnone : tfind T k = none := by
      cases hf : tfind T k with
      | none => rfl
      | some v => exact absurd ⟨v, (hmem v).mp (tfind_mem hf)⟩ h
    rw [tget, hnone]
    cases hk : l[k]? with
    | none => rfl
    | some v =>
      by_contra hv
      exact h ⟨v, hk, fun h0 => hv (by rw [h0]; rfl)⟩

/-- The dwords of a record that the host has written. -/
theorem writtenRec_spec {r : Rec} {dwords : List Word} (ha : r.armed = false) :
    (writtenRec r dwords).built = true ∧ (writtenRec r dwords).armed = false ∧ (writtenRec r dwords).d 14 = r.d 14 ∧
      (∀ k < 32, k ≠ 0 → k ≠ 14 → (writtenRec r dwords).d k = dwords.getD k 0) ∧
      ∀ b < 64, b ≠ 8 → b ≠ 9 → ((writtenRec r dwords).d 0).getLsbD b = (dwords.getD 0 0).getLsbD b := by
  have hfield : field (r.d 0) 9 9 = 0 := (field_eq_zero_iff _ _ _).mpr fun n h1 h2 => by
    obtain rfl : n = 9 := by omega
    exact ha
  have hzero : (writtenRec r dwords).d 0 = setField (dwords.headD 0) 9 8 1 := by
    rw [writtenRec, d_setD_ne _ _ (by decide), d_setD_self, hfield]
  have hbit : ∀ b < 64, ((writtenRec r dwords).d 0).getLsbD b = if 8 ≤ b ∧ b < 10 then Nat.testBit 1 (b - 8) else (dwords.headD 0).getLsbD b :=
    fun b hb => by rw [hzero]; exact getLsbD_setField _ (lo := 8) (len := 2) (v := 1) (by decide) (by decide) hb
  have hhead : dwords.headD 0 = dwords.getD 0 0 := by cases dwords <;> rfl
  refine ⟨?_, ?_, d_setD_self _ _ _, fun k hk h0 h14 => ?_, fun b hb h8 h9 => ?_⟩
  · rw [Rec.built, flag, hbit 8 (by decide)]
    rfl
  · rw [Rec.armed, flag, hbit 9 (by decide)]
    rfl
  · rw [writtenRec, d_setD_ne _ _ h14, d_setD_ne _ _ h0]
    exact tget_nonzero dwords k
  · rw [hbit b hb, if_neg (by omega), hhead]

theorem recarm_cmd : exec (.recarm h m) s = hostCmd (.recarm h m) h false false (fun s1 =>
    if 4095 < m then respond s1 h 3 [0x02]
    else match armAct s1 m with
      | .error _ => respond s1 h 3 [0x39]
      | .ok (st, s2) => respond s2 h st []) s := by
  change execRecarm h m s = _
  rw [execRecarm] <;> rfl

section
variable (hn : HostNext s h) (hr : s.recovery = false)
include hn hr

/-- A record that the host writes. -/
theorem recw_writes {dwords : List Word} (hm : m ≤ 4095) (hl : dwords.length = 32) (ha : (s.lrec m).armed = false) :
    ∃ t, exec (.recw h m dwords) s = .next t ∧ t.lrec m = writtenRec (s.lrec m) dwords ∧ (∀ k, k ≠ m → t.lrec k = s.lrec k) ∧
      { t with recs := s.recs } = (s.hears h).replies h false 0 [] := by
  refine ⟨respond ((s.hears h).setLrec m (writtenRec (s.lrec m) dwords)) h 0 [], ?_, lrec_setLrec_self _ _ _,
    fun k hk => lrec_setLrec_ne (s.hears h) _ hk, rfl⟩
  have hguard : ((s.hears h).lrec m).armed = false := ha
  rw [recw_cmd, hostCmd_acts hn (.inl hr), if_neg (by simp [hl]; omega), hguard, if_neg Bool.false_ne_true]
  rfl

theorem recarm_arms (hm : m ≤ 4095) (ha : (s.lrec m).armed = false) (hb : recordBad s m (s.lrec m) = none)
    (hg : (s.lrec m).gauge = true → admits s (s.lrec m) = true) : ∃ t, exec (.recarm h m) s = .next t ∧ Arms s t m ∧
      { t with recs := s.recs, arms := s.arms } = (s.hears h).replies h false 0 [] := by
  have harms := armRecord_arms (s.hears h) m
  refine ⟨respond (armRecord (s.hears h) m) h 0 [], ?_, ⟨harms.armed, harms.arms, harms.completions, harms.order, harms.ctx, harms.others⟩, rfl⟩
  have hact : armAct (s.hears h) m = .ok (0, armRecord (s.hears h) m) := armAct_arms (s := s.hears h) ha hb hg
  rw [recarm_cmd, hostCmd_acts hn (.inl hr), if_neg (by omega), hact]

theorem recarm_answers {st : Nat} (hm : m ≤ 4095) (hact : armAct (s.hears h) m = .ok (st, s.hears h)) :
    exec (.recarm h m) s = .next ((s.hears h).replies h false st []) := by
  rw [recarm_cmd, hostCmd_acts hn (.inl hr), if_neg (by omega), hact]
  rfl

theorem recarm_bad {j : Nat} (hm : m ≤ 4095) (hact : armAct (s.hears h) m = .error j) :
    exec (.recarm h m) s = .next ((s.hears h).replies h false 3 [0x39]) := by
  rw [recarm_cmd, hostCmd_acts hn (.inl hr), if_neg (by omega), hact]
  rfl

end

end

section
variable {s : State} {h : HostHdr}

theorem virtSegs_hears (h : HostHdr) (c : Nat) (use : Use) : ∀ l, virtSegs (s.hears h) c use l = virtSegs s c use l
  | [] => rfl
  | (va, n) :: l => by
    have hwalk : walk (s.hears h) c (va % 2 ^ 57) = walk s c (va % 2 ^ 57) := rfl
    rw [virtSegs, virtSegs, hwalk, virtSegs_hears h c use l]
    rfl

theorem hostSegs_hears (h : HostHdr) (use : Use) (n : Nat) (addr : HostAddr) : hostSegs (s.hears h) use n addr = hostSegs s use n addr := by
  cases addr with
  | phys pa => rfl
  | virt c va =>
    rw [hostSegs, hostSegs, virtSegs_hears]
    rfl

/-- MEMW and MEMR as their messages come. -/
theorem memory_commands (hr : s.recovery = false) (hn : HostNext s h) (hw : waitingOp s h true = none) (hw' : waitingOp s h false = none)
    (addr : HostAddr) (data : List Byte) (n : Nat) (hlen : n = data.length) (hmax : n ≤ 65526) :
    (∀ g, hostSegs s .write n addr = .ok [g] → exec (.memw h addr data) s = .next { walkedHost (s.hears h) .write n addr with
      ops := s.ops ++ [⟨s.nextDev, h.seq, h.port, true, [g], data, false, true⟩], nextDev := s.nextDev + 1 }) ∧
    (∀ g, hostSegs s .read n addr = .ok [g] → exec (.memr h addr n) s = .next { walkedHost (s.hears h) .read n addr with
      ops := s.ops ++ [⟨s.nextDev, h.seq, h.port, false, [g], [], false, true⟩], nextDev := s.nextDev + 1 }) ∧
    (∀ st l, hostSegs s .write n addr = .error (st, l) →
      exec (.memw h addr data) s = .next ((walkedHost (s.hears h) .write n addr).replies h true st l)) ∧
    ∀ st l, hostSegs s .read n addr = .error (st, l) →
      exec (.memr h addr n) s = .next ((walkedHost (s.hears h) .read n addr).replies h true st l) := by
  subst hlen
  have hsegs : ∀ use, hostSegs (s.hears h) use data.length addr = hostSegs s use data.length addr := fun use => hostSegs_hears h use _ _
  obtain ⟨hwok, hwbad⟩ := memw_acts (addr := addr) hn hr hw hmax
  obtain ⟨hrok, hrbad⟩ := memr_acts (addr := addr) hn hr hw' (Nat.le_trans hmax (by decide))
  simp only [hsegs] at hwok hwbad hrok hrbad
  exact ⟨hwok, hrok, hwbad, hrbad⟩

end

/-- Settles O54, command by command. -/
theorem hostCommands : Obligations.HostCommands := by
  intro s h hr
  dsimp only
  refine ⟨fun hn hw hw' addr data n hlen hmax => ?_, fun op g addr data n hw hseg hhome hans hnone => ⟨fun hwr hlen hwf => ⟨fun hok => ?_, fun hbad => ?_⟩,
      fun hwr => ⟨fun hok => ?_, fun cause hbad => ?_⟩⟩,
    fun hn desc => ⟨fun hbad => ?_, fun _ hg ha => ?_, fun hok hl => ?_, fun hok hl => ?_⟩,
    fun hn n hnone => ⟨fun hl => ?_, fun hl => ?_⟩, fun n c he hj hctx hheld => ctxend_waits he hj hctx hheld,
    fun hn m dwords => ⟨fun hbad => ?_, fun hm hl ha => ?_, fun hm hl ha => ?_, fun hm => ?_, fun hm ha => ?_, fun j hm ha hb => ?_,
      fun hm ha hb => ⟨fun hg had => ?_, fun hg => ?_⟩⟩⟩
  · obtain ⟨hwok, hrok, hwbad, hrbad⟩ := memory_commands hr hn hw hw' addr data n hlen hmax
    refine ⟨fun pa haddr ha hend => ?_, fun c va tr haddr hl hpos hcan hone hwalk hpkg hrep hend => ?_, fun pa haddr hbad => ?_,
      fun c va haddr hl => ?_, fun c va cause haddr hl hpos hbad => ?_⟩
    all_goals subst haddr
    · exact ⟨hwok _ (hostSegs_phys ha hend), hrok _ (hostSegs_phys ha hend)⟩
    · have hva : va.toNat % 2 ^ 64 = va.toNat := Nat.mod_eq_of_lt va.isLt
      have hsegs : ∀ use, hostSegs s use n (.virt c va) = if tr.attr.refuses use then .error (faultStatus 0x11)
          else .ok [⟨.local, tr.pa (va.toNat % 2 ^ 57), n, tr.attr, va.toNat % 2 ^ 57, none⟩] := fun use => by
        rw [hostSegs_virt hl, splitPages_one hpos hone, hva, virtSegs_one hcan hwalk hpkg hend]
      refine ⟨fun hwritable => hwok _ ?_, fun hwritable => hwbad 3 [0x11] ?_, hrok _ ?_⟩
      · rw [hsegs, if_neg (by simp [Attr.refuses, hwritable, hrep])]
      · rw [hsegs, if_pos (by simp [Attr.refuses, hwritable])]
        rfl
      · rw [hsegs, if_neg (by simp [Attr.refuses])]
    · exact ⟨hwbad _ _ (hostSegs_phys_bad hbad), hrbad _ _ (hostSegs_phys_bad hbad)⟩
    · have hwalked : ∀ use, walkedHost (s.hears h) use n (.virt c va) = s.hears h := fun use => by
        rw [walkedHost, if_pos (by rw [show (s.hears h).ctx c = s.ctx c from rfl, hl]; rfl)]
      have h1 := hwbad _ _ (hostSegs_dead hl)
      have h2 := hrbad _ _ (hostSegs_dead hl)
      rw [hwalked] at h1 h2
      exact ⟨h1, h2⟩
    · have hva : va.toNat % 2 ^ 64 = va.toNat := Nat.mod_eq_of_lt va.isLt
      have hsegs : ∀ use, hostSegs s use n (.virt c va) = .error (3, [BitVec.ofNat 8 cause]) := fun use => by
        obtain ⟨m, r, hfirst⟩ := splitPages_first (f := n / 0x4000 + 1) (va := va.toNat) hpos
        rw [hostSegs_virt hl, hfirst, hva, virtSegs_refused hbad]
      exact ⟨hwbad _ _ (hsegs _), hrbad _ _ (hsegs _)⟩
  · rw [hwr] at hw
    obtain ⟨hends, hmem⟩ := performOp_writes hseg hhome hans hnone hwr hlen hwf hok
    exact ⟨_, memw_performs hw, hends, hmem⟩
  · rw [hwr] at hw
    obtain ⟨hends, hmem⟩ := performOp_refused hseg hhome hans hnone hwr hbad
    exact ⟨_, memw_performs hw, hends, hmem⟩
  · rw [hwr] at hw
    obtain ⟨hends, hmem⟩ := (performOp_reads hseg hhome hans hnone hwr).1 hok
    exact ⟨_, memr_performs hw, hends, hmem⟩
  · rw [hwr] at hw
    obtain ⟨hends, hmem⟩ := (performOp_reads hseg hhome hans hnone hwr).2 cause hbad
    exact ⟨_, memr_performs hw, hends, hmem⟩
  · exact ctxnew_bad hn hr hbad
  · exact ctxnew_bad hn hr (descBad_gauge hg ha)
  · have hbad : descBad (s.hears h) desc = false := hok
    have hlive : ((s.hears h).ctx (field (desc.headD 0) 5 0)).live = true := hl
    rw [ctxnew_cmd, hostCmd_acts hn (.inl hr), hbad, if_neg Bool.false_ne_true, hlive, if_pos rfl]
    rfl
  · have hbad : descBad (s.hears h) desc = false := hok
    have hlive : ((s.hears h).ctx (field (desc.headD 0) 5 0)).live = false := hl
    rw [ctxnew_cmd, hostCmd_acts hn (.inl hr), hbad, if_neg Bool.false_ne_true, hlive, if_neg Bool.false_ne_true]
    rfl
  · rw [ctxend_begins hn hr hnone, hl]
    rfl
  · obtain ⟨u, hu⟩ : ∃ u, u = s.hears h := ⟨_, rfl⟩
    have hcore : ∀ c, u.core c = s.core c := fun c => by rw [hu]; rfl
    have hgo : exec (.ctxend h n) s = .next (startEnd u n (some h)) := by
      rw [ctxend_begins hn hr hnone, hl, if_neg (by decide), hu]
    refine ⟨_, hgo, fun c j hj hctx hheld => ?_, fun hno => ?_⟩
    · have hdone := startEnd_done (s := u) (some h) ((hcore c).symm ▸ hj) ((hcore c).symm ▸ hheld)
      rw [hctx] at hdone
      exact hdone.imp_right And.right
    · have hnou : NoJob n u := fun c => by rw [hcore]; exact hno c
      obtain ⟨t, ht, hover, htold, hholds, harmed⟩ := startEnd_over u n h hnou
      rw [ht]
      exact ⟨hover.dead, hover.endings, htold, hover.lifelines, hholds, hover.attached, harmed, hover.launches⟩
  · rw [recw_cmd, hostCmd_acts hn (.inl hr), if_pos (by simpa using hbad)]
    rfl
  · have hguard : ((s.hears h).lrec m).armed = true := ha
    rw [recw_cmd, hostCmd_acts hn (.inl hr), if_neg (by simp [hl]; omega), hguard, if_pos rfl]
    rfl
  · obtain ⟨t, hgo, hrec, hothers, hrest⟩ := recw_writes hn hr hm hl ha
    obtain ⟨hbuilt, harmed, h14, hd, h0⟩ := writtenRec_spec (dwords := dwords) ha
    rw [← hrec] at hbuilt harmed h14 hd h0
    exact ⟨t, hgo, hbuilt, harmed, h14, hd, h0, hothers, hrest⟩
  · rw [recarm_cmd, hostCmd_acts hn (.inl hr), if_pos hm]
    rfl
  · exact recarm_answers hn hr hm (armAct_armed (s := s.hears h) ha)
  · exact recarm_bad hn hr hm (armAct_bad (s := s.hears h) ha hb)
  · exact recarm_answers hn hr hm (armAct_refused (s := s.hears h) ha hb hg had)
  · obtain ⟨t, hgo, harms, hrest⟩ := recarm_arms hn hr hm ha hb hg
    exact ⟨t, hgo, harms.armed, harms.arms, harms.completions, harms.order, harms.others, hrest⟩

end Sys2Proof.Machine
end

section
/-! SUPPORT. The debugger's commands, and reset (R379, R398, R426, R437 to R439). -/

namespace Sys2Proof.Machine

/-! ## Reset -/

theorem warmReset_restarts (s : State) : warmReset s = s.restarted (!slotGood s.flash 0 && !slotGood s.flash 1)
    (if slotGood s.flash 0 = false ∧ slotGood s.flash 1 = true then 1 else 0) := by
  have hslot : (if !slotGood s.flash 0 && slotGood s.flash 1 then 1 else 0) =
      if slotGood s.flash 0 = false ∧ slotGood s.flash 1 = true then 1 else 0 := if_congr (by simp) rfl rfl
  rw [warmReset, hslot]
  rfl

/-! ## The end of holds leaves the debuggers (R379) -/

theorem tryEndJob_attached (s : State) (d : Nat) : (tryEndJob s d).attached = s.attached := by
  cases hj : (s.core d).job with
  | none => rw [tryEndJob_stays (.inl hj)]
  | some j =>
    cases hes : ((s.core d).allEnded && (s.core d).settled) with
    | false => rw [tryEndJob_stays (.inr hes)]
    | true =>
      rw [Bool.and_eq_true] at hes
      obtain ⟨u, hsu, hut⟩ := tryEndJob_ends hj hes.1 hes.2
      exact hut.attached.trans hsu.attached

theorem killJob_attached (s : State) (d : Nat) : (killJob s d).attached = s.attached := by
  rw [killJob]
  split
  · rfl
  · exact tryEndJob_attached _ d

theorem killJobs_attached : ∀ (l : List Nat) (s : State), (killJobs l s).attached = s.attached
  | [], _ => rfl
  | d :: l, s => (killJobs_attached l (killJob s d)).trans (killJob_attached s d)

theorem endHold_rest {s : State} {i : Nat} {h : Hold} (hh : s.holds[i]? = some h) :
    (endHold s i).attached = s.attached ∧ (endHold s i).holds = ldel s.holds i := by
  obtain ⟨cover, u, C, heq, hu, -⟩ := endHold_eq hh
  rw [heq]
  exact ⟨(killJobs_attached _ _).trans hu.attached, (killJobs_beside _ _).2.trans (Beside.of_device hu).holds⟩

/-- Every hold of the context ends, and the debuggers stay. -/
theorem endHolds_end (n : Nat) : ∀ (f : Nat) {s : State}, s.holds.length ≤ f →
    (endHolds n f s).attached = s.attached ∧ ∀ x ∈ (endHolds n f s).holds, x.ctx ≠ n
  | 0, s, hf => ⟨rfl, by simp [endHolds, List.length_eq_zero_iff.mp (Nat.le_zero.mp hf)]⟩
  | f + 1, s, hf => by
    rw [endHolds]
    split
    · next i hi =>
      obtain ⟨hlt, -, -⟩ := List.findIdx?_eq_some_iff_getElem.mp hi
      obtain ⟨hatt, hholds⟩ := endHold_rest (List.getElem?_eq_getElem hlt)
      obtain ⟨hatt', hnone⟩ := endHolds_end n f (s := endHold s i) (by rw [hholds]; have := length_ldel s.holds hlt; omega)
      exact ⟨hatt'.trans hatt, hnone⟩
    · next hi =>
      refine ⟨rfl, fun x hx hctx => ?_⟩
      rw [List.findIdx?_eq_none_iff] at hi
      simpa [hctx] using hi x hx

/-! ## A stop of streams -/

theorem pc_saved (t : Stream) : t.saved.pc = t.pc := by
  obtain ⟨run, pc, status, cause, epc, tval, tvec, tscr, qflags, npdef, dph, regs, empty, loops, pend, late, taken, at_, stood, wants⟩ := t
  cases at_ <;> rfl

theorem saved_free {t : Stream} (hfree : t.at_ = .free) (hstood : t.stood = none) : t.saved = t := by
  obtain ⟨run, pc, status, cause, epc, tval, tvec, tscr, qflags, npdef, dph, regs, empty, loops, pend, late, taken, at_, stood, wants⟩ := t
  dsimp only at hfree hstood
  subst hfree
  subst hstood
  rfl

theorem saved_idle {t : Stream} {m : Nat} (h : t.at_ = .idle m) : t.saved.at_ = .free ∧ t.saved.run = .running := by
  rw [Stream.saved, h]
  exact ⟨rfl, rfl⟩

theorem saved_awaiting {t : Stream} {m : Word} (h : t.at_ = .awaiting m) : t.saved.at_ = .free ∧ t.saved.run = .running := by
  rw [Stream.saved, h]
  exact ⟨rfl, rfl⟩

/-- A core waits for a name. -/
def Awaits (s : State) (c : Nat) (m : Word) : Prop := (s.core c).a.at_ = .awaiting m

/-- Each stream that a name had waited for no longer stands at it. -/
structure WaitStops (l : List Nat) (s t : State) : Prop where
  frame : ∃ E C, t = { s with entries := E, cores := C }
  entries : ∀ x ∈ t.entries, ∃ y ∈ s.entries, ∀ w ∈ x.waiters, w ∈ y.waiters
  others : ∀ d, (∀ m, ¬ Awaits s d m) → t.core d = s.core d
  stopped : ∀ d ∈ l, ∀ m, Awaits s d m → (t.core d).a.at_ = .free ∧ (t.core d).a.run = .running ∧ ∀ x ∈ t.entries, d ∉ x.waiters
  rest : ∀ d, d ∉ l → t.core d = s.core d

theorem WaitStops.refl (s : State) : WaitStops [] s s :=
  ⟨⟨s.entries, s.cores, rfl⟩, fun x hx => ⟨x, hx, fun _ h => h⟩, fun _ _ => rfl, nofun, fun _ _ => rfl⟩

theorem unwait_entries (s : State) (c : Nat) : ∀ x ∈ (unwait s c).entries, c ∉ x.waiters ∧ ∃ y ∈ s.entries, ∀ w ∈ x.waiters, w ∈ y.waiters := by
  intro x hx
  obtain ⟨y, hy, rfl⟩ := List.mem_map.mp (List.mem_filter.mp hx).1
  exact ⟨fun hw => by simpa using (List.mem_filter.mp hw).2, y, hy, fun w hw => (List.mem_filter.mp hw).1⟩

theorem WaitStops.of_stopWaiter (s : State) (c : Nat) : WaitStops [c] s (stopWaiter s c) := by
  rw [stopWaiter]
  split
  · next m hat =>
    obtain ⟨v, hv⟩ : ∃ v, v = unwait s c := ⟨_, rfl⟩
    have hcore : ∀ d, v.core d = s.core d := fun d => by rw [hv]; rfl
    dsimp only
    rw [← hv]
    refine ⟨⟨v.entries, _, by rw [hv]; rfl⟩, fun x hx => ?_, fun d hd => ?_, fun d hd m' _ => ?_, fun d hd => ?_⟩
    · rw [hv] at hx
      exact (unwait_entries s c x hx).2
    · rw [State.core_setCore_ne _ _ fun h => hd m (by rw [Awaits, h]; exact hat), hcore]
    · obtain rfl := List.mem_singleton.mp hd
      rw [State.core_setCore_self]
      obtain ⟨hfree, hrun⟩ := saved_awaiting (t := (v.core d).a) (m := m) (by rw [hcore]; exact hat)
      refine ⟨hfree, hrun, fun x hx => ?_⟩
      have hx' : x ∈ v.entries := hx
      rw [hv] at hx'
      exact (unwait_entries s d x hx').1
    · rw [State.core_setCore_ne _ _ (fun h => hd (List.mem_singleton.mpr h)), hcore]
  · next hno =>
    exact ⟨⟨s.entries, s.cores, rfl⟩, fun x hx => ⟨x, hx, fun _ h => h⟩, fun _ _ => rfl,
      fun d hd m hat => absurd (List.mem_singleton.mp hd ▸ hat) (hno m), fun _ _ => rfl⟩

theorem WaitStops.of_stopWaiters : ∀ (l : List Nat) (s : State), WaitStops l s (stopWaiters l s)
  | [], s => .refl s
  | c :: l, s => by
    have hc := WaitStops.of_stopWaiter s c
    have hl := WaitStops.of_stopWaiters l (stopWaiter s c)
    obtain ⟨E, C, hframe⟩ := hc.frame
    obtain ⟨E', C', hframe'⟩ := hl.frame
    have hnot : ∀ d, (stopWaiter s c).core d = s.core d → (∀ m, ¬ Awaits s d m) → ∀ m, ¬ Awaits (stopWaiter s c) d m := by
      intro d hd hno m
      rw [Awaits, hd]
      exact hno m
    refine ⟨⟨E', C', by rw [stopWaiters, hframe', hframe]⟩, fun x hx => ?_, fun d hd => ?_, fun d hd m hat => ?_, fun d hd => ?_⟩
    · obtain ⟨y, hy, hxy⟩ := hl.entries x hx
      obtain ⟨z, hz, hyz⟩ := hc.entries y hy
      exact ⟨z, hz, fun w hw => hyz w (hxy w hw)⟩
    · exact (hl.others d (hnot d (hc.others d hd) hd)).trans (hc.others d hd)
    · by_cases hdc : d = c
      · subst hdc
        obtain ⟨hfree, hrun, hent⟩ := hc.stopped d (List.mem_singleton.mpr rfl) m hat
        have hsame := hl.others d fun m' hat' => by
          rw [Awaits, hfree] at hat'
          cases hat'
        rw [stopWaiters, hsame]
        refine ⟨hfree, hrun, fun x hx hw => ?_⟩
        obtain ⟨y, hy, hxy⟩ := hl.entries x hx
        exact hent y hy (hxy d hw)
      · have hsame := hc.rest d fun h => hdc (List.mem_singleton.mp h)
        refine hl.stopped d ((List.mem_cons.mp hd).resolve_left hdc) m ?_
        rw [Awaits, hsame]
        exact hat
    · obtain ⟨hdc, hdl⟩ := not_or.mp (mt List.mem_cons.mpr hd)
      exact (hl.rest d hdl).trans (hc.rest d fun h => hdc (List.mem_singleton.mp h))

section
variable {s : State} {h : HostHdr} {n c : Nat} {i : Instr} {act : State → State}

/-! ## What a debugger's command answers at once -/

theorem debugCmd_acts (hn : HostNext s h) (hr : s.recovery = false) : debugCmd i h n act s =
    .next (if (s.ctx n).live = false then (s.hears h).replies h false 1 [] else act (s.hears h)) := by
  rw [debugCmd, hostCmd_acts hn (.inl hr)]
  refine congrArg _ (if_congr ?_ rfl rfl)
  simp
  rfl

theorem debugJob_acts (hn : HostNext s h) (hr : s.recovery = false) : debugJob i h n c act s = .next (
    if (s.ctx n).live = false ∨ 512 ≤ c ∨ (s.core c).job = none ∨ (s.core c).ctx ≠ n then (s.hears h).replies h false 1 []
    else act (s.hears h)) := by
  rw [debugJob, debugCmd_acts hn hr]
  have hguard : (!coreExists c || ((s.hears h).core c).job.isNone || ((s.hears h).core c).ctx != n) = true ↔
      512 ≤ c ∨ (s.core c).job = none ∨ (s.core c).ctx ≠ n := by
    simp only [coreExists, Bool.or_eq_true, Bool.not_eq_true', decide_eq_false_iff_not, Option.isNone_iff_eq_none, bne_iff_ne, or_assoc,
      Nat.not_lt]
    rfl
  by_cases hl : (s.ctx n).live = false
  · rw [if_pos hl, if_pos (.inl hl)]
  · rw [if_neg hl]
    dsimp only
    by_cases hg : 512 ≤ c ∨ (s.core c).job = none ∨ (s.core c).ctx ≠ n
    · rw [if_pos (hguard.mpr hg), if_pos (.inr hg)]
      rfl
    · rw [if_neg (mt hguard.mp hg), if_neg (not_or.mpr ⟨hl, hg⟩)]

/-- The commands about the job of a core. -/
def jobCmds (h : HostHdr) (n c : Nat) (item : DebugItem) (v : Vec) : List Instr :=
  [.debugStop h n c, .debugResume h n c, .debugReadState h n c item, .debugWriteState h n c item v]

theorem jobCmds_act {item : DebugItem} {v : Vec} (hi : i ∈ jobCmds h n c item v) : ∃ act, ∀ s, exec i s = debugJob i h n c act s := by
  simp only [jobCmds, List.mem_cons, List.not_mem_nil, or_false] at hi
  rcases hi with rfl | rfl | rfl | rfl <;> exact ⟨_, fun _ => rfl⟩

theorem attach_cmd : exec (.debugAttach h n) s = debugCmd (.debugAttach h n) h n (fun s1 =>
    respond { s1 with attached := if s1.attached.contains n then s1.attached else n :: s1.attached } h 0 []) s := rfl

theorem detach_cmd : exec (.debugDetach h n) s = debugCmd (.debugDetach h n) h n (fun s1 =>
    if !s1.attached.contains n then respond s1 h 1 []
    else
      let s2 : State := { s1 with attached := s1.attached.filter (fun m => m != n) }
      respond (endHolds n s2.holds.length s2) h 0 []) s := rfl

section
variable (hn : HostNext s h) (hr : s.recovery = false)
include hn hr

theorem debug_dead {item : DebugItem} {v : Vec} (hl : (s.ctx n).live = false)
    (hi : i ∈ [Instr.debugAttach h n, .debugDetach h n] ++ jobCmds h n c item v) :
    exec i s = .next ((s.hears h).replies h false 1 []) := by
  rcases List.mem_append.mp hi with hi | hi
  · simp only [List.mem_cons, List.not_mem_nil, or_false] at hi
    rcases hi with rfl | rfl
    · rw [attach_cmd, debugCmd_acts hn hr, if_pos hl]
    · rw [detach_cmd, debugCmd_acts hn hr, if_pos hl]
  · obtain ⟨act, hact⟩ := jobCmds_act hi
    rw [hact, debugJob_acts hn hr, if_pos (.inl hl)]

theorem debug_noJob {item : DebugItem} {v : Vec} (hg : 512 ≤ c ∨ (s.core c).job = none ∨ (s.core c).ctx ≠ n) (hi : i ∈ jobCmds h n c item v) :
    exec i s = .next ((s.hears h).replies h false 1 []) := by
  obtain ⟨act, hact⟩ := jobCmds_act hi
  rw [hact, debugJob_acts hn hr, if_pos (.inr hg)]

theorem attach_attaches (hl : (s.ctx n).live = true) : ∃ t, exec (.debugAttach h n) s = .next t ∧
    (∀ m, m ∈ t.attached ↔ m = n ∨ m ∈ s.attached) ∧ { t with attached := s.attached } = (s.hears h).replies h false 0 [] := by
  refine ⟨_, by rw [attach_cmd, debugCmd_acts hn hr, if_neg (by simp [hl])], fun m => ?_, rfl⟩
  change m ∈ (if s.attached.contains n then s.attached else n :: s.attached) ↔ _
  split
  · next hin =>
    have hin : n ∈ s.attached := List.contains_iff_mem.mp hin
    exact ⟨.inr, fun hm => hm.elim (fun h => h ▸ hin) id⟩
  · exact List.mem_cons

theorem detach_unattached (hl : (s.ctx n).live = true) (ha : n ∉ s.attached) :
    exec (.debugDetach h n) s = .next ((s.hears h).replies h false 1 []) := by
  have hno : (s.hears h).attached.contains n = false := by
    rw [Bool.eq_false_iff]
    exact mt List.contains_iff_mem.mp ha
  rw [detach_cmd, debugCmd_acts hn hr, if_neg (by simp [hl])]
  dsimp only
  rw [hno]
  rfl

/-- The last debugger of a context lets its holds end. -/
theorem detach_detaches (hl : (s.ctx n).live = true) (ha : n ∈ s.attached) : ∃ t, exec (.debugDetach h n) s = .next t ∧ n ∉ t.attached ∧
    (∀ x ∈ t.holds, x.ctx ≠ n) ∧ .response h.seq 0 [] ∈ t.toHost.map HostOut.msg := by
  obtain ⟨u, hu⟩ : ∃ u : State, u = { s.hears h with attached := s.attached.filter (fun m => m != n) } := ⟨_, rfl⟩
  have hin : (s.hears h).attached.contains n = true := List.contains_iff_mem.mpr ha
  have hgo : exec (.debugDetach h n) s = .next (respond (endHolds n u.holds.length u) h 0 []) := by
    rw [detach_cmd, debugCmd_acts hn hr, if_neg (by simp [hl])]
    dsimp only
    rw [hin, hu]
    rfl
  obtain ⟨hatt, hholds⟩ := endHolds_end n u.holds.length (Nat.le_refl u.holds.length)
  obtain ⟨w, hw⟩ : ∃ w, w = endHolds n u.holds.length u := ⟨_, rfl⟩
  rw [← hw] at hatt hholds hgo
  refine ⟨_, hgo, fun hmem => ?_, hholds, List.mem_map.mpr ⟨_, List.mem_append_right _ (List.mem_singleton.mpr rfl), rfl⟩⟩
  have hmem' : n ∈ w.attached := hmem
  rw [hatt, hu] at hmem'
  simpa using (List.mem_filter.mp hmem').2

/-! ## Stop and resume -/

/-- A job of the context. -/
def HasJob (s : State) (n c : Nat) : Prop := c < 512 ∧ (s.core c).job ≠ none ∧ (s.core c).ctx = n

theorem debugJob_goes (hl : (s.ctx n).live = true) (hj : HasJob s n c) : debugJob i h n c act s = .next (act (s.hears h)) := by
  obtain ⟨hc, hjob, hctx⟩ := hj
  rw [debugJob_acts hn hr, if_neg]
  rintro (hd | hc' | hnone | hne)
  · rw [hl] at hd
    cases hd
  · omega
  · exact hjob hnone
  · exact hne hctx

omit hn hr in
theorem stop_cmd : exec (.debugStop h n c) s = debugJob (.debugStop h n c) h n c (fun s1 =>
    if (s1.ctx n).gauge then
      let d := s1.domain n (dieOf c)
      let cs := (coresOf s1 n).filter (fun c => d.contains (clusterOf c))
      if (s1.cluster (clusterOf c)).frozen.contains .debug then respond s1 h 0 []
      else respond (freezeAll .debug d (stopWaiters cs s1)) h 0 ((Config.dumpBytes (cs.flatMap (dumpOf s1))).take 65528)
    else
      let s2 := unissue s1 c
      respond (s2.setCore c { s2.core c with stopped := true }) h 0 []) s := rfl

omit hn hr in
theorem resume_cmd : exec (.debugResume h n c) s = debugJob (.debugResume h n c) h n c (fun s1 =>
    if (s1.ctx n).gauge then respond (thawAll .debug (s1.domain n (dieOf c)) s1) h 0 []
    else respond (s1.setCore c { s1.core c with stopped := false }) h 0 []) s := rfl

/-- A job in rib mode stops. -/
theorem stop_rib (hl : (s.ctx n).live = true) (hj : HasJob s n c) (hg : (s.ctx n).gauge = false) :
    ∃ t, exec (.debugStop h n c) s = .next t ∧ (t.core c).stopped = true ∧ t.mem = s.mem ∧
      t.toHost = ((s.hears h).replies h false 0 []).toHost ∧ (∀ d, d ≠ c → t.core d = s.core d) ∧
      (t.core c).tile = (s.core c).tile ∧ (t.core c).mbox = (s.core c).mbox ∧ (t.core c).tokens = (s.core c).tokens ∧
      (t.core c).q = (s.core c).q ∧ ∀ e, (t.core c).stream e = ((s.core c).stream e).saved := by
  obtain ⟨E, Q, R, hun⟩ := unissue_eq (s.hears h) c
  obtain ⟨u, hu⟩ : ∃ u, u = unissue (s.hears h) c := ⟨_, rfl⟩
  have hcore : u.core c = { s.core c with
      reserved := R, a := (s.core c).a.saved, x := (s.core c).x.saved, m := (s.core c).m.saved } := by
    rw [hu, hun]
    exact State.core_setCore_self _ _ _
  have hgauge : ((s.hears h).ctx n).gauge = false := hg
  obtain ⟨v, hv⟩ : ∃ v, v = u.setCore c { u.core c with stopped := true } := ⟨_, rfl⟩
  have hvcore : v.core c = { s.core c with
      reserved := R, a := (s.core c).a.saved, x := (s.core c).x.saved, m := (s.core c).m.saved, stopped := true } := by
    rw [hv, State.core_setCore_self, hcore]
  refine ⟨respond v h 0 [], ?_, ?_, ?_, ?_, fun d hd => ?_, ?_, ?_, ?_, ?_, fun e => ?_⟩
  · rw [stop_cmd, debugJob_goes hn hr hl hj, hgauge, if_neg Bool.false_ne_true, hv, hu]
  · exact congrArg Core.stopped hvcore
  · change v.mem = _
    rw [hv, hu, hun]
    rfl
  · rw [hv, hu, hun]
    rfl
  · change v.core d = _
    rw [hv, State.core_setCore_ne _ _ hd, hu, hun, State.core_setCore_ne _ _ hd]
    rfl
  · exact (congrArg Core.tile hvcore).trans rfl
  · exact (congrArg Core.mbox hvcore).trans rfl
  · exact (congrArg Core.tokens hvcore).trans rfl
  · exact (congrArg Core.q hvcore).trans rfl
  · refine (congrArg (fun k => Core.stream k e) hvcore).trans ?_
    cases e <;> rfl

/-- The cores whose domain stops. -/
def stopCores (s : State) (n c : Nat) : List Nat := (coresOf s n).filter (fun d => (s.domain n (dieOf c)).contains (clusterOf d))

/-- A domain in gauge mode stops. -/
theorem stop_gauge (hl : (s.ctx n).live = true) (hj : HasJob s n c) (hg : (s.ctx n).gauge = true)
    (hrun : .debug ∉ (s.cluster (clusterOf c)).frozen) : ∃ t l, exec (.debugStop h n c) s = .next t ∧
      t.toHost = ((s.hears h).replies h false 0 l).toHost ∧ t.mem = s.mem ∧
      (∀ d, (∀ m, (s.core d).a.at_ ≠ .awaiting m) → t.core d = s.core d) ∧
      (∀ d m, d < 512 → (s.core d).a.at_ = .awaiting m → (s.core d).job ≠ none → (s.core d).ctx = n →
        clusterOf d ∈ s.domain n (dieOf c) → (t.core d).a.at_ = .free ∧ (t.core d).a.run = .running ∧ ∀ x ∈ t.entries, d ∉ x.waiters) ∧
      ∀ g ∈ s.domain n (dieOf c), .debug ∉ (s.cluster g).frozen →
        (t.cluster g).frozen = (s.cluster g).frozen ++ [.debug] ∧ t.localCount g = s.localCount g := by
  obtain ⟨u, hu⟩ : ∃ u, u = s.hears h := ⟨_, rfl⟩
  have hstop := WaitStops.of_stopWaiters (stopCores s n c) u
  obtain ⟨v, hv⟩ : ∃ v, v = stopWaiters (stopCores s n c) u := ⟨_, rfl⟩
  rw [← hv] at hstop
  obtain ⟨E, C, hframe⟩ := hstop.frame
  obtain ⟨C', hfreeze⟩ := freezeAll_frame .debug (s.domain n (dieOf c)) v
  obtain ⟨w, hw⟩ : ∃ w, w = freezeAll .debug (s.domain n (dieOf c)) v := ⟨_, rfl⟩
  have hcore : ∀ d, u.core d = s.core d := fun d => by rw [hu]; rfl
  have hwcore : ∀ d, w.core d = v.core d := fun d => by rw [hw, hfreeze]; rfl
  have hgauge : ((s.hears h).ctx n).gauge = true := hg
  have hfrozen : ((s.hears h).cluster (clusterOf c)).frozen.contains .debug = false := by
    rw [Bool.eq_false_iff]
    exact mt List.contains_iff_mem.mp hrun
  obtain ⟨l, hdump⟩ : ∃ l, l = (Config.dumpBytes ((stopCores s n c).flatMap (dumpOf u))).take 65528 := ⟨_, rfl⟩
  refine ⟨respond w h 0 l, l, ?_, ?_, ?_, fun d hd => ?_,
    fun d m hlt hat hjob hctx hin => ?_, fun g hin hout => ?_⟩
  · rw [stop_cmd, debugJob_goes hn hr hl hj, hgauge, if_pos rfl]
    dsimp only
    rw [hfrozen, if_neg Bool.false_ne_true, hdump, hw, hv, hu]
    rfl
  · rw [hw, hfreeze, hframe, hu]
    rfl
  · change w.mem = _
    rw [hw, hfreeze, hframe, hu]
    rfl
  · exact (hwcore d).trans ((hstop.others d fun m hat => hd m (by rw [← hcore]; exact hat)).trans (hcore d))
  · obtain ⟨j, hj'⟩ := Option.ne_none_iff_exists'.mp hjob
    have hmem : d ∈ stopCores s n c := by
      rw [job_ctx hj'] at hctx
      exact List.mem_filter.mpr ⟨hctx ▸ mem_coresOf hj', List.contains_iff_mem.mpr hin⟩
    obtain ⟨hfree, hrunning, hent⟩ := hstop.stopped d hmem m (by rw [Awaits, hcore]; exact hat)
    have hwent : w.entries = v.entries := by rw [hw, hfreeze]
    change (w.core d).a.at_ = _ ∧ (w.core d).a.run = _ ∧ ∀ x ∈ w.entries, d ∉ x.waiters
    rw [hwcore, hwent]
    exact ⟨hfree, hrunning, hent⟩
  · have hcluster : v.cluster g = s.cluster g := by rw [hframe, hu]; rfl
    have hcount : v.localCount g = s.localCount g := by rw [hframe, hu]; rfl
    change (w.cluster g).frozen = _ ∧ w.localCount g = _
    rw [hw, frozen_freezeAll_once _ _ hin (by rw [hcluster]; exact hout), localCount_freezeAll, hcluster, hcount]
    exact ⟨rfl, rfl⟩

theorem resume_rib (hl : (s.ctx n).live = true) (hj : HasJob s n c) (hg : (s.ctx n).gauge = false) : exec (.debugResume h n c) s =
    .next (((s.hears h).setCore c { s.core c with stopped := false }).replies h false 0 []) := by
  have hgauge : ((s.hears h).ctx n).gauge = false := hg
  rw [resume_cmd, debugJob_goes hn hr hl hj, hgauge, if_neg Bool.false_ne_true]
  rfl

theorem resume_gauge (hl : (s.ctx n).live = true) (hj : HasJob s n c) (hg : (s.ctx n).gauge = true) : ∃ t, exec (.debugResume h n c) s = .next t ∧
    t.toHost = ((s.hears h).replies h false 0 []).toHost ∧ t.cores = s.cores ∧ t.mem = s.mem ∧
    ∀ g ∈ s.domain n (dieOf c), .debug ∉ (t.cluster g).frozen := by
  obtain ⟨C, hthaw⟩ := thawAll_frame .debug (s.domain n (dieOf c)) (s.hears h)
  obtain ⟨w, hw⟩ : ∃ w, w = thawAll .debug (s.domain n (dieOf c)) (s.hears h) := ⟨_, rfl⟩
  have hgauge : ((s.hears h).ctx n).gauge = true := hg
  refine ⟨respond w h 0 [], ?_, ?_, ?_, ?_, fun g hin => ?_⟩
  · rw [resume_cmd, debugJob_goes hn hr hl hj, hgauge, if_pos rfl, hw]
    rfl
  · rw [hw, hthaw]
    rfl
  · change w.cores = _
    rw [hw, hthaw]
    rfl
  · change w.mem = _
    rw [hw, hthaw]
    rfl
  · change .debug ∉ (w.cluster g).frozen
    rw [hw]
    exact thawed_thawAll .debug hin _

end

end

end Sys2Proof.Machine
end

section
/-! SUPPORT. What a debugger reads and writes (R426), and the obligation about debugging and reset. -/

namespace Sys2Proof.Machine

section
variable {s : State} {h : HostHdr} {n c : Nat} {item : DebugItem} {v : Vec}

/-! ## The commands -/

theorem read_cmd : exec (.debugReadState h n c item) s = debugJob (.debugReadState h n c item) h n c (fun s1 =>
    if !reachable s1 c then respond s1 h 1 []
    else match debugRead s1 c item with
      | some l => respond s1 h 0 l
      | none => respond s1 h 1 []) s := by
  change execDebugReadState h n c item s = _
  rw [execDebugReadState] <;> rfl

theorem write_cmd : exec (.debugWriteState h n c item v) s = debugJob (.debugWriteState h n c item v) h n c (fun s1 =>
    if !reachable s1 c then respond s1 h 1 []
    else match debugWrite s1 c item v with
      | some s2 => respond s2 h 0 []
      | none => respond s1 h 1 []) s := by
  change execDebugWriteState h n c item v s = _
  rw [execDebugWriteState] <;> rfl

section
variable (hn : HostNext s h) (hr : s.recovery = false) (hl : (s.ctx n).live = true) (hj : HasJob s n c)
include hn hr hl hj

theorem unreachable_answers (hu : reachable s c = false) :
    exec (.debugReadState h n c item) s = .next ((s.hears h).replies h false 1 []) ∧
    exec (.debugWriteState h n c item v) s = .next ((s.hears h).replies h false 1 []) := by
  have hreach : reachable (s.hears h) c = false := hu
  constructor
  · rw [read_cmd, debugJob_goes hn hr hl hj, hreach]
    rfl
  · rw [write_cmd, debugJob_goes hn hr hl hj, hreach]
    rfl

section
variable (hu : reachable s c = true)
include hu

theorem read_answers {l : List Byte} (hread : debugRead (s.hears h) c item = some l) :
    exec (.debugReadState h n c item) s = .next ((s.hears h).replies h false 0 l) := by
  have hreach : reachable (s.hears h) c = true := hu
  rw [read_cmd, debugJob_goes hn hr hl hj, hreach, if_neg (by decide), hread]
  rfl

theorem write_writes {t : State} (hwrite : debugWrite (s.hears h) c item v = some t) :
    exec (.debugWriteState h n c item v) s = .next (t.replies h false 0 []) := by
  have hreach : reachable (s.hears h) c = true := hu
  rw [write_cmd, debugJob_goes hn hr hl hj, hreach, if_neg (by decide), hwrite]
  rfl

theorem write_answers (hwrite : debugWrite (s.hears h) c item v = none) :
    exec (.debugWriteState h n c item v) s = .next ((s.hears h).replies h false 1 []) := by
  have hreach : reachable (s.hears h) c = true := hu
  rw [write_cmd, debugJob_goes hn hr hl hj, hreach, if_neg (by decide), hwrite]
  rfl

end
end

/-! ## What is read -/

theorem scalarCount_ge (e : Eng) : 16 ≤ scalarCount e := by cases e <;> decide

theorem read_item (e : Eng) (m : Nat) (l : List Byte) (hi : (item, l) ∈ [
      (.pc e, bytesOf 8 ((s.core c).stream e).pc.toNat), (.scalar e (m % 16), bytesOf 8 (((s.core c).stream e).reg (m % 16)).toNat),
      (.vector (m % 32), bytesOfVec ((s.core c).vec (m % 32))), (.predicate (m % 64), bytesOf 64 ((s.core c).pred (m % 64)).toNat),
      (.half (m % 8), bytesOfVec (tget (s.core c).ms.e (m % 8) 0)),
      (.tileByte (m % 0x80000), [readB (s.core c).tile (m % 0x80000)]), (.token (m % 6), [BitVec.ofNat 8 ((s.core c).token (m % 6))]),
      (.scalarFull e (m % 16), [if m % 16 ∈ ((s.core c).stream e).empty then 0 else 1]),
      (.vectorFull (m % 32), [if (s.core c).vecFull (m % 32) = true then 1 else 0]),
      (.halfFull (m % 8), [if m % 8 ∈ (s.core c).ms.efull then 1 else 0]),
      (.accRow (m % 4) (m % 256), bytesOf 256 (((s.core c).accTile (m % 4)).row (m % 256)).bits.toNat)]) :
    debugRead s c item = some l := by
  have hlt : ∀ k, 0 < k → m % k < k := fun k hk => Nat.mod_lt m hk
  have hscalar : m % 16 < scalarCount e := Nat.lt_of_lt_of_le (hlt 16 (by decide)) (scalarCount_ge e)
  simp only [List.mem_cons, List.not_mem_nil, or_false, Prod.mk.injEq] at hi
  rcases hi with ⟨rfl, rfl⟩ | ⟨rfl, rfl⟩ | ⟨rfl, rfl⟩ | ⟨rfl, rfl⟩ | ⟨rfl, rfl⟩ | ⟨rfl, rfl⟩ | ⟨rfl, rfl⟩ | ⟨rfl, rfl⟩ | ⟨rfl, rfl⟩ | ⟨rfl, rfl⟩ |
    ⟨rfl, rfl⟩
  · rfl
  · exact if_pos hscalar
  · exact if_pos (hlt 32 (by decide))
  · exact if_pos (hlt 64 (by decide))
  · exact if_pos (hlt 8 (by decide))
  · exact if_pos (hlt 0x80000 (by decide))
  · exact if_pos (hlt 6 (by decide))
  · refine (if_pos hscalar).trans ?_
    by_cases hin : m % 16 ∈ ((s.core c).stream e).empty <;> simp [bitByte, hin]
  · refine (if_pos (hlt 32 (by decide))).trans ?_
    rfl
  · refine (if_pos (hlt 8 (by decide))).trans ?_
    by_cases hin : m % 8 ∈ (s.core c).ms.efull <;> simp [bitByte, hin]
  · exact if_pos (by simp [hlt])

/-! ## What is written -/

theorem wordAt_zero (v : Vec) : wordAt v 0 = v.setWidth 64 := by
  rw [wordAt, Nat.pow_zero, Nat.div_one]
  exact BitVec.eq_of_toNat_eq (by rw [BitVec.toNat_ofNat, BitVec.toNat_setWidth])

theorem setWidth_mod4 (v : Vec) : (v.setWidth 64).toNat % 4 = v.toNat % 4 := by
  rw [BitVec.toNat_setWidth]
  omega

theorem one_lt_word {x : Word} : 1 < x.toNat ↔ x ≠ 0 ∧ x ≠ 1 := by
  rw [ne_eq, ne_eq, BitVec.toNat_eq, BitVec.toNat_eq]
  have h0 : (0 : Word).toNat = 0 := rfl
  have h1 : (1 : Word).toNat = 1 := rfl
  omega

/-- The pc of a stream. -/
theorem write_pc (e : Eng) : debugWrite s c (.pc e) v = if v.toNat % 4 = 0 then
    some (s.setStream ⟨c, e⟩ { s.stream ⟨c, e⟩ with pc := v.setWidth 64 }) else none := by
  rw [debugWrite]
  dsimp only
  rw [wordAt_zero, setWidth_mod4]
  rfl

/-- A scalar register. -/
theorem write_scalar (e : Eng) {m : Nat} (h1 : 1 ≤ m) (h16 : m < 16) : debugWrite s c (.scalar e m) v =
    some (s.setStream ⟨c, e⟩ { s.stream ⟨c, e⟩ with regs := tset (s.stream ⟨c, e⟩).regs m (v.setWidth 64) }) := by
  have hcount := scalarCount_ge e
  rw [debugWrite]
  dsimp only
  rw [wordAt_zero, if_neg (by simp; omega)]
  rfl

/-- The mark of a scalar register. -/
theorem write_scalarFull (e : Eng) {m : Nat} (h1 : 1 ≤ m) (h16 : m < 16) : debugWrite s c (.scalarFull e m) v =
    if 1 < (v.setWidth 64).toNat then none
    else some (s.setStream ⟨c, e⟩ { s.stream ⟨c, e⟩ with
      empty := markFull ((v.setWidth 64).toNat == 1) m (s.stream ⟨c, e⟩).empty }) := by
  have hcount := scalarCount_ge e
  rw [debugWrite]
  dsimp only
  rw [wordAt_zero]
  refine if_congr ?_ rfl rfl
  simp
  omega

/-- A handle register. -/
theorem write_handle {m : Nat} : debugWrite s c (.handle m) v =
    if 16 ≤ m then none
    else if v.setWidth 64 = BitVec.allOnes 64 then
      some (s.setCore c { s.core c with as := { (s.core c).as with h := tdel (s.core c).as.h m } })
    else if (tfind (s.ctx (s.core c).ctx).handles (v.setWidth 64).toNat).isSome then
      some (s.setCore c { s.core c with as := { (s.core c).as with h := tset (s.core c).as.h m (v.setWidth 64).toNat } })
    else none := by
  rw [debugWrite]
  dsimp only
  rw [wordAt_zero]

end

section
variable {s : State} {h : HostHdr} {n c : Nat} {item : DebugItem} {v : Vec}

/-- A reset begins as the host asks for it. -/
theorem reset_restarts (hn : HostNext s h) (hr : s.recovery = false) : exec (.reset h) s =
    .next (((s.hears h).replies h false 0 []).restarted (!slotGood s.flash 0 && !slotGood s.flash 1)
      (if slotGood s.flash 0 = false ∧ slotGood s.flash 1 = true then 1 else 0)) := by
  have hcmd : exec (.reset h) s = hostCmd (.reset h) h false false (fun s1 => warmReset (respond s1 h 0 [])) s := rfl
  rw [hcmd, hostCmd_acts hn (.inl hr), warmReset_restarts]
  rfl

end

/-- Settles O55, command by command. -/
theorem debugAndReset : Obligations.DebugAndReset := by
  intro s h n c item v
  dsimp only
  refine ⟨congrArg _ (warmReset_restarts s), congrArg _ (warmReset_restarts s), fun hn hr => ⟨?_, fun hl i hi => debug_dead hn hr hl hi, fun hl =>
    ⟨attach_attaches hn hr hl, detach_unattached hn hr hl, detach_detaches hn hr hl, fun hg i hi => debug_noJob hn hr hg hi,
      fun hc hjob hctx => ?_⟩⟩⟩
  · exact reset_restarts hn hr
  · have hj : HasJob s n c := ⟨hc, hjob, hctx⟩
    refine ⟨fun hg => ⟨?_, resume_rib hn hr hl hj hg⟩, fun hg => ⟨stop_gauge hn hr hl hj hg, resume_gauge hn hr hl hj hg⟩,
      unreachable_answers hn hr hl hj, fun hu e m l => ⟨fun hi => read_answers hn hr hl hj hu (read_item (s := s.hears h) e m l hi), ?_⟩⟩
    · obtain ⟨t, hgo, hstopped, hmem, htold, hcores, htile, hmbox, htokens, hq, hstreams⟩ := stop_rib hn hr hl hj hg
      refine ⟨t, hgo, hstopped, hmem, htold, hcores, htile, hmbox, htokens, hq, fun e => ?_⟩
      rw [hstreams]
      exact ⟨pc_saved _, regs_saved _, saved_free, fun _ => saved_idle⟩
    · refine ⟨fun hi h4 => ?_, fun hi h4 => ?_, fun hi h1 h16 => ?_, fun hi h1 h16 => ⟨fun hx => ?_, fun hx => ?_, fun h0 hx => ?_⟩, fun hi hm => ?_,
        fun hi hm => ?_, fun hi hm hx => ?_, fun hi hm hx => ⟨fun hh => ?_, fun hh => ?_⟩, fun hi hm => ?_⟩
      all_goals subst hi
      · exact write_writes hn hr hl hj hu ((write_pc e).trans (if_pos h4))
      · exact write_answers hn hr hl hj hu ((write_pc e).trans (if_neg h4))
      · exact write_writes hn hr hl hj hu (write_scalar e h1 h16)
      · refine write_writes hn hr hl hj hu ((write_scalarFull e h1 h16).trans ?_)
        rw [hx]
        rfl
      · refine write_writes hn hr hl hj hu ((write_scalarFull e h1 h16).trans ?_)
        rw [hx]
        rfl
      · exact write_answers hn hr hl hj hu ((write_scalarFull e h1 h16).trans (if_pos (one_lt_word.mpr ⟨h0, hx⟩)))
      · exact write_writes hn hr hl hj hu (if_pos hm)
      · refine write_writes hn hr hl hj hu ((if_pos hm).trans ?_)
        rw [wordAt_zero]
        rfl
      · refine write_writes hn hr hl hj hu (write_handle.trans ((if_neg (by omega)).trans (if_pos hx)))
      · refine write_writes hn hr hl hj hu (write_handle.trans ((if_neg (by omega)).trans ((if_neg hx).trans (if_pos ?_))))
        rw [show ((s.hears h).core c).ctx = n from hctx]
        exact hh
      · refine write_answers hn hr hl hj hu (write_handle.trans ((if_neg (by omega)).trans ((if_neg hx).trans (if_neg ?_))))
        rw [show ((s.hears h).core c).ctx = n from hctx, show (s.hears h).ctx n = s.ctx n from rfl, hh]
        decide
      · exact write_answers hn hr hl hj hu (write_handle.trans (if_pos hm))

end Sys2Proof.Machine
end
